-- ==== Sys2Proof/Word.lean ====
section
/-!
DEFINITION. The word types of the DXT-9460 and the one shape in which the model keeps sparse data.
-/

namespace Sys2Proof

/-- A 32-bit register, instruction word or memory word (R9). -/
abbrev Word := BitVec 32

/-- A 64-bit value: a register pair, a table entry, a queue-page field. -/
abbrev DWord := BitVec 64

/-- One byte of memory (R9, R302). -/
abbrev Byte := BitVec 8

/-- One bit per lane of a party (R131). -/
abbrev Mask := BitVec 96

/-- A scalar register number, s0 to s63 (R135). -/
abbrev SReg := BitVec 6

/-- A vector register number, v0 to v127 (R133). -/
abbrev VReg := BitVec 7

/-- Sparse data by key: the keys rise strictly. -/
abbrev Map (α : Type) := List (Nat × α)

/-- Sparse data whose unlisted keys read as zero: the keys rise strictly and no listed value is zero. -/
abbrev Store (w : Nat) := List (Nat × BitVec w)

end Sys2Proof
end

