-- ==== Sys2Proof/Syntax.lean ====
section
/-!
DEFINITION. The steps of the device: one constructor of `Instr` for each row of the opcode table. The rows with an
encoding are the instructions of parties and of matrix sequencers; the other rows are events, steps that an engine,
the graph scheduler, firmware, the host or the outside world makes. An event carries as data what the table's step
leaves to whoever makes it (which command, which core, which value arrives).
-/

namespace Sys2Proof

/-! ## Operand forms and codes -/

/-- A vector B operand: a register, or the B literal that VB = 0x7F announces (R161). -/
inductive BOp where
  | reg (r : VReg)
  | lit (w : Word)
deriving DecidableEq, Repr

/-- A scalar B operand: a register, or the B literal that SB = 0x3F announces (R161). -/
inductive SOp where
  | reg (r : SReg)
  | lit (w : Word)
deriving DecidableEq, Repr

/-- Element layout of the vector integer majors 0x10 to 0x13 (R228). -/
inductive ITy where
  | w32 | w64 | h16 | b8
deriving DecidableEq, Repr

/-- Element layout of the vector floating-point majors 0x20 to 0x23 (R242). -/
inductive FTy where
  | f32 | f64 | bf16 | f16
deriving DecidableEq, Repr

/-- Conditions of scmp and vcmp, in the order of their codes (R164, R165, R220). -/
inductive ICond where
  | eq | ne | ltI | leI | ltN | leN | gtI | gtN
deriving DecidableEq, Repr

/-- Conditions of vfcmp, in the order of their codes (R248). -/
inductive FCond where
  | eq | ne | lt | le | gt | ge | un | ord
deriving DecidableEq, Repr

/-- Tests of bc (R373). -/
inductive BTest where
  | z | nz | lt | ge | gt | le
deriving DecidableEq, Repr

/-- Access size and extension, the SZ codes 0 to 5 (R160). -/
inductive Size where
  | n8 | i8 | n16 | i16 | w32 | d64
deriving DecidableEq, Repr

/-- Cache policy (R160). -/
inductive Policy where
  | ca | cg | cs | cn
deriving DecidableEq, Repr

/-- Strength of an access (R162). -/
inductive Strength where
  | wk | st | acq | rel | ar
deriving DecidableEq, Repr

/-- Scope of an access (R162, R303). -/
inductive Scope where
  | pt | tm | cl | dd | dv | sy | dvRem
deriving DecidableEq, Repr

/-- Strength and scope of an access, from its order word. -/
structure Ord where
  str : Strength
  scope : Scope
deriving DecidableEq, Repr

/-- Atomic operations (R162, R316). -/
inductive AOp where
  | add | fadd | min | max | and | or | xor | exch | cas
deriving DecidableEq, Repr

/-- Types of atomics (R162). -/
inductive ATy where
  | i32 | n32 | i64 | n64 | f32 | f64
deriving DecidableEq, Repr

/-- Operations of vred and vscan (R165, R238). -/
inductive RedOp where
  | add | minI | maxI | minN | maxN | and | or | xor | fadd | fmin | fmax
deriving DecidableEq, Repr

/-- Conversion codes of vfcvt (R165, R256). -/
inductive Cvt where
  | fp32 | fp64 | f19 | bf16 | fp16 | e5m2 | e4m3 | e3m2 | e2m3 | e2m1 | int8 | uint8 | int4 | trn2
  | i32 | i16 | i64 | n16 | n32 | n64
deriving DecidableEq, Repr

/-- The kinds of vvote (R241). -/
inductive VoteKind where
  | all | any | uniform
deriving DecidableEq, Repr

/-- The combine operations of ssmerge and spx (R123, R124). -/
inductive Comb where
  | add | max | min
deriving DecidableEq, Repr

/-- Forms of ssint (R122, R168). -/
inductive IntForm where
  | idx | pos | cnt
deriving DecidableEq, Repr

/-- Barrier scopes (R169, R379). -/
inductive BarScope where
  | tm | cl | run
deriving DecidableEq, Repr

/-- Forms of futres (R362, R368). -/
inductive FutForm where
  | imm
  | mx
  | cmd (s : SReg)
deriving DecidableEq, Repr

/-- The source of dget: a scalar pair, or a record word (R362, R370). -/
inductive DgetSrc where
  | pair (a : SReg)
  | word (w : BitVec 6)
deriving DecidableEq, Repr

/-- Conditions of kbr: branch if non-zero, if zero, or decrement and branch if non-zero (R284). -/
inductive KCond where
  | nz | z | dec
deriving DecidableEq, Repr

/-- An optional k-register block offset (KO and K of R170). -/
abbrev KOff := Option (BitVec 4)

/-! ## Data that events carry -/

/-- Who issues an instruction: a PC slot of a party, or a team's matrix sequencer. -/
inductive Who where
  | party (tid : Nat) (p : Nat) (slot : Bool)
  | seq (tid : Nat)
deriving DecidableEq, Repr

/-- A barrier of one of the three scopes (R379): a team's, a cluster's or a run's. -/
inductive BarRef where
  | team (tid : Nat) (b : Nat)
  | cluster (cl : Nat) (b : Nat)
  | run (r : Nat) (b : Nat)
deriving DecidableEq, Repr

/-- What a fabric request asks of its target (R439, R444, R449). -/
inductive FabOp where
  /-- Bytes from an address on: an engine's read or write, or one lane's on a DEV page. -/
  | read (n : Nat)
  | write (bytes : List Byte)
  /-- The access of a vector instruction's lanes to one 256-byte line (R442): a mask of its bytes, and the line's data. -/
  | readLine (mask : BitVec 256)
  | writeLine (mask : BitVec 256) (line : BitVec 2048)
  | atomic (op : AOp) (ty : ATy) (x : DWord) (new : DWord) (returns : Bool)
  /-- A reduction's combined operand, exact as in R319: a value, and the special operands seen; and whether its strength is
  .acq or .ar, so that it never merges. -/
  | reduce (op : AOp) (ty : ATy) (v : Int) (special : Nat) (acquires : Bool)
  /-- The same of a cvst, its convoy named by identity and version. -/
  | cvstore (cid : BitVec 24) (ver : Word) (mask : BitVec 256) (line : BitVec 2048)
  /-- The same of a cvld in a view with a view stamp. -/
  | cvload (stamp : DWord) (mask : BitVec 256)
  /-- A convoy is opened at its home (R331). -/
  | cvopen
  /-- A cvclose asks a device that holds lines of the convoy to acknowledge them (R329, R333). -/
  | cvprepare (cid : BitVec 24) (ver : Word)
  /-- The commit of a convoy at its home; `comp` is the number of its lines, minus 1. -/
  | cvhome (cid : BitVec 24) (ver : Word) (comp : Nat)
  /-- The convoy has committed with a stamp: its lines follow (R326). -/
  | cvcommit (cid : BitVec 24) (ver : Word) (stamp : DWord) (comp : Nat)
  /-- The convoy has aborted: its pending versions are discarded. -/
  | cvabort (cid : BitVec 24) (ver : Word)
  /-- Records of one emission for a queue of the run with an identity, on a die of the target (R363). -/
  | emission (run : Nat) (die : Nat) (ns : Bool) (recs : List (List Word))
  /-- Operations on a join slot of the target (R357). -/
  | resolve (h : Word) (n : Nat) (deferred : Bool)
  | register (h : Word) (rec : List Word)
  | joinRead (h : Word)
  /-- The command that a resolution awaited has ended with its team's fault (R359). -/
  | joinFail (h : Word)
  /-- An emission of the same agent that waits at its queue is discarded with its team (R402). -/
  | withdraw (seqno : BitVec 16)
  /-- A fatal fault has stopped the run with an identity on another device of it (R404). -/
  | fatalStop (run : Nat)
deriving DecidableEq, Repr

/-- A request that crosses the fabric, named by its source rank, agent and 16-bit sequence number (R445, R450). -/
structure FabReq where
  src : Nat
  dst : Nat
  agent : Nat
  seqno : BitVec 16
  addr : Nat
  op : FabOp
  /-- tbase at the first issue. -/
  stamp : DWord
  /-- The place of an engine's write in the order of R112. -/
  place : Option Nat
  /-- How many requests to the same 256-byte line of the target, or to the same join slot, the source has issued before
  (R444, R357). -/
  order : Nat
deriving DecidableEq, Repr

/-- What comes back for a fabric request (R446, R449). -/
inductive FabResp where
  /-- The bytes read, as a little-endian number; of a line, with the bytes outside the mask zero. -/
  | data (x : Nat)
  /-- What a cvld returns that finds no version old enough: the front. -/
  | front (x : Nat)
  | ack
  | hole
  | weightStore
  | ecc
  | retry
  /-- An emission waits in the order of its queue (R348): it is accepted later. -/
  | stalled
  | bounce (rank : Nat) (frame : Nat)
  /-- A join operation that faults at its slot: a cause and subcause (R357, R367). -/
  | joinFault (cause sub : Nat)
deriving DecidableEq, Repr

/-- The units that firmware or the device fences (R406). -/
inductive FenceUnit where
  | engine (cluster : Nat)
  | core (core : Nat)
  | channel (core : Nat) (ch : Nat)
  | ssu (cluster : Nat)
  | ne (cluster : Nat)
  | slice (die : Nat) (slice : Nat)
deriving DecidableEq, Repr

/-- Where an array's error check finds an error (R69 to R71): at a physical address, in HBM4E, in the weight store or in
its copy in L2; in a 32-bit word of a team's local store, its accumulator store or a vector register, in an entry of a
reconvergence stack; or in an array, by its row in R69's table, whose contents the model does not hold apart. -/
inductive ErrSite where
  | memory (pa : Nat)
  | l2 (pa : Nat)
  | localStore (tid word : Nat)
  | accumulator (tid key : Nat)
  | vector (tid p reg lane : Nat)
  | stack (tid p entry : Nat)
  | array (row : Nat)
deriving DecidableEq, Repr

/-- What a link partner offers in training (R439). -/
structure LinkOffer where
  lanes : Nat
  gtPerLane : Nat
  /-- True when the partner asks for nothing beyond the table of R439. -/
  onlyListed : Bool
deriving DecidableEq, Repr

/-- What a data-link flit is authenticated by (R451): the name of the key that sealed it, and whether it arrived as it was
sealed. -/
structure Flit where
  key : Nat
  intact : Bool
deriving DecidableEq, Repr

/-- The monitored quantities that a PLDM request may ask for (R464). -/
inductive PldmWhat where
  | temperature (die : Nat)
  | diePower (die : Nat)
  | packagePower
  | throttle (die : Nat)
  | fences
  | errorCount (array : Nat)
deriving DecidableEq, Repr

/-- What a firmware image is signed with, as far as the model tells signatures apart: the content, the digest of the key that
signed, and the content that it signed (log entry 86). -/
structure FwImage where
  content : Nat
  key : Nat
  signed : Nat
deriving DecidableEq, Repr

/-- What a die's power controller measures (R458): the die's power in milliwatts, and its hottest matrix-array sensor and its
hottest sensor in thousandths of a degree Celsius. -/
structure Reading where
  power : Nat
  array : Nat
  hottest : Nat
deriving DecidableEq, Repr

/-- What firmware sets when it maps a queue: the context tag (R23, R424); whether the queue is its own (R433); the limits T1 and
T2 in nanoseconds (R412); HANGT in cycles (R420); and the clusters, 1 GiB ranges of HBM4E and weight-store banks that it gives
to the queue's function before (R422). -/
structure MapOrder where
  tag : BitVec 16
  privileged : Bool
  t1 : Nat
  t2 : Nat
  hangt : Nat
  clusters : List Nat
  ranges : List Nat
  banks : List Nat
deriving DecidableEq, Repr

/-- A register of the function page or of a queue page that a plain register write reaches (R423, R434, R436). -/
inductive HostReg where
  | ring (q : Nat)
  | root (q : Nat)
  | statva (q : Nat)
  | invva (q : Nat)
  | invn (q : Nat)
  | flog
  | flogr
  | mbAddr
  | mbLen
  /-- A write of 64 bits, or of 32, at an offset of the function's BAR (R421). -/
  | bar (off : Nat) (wide : Bool)
deriving DecidableEq, Repr

/-- One step of the device: an instruction of a party, an instruction of a matrix stream, or an event. -/
inductive Instr where
  -- Scalar ALU, major 0x01 (R164, R219).
  | sadd (d a : SReg) (b : SOp)
  | ssub (d a : SReg) (b : SOp)
  | smul (d a : SReg) (b : SOp)
  | smulhI32 (d a : SReg) (b : SOp)
  | smulhN32 (d a : SReg) (b : SOp)
  | sand (d a : SReg) (b : SOp)
  | sor (d a : SReg) (b : SOp)
  | sxor (d a : SReg) (b : SOp)
  | sshl (d a : SReg) (b : SOp)
  | sshr (d a : SReg) (b : SOp)
  | ssra (d a : SReg) (b : SOp)
  | sminI32 (d a : SReg) (b : SOp)
  | sminN32 (d a : SReg) (b : SOp)
  | smaxI32 (d a : SReg) (b : SOp)
  | smaxN32 (d a : SReg) (b : SOp)
  | smov (d a : SReg)
  | spopc (d a : SReg)
  | sclz (d a : SReg)
  | sffs (d a : SReg)
  | scmp (c : ICond) (d a : SReg) (b : SOp)
  | ssel (c d a : SReg) (b : SOp)
  -- Scalar immediate forms, majors 0x02 to 0x09 (R221).
  | saddImm (d a : SReg) (i : BitVec 14)
  | sandImm (d a : SReg) (i : BitVec 14)
  | sorImm (d a : SReg) (i : BitVec 14)
  | sshlImm (d a : SReg) (n : BitVec 5)
  | sshrImm (d a : SReg) (n : BitVec 5)
  | ssraImm (d a : SReg) (n : BitVec 5)
  | sbfx (d a : SReg) (sign : Bool) (lsb w : BitVec 5)
  | sbfi (d a : SReg) (lsb w : BitVec 5)
  | sli (d : SReg) (i : BitVec 20)
  | slui (d : SReg) (i : BitVec 20)
  -- State instructions, majors 0x0A and 0x0B (R223 to R227).
  | sget (d : SReg) (n : BitVec 6)
  | sset (a : SReg) (n : BitVec 6)
  | ckwarn (d a : SReg)
  | setfmt (v : BitVec 6)
  | setmode (v : BitVec 6)
  -- Control flow, majors 0x0C to 0x0F (R371 to R377).
  | br (o : BitVec 22)
  | call (o : BitVec 22)
  | bc (t : BTest) (a : SReg) (o : BitVec 14)
  | bdiv (a : SReg) (o : BitVec 14)
  | nop
  | join
  | ret
  | jmpi (a : SReg)
  | exit
  | yield
  -- Vector integer, majors 0x10 to 0x18 (R228 to R234).
  | vadd (t : ITy) (d a : VReg) (b : BOp)
  | vsub (t : ITy) (d a : VReg) (b : BOp)
  | vmul (t : ITy) (d a : VReg) (b : BOp)
  | vmulhSigned (t : ITy) (d a : VReg) (b : BOp)
  | vmulhUnsigned (t : ITy) (d a : VReg) (b : BOp)
  | vmac (t : ITy) (d a : VReg) (b : BOp)
  | vand (t : ITy) (d a : VReg) (b : BOp)
  | vor (t : ITy) (d a : VReg) (b : BOp)
  | vxor (t : ITy) (d a : VReg) (b : BOp)
  | vnot (t : ITy) (d a : VReg)
  | vshl (t : ITy) (d a : VReg) (b : BOp)
  | vshr (t : ITy) (d a : VReg) (b : BOp)
  | vsra (t : ITy) (d a : VReg) (b : BOp)
  | vminSigned (t : ITy) (d a : VReg) (b : BOp)
  | vminUnsigned (t : ITy) (d a : VReg) (b : BOp)
  | vmaxSigned (t : ITy) (d a : VReg) (b : BOp)
  | vmaxUnsigned (t : ITy) (d a : VReg) (b : BOp)
  | vabs (t : ITy) (d a : VReg)
  | vneg (t : ITy) (d a : VReg)
  | vpopc (t : ITy) (d a : VReg)
  | vclz (t : ITy) (d a : VReg)
  | vmov (t : ITy) (d a : VReg)
  | vsel (t : ITy) (d a : VReg) (b : BOp)
  /-- `wide` selects the 64-bit pair elements of major 0x11. -/
  | vcmp (wide : Bool) (c : ICond) (s : SReg) (a : VReg) (b : BOp)
  | vaddImm (d a : VReg) (i : BitVec 12)
  | vli (d : VReg) (i : BitVec 19)
  | vbfx (d a : VReg) (sign : Bool) (lsb w : BitVec 5)
  | vbfi (d a : VReg) (lsb w : BitVec 5)
  | vshlImm (d a : VReg) (n : BitVec 5)
  | vshrImm (d a : VReg) (n : BitVec 5)
  | vsraImm (d a : VReg) (n : BitVec 5)
  -- Cross-lane, major 0x19, and the vector sget, major 0x1A (R235 to R241, R223).
  | vperm (d a : VReg) (b : BOp)
  | vbcast (d a : VReg) (n : BitVec 7)
  | vxshf (d a : VReg) (m : BitVec 7)
  | vred (op : RedOp) (d a : VReg)
  | vscan (op : RedOp) (excl : Bool) (d a : VReg)
  | vballot (s : SReg) (a : VReg)
  | vvote (k : VoteKind) (s : SReg) (a : VReg)
  | sgetIdLane (d : VReg)
  -- Vector floating point, majors 0x20 to 0x24 (R242 to R261).
  | vfadd (t : FTy) (d a : VReg) (b : BOp)
  | vfsub (t : FTy) (d a : VReg) (b : BOp)
  | vfmul (t : FTy) (d a : VReg) (b : BOp)
  | vfma (t : FTy) (d a : VReg) (b : BOp)
  | vfms (t : FTy) (d a : VReg) (b : BOp)
  | vfmin (t : FTy) (d a : VReg) (b : BOp)
  | vfmax (t : FTy) (d a : VReg) (b : BOp)
  | vfexp (t : FTy) (d a : VReg)
  | vfscl (t : FTy) (d a : VReg) (b : BOp)
  | vfclass (t : FTy) (d a : VReg)
  /-- `wide` selects FP64, major 0x21. -/
  | vf2sum (wide : Bool) (d a : VReg) (b : BOp)
  | vfrnd (t : FTy) (d a seed : VReg)
  | vrcp (t : FTy) (d a : VReg)
  | vrsq (t : FTy) (d a : VReg)
  | vsqrt (t : FTy) (d a : VReg)
  | vexp2 (t : FTy) (d a : VReg)
  | vlog2 (t : FTy) (d a : VReg)
  | vsin (t : FTy) (d a : VReg)
  | vcos (t : FTy) (d a : VReg)
  | vtanh (t : FTy) (d a : VReg)
  | vosmx (d a b : VReg)
  | vosms (d a : VReg)
  | vfcmp (t : FTy) (c : FCond) (s : SReg) (a : VReg) (b : BOp)
  | vfcvt (d a : VReg) (df sf : Cvt) (sat : Bool)
  -- Loads, stores and what goes with them (R183 to R198).
  | vld (d : VReg) (a : SReg) (b : BOp) (o : Option Ord) (pol : Policy) (z : Size)
  | vst (d : VReg) (a : SReg) (b : BOp) (o : Option Ord) (pol : Policy) (z : Size)
  | vldg (d : VReg) (a : SReg) (b : BOp) (o : Option Ord) (pol : Policy) (z : Size)
  | vsts (d : VReg) (a : SReg) (b : BOp) (o : Option Ord) (pol : Policy) (z : Size)
  | lld (d : VReg) (a : SReg) (b : BOp) (z : Size)
  | lst (d : VReg) (a : SReg) (b : BOp) (z : Size)
  /-- `wide` selects an FP64 tile pair, SZ 5. -/
  | ald (wide : Bool) (d : VReg) (a : SReg) (t : BitVec 4)
  | ast (wide : Bool) (d : VReg) (a : SReg) (t : BitVec 4)
  | pref (a : SReg) (b : SOp) (pol : Policy)
  | fence (str : Strength) (scope : Scope)
  | cclean (a : SReg) (b : SOp) (scope : Scope)
  | cinval (a : SReg) (b : SOp) (scope : Scope)
  -- Copies and queue ports (R199 to R209).
  | cpy (d : SReg) (ch : BitVec 3) (hd hs : BitVec 4) (scope : Scope)
  | cpwpRead (d : SReg) (ch : BitVec 3)
  | cpwpRecv (d : SReg) (m : BitVec 2)
  | cpcan (ch : BitVec 3)
  | qbind (q : BitVec 2) (h : BitVec 4) (scope : Scope)
  | qclose (q : BitVec 2)
  -- Convoys (R330 to R333).
  | cvopen (d a : SReg) (view : Bool)
  | cvclose (d t : SReg)
  | cvstat (d t : SReg)
  -- Stream and neighbour engines (R210 to R217).
  | ssint (d a b : SReg) (f : IntForm)
  | ssmerge (d a b : SReg) (int keepz : Bool) (c : Comb)
  | ssscan (d a b : SReg)
  | spx (d a : SReg)
  | nbbin (d a : SReg)
  | nbpairs (d a : SReg) (port : Bool)
  | nbstat (d : SReg)
  -- Graph instructions and barriers (R362 to R370, R381).
  | emit (v : VReg) (e : BitVec 6) (j : SReg) (ns : Bool)
  | emitr (v : VReg) (e : BitVec 6) (r : BOp) (ns : Bool)
  | rget (d : VReg) (w : BitVec 4) (i : BOp)
  | rdone (d : SReg)
  | futnew (d c : SReg)
  | futreg (j : SReg) (e : BitVec 6) (v : VReg)
  | futres (j n : SReg) (f : FutForm)
  | futst (d j : SReg)
  | dget (src : DgetSrc) (h : BitVec 4)
  | barArrive (s : BarScope) (b : BitVec 4)
  | barWait (s : BarScope) (b : BitVec 4)
  | barSync (s : BarScope) (b : BitVec 4)
  -- The matrix stream (R284 to R298).
  | kli (k : BitVec 4) (v : BitVec 10)
  | kadd (k a : BitVec 4) (v : BitVec 10)
  | kbr (c : KCond) (a : BitVec 4) (o : BitVec 10)
  | mld (m : BitVec 2) (h : BitVec 4) (k : BitVec 4) (ko : Bool)
  | mrel (m : BitVec 2)
  | mzero (c : BitVec 4)
  | mma (c : BitVec 4) (m : BitVec 2) (h : BitVec 4) (ru : Bool) (k : BitVec 4) (ko zs : Bool)
  | mmt (c : BitVec 4) (m : BitVec 2) (h : BitVec 4) (ru : Bool) (k : BitVec 4) (ko zs : Bool)
  | mst (c h : BitVec 4) (k : BitVec 4) (ko : Bool)
  | mscl (c h : BitVec 4)
  | mchk (k : BitVec 4)
  | mbar (b : BitVec 4)
  | lkoPred (m : BitVec 2) (h : BitVec 4)
  | lkoFetch (h : BitVec 4)
  | lkoChk (c : BitVec 4) (m : BitVec 2) (h : BitVec 4)
  -- System instructions, major 0x3F (R42, R60, R395, R408 to R410).
  | trap (code : BitVec 12)
  | rfe (d a : SReg) (b : SOp)
  | tlbrng (d a b : SReg)
  | wsld (d a b : SReg)
  | hcall (d a : SReg) (b : SOp)
  | clkrd (d : SReg)
  -- Instructions that always carry a literal word.
  | vliLit (d : VReg) (w : Word)
  | vfcvtSr (d a : VReg) (df sf : Cvt) (sat : Bool) (seed : VReg)
  | vldgPart (d : VReg) (a : SReg) (b : BOp) (o : Option Ord) (pol : Policy) (z : Size) (m : SReg)
  | sld (d a : SReg) (b : SOp) (z : Size) (o : Ord) (pol : Policy)
  | sst (d a : SReg) (b : SOp) (z : Size) (o : Ord) (pol : Policy)
  | vatom (op : AOp) (ty : ATy) (o : Ord) (d : VReg) (a : SReg) (b : BOp)
  | vredm (op : AOp) (ty : ATy) (o : Ord) (d : VReg) (a : SReg) (b : BOp)
  | lredm (op : AOp) (ty : ATy) (o : Ord) (d : VReg) (a : SReg) (b : BOp)
  | satom (op : AOp) (ty : ATy) (o : Ord) (d a : SReg) (b : SOp)
  | cpg (d : SReg) (ch : BitVec 3) (hd hs : BitVec 4) (scope : Scope) (v : VReg)
  | cps (d : SReg) (ch : BitVec 3) (hd hs : BitVec 4) (scope : Scope) (v : VReg)
  | cpm (d : SReg) (ch : BitVec 3) (hs : BitVec 4) (scope : Scope) (m : SReg)
  | cpwpWait (d : SReg) (ch : BitVec 3) (k : SReg)
  | cpwpAck (m : BitVec 2) (k : SReg)
  | cvst (d : VReg) (a : SReg) (b : BOp) (o : Option Ord) (pol : Policy) (z : Size) (t : SReg)
  | cvld (d : VReg) (a : SReg) (b : BOp) (o : Option Ord) (pol : Policy) (z : Size) (t : SReg)
  | kliLiteral (k : BitVec 4) (w : Word)
  -- Events of issue, memory and translation.
  | clauseIssue (w : Who)
  | starvationPromote (tid p : Nat)
  | yieldTimeout (tid p : Nat)
  | runAhead (tid p : Nat)
  | memoryReadResponse (tid p id : Nat)
  | wcbDrainTimeout (core line : Nat)
  | walkComplete (id : Nat)
  | tlbrngDone (id : Nat)
  | migrationBounce (id : Nat)
  | migrationLineCopy (die frame line : Nat)
  | backgroundScrub (site : ErrSite) (uncorrectable : Bool)
  | refreshWindowOpen (die : Nat)
  | refreshWindowClose (die : Nat)
  -- Events of the engines.
  | copyDeliver (tid ch n : Nat)
  | copyComplete (tid ch : Nat)
  | ssuComplete (cluster core : Nat)
  | nePairGroup (cluster : Nat)
  | neComplete (cluster : Nat)
  | storeStreamDrained (tid p port : Nat)
  | passGrant (cluster : Nat)
  | passRetire (tid id : Nat) (mismatch mismatch2 : Bool)
  | matrixOpRetire (tid id : Nat)
  -- Events of barriers and of the graph scheduler.
  | barrierPhaseComplete (b : BarRef)
  /-- A member's part of a phase of a run barrier is complete (R382): the barrier, the phase and the member's rank. -/
  | runBarrierMessage (run : Nat) (part : Nat × Nat × Nat)
  | stalledEmissionAccept (id : Nat)
  | spillRefill (run die node : Nat)
  | gatherWindowExpiry (run die node : Nat)
  /-- The core and the team number of each team placed: of one, or of a group's members in their order. -/
  | teamPlacement (die : Nat) (cores : List Nat) (nos : List Word)
  | graphDeadlockDetect (run die : Nat) (nodes : List Nat)
  | runSeed (run die : Nat)
  | teamRetire (tid : Nat)
  | runComplete (run : Nat)
  | faultStop (tid : Nat)
  | hangReport (tid p : Nat)
  | clockGate (core : Nat)
  | powerGate (core : Nat)
  | coreWake (core : Nat)
  -- Events of pre-emption and of the host queues.
  | ladderDrainTimeout (q : Nat)
  | ladderSaveTimeout (q : Nat)
  | teamSaveComplete (tid : Nat)
  | teamResume (tid : Nat) (cores : List Nat)
  | timeSliceExpiry (q : Nat)
  | queueMap (q slot : Nat) (order : MapOrder)
  | queueUnmap (q : Nat)
  | parkedWaitPoll
  | wsloadUnsealStart (q : Nat)
  | wsloadComplete (q idx : Nat)
  | reductionEntryApply (die sector : Nat)
  | convoyCommit (slot : Nat)
  | cvcloseDone (tid p : Nat)
  -- Events of the fabric.
  | remoteRequest (r : FabReq)
  | remoteResponse (id : Nat) (r : FabResp)
  | fabricRetryBackoff (id : Nat)
  | fabricTimeout (id : Nat)
  | atomicRecordExpiry (src agent : Nat) (seqno : BitVec 16)
  | dlFlitReceive (port : Nat) (flit : Flit)
  | linkTraining (port : Nat) (offer : LinkOffer)
  | oldKeyExpiry
  | ptpMessage (offset : Int)
  | ppsInput (offset : Int)
  | tbaseLock
  | holdoverEntry
  -- Events of power, reset and bring-up.
  | throttleUp (die : Nat) (reading : Reading)
  | throttleDown (die : Nat)
  | thermalTrip
  | coolantFault
  | coldReset
  | warmReset
  | bringupPhaseComplete (ok : Bool)
  | functionLevelReset (f : Nat)
  | unitFence (u : FenceUnit)
  -- Register writes of the host.
  | doorbell (f q : Nat) (v : Word)
  | queueEnable (f q : Nat)
  | queueDisable (f q : Nat)
  | queueCtlReset (f q : Nat)
  | queueCtlPreempt (f q : Nat)
  | queueCtlResume (f q : Nat)
  | queueInvalidate (f q : Nat)
  | sigdbWrite (f : Nat) (va : DWord)
  | flogdropClear (f : Nat)
  | pwrcapWrite (f : Nat) (v : Word)
  | mailboxGo (f : Nat)
  | mailboxVerifyDone (image : FwImage) (version : Word) (readOk : Bool)
  | registerWrite (f : Nat) (r : HostReg) (v : DWord)
  -- Packets, taken from the ring of the queue named.
  | packetLaunch (q : Nat)
  | packetWait (q : Nat)
  | packetSignal (q : Nat)
  | packetWsload (q : Nat)
  | packetBarrier (q : Nat)
  | packetPreempt (q : Nat)
  | packetReset (q : Nat)
  -- Attestation and management.
  | getVersion
  | getCapabilities
  | negotiateAlgorithms
  | getDigests
  | getCertificate
  | challenge (nonce : Nat)
  | getMeasurements
  | pldmMonitorRequest (w : PldmWhat)
  | setRank (r : BitVec 12)
  | setKey (wrapped : Nat) (unwraps : Bool)
  | keySwitch
  | zeroise
  | setFto (ns : Nat)
  | setCap (v : Word)
  | mgmtReset
  | migrationTableEntry (die oldFrame size newFrame : Nat) (rank : Option Nat)
  | migrationEntryRemoval (die oldFrame : Nat)
  | wsldComplete (id : Nat)
  | queueResetComplete (q : Nat)
  | portGoesDown (port : Nat)
  | configurationRequest (f : Nat)
deriving DecidableEq, Repr

end Sys2Proof
end

