-- ==== Sys2Proof/Config.lean ====
section
/-!
DEFINITION. The free values: what the spec leaves unspecified within a set (R15) or gives no value for. Each is a
constant without a body, so nothing can be proved of its value; the operations that use one keep the limits that the
spec sets.
-/

namespace Sys2Proof.Config

open Sys2Proof

/-- The choice that an approximate special function makes within its bound: a fixed function of the function's number,
the element type and the input bits (R259). Log entry 1. -/
opaque approx : Nat → FTy → Nat → Nat

/-- The choice that exp2s makes within its bound (R261), at one use and in one lane. Log entry 1. -/
opaque exp2sChoice : Nat → Nat → Nat

/-- Which of the free join slots futnew takes (R366), at one use. Log entry 1. -/
opaque joinChoice : Nat → Nat

/-- What a load of the device-register region returns where a register is implemented (R30), at one use and in one
lane. Log entry 8. -/
opaque deviceRegister : Nat → Nat → BitVec 64

/-- Whether a register is implemented at an address of the device-register region (R30). Log entry 8. -/
opaque registerExists : Nat → Bool

/-- The slice of a line within its home die: the fixed hash of R49, of 72 slices. Log entry 49. -/
opaque slice : Nat → Nat

/-- Whether the host answers a PCIe AtomicOp with an error status (R315), at one use. Log entry 50. -/
opaque hostAtomicFails : Nat → Bool

/-- How many matrix passes an spx expansion takes (R125, R213), at one use. Log entry 1. -/
opaque spxPasses : Nat → Nat

/-- The check bits of a convoy sidecar (R325), a function of its other 120 bits. Log entry 51. -/
opaque checkBits : BitVec 120 → BitVec 8

/-- Which of the values that the lko register has had since the last barrier a read before the next barrier returns
(R299). Log entry 1. -/
opaque lkoChoice : Nat → Nat

/-- Which of the free slots cvopen takes (R331), in its core and in the table of its home, at one use. Log entry 1. -/
opaque convoyChoice : Nat → Nat

/-- What a read of a page-table entry returns whose page has moved to another device (R33, R45), by use and address. Log entry 9. -/
opaque peerByte : Nat → Nat → BitVec 8

/-- The sum of a fabric port's egress queue depth and credit shortfall (R441), at one use. Log entry 66. -/
opaque egressDepth : Nat → Nat → Nat

/-- Whether this device holds a forward credit for a request that it must forward (R449), at one use. Log entry 67. -/
opaque forwardCredit : Nat → Bool

/-- Instructions that a run-ahead decodes before it ends, modulo 257 (R152), at one use. Log entry 60. -/
opaque aheadSteps : Nat → Nat

/-- Elements that a store stream holds before it is full (R136). Log entry 33. -/
opaque streamDepth : Nat

/-- The words of a pair group that R128 does not state: those of lanes beyond the last pair, and the last three of the
terminal group; by use, lane and word. Log entry 25. -/
opaque pairWord : Nat → Nat → Nat → BitVec 32

/-- Words whose value the spec does not state: WORD of a fault record for which no word was fetched, and of a hang report whose
PC cannot be read (R398); the last four words of a result block (R427), at one use. Log entry 26. -/
opaque faultWord : Nat → BitVec 32

/-- What a management request reads of the power of the package (R464), at one use. Log entry 27. -/
opaque monitor : Nat → Nat

/-- The SHA3-384 digest of a content, named by a number (R437): the contents are those of the boot ROM, of firmware images, and of
the certificate chain. Log entry 86. -/
opaque digest : Nat → Nat

/-- The contents of the boot ROM and of the certificate chain, and the configuration that is fused beside what the State holds
(R437). Log entry 86. -/
opaque romContent : Nat
opaque certificate : Nat
opaque fusedConfig : Nat

end Sys2Proof.Config
end

