-- ==== Sys2Proof/Decode.lean ====
section
/-!
DEFINITION. The encodings of chapter 06: the fields of the formats (R159), the literal words (R161), the decoder of one
instruction word with its literal words, the limits whose breach is an illegal-instruction fault (R171, step 2), and
the encoder. `decode` is total: it answers an instruction or a named reason for refusing the bits.
-/

namespace Sys2Proof

/-- Why bits are no instruction: each is an illegal-instruction fault (R171, step 2). -/
inductive Reject where
  /-- Major 0x00 or a major that R163 does not list. -/
  | unusedMajor
  /-- A function or operation code that the major does not list. -/
  | unusedFn
  /-- A field that must be zero is not. -/
  | nonzeroField
  /-- A code with no meaning in a field of codes. -/
  | reservedCode
  /-- A literal word that the instruction needs is not there. -/
  | missingLiteral
  /-- An odd register, or one that is no multiple of 4, names the first of a pair or quadruple. -/
  | oddPair
  /-- A scalar triple starts outside its range. -/
  | tripleStart
  /-- An immediate or a register number lies outside the limits of the instruction. -/
  | outOfRange
  /-- The instruction has no form for this element type. -/
  | typeForm
  /-- A seed or second destination register equals another operand. -/
  | overlap
  /-- A register operand whose number announces a literal: no word encodes it. -/
  | notEncodable
deriving DecidableEq, Repr

/-! ## Fields and packed words (R159) -/

/-- The field of `len` bits whose lowest bit is `lo`. -/
def fld (w : Word) (lo len : Nat) : BitVec len := w.extractLsb' lo len

/-- Format VR. -/
def packVR (maj : BitVec 6) (d a b : BitVec 7) (fn : BitVec 5) : Word := maj ++ d ++ a ++ b ++ fn

/-- Format VI. -/
def packVI (maj : BitVec 6) (d a : BitVec 7) (i : BitVec 12) : Word := maj ++ d ++ a ++ i

/-- Format VC. -/
def packVC (d a : BitVec 7) (df sf : BitVec 5) (sat srs : BitVec 1) : Word :=
  0x24#6 ++ d ++ a ++ df ++ sf ++ sat ++ srs

/-- Format SR. -/
def packSR (maj d a b : BitVec 6) (fn : BitVec 8) : Word := maj ++ d ++ a ++ b ++ fn

/-- Format SI. -/
def packSI (maj d a : BitVec 6) (i : BitVec 14) : Word := maj ++ d ++ a ++ i

/-- Format BR. -/
def packBR (maj : BitVec 6) (c : BitVec 4) (o : BitVec 22) : Word := maj ++ c ++ o

/-- Format MM. -/
def packMM (maj : BitVec 6) (d : BitVec 7) (a : BitVec 6) (b : BitVec 7) (s : BitVec 1) (p : BitVec 2)
    (z : BitVec 3) : Word := maj ++ d ++ a ++ b ++ s ++ p ++ z

/-- Formats AT and LS: bits [5:4], then [3:0]. -/
def packAT (maj : BitVec 6) (d : BitVec 7) (a : BitVec 6) (b : BitVec 7) (k : BitVec 2) (z : BitVec 4) : Word :=
  maj ++ d ++ a ++ b ++ k ++ z

/-- Format CP. -/
def packCP (op ch : BitVec 3) (d : BitVec 6) (hd hs : BitVec 4) (scp xt : BitVec 3) : Word :=
  0x34#6 ++ op ++ ch ++ d ++ hd ++ hs ++ scp ++ xt

/-- Format GR. -/
def packGR (d : BitVec 7) (a : BitVec 6) (b : BitVec 7) (fn : BitVec 6) : Word := 0x3C#6 ++ d ++ a ++ b ++ fn

/-- Format MX, with FN as its operation and its low ten bits. -/
def packMX (cd : BitVec 4) (ma : BitVec 2) (h : BitVec 4) (ru : BitVec 1) (op : BitVec 5) (fn : BitVec 10) : Word :=
  0x3E#6 ++ cd ++ ma ++ h ++ ru ++ op ++ fn

/-! ## Codes -/

/-- SZ (R160). -/
def Size.code : Size → BitVec 3
  | .n8 => 0 | .i8 => 1 | .n16 => 2 | .i16 => 3 | .w32 => 4 | .d64 => 5

def Size.ofCode (c : BitVec 3) : Option Size :=
  match c.toNat with
  | 0 => some .n8 | 1 => some .i8 | 2 => some .n16 | 3 => some .i16 | 4 => some .w32 | 5 => some .d64
  | _ => none

/-- POL (R160). -/
def Policy.code : Policy → BitVec 2
  | .ca => 0 | .cg => 1 | .cs => 2 | .cn => 3

def Policy.ofCode (c : BitVec 2) : Policy :=
  match c.toNat with
  | 0 => .ca | 1 => .cg | 2 => .cs | _ => .cn

/-- STR (R162). -/
def Strength.code : Strength → BitVec 3
  | .wk => 0 | .st => 1 | .acq => 2 | .rel => 3 | .ar => 4

def Strength.ofCode (c : BitVec 3) : Option Strength :=
  match c.toNat with
  | 0 => some .wk | 1 => some .st | 2 => some .acq | 3 => some .rel | 4 => some .ar | _ => none

/-- SCOPE (R162). -/
def Scope.code : Scope → BitVec 3
  | .pt => 0 | .tm => 1 | .cl => 2 | .dd => 3 | .dv => 4 | .sy => 5 | .dvRem => 6

def Scope.ofCode (c : BitVec 3) : Option Scope :=
  match c.toNat with
  | 0 => some .pt | 1 => some .tm | 2 => some .cl | 3 => some .dd | 4 => some .dv | 5 => some .sy | 6 => some .dvRem
  | _ => none

/-- AOP (R162). -/
def AOp.code : AOp → BitVec 4
  | .add => 0 | .fadd => 1 | .min => 2 | .max => 3 | .and => 4 | .or => 5 | .xor => 6 | .exch => 7 | .cas => 8

def AOp.ofCode (c : BitVec 4) : Option AOp :=
  match c.toNat with
  | 0 => some .add | 1 => some .fadd | 2 => some .min | 3 => some .max | 4 => some .and | 5 => some .or
  | 6 => some .xor | 7 => some .exch | 8 => some .cas | _ => none

/-- TY (R162). -/
def ATy.code : ATy → BitVec 3
  | .i32 => 0 | .n32 => 1 | .i64 => 2 | .n64 => 3 | .f32 => 4 | .f64 => 5

def ATy.ofCode (c : BitVec 3) : Option ATy :=
  match c.toNat with
  | 0 => some .i32 | 1 => some .n32 | 2 => some .i64 | 3 => some .n64 | 4 => some .f32 | 5 => some .f64 | _ => none

/-- The conditions of scmp and vcmp (R164, R165). -/
def ICond.code : ICond → BitVec 3
  | .eq => 0 | .ne => 1 | .ltI => 2 | .leI => 3 | .ltN => 4 | .leN => 5 | .gtI => 6 | .gtN => 7

def ICond.ofCode (c : BitVec 3) : ICond :=
  match c.toNat with
  | 0 => .eq | 1 => .ne | 2 => .ltI | 3 => .leI | 4 => .ltN | 5 => .leN | 6 => .gtI | _ => .gtN

/-- The conditions of vfcmp (R248). -/
def FCond.code : FCond → BitVec 3
  | .eq => 0 | .ne => 1 | .lt => 2 | .le => 3 | .gt => 4 | .ge => 5 | .un => 6 | .ord => 7

def FCond.ofCode (c : BitVec 3) : FCond :=
  match c.toNat with
  | 0 => .eq | 1 => .ne | 2 => .lt | 3 => .le | 4 => .gt | 5 => .ge | 6 => .un | _ => .ord

/-- The tests of bc (R373). -/
def BTest.code : BTest → BitVec 3
  | .z => 0 | .nz => 1 | .lt => 2 | .ge => 3 | .gt => 4 | .le => 5

def BTest.ofCode (c : BitVec 3) : Option BTest :=
  match c.toNat with
  | 0 => some .z | 1 => some .nz | 2 => some .lt | 3 => some .ge | 4 => some .gt | 5 => some .le | _ => none

/-- The operations of vred and vscan (R165, R238). -/
def RedOp.code : RedOp → BitVec 4
  | .add => 0 | .minI => 1 | .maxI => 2 | .minN => 3 | .maxN => 4 | .and => 5 | .or => 6 | .xor => 7 | .fadd => 8
  | .fmin => 9 | .fmax => 10

def RedOp.ofCode (c : BitVec 4) : Option RedOp :=
  match c.toNat with
  | 0 => some .add | 1 => some .minI | 2 => some .maxI | 3 => some .minN | 4 => some .maxN | 5 => some .and
  | 6 => some .or | 7 => some .xor | 8 => some .fadd | 9 => some .fmin | 10 => some .fmax | _ => none

/-- The conversion codes of vfcvt (R72, R165). -/
def Cvt.code : Cvt → BitVec 5
  | .fp32 => 0x00 | .fp64 => 0x01 | .f19 => 0x02 | .bf16 => 0x03 | .fp16 => 0x04 | .e5m2 => 0x05 | .e4m3 => 0x06
  | .e3m2 => 0x07 | .e2m3 => 0x08 | .e2m1 => 0x09 | .int8 => 0x0A | .uint8 => 0x0B | .int4 => 0x0C | .trn2 => 0x0D
  | .i32 => 0x0F | .i16 => 0x10 | .i64 => 0x11 | .n16 => 0x12 | .n32 => 0x13 | .n64 => 0x14

def Cvt.ofCode (c : BitVec 5) : Option Cvt :=
  match c.toNat with
  | 0x00 => some .fp32 | 0x01 => some .fp64 | 0x02 => some .f19 | 0x03 => some .bf16 | 0x04 => some .fp16
  | 0x05 => some .e5m2 | 0x06 => some .e4m3 | 0x07 => some .e3m2 | 0x08 => some .e2m3 | 0x09 => some .e2m1
  | 0x0A => some .int8 | 0x0B => some .uint8 | 0x0C => some .int4 | 0x0D => some .trn2 | 0x0F => some .i32
  | 0x10 => some .i16 | 0x11 => some .i64 | 0x12 => some .n16 | 0x13 => some .n32 | 0x14 => some .n64
  | _ => none

/-- The majors 0x10 to 0x13 (R228). -/
def ITy.major : ITy → BitVec 6
  | .w32 => 0x10 | .w64 => 0x11 | .h16 => 0x12 | .b8 => 0x13

/-- The majors 0x20 to 0x23 (R242). -/
def FTy.major : FTy → BitVec 6
  | .f32 => 0x20 | .f64 => 0x21 | .bf16 => 0x22 | .f16 => 0x23

/-- The comb field of ssmerge (R168). -/
def Comb.code : Comb → BitVec 2
  | .add => 0 | .max => 1 | .min => 2

def Comb.ofCode (c : BitVec 2) : Option Comb :=
  match c.toNat with
  | 0 => some .add | 1 => some .max | 2 => some .min | _ => none

/-- The form bits of ssint (R168). -/
def IntForm.code : IntForm → BitVec 2
  | .idx => 0 | .pos => 1 | .cnt => 2

def IntForm.ofCode (c : BitVec 2) : Option IntForm :=
  match c.toNat with
  | 0 => some .idx | 1 => some .pos | 2 => some .cnt | _ => none

/-- The scope field of the barriers (R169). -/
def BarScope.code : BarScope → BitVec 2
  | .tm => 0 | .cl => 1 | .run => 2

def BarScope.ofCode (c : BitVec 2) : Option BarScope :=
  match c.toNat with
  | 0 => some .tm | 1 => some .cl | 2 => some .run | _ => none

/-- The condition of kbr (R284). -/
def KCond.code : KCond → BitVec 4
  | .nz => 0 | .z => 1 | .dec => 2

def KCond.ofCode (c : BitVec 4) : Option KCond :=
  match c.toNat with
  | 0 => some .nz | 1 => some .z | 2 => some .dec | _ => none

/-- The kinds of vvote (R241). -/
def VoteKind.code : VoteKind → BitVec 7
  | .all => 0 | .any => 1 | .uniform => 2

def VoteKind.ofCode (c : BitVec 7) : Option VoteKind :=
  match c.toNat with
  | 0 => some .all | 1 => some .any | 2 => some .uniform | _ => none

/-- The strength field of fence, SD[21:20] (R196). -/
def fenceCode : Strength → BitVec 2
  | .ar => 0 | .acq => 1 | .rel => 2 | _ => 3

def fenceOfCode (c : BitVec 2) : Option Strength :=
  match c.toNat with
  | 0 => some .ar | 1 => some .acq | 2 => some .rel | _ => none

def boolBit (b : Bool) : BitVec 1 := if b then 1 else 0
def bitBool (b : BitVec 1) : Bool := b == 1#1

/-! ## Helpers of the decoder -/

abbrev Dec := Except Reject

/-- Refuses with `r` unless the condition holds. -/
def need (c : Bool) (r : Reject) : Dec Unit := if c then .ok () else .error r

/-- The meaning of a code, or a refusal. -/
def coded {α : Type} (o : Option α) : Dec α :=
  match o with
  | some x => .ok x
  | none => .error .reservedCode

/-- The next literal word, and those that follow it. -/
def takeLit (ls : List Word) : Dec (Word × List Word) :=
  match ls with
  | l :: t => .ok (l, t)
  | [] => .error .missingLiteral

/-- A vector B operand (R161). -/
def vB (b : VReg) (ls : List Word) : Dec (BOp × List Word) :=
  if b = 0x7F#7 then (takeLit ls).map fun (l, t) => (.lit l, t) else .ok (.reg b, ls)

/-- A scalar B operand (R161). -/
def sB (b : SReg) (ls : List Word) : Dec (SOp × List Word) :=
  if b = 0x3F#6 then (takeLit ls).map fun (l, t) => (.lit l, t) else .ok (.reg b, ls)

/-- The strength and scope of an order word (R162). -/
def ordOf (w : Word) : Dec Ord := do
  need (fld w 15 17 == 0) .nonzeroField
  let s ← coded (Strength.ofCode (fld w 3 3))
  let c ← coded (Scope.ofCode (fld w 0 3))
  return ⟨s, c⟩

/-- The order word of an MM access (R181): AOP, TY and POL are zero. -/
def plainOrd (w : Word) : Dec Ord := do
  need (fld w 6 9 == 0) .nonzeroField
  ordOf w

/-- The order word of sld and sst (R181): AOP and TY are zero. -/
def polOrd (w : Word) : Dec (Ord × Policy) := do
  need (fld w 8 7 == 0) .nonzeroField
  let o ← ordOf w
  return (o, Policy.ofCode (fld w 6 2))

/-- The order word of an atomic (R162, R321): POL is zero. -/
def atomOrd (w : Word) : Dec (AOp × ATy × Ord) := do
  need (fld w 6 2 == 0) .nonzeroField
  let op ← coded (AOp.ofCode (fld w 11 4))
  let ty ← coded (ATy.ofCode (fld w 8 3))
  let o ← ordOf w
  return (op, ty, o)

/-- A literal word that holds a scalar register (R161). -/
def sLit (w : Word) : Dec SReg := do
  need (fld w 6 26 == 0) .nonzeroField
  return fld w 0 6

/-- A literal word that holds a vector register (R161). -/
def vLit (w : Word) : Dec VReg := do
  need (fld w 7 25 == 0) .nonzeroField
  return fld w 0 7

/-- A scalar register in a 7-bit field (R159). -/
def sOf7 (r : BitVec 7) : Dec SReg := do
  need (r.extractLsb' 6 1 == 0) .nonzeroField
  return r.extractLsb' 0 6

/-! ## The decoder, major by major (R163 to R170) -/

/-- Major 0x01 (R164). -/
def decScalar (w : Word) (ls : List Word) : Dec Instr := do
  let d := fld w 20 6
  let a := fld w 14 6
  let sb := fld w 8 6
  let fn := fld w 0 8
  let bin (k : SReg → SReg → SOp → Instr) : Dec Instr := do
    let (b, _) ← sB sb ls
    return k d a b
  let un (k : SReg → SReg → Instr) : Dec Instr := do
    need (sb == 0) .nonzeroField
    return k d a
  if fn.extractLsb' 6 2 = 2#2 then bin (.ssel (fn.extractLsb' 0 6))
  else if fn.extractLsb' 3 5 = 4#5 then bin (.scmp (ICond.ofCode (fn.extractLsb' 0 3)))
  else
    match fn.toNat with
    | 0x00 => bin .sadd
    | 0x01 => bin .ssub
    | 0x02 => bin .smul
    | 0x03 => bin .smulhI32
    | 0x04 => bin .smulhN32
    | 0x05 => bin .sand
    | 0x06 => bin .sor
    | 0x07 => bin .sxor
    | 0x08 => bin .sshl
    | 0x09 => bin .sshr
    | 0x0A => bin .ssra
    | 0x0B => bin .sminI32
    | 0x0C => bin .sminN32
    | 0x0D => bin .smaxI32
    | 0x0E => bin .smaxN32
    | 0x0F => un .smov
    | 0x10 => un .spopc
    | 0x11 => un .sclz
    | 0x12 => un .sffs
    | _ => .error .unusedFn

/-- Majors 0x02 to 0x09 and 0x0B to 0x0E (R163). -/
def decImm (maj : Nat) (w : Word) : Dec Instr := do
  let d := fld w 20 6
  let a := fld w 14 6
  let i := fld w 0 14
  match maj with
  | 0x02 => return .saddImm d a i
  | 0x03 => return .sandImm d a i
  | 0x04 => return .sorImm d a i
  | 0x05 =>
    need (fld w 5 7 == 0) .nonzeroField
    match (fld w 12 2).toNat with
    | 0 => return .sshlImm d a (fld w 0 5)
    | 1 => return .sshrImm d a (fld w 0 5)
    | 2 => return .ssraImm d a (fld w 0 5)
    | _ => .error .reservedCode
  | 0x06 =>
    need (fld w 11 3 == 0) .nonzeroField
    return .sbfx d a (bitBool (fld w 10 1)) (fld w 5 5) (fld w 0 5)
  | 0x07 =>
    need (fld w 10 4 == 0) .nonzeroField
    return .sbfi d a (fld w 5 5) (fld w 0 5)
  | 0x08 => return .sli d (a ++ i)
  | 0x09 => return .slui d (a ++ i)
  | 0x0B =>
    need (d == 0 && fld w 6 8 == 0) .nonzeroField
    match a.toNat with
    | 0 => return .setfmt (fld w 0 6)
    | 1 => return .setmode (fld w 0 6)
    | _ => .error .reservedCode
  | 0x0D =>
    need (fld w 23 3 == 0) .nonzeroField
    let t ← coded (BTest.ofCode (fld w 20 3))
    return .bc t a i
  | 0x0E =>
    need (d == 0) .nonzeroField
    return .bdiv a i
  | _ => .error .unusedMajor

/-- Major 0x0A (R163, R223 to R225). -/
def decState (w : Word) : Dec Instr := do
  let d := fld w 20 6
  let a := fld w 14 6
  need (fld w 8 6 == 0) .nonzeroField
  match (fld w 6 2).toNat with
  | 0 => do
    need (a == 0) .nonzeroField
    return .sget d (fld w 0 6)
  | 1 => do
    need (d == 0) .nonzeroField
    return .sset a (fld w 0 6)
  | 2 => do
    need (fld w 0 6 == 0) .nonzeroField
    return .ckwarn d a
  | _ => .error .unusedFn

/-- Major 0x0C (R372). -/
def decBranch (w : Word) : Dec Instr :=
  match (fld w 22 4).toNat with
  | 0 => .ok (.br (fld w 0 22))
  | 1 => .ok (.call (fld w 0 22))
  | _ => .error .reservedCode

/-- Major 0x0F (R375). -/
def decFlow (w : Word) : Dec Instr := do
  need (fld w 20 6 == 0 && fld w 8 6 == 0) .nonzeroField
  let a := fld w 14 6
  match (fld w 0 8).toNat with
  | 0x00 => do need (a == 0) .nonzeroField; return .nop
  | 0x01 => do need (a == 0) .nonzeroField; return .join
  | 0x02 => do need (a == 0) .nonzeroField; return .ret
  | 0x03 => return .jmpi a
  | 0x04 => do need (a == 0) .nonzeroField; return .exit
  | 0x05 => do need (a == 0) .nonzeroField; return .yield
  | _ => .error .unusedFn

/-- Majors 0x10 to 0x13 (R165). -/
def decVecInt (t : ITy) (w : Word) (ls : List Word) : Dec Instr := do
  let d := fld w 19 7
  let a := fld w 12 7
  let vb := fld w 5 7
  let fn := fld w 0 5
  let bin (k : VReg → VReg → BOp → Instr) : Dec Instr := do
    let (b, _) ← vB vb ls
    return k d a b
  let un (k : VReg → VReg → Instr) : Dec Instr := do
    need (vb == 0) .nonzeroField
    return k d a
  if fn.extractLsb' 3 2 = 3#2 then do
    need (t == .w32 || t == .w64) .unusedFn
    let s ← sOf7 d
    bin fun _ a b => .vcmp (t == .w64) (ICond.ofCode (fn.extractLsb' 0 3)) s a b
  else
    match fn.toNat with
    | 0x00 => bin (.vadd t)
    | 0x01 => bin (.vsub t)
    | 0x02 => bin (.vmul t)
    | 0x03 => bin (.vmulhSigned t)
    | 0x04 => bin (.vmulhUnsigned t)
    | 0x05 => bin (.vmac t)
    | 0x06 => bin (.vand t)
    | 0x07 => bin (.vor t)
    | 0x08 => bin (.vxor t)
    | 0x09 => un (.vnot t)
    | 0x0A => bin (.vshl t)
    | 0x0B => bin (.vshr t)
    | 0x0C => bin (.vsra t)
    | 0x0D => bin (.vminSigned t)
    | 0x0E => bin (.vminUnsigned t)
    | 0x0F => bin (.vmaxSigned t)
    | 0x10 => bin (.vmaxUnsigned t)
    | 0x11 => un (.vabs t)
    | 0x12 => un (.vneg t)
    | 0x13 => un (.vpopc t)
    | 0x14 => un (.vclz t)
    | 0x15 => un (.vmov t)
    | 0x16 => do
      need (t == .w32) .unusedFn
      need (vb == 0x7F && a == 0) .nonzeroField
      let (l, _) ← takeLit ls
      return .vliLit d l
    | 0x17 => bin (.vsel t)
    | _ => .error .unusedFn

/-- Majors 0x14 to 0x18 (R163). -/
def decVecImm (maj : Nat) (w : Word) : Dec Instr := do
  let d := fld w 19 7
  let a := fld w 12 7
  let i := fld w 0 12
  match maj with
  | 0x14 => return .vaddImm d a i
  | 0x15 => return .vli d (a ++ i)
  | 0x16 =>
    need (fld w 11 1 == 0) .nonzeroField
    return .vbfx d a (bitBool (fld w 10 1)) (fld w 5 5) (fld w 0 5)
  | 0x17 =>
    need (fld w 10 2 == 0) .nonzeroField
    return .vbfi d a (fld w 5 5) (fld w 0 5)
  | 0x18 =>
    need (fld w 5 5 == 0) .nonzeroField
    match (fld w 10 2).toNat with
    | 0 => return .vshlImm d a (fld w 0 5)
    | 1 => return .vshrImm d a (fld w 0 5)
    | 2 => return .vsraImm d a (fld w 0 5)
    | _ => .error .reservedCode
  | _ => .error .unusedMajor

/-- Major 0x19 (R165, R235 to R241). -/
def decCross (w : Word) (ls : List Word) : Dec Instr := do
  let d := fld w 19 7
  let a := fld w 12 7
  let vb := fld w 5 7
  match (fld w 0 5).toNat with
  | 0x00 => do
    let (b, _) ← vB vb ls
    return .vperm d a b
  | 0x01 => return .vbcast d a vb
  | 0x02 => return .vxshf d a vb
  | 0x03 => do
    need (fld w 9 3 == 0) .nonzeroField
    let op ← coded (RedOp.ofCode (fld w 5 4))
    return .vred op d a
  | 0x04 => do
    need (fld w 9 2 == 0) .nonzeroField
    let op ← coded (RedOp.ofCode (fld w 5 4))
    return .vscan op (bitBool (fld w 11 1)) d a
  | 0x05 => do
    need (vb == 0) .nonzeroField
    let s ← sOf7 d
    return .vballot s a
  | 0x06 => do
    let s ← sOf7 d
    let k ← coded (VoteKind.ofCode vb)
    return .vvote k s a
  | _ => .error .unusedFn

/-- Major 0x1A (R223). -/
def decLane (w : Word) : Dec Instr := do
  need (fld w 0 5 == 0) .unusedFn
  need (fld w 5 14 == 0) .nonzeroField
  return .sgetIdLane (fld w 19 7)

/-- Majors 0x20 to 0x23 (R165). -/
def decVecFloat (t : FTy) (w : Word) (ls : List Word) : Dec Instr := do
  let d := fld w 19 7
  let a := fld w 12 7
  let vb := fld w 5 7
  let fn := fld w 0 5
  let bin (k : VReg → VReg → BOp → Instr) : Dec Instr := do
    let (b, _) ← vB vb ls
    return k d a b
  let un (k : VReg → VReg → Instr) : Dec Instr := do
    need (vb == 0) .nonzeroField
    return k d a
  if fn.extractLsb' 3 2 = 3#2 then do
    let s ← sOf7 d
    bin fun _ a b => .vfcmp t (FCond.ofCode (fn.extractLsb' 0 3)) s a b
  else
    match fn.toNat with
    | 0x00 => bin (.vfadd t)
    | 0x01 => bin (.vfsub t)
    | 0x02 => bin (.vfmul t)
    | 0x03 => bin (.vfma t)
    | 0x04 => bin (.vfms t)
    | 0x05 => bin (.vfmin t)
    | 0x06 => bin (.vfmax t)
    | 0x07 => un (.vfexp t)
    | 0x08 => bin (.vfscl t)
    | 0x09 => un (.vfclass t)
    | 0x0A => do
      need (t == .f32 || t == .f64) .unusedFn
      bin (.vf2sum (t == .f64))
    | 0x0B => return .vfrnd t d a vb
    | 0x0C => un (.vrcp t)
    | 0x0D => un (.vrsq t)
    | 0x0E => un (.vsqrt t)
    | 0x0F => un (.vexp2 t)
    | 0x10 => un (.vlog2 t)
    | 0x11 => un (.vsin t)
    | 0x12 => un (.vcos t)
    | 0x13 => un (.vtanh t)
    | 0x14 => do
      need (t == .f32) .unusedFn
      return .vosmx d a vb
    | 0x15 => do
      need (t == .f32) .unusedFn
      un .vosms
    | _ => .error .unusedFn

/-- Major 0x24 (R254). -/
def decConvert (w : Word) (ls : List Word) : Dec Instr := do
  let d := fld w 19 7
  let a := fld w 12 7
  let df ← coded (Cvt.ofCode (fld w 7 5))
  let sf ← coded (Cvt.ofCode (fld w 2 5))
  let sat := bitBool (fld w 1 1)
  if fld w 0 1 = 1#1 then do
    let (l, _) ← takeLit ls
    let s ← vLit l
    return .vfcvtSr d a df sf sat s
  else return .vfcvt d a df sf sat

/-- The MM majors (R160, R163). -/
def decAccess (maj : Nat) (w : Word) (ls : List Word) : Dec Instr := do
  let d := fld w 19 7
  let a := fld w 13 6
  let pol := Policy.ofCode (fld w 3 2)
  let z ← coded (Size.ofCode (fld w 0 3))
  let (b, ls) ← vB (fld w 6 7) ls
  let (o, ls) ←
    if fld w 5 1 = 1#1 then do
      let (l, t) ← takeLit ls
      let o ← plainOrd l
      pure (some o, t)
    else pure ((none : Option Ord), ls)
  match maj with
  | 0x2C => return .vld d a b o pol z
  | 0x2D => return .vst d a b o pol z
  | 0x2E => return .vldg d a b o pol z
  | 0x2F =>
    let (l, _) ← takeLit ls
    let m ← sLit l
    return .vldgPart d a b o pol z m
  | 0x30 => return .vsts d a b o pol z
  | 0x37 =>
    let (l, _) ← takeLit ls
    let m ← sLit l
    return .cvst d a b o pol z m
  | 0x38 =>
    let (l, _) ← takeLit ls
    let m ← sLit l
    return .cvld d a b o pol z m
  | _ => .error .unusedMajor

/-- Major 0x31 (R192, R193). -/
def decLocal (w : Word) (ls : List Word) : Dec Instr := do
  let d := fld w 19 7
  let a := fld w 13 6
  let vb := fld w 6 7
  need (fld w 3 1 == 0) .nonzeroField
  let z ← coded (Size.ofCode (fld w 0 3))
  let row (k : Bool → VReg → SReg → BitVec 4 → Instr) : Dec Instr := do
    need (fld w 10 3 == 0) .nonzeroField
    need (z == .w32 || z == .d64) .reservedCode
    return k (z == .d64) d a (fld w 6 4)
  match (fld w 4 2).toNat with
  | 0 => do let (b, _) ← vB vb ls; return .lld d a b z
  | 1 => do let (b, _) ← vB vb ls; return .lst d a b z
  | 2 => row .ald
  | _ => row .ast

/-- Major 0x32 (R321). -/
def decAtomic (w : Word) (ls : List Word) : Dec Instr := do
  let d := fld w 19 7
  let a := fld w 13 6
  need (fld w 0 4 == 0) .nonzeroField
  let (b, ls) ← vB (fld w 6 7) ls
  let (l, _) ← takeLit ls
  let (op, ty, o) ← atomOrd l
  match (fld w 4 2).toNat with
  | 0 => return .vatom op ty o d a b
  | 1 => return .vredm op ty o d a b
  | 2 => return .lredm op ty o d a b
  | _ => .error .reservedCode

/-- Major 0x33 (R163, R190, R195 to R197, R323). -/
def decScalarMem (w : Word) (ls : List Word) : Dec Instr := do
  let d := fld w 20 6
  let a := fld w 14 6
  let sb := fld w 8 6
  match (fld w 4 4).toNat with
  | 0 => do
    let z ← coded (Size.ofCode (fld w 0 3))
    need (fld w 3 1 == 0) .reservedCode
    let (b, ls) ← sB sb ls
    let (l, _) ← takeLit ls
    let (o, p) ← polOrd l
    return .sld d a b z o p
  | 1 => do
    let z ← coded (Size.ofCode (fld w 0 3))
    need (fld w 3 1 == 0) .reservedCode
    let (b, ls) ← sB sb ls
    let (l, _) ← takeLit ls
    let (o, p) ← polOrd l
    return .sst d a b z o p
  | 2 => do
    need (d == 0 && fld w 2 2 == 0) .nonzeroField
    let (b, _) ← sB sb ls
    return .pref a b (Policy.ofCode (fld w 0 2))
  | 3 => do
    need (fld w 22 4 == 0 && a == 0 && sb == 0 && fld w 3 1 == 0) .nonzeroField
    let s ← coded (fenceOfCode (fld w 20 2))
    let c ← coded (Scope.ofCode (fld w 0 3))
    return .fence s c
  | 4 => do
    need (d == 0 && fld w 3 1 == 0) .nonzeroField
    let c ← coded (Scope.ofCode (fld w 0 3))
    let (b, _) ← sB sb ls
    return .cclean a b c
  | 5 => do
    need (d == 0 && fld w 3 1 == 0) .nonzeroField
    let c ← coded (Scope.ofCode (fld w 0 3))
    let (b, _) ← sB sb ls
    return .cinval a b c
  | 6 => do
    need (fld w 0 4 == 0) .nonzeroField
    let (b, ls) ← sB sb ls
    let (l, _) ← takeLit ls
    let (op, ty, o) ← atomOrd l
    return .satom op ty o d a b
  | _ => .error .unusedFn

/-- Major 0x34 (R167, R199). -/
def decCopy (w : Word) (ls : List Word) : Dec Instr := do
  let ch := fld w 20 3
  let d := fld w 14 6
  let hd := fld w 10 4
  let hs := fld w 6 4
  let xt := fld w 0 3
  match (fld w 23 3).toNat with
  | 0 => do
    need (xt == 0) .nonzeroField
    let c ← coded (Scope.ofCode (fld w 3 3))
    return .cpy d ch hd hs c
  | 1 => do
    need (xt == 0) .nonzeroField
    let c ← coded (Scope.ofCode (fld w 3 3))
    let (l, _) ← takeLit ls
    let v ← vLit l
    return .cpg d ch hd hs c v
  | 2 => do
    need (xt == 0) .nonzeroField
    let c ← coded (Scope.ofCode (fld w 3 3))
    let (l, _) ← takeLit ls
    let v ← vLit l
    return .cps d ch hd hs c v
  | 3 => do
    need (xt == 0 && hd == 0) .nonzeroField
    let c ← coded (Scope.ofCode (fld w 3 3))
    let (l, _) ← takeLit ls
    let m ← sLit l
    return .cpm d ch hs c m
  | 4 => do
    need (fld w 3 11 == 0) .nonzeroField
    match xt.toNat with
    | 0 => return .cpwpRead d ch
    | 1 => do
      let (l, _) ← takeLit ls
      let k ← sLit l
      return .cpwpWait d ch k
    | 2 => do
      need (d == 0 && fld w 22 1 == 0) .nonzeroField
      let (l, _) ← takeLit ls
      let k ← sLit l
      return .cpwpAck (fld w 20 2) k
    | 3 => do
      need (fld w 22 1 == 0) .nonzeroField
      return .cpwpRecv d (fld w 20 2)
    | _ => .error .reservedCode
  | 5 => do
    need (fld w 0 20 == 0) .nonzeroField
    return .cpcan ch
  | 6 => do
    need (fld w 22 1 == 0 && d == 0 && xt == 0) .nonzeroField
    let c ← coded (Scope.ofCode (fld w 3 3))
    if fld w 21 1 = 0#1 then do
      need (hd == 0) .nonzeroField
      return .qbind (fld w 20 2) hs c
    else do
      need (hs == 0) .nonzeroField
      return .qbind (fld w 20 2) hd c
  | _ => do
    need (fld w 22 1 == 0 && fld w 0 20 == 0) .nonzeroField
    return .qclose (fld w 20 2)

/-- Major 0x36 (R330, R331). -/
def decConvoy (w : Word) : Dec Instr := do
  let d := fld w 20 6
  let a := fld w 14 6
  let sb := fld w 8 6
  match (fld w 0 8).toNat with
  | 0x00 => do
    need (fld w 9 5 == 0) .reservedCode
    return .cvopen d a (bitBool (fld w 8 1))
  | 0x01 => do
    need (sb == 0) .nonzeroField
    return .cvclose d a
  | 0x02 => do
    need (sb == 0) .nonzeroField
    return .cvstat d a
  | _ => .error .unusedFn

/-- Major 0x39 (R168, R210). -/
def decStream (w : Word) : Dec Instr := do
  let d := fld w 20 6
  let a := fld w 14 6
  let b := fld w 8 6
  match (fld w 4 4).toNat with
  | 0 => do
    need (fld w 2 2 == 0) .nonzeroField
    let f ← coded (IntForm.ofCode (fld w 0 2))
    return .ssint d a b f
  | 1 => do
    let c ← coded (Comb.ofCode (fld w 0 2))
    return .ssmerge d a b (bitBool (fld w 3 1)) (bitBool (fld w 2 1)) c
  | 2 => do
    need (fld w 0 4 == 0) .nonzeroField
    return .ssscan d a b
  | 3 => do
    need (fld w 0 4 == 0 && b == 0) .nonzeroField
    return .spx d a
  | _ => .error .unusedFn

/-- Major 0x3A (R168, R215 to R217). -/
def decNeighbour (w : Word) : Dec Instr := do
  let d := fld w 20 6
  let a := fld w 14 6
  need (fld w 8 6 == 0) .nonzeroField
  match (fld w 4 4).toNat with
  | 0 => do
    need (fld w 0 4 == 0) .nonzeroField
    return .nbbin d a
  | 1 => do
    need (fld w 1 3 == 0) .nonzeroField
    return .nbpairs d a (bitBool (fld w 0 1))
  | 2 => do
    need (fld w 0 4 == 0 && a == 0) .nonzeroField
    return .nbstat d
  | _ => .error .unusedFn

/-- Major 0x3C (R169, R362). -/
def decGraph (w : Word) (ls : List Word) : Dec Instr := do
  let d := fld w 19 7
  let a := fld w 13 6
  let vb := fld w 6 7
  let ns := bitBool (fld w 5 1)
  match (fld w 0 5).toNat with
  | 0 => do
    let j ← sOf7 vb
    return .emit d a j ns
  | 1 => do
    let (r, _) ← vB vb ls
    return .emitr d a r ns
  | 2 => do
    need (!ns) .nonzeroField
    need (fld w 17 2 == 0) .outOfRange
    let (i, _) ← vB vb ls
    return .rget d (fld w 13 4) i
  | 3 => do
    need (!ns && a == 0 && vb == 0) .nonzeroField
    let s ← sOf7 d
    return .rdone s
  | 4 => do
    need (!ns && vb == 0) .nonzeroField
    let s ← sOf7 d
    return .futnew s a
  | 5 => do
    need (!ns) .nonzeroField
    let s ← sOf7 d
    return .futreg s a vb
  | 6 => do
    need (!ns) .nonzeroField
    let s ← sOf7 d
    if fld w 12 1 = 1#1 then return .futres s a (.cmd (fld w 6 6))
    else
      match (fld w 6 6).toNat with
      | 0 => return .futres s a .imm
      | 1 => return .futres s a .mx
      | _ => .error .reservedCode
  | 7 => do
    need (!ns && vb == 0) .nonzeroField
    let s ← sOf7 d
    return .futst s a
  | 8 => do
    need (!ns && fld w 10 2 == 0) .nonzeroField
    if fld w 12 1 = 1#1 then do
      need (d == 0) .nonzeroField
      return .dget (.word a) (fld w 6 4)
    else do
      need (a == 0) .nonzeroField
      let s ← sOf7 d
      return .dget (.pair s) (fld w 6 4)
  | _ => .error .unusedFn

/-- Major 0x3D (R169, R381). -/
def decBarrier (w : Word) : Dec Instr := do
  need (fld w 8 18 == 0) .nonzeroField
  let s ← coded (BarScope.ofCode (fld w 4 2))
  let b := fld w 0 4
  match (fld w 6 2).toNat with
  | 0 => return .barArrive s b
  | 1 => return .barWait s b
  | 2 => return .barSync s b
  | _ => .error .unusedFn

/-- Major 0x3E (R170). -/
def decMatrix (w : Word) (ls : List Word) : Dec Instr := do
  let cd := fld w 22 4
  let ma := fld w 20 2
  let h := fld w 16 4
  let ru := bitBool (fld w 15 1)
  let v := fld w 0 10
  let k := fld w 6 4
  let ko := bitBool (fld w 5 1)
  match (fld w 10 5).toNat with
  | 0x00 => do
    need (h == 0 && !ru) .nonzeroField
    match ma.toNat with
    | 0 => return .kli cd v
    | 1 => do
      need (v == 0) .nonzeroField
      let (l, _) ← takeLit ls
      return .kliLiteral cd l
    | _ => .error .reservedCode
  | 0x01 => do
    need (ma == 0 && !ru) .nonzeroField
    return .kadd cd h v
  | 0x02 => do
    need (ma == 0 && !ru) .nonzeroField
    let c ← coded (KCond.ofCode cd)
    return .kbr c h v
  | 0x03 => do
    need (cd == 0 && !ru && fld w 0 5 == 0) .nonzeroField
    return .mld ma h k ko
  | 0x04 => do
    need (cd == 0 && h == 0 && !ru && v == 0) .nonzeroField
    return .mrel ma
  | 0x05 => do
    need (ma == 0 && h == 0 && !ru && v == 0) .nonzeroField
    return .mzero cd
  | 0x06 => do
    need (fld w 1 4 == 0) .nonzeroField
    return .mma cd ma h ru k ko (bitBool (fld w 0 1))
  | 0x07 => do
    need (fld w 1 4 == 0) .nonzeroField
    return .mmt cd ma h ru k ko (bitBool (fld w 0 1))
  | 0x08 => do
    need (ma == 0 && !ru && fld w 0 5 == 0) .nonzeroField
    return .mst cd h k ko
  | 0x09 => do
    need (ma == 0 && !ru && v == 0) .nonzeroField
    return .mscl cd h
  | 0x0A => do
    need (ma == 0 && h == 0 && !ru && v == 0) .nonzeroField
    return .mchk cd
  | 0x0B => do
    need (cd == 0 && ma == 0 && h == 0 && !ru && fld w 4 6 == 0) .nonzeroField
    return .mbar (fld w 0 4)
  | 0x0C => do
    need (cd == 0 && !ru && v == 0) .nonzeroField
    return .lkoPred ma h
  | 0x0D => do
    need (cd == 0 && ma == 0 && !ru && v == 0) .nonzeroField
    return .lkoFetch h
  | 0x0E => do
    need (!ru && v == 0) .nonzeroField
    return .lkoChk cd ma h
  | _ => .error .unusedFn

/-- Major 0x3F (R163). -/
def decSystem (w : Word) (ls : List Word) : Dec Instr := do
  let d := fld w 20 6
  let a := fld w 14 6
  let sb := fld w 8 6
  match (fld w 0 8).toNat with
  | 0x00 => do
    need (d == 0) .nonzeroField
    return .trap (fld w 8 12)
  | 0x01 => do
    let (b, _) ← sB sb ls
    return .rfe d a b
  | 0x02 => return .tlbrng d a sb
  | 0x03 => return .wsld d a sb
  | 0x04 => do
    let (b, _) ← sB sb ls
    return .hcall d a b
  | 0x05 => do
    need (a == 0 && sb == 0) .nonzeroField
    return .clkrd d
  | _ => .error .unusedFn

/-- The instruction that a word and its literal words spell, field by field; its limits are not yet checked. -/
def decodeFields (w : Word) (ls : List Word) : Dec Instr :=
  match (fld w 26 6).toNat with
  | 0x01 => decScalar w ls
  | 0x02 => decImm 0x02 w
  | 0x03 => decImm 0x03 w
  | 0x04 => decImm 0x04 w
  | 0x05 => decImm 0x05 w
  | 0x06 => decImm 0x06 w
  | 0x07 => decImm 0x07 w
  | 0x08 => decImm 0x08 w
  | 0x09 => decImm 0x09 w
  | 0x0A => decState w
  | 0x0B => decImm 0x0B w
  | 0x0C => decBranch w
  | 0x0D => decImm 0x0D w
  | 0x0E => decImm 0x0E w
  | 0x0F => decFlow w
  | 0x10 => decVecInt .w32 w ls
  | 0x11 => decVecInt .w64 w ls
  | 0x12 => decVecInt .h16 w ls
  | 0x13 => decVecInt .b8 w ls
  | 0x14 => decVecImm 0x14 w
  | 0x15 => decVecImm 0x15 w
  | 0x16 => decVecImm 0x16 w
  | 0x17 => decVecImm 0x17 w
  | 0x18 => decVecImm 0x18 w
  | 0x19 => decCross w ls
  | 0x1A => decLane w
  | 0x20 => decVecFloat .f32 w ls
  | 0x21 => decVecFloat .f64 w ls
  | 0x22 => decVecFloat .bf16 w ls
  | 0x23 => decVecFloat .f16 w ls
  | 0x24 => decConvert w ls
  | 0x2C => decAccess 0x2C w ls
  | 0x2D => decAccess 0x2D w ls
  | 0x2E => decAccess 0x2E w ls
  | 0x2F => decAccess 0x2F w ls
  | 0x30 => decAccess 0x30 w ls
  | 0x31 => decLocal w ls
  | 0x32 => decAtomic w ls
  | 0x33 => decScalarMem w ls
  | 0x34 => decCopy w ls
  | 0x36 => decConvoy w
  | 0x37 => decAccess 0x37 w ls
  | 0x38 => decAccess 0x38 w ls
  | 0x39 => decStream w
  | 0x3A => decNeighbour w
  | 0x3C => decGraph w ls
  | 0x3D => decBarrier w
  | 0x3E => decMatrix w ls
  | 0x3F => decSystem w ls
  | _ => .error .unusedMajor

/-! ## Limits (R171, step 2) -/

/-- The first failing check of a list, if any. -/
def firstFailing (cs : List (Bool × Reject)) : Option Reject :=
  match cs with
  | [] => none
  | (ok, r) :: t => if ok then firstFailing t else some r

def even7 (r : BitVec 7) : Bool := r.toNat % 2 == 0
def even6 (r : BitVec 6) : Bool := r.toNat % 2 == 0

/-- A vector B operand that some word encodes: register 0x7F announces a literal. -/
def vbOk : BOp → Bool
  | .reg r => r != 0x7F#7
  | .lit _ => true

def sbOk : SOp → Bool
  | .reg r => r != 0x3F#6
  | .lit _ => true

/-- A vector B operand that names a pair is even (R134). -/
def vbEven : BOp → Bool
  | .reg r => even7 r
  | .lit _ => true

/-- Every pair of an instruction of major 0x11 is even (R228). -/
def pairsI (t : ITy) (d a : VReg) (b : BOp) : Option Reject :=
  firstFailing [(vbOk b, .notEncodable), (t != .w64 || (even7 d && even7 a && vbEven b), .oddPair)]

/-- Every pair of an instruction of major 0x21 is even (R242). -/
def pairsF (t : FTy) (d a : VReg) (b : BOp) : Option Reject :=
  firstFailing [(vbOk b, .notEncodable), (t != .f64 || (even7 d && even7 a && vbEven b), .oddPair)]

/-- A special function has no FP64 form (R165, R258). -/
def noF64 (t : FTy) : Option Reject := firstFailing [(t != .f64, .typeForm)]

/-- The conversion codes whose element fills a pair (R254, R256). -/
def Cvt.wide : Cvt → Bool
  | .fp64 | .i64 | .n64 => true
  | _ => false

/-- Limits of an MM access (R183): even base, even destination for 64 bits. -/
def mmOk (d : VReg) (a : SReg) (b : BOp) (z : Size) : Option Reject :=
  firstFailing [(vbOk b, .notEncodable), (even6 a, .oddPair), (z != .d64 || even7 d, .oddPair)]

/-- Registers that the operand of an atomic takes (R321). -/
def atomSpan (op : AOp) (ty : ATy) : Nat :=
  let wide := ty == .i64 || ty == .n64 || ty == .f64
  if op == .cas then (if wide then 4 else 2) else if wide then 2 else 1

/-- add has no float form and fadd no integer form (R316). -/
def atomType (op : AOp) (ty : ATy) : Bool :=
  let float := ty == .f32 || ty == .f64
  !(op == .add && float) && !(op == .fadd && !float)

def atomOk (op : AOp) (ty : ATy) (d : VReg) (b : BOp) : Option Reject :=
  firstFailing [(vbOk b, .notEncodable), (atomType op ty, .typeForm), (d.toNat % atomSpan op ty == 0, .oddPair)]

/-- The scopes that fence, cclean, cinval and the copies take: 0 to 5 (R196, R197, R199). -/
def scopeOk (c : Scope) : Bool := c != .dvRem

/-- A status register of an engine command: s0 to s59 (R199, R210). -/
def statusOk (d : SReg) : Bool := d.toNat ≤ 59

/-- A destination of a convoy instruction: s1 to s59 (R330). -/
def convoyDest (d : SReg) : Bool := 1 ≤ d.toNat && d.toNat ≤ 59

def andThen (a b : Option Reject) : Option Reject :=
  match a with
  | some r => some r
  | none => b

/-- The limit that an instruction breaks, if any: an odd first register of a pair, an immediate outside its range, a
combination that the encoding tables call illegal. An event is no instruction word. -/
def Instr.illegal (i : Instr) : Option Reject :=
  match i with
  | .sadd _ _ b | .ssub _ _ b | .smul _ _ b | .smulhI32 _ _ b | .smulhN32 _ _ b | .sand _ _ b | .sor _ _ b
  | .sxor _ _ b | .sshl _ _ b | .sshr _ _ b | .ssra _ _ b | .sminI32 _ _ b | .sminN32 _ _ b | .smaxI32 _ _ b
  | .smaxN32 _ _ b | .scmp _ _ _ b | .ssel _ _ _ b => firstFailing [(sbOk b, .notEncodable)]
  | .smov .. | .spopc .. | .sclz .. | .sffs .. | .saddImm .. | .sandImm .. | .sorImm .. | .sshlImm .. | .sshrImm ..
  | .ssraImm .. | .sli .. | .slui .. => none
  | .sbfx _ _ _ l w | .sbfi _ _ l w => firstFailing [(l.toNat + w.toNat ≤ 31, .outOfRange)]
  | .sget d n =>
    firstFailing [(n.toNat ≤ 16 && n.toNat != 6, .outOfRange),
      (!(3 ≤ n.toNat && n.toNat ≤ 5) || (even6 d && d != 0), .oddPair)]
  | .sset a n => firstFailing [(n.toNat ≤ 16, .outOfRange), (n.toNat != 5 || even6 a, .oddPair)]
  | .ckwarn .. | .setfmt .. => none
  | .setmode v => firstFailing [(v.getLsbD 3 == false, .outOfRange)]
  | .br .. | .call .. | .bc .. => none
  | .bdiv a _ => firstFailing [(1 ≤ a.toNat && a.toNat ≤ 61, .tripleStart)]
  | .nop | .join | .ret | .jmpi .. | .exit | .yield => none
  | .vadd t d a b | .vsub t d a b | .vmul t d a b | .vmulhSigned t d a b | .vmulhUnsigned t d a b | .vmac t d a b
  | .vand t d a b | .vor t d a b | .vxor t d a b | .vshl t d a b | .vshr t d a b | .vsra t d a b
  | .vminSigned t d a b | .vminUnsigned t d a b | .vmaxSigned t d a b | .vmaxUnsigned t d a b
  | .vsel t d a b => pairsI t d a b
  | .vnot t d a | .vabs t d a | .vneg t d a | .vpopc t d a | .vclz t d a | .vmov t d a => pairsI t d a (.lit 0)
  | .vcmp wide _ s a b =>
    firstFailing [(vbOk b, .notEncodable), (s.toNat ≤ 61, .tripleStart), (!wide || (even7 a && vbEven b), .oddPair)]
  | .vaddImm .. | .vli .. => none
  | .vbfx _ _ _ l w | .vbfi _ _ l w => firstFailing [(l.toNat + w.toNat ≤ 31, .outOfRange)]
  | .vshlImm .. | .vshrImm .. | .vsraImm .. => none
  | .vperm _ _ b => firstFailing [(vbOk b, .notEncodable)]
  | .vbcast _ _ n => firstFailing [(n.toNat ≤ 95, .outOfRange)]
  | .vxshf _ _ m => firstFailing [(m.toNat ≤ 126, .outOfRange)]
  | .vred .. | .vscan .. => none
  | .vballot s _ => firstFailing [(s.toNat ≤ 61, .tripleStart)]
  | .vvote .. | .sgetIdLane .. => none
  | .vfadd t d a b | .vfsub t d a b | .vfmul t d a b | .vfma t d a b | .vfms t d a b | .vfmin t d a b
  | .vfmax t d a b | .vfscl t d a b => pairsF t d a b
  | .vfexp t d a | .vfclass t d a | .vrcp t d a | .vrsq t d a | .vsqrt t d a => pairsF t d a (.lit 0)
  | .vf2sum wide d a b =>
    firstFailing [(vbOk b, .notEncodable), (d.toNat % (if wide then 4 else 2) == 0, .oddPair),
      (!wide || (even7 a && vbEven b), .oddPair)]
  | .vfrnd t d a s =>
    firstFailing [(t != .f64 || (even7 d && even7 a), .oddPair),
      (s != a && s != d && !(t == .f64 && s.toNat == d.toNat + 1), .overlap)]
  | .vexp2 t .. | .vlog2 t .. | .vsin t .. | .vcos t .. | .vtanh t .. => noF64 t
  | .vosmx d _ b => firstFailing [(even7 d, .oddPair), (b != d && b.toNat != d.toNat + 1, .overlap)]
  | .vosms d _ => firstFailing [(even7 d, .oddPair)]
  | .vfcmp t _ s a b =>
    firstFailing [(vbOk b, .notEncodable), (s.toNat ≤ 61, .tripleStart),
      (t != .f64 || (even7 a && vbEven b), .oddPair)]
  | .vfcvt d a df sf _ => firstFailing [(!df.wide || even7 d, .oddPair), (!sf.wide || even7 a, .oddPair)]
  | .vfcvtSr d a df sf _ s =>
    firstFailing [(!df.wide || even7 d, .oddPair), (!sf.wide || even7 a, .oddPair),
      (s != a && s != d && s.toNat != d.toNat + 1, .overlap)]
  | .vld d a b _ _ z | .vst d a b _ _ z | .vldg d a b _ _ z | .vsts d a b _ _ z => mmOk d a b z
  | .vldgPart d a b _ _ z m =>
    andThen (mmOk d a b z) (firstFailing [(1 ≤ m.toNat && m.toNat ≤ 61, .tripleStart)])
  | .cvst d a b _ _ z _ | .cvld d a b _ _ z _ => mmOk d a b z
  | .lld d _ b z | .lst d _ b z => firstFailing [(vbOk b, .notEncodable), (z != .d64 || even7 d, .oddPair)]
  | .ald wide d _ _ | .ast wide d _ _ => firstFailing [(!wide || even7 d, .oddPair)]
  | .sld d a b z _ _ =>
    firstFailing [(sbOk b, .notEncodable), (even6 a, .oddPair), (z != .d64 || (even6 d && d != 0), .oddPair)]
  | .sst d a b z _ _ =>
    firstFailing [(sbOk b, .notEncodable), (even6 a, .oddPair), (z != .d64 || even6 d, .oddPair)]
  | .pref a b _ => firstFailing [(sbOk b, .notEncodable), (even6 a, .oddPair)]
  | .fence s c => firstFailing [(s == .ar || s == .acq || s == .rel, .reservedCode), (scopeOk c, .reservedCode)]
  | .cclean a b c | .cinval a b c =>
    firstFailing [(sbOk b, .notEncodable), (even6 a, .oddPair), (scopeOk c, .reservedCode)]
  | .vatom op ty _ d a b | .vredm op ty _ d a b =>
    andThen (atomOk op ty d b) (firstFailing [(even6 a, .oddPair)])
  | .lredm op ty _ d _ b => atomOk op ty d b
  | .satom op ty _ d a b =>
    firstFailing [(sbOk b, .notEncodable), (even6 a, .oddPair), (atomType op ty, .typeForm),
      (d.toNat % atomSpan op ty == 0, .oddPair), (d.toNat + atomSpan op ty ≤ 60, .outOfRange)]
  | .cpy d _ _ _ c | .cpg d _ _ _ c _ | .cps d _ _ _ c _ | .cpm d _ _ c _ =>
    firstFailing [(statusOk d, .outOfRange), (scopeOk c, .reservedCode)]
  | .cpwpRead d _ | .cpwpWait d _ _ | .cpwpRecv d _ => firstFailing [(statusOk d, .outOfRange)]
  | .cpwpAck .. | .cpcan .. => none
  | .qbind _ _ c => firstFailing [(scopeOk c, .reservedCode)]
  | .qclose .. => none
  | .cvopen d a view => firstFailing [(convoyDest d, .outOfRange), (!view || a == 0, .nonzeroField)]
  | .cvclose d _ | .cvstat d _ => firstFailing [(convoyDest d, .outOfRange)]
  | .ssint d a b _ | .ssmerge d a b _ _ _ | .ssscan d a b =>
    firstFailing [(statusOk d, .outOfRange), (even6 a && even6 b, .oddPair)]
  | .spx d a | .nbbin d a | .nbpairs d a _ => firstFailing [(statusOk d, .outOfRange), (even6 a, .oddPair)]
  | .nbstat d => firstFailing [(statusOk d, .outOfRange)]
  | .emit .. => none
  | .emitr _ _ r _ => firstFailing [(vbOk r, .notEncodable)]
  | .rget _ _ i => firstFailing [(vbOk i, .notEncodable)]
  | .rdone .. | .futnew .. | .futreg .. => none
  | .futres _ _ f =>
    match f with
    | .cmd s => firstFailing [(1 ≤ s.toNat && s.toNat ≤ 59, .outOfRange)]
    | .imm | .mx => none
  | .futst .. => none
  | .dget src _ =>
    match src with
    | .pair a => firstFailing [(even6 a, .oddPair)]
    | .word w => firstFailing [(4 ≤ w.toNat && w.toNat ≤ 14 && w.toNat % 2 == 0, .outOfRange)]
  | .barArrive s b | .barWait s b | .barSync s b =>
    firstFailing [(match s with | .tm => true | .cl => b.toNat ≤ 7 | .run => b.toNat ≤ 3, .outOfRange)]
  | .kli .. | .kliLiteral .. | .kadd .. | .kbr .. => none
  | .mld _ _ k ko | .mma _ _ _ _ k ko _ | .mmt _ _ _ _ k ko _ | .mst _ _ k ko =>
    firstFailing [(ko || k == 0, .nonzeroField)]
  | .mrel .. | .mzero .. | .mscl .. | .mchk .. | .mbar .. | .lkoPred .. | .lkoFetch .. | .lkoChk .. => none
  | .trap .. => none
  | .rfe d _ b | .hcall d _ b => firstFailing [(sbOk b, .notEncodable), (statusOk d, .outOfRange)]
  | .tlbrng d a b | .wsld d a b =>
    firstFailing [(statusOk d, .outOfRange), (even6 a && even6 b, .oddPair),
      (a.toNat ≤ 58 && b.toNat ≤ 58, .outOfRange)]
  | .clkrd d => firstFailing [(d.toNat % 4 == 0, .oddPair), (4 ≤ d.toNat && d.toNat ≤ 56, .outOfRange)]
  | .vliLit .. => none
  | _ => some .notEncodable

/-- The instruction that a word and its literal words encode, or why they encode none (R159 to R171). -/
def decode (w : Word) (ls : List Word) : Dec Instr :=
  match decodeFields w ls with
  | .error r => .error r
  | .ok i =>
    match i.illegal with
    | some r => .error r
    | none => .ok i

/-! ## What a head word says about its clause (R156, R161, R166) -/

/-- A word of a VR major whose all-ones VB announces a B literal (R165, R243). -/
def vrHasB (maj fn : Nat) : Bool :=
  if 0x10 ≤ maj ∧ maj ≤ 0x13 then !(fn == 0x09 || (0x11 ≤ fn && fn ≤ 0x15))
  else if maj = 0x19 then fn == 0
  else if 0x20 ≤ maj ∧ maj ≤ 0x23 then fn ≤ 6 || fn == 8 || fn == 0x0A || 0x18 ≤ fn
  else false

/-- The MM majors. -/
def isMM (maj : Nat) : Bool := (0x2C ≤ maj && maj ≤ 0x30) || maj == 0x37 || maj == 0x38

/-- A word of an SR major whose all-ones SB announces a B literal. -/
def srHasB (maj fn : Nat) : Bool :=
  if maj = 0x01 then !(0x0F ≤ fn && fn ≤ 0x12)
  else if maj = 0x33 then fn / 16 ≤ 2 || (4 ≤ fn / 16 && fn / 16 ≤ 6)
  else if maj = 0x3F then fn == 1 || fn == 4
  else false

def countIf (b : Bool) : Nat := if b then 1 else 0

/-- The number of literal words that belong to a head word (R161). It is read from the head alone, whatever else may
be wrong with the instruction. -/
def literalCount (w : Word) : Nat :=
  let maj := (fld w 26 6).toNat
  let sr := fld w 0 8
  if maj = 0x24 then countIf (fld w 0 1 == 1)
  else if isMM maj then
    countIf (fld w 6 7 == 0x7F) + countIf (fld w 5 1 == 1) + countIf (maj == 0x2F || maj == 0x37 || maj == 0x38)
  else if maj = 0x31 then countIf (fld w 6 7 == 0x7F && fld w 5 1 == 0)
  else if maj = 0x32 then countIf (fld w 6 7 == 0x7F) + 1
  else if maj = 0x34 then
    let op := (fld w 23 3).toNat
    let xt := (fld w 0 3).toNat
    countIf (op == 1 || op == 2 || op == 3 || (op == 4 && (xt == 1 || xt == 2)))
  else if maj = 0x3C then countIf (fld w 6 7 == 0x7F && (fld w 0 5 == 1 || fld w 0 5 == 2))
  else if maj = 0x3E then countIf (fld w 10 5 == 0 && fld w 20 2 == 1)
  else
    countIf (fld w 5 7 == 0x7F && vrHasB maj (fld w 0 5).toNat) + countIf (fld w 8 6 == 0x3F && srHasB maj sr.toNat)
      + countIf (maj == 0x33 && (sr.toNat / 16 ≤ 1 || sr.toNat / 16 == 6))

/-- The word is an instruction that must stand last in its clause (R166). -/
def standsLast (w : Word) : Bool :=
  let maj := (fld w 26 6).toNat
  let fn := (fld w 0 8).toNat
  match maj with
  | 0x0C => decide ((fld w 22 4).toNat ≤ 1)
  | 0x0D => true
  | 0x0E => true
  | 0x0F => decide (1 ≤ fn ∧ fn ≤ 4)
  | 0x3E => fld w 10 5 == 2
  | 0x3F => fn == 1
  | _ => false

/-- The class of a major (R163): 0 SV, 1 MEM, 2 GR, 3 SP, 4 MX, 5 SYS. -/
def majorClass (maj : Nat) : Nat :=
  if maj ≤ 0x24 then 0
  else if maj ≤ 0x38 then 1
  else if maj ≤ 0x3A then 3
  else if maj ≤ 0x3D then 2
  else if maj = 0x3E then 4
  else 5

/-! ## The encoder -/

def bField : BOp → BitVec 7
  | .reg r => r
  | .lit _ => 0x7F

def sbField : SOp → BitVec 6
  | .reg r => r
  | .lit _ => 0x3F

def bLits : BOp → List Word
  | .reg _ => []
  | .lit w => [w]

def sbLits : SOp → List Word
  | .reg _ => []
  | .lit w => [w]

/-- A scalar register in a 7-bit field. -/
def s7 (s : SReg) : BitVec 7 := 0#1 ++ s

/-- An order word (R162). -/
def ordWord (aop : BitVec 4) (ty : BitVec 3) (pol : BitVec 2) (o : Ord) : Word :=
  0#17 ++ aop ++ ty ++ pol ++ o.str.code ++ o.scope.code

def sWord (s : SReg) : Word := 0#26 ++ s
def vWord (v : VReg) : Word := 0#25 ++ v

def encScalar (fn : BitVec 8) (d a : SReg) (b : SOp) : List Word := packSR 0x01 d a (sbField b) fn :: sbLits b
def encVecInt (fn : BitVec 5) (t : ITy) (d a : VReg) (b : BOp) : List Word :=
  packVR t.major d a (bField b) fn :: bLits b
def encVecFloat (fn : BitVec 5) (t : FTy) (d a : VReg) (b : BOp) : List Word :=
  packVR t.major d a (bField b) fn :: bLits b
def encAccess (maj : BitVec 6) (d : VReg) (a : SReg) (b : BOp) (o : Option Ord) (p : Policy) (z : Size)
    (t : List Word) : List Word :=
  packMM maj d a (bField b) (boolBit o.isSome) p.code z.code
    :: (bLits b ++ (match o with | some o => [ordWord 0 0 0 o] | none => []) ++ t)
def encAtomic (k : BitVec 2) (op : AOp) (ty : ATy) (o : Ord) (d : VReg) (a : SReg) (b : BOp) : List Word :=
  packAT 0x32 d a (bField b) k 0 :: (bLits b ++ [ordWord op.code ty.code 0 o])
def encScalarMem (fn : BitVec 4) (lo : BitVec 4) (d a : SReg) (b : SOp) (t : List Word) : List Word :=
  packSR 0x33 d a (sbField b) (fn ++ lo) :: (sbLits b ++ t)
def encBlock (ko : Bool) (k : BitVec 4) (zs : Bool) : BitVec 10 := k ++ boolBit ko ++ 0#4 ++ boolBit zs

/-- The words of an instruction: its word, then its literal words (R159, R161). Events have none. -/
def encode (i : Instr) : List Word :=
  match i with
  | .sadd d a b => encScalar 0x00 d a b
  | .ssub d a b => encScalar 0x01 d a b
  | .smul d a b => encScalar 0x02 d a b
  | .smulhI32 d a b => encScalar 0x03 d a b
  | .smulhN32 d a b => encScalar 0x04 d a b
  | .sand d a b => encScalar 0x05 d a b
  | .sor d a b => encScalar 0x06 d a b
  | .sxor d a b => encScalar 0x07 d a b
  | .sshl d a b => encScalar 0x08 d a b
  | .sshr d a b => encScalar 0x09 d a b
  | .ssra d a b => encScalar 0x0A d a b
  | .sminI32 d a b => encScalar 0x0B d a b
  | .sminN32 d a b => encScalar 0x0C d a b
  | .smaxI32 d a b => encScalar 0x0D d a b
  | .smaxN32 d a b => encScalar 0x0E d a b
  | .smov d a => [packSR 0x01 d a 0 0x0F]
  | .spopc d a => [packSR 0x01 d a 0 0x10]
  | .sclz d a => [packSR 0x01 d a 0 0x11]
  | .sffs d a => [packSR 0x01 d a 0 0x12]
  | .scmp c d a b => encScalar (0x04#5 ++ c.code) d a b
  | .ssel c d a b => encScalar (0x2#2 ++ c) d a b
  | .saddImm d a i => [packSI 0x02 d a i]
  | .sandImm d a i => [packSI 0x03 d a i]
  | .sorImm d a i => [packSI 0x04 d a i]
  | .sshlImm d a n => [packSI 0x05 d a (0#2 ++ 0#7 ++ n)]
  | .sshrImm d a n => [packSI 0x05 d a (1#2 ++ 0#7 ++ n)]
  | .ssraImm d a n => [packSI 0x05 d a (2#2 ++ 0#7 ++ n)]
  | .sbfx d a s l w => [packSI 0x06 d a (0#3 ++ boolBit s ++ l ++ w)]
  | .sbfi d a l w => [packSI 0x07 d a (0#4 ++ l ++ w)]
  | .sli d i => [packSI 0x08 d (i.extractLsb' 14 6) (i.extractLsb' 0 14)]
  | .slui d i => [packSI 0x09 d (i.extractLsb' 14 6) (i.extractLsb' 0 14)]
  | .sget d n => [packSR 0x0A d 0 0 (0#2 ++ n)]
  | .sset a n => [packSR 0x0A 0 a 0 (1#2 ++ n)]
  | .ckwarn d a => [packSR 0x0A d a 0 0x80]
  | .setfmt v => [packSI 0x0B 0 0 (0#8 ++ v)]
  | .setmode v => [packSI 0x0B 0 1 (0#8 ++ v)]
  | .br o => [packBR 0x0C 0 o]
  | .call o => [packBR 0x0C 1 o]
  | .bc t a o => [packSI 0x0D (0#3 ++ t.code) a o]
  | .bdiv a o => [packSI 0x0E 0 a o]
  | .nop => [packSR 0x0F 0 0 0 0x00]
  | .join => [packSR 0x0F 0 0 0 0x01]
  | .ret => [packSR 0x0F 0 0 0 0x02]
  | .jmpi a => [packSR 0x0F 0 a 0 0x03]
  | .exit => [packSR 0x0F 0 0 0 0x04]
  | .yield => [packSR 0x0F 0 0 0 0x05]
  | .vadd t d a b => encVecInt 0x00 t d a b
  | .vsub t d a b => encVecInt 0x01 t d a b
  | .vmul t d a b => encVecInt 0x02 t d a b
  | .vmulhSigned t d a b => encVecInt 0x03 t d a b
  | .vmulhUnsigned t d a b => encVecInt 0x04 t d a b
  | .vmac t d a b => encVecInt 0x05 t d a b
  | .vand t d a b => encVecInt 0x06 t d a b
  | .vor t d a b => encVecInt 0x07 t d a b
  | .vxor t d a b => encVecInt 0x08 t d a b
  | .vnot t d a => [packVR t.major d a 0 0x09]
  | .vshl t d a b => encVecInt 0x0A t d a b
  | .vshr t d a b => encVecInt 0x0B t d a b
  | .vsra t d a b => encVecInt 0x0C t d a b
  | .vminSigned t d a b => encVecInt 0x0D t d a b
  | .vminUnsigned t d a b => encVecInt 0x0E t d a b
  | .vmaxSigned t d a b => encVecInt 0x0F t d a b
  | .vmaxUnsigned t d a b => encVecInt 0x10 t d a b
  | .vabs t d a => [packVR t.major d a 0 0x11]
  | .vneg t d a => [packVR t.major d a 0 0x12]
  | .vpopc t d a => [packVR t.major d a 0 0x13]
  | .vclz t d a => [packVR t.major d a 0 0x14]
  | .vmov t d a => [packVR t.major d a 0 0x15]
  | .vsel t d a b => encVecInt 0x17 t d a b
  | .vcmp wide c s a b => encVecInt (3#2 ++ c.code) (if wide then .w64 else .w32) (s7 s) a b
  | .vaddImm d a i => [packVI 0x14 d a i]
  | .vli d i => [packVI 0x15 d (i.extractLsb' 12 7) (i.extractLsb' 0 12)]
  | .vbfx d a s l w => [packVI 0x16 d a (0#1 ++ boolBit s ++ l ++ w)]
  | .vbfi d a l w => [packVI 0x17 d a (0#2 ++ l ++ w)]
  | .vshlImm d a n => [packVI 0x18 d a (0#2 ++ 0#5 ++ n)]
  | .vshrImm d a n => [packVI 0x18 d a (1#2 ++ 0#5 ++ n)]
  | .vsraImm d a n => [packVI 0x18 d a (2#2 ++ 0#5 ++ n)]
  | .vperm d a b => packVR 0x19 d a (bField b) 0x00 :: bLits b
  | .vbcast d a n => [packVR 0x19 d a n 0x01]
  | .vxshf d a m => [packVR 0x19 d a m 0x02]
  | .vred op d a => [packVR 0x19 d a (0#3 ++ op.code) 0x03]
  | .vscan op x d a => [packVR 0x19 d a (boolBit x ++ 0#2 ++ op.code) 0x04]
  | .vballot s a => [packVR 0x19 (s7 s) a 0 0x05]
  | .vvote k s a => [packVR 0x19 (s7 s) a k.code 0x06]
  | .sgetIdLane d => [packVR 0x1A d 0 0 0x00]
  | .vfadd t d a b => encVecFloat 0x00 t d a b
  | .vfsub t d a b => encVecFloat 0x01 t d a b
  | .vfmul t d a b => encVecFloat 0x02 t d a b
  | .vfma t d a b => encVecFloat 0x03 t d a b
  | .vfms t d a b => encVecFloat 0x04 t d a b
  | .vfmin t d a b => encVecFloat 0x05 t d a b
  | .vfmax t d a b => encVecFloat 0x06 t d a b
  | .vfexp t d a => [packVR t.major d a 0 0x07]
  | .vfscl t d a b => encVecFloat 0x08 t d a b
  | .vfclass t d a => [packVR t.major d a 0 0x09]
  | .vf2sum wide d a b => encVecFloat 0x0A (if wide then .f64 else .f32) d a b
  | .vfrnd t d a s => [packVR t.major d a s 0x0B]
  | .vrcp t d a => [packVR t.major d a 0 0x0C]
  | .vrsq t d a => [packVR t.major d a 0 0x0D]
  | .vsqrt t d a => [packVR t.major d a 0 0x0E]
  | .vexp2 t d a => [packVR t.major d a 0 0x0F]
  | .vlog2 t d a => [packVR t.major d a 0 0x10]
  | .vsin t d a => [packVR t.major d a 0 0x11]
  | .vcos t d a => [packVR t.major d a 0 0x12]
  | .vtanh t d a => [packVR t.major d a 0 0x13]
  | .vosmx d a b => [packVR 0x20 d a b 0x14]
  | .vosms d a => [packVR 0x20 d a 0 0x15]
  | .vfcmp t c s a b => encVecFloat (3#2 ++ c.code) t (s7 s) a b
  | .vfcvt d a df sf sat => [packVC d a df.code sf.code (boolBit sat) 0]
  | .vfcvtSr d a df sf sat s => [packVC d a df.code sf.code (boolBit sat) 1, vWord s]
  | .vld d a b o p z => encAccess 0x2C d a b o p z []
  | .vst d a b o p z => encAccess 0x2D d a b o p z []
  | .vldg d a b o p z => encAccess 0x2E d a b o p z []
  | .vldgPart d a b o p z m => encAccess 0x2F d a b o p z [sWord m]
  | .vsts d a b o p z => encAccess 0x30 d a b o p z []
  | .cvst d a b o p z t => encAccess 0x37 d a b o p z [sWord t]
  | .cvld d a b o p z t => encAccess 0x38 d a b o p z [sWord t]
  | .lld d a b z => packAT 0x31 d a (bField b) 0 (0#1 ++ z.code) :: bLits b
  | .lst d a b z => packAT 0x31 d a (bField b) 1 (0#1 ++ z.code) :: bLits b
  | .ald wide d a t => [packAT 0x31 d a (0#3 ++ t) 2 (if wide then 5 else 4)]
  | .ast wide d a t => [packAT 0x31 d a (0#3 ++ t) 3 (if wide then 5 else 4)]
  | .vatom op ty o d a b => encAtomic 0 op ty o d a b
  | .vredm op ty o d a b => encAtomic 1 op ty o d a b
  | .lredm op ty o d a b => encAtomic 2 op ty o d a b
  | .sld d a b z o p => encScalarMem 0 (0#1 ++ z.code) d a b [ordWord 0 0 p.code o]
  | .sst d a b z o p => encScalarMem 1 (0#1 ++ z.code) d a b [ordWord 0 0 p.code o]
  | .pref a b p => encScalarMem 2 (0#2 ++ p.code) 0 a b []
  | .fence s c => [packSR 0x33 (0#4 ++ fenceCode s) 0 0 (3#4 ++ 0#1 ++ c.code)]
  | .cclean a b c => encScalarMem 4 (0#1 ++ c.code) 0 a b []
  | .cinval a b c => encScalarMem 5 (0#1 ++ c.code) 0 a b []
  | .satom op ty o d a b => encScalarMem 6 0 d a b [ordWord op.code ty.code 0 o]
  | .cpy d ch hd hs c => [packCP 0 ch d hd hs c.code 0]
  | .cpg d ch hd hs c v => [packCP 1 ch d hd hs c.code 0, vWord v]
  | .cps d ch hd hs c v => [packCP 2 ch d hd hs c.code 0, vWord v]
  | .cpm d ch hs c m => [packCP 3 ch d 0 hs c.code 0, sWord m]
  | .cpwpRead d ch => [packCP 4 ch d 0 0 0 0]
  | .cpwpWait d ch k => [packCP 4 ch d 0 0 0 1, sWord k]
  | .cpwpAck m k => [packCP 4 (0#1 ++ m) 0 0 0 0 2, sWord k]
  | .cpwpRecv d m => [packCP 4 (0#1 ++ m) d 0 0 0 3]
  | .cpcan ch => [packCP 5 ch 0 0 0 0 0]
  | .qbind q h c =>
    if q.toNat < 2 then [packCP 6 (0#1 ++ q) 0 0 h c.code 0] else [packCP 6 (0#1 ++ q) 0 h 0 c.code 0]
  | .qclose q => [packCP 7 (0#1 ++ q) 0 0 0 0 0]
  | .cvopen d a view => [packSR 0x36 d a (0#5 ++ boolBit view) 0x00]
  | .cvclose d t => [packSR 0x36 d t 0 0x01]
  | .cvstat d t => [packSR 0x36 d t 0 0x02]
  | .ssint d a b f => [packSR 0x39 d a b (0#4 ++ 0#2 ++ f.code)]
  | .ssmerge d a b int keepz c => [packSR 0x39 d a b (1#4 ++ boolBit int ++ boolBit keepz ++ c.code)]
  | .ssscan d a b => [packSR 0x39 d a b 0x20]
  | .spx d a => [packSR 0x39 d a 0 0x30]
  | .nbbin d a => [packSR 0x3A d a 0 0x00]
  | .nbpairs d a port => [packSR 0x3A d a 0 (1#4 ++ 0#3 ++ boolBit port)]
  | .nbstat d => [packSR 0x3A d 0 0 0x20]
  | .emit v e j ns => [packGR v e (s7 j) (boolBit ns ++ 0#5)]
  | .emitr v e r ns => packGR v e (bField r) (boolBit ns ++ 1#5) :: bLits r
  | .rget d w i => packGR d (0#2 ++ w) (bField i) 2 :: bLits i
  | .rdone d => [packGR (s7 d) 0 0 3]
  | .futnew d c => [packGR (s7 d) c 0 4]
  | .futreg j e v => [packGR (s7 j) e v 5]
  | .futres j n f =>
    [packGR (s7 j) n (match f with | .imm => 0 | .mx => 1 | .cmd s => 1#1 ++ s) 6]
  | .futst d j => [packGR (s7 d) j 0 7]
  | .dget src h =>
    match src with
    | .pair a => [packGR (s7 a) 0 (0#3 ++ h) 8]
    | .word w => [packGR 0 w (4#3 ++ h) 8]
  | .barArrive s b => [packSR 0x3D 0 0 0 (0#2 ++ s.code ++ b)]
  | .barWait s b => [packSR 0x3D 0 0 0 (1#2 ++ s.code ++ b)]
  | .barSync s b => [packSR 0x3D 0 0 0 (2#2 ++ s.code ++ b)]
  | .kli k v => [packMX k 0 0 0 0x00 v]
  | .kliLiteral k l => [packMX k 1 0 0 0x00 0, l]
  | .kadd k a v => [packMX k 0 a 0 0x01 v]
  | .kbr c a o => [packMX c.code 0 a 0 0x02 o]
  | .mld m h k ko => [packMX 0 m h 0 0x03 (encBlock ko k false)]
  | .mrel m => [packMX 0 m 0 0 0x04 0]
  | .mzero c => [packMX c 0 0 0 0x05 0]
  | .mma c m h ru k ko zs => [packMX c m h (boolBit ru) 0x06 (encBlock ko k zs)]
  | .mmt c m h ru k ko zs => [packMX c m h (boolBit ru) 0x07 (encBlock ko k zs)]
  | .mst c h k ko => [packMX c 0 h 0 0x08 (encBlock ko k false)]
  | .mscl c h => [packMX c 0 h 0 0x09 0]
  | .mchk k => [packMX k 0 0 0 0x0A 0]
  | .mbar b => [packMX 0 0 0 0 0x0B (0#6 ++ b)]
  | .lkoPred m h => [packMX 0 m h 0 0x0C 0]
  | .lkoFetch h => [packMX 0 0 h 0 0x0D 0]
  | .lkoChk c m h => [packMX c m h 0 0x0E 0]
  | .trap c => [0x3F#6 ++ 0#6 ++ c ++ 0#8]
  | .rfe d a b => packSR 0x3F d a (sbField b) 0x01 :: sbLits b
  | .tlbrng d a b => [packSR 0x3F d a b 0x02]
  | .wsld d a b => [packSR 0x3F d a b 0x03]
  | .hcall d a b => packSR 0x3F d a (sbField b) 0x04 :: sbLits b
  | .clkrd d => [packSR 0x3F d 0 0 0x05]
  | .vliLit d l => [packVR 0x10 d 0 0x7F 0x16, l]
  | _ => []

/-- The instruction's own word, or 0 for an event. -/
def Instr.word (i : Instr) : Word := (encode i).headD 0

/-- The number of words of an instruction with its literal words. -/
def Instr.size (i : Instr) : Nat := (encode i).length

/-- The class of an instruction (R163). -/
def Instr.cls (i : Instr) : Nat := majorClass (fld i.word 26 6).toNat

/-- Must stand last in its clause (R166). -/
def Instr.last (i : Instr) : Bool := standsLast i.word

/-! ## The opcode table's words -/

/-- Word number `k` of a number that holds an instruction's words, the first in its lowest bits. -/
def wordAt (w k : Nat) : Word := BitVec.ofNat 32 (w >>> (32 * k))

/-- The instruction that the decoder reads from the words in `w`, numbered as the opcode table numbers them; every bit
above the table's is 0. -/
def decodeTableWord (nbits w : Nat) : Option Instr :=
  let v := w % 2 ^ nbits
  match decode (wordAt v 0) [wordAt v 1, wordAt v 2, wordAt v 3] with
  | .ok i => some i
  | .error _ => none

end Sys2Proof
end

