-- ==== Sys2Proof/Machine/Flags.lean ====
section
/-!
DEFINITION. The warn bits, the operand formats, rounding, flags and conversions of chapter 03, on exact dyadic numbers.
-/

namespace Sys2Proof


/-! ## Warn bits (R139) -/

def wINV : Word := 0x001
def wDZ : Word := 0x002
def wOVF : Word := 0x004
def wUNF : Word := 0x008
def wINX : Word := 0x010
def wNANSAT : Word := 0x020
def wTRNRES : Word := 0x040
def wSCALEIGN : Word := 0x080
def wMODERES : Word := 0x100
def wPOLICY : Word := 0x200
def wDEADSRC : Word := 0x400
def wFALLBK : Word := 0x800

/-- The flags that a condition raises. -/
def when (c : Bool) (f : Word) : Word := if c then f else 0

/-! ## Numbers and formats -/

/-- A number as an operation sees it. A finite number is (−1)^neg · m · 2^e; a zero keeps its sign. -/
inductive Num where
  | nan (signalling neg : Bool)
  | inf (neg : Bool)
  | fin (neg : Bool) (m : Nat) (e : Int)
deriving DecidableEq, Repr

/-- What a float format has beyond finite numbers: infinities and NaNs, the two NaN codes of E4M3, or neither (R73). -/
inductive Special where
  | ieee | nanOnly | none
deriving DecidableEq, Repr

/-- A float format (R73): bits of exponent and mantissa, bias. -/
structure FloatFmt where
  ebits : Nat
  mbits : Nat
  bias : Nat
  special : Special
deriving DecidableEq, Repr

def fmtFp64 : FloatFmt := ⟨11, 52, 1023, .ieee⟩
def fmtFp32 : FloatFmt := ⟨8, 23, 127, .ieee⟩

/-- The float format of a conversion code, if it is one (R72, R73). F19 is read and written without the 13 low bits of
its container (R75). -/
def Cvt.float : Cvt → Option FloatFmt
  | .fp32 => some fmtFp32
  | .fp64 => some fmtFp64
  | .f19 => some ⟨8, 10, 127, .ieee⟩
  | .bf16 => some ⟨8, 7, 127, .ieee⟩
  | .fp16 => some ⟨5, 10, 15, .ieee⟩
  | .e5m2 => some ⟨5, 2, 15, .ieee⟩
  | .e4m3 => some ⟨4, 3, 7, .nanOnly⟩
  | .e3m2 => some ⟨3, 2, 3, .none⟩
  | .e2m3 => some ⟨2, 3, 1, .none⟩
  | .e2m1 => some ⟨2, 1, 1, .none⟩
  | _ => none

/-- The least and greatest value and the width of an integer code (R77, R96). -/
def Cvt.intRange : Cvt → Int × Int × Nat
  | .int8 => (-128, 127, 8)
  | .uint8 => (0, 255, 8)
  | .int4 => (-8, 7, 4)
  | .trn2 => (-1, 1, 2)
  | .i16 => (-32768, 32767, 16)
  | .i64 => (-9223372036854775808, 9223372036854775807, 64)
  | .n16 => (0, 65535, 16)
  | .n32 => (0, 4294967295, 32)
  | .n64 => (0, 18446744073709551615, 64)
  | _ => (-2147483648, 2147483647, 32)

/-- The bits of an element in its container (R72, R256). -/
def Cvt.width : Cvt → Nat
  | .fp64 | .i64 | .n64 => 64
  | .fp32 | .f19 | .i32 | .n32 => 32
  | .bf16 | .fp16 | .i16 | .n16 => 16
  | .e5m2 | .e4m3 | .e3m2 | .e2m3 | .int8 | .uint8 => 8
  | .e2m1 | .int4 => 4
  | .trn2 => 2

/-- Formats in which subnormals can be flushed (R92). -/
def Cvt.flushes : Cvt → Bool
  | .fp64 | .fp32 | .f19 | .bf16 | .fp16 => true
  | _ => false

/-- The signed value of the low `w` bits of `x`. -/
def sextNat (w x : Nat) : Int :=
  let v := x % 2 ^ w
  if v < 2 ^ (w - 1) then v else (v : Int) - 2 ^ w

/-- The low `w` bits of an integer's two's complement. -/
def intBits (w : Nat) (v : Int) : Nat := (v % (2 ^ w : Int)).toNat

/-- The number a float code stands for (R73, R76). -/
def FloatFmt.unpack (f : FloatFmt) (x : Nat) : Num :=
  let m := x % 2 ^ f.mbits
  let e := (x >>> f.mbits) % 2 ^ f.ebits
  let neg := (x >>> (f.mbits + f.ebits)) % 2 == 1
  if f.special = .ieee ∧ e = 2 ^ f.ebits - 1 then
    if m = 0 then .inf neg else .nan (m < 2 ^ (f.mbits - 1)) neg
  else if f.special = .nanOnly ∧ e = 2 ^ f.ebits - 1 ∧ m = 2 ^ f.mbits - 1 then .nan false neg
  else if e = 0 then .fin neg m (1 - (f.bias : Int) - f.mbits)
  else .fin neg (2 ^ f.mbits + m) ((e : Int) - f.bias - f.mbits)

/-- The code with the sign, exponent field and mantissa field given. -/
def FloatFmt.code (f : FloatFmt) (neg : Bool) (e m : Nat) : Nat :=
  ((if neg then 2 ^ f.ebits else 0) + e) * 2 ^ f.mbits + m

/-- The exponent field and the significand of the largest finite magnitude (R73). -/
def FloatFmt.maxField (f : FloatFmt) : Nat × Nat :=
  match f.special with
  | .ieee => (2 ^ f.ebits - 2, 2 ^ f.mbits - 1)
  | .nanOnly => (2 ^ f.ebits - 1, 2 ^ f.mbits - 2)
  | .none => (2 ^ f.ebits - 1, 2 ^ f.mbits - 1)

def FloatFmt.maxCode (f : FloatFmt) (neg : Bool) : Nat := f.code neg f.maxField.1 f.maxField.2

/-- The canonical NaN of a format (R76); E4M3's takes the sign that R95 may give it. -/
def FloatFmt.nanCode (f : FloatFmt) (neg : Bool) : Nat :=
  match f.special with
  | .nanOnly => f.code neg (2 ^ f.ebits - 1) (2 ^ f.mbits - 1)
  | _ => f.code false (2 ^ f.ebits - 1) (2 ^ (f.mbits - 1))

def FloatFmt.infCode (f : FloatFmt) (neg : Bool) : Nat := f.code neg (2 ^ f.ebits - 1) 0

/-- ⌊log₂⌋ of m · 2^e, for m ≠ 0. -/
def floorLog (m : Nat) (e : Int) : Int := (Nat.log2 m : Int) + e

/-- The number an element's bits stand for. TRN2's reserved code counts as 0 (R78). -/
def Cvt.unpack (c : Cvt) (x : Nat) : Num :=
  match c.float with
  | some f => f.unpack (if c = .f19 then x >>> 13 else x)
  | none =>
    match c with
    | .trn2 =>
      match x % 4 with
      | 1 => .fin false 1 0
      | 3 => .fin true 1 0
      | _ => .fin false 0 0
    | _ =>
      let (lo, _, w) := c.intRange
      let v : Int := if lo < 0 then sextNat w x else ((x % 2 ^ w : Nat) : Int)
      .fin (decide (v < 0)) v.natAbs 0

/-! ## Rounding (R90, R91) -/

/-- A rounding mode; `sr` carries the 24 random bits of the draw. -/
inductive Rnd where
  | rne | rtz | rup | rdn | rna
  | sr (draw : Nat)
deriving DecidableEq, Repr

/-- The rounding and flushing that an instruction works under (R244). -/
structure FEnv where
  rnd : Rnd
  /-- Flush subnormal inputs. -/
  fin : Bool
  /-- Flush subnormal results. -/
  fout : Bool
deriving DecidableEq, Repr

/-- mode.RND as every instruction but vfcvt.sr and vfrnd takes it (R90). -/
def rndOf (mode : Word) : Rnd :=
  match (fld mode 0 3).toNat with
  | 1 => .rtz
  | 2 => .rup
  | 3 => .rdn
  | 4 => .rna
  | _ => .rne

/-- mode.RND holds a reserved value (R90). -/
def rndReserved (mode : Word) : Bool := 6 ≤ (fld mode 0 3).toNat

/-- mode.RND selects stochastic rounding. -/
def rndIsSr (mode : Word) : Bool := fld mode 0 3 == 5#3

def FEnv.ofMode (mode : Word) : FEnv := ⟨rndOf mode, mode.getLsbD 4, mode.getLsbD 5⟩

/-- RNE, subnormals kept: the rounding of passes, atomics and vf2sum. -/
def FEnv.plain : FEnv := ⟨.rne, false, false⟩

/-- m · 2^(−shift) rounded to an integer magnitude, and whether it was exact. -/
def roundShift (r : Rnd) (neg : Bool) (m shift : Nat) : Nat × Bool :=
  let q := m >>> shift
  let rem := m % 2 ^ shift
  if rem = 0 then (q, true)
  else
    let half := 2 ^ (shift - 1)
    let up : Bool :=
      match r with
      | .rne => half < rem || (rem == half && q % 2 == 1)
      | .rtz => false
      | .rup => !neg
      | .rdn => neg
      | .rna => half ≤ rem
      | .sr draw => 2 ^ 24 ≤ (rem * 2 ^ 24) >>> shift + draw
    (if up then q + 1 else q, false)

/-- m · 2^e rounded to a multiple of 2^q: the multiple, and whether it was exact. -/
def roundAt (r : Rnd) (neg : Bool) (m : Nat) (e q : Int) : Nat × Bool :=
  if q ≤ e then (m <<< (e - q).toNat, true) else roundShift r neg m (q - e).toNat

/-- The quantum to which m · 2^e is rounded in a format with `mbits` mantissa bits and least exponent `emin`. -/
def quantum (mbits : Nat) (emin : Int) (m : Nat) (e : Int) : Int := max (floorLog m e) emin - mbits

/-- The overflow column of R95. -/
def overflowCode (f : FloatFmt) (r : Rnd) (sat neg : Bool) : Nat :=
  let toInf : Bool :=
    match r with
    | .rtz => false
    | .rup => !neg
    | .rdn => neg
    | _ => true
  match f.special with
  | .none => f.maxCode neg
  | .nanOnly => if sat || !toInf then f.maxCode neg else f.nanCode neg
  | .ieee => if sat || !toInf then f.maxCode neg else f.infCode neg

/-- A nonzero finite number rounded into a float format, with its flags (R90 to R95). `keep` is false when subnormal
results are flushed. -/
def roundFinite (f : FloatFmt) (r : Rnd) (fout sat neg : Bool) (m : Nat) (e : Int) : Nat × Word :=
  let emin : Int := 1 - (f.bias : Int)
  let q := quantum f.mbits emin m e
  let (k, exact) := roundAt r neg m e q
  let (k, q) := if 2 ^ (f.mbits + 1) ≤ k then (k / 2, q + 1) else (k, q)
  let (emaxField, mmax) := f.maxField
  let qmax : Int := (emaxField : Int) - f.bias - f.mbits
  if qmax < q ∨ (q = qmax ∧ 2 ^ f.mbits + mmax < k) then (overflowCode f r sat neg, wOVF ||| wINX)
  else
    let inx := when (!exact) wINX
    let ev := floorLog m e
    let tiny : Bool :=
      !exact && ev < emin &&
        (let (k', _) := roundAt r neg m e (ev - f.mbits)
         (if 2 ^ (f.mbits + 1) ≤ k' then ev + 1 else ev) < emin)
    let fl := inx ||| when tiny wUNF
    if k < 2 ^ f.mbits then
      if fout && k != 0 then (f.code neg 0 0, fl ||| wUNF ||| wINX) else (f.code neg 0 k, fl)
    else (f.code neg (q + f.mbits + f.bias).toNat (k - 2 ^ f.mbits), fl)

/-- A number rounded into a float format (R95). -/
def roundFloat (f : FloatFmt) (r : Rnd) (fout sat : Bool) (x : Num) : Nat × Word :=
  match x with
  | .nan sig neg =>
    match f.special with
    | .none => (f.maxCode neg, wNANSAT ||| when sig wINV)
    | _ => (f.nanCode false, when sig wINV)
  | .inf neg =>
    match f.special with
    | .none => (f.maxCode neg, wOVF)
    | .nanOnly => if sat then (f.maxCode neg, 0) else (f.nanCode neg, wINV)
    | .ieee => (if sat then f.maxCode neg else f.infCode neg, 0)
  | .fin neg m e => if m = 0 then (f.code neg 0 0, 0) else roundFinite f r fout sat neg m e

/-- A number rounded into an integer range (R96, R97). -/
def roundInt (lo hi : Int) (w : Nat) (r : Rnd) (x : Num) : Nat × Word :=
  match x with
  | .nan _ _ => (0, wINV)
  | .inf neg => (intBits w (if neg then lo else hi), wINV)
  | .fin neg m e =>
    if m = 0 then (0, 0)
    else
      let (k, exact) := roundAt r neg m e 0
      let v : Int := if neg then -(k : Int) else k
      if hi < v then (intBits w hi, wINV)
      else if v < lo then (intBits w lo, wINV)
      else if v = 0 then (0, wUNF ||| wINX)
      else (intBits w v, when (!exact) wINX)

/-- A number rounded into an S20 scale (R99). -/
def roundS20 (r : Rnd) (x : Num) : Nat × Word :=
  match x with
  | .nan _ _ => (0xFF000, wINV)
  | .inf neg => if neg then (0xFF000, wINV) else (0xFEFFF, wOVF)
  | .fin neg m e =>
    if m = 0 then (0, 0)
    else if neg then (0xFF000, wINV)
    else
      let q := floorLog m e - 12
      let (k, exact) := roundAt r false m e q
      let (k, q) := if 2 ^ 13 ≤ k then (k / 2, q + 1) else (k, q)
      let ex := q + 12
      if ex < -126 then (0, wUNF ||| wINX)
      else if 127 < ex then (0xFEFFF, wOVF ||| wINX)
      else ((ex + 127).toNat * 4096 + (k - 4096), when (!exact) wINX)

/-- The number an S20 scale stands for (R79). -/
def unpackS20 (x : Nat) : Num :=
  let e := (x >>> 12) % 256
  if e = 0 then .fin false 0 0
  else if e = 255 then .nan false false
  else .fin false (4096 + x % 4096) ((e : Int) - 127 - 12)

/-- Input flushing (R92): a subnormal becomes a zero of the same sign. -/
def flushIn (c : Cvt) (on : Bool) (x : Num) : Num :=
  match c.float, x with
  | some f, .fin neg m e =>
    if on && c.flushes && m != 0 && floorLog m e < 1 - (f.bias : Int) then .fin neg 0 0 else x
  | _, _ => x

/-- A number rounded into the format of a code. F19 leaves the 13 low bits of its container zero (R75). -/
def roundTo (c : Cvt) (env : FEnv) (sat : Bool) (x : Num) : Nat × Word :=
  match c.float with
  | some f =>
    let (y, fl) := roundFloat f env.rnd (env.fout && c.flushes) (sat && c != .fp64) x
    (if c = .f19 then y <<< 13 else y, fl)
  | none =>
    let (lo, hi, w) := c.intRange
    roundInt lo hi w env.rnd x

/-- The integer that an exact integer number is. -/
def Num.toInt : Num → Int
  | .fin neg m _ => if neg then -(m : Int) else m
  | _ => 0

/-- Bits of a format's values: F19 takes 32 bits and uses 19. -/
def Cvt.valueBits (c : Cvt) : Nat := if c = .f19 then 19 else c.width

/-- A conversion from a float format to a wider one: exact, and no output flushing touches it (R95). -/
def widens (sf df : Cvt) : Bool := sf.float.isSome && df.float.isSome && decide (sf.valueBits < df.valueBits)

/-- cvt of R178: a conversion of one element under R95 to R98. DESIGN CHOICE: an infinity that .sat converts into a wider float
gives the maximum of the table's row, although R95 says that a widening is affected by input flushing and R76 alone (log entry
79). -/
def convert (sf df : Cvt) (env : FEnv) (sat : Bool) (x : Nat) : Nat × Word :=
  let warn := when (sf == .trn2 && x % 4 == 2) wTRNRES
  let n := flushIn sf env.fin (sf.unpack x)
  if sf.float.isNone && df.float.isNone then
    let (lo, hi, w) := df.intRange
    let v := n.toInt
    if lo ≤ v ∧ v ≤ hi then (intBits w v, warn)
    else if sat || df == .trn2 then (intBits w (if v < lo then lo else hi), warn ||| wINV)
    else (intBits w v, warn)
  else
    let (y, fl) := roundTo df (if widens sf df then { env with fout := false } else env) sat n
    (y, warn ||| fl)

/-- One advance of a lane's seed (R91). -/
def advanceSeed (seed : Word) : Word :=
  let s := if seed = 0 then 0x2545F491#32 else seed
  let s := s ^^^ (s <<< 13)
  let s := s ^^^ (s >>> 17)
  s ^^^ (s <<< 5)

/-- The 24 random bits of an advanced seed (R91). -/
def drawOf (seed : Word) : Nat := (seed >>> 8).toNat

/-! ## Arithmetic on numbers -/

def Num.isNan : Num → Bool
  | .nan _ _ => true
  | _ => false

def Num.isSig : Num → Bool
  | .nan s _ => s
  | _ => false

def Num.isZero : Num → Bool
  | .fin _ m _ => m == 0
  | _ => false

def Num.neg : Num → Bool
  | .nan _ n => n
  | .inf n => n
  | .fin n _ _ => n

def Num.negate : Num → Num
  | .nan s n => .nan s (!n)
  | .inf n => .inf (!n)
  | .fin n m e => .fin (!n) m e

/-- The numerator of a finite number over 2^e. -/
def scaled (e : Int) : Num → Int
  | .fin neg m x => let v : Int := (m <<< (x - e).toNat : Nat); if neg then -v else v
  | _ => 0

def Num.exp : Num → Int
  | .fin _ _ e => e
  | _ => 0

/-- v · 2^e as a number, a zero with the sign given. -/
def ofScaled (zneg : Bool) (v : Int) (e : Int) : Num :=
  if v = 0 then .fin zneg 0 0 else .fin (decide (v < 0)) v.natAbs e

/-- INV for each signalling operand (R245). -/
def sigFlag (xs : List Num) : Word := when (xs.any Num.isSig) wINV

/-- a + b exactly. `down` says that an exact zero is −0 (RND = RDN, R246). -/
def addNum (down : Bool) (a b : Num) : Num × Word :=
  match a, b with
  | .nan s _, b => (.nan false false, when (s || b.isSig) wINV)
  | a, .nan s _ => (.nan false false, when (s || a.isSig) wINV)
  | .inf n, .inf k => if n = k then (.inf n, 0) else (.nan false false, wINV)
  | .inf n, _ => (.inf n, 0)
  | _, .inf n => (.inf n, 0)
  | .fin na ma ea, .fin nb mb eb =>
    let e := min ea eb
    let zneg := down || (ma == 0 && mb == 0 && na && nb)
    (ofScaled zneg (scaled e (.fin na ma ea) + scaled e (.fin nb mb eb)) e, 0)

/-- a × b exactly. -/
def mulNum (a b : Num) : Num × Word :=
  match a, b with
  | .nan s _, b => (.nan false false, when (s || b.isSig) wINV)
  | a, .nan s _ => (.nan false false, when (s || a.isSig) wINV)
  | .inf n, b => if b.isZero then (.nan false false, wINV) else (.inf (n != b.neg), 0)
  | a, .inf n => if a.isZero then (.nan false false, wINV) else (.inf (n != a.neg), 0)
  | .fin na ma ea, .fin nb mb eb => (.fin (na != nb) (ma * mb) (ea + eb), 0)

/-- a × b + d exactly (R246): 0 × ∞ is invalid even beside a quiet NaN. -/
def fmaNum (down : Bool) (a b d : Num) : Num × Word :=
  let (p, f) := mulNum a b
  let (r, g) := addNum down p d
  (r, f ||| g)

/-- The order of two numbers that are no NaN, the zeros equal. -/
def cmpNum (a b : Num) : Ordering :=
  match a, b with
  | .inf n, .inf k => if n = k then .eq else if n then .lt else .gt
  | .inf n, _ => if n then .lt else .gt
  | _, .inf n => if n then .gt else .lt
  | a, b =>
    let e := min a.exp b.exp
    compare (scaled e a) (scaled e b)

/-- a below b, with −0 below +0 (R247). -/
def below (a b : Num) : Bool :=
  match cmpNum a b with
  | .lt => true
  | .gt => false
  | .eq => a.isZero && b.isZero && a.neg && !b.neg

/-- The smaller or the larger of two elements under R247, as bits. -/
def minMax (f : FloatFmt) (larger : Bool) (a b : Nat × Num) : Nat × Word :=
  if a.2.isNan || b.2.isNan then (f.nanCode false, sigFlag [a.2, b.2])
  else if larger then (if below a.2 b.2 then b.1 else a.1, 0)
  else (if below b.2 a.2 then b.1 else a.1, 0)

/-- The exact sum of a list of numbers (R239): special values first, then one exact sum; −0 when every value is −0 or
`down` holds. -/
def sumNum (down : Bool) (xs : List Num) : Num × Word :=
  let pinf := xs.any (· == .inf false)
  let ninf := xs.any (· == .inf true)
  let fl := sigFlag xs ||| when (pinf && ninf) wINV
  if xs.any Num.isNan || (pinf && ninf) then (.nan false false, fl)
  else if pinf then (.inf false, fl)
  else if ninf then (.inf true, fl)
  else
    let e := xs.foldl (fun e x => min e x.exp) 0
    let v := xs.foldl (fun v x => v + scaled e x) 0
    (ofScaled (down || xs.all fun x => x.isZero && x.neg) v e, fl)

/-- The integer square root: the greatest r with r² ≤ n, one bit of r at a time from bit `k − 1` down. -/
def isqrtBits (n : Nat) (k r : Nat) : Nat :=
  match k with
  | 0 => r
  | k + 1 =>
    let t := r + 2 ^ k
    isqrtBits n k (if t * t ≤ n then t else r)

def isqrt (n : Nat) : Nat := isqrtBits n (Nat.log2 n / 2 + 1) 0

/-- A quotient n / d to more bits than any format holds, its last bit telling whether it is exact. -/
def divSticky (n d : Nat) : Nat := let q := n / d; 2 * q + (if n % d = 0 then 0 else 1)

/-- 1 / x for a finite nonzero number, close enough to round in any format. -/
def recipNum (neg : Bool) (m : Nat) (e : Int) : Num :=
  let k := Nat.log2 m + 64
  .fin neg (divSticky (2 ^ k) m) (-e - k - 1)

/-- The square root of a finite positive number, close enough to round in any format. -/
def sqrtNum (m : Nat) (e : Int) : Num :=
  let k := 130 + (if (e - 130) % 2 = 0 then 0 else 1)
  let n := m <<< k
  let r := isqrt n
  .fin false (2 * r + (if r * r = n then 0 else 1)) ((e - k) / 2 - 1)

/-- a / b for finite numbers with b ≠ 0, close enough to round in any format. -/
def quotNum (neg : Bool) (ma : Nat) (ea : Int) (mb : Nat) (eb : Int) : Num :=
  if ma = 0 then .fin neg 0 0
  else
    let k := Nat.log2 mb + 130
    .fin neg (divSticky (ma <<< k) mb) (ea - eb - k - 1)

end Sys2Proof
end

