-- ==== Sys2Proof/Machine/State.lean ====
section
/-!
DEFINITION. The state of the device as plain data, the state after reset, and the reasons a step can stop.
Identifiers used as keys: a die is 0 to 3; a cluster is 12·die + its number in the die; a core is 4·cluster + its
number in the cluster (R2); a queue is 1024·function + its number (R421); a join slot is 65536·die + its number
(R356); a bank is 64·die + its number (R57). Teams, runs, walks and commands have numbers of the model's own.
-/

namespace Sys2Proof.Machine

open Sys2Proof

/-! ## Waiting, positions in the text, paths -/

/-- What a PC slot or a sequencer waits on: the WAITON codes of R400. -/
inductive Wait where
  | none
  | clause (unmet : BitVec 8)
  | scoreboard (kind num : Nat)
  | barrier (scope b phase : Nat)
  | emission (node : Nat)
  | port (q : Nat)
  | channelFull (ch : Nat)
  | freeSlot (mask : Nat)
  | cvopen
  | futnew
  | lko
  | hcall (x : Nat)
  | reservation (core : Nat)
  | fabric (rank : Nat)
  /-- A futst waits for the state word of another device's slot (R369). -/
  | joinRead (rank : Nat)
  | wptr (ch : Nat)
  | engineQueue (ne : Nat)
  | qclose (q : Nat)
  /-- Earlier accesses, an engine's ownership of a line, a release: waits for which R400 lists no code. -/
  | memory
deriving DecidableEq, Repr

/-- The clause a path stands in: the text offsets of its header and of the word after its last, and its class (R154,
R155). -/
structure Clause where
  addr : Word
  stop : Word
  cls : Nat
deriving DecidableEq, Repr

/-- A PC slot (R143). -/
structure Slot where
  /-- True when the slot holds a path. -/
  live : Bool
  /-- Text offset of the next word (R154, R166). -/
  pc : Word
  /-- The clause the path stands in, or none when the next word is a header. -/
  clause : Option Clause
  /-- ex0 to ex2 as one mask (R135, R145). -/
  mask : Mask
  fmt : Word
  mode : Word
  /-- Index of the join entry that the path next reaches (R143). -/
  frame : Option Nat
  age : Nat
  wait : Wait
  /-- The phase whose completion the slot waits for at a barrier, by 16·scope + barrier (R381). -/
  barWait : Option (Nat × Nat)
  /-- Records that other destinations of the slot's emission have accepted (R363). -/
  took : Nat
deriving DecidableEq, Repr

/-- An entry of the reconvergence stack (R146). -/
structure StackEntry where
  valid : Bool
  /-- True for a DEFER entry, false for a JOIN entry. -/
  defer : Bool
  pc : Word
  mask : Mask
  fmt : Word
  mode : Word
  pend : Nat
  link : Option Nat
deriving DecidableEq, Repr

/-- A wait in which part of the instruction has been done: issuing again resumes it. -/
def Wait.begun : Wait → Bool
  | .emission _ | .barrier .. | .joinRead _ => true
  | .hcall x => x == 0
  | _ => false

/-! ## Tile handles, records, fault records -/

/-- The 16 bytes of a tile handle (R344), as an engine copied them (R140). -/
abbrev Handle := BitVec 128

/-- A 64-byte record as its sixteen words (R341). -/
abbrev Rec := List Word

/-- A record delivered to a team (R351, R355, R364). -/
structure Delivered where
  words : Rec
  /-- The lane that owns it in RMODE 0, none otherwise. -/
  lane : Option Nat
  retired : Bool
  /-- It is a fault record (R397), and holds an entry of the die's reserve (R403). -/
  fault : Bool
deriving DecidableEq, Repr

/-- The memory attributes that a translation gives an access (R26, R29). -/
structure Target where
  /-- Physical address on the device that owns the page. -/
  pa : Nat
  /-- The owning peer's rank, none for this device. -/
  peer : Option Nat
  /-- 0 WB, 1 WT, 2 UC, 3 DEV. -/
  mt : Nat
  /-- The page is a weight-store page (WSA of R26). -/
  wsa : Bool
  /-- The page is convoy-capable. -/
  cv : Bool
  /-- The page is migrating (R29). -/
  mig : Bool
deriving DecidableEq, Repr

/-- One lane of a memory access: the lane (96 for a scalar access), its address and, once translated, its target. -/
structure LaneAcc where
  lane : Nat
  va : Nat
  tgt : Option Target
  /-- A walk for this lane ended in this fault (cause, subcause). -/
  failed : Option (Nat × Nat)
  /-- The value read, once the lane has read. -/
  val : Option DWord
deriving DecidableEq, Repr

/-- What an outstanding access is for. -/
inductive AccKind where
  | vld | vldg | sld | cvld | vsts | vatom | satom | futst
deriving DecidableEq, Repr

/-- An access of a party that has issued and is not yet complete: a load that waits for its data (R184), a gather
with deferred lanes (R37), a scatter with deferred lanes (R188). -/
structure Access where
  id : Nat
  kind : AccKind
  /-- The PC slot that issued it. -/
  slot : Bool
  pc : Word
  clause : Word
  word : Word
  dest : Nat
  size : Size
  ord : Ord
  pol : Policy
  lanes : List LaneAcc
  /-- Data of a scatter, by lane. -/
  data : List (Nat × DWord)
  /-- The core's convoy slot of the view, for cvld. -/
  view : Nat
  /-- The missed-mask triple of vldg.part and its value, written at completion (R187). -/
  missed : Option (Nat × Mask)
  /-- Warn bits of the instruction beyond those of its order word, set when it completes (R172). -/
  fall : Word
deriving DecidableEq, Repr

/-- A register that the scoreboard holds (kind 0 vector, 1 scalar, 4 tile; R400) and the operation that will write it. -/
structure Pending where
  kind : Nat
  num : Nat
  op : Nat
deriving DecidableEq, Repr

/-- Where a fault came from: the words that R398 records. -/
structure Origin where
  pc : Word
  clause : Word
  word : Word
  /-- Party index, or none for the sequencer. -/
  party : Option Nat
  slot : Bool
deriving DecidableEq, Repr

/-- The first fault of a team, as its record will state it (R398, R401). -/
structure FaultRec where
  cause : Nat
  sub : Nat
  deferred : Bool
  engine : Bool
  origin : Origin
  lane : Option Nat
  addr : Option Nat
  info : Word
  waitOn : Nat
  waitX : Nat
  stamp : DWord
  supp : Nat
deriving DecidableEq, Repr

/-! ## Engines of a core -/

/-- The matrix passes of an operation that have not retired (R281): those that wait for a reservation entry, the bypass
counts of those that hold one, oldest first, and those in the array; the age of its entries. -/
structure Passes where
  unposted : Nat
  waiting : List Nat
  inArray : Nat
  age : Nat
deriving DecidableEq, Repr

/-- The copy commands (R167). -/
inductive CopyKind where
  | cpy | cpg | cps
  /-- The receivers, as a mask of member indexes. -/
  | cpm (mask : Nat)
deriving DecidableEq, Repr

/-- A copy command in the issue journal (R117). -/
structure CopyCmd where
  id : Nat
  /-- Sequence number (R102). -/
  seq : Nat
  kind : CopyKind
  src : Handle
  dst : Handle
  /-- The status register. -/
  sd : Nat
  scope : Scope
  rnd : Nat
  sub : Nat
  /-- The active lanes and their row indexes (R113). -/
  index : List (Nat × Word)
  /-- Slot of each receiver's sub-ring, by member index (R115). -/
  ring : List (Nat × Nat)
  /-- The command's place in the order of R112, fixed at issue. -/
  place : Nat
  origin : Origin
  /-- Destination bytes delivered, or rows for cpg and cps. -/
  delivered : Nat
  /-- The position up to which the command has written, ahead of `delivered` while a peer has yet to answer (R106). -/
  written : Nat
  /-- Destination lines that the command still owns (R111), by `lineKey`, each with the position in the delivery order
  at which the command is done with it. -/
  owned : List (Nat × Nat)
  /-- A poisoned source unit was read. -/
  poison : Bool
  /-- Destination units that took a poisoned byte: sectors, or local-store words. -/
  tainted : List Nat
  cancelled : Bool
  /-- Warn bits gathered so far (R94, R118). -/
  flags : Word
deriving DecidableEq, Repr

/-- A copy channel granted to a team (R100). -/
structure Channel where
  phys : Nat
  cmds : List CopyCmd
  /-- Number of the next command, modulo 128 (R102). -/
  next : Nat
  /-- SEQ and DELIVERED (R107). -/
  wptr : Word
deriving DecidableEq, Repr

/-- A bound queue port (R136, R207, R208, R216). -/
inductive PortKind where
  | load | store | pairs
deriving DecidableEq, Repr

structure Port where
  kind : PortKind
  handle : Handle
  /-- Elements taken or pushed so far. -/
  pos : Nat
  rnd : Nat
  sub : Nat
  scope : Scope
  origin : Origin
  /-- Groups a pair stream has entered and no pop has taken (R128): each is 96 words. -/
  groups : List (List Word)
  /-- Elements pushed and not yet written: (position, value) (R209). -/
  unwritten : List (Nat × Word)
  /-- No more groups will enter: the terminal group has, or the tile is full. -/
  ended : Bool
deriving DecidableEq, Repr

/-- The SSU commands (R168). -/
inductive SsuKind where
  | int (f : IntForm)
  | merge (isInt keepz : Bool) (c : Comb)
  | scan
  | spx
deriving DecidableEq, Repr

/-- A command queued on a stream unit (R120). -/
structure SsuCmd where
  id : Nat
  tid : Nat
  core : Nat
  kind : SsuKind
  sd : Nat
  blk : Nat
  len0 : Word
  len1 : Word
  rnd : Nat
  sub : Nat
  /-- The command's place in the order of R112, fixed at issue. -/
  place : Nat
  origin : Origin
  /-- The block as the unit read it at issue (R210). -/
  block : List Byte
  /-- The block was read from a poisoned sector. -/
  bad : Bool
  /-- Destination lines that the command owns (R111, R120), by `lineKey`. -/
  owned : List Nat
  /-- The matrix passes of an spx expansion (R213). -/
  passes : Passes
  /-- Warn bits and status word of a command that has written its outputs and waits for a peer to have performed them. -/
  ended : Option (Word × Word)
deriving DecidableEq, Repr

/-- A command queued on a neighbour engine (R130, R215). -/
structure NeCmd where
  id : Nat
  tid : Nat
  core : Nat
  /-- The load port, for nbpairs. -/
  port : Option Nat
  sd : Nat
  grid : Nat
  desc : List Byte
  /-- The command's place in the order of R112, fixed at issue. -/
  place : Nat
  origin : Origin
  /-- The pairs of nbpairs that have not entered the stream, five words each; none before the grid has been checked. -/
  pairs : Option (List (List Word))
  /-- The status bits that the check found. -/
  flags : Word
  /-- Destination lines that the command owns (R111, R130), by `lineKey`. -/
  owned : List Nat
  /-- Status word of a command that has written its outputs and waits for a peer to have performed them. -/
  ended : Option Word
deriving DecidableEq, Repr

/-! ## The matrix sequencer and its operations -/

/-- An A register (R141, R271): the present elements by 512·row + k, the scales by 16·row + group, and the recorded
encoding, the format code with whether it holds scales. -/
structure AReg where
  elems : Map DWord
  scales : Store 32
  enc : Option (Nat × Bool)
deriving DecidableEq, Repr

/-- The classes that Lookout gives a neuron (R296). -/
inductive LkoClass where
  | active | guarded | skip
deriving DecidableEq, Repr

/-- An open Lookout sequence (R295 to R298). -/
structure LkoSeq where
  block : List Byte
  /-- The handle of X that the block names. -/
  x : Handle
  blockVa : Nat
  /-- The A register that lko.pred loads. -/
  ma : Nat
  pass : Nat
  /-- The class of each neuron below N, once lko.pred has retired. -/
  classes : List LkoClass
  /-- For each neuron, the predicted p and the error bound e of each present row, as FP32 bits. -/
  pe : List (List (Word × Word))
  /-- Handle register and handle bytes that lko.fetch read. -/
  weights : Option (Nat × Handle)
  /-- The tile of the mapped passes. -/
  tile : Option Nat
deriving DecidableEq, Repr

/-- The matrix operations (R265). -/
inductive MatKind where
  | mld (ma : Nat) (h : Handle) (kc nb : Nat)
  | pass (cd : Nat) (a : AReg) (h : Handle) (transposed : Bool) (kc nb : Nat) (mapped : Bool)
  | mst (cd : Nat) (h : Handle) (kc nb : Nat)
  | mscl (cd : Nat) (h : Handle)
  | lkoPred (ma : Nat)
  | lkoChk (cd : Nat) (ma : Nat) (hreg : Nat)
deriving DecidableEq, Repr

/-- A matrix operation that has issued and not retired. Its reservation entries have its priority (R281). -/
structure MatOp where
  id : Nat
  kind : MatKind
  fmt : Word
  mode : Word
  /-- The operation's place in the order of R112, fixed at issue. -/
  place : Nat
  origin : Origin
  prio : Nat
  passes : Passes
  /-- The blocks that passes which have entered the array have read, in their order: the present elements by
  512·column + k, the scales by 16·column + group. -/
  fetched : List AReg
  /-- Destination lines that the operation owns (R111, R291), by `lineKey`. -/
  owned : List Nat
  /-- Warn bits of an operation that has written memory and waits for a peer to have performed its writes. -/
  ended : Option Word
deriving DecidableEq, Repr

/-- A matrix sequencer (R264). -/
structure Sequencer where
  stopped : Bool
  pc : Word
  clause : Option Clause
  k : Store 32
  fmt : Word
  mode : Word
  /-- The A register that the collector has latched (R272). -/
  latch : Option Nat
  wait : Wait
  barWait : Option (Nat × Nat)
  lko : Option LkoSeq
  ops : List MatOp
  /-- RERUN and RETIRED (R293). -/
  check : Word
deriving DecidableEq, Repr

/-! ## Barriers -/

/-- A participant of a barrier: a party of a team (its index) or the team's sequencer (16). -/
structure Arrival where
  tid : Nat
  who : Nat
  fmt : Word
  mode : Word
  /-- Accesses and requests of the party, and its store streams, that the arrival's release waits for (R381): it counts once
  they are performed. -/
  awaits : List Nat
  streams : List Nat
deriving DecidableEq, Repr

/-- One barrier (R380): its phase, and the arrivals of the open phase. -/
structure Barrier where
  phase : Nat
  arrived : List Arrival
deriving DecidableEq, Repr

/-! ## Parties and teams -/

/-- A party (R131 to R151). -/
structure Party where
  slot0 : Slot
  slot1 : Slot
  live : Mask
  /-- v0 to v127, lane L of vn at key 96·n + L (R133). -/
  vregs : Store 32
  /-- Words of the vector registers, and entries of the reconvergence stack, that hold an uncorrectable error (R71). -/
  vPoison : List Nat
  stackPoison : List Nat
  /-- s1 to s60 (R135). -/
  sregs : Store 32
  warn : Word
  tstart : DWord
  depth : Word
  /-- The rec register (R137). -/
  recs : Word
  records : List Delivered
  stack : List StackEntry
  nextAge : Nat
  /-- q0 to q3 (R136). -/
  ports : Map Port
  /-- MODEL's own, empty between instructions: the groups that VB has popped where VA names the same port (R136), by
  register. -/
  popB : Map (List Word)
  pending : List Pending
  accesses : List Access
  /-- Lines written and not yet performed at device scope because they are at a peer: request numbers (R444). -/
  remote : List Nat
  /-- Those of them that are reductions with an acquire (R305). -/
  acquires : List Nat
  track : Nat
  /-- Resident party slot of the core (R135). -/
  resident : Nat
  starve : Nat
  yielded : Bool
  /-- clk when the party last issued; in a saved team, the cycles its timer had counted (R420). -/
  lastIssue : Nat
  hangSent : Bool
  retired : Bool
  /-- The phase of the party's last arrival, by 16·scope + barrier (R381). -/
  arrivals : Map Nat
deriving DecidableEq, Repr

/-- Where a team stands in its life (R378, R402, R414). -/
inductive TeamState where
  /-- Issuing. -/
  | resident
  /-- Stopped by a fault, the stop not complete. -/
  | stopping
  /-- Stopped at the save rung, the save not complete. -/
  | saving
  /-- In the save area. -/
  | saved
deriving DecidableEq, Repr

/-- A team (R2, R142, R384). -/
structure Team where
  state : TeamState
  run : Nat
  node : Nat
  die : Nat
  /-- The core; in the save area a place of the team's own, 4·(48 + member 0) + its index. -/
  core : Nat
  /-- The core before the save (R418). -/
  lastCore : Nat
  /-- id.team (R137). -/
  teamNo : Word
  /-- Member index in the cluster group (R137). -/
  vcore : Nat
  /-- The cluster group, named by the number of its member 0, and its size. -/
  group : Option (Nat × Nat)
  mig : Word
  parties : Map Party
  /-- h0 to h15 (R140). -/
  handles : Store 64
  /-- Local-store bytes of the allocation, and its size (R65). -/
  ls : Store 8
  lsSize : Nat
  /-- Poisoned 32-bit words of the local store and of the accumulator store (R71). -/
  lsPoison : List Nat
  accPoison : List Nat
  /-- Tiles: element (i, j) of tile c at key 16384·c + 128·i + j (R67), and their number. -/
  acc : Store 32
  tiles : Nat
  /-- First physical tile (R68). -/
  tile0 : Nat
  aregs : Map AReg
  seq : Option Sequencer
  channels : Map Channel
  /-- Free-slot counters and counts of earlier cpm commands, by receiver (R115). -/
  free : Store 32
  sent : Map Nat
  /-- Receive pointers and slots returned, by sender (R116). -/
  recv : Store 32
  acked : Store 32
  barriers : Map Barrier
  neStatus : Word
  /-- The lko register as it was at the sequencer's last barrier, and what the sequencer has written to it since, the last
value first (R299). -/
  lko : Word
  lkoNew : List Word
  fault : Option FaultRec
  /-- Gathering stamp (R386). -/
  stamp : DWord
  /-- Records of RMODE 2, retired with the team. -/
  teamRecords : List Delivered
  /-- The place of the instruction that retired the last party (R355). -/
  lastExit : Option Origin
deriving DecidableEq, Repr

/-! ## Translation -/

/-- A cached leaf translation (R31, R32): its context tag, first virtual address, size and leaf entry. -/
structure TlbEntry where
  tag : BitVec 16
  base : Nat
  size : Nat
  leaf : DWord
deriving DecidableEq, Repr

/-- Where a miss stands (R34, R35). -/
inductive WalkAt where
  /-- It found its translation in the die's last level: no walker is needed. -/
  | dieHit
  /-- It holds one of the die's walkers. -/
  | walker
  /-- In the die's miss queue. -/
  | queue
  /-- Held back at a cluster TLB, the miss queue being full. -/
  | cluster
  /-- Its walk has ended in this fault (cause, subcause), which issuers that waited for it have yet to receive. -/
  | ended (cause sub : Nat)
deriving DecidableEq, Repr

/-- A miss beyond the cluster level (R34, R35): a page of one context, and the cores and the issuers that wait for it. -/
structure Walk where
  id : Nat
  die : Nat
  tag : BitVec 16
  /-- First address and size of the page. -/
  base : Nat
  size : Nat
  at_ : WalkAt
  cores : List Nat
  /-- True when a lane of a vldg or vsts waits for it; a walk that only vldg.part started faults nobody (R39). -/
  needed : Bool
  /-- The issuers whose instruction stands until the walk ends, and receives what it finds. -/
  waiters : List Who
deriving DecidableEq, Repr

/-- An entry of the context table (R23, R422). -/
structure Context where
  root : Nat
  fn : Nat
  queue : Nat
deriving DecidableEq, Repr

/-- A range invalidation in progress: a tlbrng of a party, or the queue page's (R42, R423). -/
structure Inval where
  id : Nat
  tag : BitVec 16
  removed : Nat
  /-- Accesses and requests that may use a removed translation, by number. -/
  awaits : List Nat
  /-- The party and its status register, or none for the queue page. -/
  dest : Option (Nat × Nat × Nat)
  queue : Nat
deriving DecidableEq, Repr

/-- An entry of a die's migration table (R44 to R47). -/
structure Migration where
  die : Nat
  oldFrame : Nat
  size : Nat
  newFrame : Nat
  rank : Option Nat
  /-- Lines of 256 bytes already copied. -/
  copied : List Nat
  /-- Sequence numbers applied at the new location, with what they returned (R47). -/
  applied : List (Nat × BitVec 16 × DWord)
deriving DecidableEq, Repr

/-! ## Memory-side buffers -/

/-- An entry of a core's write-combining buffer (R53): one 64-byte line. -/
structure WcbEntry where
  line : Nat
  bytes : Map Byte
  /-- The parties, as (team, party), whose stores the entry holds. -/
  owners : List (Nat × Nat)
  /-- clk at the last store to the entry. -/
  last : Nat
deriving DecidableEq, Repr

/-- Buffered bytes that have drained and met a line which engine commands own: the directory holds them until those
commands have released the line (R52, R111). -/
structure HeldStore where
  core : Nat
  line : Nat
  bytes : Map Byte
  owners : List (Nat × Nat)
  /-- The places, in the order of R112, of the commands that they wait for. -/
  awaits : List Nat
deriving DecidableEq, Repr

/-- An entry of a slice's reduction queue (R319): the exact combined operand of each element, as a numerator over
2^1074 for floating-point sums, and as the bits of the value otherwise. -/
structure RedEntry where
  id : Nat
  die : Nat
  sector : Nat
  op : AOp
  ty : ATy
  elems : Map Int
  /-- Special operands seen, by element: 1 a NaN, 2 +∞, 4 −∞, 8 some addend other than −0. -/
  special : Map Nat
  owners : List (Nat × Nat)
  /-- Peers' reductions that the entry holds, by source, agent and sequence number: they are acknowledged when it is applied. -/
  acks : List (Nat × Nat × BitVec 16)
  /-- clk when the entry was opened. -/
  opened : Nat
deriving DecidableEq, Repr

/-! ## Convoys -/

/-- The sidecar of a version (R325): CHK, NV, STAMP, COMP, VER and CID. -/
structure Sidecar where
  chk : BitVec 8
  nv : BitVec 2
  stamp : BitVec 52
  comp : BitVec 10
  ver : Word
  cid : BitVec 24
deriving DecidableEq, Repr

/-- A version in the retention store (R325): its sidecar, its 256 bytes, and its poisoned sectors (R71). -/
structure CvVersion where
  side : Sidecar
  bytes : List Byte
  bad : List Nat
deriving DecidableEq, Repr

/-- A convoy line (R325): the sidecar of the front, whose bytes are memory's, and the other versions. -/
structure CvLine where
  front : Sidecar
  retained : Option CvVersion
  pending : Option CvVersion
  /-- The peer whose convoy the pending version is of; none for one of this device. -/
  source : Option Nat := none
  /-- The pending version has been acknowledged to the close of its convoy, whose home may have committed it: no access reaches
  the line before the home's decision is known (R326). -/
  prepared : Bool := false
deriving DecidableEq, Repr

/-- State of a convoy or view (R330). -/
inductive CvState where
  /-- No convoy yet: a peer that is its home has been asked to open it (R331). -/
  | idle
  | opened | committed | aborted
deriving DecidableEq, Repr

/-- A cvclose that has issued and is not complete (R333): its party, status register and place. -/
structure CvClosing where
  op : Nat
  p : Nat
  sd : Nat
  origin : Origin
deriving DecidableEq, Repr

/-- A core's convoy slot (R324, R331). -/
structure CvSlot where
  view : Bool
  tid : Nat
  cid : BitVec 24
  ver : Word
  /-- View stamp, or the commit stamp of a convoy, in whole nanoseconds (R325, R327). -/
  stamp : DWord
  lost : Bool
  state : CvState
  lines : List Nat
  /-- The party and PC slot of a cvopen that waits for its convoy's home. -/
  opener : Option (Nat × Bool)
  /-- The cvclose that waits. -/
  closing : Option CvClosing
deriving DecidableEq, Repr

/-! ## The work graph -/

/-- A node descriptor (R337). -/
structure Node where
  entry : Word
  mxEntry : Word
  parties : Nat
  vregs : Nat
  ls : Nat
  tiles : Nat
  chans : Nat
  rmode : Nat
  rpp : Nat
  maxDepth : Nat
  prio : Nat
  fatal : Bool
  entryNode : Bool
  window : Nat
  quota : Nat
  edge0 : Nat
  nout : Nat
  rwin : Nat
  seqbar : BitVec 16
  group : Nat
  rslots : Nat
  rsize : Nat
  rbase : Nat
  bind0 : Nat
  nbind : Nat
  classes : DWord
deriving DecidableEq, Repr

/-- An edge entry (R338). -/
structure Edge where
  target : Nat
  type : Nat
  cyc : Bool
  prio : Nat
  cls : Nat
deriving DecidableEq, Repr

/-- A timetable window (R454). -/
structure Window where
  port : Nat
  cls : Nat
  start : Nat
  len : Nat
  period : Nat
deriving DecidableEq, Repr

/-- A graph image as the launch read it (R336). -/
structure Image where
  nodes : List Node
  edges : List Edge
  /-- Handle register and data-segment offset of each binding (R339). -/
  binds : List (Nat × Nat)
  faultNode : Option Nat
  spill : Nat
  /-- Virtual addresses of the segments. -/
  textVa : Nat
  textSize : Nat
  dataVa : Nat
  timetable : List Window
  hasTimetable : Bool
deriving DecidableEq, Repr

/-- A member of the process group (R360). -/
structure Member where
  rank : Nat
  dies : Nat
  nseed : Nat
  seeds : Nat
  report : Nat
deriving DecidableEq, Repr

/-- A record in a queue (R347, R348). -/
structure QRec where
  words : Rec
  /-- It is in spill; it spilled when it was accepted, for which SPLD counts it until it is gathered (R472). -/
  spilled : Bool
  overflowed : Bool
  /-- clk at acceptance, for the gather window (R351). -/
  since : Nat
  /-- The cluster whose party emitted it, if on this die (R385). -/
  origin : Option Nat
  /-- It is a fault record (R397), and holds an entry of the die's reserve (R403). -/
  fault : Bool
deriving DecidableEq, Repr

/-- What a node's entry of the run report counts (R361). -/
structure Report where
  acc : Nat
  ret : Nat
  peak : Nat
  spld : Nat
  maxd : Nat
  flags : BitVec 8
deriving DecidableEq, Repr

/-- A team's records, gathered and waiting for placement (R353, R386). -/
structure Gathered where
  node : Nat
  die : Nat
  recs : List QRec
  stamp : DWord
  origin : Option Nat
deriving DecidableEq, Repr

/-- An emission that its queue cannot take yet (R348). -/
structure Stalled where
  id : Nat
  run : Nat
  die : Nat
  node : Nat
  recs : List Rec
  cluster : Nat
  tid : Nat
  party : Nat
  origin : Origin
  /-- The source, agent and sequence number of a peer's emission; none for one of this device. -/
  peer : Option (Nat × Nat × BitVec 16)
deriving DecidableEq, Repr

/-- How a run stands (R361, R404). -/
inductive RunState where
  /-- Waiting for its start time. -/
  | held
  | active
  /-- Stopped by a fatal fault. -/
  | fatal
  | done
deriving DecidableEq, Repr

/-- A graph run. -/
structure Run where
  state : RunState
  /-- The launching queue. -/
  queue : Nat
  /-- Index of the LAUNCH packet. -/
  packet : Nat
  fn : Nat
  tag : BitVec 16
  /-- Firmware-owned, so that its parties are privileged (R178, R433). -/
  privileged : Bool
  ident : Word
  image : Image
  members : List Member
  /-- This device's entry. -/
  me : Member
  start : DWord
  result : Nat
  doneSig : Nat
  doneVal : DWord
  /-- The seed records, as the launch read them. -/
  seeds : List Rec
  /-- Team numbers given since the run began (R137). -/
  teamNos : List Word
  /-- Dies that have seeded. -/
  seeded : List Nat
  /-- Queues, by 4096·die + node. -/
  queues : Map (List QRec)
  reports : Map Report
  gathered : List Gathered
  barriers : Map Barrier
  /-- Parts of run barriers that members have completed: barrier, phase and rank (R382). -/
  remoteArrived : List (Nat × Nat × Nat)
  /-- The queue's ladder is draining: nothing is gathered or seeded (R413). -/
  draining : Bool
deriving DecidableEq, Repr

/-- State of a join slot (R356). -/
inductive JoinState where
  | empty | pending | resolved | faulted
deriving DecidableEq, Repr

/-- A join slot (R356): its state word's fields, and the registered continuations with the target queue's node. -/
structure JoinSlot where
  state : JoinState
  count : Nat
  owner : Nat
  ownerTid : Nat
  run : Nat
  /-- Each with the cluster of the party that registered it, if on this device (R385). -/
  conts : List (Rec × Option Nat)
deriving DecidableEq, Repr

/-- A deferred resolution (R359). -/
structure Deferred where
  tid : Nat
  handle : Word
  n : Nat
  /-- Form S: the command's number. Form M: the matrix operations awaited. -/
  awaits : List Nat
  origin : Origin
deriving DecidableEq, Repr

/-- An entry of a die's hold table (R409, R411). -/
structure Hold where
  gen : Nat
  /-- The held slot: team, party, PC slot and reply register; none when the entry is free. -/
  held : Option (Nat × Nat × Bool × Nat)
  /-- A reply that arrived while the team was saved. -/
  reply : Option Word
deriving DecidableEq, Repr

/-! ## The host's side -/

/-- State of a queue page (R423). -/
inductive QState where
  | disabled | enabled | parked | error
deriving DecidableEq, Repr

/-- A packet taken from the ring and not complete (R426): its index and its sixteen words, whether it has begun, whether the
signal that completes it is being written, and the request to a peer that writes it. -/
structure Packet where
  index : Nat
  words : Rec
  begun : Bool
  signalled : Bool
  awaits : Option Nat
deriving DecidableEq, Repr

/-- A software queue's page (R423), its mapping (R424) and its ladder (R412 to R416). -/
structure Queue where
  ring : DWord
  logn : Nat
  root : DWord
  statva : DWord
  wptr : Word
  rptr : Word
  err : Nat
  state : QState
  invva : DWord
  invn : Word
  invdone : Bool
  /-- The hardware slot and context tag, when mapped. -/
  mapped : Option (Nat × BitVec 16)
  started : List Packet
  /-- The queue status word of R416. -/
  status : Word
  /-- Order of the queue's last doorbell (R424). -/
  bell : Nat
  /-- tbase when the queue was mapped, and when it was last mapped or a packet of it last completed (R424). -/
  mappedAt : Nat
  idleAt : Nat
  /-- tbase when the ladder's current rung began. -/
  rungAt : Nat
  t1 : Nat
  t2 : Nat
  /-- Firmware owns the queue: its runs are privileged (R178, R433). -/
  privileged : Bool
  /-- A reset drains before its step 5 (R431). -/
  resetting : Bool
deriving DecidableEq, Repr

/-- The function page (R423, R434, R436). -/
structure FnPage where
  flog : DWord
  flogw : Word
  flogr : Word
  flogdrop : Word
  mbAddr : DWord
  mbLen : Word
  mbstat : Word
  /-- A function-level reset has begun and its zero-fill has not (R462). -/
  flr : Bool
deriving DecidableEq, Repr

/-! ## The fabric, power, attestation -/

/-- A fabric port (R439 to R441, R451). -/
structure FabPort where
  trained : Bool
  up : Bool
  /-- Consecutive flits that failed authentication. -/
  failures : Nat
  /-- Held down until a key is given. -/
  held : Bool
deriving DecidableEq, Repr

/-- A request this device has sent and not completed (R444, R449, R450). -/
structure Outstanding where
  id : Nat
  req : FabReq
  /-- The issuing team, the party (none for an engine) and the access it belongs to. -/
  tid : Nat
  party : Option Nat
  access : Option (Nat × Nat)
  /-- The lanes of the access that the request carries, each with its offset in the line (R442). -/
  lanes : List (Nat × Nat)
  /-- A lane on a DEV page: it is sent when the request named here is complete (R56, R442). -/
  dev : Bool
  after : Option Nat
  origin : Origin
  /-- The virtual address that the request is for, where a fault would name one. -/
  va : Option Nat
  /-- 2^52·rank + address of the first issue, which a bounce does not change. -/
  key : Nat
  /-- Backoff in microseconds, when the last answer was a retry, and tbase at that answer (R449); it waits to be sent
  again. -/
  backoff : Nat
  retryAt : Nat
  /-- The context tag of the access (R23). -/
  tag : BitVec 16
  /-- The egress port of its last packet (R441); none while no port works. -/
  port : Option Nat
  waiting : Bool
  /-- The rank and the frame that a bounce has named, where the request has yet to be sent (R45). -/
  bounced : Option (Nat × Nat)
  /-- The target has answered that it holds the request, an emission, in its queue's order (R348): no timeout ends it. -/
  held : Bool
  /-- The lane whose record's retirement makes the request, and the team as it stood when the record retired with it
  (R355). -/
  lane : Option Nat
  late : Option Team
deriving DecidableEq, Repr

/-- A remote atomic this device has applied (R445). -/
structure Applied where
  src : Nat
  agent : Nat
  seqno : BitVec 16
  ret : DWord
  at_ : DWord
deriving DecidableEq, Repr

/-- The hash and the signature algorithm of SPDM (R437). -/
inductive HashAlg where
  | sha3_384
deriving DecidableEq, Repr

inductive SigAlg where
  | xmssShake256_20_256
deriving DecidableEq, Repr

/-- What a die's power controller knows (R458, R460): its last reading; clk since when the die has been above its share of the cap
at level 1, since when no condition for its level has held, and since when a sensor has been above 105 °C. -/
structure Sensors where
  last : Reading
  overSince : Option Nat
  calmSince : Option Nat
  hotSince : Option Nat
deriving DecidableEq, Repr

/-- What the device has sent to the outside: answers of SPDM, PLDM, the vendor commands and configuration space. -/
inductive Reply where
  | version (major minor : Nat)
  | capabilities
  | algorithms (hash : HashAlg) (sig : SigAlg)
  | digests (d : Nat)
  | certificate (c : Nat)
  /-- A signature with the index it used (R438). -/
  | signed (index nonce : Nat)
  | spdmError
  /-- The boot ROM's digest, the image's, its security version; the fence map and the fused configuration: the least version, the
  key's digest and the rest. -/
  | measurements (rom image version : Nat) (fences : List FenceUnit) (fused : Nat × Nat × Nat)
  | pldm (w : PldmWhat) (value : Nat)
  | fenceMap (units : List FenceUnit)
  | accepted
  | refused
  | retryStatus (f : Nat)
  | configuration (f : Nat)
  /-- Answer to a peer's request. -/
  | fabric (dst agent : Nat) (seqno : BitVec 16) (r : FabResp)
  /-- A run-barrier message to the other members (R382). -/
  | runBarrier (run b phase : Nat)
  /-- A request record of hcall to firmware (R409). -/
  | hcall (words : Rec)
  /-- A fault record sent to firmware (R396). -/
  | faultToFirmware (fn : Nat) (rec : Rec)
deriving DecidableEq, Repr

/-- A wsld, or the writing part of a WSLOAD packet, that has begun (R60, R428). -/
structure WsCopy where
  id : Nat
  /-- The party and its status register, or none for a packet. -/
  dest : Option (Nat × Nat × Nat)
  queue : Nat
  packet : Nat
  die : Nat
  off : Nat
  len : Nat
  poison : Bool
deriving DecidableEq, Repr

/-- What reads a peer's memory for itself: an engine's command, by its number, or an instruction or a queue by a number
that no command has; the team, and the place of a fault. -/
structure Reader where
  id : Nat
  tid : Nat
  origin : Origin
  /-- Where it reads next depends on what it has read. -/
  serial : Bool
deriving DecidableEq, Repr

/-! ## Turns -/

/-- What happens next: an event, an issue of a named issuer, the issue choice of a track (R389), the run-ahead for a party
(R152), the end of a party's yield (R377), or the waking of a gated core (R419). -/
inductive Act where
  | event (e : Instr)
  | issue (w : Who)
  | track (core t : Nat)
  | ahead (tid p : Nat)
  | wake (tid p : Nat)
  | rouse (core : Nat)
deriving DecidableEq, Repr

/-- One turn: the cycles of clk and the units of tbase that pass before it, and what happens. -/
structure Turn where
  dclk : Nat
  dtb : Nat
  act : Act
deriving DecidableEq, Repr

/-- The state of the device. -/
structure State where
  /-- MODEL's own: what happens next, in the order in which it happens. -/
  agenda : List Turn
  /-- MODEL's own: who issues when the agenda is empty. -/
  cur : Option Who
  /-- MODEL's own: number of the next walk, command, team or run. -/
  nextId : Nat
  /-- MODEL's own: counter to which free values are applied. -/
  free : Nat
  /-- MODEL's own, false between steps: an engine's read in this step met a closed weight-store bank (R62), or a
  translation that must wait for a walker (R35). The step then does not happen, and is tried again later. -/
  stuck : Bool
  /-- MODEL's own, empty between steps: the misses of a step that is stuck, which wait for a walker or for the walk of their
  page (R35): the core, none for the command processors, the context tag and the address. -/
  missed : List (Option Nat × BitVec 16 × Nat)
  /-- MODEL's own, none between steps: the command whose engine reads. -/
  reader : Option Reader
  /-- MODEL's own, empty between steps: the bytes of peers that a stuck step has yet to read: the reader (none for the
  instruction that issues), the rank, the address there and the virtual address. -/
  wanted : List (Option Reader × Nat × Nat × Nat)
  /-- Bytes of peers that a reader has asked for and received and not yet used, by 2^64·reader + 2^52·rank + address. -/
  peerData : Map Byte
  /-- What engine commands have written, for R112: physical address, bytes, and the place of the command in the order of
  R112; newest first. -/
  stamped : List (Nat × Nat × Nat)
  /-- Corrected errors, counted by array in the order of R69's table (R70). -/
  corrected : Store 64
  /-- clk of every die: cycles since die reset (R61). The dies are reset by the device's resets alone, so that their
  counts agree (DEDUCED, log entry 10). -/
  clk : DWord
  /-- The time base (R391). -/
  tbase : DWord
  /-- Physical memory of the device and of host space, by physical address (R20). -/
  mem : Store 8
  /-- Poisoned 64-byte sectors, by physical address / 64 (R71). -/
  poison : List Nat
  /-- Write-combining buffers, by core (R53). -/
  wcb : Map (List WcbEntry)
  /-- Stores that the directory holds (R52), oldest first. -/
  heldStores : List HeldStore
  /-- Reduction queues (R319). -/
  reductions : List RedEntry
  /-- Translation caches (R31), by core, by cluster and by die. -/
  tlbCore : Map (List TlbEntry)
  tlbCluster : Map (List TlbEntry)
  tlbDie : Map (List TlbEntry)
  walks : List Walk
  contexts : Map Context
  invals : List Inval
  migrations : List Migration
  /-- Convoy slots by 16·core + slot, convoy-table versions by slot, convoy lines by physical address / 256 (R324, R325). -/
  cvSlots : Map CvSlot
  cvVersions : Store 32
  cvTable : Map CvState
  /-- The rank of the device that opened the convoy of each slot of the table. -/
  cvOpeners : Map Nat
  cvLines : Map CvLine
  /-- One more than the last commit's stamp in whole nanoseconds, 0 before any (R326). -/
  cvLast : Nat
  /-- Versions that a die's retention store holds: firmware's reservation (R325). -/
  retCap : Nat
  teams : Map Team
  runs : Map Run
  joins : Map JoinSlot
  deferred : List Deferred
  stalled : List Stalled
  holds : Map Hold
  /-- Barriers of the cluster groups, by 16·cluster + barrier (R379). -/
  clBarriers : Map Barrier
  ssu : Map (List SsuCmd)
  ne : Map (List NeCmd)
  wsCopies : List WsCopy
  /-- The open refresh window of each die (R61): by die, 1 + the window's number. -/
  window : Store 8
  /-- Sets of nodes that have met the conditions of a deadlock since a value of clk (R350): run, die, nodes, clk. -/
  deadWatch : List (Nat × Nat × List Nat × Nat)
  /-- Fault records held by the dies' reserves, and overflow counts (R403). -/
  reserve : Store 32
  reserveOver : Store 32
  /-- Units fenced (R406). -/
  fenced : List FenceUnit
  /-- Gating of cores (R419): 0 running, 1 clock-gated, 2 power-gated. -/
  gated : Store 8
  /-- clk when an instruction last issued on the core (R419). -/
  coreLast : Store 64
  queues : Map Queue
  fnPages : Map FnPage
  /-- The function of the queue that was mapped last (R424). -/
  lastFn : Nat
  /-- clk when parked WAITs were last polled (R430). -/
  polledAt : Nat
  /-- Functions that own a cluster, a 1 GiB range of HBM4E, a weight-store bank (R422). -/
  clusterFn : Store 8
  hbmFn : Store 8
  bankFn : Store 8
  /-- Bring-up phase (R463). -/
  phase : Nat
  /-- Throttle level of each die (R458). -/
  throttle : Store 8
  sensors : Map Sensors
  trip : Bool
  cap : Word
  /-- Time-base discipline (R453). -/
  locked : Bool
  holdover : Bool
  /-- tbase when lock was last lost, when a time message or PPS edge last came, when a PPS edge last came, and since when tbase
  has been within 50 ns of the source (R452, R453). -/
  lostAt : Nat
  lastSync : Nat
  lastPps : Option Nat
  tolSince : Option Nat
  /-- How far tbase is ahead of its source, by the messages and edges that have come and the slewing since, in units of
  1/256 ns (R392, R452). -/
  tOffset : Int
  /-- Fabric timeout in nanoseconds (R450). -/
  fto : Nat
  /-- HANGT in cycles (R420). -/
  hangt : Nat
  rank : BitVec 12
  /-- The fabric manager has given a rank (R463). -/
  ranked : Bool
  fabPorts : Map FabPort
  /-- Current, new and old job keys (R451), by a name of the key. -/
  key : Option Nat
  newKey : Option Nat
  /-- The old key with tbase at the switch. -/
  oldKey : Option (Nat × Nat)
  outstanding : List Outstanding
  /-- Requests sent, by 2^60·rank + the key of their order; requests of peers performed, by the same with the source's rank;
  and peers' requests that have arrived and are not performed (R444). -/
  issuedTo : Map Nat
  servedOf : Map Nat
  reorder : List FabReq
  /-- tbase when a request was last issued under a context tag (R431). -/
  lastReq : Map Nat
  applied : List Applied
  /-- Fuses (R435, R438): the least security version, the digest of the public key, the next signature index. -/
  minVersion : Word
  keyFuse : Nat
  sigIndex : Nat
  /-- The stored firmware image with its signature, and its security version (R435). -/
  fwImage : FwImage
  fwVersion : Word
  /-- What the device has sent to the outside, oldest first. -/
  sent : List Reply
deriving DecidableEq, Repr

/-- Reasons a step can get stuck. -/
inductive Fault where
  /-- An instruction is executed while `cur` names no live party or sequencer. Raised by the shared operations that
  find the issuer. Safe: the device never issues an instruction for nobody, and a claim about a next state says
  nothing here. -/
  | noIssuer
deriving DecidableEq, Repr

/-- Reasons the model gives a step no meaning. -/
inductive Refusal where
  /-- The arm of `exec` for this mnemonic has no meaning yet. Raised by `exec` alone. Safe: nothing is claimed. -/
  | notModelled (mnemonic : String)
  /-- The agenda holds, as an event, a constructor that is an instruction: instructions are issued, not handed in.
  Raised by `step`. Safe: no such agenda stands for a behaviour of the device. -/
  | notAnEvent
deriving DecidableEq, Repr

/-- A function page at reset (R434, R436). -/
def FnPage.reset : FnPage :=
  { flog := 0, flogw := 0, flogr := 0, flogdrop := 0, mbAddr := 0, mbLen := 0, mbstat := 0, flr := false }

/-- A queue page at reset (R423), with the default limits of the ladder in nanoseconds (R412). -/
def Queue.reset : Queue :=
  { ring := 0, logn := 0, root := 0, statva := 0, wptr := 0, rptr := 0, err := 0, state := .disabled, invva := 0,
    invn := 0, invdone := true, mapped := none, started := [], status := 0, bell := 0, mappedAt := 0, idleAt := 0, rungAt := 0, t1 := 200000, t2 := 2000000,
    privileged := false, resetting := false }

/-- The device right after a cold reset (R462, R463): bring-up phase 0, nothing mapped, launched or keyed, memory and
weight store zero-filled. -/
def State.reset : State :=
  { agenda := [], cur := none, nextId := 1, free := 0, stuck := false, missed := [], reader := none, wanted := [], peerData := [], stamped := [], corrected := [], clk := 0, tbase := 0, mem := [], poison := [],
    wcb := [], heldStores := [], reductions := [], tlbCore := [], tlbCluster := [], tlbDie := [], walks := [], contexts := [],
    invals := [], migrations := [], cvSlots := [], cvVersions := [], cvTable := [], cvOpeners := [], cvLines := [],
    cvLast := 0, retCap := 65536, teams := [],
    runs := [], joins := [], deferred := [], stalled := [], holds := [], clBarriers := [], ssu := [], ne := [],
    wsCopies := [], window := [], deadWatch := [], reserve := [], reserveOver := [], fenced := [], gated := [], coreLast := [],
    queues := [], fnPages := [], lastFn := 0, polledAt := 0, clusterFn := [], hbmFn := [], bankFn := [], phase := 0, throttle := [], sensors := [],
    trip := false, cap := 3600, locked := false, holdover := false, lostAt := 0, lastSync := 0,
    lastPps := none, tolSince := none, tOffset := 0, fto := 1000000,
    hangt := 4500000000, rank := 0, ranked := false, fabPorts := [], key := none, newKey := none, oldKey := none, outstanding := [],
    issuedTo := [], servedOf := [], reorder := [], lastReq := [], applied := [], minVersion := 0, keyFuse := 0, sigIndex := 0,
    fwImage := { content := 0, key := 0, signed := 0 }, fwVersion := 0, sent := [] }

end Sys2Proof.Machine
end

