-- ==== Sys2Proof/Machine/Store.lean ====
section
/-!
DEFINITION. Sparse data: finding, setting and erasing by key, with the keys kept in rising order, and words that read
as zero where nothing is listed.
-/

namespace Sys2Proof

/-- The value at a key. -/
def Map.find {α : Type} (m : Map α) (k : Nat) : Option α :=
  match m with
  | [] => none
  | (j, x) :: t => if j = k then some x else Map.find t k

/-- Sets the value at a key. -/
def Map.set {α : Type} (m : Map α) (k : Nat) (x : α) : Map α :=
  match m with
  | [] => [(k, x)]
  | (j, y) :: t => if j < k then (j, y) :: Map.set t k x else if j = k then (k, x) :: t else (k, x) :: (j, y) :: t

/-- Removes a key. -/
def Map.drop {α : Type} (m : Map α) (k : Nat) : Map α :=
  match m with
  | [] => []
  | (j, y) :: t => if j = k then Map.drop t k else (j, y) :: Map.drop t k

/-- Changes the value at a key, if there is one. -/
def Map.update {α : Type} (m : Map α) (k : Nat) (f : α → α) : Map α :=
  match m with
  | [] => []
  | (j, y) :: t => if j = k then (j, f y) :: t else (j, y) :: Map.update t k f

/-- Changes every value. -/
def Map.mapVals {α : Type} (m : Map α) (f : Nat → α → α) : Map α := m.map fun (k, x) => (k, f k x)

/-- The keys, in rising order. -/
def Map.keys {α : Type} (m : Map α) : List Nat := m.map Prod.fst

/-- Every key lies above `k` and above the keys before it. -/
def Map.rising {α : Type} (k : Nat) (m : Map α) : Bool :=
  match m with
  | [] => true
  | (j, _) :: t => decide (k ≤ j) && Map.rising (j + 1) t

/-- The canonical form of a map: strictly rising keys. -/
def Map.wf {α : Type} (m : Map α) : Bool := Map.rising 0 m

/-- The word at a key: zero where none is listed. -/
def Store.read {w : Nat} (m : Store w) (k : Nat) : BitVec w :=
  match m with
  | [] => 0
  | (j, x) :: t => if j = k then x else Store.read t k

/-- Sets the word at a key; zero is not listed. -/
def Store.write {w : Nat} (m : Store w) (k : Nat) (x : BitVec w) : Store w :=
  if x = 0 then Map.drop m k else Map.set m k x

/-- The canonical form of a store: strictly rising keys, no listed zero. -/
def Store.wf {w : Nat} (m : Store w) : Bool := Map.wf m && m.all fun (_, x) => x != 0

end Sys2Proof
end

