-- ==== Sys2Proof/Machine/Ops.lean ====
section
/-!
DEFINITION. The named operations over the state: parties and teams, registers, program counters, taking a fault,
physical memory with the write-combining buffers, translation, and what a release waits for.
-/

namespace Sys2Proof.Machine

open Sys2Proof

/-! ## Teams, parties, slots -/

/-- Changes a team, if it exists. -/
def State.modTeam (s : State) (tid : Nat) (f : Team → Team) : State :=
  { s with teams := Map.update s.teams tid f }

/-- Changes a party of a team. -/
def Team.modParty (t : Team) (p : Nat) (f : Party → Party) : Team :=
  { t with parties := Map.update t.parties p f }

/-- Changes a party. -/
def State.modParty (s : State) (tid p : Nat) (f : Party → Party) : State :=
  s.modTeam tid fun t => t.modParty p f

/-- A party, if its team and it exist. -/
def State.party? (s : State) (tid p : Nat) : Option Party :=
  match Map.find s.teams tid with
  | some t => Map.find t.parties p
  | none => none

/-- A PC slot of a party. -/
def Party.slot (q : Party) (b : Bool) : Slot := if b then q.slot1 else q.slot0

def Party.setSlot (q : Party) (b : Bool) (x : Slot) : Party := if b then { q with slot1 := x } else { q with slot0 := x }

def Party.modSlot (q : Party) (b : Bool) (f : Slot → Slot) : Party := q.setSlot b (f (q.slot b))

/-- Changes a team's sequencer, if it has one. -/
def Team.modSeq (t : Team) (f : Sequencer → Sequencer) : Team := { t with seq := t.seq.map f }

/-- The node of a run's image that a team belongs to. -/
def State.node? (s : State) (t : Team) : Option Node :=
  match Map.find s.runs t.run with
  | some r => r.image.nodes[t.node]?
  | none => none

/-- Registers that a team's node declares for each party (R134). -/
def State.vregCount (s : State) (t : Team) : Nat :=
  match s.node? t with
  | some n => n.vregs
  | none => 0

/-- The context tag of a team's accesses (R23). -/
def State.tagOf (s : State) (t : Team) : BitVec 16 :=
  match Map.find s.runs t.run with
  | some r => r.tag
  | none => 0

/-- privileged(party): the team's run is firmware-owned (R178, R433). -/
def State.privileged (s : State) (t : Team) : Bool :=
  match Map.find s.runs t.run with
  | some r => r.privileged
  | none => false

/-- The cluster of a core. -/
def clusterOf (core : Nat) : Nat := core / 4

/-- The die of a core. -/
def dieOf (core : Nat) : Nat := core / 48

/-- id.pcore (R137). -/
def pcoreWord (core : Nat) : Word := BitVec.ofNat 32 (64 * dieOf core + 4 * (clusterOf core % 12) + core % 4)

/-- Uses up one free value. -/
def State.useFree (s : State) : State := { s with free := s.free + 1 }

/-- Number and next number of the model's own. -/
def State.fresh (s : State) : Nat × State := (s.nextId, { s with nextId := s.nextId + 1 })

/-! ## Scalar and vector registers (R133 to R135) -/

/-- Lane L's bit in a triple of words. -/
def maskWord (m : Mask) (k : Nat) : Word := m.extractLsb' (32 * k) 32

/-- The mask with word k replaced. -/
def setMaskWord (m : Mask) (k : Nat) (w : Word) : Mask :=
  match k with
  | 0 => maskWord m 2 ++ maskWord m 1 ++ w
  | 1 => maskWord m 2 ++ w ++ maskWord m 0
  | _ => w ++ maskWord m 1 ++ maskWord m 0

/-- Lane L is in the mask. -/
def inMask (m : Mask) (l : Nat) : Bool := m.getLsbD l

/-- The 96 lane numbers. -/
def lanes : List Nat := List.range 96

/-- S[n] as the slot's instructions read it: s0 is zero, s61 to s63 are the slot's mask (R135). -/
def Party.getS (q : Party) (b : Bool) (n : Nat) : Word :=
  if n = 0 then 0 else if 61 ≤ n then maskWord (q.slot b).mask (n - 61) else Store.read q.sregs n

/-- S[n] := v: s0 discards it, s61 to s63 set the slot's mask ANDed with the live set (R135, R145). -/
def Party.setS (q : Party) (b : Bool) (n : Nat) (v : Word) : Party :=
  if n = 0 then q
  else if 61 ≤ n then q.modSlot b fun x => { x with mask := setMaskWord x.mask (n - 61) v &&& q.live }
  else { q with sregs := Store.write q.sregs n v }

/-- pair(n) of R178. -/
def Party.pairS (q : Party) (b : Bool) (n : Nat) : DWord := q.getS b (n + 1) ++ q.getS b n

/-- Writes a pair, [31:0] to the even register. -/
def Party.setPairS (q : Party) (b : Bool) (n : Nat) (v : DWord) : Party :=
  (q.setS b n (v.extractLsb' 0 32)).setS b (n + 1) (v.extractLsb' 32 32)

/-- The mask that the triple starting at n holds. -/
def Party.triple (q : Party) (b : Bool) (n : Nat) : Mask := q.getS b (n + 2) ++ q.getS b (n + 1) ++ q.getS b n

/-- Writes a mask to the triple starting at n. -/
def Party.setTriple (q : Party) (b : Bool) (n : Nat) (m : Mask) : Party :=
  ((q.setS b n (maskWord m 0)).setS b (n + 1) (maskWord m 1)).setS b (n + 2) (maskWord m 2)

/-- V[n][L]. -/
def Party.getV (q : Party) (n l : Nat) : Word := Store.read q.vregs (96 * n + l)

/-- V[VB][L] of a register that VB names: the group that VB has popped where VA popped the same port (R136). -/
def Party.getB (q : Party) (n l : Nat) : Word :=
  match Map.find q.popB n with
  | some g => g.getD l 0
  | none => q.getV n l

/-- The 64-bit value of the pair that VB names. -/
def Party.pairB (q : Party) (n l : Nat) : DWord := q.getB (n + 1) l ++ q.getB n l

/-- The 64-bit value of the pair at n in lane L. -/
def Party.pairV (q : Party) (n l : Nat) : DWord := q.getV (n + 1) l ++ q.getV n l

/-- Writes f L into V[n][L] for the lanes of a list. -/
def writeLanes (m : Store 32) (n : Nat) (f : Nat → Word) (ls : List Nat) : Store 32 :=
  match ls with
  | [] => m
  | l :: t => writeLanes (Store.write m (96 * n + l) (f l)) n f t

/-- The lanes of a mask, in rising order. -/
def maskLanes (m : Mask) : List Nat := lanes.filter (inMask m)

/-- The bound store port that register n names, if any (R136). -/
def Party.storePort (q : Party) (n : Nat) : Option Port :=
  if n = 122 ∨ n = 123 then
    match Map.find q.ports (n - 120) with
    | some p => if p.kind = .store ∧ p.ended = false then some p else none
    | none => none
  else none

/-- The bound load port that register n names, if any (R136). -/
def Party.loadPort (q : Party) (n : Nat) : Option Port :=
  if n = 120 ∨ n = 121 then
    match Map.find q.ports (n - 120) with
    | some p => if p.kind = .store then none else some p
    | none => none
  else none

/-! ## Tile handles (R344) -/

/-- A field of a tile handle. -/
def hField (h : Handle) (lo len : Nat) : Nat := (h.extractLsb' lo len).toNat

/-- LOC: 0 memory, 1 local store. -/
def hLoc (h : Handle) : Nat := hField h 57 3
/-- The canonical 64-bit address that bits [56:0] of a virtual address stand for (R22). -/
def sext57 (a : Nat) : Nat := ((BitVec.ofNat 57 a).signExtend 64).toNat
/-- BASE: a virtual address, or an offset in the local store. -/
def hBase (h : Handle) : Nat := if hLoc h = 1 then hField h 0 57 else sext57 (hField h 0 57)
/-- The format code of R72. -/
def hFmt (h : Handle) : Nat := hField h 60 4
def hRows (h : Handle) : Nat := hField h 64 16 + 1
def hCols (h : Handle) : Nat := hField h 80 16 + 1
/-- PITCH in bytes; 0 for packed rows. -/
def hPitchField (h : Handle) : Nat := 4 * hField h 96 16
/-- SCL, in units of 4,096 bytes. -/
def hScl (h : Handle) : Int := (h.extractLsb' 112 16).toInt
/-- The format, unless the code is 0xE. -/
def hCvt (h : Handle) : Option Cvt := Cvt.ofCode (BitVec.ofNat 5 (hFmt h))

/-- Bits that an element takes in memory (R72, R74). -/
def hBits (h : Handle) : Nat :=
  match hCvt h with
  | some c => c.width
  | none => 8

/-- Row length in bytes. -/
def hRowLen (h : Handle) : Nat := (hCols h * hBits h + 7) / 8

/-- Row pitch in bytes. -/
def hPitch (h : Handle) : Nat := if hPitchField h = 0 then hRowLen h else hPitchField h

/-- A push of one group to a store stream (R208): the elements whose mask bit is set take their positions, and a push
that reaches the end of the tile closes the stream to further pushes. `total` is the tile's number of elements. -/
def Port.push (p : Port) (total : Nat) (m : Mask) (f : Nat → Word) : Port :=
  let news := (maskLanes m).filterMap fun l => if p.pos + l < total then some (p.pos + l, f l) else none
  { p with pos := p.pos + 96, unwritten := p.unwritten ++ news, ended := p.ended || decide (total ≤ p.pos + 96) }

/-- Elements of the tile that a port is bound to. -/
def Port.total (p : Port) : Nat := hRows p.handle * hCols p.handle

/-- A lane value converted into the format of a store stream (R208): FP32 into a float format without saturation,
INT32 into an integer format with it; SR acts as RNE. -/
def Port.convert (p : Port) (x : Word) : Nat × Word :=
  let mode : Word := BitVec.ofNat 32 (p.rnd + 16 * p.sub)
  match hCvt p.handle with
  | some c =>
    if c.float.isSome then
      let (y, f) := Sys2Proof.convert .fp32 c (FEnv.ofMode mode) false x.toNat
      (y, f ||| when (rndReserved mode) wMODERES)
    else Sys2Proof.convert .i32 c (FEnv.ofMode mode) true x.toNat
  | none => (x.toNat, 0)

/-- The warn bits of a push (R208): those of the elements that it takes. -/
def Port.pushFlags (p : Port) (m : Mask) (f : Nat → Word) : Word :=
  ((maskLanes m).filter fun l => decide (p.pos + l < p.total)).foldl (fun w l => w ||| (p.convert (f l)).2) 0

/-- V[n][L] := f L in the lanes of a mask, or a push when n names a bound store port (R136, R180). -/
def Party.setV (q : Party) (n : Nat) (m : Mask) (f : Nat → Word) : Party :=
  match q.storePort n with
  | some p =>
    { q with ports := Map.set q.ports (n - 120) (p.push p.total m f), warn := q.warn ||| p.pushFlags m f }
  | none =>
    { q with
      vregs := writeLanes q.vregs n f (maskLanes m)
      vPoison := q.vPoison.filter fun k => !(k / 96 == n && inMask m (k % 96)) }

/-- Writes 64-bit values to the pair at n. -/
def Party.setPairV (q : Party) (n : Nat) (m : Mask) (f : Nat → DWord) : Party :=
  (q.setV n m fun l => (f l).extractLsb' 0 32).setV (n + 1) m fun l => (f l).extractLsb' 32 32

/-- raise(bits) of R178, ORed into warn (R139). -/
def Party.raise (q : Party) (w : Word) : Party := { q with warn := q.warn ||| w }

/-! ## The program counter (R154, R166) -/

/-- The address after the last word of the current clause. -/
def Slot.nextClause (x : Slot) (size : Nat) : Word :=
  match x.clause with
  | some c => c.stop
  | none => x.pc + BitVec.ofNat 32 (4 * size)

/-- The address of the current clause. -/
def Slot.clauseAddr (x : Slot) : Word :=
  match x.clause with
  | some c => c.addr
  | none => x.pc

/-- Past an instruction of `size` words: to the next word, or to the boundary when the clause is done. -/
def Slot.advance (x : Slot) (size : Nat) : Slot :=
  let pc := x.pc + BitVec.ofNat 32 (4 * size)
  { x with
    pc := pc
    clause := match x.clause with
      | some c => if pc = c.stop then none else some c
      | none => none
    wait := .none }

/-- To a clause boundary at `pc`. -/
def Slot.jump (x : Slot) (pc : Word) : Slot := { x with pc := pc, clause := none, wait := .none }

/-- A relative target: clause address + 4 × the sign-extended offset (R166). -/
def Slot.target {w : Nat} (x : Slot) (o : BitVec w) : Word := x.clauseAddr + (o.signExtend 32 <<< 2)

/-- The party past its instruction. -/
def Party.advance (q : Party) (b : Bool) (size : Nat) : Party := q.modSlot b fun x => x.advance size

/-! ## Faults (R396 to R402) -/

/-- What a fault states beside its place: cause, subcause, lane, address, INFO (R398, R399). -/
structure Cause where
  cause : Nat
  sub : Nat := 0
  lane : Option Nat := none
  addr : Option Nat := none
  info : Word := 0
deriving DecidableEq, Repr

def illegalInstruction : Cause := { cause := 0x01 }
def illegalHeader : Cause := { cause := 0x02 }
def illegalClass : Cause := { cause := 0x03 }
def registerRange : Cause := { cause := 0x04 }
def rcStack : Cause := { cause := 0x04, sub := 1 }
def protection (sub : Nat) (info : Word := 0) : Cause := { cause := 0x07, sub := sub, info := info }

/-- The place of what no instruction does. -/
def noOrigin : Origin := { pc := 0, clause := 0, word := 0, party := none, slot := false }

/-- WAITON and WAITX of a wait (R400). -/
def Wait.code : Wait → Nat × Nat
  | .none => (0, 0)
  | .clause u => (1, u.toNat)
  | .scoreboard k n => (2, 4096 * k + n)
  | .barrier sc b ph => (3, 256 * (ph % 256) + 16 * sc + b)
  | .emission n => (4, n)
  | .port q => (5, q)
  | .channelFull c => (6, c)
  | .freeSlot m => (7, m)
  | .cvopen => (8, 0)
  | .futnew => (9, 0)
  | .lko => (10, 0)
  | .hcall x => (11, x)
  | .reservation c => (12, c)
  | .fabric r | .joinRead r => (13, r)
  | .wptr c => (14, c)
  | .engineQueue n => (15, n)
  | .qclose q => (16, q)
  | .memory => (0, 0)

/-- A slot whose owner faults, or whose deferred resolution is stopped: PENDING becomes FAULTED and its continuations
are discarded (R357). -/
def JoinSlot.fail (j : JoinSlot) : JoinSlot :=
  match j.state with
  | .pending => { j with state := .faulted, conts := [] }
  | _ => j

/-- Taking a fault: the team's first fault is recorded with its place, its parties stop issuing and its PENDING join slots
fail; a later one is counted (R357, R396, R401, R402). A team that has ended takes none. `wait` is what the faulting slot, or else the other slot, was
waiting on (R400). The rest of the containment is the stop, FAULT_STOP. -/
def State.takeFault (s : State) (tid : Nat) (o : Origin) (c : Cause) (deferred engine : Bool) (w : Wait) : State :=
  if (Map.find s.teams tid).isNone then s
  else ({ s with joins := Map.mapVals s.joins fun _ j => if j.ownerTid = tid then j.fail else j } : State).modTeam tid fun t =>
    match t.fault with
    | some r => { t with fault := some { r with supp := if r.supp < 255 then r.supp + 1 else 255 } }
    | none =>
      { t with
        state := .stopping
        fault := some
          { cause := c.cause, sub := c.sub, deferred := deferred, engine := engine, origin := o, lane := c.lane,
            addr := c.addr, info := c.info, waitOn := w.code.1, waitX := w.code.2,
            stamp := s.tbase >>> 8, supp := 0 } }

/-- What the slot or the sequencer of an instruction waits on now. -/
def State.waitOf (s : State) (tid : Nat) (o : Origin) : Wait :=
  match Map.find s.teams tid, o.party with
  | some t, some p => match Map.find t.parties p with | some q => (q.slot o.slot).wait | none => .none
  | some t, none => match t.seq with | some q => q.wait | none => .none
  | none, _ => .none

/-- Taking a fault that an instruction meets after its issue, or that an engine's command meets: WAITON is what the issuing
slot waits on by now (R400). -/
def State.laterFault (s : State) (tid : Nat) (o : Origin) (c : Cause) (deferred engine : Bool) : State :=
  s.takeFault tid o c deferred engine (s.waitOf tid o)

/-- The team is resident and no fault has stopped it. -/
def Team.running (t : Team) : Bool := t.state == .resident && t.fault.isNone

/-- The same, or at the save rung: what the team's engines have begun goes on (R301). -/
def Team.active (t : Team) : Bool := (t.state == .resident || t.state == .saving) && t.fault.isNone

/-! ## Physical memory -/

/-- The regions of the physical map (R20). -/
inductive Region where
  | hbm | weights | device | host | hole
deriving DecidableEq, Repr

def regionOf (pa : Nat) : Region :=
  if pa < 0x8000000000 then .hbm
  else if 0x10000000000 ≤ pa ∧ pa < 0x10200000000 then .weights
  else if 0x4000000000000 ≤ pa ∧ pa < 0x4000100000000 then .device
  else if 0x8000000000000 ≤ pa ∧ pa < 0x10000000000000 then .host
  else .hole

/-- The die that is a line's home (R21, R49). -/
def homeDie (pa : Nat) : Nat :=
  match regionOf pa with
  | .hbm => pa / 2 ^ 37 % 4
  | .weights => pa / 2 ^ 31 % 4
  | _ => 0

/-- A byte of memory. -/
def State.byte (s : State) (pa : Nat) : Byte := Store.read s.mem pa

/-- `n` bytes of memory as a little-endian number (R9). -/
def bytesFrom (m : Store 8) (pa n : Nat) : Nat :=
  match n with
  | 0 => 0
  | n + 1 => (Store.read m pa).toNat + 256 * bytesFrom m (pa + 1) n

/-- The bytes of a number, little-endian. -/
def toBytes (n x : Nat) : List Byte :=
  match n with
  | 0 => []
  | n + 1 => BitVec.ofNat 8 x :: toBytes n (x / 256)

/-- The number that bytes spell, little-endian. -/
def ofBytes (bs : List Byte) : Nat :=
  match bs with
  | [] => 0
  | b :: t => b.toNat + 256 * ofBytes t

/-- Writes a list of (address, byte) pairs. -/
def writeBytes (m : Store 8) (bs : List (Nat × Byte)) : Store 8 :=
  match bs with
  | [] => m
  | (a, b) :: t => writeBytes (Store.write m a b) t

/-- Consecutive bytes with their addresses. -/
def withAddr (a : Nat) (bs : List Byte) : List (Nat × Byte) :=
  match bs with
  | [] => []
  | b :: t => (a, b) :: withAddr (a + 1) t

/-- Sectors of a run of bytes. -/
def sectorsOf (pa n : Nat) : List Nat := if n = 0 then [] else List.range' (pa / 64) ((pa + n - 1) / 64 - pa / 64 + 1)

/-- Some sector of a run of bytes is poisoned (R71). -/
def State.poisoned (s : State) (pa n : Nat) : Bool := (sectorsOf pa n).any fun k => s.poison.contains k

/-- The migration-table entry that a physical address falls under (R44). -/
def State.migration? (s : State) (pa : Nat) : Option Migration :=
  s.migrations.find? fun m => decide (m.oldFrame ≤ pa ∧ pa < m.oldFrame + m.size)

/-- Copies a line of a migrating page to its new frame on this device, once (R46): its bytes, the poison of its sectors,
its convoy versions, and what engine commands have written there (R112). -/
def State.copyLine (s : State) (m : Migration) (line : Nat) : State :=
  if m.copied.contains line || m.rank.isSome then s
  else
    let src := m.oldFrame / 256 + line
    let dst := m.newFrame / 256 + line
    let bs := (List.range 256).map fun k => (256 * dst + k, s.byte (256 * src + k))
    let bad := (List.range 4).filter fun k => s.poison.contains (4 * src + k)
    { s with
      mem := writeBytes s.mem bs
      poison := bad.map (4 * dst + ·) ++ s.poison.filter (· / 4 != dst)
      cvLines := match Map.find s.cvLines src with
        | some l => Map.set (Map.drop s.cvLines src) dst l
        | none => Map.drop s.cvLines dst
      cvSlots := Map.mapVals s.cvSlots fun _ c => { c with lines := c.lines.map fun k => if k = src then dst else k }
      stamped := s.stamped.map fun x => if x.1 / 256 = src then (256 * dst + x.1 % 256, x.2) else x
      migrations := s.migrations.map fun x =>
        if x.die = m.die ∧ x.oldFrame = m.oldFrame then { x with copied := line :: x.copied } else x }

/-- Where an access to a frame of this device lands: at the new location while the page migrates (R45), the line's
bytes copied first. Any other access meets the frame itself. -/
def State.settle (s : State) (pa : Nat) : State × Option Nat × Nat :=
  match s.migration? pa with
  | none => (s, none, pa)
  | some m =>
    let off := pa - m.oldFrame
    (s.copyLine m (off / 256), m.rank, m.newFrame + off)

/-- Where an address of this device lies now (R45). -/
def State.whereNow (s : State) (pa : Nat) : Nat :=
  match s.migration? pa with
  | none => pa
  | some m => m.newFrame + (pa - m.oldFrame)

/-- Bytes of an atomic's type. -/
def atyBytes (ty : ATy) : Nat := match ty with | .i64 | .n64 | .f64 => 8 | _ => 4

def atyFmt (ty : ATy) : FloatFmt := if atyBytes ty = 8 then fmtFp64 else fmtFp32

/-- The lesser or greater of two operands of an atomic's type (R316, R247). -/
def atomMinMax (ty : ATy) (larger : Bool) (a b : Nat) : Nat :=
  match ty with
  | .f32 | .f64 => (minMax (atyFmt ty) larger (a, (atyFmt ty).unpack a) (b, (atyFmt ty).unpack b)).1
  | _ =>
    let v (x : Nat) : Int := match ty with | .i32 | .i64 => sextNat (8 * atyBytes ty) x | _ => x
    if larger then (if v a < v b then b else a) else (if v b < v a then b else a)

/-- One operand merged into a combined operand (R319): the exact sum of finite addends over 2^−1074 and the special
addends seen, for fadd; the bits of the combined value otherwise. -/
def redMerge (op : AOp) (ty : ATy) (acc : Option (Int × Nat)) (x : Nat) : Int × Nat :=
  match op with
  | .fadd =>
    let (v, sp) := acc.getD (0, 0)
    match (atyFmt ty).unpack x with
    | .nan .. => (v, Nat.lor sp 9)
    | .inf false => (v, Nat.lor sp 10)
    | .inf true => (v, Nat.lor sp 12)
    | .fin n m e => (v + scaled (-1074) (.fin n m e), if n && m == 0 then sp else Nat.lor sp 8)
  | _ =>
    match acc with
    | none => ((x : Int), 0)
    | some (v, _) =>
      let a := v.toNat
      (((match op with
        | .min => atomMinMax ty false a x
        | .max => atomMinMax ty true a x
        | .and => Nat.land a x
        | .or => Nat.lor a x
        | .xor => Nat.xor a x
        | _ => (a + x) % 2 ^ (8 * atyBytes ty) : Nat) : Int), 0)

/-- op(element, combined operand), rounded once (R317, R319). -/
def redResult (op : AOp) (ty : ATy) (old : Nat) (c : Int × Nat) : Nat :=
  match op with
  | .fadd =>
    let f := atyFmt ty
    let parts : List Num :=
      [f.unpack old] ++ (if c.2 % 2 = 1 then [.nan false false] else []) ++
        (if c.2 / 2 % 2 = 1 then [.inf false] else []) ++ (if c.2 / 4 % 2 = 1 then [.inf true] else []) ++
        [ofScaled (c.2 / 8 % 2 == 0) c.1 (-1074)]
    (roundFloat f .rne false false (sumNum false parts).1).1
  | .min => atomMinMax ty false old c.1.toNat
  | .max => atomMinMax ty true old c.1.toNat
  | .and => Nat.land old c.1.toNat
  | .or => Nat.lor old c.1.toNat
  | .xor => Nat.xor old c.1.toNat
  | _ => (old + c.1.toNat) % 2 ^ (8 * atyBytes ty)

/-- Applies a reduction entry: op(element, combined operand) for each element (R319). -/
def RedEntry.apply (e : RedEntry) (s : State) : State :=
  let w := atyBytes e.ty
  let one (m : Store 8) (kx : Nat × Int) : Store 8 :=
    let a := 64 * e.sector + kx.1
    writeBytes m (withAddr a (toBytes w (redResult e.op e.ty (bytesFrom m a w) (kx.2, (Map.find e.special kx.1).getD 0))))
  { s with mem := e.elems.foldl one s.mem }

/-- The acknowledgements of the peers' reductions that an entry holds. -/
def RedEntry.answers (e : RedEntry) : List Reply := e.acks.map fun k => Reply.fabric k.1 k.2.1 k.2.2 .ack

/-- Applies the reduction entries that a test selects, oldest first, and removes them. -/
def State.applyReductions (s : State) (sel : RedEntry → Bool) : State :=
  let s' := (s.reductions.filter sel).foldl (fun s e => e.apply s) s
  { s' with
    reductions := s.reductions.filter fun e => !sel e
    sent := s.sent ++ (s.reductions.filter sel).flatMap RedEntry.answers }

/-- An access reaches the sectors of a run of bytes: reduction entries that cover them are applied (R319). -/
def State.reach (s : State) (pa n : Nat) : State :=
  if s.reductions.isEmpty then s
  else s.applyReductions fun e => (sectorsOf pa n).contains e.sector

/-- Writes bytes of one 64-byte sector of this device. Writing all of it clears its poison (R71); device registers
discard what is written (R30). -/
def State.poke (s : State) (pa : Nat) (bs : List Byte) : State :=
  let s := s.reach pa bs.length
  if regionOf pa = .device then s
  else
    let s := { s with mem := writeBytes s.mem (withAddr pa bs) }
    if pa % 64 = 0 ∧ bs.length = 64 then { s with poison := s.poison.filter (· != pa / 64) } else s

/-- Writes the bytes of one line that a mask selects, wherever the line lies now (R45). -/
def State.pokeLine (s : State) (line : Nat) (bytes : Map Byte) : State :=
  let (s, rank, base) := s.settle (64 * line)
  let s := s.reach base 64
  match rank with
  | some _ => s
  | none =>
    if regionOf base = .device then s
    else
      let s := { s with mem := writeBytes s.mem (bytes.map fun (k, b) => (base + k, b)) }
      if bytes.length = 64 then { s with poison := s.poison.filter (· != base / 64) } else s

/-- The refresh window that is open now (R61): the dies count clk together. -/
def State.openWindow (s : State) : Option Nat :=
  let m := s.clk.toNat % 72000
  if m % 4500 < 1152 then some (m / 4500) else none

/-- The weight-store bank of a physical address is closed by an open window (R61, R62). -/
def State.bankClosed (s : State) (pa : Nat) : Bool :=
  regionOf pa == .weights && s.openWindow == some (pa / 256 % 16)

/-! ## Write-combining buffers (R53) -/

/-- A core's buffer, oldest entry first. -/
def State.wcbOf (s : State) (core : Nat) : List WcbEntry := (Map.find s.wcb core).getD []

def State.setWcb (s : State) (core : Nat) (es : List WcbEntry) : State :=
  { s with wcb := if es.isEmpty then Map.drop s.wcb core else Map.set s.wcb core es }

/-- The key of a 256-byte destination line of an engine command: its physical line. -/
def lineKey (pa : Nat) : Nat := pa / 256

/-- The key of a destination line in a team's local store. -/
def lsKey (tid a : Nat) : Nat := 2 ^ 60 * (tid + 1) + a / 256

/-- The place of an engine command in the order of R112: its issue stamp, the device's rank, the core (which includes the
die), the engine index, and for matrix operations the team's resident party slot. -/
def stampKey (stamp : DWord) (rank core engine slot : Nat) : Nat :=
  (((stamp.toNat * 4096 + rank) * 256 + core) * 16 + engine) * 32 + slot

/-- The place of a command that issues now. -/
def State.placeNow (s : State) (core engine slot : Nat) : Nat := stampKey s.tbase s.rank.toNat core engine slot

/-- The lower resident party slot of a team. -/
def Team.lowSlot (t : Team) : Nat := (t.parties.map fun q => q.2.resident).foldl min 31

/-- The engine commands of a team with their places in the order of R112 and the destination lines that they own (R111,
R291). -/
def Team.owners (t : Team) : List (Nat × List Nat) :=
  (t.channels.flatMap fun (_, c) => c.cmds.map fun x => (x.place, x.owned.map Prod.fst)) ++
    (match t.seq with
     | some q => q.ops.map fun o => (o.place, o.owned)
     | none => [])

/-- All engine commands of the device. -/
def State.owners (s : State) : List (Nat × List Nat) :=
  (s.teams.flatMap fun (_, t) => t.owners) ++
    (s.ssu.flatMap fun (_, cs) => cs.map fun c => (c.place, c.owned)) ++
    s.ne.flatMap fun (_, cs) => cs.map fun c => (c.place, c.owned)

/-- The line of a physical address, where it lies now, has a pending version on whose commit its home decides (R326). -/
def State.undecided (s : State) (pa : Nat) : Bool := (Map.find s.cvLines (lineKey (s.whereNow pa))).any CvLine.prepared

/-- An engine command owns the line of a physical address, where it lies now: party accesses to it are held (R52, R111); and so
they are while a convoy's home decides on it. -/
def State.owned (s : State) (pa : Nat) : Bool :=
  (s.owners.any fun x => x.2.contains (lineKey (s.whereNow pa))) || s.undecided pa

/-- A command that comes earlier in the order of R112 still owns one of the lines: the later command's writes to them
wait. -/
def State.outranked (s : State) (key : Nat) (lines : List Nat) : Bool :=
  s.owners.any fun x => decide (x.1 < key) && lines.any fun l => x.2.contains l

/-- The places of the engine commands that own the line of a physical address, where it lies now. -/
def State.lineOwners (s : State) (pa : Nat) : List Nat :=
  (s.owners.filter fun x => x.2.contains (lineKey (s.whereNow pa))).map Prod.fst

/-- What an entry holds reaches its line at L2: written, or held at the directory while engine commands own the line, and
behind what is held there for it already (R52). -/
def State.drainEntry (s : State) (core : Nat) (e : WcbEntry) : State :=
  let ks := s.lineOwners (64 * e.line)
  if ks.isEmpty && !s.undecided (64 * e.line) && !s.heldStores.any fun h => h.line == e.line then s.pokeLine e.line e.bytes
  else
    { s with heldStores := s.heldStores ++
        [{ core := core, line := e.line, bytes := e.bytes, owners := e.owners, awaits := ks }] }

/-- A held store whose commands have released its line is written, behind those held before it; any other stays. -/
def State.retryHeld (s : State) (h : HeldStore) : State :=
  if (s.heldStores.any fun k => k.line == h.line) || (s.lineOwners (64 * h.line)).any h.awaits.contains ||
      s.undecided (64 * h.line) then
    { s with heldStores := s.heldStores ++ [h] }
  else s.pokeLine h.line h.bytes

/-- Held stores are performed as soon as they can be. -/
def State.performHeld (s : State) : State := s.heldStores.foldl State.retryHeld { s with heldStores := [] }

/-- The directory holds stores of a core. -/
def State.holdsOf (s : State) (core : Nat) : Bool := s.heldStores.any fun h => h.core == core

/-- Drains the entries of a core that a test selects to L2, oldest first. -/
def State.drain (s : State) (core : Nat) (sel : WcbEntry → Bool) : State :=
  let es := s.wcbOf core
  if es.any sel then
    (es.filter sel).foldl (fun s e => s.drainEntry core e) (s.setWcb core (es.filter fun e => !sel e))
  else s

/-- Drains the entries of every core that a test selects. -/
def State.drainEvery (s : State) (sel : WcbEntry → Bool) : State := s.wcb.foldl (fun s c => s.drain c.1 sel) s

/-- Merges bytes into a map of bytes; the newer replace the older. -/
def mergeBytes (m : Map Byte) (bs : List (Nat × Byte)) : Map Byte := bs.foldl (fun m (k, b) => Map.set m k b) m

/-- A store of a party of the core enters the buffer: it merges into the entry for its line, or takes a new entry,
the oldest draining first when all 32 are taken; an entry whose mask is full drains (R53). -/
def State.wcbStore (s : State) (core : Nat) (owner : Nat × Nat) (pa : Nat) (bs : List Byte) : State :=
  let line := pa / 64
  let news := withAddr (pa % 64) bs
  let clk := s.clk.toNat
  let es := s.wcbOf core
  let s :=
    if es.any fun e => e.line == line then
      s.setWcb core (es.map fun e =>
        if e.line = line then
          { e with bytes := mergeBytes e.bytes news, last := clk
                   owners := if e.owners.contains owner then e.owners else owner :: e.owners }
        else e)
    else
      let s := if 32 ≤ es.length then s.drain core fun e => some e.line == es.head?.map WcbEntry.line else s
      s.setWcb core (s.wcbOf core ++ [{ line := line, bytes := mergeBytes [] news, owners := [owner], last := clk }])
  s.drain core fun e => e.line == line && decide (64 ≤ e.bytes.length)

/-- A byte as a load of the core reads it: from its buffer before memory (R53). -/
def State.coreByte (s : State) (core pa : Nat) : Byte :=
  match (s.wcbOf core).find? fun e => e.line == pa / 64 with
  | some e =>
    match Map.find e.bytes (pa % 64) with
    | some b => b
    | none => s.byte pa
  | none => s.byte pa

/-- `n` bytes as a load of the core reads them. -/
def State.coreBytes (s : State) (core pa n : Nat) : Nat :=
  match n with
  | 0 => 0
  | n + 1 => (s.coreByte core pa).toNat + 256 * s.coreBytes core (pa + 1) n

/-! ## Translation (R22 to R39) -/

/-- What an access is, for the checks of R28. -/
inductive Use where
  | fetch | load | store | cvload | cvstore
deriving DecidableEq, Repr

def Use.writes : Use → Bool
  | .store | .cvstore => true
  | _ => false

/-- The 57-bit virtual address of a canonical 64-bit address, or none (R22). -/
def canonical (a : DWord) : Option Nat :=
  let hi := (a.extractLsb' 56 8).toNat
  if hi = 0 ∨ hi = 255 then some (a.extractLsb' 0 57).toNat else none

/-- The context that a tag names (R23). -/
def State.context (s : State) (tag : BitVec 16) : Context :=
  (Map.find s.contexts tag.toNat).getD { root := 0, fn := 0, queue := 0 }

/-- A table address lies in the HBM4E ranges of the context's function (R24, R422). -/
def State.tableInRange (s : State) (fn pa : Nat) : Bool :=
  regionOf pa == .hbm && (Store.read s.hbmFn (pa / 2 ^ 30)).toNat == fn

def translationFault (sub : Nat) (tag : BitVec 16) : Cause := { cause := 0x06, sub := sub, info := tag.setWidth 32 }

/-- The bits that a page of each level leaves to the offset: 1 GiB, 2 MiB, 64 KiB. -/
def pageBits (level : Nat) : Nat := if level = 2 then 30 else if level = 1 then 21 else 16

/-- The index of a level, and the size of its table (R24). -/
def levelIndex (level va : Nat) : Nat :=
  match level with
  | 3 => va / 2 ^ 48 % 512
  | 2 => va / 2 ^ 30 % 262144
  | 1 => va / 2 ^ 21 % 512
  | _ => va / 2 ^ 16 % 32

def tableSize (level : Nat) : Nat := match level with | 2 => 0x200000 | 0 => 0x100 | _ => 0x1000

/-- The rows of R27 that concern a leaf entry found at a level. -/
def leafFault (tag : BitVec 16) (level : Nat) (e : DWord) : Option Cause :=
  let frame := (e.extractLsb' 16 36).toNat * 65536
  let rank := (e.extractLsb' 52 12).toNat
  let bit (n : Nat) := e.getLsbD n
  let region := regionOf frame
  if level = 3 ∨ (e.extractLsb' 11 5).toNat ≠ 0 ∨ frame % 2 ^ pageBits level ≠ 0 then some (translationFault 3 tag)
  else if bit 9 ≠ (region == .weights) then some (translationFault 3 tag)
  else if bit 10 = false ∧ region = .hole then some (translationFault 4 tag)
  else if bit 10 = false ∧ rank ≠ 0 then some (translationFault 3 tag)
  else if bit 10 = false ∧ region = .device ∧ bit 6 = false then some (translationFault 4 tag)
  else if region = .device ∧ (bit 8 ∨ bit 5) then some (translationFault 3 tag)
  else none

/-- A leaf entry maps device memory outside the HBM4E ranges of a function (R422). The model tests it after the rows of R27's table
(DESIGN CHOICE, log entry 84). -/
def State.foreignFrame (s : State) (fn : Nat) (e : DWord) : Bool :=
  let frame := (e.extractLsb' 16 36).toNat * 65536
  !e.getLsbD 10 && regionOf frame == .hbm && (Store.read s.hbmFn (frame / 2 ^ 30)).toNat != fn

/-- What a strong read at device scope returns of `n` bytes at a frame (R33): from where the line lies now (R45), with
the pending reductions of its sector. -/
def State.strongRead (s : State) (pa n : Nat) : Nat :=
  match s.settle pa with
  | (s, none, pa) => bytesFrom (s.reach pa n).mem pa n
  | (s, some r, pa) => ofBytes ((List.range n).map fun k => Config.peerByte s.free (2 ^ 52 * r + pa + k))

/-- One level of a walk and those below it (R24, R27): the leaf with the bits of its page's offset, or the fault. -/
def State.walkLevel (s : State) (tag : BitVec 16) (fn va level table : Nat) : Except Cause (DWord × Nat) :=
  if !s.tableInRange fn table then .error (translationFault 4 tag)
  else if table % tableSize level ≠ 0 then .error (translationFault 3 tag)
  else
    let e : DWord := BitVec.ofNat 64 (s.strongRead (table + 8 * levelIndex level va) 8)
    if e.getLsbD 0 = false then .error (translationFault 2 tag)
    else if e.getLsbD 1 then
      match leafFault tag level e with
      | some c => .error c
      | none => if s.foreignFrame fn e then .error (translationFault 4 tag) else .ok (e, pageBits level)
    else if (e.extractLsb' 2 6).toNat ≠ 0 ∨ (e.extractLsb' 52 12).toNat ≠ 0 then .error (translationFault 3 tag)
    else
      match level with
      | 0 => .error (translationFault 3 tag)
      | l + 1 => s.walkLevel tag fn va l ((e.extractLsb' 8 44).toNat * 256)

/-- A walk from the root (R24). -/
def State.walk (s : State) (tag : BitVec 16) (va : Nat) : Except Cause (DWord × Nat) :=
  let c := s.context tag
  s.walkLevel tag c.fn va 3 c.root

/-- The entry of a translation cache that translates an address. -/
def findTlb (es : List TlbEntry) (tag : BitVec 16) (va : Nat) : Option TlbEntry :=
  es.find? fun e => e.tag == tag && decide (e.base ≤ va ∧ va < e.base + e.size)

/-- Adds a translation, dropping the oldest entry of a full cache (R31). -/
def addTlb (cap : Nat) (es : List TlbEntry) (e : TlbEntry) : List TlbEntry :=
  let es := es.filter fun x => !(x.tag == e.tag && x.base == e.base)
  (if cap ≤ es.length then es.drop 1 else es) ++ [e]

/-- The cached translations of a core, its cluster and its die (R31). -/
def State.coreTlb (s : State) (core : Nat) : List TlbEntry := (Map.find s.tlbCore core).getD []
def State.clusterTlb (s : State) (core : Nat) : List TlbEntry := (Map.find s.tlbCluster (clusterOf core)).getD []

/-- The translations of a die's last level (R31). -/
def State.lastTlb (s : State) (die : Nat) : List TlbEntry := (Map.find s.tlbDie die).getD []

/-- Fills the level of a die with a translation (R34). -/
def State.fillDie (s : State) (die : Nat) (e : TlbEntry) : State :=
  { s with tlbDie := Map.set s.tlbDie die (addTlb 131072 (s.lastTlb die) e) }

/-- Fills the three levels with a translation (R34). -/
def State.fillTlb (s : State) (core : Nat) (e : TlbEntry) : State :=
  { s.fillDie (dieOf core) e with
    tlbCore := Map.set s.tlbCore core (addTlb 512 (s.coreTlb core) e)
    tlbCluster := Map.set s.tlbCluster (clusterOf core) (addTlb 16384 (s.clusterTlb core) e) }

/-- The cached translation for an address in the levels of a core and its cluster. -/
def State.nearTlb (s : State) (core : Nat) (tag : BitVec 16) (va : Nat) : Option TlbEntry :=
  match findTlb (s.coreTlb core) tag va with
  | some e => some e
  | none => findTlb (s.clusterTlb core) tag va

/-- The cache entry that a finished walk installs (R34). -/
def entryOf (tag : BitVec 16) (va : Nat) (leaf : DWord) (bits : Nat) : TlbEntry :=
  { tag := tag, base := va / 2 ^ bits * 2 ^ bits, size := 2 ^ bits, leaf := leaf }

/-- Walkers that a die's walks hold, all or of one context. -/
def State.walkers (s : State) (die : Nat) (tag : Option (BitVec 16)) : Nat :=
  (s.walks.filter fun w => w.die == die && w.at_ == .walker && (match tag with | some g => w.tag == g | none => true)).length

/-- A walk may take a walker (R35): one of the 384 is free, and its context holds fewer than 192 while a miss of another
waits. -/
def State.mayWalk (s : State) (die : Nat) (tag : BitVec 16) : Bool :=
  decide (s.walkers die none < 384) &&
    !(decide (192 ≤ s.walkers die (some tag)) &&
      s.walks.any fun w => w.die == die && (w.at_ == .queue || w.at_ == .cluster) && w.tag != tag)

/-- A miss is of the page of an address. -/
def Walk.covers (w : Walk) (die : Nat) (tag : BitVec 16) (va : Nat) : Bool :=
  w.die == die && w.tag == tag && decide (w.base ≤ va ∧ va < w.base + w.size)

/-- The fault in which a miss's walk has ended. -/
def Walk.fault? (w : Walk) : Option (Nat × Nat) :=
  match w.at_ with
  | .ended c u => some (c, u)
  | _ => none

/-- A walk for the page of an address is in flight: a miss waits for it and takes no walker of its own (R35). -/
def State.walking (s : State) (die : Nat) (tag : BitVec 16) (va : Nat) : Bool :=
  s.walks.any fun w => w.fault?.isNone && w.covers die tag va

/-- The fault of the walk that the instruction which is issuing has waited for: it receives that walk's result (R35). -/
def State.joinedFault (s : State) (die : Nat) (tag : BitVec 16) (va : Nat) : Option Cause :=
  (s.walks.find? fun w => w.fault?.isSome && w.covers die tag va && s.cur.any w.waiters.contains).map fun w =>
    let (c, u) := w.fault?.getD (0, 0)
    { cause := c, sub := u, info := tag.setWidth 32 }

/-- The step waits for something that this model does not let it wait for inside: it does not happen now. -/
def State.stick (s : State) (b : Bool) : State := { s with stuck := s.stuck || b }

/-- The step waits for a walker, or for the walk of its page (R35): the miss enters the die's misses when the step is
undone. -/
def State.await (s : State) (core : Option Nat) (tag : BitVec 16) (va : Nat) : State :=
  { s with stuck := true, missed := s.missed ++ [(core, tag, va)] }

/-- A miss beyond the cluster level: of a core, or of the command processors, whose misses are die 0's (log entry 52). A
hit in the die's level is installed as a walk's translation is (DESIGN CHOICE, log entry 65). A walk begins and ends in
this step; with no walker to be had, or the page's walk in flight, the step waits (R34, R35). -/
def State.missFor (s : State) (core : Option Nat) (tag : BitVec 16) (va : Nat) : State × Except Cause TlbEntry :=
  let die := match core with | some c => dieOf c | none => 0
  let fill (s : State) (e : TlbEntry) : State := match core with | some c => s.fillTlb c e | none => s.fillDie die e
  match findTlb (s.lastTlb die) tag va with
  | some e => (match core with | some c => s.fillTlb c e | none => s, .ok e)
  | none =>
    match s.joinedFault die tag va with
    | some c => (s, .error { c with addr := some va })
    | none =>
      let s := if !s.mayWalk die tag || s.walking die tag va then s.await core tag va else s
      match s.walk tag va with
      | .error c => (s, .error { c with addr := some va })
      | .ok (l, bits) => (fill s (entryOf tag va l bits), .ok (entryOf tag va l bits))

/-- The translation of an address on a core (R31): its level, its cluster's, or what a miss finds. -/
def State.entryFor (s : State) (core : Nat) (tag : BitVec 16) (va : Nat) : State × Except Cause TlbEntry :=
  match s.nearTlb core tag va with
  | some e => (s, .ok e)
  | none => s.missFor (some core) tag va

/-! ## Misses (R34, R35) -/

/-- The page of an address, as a walk would find it now; a 64 KiB unit where the walk would fail. -/
def State.pageOf (s : State) (tag : BitVec 16) (va : Nat) : Nat × Nat :=
  let bits := match s.walk tag va with
    | .ok (_, bits) => bits
    | .error _ => 16
  (va / 2 ^ bits * 2 ^ bits, 2 ^ bits)

/-- Misses in a die's miss queue. -/
def State.queuedWalks (s : State) (die : Nat) : Nat := (s.walks.filter fun w => w.die == die && w.at_ == .queue).length

/-- Where a new miss goes: a hit in the die's last level needs no walker; else it takes one, or stands in the miss queue,
or at its cluster TLB when the queue's 2,048 entries are taken. -/
def State.placeWalk (s : State) (die : Nat) (tag : BitVec 16) (va : Nat) : WalkAt :=
  if (findTlb (s.lastTlb die) tag va).isSome then .dieHit
  else if s.mayWalk die tag then .walker
  else if s.queuedWalks die < 2048 then .queue
  else .cluster

/-- A list with what an option holds, once. -/
def withSome {α : Type} [BEq α] (l : List α) (x : Option α) : List α :=
  match x with
  | some a => if l.contains a then l else l ++ [a]
  | none => l

/-- Starts the walk for an address, or joins the one in flight for its page: for a core or the command processors, and an
issuer that stands until it ends, if one does. -/
def State.startWalk (s : State) (core : Option Nat) (who : Option Who) (tag : BitVec 16) (va : Nat) (needed : Bool) : State :=
  let die := match core with | some c => dieOf c | none => 0
  if s.walking die tag va then
    { s with walks := s.walks.map fun w =>
        if w.fault?.isNone && w.covers die tag va then
          { w with cores := withSome w.cores core, needed := w.needed || needed, waiters := withSome w.waiters who }
        else w }
  else
    let (id, s) := s.fresh
    let (base, size) := s.pageOf tag va
    { s with walks := s.walks ++
        [{ id := id, die := die, tag := tag, base := base, size := size, at_ := s.placeWalk die tag va, cores := core.toList,
           needed := needed, waiters := who.toList }] }

/-- Misses of the queue take free walkers, oldest first (R35). -/
def State.grantWalkers (s : State) (todo : List Nat) : State :=
  match todo with
  | [] => s
  | id :: rest =>
    match s.walks.find? fun w => w.id == id with
    | none => s.grantWalkers rest
    | some w =>
      (if s.mayWalk w.die w.tag then
        { s with walks := s.walks.map fun x => if x.id = id then { x with at_ := .walker } else x }
      else s).grantWalkers rest

/-- Misses held back at the cluster TLBs enter the queue while it has room, oldest first. -/
def State.admitWalks (s : State) (todo : List Nat) : State :=
  match todo with
  | [] => s
  | id :: rest =>
    match s.walks.find? fun w => w.id == id with
    | none => s.admitWalks rest
    | some w =>
      (if s.queuedWalks w.die < 2048 then
        { s with walks := s.walks.map fun x => if x.id = id then { x with at_ := .queue } else x }
      else s).admitWalks rest

/-- The misses of a die that stand at a place, oldest first. -/
def State.walksAt (s : State) (die : Nat) (a : WalkAt) : List Nat :=
  (s.walks.filter fun x => x.die == die && x.at_ == a).map Walk.id

/-- A walker has become free on a die. -/
def State.regrant (s : State) (die : Nat) : State :=
  let s := s.grantWalkers (s.walksAt die .queue)
  let s := s.admitWalks (s.walksAt die .cluster)
  s.grantWalkers (s.walksAt die .queue)

/-- What a leaf gives an access at an offset in its page (R26, R29). -/
def targetOf (l : DWord) (off : Nat) : Target :=
  let pa := (l.extractLsb' 16 36).toNat * 65536 + off
  { pa := pa
    peer := if l.getLsbD 10 then some (l.extractLsb' 52 12).toNat else none
    mt := if regionOf pa = .device then 3 else (l.extractLsb' 2 2).toNat
    wsa := l.getLsbD 9
    cv := l.getLsbD 8
    mig := l.getLsbD 7 }

/-- The checks of R28, in their order. -/
def checkLeaf (priv : Bool) (u : Use) (l : DWord) : Option Cause :=
  if l.getLsbD 6 && !priv then some (protection 0x01)
  else if u == .fetch && !l.getLsbD 5 then some (protection 0x02)
  else if u.writes && l.getLsbD 9 then some { cause := 0x08 }
  else if u.writes && !l.getLsbD 4 then some (protection 0x03)
  else if (u == .cvload || u == .cvstore) && !l.getLsbD 8 then some (protection 0x04)
  else none

/-- Translates one access of a team on a core: NONCANON, R27, then R28. -/
def State.translate (s : State) (core : Nat) (tag : BitVec 16) (priv : Bool) (u : Use) (a : DWord) :
    State × Except Cause Target :=
  match canonical a with
  | none => (s, .error { translationFault 1 tag with addr := some (a.extractLsb' 0 57).toNat })
  | some va =>
    match s.entryFor core tag va with
    | (s, .error c) => (s, .error c)
    | (s, .ok e) =>
      match checkLeaf priv u e.leaf with
      | some c => (s, .error { c with addr := some va })
      | none => (s, .ok (targetOf e.leaf (va - e.base)))

/-- An access that the command processors make for a queue or a run, at system level, privileged or not as given:
translated in the last level of die 0 or by one of its walkers (log entry 52). -/
def State.walkTo (s : State) (tag : BitVec 16) (priv : Bool) (u : Use) (a : Nat) : State × Except Cause Target :=
  match canonical (BitVec.ofNat 64 a) with
  | none => (s, .error { translationFault 1 tag with addr := some a })
  | some va =>
    match s.missFor none tag va with
    | (s, .error c) => (s, .error c)
    | (s, .ok e) =>
      match checkLeaf priv u e.leaf with
      | some c => (s, .error { c with addr := some va })
      | none => (s, .ok (targetOf e.leaf (va - e.base)))

/-! ## Engine accesses -/

/-- Where an engine's access at an address goes. An engine of a core translates as the core does; the command processors
translate on die 0 (log entry 52). -/
def State.engineTarget (s : State) (core : Option Nat) (tag : BitVec 16) (priv : Bool) (u : Use) (a : Nat) :
    State × Except Cause Target :=
  match core with
  | some c => s.translate c tag priv u (BitVec.ofNat 64 a)
  | none => s.walkTo tag priv u a

/-- The target of an address as the next access of a core would find it, nothing being installed. -/
def State.peekTarget (s : State) (core : Nat) (tag : BitVec 16) (priv : Bool) (u : Use) (a : Nat) : Option Target :=
  match s.translate core tag priv u (BitVec.ofNat 64 a) with
  | (_, .ok t) => some t
  | (_, .error _) => none

/-- What a load reads in the device-register region (R30): zero where no register is implemented. -/
def State.registerRead (s : State) (pa lane n : Nat) : State × Nat :=
  if Config.registerExists pa then (s.useFree, (Config.deviceRegister s.free lane).toNat % 2 ^ (8 * n)) else (s, 0)

/-- The number by which an instruction reads. -/
def whoKey (w : Who) : Nat :=
  2 ^ 80 + match w with
    | .party tid p sl => 64 * tid + 2 * p + (if sl then 1 else 0)
    | .seq tid => 64 * tid + 32

/-- The number by which a queue's command processor reads. -/
def queueReader (key : Nat) : Nat := 2 ^ 90 + key

/-- The number by which what reads now does. -/
def State.readerKey (s : State) : Nat :=
  match s.reader, s.cur with
  | some x, _ => x.id
  | none, some w => whoKey w
  | none, none => 0

/-- What reads now may ask for a byte of a peer beside those that it wants already: where it reads next depends on what it has
read, only for one of the same sector. -/
def State.mayWant (s : State) (r pa : Nat) : Bool :=
  (s.reader.any fun x => !x.serial) || s.wanted.all fun y => y.2.1 == r && y.2.2.1 / 64 == pa / 64

/-- A byte of a peer: one that a request has brought; else the step waits, and the byte is asked for (R444). -/
def State.peerByte (s : State) (r pa va : Nat) : State × Byte :=
  match Map.find s.peerData (2 ^ 64 * s.readerKey + 2 ^ 52 * r + pa) with
  | some b => (s, b)
  | none => ({ s with stuck := true, wanted := s.wanted ++ if s.mayWant r pa then [(s.reader, r, pa, va)] else [] }, 0)

/-- An engine reads for a command. -/
def State.readAs {α : Type} (s : State) (r : Reader) (f : State → State × α) : State × α :=
  let (s, x) := f { s with reader := some r }
  ({ s with reader := none }, x)

/-- The bytes that peers have sent for a reader are used up. -/
def State.usedBytes (s : State) (id : Nat) : State :=
  if s.peerData.isEmpty then s else { s with peerData := s.peerData.filter fun b => b.1 / 2 ^ 64 != id }

/-- A step of an engine's command: what peers have sent for it is used up by it. -/
def State.runAs (s : State) (r : Reader) (f : State → State) : State :=
  (s.readAs r fun s => (f s, ())).1.usedBytes r.id

/-- One byte that an engine reads at a target: this device's memory where the page lies now, with the stores that the
engine's core still buffers (R105), or a byte of a peer. A closed weight-store bank holds the read back (R62). -/
def State.engineByte (s : State) (core : Option Nat) (t : Target) (va : Nat) : State × Byte :=
  match t.peer with
  | some r => s.peerByte r t.pa va
  | none =>
    match s.settle t.pa with
    | (s, some r, pa) => s.peerByte r pa va
    | (s, none, pa) =>
      let s := (s.reach pa 1).stick (s.bankClosed pa || s.undecided pa)
      if regionOf pa = .device then let (s, x) := s.registerRead pa 0 1; (s, BitVec.ofNat 8 x)
      else (s, match core with | some c => s.coreByte c pa | none => s.byte pa)

/-- The egress port of a packet (R441): of the working ports the one with the smallest sum of queue depth and credit
shortfall, which is a free value of each port at each use (log entry 66), and the lowest number on a tie. -/
def State.egress (s : State) : Option Nat × State :=
  let depth (p : Nat) : Nat := Config.egressDepth s.free p
  let better (b : Option Nat) (p : Nat) : Option Nat :=
    match b with
    | some q => if depth p < depth q then some p else b
    | none => some p
  (((s.fabPorts.filter fun p => p.2.up).map Prod.fst).foldl better none, s.useFree)

/-- A 16-bit sequence number that none of an agent's outstanding requests carries (R47): the first from `n` on. -/
def State.freeSeq (s : State) (agent n : Nat) : BitVec 16 :=
  let used (x : BitVec 16) : Bool := s.outstanding.any fun o => o.req.agent == agent && o.req.seqno == x
  BitVec.ofNat 16 (n + ((List.range (s.outstanding.length + 1)).find? fun k => !used (BitVec.ofNat 16 (n + k))).getD 0)

/-- What orders a request at its target against others of its source: a 256-byte line (R444) or a join slot (R357), by a
key. -/
def orderKeyOf (op : FabOp) (addr : Nat) : Option Nat :=
  match op with
  | .read _ | .write _ | .readLine _ | .writeLine .. | .atomic .. | .reduce .. | .cvstore .. | .cvload .. => some (2 * (addr / 256))
  | .resolve h .. | .register h _ | .joinRead h | .joinFail h => some (2 * h.toNat + 1)
  | _ => none

/-- The number of a request in its order, and the count for the next. -/
def State.nextOrder (s : State) (dst addr : Nat) (op : FabOp) : Nat × State :=
  match orderKeyOf op addr with
  | none => (0, s)
  | some k =>
    let key := 2 ^ 60 * dst + k
    let n := (Map.find s.issuedTo key).getD 0
    (n, { s with issuedTo := Map.set s.issuedTo key (n + 1) })

/-- A request to a peer: it is outstanding until the peer answers (R444, R450). The answer is its number. -/
def State.request (s : State) (tid : Nat) (party : Option Nat) (acc : Option (Nat × Nat)) (o : Origin) (dst addr : Nat)
    (op : FabOp) (va : Option Nat := none) (place : Option Nat := none) (lane : Option Nat := none)
    (late : Option Team := none) (lanes : List (Nat × Nat) := []) (dev : Bool := false) (after : Option Nat := none)
    (tag : Option (BitVec 16) := none) : State × Nat :=
  let (id, s) := s.fresh
  let (port, s) := s.egress
  let (order, s) := s.nextOrder dst addr op
  let tag := tag.getD (match Map.find s.teams tid with | some t => s.tagOf t | none => 0)
  ({ s with
      lastReq := Map.set s.lastReq tag.toNat s.tbase.toNat
      outstanding := s.outstanding ++
        [{ id := id
           req := { src := s.rank.toNat, dst := dst, agent := 1 + tid, seqno := s.freeSeq (1 + tid) id, addr := addr, op := op,
                    stamp := s.tbase, place := place, order := order }
           tid := tid, party := party, access := acc, lanes := lanes, dev := dev, after := after, origin := o, va := va,
           key := 2 ^ 52 * dst + addr, backoff := 0, retryAt := 0, tag := tag, port := port, waiting := false, bounced := none,
           held := false, lane := lane, late := late }] }, id)

/-- Asks a peer for a byte that a stuck step wants: in the request that this instruction or event has made for its line, one
since the number `since`, or in one of its own; once. -/
def State.askByte (s : State) (since : Nat) (x : Reader) (r pa va : Nat) : State :=
  let line := pa / 256 * 256
  let bit : BitVec 256 := 1#256 <<< (pa % 256)
  let mine (o : Outstanding) : Bool :=
    o.party.isNone && (o.access.any fun a => a.1 == x.id) && o.key == 2 ^ 52 * r + line
  let has (o : Outstanding) : Bool := match o.req.op with | .readLine m => m &&& bit != 0 | _ => false
  let more (o : Outstanding) : Outstanding :=
    match o.req.op with
    | .readLine m => { o with req := { o.req with op := .readLine (m ||| bit) } }
    | _ => o
  if s.outstanding.any fun o => mine o && has o then s
  else if s.outstanding.any fun o => mine o && decide (since ≤ o.id) then
    { s with outstanding := s.outstanding.map fun o => if mine o && decide (since ≤ o.id) then more o else o }
  else (s.request x.tid none (some (x.id, 0)) x.origin r line (.readLine bit) (some va)).1

/-- The team of an issuer. -/
def whoTeam : Who → Nat
  | .party tid .. | .seq tid => tid

/-- An issuer has issued: it has received what the walks that it waited for found, and used what peers sent. -/
def State.received (s : State) (who : Who) : State :=
  let s := s.usedBytes (whoKey who)
  if s.walks.isEmpty then s
  else
    let drop (w : Walk) : Walk := if w.fault?.isSome then { w with waiters := w.waiters.filter (· != who) } else w
    { s with walks := (s.walks.map drop).filter fun w => w.fault?.isNone || !w.waiters.isEmpty }

/-- A stuck step is undone: it leaves its misses behind, and asks peers for the bytes that it wants. `o` is the place of the
instruction, if one issues. -/
def State.undo (s : State) (who : Option Who) (o : Origin) (stuck : State) : State :=
  let s := stuck.missed.foldl (fun s x => s.startWalk x.1 who x.2.1 x.2.2 true) s
  let self : Reader := { id := (who.map whoKey).getD 0, tid := (who.map whoTeam).getD 0, origin := o, serial := false }
  let since := s.nextId
  stuck.wanted.foldl (fun s x => s.askByte since (x.1.getD self) x.2.1 x.2.2.1 x.2.2.2) s

/-- Requests that are outstanding when some are complete or dropped: those that waited for one of these are sent now. -/
def sendNext (now : DWord) (gone : Outstanding → Bool) (os : List Outstanding) : List Outstanding :=
  let free (o : Outstanding) : Bool := o.after.any fun k => os.any fun x => x.id == k && gone x
  (os.filter fun o => !gone o).map fun o =>
    if free o then { o with after := none, req := { o.req with stamp := now } } else o

/-- A byte holds what a command later in the order of R112 has written. -/
def State.overtaken (s : State) (place pa : Nat) : Bool :=
  s.stamped.any fun x => decide (x.1 ≤ pa ∧ pa < x.1 + x.2.1 ∧ place < x.2.2)

/-- An engine command's bytes in one sector of this device (R112): bytes that a later command has written stay. Without a
rank there is no peer whose write could come late, and nothing is recorded. -/
def State.stampedPoke (s : State) (place : Option Nat) (pa : Nat) (bs : List Byte) : State :=
  match place with
  | none => s.poke pa bs
  | some k =>
    if !s.ranked then s.poke pa bs
    else if (List.range bs.length).any fun j => s.overtaken k (pa + j) then
      ((List.range bs.length).zip bs).foldl (fun s x => if s.overtaken k (pa + x.1) then s else s.poke (pa + x.1) [x.2])
        { s with stamped := (pa, bs.length, k) :: s.stamped }
    else ({ s with stamped := (pa, bs.length, k) :: s.stamped } : State).poke pa bs

/-- Bytes of one sector that an engine of a team writes at a target: this device's memory where the page lies now, or a
request to the peer that owns it, with the place of the command in the order of R112. -/
def State.enginePut (s : State) (tid : Nat) (o : Origin) (place : Option Nat) (t : Target) (va : Nat) (bs : List Byte)
    (tag : Option (BitVec 16) := none) : State :=
  match t.peer with
  | some r => (s.request tid none none o r t.pa (.write bs) (some va) place (tag := tag)).1
  | none =>
    match s.settle t.pa with
    | (s, some r, pa) => (s.request tid none none o r pa (.write bs) (some va) place (tag := tag)).1
    | (s, none, pa) => (s.stick (s.undecided pa)).stampedPoke place pa bs

/-- Reads `n` bytes at a virtual address for an engine of a team, byte by byte, every page walked and checked. The
cause is the first that some byte meets; the Bool says that a poisoned sector was read. -/
def State.engineRead (s : State) (core : Option Nat) (tag : BitVec 16) (priv : Bool) (a n : Nat) :
    State × Except Cause (List Byte × Bool) :=
  match n with
  | 0 => (s, .ok ([], false))
  | n + 1 =>
    match s.engineTarget core tag priv .load a with
    | (s, .error c) => (s, .error c)
    | (s, .ok t) =>
      let poison := t.peer.isNone &&
        match s.settle t.pa with
        | (s, none, pa) => s.poison.contains (pa / 64)
        | (_, some _, _) => false
      let (s, b) := s.engineByte core t a
      match s.engineRead core tag priv (a + 1) n with
      | (s, .error c) => (s, .error c)
      | (s, .ok (bs, p)) => (s, .ok (b :: bs, poison || p))

/-- Writes bytes at a virtual address for an engine of a team, sector by sector; `fuel` bounds the sectors. The bytes
before a failing page stay written. -/
def State.engineWriteN (s : State) (core : Option Nat) (tid : Nat) (o : Origin) (place : Option Nat) (tag : BitVec 16)
    (priv : Bool) (a : Nat) (bs : List Byte) (fuel : Nat) : State × Option Cause :=
  match fuel, bs with
  | 0, _ => (s, none)
  | _, [] => (s, none)
  | k + 1, bs =>
    let n := 64 - a % 64
    match s.engineTarget core tag priv .store a with
    | (s, .error c) => (s, some c)
    | (s, .ok g) =>
      (s.enginePut tid o place g a (bs.take n)).engineWriteN core tid o place tag priv (a + n) (bs.drop n) k

def State.engineWrite (s : State) (core : Option Nat) (tid : Nat) (o : Origin) (place : Option Nat) (tag : BitVec 16)
    (priv : Bool) (a : Nat) (bs : List Byte) : State × Option Cause :=
  s.engineWriteN core tid o place tag priv a bs (bs.length / 64 + 2)

end Sys2Proof.Machine
end

