-- ==== Sys2Proof/Machine/Tiles.lean ====
section
/-!
DEFINITION. Elements of tiles: what an engine reads and writes through a tile handle, in memory or in the team's local
store (R344, R345), and the local store itself (R65).
-/

namespace Sys2Proof.Machine

open Sys2Proof

/-! ## The local store -/

/-- An access lies inside the team's allocation (R65). -/
def Team.lsIn (t : Team) (a n : Nat) : Bool := decide (a + n ≤ t.lsSize)

def lsRange (a : Nat) : Cause := { cause := 0x07, sub := 0x07, addr := some a }

/-- `n` bytes of the local store, little-endian. -/
def Team.lsRead (t : Team) (a n : Nat) : Nat := bytesFrom t.ls a n

/-- Some 32-bit word of the bytes is poisoned (R71). -/
def Team.lsPoisoned (t : Team) (a n : Nat) : Bool :=
  if n = 0 then false else (List.range' (a / 4) ((a + n - 1) / 4 - a / 4 + 1)).any fun k => t.lsPoison.contains k

/-- Writes bytes; a word written whole loses its poison (R71). -/
def Team.lsWrite (t : Team) (a : Nat) (bs : List Byte) : Team :=
  { t with
    ls := writeBytes t.ls (withAddr a bs)
    lsPoison := t.lsPoison.filter fun k => !decide (a ≤ 4 * k ∧ 4 * k + 4 ≤ a + bs.length) }

/-- Passes of an operation that have not retired. -/
def Passes.left (x : Passes) : Nat := x.unposted + x.waiting.length + x.inArray

/-! ## The accumulator store (R67, R68) -/

/-- Key of element (i, j) of tile c. -/
def accKey (c i j : Nat) : Nat := 16384 * c + 128 * i + j

def Team.tile (t : Team) (c i j : Nat) : Word := Store.read t.acc (accKey c i j)

def Team.setTile (t : Team) (c i j : Nat) (v : Word) : Team :=
  { t with acc := Store.write t.acc (accKey c i j) v, accPoison := t.accPoison.filter (· != accKey c i j) }

/-! ## Bytes behind a handle -/

/-- Reads `n` bytes at an address that a handle's location kind places: virtual memory, or the local store. -/
def State.locRead (s : State) (tid : Nat) (loc a n : Nat) : State × Except Cause (List Byte × Bool) :=
  match Map.find s.teams tid with
  | none => (s, .ok ([], false))
  | some t =>
    if loc = 1 then
      if t.lsIn a n then (s, .ok (toBytes n (t.lsRead a n), t.lsPoisoned a n)) else (s, .error (lsRange a))
    else s.engineRead (some t.core) (s.tagOf t) (s.privileged t) a n

/-- Writes bytes at an address that a location kind places, for a command of a place in the order of R112, if it has
one. -/
def State.locWrite (s : State) (tid : Nat) (o : Origin) (place : Option Nat) (loc a : Nat) (bs : List Byte) :
    State × Option Cause :=
  match Map.find s.teams tid with
  | none => (s, none)
  | some t =>
    if loc = 1 then
      if t.lsIn a bs.length then (s.modTeam tid fun t => t.lsWrite a bs, none) else (s, some (lsRange a))
    else s.engineWrite (some t.core) tid o place (s.tagOf t) (s.privileged t) a bs

/-! ## Elements -/

/-- The byte address of element (r, c), and its first bit within that byte. -/
def elemPos (h : Handle) (r c : Nat) : Nat × Nat := (hBase h + r * hPitch h + c * hBits h / 8, c * hBits h % 8)

/-- The bits of element (r, c), and whether a poisoned unit was read. -/
def State.readElem (s : State) (tid : Nat) (h : Handle) (r c : Nat) : State × Except Cause (Nat × Bool) :=
  let (a, k) := elemPos h r c
  match s.locRead tid (hLoc h) a ((hBits h + 7) / 8) with
  | (s, .error e) => (s, .error e)
  | (s, .ok (bs, p)) => (s, .ok ((ofBytes bs >>> k) % 2 ^ hBits h, p))

/-- Writes element (r, c); a packed element changes only its own bits (R74, R104). -/
def State.writeElem (s : State) (tid : Nat) (o : Origin) (place : Option Nat) (h : Handle) (r c x : Nat) :
    State × Option Cause :=
  let (a, k) := elemPos h r c
  if 8 ≤ hBits h then s.locWrite tid o place (hLoc h) a (toBytes (hBits h / 8) x)
  else
    match s.locRead tid (hLoc h) a 1 with
    | (s, .error e) => (s, some e)
    | (s, .ok (bs, _)) =>
      let old := ofBytes bs
      let cleared := old - (old >>> k) % 2 ^ hBits h * 2 ^ k
      s.locWrite tid o place (hLoc h) a (toBytes 1 (cleared + x % 2 ^ hBits h * 2 ^ k))

/-- The checks of R345 on a handle, with the local-store range of its whole tile. -/
def handleFault (h : Handle) : Option Cause :=
  if 2 ≤ hLoc h then some (protection 0x13)
  else if hPitchField h ≠ 0 ∧ hPitchField h < hRowLen h then some (protection 0x14)
  else none

/-- Bytes from the base to the end of the last row. -/
def hExtent (h : Handle) : Nat := (hRows h - 1) * hPitch h + hRowLen h

/-- A span of a local-store operand leaves the allocation: LSRANGE with the first offset outside. -/
def Team.lsSpan (t : Team) (h : Handle) (sp : Nat × Nat) : Option Cause :=
  if hLoc h = 1 ∧ t.lsSize < sp.2 then some (lsRange (max sp.1 t.lsSize)) else none

/-- scale_base of R344. -/
def scaleBase (h : Handle) : Nat := (((hBase h : Int) + hScl h * 4096) % 2 ^ 64).toNat

/-- The address that a handle register points at (R140). -/
def handleAddr (t : Team) (n : Nat) : Nat := sext57 (((Store.read t.handles n).extractLsb' 4 53).toNat * 16)

/-- Reads the handle bytes that a handle register points at (R140). Poison among them is an uncorrectable ECC fault with
the subcause of the use (R71). -/
def State.fetchHandle (s : State) (tid n sub : Nat) : State × Except Cause Handle :=
  match Map.find s.teams tid with
  | none => (s, .error registerRange)
  | some t =>
    if (Store.read t.handles n).getLsbD 0 = false then (s, .error registerRange)
    else
      let a := handleAddr t n
      match s.engineRead (some t.core) (s.tagOf t) (s.privileged t) a 16 with
      | (s, .error c) => (s, .error c)
      | (s, .ok (bs, p)) =>
        if p then (s, .error { cause := 0x0F, sub := sub, addr := some (a % 2 ^ 57) })
        else (s, .ok (BitVec.ofNat 128 (ofBytes bs)))

/-- `n` bytes of a list from `k`, little-endian. -/
def bytesAt (bs : List Byte) (k n : Nat) : Nat := ofBytes ((bs.drop k).take n)

/-- The lines of a span of bytes that a use reaches: physical lines, or lines of the local store; a page on which the use
would fault has none. -/
def State.spanLines (s : State) (tid : Nat) (t : Team) (u : Use) (loc a n : Nat) : List Nat :=
  if n = 0 then []
  else
    let firsts := a :: ((List.range' (a / 256 + 1) ((a + n - 1) / 256 - a / 256)).map (256 * ·))
    if loc = 1 then firsts.map (lsKey tid)
    else
      firsts.filterMap fun x =>
        match s.peekTarget t.core (s.tagOf t) (s.privileged t) u x with
        | some g => if g.peer.isNone then some (lineKey (s.whereNow g.pa)) else none
        | none => none

end Sys2Proof.Machine
end

