-- ==== Sys2Proof/Machine/Operands.lean ====
section
/-!
DEFINITION. Operand forms: which registers an instruction reads and writes, the values of B operands and addresses
(R178), queue ports (R136), and the checks that an instruction of a party meets at issue before its own effect (R171,
step 4; the scoreboard, R144).
-/

namespace Sys2Proof.Machine

open Sys2Proof

/-! ## Values of operands (R178) -/

/-- B(L) of a 32-bit vector operand. -/
def Party.bV (q : Party) (b : BOp) (l : Nat) : Word :=
  match b with
  | .reg r => q.getB r.toNat l
  | .lit w => w

/-- B of a scalar operand. -/
def Party.bS (q : Party) (sl : Bool) (b : SOp) : Word :=
  match b with
  | .reg r => q.getS sl r.toNat
  | .lit w => w

/-- base(sa): 0 for s0, otherwise the pair. -/
def Party.base (q : Party) (sl : Bool) (a : SReg) : DWord := if a = 0 then 0 else q.pairS sl a.toNat

/-- ea(L): the base pair with a zero-extended index, or with a sign-extended literal offset, modulo 2^64. -/
def Party.ea (q : Party) (sl : Bool) (a : SReg) (b : BOp) (l : Nat) : DWord :=
  q.base sl a +
    match b with
    | .reg r => (q.getB r.toNat l).setWidth 64
    | .lit w => w.signExtend 64

/-- The address of a scalar access: the base pair with a sign-extended offset (R190). -/
def Party.eaS (q : Party) (sl : Bool) (a : SReg) (b : SOp) : DWord := q.base sl a + (q.bS sl b).signExtend 64

/-- The offset of lld, lst and lredm (R192): modulo 2^32. -/
def Party.lsOffset (q : Party) (sl : Bool) (a : SReg) (b : BOp) (l : Nat) : Nat :=
  (q.getS sl a.toNat + q.bV b l).toNat

/-- Bytes of an access. -/
def Size.bytes : Size → Nat
  | .n8 | .i8 => 1
  | .n16 | .i16 => 2
  | .w32 => 4
  | .d64 => 8

/-- A value read, extended into a 32-bit lane (R160). -/
def Size.extend (z : Size) (x : DWord) : Word :=
  match z with
  | .n8 => (x.setWidth 8).setWidth 32
  | .i8 => (x.setWidth 8).signExtend 32
  | .n16 => (x.setWidth 16).setWidth 32
  | .i16 => (x.setWidth 16).signExtend 32
  | _ => x.setWidth 32

/-- ACTIVE (R178). -/
def Party.active (q : Party) (sl : Bool) : Mask := (q.slot sl).mask

/-! ## Registers that an instruction names -/

/-- The registers of an instruction. `reads` are vector operands in pop order (VA, then VB); `inner` are vector
registers that are read or written and may not name a bound port; `writes` are vector destinations; then scalars read
and written, handles, the copy channel, and the registers of ports that are bound or closed. DESIGN CHOICE: a pair of a 64-bit
form that takes in the register of a port names that port with the one register: a source pops it for that half, a destination
pushes that half; the rules do not say what a pair pops or pushes (log entry 76). -/
structure Operands where
  reads : List Nat := []
  inner : List Nat := []
  writes : List Nat := []
  sreads : List Nat := []
  swrites : List Nat := []
  handles : List Nat := []
  chan : Option Nat := none
  ports : List Nat := []
deriving DecidableEq, Repr

def pairN (n : Nat) : List Nat := [n, n + 1]
def tripleN (n : Nat) : List Nat := [n, n + 1, n + 2]

/-- A vector register, or the pair it starts. -/
def vN (wide : Bool) (r : VReg) : List Nat := if wide then pairN r.toNat else [r.toNat]

def vB1 (wide : Bool) (b : BOp) : List Nat :=
  match b with
  | .reg r => vN wide r
  | .lit _ => []

def sB1 (b : SOp) : List Nat :=
  match b with
  | .reg r => [r.toNat]
  | .lit _ => []

/-- The scalars of base(sa). -/
def baseN (a : SReg) : List Nat := if a = 0 then [] else pairN a.toNat

def opsVec (wide : Bool) (d a : VReg) (b : BOp) : Operands :=
  { reads := vN wide a ++ vB1 wide b, writes := vN wide d }

def opsVecRead (wide : Bool) (d a : VReg) (b : BOp) : Operands :=
  { reads := vN wide a ++ vB1 wide b, inner := vN wide d, writes := vN wide d }

def opsLoad (d : VReg) (a : SReg) (b : BOp) (z : Size) : Operands :=
  { reads := vB1 false b, writes := vN (z == .d64) d, sreads := baseN a }

def opsStore (d : VReg) (a : SReg) (b : BOp) (z : Size) : Operands :=
  { reads := vN (z == .d64) d ++ vB1 false b, sreads := baseN a }

/-- The registers that the operand of a vector atomic takes (R321). -/
def atomRegs (op : AOp) (ty : ATy) (d : Nat) : List Nat := List.range' d (atomSpan op ty)

/-- The registers that an atomic's result fills. -/
def atomDest (ty : ATy) (d : Nat) : List Nat :=
  match ty with
  | .i64 | .n64 | .f64 => pairN d
  | _ => [d]

/-- The twelve payload registers of emit, emitr and futreg (R362). -/
def payload (v : VReg) : List Nat := List.range' v.toNat 12

/-- The registers of every instruction of a party. -/
def operands (i : Instr) : Operands :=
  match i with
  | .sadd d a b | .ssub d a b | .smul d a b | .smulhI32 d a b | .smulhN32 d a b | .sand d a b | .sor d a b
  | .sxor d a b | .sshl d a b | .sshr d a b | .ssra d a b | .sminI32 d a b | .sminN32 d a b | .smaxI32 d a b
  | .smaxN32 d a b | .scmp _ d a b => { sreads := a.toNat :: sB1 b, swrites := [d.toNat] }
  | .ssel c d a b => { sreads := c.toNat :: a.toNat :: sB1 b, swrites := [d.toNat] }
  | .smov d a | .spopc d a | .sclz d a | .sffs d a | .saddImm d a _ | .sandImm d a _ | .sorImm d a _ | .sshlImm d a _
  | .sshrImm d a _ | .ssraImm d a _ | .sbfx d a _ _ _ => { sreads := [a.toNat], swrites := [d.toNat] }
  | .sbfi d a _ _ => { sreads := [a.toNat, d.toNat], swrites := [d.toNat] }
  | .sli d _ | .slui d _ => { swrites := [d.toNat] }
  | .sget d n => { swrites := if 3 ≤ n.toNat ∧ n.toNat ≤ 5 then pairN d.toNat else [d.toNat] }
  | .sset a n => { sreads := if n.toNat = 5 then pairN a.toNat else [a.toNat] }
  | .ckwarn d a => { sreads := [a.toNat], swrites := [d.toNat] }
  | .setfmt _ | .setmode _ | .br _ | .nop | .join | .exit | .yield => {}
  | .call _ => { swrites := [60] }
  | .bc _ a _ | .jmpi a => { sreads := [a.toNat] }
  | .bdiv a _ => { sreads := tripleN a.toNat }
  | .ret => { sreads := [60] }
  | .vadd t d a b | .vsub t d a b | .vmul t d a b | .vmulhSigned t d a b | .vmulhUnsigned t d a b | .vand t d a b
  | .vor t d a b | .vxor t d a b | .vshl t d a b | .vshr t d a b | .vsra t d a b | .vminSigned t d a b
  | .vminUnsigned t d a b | .vmaxSigned t d a b | .vmaxUnsigned t d a b => opsVec (t == .w64) d a b
  | .vmac t d a b | .vsel t d a b => opsVecRead (t == .w64) d a b
  | .vnot t d a | .vabs t d a | .vneg t d a | .vpopc t d a | .vclz t d a | .vmov t d a =>
    opsVec (t == .w64) d a (.lit 0)
  | .vcmp wide _ s a b => { reads := vN wide a ++ vB1 wide b, swrites := tripleN s.toNat }
  | .vliLit d _ | .vli d _ | .sgetIdLane d => { writes := [d.toNat] }
  | .vaddImm d a _ | .vbfx d a _ _ _ | .vshlImm d a _ | .vshrImm d a _ | .vsraImm d a _ | .vbcast d a _ | .vxshf d a _
  | .vred _ d a | .vscan _ _ d a => { reads := [a.toNat], writes := [d.toNat] }
  | .vbfi d a _ _ => { reads := [a.toNat], inner := [d.toNat], writes := [d.toNat] }
  | .vperm d a b => opsVec false d a b
  | .vballot s a => { reads := [a.toNat], swrites := tripleN s.toNat }
  | .vvote _ s a => { reads := [a.toNat], swrites := [s.toNat] }
  | .vfadd t d a b | .vfsub t d a b | .vfmul t d a b | .vfmin t d a b | .vfmax t d a b | .vfscl t d a b =>
    opsVec (t == .f64) d a b
  | .vfma t d a b | .vfms t d a b => opsVecRead (t == .f64) d a b
  | .vfexp t d a | .vfclass t d a | .vrcp t d a | .vrsq t d a | .vsqrt t d a | .vexp2 t d a | .vlog2 t d a | .vsin t d a
  | .vcos t d a | .vtanh t d a => opsVec (t == .f64) d a (.lit 0)
  | .vf2sum wide d a b =>
    { reads := vN wide a ++ vB1 wide b, writes := List.range' d.toNat (if wide then 4 else 2) }
  | .vfrnd t d a s => { reads := vN (t == .f64) a, inner := [s.toNat], writes := vN (t == .f64) d }
  | .vosmx d a b => { reads := [a.toNat], inner := pairN d.toNat, writes := pairN d.toNat ++ [b.toNat] }
  | .vosms d a => { reads := [a.toNat], inner := pairN d.toNat, writes := [d.toNat + 1] }
  | .vfcmp t _ s a b => { reads := vN (t == .f64) a ++ vB1 (t == .f64) b, swrites := tripleN s.toNat }
  | .vfcvt d a df sf _ => { reads := vN sf.wide a, writes := vN df.wide d }
  | .vfcvtSr d a df sf _ s => { reads := vN sf.wide a, inner := [s.toNat], writes := vN df.wide d }
  | .vld d a b _ _ z | .vldg d a b _ _ z => opsLoad d a b z
  | .vldgPart d a b _ _ z m => { opsLoad d a b z with swrites := tripleN m.toNat }
  | .cvld d a b _ _ z t => { opsLoad d a b z with sreads := t.toNat :: baseN a, inner := vN (z == .d64) d }
  | .vst d a b _ _ z | .vsts d a b _ _ z => opsStore d a b z
  | .cvst d a b _ _ z t => { opsStore d a b z with sreads := t.toNat :: baseN a, inner := vN (z == .d64) d }
  | .lld d a b z => { reads := vB1 false b, writes := vN (z == .d64) d, sreads := [a.toNat] }
  | .lst d a b z => { reads := vN (z == .d64) d ++ vB1 false b, sreads := [a.toNat] }
  | .ald wide d a _ => { writes := vN wide d, sreads := [a.toNat] }
  | .ast wide d a _ => { reads := vN wide d, sreads := [a.toNat] }
  | .sld d a b z _ _ =>
    { sreads := baseN a ++ sB1 b, swrites := if z = .d64 then pairN d.toNat else [d.toNat] }
  | .sst d a b z _ _ =>
    { sreads := (if z = .d64 then pairN d.toNat else [d.toNat]) ++ baseN a ++ sB1 b }
  | .pref a b _ | .cclean a b _ | .cinval a b _ => { sreads := baseN a ++ sB1 b }
  | .fence .. => {}
  | .vatom op ty _ d a b =>
    { reads := vB1 false b, inner := atomRegs op ty d.toNat, writes := atomDest ty d.toNat, sreads := baseN a }
  | .vredm op ty _ d a b => { reads := vB1 false b, inner := atomRegs op ty d.toNat, sreads := baseN a }
  | .lredm op ty _ d a b => { reads := vB1 false b, inner := atomRegs op ty d.toNat, sreads := [a.toNat] }
  | .satom op ty _ d a b =>
    { sreads := atomRegs op ty d.toNat ++ baseN a ++ sB1 b, swrites := atomDest ty d.toNat }
  | .cpy d ch hd hs _ => { swrites := [d.toNat], handles := [hd.toNat, hs.toNat], chan := some ch.toNat }
  | .cpg d ch hd hs _ v | .cps d ch hd hs _ v =>
    { reads := [v.toNat], swrites := [d.toNat], handles := [hd.toNat, hs.toNat], chan := some ch.toNat }
  | .cpm d ch hs _ m => { sreads := [m.toNat], swrites := [d.toNat], handles := [hs.toNat], chan := some ch.toNat }
  | .cpwpRead d ch => { swrites := [d.toNat], chan := some ch.toNat }
  | .cpwpWait d ch k => { sreads := [k.toNat], swrites := [d.toNat], chan := some ch.toNat }
  | .cpwpAck _ k => { sreads := [k.toNat] }
  | .cpwpRecv d _ => { swrites := [d.toNat] }
  | .cpcan ch => { chan := some ch.toNat }
  | .qbind n h _ => { handles := [h.toNat], ports := [120 + n.toNat] }
  | .qclose n => { ports := [120 + n.toNat] }
  | .cvopen d a _ => { sreads := [a.toNat], swrites := [d.toNat] }
  | .cvclose d t | .cvstat d t => { sreads := [t.toNat], swrites := [d.toNat] }
  | .ssint d a b _ | .ssmerge d a b _ _ _ | .ssscan d a b =>
    { sreads := baseN a ++ pairN b.toNat, swrites := [d.toNat] }
  | .spx d a | .nbbin d a => { sreads := baseN a, swrites := [d.toNat] }
  | .nbpairs d a port => { sreads := baseN a, swrites := [d.toNat], ports := [if port then 121 else 120] }
  | .nbstat d => { swrites := [d.toNat] }
  | .emit v _ j _ => { inner := payload v, sreads := [j.toNat] }
  | .emitr v _ r _ => { reads := vB1 false r, inner := payload v }
  | .rget d _ i => { reads := vB1 false i, writes := [d.toNat] }
  | .rdone d => { swrites := [d.toNat] }
  | .futnew d c => { sreads := [c.toNat], swrites := [d.toNat] }
  | .futreg j _ v => { inner := payload v, sreads := [j.toNat] }
  | .futres j n _ => { sreads := [j.toNat, n.toNat] }
  | .futst d j => { sreads := [j.toNat], swrites := [d.toNat] }
  | .dget src _ =>
    match src with
    | .pair a => { sreads := pairN a.toNat }
    | .word _ => {}
  | .barArrive .. | .barWait .. | .barSync .. | .trap _ => {}
  | .rfe d a b | .hcall d a b => { sreads := a.toNat :: sB1 b, swrites := [d.toNat] }
  | .tlbrng d a b | .wsld d a b => { sreads := pairN a.toNat ++ pairN b.toNat, swrites := [d.toNat] }
  | .clkrd d => { swrites := List.range' d.toNat 4 }
  | _ => {}

/-! ## The checks at issue -/

/-- Register n names a bound port of this party (R136). -/
def Party.isPort (q : Party) (n : Nat) : Bool := (q.storePort n).isSome || (q.loadPort n).isSome

/-- Channels of a team (R100). -/
def State.chanCount (s : State) (t : Team) : Nat :=
  match s.node? t with
  | some n => n.chans
  | none => 0

/-- The registers that an instruction touches under a rounding mode: the seed of vfrnd and vfcvt.sr is read and written
under SR alone (R253, R257). -/
def touched (i : Instr) (rnd : Nat) : Operands :=
  match i with
  | .vfrnd .. | .vfcvtSr .. => if rnd = 5 then operands i else { operands i with inner := [] }
  | _ => operands i

/-- The misuses of a bound port (R136, R230, R321, R334, R362): illegal instruction. -/
def portMisuse (o : Operands) (q : Party) : Bool :=
  o.reads.any (fun n => (q.storePort n).isSome) || o.inner.any q.isPort || o.writes.any fun n => (q.loadPort n).isSome

/-- A vector register at or beyond the declared count that is no bound port, a handle register with V = 0, or a
channel beyond the declared count (R134, R140, R100). -/
def outOfRange (o : Operands) (vregs chans : Nat) (t : Team) (q : Party) : Bool :=
  (o.reads ++ o.inner ++ o.writes).any (fun n => decide (vregs ≤ n) && !q.isPort n) ||
    o.handles.any (fun h => !(Store.read t.handles h).getLsbD 0) ||
    (match o.chan with
     | some c => decide (chans ≤ c)
     | none => false)

/-- The register that holds an instruction back on the scoreboard: kind and number (R144, R400). -/
def pendingOperand (o : Operands) (q : Party) : Option (Nat × Nat) :=
  match (o.reads ++ o.inner ++ o.writes ++ o.ports).find? fun n => q.pending.any fun p => p.kind == 0 && p.num == n with
  | some n => some (0, n)
  | none =>
    ((o.sreads ++ o.swrites).find? fun n => n != 0 && q.pending.any fun p => p.kind == 1 && p.num == n).map fun n => (1, n)

/-- The bound load port among the sources whose stream has too few groups ready: only a pair stream can be empty, and an
instruction that names the port twice takes two groups (R136). -/
def emptyPort (o : Operands) (q : Party) : Option Nat :=
  o.reads.find? fun n =>
    match q.loadPort n with
    | some p => p.kind == .pairs && !p.ended && decide (p.groups.length < o.reads.count n)
    | none => false

/-- The accesses of lanes, which an empty ACTIVE leaves without any effect but the drains of their strength (R180). -/
def laneAccess (i : Instr) : Bool :=
  match i with
  | .vld .. | .vldg .. | .vldgPart .. | .cvld .. | .vst .. | .vsts .. | .cvst .. | .lld .. | .lst .. | .ald .. | .ast ..
  | .vatom .. | .vredm .. | .lredm .. => true
  | _ => false

/-- The vector sources that an instruction pops when they name a bound load port: none of an access without lanes. -/
def poppable (i : Instr) (q : Party) (sl : Bool) : List Nat :=
  if laneAccess i && q.active sl == 0 then [] else (operands i).reads

/-- A store stream is full: what has been pushed and is not yet written leaves no room for a group (R136). R136 gives no depth:
it is a constant of the implementation, and a stream with nothing to write takes a group (log entry 33). -/
def Port.full (p : Port) : Bool := !p.unwritten.isEmpty && decide (Config.streamDepth < p.unwritten.length + 96)

/-- The bound store port among the destinations whose stream is full. -/
def fullPort (o : Operands) (q : Party) : Option Nat :=
  o.writes.find? fun n => (q.storePort n).any Port.full

/-- The lanes whose words an instruction reads in its vector operands: ACTIVE, and all of them where lanes are moved. -/
def readLanes (i : Instr) (m : Mask) : List Nat :=
  match i with
  | .vperm .. | .vxshf .. | .vbcast .. => lanes
  | _ => maskLanes m

/-- The vector registers that an instruction reads. -/
def vectorReads (i : Instr) (o : Operands) : List Nat :=
  match i with
  | .cvld .. => o.reads
  | _ => o.reads ++ o.inner

/-- The stack entries that an instruction reads: the one that its path next reaches (R143, R146), and, where the path ends
with another still to come to it, the top one (R148, R149). -/
def stackRead (i : Instr) (q : Party) (sl : Bool) : List Nat :=
  let f := (q.slot sl).frame
  let open_ : Bool := match f.bind fun j => q.stack[j]? with | some e => decide (1 < e.pend) | none => true
  match i with
  | .join => f.toList ++ if f.isSome && open_ then [q.stack.length - 1] else []
  | .exit => f.toList ++ if open_ && !q.stack.isEmpty then [q.stack.length - 1] else []
  | _ => []

/-- The fault of an instruction that reads a word of a vector register (SUB 2) or of the reconvergence stack (SUB 3) with
an uncorrectable error (R71). -/
def poisonedOperand (i : Instr) (o : Operands) (q : Party) (sl : Bool) : Option Cause :=
  if q.vPoison.isEmpty && q.stackPoison.isEmpty then none
  else
    match (readLanes i (q.active sl)).find? fun l => (vectorReads i o).any fun n => q.vPoison.contains (96 * n + l) with
    | some l => some { cause := 0x0F, sub := 2, lane := some l }
    | none => if (stackRead i q sl).any q.stackPoison.contains then some { cause := 0x0F, sub := 3 } else none

/-- What the checks at issue decide for an instruction of a party. -/
inductive Gate where
  | go
  | fault (c : Cause)
  | wait (w : Wait)
deriving DecidableEq, Repr

/-- A register of ex0 to ex2 that an instruction of the slot has yet to write: it holds the slot, whose next instruction
issues under the new mask (R144, R145). -/
def pendingMask (q : Party) (sl : Bool) : Option Nat :=
  (q.pending.find? fun x =>
    x.kind == 1 && decide (61 ≤ x.num) && !q.accesses.any fun a => a.id == x.op && a.slot != sl).map Pending.num

/-- The checks at issue, in the order of R171: misuse of a port, ranges, then the scoreboard and the ports, then errors in
the words that are read. The misuse of a port is an illegal instruction, which R171 does not place against the class
mismatch: the model finds it after the class has passed (log entry 53). -/
def State.gate (s : State) (i : Instr) (t : Team) (q : Party) (sl : Bool) : Gate :=
  let o := touched i (fld (q.slot sl).mode 0 3).toNat
  if portMisuse o q then .fault illegalInstruction
  else if outOfRange (operands i) (s.vregCount t) (s.chanCount t) t q then .fault registerRange
  else
    match pendingOperand (operands i) q with
    | some (k, n) => .wait (.scoreboard k n)
    | none =>
      match pendingMask q sl with
      | some n => .wait (.scoreboard 1 n)
      | none =>
        match (emptyPort { o with reads := poppable i q sl } q).or
            (if laneAccess i && q.active sl == 0 then none else fullPort o q) with
        | some n => .wait (.port (n - 120))
        | none =>
          match poisonedOperand i o q sl with
          | some c => .fault c
          | none => .go

/-! ## Pops (R136, R207) -/

/-- An element of a load stream widened into a 32-bit lane (R207), and the warn bits of the conversion: INV of a signalling
NaN, TRNRES. DESIGN CHOICE: R207 names no mode, and the model flushes no subnormal element, whatever the SUB of the slot
that pops (log entry 54). -/
def widen (c : Cvt) (x : Nat) : Word × Word :=
  match c with
  | .fp32 | .i32 => (BitVec.ofNat 32 x, 0)
  | .f19 => (BitVec.ofNat 32 (x >>> 13 <<< 13), 0)
  | .int8 | .int4 | .uint8 => (BitVec.ofInt 32 (c.unpack x).toInt, 0)
  | .trn2 => (BitVec.ofInt 32 (c.unpack x).toInt, when (x % 4 == 2) wTRNRES)
  | _ => let (y, f) := convert c .fp32 .plain false x; (BitVec.ofNat 32 y, f)

/-- A group of a stream: its words, the lanes whose element is poisoned with its address, and the warn bits. -/
structure Group where
  words : List Word
  bad : List (Nat × Nat)
  warn : Word
deriving DecidableEq, Repr

/-- The next group of a tile's load stream: 96 elements in row-major order from `pos`, zeros beyond the last. -/
def State.streamGroup (s : State) (tid : Nat) (h : Handle) (c : Cvt) (pos n : Nat) (g : Group) : State × Except Cause Group :=
  match n with
  | 0 => (s, .ok g)
  | n + 1 =>
    if hRows h * hCols h ≤ pos then s.streamGroup tid h c (pos + 1) n { g with words := g.words ++ [0] }
    else
      match s.readElem tid h (pos / hCols h) (pos % hCols h) with
      | (s, .error e) => (s, .error e)
      | (s, .ok (x, p)) =>
        s.streamGroup tid h c (pos + 1) n
          { words := g.words ++ [(widen c x).1]
            bad := if p then g.bad ++ [(g.words.length, (elemPos h (pos / hCols h) (pos % hCols h)).1)] else g.bad
            warn := g.warn ||| (widen c x).2 }

/-- The port after a group has been taken, or none when its stream has ended (R207, R216). -/
def Port.popped (p : Port) : Option Port :=
  match p.kind with
  | .pairs =>
    let g := p.groups.drop 1
    if g.isEmpty && p.ended then none else some { p with groups := g, pos := p.pos + 96 }
  | _ => if p.total ≤ p.pos + 96 then none else some { p with pos := p.pos + 96 }

/-- Takes one group from the bound load port that register n names: active lanes receive their element, and a port
whose stream has ended is unbound (R136). A second group for one register is VB's. A poisoned element that an active lane
receives is the fault of the load into the register (R71); any other fault is the stream's. DESIGN CHOICE: where VA's group is
the last of the stream that VB names too, VB pops nothing and reads the register as VA's pop has left it, whatever the declared
count; R136 and R230 do not say (log entry 73). -/
def State.popOne (s : State) (tid p : Nat) (sl second : Bool) (n : Nat) : State × Option (Cause × Option Origin) :=
  match s.party? tid p with
  | none => (s, none)
  | some q =>
    match q.loadPort n with
    | none => (s, none)
    | some port =>
      let put (s : State) (g : List Word) (w : Word) : State :=
        s.modParty tid p fun q =>
          { q with
            vregs := if second then q.vregs else writeLanes q.vregs n (fun l => g.getD l 0) (maskLanes (q.active sl))
            popB := if second then Map.set q.popB n g else q.popB
            warn := q.warn ||| w
            ports := match port.popped with
              | some p' => Map.set q.ports (n - 120) p'
              | none => Map.drop q.ports (n - 120) }
      match port.kind with
      | .pairs => (put s (port.groups.headD []) 0, none)
      | _ =>
        match s.streamGroup tid port.handle ((hCvt port.handle).getD .fp32) port.pos 96 ⟨[], [], 0⟩ with
        | (s, .error c) => (s, some (c, some port.origin))
        | (s, .ok g) =>
          match g.bad.find? fun x => inMask (q.active sl) x.1 with
          | some x => (s, some ({ cause := 0x0F, lane := some x.1, addr := some (x.2 % 2 ^ 57) }, none))
          | none => (put s g.words g.warn, none)

/-- Takes the groups of every source that names a bound load port, in operand order. -/
def State.popAll (s : State) (tid p : Nat) (sl : Bool) (seen ns : List Nat) : State × Option (Cause × Option Origin) :=
  match ns with
  | [] => (s, none)
  | n :: t =>
    match s.popOne tid p sl (seen.contains n) n with
    | (s, some e) => (s, some e)
    | (s, none) => s.popAll tid p sl (n :: seen) t

/-- After the instruction, the register of a port holds the last group popped from it, in the lanes that were active at issue
(R136). -/
def Party.lastPops (q : Party) (m : Mask) : Party :=
  if q.popB.isEmpty then q
  else
    { q with
      vregs := q.popB.foldl (fun r x => writeLanes r x.1 (fun l => x.2.getD l 0) (maskLanes m)) q.vregs
      popB := [] }

/-! ## Issuing an instruction of a party -/

/-- The slot that issues: team, party, PC slot. -/
structure Issuer where
  tid : Nat
  p : Nat
  sl : Bool
deriving DecidableEq, Repr

/-- The same as `cur` names it. -/
def Issuer.who (w : Issuer) : Who := .party w.tid w.p w.sl

/-- The party that `cur` names. -/
def State.issuer (s : State) : Option (Issuer × Team × Party) :=
  match s.cur with
  | some (.party tid p sl) =>
    match Map.find s.teams tid with
    | some t =>
      match Map.find t.parties p with
      | some q => some (⟨tid, p, sl⟩, t, q)
      | none => none
    | none => none
  | _ => none

/-- The place of a fault at an instruction of a party (R398). -/
def originOf (w : Issuer) (q : Party) (word : Word) : Origin :=
  { pc := (q.slot w.sl).pc, clause := (q.slot w.sl).clauseAddr, word := word, party := some w.p, slot := w.sl }

/-- A fault at an instruction of a party; WAITON records the other slot's wait (R400). -/
def State.faultAt (s : State) (w : Issuer) (q : Party) (word : Word) (c : Cause) : State :=
  s.takeFault w.tid (originOf w q word) c false false (q.slot (!w.sl)).wait

/-- The slot records what it waits on and keeps its place. -/
def State.waitOn (s : State) (w : Issuer) (x : Wait) : State :=
  s.modParty w.tid w.p fun q => q.modSlot w.sl fun y => { y with wait := x }

/-- How an instruction of a party ends: done, with the program counter still to advance; done with control flow of its
own; waiting with what it has begun kept; held with nothing begun; or with a fault. -/
inductive Effect where
  | done (s : State)
  | flow (s : State)
  | wait (s : State) (w : Wait)
  | hold (w : Wait)
  | fault (s : State) (c : Cause)
deriving DecidableEq, Repr

/-- The end of an instruction that began in state `s`: the program counter moves, the slot waits, or the fault is
taken. -/
def finish (i : Instr) (s : State) (w : Issuer) (q : Party) (e : Effect) : State :=
  match e with
  | .done s => s.modParty w.tid w.p fun q => q.advance w.sl i.size
  | .flow s => s
  | .wait s x => s.waitOn w x
  | .hold x => s.waitOn w x
  | .fault s c => s.faultAt w q i.word c

/-- The state that an effect leaves. -/
def Effect.state? (e : Effect) : Option State :=
  match e with
  | .done s | .flow s | .wait s _ | .fault s _ => some s
  | .hold _ => none

/-- The step of an instruction that waits for a closed bank or a walker (R35, R62) is undone: the slot waits, in the state
before the step with the misses and the wants of the step. -/
def Effect.unstuck (e : Effect) (s : State) (who : Who) (o : Origin) : Effect :=
  match e.state? with
  | some r => if r.stuck then .wait (s.undo (some who) o r) .memory else e
  | none => e

/-- An instruction of a party: nothing for a party that has stopped or a slot without a path; else the checks at
issue, the pops, the effect. The effect is given the state after the pops. An
instruction that waits with part of it done goes straight to its effect. -/
def runParty (i : Instr) (s : State) (effect : Issuer → State → Effect) : Host.Outcome State Fault Refusal :=
  match s.issuer with
  | none => .fault .noIssuer
  | some (w, t, q) =>
    if !t.running || !(q.slot w.sl).live then .next s
    else if (q.slot w.sl).wait.begun then .next (finish i s w q ((effect w s).unstuck s w.who (originOf w q i.word)))
    else
      match s.gate i t q w.sl with
      | .fault c => .next (s.faultAt w q i.word c)
      | .wait x => .next (s.waitOn w x)
      | .go =>
        let reads := poppable i q w.sl
        if reads.any fun n => (q.loadPort n).isSome then
          match s.popAll w.tid w.p w.sl [] reads with
          | (s', some (c, o)) =>
            .next (if s'.stuck then (s.undo (some w.who) (originOf w q i.word) s').waitOn w .memory
              else
                match o with
                | some o => s'.takeFault w.tid o c true true (q.slot (!w.sl)).wait
                | none => s'.faultAt w q i.word c)
          | (s', none) =>
            .next ((finish i s w q ((effect w s').unstuck s w.who (originOf w q i.word))).modParty w.tid w.p fun r =>
              r.lastPops (q.active w.sl))
        else .next (finish i s w q ((effect w s).unstuck s w.who (originOf w q i.word)))

/-- An instruction whose effect lies in its party's registers alone. -/
def runRegs (i : Instr) (s : State) (f : Bool → Party → Party) : Host.Outcome State Fault Refusal :=
  runParty i s fun w s => .done (s.modParty w.tid w.p (f w.sl))

/-- The team and the party of an issuer. -/
def State.site (s : State) (w : Issuer) : Option (Team × Party) :=
  match Map.find s.teams w.tid with
  | some t =>
    match Map.find t.parties w.p with
    | some q => some (t, q)
    | none => none
  | none => none

/-- An instruction whose effect needs its team and its party, as they are after the pops. -/
def runTeam (i : Instr) (s : State) (f : Issuer → Team → Party → State → Effect) : Host.Outcome State Fault Refusal :=
  runParty i s fun w s =>
    match s.site w with
    | some (t, q) => f w t q s
    | none => .done s

end Sys2Proof.Machine
end

