-- ==== Sys2Proof/Machine/Order.lean ====
section
/-!
DEFINITION. Access order: what an access's strength and scope execute as (R172, R182), what a release waits for and
drains (R53, R305, R319), what holds an access back, requests to peers, and reading and writing translated addresses.
-/

namespace Sys2Proof.Machine

open Sys2Proof

/-! ## Strength, scope, policy -/

/-- What an access executes as, and the warn bits of a fallback. -/
structure Eff where
  str : Strength
  scope : Scope
  warn : Word
deriving DecidableEq, Repr

/-- The families of the fallback table (R172). -/
inductive OrdForm where
  | load | gather | store | scatter | atomic
deriving DecidableEq, Repr

/-- The strength that a strength executes as. -/
def OrdForm.strength (f : OrdForm) (x : Strength) : Strength :=
  match f with
  | .load => match x with | .rel => .st | .ar => .acq | y => y
  | .gather => match x with | .rel | .acq | .ar => .st | y => y
  | .store => match x with | .acq => .st | .ar => .rel | y => y
  | .scatter => match x with | .acq | .rel | .ar => .st | y => y
  | .atomic => match x with | .wk => .st | y => y

/-- What an order word executes as (R172): no order word is a weak access. -/
def OrdForm.eff (f : OrdForm) (o : Option Ord) : Eff :=
  match o with
  | none => ⟨.wk, .pt, 0⟩
  | some o =>
    let x := f.strength o.str
    if x = .wk then ⟨.wk, .pt, when (o.scope != .pt) wFALLBK⟩
    else if o.scope = .dvRem ∧ (o.str ≠ .acq ∨ x ≠ .acq) then ⟨x, .dv, wFALLBK⟩
    else ⟨x, o.scope, when (x != o.str) wFALLBK⟩

/-- The family of an outstanding access. -/
def AccKind.form : AccKind → OrdForm
  | .vld | .sld | .cvld | .futst => .load
  | .vldg => .gather
  | .vsts => .scatter
  | .vatom | .satom => .atomic

/-- POLICY of a cache policy on a page of a memory type (R55). -/
def policyWarn (p : Policy) (mt : Nat) : Word := when (decide (2 ≤ mt) && p != .cn) wPOLICY

/-- Scopes at which a release drains the write-combining buffer (R53): cluster or wider. -/
def Scope.wide : Scope → Bool
  | .pt | .tm => false
  | _ => true

/-! ## What a release waits for -/

/-- A store stream that takes no more pushes has writes yet to perform (R209). -/
def Party.draining (q : Party) : Option Nat :=
  (q.ports.find? fun x => x.2.kind == .store && x.2.ended).map Prod.fst

/-- The wait for the party's accesses that have issued and are not performed. -/
def Party.unperformed (q : Party) : Option Wait :=
  match q.accesses.head? with
  | some _ => some .memory
  | none =>
    match q.remote.head? with
    | some r => some (.fabric r)
    | none => q.draining.map .qclose

/-- The release side (R305, R319): the party's reductions are applied, the core's write-combining entries drain for a
scope of a cluster or wider, and the release waits while an earlier access of the party is not performed, one that the
directory holds among them. -/
def State.release (s : State) (core tid p : Nat) (q : Party) (scope : Scope) : State × Option Wait :=
  if scope = .pt then (s, if q.accesses.isEmpty then none else some .memory)
  else
    let s := s.applyReductions fun e => e.owners.contains (tid, p)
    if Scope.wide scope then
      let s := s.drain core fun _ => true
      (s, q.unperformed.or (if s.holdsOf core then some .memory else none))
    else (s, q.unperformed)

/-- An acquire of the party has issued and is not performed, or a store stream that has ended is not written: no later
access may be performed (R209, R305). -/
def Party.acquiring (q : Party) : Bool :=
  q.draining.isSome || (q.accesses.any fun a => let e := a.kind.form.eff (some a.ord); e.str == .acq || e.str == .ar) ||
    q.acquires.any q.remote.contains

/-- The promotion that an acquire at .dv.rem makes first (R311): every core drains its write-combining buffer; the acquire
waits while the directory holds some of it. -/
def State.promote (s : State) (on : Bool) : State × Bool :=
  if on then let s := s.drainEvery fun _ => true; (s, !s.heldStores.isEmpty) else (s, false)

/-! ## Overlap -/

/-- Two runs of bytes overlap. -/
def overlap (a n b m : Nat) : Bool := decide (a < b + m ∧ b < a + n)

/-- Where a target lies now: its owning peer and its address there, at the new location while its page migrates (R45). -/
def State.placeOf (s : State) (t : Target) : Option Nat × Nat :=
  match t.peer with
  | some r => (some r, t.pa)
  | none =>
    match s.migration? t.pa with
    | some m => (m.rank, m.newFrame + (t.pa - m.oldFrame))
    | none => (none, t.pa)

/-- A lane of an outstanding access touches the bytes of another lane. -/
def State.lanesMeet (s : State) (x y : LaneAcc) (n m : Nat) : Bool :=
  match x.tgt, y.tgt with
  | some t, some u => (s.placeOf t).1 == (s.placeOf u).1 && overlap (s.placeOf t).2 n (s.placeOf u).2 m
  | _, _ => overlap x.va n y.va m

/-- An outstanding access of the party touches the same bytes, where one of the two writes (R305). -/
def State.conflicts (s : State) (q : Party) (writes : Bool) (ls : List LaneAcc) (n : Nat) : Bool :=
  q.accesses.any fun a =>
    (writes || a.kind == .vsts) && a.lanes.any fun x => ls.any fun y => s.lanesMeet x y (Size.bytes a.size) n

/-- Some lane reaches a page of type DEV, whose accesses keep the party's program order (R56). -/
def hasDev (ls : List LaneAcc) : Bool := ls.any fun x => match x.tgt with | some t => t.mt == 3 | none => false

/-- The same of an access that has issued: a lane that still waits for its translation may prove to reach one. -/
def mayDev (ls : List LaneAcc) : Bool := hasDev ls || ls.any fun x => x.tgt.isNone && x.failed.isNone

/-- A store of the party to a DEV page of a peer is not yet performed. -/
def State.devOut (s : State) (tid p : Nat) : Bool :=
  s.outstanding.any fun o => o.dev && o.access.isNone && o.tid == tid && o.party == some p

/-- A DEV access waits for the party's earlier accesses that are DEV or may prove to be (R56). -/
def State.devHold (s : State) (tid p : Nat) (q : Party) (ls : List LaneAcc) : Bool :=
  hasDev ls && (s.devOut tid p || q.accesses.any fun a => mayDev a.lanes)

/-- Some lane's line is owned by an engine command: the access is held at the directory (R52). -/
def State.heldLines (s : State) (ls : List LaneAcc) : Bool :=
  ls.any fun x => match x.tgt with | some t => t.peer.isNone && s.owned t.pa | none => false

/-! ## Requests to peers (R441 to R450) -/

/-- The party's last request to a DEV page that is not complete: lanes go to such pages one at a time, in order. -/
def State.lastDev (s : State) (tid p : Nat) : Option Nat :=
  ((s.outstanding.filter fun o => o.dev && o.tid == tid && o.party == some p).getLast?).map Outstanding.id

/-- A party's write to a peer: performed once the peer has answered. `acq` says that later accesses wait for it, `dev` that
it reaches a DEV page. -/
def State.peerWrite (s : State) (tid p : Nat) (o : Origin) (dst addr : Nat) (op : FabOp) (va : Nat) (acq : Bool := false)
    (dev : Bool := false) : State :=
  let (s, id) := s.request tid (some p) none o dst addr op (some va) (dev := dev)
    (after := if dev then s.lastDev tid p else none)
  s.modParty tid p fun q =>
    { q with remote := q.remote ++ [id]
             acquires := if acq then id :: q.acquires.filter q.remote.contains else q.acquires }

/-! ## The coalescer (R442) -/

/-- `n` bytes of a line from an offset on. -/
def byteMask (off n : Nat) : BitVec 256 := BitVec.ofNat 256 ((2 ^ n - 1) * 2 ^ off)

/-- A line that holds some bytes from an offset on, and is zero elsewhere. -/
def lineOf (off : Nat) (bs : List Byte) : BitVec 2048 := BitVec.ofNat 2048 (ofBytes bs * 2 ^ (8 * off))

/-- The bits of a line's data that its byte mask selects. -/
def lineBits (m : BitVec 256) : BitVec 2048 :=
  BitVec.ofNat 2048 (ofBytes ((List.range 256).map fun k => if m.getLsbD k then 0xFF else 0))

/-- A line with the masked bytes of a later write in place of its own. -/
def lineOver (old : BitVec 2048) (m : BitVec 256) (new : BitVec 2048) : BitVec 2048 :=
  (old &&& ~~~ lineBits m) ||| (new &&& lineBits m)

/-- One request for the bytes of two, the second a higher lane's. -/
def joinLine (x y : FabOp) : Option FabOp :=
  match x, y with
  | .readLine m, .readLine k => some (.readLine (m ||| k))
  | .writeLine m d, .writeLine k e => some (.writeLine (m ||| k) (lineOver d k e))
  | .cvstore c v m d, .cvstore c' v' k e =>
    if c = c' ∧ v = v' then some (.cvstore c v (m ||| k) (lineOver d k e)) else none
  | .cvload t m, .cvload u k => if t = u then some (.cvload t (m ||| k)) else none
  | _, _ => none

/-- The state in which a request that this instruction has made for the same line, one since the number `since`, carries a
lane's bytes too. -/
def State.coalesce (s : State) (since tid p dst line : Nat) (lane : List (Nat × Nat)) (op : FabOp) : Option State :=
  let same (o : Outstanding) : Bool :=
    decide (since ≤ o.id) && !o.dev && o.tid == tid && o.party == some p && o.req.dst == dst && o.req.addr == line &&
      (joinLine o.req.op op).isSome
  let more (o : Outstanding) : Outstanding :=
    { o with lanes := o.lanes ++ lane, req := { o.req with op := (joinLine o.req.op op).getD op } }
  if s.outstanding.any same then some { s with outstanding := s.outstanding.map fun o => if same o then more o else o }
  else none

/-- A lane's store to a peer: part of the request for its line, or a request of its own on a DEV page. -/
def State.storePeer (s : State) (since tid p : Nat) (o : Origin) (dst addr mt : Nat) (bs : List Byte) (va : Nat) : State :=
  if mt = 3 then s.peerWrite tid p o dst addr (.write bs) va (dev := true)
  else
    let line := addr / 256 * 256
    let op : FabOp := .writeLine (byteMask (addr % 256) bs.length) (lineOf (addr % 256) bs)
    match s.coalesce since tid p dst line [] op with
    | some s => s
    | none => s.peerWrite tid p o dst line op va

/-! ## Reading and writing at a translated address -/

/-- What a read of `n` bytes at a target finds: the value with its poison, a peer that must be asked, or a line that an
engine owns or whose weight-store bank is closed (R62). -/
inductive Found where
  | value (x : Nat) (poison : Bool)
  | peer (rank addr : Nat)
  | held
deriving DecidableEq, Repr

/-- Reads `n` bytes at a target (R45, R52, R53). A weak read sees what its core has buffered; a strong one is performed at
the home L2 (R54, R304), its core's buffered bytes of the line having drained to it. -/
def State.readTarget (s : State) (core : Nat) (strong : Bool) (t : Target) (lane n : Nat) : State × Found :=
  match t.peer with
  | some r => (s, .peer r t.pa)
  | none =>
    if s.owned t.pa then (s, .held)
    else
      match s.settle t.pa with
      | (s, some r, pa) => (s, .peer r pa)
      | (s, none, pa) =>
        let s := (if strong then s.drain core fun e => e.line == pa / 64 else s).reach pa n
        if s.bankClosed pa then (s, .held)
        else if regionOf pa = .device then let (s, x) := s.registerRead pa lane n; (s, .value x false)
        else (s, .value (s.coreBytes core pa n) (s.poisoned pa n))

/-- Stores lanes in order, each a target, a virtual address and a value: to the write-combining buffer on WB and WT pages,
past it on UC and DEV pages (R53), to the peer for a peer's page. A lane on a DEV page of this device that follows one on a
DEV page of a peer waits for it: a request of the device to itself (R182). -/
def State.storeEach (s : State) (since core tid p : Nat) (o : Origin) (n : Nat) (ls : List (Target × Nat × Nat)) : State :=
  match ls with
  | [] => s
  | (t, va, x) :: rest =>
    let bs := toBytes n x
    match t.peer with
    | some r => (s.storePeer since tid p o r t.pa t.mt bs va).storeEach since core tid p o n rest
    | none =>
      match s.settle t.pa with
      | (s, some r, pa) => (s.storePeer since tid p o r pa t.mt bs va).storeEach since core tid p o n rest
      | (s, none, pa) =>
        let s :=
          if t.mt = 3 ∧ (s.lastDev tid p).isSome then s.storePeer since tid p o s.rank.toNat pa 3 bs va
          else if 2 ≤ t.mt ∨ regionOf pa = .device then (s.drain core fun e => e.line == pa / 64).poke pa bs
          else s.wcbStore core (tid, p) pa bs
        s.storeEach since core tid p o n rest

/-- The 64-byte sectors of this device that one instruction's stores cover whole. -/
def coveredSectors (n : Nat) (ls : List (Target × Nat × Nat)) : List Nat :=
  let own := (ls.filter fun u => u.1.peer.isNone).map fun u => u.1.pa
  ((own.map fun a => a / 64).dedup).filter fun k =>
    (List.range 64).all fun b => own.any fun a => decide (a ≤ 64 * k + b ∧ 64 * k + b < a + n)

/-- The stores of one instruction, whose requests to peers are those made since a number. Sectors that it writes whole lose
their poison (R71). -/
def State.storeLanes (s : State) (core tid p : Nat) (o : Origin) (n : Nat) (ls : List (Target × Nat × Nat))
    (since : Nat := s.nextId) : State :=
  let s := s.storeEach since core tid p o n ls
  if s.poison.isEmpty then s
  else (coveredSectors n ls).foldl (fun s k =>
    match s.settle (64 * k) with
    | (s, none, pa) => { s with poison := s.poison.filter (· != pa / 64) }
    | (s, some _, _) => s) s

/-! ## Lane addresses -/

/-- The lane that a fault names: none for a scalar access. -/
def laneName (l : Nat) : Option Nat := if l < 96 then some l else none

/-- The first lane whose address is no multiple of `n` (R179). -/
def misaligned (n : Nat) (as : List (Nat × DWord)) : Option Cause :=
  (as.find? fun a => a.2.toNat % n != 0).map fun a =>
    { cause := 0x05, lane := laneName a.1, addr := some (a.2.extractLsb' 0 57).toNat }

/-- The first lane whose address is not canonical: an address is checked as it is formed (R22, R178). -/
def notCanonical (tag : BitVec 16) (as : List (Nat × DWord)) : Option Cause :=
  (as.find? fun a => (canonical a.2).isNone).map fun a =>
    { translationFault 1 tag with lane := laneName a.1, addr := some (a.2.extractLsb' 0 57).toNat }

/-- The checks of addresses before any translation: R22, then alignment. -/
def badAddress (tag : BitVec 16) (n : Nat) (as : List (Nat × DWord)) : Option Cause :=
  (notCanonical tag as).or (misaligned n as)

/-- Translates lanes in order: all, or the cause of the lowest lane that fails R27 or R28. -/
def State.translateAll (s : State) (core : Nat) (tag : BitVec 16) (priv : Bool) (u : Use) (as : List (Nat × DWord)) :
    State × Except Cause (List LaneAcc) :=
  match as with
  | [] => (s, .ok [])
  | (l, a) :: rest =>
    match s.translate core tag priv u a with
    | (s, .error c) => (s, .error { c with lane := laneName l })
    | (s, .ok t) =>
      match s.translateAll core tag priv u rest with
      | (s, .error c) => (s, .error c)
      | (s, .ok ls) =>
        (s, .ok ({ lane := l, va := (a.extractLsb' 0 57).toNat, tgt := some t, failed := none, val := none } :: ls))

/-- The cause of the lowest lane whose walk fails under R27. -/
def State.walkFault (s : State) (core : Nat) (tag : BitVec 16) (as : List (Nat × DWord)) : Option Cause :=
  as.findSome? fun (l, a) =>
    match s.entryFor core tag (a.extractLsb' 0 57).toNat with
    | (_, .error c) => some { c with lane := laneName l }
    | (_, .ok _) => none

/-- Translates the lanes of a store or an atomic: R27 on every lane before R28 on any (R171). -/
def State.translateStores (s : State) (core : Nat) (tag : BitVec 16) (priv : Bool) (as : List (Nat × DWord))
    (u : Use := .store) : State × Except Cause (List LaneAcc) :=
  match s.translateAll core tag priv u as with
  | (s', .error c) => (s', .error ((s.walkFault core tag as).getD c))
  | r => r

/-- POLICY of every lane on a page of this device: on a peer's page the policy has no effect and sets no bit (R443). -/
def lanesPolicy (p : Policy) (ls : List LaneAcc) : Word :=
  ls.foldl (fun w x => match x.tgt with | some t => if t.peer.isSome then w else w ||| policyWarn p t.mt | none => w) 0

/-- The active lanes with their effective addresses. -/
def Party.eaLanes (q : Party) (sl : Bool) (a : SReg) (b : BOp) : List (Nat × DWord) :=
  (maskLanes (q.active sl)).map fun l => (l, q.ea sl a b l)

end Sys2Proof.Machine
end

