-- ==== Sys2Proof/Machine/Versions.lean ====
section
/-!
DEFINITION. The versions of convoy lines (R324 to R329): the front in memory, the retained and the pending version, and
what a view reads.
-/

namespace Sys2Proof.Machine

open Sys2Proof

/-- The sidecar of a line that no convoy has written. -/
def Sidecar.none : Sidecar := { chk := 0, nv := 0, stamp := 0, comp := 0, ver := 0, cid := 0 }

/-- A sidecar with the check bits of its other fields. -/
def Sidecar.sealed (c : Sidecar) : Sidecar :=
  { c with chk := Config.checkBits (c.nv ++ c.stamp ++ c.comp ++ c.ver ++ c.cid) }

/-- A convoy line by its number, physical address / 256. -/
def State.cvLine (s : State) (line : Nat) : CvLine :=
  (Map.find s.cvLines line).getD { front := Sidecar.none, retained := Option.none, pending := Option.none }

/-- The line with NV of its front, the number of versions it holds. -/
def CvLine.counted (l : CvLine) : CvLine :=
  let n : BitVec 2 := 1 + (if l.retained.isSome then 1 else 0) + (if l.pending.isSome then 1 else 0)
  { l with front := { l.front with nv := n }.sealed }

/-- The pending version is one of a convoy. -/
def CvLine.pends (l : CvLine) (cid : BitVec 24) (ver : Word) : Bool :=
  l.pending.any fun v => v.side.cid == cid && v.side.ver == ver

/-- The 256 bytes of a line's front. -/
def State.lineBytes (s : State) (line : Nat) : List Byte := (List.range 256).map fun k => s.byte (256 * line + k)

/-- tbase in whole nanoseconds. -/
def State.ns (s : State) : Nat := s.tbase.toNat / 256

/-- The time-base bound in nanoseconds (R453): 1 ms before the first lock, 100 ns while locked, growing by 20 ns for each
millisecond of holdover. -/
def State.bound (s : State) : Nat :=
  if s.locked then 100
  else if s.holdover ∨ s.lostAt ≠ 0 then 100 + 20 * ((s.tbase.toNat - s.lostAt) / 256000000)
  else 1000000

/-- A version that a view stamp reaches: its convoy committed at or below it, or no convoy wrote it (R327). STAMP holds
52 bits: of two stamps the one less than 2^51 nanoseconds ahead of the other is the later (DEDUCED, log entry 11). -/
def Sidecar.seen (c : Sidecar) (t : Nat) : Bool := c.cid == 0 || decide ((BitVec.ofNat 52 t - c.stamp).toNat < 2 ^ 51)

/-- Table slot of a convoy identity, and the rank of its home (R324). -/
def cidSlot (cid : BitVec 24) : Nat := cid.toNat % 4096
def cidRank (cid : BitVec 24) : Nat := cid.toNat / 4096

/-- The home of a line's pending version may have tbase at or below a view stamp: a peer's tbase lies within the bound of
this device's (R327, R453; DEDUCED, log entry 11). -/
def State.mayCommitBelow (s : State) (v : CvVersion) (stamp : Nat) : Bool :=
  decide (s.ns ≤ stamp + if cidRank v.side.cid = s.rank.toNat then 0 else s.bound)

/-- What a view reads in a line: it waits, or the value, its poison, and whether the view is lost. -/
inductive ViewRead where
  | wait
  | value (x : Nat) (poison lost : Bool)
deriving DecidableEq, Repr

/-- Bytes of a version in the retention store, with their poison. -/
def CvVersion.read (v : CvVersion) (pa n : Nat) (lost : Bool) : ViewRead :=
  .value (ofBytes ((v.bytes.drop (pa % 256)).take n)) ((sectorsOf pa n).any fun k => v.bad.contains (k % 4)) lost

/-- A cvld of `n` bytes at an address under a view stamp (R327). -/
def State.viewRead (s : State) (pa n stamp : Nat) : ViewRead :=
  let l := s.cvLine (pa / 256)
  let front (lost : Bool) : ViewRead := .value (bytesFrom s.mem pa n) (s.poisoned pa n) lost
  if l.pending.any fun v => s.mayCommitBelow v stamp then .wait
  else if l.front.seen stamp then front false
  else
    match l.retained with
    | some v => if v.side.seen stamp then v.read pa n false else front true
    | none => front true

/-- Versions in the retention store of a die (R325). -/
def State.retained (s : State) (die : Nat) : Nat :=
  s.cvLines.foldl (fun n l =>
    if homeDie (256 * l.1) = die then n + (if l.2.retained.isSome then 1 else 0) + (if l.2.pending.isSome then 1 else 0)
    else n) 0

/-- The poisoned sectors of a line, 0 to 3. -/
def State.badSectors (s : State) (line : Nat) : List Nat := (List.range 4).filter fun k => s.poison.contains (4 * line + k)

/-- Lines with a pending version of a convoy. -/
def State.pendingOf (s : State) (cid : BitVec 24) (ver : Word) : List Nat :=
  (s.cvLines.filter fun l => l.2.pends cid ver).map Prod.fst

/-- A store of a convoy into a line of this device (R334): the subcause of the abort, or the line's pending version with
the bytes written; the first store to a line copies the front. COMP of a pending version counts the lines that the convoy
has on this device when the version is made (log entry 51). `source` is the peer whose convoy it is. -/
def State.pendStore (s : State) (cid : BitVec 24) (ver : Word) (pa : Nat) (bs : List Byte) (source : Option Nat := none) :
    Except Nat State :=
  let line := pa / 256
  let l := s.cvLine line
  let put (old : List Byte) : List Byte := old.take (pa % 256) ++ bs ++ old.drop (pa % 256 + bs.length)
  match l.pending with
  | some v =>
    if l.pends cid ver then
      .ok { s with cvLines := Map.set s.cvLines line { l with pending := some { v with bytes := put v.bytes } } }
    else .error 2
  | none =>
    if s.retCap ≤ s.retained (homeDie pa) then .error 3
    else
      let s := s.reach (256 * line) 256
      let side : Sidecar :=
        { chk := 0, nv := 0, stamp := -1, comp := BitVec.ofNat 10 (s.pendingOf cid ver).length, ver := ver, cid := cid }
      let v : CvVersion := { side := side.sealed, bytes := put (s.lineBytes line), bad := s.badSectors line }
      .ok { s with cvLines := Map.set s.cvLines line { l with pending := some v, source := source }.counted }

/-- A sector of a pending version that one instruction has written whole is not poisoned (R71). -/
def State.cleanPending (s : State) (cid : BitVec 24) (ver : Word) (sector : Nat) : State :=
  { s with cvLines := Map.update s.cvLines (sector / 4) fun l =>
      if l.pends cid ver then
        { l with pending := l.pending.map fun v => { v with bad := v.bad.filter (· != sector % 4) } }
      else l }

/-- The commit of one line (R326): the pending version becomes the front and the front is retained. -/
def State.commitLine (s : State) (line : Nat) (stamp comp : Nat) : State :=
  let l := s.cvLine line
  match l.pending with
  | none => s
  | some v =>
    let s := s.reach (256 * line) 256
    let old : CvVersion := { side := l.front, bytes := s.lineBytes line, bad := s.badSectors line }
    let front : Sidecar := { v.side with stamp := BitVec.ofNat 52 stamp, comp := BitVec.ofNat 10 comp }
    { s with
      mem := writeBytes s.mem (withAddr (256 * line) v.bytes)
      poison := (s.poison.filter fun k => k / 4 != line) ++ v.bad.map fun k => 4 * line + k
      cvLines := Map.set s.cvLines line ({ front := front, retained := some old, pending := none } : CvLine).counted }

/-- Every pending version of a convoy becomes the front of its line. -/
def State.commitLines (s : State) (cid : BitVec 24) (ver : Word) (stamp comp : Nat) : State :=
  (s.pendingOf cid ver).foldl (fun s l => s.commitLine l stamp comp) s

/-- The pending versions of a convoy wait for its home's decision: what has reached their fronts before is performed. -/
def State.prepare (s : State) (cid : BitVec 24) (ver : Word) : State :=
  let s := (s.pendingOf cid ver).foldl (fun s l => s.reach (256 * l) 256) s
  { s with cvLines := Map.mapVals s.cvLines fun _ l => if l.pends cid ver then { l with prepared := true } else l }

/-- The pending versions of an aborted convoy are discarded (R326). -/
def State.dropPending (s : State) (cid : BitVec 24) (ver : Word) : State :=
  { s with cvLines := Map.mapVals s.cvLines fun _ l =>
      if l.pends cid ver then { l with pending := Option.none, source := Option.none, prepared := false }.counted else l }

/-- The version of the table slot of a convoy's home is free again, and its pending versions on this device are discarded:
what this device does at an abort. -/
def State.discardConvoy (s : State) (cid : BitVec 24) (ver : Word) : State :=
  let s := s.dropPending cid ver
  { s with
    cvTable := if cidRank cid = s.rank.toNat && Store.read s.cvVersions (cidSlot cid) == ver then Map.drop s.cvTable (cidSlot cid)
      else s.cvTable }

/-- Peers that hold lines of a convoy. -/
def CvSlot.linePeers (c : CvSlot) : List Nat :=
  ((c.lines.filter fun l => decide (2 ^ 52 ≤ l)).map fun l => l / 2 ^ 52 - 1).dedup

/-- Peers that an abort must reach: those that hold lines, and the home. -/
def CvSlot.peers (c : CvSlot) (own : Nat) : List Nat :=
  (c.linePeers ++ if cidRank c.cid = own then [] else [cidRank c.cid]).dedup

/-- A message about a convoy goes to peers; no party waits for the answer. -/
def State.tellPeers (s : State) (tid : Nat) (ranks : List Nat) (op : FabOp) : State :=
  ranks.foldl (fun s r => (s.request tid none none noOrigin r 0 op).1) s

/-- A convoy aborts: its versions are discarded, here and on every peer, and its slot says so. -/
def State.abortConvoy (s : State) (cid : BitVec 24) (ver : Word) : State :=
  let mine (c : CvSlot) : Bool := !c.view && c.cid == cid && c.ver == ver
  let s := (s.cvSlots.filter fun c => mine c.2).foldl
    (fun s c => s.tellPeers c.2.tid (c.2.peers s.rank.toNat) (.cvabort cid ver)) s
  { s.discardConvoy cid ver with
    cvSlots := Map.mapVals s.cvSlots fun _ c =>
      if mine c then { c with state := .aborted, lines := [], closing := Option.none } else c }

/-- A peer that is a convoy's home has been asked to commit it and has not answered: the convoy's fate is the home's. -/
def State.deciding (s : State) (c : CvSlot) : Bool :=
  c.state == .opened && s.outstanding.any fun o =>
    match o.req.op with
    | .cvhome cid ver _ => cid == c.cid && ver == c.ver
    | _ => false

/-- Convoys and views of a team are aborted and discarded, their slots freed (R329, R402); one that has committed stays
so, and one on which a peer decides keeps its slot until the answer: the home is told to abort it, if it still can. -/
def State.dropConvoys (s : State) (tid : Nat) : State :=
  let mine := s.cvSlots.filter fun c => c.2.tid == tid && !s.deciding c.2
  let away := s.cvSlots.filter fun c => c.2.tid == tid && s.deciding c.2 && c.2.closing.isSome
  let s := away.foldl (fun s c => s.tellPeers tid [cidRank c.2.cid] (.cvabort c.2.cid c.2.ver)) s
  let s := mine.foldl (fun s c => if c.2.view || c.2.state == .committed then s else s.abortConvoy c.2.cid c.2.ver) s
  let done := mine.filter fun c => c.2.state == .committed && cidRank c.2.cid == s.rank.toNat
  { s with
    cvSlots := (s.cvSlots.filter fun c => c.2.tid != tid || s.deciding c.2).map fun c =>
      if c.2.tid = tid then (c.1, { c.2 with closing := Option.none }) else c
    cvTable := done.foldl (fun m c => Map.drop m (cidSlot c.2.cid)) s.cvTable }

end Sys2Proof.Machine
end

