-- ==== Sys2Proof/Machine/Memory.lean ====
section
/-!
DEFINITION. Loads and stores (R179 to R198): vld, vst, vldg, vldg.part, vsts, sld, sst, lld, lst, ald, ast, pref, fence,
cclean, cinval, and the step in which read data returns.
-/

namespace Sys2Proof.Machine

open Sys2Proof

/-! ## Outstanding accesses -/

/-- Registers that an access will write: scoreboard kind and number. -/
def Access.dests (a : Access) : List (Nat × Nat) :=
  let wide := a.size == .d64
  (match a.kind with
   | .vsts => []
   | .sld | .satom | .futst =>
     ((if wide then pairN a.dest else [a.dest]).filter (· != 0)).map fun n => (1, n)
   | _ => (if wide then pairN a.dest else [a.dest]).map fun n => (0, n)) ++
    match a.missed with
    | some (n, _) => (tripleN n).map fun n => (1, n)
    | none => []

/-- Adds an access to its party, its destinations pending (R184). -/
def State.addAccess (s : State) (w : Issuer) (a : Access) : State :=
  s.modParty w.tid w.p fun q =>
    { q with
      accesses := q.accesses ++ [a]
      pending := q.pending ++ a.dests.map fun d => { kind := d.1, num := d.2, op := a.id } }

/-- The mask of an access's lanes. -/
def Access.mask (a : Access) : Mask := a.lanes.foldl (fun m x => m ||| (1#96 <<< x.lane)) 0

/-- What an access read in a lane. -/
def Access.value (a : Access) (l : Nat) : DWord :=
  match a.lanes.find? fun x => x.lane == l with
  | some x => x.val.getD 0
  | none => 0

/-- Writes what an access has read and takes it off the party. -/
def Party.complete (q : Party) (a : Access) : Party :=
  let q := { q with accesses := q.accesses.filter fun b => b.id != a.id
                    pending := q.pending.filter fun x => x.op != a.id }
  let q :=
    match a.kind with
    | .vsts => q
    | .sld | .satom | .futst =>
      if a.size = Size.d64 then q.setPairS a.slot a.dest (a.value 96) else q.setS a.slot a.dest (Size.extend a.size (a.value 96))
    | _ =>
      if a.size = Size.d64 then q.setPairV a.dest a.mask a.value
      else q.setV a.dest a.mask fun l => Size.extend a.size (a.value l)
  let q :=
    match a.missed with
    | some (n, m) => q.setTriple a.slot n m
    | none => q
  q.raise ((a.kind.form.eff (some a.ord)).warn ||| lanesPolicy a.pol a.lanes ||| a.fall)

/-- The place of a fault of an access. -/
def Access.origin (a : Access) (p : Nat) : Origin :=
  { pc := a.pc, clause := a.clause, word := a.word, party := some p, slot := a.slot }

/-- A request carries a lane of an access. -/
def Outstanding.carries (o : Outstanding) (tid p id lane : Nat) : Bool :=
  o.tid == tid && o.party == some p && (o.access.any fun a => a.1 == id && (a.2 == lane || o.lanes.any fun x => x.1 == lane))

/-- Asks a peer for a lane that has not been asked for: in the request of its line (R442), or alone on a DEV page. -/
def State.askPeer (s : State) (since tid p : Nat) (a : Access) (x : LaneAcc) (rank addr : Nat) : State :=
  if s.outstanding.any fun o => o.carries tid p a.id x.lane then s
  else
    let n := Size.bytes a.size
    let line := addr / 256 * 256
    let m := byteMask (addr % 256) n
    let lane := [(x.lane, addr % 256)]
    let op : FabOp :=
      match a.kind, Map.find s.cvSlots a.view with
      | .cvld, some c => .cvload c.stamp m
      | _, _ => .readLine m
    if x.tgt.any fun t => t.mt == 3 then
      let viewed : Bool := a.kind == .cvld
      (s.request tid (some p) (some (a.id, x.lane)) (a.origin p) rank (if viewed then line else addr)
        (if viewed then op else .read n) (some x.va) (lanes := if viewed then lane else []) (dev := true)
        (after := s.lastDev tid p)).1
    else
      match s.coalesce since tid p rank line lane op with
      | some s => s
      | none => (s.request tid (some p) (some (a.id, x.lane)) (a.origin p) rank line op (some x.va) (lanes := lane)).1

/-- A read of a lane through a view (R327): the core's buffered bytes of the line reach it first. A view that finds no
version old enough is lost. -/
def State.readView (s : State) (core view : Nat) (t : Target) (n : Nat) : State × Found :=
  match t.peer with
  | some r => (s, .peer r t.pa)
  | none =>
    if s.owned t.pa then (s, .held)
    else
      match s.settle t.pa with
      | (s, some r, pa) => (s, .peer r pa)
      | (s, none, pa) =>
        let s := (s.drain core fun e => e.line / 4 == pa / 256).reach pa n
        match Map.find s.cvSlots view with
        | none => (s, .held)
        | some c =>
          if s.bankClosed pa then (s, .held)
          else
            match s.viewRead pa n c.stamp.toNat with
            | .wait => (s, .held)
            | .value v poison lost =>
              (if lost then { s with cvSlots := Map.update s.cvSlots view fun c => { c with lost := true } } else s,
                .value v poison)

/-- A lane on a DEV page waits for every lower lane that is DEV, or may prove to be, and is not performed (R182). -/
def devBelow (below : List LaneAcc) (x : LaneAcc) : Bool :=
  (x.tgt.any fun t => t.mt == 3) && below.any fun y => y.val.isNone && y.failed.isNone && y.tgt.all fun t => t.mt == 3

/-- One lane of an access is performed, if it can be: a load reads, a scatter writes unless a higher lane has written
the same bytes (R188). -/
def State.performLane (s : State) (since core tid p : Nat) (a : Access) (x : LaneAcc) : State × LaneAcc :=
  match x.tgt, x.val, x.failed with
  | some t, none, none =>
    if devBelow (a.lanes.takeWhile fun y => y.lane != x.lane) x then (s, x)
    else if a.kind = .vsts then
      if t.peer.isNone && s.owned t.pa then (s, x)
      else
        let data := ((a.data.find? fun d => d.1 == x.lane).map Prod.snd).getD 0
        let beaten := a.lanes.any fun y =>
          decide (x.lane < y.lane) && y.val.isSome && (match y.tgt with
            | some u => u.pa == t.pa && u.peer == t.peer
            | none => false)
        (if beaten then s else s.storeLanes core tid p (a.origin p) (Size.bytes a.size) [(t, x.va, data.toNat)] since,
          { x with val := some data })
    else
      match (if a.kind = .cvld then s.readView core a.view t (Size.bytes a.size)
          else s.readTarget core ((a.kind.form.eff (some a.ord)).str != .wk) t x.lane (Size.bytes a.size)) with
      | (s, .held) => (s, x)
      | (s, .peer r addr) => (s.askPeer since tid p a x r addr, x)
      | (s, .value v poison) =>
        if poison then (s, { x with failed := some (0x0F, 0) }) else (s, { x with val := some (BitVec.ofNat 64 v) })
  | _, _, _ => (s, x)

/-- Performs the lanes in order, each seeing the lanes performed before it; what they ask of peers are the requests since a
number. -/
def State.performLanes (s : State) (core tid p : Nat) (a : Access) (done todo : List LaneAcc) (since : Nat := s.nextId) :
    State × List LaneAcc :=
  match todo with
  | [] => (s, done)
  | x :: rest =>
    let (s, x) := s.performLane since core tid p { a with lanes := done ++ x :: rest } x
    s.performLanes core tid p a (done ++ [x]) rest since

/-- The failing lanes of an access. -/
def failing (ls : List LaneAcc) : Option LaneAcc := ls.find? fun x => x.failed.isSome

/-- A scatter writes no further lane once a lane has failed (R188). -/
def State.performAll (s : State) (core tid p : Nat) (a : Access) : State × Access :=
  if a.kind == .vsts && (failing a.lanes).isSome then (s, a)
  else
    let (s, ls) := s.performLanes core tid p a [] a.lanes
    (s, { a with lanes := ls })

/-- Every lane has its translation or a fault. -/
def Access.resolved (a : Access) : Bool := a.lanes.all fun x => x.tgt.isSome || x.failed.isSome

/-- Every lane has been performed, or has failed. -/
def Access.ended (a : Access) : Bool :=
  if a.kind == .vsts && (failing a.lanes).isSome then a.resolved
  else a.lanes.all fun x => x.val.isSome || x.failed.isSome

/-- The fault of an access whose lane has failed: translation faults carry the context tag. -/
def laneCause (tag : BitVec 16) (x : LaneAcc) : Cause :=
  let (c, u) := x.failed.getD (0, 0)
  { cause := c, sub := u, lane := laneName x.lane, addr := some x.va, info := if c = 0x06 then tag.setWidth 32 else 0 }

/-- Writes an access back, and ends it when every lane has been performed: the destination is written, or the fault of
the lowest failing lane is taken and the destination is unchanged (R38, R184). -/
def State.settleAccess (s : State) (tag : BitVec 16) (tid p : Nat) (a : Access) : State :=
  if a.ended then
    match failing a.lanes with
    | some x =>
      (s.modParty tid p fun q =>
        { q with accesses := q.accesses.filter fun b => b.id != a.id
                 pending := q.pending.filter fun y => y.op != a.id }).laterFault
        tid (a.origin p) (laneCause tag x) false false
    | none => s.modParty tid p fun q => q.complete a
  else s.modParty tid p fun q => { q with accesses := q.accesses.map fun b => if b.id = a.id then a else b }

/-- An earlier access of the party must be performed first: DEV accesses in program order (R56), strong reads of the
same bytes in order (R305). -/
def State.precedes (s : State) (q : Party) (a : Access) : Bool :=
  (q.accesses.takeWhile fun b => b.id != a.id).any fun b =>
    (mayDev b.lanes && hasDev a.lanes) ||
      ((b.kind.form.eff (some b.ord)).str != .wk && (a.kind.form.eff (some a.ord)).str != .wk &&
        b.lanes.any fun x => a.lanes.any fun y => s.lanesMeet x y (Size.bytes b.size) (Size.bytes a.size))

/-- The access must wait for earlier ones of the party. -/
def State.heldBack (s : State) (tid p : Nat) (q : Party) (a : Access) : Bool :=
  s.precedes q a || (mayDev a.lanes && s.devOut tid p)

/-- The accesses that write memory: a faulting team performs those that have issued (R402). -/
def AccKind.writes (k : AccKind) : Bool := k == .vsts || k == .vatom || k == .satom

/-- Read data returns (R184): the lanes that can read do, and the access ends with its last lane. An acquire at .dv.rem
first has every core drain its write-combining buffer (R311). While its team stops, an access that writes is still performed,
behind others like it alone (R402). -/
def execMemoryReadResponse (tid p id : Nat) (s : State) : Host.Outcome State Fault Refusal :=
  match Map.find s.teams tid with
  | none => .next s
  | some t =>
    match Map.find t.parties p with
    | none => .next s
    | some q =>
      match q.accesses.find? fun a => a.id == id with
      | none => .next s
      | some a =>
        let ends : Bool := t.state == .stopping && a.kind.writes
        let q := if ends then { q with accesses := q.accesses.filter fun b => b.kind.writes } else q
        if !(t.active || ends) || s.heldBack tid p q a then .next s
        else
          let e := a.kind.form.eff (some a.ord)
          let (s, wait) := s.promote (e.scope == .dvRem && e.str == .acq)
          if wait then .next s
          else
            let (s, a) := s.performAll t.core tid p a
            .next (s.settleAccess (s.tagOf t) tid p a)

/-! ## Loads (R184, R190) -/

/-- A weak access's order. -/
def weakOrd : Ord := { str := .wk, scope := .pt }

/-- A new access of an instruction, its lanes as given. -/
def newAccess (i : Instr) (w : Issuer) (q : Party) (id : Nat) (k : AccKind) (dest : Nat) (z : Size) (o : Option Ord)
    (pol : Policy) (ls : List LaneAcc) : Access :=
  { id := id, kind := k, slot := w.sl, pc := (q.slot w.sl).pc, clause := (q.slot w.sl).clauseAddr, word := i.word,
    dest := dest, size := z, ord := o.getD weakOrd, pol := pol, lanes := ls, data := [], view := 0, missed := none, fall := 0 }

/-- A load of all lanes at once: every lane is checked and translated before any reads. -/
def loadEffect (i : Instr) (k : AccKind) (dest : Nat) (z : Size) (o : Option Ord) (pol : Policy)
    (as : Party → List (Nat × DWord)) (w : Issuer) (t : Team) (q : Party) (s : State) : Effect :=
  let n := Size.bytes z
  if q.acquiring then .hold .memory
  else if (as q).isEmpty then .done s
  else
    match badAddress (s.tagOf t) n (as q) with
    | some c => .fault s c
    | none =>
      match s.translateAll t.core (s.tagOf t) (s.privileged t) .load (as q) with
      | (s, .error c) => .fault s c
      | (s, .ok ls) =>
        if s.conflicts q false ls n then .hold .memory
        else
          let (id, s) := s.fresh
          .done (s.addAccess w (newAccess i w q id k dest z o pol ls))

def execVld (d : VReg) (a : SReg) (b : BOp) (o : Option Ord) (pol : Policy) (z : Size) (s : State) :
    Host.Outcome State Fault Refusal :=
  let i := Instr.vld d a b o pol z
  runTeam i s fun w t q s => loadEffect i .vld d.toNat z o pol (fun q => q.eaLanes w.sl a b) w t q s

/-- sld: one lane that is always active (R191). -/
def execSld (d a : SReg) (b : SOp) (z : Size) (o : Ord) (pol : Policy) (s : State) : Host.Outcome State Fault Refusal :=
  let i := Instr.sld d a b z o pol
  runTeam i s fun w t q s => loadEffect i .sld d.toNat z (some o) pol (fun q => [(96, q.eaS w.sl a b)]) w t q s

/-! ## Stores (R185, R190) -/

/-- A store of all lanes: alignment, translation and permission of every lane, then the release, then the writes. -/
def storeEffect (i : Instr) (z : Size) (o : Option Ord) (pol : Policy) (as : List (Nat × DWord)) (data : Nat → DWord)
    (w : Issuer) (t : Team) (q : Party) (s : State) : Effect :=
  let n := Size.bytes z
  let e := OrdForm.store.eff o
  if q.acquiring then .hold .memory
  else
    match badAddress (s.tagOf t) n as with
    | some c => .fault s c
    | none =>
      match s.translateStores t.core (s.tagOf t) (s.privileged t) as with
      | (s, .error c) => .fault s c
      | (s, .ok ls) =>
        if s.conflicts q true ls n || s.devHold w.tid w.p q ls || s.heldLines ls then .hold .memory
        else
          match (if e.str = .rel then s.release t.core w.tid w.p q e.scope else (s, none)) with
          | (_, some x) => .hold x
          | (s, none) =>
            if as.isEmpty then .done s
            else
              let s := s.storeLanes t.core w.tid w.p (originOf w q i.word) n
                (ls.filterMap fun x => x.tgt.map fun g => (g, x.va, (data x.lane).toNat))
              .done (s.modParty w.tid w.p fun q => q.raise (e.warn ||| lanesPolicy pol ls))

/-- The data of a vector store in a lane. -/
def Party.storeData (q : Party) (z : Size) (d : Nat) (l : Nat) : DWord :=
  if z = .d64 then q.pairV d l else (q.getV d l).setWidth 64

def execVst (d : VReg) (a : SReg) (b : BOp) (o : Option Ord) (pol : Policy) (z : Size) (s : State) :
    Host.Outcome State Fault Refusal :=
  let i := Instr.vst d a b o pol z
  runTeam i s fun w t q s => storeEffect i z o pol (q.eaLanes w.sl a b) (q.storeData z d.toNat) w t q s

def execSst (d a : SReg) (b : SOp) (z : Size) (o : Ord) (pol : Policy) (s : State) : Host.Outcome State Fault Refusal :=
  let i := Instr.sst d a b z o pol
  runTeam i s fun w t q s =>
    storeEffect i z (some o) pol [(96, q.eaS w.sl a b)]
      (fun _ => if d = 0 then 0 else if z = .d64 then q.pairS w.sl d.toNat else (q.getS w.sl d.toNat).setWidth 64) w t q s

/-! ## Miss-tolerant gather and scatter (R37 to R39, R186 to R188) -/

/-- A lane whose translation hits in the core or the cluster level, or cannot be made at all, is decided at once; the
others are deferred. -/
def State.nearLane (s : State) (core : Nat) (tag : BitVec 16) (priv : Bool) (u : Use) (l : Nat) (a : DWord) : LaneAcc :=
  let va := (a.extractLsb' 0 57).toNat
  let lane (t : Option Target) (f : Option (Nat × Nat)) : LaneAcc :=
    { lane := l, va := va, tgt := t, failed := f, val := none }
  match canonical a with
  | none => lane none (some (0x06, 1))
  | some _ =>
    match s.nearTlb core tag va with
    | none => lane none none
    | some e =>
      match checkLeaf priv u e.leaf with
      | some c => lane none (some (c.cause, c.sub))
      | none => lane (some (targetOf e.leaf (va - e.base))) none

/-- Starts the walks of the deferred lanes. -/
def State.startWalks (s : State) (core : Nat) (tag : BitVec 16) (needed : Bool) (ls : List LaneAcc) : State :=
  (ls.filter fun x => x.tgt.isNone && x.failed.isNone).foldl (fun s x => s.startWalk (some core) none tag x.va needed) s

/-- The lanes at issue of a scatter, up to the first that fails at once: no lane beyond it is written. -/
def cutAtFailure (ls : List LaneAcc) : List LaneAcc :=
  match failing ls with
  | some f => ls.filter fun x => decide (x.lane ≤ f.lane)
  | none => ls

/-- vldg. -/
def execVldg (d : VReg) (a : SReg) (b : BOp) (o : Option Ord) (pol : Policy) (z : Size) (s : State) :
    Host.Outcome State Fault Refusal :=
  let i := Instr.vldg d a b o pol z
  runTeam i s fun w t q s =>
    let as := q.eaLanes w.sl a b
    let n := Size.bytes z
    let tag := s.tagOf t
    if q.acquiring then .hold .memory
    else if as.isEmpty then .done s
    else
      match badAddress tag n as with
      | some c => .fault s c
      | none =>
        let ls := as.map fun x => s.nearLane t.core tag (s.privileged t) .load x.1 x.2
        if s.conflicts q false ls n then .hold .memory
        else
          let s := s.startWalks t.core tag true ls
          match (if ls.all fun x => x.tgt.isSome || x.failed.isSome then failing ls else none) with
          | some x => .fault s (laneCause tag x)
          | none =>
            let (id, s) := s.fresh
            .done (s.addAccess w (newAccess i w q id .vldg d.toNat z o pol ls))

/-- vldg.part: the lanes that hit read; the others are reported in the missed mask and start walks that fault
nobody. DESIGN CHOICE: a group that it pushes to a bound store port is masked off in the lanes that missed; where every lane
misses, it pushes none (log entry 77). -/
def execVldgPart (d : VReg) (a : SReg) (b : BOp) (o : Option Ord) (pol : Policy) (z : Size) (m : SReg) (s : State) :
    Host.Outcome State Fault Refusal :=
  let i := Instr.vldgPart d a b o pol z m
  runTeam i s fun w t q s =>
    let as := q.eaLanes w.sl a b
    let n := Size.bytes z
    let tag := s.tagOf t
    if q.acquiring then .hold .memory
    else if as.isEmpty then .done s
    else
      match badAddress tag n as with
      | some c => .fault s c
      | none =>
        let ls := as.map fun x => s.nearLane t.core tag (s.privileged t) .load x.1 x.2
        match failing ls with
        | some x => .fault s (laneCause tag x)
        | none =>
          let hits := ls.filter fun x => x.tgt.isSome
          let missed := (ls.filter fun x => x.tgt.isNone).foldl (fun m x => m ||| (1#96 <<< x.lane)) (0 : Mask)
          if s.conflicts q false hits n then .hold .memory
          else
            let s := s.startWalks t.core tag false ls
            let (id, s) := s.fresh
            let acc := { newAccess i w q id .vldg d.toNat z o pol hits with missed := some (m.toNat, missed) }
            if hits.isEmpty then
              .done (s.modParty w.tid w.p fun q =>
                (q.setTriple w.sl m.toNat missed).raise (OrdForm.gather.eff o).warn)
            else .done (s.addAccess w acc)

/-- vsts: the lanes that hit write at issue. -/
def execVsts (d : VReg) (a : SReg) (b : BOp) (o : Option Ord) (pol : Policy) (z : Size) (s : State) :
    Host.Outcome State Fault Refusal :=
  let i := Instr.vsts d a b o pol z
  runTeam i s fun w t q s =>
    let as := q.eaLanes w.sl a b
    let n := Size.bytes z
    let tag := s.tagOf t
    if q.acquiring then .hold .memory
    else if as.isEmpty then .done s
    else
      match badAddress tag n as with
      | some c => .fault s c
      | none =>
        let ls := cutAtFailure (as.map fun x => s.nearLane t.core tag (s.privileged t) .store x.1 x.2)
        if s.conflicts q true ls n || s.devHold w.tid w.p q ls then .hold .memory
        else
          let s := s.startWalks t.core tag true ls
          let (id, s) := s.fresh
          let acc := { newAccess i w q id .vsts d.toNat z o pol ls with
            data := ls.map fun x => (x.lane, q.storeData z d.toNat x.lane) }
          let (s, done) := s.performLanes t.core w.tid w.p acc [] ls
          match (if done.all fun x => x.tgt.isSome || x.failed.isSome then failing done else none) with
          | some x => .fault s (laneCause tag x)
          | none =>
            let acc := { acc with lanes := done }
            if acc.ended then
              .done (s.modParty w.tid w.p fun q => q.raise ((OrdForm.scatter.eff o).warn ||| lanesPolicy pol done))
            else .done (s.addAccess w acc)

/-! ## The local store and the accumulator store (R192, R193) -/

/-- Offsets of the active lanes of lld, lst and lredm. -/
def Party.lsLanes (q : Party) (sl : Bool) (a : SReg) (b : BOp) : List (Nat × Nat) :=
  (maskLanes (q.active sl)).map fun l => (l, q.lsOffset sl a b l)

/-- Alignment, then the allocation, of every lane. -/
def Team.lsCheck (t : Team) (n : Nat) (as : List (Nat × Nat)) : Option Cause :=
  match as.find? fun a => a.2 % n != 0 with
  | some (l, a) => some { cause := 0x05, lane := some l, addr := some a }
  | none => (as.find? fun a => !t.lsIn a.2 n).map fun x => { lsRange x.2 with lane := some x.1 }

/-- Uncorrectable ECC at a load (R71). -/
def eccLoad (l : Option Nat) (a : Option Nat) : Cause := { cause := 0x0F, lane := l, addr := a }

def execLld (d : VReg) (a : SReg) (b : BOp) (z : Size) (s : State) : Host.Outcome State Fault Refusal :=
  runTeam (.lld d a b z) s fun w t q s =>
    let as := q.lsLanes w.sl a b
    let n := Size.bytes z
    if q.acquiring then .hold .memory
    else if as.isEmpty then .done s
    else
      match t.lsCheck n as with
      | some c => .fault s c
      | none =>
        match as.find? fun x => t.lsPoisoned x.2 n with
        | some x => .fault s (eccLoad (some x.1) (some x.2))
        | none =>
          let v (l : Nat) : DWord := BitVec.ofNat 64 (t.lsRead (q.lsOffset w.sl a b l) n)
          .done (s.modParty w.tid w.p fun q =>
            if z = .d64 then q.setPairV d.toNat (q.active w.sl) v
            else q.setV d.toNat (q.active w.sl) fun l => Size.extend z (v l))

/-- Writes bytes of the local store; 32-bit words that the list covers whole lose their poison (R71). -/
def Team.lsWriteBytes (t : Team) (bs : List (Nat × Byte)) : Team :=
  { t with
    ls := writeBytes t.ls bs
    lsPoison := t.lsPoison.filter fun k => !(List.range 4).all fun j => bs.any fun b => b.1 == 4 * k + j }

def execLst (d : VReg) (a : SReg) (b : BOp) (z : Size) (s : State) : Host.Outcome State Fault Refusal :=
  runTeam (.lst d a b z) s fun w t q s =>
    let as := q.lsLanes w.sl a b
    let n := Size.bytes z
    if q.acquiring then .hold .memory
    else
      match t.lsCheck n as with
      | some c => .fault s c
      | none =>
        .done (s.modTeam w.tid fun t =>
          t.lsWriteBytes (as.flatMap fun x => withAddr x.2 (toBytes n (q.storeData z d.toNat x.1).toNat)))

/-- Tiles that a matrix operation writes, and tiles that it reads or writes. -/
def MatOp.tiles (o : MatOp) (writesOnly : Bool) : List Nat :=
  let wide : Bool := fld o.fmt 0 4 == 1#4
  let span (c : Nat) : List Nat := if wide then [c, c + 1] else [c]
  match o.kind with
  | .mld .. => []
  | .pass c .. => span c
  | .mst c .. => if writesOnly then [] else span c
  | .mscl c _ => if writesOnly then [] else span c
  | .lkoPred _ => []
  | .lkoChk c .. => [c]

/-- An issued matrix operation holds a tile back on the scoreboard (R141), or an open Lookout sequence holds it
(R300). -/
def Team.tileBusy (t : Team) (writesOnly : Bool) (c : Nat) : Bool :=
  match t.seq with
  | some q => (q.ops.any fun o => (o.tiles writesOnly).contains c) || q.lko.any fun l => l.tile == some c
  | none => false

/-- The checks of ald and ast: the tile, then the scoreboard. -/
def Team.tileGate (t : Team) (wide writes : Bool) (c : Nat) : Option (Cause ⊕ Wait) :=
  let cs := if wide then [c, c + 1] else [c]
  if (wide && c % 2 == 1) || cs.any fun x => decide (t.tiles ≤ x) then some (.inl registerRange)
  else
    match cs.find? fun x => t.tileBusy (!writes) x with
    | some x => some (.inr (.scoreboard 4 x))
    | none => none

/-- The active lanes of ald and ast with their columns, those beyond column 127 left out. -/
def Party.tileLanes (q : Party) (sl : Bool) (a : SReg) : List (Nat × Nat) :=
  let j0 := (fld (q.getS sl a.toNat) 8 7).toNat
  ((maskLanes (q.active sl)).map fun l => (l, j0 + l)).filter fun x => decide (x.2 < 128)

def lanesMask (ls : List Nat) : Mask := ls.foldl (fun m l => m ||| (1#96 <<< l)) 0

/-- ald (R193). DESIGN CHOICE: a group that it pushes to a bound store port is masked off in the lanes whose column lies beyond
127, as well as in those outside ACTIVE (log entry 77). -/
def execAld (wide : Bool) (d : VReg) (a : SReg) (c : BitVec 4) (s : State) : Host.Outcome State Fault Refusal :=
  runTeam (.ald wide d a c) s fun w t q s =>
    match t.tileGate wide false c.toNat with
    | some (.inl e) => .fault s e
    | some (.inr x) => .hold x
    | none =>
      if q.active w.sl = 0 then .done s
      else
      let row := (fld (q.getS w.sl a.toNat) 0 7).toNat
      let ls := q.tileLanes w.sl a
      let j0 := (fld (q.getS w.sl a.toNat) 8 7).toNat
      let bad (k : Nat) : Bool := t.accPoison.contains k
      match ls.find? fun x =>
        bad (accKey c.toNat row x.2) || (wide && bad (accKey (c.toNat + 1) row x.2)) with
      | some x => .fault s (eccLoad (some x.1) none)
      | none =>
        let m := lanesMask (ls.map Prod.fst)
        .done (s.modParty w.tid w.p fun q =>
          let q := q.setV d.toNat m fun l => t.tile c.toNat row (j0 + l)
          if wide then q.setV (d.toNat + 1) m fun l => t.tile (c.toNat + 1) row (j0 + l) else q)

def execAst (wide : Bool) (d : VReg) (a : SReg) (c : BitVec 4) (s : State) : Host.Outcome State Fault Refusal :=
  runTeam (.ast wide d a c) s fun w t q s =>
    match t.tileGate wide true c.toNat with
    | some (.inl e) => .fault s e
    | some (.inr x) => .hold x
    | none =>
      let row := (fld (q.getS w.sl a.toNat) 0 7).toNat
      .done (s.modTeam w.tid fun t =>
        (q.tileLanes w.sl a).foldl (fun t x =>
          let t := t.setTile c.toNat row x.2 (q.getV d.toNat x.1)
          if wide then t.setTile (c.toNat + 1) row x.2 (q.getV (d.toNat + 1) x.1) else t) t)

/-! ## pref, fence, cclean, cinval (R195 to R198) -/

/-- pref (R195): it fills caches, of which the model holds the translations: one that a walk finds at once, with a walker
free, is installed. .cn is a fallback (R172). On a UC or DEV page pref has no effect and sets no other warn bit (R56). -/
def execPref (a : SReg) (b : SOp) (pol : Policy) (s : State) : Host.Outcome State Fault Refusal :=
  runTeam (.pref a b pol) s fun w t q s =>
    let s' := if pol = .cn then s else (s.translate t.core (s.tagOf t) (s.privileged t) .load (q.eaS w.sl a b)).1
    let s' := if s'.stuck then s else s'
    .done (s'.modParty w.tid w.p fun q => q.raise (when (pol == .cn) wFALLBK))

/-- fence (R196): the acquire side waits until the party's reads are performed; the release side is a release. -/
def execFence (x : Strength) (c : Scope) (s : State) : Host.Outcome State Fault Refusal :=
  runTeam (.fence x c) s fun w t q s =>
    if x ≠ .rel ∧ !q.accesses.isEmpty then .hold .memory
    else if x = .acq then .done s
    else
      match s.release t.core w.tid w.p q c with
      | (_, some h) => .hold h
      | (s, none) => .done s

/-- The pages of a range: drains the core's write-combining entries that lie in [va, va + n), page unit by page unit
(R197). A page that fails to translate is skipped; only PRIV is checked. -/
def State.cleanUnits (s : State) (core : Nat) (tag : BitVec 16) (priv : Bool) (va len units : Nat) :
    State × Option Cause :=
  match units with
  | 0 => (s, none)
  | k + 1 =>
    if len = 0 then (s, none)
    else
      let va := va % 2 ^ 64
      let n := min len (65536 - va % 65536)
      let go (s : State) : State × Option Cause := s.cleanUnits core tag priv (va + n) (len - n) k
      match canonical (BitVec.ofNat 64 va) with
      | none => go s
      | some v =>
        match s.entryFor core tag v with
        | (s, .error _) => go s
        | (s, .ok e) =>
          if e.leaf.getLsbD 6 && !priv then (s, some { protection 0x01 with addr := some v })
          else
            let t := targetOf e.leaf (v - e.base)
            match t.peer with
            | some _ => go s
            | none =>
              match s.settle t.pa with
              | (s, some _, _) => go s
              | (s, none, pa) =>
                go (s.drain core fun x => decide (pa / 64 ≤ x.line ∧ x.line ≤ (pa + n - 1) / 64))

/-- cclean and cinval: without stale copies to drop, both drain the core's entries of the range, and wait while the directory
holds stores of the core. -/
def cleanEffect (a : SReg) (b : SOp) (w : Issuer) (t : Team) (q : Party) (s : State) : Effect :=
  let len := (q.bS w.sl b).toNat
  if q.acquiring then .hold .memory
  else
    match s.cleanUnits t.core (s.tagOf t) (s.privileged t) (q.base w.sl a).toNat len (len / 65536 + 2) with
    | (s, some c) => .fault s c
    | (s, none) => if s.holdsOf t.core then .wait s .memory else .done s

def execCclean (a : SReg) (b : SOp) (c : Scope) (s : State) : Host.Outcome State Fault Refusal :=
  runTeam (.cclean a b c) s (cleanEffect a b)

def execCinval (a : SReg) (b : SOp) (c : Scope) (s : State) : Host.Outcome State Fault Refusal :=
  runTeam (.cinval a b c) s (cleanEffect a b)

end Sys2Proof.Machine
end

