-- ==== Sys2Proof/Machine/Atomics.lean ====
section
/-!
DEFINITION. Atomics and reductions (R315 to R323): vatom, vredm, lredm, satom, and the application of a reduction
entry.
-/

namespace Sys2Proof.Machine

open Sys2Proof

/-! ## The operations (R316, R317) -/

/-- Value written by an atomic: `c` is the compare value of cas, `x` the operand or new value. -/
def atomNew (op : AOp) (ty : ATy) (old c x : Nat) : Nat :=
  match op with
  | .exch => x
  | .cas => if old = c then x else old
  | _ => redResult op ty old (redMerge op ty none x)

/-- FALLBK of an atomic's operation and type (R322). -/
def atomFall (op : AOp) (ty : ATy) (reduction : Bool) : Word :=
  let float : Bool := ty == .f32 || ty == .f64
  when ((float && (op == .and || op == .or || op == .xor)) || (reduction && (op == .exch || op == .cas))) wFALLBK

/-- One lane of an atomic: its lane, its operand and, for cas, the compare value. -/
structure AtomLane where
  lane : Nat
  x : Nat
  c : Nat
deriving DecidableEq, Repr

/-- A vector atomic's operands in a lane (R321): cas has c in VD and n in the register or pair after it. -/
def Party.atomLane (q : Party) (op : AOp) (ty : ATy) (d l : Nat) : AtomLane :=
  let wide := atyBytes ty == 8
  let v (n : Nat) : Nat := if wide then (q.pairV n l).toNat else (q.getV n l).toNat
  if op = .cas then ⟨l, v (d + if wide then 2 else 1), v d⟩ else ⟨l, v d, 0⟩

/-- satom's operands. -/
def Party.atomScalar (q : Party) (sl : Bool) (op : AOp) (ty : ATy) (d : Nat) : AtomLane :=
  let wide := atyBytes ty == 8
  let v (n : Nat) : Nat := if wide then (q.pairS sl n).toNat else (q.getS sl n).toNat
  if op = .cas then ⟨96, v (d + if wide then 2 else 1), v d⟩ else ⟨96, v d, 0⟩

/-- R315: what a target's memory cannot do. -/
def atomTarget (op : AOp) (ty : ATy) (t : Target) : Option Cause :=
  let float : Bool := ty == .f32 || ty == .f64
  if t.mt = 3 ∨ (t.peer = none ∧ regionOf t.pa = .device) then some (protection 0x16)
  else if t.peer = none ∧ regionOf t.pa = .host ∧ ¬(op = .exch ∨ op = .cas ∨ (op = .add ∧ !float)) then
    some (protection 0x15)
  else none

/-- The lowest lane whose target cannot do the operation. -/
def atomTargets (op : AOp) (ty : ATy) (ls : List LaneAcc) : Option Cause :=
  ls.findSome? fun x =>
    match x.tgt with
    | some t => (atomTarget op ty t).map fun c => { c with lane := laneName x.lane, addr := some x.va }
    | none => none

/-- Atomic operation and operand as a fabric request carries them: for cas the compare value and the new value. -/
def atomOp (op : AOp) (ty : ATy) (k : AtomLane) (returns : Bool) : FabOp :=
  .atomic op ty (BitVec.ofNat 64 (if op = .cas then k.c else k.x)) (BitVec.ofNat 64 k.x) returns

/-- The host answers an AtomicOp on host space with an error status (R315): a free choice at each use. -/
def State.hostAtomicFails (s : State) (pa : Nat) : State × Bool :=
  if regionOf pa = .host then (s.useFree, Config.hostAtomicFails s.free) else (s, false)

/-- One atomic on this device's memory: the old value, or the cause: a poisoned sector, an error of the host. The core's
buffered bytes and the reductions of the sector are applied first. -/
def State.atomHere (s : State) (core pa : Nat) (op : AOp) (ty : ATy) (k : AtomLane) : State × Except Cause Nat :=
  let n := atyBytes ty
  let s := (s.drain core fun e => e.line == pa / 64).reach pa n
  match s.hostAtomicFails pa with
  | (s, true) => (s, .error (protection 0x15))
  | (s, false) =>
    if s.poisoned pa n then (s, .error (eccLoad none none))
    else
      let old := bytesFrom s.mem pa n
      ({ s with mem := writeBytes s.mem (withAddr pa (toBytes n (atomNew op ty old k.c k.x))) }, .ok old)

/-! ## vatom and satom -/

/-- The lanes of an atomic in increasing order. A lane at a peer sends its request, and so does one on a DEV page of this
device that follows a peer's (R182); a poisoned lane ends the sequence with its fault, the lanes before it applied. -/
def State.atomLanes (s : State) (core tid p : Nat) (a : Access) (op : AOp) (ty : ATy) (done : List LaneAcc)
    (todo : List (LaneAcc × AtomLane)) : State × Except Cause (List LaneAcc) :=
  match todo with
  | [] => (s, .ok done)
  | (x, k) :: rest =>
    let go (s : State) (v : Option DWord) := s.atomLanes core tid p a op ty (done ++ [{ x with val := v }]) rest
    match x.tgt with
    | none => go s none
    | some t =>
      let dev : Bool := t.mt == 3
      let ask (s : State) (r addr : Nat) : State :=
        (s.request tid (some p) (some (a.id, x.lane)) (a.origin p) r addr (atomOp op ty k true) (some x.va) (dev := dev)
          (after := if dev then s.lastDev tid p else none)).1
      match t.peer with
      | some r => go (ask s r t.pa) none
      | none =>
        match s.settle t.pa with
        | (s, some r, pa) => go (ask s r pa) none
        | (s, none, pa) =>
          if dev && (s.lastDev tid p).isSome then go (ask s s.rank.toNat pa) none
          else
            match s.atomHere core pa op ty k with
            | (s, .error c) => (s, .error { c with lane := laneName x.lane, addr := some x.va })
            | (s, .ok old) => go s (some (BitVec.ofNat 64 old))

/-- vatom and satom (R322): checks of every lane, the release, then the lanes. Lanes at a peer complete with the peer's
answers. -/
def atomEffect (i : Instr) (kind : AccKind) (op : AOp) (ty : ATy) (o : Ord) (dest : Nat) (as : List (Nat × DWord))
    (data : Nat → AtomLane) (w : Issuer) (t : Team) (q : Party) (s : State) : Effect :=
  let n := atyBytes ty
  let z : Size := if n = 8 then .d64 else .w32
  let e := OrdForm.atomic.eff (some o)
  if q.acquiring then .hold .memory
  else
    match badAddress (s.tagOf t) n as with
    | some c => .fault s c
    | none =>
      match s.translateStores t.core (s.tagOf t) (s.privileged t) as with
      | (s, .error c) => .fault s c
      | (s, .ok ls) =>
        match atomTargets op ty ls with
        | some c => .fault s c
        | none =>
          if s.conflicts q true ls n || s.devHold w.tid w.p q ls || s.heldLines ls then .hold .memory
          else
            match (if e.str = .rel ∨ e.str = .ar then s.release t.core w.tid w.p q e.scope else (s, none)) with
            | (_, some x) => .hold x
            | (s, none) =>
              if as.isEmpty then .done s
              else
                let (s, wait) := s.promote (e.scope == .dvRem && e.str == .acq)
                if wait then .wait s .memory
                else
                  let (id, s) := s.fresh
                  let acc := { newAccess i w q id kind dest z (some o) .cn ls with fall := atomFall op ty false }
                  match s.atomLanes t.core w.tid w.p acc op ty [] (ls.map fun x => (x, data x.lane)) with
                  | (s, .error c) => .fault s c
                  | (s, .ok done) =>
                    let acc := { acc with lanes := done }
                    .done (if acc.ended then s.modParty w.tid w.p fun q => q.complete acc else s.addAccess w acc)

def execVatom (op : AOp) (ty : ATy) (o : Ord) (d : VReg) (a : SReg) (b : BOp) (s : State) :
    Host.Outcome State Fault Refusal :=
  let i := Instr.vatom op ty o d a b
  runTeam i s fun w t q s => atomEffect i .vatom op ty o d.toNat (q.eaLanes w.sl a b) (q.atomLane op ty d.toNat) w t q s

def execSatom (op : AOp) (ty : ATy) (o : Ord) (d a : SReg) (b : SOp) (s : State) : Host.Outcome State Fault Refusal :=
  let i := Instr.satom op ty o d a b
  runTeam i s fun w t q s =>
    atomEffect i .satom op ty o d.toNat [(96, q.eaS w.sl a b)] (fun _ => q.atomScalar w.sl op ty d.toNat) w t q s

/-! ## Reductions at memory: vredm (R318, R319) -/

/-- A reduction that may merge: AOP other than exch and cas. -/
def merges (op : AOp) : Bool := op != .exch && op != .cas

/-- Two combined operands merged into one (R319). -/
def redJoin (op : AOp) (ty : ATy) (a b : Int × Nat) : Int × Nat :=
  match op with
  | .fadd => (a.1 + b.1, Nat.lor a.2 b.2)
  | _ => redMerge op ty (some a) b.1.toNat

/-- Merges a combined operand into the element of an entry. -/
def RedEntry.merge (e : RedEntry) (off : Nat) (x : Int × Nat) : RedEntry :=
  let (v, sp) :=
    match Map.find e.elems off with
    | some v => redJoin e.op e.ty (v, (Map.find e.special off).getD 0) x
    | none => x
  { e with elems := Map.set e.elems off v, special := Map.set e.special off sp }

/-- The reduction entries of the slice that holds a physical address. -/
def State.sliceEntries (s : State) (pa : Nat) : List RedEntry :=
  s.reductions.filter fun e => homeDie (64 * e.sector) == homeDie pa && Config.slice (e.sector / 4) % 72 == Config.slice (pa / 256) % 72

/-- A new entry finds a place in its slice's queue of 64: when all are taken, the oldest is applied first. -/
def State.makeRoom (s : State) (pa : Nat) : State :=
  if s.reductions.length < 64 then s
  else
    let es := s.sliceEntries pa
    if es.length < 64 then s
    else s.applyReductions fun e => es.head?.any fun x => x.id == e.id

/-- A combined operand at an address of this device enters the reduction queue of its slice: it merges into the open
entry of its sector, operation and type, or opens one. Entries of another kind on the sector are applied first. -/
def State.enqueueRed (s : State) (owner : Option (Nat × Nat)) (op : AOp) (ty : ATy) (pa : Nat)
    (add : RedEntry → RedEntry) : State :=
  let sector := pa / 64
  let same (e : RedEntry) : Bool := e.sector == sector && e.op == op && e.ty == ty
  let s := s.applyReductions fun e => e.sector == sector && !same e
  if s.reductions.any same then
    { s with reductions := s.reductions.map fun e =>
        if same e then { add e with owners := (owner.toList.filter fun o => !e.owners.contains o) ++ e.owners } else e }
  else
    let (id, s) := (s.makeRoom pa).fresh
    { s with reductions := s.reductions ++
        [add { id := id, die := homeDie pa, sector := sector, op := op, ty := ty, elems := [], special := [],
               owners := owner.toList, acks := [], opened := s.clk.toNat }] }

/-- The lanes of a reduction combined by their target (R318): for each, the exact operand. -/
def combineLanes (op : AOp) (ty : ATy) (acc : List (Target × Nat × Int × Nat)) (ls : List (Target × Nat × AtomLane)) :
    List (Target × Nat × Int × Nat) :=
  match ls with
  | [] => acc
  | (t, va, k) :: rest =>
    let acc :=
      match acc.find? fun x => x.1.pa == t.pa && x.1.peer == t.peer with
      | none => acc ++ [(t, va, redMerge op ty none k.x)]
      | some _ => acc.map fun x =>
          if x.1.pa = t.pa ∧ x.1.peer = t.peer then (x.1, x.2.1, redMerge op ty (some x.2.2) k.x) else x
    combineLanes op ty acc rest

/-- One reduction that never merges: exch or cas, one lane. -/
def State.redLane (s : State) (core tid p : Nat) (o : Origin) (acq : Bool) (op : AOp) (ty : ATy) (t : Target) (va : Nat)
    (k : AtomLane) : State :=
  let ask (s : State) (r addr : Nat) : State :=
    s.peerWrite tid p o r addr (atomOp op ty k false) va acq (dev := t.mt == 3)
  match t.peer with
  | some r => ask s r t.pa
  | none =>
    match s.settle t.pa with
    | (s, some r, pa) => ask s r pa
    | (s, none, pa) =>
      if t.mt = 3 ∧ (s.lastDev tid p).isSome then ask s s.rank.toNat pa
      else
        let s := (s.drain core fun e => e.line == pa / 64).reach pa (atyBytes ty)
        let old := bytesFrom s.mem pa (atyBytes ty)
        { s with mem := writeBytes s.mem (withAddr pa (toBytes (atyBytes ty) (atomNew op ty old k.c k.x))) }

/-- One combined operation of a reduction (R318): to the peer that owns its page, or into the reduction queue. -/
def State.redCombined (s : State) (core tid p : Nat) (o : Origin) (acq : Bool) (op : AOp) (ty : ATy)
    (x : Target × Nat × Int × Nat) : State :=
  let (t, va, v) := x
  let ask (s : State) (r addr : Nat) : State := s.peerWrite tid p o r addr (.reduce op ty v.1 v.2 acq) va acq
  match t.peer with
  | some r => ask s r t.pa
  | none =>
    match s.settle t.pa with
    | (s, some r, pa) => ask s r pa
    | (s, none, pa) =>
      (s.drain core fun e => e.line == pa / 64).enqueueRed (some (tid, p)) op ty pa fun e => e.merge (pa % 64) v

/-- The lanes of a reduction: those of one address combine into one operation (R318); exch and cas are applied lane by
lane, and so is what lies on a DEV page, where nothing is combined or merged (R56). -/
def State.redLanes (s : State) (core tid p : Nat) (o : Origin) (acq : Bool) (op : AOp) (ty : ATy)
    (ls : List (Target × Nat × AtomLane)) : State :=
  let alone (x : Target × Nat × AtomLane) : Bool := !merges op || x.1.mt == 3
  let s := (ls.filter alone).foldl (fun s x => s.redLane core tid p o acq op ty x.1 x.2.1 x.2.2) s
  (combineLanes op ty [] (ls.filter fun x => !alone x)).foldl (fun s x => s.redCombined core tid p o acq op ty x) s

/-- The host's answers to the lanes of a reduction that lie in host space (R315): the fault of the first error. -/
def State.hostLanes (s : State) (ls : List LaneAcc) : State × Option Cause :=
  match ls with
  | [] => (s, none)
  | x :: rest =>
    match x.tgt with
    | some t =>
      if t.peer.isSome then s.hostLanes rest
      else
        match s.hostAtomicFails t.pa with
        | (s, true) => (s, some { protection 0x15 with lane := laneName x.lane, addr := some x.va })
        | (s, false) => s.hostLanes rest
    | none => s.hostLanes rest

/-- A reduction that never merges meets no open entry: those of its lanes' sectors are applied first. -/
def State.reachLanes (s : State) (ls : List LaneAcc) (n : Nat) : State :=
  ls.foldl (fun s x => match x.tgt with
    | some g => if g.peer.isNone then s.reach g.pa n else s
    | none => s) s

def execVredm (op : AOp) (ty : ATy) (o : Ord) (d : VReg) (a : SReg) (b : BOp) (s : State) :
    Host.Outcome State Fault Refusal :=
  let i := Instr.vredm op ty o d a b
  runTeam i s fun w t q s =>
    let n := atyBytes ty
    let as := q.eaLanes w.sl a b
    let e := OrdForm.atomic.eff (some o)
    if q.acquiring then .hold .memory
    else
      match badAddress (s.tagOf t) n as with
      | some c => .fault s c
      | none =>
        match s.translateStores t.core (s.tagOf t) (s.privileged t) as with
        | (s, .error c) => .fault s c
        | (s, .ok ls) =>
          match atomTargets op ty ls with
          | some c => .fault s c
          | none =>
            if s.conflicts q true ls n || s.devHold w.tid w.p q ls || s.heldLines ls then .hold .memory
            else
              match (if e.str = .rel ∨ e.str = .ar then s.release t.core w.tid w.p q e.scope else (s, none)) with
              | (_, some x) => .hold x
              | (s, none) =>
                if as.isEmpty then .done s
                else
                  let queue : Bool := e.str == .st || e.str == .rel
                  let s := if queue then s else s.reachLanes ls n
                  match s.hostLanes ls with
                  | (s, some c) => .fault s c
                  | (s, none) =>
                    let (s, wait) := s.promote (e.scope == .dvRem && e.str == .acq)
                    if wait then .wait s .memory
                    else
                      let s := s.redLanes t.core w.tid w.p (originOf w q i.word) (e.str == .acq || e.str == .ar) op ty
                        (ls.filterMap fun x => x.tgt.map fun g => (g, x.va, q.atomLane op ty d.toNat x.lane))
                      let s := if queue then s else s.applyReductions fun e => e.owners.contains (w.tid, w.p)
                      .done (s.modParty w.tid w.p fun q => q.raise (e.warn ||| atomFall op ty true))

/-! ## Reductions on the local store: lredm -/

/-- One operation on the local store. -/
def Team.lsAtom (t : Team) (op : AOp) (ty : ATy) (a : Nat) (k : AtomLane) : Team :=
  let n := atyBytes ty
  { t with ls := writeBytes t.ls (withAddr a (toBytes n (atomNew op ty (t.lsRead a n) k.c k.x))) }

/-- The combined operation of all lanes that name one offset. -/
def Team.lsCombined (t : Team) (op : AOp) (ty : ATy) (a : Nat) (xs : List Nat) : Team :=
  let n := atyBytes ty
  let c := xs.foldl (fun acc x => some (redMerge op ty acc x)) none
  match c with
  | none => t
  | some c => { t with ls := writeBytes t.ls (withAddr a (toBytes n (redResult op ty (t.lsRead a n) c))) }

/-- lredm: FALLBK also for a scope wider than the team. -/
def execLredm (op : AOp) (ty : ATy) (o : Ord) (d : VReg) (a : SReg) (b : BOp) (s : State) :
    Host.Outcome State Fault Refusal :=
  let i := Instr.lredm op ty o d a b
  runTeam i s fun w t q s =>
    let n := atyBytes ty
    let as := q.lsLanes w.sl a b
    let e := OrdForm.atomic.eff (some o)
    let wide : Bool := e.scope != .pt && e.scope != .tm
    if q.acquiring then .hold .memory
    else
      match t.lsCheck n as with
      | some c => .fault s c
      | none =>
        match (if e.str = .rel ∨ e.str = .ar then
            s.release t.core w.tid w.p q (if wide then .tm else e.scope) else (s, none)) with
        | (_, some x) => .hold x
        | (s, none) =>
          if as.isEmpty then .done s
          else
            let ks := as.map fun x => (x.2, q.atomLane op ty d.toNat x.1)
            let s := s.modTeam w.tid fun t =>
              if merges op then
                ((ks.map Prod.fst).dedup).foldl (fun t a =>
                  t.lsCombined op ty a ((ks.filter fun k => k.1 == a).map fun k => k.2.x)) t
              else ks.foldl (fun t k => t.lsAtom op ty k.1 k.2) t
            .done (s.modParty w.tid w.p fun q => q.raise (e.warn ||| when wide wFALLBK ||| atomFall op ty true))

/-- A reduction entry is applied 512 cycles after it opened (R319). An entry that its queue needs is applied by the
reduction that needs it. -/
def execReductionEntryApply (die sector : Nat) (s : State) : Host.Outcome State Fault Refusal :=
  .next (s.applyReductions fun e =>
    e.die == die && e.sector == sector && decide (e.opened + 512 ≤ s.clk.toNat))

end Sys2Proof.Machine
end

