-- ==== Sys2Proof/Machine/Joins.lean ====
section
/-!
DEFINITION. Records, queues and join slots (R341 to R359): building and reading records, accepting them into queues,
retiring them, resolving join slots and registering continuations.
-/

namespace Sys2Proof.Machine

open Sys2Proof

/-! ## Records (R341) -/

def recWord (r : Rec) (n : Nat) : Word := r.getD n 0

def recTarget (r : Rec) : Nat := (fld (recWord r 0) 0 16).toNat
def recDepth (r : Rec) : Nat := (fld (recWord r 0) 24 4).toNat
def recPrio (r : Rec) : Nat := (fld (recWord r 0) 28 2).toNat
def recTrank (r : Rec) : Nat := (fld (recWord r 1) 0 12).toNat
/-- PJ as 24 bits: 0xFF_FFFF for none. -/
def recPj (r : Rec) : Nat := (fld (recWord r 1) 16 16).toNat + 65536 * (fld (recWord r 2) 0 8).toNat
def recSrc (r : Rec) : Nat := (fld (recWord r 2) 8 24).toNat
def recPrank (r : Rec) : Nat := (fld (recWord r 3) 8 12).toNat

/-- The join handle of a record's parent join, if it has one (R342). -/
def recJoin (r : Rec) : Option Word :=
  if recPj r = 0xFFFFFF then none else some (BitVec.ofNat 32 (2 ^ 20 * recPrank r + recPj r % 2 ^ 18))

/-- What a record's header says beside its payload. -/
structure Header where
  target : Nat
  type : Nat
  depth : Nat
  prio : Nat
  cont : Bool
  trank : Nat
  join : Option Word
  srcNode : Nat
  srcLane : Nat
  cls : Nat
deriving DecidableEq, Repr

/-- The sixteen words of a record. PRANK of a record without a parent join is 0 (DESIGN CHOICE, log entry 61). -/
def mkRec (h : Header) (payload : List Word) : Rec :=
  let pj : Nat := match h.join with | some j => (fld j 0 18).toNat | none => 0xFFFFFF
  let prank : Nat := match h.join with | some j => (fld j 20 12).toNat | none => 0
  let src := h.srcNode + 65536 * h.srcLane
  [BitVec.ofNat 32 (h.target + 2 ^ 16 * h.type + 2 ^ 24 * (h.depth + 16 * h.prio + if h.cont then 64 else 0)),
    BitVec.ofNat 32 (h.trank + 2 ^ 16 * (pj % 65536)),
    BitVec.ofNat 32 (pj / 65536 + 256 * src),
    BitVec.ofNat 32 (h.cls + 256 * prank)] ++ payload

/-! ## Queues (R347, R348) -/

/-- Key of a die's queue, or report entry, of a node. -/
def queueKey (die node : Nat) : Nat := 4096 * die + node

def Run.nodeQueue (r : Run) (die node : Nat) : List QRec := (Map.find r.queues (queueKey die node)).getD []

/-- Records of a queue that are in record SRAM below its quota. A fault record takes an entry of the die's reserve, never
such a place, and never spills (R349, R403). -/
def inSram (q : List QRec) : Nat := (q.filter fun x => !x.spilled && !x.fault).length

def spilledIn (q : List QRec) : Nat := (q.filter QRec.spilled).length

/-- Spilled records of a die. -/
def Run.spilledOn (r : Run) (die : Nat) : Nat :=
  r.queues.foldl (fun n q => if q.1 / 4096 = die then n + spilledIn q.2 else n) 0

def Run.node? (r : Run) (node : Nat) : Option Node := r.image.nodes[node]?

/-- Room of a queue below its node's quota. -/
def Run.sramRoom (r : Run) (die node : Nat) : Nat :=
  (match r.node? node with | some n => n.quota | none => 0) - inSram (r.nodeQueue die node)

/-- Room of a queue in SRAM and in spill together. -/
def Run.room (r : Run) (die node : Nat) : Nat := r.sramRoom die node + (r.image.spill - r.spilledOn die)

def Report.zero : Report := { acc := 0, ret := 0, peak := 0, spld := 0, maxd := 0, flags := 0 }

/-- Changes a node's report entry on a die. -/
def Run.modReport (r : Run) (die node : Nat) (f : Report → Report) : Run :=
  let p := (Map.find r.reports (queueKey die node)).getD Report.zero
  { r with reports := Map.set r.reports (queueKey die node) (f p) }

/-- Accepts records into a queue in order, the ones beyond the quota spilled, and counts them (R348, R361). -/
def Run.accept (r : Run) (die node since : Nat) (origin : Option Nat) (recs : List Rec) (fault : Bool := false) : Run :=
  let quota := match r.node? node with | some n => n.quota | none => 0
  let put (q : List QRec) (x : Rec) : List QRec :=
    let excess : Bool := decide (quota ≤ inSram q) && !fault
    q ++ [({ words := x, spilled := excess, overflowed := excess, since := since, origin := origin, fault := fault } : QRec)]
  let q := recs.foldl put (r.nodeQueue die node)
  if recs.isEmpty then r
  else
    ({ r with queues := Map.set r.queues (queueKey die node) q }).modReport die node fun p =>
      { p with
        acc := (p.acc + recs.length) % 2 ^ 32
        peak := max p.peak q.length
        spld := max p.spld (min (q.filter QRec.overflowed).length 0xFFFF)
        maxd := recs.foldl (fun m x => max m (recDepth x)) p.maxd
        flags := if q.any QRec.overflowed then p.flags ||| 1 else p.flags }

def State.modRun (s : State) (run : Nat) (f : Run → Run) : State := { s with runs := Map.update s.runs run f }

/-! ## Gathering (R351, R353) -/

/-- Records that a team of a node takes at most: a cluster group counts as one team (R384). -/
def Node.capacity (n : Node) : Nat :=
  let parties := n.parties * max 1 n.group
  if n.rmode = 0 then 96 * parties else if n.rmode = 1 then n.rpp * parties else 1

/-- The places of the first `cap` records: the highest PRIO first, the oldest first within it. -/
def chosen (cap : Nat) (q : List QRec) : List Nat :=
  let idx := (List.range q.length).zip q
  ((([3, 2, 1, 0] : List Nat).flatMap fun p => idx.filter fun x => recPrio x.2.words == p).map Prod.fst).take cap

/-- Gathers one team from a queue. -/
def Run.gatherOne (r : Run) (die node cap : Nat) (now : DWord) : Run :=
  let q := r.nodeQueue die node
  let ks := chosen cap q
  let team := ks.filterMap fun k => q[k]?
  let oldest := ((List.range q.length).filter ks.contains).head?.bind fun k => q[k]?
  { r with
    queues := Map.set r.queues (queueKey die node)
      ((((List.range q.length).zip q).filter fun x => !ks.contains x.1).map Prod.snd)
    gathered := r.gathered ++
      [({ node := node, die := die, recs := team, stamp := now, origin := oldest.bind QRec.origin } :
        Gathered)] }

/-- Gathers every full team, once the die has accepted its seeds (R465); a node without a window gathers what is left as
well. -/
def Run.gather (r : Run) (die node : Nat) (now : DWord) (fuel : Nat) : Run :=
  match fuel, r.node? node with
  | k + 1, some n =>
    let len := (r.nodeQueue die node).length
    if r.draining ∨ len = 0 ∨ !r.seeded.contains die then r
    else if n.capacity ≤ len ∨ n.window = 0 then (r.gatherOne die node n.capacity now).gather die node now k
    else r
  | _, _ => r

/-- Gathers from one queue as far as R351 lets it. -/
def Run.gatherQueue (r : Run) (die node : Nat) (now : DWord) : Run :=
  r.gather die node now ((r.nodeQueue die node).length + 1)

/-- Moves spilled records into free places of record SRAM, the oldest first (R348). -/
def refill (free : Nat) (q : List QRec) : List QRec :=
  match q with
  | [] => []
  | x :: t =>
    match free, x.spilled with
    | k + 1, true => { x with spilled := false } :: refill k t
    | _, _ => x :: refill free t

/-- Accepts records into a queue of this device, and gathers. -/
def State.acceptRecs (s : State) (run die node : Nat) (origin : Option Nat) (recs : List Rec) (fault : Bool := false) :
    State :=
  s.modRun run fun r => (r.accept die node s.clk.toNat origin recs fault).gatherQueue die node s.tbase

/-! ## Join slots (R356 to R358) -/

def joinKey (h : Word) : Nat := (fld h 0 18).toNat
def joinRank (h : Word) : Nat := (fld h 20 12).toNat

/-- Bits [19:18] are not zero, or the rank is outside the run's process group (R342). -/
def Run.malformed (r : Run) (h : Word) : Bool :=
  fld h 18 2 != 0 || !r.members.any fun m => m.rank == joinRank h

/-- The state word of R356. -/
def JoinSlot.word (j : JoinSlot) : Word :=
  let code : Nat := match j.state with | .empty => 0 | .pending => 1 | .resolved => 2 | .faulted => 3
  (BitVec.ofNat 32 code <<< 30) ||| (BitVec.ofNat 32 j.count <<< 22) ||| (BitVec.ofNat 32 j.conts.length <<< 16) |||
    BitVec.ofNat 32 j.owner

def State.joinWord (s : State) (key : Nat) : Word :=
  match Map.find s.joins key with
  | some j => j.word
  | none => 0

/-- Emits continuations on a slot's die, each with the cluster of the party that registered it; they never stall
(R348, R385). -/
def State.emitConts (s : State) (run die : Nat) (conts : List (Rec × Option Nat)) : State :=
  conts.foldl (fun s x => s.acceptRecs run die (recTarget x.1) x.2 [x.1]) s

/-- Resolves a slot of this device by n ≥ 1 (R357); a slot whose owner has retired is free at once (R358). The Bool says that it is a double resolve. -/
def State.resolveHere (s : State) (key n : Nat) : State × Bool :=
  match Map.find s.joins key with
  | none => (s, true)
  | some j =>
    match j.state with
    | .empty | .resolved => (s, true)
    | .faulted => (s, false)
    | .pending =>
      if j.count < n then (s, true)
      else if n < j.count then
        ({ s with joins := Map.set s.joins key { j with count := j.count - n } }, false)
      else
        ({ s with joins :=
            if (Map.find s.teams j.ownerTid).isNone then Map.drop s.joins key
            else Map.set s.joins key { j with state := .resolved, count := 0, conts := [] } }.emitConts
          j.run (key / 65536) j.conts, false)

/-- Resolves a slot by handle for a team; the operation on a slot of another device crosses the fabric, and a double
resolve there comes back as its answer. A retirement's resolution has its record's lane, and the team as it stood when it
has retired with its record (R355). -/
def State.resolve (s : State) (tid : Nat) (o : Origin) (h : Word) (n : Nat) (deferred : Bool) (lane : Option Nat := none)
    (late : Option Team := none) : State × Bool :=
  if joinRank h = s.rank.toNat then s.resolveHere (joinKey h) n
  else ((s.request tid none none o (joinRank h) 0 (.resolve h n deferred) (lane := lane) (late := late)).1, false)

/-- A join slot that has been resolved already is resolved again (R357). -/
def doubleResolve (h : Word) : Cause := { cause := 0x0B, info := h }

/-- A slot of this device fails; one whose owner has retired is free at once (R358). -/
def State.failHere (s : State) (key : Nat) : State :=
  match Map.find s.joins key with
  | some j =>
    if (Map.find s.teams j.ownerTid).isNone && j.state == .pending then { s with joins := Map.drop s.joins key }
    else { s with joins := Map.update s.joins key JoinSlot.fail }
  | none => s

/-- The slot of a deferred resolution fails with the command that it awaited (R359), on this device or another. -/
def State.failJoin (s : State) (tid : Nat) (h : Word) : State :=
  if joinRank h = s.rank.toNat then s.failHere (joinKey h)
  else (s.request tid none none noOrigin (joinRank h) 0 (.joinFail h)).1

/-- What a registration does at a slot (R357, R367). -/
inductive Registered where
  | done (s : State)
  | empty
  | full
deriving DecidableEq, Repr

/-- Registers a continuation on a slot of this device, with the cluster of the party that registers it. -/
def State.register (s : State) (h : Word) (rec : Rec) (cluster : Option Nat) : Registered :=
  match Map.find s.joins (joinKey h) with
  | none => .empty
  | some j =>
    if 63 ≤ j.conts.length then .full
    else
      match j.state with
      | .empty => .empty
      | .pending => .done { s with joins := Map.set s.joins (joinKey h) { j with conts := j.conts ++ [(rec, cluster)] } }
      | .resolved => .done (s.emitConts j.run (joinKey h / 65536) [(rec, cluster)])
      | .faulted => .done s

/-! ## Retirement of records (R355) -/

/-- A record that retires is counted; a fault record frees its entry of the reserve (R361, R403). -/
def State.countRetired (s : State) (t : Team) (d : Delivered) : State :=
  let s := s.modRun t.run fun x => x.modReport t.die t.node fun p => { p with ret := (p.ret + 1) % 2 ^ 32 }
  if d.fault then { s with reserve := Store.write s.reserve t.die (Store.read s.reserve t.die - 1) } else s

/-- A delivered record retires: it is counted, and its parent join is resolved by 1. The answer names the handle of a
double resolve. -/
def State.retireRec (s : State) (tid : Nat) (o : Origin) (t : Team) (d : Delivered) (late : Option Team := none) :
    State × Option Word :=
  let s := s.countRetired t d
  match recJoin d.words with
  | none => (s, none)
  | some h =>
    match s.resolve tid o h 1 false d.lane late with
    | (s, true) => (s, some h)
    | (s, false) => (s, none)

/-- Retires records of a team, each double resolve a fault of the team at a place; the other slot of the instruction waits
on `x` (R400). -/
def State.retireAll (s : State) (tid : Nat) (o : Origin) (x : Wait) (t : Team) (rs : List Delivered) : State :=
  rs.foldl (fun s d =>
    match s.retireRec tid o t d with
    | (s, some h) => s.takeFault tid o { doubleResolve h with lane := d.lane } false false x
    | (s, none) => s) s

/-- Marks the records that a test selects as retired. -/
def markRetired (sel : Delivered → Bool) (rs : List Delivered) : List Delivered :=
  rs.map fun d => if sel d then { d with retired := true } else d

/-- Retires the records of a party that a test selects and that have not retired; answers how many there were. -/
def State.retireParty (s : State) (tid p : Nat) (o : Origin) (x : Wait) (sel : Delivered → Bool) : State × Nat :=
  match Map.find s.teams tid with
  | none => (s, 0)
  | some t =>
    match Map.find t.parties p with
    | none => (s, 0)
    | some q =>
      let rs := q.records.filter fun d => !d.retired && sel d
      let s := s.modParty tid p fun q => { q with records := markRetired (fun d => !d.retired && sel d) q.records }
      (s.retireAll tid o x t rs, rs.length)

/-- What an instruction does before records retire by it: where one of them resolves a slot, the release of R475, at .sy where
a slot is another device's. -/
def State.retireRelease (s : State) (core tid p : Nat) (q : Party) (rs : List Delivered) : State × Option Wait :=
  let hs := rs.filterMap fun d => recJoin d.words
  if hs.isEmpty then (s, none)
  else s.release core tid p q (if hs.any fun h => joinRank h != s.rank.toNat then .sy else .dv)

end Sys2Proof.Machine
end

