-- ==== Sys2Proof/Machine/Control.lean ====
section
/-!
DEFINITION. Control flow (R371 to R378) and the reconvergence stack (R146 to R149).
-/

namespace Sys2Proof.Machine

open Sys2Proof

/-! ## The stack and the paths -/

/-- A slot that holds no path. -/
def Slot.idle : Slot :=
  { live := false, pc := 0, clause := none, mask := 0, fmt := 0, mode := 0, frame := none, age := 0, wait := .none,
    barWait := none, took := 0 }

/-- The top index falls past every invalid entry beneath it (R146). -/
def trimStack (st : List StackEntry) : List StackEntry := (st.reverse.dropWhile fun e => !e.valid).reverse

/-- Changes an entry. -/
def Party.modEntry (q : Party) (j : Nat) (f : StackEntry → StackEntry) : Party := { q with stack := q.stack.modify j f }

/-- Removes an entry from any position. -/
def Party.dropEntry (q : Party) (j : Nat) : Party :=
  { q with stack := trimStack (q.stack.modify j fun e => { e with valid := false }) }

/-- The path that a stack entry gives a slot, its mask ANDed with the live set (R376). -/
def pathOf (e : StackEntry) (live : Mask) (age : Nat) : Slot :=
  { live := true, pc := e.pc, clause := none, mask := e.mask &&& live, fmt := e.fmt, mode := e.mode, frame := e.link,
    age := age, wait := .none, barWait := none, took := 0 }

/-- end_path (R148) when `ending`, path_emptied (R149) otherwise. Each round takes an entry off the stack or lowers an
entry's PEND, so that three rounds an entry suffice. -/
def Party.unwind (q : Party) (sl : Bool) (ending : Bool) (fuel : Nat) : Party :=
  match fuel with
  | 0 => q
  | n + 1 =>
    if ending then
      match q.stack.getLast? with
      | some e =>
        if e.defer then
          let q := { q.dropEntry (q.stack.length - 1) with nextAge := q.nextAge + 1 }
          let x := pathOf e q.live (q.nextAge - 1)
          let q := q.setSlot sl x
          if x.mask = 0 then q.unwind sl false n else q
        else q.setSlot sl Slot.idle
      | none => q.setSlot sl Slot.idle
    else
      match (q.slot sl).frame with
      | none => q.unwind sl true n
      | some j =>
        match q.stack[j]? with
        | none => q.unwind sl true n
        | some e =>
          if 1 < e.pend then (q.modEntry j fun e => { e with pend := e.pend - 1 }).unwind sl true n
          else
            let x := { pathOf e q.live (q.slot sl).age with clause := none }
            let q := q.dropEntry j
            if x.mask = 0 ∨ e.pc = 0 then (q.setSlot sl { x with mask := 0 }).unwind sl false n else q.setSlot sl x

/-- Enough rounds for any stack. -/
def Party.rounds (q : Party) : Nat := 3 * q.stack.length + 4

def Party.endPath (q : Party) (sl : Bool) : Party := q.unwind sl true q.rounds
def Party.pathEmptied (q : Party) (sl : Bool) : Party := q.unwind sl false q.rounds

/-- Both slots are idle and no DEFER entry is valid (R149, R378). -/
def Party.finished (q : Party) : Bool :=
  !q.slot0.live && !q.slot1.live && !q.stack.any fun e => e.valid && e.defer

/-- A party that has finished retires: the records that it still holds retire with it (R355). The sequencer stops when
the last party of its team retires (R266). -/
def State.retireFinished (s : State) (tid p : Nat) (o : Origin) (x : Wait) : State :=
  match s.party? tid p with
  | none => s
  | some q =>
    if q.finished && !q.retired then
      let s := ((s.modParty tid p fun q => { q with retired := true }).retireParty tid p o x fun _ => true).1
      s.modTeam tid fun t =>
        if t.parties.all fun q => q.2.retired then { t.modSeq fun x => { x with stopped := true } with lastExit := some o } else t
    else s

/-- The records of a party that retire when an instruction leaves it as `q'`: all that it holds if it has finished, otherwise
those that a test selects (R355). -/
def Party.retiring (q q' : Party) (sel : Delivered → Bool) : List Delivered :=
  q.records.filter fun d => !d.retired && (q'.finished || sel d)

/-- The path goes on at a clause boundary. -/
def Party.jump (q : Party) (sl : Bool) (pc : Word) : Party := q.modSlot sl fun x => x.jump pc

/-! ## Branches -/

/-- br (R372). -/
def execBr (o : BitVec 22) (s : State) : Host.Outcome State Fault Refusal :=
  runParty (.br o) s fun w s => .flow (s.modParty w.tid w.p fun q => q.jump w.sl ((q.slot w.sl).target o))

/-- call writes lnk and branches (R372). -/
def execCall (o : BitVec 22) (s : State) : Host.Outcome State Fault Refusal :=
  runParty (.call o) s fun w s =>
    .flow (s.modParty w.tid w.p fun q =>
      (q.setS w.sl 60 ((q.slot w.sl).nextClause 1)).jump w.sl ((q.slot w.sl).target o))

/-- A test of bc against zero (R373). -/
def bTest (t : BTest) (x : Word) : Bool :=
  match t with
  | .z => x == 0
  | .nz => x != 0
  | .lt => x.slt 0
  | .ge => !x.slt 0
  | .gt => (0 : Word).slt x
  | .le => !(0 : Word).slt x

/-- bc (R373). -/
def execBc (t : BTest) (a : SReg) (o : BitVec 14) (s : State) : Host.Outcome State Fault Refusal :=
  runParty (.bc t a o) s fun w s =>
    .flow (s.modParty w.tid w.p fun q =>
      q.jump w.sl (if bTest t (q.getS w.sl a.toNat) then (q.slot w.sl).target o else (q.slot w.sl).nextClause 1))

/-- bdiv on the slots and the stack (R147): the stack is not full. -/
def Party.diverge (q : Party) (sl : Bool) (c : Mask) (target next : Word) : Party :=
  let x := q.slot sl
  let t := x.mask &&& c
  let n := x.mask &&& ~~~c
  let j := q.stack.length
  let q := { q with stackPoison := q.stackPoison.filter fun k => decide (k < j) }
  let entry (pend : Nat) : StackEntry :=
    { valid := true, defer := false, pc := 0, mask := x.mask, fmt := x.fmt, mode := x.mode, pend := pend, link := x.frame }
  if t = 0 ∨ n = 0 then
    { q with stack := q.stack ++ [entry 1] }.setSlot sl { x.jump (if t = 0 then next else target) with frame := some j }
  else
    let q := { q with stack := q.stack ++ [entry 2] }
    let q := q.setSlot sl { x.jump next with frame := some j, mask := n }
    let other : StackEntry :=
      { valid := true, defer := true, pc := target, mask := t, fmt := x.fmt, mode := x.mode, pend := 0, link := some j }
    if (q.slot (!sl)).live then { q with stack := q.stack ++ [other] }
    else { q.setSlot (!sl) { pathOf other t q.nextAge with mask := t } with nextAge := q.nextAge + 1 }

/-- bdiv (R374). -/
def execBdiv (a : SReg) (o : BitVec 14) (s : State) : Host.Outcome State Fault Refusal :=
  runTeam (.bdiv a o) s fun w _ q s =>
    if 62 < q.stack.length then .fault s rcStack
    else
      .flow (s.modParty w.tid w.p fun q =>
        q.diverge w.sl (q.triple w.sl a.toNat) ((q.slot w.sl).target o) ((q.slot w.sl).nextClause 1))

def execNop (s : State) : Host.Outcome State Fault Refusal := runRegs .nop s fun _ q => q

/-- join on the slots and the stack (R148). -/
def Party.rejoin (q : Party) (sl : Bool) (next : Word) : Party :=
  let x := q.slot sl
  match x.frame with
  | none => q.jump sl next
  | some j =>
    match q.stack[j]? with
    | none => q.jump sl next
    | some e =>
      if 1 < e.pend then
        (q.modEntry j fun e => { e with pend := e.pend - 1, pc := if e.pc = 0 then next else e.pc }).endPath sl
      else
        let y := { x.jump next with mask := e.mask &&& q.live, fmt := e.fmt, mode := e.mode, frame := e.link }
        let q := (q.dropEntry j).setSlot sl y
        if y.mask = 0 then q.pathEmptied sl else q

/-- join (R148, R375); with it a party may finish, and its records retire. -/
def execJoin (s : State) : Host.Outcome State Fault Refusal :=
  runTeam .join s fun w t q s =>
    let go (q : Party) : Party := q.rejoin w.sl ((q.slot w.sl).nextClause 1)
    match s.retireRelease t.core w.tid w.p q (q.retiring (go q) fun _ => false) with
    | (_, some x) => .hold x
    | (s, none) =>
      .flow ((s.modParty w.tid w.p go).retireFinished w.tid w.p (originOf w q Instr.join.word) (q.slot (!w.sl)).wait)

/-- ret: text offset lnk (R375). -/
def execRet (s : State) : Host.Outcome State Fault Refusal :=
  runParty .ret s fun w s => .flow (s.modParty w.tid w.p fun q => q.jump w.sl (q.getS w.sl 60))

def execJmpi (a : SReg) (s : State) : Host.Outcome State Fault Refusal :=
  runParty (.jmpi a) s fun w s => .flow (s.modParty w.tid w.p fun q => q.jump w.sl (q.getS w.sl a.toNat))

/-- The lanes of a mask leave the live set, and the paths that they empty end (R376, 1 to 3). -/
def Party.leave (q : Party) (sl : Bool) (m : Mask) : Party :=
  let o := q.slot (!sl)
  let emptied := o.live && o.mask != 0 && (o.mask &&& ~~~m) == 0
  let q := { q with live := q.live &&& ~~~m }
  let q := q.modSlot (!sl) fun y => { y with mask := y.mask &&& ~~~m }
  let q := (q.modSlot sl fun y => { y with mask := 0 }).pathEmptied sl
  if emptied then q.pathEmptied (!sl) else q

/-- The open convoy of a team, if it has one. -/
def State.openConvoy (s : State) (tid : Nat) : Option CvSlot :=
  (s.cvSlots.find? fun c => c.2.tid == tid && !c.2.view && c.2.state == .opened).map Prod.snd

/-- exit (R376): after the release of the slots that it resolves (R475), the lanes leave, the records of exiting lanes retire in RMODE 0, an emptied party's open convoy aborts
its team. -/
def execExit (s : State) : Host.Outcome State Fault Refusal :=
  runTeam .exit s fun w t q s =>
    let m := q.active w.sl
    let o := originOf w q Instr.exit.word
    let x := (q.slot (!w.sl)).wait
    let lanes : Bool := match s.node? t with | some n => n.rmode == 0 | none => false
    let gone (d : Delivered) : Bool := lanes && match d.lane with | some l => inMask m l | none => false
    match s.retireRelease t.core w.tid w.p q (q.retiring (q.leave w.sl m) gone) with
    | (_, some y) => .hold y
    | (s, none) =>
      let s := s.modParty w.tid w.p fun q => q.leave w.sl m
      let s := ((s.retireParty w.tid w.p o x gone).1).retireFinished w.tid w.p o x
      if q.live ≠ 0 ∧ q.live &&& ~~~m = 0 then
        match s.openConvoy w.tid with
        | some c => .flow ((s.abortConvoy c.cid c.ver).takeFault w.tid o
            { cause := 0x10, sub := 5, info := c.cid.setWidth 32 } false false x)
        | none => .flow s
      else .flow s

/-- yield (R377): the party is not ready until another party of its track has issued. -/
def execYield (s : State) : Host.Outcome State Fault Refusal := runRegs .yield s fun _ q => { q with yielded := true }

end Sys2Proof.Machine
end

