-- ==== Sys2Proof/Machine/Graph.lean ====
section
/-!
DEFINITION. The graph instructions (R362 to R370): emit, emitr, rget, rdone, futnew, futreg, futres, futst, dget.
-/

namespace Sys2Proof.Machine

open Sys2Proof

/-! ## What the checks need -/

/-- The run of a team. -/
def State.run? (s : State) (t : Team) : Option Run := Map.find s.runs t.run

/-- An edge of the team's node by its slot (R338). -/
def State.edge? (s : State) (t : Team) (slot : Nat) : Option Edge :=
  match s.run? t, s.node? t with
  | some r, some n => if slot < n.nout then r.image.edges[n.edge0 + slot]? else none
  | _, _ => none

/-- The lowest lane of ACTIVE. -/
def Party.lowLane (q : Party) (sl : Bool) : Option Nat := (maskLanes (q.active sl)).head?

def noEdge (lane : Option Nat) (slot : Nat) : Cause := { protection 0x1A (BitVec.ofNat 32 slot) with lane := lane }
def joinArg (lane : Option Nat) (x : Word) : Cause := { protection 0x19 x with lane := lane }
def rankFault (lane : Option Nat) (x : Nat) : Cause := { protection 0x1B (BitVec.ofNat 32 x) with lane := lane }
def recIdx (lane : Option Nat) (x : Word) : Cause := { protection 0x1C x with lane := lane }

def State.malformed (s : State) (t : Team) (h : Word) : Bool :=
  match s.run? t with
  | some r => r.malformed h
  | none => true

/-- The depth that an emission along an edge carries, and whether it exceeds the target's MAXDEPTH (R354). -/
def State.emitDepth (s : State) (t : Team) (q : Party) (e : Edge) : Nat × Bool :=
  let d := q.depth.toNat + if e.cyc then 1 else 0
  match (s.run? t).bind fun r => r.node? e.target with
  | some n => (d, decide (n.maxDepth < d))
  | none => (d, true)

/-- Sets a flag of the report entry of a node. -/
def State.flagReport (s : State) (t : Team) (node : Nat) (bit : BitVec 8) : State :=
  s.modRun t.run fun r => r.modReport t.die node fun p => { p with flags := p.flags ||| bit }

def depthOverflow (lane : Option Nat) (d : Nat) : Cause := { cause := 0x0A, lane := lane, info := BitVec.ofNat 32 d }

/-- The payload of a lane (R363). -/
def Party.payloadOf (q : Party) (v : VReg) (l : Nat) : List Word := (payload v).map fun n => q.getV n l

/-! ## Offering records to queues (R348, R363) -/

/-- A stalled emission waits at its queue: a peer's, or one of a team that issues. A saved team's is offered again when the
team resumes (R414). -/
def State.offered (s : State) (e : Stalled) : Bool := e.peer.isSome || (Map.find s.teams e.tid).any Team.running

/-- A stalled emission needs spill room. -/
def State.needsSpill (s : State) (e : Stalled) : Bool :=
  match Map.find s.runs e.run with
  | some r => decide (r.sramRoom e.die e.node < e.recs.length)
  | none => false

/-- An emission can be accepted whole, the emissions before it in `older` still waiting (R348). An older one of any run
of the die that needs spill room goes before one that does (DESIGN CHOICE, log entry 62). -/
def State.canAccept (s : State) (older : List Stalled) (run die node n : Nat) : Bool :=
  let older := older.filter s.offered
  match Map.find s.runs run with
  | none => false
  | some r =>
    !(older.any fun e => e.run == run && e.die == die && e.node == node) &&
      (decide (n ≤ r.sramRoom die node) ||
        (decide (n ≤ r.room die node) && !older.any fun e => e.die == die && s.needsSpill e))

/-- What offering an emission's records on this device does: accepted or stalled, or the queue overflow of .ns with the
records that other destinations have accepted. -/
inductive Offered where
  | done (s : State) (accepted : Nat) (stalled : Bool)
  | overflow (s : State) (accepted : Nat)
deriving DecidableEq, Repr

/-- Offers each die's records in increasing order of the dies. -/
def State.offer (s : State) (w : Issuer) (o : Origin) (t : Team) (node : Nat) (ns : Bool) (accepted : Nat) (stalled : Bool)
    (groups : List (Nat × List Rec)) : Offered :=
  match groups with
  | [] => .done s accepted stalled
  | (die, recs) :: rest =>
    if recs.isEmpty then s.offer w o t node ns accepted stalled rest
    else if s.canAccept s.stalled t.run die node recs.length then
      (s.acceptRecs t.run die node (some (clusterOf t.core)) recs).offer w o t node ns (accepted + recs.length) stalled rest
    else if ns then .overflow (s.flagReport { t with die := die } node 2) accepted
    else
      let (id, s) := s.fresh
      ({ s with stalled := s.stalled ++
          [({ id := id, run := t.run, die := die, node := node, recs := recs, cluster := clusterOf t.core, tid := w.tid,
              party := w.p, origin := o, peer := none } : Stalled)] }).offer w o t node ns accepted true rest

/-- An emission of the slot is still waiting, on this device or at another. -/
def State.emitting (s : State) (w : Issuer) : Bool :=
  (s.stalled.any fun e => e.tid == w.tid && e.party == w.p && e.origin.slot == w.sl) ||
    s.outstanding.any fun o =>
      o.tid == w.tid && o.party == some w.p && o.origin.slot == w.sl &&
        match o.req.op with
        | .emission .. => true
        | _ => false

/-- Sends each other device its records. -/
def State.sendRecs (s : State) (w : Issuer) (o : Origin) (ident : Nat) (ns : Bool) (groups : List ((Nat × Nat) × List Rec)) : State :=
  groups.foldl (fun s g =>
    if g.2.isEmpty then s else (s.request w.tid (some w.p) none o g.1.1 0 (.emission ident g.1.2 ns g.2)).1) s

/-- The emission of checked records, each with its destination rank and die (R363). -/
def emitRecs (i : Instr) (node : Nat) (ns : Bool) (recs : List ((Nat × Nat) × Rec)) (w : Issuer) (t : Team) (q : Party)
    (s : State) : Effect :=
  let o := originOf w q i.word
  let own := s.rank.toNat
  let group (r d : Nat) : List Rec := (recs.filter fun x => x.1.1 == r && x.1.2 == d).map Prod.snd
  let others := ((recs.filter fun x => x.1.1 != own).map Prod.fst).dedup
  match s.offer w o t node ns 0 false ((List.range 4).map fun d => (d, group own d)) with
  | .overflow s n => .fault s { cause := 0x0C, info := BitVec.ofNat 32 n }
  | .done s n stalled =>
    let ident := match s.run? t with | some r => r.ident.toNat | none => 0
    let s := s.modParty w.tid w.p fun q => q.modSlot w.sl fun x => { x with took := n }
    let s := s.sendRecs w o ident ns (others.map fun x => (x, group x.1 x.2))
    if stalled || !others.isEmpty then .wait s (.emission node) else .done s

/-- emit (R363): NOEDGE, JOINARG, depth overflow, then the records of the active lanes in lane order. -/
def execEmit (v : VReg) (e : BitVec 6) (j : SReg) (ns : Bool) (s : State) : Host.Outcome State Fault Refusal :=
  let i := Instr.emit v e j ns
  runTeam i s fun w t q s =>
    match (q.slot w.sl).wait with
    | .emission n => if s.emitting w then .hold (.emission n) else .done s
    | _ =>
      let l0 := q.lowLane w.sl
      let h := q.getS w.sl j.toNat
      match s.edge? t e.toNat with
      | none => .fault s (noEdge l0 e.toNat)
      | some g =>
        if j ≠ 0 ∧ s.malformed t h then .fault s (joinArg l0 h)
        else
          let (d, deep) := s.emitDepth t q g
          if deep then .fault (s.flagReport t g.target 8) (depthOverflow l0 d)
          else
            match s.release t.core w.tid w.p q .dv with
            | (_, some x) => .hold x
            | (s, none) =>
              let recs := (maskLanes (q.active w.sl)).map fun l =>
                mkRec { target := g.target, type := g.type, depth := d, prio := g.prio, cont := false,
                        trank := s.rank.toNat, join := if j = 0 then none else some h, srcNode := t.node, srcLane := l,
                        cls := g.cls } (q.payloadOf v l)
              emitRecs i g.target ns (recs.map fun r => ((s.rank.toNat, t.die), r)) w t q s

/-- A destination of emitr (R363): its rank and die, unless it is outside the process group or the member's dies. -/
def Run.place (r : Run) (x : Word) : Option (Nat × Nat) :=
  let rank := (fld x 0 12).toNat
  let die := (fld x 12 2).toNat
  if fld x 14 18 ≠ 0 then none
  else if r.members.any fun m => m.rank == rank && m.dies.testBit die then some (rank, die)
  else none

/-- emitr: NOEDGE, RANK of every active lane, depth overflow. -/
def execEmitr (v : VReg) (e : BitVec 6) (r : BOp) (ns : Bool) (s : State) : Host.Outcome State Fault Refusal :=
  let i := Instr.emitr v e r ns
  runTeam i s fun w t q s =>
    match (q.slot w.sl).wait with
    | .emission n => if s.emitting w then .hold (.emission n) else .done s
    | _ =>
      let l0 := q.lowLane w.sl
      let ls := maskLanes (q.active w.sl)
      match s.edge? t e.toNat, s.run? t with
      | some g, some run =>
        match ls.find? fun l => (run.place (q.bV r l)).isNone with
        | some l => .fault s (rankFault (some l) (fld (q.bV r l) 0 12).toNat)
        | none =>
          let (d, deep) := s.emitDepth t q g
          if deep then .fault (s.flagReport t g.target 8) (depthOverflow l0 d)
          else
            match s.release t.core w.tid w.p q .sy with
            | (_, some x) => .hold x
            | (s, none) =>
              let recs := ls.filterMap fun l =>
                (run.place (q.bV r l)).map fun p =>
                  (p, mkRec { target := g.target, type := g.type, depth := d, prio := g.prio, cont := false, trank := p.1,
                              join := none, srcNode := t.node, srcLane := l, cls := g.cls } (q.payloadOf v l))
              emitRecs i g.target ns recs w t q s
      | _, _ => .fault s (noEdge l0 e.toNat)

/-! ## Records in hand (R364, R365, R370) -/

/-- Record number x of a party, or a lane's own record for 0xFFFF_FFFF (R352, R364). -/
def State.recordOf (s : State) (t : Team) (q : Party) (l : Nat) (x : Word) : Option Delivered :=
  match s.node? t with
  | none => none
  | some n =>
    if n.rmode = 2 then (if x = 0xFFFFFFFF ∨ x = 0 then t.teamRecords.head? else none)
    else if x ≠ 0xFFFFFFFF then q.records[x.toNat]?
    else if n.rmode = 0 then q.records.find? fun d => d.lane == some l
    else if q.records.isEmpty then none
    else q.records[l % q.records.length]?

/-- A record that can still be read. -/
def State.readable (s : State) (t : Team) (q : Party) (l : Nat) (x : Word) : Option Rec :=
  match s.recordOf t q l x with
  | some d => if d.retired then none else some d.words
  | none => none

/-- rget (R364). -/
def execRget (d : VReg) (n : BitVec 4) (i : BOp) (s : State) : Host.Outcome State Fault Refusal :=
  runTeam (.rget d n i) s fun w t q s =>
    match (maskLanes (q.active w.sl)).find? fun l => (s.readable t q l (q.bV i l)).isNone with
    | some l => .fault s (recIdx (some l) (q.bV i l))
    | none =>
      .done (s.modParty w.tid w.p fun q' =>
        q'.setV d.toNat (q.active w.sl) fun l =>
          match s.readable t q l (q.bV i l) with
          | some r => recWord r n.toNat
          | none => 0)

/-- rdone (R365), after the release of the slots that it resolves (R475). -/
def execRdone (d : SReg) (s : State) : Host.Outcome State Fault Refusal :=
  runTeam (.rdone d) s fun w t q s =>
    let o := originOf w q (Instr.rdone d).word
    let x := (q.slot (!w.sl)).wait
    let rmode := match s.node? t with | some n => n.rmode | none => 0
    let count (s : State) (n : Nat) : Effect :=
      .done (s.modParty w.tid w.p fun q => q.setS w.sl d.toNat (BitVec.ofNat 32 n))
    let covers (d : Delivered) : Bool :=
      rmode == 1 || (match d.lane with | some l => inMask (q.active w.sl) l | none => false)
    let rs := if rmode = 2 then t.teamRecords.filter fun d => !d.retired else q.records.filter fun d => !d.retired && covers d
    match s.retireRelease t.core w.tid w.p q rs with
    | (_, some y) => .hold y
    | (s, none) =>
      if rmode = 2 then
        let s := s.modTeam w.tid fun t => { t with teamRecords := markRetired (fun _ => true) t.teamRecords }
        count (s.retireAll w.tid o x t rs) rs.length
      else
        let (s, n) := s.retireParty w.tid w.p o x covers
        count s n

/-- A handle register (R140): the address with V = 1. -/
def handleReg (a : DWord) : DWord := ((a.extractLsb' 0 57).setWidth 64 &&& ~~~0xF#64) ||| 1

/-- dget (R370). -/
def execDget (src : DgetSrc) (h : BitVec 4) (s : State) : Host.Outcome State Fault Refusal :=
  runTeam (.dget src h) s fun w t q s =>
    let put (v : DWord) : Effect := .done (s.modTeam w.tid fun t => { t with handles := Store.write t.handles h.toNat v })
    let aligned (a : DWord) (lane : Option Nat) : Effect :=
      if a.extractLsb' 0 4 ≠ 0 then
        .fault s { cause := 0x05, lane := lane, addr := some (a.extractLsb' 0 57).toNat }
      else put (handleReg a)
    match src with
    | .pair a => if a = 0 then put 0 else aligned (q.pairS w.sl a.toNat) none
    | .word k =>
      match q.lowLane w.sl with
      | none => .done s
      | some l =>
        match s.readable t q l 0xFFFFFFFF with
        | none => .fault s (recIdx (some l) 0xFFFFFFFF)
        | some r => aligned (recWord r (k.toNat + 1) ++ recWord r k.toNat) (some l)

/-! ## Futures (R366 to R369) -/

/-- The first slot from k on that is not in use, wrapping around; one round for each slot in use is enough. -/
def nextFree (used : List Nat) (k fuel : Nat) : Nat :=
  match fuel with
  | 0 => k
  | n + 1 => if used.contains k then nextFree used ((k + 1) % 65536) n else k

/-- Slots of a die that are not EMPTY. -/
def State.usedJoins (s : State) (die : Nat) : List Nat :=
  ((Map.keys s.joins).filter fun k => k / 65536 == die).map fun k => k % 65536

/-- futnew (R366), a release at .dv (R475): which EMPTY slot it takes is a free choice. -/
def execFutnew (d c : SReg) (s : State) : Host.Outcome State Fault Refusal :=
  runTeam (.futnew d c) s fun w t q s =>
    let x := q.getS w.sl c.toNat
    if fld x 8 24 ≠ 0 then .fault s (joinArg none x)
    else
      match s.release t.core w.tid w.p q .dv with
      | (_, some y) => .hold y
      | (s, none) =>
        let used := s.usedJoins t.die
        if 65536 ≤ used.length then .hold .futnew
        else
          let k := nextFree used (Config.joinChoice s.free % 65536) (used.length + 1)
          let key := 65536 * t.die + k
          let n := x.toNat
          let slot : JoinSlot :=
            { state := if n = 0 then .resolved else .pending, count := n, owner := t.node, ownerTid := w.tid, run := t.run,
              conts := [] }
          .done ({ s.useFree with joins := Map.set s.joins key slot }.modParty w.tid w.p fun q =>
            q.setS w.sl d.toNat (BitVec.ofNat 32 (2 ^ 20 * s.rank.toNat + key)))

def contFull : Cause := { cause := 0x0C, sub := 1 }

/-- futreg (R367): NOEDGE, JOINARG, depth overflow; with an active lane, the registration. -/
def execFutreg (j : SReg) (e : BitVec 6) (v : VReg) (s : State) : Host.Outcome State Fault Refusal :=
  let i := Instr.futreg j e v
  runTeam i s fun w t q s =>
    let l0 := q.lowLane w.sl
    let h := q.getS w.sl j.toNat
    match s.edge? t e.toNat with
    | none => .fault s (noEdge l0 e.toNat)
    | some g =>
      if s.malformed t h then .fault s (joinArg l0 h)
      else
        let (d, deep) := s.emitDepth t q g
        if deep then .fault (s.flagReport t g.target 8) (depthOverflow l0 d)
        else
          match l0 with
          | none => .done s
          | some l =>
            match s.release t.core w.tid w.p q (if joinRank h = s.rank.toNat then .dv else .sy) with
            | (_, some x) => .hold x
            | (s, none) =>
              let rec_ := mkRec { target := g.target, type := g.type, depth := d, prio := g.prio, cont := true,
                                  trank := joinRank h, join := none, srcNode := t.node, srcLane := l, cls := g.cls }
                (q.payloadOf v l)
              if joinRank h = s.rank.toNat then
                match s.register h rec_ (some (clusterOf t.core)) with
                | .done s => .done s
                | .empty => .fault s (joinArg l0 h)
                | .full => .fault s { contFull with lane := l0 }
              else .done (s.request w.tid (some w.p) none (originOf w q i.word) (joinRank h) 0 (.register h rec_)).1

/-- A resolution made for a team: a double resolve is its fault at a place. -/
def State.resolveFor (s : State) (tid : Nat) (o : Origin) (h : Word) (n : Nat) (deferred : Bool) : State :=
  match s.resolve tid o h n deferred with
  | (s, true) => s.laterFault tid o (doubleResolve h) deferred false
  | (s, false) => s

/-- The party's most recent incomplete engine command with a status register (R359). -/
def State.latestCmd (s : State) (w : Issuer) (t : Team) (r : Nat) : Option Nat :=
  let copies := t.channels.flatMap fun c =>
    (c.2.cmds.filter fun m => m.sd == r && m.origin.party == some w.p).map CopyCmd.id
  let ssus := s.ssu.flatMap fun c =>
    (c.2.filter fun m => m.tid == w.tid && m.sd == r && m.origin.party == some w.p).map SsuCmd.id
  let nes := s.ne.flatMap fun c =>
    (c.2.filter fun m => m.tid == w.tid && m.sd == r && m.origin.party == some w.p).map NeCmd.id
  (copies ++ ssus ++ nes).max?

/-- futres (R368): malformed handle, n above 255, then the resolution, at once or bound to a completion (R359). -/
def execFutres (j n : SReg) (f : FutForm) (s : State) : Host.Outcome State Fault Refusal :=
  let i := Instr.futres j n f
  runTeam i s fun w t q s =>
    let h := q.getS w.sl j.toNat
    let k := q.getS w.sl n.toNat
    let o := originOf w q i.word
    if s.malformed t h then .fault s (joinArg none h)
    else if 255 < k.toNat then .fault s (joinArg none k)
    else if k = 0 then .done s
    else
      match s.release t.core w.tid w.p q (if joinRank h = s.rank.toNat then .dv else .sy) with
      | (_, some x) => .hold x
      | (s, none) =>
        let now : Effect :=
          match s.resolve w.tid o h k.toNat false with
          | (s, true) => .fault s (doubleResolve h)
          | (s, false) => .done s
        let defer (awaits : List Nat) : Effect :=
          if awaits.isEmpty then now
          else
            .done { s with deferred := s.deferred ++
                [({ tid := w.tid, handle := h, n := k.toNat, awaits := awaits, origin := o } : Deferred)] }
        match f with
        | .imm => now
        | .mx => defer (match t.seq with | some m => m.ops.map MatOp.id | none => [])
        | .cmd r => defer (match s.latestCmd w t r.toNat with | some id => [id] | none => [])

/-- A command or matrix operation has completed: the resolutions that awaited only it are made (R359). -/
def State.completeOp (s : State) (id : Nat) : State :=
  let ds := s.deferred.map fun d => { d with awaits := d.awaits.filter (· != id) }
  let due := ds.filter fun d => d.awaits.isEmpty
  due.foldl (fun s d => s.resolveFor d.tid d.origin d.handle d.n true)
    { s with deferred := ds.filter fun d => !d.awaits.isEmpty }

/-- futst (R369): the state word, after the release of R475; for a slot of another device the party waits for the read that
crosses the fabric. -/
def execFutst (d j : SReg) (s : State) : Host.Outcome State Fault Refusal :=
  let i := Instr.futst d j
  runTeam i s fun w t q s =>
    let h := q.getS w.sl j.toNat
    if s.malformed t h then .fault s (joinArg none h)
    else
      match (q.slot w.sl).wait with
      | .joinRead r => if q.accesses.any fun a => a.kind == .futst && a.slot == w.sl then .hold (.joinRead r) else .done s
      | _ =>
        match s.release t.core w.tid w.p q (if joinRank h = s.rank.toNat then .dv else .sy) with
        | (_, some x) => .hold x
        | (s, none) =>
          if joinRank h = s.rank.toNat then
            .done (s.modParty w.tid w.p fun q => q.setS w.sl d.toNat (s.joinWord (joinKey h)))
          else
            let (id, s) := s.fresh
            let lane : LaneAcc :=
              { lane := 96, va := 0, failed := none, val := none
                tgt := some { pa := 0, peer := some (joinRank h), mt := 0, wsa := false, cv := false, mig := false } }
            let acc := newAccess i w q id .futst d.toNat .w32 (some { str := .acq, scope := .sy }) .ca [lane]
            .wait ((s.addAccess w acc).request w.tid (some w.p) (some (id, 96)) (originOf w q i.word) (joinRank h) 0
              (.joinRead h)).1 (.joinRead (joinRank h))

end Sys2Proof.Machine
end

