-- ==== Sys2Proof/Machine/Barrier.lean ====
section
/-!
DEFINITION. Barriers (R379 to R383): bar.arrive, bar.wait, bar.sync, and the completion of a phase.
-/

namespace Sys2Proof.Machine

open Sys2Proof

def BarScope.code : BarScope → Nat
  | .tm => 0
  | .cl => 1
  | .run => 2

/-- The scope of the release that an arrival makes (R381). -/
def relScope : BarScope → Scope
  | .tm => .tm
  | .cl => .cl
  | .run => .sy

/-- The barrier that a team's instruction names: the team's, its cluster's or its run's. A team that is no member of a
cluster group has no cluster barrier. -/
def barOf (t : Team) (tid : Nat) (c : BarScope) (b : Nat) : Option BarRef :=
  match c with
  | .tm => some (.team tid b)
  | .cl => if t.group.isSome then some (.cluster (clusterOf t.core) b) else none
  | .run => some (.run t.run b)

def Barrier.fresh : Barrier := { phase := 0, arrived := [] }

/-- A barrier's state. -/
def State.barrier (s : State) (r : BarRef) : Barrier :=
  match r with
  | .team tid b =>
    match Map.find s.teams tid with
    | some t => (Map.find t.barriers b).getD Barrier.fresh
    | none => Barrier.fresh
  | .cluster c b => (Map.find s.clBarriers (16 * c + b)).getD Barrier.fresh
  | .run n b =>
    match Map.find s.runs n with
    | some x => (Map.find x.barriers b).getD Barrier.fresh
    | none => Barrier.fresh

def State.setBarrier (s : State) (r : BarRef) (x : Barrier) : State :=
  match r with
  | .team tid b => s.modTeam tid fun t => { t with barriers := Map.set t.barriers b x }
  | .cluster c b => { s with clBarriers := Map.set s.clBarriers (16 * c + b) x }
  | .run n b => s.modRun n fun y => { y with barriers := Map.set y.barriers b x }

/-- A barrier count mismatch (R380, R399). -/
def mismatch (c : BarScope) (b : Nat) : Cause := { cause := 0x09, info := BitVec.ofNat 32 (16 * BarScope.code c + b) }

/-- The participant has arrived in the open phase. -/
def Barrier.has (x : Barrier) (tid who : Nat) : Bool := x.arrived.any fun a => a.tid == tid && a.who == who

/-- An arrival is counted (R380). -/
def State.arrive (s : State) (r : BarRef) (a : Arrival) : State :=
  let x := s.barrier r
  s.setBarrier r { x with arrived := x.arrived ++ [a] }

/-- What an arrival's release waits for. -/
def Party.owes (q : Party) : List Nat := q.accesses.map Access.id ++ q.remote

/-- Store streams that take no more pushes and are not written. -/
def Party.owedStreams (q : Party) : List Nat := (q.ports.filter fun x => x.2.kind == .store && x.2.ended).map Prod.fst

/-- An arrival counts: its release is complete, with no store of the party held at the directory (R52, R381). -/
def State.counts (s : State) (a : Arrival) : Bool :=
  match s.party? a.tid a.who with
  | none => true
  | some q =>
    !(a.awaits.any q.owes.contains) && (!a.streams.any q.owedStreams.contains) &&
      !s.heldStores.any fun h => h.owners.contains (a.tid, a.who)

/-- A party arrives (R380, R381): the checks, and the release at the barrier's scope. The PC slot goes on at once; the
arrival counts when the release is complete. The answer is the phase. -/
def arriveEffect (c : BarScope) (b : Nat) (w : Issuer) (t : Team) (q : Party) (s : State)
    (next : State → Nat → Effect) : Effect :=
  match barOf t w.tid c b with
  | none => .fault s (mismatch c b)
  | some r =>
    if (s.barrier r).has w.tid w.p then .fault s (mismatch c b)
    else
      let s := (s.release t.core w.tid w.p q (relScope c)).1
      let ph := (s.barrier r).phase
      let x := q.slot w.sl
      let s := s.arrive r
        { tid := w.tid, who := w.p, fmt := x.fmt, mode := x.mode, awaits := q.owes, streams := q.owedStreams }
      next (s.modParty w.tid w.p fun q => { q with arrivals := Map.set q.arrivals (16 * BarScope.code c + b) ph }) ph

/-- The phase that a slot waits for at a barrier: the one it already waits for, or that of the party's last arrival
(R381). -/
def Party.awaited (q : Party) (sl : Bool) (key : Nat) : Option Nat :=
  match (q.slot sl).wait, (q.slot sl).barWait with
  | .barrier .., some (k, ph) => if k = key then some ph else Map.find q.arrivals key
  | _, _ => Map.find q.arrivals key

/-- The slot waits until the phase of the party's last arrival has completed (R381). -/
def waitEffect (c : BarScope) (b : Nat) (w : Issuer) (t : Team) (q : Party) (s : State) : Effect :=
  match barOf t w.tid c b, q.awaited w.sl (16 * BarScope.code c + b) with
  | some r, some ph =>
    if ph < (s.barrier r).phase then .done s
    else
      .wait (s.modParty w.tid w.p fun q => q.modSlot w.sl fun x => { x with barWait := some (16 * BarScope.code c + b, ph) })
        (.barrier (BarScope.code c) b ph)
  | _, _ => .done s

def execBarArrive (c : BarScope) (b : BitVec 4) (s : State) : Host.Outcome State Fault Refusal :=
  runTeam (.barArrive c b) s fun w t q s => arriveEffect c b.toNat w t q s fun s _ => .done s

def execBarWait (c : BarScope) (b : BitVec 4) (s : State) : Host.Outcome State Fault Refusal :=
  runTeam (.barWait c b) s fun w t q s => waitEffect c b.toNat w t q s

/-- bar.sync arrives once and then waits; a slot that already waits here has arrived. -/
def execBarSync (c : BarScope) (b : BitVec 4) (s : State) : Host.Outcome State Fault Refusal :=
  runTeam (.barSync c b) s fun w t q s =>
    match (q.slot w.sl).wait with
    | .barrier .. => waitEffect c b.toNat w t q s
    | _ =>
      arriveEffect c b.toNat w t q s fun s _ =>
        match s.site w with
        | some (t, q) => waitEffect c b.toNat w t q s
        | none => .done s

/-! ## Completion (R380, R382) -/

/-- The parties of a team that count toward its barriers: those that have not retired, of a team that has not
faulted. -/
def Team.counting (t : Team) (tid : Nat) : List (Nat × Nat) :=
  if t.fault.isSome then []
  else (t.parties.filter fun q => !q.2.retired).map fun q => (tid, q.1)

/-- The current participants of a barrier (R379): a sequencer meets the team barriers whose SEQBAR bit is set. -/
def State.participants (s : State) (r : BarRef) : List (Nat × Nat) :=
  match r with
  | .team tid b =>
    match Map.find s.teams tid with
    | none => []
    | some t =>
      let seq : Bool :=
        (match s.node? t with | some n => n.seqbar.getLsbD b | none => false) &&
          (match t.seq with | some q => !q.stopped | none => false) && t.fault.isNone
      t.counting tid ++ if seq then [(tid, 16)] else []
  | .cluster c _ => s.teams.flatMap fun t => if t.2.group.isSome && clusterOf t.2.core == c then t.2.counting t.1 else []
  | .run n _ => s.teams.flatMap fun t => if t.2.run == n then t.2.counting t.1 else []

/-- Every participant of this device has arrived, and its arrival counts. -/
def State.partDone (s : State) (r : BarRef) : Bool :=
  (s.participants r).all fun a => (s.barrier r).arrived.any fun x => x.tid == a.1 && x.who == a.2 && s.counts x

/-- The same of a phase in which some participant has arrived. -/
def State.phaseFull (s : State) (r : BarRef) : Bool := !(s.barrier r).arrived.isEmpty && s.partDone r

/-- The next phase opens. -/
def State.openPhase (s : State) (r : BarRef) : State :=
  s.setBarrier r { phase := (s.barrier r).phase + 1, arrived := [] }

/-- What the completion of a team barrier gives a sequencer that meets it: fmt and mode from the arrival of the
lowest-numbered party (R267), and the lko register's new value for the parties (R299). -/
def Team.meet (t : Team) (x : Barrier) : Team :=
  let from_ := (x.arrived.filter fun a => decide (a.who < 16)).foldl
    (fun (o : Option Arrival) a => match o with | some b => if a.who < b.who then some a else o | none => some a) none
  let t := { t with lko := t.lkoNew.headD t.lko, lkoNew := [] }
  match from_ with
  | some a => t.modSeq fun q => { q with fmt := a.fmt, mode := a.mode }
  | none => t

/-- The team's sequencer meets its barrier number b (R267, R337). -/
def State.meets (s : State) (t : Team) (b : Nat) : Bool :=
  (match s.node? t with | some n => n.seqbar.getLsbD b | none => false) && t.seq.isSome

/-- A run barrier of several devices (R382): this device's part of the open phase is announced to the others once it is
complete. A device without participants announces its part when it hears of the phase. The phase completes with the parts
of all members, and with the arrivals of the teams that have been launched here since (R379, R380). -/
def State.runPhase (s : State) (n b : Nat) (x : Run) : State :=
  let r := BarRef.run n b
  let ph := (s.barrier r).phase
  let msg := Reply.runBarrier n b ph
  let heard := x.remoteArrived.any fun m => m.1 == b && m.2.1 == ph
  let s := if s.sent.contains msg || !(s.phaseFull r || (heard && s.partDone r)) then s else { s with sent := s.sent ++ [msg] }
  let all := x.members.all fun m => m.rank == s.rank.toNat || x.remoteArrived.contains (b, ph, m.rank)
  if s.sent.contains msg && all && s.partDone r then
    (s.openPhase r).modRun n fun y =>
      { y with remoteArrived := y.remoteArrived.filter fun m => !(m.1 == b && m.2.1 == ph) }
  else s

/-- A phase completes (R380). -/
def execBarrierPhaseComplete (r : BarRef) (s : State) : Host.Outcome State Fault Refusal :=
  match r with
  | .run n b =>
    match Map.find s.runs n with
    | none => .next s
    | some x =>
      if 1 < x.members.length then .next (s.runPhase n b x)
      else if s.phaseFull r then .next (s.openPhase r)
      else .next s
  | .team tid b =>
    if !s.phaseFull r then .next s
    else
      let x := s.barrier r
      match Map.find s.teams tid with
      | none => .next s
      | some t => .next ((if s.meets t b then s.modTeam tid fun t => t.meet x else s).openPhase r)
  | .cluster .. => if s.phaseFull r then .next (s.openPhase r) else .next s

/-- A member has completed its part of a phase of a run barrier: the barrier, the phase and its rank (R382). -/
def execRunBarrierMessage (run : Nat) (part : Nat × Nat × Nat) (s : State) : Host.Outcome State Fault Refusal :=
  .next (s.modRun run fun y =>
    { y with remoteArrived := if y.remoteArrived.contains part then y.remoteArrived else part :: y.remoteArrived })

end Sys2Proof.Machine
end

