-- ==== Sys2Proof/Machine/Convoy.lean ====
section
/-!
DEFINITION. Convoys and views (R324 to R334): cvopen, cvclose, cvstat, cvst, cvld, and the steps in which a convoy commits
and a cvclose completes.
-/

namespace Sys2Proof.Machine

open Sys2Proof

/-- A core's convoy slot as a key. -/
def cvKey (core slot : Nat) : Nat := 16 * core + slot

/-- A token's kind, slot and identity (R324). -/
def tokenView (x : Word) : Bool := x.getLsbD 31
def tokenSlot (x : Word) : Nat := (fld x 24 4).toNat
def tokenCid (x : Word) : BitVec 24 := fld x 0 24

/-- The token of a slot. -/
def tokenOf (view : Bool) (slot : Nat) (cid : BitVec 24) : Word :=
  (if view then 0x80000000#32 else 0) ||| (BitVec.ofNat 32 slot <<< 24) ||| cid.setWidth 32

def cvToken : Cause := protection 0x17

/-- The convoy or view that a token names, of the kind asked for: a free slot, another team's or another kind's is
CVTOKEN (R330). -/
def State.named (s : State) (core tid : Nat) (x : Word) (view : Bool) : Option CvSlot :=
  match Map.find s.cvSlots (cvKey core (tokenSlot x)) with
  | some c => if tokenView x = view ∧ c.view = view ∧ c.tid = tid ∧ c.cid = tokenCid x then some c else none
  | none => none

/-- One of a list, by a free value. -/
def pick (xs : List Nat) (choice : Nat) : Option Nat := xs[choice % xs.length]?

/-- A free convoy slot of a core; which one it is is open (R331). -/
def State.freeCvSlot (s : State) (core : Nat) : Option Nat :=
  pick ((List.range 16).filter fun k => (Map.find s.cvSlots (cvKey core k)).isNone) (Config.convoyChoice s.free)

/-- A free slot of this device's convoy table; which one it is is open (R331). -/
def State.freeTableSlot (s : State) : Option Nat :=
  pick ((List.range' 1 4095).filter fun k => (Map.find s.cvTable k).isNone) (Config.convoyChoice (s.free + 1))

/-- The home allocates a table slot and the next version of it, for a device: the identity and the version. -/
def State.allocConvoy (s : State) (source : Nat) : Option (State × BitVec 24 × Word) :=
  s.freeTableSlot.map fun n =>
    let ver := Store.read s.cvVersions n + 1
    ({ s with
        cvTable := Map.set s.cvTable n .opened, cvOpeners := Map.set s.cvOpeners n source
        cvVersions := Store.write s.cvVersions n ver },
      BitVec.ofNat 24 (4096 * s.rank.toNat + n), ver)

/-- The ranks of a run's members (R360). -/
def State.memberRanks (s : State) (t : Team) : List Nat :=
  match Map.find s.runs t.run with
  | some r => r.members.map Member.rank
  | none => []

/-- The convoy slot of a cvopen that a PC slot has begun at a home that is a peer. -/
def State.opening (s : State) (core : Nat) (w : Issuer) : Option (Nat × CvSlot) :=
  s.cvSlots.find? fun c => c.1 / 16 == core && c.2.tid == w.tid && c.2.opener == some (w.p, w.sl)

/-- cvopen (R331). A peer that is the home is asked for a table slot and a version, and the PC slot waits for its
answer. -/
def execCvopen (d a : SReg) (view : Bool) (s : State) : Host.Outcome State Fault Refusal :=
  let i := Instr.cvopen d a view
  runTeam i s fun w t q s =>
    let home := if a = 0 then s.rank.toNat else (fld (q.getS w.sl a.toNat) 0 12).toNat
    let opened (s : State) (k : Nat) (c : CvSlot) : Effect :=
      .done ({ s with cvSlots := Map.set s.cvSlots (cvKey t.core k) { c with opener := none } }.modParty w.tid w.p fun q =>
        q.setS w.sl d.toNat (tokenOf view k c.cid))
    match s.opening t.core w with
    | some (key, c) => if c.state = .idle then .hold .cvopen else opened s (key % 16) c
    | none =>
      if !view && a != 0 && !(s.memberRanks t).contains home then .fault s (protection 0x18 (BitVec.ofNat 32 home))
      else
        match s.freeCvSlot t.core with
        | none => .hold .cvopen
        | some k =>
          let slot (cid : BitVec 24) (ver : Word) : CvSlot :=
            { view := view, tid := w.tid, cid := cid, ver := ver, stamp := BitVec.ofNat 64 s.ns, lost := false,
              state := .opened, lines := [], opener := none, closing := none }
          if view then opened s.useFree k (slot 0 0)
          else if home = s.rank.toNat then
            match s.allocConvoy s.rank.toNat with
            | none => .hold .cvopen
            | some (s, cid, ver) => opened s.useFree.useFree k (slot cid ver)
          else
            let c : CvSlot :=
              { slot (BitVec.ofNat 24 (4096 * home)) 0 with state := .idle, opener := some (w.p, w.sl) }
            let s := { s.useFree with cvSlots := Map.set s.cvSlots (cvKey t.core k) c }
            .wait (s.request w.tid (some w.p) none (originOf w q i.word) home 0 .cvopen).1 .cvopen

/-- The home of a convoy answers with its table slot and version. A team that has ended meanwhile gives it back. -/
def State.openedAway (s : State) (tid p : Nat) (sl : Bool) (home x : Nat) : State :=
  let cid := BitVec.ofNat 24 (4096 * home + x % 4096)
  let ver : Word := BitVec.ofNat 32 (x / 4096)
  match s.cvSlots.find? fun c => c.2.tid == tid && c.2.opener == some (p, sl) && c.2.state == .idle with
  | some (key, c) => { s with cvSlots := Map.set s.cvSlots key { c with cid := cid, ver := ver, state := .opened } }
  | none => s.tellPeers tid [home] (.cvabort cid ver)

/-- The status word of R330. -/
def cvStatus (done lost : Bool) (st : CvState) (lines : Nat) : Word :=
  let code : Nat := match st with | .idle => 0 | .opened => 1 | .committed => 2 | .aborted => 3
  (if done then 0x80000000#32 else 0) ||| (if lost then 0x40000000#32 else 0) ||| (BitVec.ofNat 32 code <<< 28) |||
    (BitVec.ofNat 32 lines <<< 16)

/-- cvstat (R332): a token whose slot has been freed reads as 0. -/
def execCvstat (d tok : SReg) (s : State) : Host.Outcome State Fault Refusal :=
  runTeam (.cvstat d tok) s fun w t q s =>
    let x := q.getS w.sl tok.toNat
    let put (v : Word) : Effect := .done (s.modParty w.tid w.p fun q => q.setS w.sl d.toNat v)
    match Map.find s.cvSlots (cvKey t.core (tokenSlot x)) with
    | none => put 0
    | some c =>
      if c.state = .idle then put 0
      else if c.tid ≠ w.tid ∨ c.view ≠ tokenView x then .fault s cvToken
      else if c.cid ≠ tokenCid x then put 0
      else put (cvStatus false c.lost c.state c.lines.length)

/-- A request that belongs to a convoy's close is outstanding: a store, a line's acknowledgement, the home's commit. -/
def State.closingAway (s : State) (c : CvSlot) : Bool :=
  s.outstanding.any fun o =>
    match o.req.op with
    | .cvprepare cid ver | .cvstore cid ver .. | .cvhome cid ver _ => cid == c.cid && ver == c.ver
    | _ => false

/-- cvclose (R333). A view's slot is freed at once, with no cvld of its team outstanding in it; a convoy's closes after its stores
at peers and a release at .sy, its commit (CONVOY_COMMIT) and the accuracy bound of the time base (CVCLOSE_DONE). -/
def execCvclose (d tok : SReg) (s : State) : Host.Outcome State Fault Refusal :=
  let i := Instr.cvclose d tok
  runTeam i s fun w t q s =>
    let x := q.getS w.sl tok.toNat
    let key := cvKey t.core (tokenSlot x)
    match s.named t.core w.tid x (tokenView x) with
    | none => .fault s cvToken
    | some c =>
      if c.view then
        if t.parties.any fun r => r.2.accesses.any fun a => a.kind == .cvld && a.view == key then .hold .memory
        else
          .done ({ s with cvSlots := Map.drop s.cvSlots key }.modParty w.tid w.p fun q =>
            q.setS w.sl d.toNat (cvStatus true c.lost .idle 0))
      else if c.state ≠ .opened ∨ c.closing.isSome then .fault s cvToken
      else if s.closingAway c then .hold .memory
      else
        match s.release t.core w.tid w.p q .sy with
        | (_, some h) => .hold h
        | (s, none) =>
          let (id, s) := s.fresh
          let o := originOf w q i.word
          let s := c.linePeers.foldl (fun s r =>
            (s.request w.tid (some w.p) none o r 0 (.cvprepare c.cid c.ver)).1) s
          let c' : CvSlot := { c with closing := some { op := id, p := w.p, sd := d.toNat, origin := o } }
          .done ({ s with cvSlots := Map.set s.cvSlots key c' }.modParty w.tid w.p fun q =>
            { q with pending := q.pending ++ [({ kind := 1, num := d.toNat, op := id } : Pending)] })

/-- A convoy has committed with a stamp in nanoseconds (R326): its lines follow, here and on the peers that hold some. The slot of
one whose team has ended is free. -/
def State.committed (s : State) (key : Nat) (c : CvSlot) (stamp : Nat) : State :=
  let comp := c.lines.length - 1
  let s := s.commitLines c.cid c.ver stamp comp
  let s := s.tellPeers c.tid (c.linePeers.filter (· != cidRank c.cid)) (.cvcommit c.cid c.ver (BitVec.ofNat 64 stamp) comp)
  let gone : Bool := c.closing.isNone
  { s with cvSlots := if gone then Map.drop s.cvSlots key
      else Map.set s.cvSlots key { c with state := .committed, stamp := BitVec.ofNat 64 stamp } }

/-- A convoy commits at its home (R326), once every device that holds a line has acknowledged: here when tbase has passed
the stamp of the convoys that committed before, or at the peer that is its home. -/
def execConvoyCommit (slot : Nat) (s : State) : Host.Outcome State Fault Refusal :=
  match Map.find s.cvSlots slot with
  | none => .next s
  | some c =>
    match c.closing with
    | none => .next s
    | some x =>
      if c.view ∨ c.state ≠ .opened ∨ s.closingAway c then .next s
      else if cidRank c.cid = s.rank.toNat then
        if s.ns < s.cvLast then .next s
        else .next (({ s with cvLast := s.ns + 1, cvTable := Map.set s.cvTable (cidSlot c.cid) .committed } : State).committed
          slot c s.ns)
      else
        .next ((s.request c.tid (some x.p) none x.origin (cidRank c.cid) 0 (.cvhome c.cid c.ver (c.lines.length - 1))).1.prepare
          c.cid c.ver)

/-- The home has committed a convoy of this device, with a stamp. -/
def State.committedAway (s : State) (cid : BitVec 24) (ver : Word) (stamp : Nat) : State :=
  match s.cvSlots.find? fun c => !c.2.view && c.2.cid == cid && c.2.ver == ver && c.2.state == .opened with
  | some (key, c) => s.committed key c stamp
  | none => s

/-- A cvclose completes once the bound of the time base has passed the stamp (R333, R453): the slot is freed and the
status written. -/
def execCvcloseDone (tid p : Nat) (s : State) : Host.Outcome State Fault Refusal :=
  match s.cvSlots.find? fun c =>
      c.2.tid == tid && c.2.state == .committed && (match c.2.closing with
        | some x => x.p == p && decide (c.2.stamp.toNat + s.bound < s.ns)
        | none => false) with
  | none => .next s
  | some (key, c) =>
    match c.closing with
    | none => .next s
    | some x =>
      .next ({ s with
          cvSlots := Map.drop s.cvSlots key
          cvTable := if cidRank c.cid = s.rank.toNat then Map.drop s.cvTable (cidSlot c.cid) else s.cvTable
        }.modParty tid p fun q =>
          { q.setS false x.sd (cvStatus true false .committed c.lines.length) with
            pending := q.pending.filter fun y => y.op != x.op })

/-- The key of a convoy's line: of this device, or of a peer. -/
def cvLineKey (peer : Option Nat) (pa : Nat) : Nat :=
  match peer with
  | some r => 2 ^ 52 * (r + 1) + pa / 256
  | none => pa / 256

/-- The lanes of a cvst, in order: the abort causes are tested as each line is first touched (R329, R334). Lanes on DEV pages
are unmerged and one after another (R56, R442). -/
def State.convoyLanes (s : State) (core tid p key : Nat) (o : Origin) (n : Nat) (ls : List (Target × Nat × Nat))
    (since : Nat := s.nextId) : State × Option Nat :=
  match ls with
  | [] => (s, none)
  | (t, va, x) :: rest =>
    match Map.find s.cvSlots key with
    | none => (s, none)
    | some c =>
      let bs := toBytes n x
      let go (s : State) (line : Nat) : State × Option Nat :=
        ({ s with cvSlots := Map.update s.cvSlots key fun c =>
            if c.lines.contains line then c else { c with lines := line :: c.lines } }).convoyLanes core tid p key o n rest since
      let full (line : Nat) : Bool := !c.lines.contains line && decide (512 ≤ c.lines.length)
      let away (s : State) (r pa key : Nat) : State × Option Nat :=
        if full key then (s, some 1)
        else
          let op : FabOp := .cvstore c.cid c.ver (byteMask (pa % 256) n) (lineOf (pa % 256) bs)
          let line := pa / 256 * 256
          if t.mt = 3 then go (s.peerWrite tid p o r line op va (dev := true)) key
          else go ((s.coalesce since tid p r line [] op).getD (s.peerWrite tid p o r line op va)) key
      match t.peer with
      | some r => away s r t.pa (cvLineKey (some r) t.pa)
      | none =>
        match s.settle t.pa with
        | (s, some r, pa) => away s r pa (cvLineKey (some r) pa)
        | (s, none, pa) =>
          if t.mt = 3 ∧ (s.lastDev tid p).isSome then away s s.rank.toNat pa (cvLineKey none pa)
          else if full (cvLineKey none pa) then (s, some 1)
          else
            match (s.drain core fun e => e.line / 4 == pa / 256).pendStore c.cid c.ver pa bs with
            | .error e => (s, some e)
            | .ok s => go s (cvLineKey none pa)

/-- cvst: the token, alignment, translation with R27 on every lane before R28, NOCONVOY among it, on any; then the lanes. -/
def execCvst (d : VReg) (a : SReg) (b : BOp) (o : Option Ord) (pol : Policy) (z : Size) (tok : SReg) (s : State) :
    Host.Outcome State Fault Refusal :=
  let i := Instr.cvst d a b o pol z tok
  runTeam i s fun w t q s =>
    let x := q.getS w.sl tok.toNat
    let n := Size.bytes z
    let as := q.eaLanes w.sl a b
    let e := OrdForm.store.eff o
    if q.acquiring then .hold .memory
    else
      match s.named t.core w.tid x false with
      | none => .fault s cvToken
      | some c =>
        if c.state ≠ .opened ∨ c.closing.isSome then .fault s cvToken
        else
          match badAddress (s.tagOf t) n as with
          | some k => .fault s k
          | none =>
            match s.translateStores t.core (s.tagOf t) (s.privileged t) as .cvstore with
            | (s, .error k) => .fault s k
            | (s, .ok ls) =>
              if s.conflicts q true ls n || s.devHold w.tid w.p q ls || s.heldLines ls then .hold .memory
              else
                match (if e.str = .rel then s.release t.core w.tid w.p q e.scope else (s, none)) with
                | (_, some h) => .hold h
                | (s, none) =>
                  if as.isEmpty then .done s
                  else
                    let stores := ls.filterMap fun y => y.tgt.map fun g => (g, y.va, (q.storeData z d.toNat y.lane).toNat)
                    match s.convoyLanes t.core w.tid w.p (cvKey t.core (tokenSlot x)) (originOf w q i.word) n stores with
                    | (s, some sub) =>
                      .fault (s.abortConvoy c.cid c.ver) { cause := 0x10, sub := sub, info := c.cid.setWidth 32 }
                    | (s, none) =>
                      let s := (coveredSectors n stores).foldl (fun s k =>
                        match s.settle (64 * k) with
                        | (s, none, pa) => s.cleanPending c.cid c.ver (pa / 64)
                        | (s, some _, _) => s) s
                      .done (s.modParty w.tid w.p fun q => q.raise (e.warn ||| lanesPolicy pol ls))

/-- cvld: the checks as those of cvst (R334); the lanes read under the view (R327). -/
def execCvld (d : VReg) (a : SReg) (b : BOp) (o : Option Ord) (pol : Policy) (z : Size) (tok : SReg) (s : State) :
    Host.Outcome State Fault Refusal :=
  let i := Instr.cvld d a b o pol z tok
  runTeam i s fun w t q s =>
    let x := q.getS w.sl tok.toNat
    let n := Size.bytes z
    let as := q.eaLanes w.sl a b
    if q.acquiring then .hold .memory
    else
      match s.named t.core w.tid x true with
      | none => .fault s cvToken
      | some _ =>
        if as.isEmpty then .done s
        else
          match badAddress (s.tagOf t) n as with
          | some k => .fault s k
          | none =>
            match s.translateStores t.core (s.tagOf t) (s.privileged t) as .cvload with
            | (s, .error k) => .fault s k
            | (s, .ok ls) =>
              if s.conflicts q false ls n then .hold .memory
              else
                let (id, s) := s.fresh
                .done (s.addAccess w { newAccess i w q id .cvld d.toNat z o pol ls with
                  view := cvKey t.core (tokenSlot x) })

end Sys2Proof.Machine
end

