-- ==== Sys2Proof/Machine/Copy.lean ====
section
/-!
DEFINITION. The tile-copy engine (R100 to R119, R199 to R206): cpy, cpg, cps, cpm, cpwp, cpcan, and the delivery and
completion of a channel's commands.
-/

namespace Sys2Proof.Machine

open Sys2Proof

/-! ## Shapes -/

/-- Bytes of an element for the alignment rule of R103. -/
def elemBytes (h : Handle) : Nat := if hBits h < 8 then 1 else hBits h / 8

/-- The rows of a command in delivery order: the source row (none for zeros) and the destination row (none for nothing
written). -/
def CopyCmd.rows (c : CopyCmd) : List (Option Nat × Option Nat) :=
  match c.kind with
  | .cpy | .cpm _ => (List.range (hRows c.src)).map fun r => (some r, some r)
  | .cpg => c.index.map fun x => (if x.2 = 0xFFFFFFFF then none else some x.2.toNat, some x.1)
  | .cps => c.index.map fun x => (some x.1, if x.2 = 0xFFFFFFFF then none else some x.2.toNat)

/-- Bytes of a destination row. -/
def CopyCmd.rowLen (c : CopyCmd) : Nat :=
  match c.kind with
  | .cpm _ => hRowLen c.src
  | _ => hRowLen c.dst

/-- The command counts rows (R113). -/
def CopyCmd.byRows (c : CopyCmd) : Bool :=
  match c.kind with
  | .cpg | .cps => true
  | _ => false

/-- What the command counts in all: bytes, or rows. DESIGN CHOICE: a cps whose every index is 0xFFFFFFFF, so that it has no
destination byte, counts its rows under R113; it is no copy of zero bytes that completes at once under R103 (log entry
68). -/
def CopyCmd.total (c : CopyCmd) : Nat :=
  match c.kind with
  | .cpm 0 => 0
  | _ => if c.byRows then c.rows.length else c.rows.length * c.rowLen

/-- The elements are converted (R104). -/
def CopyCmd.converts (c : CopyCmd) : Bool :=
  match c.kind with
  | .cpy => hFmt c.src != hFmt c.dst
  | _ => false

/-- Where the ring of a receiver holds a slot for a sender (R114): its offset in the receiver's local store. -/
def ringSlot (n : Node) (sender receiver slot : Nat) : Nat :=
  let i := if sender < receiver then sender else sender - 1
  n.rbase + i * n.rslots * n.rsize * 64 + slot * n.rsize * 64

/-- The members of a team's cluster group: (team, vcore), the team itself among them. -/
def State.groupOf (s : State) (t : Team) : List (Nat × Nat) :=
  match t.group with
  | none => []
  | some g => (s.teams.filter fun (_, u) => u.group == some g).map fun (k, u) => (k, u.vcore)

/-- The team that is member m of a team's group. -/
def State.memberTeam (s : State) (t : Team) (m : Nat) : Option Nat :=
  ((s.groupOf t).find? fun x => x.2 == m).map Prod.fst

/-- The places that a destination byte of a command goes to: team, location kind, address. -/
def State.placesOf (s : State) (tid : Nat) (t : Team) (c : CopyCmd) (row off : Nat) : List (Nat × Nat × Nat) :=
  match c.kind with
  | .cpm _ =>
    c.ring.filterMap fun (m, slot) =>
      match s.memberTeam t m, s.node? t with
      | some k, some n => some (k, 1, ringSlot n t.vcore m slot + row * c.rowLen + off)
      | _, _ => none
  | _ => [(tid, hLoc c.dst, hBase c.dst + row * hPitch c.dst + off)]

/-! ## Ownership (R111) -/

/-- The destination lines of a whole command, each with the position at which the command is done with it. -/
def State.destLines (s : State) (tid : Nat) (t : Team) (c : CopyCmd) : List (Nat × Nat) :=
  ((List.range c.rows.length).zip c.rows).flatMap fun (k, r) =>
    match r.2 with
    | none => []
    | some row =>
      (s.placesOf tid t c row 0).flatMap fun (owner, loc, a) =>
        let firsts :=
          if c.rowLen = 0 then []
          else a :: (List.range' (a / 256 + 1) ((a + c.rowLen - 1) / 256 - a / 256)).map (256 * ·)
        firsts.filterMap fun x =>
          let done := if c.byRows then k + 1 else k * c.rowLen + min c.rowLen (x / 256 * 256 + 256 - a)
          if loc = 1 then some (lsKey owner x, done)
          else
            match s.peekTarget t.core (s.tagOf t) (s.privileged t) .store x with
            | some g => if g.peer.isNone then some (lineKey (s.whereNow g.pa), done) else none
            | none => none

/-! ## Issue (R199 to R204) -/

def cpShape : Cause := protection 0x09
def cpLen : Cause := protection 0x08

/-- The first format code that R201 forbids. -/
def badFormats (hs : Handle) (hd : Option Handle) : Bool :=
  hFmt hs == 0xE || hFmt hs == 0xF || hd.any fun h => hFmt h == 0xE

/-- Alignment of a converting copy's endpoints (R103). -/
def misalignedEnd (h : Handle) : Option Cause :=
  if hBase h % elemBytes h ≠ 0 ∨ hPitch h % elemBytes h ≠ 0 then some { cause := 0x05, addr := some (hBase h) } else none

/-- The local-store range of an endpoint (R65). -/
def Team.endRange (t : Team) (h : Handle) : Option Cause := t.lsSpan h (hBase h, hBase h + hExtent h)

/-- Reads a handle and makes the checks of R345. -/
def State.copyHandle (s : State) (tid n : Nat) : State × Except Cause Handle :=
  match s.fetchHandle tid n 0 with
  | (s, .error c) => (s, .error c)
  | (s, .ok h) =>
    match handleFault h with
    | some c => (s, .error c)
    | none => (s, .ok h)

/-- Scope of a copy: .pt runs as .tm (R172). -/
def copyScope (c : Scope) : Scope := if c = .pt then .tm else c

/-- SEQ and DELIVERED (R107). -/
def wptrOf (seq delivered : Nat) : Word := BitVec.ofNat 32 (seq % 128 * 2 ^ 25 + delivered)

/-- Changes a channel of a team. -/
def State.modChan (s : State) (tid ch : Nat) (f : Channel → Channel) : State :=
  s.modTeam tid fun t => { t with channels := Map.update t.channels ch f }

/-- A command's status word (R109). -/
def statusOf (poison can : Bool) (n : Nat) : Word :=
  BitVec.ofNat 32 (2 ^ 31 + (if poison then 2 ^ 30 else 0) + (if can then 2 ^ 29 else 0) + n)

/-- A command enters its channel; one of nothing completes at once (R103, R114). -/
def State.queueCopy (s : State) (w : Issuer) (ch : Nat) (c : CopyCmd) : State :=
  match Map.find s.teams w.tid with
  | none => s
  | some t =>
    match Map.find t.channels ch with
    | none => s
    | some x =>
      let (id, s) := s.fresh
      let c := { c with id := id, seq := x.next }
      let fresh := x.cmds.isEmpty
      if c.total = 0 then
        (s.modChan w.tid ch fun x =>
          { x with next := (x.next + 1) % 128, wptr := if fresh then wptrOf c.seq 0 else x.wptr }).modParty w.tid w.p
          fun q => (q.setS w.sl c.sd (statusOf false false 0)).raise c.flags
      else
        let c := { c with owned := s.destLines w.tid t c }
        (s.modChan w.tid ch fun x =>
          { x with
            cmds := x.cmds ++ [c], next := (x.next + 1) % 128
            wptr := if fresh then wptrOf c.seq 0 else x.wptr }).modParty w.tid w.p fun q =>
          if c.sd = 0 then q else { q with pending := q.pending ++ [{ kind := 1, num := c.sd, op := id }] }

/-- The waits of a copy that its checks have passed: the channel's queue, then the drain of R105; then it is queued. What its
core still buffers is older than the copy's writes and goes first, whatever the scope. -/
def startCopy (w : Issuer) (t : Team) (q : Party) (s : State) (ch : Nat) (scope : Scope) (c : CopyCmd) : Effect :=
  match Map.find t.channels ch with
  | none => .fault s registerRange
  | some x =>
    if 4 ≤ x.cmds.length then .hold (.channelFull ch)
    else
      match s.release t.core w.tid w.p q (copyScope scope) with
      | (_, some x) => .hold x
      | (s, none) =>
        .done ((s.drain t.core fun _ => true).queueCopy w ch
          { c with place := s.placeNow t.core x.phys 0, flags := when (scope == .pt) wFALLBK })

/-- A command as its instruction gives it. -/
def newCopy (i : Instr) (w : Issuer) (q : Party) (s : State) (kind : CopyKind) (hs hd : Handle) (sd : SReg)
    (scope : Scope) (index : List (Nat × Word)) (ring : List (Nat × Nat)) : CopyCmd :=
  let mode := (q.slot w.sl).mode
  { id := 0, seq := 0, kind := kind, src := hs, dst := hd, sd := sd.toNat, scope := copyScope scope,
    rnd := (fld mode 0 3).toNat, sub := (fld mode 4 2).toNat, index := index, ring := ring, place := 0,
    origin := originOf w q i.word, delivered := 0, written := 0, owned := [], poison := false, tainted := [], cancelled := false,
    flags := 0 }

/-- cpy (R202). -/
def execCpy (d : SReg) (ch : BitVec 3) (hd hs : BitVec 4) (scope : Scope) (s : State) :
    Host.Outcome State Fault Refusal :=
  let i := Instr.cpy d ch hd hs scope
  runTeam i s fun w t q s =>
    match s.copyHandle w.tid hd.toNat with
    | (s, .error c) => .fault s c
    | (s, .ok dst) =>
      match s.copyHandle w.tid hs.toNat with
      | (s, .error c) => .fault s c
      | (s, .ok src) =>
        if badFormats src (some dst) then .fault s illegalInstruction
        else if hRows dst ≠ hRows src ∨ hCols dst ≠ hCols src then .fault s cpShape
        else if 2 ^ 24 < hRows dst * hRowLen dst then .fault s cpLen
        else
          let conv : Bool := hFmt src != hFmt dst
          match (if conv then (misalignedEnd dst).or (misalignedEnd src) else none) with
          | some c => .fault s c
          | none =>
            match (t.endRange dst).or (t.endRange src) with
            | some c => .fault s c
            | none => startCopy w t q s ch.toNat scope (newCopy i w q s .cpy src dst d scope [] [])

/-- The shared body of cpg and cps (R203): `gather` says that the source's rows are indexed. -/
def rowCopy (i : Instr) (gather : Bool) (d : SReg) (ch : BitVec 3) (hd hs : BitVec 4) (scope : Scope) (v : VReg)
    (w : Issuer) (t : Team) (q : Party) (s : State) : Effect :=
  match s.copyHandle w.tid hd.toNat with
  | (s, .error c) => .fault s c
  | (s, .ok dst) =>
    match s.copyHandle w.tid hs.toNat with
    | (s, .error c) => .fault s c
    | (s, .ok src) =>
      let index := (maskLanes (q.active w.sl)).map fun l => (l, q.getV v.toNat l)
      let indexed := if gather then src else dst
      let byLane := if gather then dst else src
      if badFormats src (some dst) then .fault s illegalInstruction
      else if hCols dst ≠ hCols src ∨ hFmt dst ≠ hFmt src ∨ index.any fun x => decide (hRows byLane ≤ x.1) then
        .fault s cpShape
      else if 2 ^ 24 < (index.filter fun x => gather || x.2 != 0xFFFFFFFF).length * hRowLen dst then .fault s cpLen
      else
        match (t.endRange dst).or (t.endRange src) with
        | some c => .fault s c
        | none =>
          match index.find? fun x => x.2 != 0xFFFFFFFF && decide (hRows indexed ≤ x.2.toNat) with
          | some (l, x) => .fault s { protection 0x0A x with lane := some l }
          | none =>
            startCopy w t q s ch.toNat scope
              (newCopy i w q s (if gather then .cpg else .cps) src dst d scope index [])

def execCpg (d : SReg) (ch : BitVec 3) (hd hs : BitVec 4) (scope : Scope) (v : VReg) (s : State) :
    Host.Outcome State Fault Refusal :=
  let i := Instr.cpg d ch hd hs scope v
  runTeam i s (rowCopy i true d ch hd hs scope v)

def execCps (d : SReg) (ch : BitVec 3) (hd hs : BitVec 4) (scope : Scope) (v : VReg) (s : State) :
    Host.Outcome State Fault Refusal :=
  let i := Instr.cps d ch hd hs scope v
  runTeam i s (rowCopy i false d ch hd hs scope v)

/-- The members that a mask of four bits names. -/
def maskMembers (m : Nat) : List Nat := (List.range 4).filter m.testBit

/-- Member m is another member of the team's group. -/
def Team.other (t : Team) (m : Nat) : Bool :=
  match t.group with
  | some (_, n) => decide (m < n) && m != t.vcore
  | none => false

/-- MCMASK for a member (R114, R205). -/
def mcMask (m : Nat) : Cause := protection 0x0B (BitVec.ofNat 32 m)

/-- cpm (R204): the wait for free slots comes before the channel's. -/
def execCpm (d : SReg) (ch : BitVec 3) (hs : BitVec 4) (scope : Scope) (m : SReg) (s : State) :
    Host.Outcome State Fault Refusal :=
  let i := Instr.cpm d ch hs scope m
  runTeam i s fun w t q s =>
    match s.copyHandle w.tid hs.toNat with
    | (s, .error c) => .fault s c
    | (s, .ok src) =>
      let mask := (fld (q.getS w.sl m.toNat) 0 4).toNat
      let ms := maskMembers mask
      let payload := hRows src * hRowLen src
      let slot := match s.node? t with | some n => n.rsize * 64 | none => 0
      if badFormats src none then .fault s illegalInstruction
      else if 2 ^ 24 < payload ∨ (t.group.isSome ∧ mask ≠ 0 ∧ slot < payload) then .fault s cpLen
      else
        match t.endRange src with
        | some c => .fault s c
        | none =>
          match ms.find? fun k => !t.other k with
          | some k => .fault s (mcMask k)
          | none =>
            if ms.any fun k => Store.read t.free k == 0 then .hold (.freeSlot mask)
            else
              let slots := match s.node? t with | some n => n.rslots | none => 1
              let ring := ms.map fun k => (k, (Map.find t.sent k).getD 0 % slots)
              match startCopy w t q s ch.toNat scope (newCopy i w q s (.cpm mask) src src d scope [] ring) with
              | .done s =>
                .done (s.modTeam w.tid fun t =>
                  { t with
                    free := ms.foldl (fun f k => Store.write f k (Store.read f k - 1)) t.free
                    sent := ms.foldl (fun f k => Map.set f k ((Map.find f k).getD 0 + 1)) t.sent })
              | e => e

/-! ## cpwp and cpcan (R205, R206) -/

/-- cpwp sd, chN. -/
def execCpwpRead (d : SReg) (ch : BitVec 3) (s : State) : Host.Outcome State Fault Refusal :=
  runTeam (.cpwpRead d ch) s fun w t _ s =>
    match Map.find t.channels ch.toNat with
    | none => .fault s registerRange
    | some x => .done (s.modParty w.tid w.p fun q => q.setS w.sl d.toNat x.wptr)

/-- The target of the waiting form is reached. -/
def Channel.reached (x : Channel) (target : Word) : Bool :=
  let t := (fld target 25 7).toNat
  let δ := (t + 128 - (fld x.wptr 25 7).toNat) % 128
  if δ = 0 then x.cmds.isEmpty || decide ((fld target 0 25).toNat ≤ (fld x.wptr 0 25).toNat) else decide (64 ≤ δ)

/-- cpwp sd, chN, sk. -/
def execCpwpWait (d : SReg) (ch : BitVec 3) (k : SReg) (s : State) : Host.Outcome State Fault Refusal :=
  runTeam (.cpwpWait d ch k) s fun w t q s =>
    match Map.find t.channels ch.toNat with
    | none => .fault s registerRange
    | some x =>
      if x.reached (q.getS w.sl k.toNat) then .done (s.modParty w.tid w.p fun q => q.setS w.sl d.toNat x.wptr)
      else .hold (.wptr ch.toNat)

/-- cpwp s0, m, sk: returns slots to sender m (R116). -/
def execCpwpAck (m : BitVec 2) (k : SReg) (s : State) : Host.Outcome State Fault Refusal :=
  runTeam (.cpwpAck m k) s fun w t q s =>
    if !t.other m.toNat then .fault s (mcMask m.toNat)
    else
      let n := q.getS w.sl k.toNat
      let slots := match s.node? t with | some x => x.rslots | none => 0
      match s.memberTeam t m.toNat with
      | none => .done s
      | some u =>
        let have_ := match Map.find s.teams u with | some x => Store.read x.free t.vcore | none => 0
        if slots < have_.toNat + n.toNat then .fault s (protection 0x0C)
        else .done (s.modTeam u fun x => { x with free := Store.write x.free t.vcore (have_ + n) })

/-- cpwp sd, m: the receive pointer from sender m. -/
def execCpwpRecv (d : SReg) (m : BitVec 2) (s : State) : Host.Outcome State Fault Refusal :=
  runTeam (.cpwpRecv d m) s fun w t _ s =>
    if !t.other m.toNat then .fault s (mcMask m.toNat)
    else .done (s.modParty w.tid w.p fun q => q.setS w.sl d.toNat (Store.read t.recv m.toNat))

/-- cpcan (R206): every incomplete command of the channel is cancelled. DESIGN CHOICE: so is one that has delivered all its
bytes and has yet to write its status word, which then shows CAN (log entry 69). -/
def execCpcan (ch : BitVec 3) (s : State) : Host.Outcome State Fault Refusal :=
  runParty (.cpcan ch) s fun w s =>
    .done (s.modChan w.tid ch.toNat fun x => { x with cmds := x.cmds.map fun c => { c with cancelled := true } })

/-! ## Delivery (R104 to R110) -/

/-- Where a cancelled command stops (R119): the next 64-byte boundary, or the row it stands at; a command that has not
begun, at once. -/
def CopyCmd.stop (c : CopyCmd) : Nat :=
  if !c.cancelled then c.total
  else if c.byRows then c.written
  else min c.total ((c.written + 63) / 64 * 64)

/-- Elements of a source row converted (R104), in the order of their columns, each with whether a poisoned unit was read;
and the warn bits. DESIGN CHOICE: RND 6 or 7 raises MODERES also between two integer formats, where nothing is rounded
(log entry 70). -/
def State.convertCols (s : State) (tid : Nat) (c : CopyCmd) (srcRow : Nat) (cols : List Nat) :
    State × Except Cause (List (Nat × Bool) × Word) :=
  match cols with
  | [] => (s, .ok ([], 0))
  | col :: rest =>
    match s.readElem tid c.src srcRow col with
    | (s, .error e) => (s, .error e)
    | (s, .ok (v, bad)) =>
      let mode : Word := BitVec.ofNat 32 (c.rnd + 16 * c.sub)
      let (y, f) := convert ((hCvt c.src).getD .fp32) ((hCvt c.dst).getD .fp32) (FEnv.ofMode mode) false v
      match s.convertCols tid c srcRow rest with
      | (s, .error e) => (s, .error e)
      | (s, .ok (ys, g)) => (s, .ok ((y, bad) :: ys, f ||| g ||| when (rndReserved mode) wMODERES))

/-- Destination bytes of packed elements: the bits of a last byte beyond the row's last element stay as they are
(R104). -/
def State.packedBytes (s : State) (tid : Nat) (c : CopyCmd) (srcRow dstRow : Nat) (offs : List Nat) :
    State × Except Cause (List (Byte × Bool) × Word) :=
  match offs with
  | [] => (s, .ok ([], 0))
  | off :: rest =>
    let bits := hBits c.dst
    let cols := (List.range' (off * (8 / bits)) (8 / bits)).filter fun k => decide (k < hCols c.dst)
    match s.convertCols tid c srcRow cols with
    | (s, .error e) => (s, .error e)
    | (s, .ok (ys, f)) =>
      match (if cols.length * bits = 8 then (s, .ok ([], false))
        else s.locRead tid (hLoc c.dst) (hBase c.dst + dstRow * hPitch c.dst + off) 1) with
      | (s, .error e) => (s, .error e)
      | (s, .ok (old, _)) =>
        let kept := ofBytes old / 2 ^ (cols.length * bits) * 2 ^ (cols.length * bits)
        let v := (cols.zip ys).foldl (fun v x => v + x.2.1 % 2 ^ bits * 2 ^ (x.1 % (8 / bits) * bits)) kept
        match s.packedBytes tid c srcRow dstRow rest with
        | (s, .error e) => (s, .error e)
        | (s, .ok (bs, g)) => (s, .ok ((BitVec.ofNat 8 v, ys.any Prod.snd) :: bs, f ||| g))

/-- Bytes of a row as they are, each with whether a poisoned unit was read. -/
def State.plainBytes (s : State) (tid loc a n : Nat) : State × Except Cause (List (Byte × Bool)) :=
  match n with
  | 0 => (s, .ok [])
  | n + 1 =>
    match s.locRead tid loc a 1 with
    | (s, .error e) => (s, .error e)
    | (s, .ok (b, p)) =>
      match s.plainBytes tid loc (a + 1) n with
      | (s, .error e) => (s, .error e)
      | (s, .ok bs) => (s, .ok ((b.headD 0, p) :: bs))

/-- The bytes off0 to off1 − 1 of a destination row as the source gives them, each with whether a poisoned unit was read;
and the warn bits. A converted row is given by whole elements, each read once (R105). -/
def State.rowBytes (s : State) (tid : Nat) (c : CopyCmd) (srcRow dstRow off0 off1 : Nat) :
    State × Except Cause (List (Byte × Bool) × Word) :=
  if !c.converts then
    match s.plainBytes tid (hLoc c.src) (hBase c.src + srcRow * hPitch c.src + off0) (off1 - off0) with
    | (s, .error e) => (s, .error e)
    | (s, .ok bs) => (s, .ok (bs, 0))
  else if 8 ≤ hBits c.dst then
    let w := hBits c.dst / 8
    match s.convertCols tid c srcRow (List.range' (off0 / w) ((off1 - off0 + w - 1) / w)) with
    | (s, .error e) => (s, .error e)
    | (s, .ok (ys, f)) => (s, .ok ((ys.flatMap fun y => (toBytes w y.1).map fun b => (b, y.2)).take (off1 - off0), f))
  else s.packedBytes tid c srcRow dstRow (List.range' off0 (off1 - off0))

/-- The unit of poison at a place: a sector, or a word of the local store. -/
def unitAt (loc a : Nat) : Nat := if loc = 1 then a / 4 else a / 64

/-- Poisons or clears the unit at a place (R71). -/
def State.setUnit (s : State) (tid : Nat) (t : Team) (loc a : Nat) (bad : Bool) : State :=
  if loc = 1 then
    s.modTeam tid fun t =>
      let ks := t.lsPoison.filter (· != a / 4)
      { t with lsPoison := if bad then a / 4 :: ks else ks }
  else
    match s.peekTarget t.core (s.tagOf t) (s.privileged t) .store a with
    | some g =>
      if g.peer.isSome then s
      else
        match s.settle g.pa with
        | (s, some _, _) => s
        | (s, none, pa) =>
          let ks := s.poison.filter (· != pa / 64)
          { s with poison := if bad then pa / 64 :: ks else ks }
    | none => s

/-- The command has written the byte at a place once it has delivered `d`. -/
def State.wroteAt (s : State) (tid : Nat) (t : Team) (c : CopyCmd) (d owner loc a : Nat) : Bool :=
  ((List.range c.rows.length).zip c.rows).any fun (k, r) =>
    match r.2 with
    | none => false
    | some row =>
      (s.placesOf tid t c row 0).any fun (o, l, b) =>
        o == owner && l == loc && decide (b ≤ a ∧ a < b + c.rowLen) &&
          decide ((if c.byRows then k else k * c.rowLen + (a - b)) < d)

/-- The poison that a written stretch carries or clears: `bad` says for each of its bytes whether it was poisoned. -/
def State.carryPoison (s : State) (tid : Nat) (t : Team) (c : CopyCmd) (d owner loc a : Nat) (bad : List Bool) :
    State × List Nat :=
  let units := ((List.range bad.length).map fun k => unitAt loc (a + k)).dedup
  let size := if loc = 1 then 4 else 64
  units.foldl (fun (s, tainted) u =>
    let here : Bool := (List.range bad.length).any fun k => unitAt loc (a + k) == u && bad.getD k false
    if here then (s.setUnit owner t loc (size * u) true, if tainted.contains u then tainted else u :: tainted)
    else if !tainted.contains u && (List.range size).all fun k => s.wroteAt tid t c d owner loc (size * u + k) then
      (s.setUnit owner t loc (size * u) false, tainted)
    else (s, tainted)) (s, c.tainted)

/-- Delivers one stretch of one row: row number k of the command, bytes off0 to off1 − 1. `d` is what the command has
delivered with it. -/
def State.deliverRow (s : State) (tid : Nat) (t : Team) (c : CopyCmd) (d : Nat) (r : Option Nat × Option Nat)
    (off0 off1 : Nat) : State × Except Cause CopyCmd :=
  match r.2 with
  | none => (s, .ok c)
  | some row =>
    match (match r.1 with
      | none => (s, Except.ok (List.replicate (off1 - off0) (0, false), 0))
      | some src => s.rowBytes tid c src row off0 off1) with
    | (s, .error e) => (s, .error e)
    | (s, .ok (bs, f)) =>
      (s.placesOf tid t c row off0).foldl (fun (x : State × Except Cause CopyCmd) place =>
        match x with
        | (s, .error e) => (s, .error e)
        | (s, .ok c) =>
          let (owner, loc, a) := place
          match s.locWrite owner c.origin (some c.place) loc a (bs.map Prod.fst) with
          | (s, some e) => (s, .error e)
          | (s, none) =>
            let (s, tainted) := s.carryPoison tid t c d owner loc a (bs.map Prod.snd)
            (s, .ok { c with
              flags := c.flags ||| f, poison := c.poison || bs.any Prod.snd, tainted := tainted }))
        (s, .ok c)

/-- The stretches of rows between two positions of the delivery order: (row number, from, to). -/
def CopyCmd.stretches (c : CopyCmd) (a b : Nat) : List (Nat × Nat × Nat) :=
  if c.byRows then (List.range' a (b - a)).map fun k => (k, 0, c.rowLen)
  else if c.rowLen = 0 then []
  else
    ((List.range' (a / c.rowLen) ((b + c.rowLen - 1) / c.rowLen - a / c.rowLen)).map fun k =>
      (k, a - k * c.rowLen, min c.rowLen (b - k * c.rowLen)))

/-- The destination place of the first byte of a position lies on a peer page, or a source byte does (R456). -/
def State.peerPage (s : State) (t : Team) (loc a : Nat) : Bool :=
  loc == 0 &&
    match s.peekTarget t.core (s.tagOf t) (s.privileged t) .load a with
    | some g => g.peer.isSome
    | none => false

/-- The source bytes that a stretch of a command reads: first address and number (R104). -/
def CopyCmd.sourceSpan (c : CopyCmd) (k off0 off1 : Nat) : Option (Nat × Nat) :=
  match c.rows[k]? with
  | some (some r, some _) =>
    let a := hBase c.src + r * hPitch c.src
    if c.converts then
      let b0 := off0 * hBits c.src / hBits c.dst
      let b1 := min (hRowLen c.src) ((off1 * hBits c.src + hBits c.dst - 1) / hBits c.dst)
      some (a + b0, b1 - b0)
    else some (a + off0, off1 - off0)
  | _ => none

/-- The destination lines of some stretches of a command. -/
def State.stretchLines (s : State) (tid : Nat) (t : Team) (c : CopyCmd) (ss : List (Nat × Nat × Nat)) : List Nat :=
  ss.flatMap fun (k, off0, off1) =>
    match (c.rows[k]?).bind Prod.snd with
    | none => []
    | some row => (s.placesOf tid t c row off0).flatMap fun (owner, loc, a) => s.spanLines owner t .store loc a (off1 - off0)

/-- A stretch reads or writes a peer's memory: the address of a byte that does. -/
def State.touchesPeer (s : State) (tid : Nat) (t : Team) (c : CopyCmd) (a b : Nat) : Option Nat :=
  (c.stretches a b).findSome? fun (k, off0, off1) =>
    match c.rows[k]? with
    | none => none
    | some (_, dst) =>
      let ends (x n : Nat) (loc : Nat) : Option Nat :=
        ((List.range (n / 65536 + 2)).map fun j => min (x + 65536 * j) (x + n - 1)).find? (s.peerPage t loc)
      ((c.sourceSpan k off0 off1).bind fun x => ends x.1 x.2 (hLoc c.src)).or
        (dst.bind fun r => (s.placesOf tid t c r off0).findSome? fun (_, loc, x) => ends x (off1 - off0) loc)

/-- The stream class of a team's channel (R337, R456); multicasts stay in the cluster. -/
def State.classOf (s : State) (t : Team) (ch : Nat) : Nat :=
  match s.node? t with
  | some n => (n.classes.extractLsb' (8 * ch) 8).toNat
  | none => 0

/-- What the timetable says of a class (R455, R456): no window at all, or whether one is open now on a working port. -/
def State.timetable (s : State) (t : Team) (cls : Nat) : Option Bool :=
  match Map.find s.runs t.run with
  | none => none
  | some r =>
    let ws := r.image.timetable.filter fun w => w.cls == cls
    if !r.image.hasTimetable || ws.isEmpty then none
    else
      let now := s.tbase.toNat - r.start.toNat
      some (ws.any fun w =>
        (match Map.find s.fabPorts w.port with | some p => p.up | none => false) &&
          decide (r.start.toNat ≤ s.tbase.toNat ∧ 256 * w.start ≤ now) &&
            if w.period = 0 then decide (now < 256 * (w.start + w.len))
            else decide ((now - 256 * w.start) % (256 * w.period) < 256 * w.len))

/-- Delivers the stretches in order, up to the first fault. -/
def State.deliverAll (s : State) (tid : Nat) (t : Team) (c : CopyCmd) (d : Nat) (ss : List (Nat × Nat × Nat)) :
    State × Except Cause CopyCmd :=
  match ss with
  | [] => (s, .ok c)
  | (k, off0, off1) :: rest =>
    match c.rows[k]? with
    | none => (s, .ok c)
    | some r =>
      match s.deliverRow tid t c d r off0 off1 with
      | (s, .error e) => (s, .error e)
      | (s, .ok c) => s.deliverAll tid t c d rest

/-- Replaces the command that delivers on a channel. -/
def State.setCmd (s : State) (tid ch : Nat) (c : CopyCmd) : State :=
  s.modChan tid ch fun x =>
    { x with
      cmds := match x.cmds with
        | [] => []
        | _ :: rest => c :: rest
      wptr := wptrOf c.seq c.delivered }

/-- A multicast that has delivered its payload moves its receivers' pointers (R116). -/
def State.multicastIn (s : State) (t : Team) (c : CopyCmd) : State :=
  c.ring.foldl (fun s x =>
    match s.memberTeam t x.1 with
    | some k => s.modTeam k fun u => { u with recv := Store.write u.recv t.vcore (Store.read u.recv t.vcore + 1) }
    | none => s) s

/-- A request of the command to a peer is outstanding. -/
def State.copyOutstanding (s : State) (tid : Nat) (o : Origin) : Bool :=
  s.outstanding.any fun x => x.tid == tid && x.party.isNone && x.origin == o

/-- What the oldest command of a channel has written counts as delivered once no write of it is outstanding at a peer
(R106): its pointer moves, lines are released, and a multicast that is whole moves its receivers' pointers. -/
def State.landed (s : State) (tid ch : Nat) : State :=
  match Map.find s.teams tid with
  | none => s
  | some t =>
    match (Map.find t.channels ch).bind fun x => x.cmds.head? with
    | none => s
    | some c =>
      if c.written ≤ c.delivered ∨ s.copyOutstanding tid c.origin then s
      else
        let c := { c with delivered := c.written, owned := c.owned.filter fun x => decide (c.written < x.2) }
        let s := s.setCmd tid ch c
        match c.kind with
        | .cpm _ => if c.delivered = c.total then s.multicastIn t c else s
        | _ => s

/-- Where a step of a command may end: where it stops, else, in a converting copy, behind a multiple of eight elements of a
row or at the row's end, so that every source byte is read in one step (R105). -/
def CopyCmd.whole (c : CopyCmd) (d : Nat) : Nat :=
  if c.converts ∧ d < c.stop ∧ 0 < c.rowLen then d / c.rowLen * c.rowLen + d % c.rowLen / hBits c.dst * hBits c.dst else d

/-- The channel delivers `n` more bytes or rows of its oldest command. A step is at least 64 bytes, or a row, or up to the
command's end (R107). Source bytes at a peer are asked for first: the step waits for them. Lines that an earlier command
owns hold it (R112), and bytes of a stream class wait for a window (R456). -/
def execCopyDeliver (tid ch n : Nat) (s : State) : Host.Outcome State Fault Refusal :=
  match Map.find s.teams tid with
  | none => .next s
  | some t =>
    match (Map.find t.channels ch).bind fun x => x.cmds.head? with
    | none => .next s
    | some c =>
      let d := c.whole (min c.stop (c.delivered + n))
      if !t.running || d ≤ c.delivered || (!c.byRows && decide (d < c.stop ∧ d < c.delivered + 64)) ||
          s.copyOutstanding tid c.origin then .next s
      else
        let ss := c.stretches c.delivered d
        let cls := s.classOf t ch
        let fault (c' : Cause) (s : State) : State := s.laterFault tid c.origin c' true true
        let remote : Option Nat :=
          if cls ≠ 0 ∧ !(match c.kind with | .cpm _ => true | _ => false) then s.touchesPeer tid t c c.delivered d else none
        let timed : Option Bool := remote.map fun _ => (s.timetable t cls).getD false
        if remote.isSome && (s.timetable t cls).isNone then
          .next (fault { cause := 0x12, addr := remote, info := BitVec.ofNat 32 (cls + 256 * ch) } s)
        else if timed = some false ∨ s.outranked c.place (s.stretchLines tid t c ss) then .next s
        else
          match s.readAs { id := c.id, tid := tid, origin := c.origin, serial := false } fun s => s.deliverAll tid t c d ss with
          | (s, .error e) => .next (fault e (s.usedBytes c.id))
          | (s, .ok c) => .next (((s.usedBytes c.id).setCmd tid ch { c with written := d }).landed tid ch)

/-! ## Completion (R109) -/

/-- The status word of a command, written to its register; its warn bits reach the issuing party. -/
def Party.writeStatus (q : Party) (id sd : Nat) (flags status : Word) : Party :=
  { (q.setS false sd status).raise flags with pending := q.pending.filter fun x => x.op != id }

/-- The oldest command of a channel has delivered all that it will: the resolutions bound to it are made, then its
status word is written. -/
def execCopyComplete (tid ch : Nat) (s : State) : Host.Outcome State Fault Refusal :=
  match Map.find s.teams tid with
  | none => .next s
  | some t =>
    match (Map.find t.channels ch).bind fun x => x.cmds.head? with
    | none => .next s
    | some c =>
      if !t.running || c.delivered < c.stop || s.copyOutstanding tid c.origin then .next s
      else
        let s := s.completeOp c.id
        let s := s.modChan tid ch fun x =>
          let rest := x.cmds.drop 1
          { x with
            cmds := rest
            wptr := match rest with
              | y :: _ => wptrOf y.seq 0
              | [] => if (c.seq + 1) % 128 = x.next then wptrOf c.seq c.delivered else wptrOf (x.next + 127) 0 }
        .next (s.modParty tid (c.origin.party.getD 0) fun q =>
          q.writeStatus c.id c.sd c.flags (statusOf c.poison c.cancelled c.delivered))

end Sys2Proof.Machine
end

