-- ==== Sys2Proof/Machine/Scalar.lean ====
section
/-!
DEFINITION. The scalar instructions of majors 0x01 to 0x09 (R218 to R222). They execute whatever the slot's mask holds.
-/

namespace Sys2Proof.Machine

open Sys2Proof

/-- A scalar instruction with two sources: S[d] := f a b. -/
def scalar2 (i : Instr) (f : Word → Word → Word) (d a : SReg) (b : SOp) (s : State) :
    Host.Outcome State Fault Refusal :=
  runRegs i s fun sl q => q.setS sl d.toNat (f (q.getS sl a.toNat) (q.bS sl b))

/-- A scalar instruction with one source: S[d] := f a. -/
def scalar1 (i : Instr) (f : Word → Word) (d a : SReg) (s : State) : Host.Outcome State Fault Refusal :=
  runRegs i s fun sl q => q.setS sl d.toNat (f (q.getS sl a.toNat))

/-- Bits [63:32] of the product of the sign-extended operands (R219). -/
def mulHighS {w : Nat} (a b : BitVec w) : BitVec w := (a.signExtend (2 * w) * b.signExtend (2 * w)).extractLsb' w w

/-- Bits [63:32] of the product of the zero-extended operands (R219). -/
def mulHighU {w : Nat} (a b : BitVec w) : BitVec w := (a.setWidth (2 * w) * b.setWidth (2 * w)).extractLsb' w w

/-- a << b, or 0 when b ≥ w (R219, R231): the amount is the whole of b, unsigned. -/
def shl {w : Nat} (a b : BitVec w) : BitVec w := if b.toNat < w then a <<< b.toNat else 0

/-- a >> b, zeros entering. -/
def shr {w : Nat} (a b : BitVec w) : BitVec w := a >>> b.toNat

/-- a >> b, the sign bit entering. -/
def sra {w : Nat} (a b : BitVec w) : BitVec w := a.sshiftRight b.toNat

def minS {w : Nat} (a b : BitVec w) : BitVec w := if b.slt a then b else a
def maxS {w : Nat} (a b : BitVec w) : BitVec w := if a.slt b then b else a
def minU {w : Nat} (a b : BitVec w) : BitVec w := if b.ult a then b else a
def maxU {w : Nat} (a b : BitVec w) : BitVec w := if a.ult b then b else a

/-- The number of 1 bits below bit n. -/
def popBelow {w : Nat} (a : BitVec w) (n : Nat) : Nat :=
  match n with
  | 0 => 0
  | n + 1 => (if a.getLsbD n then 1 else 0) + popBelow a n

/-- The number of 1 bits. -/
def popCount {w : Nat} (a : BitVec w) : BitVec w := BitVec.ofNat w (popBelow a w)

/-- 0 bits above the highest 1 bit among the lowest n bits; n when they are all 0. -/
def clzBelow {w : Nat} (a : BitVec w) (n : Nat) : Nat :=
  match n with
  | 0 => 0
  | n + 1 => if a.getLsbD n then 0 else clzBelow a n + 1

/-- Leading 0 bits; w when a = 0. -/
def leadingZeros {w : Nat} (a : BitVec w) : BitVec w := BitVec.ofNat w (clzBelow a w)

/-- Bit number of the lowest 1 bit from bit k on, with n bits to look at; k + n when they are all 0. -/
def ffsFrom {w : Nat} (a : BitVec w) (k n : Nat) : Nat :=
  match n with
  | 0 => k
  | n + 1 => if a.getLsbD k then k else ffsFrom a (k + 1) n

/-- Bit number of the lowest 1 bit; w when a = 0. -/
def lowestOne {w : Nat} (a : BitVec w) : BitVec w := BitVec.ofNat w (ffsFrom a 0 w)

/-- The conditions of scmp and vcmp (R220, R232). -/
def iHolds {w : Nat} (c : ICond) (a b : BitVec w) : Bool :=
  match c with
  | .eq => a == b
  | .ne => a != b
  | .ltI => a.slt b
  | .leI => a.sle b
  | .ltN => a.ult b
  | .leN => a.ule b
  | .gtI => b.slt a
  | .gtN => b.ult a

/-- 1 or 0. -/
def bitWord (b : Bool) : Word := if b then 1 else 0

/-- The field a[lsb + n : lsb] with width n + 1, sign- or zero-extended (R221, R233). -/
def bitField (a : Word) (sign : Bool) (lsb n : BitVec 5) : Word :=
  let up := a <<< (31 - lsb.toNat - n.toNat)
  if sign then up.sshiftRight (31 - n.toNat) else up >>> (31 - n.toNat)

/-- d with bits [lsb + n : lsb] replaced by a[n : 0] (R221, R233). -/
def bitInsert (d a : Word) (lsb n : BitVec 5) : Word :=
  let m : Word := (BitVec.allOnes 32 >>> (31 - n.toNat)) <<< lsb.toNat
  (d &&& ~~~m) ||| ((a <<< lsb.toNat) &&& m)

def execSadd (d a : SReg) (b : SOp) (s : State) := scalar2 (.sadd d a b) (· + ·) d a b s
def execSsub (d a : SReg) (b : SOp) (s : State) := scalar2 (.ssub d a b) (· - ·) d a b s
def execSmul (d a : SReg) (b : SOp) (s : State) := scalar2 (.smul d a b) (· * ·) d a b s
def execSmulhI32 (d a : SReg) (b : SOp) (s : State) := scalar2 (.smulhI32 d a b) mulHighS d a b s
def execSmulhN32 (d a : SReg) (b : SOp) (s : State) := scalar2 (.smulhN32 d a b) mulHighU d a b s
def execSand (d a : SReg) (b : SOp) (s : State) := scalar2 (.sand d a b) (· &&& ·) d a b s
def execSor (d a : SReg) (b : SOp) (s : State) := scalar2 (.sor d a b) (· ||| ·) d a b s
def execSxor (d a : SReg) (b : SOp) (s : State) := scalar2 (.sxor d a b) (· ^^^ ·) d a b s
def execSshl (d a : SReg) (b : SOp) (s : State) := scalar2 (.sshl d a b) shl d a b s
def execSshr (d a : SReg) (b : SOp) (s : State) := scalar2 (.sshr d a b) shr d a b s
def execSsra (d a : SReg) (b : SOp) (s : State) := scalar2 (.ssra d a b) sra d a b s
def execSminI32 (d a : SReg) (b : SOp) (s : State) := scalar2 (.sminI32 d a b) minS d a b s
def execSminN32 (d a : SReg) (b : SOp) (s : State) := scalar2 (.sminN32 d a b) minU d a b s
def execSmaxI32 (d a : SReg) (b : SOp) (s : State) := scalar2 (.smaxI32 d a b) maxS d a b s
def execSmaxN32 (d a : SReg) (b : SOp) (s : State) := scalar2 (.smaxN32 d a b) maxU d a b s
def execSmov (d a : SReg) (s : State) := scalar1 (.smov d a) id d a s
def execSpopc (d a : SReg) (s : State) := scalar1 (.spopc d a) popCount d a s
def execSclz (d a : SReg) (s : State) := scalar1 (.sclz d a) leadingZeros d a s
def execSffs (d a : SReg) (s : State) := scalar1 (.sffs d a) lowestOne d a s

/-- scmp writes 1 when the condition holds, otherwise 0 (R219). -/
def execScmp (c : ICond) (d a : SReg) (b : SOp) (s : State) :=
  scalar2 (.scmp c d a b) (fun x y => bitWord (iHolds c x y)) d a b s

/-- ssel writes a when S[sc] ≠ 0, otherwise b (R219). -/
def execSsel (c d a : SReg) (b : SOp) (s : State) : Host.Outcome State Fault Refusal :=
  runRegs (.ssel c d a b) s fun sl q =>
    q.setS sl d.toNat (if q.getS sl c.toNat = 0 then q.bS sl b else q.getS sl a.toNat)

def execSaddImm (d a : SReg) (i : BitVec 14) (s : State) :=
  scalar1 (.saddImm d a i) (fun x => x + i.signExtend 32) d a s
def execSandImm (d a : SReg) (i : BitVec 14) (s : State) :=
  scalar1 (.sandImm d a i) (fun x => x &&& i.setWidth 32) d a s
def execSorImm (d a : SReg) (i : BitVec 14) (s : State) :=
  scalar1 (.sorImm d a i) (fun x => x ||| i.setWidth 32) d a s
def execSshlImm (d a : SReg) (n : BitVec 5) (s : State) :=
  scalar1 (.sshlImm d a n) (fun x => shl x (n.setWidth 32)) d a s
def execSshrImm (d a : SReg) (n : BitVec 5) (s : State) :=
  scalar1 (.sshrImm d a n) (fun x => shr x (n.setWidth 32)) d a s
def execSsraImm (d a : SReg) (n : BitVec 5) (s : State) :=
  scalar1 (.ssraImm d a n) (fun x => sra x (n.setWidth 32)) d a s
def execSbfx (d a : SReg) (sign : Bool) (lsb w : BitVec 5) (s : State) :=
  scalar1 (.sbfx d a sign lsb w) (fun x => bitField x sign lsb w) d a s

/-- sbfi keeps every other bit of S[SD] (R221). -/
def execSbfi (d a : SReg) (lsb w : BitVec 5) (s : State) : Host.Outcome State Fault Refusal :=
  runRegs (.sbfi d a lsb w) s fun sl q =>
    q.setS sl d.toNat (bitInsert (q.getS sl d.toNat) (q.getS sl a.toNat) lsb w)

def execSli (d : SReg) (i : BitVec 20) (s : State) : Host.Outcome State Fault Refusal :=
  runRegs (.sli d i) s fun sl q => q.setS sl d.toNat (i.signExtend 32)

def execSlui (d : SReg) (i : BitVec 20) (s : State) : Host.Outcome State Fault Refusal :=
  runRegs (.slui d i) s fun sl q => q.setS sl d.toNat (i.setWidth 32 <<< 12)

end Sys2Proof.Machine
end

