-- ==== Sys2Proof/Machine/VecInt.lean ====
section
/-!
DEFINITION. The vector integer instructions of majors 0x10 to 0x18 (R228 to R234). Each element is computed
independently; only the lanes in ACTIVE are written.
-/

namespace Sys2Proof.Machine

open Sys2Proof

/-- Applies an operation to each packed 16-bit element (R228). -/
def each16 (f : BitVec 16 → BitVec 16 → BitVec 16 → BitVec 16) (d a b : Word) : Word :=
  f (d.extractLsb' 16 16) (a.extractLsb' 16 16) (b.extractLsb' 16 16) ++
    f (d.extractLsb' 0 16) (a.extractLsb' 0 16) (b.extractLsb' 0 16)

/-- Applies an operation to each packed 8-bit element (R228). -/
def each8 (f : BitVec 8 → BitVec 8 → BitVec 8 → BitVec 8) (d a b : Word) : Word :=
  f (d.extractLsb' 24 8) (a.extractLsb' 24 8) (b.extractLsb' 24 8) ++
    (f (d.extractLsb' 16 8) (a.extractLsb' 16 8) (b.extractLsb' 16 8) ++
      (f (d.extractLsb' 8 8) (a.extractLsb' 8 8) (b.extractLsb' 8 8) ++
        f (d.extractLsb' 0 8) (a.extractLsb' 0 8) (b.extractLsb' 0 8)))

/-- B(L) of a 64-bit element: the pair, or the literal sign-extended (R229). -/
def Party.bPairV (q : Party) (b : BOp) (l : Nat) : DWord :=
  match b with
  | .reg r => q.pairB r.toNat l
  | .lit w => w.signExtend 64

/-- A vector integer operation on elements of any width, with the element of VD as read first. -/
abbrev ElemOp := (w : Nat) → BitVec w → BitVec w → BitVec w → BitVec w

/-- The lanes of VD after an element operation (R231). -/
def vecInt (f : ElemOp) (t : ITy) (d a : VReg) (b : BOp) (sl : Bool) (q : Party) : Party :=
  match t with
  | .w32 => q.setV d.toNat (q.active sl) fun l => f 32 (q.getV d.toNat l) (q.getV a.toNat l) (q.bV b l)
  | .w64 => q.setPairV d.toNat (q.active sl) fun l => f 64 (q.pairV d.toNat l) (q.pairV a.toNat l) (q.bPairV b l)
  | .h16 => q.setV d.toNat (q.active sl) fun l => each16 (f 16) (q.getV d.toNat l) (q.getV a.toNat l) (q.bV b l)
  | .b8 => q.setV d.toNat (q.active sl) fun l => each8 (f 8) (q.getV d.toNat l) (q.getV a.toNat l) (q.bV b l)

/-- A register form with two sources. -/
def vec2 (i : Instr) (f : ElemOp) (t : ITy) (d a : VReg) (b : BOp) (s : State) : Host.Outcome State Fault Refusal :=
  runRegs i s (vecInt f t d a b)

/-- A register form with one source. -/
def vec1 (i : Instr) (f : (w : Nat) → BitVec w → BitVec w) (t : ITy) (d a : VReg) (s : State) :
    Host.Outcome State Fault Refusal :=
  runRegs i s (vecInt (fun w _ x _ => f w x) t d a (.lit 0))

/-- An immediate form: one 32-bit element a lane, from the old element of VD and the element of VA (R233). -/
def vecImm (i : Instr) (f : Word → Word → Word) (d a : VReg) (s : State) : Host.Outcome State Fault Refusal :=
  runRegs i s fun sl q => q.setV d.toNat (q.active sl) fun l => f (q.getV d.toNat l) (q.getV a.toNat l)

/-- The absolute value of a signed element; the minimum gives itself (R231). -/
def absElem {w : Nat} (a : BitVec w) : BitVec w := if a.slt 0 then -a else a

def execVadd (t : ITy) (d a : VReg) (b : BOp) (s : State) := vec2 (.vadd t d a b) (fun _ _ x y => x + y) t d a b s
def execVsub (t : ITy) (d a : VReg) (b : BOp) (s : State) := vec2 (.vsub t d a b) (fun _ _ x y => x - y) t d a b s
def execVmul (t : ITy) (d a : VReg) (b : BOp) (s : State) := vec2 (.vmul t d a b) (fun _ _ x y => x * y) t d a b s
def execVmulhSigned (t : ITy) (d a : VReg) (b : BOp) (s : State) :=
  vec2 (.vmulhSigned t d a b) (fun _ _ x y => mulHighS x y) t d a b s
def execVmulhUnsigned (t : ITy) (d a : VReg) (b : BOp) (s : State) :=
  vec2 (.vmulhUnsigned t d a b) (fun _ _ x y => mulHighU x y) t d a b s
def execVmac (t : ITy) (d a : VReg) (b : BOp) (s : State) :=
  vec2 (.vmac t d a b) (fun _ z x y => z + x * y) t d a b s
def execVand (t : ITy) (d a : VReg) (b : BOp) (s : State) := vec2 (.vand t d a b) (fun _ _ x y => x &&& y) t d a b s
def execVor (t : ITy) (d a : VReg) (b : BOp) (s : State) := vec2 (.vor t d a b) (fun _ _ x y => x ||| y) t d a b s
def execVxor (t : ITy) (d a : VReg) (b : BOp) (s : State) := vec2 (.vxor t d a b) (fun _ _ x y => x ^^^ y) t d a b s
def execVnot (t : ITy) (d a : VReg) (s : State) := vec1 (.vnot t d a) (fun _ x => ~~~x) t d a s
def execVshl (t : ITy) (d a : VReg) (b : BOp) (s : State) := vec2 (.vshl t d a b) (fun _ _ x y => shl x y) t d a b s
def execVshr (t : ITy) (d a : VReg) (b : BOp) (s : State) := vec2 (.vshr t d a b) (fun _ _ x y => shr x y) t d a b s
def execVsra (t : ITy) (d a : VReg) (b : BOp) (s : State) := vec2 (.vsra t d a b) (fun _ _ x y => sra x y) t d a b s
def execVminSigned (t : ITy) (d a : VReg) (b : BOp) (s : State) :=
  vec2 (.vminSigned t d a b) (fun _ _ x y => minS x y) t d a b s
def execVminUnsigned (t : ITy) (d a : VReg) (b : BOp) (s : State) :=
  vec2 (.vminUnsigned t d a b) (fun _ _ x y => minU x y) t d a b s
def execVmaxSigned (t : ITy) (d a : VReg) (b : BOp) (s : State) :=
  vec2 (.vmaxSigned t d a b) (fun _ _ x y => maxS x y) t d a b s
def execVmaxUnsigned (t : ITy) (d a : VReg) (b : BOp) (s : State) :=
  vec2 (.vmaxUnsigned t d a b) (fun _ _ x y => maxU x y) t d a b s
def execVabs (t : ITy) (d a : VReg) (s : State) := vec1 (.vabs t d a) (fun _ x => absElem x) t d a s
def execVneg (t : ITy) (d a : VReg) (s : State) := vec1 (.vneg t d a) (fun _ x => -x) t d a s
def execVpopc (t : ITy) (d a : VReg) (s : State) := vec1 (.vpopc t d a) (fun _ x => popCount x) t d a s
def execVclz (t : ITy) (d a : VReg) (s : State) := vec1 (.vclz t d a) (fun _ x => leadingZeros x) t d a s
def execVmov (t : ITy) (d a : VReg) (s : State) := vec1 (.vmov t d a) (fun _ x => x) t d a s

/-- vsel: a when d ≠ 0, otherwise b, element by element (R231). -/
def execVsel (t : ITy) (d a : VReg) (b : BOp) (s : State) :=
  vec2 (.vsel t d a b) (fun _ z x y => if z = 0 then y else x) t d a b s

/-- The mask of the active lanes in which a condition holds. -/
def laneMask (m : Mask) (f : Nat → Bool) : Mask :=
  (maskLanes m).foldl (fun r l => if f l then r ||| (1#96 <<< l) else r) 0

/-- vcmp writes the mask of the comparison to the triple; bits of inactive lanes are 0 (R232). -/
def execVcmp (wide : Bool) (c : ICond) (sd : SReg) (a : VReg) (b : BOp) (s : State) :
    Host.Outcome State Fault Refusal :=
  runRegs (.vcmp wide c sd a b) s fun sl q =>
    q.setTriple sl sd.toNat
      (laneMask (q.active sl) fun l =>
        if wide then iHolds c (q.pairV a.toNat l) (q.bPairV b l) else iHolds c (q.getV a.toNat l) (q.bV b l))

def execVliLit (d : VReg) (v : Word) (s : State) : Host.Outcome State Fault Refusal :=
  runRegs (.vliLit d v) s fun sl q => q.setV d.toNat (q.active sl) fun _ => v

def execVaddImm (d a : VReg) (i : BitVec 12) (s : State) :=
  vecImm (.vaddImm d a i) (fun _ x => x + i.signExtend 32) d a s

def execVli (d : VReg) (i : BitVec 19) (s : State) : Host.Outcome State Fault Refusal :=
  runRegs (.vli d i) s fun sl q => q.setV d.toNat (q.active sl) fun _ => i.signExtend 32

def execVbfx (d a : VReg) (sign : Bool) (lsb w : BitVec 5) (s : State) :=
  vecImm (.vbfx d a sign lsb w) (fun _ x => bitField x sign lsb w) d a s
def execVbfi (d a : VReg) (lsb w : BitVec 5) (s : State) :=
  vecImm (.vbfi d a lsb w) (fun z x => bitInsert z x lsb w) d a s
def execVshlImm (d a : VReg) (n : BitVec 5) (s : State) :=
  vecImm (.vshlImm d a n) (fun _ x => shl x (n.setWidth 32)) d a s
def execVshrImm (d a : VReg) (n : BitVec 5) (s : State) :=
  vecImm (.vshrImm d a n) (fun _ x => shr x (n.setWidth 32)) d a s
def execVsraImm (d a : VReg) (n : BitVec 5) (s : State) :=
  vecImm (.vsraImm d a n) (fun _ x => sra x (n.setWidth 32)) d a s

end Sys2Proof.Machine
end

