-- ==== Sys2Proof/Machine/CrossLane.lean ====
section
/-!
DEFINITION. The cross-lane instructions of major 0x19 (R235 to R241).
-/

namespace Sys2Proof.Machine

open Sys2Proof

/-- The value that a lane reads from a source lane: 0 from a lane outside the live set (R235). -/
def Party.fromLane (q : Party) (a src : Nat) : Word := if src < 96 && inMask q.live src then q.getV a src else 0

/-- Some active lane's source is dead: DEADSRC (R235). -/
def Party.deadSource (q : Party) (sl : Bool) (src : Nat → Nat) : Bool :=
  (maskLanes (q.active sl)).any fun l => !(decide (src l < 96) && inMask q.live (src l))

/-- A lane-moving instruction: each active lane L receives VA of its source lane (R237). -/
def moveLanes (d a : VReg) (src : Party → Nat → Nat) (sl : Bool) (q : Party) : Party :=
  (q.setV d.toNat (q.active sl) fun l => q.fromLane a.toNat (src q l)).raise
    (when (q.deadSource sl (src q)) wDEADSRC)

/-- vperm: the index is V[VB][L][6:0] (R237). -/
def execVperm (d a : VReg) (b : BOp) (s : State) : Host.Outcome State Fault Refusal :=
  runRegs (.vperm d a b) s (moveLanes d a fun q l => (q.bV b l).toNat % 128)

def execVbcast (d a : VReg) (n : BitVec 7) (s : State) : Host.Outcome State Fault Refusal :=
  runRegs (.vbcast d a n) s (moveLanes d a fun _ _ => n.toNat)

def execVxshf (d a : VReg) (m : BitVec 7) (s : State) : Host.Outcome State Fault Refusal :=
  runRegs (.vxshf d a m) s (moveLanes d a fun _ l => Nat.xor l m.toNat)

/-- The integer operations of vred and vscan, folded from their identity (R238). -/
def redInt (op : RedOp) (xs : List Word) : Word :=
  match op with
  | .add => xs.foldl (· + ·) 0
  | .minI => xs.foldl minS 0x7FFFFFFF
  | .maxI => xs.foldl maxS 0x80000000
  | .minN => xs.foldl minU 0xFFFFFFFF
  | .maxN => xs.foldl maxU 0
  | .and => xs.foldl (· &&& ·) 0xFFFFFFFF
  | .or => xs.foldl (· ||| ·) 0
  | _ => xs.foldl (· ^^^ ·) 0

/-- An FP32 value after input flushing. -/
def fp32In (env : FEnv) (x : Word) : Num := flushIn .fp32 env.fin (Cvt.unpack .fp32 x.toNat)

/-- The FP32 code of a flushed value: the bits, or a zero of the same sign. -/
def fp32Bits (env : FEnv) (x : Word) : Nat := (roundFloat fmtFp32 .rne false false (fp32In env x)).1

/-- fadd of R239: one exact sum, rounded once. -/
def redFadd (env : FEnv) (xs : List Word) : Word × Word :=
  let (n, f) := sumNum (env.rnd == .rdn) (xs.map (fp32In env))
  let (y, g) := roundFloat fmtFp32 env.rnd env.fout false n
  (BitVec.ofNat 32 y, f ||| g)

/-- min and max of R239: the canonical NaN when some value is a NaN, otherwise the least or greatest after flushing;
`id` is the identity. -/
def redMinMax (env : FEnv) (larger : Bool) (xs : List Word) : Word × Word :=
  let ns := xs.map (fp32In env)
  if ns.any Num.isNan then (0x7FC00000, sigFlag ns)
  else
    let start : Nat := if larger then 0xFF800000 else 0x7F800000
    let pick := fun (m : Nat) (x : Word) =>
      (minMax fmtFp32 larger (m, fmtFp32.unpack m) (fp32Bits env x, fp32In env x)).1
    (BitVec.ofNat 32 (xs.foldl pick start), 0)

/-- The operation over a list of lane values, with its warn bits (R238, R239). An empty list gives the identity. -/
def redOp (env : FEnv) (op : RedOp) (xs : List Word) : Word × Word :=
  match op with
  | .fadd => if xs.isEmpty then (0, 0) else redFadd env xs
  | .fmin => redMinMax env false xs
  | .fmax => redMinMax env true xs
  | _ => (redInt op xs, 0)

/-- fadd is the only operation with a rounding step: under a reserved RND it raises MODERES (R244). -/
def redReserved (op : RedOp) (mode : Word) : Word := when (op == .fadd && rndReserved mode) wMODERES

/-- The values of VA in the lanes of ACTIVE that a test selects. -/
def Party.laneValues (q : Party) (sl : Bool) (a : VReg) (sel : Nat → Bool) : List Word :=
  ((maskLanes (q.active sl)).filter sel).map (q.getV a.toNat)

/-- vred: every active lane receives the operation over all of them (R239). -/
def execVred (op : RedOp) (d a : VReg) (s : State) : Host.Outcome State Fault Refusal :=
  runRegs (.vred op d a) s fun sl q =>
    if q.active sl = 0 then q
    else
      let m := (q.slot sl).mode
      let r := redOp (FEnv.ofMode m) op (q.laneValues sl a fun _ => true)
      (q.setV d.toNat (q.active sl) fun _ => r.1).raise (r.2 ||| redReserved op m)

/-- vscan: inclusive of the lane, or exclusive (R239). -/
def execVscan (op : RedOp) (excl : Bool) (d a : VReg) (s : State) : Host.Outcome State Fault Refusal :=
  runRegs (.vscan op excl d a) s fun sl q =>
    if q.active sl = 0 then q
    else
      let m := (q.slot sl).mode
      let at_ (l : Nat) := redOp (FEnv.ofMode m) op (q.laneValues sl a fun k => if excl then k < l else k ≤ l)
      let fl := (maskLanes (q.active sl)).foldl (fun f l => f ||| (at_ l).2) 0
      (q.setV d.toNat (q.active sl) fun l => (at_ l).1).raise (fl ||| redReserved op m)

/-- vballot: the active lanes whose value is not 0 (R240). -/
def execVballot (sd : SReg) (a : VReg) (s : State) : Host.Outcome State Fault Refusal :=
  runRegs (.vballot sd a) s fun sl q =>
    q.setTriple sl sd.toNat (laneMask (q.active sl) fun l => q.getV a.toNat l != 0)

/-- All of a list are one value. -/
def allSame (xs : List Word) : Bool :=
  match xs with
  | [] => true
  | x :: t => t.all (· == x)

/-- vvote (R241). -/
def execVvote (k : VoteKind) (sd : SReg) (a : VReg) (s : State) : Host.Outcome State Fault Refusal :=
  runRegs (.vvote k sd a) s fun sl q =>
    let xs := q.laneValues sl a fun _ => true
    q.setS sl sd.toNat
      (bitWord
        (match k with
         | .all => xs.all (· != 0)
         | .any => xs.any (· != 0)
         | .uniform => allSame xs))

end Sys2Proof.Machine
end

