-- ==== Sys2Proof/Machine/MemSteps.lean ====
section
/-!
DEFINITION. The steps of memory and translation: write-combining entries that drain by age (R53), walks that end (R34 to
R39), migration (R44 to R47), scrubbing (R70, R71) and refresh windows (R61).
-/

namespace Sys2Proof.Machine

open Sys2Proof

/-- An entry drains after 256 cycles without a store (R53). -/
def execWcbDrainTimeout (core line : Nat) (s : State) : Host.Outcome State Fault Refusal :=
  .next (s.drain core fun e => e.line == line && decide (e.last + 256 ≤ s.clk.toNat))

/-! ## Walks -/

/-- What a walk of a page gives a lane that waits for it. -/
def LaneAcc.walked (x : LaneAcc) (priv : Bool) (u : Use) (base size : Nat) (r : Except Cause TlbEntry) : LaneAcc :=
  if x.tgt.isSome || x.failed.isSome then x
  else
    match r with
    | .error c => if base ≤ x.va ∧ x.va < base + size then { x with failed := some (c.cause, c.sub) } else x
    | .ok e =>
      if e.base ≤ x.va ∧ x.va < e.base + e.size then
        match checkLeaf priv u e.leaf with
        | some c => { x with failed := some (c.cause, c.sub) }
        | none => { x with tgt := some (targetOf e.leaf (x.va - e.base)) }
      else x

/-- The use of an access's lanes. -/
def AccKind.use : AccKind → Use
  | .vsts => .store
  | .cvld => .cvload
  | _ => .load

/-- Replays the deferred lanes of one access (R37): they read or write, and the access ends with its last lane. An access
that must wait for an earlier one to a DEV page (R56) is performed at a later response. Lanes of the page that the walk
did not decide, its mapping having changed, start a walk again. -/
def State.replayLane (s : State) (tag : BitVec 16) (base size : Nat) (r : Except Cause TlbEntry) (x : Nat × Nat × Nat) :
    State :=
  match Map.find s.teams x.1 with
  | none => s
  | some t =>
    match Map.find t.parties x.2.1 with
    | none => s
    | some q =>
      match q.accesses.find? fun a => a.id == x.2.2 with
      | none => s
      | some a =>
        let a := { a with lanes := a.lanes.map fun y => y.walked (s.privileged t) a.kind.use base size r }
        let s := s.startWalks t.core tag true (a.lanes.filter fun y => decide (base ≤ y.va ∧ y.va < base + size))
        let (s, a) := if s.heldBack x.1 x.2.1 q a then (s, a) else s.performAll t.core x.1 x.2.1 a
        s.settleAccess tag x.1 x.2.1 a

/-- The accesses of a tag's teams on some cores that have deferred lanes. -/
def State.deferredBy (s : State) (tag : BitVec 16) (cores : List Nat) : List (Nat × Nat × Nat) :=
  s.teams.flatMap fun t =>
    if s.tagOf t.2 = tag ∧ t.2.state ≠ .saved ∧ cores.contains t.2.core then
      t.2.parties.flatMap fun q =>
        (q.2.accesses.filter fun a => a.lanes.any fun x => x.tgt.isNone && x.failed.isNone).map fun a => (t.1, q.1, a.id)
    else []

/-- What a miss finds: the die's translation, or what a walk from the root gives. -/
def State.walkResult (s : State) (w : Walk) : Except Cause TlbEntry :=
  match (if w.at_ = .dieHit then findTlb (s.lastTlb w.die) w.tag w.base else none) with
  | some e => .ok e
  | none =>
    match s.walk w.tag w.base with
    | .error c => .error c
    | .ok (l, bits) => .ok (entryOf w.tag w.base l bits)

/-- A walk ends: its translation fills the caches, of the die alone for the command processors; or nothing stays in them
(R32, R34) but its fault for the issuers that wait for it (R35). -/
def State.endWalk (s : State) (w : Walk) (r : Except Cause TlbEntry) : State :=
  let s := { s with walks := s.walks.filter fun x => x.id != w.id }
  match r with
  | .ok e => w.cores.foldl (fun s c => s.fillTlb c e) (s.fillDie w.die e)
  | .error c => if w.waiters.isEmpty then s else { s with walks := s.walks ++ [{ w with at_ := .ended c.cause c.sub }] }

/-- A walk ends (R34): the lanes that waited are replayed, and its walker goes to a waiting miss. A walk that only
vldg.part started faults nobody (R39). -/
def execWalkComplete (id : Nat) (s : State) : Host.Outcome State Fault Refusal :=
  match s.walks.find? fun w => w.id == id with
  | none => .next s
  | some w =>
    if w.at_ = .queue ∨ w.at_ = .cluster ∨ w.fault?.isSome then .next s
    else
      let r := s.walkResult w
      let s := s.endWalk w r
      let s := s.regrant w.die
      .next ((s.deferredBy w.tag w.cores).foldl (fun s x => s.replayLane w.tag w.base w.size r x) s)

/-! ## Migration -/

/-- Lines of a migrating page are recalled from the engine commands that own them: a command owns them at the new location,
where its writes now go (R45), or not at all when that is a peer's. -/
def State.recallLines (s : State) (m : Migration) : State :=
  let move (l : Nat) : Option Nat :=
    if m.oldFrame ≤ 256 * l ∧ 256 * l < m.oldFrame + m.size then
      if m.rank.isSome then none else some (lineKey (m.newFrame + (256 * l - m.oldFrame)))
    else some l
  let keep (ls : List Nat) : List Nat := ls.filterMap move
  { s with
    teams := Map.mapVals s.teams fun _ t =>
      { t with
        channels := Map.mapVals t.channels fun _ c =>
          { c with cmds := c.cmds.map fun x => { x with owned := x.owned.filterMap fun l => (move l.1).map fun k => (k, l.2) } }
        seq := t.seq.map fun q => { q with ops := q.ops.map fun o => { o with owned := keep o.owned } } }
    ssu := Map.mapVals s.ssu fun _ cs => cs.map fun c => { c with owned := keep c.owned }
    ne := Map.mapVals s.ne fun _ cs => cs.map fun c => { c with owned := keep c.owned } }

/-- A page enters the migration table of its old home (R45): at most 64 pages a die. Every buffered store to its lines is
recalled first, and so are its lines from the engines that own them. -/
def execMigrationTableEntry (die oldFrame size newFrame : Nat) (rank : Option Nat) (s : State) :
    Host.Outcome State Fault Refusal :=
  let inPage (pa : Nat) : Bool := decide (oldFrame ≤ pa ∧ pa < oldFrame + size)
  if 64 ≤ (s.migrations.filter fun m => m.die == die).length ∨ homeDie oldFrame ≠ die ∨
      (s.migrations.any fun m => decide (m.oldFrame < oldFrame + size ∧ oldFrame < m.oldFrame + m.size)) then .next s
  else
    let s := s.drainEvery fun e => inPage (64 * e.line)
    let m : Migration :=
      { die := die, oldFrame := oldFrame, size := size, newFrame := newFrame, rank := rank, copied := [], applied := [] }
    let s := ((s.reach oldFrame size).recallLines m).performHeld
    .next { s with migrations := s.migrations ++ [m] }

/-- The device copies a line of a migrating page; lines that a retried access has brought over stay (R46). -/
def execMigrationLineCopy (die frame line : Nat) (s : State) : Host.Outcome State Fault Refusal :=
  match s.migrations.find? fun m => m.die == die && m.oldFrame == frame with
  | some m => .next (if line < m.size / 256 then s.copyLine m line else s)
  | none => .next s

/-- An entry is removed once the page has been copied; its recorded sequence numbers go with it (R44, R47). -/
def execMigrationEntryRemoval (die oldFrame : Nat) (s : State) : Host.Outcome State Fault Refusal :=
  match s.migrations.find? fun m => m.die == die && m.oldFrame == oldFrame with
  | none => .next s
  | some m =>
    if m.rank.isNone ∧ m.copied.length < m.size / 256 then .next s
    else .next { s with migrations := s.migrations.filter fun x => !(x.die == die && x.oldFrame == oldFrame) }

/-- Two requests are ordered with one another at their target: of one line or join slot there (R357, R444). -/
def inOrder (a b : FabReq) : Bool :=
  a.dst == b.dst && (orderKeyOf a.op a.addr).isSome && orderKeyOf a.op a.addr == orderKeyOf b.op b.addr

/-- The issuer retries a bounced request at the new location that its answer carried (R45), behind the requests that were ordered
before it at the old one: it takes its place in the order there. -/
def execMigrationBounce (id : Nat) (s : State) : Host.Outcome State Fault Refusal :=
  match s.outstanding.find? fun o => o.id == id with
  | none => .next s
  | some o =>
    match o.bounced with
    | none => .next s
    | some (rank, frame) =>
      if (s.outstanding.takeWhile fun x => x.id != id).any fun x => inOrder x.req o.req then .next s
      else
        let (port, s) := s.egress
        let (order, s) := s.nextOrder rank frame o.req.op
        .next { s with outstanding := s.outstanding.map fun x =>
          if x.id = id then
            { x with bounced := none, port := port, req := { x.req with dst := rank, addr := frame, order := order } }
          else x }

/-! ## Scrubbing and refresh -/

/-- The row of R69's table, from 0, of the array that an error lies in: 2 L2, 5 HBM4E, 6 the weight store, 7 the stores and
registers of a core. -/
def errRow : ErrSite → Nat
  | .memory pa => if regionOf pa = .weights then 6 else 5
  | .l2 _ => 2
  | .localStore .. | .accumulator .. | .vector .. | .stack .. => 7
  | .array k => k

/-- The list with an element, once. -/
def addOnce (l : List Nat) (k : Nat) : List Nat := if l.contains k then l else k :: l

/-- An uncorrectable error poisons its unit, without a fault (R71). Of an array whose contents the model does not hold apart
R71 names no unit, and nothing changes (log entry 7). -/
def State.poisonAt (s : State) (x : ErrSite) : State :=
  match x with
  | .memory pa | .l2 pa =>
    if regionOf pa = .hbm ∨ regionOf pa = .weights then { s with poison := addOnce s.poison (pa / 64) } else s
  | .localStore tid w => s.modTeam tid fun t => if 4 * w < t.lsSize then { t with lsPoison := addOnce t.lsPoison w } else t
  | .accumulator tid k => s.modTeam tid fun t => if k < 16384 * t.tiles then { t with accPoison := addOnce t.accPoison k } else t
  | .vector tid p n l => s.modParty tid p fun q =>
      if n < 128 ∧ l < 96 then { q with vPoison := addOnce q.vPoison (96 * n + l) } else q
  | .stack tid p k => s.modParty tid p fun q =>
      if k < q.stack.length then { q with stackPoison := addOnce q.stackPoison k } else q
  | .array _ => s

/-- An array's check finds an error, at a scrub read of L2, HBM4E or the weight store or at any other read: a corrected word
keeps its value and is counted by its array (R70). -/
def execBackgroundScrub (x : ErrSite) (uncorrectable : Bool) (s : State) : Host.Outcome State Fault Refusal :=
  if uncorrectable then .next (s.poisonAt x)
  else .next (if errRow x < 8 then { s with corrected := Store.write s.corrected (errRow x) (Store.read s.corrected (errRow x) + 1) } else s)

/-- A refresh window opens (R61). -/
def execRefreshWindowOpen (die : Nat) (s : State) : Host.Outcome State Fault Refusal :=
  match s.openWindow with
  | some j => .next (if die < 4 then { s with window := Store.write s.window die (BitVec.ofNat 8 (j + 1)) } else s)
  | none => .next s

/-- A refresh window closes; reads that waited on its banks read when they next can (R62). -/
def execRefreshWindowClose (die : Nat) (s : State) : Host.Outcome State Fault Refusal :=
  match s.openWindow with
  | some _ => .next s
  | none => .next { s with window := Map.drop s.window die }

end Sys2Proof.Machine
end

