-- ==== Sys2Proof/Machine/Passes.lean ====
section
/-!
DEFINITION. The arithmetic of matrix passes: the pass formats of R83, the elements and scales that a handle gives a
block (R80, R274), and the sums of R85 to R88 and R277.
-/

namespace Sys2Proof.Machine

open Sys2Proof

/-! ## Pass formats (R83) -/

/-- A row of R83: both encodings, the K per pass, the sides on which scales are allowed, and an integer accumulator when
no scales are used. -/
structure PassFmt where
  a : Cvt
  b : Cvt
  ke : Nat
  sclA : Bool
  sclB : Bool
  int : Bool
deriving DecidableEq, Repr

/-- The row of a format code; none for 0xD and 0xF (R84). -/
def passFmt (code : Nat) : Option PassFmt :=
  match code with
  | 0x0 => some ⟨.fp32, .fp32, 64, false, false, false⟩
  | 0x1 => some ⟨.fp64, .fp64, 32, false, false, false⟩
  | 0x2 => some ⟨.f19, .f19, 64, false, false, false⟩
  | 0x3 => some ⟨.bf16, .bf16, 128, false, false, false⟩
  | 0x4 => some ⟨.fp16, .fp16, 128, false, false, false⟩
  | 0x5 => some ⟨.e5m2, .e5m2, 256, false, false, false⟩
  | 0x6 => some ⟨.e4m3, .e4m3, 256, true, true, false⟩
  | 0x7 => some ⟨.e3m2, .e3m2, 256, true, true, false⟩
  | 0x8 => some ⟨.e2m3, .e2m3, 256, true, true, false⟩
  | 0x9 => some ⟨.e2m1, .e2m1, 512, true, true, false⟩
  | 0xA => some ⟨.int8, .int8, 256, true, true, true⟩
  | 0xB => some ⟨.uint8, .uint8, 256, false, false, true⟩
  | 0xC => some ⟨.int4, .int4, 512, true, true, true⟩
  | 0xE => some ⟨.int8, .trn2, 256, true, false, true⟩
  | _ => none

def passCode (fmt : Word) : Nat := (fld fmt 0 4).toNat

/-- fmt.SCA, fmt.SCB (R82). -/
def fmtSca (fmt : Word) : Bool := fmt.getLsbD 4
def fmtScb (fmt : Word) : Bool := fmt.getLsbD 5

/-- The side carries scales: the bit is set and the format allows it (R84). -/
def PassFmt.useA (p : PassFmt) (fmt : Word) : Bool := fmtSca fmt && p.sclA
def PassFmt.useB (p : PassFmt) (fmt : Word) : Bool := fmtScb fmt && p.sclB

/-- A scale bit is set on a side that allows no scales (R84). -/
def PassFmt.ignored (p : PassFmt) (fmt : Word) : Bool := (fmtSca fmt && !p.sclA) || (fmtScb fmt && !p.sclB)

/-- The accumulator type of passes, and of mst and mscl, under a fmt value (R83). -/
def PassFmt.acc (p : PassFmt) (fmt : Word) : Cvt :=
  if p.a = .fp64 then .fp64 else if p.int && !p.useA fmt && !p.useB fmt then .i32 else .fp32

/-- The format is summed exactly (R85). -/
def PassFmt.exact (p : PassFmt) : Bool := p.a != .fp32 && p.a != .fp64

/-- The code that a handle carries for a format (R72). -/
def Cvt.fmtCode (c : Cvt) : Nat :=
  match c with
  | .fp32 => 0x0 | .fp64 => 0x1 | .f19 => 0x2 | .bf16 => 0x3 | .fp16 => 0x4 | .e5m2 => 0x5 | .e4m3 => 0x6 | .e3m2 => 0x7
  | .e2m3 => 0x8 | .e2m1 => 0x9 | .int8 => 0xA | .uint8 => 0xB | .int4 => 0xC | .trn2 => 0xD | _ => 0xF

/-! ## Blocks of a handle -/

/-- The address of the scale word of element k of row or column x of an operand with `total` elements along K (R80). -/
def scaleAddr (h : Handle) (total x k : Nat) : Nat := scaleBase h + 4 * (x * ((total + 31) / 32) + k / 32)

/-- Uncorrectable ECC at a matrix operand (R71). -/
def eccMatrix (a : Option Nat) : Cause := { cause := 0x0F, sub := 1, addr := a }

/-- One element of a block is read: a poisoned one is a fault (R71). -/
def State.operand (s : State) (tid : Nat) (h : Handle) (r c : Nat) : State × Except Cause Nat :=
  match s.readElem tid h r c with
  | (s, .error e) => (s, .error e)
  | (s, .ok (x, p)) =>
    if p then (s, .error (eccMatrix (if hLoc h = 1 then none else some (elemPos h r c).1))) else (s, .ok x)

/-- Reads the elements at a list of (key, row, column), each once. -/
def State.elems (s : State) (tid : Nat) (h : Handle) (m : Map DWord) (ps : List (Nat × Nat × Nat)) :
    State × Except Cause (Map DWord) :=
  match ps with
  | [] => (s, .ok m)
  | (k, r, c) :: t =>
    match s.operand tid h r c with
    | (s, .error e) => (s, .error e)
    | (s, .ok x) => s.elems tid h (Map.set m k (BitVec.ofNat 64 x)) t

/-- Reads the scale words at a list of (key, address). -/
def State.scales (s : State) (tid : Nat) (h : Handle) (m : Store 32) (ps : List (Nat × Nat)) :
    State × Except Cause (Store 32) :=
  match ps with
  | [] => (s, .ok m)
  | (k, a) :: t =>
    match s.locRead tid (hLoc h) a 4 with
    | (s, .error e) => (s, .error e)
    | (s, .ok (bs, p)) =>
      if p then (s, .error (eccMatrix (if hLoc h = 1 then none else some a)))
      else s.scales tid h (Store.write m k (BitVec.ofNat 32 (ofBytes bs))) t

/-- A block along K: 128 lines of `ke` elements. `alongRows` says that K runs along the handle's rows (R274, mma);
`line` and `chunk` number the block, `want` selects the lines. The answer has the elements by 512·line + k and the
scales by 16·line + group, those within the handle's extent. -/
def State.block (s : State) (tid : Nat) (h : Handle) (alongRows : Bool) (line chunk ke : Nat) (want : Nat → Bool)
    (scl : Bool) : State × Except Cause AReg :=
  let lines := if alongRows then hCols h else hRows h
  let total := if alongRows then hRows h else hCols h
  let js := (List.range 128).filter fun j => want j && decide (128 * line + j < lines)
  let ks := (List.range ke).filter fun k => decide (chunk * ke + k < total)
  let at_ (j k : Nat) : Nat × Nat × Nat :=
    (512 * j + k, if alongRows then (chunk * ke + k, 128 * line + j) else (128 * line + j, chunk * ke + k))
  match s.elems tid h [] (js.flatMap fun j => ks.map (at_ j)) with
  | (s, .error e) => (s, .error e)
  | (s, .ok m) =>
    let gs := if scl then ks.filter fun k => k % 32 == 0 else []
    match s.scales tid h []
      (js.flatMap fun j => gs.map fun k => (16 * j + k / 32, scaleAddr h total (128 * line + j) (chunk * ke + k))) with
    | (s, .error e) => (s, .error e)
    | (s, .ok sc) => (s, .ok { elems := m, scales := sc, enc := none })

/-! ## Sums -/

/-- The elements of one line of a block: (k, bits). -/
def AReg.line (a : AReg) (j : Nat) : List (Nat × Nat) :=
  (a.elems.filter fun x => x.1 / 512 == j).map fun x => (x.1 % 512, x.2.toNat)

/-- An element times the scale of its block (R81). -/
def scaledElem (c : Cvt) (scale : Option Word) (x : Nat) : Num :=
  match scale with
  | none => c.unpack x
  | some w => (mulNum (unpackS20 (w.toNat % 2 ^ 20)) (c.unpack x)).1

/-- The pairs of elements that take part in an output element, in increasing k: one line of A and one of B. -/
def pairsOf (a b : List (Nat × Nat)) : List (Nat × Nat × Nat) :=
  a.filterMap fun x => (b.find? fun y => y.1 == x.1).map fun y => (x.1, x.2, y.2)

/-- An output element of a pass (R85 to R88): the accumulator's bits before and after. -/
def passElem (p : PassFmt) (fmt : Word) (a b : AReg) (i j : Nat) (c : Nat) (ps : List (Nat × Nat × Nat)) : Nat :=
  let sa (k : Nat) : Option Word := if p.useA fmt then some (Store.read a.scales (16 * i + k / 32)) else none
  let sb (k : Nat) : Option Word := if p.useB fmt then some (Store.read b.scales (16 * j + k / 32)) else none
  if !p.exact then
    let f := if p.a = .fp64 then fmtFp64 else fmtFp32
    ps.foldl (fun c x =>
      (roundFloat f .rne false false (fmaNum false (f.unpack x.2.1) (f.unpack x.2.2) (f.unpack c)).1).1) c
  else if p.acc fmt = .i32 then
    intBits 32 (ps.foldl (fun v x => v + (p.a.unpack x.2.1).toInt * (p.b.unpack x.2.2).toInt) (sextNat 32 c))
  else
    let ns := ps.map fun x => (mulNum (scaledElem p.a (sa x.1) x.2.1) (scaledElem p.b (sb x.1) x.2.2)).1
    match (sumNum false (fmtFp32.unpack c :: ns)).1 with
    | .fin _ 0 _ => 0
    | n => (roundFloat fmtFp32 .rne false false n).1

/-- The accumulator's element of a tile: a pair of tiles for FP64 (R68). -/
def Team.accElem (t : Team) (wide : Bool) (c i j : Nat) : Nat :=
  (t.tile c i j).toNat + if wide then 2 ^ 32 * (t.tile (c + 1) i j).toNat else 0

def Team.setAccElem (t : Team) (wide : Bool) (c i j x : Nat) : Team :=
  let t := t.setTile c i j (BitVec.ofNat 32 x)
  if wide then t.setTile (c + 1) i j (BitVec.ofNat 32 (x / 2 ^ 32)) else t

/-- A pass on a tile (R277), the columns that `want` selects. -/
def Team.pass (t : Team) (p : PassFmt) (fmt : Word) (a b : AReg) (cd : Nat) (want : Nat → Bool) : Team :=
  let wide := p.a == .fp64
  let rows := (List.range 128).map fun i => (i, a.line i)
  let cols := ((List.range 128).filter want).map fun j => (j, b.line j)
  cols.foldl (fun t y =>
    rows.foldl (fun t x =>
      t.setAccElem wide cd x.1 y.1
        (passElem p fmt a b x.1 y.1 (t.accElem wide cd x.1 y.1) (pairsOf x.2 y.2))) t) t

/-- Some element of a tile, or of a pair, is poisoned (R71). -/
def Team.tilePoisoned (t : Team) (wide : Bool) (c : Nat) : Bool :=
  t.accPoison.any fun k => k / 16384 == c || (wide && k / 16384 == c + 1)

/-- TRNRES of a block: a reserved TRN2 code was read (R78). -/
def AReg.trnres (b : AReg) (c : Cvt) : Bool := c == .trn2 && b.elems.any fun x => x.2 == 2#64

/-- Warn bits of a matrix operation reach every party of the team (R291). -/
def Team.raiseAll (t : Team) (w : Word) : Team :=
  { t with parties := Map.mapVals t.parties fun _ q => q.raise w }

end Sys2Proof.Machine
end

