-- ==== Sys2Proof/Machine/Matrix.lean ====
section
/-!
DEFINITION. The matrix sequencer and the instructions of the matrix stream but those of Lookout (R264 to R293).
-/

namespace Sys2Proof.Machine

open Sys2Proof

/-! ## Issuing an instruction of a sequencer -/

/-- The sequencer that `cur` names. -/
def State.sequencer (s : State) : Option (Nat × Team × Sequencer) :=
  match s.cur with
  | some (.seq tid) =>
    match Map.find s.teams tid with
    | some t =>
      match t.seq with
      | some q => some (tid, t, q)
      | none => none
    | none => none
  | _ => none

/-- The address of the sequencer's clause. -/
def Sequencer.clauseAddr (q : Sequencer) : Word :=
  match q.clause with
  | some c => c.addr
  | none => q.pc

/-- The address after the last word of the sequencer's clause. -/
def Sequencer.nextClause (q : Sequencer) : Word :=
  match q.clause with
  | some c => c.stop
  | none => q.pc + 4

/-- Past an instruction of `size` words. -/
def Sequencer.advance (q : Sequencer) (size : Nat) : Sequencer :=
  let pc := q.pc + BitVec.ofNat 32 (4 * size)
  { q with
    pc := pc
    clause := match q.clause with
      | some c => if pc = c.stop then none else some c
      | none => none
    wait := .none }

/-- To a clause boundary. -/
def Sequencer.jump (q : Sequencer) (pc : Word) : Sequencer := { q with pc := pc, clause := none, wait := .none }

/-- The place of a fault at an instruction of a sequencer (R283, R398). -/
def seqOrigin (q : Sequencer) (word : Word) : Origin :=
  { pc := q.pc, clause := q.clauseAddr, word := word, party := none, slot := false }

def State.modSeq (s : State) (tid : Nat) (f : Sequencer → Sequencer) : State := s.modTeam tid fun t => t.modSeq f

/-- The end of an instruction of a sequencer. -/
def finishSeq (i : Instr) (s : State) (tid : Nat) (q : Sequencer) (e : Effect) : State :=
  match e with
  | .done s => s.modSeq tid fun q => q.advance i.size
  | .flow s => s
  | .wait s x => s.modSeq tid fun q => { q with wait := x }
  | .hold x => s.modSeq tid fun q => { q with wait := x }
  | .fault s c => s.takeFault tid (seqOrigin q i.word) c false false .none

/-- An instruction of a matrix stream: nothing when the sequencer or its team has stopped. The sequencer stalls while a
pass that it has issued waits for a reservation entry (R281). -/
def runSeq (i : Instr) (s : State) (f : Nat → Team → Sequencer → State → Effect) :
    Host.Outcome State Fault Refusal :=
  match s.sequencer with
  | none => .fault .noIssuer
  | some (tid, t, q) =>
    if !t.running || q.stopped then .next s
    else if q.ops.any fun o => 0 < o.passes.unposted then
      .next (finishSeq i s tid q (.hold (.reservation t.core)))
    else .next (finishSeq i s tid q ((f tid t q s).unstuck s (.seq tid) (seqOrigin q i.word)))

/-- K[n]. -/
def Sequencer.getK (q : Sequencer) (n : Nat) : Word := Store.read q.k n

/-- The block offset of R274: kc and nb. -/
def Sequencer.offset (q : Sequencer) (ko : Bool) (k : Nat) : Nat × Nat :=
  if ko then ((fld (q.getK k) 0 16).toNat, (fld (q.getK k) 16 16).toNat) else (0, 0)

/-! ## k registers (R284) -/

/-- K[kd] := v. -/
def setK (i : Instr) (s : State) (k : BitVec 4) (f : Sequencer → Word) : Host.Outcome State Fault Refusal :=
  runSeq i s fun tid _ _ s => .done (s.modSeq tid fun q => { q with k := Store.write q.k k.toNat (f q) })

def execKli (k : BitVec 4) (v : BitVec 10) (s : State) : Host.Outcome State Fault Refusal :=
  setK (.kli k v) s k fun _ => v.signExtend 32

def execKliLiteral (k : BitVec 4) (w : Word) (s : State) : Host.Outcome State Fault Refusal :=
  setK (.kliLiteral k w) s k fun _ => w

def execKadd (k a : BitVec 4) (v : BitVec 10) (s : State) : Host.Outcome State Fault Refusal :=
  setK (.kadd k a v) s k fun q => q.getK a.toNat + v.signExtend 32

def execKbr (c : KCond) (a : BitVec 4) (o : BitVec 10) (s : State) : Host.Outcome State Fault Refusal :=
  runSeq (.kbr c a o) s fun tid _ _ s =>
    .flow (s.modSeq tid fun q =>
      let v := if c = .dec then q.getK a.toNat - 1 else q.getK a.toNat
      let taken : Bool := if c = .z then v == 0 else v != 0
      let q := if c = .dec then { q with k := Store.write q.k a.toNat v } else q
      q.jump (if taken then q.clauseAddr + (o.signExtend 32 <<< 2) else q.nextClause))

/-! ## Operations in flight -/

/-- The A register that an operation will write. -/
def MatOp.loads (o : MatOp) : Option Nat :=
  match o.kind with
  | .mld m .. => some m
  | .lkoPred m => some m
  | .lkoChk _ m _ => some m
  | _ => none

/-- An operation in flight will write the A register: the scoreboard holds what names it (R265). -/
def Sequencer.loading (q : Sequencer) (m : Nat) : Bool := q.ops.any fun o => o.loads == some m

/-- The Lookout sequence that later instructions find open: one that an issued lko.chk closes is closed for them. -/
def Sequencer.openLko (q : Sequencer) : Option LkoSeq :=
  if q.ops.any fun o => match o.kind with | .lkoChk .. => true | _ => false then none else q.lko

/-- The open Lookout sequence holds the tile (R300). -/
def Sequencer.holds (q : Sequencer) (c : Nat) : Bool := q.lko.any fun l => l.tile == some c

/-- Entries of the reservation table that a core's operations hold (R281). -/
def State.entries (s : State) (core : Nat) : Nat :=
  (s.teams.map fun (_, t) =>
    if t.core = core then (match t.seq with | some q => (q.ops.map fun o => o.passes.waiting.length).sum | none => 0)
    else 0).sum +
  (s.ssu.map fun (_, cs) => ((cs.filter fun c => c.core == core).map fun c => c.passes.waiting.length).sum).sum

/-- It holds a tile, or for FP64 one of the pair. -/
def Sequencer.holdsAny (q : Sequencer) (wide : Bool) (c : Nat) : Bool := q.holds c || (wide && q.holds (c + 1))

/-- Passes take entries of a core that has `n` taken, of 8 (R281). -/
def Passes.post (x : Passes) (n : Nat) : Passes :=
  let k := min x.unposted (8 - n)
  { x with unposted := x.unposted - k, waiting := x.waiting ++ List.replicate k 0 }

/-- Entries not granted are withdrawn at the save rung, to be posted again (R301). -/
def Passes.withdraw (x : Passes) : Passes := { x with unposted := x.unposted + x.waiting.length, waiting := [] }

/-- A team's entries not granted are withdrawn, its sequencer's and its stream commands' (R301). -/
def State.withdrawPasses (s : State) (tid : Nat) : State :=
  ({ s with ssu := Map.mapVals s.ssu fun _ cs =>
      cs.map fun c => if c.tid = tid then { c with passes := c.passes.withdraw } else c } : State).modSeq tid fun q =>
    { q with ops := q.ops.map fun o => { o with passes := o.passes.withdraw } }

/-- The node's priority level (R337). -/
def State.prioOf (s : State) (t : Team) : Nat := match s.node? t with | some n => n.prio | none => 0

/-- Issues a matrix operation of `passes` passes, which take reservation entries as far as there are any. -/
def State.post (s : State) (tid : Nat) (i : Instr) (kind : MatKind) (passes : Nat) (owned : List Nat) : State :=
  match Map.find s.teams tid with
  | none => s
  | some t =>
    let prio := s.prioOf t
    let (id, s) := s.fresh
    s.modSeq tid fun q =>
      { q with
        ops := q.ops ++
          [{ id := id, kind := kind, fmt := q.fmt, mode := q.mode, place := s.placeNow t.core 10 t.lowSlot,
             origin := seqOrigin q i.word, prio := prio
             passes := Passes.post ⟨passes, [], 0, s.placeNow t.core 10 t.lowSlot⟩ (s.entries t.core)
             fetched := [], owned := owned, ended := none }] }

/-- The sequencer reads bytes at issue: it waits while an operation in flight has yet to write them (R265). -/
def State.afterOps (s : State) (tid : Nat) (t : Team) (q : Sequencer) (a n : Nat) : State :=
  s.stick (q.ops.any fun o => (s.spanLines tid t .load 0 a n).any o.owned.contains)

/-! ## The checks at issue (R283) -/

/-- The handle's base lies on a peer page (R273). -/
def State.peerBase (s : State) (t : Team) (h : Handle) : Bool :=
  hLoc h == 0 &&
    match s.peekTarget t.core (s.tagOf t) (s.privileged t) .load (hBase h) with
    | some g => g.peer.isSome
    | none => false

/-- Reads the handle that an instruction names, with the checks of R345 and R273. -/
def State.matHandle (s : State) (tid : Nat) (t : Team) (q : Sequencer) (n : Nat) : State × Except Cause Handle :=
  match (s.afterOps tid t q (handleAddr t n) 16).fetchHandle tid n 1 with
  | (s, .error c) => (s, .error c)
  | (s, .ok h) =>
    match handleFault h with
    | some c => (s, .error c)
    | none => (s, if s.peerBase t h then .error (protection 0x0E) else .ok h)

def mxFmt : Cause := protection 0x0F
def mxRange : Cause := protection 0x10
def lkoOrder : Cause := protection 0x11
def lkoBlock : Cause := protection 0x12

/-- CD is beyond the allocation, or odd for an FP64 pair (R67, R68). -/
def Team.badTile (t : Team) (wide : Bool) (c : Nat) : Bool :=
  decide (t.tiles ≤ c) || (wide && (c % 2 == 1 || decide (t.tiles ≤ c + 1)))

/-- The bytes of rows r0 to r1 − 1 and columns c0 to c1 − 1 of a handle, cut to its extent: the first address and the
address after the last. -/
def hSpan (h : Handle) (r0 r1 c0 c1 : Nat) : Nat × Nat :=
  (hBase h + r0 * hPitch h + c0 * hBits h / 8,
    hBase h + (min r1 (hRows h) - 1) * hPitch h + (min c1 (hCols h) * hBits h + 7) / 8)

/-- The scale words of lines x0 to x1 − 1 and elements k0 to k1 − 1 along a K axis of `total` elements. -/
def sclSpan (h : Handle) (lines total x0 x1 k0 k1 : Nat) : Nat × Nat :=
  (scaleAddr h total x0 k0, scaleAddr h total (min x1 lines - 1) (min k1 total - 1) + 4)

/-- MXRANGE, then LSRANGE, of a block of the handle and, where they are used, of its scale words. -/
def Team.blockFault (t : Team) (h : Handle) (r0 nr c0 nc : Nat) (scl : Option (Nat × Nat)) : Option Cause :=
  if hRows h ≤ r0 ∨ hCols h ≤ c0 then some mxRange
  else
    match t.lsSpan h (hSpan h r0 (r0 + nr) c0 (c0 + nc)) with
    | some c => some c
    | none => scl.bind fun sp => t.lsSpan h sp

/-! ## mld, mrel, mzero -/

/-- mld (R286): the block is read when the operation retires. -/
def execMld (m : BitVec 2) (h : BitVec 4) (k : BitVec 4) (ko : Bool) (s : State) : Host.Outcome State Fault Refusal :=
  let i := Instr.mld m h k ko
  runSeq i s fun tid t q s =>
    match passFmt (passCode q.fmt) with
    | none => .fault s illegalInstruction
    | some p =>
      match s.matHandle tid t q h.toNat with
      | (s, .error c) => .fault s c
      | (s, .ok hd) =>
        let (kc, nb) := q.offset ko k.toNat
        let scl := p.useA q.fmt
        if hFmt hd ≠ Cvt.fmtCode p.a ∨ (scl ∧ hScl hd = 0) then .fault s mxFmt
        else
          match t.blockFault hd (128 * nb) 128 (kc * p.ke) p.ke
            (if scl then some (sclSpan hd (hRows hd) (hCols hd) (128 * nb) (128 * nb + 128) (kc * p.ke) (kc * p.ke + p.ke))
             else none) with
          | some c => .fault s c
          | none =>
            if q.loading m.toNat then .hold (.scoreboard 3 m.toNat)
            else
              let s := s.modSeq tid fun q => { q with latch := if q.latch = some m.toNat then none else q.latch }
              .done (s.post tid i (.mld m.toNat hd kc nb) 0 [])

/-- mrel (R288). -/
def execMrel (m : BitVec 2) (s : State) : Host.Outcome State Fault Refusal :=
  runSeq (.mrel m) s fun tid _ _ s =>
    .done (s.modSeq tid fun q => { q with latch := if q.latch = some m.toNat then none else q.latch })

/-- Every element of a tile is zero. -/
def Team.zeroTile (t : Team) (c : Nat) : Team :=
  { t with
    acc := t.acc.filter fun x => x.1 / 16384 != c
    accPoison := t.accPoison.filter fun k => k / 16384 != c }

/-- An operation in flight reads or writes the tile. -/
def Sequencer.usesTile (q : Sequencer) (c : Nat) : Bool := q.ops.any fun o => (o.tiles false).contains c

/-- An operation in flight will write the tile, or for FP64 one of the pair; or the open Lookout sequence holds it. -/
def Sequencer.writesTile (q : Sequencer) (wide : Bool) (c : Nat) : Bool :=
  q.holdsAny wide c || q.ops.any fun o => (o.tiles true).any fun k => k == c || (wide && k == c + 1)

/-- mzero (R289), after the operations in flight that use the tile (R265, R270). -/
def execMzero (c : BitVec 4) (s : State) : Host.Outcome State Fault Refusal :=
  runSeq (.mzero c) s fun tid t q s =>
    if t.badTile false c.toNat then .fault s registerRange
    else if q.usesTile c.toNat then .hold (.scoreboard 4 c.toNat)
    else .done (s.modTeam tid fun t => t.zeroTile c.toNat)

/-! ## mma and mmt (R277, R290) -/

/-- The pass is a mapped pass of the open Lookout sequence: it names the handle register that lko.fetch named (R295). -/
def Sequencer.mapped (q : Sequencer) (h : Nat) : Bool :=
  q.openLko.any fun l => l.weights.any fun w => w.1 == h

/-- The order checks of R295 at a pass. -/
def Sequencer.lkoPass (q : Sequencer) (p : PassFmt) (transposed : Bool) (c h nb : Nat) : Bool :=
  match q.openLko with
  | none => false
  | some l =>
    q.mapped h &&
      (!transposed || (match l.tile with | some x => x != c | none => false) || nb != 0 || l.pass != passCode q.fmt ||
        !p.exact || fmtSca q.fmt || fmtScb q.fmt)

/-- A pass is posted, once its A register is loaded and the core has a reservation entry. -/
def passEffect (i : Instr) (transposed : Bool) (c : BitVec 4) (m : BitVec 2) (h : BitVec 4) (ru : Bool) (k : BitVec 4)
    (ko : Bool) (tid : Nat) (t : Team) (q : Sequencer) (s : State) : Effect :=
  match passFmt (passCode q.fmt) with
  | none => .fault s illegalInstruction
  | some p =>
    let wide := p.a == .fp64
    if t.badTile wide c.toNat then .fault s registerRange
    else if q.loading m.toNat then .hold (.scoreboard 3 m.toNat)
    else
      match s.matHandle tid t q h.toNat with
      | (s, .error c) => .fault s c
      | (s, .ok hd) =>
        let (kc, nb) := q.offset ko k.toNat
        let scl := p.useB q.fmt
        let a := (Map.find t.aregs m.toNat).getD { elems := [], scales := [], enc := none }
        let badA : Bool :=
          match a.enc with
          | none => false
          | some (f, holds) => f != Cvt.fmtCode p.a || (p.useA q.fmt && !holds)
        if hFmt hd ≠ Cvt.fmtCode p.b ∨ (scl ∧ hScl hd = 0) ∨ badA then .fault s mxFmt
        else
          let kk := (kc * p.ke, kc * p.ke + p.ke)
          let jj := (128 * nb, 128 * nb + 128)
          let scale :=
            if scl then
              some (if transposed then sclSpan hd (hRows hd) (hCols hd) jj.1 jj.2 kk.1 kk.2
                else sclSpan hd (hCols hd) (hRows hd) jj.1 jj.2 kk.1 kk.2)
            else none
          match (if transposed then t.blockFault hd jj.1 128 kk.1 p.ke scale
            else t.blockFault hd kk.1 p.ke jj.1 128 scale) with
          | some c => .fault s c
          | none =>
            if q.lkoPass p transposed c.toNat h.toNat nb then .fault s lkoOrder
            else if 8 ≤ s.entries t.core then .hold (.reservation t.core)
            else
              let mapped := q.mapped h.toNat
              let s := s.post tid i (.pass c.toNat a hd transposed kc nb mapped) 1 []
              .done (s.modSeq tid fun q =>
                { q with
                  latch := if ru then some m.toNat else none
                  lko := if mapped then q.lko.map fun l => { l with tile := some c.toNat } else q.lko })

/-- mma: K runs along the handle's rows. -/
def execMma (c : BitVec 4) (m : BitVec 2) (h : BitVec 4) (ru : Bool) (k : BitVec 4) (ko zs : Bool) (s : State) :
    Host.Outcome State Fault Refusal :=
  let i := Instr.mma c m h ru k ko zs
  runSeq i s (passEffect i false c m h ru k ko)

/-- mmt: K runs along the handle's columns. -/
def execMmt (c : BitVec 4) (m : BitVec 2) (h : BitVec 4) (ru : Bool) (k : BitVec 4) (ko zs : Bool) (s : State) :
    Host.Outcome State Fault Refusal :=
  let i := Instr.mmt c m h ru k ko zs
  runSeq i s (passEffect i true c m h ru k ko)

/-! ## mst and mscl (R291, R292) -/

/-- Formats that carry scales (R83). -/
def Cvt.scalable (c : Cvt) : Bool :=
  c == .e4m3 || c == .e3m2 || c == .e2m3 || c == .e2m1 || c == .int8 || c == .int4

/-- mst: the handle's format may be any but TX8. -/
def execMst (c h : BitVec 4) (k : BitVec 4) (ko : Bool) (s : State) : Host.Outcome State Fault Refusal :=
  let i := Instr.mst c h k ko
  runSeq i s fun tid t q s =>
    match passFmt (passCode q.fmt) with
    | none => .fault s illegalInstruction
    | some p =>
      let wide := p.a == .fp64
      if t.badTile wide c.toNat then .fault s registerRange
      else
        match s.matHandle tid t q h.toNat with
        | (s, .error e) => .fault s e
        | (s, .ok hd) =>
          let (kc, nb) := q.offset ko k.toNat
          if hFmt hd = 0xE then .fault s mxFmt
          else
            let scl : Bool := (hCvt hd).any Cvt.scalable && hScl hd != 0
            match t.blockFault hd (128 * nb) 128 (128 * kc) 128
              (if scl then
                some (sclSpan hd (hRows hd) (hCols hd) (128 * nb) (128 * nb + 128) (128 * kc) (128 * kc + 128))
               else none) with
            | some e => .fault s e
            | none =>
              if q.writesTile wide c.toNat then .hold (.scoreboard 4 c.toNat)
              else
                let rows := (List.range 128).filter fun j => decide (128 * nb + j < hRows hd)
                let lines := rows.flatMap fun j =>
                  let r := 128 * nb + j
                  let sp := hSpan hd r (r + 1) (128 * kc) (128 * kc + 128)
                  s.spanLines tid t .store (hLoc hd) sp.1 (sp.2 - sp.1)
                .done (s.post tid i (.mst c.toNat hd kc nb) 0 lines.dedup)

/-- mscl: at most 128 rows and columns, a format with scales, a scale pointer. DESIGN CHOICE: R283 names an odd CD for an
FP64 pass and an FP64 mst alone; the model gives an mscl under FP64, which reads a tile pair too, the same register-range
fault for an odd CD and for a pair whose second tile is beyond the allocation (log entry 59). -/
def execMscl (c h : BitVec 4) (s : State) : Host.Outcome State Fault Refusal :=
  let i := Instr.mscl c h
  runSeq i s fun tid t q s =>
    match passFmt (passCode q.fmt) with
    | none => .fault s illegalInstruction
    | some p =>
      if t.badTile (p.a == .fp64) c.toNat then .fault s registerRange
      else
        match s.matHandle tid t q h.toNat with
        | (s, .error e) => .fault s e
        | (s, .ok hd) =>
          if !(hCvt hd).any Cvt.scalable ∨ hScl hd = 0 then .fault s mxFmt
          else if 128 < hRows hd ∨ 128 < hCols hd then .fault s mxRange
          else
            let sp := sclSpan hd (hRows hd) (hCols hd) 0 128 0 128
            match t.blockFault hd 0 128 0 128 (some sp) with
            | some e => .fault s e
            | none =>
              if q.writesTile (p.a == .fp64) c.toNat then .hold (.scoreboard 4 c.toNat)
              else .done (s.post tid i (.mscl c.toNat hd) 0 (s.spanLines tid t .store (hLoc hd) sp.1 (sp.2 - sp.1)))

/-! ## mchk and mbar -/

/-- mchk (R293): waits until every earlier operation has retired. -/
def execMchk (k : BitVec 4) (s : State) : Host.Outcome State Fault Refusal :=
  runSeq (.mchk k) s fun tid _ q s =>
    if !q.ops.isEmpty then .hold .memory
    else .done (s.modSeq tid fun q => { q with k := Store.write q.k k.toNat q.check })

/-- mbar (R285): the mismatch, the wait for reads and writes in flight (a pass in the array has read its operands), the
arrival, the wait for the phase. -/
def execMbar (b : BitVec 4) (s : State) : Host.Outcome State Fault Refusal :=
  runSeq (.mbar b) s fun tid t q s =>
    let r := BarRef.team tid b.toNat
    let ph := (s.barrier r).phase
    match q.barWait with
    | some (_, mine) =>
      if mine < ph then .done (s.modSeq tid fun q => { q with barWait := none }) else .hold (.barrier 0 b.toNat mine)
    | none =>
      if !s.meets t b.toNat then .fault s (mismatch .tm b.toNat)
      else if q.ops.any fun o => !(match o.kind with | .pass .. => decide (0 < o.passes.inArray) | _ => false) then
        .hold (.barrier 0 b.toNat ph)
      else
        let s := s.arrive r { tid := tid, who := 16, fmt := q.fmt, mode := q.mode, awaits := [], streams := [] }
        .wait (s.modSeq tid fun q => { q with barWait := some (b.toNat, ph) }) (.barrier 0 b.toNat ph)

end Sys2Proof.Machine
end

