-- ==== Sys2Proof/Machine/Approx.lean ====
section
/-!
DEFINITION. The approximate special functions (R259 to R261): enclosures of the exact results by integers over a power
of two, and the choice of a representable value within the bound that the spec sets. The choice itself is free.
-/

namespace Sys2Proof

/-- An enclosure: the exact value lies in [lo · 2^e, hi · 2^e]. -/
structure Enc where
  lo : Int
  hi : Int
  e : Int
deriving DecidableEq, Repr

/-- A positive value below every format's numbers: where it is rounded or bounded, its size does not matter. -/
def encTiny : Enc := ⟨1, 2, -5000⟩

/-- Bits of the fixed-point numbers below. -/
def fxBits : Nat := 128

/-- ⌊ln 2 · 2^128⌋ and ⌊π · 2^128⌋. -/
def fxLn2 : Nat := 0xB17217F7D1CF79ABC9E3B39803F2F6AF
def fxPi : Nat := 0x3243F6A8885A308D313198A2E03707344

def fxMulLo (a b : Nat) : Nat := (a * b) >>> fxBits
def fxMulHi (a b : Nat) : Nat := (a * b) >>> fxBits + 1

/-- Terms of Σ r^k / k! from term `k`, rounded down (`up` false) or up; `n` terms. -/
def fxExpTerms (up : Bool) (r t k n : Nat) : Nat :=
  match n with
  | 0 => if up then 1 else 0
  | n + 1 =>
    let t' := if up then fxMulHi t r / k + 1 else fxMulLo t r / k
    t' + fxExpTerms up r t' (k + 1) n

/-- exp of a fixed-point number in [0, 1), enclosed. -/
def fxExp (lo hi : Nat) : Nat × Nat :=
  (2 ^ fxBits + fxExpTerms false lo (2 ^ fxBits) 1 40, 2 ^ fxBits + fxExpTerms true hi (2 ^ fxBits) 1 40)

/-- ⌊v · 2^e⌋ of a dyadic number, and the rest over 2^128 rounded down and up. -/
def splitFloor (v : Int) (e : Int) : Int × Nat × Nat :=
  if 0 ≤ e then (v * 2 ^ e.toNat, 0, 0)
  else
    let k := (-e).toNat
    let n := v / 2 ^ k
    let r := (v - n * 2 ^ k).toNat
    let f := (r <<< fxBits) >>> k
    (n, f, if (f <<< k) = r <<< fxBits then f else f + 1)

/-- 2^(v · 2^e), enclosed. -/
def encExp2 (v e : Int) : Enc :=
  let (n, flo, fhi) := splitFloor v e
  let (a, b) := fxExp (fxMulLo flo fxLn2) (fxMulHi fhi (fxLn2 + 1))
  ⟨a, min b (2 ^ (fxBits + 1)), n - fxBits⟩

/-- Terms of Σ t^(2k+1) / (2k+1). -/
def fxAtanhTerms (up : Bool) (t2 p k n : Nat) : Nat :=
  match n with
  | 0 => if up then 1 else 0
  | n + 1 =>
    (if up then p / k + 1 else p / k) + fxAtanhTerms up t2 (if up then fxMulHi p t2 else fxMulLo p t2) (k + 2) n

/-- log₂ (m · 2^e) for m ≠ 0, enclosed. -/
def encLog2 (m : Nat) (e : Int) : Enc :=
  let l := Nat.log2 m
  let one := 2 ^ l
  let num := (m - one) <<< fxBits
  let tlo := num / (m + one)
  let thi := tlo + 1
  let lnlo := 2 * fxAtanhTerms false (fxMulLo tlo tlo) tlo 1 64
  let lnhi := 2 * fxAtanhTerms true (fxMulHi thi thi) thi 1 64
  let flo := (lnlo <<< fxBits) / (fxLn2 + 1)
  let fhi := (lnhi <<< fxBits) / fxLn2 + 1
  let n : Int := ((l : Int) + e) * 2 ^ fxBits
  ⟨n + flo, n + (if m = one then 0 else fhi), -fxBits⟩

/-- Terms of the alternating series of sin from the term `t` with divisor k(k+1): (sum lo, sum hi). -/
def fxSinTerms (x2lo x2hi tlo thi k n : Nat) : Int × Int :=
  match n with
  | 0 => (-1, 1)
  | n + 1 =>
    let (a, b) := fxSinTerms x2lo x2hi (fxMulLo tlo x2lo / (k * (k + 1))) (fxMulHi thi x2hi / (k * (k + 1)) + 1) (k + 2) n
    ((tlo : Int) - b, (thi : Int) - a)

/-- sin (π · f) for f = flo..fhi over 2^128 in [0, 1/2], enclosed. -/
def encSin (flo fhi : Nat) : Enc :=
  let x := fxMulLo flo fxPi
  let y := fxMulHi fhi (fxPi + 1)
  let (a, b) := fxSinTerms (fxMulLo x x) (fxMulHi y y) x y 2 40
  ⟨max a 0, min b (2 ^ fxBits), -fxBits⟩

/-- tanh of m · 2^e > 0 below 9, enclosed. -/
def encTanh (m : Nat) (e : Int) : Enc :=
  if floorLog m e < -30 then
    let cube := m * m * m
    let k : Int := min (3 * e - 2) e
    ⟨(m : Int) * 2 ^ (e - k).toNat - (cube : Int) * 2 ^ (3 * e - 1 - k).toNat, (m : Int) * 2 ^ (e - k).toNat, k⟩
  else
    let x : Int := 2 * m
    let scaled : Nat := if 0 ≤ e then (x.toNat <<< e.toNat) <<< fxBits else (x.toNat <<< fxBits) >>> (-e).toNat
    let k := scaled / (fxLn2 + 1)
    let rlo := scaled - k * (fxLn2 + 1)
    let rhi := scaled + 1 - k * fxLn2
    let (a, b) := fxExp rlo rhi
    let one := 2 ^ fxBits
    let elo := a <<< k
    let ehi := b <<< k
    ⟨((((elo - one) <<< fxBits) / (elo + one) : Nat) : Int),
      min ((((ehi - one) <<< fxBits) / (ehi + one) + 1 : Nat) : Int) (2 ^ fxBits), -fxBits⟩

/-- 1 / √(m · 2^e) for m ≠ 0, enclosed. -/
def encRsqrt (m : Nat) (e : Int) : Enc :=
  let odd : Bool := e % 2 != 0
  let m' := if odd then 2 * m else m
  let h := (if odd then e - 1 else e) / 2
  let k := Nat.log2 m' + 256
  let k := if k % 2 = 0 then k else k + 1
  let r := isqrt (2 ^ k / m')
  ⟨r, r + 1, -h - (k / 2 : Nat)⟩

/-- A bound of R259: ulps of the exact result, and an absolute bound 2^−a where there is one. -/
structure Bound where
  ulps : Nat
  abs : Option Nat
deriving DecidableEq, Repr

/-- v · 2^e ≤ w · 2^f. -/
def dyadicLe (v e w f : Int) : Bool :=
  let k := min e f
  decide (v * 2 ^ (e - k).toNat ≤ w * 2 ^ (f - k).toNat)

/-- A finite number lies within a bound of some value of an enclosure of magnitudes. The value lies below the enclosure's upper
end, so that its ulp is that of the numbers just below this end. -/
def withinBound (f : FloatFmt) (b : Bound) (x : Enc) (y : Num) : Bool :=
  match y with
  | .fin neg m e =>
    let q := quantum f.mbits (1 - (f.bias : Int)) (2 * max x.hi.natAbs x.lo.natAbs - 1) (x.e - 1)
    let v : Int := if neg then -(m : Int) else m
    let k := min (min x.e e) (min q (match b.abs with | some a => -(a : Int) | none => 0))
    let at_ (z : Int) (c : Int) : Int := z * 2 ^ (c - k).toNat
    let tol := max (at_ b.ulps q) (match b.abs with | some a => at_ 1 (-(a : Int)) | none => 0)
    decide (at_ x.lo x.e - tol ≤ at_ v e ∧ at_ v e ≤ at_ x.hi x.e + tol)
  | _ => false

/-- The number in the middle of an enclosure. -/
def Enc.mid (x : Enc) : Num := ofScaled false (x.lo + x.hi) (x.e - 1)

/-- The representable value that an approximate function delivers: the free choice where it lies within the bound, the
nearest value otherwise; an exact result beyond the format overflows under R95. -/
def deliver (f : FloatFmt) (b : Bound) (fout : Bool) (x : Enc) (choice : Nat) : Nat × Word :=
  let near := roundFloat f .rne false false x.mid
  if near.2 &&& wOVF ≠ 0 then near
  else
    let c := choice % 2 ^ (1 + f.ebits + f.mbits)
    let y := if withinBound f b x (f.unpack c) then c else near.1
    match f.unpack y with
    | .fin neg m e =>
      let tiny : Bool := m == 0 || floorLog m e < 1 - (f.bias : Int)
      if tiny && fout then (f.code neg 0 0, wUNF ||| wINX) else (y, wINX ||| when tiny wUNF)
    | _ => (y, wINX)

/-- The numbers of the approximate functions. -/
inductive Approx where
  | rsq | exp2 | log2 | sin | cos | tanh
deriving DecidableEq, Repr

def Approx.number : Approx → Nat
  | .rsq => 0 | .exp2 => 1 | .log2 => 2 | .sin => 3 | .cos => 4 | .tanh => 5

/-- The code of an element type's format. -/
def ftyCvt : FTy → Cvt
  | .f32 => .fp32 | .f64 => .fp64 | .bf16 => .bf16 | .f16 => .fp16

def ftyFmt (t : FTy) : FloatFmt := ((ftyCvt t).float).getD fmtFp32

/-- The bound of a function in a type (R259); log₂ has an absolute bound for a in (0.5, 2) only. -/
def boundOf (g : Approx) (t : FTy) (near1 : Bool) : Bound :=
  let abs := if t = .f32 then 22 else 12
  match g with
  | .rsq | .exp2 => ⟨1, none⟩
  | .log2 => ⟨1, if near1 then some abs else none⟩
  | .sin | .cos => if t = .f32 then ⟨0, some 22⟩ else ⟨1, some 12⟩
  | .tanh => ⟨if t = .f32 then 2 else 1, none⟩

/-- m · 2^e in half-turns: the whole number below it, and the rest over 2^128 rounded down and up. -/
def halfTurns (m : Nat) (e : Int) : Nat × Nat × Nat :=
  let (n, a, b) := splitFloor m e
  (n.toNat, a, b)

/-- The result of an approximate function for a finite argument that is no special input of R260, with its flags. The
argument's sign is handled by the callers' symmetries (R259). -/
def approxFinite (g : Approx) (t : FTy) (fout neg : Bool) (m : Nat) (e : Int) (bits : Nat) : Nat × Word :=
  let f := ftyFmt t
  let sign := 2 ^ (f.ebits + f.mbits)
  let signed (n : Bool) (r : Nat × Word) : Nat × Word :=
    (if n then (if sign ≤ r.1 then r.1 - sign else r.1 + sign) else r.1, r.2)
  let exact (x : Num) : Nat × Word := ((roundFloat f .rne false false x).1, 0)
  let l := floorLog m e
  let pow2 : Bool := m == 2 ^ Nat.log2 m
  let magBits := bits % 2 ^ (f.ebits + f.mbits)
  match g with
  | .rsq =>
    if pow2 && l % 2 == 0 && decide (1 - (f.bias : Int) ≤ -(l / 2)) then exact (.fin false 1 (-(l / 2)))
    else deliver f (boundOf g t false) fout (encRsqrt m e) (Config.approx g.number t bits)
  | .exp2 =>
    let (n, a, b) := splitFloor (if neg then -(m : Int) else m) (max e (-400))
    let e' := max e (-400)
    if a = 0 ∧ b = 0 ∧ e = e' ∧ 1 - (f.bias : Int) ≤ n ∧ n ≤ f.bias then exact (.fin false 1 n)
    else if (20 : Int) ≤ l then
      (if neg then deliver f (boundOf g t false) fout encTiny (Config.approx g.number t bits)
        else (f.infCode false, wOVF ||| wINX))
    else deliver f (boundOf g t false) fout (encExp2 (if neg then -(m : Int) else m) e) (Config.approx g.number t bits)
  | .log2 =>
    if pow2 then exact (ofScaled false l 0)
    else
      let x := encLog2 m e
      let near1 : Bool := l == -1 || l == 0
      if x.hi ≤ 0 then signed true (deliver f (boundOf g t near1) fout ⟨-x.hi, -x.lo, x.e⟩ (Config.approx g.number t bits))
      else deliver f (boundOf g t near1) fout x (Config.approx g.number t bits)
  | .sin =>
    let (n, a, b) := halfTurns m e
    let half := 2 ^ (fxBits - 1)
    if a = 0 ∧ b = 0 then exact (.fin neg 0 0)
    else if a = half ∧ b = half then signed ((n % 2 == 1) != neg) (exact (.fin false 1 0))
    else
      let x := if a < half then encSin a b else encSin (2 ^ fxBits - b) (2 ^ fxBits - a)
      signed ((n % 2 == 1) != neg) (deliver f (boundOf g t false) fout x (Config.approx g.number t magBits))
  | .cos =>
    let (n, a, b) := halfTurns m e
    let half := 2 ^ (fxBits - 1)
    if a = 0 ∧ b = 0 then signed (n % 2 == 1) (exact (.fin false 1 0))
    else if a = half ∧ b = half then exact (.fin false 0 0)
    else
      let x := if a < half then encSin (half - b) (half - a) else encSin (a - half) (b - half)
      signed ((n % 2 == 1) != !(decide (a < half)))
        (deliver f (boundOf g t false) fout x (Config.approx g.number t magBits))
  | .tanh =>
    if dyadicLe 9 0 m e then signed neg ((exact (.fin false 1 0)).1, wINX)
    else signed neg (deliver f (boundOf g t false) fout (encTanh m e) (Config.approx g.number t magBits))

/-- An approximate function of an element (R259, R260). -/
def approxElem (g : Approx) (t : FTy) (mode : Word) (bits : Nat) : Nat × Word :=
  let f := ftyFmt t
  let env := FEnv.ofMode mode
  let nanR : Nat := f.nanCode false
  match flushIn (ftyCvt t) env.fin ((ftyCvt t).unpack bits) with
  | .nan s _ => (nanR, when s wINV)
  | .inf neg =>
    match g with
    | .rsq => if neg then (nanR, wINV) else (f.code false 0 0, 0)
    | .exp2 => (if neg then f.code false 0 0 else f.infCode false, 0)
    | .log2 => if neg then (nanR, wINV) else (f.infCode false, 0)
    | .sin | .cos => (nanR, wINV)
    | .tanh => (f.code neg f.bias 0, 0)
  | .fin neg m e =>
    if m = 0 then
      match g with
      | .rsq => (f.infCode neg, wDZ)
      | .exp2 | .cos => (f.code false f.bias 0, 0)
      | .log2 => (f.infCode true, wDZ)
      | .sin | .tanh => (f.code neg 0 0, 0)
    else if neg && (g == .rsq || g == .log2) then (nanR, wINV)
    else approxFinite g t env.fout neg m e bits

/-- exp2s(v · 2^e) of R261: exact for an integer with a normal result, otherwise within the FP32 bound of vexp2. -/
def exp2s (v e : Int) (choice : Nat) : Nat × Word :=
  let (n, a, b) := splitFloor v e
  if a = 0 ∧ b = 0 ∧ -126 ≤ n ∧ n ≤ 127 then (fmtFp32.code false (n + 127).toNat 0, 0)
  else if n < -2000 then deliver fmtFp32 ⟨1, none⟩ false encTiny choice
  else if 2000 < n then (fmtFp32.infCode false, wOVF ||| wINX)
  else deliver fmtFp32 ⟨1, none⟩ false (encExp2 v e) choice

end Sys2Proof
end

