-- ==== Sys2Proof/Machine/VecFloat.lean ====
section
/-!
DEFINITION. The vector floating-point, conversion and special-function instructions of majors 0x20 to 0x24 (R242 to
R263). Each element is computed independently; only the lanes in ACTIVE are written; the flags of all elements are ORed
into warn.
-/

namespace Sys2Proof.Machine

open Sys2Proof

/-! ## Element layout (R242, R243) -/

/-- What a lane holds of a vector operand: its register, or its pair. -/
def Party.laneV (q : Party) (wide : Bool) (n l : Nat) : Nat :=
  if wide then (q.pairV n l).toNat else (q.getV n l).toNat

/-- Writes a lane's register or pair. -/
def Party.setLaneV (q : Party) (wide : Bool) (n : Nat) (m : Mask) (f : Nat → Nat) : Party :=
  if wide then q.setPairV n m fun l => BitVec.ofNat 64 (f l) else q.setV n m fun l => BitVec.ofNat 32 (f l)

/-- A B literal of major 0x21 widened from FP32 (R243): infinities stay, a NaN keeps its sign and its mantissa bits. -/
def widenLit (w : Word) : Nat :=
  match fmtFp32.unpack w.toNat with
  | .fin neg m e => (roundFloat fmtFp64 .rne false false (.fin neg m e)).1
  | x => fmtFp64.code x.neg 2047 (w.toNat % 2 ^ 23 * 2 ^ 29)

/-- B(L) of a floating-point operand. -/
def Party.bF (q : Party) (wide : Bool) (b : BOp) (l : Nat) : Nat :=
  match b with
  | .reg r => if wide then (q.pairB r.toNat l).toNat else (q.getB r.toNat l).toNat
  | .lit w => if wide then widenLit w else w.toNat

/-- An operation on elements: the element of VD as read, the elements of VA and B; the result and its flags. -/
abbrev FElem := Nat → Nat → Nat → Nat × Word

/-- The elements of one lane under an operation (R242). -/
def floatLane (t : FTy) (f : FElem) (d a b : Nat) : Nat × Word :=
  match t with
  | .f32 | .f64 => f d a b
  | _ =>
    let h := 2 ^ 16
    let lo := f (d % h) (a % h) (b % h)
    let hi := f (d / h) (a / h) (b / h)
    (lo.1 + h * hi.1, lo.2 ||| hi.2)

/-- The flags of every active lane. -/
def flagsOf (m : Mask) (f : Nat → Word) : Word := (maskLanes m).foldl (fun w l => w ||| f l) 0

/-- Writes each active lane's result and raises the flags of all. -/
def Party.setFloat (q : Party) (wide : Bool) (n : Nat) (m : Mask) (f : Nat → Nat × Word) : Party :=
  (q.setLaneV wide n m fun l => (f l).1).raise (flagsOf m fun l => (f l).2)

/-- Mode of the issuing slot. -/
def Party.mode (q : Party) (sl : Bool) : Word := (q.slot sl).mode

/-- MODERES of an instruction that rounds (R244). -/
def Party.modeRes (q : Party) (sl : Bool) : Word :=
  when (rndReserved (q.mode sl) && q.active sl != 0) wMODERES

/-- A two-source form: the operation is given the mode. -/
def vecFloat (f : FTy → Word → FElem) (rounds : Bool) (t : FTy) (d a : VReg) (b : BOp) (sl : Bool) (q : Party) : Party :=
  let wide := t == .f64
  (q.setFloat wide d.toNat (q.active sl) fun l =>
    floatLane t (f t (q.mode sl)) (q.laneV wide d.toNat l) (q.laneV wide a.toNat l) (q.bF wide b l)).raise
    (if rounds then q.modeRes sl else 0)

/-- An element's number after input flushing under a mode. -/
def inF (t : FTy) (mode : Word) (x : Nat) : Num := flushIn (ftyCvt t) (FEnv.ofMode mode).fin ((ftyCvt t).unpack x)

/-- A number rounded under R244 and the first row of R95, beside the flags of computing it. -/
def outF (t : FTy) (mode : Word) (r : Num × Word) : Nat × Word :=
  let (y, g) := roundTo (ftyCvt t) (FEnv.ofMode mode) false r.1
  (y, r.2 ||| g)

/-- RND = RDN, under which an exact zero sum is −0 (R246). -/
def rndDown (mode : Word) : Bool := rndOf mode == .rdn

/-! ## Arithmetic (R246, R247) -/

def elemFadd (t : FTy) (mode : Word) : FElem := fun _ a b => outF t mode (addNum (rndDown mode) (inF t mode a) (inF t mode b))
def elemFsub (t : FTy) (mode : Word) : FElem := fun _ a b =>
  outF t mode (addNum (rndDown mode) (inF t mode a) (inF t mode b).negate)
def elemFmul (t : FTy) (mode : Word) : FElem := fun _ a b => outF t mode (mulNum (inF t mode a) (inF t mode b))
def elemFma (t : FTy) (mode : Word) : FElem := fun d a b =>
  outF t mode (fmaNum (rndDown mode) (inF t mode a) (inF t mode b) (inF t mode d))
def elemFms (t : FTy) (mode : Word) : FElem := fun d a b =>
  outF t mode (fmaNum (rndDown mode) (inF t mode a) (inF t mode b) (inF t mode d).negate)

/-- The bits of an element after input flushing. -/
def flushBits (t : FTy) (mode : Word) (x : Nat) : Nat :=
  match (ftyCvt t).unpack x, inF t mode x with
  | .fin _ m _, .fin neg k _ => if m ≠ 0 ∧ k = 0 then (ftyFmt t).code neg 0 0 else x
  | _, _ => x

def elemFminMax (larger : Bool) (t : FTy) (mode : Word) : FElem := fun _ a b =>
  minMax (ftyFmt t) larger (flushBits t mode a, inF t mode a) (flushBits t mode b, inF t mode b)

def execVfadd (t : FTy) (d a : VReg) (b : BOp) (s : State) := runRegs (.vfadd t d a b) s (vecFloat elemFadd true t d a b)
def execVfsub (t : FTy) (d a : VReg) (b : BOp) (s : State) := runRegs (.vfsub t d a b) s (vecFloat elemFsub true t d a b)
def execVfmul (t : FTy) (d a : VReg) (b : BOp) (s : State) := runRegs (.vfmul t d a b) s (vecFloat elemFmul true t d a b)
def execVfma (t : FTy) (d a : VReg) (b : BOp) (s : State) := runRegs (.vfma t d a b) s (vecFloat elemFma true t d a b)
def execVfms (t : FTy) (d a : VReg) (b : BOp) (s : State) := runRegs (.vfms t d a b) s (vecFloat elemFms true t d a b)
def execVfmin (t : FTy) (d a : VReg) (b : BOp) (s : State) :=
  runRegs (.vfmin t d a b) s (vecFloat (elemFminMax false) false t d a b)
def execVfmax (t : FTy) (d a : VReg) (b : BOp) (s : State) :=
  runRegs (.vfmax t d a b) s (vecFloat (elemFminMax true) false t d a b)

/-! ## Compare, exponent, scale, classify (R248 to R251) -/

/-- A condition of vfcmp on two numbers: the bit and the flags (R248). -/
def fHolds (c : FCond) (a b : Num) : Bool × Word :=
  let nan := a.isNan || b.isNan
  let o := cmpNum a b
  let sig := sigFlag [a, b]
  match c with
  | .eq => (!nan && o == .eq, sig)
  | .ne => (nan || o != .eq, sig)
  | .lt => (!nan && o == .lt, when nan wINV)
  | .le => (!nan && o != .gt, when nan wINV)
  | .gt => (!nan && o == .gt, when nan wINV)
  | .ge => (!nan && o != .lt, when nan wINV)
  | .un => (nan, sig)
  | .ord => (!nan, sig)

/-- A lane's bit of vfcmp, as 1 in every element that meets the condition, and its flags. -/
def elemFcmp (c : FCond) (t : FTy) (mode : Word) : FElem := fun _ a b =>
  let r := fHolds c (inF t mode a) (inF t mode b)
  (if r.1 then 1 else 0, r.2)

/-- A lane's bit is 1 only when every element of the lane meets the condition (R248). -/
def laneHolds (t : FTy) (x : Nat) : Bool :=
  match t with
  | .f32 | .f64 => x == 1
  | _ => x == 65537

/-- vfcmp writes the triple as vcmp does (R232): a 0 for each lane outside ACTIVE. -/
def vecFcmp (t : FTy) (c : FCond) (s : SReg) (a : VReg) (b : BOp) (sl : Bool) (q : Party) : Party :=
  let wide := t == .f64
  let r (l : Nat) := floatLane t (elemFcmp c t (q.mode sl)) 0 (q.laneV wide a.toNat l) (q.bF wide b l)
  (q.setTriple sl s.toNat (laneMask (q.active sl) fun l => laneHolds t (r l).1)).raise
    (flagsOf (q.active sl) fun l => (r l).2)

def execVfcmp (t : FTy) (c : FCond) (s : SReg) (a : VReg) (b : BOp) (st : State) : Host.Outcome State Fault Refusal :=
  runRegs (.vfcmp t c s a b) st (vecFcmp t c s a b)

/-- The width of an element (R242). -/
def ftyWidth (t : FTy) : Nat := (ftyCvt t).width

/-- vfexp (R249). -/
def elemFexp (t : FTy) (mode : Word) : FElem := fun _ a _ =>
  let w := ftyWidth t
  match inF t mode a with
  | .nan s _ => (2 ^ (w - 1) - 1, when s wINV)
  | .inf _ => (2 ^ (w - 1) - 1, 0)
  | .fin _ m e => if m = 0 then (2 ^ (w - 1), wDZ) else (intBits w (floorLog m e), 0)

def execVfexp (t : FTy) (d a : VReg) (s : State) : Host.Outcome State Fault Refusal :=
  runRegs (.vfexp t d a) s (vecFloat elemFexp false t d a (.lit 0))

/-- vfscl (R250). A scale beyond ±4096 overflows or vanishes as ±4096 does. -/
def elemFscl (t : FTy) (mode : Word) : FElem := fun _ a b =>
  let n := max (-4096) (min 4096 (sextNat (ftyWidth t) b))
  match inF t mode a with
  | .nan s _ => (((ftyFmt t).nanCode false), when s wINV)
  | .inf neg => ((ftyFmt t).infCode neg, 0)
  | .fin neg m e => outF t mode (.fin neg m (e + n), 0)

/-- B of vfscl: a literal of major 0x21 is a sign-extended integer (R243). -/
def sclB (t : FTy) (q : Party) (b : BOp) (l : Nat) : Nat :=
  match b with
  | .reg _ => q.bF (t == .f64) b l
  | .lit w => if t = .f64 then (w.signExtend 64).toNat else w.toNat

def vecFscl (t : FTy) (d a : VReg) (b : BOp) (sl : Bool) (q : Party) : Party :=
  (q.setFloat (t == .f64) d.toNat (q.active sl) fun l =>
    floatLane t (elemFscl t (q.mode sl)) 0 (q.laneV (t == .f64) a.toNat l) (sclB t q b l)).raise (q.modeRes sl)

def execVfscl (t : FTy) (d a : VReg) (b : BOp) (s : State) : Host.Outcome State Fault Refusal :=
  runRegs (.vfscl t d a b) s (vecFscl t d a b)

/-- vfclass (R251): the class of the stored bits. -/
def elemFclass (t : FTy) (_ : Word) : FElem := fun _ a _ =>
  match (ftyCvt t).unpack a with
  | .nan s _ => (if s then 0x100 else 0x200, 0)
  | .inf neg => (if neg then 0x001 else 0x080, 0)
  | .fin neg m e =>
    if m = 0 then (if neg then 0x008 else 0x010, 0)
    else if floorLog m e < 1 - ((ftyFmt t).bias : Int) then (if neg then 0x004 else 0x020, 0)
    else (if neg then 0x002 else 0x040, 0)

def execVfclass (t : FTy) (d a : VReg) (s : State) : Host.Outcome State Fault Refusal :=
  runRegs (.vfclass t d a) s (vecFloat elemFclass false t d a (.lit 0))

/-! ## vf2sum (R252) -/

/-- The rounded sum, its exact error, and the flags. -/
def twoSum (f : FloatFmt) (a b : Nat) : (Nat × Nat) × Word :=
  let (x, g) := addNum false (f.unpack a) (f.unpack b)
  let (hi, g') := roundFloat f .rne false false x
  let lo :=
    match x, f.unpack hi with
    | .fin .., .fin .. => (roundFloat f .rne false false (addNum false x (f.unpack hi).negate).1).1
    | _, _ => 0
  ((hi, if f.unpack lo = .fin true 0 (1 - (f.bias : Int) - f.mbits) then 0 else lo), g ||| g')

def vecF2sum (wide : Bool) (d a : VReg) (b : BOp) (sl : Bool) (q : Party) : Party :=
  let f := if wide then fmtFp64 else fmtFp32
  let r (l : Nat) := twoSum f (q.laneV wide a.toNat l) (q.bF wide b l)
  let m := q.active sl
  ((q.setLaneV wide d.toNat m fun l => (r l).1.1).setLaneV wide (d.toNat + if wide then 2 else 1) m
    fun l => (r l).1.2).raise (flagsOf m fun l => (r l).2)

def execVf2sum (wide : Bool) (d a : VReg) (b : BOp) (s : State) : Host.Outcome State Fault Refusal :=
  runRegs (.vf2sum wide d a b) s (vecF2sum wide d a b)

/-! ## vfrnd (R253) -/

/-- An element rounded to an integral value, with its flags. -/
def frnd (t : FTy) (mode : Word) (r : Rnd) (x : Nat) : Nat × Word :=
  match inF t mode x with
  | .nan s _ => ((ftyFmt t).nanCode false, when s wINV)
  | .inf neg => ((ftyFmt t).infCode neg, 0)
  | .fin neg m e =>
    let (k, exact) := if 0 ≤ e then (m, true) else roundAt r neg m e 0
    ((roundFloat (ftyFmt t) .rne false false (.fin neg k (if 0 ≤ e then e else 0))).1, when (!exact) wINX)

/-- The elements of a lane under vfrnd, and the lane's seed after them: it advances once for each element when RND
selects stochastic rounding. -/
def frndLane (t : FTy) (mode : Word) (x : Nat) (seed : Word) : (Nat × Word) × Word :=
  if rndIsSr mode then
    let s1 := advanceSeed seed
    match t with
    | .f32 | .f64 => (frnd t mode (.sr (drawOf s1)) x, s1)
    | _ =>
      let s2 := advanceSeed s1
      let lo := frnd t mode (.sr (drawOf s1)) (x % 2 ^ 16)
      let hi := frnd t mode (.sr (drawOf s2)) (x / 2 ^ 16)
      ((lo.1 + 2 ^ 16 * hi.1, lo.2 ||| hi.2), s2)
  else (floatLane t (fun _ a _ => frnd t mode (rndOf mode) a) 0 x 0, seed)

def vecFrnd (t : FTy) (d a seed : VReg) (sl : Bool) (q : Party) : Party :=
  let wide := t == .f64
  let m := q.active sl
  let r (l : Nat) := frndLane t (q.mode sl) (q.laneV wide a.toNat l) (q.getV seed.toNat l)
  let q' := (q.setFloat wide d.toNat m fun l => (r l).1).raise (q.modeRes sl)
  if rndIsSr (q.mode sl) then q'.setV seed.toNat m fun l => (r l).2 else q'

def execVfrnd (t : FTy) (d a seed : VReg) (s : State) : Host.Outcome State Fault Refusal :=
  runRegs (.vfrnd t d a seed) s (vecFrnd t d a seed)

/-! ## Conversions (R254 to R257) -/

/-- A lane's destination under R256: signed narrow integers are sign-extended. -/
def spread (c : Cvt) (y : Nat) : Nat :=
  match c with
  | .i16 | .int8 | .int4 => intBits 32 (sextNat c.width y)
  | _ => y

/-- vfcvt of one element with the lane's rounding. -/
def cvtElem (df sf : Cvt) (sat : Bool) (mode : Word) (r : Rnd) (x : Nat) : Nat × Word :=
  let (y, f) := convert sf df { FEnv.ofMode mode with rnd := r } sat x
  (spread df y, f)

def vecFcvt (d a : VReg) (df sf : Cvt) (sat : Bool) (sl : Bool) (q : Party) : Party :=
  (q.setFloat df.wide d.toNat (q.active sl) fun l =>
    cvtElem df sf sat (q.mode sl) (rndOf (q.mode sl)) (q.laneV sf.wide a.toNat l)).raise (q.modeRes sl)

def execVfcvt (d a : VReg) (df sf : Cvt) (sat : Bool) (s : State) : Host.Outcome State Fault Refusal :=
  runRegs (.vfcvt d a df sf sat) s (vecFcvt d a df sf sat)

/-- vfcvt with a seed register: it advances once per active lane when RND selects stochastic rounding. -/
def vecFcvtSr (d a : VReg) (df sf : Cvt) (sat : Bool) (seed : VReg) (sl : Bool) (q : Party) : Party :=
  if rndIsSr (q.mode sl) then
    let m := q.active sl
    let s1 (l : Nat) := advanceSeed (q.getV seed.toNat l)
    (q.setFloat df.wide d.toNat m fun l =>
      cvtElem df sf sat (q.mode sl) (.sr (drawOf (s1 l))) (q.laneV sf.wide a.toNat l)).setV seed.toNat m s1
  else vecFcvt d a df sf sat sl q

def execVfcvtSr (d a : VReg) (df sf : Cvt) (sat : Bool) (seed : VReg) (s : State) : Host.Outcome State Fault Refusal :=
  runRegs (.vfcvtSr d a df sf sat seed) s (vecFcvtSr d a df sf sat seed)

/-! ## Special functions (R258 to R260) -/

/-- vrcp, correctly rounded. -/
def elemRcp (t : FTy) (mode : Word) : FElem := fun _ a _ =>
  match inF t mode a with
  | .nan s _ => ((ftyFmt t).nanCode false, when s wINV)
  | .inf neg => ((ftyFmt t).code neg 0 0, 0)
  | .fin neg m e => if m = 0 then ((ftyFmt t).infCode neg, wDZ) else outF t mode (recipNum neg m e, 0)

/-- vsqrt, correctly rounded. -/
def elemSqrt (t : FTy) (mode : Word) : FElem := fun _ a _ =>
  match inF t mode a with
  | .nan s _ => ((ftyFmt t).nanCode false, when s wINV)
  | .inf neg => if neg then ((ftyFmt t).nanCode false, wINV) else ((ftyFmt t).infCode false, 0)
  | .fin neg m e =>
    if m = 0 then ((ftyFmt t).code neg 0 0, 0)
    else if neg then ((ftyFmt t).nanCode false, wINV)
    else outF t mode (sqrtNum m e, 0)

/-- An approximate function of each element. -/
def vecApprox (g : Approx) (t : FTy) (d a : VReg) (sl : Bool) (q : Party) : Party :=
  vecFloat (fun t mode _ x _ => approxElem g t mode x) false t d a (.lit 0) sl q

def execVrcp (t : FTy) (d a : VReg) (s : State) := runRegs (.vrcp t d a) s (vecFloat elemRcp true t d a (.lit 0))
def execVsqrt (t : FTy) (d a : VReg) (s : State) := runRegs (.vsqrt t d a) s (vecFloat elemSqrt true t d a (.lit 0))
def execVrsq (t : FTy) (d a : VReg) (s : State) := runRegs (.vrsq t d a) s (vecApprox .rsq t d a)
def execVexp2 (t : FTy) (d a : VReg) (s : State) := runRegs (.vexp2 t d a) s (vecApprox .exp2 t d a)
def execVlog2 (t : FTy) (d a : VReg) (s : State) := runRegs (.vlog2 t d a) s (vecApprox .log2 t d a)
def execVsin (t : FTy) (d a : VReg) (s : State) := runRegs (.vsin t d a) s (vecApprox .sin t d a)
def execVcos (t : FTy) (d a : VReg) (s : State) := runRegs (.vcos t d a) s (vecApprox .cos t d a)
def execVtanh (t : FTy) (d a : VReg) (s : State) := runRegs (.vtanh t d a) s (vecApprox .tanh t d a)

/-! ## Online softmax (R261) -/

/-- exp2s of the exact difference x − y of two numbers, y finite or infinite. -/
def exp2sDiff (x y : Num) (choice : Nat) : Nat × Word :=
  match x, y with
  | .fin .., .fin .. =>
    let e := min x.exp y.exp
    exp2s (scaled e x - scaled e y) e choice
  | _, _ => (0, 0)

def fp32Nan : Nat := 0x7FC00000

/-- One lane of vosmx: m', l', r and the flags. -/
def osmx (m l x choice : Nat) : (Nat × Nat × Nat) × Word :=
  let f := fmtFp32
  let (nm, nl, nx) := (f.unpack m, f.unpack l, f.unpack x)
  if nm.isNan || nl.isNan || nx.isNan then ((fp32Nan, fp32Nan, fp32Nan), sigFlag [nm, nl, nx])
  else
    let m' := (minMax f true (m, nm) (x, nx)).1
    let nm' := f.unpack m'
    let (r, g) : Nat × Word :=
      if cmpNum nm' nm = .eq then (0x3F800000, 0)
      else if nm = .inf true then (0, 0)
      else exp2sDiff nm nm' choice
    let (p, h) := mulNum nl (f.unpack r)
    let (l', h') := roundFloat f .rne false false p
    ((m', l', r), g ||| h ||| h')

/-- One lane of vosms: l' and the flags. -/
def osms (m l x choice : Nat) : Nat × Word :=
  let f := fmtFp32
  let (nm, nl, nx) := (f.unpack m, f.unpack l, f.unpack x)
  if nm.isNan || nl.isNan || nx.isNan then (fp32Nan, sigFlag [nm, nl, nx])
  else
    let (t, g) : Nat × Word :=
      if cmpNum nx nm = .eq then (0x3F800000, 0)
      else if nx = .inf true ∨ nm = .inf false then (0, 0)
      else if nm = .inf true ∨ nx = .inf false then (0x7F800000, 0)
      else exp2sDiff nx nm choice
    let (p, h) := addNum false nl (f.unpack t)
    let (l', h') := roundFloat f .rne false false p
    (l', g ||| h ||| h')

/-- vosmx with the choices of one use. -/
def vecOsmx (choice : Nat → Nat) (d a b : VReg) (sl : Bool) (q : Party) : Party :=
  let m := q.active sl
  let r (l : Nat) := osmx (q.getV d.toNat l).toNat (q.getV (d.toNat + 1) l).toNat (q.getV a.toNat l).toNat (choice l)
  let w (x : Nat) : Word := BitVec.ofNat 32 x
  (((q.setV d.toNat m fun l => w (r l).1.1).setV (d.toNat + 1) m fun l => w (r l).1.2.1).setV b.toNat m
    fun l => w (r l).1.2.2).raise (flagsOf m fun l => (r l).2)

/-- vosms with the choices of one use. -/
def vecOsms (choice : Nat → Nat) (d a : VReg) (sl : Bool) (q : Party) : Party :=
  let m := q.active sl
  let r (l : Nat) := osms (q.getV d.toNat l).toNat (q.getV (d.toNat + 1) l).toNat (q.getV a.toNat l).toNat (choice l)
  (q.setV (d.toNat + 1) m fun l => BitVec.ofNat 32 (r l).1).raise (flagsOf m fun l => (r l).2)

def execVosmx (d a b : VReg) (s : State) : Host.Outcome State Fault Refusal :=
  runParty (.vosmx d a b) s fun w s =>
    .done (s.useFree.modParty w.tid w.p (vecOsmx (Config.exp2sChoice s.free) d a b w.sl))

def execVosms (d a : VReg) (s : State) : Host.Outcome State Fault Refusal :=
  runParty (.vosms d a) s fun w s =>
    .done (s.useFree.modParty w.tid w.p (vecOsms (Config.exp2sChoice s.free) d a w.sl))

end Sys2Proof.Machine
end

