-- ==== Sys2Proof/Machine/Ssu.lean ====
section
/-!
DEFINITION. The sparse stream unit (R120 to R125, R210 to R214, R467, R469, R470): ssint, ssmerge, ssscan, spx.
-/

namespace Sys2Proof.Machine

open Sys2Proof

/-! ## The stream block (R211) -/

def SsuCmd.aidx (c : SsuCmd) : Nat := bytesAt c.block 0 8
def SsuCmd.aval (c : SsuCmd) : Nat := bytesAt c.block 8 8
def SsuCmd.bidx (c : SsuCmd) : Nat := bytesAt c.block 16 8
def SsuCmd.bval (c : SsuCmd) : Nat := bytesAt c.block 24 8
def SsuCmd.oidx (c : SsuCmd) : Nat := bytesAt c.block 32 8
def SsuCmd.oval (c : SsuCmd) : Nat := bytesAt c.block 40 8
def SsuCmd.ocap (c : SsuCmd) : Nat := bytesAt c.block 48 4

/-- BADBLOCK (R211): a nonzero reserved byte, a length that no stream has, a used address that is not aligned. -/
def SsuCmd.badStream (c : SsuCmd) : Bool :=
  let lens := match c.kind with | .scan => [c.len0] | _ => [c.len0, c.len1]
  let addrs :=
    match c.kind with
    | .int .cnt => [c.aidx, c.bidx]
    | .int _ => [c.aidx, c.bidx, c.oidx]
    | .scan => [c.aidx, c.oidx]
    | _ => [c.aidx, c.aval, c.bidx, c.bval, c.oidx, c.oval]
  bytesAt c.block 52 12 != 0 || lens.any (fun l => decide (16777215 < l.toNat)) || addrs.any fun a => a % 4 != 0

/-! ## Output of a command -/

/-- What a command has produced so far: index entries and value entries with their poison, the number of entries, the
code at which it stopped, a fault, whether a poisoned unit was read, warn bits. -/
structure SsuOut where
  idx : List (Nat × Bool)
  val : List (Nat × Bool)
  n : Nat
  code : Nat
  fault : Option Cause
  poison : Bool
  warn : Word
deriving DecidableEq, Repr

def SsuOut.empty : SsuOut := { idx := [], val := [], n := 0, code := 0, fault := none, poison := false, warn := 0 }

/-- CODE of the status word (R120). -/
def codeUnsorted : Nat := 1
def codeFull : Nat := 2
def codeBad : Nat := 3
def codeWrap : Nat := 4

/-- A fault names the element, of some size in a run from an address on, whose byte has met it (R467). -/
def Cause.element (c : Cause) (a size : Nat) : Cause :=
  { c with addr := c.addr.map fun x => (a + (x + 2 ^ 57 - a % 2 ^ 57) % 2 ^ 57 / size * size) % 2 ^ 57 }

/-- A word of memory that a command reads, and whether it is poisoned. -/
def State.ssuWord (s : State) (tid a n : Nat) : State × Except Cause (Nat × Bool) :=
  match s.locRead tid 0 a n with
  | (s, .error c) => (s, .error (c.element a n))
  | (s, .ok (bs, p)) => (s, .ok (ofBytes bs, p))

/-- An element that a stream stands at; none when it is exhausted. -/
abbrev Elem := Option (Nat × Bool)

/-- Advances a stream onto element i (R121): the element and whether it is out of order. -/
def State.advanceTo (s : State) (tid base len i : Nat) (prev : Option Nat) : State × Except Cause (Elem × Bool) :=
  if len ≤ i then (s, .ok (none, false))
  else
    match s.ssuWord tid (base + 4 * i) 4 with
    | (s, .error c) => (s, .error c)
    | (s, .ok (x, p)) => (s, .ok (some (x, p), match prev with | some y => decide (x ≤ y) | none => false))

/-- Where a command stands in its two streams. -/
structure Cursor where
  i : Nat
  j : Nat
  a : Elem
  b : Elem
  /-- An element met was out of order. -/
  unsorted : Bool
deriving DecidableEq, Repr

/-- Advances the streams that a step has consumed from. -/
def State.advanceBoth (s : State) (tid : Nat) (c : SsuCmd) (k : Cursor) (a b : Bool) :
    State × Except Cause (Cursor × Bool) :=
  match (if a then s.advanceTo tid c.aidx c.len0.toNat (k.i + 1) (k.a.map Prod.fst) else (s, .ok (k.a, false))) with
  | (s, .error e) => (s, .error e)
  | (s, .ok (x, u)) =>
    match (if b then s.advanceTo tid c.bidx c.len1.toNat (k.j + 1) (k.b.map Prod.fst) else (s, .ok (k.b, false))) with
    | (s, .error e) => (s, .error e)
    | (s, .ok (y, v)) =>
      (s, .ok ({ i := if a then k.i + 1 else k.i, j := if b then k.j + 1 else k.j, a := x, b := y, unsorted := u || v },
        (match x with | some e => a && e.2 | none => false) || match y with | some e => b && e.2 | none => false))

/-- Both streams at their first element. DESIGN CHOICE: a command whose one stream is empty advances the other onto its first
element all the same, and so reads it (log entry 71). -/
def State.cursor (s : State) (tid : Nat) (c : SsuCmd) : State × Except Cause (Cursor × Bool) :=
  match s.advanceTo tid c.aidx c.len0.toNat 0 none with
  | (s, .error e) => (s, .error e)
  | (s, .ok (x, _)) =>
    match s.advanceTo tid c.bidx c.len1.toNat 0 none with
    | (s, .error e) => (s, .error e)
    | (s, .ok (y, _)) =>
      (s, .ok ({ i := 0, j := 0, a := x, b := y, unsorted := false }, x.any Prod.snd || y.any Prod.snd))

/-! ## ssint (R121, R122, R212) -/

/-- The steps of ssint, until a stream is exhausted or the command stops. -/
def State.intersect (s : State) (tid : Nat) (c : SsuCmd) (f : IntForm) (k : Cursor) (o : SsuOut) (fuel : Nat) :
    State × SsuOut :=
  match fuel, k.a, k.b with
  | n + 1, some (x, p), some (y, q) =>
    let go (s : State) (o : SsuOut) (a b : Bool) : State × SsuOut :=
      match s.advanceBoth tid c k a b with
      | (s, .error e) => (s, { o with fault := some e })
      | (s, .ok (k, bad)) =>
        let o := { o with poison := o.poison || bad }
        if k.unsorted then (s, { o with code := codeUnsorted }) else s.intersect tid c f k o n
    if x = y then
      if f ≠ .cnt ∧ o.n = c.ocap then (s, { o with code := codeFull })
      else
        let o := { o with
          n := o.n + 1
          idx := match f with
            | .cnt => o.idx
            | .idx => (x, p || q) :: o.idx
            | .pos => (k.j, p || q) :: (k.i, p || q) :: o.idx }
        go s o true true
    else go s o (decide (x < y)) (decide (y < x))
  | _, _, _ => (s, o)

/-! ## ssmerge (R121 to R123, R470) -/

/-- Input flushing, the operation, and for a sum whether the result is a zero: the combination of two values of a
format with its warn bits. -/
def combFloat (t : FTy) (cb : Comb) (rnd sub a b : Nat) : Nat × Word :=
  let mode : Word := BitVec.ofNat 32 (rnd + 16 * sub)
  match cb with
  | .add =>
    let (n, f) := addNum (rnd == 3) (inF t mode a) (inF t mode b)
    let (y, g) := roundTo (ftyCvt t) (FEnv.ofMode mode) false n
    (y, f ||| g ||| when (rndReserved mode) wMODERES)
  | .max => minMax (ftyFmt t) true (flushBits t mode a, inF t mode a) (flushBits t mode b, inF t mode b)
  | .min => minMax (ftyFmt t) false (flushBits t mode a, inF t mode a) (flushBits t mode b, inF t mode b)

/-- The combination of two INT32 values. -/
def combInt (cb : Comb) (a b : Nat) : Nat :=
  let x : Word := BitVec.ofNat 32 a
  let y : Word := BitVec.ofNat 32 b
  (match cb with
    | .add => x + y
    | .max => if x.slt y then y else x
    | .min => if y.slt x then y else x).toNat

/-- The steps of ssmerge, until both streams are exhausted or the command stops. -/
def State.merge (s : State) (tid : Nat) (c : SsuCmd) (isInt keepz : Bool) (cb : Comb) (k : Cursor) (o : SsuOut)
    (fuel : Nat) : State × SsuOut :=
  match fuel with
  | 0 => (s, o)
  | n + 1 =>
    let useA : Bool := match k.a, k.b with | some x, some y => decide (x.1 ≤ y.1) | some _, none => true | _, _ => false
    let useB : Bool := match k.a, k.b with | some x, some y => decide (y.1 ≤ x.1) | none, some _ => true | _, _ => false
    if !useA && !useB then (s, o)
    else
      match (if useA then s.ssuWord tid (c.aval + 4 * k.i) 4 else (s, .ok (0, false))) with
      | (s, .error e) => (s, { o with fault := some e })
      | (s, .ok (va, pa)) =>
        match (if useB then s.ssuWord tid (c.bval + 4 * k.j) 4 else (s, .ok (0, false))) with
        | (s, .error e) => (s, { o with fault := some e })
        | (s, .ok (vb, pb)) =>
          let both := useA && useB
          let (v, w) :=
            if both then (if isInt then (combInt cb va vb, 0) else combFloat .f32 cb c.rnd c.sub va vb)
            else (if useA then va else vb, 0)
          let zero : Bool := if isInt then v == 0 else v % 2 ^ 31 == 0
          let drop : Bool := both && cb == .add && zero && !keepz
          let x := if useA then (k.a.getD (0, false)).1 else (k.b.getD (0, false)).1
          let p := pa || pb || (useA && (k.a.getD (0, false)).2) || (useB && (k.b.getD (0, false)).2)
          if !drop ∧ o.n = c.ocap then (s, { o with code := codeFull })
          else
            let o := { o with warn := o.warn ||| w, poison := o.poison || p }
            let o := if drop then o else { o with n := o.n + 1, idx := (x, p) :: o.idx, val := (v, p) :: o.val }
            match s.advanceBoth tid c k useA useB with
            | (s, .error e) => (s, { o with fault := some e })
            | (s, .ok (k, bad)) =>
              let o := { o with poison := o.poison || bad }
              if k.unsorted then (s, { o with code := codeUnsorted }) else s.merge tid c isInt keepz cb k o n

/-! ## ssscan (R122, R212) -/

/-- Words still to be written, the running sum before the next count. -/
def State.scanSums (s : State) (tid : Nat) (c : SsuCmd) (i : Nat) (sum : Nat) (o : SsuOut) (fuel : Nat) : State × SsuOut :=
  match fuel with
  | 0 => (s, o)
  | n + 1 =>
    if o.n = c.ocap then (s, { o with code := codeFull })
    else
      let o := { o with n := o.n + 1, idx := (sum, o.poison) :: o.idx }
      if n = 0 then (s, o)
      else
        match s.ssuWord tid (c.aidx + 4 * i) 4 with
        | (s, .error e) => (s, { o with fault := some e })
        | (s, .ok (x, p)) =>
          let o := { o with
            poison := o.poison || p, code := if 2 ^ 32 ≤ sum + x then codeWrap else o.code }
          s.scanSums tid c (i + 1) ((sum + x) % 2 ^ 32) o n

/-! ## spx (R124, R125, R213) -/

/-- An operand descriptor of the parameter block. -/
structure Sparse where
  stor : Nat
  blk : Nat
  width : Nat
  len : Nat
  ptr : Nat
  idx : Nat
  val : Nat
deriving DecidableEq, Repr

def SsuCmd.operand (c : SsuCmd) (k : Nat) : Sparse :=
  { stor := bytesAt c.block k 1, blk := bytesAt c.block (k + 1) 1, width := bytesAt c.block (k + 2) 2,
    len := bytesAt c.block (k + 4) 4, ptr := bytesAt c.block (k + 8) 8, idx := bytesAt c.block (k + 16) 8,
    val := bytesAt c.block (k + 24) 8 }

def SsuCmd.spxKind (c : SsuCmd) : Nat := bytesAt c.block 0 1
def SsuCmd.spxComb (c : SsuCmd) : Nat := bytesAt c.block 1 1
def SsuCmd.spxFmt (c : SsuCmd) : Nat := bytesAt c.block 2 1
def SsuCmd.spxKeepz (c : SsuCmd) : Bool := bytesAt c.block 3 1 % 2 == 1
def SsuCmd.ni (c : SsuCmd) : Nat := bytesAt c.block 4 4
def SsuCmd.nj (c : SsuCmd) : Nat := bytesAt c.block 8 4
def SsuCmd.nk (c : SsuCmd) : Nat := bytesAt c.block 12 4

/-- Bytes of a value. -/
def SsuCmd.vsize (c : SsuCmd) : Nat := if c.spxFmt = 1 then 8 else 4

/-- BADBLOCK of a parameter block (R125); a value that R124 gives no meaning counts as a reserved field (log entry 24). -/
def SsuCmd.badSpx (c : SsuCmd) : Bool :=
  let a := c.operand 32
  let b := c.operand 64
  let o := c.operand 96
  decide (3 < c.spxKind) || bytesAt c.block 3 1 / 2 != 0 || bytesAt c.block 16 16 != 0 ||
    ([c.ni, c.nj, c.nk].any fun x => x == 0 || decide (2 ^ 24 ≤ x)) ||
    ([a, b, o].any fun x => decide (5 < x.stor) || (x.stor == 4 && decide (7 < x.blk))) || decide (1 < o.stor) ||
    (decide (2 ≤ c.spxKind) && o.stor == 1 && (a.stor != 1 || b.stor != 1)) ||
    !(c.spxFmt == 0 || c.spxFmt == 1 || c.spxFmt == 0xF) || (c.spxKind == 2 && decide (2 < c.spxComb))

/-- A stored entry of an operand: row, column, bits, and whether its value and whether a word that names it was poisoned. -/
abbrev Stored := Nat × Nat × Nat × Bool × Bool

/-- Reads stored entries at a list of row, column, value address, and whether a word that named the entry was poisoned. -/
def State.storedAt (s : State) (tid size : Nat) (ps : List (Nat × Nat × Nat × Bool)) (acc : List Stored) :
    State × Except Cause (List Stored) :=
  match ps with
  | [] => (s, .ok acc.reverse)
  | (r, c, a, q) :: rest =>
    match s.ssuWord tid a size with
    | (s, .error e) => (s, .error e)
    | (s, .ok (x, p)) => s.storedAt tid size rest ((r, c, x, p, q) :: acc)

/-- Reads consecutive words, each with its poison. -/
def State.wordsAt (s : State) (tid a n : Nat) (acc : List (Nat × Bool)) : State × Except Cause (List (Nat × Bool)) :=
  match n with
  | 0 => (s, .ok acc.reverse)
  | n + 1 =>
    match s.ssuWord tid a 4 with
    | (s, .error e) => (s, .error e)
    | (s, .ok x) => s.wordsAt tid (a + 4) n (x :: acc)

/-- The entries of a compressed storage of `len` entries: the pointers of each line, then an index and a value for each
entry. -/
def lineEntries (ptr idx : List (Nat × Bool)) (len : Nat) : List (Nat × Nat × Nat × Bool) :=
  (List.range (ptr.length - 1)).flatMap fun l =>
    let p := ptr.getD l (0, false)
    let q := ptr.getD (l + 1) (0, false)
    ((List.range' p.1 (min len q.1 - p.1))).map fun k =>
      let x := idx.getD k (0, false)
      (l, x.1, k, p.2 || q.2 || x.2)

/-- The stored entries of an operand with `rows` rows and `cols` columns, and whether a poisoned word was read. The layouts
of the storages beyond their names are the usual ones (PRESUMED, log entry 24). -/
def State.stored (s : State) (tid size : Nat) (d : Sparse) (rows cols : Nat) : State × Except Cause (List Stored × Bool) :=
  let fetch (s : State) (named : List (Nat × Bool)) (ps : List (Nat × Nat × Nat × Bool)) :
      State × Except Cause (List Stored × Bool) :=
    match s.storedAt tid size ps [] with
    | (s, .error e) => (s, .error e)
    | (s, .ok xs) => (s, .ok (xs, named.any Prod.snd || xs.any fun x => x.2.2.2.1))
  match d.stor with
  | 0 =>
    fetch s [] ((List.range rows).flatMap fun r =>
      (List.range cols).map fun c => (r, c, d.val + size * (r * d.len + c), false))
  | 1 | 2 =>
    let lines := if d.stor = 1 then rows else cols
    match s.wordsAt tid d.ptr (lines + 1) [] with
    | (s, .error e) => (s, .error e)
    | (s, .ok ptr) =>
      match s.wordsAt tid d.idx d.len [] with
      | (s, .error e) => (s, .error e)
      | (s, .ok idx) =>
        fetch s (ptr ++ idx) ((lineEntries ptr idx d.len).map fun (l, x, k, p) =>
          if d.stor = 1 then (l, x, d.val + size * k, p) else (x, l, d.val + size * k, p))
  | 3 =>
    match s.wordsAt tid d.ptr d.len [] with
    | (s, .error e) => (s, .error e)
    | (s, .ok rs) =>
      match s.wordsAt tid d.idx d.len [] with
      | (s, .error e) => (s, .error e)
      | (s, .ok cs) =>
        fetch s (rs ++ cs) ((List.range d.len).map fun k =>
          let r := rs.getD k (0, false)
          let c := cs.getD k (0, false)
          (r.1, c.1, d.val + size * k, r.2 || c.2))
  | 4 =>
    let e := 2 ^ d.blk
    let brows := (rows + e - 1) / e
    match s.wordsAt tid d.idx (brows * d.width) [] with
    | (s, .error x) => (s, .error x)
    | (s, .ok bs) =>
      fetch s bs
        ((List.range (brows * d.width)).flatMap fun k =>
          (List.range (e * e)).filterMap fun m =>
            let b := bs.getD k (0, false)
            let r := k / d.width * e + m / e
            let c := b.1 * e + m % e
            if r < rows ∧ c < cols then some (r, c, d.val + size * (k * e * e + m), b.2) else none)
  | _ =>
    match s.wordsAt tid d.idx ((rows * cols + 31) / 32) [] with
    | (s, .error x) => (s, .error x)
    | (s, .ok ws) =>
      let bits := (List.range (rows * cols)).filter fun k => (ws.getD (k / 32) (0, false)).1.testBit (k % 32)
      fetch s ws
        (((List.range bits.length).zip bits).map fun (k, b) =>
          (b / cols, b % cols, d.val + size * k, (ws.getD (b / 32) (0, false)).2))

/-- Adds a product to an accumulator (R87, R125). -/
def spxFma (vfmt a b c : Nat) : Nat :=
  if vfmt = 0xF then (c + a * b) % 2 ^ 32
  else
    let f := if vfmt = 1 then fmtFp64 else fmtFp32
    (roundFloat f .rne false false (fmaNum false (f.unpack a) (f.unpack b) (f.unpack c)).1).1

/-- A product, rounded once (R125). -/
def spxMul (vfmt a b : Nat) : Nat :=
  if vfmt = 0xF then a * b % 2 ^ 32
  else
    let f := if vfmt = 1 then fmtFp64 else fmtFp32
    (roundFloat f .rne false false (mulNum (f.unpack a) (f.unpack b)).1).1

/-- The stored entries of an element, in their order. -/
def allStored (xs : List Stored) (r c : Nat) : List (Nat × Bool) :=
  (xs.filter fun x => x.1 == r && x.2.1 == c).map fun x => (x.2.2.1, x.2.2.2.1 || x.2.2.2.2)

def findStored (xs : List Stored) (r c : Nat) : Option (Nat × Bool) := (allStored xs r c).head?

/-- Words that name the operands' entries of an output element are poisoned: the output's own index and pointer words derive
from them (R120). -/
def SsuCmd.misnamed (c : SsuCmd) (a b olds : List Stored) (i j : Nat) : Bool :=
  let at_ (xs : List Stored) (r k : Option Nat) : Bool :=
    xs.any fun x => x.2.2.2.2 && r.all (· == x.1) && k.all (· == x.2.1)
  match c.spxKind with
  | 0 | 1 => at_ a (some i) none || at_ b none (some j) || at_ olds (some i) (some j)
  | _ => at_ a (some i) (some j) || at_ b (some i) (some j)

/-- An output element: present, its bits, poison, warn bits. `old` is C's element before, for the kinds that add to it. -/
def SsuCmd.spxElem (c : SsuCmd) (a b : List Stored) (old : Option (Nat × Bool)) (i j : Nat) :
    Option (Nat × Bool) × Word :=
  let vf := c.spxFmt
  match c.spxKind with
  | 0 | 1 =>
    let steps := (List.range c.nk).flatMap fun k =>
      (allStored a i k).flatMap fun x => (allStored b k j).map fun y => (x, y)
    if steps.isEmpty ∧ old.isNone then (none, 0)
    else
      (some (steps.foldl (fun v x => (spxFma vf x.1.1 x.2.1 v.1, v.2 || x.1.2 || x.2.2)) (old.getD (0, false))), 0)
  | 2 =>
    match findStored a i j, findStored b i j with
    | some x, some y =>
      let cb : Comb := if c.spxComb = 0 then .add else if c.spxComb = 1 then .max else .min
      let (v, w) :=
        if vf = 0xF then (combInt cb x.1 y.1, 0)
        else combFloat (if vf = 1 then .f64 else .f32) cb c.rnd c.sub x.1 y.1
      let zero : Bool := if vf = 0xF then v == 0 else v % 2 ^ (8 * c.vsize - 1) == 0
      (if cb = .add ∧ zero ∧ !c.spxKeepz then none else some (v, x.2 || y.2), w)
    | some x, none => (some x, 0)
    | none, y => (y, 0)
  | _ =>
    match findStored a i j, findStored b i j with
    | some x, some y => (some (spxMul vf x.1 y.1, x.2 || y.2), 0)
    | _, _ => (none, 0)

/-- Writes a run of values with their poison at an address, for a command; a poisoned block poisons all of them (R120). -/
def State.putRun (s : State) (c : SsuCmd) (a size : Nat) (xs : List (Nat × Bool)) : State × Option Cause :=
  match Map.find s.teams c.tid with
  | none => (s, none)
  | some t =>
    match s.locWrite c.tid c.origin (some c.place) 0 a (xs.flatMap fun x => toBytes size x.1) with
    | (s, some e) => (s, some (e.element a size))
    | (s, none) =>
      (((List.range xs.length).zip xs).foldl
        (fun s (k, x) =>
          if x.2 || c.bad then (s.setUnit c.tid t 0 (a + size * k) true).setUnit c.tid t 0 (a + size * k + size - 1) true else s) s,
        none)

/-- The rows of the output, written one after another: dense rows whole, CSR rows while they fit. `olds` are C's entries
before, for the kinds that add to them; `named` says that a poisoned word named an entry of an earlier row. DESIGN CHOICE: an
index word is poisoned with the words that name its own entry, a pointer word with those that name entries of the rows up to it;
R120 does not say how far a word derives from another (log entry 74). -/
def State.spxRows (s : State) (tid : Nat) (c : SsuCmd) (d : Sparse) (cols : Nat) (a b olds : List Stored)
    (rows : List Nat) (named : Bool) (o : SsuOut) : State × SsuOut :=
  match rows with
  | [] => (s, o)
  | i :: rest =>
    let size := c.vsize
    let es := (List.range cols).map fun j => (j, c.spxElem a b (findStored olds i j) i j)
    let w := es.foldl (fun w x => w ||| x.2.2) 0
    let bad := es.any fun x => match x.2.1 with | some v => v.2 | none => false
    if d.stor = 0 then
      match s.putRun c (d.val + size * (i * d.len)) size (es.map fun x => x.2.1.getD (0, false)) with
      | (s, some e) => (s, { o with fault := some e })
      | (s, none) =>
        s.spxRows tid c d cols a b olds rest named { o with n := o.n + cols, warn := o.warn ||| w, poison := o.poison || bad }
    else
      let kept := es.filterMap fun x => x.2.1.map fun v => (x.1, v)
      if d.len < o.n + kept.length then (s, { o with code := codeFull })
      else
        let more := named || (List.range cols).any fun j => c.misnamed a b olds i j
        match s.putRun c (d.idx + 4 * o.n) 4 (kept.map fun x => (x.1, c.misnamed a b olds i x.1)) with
        | (s, some e) => (s, { o with fault := some e })
        | (s, none) =>
          match s.putRun c (d.val + size * o.n) size (kept.map Prod.snd) with
          | (s, some e) => (s, { o with fault := some e })
          | (s, none) =>
            match s.putRun c (d.ptr + 4 * i) 4 [(o.n, named), (o.n + kept.length, more)] with
            | (s, some e) => (s, { o with fault := some e })
            | (s, none) =>
              s.spxRows tid c d cols a b olds rest more
                { o with n := o.n + kept.length, warn := o.warn ||| w, poison := o.poison || bad }

/-- spx as a whole. -/
def State.spx (s : State) (tid : Nat) (c : SsuCmd) : State × SsuOut :=
  if c.badSpx then (s, { SsuOut.empty with code := codeBad })
  else
    let inner := c.spxKind = 0 ∨ c.spxKind = 1
    let cols := if c.spxKind = 1 then 1 else c.nj
    match s.stored tid c.vsize (c.operand 32) c.ni (if inner then c.nk else c.nj) with
    | (s, .error e) => (s, { SsuOut.empty with fault := some e })
    | (s, .ok a) =>
      match s.stored tid c.vsize (c.operand 64) (if inner then c.nk else c.ni) cols with
      | (s, .error e) => (s, { SsuOut.empty with fault := some e })
      | (s, .ok b) =>
        let d := c.operand 96
        match (if inner then s.stored tid c.vsize d c.ni cols else (s, .ok ([], false))) with
        | (s, .error e) => (s, { SsuOut.empty with fault := some e })
        | (s, .ok olds) =>
          s.spxRows tid c d cols a.1 b.1 olds.1 (List.range c.ni) false { SsuOut.empty with poison := a.2 || b.2 || olds.2 }

/-! ## Issue -/

/-- The output spans of a command: (address, bytes). -/
def SsuCmd.spans (c : SsuCmd) : List (Nat × Nat) :=
  let n := c.len0.toNat
  let m := c.len1.toNat
  match c.kind with
  | .int .cnt => []
  | .int .idx => [(c.oidx, 4 * min c.ocap (min n m))]
  | .int .pos => [(c.oidx, 8 * min c.ocap (min n m))]
  | .merge .. => [(c.oidx, 4 * min c.ocap (n + m)), (c.oval, 4 * min c.ocap (n + m))]
  | .scan => [(c.oidx, 4 * min c.ocap (n + 1))]
  | .spx =>
    let d := c.operand 96
    let cols := if c.spxKind = 1 then 1 else c.nj
    if d.stor = 0 then [(d.val, c.vsize * ((c.ni - 1) * d.len + cols))]
    else [(d.ptr, 4 * (c.ni + 1)), (d.idx, 4 * d.len), (d.val, c.vsize * d.len)]

/-- A command is bad, so that it reads and writes nothing. -/
def SsuCmd.bad? (c : SsuCmd) : Bool := match c.kind with | .spx => c.badSpx | _ => c.badStream

/-- The shared issue of R210: alignment, the queue of four, the drain, the block, the command. -/
def ssuEffect (i : Instr) (kind : SsuKind) (d a b : SReg) (n : Nat) (w : Issuer) (t : Team) (q : Party) (s : State) :
    Effect :=
  let va := (q.base w.sl a).toNat
  let cl := clusterOf t.core
  let queue := (Map.find s.ssu cl).getD []
  if va % 64 ≠ 0 then .fault s { cause := 0x05, addr := some (va % 2 ^ 57) }
  else if 4 ≤ (queue.filter fun c => c.core == t.core).length then .hold (.engineQueue 0)
  else
    match s.release t.core w.tid w.p q .dv with
    | (_, some x) => .hold x
    | (s, none) =>
      let o := originOf w q i.word
      match s.engineRead (some t.core) (s.tagOf t) (s.privileged t) va n with
      | (s, .error c) => .flow (s.takeFault w.tid o c true true (q.slot (!w.sl)).wait)
      | (s, .ok (bs, bad)) =>
        let mode := (q.slot w.sl).mode
        let (id, s) := s.fresh
        let c : SsuCmd :=
          { id := id, tid := w.tid, core := t.core, kind := kind, sd := d.toNat, blk := va, len0 := q.getS w.sl b.toNat,
            len1 := q.getS w.sl (b.toNat + 1), rnd := (fld mode 0 3).toNat, sub := (fld mode 4 2).toNat,
            place := s.placeNow t.core 8 0, origin := o, block := bs, bad := bad, owned := [],
            passes := ⟨0, [], 0, s.placeNow t.core 8 0⟩, ended := none }
        let spx : Bool := kind == .spx && !c.bad? && decide (c.spxKind < 2)
        let c := if spx then { c with passes := { c.passes with unposted := Config.spxPasses s.free } } else c
        let s := if spx then s.useFree else s
        let c := if c.bad? then c else { c with owned := (c.spans.flatMap fun x => s.spanLines w.tid t .store 0 x.1 x.2).dedup }
        .done (({ s with ssu := Map.set s.ssu cl (queue ++ [c]) } : State).modParty w.tid w.p fun q =>
          if c.sd = 0 then q else { q with pending := q.pending ++ [{ kind := 1, num := c.sd, op := id }] })

def execSsint (d a b : SReg) (f : IntForm) (s : State) : Host.Outcome State Fault Refusal :=
  let i := Instr.ssint d a b f
  runTeam i s (ssuEffect i (.int f) d a b 64)

def execSsmerge (d a b : SReg) (int keepz : Bool) (c : Comb) (s : State) : Host.Outcome State Fault Refusal :=
  let i := Instr.ssmerge d a b int keepz c
  runTeam i s (ssuEffect i (.merge int keepz c) d a b 64)

def execSsscan (d a b : SReg) (s : State) : Host.Outcome State Fault Refusal :=
  let i := Instr.ssscan d a b
  runTeam i s (ssuEffect i .scan d a b 64)

def execSpx (d a : SReg) (s : State) : Host.Outcome State Fault Refusal :=
  let i := Instr.spx d a
  runTeam i s (ssuEffect i .spx d a 0 128)

/-! ## Completion -/

/-- Runs a command: what it produced. -/
def State.runSsu (s : State) (c : SsuCmd) : State × SsuOut :=
  let fuel := c.len0.toNat + c.len1.toNat + 1
  match c.kind with
  | .spx => s.spx c.tid c
  | .scan =>
    if c.badStream then (s, { SsuOut.empty with code := codeBad })
    else
      let (s, o) := s.scanSums c.tid c 0 c.len1.toNat SsuOut.empty (c.len0.toNat + 1)
      (s, o)
  | k =>
    if c.badStream then (s, { SsuOut.empty with code := codeBad })
    else
      match s.cursor c.tid c with
      | (s, .error e) => (s, { SsuOut.empty with fault := some e })
      | (s, .ok (u, bad)) =>
        let o := { SsuOut.empty with poison := bad }
        match k with
        | .int f => s.intersect c.tid c f u o fuel
        | .merge int keepz cb => s.merge c.tid c int keepz cb u o fuel
        | _ => (s, o)

/-- Writes what a stream command produced. -/
def State.putSsu (s : State) (c : SsuCmd) (o : SsuOut) : State × Option Cause :=
  match s.putRun c c.oidx 4 o.idx.reverse with
  | (s, some e) => (s, some e)
  | (s, none) => if o.val.isEmpty then (s, none) else s.putRun c c.oval 4 o.val.reverse

/-- The status word (R120). DESIGN CHOICE: the spec does not say what COUNT holds once 2^24 elements have been written,
which ssscan of 16,777,215 counts does; the model keeps the count modulo 2^24 (log entry 55). -/
def ssuStatus (c : SsuCmd) (o : SsuOut) : Word :=
  BitVec.ofNat 32 (2 ^ 31 + (if o.poison || c.bad then 2 ^ 30 else 0) + 2 ^ 24 * o.code + o.n % 2 ^ 24)

/-- A command leaves its unit: the resolutions bound to it are made, and its status word is written. -/
def State.endSsu (s : State) (cluster : Nat) (c : SsuCmd) (warn status : Word) : State :=
  let s := { s with ssu := Map.update s.ssu cluster fun cs => cs.filter fun x => x.id != c.id }
  (s.completeOp c.id).modParty c.tid (c.origin.party.getD 0) fun q => q.writeStatus c.id c.sd warn status

/-- The oldest command of a core on its cluster's unit ends: its outputs are written, and then its status word, once no
write to a peer is outstanding (R312); or the fault that it met is taken (R467). A command whose matrix passes have not
all retired goes on (R213). -/
def execSsuComplete (cluster core : Nat) (s : State) : Host.Outcome State Fault Refusal :=
  match ((Map.find s.ssu cluster).getD []).find? fun c => c.core == core with
  | none => .next s
  | some c =>
    match Map.find s.teams c.tid with
    | none => .next s
    | some t =>
      if !t.running then .next s
      else
        match c.ended with
        | some (w, x) => if s.copyOutstanding c.tid c.origin then .next s else .next (s.endSsu cluster c w x)
        | none =>
          if 0 < c.passes.left ∨ s.outranked c.place c.owned then .next s
          else
            let (s, x) := s.readAs { id := c.id, tid := c.tid, origin := c.origin, serial := true } fun s =>
              let (s, o) := s.runSsu c
              let (s, e) := s.putSsu c o
              (s, o, e)
            let (o, e) := x
            let s := s.usedBytes c.id
            match e.or o.fault with
            | some x =>
              let s := { s with ssu := Map.update s.ssu cluster fun cs => cs.filter fun x => x.id != c.id }
              .next (s.laterFault c.tid c.origin x true true)
            | none =>
              if s.copyOutstanding c.tid c.origin then
                let mark (x : SsuCmd) : SsuCmd := if x.id = c.id then { x with ended := some (o.warn, ssuStatus c o) } else x
                .next { s with ssu := Map.update s.ssu cluster (·.map mark) }
              else .next (s.endSsu cluster c o.warn (ssuStatus c o))

end Sys2Proof.Machine
end

