-- ==== Sys2Proof/Machine/Ne.lean ====
section
/-!
DEFINITION. The neighbour engine (R126 to R130, R215 to R217): nbbin, nbpairs, nbstat.
-/

namespace Sys2Proof.Machine

open Sys2Proof

/-! ## The grid descriptor (R126) -/

def gridOrg (d : List Byte) (dimAt : Nat) : Num := fmtFp32.unpack (bytesAt d (4 * dimAt) 4)
def gridLen (d : List Byte) (dimAt : Nat) : Num := fmtFp32.unpack (bytesAt d (12 + 4 * dimAt) 4)
def gridDim (d : List Byte) (dimAt : Nat) : Nat := bytesAt d 24 4 / 2 ^ (7 * dimAt) % 128
def gridPeriodic (d : List Byte) (dimAt : Nat) : Bool := (bytesAt d 24 4).testBit (21 + dimAt)
def gridCut (d : List Byte) : Num := Cvt.fp16.unpack (bytesAt d 28 2)
def gridSkin (d : List Byte) : Num := Cvt.fp16.unpack (bytesAt d 30 2)
def gridCap (d : List Byte) : Nat := bytesAt d 32 2
def gridOvf (d : List Byte) : Nat := bytesAt d 34 2
def gridNp (d : List Byte) : Nat := bytesAt d 36 4
def gridPos (d : List Byte) : Nat := bytesAt d 40 8
def gridRef (d : List Byte) : Nat := bytesAt d 48 8
def gridCells (d : List Byte) : Nat := bytesAt d 56 8

def gridCount (d : List Byte) : Nat := gridDim d 0 * gridDim d 1 * gridDim d 2

/-- Bytes of a cell: its count and CAP indices. -/
def cellBytes (d : List Byte) : Nat := 4 * (gridCap d + 1)

/-! ## Exact arithmetic -/

/-- a − b exactly. -/
def subNum (a b : Num) : Num := (addNum false a b.negate).1

/-- A finite number as a numerator over 2^1100; every FP32 and FP16 sum and product fits. -/
def fixedNum (a : Num) : Int := scaled (-1100) a

/-- ⌊a · n / b⌋ for finite numbers with b > 0. -/
def floorDiv (a : Num) (n : Nat) (b : Num) : Option Int :=
  match a, b with
  | .fin .., .fin false m _ => if m = 0 then none else some (fixedNum a * n / fixedNum b)
  | _, _ => none

/-- The minimum image of a displacement along an axis. DESIGN CHOICE: of the two images at a distance of exactly LEN / 2
the model takes the negative one; R128 does not say which (log entry 56). -/
def minImage (d : List Byte) (dimAt : Nat) (x : Num) : Num :=
  if gridPeriodic d dimAt then
    match floorDiv (addNum false (addNum false x x).1 (gridLen d dimAt)).1 1 (addNum false (gridLen d dimAt) (gridLen d dimAt)).1 with
    | some k => subNum x (mulNum (.fin (decide (k < 0)) k.natAbs 0) (gridLen d dimAt)).1
    | none => x
  else x

/-- A number rounded to FP32. -/
def toF32 (x : Num) : Nat := (roundFloat fmtFp32 .rne false false x).1

/-- A position, three numbers. -/
abbrev Point := List Num

/-- The displacement from a to b under the minimum image, as FP32 bits. -/
def displacement (d : List Byte) (a b : Point) : List Nat :=
  (List.range 3).map fun k =>
    toF32 (minImage d k (subNum (b.getD k (.fin false 0 0)) (a.getD k (.fin false 0 0))))

/-- |d|² in FP32 (R128). DESIGN CHOICE: each square and each sum is rounded once, x first, then y, then z; R128 does not
say how many roundings there are or in which order (log entry 57). -/
def normSq (ds : List Nat) : Num :=
  ds.foldl (fun acc x =>
    fmtFp32.unpack (toF32 (addNum false acc (fmtFp32.unpack (toF32 (mulNum (fmtFp32.unpack x) (fmtFp32.unpack x)).1))).1))
    (.fin false 0 0)

def finitePoint (p : Point) : Bool := p.all fun x => match x with | .fin .. => true | _ => false

/-! ## Memory -/

/-- The positions that bytes spell. -/
def pointsOf (bs : List Byte) (n : Nat) : List Point :=
  (List.range n).map fun p => (List.range 3).map fun k => fmtFp32.unpack (bytesAt bs (16 * p + 4 * k) 4)

/-- Positions of the particles, with their bytes. -/
def State.points (s : State) (tid a n : Nat) : State × Except Cause (List Point × List Byte) :=
  match s.locRead tid 0 a (16 * n) with
  | (s, .error c) => (s, .error (c.element a 16))
  | (s, .ok (bs, _)) => (s, .ok (pointsOf bs n, bs))

/-- The particles that each cell lists. -/
def State.cells (s : State) (tid : Nat) (d : List Byte) : State × Except Cause (List (List Nat)) :=
  match s.locRead tid 0 (gridCells d) (cellBytes d * gridCount d) with
  | (s, .error c) => (s, .error (c.element (gridCells d) 4))
  | (s, .ok (bs, _)) =>
    (s, .ok ((List.range (gridCount d)).map fun c =>
      (List.range (min (bytesAt bs (cellBytes d * c) 4) (gridCap d))).map fun k =>
        bytesAt bs (cellBytes d * c + 4 + 4 * k) 4))

/-! ## nbbin (R127) -/

/-- The cell of a particle; none for a coordinate that is not finite. -/
def cellOf (d : List Byte) (p : Point) : Option Nat :=
  let dimAt (k : Nat) : Option Nat :=
    (floorDiv (subNum (p.getD k (.nan false false)) (gridOrg d k)) (gridDim d k) (gridLen d k)).map fun c =>
      let n : Int := gridDim d k
      (if gridPeriodic d k then c % n else max 0 (min c (n - 1))).toNat
  match dimAt 0, dimAt 1, dimAt 2 with
  | some x, some y, some z => some (x + gridDim d 0 * (y + gridDim d 1 * z))
  | _, _, _ => none

/-- Status bits (R130). -/
def neDone : Word := 0x80000000
def neOverflow : Word := 0x40000000
def neStale : Word := 0x20000000
def neBadPos : Word := 0x10000000
def neBadGrid : Word := 0x08000000

/-- The status of an nbbin. -/
def binStatus (d : List Byte) (lists : List (List Nat)) (badPos : Bool) : Word :=
  let ovfl := (lists.filter fun l => decide (gridCap d < l.length)).length
  neDone ||| when (0 < ovfl) neOverflow ||| when badPos neBadPos ||| BitVec.ofNat 32 (min ovfl (2 ^ 21 - 1))

/-- Records of the overflowing cells (R127). -/
def overflowRecs (d : List Byte) (lists : List (List Nat)) : List (List Word) :=
  ((List.range lists.length).zip lists).filterMap fun (c, l) =>
    if gridCap d < l.length then
      some ([BitVec.ofNat 32 c, BitVec.ofNat 32 l.length, BitVec.ofNat 32 (gridCap d)] ++ List.replicate 9 0)
    else none

/-- The edge of the team's node that leads to a node. -/
def State.edgeTo (s : State) (t : Team) (node : Nat) : Option Edge :=
  match s.run? t, s.node? t with
  | some r, some n => ((List.range n.nout).filterMap fun k => r.image.edges[n.edge0 + k]?).find? fun e => e.target == node
  | _, _ => none

/-- Ends a command: its status is the team's last and reaches its register (R215), once no write to a peer is outstanding
(R312). -/
def State.endNe (s : State) (cluster : Nat) (c : NeCmd) (status : Word) : State :=
  if s.copyOutstanding c.tid c.origin then
    let mark (x : NeCmd) : NeCmd := if x.id = c.id then { x with ended := some status } else x
    { s with ne := Map.update s.ne cluster (·.map mark) }
  else
    let s := { s with ne := Map.update s.ne cluster fun cs => cs.filter fun x => x.id != c.id }
    ((s.modTeam c.tid fun t => { t with neStatus := status }).completeOp c.id).modParty c.tid (c.origin.party.getD 0) fun q =>
      q.writeStatus c.id c.sd 0 status

/-- A command meets a fault (R467). -/
def State.neFault (s : State) (cluster : Nat) (c : NeCmd) (e : Cause) : State :=
  ({ s with ne := Map.update s.ne cluster fun cs => cs.filter fun x => x.id != c.id } : State).laterFault c.tid c.origin e
    true true

/-- POS is copied into REF with the poison of its sectors (R71, R127): a sector of REF that takes a byte from a poisoned one is
poisoned. -/
def State.copyPoison (s : State) (tid : Nat) (t : Team) (src dst n : Nat) : State :=
  if s.poison.isEmpty then s
  else
    let bad (a : Nat) : Bool :=
      match s.peekTarget t.core (s.tagOf t) (s.privileged t) .load a with
      | some g => g.peer.isNone && s.poison.contains (s.whereNow g.pa / 64)
      | none => false
    ((List.range (n / 16)).filter fun k => bad (src + 16 * k) || bad (src + 16 * k + 15)).foldl
      (fun s k => (s.setUnit tid t 0 (dst + 16 * k) true).setUnit tid t 0 (dst + 16 * k + 15) true) s

/-- nbbin as a whole. DESIGN CHOICE: a poisoned unit of POS, REF, the cells or the descriptor is read as it stands; R71 names no
fault and no status bit for the neighbour engine (log entry 75). -/
def State.runBin (s : State) (cluster : Nat) (c : NeCmd) (t : Team) : State :=
  let d := c.desc
  match s.points c.tid (gridPos d) (gridNp d) with
  | (s, .error e) => s.neFault cluster c e
  | (s, .ok (ps, bs)) =>
    let homes := ps.map (cellOf d)
    let lists := (List.range (gridCount d)).map fun k =>
      (List.range ps.length).filter fun p => (homes.getD p none) == some k
    let cellData (l : List Nat) : List Byte :=
      toBytes 4 l.length ++ (l.take (gridCap d)).flatMap (toBytes 4)
    let put (x : State × Option Cause) (k : Nat) : State × Option Cause :=
      match x with
      | (s, some e) => (s, some e)
      | (s, none) =>
        let (s, e) := s.locWrite c.tid c.origin (some c.place) 0 (gridCells d + cellBytes d * k) (cellData (lists.getD k []))
        (s, e.map fun e => e.element (gridCells d) 4)
    match (List.range (gridCount d)).foldl put (s, none) with
    | (s, some e) => s.neFault cluster c e
    | (s, none) =>
      match s.locWrite c.tid c.origin (some c.place) 0 (gridRef d) bs with
      | (s, some e) => s.neFault cluster c (e.element (gridRef d) 16)
      | (s, none) =>
        let s := s.copyPoison c.tid t (gridPos d) (gridRef d) (16 * gridNp d)
        let status := binStatus d lists (homes.any Option.isNone)
        let recs := if gridOvf d = 0xFFFF then [] else overflowRecs d lists
        let p := c.origin.party.getD 0
        match s.edgeTo t (gridOvf d), Map.find t.parties p with
        | some g, some q =>
          if recs.isEmpty then s.endNe cluster c status
          else
            let (depth, deep) := s.emitDepth t q g
            if deep then (s.flagReport t g.target 8).neFault cluster c (depthOverflow none depth)
            else
              let rs := recs.map fun w =>
                mkRec { target := g.target, type := g.type, depth := depth, prio := g.prio, cont := false,
                        trank := s.rank.toNat, join := none, srcNode := t.node, srcLane := 0x7F, cls := g.cls } w
              match s.offer ⟨c.tid, p, c.origin.slot⟩ c.origin t g.target false 0 false [(t.die, rs)] with
              | .done s _ _ => s.endNe cluster c status
              | .overflow s _ => s.endNe cluster c status
        | _, _ => s.endNe cluster c status

/-! ## nbpairs (R128, R129) -/

/-- The grid fails R129: an axis is too short, or no number can be compared. -/
def badGrid (d : List Byte) : Bool :=
  let reach := (addNum false (gridCut d) (gridSkin d)).1
  reach.isNan || (List.range 3).any fun k =>
    (gridPeriodic d k && decide (gridDim d k < 3)) || (gridLen d k).isNan ||
      !decide (cmpNum (mulNum (.fin false (gridDim d k) 0) reach).1 (gridLen d k) ≠ .gt)

/-- The pairs in the order of R128, five words each: all those within CUT of particles that the cells hold (R129). -/
def pairList (d : List Byte) (ps : List Point) (cells : List (List Nat)) : List (List Word) :=
  let cut := (mulNum (gridCut d) (gridCut d)).1
  let held := (List.range ps.length).filter fun j => cells.any fun l => l.contains j
  cells.flatMap fun l =>
    l.flatMap fun i =>
      (held.filter fun j => decide (i < j)).filterMap fun j =>
        let a := ps.getD i []
        let b := ps.getD j []
        let ds := displacement d a b
        if finitePoint a && finitePoint b && cmpNum (normSq ds) cut == .lt then
          some ([BitVec.ofNat 32 i, BitVec.ofNat 32 j] ++ ds.map (BitVec.ofNat 32))
        else none

/-- Some particle has moved by more than SKIN / 2. -/
def staleList (d : List Byte) (ps rs : List Point) : Bool :=
  let lim := (mulNum (mulNum (gridSkin d) (gridSkin d)).1 (.fin false 1 (-2))).1
  (ps.zip rs).any fun (a, b) =>
    finitePoint a && finitePoint b && cmpNum (normSq (displacement d b a)) lim == .gt

/-- The check before the stream: the pairs and the status bits. A bad grid has no pairs, but is compared with REF like any
other (R129). -/
def State.startPairs (s : State) (c : NeCmd) : State × Except Cause (List (List Word) × Word) :=
  let d := c.desc
  match s.points c.tid (gridPos d) (gridNp d) with
  | (s, .error e) => (s, .error e)
  | (s, .ok (ps, _)) =>
    match s.points c.tid (gridRef d) (gridNp d) with
    | (s, .error e) => (s, .error e)
    | (s, .ok (rs, _)) =>
      let flags := when (staleList d ps rs) neStale ||| when (ps.any fun p => !finitePoint p) neBadPos
      if badGrid d then (s, .ok ([], flags ||| neBadGrid))
      else
        match s.cells c.tid d with
        | (s, .error e) => (s, .error e)
        | (s, .ok cells) => (s, .ok (pairList d ps cells, flags))

/-- A group of five pops: word k of lane L is word k of the pair L. -/
def pairGroup (use : Nat) (ps : List (List Word)) : List (List Word) :=
  (List.range 5).map fun k =>
    (List.range 96).map fun l =>
      match ps[l]? with
      | some p => p.getD k 0
      | none => if k = 0 then 0xFFFFFFFF else Config.pairWord use l k

/-- The terminal group. -/
def terminalGroup (use : Nat) (status : Word) : List (List Word) :=
  (List.range 5).map fun k =>
    (List.range 96).map fun l =>
      if k = 0 then 0xFFFFFFFE else if k = 1 then status else Config.pairWord use l k

/-- Enters groups into a pair stream. -/
def State.enterGroups (s : State) (c : NeCmd) (gs : List (List Word)) (ended : Bool) : State :=
  s.modParty c.tid (c.origin.party.getD 0) fun q =>
    { q with
      ports := match c.port with
        | some n => Map.update q.ports n fun p =>
            if p.kind = .pairs then { p with groups := p.groups ++ gs, ended := p.ended || ended } else p
        | none => q.ports }

/-- The status of an nbpairs: what the check found, beside the overflow of the last nbbin (R130). -/
def pairStatus (last flags : Word) : Word := neDone ||| flags ||| (last &&& (neOverflow ||| 0x1FFFFF))

/-- The head command of a cluster's engine, with its team. -/
def State.neHead (s : State) (cluster : Nat) : Option (NeCmd × Team) :=
  match ((Map.find s.ne cluster).getD []).head? with
  | some c => (Map.find s.teams c.tid).map fun t => (c, t)
  | none => none

/-- The engine as it reads for a command. -/
def NeCmd.reader (c : NeCmd) : Reader := { id := c.id, tid := c.tid, origin := c.origin, serial := false }

/-- nbpairs checks its grid and enters one group of up to 96 pairs into its stream. -/
def execNePairGroup (cluster : Nat) (s : State) : Host.Outcome State Fault Refusal :=
  match s.neHead cluster with
  | none => .next s
  | some (c, t) =>
    if !t.running || c.port.isNone || c.ended.isSome then .next s
    else
      let setCmd (s : State) (ps : List (List Word)) (f : Word) : State :=
        { s with
          ne := Map.update s.ne cluster fun cs =>
            cs.map fun x => if x.id = c.id then { x with pairs := some ps, flags := f } else x }
      match (match c.pairs with
        | some ps => (s, Except.ok (ps, c.flags))
        | none => let (s, r) := s.readAs c.reader fun s => s.startPairs c; (s.usedBytes c.id, r)) with
      | (s, .error e) => .next (s.neFault cluster c e)
      | (s, .ok (ps, f)) =>
        if ps.isEmpty then .next (setCmd s [] f)
        else .next ((setCmd s.useFree (ps.drop 96) f).enterGroups c (pairGroup s.free (ps.take 96)) false)

/-- The head command of a cluster's engine ends: an nbbin with its cells written, an nbpairs with its terminal group. -/
def execNeComplete (cluster : Nat) (s : State) : Host.Outcome State Fault Refusal :=
  match s.neHead cluster with
  | none => .next s
  | some (c, t) =>
    if !t.running then .next s
    else
      match c.ended, c.port, c.pairs with
      | some st, _, _ => .next (s.endNe cluster c st)
      | none, none, _ => .next (if s.outranked c.place c.owned then s else s.runAs c.reader fun s => s.runBin cluster c t)
      | none, some _, some [] =>
        let st := pairStatus t.neStatus c.flags
        .next ((s.useFree.enterGroups c (terminalGroup s.free st) true).endNe cluster c st)
      | none, some _, _ => .next s

/-! ## Issue (R215 to R217) -/

/-- A pair stream is closed before its end: its command stops (R216). -/
def State.stopPairs (s : State) (tid p port : Nat) : State :=
  let hit (c : NeCmd) : Bool := c.tid == tid && c.origin.party == some p && c.port == some port
  s.ne.foldl (fun s (cluster, cs) =>
    match cs.find? hit, Map.find s.teams tid with
    | some c, some t => s.endNe cluster c (pairStatus t.neStatus c.flags)
    | _, _ => s) s

/-- Unbinds a load port: what the stream has read ahead is discarded (R209). -/
def State.closeLoad (s : State) (tid p port : Nat) : State :=
  (s.stopPairs tid p port).modParty tid p fun q => { q with ports := Map.drop q.ports port }

/-- The shared issue of nbbin and nbpairs. DESIGN CHOICE: a descriptor outside the ranges of R126 (an edge LEN that is not
positive and finite, a dimension of 0, a product above 2^21, CAP 0 or above 256, NP 0, a reserved bit) is not checked and
the command runs on the values as they stand; R126 names no consequence (log entry 58). -/
def neEffect (i : Instr) (d a : SReg) (port : Option Nat) (w : Issuer) (t : Team) (q : Party) (s : State) : Effect :=
  let va := (q.base w.sl a).toNat
  let cl := clusterOf t.core
  let queue := (Map.find s.ne cl).getD []
  if va % 64 ≠ 0 then .fault s { cause := 0x05, addr := some (va % 2 ^ 57) }
  else if 8 ≤ queue.length then .hold (.engineQueue 1)
  else
    match s.release t.core w.tid w.p q .dv with
    | (_, some x) => .hold x
    | (s, none) =>
      let o := originOf w q i.word
      match s.engineRead (some t.core) (s.tagOf t) (s.privileged t) va 64 with
      | (s, .error c) => .flow (s.takeFault w.tid o c true true (q.slot (!w.sl)).wait)
      | (s, .ok (bs, _)) =>
        if port.isNone ∧ gridOvf bs ≠ 0xFFFF ∧ (s.edgeTo t (gridOvf bs)).isNone then
          .fault s (noEdge none (gridOvf bs))
        else
          let s := match port with | some n => s.closeLoad w.tid w.p n | none => s
          let (id, s) := s.fresh
          let spans :=
            if port.isSome then []
            else [(gridCells bs, cellBytes bs * gridCount bs), (gridRef bs, 16 * gridNp bs)]
          let c : NeCmd :=
            { id := id, tid := w.tid, core := t.core, port := port, sd := d.toNat, grid := va, desc := bs,
              place := s.placeNow t.core 9 0, origin := o, pairs := none, flags := 0, ended := none
              owned := (spans.flatMap fun x => s.spanLines w.tid t .store 0 x.1 x.2).dedup }
          let queue := (Map.find s.ne cl).getD []
          .done (({ s with ne := Map.set s.ne cl (queue ++ [c]) } : State).modParty w.tid w.p fun q =>
            { q with
              pending := if c.sd = 0 then q.pending else q.pending ++ [{ kind := 1, num := c.sd, op := id }]
              ports := match port with
                | some n =>
                  Map.set q.ports n
                    { kind := .pairs, handle := 0, pos := 0, rnd := 0, sub := 0, scope := .dv, origin := o, groups := [],
                      unwritten := [], ended := false }
                | none => q.ports })

def execNbbin (d a : SReg) (s : State) : Host.Outcome State Fault Refusal :=
  let i := Instr.nbbin d a
  runTeam i s (neEffect i d a none)

/-- nbpairs: `port` false is q0, true q1. -/
def execNbpairs (d a : SReg) (port : Bool) (s : State) : Host.Outcome State Fault Refusal :=
  let i := Instr.nbpairs d a port
  runTeam i s (neEffect i d a (some (if port then 1 else 0)))

/-- nbstat (R217). -/
def execNbstat (d : SReg) (s : State) : Host.Outcome State Fault Refusal :=
  runTeam (.nbstat d) s fun w t _ s => .done (s.modParty w.tid w.p fun q => q.setS w.sl d.toNat t.neStatus)

/-! ## Queue ports (R207 to R209) -/

def qfmt : Cause := protection 0x0D

/-- A store port has pushed elements that are not written, or writes that are not performed. -/
def Party.storing (q : Party) (n : Nat) : Bool :=
  match Map.find q.ports n with
  | some p => p.kind == .store && (p.ended || !p.unwritten.isEmpty)
  | none => false

/-- The stream of a store port takes no more pushes. -/
def Party.endStore (q : Party) (n : Nat) : Party :=
  { q with ports := Map.update q.ports n fun p => if p.kind = .store then { p with ended := true } else p }

/-- What closing a bound store port that has written everything still waits for: its writes at a peer, then the release at
the scope of its bind (R209). -/
def State.closeWait (s : State) (core tid p : Nat) (q : Party) (n : Nat) : State × Option Wait :=
  match Map.find q.ports n with
  | some x =>
    if x.kind = .store then
      if s.copyOutstanding tid x.origin then (s, some (.qclose n)) else s.release core tid p q x.scope
    else (s, none)
  | none => (s, none)

/-- qbind (R207, R208): a bound port is closed first. -/
def execQbind (n : BitVec 2) (h : BitVec 4) (scope : Scope) (s : State) : Host.Outcome State Fault Refusal :=
  let i := Instr.qbind n h scope
  runTeam i s fun w t q s =>
    match s.copyHandle w.tid h.toNat with
    | (s, .error c) => .fault s c
    | (s, .ok hd) =>
      if hFmt hd = 1 ∨ hFmt hd = 0xE then .fault s qfmt
      else if q.storing n.toNat then
        .wait (s.modParty w.tid w.p fun q => q.endStore n.toNat) (.qclose n.toNat)
      else
        match s.closeWait t.core w.tid w.p q n.toNat with
        | (_, some x) => .hold x
        | (s, none) =>
          match s.release t.core w.tid w.p q (copyScope scope) with
          | (_, some x) => .hold x
          | (s, none) =>
            let s := s.closeLoad w.tid w.p n.toNat
            let mode := (q.slot w.sl).mode
            let o := originOf w q i.word
            .done (s.modParty w.tid w.p fun q =>
              { q with
                warn := q.warn ||| when (scope == .pt) wFALLBK
                ports := Map.set q.ports n.toNat
                  { kind := if n.toNat < 2 then .load else .store, handle := hd, pos := 0, rnd := (fld mode 0 3).toNat,
                    sub := (fld mode 4 2).toNat, scope := copyScope scope, origin := o, groups := [],
                    unwritten := [], ended := false } })

/-- qclose (R209): a load port at once; a store port once every pushed element has been written, with a release at the
scope of its bind. -/
def execQclose (n : BitVec 2) (s : State) : Host.Outcome State Fault Refusal :=
  runTeam (.qclose n) s fun w t q s =>
    if q.storing n.toNat then .wait (s.modParty w.tid w.p fun q => q.endStore n.toNat) (.qclose n.toNat)
    else
      match Map.find q.ports n.toNat with
      | some p =>
        if p.kind = .store then
          match s.closeWait t.core w.tid w.p q n.toNat with
          | (_, some x) => .hold x
          | (s, none) => .done (s.modParty w.tid w.p fun q => { q with ports := Map.drop q.ports n.toNat })
        else .done (s.closeLoad w.tid w.p n.toNat)
      | none => .done s

/-- Writes the pushed elements of a store stream, in position order. -/
def State.writePushed (s : State) (tid : Nat) (p : Port) (xs : List (Nat × Word)) : State × Option Cause :=
  match xs with
  | [] => (s, none)
  | (k, x) :: rest =>
    match s.writeElem tid p.origin none p.handle (k / hCols p.handle) (k % hCols p.handle) (p.convert x).1 with
    | (s, some c) => (s, some c)
    | (s, none) => s.writePushed tid p rest

/-- Every pushed element of a store stream is written. A stream that takes no more is unbound once its writes are performed
and the release at the scope of its bind is made (R209). -/
def execStoreStreamDrained (tid p port : Nat) (s : State) : Host.Outcome State Fault Refusal :=
  match Map.find s.teams tid, s.party? tid p with
  | some t, some q =>
    match Map.find q.ports port with
    | some x =>
      if !t.running || x.kind != .store then .next s
      else
        match s.writePushed tid x x.unwritten with
        | (s, some c) => .next (s.laterFault tid x.origin c true true)
        | (s, none) =>
          let keep : State := s.modParty tid p fun q => { q with ports := Map.set q.ports port { x with unwritten := [] } }
          if !x.ended ∨ s.copyOutstanding tid x.origin then .next keep
          else
            match s.release t.core tid p { q with ports := Map.drop q.ports port } x.scope with
            | (_, some _) => .next keep
            | (s, none) => .next (s.modParty tid p fun q => { q with ports := Map.drop q.ports port })
    | none => .next s
  | _, _ => .next s

end Sys2Proof.Machine
end

