-- ==== Sys2Proof/Machine/System.lean ====
section
/-!
DEFINITION. The system instructions trap, rfe, tlbrng, wsld and hcall (R40 to R43, R58 to R60, R408 to R411), and the
steps in which tlbrng and wsld complete.
-/

namespace Sys2Proof.Machine

open Sys2Proof

def privInsn : Cause := protection 0x05

/-- trap: the fault is its effect (R408). -/
def execTrap (code : BitVec 12) (s : State) : Host.Outcome State Fault Refusal :=
  runParty (.trap code) s fun _ s => .fault s { cause := 0x14, info := code.setWidth 32 }

/-! ## hcall and rfe (R409 to R411) -/

def Hold.free : Hold := { gen := 0, held := none, reply := none }

/-- An entry of the hold tables, by 1024·die + entry. -/
def State.hold (s : State) (k : Nat) : Hold := (Map.find s.holds k).getD Hold.free

/-- The hold entry of a slot. -/
def State.holdOf (s : State) (w : Issuer) : Option Nat :=
  (s.holds.find? fun x => match x.2.held with
    | some (tid, p, sl, _) => tid == w.tid && p == w.p && sl == w.sl
    | none => false).map Prod.fst

/-- The first free entry of a die. -/
def State.freeHold (s : State) (die : Nat) : Option Nat :=
  (List.range' (1024 * die) 1024).find? fun k => (s.hold k).held.isNone

/-- The token of an entry: die, generation, entry. -/
def holdToken (k gen : Nat) : Word := BitVec.ofNat 32 (2 ^ 30 * (k / 1024) + 2 ^ 10 * (gen % 2 ^ 20) + k % 1024)

/-- Frees an entry: its generation rises (R411). -/
def State.freeEntry (s : State) (k : Nat) : State :=
  { s with holds := Map.set s.holds k { gen := ((s.hold k).gen + 1) % 2 ^ 20, held := none, reply := none } }

/-- Delivers the reply of an entry to its slot, and frees the entry. -/
def State.deliverReply (s : State) (k : Nat) (v : Word) : State :=
  match (s.hold k).held with
  | none => s
  | some (tid, p, sl, sd) =>
    (s.freeEntry k).modParty tid p fun q =>
      { q.setS sl sd v with pending := q.pending.filter fun x => !(x.kind == 1 && x.num == sd) }

/-- hcall: the request leaves and the slot waits; issued again, it is done once its entry has been freed. -/
def execHcall (d a : SReg) (b : SOp) (s : State) : Host.Outcome State Fault Refusal :=
  runTeam (.hcall d a b) s fun w t q s =>
    match (q.slot w.sl).wait with
    | .hcall 0 => if (s.holdOf w).isSome then .hold (.hcall 0) else .done s
    | _ =>
      match s.release t.core w.tid w.p q .sy with
      | (_, some x) => .hold x
      | (s, none) =>
        if (s.holdOf w).isSome then .fault s illegalInstruction
        else
          match s.freeHold t.die with
          | none => .hold (.hcall 1)
          | some k =>
            let h := s.hold k
            let ident : Word := match Map.find s.runs t.run with | some r => r.ident | none => 0
            let words := [q.getS w.sl a.toNat, q.bS w.sl b, holdToken k h.gen, t.teamNo, BitVec.ofNat 32 t.node, ident]
            let (id, s) := s.fresh
            let s := { s with
              holds := Map.set s.holds k { h with held := some (w.tid, w.p, w.sl, d.toNat) }
              sent := s.sent ++ [Reply.hcall words] }
            .wait (s.modParty w.tid w.p fun q =>
              if d = 0 then q
              else { q with pending := q.pending ++ [({ kind := 1, num := d.toNat, op := id } : Pending)] }) (.hcall 0)

/-- rfe (R410): a reply for a saved team is kept in the entry (R411). -/
def execRfe (d a : SReg) (b : SOp) (s : State) : Host.Outcome State Fault Refusal :=
  runTeam (.rfe d a b) s fun w t q s =>
    if !s.privileged t then .fault s privInsn
    else
      match s.release t.core w.tid w.p q .sy with
      | (_, some x) => .hold x
      | (s, none) =>
        let x := q.getS w.sl a.toNat
        let v := q.bS w.sl b
        let k := 1024 * (fld x 30 2).toNat + (fld x 0 10).toNat
        let h := s.hold k
        let put (s : State) (r : Word) : Effect := .done (s.modParty w.tid w.p fun q => q.setS w.sl d.toNat r)
        match h.held with
        | none => put s 0
        | some (tid, _) =>
          if h.gen ≠ (fld x 10 20).toNat ∨ h.reply.isSome then put s 0
          else if ((Map.find s.teams tid).any fun u => u.state == .saving || u.state == .saved) then
            put { s with holds := Map.set s.holds k { h with reply := some v } } 1
          else put (s.deliverReply k v) 1

/-! ## tlbrng (R40 to R43) -/

/-- The start address that a pair names: VA[56:0]. -/
def Party.pairVa (q : Party) (sl : Bool) (a : SReg) : Nat := (q.pairS sl a.toNat).toNat % 2 ^ 57

/-- A cached translation that an invalidation of [lo, hi) of a tag removes. -/
def TlbEntry.hit (e : TlbEntry) (tag : BitVec 16) (lo hi : Nat) : Bool :=
  e.tag == tag && decide (e.base < hi ∧ lo < e.base + e.size)

/-- The misses of a tag in a range that had found their translation in the die's last level walk from the root. A walk in
flight reads its table entries when it completes, so that it needs no restart. -/
def State.restartWalks (s : State) (tag : BitVec 16) (lo hi : Nat) : State :=
  (s.walks.filter fun w => w.at_ == .dieHit && w.tag == tag && decide (w.base < hi ∧ lo < w.base + w.size)).foldl
    (fun s w => { s with walks := s.walks.map fun x =>
      if x.id = w.id then { x with at_ := s.placeWalk w.die w.tag w.base } else x }) s

/-- Removes translations from every level of every die; answers how many there were. -/
def State.dropTlb (s : State) (tag : BitVec 16) (lo hi : Nat) : State × Nat :=
  let cut (m : Map (List TlbEntry)) : Map (List TlbEntry) :=
    Map.mapVals m fun _ es => es.filter fun e => !TlbEntry.hit e tag lo hi
  let count (m : Map (List TlbEntry)) : Nat := (m.map fun x => (x.2.filter fun e => TlbEntry.hit e tag lo hi).length).sum
  (({ s with tlbCore := cut s.tlbCore, tlbCluster := cut s.tlbCluster, tlbDie := cut s.tlbDie } : State).restartWalks tag
      lo hi,
    count s.tlbCore + count s.tlbCluster + count s.tlbDie)

/-- Accesses, reductions and memory requests of a context tag that have issued and are not performed. -/
def State.usesOf (s : State) (tag : BitVec 16) : List Nat :=
  let mine := s.teams.filter fun t => s.tagOf t.2 == tag
  (mine.flatMap fun t => t.2.parties.flatMap fun q => q.2.accesses.map Access.id) ++
    ((s.reductions.filter fun e => mine.any fun t => e.owners.any fun x => x.1 == t.1).map RedEntry.id) ++
    (s.outstanding.filter fun o =>
      o.tag == tag &&
        match o.req.op with
        | .emission .. | .resolve .. | .register .. | .joinRead _ => false
        | _ => true).map Outstanding.id

/-- Begins an invalidation. -/
def State.invalidate (s : State) (tag : BitVec 16) (lo hi : Nat) (dest : Option (Nat × Nat × Nat)) (queue : Nat) :
    State × Nat :=
  let (s, n) := s.dropTlb tag lo hi
  let (id, s) := s.fresh
  ({ s with invals := s.invals ++
      [{ id := id, tag := tag, removed := n, awaits := s.usesOf tag, dest := dest, queue := queue }] }, id)

/-- A register that an operation of its own will write. -/
def State.pendScalar (s : State) (tid p sd op : Nat) : State :=
  if sd = 0 then s
  else s.modParty tid p fun q => { q with pending := q.pending ++ [({ kind := 1, num := sd, op := op } : Pending)] }

/-- The status register of such an operation is written. -/
def State.writeStatus (s : State) (dest : Nat × Nat × Nat) (op : Nat) (v : Word) : State :=
  s.modParty dest.1 dest.2.1 fun q =>
    { q.setS false dest.2.2 v with pending := q.pending.filter fun x => x.op != op }

def execTlbrng (d a b : SReg) (s : State) : Host.Outcome State Fault Refusal :=
  runTeam (.tlbrng d a b) s fun w t q s =>
    if !s.privileged t then .fault s privInsn
    else
      let start := q.pairVa w.sl a
      let n := (q.getS w.sl b.toNat).toNat
      let tag : BitVec 16 := (q.getS w.sl (b.toNat + 1)).setWidth 16
      if start % 65536 ≠ 0 then .fault s { cause := 0x05, addr := some start }
      else
        let (lo, hi) := if n = 0 then (0, 2 ^ 57) else (start, min (start + n * 65536) (2 ^ 57))
        let (s, id) := s.invalidate tag lo hi (some (w.tid, w.p, d.toNat)) 0
        .done (s.pendScalar w.tid w.p d.toNat id)

/-- An access or request of a list is still outstanding. -/
def State.stillUses (s : State) (ids : List Nat) : Bool :=
  (s.teams.any fun t => t.2.parties.any fun q => q.2.accesses.any fun a => ids.contains a.id) ||
    (s.reductions.any fun e => ids.contains e.id) || s.outstanding.any fun o => ids.contains o.id

/-- An invalidation completes once every access that used a removed translation has been performed (R42, R43): stores
that write-combining buffers hold drain first, and reductions that a queue holds are applied. -/
def execTlbrngDone (id : Nat) (s : State) : Host.Outcome State Fault Refusal :=
  match s.invals.find? fun x => x.id == id with
  | none => .next s
  | some v =>
    let s := (s.drainEvery fun _ => true).applyReductions fun e => v.awaits.contains e.id
    if s.stillUses v.awaits ∨ !s.wcb.isEmpty ∨ !s.heldStores.isEmpty then .next s
    else
      let s := { s with invals := s.invals.filter fun x => x.id != id }
      match v.dest with
      | some dest => .next (s.writeStatus dest id (0x80000000 ||| BitVec.ofNat 32 (min v.removed 0xFFFFFF)))
      | none =>
        let more : Bool := s.invals.any fun x => x.dest.isNone && x.queue == v.queue
        .next { s with queues := Map.update s.queues v.queue fun q => { q with invdone := !more } }

/-! ## The weight store: wsld (R58 to R60) -/

/-- A bank of a die is sealed (R58): a run of the owning function that a non-privileged queue launched has seeded there
and has not completed. -/
def State.sealed (s : State) (die bank : Nat) : Bool :=
  s.runs.any fun r =>
    !r.2.privileged && (r.2.state == .active || r.2.state == .fatal) && r.2.seeded.contains die &&
      r.2.fn == (Store.read s.bankFn (64 * die + bank)).toNat

/-- Banks that a run of 256-byte units touches (R57). -/
def banksOf (unit n : Nat) : List Nat := if 64 ≤ n then List.range 64 else (List.range n).map fun k => (unit + k) % 64

/-- Physical address of an offset in a die's weight store. -/
def weightPa (die off : Nat) : Nat := 0x10000000000 + 2 ^ 31 * die + off

/-- Writes a 64-byte sector of the weight store; a poisoned source poisons it. -/
def State.putSector (s : State) (pa : Nat) (bs : List Byte) (bad : Bool) : State :=
  let s := { s with mem := writeBytes s.mem (withAddr pa bs) }
  { s with poison := (if bad then [pa / 64] else []) ++ s.poison.filter (· != pa / 64) }

/-- Copies `n` sectors from a virtual address to a physical address; stops at a source that faults. The Bool says that
a source sector was poisoned. -/
def State.copySectors (s : State) (core : Option Nat) (tag : BitVec 16) (priv : Bool) (va pa n : Nat) : State × Except Cause Bool :=
  match n with
  | 0 => (s, .ok false)
  | k + 1 =>
    match s.engineRead core tag priv va 64 with
    | (s, .error c) => (s, .error c)
    | (s, .ok (bs, bad)) =>
      match (s.putSector pa bs bad).copySectors core tag priv (va + 64) (pa + 64) k with
      | (s, .error c) => (s, .error c)
      | (s, .ok b) => (s, .ok (bad || b))

/-- wsld: the whole copy is made at its issue; it stays in flight until its invalidations are done (WSLD_COMPLETE). -/
def execWsld (d a b : SReg) (s : State) : Host.Outcome State Fault Refusal :=
  runTeam (.wsld d a b) s fun w t q s =>
    if !s.privileged t then .fault s privInsn
    else
      let src := q.pairVa w.sl a
      let x := q.getS w.sl b.toNat
      let die := (fld x 23 2).toNat
      let unit := (fld x 0 23).toNat
      let n := (fld (q.getS w.sl (b.toNat + 1)) 0 24).toNat
      if src % 256 ≠ 0 then .fault s { cause := 0x05, addr := some src }
      else if n = 0 ∨ 2 ^ 23 < unit + n then .fault s (protection 0x06)
      else if (banksOf unit n).any (s.sealed die) then .fault s { cause := 0x08 }
      else
        match s.copySectors (some t.core) (s.tagOf t) true (sext57 src) (weightPa die (256 * unit)) (4 * n) with
        | (s, .error c) => .fault s c
        | (s, .ok bad) =>
          let (id, s) := s.fresh
          let s := { s with wsCopies := s.wsCopies ++
            [({ id := id, dest := some (w.tid, w.p, d.toNat), queue := 0, packet := 0, die := die, off := unit, len := n,
                poison := bad } : WsCopy)] }
          .done (s.pendScalar w.tid w.p d.toNat id)

/-- The status word of wsld (R60). -/
def execWsldComplete (id : Nat) (s : State) : Host.Outcome State Fault Refusal :=
  match s.wsCopies.find? fun c => c.id == id with
  | none => .next s
  | some c =>
    match c.dest with
    | none => .next s
    | some dest =>
      .next (({ s with wsCopies := s.wsCopies.filter fun x => x.id != id } : State).writeStatus dest id
        (0x80000000 ||| when c.poison 0x40000000))

end Sys2Proof.Machine
end

