-- ==== Sys2Proof/Machine/Issue.lean ====
section
/-!
DEFINITION. Fetching, the checks of a clause, WAIT conditions (R154 to R158), the issue choice of a track (R388, R389), and
the steps of issue.
-/

namespace Sys2Proof.Machine

open Sys2Proof

/-! ## Fetching (R154, R371) -/

/-- Fetches one word of a team's text (R28, R154). -/
def State.fetchWord (s : State) (t : Team) (pc : Word) : State × Except Cause Word :=
  let base := match Map.find s.runs t.run with | some r => r.image.textVa | none => 0
  match s.translate t.core (s.tagOf t) (s.privileged t) .fetch (BitVec.ofNat 64 (base + pc.toNat)) with
  | (s, .error c) => (s, .error c)
  | (s, .ok g) =>
    let (s, b0) := s.engineByte (some t.core) g (base + pc.toNat)
    let (s, b1) := s.engineByte (some t.core) { g with pa := g.pa + 1 } (base + pc.toNat + 1)
    let (s, b2) := s.engineByte (some t.core) { g with pa := g.pa + 2 } (base + pc.toNat + 2)
    let (s, b3) := s.engineByte (some t.core) { g with pa := g.pa + 3 } (base + pc.toNat + 3)
    (s, .ok (b3 ++ b2 ++ b1 ++ b0))

/-- Fetches `n` words. -/
def State.fetchWords (s : State) (t : Team) (pc : Word) (n : Nat) : State × Except Cause (List Word) :=
  match n with
  | 0 => (s, .ok [])
  | n + 1 =>
    match s.fetchWord t pc with
    | (s, .error c) => (s, .error c)
    | (s, .ok w) =>
      match s.fetchWords t (pc + 4) n with
      | (s, .error c) => (s, .error c)
      | (s, .ok ws) => (s, .ok (w :: ws))

/-- Bytes of the text segment. -/
def State.textSize (s : State) (t : Team) : Nat :=
  match Map.find s.runs t.run with
  | some r => r.image.textSize
  | none => 0

/-! ## The checks of a clause (R155, R156) -/

def hdrCls (h : Word) : Nat := (fld h 4 3).toNat
def hdrCount (h : Word) : Nat := (fld h 0 4).toNat
def hdrWait (h : Word) : BitVec 8 := fld h 8 8

/-- The rows of R156 that the header alone decides. -/
def badHeader (h : Word) : Bool :=
  let w := hdrWait h
  fld h 24 8 != 0xC1 || fld h 16 8 != 0 || h.getLsbD 7 || hdrCount h == 0 || decide (6 ≤ hdrCls h) ||
    w.getLsbD 7 || (w.getLsbD 5 && hdrCls h != 4) || (hdrCls h == 4 && (w &&& 0x4F) != 0)

/-- The rows of R156 on the words: literals past the end, or an instruction that must stand last elsewhere. -/
def badWords (ws : List Word) (skip : Nat) : Bool :=
  match ws, skip with
  | [], k => decide (0 < k)
  | _ :: t, k + 1 => badWords t k
  | w :: t, 0 => (standsLast w && decide (literalCount w < t.length)) || badWords t (literalCount w)

/-- What a clause boundary finds. -/
inductive Checked where
  /-- The clause, its header and its words pass. -/
  | ok (h : Word)
  /-- A fault at the header, with its word; a fetch is deferred. -/
  | fault (c : Cause) (word : Word) (deferred : Bool)
deriving DecidableEq, Repr

/-- Checks the clause at a text offset (R156, R371). No word was fetched for a target that cannot be one. DESIGN CHOICE: a clause
that meets several rows of R156 takes an illegal header before the illegal class; R156 gives its rows no order (log entry 78). -/
def State.checkClause (s : State) (t : Team) (seq : Bool) (pc : Word) : State × Checked :=
  let none_ (c : Cause) (d : Bool) (s : State) : State × Checked := (s.useFree, .fault c (Config.faultWord s.free) d)
  if pc.toNat % 4 ≠ 0 ∨ s.textSize t ≤ pc.toNat then none_ illegalHeader false s
  else
    match s.fetchWord t pc with
    | (s, .error c) => none_ c true s
    | (s, .ok h) =>
      if badHeader h then (s, .fault illegalHeader h false)
      else
        match s.fetchWords t (pc + 4) (hdrCount h) with
        | (s, .error c) => (s, .fault c h true)
        | (s, .ok ws) =>
          if badWords ws 0 then (s, .fault illegalHeader h false)
          else if (hdrCls h == 4) != seq then (s, .fault illegalClass h false)
          else (s, .ok h)

/-- The clause that a header at an offset opens. -/
def clauseOf (pc h : Word) : Clause :=
  { addr := pc, stop := pc + BitVec.ofNat 32 (4 * (hdrCount h + 1)), cls := hdrCls h }

/-! ## WAIT (R157) -/

/-- Conditions W0 to W6 of a party; W5 is none of a party's. -/
def State.waitsMet (s : State) (t : Team) (tid p : Nat) (q : Party) (n : Nat) : Bool :=
  match n with
  | 0 => !q.accesses.any fun a => a.kind == .vsts
  | 1 =>
    (!q.accesses.any fun a => a.kind == .vsts || a.kind == .vatom || a.kind == .satom) && q.remote.isEmpty &&
      (!(s.wcbOf t.core).any fun e => e.owners.contains (tid, p)) &&
      (!s.heldStores.any fun h => h.owners.contains (tid, p)) &&
      !s.reductions.any fun e => e.owners.contains (tid, p)
  | 2 => !t.channels.any fun c => c.2.cmds.any fun x => x.origin.party == some p
  | 3 =>
    (!s.stalled.any fun e => e.tid == tid && e.party == p) &&
      (!s.ne.any fun c => c.2.any fun x =>
        x.tid == tid && x.origin.party == some p && x.port.isNone && x.ended.isNone && gridOvf x.desc != 0xFFFF) &&
      !s.outstanding.any fun o => o.tid == tid && o.party == some p &&
        match o.req.op with
        | .emission .. | .register .. => true
        | _ => false
  | 4 => s.openWindow.isNone
  | 6 => q.tstart == 0 || decide (q.tstart.toNat ≤ s.tbase.toNat)
  | _ => true

/-- Conditions of a sequencer. -/
def State.seqWaitsMet (s : State) (q : Sequencer) (n : Nat) : Bool :=
  match n with
  | 4 => s.openWindow.isNone
  | 5 => q.ops.isEmpty
  | _ => true

/-- The W bits of a mask that do not hold. -/
def unmet (w : BitVec 8) (holds : Nat → Bool) : BitVec 8 :=
  (List.range 8).foldl (fun m n => if w.getLsbD n && !holds n then m ||| (1#8 <<< n) else m) 0

/-- A W1 wait drains the core's write-combining buffer and applies the party's reductions (R53, R319). -/
def State.beginW1 (s : State) (core tid p : Nat) : State :=
  (s.applyReductions fun e => e.owners.contains (tid, p)).drain core fun _ => true

/-! ## CLAUSE_ISSUE -/

/-- The place of a fault at a clause's header. -/
def headerOrigin (pc word : Word) (party : Option Nat) (sl : Bool) : Origin :=
  { pc := pc, clause := pc, word := word, party := party, slot := sl }

/-- A path at a clause boundary: the clause is checked, its WAIT conditions hold or the slot waits, and the path enters the
clause. -/
def State.enterClause (s : State) (w : Issuer) (t : Team) (q : Party) : State :=
  let pc := (q.slot w.sl).pc
  match s.checkClause t false pc with
  | (s, .fault c word d) =>
    s.takeFault w.tid (headerOrigin pc word (some w.p) w.sl) c d false (q.slot (!w.sl)).wait
  | (s, .ok h) =>
    let s := if (hdrWait h).getLsbD 1 then s.beginW1 t.core w.tid w.p else s
    let u := unmet (hdrWait h) (s.waitsMet t w.tid w.p q)
    s.modParty w.tid w.p fun q => q.modSlot w.sl fun x =>
      if u = 0 then { x with pc := pc + 4, clause := some (clauseOf pc h), wait := .none }
      else { x with wait := .clause u }

/-- The same for a sequencer. -/
def State.enterSeq (s : State) (tid : Nat) (t : Team) (q : Sequencer) : State :=
  match s.checkClause t true q.pc with
  | (s, .fault c word d) => s.takeFault tid (headerOrigin q.pc word none false) c d false .none
  | (s, .ok h) =>
    let u := unmet (hdrWait h) (s.seqWaitsMet q)
    s.modSeq tid fun q =>
      if u = 0 then { q with pc := q.pc + 4, clause := some (clauseOf q.pc h), wait := .none }
      else { q with wait := .clause u }

def execClauseIssue (w : Who) (s : State) : Host.Outcome State Fault Refusal :=
  match w with
  | .party tid p sl =>
    match Map.find s.teams tid with
    | none => .next s
    | some t =>
      match Map.find t.parties p with
      | none => .next s
      | some q =>
        if t.running && (q.slot sl).live && (q.slot sl).clause.isNone then .next (s.enterClause ⟨tid, p, sl⟩ t q)
        else .next s
  | .seq tid =>
    match Map.find s.teams tid with
    | none => .next s
    | some t =>
      match t.seq with
      | none => .next s
      | some q => if t.running && !q.stopped && q.clause.isNone then .next (s.enterSeq tid t q) else .next s

/-! ## The instruction at a program counter -/

/-- What an issuer issues next. -/
inductive Fetched where
  /-- Nothing: no path, a stopped team, a gated core. -/
  | idle
  | faulted (s : State)
  | go (s : State) (i : Instr)
deriving DecidableEq, Repr

/-- The words from a program counter up to the end of the clause, at most the four that an instruction can have. -/
def wordsLeft (pc : Word) (c : Clause) : Nat := min 4 ((c.stop - pc).toNat / 4)

/-- The core's tracks are gated (R419). -/
def State.isGated (s : State) (core : Nat) : Bool := Store.read s.gated core != 0

/-- Reads the next instruction of a PC slot: its words are fetched and decoded, and its class is checked (R163, R171). -/
def State.fetchParty (s : State) (w : Issuer) (t : Team) (q : Party) : Fetched :=
  let x := q.slot w.sl
  if !t.running || !x.live || q.yielded || s.isGated t.core then .idle
  else
    match x.clause with
    | none => .go s (.clauseIssue (.party w.tid w.p w.sl))
    | some c =>
      match s.fetchWords t x.pc (wordsLeft x.pc c) with
      | (s, .error e) =>
        .faulted ((s.takeFault w.tid (headerOrigin c.addr (Config.faultWord s.free) (some w.p) w.sl) e true false
          (q.slot (!w.sl)).wait).useFree)
      | (s, .ok ws) =>
        let word := ws.headD 0
        match decode word ws.tail with
        | .error _ => .faulted (s.faultAt w q word illegalInstruction)
        | .ok i => if i.cls = c.cls then .go s i else .faulted (s.faultAt w q word illegalClass)

/-- Reads the next instruction of a sequencer. -/
def State.fetchSeq (s : State) (tid : Nat) (t : Team) (q : Sequencer) : Fetched :=
  if !t.running || q.stopped then .idle
  else
    match q.clause with
    | none => .go s (.clauseIssue (.seq tid))
    | some c =>
      match s.fetchWords t q.pc (wordsLeft q.pc c) with
      | (s, .error e) =>
        .faulted ((s.takeFault tid (headerOrigin c.addr (Config.faultWord s.free) none false) e true false .none).useFree)
      | (s, .ok ws) =>
        let word := ws.headD 0
        match decode word ws.tail with
        | .error _ => .faulted (s.takeFault tid (seqOrigin q word) illegalInstruction false false .none)
        | .ok i =>
          if i.cls = c.cls then .go s i else .faulted (s.takeFault tid (seqOrigin q word) illegalClass false false .none)

/-- Reads what an issuer issues next; the issuer becomes `cur`. -/
def State.fetch (s : State) (w : Who) : Fetched :=
  match w with
  | .party tid p sl =>
    match Map.find s.teams tid with
    | some t =>
      match Map.find t.parties p with
      | some q => ({ s with cur := some w } : State).fetchParty ⟨tid, p, sl⟩ t q
      | none => .idle
    | none => .idle
  | .seq tid =>
    match Map.find s.teams tid with
    | some t =>
      match t.seq with
      | some q => ({ s with cur := some w } : State).fetchSeq tid t q
      | none => .idle
    | none => .idle

/-! ## What issuing leaves behind -/

/-- What an issuer waits on. -/
def State.waitBy (s : State) (w : Who) : Wait :=
  match w with
  | .party tid p sl => match s.party? tid p with | some q => (q.slot sl).wait | none => .none
  | .seq tid => match (Map.find s.teams tid).bind Team.seq with | some q => q.wait | none => .none

/-- Between two waits of an issuer an instruction has issued: it is done, or has begun and now waits with part of it done. -/
def issuesBetween (before after : Wait) : Bool := after == .none || (after.begun && !before.begun)

/-- After an instruction has issued, with its issuer's wait before it: what the issuer had waited for is received, and the
core's idle time restarts (R419); of a party, its residency timer restarts (R420), its starvation count is 0 (R389), and the
other parties of the track that yielded are ready again (R377). -/
def State.issued (s : State) (w : Who) (before : Wait) : State :=
  let s := if s.waitBy w = .none then s.received w else s
  if !issuesBetween before (s.waitBy w) then s
  else
    match w with
    | .seq tid =>
      match Map.find s.teams tid with
      | none => s
      | some t => { s with coreLast := Store.write s.coreLast t.core s.clk }
    | .party tid p _ =>
      match Map.find s.teams tid with
      | none => s
      | some t =>
        let track := match Map.find t.parties p with | some q => q.track | none => 0
        let s := { s with
          coreLast := Store.write s.coreLast t.core s.clk
          teams := Map.mapVals s.teams fun k u =>
            if u.core ≠ t.core then u
            else { u with parties := Map.mapVals u.parties fun j q =>
                     if q.track = track ∧ ¬(k = tid ∧ j = p) then { q with yielded := false } else q } }
        s.modParty tid p fun q => { q with lastIssue := s.clk.toNat, hangSent := false, starve := 0 }

/-! ## The issue choice of a track (R388, R389) -/

/-- A party of a track, with what the choice looks at. -/
structure Contender where
  tid : Nat
  p : Nat
  prio : Nat
  stamp : Nat
  starved : Bool
  /-- Its ready slot of smaller age. -/
  sl : Bool
deriving DecidableEq, Repr

/-- The first of two contenders in the order of R389. -/
def Contender.before (a b : Contender) : Bool :=
  if a.starved != b.starved then a.starved
  else if a.prio ≠ b.prio then decide (b.prio < a.prio)
  else if a.stamp ≠ b.stamp then decide (a.stamp < b.stamp)
  else decide (a.p < b.p)

/-- The slots of a party that hold a path, the smaller age first. -/
def Party.paths (q : Party) : List Bool :=
  (if q.slot1.live && (!q.slot0.live || decide (q.slot1.age < q.slot0.age)) then [true, false] else [false, true]).filter
    fun b => (q.slot b).live

/-- The parties of a track. -/
def State.trackParties (s : State) (core track : Nat) : List (Nat × Nat × Team × Party) :=
  s.teams.flatMap fun t =>
    if t.2.core = core ∧ t.2.running then
      (t.2.parties.filter fun q => q.2.track == track && !q.2.yielded && !q.2.retired).map fun q => (t.1, q.1, t.2, q.2)
    else []

/-- An issuer is ready (R388): its next instruction would issue now. -/
def readyBy (run : Who → State → Host.Outcome State Fault Refusal) (s : State) (w : Who) : Bool :=
  s.fetch w != .idle &&
    match run w s with
    | .next s' => issuesBetween (s.waitBy w) (s'.waitBy w)
    | _ => false

/-- The contenders of a track: its parties that are ready on some slot. -/
def State.contenders (s : State) (run : Who → State → Host.Outcome State Fault Refusal) (core track : Nat) :
    List Contender :=
  (s.trackParties core track).filterMap fun x =>
    (x.2.2.2.paths.find? fun sl => readyBy run s (.party x.1 x.2.1 sl)).map fun sl =>
      { tid := x.1, p := x.2.1, prio := s.prioOf x.2.2.1, stamp := x.2.2.1.stamp.toNat,
        starved := decide (1024 ≤ x.2.2.2.starve), sl := sl }

/-- The first of some contenders in the order of R389. -/
def firstOf (c : Contender) (rest : List Contender) : Contender := rest.foldl (fun a b => if Contender.before b a then b else a) c

/-- One issue cycle of a track: the chosen party issues and the other ready parties' starvation counts rise; when none is
ready, every slot records what it waits on. -/
def State.trackCycle (s : State) (run : Who → State → Host.Outcome State Fault Refusal) (core track : Nat) :
    Host.Outcome State Fault Refusal :=
  let cs := s.contenders run core track
  match cs with
  | [] =>
    (s.trackParties core track).foldl (fun o x =>
      x.2.2.2.paths.foldl (fun o sl =>
        match o with
        | .next s => run (.party x.1 x.2.1 sl) s
        | e => e) o) (.next s)
  | c :: rest =>
    let best := firstOf c rest
    let s := (cs.filter fun x => x != best).foldl (fun s x =>
      s.modParty x.tid x.p fun q => { q with starve := q.starve + 1 }) s
    run (.party best.tid best.p best.sl) s

/-- The slot is its track's only path. -/
def State.alone (s : State) (core : Nat) (q : Party) (tid p : Nat) (sl : Bool) : Bool :=
  (q.paths == [sl]) && (s.trackParties core q.track).all fun x => x.1 == tid && x.2.1 == p

/-- An issue of a named issuer: a sequencer's, or an issue cycle of a party's track. Where another path of the track is ready
and chosen (R388, R389), the party does not issue; one that is not ready records what it waits on. -/
def State.issueTurn (s : State) (run : Who → State → Host.Outcome State Fault Refusal) (w : Who) :
    Host.Outcome State Fault Refusal :=
  match w with
  | .seq _ => run w s
  | .party tid p sl =>
    match Map.find s.teams tid, s.party? tid p with
    | some t, some q =>
      if s.alone t.core q tid p sl || !readyBy run s w then run w s
      else
        match s.contenders run t.core q.track with
        | [] => run w s
        | c :: rest =>
          let best := firstOf c rest
          if best.tid = tid ∧ best.p = p ∧ best.sl = sl then s.trackCycle run t.core q.track else .next s
    | _, _ => run w s

/-- Another party of a party's track is ready (R388). -/
def State.otherReady (s : State) (run : Who → State → Host.Outcome State Fault Refusal) (tid p : Nat) : Bool :=
  match Map.find s.teams tid, s.party? tid p with
  | some t, some q =>
    (s.trackParties t.core q.track).any fun x =>
      !(x.1 == tid && x.2.1 == p) && x.2.2.2.paths.any fun sl => readyBy run s (.party x.1 x.2.1 sl)
  | _, _ => false

/-! ## Events of issue -/

/-- The state with a turn to come next. -/
def State.nextTurn (s : State) (a : Act) : State := { s with agenda := { dclk := 0, dtb := 0, act := a } :: s.agenda }

/-- A party's starvation count has reached 1,024: the next issue cycle of its track chooses a ready party whose count has, by
steps 1 to 3 (R389). -/
def execStarvationPromote (tid p : Nat) (s : State) : Host.Outcome State Fault Refusal :=
  match Map.find s.teams tid, s.party? tid p with
  | some t, some q => .next (if q.starve < 1024 ∨ q.yielded then s else s.nextTurn (.track t.core q.track))
  | _, _ => .next s

/-- 16 cycles of a yield have passed: the party is ready again if no other party of the track is (R377). -/
def execYieldTimeout (tid p : Nat) (s : State) : Host.Outcome State Fault Refusal :=
  match s.party? tid p with
  | some q => .next (if q.yielded ∧ q.lastIssue + 16 ≤ s.clk.toNat then s.nextTurn (.wake tid p) else s)
  | none => .next s

/-- The end of a party's yield, unless another party of the track is ready (R377, R388). -/
def State.wake (s : State) (run : Who → State → Host.Outcome State Fault Refusal) (tid p : Nat) : State :=
  if s.otherReady run tid p then s else s.modParty tid p fun q => { q with yielded := false }

/-- The core runs again if a party of it would then be ready (R388, R419). -/
def State.rouse (s : State) (run : Who → State → Host.Outcome State Fault Refusal) (core : Nat) : State :=
  let woken : State := { s with gated := Store.write s.gated core 0 }
  if ([0, 1, 2, 3] : List Nat).any fun k => !(woken.contenders run core k).isEmpty then woken else s

/-! ## Run-ahead (R152, R153) -/

/-- A step that is no instruction of a party or a sequencer: it has no words. -/
def isEvent (i : Instr) : Bool := (encode i).isEmpty

/-- A prefetch as pref .ca makes it: of caches the model holds the translations. One that must wait, or would fault, leaves
nothing. -/
def State.prefetch (s : State) (t : Team) (a : DWord) : State :=
  let s' := (s.translate t.core (s.tagOf t) (s.privileged t) .load a).1
  if s'.stuck then s else s'

/-- The addresses that a load or store computes. None of pref, fence, cclean and cinval is issued from run-ahead (R198). -/
def aheadAddresses (i : Instr) (q : Party) (sl : Bool) : List DWord :=
  match i with
  | .vld _ a b _ _ _ | .vldg _ a b _ _ _ | .vldgPart _ a b _ _ _ _ | .vst _ a b _ _ _ | .vsts _ a b _ _ _ =>
    (q.eaLanes sl a b).map Prod.snd
  | .sld _ a b _ _ _ | .sst _ a b _ _ _ => [q.eaS sl a b]
  | _ => []

/-- Control flow. -/
def isFlow (i : Instr) : Bool :=
  match i with
  | .br _ | .bc .. | .bdiv .. | .call _ | .ret | .jmpi _ | .join | .exit => true
  | _ => false

/-- Instructions that run-ahead only decodes: what they do is none of a register's, or R153 names it. -/
def aheadSkips (i : Instr) : Bool :=
  match i with
  | .vld .. | .vldg .. | .vldgPart .. | .vst .. | .vsts .. | .sld .. | .sst .. | .cvld .. | .cvst .. | .ald .. | .ast ..
  | .pref .. | .fence .. | .cclean .. | .cinval .. | .vatom .. | .vredm .. | .lredm .. | .satom .. | .cpy .. | .cpg .. | .cps ..
  | .cpm .. | .cpwpRead .. | .cpwpWait .. | .cpwpAck .. | .cpwpRecv .. | .cpcan .. | .qbind .. | .qclose .. | .cvopen ..
  | .cvclose .. | .cvstat .. | .ssint .. | .ssmerge .. | .ssscan .. | .spx .. | .nbbin .. | .nbpairs .. | .nbstat .. | .emit ..
  | .emitr .. | .rdone .. | .futnew .. | .futreg .. | .futres .. | .futst .. | .dget .. | .barArrive .. | .barWait ..
  | .barSync .. | .trap .. | .rfe .. | .hcall .. | .tlbrng .. | .wsld .. | .yield => true
  | _ => isEvent i

/-- What run-ahead does with its next instruction. `x` is the state as run-ahead computes it, of which nothing stays; `s` takes
the translations that it fills; `unknown` lists the registers, by kind and number, whose value depends on missing data: 9 stands
for the local store. None where run-ahead stops (R152). -/
def State.aheadOne (run : Instr → State → Host.Outcome State Fault Refusal) (w : Issuer)
    (a : State × State × List (Nat × Nat)) : Option (State × State × List (Nat × Nat)) :=
  let (s, x, unknown) := a
  match x.site w with
  | none => none
  | some (t, q) =>
    let sl := q.slot w.sl
    if !sl.live then none
    else
      match sl.clause with
      | none =>
        match s.checkClause t false sl.pc with
        | (_, .fault ..) => none
        | (s, .ok h) =>
          if s.stuck || hdrWait h != 0 then none
          else
            some (s, x.modParty w.tid w.p fun q => q.modSlot w.sl fun y =>
              { y with pc := sl.pc + 4, clause := some (clauseOf sl.pc h) }, unknown)
      | some c =>
        match s.fetchWords t sl.pc (wordsLeft sl.pc c) with
        | (_, .error _) => none
        | (s, .ok ws) =>
          match decode (ws.headD 0) ws.tail with
          | .error _ => none
          | .ok i =>
            let o := operands i
            let lanes : Bool := !(o.reads ++ o.inner ++ o.writes).isEmpty
            let masks : List (Nat × Nat) := [(1, 61), (1, 62), (1, 63)]
            let sources := (o.reads ++ o.inner).map (fun r => (0, r)) ++ o.sreads.map (fun r => (1, r)) ++
              (if lanes || i matches .bdiv .. || i matches .join then masks else []) ++ (if i matches .lld .. then [(9, 0)] else [])
            let dests := o.writes.map (fun r => (0, r)) ++ o.swrites.map (fun r => (1, r)) ++
              if i matches .lst .. then [(9, 0)] else []
            let known : Bool := !(sources.any unknown.contains || (o.reads ++ o.inner ++ o.writes).any q.isPort)
            let s := if known then (aheadAddresses i q w.sl).foldl (fun s v => s.prefetch t v) s else s
            let skip (x : State) : Option (State × State × List (Nat × Nat)) :=
              some (s, x.modParty w.tid w.p fun q => q.advance w.sl i.size, unknown ++ dests)
            if s.stuck || i.cls != c.cls then none
            else if aheadSkips i || (!known && !isFlow i) then skip x
            else if !known then none
            else
              match run i x with
              | .next y =>
                if y.stuck || (Map.find y.teams w.tid).all (fun u => u.fault.isSome) || y.waitBy w.who != .none then
                  if isFlow i then none else skip x
                else some (s, y, unknown.filter fun r => !dests.contains r)
              | _ => none

/-- Run-ahead over at most `n` instructions. -/
def State.aheadFrom (run : Instr → State → Host.Outcome State Fault Refusal) (w : Issuer) (a : State × State × List (Nat × Nat))
    (n : Nat) : State :=
  match n with
  | 0 => a.1
  | n + 1 =>
    match State.aheadOne run w a with
    | none => a.1
    | some b => State.aheadFrom run w b n

/-- A slot waits for a register that a load or gather has yet to write. -/
def Party.waitsForLoad (q : Party) (sl : Bool) : Bool :=
  match (q.slot sl).wait with
  | .scoreboard k n =>
    q.pending.any fun x => x.kind == k && x.num == n && q.accesses.any fun a =>
      a.id == x.op && (a.kind == .vld || a.kind == .vldg || a.kind == .sld)
  | _ => false

/-- The track may run ahead for a party whose every path waits for a load's or gather's data (R152): it is the next turn. -/
def execRunAhead (tid p : Nat) (s : State) : Host.Outcome State Fault Refusal :=
  match Map.find s.teams tid, s.party? tid p with
  | some t, some q =>
    .next (if t.running && !q.paths.isEmpty && q.paths.all q.waitsForLoad then s.nextTurn (.ahead tid p) else s)
  | _, _ => .next s

/-- The run-ahead of a party (R152, R153), unless another party of its track is ready: onward from the waiting instruction of
the oldest path, for as many instructions, up to 256, as come before the waited data or another party (a free value, log entry
60). What it computes is computed on a copy of the state, in which nothing of the party is pending; only the translations stay. -/
def State.runAhead (s : State) (run : Who → State → Host.Outcome State Fault Refusal)
    (meaning : Instr → State → Host.Outcome State Fault Refusal) (tid p : Nat) : State :=
  match s.party? tid p with
  | none => s
  | some q =>
    match q.paths with
    | [] => s
    | sl :: _ =>
      if s.otherReady run tid p then s
      else
        let x := ({ s with cur := some (.party tid p sl) } : State).modParty tid p fun q =>
          { q.modSlot sl fun y => { y with wait := .none } with pending := [], accesses := [] }
        State.aheadFrom meaning ⟨tid, p, sl⟩ (s.useFree, x, q.pending.map fun x => (x.kind, x.num)) (Config.aheadSteps s.free % 257)

/-! ## The passing of time, and the turns -/

/-- Units of tbase, each 1/256 ns, in the cycles of clk that follow `clk` (R61, R391): 1024 in nine cycles. -/
def tbaseOfCycles (clk : DWord) (n : Nat) : Nat := (clk.toNat % 9 + n) * 1024 / 9 - clk.toNat % 9 * 1024 / 9

/-- How far tbase goes on in some cycles, of what a turn asks for (R392). While a run is active, the rate is slewed toward the
source by at most 100 parts per million; with none active, firmware may step tbase or set a new epoch. It never decreases.
Both counters count at their nominal rates (R459). -/
def State.tbaseAdvance (s : State) (dclk dtb : Nat) : Nat :=
  let n := tbaseOfCycles s.clk dclk
  let slew := min (n / 10000) s.tOffset.natAbs
  let lo := if 0 < s.tOffset then n - slew else n
  let hi := if s.tOffset < 0 then n + slew else n
  let adv := if s.runs.any fun r => r.2.state == .active then min hi (max lo dtb) else dtb
  min adv (2 ^ 64 - 1 - s.tbase.toNat)

/-- clk and tbase go on. -/
def State.pass (s : State) (dclk dtb : Nat) : State :=
  let adv := s.tbaseAdvance dclk dtb
  { s with
    clk := s.clk + BitVec.ofNat 64 dclk
    tbase := s.tbase + BitVec.ofNat 64 adv
    tOffset := if s.lastSync = 0 then s.tOffset else s.tOffset + (adv : Int) - (tbaseOfCycles s.clk dclk : Int) }

/-- One cycle passes. -/
def State.cycle (s : State) : State := s.pass 1 (tbaseOfCycles s.clk 1)

/-- The issuer waits for a walker or a closed bank (R35, R62). -/
def State.holdBy (s : State) (w : Who) : State :=
  match w with
  | .party tid p sl => s.waitOn ⟨tid, p, sl⟩ .memory
  | .seq tid => s.modSeq tid fun q => { q with wait := .memory }

/-- A path whose first instruction of a clause waits stands before the clause again: WAIT is tested anew when it issues
(R157). -/
def Slot.before (x : Slot) : Slot :=
  match x.clause with
  | some c => if x.wait ≠ .none ∧ !x.wait.begun ∧ x.pc = c.addr + 4 then { x with pc := c.addr, clause := none } else x
  | none => x

def Sequencer.atHeader (q : Sequencer) : Sequencer :=
  match q.clause with
  | some c => if q.wait ≠ .none ∧ q.barWait.isNone ∧ q.pc = c.addr + 4 then { q with pc := c.addr, clause := none } else q
  | none => q

def State.backOut (s : State) (w : Who) : State :=
  match w with
  | .party tid p sl => s.modParty tid p fun q => q.modSlot sl Slot.before
  | .seq tid => s.modSeq tid Sequencer.atHeader

/-- The issuer has entered a clause. -/
def State.entered (s : State) (w : Who) : Bool :=
  match w with
  | .party tid p sl => (s.party? tid p).any fun q => (q.slot sl).clause.isSome
  | .seq tid => (Map.find s.teams tid).any fun t => t.seq.any fun q => q.clause.isSome

/-- The place at which an issuer stands. -/
def State.originFor (s : State) (w : Who) : Origin :=
  match w with
  | .party tid p sl => match s.party? tid p with | some q => originOf ⟨tid, p, sl⟩ q 0 | none => noOrigin
  | .seq tid => match (Map.find s.teams tid).bind Team.seq with | some q => seqOrigin q 0 | none => noOrigin

/-- What an issuer's fetch in state `s` leads to: the instruction is executed, or what the fetch met is done. -/
def runFetched (meaning : Instr → State → Host.Outcome State Fault Refusal) (w : Who) (s : State) (x : Fetched) :
    Host.Outcome State Fault Refusal :=
  match x with
  | .idle => .next s
  | .faulted s' => .next (if s'.stuck then (s.undo (some w) (s.originFor w) s').holdBy w else s')
  | .go s' i =>
    if s'.stuck then .next ((s.undo (some w) (s.originFor w) s').holdBy w)
    else
      match meaning i s' with
      | .next s'' => .next (if s''.stuck then (s.undo (some w) (s.originFor w) s'').holdBy w else if isEvent i then s'' else s''.issued w (s.waitBy w))
      | .fault f => .fault f
      | .refused r => .refused r

/-- One issue: the issuer's next instruction is fetched and executed. At a clause boundary the clause is checked and
entered, and its first instruction issues at the same instant (R157). -/
def issueBy (meaning : Instr → State → Host.Outcome State Fault Refusal) (w : Who) (s : State) :
    Host.Outcome State Fault Refusal :=
  match runFetched meaning w s (s.fetch w) with
  | .next s' =>
    if s.entered w || !s'.entered w then .next s'
    else
      match runFetched meaning w s' (s'.fetch w) with
      | .next s'' => .next (s''.backOut w)
      | e => e
  | e => e

end Sys2Proof.Machine
end

