-- ==== Sys2Proof/Machine/Lookout.lean ====
section
/-!
DEFINITION. Lookout (R294 to R300, R477): the block, the predictor, the classes, the replay and the bound.
-/

namespace Sys2Proof.Machine

open Sys2Proof

/-! ## The block (R294) -/

def blockXh (bs : List Byte) : Nat := bytesAt bs 0 8
def blockPa (bs : List Byte) : Nat := bytesAt bs 8 8
def blockQa (bs : List Byte) : Nat := bytesAt bs 16 8
def blockRho (bs : List Byte) : Nat := bytesAt bs 24 8
def blockTau (bs : List Byte) : Nat := bytesAt bs 32 4
def blockEps (bs : List Byte) : Nat := bytesAt bs 36 4
def blockGf (bs : List Byte) : Nat := bytesAt bs 40 4
def blockD (bs : List Byte) : Nat := bytesAt bs 44 2
def blockR (bs : List Byte) : Nat := bytesAt bs 46 1
def blockN (bs : List Byte) : Nat := bytesAt bs 48 2

/-- The number of an FP32 word. -/
def f32 (x : Nat) : Num := fmtFp32.unpack x

def Num.isFinite (x : Num) : Bool :=
  match x with
  | .fin .. => true
  | _ => false

/-- a > b. -/
def Num.gt (a b : Num) : Bool := cmpNum a b == .gt

def zeroNum : Num := .fin false 0 0

/-- The fields lie in their ranges and the reserved bytes are zero. -/
def blockOk (bs : List Byte) : Bool :=
  Num.isFinite (f32 (blockTau bs)) && Num.isFinite (f32 (blockEps bs)) && !Num.gt zeroNum (f32 (blockEps bs)) &&
    Num.isFinite (f32 (blockGf bs)) && !Num.gt zeroNum (f32 (blockGf bs)) &&
    !Num.gt (f32 (blockGf bs)) (.fin false 1 0) && decide (1 ≤ blockD bs) && decide (blockD bs ≤ 32768) &&
    decide (1 ≤ blockR bs) && decide (blockR bs ≤ 64) && decide (1 ≤ blockN bs) && decide (blockN bs ≤ 128) &&
    bytesAt bs 47 1 == 0 && bytesAt bs 50 2 == 0 && bytesAt bs 60 4 == 0

/-- K chunks of X. -/
def chunks (p : PassFmt) (bs : List Byte) : Nat := (blockD bs + p.ke - 1) / p.ke

/-- A pass format that Lookout does not take: not exactly summed, or with scales (R295). -/
def lkoBadFmt (p : PassFmt) (fmt : Word) : Bool := !p.exact || fmtSca fmt || fmtScb fmt

/-- Lookout states that open sequences of other teams hold on a core (R295). -/
def State.lkoHeld (s : State) (core tid : Nat) : Nat :=
  (s.teams.filter fun (k, t) => k != tid && t.core == core && t.state != .saved && t.seq.any fun q => q.lko.isSome).length

/-! ## lko.pred, lko.fetch, lko.chk at issue -/

/-- lko.pred (R296): only the BASE of the handle is used. The handle of X takes the checks of R283 that an mld of it would
take (R286). -/
def execLkoPred (m : BitVec 2) (h : BitVec 4) (s : State) : Host.Outcome State Fault Refusal :=
  let i := Instr.lkoPred m h
  runSeq i s fun tid t q s =>
    match passFmt (passCode q.fmt) with
    | none => .fault s illegalInstruction
    | some p =>
      match (s.afterOps tid t q (handleAddr t h.toNat) 16).fetchHandle tid h.toNat 1 with
      | (s, .error c) => .fault s c
      | (s, .ok hd) =>
        let va := sext57 (hField hd 0 57)
        let peer : Bool :=
          match s.peekTarget t.core (s.tagOf t) (s.privileged t) .load va with
          | some g => g.peer.isSome
          | none => false
        if peer then .fault s (protection 0x0E)
        else if q.openLko.isSome ∨ lkoBadFmt p q.fmt then .fault s lkoOrder
        else if va % 64 ≠ 0 then .fault s lkoBlock
        else
          match (s.afterOps tid t q va 64).engineRead (some t.core) (s.tagOf t) (s.privileged t) va 64 with
          | (s, .error c) => .fault s c
          | (s, .ok (bs, bad)) =>
            if bad then .fault s (eccMatrix (some va))
            else if !blockOk bs then .fault s lkoBlock
            else
              match (s.afterOps tid t q (blockXh bs) 16).engineRead (some t.core) (s.tagOf t) (s.privileged t) (blockXh bs) 16 with
              | (s, .error c) => .fault s c
              | (s, .ok (xs, bad)) =>
                let x : Handle := BitVec.ofNat 128 (ofBytes xs)
                let peerX : Option Cause := if s.peerBase t x then some (protection 0x0E) else none
                match (if bad then some (eccMatrix (some (blockXh bs % 2 ^ 57))) else none).or ((handleFault x).or peerX) with
                | some c => .fault s c
                | none =>
                  match t.lsSpan x (hBase x, hBase x + hExtent x) with
                  | some c => .fault s c
                  | none =>
                    if 128 < hRows x ∨ hCols x ≠ blockD bs ∨ hFmt x ≠ Cvt.fmtCode p.a then .fault s lkoBlock
                    else if q.lko.isSome ∨ 4 ≤ s.lkoHeld t.core tid then .hold .lko
                    else if q.loading m.toNat then .hold (.scoreboard 3 m.toNat)
                    else if 8 ≤ s.entries t.core then .hold (.reservation t.core)
                    else
                      let seq : LkoSeq :=
                        { block := bs, x := x, blockVa := va, ma := m.toNat, pass := passCode q.fmt, classes := [], pe := [],
                          weights := none, tile := none }
                      let s := s.post tid i (.lkoPred m.toNat) (chunks p bs + 1) []
                      .done (s.modSeq tid fun q => { q with latch := none, lko := some seq })

/-- lko.fetch (R297): names the weights; it posts nothing. -/
def execLkoFetch (h : BitVec 4) (s : State) : Host.Outcome State Fault Refusal :=
  runSeq (.lkoFetch h) s fun tid t q s =>
    match passFmt (passCode q.fmt) with
    | none => .fault s illegalInstruction
    | some p =>
      match s.matHandle tid t q h.toNat with
      | (s, .error c) => .fault s c
      | (s, .ok hd) =>
        match q.openLko with
        | none => .fault s lkoOrder
        | some l =>
          if l.weights.isSome ∨ lkoBadFmt p q.fmt then .fault s lkoOrder
          else if hRows hd ≠ blockN l.block ∨ hCols hd ≠ blockD l.block ∨ hFmt hd ≠ Cvt.fmtCode p.b then
            .fault s lkoBlock
          else
            .done (s.modSeq tid fun q =>
              { q with latch := none, lko := some { l with weights := some (h.toNat, hd) } })

/-! ## The predictor (R296) -/

/-- Σ xᵢ yᵢ, one rounding into FP32. -/
def dotF32 (r : Rnd) (xs : List (Num × Num)) : Nat :=
  (roundFloat fmtFp32 r false false (sumNum false (xs.map fun x => (mulNum x.1 x.2).1)).1).1

/-- The square root of an FP32 number, rounded up. -/
def sqrtUp (x : Nat) : Nat :=
  match f32 x with
  | .fin n m e =>
    if m = 0 then x else if n then fmtFp32.nanCode false else (roundFloat fmtFp32 .rup false false (sqrtNum m e)).1
  | .inf false => x
  | _ => fmtFp32.nanCode false

/-- a × b, rounded up into FP32. -/
def mulUp (a b : Nat) : Nat := (roundFloat fmtFp32 .rup false false (mulNum (f32 a) (f32 b)).1).1

/-- p and e of one neuron over the present rows (R296): `xs` are the rows of X, `pc` the columns of P, `qc` the
neuron's column of Q. -/
def predict (xs : List (List Num)) (pc : List (List Num)) (qc : List Num) (rho : Nat) : List (Word × Word) :=
  xs.map fun x =>
    let z := pc.map fun c => f32 (dotF32 .rne (x.zip c))
    let pv := dotF32 .rne (z.zip qc)
    let n := sqrtUp (dotF32 .rup (x.zip x))
    (BitVec.ofNat 32 pv, BitVec.ofNat 32 (mulUp n rho))

/-- p + k·e exactly. -/
def bandOf (k : Num) (x : Word × Word) : Num :=
  (addNum false (f32 x.1.toNat) (mulNum k (f32 x.2.toNat)).1).1

/-- The class of a neuron (R296). -/
def neuronClass (tau gf : Num) (pe : List (Word × Word)) : LkoClass :=
  if pe.any fun x => !Num.isFinite (f32 x.1.toNat) || !Num.isFinite (f32 x.2.toNat) then .guarded
  else if pe.any fun x => Num.gt (f32 x.1.toNat) tau then .active
  else if pe.any fun x => Num.gt (bandOf gf x) zeroNum then .guarded
  else .skip

/-- The lko register after lko.pred (R296, R299). -/
def lkoAfterPred (cs : List LkoClass) : Word := BitVec.ofNat 32 (2 ^ 24 * (cs.filter (· == .active)).length)

/-! ## The bound (R298, R299) -/

/-- The greatest p + e of a neuron over its rows, at least 0. -/
def topOf (pe : List (Word × Word)) : Num :=
  pe.foldl (fun b x => let v := bandOf (.fin false 1 0) x; if Num.gt v b then v else b) zeroNum

/-- The greatest of the neurons of a class. -/
def boundOf (l : LkoSeq) (sel : Nat → Bool) : Num :=
  ((List.range (blockN l.block)).filter sel).foldl
    (fun b j => let v := topOf (l.pe.getD j []); if Num.gt v b then v else b) zeroNum

def LkoSeq.is (l : LkoSeq) (c : LkoClass) (j : Nat) : Bool := (l.classes[j]?) == some c

/-- What lko.chk finds: the guard set, the set that the widening moves to it, and the bound that remains. -/
structure LkoPlan where
  guard : List Nat
  moved : List Nat
  wide : Bool
  bound : Num
deriving DecidableEq, Repr

def LkoSeq.plan (l : LkoSeq) : LkoPlan :=
  let eps := f32 (blockEps l.block)
  let all := List.range (blockN l.block)
  let guard := all.filter (l.is .guarded)
  let b := boundOf l (l.is .skip)
  if Num.gt b eps then
    let moved := all.filter fun j => l.is .skip j && Num.gt (topOf (l.pe.getD j [])) eps
    { guard := guard, moved := moved, wide := true, bound := boundOf l fun j => l.is .skip j && !moved.contains j }
  else { guard := guard, moved := [], wide := false, bound := b }

/-- BOUND as FP32 bits. -/
def LkoPlan.boundBits (x : LkoPlan) : Nat := (roundFloat fmtFp32 .rup false false x.bound).1

/-- BEXP (R299). -/
def bexp (bound : Nat) : Nat :=
  match f32 bound with
  | .fin _ m e =>
    if m = 0 then 0
    else
      let up := floorLog m e + if m = 2 ^ Nat.log2 m then 0 else 1
      (min 63 (max 1 (32 + up))).toNat
  | _ => 63

/-- The lko register after lko.chk (R299). -/
def LkoSeq.register (l : LkoSeq) (x : LkoPlan) : Word :=
  let pred := (l.classes.filter (· == .active)).length
  let repl := x.guard.length + x.moved.length
  BitVec.ofNat 32
    (2 ^ 24 * pred + 2 ^ 16 * repl + 2 ^ 8 * (blockN l.block - pred - repl) + 2 ^ 7 + (if x.wide then 64 else 0) +
      bexp x.boundBits)

/-- The passes that lko.chk posts: the set and the chunk of each, in their order. -/
def LkoPlan.replays (x : LkoPlan) (chunks : Nat) : List (List Nat × Nat) :=
  let one (set : List Nat) : List (List Nat × Nat) := if set.isEmpty then [] else (List.range chunks).map fun kc => (set, kc)
  one x.guard ++ one x.moved

/-- An operation that lko.chk waits for: the predictor or a mapped pass (R298). -/
def MatOp.lookout (o : MatOp) : Bool :=
  match o.kind with
  | .lkoPred _ => true
  | .pass _ _ _ _ _ _ mapped => mapped
  | _ => false

/-- lko.chk (R298). -/
def execLkoChk (c : BitVec 4) (m : BitVec 2) (h : BitVec 4) (s : State) : Host.Outcome State Fault Refusal :=
  let i := Instr.lkoChk c m h
  runSeq i s fun tid t q s =>
    match passFmt (passCode q.fmt) with
    | none => .fault s illegalInstruction
    | some p =>
      if t.badTile false c.toNat then .fault s registerRange
      else
        match s.matHandle tid t q h.toNat with
        | (s, .error e) => .fault s e
        | (s, .ok hd) =>
          match q.openLko with
          | none => .fault s lkoOrder
          | some l =>
            if lkoBadFmt p q.fmt ∨ l.pass ≠ passCode q.fmt ∨ l.weights ≠ some (h.toNat, hd) ∨
                l.tile.any (fun x => x != c.toNat) then .fault s lkoOrder
            else if q.ops.any MatOp.lookout then .hold (.scoreboard 4 c.toNat)
            else if q.loading m.toNat then .hold (.scoreboard 3 m.toNat)
            else
              let n := (l.plan.replays (chunks p l.block)).length
              if 0 < n ∧ 8 ≤ s.entries t.core then .hold (.reservation t.core)
              else
                let lines := s.spanLines tid t .store 0 (l.blockVa + 52) 8
                let s := s.post tid i (.lkoChk c.toNat m.toNat h.toNat) n lines
                .done (s.modSeq tid fun q => { q with latch := none })

end Sys2Proof.Machine
end

