-- ==== Sys2Proof/Machine/MatrixSteps.lean ====
section
/-!
DEFINITION. The steps of matrix operations in flight: the grant of a pass (R281, R282), its retirement with the
checksums (R277, R280), and the retirement of the other operations (R265, R286, R291, R292, R296, R298).
-/

namespace Sys2Proof.Machine

open Sys2Proof

/-! ## The reservation table (R281, R282) -/

/-- An operation with passes in the table or in the array: a matrix operation, or an spx expansion (R213). -/
structure Entry where
  tid : Nat
  core : Nat
  id : Nat
  spx : Bool
  prio : Nat
  origin : Origin
  passes : Passes
deriving DecidableEq, Repr

/-- The matrix operations of a team as entries. -/
def Team.entries (t : Team) (tid : Nat) : List Entry :=
  match t.seq with
  | some q => q.ops.map fun o => ⟨tid, t.core, o.id, false, o.prio, o.origin, o.passes⟩
  | none => []

/-- The spx command whose turn it is on a core's part of a stream unit has passes to make: those of the oldest command of
each core. -/
def State.spxEntries (s : State) (cluster : Nat) : List Entry :=
  let cs := (Map.find s.ssu cluster).getD []
  (cs.filter fun c => (cs.find? fun x => x.core == c.core) == some c && decide (0 < c.passes.left)).map fun c =>
    ⟨c.tid, c.core, c.id, true, (Map.find s.teams c.tid).elim 0 s.prioOf, c.origin, c.passes⟩

/-- The operations of a cluster. -/
def State.matOps (s : State) (cluster : Nat) : List Entry :=
  (s.teams.flatMap fun (tid, t) => if clusterOf t.core = cluster ∧ t.state ≠ .saved then t.entries tid else []) ++
    s.spxEntries cluster

/-- Changes a matrix operation of a team. -/
def State.modOp (s : State) (tid id : Nat) (f : MatOp → MatOp) : State :=
  s.modSeq tid fun q => { q with ops := q.ops.map fun o => if o.id = id then f o else o }

/-- Changes the passes of an entry's operation. -/
def State.modPasses (s : State) (cluster : Nat) (e : Entry) (f : Passes → Passes) : State :=
  if e.spx then
    { s with ssu := Map.update s.ssu cluster fun cs => cs.map fun c =>
        if c.id = e.id then { c with passes := f c.passes } else c }
  else s.modOp e.tid e.id fun o => { o with passes := f o.passes }

/-- The entry's team issues: no fault and no save has stopped it. -/
def State.posts (s : State) (e : Entry) : Bool := (Map.find s.teams e.tid).any Team.running

/-- Passes that wait for a reservation entry take those that have become free. -/
def State.repost (s : State) (cluster : Nat) : State :=
  (s.matOps cluster).foldl (fun s e =>
    if 0 < e.passes.unposted ∧ s.posts e = true then s.modPasses cluster e fun x => x.post (s.entries e.core) else s) s

/-- One entry is older than another (R112). -/
def Entry.older (a b : Entry) : Bool :=
  decide (a.passes.age < b.passes.age) || (a.passes.age == b.passes.age && decide (a.id < b.id))

/-- The oldest of a list. -/
def oldest (es : List Entry) : Option Entry :=
  es.foldl (fun o e => match o with | some x => if e.older x then some e else o | none => some e) none

/-- The bypass count of the operation's oldest entry. -/
def Entry.bypass (e : Entry) : Nat := e.passes.waiting.headD 0

/-- The entry that the arbiter grants next, of all that wait (R282). -/
def grantee (waiting : List Entry) : Option Entry :=
  match oldest (waiting.filter fun e => decide (64 ≤ e.bypass)) with
  | some e => some e
  | none =>
    let top := waiting.foldl (fun p e => max p e.prio) 0
    oldest (waiting.filter fun e => e.prio == top)

/-! ## Order within a stream (R265, R270) -/

/-- The operations of a sequencer that it issued before one of them. -/
def Sequencer.before (q : Sequencer) (id : Nat) : List MatOp := q.ops.takeWhile fun o => o.id != id

/-- The lines of a block of a handle: rows and columns from a first one, and a span of scale words. -/
def State.blockLines (s : State) (tid : Nat) (t : Team) (h : Handle) (r0 nr c0 nc : Nat) (scl : Option (Nat × Nat)) :
    List Nat :=
  let rows := (List.range' r0 nr).filter fun r => decide (r < hRows h)
  let span (sp : Nat × Nat) : List Nat := s.spanLines tid t .load (hLoc h) sp.1 (sp.2 - sp.1)
  (rows.flatMap fun r => span (hSpan h r (r + 1) c0 (c0 + nc))) ++ (scl.elim [] span)

/-- Passes of the operation whose operands have been read: those of its first passes. -/
def MatOp.fetches (o : MatOp) : Nat :=
  match o.kind with
  | .pass .. => o.fetched.length
  | _ => o.fetched.length / 2

/-- Passes that an operation has in all. -/
def MatOp.passCount (o : MatOp) (lko : Option LkoSeq) : Nat :=
  match passFmt (passCode o.fmt), o.kind, lko with
  | _, .pass .., _ => 1
  | some p, .lkoPred _, some l => chunks p l.block + 1
  | some p, .lkoChk .., some l => (l.plan.replays (chunks p l.block)).length
  | _, _, _ => 0

/-- The lines that an operation in flight has yet to read, or may have. -/
def State.readLines (s : State) (tid : Nat) (t : Team) (q : Sequencer) (o : MatOp) : List Nat :=
  match passFmt (passCode o.fmt) with
  | none => []
  | some p =>
    let block (h : Handle) (alongRows scl : Bool) (kc nb : Nat) : List Nat :=
      let kk := (kc * p.ke, kc * p.ke + p.ke)
      let jj := (128 * nb, 128 * nb + 128)
      if alongRows then
        s.blockLines tid t h kk.1 p.ke jj.1 128
          (if scl then some (sclSpan h (hCols h) (hRows h) jj.1 jj.2 kk.1 kk.2) else none)
      else
        s.blockLines tid t h jj.1 128 kk.1 p.ke
          (if scl then some (sclSpan h (hRows h) (hCols h) jj.1 jj.2 kk.1 kk.2) else none)
    let whole (h : Handle) : List Nat := s.blockLines tid t h 0 (hRows h) 0 (hCols h) none
    let mem (a n : Nat) : List Nat := s.spanLines tid t .load 0 a n
    match o.kind with
    | .mld _ h kc nb => block h false (p.useA o.fmt) kc nb
    | .pass _ _ h transposed kc nb _ =>
      if !o.fetched.isEmpty then [] else block h (!transposed) (p.useB o.fmt) kc nb
    | .mst _ h kc nb =>
      if (hCvt h).any Cvt.scalable && hScl h != 0 then
        let sp := sclSpan h (hRows h) (hCols h) (128 * nb) (128 * nb + 128) (128 * kc) (128 * kc + 128)
        s.spanLines tid t .load (hLoc h) sp.1 (sp.2 - sp.1)
      else []
    | .mscl .. => []
    | .lkoPred _ =>
      if 0 < o.fetches ∧ o.passCount q.lko ≤ o.fetches then [] else q.lko.elim [] fun l =>
        whole l.x ++ mem (blockPa l.block) (2 * blockD l.block * blockR l.block) ++
          mem (blockQa l.block) (2 * blockR l.block * blockN l.block) ++ mem (blockRho l.block) (4 * blockN l.block)
    | .lkoChk .. =>
      if 0 < o.fetches ∧ o.passCount q.lko ≤ o.fetches then [] else q.lko.elim [] fun l => whole l.x ++ l.weights.elim [] fun w => whole w.2

/-- An operation's turn at memory has come (R265): it reads what earlier operations of its stream have written, and
writes nothing that they have yet to read. -/
def State.memTurn (s : State) (tid : Nat) (t : Team) (q : Sequencer) (o : MatOp) : Bool :=
  (q.before o.id).all fun x =>
    (x.owned.isEmpty || !(s.readLines tid t q o).any x.owned.contains) &&
      (o.owned.isEmpty || !(s.readLines tid t q x).any o.owned.contains)

/-- An operation leaves; resolutions bound to it are made (R359). -/
def State.retireOp (s : State) (tid id : Nat) : State :=
  (s.modSeq tid fun q => { q with ops := q.ops.filter fun o => o.id != id }).completeOp id

/-- A fault of the team at a matrix operation that has issued; the operation ends without its result. -/
def State.opFault (s : State) (tid : Nat) (o : MatOp) (c : Cause) : State :=
  (s.modSeq tid fun q => { q with ops := q.ops.filter fun x => x.id != o.id }).laterFault tid o.origin c true false

/-- The reader that a matrix operation is: where it reads does not depend on what it has read. -/
def MatOp.reader (o : MatOp) (tid : Nat) : Reader := { id := o.id, tid := tid, origin := o.origin, serial := false }

/-! ## What a pass reads (R276, R296, R298) -/

/-- The ACTIVE neurons of the team's open sequence. -/
def Team.activeNeurons (t : Team) (j : Nat) : Bool :=
  match t.seq with
  | some q => q.lko.any fun l => l.is .active j
  | none => false

/-- Reads `n` elements of `w` bytes for Lookout, in their order: a poisoned one is a fault as at a pass operand (R477). -/
def State.lkoRead (s : State) (tid : Nat) (a w n : Nat) : State × Except Cause (List Byte) :=
  match n with
  | 0 => (s, .ok [])
  | n + 1 =>
    match s.locRead tid 0 a w with
    | (s, .error c) => (s, .error c)
    | (s, .ok (_, true)) => (s, .error (eccMatrix (some (a % 2 ^ 57))))
    | (s, .ok (bs, false)) =>
      match s.lkoRead tid (a + w) w n with
      | (s, .error c) => (s, .error c)
      | (s, .ok t) => (s, .ok (bs ++ t))

/-- A dense row-major array of elements of `w` bytes as a block: element k of column l at 512·l + k. -/
def byteBlock (bs : List Byte) (rows cols w : Nat) : AReg :=
  let keys := (List.range cols).flatMap fun l => (List.range rows).map fun k => (l, k)
  { elems := keys.foldl (fun m x => Map.set m (512 * x.1 + x.2) (BitVec.ofNat 64 (bytesAt bs (w * (x.2 * cols + x.1)) w))) []
    scales := [], enc := none }

/-- A dense array in memory as a block. -/
def State.denseBlock (s : State) (tid a rows cols w : Nat) : State × Except Cause AReg :=
  match s.lkoRead tid a w (rows * cols) with
  | (s, .error c) => (s, .error c)
  | (s, .ok bs) => (s, .ok (byteBlock bs rows cols w))

/-- Chunk kc of X, as mld would load it (R286). -/
def State.xChunk (s : State) (tid : Nat) (p : PassFmt) (l : LkoSeq) (kc : Nat) : State × Except Cause AReg :=
  match s.block tid l.x false 0 kc p.ke (fun _ => true) false with
  | (s, .error c) => (s, .error c)
  | (s, .ok a) => (s, .ok { a with enc := some (Cvt.fmtCode p.a, false) })

/-- Two reads, the second after the first. -/
def readBoth (f g : State → State × Except Cause AReg) (s : State) : State × Except Cause (List AReg) :=
  match f s with
  | (s, .error c) => (s, .error c)
  | (s, .ok a) =>
    match g s with
    | (s, .error c) => (s, .error c)
    | (s, .ok b) => (s, .ok [a, b])

/-- What pass number n of an operation reads: the B block; a chunk of X with the chunk of P, and at last Q with the norms,
for lko.pred; a chunk of X with the rows of its set of neurons, for lko.chk. -/
def State.fetchPass (s : State) (tid : Nat) (t : Team) (o : MatOp) (p : PassFmt) (lko : Option LkoSeq) (n : Nat) :
    State × Except Cause (List AReg) :=
  match o.kind, lko with
  | .pass _ _ h transposed kc nb mapped, _ =>
    let want (j : Nat) : Bool := !mapped || t.activeNeurons j
    match s.block tid h (!transposed) nb kc p.ke want (p.useB o.fmt) with
    | (s, .error c) => (s, .error c)
    | (s, .ok b) => (s, .ok [b])
  | .lkoPred _, some l =>
    let k0 := n * p.ke
    if n < chunks p l.block then
      readBoth (fun s => s.xChunk tid p l n)
        (fun s => s.denseBlock tid (blockPa l.block + 2 * blockR l.block * k0) (min p.ke (blockD l.block - k0))
          (blockR l.block) 2) s
    else
      readBoth (fun s => s.denseBlock tid (blockQa l.block) (blockR l.block) (blockN l.block) 2)
        (fun s => s.denseBlock tid (blockRho l.block) 1 (blockN l.block) 4) s
  | .lkoChk .., some l =>
    match l.weights, (l.plan.replays (chunks p l.block))[n]? with
    | some (_, w), some (set, kc) =>
      readBoth (fun s => s.xChunk tid p l kc)
        (fun s => s.block tid w false 0 kc p.ke (fun j => set.contains j) false) s
    | _, _ => (s, .ok [])
  | _, _ => (s, .ok [])

/-- The oldest waiting pass moves into the array. -/
def Passes.enter (x : Passes) : Passes := { x with waiting := x.waiting.drop 1, inArray := x.inArray + 1 }

/-- The operands of an operation's next `n` passes are read (R276). -/
def State.fetchNext (s : State) (tid : Nat) (t : Team) (o : MatOp) (lko : Option LkoSeq) (n : Nat) : State × Option Cause :=
  match n, passFmt (passCode o.fmt) with
  | 0, _ => (s, none)
  | _, none => (s, none)
  | n + 1, some p =>
    match s.fetchPass tid t o p lko o.fetches with
    | (s, .error c) => (s, some c)
    | (s, .ok bs) =>
      let more (o : MatOp) : MatOp := { o with fetched := o.fetched ++ bs }
      (s.modOp tid o.id more).fetchNext tid t (more o) lko n

/-- The operation's operands are read up to those of a pass number, for an engine whose reads act for it. -/
def State.fetchUpTo (s : State) (tid : Nat) (t : Team) (o : MatOp) (lko : Option LkoSeq) (n : Nat) : State × Option Cause :=
  let (s, r) := s.readAs (o.reader tid) fun s => s.fetchNext tid t o lko (n - o.fetches)
  (s.usedBytes o.id, r)

/-- A pass enters the array: its entry is freed, and what it reads has been read (R276, R281). -/
def State.enterArray (s : State) (cluster : Nat) (e : Entry) : State :=
  if e.spx then s.modPasses cluster e Passes.enter
  else
    match Map.find s.teams e.tid with
    | none => s
    | some t =>
      match t.seq.bind fun q => (q.ops.find? fun o => o.id == e.id).map fun o => (o, q.lko) with
      | none => s
      | some (o, lko) =>
        match s.fetchUpTo e.tid t o lko (o.passCount lko - o.passes.unposted - o.passes.waiting.length + 1) with
        | (s, some c) => s.opFault e.tid o c
        | (s, none) => s.modPasses cluster e Passes.enter

/-- An operation knows what it reads: a mapped pass does once the classes are known (R297). -/
def Sequencer.knows (q : Sequencer) (o : MatOp) : Bool :=
  match o.kind with
  | .pass _ _ _ _ _ _ true => (q.before o.id).all fun x => match x.kind with | .lkoPred _ => false | _ => true
  | _ => true

/-- The operands of an entry's pass can be read now: they have been read, or the pass knows them and its turn at memory has
come. -/
def State.eligible (s : State) (e : Entry) : Bool :=
  e.spx ||
    match (Map.find s.teams e.tid).bind fun t => t.seq.map fun q => (t, q) with
    | none => false
    | some (t, q) => (q.ops.filter fun o => o.id == e.id).all fun o => q.knows o && s.memTurn e.tid t q o

/-- The arbiter grants one waiting entry of the cluster, when the array can take the one whose grant comes next; every older
entry counts a bypass (R282). -/
def execPassGrant (cluster : Nat) (s : State) : Host.Outcome State Fault Refusal :=
  if s.fenced.contains (.engine cluster) then .next s
  else
    let s := s.repost cluster
    let waiting := (s.matOps cluster).filter fun e => !e.passes.waiting.isEmpty && s.posts e
    match grantee waiting with
    | none => .next s
    | some g =>
      if !s.eligible g then .next s
      else
        let s := (waiting.filter fun e => e.older g).foldl
          (fun s e => s.modPasses cluster e fun x => { x with waiting := x.waiting.map (· + 1) }) s
        .next ((s.enterArray cluster g).repost cluster)

/-! ## A pass finishes (R277, R280) -/

/-- RETIRED and RERUN (R293): a pass of spx counts as a rerun alone. -/
def countPass (check : Word) (retires rerun : Bool) : Word :=
  let retired := (fld check 0 16).toNat + if retires then 1 else 0
  let reruns := (fld check 16 16).toNat + if rerun then 1 else 0
  BitVec.ofNat 32 (65536 * min 65535 reruns + retired % 65536)

/-- Warn bits of a pass: SCALEIGN, TRNRES, and FALLBK for .zs on FP32 and FP64 (R277, R290). -/
def passWarn (p : PassFmt) (o : MatOp) (b : AReg) : Word :=
  when (p.ignored o.fmt) wSCALEIGN ||| when (b.trnres p.b) wTRNRES |||
    when (!p.exact && o.origin.word.getLsbD 0) wFALLBK

/-- Earlier operations of the team in flight read or write one of the operation's tiles (R270). -/
def Team.tileTurn (t : Team) (o : MatOp) : Bool :=
  match t.seq with
  | some q => (q.before o.id).all fun x => !(x.tiles false).any fun c => (o.tiles false).contains c
  | none => false

/-- A matrix engine is fenced: every team with a pass in the cluster's table or array faults at its oldest pass (R280,
R406). -/
def State.fenceEngine (s : State) (cluster : Nat) : State :=
  let info := BitVec.ofNat 32 (4 * (cluster % 12) + 64 * (cluster / 12))
  let es := (s.matOps cluster).filter fun e => decide (0 < e.passes.waiting.length + e.passes.inArray)
  let s := { s with fenced := s.fenced ++ [FenceUnit.engine cluster] }
  ((es.map Entry.tid).dedup).foldl (fun s k =>
    match oldest (es.filter fun e => e.tid == k) with
    | some e => s.laterFault k e.origin { cause := 0x0E, info := info } true false
    | none => s) s

/-- A second mismatch (R280): the engine is fenced, and the tile is not written. -/
def State.doubleMismatch (s : State) (tid id : Nat) (cluster : Nat) : State :=
  (s.fenceEngine cluster).modSeq tid fun q => { q with ops := q.ops.filter fun x => x.id != id }

/-- A pass of a matrix operation finishes: a pass of mma or mmt writes its tile when its turn at it has come; a Lookout
pass is counted. -/
def State.retirePass (s : State) (tid : Nat) (t : Team) (o : MatOp) (rerun : Bool) : State :=
  let count (t : Team) : Team := t.modSeq fun q => { q with check := countPass q.check true rerun }
  match o.kind, o.fetched, passFmt (passCode o.fmt) with
  | .pass cd a _ _ _ _ mapped, [b], some p =>
    if !t.tileTurn o then s
    else if t.tilePoisoned (p.a == .fp64) cd then s.opFault tid o (eccMatrix none)
    else
      (s.modTeam tid fun t =>
        (count (t.pass p o.fmt a b cd fun j => !mapped || t.activeNeurons j)).raiseAll (passWarn p o b)).retireOp tid o.id
  | _, _, _ =>
    (s.modTeam tid count).modOp tid o.id fun o => { o with passes := { o.passes with inArray := o.passes.inArray - 1 } }

/-- A pass of an operation in the array finishes: the first run mismatches or not, and then the rerun. The operation is one
of the team's sequencer, or an spx expansion of the team. -/
def execPassRetire (tid id : Nat) (mismatch mismatch2 : Bool) (s : State) : Host.Outcome State Fault Refusal :=
  match Map.find s.teams tid with
  | none => .next s
  | some t =>
    let cluster := clusterOf t.core
    match (s.matOps cluster).find? fun e => e.tid == tid && e.id == id && decide (0 < e.passes.inArray) with
    | none => .next s
    | some e =>
      if mismatch && mismatch2 then .next (s.doubleMismatch tid id cluster)
      else if e.spx then
        .next ((s.modPasses cluster e fun x => { x with inArray := x.inArray - 1 }).modSeq tid fun q =>
          { q with check := countPass q.check false mismatch })
      else
        match t.seq.bind fun q => q.ops.find? fun o => o.id == id with
        | none => .next s
        | some o => .next (s.retirePass tid t o mismatch)

/-! ## The other operations -/

/-- The operation retires with an A register loaded. -/
def State.loadA (s : State) (tid ma : Nat) (a : Option AReg) : State :=
  match a with
  | some a => s.modTeam tid fun t => { t with aregs := Map.set t.aregs ma a }
  | none => s

/-- Every second of a list, from the first. -/
def evens {α : Type} (as : List α) : List α :=
  match as with
  | a :: _ :: t => a :: evens t
  | as => as

/-- The numbers of column l of BF16 blocks that lie one above the other. -/
def bf16Column (bs : List AReg) (l : Nat) : List Num :=
  bs.flatMap fun b => (b.line l).map fun x => Cvt.bf16.unpack x.2

/-- lko.pred retires (R296). -/
def State.retirePred (s : State) (tid ma : Nat) (o : MatOp) (p : PassFmt) (l : LkoSeq) : State :=
  let n := 2 * chunks p l.block
  let xb := evens (o.fetched.take n)
  let pb := evens ((o.fetched.take n).drop 1)
  let qb := (o.fetched.drop n).take 1
  let rho (j : Nat) : Nat := ((o.fetched.drop (n + 1)).flatMap fun b => (b.line j).map Prod.snd).headD 0
  let xs := (List.range (hRows l.x)).map fun i => xb.flatMap fun a => (a.line i).map fun x => p.a.unpack x.2
  let pc := (List.range (blockR l.block)).map (bf16Column pb)
  let pe := (List.range (blockN l.block)).map fun j => predict xs pc (bf16Column qb j) (rho j)
  let cs := pe.map (neuronClass (f32 (blockTau l.block)) (f32 (blockGf l.block)))
  let s := s.loadA tid ma xb.getLast?
  let s := s.modTeam tid fun t => { t with lkoNew := lkoAfterPred cs :: t.lkoNew }
  let s := s.modSeq tid fun q => { q with lko := q.lko.map fun l => { l with classes := cs, pe := pe } }
  s.retireOp tid o.id

/-- exact(S) of R298: for each chunk of X, in increasing order, the columns of S of an unmapped mmt. -/
def Team.replay (t : Team) (p : PassFmt) (fmt : Word) (cd : Nat) (sets : List (List Nat)) (blocks : List AReg)
    (warn : Word) : Team × Word :=
  match sets, blocks with
  | set :: rest, a :: b :: bs =>
    (t.pass p fmt a b cd fun j => set.contains j).replay p fmt cd rest bs (warn ||| when (b.trnres p.b) wTRNRES)
  | _, _ => (t, warn)

/-- An operation has written memory: it retires when no write of it is outstanding at a peer. -/
def State.afterWrites (s : State) (tid : Nat) (o : MatOp) (w : Word) : State :=
  if s.outstanding.any fun x => x.tid == tid && x.party.isNone && x.origin == o.origin then
    s.modOp tid o.id fun o => { o with owned := [], ended := some w }
  else (s.modTeam tid fun t => t.raiseAll w).retireOp tid o.id

/-- lko.chk writes the block's last bytes and the register, and the sequence closes (R298). -/
def State.closeLko (s : State) (tid : Nat) (t : Team) (o : MatOp) (l : LkoSeq) (w : Word) : State :=
  let reg := l.register l.plan
  match s.engineWrite (some t.core) tid o.origin (some o.place) (s.tagOf t) (s.privileged t) (l.blockVa + 52)
    (toBytes 4 l.plan.boundBits ++ toBytes 4 reg.toNat) with
  | (s, some c) => s.opFault tid o c
  | (s, none) =>
    ((s.modTeam tid fun t => { t with lkoNew := reg :: t.lkoNew }).modSeq tid fun q => { q with lko := none }).afterWrites tid o w

/-- lko.chk retires (R298): the replays, and the end of the sequence. With no neuron to compute, X's last chunk is loaded
alone. -/
def State.retireChk (s : State) (tid : Nat) (t : Team) (cd ma : Nat) (o : MatOp) (p : PassFmt) (l : LkoSeq) : State :=
  let sets := (l.plan.replays (chunks p l.block)).map Prod.fst
  if sets.isEmpty then
    match s.xChunk tid p l (chunks p l.block - 1) with
    | (s, .error c) => s.opFault tid o c
    | (s, .ok a) => (s.loadA tid ma (some a)).closeLko tid t o l 0
  else if t.tilePoisoned false cd then s.opFault tid o (eccMatrix none)
  else
    let (t', w) := t.replay p o.fmt cd sets o.fetched 0
    ((s.modTeam tid fun _ => t').loadA tid ma (evens o.fetched).getLast?).closeLko tid t o l w

/-- An element as mst writes it (R291): divided by its scale, if any, and converted. -/
def mstElem (acc df : Cvt) (env : FEnv) (scale : Option Word) (x : Nat) : Nat × Word :=
  match scale with
  | none => convert acc df env (acc == .i32 && df.float.isNone) x
  | some w =>
    let n := flushIn acc env.fin (acc.unpack x)
    match unpackS20 (w.toNat % 2 ^ 20), n with
    | .fin _ 0 _, n => roundTo df env (acc == .i32 && df.float.isNone) (.fin n.neg 0 0)
    | .fin _ ms es, .fin neg m e => roundTo df env (acc == .i32 && df.float.isNone) (quotNum neg m e ms es)
    | .fin .., n => roundTo df env (acc == .i32 && df.float.isNone) n
    | _, _ => roundTo df env (acc == .i32 && df.float.isNone) (.nan false false)

/-- mst writes its elements in order, up to the first fault. -/
def State.mstWrite (s : State) (tid : Nat) (o : MatOp) (t : Team) (h : Handle) (acc df : Cvt) (env : FEnv) (cd : Nat) (scl : Bool)
    (ps : List (Nat × Nat × Nat × Nat)) (warn : Word) : State × Except Cause Word :=
  match ps with
  | [] => (s, .ok warn)
  | (i, j, r, c) :: rest =>
    match (if scl then s.scales tid h [] [(0, scaleAddr h (hCols h) r c)] else (s, .ok [])) with
    | (s, .error e) => (s, .error e)
    | (s, .ok sc) =>
      let (y, f) := mstElem acc df env (if scl then some (Store.read sc 0) else none) (t.accElem (acc == .fp64) cd i j)
      match s.writeElem tid o.origin (some o.place) h r c y with
      | (s, some e) => (s, .error e)
      | (s, none) => s.mstWrite tid o t h acc df env cd scl rest (warn ||| f)

/-- mst retires. -/
def State.retireMst (s : State) (tid : Nat) (t : Team) (o : MatOp) (p : PassFmt) (cd : Nat) (h : Handle) (kc nb : Nat) :
    State :=
  let acc := p.acc o.fmt
  let df := (hCvt h).getD .fp32
  let scl : Bool := Cvt.scalable df && hScl h != 0
  let ps := (List.range 128).flatMap fun i =>
    (List.range 128).filterMap fun j =>
      let r := 128 * nb + i
      let c := 128 * kc + j
      if r < hRows h ∧ c < hCols h then some (i, j, r, c) else none
  if t.tilePoisoned (acc == .fp64) cd then s.opFault tid o (eccMatrix none)
  else
    match s.mstWrite tid o t h acc df (FEnv.ofMode o.mode) cd scl ps (when (rndReserved o.mode) wMODERES) with
    | (s, .error c) => s.opFault tid o c
    | (s, .ok w) => s.afterWrites tid o w

/-- The largest finite magnitude of a format that carries scales, as m · 2^e (R292). -/
def maxMag (c : Cvt) : Nat × Int :=
  match c with
  | .e4m3 => (448, 0)
  | .e3m2 => (28, 0)
  | .e2m3 => (15, -1)
  | .e2m1 => (6, 0)
  | .int8 => (127, 0)
  | _ => (7, 0)

/-- The scale of a group (R292). -/
def groupScale (acc df : Cvt) (xs : List Nat) : Nat × Word :=
  let ns := xs.map acc.unpack
  if ns.any Num.isNan then roundS20 .rup (.nan false false)
  else
    let mag (n : Num) : Num := match n with | .fin _ m e => .fin false m e | .inf _ => .inf false | n => n
    match ns.foldl (fun b n => if Num.gt (mag n) b then mag n else b) zeroNum with
    | .fin _ m e => roundS20 .rup (quotNum false m e (maxMag df).1 (maxMag df).2)
    | n => roundS20 .rup n

/-- mscl writes the scale words of its groups in order. -/
def State.msclWrite (s : State) (tid : Nat) (o : MatOp) (t : Team) (h : Handle) (acc df : Cvt) (cd : Nat) (ps : List (Nat × Nat))
    (warn : Word) : State × Except Cause Word :=
  match ps with
  | [] => (s, .ok warn)
  | (r, g) :: rest =>
    let xs := ((List.range' (32 * g) 32).filter fun j => decide (j < hCols h)).map fun j =>
      t.accElem (acc == .fp64) cd r j
    let (y, f) := groupScale acc df xs
    match s.locWrite tid o.origin (some o.place) (hLoc h) (scaleAddr h (hCols h) r (32 * g)) (toBytes 4 y) with
    | (s, some c) => (s, .error c)
    | (s, none) => s.msclWrite tid o t h acc df cd rest (warn ||| f)

/-- mscl retires. -/
def State.retireMscl (s : State) (tid : Nat) (t : Team) (o : MatOp) (p : PassFmt) (cd : Nat) (h : Handle) : State :=
  let ps := (List.range (hRows h)).flatMap fun r => (List.range ((hCols h + 31) / 32)).map fun g => (r, g)
  if t.tilePoisoned (p.acc o.fmt == .fp64) cd then s.opFault tid o (eccMatrix none)
  else
    match s.msclWrite tid o t h (p.acc o.fmt) ((hCvt h).getD .fp32) cd ps 0 with
    | (s, .error c) => s.opFault tid o c
    | (s, .ok w) => s.afterWrites tid o w

/-- mld retires: the block enters the A register with its recorded encoding (R271, R286). -/
def State.retireMld (s : State) (tid : Nat) (o : MatOp) (p : PassFmt) (ma : Nat) (h : Handle) (kc nb : Nat) : State :=
  match s.block tid h false nb kc p.ke (fun _ => true) (p.useA o.fmt) with
  | (s, .error c) => s.opFault tid o c
  | (s, .ok a) =>
    (s.loadA tid ma (some { a with enc := some (Cvt.fmtCode p.a, p.useA o.fmt) })).retireOp tid o.id

/-- The effect of an operation at its end, by its kind. -/
def State.retireKind (s : State) (tid : Nat) (t : Team) (o : MatOp) (lko : Option LkoSeq) (p : PassFmt) : State :=
  match o.kind with
  | .mld ma h kc nb => s.retireMld tid o p ma h kc nb
  | .mst cd h kc nb => s.retireMst tid t o p cd h kc nb
  | .mscl cd h => s.retireMscl tid t o p cd h
  | .lkoPred ma => match lko with | some l => s.retirePred tid ma o p l | none => s
  | .lkoChk cd ma _ => match lko with | some l => s.retireChk tid t cd ma o p l | none => s
  | .pass .. => s

/-- The oldest operation before an operation that can read now what it has yet to read for its passes. -/
def State.fetchable (s : State) (tid : Nat) (t : Team) (q : Sequencer) (o : MatOp) : Option MatOp :=
  (q.before o.id).find? fun x => decide (x.fetches < x.passCount q.lko) && q.knows x && s.memTurn tid t q x

/-- The reads of the operations that an operation comes after, which may be made at any time from their issue on, are made, so
that the operation's writes can follow them (R276). -/
def State.fetchBefore (s : State) (tid : Nat) (t : Team) (q : Sequencer) (o : MatOp) : State :=
  match s.fetchable tid t q o with
  | none => s
  | some x =>
    match s.fetchUpTo tid t x q.lko (x.passCount q.lko) with
    | (s, some c) => s.opFault tid x c
    | (s, none) => s

/-- An mld, mst or mscl in flight can finish: nothing that it waits for is a pass that has been withdrawn. -/
def State.canFinish (s : State) (tid : Nat) (t : Team) (q : Sequencer) (o : MatOp) : Bool :=
  t.tileTurn o && (s.memTurn tid t q o || (s.fetchable tid t q o).isSome)

/-- An mld, mst, mscl or Lookout operation finishes: a Lookout operation after its passes; each when its turn at its tile and
at memory has come, and the lines it writes are its own (R112). -/
def execMatrixOpRetire (tid id : Nat) (s : State) : Host.Outcome State Fault Refusal :=
  match Map.find s.teams tid with
  | none => .next s
  | some t =>
    match t.seq.bind fun q => (q.ops.find? fun o => o.id == id).map fun o => (o, q) with
    | none => .next s
    | some (o, q) =>
      match passFmt (passCode o.fmt) with
      | none => .next s
      | some p =>
        if !t.active || 0 < o.passes.left then .next s
        else
          match o.ended with
          | some w => .next (s.afterWrites tid o w)
          | none =>
            if !t.tileTurn o || s.outranked o.place o.owned then .next s
            else if !s.memTurn tid t q o then .next (s.fetchBefore tid t q o)
            else .next (s.runAs (o.reader tid) fun s => s.retireKind tid t o q.lko p)

end Sys2Proof.Machine
end

