-- ==== Sys2Proof/Machine/Placement.lean ====
section
/-!
DEFINITION. Placement of teams on cores (R384 to R387), the state of a team at launch (R142, R352), and resumption of saved
teams (R418).
-/

namespace Sys2Proof.Machine

open Sys2Proof

/-! ## What is free on a core (R384) -/

/-- The node has a matrix stream (R264). -/
def Node.hasMx (n : Node) : Bool := n.mxEntry != 0xFFFFFFFF

/-- The teams placed on a core. -/
def State.onCore (s : State) (core : Nat) : List Team := (s.teams.filter fun t => t.2.core == core).map Prod.snd

/-- The resident party slots taken on a core. -/
def State.slotsOn (s : State) (core : Nat) : List Nat :=
  (s.onCore core).flatMap fun t => t.parties.map fun q => q.2.resident

/-- Register granules taken on a core (R134). -/
def State.granulesOn (s : State) (core : Nat) : Nat :=
  ((s.onCore core).map fun t => t.parties.length * (s.vregCount t / 16)).sum

def State.lsOn (s : State) (core : Nat) : Nat := ((s.onCore core).map Team.lsSize).sum

/-- The first even physical tile at which `n` contiguous tiles are free. -/
def State.freeTiles (s : State) (core n : Nat) : Option Nat :=
  ([0, 2, 4, 6, 8, 10] : List Nat).find? fun a =>
    decide (a + n ≤ 12) && (s.onCore core).all fun t => decide (t.tiles = 0 ∨ n = 0 ∨ a + n ≤ t.tile0 ∨ t.tile0 + t.tiles ≤ a)

/-- Physical channels of a core that are free and not fenced. -/
def State.freeChannels (s : State) (core : Nat) : List Nat :=
  let used := (s.onCore core).flatMap fun t => t.channels.map fun c => c.2.phys
  (List.range 8).filter fun c => !used.contains c && !s.fenced.contains (FenceUnit.channel core c)

/-- A core has every resource of a node free, for a function's run (R384, R406, R422). -/
def State.fits (s : State) (n : Node) (fn core : Nat) : Bool :=
  decide (core < 192) && (Store.read s.clusterFn (clusterOf core)).toNat == fn &&
    !s.fenced.contains (FenceUnit.core core) &&
    !(n.hasMx && s.fenced.contains (FenceUnit.engine (clusterOf core))) &&
    decide (n.parties + (s.slotsOn core).length ≤ 16) &&
    decide (s.granulesOn core + n.parties * (n.vregs / 16) ≤ 85) &&
    decide (s.lsOn core + 4096 * n.ls ≤ 491520) && (s.freeTiles core n.tiles).isSome &&
    decide (n.chans ≤ (s.freeChannels core).length)

/-- A cluster holds a cluster group. -/
def State.hasGroup (s : State) (cluster : Nat) : Bool :=
  s.teams.any fun t => t.2.group.isSome && clusterOf t.2.core == cluster

/-- Cores in rising order. -/
def rising (cs : List Nat) : Bool := (cs.zip (cs.drop 1)).all fun c => decide (c.1 < c.2)

/-- A team may be placed on a core, or `k` members of a group at once on cores of one cluster, in rising order, that
holds no other group (R384). -/
def State.coresFit (s : State) (n : Node) (fn k : Nat) (cores : List Nat) : Bool :=
  if n.group = 0 then cores.length == 1 && cores.all (s.fits n fn)
  else
    cores.length == k && rising cores && cores.all (s.fits n fn) &&
      cores.all (fun c => clusterOf c == clusterOf (cores.headD 0)) && !s.hasGroup (clusterOf (cores.headD 0))

/-- Cores that fit a team in a cluster, the lowest first: enough for it, or none. -/
def State.clusterCores (s : State) (n : Node) (fn cluster : Nat) : List Nat :=
  let cs := ((List.range' (4 * cluster) 4).filter (s.fits n fn)).take (max 1 n.group)
  if s.coresFit n fn n.group cs then cs else []

/-- A team of the node fits somewhere on a die. -/
def State.fitsOn (s : State) (n : Node) (fn die : Nat) : Bool :=
  (List.range' (12 * die) 12).any fun c => !(s.clusterCores n fn c).isEmpty

/-! ## The delivered area (R349) -/

/-- Records delivered to a team that have not retired, fault records apart. -/
def Team.delivered (t : Team) : Nat :=
  ((t.teamRecords ++ t.parties.flatMap fun q => q.2.records).filter fun d => !d.retired && !d.fault).length

/-- Records that a die holds beside its queues: delivered, registered as continuations, and fault records. -/
def State.deliveredOn (s : State) (die : Nat) : Nat :=
  ((s.teams.filter fun t => t.2.die == die).map fun t => t.2.delivered).sum +
    ((s.joins.filter fun j => j.1 / 65536 == die).map fun j => j.2.conts.length).sum + (Store.read s.reserve die).toNat

/-- What the quotas of the runs on a die leave free of its 262,144 records, never less than 4 MiB (R3, R340, R349). -/
def State.areaOf (s : State) (die : Nat) : Nat :=
  max 65536 (262144 - ((s.runs.filter fun r => r.2.me.dies.testBit die).map fun r => (r.2.image.nodes.map Node.quota).sum).sum)

/-- Records of a gathered team fit the delivered area of their die. -/
def State.areaRoom (s : State) (g : Gathered) : Bool :=
  decide (s.deliveredOn g.die + (g.recs.filter fun x => !x.fault).length ≤ s.areaOf g.die)

/-! ## Who is placed next (R386) -/

/-- A team that waits for a core: gathered and not yet placed, or saved and to be resumed. -/
structure Waiting where
  prio : Nat
  stamp : Nat
  run : Nat
  /-- Its place among the run's gathered teams, or the saved team. -/
  which : Nat ⊕ Nat
deriving DecidableEq, Repr

def Waiting.before (a b : Waiting) : Bool :=
  decide (b.prio < a.prio) || (a.prio == b.prio && decide (a.stamp < b.stamp))

/-- The teams of a team's cluster group that have not retired, in the order of the members; outside a group, the team
alone. -/
def State.membersOf (s : State) (tid : Nat) (t : Team) : List Nat :=
  match t.group with
  | none => [tid]
  | some g => (List.range g.2).filterMap fun m =>
      (s.teams.find? fun u => u.2.group == some g && u.2.vcore == m).map Prod.fst

/-- The team stands for its group: it is the lowest member left. -/
def State.leads (s : State) (tid : Nat) (t : Team) : Bool := (s.membersOf tid t).head? == some tid

/-- A run whose teams are placed. -/
def Run.placing (r : Run) : Bool := r.state == .active && !r.draining

/-- The teams that wait on a die. -/
def State.waitingOn (s : State) (die : Nat) : List Waiting :=
  (s.runs.flatMap fun r =>
    if r.2.placing then
      (((List.range r.2.gathered.length).zip r.2.gathered).filter fun g => g.2.die == die).map fun g =>
        { prio := (r.2.node? g.2.node).elim 0 Node.prio, stamp := g.2.stamp.toNat, run := r.1, which := .inl g.1 }
    else []) ++
  (s.teams.filter fun t =>
      t.2.state == .saved && t.2.die == die && s.leads t.1 t.2 && (Map.find s.runs t.2.run).any Run.placing).map fun t =>
    { prio := s.prioOf t.2, stamp := t.2.stamp.toNat, run := t.2.run, which := .inr t.1 }

/-- The team that is placed next on a die; after a trip, none (R460). -/
def State.nextWaiting (s : State) (die : Nat) : Option Waiting :=
  match (if s.trip then [] else s.waitingOn die) with
  | [] => none
  | w :: ws => some (ws.foldl (fun a b => if Waiting.before b a then b else a) w)

/-! ## The state at launch (R142, R352) -/

/-- Parties on each of the four tracks of a core: one that has retired is on none. -/
def State.trackLoads (s : State) (core : Nat) : List Nat :=
  (List.range 4).map fun k =>
    ((s.onCore core).map fun t => (t.parties.filter fun q => q.2.track == k && !q.2.retired).length).sum

/-- The track with the fewest parties, the lowest number on a tie (R387). -/
def lightest (loads : List Nat) : Nat :=
  (List.range loads.length).foldl (fun b k => if loads.getD k 0 < loads.getD b 0 then k else b) 0

/-- Tracks of `n` parties, bound in order. -/
def bindTracks (loads : List Nat) (n : Nat) : List Nat :=
  match n with
  | 0 => []
  | n + 1 => lightest loads :: bindTracks (loads.modify (lightest loads) (· + 1)) n

/-- The first `n` resident slots that are free. -/
def State.freeSlots (s : State) (core n : Nat) : List Nat :=
  ((List.range 16).filter fun k => !(s.slotsOn core).contains k).take n

/-- A record as it is delivered, to a lane in RMODE 0. -/
def QRec.deliver (x : QRec) (lane : Option Nat) : Delivered :=
  { words := x.words, lane := lane, retired := false, fault := x.fault }

/-- Records of one party: its share, with the lane of each in RMODE 0. -/
def partyRecords (n : Node) (p : Nat) (recs : List QRec) : List Delivered :=
  if n.rmode = 0 then
    let mine := (recs.drop (96 * p)).take 96
    ((List.range mine.length).zip mine).map fun x => x.2.deliver (some x.1)
  else if n.rmode = 1 then ((recs.drop (n.rpp * p)).take n.rpp).map fun x => x.deliver none
  else []

/-- The mask of the first n lanes. -/
def firstLanes (n : Nat) : Mask := BitVec.ofNat 96 (2 ^ min n 96 - 1)

/-- The record that the window of a lane shows (R352). -/
def windowRec (n : Node) (mine : List Delivered) (team : List QRec) (l : Nat) : Option Rec :=
  if n.rmode = 0 then (mine[l]?).map Delivered.words
  else if n.rmode = 1 then (if mine.isEmpty then none else (mine[l % mine.length]?).map Delivered.words)
  else team.head?.map QRec.words

/-- A party at launch. -/
def launchParty (n : Node) (recs : List QRec) (clk p track resident : Nat) : Party :=
  let mine := partyRecords n p recs
  let live : Mask := if recs.isEmpty then 0 else if n.rmode = 0 then firstLanes mine.length else firstLanes 96
  let vregs := (List.range n.rwin).foldl (fun m k =>
    writeLanes m k (fun l => match windowRec n mine recs l with
      | some r => recWord r (4 + k)
      | none => 0) (maskLanes live)) []
  let of_ := if n.rmode = 2 then recs.map QRec.words else mine.map Delivered.words
  let count := if n.rmode = 2 then min 1 recs.length else mine.length
  let total := if n.rmode = 2 then min 1 recs.length else recs.length
  { slot0 := { Slot.idle with live := true, pc := n.entry, mask := live, age := 1 }
    slot1 := Slot.idle, live := live, vregs := vregs, vPoison := [], stackPoison := [], popB := [], acquires := [], sregs := [], warn := 0, tstart := 0
    depth := BitVec.ofNat 32 (of_.foldl (fun m r => max m (recDepth r)) 0)
    recs := BitVec.ofNat 32 (count + 65536 * total)
    records := mine, stack := [], nextAge := 2, ports := [], pending := [], accesses := [], remote := [], track := track,
    resident := resident, starve := 0, yielded := false, lastIssue := clk, hangSent := false, retired := false,
    arrivals := [] }

/-- A sequencer at launch (R264). -/
def launchSeq (n : Node) : Option Sequencer :=
  if n.hasMx then
    some { stopped := false, pc := n.mxEntry, clause := none, k := [], fmt := 0, mode := 0, latch := none, wait := .none,
           barWait := none, lko := none, ops := [], check := 0 }
  else none

/-- The handle registers that a node's bindings set (R339). -/
def bindHandles (img : Image) (n : Node) : Store 64 :=
  ((img.binds.drop n.bind0).take n.nbind).foldl (fun h b =>
    Store.write h b.1 (handleReg (BitVec.ofNat 64 (img.dataVa + b.2)))) []

/-- A team at launch. -/
def State.launchTeam (s : State) (run : Nat) (r : Run) (n : Node) (g : Gathered) (core vcore : Nat)
    (group : Option (Nat × Nat)) (no : Word) (recs : List QRec) : Team :=
  let tracks := bindTracks (s.trackLoads core) n.parties
  let slots := s.freeSlots core n.parties
  let others := (List.range n.group).filter (· != vcore)
  { state := .resident, run := run, node := g.node, die := g.die, core := core, lastCore := core, teamNo := no,
    vcore := vcore, group := group, mig := 0,
    parties := (List.range n.parties).map fun p =>
      (p, launchParty n recs s.clk.toNat p (tracks.getD p 0) (slots.getD p 0)),
    handles := bindHandles r.image n, ls := [], lsSize := 4096 * n.ls, lsPoison := [], accPoison := [], acc := [],
    tiles := n.tiles, tile0 := (s.freeTiles core n.tiles).getD 0, aregs := [], seq := launchSeq n,
    channels := ((List.range n.chans).zip (s.freeChannels core)).map fun c =>
      (c.1, { phys := c.2, cmds := [], next := 0, wptr := 0xFE000000 }),
    free := others.foldl (fun m k => Store.write m k (BitVec.ofNat 32 n.rslots)) [],
    sent := [], recv := [], acked := [], barriers := [], neStatus := 0, lko := 0, lkoNew := [], fault := none,
    stamp := g.stamp,
    teamRecords := if n.rmode = 2 then recs.map fun x => x.deliver none else [], lastExit := none }

/-- Members of a gathered team: index, core, team number, and share of the records (R384). -/
def shares (n : Node) (at_ : List (Nat × Word)) (recs : List QRec) : List (Nat × Nat × Word × List QRec) :=
  let each := max 1 (n.capacity / max 1 n.group)
  ((List.range at_.length).zip at_).map fun x => (x.1, x.2.1, x.2.2, (recs.drop (each * x.1)).take each)

/-- A team has been placed on a core: none of its parties has waited there yet (R419). -/
def State.occupied (s : State) (core : Nat) : State := { s with coreLast := Store.write s.coreLast core s.clk }

/-- Places a gathered team, each member on its core with its team number. -/
def State.place (s : State) (run : Nat) (r : Run) (n : Node) (k : Nat) (g : Gathered) (at_ : List (Nat × Word)) : State :=
  let tid0 := s.nextId
  let group := if n.group = 0 then none else some (tid0, n.group)
  let s := s.modRun run fun r => { r with
    gathered := r.gathered.eraseIdx k
    teamNos := r.teamNos ++ at_.map Prod.snd }
  let s := if n.group = 0 then s
    else { s with clBarriers := s.clBarriers.filter fun b => b.1 / 16 != clusterOf ((at_.map Prod.fst).headD 0) }
  (shares n at_ g.recs).foldl (fun s m =>
    let (id, s) := s.fresh
    let t := s.launchTeam run r n g m.2.1 m.1 group m.2.2.1 m.2.2.2
    ({ s with teams := Map.set s.teams id t } : State).occupied m.2.1) s

/-- R385: when cores of the cluster of the oldest record's party, on this die, fit, the cores are that cluster's. -/
def State.preferred (s : State) (n : Node) (fn : Nat) (g : Gathered) (cores : List Nat) : Bool :=
  match g.origin with
  | none => true
  | some c => c / 12 != g.die || cores.all (fun k => clusterOf k == c) || (s.clusterCores n fn c).isEmpty

/-- The next team of a die is placed, once the delivered area holds its records: on any core that fits, or for a group on
any such cores of a cluster, each team with a number that no team of the run has had (R137, R349, R384 to R387). -/
def execTeamPlacement (die : Nat) (cores : List Nat) (nos : List Word) (s : State) : Host.Outcome State Fault Refusal :=
  match s.nextWaiting die with
  | some { run := run, which := .inl k, .. } =>
    match Map.find s.runs run with
    | none => .next s
    | some r =>
      match r.gathered[k]? with
      | none => .next s
      | some g =>
        match r.node? g.node with
        | none => .next s
        | some n =>
          if nos.length ≠ cores.length ∨ !s.coresFit n r.fn n.group cores ∨ !s.areaRoom g ∨ (cores.any fun c => dieOf c != die) ∨ !s.preferred n r.fn g cores ∨
              nos.any r.teamNos.contains ∨ !decide nos.Nodup then .next s
          else .next (s.place run r n k g (cores.zip nos))
  | _ => .next s

/-! ## Moving a team (R151, R414, R418) -/

/-- Moves what is kept by core with a team: its convoy slots, and with the lowest member the barriers of its cluster
group. -/
def State.moveTeam (s : State) (tid : Nat) (t : Team) (core : Nat) : State :=
  let lead := s.leads tid t
  let mine := s.cvSlots.filter fun c => c.2.tid == tid
  let slots := mine.foldl (fun m c => Map.set m (16 * core + c.1 % 16) c.2) (s.cvSlots.filter fun c => c.2.tid != tid)
  let s := { s with cvSlots := slots }
  let s :=
    if t.group.isSome ∧ lead = true then
      let bars := s.clBarriers.filter fun b => b.1 / 16 == clusterOf t.core
      let others := s.clBarriers.filter fun b => b.1 / 16 != clusterOf t.core && b.1 / 16 != clusterOf core
      { s with clBarriers := bars.foldl (fun m b => Map.set m (16 * clusterOf core + b.1 % 16) b.2) others }
    else s
  s.modTeam tid fun t => { t with core := core }

/-- The convoy slots of a team are free on a core: its tokens name them by number. -/
def State.convoysFit (s : State) (tid core : Nat) : Bool :=
  (s.cvSlots.filter fun c => c.2.tid == tid).all fun c => (Map.find s.cvSlots (16 * core + c.1 % 16)).isNone

/-- The engine commands of a team move to its cluster. DESIGN CHOICE: with those that wait there already they can be more than
the limits of R120 and R130; the spec does not say that a resume waits for room (log entry 72). -/
def State.moveCommands (s : State) (tid core : Nat) : State :=
  let mine := s.ssu.flatMap fun c => c.2.filter fun x => x.tid == tid
  let mineN := s.ne.flatMap fun c => c.2.filter fun x => x.tid == tid
  let put {α : Type} (m : Map (List α)) (xs : List α) : Map (List α) :=
    if xs.isEmpty then m
    else Map.set m (clusterOf core) ((Map.find m (clusterOf core)).getD [] ++ xs)
  { s with
    ssu := put (Map.mapVals s.ssu fun _ cs => cs.filter fun x => x.tid != tid) (mine.map fun x => { x with core := core })
    ne := put (Map.mapVals s.ne fun _ cs => cs.filter fun x => x.tid != tid) (mineN.map fun x => { x with core := core }) }

/-- A team's stalled emissions are offered again, behind those that wait, and so are those that its save has withdrawn from
peers (R414). -/
def State.offerAgain (s : State) (tid : Nat) : State :=
  let here (e : Stalled) : Bool := e.tid == tid && e.peer.isNone
  let away (o : Outstanding) : Bool := o.tid == tid && o.waiting && o.held
  let os := s.outstanding.filter away
  os.foldl (fun s o => (s.request tid o.party none o.origin o.req.dst 0 o.req.op (tag := some o.tag)).1)
    { s with
      stalled := (s.stalled.filter fun e => !here e) ++ s.stalled.filter here
      outstanding := s.outstanding.filter fun o => !away o }

/-- The entries that a team posts from now on have a new age (R301). -/
def State.newAges (s : State) (tid age : Nat) : State :=
  let anew (c : SsuCmd) : SsuCmd := if c.tid = tid then { c with passes := { c.passes with age := age } } else c
  ({ s with ssu := Map.mapVals s.ssu fun _ cs => cs.map anew } : State).modSeq tid fun q =>
    { q with ops := q.ops.map fun o => { o with passes := { o.passes with age := age } } }

/-- The tracks of a team's parties on a core: those that have retired are on none. -/
def State.tracksFor (s : State) (t : Team) (core : Nat) : Store 8 :=
  let live := (t.parties.filter fun q => !q.2.retired).map Prod.fst
  (live.zip (bindTracks (s.trackLoads core) live.length)).foldl (fun m x => Store.write m x.1 (BitVec.ofNat 8 x.2)) []

/-- A saved team issues again on a core: engines replay from where they were (R118), withdrawn passes have new ages
(R301), gathers start their walks again (R189), stalled emissions are offered again, behind those that wait (R414), kept replies
are delivered (R411), the residency timers go on (R420). -/
def State.resumeOn (s : State) (tid : Nat) (n : Node) (core : Nat) : State :=
  match Map.find s.teams tid with
  | none => s
  | some t =>
    let tracks := s.tracksFor t core
    let slots := s.freeSlots core n.parties
    let chans := s.freeChannels core
    let tile0 := (s.freeTiles core n.tiles).getD 0
    let age := s.placeNow core 10 (slots.foldl min 31)
    let s := ((((s.moveTeam tid t core).moveCommands tid core).occupied core).offerAgain tid).newAges tid age
    let s := s.modTeam tid fun t =>
      { t with
        state := .resident
        lastCore := core
        mig := if core = t.lastCore then t.mig else t.mig + 1
        tile0 := tile0
        channels := Map.mapVals t.channels fun c x => { x with phys := chans.getD c x.phys }
        parties := Map.mapVals t.parties fun p q =>
          { q with track := (Store.read tracks p).toNat, resident := slots.getD p 0, lastIssue := s.clk.toNat - q.lastIssue } }
    let s := t.parties.foldl (fun s q => q.2.accesses.foldl (fun s a => s.startWalks core (s.tagOf t) true a.lanes) s) s
    (s.holds.filter fun h => match h.2.held with | some (k, _) => k == tid | none => false).foldl (fun s h =>
      match h.2.reply with
      | some v => s.deliverReply h.1 v
      | none => s) s

/-- A saved team, or what is left of its group, is placed again, the members in their order (R386, R418). -/
def execTeamResume (tid : Nat) (cores : List Nat) (s : State) : Host.Outcome State Fault Refusal :=
  match Map.find s.teams tid with
  | none => .next s
  | some t =>
    match s.nextWaiting t.die, s.node? t, Map.find s.runs t.run with
    | some { which := .inr k, .. }, some n, some r =>
      let members := s.membersOf tid t
      let ms := members.zip cores
      if !s.coresFit n r.fn members.length cores ∨ k ≠ tid ∨ (cores.any fun c => dieOf c != t.die) ∨ !ms.all fun m => s.convoysFit m.1 m.2 then
        .next s
      else .next (ms.foldl (fun s m => s.resumeOn m.1 n m.2) s)
    | _, _, _ => .next s

end Sys2Proof.Machine
end

