-- ==== Sys2Proof/Machine/HostBase.lean ====
section
/-!
DEFINITION. What the device does for a queue: memory accesses under a queue's context, signals (R429), status words (R416),
completion of packets (R426), run reports (R361), result blocks (R427) and the fault log (R434).
-/

namespace Sys2Proof.Machine

open Sys2Proof

/-! ## Queues -/

/-- Key of queue q of function f. -/
def qKey (f q : Nat) : Nat := 1024 * f + q

/-- Function of a queue. -/
def fnOf (key : Nat) : Nat := key / 1024

/-- A queue page; one that nothing has written is as after reset. -/
def State.queue (s : State) (key : Nat) : Queue := (Map.find s.queues key).getD Queue.reset

def State.setQueue (s : State) (key : Nat) (q : Queue) : State := { s with queues := Map.set s.queues key q }

def State.modQueue (s : State) (key : Nat) (f : Queue → Queue) : State := s.setQueue key (f (s.queue key))

/-- The function page. -/
def State.fnPage (s : State) (f : Nat) : FnPage := (Map.find s.fnPages f).getD FnPage.reset

def State.modFn (s : State) (f : Nat) (g : FnPage → FnPage) : State :=
  { s with fnPages := Map.set s.fnPages f (g (s.fnPage f)) }

/-- The runs of a queue. -/
def State.runsOf (s : State) (key : Nat) : List (Nat × Run) := s.runs.filter fun r => r.2.queue == key

/-- The queue has an active run. -/
def State.hasRun (s : State) (key : Nat) : Bool := !(s.runsOf key).isEmpty

/-- An error of a queue: ERR, and STATE 3 (R423). -/
def State.failQueue (s : State) (key err : Nat) : State :=
  s.modQueue key fun q => { q with err := err, state := .error }

/-! ## Memory under a queue's context (R425) -/

/-- Translates a virtual address of a queue's space: under the queue's context tag, or, while none is assigned, by a walk
from its root table that leaves nothing in the caches. -/
def State.queueTarget (s : State) (key : Nat) (u : Use) (va : Nat) : State × Except Cause Target :=
  let q := s.queue key
  match q.mapped with
  | some m => s.walkTo m.2 q.privileged u va
  | none =>
    let c : Context := { root := q.root.toNat, fn := fnOf key, queue := key }
    (s.stick (!s.mayWalk 0 0), (({ s with contexts := Map.set s.contexts 0 c, tlbDie := [], walks := [] } : State).walkTo 0 q.privileged u va).2)

/-- What it answers. -/
def State.queueWalk (s : State) (key : Nat) (u : Use) (va : Nat) : Except Cause Target := (s.queueTarget key u va).2

/-- Reads `n` bytes, or none where one cannot be read. -/
def State.queueBytes (s : State) (key va n : Nat) : State × Option (List Byte) :=
  match n with
  | 0 => (s, some [])
  | n + 1 =>
    match s.queueTarget key .load va with
    | (s, .error _) => (s, none)
    | (s, .ok t) =>
      let (s, b) := s.engineByte none t va
      match s.queueBytes key (va + 1) n with
      | (s, some bs) => (s, some (b :: bs))
      | (s, none) => (s, none)

/-- The same for the queue: bytes of peers are the queue's to ask for, and used up when all are there. -/
def State.queueRead (s : State) (key va n : Nat) : State × Option (List Byte) :=
  let (s, r) := s.readAs { id := queueReader key, tid := 0, origin := noOrigin, serial := true } fun s => s.queueBytes key va n
  (if s.stuck then s else s.usedBytes (queueReader key), r)

/-- The context tag of a mapped queue. -/
def Queue.tag (q : Queue) : Option (BitVec 16) := q.mapped.map Prod.snd

/-- The pieces of a run of bytes that lie in one sector each. -/
def sectorPieces (va : Nat) (bs : List Byte) (fuel : Nat) : List (Nat × List Byte) :=
  match fuel, bs with
  | 0, _ => []
  | _, [] => []
  | k + 1, bs =>
    let n := 64 - va % 64
    (va, bs.take n) :: sectorPieces (va + n) (bs.drop n) k

/-- Writes bytes, all or none: none where a byte cannot be written. -/
def State.queueWrite (s : State) (key va : Nat) (bs : List Byte) : Option State :=
  let ps := sectorPieces va bs (bs.length / 64 + 2)
  if ps.all fun p => (s.queueWalk key .store p.1).isOk then
    some (ps.foldl (fun s p =>
      match s.queueTarget key .store p.1 with
      | (s, .ok t) => s.enginePut 0 noOrigin none t p.1 p.2 (s.queue key).tag
      | (s, .error _) => s) s)
  else none

/-! ## Signals and parked WAITs (R429, R430) -/

/-- 64 bits of a packet from word n. -/
def pktWide (w : Rec) (n : Nat) : DWord := recWord w (n + 1) ++ recWord w n

/-- The operations of SIGNAL (R425). -/
inductive SigOp where
  | set | add | sub
deriving DecidableEq, Repr

/-- WAIT's condition (R425). -/
def waitHolds (cond : Nat) (x v : DWord) : Bool :=
  match cond with
  | 0 => decide (v.toNat ≤ x.toNat)
  | 1 => x == v
  | 2 => x != v
  | _ => decide (x.toNat < v.toNat)

/-- Evaluates a WAIT packet: none where its signal cannot be read. The read is an acquire at .sy. -/
def State.evalWait (s : State) (key : Nat) (w : Rec) : State × Option Bool :=
  let va := (pktWide w 2).toNat
  if va % 8 ≠ 0 then (s, none)
  else
    match s.queueRead key va 8 with
    | (s, some bs) => (s, some (waitHolds (fld (recWord w 6) 0 8).toNat (BitVec.ofNat 64 (ofBytes bs)) (pktWide w 4)))
    | (s, none) => (s, none)

/-- Writes a signal (R429): one write at .sy; a bad address is ERR 2. -/
def State.putSignal (s : State) (key : Nat) (va : DWord) (op : SigOp) (v : DWord) : State :=
  let a := va.toNat
  if a % 8 ≠ 0 then s.failQueue key 2
  else
    match s.queueTarget key .store a with
    | (s, .error _) => s.failQueue key 2
    | (s, .ok t) =>
      let tag := (s.queue key).tag
      match t.peer, op with
      | some r, .add => (s.request 0 none none noOrigin r t.pa (.atomic .add .n64 v 0 false) (tag := tag)).1
      | some r, .sub => (s.request 0 none none noOrigin r t.pa (.atomic .add .n64 (-v) 0 false) (tag := tag)).1
      | _, .set => s.enginePut 0 noOrigin none t a (toBytes 8 v.toNat) tag
      | none, _ =>
        match s.settle t.pa with
        | (s, some r, pa) => (s.request 0 none none noOrigin r pa (.atomic .add .n64 (if op = .add then v else -v) 0 false) (tag := tag)).1
        | (s, none, pa) =>
          let s := s.reach pa 8
          let x : DWord := BitVec.ofNat 64 (bytesFrom s.mem pa 8)
          s.poke pa (toBytes 8 (if op = .add then x + v else x - v).toNat)

/-- A signal to be written: the queue whose context names it, its address, the operation, the value, and the packet that
completes with the write. -/
structure SigWrite where
  key : Nat
  va : DWord
  op : SigOp
  v : DWord
  pkt : Option Nat
deriving DecidableEq, Repr

/-- TYPE of a packet (R425). -/
def Packet.type (p : Packet) : Nat := (fld (recWord p.words 0) 0 8).toNat

/-- Changes a started packet of a queue. -/
def State.modPacket (s : State) (key idx : Nat) (f : Packet → Packet) : State :=
  s.modQueue key fun q => { q with started := q.started.map fun p => if p.index = idx then f p else p }

/-- The signal that completes a packet is being written. -/
def State.marked (s : State) (key idx : Nat) : State := s.modPacket key idx fun p => { p with signalled := true }

/-- Takes a packet that completes out of the started ones, with each BARRIER without a signal that completes with it (R426):
a BARRIER completes when every earlier packet has, and its signal has been written. Answers the signal of the BARRIER whose
turn it then is. -/
def State.takeOut (s : State) (key idx : Nat) : State × List SigWrite :=
  let ps := ((s.queue key).started.filter fun p => p.index != idx).dropWhile fun p =>
    p.type == 5 && pktWide p.words 2 == 0
  let s := s.modQueue key fun q => { q with started := ps, idleAt := s.tbase.toNat }
  match ps with
  | p :: _ =>
    if p.type = 5 ∧ !p.signalled then
      (s.marked key p.index,
        [{ key := key, va := pktWide p.words 2, op := .set, v := pktWide p.words 4, pkt := some p.index }])
    else (s, [])
  | [] => (s, [])

/-- The parked WAIT of a queue. -/
def Queue.parkedWait (q : Queue) : Option Packet :=
  if q.state = .parked then q.started.find? fun p => p.type == 2 else none

/-- Where a signal lies: the owning peer and the physical address. -/
def State.signalPlace (s : State) (key : Nat) (va : DWord) : Option (Option Nat × Nat) :=
  match s.queueWalk key .load va.toNat with
  | .ok t => some (t.peer, t.pa)
  | .error _ => none

/-- The queues whose parked WAIT looks at a place. -/
def State.waitsOn (s : State) (place : Option (Option Nat × Nat)) : List Nat :=
  if place.isNone then []
  else
    (s.queues.filter fun q =>
      match q.2.parkedWait with
      | some p => s.signalPlace q.1 (pktWide p.words 2) == place
      | none => false).map Prod.fst

/-- Evaluates the parked WAITs of some queues again (R430); answers the signals of BARRIERs that complete with them. -/
def State.testWaits (s : State) (keys : List Nat) : State × List SigWrite :=
  keys.foldl (fun (s, out) key =>
    match (s.queue key).parkedWait with
    | none => (s, out)
    | some p =>
      match s.evalWait key p.words with
      | (s, some true) =>
        let (s, more) := (s.modQueue key fun q => { q with state := .enabled }).takeOut key p.index
        (s, out ++ more)
      | (s, some false) => (s, out)
      | (s, none) => (s.failQueue key 2, out)) (s, [])

/-- The queue's tables give a signal a place where it can be written. -/
def State.canSignal (s : State) (key : Nat) (va : DWord) : Bool :=
  decide (va.toNat % 8 = 0) && (s.queueWalk key .store va.toNat).isOk

/-- The packet of a signal that has been written completes (R426): at once, or with the answer of the peer that request
`id`, if there is one, asks to write it. -/
def State.signalled (s : State) (w : SigWrite) (id : Nat) : State × List SigWrite :=
  match w.pkt with
  | none => (s, [])
  | some idx =>
    if s.outstanding.any fun o => o.id == id then (s.modPacket w.key idx fun p => { p with awaits := some id }, [])
    else if s.canSignal w.key w.va then s.takeOut w.key idx
    else (s, [])

/-- Writes signals; each write has the WAITs on that signal evaluated (R430), which may have further signals written. -/
def State.writeSignals (s : State) (todo : List SigWrite) (fuel : Nat) : State :=
  match fuel, todo with
  | 0, _ => s
  | _, [] => s
  | k + 1, w :: rest =>
    let id := s.nextId
    let s := s.putSignal w.key w.va w.op w.v
    let (s, more) := s.testWaits (s.waitsOn (s.signalPlace w.key w.va))
    let (s, next) := s.signalled w id
    s.writeSignals (rest ++ more ++ next) k

/-- Each signal comes from a packet that has started, so that this bounds the writes. -/
def State.sigFuel (s : State) : Nat := (s.queues.map fun q => q.2.started.length).sum + 1

/-- A packet of a queue completes. -/
def State.completePacket (s : State) (key idx : Nat) : State :=
  let n := s.sigFuel
  let (s, sigs) := s.takeOut key idx
  s.writeSignals sigs n

/-- Evaluates the parked WAITs of some queues again (R430). -/
def State.pollWaits (s : State) (keys : List Nat) : State :=
  let n := s.sigFuel
  let (s, sigs) := s.testWaits keys
  s.writeSignals sigs n

/-- Writes a signal, with which a packet may complete, and the WAITs that look at it are evaluated. -/
def State.signal (s : State) (key : Nat) (va : DWord) (op : SigOp) (v : DWord) (pkt : Option Nat := none) : State :=
  s.writeSignals [{ key := key, va := va, op := op, v := v, pkt := pkt }] s.sigFuel

/-- A peer has written a signal: the packet that it completes is complete. -/
def State.signalLanded (s : State) (id : Nat) : State :=
  match s.queues.findSome? fun q => (q.2.started.find? fun p => p.awaits == some id).map fun p => (q.1, p.index) with
  | some (key, idx) => s.completePacket key idx
  | none => s

/-! ## The queue status word (R416) -/

/-- A status word: RUNG, BUSY, RESUM, REASON, TEAMS. -/
def statusWord (rung : Nat) (busy resum : Bool) (reason teams : Nat) : Word :=
  BitVec.ofNat 32 (2 ^ 30 * rung + (if busy then 2 ^ 29 else 0) + (if resum then 2 ^ 28 else 0) + 2 ^ 26 * reason +
    min teams 0xFFFF)

def stRung (w : Word) : Nat := (fld w 30 2).toNat
def stBusy (w : Word) : Bool := w.getLsbD 29
def stResum (w : Word) : Bool := w.getLsbD 28
def stReason (w : Word) : Nat := (fld w 26 2).toNat
def stTeams (w : Word) : Nat := (fld w 0 16).toNat

/-- Sets and writes a queue's status word; none is written when STATVA is 0. -/
def State.postStatus (s : State) (key : Nat) (w : Word) : State :=
  let s := s.modQueue key fun q => { q with status := w }
  let va := (s.queue key).statva.toNat
  if va = 0 then s else (s.queueWrite key va (toBytes 4 w.toNat)).getD s

/-- PREEMPT packets whose target's ladder has ended complete, and RESET packets once the reset has (R426). -/
def State.finishPreempts (s : State) (target : Nat) (reset : Bool) : State :=
  s.queues.foldl (fun s q =>
    q.2.started.foldl (fun s p =>
      if (p.type = 6 ∨ p.type = 7 ∧ reset) ∧ qKey (fnOf q.1) (fld (recWord p.words 2) 0 16).toNat = target then s.completePacket q.1 p.index
      else s) s) s

/-! ## The end of a run (R361, R427) -/

/-- The 16 bytes of a node's report entry. -/
def reportBytes (p : Report) : List Byte :=
  toBytes 4 p.acc ++ toBytes 4 p.ret ++ toBytes 4 p.peak ++ toBytes 2 p.spld ++ toBytes 1 p.maxd ++ toBytes 1 p.flags.toNat

/-- Dies of a member. -/
def Member.dieList (m : Member) : List Nat := (List.range 4).filter m.dies.testBit

/-- Writes the run's reports (R361), with a flag set in every entry; the Bool says that one could not be written. -/
def State.writeReports (s : State) (r : Run) (flag : BitVec 8) : State × Bool :=
  let n := r.image.nodes.length
  r.me.dieList.foldl (fun (s, bad) die =>
    let bs := (List.range n).flatMap fun k =>
      let p := (Map.find r.reports (queueKey die k)).getD Report.zero
      reportBytes { p with flags := p.flags ||| flag }
    match s.queueWrite r.queue (r.me.report + die * n * 16) bs with
    | some s => (s, bad)
    | none => (s, true)) (s, false)

/-- The result block (R427). -/
def State.writeResult (s : State) (key result code detail : Nat) : State × Bool :=
  if result = 0 then (s, false)
  else
    let x (k : Nat) : List Byte := toBytes 4 (Config.faultWord (s.free + k)).toNat
    let bs := toBytes 4 code ++ toBytes 4 detail ++ toBytes 8 s.tbase.toNat ++ x 0 ++ x 1 ++ x 2 ++ x 3
    let s := { s with free := s.free + 4 }
    match s.queueWrite key result bs with
    | some s => (s, false)
    | none => (s, true)

/-- A LAUNCH completes: its result block, its signal unless a queue reset ended it, then the error of a write that could not
be made. -/
def State.endLaunch (s : State) (key idx : Nat) (result doneSig : Nat) (doneVal : DWord) (code detail : Nat) (signal bad : Bool) :
    State :=
  let (s, b) := s.writeResult key result code detail
  let s := if signal && doneSig != 0 then s.signal key (BitVec.ofNat 64 doneSig) .set doneVal else s
  let s := s.completePacket key idx
  if bad || b then s.failQueue key 2 else s

/-- Every join slot of a run returns to EMPTY (R358). Continuations still held are discarded; at the run's completion the
report entry of the owner node says so (R361). -/
def State.clearJoins (s : State) (run : Nat) (completes : Bool) : State :=
  let mine := s.joins.filter fun j => j.2.run == run
  let s := mine.foldl (fun s j =>
    if j.2.conts.isEmpty || !completes then s
    else s.modRun run fun r => r.modReport (j.1 / 65536) j.2.owner fun p => { p with flags := p.flags ||| 16 }) s
  { s with joins := s.joins.filter fun j => j.2.run != run }

/-- Fault records of a run on a die that no team has. -/
def Run.queuedFaults (r : Run) (die : Nat) : Nat :=
  ((((r.queues.filter fun q => q.1 / 4096 == die).flatMap Prod.snd) ++
    (r.gathered.filter fun g => g.die == die).flatMap Gathered.recs).filter QRec.fault).length

/-- The entries of the reserves that a run's discarded fault records hold are free (R403). -/
def State.freeReserves (s : State) (r : Run) : State :=
  r.me.dieList.foldl (fun s die =>
    let n := r.queuedFaults die
    if n = 0 then s else { s with reserve := Store.write s.reserve die (Store.read s.reserve die - BitVec.ofNat 32 n) }) s

/-- A run ends with a result code. -/
def State.endRun (s : State) (run code : Nat) (flag : BitVec 8) (signal : Bool) : State :=
  let s := s.clearJoins run (code == 1)
  match Map.find s.runs run with
  | none => s
  | some r =>
    let (s, bad) := s.writeReports r flag
    let s := s.freeReserves r
    let s := { s with runs := Map.drop s.runs run, stalled := s.stalled.filter fun e => e.run != run, deferred := s.deferred.filter fun d => (Map.find s.teams d.tid).isSome }
    s.endLaunch r.queue r.packet r.result r.doneSig r.doneVal code 0 signal bad

/-! ## Records to firmware (R396, R434) -/

/-- A record to the fault log of a run's function, or a drop; firmware has it either way. -/
def State.logFault (s : State) (r : Run) (rec : Rec) : State :=
  let s := { s with sent := s.sent ++ [Reply.faultToFirmware r.fn rec] }
  let p := s.fnPage r.fn
  let size := 2 ^ ((p.flog.extractLsb' 0 4).toNat + 6)
  let base := sext57 ((p.flog.extractLsb' 6 51).toNat * 64)
  let drop : State := s.modFn r.fn fun p =>
    { p with flogdrop := 0x80000000 ||| BitVec.ofNat 32 (min ((fld p.flogdrop 0 31).toNat + 1) (2 ^ 31 - 1)) }
  if p.flog = 0 ∨ (p.flogw - p.flogr).toNat = size then drop
  else
    match s.queueWrite r.queue (base + 64 * (p.flogw.toNat % size)) (rec.flatMap fun w => toBytes 4 w.toNat) with
    | some s => s.modFn r.fn fun p => { p with flogw := p.flogw + 1 }
    | none => drop

end Sys2Proof.Machine
end

