-- ==== Sys2Proof/Machine/Runs.lean ====
section
/-!
DEFINITION. The steps of the graph scheduler: accepting stalled emissions, refilling, gathering, seeding, retirement of teams,
completion of runs (R348 to R361, R378, R393), fault records and the containment of a fault (R396 to R405), and deadlock (R350).
-/

namespace Sys2Proof.Machine

open Sys2Proof

/-! ## Queues -/

/-- The entries of a list before one with a number. -/
def olderThan (id : Nat) (es : List Stalled) : List Stalled := es.takeWhile fun e => e.id != id

/-- A record of a peer's request: what it came to, for a repeat or a withdrawal (R402, R445). -/
def State.note (s : State) (src agent : Nat) (seqno : BitVec 16) (v : DWord) : State :=
  { s with applied := s.applied ++ [{ src := src, agent := agent, seqno := seqno, ret := v, at_ := s.tbase }] }

/-- A stalled emission of a resident team, or of a peer, is accepted once its queue can take it (R348). -/
def execStalledEmissionAccept (id : Nat) (s : State) : Host.Outcome State Fault Refusal :=
  match s.stalled.find? fun e => e.id == id with
  | none => .next s
  | some e =>
    if s.offered e && s.canAccept (olderThan id s.stalled) e.run e.die e.node e.recs.length then
      let s := { s with stalled := s.stalled.filter fun x => x.id != id }
      .next <| match e.peer with
        | none => s.acceptRecs e.run e.die e.node (some e.cluster) e.recs
        | some (src, agent, seqno) =>
          let s := (s.acceptRecs e.run e.die e.node none e.recs).note src agent seqno 1
          { s with sent := s.sent ++ [Reply.fabric src agent seqno .ack] }
    else .next s

/-- Spilled records move back into record SRAM, oldest first (R348). -/
def execSpillRefill (run die node : Nat) (s : State) : Host.Outcome State Fault Refusal :=
  .next (s.modRun run fun r =>
    { r with queues := Map.update r.queues (queueKey die node) fun q => refill (r.sramRoom die node) q })

/-- The window of the oldest waiting record has passed: a team is gathered from what the queue holds (R351). -/
def execGatherWindowExpiry (run die node : Nat) (s : State) : Host.Outcome State Fault Refusal :=
  .next (s.modRun run fun r =>
    match r.node? node, (r.nodeQueue die node).head? with
    | some n, some x =>
      if r.draining ∨ !r.seeded.contains die ∨ s.clk.toNat < x.since + n.window then r else r.gatherOne die node n.capacity s.tbase
    | _, _ => r)

/-- Every queue of a run gathers what it can: after a drain, and after seeding. -/
def Run.gatherAll (r : Run) (now : DWord) : Run :=
  r.queues.foldl (fun r q => r.gatherQueue (q.1 / 4096) (q.1 % 4096) now) r

/-! ## Seeding (R360, R393, R465) -/

/-- A seed as it is accepted: seeds carry depth 0 (R354), whatever the host has put there (DEDUCED, log entry 63). -/
def seedRec (r : Rec) : Rec :=
  match r with
  | w :: t => (w &&& 0xF0FFFFFF) :: t
  | [] => []

/-- Seeds that go to a die: seed i to the participating die in position i modulo their number. -/
def seedsFor (dies : List Nat) (die : Nat) (seeds : List Rec) : List Rec :=
  (((List.range seeds.length).zip seeds).filter fun x => dies[x.1 % dies.length]? == some die).map Prod.snd

/-- A launch that would seal banks of a die waits for copies into its weight store (R58). -/
def State.sealBlocked (s : State) (r : Run) (die : Nat) : Bool :=
  !r.privileged && (s.wsCopies.any fun c => c.die == die) &&
    (List.range 64).any fun b => (Store.read s.bankFn (64 * die + b)).toNat == r.fn

/-- At the start time the GS of a die seeds the entry nodes; every seed is accepted before any team is gathered. -/
def execRunSeed (run die : Nat) (s : State) : Host.Outcome State Fault Refusal :=
  match Map.find s.runs run with
  | none => .next s
  | some r =>
    let may : Bool := !s.trip && (r.state == .held || r.state == .active) && !r.draining && decide (r.start.toNat ≤ s.tbase.toNat) &&
      r.me.dies.testBit die && !r.seeded.contains die && !s.sealBlocked r die
    if !may then .next s
    else
      .next (s.modRun run fun r =>
        let r := { r with state := .active, seeded := die :: r.seeded }
        let r := (seedsFor r.me.dieList die (r.seeds.map seedRec)).foldl
          (fun r x => r.accept die (recTarget x) s.clk.toNat none [x]) r
        r.gatherAll s.tbase)

/-! ## What a team still has to do (R378) -/

/-- An engine command of a team has not ended. -/
def State.engaged (s : State) (tid : Nat) (t : Team) : Bool :=
  (t.channels.any fun c => !c.2.cmds.isEmpty) || (s.ssu.any fun c => c.2.any fun x => x.tid == tid) ||
    (s.ne.any fun c => c.2.any fun x => x.tid == tid) || t.seq.any fun q => !q.ops.isEmpty

/-- A party has stores, stream elements or reductions that are not performed at .dv. -/
def State.unperformed (s : State) (tid : Nat) (t : Team) : Bool :=
  (t.parties.any fun q => !q.2.accesses.isEmpty || !q.2.remote.isEmpty || q.2.ports.any fun p => !p.2.unwritten.isEmpty) ||
    (s.wcb.any fun c => c.2.any fun e => e.owners.any fun o => o.1 == tid) ||
    (s.reductions.any fun e => e.owners.any fun o => o.1 == tid) || s.outstanding.any fun o => o.tid == tid

/-- Join slots of an owner that retires: RESOLVED and FAULTED ones are free again (R358). -/
def State.releaseJoins (s : State) (tid : Nat) : State :=
  { s with joins := s.joins.filter fun j => !(j.2.ownerTid == tid && (j.2.state == .resolved || j.2.state == .faulted)) }

/-- Teams of a queue's runs. -/
def State.teamsOf (s : State) (key : Nat) : List (Nat × Team) :=
  s.teams.filter fun t => (Map.find s.runs t.2.run).any fun r => r.queue == key

/-- TEAMS of the status word: the queue's saved teams (R416). -/
def State.savedOf (s : State) (key : Nat) : Nat := ((s.teamsOf key).filter fun t => t.2.state == .saved).length

/-- The ladder's drain rung succeeds once no team of the queue is resident (R412, R413). -/
def State.drainCheck (s : State) (key : Nat) : State :=
  let w := (s.queue key).status
  let resident := (s.teamsOf key).any fun t => t.2.state != .saved
  if stBusy w && stRung w == 1 && !resident && !(s.queue key).resetting then
    (s.postStatus key (statusWord 1 false true (stReason w) (s.savedOf key))).finishPreempts key false
  else s

/-- The save rung succeeds once every team of the queue is saved (R412). -/
def State.saveCheck (s : State) (key : Nat) : State :=
  let w := (s.queue key).status
  let n := s.savedOf key
  if stBusy w && stRung w == 2 && !(s.queue key).resetting then
    if ((s.teamsOf key).all fun t => t.2.state == .saved) = true then
      (s.postStatus key (statusWord 2 false true (stReason w) n)).finishPreempts key false
    else s.modQueue key fun q => { q with status := statusWord 2 true false (stReason w) n }
  else s

/-- A team of the queue has left its core: the rung that the ladder stands on may have succeeded. -/
def State.ladderCheck (s : State) (key : Nat) : State := (s.drainCheck key).saveCheck key

/-! ## Completion of runs (R361) -/

/-- Nothing of a run is left on this device. -/
def State.runEmpty (s : State) (run : Nat) (r : Run) : Bool :=
  r.state == .active && (r.me.dieList.all r.seeded.contains) && (r.queues.all fun q => q.2.isEmpty) && r.gathered.isEmpty &&
    (!s.teams.any fun t => t.2.run == run) && (!s.stalled.any fun e => e.run == run) &&
    !s.deferred.any fun d => (Map.find s.teams d.tid).any fun t => t.run == run

/-- The run completes: reports, the result block, the signal. That the other members have completed is what the step
says of the outside. -/
def execRunComplete (run : Nat) (s : State) : Host.Outcome State Fault Refusal :=
  match Map.find s.runs run with
  | none => .next s
  | some r => if s.runEmpty run r then .next (s.endRun run 1 0 true) else .next s

/-! ## Fault records (R396 to R398) -/

/-- The record of a fault. -/
def faultRecord (rank : Nat) (t : Team) (f : FaultRec) (target : Nat) (fatal : Bool) : Rec :=
  let lane := f.lane.getD 0x7F
  let bit (b : Bool) (k : Nat) : Nat := if b then 2 ^ k else 0
  let addr := f.addr.getD 0
  let w (n : Nat) : Word := BitVec.ofNat 32 n
  [w (target + 0x30FF0000), w (rank + 0xFFFF0000), w (0xFF + 2 ^ 8 * (t.node + 2 ^ 16 * lane)), 0,
    w (f.cause + 2 ^ 8 * f.sub + 2 ^ 16 * f.supp + bit f.origin.party.isNone 24 + bit f.engine 25 + bit f.addr.isSome 26 +
      bit fatal 27 + bit f.deferred 28),
    f.origin.pc, f.origin.clause, f.origin.word,
    w (2 ^ 16 * t.node + 2 ^ 5 * lane + bit f.origin.slot 4 + f.origin.party.getD 0), t.teamNo,
    w (2 ^ 16 * (t.mig.toNat % 2 ^ 16) + 2 ^ 8 * (pcoreWord t.core).toNat + t.vcore), w addr, w (addr / 2 ^ 32 % 2 ^ 25),
    w (2 ^ 16 * f.waitX + f.waitOn), w f.stamp.toNat, f.info]

/-- Where a record of a team goes (R396): the fault node, or none for firmware. -/
def State.faultTarget (s : State) (r : Run) (t : Team) : Option Nat :=
  match r.image.faultNode with
  | none => none
  | some k =>
    let fatal : Bool := (r.node? t.node).any Node.fatal
    if fatal ∨ t.node = k ∨ 1024 ≤ (Store.read s.reserve t.die).toNat then none else some k

/-- Delivers the record of a fault: to the fault node's queue with an entry of the reserve, or to firmware (R396, R403). -/
def State.deliverFault (s : State) (run : Nat) (r : Run) (t : Team) (f : FaultRec) (fatal : Bool) : State :=
  let rank := s.rank.toNat
  match s.faultTarget r t with
  | some k =>
    ({ s with reserve := Store.write s.reserve t.die (Store.read s.reserve t.die + 1) } : State).acceptRecs run t.die k none
      [faultRecord rank t f k fatal] (fault := true)
  | none =>
    let full : Bool := match r.image.faultNode with
      | some k => !(r.node? t.node).any Node.fatal && t.node != k && decide (1024 ≤ (Store.read s.reserve t.die).toNat)
      | none => false
    let s := if full then { s with reserveOver := Store.write s.reserveOver t.die (Store.read s.reserveOver t.die + 1) } else s
    s.logFault r (faultRecord rank t f 0xFFFF fatal)

/-! ## Retirement of teams (R378) -/

/-- The fault record of a fault that a record's retirement with its team has raised (R355): it stops nothing. -/
def State.lateFault (s : State) (t : Team) (c : Cause) : State :=
  match Map.find s.runs t.run with
  | some r =>
    s.deliverFault t.run r t
      { cause := c.cause, sub := c.sub, deferred := true, engine := false, origin := t.lastExit.getD noOrigin, lane := c.lane,
        addr := c.addr, info := c.info, waitOn := 0, waitX := 0, stamp := s.tbase >>> 8, supp := 0 } false
  | none => s

/-- A record retires with its team (R355). -/
def State.retireLate (s : State) (tid : Nat) (t : Team) (d : Delivered) : State :=
  match s.retireRec tid (t.lastExit.getD noOrigin) t d (some t) with
  | (s, some h) => s.lateFault t (doubleResolve h)
  | (s, none) => s

/-- A team retires (R378): its records of RMODE 2 retire, its slots follow R358, its core is free. -/
def execTeamRetire (tid : Nat) (s : State) : Host.Outcome State Fault Refusal :=
  match Map.find s.teams tid with
  | none => .next s
  | some t =>
    let busy : Bool := !t.running || (t.parties.any fun q => !q.2.retired) || s.engaged tid t || s.unperformed tid t ||
      (s.stalled.any fun e => e.tid == tid) || (s.deferred.any fun d => d.tid == tid) ||
      s.wsCopies.any fun c => c.dest.any fun d => d.1 == tid
    if busy then .next s
    else
      let key := match Map.find s.runs t.run with | some r => r.queue | none => 0
      let rs := t.teamRecords.filter fun d => !d.retired
      let s := (s.releaseJoins tid).dropConvoys tid
      let s := { s with teams := Map.drop s.teams tid }
      .next ((rs.foldl (fun s d => s.retireLate tid t d) s).ladderCheck key)

/-! ## Containment (R402, R404) -/

/-- What a team that ends has asked of peers is not waited for, and its emissions that no queue has taken are withdrawn
(R402). -/
def State.withdrawEmissions (s : State) (tid : Nat) : State :=
  let drop (o : Outstanding) : Bool := o.tid == tid && o.after.isNone && match o.req.op with
    | .read _ | .readLine _ | .cvload .. | .joinRead _ | .emission .. | .cvprepare .. => true
    | _ => false
  let mine := s.outstanding.filter fun o => o.tid == tid && match o.req.op with | .emission .. => true | _ => false
  let s := { s with outstanding := sendNext s.tbase drop s.outstanding }
  mine.foldl (fun s o => (s.request tid none none noOrigin o.req.dst 0 (.withdraw o.req.seqno) (tag := some o.tag)).1) s

/-- The entries of the reserve that the fault records delivered to a team hold are free (R403). -/
def State.freeDelivered (s : State) (t : Team) : State :=
  let n := ((t.teamRecords ++ t.parties.flatMap fun q => q.2.records).filter fun d => !d.retired && d.fault).length
  if n = 0 then s
  else { s with reserve := Store.write s.reserve t.die (Store.read s.reserve t.die - BitVec.ofNat 32 n) }

/-- A team that has faulted ends: its commands and waiting emissions are dropped, its slots fail, its convoys abort, its
hold entries are freed, its records retire without resolving, its core is free. DESIGN CHOICE: what a store stream has taken and
not yet written is dropped with the engines' commands (log entry 80). -/
def State.contain (s : State) (tid : Nat) (t : Team) : State :=
  let mine := s.deferred.filter fun d => d.tid == tid
  let s := { s with
    ssu := Map.mapVals s.ssu fun _ cs => cs.filter fun x => x.tid != tid
    ne := Map.mapVals s.ne fun _ cs => cs.filter fun x => x.tid != tid
    stalled := s.stalled.filter fun e => e.tid != tid
    deferred := s.deferred.filter fun d => d.tid != tid
    joins := Map.mapVals s.joins fun _ j => if j.ownerTid = tid then j.fail else j }
  let s := s.withdrawEmissions tid
  let s := mine.foldl (fun s d => s.failJoin tid d.handle) s
  let s := (s.dropConvoys tid).releaseJoins tid
  let s := (s.holds.filter fun h => match h.2.held with | some (k, _) => k == tid | none => false).foldl (fun s h =>
    s.freeEntry h.1) s
  let rs := (t.teamRecords ++ t.parties.flatMap fun q => q.2.records).filter fun d => !d.retired
  let s := rs.foldl (fun s d => s.countRetired t d) s
  { s with teams := Map.drop s.teams tid }

/-- A fatal fault stops every team of the run and discards its records (R404). -/
def State.stopRun (s : State) (run : Nat) : State :=
  let s := match Map.find s.runs run with | some r => s.freeReserves r | none => s
  let s := s.modRun run fun r => { r with state := .fatal, queues := [], gathered := [] }
  let s := { s with stalled := s.stalled.filter fun e => e.run != run || e.peer.isNone }
  { s with teams := Map.mapVals s.teams fun _ t => if t.run = run then { t with state := .stopping } else t }

/-- The other devices of a run are told that a fatal fault stops it (R404). -/
def State.tellMembers (s : State) (r : Run) : State :=
  (r.members.filter fun m => m.rank != s.rank.toNat).foldl (fun s m =>
    (s.request 0 none none noOrigin m.rank 0 (.fatalStop r.ident.toNat) (tag := some r.tag)).1) s

/-- The run of a fatal fault ends with its last team. -/
def State.fatalEnd (s : State) (run : Nat) : State :=
  match Map.find s.runs run with
  | none => s
  | some r => if r.state = .fatal ∧ !(s.teams.any fun t => t.2.run == run) then s.endRun run 4 0 true else s

/-- The delivery of a fault record is a release at .dv: the team's buffered stores and reductions are performed (R402,
R403). -/
def State.settleStores (s : State) (tid core : Nat) : State :=
  (s.applyReductions fun e => e.owners.any fun o => o.1 == tid).drain core fun _ => true

/-- A request whose effect on memory is one that has issued: R402 has it performed. -/
def FabOp.writes : FabOp → Bool
  | .write _ | .writeLine .. | .atomic .. | .reduce .. => true
  | _ => false

/-- The stop of a team can complete: its granted passes have finished, and its scatters and atomics, and what it has written at
peers or the directory holds, are performed (R402). -/
def State.stopped (s : State) (tid : Nat) (t : Team) : Bool :=
  t.state == .stopping && (!t.seq.any fun q => q.ops.any fun o => o.passes.inArray != 0) &&
    (!t.parties.any fun q => q.2.accesses.any fun a => a.kind.writes) &&
    (!s.outstanding.any fun o => o.tid == tid && FabOp.writes o.req.op) &&
    !s.heldStores.any fun h => h.owners.any fun x => x.1 == tid

/-- The stop of a faulting team completes and its record is delivered (R402 to R405): its buffered stores and reductions first.
A team that a fatal fault of its run stops has no record of its own. -/
def execFaultStop (tid : Nat) (s : State) : Host.Outcome State Fault Refusal :=
  match Map.find s.teams tid with
  | none => .next s
  | some t =>
    let s := s.settleStores tid t.core
    if !s.stopped tid t then .next s
    else
      let s := s.contain tid t
      match Map.find s.runs t.run with
      | none => .next s
      | some r =>
        match t.fault with
        | some f =>
          if r.state = .fatal then .next ((s.fatalEnd t.run).ladderCheck r.queue)
          else
            let fatal : Bool := (r.node? t.node).any Node.fatal
            let s := s.deliverFault t.run r t f fatal
            let s := if fatal then ((s.stopRun t.run).tellMembers r).fatalEnd t.run else s
            .next (s.ladderCheck r.queue)
        | none => .next ((s.fatalEnd t.run).ladderCheck r.queue)

/-! ## Deadlock (R350) -/

/-- The team that waits next on a die fits nowhere, or its records find no place in the delivered area (R349). -/
def State.blocked (s : State) (w : Waiting) (die : Nat) : Bool :=
  let gathered : Option Gathered := match w.which with
    | .inl k => (Map.find s.runs w.run).bind fun r => r.gathered[k]?
    | .inr _ => none
  let node : Option Node := match w.which with
    | .inl _ => (Map.find s.runs w.run).bind fun r => gathered.bind fun g => r.node? g.node
    | .inr tid => (Map.find s.teams tid).bind s.node?
  match node, Map.find s.runs w.run with
  | some n, some r => !s.fitsOn n r.fn die || gathered.any fun g => !s.areaRoom g
  | _, _ => false

/-- No record in the queue of a node can be placed on a die: no team of the node fits, the delivered area is full (R349), or a
team that waits earlier in the order of R386 cannot be placed. -/
def State.unplaceable (s : State) (r : Run) (die node : Nat) : Bool :=
  match r.node? node with
  | none => true
  | some n =>
    !s.fitsOn n r.fn die || decide (s.areaOf die ≤ s.deliveredOn die) ||
      match s.nextWaiting die with
      | some w => decide (n.prio ≤ w.prio) && s.blocked w die
      | none => false

/-- The conditions of R350 hold now: every queue of the set is at its quota and the die's spill is full; every resident
team of a node of the set has a party stalled on an emission into the set; no record in a queue of the set can be
placed. -/
def State.deadlocked (s : State) (run die : Nat) (nodes : List Nat) : Bool :=
  match Map.find s.runs run with
  | none => false
  | some r =>
    !nodes.isEmpty && (nodes.all fun k => r.sramRoom die k == 0 && !(r.nodeQueue die k).isEmpty && s.unplaceable r die k) &&
      decide (r.image.spill ≤ r.spilledOn die) &&
      s.teams.all fun t =>
        !(t.2.run == run && t.2.die == die && nodes.contains t.2.node && t.2.state != .saved) ||
          s.stalled.any fun e => e.tid == t.1 && e.die == die && nodes.contains e.node

/-- Sets that no longer meet the conditions are watched no more: they must hold continuously. -/
def State.watchDead (s : State) : State :=
  if s.deadWatch.isEmpty then s
  else { s with deadWatch := s.deadWatch.filter fun w => s.deadlocked w.1 w.2.1 w.2.2.1 }

/-- The age of the slot of a stalled emission. -/
def State.slotAge (s : State) (e : Stalled) : Nat :=
  match s.party? e.tid e.party with
  | some q => (q.slot e.origin.slot).age
  | none => 0

/-- Stalled emissions in the order in which simultaneous faults of a team count (R401): by party, and the older slot first. -/
def State.inFaultOrder (s : State) (es : List Stalled) : List Stalled :=
  (List.range 16).flatMap fun p =>
    let mine := es.filter fun e => e.party == p
    let first (e : Stalled) : Bool :=
      !mine.any fun x => x.tid == e.tid && x.origin.slot != e.origin.slot && decide (s.slotAge x < s.slotAge e)
    mine.filter first ++ mine.filter fun e => !first e

/-- The fault of a stalled emission (R350): its team's, or a peer's answer. -/
def State.deadlockFault (s : State) (die : Nat) (e : Stalled) : State :=
  let s := s.modRun e.run fun r => r.modReport die e.node fun p => { p with flags := p.flags ||| 4 }
  match e.peer with
  | none => s.laterFault e.tid e.origin { cause := 0x0D, info := BitVec.ofNat 32 e.node } false false
  | some (src, agent, seqno) => { s with sent := s.sent ++ [Reply.fabric src agent seqno (.joinFault 0x0D 0)] }

/-- A set of nodes that meets the conditions of a deadlock is watched; after 225,000 cycles every stalled emission into it
faults, and none of it is accepted (R350). -/
def execGraphDeadlockDetect (run die : Nat) (nodes : List Nat) (s : State) : Host.Outcome State Fault Refusal :=
  if !s.deadlocked run die nodes then .next s
  else
    let mine (w : Nat × Nat × List Nat × Nat) : Bool := w.1 == run && w.2.1 == die && w.2.2.1 == nodes
    match s.deadWatch.find? mine with
    | none => .next { s with deadWatch := (run, die, nodes, s.clk.toNat) :: s.deadWatch }
    | some w =>
      if s.clk.toNat < w.2.2.2 + 225000 then .next s
      else
        let into (e : Stalled) : Bool := e.run == run && e.die == die && nodes.contains e.node
        let hit := s.stalled.filter into
        let s := { s with
          stalled := s.stalled.filter fun e => !into e
          deadWatch := s.deadWatch.filter fun w => !mine w }
        .next ((s.inFaultOrder (hit.filter fun e => e.peer.isNone) ++ hit.filter fun e => e.peer.isSome).foldl
          (fun s e => s.deadlockFault die e) s)

end Sys2Proof.Machine
end

