-- ==== Sys2Proof/Machine/Preempt.lean ====
section
/-!
DEFINITION. The pre-emption ladder (R412 to R416), saving (R151, R189, R301, R414), hang reports (R420), queue resets (R431,
R432), and the gating of cores (R419).
-/

namespace Sys2Proof.Machine

open Sys2Proof

def State.modRunsOf (s : State) (key : Nat) (f : Run → Run) : State :=
  { s with runs := Map.mapVals s.runs fun _ r => if r.queue = key then f r else r }

/-! ## The ladder -/

/-- The ladder starts (R412, R413): the queue's runs drain, and the status word says so. One that is in progress goes
on. -/
def State.startLadder (s : State) (key reason : Nat) : State :=
  let q := s.queue key
  if stBusy q.status || q.resetting then s
  else
    let s := s.modRunsOf key fun r => { r with draining := true }
    let s := s.modQueue key fun q => { q with rungAt := s.tbase.toNat }
    (s.postStatus key (statusWord 1 true false reason (s.savedOf key))).drainCheck key

/-- A team stops at its instruction boundaries to be saved (R414): entries of the reservation table are withdrawn (R301), and the
emissions that peers have not accepted are asked back. -/
def State.beginSave (s : State) (tid : Nat) : State :=
  match Map.find s.teams tid with
  | none => s
  | some t =>
    if t.state ≠ .resident then s
    else
      let mine (o : Outstanding) : Bool := o.tid == tid && match o.req.op with | .emission .. => true | _ => false
      let s := (s.modTeam tid fun t => { t with state := .saving }).withdrawPasses tid
      let away := s.outstanding.filter fun o => mine o && !o.waiting
      let s := { s with outstanding := s.outstanding.map fun o => if mine o && o.waiting then { o with held := true } else o }
      away.foldl (fun s o => (s.request tid none none noOrigin o.req.dst 0 (.withdraw o.req.seqno)).1) s

/-- T1 expires with teams resident: each stops at its instruction boundaries to be saved (R414). -/
def execLadderDrainTimeout (key : Nat) (s : State) : Host.Outcome State Fault Refusal :=
  let q := s.queue key
  let left := (s.teamsOf key).any fun t => t.2.state != .saved
  if !stBusy q.status || stRung q.status != 1 || q.resetting || decide (s.tbase.toNat < q.rungAt + 256 * q.t1) || !left then
    .next s
  else
    let s := (s.teamsOf key).foldl (fun s t => s.beginSave t.1) s
    let s := s.modQueue key fun q => { q with rungAt := s.tbase.toNat }
    .next (s.postStatus key (statusWord 2 true false (stReason q.status) (s.savedOf key)))

/-- A team's state can be saved: nothing that must finish first is under way (R118, R189, R263, R301). An mld, mst or mscl that
waits for a withdrawn pass is saved as it stands (DEDUCED, log entry 81). -/
def State.savable (s : State) (tid : Nat) (t : Team) : Bool :=
  t.state == .saving && t.fault.isNone &&
    (t.parties.all fun q => q.2.remote.isEmpty && q.2.accesses.all fun a => a.kind == .vldg && a.missed.isNone) &&
    (!s.outstanding.any fun o => o.tid == tid && match o.req.op with
      | .emission .. => !(o.waiting && o.held)
      | .cvopen => false
      | _ => true) &&
    (match t.seq with
     | some q => q.ops.all fun o => o.passes.inArray == 0 && o.ended.isNone && (match o.kind with
       | .mld .. | .mst .. | .mscl .. => !s.canFinish tid t q o
       | _ => true)
     | none => true) &&
    s.ssu.all fun x => x.2.all fun c => c.tid != tid || c.passes.inArray == 0

/-- A lane of a gather that will issue again (R189); an address that is not canonical fails again. -/
def LaneAcc.again (x : LaneAcc) : LaneAcc :=
  { x with tgt := none, failed := x.failed.filter (· == (6, 1)), val := none }

/-- The engine commands and matrix operations of a team. -/
def State.readersOf (s : State) (tid : Nat) (t : Team) : List Nat :=
  (t.channels.flatMap fun c => c.2.cmds.map CopyCmd.id) ++ (t.seq.elim [] fun q => q.ops.map MatOp.id) ++
    (s.ssu.flatMap fun c => (c.2.filter fun x => x.tid == tid).map SsuCmd.id) ++
    s.ne.flatMap fun c => (c.2.filter fun x => x.tid == tid).map NeCmd.id

/-- The state that is saved: its core's buffered stores of the team drain (R313), gathers will issue again, what its engines have
read at peers and not used is read afresh (R118), the latch is dropped, its residency timers stop (R420), and the team leaves its
core with its engine commands. -/
def State.save (s : State) (tid : Nat) (t : Team) : State :=
  let fresh (a : Access) : Access := { a with lanes := a.lanes.map LaneAcc.again }
  let virtual := 4 * (48 + (match t.group with | some g => g.1 | none => tid)) + t.vcore
  let s := s.drain t.core fun e => e.owners.any fun x => x.1 == tid
  let readers := s.readersOf tid t
  let s := { s with peerData := s.peerData.filter fun b => !readers.contains (b.1 / 2 ^ 64) }
  ((s.moveTeam tid t virtual).moveCommands tid virtual).modTeam tid fun t =>
    { t with
      state := .saved
      seq := t.seq.map fun q => { q with latch := none }
      parties := Map.mapVals t.parties fun _ q =>
        { q with accesses := q.accesses.map fresh, lastIssue := s.clk.toNat - q.lastIssue } }

/-- A team, or its whole cluster group, reaches the save area (R414). -/
def execTeamSaveComplete (tid : Nat) (s : State) : Host.Outcome State Fault Refusal :=
  match Map.find s.teams tid with
  | none => .next s
  | some t =>
    let members := if t.group.isSome then s.teams.filter fun u => u.2.group == t.group else [(tid, t)]
    let ready := members.all fun u => s.savable u.1 u.2
    if ready then
      let key := match Map.find s.runs t.run with | some r => r.queue | none => 0
      .next ((members.foldl (fun s u => s.save u.1 u.2) s).ladderCheck key)
    else .next s

/-! ## The reset rung (R415) -/

/-- A team is discarded: its engine commands are abandoned without a status word, its stores stay. -/
def State.discard (s : State) (tid : Nat) (t : Team) : State :=
  let s := { s with
    ssu := Map.mapVals s.ssu fun _ cs => cs.filter fun x => x.tid != tid
    ne := Map.mapVals s.ne fun _ cs => cs.filter fun x => x.tid != tid
    stalled := s.stalled.filter fun e => e.tid != tid
    deferred := s.deferred.filter fun d => d.tid != tid }
  let s := ((s.withdrawEmissions tid).dropConvoys tid).freeDelivered t
  let s := (s.holds.filter fun h => match h.2.held with | some (k, _) => k == tid | none => false).foldl (fun s h =>
    s.freeEntry h.1) s
  ({ s with teams := Map.drop s.teams tid } : State).settleStores tid t.core

/-- The queue's teams are discarded and its runs end with code 5 and report flag 5; the signals are written only by the
ladder. -/
def State.resetRung (s : State) (key : Nat) (signal : Bool) : State :=
  let runs := (s.runsOf key).map Prod.fst
  let s := (s.teamsOf key).foldl (fun s t => s.discard t.1 t.2) s
  runs.foldl (fun s r => s.endRun r 5 32 signal) s

/-- A write under the queue's context tag is still outstanding at a peer. -/
def State.writesOut (s : State) (key : Nat) : Bool :=
  s.outstanding.any fun o => (s.queue key).tag == some o.tag && FabOp.writes o.req.op

/-- The end of the reset rung: its word is a release at .sy, so that it is written once every write of the queue's work is
performed (R416). -/
def State.resetDone (s : State) (key : Nat) : State :=
  let w := (s.queue key).status
  if s.writesOut key then s
  else (s.postStatus key (statusWord 3 false false (stReason w) (stTeams w))).finishPreempts key false

/-- T2 expires with teams unsaved: the reset rung, and its end once its writes are performed. -/
def execLadderSaveTimeout (key : Nat) (s : State) : Host.Outcome State Fault Refusal :=
  let q := s.queue key
  let left := (s.teamsOf key).any fun t => t.2.state != .saved
  if !stBusy q.status || q.resetting then .next s
  else if stRung q.status = 3 then .next (s.resetDone key)
  else if stRung q.status ≠ 2 ∨ s.tbase.toNat < q.rungAt + 256 * q.t2 ∨ !left then .next s
  else
    .next (((s.resetRung key true).modQueue key fun x => { x with
      status := statusWord 3 true false (stReason q.status) (stTeams q.status) }).resetDone key)

/-- A drained or saved queue resumes (R418): its teams are placed again, and its queues gather. -/
def State.resumeQueue (s : State) (key : Nat) : State :=
  let w := (s.queue key).status
  if stResum w then
    let s := s.modQueue key fun q => { q with status := w &&& ~~~0x10000000 }
    s.modRunsOf key fun r => ({ r with draining := false } : Run).gatherAll s.tbase
  else s

/-! ## Hang reports -/

/-- The word of the text that a hang report names (R398): the one at the slot's PC, a free value where it cannot be read
(DESIGN CHOICE, log entry 26). -/
def State.wordAt (s : State) (w : Who) (t : Team) (pc : Word) : State × Word :=
  let (s, r) := s.readAs { id := whoKey w, tid := whoTeam w, origin := noOrigin, serial := false } fun s => s.fetchWord t pc
  match r with
  | .ok x => (s, x)
  | .error _ => (s.useFree, Config.faultWord s.free)

/-- A residency timer reaches HANGT (R420): a report of the party, at most one a wait, to the fault node's queue or firmware,
and always to firmware (R396), which answers with the ladder. -/
def execHangReport (tid p : Nat) (s : State) : Host.Outcome State Fault Refusal :=
  match Map.find s.teams tid with
  | none => .next s
  | some t =>
    match Map.find t.parties p, Map.find s.runs t.run with
    | some q, some r =>
      let waited := s.clk.toNat - q.lastIssue
      if !t.running || q.retired || q.hangSent || decide (waited < s.hangt) then .next s
      else
        let sl := !q.slot0.live
        let x := q.slot sl
        let (s, word) := s.wordAt (.party tid p sl) t x.pc
        let f : FaultRec :=
          { cause := 0x13, sub := 0, deferred := false, engine := false
            origin := { pc := x.pc, clause := x.clauseAddr, word := word, party := some p, slot := sl }
            lane := none, addr := none, info := BitVec.ofNat 32 (waited / 2250000), waitOn := x.wait.code.1,
            waitX := x.wait.code.2, stamp := s.tbase >>> 8, supp := 0 }
        let copied := (s.faultTarget r t).isSome
        let s := s.modParty tid p fun q => { q with hangSent := true }
        let s := s.deliverFault t.run r t f false
        let s := if copied then s.logFault r (faultRecord s.rank.toNat t f 0xFFFF false) else s
        .next (s.startLadder r.queue 2)
    | _, _ => .next s

/-! ## Queue reset (R431, R432) -/

/-- Steps 1 and 2 of a reset; the drain of step 3 follows. -/
def State.beginReset (s : State) (key : Nat) : State :=
  let q := s.queue key
  if q.resetting then s
  else
    let s := s.postStatus key (statusWord (stRung q.status) true false 0 (stTeams q.status))
    let s := s.modQueue key fun q => { q with rptr := q.wptr, started := [], resetting := true }
    let s := { s with wsCopies := s.wsCopies.filter fun c => c.dest.isSome || c.queue != key }
    s.resetRung key false

/-- Every request that a queue's context tag has issued is older than a target will perform (R431, R450): the fabric timeout and
the bound between time bases have passed since the last of them. -/
def State.drained (s : State) (key : Nat) : Bool :=
  match (s.queue key).tag with
  | none => true
  | some tag => (Map.find s.lastReq tag.toNat).all fun k => decide (k + 256 * (s.fto + s.bound) ≤ s.tbase.toNat)

/-- Zero-fills the memory of a function and returns its registers, the PF's PWRCAP among them, to their reset values
(R461, R462). -/
def State.zeroFill (s : State) (f : Nat) : State :=
  let mine (pa : Nat) : Bool :=
    (regionOf pa == .hbm && (Store.read s.hbmFn (pa / 2 ^ 30)).toNat == f) ||
      (regionOf pa == .weights && (Store.read s.bankFn (64 * homeDie pa + pa / 256 % 64)).toNat == f)
  { s with
    mem := s.mem.filter fun b => !mine b.1
    poison := s.poison.filter fun k => !mine (64 * k)
    cvLines := s.cvLines.filter fun l => !mine (256 * l.1)
    queues := s.queues.filter fun q => fnOf q.1 != f
    fnPages := Map.drop s.fnPages f
    cap := if f = 0 then 3600 else s.cap }

/-- A function-level reset goes on once no queue of its function is being reset. -/
def State.finishFlr (s : State) (f : Nat) : State :=
  let busy := s.queues.any fun q => fnOf q.1 == f && q.2.resetting
  if (s.fnPage f).flr && !busy then s.zeroFill f else s

/-- Revokes a queue's tag: its cached translations go (R431, step 4). -/
def State.unmap (s : State) (key : Nat) : State :=
  match (s.queue key).mapped with
  | none => s
  | some (_, tag) =>
    let (s, _) := s.dropTlb tag 0 (2 ^ 57)
    let s := { s with
      contexts := Map.drop s.contexts tag.toNat
      walks := s.walks.filter fun w => w.tag != tag
      invals := s.invals.filter fun x => x.dest.isSome || x.queue != key }
    let s := [0, 1, 2, 3].foldl State.regrant s
    s.modQueue key fun q => { q with mapped := none, invdone := true }

/-- Steps 4 and 5 of a reset, once the drain is done. -/
def execQueueResetComplete (key : Nat) (s : State) : Host.Outcome State Fault Refusal :=
  if !(s.queue key).resetting || !s.drained key then .next s
  else
    let s := { s with outstanding := s.outstanding.filter fun o => (s.queue key).tag != some o.tag }
    let s := s.postStatus key (statusWord 3 false false 0 0)
    let s := s.unmap key
    let s := s.modQueue key fun q => { q with resetting := false, state := .disabled, err := 0 }
    .next ((s.finishPreempts key true).finishFlr (fnOf key))

/-! ## Gating (R419) -/

/-- Parties of a core that have not retired. -/
def State.partiesOn (s : State) (core : Nat) : List Party :=
  (s.onCore core).flatMap fun t => (t.parties.map Prod.snd).filter fun q => !q.retired

/-- Every resident party of the core waits. -/
def State.allWait (s : State) (core : Nat) : Bool :=
  (s.partiesOn core).all fun q => (q.paths).all fun b => (q.slot b).wait != .none

/-- Cycles since an instruction last issued on the core. -/
def State.idleFor (s : State) (core : Nat) : Nat := s.clk.toNat - (Store.read s.coreLast core).toNat

def execClockGate (core : Nat) (s : State) : Host.Outcome State Fault Refusal :=
  if s.allWait core ∧ 112500 ≤ s.idleFor core ∧ Store.read s.gated core = 0 then
    .next { s with gated := Store.write s.gated core 1 }
  else .next s

def execPowerGate (core : Nat) (s : State) : Host.Outcome State Fault Refusal :=
  if s.allWait core ∧ 4500000 ≤ s.idleFor core then .next { s with gated := Store.write s.gated core 2 } else .next s

/-- A gated core wakes when a resident party is ready; after a trip nothing wakes (R460). -/
def execCoreWake (core : Nat) (s : State) : Host.Outcome State Fault Refusal :=
  .next (if s.trip ∨ (s.partiesOn core).isEmpty ∨ !s.isGated core then s else s.nextTurn (.rouse core))

end Sys2Proof.Machine
end

