-- ==== Sys2Proof/Machine/Queues.lean ====
section
/-!
DEFINITION. The registers of the host interface and what a write to them does (R421 to R423, R430, R434, R436, R461), the
mapping of queues (R424), and the recovery mailbox.
-/

namespace Sys2Proof.Machine

open Sys2Proof

/-! ## Registers as the host reads them (R11, R423, R434, R436, R461) -/

/-- Every port bit of DEVSTAT: up and keyed. -/
def State.portsWord (s : State) : Nat :=
  ((List.range 16).filter fun p => s.key.isSome && (Map.find s.fabPorts p).any FabPort.up).foldl (fun a p => a + 2 ^ p) 0

/-- The highest throttle level among the dies. -/
def State.maxThrottle (s : State) : Nat := ((List.range 4).map fun d => (Store.read s.throttle d).toNat).foldl max 0

/-- DEVSTAT (R461). -/
def State.devstat (s : State) : Word :=
  BitVec.ofNat 32 (2 ^ 28 * s.phase + 2 ^ 24 * s.maxThrottle + (if s.locked then 2 ^ 23 else 0) +
    (if s.trip then 2 ^ 22 else 0) + s.portsWord)

/-- STATE as the queue page shows it. -/
def QState.code : QState → Nat
  | .disabled => 0
  | .enabled => 1
  | .parked => 2
  | .error => 3

/-- The 32-bit word of a queue page at an offset. -/
def Queue.read (q : Queue) (off : Nat) : Word :=
  match off with
  | 0x000 => (q.ring ||| BitVec.ofNat 64 q.logn).setWidth 32
  | 0x004 => q.ring.extractLsb' 32 32
  | 0x008 => q.root.setWidth 32
  | 0x00C => q.root.extractLsb' 32 32
  | 0x010 => q.statva.setWidth 32
  | 0x014 => q.statva.extractLsb' 32 32
  | 0x018 => q.wptr
  | 0x01C => q.rptr
  | 0x020 => BitVec.ofNat 32 (16 * q.err + q.state.code)
  | 0x028 => q.invva.setWidth 32
  | 0x02C => q.invva.extractLsb' 32 32
  | 0x030 => q.invn
  | 0x034 => when q.invdone 0x80000000
  | _ => 0

/-- A function's pages answer from phase 2; before it, the PF's function page with its mailbox alone is shown (R435,
R463). -/
def State.visible (s : State) : Bool := decide (2 ≤ s.phase)

/-- The device has one PF, function 0, and 63 VFs, each with 1,024 queue pages (R4, R421). -/
def State.hasQueue (s : State) (f q : Nat) : Bool := decide (f < 64 ∧ q < 1024) && s.visible

/-- The function page answers: the PF's also before phase 2. -/
def State.hasPage (s : State) (f : Nat) : Bool := decide (f < 64) && (s.visible || f == 0)

/-- The 32-bit word of the function page at an offset: in a VF, the registers of the PF read as zero (R421). -/
def State.readFn (s : State) (f off : Nat) : Word :=
  let p := s.fnPage f
  match off with
  | 0x050 => p.flog.setWidth 32
  | 0x054 => p.flog.extractLsb' 32 32
  | 0x058 => p.flogw
  | 0x05C => p.flogr
  | 0x060 => p.flogdrop
  | 0x068 => s.devstat
  | 0x06C => if f = 0 then s.cap else 0
  | 0x800 => if f = 0 then p.mbAddr.setWidth 32 else 0
  | 0x804 => if f = 0 then p.mbAddr.extractLsb' 32 32 else 0
  | 0x808 => if f = 0 then p.mbLen else 0
  | 0x810 => if f = 0 then p.mbstat else 0
  | _ => 0

/-- What lies at an offset of a function's BAR of 8 MiB (R421): its function page, or a queue's page, with the offset there. -/
inductive BarPage where
  | fn (off : Nat)
  | queue (q off : Nat)
  | none
deriving DecidableEq, Repr

def barPage (off : Nat) : BarPage :=
  if off < 0x1000 then .fn off
  else if 0x100000 ≤ off ∧ off < 0x500000 then .queue ((off - 0x100000) / 0x1000) (off % 0x1000)
  else .none

/-- The 32-bit word that the host reads at a 4-byte-aligned offset of a function's BAR; none where no page answers (R421, R435,
R463). -/
def State.readBar (s : State) (f off : Nat) : Option Word :=
  match barPage off with
  | .fn o => if s.hasPage f then some (s.readFn f o) else Option.none
  | .queue q o => if s.hasQueue f q then some ((s.queue (qKey f q)).read o) else Option.none
  | .none => Option.none

/-! ## Plain register writes (R10, R11, R423) -/

/-- A write to a register without behaviour of its own. RING, ROOT and STATVA take one only in STATE 0; reserved bits
stay zero. -/
def State.plainWrite (s : State) (f : Nat) (r : HostReg) (v : DWord) : State :=
  let idle (q : Nat) (g : Queue → Queue) : State :=
    if s.hasQueue f q ∧ (s.queue (qKey f q)).state = .disabled then s.modQueue (qKey f q) g else s
  let plain (q : Nat) (g : Queue → Queue) : State := if s.hasQueue f q then s.modQueue (qKey f q) g else s
  let page (g : FnPage → FnPage) : State := if s.hasPage f then s.modFn f g else s
  let mailbox (g : FnPage → FnPage) : State := if f = 0 then s.modFn 0 g else s
  match r with
  | .ring q => idle q fun x => { x with ring := v &&& 0x01FFFFFFFFFFF000, logn := (v.extractLsb' 0 4).toNat }
  | .root q => idle q fun x => { x with root := v &&& 0x000FFFFFFFFFF000 }
  | .statva q => idle q fun x => { x with statva := v }
  | .invva q => plain q fun x => { x with invva := v }
  | .invn q => plain q fun x => { x with invn := v.setWidth 32 }
  | .flog => page fun x => { x with flog := v &&& 0x01FFFFFFFFFFFFCF }
  | .flogr => page fun x => { x with flogr := v.setWidth 32 }
  | .mbAddr => mailbox fun x => { x with mbAddr := v }
  | .mbLen => mailbox fun x => { x with mbLen := v.setWidth 32 }
  | .bar .. => s

/-! ## Queue control (R423) -/

/-- A write of WPTR (R423, R424): the queue's doorbell. A distance above the ring size is an error. After a trip
no doorbell is answered (R460): the register alone is written. -/
def execDoorbell (f q : Nat) (v : Word) (s : State) : Host.Outcome State Fault Refusal :=
  if !s.hasQueue f q then .next s
  else
    let key := qKey f q
    let (n, s) := s.fresh
    let s := s.modQueue key fun x => { x with wptr := v, bell := n }
    let x := s.queue key
    if !s.trip ∧ x.state = .enabled ∧ 2 ^ (x.logn + 4) < (x.wptr - x.rptr).toNat then .next (s.failQueue key 1) else .next s

/-- CTL 1: enables a disabled queue. -/
def execQueueEnable (f q : Nat) (s : State) : Host.Outcome State Fault Refusal :=
  let key := qKey f q
  let x := s.queue key
  if !s.hasQueue f q ∨ s.trip ∨ x.state ≠ .disabled ∨ x.resetting then .next s
  else if 12 < x.logn ∨ x.statva.toNat % 4 ≠ 0 then .next (s.failQueue key 4)
  else .next (s.setQueue key { x with state := .enabled, rptr := x.wptr })

/-- CTL 2: disables an enabled queue that has no active run. -/
def execQueueDisable (f q : Nat) (s : State) : Host.Outcome State Fault Refusal :=
  let key := qKey f q
  if !s.hasQueue f q ∨ (s.queue key).state ≠ .enabled ∨ s.hasRun key then .next s
  else .next (s.modQueue key fun x => { x with state := .disabled })

/-- CTL 3: a reset (R431). -/
def execQueueCtlReset (f q : Nat) (s : State) : Host.Outcome State Fault Refusal :=
  if !s.hasQueue f q then .next s else .next (s.beginReset (qKey f q))

/-- CTL 4: the ladder at the host's request (R412). -/
def execQueueCtlPreempt (f q : Nat) (s : State) : Host.Outcome State Fault Refusal :=
  if !s.hasQueue f q then .next s else .next (s.startLadder (qKey f q) 0)

/-- CTL 5: resumption (R418). -/
def execQueueCtlResume (f q : Nat) (s : State) : Host.Outcome State Fault Refusal :=
  if !s.hasQueue f q then .next s else .next (s.resumeQueue (qKey f q))

/-- A write at offset 0x034: tlbrng for the queue's tag (R42, R423). -/
def execQueueInvalidate (f q : Nat) (s : State) : Host.Outcome State Fault Refusal :=
  if !s.hasQueue f q then .next s
  else
    let key := qKey f q
    let x := s.queue key
    match x.mapped with
    | none => .next (s.modQueue key fun x => { x with invdone := true })
    | some (_, tag) =>
      let lo := x.invva.toNat % 2 ^ 57
      let (lo, hi) := if x.invn = 0 then (0, 2 ^ 57) else (lo, min (lo + x.invn.toNat * 65536) (2 ^ 57))
      let (s, _) := (s.modQueue key fun x => { x with invdone := false }).invalidate tag lo hi none key
      .next s

/-! ## The function page -/

/-- SIGDB: the parked WAITs of the function that name the address are evaluated (R430). -/
def execSigdbWrite (f : Nat) (va : DWord) (s : State) : Host.Outcome State Fault Refusal :=
  if !s.hasPage f ∨ s.trip then .next s else
  let keys := (s.queues.filter fun q => fnOf q.1 == f && q.2.parkedWait.any fun p => pktWide p.words 2 == va).map Prod.fst
  .next (s.pollWaits keys)

/-- Every 225,000 cycles each parked WAIT is evaluated (R430). -/
def execParkedWaitPoll (s : State) : Host.Outcome State Fault Refusal :=
  if s.polledAt + 225000 ≤ s.clk.toNat ∧ !s.trip then
    .next (({ s with polledAt := s.clk.toNat } : State).pollWaits (Map.keys s.queues))
  else .next s

/-- A 1 written to bit 31 of FLOGDROP (R434). -/
def execFlogdropClear (f : Nat) (s : State) : Host.Outcome State Fault Refusal :=
  .next (if s.hasPage f then s.modFn f fun p => { p with flogdrop := 0 } else s)

/-- The package cap after a write: clamped (R461). -/
def clampCap (v : Word) : Word := BitVec.ofNat 32 (max 1800 (min 3600 (fld v 0 12).toNat))

/-- A write of PWRCAP: the PF's register (R421, R461). -/
def execPwrcapWrite (f : Nat) (v : Word) (s : State) : Host.Outcome State Fault Refusal :=
  .next (if f = 0 then { s with cap := clampCap v } else s)

/-! ## The recovery mailbox (R436) -/

def State.anyMapped (s : State) : Bool := s.queues.any fun q => q.2.mapped.isSome

/-- GO: verification begins, unless firmware runs and a queue is mapped. -/
def execMailboxGo (f : Nat) (s : State) : Host.Outcome State Fault Refusal :=
  if f ≠ 0 ∨ fld (s.fnPage 0).mbstat 0 2 = 1 then .next s
  else if s.visible ∧ s.anyMapped then .next (s.modFn 0 fun p => { p with mbstat := 0x503 })
  else .next (s.modFn 0 fun p => { p with mbstat := 1 })

/-- An image verifies against the fuses (R435): its signature is that of the fused key over its content (DESIGN CHOICE, log
entry 86). -/
def State.signatureOk (s : State) (x : FwImage) : Bool := x.key == s.keyFuse && x.signed == x.content

/-- Verification ends (R436): rejected with its reason, or accepted, which replaces the stored image, raises the fuse
minimum and is followed by a reset. -/
def execMailboxVerifyDone (image : FwImage) (version : Word) (readOk : Bool) (s : State) :
    Host.Outcome State Fault Refusal :=
  let p := s.fnPage 0
  if fld p.mbstat 0 2 ≠ 1 then .next s
  else
    let reject (reason : Nat) : State := s.modFn 0 fun p => { p with mbstat := BitVec.ofNat 32 (256 * reason + 3) }
    if 2 ^ 26 < p.mbLen.toNat then .next (reject 3)
    else if !readOk then .next (reject 4)
    else if !s.signatureOk image then .next (reject 1)
    else if version.toNat < s.minVersion.toNat then .next (reject 2)
    else
      let s := s.modFn 0 fun p => { p with mbstat := 2 }
      .next { s with
        fwImage := image
        fwVersion := version
        minVersion := version
        agenda := { dclk := 0, dtb := 0, act := .event .warmReset } :: s.agenda }

/-! ## Writes at offsets of the BAR (R421) -/

/-- The 64-bit register of a page that lies at an offset, in either of its halves. -/
def wideReg (p : BarPage) : Option HostReg :=
  match p with
  | .queue q 0x000 | .queue q 0x004 => some (.ring q)
  | .queue q 0x008 | .queue q 0x00C => some (.root q)
  | .queue q 0x010 | .queue q 0x014 => some (.statva q)
  | .queue q 0x028 | .queue q 0x02C => some (.invva q)
  | .fn 0x050 | .fn 0x054 => some .flog
  | .fn 0x800 | .fn 0x804 => some .mbAddr
  | _ => none

/-- The action that a write of CTL names (R423). -/
def ctlWrite (f q : Nat) (v : Word) (s : State) : Host.Outcome State Fault Refusal :=
  match (fld v 0 3).toNat with
  | 1 => execQueueEnable f q s
  | 2 => execQueueDisable f q s
  | 3 => execQueueCtlReset f q s
  | 4 => execQueueCtlPreempt f q s
  | 5 => execQueueCtlResume f q s
  | _ => .next s

/-- A write of 32 bits at an offset of a function's BAR: half of a 64-bit register, or a register. What is read-only or not
implemented ignores it, and so does half of SIGDB (R11; DESIGN CHOICE, log entry 87). -/
def barWord (f off : Nat) (v : Word) (s : State) : Host.Outcome State Fault Refusal :=
  match wideReg (barPage off) with
  | some r =>
    let half (k : Nat) : Word := (s.readBar f k).getD 0
    .next (s.plainWrite f r (if off % 8 = 0 then half (off + 4) ++ v else v ++ half (off - 4)))
  | none =>
    match barPage off with
    | .queue q 0x018 => execDoorbell f q v s
    | .queue q 0x024 => ctlWrite f q v s
    | .queue q 0x030 => .next (s.plainWrite f (.invn q) (v.setWidth 64))
    | .queue q 0x034 => execQueueInvalidate f q s
    | .fn 0x05C => .next (s.plainWrite f .flogr (v.setWidth 64))
    | .fn 0x060 => if v.getLsbD 31 then execFlogdropClear f s else .next s
    | .fn 0x06C => execPwrcapWrite f v s
    | .fn 0x808 => .next (s.plainWrite f .mbLen (v.setWidth 64))
    | .fn 0x80C => execMailboxGo f s
    | _ => .next s

/-- A write of 64 bits: a 64-bit register at once, otherwise the two words that it covers, the lower first (DESIGN CHOICE, log
entry 87). -/
def barWide (f off : Nat) (v : DWord) (s : State) : Host.Outcome State Fault Refusal :=
  match wideReg (barPage off), barPage off with
  | some r, _ => .next (s.plainWrite f r v)
  | none, .fn 0x040 => execSigdbWrite f v s
  | none, _ =>
    match barWord f off (v.setWidth 32) s with
    | .next s => barWord f (off + 4) (v.extractLsb' 32 32) s
    | x => x

/-- A write to a register without behaviour of its own, or at an offset of the BAR; one that is not aligned to its size is
ignored (log entry 87). -/
def execRegisterWrite (f : Nat) (r : HostReg) (v : DWord) (s : State) : Host.Outcome State Fault Refusal :=
  match r with
  | .bar off true => if off % 8 = 0 then barWide f off v s else .next s
  | .bar off false => if off % 4 = 0 then barWord f off (v.setWidth 32) s else .next s
  | r => .next (s.plainWrite f r v)

/-! ## Mapping (R424) -/

/-- A queue that firmware may map. A queue saved for a time slice resumes when it is mapped again. -/
def State.mappable (s : State) (key : Nat) : Bool :=
  let q := s.queue key
  q.state == .enabled && q.mapped.isNone && !q.resetting && (q.wptr != q.rptr || s.hasRun key)

/-- The functions in the order of the round robin: those after the last one served come first. -/
def fnTurn (last f : Nat) : Nat := if last < f then f - last else f + 64 - last

/-- The eligible queue whose turn it is: the next function that has one, its oldest doorbell. -/
def State.turnToMap (s : State) : Option Nat :=
  let ks := (s.queues.filter fun q => s.mappable q.1).map Prod.fst
  let before (a b : Nat) : Bool :=
    let fa := fnTurn s.lastFn (fnOf a)
    let fb := fnTurn s.lastFn (fnOf b)
    decide (fa < fb) || (fa == fb && decide ((s.queue a).bell < (s.queue b).bell))
  match ks with
  | [] => none
  | k :: rest => some (rest.foldl (fun a b => if before b a then b else a) k)

/-- A function has no mapped queue, so that firmware may give and take its resources (R422). -/
def State.unused (s : State) (f : Nat) : Bool := !s.queues.any fun q => fnOf q.1 == f && q.2.mapped.isSome

/-- Firmware gives a function units of a resource, each of one function: those that functions without a mapped queue have. -/
def State.give (s : State) (m : Store 8) (f : Nat) (units : List Nat) : Store 8 :=
  (units.filter fun k => s.unused (Store.read m k).toNat).foldl (fun m k => Store.write m k (BitVec.ofNat 8 f)) m

/-- The resources that an order names go to a function without a mapped queue (R422). -/
def State.grant (s : State) (f : Nat) (o : MapOrder) : State :=
  if !s.unused f then s
  else
    { s with
      clusterFn := s.give s.clusterFn f (o.clusters.filter (· < 48))
      hbmFn := s.give s.hbmFn f (o.ranges.filter (· < 512))
      bankFn := s.give s.bankFn f (o.banks.filter (· < 256)) }

/-- The limits that an order sets lie in their ranges: T1 from 0 to 10 ms, T2 from 100 µs to 100 ms (R412), HANGT from 1 ms to
60 s (R420). -/
def orderInRange (o : MapOrder) : Bool :=
  decide (o.t1 ≤ 10000000 ∧ 100000 ≤ o.t2 ∧ o.t2 ≤ 100000000 ∧ 2250000 ≤ o.hangt ∧ o.hangt ≤ 135000000000)

/-- Firmware maps an eligible queue onto a free slot with a tag that no other queue has (R23, R424). -/
def execQueueMap (q slot : Nat) (order : MapOrder) (s : State) : Host.Outcome State Fault Refusal :=
  let taken := s.queues.any fun x => match x.2.mapped with
    | some (n, t) => n == slot || t == order.tag
    | none => false
  if s.turnToMap ≠ some q ∨ 256 ≤ slot ∨ taken ∨ (Map.find s.contexts order.tag.toNat).isSome ∨ s.trip ∨ !s.visible ∨
      !orderInRange order then .next s
  else
    let s := s.grant (fnOf q) order
    let c : Context := { root := (s.queue q).root.toNat, fn := fnOf q, queue := q }
    let s := { s with contexts := Map.set s.contexts order.tag.toNat c, lastFn := fnOf q, hangt := order.hangt }
    let s := s.modRunsOf q fun r => { r with tag := order.tag }
    let s := s.modQueue q fun x => { x with
      mapped := some (slot, order.tag), mappedAt := s.tbase.toNat, idleAt := s.tbase.toNat, privileged := order.privileged
      t1 := order.t1, t2 := order.t2 }
    let w := (s.queue q).status
    .next (if stReason w = 1 then s.resumeQueue q else s)

/-- A slot is released (R424, R430): of a queue idle for 1 ms, of a parked queue without an active run, of a queue saved
for a time slice. -/
def execQueueUnmap (q : Nat) (s : State) : Host.Outcome State Fault Refusal :=
  let x := s.queue q
  let idle : Bool := x.wptr == x.rptr && x.started.isEmpty && !s.hasRun q && decide (x.idleAt + 256000000 ≤ s.tbase.toNat)
  let gone : Bool := x.state != .enabled && !s.hasRun q
  let sliced : Bool := stResum x.status && stReason x.status == 1
  if x.mapped.isSome && !x.resetting && (idle || gone || sliced) then .next (s.unmap q) else .next s

/-- A quantum of 10 ms expires while eligible queues wait for a slot (R424). -/
def execTimeSliceExpiry (q : Nat) (s : State) : Host.Outcome State Fault Refusal :=
  let x := s.queue q
  let slots := (s.queues.filter fun y => y.2.mapped.isSome).length
  if x.mapped.isSome ∧ !stResum x.status ∧ s.turnToMap.isSome ∧ 256 ≤ slots ∧ x.mappedAt + 2560000000 ≤ s.tbase.toNat then
    .next (s.startLadder q 1)
  else .next s

end Sys2Proof.Machine
end

