-- ==== Sys2Proof/Machine/Launch.lean ====
section
/-!
DEFINITION. What a LAUNCH reads and checks: graph images (R336 to R340, R114, R454), process-group tables and seeds (R360,
R427), and the run that it starts.
-/

namespace Sys2Proof.Machine

open Sys2Proof

/-- The little-endian field of `n` bytes at `lo`. -/
def field (bs : List Byte) (lo n : Nat) : Nat := ofBytes ((bs.drop lo).take n)

/-- Consecutive entries of `n` bytes. -/
def entriesOf (n count : Nat) (bs : List Byte) : List (List Byte) := (List.range count).map fun k => (bs.drop (n * k)).take n

/-- Every byte of a range is zero. -/
def zeros (bs : List Byte) (lo n : Nat) : Bool := field bs lo n == 0

/-! ## Images (R336 to R339) -/

/-- A node descriptor (R337). -/
def parseNode (b : List Byte) : Node :=
  let attr := field b 15 1
  { entry := BitVec.ofNat 32 (field b 0 4), mxEntry := BitVec.ofNat 32 (field b 4 4), parties := field b 8 1,
    vregs := 16 * field b 9 1, ls := field b 10 1, tiles := field b 11 1, chans := field b 12 1, rmode := field b 13 1 % 4,
    rpp := field b 14 1, maxDepth := attr % 16, prio := attr / 16 % 4, fatal := attr.testBit 6, entryNode := attr.testBit 7,
    window := field b 16 2, quota := field b 18 4, edge0 := field b 22 2, nout := field b 24 1, rwin := field b 25 1,
    seqbar := BitVec.ofNat 16 (field b 26 2), group := field b 28 1, rslots := field b 29 1, rsize := field b 30 2,
    rbase := field b 32 4, bind0 := field b 36 2, nbind := field b 38 1, classes := BitVec.ofNat 64 (field b 40 8) }

/-- The fields of a descriptor lie in their ranges and its reserved fields are zero (R337, R340). -/
def nodeFields (b : List Byte) : Bool :=
  let n := parseNode b
  decide (1 ≤ n.parties ∧ n.parties ≤ 16 ∧ 16 ≤ n.vregs ∧ n.vregs ≤ 128 ∧ n.ls ≤ 120 ∧ n.tiles ≤ 12 ∧ n.chans ≤ 8) &&
    decide (field b 13 1 ≤ 2) && (if n.rmode = 1 then decide (1 ≤ n.rpp ∧ n.rpp ≤ 96) else n.rpp == 0) &&
    decide (n.maxDepth ≤ 10 ∧ 1 ≤ n.quota ∧ n.nout ≤ 64 ∧ n.rwin ≤ 12 ∧ n.group ≤ 4 ∧ n.group ≠ 1) &&
    (if n.group = 0 then n.rslots == 0 else decide (1 ≤ n.rslots ∧ n.rslots ≤ 64)) &&
    decide (n.rbase < 2 ^ 19 ∧ n.nbind ≤ 16) && zeros b 39 1 && zeros b 48 16

/-- An edge entry (R338). -/
def parseEdge (b : List Byte) : Edge :=
  { target := field b 0 2, type := field b 2 1, cyc := (field b 3 1).testBit 0, prio := field b 3 1 / 2 % 4, cls := field b 4 1 }

def edgeFields (b : List Byte) : Bool := decide (field b 3 1 < 8) && zeros b 5 3

/-- A binding entry (R339): handle register and data-segment offset. -/
def parseBind (b : List Byte) : Nat × Nat := (field b 0 8 / 2 ^ 56 % 16, field b 0 8 % 2 ^ 52)

def bindFields (b : List Byte) : Bool :=
  let x := field b 0 8
  x / 2 ^ 52 % 16 == 0 && x / 2 ^ 60 == 0 && x % 16 == 0

/-- A timetable entry (R454). -/
def parseWindow (b : List Byte) : Window :=
  { port := field b 0 1, cls := field b 1 1, start := field b 4 4, len := field b 8 4, period := field b 12 4 }

def windowFields (b : List Byte) : Bool :=
  let w := parseWindow b
  decide (w.port ≤ 15 ∧ 1 ≤ w.cls ∧ 100 ≤ w.len ∧ (w.period = 0 ∨ w.start + w.len ≤ w.period)) && zeros b 2 2

/-- The header's fields (R336). -/
def headerFields (h : List Byte) : Bool :=
  field h 0 4 == 0x47584454 && field h 4 2 == 1 && decide (1 ≤ field h 6 2 ∧ field h 6 2 ≤ 4096) && zeros h 52 12 &&
    field h 28 4 % 4096 == 0 && field h 36 4 % 64 == 0

/-! ## The checks of R340 -/

/-- The out-edges of a node. -/
def outEdges (es : List Edge) (n : Node) : List Edge := (es.drop n.edge0).take n.nout

/-- Pairs of nodes that edges with CYC = 0 join. -/
def forwardPairs (ns : List Node) (es : List Edge) : List (Nat × Nat) :=
  ((List.range ns.length).zip ns).flatMap fun n => ((outEdges es n.2).filter fun e => !e.cyc).map fun e => (n.1, e.target)

/-- Nodes that remain when those without a remaining predecessor are taken away, `k` times. -/
def peel (ps : List (Nat × Nat)) (k : Nat) (left : List Nat) : List Nat :=
  match k with
  | 0 => left
  | k + 1 => peel ps k (left.filter fun n => ps.any fun p => p.2 == n && left.contains p.1)

/-- A node's team fits an empty core, or its group an empty cluster (R340, R384, R114). -/
def nodeFits (n : Node) : Bool :=
  decide (n.parties * (n.vregs / 16) ≤ 85) &&
    (n.group == 0 ||
      decide (n.rbase % 64 = 0 ∧ 1 ≤ n.rsize ∧ n.rbase + (n.group - 1) * n.rslots * n.rsize * 64 ≤ 4096 * n.ls))

/-- The first row of R340's table below Fields that the image fails, counted from 1. -/
def imageCheck (ns : List Node) (es : List Edge) (faultn : Nat) : Option Nat :=
  if !(es.all fun e => decide (e.target < ns.length)) ∨ !(ns.all fun n => decide (n.nout = 0 ∨ n.edge0 + n.nout ≤ es.length)) then
    some 2
  else if !(peel (forwardPairs ns es) ns.length (List.range ns.length)).isEmpty then some 3
  else if 196608 < (ns.map Node.quota).sum then some 4
  else if !(ns.any Node.entryNode) then some 5
  else if faultn ≠ 0xFFFF ∧ ns.length ≤ faultn then some 6
  else if !(ns.all nodeFits) then some 7
  else none

/-- The timetable that TTAB names: none where it cannot be read, and whether its fields are as they should be. -/
def State.readTimetable (s : State) (key va : Nat) : State × Option (Option (List Window)) :=
  match s.queueRead key va 16 with
  | (s, none) => (s, none)
  | (s, some h) =>
    let n := field h 0 2
    if 4096 < n ∨ !zeros h 2 14 then (s, some none)
    else
      match s.queueRead key (va + 16) (16 * n) with
      | (s, none) => (s, none)
      | (s, some bs) =>
        let ws := entriesOf 16 n bs
        (s, some (if ws.all windowFields then some (ws.map parseWindow) else none))

/-- Reads and checks an image: none where it cannot be read, the row of R340 that fails, or the image. -/
def State.readImage (s : State) (key va : Nat) : State × Option (Except Nat Image) :=
  match s.queueRead key va 64 with
  | (s, none) => (s, none)
  | (s, some h) =>
    if !headerFields h then (s, some (.error 1))
    else
      let nn := field h 6 2
      let ne := field h 8 2
      match s.queueRead key (va + field h 16 4) (64 * nn) with
      | (s, none) => (s, none)
      | (s, some nb) =>
        match s.queueRead key (va + field h 20 4) (8 * ne) with
        | (s, none) => (s, none)
        | (s, some eb) =>
          let rawNodes := entriesOf 64 nn nb
          let rawEdges := entriesOf 8 ne eb
          if !(rawNodes.all nodeFields && rawEdges.all edgeFields) then (s, some (.error 1))
          else
            let ns := rawNodes.map parseNode
            let es := rawEdges.map parseEdge
            let count := (ns.map fun n => if n.nbind = 0 then 0 else n.bind0 + n.nbind).foldl max 0
            match s.queueRead key (va + field h 24 4) (8 * count) with
            | (s, none) => (s, none)
            | (s, some bb) =>
              let rawBinds := entriesOf 8 count bb
              let ttab := field h 44 4
              match (if ttab = 0 then (s, some (some [])) else s.readTimetable key (va + ttab)) with
              | (s, none) => (s, none)
              | (s, some none) => (s, some (.error 1))
              | (s, some (some ws)) =>
                let used (n : Node) : List (List Byte) := (rawBinds.drop n.bind0).take n.nbind
                if !(ns.all fun n => (used n).all bindFields) then (s, some (.error 1))
                else
                  match imageCheck ns es (field h 10 2) with
                  | some row => (s, some (.error row))
                  | none =>
                    (s, some (.ok {
                      nodes := ns, edges := es, binds := rawBinds.map parseBind,
                      faultNode := if field h 10 2 = 0xFFFF then none else some (field h 10 2), spill := field h 12 4,
                      textVa := va + field h 28 4, textSize := field h 32 4, dataVa := va + field h 36 4,
                      timetable := ws, hasTimetable := ttab != 0 }))

/-! ## Process-group tables and seeds (R360, R427) -/

/-- An entry of the table. -/
def parseMember (b : List Byte) : Member :=
  { rank := field b 0 2 % 4096, dies := field b 0 2 / 4096, nseed := field b 4 4, seeds := field b 8 8, report := field b 16 8 }

/-- The detail of code 6: the first of R427's list that a table meets. -/
def groupCheck (own : Nat) (h : List Byte) (raw : List (List Byte)) : Option Nat :=
  let ms := raw.map parseMember
  if !(ms.any fun m => m.rank == own) then some 2
  else if !decide (ms.map Member.rank).Nodup then some 3
  else if ms.any fun m => m.dies == 0 then some 4
  else if !zeros h 8 56 || raw.any fun b => !zeros b 2 2 || !zeros b 24 8 then some 5
  else if ms.any fun m => m.seeds % 64 != 0 || m.report % 64 != 0 then some 6
  else none

/-- Reads and checks the table: none where it cannot be read, the detail of code 6, or its identity and members. -/
def State.readGroup (s : State) (key va : Nat) : State × Option (Except Nat (Word × List Member)) :=
  match s.queueRead key va 64 with
  | (s, none) => (s, none)
  | (s, some h) =>
    let n := field h 0 4
    if n = 0 ∨ 4096 < n then (s, some (.error 1))
    else
      match s.queueRead key (va + 64) (32 * n) with
      | (s, none) => (s, none)
      | (s, some bs) =>
        let raw := entriesOf 32 n bs
        match groupCheck s.rank.toNat h raw with
        | some d => (s, some (.error d))
        | none => (s, some (.ok (BitVec.ofNat 32 (field h 4 4), raw.map parseMember)))

/-- The words of a record that stands in memory. -/
def recOf (b : List Byte) : Rec := (entriesOf 4 16 b).map fun w => BitVec.ofNat 32 (ofBytes w)

/-- A seed as R360 wants it: an entry node's, of this rank, with the SRC of a seed. -/
def seedFits (own : Nat) (ns : List Node) (r : Rec) : Bool :=
  (ns[recTarget r]?).any Node.entryNode && recTrank r == own && recSrc r == 0xFFFFFF

/-! ## The run -/

/-- The run that a LAUNCH starts; the GS of each die holds it until its start time (R393). While the queue's ladder
drains, or the queue is drained, nothing of it is seeded (R413). -/
def State.newRun (s : State) (key idx : Nat) (w : Rec) (img : Image) (ident : Word) (ms : List Member) (me : Member)
    (seeds : List Rec) : Run :=
  let q := s.queue key
  { state := .held, queue := key, packet := idx, fn := fnOf key,
    tag := match q.mapped with | some m => m.2 | none => 0,
    privileged := q.privileged, ident := ident, image := img, members := ms, me := me, start := pktWide w 6,
    result := (pktWide w 8).toNat, doneSig := (pktWide w 10).toNat, doneVal := pktWide w 12, seeds := seeds, teamNos := [],
    seeded := [], queues := [], reports := [], gathered := [], barriers := [], remoteArrived := [],
    draining := stBusy q.status || stResum q.status }

/-- A LAUNCH executes: it is rejected with its code and detail (R427), is an error of the queue where what it names cannot
be read, or starts a run. -/
def State.launch (s : State) (key idx : Nat) (w : Rec) : State :=
  let reject (s : State) (code detail : Nat) : State :=
    s.endLaunch key idx (pktWide w 8).toNat (pktWide w 10).toNat (pktWide w 12) code detail true false
  match s.readImage key (pktWide w 2).toNat with
  | (s, none) => s.failQueue key 2
  | (s, some (.error row)) => reject s 2 row
  | (s, some (.ok img)) =>
    match s.readGroup key (pktWide w 4).toNat with
    | (s, none) => s.failQueue key 2
    | (s, some (.error d)) => reject s 6 d
    | (s, some (.ok (ident, ms))) =>
      match ms.find? fun m => m.rank == s.rank.toNat with
      | none => reject s 6 2
      | some me =>
        match s.queueRead key me.seeds (64 * me.nseed) with
        | (s, none) => s.failQueue key 2
        | (s, some bs) =>
          let seeds := (entriesOf 64 me.nseed bs).map recOf
          match seeds.findIdx? fun r => !seedFits s.rank.toNat img.nodes r with
          | some i => reject s 3 i
          | none =>
            let r := s.newRun key idx w img ident ms me seeds
            let (id, s) := s.fresh
            { s with runs := Map.set s.runs id r }

end Sys2Proof.Machine
end

