-- ==== Sys2Proof/Machine/Packets.lean ====
section
/-!
DEFINITION. Packets (R425 to R430): how a queue takes one, and what each type does.
-/

namespace Sys2Proof.Machine

open Sys2Proof

/-! ## Taking a packet (R425, R426) -/

/-- The first byte of a packet that is reserved, by type. -/
def firstReserved (ty : Nat) : Nat :=
  match ty with
  | 1 => 56
  | 2 | 3 => 25
  | 4 => 40
  | 5 => 24
  | 6 => 11
  | _ => 10

/-- The fields that every packet has, and the reserved bytes of its type. -/
def packetForm (bs : List Byte) : Bool :=
  let ty := field bs 0 1
  decide (1 ≤ ty ∧ ty ≤ 7) && field bs 0 8 / 512 == 0 && zeros bs (firstReserved ty) (64 - firstReserved ty)

/-- What a WSLOAD names: die, offset and length in 256-byte units (R425). -/
def wsloadTarget (w : Rec) : Nat × Nat × Nat :=
  ((fld (recWord w 4) 23 2).toNat, (fld (recWord w 4) 0 23).toNat, (recWord w 5).toNat)

/-- The queue that a PREEMPT or RESET names. -/
def pktTarget (w : Rec) : Nat := (fld (recWord w 2) 0 16).toNat

/-- A packet whose fields lie in their ranges, for a queue (R425, R428). -/
def State.packetLegal (s : State) (key : Nat) (w : Rec) : Bool :=
  match (fld (recWord w 0) 0 8).toNat with
  | 2 => decide ((fld (recWord w 6) 0 8).toNat ≤ 3)
  | 3 => decide ((fld (recWord w 6) 0 8).toNat ≤ 2)
  | 4 =>
    let (die, unit, n) := wsloadTarget w
    fld (recWord w 4) 25 7 == 0 && (pktWide w 2).toNat % 256 == 0 && decide (1 ≤ n ∧ n ≤ 2 ^ 23 ∧ unit + n ≤ 2 ^ 23) &&
      (banksOf unit n).all fun b => (Store.read s.bankFn (64 * die + b)).toNat == fnOf key
  | 6 => decide (pktTarget w < 1024 ∧ pktTarget w ≠ key % 1024 ∧ (fld (recWord w 2) 16 8).toNat ≤ 1)
  | 7 => decide (pktTarget w < 1024 ∧ pktTarget w ≠ key % 1024)
  | _ => true

/-- What comes of the next packet of a queue. -/
inductive Taken where
  /-- The queue takes no packet now, or the next is of another type. -/
  | none
  /-- It cannot be taken: an error of the queue. -/
  | bad (s : State)
  /-- It starts: the state with RPTR risen and the packet among the started ones. -/
  | go (s : State) (idx : Nat) (w : Rec)

/-- The queue may take a packet: mapped, enabled, nothing that holds it back. -/
def State.takes (s : State) (key : Nat) : Bool :=
  let q := s.queue key
  s.visible && !s.trip && q.state == .enabled && q.mapped.isSome && !q.resetting && q.wptr != q.rptr &&
    q.started.all Packet.begun

/-- Takes the next packet of a queue if it has a type (R425, R426). A packet with FENCE waits until the earlier ones have
completed. -/
def State.take (s : State) (key ty : Nat) : Taken :=
  let q := s.queue key
  if !s.takes key then .none
  else if 2 ^ (q.logn + 4) < (q.wptr - q.rptr).toNat then .bad (s.failQueue key 1)
  else
    match s.queueRead key (sext57 q.ring.toNat + 64 * (q.rptr.toNat % 2 ^ (q.logn + 4))) 64 with
    | (s, none) => .bad (s.failQueue key 2)
    | (s, some bs) =>
      let w := recOf bs
      if !packetForm bs ∨ !s.packetLegal key w then .bad (s.failQueue key 3)
      else if field bs 0 1 ≠ ty ∨ (bs.getD 1 0).toNat % 2 = 1 ∧ !q.started.isEmpty then .none
      else
        let p : Packet := { index := q.rptr.toNat, words := w, begun := true, signalled := false, awaits := none }
        .go (s.modQueue key fun q => { q with rptr := q.rptr + 1, started := q.started ++ [p] }) q.rptr.toNat w

/-- A packet event: the effect of its type on the packet taken. -/
def State.onPacket (s : State) (key ty : Nat) (f : State → Nat → Rec → State) : Host.Outcome State Fault Refusal :=
  match s.take key ty with
  | .none => .next s
  | .bad s => .next s
  | .go s idx w => .next (f s idx w)

/-! ## The packets -/

def execPacketLaunch (q : Nat) (s : State) : Host.Outcome State Fault Refusal :=
  s.onPacket q 1 fun s idx w => s.launch q idx w

/-- WAIT: completes at once or parks its queue (R430). -/
def execPacketWait (q : Nat) (s : State) : Host.Outcome State Fault Refusal :=
  s.onPacket q 2 fun s idx w =>
    match s.evalWait q w with
    | (s, some true) => s.completePacket q idx
    | (s, some false) => s.modQueue q fun x => { x with state := .parked }
    | (s, none) => s.failQueue q 2

/-- SIGNAL: set, add or subtract (R429); it completes when its write is performed (R426). -/
def execPacketSignal (q : Nat) (s : State) : Host.Outcome State Fault Refusal :=
  s.onPacket q 3 fun s idx w =>
    let op : SigOp := match (fld (recWord w 6) 0 8).toNat with
      | 0 => .set
      | 1 => .add
      | _ => .sub
    s.signal q (pktWide w 2) op (pktWide w 4) (some idx)

/-- The copy of a WSLOAD (R428): a source that cannot be read is an error of the queue, and what has been written stays. -/
def State.beginWsload (s : State) (key idx : Nat) (w : Rec) : State :=
  let q := s.queue key
  let (die, unit, n) := wsloadTarget w
  match q.mapped with
  | none => s
  | some (_, tag) =>
    match s.copySectors none tag q.privileged (pktWide w 2).toNat (weightPa die (256 * unit)) (4 * n) with
    | (s, .error _) => s.failQueue key 2
    | (s, .ok bad) =>
      let (id, s) := s.fresh
      { s with wsCopies := s.wsCopies ++
        [({ id := id, dest := none, queue := key, packet := idx, die := die, off := unit, len := n, poison := bad } : WsCopy)] }

/-- A bank that a WSLOAD writes is sealed. -/
def State.wsloadSealed (s : State) (w : Rec) : Bool :=
  let (die, unit, n) := wsloadTarget w
  (banksOf unit n).any (s.sealed die)

/-- WSLOAD: begins, or waits for an unseal and holds its queue (R58, R428). -/
def execPacketWsload (q : Nat) (s : State) : Host.Outcome State Fault Refusal :=
  s.onPacket q 4 fun s idx w =>
    if s.wsloadSealed w then
      let hold (p : Packet) : Packet := if p.index = idx then { p with begun := false } else p
      s.modQueue q fun x => { x with started := x.started.map hold }
    else s.beginWsload q idx w

/-- A WSLOAD that waits begins once every bank it writes is unsealed. -/
def execWsloadUnsealStart (q : Nat) (s : State) : Host.Outcome State Fault Refusal :=
  match (s.queue q).started.find? fun p => !p.begun with
  | none => .next s
  | some p =>
    if s.wsloadSealed p.words ∨ s.trip ∨ (s.queue q).state ≠ .enabled ∨ (s.queue q).mapped.isNone then .next s
    else
      let start (x : Packet) : Packet := if x.index = p.index then { x with begun := true } else x
      .next ((s.modQueue q fun x => { x with started := x.started.map start }).beginWsload q p.index p.words)

/-- A WSLOAD completes: its signal carries bit 63 where a source sector was poisoned (R428). -/
def execWsloadComplete (q idx : Nat) (s : State) : Host.Outcome State Fault Refusal :=
  match s.wsCopies.find? fun c => c.dest.isNone && c.queue == q && c.packet == idx,
      (s.queue q).started.find? fun p => p.index == idx with
  | some c, some p =>
    let v := pktWide p.words 8 ||| (if c.poison then 0x8000000000000000 else 0)
    let s := { s with wsCopies := s.wsCopies.filter fun x => x.id != c.id }
    let s := if pktWide p.words 6 = 0 then s else s.signal q (pktWide p.words 6) .set v
    .next (s.completePacket q idx)
  | _, _ => .next s

/-- BARRIER: with nothing before it, it completes at once, or with its signal (R426). -/
def execPacketBarrier (q : Nat) (s : State) : Host.Outcome State Fault Refusal :=
  s.onPacket q 5 fun s idx w =>
    if (s.queue q).started.head?.any fun p => p.index == idx then
      if pktWide w 2 = 0 then s.completePacket q idx
      else (s.marked q idx).signal q (pktWide w 2) .set (pktWide w 4) (some idx)
    else s

/-- PREEMPT: the ladder on, or resumption of, another queue of the function; it completes when that queue's ladder has
ended (R426). -/
def execPacketPreempt (q : Nat) (s : State) : Host.Outcome State Fault Refusal :=
  s.onPacket q 6 fun s idx w =>
    let target := qKey (fnOf q) (pktTarget w)
    let s := if fld (recWord w 2) 16 8 = 0 then s.startLadder target 0 else s.resumeQueue target
    if stBusy (s.queue target).status then s else s.completePacket q idx

/-- RESET: of another queue of the function; it completes with the reset (R426, R431). -/
def execPacketReset (q : Nat) (s : State) : Host.Outcome State Fault Refusal :=
  s.onPacket q 7 fun s _ w => s.beginReset (qKey (fnOf q) (pktTarget w))

end Sys2Proof.Machine
end

