-- ==== Sys2Proof/Machine/Fabric.lean ====
section
/-!
DEFINITION. The fabric (R439 to R457): requests of peers, answers to this device's requests, retries and timeouts, link
training, keys, and the discipline of the time base.
-/

namespace Sys2Proof.Machine

open Sys2Proof

/-! ## Requests of peers (R444 to R449) -/

/-- A line that a page move to this device has not brought over is brought over before an access reaches it (R46). -/
def State.bringOver (s : State) (pa : Nat) : State :=
  match s.migrations.find? fun m => m.rank.isNone && decide (m.newFrame ≤ pa ∧ pa < m.newFrame + m.size) with
  | some m => s.copyLine m ((pa - m.newFrame) / 256)
  | none => s

/-- Writes bytes that a peer sends, sector by sector; an engine's with the place of its command (R112). -/
def State.pokeAll (s : State) (place : Option Nat) (pa : Nat) (bs : List Byte) : State :=
  (sectorPieces pa bs (bs.length / 64 + 2)).foldl (fun s p =>
    match place with
    | none => s.poke p.1 p.2
    | some _ => s.stampedPoke place p.1 p.2) s

/-- The runs of bytes that a mask selects in a line: their offsets, and the bytes of a line's data. -/
def maskRuns (m : BitVec 256) (line : BitVec 2048) : List (Nat × List Byte) :=
  let add (rs : List (Nat × List Byte)) (k : Nat) : List (Nat × List Byte) :=
    if !m.getLsbD k then rs
    else
      let b : Byte := line.extractLsb' (8 * k) 8
      match rs with
      | (o, bs) :: rest => if o + bs.length = k then (o, bs ++ [b]) :: rest else (k, [b]) :: rs
      | [] => [(k, [b])]
  ((List.range 256).foldl add []).reverse

/-- Sectors of a line that a mask touches, 0 to 3. -/
def maskSectors (m : BitVec 256) : List Nat := (List.range 4).filter fun k => m.extractLsb' (64 * k) 64 != 0

/-- The masked bytes of a line of this device, as a number. -/
def State.maskedLine (s : State) (pa : Nat) (m : BitVec 256) : Nat :=
  ofBytes ((List.range 256).map fun k => if m.getLsbD k then s.byte (pa + k) else 0)

/-- The read of a line in a view, run by run (R327). -/
def State.viewLine (s : State) (pa stamp : Nat) (acc : ViewRead) (rs : List (Nat × List Byte)) : ViewRead :=
  match rs, acc with
  | [], r => r
  | _, .wait => .wait
  | (o, bs) :: rest, .value x bad lost =>
    match s.viewRead (pa + o) bs.length stamp with
    | .wait => .wait
    | .value y bad' lost' => s.viewLine pa stamp (.value (x + y * 2 ^ (8 * o)) (bad || bad') (lost || lost')) rest

/-- The stores of a convoy's line, run by run, for the peer that it is a convoy of. -/
def State.pendRuns (s : State) (cid : BitVec 24) (ver : Word) (pa : Nat) (source : Option Nat) (rs : List (Nat × List Byte)) :
    Except Nat State :=
  match rs with
  | [] => .ok s
  | (o, bs) :: rest =>
    match s.pendStore cid ver (pa + o) bs source with
    | .ok s => s.pendRuns cid ver pa source rest
    | .error e => .error e

/-- The name of a peer's atomic in a migration's record: source and agent. -/
def agentKey (r : FabReq) : Nat := 2 ^ 32 * r.src + r.agent

/-- The recorded value of an atomic that has been applied already (R445), or that has been applied to its page while the page
moves (R47). -/
def State.recorded (s : State) (r : FabReq) : Option DWord :=
  match s.applied.find? fun a => a.src == r.src && a.agent == r.agent && a.seqno == r.seqno with
  | some a => some a.ret
  | none =>
    (s.migrations.filter fun m => decide (m.newFrame ≤ r.addr ∧ r.addr < m.newFrame + m.size)).findSome? fun m =>
      (m.applied.find? fun a => a.1 == agentKey r && a.2.1 == r.seqno).map fun a => a.2.2

/-- Records an atomic that has been applied, also with the page move that its address belongs to. -/
def State.recordAtomic (s : State) (r : FabReq) (v : DWord) : State :=
  let mine (m : Migration) : Migration :=
    if m.rank.isNone ∧ m.newFrame ≤ r.addr ∧ r.addr < m.newFrame + m.size then
      { m with applied := m.applied ++ [(agentKey r, r.seqno, v)] }
    else m
  { s with
    applied := s.applied ++ [{ src := r.src, agent := r.agent, seqno := r.seqno, ret := v, at_ := s.tbase }]
    migrations := s.migrations.map mine }

/-- What a peer's request comes to: its answer; or it has been taken and its answer comes later; or it is held, its line owned
by an engine, its bank closed or its version pending. -/
inductive Served where
  | answer (s : State) (r : FabResp)
  | later (s : State)
  | held

/-- What an address of this device cannot do for a peer's atomic (R315): DEVATOM or HOSTATOM. -/
def atomRefused (op : AOp) (ty : ATy) (pa : Nat) : Option FabResp :=
  let float : Bool := ty == .f32 || ty == .f64
  if regionOf pa = .device then some (.joinFault 0x07 0x16)
  else if regionOf pa = .host ∧ ¬(op = .exch ∨ op = .cas ∨ (op = .add ∧ !float)) then some (.joinFault 0x07 0x15)
  else none

/-- An atomic of a peer (R315, R445). -/
def State.serveAtomic (s : State) (r : FabReq) (op : AOp) (ty : ATy) (x new : DWord) (returns : Bool) : Served :=
  match atomRefused op ty r.addr with
  | some e => .answer s e
  | none =>
    let n := atyBytes ty
    match (s.reach r.addr n).hostAtomicFails r.addr with
    | (s, true) => .answer s (.joinFault 0x07 0x15)
    | (s, false) =>
      if s.poisoned r.addr n then .answer s (if returns then .ecc else .ack)
      else
        let old := bytesFrom s.mem r.addr n
        let x' := if op = .cas then new.toNat else x.toNat
        let s := { s with mem := writeBytes s.mem (withAddr r.addr (toBytes n (atomNew op ty old x.toNat x'))) }
        let s := s.recordAtomic r (BitVec.ofNat 64 old)
        .answer s (if returns then .data old else .ack)

/-- A combined reduction of a peer (R318, R445): it enters the reduction queue, and is acknowledged when its entry is applied; one
with an acquire merges with nothing and is applied at once (R319). -/
def State.serveReduce (s : State) (r : FabReq) (op : AOp) (ty : ATy) (c : Int × Nat) (acquires : Bool) : Served :=
  match atomRefused op ty r.addr with
  | some e => .answer s e
  | none =>
    let n := atyBytes ty
    match s.hostAtomicFails r.addr with
    | (s, true) => .answer s (.joinFault 0x07 0x15)
    | (s, false) =>
      if acquires then
        let s := s.reach r.addr n
        if s.poisoned r.addr n then .answer s .ack
        else
          let x := redResult op ty (bytesFrom s.mem r.addr n) c
          .answer (({ s with mem := writeBytes s.mem (withAddr r.addr (toBytes n x)) } : State).recordAtomic r 0) .ack
      else
        let add (e : RedEntry) : RedEntry :=
          { e.merge (r.addr % 64) c with acks := e.acks ++ [(r.src, r.agent, r.seqno)] }
        .later ((s.enqueueRed none op ty r.addr add).recordAtomic r 0)

/-- What a repeated atomic or reduction comes to, which is not applied again: the recorded value (R445), or the answer that is
to come. -/
def State.replayed (s : State) (r : FabReq) : Option Served :=
  match r.op with
  | .atomic _ _ _ _ returns => (s.recorded r).map fun v => .answer s (if returns then .data v.toNat else .ack)
  | .reduce .. =>
    if s.reductions.any fun e => e.acks.contains (r.src, r.agent, r.seqno) then some (.later s)
    else (s.recorded r).map fun _ => .answer s .ack
  | _ => none

/-- An access of a peer to memory whose address has been checked. -/
def State.serveMemory (s : State) (r : FabReq) : Served :=
  match r.op with
  | .read n =>
    let s := s.reach r.addr n
    if s.bankClosed r.addr then .held
    else if regionOf r.addr = .device then let (s, x) := s.registerRead r.addr 0 n; .answer s (.data x)
    else if s.poisoned r.addr n then .answer s .ecc
    else .answer s (.data (bytesFrom s.mem r.addr n))
  | .write bs =>
    if regionOf r.addr = .weights then .answer s .weightStore
    else if r.place.any fun k => s.outranked k [r.addr / 256] then .held
    else .answer (s.pokeAll r.place r.addr bs) .ack
  | .atomic op ty x new returns =>
    if regionOf r.addr = .weights then .answer s .weightStore else s.serveAtomic r op ty x new returns
  | .reduce op ty v special acquires =>
    if regionOf r.addr = .weights then .answer s .weightStore else s.serveReduce r op ty (v, special) acquires
  | .readLine m =>
    let s := (maskSectors m).foldl (fun s k => s.reach (r.addr + 64 * k) 64) s
    if s.bankClosed r.addr then .held
    else if regionOf r.addr = .device then let (s, x) := s.registerRead r.addr 0 256; .answer s (.data x)
    else if (maskSectors m).any fun k => s.poisoned (r.addr + 64 * k) 64 then .answer s .ecc
    else .answer s (.data (s.maskedLine r.addr m))
  | .writeLine m d =>
    if regionOf r.addr = .weights then .answer s .weightStore
    else .answer ((maskRuns m d).foldl (fun s x => s.pokeAll none (r.addr + x.1) x.2) s) .ack
  | .cvstore cid ver m d =>
    if regionOf r.addr = .weights then .answer s .weightStore
    else
      match s.pendRuns cid ver r.addr (if r.src = s.rank.toNat then none else some r.src) (maskRuns m d) with
      | .ok s => .answer s .ack
      | .error sub => .answer s (.joinFault 0x10 sub)
  | .cvload stamp m =>
    let s := (maskSectors m).foldl (fun s k => s.reach (r.addr + 64 * k) 64) s
    if s.bankClosed r.addr then .held
    else match s.viewLine r.addr stamp.toNat (.value 0 false false) (maskRuns m 0) with
    | .wait => .held
    | .value _ true _ => .answer s .ecc
    | .value x false lost => .answer s (if lost then .front x else .data x)
  | _ => .answer s .ack

/-- An emission of a peer (R348, R363): accepted, or stalled in the order of its queue, or the overflow of .ns; one that has been
withdrawn before it arrived is dropped (R402, R432). -/
def State.serveEmission (s : State) (r : FabReq) (ident die : Nat) (ns : Bool) (recs : List Rec) : Served :=
  let name := (r.src, r.agent, r.seqno)
  if (s.recorded r).isSome then .answer s .ack
  else match s.runs.find? fun x => x.2.ident.toNat == ident && x.2.me.dies.testBit die with
  | none => .answer s .retry
  | some (run, x) =>
    let node := recTarget (recs.headD [])
    if x.state = .fatal then .answer s .retry
    else if s.stalled.any fun e => e.peer == some name then .held
    else if s.canAccept s.stalled run die node recs.length then
      .answer ((s.acceptRecs run die node none recs).note r.src r.agent r.seqno 1) .ack
    else if ns then
      .answer { s with runs := Map.set s.runs run (x.modReport die node fun p => { p with flags := p.flags ||| 2 }) }
        (.joinFault 0x0C 0)
    else
      let (id, s) := s.fresh
      let e : Stalled :=
        { id := id, run := run, die := die, node := node, recs := recs, cluster := 0, tid := 0, party := 0, origin := noOrigin,
          peer := some name }
      .answer { s with stalled := s.stalled ++ [e] } .stalled

/-- A convoy whose home this device is, of a peer, is open. -/
def State.openFor (s : State) (source : Nat) (cid : BitVec 24) (ver : Word) : Bool :=
  Map.find s.cvTable (cidSlot cid) == some .opened && Map.find s.cvOpeners (cidSlot cid) == some source &&
    Store.read s.cvVersions (cidSlot cid) == ver

/-- What this device does as a home or a holder of lines of a peer's convoy (R326, R331). A convoy that it holds no more, its
opener having failed (R457), is refused. -/
def State.serveConvoy (s : State) (r : FabReq) : Served :=
  match r.op with
  | .cvopen =>
    match s.allocConvoy r.src with
    | none => .answer s .retry
    | some (s, cid, ver) => .answer s.useFree.useFree (.data (cidSlot cid + 4096 * ver.toNat))
  | .cvprepare cid ver =>
    if (s.pendingOf cid ver).isEmpty then .answer s (.joinFault 0x10 4) else .answer (s.prepare cid ver) .ack
  | .cvhome cid ver comp =>
    if !s.openFor r.src cid ver then .answer s (.joinFault 0x10 4)
    else if s.ns < s.cvLast then .held
    else
      .answer { s.commitLines cid ver s.ns comp with cvLast := s.ns + 1, cvTable := Map.drop s.cvTable (cidSlot cid) }
        (.data s.ns)
  | .cvcommit cid ver stamp comp => .answer (s.commitLines cid ver stamp.toNat comp) .ack
  | .cvabort cid ver => .answer (s.discardConvoy cid ver) .ack
  | _ => .answer s .ack

/-- A request is performed (R444): an access at the home's memory under R446, with a bounce from a page that is
moving (R45); records under R348; join operations under R357; convoys under R326; the end of a run under R404. -/
def State.serve (s : State) (r : FabReq) : Served :=
  match r.op with
  | .emission ident die ns recs => s.serveEmission r ident die ns recs
  | .withdraw seqno =>
    match s.recorded { r with seqno := seqno } with
    | some 1 => .answer s .ack
    | some _ => .answer s (.data 1)
    | none =>
      let s := { s with stalled := s.stalled.filter fun e => e.peer != some (r.src, r.agent, seqno) }
      .answer (s.note r.src r.agent seqno 0) (.data 1)
  | .fatalStop ident =>
    let stop (s : State) (x : Nat × Run) : State := ((s.stopRun x.1).fatalEnd x.1).ladderCheck x.2.queue
    .answer ((s.runs.filter fun x => x.2.ident.toNat == ident && (x.2.state == .active || x.2.state == .held)).foldl stop s) .ack
  | .resolve h n _ =>
    match s.resolveHere (joinKey h) n with
    | (s, true) => .answer s (.joinFault 0x0B 0)
    | (s, false) => .answer s .ack
  | .register h rec =>
    match s.register h rec none with
    | .done s => .answer s .ack
    | .empty => .answer s (.joinFault 0x07 0x19)
    | .full => .answer s (.joinFault 0x0C 1)
  | .joinRead h => .answer s (.data (s.joinWord (joinKey h)).toNat)
  | .joinFail h => .answer (s.failHere (joinKey h)) .ack
  | .cvopen | .cvprepare .. | .cvhome .. | .cvcommit .. | .cvabort .. => s.serveConvoy r
  | _ =>
    match s.replayed r with
    | some x => x
    | none =>
      match s.migration? r.addr with
      | some m => .answer s (.bounce (m.rank.getD s.rank.toNat) (m.newFrame + (r.addr - m.oldFrame)))
      | none =>
        if regionOf r.addr = .hole then .answer s .hole
        else if s.owned r.addr then .held
        else (s.bringOver r.addr).serveMemory r

/-- A request counts as performed in the order of its source (R444). -/
def State.passed (s : State) (r : FabReq) : State :=
  match orderKeyOf r.op r.addr with
  | none => s
  | some k =>
    let key := 2 ^ 60 * r.src + k
    { s with servedOf := Map.set s.servedOf key (max ((Map.find s.servedOf key).getD 0) (r.order + 1)) }

/-- Requests of the source that must be performed before a request: a negative number says that it has been performed. -/
def State.ahead (s : State) (r : FabReq) : Int :=
  match orderKeyOf r.op r.addr with
  | none => 0
  | some k => (r.order : Int) - ((Map.find s.servedOf (2 ^ 60 * r.src + k)).getD 0 : Nat)

/-- An answer to a peer. -/
def State.answer (s : State) (r : FabReq) (a : FabResp) : State :=
  { s with sent := s.sent ++ [Reply.fabric r.src r.agent r.seqno a] }

/-- A request whose turn has come: it is performed, or kept at the head of its order. One that must be sent again keeps its
place in the order. -/
def State.performRequest (s : State) (r : FabReq) : State :=
  match s.serve r with
  | .held => { s with reorder := s.reorder ++ [r] }
  | .later s => s.passed r
  | .answer s a => (if a = .retry then s else s.passed r).answer r a

/-- A request stands at its target: it is discarded as too old (R450), when no earlier one can be performed any more either; or
performed in its source's order, kept until its turn comes, or recognised as a repeat (R444, R445). -/
def State.inTurn (s : State) (r : FabReq) : State :=
  if r.stamp.toNat + 256 * (s.fto + s.bound) < s.tbase.toNat then s.passed r
  else if 0 < s.ahead r then { s with reorder := s.reorder ++ [r] }
  else if s.ahead r = 0 then s.performRequest r
  else
    match s.replayed r with
    | some (.answer s a) => s.answer r a
    | _ => s

/-- Requests that wait at this device are looked at again. -/
def State.readmit (s : State) : State :=
  if s.reorder.isEmpty then s else s.reorder.foldl State.inTurn { s with reorder := [] }

/-- Some fabric port works. -/
def State.linked (s : State) : Bool := s.fabPorts.any fun p => p.2.up

/-- Reads and writes are of 1 to 256 bytes (R439). -/
def sizedRequest (r : FabReq) : Bool :=
  match r.op with
  | .read n => decide (1 ≤ n ∧ n ≤ 256)
  | .write bs => decide (1 ≤ bs.length ∧ bs.length ≤ 256)
  | _ => true

/-- A request needs a recall of its line from an engine, which is a forward (R449). -/
def State.forwards (s : State) (r : FabReq) : Bool :=
  (match r.op with
    | .read _ | .write _ | .readLine _ | .writeLine .. | .atomic .. | .reduce .. | .cvstore .. | .cvload .. => true
    | _ => false) && s.owned r.addr

/-- A request of a peer arrives through a port that works. One that needs a forward is taken while this device holds a credit
for it, which is a free value (log entry 67), and is answered with a retry otherwise (R449). -/
def execRemoteRequest (r : FabReq) (s : State) : Host.Outcome State Fault Refusal :=
  let same (x : FabReq) : Bool := x.src == r.src && x.agent == r.agent && x.seqno == r.seqno && x.order == r.order
  if r.dst ≠ s.rank.toNat ∨ r.src = s.rank.toNat ∨ !s.linked ∨ s.trip ∨ !sizedRequest r ∨ s.reorder.any same then .next s
  else if !s.forwards r then .next (s.inTurn r)
  else if Config.forwardCredit s.free then .next (s.useFree.inTurn r)
  else .next (s.useFree.answer r .retry)

/-- The record of an applied atomic is dropped one fabric timeout after it (R445). -/
def execAtomicRecordExpiry (src agent : Nat) (seqno : BitVec 16) (s : State) : Host.Outcome State Fault Refusal :=
  let old (a : Applied) : Bool :=
    a.src == src && a.agent == agent && a.seqno == seqno && decide (a.at_.toNat + 256 * s.fto ≤ s.tbase.toNat)
  .next { s with applied := s.applied.filter fun a => !old a }

/-! ## Answers to this device's requests (R446, R449) -/

/-- A request is complete: it is outstanding no more, and its party waits for it no more. What a copy command has written
counts as delivered with its last request (R106); a packet whose signal it wrote completes (R426). -/
def State.forget (s : State) (o : Outstanding) : State :=
  let s := { s with outstanding := sendNext s.tbase (fun x => x.id == o.id) s.outstanding }
  match o.party with
  | some p => s.modParty o.tid p fun q =>
      { q with remote := q.remote.filter (· != o.id), acquires := q.acquires.filter (· != o.id) }
  | none =>
    match Map.find s.teams o.tid with
    | some t => t.channels.foldl (fun s c => s.landed o.tid c.1) s
    | none => s.signalLanded o.id

/-- Records that the other destinations of an emission have accepted. -/
def State.tookOf (s : State) (o : Outstanding) : Nat :=
  match o.party.bind fun p => s.party? o.tid p with
  | some q => (q.slot o.origin.slot).took
  | none => 0

/-- The queue whose packet completes with a request. -/
def State.signaller (s : State) (id : Nat) : Option Nat :=
  (s.queues.find? fun q => q.2.started.any fun p => p.awaits == some id).map Prod.fst

/-- A request is outstanding no more, and nothing comes of it. -/
def State.lose (s : State) (o : Outstanding) : State :=
  { s with outstanding := sendNext s.tbase (fun x => x.id == o.id) s.outstanding }

/-- An operation of a team's sequencer. -/
def State.isMatOp (s : State) (tid id : Nat) : Bool :=
  (Map.find s.teams tid).any fun t => t.seq.any fun q => q.ops.any fun o => o.id == id

/-- A fault of the team that made a request; the request is complete. A write's is deferred (R446). What an engine's command
has asked for is the engine's, but a matrix operation's; what an instruction reads at issue is the instruction's; what a queue
reads, and its signal, is the queue's error (log entry 82). -/
def State.failRequest (s : State) (o : Outstanding) (c : Cause) (deferred : Bool) : State :=
  let w := match Map.find s.teams o.tid with | some _ => s.waitOf o.tid o.origin | none => .none
  match o.party, o.access with
  | none, some (id, _) =>
    if 2 ^ 90 ≤ id then (s.lose o).failQueue (id - 2 ^ 90) 2
    else (s.forget o).takeFault o.tid o.origin c (decide (id < 2 ^ 80)) (decide (id < 2 ^ 80) && !s.isMatOp o.tid id) w
  | none, none =>
    match s.signaller o.id with
    | some key => (s.lose o).failQueue key 2
    | none => (s.forget o).takeFault o.tid o.origin c deferred true w
  | some _, _ => (s.forget o).takeFault o.tid o.origin c deferred false w

/-- The lanes that a request of an access carries, with their offsets in what comes back. -/
def Outstanding.laneList (o : Outstanding) (lane : Nat) : List (Nat × Nat) := if o.lanes.isEmpty then [(lane, 0)] else o.lanes

/-- The lanes of a request get their values, or their fault, and the access ends with its last lane. `f` has the access's
size and the lane's offset. -/
def State.fillLanes (s : State) (o : Outstanding) (a : Nat × Nat) (f : Nat → Nat → LaneAcc → LaneAcc) : State :=
  let s := s.forget o
  match Map.find s.teams o.tid, o.party with
  | some t, some p =>
    match Map.find t.parties p with
    | none => s
    | some q =>
      match q.accesses.find? fun x => x.id == a.1 with
      | none => s
      | some x =>
        let fill (y : LaneAcc) : LaneAcc :=
          match (o.laneList a.2).find? fun k => k.1 == y.lane with
          | some k => f (Size.bytes x.size) k.2 y
          | none => y
        s.settleAccess (s.tagOf t) o.tid p { x with lanes := x.lanes.map fill }
  | _, _ => s

/-- The lanes of a request get what has been read: each its bytes of the line. -/
def State.fillRead (s : State) (o : Outstanding) (a : Nat × Nat) (v : Nat) : State :=
  s.fillLanes o a fun n off y => { y with val := some (BitVec.ofNat 64 (v / 2 ^ (8 * off) % 2 ^ (8 * n))) }

/-- The bytes of a line that a reader has asked a peer for have come (R105). -/
def State.brought (s : State) (o : Outstanding) (id v : Nat) : State :=
  let mask : BitVec 256 := match o.req.op with | .readLine m => m | _ => 0
  let bytes := ((List.range 256).zip (toBytes 256 v)).filter fun b => mask.getLsbD b.1
  ({ s with peerData := bytes.foldl (fun m b => Map.set m (2 ^ 64 * id + o.key + b.1) b.2) s.peerData } : State).forget o

/-- The emission that a withdrawal names. -/
def State.withdrawnOf (s : State) (o : Outstanding) (seqno : BitVec 16) : Option Outstanding :=
  s.outstanding.find? fun x => x.req.dst == o.req.dst && x.req.agent == o.req.agent && x.req.seqno == seqno &&
    match x.req.op with
    | .emission .. => true
    | _ => false

/-- A peer has withdrawn an emission: a team that is being saved keeps it, to offer it again (R414). -/
def State.withdrawn (s : State) (o : Outstanding) (seqno : BitVec 16) : State :=
  let s := s.lose o
  match s.withdrawnOf o seqno with
  | none => s
  | some e =>
    if (Map.find s.teams e.tid).isSome then
      { s with outstanding := s.outstanding.map fun x => if x.id = e.id then { x with waiting := true, held := true } else x }
    else s.lose e

/-- What a request has read reaches it: a lane of an access, a reader, a cvopen, a cvclose, an emission that is withdrawn. -/
def State.readBack (s : State) (o : Outstanding) (v : Nat) : State :=
  match o.req.op, o.party, o.access with
  | .cvopen, some p, _ => (s.forget o).openedAway o.tid p o.origin.slot o.req.dst v
  | .cvhome cid ver _, _, _ => (s.forget o).committedAway cid ver v
  | .withdraw seqno, _, _ => s.withdrawn o seqno
  | _, none, some a => s.brought o a.1 v
  | _, _, some a => s.fillRead o a v
  | _, _, none => s.forget o

/-- The view of an access is lost (R327). -/
def State.loseView (s : State) (o : Outstanding) (a : Nat × Nat) : State :=
  match (o.party.bind fun p => s.party? o.tid p).bind fun q => q.accesses.find? fun x => x.id == a.1 with
  | some x => { s with cvSlots := Map.update s.cvSlots x.view fun c => { c with lost := true } }
  | none => s

/-- A refusal reaches its request (R446): the fault of a lane, or a deferred fault. -/
def State.refuse (s : State) (o : Outstanding) (cause sub : Nat) : State :=
  match o.access, o.party with
  | some a, some _ => s.fillLanes o a fun _ _ x => { x with failed := some (cause, sub) }
  | _, _ =>
    let tag : Word := match Map.find s.teams o.tid with | some t => (s.tagOf t).setWidth 32 | none => 0
    s.failRequest o { cause := cause, sub := sub, addr := o.va, info := if cause = 0x06 then tag else 0 } true

/-- A request is accepted: an emission counts its records. -/
def State.took (s : State) (o : Outstanding) : State :=
  let s := s.forget o
  match o.req.op, o.party with
  | .emission _ _ _ recs, some p =>
    s.modParty o.tid p fun q => q.modSlot o.origin.slot fun x => { x with took := x.took + recs.length }
  | _, _ => s

/-- A request is accepted; a withdrawal that comes too late says that its emission has been. -/
def State.acknowledge (s : State) (o : Outstanding) : State :=
  match o.req.op with
  | .withdraw seqno =>
    match s.withdrawnOf o seqno with
    | some e => (s.lose o).took e
    | none => s.lose o
  | _ => s.took o

/-- A cvclose fails: the convoy aborts, and the party that waits for it faults (R329). The slot of a team that has ended is
free. -/
def State.closeFails (s : State) (o : Outstanding) (cid : BitVec 24) (ver : Word) : State :=
  let s := (s.abortConvoy cid ver).failRequest o { cause := 0x10, sub := 4, info := cid.setWidth 32 } false
  { s with cvSlots := s.cvSlots.filter fun c => (Map.find s.teams c.2.tid).isSome }

/-- A join operation, an emission with .ns or a convoy's store faults at its target, or an atomic that the target's memory
cannot do. A double resolve by a record that has retired with its team is a fault record of that team (R355). -/
def State.joinFault (s : State) (o : Outstanding) (cause sub : Nat) : State :=
  match o.req.op with
  | .resolve h _ deferred =>
    match o.late with
    | some t => (s.forget o).lateFault t (doubleResolve h)
    | none => (s.forget o).laterFault o.tid o.origin { cause := cause, sub := sub, lane := o.lane, info := h } deferred false
  | .register h _ => s.failRequest o { cause := cause, sub := sub, info := if cause = 0x07 then h else 0 } false
  | .emission _ _ _ recs =>
    let info := if cause = 0x0D then recTarget (recs.headD []) else s.tookOf o
    s.failRequest o { cause := cause, sub := sub, info := BitVec.ofNat 32 info } false
  | .cvstore cid ver .. =>
    (s.abortConvoy cid ver).failRequest o { cause := cause, sub := sub, info := cid.setWidth 32 } true
  | .cvprepare cid ver | .cvhome cid ver _ => s.closeFails o cid ver
  | _ => s.refuse o cause sub

/-- The delay in microseconds after one more retry (R449). -/
def nextBackoff (n : Nat) : Nat := if n = 0 then 1 else min 64 (2 * n)

/-- The request has been sent, and no answer has sent it back. -/
def Outstanding.away (o : Outstanding) : Bool := o.after.isNone && !o.waiting && o.bounced.isNone

/-- What the answer to a request does. -/
def State.respond (s : State) (o : Outstanding) (r : FabResp) : State :=
    let again (f : Outstanding → Outstanding) : State :=
      { s with outstanding := s.outstanding.map fun x => if x.id = o.id then f x else x }
    match r with
      | .data v => s.readBack o v
      | .front v =>
        match o.access with
        | some a => (s.loseView o a).fillRead o a v
        | none => s.forget o
      | .ack => s.acknowledge o
      | .hole => s.refuse o 0x06 4
      | .weightStore => s.refuse o 0x08 0
      | .ecc => s.refuse o 0x0F 0
      | .stalled => again fun x => { x with held := true }
      | .retry => again fun x => { x with waiting := true, backoff := nextBackoff x.backoff, retryAt := s.tbase.toNat }
      | .bounce rank frame => again fun x => { x with bounced := some (rank, frame), backoff := 0 }
      | .joinFault cause sub => s.joinFault o cause sub

/-- An answer arrives, through a port that works, for a request that has been sent. -/
def execRemoteResponse (id : Nat) (r : FabResp) (s : State) : Host.Outcome State Fault Refusal :=
  match s.outstanding.find? fun o => o.id == id && o.away && o.port.isSome && o.req.dst != s.rank.toNat with
  | none => .next s
  | some o => .next (if s.linked && !s.trip then s.respond o r else s)

/-- The delay after a retry has passed and the request is sent again, through a port chosen anew (R441, R449). -/
def execFabricRetryBackoff (id : Nat) (s : State) : Host.Outcome State Fault Refusal :=
  let due (o : Outstanding) : Bool := o.id == id && o.waiting && !o.held && decide (o.retryAt + 256000 * o.backoff ≤ s.tbase.toNat)
  if s.outstanding.any due then
    let (port, s) := s.egress
    .next { s with outstanding := s.outstanding.map fun o => if due o then { o with waiting := false, port := port } else o }
  else .next s

/-- The access of a party that a request was sent for is taken back, with the registers that it would have written. -/
def State.dropAccess (s : State) (o : Outstanding) (id : Nat) : State :=
  match o.party with
  | some p =>
    s.modParty o.tid p fun q => { q with
      accesses := q.accesses.filter fun x => x.id != id, pending := q.pending.filter fun y => y.op != id }
  | none => s

/-- A request of an instruction, an engine or a team that has retired is not answered: it is their fault. -/
def State.unanswered (s : State) (o : Outstanding) (c : Cause) : State :=
  match o.late, if o.party.isSome then o.access else none with
  | some t, _ => (s.forget o).lateFault t c
  | none, some a => (s.dropAccess o a.1).failRequest o { c with lane := laneName a.2 } false
  | none, none => s.failRequest o c true

/-- What a request without an answer leads to: a fault of its team. A convoy that a line's device does not acknowledge aborts
(R329); a message that nobody waits for is dropped. -/
def State.timedOut (s : State) (o : Outstanding) : State :=
  let silent : Cause := { cause := 0x11, addr := o.va, info := BitVec.ofNat 32 o.req.dst }
  match o.req.op with
  | .withdraw seqno =>
    match s.withdrawnOf o seqno with
    | some e => (s.lose o).failRequest e silent false
    | none => s.lose o
  | .cvcommit .. | .cvabort .. | .joinFail _ | .fatalStop _ => s.forget o
  | .cvopen | .emission .. => s.failRequest o silent false
  | .cvprepare cid ver | .cvhome cid ver _ => s.closeFails o cid ver
  | _ => s.unanswered o silent

/-- A fabric timeout toward a rank is how this device detects that its device has failed (R457): pending versions of its convoys
and of convoys whose home it is are discarded, its convoys leave this home's table, and this device's convoys of that home
abort. -/
def State.peerFailed (s : State) (r : Nat) : State :=
  let lost (l : CvLine) : Bool := l.pending.any fun v => l.source == some r || cidRank v.side.cid == r
  let own := s.cvSlots.filter fun c => !c.2.view && c.2.state == .opened && cidRank c.2.cid == r
  let s := own.foldl (fun s c => s.abortConvoy c.2.cid c.2.ver) s
  { s with
    cvLines := Map.mapVals s.cvLines fun _ l =>
      if lost l then { l with pending := none, source := none, prepared := false }.counted else l
    cvTable := s.cvTable.filter fun c => !(c.2 == .opened && Map.find s.cvOpeners c.1 == some r) }

/-- A request without an answer for a fabric timeout since its first issue (R450). An emission that its target holds has been
answered. -/
def execFabricTimeout (id : Nat) (s : State) : Host.Outcome State Fault Refusal :=
  match s.outstanding.find? fun o => o.id == id with
  | none => .next s
  | some o =>
    if s.tbase.toNat < o.req.stamp.toNat + 256 * s.fto ∨ o.held ∨ o.after.isSome then .next s
    else if o.req.dst = s.rank.toNat then .next s
    else .next ((s.timedOut o).peerFailed o.req.dst)

/-! ## Ports and keys (R439, R441, R451) -/

/-- A port that has not trained. -/
def FabPort.reset : FabPort := { trained := false, up := false, failures := 0, held := true }

def State.port (s : State) (p : Nat) : FabPort := (Map.find s.fabPorts p).getD FabPort.reset

def State.setPort (s : State) (p : Nat) (x : FabPort) : State := { s with fabPorts := Map.set s.fabPorts p x }

/-- Ports that are trained at full width and rate come up once a rank and a key are given, and are down without (R451,
R463). -/
def State.keyPorts (s : State) : State :=
  { s with fabPorts := Map.mapVals s.fabPorts fun _ p => { p with up := p.trained && !p.held && s.key.isSome && s.ranked } }

/-- A flit passes: it is as it was sealed, under the key in use or, for 10 ms after a switch, the key before (R451). -/
def State.authentic (s : State) (f : Flit) : Bool :=
  f.intact && (s.key == some f.key || s.oldKey.any fun k => k.1 == f.key && decide (s.tbase.toNat < k.2 + 2560000000))

/-- A flit arrives: one that fails authentication is discarded, and the third in a row takes the port down. -/
def execDlFlitReceive (port : Nat) (flit : Flit) (s : State) : Host.Outcome State Fault Refusal :=
  let p := s.port port
  if !p.up then .next s
  else if s.authentic flit then .next (s.setPort port { p with failures := 0 })
  else if p.failures + 1 < 3 then .next (s.setPort port { p with failures := p.failures + 1 })
  else .next (s.setPort port { trained := false, up := false, failures := 0, held := true })

/-- A port trains (R439), from bring-up phase 3 on: what the partner asks for beyond the table is refused; with fewer than
4 lanes, or a lower rate, it is held down. -/
def execLinkTraining (port : Nat) (offer : LinkOffer) (s : State) : Host.Outcome State Fault Refusal :=
  if 16 ≤ port ∨ s.phase < 3 ∨ s.trip then .next s
  else
    let full : Bool := offer.lanes == 4 && offer.gtPerLane == 200
    let s := if offer.onlyListed then s else { s with sent := s.sent ++ [Reply.refused] }
    .next (s.setPort port { trained := true, up := false, failures := 0, held := !full }).keyPorts

/-- A port loses its link. -/
def execPortGoesDown (port : Nat) (s : State) : Host.Outcome State Fault Refusal :=
  if port < 16 then .next (s.setPort port FabPort.reset) else .next s

/-- The vendor commands answer accepted or refused (R464). -/
def State.reply (s : State) (r : Reply) : State := { s with sent := s.sent ++ [r] }

/-- SET_KEY: a first key is the job's key at once; another is held beside it until the switch. -/
def execSetKey (wrapped : Nat) (unwraps : Bool) (s : State) : Host.Outcome State Fault Refusal :=
  if !unwraps then .next (s.reply .refused)
  else if s.key.isNone then .next (({ s with key := some wrapped } : State).keyPorts.reply .accepted)
  else .next (({ s with newKey := some wrapped } : State).reply .accepted)

/-- KEY_SWITCH: every port uses the new key; both decrypt for 10 ms. -/
def execKeySwitch (s : State) : Host.Outcome State Fault Refusal :=
  match s.newKey with
  | none => .next (s.reply .refused)
  | some k =>
    let old := s.key.map fun x => (x, s.tbase.toNat)
    .next (({ s with key := some k, newKey := none, oldKey := old } : State).keyPorts.reply .accepted)

/-- The old key stops decrypting 10 ms after the switch. -/
def execOldKeyExpiry (s : State) : Host.Outcome State Fault Refusal :=
  match s.oldKey with
  | none => .next s
  | some (_, since) => if since + 2560000000 ≤ s.tbase.toNat then .next { s with oldKey := none } else .next s

/-- ZEROISE: the keys are gone and the ports hold down until a key is given. -/
def execZeroise (s : State) : Host.Outcome State Fault Refusal :=
  .next (({ s with key := none, newKey := none, oldKey := none } : State).keyPorts.reply .accepted)

/-- SET_RANK. -/
def execSetRank (r : BitVec 12) (s : State) : Host.Outcome State Fault Refusal :=
  if s.anyMapped then .next (s.reply .refused)
  else .next (({ s with rank := r, ranked := true } : State).keyPorts.reply .accepted)

/-- SET_FTO, in nanoseconds: from 100 µs to 100 ms (R450). -/
def execSetFto (ns : Nat) (s : State) : Host.Outcome State Fault Refusal :=
  if s.anyMapped ∨ ns < 100000 ∨ 100000000 < ns then .next (s.reply .refused)
  else .next (({ s with fto := ns } : State).reply .accepted)

/-! ## The time base (R392, R452, R453) -/

/-- Units of tbase in two seconds: without a message or an edge for that long there is none. -/
def syncLimit : Nat := 512000000000

/-- Units of tbase in one second. -/
def secondUnits : Int := 256000000000

/-- The whole seconds of an offset, to the nearest. -/
def wholeSeconds (x : Int) : Int := (x + secondUnits / 2) / secondUnits * secondUnits

/-- The source says how far tbase is ahead of it: tbase itself follows by its rate (R392), and more than 50 ns end a lock
(R453; what the bound is then, log entry 64). -/
def State.timeInput (s : State) (offset : Int) : State :=
  let near : Bool := offset.natAbs ≤ 256 * 50
  let going : Bool := decide (s.tbase.toNat < s.lastSync + syncLimit)
  { s with
    tOffset := offset
    lastSync := s.tbase.toNat
    locked := s.locked && near
    lostAt := if s.locked && !near then s.tbase.toNat else s.lostAt
    tolSince := if near then some (if going then s.tolSince.getD s.tbase.toNat else s.tbase.toNat) else none }

/-- A message of IEEE 1588, with the offset in nanoseconds. While a PPS edge comes every second, it gives the seconds alone
(R452). -/
def execPtpMessage (offset : Int) (s : State) : Host.Outcome State Fault Refusal :=
  let x := 256 * offset
  let pps : Bool := s.lastPps.any fun k => decide (s.tbase.toNat < k + syncLimit)
  .next (s.timeInput (if pps then wholeSeconds x + (s.tOffset - wholeSeconds s.tOffset) else x))

/-- A PPS edge gives the phase: how far tbase's second is ahead of it, in nanoseconds. -/
def execPpsInput (offset : Int) (s : State) : Host.Outcome State Fault Refusal :=
  let x := 256 * offset
  .next { s.timeInput (wholeSeconds s.tOffset + (x - wholeSeconds x)) with lastPps := some s.tbase.toNat }

/-- Lock after 60 s within tolerance, with time messages or PPS (R453). -/
def execTbaseLock (s : State) : Host.Outcome State Fault Refusal :=
  match s.tolSince with
  | none => .next s
  | some since =>
    if since + 15360000000000 ≤ s.tbase.toNat ∧ s.tbase.toNat < s.lastSync + syncLimit then
      .next { s with locked := true, holdover := false }
    else .next s

/-- Holdover after 2 s without time messages and PPS; the bound grows from the moment lock was lost. -/
def execHoldoverEntry (s : State) : Host.Outcome State Fault Refusal :=
  if s.locked ∧ s.lastSync + syncLimit ≤ s.tbase.toNat then
    .next { s with locked := false, holdover := true, lostAt := s.tbase.toNat, tolSince := none }
  else .next s

/-! ## What goes on at every step -/

/-- A request to this device's own rank, which a bounce or the order of DEV lanes has made, is performed here in the order of
its issue, and its answer acts at once. -/
def State.serveOne (s : State) (o : Outstanding) : State :=
  match s.outstanding.find? fun x => x.id == o.id with
  | none => s
  | some o =>
    if o.req.dst != s.rank.toNat || !o.away || o.held ||
        ((s.outstanding.takeWhile fun x => x.id != o.id).any fun x => inOrder x.req o.req) then s
    else
      match s.serve o.req with
      | .held => s
      | .later s => { s with outstanding := s.outstanding.map fun x => if x.id = o.id then { x with held := true } else x }
      | .answer s a => s.respond o a

/-- Answers that this device has given to its own requests act. -/
def State.ownAnswers (s : State) : State :=
  let mine (r : Reply) : Option (Outstanding × FabResp) :=
    match r with
    | .fabric dst agent seqno a =>
      if dst = s.rank.toNat then
        (s.outstanding.find? fun o => o.req.dst == dst && o.req.agent == agent && o.req.seqno == seqno).map fun o => (o, a)
      else none
    | _ => none
  (s.sent.filterMap mine).foldl (fun s x => s.respond x.1 x.2) { s with sent := s.sent.filter fun r => (mine r).isNone }

/-- Requests to this device's own rank. -/
def State.serveOwn (s : State) : State :=
  if s.outstanding.any fun o => o.req.dst == s.rank.toNat then (s.outstanding.foldl State.serveOne s).ownAnswers else s

/-- Requests for which no port worked get one when one works. -/
def State.findPorts (s : State) : State :=
  if s.linked then
    (s.outstanding.filter fun o => o.port.isNone).foldl (fun s o =>
      let (port, s) := s.egress
      { s with outstanding := s.outstanding.map fun x => if x.id = o.id then { x with port := port } else x }) s
  else s

/-- What needs no turn: held stores and requests that can be performed are, and sets of nodes that are no longer deadlocked are
watched no more (R52, R350, R444). -/
def State.upkeep (s : State) : State := s.watchDead.performHeld.findPorts.readmit.serveOwn

end Sys2Proof.Machine
end

