-- ==== Sys2Proof/Machine/Device.lean ====
section
/-!
DEFINITION. Power and throttling (R458 to R461), resets and bring-up (R462, R463), fencing by firmware (R406), attestation
(R437, R438), and the management interfaces (R464).
-/

namespace Sys2Proof.Machine

open Sys2Proof

/-! ## Throttling and the trip (R458 to R460) -/

/-- A die's share of the cap, in milliwatts (R458). -/
def State.share (s : State) : Nat := 250 * s.cap.toNat - 90000

def State.sensorsOf (s : State) (die : Nat) : Sensors :=
  (Map.find s.sensors die).getD { last := { power := 0, array := 0, hottest := 0 }, overSince := none, calmSince := none, hotSince := none }

/-- The level that a reading asks for at a die that is at level `l`: too much power asks for level 1, and for level 2 where it has
gone on for 100 µs at level 1, and holds a higher level that it has reached at 2. -/
def State.asks (s : State) (r : Reading) (l : Nat) (above : Option Nat) : Nat :=
  let power : Nat :=
    if r.power ≤ s.share then 0
    else if 2 ≤ l ∨ l = 1 ∧ above.any (fun k => decide (k + 225000 ≤ s.clk.toNat)) then 2
    else 1
  if 103000 < r.hottest then 5 else if 100000 < r.hottest then 4 else if 95000 < r.array then max 3 power else power

/-- A reading of a die's power controller: the level rises to the one that the conditions ask for. -/
def execThrottleUp (die : Nat) (reading : Reading) (s : State) : Host.Outcome State Fault Refusal :=
  if 4 ≤ die then .next s
  else
    let x := s.sensorsOf die
    let l := (Store.read s.throttle die).toNat
    let now := s.clk.toNat
    let l' := max l (s.asks reading l x.overSince)
    let above := if reading.power ≤ s.share ∨ l' ≠ 1 then none else some (if l = 1 then x.overSince.getD now else now)
    let calm := if l' ≤ s.asks reading l' above then none else some (if l' = l then x.calmSince.getD now else now)
    let hot := if 105000 < reading.hottest then some (x.hotSince.getD now) else none
    .next { s with
      throttle := Store.write s.throttle die (BitVec.ofNat 8 l')
      sensors := Map.set s.sensors die { last := reading, overSince := above, calmSince := calm, hotSince := hot } }

/-- A die moves down one level after 1 ms without a condition for its level; a further move waits as long again (DESIGN CHOICE,
log entry 85). -/
def execThrottleDown (die : Nat) (s : State) : Host.Outcome State Fault Refusal :=
  let x := s.sensorsOf die
  let l := (Store.read s.throttle die).toNat
  let calm : Bool := x.calmSince.any fun k => decide (k + 2250000 ≤ s.clk.toNat)
  if die < 4 ∧ l ≠ 0 ∧ calm ∧ s.asks x.last l x.overSince < l then
    .next { s with
      throttle := Store.write s.throttle die (BitVec.ofNat 8 (l - 1))
      sensors := Map.set s.sensors die { x with overSince := none, calmSince := some s.clk.toNat } }
  else .next s

/-- The trip (R460): every mapped queue is reset, every core is power-gated. -/
def State.tripNow (s : State) : State :=
  let mapped := (s.queues.filter fun q => q.2.mapped.isSome).map Prod.fst
  let s := mapped.foldl (fun s k => s.beginReset k) s
  { s with trip := true, gated := (List.range 192).foldl (fun m c => Store.write m c 2) s.gated }

/-- A sensor has stayed above 105 °C for 1 ms while its die is at level 5. -/
def State.overheated (s : State) (die : Nat) : Bool :=
  Store.read s.throttle die == 5 && (s.sensorsOf die).hotSince.any fun k => decide (k + 2250000 ≤ s.clk.toNat)

def execThermalTrip (s : State) : Host.Outcome State Fault Refusal :=
  .next (if (List.range 4).any s.overheated then s.tripNow else s)

/-- The coolant-fault input. -/
def execCoolantFault (s : State) : Host.Outcome State Fault Refusal := .next s.tripNow

/-! ## Resets and bring-up (R462, R463) -/

/-- A cold or warm reset: everything returns to its reset value but the fuses, the stored firmware image, what lies
outside the device, and the model's own counters. -/
def State.restart (s : State) : State :=
  { State.reset with
    agenda := s.agenda, nextId := s.nextId, free := s.free, sent := s.sent, minVersion := s.minVersion
    keyFuse := s.keyFuse, sigIndex := s.sigIndex, fwImage := s.fwImage, fwVersion := s.fwVersion
    mem := s.mem.filter fun b => regionOf b.1 == .host }

def execColdReset (s : State) : Host.Outcome State Fault Refusal := .next s.restart

def execWarmReset (s : State) : Host.Outcome State Fault Refusal := .next s.restart

/-- The management command RESET. -/
def execMgmtReset (s : State) : Host.Outcome State Fault Refusal := .next (s.reply .accepted).restart

/-- A bring-up phase ends (R463): phase 0 with the verification of the stored image (R435), phase 3 once a rank and a key
are given. -/
def execBringupPhaseComplete (ok : Bool) (s : State) : Host.Outcome State Fault Refusal :=
  let may : Bool :=
    ok && match s.phase with
      | 0 => s.signatureOk s.fwImage && decide (s.minVersion.toNat ≤ s.fwVersion.toNat)
      | 1 | 2 => true
      | 3 => s.ranked && s.key.isSome
      | _ => false
  if may then .next { s with phase := s.phase + 1 } else .next s

/-- An FLR (R462): every queue of the function is reset; the zero-fill follows the last of them. -/
def execFunctionLevelReset (f : Nat) (s : State) : Host.Outcome State Fault Refusal :=
  if 64 ≤ f then .next s
  else
    let mine := (s.queues.filter fun q => fnOf q.1 == f).map Prod.fst
    let s := s.modFn f fun p => { p with flr := true }
    .next ((mine.foldl (fun s k => s.beginReset k) s).finishFlr f)

/-- A PCIe configuration request (R463). -/
def execConfigurationRequest (f : Nat) (s : State) : Host.Outcome State Fault Refusal :=
  if 64 ≤ f then .next s
  else .next (s.reply (if s.visible then .configuration f else .retryStatus f))

/-! ## Fencing (R406) -/

/-- The commands that a stream unit was running when it was fenced end with POISON: each core's oldest. -/
def poisonHeads (cs : List SsuCmd) : List SsuCmd :=
  cs.map fun c =>
    if (cs.find? fun x => x.core == c.core).any fun x => x.id == c.id then
      { c with bad := true, ended := c.ended.map fun e => (e.1, e.2 ||| 0x40000000) }
    else c

/-- The runs that are active on a die: they have seeded there, and their queue is not drained or saved. -/
def State.activeOn (s : State) (die : Nat) : List Run :=
  ((s.runs.map Prod.snd).filter fun r => r.state == .active && r.seeded.contains die && !stResum (s.queue r.queue).status)

/-- An L2 slice is fenced while no run is active on its die; until then firmware applies the ladder, with REASON 3, to the
queues of the runs that are, and resumes them after the fence (R406, R416; DEDUCED, log entry 83). -/
def State.fenceSlice (s : State) (u : FenceUnit) (die : Nat) : State :=
  let rs := s.activeOn die
  if rs.isEmpty then
    (s.queues.filter fun q => stResum q.2.status && stReason q.2.status == 3).foldl (fun s q => s.resumeQueue q.1)
      { s with fenced := s.fenced ++ [u] }
  else (rs.map Run.queue).dedup.foldl (fun s k => s.startLadder k 3) s

/-- Firmware fences a unit (R406). The teams of a core are saved, and with a member of a cluster group its whole group (R414).
The status word of the NE has no POISON field (R130), so a command that runs there shows nothing. -/
def execUnitFence (u : FenceUnit) (s : State) : Host.Outcome State Fault Refusal :=
  if s.fenced.contains u then .next s
  else
    match u with
    | .engine cl => .next (s.fenceEngine cl)
    | .core c =>
      let groups := s.teams.filterMap fun t => if t.2.core == c && t.2.state == .resident then t.2.group else none
      let here (t : Team) : Bool := t.core == c || t.group.any groups.contains
      .next ((s.teams.filter fun t => here t.2).foldl (fun s t => s.beginSave t.1) { s with fenced := s.fenced ++ [u] })
    | .ssu cl => .next { s with fenced := s.fenced ++ [u], ssu := Map.update s.ssu cl poisonHeads }
    | .slice die _ => .next (s.fenceSlice u die)
    | .channel .. | .ne _ => .next { s with fenced := s.fenced ++ [u] }

/-! ## Attestation (R437, R438) -/

def execGetVersion (s : State) : Host.Outcome State Fault Refusal := .next (s.reply (.version 1 2))

def execGetCapabilities (s : State) : Host.Outcome State Fault Refusal := .next (s.reply .capabilities)

/-- SHA3-384 and XMSS-SHAKE256_20_256 (R437). -/
def execNegotiateAlgorithms (s : State) : Host.Outcome State Fault Refusal :=
  .next (s.reply (.algorithms .sha3_384 .xmssShake256_20_256))

def execGetDigests (s : State) : Host.Outcome State Fault Refusal := .next (s.reply (.digests (Config.digest Config.certificate)))

def execGetCertificate (s : State) : Host.Outcome State Fault Refusal := .next (s.reply (.certificate Config.certificate))

/-- CHALLENGE: the next signature index is committed before the signature leaves; with none left, an error. -/
def execChallenge (nonce : Nat) (s : State) : Host.Outcome State Fault Refusal :=
  if s.sigIndex < 2 ^ 20 then
    .next (({ s with sigIndex := s.sigIndex + 1 } : State).reply (.signed s.sigIndex nonce))
  else .next (s.reply .spdmError)

/-- GET_MEASUREMENTS: the boot ROM, the image's digest, its security version, the fence map and the fused configuration. -/
def execGetMeasurements (s : State) : Host.Outcome State Fault Refusal :=
  .next (s.reply (.measurements (Config.digest Config.romContent) (Config.digest s.fwImage.content) s.fwVersion.toNat s.fenced
    (s.minVersion.toNat, s.keyFuse, Config.fusedConfig)))

/-! ## Management (R461, R464) -/

/-- A PLDM request for a monitored quantity. -/
def execPldmMonitorRequest (w : PldmWhat) (s : State) : Host.Outcome State Fault Refusal :=
  match w with
  | .temperature die => .next (s.reply (.pldm w (s.sensorsOf die).last.hottest))
  | .diePower die => .next (s.reply (.pldm w (s.sensorsOf die).last.power))
  | .throttle die => .next (s.reply (.pldm w (Store.read s.throttle die).toNat))
  | .fences => .next (s.reply (.fenceMap s.fenced))
  | .errorCount array => .next (s.reply (.pldm w (Store.read s.corrected array).toNat))
  | .packagePower => .next (s.useFree.reply (.pldm w (Config.monitor s.free)))

/-- SET_CAP: as a write of PWRCAP. -/
def execSetCap (v : Word) (s : State) : Host.Outcome State Fault Refusal :=
  .next (({ s with cap := clampCap v } : State).reply .accepted)

end Sys2Proof.Machine
end

