-- ==== Sys2Proof/Machine/Special.lean ====
section
/-!
DEFINITION. The state instructions of majors 0x0A, 0x0B and 0x1A, and clkrd: reading and writing the special registers
(R137 to R139, R223 to R227, R395).
-/

namespace Sys2Proof.Machine

open Sys2Proof

/-- wsref (R63): the refresh window that clk opens or opens next, and the cycles until it closes or opens. -/
def wsrefWord (clk : Nat) : Word :=
  let j := clk % 72000 / 4500
  let r := clk % 4500
  if r < 1152 then BitVec.ofNat 32 (2 ^ 31 + 2 ^ 24 * j + (1152 - r))
  else BitVec.ofNat 32 (2 ^ 24 * ((j + 1) % 16) + (4500 - r))

/-- id.party (R137). -/
def idParty (t : Team) (p : Nat) : Word := BitVec.ofNat 32 (p + 16 * (t.parties.length - 1))

/-- What a read of lko returns (R299): the value at the last barrier or, before the next, one written since. -/
def Team.lkoRead (t : Team) (k : Nat) : Word := ((t.lko :: t.lkoNew)[k % (1 + t.lkoNew.length)]?).getD t.lko

/-- A special register by its number, as the issuing slot reads it (R137). -/
def State.special (s : State) (t : Team) (p : Nat) (q : Party) (sl : Bool) (n : Nat) : DWord :=
  match n with
  | 0 => (q.slot sl).mode.setWidth 64
  | 1 => (q.slot sl).fmt.setWidth 64
  | 2 => q.warn.setWidth 64
  | 3 => s.clk
  | 4 => s.tbase
  | 5 => q.tstart
  | 7 => (idParty t p).setWidth 64
  | 8 => t.teamNo.setWidth 64
  | 9 => BitVec.ofNat 64 (t.vcore % 4)
  | 10 => (pcoreWord t.core).setWidth 64
  | 11 => t.mig.setWidth 64
  | 12 => q.depth.setWidth 64
  | 13 => q.recs.setWidth 64
  | 14 => (wsrefWord s.clk.toNat).setWidth 64
  | 15 => (t.lkoRead (Config.lkoChoice s.free)).setWidth 64
  | _ => 0

/-- An access that has yet to OR its warn bits holds back a read of warn (R226). -/
def warnHold (q : Party) : Option Wait :=
  match q.accesses.head? with
  | some a => some (.scoreboard (if a.kind = .sld then 1 else 0) a.dest)
  | none => none

/-- sget (R223): a 64-bit register goes to the pair at SD. -/
def execSget (d : SReg) (n : BitVec 6) (s : State) : Host.Outcome State Fault Refusal :=
  runParty (.sget d n) s fun w s =>
    match Map.find s.teams w.tid with
    | none => .done s
    | some t =>
      match Map.find t.parties w.p with
      | none => .done s
      | some q =>
        let x := s.special t w.p q w.sl n.toNat
        match (if n = 2 then warnHold q else none) with
        | some h => .hold h
        | none =>
          .done ((if n = 15 ∧ t.lkoNew ≠ [] then s.useFree else s).modParty w.tid w.p fun q =>
            if 3 ≤ n.toNat ∧ n.toNat ≤ 5 then q.setPairS w.sl d.toNat x else q.setS w.sl d.toNat (x.setWidth 32))

/-- A write of a special register (R224): read-only registers and number 16 ignore it, reserved bits are ignored. -/
def Party.setSpecial (q : Party) (sl : Bool) (n : Nat) (x : DWord) : Party :=
  let v : Word := x.setWidth 32
  match n with
  | 0 => q.modSlot sl fun y => { y with mode := v &&& 0x37 }
  | 1 => q.modSlot sl fun y => { y with fmt := v &&& 0x3F }
  | 2 => { q with warn := v &&& 0xFFF }
  | 5 => { q with tstart := x }
  | _ => q

/-- sset (R224): tstart takes the pair at SA. -/
def execSset (a : SReg) (n : BitVec 6) (s : State) : Host.Outcome State Fault Refusal :=
  runRegs (.sset a n) s fun sl q =>
    q.setSpecial sl n.toNat (if n = 5 then q.pairS sl a.toNat else (q.getS sl a.toNat).setWidth 64)

/-- ckwarn (R225): reads warn and clears the selected bits in one step. -/
def execCkwarn (d a : SReg) (s : State) : Host.Outcome State Fault Refusal :=
  runParty (.ckwarn d a) s fun w s =>
    match (s.party? w.tid w.p).bind warnHold with
    | some h => .hold h
    | none =>
      .done (s.modParty w.tid w.p fun q =>
        ({ q with warn := q.warn &&& ~~~(q.getS w.sl a.toNat &&& 0xFFF) }).setS w.sl d.toNat q.warn)

/-- setfmt writes the low six bits of the slot's fmt (R227). -/
def execSetfmt (v : BitVec 6) (s : State) : Host.Outcome State Fault Refusal :=
  runRegs (.setfmt v) s fun sl q => q.modSlot sl fun y => { y with fmt := v.setWidth 32 }

/-- setmode writes the low six bits of the slot's mode (R227). -/
def execSetmode (v : BitVec 6) (s : State) : Host.Outcome State Fault Refusal :=
  runRegs (.setmode v) s fun sl q => q.modSlot sl fun y => { y with mode := v.setWidth 32 &&& 0x37 }

/-- The vector sget of id.lane (R223). -/
def execSgetIdLane (d : VReg) (s : State) : Host.Outcome State Fault Refusal :=
  runRegs (.sgetIdLane d) s fun sl q => q.setV d.toNat (q.active sl) fun l => BitVec.ofNat 32 l

/-- clkrd reads clk and tbase at one instant (R395). -/
def execClkrd (d : SReg) (s : State) : Host.Outcome State Fault Refusal :=
  runParty (.clkrd d) s fun w s =>
    .done (s.modParty w.tid w.p fun q => (q.setPairS w.sl d.toNat s.clk).setPairS w.sl (d.toNat + 2) s.tbase)

end Sys2Proof.Machine
end

