-- ==== Sys2Proof/Machine/Dispatch.lean ====
section
/-!
DEFINITION. The meaning of every step: one arm for each constructor, one direct call each.
-/

namespace Sys2Proof.Machine

open Sys2Proof

def exec (i : Instr) (s : State) : Host.Outcome State Fault Refusal :=
  match i with
  | .sadd d a b => Sys2Proof.Machine.execSadd d a b s
  | .ssub d a b => Sys2Proof.Machine.execSsub d a b s
  | .smul d a b => Sys2Proof.Machine.execSmul d a b s
  | .smulhI32 d a b => Sys2Proof.Machine.execSmulhI32 d a b s
  | .smulhN32 d a b => Sys2Proof.Machine.execSmulhN32 d a b s
  | .sand d a b => Sys2Proof.Machine.execSand d a b s
  | .sor d a b => Sys2Proof.Machine.execSor d a b s
  | .sxor d a b => Sys2Proof.Machine.execSxor d a b s
  | .sshl d a b => Sys2Proof.Machine.execSshl d a b s
  | .sshr d a b => Sys2Proof.Machine.execSshr d a b s
  | .ssra d a b => Sys2Proof.Machine.execSsra d a b s
  | .sminI32 d a b => Sys2Proof.Machine.execSminI32 d a b s
  | .sminN32 d a b => Sys2Proof.Machine.execSminN32 d a b s
  | .smaxI32 d a b => Sys2Proof.Machine.execSmaxI32 d a b s
  | .smaxN32 d a b => Sys2Proof.Machine.execSmaxN32 d a b s
  | .smov d a => Sys2Proof.Machine.execSmov d a s
  | .spopc d a => Sys2Proof.Machine.execSpopc d a s
  | .sclz d a => Sys2Proof.Machine.execSclz d a s
  | .sffs d a => Sys2Proof.Machine.execSffs d a s
  | .scmp c d a b => Sys2Proof.Machine.execScmp c d a b s
  | .ssel c d a b => Sys2Proof.Machine.execSsel c d a b s
  | .saddImm d a x => Sys2Proof.Machine.execSaddImm d a x s
  | .sandImm d a x => Sys2Proof.Machine.execSandImm d a x s
  | .sorImm d a x => Sys2Proof.Machine.execSorImm d a x s
  | .sshlImm d a n => Sys2Proof.Machine.execSshlImm d a n s
  | .sshrImm d a n => Sys2Proof.Machine.execSshrImm d a n s
  | .ssraImm d a n => Sys2Proof.Machine.execSsraImm d a n s
  | .sbfx d a sign lsb w => Sys2Proof.Machine.execSbfx d a sign lsb w s
  | .sbfi d a lsb w => Sys2Proof.Machine.execSbfi d a lsb w s
  | .sli d x => Sys2Proof.Machine.execSli d x s
  | .slui d x => Sys2Proof.Machine.execSlui d x s
  | .sget d n => Sys2Proof.Machine.execSget d n s
  | .sset a n => Sys2Proof.Machine.execSset a n s
  | .ckwarn d a => Sys2Proof.Machine.execCkwarn d a s
  | .setfmt v => Sys2Proof.Machine.execSetfmt v s
  | .setmode v => Sys2Proof.Machine.execSetmode v s
  | .br o => Sys2Proof.Machine.execBr o s
  | .call o => Sys2Proof.Machine.execCall o s
  | .bc t a o => Sys2Proof.Machine.execBc t a o s
  | .bdiv a o => Sys2Proof.Machine.execBdiv a o s
  | .nop => Sys2Proof.Machine.execNop s
  | .join => Sys2Proof.Machine.execJoin s
  | .ret => Sys2Proof.Machine.execRet s
  | .jmpi a => Sys2Proof.Machine.execJmpi a s
  | .exit => Sys2Proof.Machine.execExit s
  | .yield => Sys2Proof.Machine.execYield s
  | .vadd t d a b => Sys2Proof.Machine.execVadd t d a b s
  | .vsub t d a b => Sys2Proof.Machine.execVsub t d a b s
  | .vmul t d a b => Sys2Proof.Machine.execVmul t d a b s
  | .vmulhSigned t d a b => Sys2Proof.Machine.execVmulhSigned t d a b s
  | .vmulhUnsigned t d a b => Sys2Proof.Machine.execVmulhUnsigned t d a b s
  | .vmac t d a b => Sys2Proof.Machine.execVmac t d a b s
  | .vand t d a b => Sys2Proof.Machine.execVand t d a b s
  | .vor t d a b => Sys2Proof.Machine.execVor t d a b s
  | .vxor t d a b => Sys2Proof.Machine.execVxor t d a b s
  | .vnot t d a => Sys2Proof.Machine.execVnot t d a s
  | .vshl t d a b => Sys2Proof.Machine.execVshl t d a b s
  | .vshr t d a b => Sys2Proof.Machine.execVshr t d a b s
  | .vsra t d a b => Sys2Proof.Machine.execVsra t d a b s
  | .vminSigned t d a b => Sys2Proof.Machine.execVminSigned t d a b s
  | .vminUnsigned t d a b => Sys2Proof.Machine.execVminUnsigned t d a b s
  | .vmaxSigned t d a b => Sys2Proof.Machine.execVmaxSigned t d a b s
  | .vmaxUnsigned t d a b => Sys2Proof.Machine.execVmaxUnsigned t d a b s
  | .vabs t d a => Sys2Proof.Machine.execVabs t d a s
  | .vneg t d a => Sys2Proof.Machine.execVneg t d a s
  | .vpopc t d a => Sys2Proof.Machine.execVpopc t d a s
  | .vclz t d a => Sys2Proof.Machine.execVclz t d a s
  | .vmov t d a => Sys2Proof.Machine.execVmov t d a s
  | .vsel t d a b => Sys2Proof.Machine.execVsel t d a b s
  | .vcmp wide c z a b => Sys2Proof.Machine.execVcmp wide c z a b s
  | .vaddImm d a x => Sys2Proof.Machine.execVaddImm d a x s
  | .vli d x => Sys2Proof.Machine.execVli d x s
  | .vbfx d a sign lsb w => Sys2Proof.Machine.execVbfx d a sign lsb w s
  | .vbfi d a lsb w => Sys2Proof.Machine.execVbfi d a lsb w s
  | .vshlImm d a n => Sys2Proof.Machine.execVshlImm d a n s
  | .vshrImm d a n => Sys2Proof.Machine.execVshrImm d a n s
  | .vsraImm d a n => Sys2Proof.Machine.execVsraImm d a n s
  | .vperm d a b => Sys2Proof.Machine.execVperm d a b s
  | .vbcast d a n => Sys2Proof.Machine.execVbcast d a n s
  | .vxshf d a m => Sys2Proof.Machine.execVxshf d a m s
  | .vred op d a => Sys2Proof.Machine.execVred op d a s
  | .vscan op excl d a => Sys2Proof.Machine.execVscan op excl d a s
  | .vballot z a => Sys2Proof.Machine.execVballot z a s
  | .vvote k z a => Sys2Proof.Machine.execVvote k z a s
  | .sgetIdLane d => Sys2Proof.Machine.execSgetIdLane d s
  | .vfadd t d a b => Sys2Proof.Machine.execVfadd t d a b s
  | .vfsub t d a b => Sys2Proof.Machine.execVfsub t d a b s
  | .vfmul t d a b => Sys2Proof.Machine.execVfmul t d a b s
  | .vfma t d a b => Sys2Proof.Machine.execVfma t d a b s
  | .vfms t d a b => Sys2Proof.Machine.execVfms t d a b s
  | .vfmin t d a b => Sys2Proof.Machine.execVfmin t d a b s
  | .vfmax t d a b => Sys2Proof.Machine.execVfmax t d a b s
  | .vfexp t d a => Sys2Proof.Machine.execVfexp t d a s
  | .vfscl t d a b => Sys2Proof.Machine.execVfscl t d a b s
  | .vfclass t d a => Sys2Proof.Machine.execVfclass t d a s
  | .vf2sum wide d a b => Sys2Proof.Machine.execVf2sum wide d a b s
  | .vfrnd t d a seed => Sys2Proof.Machine.execVfrnd t d a seed s
  | .vrcp t d a => Sys2Proof.Machine.execVrcp t d a s
  | .vrsq t d a => Sys2Proof.Machine.execVrsq t d a s
  | .vsqrt t d a => Sys2Proof.Machine.execVsqrt t d a s
  | .vexp2 t d a => Sys2Proof.Machine.execVexp2 t d a s
  | .vlog2 t d a => Sys2Proof.Machine.execVlog2 t d a s
  | .vsin t d a => Sys2Proof.Machine.execVsin t d a s
  | .vcos t d a => Sys2Proof.Machine.execVcos t d a s
  | .vtanh t d a => Sys2Proof.Machine.execVtanh t d a s
  | .vosmx d a b => Sys2Proof.Machine.execVosmx d a b s
  | .vosms d a => Sys2Proof.Machine.execVosms d a s
  | .vfcmp t c z a b => Sys2Proof.Machine.execVfcmp t c z a b s
  | .vfcvt d a df sf sat => Sys2Proof.Machine.execVfcvt d a df sf sat s
  | .vld d a b o pol z => Sys2Proof.Machine.execVld d a b o pol z s
  | .vst d a b o pol z => Sys2Proof.Machine.execVst d a b o pol z s
  | .vldg d a b o pol z => Sys2Proof.Machine.execVldg d a b o pol z s
  | .vsts d a b o pol z => Sys2Proof.Machine.execVsts d a b o pol z s
  | .lld d a b z => Sys2Proof.Machine.execLld d a b z s
  | .lst d a b z => Sys2Proof.Machine.execLst d a b z s
  | .ald wide d a t => Sys2Proof.Machine.execAld wide d a t s
  | .ast wide d a t => Sys2Proof.Machine.execAst wide d a t s
  | .pref a b pol => Sys2Proof.Machine.execPref a b pol s
  | .fence str scope => Sys2Proof.Machine.execFence str scope s
  | .cclean a b scope => Sys2Proof.Machine.execCclean a b scope s
  | .cinval a b scope => Sys2Proof.Machine.execCinval a b scope s
  | .cpy d ch hd hs scope => Sys2Proof.Machine.execCpy d ch hd hs scope s
  | .cpwpRead d ch => Sys2Proof.Machine.execCpwpRead d ch s
  | .cpwpRecv d m => Sys2Proof.Machine.execCpwpRecv d m s
  | .cpcan ch => Sys2Proof.Machine.execCpcan ch s
  | .qbind q h scope => Sys2Proof.Machine.execQbind q h scope s
  | .qclose q => Sys2Proof.Machine.execQclose q s
  | .cvopen d a view => Sys2Proof.Machine.execCvopen d a view s
  | .cvclose d t => Sys2Proof.Machine.execCvclose d t s
  | .cvstat d t => Sys2Proof.Machine.execCvstat d t s
  | .ssint d a b f => Sys2Proof.Machine.execSsint d a b f s
  | .ssmerge d a b int keepz c => Sys2Proof.Machine.execSsmerge d a b int keepz c s
  | .ssscan d a b => Sys2Proof.Machine.execSsscan d a b s
  | .spx d a => Sys2Proof.Machine.execSpx d a s
  | .nbbin d a => Sys2Proof.Machine.execNbbin d a s
  | .nbpairs d a port => Sys2Proof.Machine.execNbpairs d a port s
  | .nbstat d => Sys2Proof.Machine.execNbstat d s
  | .emit v e j ns => Sys2Proof.Machine.execEmit v e j ns s
  | .emitr v e r ns => Sys2Proof.Machine.execEmitr v e r ns s
  | .rget d w x => Sys2Proof.Machine.execRget d w x s
  | .rdone d => Sys2Proof.Machine.execRdone d s
  | .futnew d c => Sys2Proof.Machine.execFutnew d c s
  | .futreg j e v => Sys2Proof.Machine.execFutreg j e v s
  | .futres j n f => Sys2Proof.Machine.execFutres j n f s
  | .futst d j => Sys2Proof.Machine.execFutst d j s
  | .dget src h => Sys2Proof.Machine.execDget src h s
  | .barArrive z b => Sys2Proof.Machine.execBarArrive z b s
  | .barWait z b => Sys2Proof.Machine.execBarWait z b s
  | .barSync z b => Sys2Proof.Machine.execBarSync z b s
  | .kli k v => Sys2Proof.Machine.execKli k v s
  | .kadd k a v => Sys2Proof.Machine.execKadd k a v s
  | .kbr c a o => Sys2Proof.Machine.execKbr c a o s
  | .mld m h k ko => Sys2Proof.Machine.execMld m h k ko s
  | .mrel m => Sys2Proof.Machine.execMrel m s
  | .mzero c => Sys2Proof.Machine.execMzero c s
  | .mma c m h ru k ko zs => Sys2Proof.Machine.execMma c m h ru k ko zs s
  | .mmt c m h ru k ko zs => Sys2Proof.Machine.execMmt c m h ru k ko zs s
  | .mst c h k ko => Sys2Proof.Machine.execMst c h k ko s
  | .mscl c h => Sys2Proof.Machine.execMscl c h s
  | .mchk k => Sys2Proof.Machine.execMchk k s
  | .mbar b => Sys2Proof.Machine.execMbar b s
  | .lkoPred m h => Sys2Proof.Machine.execLkoPred m h s
  | .lkoFetch h => Sys2Proof.Machine.execLkoFetch h s
  | .lkoChk c m h => Sys2Proof.Machine.execLkoChk c m h s
  | .trap code => Sys2Proof.Machine.execTrap code s
  | .rfe d a b => Sys2Proof.Machine.execRfe d a b s
  | .tlbrng d a b => Sys2Proof.Machine.execTlbrng d a b s
  | .wsld d a b => Sys2Proof.Machine.execWsld d a b s
  | .hcall d a b => Sys2Proof.Machine.execHcall d a b s
  | .clkrd d => Sys2Proof.Machine.execClkrd d s
  | .vliLit d w => Sys2Proof.Machine.execVliLit d w s
  | .vfcvtSr d a df sf sat seed => Sys2Proof.Machine.execVfcvtSr d a df sf sat seed s
  | .vldgPart d a b o pol z m => Sys2Proof.Machine.execVldgPart d a b o pol z m s
  | .sld d a b z o pol => Sys2Proof.Machine.execSld d a b z o pol s
  | .sst d a b z o pol => Sys2Proof.Machine.execSst d a b z o pol s
  | .vatom op ty o d a b => Sys2Proof.Machine.execVatom op ty o d a b s
  | .vredm op ty o d a b => Sys2Proof.Machine.execVredm op ty o d a b s
  | .lredm op ty o d a b => Sys2Proof.Machine.execLredm op ty o d a b s
  | .satom op ty o d a b => Sys2Proof.Machine.execSatom op ty o d a b s
  | .cpg d ch hd hs scope v => Sys2Proof.Machine.execCpg d ch hd hs scope v s
  | .cps d ch hd hs scope v => Sys2Proof.Machine.execCps d ch hd hs scope v s
  | .cpm d ch hs scope m => Sys2Proof.Machine.execCpm d ch hs scope m s
  | .cpwpWait d ch k => Sys2Proof.Machine.execCpwpWait d ch k s
  | .cpwpAck m k => Sys2Proof.Machine.execCpwpAck m k s
  | .cvst d a b o pol z t => Sys2Proof.Machine.execCvst d a b o pol z t s
  | .cvld d a b o pol z t => Sys2Proof.Machine.execCvld d a b o pol z t s
  | .kliLiteral k w => Sys2Proof.Machine.execKliLiteral k w s
  | .clauseIssue w => Sys2Proof.Machine.execClauseIssue w s
  | .starvationPromote tid p => Sys2Proof.Machine.execStarvationPromote tid p s
  | .yieldTimeout tid p => Sys2Proof.Machine.execYieldTimeout tid p s
  | .runAhead tid p => Sys2Proof.Machine.execRunAhead tid p s
  | .memoryReadResponse tid p id => Sys2Proof.Machine.execMemoryReadResponse tid p id s
  | .wcbDrainTimeout core line => Sys2Proof.Machine.execWcbDrainTimeout core line s
  | .walkComplete id => Sys2Proof.Machine.execWalkComplete id s
  | .tlbrngDone id => Sys2Proof.Machine.execTlbrngDone id s
  | .migrationBounce id => Sys2Proof.Machine.execMigrationBounce id s
  | .migrationLineCopy die frame line => Sys2Proof.Machine.execMigrationLineCopy die frame line s
  | .backgroundScrub pa uncorrectable => Sys2Proof.Machine.execBackgroundScrub pa uncorrectable s
  | .refreshWindowOpen die => Sys2Proof.Machine.execRefreshWindowOpen die s
  | .refreshWindowClose die => Sys2Proof.Machine.execRefreshWindowClose die s
  | .copyDeliver tid ch n => Sys2Proof.Machine.execCopyDeliver tid ch n s
  | .copyComplete tid ch => Sys2Proof.Machine.execCopyComplete tid ch s
  | .ssuComplete cluster core => Sys2Proof.Machine.execSsuComplete cluster core s
  | .nePairGroup cluster => Sys2Proof.Machine.execNePairGroup cluster s
  | .neComplete cluster => Sys2Proof.Machine.execNeComplete cluster s
  | .storeStreamDrained tid p port => Sys2Proof.Machine.execStoreStreamDrained tid p port s
  | .passGrant cluster => Sys2Proof.Machine.execPassGrant cluster s
  | .passRetire tid id mismatch mismatch2 => Sys2Proof.Machine.execPassRetire tid id mismatch mismatch2 s
  | .matrixOpRetire tid id => Sys2Proof.Machine.execMatrixOpRetire tid id s
  | .barrierPhaseComplete b => Sys2Proof.Machine.execBarrierPhaseComplete b s
  | .runBarrierMessage run part => Sys2Proof.Machine.execRunBarrierMessage run part s
  | .stalledEmissionAccept id => Sys2Proof.Machine.execStalledEmissionAccept id s
  | .spillRefill run die node => Sys2Proof.Machine.execSpillRefill run die node s
  | .gatherWindowExpiry run die node => Sys2Proof.Machine.execGatherWindowExpiry run die node s
  | .teamPlacement die cores nos => Sys2Proof.Machine.execTeamPlacement die cores nos s
  | .graphDeadlockDetect run die nodes => Sys2Proof.Machine.execGraphDeadlockDetect run die nodes s
  | .runSeed run die => Sys2Proof.Machine.execRunSeed run die s
  | .teamRetire tid => Sys2Proof.Machine.execTeamRetire tid s
  | .runComplete run => Sys2Proof.Machine.execRunComplete run s
  | .faultStop tid => Sys2Proof.Machine.execFaultStop tid s
  | .hangReport tid p => Sys2Proof.Machine.execHangReport tid p s
  | .clockGate core => Sys2Proof.Machine.execClockGate core s
  | .powerGate core => Sys2Proof.Machine.execPowerGate core s
  | .coreWake core => Sys2Proof.Machine.execCoreWake core s
  | .ladderDrainTimeout q => Sys2Proof.Machine.execLadderDrainTimeout q s
  | .ladderSaveTimeout q => Sys2Proof.Machine.execLadderSaveTimeout q s
  | .teamSaveComplete tid => Sys2Proof.Machine.execTeamSaveComplete tid s
  | .teamResume tid cores => Sys2Proof.Machine.execTeamResume tid cores s
  | .timeSliceExpiry q => Sys2Proof.Machine.execTimeSliceExpiry q s
  | .queueMap q slot order => Sys2Proof.Machine.execQueueMap q slot order s
  | .queueUnmap q => Sys2Proof.Machine.execQueueUnmap q s
  | .parkedWaitPoll => Sys2Proof.Machine.execParkedWaitPoll s
  | .wsloadUnsealStart q => Sys2Proof.Machine.execWsloadUnsealStart q s
  | .wsloadComplete q idx => Sys2Proof.Machine.execWsloadComplete q idx s
  | .reductionEntryApply die sector => Sys2Proof.Machine.execReductionEntryApply die sector s
  | .convoyCommit slot => Sys2Proof.Machine.execConvoyCommit slot s
  | .cvcloseDone tid p => Sys2Proof.Machine.execCvcloseDone tid p s
  | .remoteRequest r => Sys2Proof.Machine.execRemoteRequest r s
  | .remoteResponse id r => Sys2Proof.Machine.execRemoteResponse id r s
  | .fabricRetryBackoff id => Sys2Proof.Machine.execFabricRetryBackoff id s
  | .fabricTimeout id => Sys2Proof.Machine.execFabricTimeout id s
  | .atomicRecordExpiry src agent seqno => Sys2Proof.Machine.execAtomicRecordExpiry src agent seqno s
  | .dlFlitReceive port authentic => Sys2Proof.Machine.execDlFlitReceive port authentic s
  | .linkTraining port offer => Sys2Proof.Machine.execLinkTraining port offer s
  | .oldKeyExpiry => Sys2Proof.Machine.execOldKeyExpiry s
  | .ptpMessage offset => Sys2Proof.Machine.execPtpMessage offset s
  | .ppsInput offset => Sys2Proof.Machine.execPpsInput offset s
  | .tbaseLock => Sys2Proof.Machine.execTbaseLock s
  | .holdoverEntry => Sys2Proof.Machine.execHoldoverEntry s
  | .throttleUp die reading => Sys2Proof.Machine.execThrottleUp die reading s
  | .throttleDown die => Sys2Proof.Machine.execThrottleDown die s
  | .thermalTrip => Sys2Proof.Machine.execThermalTrip s
  | .coolantFault => Sys2Proof.Machine.execCoolantFault s
  | .coldReset => Sys2Proof.Machine.execColdReset s
  | .warmReset => Sys2Proof.Machine.execWarmReset s
  | .bringupPhaseComplete ok => Sys2Proof.Machine.execBringupPhaseComplete ok s
  | .functionLevelReset f => Sys2Proof.Machine.execFunctionLevelReset f s
  | .unitFence u => Sys2Proof.Machine.execUnitFence u s
  | .doorbell f q v => Sys2Proof.Machine.execDoorbell f q v s
  | .queueEnable f q => Sys2Proof.Machine.execQueueEnable f q s
  | .queueDisable f q => Sys2Proof.Machine.execQueueDisable f q s
  | .queueCtlReset f q => Sys2Proof.Machine.execQueueCtlReset f q s
  | .queueCtlPreempt f q => Sys2Proof.Machine.execQueueCtlPreempt f q s
  | .queueCtlResume f q => Sys2Proof.Machine.execQueueCtlResume f q s
  | .queueInvalidate f q => Sys2Proof.Machine.execQueueInvalidate f q s
  | .sigdbWrite f va => Sys2Proof.Machine.execSigdbWrite f va s
  | .flogdropClear f => Sys2Proof.Machine.execFlogdropClear f s
  | .pwrcapWrite f v => Sys2Proof.Machine.execPwrcapWrite f v s
  | .mailboxGo f => Sys2Proof.Machine.execMailboxGo f s
  | .mailboxVerifyDone image version readOk => Sys2Proof.Machine.execMailboxVerifyDone image version readOk s
  | .registerWrite f r v => Sys2Proof.Machine.execRegisterWrite f r v s
  | .packetLaunch q => Sys2Proof.Machine.execPacketLaunch q s
  | .packetWait q => Sys2Proof.Machine.execPacketWait q s
  | .packetSignal q => Sys2Proof.Machine.execPacketSignal q s
  | .packetWsload q => Sys2Proof.Machine.execPacketWsload q s
  | .packetBarrier q => Sys2Proof.Machine.execPacketBarrier q s
  | .packetPreempt q => Sys2Proof.Machine.execPacketPreempt q s
  | .packetReset q => Sys2Proof.Machine.execPacketReset q s
  | .getVersion => Sys2Proof.Machine.execGetVersion s
  | .getCapabilities => Sys2Proof.Machine.execGetCapabilities s
  | .negotiateAlgorithms => Sys2Proof.Machine.execNegotiateAlgorithms s
  | .getDigests => Sys2Proof.Machine.execGetDigests s
  | .getCertificate => Sys2Proof.Machine.execGetCertificate s
  | .challenge nonce => Sys2Proof.Machine.execChallenge nonce s
  | .getMeasurements => Sys2Proof.Machine.execGetMeasurements s
  | .pldmMonitorRequest w => Sys2Proof.Machine.execPldmMonitorRequest w s
  | .setRank r => Sys2Proof.Machine.execSetRank r s
  | .setKey wrapped unwraps => Sys2Proof.Machine.execSetKey wrapped unwraps s
  | .keySwitch => Sys2Proof.Machine.execKeySwitch s
  | .zeroise => Sys2Proof.Machine.execZeroise s
  | .setFto ns => Sys2Proof.Machine.execSetFto ns s
  | .setCap v => Sys2Proof.Machine.execSetCap v s
  | .mgmtReset => Sys2Proof.Machine.execMgmtReset s
  | .migrationTableEntry die oldFrame size newFrame rank => Sys2Proof.Machine.execMigrationTableEntry die oldFrame size newFrame rank s
  | .migrationEntryRemoval die oldFrame => Sys2Proof.Machine.execMigrationEntryRemoval die oldFrame s
  | .wsldComplete id => Sys2Proof.Machine.execWsldComplete id s
  | .queueResetComplete q => Sys2Proof.Machine.execQueueResetComplete q s
  | .portGoesDown port => Sys2Proof.Machine.execPortGoesDown port s
  | .configurationRequest f => Sys2Proof.Machine.execConfigurationRequest f s

end Sys2Proof.Machine
end

