-- ==== Sys2Proof/Machine/Step.lean ====
section
/-!
DEFINITION. One step of the device. The next turn of the agenda happens, after the time that passes before it; with no turn
left, one cycle passes and the issuer named by `cur` issues.
-/

namespace Sys2Proof.Machine

open Sys2Proof

/-- One issue of an issuer. -/
def issue (w : Who) (s : State) : Host.Outcome State Fault Refusal := issueBy exec w s

/-- An event; one whose reads must wait for a walker or a closed bank does not happen now (R35, R62). -/
def event (e : Instr) (s : State) : Host.Outcome State Fault Refusal :=
  match exec e s with
  | .next s' => .next (if s'.stuck then s.undo none noOrigin s' else s')
  | .fault f => .fault f
  | .refused r => .refused r

/-- What a turn does. A clause issues with its first instruction (R157): the event of its issue is an issue at its boundary. -/
def act (a : Act) (s : State) : Host.Outcome State Fault Refusal :=
  match a with
  | .event (.clauseIssue w) => if s.entered w then .next s else s.issueTurn issue w
  | .event e => if isEvent e then event e s else .refused .notAnEvent
  | .issue w => s.issueTurn issue w
  | .track core t => s.trackCycle issue core t
  | .ahead tid p => .next (s.runAhead issue exec tid p)
  | .wake tid p => .next (s.wake issue tid p)
  | .rouse core => .next (s.rouse issue core)

/-- One step. -/
def step (s : State) : Host.Outcome State Fault Refusal :=
  match s.agenda with
  | t :: rest => act t.act (({ s with agenda := rest } : State).upkeep.pass t.dclk t.dtb)
  | [] =>
    match s.cur with
    | none => .next s.upkeep.cycle
    | some w => s.upkeep.cycle.issueTurn issue w

/-! ## An instruction placed for the next step -/

/-- The node whose team issues a placed instruction: one party and a sequencer, with every resource of a core. -/
def placedNode : Node :=
  { entry := 0, mxEntry := 0, parties := 1, vregs := 128, ls := 120, tiles := 12, chans := 8, rmode := 0, rpp := 0, maxDepth := 10,
    prio := 0, fatal := false, entryNode := true, window := 0, quota := 1, edge0 := 0, nout := 0, rwin := 0, seqbar := 0xFFFF, group := 0,
    rslots := 0, rsize := 0, rbase := 0, bind0 := 0, nbind := 0, classes := 0 }

/-- Its image: the text is one page at virtual address 65,536. -/
def placedImage : Image :=
  { nodes := [placedNode], edges := [], binds := [], faultNode := none, spill := 0, textVa := 65536, textSize := 4096,
    dataVa := 69632, timetable := [], hasTimetable := false }

/-- Its run, of function 0 and under a tag of its own. -/
def placedRun : Run :=
  { state := .active, queue := 0, packet := 0, fn := 0, tag := 0xFFFE, privileged := false, ident := 0, image := placedImage,
    members := [], me := { rank := 0, dies := 1, nseed := 0, seeds := 0, report := 0 }, start := 0, result := 0, doneSig := 0,
    doneVal := 0, seeds := [], teamNos := [0], seeded := [0], queues := [], reports := [], gathered := [], barriers := [],
    remoteArrived := [], draining := false }

/-- The clause that the instruction stands in: it starts at offset 4 and has room for four words. -/
def placedClause (nbits w : Nat) : Clause :=
  { addr := 0, stop := 20, cls := match decodeTableWord nbits w with | some i => i.cls | none => 0 }

/-- Stores an instruction where the next step fetches, with a team of its own that stands before it (log entry 2). -/
def State.withFetchWord (s : State) (nbits w : Nat) : State :=
  let c := placedClause nbits w
  let tid := s.nextId
  let run := s.nextId + 1
  let x : QRec :=
    { words := [0, 0xFFFF0000, 0xFFFFFFFF] ++ List.replicate 13 0, spilled := false, overflowed := false, since := 0, origin := none, fault := false }
  let g : Gathered := { node := 0, die := 0, recs := [x], stamp := s.tbase, origin := none }
  let t := s.launchTeam run placedRun placedNode g 0 0 none 0 g.recs
  let stand (q : Party) : Party := { q with
    live := BitVec.allOnes 96, slot0 := { q.slot0 with pc := 4, clause := some c, mask := BitVec.allOnes 96 } }
  let t := { t with
    parties := Map.mapVals t.parties fun _ q => stand q
    seq := t.seq.map fun q => { q with pc := 4, clause := some c } }
  { s with
    agenda := []
    cur := some (if c.cls = 4 then .seq tid else .party tid 0 false)
    nextId := s.nextId + 2
    mem := writeBytes s.mem (withAddr 65540 (toBytes 16 (w % 2 ^ nbits)))
    tlbCore := Map.set s.tlbCore 0 ({ tag := 0xFFFE, base := 65536, size := 65536, leaf := 0x10033 } :: s.coreTlb 0)
    gated := Store.write s.gated 0 0
    teams := Map.set s.teams tid t
    runs := Map.set s.runs run placedRun }

end Sys2Proof.Machine
end

