-- ==== Sys2Proof/Safety.lean ====
section
/-!
DEFINITION. The terms in which claims speak of runs: a step that completes, the canonical form of memory, the invariant that
every step keeps, what an issuer must find for its instruction to execute, and what its instruction then does.
-/

namespace Sys2Proof.Machine

open Sys2Proof

/-- The canonical form of memory: addresses strictly rising, and no listed byte that is zero. -/
def Memory.wf (m : Store 8) : Bool := Store.wf m

/-- A step completes: it answers a next state, and neither stops nor is refused. -/
def Completes (o : Host.Outcome State Fault Refusal) : Prop := ∃ t, o = .next t

/-- The invariant of the device: memory is in its canonical form, the power cap lies in its range (R461), no die is above
throttle level 5 (R458), and bring-up is at one of its phases (R463). -/
def State.inv (s : State) : Bool :=
  Memory.wf s.mem && decide (1800 ≤ s.cap.toNat ∧ s.cap.toNat ≤ 3600) && decide (s.phase ≤ 4) &&
    s.throttle.all fun x => decide (x.2.toNat ≤ 5)

/-! ## Instructions of a party -/

/-- What an instruction of a party finds when it executes: `cur` names the party's slot, its team runs, the slot holds a path
that has not begun to wait, the checks at issue pass, and the pops of bound load ports leave the state `s'`, in which nothing
had to wait for a walker or a closed bank. -/
structure Issues (i : Instr) (s : State) (w : Issuer) (t : Team) (q : Party) (s' : State) : Prop where
  issuer : s.issuer = some (w, t, q)
  running : t.running = true
  live : (q.slot w.sl).live = true
  fresh : (q.slot w.sl).wait.begun = false
  gate : s.gate i t q w.sl = .go
  pops : s.popAll w.tid w.p w.sl [] (poppable i q w.sl) = (s', none)
  calm : s'.stuck = false

/-- The same for an instruction whose sources name no bound load port: nothing is popped. -/
structure IssuesPlain (i : Instr) (s : State) (w : Issuer) (t : Team) (q : Party) : Prop where
  issuer : s.issuer = some (w, t, q)
  running : t.running = true
  live : (q.slot w.sl).live = true
  fresh : (q.slot w.sl).wait.begun = false
  gate : s.gate i t q w.sl = .go
  unported : ∀ n ∈ (operands i).reads, q.loadPort n = none
  calm : s.stuck = false

/-- An instruction that waits with part of it done is issued again. -/
structure Resumes (s : State) (w : Issuer) (t : Team) (q : Party) : Prop where
  issuer : s.issuer = some (w, t, q)
  running : t.running = true
  live : (q.slot w.sl).live = true
  begun : (q.slot w.sl).wait.begun = true
  calm : s.stuck = false

/-- An instruction of a party executes in `s`, on the team `t` and the party `q`: it issues in `s0`, and `s` is what the pops of
bound load ports leave; or it was waiting with part of it done, and is issued again. -/
structure Executes (i : Instr) (s0 : State) (w : Issuer) (s : State) (t : Team) (q : Party) : Prop where
  start : (∃ t0 q0, Issues i s0 w t0 q0 s) ∨ (s = s0 ∧ Resumes s0 w t q)
  site : s.site w = some (t, q)

/-- The state in which an instruction has had its effect, and its slot has advanced past its words. -/
def State.completed (s : State) (i : Instr) (w : Issuer) : State := s.modParty w.tid w.p fun q => q.advance w.sl i.size

/-- An instruction of the slot names a bound load port among the vector sources it pops: it takes groups from the stream. -/
def pops (i : Instr) (q : Party) (sl : Bool) : Bool := (poppable i q sl).any fun n => (q.loadPort n).isSome

/-- What is left after an instruction that issued in `s0` and whose effect and advance left `r`: where it took groups from bound
load ports, their registers hold the last group taken, in the lanes active at issue (R136). -/
def State.ended (s0 : State) (i : Instr) (w : Issuer) (r : State) : State :=
  match s0.issuer with
  | some (_, _, q) =>
    if pops i q w.sl = true ∧ (q.slot w.sl).wait.begun = false then r.modParty w.tid w.p fun p => p.lastPops (q.active w.sl) else r
  | none => r

/-- What is left when an instruction that issued in `s0` has had its effect, which left `r`, and its slot has advanced. -/
def State.after (s0 : State) (i : Instr) (w : Issuer) (r : State) : State := s0.ended i w (r.completed i w)

/-- The instruction executes wherever it issues, and its whole effect, beside its slot's advance, is the change `f` of its
party, which is given the issuing slot. -/
def RegisterEffect (i : Instr) (f : Bool → Party → Party) : Prop :=
  ∀ s w t q s', Issues i s w t q s' → exec i s = .next (s.after i w (s'.modParty w.tid w.p (f w.sl)))

/-- The same for an instruction that sets the program counter itself: `f` is its whole effect. -/
def FlowEffect (i : Instr) (f : Bool → Party → Party) : Prop :=
  ∀ s w t q s', Issues i s w t q s' → exec i s = .next (s'.modParty w.tid w.p (f w.sl))

/-! ## Instructions of a sequencer -/

/-- What an instruction of a sequencer finds when it executes. -/
structure SeqIssues (s : State) (tid : Nat) (t : Team) (q : Sequencer) : Prop where
  issuer : s.sequencer = some (tid, t, q)
  running : t.running = true
  going : q.stopped = false
  posted : (q.ops.any fun o => decide (0 < o.passes.unposted)) = false
  calm : s.stuck = false

/-- The state in which an instruction of a sequencer has had its effect. -/
def State.seqCompleted (s : State) (i : Instr) (tid : Nat) : State := s.modSeq tid fun q => q.advance i.size

/-! ## What an instruction leaves alone -/

/-- Everything but the teams and the counter of free values is as it was: memory, buffers, translation, queues, runs,
every register outside the teams. -/
def State.sameOutsideTeams (s t : State) : Prop := ({ t with teams := s.teams, free := s.free } : State) = s

/-- Every team but one, and every part of that team but one of its parties, is as it was. -/
def State.sameOtherParties (s t : State) (tid p : Nat) : Prop :=
  (∀ k, k ≠ tid → Map.find t.teams k = Map.find s.teams k) ∧
    ∀ u, Map.find s.teams tid = some u →
      ∃ v, Map.find t.teams tid = some v ∧ ({ v with parties := u.parties } : Team) = u ∧
        ∀ j, j ≠ p → Map.find v.parties j = Map.find u.parties j

end Sys2Proof.Machine
end

