-- ==== Sys2Proof/WellFormed.lean ====
section
/-!
DEFINITION. Well-formed instructions: those that some words encode within every limit that the decoding checks of R171
set. Events are no instructions of a stream and are not well-formed in this sense.
-/

namespace Sys2Proof

/-- An instruction that the words of a clause can spell. -/
def Instr.wf (i : Instr) : Bool := i.illegal.isNone

end Sys2Proof
end

