-- ==== Sys2Proof/Certificates/Slice0/Obligations.lean ====
section
/-!
DEFINITION. The statements about the model that are put to the provers.
-/

open Sys2Proof Sys2Proof.Machine

/-! ## Encoding (chapter 06) -/

/-- R159 to R171: every instruction that keeps the limits decodes from its own words, whatever words follow. -/
def Obligations.DecodeEncode : Prop :=
  ∀ i w ls rest, i.wf = true → encode i = w :: ls → decode w (ls ++ rest) = .ok i

/-- R161: the literal words that a well-formed instruction has are those that its head word announces, and no instruction
but an event is without a word. -/
def Obligations.LiteralWords : Prop :=
  ∀ i, i.wf = true → ∃ w ls, encode i = w :: ls ∧ literalCount w = ls.length ∧ ls.length ≤ 3

/-- R163, R171: what the decoder answers keeps every limit and is no event; major 0x00 and the majors that no table lists
are refused, whatever follows. -/
def Obligations.DecodeRefuses : Prop :=
  (∀ w ls i, decode w ls = .ok i → i.wf = true ∧ isEvent i = false) ∧
    ∀ (w : Word) ls, (fld w 26 6).toNat ∈ [0x00, 0x1B, 0x1C, 0x1D, 0x1E, 0x1F, 0x25, 0x26, 0x27, 0x28, 0x29, 0x2A, 0x2B, 0x35, 0x3B] →
      decode w ls = .error .unusedMajor

/-- Words that the chapters give for instructions, with what they stand for. -/
def Obligations.WordsDecode : Prop :=
  decode 0xFC002A00 [] = .ok (.trap 0x2A) ∧ decode 0xFC800005 [] = .ok (.clkrd 8) ∧
  decode 0x34117FFE [] = .ok (.bc .nz 5 0x3FFE) ∧ decode 0x3C000004 [] = .ok .exit ∧
  decode 0xFCA10602 [] = .ok (.tlbrng 10 4 6) ∧ decode 0xFCC08803 [] = .ok (.wsld 12 2 8) ∧
  decode 0xF4000080 [] = .ok (.barSync .tm 0) ∧ decode 0x80202060 [] = .ok (.vfadd .f32 4 2 (.reg 3))

/-! ## Steps -/

/-- A path's turn comes to it: it is its track's only path, or its next instruction would not issue now, so that it only records
what it waits on (R388, R389). -/
def turnOf (s : State) (t : Team) (q : Party) (tid p : Nat) (sl : Bool) : Prop :=
  s.alone t.core q tid p sl = true ∨ readyBy issue s (.party tid p sl) = false

/-- What an issuer's turn leaves where it must wait for a walker or a closed bank (R35, R62): the state before it, with the misses
and the wants of the turn, and the issuer waiting. -/
def setBack (s s1 : State) (w : Who) : State := (s.undo (some w) (s.originFor w) s1).holdBy w

/-- A step with an empty agenda whose `cur` names a slot of a running team, inside a clause, runs the instruction whose words
stand at the slot's program counter: one cycle passes, the words are fetched, and the step is `exec` of the decoded instruction,
followed by what every issue leaves behind (R377, R389, R419, R420). Words that decode to nothing are an illegal-instruction
fault, and an instruction of another class than its clause an illegal-class fault, at that instruction (R163). A fetch that must
wait for a walker leaves the slot waiting (R35). Where other paths of the track are ready too, the first of them issues (R389), and
a slot that is not chosen does nothing. A sequencer runs its instruction in the same way, on no track (R266). -/
def Obligations.StepRunsIssuer : Prop :=
  (∀ (s0 s1 : State) tid p sl t q c ws i,
    s0.agenda = [] → s0.cur = some (.party tid p sl) →
    let s := s0.upkeep.cycle
    let w : Who := .party tid p sl
    Map.find s.teams tid = some t → Map.find t.parties p = some q → turnOf s t q tid p sl →
    t.running = true → (q.slot sl).live = true → q.yielded = false → s.isGated t.core = false → (q.slot sl).clause = some c →
    s.fetchWords t (q.slot sl).pc (wordsLeft (q.slot sl).pc c) = (s1, .ok ws) →
    (s1.stuck = true → step s0 = .next (setBack s s1 w)) ∧
    (s1.stuck = false →
      (decode (ws.headD 0) ws.tail = .ok i → i.cls = c.cls → isEvent i = false →
        step s0 = match exec i s1 with
          | .next s2 => .next (if s2.stuck then setBack s s2 w else s2.issued w (s.waitBy w))
          | e => e) ∧
      (decode (ws.headD 0) ws.tail = .ok i → i.cls ≠ c.cls →
        step s0 = .next (s1.faultAt ⟨tid, p, sl⟩ q (ws.headD 0) { cause := 0x03 })) ∧
      ∀ r, decode (ws.headD 0) ws.tail = .error r →
        step s0 = .next (s1.faultAt ⟨tid, p, sl⟩ q (ws.headD 0) { cause := 0x01 }))) ∧
  (∀ (s0 : State) tid p sl t q c rest,
    s0.agenda = [] → s0.cur = some (.party tid p sl) →
    let s := s0.upkeep.cycle
    Map.find s.teams tid = some t → Map.find t.parties p = some q → ¬turnOf s t q tid p sl →
    s.contenders issue t.core q.track = c :: rest →
    let best := firstOf c rest
    (best.tid = tid ∧ best.p = p ∧ best.sl = sl → step s0 = s.trackCycle issue t.core q.track) ∧
    (¬(best.tid = tid ∧ best.p = p ∧ best.sl = sl) → step s0 = .next s)) ∧
  ∀ (s0 s1 : State) tid t q c ws i,
    s0.agenda = [] → s0.cur = some (.seq tid) →
    let s := s0.upkeep.cycle
    let w : Who := .seq tid
    Map.find s.teams tid = some t → t.seq = some q → t.running = true → q.stopped = false → q.clause = some c →
    s.fetchWords t q.pc (wordsLeft q.pc c) = (s1, .ok ws) →
    (s1.stuck = true → step s0 = .next (setBack s s1 w)) ∧
    (s1.stuck = false → decode (ws.headD 0) ws.tail = .ok i → isEvent i = false →
      (i.cls = c.cls →
        step s0 = match exec i s1 with
          | .next s2 => .next (if s2.stuck then setBack s s2 w else s2.issued w (s.waitBy w))
          | e => e) ∧
      (i.cls ≠ c.cls → step s0 = .next (s1.takeFault tid (seqOrigin q (ws.headD 0)) { cause := 0x03 } false false .none)))

/-- A step with an event at the head of the agenda runs it after its time has passed, and leaves all but the misses as it was
where the event must wait for a walker or a closed bank (R35, R62); an instruction on the agenda is refused. A path at a clause
boundary meets CLAUSE_ISSUE (R157): where that lets it enter the clause, its first instruction issues at the same instant, and
where that instruction waits the path stands before the clause again. The event of CLAUSE_ISSUE is such a turn. -/
def Obligations.StepTakesTurns : Prop :=
  (∀ (s0 : State) dclk dtb e rest, s0.agenda = ⟨dclk, dtb, .event e⟩ :: rest →
    let s := ({ s0 with agenda := rest } : State).upkeep.pass dclk dtb
    (isEvent e = true → (∀ w, e ≠ .clauseIssue w) → ∀ s1, exec e s = .next s1 →
      step s0 = .next (if s1.stuck then s.undo none noOrigin s1 else s1)) ∧
    (∀ w, e = .clauseIssue w → step s0 = if s.entered w then .next s else s.issueTurn issue w) ∧
    (isEvent e = false → step s0 = .refused .notAnEvent)) ∧
  ∀ (s0 s1 : State) tid p sl t q, s0.agenda = [] → s0.cur = some (.party tid p sl) →
    let s := s0.upkeep.cycle
    let w : Who := .party tid p sl
    Map.find s.teams tid = some t → Map.find t.parties p = some q → turnOf s t q tid p sl → t.running = true →
    (q.slot sl).live = true → q.yielded = false → s.isGated t.core = false → (q.slot sl).clause = none → s.stuck = false →
    exec (.clauseIssue w) s = .next s1 → s1.stuck = false →
    (s1.entered w = false → step s0 = .next s1) ∧
    ∀ s2 i s3, s1.entered w = true → s1.fetch w = .go s2 i → s2.stuck = false → exec i s2 = .next s3 → s3.stuck = false →
      isEvent i = false → step s0 = .next ((s3.issued w (s1.waitBy w)).backOut w)

/-- R61, R391: with nothing to issue, nine cycles of clk at 2.25 GHz are four nanoseconds of tbase, 1,024 units of 1/256 ns,
from whatever count they start. -/
def Obligations.NineCyclesAreFourNanoseconds : Prop :=
  ∀ s : State, s.clk.toNat + 9 < 2 ^ 64 → s.tbase.toNat + 1024 < 2 ^ 64 →
    (s.cycle.cycle.cycle.cycle.cycle.cycle.cycle.cycle.cycle).clk = s.clk + 9 ∧
    (s.cycle.cycle.cycle.cycle.cycle.cycle.cycle.cycle.cycle).tbase = s.tbase + 1024

/-- R388, R389: the issue cycle of a track with ready parties issues one that no other ready party precedes, by starvation,
priority, gathering stamp and party index; outside the teams nothing changes before it issues. -/
def Obligations.TrackIssuesFirstContender : Prop :=
  ∀ (s : State) (run : Who → State → Host.Outcome State Fault Refusal) core track, s.contenders run core track ≠ [] →
    ∃ c ∈ s.contenders run core track, (∀ x ∈ s.contenders run core track, x.before c = false) ∧
      ∃ s', s.sameOutsideTeams s' ∧ s.trackCycle run core track = run (.party c.tid c.p c.sl) s'

/-! ## Reset -/

/-- R462, R463: after a cold reset all memory of the device is zero and clk, tbase and every queue start empty; bring-up is at its first
phase, nothing is mapped, launched, keyed or fenced, the power cap is 3,600 and no die throttles. -/
def Obligations.ResetValues : Prop :=
  (∀ a, regionOf a ≠ .host → State.reset.byte a = 0) ∧ State.reset.clk = 0 ∧ State.reset.tbase = 0 ∧ State.reset.phase = 0 ∧
    State.reset.teams = [] ∧ State.reset.runs = [] ∧ (∀ k, Map.find State.reset.queues k = none) ∧ State.reset.key = none ∧
    State.reset.fenced = [] ∧ State.reset.cap = 3600 ∧ (∀ d, Store.read State.reset.throttle d = 0)

/-- The invariant holds after reset. -/
def Obligations.ResetInv : Prop := State.reset.inv = true

/-- Every step keeps the invariant: memory's canonical form, the range of the power cap, the bring-up phases. -/
def Obligations.StepInv : Prop := ∀ s t, s.inv = true → step s = .next t → t.inv = true

/-! ## Registers -/

/-- R135, R145: s0 reads zero and discards what is written; s61 to s63 are the issuing slot's activity mask, and a write of one of
them keeps only lanes of the live set, the other two words keeping theirs; every other register holds what is written. A write
changes no other register, no other slot and nothing else of the party. -/
def Obligations.ScalarRegisters : Prop :=
  ∀ (q : Party) (sl : Bool) (v : Word),
    q.getS sl 0 = 0 ∧ q.setS sl 0 v = q ∧
    (∀ n, 1 ≤ n → n ≤ 60 →
      (q.setS sl n v).getS sl n = v ∧ (∀ m, m ≠ n → ∀ b, (q.setS sl n v).getS b m = q.getS b m) ∧
      ({ q.setS sl n v with sregs := q.sregs } : Party) = q) ∧
    ∀ n, 61 ≤ n → n ≤ 63 →
      (q.setS sl n v).getS sl n = (v &&& maskWord q.live (n - 61)) ∧
      (∀ m, m ≠ n → m ≤ 60 → (q.setS sl n v).getS sl m = q.getS sl m) ∧
      (∀ m, m ≠ n → 61 ≤ m → m ≤ 63 → (q.setS sl n v).getS sl m = q.getS sl m &&& maskWord q.live (m - 61)) ∧
      (∀ m, m ≤ 63 → (q.setS sl n v).getS (!sl) m = q.getS (!sl) m) ∧
      ((q.setS sl n v).modSlot sl fun x => { x with mask := (q.slot sl).mask }) = q

/-- R71, R136, R180, R208, R228: writing a vector register that names no bound store port changes it in the lanes of the mask
alone, and those lanes lose their poison; every other lane and register keeps its value, and so does everything else of the party.
Naming a bound store port pushes instead: no register changes, the active lanes' elements that lie in the tile take the positions of
the group, the stream moves on by 96, and it closes when the tile is full; of the rest of the party only warn may change. -/
def Obligations.VectorWrites : Prop :=
  (∀ (q : Party) (n : Nat) (m : Mask) (f : Nat → Word), q.storePort n = none →
    (∀ l, l < 96 → (q.setV n m f).getV n l = if inMask m l then f l else q.getV n l) ∧
    (∀ k l, k ≠ n → l < 96 → (q.setV n m f).getV k l = q.getV k l) ∧
    (∀ k, k ∈ (q.setV n m f).vPoison ↔ k ∈ q.vPoison ∧ ¬(k / 96 = n ∧ inMask m (k % 96) = true)) ∧
    ({ q.setV n m f with vregs := q.vregs, vPoison := q.vPoison } : Party) = q) ∧
  ∀ (q : Party) (n : Nat) (m : Mask) (f : Nat → Word) (p : Port), q.storePort n = some p →
    ({ q.setV n m f with ports := q.ports, warn := q.warn } : Party) = q ∧
    ∃ p', Map.find (q.setV n m f).ports (n - 120) = some p' ∧ p'.pos = p.pos + 96 ∧
      (∀ x ∈ p.unwritten, x ∈ p'.unwritten) ∧
      (∀ l, l < 96 → inMask m l = true → p.pos + l < p.total → (p.pos + l, f l) ∈ p'.unwritten) ∧
      (∀ x ∈ p'.unwritten, x ∈ p.unwritten ∨ ∃ l, l < 96 ∧ inMask m l = true ∧ p.pos + l < p.total ∧ x = (p.pos + l, f l)) ∧
      p'.ended = decide (p.total ≤ p.pos + 96) ∧
      ∀ k, k ≠ n - 120 → Map.find (q.setV n m f).ports k = Map.find q.ports k

/-! ## The scalar instructions (R218 to R221) -/

/-- What a scalar instruction with sources a and b does: S[SD] receives the value, and nothing else changes. -/
def ScalarEffect (k : SReg → SReg → SOp → Instr) (f : Word → Word → Word) : Prop :=
  ∀ d a b, RegisterEffect (k d a b) fun sl q => q.setS sl d.toNat (f (q.getS sl a.toNat) (q.bS sl b))

/-- The same with one source. -/
def ScalarEffect1 (k : SReg → SReg → Instr) (f : Word → Word) : Prop :=
  ∀ d a, RegisterEffect (k d a) fun sl q => q.setS sl d.toNat (f (q.getS sl a.toNat))

/-- R219: what each instruction of major 0x01 writes. Signed operands are taken as two's complement, unsigned ones as
natural numbers. -/
def Obligations.ScalarArithmetic : Prop :=
  ScalarEffect .sadd (fun a b => BitVec.ofNat 32 (a.toNat + b.toNat)) ∧
  ScalarEffect .ssub (fun a b => BitVec.ofInt 32 ((a.toNat : Int) - b.toNat)) ∧
  ScalarEffect .smul (fun a b => BitVec.ofNat 32 (a.toNat * b.toNat)) ∧
  ScalarEffect .smulhI32 (fun a b => BitVec.ofInt 32 (a.toInt * b.toInt / 2 ^ 32)) ∧
  ScalarEffect .smulhN32 (fun a b => BitVec.ofNat 32 (a.toNat * b.toNat / 2 ^ 32)) ∧
  ScalarEffect .sand (fun a b => a &&& b) ∧ ScalarEffect .sor (fun a b => a ||| b) ∧
  ScalarEffect .sxor (fun a b => a ^^^ b) ∧
  ScalarEffect .sshl (fun a b => if 32 ≤ b.toNat then 0 else BitVec.ofNat 32 (a.toNat * 2 ^ b.toNat)) ∧
  ScalarEffect .sshr (fun a b => if 32 ≤ b.toNat then 0 else BitVec.ofNat 32 (a.toNat / 2 ^ b.toNat)) ∧
  ScalarEffect .ssra (fun a b =>
    if 32 ≤ b.toNat then (if a.msb then BitVec.allOnes 32 else 0) else BitVec.ofInt 32 (a.toInt / 2 ^ b.toNat)) ∧
  ScalarEffect .sminI32 (fun a b => if b.toInt < a.toInt then b else a) ∧
  ScalarEffect .sminN32 (fun a b => if b.toNat < a.toNat then b else a) ∧
  ScalarEffect .smaxI32 (fun a b => if a.toInt < b.toInt then b else a) ∧
  ScalarEffect .smaxN32 (fun a b => if a.toNat < b.toNat then b else a) ∧
  ScalarEffect1 .smov (fun a => a) ∧
  (∀ d a, RegisterEffect (.spopc d a) fun sl q =>
    q.setS sl d.toNat (BitVec.ofNat 32 ((List.range 32).countP fun k => (q.getS sl a.toNat).getLsbD k))) ∧
  ScalarEffect1 .sclz (fun a => BitVec.ofNat 32 (if a = 0 then 32 else 31 - Nat.log2 a.toNat)) ∧
  (∃ low : Word → Word, ScalarEffect1 .sffs low ∧ low 0 = 32 ∧
    ∀ a, a ≠ 0 → (low a).toNat < 32 ∧ a.getLsbD (low a).toNat = true ∧ ∀ k, k < (low a).toNat → a.getLsbD k = false) ∧
  (∀ c d a b, RegisterEffect (.scmp c d a b) fun sl q =>
    let x := q.getS sl a.toNat
    let y := q.bS sl b
    q.setS sl d.toNat
      (bitWord (match c with
        | .eq => decide (x.toNat = y.toNat)
        | .ne => decide (x.toNat ≠ y.toNat)
        | .ltI => decide (x.toInt < y.toInt)
        | .leI => decide (x.toInt ≤ y.toInt)
        | .ltN => decide (x.toNat < y.toNat)
        | .leN => decide (x.toNat ≤ y.toNat)
        | .gtI => decide (y.toInt < x.toInt)
        | .gtN => decide (y.toNat < x.toNat)))) ∧
  ∀ c d a b, RegisterEffect (.ssel c d a b) fun sl q =>
    q.setS sl d.toNat (if q.getS sl c.toNat ≠ 0 then q.getS sl a.toNat else q.bS sl b)

/-- The field of `width` bits from bit `lsb` on, as a natural number. -/
def fieldOf (a : Word) (lsb width : Nat) : Nat := a.toNat / 2 ^ lsb % 2 ^ width

/-- R221: what each immediate form writes. The field forms keep lsb + width ≤ 32, with width = WIDTH + 1. -/
def Obligations.ScalarImmediates : Prop :=
  (∀ d a i, RegisterEffect (.saddImm d a i) fun sl q =>
    q.setS sl d.toNat (BitVec.ofInt 32 ((q.getS sl a.toNat).toNat + i.toInt))) ∧
  (∀ d a i, RegisterEffect (.sandImm d a i) fun sl q =>
    q.setS sl d.toNat (BitVec.ofNat 32 (Nat.land (q.getS sl a.toNat).toNat i.toNat))) ∧
  (∀ d a i, RegisterEffect (.sorImm d a i) fun sl q =>
    q.setS sl d.toNat (BitVec.ofNat 32 (Nat.lor (q.getS sl a.toNat).toNat i.toNat))) ∧
  (∀ d a n, RegisterEffect (.sshlImm d a n) fun sl q =>
    q.setS sl d.toNat (BitVec.ofNat 32 ((q.getS sl a.toNat).toNat * 2 ^ n.toNat))) ∧
  (∀ d a n, RegisterEffect (.sshrImm d a n) fun sl q =>
    q.setS sl d.toNat (BitVec.ofNat 32 ((q.getS sl a.toNat).toNat / 2 ^ n.toNat))) ∧
  (∀ d a n, RegisterEffect (.ssraImm d a n) fun sl q =>
    q.setS sl d.toNat (BitVec.ofInt 32 ((q.getS sl a.toNat).toInt / 2 ^ n.toNat))) ∧
  (∀ d a sign lsb n, lsb.toNat + n.toNat ≤ 31 → RegisterEffect (.sbfx d a sign lsb n) fun sl q =>
    let x := fieldOf (q.getS sl a.toNat) lsb.toNat (n.toNat + 1)
    q.setS sl d.toNat
      (if sign ∧ 2 ^ n.toNat ≤ x then BitVec.ofInt 32 ((x : Int) - 2 ^ (n.toNat + 1)) else BitVec.ofNat 32 x)) ∧
  (∀ d a lsb n, lsb.toNat + n.toNat ≤ 31 → RegisterEffect (.sbfi d a lsb n) fun sl q =>
    let old := (q.getS sl d.toNat).toNat
    q.setS sl d.toNat
      (BitVec.ofNat 32 (old - 2 ^ lsb.toNat * fieldOf (q.getS sl d.toNat) lsb.toNat (n.toNat + 1) +
        2 ^ lsb.toNat * fieldOf (q.getS sl a.toNat) 0 (n.toNat + 1)))) ∧
  (∀ d i, RegisterEffect (.sli d i) fun sl q => q.setS sl d.toNat (BitVec.ofInt 32 i.toInt)) ∧
  ∀ d i, RegisterEffect (.slui d i) fun sl q => q.setS sl d.toNat (BitVec.ofNat 32 (i.toNat * 2 ^ 12))

/-! ## Special registers (R137, R223 to R227, R395) -/

/-- R137, R223: what sget reads for each number, with the team as it is after the pops. -/
def specialOf (s : State) (t : Team) (p : Nat) (q : Party) (sl : Bool) (n : Nat) : DWord :=
  match n with
  | 0 => (q.slot sl).mode.setWidth 64
  | 1 => (q.slot sl).fmt.setWidth 64
  | 2 => q.warn.setWidth 64
  | 3 => s.clk
  | 4 => s.tbase
  | 5 => q.tstart
  | 7 => BitVec.ofNat 64 (p + 16 * (t.parties.length - 1))
  | 8 => t.teamNo.setWidth 64
  | 9 => BitVec.ofNat 64 (t.vcore % 4)
  | 10 => (pcoreWord t.core).setWidth 64
  | 11 => t.mig.setWidth 64
  | 12 => q.depth.setWidth 64
  | 13 => q.recs.setWidth 64
  | 14 => (wsrefWord s.clk.toNat).setWidth 64
  | _ => 0

/-- R223 to R227, R299, R395: sget, sset, ckwarn, setfmt, setmode, the vector sget of id.lane, and clkrd, wherever they issue.
Reads of warn wait while an access of the party has yet to raise its bits (R226). A read of lko gives its value at the team's last
barrier, or one of the values that the team's sequencer has written since (R299). -/
def Obligations.SpecialRegisters : Prop :=
  (∀ s w t q d, IssuesPlain (.sget d 15) s w t q →
    ∃ v ∈ t.lko :: t.lkoNew, exec (.sget d 15) s =
      .next ((({ s with free := if t.lkoNew = [] then s.free else s.free + 1 } : State).modParty w.tid w.p fun q' =>
        q'.setS w.sl d.toNat v).completed (.sget d 15) w)) ∧
  (∀ s w t q d n, IssuesPlain (.sget d n) s w t q → n ≠ 15 → (n = 2 → q.accesses = []) →
    exec (.sget d n) s = .next ((s.modParty w.tid w.p fun q' =>
      let x := specialOf s t w.p q w.sl n.toNat
      if 3 ≤ n.toNat ∧ n.toNat ≤ 5 then
        (q'.setS w.sl d.toNat (x.extractLsb' 0 32)).setS w.sl (d.toNat + 1) (x.extractLsb' 32 32)
      else q'.setS w.sl d.toNat (x.extractLsb' 0 32)).completed (.sget d n) w)) ∧
  (∀ s w t q d a, IssuesPlain (.ckwarn d a) s w t q → q.accesses = [] →
    exec (.ckwarn d a) s = .next ((s.modParty w.tid w.p fun q' =>
      ({ q' with warn := q'.warn &&& ~~~(q'.getS w.sl a.toNat &&& 0xFFF) } : Party).setS w.sl d.toNat q'.warn).completed
        (.ckwarn d a) w)) ∧
  (∀ a n, RegisterEffect (.sset a n) fun sl q =>
    match n.toNat with
    | 0 => q.modSlot sl fun y => { y with mode := q.getS sl a.toNat &&& 0x37 }
    | 1 => q.modSlot sl fun y => { y with fmt := q.getS sl a.toNat &&& 0x3F }
    | 2 => { q with warn := q.getS sl a.toNat &&& 0xFFF }
    | 5 => { q with tstart := q.getS sl (a.toNat + 1) ++ q.getS sl a.toNat }
    | _ => q) ∧
  (∀ v, RegisterEffect (.setfmt v) fun sl q => q.modSlot sl fun y => { y with fmt := BitVec.ofNat 32 v.toNat }) ∧
  (∀ v, v.getLsbD 3 = false →
    RegisterEffect (.setmode v) fun sl q => q.modSlot sl fun y => { y with mode := BitVec.ofNat 32 v.toNat }) ∧
  (∀ d, RegisterEffect (.sgetIdLane d) fun sl q => q.setV d.toNat (q.active sl) fun l => BitVec.ofNat 32 l) ∧
  ∀ s w t q d, IssuesPlain (.clkrd d) s w t q →
    exec (.clkrd d) s = .next ((s.modParty w.tid w.p fun q =>
      (q.setPairS w.sl d.toNat s.clk).setPairS w.sl (d.toNat + 2) s.tbase).completed (.clkrd d) w)

/-- R63: wsref, special register 14, shows the open window, or the next one, and the cycles until it closes or opens; after
reset window 0 is open for 1,152 cycles. sset to it has no effect. -/
def Obligations.RefreshRegister : Prop :=
  (∀ s w t q d, IssuesPlain (.sget d 14) s w t q →
    exec (.sget d 14) s = .next ((s.modParty w.tid w.p fun q' => q'.setS w.sl d.toNat (wsrefWord s.clk.toNat)).completed
      (.sget d 14) w)) ∧
  (∀ a, RegisterEffect (.sset a 14) fun _ q => q) ∧ wsrefWord State.reset.clk.toNat = 0x80000480 ∧
  ∀ clk : Nat,
    let j := clk % 72000 / 4500
    let into := clk % 4500
    (wsrefWord clk).getLsbD 31 = decide (into < 1152) ∧ fld (wsrefWord clk) 28 3 = 0 ∧ fld (wsrefWord clk) 13 11 = 0 ∧
      (fld (wsrefWord clk) 24 4).toNat = (if into < 1152 then j else (j + 1) % 16) ∧
      (fld (wsrefWord clk) 0 13).toNat = (if into < 1152 then 1152 - into else 4500 - into)

/-! ## Control flow (R371 to R377) -/

/-- The address after the issuing clause. -/
def nextOf (x : Slot) : Word := match x.clause with | some c => c.stop | none => x.pc + 4

/-- The address of the issuing clause. -/
def clauseStart (x : Slot) : Word := match x.clause with | some c => c.addr | none => x.pc

/-- The slot at a clause boundary at `pc`: nothing else of it changes. -/
def Sys2Proof.Machine.Slot.at_ (x : Slot) (pc : Word) : Slot := { x with pc := pc, clause := none, wait := .none }

/-- R371 to R373, R375, R377: br and call go to clause address + 4 × sext(offset), call with lnk set to the next clause; bc goes
there when its test of the signed value against zero holds and to the next clause otherwise; ret goes to lnk and jmpi to S[SA];
nop does nothing and yield marks the party. Nothing else changes. -/
def Obligations.Branches : Prop :=
  (∀ o, FlowEffect (.br o) fun sl q =>
    q.modSlot sl fun x => x.at_ (clauseStart x + BitVec.ofInt 32 (4 * o.toInt))) ∧
  (∀ o, FlowEffect (.call o) fun sl q =>
    { q.modSlot sl fun x => x.at_ (clauseStart x + BitVec.ofInt 32 (4 * o.toInt)) with
      sregs := Store.write q.sregs 60 (nextOf (q.slot sl)) }) ∧
  (∀ t a o, FlowEffect (.bc t a o) fun sl q =>
    let v := (q.getS sl a.toNat).toInt
    let taken : Bool := match t with
      | .z => decide (v = 0)
      | .nz => decide (v ≠ 0)
      | .lt => decide (v < 0)
      | .ge => decide (0 ≤ v)
      | .gt => decide (0 < v)
      | .le => decide (v ≤ 0)
    q.modSlot sl fun x => x.at_ (if taken then clauseStart x + BitVec.ofInt 32 (4 * o.toInt) else nextOf x)) ∧
  FlowEffect .ret (fun sl q => q.modSlot sl fun x => x.at_ (Store.read q.sregs 60)) ∧
  (∀ a, FlowEffect (.jmpi a) fun sl q => q.modSlot sl fun x => x.at_ (q.getS sl a.toNat)) ∧
  RegisterEffect .nop (fun _ q => q) ∧ RegisterEffect .yield fun _ q => { q with yielded := true }

/-- R147, R374: bdiv with fewer than 63 entries on the stack. When all active lanes go one way a JOIN entry that one path must
reach is pushed and the slot goes that way, its mask unchanged. When they split, a JOIN entry for two paths is pushed, the slot
goes on at the next clause with the lanes outside the condition, and the lanes in it start at the target: in the other slot if
that is idle, otherwise as a DEFER entry pushed above. With 63 or more entries it faults RCSTACK. -/
def Obligations.Divergence : Prop :=
  ∀ s w t q a o, IssuesPlain (.bdiv a o) s w t q →
    let x := q.slot w.sl
    let c := q.triple w.sl a.toNat
    let target := clauseStart x + BitVec.ofInt 32 (4 * o.toInt)
    let entry : StackEntry :=
      { valid := true, defer := false, pc := 0, mask := x.mask, fmt := x.fmt, mode := x.mode, pend := 1, link := x.frame }
    let join := some q.stack.length
    (62 < q.stack.length → exec (.bdiv a o) s = .next (s.faultAt w q (Instr.bdiv a o).word rcStack)) ∧
    (q.stack.length ≤ 62 →
      ∃ q', exec (.bdiv a o) s = .next (s.modParty w.tid w.p fun _ => q') ∧ q'.vregs = q.vregs ∧ q'.sregs = q.sregs ∧
        q'.live = q.live ∧
        (x.mask &&& c = 0 →
          q'.slot w.sl = { x.at_ (nextOf x) with frame := join } ∧ q'.stack = q.stack ++ [entry] ∧
            q'.slot (!w.sl) = q.slot (!w.sl)) ∧
        (x.mask &&& c ≠ 0 → x.mask &&& ~~~c = 0 →
          q'.slot w.sl = { x.at_ target with frame := join } ∧ q'.stack = q.stack ++ [entry] ∧
            q'.slot (!w.sl) = q.slot (!w.sl)) ∧
        (x.mask &&& c ≠ 0 → x.mask &&& ~~~c ≠ 0 →
          q'.slot w.sl = { x.at_ (nextOf x) with frame := join, mask := x.mask &&& ~~~c } ∧
          ((q.slot (!w.sl)).live = false → q'.stack = q.stack ++ [{ entry with pend := 2 }] ∧
            (q'.slot (!w.sl)).live = true ∧ (q'.slot (!w.sl)).pc = target ∧ (q'.slot (!w.sl)).mask = x.mask &&& c ∧
            (q'.slot (!w.sl)).frame = join ∧ (q'.slot (!w.sl)).fmt = x.fmt ∧ (q'.slot (!w.sl)).mode = x.mode) ∧
          ((q.slot (!w.sl)).live = true → q'.slot (!w.sl) = q.slot (!w.sl) ∧
            q'.stack = q.stack ++ [{ entry with pend := 2 },
              { entry with defer := true, pc := target, mask := x.mask &&& c, pend := 0, link := join }])))

/-- R148, R149, R376: `UnwindsIn sl ending n q r`: in `n` rounds, end_path (`ending`) or path_emptied on the slot `sl` turns the
party `q` into `r`. A path comes off the stack, or out of a frame, with its mask ANDed with the live set. -/
inductive UnwindsIn (sl : Bool) : Bool → Nat → Party → Party → Prop
  | idle (q : Party) : (∀ e, q.stack.getLast? = some e → e.defer = false) → UnwindsIn sl true 1 q (q.setSlot sl Slot.idle)
  | takes (q : Party) (e : StackEntry) : q.stack.getLast? = some e → e.defer = true → e.mask &&& q.live ≠ 0 →
      UnwindsIn sl true 1 q (({ q.dropEntry (q.stack.length - 1) with nextAge := q.nextAge + 1 } : Party).setSlot sl
        (pathOf e q.live q.nextAge))
  | dead (q r : Party) (e : StackEntry) (n : Nat) : q.stack.getLast? = some e → e.defer = true → e.mask &&& q.live = 0 →
      UnwindsIn sl false n (({ q.dropEntry (q.stack.length - 1) with nextAge := q.nextAge + 1 } : Party).setSlot sl
        (pathOf e q.live q.nextAge)) r →
      UnwindsIn sl true (n + 1) q r
  | noFrame (q r : Party) (n : Nat) : (q.slot sl).frame = none → UnwindsIn sl true n q r → UnwindsIn sl false (n + 1) q r
  | counted (q r : Party) (j : Nat) (e : StackEntry) (n : Nat) : (q.slot sl).frame = some j → q.stack[j]? = some e → 1 < e.pend →
      UnwindsIn sl true n { q with stack := q.stack.modify j fun e => { e with pend := e.pend - 1 } } r →
      UnwindsIn sl false (n + 1) q r
  | resumes (q : Party) (j : Nat) (e : StackEntry) : (q.slot sl).frame = some j → q.stack[j]? = some e → e.pend ≤ 1 →
      e.mask &&& q.live ≠ 0 → e.pc ≠ 0 →
      UnwindsIn sl false 1 q ((q.dropEntry j).setSlot sl (pathOf e q.live (q.slot sl).age))
  | above (q r : Party) (j : Nat) (e : StackEntry) (n : Nat) : (q.slot sl).frame = some j → q.stack[j]? = some e → e.pend ≤ 1 →
      e.mask &&& q.live = 0 ∨ e.pc = 0 →
      UnwindsIn sl false n ((q.dropEntry j).setSlot sl { pathOf e q.live (q.slot sl).age with mask := 0 }) r →
      UnwindsIn sl false (n + 1) q r

/-- R146: the stack without the entry `j`: the entry is no longer valid, and the top falls past every invalid entry. -/
def removedFrom (st st' : List StackEntry) (j : Nat) : Prop :=
  (∃ cut, st.modify j (fun e => { e with valid := false }) = st' ++ cut ∧ ∀ e ∈ cut, e.valid = false) ∧
    ∀ e, st'.getLast? = some e → e.valid = true

/-- R148, R375: join. Without a frame it goes on at the next clause. When other paths must still arrive, the entry counts this
arrival, keeps the first arrival's address, and end_path runs. The last arrival takes the entry off the stack and goes on with the
entry's lanes that still live, its fmt and mode and its frame; where no lane is left, path_emptied runs. Then a party that has
finished retires, after the release that its records' joins make (R475): here one that is complete. -/
def Obligations.Joins : Prop :=
  ∀ sl, ∃ go : Party → Party,
    (∀ q,
      let x := q.slot sl
      ({ go q with slot0 := q.slot0, slot1 := q.slot1, stack := q.stack, nextAge := q.nextAge } : Party) = q ∧
      (x.frame = none → go q = q.modSlot sl fun x => x.at_ (nextOf x)) ∧
      ∀ j e, x.frame = some j → q.stack[j]? = some e →
        let waits : Party := { q with stack := q.stack.modify j fun e =>
          { e with pend := e.pend - 1, pc := if e.pc = 0 then nextOf x else e.pc } }
        let y : Slot := { x.at_ (nextOf x) with mask := e.mask &&& q.live, fmt := e.fmt, mode := e.mode, frame := e.link }
        let last : Party := (q.dropEntry j).setSlot sl y
        removedFrom q.stack (q.dropEntry j).stack j ∧
        (1 < e.pend → ∀ n r, n ≤ waits.rounds → UnwindsIn sl true n waits r → go q = r) ∧
        (e.pend ≤ 1 → e.mask &&& q.live ≠ 0 → go q = last) ∧
        (e.pend ≤ 1 → e.mask &&& q.live = 0 → ∀ n r, n ≤ last.rounds → UnwindsIn sl false n last r → go q = r)) ∧
    ∀ s w t q s1, w.sl = sl → IssuesPlain .join s w t q →
      s.retireRelease t.core w.tid w.p q (if (go q).finished then q.records.filter fun d => !d.retired else []) = (s1, none) →
      let r := (s1.modParty w.tid w.p go).retireFinished w.tid w.p (originOf w q Instr.join.word) (q.slot (!sl)).wait
      r.stuck = false → exec .join s = .next r

/-- R355, R376: exit takes the active lanes out of the live set and out of the other slot's mask. path_emptied runs on the issuing
slot, and then on the other where the exit took its last lane; another path that keeps lanes goes on. In a node of RMODE 0 the
records of the exiting lanes retire, and a party that has finished retires, after the release that those records' joins make
(R475): here one that is complete. When the last live lane leaves while a convoy of the team is open, that convoy aborts with a
fault. Beside its slots, live set and stack nothing of the party changes. -/
def Obligations.Exits : Prop :=
  ∀ sl, ∃ go : Mask → Party → Party,
    (∀ m q,
      let o := q.slot (!sl)
      let left : Party := { (q.modSlot (!sl) fun y => { y with mask := y.mask &&& ~~~m }).modSlot sl (fun y => { y with mask := 0 }) with
        live := q.live &&& ~~~m }
      (go m q).live = q.live &&& ~~~m ∧
      ({ go m q with live := q.live, slot0 := q.slot0, slot1 := q.slot1, stack := q.stack, nextAge := q.nextAge } : Party) = q ∧
      (q.stack = [] → (go m q).slot sl = Slot.idle ∧ (go m q).stack = []) ∧
      (o.live = false ∨ o.mask = 0 ∨ o.mask &&& ~~~m ≠ 0 → (go m q).slot (!sl) = { o with mask := o.mask &&& ~~~m }) ∧
      ∀ n r, n ≤ left.rounds → UnwindsIn sl false n left r →
        (o.live = false ∨ o.mask = 0 ∨ o.mask &&& ~~~m ≠ 0 → go m q = r) ∧
        (o.live = true → o.mask ≠ 0 → o.mask &&& ~~~m = 0 →
          ∀ k r2, k ≤ r.rounds → UnwindsIn (!sl) false k r r2 → go m q = r2)) ∧
    ∀ s w t q n s1, w.sl = sl → IssuesPlain .exit s w t q → s.node? t = some n →
      let m := q.active sl
      let o := originOf w q Instr.exit.word
      let x := (q.slot (!sl)).wait
      let gone (d : Delivered) : Bool := n.rmode == 0 && match d.lane with | some l => inMask m l | none => false
      s.retireRelease t.core w.tid w.p q (q.records.filter fun d => !d.retired && ((go m q).finished || gone d)) = (s1, none) →
      let r := ((s1.modParty w.tid w.p (go m)).retireParty w.tid w.p o x gone).1.retireFinished w.tid w.p o x
      (q.live = 0 ∨ q.live &&& ~~~m ≠ 0 ∨ r.openConvoy w.tid = none → r.stuck = false → exec .exit s = .next r) ∧
      ∀ c, q.live ≠ 0 → q.live &&& ~~~m = 0 → r.openConvoy w.tid = some c →
        let f := (r.abortConvoy c.cid c.ver).takeFault w.tid o
          { cause := 0x10, sub := 5, lane := none, addr := none, info := c.cid.setWidth 32 } false false x
        f.stuck = false → exec .exit s = .next f

/-! ## The vector integer instructions (R228 to R234) -/

/-- R228, R229, R231: an element operation given for any width, on the lanes of a vector register or pair. -/
def VecEffect (k : ITy → VReg → VReg → BOp → Instr) (f : ElemOp) : Prop :=
  ∀ t d a b, RegisterEffect (k t d a b) (vecInt f t d a b)

def VecEffect1 (k : ITy → VReg → VReg → Instr) (f : (w : Nat) → BitVec w → BitVec w) : Prop :=
  ∀ t d a, RegisterEffect (k t d a) (vecInt (fun w _ x _ => f w x) t d a (.lit 0))

/-- R231: what each register form writes into an element: d the element of VD as read, a that of VA, b that of B, w the
element's width. -/
def Obligations.VectorArithmetic : Prop :=
  VecEffect .vadd (fun w _ a b => BitVec.ofNat w (a.toNat + b.toNat)) ∧
  VecEffect .vsub (fun w _ a b => BitVec.ofInt w ((a.toNat : Int) - b.toNat)) ∧
  VecEffect .vmul (fun w _ a b => BitVec.ofNat w (a.toNat * b.toNat)) ∧
  VecEffect .vmulhSigned (fun w _ a b => BitVec.ofInt w (a.toInt * b.toInt / 2 ^ w)) ∧
  VecEffect .vmulhUnsigned (fun w _ a b => BitVec.ofNat w (a.toNat * b.toNat / 2 ^ w)) ∧
  VecEffect .vmac (fun w d a b => BitVec.ofNat w (d.toNat + a.toNat * b.toNat)) ∧
  VecEffect .vand (fun _ _ a b => a &&& b) ∧ VecEffect .vor (fun _ _ a b => a ||| b) ∧
  VecEffect .vxor (fun _ _ a b => a ^^^ b) ∧ VecEffect1 .vnot (fun _ a => ~~~a) ∧
  VecEffect .vshl (fun w _ a b => if w ≤ b.toNat then 0 else BitVec.ofNat w (a.toNat * 2 ^ b.toNat)) ∧
  VecEffect .vshr (fun w _ a b => if w ≤ b.toNat then 0 else BitVec.ofNat w (a.toNat / 2 ^ b.toNat)) ∧
  VecEffect .vsra (fun w _ a b =>
    if w ≤ b.toNat then (if a.msb then BitVec.allOnes w else 0) else BitVec.ofInt w (a.toInt / 2 ^ b.toNat)) ∧
  VecEffect .vminSigned (fun _ _ a b => if b.toInt < a.toInt then b else a) ∧
  VecEffect .vminUnsigned (fun _ _ a b => if b.toNat < a.toNat then b else a) ∧
  VecEffect .vmaxSigned (fun _ _ a b => if a.toInt < b.toInt then b else a) ∧
  VecEffect .vmaxUnsigned (fun _ _ a b => if a.toNat < b.toNat then b else a) ∧
  VecEffect1 .vabs (fun w a => BitVec.ofInt w a.toInt.natAbs) ∧
  VecEffect1 .vneg (fun w a => BitVec.ofInt w (-a.toInt)) ∧
  VecEffect1 .vpopc (fun w a => BitVec.ofNat w ((List.range w).countP fun k => a.getLsbD k)) ∧
  VecEffect1 .vclz (fun w a => BitVec.ofNat w (if a = 0 then w else w - 1 - Nat.log2 a.toNat)) ∧
  VecEffect1 .vmov (fun _ a => a) ∧ VecEffect .vsel fun _ d a b => if d ≠ 0 then a else b

/-- Element k of width w of a lane value. -/
def elemOf (x : Word) (w k : Nat) : BitVec w := x.extractLsb' (w * k) w

/-- R180, R228: under an element operation every element of an active lane is computed from the elements in its own place, a
64-bit one in a register pair; lanes outside ACTIVE and every other register are unchanged, and so is everything else of the
party. The destination names no bound store port, and a pair is even. -/
def Obligations.VectorElements : Prop :=
  ∀ (f : ElemOp) (d a : VReg) (b : BOp) (sl : Bool) (q : Party), q.storePort d.toNat = none →
    let m := q.active sl
    let old (l : Nat) := q.getV d.toNat l
    let x (l : Nat) := q.getV a.toNat l
    let y (l : Nat) := q.bV b l
    (∀ l, l < 96 → (vecInt f .w32 d a b sl q).getV d.toNat l = if inMask m l then f 32 (old l) (x l) (y l) else old l) ∧
    (∀ l k, l < 96 → inMask m l = true → k < 2 →
      elemOf ((vecInt f .h16 d a b sl q).getV d.toNat l) 16 k = f 16 (elemOf (old l) 16 k) (elemOf (x l) 16 k) (elemOf (y l) 16 k)) ∧
    (∀ l k, l < 96 → inMask m l = true → k < 4 →
      elemOf ((vecInt f .b8 d a b sl q).getV d.toNat l) 8 k = f 8 (elemOf (old l) 8 k) (elemOf (x l) 8 k) (elemOf (y l) 8 k)) ∧
    (d.toNat % 2 = 0 → q.storePort (d.toNat + 1) = none → ∀ l, l < 96 → inMask m l = true →
      (vecInt f .w64 d a b sl q).pairV d.toNat l = f 64 (q.pairV d.toNat l) (q.pairV a.toNat l) (q.bPairV b l)) ∧
    ∀ t, (t = .w64 → d.toNat % 2 = 0 ∧ q.storePort (d.toNat + 1) = none) →
      ({ vecInt f t d a b sl q with vregs := q.vregs, vPoison := q.vPoison } : Party) = q ∧
      ∀ n l, l < 96 → inMask m l = false ∨ (n ≠ d.toNat ∧ (t = .w64 → n ≠ d.toNat + 1)) →
        (vecInt f t d a b sl q).getV n l = q.getV n l

/-- R233, R234: the immediate forms and the literal form of vli. -/
def Obligations.VectorImmediates : Prop :=
  (∀ d a i, RegisterEffect (.vaddImm d a i) fun sl q =>
    q.setV d.toNat (q.active sl) fun l => BitVec.ofInt 32 ((q.getV a.toNat l).toNat + i.toInt)) ∧
  (∀ d i, RegisterEffect (.vli d i) fun sl q => q.setV d.toNat (q.active sl) fun _ => BitVec.ofInt 32 i.toInt) ∧
  (∀ d v, RegisterEffect (.vliLit d v) fun sl q => q.setV d.toNat (q.active sl) fun _ => v) ∧
  (∀ d a sign lsb n, lsb.toNat + n.toNat ≤ 31 → RegisterEffect (.vbfx d a sign lsb n) fun sl q =>
    q.setV d.toNat (q.active sl) fun l =>
      let x := fieldOf (q.getV a.toNat l) lsb.toNat (n.toNat + 1)
      if sign ∧ 2 ^ n.toNat ≤ x then BitVec.ofInt 32 ((x : Int) - 2 ^ (n.toNat + 1)) else BitVec.ofNat 32 x) ∧
  (∀ d a lsb n, lsb.toNat + n.toNat ≤ 31 → RegisterEffect (.vbfi d a lsb n) fun sl q =>
    q.setV d.toNat (q.active sl) fun l =>
      BitVec.ofNat 32 ((q.getV d.toNat l).toNat - 2 ^ lsb.toNat * fieldOf (q.getV d.toNat l) lsb.toNat (n.toNat + 1) +
        2 ^ lsb.toNat * fieldOf (q.getV a.toNat l) 0 (n.toNat + 1))) ∧
  (∀ d a n, RegisterEffect (.vshlImm d a n) fun sl q =>
    q.setV d.toNat (q.active sl) fun l => BitVec.ofNat 32 ((q.getV a.toNat l).toNat * 2 ^ n.toNat)) ∧
  (∀ d a n, RegisterEffect (.vshrImm d a n) fun sl q =>
    q.setV d.toNat (q.active sl) fun l => BitVec.ofNat 32 ((q.getV a.toNat l).toNat / 2 ^ n.toNat)) ∧
  ∀ d a n, RegisterEffect (.vsraImm d a n) fun sl q =>
    q.setV d.toNat (q.active sl) fun l => BitVec.ofInt 32 ((q.getV a.toNat l).toInt / 2 ^ n.toNat)

/-! ## Exact values and roundings (R73, R76, R90 to R98) -/

/-- The number that a finite `Num` stands for. -/
noncomputable def ratOf (x : Sys2Proof.Num) : ℝ := match x with | .fin neg m e => (if neg then -1 else 1) * m * 2 ^ e | _ => 0

/-- A value with at most `bits` bits after its leading one, and no bit below 2^least where there is such a bound. -/
def OnGrid (bits : Nat) (least : Option Int) (v : ℝ) : Prop :=
  ∃ (k : Nat) (q : Int), k < 2 ^ (bits + 1) ∧ (∀ b, least = some b → b ≤ q) ∧ |v| = k * 2 ^ q

/-- The lowest mantissa bit of such a value is 0. -/
def EvenOnGrid (bits : Nat) (least : Option Int) (v : ℝ) : Prop :=
  ∃ (k : Nat) (q : Int), k < 2 ^ (bits + 1) ∧ (∀ b, least = some b → b ≤ q) ∧ (2 ^ bits ≤ k ∨ least = some q) ∧
    |v| = k * 2 ^ q ∧ k % 2 = 0

/-- R90, R91: `v` is the value that a rounding mode takes for `a` among those that `rep` admits; in a tie RNE takes the even one. -/
def RoundedTo (r : Rnd) (rep even : ℝ → Prop) (a v : ℝ) : Prop :=
  rep v ∧ 0 ≤ v * a ∧
    match r with
    | .rtz => |v| ≤ |a| ∧ ∀ w, rep w → |w| ≤ |a| → |w| ≤ |v|
    | .rup => a ≤ v ∧ ∀ w, rep w → a ≤ w → v ≤ w
    | .rdn => v ≤ a ∧ ∀ w, rep w → w ≤ a → w ≤ v
    | .rne => ∀ w, rep w → |v - a| < |w - a| ∨ |v - a| = |w - a| ∧ (w = v ∨ even v)
    | .rna => ∀ w, rep w → |v - a| < |w - a| ∨ |v - a| = |w - a| ∧ |w| ≤ |v|
    | .sr draw => ∃ lo hi : ℝ, rep lo ∧ rep hi ∧ 0 ≤ lo * a ∧ 0 ≤ hi * a ∧ |lo| ≤ |a| ∧ |a| < |hi| ∧
        (∀ w, rep w → |w| ≤ |lo| ∨ |hi| ≤ |w|) ∧
        (a = lo → v = lo) ∧
        (a ≠ lo → (2 ^ 24 ≤ ⌊(|a| - |lo|) / (|hi| - |lo|) * 2 ^ 24⌋₊ + draw → v = hi) ∧
          (⌊(|a| - |lo|) / (|hi| - |lo|) * 2 ^ 24⌋₊ + draw < 2 ^ 24 → v = lo))

/-- `y` is the code of a finite value with its sign. -/
def IsCode (f : FloatFmt) (neg : Bool) (v : ℝ) (y : Nat) : Prop :=
  y < 2 ^ (1 + f.ebits + f.mbits) ∧ ∃ m e, f.unpack y = .fin neg m e ∧ ratOf (.fin neg m e) = v

/-- `y` is the code of the largest finite magnitude, with a sign. -/
def IsMaxCode (f : FloatFmt) (neg : Bool) (y : Nat) : Prop :=
  ∃ v, IsCode f neg v y ∧ ∀ n w z, IsCode f n w z → |w| ≤ |v|

/-- The least normal exponent of a format. -/
def leastExp (f : FloatFmt) : Int := 1 - f.bias

/-- The canonical NaN of a format that has one (R76). -/
def canonNaN (f : FloatFmt) : Nat :=
  if f.special = .nanOnly then 2 ^ (f.ebits + f.mbits) - 1 else (2 ^ f.ebits - 1) * 2 ^ f.mbits + 2 ^ (f.mbits - 1)

/-- R90 to R95: the code and the flags of a nonzero number `a` of sign `neg`, rounded with an unbounded exponent. Beyond the largest finite
magnitude the overflow column applies; below the least normal magnitude the result may be flushed. -/
def RoundsTo (f : FloatFmt) (r : Rnd) (fout sat neg : Bool) (a : ℝ) (y : Nat × Word) : Prop :=
  let qmin := leastExp f - f.mbits
  ∃ v, RoundedTo r (OnGrid f.mbits (some qmin)) (EvenOnGrid f.mbits (some qmin)) a v ∧
    ((∃ n w z, IsCode f n w z ∧ |v| ≤ |w|) →
      (fout = true ∧ v ≠ 0 ∧ |v| < 2 ^ leastExp f → IsCode f neg 0 y.1 ∧ y.2 = (wUNF ||| wINX)) ∧
      (¬(fout = true ∧ v ≠ 0 ∧ |v| < 2 ^ leastExp f) → IsCode f neg v y.1 ∧
        ∃ inx unf : Bool, y.2 = (when inx wINX ||| when unf wUNF) ∧ (inx = true ↔ v ≠ a) ∧
          (unf = true ↔ v ≠ a ∧ ∃ u, RoundedTo r (OnGrid f.mbits none) (EvenOnGrid f.mbits none) a u ∧ |u| < 2 ^ leastExp f))) ∧
    ((∀ n w z, IsCode f n w z → |w| < |v|) →
      y.2 = (wOVF ||| wINX) ∧
      let limited := f.special = .none ∨ sat = true ∨ r = .rtz ∨ (r = .rup ∧ neg = true) ∨ (r = .rdn ∧ neg = false)
      (limited → IsMaxCode f neg y.1) ∧
      (¬limited → y.1 < 2 ^ (1 + f.ebits + f.mbits) ∧ f.unpack y.1 = if f.special = .ieee then .inf neg else .nan false neg))

/-- R96, R97: the same for an integer range. -/
def RoundsToInt (lo hi : Int) (w : Nat) (r : Rnd) (a : ℝ) (y : Nat × Word) : Prop :=
  ∃ n : Int, RoundedTo r (fun x => ∃ k : Int, x = k) (fun x => ∃ k : Int, x = 2 * k) a n ∧
    (hi < n → y = ((BitVec.ofInt w hi).toNat, wINV)) ∧ (n < lo → y = ((BitVec.ofInt w lo).toNat, wINV)) ∧
    (lo ≤ n → n ≤ hi → y.1 = (BitVec.ofInt w n).toNat ∧
      ((n : ℝ) = a → y.2 = 0) ∧ ((n : ℝ) ≠ a → y.2 = if n = 0 then wUNF ||| wINX else wINX))

/-- What a number that is no NaN stands for, on the extended line. -/
noncomputable def valOf (x : Sys2Proof.Num) : EReal := match x with | .inf true => ⊥ | .inf false => ⊤ | _ => ((ratOf x : ℝ) : EReal)

/-- The same number, and the same zero. -/
def SameNum (a b : Sys2Proof.Num) : Prop := a.isNan = false ∧ b.isNan = false ∧ valOf a = valOf b ∧ a.neg = b.neg

/-- The order of numbers with −0 below +0 (R247). -/
def AtMost (a b : Sys2Proof.Num) : Prop := valOf a < valOf b ∨ valOf a = valOf b ∧ (valOf a = 0 → b.neg = true → a.neg = true)

/-- An exact result `x`, with the flags of computing it, delivered: rounded once where it is a nonzero number (R244 to R246). -/
def Delivers (f : FloatFmt) (r : Rnd) (fout : Bool) (x : Sys2Proof.Num) (g : Word) (y : Nat × Word) : Prop :=
  (∀ sig neg, x = .nan sig neg → y = (canonNaN f, g ||| when sig wINV)) ∧
  (∀ neg, x = .inf neg → f.unpack y.1 = .inf neg ∧ y.1 < 2 ^ (1 + f.ebits + f.mbits) ∧ y.2 = g) ∧
  (∀ neg e, x = .fin neg 0 e → IsCode f neg 0 y.1 ∧ y.2 = g) ∧
  ∀ neg m e, x = .fin neg m e → m ≠ 0 → ∃ z, RoundsTo f r fout false neg (ratOf x) z ∧ y = (z.1, g ||| z.2)

/-- R239: the operation of vred and vscan on some values, in any order. -/
def ReducedTo (env : FEnv) (op : RedOp) (xs : List Word) (y : Word × Word) : Prop :=
  let extreme (key : Word → Int) (top : Word) := y.2 = 0 ∧ (xs = [] → y.1 = top) ∧ (xs ≠ [] → y.1 ∈ xs ∧ ∀ x ∈ xs, key y.1 ≤ key x)
  let bits (f : Nat → Bool) := y.2 = 0 ∧ ∀ k, k < 32 → y.1.getLsbD k = f k
  let ns := xs.map fun x => flushIn .fp32 env.fin (fmtFp32.unpack x.toNat)
  let r := fmtFp32.unpack y.1.toNat
  let nan := (∃ n ∈ ns, n.isNan = true)
  match op with
  | .add => y = (BitVec.ofNat 32 (xs.map BitVec.toNat).sum, 0)
  | .minI => extreme (fun x => x.toInt) 0x7FFFFFFF
  | .maxI => extreme (fun x => -(x.toInt)) 0x80000000
  | .minN => extreme (fun x => x.toNat) 0xFFFFFFFF
  | .maxN => extreme (fun x => -(x.toNat : Int)) 0
  | .and => bits fun k => xs.all fun x => x.getLsbD k
  | .or => bits fun k => xs.any fun x => x.getLsbD k
  | .xor => bits fun k => decide (xs.countP (fun x => x.getLsbD k) % 2 = 1)
  | .fadd =>
    (xs = [] → y = (0, 0)) ∧
    (nan ∨ (Sys2Proof.Num.inf true ∈ ns ∧ Sys2Proof.Num.inf false ∈ ns) → y.1 = 0x7FC00000 ∧
      y.2 = when (ns.any Sys2Proof.Num.isSig || (decide (Sys2Proof.Num.inf true ∈ ns) && decide (Sys2Proof.Num.inf false ∈ ns))) wINV) ∧
    (∀ neg, ¬nan → Sys2Proof.Num.inf neg ∈ ns → Sys2Proof.Num.inf (!neg) ∉ ns → r = .inf neg ∧ y.2 = 0) ∧
    (xs ≠ [] → (∀ n ∈ ns, ∃ s m e, n = .fin s m e) →
      let sum := (ns.map ratOf).sum
      (∀ neg, sum ≠ 0 → (neg = true ↔ sum < 0) → RoundsTo fmtFp32 env.rnd env.fout false neg sum (y.1.toNat, y.2)) ∧
      (sum = 0 → IsCode fmtFp32 (env.rnd == .rdn || ns.all fun n => n.isZero && n.neg) 0 y.1.toNat ∧ y.2 = 0))
  | .fmin =>
    (nan → y = (0x7FC00000, when (ns.any Sys2Proof.Num.isSig) wINV)) ∧ (xs = [] → y = (0x7F800000, 0)) ∧
    (¬nan → xs ≠ [] → y.2 = 0 ∧ (∃ n ∈ ns, SameNum r n) ∧ ∀ n ∈ ns, AtMost r n)
  | .fmax =>
    (nan → y = (0x7FC00000, when (ns.any Sys2Proof.Num.isSig) wINV)) ∧ (xs = [] → y = (0xFF800000, 0)) ∧
    (¬nan → xs ≠ [] → y.2 = 0 ∧ (∃ n ∈ ns, SameNum r n) ∧ ∀ n ∈ ns, AtMost n r)

/-! ## Cross-lane instructions and comparisons (R232, R235 to R241, R248) -/

/-- The elements of a lane (R242): one of 32 or 64 bits, or two of 16. -/
def elemsOf (t : FTy) : List Nat := match t with | .f32 | .f64 => [0] | _ => [0, 1]

/-- Element k of what a lane holds. -/
def floatElem (t : FTy) (x k : Nat) : Nat := match t with | .f32 | .f64 => x | _ => x / 2 ^ (16 * k) % 2 ^ 16

/-- The mask whose bit L says that lane L is in `m` and that `f` holds there. -/
def IsLaneMask (r m : Mask) (f : Nat → Bool) : Prop := ∀ l, l < 96 → r.getLsbD l = (inMask m l && f l)

/-- R232, R240, R241, R248: vcmp, vfcmp, vballot and vvote execute wherever they issue, and write to the scalar registers they name
the mask of the active lanes in which the condition holds, bits of inactive lanes 0, or one bit; nothing else changes. A lane of
vfcmp holds when every element does, on numbers after input flushing, and vfcmp raises the flags of all its comparisons. -/
def Obligations.LaneConditions : Prop :=
  (∀ wide c d a b, ∃ r : Bool → Party → Mask,
    RegisterEffect (.vcmp wide c d a b) (fun sl q => q.setTriple sl d.toNat (r sl q)) ∧
    ∀ sl q, IsLaneMask (r sl q) (q.active sl) fun l =>
      if wide then iHolds c (q.pairV a.toNat l) (q.bPairV b l) else iHolds c (q.getV a.toNat l) (q.bV b l)) ∧
  (∀ d a, ∃ r : Bool → Party → Mask, RegisterEffect (.vballot d a) (fun sl q => q.setTriple sl d.toNat (r sl q)) ∧
    ∀ sl q, IsLaneMask (r sl q) (q.active sl) fun l => q.getV a.toNat l != 0) ∧
  (∀ t c d a b, ∃ r : Bool → Party → Mask, ∃ fl : Bool → Party → Word,
    RegisterEffect (.vfcmp t c d a b) (fun sl q => (q.setTriple sl d.toNat (r sl q)).raise (fl sl q)) ∧
    ∀ sl q,
      let x (l k : Nat) := inF t (q.mode sl) (floatElem t (q.laneV (t == .f64) a.toNat l) k)
      let y (l k : Nat) := inF t (q.mode sl) (floatElem t (q.bF (t == .f64) b l) k)
      IsLaneMask (r sl q) (q.active sl) (fun l => (elemsOf t).all fun k => (fHolds c (x l k) (y l k)).1) ∧
      ∀ n, (fl sl q).getLsbD n = true ↔
        ∃ l ∈ maskLanes (q.active sl), ∃ k ∈ elemsOf t, (fHolds c (x l k) (y l k)).2.getLsbD n = true) ∧
  (∀ d a, RegisterEffect (.vvote .all d a) fun sl q =>
    q.setS sl d.toNat (bitWord (lanes.all fun l => !inMask (q.active sl) l || q.getV a.toNat l != 0))) ∧
  (∀ d a, RegisterEffect (.vvote .any d a) fun sl q =>
    q.setS sl d.toNat (bitWord (lanes.any fun l => inMask (q.active sl) l && q.getV a.toNat l != 0))) ∧
  ∀ d a, RegisterEffect (.vvote .uniform d a) fun sl q =>
    q.setS sl d.toNat (bitWord (lanes.all fun l => lanes.all fun k =>
      !inMask (q.active sl) l || !inMask (q.active sl) k || q.getV a.toNat l == q.getV a.toNat k))

/-- The value that a lane reads from lane `src`: 0 from a lane outside the live set (R235). -/
def fromLive (q : Party) (a src : Nat) : Word := if src < 96 ∧ inMask q.live src then q.getV a src else 0

/-- R235 to R239: each active lane receives VA of its source lane, with DEADSRC when some source is not live; vred gives every
active lane the operation over all active lanes, and vscan over those below it or up to it. With no lane active nothing
changes. The operation over some values is their sum, least, greatest or bitwise combination, for floating point from one exact sum
rounded once; of no value it is the identity. -/
def Obligations.LaneMoves : Prop :=
  (∀ d a b, RegisterEffect (.vperm d a b) fun sl q =>
    (q.setV d.toNat (q.active sl) fun l => fromLive q a.toNat ((q.bV b l).toNat % 128)).raise
      (when (q.deadSource sl fun l => (q.bV b l).toNat % 128) wDEADSRC)) ∧
  (∀ d a n, RegisterEffect (.vbcast d a n) fun sl q =>
    (q.setV d.toNat (q.active sl) fun _ => fromLive q a.toNat n.toNat).raise (when (q.deadSource sl fun _ => n.toNat) wDEADSRC)) ∧
  (∀ d a m, RegisterEffect (.vxshf d a m) fun sl q =>
    (q.setV d.toNat (q.active sl) fun l => fromLive q a.toNat (Nat.xor l m.toNat)).raise
      (when (q.deadSource sl fun l => Nat.xor l m.toNat) wDEADSRC)) ∧
  (∀ op d a, RegisterEffect (.vred op d a) fun sl q =>
    if q.active sl = 0 then q
    else
      let r := redOp (FEnv.ofMode (q.mode sl)) op ((maskLanes (q.active sl)).map (q.getV a.toNat))
      (q.setV d.toNat (q.active sl) fun _ => r.1).raise (r.2 ||| redReserved op (q.mode sl))) ∧
  (∀ op excl d a, RegisterEffect (.vscan op excl d a) fun sl q =>
    if q.active sl = 0 then q
    else
      let r (l : Nat) := redOp (FEnv.ofMode (q.mode sl)) op
        (((maskLanes (q.active sl)).filter fun k => if excl then k < l else k ≤ l).map (q.getV a.toNat))
      (q.setV d.toNat (q.active sl) fun l => (r l).1).raise
        ((maskLanes (q.active sl)).foldl (fun f l => f ||| (r l).2) 0 ||| redReserved op (q.mode sl))) ∧
  (∀ env op xs, ReducedTo env op xs (redOp env op xs)) ∧
  ∀ op mode, redReserved op mode = if op = .fadd ∧ 6 ≤ mode.toNat % 8 then 0x100 else 0

/-! ## Floating point (R242 to R263) -/

/-- The registers of a floating-point destination. -/
def floatDest (t : FTy) (d : VReg) : List Nat := if t = .f64 then [d.toNat, d.toNat + 1] else [d.toNat]

/-- What a floating-point form does to its party, and the vector registers that it writes. The arithmetic forms compute on exact
numbers, after input flushing (inF), and round once under the slot's mode (outF). -/
def floatMeaning (i : Instr) : Option ((Bool → Party → Party) × List Nat) :=
  match i with
  | .vfadd t d a b =>
    some (vecFloat (fun t m _ x y => outF t m (addNum (rndDown m) (inF t m x) (inF t m y))) true t d a b, floatDest t d)
  | .vfsub t d a b =>
    some (vecFloat (fun t m _ x y => outF t m (addNum (rndDown m) (inF t m x) (inF t m y).negate)) true t d a b, floatDest t d)
  | .vfmul t d a b => some (vecFloat (fun t m _ x y => outF t m (mulNum (inF t m x) (inF t m y))) true t d a b, floatDest t d)
  | .vfma t d a b =>
    some (vecFloat (fun t m z x y => outF t m (fmaNum (rndDown m) (inF t m x) (inF t m y) (inF t m z))) true t d a b, floatDest t d)
  | .vfms t d a b =>
    some (vecFloat (fun t m z x y => outF t m (fmaNum (rndDown m) (inF t m x) (inF t m y) (inF t m z).negate)) true t d a b,
      floatDest t d)
  | .vfmin t d a b => some (vecFloat (elemFminMax false) false t d a b, floatDest t d)
  | .vfmax t d a b => some (vecFloat (elemFminMax true) false t d a b, floatDest t d)
  | .vfscl t d a b => some (vecFscl t d a b, floatDest t d)
  | .vfexp t d a => some (vecFloat elemFexp false t d a (.lit 0), floatDest t d)
  | .vfclass t d a => some (vecFloat elemFclass false t d a (.lit 0), floatDest t d)
  | .vf2sum wide d a b =>
    some (vecF2sum wide d a b,
      if wide then [d.toNat, d.toNat + 1, d.toNat + 2, d.toNat + 3] else [d.toNat, d.toNat + 1])
  | .vfrnd t d a seed => some (vecFrnd t d a seed, seed.toNat :: floatDest t d)
  | .vfcvt d a df sf sat => some (vecFcvt d a df sf sat, if df.wide then [d.toNat, d.toNat + 1] else [d.toNat])
  | .vfcvtSr d a df sf sat seed =>
    some (vecFcvtSr d a df sf sat seed, seed.toNat :: if df.wide then [d.toNat, d.toNat + 1] else [d.toNat])
  | .vrcp t d a => some (vecFloat elemRcp true t d a (.lit 0), floatDest t d)
  | .vsqrt t d a => some (vecFloat elemSqrt true t d a (.lit 0), floatDest t d)
  | .vrsq t d a => some (vecApprox .rsq t d a, floatDest t d)
  | .vexp2 t d a => some (vecApprox .exp2 t d a, floatDest t d)
  | .vlog2 t d a => some (vecApprox .log2 t d a, floatDest t d)
  | .vsin t d a => some (vecApprox .sin t d a, floatDest t d)
  | .vcos t d a => some (vecApprox .cos t d a, floatDest t d)
  | .vtanh t d a => some (vecApprox .tanh t d a, floatDest t d)
  | _ => none

/-- A change of a party that writes the vector registers `ds` in the active lanes, which loses their poison, raises warn bits, and
leaves every other lane, register, slot and port as it was. -/
def WritesOnly (f : Bool → Party → Party) (ds : List Nat) : Prop :=
  ∀ sl q, (∀ n ∈ ds, q.storePort n = none) →
    (∀ n l, l < 96 → (n ∉ ds ∨ inMask (q.active sl) l = false) → (f sl q).getV n l = q.getV n l) ∧
    (∀ k, q.warn.getLsbD k = true → (f sl q).warn.getLsbD k = true) ∧
    ({ f sl q with vregs := q.vregs, vPoison := q.vPoison, warn := q.warn } : Party) = q

/-- R242, R256, R257, R253: what a lane of a floating-point form holds after it, element by element, and which bits its party's warn
register gains. The destination names no bound store port. -/
def FloatLanes : Prop :=
  (∀ (f : FTy → Word → FElem) rounds t (d a : VReg) (b : BOp) sl (q : Party),
    (t = .f64 → d.toNat % 2 = 0) → (∀ n ∈ floatDest t d, q.storePort n = none) →
    let wide := t == .f64
    let q' := vecFloat f rounds t d a b sl q
    let r (l k : Nat) := f t (q.mode sl) (floatElem t (q.laneV wide d.toNat l) k) (floatElem t (q.laneV wide a.toNat l) k)
      (floatElem t (q.bF wide b l) k)
    (∀ l k, l < 96 → inMask (q.active sl) l = true → k ∈ elemsOf t → (∀ j ∈ elemsOf t, (r l j).1 < 2 ^ ftyWidth t) →
      floatElem t (q'.laneV wide d.toNat l) k = (r l k).1) ∧
    ∀ n, q'.warn.getLsbD n = (q.warn.getLsbD n ||
      ((maskLanes (q.active sl)).any fun l => (elemsOf t).any fun k => (r l k).2.getLsbD n) ||
      (rounds && decide (6 ≤ (q.mode sl).toNat % 8) && q.active sl != 0 && decide (n = 8)))) ∧
  (∀ w, (fmtFp32.unpack w.toNat).isNan = false → SameNum (fmtFp64.unpack (widenLit w)) (fmtFp32.unpack w.toNat)) ∧
  (∀ (d a seed : VReg) df sf sat sl (q : Party), (df.wide = true → d.toNat % 2 = 0) →
    q.storePort d.toNat = none → (df.wide = true → q.storePort (d.toNat + 1) = none) → q.storePort seed.toNat = none →
    seed ≠ d → (df.wide = true → seed.toNat ≠ d.toNat + 1) →
    let sr := (q.mode sl).toNat % 8 = 5
    let next (l : Nat) := advanceSeed (q.getV seed.toNat l)
    let r (rnd : Nat → Rnd) (l : Nat) := convert sf df ⟨rnd l, (q.mode sl).getLsbD 4, (q.mode sl).getLsbD 5⟩ sat (q.laneV sf.wide a.toNat l)
    let held (y : Nat) : Nat :=
      if df ∈ [Cvt.i16, .int8, .int4] ∧ 2 ^ (df.width - 1) ≤ y then 2 ^ 32 - 2 ^ df.width + y else y
    ∀ l, l < 96 → inMask (q.active sl) l = true →
      ((r (fun _ => rndOf (q.mode sl)) l).1 < 2 ^ df.width →
        (vecFcvt d a df sf sat sl q).laneV df.wide d.toNat l = held (r (fun _ => rndOf (q.mode sl)) l).1) ∧
      (¬sr → vecFcvtSr d a df sf sat seed sl q = vecFcvt d a df sf sat sl q) ∧
      (sr → (vecFcvtSr d a df sf sat seed sl q).getV seed.toNat l = next l ∧
        ((r (fun l => .sr ((next l).toNat / 2 ^ 8)) l).1 < 2 ^ df.width →
          (vecFcvtSr d a df sf sat seed sl q).laneV df.wide d.toNat l = held (r (fun l => .sr ((next l).toNat / 2 ^ 8)) l).1))) ∧
  (∀ t (d a seed : VReg) sl (q : Party), (t = .f64 → d.toNat % 2 = 0) → (∀ n ∈ floatDest t d, q.storePort n = none) →
    q.storePort seed.toNat = none → seed.toNat ∉ floatDest t d →
    let sr := (q.mode sl).toNat % 8 = 5
    let wide := t == .f64
    let q' := vecFrnd t d a seed sl q
    let drawn (l k : Nat) : Word := advanceSeed (if k = 0 then q.getV seed.toNat l else advanceSeed (q.getV seed.toNat l))
    let r (l k : Nat) := frnd t (q.mode sl) (if sr then .sr ((drawn l k).toNat / 2 ^ 8) else rndOf (q.mode sl))
      (floatElem t (q.laneV wide a.toNat l) k)
    ∀ l, l < 96 → inMask (q.active sl) l = true →
      (∀ k, k ∈ elemsOf t → (∀ j ∈ elemsOf t, (r l j).1 < 2 ^ ftyWidth t) → floatElem t (q'.laneV wide d.toNat l) k = (r l k).1) ∧
      (sr → q'.getV seed.toNat l = drawn l ((elemsOf t).length - 1)) ∧ (¬sr → q'.getV seed.toNat l = q.getV seed.toNat l)) ∧
  ∀ s : Word, advanceSeed s =
    let a := if s = 0 then 0x2545F491#32 else s
    let b := a ^^^ (a <<< 13)
    let c := b ^^^ (b >>> 17)
    c ^^^ (c <<< 5)

/-- R242 to R263: every floating-point form executes wherever it issues. The 22 forms that `floatMeaning` lists write what it
lists and nothing else. An approximate special function writes a value that depends on the element alone; vosmx and vosms compute
with a free choice within their bound at each use, which is one value for each use, and write only their named registers: the new
maximum, the new sum and the factor. A lane then holds its elements, each computed from those in its place, or what its conversion
gives, and a seed advances once for each draw. -/
def Obligations.FloatInstructions : Prop :=
  (∀ i f ds, floatMeaning i = some (f, ds) → RegisterEffect i f ∧ WritesOnly f ds) ∧
  (∀ s w t q s' d a b, Issues (.vosmx d a b) s w t q s' →
    ∃ choice, exec (.vosmx d a b) s =
      .next (s.after (.vosmx d a b) w (s'.useFree.modParty w.tid w.p (vecOsmx choice d a b w.sl)))) ∧
  (∀ s w t q s' d a, Issues (.vosms d a) s w t q s' →
    ∃ choice, exec (.vosms d a) s =
      .next (s.after (.vosms d a) w (s'.useFree.modParty w.tid w.p (vecOsms choice d a w.sl)))) ∧
  (∀ choice d a b, WritesOnly (vecOsmx choice d a b) [d.toNat, d.toNat + 1, b.toNat] ∧
    WritesOnly (vecOsms choice d a) [d.toNat + 1]) ∧ FloatLanes

/-- The formats in which subnormals can be flushed (R92). -/
def flushFormats : List Cvt := [.fp64, .fp32, .f19, .bf16, .fp16]

/-- R90 to R98: rounding into each float format, and the conversions of one element. A value that the format represents rounds to
itself with no flag; infinities and NaNs are delivered as R95 has them for each target; flushing an input makes a subnormal a zero
of its sign (R92). A conversion that only widens is never flushed at its result. -/
def Obligations.Rounding : Prop :=
  (∀ c f, Cvt.float c = some f →
    (∀ x r, x < 2 ^ (1 + f.ebits + f.mbits) → (f.unpack x).isNan = false →
      roundFloat f r false false (f.unpack x) = (x, 0)) ∧
    (∀ r fout sat neg m e, m ≠ 0 → RoundsTo f r fout sat neg (ratOf (.fin neg m e)) (roundFloat f r fout sat (.fin neg m e))) ∧
    (∀ r fout sat neg e, IsCode f neg 0 (roundFloat f r fout sat (.fin neg 0 e)).1 ∧ (roundFloat f r fout sat (.fin neg 0 e)).2 = 0) ∧
    (∀ r fout sat neg,
      let y := roundFloat f r fout sat (.inf neg)
      (f.special = .none → IsMaxCode f neg y.1 ∧ y.2 = wOVF) ∧
      (f.special ≠ .none → sat = true → IsMaxCode f neg y.1 ∧ y.2 = 0) ∧
      (f.special = .nanOnly → sat = false → f.unpack y.1 = .nan false neg ∧ y.2 = wINV) ∧
      (f.special = .ieee → sat = false → f.unpack y.1 = .inf neg ∧ y.2 = 0)) ∧
    (∀ r fout sat sig neg,
      let y := roundFloat f r fout sat (.nan sig neg)
      (f.special = .none → IsMaxCode f neg y.1 ∧ y.2 = (wNANSAT ||| when sig wINV)) ∧
      (f.special ≠ .none → y = (canonNaN f, when sig wINV)))) ∧
  (∀ c on neg m e, ∀ f, Cvt.float c = some f →
    let x : Sys2Proof.Num := .fin neg m e
    let flushed := on = true ∧ c ∈ flushFormats ∧ m ≠ 0 ∧ |ratOf x| < 2 ^ leastExp f
    (flushed → flushIn c on x = .fin neg 0 0) ∧ (¬flushed → flushIn c on x = x)) ∧
  (∀ c on x, Cvt.float c = none ∨ (∀ neg m e, x ≠ .fin neg m e) → flushIn c on x = x) ∧
  ∀ (sf df : Cvt) (env : FEnv) (sat : Bool) (x : Nat),
    let n := flushIn sf env.fin (sf.unpack x)
    let trn := when (sf == .trn2 && x % 4 == 2) wTRNRES
    let y := convert sf df env sat x
    (∀ f, df.float = some f →
      let z := roundFloat f env.rnd (env.fout && decide (df ∈ flushFormats) && !widens sf df) (sat && df != .fp64) n
      y = (if df = .f19 then z.1 * 2 ^ 13 else z.1, trn ||| z.2)) ∧
    (df.float = none → sf.float.isSome = true → ∀ neg m e, n = .fin neg m e → m ≠ 0 →
      RoundsToInt df.intRange.1 df.intRange.2.1 df.width env.rnd (ratOf n) y) ∧
    (df.float = none → sf.float.isSome = true →
      (n.isNan = true → y = (0, wINV)) ∧ (n.isZero = true → y = (0, 0)) ∧
      (n = .inf false → y = ((BitVec.ofInt df.width df.intRange.2.1).toNat, wINV)) ∧
      (n = .inf true → y = ((BitVec.ofInt df.width df.intRange.1).toNat, wINV))) ∧
    (df.float = none → sf.float = none → ∀ v : Int, ratOf n = v →
      let clamped := if v < df.intRange.1 then df.intRange.1 else if df.intRange.2.1 < v then df.intRange.2.1 else v
      let used := if sat = true ∨ df = .trn2 then clamped else v
      y = ((BitVec.ofInt df.width used).toNat, trn ||| when (used != v) wINV))

/-- R245 to R253: what the element functions of the floating-point instructions compute. An exact sum and product, with the invalid
cases of R246; its delivery (`outF`); the smaller and the larger of two elements, their bits unchanged; the class of the stored bits;
the exponent; scaling by 2ⁿ; the exact two-sum; and rounding to an integral value, stochastic rounding among the modes. Inputs are
taken after flushing (`inF`). -/
def Obligations.FloatValues : Prop :=
  (∀ down a b,
    let s := addNum down a b
    let p := mulNum a b
    let sig := when (a.isSig || b.isSig) wINV
    (a.isNan = true ∨ b.isNan = true → s.1.isNan = true ∧ s.2 = sig ∧ p.1.isNan = true ∧ p.2 = sig) ∧
    (∀ n, a = .inf n → b = .inf (!n) → s.1.isNan = true ∧ s.2 = wINV) ∧
    (∀ n, a.isNan = false → b.isNan = false → a = .inf n ∨ b = .inf n → a ≠ .inf (!n) → b ≠ .inf (!n) → s = (.inf n, 0)) ∧
    (a.isNan = false → b.isNan = false → (∃ n, a = .inf n) ∧ b.isZero = true ∨ (∃ n, b = .inf n) ∧ a.isZero = true →
      p.1.isNan = true ∧ p.2 = wINV) ∧
    (a.isNan = false → b.isNan = false → (∃ n, a = .inf n) ∧ b.isZero = false ∨ (∃ n, b = .inf n) ∧ a.isZero = false →
      p = (.inf (a.neg != b.neg), 0)) ∧
    ∀ na ma ea nb mb eb, a = .fin na ma ea → b = .fin nb mb eb →
      (∃ n m e, s = (.fin n m e, 0) ∧ ratOf s.1 = ratOf a + ratOf b ∧
        (ratOf s.1 = 0 → n = (down || (a.isZero && b.isZero && na && nb)))) ∧
      ∃ m e, p = (.fin (na != nb) m e, 0) ∧ ratOf p.1 = ratOf a * ratOf b) ∧
  (∀ down a b d,
    fmaNum down a b d = ((addNum down (mulNum a b).1 d).1, (mulNum a b).2 ||| (addNum down (mulNum a b).1 d).2)) ∧
  (∀ t mode x g, Delivers (ftyFmt t) (rndOf mode) (mode.getLsbD 5) x g (outF t mode (x, g))) ∧
  (∀ larger t mode d a b, a < 2 ^ ftyWidth t → b < 2 ^ ftyWidth t →
    let f := ftyFmt t
    let y := elemFminMax larger t mode d a b
    let na := inF t mode a
    let nb := inF t mode b
    (na.isNan = true ∨ nb.isNan = true → y = (canonNaN f, when (na.isSig || nb.isSig) wINV)) ∧
    (na.isNan = false → nb.isNan = false → y.2 = 0 ∧
      (∃ x ∈ [a, b], SameNum (f.unpack y.1) (inF t mode x) ∧ (inF t mode x = f.unpack x → y.1 = x)) ∧
      ∀ x ∈ [na, nb], if larger = true then AtMost x (f.unpack y.1) else AtMost (f.unpack y.1) x)) ∧
  (∀ t mode d a b, a < 2 ^ ftyWidth t →
    let f := ftyFmt t
    let neg : Bool := decide (2 ^ (f.ebits + f.mbits) ≤ a)
    let e := a / 2 ^ f.mbits % 2 ^ f.ebits
    let m := a % 2 ^ f.mbits
    elemFclass t mode d a b =
      (2 ^ (if e = 2 ^ f.ebits - 1 then (if m = 0 then (if neg then 0 else 7) else if m < 2 ^ (f.mbits - 1) then 8 else 9)
        else if e ≠ 0 then (if neg then 1 else 6)
        else if m ≠ 0 then (if neg then 2 else 5)
        else if neg then 3 else 4), 0)) ∧
  (∀ t mode d a b,
    let w := ftyWidth t
    let n := inF t mode a
    let y := elemFexp t mode d a b
    (n.isNan = true → y = (2 ^ (w - 1) - 1, when n.isSig wINV)) ∧ (∀ neg, n = .inf neg → y = (2 ^ (w - 1) - 1, 0)) ∧
    (n.isZero = true → y = (2 ^ (w - 1), wDZ)) ∧
    ∀ neg m e, n = .fin neg m e → m ≠ 0 →
      ∃ k : Int, (2 : ℝ) ^ k ≤ |ratOf n| ∧ |ratOf n| < 2 ^ (k + 1) ∧ y = ((BitVec.ofInt w k).toNat, 0)) ∧
  (∀ t mode d a b, b < 2 ^ ftyWidth t →
    let f := ftyFmt t
    let n := inF t mode a
    let y := elemFscl t mode d a b
    (n.isNan = true → y = (canonNaN f, when n.isSig wINV)) ∧ (∀ neg, n = .inf neg → f.unpack y.1 = .inf neg ∧ y.2 = 0) ∧
    (n.isZero = true → IsCode f n.neg 0 y.1 ∧ y.2 = 0) ∧
    ∀ neg m e, n = .fin neg m e → m ≠ 0 →
      RoundsTo f (rndOf mode) (mode.getLsbD 5) false neg (ratOf n * 2 ^ (BitVec.ofNat (ftyWidth t) b).toInt) y) ∧
  (∀ wide : Bool, ∀ a b,
    let f := if wide then fmtFp64 else fmtFp32
    let na := f.unpack a
    let nb := f.unpack b
    let y := twoSum f a b
    (∀ m n e k c h, na = .fin m n e → nb = .fin k c h → ratOf na + ratOf nb ≠ 0 →
      (∀ neg, (neg = true ↔ ratOf na + ratOf nb < 0) → RoundsTo f .rne false false neg (ratOf na + ratOf nb) (y.1.1, y.2)) ∧
      (∀ neg z, IsCode f neg z y.1.1 → ∃ neg', IsCode f neg' (ratOf na + ratOf nb - z) y.1.2 ∧
        (ratOf na + ratOf nb = z → neg' = false)) ∧
      ((f.unpack y.1.1 = .inf true ∨ f.unpack y.1.1 = .inf false) → y.1.2 = 0)) ∧
    (∀ m n e k c h, na = .fin m n e → nb = .fin k c h → ratOf na + ratOf nb = 0 →
      IsCode f (na.isZero && nb.isZero && na.neg && nb.neg) 0 y.1.1 ∧ y.1.2 = 0 ∧ y.2 = 0) ∧
    (na.isNan = true ∨ nb.isNan = true → y = ((canonNaN f, 0), when (na.isSig || nb.isSig) wINV)) ∧
    (∀ n, na = .inf n → nb = .inf (!n) → y = ((canonNaN f, 0), wINV)) ∧
    ∀ n, na.isNan = false → nb.isNan = false → na = .inf n ∨ nb = .inf n → na ≠ .inf (!n) → nb ≠ .inf (!n) →
      f.unpack y.1.1 = .inf n ∧ y.1.2 = 0 ∧ y.2 = 0) ∧
  ∀ t mode r a,
    let f := ftyFmt t
    let n := inF t mode a
    let y := frnd t mode r a
    (n.isNan = true → y = (canonNaN f, when n.isSig wINV)) ∧ (∀ neg, n = .inf neg → f.unpack y.1 = .inf neg ∧ y.2 = 0) ∧
    (n.isZero = true → IsCode f n.neg 0 y.1 ∧ y.2 = 0) ∧
    ∀ neg m e, n = .fin neg m e → m ≠ 0 →
      ∃ v, RoundedTo r (fun x => ∃ k : Int, x = k) (fun x => ∃ k : Int, x = 2 * k) (ratOf n) v ∧ IsCode f neg v y.1 ∧
        (v = ratOf n → y.2 = 0) ∧ (v ≠ ratOf n → y.2 = wINX)

/-- R259: the arguments at which an approximate function is exact, and delivers it with no flag. -/
def ExactAt (g : Approx) (f : FloatFmt) (v : ℝ) : Prop :=
  match g with
  | .rsq => ∃ n : Int, v = 4 ^ n ∧ leastExp f ≤ -n
  | .exp2 => ∃ n : Int, v = n ∧ leastExp f ≤ n ∧ n ≤ f.bias
  | .log2 => ∃ n : Int, v = 2 ^ n
  | .sin | .cos => ∃ n : Int, 2 * v = n
  | .tanh => False

/-- R258 to R261: the special functions. vrcp and vsqrt are correctly rounded. An approximate function is a function of the
element's bits; vsin and vtanh are odd and vcos is even; the special inputs of R260 and the exact cases of R259 are delivered as the
tables have them, every other finite result raises INX, and vrsq lies within its bound. vosmx and vosms follow R261: the factor is 1 for an
unchanged maximum, 0 from −∞, and exp2s of the difference otherwise, which is exact for an integer with a normal result; one rounding of the
product or the sum follows. That the other approximations lie within their bounds is not stated: `withinBound` tests it. -/
def Obligations.SpecialFunctions : Prop :=
  (∀ t mode d a b,
    let f := ftyFmt t
    let n := inF t mode a
    let rcp := elemRcp t mode d a b
    let sqrt := elemSqrt t mode d a b
    (n.isNan = true → rcp = (canonNaN f, when n.isSig wINV) ∧ sqrt = (canonNaN f, when n.isSig wINV)) ∧
    (∀ neg, n = .inf neg → IsCode f neg 0 rcp.1 ∧ rcp.2 = 0) ∧
    (n = .inf false → f.unpack sqrt.1 = .inf false ∧ sqrt.2 = 0) ∧ (n = .inf true → sqrt = (canonNaN f, wINV)) ∧
    (n.isZero = true → (f.unpack rcp.1 = .inf n.neg ∧ rcp.2 = wDZ) ∧ IsCode f n.neg 0 sqrt.1 ∧ sqrt.2 = 0) ∧
    ∀ neg m e, n = .fin neg m e → m ≠ 0 →
      RoundsTo f (rndOf mode) (mode.getLsbD 5) false neg (ratOf n)⁻¹ rcp ∧
      (neg = true → sqrt = (canonNaN f, wINV)) ∧
      (neg = false → RoundsTo f (rndOf mode) (mode.getLsbD 5) false false (Real.sqrt (ratOf n)) sqrt)) ∧
  (∀ g t mode a, a < 2 ^ ftyWidth t →
    let f := ftyFmt t
    let n := inF t mode a
    let y := approxElem g t mode a
    (n.isNan = true → y = (canonNaN f, when n.isSig wINV)) ∧
    (n = .inf false → y = match g with
      | .rsq => (0, 0)
      | .exp2 | .log2 => ((2 ^ f.ebits - 1) * 2 ^ f.mbits, 0)
      | .sin | .cos => (canonNaN f, wINV)
      | .tanh => (f.bias * 2 ^ f.mbits, 0)) ∧
    (n = .inf true → y = match g with
      | .rsq | .log2 | .sin | .cos => (canonNaN f, wINV)
      | .exp2 => (0, 0)
      | .tanh => (2 ^ (f.ebits + f.mbits) + f.bias * 2 ^ f.mbits, 0)) ∧
    (n.isZero = true → match g with
      | .rsq => f.unpack y.1 = .inf n.neg ∧ y.2 = wDZ
      | .log2 => f.unpack y.1 = .inf true ∧ y.2 = wDZ
      | .exp2 | .cos => y = (f.bias * 2 ^ f.mbits, 0)
      | .sin | .tanh => IsCode f n.neg 0 y.1 ∧ y.2 = 0) ∧
    (∀ m e, n = .fin true m e → m ≠ 0 → g = .rsq ∨ g = .log2 → y = (canonNaN f, wINV)) ∧
    (∀ neg m e, n = .fin neg m e → m ≠ 0 → neg = false ∨ (g ≠ .rsq ∧ g ≠ .log2) →
      let v := ratOf n
      (¬ExactAt g f v → y.2.getLsbD 4 = true) ∧
      (∀ k : Int, g = .rsq → v = 4 ^ k → leastExp f ≤ -k → IsCode f false (2 ^ (-k)) y.1 ∧ y.2 = 0) ∧
      (∀ k : Int, g = .exp2 → v = k → leastExp f ≤ k → k ≤ f.bias → IsCode f false (2 ^ k) y.1 ∧ y.2 = 0) ∧
      (∀ k : Int, g = .log2 → v = 2 ^ k → (∃ s, IsCode f s k y.1) ∧ y.2 = 0) ∧
      (∀ k : Int, g = .sin → v = k → IsCode f neg 0 y.1 ∧ y.2 = 0) ∧
      (∀ k : Int, g = .cos → v = k → IsCode f (decide (k % 2 = 1)) (if k % 2 = 1 then -1 else 1) y.1 ∧ y.2 = 0) ∧
      (∀ k : Int, g = .sin → 2 * v = 2 * k + 1 →
        IsCode f (decide (k % 2 = 1)) (if k % 2 = 1 then -1 else 1) y.1 ∧ y.2 = 0) ∧
      (∀ k : Int, g = .cos → 2 * v = 2 * k + 1 → IsCode f false 0 y.1 ∧ y.2 = 0) ∧
      (g = .tanh → 9 ≤ |v| → IsCode f neg (if neg then -1 else 1) y.1 ∧ y.2 = wINX) ∧
      (g = .rsq → ∃ z, IsCode f false z y.1 ∧ ∀ k : Int, (2 : ℝ) ^ k ≤ (Real.sqrt v)⁻¹ → (Real.sqrt v)⁻¹ < 2 ^ (k + 1) →
        |z - (Real.sqrt v)⁻¹| ≤ 2 ^ (k - f.mbits) * (1 + 2 ^ (-60 : Int))))) ∧
  (∀ t mode a, a < 2 ^ (ftyWidth t - 1) → (inF t mode a).isNan = false →
    let sign := 2 ^ (ftyWidth t - 1)
    approxElem .cos t mode (a + sign) = approxElem .cos t mode a ∧
    ∀ g ∈ [Approx.sin, .tanh],
      ((ftyFmt t).unpack (approxElem g t mode a).1).isNan = false →
      (approxElem g t mode (a + sign)).2 = (approxElem g t mode a).2 ∧
        ∀ neg v, IsCode (ftyFmt t) neg v (approxElem g t mode a).1 → IsCode (ftyFmt t) (!neg) (-v) (approxElem g t mode (a + sign)).1) ∧
  (∀ (v e : Int) (c : Nat) (n : Int), (v : ℝ) * 2 ^ e = n → -126 ≤ n → n ≤ 127 → IsCode fmtFp32 false (2 ^ n) (exp2s v e c).1 ∧ (exp2s v e c).2 = 0) ∧
  ∀ m l x c, m < 2 ^ 32 → l < 2 ^ 32 → x < 2 ^ 32 →
    let f := fmtFp32
    let nm := f.unpack m
    let nl := f.unpack l
    let nx := f.unpack x
    let y := osmx m l x c
    let z := osms m l x c
    let nan := nm.isNan || nl.isNan || nx.isNan
    let sig := when (nm.isSig || nl.isSig || nx.isSig) wINV
    (nan = true → y = ((0x7FC00000, 0x7FC00000, 0x7FC00000), sig) ∧ z = (0x7FC00000, sig)) ∧
    (nan = false →
      (∃ k ∈ [nm, nx], SameNum (f.unpack y.1.1) k) ∧ AtMost nm (f.unpack y.1.1) ∧ AtMost nx (f.unpack y.1.1) ∧
      ∃ rg : Nat × Word,
        (valOf nx ≤ valOf nm → rg = (0x3F800000, 0)) ∧
        (valOf nm < valOf nx → nm = .inf true ∨ nx = .inf false → rg = (0, 0)) ∧
        (valOf nm < valOf nx → nm ≠ .inf true → nx ≠ .inf false →
          ∃ v e : Int, (v : ℝ) * 2 ^ e = ratOf nm - ratOf nx ∧ rg = exp2s v e c) ∧
        y.1.2.2 = rg.1 ∧ ∃ w : Nat × Word, w.1 = y.1.2.1 ∧ y.2 = (rg.2 ||| w.2) ∧
          Delivers f .rne false (mulNum nl (f.unpack rg.1)).1 (mulNum nl (f.unpack rg.1)).2 w) ∧
    (nan = false →
      ∃ tg : Nat × Word,
        (valOf nx = valOf nm → tg = (0x3F800000, 0)) ∧
        (valOf nx ≠ valOf nm → nx = .inf true ∨ nm = .inf false → tg = (0, 0)) ∧
        (valOf nx ≠ valOf nm → nx ≠ .inf true → nm = .inf true ∨ nx = .inf false → nm ≠ .inf false → tg = (0x7F800000, 0)) ∧
        (∀ a b e k o h, nx = .fin a b e → nm = .fin k o h → valOf nx ≠ valOf nm →
          ∃ v e : Int, (v : ℝ) * 2 ^ e = ratOf nx - ratOf nm ∧ tg = exp2s v e c) ∧
        ∃ w : Nat × Word, w.1 = z.1 ∧ z.2 = (tg.2 ||| w.2) ∧
          Delivers f .rne false (addNum false nl (f.unpack tg.1)).1 (addNum false nl (f.unpack tg.1)).2 w)

/-! ## Loads and stores (R179 to R198) -/

/-- A load issues on the addresses `as`: with an active lane, canonical, aligned, translated and permitted, and with no earlier
acquire or overlapping scatter of the party still to be performed, it is outstanding with its destination pending, and completes. No
translation had to wait for a walker (R35). -/
def LoadIssues (i : Instr) (k : AccKind) (dest : Nat) (z : Size) (o : Option Ord) (pol : Policy)
    (as : Bool → Party → List (Nat × DWord)) : Prop :=
  ∀ s0 w s t q s1 ls, Executes i s0 w s t q → q.acquiring = false → as w.sl q ≠ [] →
    badAddress (s.tagOf t) (Size.bytes z) (as w.sl q) = none →
    s.translateAll t.core (s.tagOf t) (s.privileged t) .load (as w.sl q) = (s1, .ok ls) → s1.stuck = false →
    s1.conflicts q false ls (Size.bytes z) = false →
    exec i s0 = .next (s0.after i w (({ s1 with nextId := s1.nextId + 1 } : State).addAccess w
      (newAccess i w q s1.nextId k dest z o pol ls)))

/-- The lanes of a gather or a scatter with what their near translations give: a target, a fault, or nothing yet. -/
def nearLanes (s : State) (t : Team) (u : Use) (as : List (Nat × DWord)) : List LaneAcc :=
  as.map fun x => s.nearLane t.core (s.tagOf t) (s.privileged t) u x.1 x.2

/-- R184 to R187, R191: vld and sld; and the gathers, whose lanes without a near translation start walks: vldg waits for them
as an access, and faults only when no lane is left to wait for (R38); vldg.part reports them in the missed mask and reads the
others, at once where none is left. A vector load with no active lane has no effect. -/
def Obligations.LoadsIssue : Prop :=
  (∀ d a b o pol z, LoadIssues (.vld d a b o pol z) .vld d.toNat z o pol fun sl q => q.eaLanes sl a b) ∧
  (∀ d a b z o pol, LoadIssues (.sld d a b z o pol) .sld d.toNat z (some o) pol fun sl q => [(96, q.eaS sl a b)]) ∧
  (∀ d a b o pol z m s0 w s t q,
    let idle (i : Instr) : Prop := Executes i s0 w s t q → q.acquiring = false → q.active w.sl = 0 →
      exec i s0 = .next (s0.after i w s)
    idle (.vld d a b o pol z) ∧ idle (.vldg d a b o pol z) ∧ idle (.vldgPart d a b o pol z m)) ∧
  (∀ d a b o pol z s0 w s t q, Executes (.vldg d a b o pol z) s0 w s t q → q.acquiring = false →
    q.active w.sl ≠ 0 → badAddress (s.tagOf t) (Size.bytes z) (q.eaLanes w.sl a b) = none →
    let i := Instr.vldg d a b o pol z
    let ls := nearLanes s t .load (q.eaLanes w.sl a b)
    s.conflicts q false ls (Size.bytes z) = false →
    (failing ls = none ∨ ∃ x ∈ ls, x.tgt = none ∧ x.failed = none) →
    let s1 := s.startWalks t.core (s.tagOf t) true ls
    s1.stuck = false →
    exec i s0 = .next (s0.after i w (({ s1 with nextId := s1.nextId + 1 } : State).addAccess w
      (newAccess i w q s1.nextId .vldg d.toNat z o pol ls)))) ∧
  ∀ d a b o pol z m s0 w s t q, Executes (.vldgPart d a b o pol z m) s0 w s t q → q.acquiring = false →
    q.active w.sl ≠ 0 → badAddress (s.tagOf t) (Size.bytes z) (q.eaLanes w.sl a b) = none →
    let i := Instr.vldgPart d a b o pol z m
    let ls := nearLanes s t .load (q.eaLanes w.sl a b)
    let hits := ls.filter fun x => x.tgt.isSome
    failing ls = none → s.conflicts q false hits (Size.bytes z) = false →
    let s1 := s.startWalks t.core (s.tagOf t) false ls
    s1.stuck = false →
    ∃ missed : Mask, (∀ l, l < 96 → missed.getLsbD l = ls.any fun x => x.lane == l && x.tgt.isNone) ∧
      let s2 : State := { s1 with nextId := s1.nextId + 1 }
      exec i s0 = .next (s0.after i w (
        if hits = [] then
          s2.modParty w.tid w.p fun q => (q.setTriple w.sl m.toNat missed).raise (OrdForm.gather.eff o).warn
        else s2.addAccess w { newAccess i w q s1.nextId .vldg d.toNat z o pol hits with missed := some (m.toNat, missed) }))

/-- The lanes of an access all name readable memory of this device: no peer, no line that an engine owns or whose bank is
closed, no device register and no poison. -/
def ReadableLanes (s : State) (n : Nat) (ls : List LaneAcc) : Prop :=
  ∀ x ∈ ls, x.failed = none ∧ x.val = none ∧ ∃ g, x.tgt = some g ∧ g.peer = none ∧ g.pa % n = 0 ∧ s.owned g.pa = false ∧
    s.bankClosed g.pa = false ∧ regionOf g.pa ≠ .device ∧ s.poisoned g.pa n = false

/-- The bytes that a lane reads, as its core sees them. -/
def Sys2Proof.Machine.LaneAcc.coreValue (x : LaneAcc) (s : State) (core n : Nat) : DWord :=
  BitVec.ofNat 64 (s.coreBytes core ((x.tgt.map Target.pa).getD 0) n)

/-- A core's write-combining buffer is as its operations leave it: one entry a line, on lines of memory, each byte of the line
once. -/
def BufferOk (s : State) (core : Nat) : Prop :=
  ((s.wcbOf core).map WcbEntry.line).Nodup ∧
    ∀ e ∈ s.wcbOf core, regionOf (64 * e.line) ≠ .device ∧ (e.bytes.map Prod.fst).Pairwise (· < ·) ∧ ∀ x ∈ e.bytes, x.1 < 64

/-- R9, R53, R54, R184, R311: when the data of a load returns, every lane has read its bytes, little-endian, as its core sees
them; the load writes them to its destination, which is no longer pending. A strong load is performed at the home L2: its core's
buffered bytes of each line have drained to it, and an acquire at .dv.rem first drains every core's buffer. Here no page
migrates, no reduction waits and, for a strong load, the directory holds no store. -/
def Obligations.LoadsReturn : Prop :=
  ∀ s tid p id t q a, Map.find s.teams tid = some t → Map.find t.parties p = some q →
    (q.accesses.find? fun b => b.id == id) = some a → t.active = true → s.heldBack tid p q a = false →
    a.kind ∈ [AccKind.vld, .sld, .vldg] → s.migrations = [] → s.reductions = [] →
    let e := a.kind.form.eff (some a.ord)
    let s1 := if e.scope = .dvRem ∧ e.str = .acq then s.drainEvery fun _ => true else s
    let n := Size.bytes a.size
    ReadableLanes s1 n a.lanes → BufferOk s1 t.core → (e.str ≠ .wk → s1.heldStores = []) →
    let s2 := if e.str = .wk then s1 else
      a.lanes.foldl (fun s x => s.drain t.core fun e => e.line == ((x.tgt.map Target.pa).getD 0) / 64) s1
    exec (.memoryReadResponse tid p id) s = .next (s2.modParty tid p fun q => q.complete
      { a with lanes := a.lanes.map fun x => { x with val := some (x.coreValue s1 t.core n) } })

/-- A store issues on the addresses `as` with the data `data`: canonical, aligned, translated and permitted, with nothing of the
party in the way and, when it releases, with the release complete, its lanes are stored and it completes; POLICY and FALLBK are
raised. With no active lane only the release is left. -/
def StoreIssues (i : Instr) (z : Size) (o : Option Ord) (pol : Policy) (as : Bool → Party → List (Nat × DWord))
    (data : Bool → Party → Nat → DWord) : Prop :=
  ∀ s0 w s t q s1 s2 ls, Executes i s0 w s t q → q.acquiring = false →
    badAddress (s.tagOf t) (Size.bytes z) (as w.sl q) = none →
    s.translateStores t.core (s.tagOf t) (s.privileged t) (as w.sl q) = (s1, .ok ls) →
    s1.conflicts q true ls (Size.bytes z) = false → s1.devHold w.tid w.p q ls = false → s1.heldLines ls = false →
    (if (OrdForm.store.eff o).str = .rel then s1.release t.core w.tid w.p q (OrdForm.store.eff o).scope else (s1, none)) =
      (s2, none) →
    let r := if as w.sl q = [] then s2 else
      (s2.storeLanes t.core w.tid w.p (originOf w q i.word) (Size.bytes z)
        (ls.filterMap fun x => x.tgt.map fun g => (g, x.va, (data w.sl q x.lane).toNat))).modParty w.tid w.p fun q =>
          q.raise ((OrdForm.store.eff o).warn ||| lanesPolicy pol ls)
    r.stuck = false → exec i s0 = .next (s0.after i w r)

/-- R185, R188, R190, R191: vst and sst store the elements of the active lanes, taken from the register, or pair, named; sst of s0
stores zero, at any size. vsts stores
the lanes whose translation is near, in lane order, and starts the walks of the others: it completes when none is left, and is
outstanding otherwise. -/
def Obligations.StoresIssue : Prop :=
  (∀ d a b o pol z, StoreIssues (.vst d a b o pol z) z o pol (fun sl q => q.eaLanes sl a b)
    fun _ q l => if z = .d64 then q.pairV d.toNat l else (q.getV d.toNat l).setWidth 64) ∧
  (∀ d a b z o pol, StoreIssues (.sst d a b z o pol) z (some o) pol (fun sl q => [(96, q.eaS sl a b)])
    fun sl q _ => if d = 0 then 0 else if z = .d64 then q.pairS sl d.toNat else (q.getS sl d.toNat).setWidth 64) ∧
  (∀ d a b o pol z s0 w s t q, Executes (.vsts d a b o pol z) s0 w s t q → q.acquiring = false → q.active w.sl = 0 →
    exec (.vsts d a b o pol z) s0 = .next (s0.after (.vsts d a b o pol z) w s)) ∧
  ∀ d a b o pol z s0 w s t q s2 done, Executes (.vsts d a b o pol z) s0 w s t q → q.acquiring = false →
    q.active w.sl ≠ 0 → badAddress (s.tagOf t) (Size.bytes z) (q.eaLanes w.sl a b) = none →
    let i := Instr.vsts d a b o pol z
    let ls := nearLanes s t .store (q.eaLanes w.sl a b)
    let s1 := s.startWalks t.core (s.tagOf t) true ls
    let acc := { newAccess i w q s1.nextId .vsts d.toNat z o pol ls with
      data := ls.map fun x => (x.lane, if z = .d64 then q.pairV d.toNat x.lane else (q.getV d.toNat x.lane).setWidth 64) }
    failing ls = none → s.conflicts q true ls (Size.bytes z) = false → s.devHold w.tid w.p q ls = false →
    ({ s1 with nextId := s1.nextId + 1 } : State).performLanes t.core w.tid w.p acc [] ls = (s2, done) →
    failing done = none → s2.stuck = false →
    exec i s0 = .next (s0.after i w (
      if done.all fun x => x.val.isSome then
        s2.modParty w.tid w.p fun q => q.raise ((OrdForm.scatter.eff o).warn ||| lanesPolicy pol done)
      else s2.addAccess w { acc with lanes := done }))

/-- The byte that the last of several stores of `n` bytes gives an address, if one of them covers it. -/
def lastStored (n : Nat) (ls : List (Target × Nat × Nat)) (a : Nat) : Option Byte :=
  ls.foldl (fun r x => if x.1.pa ≤ a ∧ a < x.1.pa + n then some (BitVec.ofNat 8 (x.2.2 / 256 ^ (a - x.1.pa))) else r) none

/-- R9, R53, R188: what the core reads after an instruction's stores, at every address: the bytes stored there, little-endian,
those of the last lane winning, and everywhere else what it read before. Here no page migrates, no reduction waits, no engine
command owns a line that the stores or the core's buffer name, the directory holds no store, and the party's DEV writes to peers are
performed. -/
def Obligations.StoresWriteBytes : Prop :=
  ∀ (s : State) core tid p o n ls, s.migrations = [] → s.reductions = [] → n ∈ [1, 2, 4, 8] → BufferOk s core →
    s.heldStores = [] → s.lastDev tid p = none → (∀ e ∈ s.wcbOf core, s.owned (64 * e.line) = false) →
    (∀ x ∈ ls, x.1.peer = none ∧ x.1.pa % n = 0 ∧ regionOf x.1.pa ≠ .device ∧ s.owned x.1.pa = false) →
    ∀ a, (s.storeLanes core tid p o n ls).coreByte core a = (lastStored n ls a).getD (s.coreByte core a)

/-- R192, R193: lld, lst, ald and ast. Aligned and inside the allocation, lld reads and lst writes the local store's bytes; ald
and ast move a row of an accumulator tile that no matrix operation holds, lanes beyond column 127 left out. With no active lane lld
and ald have no effect (R180). -/
def Obligations.LocalAndTileAccess : Prop :=
  (∀ d a b z s0 w s t q, Executes (.lld d a b z) s0 w s t q → q.acquiring = false → q.active w.sl = 0 →
    exec (.lld d a b z) s0 = .next (s0.after (.lld d a b z) w s)) ∧
  (∀ wide d a c s0 w s t q, Executes (.ald wide d a c) s0 w s t q → t.tileGate wide false c.toNat = none → q.active w.sl = 0 →
    exec (.ald wide d a c) s0 = .next (s0.after (.ald wide d a c) w s)) ∧
  (∀ d a b z s0 w s t q, Executes (.lld d a b z) s0 w s t q → q.acquiring = false → q.active w.sl ≠ 0 →
    t.lsCheck (Size.bytes z) (q.lsLanes w.sl a b) = none →
    (∀ x ∈ q.lsLanes w.sl a b, t.lsPoisoned x.2 (Size.bytes z) = false) →
    exec (.lld d a b z) s0 = .next (s0.after (.lld d a b z) w (s.modParty w.tid w.p fun q' =>
      let v (l : Nat) : DWord := BitVec.ofNat 64 (t.lsRead (q.lsOffset w.sl a b l) (Size.bytes z))
      if z = .d64 then q'.setPairV d.toNat (q.active w.sl) v
      else q'.setV d.toNat (q.active w.sl) fun l => Size.extend z (v l)))) ∧
  (∀ d a b z s0 w s t q, Executes (.lst d a b z) s0 w s t q → q.acquiring = false →
    t.lsCheck (Size.bytes z) (q.lsLanes w.sl a b) = none →
    ∃ u : Team, exec (.lst d a b z) s0 = .next (s0.after (.lst d a b z) w (s.modTeam w.tid fun _ => u)) ∧
      ({ u with ls := t.ls, lsPoison := t.lsPoison } : Team) = t ∧
      ∀ k, Store.read u.ls k = ((q.lsLanes w.sl a b).foldl (fun r x =>
        if x.2 ≤ k ∧ k < x.2 + Size.bytes z then
          (if z = .d64 then q.pairV d.toNat x.1 else (q.getV d.toNat x.1).setWidth 64).extractLsb' (8 * (k - x.2)) 8
        else r) (Store.read t.ls k))) ∧
  (∀ wide d a c s0 w s t q, Executes (.ald wide d a c) s0 w s t q → t.tileGate wide false c.toNat = none → q.active w.sl ≠ 0 →
    let row := (fld (q.getS w.sl a.toNat) 0 7).toNat
    let j0 := (fld (q.getS w.sl a.toNat) 8 7).toNat
    (∀ x ∈ q.tileLanes w.sl a, accKey c.toNat row x.2 ∉ t.accPoison ∧ (wide = true → accKey (c.toNat + 1) row x.2 ∉ t.accPoison)) →
    ∃ m : Mask, (∀ l, l < 96 → m.getLsbD l = (inMask (q.active w.sl) l && decide (j0 + l < 128))) ∧
      exec (.ald wide d a c) s0 = .next (s0.after (.ald wide d a c) w (s.modParty w.tid w.p fun q =>
        let q := q.setV d.toNat m fun l => t.tile c.toNat row (j0 + l)
        if wide then q.setV (d.toNat + 1) m fun l => t.tile (c.toNat + 1) row (j0 + l) else q))) ∧
  ∀ wide d a c s0 w s t q, Executes (.ast wide d a c) s0 w s t q → t.tileGate wide true c.toNat = none →
    let row := (fld (q.getS w.sl a.toNat) 0 7).toNat
    exec (.ast wide d a c) s0 = .next (s0.after (.ast wide d a c) w (s.modTeam w.tid fun t =>
      (q.tileLanes w.sl a).foldl (fun t x =>
        let t := t.setTile c.toNat row x.2 (q.getV d.toNat x.1)
        if wide then t.setTile (c.toNat + 1) row x.2 (q.getV (d.toNat + 1) x.1) else t) t))

/-- R52, R56, R172, R195 to R198, R209, R305, R319: pref changes nothing but translations, and FALLBK for .cn; fence completes when the party's reads are
performed and, where it releases, when the release is; cclean and cinval complete when the pages of the range that translate have
been cleaned and the directory holds no store of the core. When a release is complete, every access of the party is performed
and, beyond the party's own scope, no peer request, no pending reduction of its own and no store stream of its own that has ended is
left, nor, for a scope of a cluster or wider, a buffered store of its own or one of its core's at the directory. -/
def Obligations.FencesAndReleases : Prop :=
  (∀ a b pol s0 w s t q, Executes (.pref a b pol) s0 w s t q →
    ∃ s1 : State, ({ s1 with tlbCore := s.tlbCore, tlbCluster := s.tlbCluster, tlbDie := s.tlbDie } : State) = s ∧
      (pol = .cn → s1 = s) ∧
      exec (.pref a b pol) s0 = .next (s0.after (.pref a b pol) w (s1.modParty w.tid w.p fun q' =>
        { q' with warn := q'.warn ||| when (pol == .cn) wFALLBK }))) ∧
  (∀ c s0 w s t q, Executes (.fence .acq c) s0 w s t q → q.accesses = [] →
    exec (.fence .acq c) s0 = .next (s0.after (.fence .acq c) w s)) ∧
  (∀ x c s0 w s t q s1, Executes (.fence x c) s0 w s t q → x ≠ .acq → (x ≠ .rel → q.accesses = []) →
    s.release t.core w.tid w.p q c = (s1, none) → s1.stuck = false →
    exec (.fence x c) s0 = .next (s0.after (.fence x c) w s1)) ∧
  (∀ a b c s0 w s t q s1, q.acquiring = false →
    s.cleanUnits t.core (s.tagOf t) (s.privileged t) (q.base w.sl a).toNat (q.bS w.sl b).toNat
      ((q.bS w.sl b).toNat / 65536 + 2) = (s1, none) → s1.stuck = false → s1.holdsOf t.core = false →
    (Executes (.cclean a b c) s0 w s t q → exec (.cclean a b c) s0 = .next (s0.after (.cclean a b c) w s1)) ∧
    (Executes (.cinval a b c) s0 w s t q → exec (.cinval a b c) s0 = .next (s0.after (.cinval a b c) w s1))) ∧
  ∀ (s s1 : State) core tid p q scope, s.release core tid p q scope = (s1, none) →
    q.accesses = [] ∧ (scope ≠ .pt → q.remote = [] ∧ q.draining = none ∧ ∀ e ∈ s1.reductions, (tid, p) ∉ e.owners) ∧
    (scope ≠ .pt → scope ≠ .tm → (∀ e ∈ s1.wcbOf core, (tid, p) ∉ e.owners) ∧ ∀ h ∈ s1.heldStores, h.core ≠ core)

/-! ## Atomics and reductions (R315 to R323) -/

/-- R247, R316 to R319: what an element `old` becomes under one operation with the operands `xs` combined: integers wrap, a
floating-point sum is exact and rounded once with RNE, and the least or greatest of floating-point values is one of them, or the
canonical NaN. -/
def AppliedOnce (op : AOp) (ty : ATy) (old : Nat) (xs : List Nat) (new : Nat) : Prop :=
  let b := 8 * atyBytes ty
  let f := if atyBytes ty = 8 then fmtFp64 else fmtFp32
  let float : Prop := ty = .f32 ∨ ty = .f64
  let all := old :: xs
  let ns := all.map f.unpack
  let v (n : Nat) : Int := if ty = .i32 ∨ ty = .i64 then (BitVec.ofNat b n).toInt else n
  let nan := ∃ n ∈ ns, n.isNan = true
  match op with
  | .add => new = all.sum % 2 ^ b
  | .and => new = xs.foldl Nat.land old
  | .or => new = xs.foldl Nat.lor old
  | .xor => new = xs.foldl Nat.xor old
  | .min | .max =>
    (¬float → new ∈ all ∧ ∀ x ∈ all, if op = .min then v new ≤ v x else v x ≤ v new) ∧
    (float → (nan → new = canonNaN f) ∧
      (¬nan → new ∈ all ∧ ∀ n ∈ ns, if op = .min then AtMost (f.unpack new) n else AtMost n (f.unpack new)))
  | .fadd =>
    (nan ∨ (Sys2Proof.Num.inf true ∈ ns ∧ Sys2Proof.Num.inf false ∈ ns) → new = canonNaN f) ∧
    (∀ neg, ¬nan → Sys2Proof.Num.inf neg ∈ ns → Sys2Proof.Num.inf (!neg) ∉ ns → f.unpack new = .inf neg) ∧
    ((∀ n ∈ ns, ∃ s m e, n = .fin s m e) →
      let sum := (ns.map ratOf).sum
      (∀ neg, sum ≠ 0 → (neg = true ↔ sum < 0) → ∃ fl, RoundsTo f .rne false false neg sum (new, fl)) ∧
      (sum = 0 → IsCode f (ns.all fun n => n.isZero && n.neg) 0 new))
  | .exch | .cas => True

/-- R316, R317: what an atomic leaves in memory, from the old value, the compare value and the operand. -/
def Obligations.AtomicResults : Prop :=
  (∀ op ty old c x, ty ∈ [ATy.f32, .f64] → op ∉ [AOp.add, .exch, .cas] → old < 2 ^ (8 * atyBytes ty) → x < 2 ^ (8 * atyBytes ty) →
    AppliedOnce op ty old [x] (atomNew op ty old c x)) ∧
  (∀ ty old c x, atomNew .exch ty old c x = x ∧ atomNew .cas ty old c x = if old = c then x else old) ∧
  ∀ op ty old c x, ty ∈ [ATy.i32, .n32, .i64, .n64] → op ≠ .fadd →
    let b := 8 * atyBytes ty
    let signed : Bool := ty == .i32 || ty == .i64
    let v (n : Nat) : Int := if signed then (BitVec.ofNat b n).toInt else n
    old < 2 ^ b → c < 2 ^ b → x < 2 ^ b →
    atomNew op ty old c x = match op with
      | .add => (old + x) % 2 ^ b
      | .min => if v x < v old then x else old
      | .max => if v old < v x then x else old
      | .and => Nat.land old x
      | .or => Nat.lor old x
      | .xor => Nat.xor old x
      | .exch => x
      | .cas => if old = c then x else old
      | .fadd => old

/-- The warn bits of an atomic's operation (R172): FALLBK for a bitwise operation on a floating type and, of a reduction, for one
that never merges. -/
def atomWarn (op : AOp) (ty : ATy) (red : Bool) : Word :=
  when (((ty == .f32 || ty == .f64) && (op == .and || op == .or || op == .xor)) || (red && (op == .exch || op == .cas))) wFALLBK

/-- R315, R322: an atomic of `i` on the addresses `as` with the operands `data`: canonical, aligned, translated, on memory that can
do it, with nothing in its way and its release complete, its lanes are applied one after the other and the old values returned, at
once for this device's memory, otherwise with the peers' answers. An acquire at .dv.rem first drains every core's buffer, of which the directory then holds nothing (R311).
With no active lane only the release is left. -/
def AtomicIssues (i : Instr) (kind : AccKind) (op : AOp) (ty : ATy) (o : Ord) (dest : Nat)
    (as : Bool → Party → List (Nat × DWord)) (data : Bool → Party → Nat → AtomLane) : Prop :=
  ∀ s0 w s t q s1 s2 ls, Executes i s0 w s t q → q.acquiring = false →
    badAddress (s.tagOf t) (atyBytes ty) (as w.sl q) = none →
    s.translateStores t.core (s.tagOf t) (s.privileged t) (as w.sl q) = (s1, .ok ls) → atomTargets op ty ls = none →
    s1.conflicts q true ls (atyBytes ty) = false → s1.devHold w.tid w.p q ls = false → s1.heldLines ls = false →
    let e := OrdForm.atomic.eff (some o)
    (if e.str = .rel ∨ e.str = .ar then s1.release t.core w.tid w.p q e.scope else (s1, none)) = (s2, none) →
    (as w.sl q = [] → s2.stuck = false → exec i s0 = .next (s0.after i w s2)) ∧
    ∀ s4 done, as w.sl q ≠ [] →
      let promotes : Prop := e.scope = .dvRem ∧ e.str = .acq
      let s3 := if promotes then s2.drainEvery fun _ => true else s2
      let a := { newAccess i w q s3.nextId kind dest (if atyBytes ty = 8 then .d64 else .w32) (some o) .cn ls with
        fall := atomWarn op ty false }
      (promotes → s3.heldStores = []) →
      ({ s3 with nextId := s3.nextId + 1 } : State).atomLanes t.core w.tid w.p a op ty []
        (ls.map fun x => (x, data w.sl q x.lane)) = (s4, .ok done) → s4.stuck = false →
      exec i s0 = .next (s0.after i w (
        if ({ a with lanes := done } : Access).ended then s4.modParty w.tid w.p fun q => q.complete { a with lanes := done }
        else s4.addAccess w { a with lanes := done }))

/-- R315, R318 to R323: vatom and satom; vredm, whose lanes enter the reduction queues of their slices, or are applied at once when
its strength is neither .st nor .rel; lredm on the local store, the lanes that name one offset combined into one operation, those of
exch and cas applied one after the other. -/
def Obligations.AtomicsIssue : Prop :=
  (∀ op ty o d a b, AtomicIssues (.vatom op ty o d a b) .vatom op ty o d.toNat (fun sl q => q.eaLanes sl a b)
    fun _ q => q.atomLane op ty d.toNat) ∧
  (∀ op ty o d a b, AtomicIssues (.satom op ty o d a b) .satom op ty o d.toNat (fun sl q => [(96, q.eaS sl a b)])
    fun sl q _ => q.atomScalar sl op ty d.toNat) ∧
  (∀ op ty o d a b s0 w s t q s1 s2 ls, Executes (.vredm op ty o d a b) s0 w s t q → q.acquiring = false →
    badAddress (s.tagOf t) (atyBytes ty) (q.eaLanes w.sl a b) = none →
    s.translateStores t.core (s.tagOf t) (s.privileged t) (q.eaLanes w.sl a b) = (s1, .ok ls) →
    atomTargets op ty ls = none → s1.conflicts q true ls (atyBytes ty) = false → s1.devHold w.tid w.p q ls = false →
    s1.heldLines ls = false →
    let i := Instr.vredm op ty o d a b
    let e := OrdForm.atomic.eff (some o)
    (if e.str = .rel ∨ e.str = .ar then s1.release t.core w.tid w.p q e.scope else (s1, none)) = (s2, none) →
    (q.active w.sl = 0 → s2.stuck = false → exec i s0 = .next (s0.after i w s2)) ∧
    ∀ s3, q.active w.sl ≠ 0 →
      let queue : Bool := e.str == .st || e.str == .rel
      (if queue then s2 else s2.reachLanes ls (atyBytes ty)).hostLanes ls = (s3, none) →
      let promotes : Prop := e.scope = .dvRem ∧ e.str = .acq
      let s4 := if promotes then s3.drainEvery fun _ => true else s3
      (promotes → s4.heldStores = []) →
      let s5 := s4.redLanes t.core w.tid w.p (originOf w q i.word) (e.str == .acq || e.str == .ar) op ty
        (ls.filterMap fun x => x.tgt.map fun g => (g, x.va, q.atomLane op ty d.toNat x.lane))
      let s6 := if queue then s5 else s5.applyReductions fun e => e.owners.contains (w.tid, w.p)
      s6.stuck = false →
      exec i s0 = .next (s0.after i w (s6.modParty w.tid w.p fun q => q.raise (e.warn ||| atomWarn op ty true)))) ∧
  ∀ op ty o d a b s0 w s t q s1, Executes (.lredm op ty o d a b) s0 w s t q → q.acquiring = false →
    t.lsCheck (atyBytes ty) (q.lsLanes w.sl a b) = none →
    let i := Instr.lredm op ty o d a b
    let e := OrdForm.atomic.eff (some o)
    let wide : Bool := e.scope != .pt && e.scope != .tm
    (if e.str = .rel ∨ e.str = .ar then s.release t.core w.tid w.p q (if wide then .tm else e.scope) else (s, none)) =
      (s1, none) → s1.stuck = false → Map.find s1.teams w.tid = some t →
    (q.active w.sl = 0 → exec i s0 = .next (s0.after i w s1)) ∧
    (q.active w.sl ≠ 0 →
      ∃ u : Team, exec i s0 = .next (s0.after i w ((s1.modTeam w.tid fun _ => u).modParty w.tid w.p fun q =>
          q.raise (e.warn ||| when wide wFALLBK ||| atomWarn op ty true))) ∧
        ({ u with ls := t.ls } : Team) = t ∧
        (∀ k, (∀ x ∈ q.lsLanes w.sl a b, k < x.2 ∨ x.2 + atyBytes ty ≤ k) → Store.read u.ls k = Store.read t.ls k) ∧
        (∀ k ∈ maskLanes (q.active w.sl),
          let at_ := q.lsOffset w.sl a b k
          let xs := ((maskLanes (q.active w.sl)).filter fun l => q.lsOffset w.sl a b l == at_).map fun l => q.atomLane op ty d.toNat l
          let old := t.lsRead at_ (atyBytes ty)
          let new := u.lsRead at_ (atyBytes ty)
          (op ≠ .exch → op ≠ .cas → (op = .add → ty ∉ [ATy.f32, .f64]) → (op = .fadd → ty ∈ [ATy.f32, .f64]) →
            AppliedOnce op ty old (xs.map AtomLane.x) new) ∧
          (op = .exch → some new = (xs.map AtomLane.x).getLast?) ∧
          (op = .cas → new = xs.foldl (fun m x => if m = x.c then x.x else m) old)))

/-! ## Copies and streams (R199 to R209) -/

/-- A command as it enters the queue of a channel: with its place in the order of R112, and FALLBK for the scope .pt. -/
def queuedCopy (c : CopyCmd) (s : State) (t : Team) (x : Channel) (scope : Scope) : CopyCmd :=
  { c with place := s.placeNow t.core x.phys 0, flags := when (scope == .pt) wFALLBK }

/-- R199 to R204: cpy, cpg, cps and cpm. With handles that R345 accepts, shapes and sizes that R201 to R204 allow (a row of cps that
is not written counts nothing), room on the channel and the release of R105 complete, the command enters its channel, and the
instruction completes; cpm also takes a free slot of every receiver. -/
def Obligations.CopiesIssue : Prop :=
  (∀ d ch hd hs scope s0 w s t q s1 s2 s3 src dst x,
    let i := Instr.cpy d ch hd hs scope
    Executes i s0 w s t q → s.copyHandle w.tid hd.toNat = (s1, .ok dst) → s1.copyHandle w.tid hs.toNat = (s2, .ok src) →
    badFormats src (some dst) = false → hCols dst = hCols src → hRows dst = hRows src → hRows dst * hRowLen dst ≤ 2 ^ 24 →
    t.endRange dst = none → t.endRange src = none →
    (hFmt src ≠ hFmt dst → misalignedEnd dst = none ∧ misalignedEnd src = none) →
    Map.find t.channels ch.toNat = some x → x.cmds.length < 4 →
    s2.release t.core w.tid w.p q (copyScope scope) = (s3, none) →
    let r := s3.queueCopy w ch.toNat (queuedCopy (newCopy i w q s2 .cpy src dst d scope [] []) s3 t x scope)
    r.stuck = false → exec i s0 = .next (s0.after i w r)) ∧
  (∀ (gather : Bool) d ch hd hs scope v s0 w s t q s1 s2 s3 src dst x,
    let i := if gather then Instr.cpg d ch hd hs scope v else Instr.cps d ch hd hs scope v
    let index := (maskLanes (q.active w.sl)).map fun l => (l, q.getV v.toNat l)
    Executes i s0 w s t q →
    s.copyHandle w.tid hd.toNat = (s1, .ok dst) → s1.copyHandle w.tid hs.toNat = (s2, .ok src) →
    badFormats src (some dst) = false → hCols dst = hCols src → hFmt dst = hFmt src →
    (if gather then index.length else (index.filter fun y => y.2 != 0xFFFFFFFF).length) * hRowLen dst ≤ 2 ^ 24 →
    t.endRange dst = none → t.endRange src = none →
    (∀ y ∈ index, y.1 < hRows (if gather then dst else src) ∧
      (y.2 = 0xFFFFFFFF ∨ y.2.toNat < hRows (if gather then src else dst))) →
    Map.find t.channels ch.toNat = some x → x.cmds.length < 4 →
    s2.release t.core w.tid w.p q (copyScope scope) = (s3, none) →
    let r := s3.queueCopy w ch.toNat (queuedCopy (newCopy i w q s2 (if gather then .cpg else .cps) src dst d scope index []) s3 t x scope)
    r.stuck = false → exec i s0 = .next (s0.after i w r)) ∧
  ∀ d ch hs scope m s0 w s t q s1 s2 src x n,
    let i := Instr.cpm d ch hs scope m
    let mask := (fld (q.getS w.sl m.toNat) 0 4).toNat
    let ms := maskMembers mask
    let count (k : Nat) : Nat := (Map.find t.sent k).getD 0
    Executes i s0 w s t q → s.copyHandle w.tid hs.toNat = (s1, .ok src) → badFormats src none = false →
    s1.node? t = some n → hRows src * hRowLen src ≤ 2 ^ 24 → (ms ≠ [] → hRows src * hRowLen src ≤ n.rsize * 64) →
    t.endRange src = none → (∀ k ∈ ms, t.other k = true ∧ Store.read t.free k ≠ 0) →
    Map.find t.channels ch.toNat = some x → x.cmds.length < 4 →
    s1.release t.core w.tid w.p q (copyScope scope) = (s2, none) →
    let r := (s2.queueCopy w ch.toNat
      (queuedCopy (newCopy i w q s1 (.cpm mask) src src d scope [] (ms.map fun k => (k, count k % n.rslots))) s2 t x scope)).modTeam
        w.tid fun t =>
          { t with
            free := ms.foldl (fun f k => Store.write f k (Store.read f k - 1)) t.free
            sent := ms.foldl (fun f k => Map.set f k ((Map.find f k).getD 0 + 1)) t.sent }
    r.stuck = false → exec i s0 = .next (s0.after i w r)

/-- R116, R205 to R209: the channel pointers and the streams. cpwp reads WPTR, at once or when it has reached its target; it reads the
receive pointer from a member and gives slots back to one, and one whose team is no longer there takes none; cpcan cancels every
incomplete command. qbind binds its port to the tile at the first element, under the slot's rounding mode, once nothing pushed to the
port is left to write and, of a store port, the writes are performed and the release at the scope of its bind is made; qclose
unbinds a port under the same conditions, a load port with what its stream has read ahead. -/
def Obligations.ChannelsAndStreams : Prop :=
  (∀ d ch s0 w s t q x, Executes (.cpwpRead d ch) s0 w s t q → Map.find t.channels ch.toNat = some x →
    exec (.cpwpRead d ch) s0 =
      .next (s0.after (.cpwpRead d ch) w (s.modParty w.tid w.p fun q => q.setS w.sl d.toNat x.wptr))) ∧
  (∀ d ch k s0 w s t q x, Executes (.cpwpWait d ch k) s0 w s t q → Map.find t.channels ch.toNat = some x →
    (let target := q.getS w.sl k.toNat
     let ahead := ((target.toNat / 2 ^ 25) + 128 - x.wptr.toNat / 2 ^ 25) % 128
     if ahead = 0 then x.cmds = [] ∨ target.toNat % 2 ^ 25 ≤ x.wptr.toNat % 2 ^ 25 else 64 ≤ ahead) →
    exec (.cpwpWait d ch k) s0 =
      .next (s0.after (.cpwpWait d ch k) w (s.modParty w.tid w.p fun q => q.setS w.sl d.toNat x.wptr))) ∧
  (∀ m k s0 w s t q u v n, Executes (.cpwpAck m k) s0 w s t q → t.other m.toNat = true → s.memberTeam t m.toNat = some u →
    Map.find s.teams u = some v → s.node? t = some n →
    (Store.read v.free t.vcore).toNat + (q.getS w.sl k.toNat).toNat ≤ n.rslots →
    exec (.cpwpAck m k) s0 = .next (s0.after (.cpwpAck m k) w (s.modTeam u fun x =>
      { x with free := Store.write x.free t.vcore (Store.read v.free t.vcore + q.getS w.sl k.toNat) }))) ∧
  (∀ m k s0 w s t q, Executes (.cpwpAck m k) s0 w s t q → t.other m.toNat = true → s.memberTeam t m.toNat = none →
    exec (.cpwpAck m k) s0 = .next (s0.after (.cpwpAck m k) w s)) ∧
  (∀ d m s0 w s t q, Executes (.cpwpRecv d m) s0 w s t q → t.other m.toNat = true →
    exec (.cpwpRecv d m) s0 =
      .next (s0.after (.cpwpRecv d m) w (s.modParty w.tid w.p fun q => q.setS w.sl d.toNat (Store.read t.recv m.toNat)))) ∧
  (∀ ch s0 w t q s, Issues (.cpcan ch) s0 w t q s →
    exec (.cpcan ch) s0 = .next (s0.after (.cpcan ch) w (s.modTeam w.tid fun t =>
      { t with channels := Map.update t.channels ch.toNat fun x =>
          { x with cmds := x.cmds.map fun c => { c with cancelled := true } } }))) ∧
  (∀ n h scope s0 w s t q s1 s2 s3 hd,
    let i := Instr.qbind n h scope
    Executes i s0 w s t q → s.copyHandle w.tid h.toNat = (s1, .ok hd) →
    hFmt hd ≠ 1 → hFmt hd ≠ 0xE → q.storing n.toNat = false → s1.closeWait t.core w.tid w.p q n.toNat = (s2, none) →
    s2.release t.core w.tid w.p q (copyScope scope) = (s3, none) →
    let r := (s3.closeLoad w.tid w.p n.toNat).modParty w.tid w.p fun q' =>
      { q' with
        warn := q'.warn ||| when (scope == .pt) wFALLBK
        ports := Map.set q'.ports n.toNat
          { kind := if n.toNat < 2 then .load else .store, handle := hd, pos := 0,
            rnd := (fld (q.slot w.sl).mode 0 3).toNat, sub := (fld (q.slot w.sl).mode 4 2).toNat, scope := copyScope scope,
            origin := originOf w q i.word, groups := [], unwritten := [], ended := false } }
    r.stuck = false → exec i s0 = .next (s0.after i w r)) ∧
  ∀ n s0 w s t q,
    let i := Instr.qclose n
    Executes i s0 w s t q → q.storing n.toNat = false →
    (Map.find q.ports n.toNat = none → exec i s0 = .next (s0.after i w s)) ∧
    ∀ x, Map.find q.ports n.toNat = some x →
      (∀ s1, x.kind = .store → s.closeWait t.core w.tid w.p q n.toNat = (s1, none) → s1.stuck = false →
        exec i s0 = .next (s0.after i w (s1.modParty w.tid w.p fun q => { q with ports := Map.drop q.ports n.toNat }))) ∧
      (x.kind ≠ .store → (s.closeLoad w.tid w.p n.toNat).stuck = false →
        exec i s0 = .next (s0.after i w (s.closeLoad w.tid w.p n.toNat)))

/-! ## The stream unit and the neighbour engine (R210 to R217) -/

/-- A command of the sparse stream unit: its block of `n` bytes is read and it enters its cluster's unit with its status
register pending, once the block's address is a multiple of 64, fewer than four of the core's commands stand there and the
drain of R210 is complete. Its values are those of the registers at issue, and it stands in the order of R112. -/
def StreamIssues (i : Instr) (kind : SsuKind) (d a b : SReg) (n : Nat) : Prop :=
  ∀ s0 w s t q s1 s2 bs bad, Executes i s0 w s t q → (q.base w.sl a).toNat % 64 = 0 →
    (((Map.find s.ssu (clusterOf t.core)).getD []).filter fun c => c.core == t.core).length < 4 →
    s.release t.core w.tid w.p q .dv = (s1, none) →
    s1.engineRead (some t.core) (s1.tagOf t) (s1.privileged t) (q.base w.sl a).toNat n = (s2, .ok (bs, bad)) →
    s2.stuck = false →
    ∃ (c : SsuCmd) (s3 : State), (s3 = s2 ∨ kind = .spx ∧ s3 = s2.useFree) ∧
      c.id = s2.nextId ∧ c.tid = w.tid ∧ c.core = t.core ∧ c.kind = kind ∧ c.block = bs ∧ c.bad = bad ∧ c.sd = d.toNat ∧
      c.len0 = q.getS w.sl b.toNat ∧ c.len1 = q.getS w.sl (b.toNat + 1) ∧ c.place = s2.placeNow t.core 8 0 ∧
      c.rnd = (fld (q.slot w.sl).mode 0 3).toNat ∧ c.sub = (fld (q.slot w.sl).mode 4 2).toNat ∧
      c.origin = originOf w q i.word ∧ c.ended = none ∧
      exec i s0 = .next (s0.after i w (({ s3 with
        nextId := s3.nextId + 1
        ssu := Map.set s3.ssu (clusterOf t.core) ((Map.find s.ssu (clusterOf t.core)).getD [] ++ [c]) } : State).modParty
          w.tid w.p fun q =>
            if d = 0 then q else { q with pending := q.pending ++ [{ kind := 1, num := d.toNat, op := c.id }] }))

/-- R210 to R217: ssint, ssmerge, ssscan and spx; nbbin and nbpairs, which enter their cluster's neighbour engine, nbpairs with its
load port bound to its stream of pairs, after closing what stood there; nbstat. -/
def Obligations.EngineCommands : Prop :=
  (∀ d a b f, StreamIssues (.ssint d a b f) (.int f) d a b 64) ∧
  (∀ d a b int keepz c, StreamIssues (.ssmerge d a b int keepz c) (.merge int keepz c) d a b 64) ∧
  (∀ d a b, StreamIssues (.ssscan d a b) .scan d a b 64) ∧
  (∀ d a, StreamIssues (.spx d a) .spx d a 0 128) ∧
  (∀ (port : Option Bool) (d a : SReg) s0 w s t q s1 s2 bs bad,
    let i := match port with | none => Instr.nbbin d a | some x => Instr.nbpairs d a x
    let n : Option Nat := port.map fun x => if x then 1 else 0
    Executes i s0 w s t q → (q.base w.sl a).toNat % 64 = 0 → ((Map.find s.ne (clusterOf t.core)).getD []).length < 8 →
    s.release t.core w.tid w.p q .dv = (s1, none) →
    s1.engineRead (some t.core) (s1.tagOf t) (s1.privileged t) (q.base w.sl a).toNat 64 = (s2, .ok (bs, bad)) →
    (port = none → gridOvf bs = 0xFFFF ∨ (s2.edgeTo t (gridOvf bs)).isSome = true) →
    let s3 := match n with | some n => s2.closeLoad w.tid w.p n | none => s2
    s3.stuck = false →
    ∃ c : NeCmd, c.id = s3.nextId ∧ c.desc = bs ∧ c.sd = d.toNat ∧ c.tid = w.tid ∧ c.core = t.core ∧ c.port = n ∧
      c.place = s3.placeNow t.core 9 0 ∧ c.origin = originOf w q i.word ∧ c.pairs = none ∧ c.ended = none ∧
      (port.isSome = true → c.owned = []) ∧
      exec i s0 = .next (s0.after i w (({ s3 with
        nextId := s3.nextId + 1
        ne := Map.set s3.ne (clusterOf t.core) ((Map.find s3.ne (clusterOf t.core)).getD [] ++ [c]) } : State).modParty
          w.tid w.p fun q =>
            { q with
              pending := if d = 0 then q.pending else q.pending ++ [{ kind := 1, num := d.toNat, op := c.id }]
              ports := match n with
                | some n => Map.set q.ports n
                    { kind := .pairs, handle := 0, pos := 0, rnd := 0, sub := 0, scope := .dv, origin := c.origin, groups := [],
                      unwritten := [], ended := false }
                | none => q.ports }))) ∧
  ∀ d s0 w s t q, Executes (.nbstat d) s0 w s t q →
    exec (.nbstat d) s0 =
      .next (s0.after (.nbstat d) w (s.modParty w.tid w.p fun q => q.setS w.sl d.toNat t.neStatus))

/-! ## Convoys (R324 to R334) -/

/-- A convoy or view as cvopen opens it, stamped with the time in nanoseconds. -/
def openedSlot (s : State) (tid : Nat) (view : Bool) (cid : BitVec 24) (ver : Word) : CvSlot :=
  { view := view, tid := tid, cid := cid, ver := ver, stamp := BitVec.ofNat 64 s.ns, lost := false, state := .opened,
    lines := [], opener := none, closing := none }

/-- R324, R330 to R334: the convoy instructions. cvopen takes some free slot of the core, and for a convoy at home some free slot of
the device's table with its next version, whichever they are; at a home that is a peer it asks, and completes when the answer has
come. cvstat reads a token's state, 0 for a freed slot; cvclose of a view that no cvld of the team still reads frees it, of a convoy whose
stores at peers are performed begins its commit, asking every peer that holds a line; cvst stores under the convoy; cvld reads under the view. -/
def Obligations.ConvoysIssue : Prop :=
  (∀ d a s0 w s t q, Executes (.cvopen d a true) s0 w s t q → s.opening t.core w = none →
    (∃ k, k < 16 ∧ Map.find s.cvSlots (cvKey t.core k) = none) →
    ∃ k, k < 16 ∧ Map.find s.cvSlots (cvKey t.core k) = none ∧
      exec (.cvopen d a true) s0 = .next (s0.after (.cvopen d a true) w (({ s with
        free := s.free + 1
        cvSlots := Map.set s.cvSlots (cvKey t.core k) (openedSlot s w.tid true 0 0) } : State).modParty w.tid w.p fun q =>
          q.setS w.sl d.toNat (BitVec.ofNat 32 (2 ^ 31 + 2 ^ 24 * k))))) ∧
  (∀ d a s0 w s t q, Executes (.cvopen d a false) s0 w s t q → s.opening t.core w = none →
    (a = 0 ∨ (fld (q.getS w.sl a.toNat) 0 12).toNat = s.rank.toNat ∧ s.rank.toNat ∈ s.memberRanks t) →
    (∃ k, k < 16 ∧ Map.find s.cvSlots (cvKey t.core k) = none) →
    (∃ n, n ∈ List.range' 1 4095 ∧ Map.find s.cvTable n = none) →
    ∃ k n, k < 16 ∧ Map.find s.cvSlots (cvKey t.core k) = none ∧ n ∈ List.range' 1 4095 ∧ Map.find s.cvTable n = none ∧
      let ver := Store.read s.cvVersions n + 1
      let cid := BitVec.ofNat 24 (4096 * s.rank.toNat + n)
      exec (.cvopen d a false) s0 = .next (s0.after (.cvopen d a false) w (({ s with
        free := s.free + 2
        cvTable := Map.set s.cvTable n .opened
        cvOpeners := Map.set s.cvOpeners n s.rank.toNat
        cvVersions := Store.write s.cvVersions n ver
        cvSlots := Map.set s.cvSlots (cvKey t.core k) (openedSlot s w.tid false cid ver) } : State).modParty w.tid w.p fun q =>
          q.setS w.sl d.toNat (tokenOf false k cid)))) ∧
  (∀ d a s0 w s t q, Executes (.cvopen d a false) s0 w s t q → s.opening t.core w = none →
    let home := (fld (q.getS w.sl a.toNat) 0 12).toNat
    a ≠ 0 → home ≠ s.rank.toNat → home ∈ s.memberRanks t → (∃ k, k < 16 ∧ Map.find s.cvSlots (cvKey t.core k) = none) →
    ∃ k, k < 16 ∧ Map.find s.cvSlots (cvKey t.core k) = none ∧
      exec (.cvopen d a false) s0 = .next (((({ s with
        free := s.free + 1
        cvSlots := Map.set s.cvSlots (cvKey t.core k)
          { openedSlot s w.tid false (BitVec.ofNat 24 (4096 * home)) 0 with state := .idle, opener := some (w.p, w.sl) } } :
            State).request w.tid (some w.p) none (originOf w q (Instr.cvopen d a false).word) home 0 .cvopen).1).waitOn w .cvopen)) ∧
  (∀ d a view s0 w s t q key c, Executes (.cvopen d a view) s0 w s t q → s.opening t.core w = some (key, c) → c.state ≠ .idle →
    exec (.cvopen d a view) s0 = .next (s0.after (.cvopen d a view) w (({ s with
      cvSlots := Map.set s.cvSlots (cvKey t.core (key % 16)) { c with opener := none } } : State).modParty w.tid w.p fun q =>
        q.setS w.sl d.toNat (tokenOf view (key % 16) c.cid)))) ∧
  (∀ d tok s0 w s t q, Executes (.cvstat d tok) s0 w s t q →
    let x := q.getS w.sl tok.toNat
    let slot := Map.find s.cvSlots (cvKey t.core (tokenSlot x))
    let gives (v : Word) : Prop := exec (.cvstat d tok) s0 =
      .next (s0.after (.cvstat d tok) w (s.modParty w.tid w.p fun q => q.setS w.sl d.toNat v))
    (slot = none → gives 0) ∧
    ∀ c, slot = some c →
      (c.state = .idle → gives 0) ∧
      (c.state ≠ .idle → c.tid = w.tid → c.view = tokenView x →
        gives (if c.cid = tokenCid x then cvStatus false c.lost c.state c.lines.length else 0))) ∧
  (∀ d tok s0 w s t q c, Executes (.cvclose d tok) s0 w s t q → tokenView (q.getS w.sl tok.toNat) = true →
    s.named t.core w.tid (q.getS w.sl tok.toNat) true = some c →
    (∀ r ∈ t.parties, ∀ a ∈ r.2.accesses, ¬(a.kind = .cvld ∧ a.view = cvKey t.core (tokenSlot (q.getS w.sl tok.toNat)))) →
    exec (.cvclose d tok) s0 = .next (s0.after (.cvclose d tok) w (({ s with
      cvSlots := Map.drop s.cvSlots (cvKey t.core (tokenSlot (q.getS w.sl tok.toNat))) } : State).modParty w.tid w.p fun q =>
        q.setS w.sl d.toNat (0x80000000 ||| when c.lost 0x40000000)))) ∧
  (∀ d tok s0 w s t q c s1,
    let i := Instr.cvclose d tok
    Executes i s0 w s t q → tokenView (q.getS w.sl tok.toNat) = false →
    s.named t.core w.tid (q.getS w.sl tok.toNat) false = some c → c.state = .opened → c.closing = none →
    s.closingAway c = false → s.release t.core w.tid w.p q .sy = (s1, none) → s1.stuck = false →
    let o := originOf w q i.word
    let s2 := c.linePeers.foldl (fun s r => (s.request w.tid (some w.p) none o r 0 (.cvprepare c.cid c.ver)).1)
      { s1 with nextId := s1.nextId + 1 }
    s2.stuck = false →
    exec i s0 = .next (s0.after i w (({ s2 with
      cvSlots := Map.set s2.cvSlots (cvKey t.core (tokenSlot (q.getS w.sl tok.toNat)))
        ({ c with closing := some { op := s1.nextId, p := w.p, sd := d.toNat, origin := o } } : CvSlot) } : State).modParty
          w.tid w.p fun q => { q with pending := q.pending ++ [{ kind := 1, num := d.toNat, op := s1.nextId }] }))) ∧
  (∀ d a b o pol z tok s0 w s t q c s1 s2 s3 ls,
    let i := Instr.cvst d a b o pol z tok
    let e := OrdForm.store.eff o
    let stores := ls.filterMap fun y => y.tgt.map fun g => (g, y.va, (q.storeData z d.toNat y.lane).toNat)
    Executes i s0 w s t q → q.acquiring = false →
    s.named t.core w.tid (q.getS w.sl tok.toNat) false = some c → c.state = .opened → c.closing = none →
    badAddress (s.tagOf t) (Size.bytes z) (q.eaLanes w.sl a b) = none →
    s.translateStores t.core (s.tagOf t) (s.privileged t) (q.eaLanes w.sl a b) .cvstore = (s1, .ok ls) →
    s1.conflicts q true ls (Size.bytes z) = false → s1.devHold w.tid w.p q ls = false → s1.heldLines ls = false →
    (if e.str = .rel then s1.release t.core w.tid w.p q e.scope else (s1, none)) = (s2, none) →
    (q.active w.sl = 0 → s2.stuck = false → exec i s0 = .next (s0.after i w s2)) ∧
    (q.active w.sl ≠ 0 →
      s2.convoyLanes t.core w.tid w.p (cvKey t.core (tokenSlot (q.getS w.sl tok.toNat))) (originOf w q i.word) (Size.bytes z) stores =
        (s3, none) →
      let s4 := (coveredSectors (Size.bytes z) stores).foldl (fun s k =>
        match s.settle (64 * k) with
        | (s, none, pa) => s.cleanPending c.cid c.ver (pa / 64)
        | (s, some _, _) => s) s3
      s4.stuck = false →
      exec i s0 = .next (s0.after i w (s4.modParty w.tid w.p fun q => q.raise (e.warn ||| lanesPolicy pol ls))))) ∧
  ∀ d a b o pol z tok s0 w s t q c,
    let i := Instr.cvld d a b o pol z tok
    Executes i s0 w s t q → q.acquiring = false → s.named t.core w.tid (q.getS w.sl tok.toNat) true = some c →
    (q.active w.sl = 0 → exec i s0 = .next (s0.after i w s)) ∧
    ∀ s1 ls, q.active w.sl ≠ 0 → badAddress (s.tagOf t) (Size.bytes z) (q.eaLanes w.sl a b) = none →
      s.translateStores t.core (s.tagOf t) (s.privileged t) (q.eaLanes w.sl a b) .cvload = (s1, .ok ls) → s1.stuck = false →
      s1.conflicts q false ls (Size.bytes z) = false →
      exec i s0 = .next (s0.after i w (({ s1 with nextId := s1.nextId + 1 } : State).addAccess w
        { newAccess i w q s1.nextId .cvld d.toNat z o pol ls with
          view := cvKey t.core (tokenSlot (q.getS w.sl tok.toNat)) }))

/-! ## The graph (R362 to R370) -/

/-- R363: emit and emitr. With an edge, a handle that is well formed, ranks inside the group, a depth that the target allows and
the release complete, the active lanes' records are offered in lane order; the instruction completes at once when every queue
accepts them here, and when it is issued again after the last of them has been accepted. -/
def Obligations.Emissions : Prop :=
  (∀ v e j ns s0 w s t q g d s1 s2 n,
    let i := Instr.emit v e j ns
    let recs := (maskLanes (q.active w.sl)).map fun l =>
      mkRec { target := g.target, type := g.type, depth := d, prio := g.prio, cont := false, trank := s1.rank.toNat,
              join := if j = 0 then none else some (q.getS w.sl j.toNat), srcNode := t.node, srcLane := l, cls := g.cls }
        (q.payloadOf v l)
    Executes i s0 w s t q → (∀ k, (q.slot w.sl).wait ≠ .emission k) → s.edge? t e.toNat = some g →
    (j = 0 ∨ s.malformed t (q.getS w.sl j.toNat) = false) → s.emitDepth t q g = (d, false) →
    s.release t.core w.tid w.p q .dv = (s1, none) →
    s1.offer w (originOf w q i.word) t g.target ns 0 false
      ((List.range 4).map fun k => (k, if k = t.die then recs else [])) = .done s2 n false → s2.stuck = false →
    exec i s0 = .next (s0.after i w (s2.modParty w.tid w.p fun q => q.modSlot w.sl fun x => { x with took := n }))) ∧
  (∀ v e r ns s0 w s t q g run d s1 s2 n,
    let i := Instr.emitr v e r ns
    let at_ (l : Nat) : Option (Nat × Nat) := run.place (q.bV r l)
    let rec_ (l : Nat) : Rec :=
      mkRec { target := g.target, type := g.type, depth := d, prio := g.prio, cont := false, trank := s1.rank.toNat,
              join := none, srcNode := t.node, srcLane := l, cls := g.cls } (q.payloadOf v l)
    Executes i s0 w s t q → (∀ k, (q.slot w.sl).wait ≠ .emission k) → s.edge? t e.toNat = some g → s.run? t = some run →
    (∀ l ∈ maskLanes (q.active w.sl), ∃ k, at_ l = some (s1.rank.toNat, k)) → s.emitDepth t q g = (d, false) →
    s.release t.core w.tid w.p q .sy = (s1, none) →
    s1.offer w (originOf w q i.word) t g.target ns 0 false ((List.range 4).map fun k =>
      (k, ((maskLanes (q.active w.sl)).filter fun l => (at_ l).map Prod.snd == some k).map rec_)) = .done s2 n false →
    s2.stuck = false →
    exec i s0 = .next (s0.after i w (s2.modParty w.tid w.p fun q => q.modSlot w.sl fun x => { x with took := n }))) ∧
  ∀ s w t q n, Resumes s w t q → (q.slot w.sl).wait = .emission n → s.emitting w = false →
    (∀ v e j ns, exec (.emit v e j ns) s = .next (s.completed (.emit v e j ns) w)) ∧
    ∀ v e r ns, exec (.emitr v e r ns) s = .next (s.completed (.emitr v e r ns) w)

/-- R364, R365, R370, R475: rget reads a word of each active lane's record; rdone makes the release of the slots that it resolves,
retires the records in hand, those of the team where they belong to it, and writes their number; dget sets a handle register from a pair or from words of the record of the lowest
active lane, with V set, or clears it, and does nothing with words of a record when no lane is active. -/
def Obligations.RecordsInHand : Prop :=
  (∀ d n i s0 w s t q, Executes (.rget d n i) s0 w s t q →
    (∀ l ∈ maskLanes (q.active w.sl), (s.readable t q l (q.bV i l)).isSome = true) →
    exec (.rget d n i) s0 = .next (s0.after (.rget d n i) w (s.modParty w.tid w.p fun q' =>
      q'.setV d.toNat (q.active w.sl) fun l =>
        match s.readable t q l (q.bV i l) with | some r => recWord r n.toNat | none => 0))) ∧
  (∀ d s0 w s t q n, Executes (.rdone d) s0 w s t q → s.node? t = some n →
    let o := originOf w q (Instr.rdone d).word
    let x := (q.slot (!w.sl)).wait
    let gives (s2 : State) (k : Nat) : Prop := s2.stuck = false →
      exec (.rdone d) s0 = .next (s0.after (.rdone d) w (s2.modParty w.tid w.p fun q => q.setS w.sl d.toNat (BitVec.ofNat 32 k)))
    (n.rmode ≠ 2 →
      let covers (y : Delivered) : Bool :=
        n.rmode == 1 || (match y.lane with | some l => inMask (q.active w.sl) l | none => false)
      let rs := q.records.filter fun y => !y.retired && covers y
      ∀ s1, s.retireRelease t.core w.tid w.p q rs = (s1, none) → gives (s1.retireParty w.tid w.p o x covers).1 rs.length) ∧
    (n.rmode = 2 →
      let rs := t.teamRecords.filter fun y => !y.retired
      ∀ s1, s.retireRelease t.core w.tid w.p q rs = (s1, none) →
        gives ((s1.modTeam w.tid fun t =>
          { t with teamRecords := t.teamRecords.map fun y => { y with retired := true } }).retireAll w.tid o x t rs) rs.length)) ∧
  (∀ a h s0 w s t q, Executes (.dget (.pair a) h) s0 w s t q → a ≠ 0 → (q.pairS w.sl a.toNat).toNat % 16 = 0 →
    exec (.dget (.pair a) h) s0 = .next (s0.after (.dget (.pair a) h) w (s.modTeam w.tid fun t =>
      { t with
        handles := Store.write t.handles h.toNat
          (BitVec.ofNat 64 ((q.pairS w.sl a.toNat).toNat % 2 ^ 57) ||| 1) }))) ∧
  (∀ h s0 w s t q, Executes (.dget (.pair 0) h) s0 w s t q →
    exec (.dget (.pair 0) h) s0 = .next (s0.after (.dget (.pair 0) h) w (s.modTeam w.tid fun t =>
      { t with handles := Store.write t.handles h.toNat 0 }))) ∧
  (∀ k h s0 w s t q, Executes (.dget (.word k) h) s0 w s t q → q.active w.sl = 0 →
    exec (.dget (.word k) h) s0 = .next (s0.after (.dget (.word k) h) w s)) ∧
  ∀ k h s0 w s t q l r, Executes (.dget (.word k) h) s0 w s t q → q.lowLane w.sl = some l →
    s.readable t q l 0xFFFFFFFF = some r → (recWord r k.toNat).toNat % 16 = 0 →
    exec (.dget (.word k) h) s0 = .next (s0.after (.dget (.word k) h) w (s.modTeam w.tid fun t =>
      { t with
        handles := Store.write t.handles h.toNat
          (BitVec.ofNat 64 ((recWord r (k.toNat + 1) ++ recWord r k.toNat).toNat % 2 ^ 57) ||| 1) }))

/-- What a resolution waits for (R359): the team's matrix operations, the party's last command with a status register, or nothing. -/
def boundTo (s : State) (w : Issuer) (t : Team) (f : FutForm) : List Nat :=
  match f with
  | .imm => []
  | .mx => match t.seq with | some m => m.ops.map MatOp.id | none => []
  | .cmd r => (s.latestCmd w t r.toNat).toList

/-- R366 to R369, R475: each of them makes its release first. futnew takes an empty slot of its die, whichever it is, resolved for
a count of 0 and pending otherwise, and writes its handle; futreg registers a continuation in a slot of this device, or asks another
device to, and does nothing without an active lane; futres resolves at once, or binds the resolution to the matrix operations or the command that it names and that
are not complete, and does nothing for n = 0; futst reads the state word, or asks another device for that of its slot and completes
when the answer has come. -/
def Obligations.Futures : Prop :=
  (∀ d c s0 w s t q s1, Executes (.futnew d c) s0 w s t q → (q.getS w.sl c.toNat).toNat < 256 →
    s.release t.core w.tid w.p q .dv = (s1, none) → (s1.usedJoins t.die).length < 65536 →
    ∃ k, k < 65536 ∧ k ∉ s1.usedJoins t.die ∧
      exec (.futnew d c) s0 = .next (s0.after (.futnew d c) w (({ s1 with
        free := s1.free + 1
        joins := Map.set s1.joins (65536 * t.die + k)
          { state := if q.getS w.sl c.toNat = 0 then .resolved else .pending, count := (q.getS w.sl c.toNat).toNat,
            owner := t.node, ownerTid := w.tid, run := t.run, conts := [] } } : State).modParty w.tid w.p fun q =>
          q.setS w.sl d.toNat (BitVec.ofNat 32 (2 ^ 20 * s1.rank.toNat + 65536 * t.die + k))))) ∧
  (∀ j e v s0 w s t q g d,
    let i := Instr.futreg j e v
    let h := q.getS w.sl j.toNat
    Executes i s0 w s t q → s.edge? t e.toNat = some g → s.malformed t h = false → s.emitDepth t q g = (d, false) →
    (q.active w.sl = 0 → exec i s0 = .next (s0.after i w s)) ∧
    ∀ l s1, q.lowLane w.sl = some l →
      let rec_ := mkRec { target := g.target, type := g.type, depth := d, prio := g.prio, cont := true,
                          trank := joinRank h, join := none, srcNode := t.node, srcLane := l, cls := g.cls } (q.payloadOf v l)
      s.release t.core w.tid w.p q (if joinRank h = s.rank.toNat then .dv else .sy) = (s1, none) → s1.rank = s.rank →
      (∀ s2, joinRank h = s.rank.toNat → s1.register h rec_ (some (clusterOf t.core)) = .done s2 → s2.stuck = false →
        exec i s0 = .next (s0.after i w s2)) ∧
      (joinRank h ≠ s.rank.toNat → s1.stuck = false →
        exec i s0 = .next (s0.after i w
          (s1.request w.tid (some w.p) none (originOf w q i.word) (joinRank h) 0 (.register h rec_)).1))) ∧
  (∀ j n f s0 w s t q,
    let i := Instr.futres j n f
    let h := q.getS w.sl j.toNat
    let k := q.getS w.sl n.toNat
    let o := originOf w q i.word
    Executes i s0 w s t q → s.malformed t h = false → k.toNat ≤ 255 →
    (k = 0 → exec i s0 = .next (s0.after i w s)) ∧
    ∀ s1, k ≠ 0 → s.release t.core w.tid w.p q (if joinRank h = s.rank.toNat then .dv else .sy) = (s1, none) →
      s1.stuck = false →
      (∀ s2, boundTo s1 w t f = [] → s1.resolve w.tid o h k.toNat false = (s2, false) → s2.stuck = false →
        exec i s0 = .next (s0.after i w s2)) ∧
      (boundTo s1 w t f ≠ [] →
        exec i s0 = .next (s0.after i w { s1 with
          deferred := s1.deferred ++ [{ tid := w.tid, handle := h, n := k.toNat, awaits := boundTo s1 w t f, origin := o }] }))) ∧
  ∀ d j s0 w s t q,
    let i := Instr.futst d j
    let h := q.getS w.sl j.toNat
    Executes i s0 w s t q → s.malformed t h = false →
    (∀ s1, (∀ r, (q.slot w.sl).wait ≠ .joinRead r) → joinRank h = s.rank.toNat → s.release t.core w.tid w.p q .dv = (s1, none) →
      exec i s0 = .next (s0.after i w (s1.modParty w.tid w.p fun q' => q'.setS w.sl d.toNat (s1.joinWord (joinKey h))))) ∧
    (∀ s1, (∀ r, (q.slot w.sl).wait ≠ .joinRead r) → joinRank h ≠ s.rank.toNat → s.release t.core w.tid w.p q .sy = (s1, none) →
      ∃ s2 : State, exec i s0 = .next (s2.waitOn w (.joinRead (joinRank h))) ∧
        (∀ x ∈ s1.outstanding, x ∈ s2.outstanding) ∧
        ∃ x ∈ s2.outstanding, x.req.dst = joinRank h ∧ x.req.op = .joinRead h ∧ x.tid = w.tid ∧ x.party = some w.p) ∧
    ∀ r, (q.slot w.sl).wait = .joinRead r → (∀ a ∈ q.accesses, ¬(a.kind = .futst ∧ a.slot = w.sl)) →
      exec i s0 = .next (s0.after i w s)

/-! ## Barriers (R379 to R383) -/

/-- The key of a barrier in a party's list of arrivals. -/
def barKey (c : BarScope) (b : BitVec 4) : Nat := 16 * Sys2Proof.Machine.BarScope.code c + b.toNat

/-- A party has arrived at a barrier with its release made, which left `s`: it is counted in the open phase, with its slot's fmt
and mode and with what its release still waits for, and it notes the phase. -/
def hasArrived (s : State) (w : Issuer) (q : Party) (c : BarScope) (b : BitVec 4) (r : BarRef) : State :=
  (s.setBarrier r { s.barrier r with
    arrived := (s.barrier r).arrived ++
      [{ tid := w.tid, who := w.p, fmt := (q.slot w.sl).fmt, mode := (q.slot w.sl).mode,
         awaits := q.accesses.map Access.id ++ q.remote, streams := q.owedStreams }] }).modParty w.tid w.p fun q =>
    { q with arrivals := Map.set q.arrivals (barKey c b) (s.barrier r).phase }

/-- The slot waits for a phase of a barrier. -/
def waitsAt (s : State) (w : Issuer) (c : BarScope) (b : BitVec 4) (ph : Nat) : State :=
  (s.modParty w.tid w.p fun q => q.modSlot w.sl fun x => { x with barWait := some (barKey c b, ph) }).waitOn w
    (.barrier (Sys2Proof.Machine.BarScope.code c) b.toNat ph)

/-- R380, R381: wherever a barrier instruction executes, at a barrier that its team meets and in whose open phase the party has not
arrived, it answers a next state. bar.arrive makes its release, counts the party in the open phase, notes the phase and what the
release still waits for, and goes on at once. bar.wait goes on once the phase that its slot waits for, that of the party's last
arrival, has completed, at once without one, and waits otherwise. bar.sync makes the release, is counted and waits for that phase;
issued again, it waits while the phase is open, and goes on after it. -/
def Obligations.BarriersIssue : Prop :=
  (∀ c b s0 w s t q r, Executes (.barArrive c b) s0 w s t q → barOf t w.tid c b.toNat = some r →
    (s.barrier r).has w.tid w.p = false →
    exec (.barArrive c b) s0 = .next (s0.after (.barArrive c b) w
      (hasArrived (s.release t.core w.tid w.p q (relScope c)).1 w q c b r))) ∧
  (∀ c b s0 w s t q, Executes (.barWait c b) s0 w s t q →
    (barOf t w.tid c b.toNat = none ∨ q.awaited w.sl (barKey c b) = none →
      exec (.barWait c b) s0 = .next (s0.after (.barWait c b) w s)) ∧
    ∀ r ph, barOf t w.tid c b.toNat = some r → q.awaited w.sl (barKey c b) = some ph →
      (ph < (s.barrier r).phase → exec (.barWait c b) s0 = .next (s0.after (.barWait c b) w s)) ∧
      ((s.barrier r).phase ≤ ph → exec (.barWait c b) s0 = .next (waitsAt s w c b ph))) ∧
  (∀ c b s0 w s t q r, Executes (.barSync c b) s0 w s t q → (∀ k l m, (q.slot w.sl).wait ≠ .barrier k l m) →
    barOf t w.tid c b.toNat = some r → (s.barrier r).has w.tid w.p = false →
    let s1 := (s.release t.core w.tid w.p q (relScope c)).1
    exec (.barSync c b) s0 = .next (waitsAt (hasArrived s1 w q c b r) w c b (s1.barrier r).phase)) ∧
  ∀ c b s w t q r ph k l m, Resumes s w t q → (q.slot w.sl).wait = .barrier k l m → barOf t w.tid c b.toNat = some r →
    q.awaited w.sl (barKey c b) = some ph →
    (ph < (s.barrier r).phase → exec (.barSync c b) s = .next (s.completed (.barSync c b) w)) ∧
    ((s.barrier r).phase ≤ ph → exec (.barSync c b) s = .next (waitsAt s w c b ph))

/-- R380, R399: the barrier count mismatches. An arrival at a cluster barrier by a team that is no member of a cluster group, a
party's second arrival in one phase from either slot, by bar.arrive or bar.sync, and mbar on a barrier whose SEQBAR bit is clear are
faults of the team at the instruction, cause 0x09, whose INFO names the scope and the barrier; nothing else is done, and the
arrival is not counted. -/
def Obligations.BarrierFaults : Prop :=
  let cause (c : BarScope) (b : BitVec 4) : Cause := { cause := 0x09, info := BitVec.ofNat 32 (barKey c b) }
  (∀ b s0 w s t q i, i = .barArrive .cl b ∨ i = .barSync .cl b → Executes i s0 w s t q →
    (∀ k l m, (q.slot w.sl).wait ≠ .barrier k l m) → t.group = none →
    exec i s0 = .next (s.faultAt w q i.word (cause .cl b))) ∧
  (∀ c b s0 w s t q i r, i = .barArrive c b ∨ i = .barSync c b → Executes i s0 w s t q →
    (∀ k l m, (q.slot w.sl).wait ≠ .barrier k l m) → barOf t w.tid c b.toNat = some r →
    (∃ a ∈ (s.barrier r).arrived, a.tid = w.tid ∧ a.who = w.p) →
    exec i s0 = .next (s.faultAt w q i.word (cause c b))) ∧
  ∀ b s tid t q, SeqIssues s tid t q → q.barWait = none → (∀ n, s.node? t = some n → n.seqbar.getLsbD b.toNat = false) →
    exec (.mbar b) s = .next (s.takeFault tid (seqOrigin q (Instr.mbar b).word) (cause .tm b) false false .none)

/-! ## System instructions and faults -/

/-- R408: the words of trap hold its code in bits [19:8], and are illegal with a nonzero SD; trap takes the fault EXPLICIT
TRAP with that code at its own place, wherever it issues, whatever its run's privilege. -/
def Obligations.Trap : Prop :=
  (∀ (code : BitVec 12) ls, decode (0x3F#6 ++ 0#6 ++ code ++ 0#8) ls = .ok (.trap code)) ∧
  (∀ (sd : BitVec 6) (code : BitVec 12) ls, sd ≠ 0 → ∃ r, decode (0x3F#6 ++ sd ++ code ++ 0#8) ls = .error r) ∧
  ∀ code s w t q, IssuesPlain (.trap code) s w t q →
    exec (.trap code) s = .next (s.takeFault w.tid
      { pc := (q.slot w.sl).pc, clause := (q.slot w.sl).clauseAddr, word := (Instr.trap code).word, party := some w.p,
        slot := w.sl }
      { cause := 0x14, sub := 0, lane := none, addr := none, info := BitVec.ofNat 32 code.toNat } false false
      (q.slot (!w.sl)).wait)

/-- R357, R396 to R402: the first fault of a team stops its parties and is recorded with its cause, its place, what was waited on and
the time in nanoseconds; a later one only counts, up to 255. The PENDING join slots of the team fail and lose their
continuations. No other team and nothing else outside the team changes. -/
def Obligations.FaultsAreRecorded : Prop :=
  ∀ (s : State) tid o c deferred engine w t, Map.find s.teams tid = some t →
    let s' := s.takeFault tid o c deferred engine w
    ({ s' with teams := s.teams, joins := s.joins } : State) = s ∧
    (∀ k, k ≠ tid → Map.find s'.teams k = Map.find s.teams k) ∧
    (∀ k, Map.find s'.joins k = (Map.find s.joins k).map fun j =>
      if j.ownerTid = tid ∧ j.state = .pending then { j with state := .faulted, conts := [] } else j) ∧
    (t.fault = none → ∃ f, Map.find s'.teams tid = some { t with state := .stopping, fault := some f } ∧
      f.cause = c.cause ∧ f.sub = c.sub ∧ f.deferred = deferred ∧ f.engine = engine ∧ f.origin = o ∧ f.lane = c.lane ∧
      f.addr = c.addr ∧ f.info = c.info ∧ (f.waitOn, f.waitX) = w.code ∧ f.stamp.toNat = s.tbase.toNat / 256 ∧ f.supp = 0) ∧
    ∀ f, t.fault = some f →
      Map.find s'.teams tid = some { t with fault := some { f with supp := if f.supp < 255 then f.supp + 1 else 255 } }

/-- R142, R178, R226, R396: what every instruction of a party meets before its effect: an operand that the checks at issue
refuse is its fault at its own place, and an operand that is pending, or a port without a group, makes its slot wait, keeping its
place. -/
def Obligations.GateStopsOrWaits : Prop :=
  ∀ i s w t q, isEvent i = false → i.cls ≠ 4 → s.issuer = some (w, t, q) → t.running = true → (q.slot w.sl).live = true →
    (q.slot w.sl).wait.begun = false →
    (∀ c, s.gate i t q w.sl = .fault c → exec i s = .next (s.faultAt w q i.word c)) ∧
    ∀ x, s.gate i t q w.sl = .wait x → exec i s =
      .next (s.modParty w.tid w.p fun q => q.modSlot w.sl fun y => { y with wait := x })

/-- R40, R58, R409, R410: the privileged instructions and hcall. Outside a firmware run rfe, tlbrng and wsld fault PROTECTION sub
5. In one, rfe answers the entry that its token names, 1, or 0 when no such request is held; tlbrng and wsld begin and leave their
status register pending; hcall takes an entry of its die, sends its request and completes when it is issued again after the
reply. -/
def Obligations.Privileged : Prop :=
  (∀ s w t q, s.privileged t = false →
    (∀ d a b, IssuesPlain (.rfe d a b) s w t q →
      exec (.rfe d a b) s = .next (s.faultAt w q (Instr.rfe d a b).word (protection 5))) ∧
    (∀ d a b, IssuesPlain (.tlbrng d a b) s w t q →
      exec (.tlbrng d a b) s = .next (s.faultAt w q (Instr.tlbrng d a b).word (protection 5))) ∧
    ∀ d a b, IssuesPlain (.wsld d a b) s w t q →
      exec (.wsld d a b) s = .next (s.faultAt w q (Instr.wsld d a b).word (protection 5))) ∧
  (∀ d a b s0 w s t q s1, Executes (.rfe d a b) s0 w s t q → s.privileged t = true →
    s.release t.core w.tid w.p q .sy = (s1, none) → s1.stuck = false →
    let x := (q.getS w.sl a.toNat).toNat
    let k := 1024 * (x / 2 ^ 30) + x % 1024
    let v := q.bS w.sl b
    let gives (s2 : State) (r : Word) : Prop :=
      exec (.rfe d a b) s0 = .next (s0.after (.rfe d a b) w (s2.modParty w.tid w.p fun q => q.setS w.sl d.toNat r))
    ((s1.hold k).held = none → gives s1 0) ∧
    ∀ u y, (s1.hold k).held = some (u, y) →
      ((s1.hold k).gen ≠ x / 1024 % 2 ^ 20 ∨ (s1.hold k).reply ≠ none → gives s1 0) ∧
      ((s1.hold k).gen = x / 1024 % 2 ^ 20 → (s1.hold k).reply = none →
        let saved : Bool := (Map.find s1.teams u).any fun y => y.state == .saving || y.state == .saved
        (saved = true → gives { s1 with holds := Map.set s1.holds k { s1.hold k with reply := some v } } 1) ∧
        (saved = false → gives (s1.deliverReply k v) 1))) ∧
  (∀ d a b s0 w s t q s1 id, Executes (.tlbrng d a b) s0 w s t q → s.privileged t = true →
    let start := (q.pairS w.sl a.toNat).toNat % 2 ^ 57
    let n := (q.getS w.sl b.toNat).toNat
    let lo := if n = 0 then 0 else start
    let hi := if n = 0 then 2 ^ 57 else min (start + n * 65536) (2 ^ 57)
    start % 65536 = 0 →
    s.invalidate (BitVec.ofNat 16 (q.getS w.sl (b.toNat + 1)).toNat) lo hi (some (w.tid, w.p, d.toNat)) 0 = (s1, id) →
    s1.stuck = false →
    exec (.tlbrng d a b) s0 = .next (s0.after (.tlbrng d a b) w (s1.pendScalar w.tid w.p d.toNat id))) ∧
  (∀ d a b s0 w s t q s1 bad, Executes (.wsld d a b) s0 w s t q → s.privileged t = true →
    let src := (q.pairS w.sl a.toNat).toNat % 2 ^ 57
    let x := (q.getS w.sl b.toNat).toNat
    let die := x / 2 ^ 23 % 4
    let unit := x % 2 ^ 23
    let n := (q.getS w.sl (b.toNat + 1)).toNat % 2 ^ 24
    src % 256 = 0 → 0 < n → unit + n ≤ 2 ^ 23 → (∀ k ∈ banksOf unit n, s.sealed die k = false) →
    s.copySectors (some t.core) (s.tagOf t) true (sext57 src) (weightPa die (256 * unit)) (4 * n) = (s1, .ok bad) →
    s1.stuck = false →
    exec (.wsld d a b) s0 = .next (s0.after (.wsld d a b) w (({ s1 with
      nextId := s1.nextId + 1
      wsCopies := s1.wsCopies ++ [{ id := s1.nextId, dest := some (w.tid, w.p, d.toNat), queue := 0, packet := 0, die := die,
                                    off := unit, len := n, poison := bad }] } : State).pendScalar w.tid w.p d.toNat
        s1.nextId))) ∧
  (∀ d a b s0 w s t q s1 k, Executes (.hcall d a b) s0 w s t q → (q.slot w.sl).wait ≠ .hcall 0 →
    s.release t.core w.tid w.p q .sy = (s1, none) → s1.stuck = false → s1.holdOf w = none → s1.freeHold t.die = some k →
    ∃ s2 : State, exec (.hcall d a b) s0 = .next (s2.waitOn w (.hcall 0)) ∧ (s2.hold k).held = some (w.tid, w.p, w.sl, d.toNat) ∧
      (s2.hold k).gen = (s1.hold k).gen ∧
      ∃ ws : List Word, s2.sent = s1.sent ++ [Reply.hcall ws] ∧
        ws.take 3 = [q.getS w.sl a.toNat, q.bS w.sl b, holdToken k (s1.hold k).gen]) ∧
  ∀ d a b s w t q, Resumes s w t q → (q.slot w.sl).wait = .hcall 0 → s.holdOf w = none →
    exec (.hcall d a b) s = .next (s.completed (.hcall d a b) w)

/-! ## The matrix stream (R264 to R300) -/

/-- The sequencer's clause start and the address after its clause. -/
def seqStart (q : Sequencer) : Word := match q.clause with | some c => c.addr | none => q.pc
def seqNext (q : Sequencer) : Word := match q.clause with | some c => c.stop | none => q.pc + 4

/-- R284, R285, R288, R289, R293: the instructions of a matrix stream that post nothing. kli and kadd write a k register; kbr goes
to clause address + 4 × offset or to the next clause; mrel drops the latch; mzero clears a tile that nothing in flight uses; mchk
reads the counts once every earlier operation has retired; mbar arrives once the operations in flight are passes that the array
holds, and goes on when it is issued again after the phase. -/
def Obligations.SequencerFlow : Prop :=
  ∀ s tid t q, SeqIssues s tid t q →
    (∀ k v, exec (.kli k v) s = .next ((s.modSeq tid fun q =>
      { q with k := Store.write q.k k.toNat (BitVec.ofInt 32 v.toInt) }).seqCompleted (.kli k v) tid)) ∧
    (∀ k v, exec (.kliLiteral k v) s = .next ((s.modSeq tid fun q =>
      { q with k := Store.write q.k k.toNat v }).seqCompleted (.kliLiteral k v) tid)) ∧
    (∀ k a v, exec (.kadd k a v) s = .next ((s.modSeq tid fun q =>
      { q with k := Store.write q.k k.toNat (BitVec.ofInt 32 ((Store.read q.k a.toNat).toNat + v.toInt)) }).seqCompleted
        (.kadd k a v) tid)) ∧
    (∀ c a o, exec (.kbr c a o) s = .next (s.modSeq tid fun q =>
      let old := Store.read q.k a.toNat
      let taken : Bool := match c with | .nz => decide (old ≠ 0) | .z => decide (old = 0) | .dec => decide (old ≠ 1)
      { q with
        pc := if taken then seqStart q + BitVec.ofInt 32 (4 * o.toInt) else seqNext q
        clause := none, wait := .none, k := if c = .dec then Store.write q.k a.toNat (old - 1) else q.k })) ∧
    (∀ m, exec (.mrel m) s = .next ((s.modSeq tid fun q =>
      { q with latch := if q.latch = some m.toNat then none else q.latch }).seqCompleted (.mrel m) tid)) ∧
    (∀ c, c.toNat < t.tiles → (∀ o ∈ q.ops, c.toNat ∉ o.tiles false) →
      exec (.mzero c) s = .next ((s.modTeam tid fun t => t.zeroTile c.toNat).seqCompleted (.mzero c) tid) ∧
      ∀ i j, i < 128 → j < 128 → (t.zeroTile c.toNat).tile c.toNat i j = 0 ∧
        ∀ d, d ≠ c.toNat → (t.zeroTile c.toNat).tile d i j = t.tile d i j) ∧
    (∀ k, q.ops = [] → exec (.mchk k) s =
      .next ((s.modSeq tid fun q => { q with k := Store.write q.k k.toNat q.check }).seqCompleted (.mchk k) tid)) ∧
    (∀ b n mine, q.barWait = some (n, mine) → mine < (s.barrier (.team tid b.toNat)).phase →
      exec (.mbar b) s = .next ((s.modSeq tid fun q => { q with barWait := none }).seqCompleted (.mbar b) tid)) ∧
    ∀ b, q.barWait = none → s.meets t b.toNat = true →
      (∀ o ∈ q.ops, (∃ c a h x kc nb m, o.kind = .pass c a h x kc nb m) ∧ 0 < o.passes.inArray) →
      exec (.mbar b) s = .next ((s.arrive (.team tid b.toNat)
          { tid := tid, who := 16, fmt := q.fmt, mode := q.mode, awaits := [], streams := [] }).modSeq tid fun q =>
        { q with barWait := some (b.toNat, (s.barrier (.team tid b.toNat)).phase)
                 wait := .barrier 0 b.toNat (s.barrier (.team tid b.toNat)).phase })

/-- The bytes of a handle's block at block offset (kc, nb) and of its scales lie in their allocation. -/
def blockFits (t : Team) (h : Handle) (r0 nr c0 nc : Nat) (scl : Option (Nat × Nat)) : Prop := t.blockFault h r0 nr c0 nc scl = none

/-- R265, R283, R286, R290 to R292, R295 to R298: the instructions that post an operation. When fmt names a pass format, the tile and
the block lie in their allocations, the handle's format and scales fit, the order of a Lookout sequence is kept, nothing in flight
holds the register or writes the tile or what is read at issue, and the core has a reservation entry where one is needed, the operation is posted with what it
needs, under fmt and mode as they are, and the instruction completes. -/
def Obligations.MatrixIssue : Prop :=
  ∀ s tid t (q : Sequencer) p, SeqIssues s tid t q → passFmt (passCode q.fmt) = some p →
    let wide : Bool := p.a == .fp64
    let freeTile (c : BitVec 4) : Prop :=
      q.holds c.toNat = false ∧ (wide = true → q.holds (c.toNat + 1) = false) ∧
        ∀ o ∈ q.ops, ∀ k ∈ o.tiles true, k ≠ c.toNat ∧ (wide = true → k ≠ c.toNat + 1)
    (∀ m h k ko s1 hd, let i := Instr.mld m h k ko
      let kc := (q.offset ko k.toNat).1
      let nb := (q.offset ko k.toNat).2
      s.matHandle tid t q h.toNat = (s1, .ok hd) → s1.stuck = false → hFmt hd = Cvt.fmtCode p.a →
      (p.useA q.fmt = true → hScl hd ≠ 0) →
      blockFits t hd (128 * nb) 128 (kc * p.ke) p.ke
        (if p.useA q.fmt then
          some (sclSpan hd (hRows hd) (hCols hd) (128 * nb) (128 * nb + 128) (kc * p.ke) (kc * p.ke + p.ke)) else none) →
      q.loading m.toNat = false →
      exec i s = .next (((s1.modSeq tid fun q => { q with latch := if q.latch = some m.toNat then none else q.latch }).post
        tid i (.mld m.toNat hd kc nb) 0 []).seqCompleted i tid)) ∧
    (∀ (transposed : Bool) c m h ru k ko zs s1 hd,
      let i := if transposed then Instr.mmt c m h ru k ko zs else Instr.mma c m h ru k ko zs
      let kc := (q.offset ko k.toNat).1
      let nb := (q.offset ko k.toNat).2
      let a := (Map.find t.aregs m.toNat).getD { elems := [], scales := [], enc := none }
      let mapped := q.mapped h.toNat
      t.badTile wide c.toNat = false → q.loading m.toNat = false → s.matHandle tid t q h.toNat = (s1, .ok hd) → s1.stuck = false →
      hFmt hd = Cvt.fmtCode p.b → (p.useB q.fmt = true → hScl hd ≠ 0) →
      (∀ f holds, a.enc = some (f, holds) → f = Cvt.fmtCode p.a ∧ (p.useA q.fmt = true → holds = true)) →
      (if transposed then blockFits t hd (128 * nb) 128 (kc * p.ke) p.ke
          (if p.useB q.fmt then
            some (sclSpan hd (hRows hd) (hCols hd) (128 * nb) (128 * nb + 128) (kc * p.ke) (kc * p.ke + p.ke)) else none)
        else blockFits t hd (kc * p.ke) p.ke (128 * nb) 128
          (if p.useB q.fmt then
            some (sclSpan hd (hCols hd) (hRows hd) (128 * nb) (128 * nb + 128) (kc * p.ke) (kc * p.ke + p.ke)) else none)) →
      (mapped = true → transposed = true ∧ nb = 0 ∧ lkoBadFmt p q.fmt = false ∧
        ∀ l, q.openLko = some l → l.pass = passCode q.fmt ∧ ∀ x, l.tile = some x → x = c.toNat) →
      s1.entries t.core < 8 →
      exec i s = .next (((s1.post tid i (.pass c.toNat a hd transposed kc nb mapped) 1 []).modSeq tid fun q =>
        { q with
          latch := if ru then some m.toNat else none
          lko := if mapped then q.lko.map fun l => { l with tile := some c.toNat } else q.lko }).seqCompleted i tid)) ∧
    (∀ c h k ko s1 hd, let i := Instr.mst c h k ko
      let kc := (q.offset ko k.toNat).1
      let nb := (q.offset ko k.toNat).2
      t.badTile wide c.toNat = false → s.matHandle tid t q h.toNat = (s1, .ok hd) → s1.stuck = false → hFmt hd ≠ 0xE →
      blockFits t hd (128 * nb) 128 (128 * kc) 128
        (if (hCvt hd).any Cvt.scalable = true ∧ hScl hd ≠ 0 then
          some (sclSpan hd (hRows hd) (hCols hd) (128 * nb) (128 * nb + 128) (128 * kc) (128 * kc + 128)) else none) →
      freeTile c →
      ∃ lines : List Nat, lines.Nodup ∧
        (∀ x, x ∈ lines ↔ ∃ j, j < 128 ∧ 128 * nb + j < hRows hd ∧
          let row := hSpan hd (128 * nb + j) (128 * nb + j + 1) (128 * kc) (128 * kc + 128)
          x ∈ s1.spanLines tid t .store (hLoc hd) row.1 (row.2 - row.1)) ∧
        exec i s = .next ((s1.post tid i (.mst c.toNat hd kc nb) 0 lines).seqCompleted i tid)) ∧
    (∀ c h s1 hd, let i := Instr.mscl c h
      let span := sclSpan hd (hRows hd) (hCols hd) 0 128 0 128
      t.badTile wide c.toNat = false → s.matHandle tid t q h.toNat = (s1, .ok hd) → s1.stuck = false →
      (hCvt hd).any Cvt.scalable = true → hScl hd ≠ 0 → hRows hd ≤ 128 → hCols hd ≤ 128 →
      blockFits t hd 0 128 0 128 (some span) → freeTile c →
      exec i s = .next ((s1.post tid i (.mscl c.toNat hd) 0 (s1.spanLines tid t .store (hLoc hd) span.1 (span.2 - span.1))).seqCompleted
        i tid)) ∧
    (∀ h s1 hd l, let i := Instr.lkoFetch h
      s.matHandle tid t q h.toNat = (s1, .ok hd) → s1.stuck = false → q.openLko = some l → l.weights = none →
      lkoBadFmt p q.fmt = false → hRows hd = blockN l.block → hCols hd = blockD l.block → hFmt hd = Cvt.fmtCode p.b →
      exec i s = .next ((s1.modSeq tid fun q =>
        { q with latch := none, lko := some { l with weights := some (h.toNat, hd) } }).seqCompleted i tid)) ∧
    (∀ m h s1 s2 s3 hd bs xs, let i := Instr.lkoPred m h
      let va := sext57 (hField hd 0 57)
      let x : Handle := BitVec.ofNat 128 (ofBytes xs)
      (s.afterOps tid t q (handleAddr t h.toNat) 16).fetchHandle tid h.toNat 1 = (s1, .ok hd) →
      (∀ g, s1.peekTarget t.core (s1.tagOf t) (s1.privileged t) .load va = some g → g.peer = none) →
      q.lko = none → lkoBadFmt p q.fmt = false → va % 64 = 0 →
      let s1' := s1.afterOps tid t q va 64
      s1'.engineRead (some t.core) (s1'.tagOf t) (s1'.privileged t) va 64 = (s2, .ok (bs, false)) → blockOk bs = true →
      let s2' := s2.afterOps tid t q (blockXh bs) 16
      s2'.engineRead (some t.core) (s2'.tagOf t) (s2'.privileged t) (blockXh bs) 16 = (s3, .ok (xs, false)) →
      handleFault x = none → s3.peerBase t x = false → t.lsSpan x (hBase x, hBase x + hExtent x) = none →
      hRows x ≤ 128 → hCols x = blockD bs → hFmt x = Cvt.fmtCode p.a → s3.lkoHeld t.core tid < 4 → q.loading m.toNat = false →
      s3.entries t.core < 8 → s3.stuck = false →
      exec i s = .next (((s3.post tid i (.lkoPred m.toNat) (chunks p bs + 1) []).modSeq tid fun q =>
        { q with
          latch := none
          lko := some { block := bs, x := x, blockVa := va, ma := m.toNat, pass := passCode q.fmt, classes := [], pe := [],
                        weights := none, tile := none } }).seqCompleted i tid)) ∧
    ∀ c m h s1 hd l, let i := Instr.lkoChk c m h
      let n := (l.plan.replays (chunks p l.block)).length
      c.toNat < t.tiles → s.matHandle tid t q h.toNat = (s1, .ok hd) → s1.stuck = false → q.openLko = some l →
      lkoBadFmt p q.fmt = false → l.pass = passCode q.fmt → l.weights = some (h.toNat, hd) →
      (∀ x, l.tile = some x → x = c.toNat) → (∀ o ∈ q.ops, o.lookout = false) → q.loading m.toNat = false →
      (0 < n → s1.entries t.core < 8) →
      exec i s = .next (((s1.post tid i (.lkoChk c.toNat m.toNat h.toNat) n (s1.spanLines tid t .store 0 (l.blockVa + 52) 8)).modSeq
        tid fun q => { q with latch := none }).seqCompleted i tid)

/-! ## Events -/

/-- R34, R43, R45 to R47, R53, R60, R61, R71, R152 to R157, R319, R377, R389: the events of issue and of memory, when what they
wait for holds: a clause that begins; a promotion, which gives the track an issue cycle; a run-ahead, which changes no team; a yield
that ends unless another party of the track is ready; a buffer entry that drains by age, a reduction entry, a walk that ends with a
translation or a fault, an error that an array's check finds, a refresh window, a page that migrates, a bounced request, an
invalidation and a weight-store copy that are done. -/
def Obligations.IssueAndMemoryEvents : Prop :=
  (∀ (s s1 : State) tid p sl t q h, Map.find s.teams tid = some t → Map.find t.parties p = some q → t.running = true →
    (q.slot sl).live = true → (q.slot sl).clause = none → s.checkClause t false (q.slot sl).pc = (s1, .ok h) →
    let s2 := if (hdrWait h).getLsbD 1 then s1.beginW1 t.core tid p else s1
    let u := unmet (hdrWait h) (s2.waitsMet t tid p q)
    let pc := (q.slot sl).pc
    exec (.clauseIssue (.party tid p sl)) s = .next (s2.modParty tid p fun q => q.modSlot sl fun x =>
      if u = 0 then
        { x with
          pc := pc + 4, wait := .none
          clause := some { addr := pc, stop := pc + BitVec.ofNat 32 (4 * (hdrCount h + 1)), cls := hdrCls h } }
      else { x with wait := .clause u })) ∧
  (∀ (s s1 : State) tid t q h, Map.find s.teams tid = some t → t.seq = some q → t.running = true → q.stopped = false →
    q.clause = none → s.checkClause t true q.pc = (s1, .ok h) →
    let u := unmet (hdrWait h) (s1.seqWaitsMet q)
    exec (.clauseIssue (.seq tid)) s = .next (s1.modSeq tid fun x =>
      if u = 0 then
        { x with
          pc := q.pc + 4, wait := .none
          clause := some { addr := q.pc, stop := q.pc + BitVec.ofNat 32 (4 * (hdrCount h + 1)), cls := hdrCls h } }
      else { x with wait := .clause u })) ∧
  (∀ (s : State) tid p t q, Map.find s.teams tid = some t → Map.find t.parties p = some q → 1024 ≤ q.starve → q.yielded = false →
    exec (.starvationPromote tid p) s = .next { s with agenda := ⟨0, 0, .track t.core q.track⟩ :: s.agenda }) ∧
  (∀ (s : State) tid p t q, Map.find s.teams tid = some t → Map.find t.parties p = some q → t.running = true → q.paths ≠ [] →
    (∀ b ∈ q.paths, ∃ k n, (q.slot b).wait = .scoreboard k n ∧ ∃ x ∈ q.pending, x.kind = k ∧ x.num = n ∧
      ∃ a ∈ q.accesses, a.id = x.op ∧ (a.kind = .vld ∨ a.kind = .vldg ∨ a.kind = .sld)) →
    exec (.runAhead tid p) s = .next { s with agenda := ⟨0, 0, .ahead tid p⟩ :: s.agenda }) ∧
  (∀ (s : State) tid p, ∃ s1, act (.ahead tid p) s = .next s1 ∧ s1.teams = s.teams ∧ s1.runs = s.runs ∧
    s1.outstanding = s.outstanding) ∧
  (∀ (s : State) tid p q, s.party? tid p = some q → q.yielded = true → q.lastIssue + 16 ≤ s.clk.toNat →
    exec (.yieldTimeout tid p) s = .next { s with agenda := ⟨0, 0, .wake tid p⟩ :: s.agenda }) ∧
  (∀ (s : State) tid p, act (.wake tid p) s =
    .next (if s.otherReady issue tid p = true then s else s.modParty tid p fun q => { q with yielded := false })) ∧
  (∀ (s : State) core line, exec (.wcbDrainTimeout core line) s =
    .next (s.drain core fun e => e.line == line && decide (e.last + 256 ≤ s.clk.toNat))) ∧
  (∀ (s : State) die sector, exec (.reductionEntryApply die sector) s =
    .next (s.applyReductions fun e => e.die == die && e.sector == sector && decide (e.opened + 512 ≤ s.clk.toNat))) ∧
  (∀ (s : State) id w e, (s.walks.find? fun w => w.id == id) = some w → w.at_ = .walker ∨ w.at_ = .dieHit →
    s.walkResult w = .ok e →
    let s1 : State := { s with walks := s.walks.filter fun x => x.id != id
                               tlbDie := Map.set s.tlbDie w.die (addTlb 131072 (s.lastTlb w.die) e) }
    let s2 := (w.cores.foldl (fun s c => s.fillTlb c e) s1).regrant w.die
    exec (.walkComplete id) s =
      .next ((s2.deferredBy w.tag w.cores).foldl (fun s x => s.replayLane w.tag w.base w.size (.ok e) x) s2)) ∧
  (∀ (s : State) id w c, (s.walks.find? fun w => w.id == id) = some w → w.at_ = .walker ∨ w.at_ = .dieHit →
    s.walkResult w = .error c →
    let left := (s.walks.filter fun x => x.id != id) ++ if w.waiters = [] then [] else [{ w with at_ := .ended c.cause c.sub }]
    let s1 := ({ s with walks := left } : State).regrant w.die
    exec (.walkComplete id) s =
      .next ((s1.deferredBy w.tag w.cores).foldl (fun s x => s.replayLane w.tag w.base w.size (.error c) x) s1)) ∧
  (∀ (s : State) x pa, (x = .memory pa ∨ x = .l2 pa) → (regionOf pa = .hbm ∨ regionOf pa = .weights) →
    pa / 64 ∉ s.poison → exec (.backgroundScrub x true) s = .next { s with poison := pa / 64 :: s.poison }) ∧
  (∀ (s : State) tid t w, Map.find s.teams tid = some t → 4 * w < t.lsSize → w ∉ t.lsPoison →
    exec (.backgroundScrub (.localStore tid w) true) s =
      .next (s.modTeam tid fun t => { t with lsPoison := w :: t.lsPoison })) ∧
  (∀ (s : State) tid t k, Map.find s.teams tid = some t → k < 16384 * t.tiles → k ∉ t.accPoison →
    exec (.backgroundScrub (.accumulator tid k) true) s =
      .next (s.modTeam tid fun t => { t with accPoison := k :: t.accPoison })) ∧
  (∀ (s : State) tid p q n l, s.party? tid p = some q → n < 128 → l < 96 → 96 * n + l ∉ q.vPoison →
    exec (.backgroundScrub (.vector tid p n l) true) s =
      .next (s.modParty tid p fun q => { q with vPoison := (96 * n + l) :: q.vPoison })) ∧
  (∀ (s : State) tid p q k, s.party? tid p = some q → k < q.stack.length → k ∉ q.stackPoison →
    exec (.backgroundScrub (.stack tid p k) true) s =
      .next (s.modParty tid p fun q => { q with stackPoison := k :: q.stackPoison })) ∧
  (∀ (s : State) x,
    let row := match x with
      | .memory pa => if regionOf pa = .weights then 6 else 5
      | .l2 _ => 2
      | .localStore .. | .accumulator .. | .vector .. | .stack .. => 7
      | .array k => k
    row < 8 → exec (.backgroundScrub x false) s =
      .next { s with corrected := Store.write s.corrected row (Store.read s.corrected row + 1) }) ∧
  (∀ (s : State) die j, die < 4 → s.openWindow = some j →
    exec (.refreshWindowOpen die) s = .next { s with window := Store.write s.window die (BitVec.ofNat 8 (j + 1)) }) ∧
  (∀ (s : State) die, s.openWindow = none →
    exec (.refreshWindowClose die) s = .next { s with window := Map.drop s.window die }) ∧
  (∀ (s : State) die oldFrame size newFrame rank, (s.migrations.filter fun m => m.die == die).length < 64 →
    homeDie oldFrame = die → (∀ m ∈ s.migrations, oldFrame + size ≤ m.oldFrame ∨ m.oldFrame + m.size ≤ oldFrame) →
    let m : Migration :=
      { die := die, oldFrame := oldFrame, size := size, newFrame := newFrame, rank := rank, copied := [], applied := [] }
    let s1 := (((s.drainEvery fun e => decide (oldFrame ≤ 64 * e.line ∧ 64 * e.line < oldFrame + size)).reach oldFrame
      size).recallLines m).performHeld
    exec (.migrationTableEntry die oldFrame size newFrame rank) s =
      .next { s1 with migrations := s1.migrations ++ [m] }) ∧
  (∀ (s : State) die frame line m, (s.migrations.find? fun m => m.die == die && m.oldFrame == frame) = some m →
    m.oldFrame % 256 = 0 → m.newFrame % 256 = 0 → line < m.size / 256 → m.rank = none → line ∉ m.copied →
    ∃ s1 : State, exec (.migrationLineCopy die frame line) s = .next s1 ∧
      (∀ k, k < 256 → s1.byte (m.newFrame + 256 * line + k) = s.byte (m.oldFrame + 256 * line + k)) ∧
      (∀ k, k < 4 → (s1.poison.contains (m.newFrame / 64 + 4 * line + k) = s.poison.contains (m.oldFrame / 64 + 4 * line + k))) ∧
      (∀ a, (a < m.newFrame + 256 * line ∨ m.newFrame + 256 * line + 256 ≤ a) → s1.byte a = s.byte a) ∧
      s1.teams = s.teams ∧ s1.runs = s.runs ∧ s1.wcb = s.wcb ∧ s1.tlbDie = s.tlbDie) ∧
  (∀ (s : State) die frame m, (s.migrations.find? fun m => m.die == die && m.oldFrame == frame) = some m →
    (m.rank = none → m.size / 256 ≤ m.copied.length) →
    exec (.migrationEntryRemoval die frame) s =
      .next { s with migrations := s.migrations.filter fun x => !(x.die == die && x.oldFrame == frame) }) ∧
  (∀ (s : State) id o rank frame, (s.outstanding.find? fun o => o.id == id) = some o → o.bounced = some (rank, frame) →
    (∀ x ∈ s.outstanding.takeWhile (fun x => x.id != id), inOrder x.req o.req = false) →
    ∃ port order, ∃ s1 : State, s1.teams = s.teams ∧ s1.mem = s.mem ∧ exec (.migrationBounce id) s = .next { s1 with
      outstanding := s.outstanding.map fun x =>
        if x.id = id then
          { x with bounced := none, port := port, req := { x.req with dst := rank, addr := frame, order := order } }
        else x }) ∧
  (∀ (s : State) id v, (s.invals.find? fun x => x.id == id) = some v →
    let s1 := (s.drainEvery fun _ => true).applyReductions fun e => v.awaits.contains e.id
    s1.stillUses v.awaits = false → s1.wcb = [] → s1.heldStores = [] →
    let s2 : State := { s1 with invals := s1.invals.filter fun x => x.id != id }
    (∀ dest, v.dest = some dest →
      exec (.tlbrngDone id) s = .next (s2.writeStatus dest id (0x80000000 ||| BitVec.ofNat 32 (min v.removed 0xFFFFFF)))) ∧
    (v.dest = none → exec (.tlbrngDone id) s =
      .next { s2 with queues := Map.update s2.queues v.queue fun q =>
        { q with invdone := !(s2.invals.any fun x => x.dest.isNone && x.queue == v.queue) } })) ∧
  ∀ (s : State) id c dest, (s.wsCopies.find? fun c => c.id == id) = some c → c.dest = some dest →
    exec (.wsldComplete id) s = .next (({ s with wsCopies := s.wsCopies.filter fun x => x.id != id } : State).writeStatus dest id
      (0x80000000 ||| (if c.poison then 0x40000000 else 0)))

/-- R104 to R112, R120, R129, R130, R209, R216, R265, R277, R280 to R282, R291, R326, R333: the events of the engines and of
convoys, when their command or operation can go on: a channel delivers and completes, a stream command and a neighbour command
end, a group of pairs enters its stream, a store stream is written, a pass is granted and finishes, an operation retires, a convoy
commits, a cvclose is done. -/
def Obligations.EngineEvents : Prop :=
  (∀ (s s1 : State) tid ch n t x c c1 rest, Map.find s.teams tid = some t → Map.find t.channels ch = some x → x.cmds = c :: rest →
    t.running = true → s.copyOutstanding tid c.origin = false → s.classOf t ch = 0 →
    let d := c.whole (min c.stop (c.delivered + n))
    let ss := c.stretches c.delivered d
    c.delivered < d → (c.byRows = true ∨ c.stop ≤ d ∨ c.delivered + 64 ≤ d) →
    s.outranked c.place (s.stretchLines tid t c ss) = false →
    s.readAs { id := c.id, tid := tid, origin := c.origin, serial := false } (fun s => s.deliverAll tid t c d ss) = (s1, .ok c1) →
    exec (.copyDeliver tid ch n) s =
      .next (((s1.usedBytes c.id).setCmd tid ch { c1 with written := d }).landed tid ch)) ∧
  (∀ (s : State) tid ch t x c rest, Map.find s.teams tid = some t → Map.find t.channels ch = some x → x.cmds = c :: rest →
    t.running = true → c.stop ≤ c.delivered → s.copyOutstanding tid c.origin = false →
    exec (.copyComplete tid ch) s = .next ((((s.completeOp c.id).modChan tid ch fun x =>
      { x with
        cmds := x.cmds.drop 1
        wptr := match x.cmds.drop 1 with
          | y :: _ => wptrOf y.seq 0
          | [] => if (c.seq + 1) % 128 = x.next then wptrOf c.seq c.delivered else wptrOf (x.next + 127) 0 })).modParty tid
        (c.origin.party.getD 0) fun q => q.writeStatus c.id c.sd c.flags (statusOf c.poison c.cancelled c.delivered))) ∧
  (∀ (s : State) cluster core c t, (((Map.find s.ssu cluster).getD []).find? fun c => c.core == core) = some c →
    Map.find s.teams c.tid = some t → t.running = true →
    (∀ s1 o, c.ended = none → c.passes.left = 0 → s.outranked c.place c.owned = false →
      (s.readAs { id := c.id, tid := c.tid, origin := c.origin, serial := true } fun s =>
        let (s, o) := s.runSsu c
        let (s, e) := s.putSsu c o
        (s, o, e)) = (s1, o, none) → o.fault = none →
      let s2 := s1.usedBytes c.id
      let status : Word :=
        BitVec.ofNat 32 (2 ^ 31 + (if o.poison || c.bad then 2 ^ 30 else 0) + 2 ^ 24 * o.code + o.n % 2 ^ 24)
      (s2.copyOutstanding c.tid c.origin = false →
        exec (.ssuComplete cluster core) s = .next (s2.endSsu cluster c o.warn status)) ∧
      (s2.copyOutstanding c.tid c.origin = true →
        exec (.ssuComplete cluster core) s = .next { s2 with
          ssu := Map.update s2.ssu cluster fun cs =>
            cs.map fun x => if x.id = c.id then { x with ended := some (o.warn, status) } else x })) ∧
    ∀ w st, c.ended = some (w, st) → s.copyOutstanding c.tid c.origin = false →
      exec (.ssuComplete cluster core) s = .next (s.endSsu cluster c w st)) ∧
  (∀ (s s1 : State) cluster c t ps f, s.neHead cluster = some (c, t) → t.running = true → c.port.isSome = true → c.ended = none →
    (match c.pairs with
      | some ps => (s, Except.ok (ps, c.flags))
      | none =>
        let (s, r) := s.readAs c.reader fun s => s.startPairs c
        (s.usedBytes c.id, r)) = (s1, .ok (ps, f)) → ps ≠ [] →
    exec (.nePairGroup cluster) s = .next ((({ s1.useFree with
      ne := Map.update s1.ne cluster fun cs =>
        cs.map fun x => if x.id = c.id then { x with pairs := some (ps.drop 96), flags := f } else x } : State).enterGroups c
          (pairGroup s1.free (ps.take 96)) false))) ∧
  (∀ (s : State) cluster c t, s.neHead cluster = some (c, t) → t.running = true →
    (∀ st, c.ended = some st → exec (.neComplete cluster) s = .next (s.endNe cluster c st)) ∧
    (c.ended = none → c.port = none → s.outranked c.place c.owned = false →
      exec (.neComplete cluster) s = .next (s.runAs c.reader fun s => s.runBin cluster c t)) ∧
    (c.ended = none → c.port.isSome = true → c.pairs = some [] → exec (.neComplete cluster) s = .next
      ((s.useFree.enterGroups c (terminalGroup s.free (pairStatus t.neStatus c.flags)) true).endNe cluster c
        (pairStatus t.neStatus c.flags)))) ∧
  (∀ (s s1 : State) tid p port t q x, Map.find s.teams tid = some t → s.party? tid p = some q → Map.find q.ports port = some x →
    t.running = true → x.kind = .store → s.writePushed tid x x.unwritten = (s1, none) →
    (x.ended = false → exec (.storeStreamDrained tid p port) s =
      .next (s1.modParty tid p fun q => { q with ports := Map.set q.ports port { x with unwritten := [] } })) ∧
    ∀ s2, x.ended = true → s1.copyOutstanding tid x.origin = false →
      s1.release t.core tid p { q with ports := Map.drop q.ports port } x.scope = (s2, none) →
      exec (.storeStreamDrained tid p port) s =
        .next (s2.modParty tid p fun q => { q with ports := Map.drop q.ports port })) ∧
  (∀ (s : State) cluster g, s.fenced.contains (.engine cluster) = false →
    let s1 := s.repost cluster
    let waiting := (s1.matOps cluster).filter fun e => !e.passes.waiting.isEmpty && s1.posts e
    let s2 := (waiting.filter fun e => e.older g).foldl
      (fun s e => s.modPasses cluster e fun x => { x with waiting := x.waiting.map (· + 1) }) s1
    grantee waiting = some g → s1.eligible g = true →
    exec (.passGrant cluster) s = .next ((s2.enterArray cluster g).repost cluster)) ∧
  (∀ (s : State) tid id t e, Map.find s.teams tid = some t →
    ((s.matOps (clusterOf t.core)).find? fun e => e.tid == tid && e.id == id && decide (0 < e.passes.inArray)) = some e →
    (exec (.passRetire tid id true true) s = .next (s.doubleMismatch tid id (clusterOf t.core))) ∧
    (∀ mismatch, e.spx = true → exec (.passRetire tid id mismatch false) s =
      .next ((s.modPasses (clusterOf t.core) e fun x => { x with inArray := x.inArray - 1 }).modSeq tid fun q =>
        { q with check := countPass q.check false mismatch })) ∧
    ∀ mismatch q o p, e.spx = false → t.seq = some q → (q.ops.find? fun o => o.id == id) = some o →
      passFmt (passCode o.fmt) = some p →
      let count (t : Team) : Team := t.modSeq fun q => { q with check := countPass q.check true mismatch }
      (∀ cd a h tr kc nb m b, o.kind = .pass cd a h tr kc nb m → o.fetched = [b] →
        t.tileTurn o = true → t.tilePoisoned (p.a == .fp64) cd = false →
        exec (.passRetire tid id mismatch false) s = .next ((s.modTeam tid fun t =>
          (count (t.pass p o.fmt a b cd fun j => !m || t.activeNeurons j)).raiseAll (passWarn p o b)).retireOp tid id)) ∧
      ((∀ cd a h tr kc nb m, o.kind ≠ .pass cd a h tr kc nb m) →
        exec (.passRetire tid id mismatch false) s = .next ((s.modTeam tid count).modOp tid id fun o =>
          { o with passes := { o.passes with inArray := o.passes.inArray - 1 } }))) ∧
  (∀ (s : State) tid id t q o p, Map.find s.teams tid = some t → t.seq = some q → (q.ops.find? fun o => o.id == id) = some o →
    passFmt (passCode o.fmt) = some p → t.active = true → o.passes.left = 0 →
    (∀ w, o.ended = some w → exec (.matrixOpRetire tid id) s = .next (s.afterWrites tid o w)) ∧
    (o.ended = none → t.tileTurn o = true → s.memTurn tid t q o = false → s.outranked o.place o.owned = false →
      exec (.matrixOpRetire tid id) s = .next (s.fetchBefore tid t q o)) ∧
    (o.ended = none → t.tileTurn o = true → s.memTurn tid t q o = true → s.outranked o.place o.owned = false →
      let does (f : State → State) : Prop := exec (.matrixOpRetire tid id) s = .next (s.runAs (o.reader tid) f)
      (∀ ma h kc nb, o.kind = .mld ma h kc nb → does fun s => s.retireMld tid o p ma h kc nb) ∧
      (∀ cd h kc nb, o.kind = .mst cd h kc nb → does fun s => s.retireMst tid t o p cd h kc nb) ∧
      (∀ cd h, o.kind = .mscl cd h → does fun s => s.retireMscl tid t o p cd h) ∧
      (∀ ma l, o.kind = .lkoPred ma → q.lko = some l → does fun s => s.retirePred tid ma o p l) ∧
      ∀ cd ma h l, o.kind = .lkoChk cd ma h → q.lko = some l → does fun s => s.retireChk tid t cd ma o p l)) ∧
  (∀ (s : State) slot c x, Map.find s.cvSlots slot = some c → c.view = false → c.state = .opened → c.closing = some x →
    s.closingAway c = false →
    (cidRank c.cid = s.rank.toNat → s.cvLast ≤ s.ns →
      exec (.convoyCommit slot) s = .next (({ s with
        cvLast := s.ns + 1, cvTable := Map.set s.cvTable (cidSlot c.cid) .committed } : State).committed slot c s.ns) ∧
      ∃ s1 : State, exec (.convoyCommit slot) s = .next s1 ∧
        Map.find s1.cvSlots slot = some { c with state := .committed, stamp := BitVec.ofNat 64 s.ns } ∧
        s1.mem = (s.commitLines c.cid c.ver s.ns (c.lines.length - 1)).mem) ∧
    (cidRank c.cid ≠ s.rank.toNat → exec (.convoyCommit slot) s =
      .next ((s.request c.tid (some x.p) none x.origin (cidRank c.cid) 0 (.cvhome c.cid c.ver (c.lines.length - 1))).1.prepare
        c.cid c.ver))) ∧
  ∀ (s : State) tid p key c x, (s.cvSlots.find? fun c => c.2.tid == tid && c.2.state == .committed && (match c.2.closing with
      | some x => x.p == p && decide (c.2.stamp.toNat + s.bound < s.ns)
      | none => false)) = some (key, c) → c.closing = some x →
    exec (.cvcloseDone tid p) s = .next (({ s with
      cvSlots := Map.drop s.cvSlots key
      cvTable := if cidRank c.cid = s.rank.toNat then Map.drop s.cvTable (cidSlot c.cid) else s.cvTable } : State).modParty
        tid p fun q =>
        { q.setS false x.sd (cvStatus true false .committed c.lines.length) with
          pending := q.pending.filter fun y => y.op != x.op })

/-- R348 to R352, R361, R378, R380, R382, R385, R386, R393, R402 to R405, R419, R420: the events of barriers, of the graph
scheduler, of faults and of core gating, when their conditions hold. -/
def Obligations.GraphEvents : Prop :=
  (∀ (s : State) tid b t, s.phaseFull (.team tid b) = true → Map.find s.teams tid = some t → s.meets t b = false →
    exec (.barrierPhaseComplete (.team tid b)) s =
      .next (s.setBarrier (.team tid b) { phase := (s.barrier (.team tid b)).phase + 1, arrived := [] })) ∧
  (∀ (s : State) c b, s.phaseFull (.cluster c b) = true →
    exec (.barrierPhaseComplete (.cluster c b)) s =
      .next (s.setBarrier (.cluster c b) { phase := (s.barrier (.cluster c b)).phase + 1, arrived := [] })) ∧
  (∀ (s : State) tid b t, s.phaseFull (.team tid b) = true → Map.find s.teams tid = some t → s.meets t b = true →
    exec (.barrierPhaseComplete (.team tid b)) s =
      .next ((s.modTeam tid fun t => t.meet (s.barrier (.team tid b))).openPhase (.team tid b))) ∧
  (∀ (s : State) run b r, Map.find s.runs run = some r →
    (r.members.length ≤ 1 → s.phaseFull (.run run b) = true → exec (.barrierPhaseComplete (.run run b)) s =
      .next (s.setBarrier (.run run b) { phase := (s.barrier (.run run b)).phase + 1, arrived := [] })) ∧
    (1 < r.members.length → exec (.barrierPhaseComplete (.run run b)) s = .next (s.runPhase run b r))) ∧
  (∀ (s : State) run part, exec (.runBarrierMessage run part) s = .next (s.modRun run fun y =>
    { y with remoteArrived := if part ∈ y.remoteArrived then y.remoteArrived else part :: y.remoteArrived })) ∧
  (∀ (s : State) id e, (s.stalled.find? fun e => e.id == id) = some e →
    s.canAccept (s.stalled.takeWhile fun x => x.id != id) e.run e.die e.node e.recs.length = true →
    let s1 : State := { s with stalled := s.stalled.filter fun x => x.id != id }
    (∀ t, e.peer = none → Map.find s.teams e.tid = some t → t.running = true →
      exec (.stalledEmissionAccept id) s = .next (s1.acceptRecs e.run e.die e.node (some e.cluster) e.recs)) ∧
    ∀ src agent seqno, e.peer = some (src, agent, seqno) → exec (.stalledEmissionAccept id) s =
      .next (let s2 := s1.acceptRecs e.run e.die e.node none e.recs
        { s2 with
          applied := s2.applied ++ [{ src := src, agent := agent, seqno := seqno, ret := 1, at_ := s2.tbase }]
          sent := s2.sent ++ [Reply.fabric src agent seqno .ack] })) ∧
  (∀ (s : State) run die node, exec (.spillRefill run die node) s = .next (s.modRun run fun r =>
    { r with queues := Map.update r.queues (queueKey die node) fun q => refill (r.sramRoom die node) q })) ∧
  (∀ (s : State) run r die node n x rest, Map.find s.runs run = some r → r.node? node = some n →
    r.nodeQueue die node = x :: rest → r.draining = false → r.seeded.contains die = true → x.since + n.window ≤ s.clk.toNat →
    exec (.gatherWindowExpiry run die node) s = .next (s.modRun run fun r => r.gatherOne die node n.capacity s.tbase)) ∧
  (∀ (s : State) die cores nos prio stamp run k r g n,
    s.nextWaiting die = some { prio := prio, stamp := stamp, run := run, which := .inl k } → Map.find s.runs run = some r →
    r.gathered[k]? = some g → r.node? g.node = some n → s.coresFit n r.fn n.group cores = true → s.areaRoom g = true →
    (∀ c ∈ cores, dieOf c = die) → s.preferred n r.fn g cores = true → nos.length = cores.length → nos.Nodup →
    (∀ x ∈ nos, x ∉ r.teamNos) →
    exec (.teamPlacement die cores nos) s = .next (s.place run r n k g (cores.zip nos))) ∧
  (∀ (s : State) run die nodes, s.deadlocked run die nodes = true →
    let mine (w : Nat × Nat × List Nat × Nat) : Bool := w.1 == run && w.2.1 == die && w.2.2.1 == nodes
    (s.deadWatch.find? mine = none → exec (.graphDeadlockDetect run die nodes) s =
      .next { s with deadWatch := (run, die, nodes, s.clk.toNat) :: s.deadWatch }) ∧
    ∀ a b c since, s.deadWatch.find? mine = some (a, b, c, since) →
      (s.clk.toNat < since + 225000 → exec (.graphDeadlockDetect run die nodes) s = .next s) ∧
      (since + 225000 ≤ s.clk.toNat →
        let into (e : Stalled) : Bool := e.run == run && e.die == die && nodes.contains e.node
        let s1 : State := { s with
          stalled := s.stalled.filter fun e => !into e
          deadWatch := s.deadWatch.filter fun w => !mine w }
        (∀ e ∈ s.stalled, e.party < 16) →
        ∃ es : List Stalled, es.Perm (s.stalled.filter into) ∧
          es.Pairwise (fun a b => a.peer = none → b.peer = none → a.party ≤ b.party) ∧
          exec (.graphDeadlockDetect run die nodes) s = .next (es.foldl (fun s e =>
            let s2 := s.modRun e.run fun r => r.modReport die e.node fun p => { p with flags := p.flags ||| 4 }
            match e.peer with
            | none => s2.laterFault e.tid e.origin { cause := 0x0D, info := BitVec.ofNat 32 e.node } false false
            | some (src, agent, seqno) => { s2 with sent := s2.sent ++ [Reply.fabric src agent seqno (.joinFault 0x0D 0)] }) s1))) ∧
  (∀ (s : State) run die r, s.trip = false → Map.find s.runs run = some r → (r.state = .held ∨ r.state = .active) → r.draining = false →
    r.start.toNat ≤ s.tbase.toNat → r.me.dies.testBit die = true → r.seeded.contains die = false → s.sealBlocked r die = false →
    exec (.runSeed run die) s = .next (s.modRun run fun r =>
      ((seedsFor r.me.dieList die (r.seeds.map seedRec)).foldl
        (fun (r : Run) x => r.accept die (recTarget x) s.clk.toNat none [x])
        { r with state := .active, seeded := die :: r.seeded }).gatherAll s.tbase)) ∧
  (∀ (s : State) tid t r, Map.find s.teams tid = some t → Map.find s.runs t.run = some r → t.running = true →
    (∀ x ∈ t.parties, x.2.retired = true) → s.engaged tid t = false → s.unperformed tid t = false →
    (∀ e ∈ s.stalled, e.tid ≠ tid) → (∀ d ∈ s.deferred, d.tid ≠ tid) →
    (∀ c ∈ s.wsCopies, ∀ d, c.dest = some d → d.1 ≠ tid) →
    let s1 := (s.releaseJoins tid).dropConvoys tid
    exec (.teamRetire tid) s = .next (((t.teamRecords.filter fun d => !d.retired).foldl (fun s d => s.retireLate tid t d)
      ({ s1 with teams := Map.drop s1.teams tid } : State)).ladderCheck r.queue)) ∧
  (∀ (s : State) run r, Map.find s.runs run = some r → s.runEmpty run r = true →
    exec (.runComplete run) s = .next (s.endRun run 1 0 true)) ∧
  (∀ (s : State) tid t r, Map.find s.teams tid = some t →
    let s0 := s.settleStores tid t.core
    s0.stopped tid t = true →
    let s1 := s0.contain tid t
    Map.find s1.runs t.run = some r →
    (t.fault = none ∨ r.state = .fatal → exec (.faultStop tid) s = .next ((s1.fatalEnd t.run).ladderCheck r.queue)) ∧
    ∀ f, t.fault = some f → r.state ≠ .fatal →
      ((r.node? t.node).any Node.fatal = false →
        exec (.faultStop tid) s = .next ((s1.deliverFault t.run r t f false).ladderCheck r.queue)) ∧
      ((r.node? t.node).any Node.fatal = true → exec (.faultStop tid) s =
        .next (((((s1.deliverFault t.run r t f true).stopRun t.run).tellMembers r).fatalEnd t.run).ladderCheck r.queue))) ∧
  (∀ (s : State) tid p t q r, Map.find s.teams tid = some t → Map.find t.parties p = some q → Map.find s.runs t.run = some r →
    t.running = true → q.retired = false → q.hangSent = false → s.hangt ≤ s.clk.toNat - q.lastIssue →
    let x := q.slot (!q.slot0.live)
    let s1 := (s.wordAt (.party tid p (!q.slot0.live)) t x.pc).1
    let s2 := s1.modParty tid p fun q => { q with hangSent := true }
    ∃ f : FaultRec, f.cause = 0x13 ∧ f.sub = 0 ∧ f.addr = none ∧ f.lane = none ∧
      f.origin = { pc := x.pc, clause := x.clauseAddr, word := (s.wordAt (.party tid p (!q.slot0.live)) t x.pc).2, party := some p,
                   slot := !q.slot0.live } ∧
      f.info = BitVec.ofNat 32 ((s.clk.toNat - q.lastIssue) / 2250000) ∧ (f.waitOn, f.waitX) = x.wait.code ∧
      let s3 := s2.deliverFault t.run r t f false
      exec (.hangReport tid p) s = .next ((if (s1.faultTarget r t).isSome then
        s3.logFault r (faultRecord s3.rank.toNat t f 0xFFFF false) else s3).startLadder r.queue 2)) ∧
  ∀ (s : State) core,
    (s.allWait core = true → 112500 ≤ s.idleFor core → Store.read s.gated core = 0 →
      exec (.clockGate core) s = .next { s with gated := Store.write s.gated core 1 }) ∧
    (s.allWait core = true → 4500000 ≤ s.idleFor core →
      exec (.powerGate core) s = .next { s with gated := Store.write s.gated core 2 }) ∧
    (s.trip = false → s.partiesOn core ≠ [] → s.isGated core = true →
      exec (.coreWake core) s = .next { s with agenda := ⟨0, 0, .rouse core⟩ :: s.agenda }) ∧
    let woken : State := { s with gated := Store.write s.gated core 0 }
    ((∃ k, k < 4 ∧ woken.contenders issue core k ≠ []) → act (.rouse core) s = .next woken) ∧
    ((∀ k, k < 4 → woken.contenders issue core k = []) → act (.rouse core) s = .next s)

/-- R23, R412 to R418, R424 to R432: the events of the ladder, of mapping and of parked packets, when their conditions hold. -/
def Obligations.QueueEvents : Prop :=
  (∀ (s : State) key, stBusy (s.queue key).status = true → stRung (s.queue key).status = 1 → (s.queue key).resetting = false →
    (s.queue key).rungAt + 256 * (s.queue key).t1 ≤ s.tbase.toNat → (∃ t ∈ s.teamsOf key, t.2.state ≠ .saved) →
    let s1 := ((s.teamsOf key).foldl (fun s t => s.beginSave t.1) s).modQueue key fun q => { q with rungAt := s.tbase.toNat }
    exec (.ladderDrainTimeout key) s = .next (s1.postStatus key (statusWord 2 true false (stReason (s.queue key).status)
      ((s1.teamsOf key).filter fun t => t.2.state == .saved).length))) ∧
  (∀ (s : State) key, stBusy (s.queue key).status = true → (s.queue key).resetting = false →
    let ends (s1 : State) : Prop :=
      let w := (s1.queue key).status
      (s1.writesOut key = true → exec (.ladderSaveTimeout key) s = .next s1) ∧
      (s1.writesOut key = false → exec (.ladderSaveTimeout key) s =
        .next ((s1.postStatus key (statusWord 3 false false (stReason w) (stTeams w))).finishPreempts key false))
    (stRung (s.queue key).status = 3 → ends s) ∧
    (stRung (s.queue key).status = 2 → (s.queue key).rungAt + 256 * (s.queue key).t2 ≤ s.tbase.toNat →
      (∃ t ∈ s.teamsOf key, t.2.state ≠ .saved) → ends ((s.resetRung key true).modQueue key fun x =>
        { x with status := statusWord 3 true false (stReason (s.queue key).status) (stTeams (s.queue key).status) }))) ∧
  (∀ (s : State) tid t r, Map.find s.teams tid = some t → Map.find s.runs t.run = some r →
    let members := if t.group.isSome then s.teams.filter fun u => u.2.group == t.group else [(tid, t)]
    (∀ u ∈ members, s.savable u.1 u.2 = true) →
    exec (.teamSaveComplete tid) s = .next ((members.foldl (fun s u => s.save u.1 u.2) s).ladderCheck r.queue)) ∧
  (∀ (s : State) tid cores t n r prio stamp run, Map.find s.teams tid = some t → s.node? t = some n →
    Map.find s.runs t.run = some r →
    s.nextWaiting t.die = some { prio := prio, stamp := stamp, run := run, which := .inr tid } →
    let members : List Nat :=
      match t.group with
      | none => [tid]
      | some g => (List.range g.2).filterMap fun m =>
          (s.teams.find? fun u => u.2.group == some g && u.2.vcore == m).map Prod.fst
    s.coresFit n r.fn members.length cores = true → (∀ c ∈ cores, dieOf c = t.die) →
    (∀ x ∈ members.zip cores, s.convoysFit x.1 x.2 = true) →
    exec (.teamResume tid cores) s = .next ((members.zip cores).foldl (fun s m => s.resumeOn m.1 n m.2) s)) ∧
  (∀ (s : State) key n, (s.queue key).mapped = some n → stResum (s.queue key).status = false → s.turnToMap.isSome = true →
    256 ≤ (s.queues.filter fun y => y.2.mapped.isSome).length → (s.queue key).mappedAt + 2560000000 ≤ s.tbase.toNat →
    exec (.timeSliceExpiry key) s = .next (s.startLadder key 1)) ∧
  (∀ (s : State) key slot (o : MapOrder), s.turnToMap = some key → slot < 256 →
    (∀ x ∈ s.queues, ∀ n t, x.2.mapped = some (n, t) → n ≠ slot ∧ t ≠ o.tag) → Map.find s.contexts o.tag.toNat = none →
    s.trip = false → s.visible = true → o.t1 ≤ 10000000 → 100000 ≤ o.t2 → o.t2 ≤ 100000000 → 2250000 ≤ o.hangt →
    o.hangt ≤ 135000000000 →
    let s1 := s.grant (fnOf key) o
    let s2 := (({ s1 with
      contexts := Map.set s1.contexts o.tag.toNat { root := (s1.queue key).root.toNat, fn := fnOf key, queue := key }
      lastFn := fnOf key, hangt := o.hangt } : State).modRunsOf key fun r => { r with tag := o.tag }).modQueue key fun x =>
        { x with mapped := some (slot, o.tag), mappedAt := s1.tbase.toNat, idleAt := s1.tbase.toNat, privileged := o.privileged
                 t1 := o.t1, t2 := o.t2 }
    exec (.queueMap key slot o) s = .next (if stReason (s2.queue key).status = 1 then s2.resumeQueue key else s2)) ∧
  (∀ (s : State) key n, (s.queue key).mapped = some n → (s.queue key).resetting = false →
    (s.queue key).state ≠ .enabled → s.hasRun key = false → exec (.queueUnmap key) s = .next (s.unmap key)) ∧
  (∀ s : State, s.polledAt + 225000 ≤ s.clk.toNat → s.trip = false →
    exec .parkedWaitPoll s = .next (({ s with polledAt := s.clk.toNat } : State).pollWaits (Map.keys s.queues))) ∧
  (∀ (s : State) key p, ((s.queue key).started.find? fun p => !p.begun) = some p → s.wsloadSealed p.words = false →
    s.trip = false → (s.queue key).state = .enabled → (s.queue key).mapped.isSome = true →
    exec (.wsloadUnsealStart key) s = .next ((s.modQueue key fun x =>
      { x with started := x.started.map fun y => if y.index = p.index then { y with begun := true } else y }).beginWsload key
        p.index p.words)) ∧
  (∀ (s : State) key idx c p, (s.wsCopies.find? fun c => c.dest.isNone && c.queue == key && c.packet == idx) = some c →
    ((s.queue key).started.find? fun p => p.index == idx) = some p →
    let s1 : State := { s with wsCopies := s.wsCopies.filter fun x => x.id != c.id }
    exec (.wsloadComplete key idx) s = .next ((if pktWide p.words 6 = 0 then s1 else
      s1.signal key (pktWide p.words 6) .set (pktWide p.words 8 ||| (if c.poison then 2 ^ 63 else 0))).completePacket key idx)) ∧
  ∀ (s : State) key, (s.queue key).resetting = true →
    (∀ tag k, (s.queue key).tag = some tag → Map.find s.lastReq tag.toNat = some k → k + 256 * (s.fto + s.bound) ≤ s.tbase.toNat) →
    exec (.queueResetComplete key) s = .next (((((({ s with
      outstanding := s.outstanding.filter fun o => (s.queue key).tag != some o.tag } : State).postStatus key
        (statusWord 3 false false 0 0)).unmap key).modQueue key fun q =>
          { q with resetting := false, state := .disabled, err := 0 }).finishPreempts key true).finishFlr (fnOf key))

/-- R392, R439 to R453, R457, R464: the events of the fabric, of its keys and of the time base: a peer's request, performed in its
source's order, and an answer to one of this device's, a retry and a fabric timeout, the record of an atomic, a flit, a port that
trains or goes down, the keys, the rank, the timeout, the inputs, the lock and the holdover of tbase. tbase never decreases, and while
a run is active it keeps to 100 parts per million of its nominal rate. -/
def Obligations.FabricAndTime : Prop :=
  (∀ (s : State) r, r.dst = s.rank.toNat → r.src ≠ s.rank.toNat → s.linked = true → s.trip = false → sizedRequest r = true →
    (∀ x ∈ s.reorder, ¬(x.src = r.src ∧ x.agent = r.agent ∧ x.seqno = r.seqno ∧ x.order = r.order)) →
    (s.forwards r = true → exec (.remoteRequest r) s = .next (s.useFree.inTurn r) ∨ exec (.remoteRequest r) s =
      .next { s.useFree with sent := s.sent ++ [Reply.fabric r.src r.agent r.seqno .retry] }) ∧
    (s.forwards r = false → r.stamp.toNat + 256 * (s.fto + s.bound) < s.tbase.toNat →
      exec (.remoteRequest r) s = .next (s.passed r)) ∧
    (s.forwards r = false → s.tbase.toNat ≤ r.stamp.toNat + 256 * (s.fto + s.bound) →
      (0 < s.ahead r → exec (.remoteRequest r) s = .next { s with reorder := s.reorder ++ [r] }) ∧
      ∀ s1 a, s.ahead r = 0 → s.serve r = .answer s1 a →
        let s2 := if a = .retry then s1 else s1.passed r
        exec (.remoteRequest r) s = .next { s2 with sent := s2.sent ++ [Reply.fabric r.src r.agent r.seqno a] })) ∧
  (∀ (s : State) r, (r.dst ≠ s.rank.toNat ∨ s.linked = false ∨ s.trip = true ∨ sizedRequest r = false) →
    exec (.remoteRequest r) s = .next s) ∧
  (∀ (s : State) id o, s.linked = true → s.trip = false →
    (s.outstanding.find? fun o => o.id == id && o.away && o.port.isSome && o.req.dst != s.rank.toNat) = some o →
    exec (.remoteResponse id .ack) s = .next (s.acknowledge o) ∧
    exec (.remoteResponse id .hole) s = .next (s.refuse o 0x06 4) ∧
    exec (.remoteResponse id .weightStore) s = .next (s.refuse o 0x08 0) ∧
    exec (.remoteResponse id .ecc) s = .next (s.refuse o 0x0F 0) ∧
    (∀ v, exec (.remoteResponse id (.data v)) s = .next (s.readBack o v)) ∧
    (∀ v a, o.access = some a → exec (.remoteResponse id (.front v)) s = .next ((s.loseView o a).fillRead o a v)) ∧
    (exec (.remoteResponse id .stalled) s = .next { s with
      outstanding := s.outstanding.map fun x => if x.id = id then { x with held := true } else x }) ∧
    (exec (.remoteResponse id .retry) s = .next { s with
      outstanding := s.outstanding.map fun x =>
        if x.id = id then
          { x with waiting := true, backoff := if x.backoff = 0 then 1 else min 64 (2 * x.backoff), retryAt := s.tbase.toNat }
        else x }) ∧
    (∀ rank frame, exec (.remoteResponse id (.bounce rank frame)) s = .next { s with
      outstanding := s.outstanding.map fun x =>
        if x.id = id then { x with bounced := some (rank, frame), backoff := 0 } else x }) ∧
    ∀ c u, exec (.remoteResponse id (.joinFault c u)) s = .next (s.joinFault o c u)) ∧
  (∀ (s : State) id o, (s.outstanding.find? fun o => o.id == id) = some o → o.req.stamp.toNat + 256 * s.fto ≤ s.tbase.toNat →
    o.held = false → o.after = none → o.req.dst ≠ s.rank.toNat →
    exec (.fabricTimeout id) s = .next ((s.timedOut o).peerFailed o.req.dst) ∧
    (∀ bs, o.req.op = .write bs → o.access = none → o.late = none →
      s.timedOut o = s.failRequest o { cause := 0x11, addr := o.va, info := BitVec.ofNat 32 o.req.dst } true)) ∧
  (∀ (s : State) id,
    let due (o : Outstanding) : Prop :=
      o.id = id ∧ o.waiting = true ∧ o.held = false ∧ o.retryAt + 256000 * o.backoff ≤ s.tbase.toNat
    ((∀ o ∈ s.outstanding, ¬due o) → exec (.fabricRetryBackoff id) s = .next s) ∧
    ((∃ o ∈ s.outstanding, due o) → ∃ port : Option Nat, exec (.fabricRetryBackoff id) s = .next { s with
      free := s.free + 1
      outstanding := s.outstanding.map fun o =>
        if o.id = id ∧ o.waiting = true ∧ o.held = false ∧ o.retryAt + 256000 * o.backoff ≤ s.tbase.toNat then
          { o with waiting := false, port := port }
        else o })) ∧
  (∀ (s : State) src agent seqno, ∃ s1 : State, exec (.atomicRecordExpiry src agent seqno) s = .next s1 ∧
    ({ s1 with applied := s.applied } : State) = s ∧
    ∀ a, a ∈ s1.applied ↔ a ∈ s.applied ∧
      ¬(a.src = src ∧ a.agent = agent ∧ a.seqno = seqno ∧ a.at_.toNat + 256 * s.fto ≤ s.tbase.toNat)) ∧
  (∀ (s : State) port (f : Flit), (s.port port).up = true →
    let good : Prop := f.intact = true ∧
      (s.key = some f.key ∨ ∃ t, s.oldKey = some (f.key, t) ∧ s.tbase.toNat < t + 2560000000)
    (good → exec (.dlFlitReceive port f) s = .next (s.setPort port { s.port port with failures := 0 })) ∧
    (¬good → (s.port port).failures < 2 → exec (.dlFlitReceive port f) s =
      .next (s.setPort port { s.port port with failures := (s.port port).failures + 1 })) ∧
    (¬good → 2 ≤ (s.port port).failures → exec (.dlFlitReceive port f) s =
      .next (s.setPort port { trained := false, up := false, failures := 0, held := true }))) ∧
  (∀ (s : State) port offer, port < 16 → 3 ≤ s.phase → s.trip = false →
    ∃ s1 : State, exec (.linkTraining port offer) s = .next s1 ∧ (s1.port port).trained = true ∧
      ((s1.port port).up = true ↔ offer.lanes = 4 ∧ offer.gtPerLane = 200 ∧ s.key.isSome = true ∧ s.ranked = true)) ∧
  (∀ (s : State) port, port < 16 → ∃ s1 : State, exec (.portGoesDown port) s = .next s1 ∧ (s1.port port).up = false ∧
    (s1.port port).trained = false) ∧
  (∀ (s : State) k since, s.oldKey = some (k, since) → since + 2560000000 ≤ s.tbase.toNat →
    exec .oldKeyExpiry s = .next { s with oldKey := none }) ∧
  (∀ (s : State) k, exec (.setKey k false) s = .next (s.reply .refused) ∧
    (s.key = none → exec (.setKey k true) s = .next (({ s with key := some k } : State).keyPorts.reply .accepted)) ∧
    (s.key ≠ none → exec (.setKey k true) s = .next (({ s with newKey := some k } : State).reply .accepted))) ∧
  (∀ s : State, s.newKey = none → exec .keySwitch s = .next (s.reply .refused)) ∧
  (∀ (s : State) k j, s.newKey = some k → s.key = some j → exec .keySwitch s =
    .next (({ s with key := some k, newKey := none, oldKey := some (j, s.tbase.toNat) } : State).keyPorts.reply .accepted)) ∧
  (∀ (s : State), ∃ s1 : State, exec .zeroise s = .next s1 ∧ s1.key = none ∧ s1.newKey = none ∧ s1.oldKey = none ∧
    ∀ p, (s1.port p).up = false) ∧
  (∀ (s : State) r ns, s.anyMapped = false →
    exec (.setRank r) s = .next (({ s with rank := r, ranked := true } : State).keyPorts.reply .accepted) ∧
    (100000 ≤ ns → ns ≤ 100000000 → exec (.setFto ns) s = .next (({ s with fto := ns } : State).reply .accepted))) ∧
  (∀ (s : State) r ns, (s.anyMapped = true → exec (.setRank r) s = .next (s.reply .refused)) ∧
    (s.anyMapped = true ∨ ns < 100000 ∨ 100000000 < ns → exec (.setFto ns) s = .next (s.reply .refused))) ∧
  (∀ (s : State) (off : Int),
    let second : Int := 256000000000
    let input (x : Int) : State :=
      let near : Bool := decide (x.natAbs ≤ 12800)
      { s with
        tOffset := x
        lastSync := s.tbase.toNat
        locked := s.locked && near
        lostAt := if s.locked && !near then s.tbase.toNat else s.lostAt
        tolSince :=
          if near then some (if s.tbase.toNat < s.lastSync + 512000000000 then s.tolSince.getD s.tbase.toNat else s.tbase.toNat)
          else none }
    ((∀ k, s.lastPps = some k → k + 512000000000 ≤ s.tbase.toNat) →
      exec (.ptpMessage off) s = .next (input (256 * off))) ∧
    (∀ k, s.lastPps = some k → s.tbase.toNat < k + 512000000000 → ∃ n : Int,
      exec (.ptpMessage off) s = .next (input (s.tOffset + n * second)) ∧
      (s.tOffset + n * second - 256 * off).natAbs ≤ second.natAbs) ∧
    ∃ n : Int, exec (.ppsInput off) s = .next { input (256 * off + n * second) with lastPps := some s.tbase.toNat } ∧
      (256 * off + n * second - s.tOffset).natAbs ≤ second.natAbs) ∧
  (∀ (s : State) dclk dtb,
    let n := tbaseOfCycles s.clk dclk
    let t := (s.pass dclk dtb).tbase.toNat
    s.tbase.toNat ≤ t ∧ ((∃ r ∈ s.runs, r.2.state = .active) →
      t ≤ s.tbase.toNat + n + n / 10000 ∧
      (s.tbase.toNat + n + n / 10000 < 2 ^ 64 → s.tbase.toNat + n ≤ t + n / 10000))) ∧
  (∀ (s : State) since, s.tolSince = some since → since + 15360000000000 ≤ s.tbase.toNat →
    s.tbase.toNat < s.lastSync + 512000000000 →
    exec .tbaseLock s = .next { s with locked := true, holdover := false }) ∧
  ∀ s : State, s.locked = true → s.lastSync + 512000000000 ≤ s.tbase.toNat →
    exec .holdoverEntry s = .next { s with locked := false, holdover := true, lostAt := s.tbase.toNat, tolSince := none }

/-- R406, R435, R437, R438, R458 to R464: power, resets, bring-up, fencing, attestation and management. A reset returns every
field to its reset value but the fuses, the signature index, the stored image, memory outside the device and the model's own
counters, agenda and outbox. -/
def Obligations.PowerAndManagement : Prop :=
  (∀ (s : State) die (r : Reading), die < 4 →
    let l := (Store.read s.throttle die).toNat
    let above : Bool := decide (250 * s.cap.toNat - 90000 < r.power)
    let long : Prop := l = 1 ∧ ∃ k, (s.sensorsOf die).overSince = some k ∧ k + 225000 ≤ s.clk.toNat
    let want (level : Nat) : Prop :=
      (103000 < r.hottest → level = 5) ∧ (r.hottest ≤ 103000 → 100000 < r.hottest → level = 4) ∧
      (r.hottest ≤ 100000 → 95000 < r.array → level = 3) ∧
      (r.hottest ≤ 100000 → r.array ≤ 95000 → above = true → (2 ≤ l ∨ long → level = 2) ∧ (¬(2 ≤ l ∨ long) → level = 1)) ∧
      (r.hottest ≤ 100000 → r.array ≤ 95000 → above = false → level = 0)
    ∃ level x, want level ∧ x.last = r ∧
      x.hotSince = (if 105000 < r.hottest then some ((s.sensorsOf die).hotSince.getD s.clk.toNat) else none) ∧
      exec (.throttleUp die r) s = .next { s with
        throttle := Store.write s.throttle die (BitVec.ofNat 8 (max l level)), sensors := Map.set s.sensors die x }) ∧
  (∀ (s : State) die k, die < 4 → Store.read s.throttle die ≠ 0 → (s.sensorsOf die).calmSince = some k →
    k + 2250000 ≤ s.clk.toNat →
    s.asks (s.sensorsOf die).last (Store.read s.throttle die).toNat (s.sensorsOf die).overSince < (Store.read s.throttle die).toNat →
    exec (.throttleDown die) s = .next { s with
      throttle := Store.write s.throttle die (BitVec.ofNat 8 ((Store.read s.throttle die).toNat - 1))
      sensors := Map.set s.sensors die { s.sensorsOf die with overSince := none, calmSince := some s.clk.toNat } }) ∧
  (∀ s : State, ∃ s1 : State, exec .coolantFault s = .next s1 ∧ s1.trip = true ∧
    (∀ core, core < 192 → Store.read s1.gated core = 2) ∧
    let hot (die : Nat) : Prop := die < 4 ∧ Store.read s.throttle die = 5 ∧
      ∃ k, (s.sensorsOf die).hotSince = some k ∧ k + 2250000 ≤ s.clk.toNat
    ((∃ die, hot die) → exec .thermalTrip s = .next s1) ∧ ((∀ die, ¬hot die) → exec .thermalTrip s = .next s)) ∧
  (∀ s : State, ∃ s1 : State, exec .coldReset s = .next s1 ∧ exec .warmReset s = .next s1 ∧
    s1 = { State.reset with
      agenda := s.agenda, nextId := s.nextId, free := s.free, sent := s.sent, minVersion := s.minVersion, keyFuse := s.keyFuse
      sigIndex := s.sigIndex, fwImage := s.fwImage, fwVersion := s.fwVersion, mem := s1.mem } ∧
    (∀ a, regionOf a ≠ .host → s1.byte a = 0) ∧ (∀ a, regionOf a = .host → s1.byte a = s.byte a) ∧
    s1.phase = 0 ∧ s1.clk = 0 ∧ s1.tbase = 0 ∧ s1.teams = [] ∧ s1.runs = [] ∧ s1.queues = [] ∧ s1.fnPages = [] ∧ s1.fenced = [] ∧
    s1.key = none ∧ s1.newKey = none ∧ s1.oldKey = none ∧ s1.rank = 0 ∧ s1.ranked = false ∧ s1.fabPorts = [] ∧
    s1.outstanding = [] ∧ s1.throttle = [] ∧ s1.sensors = [] ∧ s1.trip = false ∧ s1.cap = 3600 ∧ s1.fto = 1000000) ∧
  (∀ s : State, ∃ s1 : State, exec .coldReset (s.reply .accepted) = .next s1 ∧ exec .mgmtReset s = .next s1) ∧
  (∀ (s : State),
    let good : Prop := s.fwImage.key = s.keyFuse ∧ s.fwImage.signed = s.fwImage.content ∧ s.minVersion.toNat ≤ s.fwVersion.toNat
    (s.phase = 0 → good → exec (.bringupPhaseComplete true) s = .next { s with phase := 1 }) ∧
    (s.phase = 0 → ¬good → exec (.bringupPhaseComplete true) s = .next s) ∧
    (s.phase = 1 ∨ s.phase = 2 → exec (.bringupPhaseComplete true) s = .next { s with phase := s.phase + 1 }) ∧
    (s.phase = 3 → s.ranked = true → s.key.isSome = true →
      exec (.bringupPhaseComplete true) s = .next { s with phase := 4 }) ∧
    (s.phase = 3 → s.ranked = false ∨ s.key = none → exec (.bringupPhaseComplete true) s = .next s) ∧
    exec (.bringupPhaseComplete false) s = .next s) ∧
  (∀ (s : State) f, f < 64 → ∃ s1 : State, s1 = (((s.queues.filter fun q => fnOf q.1 == f).map Prod.fst).foldl
      (fun s k => s.beginReset k) (s.modFn f fun p => { p with flr := true })) ∧
    exec (.functionLevelReset f) s = .next (s1.finishFlr f)) ∧
  (∀ (s : State) f, f < 64 → exec (.configurationRequest f) s =
    .next { s with sent := s.sent ++ [if 2 ≤ s.phase then Reply.configuration f else Reply.retryStatus f] }) ∧
  (∀ (s : State) f, 64 ≤ f → exec (.configurationRequest f) s = .next s ∧ exec (.functionLevelReset f) s = .next s) ∧
  (∀ (s : State) u, s.fenced.contains u = true → exec (.unitFence u) s = .next s) ∧
  (∀ (s : State) a b, s.fenced.contains (.channel a b) = false →
    exec (.unitFence (.channel a b)) s = .next { s with fenced := s.fenced ++ [.channel a b] }) ∧
  (∀ (s : State) c, s.fenced.contains (.ne c) = false →
    exec (.unitFence (.ne c)) s = .next { s with fenced := s.fenced ++ [.ne c] }) ∧
  (∀ (s : State) c, s.fenced.contains (.engine c) = false → exec (.unitFence (.engine c)) s = .next (s.fenceEngine c)) ∧
  (∀ (s : State) c, s.fenced.contains (.ssu c) = false →
    exec (.unitFence (.ssu c)) s = .next { s with
      fenced := s.fenced ++ [.ssu c]
      ssu := Map.update s.ssu c fun cs => cs.map fun x =>
        if (cs.find? fun y => y.core == x.core).any fun y => y.id == x.id then
          { x with bad := true, ended := x.ended.map fun e => (e.1, e.2 ||| 0x40000000) }
        else x }) ∧
  (∀ (s : State) die k, s.fenced.contains (.slice die k) = false →
    (s.activeOn die = [] → exec (.unitFence (.slice die k)) s =
      .next ((s.queues.filter fun q => stResum q.2.status && stReason q.2.status == 3).foldl (fun s q => s.resumeQueue q.1)
        { s with fenced := s.fenced ++ [.slice die k] })) ∧
    (s.activeOn die ≠ [] → exec (.unitFence (.slice die k)) s =
      .next (((s.activeOn die).map Run.queue).dedup.foldl (fun s k => s.startLadder k 3) s))) ∧
  (∀ (s : State) c, s.fenced.contains (.core c) = false →
    let hit (t : Team) : Bool := t.core == c || t.group.any
      (s.teams.filterMap fun u => if u.2.core == c && u.2.state == .resident then u.2.group else none).contains
    exec (.unitFence (.core c)) s =
      .next ((s.teams.filter fun t => hit t.2).foldl (fun s t => s.beginSave t.1) { s with fenced := s.fenced ++ [.core c] })) ∧
  (∀ (s : State) tid t, Map.find s.teams tid = some t → t.state = .resident →
    (∃ u, Map.find (s.beginSave tid).teams tid = some u ∧ u.state = .saving ∧ u.parties = t.parties) ∧
    ∀ k, k ≠ tid → Map.find (s.beginSave tid).teams k = Map.find s.teams k) ∧
  (∀ (s : State), exec .getVersion s = .next (s.reply (.version 1 2)) ∧ exec .getCapabilities s = .next (s.reply .capabilities) ∧
    exec .negotiateAlgorithms s = .next (s.reply (.algorithms .sha3_384 .xmssShake256_20_256)) ∧
    exec .getDigests s = .next (s.reply (.digests (Config.digest Config.certificate))) ∧
    exec .getCertificate s = .next (s.reply (.certificate Config.certificate)) ∧
    exec .getMeasurements s = .next (s.reply (.measurements (Config.digest Config.romContent) (Config.digest s.fwImage.content)
      s.fwVersion.toNat s.fenced (s.minVersion.toNat, s.keyFuse, Config.fusedConfig)))) ∧
  (∀ (s : State) nonce, (s.sigIndex < 2 ^ 20 → exec (.challenge nonce) s =
      .next (({ s with sigIndex := s.sigIndex + 1 } : State).reply (.signed s.sigIndex nonce))) ∧
    (2 ^ 20 ≤ s.sigIndex → exec (.challenge nonce) s = .next (s.reply .spdmError))) ∧
  (∀ (s : State) die, exec (.pldmMonitorRequest (.throttle die)) s =
      .next (s.reply (.pldm (.throttle die) (Store.read s.throttle die).toNat)) ∧
    exec (.pldmMonitorRequest .fences) s = .next (s.reply (.fenceMap s.fenced)) ∧
    exec (.pldmMonitorRequest (.temperature die)) s =
      .next (s.reply (.pldm (.temperature die) (s.sensorsOf die).last.hottest)) ∧
    exec (.pldmMonitorRequest (.diePower die)) s = .next (s.reply (.pldm (.diePower die) (s.sensorsOf die).last.power)) ∧
    (∃ v, exec (.pldmMonitorRequest .packagePower) s =
      .next (({ s with free := s.free + 1 } : State).reply (.pldm .packagePower v))) ∧
    exec (.pldmMonitorRequest (.errorCount die)) s =
      .next (s.reply (.pldm (.errorCount die) (Store.read s.corrected die).toNat))) ∧
  ∀ (s : State) v, ∃ c : Word, c.toNat = max 1800 (min 3600 (v.toNat % 4096)) ∧
    exec (.setCap v) s = .next (({ s with cap := c } : State).reply .accepted)

/-- A packet event: the queue takes its next packet, which is of the type, and the event does `f` with it. -/
def PacketEvent (e : Nat → Instr) (ty : Nat) (f : Nat → State → Nat → Rec → State) : Prop :=
  ∀ (s s1 : State) key idx w, s.take key ty = .go s1 idx w → exec (e key) s = .next (f key s1 idx w)

/-- R421 to R431, R434, R436, R461: the writes of the host's registers, by name or at their offsets in a function's BAR, and the
packets when their queue takes them. Queue pages answer from bring-up phase 2. -/
def Obligations.HostRegistersAndPackets : Prop :=
  (∀ (s : State) f q, f < 64 → q < 1024 → s.visible = true →
    let key := qKey f q
    let x := s.queue key
    (∀ v, (s.trip = true ∨ x.state ≠ .enabled ∨ (v - x.rptr).toNat ≤ 2 ^ (x.logn + 4)) →
      exec (.doorbell f q v) s =
        .next (({ s with nextId := s.nextId + 1 } : State).modQueue key fun x => { x with wptr := v, bell := s.nextId })) ∧
    (s.trip = false → x.state = .disabled → x.resetting = false → x.logn ≤ 12 → x.statva.toNat % 4 = 0 →
      exec (.queueEnable f q) s = .next (s.setQueue key { x with state := .enabled, rptr := x.wptr })) ∧
    (x.state = .enabled → s.hasRun key = false →
      exec (.queueDisable f q) s = .next (s.modQueue key fun x => { x with state := .disabled })) ∧
    exec (.queueCtlReset f q) s = .next (s.beginReset key) ∧ exec (.queueCtlPreempt f q) s = .next (s.startLadder key 0) ∧
    exec (.queueCtlResume f q) s = .next (s.resumeQueue key) ∧
    (x.mapped = none → exec (.queueInvalidate f q) s = .next (s.modQueue key fun x => { x with invdone := true })) ∧
    (∀ n tag, x.mapped = some (n, tag) →
      let lo := x.invva.toNat % 2 ^ 57
      ∃ s1 id, (s.modQueue key fun x => { x with invdone := false }).invalidate tag (if x.invn = 0 then 0 else lo)
          (if x.invn = 0 then 2 ^ 57 else min (lo + x.invn.toNat * 65536) (2 ^ 57)) none key = (s1, id) ∧
        exec (.queueInvalidate f q) s = .next s1) ∧
    (∀ v, x.state = .disabled →
      exec (.registerWrite f (.ring q) v) s = .next (s.modQueue key fun x =>
        { x with ring := v &&& 0x01FFFFFFFFFFF000, logn := v.toNat % 16 }) ∧
      exec (.registerWrite f (.root q) v) s = .next (s.modQueue key fun x => { x with root := v &&& 0x000FFFFFFFFFF000 }) ∧
      exec (.registerWrite f (.statva q) v) s = .next (s.modQueue key fun x => { x with statva := v })) ∧
    (∀ v, x.state ≠ .disabled →
      exec (.registerWrite f (.ring q) v) s = .next s ∧ exec (.registerWrite f (.root q) v) s = .next s ∧
      exec (.registerWrite f (.statva q) v) s = .next s) ∧
    ∀ v, exec (.registerWrite f (.invva q) v) s = .next (s.modQueue key fun x => { x with invva := v }) ∧
      exec (.registerWrite f (.invn q) v) s = .next (s.modQueue key fun x => { x with invn := v.setWidth 32 })) ∧
  (∀ (s : State) f q, (64 ≤ f ∨ 1024 ≤ q ∨ s.visible = false) →
    (∀ v, exec (.doorbell f q v) s = .next s) ∧ exec (.queueEnable f q) s = .next s ∧ exec (.queueDisable f q) s = .next s ∧
    exec (.queueCtlReset f q) s = .next s ∧ exec (.queueCtlPreempt f q) s = .next s ∧ exec (.queueCtlResume f q) s = .next s ∧
    exec (.queueInvalidate f q) s = .next s) ∧
  (∀ (s : State) f q (v : DWord), f < 64 → q < 1024 → s.visible = true →
    let at_ (off : Nat) : HostReg := .bar (0x100000 + 0x1000 * q + off) false
    let wide (off : Nat) : HostReg := .bar (0x100000 + 0x1000 * q + off) true
    exec (.registerWrite f (wide 0x000) v) s = exec (.registerWrite f (.ring q) v) s ∧
    exec (.registerWrite f (wide 0x008) v) s = exec (.registerWrite f (.root q) v) s ∧
    exec (.registerWrite f (wide 0x010) v) s = exec (.registerWrite f (.statva q) v) s ∧
    exec (.registerWrite f (at_ 0x018) v) s = exec (.doorbell f q (v.setWidth 32)) s ∧
    (v.toNat % 8 = 1 → exec (.registerWrite f (at_ 0x024) v) s = exec (.queueEnable f q) s) ∧
    (v.toNat % 8 = 2 → exec (.registerWrite f (at_ 0x024) v) s = exec (.queueDisable f q) s) ∧
    (v.toNat % 8 = 3 → exec (.registerWrite f (at_ 0x024) v) s = exec (.queueCtlReset f q) s) ∧
    (v.toNat % 8 = 4 → exec (.registerWrite f (at_ 0x024) v) s = exec (.queueCtlPreempt f q) s) ∧
    (v.toNat % 8 = 5 → exec (.registerWrite f (at_ 0x024) v) s = exec (.queueCtlResume f q) s) ∧
    exec (.registerWrite f (at_ 0x034) v) s = exec (.queueInvalidate f q) s ∧
    s.readBar f (0x100000 + 0x1000 * q + 0x018) = some (s.queue (qKey f q)).wptr ∧
    s.readBar f (0x100000 + 0x1000 * q + 0x01C) = some (s.queue (qKey f q)).rptr) ∧
  (∀ (s : State) f (v : DWord), f < 64 →
    exec (.registerWrite f (.bar 0x040 true) v) s = exec (.sigdbWrite f v) s ∧
    exec (.registerWrite f (.bar 0x06C false) v) s = exec (.pwrcapWrite f (v.setWidth 32)) s ∧
    exec (.registerWrite f (.bar 0x80C false) v) s = exec (.mailboxGo f) s ∧
    (v.getLsbD 31 = true → exec (.registerWrite f (.bar 0x060 false) v) s = exec (.flogdropClear f) s) ∧
    (v.getLsbD 31 = false → exec (.registerWrite f (.bar 0x060 false) v) s = .next s)) ∧
  (∀ (s : State) f off q, s.visible = false → (f ≠ 0 → s.readBar f off = none) ∧
    s.readBar f (0x100000 + 0x1000 * q + off) = none) ∧
  (∀ (s : State) f va, f < 64 → (s.visible = true ∨ f = 0) →
    (s.trip = false → exec (.sigdbWrite f va) s = .next (s.pollWaits ((s.queues.filter fun q =>
      fnOf q.1 == f && q.2.parkedWait.any fun p => pktWide p.words 2 == va).map Prod.fst))) ∧
    exec (.flogdropClear f) s = .next (s.modFn f fun p => { p with flogdrop := 0 })) ∧
  (∀ (s : State) v, (∃ c : Word, c.toNat = max 1800 (min 3600 (v.toNat % 4096)) ∧
      exec (.pwrcapWrite 0 v) s = .next { s with cap := c }) ∧
    ∀ f, f ≠ 0 → exec (.pwrcapWrite f v) s = .next s) ∧
  (∀ s : State, fld (s.fnPage 0).mbstat 0 2 ≠ 1 →
    (s.anyMapped = false → exec (.mailboxGo 0) s = .next (s.modFn 0 fun p => { p with mbstat := 1 })) ∧
    (s.visible = true → s.anyMapped = true → exec (.mailboxGo 0) s = .next (s.modFn 0 fun p => { p with mbstat := 0x503 }))) ∧
  (∀ (s : State) (x : FwImage) version, fld (s.fnPage 0).mbstat 0 2 = 1 → (s.fnPage 0).mbLen.toNat ≤ 2 ^ 26 →
    (x.key = s.keyFuse → x.signed = x.content → s.minVersion.toNat ≤ version.toNat →
      ∃ s1 : State, exec (.mailboxVerifyDone x version true) s = .next s1 ∧ s1.fwVersion = version ∧ s1.minVersion = version ∧
        s1.fwImage = x ∧ (s1.fnPage 0).mbstat = 2 ∧ s1.agenda = { dclk := 0, dtb := 0, act := .event .warmReset } :: s.agenda) ∧
    (x.key ≠ s.keyFuse ∨ x.signed ≠ x.content →
      exec (.mailboxVerifyDone x version true) s = .next (s.modFn 0 fun p => { p with mbstat := 0x103 })) ∧
    (x.key = s.keyFuse → x.signed = x.content → version.toNat < s.minVersion.toNat →
      exec (.mailboxVerifyDone x version true) s = .next (s.modFn 0 fun p => { p with mbstat := 0x203 })) ∧
    exec (.mailboxVerifyDone x version false) s = .next (s.modFn 0 fun p => { p with mbstat := 0x403 })) ∧
  PacketEvent .packetLaunch 1 (fun key s idx w => s.launch key idx w) ∧
  PacketEvent .packetWait 2 (fun key s idx w =>
    match s.evalWait key w with
    | (s, some true) => s.completePacket key idx
    | (s, some false) => s.modQueue key fun x => { x with state := .parked }
    | (s, none) => s.failQueue key 2) ∧
  PacketEvent .packetSignal 3 (fun key s idx w =>
    let op : SigOp := if fld (recWord w 6) 0 8 = 0 then .set else if fld (recWord w 6) 0 8 = 1 then .add else .sub
    s.signal key (pktWide w 2) op (pktWide w 4) (some idx)) ∧
  (∀ (s s1 : State) key idx w, s.take key 4 = .go s1 idx w → s1.wsloadSealed w = false →
    exec (.packetWsload key) s = .next (s1.beginWsload key idx w)) ∧
  (∀ (s s1 : State) key idx w, s.take key 4 = .go s1 idx w → s1.wsloadSealed w = true →
    exec (.packetWsload key) s = .next (s1.modQueue key fun x =>
      { x with started := x.started.map fun p => if p.index = idx then { p with begun := false } else p })) ∧
  (∀ (s s1 : State) key idx w p rest, s.take key 5 = .go s1 idx w → (s1.queue key).started = p :: rest →
    (p.index = idx → exec (.packetBarrier key) s = .next
      (if pktWide w 2 = 0 then s1.completePacket key idx
        else (s1.marked key idx).signal key (pktWide w 2) .set (pktWide w 4) (some idx))) ∧
    (p.index ≠ idx → exec (.packetBarrier key) s = .next s1)) ∧
  PacketEvent .packetPreempt 6 (fun key s idx w =>
    let target := qKey (fnOf key) (pktTarget w)
    let s := if fld (recWord w 2) 16 8 = 0 then s.startLadder target 0 else s.resumeQueue target
    if stBusy (s.queue target).status then s else s.completePacket key idx) ∧
  PacketEvent .packetReset 7 fun key s _ w => s.beginReset (qKey (fnOf key) (pktTarget w))
end

