-- ==== Sys2Proof/Laws/Dispatch.lean ====
section
/-!
SUPPORT. One equation per constructor: `exec` calls that constructor's meaning.
-/

namespace Sys2Proof.Machine

open Sys2Proof

theorem exec_sadd d a b s : exec (.sadd d a b) s = execSadd d a b s := rfl
theorem exec_ssub d a b s : exec (.ssub d a b) s = execSsub d a b s := rfl
theorem exec_smul d a b s : exec (.smul d a b) s = execSmul d a b s := rfl
theorem exec_smulhI32 d a b s : exec (.smulhI32 d a b) s = execSmulhI32 d a b s := rfl
theorem exec_smulhN32 d a b s : exec (.smulhN32 d a b) s = execSmulhN32 d a b s := rfl
theorem exec_sand d a b s : exec (.sand d a b) s = execSand d a b s := rfl
theorem exec_sor d a b s : exec (.sor d a b) s = execSor d a b s := rfl
theorem exec_sxor d a b s : exec (.sxor d a b) s = execSxor d a b s := rfl
theorem exec_sshl d a b s : exec (.sshl d a b) s = execSshl d a b s := rfl
theorem exec_sshr d a b s : exec (.sshr d a b) s = execSshr d a b s := rfl
theorem exec_ssra d a b s : exec (.ssra d a b) s = execSsra d a b s := rfl
theorem exec_sminI32 d a b s : exec (.sminI32 d a b) s = execSminI32 d a b s := rfl
theorem exec_sminN32 d a b s : exec (.sminN32 d a b) s = execSminN32 d a b s := rfl
theorem exec_smaxI32 d a b s : exec (.smaxI32 d a b) s = execSmaxI32 d a b s := rfl
theorem exec_smaxN32 d a b s : exec (.smaxN32 d a b) s = execSmaxN32 d a b s := rfl
theorem exec_smov d a s : exec (.smov d a) s = execSmov d a s := rfl
theorem exec_spopc d a s : exec (.spopc d a) s = execSpopc d a s := rfl
theorem exec_sclz d a s : exec (.sclz d a) s = execSclz d a s := rfl
theorem exec_sffs d a s : exec (.sffs d a) s = execSffs d a s := rfl
theorem exec_scmp c d a b s : exec (.scmp c d a b) s = execScmp c d a b s := rfl
theorem exec_ssel c d a b s : exec (.ssel c d a b) s = execSsel c d a b s := rfl
theorem exec_saddImm d a x s : exec (.saddImm d a x) s = execSaddImm d a x s := rfl
theorem exec_sandImm d a x s : exec (.sandImm d a x) s = execSandImm d a x s := rfl
theorem exec_sorImm d a x s : exec (.sorImm d a x) s = execSorImm d a x s := rfl
theorem exec_sshlImm d a n s : exec (.sshlImm d a n) s = execSshlImm d a n s := rfl
theorem exec_sshrImm d a n s : exec (.sshrImm d a n) s = execSshrImm d a n s := rfl
theorem exec_ssraImm d a n s : exec (.ssraImm d a n) s = execSsraImm d a n s := rfl
theorem exec_sbfx d a sign lsb w s : exec (.sbfx d a sign lsb w) s = execSbfx d a sign lsb w s := rfl
theorem exec_sbfi d a lsb w s : exec (.sbfi d a lsb w) s = execSbfi d a lsb w s := rfl
theorem exec_sli d x s : exec (.sli d x) s = execSli d x s := rfl
theorem exec_slui d x s : exec (.slui d x) s = execSlui d x s := rfl
theorem exec_sget d n s : exec (.sget d n) s = execSget d n s := rfl
theorem exec_sset a n s : exec (.sset a n) s = execSset a n s := rfl
theorem exec_ckwarn d a s : exec (.ckwarn d a) s = execCkwarn d a s := rfl
theorem exec_setfmt v s : exec (.setfmt v) s = execSetfmt v s := rfl
theorem exec_setmode v s : exec (.setmode v) s = execSetmode v s := rfl
theorem exec_br o s : exec (.br o) s = execBr o s := rfl
theorem exec_call o s : exec (.call o) s = execCall o s := rfl
theorem exec_bc t a o s : exec (.bc t a o) s = execBc t a o s := rfl
theorem exec_bdiv a o s : exec (.bdiv a o) s = execBdiv a o s := rfl
theorem exec_nop s : exec .nop s = execNop s := rfl
theorem exec_join s : exec .join s = execJoin s := rfl
theorem exec_ret s : exec .ret s = execRet s := rfl
theorem exec_jmpi a s : exec (.jmpi a) s = execJmpi a s := rfl
theorem exec_exit s : exec .exit s = execExit s := rfl
theorem exec_yield s : exec .yield s = execYield s := rfl
theorem exec_vadd t d a b s : exec (.vadd t d a b) s = execVadd t d a b s := rfl
theorem exec_vsub t d a b s : exec (.vsub t d a b) s = execVsub t d a b s := rfl
theorem exec_vmul t d a b s : exec (.vmul t d a b) s = execVmul t d a b s := rfl
theorem exec_vmulhSigned t d a b s : exec (.vmulhSigned t d a b) s = execVmulhSigned t d a b s := rfl
theorem exec_vmulhUnsigned t d a b s : exec (.vmulhUnsigned t d a b) s = execVmulhUnsigned t d a b s := rfl
theorem exec_vmac t d a b s : exec (.vmac t d a b) s = execVmac t d a b s := rfl
theorem exec_vand t d a b s : exec (.vand t d a b) s = execVand t d a b s := rfl
theorem exec_vor t d a b s : exec (.vor t d a b) s = execVor t d a b s := rfl
theorem exec_vxor t d a b s : exec (.vxor t d a b) s = execVxor t d a b s := rfl
theorem exec_vnot t d a s : exec (.vnot t d a) s = execVnot t d a s := rfl
theorem exec_vshl t d a b s : exec (.vshl t d a b) s = execVshl t d a b s := rfl
theorem exec_vshr t d a b s : exec (.vshr t d a b) s = execVshr t d a b s := rfl
theorem exec_vsra t d a b s : exec (.vsra t d a b) s = execVsra t d a b s := rfl
theorem exec_vminSigned t d a b s : exec (.vminSigned t d a b) s = execVminSigned t d a b s := rfl
theorem exec_vminUnsigned t d a b s : exec (.vminUnsigned t d a b) s = execVminUnsigned t d a b s := rfl
theorem exec_vmaxSigned t d a b s : exec (.vmaxSigned t d a b) s = execVmaxSigned t d a b s := rfl
theorem exec_vmaxUnsigned t d a b s : exec (.vmaxUnsigned t d a b) s = execVmaxUnsigned t d a b s := rfl
theorem exec_vabs t d a s : exec (.vabs t d a) s = execVabs t d a s := rfl
theorem exec_vneg t d a s : exec (.vneg t d a) s = execVneg t d a s := rfl
theorem exec_vpopc t d a s : exec (.vpopc t d a) s = execVpopc t d a s := rfl
theorem exec_vclz t d a s : exec (.vclz t d a) s = execVclz t d a s := rfl
theorem exec_vmov t d a s : exec (.vmov t d a) s = execVmov t d a s := rfl
theorem exec_vsel t d a b s : exec (.vsel t d a b) s = execVsel t d a b s := rfl
theorem exec_vcmp wide c z a b s : exec (.vcmp wide c z a b) s = execVcmp wide c z a b s := rfl
theorem exec_vaddImm d a x s : exec (.vaddImm d a x) s = execVaddImm d a x s := rfl
theorem exec_vli d x s : exec (.vli d x) s = execVli d x s := rfl
theorem exec_vbfx d a sign lsb w s : exec (.vbfx d a sign lsb w) s = execVbfx d a sign lsb w s := rfl
theorem exec_vbfi d a lsb w s : exec (.vbfi d a lsb w) s = execVbfi d a lsb w s := rfl
theorem exec_vshlImm d a n s : exec (.vshlImm d a n) s = execVshlImm d a n s := rfl
theorem exec_vshrImm d a n s : exec (.vshrImm d a n) s = execVshrImm d a n s := rfl
theorem exec_vsraImm d a n s : exec (.vsraImm d a n) s = execVsraImm d a n s := rfl
theorem exec_vperm d a b s : exec (.vperm d a b) s = execVperm d a b s := rfl
theorem exec_vbcast d a n s : exec (.vbcast d a n) s = execVbcast d a n s := rfl
theorem exec_vxshf d a m s : exec (.vxshf d a m) s = execVxshf d a m s := rfl
theorem exec_vred op d a s : exec (.vred op d a) s = execVred op d a s := rfl
theorem exec_vscan op excl d a s : exec (.vscan op excl d a) s = execVscan op excl d a s := rfl
theorem exec_vballot z a s : exec (.vballot z a) s = execVballot z a s := rfl
theorem exec_vvote k z a s : exec (.vvote k z a) s = execVvote k z a s := rfl
theorem exec_sgetIdLane d s : exec (.sgetIdLane d) s = execSgetIdLane d s := rfl
theorem exec_vfadd t d a b s : exec (.vfadd t d a b) s = execVfadd t d a b s := rfl
theorem exec_vfsub t d a b s : exec (.vfsub t d a b) s = execVfsub t d a b s := rfl
theorem exec_vfmul t d a b s : exec (.vfmul t d a b) s = execVfmul t d a b s := rfl
theorem exec_vfma t d a b s : exec (.vfma t d a b) s = execVfma t d a b s := rfl
theorem exec_vfms t d a b s : exec (.vfms t d a b) s = execVfms t d a b s := rfl
theorem exec_vfmin t d a b s : exec (.vfmin t d a b) s = execVfmin t d a b s := rfl
theorem exec_vfmax t d a b s : exec (.vfmax t d a b) s = execVfmax t d a b s := rfl
theorem exec_vfexp t d a s : exec (.vfexp t d a) s = execVfexp t d a s := rfl
theorem exec_vfscl t d a b s : exec (.vfscl t d a b) s = execVfscl t d a b s := rfl
theorem exec_vfclass t d a s : exec (.vfclass t d a) s = execVfclass t d a s := rfl
theorem exec_vf2sum wide d a b s : exec (.vf2sum wide d a b) s = execVf2sum wide d a b s := rfl
theorem exec_vfrnd t d a seed s : exec (.vfrnd t d a seed) s = execVfrnd t d a seed s := rfl
theorem exec_vrcp t d a s : exec (.vrcp t d a) s = execVrcp t d a s := rfl
theorem exec_vrsq t d a s : exec (.vrsq t d a) s = execVrsq t d a s := rfl
theorem exec_vsqrt t d a s : exec (.vsqrt t d a) s = execVsqrt t d a s := rfl
theorem exec_vexp2 t d a s : exec (.vexp2 t d a) s = execVexp2 t d a s := rfl
theorem exec_vlog2 t d a s : exec (.vlog2 t d a) s = execVlog2 t d a s := rfl
theorem exec_vsin t d a s : exec (.vsin t d a) s = execVsin t d a s := rfl
theorem exec_vcos t d a s : exec (.vcos t d a) s = execVcos t d a s := rfl
theorem exec_vtanh t d a s : exec (.vtanh t d a) s = execVtanh t d a s := rfl
theorem exec_vosmx d a b s : exec (.vosmx d a b) s = execVosmx d a b s := rfl
theorem exec_vosms d a s : exec (.vosms d a) s = execVosms d a s := rfl
theorem exec_vfcmp t c z a b s : exec (.vfcmp t c z a b) s = execVfcmp t c z a b s := rfl
theorem exec_vfcvt d a df sf sat s : exec (.vfcvt d a df sf sat) s = execVfcvt d a df sf sat s := rfl
theorem exec_vld d a b o pol z s : exec (.vld d a b o pol z) s = execVld d a b o pol z s := rfl
theorem exec_vst d a b o pol z s : exec (.vst d a b o pol z) s = execVst d a b o pol z s := rfl
theorem exec_vldg d a b o pol z s : exec (.vldg d a b o pol z) s = execVldg d a b o pol z s := rfl
theorem exec_vsts d a b o pol z s : exec (.vsts d a b o pol z) s = execVsts d a b o pol z s := rfl
theorem exec_lld d a b z s : exec (.lld d a b z) s = execLld d a b z s := rfl
theorem exec_lst d a b z s : exec (.lst d a b z) s = execLst d a b z s := rfl
theorem exec_ald wide d a t s : exec (.ald wide d a t) s = execAld wide d a t s := rfl
theorem exec_ast wide d a t s : exec (.ast wide d a t) s = execAst wide d a t s := rfl
theorem exec_pref a b pol s : exec (.pref a b pol) s = execPref a b pol s := rfl
theorem exec_fence str scope s : exec (.fence str scope) s = execFence str scope s := rfl
theorem exec_cclean a b scope s : exec (.cclean a b scope) s = execCclean a b scope s := rfl
theorem exec_cinval a b scope s : exec (.cinval a b scope) s = execCinval a b scope s := rfl
theorem exec_cpy d ch hd hs scope s : exec (.cpy d ch hd hs scope) s = execCpy d ch hd hs scope s := rfl
theorem exec_cpwpRead d ch s : exec (.cpwpRead d ch) s = execCpwpRead d ch s := rfl
theorem exec_cpwpRecv d m s : exec (.cpwpRecv d m) s = execCpwpRecv d m s := rfl
theorem exec_cpcan ch s : exec (.cpcan ch) s = execCpcan ch s := rfl
theorem exec_qbind q h scope s : exec (.qbind q h scope) s = execQbind q h scope s := rfl
theorem exec_qclose q s : exec (.qclose q) s = execQclose q s := rfl
theorem exec_cvopen d a view s : exec (.cvopen d a view) s = execCvopen d a view s := rfl
theorem exec_cvclose d t s : exec (.cvclose d t) s = execCvclose d t s := rfl
theorem exec_cvstat d t s : exec (.cvstat d t) s = execCvstat d t s := rfl
theorem exec_ssint d a b f s : exec (.ssint d a b f) s = execSsint d a b f s := rfl
theorem exec_ssmerge d a b int keepz c s : exec (.ssmerge d a b int keepz c) s = execSsmerge d a b int keepz c s := rfl
theorem exec_ssscan d a b s : exec (.ssscan d a b) s = execSsscan d a b s := rfl
theorem exec_spx d a s : exec (.spx d a) s = execSpx d a s := rfl
theorem exec_nbbin d a s : exec (.nbbin d a) s = execNbbin d a s := rfl
theorem exec_nbpairs d a port s : exec (.nbpairs d a port) s = execNbpairs d a port s := rfl
theorem exec_nbstat d s : exec (.nbstat d) s = execNbstat d s := rfl
theorem exec_emit v e j ns s : exec (.emit v e j ns) s = execEmit v e j ns s := rfl
theorem exec_emitr v e r ns s : exec (.emitr v e r ns) s = execEmitr v e r ns s := rfl
theorem exec_rget d w x s : exec (.rget d w x) s = execRget d w x s := rfl
theorem exec_rdone d s : exec (.rdone d) s = execRdone d s := rfl
theorem exec_futnew d c s : exec (.futnew d c) s = execFutnew d c s := rfl
theorem exec_futreg j e v s : exec (.futreg j e v) s = execFutreg j e v s := rfl
theorem exec_futres j n f s : exec (.futres j n f) s = execFutres j n f s := rfl
theorem exec_futst d j s : exec (.futst d j) s = execFutst d j s := rfl
theorem exec_dget src h s : exec (.dget src h) s = execDget src h s := rfl
theorem exec_barArrive z b s : exec (.barArrive z b) s = execBarArrive z b s := rfl
theorem exec_barWait z b s : exec (.barWait z b) s = execBarWait z b s := rfl
theorem exec_barSync z b s : exec (.barSync z b) s = execBarSync z b s := rfl
theorem exec_kli k v s : exec (.kli k v) s = execKli k v s := rfl
theorem exec_kadd k a v s : exec (.kadd k a v) s = execKadd k a v s := rfl
theorem exec_kbr c a o s : exec (.kbr c a o) s = execKbr c a o s := rfl
theorem exec_mld m h k ko s : exec (.mld m h k ko) s = execMld m h k ko s := rfl
theorem exec_mrel m s : exec (.mrel m) s = execMrel m s := rfl
theorem exec_mzero c s : exec (.mzero c) s = execMzero c s := rfl
theorem exec_mma c m h ru k ko zs s : exec (.mma c m h ru k ko zs) s = execMma c m h ru k ko zs s := rfl
theorem exec_mmt c m h ru k ko zs s : exec (.mmt c m h ru k ko zs) s = execMmt c m h ru k ko zs s := rfl
theorem exec_mst c h k ko s : exec (.mst c h k ko) s = execMst c h k ko s := rfl
theorem exec_mscl c h s : exec (.mscl c h) s = execMscl c h s := rfl
theorem exec_mchk k s : exec (.mchk k) s = execMchk k s := rfl
theorem exec_mbar b s : exec (.mbar b) s = execMbar b s := rfl
theorem exec_lkoPred m h s : exec (.lkoPred m h) s = execLkoPred m h s := rfl
theorem exec_lkoFetch h s : exec (.lkoFetch h) s = execLkoFetch h s := rfl
theorem exec_lkoChk c m h s : exec (.lkoChk c m h) s = execLkoChk c m h s := rfl
theorem exec_trap code s : exec (.trap code) s = execTrap code s := rfl
theorem exec_rfe d a b s : exec (.rfe d a b) s = execRfe d a b s := rfl
theorem exec_tlbrng d a b s : exec (.tlbrng d a b) s = execTlbrng d a b s := rfl
theorem exec_wsld d a b s : exec (.wsld d a b) s = execWsld d a b s := rfl
theorem exec_hcall d a b s : exec (.hcall d a b) s = execHcall d a b s := rfl
theorem exec_clkrd d s : exec (.clkrd d) s = execClkrd d s := rfl
theorem exec_vliLit d w s : exec (.vliLit d w) s = execVliLit d w s := rfl
theorem exec_vfcvtSr d a df sf sat seed s : exec (.vfcvtSr d a df sf sat seed) s = execVfcvtSr d a df sf sat seed s := rfl
theorem exec_vldgPart d a b o pol z m s : exec (.vldgPart d a b o pol z m) s = execVldgPart d a b o pol z m s := rfl
theorem exec_sld d a b z o pol s : exec (.sld d a b z o pol) s = execSld d a b z o pol s := rfl
theorem exec_sst d a b z o pol s : exec (.sst d a b z o pol) s = execSst d a b z o pol s := rfl
theorem exec_vatom op ty o d a b s : exec (.vatom op ty o d a b) s = execVatom op ty o d a b s := rfl
theorem exec_vredm op ty o d a b s : exec (.vredm op ty o d a b) s = execVredm op ty o d a b s := rfl
theorem exec_lredm op ty o d a b s : exec (.lredm op ty o d a b) s = execLredm op ty o d a b s := rfl
theorem exec_satom op ty o d a b s : exec (.satom op ty o d a b) s = execSatom op ty o d a b s := rfl
theorem exec_cpg d ch hd hs scope v s : exec (.cpg d ch hd hs scope v) s = execCpg d ch hd hs scope v s := rfl
theorem exec_cps d ch hd hs scope v s : exec (.cps d ch hd hs scope v) s = execCps d ch hd hs scope v s := rfl
theorem exec_cpm d ch hs scope m s : exec (.cpm d ch hs scope m) s = execCpm d ch hs scope m s := rfl
theorem exec_cpwpWait d ch k s : exec (.cpwpWait d ch k) s = execCpwpWait d ch k s := rfl
theorem exec_cpwpAck m k s : exec (.cpwpAck m k) s = execCpwpAck m k s := rfl
theorem exec_cvst d a b o pol z t s : exec (.cvst d a b o pol z t) s = execCvst d a b o pol z t s := rfl
theorem exec_cvld d a b o pol z t s : exec (.cvld d a b o pol z t) s = execCvld d a b o pol z t s := rfl
theorem exec_kliLiteral k w s : exec (.kliLiteral k w) s = execKliLiteral k w s := rfl
theorem exec_clauseIssue w s : exec (.clauseIssue w) s = execClauseIssue w s := rfl
theorem exec_starvationPromote tid p s : exec (.starvationPromote tid p) s = execStarvationPromote tid p s := rfl
theorem exec_yieldTimeout tid p s : exec (.yieldTimeout tid p) s = execYieldTimeout tid p s := rfl
theorem exec_runAhead tid p s : exec (.runAhead tid p) s = execRunAhead tid p s := rfl
theorem exec_memoryReadResponse tid p id s : exec (.memoryReadResponse tid p id) s = execMemoryReadResponse tid p id s := rfl
theorem exec_wcbDrainTimeout core line s : exec (.wcbDrainTimeout core line) s = execWcbDrainTimeout core line s := rfl
theorem exec_walkComplete id s : exec (.walkComplete id) s = execWalkComplete id s := rfl
theorem exec_tlbrngDone id s : exec (.tlbrngDone id) s = execTlbrngDone id s := rfl
theorem exec_migrationBounce id s : exec (.migrationBounce id) s = execMigrationBounce id s := rfl
theorem exec_migrationLineCopy die frame line s : exec (.migrationLineCopy die frame line) s = execMigrationLineCopy die frame line s := rfl
theorem exec_backgroundScrub pa uncorrectable s : exec (.backgroundScrub pa uncorrectable) s = execBackgroundScrub pa uncorrectable s := rfl
theorem exec_refreshWindowOpen die s : exec (.refreshWindowOpen die) s = execRefreshWindowOpen die s := rfl
theorem exec_refreshWindowClose die s : exec (.refreshWindowClose die) s = execRefreshWindowClose die s := rfl
theorem exec_copyDeliver tid ch n s : exec (.copyDeliver tid ch n) s = execCopyDeliver tid ch n s := rfl
theorem exec_copyComplete tid ch s : exec (.copyComplete tid ch) s = execCopyComplete tid ch s := rfl
theorem exec_ssuComplete cluster core s : exec (.ssuComplete cluster core) s = execSsuComplete cluster core s := rfl
theorem exec_nePairGroup cluster s : exec (.nePairGroup cluster) s = execNePairGroup cluster s := rfl
theorem exec_neComplete cluster s : exec (.neComplete cluster) s = execNeComplete cluster s := rfl
theorem exec_storeStreamDrained tid p port s : exec (.storeStreamDrained tid p port) s = execStoreStreamDrained tid p port s := rfl
theorem exec_passGrant cluster s : exec (.passGrant cluster) s = execPassGrant cluster s := rfl
theorem exec_passRetire tid id mismatch mismatch2 s : exec (.passRetire tid id mismatch mismatch2) s = execPassRetire tid id mismatch mismatch2 s := rfl
theorem exec_matrixOpRetire tid id s : exec (.matrixOpRetire tid id) s = execMatrixOpRetire tid id s := rfl
theorem exec_barrierPhaseComplete b s : exec (.barrierPhaseComplete b) s = execBarrierPhaseComplete b s := rfl
theorem exec_runBarrierMessage run part s : exec (.runBarrierMessage run part) s = execRunBarrierMessage run part s := rfl
theorem exec_stalledEmissionAccept id s : exec (.stalledEmissionAccept id) s = execStalledEmissionAccept id s := rfl
theorem exec_spillRefill run die node s : exec (.spillRefill run die node) s = execSpillRefill run die node s := rfl
theorem exec_gatherWindowExpiry run die node s : exec (.gatherWindowExpiry run die node) s = execGatherWindowExpiry run die node s := rfl
theorem exec_teamPlacement die cores nos s : exec (.teamPlacement die cores nos) s = execTeamPlacement die cores nos s := rfl
theorem exec_graphDeadlockDetect run die nodes s : exec (.graphDeadlockDetect run die nodes) s = execGraphDeadlockDetect run die nodes s := rfl
theorem exec_runSeed run die s : exec (.runSeed run die) s = execRunSeed run die s := rfl
theorem exec_teamRetire tid s : exec (.teamRetire tid) s = execTeamRetire tid s := rfl
theorem exec_runComplete run s : exec (.runComplete run) s = execRunComplete run s := rfl
theorem exec_faultStop tid s : exec (.faultStop tid) s = execFaultStop tid s := rfl
theorem exec_hangReport tid p s : exec (.hangReport tid p) s = execHangReport tid p s := rfl
theorem exec_clockGate core s : exec (.clockGate core) s = execClockGate core s := rfl
theorem exec_powerGate core s : exec (.powerGate core) s = execPowerGate core s := rfl
theorem exec_coreWake core s : exec (.coreWake core) s = execCoreWake core s := rfl
theorem exec_ladderDrainTimeout q s : exec (.ladderDrainTimeout q) s = execLadderDrainTimeout q s := rfl
theorem exec_ladderSaveTimeout q s : exec (.ladderSaveTimeout q) s = execLadderSaveTimeout q s := rfl
theorem exec_teamSaveComplete tid s : exec (.teamSaveComplete tid) s = execTeamSaveComplete tid s := rfl
theorem exec_teamResume tid cores s : exec (.teamResume tid cores) s = execTeamResume tid cores s := rfl
theorem exec_timeSliceExpiry q s : exec (.timeSliceExpiry q) s = execTimeSliceExpiry q s := rfl
theorem exec_queueMap q slot tag s : exec (.queueMap q slot tag) s = execQueueMap q slot tag s := rfl
theorem exec_queueUnmap q s : exec (.queueUnmap q) s = execQueueUnmap q s := rfl
theorem exec_parkedWaitPoll s : exec .parkedWaitPoll s = execParkedWaitPoll s := rfl
theorem exec_wsloadUnsealStart q s : exec (.wsloadUnsealStart q) s = execWsloadUnsealStart q s := rfl
theorem exec_wsloadComplete q idx s : exec (.wsloadComplete q idx) s = execWsloadComplete q idx s := rfl
theorem exec_reductionEntryApply die sector s : exec (.reductionEntryApply die sector) s = execReductionEntryApply die sector s := rfl
theorem exec_convoyCommit slot s : exec (.convoyCommit slot) s = execConvoyCommit slot s := rfl
theorem exec_cvcloseDone tid p s : exec (.cvcloseDone tid p) s = execCvcloseDone tid p s := rfl
theorem exec_remoteRequest r s : exec (.remoteRequest r) s = execRemoteRequest r s := rfl
theorem exec_remoteResponse id r s : exec (.remoteResponse id r) s = execRemoteResponse id r s := rfl
theorem exec_fabricRetryBackoff id s : exec (.fabricRetryBackoff id) s = execFabricRetryBackoff id s := rfl
theorem exec_fabricTimeout id s : exec (.fabricTimeout id) s = execFabricTimeout id s := rfl
theorem exec_atomicRecordExpiry src agent seqno s : exec (.atomicRecordExpiry src agent seqno) s = execAtomicRecordExpiry src agent seqno s := rfl
theorem exec_dlFlitReceive port authentic s : exec (.dlFlitReceive port authentic) s = execDlFlitReceive port authentic s := rfl
theorem exec_linkTraining port offer s : exec (.linkTraining port offer) s = execLinkTraining port offer s := rfl
theorem exec_oldKeyExpiry s : exec .oldKeyExpiry s = execOldKeyExpiry s := rfl
theorem exec_ptpMessage offset s : exec (.ptpMessage offset) s = execPtpMessage offset s := rfl
theorem exec_ppsInput offset s : exec (.ppsInput offset) s = execPpsInput offset s := rfl
theorem exec_tbaseLock s : exec .tbaseLock s = execTbaseLock s := rfl
theorem exec_holdoverEntry s : exec .holdoverEntry s = execHoldoverEntry s := rfl
theorem exec_throttleUp die level s : exec (.throttleUp die level) s = execThrottleUp die level s := rfl
theorem exec_throttleDown die s : exec (.throttleDown die) s = execThrottleDown die s := rfl
theorem exec_thermalTrip s : exec .thermalTrip s = execThermalTrip s := rfl
theorem exec_coolantFault s : exec .coolantFault s = execCoolantFault s := rfl
theorem exec_coldReset s : exec .coldReset s = execColdReset s := rfl
theorem exec_warmReset s : exec .warmReset s = execWarmReset s := rfl
theorem exec_bringupPhaseComplete ok s : exec (.bringupPhaseComplete ok) s = execBringupPhaseComplete ok s := rfl
theorem exec_functionLevelReset f s : exec (.functionLevelReset f) s = execFunctionLevelReset f s := rfl
theorem exec_unitFence u s : exec (.unitFence u) s = execUnitFence u s := rfl
theorem exec_doorbell f q v s : exec (.doorbell f q v) s = execDoorbell f q v s := rfl
theorem exec_queueEnable f q s : exec (.queueEnable f q) s = execQueueEnable f q s := rfl
theorem exec_queueDisable f q s : exec (.queueDisable f q) s = execQueueDisable f q s := rfl
theorem exec_queueCtlReset f q s : exec (.queueCtlReset f q) s = execQueueCtlReset f q s := rfl
theorem exec_queueCtlPreempt f q s : exec (.queueCtlPreempt f q) s = execQueueCtlPreempt f q s := rfl
theorem exec_queueCtlResume f q s : exec (.queueCtlResume f q) s = execQueueCtlResume f q s := rfl
theorem exec_queueInvalidate f q s : exec (.queueInvalidate f q) s = execQueueInvalidate f q s := rfl
theorem exec_sigdbWrite f va s : exec (.sigdbWrite f va) s = execSigdbWrite f va s := rfl
theorem exec_flogdropClear f s : exec (.flogdropClear f) s = execFlogdropClear f s := rfl
theorem exec_pwrcapWrite f v s : exec (.pwrcapWrite f v) s = execPwrcapWrite f v s := rfl
theorem exec_mailboxGo f s : exec (.mailboxGo f) s = execMailboxGo f s := rfl
theorem exec_mailboxVerifyDone sigOk version readOk s : exec (.mailboxVerifyDone sigOk version readOk) s = execMailboxVerifyDone sigOk version readOk s := rfl
theorem exec_registerWrite f r v s : exec (.registerWrite f r v) s = execRegisterWrite f r v s := rfl
theorem exec_packetLaunch q s : exec (.packetLaunch q) s = execPacketLaunch q s := rfl
theorem exec_packetWait q s : exec (.packetWait q) s = execPacketWait q s := rfl
theorem exec_packetSignal q s : exec (.packetSignal q) s = execPacketSignal q s := rfl
theorem exec_packetWsload q s : exec (.packetWsload q) s = execPacketWsload q s := rfl
theorem exec_packetBarrier q s : exec (.packetBarrier q) s = execPacketBarrier q s := rfl
theorem exec_packetPreempt q s : exec (.packetPreempt q) s = execPacketPreempt q s := rfl
theorem exec_packetReset q s : exec (.packetReset q) s = execPacketReset q s := rfl
theorem exec_getVersion s : exec .getVersion s = execGetVersion s := rfl
theorem exec_getCapabilities s : exec .getCapabilities s = execGetCapabilities s := rfl
theorem exec_negotiateAlgorithms s : exec .negotiateAlgorithms s = execNegotiateAlgorithms s := rfl
theorem exec_getDigests s : exec .getDigests s = execGetDigests s := rfl
theorem exec_getCertificate s : exec .getCertificate s = execGetCertificate s := rfl
theorem exec_challenge nonce s : exec (.challenge nonce) s = execChallenge nonce s := rfl
theorem exec_getMeasurements s : exec .getMeasurements s = execGetMeasurements s := rfl
theorem exec_pldmMonitorRequest w s : exec (.pldmMonitorRequest w) s = execPldmMonitorRequest w s := rfl
theorem exec_setRank r s : exec (.setRank r) s = execSetRank r s := rfl
theorem exec_setKey wrapped unwraps s : exec (.setKey wrapped unwraps) s = execSetKey wrapped unwraps s := rfl
theorem exec_keySwitch s : exec .keySwitch s = execKeySwitch s := rfl
theorem exec_zeroise s : exec .zeroise s = execZeroise s := rfl
theorem exec_setFto ns s : exec (.setFto ns) s = execSetFto ns s := rfl
theorem exec_setCap v s : exec (.setCap v) s = execSetCap v s := rfl
theorem exec_mgmtReset s : exec .mgmtReset s = execMgmtReset s := rfl
theorem exec_migrationTableEntry die oldFrame size newFrame rank s : exec (.migrationTableEntry die oldFrame size newFrame rank) s = execMigrationTableEntry die oldFrame size newFrame rank s := rfl
theorem exec_migrationEntryRemoval die oldFrame s : exec (.migrationEntryRemoval die oldFrame) s = execMigrationEntryRemoval die oldFrame s := rfl
theorem exec_wsldComplete id s : exec (.wsldComplete id) s = execWsldComplete id s := rfl
theorem exec_queueResetComplete q s : exec (.queueResetComplete q) s = execQueueResetComplete q s := rfl
theorem exec_portGoesDown port s : exec (.portGoesDown port) s = execPortGoesDown port s := rfl
theorem exec_configurationRequest f s : exec (.configurationRequest f) s = execConfigurationRequest f s := rfl

end Sys2Proof.Machine
end

