-- ==== Sys2Proof/Laws/Encoding.lean ====
section
/-!
SUPPORT. The fields of the packed words: each field lemma says that a field of a packed word is what was packed there
(R159), each code lemma that a code reads back, each `decodeFields_…` lemma which decoder a major selects (R163).
-/

set_option linter.unusedSimpArgs false
set_option linter.unusedVariables false
set_option linter.constructorNameAsVariable false

namespace Sys2Proof

/-! ## Slices of a concatenation -/

theorem extract_append_low {a b : Nat} (x : BitVec a) (y : BitVec b) (lo len : Nat) (h : lo + len ≤ b) :
    (x ++ y).extractLsb' lo len = y.extractLsb' lo len := by
  ext i hi
  simp only [BitVec.getElem_extractLsb', BitVec.getLsbD_append]
  have : lo + i < b := by omega
  simp [this]

theorem extract_append_high {a b : Nat} (x : BitVec a) (y : BitVec b) (lo len : Nat) (h : b ≤ lo) :
    (x ++ y).extractLsb' lo len = x.extractLsb' (lo - b) len := by
  ext i hi
  simp only [BitVec.getElem_extractLsb', BitVec.getLsbD_append]
  have : ¬ lo + i < b := by omega
  simp [this]
  congr 1; omega

theorem extract_all {b : Nat} (y : BitVec b) : y.extractLsb' 0 b = y := by
  ext i hi; simp

/-- A 20-bit immediate is its high six bits followed by its low 14. -/
theorem append_halves_20 (i : BitVec 20) : i.extractLsb' 14 6 ++ i.extractLsb' 0 14 = i := by
  ext k hk
  simp only [BitVec.getElem_append, BitVec.getElem_extractLsb']
  split
  · simp [← BitVec.getLsbD_eq_getElem]
  · rw [← BitVec.getLsbD_eq_getElem]; congr 1; omega

/-- A 19-bit immediate is its high seven bits followed by its low 12. -/
theorem append_halves_19 (i : BitVec 19) : i.extractLsb' 12 7 ++ i.extractLsb' 0 12 = i := by
  ext k hk
  simp only [BitVec.getElem_append, BitVec.getElem_extractLsb']
  split
  · simp [← BitVec.getLsbD_eq_getElem]
  · rw [← BitVec.getLsbD_eq_getElem]; congr 1; omega

/-! ## Fields of packed words -/

/-! ### Format VR -/

theorem fld_packVR_maj (maj : BitVec 6) (d : BitVec 7) (a : BitVec 7) (b : BitVec 7) (fn : BitVec 5) :
    fld (packVR maj d a b fn) 26 6 = maj := by
  simp (disch := decide) only [fld, packVR, extract_append_low, extract_append_high, extract_all, Nat.reduceSub]

theorem fld_packVR_d (maj : BitVec 6) (d : BitVec 7) (a : BitVec 7) (b : BitVec 7) (fn : BitVec 5) :
    fld (packVR maj d a b fn) 19 7 = d := by
  simp (disch := decide) only [fld, packVR, extract_append_low, extract_append_high, extract_all, Nat.reduceSub]

theorem fld_packVR_a (maj : BitVec 6) (d : BitVec 7) (a : BitVec 7) (b : BitVec 7) (fn : BitVec 5) :
    fld (packVR maj d a b fn) 12 7 = a := by
  simp (disch := decide) only [fld, packVR, extract_append_low, extract_append_high, extract_all, Nat.reduceSub]

theorem fld_packVR_b (maj : BitVec 6) (d : BitVec 7) (a : BitVec 7) (b : BitVec 7) (fn : BitVec 5) :
    fld (packVR maj d a b fn) 5 7 = b := by
  simp (disch := decide) only [fld, packVR, extract_append_low, extract_append_high, extract_all, Nat.reduceSub]

theorem fld_packVR_fn (maj : BitVec 6) (d : BitVec 7) (a : BitVec 7) (b : BitVec 7) (fn : BitVec 5) :
    fld (packVR maj d a b fn) 0 5 = fn := by
  simp (disch := decide) only [fld, packVR, extract_append_low, extract_append_high, extract_all, Nat.reduceSub]

theorem fld_packVR_within_d (maj : BitVec 6) (d : BitVec 7) (a : BitVec 7) (b : BitVec 7) (fn : BitVec 5) (lo len : Nat)
    (h1 : 19 ≤ lo) (h2 : lo + len ≤ 26) : fld (packVR maj d a b fn) lo len = d.extractLsb' (lo - 19) len := by
  unfold fld packVR
  refine (extract_append_high _ fn _ _ (by omega)).trans ?_
  refine (extract_append_high _ b _ _ (by omega)).trans ?_
  refine (extract_append_high _ a _ _ (by omega)).trans ?_
  refine (extract_append_low _ d _ _ (by omega)).trans ?_
  congr 1

theorem fld_packVR_within_a (maj : BitVec 6) (d : BitVec 7) (a : BitVec 7) (b : BitVec 7) (fn : BitVec 5) (lo len : Nat)
    (h1 : 12 ≤ lo) (h2 : lo + len ≤ 19) : fld (packVR maj d a b fn) lo len = a.extractLsb' (lo - 12) len := by
  unfold fld packVR
  refine (extract_append_high _ fn _ _ (by omega)).trans ?_
  refine (extract_append_high _ b _ _ (by omega)).trans ?_
  refine (extract_append_low _ a _ _ (by omega)).trans ?_
  congr 1

theorem fld_packVR_within_b (maj : BitVec 6) (d : BitVec 7) (a : BitVec 7) (b : BitVec 7) (fn : BitVec 5) (lo len : Nat)
    (h1 : 5 ≤ lo) (h2 : lo + len ≤ 12) : fld (packVR maj d a b fn) lo len = b.extractLsb' (lo - 5) len := by
  unfold fld packVR
  refine (extract_append_high _ fn _ _ (by omega)).trans ?_
  refine (extract_append_low _ b _ _ (by omega)).trans ?_
  congr 1

theorem fld_packVR_within_fn (maj : BitVec 6) (d : BitVec 7) (a : BitVec 7) (b : BitVec 7) (fn : BitVec 5) (lo len : Nat)
    (h1 : 0 ≤ lo) (h2 : lo + len ≤ 5) : fld (packVR maj d a b fn) lo len = fn.extractLsb' (lo - 0) len := by
  unfold fld packVR
  refine (extract_append_low _ fn _ _ (by omega)).trans ?_
  congr 1


/-! ### Format VI -/

theorem fld_packVI_maj (maj : BitVec 6) (d : BitVec 7) (a : BitVec 7) (x : BitVec 12) :
    fld (packVI maj d a x) 26 6 = maj := by
  simp (disch := decide) only [fld, packVI, extract_append_low, extract_append_high, extract_all, Nat.reduceSub]

theorem fld_packVI_d (maj : BitVec 6) (d : BitVec 7) (a : BitVec 7) (x : BitVec 12) :
    fld (packVI maj d a x) 19 7 = d := by
  simp (disch := decide) only [fld, packVI, extract_append_low, extract_append_high, extract_all, Nat.reduceSub]

theorem fld_packVI_a (maj : BitVec 6) (d : BitVec 7) (a : BitVec 7) (x : BitVec 12) :
    fld (packVI maj d a x) 12 7 = a := by
  simp (disch := decide) only [fld, packVI, extract_append_low, extract_append_high, extract_all, Nat.reduceSub]

theorem fld_packVI_x (maj : BitVec 6) (d : BitVec 7) (a : BitVec 7) (x : BitVec 12) :
    fld (packVI maj d a x) 0 12 = x := by
  simp (disch := decide) only [fld, packVI, extract_append_low, extract_append_high, extract_all, Nat.reduceSub]

theorem fld_packVI_within_d (maj : BitVec 6) (d : BitVec 7) (a : BitVec 7) (x : BitVec 12) (lo len : Nat)
    (h1 : 19 ≤ lo) (h2 : lo + len ≤ 26) : fld (packVI maj d a x) lo len = d.extractLsb' (lo - 19) len := by
  unfold fld packVI
  refine (extract_append_high _ x _ _ (by omega)).trans ?_
  refine (extract_append_high _ a _ _ (by omega)).trans ?_
  refine (extract_append_low _ d _ _ (by omega)).trans ?_
  congr 1

theorem fld_packVI_within_a (maj : BitVec 6) (d : BitVec 7) (a : BitVec 7) (x : BitVec 12) (lo len : Nat)
    (h1 : 12 ≤ lo) (h2 : lo + len ≤ 19) : fld (packVI maj d a x) lo len = a.extractLsb' (lo - 12) len := by
  unfold fld packVI
  refine (extract_append_high _ x _ _ (by omega)).trans ?_
  refine (extract_append_low _ a _ _ (by omega)).trans ?_
  congr 1

theorem fld_packVI_within_x (maj : BitVec 6) (d : BitVec 7) (a : BitVec 7) (x : BitVec 12) (lo len : Nat)
    (h1 : 0 ≤ lo) (h2 : lo + len ≤ 12) : fld (packVI maj d a x) lo len = x.extractLsb' (lo - 0) len := by
  unfold fld packVI
  refine (extract_append_low _ x _ _ (by omega)).trans ?_
  congr 1


/-! ### Format SR -/

theorem fld_packSR_maj (maj : BitVec 6) (d : BitVec 6) (a : BitVec 6) (b : BitVec 6) (fn : BitVec 8) :
    fld (packSR maj d a b fn) 26 6 = maj := by
  simp (disch := decide) only [fld, packSR, extract_append_low, extract_append_high, extract_all, Nat.reduceSub]

theorem fld_packSR_d (maj : BitVec 6) (d : BitVec 6) (a : BitVec 6) (b : BitVec 6) (fn : BitVec 8) :
    fld (packSR maj d a b fn) 20 6 = d := by
  simp (disch := decide) only [fld, packSR, extract_append_low, extract_append_high, extract_all, Nat.reduceSub]

theorem fld_packSR_a (maj : BitVec 6) (d : BitVec 6) (a : BitVec 6) (b : BitVec 6) (fn : BitVec 8) :
    fld (packSR maj d a b fn) 14 6 = a := by
  simp (disch := decide) only [fld, packSR, extract_append_low, extract_append_high, extract_all, Nat.reduceSub]

theorem fld_packSR_b (maj : BitVec 6) (d : BitVec 6) (a : BitVec 6) (b : BitVec 6) (fn : BitVec 8) :
    fld (packSR maj d a b fn) 8 6 = b := by
  simp (disch := decide) only [fld, packSR, extract_append_low, extract_append_high, extract_all, Nat.reduceSub]

theorem fld_packSR_fn (maj : BitVec 6) (d : BitVec 6) (a : BitVec 6) (b : BitVec 6) (fn : BitVec 8) :
    fld (packSR maj d a b fn) 0 8 = fn := by
  simp (disch := decide) only [fld, packSR, extract_append_low, extract_append_high, extract_all, Nat.reduceSub]

theorem fld_packSR_within_d (maj : BitVec 6) (d : BitVec 6) (a : BitVec 6) (b : BitVec 6) (fn : BitVec 8) (lo len : Nat)
    (h1 : 20 ≤ lo) (h2 : lo + len ≤ 26) : fld (packSR maj d a b fn) lo len = d.extractLsb' (lo - 20) len := by
  unfold fld packSR
  refine (extract_append_high _ fn _ _ (by omega)).trans ?_
  refine (extract_append_high _ b _ _ (by omega)).trans ?_
  refine (extract_append_high _ a _ _ (by omega)).trans ?_
  refine (extract_append_low _ d _ _ (by omega)).trans ?_
  congr 1

theorem fld_packSR_within_a (maj : BitVec 6) (d : BitVec 6) (a : BitVec 6) (b : BitVec 6) (fn : BitVec 8) (lo len : Nat)
    (h1 : 14 ≤ lo) (h2 : lo + len ≤ 20) : fld (packSR maj d a b fn) lo len = a.extractLsb' (lo - 14) len := by
  unfold fld packSR
  refine (extract_append_high _ fn _ _ (by omega)).trans ?_
  refine (extract_append_high _ b _ _ (by omega)).trans ?_
  refine (extract_append_low _ a _ _ (by omega)).trans ?_
  congr 1

theorem fld_packSR_within_b (maj : BitVec 6) (d : BitVec 6) (a : BitVec 6) (b : BitVec 6) (fn : BitVec 8) (lo len : Nat)
    (h1 : 8 ≤ lo) (h2 : lo + len ≤ 14) : fld (packSR maj d a b fn) lo len = b.extractLsb' (lo - 8) len := by
  unfold fld packSR
  refine (extract_append_high _ fn _ _ (by omega)).trans ?_
  refine (extract_append_low _ b _ _ (by omega)).trans ?_
  congr 1

theorem fld_packSR_within_fn (maj : BitVec 6) (d : BitVec 6) (a : BitVec 6) (b : BitVec 6) (fn : BitVec 8) (lo len : Nat)
    (h1 : 0 ≤ lo) (h2 : lo + len ≤ 8) : fld (packSR maj d a b fn) lo len = fn.extractLsb' (lo - 0) len := by
  unfold fld packSR
  refine (extract_append_low _ fn _ _ (by omega)).trans ?_
  congr 1


/-! ### Format SI -/

theorem fld_packSI_maj (maj : BitVec 6) (d : BitVec 6) (a : BitVec 6) (x : BitVec 14) :
    fld (packSI maj d a x) 26 6 = maj := by
  simp (disch := decide) only [fld, packSI, extract_append_low, extract_append_high, extract_all, Nat.reduceSub]

theorem fld_packSI_d (maj : BitVec 6) (d : BitVec 6) (a : BitVec 6) (x : BitVec 14) :
    fld (packSI maj d a x) 20 6 = d := by
  simp (disch := decide) only [fld, packSI, extract_append_low, extract_append_high, extract_all, Nat.reduceSub]

theorem fld_packSI_a (maj : BitVec 6) (d : BitVec 6) (a : BitVec 6) (x : BitVec 14) :
    fld (packSI maj d a x) 14 6 = a := by
  simp (disch := decide) only [fld, packSI, extract_append_low, extract_append_high, extract_all, Nat.reduceSub]

theorem fld_packSI_x (maj : BitVec 6) (d : BitVec 6) (a : BitVec 6) (x : BitVec 14) :
    fld (packSI maj d a x) 0 14 = x := by
  simp (disch := decide) only [fld, packSI, extract_append_low, extract_append_high, extract_all, Nat.reduceSub]

theorem fld_packSI_within_d (maj : BitVec 6) (d : BitVec 6) (a : BitVec 6) (x : BitVec 14) (lo len : Nat)
    (h1 : 20 ≤ lo) (h2 : lo + len ≤ 26) : fld (packSI maj d a x) lo len = d.extractLsb' (lo - 20) len := by
  unfold fld packSI
  refine (extract_append_high _ x _ _ (by omega)).trans ?_
  refine (extract_append_high _ a _ _ (by omega)).trans ?_
  refine (extract_append_low _ d _ _ (by omega)).trans ?_
  congr 1

theorem fld_packSI_within_a (maj : BitVec 6) (d : BitVec 6) (a : BitVec 6) (x : BitVec 14) (lo len : Nat)
    (h1 : 14 ≤ lo) (h2 : lo + len ≤ 20) : fld (packSI maj d a x) lo len = a.extractLsb' (lo - 14) len := by
  unfold fld packSI
  refine (extract_append_high _ x _ _ (by omega)).trans ?_
  refine (extract_append_low _ a _ _ (by omega)).trans ?_
  congr 1

theorem fld_packSI_within_x (maj : BitVec 6) (d : BitVec 6) (a : BitVec 6) (x : BitVec 14) (lo len : Nat)
    (h1 : 0 ≤ lo) (h2 : lo + len ≤ 14) : fld (packSI maj d a x) lo len = x.extractLsb' (lo - 0) len := by
  unfold fld packSI
  refine (extract_append_low _ x _ _ (by omega)).trans ?_
  congr 1


/-! ### Format BR -/

theorem fld_packBR_maj (maj : BitVec 6) (c : BitVec 4) (x : BitVec 22) :
    fld (packBR maj c x) 26 6 = maj := by
  simp (disch := decide) only [fld, packBR, extract_append_low, extract_append_high, extract_all, Nat.reduceSub]

theorem fld_packBR_c (maj : BitVec 6) (c : BitVec 4) (x : BitVec 22) :
    fld (packBR maj c x) 22 4 = c := by
  simp (disch := decide) only [fld, packBR, extract_append_low, extract_append_high, extract_all, Nat.reduceSub]

theorem fld_packBR_x (maj : BitVec 6) (c : BitVec 4) (x : BitVec 22) :
    fld (packBR maj c x) 0 22 = x := by
  simp (disch := decide) only [fld, packBR, extract_append_low, extract_append_high, extract_all, Nat.reduceSub]

theorem fld_packBR_within_c (maj : BitVec 6) (c : BitVec 4) (x : BitVec 22) (lo len : Nat)
    (h1 : 22 ≤ lo) (h2 : lo + len ≤ 26) : fld (packBR maj c x) lo len = c.extractLsb' (lo - 22) len := by
  unfold fld packBR
  refine (extract_append_high _ x _ _ (by omega)).trans ?_
  refine (extract_append_low _ c _ _ (by omega)).trans ?_
  congr 1

theorem fld_packBR_within_x (maj : BitVec 6) (c : BitVec 4) (x : BitVec 22) (lo len : Nat)
    (h1 : 0 ≤ lo) (h2 : lo + len ≤ 22) : fld (packBR maj c x) lo len = x.extractLsb' (lo - 0) len := by
  unfold fld packBR
  refine (extract_append_low _ x _ _ (by omega)).trans ?_
  congr 1


/-! ### Format MM -/

theorem fld_packMM_maj (maj : BitVec 6) (d : BitVec 7) (a : BitVec 6) (b : BitVec 7) (o : BitVec 1) (p : BitVec 2) (z : BitVec 3) :
    fld (packMM maj d a b o p z) 26 6 = maj := by
  simp (disch := decide) only [fld, packMM, extract_append_low, extract_append_high, extract_all, Nat.reduceSub]

theorem fld_packMM_d (maj : BitVec 6) (d : BitVec 7) (a : BitVec 6) (b : BitVec 7) (o : BitVec 1) (p : BitVec 2) (z : BitVec 3) :
    fld (packMM maj d a b o p z) 19 7 = d := by
  simp (disch := decide) only [fld, packMM, extract_append_low, extract_append_high, extract_all, Nat.reduceSub]

theorem fld_packMM_a (maj : BitVec 6) (d : BitVec 7) (a : BitVec 6) (b : BitVec 7) (o : BitVec 1) (p : BitVec 2) (z : BitVec 3) :
    fld (packMM maj d a b o p z) 13 6 = a := by
  simp (disch := decide) only [fld, packMM, extract_append_low, extract_append_high, extract_all, Nat.reduceSub]

theorem fld_packMM_b (maj : BitVec 6) (d : BitVec 7) (a : BitVec 6) (b : BitVec 7) (o : BitVec 1) (p : BitVec 2) (z : BitVec 3) :
    fld (packMM maj d a b o p z) 6 7 = b := by
  simp (disch := decide) only [fld, packMM, extract_append_low, extract_append_high, extract_all, Nat.reduceSub]

theorem fld_packMM_o (maj : BitVec 6) (d : BitVec 7) (a : BitVec 6) (b : BitVec 7) (o : BitVec 1) (p : BitVec 2) (z : BitVec 3) :
    fld (packMM maj d a b o p z) 5 1 = o := by
  simp (disch := decide) only [fld, packMM, extract_append_low, extract_append_high, extract_all, Nat.reduceSub]

theorem fld_packMM_p (maj : BitVec 6) (d : BitVec 7) (a : BitVec 6) (b : BitVec 7) (o : BitVec 1) (p : BitVec 2) (z : BitVec 3) :
    fld (packMM maj d a b o p z) 3 2 = p := by
  simp (disch := decide) only [fld, packMM, extract_append_low, extract_append_high, extract_all, Nat.reduceSub]

theorem fld_packMM_z (maj : BitVec 6) (d : BitVec 7) (a : BitVec 6) (b : BitVec 7) (o : BitVec 1) (p : BitVec 2) (z : BitVec 3) :
    fld (packMM maj d a b o p z) 0 3 = z := by
  simp (disch := decide) only [fld, packMM, extract_append_low, extract_append_high, extract_all, Nat.reduceSub]

theorem fld_packMM_within_d (maj : BitVec 6) (d : BitVec 7) (a : BitVec 6) (b : BitVec 7) (o : BitVec 1) (p : BitVec 2) (z : BitVec 3) (lo len : Nat)
    (h1 : 19 ≤ lo) (h2 : lo + len ≤ 26) : fld (packMM maj d a b o p z) lo len = d.extractLsb' (lo - 19) len := by
  unfold fld packMM
  refine (extract_append_high _ z _ _ (by omega)).trans ?_
  refine (extract_append_high _ p _ _ (by omega)).trans ?_
  refine (extract_append_high _ o _ _ (by omega)).trans ?_
  refine (extract_append_high _ b _ _ (by omega)).trans ?_
  refine (extract_append_high _ a _ _ (by omega)).trans ?_
  refine (extract_append_low _ d _ _ (by omega)).trans ?_
  congr 1

theorem fld_packMM_within_a (maj : BitVec 6) (d : BitVec 7) (a : BitVec 6) (b : BitVec 7) (o : BitVec 1) (p : BitVec 2) (z : BitVec 3) (lo len : Nat)
    (h1 : 13 ≤ lo) (h2 : lo + len ≤ 19) : fld (packMM maj d a b o p z) lo len = a.extractLsb' (lo - 13) len := by
  unfold fld packMM
  refine (extract_append_high _ z _ _ (by omega)).trans ?_
  refine (extract_append_high _ p _ _ (by omega)).trans ?_
  refine (extract_append_high _ o _ _ (by omega)).trans ?_
  refine (extract_append_high _ b _ _ (by omega)).trans ?_
  refine (extract_append_low _ a _ _ (by omega)).trans ?_
  congr 1

theorem fld_packMM_within_b (maj : BitVec 6) (d : BitVec 7) (a : BitVec 6) (b : BitVec 7) (o : BitVec 1) (p : BitVec 2) (z : BitVec 3) (lo len : Nat)
    (h1 : 6 ≤ lo) (h2 : lo + len ≤ 13) : fld (packMM maj d a b o p z) lo len = b.extractLsb' (lo - 6) len := by
  unfold fld packMM
  refine (extract_append_high _ z _ _ (by omega)).trans ?_
  refine (extract_append_high _ p _ _ (by omega)).trans ?_
  refine (extract_append_high _ o _ _ (by omega)).trans ?_
  refine (extract_append_low _ b _ _ (by omega)).trans ?_
  congr 1

theorem fld_packMM_within_p (maj : BitVec 6) (d : BitVec 7) (a : BitVec 6) (b : BitVec 7) (o : BitVec 1) (p : BitVec 2) (z : BitVec 3) (lo len : Nat)
    (h1 : 3 ≤ lo) (h2 : lo + len ≤ 5) : fld (packMM maj d a b o p z) lo len = p.extractLsb' (lo - 3) len := by
  unfold fld packMM
  refine (extract_append_high _ z _ _ (by omega)).trans ?_
  refine (extract_append_low _ p _ _ (by omega)).trans ?_
  congr 1

theorem fld_packMM_within_z (maj : BitVec 6) (d : BitVec 7) (a : BitVec 6) (b : BitVec 7) (o : BitVec 1) (p : BitVec 2) (z : BitVec 3) (lo len : Nat)
    (h1 : 0 ≤ lo) (h2 : lo + len ≤ 3) : fld (packMM maj d a b o p z) lo len = z.extractLsb' (lo - 0) len := by
  unfold fld packMM
  refine (extract_append_low _ z _ _ (by omega)).trans ?_
  congr 1


/-! ### Format AT -/

theorem fld_packAT_maj (maj : BitVec 6) (d : BitVec 7) (a : BitVec 6) (b : BitVec 7) (k : BitVec 2) (z : BitVec 4) :
    fld (packAT maj d a b k z) 26 6 = maj := by
  simp (disch := decide) only [fld, packAT, extract_append_low, extract_append_high, extract_all, Nat.reduceSub]

theorem fld_packAT_d (maj : BitVec 6) (d : BitVec 7) (a : BitVec 6) (b : BitVec 7) (k : BitVec 2) (z : BitVec 4) :
    fld (packAT maj d a b k z) 19 7 = d := by
  simp (disch := decide) only [fld, packAT, extract_append_low, extract_append_high, extract_all, Nat.reduceSub]

theorem fld_packAT_a (maj : BitVec 6) (d : BitVec 7) (a : BitVec 6) (b : BitVec 7) (k : BitVec 2) (z : BitVec 4) :
    fld (packAT maj d a b k z) 13 6 = a := by
  simp (disch := decide) only [fld, packAT, extract_append_low, extract_append_high, extract_all, Nat.reduceSub]

theorem fld_packAT_b (maj : BitVec 6) (d : BitVec 7) (a : BitVec 6) (b : BitVec 7) (k : BitVec 2) (z : BitVec 4) :
    fld (packAT maj d a b k z) 6 7 = b := by
  simp (disch := decide) only [fld, packAT, extract_append_low, extract_append_high, extract_all, Nat.reduceSub]

theorem fld_packAT_k (maj : BitVec 6) (d : BitVec 7) (a : BitVec 6) (b : BitVec 7) (k : BitVec 2) (z : BitVec 4) :
    fld (packAT maj d a b k z) 4 2 = k := by
  simp (disch := decide) only [fld, packAT, extract_append_low, extract_append_high, extract_all, Nat.reduceSub]

theorem fld_packAT_z (maj : BitVec 6) (d : BitVec 7) (a : BitVec 6) (b : BitVec 7) (k : BitVec 2) (z : BitVec 4) :
    fld (packAT maj d a b k z) 0 4 = z := by
  simp (disch := decide) only [fld, packAT, extract_append_low, extract_append_high, extract_all, Nat.reduceSub]

theorem fld_packAT_within_d (maj : BitVec 6) (d : BitVec 7) (a : BitVec 6) (b : BitVec 7) (k : BitVec 2) (z : BitVec 4) (lo len : Nat)
    (h1 : 19 ≤ lo) (h2 : lo + len ≤ 26) : fld (packAT maj d a b k z) lo len = d.extractLsb' (lo - 19) len := by
  unfold fld packAT
  refine (extract_append_high _ z _ _ (by omega)).trans ?_
  refine (extract_append_high _ k _ _ (by omega)).trans ?_
  refine (extract_append_high _ b _ _ (by omega)).trans ?_
  refine (extract_append_high _ a _ _ (by omega)).trans ?_
  refine (extract_append_low _ d _ _ (by omega)).trans ?_
  congr 1

theorem fld_packAT_within_a (maj : BitVec 6) (d : BitVec 7) (a : BitVec 6) (b : BitVec 7) (k : BitVec 2) (z : BitVec 4) (lo len : Nat)
    (h1 : 13 ≤ lo) (h2 : lo + len ≤ 19) : fld (packAT maj d a b k z) lo len = a.extractLsb' (lo - 13) len := by
  unfold fld packAT
  refine (extract_append_high _ z _ _ (by omega)).trans ?_
  refine (extract_append_high _ k _ _ (by omega)).trans ?_
  refine (extract_append_high _ b _ _ (by omega)).trans ?_
  refine (extract_append_low _ a _ _ (by omega)).trans ?_
  congr 1

theorem fld_packAT_within_b (maj : BitVec 6) (d : BitVec 7) (a : BitVec 6) (b : BitVec 7) (k : BitVec 2) (z : BitVec 4) (lo len : Nat)
    (h1 : 6 ≤ lo) (h2 : lo + len ≤ 13) : fld (packAT maj d a b k z) lo len = b.extractLsb' (lo - 6) len := by
  unfold fld packAT
  refine (extract_append_high _ z _ _ (by omega)).trans ?_
  refine (extract_append_high _ k _ _ (by omega)).trans ?_
  refine (extract_append_low _ b _ _ (by omega)).trans ?_
  congr 1

theorem fld_packAT_within_k (maj : BitVec 6) (d : BitVec 7) (a : BitVec 6) (b : BitVec 7) (k : BitVec 2) (z : BitVec 4) (lo len : Nat)
    (h1 : 4 ≤ lo) (h2 : lo + len ≤ 6) : fld (packAT maj d a b k z) lo len = k.extractLsb' (lo - 4) len := by
  unfold fld packAT
  refine (extract_append_high _ z _ _ (by omega)).trans ?_
  refine (extract_append_low _ k _ _ (by omega)).trans ?_
  congr 1

theorem fld_packAT_within_z (maj : BitVec 6) (d : BitVec 7) (a : BitVec 6) (b : BitVec 7) (k : BitVec 2) (z : BitVec 4) (lo len : Nat)
    (h1 : 0 ≤ lo) (h2 : lo + len ≤ 4) : fld (packAT maj d a b k z) lo len = z.extractLsb' (lo - 0) len := by
  unfold fld packAT
  refine (extract_append_low _ z _ _ (by omega)).trans ?_
  congr 1


/-! ### Format VC -/

theorem fld_packVC_maj (d : BitVec 7) (a : BitVec 7) (df : BitVec 5) (sf : BitVec 5) (sat : BitVec 1) (srs : BitVec 1) :
    fld (packVC d a df sf sat srs) 26 6 = 0x24#6 := by
  simp (disch := decide) only [fld, packVC, extract_append_low, extract_append_high, extract_all, Nat.reduceSub]

theorem fld_packVC_d (d : BitVec 7) (a : BitVec 7) (df : BitVec 5) (sf : BitVec 5) (sat : BitVec 1) (srs : BitVec 1) :
    fld (packVC d a df sf sat srs) 19 7 = d := by
  simp (disch := decide) only [fld, packVC, extract_append_low, extract_append_high, extract_all, Nat.reduceSub]

theorem fld_packVC_a (d : BitVec 7) (a : BitVec 7) (df : BitVec 5) (sf : BitVec 5) (sat : BitVec 1) (srs : BitVec 1) :
    fld (packVC d a df sf sat srs) 12 7 = a := by
  simp (disch := decide) only [fld, packVC, extract_append_low, extract_append_high, extract_all, Nat.reduceSub]

theorem fld_packVC_df (d : BitVec 7) (a : BitVec 7) (df : BitVec 5) (sf : BitVec 5) (sat : BitVec 1) (srs : BitVec 1) :
    fld (packVC d a df sf sat srs) 7 5 = df := by
  simp (disch := decide) only [fld, packVC, extract_append_low, extract_append_high, extract_all, Nat.reduceSub]

theorem fld_packVC_sf (d : BitVec 7) (a : BitVec 7) (df : BitVec 5) (sf : BitVec 5) (sat : BitVec 1) (srs : BitVec 1) :
    fld (packVC d a df sf sat srs) 2 5 = sf := by
  simp (disch := decide) only [fld, packVC, extract_append_low, extract_append_high, extract_all, Nat.reduceSub]

theorem fld_packVC_sat (d : BitVec 7) (a : BitVec 7) (df : BitVec 5) (sf : BitVec 5) (sat : BitVec 1) (srs : BitVec 1) :
    fld (packVC d a df sf sat srs) 1 1 = sat := by
  simp (disch := decide) only [fld, packVC, extract_append_low, extract_append_high, extract_all, Nat.reduceSub]

theorem fld_packVC_srs (d : BitVec 7) (a : BitVec 7) (df : BitVec 5) (sf : BitVec 5) (sat : BitVec 1) (srs : BitVec 1) :
    fld (packVC d a df sf sat srs) 0 1 = srs := by
  simp (disch := decide) only [fld, packVC, extract_append_low, extract_append_high, extract_all, Nat.reduceSub]

theorem fld_packVC_within_d (d : BitVec 7) (a : BitVec 7) (df : BitVec 5) (sf : BitVec 5) (sat : BitVec 1) (srs : BitVec 1) (lo len : Nat)
    (h1 : 19 ≤ lo) (h2 : lo + len ≤ 26) : fld (packVC d a df sf sat srs) lo len = d.extractLsb' (lo - 19) len := by
  unfold fld packVC
  refine (extract_append_high _ srs _ _ (by omega)).trans ?_
  refine (extract_append_high _ sat _ _ (by omega)).trans ?_
  refine (extract_append_high _ sf _ _ (by omega)).trans ?_
  refine (extract_append_high _ df _ _ (by omega)).trans ?_
  refine (extract_append_high _ a _ _ (by omega)).trans ?_
  refine (extract_append_low _ d _ _ (by omega)).trans ?_
  congr 1

theorem fld_packVC_within_a (d : BitVec 7) (a : BitVec 7) (df : BitVec 5) (sf : BitVec 5) (sat : BitVec 1) (srs : BitVec 1) (lo len : Nat)
    (h1 : 12 ≤ lo) (h2 : lo + len ≤ 19) : fld (packVC d a df sf sat srs) lo len = a.extractLsb' (lo - 12) len := by
  unfold fld packVC
  refine (extract_append_high _ srs _ _ (by omega)).trans ?_
  refine (extract_append_high _ sat _ _ (by omega)).trans ?_
  refine (extract_append_high _ sf _ _ (by omega)).trans ?_
  refine (extract_append_high _ df _ _ (by omega)).trans ?_
  refine (extract_append_low _ a _ _ (by omega)).trans ?_
  congr 1

theorem fld_packVC_within_df (d : BitVec 7) (a : BitVec 7) (df : BitVec 5) (sf : BitVec 5) (sat : BitVec 1) (srs : BitVec 1) (lo len : Nat)
    (h1 : 7 ≤ lo) (h2 : lo + len ≤ 12) : fld (packVC d a df sf sat srs) lo len = df.extractLsb' (lo - 7) len := by
  unfold fld packVC
  refine (extract_append_high _ srs _ _ (by omega)).trans ?_
  refine (extract_append_high _ sat _ _ (by omega)).trans ?_
  refine (extract_append_high _ sf _ _ (by omega)).trans ?_
  refine (extract_append_low _ df _ _ (by omega)).trans ?_
  congr 1

theorem fld_packVC_within_sf (d : BitVec 7) (a : BitVec 7) (df : BitVec 5) (sf : BitVec 5) (sat : BitVec 1) (srs : BitVec 1) (lo len : Nat)
    (h1 : 2 ≤ lo) (h2 : lo + len ≤ 7) : fld (packVC d a df sf sat srs) lo len = sf.extractLsb' (lo - 2) len := by
  unfold fld packVC
  refine (extract_append_high _ srs _ _ (by omega)).trans ?_
  refine (extract_append_high _ sat _ _ (by omega)).trans ?_
  refine (extract_append_low _ sf _ _ (by omega)).trans ?_
  congr 1


/-! ### Format CP -/

theorem fld_packCP_maj (op : BitVec 3) (ch : BitVec 3) (d : BitVec 6) (hd : BitVec 4) (hs : BitVec 4) (scp : BitVec 3) (xt : BitVec 3) :
    fld (packCP op ch d hd hs scp xt) 26 6 = 0x34#6 := by
  simp (disch := decide) only [fld, packCP, extract_append_low, extract_append_high, extract_all, Nat.reduceSub]

theorem fld_packCP_op (op : BitVec 3) (ch : BitVec 3) (d : BitVec 6) (hd : BitVec 4) (hs : BitVec 4) (scp : BitVec 3) (xt : BitVec 3) :
    fld (packCP op ch d hd hs scp xt) 23 3 = op := by
  simp (disch := decide) only [fld, packCP, extract_append_low, extract_append_high, extract_all, Nat.reduceSub]

theorem fld_packCP_ch (op : BitVec 3) (ch : BitVec 3) (d : BitVec 6) (hd : BitVec 4) (hs : BitVec 4) (scp : BitVec 3) (xt : BitVec 3) :
    fld (packCP op ch d hd hs scp xt) 20 3 = ch := by
  simp (disch := decide) only [fld, packCP, extract_append_low, extract_append_high, extract_all, Nat.reduceSub]

theorem fld_packCP_d (op : BitVec 3) (ch : BitVec 3) (d : BitVec 6) (hd : BitVec 4) (hs : BitVec 4) (scp : BitVec 3) (xt : BitVec 3) :
    fld (packCP op ch d hd hs scp xt) 14 6 = d := by
  simp (disch := decide) only [fld, packCP, extract_append_low, extract_append_high, extract_all, Nat.reduceSub]

theorem fld_packCP_hd (op : BitVec 3) (ch : BitVec 3) (d : BitVec 6) (hd : BitVec 4) (hs : BitVec 4) (scp : BitVec 3) (xt : BitVec 3) :
    fld (packCP op ch d hd hs scp xt) 10 4 = hd := by
  simp (disch := decide) only [fld, packCP, extract_append_low, extract_append_high, extract_all, Nat.reduceSub]

theorem fld_packCP_hs (op : BitVec 3) (ch : BitVec 3) (d : BitVec 6) (hd : BitVec 4) (hs : BitVec 4) (scp : BitVec 3) (xt : BitVec 3) :
    fld (packCP op ch d hd hs scp xt) 6 4 = hs := by
  simp (disch := decide) only [fld, packCP, extract_append_low, extract_append_high, extract_all, Nat.reduceSub]

theorem fld_packCP_scp (op : BitVec 3) (ch : BitVec 3) (d : BitVec 6) (hd : BitVec 4) (hs : BitVec 4) (scp : BitVec 3) (xt : BitVec 3) :
    fld (packCP op ch d hd hs scp xt) 3 3 = scp := by
  simp (disch := decide) only [fld, packCP, extract_append_low, extract_append_high, extract_all, Nat.reduceSub]

theorem fld_packCP_xt (op : BitVec 3) (ch : BitVec 3) (d : BitVec 6) (hd : BitVec 4) (hs : BitVec 4) (scp : BitVec 3) (xt : BitVec 3) :
    fld (packCP op ch d hd hs scp xt) 0 3 = xt := by
  simp (disch := decide) only [fld, packCP, extract_append_low, extract_append_high, extract_all, Nat.reduceSub]

theorem fld_packCP_within_op (op : BitVec 3) (ch : BitVec 3) (d : BitVec 6) (hd : BitVec 4) (hs : BitVec 4) (scp : BitVec 3) (xt : BitVec 3) (lo len : Nat)
    (h1 : 23 ≤ lo) (h2 : lo + len ≤ 26) : fld (packCP op ch d hd hs scp xt) lo len = op.extractLsb' (lo - 23) len := by
  unfold fld packCP
  refine (extract_append_high _ xt _ _ (by omega)).trans ?_
  refine (extract_append_high _ scp _ _ (by omega)).trans ?_
  refine (extract_append_high _ hs _ _ (by omega)).trans ?_
  refine (extract_append_high _ hd _ _ (by omega)).trans ?_
  refine (extract_append_high _ d _ _ (by omega)).trans ?_
  refine (extract_append_high _ ch _ _ (by omega)).trans ?_
  refine (extract_append_low _ op _ _ (by omega)).trans ?_
  congr 1

theorem fld_packCP_within_ch (op : BitVec 3) (ch : BitVec 3) (d : BitVec 6) (hd : BitVec 4) (hs : BitVec 4) (scp : BitVec 3) (xt : BitVec 3) (lo len : Nat)
    (h1 : 20 ≤ lo) (h2 : lo + len ≤ 23) : fld (packCP op ch d hd hs scp xt) lo len = ch.extractLsb' (lo - 20) len := by
  unfold fld packCP
  refine (extract_append_high _ xt _ _ (by omega)).trans ?_
  refine (extract_append_high _ scp _ _ (by omega)).trans ?_
  refine (extract_append_high _ hs _ _ (by omega)).trans ?_
  refine (extract_append_high _ hd _ _ (by omega)).trans ?_
  refine (extract_append_high _ d _ _ (by omega)).trans ?_
  refine (extract_append_low _ ch _ _ (by omega)).trans ?_
  congr 1

theorem fld_packCP_within_d (op : BitVec 3) (ch : BitVec 3) (d : BitVec 6) (hd : BitVec 4) (hs : BitVec 4) (scp : BitVec 3) (xt : BitVec 3) (lo len : Nat)
    (h1 : 14 ≤ lo) (h2 : lo + len ≤ 20) : fld (packCP op ch d hd hs scp xt) lo len = d.extractLsb' (lo - 14) len := by
  unfold fld packCP
  refine (extract_append_high _ xt _ _ (by omega)).trans ?_
  refine (extract_append_high _ scp _ _ (by omega)).trans ?_
  refine (extract_append_high _ hs _ _ (by omega)).trans ?_
  refine (extract_append_high _ hd _ _ (by omega)).trans ?_
  refine (extract_append_low _ d _ _ (by omega)).trans ?_
  congr 1

theorem fld_packCP_within_hd (op : BitVec 3) (ch : BitVec 3) (d : BitVec 6) (hd : BitVec 4) (hs : BitVec 4) (scp : BitVec 3) (xt : BitVec 3) (lo len : Nat)
    (h1 : 10 ≤ lo) (h2 : lo + len ≤ 14) : fld (packCP op ch d hd hs scp xt) lo len = hd.extractLsb' (lo - 10) len := by
  unfold fld packCP
  refine (extract_append_high _ xt _ _ (by omega)).trans ?_
  refine (extract_append_high _ scp _ _ (by omega)).trans ?_
  refine (extract_append_high _ hs _ _ (by omega)).trans ?_
  refine (extract_append_low _ hd _ _ (by omega)).trans ?_
  congr 1

theorem fld_packCP_within_hs (op : BitVec 3) (ch : BitVec 3) (d : BitVec 6) (hd : BitVec 4) (hs : BitVec 4) (scp : BitVec 3) (xt : BitVec 3) (lo len : Nat)
    (h1 : 6 ≤ lo) (h2 : lo + len ≤ 10) : fld (packCP op ch d hd hs scp xt) lo len = hs.extractLsb' (lo - 6) len := by
  unfold fld packCP
  refine (extract_append_high _ xt _ _ (by omega)).trans ?_
  refine (extract_append_high _ scp _ _ (by omega)).trans ?_
  refine (extract_append_low _ hs _ _ (by omega)).trans ?_
  congr 1

theorem fld_packCP_within_scp (op : BitVec 3) (ch : BitVec 3) (d : BitVec 6) (hd : BitVec 4) (hs : BitVec 4) (scp : BitVec 3) (xt : BitVec 3) (lo len : Nat)
    (h1 : 3 ≤ lo) (h2 : lo + len ≤ 6) : fld (packCP op ch d hd hs scp xt) lo len = scp.extractLsb' (lo - 3) len := by
  unfold fld packCP
  refine (extract_append_high _ xt _ _ (by omega)).trans ?_
  refine (extract_append_low _ scp _ _ (by omega)).trans ?_
  congr 1

theorem fld_packCP_within_xt (op : BitVec 3) (ch : BitVec 3) (d : BitVec 6) (hd : BitVec 4) (hs : BitVec 4) (scp : BitVec 3) (xt : BitVec 3) (lo len : Nat)
    (h1 : 0 ≤ lo) (h2 : lo + len ≤ 3) : fld (packCP op ch d hd hs scp xt) lo len = xt.extractLsb' (lo - 0) len := by
  unfold fld packCP
  refine (extract_append_low _ xt _ _ (by omega)).trans ?_
  congr 1


/-! ### Format GR -/

theorem fld_packGR_maj (d : BitVec 7) (a : BitVec 6) (b : BitVec 7) (fn : BitVec 6) :
    fld (packGR d a b fn) 26 6 = 0x3c#6 := by
  simp (disch := decide) only [fld, packGR, extract_append_low, extract_append_high, extract_all, Nat.reduceSub]

theorem fld_packGR_d (d : BitVec 7) (a : BitVec 6) (b : BitVec 7) (fn : BitVec 6) :
    fld (packGR d a b fn) 19 7 = d := by
  simp (disch := decide) only [fld, packGR, extract_append_low, extract_append_high, extract_all, Nat.reduceSub]

theorem fld_packGR_a (d : BitVec 7) (a : BitVec 6) (b : BitVec 7) (fn : BitVec 6) :
    fld (packGR d a b fn) 13 6 = a := by
  simp (disch := decide) only [fld, packGR, extract_append_low, extract_append_high, extract_all, Nat.reduceSub]

theorem fld_packGR_b (d : BitVec 7) (a : BitVec 6) (b : BitVec 7) (fn : BitVec 6) :
    fld (packGR d a b fn) 6 7 = b := by
  simp (disch := decide) only [fld, packGR, extract_append_low, extract_append_high, extract_all, Nat.reduceSub]

theorem fld_packGR_fn (d : BitVec 7) (a : BitVec 6) (b : BitVec 7) (fn : BitVec 6) :
    fld (packGR d a b fn) 0 6 = fn := by
  simp (disch := decide) only [fld, packGR, extract_append_low, extract_append_high, extract_all, Nat.reduceSub]

theorem fld_packGR_within_d (d : BitVec 7) (a : BitVec 6) (b : BitVec 7) (fn : BitVec 6) (lo len : Nat)
    (h1 : 19 ≤ lo) (h2 : lo + len ≤ 26) : fld (packGR d a b fn) lo len = d.extractLsb' (lo - 19) len := by
  unfold fld packGR
  refine (extract_append_high _ fn _ _ (by omega)).trans ?_
  refine (extract_append_high _ b _ _ (by omega)).trans ?_
  refine (extract_append_high _ a _ _ (by omega)).trans ?_
  refine (extract_append_low _ d _ _ (by omega)).trans ?_
  congr 1

theorem fld_packGR_within_a (d : BitVec 7) (a : BitVec 6) (b : BitVec 7) (fn : BitVec 6) (lo len : Nat)
    (h1 : 13 ≤ lo) (h2 : lo + len ≤ 19) : fld (packGR d a b fn) lo len = a.extractLsb' (lo - 13) len := by
  unfold fld packGR
  refine (extract_append_high _ fn _ _ (by omega)).trans ?_
  refine (extract_append_high _ b _ _ (by omega)).trans ?_
  refine (extract_append_low _ a _ _ (by omega)).trans ?_
  congr 1

theorem fld_packGR_within_b (d : BitVec 7) (a : BitVec 6) (b : BitVec 7) (fn : BitVec 6) (lo len : Nat)
    (h1 : 6 ≤ lo) (h2 : lo + len ≤ 13) : fld (packGR d a b fn) lo len = b.extractLsb' (lo - 6) len := by
  unfold fld packGR
  refine (extract_append_high _ fn _ _ (by omega)).trans ?_
  refine (extract_append_low _ b _ _ (by omega)).trans ?_
  congr 1

theorem fld_packGR_within_fn (d : BitVec 7) (a : BitVec 6) (b : BitVec 7) (fn : BitVec 6) (lo len : Nat)
    (h1 : 0 ≤ lo) (h2 : lo + len ≤ 6) : fld (packGR d a b fn) lo len = fn.extractLsb' (lo - 0) len := by
  unfold fld packGR
  refine (extract_append_low _ fn _ _ (by omega)).trans ?_
  congr 1


/-! ### Format MX -/

theorem fld_packMX_maj (cd : BitVec 4) (ma : BitVec 2) (hh : BitVec 4) (ru : BitVec 1) (op : BitVec 5) (fn : BitVec 10) :
    fld (packMX cd ma hh ru op fn) 26 6 = 0x3e#6 := by
  simp (disch := decide) only [fld, packMX, extract_append_low, extract_append_high, extract_all, Nat.reduceSub]

theorem fld_packMX_cd (cd : BitVec 4) (ma : BitVec 2) (hh : BitVec 4) (ru : BitVec 1) (op : BitVec 5) (fn : BitVec 10) :
    fld (packMX cd ma hh ru op fn) 22 4 = cd := by
  simp (disch := decide) only [fld, packMX, extract_append_low, extract_append_high, extract_all, Nat.reduceSub]

theorem fld_packMX_ma (cd : BitVec 4) (ma : BitVec 2) (hh : BitVec 4) (ru : BitVec 1) (op : BitVec 5) (fn : BitVec 10) :
    fld (packMX cd ma hh ru op fn) 20 2 = ma := by
  simp (disch := decide) only [fld, packMX, extract_append_low, extract_append_high, extract_all, Nat.reduceSub]

theorem fld_packMX_hh (cd : BitVec 4) (ma : BitVec 2) (hh : BitVec 4) (ru : BitVec 1) (op : BitVec 5) (fn : BitVec 10) :
    fld (packMX cd ma hh ru op fn) 16 4 = hh := by
  simp (disch := decide) only [fld, packMX, extract_append_low, extract_append_high, extract_all, Nat.reduceSub]

theorem fld_packMX_ru (cd : BitVec 4) (ma : BitVec 2) (hh : BitVec 4) (ru : BitVec 1) (op : BitVec 5) (fn : BitVec 10) :
    fld (packMX cd ma hh ru op fn) 15 1 = ru := by
  simp (disch := decide) only [fld, packMX, extract_append_low, extract_append_high, extract_all, Nat.reduceSub]

theorem fld_packMX_op (cd : BitVec 4) (ma : BitVec 2) (hh : BitVec 4) (ru : BitVec 1) (op : BitVec 5) (fn : BitVec 10) :
    fld (packMX cd ma hh ru op fn) 10 5 = op := by
  simp (disch := decide) only [fld, packMX, extract_append_low, extract_append_high, extract_all, Nat.reduceSub]

theorem fld_packMX_fn (cd : BitVec 4) (ma : BitVec 2) (hh : BitVec 4) (ru : BitVec 1) (op : BitVec 5) (fn : BitVec 10) :
    fld (packMX cd ma hh ru op fn) 0 10 = fn := by
  simp (disch := decide) only [fld, packMX, extract_append_low, extract_append_high, extract_all, Nat.reduceSub]

theorem fld_packMX_within_cd (cd : BitVec 4) (ma : BitVec 2) (hh : BitVec 4) (ru : BitVec 1) (op : BitVec 5) (fn : BitVec 10) (lo len : Nat)
    (h1 : 22 ≤ lo) (h2 : lo + len ≤ 26) : fld (packMX cd ma hh ru op fn) lo len = cd.extractLsb' (lo - 22) len := by
  unfold fld packMX
  refine (extract_append_high _ fn _ _ (by omega)).trans ?_
  refine (extract_append_high _ op _ _ (by omega)).trans ?_
  refine (extract_append_high _ ru _ _ (by omega)).trans ?_
  refine (extract_append_high _ hh _ _ (by omega)).trans ?_
  refine (extract_append_high _ ma _ _ (by omega)).trans ?_
  refine (extract_append_low _ cd _ _ (by omega)).trans ?_
  congr 1

theorem fld_packMX_within_ma (cd : BitVec 4) (ma : BitVec 2) (hh : BitVec 4) (ru : BitVec 1) (op : BitVec 5) (fn : BitVec 10) (lo len : Nat)
    (h1 : 20 ≤ lo) (h2 : lo + len ≤ 22) : fld (packMX cd ma hh ru op fn) lo len = ma.extractLsb' (lo - 20) len := by
  unfold fld packMX
  refine (extract_append_high _ fn _ _ (by omega)).trans ?_
  refine (extract_append_high _ op _ _ (by omega)).trans ?_
  refine (extract_append_high _ ru _ _ (by omega)).trans ?_
  refine (extract_append_high _ hh _ _ (by omega)).trans ?_
  refine (extract_append_low _ ma _ _ (by omega)).trans ?_
  congr 1

theorem fld_packMX_within_hh (cd : BitVec 4) (ma : BitVec 2) (hh : BitVec 4) (ru : BitVec 1) (op : BitVec 5) (fn : BitVec 10) (lo len : Nat)
    (h1 : 16 ≤ lo) (h2 : lo + len ≤ 20) : fld (packMX cd ma hh ru op fn) lo len = hh.extractLsb' (lo - 16) len := by
  unfold fld packMX
  refine (extract_append_high _ fn _ _ (by omega)).trans ?_
  refine (extract_append_high _ op _ _ (by omega)).trans ?_
  refine (extract_append_high _ ru _ _ (by omega)).trans ?_
  refine (extract_append_low _ hh _ _ (by omega)).trans ?_
  congr 1

theorem fld_packMX_within_op (cd : BitVec 4) (ma : BitVec 2) (hh : BitVec 4) (ru : BitVec 1) (op : BitVec 5) (fn : BitVec 10) (lo len : Nat)
    (h1 : 10 ≤ lo) (h2 : lo + len ≤ 15) : fld (packMX cd ma hh ru op fn) lo len = op.extractLsb' (lo - 10) len := by
  unfold fld packMX
  refine (extract_append_high _ fn _ _ (by omega)).trans ?_
  refine (extract_append_low _ op _ _ (by omega)).trans ?_
  congr 1

theorem fld_packMX_within_fn (cd : BitVec 4) (ma : BitVec 2) (hh : BitVec 4) (ru : BitVec 1) (op : BitVec 5) (fn : BitVec 10) (lo len : Nat)
    (h1 : 0 ≤ lo) (h2 : lo + len ≤ 10) : fld (packMX cd ma hh ru op fn) lo len = fn.extractLsb' (lo - 0) len := by
  unfold fld packMX
  refine (extract_append_low _ fn _ _ (by omega)).trans ?_
  congr 1

/-! ### Spans of zero bits -/

theorem fld_packSR_zeros (m : BitVec 6) (fn : BitVec 8) :
    fld (packSR m 0#6 0#6 0#6 fn) 8 18 = 0#18 := by
  ext i hi
  simp only [fld, packSR, BitVec.getElem_extractLsb', BitVec.getLsbD_append, BitVec.getElem_zero, BitVec.getLsbD_zero]
  repeat' split
  all_goals first | rfl | omega

theorem fld_packVR_zeros (m : BitVec 6) (d : BitVec 7) (fn : BitVec 5) :
    fld (packVR m d 0#7 0#7 fn) 5 14 = 0#14 := by
  ext i hi
  simp only [fld, packVR, BitVec.getElem_extractLsb', BitVec.getLsbD_append, BitVec.getElem_zero, BitVec.getLsbD_zero]
  repeat' split
  all_goals first | rfl | omega

theorem fld_packCP_zeros11 (op ch : BitVec 3) (d : BitVec 6) (xt : BitVec 3) :
    fld (packCP op ch d 0#4 0#4 0#3 xt) 3 11 = 0#11 := by
  ext i hi
  simp only [fld, packCP, BitVec.getElem_extractLsb', BitVec.getLsbD_append, BitVec.getElem_zero, BitVec.getLsbD_zero]
  repeat' split
  all_goals first | rfl | omega

theorem fld_packCP_zeros20 (op ch : BitVec 3) :
    fld (packCP op ch 0#6 0#4 0#4 0#3 0#3) 0 20 = 0#20 := by
  ext i hi
  simp only [fld, packCP, BitVec.getElem_extractLsb', BitVec.getLsbD_append, BitVec.getElem_zero, BitVec.getLsbD_zero]
  repeat' split
  all_goals first | rfl | omega

/-! ## The block field of a matrix operation -/

theorem encBlock_k (ko : Bool) (k : BitVec 4) (z : Bool) : (encBlock ko k z).extractLsb' 6 4 = k := by
  refine (extract_append_high (k ++ boolBit ko ++ 0#4) (boolBit z) 6 4 (by omega)).trans ?_
  refine (extract_append_high (k ++ boolBit ko) 0#4 5 4 (by omega)).trans ?_
  exact (extract_append_high k (boolBit ko) 1 4 (by omega)).trans (extract_all k)

theorem encBlock_ko (ko : Bool) (k : BitVec 4) (z : Bool) : (encBlock ko k z).extractLsb' 5 1 = boolBit ko := by
  refine (extract_append_high (k ++ boolBit ko ++ 0#4) (boolBit z) 5 1 (by omega)).trans ?_
  refine (extract_append_high (k ++ boolBit ko) 0#4 4 1 (by omega)).trans ?_
  exact (extract_append_low k (boolBit ko) 0 1 (by omega)).trans (extract_all _)

theorem encBlock_zeros (ko : Bool) (k : BitVec 4) (z : Bool) : (encBlock ko k z).extractLsb' 1 4 = 0#4 := by
  refine (extract_append_high (k ++ boolBit ko ++ 0#4) (boolBit z) 1 4 (by omega)).trans ?_
  exact (extract_append_low (k ++ boolBit ko) 0#4 0 4 (by omega)).trans (extract_all _)

theorem encBlock_zs (ko : Bool) (k : BitVec 4) (z : Bool) : (encBlock ko k z).extractLsb' 0 1 = boolBit z :=
  (extract_append_low (k ++ boolBit ko ++ 0#4) (boolBit z) 0 1 (by omega)).trans (extract_all _)

theorem encBlock_low (ko : Bool) (k : BitVec 4) : (encBlock ko k false).extractLsb' 0 5 = 0#5 := by
  cases ko <;> revert k <;> decide

/-! ## Codes -/

theorem Size.ofCode_code (z : Size) : Size.ofCode z.code = some z := by cases z <;> rfl
theorem Policy.ofCode_code (z : Policy) : Policy.ofCode z.code = z := by cases z <;> rfl
theorem Strength.ofCode_code (z : Strength) : Strength.ofCode z.code = some z := by cases z <;> rfl
theorem Scope.ofCode_code (z : Scope) : Scope.ofCode z.code = some z := by cases z <;> rfl
theorem AOp.ofCode_code (z : AOp) : AOp.ofCode z.code = some z := by cases z <;> rfl
theorem ATy.ofCode_code (z : ATy) : ATy.ofCode z.code = some z := by cases z <;> rfl
theorem ICond.ofCode_code (z : ICond) : ICond.ofCode z.code = z := by cases z <;> rfl
theorem FCond.ofCode_code (z : FCond) : FCond.ofCode z.code = z := by cases z <;> rfl
theorem BTest.ofCode_code (z : BTest) : BTest.ofCode z.code = some z := by cases z <;> rfl
theorem RedOp.ofCode_code (z : RedOp) : RedOp.ofCode z.code = some z := by cases z <;> rfl
theorem Cvt.ofCode_code (z : Cvt) : Cvt.ofCode z.code = some z := by cases z <;> rfl
theorem Comb.ofCode_code (z : Comb) : Comb.ofCode z.code = some z := by cases z <;> rfl
theorem IntForm.ofCode_code (z : IntForm) : IntForm.ofCode z.code = some z := by cases z <;> rfl
theorem BarScope.ofCode_code (z : BarScope) : BarScope.ofCode z.code = some z := by cases z <;> rfl
theorem KCond.ofCode_code (z : KCond) : KCond.ofCode z.code = some z := by cases z <;> rfl
theorem VoteKind.ofCode_code (z : VoteKind) : VoteKind.ofCode z.code = some z := by cases z <;> rfl
theorem fenceOfCode_fenceCode (z : Strength) (h : z = .ar ∨ z = .acq ∨ z = .rel) :
    fenceOfCode (fenceCode z) = some z := by rcases h with rfl | rfl | rfl <;> rfl
theorem bitBool_boolBit (b : Bool) : bitBool (boolBit b) = b := by cases b <;> rfl

/-! ## Operands and literal words -/

theorem sOf7_s7 (s : SReg) : sOf7 (s7 s) = .ok s := by
  simp (disch := decide) only [sOf7, s7, extract_append_high, extract_append_low, extract_all, Nat.reduceSub]; rfl

theorem sLit_sWord (s : SReg) : sLit (sWord s) = .ok s := by
  simp (disch := decide) only [fld, sLit, sWord, extract_append_high, extract_append_low, extract_all, Nat.reduceSub]; rfl

theorem vLit_vWord (s : VReg) : vLit (vWord s) = .ok s := by
  simp (disch := decide) only [fld, vLit, vWord, extract_append_high, extract_append_low, extract_all, Nat.reduceSub]; rfl

theorem plainOrd_ordWord (o : Ord) : plainOrd (ordWord 0#4 0#3 0#2 o) = .ok o := by
  simp (disch := decide) only [fld, plainOrd, ordOf, ordWord, extract_append_high, extract_append_low, extract_all, Nat.reduceSub, Strength.ofCode_code,
    Scope.ofCode_code]
  rfl

theorem polOrd_ordWord (p : Policy) (o : Ord) : polOrd (ordWord 0#4 0#3 p.code o) = .ok (o, p) := by
  simp (disch := decide) only [fld, polOrd, ordOf, ordWord, extract_append_high, extract_append_low, extract_all, Nat.reduceSub, Strength.ofCode_code,
    Scope.ofCode_code, Policy.ofCode_code]
  rfl

theorem atomOrd_ordWord (op : AOp) (ty : ATy) (o : Ord) :
    atomOrd (ordWord op.code ty.code 0#2 o) = .ok (op, ty, o) := by
  simp (disch := decide) only [fld, atomOrd, ordOf, ordWord, extract_append_high, extract_append_low, extract_all, Nat.reduceSub, Strength.ofCode_code,
    Scope.ofCode_code, AOp.ofCode_code, ATy.ofCode_code]
  rfl

/-- A scalar B operand reads back (R161). -/
theorem sB_sbField (b : SOp) (rest : List Word) (h : sbOk b = true) :
    sB (sbField b) (sbLits b ++ rest) = .ok (b, rest) := by
  cases b with
  | reg r => simp only [sbOk, bne_iff_ne, ne_eq] at h; simp [sB, sbField, sbLits, h]
  | lit w => simp [sB, sbField, sbLits, takeLit, Except.map]

/-- A vector B operand reads back (R161). -/
theorem vB_bField (b : BOp) (rest : List Word) (h : vbOk b = true) :
    vB (bField b) (bLits b ++ rest) = .ok (b, rest) := by
  cases b with
  | reg r => simp only [vbOk, bne_iff_ne, ne_eq] at h; simp [vB, bField, bLits, h]
  | lit w => simp [vB, bField, bLits, takeLit, Except.map]

/-! ## Limits -/

theorem firstFailing_eq_none (cs : List (Bool × Reject)) : firstFailing cs = none ↔ ∀ c ∈ cs, c.1 = true := by
  induction cs with
  | nil => simp [firstFailing]
  | cons c t ih => obtain ⟨b, r⟩ := c; cases b <;> simp [firstFailing, ih]

theorem andThen_eq_none (a b : Option Reject) : andThen a b = none ↔ a = none ∧ b = none := by
  cases a <;> simp [andThen]

theorem wf_iff (i : Instr) : i.wf = true ↔ i.illegal = none := by simp [Instr.wf]

theorem decode_of_fields (i : Instr) (w : Word) (ls : List Word) (h : decodeFields w ls = .ok i)
    (hi : i.illegal = none) : decode w ls = .ok i := by
  unfold decode; rw [h]; simp [hi]

/-- What the decoder answers keeps every limit (R171). -/
theorem illegal_of_decode (i : Instr) (w : Word) (ls : List Word) (h : decode w ls = .ok i) : i.illegal = none := by
  unfold decode at h
  split at h
  · cases h
  · split at h
    · cases h
    · cases h; assumption

/-! ## Majors (R163) -/

theorem decodeFields_0x01 (w : Word) (ls : List Word) (h : fld w 26 6 = BitVec.ofNat 6 0x01) :
    decodeFields w ls = decScalar w ls := by
  unfold decodeFields; rw [h]; rfl

theorem decodeFields_0x02 (w : Word) (ls : List Word) (h : fld w 26 6 = BitVec.ofNat 6 0x02) :
    decodeFields w ls = decImm 0x02 w := by
  unfold decodeFields; rw [h]; rfl

theorem decodeFields_0x03 (w : Word) (ls : List Word) (h : fld w 26 6 = BitVec.ofNat 6 0x03) :
    decodeFields w ls = decImm 0x03 w := by
  unfold decodeFields; rw [h]; rfl

theorem decodeFields_0x04 (w : Word) (ls : List Word) (h : fld w 26 6 = BitVec.ofNat 6 0x04) :
    decodeFields w ls = decImm 0x04 w := by
  unfold decodeFields; rw [h]; rfl

theorem decodeFields_0x05 (w : Word) (ls : List Word) (h : fld w 26 6 = BitVec.ofNat 6 0x05) :
    decodeFields w ls = decImm 0x05 w := by
  unfold decodeFields; rw [h]; rfl

theorem decodeFields_0x06 (w : Word) (ls : List Word) (h : fld w 26 6 = BitVec.ofNat 6 0x06) :
    decodeFields w ls = decImm 0x06 w := by
  unfold decodeFields; rw [h]; rfl

theorem decodeFields_0x07 (w : Word) (ls : List Word) (h : fld w 26 6 = BitVec.ofNat 6 0x07) :
    decodeFields w ls = decImm 0x07 w := by
  unfold decodeFields; rw [h]; rfl

theorem decodeFields_0x08 (w : Word) (ls : List Word) (h : fld w 26 6 = BitVec.ofNat 6 0x08) :
    decodeFields w ls = decImm 0x08 w := by
  unfold decodeFields; rw [h]; rfl

theorem decodeFields_0x09 (w : Word) (ls : List Word) (h : fld w 26 6 = BitVec.ofNat 6 0x09) :
    decodeFields w ls = decImm 0x09 w := by
  unfold decodeFields; rw [h]; rfl

theorem decodeFields_0x0A (w : Word) (ls : List Word) (h : fld w 26 6 = BitVec.ofNat 6 0x0A) :
    decodeFields w ls = decState w := by
  unfold decodeFields; rw [h]; rfl

theorem decodeFields_0x0B (w : Word) (ls : List Word) (h : fld w 26 6 = BitVec.ofNat 6 0x0B) :
    decodeFields w ls = decImm 0x0B w := by
  unfold decodeFields; rw [h]; rfl

theorem decodeFields_0x0C (w : Word) (ls : List Word) (h : fld w 26 6 = BitVec.ofNat 6 0x0C) :
    decodeFields w ls = decBranch w := by
  unfold decodeFields; rw [h]; rfl

theorem decodeFields_0x0D (w : Word) (ls : List Word) (h : fld w 26 6 = BitVec.ofNat 6 0x0D) :
    decodeFields w ls = decImm 0x0D w := by
  unfold decodeFields; rw [h]; rfl

theorem decodeFields_0x0E (w : Word) (ls : List Word) (h : fld w 26 6 = BitVec.ofNat 6 0x0E) :
    decodeFields w ls = decImm 0x0E w := by
  unfold decodeFields; rw [h]; rfl

theorem decodeFields_0x0F (w : Word) (ls : List Word) (h : fld w 26 6 = BitVec.ofNat 6 0x0F) :
    decodeFields w ls = decFlow w := by
  unfold decodeFields; rw [h]; rfl

theorem decodeFields_0x10 (w : Word) (ls : List Word) (h : fld w 26 6 = BitVec.ofNat 6 0x10) :
    decodeFields w ls = decVecInt .w32 w ls := by
  unfold decodeFields; rw [h]; rfl

theorem decodeFields_0x11 (w : Word) (ls : List Word) (h : fld w 26 6 = BitVec.ofNat 6 0x11) :
    decodeFields w ls = decVecInt .w64 w ls := by
  unfold decodeFields; rw [h]; rfl

theorem decodeFields_0x12 (w : Word) (ls : List Word) (h : fld w 26 6 = BitVec.ofNat 6 0x12) :
    decodeFields w ls = decVecInt .h16 w ls := by
  unfold decodeFields; rw [h]; rfl

theorem decodeFields_0x13 (w : Word) (ls : List Word) (h : fld w 26 6 = BitVec.ofNat 6 0x13) :
    decodeFields w ls = decVecInt .b8 w ls := by
  unfold decodeFields; rw [h]; rfl

theorem decodeFields_0x14 (w : Word) (ls : List Word) (h : fld w 26 6 = BitVec.ofNat 6 0x14) :
    decodeFields w ls = decVecImm 0x14 w := by
  unfold decodeFields; rw [h]; rfl

theorem decodeFields_0x15 (w : Word) (ls : List Word) (h : fld w 26 6 = BitVec.ofNat 6 0x15) :
    decodeFields w ls = decVecImm 0x15 w := by
  unfold decodeFields; rw [h]; rfl

theorem decodeFields_0x16 (w : Word) (ls : List Word) (h : fld w 26 6 = BitVec.ofNat 6 0x16) :
    decodeFields w ls = decVecImm 0x16 w := by
  unfold decodeFields; rw [h]; rfl

theorem decodeFields_0x17 (w : Word) (ls : List Word) (h : fld w 26 6 = BitVec.ofNat 6 0x17) :
    decodeFields w ls = decVecImm 0x17 w := by
  unfold decodeFields; rw [h]; rfl

theorem decodeFields_0x18 (w : Word) (ls : List Word) (h : fld w 26 6 = BitVec.ofNat 6 0x18) :
    decodeFields w ls = decVecImm 0x18 w := by
  unfold decodeFields; rw [h]; rfl

theorem decodeFields_0x19 (w : Word) (ls : List Word) (h : fld w 26 6 = BitVec.ofNat 6 0x19) :
    decodeFields w ls = decCross w ls := by
  unfold decodeFields; rw [h]; rfl

theorem decodeFields_0x1A (w : Word) (ls : List Word) (h : fld w 26 6 = BitVec.ofNat 6 0x1A) :
    decodeFields w ls = decLane w := by
  unfold decodeFields; rw [h]; rfl

theorem decodeFields_0x20 (w : Word) (ls : List Word) (h : fld w 26 6 = BitVec.ofNat 6 0x20) :
    decodeFields w ls = decVecFloat .f32 w ls := by
  unfold decodeFields; rw [h]; rfl

theorem decodeFields_0x21 (w : Word) (ls : List Word) (h : fld w 26 6 = BitVec.ofNat 6 0x21) :
    decodeFields w ls = decVecFloat .f64 w ls := by
  unfold decodeFields; rw [h]; rfl

theorem decodeFields_0x22 (w : Word) (ls : List Word) (h : fld w 26 6 = BitVec.ofNat 6 0x22) :
    decodeFields w ls = decVecFloat .bf16 w ls := by
  unfold decodeFields; rw [h]; rfl

theorem decodeFields_0x23 (w : Word) (ls : List Word) (h : fld w 26 6 = BitVec.ofNat 6 0x23) :
    decodeFields w ls = decVecFloat .f16 w ls := by
  unfold decodeFields; rw [h]; rfl

theorem decodeFields_0x24 (w : Word) (ls : List Word) (h : fld w 26 6 = BitVec.ofNat 6 0x24) :
    decodeFields w ls = decConvert w ls := by
  unfold decodeFields; rw [h]; rfl

theorem decodeFields_0x2C (w : Word) (ls : List Word) (h : fld w 26 6 = BitVec.ofNat 6 0x2C) :
    decodeFields w ls = decAccess 0x2C w ls := by
  unfold decodeFields; rw [h]; rfl

theorem decodeFields_0x2D (w : Word) (ls : List Word) (h : fld w 26 6 = BitVec.ofNat 6 0x2D) :
    decodeFields w ls = decAccess 0x2D w ls := by
  unfold decodeFields; rw [h]; rfl

theorem decodeFields_0x2E (w : Word) (ls : List Word) (h : fld w 26 6 = BitVec.ofNat 6 0x2E) :
    decodeFields w ls = decAccess 0x2E w ls := by
  unfold decodeFields; rw [h]; rfl

theorem decodeFields_0x2F (w : Word) (ls : List Word) (h : fld w 26 6 = BitVec.ofNat 6 0x2F) :
    decodeFields w ls = decAccess 0x2F w ls := by
  unfold decodeFields; rw [h]; rfl

theorem decodeFields_0x30 (w : Word) (ls : List Word) (h : fld w 26 6 = BitVec.ofNat 6 0x30) :
    decodeFields w ls = decAccess 0x30 w ls := by
  unfold decodeFields; rw [h]; rfl

theorem decodeFields_0x31 (w : Word) (ls : List Word) (h : fld w 26 6 = BitVec.ofNat 6 0x31) :
    decodeFields w ls = decLocal w ls := by
  unfold decodeFields; rw [h]; rfl

theorem decodeFields_0x32 (w : Word) (ls : List Word) (h : fld w 26 6 = BitVec.ofNat 6 0x32) :
    decodeFields w ls = decAtomic w ls := by
  unfold decodeFields; rw [h]; rfl

theorem decodeFields_0x33 (w : Word) (ls : List Word) (h : fld w 26 6 = BitVec.ofNat 6 0x33) :
    decodeFields w ls = decScalarMem w ls := by
  unfold decodeFields; rw [h]; rfl

theorem decodeFields_0x34 (w : Word) (ls : List Word) (h : fld w 26 6 = BitVec.ofNat 6 0x34) :
    decodeFields w ls = decCopy w ls := by
  unfold decodeFields; rw [h]; rfl

theorem decodeFields_0x36 (w : Word) (ls : List Word) (h : fld w 26 6 = BitVec.ofNat 6 0x36) :
    decodeFields w ls = decConvoy w := by
  unfold decodeFields; rw [h]; rfl

theorem decodeFields_0x37 (w : Word) (ls : List Word) (h : fld w 26 6 = BitVec.ofNat 6 0x37) :
    decodeFields w ls = decAccess 0x37 w ls := by
  unfold decodeFields; rw [h]; rfl

theorem decodeFields_0x38 (w : Word) (ls : List Word) (h : fld w 26 6 = BitVec.ofNat 6 0x38) :
    decodeFields w ls = decAccess 0x38 w ls := by
  unfold decodeFields; rw [h]; rfl

theorem decodeFields_0x39 (w : Word) (ls : List Word) (h : fld w 26 6 = BitVec.ofNat 6 0x39) :
    decodeFields w ls = decStream w := by
  unfold decodeFields; rw [h]; rfl

theorem decodeFields_0x3A (w : Word) (ls : List Word) (h : fld w 26 6 = BitVec.ofNat 6 0x3A) :
    decodeFields w ls = decNeighbour w := by
  unfold decodeFields; rw [h]; rfl

theorem decodeFields_0x3C (w : Word) (ls : List Word) (h : fld w 26 6 = BitVec.ofNat 6 0x3C) :
    decodeFields w ls = decGraph w ls := by
  unfold decodeFields; rw [h]; rfl

theorem decodeFields_0x3D (w : Word) (ls : List Word) (h : fld w 26 6 = BitVec.ofNat 6 0x3D) :
    decodeFields w ls = decBarrier w := by
  unfold decodeFields; rw [h]; rfl

theorem decodeFields_0x3E (w : Word) (ls : List Word) (h : fld w 26 6 = BitVec.ofNat 6 0x3E) :
    decodeFields w ls = decMatrix w ls := by
  unfold decodeFields; rw [h]; rfl

theorem decodeFields_0x3F (w : Word) (ls : List Word) (h : fld w 26 6 = BitVec.ofNat 6 0x3F) :
    decodeFields w ls = decSystem w ls := by
  unfold decodeFields; rw [h]; rfl

theorem decodeFields_vecInt (t : ITy) (w : Word) (ls : List Word) (h : fld w 26 6 = t.major) :
    decodeFields w ls = decVecInt t w ls := by
  unfold decodeFields; rw [h]; cases t <;> rfl

theorem decodeFields_vecFloat (t : FTy) (w : Word) (ls : List Word) (h : fld w 26 6 = t.major) :
    decodeFields w ls = decVecFloat t w ls := by
  unfold decodeFields; rw [h]; cases t <;> rfl

end Sys2Proof
end

