-- ==== Sys2Proof/Laws/Store.lean ====
section
/-!
SUPPORT. Read after write for sparse data, and the canonical forms that its operations keep.
-/

namespace Sys2Proof

variable {α : Type} {w : Nat}

/-! ## Maps -/

@[simp] theorem Map.find_nil (k : Nat) : Map.find ([] : Map α) k = none := rfl

theorem Map.find_set (m : Map α) (k j : Nat) (x : α) :
    Map.find (Map.set m k x) j = if j = k then some x else Map.find m j := by
  induction m with
  | nil => simp only [Map.set, Map.find]; split <;> split <;> simp_all
  | cons h t ih =>
    obtain ⟨i, y⟩ := h
    simp only [Map.set]
    split
    · simp only [Map.find, ih]; split <;> split <;> simp_all
    · split
      · next h => subst h; simp only [Map.find]; by_cases hj : j = i <;> simp [hj, eq_comm]
      · simp only [Map.find]; by_cases hj : j = k
        · simp [hj]
        · simp [hj, Ne.symm hj, eq_comm]

@[simp] theorem Map.find_set_self (m : Map α) (k : Nat) (x : α) : Map.find (Map.set m k x) k = some x := by
  simp [Map.find_set]

theorem Map.find_drop (m : Map α) (k j : Nat) :
    Map.find (Map.drop m k) j = if j = k then none else Map.find m j := by
  induction m with
  | nil => simp [Map.drop]
  | cons h t ih =>
    obtain ⟨i, y⟩ := h
    simp only [Map.drop]
    split
    · rw [ih]; simp only [Map.find]; split <;> simp_all; intro h; simp_all
    · simp only [Map.find, ih]; split <;> split <;> simp_all

theorem Map.find_update (m : Map α) (k j : Nat) (f : α → α) :
    Map.find (Map.update m k f) j = if j = k then (Map.find m j).map f else Map.find m j := by
  induction m with
  | nil => simp [Map.update]
  | cons h t ih =>
    obtain ⟨i, y⟩ := h
    simp only [Map.update]
    split
    · simp only [Map.find]; split <;> split <;> simp_all
    · simp only [Map.find, ih]; split <;> split <;> simp_all

@[simp] theorem Map.find_update_self (m : Map α) (k : Nat) (f : α → α) :
    Map.find (Map.update m k f) k = (Map.find m k).map f := by
  simp [Map.find_update]

theorem Map.find_mapVals (m : Map α) (f : Nat → α → α) (k : Nat) :
    Map.find (Map.mapVals m f) k = (Map.find m k).map (f k) := by
  induction m with
  | nil => rfl
  | cons h t ih =>
    obtain ⟨i, y⟩ := h
    simp only [Map.mapVals, List.map_cons, Map.find] at ih ⊢
    split
    · next h => subst h; rfl
    · exact ih

/-! ## Stores -/

@[simp] theorem Store.read_nil (k : Nat) : Store.read ([] : Store w) k = 0 := rfl

theorem Store.read_eq_find (m : Store w) (k : Nat) : Store.read m k = (Map.find m k).getD 0 := by
  induction m with
  | nil => rfl
  | cons h t ih =>
    obtain ⟨i, y⟩ := h
    simp only [Store.read, Map.find]
    split <;> simp_all

/-- Read after write: the word written at its key, every other word as it was. -/
theorem Store.read_write (m : Store w) (k j : Nat) (x : BitVec w) :
    Store.read (Store.write m k x) j = if j = k then x else Store.read m j := by
  unfold Store.write
  split
  · next h => rw [Store.read_eq_find, Map.find_drop]; split <;> simp_all [Store.read_eq_find]
  · rw [Store.read_eq_find, Map.find_set]; split <;> simp_all [Store.read_eq_find]

@[simp] theorem Store.read_write_self (m : Store w) (k : Nat) (x : BitVec w) :
    Store.read (Store.write m k x) k = x := by
  simp [Store.read_write]

theorem Store.read_write_ne (m : Store w) {k j : Nat} (x : BitVec w) (h : j ≠ k) :
    Store.read (Store.write m k x) j = Store.read m j := by
  simp [Store.read_write, h]

/-! ## Canonical forms -/

theorem Map.rising_mono {m : Map α} {a b : Nat} (h : a ≤ b) (hm : Map.rising b m = true) : Map.rising a m = true := by
  cases m with
  | nil => rfl
  | cons x t =>
    simp only [Map.rising, Bool.and_eq_true, decide_eq_true_eq] at hm ⊢
    exact ⟨by omega, hm.2⟩

theorem Map.rising_set {m : Map α} {b k : Nat} (x : α) (h : b ≤ k) (hm : Map.rising b m = true) :
    Map.rising b (Map.set m k x) = true := by
  induction m generalizing b with
  | nil => simp [Map.set, Map.rising, h]
  | cons y t ih =>
    obtain ⟨i, y⟩ := y
    simp only [Map.rising, Bool.and_eq_true, decide_eq_true_eq] at hm
    simp only [Map.set]
    split
    · next hik => simp [Map.rising, hm.1, ih hik hm.2]
    · split
      · next hik => subst hik; simp [Map.rising, hm.1, hm.2]
      · next h1 h2 => simp [Map.rising, h, hm.2]; omega

theorem Map.rising_drop {m : Map α} {b : Nat} (k : Nat) (hm : Map.rising b m = true) :
    Map.rising b (Map.drop m k) = true := by
  induction m generalizing b with
  | nil => rfl
  | cons y t ih =>
    obtain ⟨i, y⟩ := y
    simp only [Map.rising, Bool.and_eq_true, decide_eq_true_eq] at hm
    simp only [Map.drop]
    split
    · exact ih (Map.rising_mono (by omega) hm.2)
    · simp [Map.rising, hm.1, ih hm.2]

theorem Map.rising_filter {m : Map α} {b : Nat} (p : Nat × α → Bool) (hm : Map.rising b m = true) :
    Map.rising b (m.filter p) = true := by
  induction m generalizing b with
  | nil => rfl
  | cons y t ih =>
    obtain ⟨i, y⟩ := y
    simp only [Map.rising, Bool.and_eq_true, decide_eq_true_eq] at hm
    simp only [List.filter_cons]
    split
    · simp [Map.rising, hm.1, ih hm.2]
    · exact ih (Map.rising_mono (by omega) hm.2)

theorem Store.all_drop {m : Store w} (k : Nat) {p : Nat × BitVec w → Bool} (h : m.all p = true) :
    (Map.drop m k).all p = true := by
  induction m with
  | nil => rfl
  | cons y t ih =>
    obtain ⟨i, y⟩ := y
    simp only [List.all_cons, Bool.and_eq_true] at h
    simp only [Map.drop]
    split
    · exact ih h.2
    · simp [h.1, ih h.2]

theorem Store.all_set {m : Store w} (k : Nat) (x : BitVec w) {p : Nat × BitVec w → Bool} (h : m.all p = true)
    (hx : p (k, x) = true) : (Map.set m k x).all p = true := by
  induction m with
  | nil => simp [Map.set, hx]
  | cons y t ih =>
    obtain ⟨i, y⟩ := y
    simp only [List.all_cons, Bool.and_eq_true] at h
    simp only [Map.set]
    split
    · simp [h.1, ih h.2]
    · split
      · simp [hx, h.2]
      · simp [hx, h.1, h.2]

@[simp] theorem Store.wf_nil : Store.wf ([] : Store w) = true := rfl

/-- A write keeps the canonical form. -/
theorem Store.wf_write {m : Store w} (k : Nat) (x : BitVec w) (h : Store.wf m = true) :
    Store.wf (Store.write m k x) = true := by
  simp only [Store.wf, Map.wf, Bool.and_eq_true] at h ⊢
  unfold Store.write
  split
  · exact ⟨Map.rising_drop k h.1, Store.all_drop k h.2⟩
  · next hx => exact ⟨Map.rising_set x (Nat.zero_le k) h.1, Store.all_set k x h.2 (by simpa using hx)⟩

/-- Leaving out entries keeps the canonical form. -/
theorem Store.wf_filter {m : Store w} (p : Nat × BitVec w → Bool) (h : Store.wf m = true) :
    Store.wf (m.filter p) = true := by
  simp only [Store.wf, Map.wf, Bool.and_eq_true] at h ⊢
  refine ⟨Map.rising_filter p h.1, ?_⟩
  simp only [List.all_eq_true, List.mem_filter, and_imp] at h ⊢
  exact fun x hx _ => h.2 x hx

namespace Machine

/-! ## Writes of several bytes -/

theorem wf_writeBytes {m : Store 8} (bs : List (Nat × Byte)) (h : Store.wf m = true) :
    Store.wf (writeBytes m bs) = true := by
  induction bs generalizing m with
  | nil => exact h
  | cons b t ih => exact ih (Store.wf_write b.1 b.2 h)

/-- A byte that a write does not name keeps its value. -/
theorem read_writeBytes_notin {m : Store 8} (bs : List (Nat × Byte)) (a : Nat) (h : ∀ b ∈ bs, b.1 ≠ a) :
    Store.read (writeBytes m bs) a = Store.read m a := by
  induction bs generalizing m with
  | nil => rfl
  | cons b t ih =>
    obtain ⟨k, x⟩ := b
    rw [writeBytes, ih fun b hb => h b (List.mem_cons_of_mem _ hb)]
    exact Store.read_write_ne _ _ (Ne.symm (h (k, x) (List.mem_cons_self ..)))

theorem mem_withAddr {a : Nat} {bs : List Byte} {x : Nat × Byte} (h : x ∈ withAddr a bs) :
    a ≤ x.1 ∧ x.1 < a + bs.length := by
  induction bs generalizing a with
  | nil => simp [withAddr] at h
  | cons b t ih =>
    simp only [withAddr, List.mem_cons] at h
    rcases h with rfl | h
    · simp
    · have := ih h; simp only [List.length_cons]; omega

/-- A consecutive write leaves every byte outside its range. -/
theorem read_write_outside (m : Store 8) (a : Nat) (bs : List Byte) (k : Nat) (h : k < a ∨ a + bs.length ≤ k) :
    Store.read (writeBytes m (withAddr a bs)) k = Store.read m k :=
  read_writeBytes_notin _ _ fun x hx => by have := mem_withAddr hx; omega

/-- A consecutive write gives its bytes. -/
theorem read_write_inside (m : Store 8) (a : Nat) (bs : List Byte) (k : Nat) (h : k < bs.length) :
    Store.read (writeBytes m (withAddr a bs)) (a + k) = bs[k] := by
  induction bs generalizing m a k with
  | nil => simp at h
  | cons b t ih =>
    simp only [withAddr, writeBytes]
    cases k with
    | zero => rw [read_write_outside _ _ _ _ (by omega)]; simp
    | succ k =>
      have := ih (Store.write m a b) (a + 1) k (by simpa using h)
      simpa [Nat.add_assoc, Nat.add_comm 1 k] using this

end Machine

end Sys2Proof
end

