-- ==== Sys2Proof/Laws/Invariant.lean ====
section
/-!
SUPPORT. Every shared operation of the machine keeps the invariant: memory in its canonical form, the power cap in its range,
the bring-up phase, the throttle levels. One lemma an operation, given to grind with the operation as its pattern.
-/

set_option linter.unusedVariables false

namespace Sys2Proof.Machine

open Sys2Proof

/-- The invariant as a test of the four fields that it speaks of. -/
def invOf (m : Store 8) (cap : Word) (phase : Nat) (throttle : Store 8) : Bool :=
  Memory.wf m && decide (1800 ≤ cap.toNat ∧ cap.toNat ≤ 3600) && decide (phase ≤ 4) &&
    throttle.all fun x => decide (x.2.toNat ≤ 5)

theorem inv_eq (s : State) : s.inv = invOf s.mem s.cap s.phase s.throttle := rfl
grind_pattern inv_eq => State.inv s

theorem invOf_iff (m : Store 8) (c : Word) (p : Nat) (t : Store 8) : invOf m c p t = true ↔
    Store.wf m = true ∧ (1800 ≤ c.toNat ∧ c.toNat ≤ 3600) ∧ p ≤ 4 ∧ t.all (fun x => decide (x.2.toNat ≤ 5)) = true := by
  simp [invOf, Memory.wf, and_assoc]

theorem invOf_writeBytes (m : Store 8) (bs : List (Nat × Byte)) (c : Word) (p : Nat) (t : Store 8)
    (h : invOf m c p t = true) : invOf (writeBytes m bs) c p t = true := by
  rw [invOf_iff] at h ⊢
  exact ⟨wf_writeBytes bs h.1, h.2⟩
grind_pattern invOf_writeBytes => invOf (writeBytes m bs) c p t

theorem invOf_cap (m : Store 8) (c d : Word) (p : Nat) (t : Store 8) (h : invOf m c p t = true)
    (hd : 1800 ≤ d.toNat ∧ d.toNat ≤ 3600) : invOf m d p t = true := by
  rw [invOf_iff] at h ⊢
  exact ⟨h.1, hd, h.2.2⟩

theorem clampCap_range (v : Word) : 1800 ≤ (clampCap v).toNat ∧ (clampCap v).toNat ≤ 3600 := by
  unfold clampCap
  have : (fld v 0 12).toNat < 2 ^ 12 := (fld v 0 12).isLt
  rw [BitVec.toNat_ofNat]
  omega

theorem throttle_write (m : Store 8) (k : Nat) (x : BitVec 8) (h : m.all (fun x => decide (x.2.toNat ≤ 5)) = true)
    (hx : x.toNat ≤ 5) : (Store.write m k x).all (fun x => decide (x.2.toNat ≤ 5)) = true := by
  unfold Store.write
  split
  · exact Store.all_drop k h
  · exact Store.all_set k x h (by simpa using hx)

theorem throttle_read (m : Store 8) (k : Nat) (h : m.all (fun x => decide (x.2.toNat ≤ 5)) = true) :
    (Store.read m k).toNat ≤ 5 := by
  induction m with
  | nil => simp
  | cons y t ih =>
    simp only [List.all_cons, Bool.and_eq_true, decide_eq_true_eq] at h
    unfold Store.read
    split
    · exact h.1
    · exact ih h.2

theorem asks_le (s : State) (r : Reading) (l : Nat) (a : Option Nat) : s.asks r l a ≤ 5 := by
  unfold State.asks
  dsimp only
  repeat' split
  all_goals omega

theorem foldl_wf {α : Type} (f : Store 8 → α → Store 8) (m : Store 8) (l : List α)
    (hf : ∀ m x, Store.wf m = true → Store.wf (f m x) = true) (h : Store.wf m = true) : Store.wf (l.foldl f m) = true := by
  induction l generalizing m with
  | nil => exact h
  | cons x t ih => exact ih _ (hf _ _ h)

theorem foldl_inv {α : Type} (f : State → α → State) (s : State) (l : List α)
    (hf : ∀ s x, s.inv = true → (f s x).inv = true) (h : s.inv = true) : (l.foldl f s).inv = true := by
  induction l generalizing s with
  | nil => exact h
  | cons x t ih => exact ih _ (hf _ _ h)
grind_pattern foldl_inv => List.foldl f s l

theorem foldl_inv2 {α β : Type} (f : State × β → α → State × β) (x : State × β) (l : List α)
    (hf : ∀ x a, x.1.inv = true → (f x a).1.inv = true) (h : x.1.inv = true) : (l.foldl f x).1.inv = true := by
  induction l generalizing x with
  | nil => exact h
  | cons a t ih => exact ih _ (hf _ _ h)
grind_pattern foldl_inv2 => List.foldl f x l

theorem of_pair {β : Type} {x : State × β} {s : State} {r : β} (e : x = (s, r)) (h : x.1.inv = true) : s.inv = true := by
  rw [e] at h; exact h

theorem ite_inv {β : Type} {c : Prop} [Decidable c] {a b : State × β} (ha : a.1.inv = true) (hb : b.1.inv = true) :
    (if c then a else b).1.inv = true := by
  split <;> assumption

/-! ## The invariant of what an operation answers -/

def Effect.inv : Effect → Bool
  | .done s | .flow s | .wait s _ | .fault s _ => s.inv
  | .hold _ => true

theorem Effect.inv_done (s : State) : (Effect.done s).inv = s.inv := rfl
theorem Effect.inv_flow (s : State) : (Effect.flow s).inv = s.inv := rfl
theorem Effect.inv_wait (s : State) (w : Wait) : (Effect.wait s w).inv = s.inv := rfl
theorem Effect.inv_fault (s : State) (c : Cause) : (Effect.fault s c).inv = s.inv := rfl
theorem Effect.inv_hold (w : Wait) : (Effect.hold w).inv = true := rfl
grind_pattern Effect.inv_done => Effect.inv (Effect.done s)
grind_pattern Effect.inv_flow => Effect.inv (Effect.flow s)
grind_pattern Effect.inv_wait => Effect.inv (Effect.wait s w)
grind_pattern Effect.inv_fault => Effect.inv (Effect.fault s c)
grind_pattern Effect.inv_hold => Effect.inv (Effect.hold w)

def Served.inv : Served → Bool
  | .answer s _ | .later s => s.inv
  | .held => true

def Fetched.inv : Fetched → Bool
  | .faulted s | .go s _ => s.inv
  | .idle => true

def Taken.inv : Taken → Bool
  | .bad s | .go s _ _ => s.inv
  | .none => true

def Offered.inv : Offered → Bool
  | .done s _ _ | .overflow s _ => s.inv

def Registered.inv : Registered → Bool
  | .done s => s.inv
  | .empty | .full => true

def outInv : Host.Outcome State Fault Refusal → Bool
  | .next s => s.inv
  | _ => true

theorem outInv_next (s : State) : outInv (.next s) = s.inv := rfl
theorem outInv_fault (f : Fault) : outInv (.fault f) = true := rfl
theorem outInv_refused (r : Refusal) : outInv (.refused r) = true := rfl
grind_pattern outInv_next => outInv (Host.Outcome.next s)
grind_pattern outInv_fault => outInv (Host.Outcome.fault f)
grind_pattern outInv_refused => outInv (Host.Outcome.refused r)

def optInv : Option State → Bool
  | some s => s.inv
  | none => true

theorem optInv_getD (o : Option State) (s : State) (h : s.inv = true) (ho : optInv o = true) : (o.getD s).inv = true := by
  cases o <;> assumption
grind_pattern optInv_getD => o.getD s

def excInv : Except Nat State → Bool
  | .ok s => s.inv
  | .error _ => true

/-! ## Ops -/

theorem State.modTeam_inv (s : State) (tid : Nat) (f : Team → Team) (h : s.inv = true) :
    (State.modTeam s tid f).inv = true := by
  unfold State.modTeam
  grind
grind_pattern State.modTeam_inv => State.modTeam s tid f

theorem State.modParty_inv (s : State) (tid p : Nat) (f : Party → Party) (h : s.inv = true) :
    (State.modParty s tid p f).inv = true := by
  unfold State.modParty
  grind
grind_pattern State.modParty_inv => State.modParty s tid p f

theorem State.useFree_inv (s : State) (h : s.inv = true) : (State.useFree s).inv = true := by
  unfold State.useFree
  grind
grind_pattern State.useFree_inv => State.useFree s

theorem State.fresh_inv (s : State) (h : s.inv = true) : (State.fresh s).2.inv = true := by
  unfold State.fresh
  grind
grind_pattern State.fresh_inv => State.fresh s

theorem State.takeFault_inv (s : State) (tid : Nat) (o : Origin) (c : Cause) (deferred engine : Bool) (w : Wait)
    (h : s.inv = true) : (State.takeFault s tid o c deferred engine w).inv = true := by
  unfold State.takeFault
  grind
grind_pattern State.takeFault_inv => State.takeFault s tid o c deferred engine w

theorem State.laterFault_inv (s : State) (tid : Nat) (o : Origin) (c : Cause) (deferred engine : Bool)
    (h : s.inv = true) : (State.laterFault s tid o c deferred engine).inv = true := by
  unfold State.laterFault
  grind
grind_pattern State.laterFault_inv => State.laterFault s tid o c deferred engine

theorem State.copyLine_inv (s : State) (m : Migration) (line : Nat) (h : s.inv = true) :
    (State.copyLine s m line).inv = true := by
  unfold State.copyLine
  grind
grind_pattern State.copyLine_inv => State.copyLine s m line

theorem State.settle_inv (s : State) (pa : Nat) (h : s.inv = true) : (State.settle s pa).1.inv = true := by
  unfold State.settle
  grind
grind_pattern State.settle_inv => State.settle s pa

theorem RedEntry.apply_inv (e : RedEntry) (s : State) (h : s.inv = true) : (e.apply s).inv = true := by
  rw [inv_eq, invOf_iff] at h ⊢
  exact ⟨foldl_wf _ _ _ (fun _ _ h => wf_writeBytes _ h) h.1, h.2⟩
grind_pattern RedEntry.apply_inv => RedEntry.apply e s

theorem State.applyReductions_inv (s : State) (sel : RedEntry → Bool) (h : s.inv = true) :
    (State.applyReductions s sel).inv = true := by
  unfold State.applyReductions
  grind
grind_pattern State.applyReductions_inv => State.applyReductions s sel

theorem State.reach_inv (s : State) (pa n : Nat) (h : s.inv = true) : (State.reach s pa n).inv = true := by
  unfold State.reach
  grind
grind_pattern State.reach_inv => State.reach s pa n

theorem State.poke_inv (s : State) (pa : Nat) (bs : List Byte) (h : s.inv = true) :
    (State.poke s pa bs).inv = true := by
  unfold State.poke
  grind
grind_pattern State.poke_inv => State.poke s pa bs

theorem State.pokeLine_inv (s : State) (line : Nat) (bytes : Map Byte) (h : s.inv = true) :
    (State.pokeLine s line bytes).inv = true := by
  unfold State.pokeLine
  grind
grind_pattern State.pokeLine_inv => State.pokeLine s line bytes

theorem State.setWcb_inv (s : State) (core : Nat) (es : List WcbEntry) (h : s.inv = true) :
    (State.setWcb s core es).inv = true := by
  unfold State.setWcb
  grind
grind_pattern State.setWcb_inv => State.setWcb s core es

theorem State.drainEntry_inv (s : State) (core : Nat) (e : WcbEntry) (h : s.inv = true) :
    (State.drainEntry s core e).inv = true := by
  unfold State.drainEntry
  grind
grind_pattern State.drainEntry_inv => State.drainEntry s core e

theorem State.retryHeld_inv (s : State) (hd0 : HeldStore) (h : s.inv = true) :
    (State.retryHeld s hd0).inv = true := by
  unfold State.retryHeld
  grind
grind_pattern State.retryHeld_inv => State.retryHeld s hd0

theorem State.performHeld_inv (s : State) (h : s.inv = true) : (State.performHeld s).inv = true := by
  unfold State.performHeld
  grind
grind_pattern State.performHeld_inv => State.performHeld s

theorem State.drain_inv (s : State) (core : Nat) (sel : WcbEntry → Bool) (h : s.inv = true) :
    (State.drain s core sel).inv = true := by
  unfold State.drain
  grind
grind_pattern State.drain_inv => State.drain s core sel

theorem State.drainEvery_inv (s : State) (sel : WcbEntry → Bool) (h : s.inv = true) :
    (State.drainEvery s sel).inv = true := by
  unfold State.drainEvery
  grind
grind_pattern State.drainEvery_inv => State.drainEvery s sel

theorem State.wcbStore_inv (s : State) (core : Nat) (owner : Nat × Nat) (pa : Nat) (bs : List Byte)
    (h : s.inv = true) : (State.wcbStore s core owner pa bs).inv = true := by
  unfold State.wcbStore
  grind
grind_pattern State.wcbStore_inv => State.wcbStore s core owner pa bs

theorem State.fillDie_inv (s : State) (die : Nat) (e : TlbEntry) (h : s.inv = true) :
    (State.fillDie s die e).inv = true := by
  unfold State.fillDie
  grind
grind_pattern State.fillDie_inv => State.fillDie s die e

theorem State.fillTlb_inv (s : State) (core : Nat) (e : TlbEntry) (h : s.inv = true) :
    (State.fillTlb s core e).inv = true := by
  unfold State.fillTlb
  grind
grind_pattern State.fillTlb_inv => State.fillTlb s core e

theorem State.stick_inv (s : State) (b : Bool) (h : s.inv = true) : (State.stick s b).inv = true := by
  unfold State.stick
  grind
grind_pattern State.stick_inv => State.stick s b

theorem State.await_inv (s : State) (core : Option Nat) (tag : BitVec 16) (va : Nat) (h : s.inv = true) :
    (State.await s core tag va).inv = true := by
  unfold State.await
  grind
grind_pattern State.await_inv => State.await s core tag va

theorem State.missFor_inv (s : State) (core : Option Nat) (tag : BitVec 16) (va : Nat) (h : s.inv = true) :
    (State.missFor s core tag va).1.inv = true := by
  unfold State.missFor
  grind
grind_pattern State.missFor_inv => State.missFor s core tag va

theorem State.entryFor_inv (s : State) (core : Nat) (tag : BitVec 16) (va : Nat) (h : s.inv = true) :
    (State.entryFor s core tag va).1.inv = true := by
  unfold State.entryFor
  grind
grind_pattern State.entryFor_inv => State.entryFor s core tag va

theorem State.startWalk_inv (s : State) (core : Option Nat) (who : Option Who) (tag : BitVec 16) (va : Nat)
    (needed : Bool) (h : s.inv = true) : (State.startWalk s core who tag va needed).inv = true := by
  unfold State.startWalk
  grind
grind_pattern State.startWalk_inv => State.startWalk s core who tag va needed

theorem State.grantWalkers_inv (s : State) (todo : List Nat) (h : s.inv = true) :
    (State.grantWalkers s todo).inv = true := by
  fun_induction State.grantWalkers s todo <;> grind
grind_pattern State.grantWalkers_inv => State.grantWalkers s todo

theorem State.admitWalks_inv (s : State) (todo : List Nat) (h : s.inv = true) :
    (State.admitWalks s todo).inv = true := by
  fun_induction State.admitWalks s todo <;> grind
grind_pattern State.admitWalks_inv => State.admitWalks s todo

theorem State.regrant_inv (s : State) (die : Nat) (h : s.inv = true) : (State.regrant s die).inv = true := by
  unfold State.regrant
  grind
grind_pattern State.regrant_inv => State.regrant s die

theorem State.translate_inv (s : State) (core : Nat) (tag : BitVec 16) (priv : Bool) (u : Use) (a : DWord)
    (h : s.inv = true) : (State.translate s core tag priv u a).1.inv = true := by
  unfold State.translate
  grind
grind_pattern State.translate_inv => State.translate s core tag priv u a

theorem State.walkTo_inv (s : State) (tag : BitVec 16) (priv : Bool) (u : Use) (a : Nat) (h : s.inv = true) :
    (State.walkTo s tag priv u a).1.inv = true := by
  unfold State.walkTo
  grind
grind_pattern State.walkTo_inv => State.walkTo s tag priv u a

theorem State.engineTarget_inv (s : State) (core : Option Nat) (tag : BitVec 16) (priv : Bool) (u : Use) (a : Nat)
    (h : s.inv = true) : (State.engineTarget s core tag priv u a).1.inv = true := by
  unfold State.engineTarget
  grind
grind_pattern State.engineTarget_inv => State.engineTarget s core tag priv u a

theorem State.registerRead_inv (s : State) (pa lane n : Nat) (h : s.inv = true) :
    (State.registerRead s pa lane n).1.inv = true := by
  unfold State.registerRead
  grind
grind_pattern State.registerRead_inv => State.registerRead s pa lane n

theorem State.peerByte_inv (s : State) (r pa va : Nat) (h : s.inv = true) :
    (State.peerByte s r pa va).1.inv = true := by
  unfold State.peerByte
  grind
grind_pattern State.peerByte_inv => State.peerByte s r pa va

theorem State.readAs_inv {α : Type} (s : State) (r : Reader) (f : State → State × α) (h : s.inv = true)
    (hf : ∀ s, s.inv = true → (f s).1.inv = true) : (State.readAs s r f).1.inv = true := hf _ h
grind_pattern State.readAs_inv => State.readAs s r f

theorem State.usedBytes_inv (s : State) (id : Nat) (h : s.inv = true) : (State.usedBytes s id).inv = true := by
  unfold State.usedBytes
  grind
grind_pattern State.usedBytes_inv => State.usedBytes s id

theorem State.runAs_inv (s : State) (r : Reader) (f : State → State) (h : s.inv = true)
    (hf : ∀ s, s.inv = true → (f s).inv = true) : (State.runAs s r f).inv = true :=
  State.usedBytes_inv _ _ (hf _ h)
grind_pattern State.runAs_inv => State.runAs s r f

theorem State.engineByte_inv (s : State) (core : Option Nat) (t : Target) (va : Nat) (h : s.inv = true) :
    (State.engineByte s core t va).1.inv = true := by
  unfold State.engineByte
  grind
grind_pattern State.engineByte_inv => State.engineByte s core t va

theorem State.egress_inv (s : State) (h : s.inv = true) : (State.egress s).2.inv = true := by
  unfold State.egress
  grind
grind_pattern State.egress_inv => State.egress s

theorem State.nextOrder_inv (s : State) (dst addr : Nat) (op : FabOp) (h : s.inv = true) :
    (State.nextOrder s dst addr op).2.inv = true := by
  unfold State.nextOrder
  grind
grind_pattern State.nextOrder_inv => State.nextOrder s dst addr op

theorem State.request_inv (s : State) (tid : Nat) (party : Option Nat) (acc : Option (Nat × Nat)) (o : Origin)
    (dst addr : Nat) (op : FabOp) (va place lane : Option Nat) (late : Option Team) (lanes : List (Nat × Nat))
    (dev : Bool) (aft : Option Nat) (tag : Option (BitVec 16)) (h : s.inv = true) :
    (State.request s tid party acc o dst addr op va place lane late lanes dev aft tag).1.inv = true := by
  unfold State.request
  exact State.nextOrder_inv _ _ _ _ (State.egress_inv _ (State.fresh_inv _ h))
grind_pattern State.request_inv => State.request s tid party acc o dst addr op va place lane late lanes dev aft tag

theorem State.askByte_inv (s : State) (since : Nat) (x : Reader) (r pa va : Nat) (h : s.inv = true) :
    (State.askByte s since x r pa va).inv = true := by
  unfold State.askByte
  grind
grind_pattern State.askByte_inv => State.askByte s since x r pa va

theorem State.received_inv (s : State) (who : Who) (h : s.inv = true) : (State.received s who).inv = true := by
  unfold State.received
  grind
grind_pattern State.received_inv => State.received s who

theorem State.undo_inv (s : State) (who : Option Who) (o : Origin) (stuck : State) (h : s.inv = true)
    (h1 : stuck.inv = true) : (State.undo s who o stuck).inv = true := by
  unfold State.undo
  grind
grind_pattern State.undo_inv => State.undo s who o stuck

theorem State.stampedPoke_inv (s : State) (place : Option Nat) (pa : Nat) (bs : List Byte) (h : s.inv = true) :
    (State.stampedPoke s place pa bs).inv = true := by
  unfold State.stampedPoke
  grind
grind_pattern State.stampedPoke_inv => State.stampedPoke s place pa bs

theorem State.enginePut_inv (s : State) (tid : Nat) (o : Origin) (place : Option Nat) (t : Target) (va : Nat)
    (bs : List Byte) (tag : Option (BitVec 16)) (h : s.inv = true) :
    (State.enginePut s tid o place t va bs tag).inv = true := by
  unfold State.enginePut
  grind
grind_pattern State.enginePut_inv => State.enginePut s tid o place t va bs tag

theorem State.engineRead_inv (s : State) (core : Option Nat) (tag : BitVec 16) (priv : Bool) (a n : Nat)
    (h : s.inv = true) : (State.engineRead s core tag priv a n).1.inv = true := by
  fun_induction State.engineRead s core tag priv a n <;> grind
grind_pattern State.engineRead_inv => State.engineRead s core tag priv a n

theorem State.engineWriteN_inv (s : State) (core : Option Nat) (tid : Nat) (o : Origin) (place : Option Nat)
    (tag : BitVec 16) (priv : Bool) (a : Nat) (bs : List Byte) (fuel : Nat) (h : s.inv = true) :
    (State.engineWriteN s core tid o place tag priv a bs fuel).1.inv = true := by
  fun_induction State.engineWriteN s core tid o place tag priv a bs fuel <;> grind
grind_pattern State.engineWriteN_inv => State.engineWriteN s core tid o place tag priv a bs fuel

theorem State.engineWrite_inv (s : State) (core : Option Nat) (tid : Nat) (o : Origin) (place : Option Nat)
    (tag : BitVec 16) (priv : Bool) (a : Nat) (bs : List Byte) (h : s.inv = true) :
    (State.engineWrite s core tid o place tag priv a bs).1.inv = true := by
  unfold State.engineWrite
  grind
grind_pattern State.engineWrite_inv => State.engineWrite s core tid o place tag priv a bs

/-! ## Tiles -/

theorem State.locRead_inv (s : State) (tid loc a n : Nat) (h : s.inv = true) :
    (State.locRead s tid loc a n).1.inv = true := by
  unfold State.locRead
  grind
grind_pattern State.locRead_inv => State.locRead s tid loc a n

theorem State.locWrite_inv (s : State) (tid : Nat) (o : Origin) (place : Option Nat) (loc a : Nat) (bs : List Byte)
    (h : s.inv = true) : (State.locWrite s tid o place loc a bs).1.inv = true := by
  unfold State.locWrite
  grind
grind_pattern State.locWrite_inv => State.locWrite s tid o place loc a bs

theorem State.readElem_inv (s : State) (tid : Nat) (hd0 : Handle) (r c : Nat) (h : s.inv = true) :
    (State.readElem s tid hd0 r c).1.inv = true := by
  unfold State.readElem
  grind
grind_pattern State.readElem_inv => State.readElem s tid hd0 r c

theorem State.writeElem_inv (s : State) (tid : Nat) (o : Origin) (place : Option Nat) (hd0 : Handle) (r c x : Nat)
    (h : s.inv = true) : (State.writeElem s tid o place hd0 r c x).1.inv = true := by
  unfold State.writeElem
  grind
grind_pattern State.writeElem_inv => State.writeElem s tid o place hd0 r c x

theorem State.fetchHandle_inv (s : State) (tid n sub : Nat) (h : s.inv = true) :
    (State.fetchHandle s tid n sub).1.inv = true := by
  unfold State.fetchHandle
  grind
grind_pattern State.fetchHandle_inv => State.fetchHandle s tid n sub

/-! ## Operands -/

theorem State.streamGroup_inv (s : State) (tid : Nat) (hd0 : Handle) (c : Cvt) (pos n : Nat) (g : Group)
    (h : s.inv = true) : (State.streamGroup s tid hd0 c pos n g).1.inv = true := by
  fun_induction State.streamGroup s tid hd0 c pos n g <;> grind
grind_pattern State.streamGroup_inv => State.streamGroup s tid hd0 c pos n g

theorem State.popOne_inv (s : State) (tid p : Nat) (sl second : Bool) (n : Nat) (h : s.inv = true) :
    (State.popOne s tid p sl second n).1.inv = true := by
  unfold State.popOne
  split
  · exact h
  · split
    · exact h
    · next port hp =>
      dsimp only
      split
      · exact State.modParty_inv _ _ _ _ h
      · have hg := State.streamGroup_inv s tid port.handle ((hCvt port.handle).getD .fp32) port.pos 96 ⟨[], [], 0⟩ h
        split
        · next e => rw [e] at hg; exact hg
        · next e =>
          rw [e] at hg
          split
          · exact hg
          · exact State.modParty_inv _ _ _ _ hg
grind_pattern State.popOne_inv => State.popOne s tid p sl second n

theorem State.popAll_inv (s : State) (tid p : Nat) (sl : Bool) (seen ns : List Nat) (h : s.inv = true) :
    (State.popAll s tid p sl seen ns).1.inv = true := by
  fun_induction State.popAll s tid p sl seen ns <;> grind
grind_pattern State.popAll_inv => State.popAll s tid p sl seen ns

theorem State.faultAt_inv (s : State) (w : Issuer) (q : Party) (word : Word) (c : Cause) (h : s.inv = true) :
    (State.faultAt s w q word c).inv = true := by
  unfold State.faultAt
  grind
grind_pattern State.faultAt_inv => State.faultAt s w q word c

theorem State.waitOn_inv (s : State) (w : Issuer) (x : Wait) (h : s.inv = true) :
    (State.waitOn s w x).inv = true := by
  unfold State.waitOn
  grind
grind_pattern State.waitOn_inv => State.waitOn s w x

theorem finish_inv (i : Instr) (s : State) (w : Issuer) (q : Party) (e : Effect) (h : s.inv = true) (he : e.inv = true) :
    (finish i s w q e).inv = true := by
  cases e <;> simp only [finish, Effect.inv] at he ⊢ <;> grind

theorem Effect.unstuck_inv (e : Effect) (s : State) (who : Who) (o : Origin) (h : s.inv = true) (he : e.inv = true) :
    (Effect.unstuck e s who o).inv = true := by
  unfold Effect.unstuck
  split
  · next r hr =>
    split
    · refine State.undo_inv _ _ _ _ h ?_
      cases e <;> cases hr <;> exact he
    · exact he
  · exact he

theorem runParty_inv (i : Instr) (s : State) (effect : Issuer → State → Effect) (h : s.inv = true)
    (he : ∀ w s, s.inv = true → (effect w s).inv = true) : outInv (runParty i s effect) = true := by
  have fin := fun w q s' who o (h' : s'.inv = true) =>
    finish_inv i s w q _ h (Effect.unstuck_inv (effect w s') s who o h (he w s' h'))
  unfold runParty
  split
  · rfl
  · next w t q _ =>
    split
    · exact h
    · split
      · exact fin _ _ _ _ _ h
      · split
        · exact State.faultAt_inv _ _ _ _ _ h
        · exact State.waitOn_inv _ _ _ h
        · have hp := State.popAll_inv s w.tid w.p w.sl [] (poppable i q w.sl) h
          dsimp only
          split
          · split
            · next hx =>
              rw [hx] at hp
              dsimp only [outInv]
              split
              · exact State.waitOn_inv _ _ _ (State.undo_inv _ _ _ _ h hp)
              · split
                · exact State.takeFault_inv _ _ _ _ _ _ _ hp
                · exact State.faultAt_inv _ _ _ _ _ hp
            · next hx => rw [hx] at hp; exact State.modParty_inv _ _ _ _ (fin _ _ _ _ _ hp)
          · exact fin _ _ _ _ _ h

theorem runRegs_inv (i : Instr) (s : State) (f : Bool → Party → Party) (h : s.inv = true) :
    outInv (runRegs i s f) = true := runParty_inv _ _ _ h fun _ _ h => State.modParty_inv _ _ _ _ h
grind_pattern runRegs_inv => runRegs i s f

theorem runTeam_inv (i : Instr) (s : State) (f : Issuer → Team → Party → State → Effect) (h : s.inv = true)
    (hf : ∀ w t q s, s.inv = true → (f w t q s).inv = true) : outInv (runTeam i s f) = true := by
  refine runParty_inv _ _ _ h fun w s h => ?_
  split
  · exact hf _ _ _ _ h
  · exact h

/-! ## Order -/

theorem State.release_inv (s : State) (core tid p : Nat) (q : Party) (scope : Scope) (h : s.inv = true) :
    (State.release s core tid p q scope).1.inv = true := by
  unfold State.release
  grind
grind_pattern State.release_inv => State.release s core tid p q scope

theorem State.promote_inv (s : State) (on : Bool) (h : s.inv = true) : (State.promote s on).1.inv = true := by
  unfold State.promote
  grind
grind_pattern State.promote_inv => State.promote s on

theorem State.peerWrite_inv (s : State) (tid p : Nat) (o : Origin) (dst addr : Nat) (op : FabOp) (va : Nat)
    (acq dev : Bool) (h : s.inv = true) : (State.peerWrite s tid p o dst addr op va acq dev).inv = true := by
  unfold State.peerWrite
  grind
grind_pattern State.peerWrite_inv => State.peerWrite s tid p o dst addr op va acq dev

theorem State.coalesce_inv (s : State) (since tid p dst line : Nat) (lane : List (Nat × Nat)) (op : FabOp)
    (h : s.inv = true) : optInv (State.coalesce s since tid p dst line lane op) = true := by
  unfold State.coalesce
  grind [optInv]
grind_pattern State.coalesce_inv => State.coalesce s since tid p dst line lane op

theorem State.storePeer_inv (s : State) (since tid p : Nat) (o : Origin) (dst addr mt : Nat) (bs : List Byte)
    (va : Nat) (h : s.inv = true) : (State.storePeer s since tid p o dst addr mt bs va).inv = true := by
  unfold State.storePeer
  grind [optInv]
grind_pattern State.storePeer_inv => State.storePeer s since tid p o dst addr mt bs va

theorem State.readTarget_inv (s : State) (core : Nat) (strong : Bool) (t : Target) (lane n : Nat) (h : s.inv = true) :
    (State.readTarget s core strong t lane n).1.inv = true := by
  unfold State.readTarget
  grind
grind_pattern State.readTarget_inv => State.readTarget s core strong t lane n

theorem State.storeEach_inv (s : State) (since core tid p : Nat) (o : Origin) (n : Nat)
    (ls : List (Target × Nat × Nat)) (h : s.inv = true) :
    (State.storeEach s since core tid p o n ls).inv = true := by
  fun_induction State.storeEach s since core tid p o n ls <;> grind
grind_pattern State.storeEach_inv => State.storeEach s since core tid p o n ls

theorem State.storeLanes_inv (s : State) (core tid p : Nat) (o : Origin) (n : Nat) (ls : List (Target × Nat × Nat))
    (since : Nat) (h : s.inv = true) : (State.storeLanes s core tid p o n ls since).inv = true := by
  unfold State.storeLanes
  grind
grind_pattern State.storeLanes_inv => State.storeLanes s core tid p o n ls since

theorem State.translateAll_inv (s : State) (core : Nat) (tag : BitVec 16) (priv : Bool) (u : Use)
    (as : List (Nat × DWord)) (h : s.inv = true) : (State.translateAll s core tag priv u as).1.inv = true := by
  fun_induction State.translateAll s core tag priv u as <;> grind
grind_pattern State.translateAll_inv => State.translateAll s core tag priv u as

theorem State.translateStores_inv (s : State) (core : Nat) (tag : BitVec 16) (priv : Bool) (as : List (Nat × DWord))
    (u : Use) (h : s.inv = true) : (State.translateStores s core tag priv as u).1.inv = true := by
  unfold State.translateStores
  grind
grind_pattern State.translateStores_inv => State.translateStores s core tag priv as u

/-! ## Versions -/

theorem State.pendStore_inv (s : State) (cid : BitVec 24) (ver : Word) (pa : Nat) (bs : List Byte)
    (source : Option Nat) (h : s.inv = true) : excInv (State.pendStore s cid ver pa bs source) = true := by
  unfold State.pendStore
  grind [excInv]
grind_pattern State.pendStore_inv => State.pendStore s cid ver pa bs source

theorem State.cleanPending_inv (s : State) (cid : BitVec 24) (ver : Word) (sector : Nat) (h : s.inv = true) :
    (State.cleanPending s cid ver sector).inv = true := by
  unfold State.cleanPending
  grind
grind_pattern State.cleanPending_inv => State.cleanPending s cid ver sector

theorem State.commitLine_inv (s : State) (line stamp comp : Nat) (h : s.inv = true) :
    (State.commitLine s line stamp comp).inv = true := by
  unfold State.commitLine
  grind
grind_pattern State.commitLine_inv => State.commitLine s line stamp comp

theorem State.commitLines_inv (s : State) (cid : BitVec 24) (ver : Word) (stamp comp : Nat) (h : s.inv = true) :
    (State.commitLines s cid ver stamp comp).inv = true := by
  unfold State.commitLines
  grind
grind_pattern State.commitLines_inv => State.commitLines s cid ver stamp comp

theorem State.prepare_inv (s : State) (cid : BitVec 24) (ver : Word) (h : s.inv = true) :
    (State.prepare s cid ver).inv = true := by
  unfold State.prepare
  grind
grind_pattern State.prepare_inv => State.prepare s cid ver

theorem State.dropPending_inv (s : State) (cid : BitVec 24) (ver : Word) (h : s.inv = true) :
    (State.dropPending s cid ver).inv = true := by
  unfold State.dropPending
  grind
grind_pattern State.dropPending_inv => State.dropPending s cid ver

theorem State.discardConvoy_inv (s : State) (cid : BitVec 24) (ver : Word) (h : s.inv = true) :
    (State.discardConvoy s cid ver).inv = true := by
  unfold State.discardConvoy
  grind
grind_pattern State.discardConvoy_inv => State.discardConvoy s cid ver

theorem State.tellPeers_inv (s : State) (tid : Nat) (ranks : List Nat) (op : FabOp) (h : s.inv = true) :
    (State.tellPeers s tid ranks op).inv = true := by
  unfold State.tellPeers
  grind
grind_pattern State.tellPeers_inv => State.tellPeers s tid ranks op

theorem State.abortConvoy_inv (s : State) (cid : BitVec 24) (ver : Word) (h : s.inv = true) :
    (State.abortConvoy s cid ver).inv = true := by
  unfold State.abortConvoy
  grind
grind_pattern State.abortConvoy_inv => State.abortConvoy s cid ver

theorem State.dropConvoys_inv (s : State) (tid : Nat) (h : s.inv = true) :
    (State.dropConvoys s tid).inv = true := by
  unfold State.dropConvoys
  grind
grind_pattern State.dropConvoys_inv => State.dropConvoys s tid

/-! ## Memory -/

theorem State.addAccess_inv (s : State) (w : Issuer) (a : Access) (h : s.inv = true) :
    (State.addAccess s w a).inv = true := by
  unfold State.addAccess
  grind
grind_pattern State.addAccess_inv => State.addAccess s w a

theorem State.askPeer_inv (s : State) (since tid p : Nat) (a : Access) (x : LaneAcc) (rank addr : Nat)
    (h : s.inv = true) : (State.askPeer s since tid p a x rank addr).inv = true := by
  unfold State.askPeer
  grind [optInv]
grind_pattern State.askPeer_inv => State.askPeer s since tid p a x rank addr

theorem State.readView_inv (s : State) (core view : Nat) (t : Target) (n : Nat) (h : s.inv = true) :
    (State.readView s core view t n).1.inv = true := by
  unfold State.readView
  grind
grind_pattern State.readView_inv => State.readView s core view t n

theorem State.performLane_inv (s : State) (since core tid p : Nat) (a : Access) (x : LaneAcc) (h : s.inv = true) :
    (State.performLane s since core tid p a x).1.inv = true := by
  unfold State.performLane
  grind
grind_pattern State.performLane_inv => State.performLane s since core tid p a x

theorem State.performLanes_inv (s : State) (core tid p : Nat) (a : Access) (done todo : List LaneAcc) (since : Nat)
    (h : s.inv = true) : (State.performLanes s core tid p a done todo since).1.inv = true := by
  fun_induction State.performLanes s core tid p a done todo since <;> grind
grind_pattern State.performLanes_inv => State.performLanes s core tid p a done todo since

theorem State.performAll_inv (s : State) (core tid p : Nat) (a : Access) (h : s.inv = true) :
    (State.performAll s core tid p a).1.inv = true := by
  unfold State.performAll
  grind
grind_pattern State.performAll_inv => State.performAll s core tid p a

theorem State.settleAccess_inv (s : State) (tag : BitVec 16) (tid p : Nat) (a : Access) (h : s.inv = true) :
    (State.settleAccess s tag tid p a).inv = true := by
  unfold State.settleAccess
  grind
grind_pattern State.settleAccess_inv => State.settleAccess s tag tid p a

theorem loadEffect_inv (i : Instr) (k : AccKind) (dest : Nat) (z : Size) (o : Option Sys2Proof.Ord) (pol : Policy)
    (as : Party → List (Nat × DWord)) (w : Issuer) (t : Team) (q : Party) (s : State) (h : s.inv = true) :
    (loadEffect i k dest z o pol as w t q s).inv = true := by
  unfold loadEffect
  grind
grind_pattern loadEffect_inv => loadEffect i k dest z o pol as w t q s

theorem storeEffect_inv (i : Instr) (z : Size) (o : Option Sys2Proof.Ord) (pol : Policy) (as : List (Nat × DWord))
    (data : Nat → DWord) (w : Issuer) (t : Team) (q : Party) (s : State) (h : s.inv = true) :
    (storeEffect i z o pol as data w t q s).inv = true := by
  unfold storeEffect
  grind
grind_pattern storeEffect_inv => storeEffect i z o pol as data w t q s

theorem State.startWalks_inv (s : State) (core : Nat) (tag : BitVec 16) (needed : Bool) (ls : List LaneAcc)
    (h : s.inv = true) : (State.startWalks s core tag needed ls).inv = true := by
  unfold State.startWalks
  grind
grind_pattern State.startWalks_inv => State.startWalks s core tag needed ls

theorem State.cleanUnits_inv (s : State) (core : Nat) (tag : BitVec 16) (priv : Bool) (va len units : Nat)
    (h : s.inv = true) : (State.cleanUnits s core tag priv va len units).1.inv = true := by
  fun_induction State.cleanUnits s core tag priv va len units <;> grind
grind_pattern State.cleanUnits_inv => State.cleanUnits s core tag priv va len units

theorem cleanEffect_inv (a : SReg) (b : SOp) (w : Issuer) (t : Team) (q : Party) (s : State) (h : s.inv = true) :
    (cleanEffect a b w t q s).inv = true := by
  unfold cleanEffect
  grind
grind_pattern cleanEffect_inv => cleanEffect a b w t q s

/-! ## Atomics -/

theorem State.hostAtomicFails_inv (s : State) (pa : Nat) (h : s.inv = true) :
    (State.hostAtomicFails s pa).1.inv = true := by
  unfold State.hostAtomicFails
  grind
grind_pattern State.hostAtomicFails_inv => State.hostAtomicFails s pa

theorem State.atomHere_inv (s : State) (core pa : Nat) (op : AOp) (ty : ATy) (k : AtomLane) (h : s.inv = true) :
    (State.atomHere s core pa op ty k).1.inv = true := by
  unfold State.atomHere
  grind
grind_pattern State.atomHere_inv => State.atomHere s core pa op ty k

theorem State.atomLanes_inv (s : State) (core tid p : Nat) (a : Access) (op : AOp) (ty : ATy) (done : List LaneAcc)
    (todo : List (LaneAcc × AtomLane)) (h : s.inv = true) :
    (State.atomLanes s core tid p a op ty done todo).1.inv = true := by
  fun_induction State.atomLanes s core tid p a op ty done todo <;> grind
grind_pattern State.atomLanes_inv => State.atomLanes s core tid p a op ty done todo

theorem atomEffect_inv (i : Instr) (kind : AccKind) (op : AOp) (ty : ATy) (o : Sys2Proof.Ord) (dest : Nat)
    (as : List (Nat × DWord)) (data : Nat → AtomLane) (w : Issuer) (t : Team) (q : Party) (s : State)
    (h : s.inv = true) : (atomEffect i kind op ty o dest as data w t q s).inv = true := by
  unfold atomEffect
  dsimp only
  (repeat' split) <;> grind
grind_pattern atomEffect_inv => atomEffect i kind op ty o dest as data w t q s

theorem State.makeRoom_inv (s : State) (pa : Nat) (h : s.inv = true) : (State.makeRoom s pa).inv = true := by
  unfold State.makeRoom
  grind
grind_pattern State.makeRoom_inv => State.makeRoom s pa

theorem State.enqueueRed_inv (s : State) (owner : Option (Nat × Nat)) (op : AOp) (ty : ATy) (pa : Nat)
    (add : RedEntry → RedEntry) (h : s.inv = true) : (State.enqueueRed s owner op ty pa add).inv = true := by
  unfold State.enqueueRed
  grind
grind_pattern State.enqueueRed_inv => State.enqueueRed s owner op ty pa add

theorem State.redLane_inv (s : State) (core tid p : Nat) (o : Origin) (acq : Bool) (op : AOp) (ty : ATy)
    (t : Target) (va : Nat) (k : AtomLane) (h : s.inv = true) :
    (State.redLane s core tid p o acq op ty t va k).inv = true := by
  unfold State.redLane
  grind
grind_pattern State.redLane_inv => State.redLane s core tid p o acq op ty t va k

theorem State.redCombined_inv (s : State) (core tid p : Nat) (o : Origin) (acq : Bool) (op : AOp) (ty : ATy)
    (x : Target × Nat × ℤ × Nat) (h : s.inv = true) :
    (State.redCombined s core tid p o acq op ty x).inv = true := by
  unfold State.redCombined
  grind
grind_pattern State.redCombined_inv => State.redCombined s core tid p o acq op ty x

theorem State.redLanes_inv (s : State) (core tid p : Nat) (o : Origin) (acq : Bool) (op : AOp) (ty : ATy)
    (ls : List (Target × Nat × AtomLane)) (h : s.inv = true) :
    (State.redLanes s core tid p o acq op ty ls).inv = true := by
  unfold State.redLanes
  grind
grind_pattern State.redLanes_inv => State.redLanes s core tid p o acq op ty ls

theorem State.hostLanes_inv (s : State) (ls : List LaneAcc) (h : s.inv = true) :
    (State.hostLanes s ls).1.inv = true := by
  fun_induction State.hostLanes s ls <;> grind
grind_pattern State.hostLanes_inv => State.hostLanes s ls

theorem State.reachLanes_inv (s : State) (ls : List LaneAcc) (n : Nat) (h : s.inv = true) :
    (State.reachLanes s ls n).inv = true := by
  unfold State.reachLanes
  exact foldl_inv _ _ _ (fun s x h => by grind) h
grind_pattern State.reachLanes_inv => State.reachLanes s ls n

/-! ## Joins -/

theorem State.modRun_inv (s : State) (run : Nat) (f : Run → Run) (h : s.inv = true) :
    (State.modRun s run f).inv = true := by
  unfold State.modRun
  grind
grind_pattern State.modRun_inv => State.modRun s run f

theorem State.acceptRecs_inv (s : State) (run die node : Nat) (origin : Option Nat) (recs : List Rec) (fault : Bool)
    (h : s.inv = true) : (State.acceptRecs s run die node origin recs fault).inv = true := by
  unfold State.acceptRecs
  grind
grind_pattern State.acceptRecs_inv => State.acceptRecs s run die node origin recs fault

theorem State.emitConts_inv (s : State) (run die : Nat) (conts : List (Rec × Option Nat)) (h : s.inv = true) :
    (State.emitConts s run die conts).inv = true := by
  unfold State.emitConts
  grind
grind_pattern State.emitConts_inv => State.emitConts s run die conts

theorem State.resolveHere_inv (s : State) (key n : Nat) (h : s.inv = true) :
    (State.resolveHere s key n).1.inv = true := by
  unfold State.resolveHere
  grind
grind_pattern State.resolveHere_inv => State.resolveHere s key n

theorem State.resolve_inv (s : State) (tid : Nat) (o : Origin) (hd0 : Word) (n : Nat) (deferred : Bool)
    (lane : Option Nat) (late : Option Team) (h : s.inv = true) :
    (State.resolve s tid o hd0 n deferred lane late).1.inv = true := by
  unfold State.resolve
  grind
grind_pattern State.resolve_inv => State.resolve s tid o hd0 n deferred lane late

theorem State.failHere_inv (s : State) (key : Nat) (h : s.inv = true) : (State.failHere s key).inv = true := by
  unfold State.failHere
  grind
grind_pattern State.failHere_inv => State.failHere s key

theorem State.failJoin_inv (s : State) (tid : Nat) (hd0 : Word) (h : s.inv = true) :
    (State.failJoin s tid hd0).inv = true := by
  unfold State.failJoin
  grind
grind_pattern State.failJoin_inv => State.failJoin s tid hd0

theorem State.register_inv (s : State) (hd0 : Word) (rec : Rec) (cluster : Option Nat) (h : s.inv = true) :
    (State.register s hd0 rec cluster).inv = true := by
  unfold State.register
  grind [Registered.inv]
grind_pattern State.register_inv => State.register s hd0 rec cluster

theorem State.countRetired_inv (s : State) (t : Team) (d : Delivered) (h : s.inv = true) :
    (State.countRetired s t d).inv = true := by
  unfold State.countRetired
  grind
grind_pattern State.countRetired_inv => State.countRetired s t d

theorem State.retireRec_inv (s : State) (tid : Nat) (o : Origin) (t : Team) (d : Delivered) (late : Option Team)
    (h : s.inv = true) : (State.retireRec s tid o t d late).1.inv = true := by
  unfold State.retireRec
  grind
grind_pattern State.retireRec_inv => State.retireRec s tid o t d late

theorem State.retireAll_inv (s : State) (tid : Nat) (o : Origin) (x : Wait) (t : Team) (rs : List Delivered)
    (h : s.inv = true) : (State.retireAll s tid o x t rs).inv = true := by
  unfold State.retireAll
  grind
grind_pattern State.retireAll_inv => State.retireAll s tid o x t rs

theorem State.retireParty_inv (s : State) (tid p : Nat) (o : Origin) (x : Wait) (sel : Delivered → Bool)
    (h : s.inv = true) : (State.retireParty s tid p o x sel).1.inv = true := by
  unfold State.retireParty
  grind
grind_pattern State.retireParty_inv => State.retireParty s tid p o x sel

theorem State.retireRelease_inv (s : State) (core tid p : Nat) (q : Party) (rs : List Delivered) (h : s.inv = true) :
    (State.retireRelease s core tid p q rs).1.inv = true := by
  unfold State.retireRelease
  grind
grind_pattern State.retireRelease_inv => State.retireRelease s core tid p q rs

/-! ## Control -/

theorem State.retireFinished_inv (s : State) (tid p : Nat) (o : Origin) (x : Wait) (h : s.inv = true) :
    (State.retireFinished s tid p o x).inv = true := by
  unfold State.retireFinished
  grind
grind_pattern State.retireFinished_inv => State.retireFinished s tid p o x

/-! ## Graph -/

theorem State.flagReport_inv (s : State) (t : Team) (node : Nat) (bit : BitVec 8) (h : s.inv = true) :
    (State.flagReport s t node bit).inv = true := by
  unfold State.flagReport
  grind
grind_pattern State.flagReport_inv => State.flagReport s t node bit

theorem State.offer_inv (s : State) (w : Issuer) (o : Origin) (t : Team) (node : Nat) (ns : Bool) (accepted : Nat)
    (stalled : Bool) (groups : List (Nat × List Rec)) (h : s.inv = true) :
    (State.offer s w o t node ns accepted stalled groups).inv = true := by
  fun_induction State.offer s w o t node ns accepted stalled groups <;> grind [Offered.inv]
grind_pattern State.offer_inv => State.offer s w o t node ns accepted stalled groups

theorem State.sendRecs_inv (s : State) (w : Issuer) (o : Origin) (ident : Nat) (ns : Bool)
    (groups : List ((Nat × Nat) × List Rec)) (h : s.inv = true) :
    (State.sendRecs s w o ident ns groups).inv = true := by
  unfold State.sendRecs
  grind
grind_pattern State.sendRecs_inv => State.sendRecs s w o ident ns groups

theorem emitRecs_inv (i : Instr) (node : Nat) (ns : Bool) (recs : List ((Nat × Nat) × Rec)) (w : Issuer) (t : Team)
    (q : Party) (s : State) (h : s.inv = true) : (emitRecs i node ns recs w t q s).inv = true := by
  unfold emitRecs
  grind [Offered.inv]
grind_pattern emitRecs_inv => emitRecs i node ns recs w t q s

theorem State.resolveFor_inv (s : State) (tid : Nat) (o : Origin) (hd0 : Word) (n : Nat) (deferred : Bool)
    (h : s.inv = true) : (State.resolveFor s tid o hd0 n deferred).inv = true := by
  unfold State.resolveFor
  grind
grind_pattern State.resolveFor_inv => State.resolveFor s tid o hd0 n deferred

theorem State.completeOp_inv (s : State) (id : Nat) (h : s.inv = true) : (State.completeOp s id).inv = true := by
  unfold State.completeOp
  grind
grind_pattern State.completeOp_inv => State.completeOp s id

/-! ## Barrier -/

theorem State.setBarrier_inv (s : State) (r : BarRef) (x : Barrier) (h : s.inv = true) :
    (State.setBarrier s r x).inv = true := by
  unfold State.setBarrier
  grind
grind_pattern State.setBarrier_inv => State.setBarrier s r x

theorem State.arrive_inv (s : State) (r : BarRef) (a : Arrival) (h : s.inv = true) :
    (State.arrive s r a).inv = true := by
  unfold State.arrive
  grind
grind_pattern State.arrive_inv => State.arrive s r a

theorem arriveEffect_inv (c : BarScope) (b : Nat) (w : Issuer) (t : Team) (q : Party) (s : State)
    (next : State → Nat → Effect) (h : s.inv = true) (hn : ∀ s n, s.inv = true → (next s n).inv = true) :
    (arriveEffect c b w t q s next).inv = true := by
  unfold arriveEffect
  grind

theorem waitEffect_inv (c : BarScope) (b : Nat) (w : Issuer) (t : Team) (q : Party) (s : State) (h : s.inv = true) :
    (waitEffect c b w t q s).inv = true := by
  unfold waitEffect
  grind
grind_pattern waitEffect_inv => waitEffect c b w t q s

theorem State.openPhase_inv (s : State) (r : BarRef) (h : s.inv = true) : (State.openPhase s r).inv = true := by
  unfold State.openPhase
  grind
grind_pattern State.openPhase_inv => State.openPhase s r

theorem State.runPhase_inv (s : State) (n b : Nat) (x : Run) (h : s.inv = true) :
    (State.runPhase s n b x).inv = true := by
  unfold State.runPhase
  grind
grind_pattern State.runPhase_inv => State.runPhase s n b x

/-! ## Convoy -/

theorem State.allocConvoy_inv (s s' : State) (d : Nat) (x : BitVec 24 × Word) (h : s.inv = true)
    (e : s.allocConvoy d = some (s', x)) : s'.inv = true := by
  unfold State.allocConvoy at e
  obtain ⟨n, -, e⟩ := Option.map_eq_some_iff.1 e
  cases e
  exact h

theorem State.openedAway_inv (s : State) (tid p : Nat) (sl : Bool) (home x : Nat) (h : s.inv = true) :
    (State.openedAway s tid p sl home x).inv = true := by
  unfold State.openedAway
  grind
grind_pattern State.openedAway_inv => State.openedAway s tid p sl home x

theorem State.committed_inv (s : State) (key : Nat) (c : CvSlot) (stamp : Nat) (h : s.inv = true) :
    (State.committed s key c stamp).inv = true := by
  unfold State.committed
  grind
grind_pattern State.committed_inv => State.committed s key c stamp

theorem State.committedAway_inv (s : State) (cid : BitVec 24) (ver : Word) (stamp : Nat) (h : s.inv = true) :
    (State.committedAway s cid ver stamp).inv = true := by
  unfold State.committedAway
  grind
grind_pattern State.committedAway_inv => State.committedAway s cid ver stamp

theorem State.convoyLanes_inv (s : State) (core tid p key : Nat) (o : Origin) (n : Nat)
    (ls : List (Target × Nat × Nat)) (since : Nat) (h : s.inv = true) :
    (State.convoyLanes s core tid p key o n ls since).1.inv = true := by
  induction ls generalizing s with
  | nil => exact h
  | cons x rest ih =>
    obtain ⟨t, x⟩ := x
    unfold State.convoyLanes
    dsimp only
    (repeat' split) <;> first
      | exact h
      | grind
      | grind [excInv]
grind_pattern State.convoyLanes_inv => State.convoyLanes s core tid p key o n ls since

/-! ## Copy -/

theorem State.copyHandle_inv (s : State) (tid n : Nat) (h : s.inv = true) :
    (State.copyHandle s tid n).1.inv = true := by
  unfold State.copyHandle
  grind
grind_pattern State.copyHandle_inv => State.copyHandle s tid n

theorem State.modChan_inv (s : State) (tid ch : Nat) (f : Channel → Channel) (h : s.inv = true) :
    (State.modChan s tid ch f).inv = true := by
  unfold State.modChan
  grind
grind_pattern State.modChan_inv => State.modChan s tid ch f

theorem State.queueCopy_inv (s : State) (w : Issuer) (ch : Nat) (c : CopyCmd) (h : s.inv = true) :
    (State.queueCopy s w ch c).inv = true := by
  unfold State.queueCopy
  grind
grind_pattern State.queueCopy_inv => State.queueCopy s w ch c

theorem startCopy_inv (w : Issuer) (t : Team) (q : Party) (s : State) (ch : Nat) (scope : Scope) (c : CopyCmd)
    (h : s.inv = true) : (startCopy w t q s ch scope c).inv = true := by
  unfold startCopy
  grind
grind_pattern startCopy_inv => startCopy w t q s ch scope c

theorem rowCopy_inv (i : Instr) (gather : Bool) (d : SReg) (ch : BitVec 3) (hd hs : BitVec 4) (scope : Scope)
    (v : VReg) (w : Issuer) (t : Team) (q : Party) (s : State) (h : s.inv = true) :
    (rowCopy i gather d ch hd hs scope v w t q s).inv = true := by
  unfold rowCopy
  grind
grind_pattern rowCopy_inv => rowCopy i gather d ch hd hs scope v w t q s

theorem State.convertCols_inv (s : State) (tid : Nat) (c : CopyCmd) (srcRow : Nat) (cols : List Nat)
    (h : s.inv = true) : (State.convertCols s tid c srcRow cols).1.inv = true := by
  fun_induction State.convertCols s tid c srcRow cols <;> grind
grind_pattern State.convertCols_inv => State.convertCols s tid c srcRow cols

theorem State.packedBytes_inv (s : State) (tid : Nat) (c : CopyCmd) (srcRow dstRow : Nat) (offs : List Nat)
    (h : s.inv = true) : (State.packedBytes s tid c srcRow dstRow offs).1.inv = true := by
  fun_induction State.packedBytes s tid c srcRow dstRow offs <;> grind
grind_pattern State.packedBytes_inv => State.packedBytes s tid c srcRow dstRow offs

theorem State.plainBytes_inv (s : State) (tid loc a n : Nat) (h : s.inv = true) :
    (State.plainBytes s tid loc a n).1.inv = true := by
  fun_induction State.plainBytes s tid loc a n <;> grind
grind_pattern State.plainBytes_inv => State.plainBytes s tid loc a n

theorem State.rowBytes_inv (s : State) (tid : Nat) (c : CopyCmd) (srcRow dstRow off0 off1 : Nat) (h : s.inv = true) :
    (State.rowBytes s tid c srcRow dstRow off0 off1).1.inv = true := by
  unfold State.rowBytes
  grind
grind_pattern State.rowBytes_inv => State.rowBytes s tid c srcRow dstRow off0 off1

theorem State.setUnit_inv (s : State) (tid : Nat) (t : Team) (loc a : Nat) (bad : Bool) (h : s.inv = true) :
    (State.setUnit s tid t loc a bad).inv = true := by
  unfold State.setUnit
  grind
grind_pattern State.setUnit_inv => State.setUnit s tid t loc a bad

theorem State.carryPoison_inv (s : State) (tid : Nat) (t : Team) (c : CopyCmd) (d owner loc a : Nat)
    (bad : List Bool) (h : s.inv = true) : (State.carryPoison s tid t c d owner loc a bad).1.inv = true := by
  unfold State.carryPoison
  grind
grind_pattern State.carryPoison_inv => State.carryPoison s tid t c d owner loc a bad

theorem State.deliverRow_inv (s : State) (tid : Nat) (t : Team) (c : CopyCmd) (d : Nat)
    (r : Option Nat × Option Nat) (off0 off1 : Nat) (h : s.inv = true) :
    (State.deliverRow s tid t c d r off0 off1).1.inv = true := by
  unfold State.deliverRow
  dsimp only
  (repeat' split) <;> grind
grind_pattern State.deliverRow_inv => State.deliverRow s tid t c d r off0 off1

theorem State.deliverAll_inv (s : State) (tid : Nat) (t : Team) (c : CopyCmd) (d : Nat)
    (ss : List (Nat × Nat × Nat)) (h : s.inv = true) : (State.deliverAll s tid t c d ss).1.inv = true := by
  fun_induction State.deliverAll s tid t c d ss <;> grind
grind_pattern State.deliverAll_inv => State.deliverAll s tid t c d ss

theorem State.setCmd_inv (s : State) (tid ch : Nat) (c : CopyCmd) (h : s.inv = true) :
    (State.setCmd s tid ch c).inv = true := by
  unfold State.setCmd
  grind
grind_pattern State.setCmd_inv => State.setCmd s tid ch c

theorem State.multicastIn_inv (s : State) (t : Team) (c : CopyCmd) (h : s.inv = true) :
    (State.multicastIn s t c).inv = true := by
  unfold State.multicastIn
  grind
grind_pattern State.multicastIn_inv => State.multicastIn s t c

theorem State.landed_inv (s : State) (tid ch : Nat) (h : s.inv = true) : (State.landed s tid ch).inv = true := by
  unfold State.landed
  grind
grind_pattern State.landed_inv => State.landed s tid ch

/-! ## System -/

theorem State.freeEntry_inv (s : State) (k : Nat) (h : s.inv = true) : (State.freeEntry s k).inv = true := by
  unfold State.freeEntry
  grind
grind_pattern State.freeEntry_inv => State.freeEntry s k

theorem State.deliverReply_inv (s : State) (k : Nat) (v : Word) (h : s.inv = true) :
    (State.deliverReply s k v).inv = true := by
  unfold State.deliverReply
  grind
grind_pattern State.deliverReply_inv => State.deliverReply s k v

theorem State.restartWalks_inv (s : State) (tag : BitVec 16) (lo hi : Nat) (h : s.inv = true) :
    (State.restartWalks s tag lo hi).inv = true := by
  unfold State.restartWalks
  grind
grind_pattern State.restartWalks_inv => State.restartWalks s tag lo hi

theorem State.dropTlb_inv (s : State) (tag : BitVec 16) (lo hi : Nat) (h : s.inv = true) :
    (State.dropTlb s tag lo hi).1.inv = true := by
  unfold State.dropTlb
  grind
grind_pattern State.dropTlb_inv => State.dropTlb s tag lo hi

theorem State.invalidate_inv (s : State) (tag : BitVec 16) (lo hi : Nat) (dest : Option (Nat × Nat × Nat))
    (queue : Nat) (h : s.inv = true) : (State.invalidate s tag lo hi dest queue).1.inv = true := by
  unfold State.invalidate
  grind
grind_pattern State.invalidate_inv => State.invalidate s tag lo hi dest queue

theorem State.pendScalar_inv (s : State) (tid p sd op : Nat) (h : s.inv = true) :
    (State.pendScalar s tid p sd op).inv = true := by
  unfold State.pendScalar
  grind
grind_pattern State.pendScalar_inv => State.pendScalar s tid p sd op

theorem State.writeStatus_inv (s : State) (dest : Nat × Nat × Nat) (op : Nat) (v : Word) (h : s.inv = true) :
    (State.writeStatus s dest op v).inv = true := by
  unfold State.writeStatus
  grind
grind_pattern State.writeStatus_inv => State.writeStatus s dest op v

theorem State.putSector_inv (s : State) (pa : Nat) (bs : List Byte) (bad : Bool) (h : s.inv = true) :
    (State.putSector s pa bs bad).inv = true := by
  unfold State.putSector
  grind
grind_pattern State.putSector_inv => State.putSector s pa bs bad

theorem State.copySectors_inv (s : State) (core : Option Nat) (tag : BitVec 16) (priv : Bool) (va pa n : Nat)
    (h : s.inv = true) : (State.copySectors s core tag priv va pa n).1.inv = true := by
  fun_induction State.copySectors s core tag priv va pa n <;> grind
grind_pattern State.copySectors_inv => State.copySectors s core tag priv va pa n

/-! ## Passes -/

theorem State.operand_inv (s : State) (tid : Nat) (hd0 : Handle) (r c : Nat) (h : s.inv = true) :
    (State.operand s tid hd0 r c).1.inv = true := by
  unfold State.operand
  grind
grind_pattern State.operand_inv => State.operand s tid hd0 r c

theorem State.elems_inv (s : State) (tid : Nat) (hd0 : Handle) (m : Map DWord) (ps : List (Nat × Nat × Nat))
    (h : s.inv = true) : (State.elems s tid hd0 m ps).1.inv = true := by
  fun_induction State.elems s tid hd0 m ps <;> grind
grind_pattern State.elems_inv => State.elems s tid hd0 m ps

theorem State.scales_inv (s : State) (tid : Nat) (hd0 : Handle) (m : Store 32) (ps : List (Nat × Nat))
    (h : s.inv = true) : (State.scales s tid hd0 m ps).1.inv = true := by
  fun_induction State.scales s tid hd0 m ps <;> grind
grind_pattern State.scales_inv => State.scales s tid hd0 m ps

theorem State.block_inv (s : State) (tid : Nat) (hd0 : Handle) (alongRows : Bool) (line chunk ke : Nat)
    (want : Nat → Bool) (scl : Bool) (h : s.inv = true) :
    (State.block s tid hd0 alongRows line chunk ke want scl).1.inv = true := by
  unfold State.block
  grind
grind_pattern State.block_inv => State.block s tid hd0 alongRows line chunk ke want scl

/-! ## Matrix -/

theorem State.modSeq_inv (s : State) (tid : Nat) (f : Sequencer → Sequencer) (h : s.inv = true) :
    (State.modSeq s tid f).inv = true := by
  unfold State.modSeq
  grind
grind_pattern State.modSeq_inv => State.modSeq s tid f

theorem finishSeq_inv (i : Instr) (s : State) (tid : Nat) (q : Sequencer) (e : Effect) (h : s.inv = true)
    (he : e.inv = true) : (finishSeq i s tid q e).inv = true := by
  cases e <;> simp only [finishSeq, Effect.inv] at he ⊢ <;> grind

theorem runSeq_inv (i : Instr) (s : State) (f : Nat → Team → Sequencer → State → Effect) (h : s.inv = true)
    (hf : ∀ tid t q s, s.inv = true → (f tid t q s).inv = true) : outInv (runSeq i s f) = true := by
  unfold runSeq
  split
  · rfl
  · split
    · exact h
    · split
      · exact finishSeq_inv _ _ _ _ _ h rfl
      · exact finishSeq_inv _ _ _ _ _ h (Effect.unstuck_inv _ _ _ _ h (hf _ _ _ _ h))

theorem setK_inv (i : Instr) (s : State) (k : BitVec 4) (f : Sequencer → Word) (h : s.inv = true) : outInv (setK i s k f) = true := by
  unfold setK
  exact runSeq_inv _ _ _ h fun _ _ _ _ h => State.modSeq_inv _ _ _ h
grind_pattern setK_inv => setK i s k f

theorem State.withdrawPasses_inv (s : State) (tid : Nat) (h : s.inv = true) :
    (State.withdrawPasses s tid).inv = true := by
  unfold State.withdrawPasses
  grind
grind_pattern State.withdrawPasses_inv => State.withdrawPasses s tid

theorem State.post_inv (s : State) (tid : Nat) (i : Instr) (kind : MatKind) (passes : Nat) (owned : List Nat)
    (h : s.inv = true) : (State.post s tid i kind passes owned).inv = true := by
  unfold State.post
  grind
grind_pattern State.post_inv => State.post s tid i kind passes owned

theorem State.afterOps_inv (s : State) (tid : Nat) (t : Team) (q : Sequencer) (a n : Nat) (h : s.inv = true) :
    (State.afterOps s tid t q a n).inv = true := by
  unfold State.afterOps
  grind
grind_pattern State.afterOps_inv => State.afterOps s tid t q a n

theorem State.matHandle_inv (s : State) (tid : Nat) (t : Team) (q : Sequencer) (n : Nat) (h : s.inv = true) :
    (State.matHandle s tid t q n).1.inv = true := by
  unfold State.matHandle
  grind
grind_pattern State.matHandle_inv => State.matHandle s tid t q n

theorem passEffect_inv (i : Instr) (transposed : Bool) (c : BitVec 4) (m : BitVec 2) (hd0 : BitVec 4) (ru : Bool)
    (k : BitVec 4) (ko : Bool) (tid : Nat) (t : Team) (q : Sequencer) (s : State) (h : s.inv = true) :
    (passEffect i transposed c m hd0 ru k ko tid t q s).inv = true := by
  unfold passEffect
  grind
grind_pattern passEffect_inv => passEffect i transposed c m hd0 ru k ko tid t q s

/-! ## Placement -/

theorem State.occupied_inv (s : State) (core : Nat) (h : s.inv = true) : (State.occupied s core).inv = true := by
  unfold State.occupied
  grind
grind_pattern State.occupied_inv => State.occupied s core

theorem State.place_inv (s : State) (run : Nat) (r : Run) (n : Node) (k : Nat) (g : Gathered)
    (at_ : List (Nat × Word)) (h : s.inv = true) : (State.place s run r n k g at_).inv = true := by
  unfold State.place
  grind
grind_pattern State.place_inv => State.place s run r n k g at_

theorem State.moveTeam_inv (s : State) (tid : Nat) (t : Team) (core : Nat) (h : s.inv = true) :
    (State.moveTeam s tid t core).inv = true := by
  unfold State.moveTeam
  grind
grind_pattern State.moveTeam_inv => State.moveTeam s tid t core

theorem State.moveCommands_inv (s : State) (tid core : Nat) (h : s.inv = true) :
    (State.moveCommands s tid core).inv = true := by
  unfold State.moveCommands
  grind
grind_pattern State.moveCommands_inv => State.moveCommands s tid core

theorem State.offerAgain_inv (s : State) (tid : Nat) (h : s.inv = true) : (State.offerAgain s tid).inv = true := by
  unfold State.offerAgain
  grind
grind_pattern State.offerAgain_inv => State.offerAgain s tid

theorem State.newAges_inv (s : State) (tid age : Nat) (h : s.inv = true) :
    (State.newAges s tid age).inv = true := by
  unfold State.newAges
  grind
grind_pattern State.newAges_inv => State.newAges s tid age

theorem State.resumeOn_inv (s : State) (tid : Nat) (n : Node) (core : Nat) (h : s.inv = true) :
    (State.resumeOn s tid n core).inv = true := by
  unfold State.resumeOn
  grind
grind_pattern State.resumeOn_inv => State.resumeOn s tid n core

/-! ## HostBase -/

theorem State.setQueue_inv (s : State) (key : Nat) (q : Queue) (h : s.inv = true) :
    (State.setQueue s key q).inv = true := by
  unfold State.setQueue
  grind
grind_pattern State.setQueue_inv => State.setQueue s key q

theorem State.modQueue_inv (s : State) (key : Nat) (f : Queue → Queue) (h : s.inv = true) :
    (State.modQueue s key f).inv = true := by
  unfold State.modQueue
  grind
grind_pattern State.modQueue_inv => State.modQueue s key f

theorem State.modFn_inv (s : State) (f : Nat) (g : FnPage → FnPage) (h : s.inv = true) :
    (State.modFn s f g).inv = true := by
  unfold State.modFn
  grind
grind_pattern State.modFn_inv => State.modFn s f g

theorem State.failQueue_inv (s : State) (key err : Nat) (h : s.inv = true) :
    (State.failQueue s key err).inv = true := by
  unfold State.failQueue
  grind
grind_pattern State.failQueue_inv => State.failQueue s key err

theorem State.queueTarget_inv (s : State) (key : Nat) (u : Use) (va : Nat) (h : s.inv = true) :
    (State.queueTarget s key u va).1.inv = true := by
  unfold State.queueTarget
  grind
grind_pattern State.queueTarget_inv => State.queueTarget s key u va

theorem State.queueBytes_inv (s : State) (key va n : Nat) (h : s.inv = true) :
    (State.queueBytes s key va n).1.inv = true := by
  fun_induction State.queueBytes s key va n <;> grind
grind_pattern State.queueBytes_inv => State.queueBytes s key va n

theorem State.queueRead_inv (s : State) (key va n : Nat) (h : s.inv = true) :
    (State.queueRead s key va n).1.inv = true := by
  unfold State.queueRead
  have h1 := State.readAs_inv s { id := queueReader key, tid := 0, origin := noOrigin, serial := true } (fun s => s.queueBytes key va n) h
    (fun s h => State.queueBytes_inv s key va n h)
  dsimp only
  split
  · exact h1
  · exact State.usedBytes_inv _ _ h1
grind_pattern State.queueRead_inv => State.queueRead s key va n

theorem State.queueWrite_inv (s : State) (key va : Nat) (bs : List Byte) (h : s.inv = true) :
    optInv (State.queueWrite s key va bs) = true := by
  unfold State.queueWrite
  grind [optInv]
grind_pattern State.queueWrite_inv => State.queueWrite s key va bs

theorem State.evalWait_inv (s : State) (key : Nat) (w : Rec) (h : s.inv = true) :
    (State.evalWait s key w).1.inv = true := by
  unfold State.evalWait
  grind
grind_pattern State.evalWait_inv => State.evalWait s key w

theorem State.putSignal_inv (s : State) (key : Nat) (va : DWord) (op : SigOp) (v : DWord) (h : s.inv = true) :
    (State.putSignal s key va op v).inv = true := by
  unfold State.putSignal
  grind
grind_pattern State.putSignal_inv => State.putSignal s key va op v

theorem State.modPacket_inv (s : State) (key idx : Nat) (f : Packet → Packet) (h : s.inv = true) :
    (State.modPacket s key idx f).inv = true := by
  unfold State.modPacket
  grind
grind_pattern State.modPacket_inv => State.modPacket s key idx f

theorem State.marked_inv (s : State) (key idx : Nat) (h : s.inv = true) : (State.marked s key idx).inv = true := by
  unfold State.marked
  grind
grind_pattern State.marked_inv => State.marked s key idx

theorem State.takeOut_inv (s : State) (key idx : Nat) (h : s.inv = true) :
    (State.takeOut s key idx).1.inv = true := by
  unfold State.takeOut
  grind
grind_pattern State.takeOut_inv => State.takeOut s key idx

theorem State.testWaits_inv (s : State) (keys : List Nat) (h : s.inv = true) :
    (State.testWaits s keys).1.inv = true := by
  unfold State.testWaits
  grind
grind_pattern State.testWaits_inv => State.testWaits s keys

theorem State.signalled_inv (s : State) (w : SigWrite) (id : Nat) (h : s.inv = true) :
    (State.signalled s w id).1.inv = true := by
  unfold State.signalled
  grind
grind_pattern State.signalled_inv => State.signalled s w id

theorem State.writeSignals_inv (s : State) (todo : List SigWrite) (fuel : Nat) (h : s.inv = true) :
    (State.writeSignals s todo fuel).inv = true := by
  fun_induction State.writeSignals s todo fuel <;> grind
grind_pattern State.writeSignals_inv => State.writeSignals s todo fuel

theorem State.completePacket_inv (s : State) (key idx : Nat) (h : s.inv = true) :
    (State.completePacket s key idx).inv = true := by
  unfold State.completePacket
  grind
grind_pattern State.completePacket_inv => State.completePacket s key idx

theorem State.pollWaits_inv (s : State) (keys : List Nat) (h : s.inv = true) :
    (State.pollWaits s keys).inv = true := by
  unfold State.pollWaits
  grind
grind_pattern State.pollWaits_inv => State.pollWaits s keys

theorem State.signal_inv (s : State) (key : Nat) (va : DWord) (op : SigOp) (v : DWord) (pkt : Option Nat)
    (h : s.inv = true) : (State.signal s key va op v pkt).inv = true := by
  unfold State.signal
  grind
grind_pattern State.signal_inv => State.signal s key va op v pkt

theorem State.signalLanded_inv (s : State) (id : Nat) (h : s.inv = true) :
    (State.signalLanded s id).inv = true := by
  unfold State.signalLanded
  grind
grind_pattern State.signalLanded_inv => State.signalLanded s id

theorem State.postStatus_inv (s : State) (key : Nat) (w : Word) (h : s.inv = true) :
    (State.postStatus s key w).inv = true := by
  unfold State.postStatus
  grind [optInv]
grind_pattern State.postStatus_inv => State.postStatus s key w

theorem State.finishPreempts_inv (s : State) (target : Nat) (reset : Bool) (h : s.inv = true) :
    (State.finishPreempts s target reset).inv = true := by
  unfold State.finishPreempts
  grind
grind_pattern State.finishPreempts_inv => State.finishPreempts s target reset

theorem State.writeReports_inv (s : State) (r : Run) (flag : BitVec 8) (h : s.inv = true) :
    (State.writeReports s r flag).1.inv = true := by
  unfold State.writeReports
  grind [optInv]
grind_pattern State.writeReports_inv => State.writeReports s r flag

theorem State.writeResult_inv (s : State) (key result code detail : Nat) (h : s.inv = true) :
    (State.writeResult s key result code detail).1.inv = true := by
  unfold State.writeResult
  grind [optInv]
grind_pattern State.writeResult_inv => State.writeResult s key result code detail

theorem State.endLaunch_inv (s : State) (key idx result doneSig : Nat) (doneVal : DWord) (code detail : Nat)
    (signal bad : Bool) (h : s.inv = true) :
    (State.endLaunch s key idx result doneSig doneVal code detail signal bad).inv = true := by
  unfold State.endLaunch
  grind
grind_pattern State.endLaunch_inv => State.endLaunch s key idx result doneSig doneVal code detail signal bad

theorem State.clearJoins_inv (s : State) (run : Nat) (completes : Bool) (h : s.inv = true) :
    (State.clearJoins s run completes).inv = true := by
  unfold State.clearJoins
  grind
grind_pattern State.clearJoins_inv => State.clearJoins s run completes

theorem State.freeReserves_inv (s : State) (r : Run) (h : s.inv = true) : (State.freeReserves s r).inv = true := by
  unfold State.freeReserves
  grind
grind_pattern State.freeReserves_inv => State.freeReserves s r

theorem State.endRun_inv (s : State) (run code : Nat) (flag : BitVec 8) (signal : Bool) (h : s.inv = true) :
    (State.endRun s run code flag signal).inv = true := by
  unfold State.endRun
  grind
grind_pattern State.endRun_inv => State.endRun s run code flag signal

theorem State.logFault_inv (s : State) (r : Run) (rec : Rec) (h : s.inv = true) :
    (State.logFault s r rec).inv = true := by
  unfold State.logFault
  grind [optInv]
grind_pattern State.logFault_inv => State.logFault s r rec

/-! ## Runs -/

theorem State.note_inv (s : State) (src agent : Nat) (seqno : BitVec 16) (v : DWord) (h : s.inv = true) :
    (State.note s src agent seqno v).inv = true := by
  unfold State.note
  grind
grind_pattern State.note_inv => State.note s src agent seqno v

theorem State.releaseJoins_inv (s : State) (tid : Nat) (h : s.inv = true) :
    (State.releaseJoins s tid).inv = true := by
  unfold State.releaseJoins
  grind
grind_pattern State.releaseJoins_inv => State.releaseJoins s tid

theorem State.drainCheck_inv (s : State) (key : Nat) (h : s.inv = true) : (State.drainCheck s key).inv = true := by
  unfold State.drainCheck
  grind
grind_pattern State.drainCheck_inv => State.drainCheck s key

theorem State.saveCheck_inv (s : State) (key : Nat) (h : s.inv = true) : (State.saveCheck s key).inv = true := by
  unfold State.saveCheck
  grind
grind_pattern State.saveCheck_inv => State.saveCheck s key

theorem State.ladderCheck_inv (s : State) (key : Nat) (h : s.inv = true) :
    (State.ladderCheck s key).inv = true := by
  unfold State.ladderCheck
  grind
grind_pattern State.ladderCheck_inv => State.ladderCheck s key

theorem State.deliverFault_inv (s : State) (run : Nat) (r : Run) (t : Team) (f : FaultRec) (fatal : Bool)
    (h : s.inv = true) : (State.deliverFault s run r t f fatal).inv = true := by
  unfold State.deliverFault
  grind
grind_pattern State.deliverFault_inv => State.deliverFault s run r t f fatal

theorem State.lateFault_inv (s : State) (t : Team) (c : Cause) (h : s.inv = true) :
    (State.lateFault s t c).inv = true := by
  unfold State.lateFault
  grind
grind_pattern State.lateFault_inv => State.lateFault s t c

theorem State.retireLate_inv (s : State) (tid : Nat) (t : Team) (d : Delivered) (h : s.inv = true) :
    (State.retireLate s tid t d).inv = true := by
  unfold State.retireLate
  grind
grind_pattern State.retireLate_inv => State.retireLate s tid t d

theorem State.withdrawEmissions_inv (s : State) (tid : Nat) (h : s.inv = true) :
    (State.withdrawEmissions s tid).inv = true := by
  unfold State.withdrawEmissions
  grind
grind_pattern State.withdrawEmissions_inv => State.withdrawEmissions s tid

theorem State.freeDelivered_inv (s : State) (t : Team) (h : s.inv = true) :
    (State.freeDelivered s t).inv = true := by
  unfold State.freeDelivered
  grind
grind_pattern State.freeDelivered_inv => State.freeDelivered s t

theorem State.contain_inv (s : State) (tid : Nat) (t : Team) (h : s.inv = true) :
    (State.contain s tid t).inv = true := by
  unfold State.contain
  grind
grind_pattern State.contain_inv => State.contain s tid t

theorem State.stopRun_inv (s : State) (run : Nat) (h : s.inv = true) : (State.stopRun s run).inv = true := by
  unfold State.stopRun
  grind
grind_pattern State.stopRun_inv => State.stopRun s run

theorem State.tellMembers_inv (s : State) (r : Run) (h : s.inv = true) : (State.tellMembers s r).inv = true := by
  unfold State.tellMembers
  grind
grind_pattern State.tellMembers_inv => State.tellMembers s r

theorem State.fatalEnd_inv (s : State) (run : Nat) (h : s.inv = true) : (State.fatalEnd s run).inv = true := by
  unfold State.fatalEnd
  grind
grind_pattern State.fatalEnd_inv => State.fatalEnd s run

theorem State.settleStores_inv (s : State) (tid core : Nat) (h : s.inv = true) :
    (State.settleStores s tid core).inv = true := by
  unfold State.settleStores
  grind
grind_pattern State.settleStores_inv => State.settleStores s tid core

theorem State.watchDead_inv (s : State) (h : s.inv = true) : (State.watchDead s).inv = true := by
  unfold State.watchDead
  grind
grind_pattern State.watchDead_inv => State.watchDead s

theorem State.deadlockFault_inv (s : State) (die : Nat) (e : Stalled) (h : s.inv = true) :
    (State.deadlockFault s die e).inv = true := by
  unfold State.deadlockFault
  grind
grind_pattern State.deadlockFault_inv => State.deadlockFault s die e

/-! ## Scalar -/

theorem scalar2_inv (i : Instr) (f : Word → Word → Word) (d a : SReg) (b : SOp) (s : State) (h : s.inv = true) :
    outInv (scalar2 i f d a b s) = true := by
  unfold scalar2
  grind
grind_pattern scalar2_inv => scalar2 i f d a b s

theorem scalar1_inv (i : Instr) (f : Word → Word) (d a : SReg) (s : State) (h : s.inv = true) :
    outInv (scalar1 i f d a s) = true := by
  unfold scalar1
  grind
grind_pattern scalar1_inv => scalar1 i f d a s

/-! ## VecInt -/

theorem vec2_inv (i : Instr) (f : ElemOp) (t : ITy) (d a : VReg) (b : BOp) (s : State) (h : s.inv = true) :
    outInv (vec2 i f t d a b s) = true := by
  unfold vec2
  grind
grind_pattern vec2_inv => vec2 i f t d a b s

theorem vec1_inv (i : Instr) (f : (w : Nat) → BitVec w → BitVec w) (t : ITy) (d a : VReg) (s : State)
    (h : s.inv = true) : outInv (vec1 i f t d a s) = true := by
  unfold vec1
  grind
grind_pattern vec1_inv => vec1 i f t d a s

theorem vecImm_inv (i : Instr) (f : Word → Word → Word) (d a : VReg) (s : State) (h : s.inv = true) :
    outInv (vecImm i f d a s) = true := by
  unfold vecImm
  grind
grind_pattern vecImm_inv => vecImm i f d a s

/-! ## Ssu -/

theorem State.ssuWord_inv (s : State) (tid a n : Nat) (h : s.inv = true) :
    (State.ssuWord s tid a n).1.inv = true := by
  unfold State.ssuWord
  grind
grind_pattern State.ssuWord_inv => State.ssuWord s tid a n

theorem State.advanceTo_inv (s : State) (tid base len i : Nat) (prev : Option Nat) (h : s.inv = true) :
    (State.advanceTo s tid base len i prev).1.inv = true := by
  unfold State.advanceTo
  grind
grind_pattern State.advanceTo_inv => State.advanceTo s tid base len i prev

theorem State.advanceBoth_inv (s : State) (tid : Nat) (c : SsuCmd) (k : Cursor) (a b : Bool) (h : s.inv = true) :
    (State.advanceBoth s tid c k a b).1.inv = true := by
  unfold State.advanceBoth
  grind
grind_pattern State.advanceBoth_inv => State.advanceBoth s tid c k a b

theorem State.cursor_inv (s : State) (tid : Nat) (c : SsuCmd) (h : s.inv = true) :
    (State.cursor s tid c).1.inv = true := by
  unfold State.cursor
  grind
grind_pattern State.cursor_inv => State.cursor s tid c

theorem State.intersect_inv (s : State) (tid : Nat) (c : SsuCmd) (f : IntForm) (k : Cursor) (o : SsuOut)
    (fuel : Nat) (h : s.inv = true) : (State.intersect s tid c f k o fuel).1.inv = true := by
  induction fuel generalizing s k o with
  | zero => unfold State.intersect; exact h
  | succ n ih =>
    unfold State.intersect
    dsimp only
    (repeat' split) <;> first
      | exact h
      | grind
grind_pattern State.intersect_inv => State.intersect s tid c f k o fuel

theorem State.merge_inv (s : State) (tid : Nat) (c : SsuCmd) (isInt keepz : Bool) (cb : Comb) (k : Cursor)
    (o : SsuOut) (fuel : Nat) (h : s.inv = true) : (State.merge s tid c isInt keepz cb k o fuel).1.inv = true := by
  fun_induction State.merge s tid c isInt keepz cb k o fuel <;> grind
grind_pattern State.merge_inv => State.merge s tid c isInt keepz cb k o fuel

theorem State.scanSums_inv (s : State) (tid : Nat) (c : SsuCmd) (i sum : Nat) (o : SsuOut) (fuel : Nat)
    (h : s.inv = true) : (State.scanSums s tid c i sum o fuel).1.inv = true := by
  fun_induction State.scanSums s tid c i sum o fuel <;> grind
grind_pattern State.scanSums_inv => State.scanSums s tid c i sum o fuel

theorem State.storedAt_inv (s : State) (tid size : Nat) (ps : List (Nat × Nat × Nat × Bool)) (acc : List Stored)
    (h : s.inv = true) : (State.storedAt s tid size ps acc).1.inv = true := by
  fun_induction State.storedAt s tid size ps acc <;> grind
grind_pattern State.storedAt_inv => State.storedAt s tid size ps acc

theorem State.wordsAt_inv (s : State) (tid a n : Nat) (acc : List (Nat × Bool)) (h : s.inv = true) :
    (State.wordsAt s tid a n acc).1.inv = true := by
  fun_induction State.wordsAt s tid a n acc <;> grind
grind_pattern State.wordsAt_inv => State.wordsAt s tid a n acc

theorem State.stored_inv (s : State) (tid size : Nat) (d : Sparse) (rows cols : Nat) (h : s.inv = true) :
    (State.stored s tid size d rows cols).1.inv = true := by
  unfold State.stored
  grind
grind_pattern State.stored_inv => State.stored s tid size d rows cols

theorem State.putRun_inv (s : State) (c : SsuCmd) (a size : Nat) (xs : List (Nat × Bool)) (h : s.inv = true) :
    (State.putRun s c a size xs).1.inv = true := by
  unfold State.putRun
  grind
grind_pattern State.putRun_inv => State.putRun s c a size xs

theorem State.spxRows_inv (s : State) (tid : Nat) (c : SsuCmd) (d : Sparse) (cols : Nat) (a b olds : List Stored)
    (rows : List Nat) (named : Bool) (o : SsuOut) (h : s.inv = true) :
    (State.spxRows s tid c d cols a b olds rows named o).1.inv = true := by
  fun_induction State.spxRows s tid c d cols a b olds rows named o <;> grind
grind_pattern State.spxRows_inv => State.spxRows s tid c d cols a b olds rows named o

theorem State.spx_inv (s : State) (tid : Nat) (c : SsuCmd) (h : s.inv = true) :
    (State.spx s tid c).1.inv = true := by
  unfold State.spx
  grind
grind_pattern State.spx_inv => State.spx s tid c

theorem ssuEffect_inv (i : Instr) (kind : SsuKind) (d a b : SReg) (n : Nat) (w : Issuer) (t : Team) (q : Party)
    (s : State) (h : s.inv = true) : (ssuEffect i kind d a b n w t q s).inv = true := by
  unfold ssuEffect
  grind
grind_pattern ssuEffect_inv => ssuEffect i kind d a b n w t q s

theorem State.runSsu_inv (s : State) (c : SsuCmd) (h : s.inv = true) : (State.runSsu s c).1.inv = true := by
  unfold State.runSsu
  grind
grind_pattern State.runSsu_inv => State.runSsu s c

theorem State.putSsu_inv (s : State) (c : SsuCmd) (o : SsuOut) (h : s.inv = true) :
    (State.putSsu s c o).1.inv = true := by
  unfold State.putSsu
  grind
grind_pattern State.putSsu_inv => State.putSsu s c o

theorem State.endSsu_inv (s : State) (cluster : Nat) (c : SsuCmd) (warn status : Word) (h : s.inv = true) :
    (State.endSsu s cluster c warn status).inv = true := by
  unfold State.endSsu
  grind
grind_pattern State.endSsu_inv => State.endSsu s cluster c warn status

/-! ## Ne -/

theorem State.points_inv (s : State) (tid a n : Nat) (h : s.inv = true) :
    (State.points s tid a n).1.inv = true := by
  unfold State.points
  grind
grind_pattern State.points_inv => State.points s tid a n

theorem State.cells_inv (s : State) (tid : Nat) (d : List Byte) (h : s.inv = true) :
    (State.cells s tid d).1.inv = true := by
  unfold State.cells
  grind
grind_pattern State.cells_inv => State.cells s tid d

theorem State.endNe_inv (s : State) (cluster : Nat) (c : NeCmd) (status : Word) (h : s.inv = true) :
    (State.endNe s cluster c status).inv = true := by
  unfold State.endNe
  grind
grind_pattern State.endNe_inv => State.endNe s cluster c status

theorem State.neFault_inv (s : State) (cluster : Nat) (c : NeCmd) (e : Cause) (h : s.inv = true) :
    (State.neFault s cluster c e).inv = true := by
  unfold State.neFault
  grind
grind_pattern State.neFault_inv => State.neFault s cluster c e

theorem State.copyPoison_inv (s : State) (tid : Nat) (t : Team) (src dst n : Nat) (h : s.inv = true) :
    (State.copyPoison s tid t src dst n).inv = true := by
  unfold State.copyPoison
  grind
grind_pattern State.copyPoison_inv => State.copyPoison s tid t src dst n

theorem State.runBin_inv (s : State) (cluster : Nat) (c : NeCmd) (t : Team) (h : s.inv = true) :
    (State.runBin s cluster c t).inv = true := by
  unfold State.runBin
  dsimp only
  (repeat' split) <;> grind [Offered.inv]
grind_pattern State.runBin_inv => State.runBin s cluster c t

theorem State.startPairs_inv (s : State) (c : NeCmd) (h : s.inv = true) : (State.startPairs s c).1.inv = true := by
  unfold State.startPairs
  grind
grind_pattern State.startPairs_inv => State.startPairs s c

theorem State.enterGroups_inv (s : State) (c : NeCmd) (gs : List (List Word)) (ended : Bool) (h : s.inv = true) :
    (State.enterGroups s c gs ended).inv = true := by
  unfold State.enterGroups
  grind
grind_pattern State.enterGroups_inv => State.enterGroups s c gs ended

theorem State.stopPairs_inv (s : State) (tid p port : Nat) (h : s.inv = true) :
    (State.stopPairs s tid p port).inv = true := by
  unfold State.stopPairs
  grind
grind_pattern State.stopPairs_inv => State.stopPairs s tid p port

theorem State.closeLoad_inv (s : State) (tid p port : Nat) (h : s.inv = true) :
    (State.closeLoad s tid p port).inv = true := by
  unfold State.closeLoad
  grind
grind_pattern State.closeLoad_inv => State.closeLoad s tid p port

theorem neEffect_inv (i : Instr) (d a : SReg) (port : Option Nat) (w : Issuer) (t : Team) (q : Party) (s : State)
    (h : s.inv = true) : (neEffect i d a port w t q s).inv = true := by
  unfold neEffect
  grind
grind_pattern neEffect_inv => neEffect i d a port w t q s

theorem State.closeWait_inv (s : State) (core tid p : Nat) (q : Party) (n : Nat) (h : s.inv = true) :
    (State.closeWait s core tid p q n).1.inv = true := by
  unfold State.closeWait
  grind
grind_pattern State.closeWait_inv => State.closeWait s core tid p q n

theorem State.writePushed_inv (s : State) (tid : Nat) (p : Port) (xs : List (Nat × Word)) (h : s.inv = true) :
    (State.writePushed s tid p xs).1.inv = true := by
  fun_induction State.writePushed s tid p xs <;> grind
grind_pattern State.writePushed_inv => State.writePushed s tid p xs

/-! ## Issue -/

theorem State.fetchWord_inv (s : State) (t : Team) (pc : Word) (h : s.inv = true) :
    (State.fetchWord s t pc).1.inv = true := by
  unfold State.fetchWord
  grind
grind_pattern State.fetchWord_inv => State.fetchWord s t pc

theorem State.fetchWords_inv (s : State) (t : Team) (pc : Word) (n : Nat) (h : s.inv = true) :
    (State.fetchWords s t pc n).1.inv = true := by
  fun_induction State.fetchWords s t pc n <;> grind
grind_pattern State.fetchWords_inv => State.fetchWords s t pc n

theorem State.checkClause_inv (s : State) (t : Team) (seq : Bool) (pc : Word) (h : s.inv = true) :
    (State.checkClause s t seq pc).1.inv = true := by
  unfold State.checkClause
  grind
grind_pattern State.checkClause_inv => State.checkClause s t seq pc

theorem State.beginW1_inv (s : State) (core tid p : Nat) (h : s.inv = true) :
    (State.beginW1 s core tid p).inv = true := by
  unfold State.beginW1
  grind
grind_pattern State.beginW1_inv => State.beginW1 s core tid p

theorem State.enterClause_inv (s : State) (w : Issuer) (t : Team) (q : Party) (h : s.inv = true) :
    (State.enterClause s w t q).inv = true := by
  unfold State.enterClause
  grind
grind_pattern State.enterClause_inv => State.enterClause s w t q

theorem State.enterSeq_inv (s : State) (tid : Nat) (t : Team) (q : Sequencer) (h : s.inv = true) :
    (State.enterSeq s tid t q).inv = true := by
  unfold State.enterSeq
  grind
grind_pattern State.enterSeq_inv => State.enterSeq s tid t q

theorem State.fetchParty_inv (s : State) (w : Issuer) (t : Team) (q : Party) (h : s.inv = true) :
    (State.fetchParty s w t q).inv = true := by
  unfold State.fetchParty
  grind [Fetched.inv]
grind_pattern State.fetchParty_inv => State.fetchParty s w t q

theorem State.fetchSeq_inv (s : State) (tid : Nat) (t : Team) (q : Sequencer) (h : s.inv = true) :
    (State.fetchSeq s tid t q).inv = true := by
  unfold State.fetchSeq
  grind [Fetched.inv]
grind_pattern State.fetchSeq_inv => State.fetchSeq s tid t q

theorem State.fetch_inv (s : State) (w : Who) (h : s.inv = true) : (State.fetch s w).inv = true := by
  unfold State.fetch
  grind [Fetched.inv]
grind_pattern State.fetch_inv => State.fetch s w

theorem State.issued_inv (s : State) (w : Who) (before : Wait) (h : s.inv = true) :
    (State.issued s w before).inv = true := by
  unfold State.issued
  grind
grind_pattern State.issued_inv => State.issued s w before

theorem State.nextTurn_inv (s : State) (a : Act) (h : s.inv = true) : (State.nextTurn s a).inv = true := by
  unfold State.nextTurn
  grind
grind_pattern State.nextTurn_inv => State.nextTurn s a

theorem State.prefetch_inv (s : State) (t : Team) (a : DWord) (h : s.inv = true) :
    (State.prefetch s t a).inv = true := by
  unfold State.prefetch
  grind
grind_pattern State.prefetch_inv => State.prefetch s t a

theorem State.pass_inv (s : State) (dclk dtb : Nat) (h : s.inv = true) : (State.pass s dclk dtb).inv = true := by
  unfold State.pass
  grind
grind_pattern State.pass_inv => State.pass s dclk dtb

theorem State.cycle_inv (s : State) (h : s.inv = true) : (State.cycle s).inv = true := by
  unfold State.cycle
  grind
grind_pattern State.cycle_inv => State.cycle s

theorem State.holdBy_inv (s : State) (w : Who) (h : s.inv = true) : (State.holdBy s w).inv = true := by
  unfold State.holdBy
  grind
grind_pattern State.holdBy_inv => State.holdBy s w

theorem State.backOut_inv (s : State) (w : Who) (h : s.inv = true) : (State.backOut s w).inv = true := by
  unfold State.backOut
  grind
grind_pattern State.backOut_inv => State.backOut s w

/-! ## MatrixSteps -/

theorem State.modOp_inv (s : State) (tid id : Nat) (f : MatOp → MatOp) (h : s.inv = true) :
    (State.modOp s tid id f).inv = true := by
  unfold State.modOp
  grind
grind_pattern State.modOp_inv => State.modOp s tid id f

theorem State.modPasses_inv (s : State) (cluster : Nat) (e : Entry) (f : Passes → Passes) (h : s.inv = true) :
    (State.modPasses s cluster e f).inv = true := by
  unfold State.modPasses
  grind
grind_pattern State.modPasses_inv => State.modPasses s cluster e f

theorem State.repost_inv (s : State) (cluster : Nat) (h : s.inv = true) : (State.repost s cluster).inv = true := by
  unfold State.repost
  grind
grind_pattern State.repost_inv => State.repost s cluster

theorem State.retireOp_inv (s : State) (tid id : Nat) (h : s.inv = true) :
    (State.retireOp s tid id).inv = true := by
  unfold State.retireOp
  grind
grind_pattern State.retireOp_inv => State.retireOp s tid id

theorem State.opFault_inv (s : State) (tid : Nat) (o : MatOp) (c : Cause) (h : s.inv = true) :
    (State.opFault s tid o c).inv = true := by
  unfold State.opFault
  grind
grind_pattern State.opFault_inv => State.opFault s tid o c

theorem State.lkoRead_inv (s : State) (tid a w n : Nat) (h : s.inv = true) :
    (State.lkoRead s tid a w n).1.inv = true := by
  fun_induction State.lkoRead s tid a w n <;> grind
grind_pattern State.lkoRead_inv => State.lkoRead s tid a w n

theorem State.denseBlock_inv (s : State) (tid a rows cols w : Nat) (h : s.inv = true) :
    (State.denseBlock s tid a rows cols w).1.inv = true := by
  unfold State.denseBlock
  grind
grind_pattern State.denseBlock_inv => State.denseBlock s tid a rows cols w

theorem State.xChunk_inv (s : State) (tid : Nat) (p : PassFmt) (l : LkoSeq) (kc : Nat) (h : s.inv = true) :
    (State.xChunk s tid p l kc).1.inv = true := by
  unfold State.xChunk
  grind
grind_pattern State.xChunk_inv => State.xChunk s tid p l kc

theorem readBoth_inv (f g : State → State × Except Cause AReg) (s : State) (h : s.inv = true)
    (hf : ∀ s, s.inv = true → (f s).1.inv = true) (hg : ∀ s, s.inv = true → (g s).1.inv = true) :
    (readBoth f g s).1.inv = true := by
  have h1 := hf s h
  unfold readBoth
  split
  · next e => rw [e] at h1; exact h1
  · next e =>
    rw [e] at h1
    have h2 := hg _ h1
    split
    · next e => rw [e] at h2; exact h2
    · next e => rw [e] at h2; exact h2

theorem State.fetchPass_inv (s : State) (tid : Nat) (t : Team) (o : MatOp) (p : PassFmt) (lko : Option LkoSeq)
    (n : Nat) (h : s.inv = true) : (State.fetchPass s tid t o p lko n).1.inv = true := by
  unfold State.fetchPass
  split
  · dsimp only
    split <;> next e => exact of_pair e (State.block_inv _ _ _ _ _ _ _ _ _ h)
  · dsimp only
    split
    · exact readBoth_inv _ _ _ h (fun s h => State.xChunk_inv _ _ _ _ _ h) (fun s h => State.denseBlock_inv _ _ _ _ _ _ h)
    · exact readBoth_inv _ _ _ h (fun s h => State.denseBlock_inv _ _ _ _ _ _ h)
        (fun s h => State.denseBlock_inv _ _ _ _ _ _ h)
  · split
    · exact readBoth_inv _ _ _ h (fun s h => State.xChunk_inv _ _ _ _ _ h) (fun s h => State.block_inv _ _ _ _ _ _ _ _ _ h)
    · exact h
  · exact h
grind_pattern State.fetchPass_inv => State.fetchPass s tid t o p lko n

theorem State.fetchNext_inv (s : State) (tid : Nat) (t : Team) (o : MatOp) (lko : Option LkoSeq) (n : Nat)
    (h : s.inv = true) : (State.fetchNext s tid t o lko n).1.inv = true := by
  fun_induction State.fetchNext s tid t o lko n <;> grind
grind_pattern State.fetchNext_inv => State.fetchNext s tid t o lko n

theorem State.fetchUpTo_inv (s : State) (tid : Nat) (t : Team) (o : MatOp) (lko : Option LkoSeq) (n : Nat)
    (h : s.inv = true) : (State.fetchUpTo s tid t o lko n).1.inv = true := by
  unfold State.fetchUpTo
  exact State.usedBytes_inv _ _ (State.readAs_inv s (o.reader tid) (fun s => s.fetchNext tid t o lko (n - o.fetches)) h
    (fun s h => State.fetchNext_inv s tid t o lko _ h))
grind_pattern State.fetchUpTo_inv => State.fetchUpTo s tid t o lko n

theorem State.enterArray_inv (s : State) (cluster : Nat) (e : Entry) (h : s.inv = true) :
    (State.enterArray s cluster e).inv = true := by
  unfold State.enterArray
  split
  · exact State.modPasses_inv _ _ _ _ h
  · split
    · exact h
    · split
      · exact h
      · split
        · next e => exact State.opFault_inv _ _ _ _ (of_pair e (State.fetchUpTo_inv _ _ _ _ _ _ h))
        · next e => exact State.modPasses_inv _ _ _ _ (of_pair e (State.fetchUpTo_inv _ _ _ _ _ _ h))
grind_pattern State.enterArray_inv => State.enterArray s cluster e

theorem State.fenceEngine_inv (s : State) (cluster : Nat) (h : s.inv = true) :
    (State.fenceEngine s cluster).inv = true := by
  unfold State.fenceEngine
  grind
grind_pattern State.fenceEngine_inv => State.fenceEngine s cluster

theorem State.doubleMismatch_inv (s : State) (tid id cluster : Nat) (h : s.inv = true) :
    (State.doubleMismatch s tid id cluster).inv = true := by
  unfold State.doubleMismatch
  grind
grind_pattern State.doubleMismatch_inv => State.doubleMismatch s tid id cluster

theorem State.retirePass_inv (s : State) (tid : Nat) (t : Team) (o : MatOp) (rerun : Bool) (h : s.inv = true) :
    (State.retirePass s tid t o rerun).inv = true := by
  unfold State.retirePass
  grind
grind_pattern State.retirePass_inv => State.retirePass s tid t o rerun

theorem State.loadA_inv (s : State) (tid ma : Nat) (a : Option AReg) (h : s.inv = true) :
    (State.loadA s tid ma a).inv = true := by
  unfold State.loadA
  grind
grind_pattern State.loadA_inv => State.loadA s tid ma a

theorem State.retirePred_inv (s : State) (tid ma : Nat) (o : MatOp) (p : PassFmt) (l : LkoSeq) (h : s.inv = true) :
    (State.retirePred s tid ma o p l).inv = true := by
  unfold State.retirePred
  grind
grind_pattern State.retirePred_inv => State.retirePred s tid ma o p l

theorem State.afterWrites_inv (s : State) (tid : Nat) (o : MatOp) (w : Word) (h : s.inv = true) :
    (State.afterWrites s tid o w).inv = true := by
  unfold State.afterWrites
  grind
grind_pattern State.afterWrites_inv => State.afterWrites s tid o w

theorem State.closeLko_inv (s : State) (tid : Nat) (t : Team) (o : MatOp) (l : LkoSeq) (w : Word) (h : s.inv = true) :
    (State.closeLko s tid t o l w).inv = true := by
  unfold State.closeLko
  grind [Registered.inv]
grind_pattern State.closeLko_inv => State.closeLko s tid t o l w

theorem State.retireChk_inv (s : State) (tid : Nat) (t : Team) (cd ma : Nat) (o : MatOp) (p : PassFmt) (l : LkoSeq)
    (h : s.inv = true) : (State.retireChk s tid t cd ma o p l).inv = true := by
  unfold State.retireChk
  grind
grind_pattern State.retireChk_inv => State.retireChk s tid t cd ma o p l

theorem State.mstWrite_inv (s : State) (tid : Nat) (o : MatOp) (t : Team) (hd0 : Handle) (acc df : Cvt) (env : FEnv)
    (cd : Nat) (scl : Bool) (ps : List (Nat × Nat × Nat × Nat)) (warn : Word) (h : s.inv = true) :
    (State.mstWrite s tid o t hd0 acc df env cd scl ps warn).1.inv = true := by
  fun_induction State.mstWrite s tid o t hd0 acc df env cd scl ps warn <;> grind
grind_pattern State.mstWrite_inv => State.mstWrite s tid o t hd0 acc df env cd scl ps warn

theorem State.retireMst_inv (s : State) (tid : Nat) (t : Team) (o : MatOp) (p : PassFmt) (cd : Nat) (hd0 : Handle)
    (kc nb : Nat) (h : s.inv = true) : (State.retireMst s tid t o p cd hd0 kc nb).inv = true := by
  unfold State.retireMst
  grind
grind_pattern State.retireMst_inv => State.retireMst s tid t o p cd hd0 kc nb

theorem State.msclWrite_inv (s : State) (tid : Nat) (o : MatOp) (t : Team) (hd0 : Handle) (acc df : Cvt) (cd : Nat)
    (ps : List (Nat × Nat)) (warn : Word) (h : s.inv = true) :
    (State.msclWrite s tid o t hd0 acc df cd ps warn).1.inv = true := by
  fun_induction State.msclWrite s tid o t hd0 acc df cd ps warn <;> grind
grind_pattern State.msclWrite_inv => State.msclWrite s tid o t hd0 acc df cd ps warn

theorem State.retireMscl_inv (s : State) (tid : Nat) (t : Team) (o : MatOp) (p : PassFmt) (cd : Nat) (hd0 : Handle)
    (h : s.inv = true) : (State.retireMscl s tid t o p cd hd0).inv = true := by
  unfold State.retireMscl
  grind
grind_pattern State.retireMscl_inv => State.retireMscl s tid t o p cd hd0

theorem State.retireMld_inv (s : State) (tid : Nat) (o : MatOp) (p : PassFmt) (ma : Nat) (hd0 : Handle)
    (kc nb : Nat) (h : s.inv = true) : (State.retireMld s tid o p ma hd0 kc nb).inv = true := by
  unfold State.retireMld
  grind
grind_pattern State.retireMld_inv => State.retireMld s tid o p ma hd0 kc nb

theorem State.retireKind_inv (s : State) (tid : Nat) (t : Team) (o : MatOp) (lko : Option LkoSeq) (p : PassFmt)
    (h : s.inv = true) : (State.retireKind s tid t o lko p).inv = true := by
  unfold State.retireKind
  grind
grind_pattern State.retireKind_inv => State.retireKind s tid t o lko p

theorem State.fetchBefore_inv (s : State) (tid : Nat) (t : Team) (q : Sequencer) (o : MatOp) (h : s.inv = true) :
    (State.fetchBefore s tid t q o).inv = true := by
  unfold State.fetchBefore
  grind
grind_pattern State.fetchBefore_inv => State.fetchBefore s tid t q o

/-! ## Preempt -/

theorem State.modRunsOf_inv (s : State) (key : Nat) (f : Run → Run) (h : s.inv = true) :
    (State.modRunsOf s key f).inv = true := by
  unfold State.modRunsOf
  grind
grind_pattern State.modRunsOf_inv => State.modRunsOf s key f

theorem State.startLadder_inv (s : State) (key reason : Nat) (h : s.inv = true) :
    (State.startLadder s key reason).inv = true := by
  unfold State.startLadder
  grind
grind_pattern State.startLadder_inv => State.startLadder s key reason

theorem State.beginSave_inv (s : State) (tid : Nat) (h : s.inv = true) : (State.beginSave s tid).inv = true := by
  unfold State.beginSave
  grind
grind_pattern State.beginSave_inv => State.beginSave s tid

theorem State.save_inv (s : State) (tid : Nat) (t : Team) (h : s.inv = true) : (State.save s tid t).inv = true := by
  unfold State.save
  grind
grind_pattern State.save_inv => State.save s tid t

theorem State.discard_inv (s : State) (tid : Nat) (t : Team) (h : s.inv = true) :
    (State.discard s tid t).inv = true := by
  unfold State.discard
  grind
grind_pattern State.discard_inv => State.discard s tid t

theorem State.resetRung_inv (s : State) (key : Nat) (signal : Bool) (h : s.inv = true) :
    (State.resetRung s key signal).inv = true := by
  unfold State.resetRung
  grind
grind_pattern State.resetRung_inv => State.resetRung s key signal

theorem State.resetDone_inv (s : State) (key : Nat) (h : s.inv = true) : (State.resetDone s key).inv = true := by
  unfold State.resetDone
  grind
grind_pattern State.resetDone_inv => State.resetDone s key

theorem State.resumeQueue_inv (s : State) (key : Nat) (h : s.inv = true) :
    (State.resumeQueue s key).inv = true := by
  unfold State.resumeQueue
  grind
grind_pattern State.resumeQueue_inv => State.resumeQueue s key

theorem State.wordAt_inv (s : State) (w : Who) (t : Team) (pc : Word) (h : s.inv = true) :
    (State.wordAt s w t pc).1.inv = true := by
  unfold State.wordAt
  have h1 := State.readAs_inv s { id := whoKey w, tid := whoTeam w, origin := noOrigin, serial := false } (fun s => s.fetchWord t pc) h
    (fun s h => State.fetchWord_inv s t pc h)
  dsimp only
  split
  · exact h1
  · exact State.useFree_inv _ h1
grind_pattern State.wordAt_inv => State.wordAt s w t pc

theorem State.beginReset_inv (s : State) (key : Nat) (h : s.inv = true) : (State.beginReset s key).inv = true := by
  unfold State.beginReset
  grind
grind_pattern State.beginReset_inv => State.beginReset s key

theorem State.zeroFill_inv (s : State) (f : Nat) (h : s.inv = true) : (State.zeroFill s f).inv = true := by
  rw [inv_eq, invOf_iff] at h ⊢
  refine ⟨Store.wf_filter _ h.1, ?_, h.2.2⟩
  unfold State.zeroFill
  dsimp only
  split
  · exact ⟨by decide, by decide⟩
  · exact h.2.1
grind_pattern State.zeroFill_inv => State.zeroFill s f

theorem State.finishFlr_inv (s : State) (f : Nat) (h : s.inv = true) : (State.finishFlr s f).inv = true := by
  unfold State.finishFlr
  grind
grind_pattern State.finishFlr_inv => State.finishFlr s f

theorem State.unmap_inv (s : State) (key : Nat) (h : s.inv = true) : (State.unmap s key).inv = true := by
  unfold State.unmap
  grind
grind_pattern State.unmap_inv => State.unmap s key

/-! ## Queues -/

theorem State.plainWrite_inv (s : State) (f : Nat) (r : HostReg) (v : DWord) (h : s.inv = true) :
    (State.plainWrite s f r v).inv = true := by
  unfold State.plainWrite
  grind
grind_pattern State.plainWrite_inv => State.plainWrite s f r v

theorem State.grant_inv (s : State) (f : Nat) (o : MapOrder) (h : s.inv = true) :
    (State.grant s f o).inv = true := by
  unfold State.grant
  grind
grind_pattern State.grant_inv => State.grant s f o

/-! ## Launch -/

theorem State.readTimetable_inv (s : State) (key va : Nat) (h : s.inv = true) :
    (State.readTimetable s key va).1.inv = true := by
  unfold State.readTimetable
  grind
grind_pattern State.readTimetable_inv => State.readTimetable s key va

theorem State.readImage_inv (s : State) (key va : Nat) (h : s.inv = true) :
    (State.readImage s key va).1.inv = true := by
  unfold State.readImage
  split
  · next e => exact of_pair e (State.queueRead_inv _ _ _ _ h)
  · next e =>
    have h := of_pair e (State.queueRead_inv _ _ _ _ h)
    split
    · exact h
    · dsimp only
      split
      · next e => exact of_pair e (State.queueRead_inv _ _ _ _ h)
      · next e =>
        have h := of_pair e (State.queueRead_inv _ _ _ _ h)
        split
        · next e => exact of_pair e (State.queueRead_inv _ _ _ _ h)
        · next e =>
          have h := of_pair e (State.queueRead_inv _ _ _ _ h)
          split
          · exact h
          · split
            · next e => exact of_pair e (State.queueRead_inv _ _ _ _ h)
            · next e =>
              have h := of_pair e (State.queueRead_inv _ _ _ _ h)
              split
              · next e => exact of_pair e (ite_inv h (State.readTimetable_inv _ _ _ h))
              · next e => exact of_pair e (ite_inv h (State.readTimetable_inv _ _ _ h))
              · next e =>
                have h := of_pair e (ite_inv h (State.readTimetable_inv _ _ _ h))
                split
                · exact h
                · split <;> exact h
grind_pattern State.readImage_inv => State.readImage s key va

theorem State.readGroup_inv (s : State) (key va : Nat) (h : s.inv = true) :
    (State.readGroup s key va).1.inv = true := by
  unfold State.readGroup
  grind
grind_pattern State.readGroup_inv => State.readGroup s key va

theorem State.launch_inv (s : State) (key idx : Nat) (w : Rec) (h : s.inv = true) :
    (State.launch s key idx w).inv = true := by
  unfold State.launch
  dsimp only
  (repeat' split) <;> grind
grind_pattern State.launch_inv => State.launch s key idx w

/-! ## Packets -/

theorem State.take_inv (s : State) (key ty : Nat) (h : s.inv = true) : (State.take s key ty).inv = true := by
  unfold State.take
  grind [Taken.inv]
grind_pattern State.take_inv => State.take s key ty

theorem State.onPacket_inv (s : State) (key ty : Nat) (f : State → Nat → Rec → State) (h : s.inv = true)
    (hf : ∀ s n r, s.inv = true → (f s n r).inv = true) : outInv (s.onPacket key ty f) = true := by
  unfold State.onPacket
  have := State.take_inv s key ty h
  grind [Taken.inv]

theorem State.beginWsload_inv (s : State) (key idx : Nat) (w : Rec) (h : s.inv = true) :
    (State.beginWsload s key idx w).inv = true := by
  unfold State.beginWsload
  grind
grind_pattern State.beginWsload_inv => State.beginWsload s key idx w

/-! ## MemSteps -/

theorem State.replayLane_inv (s : State) (tag : BitVec 16) (base size : Nat) (r : Except Cause TlbEntry)
    (x : Nat × Nat × Nat) (h : s.inv = true) : (State.replayLane s tag base size r x).inv = true := by
  unfold State.replayLane
  grind
grind_pattern State.replayLane_inv => State.replayLane s tag base size r x

theorem State.endWalk_inv (s : State) (w : Walk) (r : Except Cause TlbEntry) (h : s.inv = true) :
    (State.endWalk s w r).inv = true := by
  unfold State.endWalk
  grind
grind_pattern State.endWalk_inv => State.endWalk s w r

theorem State.recallLines_inv (s : State) (m : Migration) (h : s.inv = true) :
    (State.recallLines s m).inv = true := by
  unfold State.recallLines
  grind
grind_pattern State.recallLines_inv => State.recallLines s m

theorem State.poisonAt_inv (s : State) (x : ErrSite) (h : s.inv = true) : (State.poisonAt s x).inv = true := by
  unfold State.poisonAt
  grind
grind_pattern State.poisonAt_inv => State.poisonAt s x

/-! ## Fabric -/

theorem State.bringOver_inv (s : State) (pa : Nat) (h : s.inv = true) : (State.bringOver s pa).inv = true := by
  unfold State.bringOver
  grind
grind_pattern State.bringOver_inv => State.bringOver s pa

theorem State.pokeAll_inv (s : State) (place : Option Nat) (pa : Nat) (bs : List Byte) (h : s.inv = true) :
    (State.pokeAll s place pa bs).inv = true := by
  unfold State.pokeAll
  grind
grind_pattern State.pokeAll_inv => State.pokeAll s place pa bs

theorem State.pendRuns_inv (s : State) (cid : BitVec 24) (ver : Word) (pa : Nat) (source : Option Nat)
    (rs : List (Nat × List Byte)) (h : s.inv = true) : excInv (State.pendRuns s cid ver pa source rs) = true := by
  fun_induction State.pendRuns s cid ver pa source rs <;> grind [excInv]
grind_pattern State.pendRuns_inv => State.pendRuns s cid ver pa source rs

theorem State.recordAtomic_inv (s : State) (r : FabReq) (v : DWord) (h : s.inv = true) :
    (State.recordAtomic s r v).inv = true := by
  unfold State.recordAtomic
  grind
grind_pattern State.recordAtomic_inv => State.recordAtomic s r v

theorem State.serveAtomic_inv (s : State) (r : FabReq) (op : AOp) (ty : ATy) (x new : DWord) (returns : Bool)
    (h : s.inv = true) : (State.serveAtomic s r op ty x new returns).inv = true := by
  unfold State.serveAtomic
  grind [Served.inv]
grind_pattern State.serveAtomic_inv => State.serveAtomic s r op ty x new returns

theorem State.serveReduce_inv (s : State) (r : FabReq) (op : AOp) (ty : ATy) (c : ℤ × Nat) (acquires : Bool)
    (h : s.inv = true) : (State.serveReduce s r op ty c acquires).inv = true := by
  unfold State.serveReduce
  grind [Served.inv]
grind_pattern State.serveReduce_inv => State.serveReduce s r op ty c acquires

theorem State.serveMemory_inv (s : State) (r : FabReq) (h : s.inv = true) : (State.serveMemory s r).inv = true := by
  unfold State.serveMemory
  split
  all_goals
    try dsimp only
    (repeat' split) <;> first
      | exact h
      | rfl
      | grind [Served.inv, excInv]
grind_pattern State.serveMemory_inv => State.serveMemory s r

theorem State.serveEmission_inv (s : State) (r : FabReq) (ident die : Nat) (ns : Bool) (recs : List Rec)
    (h : s.inv = true) : (State.serveEmission s r ident die ns recs).inv = true := by
  unfold State.serveEmission
  grind [Served.inv]
grind_pattern State.serveEmission_inv => State.serveEmission s r ident die ns recs

theorem State.serveConvoy_inv (s : State) (r : FabReq) (h : s.inv = true) : (State.serveConvoy s r).inv = true := by
  unfold State.serveConvoy
  split
  · split
    · exact h
    · next e => exact State.useFree_inv _ (State.useFree_inv _ (State.allocConvoy_inv _ _ _ _ h e))
  · split
    · exact h
    · exact State.prepare_inv _ _ _ h
  · split
    · exact h
    · split
      · rfl
      · exact State.commitLines_inv _ _ _ _ _ h
  · exact State.commitLines_inv _ _ _ _ _ h
  · exact State.discardConvoy_inv _ _ _ h
  · exact h
grind_pattern State.serveConvoy_inv => State.serveConvoy s r

theorem State.replayed_inv {s : State} {r : FabReq} {x : Served} (h : s.inv = true) (e : s.replayed r = some x) :
    x.inv = true := by
  unfold State.replayed at e
  split at e
  · obtain ⟨v, -, e⟩ := Option.map_eq_some_iff.1 e
    cases e
    exact h
  · split at e
    · cases e; exact h
    · obtain ⟨v, -, e⟩ := Option.map_eq_some_iff.1 e
      cases e
      exact h
  · cases e

theorem State.serve_inv (s : State) (r : FabReq) (h : s.inv = true) : (State.serve s r).inv = true := by
  unfold State.serve
  cases hop : r.op
  all_goals dsimp only
  case emission => exact State.serveEmission_inv _ _ _ _ _ _ h
  case withdraw =>
    split
    · exact h
    · exact h
    · exact State.note_inv _ _ _ _ _ h
  case fatalStop =>
    exact foldl_inv _ _ _ (fun s x h => State.ladderCheck_inv _ _ (State.fatalEnd_inv _ _ (State.stopRun_inv _ _ h))) h
  case resolve k n _ =>
    have := State.resolveHere_inv s (joinKey k) n h
    split <;> next e => rw [e] at this; exact this
  case register k r =>
    have := State.register_inv s k r none h
    split <;> first
      | exact h
      | (next e => rw [e] at this; exact this)
  case joinRead => exact h
  case joinFail => exact State.failHere_inv _ _ h
  all_goals first
    | exact State.serveConvoy_inv _ _ h
    | (split
       · next e => exact State.replayed_inv h e
       · split
         · exact h
         · split
           · exact h
           · split
             · rfl
             · exact State.serveMemory_inv _ _ (State.bringOver_inv _ _ h))
grind_pattern State.serve_inv => State.serve s r

theorem State.passed_inv (s : State) (r : FabReq) (h : s.inv = true) : (State.passed s r).inv = true := by
  unfold State.passed
  grind
grind_pattern State.passed_inv => State.passed s r

theorem State.answer_inv (s : State) (r : FabReq) (a : FabResp) (h : s.inv = true) :
    (State.answer s r a).inv = true := by
  unfold State.answer
  grind
grind_pattern State.answer_inv => State.answer s r a

theorem State.performRequest_inv (s : State) (r : FabReq) (h : s.inv = true) :
    (State.performRequest s r).inv = true := by
  unfold State.performRequest
  grind [Served.inv]
grind_pattern State.performRequest_inv => State.performRequest s r

theorem State.inTurn_inv (s : State) (r : FabReq) (h : s.inv = true) : (State.inTurn s r).inv = true := by
  unfold State.inTurn
  split
  · exact State.passed_inv _ _ h
  · split
    · exact h
    · split
      · exact State.performRequest_inv _ _ h
      · split
        · next e => exact State.answer_inv _ _ _ (State.replayed_inv h e)
        · exact h
grind_pattern State.inTurn_inv => State.inTurn s r

theorem State.readmit_inv (s : State) (h : s.inv = true) : (State.readmit s).inv = true := by
  unfold State.readmit
  grind
grind_pattern State.readmit_inv => State.readmit s

theorem State.forget_inv (s : State) (o : Outstanding) (h : s.inv = true) : (State.forget s o).inv = true := by
  unfold State.forget
  grind
grind_pattern State.forget_inv => State.forget s o

theorem State.lose_inv (s : State) (o : Outstanding) (h : s.inv = true) : (State.lose s o).inv = true := by
  unfold State.lose
  grind
grind_pattern State.lose_inv => State.lose s o

theorem State.failRequest_inv (s : State) (o : Outstanding) (c : Cause) (deferred : Bool) (h : s.inv = true) :
    (State.failRequest s o c deferred).inv = true := by
  unfold State.failRequest
  grind
grind_pattern State.failRequest_inv => State.failRequest s o c deferred

theorem State.fillLanes_inv (s : State) (o : Outstanding) (a : Nat × Nat) (f : Nat → Nat → LaneAcc → LaneAcc)
    (h : s.inv = true) : (State.fillLanes s o a f).inv = true := by
  unfold State.fillLanes
  grind
grind_pattern State.fillLanes_inv => State.fillLanes s o a f

theorem State.fillRead_inv (s : State) (o : Outstanding) (a : Nat × Nat) (v : Nat) (h : s.inv = true) :
    (State.fillRead s o a v).inv = true := by
  unfold State.fillRead
  grind
grind_pattern State.fillRead_inv => State.fillRead s o a v

theorem State.brought_inv (s : State) (o : Outstanding) (id v : Nat) (h : s.inv = true) :
    (State.brought s o id v).inv = true := by
  unfold State.brought
  grind
grind_pattern State.brought_inv => State.brought s o id v

theorem State.withdrawn_inv (s : State) (o : Outstanding) (seqno : BitVec 16) (h : s.inv = true) :
    (State.withdrawn s o seqno).inv = true := by
  unfold State.withdrawn
  grind
grind_pattern State.withdrawn_inv => State.withdrawn s o seqno

theorem State.readBack_inv (s : State) (o : Outstanding) (v : Nat) (h : s.inv = true) :
    (State.readBack s o v).inv = true := by
  unfold State.readBack
  cases o.req.op <;> cases o.party <;> cases o.access <;> with_reducible first
    | exact State.forget_inv _ _ h
    | exact State.fillRead_inv _ _ _ _ h
    | exact State.brought_inv _ _ _ _ h
    | exact State.withdrawn_inv _ _ _ h
    | exact State.openedAway_inv _ _ _ _ _ _ (State.forget_inv _ _ h)
    | exact State.committedAway_inv _ _ _ _ (State.forget_inv _ _ h)
grind_pattern State.readBack_inv => State.readBack s o v

theorem State.loseView_inv (s : State) (o : Outstanding) (a : Nat × Nat) (h : s.inv = true) :
    (State.loseView s o a).inv = true := by
  unfold State.loseView
  grind
grind_pattern State.loseView_inv => State.loseView s o a

theorem State.refuse_inv (s : State) (o : Outstanding) (cause sub : Nat) (h : s.inv = true) :
    (State.refuse s o cause sub).inv = true := by
  unfold State.refuse
  grind
grind_pattern State.refuse_inv => State.refuse s o cause sub

theorem State.took_inv (s : State) (o : Outstanding) (h : s.inv = true) : (State.took s o).inv = true := by
  unfold State.took
  grind
grind_pattern State.took_inv => State.took s o

theorem State.acknowledge_inv (s : State) (o : Outstanding) (h : s.inv = true) :
    (State.acknowledge s o).inv = true := by
  unfold State.acknowledge
  grind
grind_pattern State.acknowledge_inv => State.acknowledge s o

theorem State.closeFails_inv (s : State) (o : Outstanding) (cid : BitVec 24) (ver : Word) (h : s.inv = true) :
    (State.closeFails s o cid ver).inv = true := by
  unfold State.closeFails
  grind
grind_pattern State.closeFails_inv => State.closeFails s o cid ver

theorem State.joinFault_inv (s : State) (o : Outstanding) (cause sub : Nat) (h : s.inv = true) :
    (State.joinFault s o cause sub).inv = true := by
  unfold State.joinFault
  grind [Registered.inv]
grind_pattern State.joinFault_inv => State.joinFault s o cause sub

theorem State.respond_inv (s : State) (o : Outstanding) (r : FabResp) (h : s.inv = true) :
    (State.respond s o r).inv = true := by
  unfold State.respond
  grind
grind_pattern State.respond_inv => State.respond s o r

theorem State.dropAccess_inv (s : State) (o : Outstanding) (id : Nat) (h : s.inv = true) :
    (State.dropAccess s o id).inv = true := by
  unfold State.dropAccess
  grind
grind_pattern State.dropAccess_inv => State.dropAccess s o id

theorem State.unanswered_inv (s : State) (o : Outstanding) (c : Cause) (h : s.inv = true) :
    (State.unanswered s o c).inv = true := by
  unfold State.unanswered
  generalize (if o.party.isSome then o.access else none) = acc
  split
  · exact State.lateFault_inv _ _ _ (State.forget_inv _ _ h)
  · exact State.failRequest_inv _ _ _ _ (State.dropAccess_inv _ _ _ h)
  · exact State.failRequest_inv _ _ _ _ h
grind_pattern State.unanswered_inv => State.unanswered s o c

theorem State.timedOut_inv (s : State) (o : Outstanding) (h : s.inv = true) : (State.timedOut s o).inv = true := by
  unfold State.timedOut
  generalize o.req.op = op
  cases op <;> dsimp only
  case withdraw =>
    split
    · exact State.failRequest_inv _ _ _ _ (State.lose_inv _ _ h)
    · exact State.lose_inv _ _ h
  case cvcommit => exact State.forget_inv _ _ h
  case cvabort => exact State.forget_inv _ _ h
  case joinFail => exact State.forget_inv _ _ h
  case fatalStop => exact State.forget_inv _ _ h
  case cvopen => exact State.failRequest_inv _ _ _ _ h
  case emission => exact State.failRequest_inv _ _ _ _ h
  case cvprepare => exact State.closeFails_inv _ _ _ _ h
  case cvhome => exact State.closeFails_inv _ _ _ _ h
  all_goals exact State.unanswered_inv _ _ _ h
grind_pattern State.timedOut_inv => State.timedOut s o

theorem State.peerFailed_inv (s : State) (r : Nat) (h : s.inv = true) : (State.peerFailed s r).inv = true := by
  unfold State.peerFailed
  grind
grind_pattern State.peerFailed_inv => State.peerFailed s r

theorem State.setPort_inv (s : State) (p : Nat) (x : FabPort) (h : s.inv = true) :
    (State.setPort s p x).inv = true := by
  unfold State.setPort
  grind
grind_pattern State.setPort_inv => State.setPort s p x

theorem State.keyPorts_inv (s : State) (h : s.inv = true) : (State.keyPorts s).inv = true := by
  unfold State.keyPorts
  grind
grind_pattern State.keyPorts_inv => State.keyPorts s

theorem State.reply_inv (s : State) (r : Reply) (h : s.inv = true) : (State.reply s r).inv = true := by
  unfold State.reply
  grind
grind_pattern State.reply_inv => State.reply s r

theorem State.timeInput_inv (s : State) (offset : ℤ) (h : s.inv = true) :
    (State.timeInput s offset).inv = true := by
  unfold State.timeInput
  grind
grind_pattern State.timeInput_inv => State.timeInput s offset

theorem State.serveOne_inv (s : State) (o : Outstanding) (h : s.inv = true) : (State.serveOne s o).inv = true := by
  unfold State.serveOne
  grind [Served.inv]
grind_pattern State.serveOne_inv => State.serveOne s o

theorem State.ownAnswers_inv (s : State) (h : s.inv = true) : (State.ownAnswers s).inv = true := by
  unfold State.ownAnswers
  grind
grind_pattern State.ownAnswers_inv => State.ownAnswers s

theorem State.serveOwn_inv (s : State) (h : s.inv = true) : (State.serveOwn s).inv = true := by
  unfold State.serveOwn
  grind
grind_pattern State.serveOwn_inv => State.serveOwn s

theorem State.findPorts_inv (s : State) (h : s.inv = true) : (State.findPorts s).inv = true := by
  unfold State.findPorts
  grind
grind_pattern State.findPorts_inv => State.findPorts s

theorem State.upkeep_inv (s : State) (h : s.inv = true) : (State.upkeep s).inv = true := by
  unfold State.upkeep
  grind
grind_pattern State.upkeep_inv => State.upkeep s

/-! ## Device -/

theorem State.tripNow_inv (s : State) (h : s.inv = true) : (State.tripNow s).inv = true := by
  unfold State.tripNow
  grind
grind_pattern State.tripNow_inv => State.tripNow s

theorem State.restart_inv (s : State) (h : s.inv = true) : (State.restart s).inv = true := by
  rw [inv_eq, invOf_iff] at h ⊢
  exact ⟨Store.wf_filter _ h.1, (by decide : 1800 ≤ (3600 : Word).toNat ∧ (3600 : Word).toNat ≤ 3600), Nat.zero_le 4, rfl⟩
grind_pattern State.restart_inv => State.restart s

theorem State.fenceSlice_inv (s : State) (u : FenceUnit) (die : Nat) (h : s.inv = true) :
    (State.fenceSlice s u die).inv = true := by
  unfold State.fenceSlice
  grind
grind_pattern State.fenceSlice_inv => State.fenceSlice s u die

/-! ## Step -/

theorem State.withFetchWord_inv (s : State) (nbits w : Nat) (h : s.inv = true) :
    (State.withFetchWord s nbits w).inv = true := by
  unfold State.withFetchWord
  grind
grind_pattern State.withFetchWord_inv => State.withFetchWord s nbits w

end Sys2Proof.Machine
end

