-- ==== Sys2Proof/Laws/Meanings.lean ====
section
/-!
SUPPORT. Every meaning keeps the invariant, one lemma a meaning.
-/

set_option linter.unusedVariables false

namespace Sys2Proof.Machine

open Sys2Proof

/-! ## Memory -/

theorem execMemoryReadResponse_inv (tid p id : Nat) (s : State) (h : s.inv = true) :
    outInv (execMemoryReadResponse tid p id s) = true := by
  unfold execMemoryReadResponse
  grind

theorem execVld_inv (d : VReg) (a : SReg) (b : BOp) (o : Option Sys2Proof.Ord) (pol : Policy) (z : Size) (s : State)
    (h : s.inv = true) : outInv (execVld d a b o pol z s) = true := by
  unfold execVld
  exact runTeam_inv _ _ _ h (fun w t q s h => by grind)

theorem execSld_inv (d a : SReg) (b : SOp) (z : Size) (o : Sys2Proof.Ord) (pol : Policy) (s : State)
    (h : s.inv = true) : outInv (execSld d a b z o pol s) = true := by
  unfold execSld
  exact runTeam_inv _ _ _ h (fun w t q s h => by grind)

theorem execVst_inv (d : VReg) (a : SReg) (b : BOp) (o : Option Sys2Proof.Ord) (pol : Policy) (z : Size) (s : State)
    (h : s.inv = true) : outInv (execVst d a b o pol z s) = true := by
  unfold execVst
  exact runTeam_inv _ _ _ h (fun w t q s h => by grind)

theorem execSst_inv (d a : SReg) (b : SOp) (z : Size) (o : Sys2Proof.Ord) (pol : Policy) (s : State)
    (h : s.inv = true) : outInv (execSst d a b z o pol s) = true := by
  unfold execSst
  exact runTeam_inv _ _ _ h (fun w t q s h => by grind)

theorem execVldg_inv (d : VReg) (a : SReg) (b : BOp) (o : Option Sys2Proof.Ord) (pol : Policy) (z : Size)
    (s : State) (h : s.inv = true) : outInv (execVldg d a b o pol z s) = true := by
  unfold execVldg
  exact runTeam_inv _ _ _ h (fun w t q s h => by grind)

theorem execVldgPart_inv (d : VReg) (a : SReg) (b : BOp) (o : Option Sys2Proof.Ord) (pol : Policy) (z : Size)
    (m : SReg) (s : State) (h : s.inv = true) : outInv (execVldgPart d a b o pol z m s) = true := by
  unfold execVldgPart
  exact runTeam_inv _ _ _ h (fun w t q s h => by grind)

theorem execVsts_inv (d : VReg) (a : SReg) (b : BOp) (o : Option Sys2Proof.Ord) (pol : Policy) (z : Size)
    (s : State) (h : s.inv = true) : outInv (execVsts d a b o pol z s) = true := by
  unfold execVsts
  exact runTeam_inv _ _ _ h (fun w t q s h => by grind)

theorem execLld_inv (d : VReg) (a : SReg) (b : BOp) (z : Size) (s : State) (h : s.inv = true) :
    outInv (execLld d a b z s) = true := by
  unfold execLld
  exact runTeam_inv _ _ _ h (fun w t q s h => by grind)

theorem execLst_inv (d : VReg) (a : SReg) (b : BOp) (z : Size) (s : State) (h : s.inv = true) :
    outInv (execLst d a b z s) = true := by
  unfold execLst
  exact runTeam_inv _ _ _ h (fun w t q s h => by grind)

theorem execAld_inv (wide : Bool) (d : VReg) (a : SReg) (c : BitVec 4) (s : State) (h : s.inv = true) :
    outInv (execAld wide d a c s) = true := by
  unfold execAld
  exact runTeam_inv _ _ _ h (fun w t q s h => by grind)

theorem execAst_inv (wide : Bool) (d : VReg) (a : SReg) (c : BitVec 4) (s : State) (h : s.inv = true) :
    outInv (execAst wide d a c s) = true := by
  unfold execAst
  exact runTeam_inv _ _ _ h (fun w t q s h => by grind)

theorem execPref_inv (a : SReg) (b : SOp) (pol : Policy) (s : State) (h : s.inv = true) :
    outInv (execPref a b pol s) = true := by
  unfold execPref
  exact runTeam_inv _ _ _ h (fun w t q s h => by grind)

theorem execFence_inv (x : Strength) (c : Scope) (s : State) (h : s.inv = true) :
    outInv (execFence x c s) = true := by
  unfold execFence
  exact runTeam_inv _ _ _ h (fun w t q s h => by grind)

theorem execCclean_inv (a : SReg) (b : SOp) (c : Scope) (s : State) (h : s.inv = true) :
    outInv (execCclean a b c s) = true := by
  unfold execCclean
  exact runTeam_inv _ _ _ h (fun w t q s h => by grind)

theorem execCinval_inv (a : SReg) (b : SOp) (c : Scope) (s : State) (h : s.inv = true) :
    outInv (execCinval a b c s) = true := by
  unfold execCinval
  exact runTeam_inv _ _ _ h (fun w t q s h => by grind)

/-! ## Atomics -/

theorem execVatom_inv (op : AOp) (ty : ATy) (o : Sys2Proof.Ord) (d : VReg) (a : SReg) (b : BOp) (s : State)
    (h : s.inv = true) : outInv (execVatom op ty o d a b s) = true := by
  unfold execVatom
  exact runTeam_inv _ _ _ h (fun w t q s h => by grind)

theorem execSatom_inv (op : AOp) (ty : ATy) (o : Sys2Proof.Ord) (d a : SReg) (b : SOp) (s : State)
    (h : s.inv = true) : outInv (execSatom op ty o d a b s) = true := by
  unfold execSatom
  exact runTeam_inv _ _ _ h (fun w t q s h => by grind)

theorem execVredm_inv (op : AOp) (ty : ATy) (o : Sys2Proof.Ord) (d : VReg) (a : SReg) (b : BOp) (s : State)
    (h : s.inv = true) : outInv (execVredm op ty o d a b s) = true := by
  unfold execVredm
  refine runTeam_inv _ _ _ h (fun w t q s h => ?_)
  dsimp only
  split
  · rfl
  · split
    · exact h
    · split
      · next e => exact of_pair e (State.translateStores_inv _ _ _ _ _ _ h)
      · next e =>
        have h := of_pair e (State.translateStores_inv _ _ _ _ _ _ h)
        split
        · exact h
        · split
          · rfl
          · split
            · rfl
            · next e =>
              have h := of_pair e (ite_inv (State.release_inv _ _ _ _ _ _ h) h)
              split
              · exact h
              · split
                · next e =>
                  refine of_pair e (State.hostLanes_inv _ _ ?_)
                  split
                  · exact h
                  · exact State.reachLanes_inv _ _ _ h
                · next e =>
                  have h := of_pair e (State.hostLanes_inv _ _ (by
                    split
                    · exact h
                    · exact State.reachLanes_inv _ _ _ h))
                  have h := State.promote_inv _ ((OrdForm.atomic.eff (some o)).scope == .dvRem && (OrdForm.atomic.eff (some o)).str == .acq) h
                  split
                  · exact h
                  · refine State.modParty_inv _ _ _ _ ?_
                    split
                    · exact State.redLanes_inv _ _ _ _ _ _ _ _ _ h
                    · exact State.applyReductions_inv _ _ (State.redLanes_inv _ _ _ _ _ _ _ _ _ h)

theorem execLredm_inv (op : AOp) (ty : ATy) (o : Sys2Proof.Ord) (d : VReg) (a : SReg) (b : BOp) (s : State)
    (h : s.inv = true) : outInv (execLredm op ty o d a b s) = true := by
  unfold execLredm
  exact runTeam_inv _ _ _ h (fun w t q s h => by grind)

theorem execReductionEntryApply_inv (die sector : Nat) (s : State) (h : s.inv = true) :
    outInv (execReductionEntryApply die sector s) = true := by
  unfold execReductionEntryApply
  grind

/-! ## Control -/

theorem execBr_inv (o : BitVec 22) (s : State) (h : s.inv = true) : outInv (execBr o s) = true := by
  unfold execBr
  exact runParty_inv _ _ _ h (fun w s h => by grind)

theorem execCall_inv (o : BitVec 22) (s : State) (h : s.inv = true) : outInv (execCall o s) = true := by
  unfold execCall
  exact runParty_inv _ _ _ h (fun w s h => by grind)

theorem execBc_inv (t : BTest) (a : SReg) (o : BitVec 14) (s : State) (h : s.inv = true) :
    outInv (execBc t a o s) = true := by
  unfold execBc
  exact runParty_inv _ _ _ h (fun w s h => by grind)

theorem execBdiv_inv (a : SReg) (o : BitVec 14) (s : State) (h : s.inv = true) :
    outInv (execBdiv a o s) = true := by
  unfold execBdiv
  exact runTeam_inv _ _ _ h (fun w t q s h => by grind)

theorem execNop_inv (s : State) (h : s.inv = true) : outInv (execNop s) = true := by
  unfold execNop
  exact runRegs_inv _ _ _ h

theorem execJoin_inv (s : State) (h : s.inv = true) : outInv (execJoin s) = true := by
  unfold execJoin
  exact runTeam_inv _ _ _ h (fun w t q s h => by grind)

theorem execRet_inv (s : State) (h : s.inv = true) : outInv (execRet s) = true := by
  unfold execRet
  exact runParty_inv _ _ _ h (fun w s h => by grind)

theorem execJmpi_inv (a : SReg) (s : State) (h : s.inv = true) : outInv (execJmpi a s) = true := by
  unfold execJmpi
  exact runParty_inv _ _ _ h (fun w s h => by grind)

theorem execExit_inv (s : State) (h : s.inv = true) : outInv (execExit s) = true := by
  unfold execExit
  exact runTeam_inv _ _ _ h (fun w t q s h => by grind)

theorem execYield_inv (s : State) (h : s.inv = true) : outInv (execYield s) = true := by
  unfold execYield
  exact runRegs_inv _ _ _ h

/-! ## Graph -/

theorem execEmit_inv (v : VReg) (e : BitVec 6) (j : SReg) (ns : Bool) (s : State) (h : s.inv = true) :
    outInv (execEmit v e j ns s) = true := by
  unfold execEmit
  exact runTeam_inv _ _ _ h (fun w t q s h => by grind)

theorem execEmitr_inv (v : VReg) (e : BitVec 6) (r : BOp) (ns : Bool) (s : State) (h : s.inv = true) :
    outInv (execEmitr v e r ns s) = true := by
  unfold execEmitr
  exact runTeam_inv _ _ _ h (fun w t q s h => by grind)

theorem execRget_inv (d : VReg) (n : BitVec 4) (i : BOp) (s : State) (h : s.inv = true) :
    outInv (execRget d n i s) = true := by
  unfold execRget
  exact runTeam_inv _ _ _ h (fun w t q s h => by grind)

theorem execRdone_inv (d : SReg) (s : State) (h : s.inv = true) : outInv (execRdone d s) = true := by
  unfold execRdone
  exact runTeam_inv _ _ _ h (fun w t q s h => by grind)

theorem execDget_inv (src : DgetSrc) (hd0 : BitVec 4) (s : State) (h : s.inv = true) :
    outInv (execDget src hd0 s) = true := by
  unfold execDget
  exact runTeam_inv _ _ _ h (fun w t q s h => by grind)

theorem execFutnew_inv (d c : SReg) (s : State) (h : s.inv = true) : outInv (execFutnew d c s) = true := by
  unfold execFutnew
  exact runTeam_inv _ _ _ h (fun w t q s h => by grind)

theorem execFutreg_inv (j : SReg) (e : BitVec 6) (v : VReg) (s : State) (h : s.inv = true) :
    outInv (execFutreg j e v s) = true := by
  unfold execFutreg
  exact runTeam_inv _ _ _ h (fun w t q s h => by grind [Registered.inv])

theorem execFutres_inv (j n : SReg) (f : FutForm) (s : State) (h : s.inv = true) :
    outInv (execFutres j n f s) = true := by
  unfold execFutres
  exact runTeam_inv _ _ _ h (fun w t q s h => by grind)

theorem execFutst_inv (d j : SReg) (s : State) (h : s.inv = true) : outInv (execFutst d j s) = true := by
  unfold execFutst
  exact runTeam_inv _ _ _ h (fun w t q s h => by grind)

/-! ## Barrier -/

theorem execBarArrive_inv (c : BarScope) (b : BitVec 4) (s : State) (h : s.inv = true) :
    outInv (execBarArrive c b s) = true := by
  unfold execBarArrive
  exact runTeam_inv _ _ _ h (fun w t q s h => arriveEffect_inv _ _ _ _ _ _ _ h (fun s n h => by grind))

theorem execBarWait_inv (c : BarScope) (b : BitVec 4) (s : State) (h : s.inv = true) :
    outInv (execBarWait c b s) = true := by
  unfold execBarWait
  exact runTeam_inv _ _ _ h (fun w t q s h => by grind)

theorem execBarSync_inv (c : BarScope) (b : BitVec 4) (s : State) (h : s.inv = true) :
    outInv (execBarSync c b s) = true := by
  unfold execBarSync; exact runTeam_inv _ _ _ h (fun w t q s h => by
    split
    · exact waitEffect_inv _ _ _ _ _ _ h
    · exact arriveEffect_inv _ _ _ _ _ _ _ h (fun s n h => by split <;> grind))

theorem execBarrierPhaseComplete_inv (r : BarRef) (s : State) (h : s.inv = true) :
    outInv (execBarrierPhaseComplete r s) = true := by
  unfold execBarrierPhaseComplete
  grind

theorem execRunBarrierMessage_inv (run : Nat) (part : Nat × Nat × Nat) (s : State) (h : s.inv = true) :
    outInv (execRunBarrierMessage run part s) = true := by
  unfold execRunBarrierMessage
  grind

/-! ## Convoy -/

theorem execCvopen_inv (d a : SReg) (view : Bool) (s : State) (h : s.inv = true) :
    outInv (execCvopen d a view s) = true := by
  unfold execCvopen
  refine runTeam_inv _ _ _ h (fun w t q s h => ?_)
  dsimp only
  generalize (if a = 0 then s.rank.toNat else _ : Nat) = home
  split
  · split
    · rfl
    · exact State.modParty_inv _ _ _ _ h
  · split
    · exact h
    · split
      · rfl
      · split
        · exact State.modParty_inv _ _ _ _ (State.useFree_inv _ h)
        · split
          · split
            · rfl
            · next e =>
              have h2 := State.useFree_inv _ (State.useFree_inv _ (State.allocConvoy_inv _ _ _ _ h e))
              exact State.modParty_inv _ _ _ _ h2
          · have h2 := State.useFree_inv _ h
            exact State.request_inv _ _ _ _ _ _ _ _ _ _ _ _ _ _ _ _ h2

theorem execCvstat_inv (d tok : SReg) (s : State) (h : s.inv = true) : outInv (execCvstat d tok s) = true := by
  unfold execCvstat
  exact runTeam_inv _ _ _ h (fun w t q s h => by grind)

theorem execCvclose_inv (d tok : SReg) (s : State) (h : s.inv = true) : outInv (execCvclose d tok s) = true := by
  unfold execCvclose
  exact runTeam_inv _ _ _ h (fun w t q s h => by grind)

theorem execConvoyCommit_inv (slot : Nat) (s : State) (h : s.inv = true) :
    outInv (execConvoyCommit slot s) = true := by
  unfold execConvoyCommit
  grind

theorem execCvcloseDone_inv (tid p : Nat) (s : State) (h : s.inv = true) :
    outInv (execCvcloseDone tid p s) = true := by
  unfold execCvcloseDone
  grind

theorem execCvst_inv (d : VReg) (a : SReg) (b : BOp) (o : Option Sys2Proof.Ord) (pol : Policy) (z : Size)
    (tok : SReg) (s : State) (h : s.inv = true) : outInv (execCvst d a b o pol z tok s) = true := by
  unfold execCvst
  exact runTeam_inv _ _ _ h (fun w t q s h => by dsimp only; (repeat' split); all_goals grind)

theorem execCvld_inv (d : VReg) (a : SReg) (b : BOp) (o : Option Sys2Proof.Ord) (pol : Policy) (z : Size)
    (tok : SReg) (s : State) (h : s.inv = true) : outInv (execCvld d a b o pol z tok s) = true := by
  unfold execCvld
  exact runTeam_inv _ _ _ h (fun w t q s h => by grind)

/-! ## Copy -/

theorem execCpy_inv (d : SReg) (ch : BitVec 3) (hd hs : BitVec 4) (scope : Scope) (s : State) (h : s.inv = true) :
    outInv (execCpy d ch hd hs scope s) = true := by
  unfold execCpy
  exact runTeam_inv _ _ _ h (fun w t q s h => by grind)

theorem execCpg_inv (d : SReg) (ch : BitVec 3) (hd hs : BitVec 4) (scope : Scope) (v : VReg) (s : State)
    (h : s.inv = true) : outInv (execCpg d ch hd hs scope v s) = true := by
  unfold execCpg
  exact runTeam_inv _ _ _ h (fun w t q s h => by grind)

theorem execCps_inv (d : SReg) (ch : BitVec 3) (hd hs : BitVec 4) (scope : Scope) (v : VReg) (s : State)
    (h : s.inv = true) : outInv (execCps d ch hd hs scope v s) = true := by
  unfold execCps
  exact runTeam_inv _ _ _ h (fun w t q s h => by grind)

theorem execCpm_inv (d : SReg) (ch : BitVec 3) (hs : BitVec 4) (scope : Scope) (m : SReg) (s : State)
    (h : s.inv = true) : outInv (execCpm d ch hs scope m s) = true := by
  unfold execCpm
  exact runTeam_inv _ _ _ h (fun w t q s h => by grind)

theorem execCpwpRead_inv (d : SReg) (ch : BitVec 3) (s : State) (h : s.inv = true) :
    outInv (execCpwpRead d ch s) = true := by
  unfold execCpwpRead
  exact runTeam_inv _ _ _ h (fun w t q s h => by grind)

theorem execCpwpWait_inv (d : SReg) (ch : BitVec 3) (k : SReg) (s : State) (h : s.inv = true) :
    outInv (execCpwpWait d ch k s) = true := by
  unfold execCpwpWait
  exact runTeam_inv _ _ _ h (fun w t q s h => by grind)

theorem execCpwpAck_inv (m : BitVec 2) (k : SReg) (s : State) (h : s.inv = true) :
    outInv (execCpwpAck m k s) = true := by
  unfold execCpwpAck
  exact runTeam_inv _ _ _ h (fun w t q s h => by grind)

theorem execCpwpRecv_inv (d : SReg) (m : BitVec 2) (s : State) (h : s.inv = true) :
    outInv (execCpwpRecv d m s) = true := by
  unfold execCpwpRecv
  exact runTeam_inv _ _ _ h (fun w t q s h => by grind)

theorem execCpcan_inv (ch : BitVec 3) (s : State) (h : s.inv = true) : outInv (execCpcan ch s) = true := by
  unfold execCpcan
  exact runParty_inv _ _ _ h (fun w s h => by grind)

theorem execCopyDeliver_inv (tid ch n : Nat) (s : State) (h : s.inv = true) :
    outInv (execCopyDeliver tid ch n s) = true := by
  unfold execCopyDeliver
  split
  · exact h
  · next t _ =>
    split
    · exact h
    · next c _ =>
      extract_lets d
      split
      · exact h
      · split
        · exact State.laterFault_inv _ _ _ _ _ _ h
        · split
          · exact h
          · split
            · next e =>
              exact State.laterFault_inv _ _ _ _ _ _ (State.usedBytes_inv _ _ (of_pair e (State.readAs_inv _ _ _ h
                fun s h => State.deliverAll_inv _ _ _ _ _ _ h)))
            · next e =>
              have h1 := of_pair e (State.readAs_inv _ _ _ h fun s h => State.deliverAll_inv _ _ _ _ _ _ h)
              exact State.landed_inv _ _ _ (State.setCmd_inv _ _ _ _ (State.usedBytes_inv _ _ h1))

theorem execCopyComplete_inv (tid ch : Nat) (s : State) (h : s.inv = true) :
    outInv (execCopyComplete tid ch s) = true := by
  unfold execCopyComplete
  grind

/-! ## System -/

theorem execTrap_inv (code : BitVec 12) (s : State) (h : s.inv = true) : outInv (execTrap code s) = true := by
  unfold execTrap
  exact runParty_inv _ _ _ h (fun w s h => by grind)

theorem execHcall_inv (d a : SReg) (b : SOp) (s : State) (h : s.inv = true) :
    outInv (execHcall d a b s) = true := by
  unfold execHcall
  exact runTeam_inv _ _ _ h (fun w t q s h => by grind)

theorem execRfe_inv (d a : SReg) (b : SOp) (s : State) (h : s.inv = true) : outInv (execRfe d a b s) = true := by
  unfold execRfe
  exact runTeam_inv _ _ _ h (fun w t q s h => by grind)

theorem execTlbrng_inv (d a b : SReg) (s : State) (h : s.inv = true) : outInv (execTlbrng d a b s) = true := by
  unfold execTlbrng
  exact runTeam_inv _ _ _ h (fun w t q s h => by grind)

theorem execTlbrngDone_inv (id : Nat) (s : State) (h : s.inv = true) : outInv (execTlbrngDone id s) = true := by
  unfold execTlbrngDone
  grind

theorem execWsld_inv (d a b : SReg) (s : State) (h : s.inv = true) : outInv (execWsld d a b s) = true := by
  unfold execWsld
  exact runTeam_inv _ _ _ h (fun w t q s h => by grind)

theorem execWsldComplete_inv (id : Nat) (s : State) (h : s.inv = true) : outInv (execWsldComplete id s) = true := by
  unfold execWsldComplete
  grind

/-! ## Matrix -/

theorem execKli_inv (k : BitVec 4) (v : BitVec 10) (s : State) (h : s.inv = true) :
    outInv (execKli k v s) = true := by
  unfold execKli
  grind

theorem execKliLiteral_inv (k : BitVec 4) (w : Word) (s : State) (h : s.inv = true) :
    outInv (execKliLiteral k w s) = true := by
  unfold execKliLiteral
  grind

theorem execKadd_inv (k a : BitVec 4) (v : BitVec 10) (s : State) (h : s.inv = true) :
    outInv (execKadd k a v s) = true := by
  unfold execKadd
  grind

theorem execKbr_inv (c : KCond) (a : BitVec 4) (o : BitVec 10) (s : State) (h : s.inv = true) :
    outInv (execKbr c a o s) = true := by
  unfold execKbr
  exact runSeq_inv _ _ _ h (fun tid t q s h => by grind)

theorem execMld_inv (m : BitVec 2) (hd0 k : BitVec 4) (ko : Bool) (s : State) (h : s.inv = true) :
    outInv (execMld m hd0 k ko s) = true := by
  unfold execMld
  exact runSeq_inv _ _ _ h (fun tid t q s h => by grind)

theorem execMrel_inv (m : BitVec 2) (s : State) (h : s.inv = true) : outInv (execMrel m s) = true := by
  unfold execMrel
  exact runSeq_inv _ _ _ h (fun tid t q s h => by grind)

theorem execMzero_inv (c : BitVec 4) (s : State) (h : s.inv = true) : outInv (execMzero c s) = true := by
  unfold execMzero
  exact runSeq_inv _ _ _ h (fun tid t q s h => by grind)

theorem execMma_inv (c : BitVec 4) (m : BitVec 2) (hd0 : BitVec 4) (ru : Bool) (k : BitVec 4) (ko zs : Bool)
    (s : State) (h : s.inv = true) : outInv (execMma c m hd0 ru k ko zs s) = true := by
  unfold execMma
  exact runSeq_inv _ _ _ h (fun tid t q s h => by grind)

theorem execMmt_inv (c : BitVec 4) (m : BitVec 2) (hd0 : BitVec 4) (ru : Bool) (k : BitVec 4) (ko zs : Bool)
    (s : State) (h : s.inv = true) : outInv (execMmt c m hd0 ru k ko zs s) = true := by
  unfold execMmt
  exact runSeq_inv _ _ _ h (fun tid t q s h => by grind)

theorem execMst_inv (c hd0 k : BitVec 4) (ko : Bool) (s : State) (h : s.inv = true) :
    outInv (execMst c hd0 k ko s) = true := by
  unfold execMst
  exact runSeq_inv _ _ _ h (fun tid t q s h => by grind)

theorem execMscl_inv (c hd0 : BitVec 4) (s : State) (h : s.inv = true) : outInv (execMscl c hd0 s) = true := by
  unfold execMscl
  exact runSeq_inv _ _ _ h (fun tid t q s h => by grind)

theorem execMchk_inv (k : BitVec 4) (s : State) (h : s.inv = true) : outInv (execMchk k s) = true := by
  unfold execMchk
  exact runSeq_inv _ _ _ h (fun tid t q s h => by grind)

theorem execMbar_inv (b : BitVec 4) (s : State) (h : s.inv = true) : outInv (execMbar b s) = true := by
  unfold execMbar
  exact runSeq_inv _ _ _ h (fun tid t q s h => by grind)

/-! ## Placement -/

theorem execTeamPlacement_inv (die : Nat) (cores : List Nat) (nos : List Word) (s : State) (h : s.inv = true) :
    outInv (execTeamPlacement die cores nos s) = true := by
  unfold execTeamPlacement
  split <;> grind

theorem execTeamResume_inv (tid : Nat) (cores : List Nat) (s : State) (h : s.inv = true) :
    outInv (execTeamResume tid cores s) = true := by
  unfold execTeamResume
  grind

/-! ## Runs -/

theorem execStalledEmissionAccept_inv (id : Nat) (s : State) (h : s.inv = true) :
    outInv (execStalledEmissionAccept id s) = true := by
  unfold execStalledEmissionAccept
  grind

theorem execSpillRefill_inv (run die node : Nat) (s : State) (h : s.inv = true) :
    outInv (execSpillRefill run die node s) = true := by
  unfold execSpillRefill
  grind

theorem execGatherWindowExpiry_inv (run die node : Nat) (s : State) (h : s.inv = true) :
    outInv (execGatherWindowExpiry run die node s) = true := by
  unfold execGatherWindowExpiry
  grind

theorem execRunSeed_inv (run die : Nat) (s : State) (h : s.inv = true) : outInv (execRunSeed run die s) = true := by
  unfold execRunSeed
  grind

theorem execRunComplete_inv (run : Nat) (s : State) (h : s.inv = true) : outInv (execRunComplete run s) = true := by
  unfold execRunComplete
  grind

theorem execTeamRetire_inv (tid : Nat) (s : State) (h : s.inv = true) : outInv (execTeamRetire tid s) = true := by
  unfold execTeamRetire
  grind

theorem execFaultStop_inv (tid : Nat) (s : State) (h : s.inv = true) : outInv (execFaultStop tid s) = true := by
  unfold execFaultStop
  grind

theorem execGraphDeadlockDetect_inv (run die : Nat) (nodes : List Nat) (s : State) (h : s.inv = true) :
    outInv (execGraphDeadlockDetect run die nodes s) = true := by
  unfold execGraphDeadlockDetect
  grind

/-! ## Scalar -/

theorem execSadd_inv (d a : SReg) (b : SOp) (s : State) (h : s.inv = true) : outInv (execSadd d a b s) = true := by
  unfold execSadd
  grind

theorem execSsub_inv (d a : SReg) (b : SOp) (s : State) (h : s.inv = true) : outInv (execSsub d a b s) = true := by
  unfold execSsub
  grind

theorem execSmul_inv (d a : SReg) (b : SOp) (s : State) (h : s.inv = true) : outInv (execSmul d a b s) = true := by
  unfold execSmul
  grind

theorem execSmulhI32_inv (d a : SReg) (b : SOp) (s : State) (h : s.inv = true) :
    outInv (execSmulhI32 d a b s) = true := by
  unfold execSmulhI32
  grind

theorem execSmulhN32_inv (d a : SReg) (b : SOp) (s : State) (h : s.inv = true) :
    outInv (execSmulhN32 d a b s) = true := by
  unfold execSmulhN32
  grind

theorem execSand_inv (d a : SReg) (b : SOp) (s : State) (h : s.inv = true) : outInv (execSand d a b s) = true := by
  unfold execSand
  grind

theorem execSor_inv (d a : SReg) (b : SOp) (s : State) (h : s.inv = true) : outInv (execSor d a b s) = true := by
  unfold execSor
  grind

theorem execSxor_inv (d a : SReg) (b : SOp) (s : State) (h : s.inv = true) : outInv (execSxor d a b s) = true := by
  unfold execSxor
  grind

theorem execSshl_inv (d a : SReg) (b : SOp) (s : State) (h : s.inv = true) : outInv (execSshl d a b s) = true := by
  unfold execSshl
  grind

theorem execSshr_inv (d a : SReg) (b : SOp) (s : State) (h : s.inv = true) : outInv (execSshr d a b s) = true := by
  unfold execSshr
  grind

theorem execSsra_inv (d a : SReg) (b : SOp) (s : State) (h : s.inv = true) : outInv (execSsra d a b s) = true := by
  unfold execSsra
  grind

theorem execSminI32_inv (d a : SReg) (b : SOp) (s : State) (h : s.inv = true) :
    outInv (execSminI32 d a b s) = true := by
  unfold execSminI32
  grind

theorem execSminN32_inv (d a : SReg) (b : SOp) (s : State) (h : s.inv = true) :
    outInv (execSminN32 d a b s) = true := by
  unfold execSminN32
  grind

theorem execSmaxI32_inv (d a : SReg) (b : SOp) (s : State) (h : s.inv = true) :
    outInv (execSmaxI32 d a b s) = true := by
  unfold execSmaxI32
  grind

theorem execSmaxN32_inv (d a : SReg) (b : SOp) (s : State) (h : s.inv = true) :
    outInv (execSmaxN32 d a b s) = true := by
  unfold execSmaxN32
  grind

theorem execSmov_inv (d a : SReg) (s : State) (h : s.inv = true) : outInv (execSmov d a s) = true := by
  unfold execSmov
  grind

theorem execSpopc_inv (d a : SReg) (s : State) (h : s.inv = true) : outInv (execSpopc d a s) = true := by
  unfold execSpopc
  grind

theorem execSclz_inv (d a : SReg) (s : State) (h : s.inv = true) : outInv (execSclz d a s) = true := by
  unfold execSclz
  grind

theorem execSffs_inv (d a : SReg) (s : State) (h : s.inv = true) : outInv (execSffs d a s) = true := by
  unfold execSffs
  grind

theorem execScmp_inv (c : ICond) (d a : SReg) (b : SOp) (s : State) (h : s.inv = true) :
    outInv (execScmp c d a b s) = true := by
  unfold execScmp
  grind

theorem execSsel_inv (c d a : SReg) (b : SOp) (s : State) (h : s.inv = true) :
    outInv (execSsel c d a b s) = true := by
  unfold execSsel
  exact runRegs_inv _ _ _ h

theorem execSaddImm_inv (d a : SReg) (i : BitVec 14) (s : State) (h : s.inv = true) :
    outInv (execSaddImm d a i s) = true := by
  unfold execSaddImm
  grind

theorem execSandImm_inv (d a : SReg) (i : BitVec 14) (s : State) (h : s.inv = true) :
    outInv (execSandImm d a i s) = true := by
  unfold execSandImm
  grind

theorem execSorImm_inv (d a : SReg) (i : BitVec 14) (s : State) (h : s.inv = true) :
    outInv (execSorImm d a i s) = true := by
  unfold execSorImm
  grind

theorem execSshlImm_inv (d a : SReg) (n : BitVec 5) (s : State) (h : s.inv = true) :
    outInv (execSshlImm d a n s) = true := by
  unfold execSshlImm
  grind

theorem execSshrImm_inv (d a : SReg) (n : BitVec 5) (s : State) (h : s.inv = true) :
    outInv (execSshrImm d a n s) = true := by
  unfold execSshrImm
  grind

theorem execSsraImm_inv (d a : SReg) (n : BitVec 5) (s : State) (h : s.inv = true) :
    outInv (execSsraImm d a n s) = true := by
  unfold execSsraImm
  grind

theorem execSbfx_inv (d a : SReg) (sign : Bool) (lsb w : BitVec 5) (s : State) (h : s.inv = true) :
    outInv (execSbfx d a sign lsb w s) = true := by
  unfold execSbfx
  grind

theorem execSbfi_inv (d a : SReg) (lsb w : BitVec 5) (s : State) (h : s.inv = true) :
    outInv (execSbfi d a lsb w s) = true := by
  unfold execSbfi
  exact runRegs_inv _ _ _ h

theorem execSli_inv (d : SReg) (i : BitVec 20) (s : State) (h : s.inv = true) : outInv (execSli d i s) = true := by
  unfold execSli
  exact runRegs_inv _ _ _ h

theorem execSlui_inv (d : SReg) (i : BitVec 20) (s : State) (h : s.inv = true) :
    outInv (execSlui d i s) = true := by
  unfold execSlui
  exact runRegs_inv _ _ _ h

/-! ## VecInt -/

theorem execVadd_inv (t : ITy) (d a : VReg) (b : BOp) (s : State) (h : s.inv = true) :
    outInv (execVadd t d a b s) = true := by
  unfold execVadd
  grind

theorem execVsub_inv (t : ITy) (d a : VReg) (b : BOp) (s : State) (h : s.inv = true) :
    outInv (execVsub t d a b s) = true := by
  unfold execVsub
  grind

theorem execVmul_inv (t : ITy) (d a : VReg) (b : BOp) (s : State) (h : s.inv = true) :
    outInv (execVmul t d a b s) = true := by
  unfold execVmul
  grind

theorem execVmulhSigned_inv (t : ITy) (d a : VReg) (b : BOp) (s : State) (h : s.inv = true) :
    outInv (execVmulhSigned t d a b s) = true := by
  unfold execVmulhSigned
  grind

theorem execVmulhUnsigned_inv (t : ITy) (d a : VReg) (b : BOp) (s : State) (h : s.inv = true) :
    outInv (execVmulhUnsigned t d a b s) = true := by
  unfold execVmulhUnsigned
  grind

theorem execVmac_inv (t : ITy) (d a : VReg) (b : BOp) (s : State) (h : s.inv = true) :
    outInv (execVmac t d a b s) = true := by
  unfold execVmac
  grind

theorem execVand_inv (t : ITy) (d a : VReg) (b : BOp) (s : State) (h : s.inv = true) :
    outInv (execVand t d a b s) = true := by
  unfold execVand
  grind

theorem execVor_inv (t : ITy) (d a : VReg) (b : BOp) (s : State) (h : s.inv = true) :
    outInv (execVor t d a b s) = true := by
  unfold execVor
  grind

theorem execVxor_inv (t : ITy) (d a : VReg) (b : BOp) (s : State) (h : s.inv = true) :
    outInv (execVxor t d a b s) = true := by
  unfold execVxor
  grind

theorem execVnot_inv (t : ITy) (d a : VReg) (s : State) (h : s.inv = true) : outInv (execVnot t d a s) = true := by
  unfold execVnot
  grind

theorem execVshl_inv (t : ITy) (d a : VReg) (b : BOp) (s : State) (h : s.inv = true) :
    outInv (execVshl t d a b s) = true := by
  unfold execVshl
  grind

theorem execVshr_inv (t : ITy) (d a : VReg) (b : BOp) (s : State) (h : s.inv = true) :
    outInv (execVshr t d a b s) = true := by
  unfold execVshr
  grind

theorem execVsra_inv (t : ITy) (d a : VReg) (b : BOp) (s : State) (h : s.inv = true) :
    outInv (execVsra t d a b s) = true := by
  unfold execVsra
  grind

theorem execVminSigned_inv (t : ITy) (d a : VReg) (b : BOp) (s : State) (h : s.inv = true) :
    outInv (execVminSigned t d a b s) = true := by
  unfold execVminSigned
  grind

theorem execVminUnsigned_inv (t : ITy) (d a : VReg) (b : BOp) (s : State) (h : s.inv = true) :
    outInv (execVminUnsigned t d a b s) = true := by
  unfold execVminUnsigned
  grind

theorem execVmaxSigned_inv (t : ITy) (d a : VReg) (b : BOp) (s : State) (h : s.inv = true) :
    outInv (execVmaxSigned t d a b s) = true := by
  unfold execVmaxSigned
  grind

theorem execVmaxUnsigned_inv (t : ITy) (d a : VReg) (b : BOp) (s : State) (h : s.inv = true) :
    outInv (execVmaxUnsigned t d a b s) = true := by
  unfold execVmaxUnsigned
  grind

theorem execVabs_inv (t : ITy) (d a : VReg) (s : State) (h : s.inv = true) : outInv (execVabs t d a s) = true := by
  unfold execVabs
  grind

theorem execVneg_inv (t : ITy) (d a : VReg) (s : State) (h : s.inv = true) : outInv (execVneg t d a s) = true := by
  unfold execVneg
  grind

theorem execVpopc_inv (t : ITy) (d a : VReg) (s : State) (h : s.inv = true) :
    outInv (execVpopc t d a s) = true := by
  unfold execVpopc
  grind

theorem execVclz_inv (t : ITy) (d a : VReg) (s : State) (h : s.inv = true) : outInv (execVclz t d a s) = true := by
  unfold execVclz
  grind

theorem execVmov_inv (t : ITy) (d a : VReg) (s : State) (h : s.inv = true) : outInv (execVmov t d a s) = true := by
  unfold execVmov
  grind

theorem execVsel_inv (t : ITy) (d a : VReg) (b : BOp) (s : State) (h : s.inv = true) :
    outInv (execVsel t d a b s) = true := by
  unfold execVsel
  grind

theorem execVcmp_inv (wide : Bool) (c : ICond) (sd : SReg) (a : VReg) (b : BOp) (s : State) (h : s.inv = true) :
    outInv (execVcmp wide c sd a b s) = true := by
  unfold execVcmp
  exact runRegs_inv _ _ _ h

theorem execVliLit_inv (d : VReg) (v : Word) (s : State) (h : s.inv = true) : outInv (execVliLit d v s) = true := by
  unfold execVliLit
  exact runRegs_inv _ _ _ h

theorem execVaddImm_inv (d a : VReg) (i : BitVec 12) (s : State) (h : s.inv = true) :
    outInv (execVaddImm d a i s) = true := by
  unfold execVaddImm
  grind

theorem execVli_inv (d : VReg) (i : BitVec 19) (s : State) (h : s.inv = true) : outInv (execVli d i s) = true := by
  unfold execVli
  exact runRegs_inv _ _ _ h

theorem execVbfx_inv (d a : VReg) (sign : Bool) (lsb w : BitVec 5) (s : State) (h : s.inv = true) :
    outInv (execVbfx d a sign lsb w s) = true := by
  unfold execVbfx
  grind

theorem execVbfi_inv (d a : VReg) (lsb w : BitVec 5) (s : State) (h : s.inv = true) :
    outInv (execVbfi d a lsb w s) = true := by
  unfold execVbfi
  grind

theorem execVshlImm_inv (d a : VReg) (n : BitVec 5) (s : State) (h : s.inv = true) :
    outInv (execVshlImm d a n s) = true := by
  unfold execVshlImm
  grind

theorem execVshrImm_inv (d a : VReg) (n : BitVec 5) (s : State) (h : s.inv = true) :
    outInv (execVshrImm d a n s) = true := by
  unfold execVshrImm
  grind

theorem execVsraImm_inv (d a : VReg) (n : BitVec 5) (s : State) (h : s.inv = true) :
    outInv (execVsraImm d a n s) = true := by
  unfold execVsraImm
  grind

/-! ## CrossLane -/

theorem execVperm_inv (d a : VReg) (b : BOp) (s : State) (h : s.inv = true) :
    outInv (execVperm d a b s) = true := by
  unfold execVperm
  exact runRegs_inv _ _ _ h

theorem execVbcast_inv (d a : VReg) (n : BitVec 7) (s : State) (h : s.inv = true) :
    outInv (execVbcast d a n s) = true := by
  unfold execVbcast
  exact runRegs_inv _ _ _ h

theorem execVxshf_inv (d a : VReg) (m : BitVec 7) (s : State) (h : s.inv = true) :
    outInv (execVxshf d a m s) = true := by
  unfold execVxshf
  exact runRegs_inv _ _ _ h

theorem execVred_inv (op : RedOp) (d a : VReg) (s : State) (h : s.inv = true) :
    outInv (execVred op d a s) = true := by
  unfold execVred
  exact runRegs_inv _ _ _ h

theorem execVscan_inv (op : RedOp) (excl : Bool) (d a : VReg) (s : State) (h : s.inv = true) :
    outInv (execVscan op excl d a s) = true := by
  unfold execVscan
  exact runRegs_inv _ _ _ h

theorem execVballot_inv (sd : SReg) (a : VReg) (s : State) (h : s.inv = true) :
    outInv (execVballot sd a s) = true := by
  unfold execVballot
  exact runRegs_inv _ _ _ h

theorem execVvote_inv (k : VoteKind) (sd : SReg) (a : VReg) (s : State) (h : s.inv = true) :
    outInv (execVvote k sd a s) = true := by
  unfold execVvote
  exact runRegs_inv _ _ _ h

/-! ## VecFloat -/

theorem execVfadd_inv (t : FTy) (d a : VReg) (b : BOp) (s : State) (h : s.inv = true) :
    outInv (execVfadd t d a b s) = true := by
  unfold execVfadd
  exact runRegs_inv _ _ _ h

theorem execVfsub_inv (t : FTy) (d a : VReg) (b : BOp) (s : State) (h : s.inv = true) :
    outInv (execVfsub t d a b s) = true := by
  unfold execVfsub
  exact runRegs_inv _ _ _ h

theorem execVfmul_inv (t : FTy) (d a : VReg) (b : BOp) (s : State) (h : s.inv = true) :
    outInv (execVfmul t d a b s) = true := by
  unfold execVfmul
  exact runRegs_inv _ _ _ h

theorem execVfma_inv (t : FTy) (d a : VReg) (b : BOp) (s : State) (h : s.inv = true) :
    outInv (execVfma t d a b s) = true := by
  unfold execVfma
  exact runRegs_inv _ _ _ h

theorem execVfms_inv (t : FTy) (d a : VReg) (b : BOp) (s : State) (h : s.inv = true) :
    outInv (execVfms t d a b s) = true := by
  unfold execVfms
  exact runRegs_inv _ _ _ h

theorem execVfmin_inv (t : FTy) (d a : VReg) (b : BOp) (s : State) (h : s.inv = true) :
    outInv (execVfmin t d a b s) = true := by
  unfold execVfmin
  exact runRegs_inv _ _ _ h

theorem execVfmax_inv (t : FTy) (d a : VReg) (b : BOp) (s : State) (h : s.inv = true) :
    outInv (execVfmax t d a b s) = true := by
  unfold execVfmax
  exact runRegs_inv _ _ _ h

theorem execVfcmp_inv (t : FTy) (c : FCond) (s : SReg) (a : VReg) (b : BOp) (st : State) (h : st.inv = true) :
    outInv (execVfcmp t c s a b st) = true := by
  unfold execVfcmp
  exact runRegs_inv _ _ _ h

theorem execVfexp_inv (t : FTy) (d a : VReg) (s : State) (h : s.inv = true) :
    outInv (execVfexp t d a s) = true := by
  unfold execVfexp
  exact runRegs_inv _ _ _ h

theorem execVfscl_inv (t : FTy) (d a : VReg) (b : BOp) (s : State) (h : s.inv = true) :
    outInv (execVfscl t d a b s) = true := by
  unfold execVfscl
  exact runRegs_inv _ _ _ h

theorem execVfclass_inv (t : FTy) (d a : VReg) (s : State) (h : s.inv = true) :
    outInv (execVfclass t d a s) = true := by
  unfold execVfclass
  exact runRegs_inv _ _ _ h

theorem execVf2sum_inv (wide : Bool) (d a : VReg) (b : BOp) (s : State) (h : s.inv = true) :
    outInv (execVf2sum wide d a b s) = true := by
  unfold execVf2sum
  exact runRegs_inv _ _ _ h

theorem execVfrnd_inv (t : FTy) (d a seed : VReg) (s : State) (h : s.inv = true) :
    outInv (execVfrnd t d a seed s) = true := by
  unfold execVfrnd
  exact runRegs_inv _ _ _ h

theorem execVfcvt_inv (d a : VReg) (df sf : Cvt) (sat : Bool) (s : State) (h : s.inv = true) :
    outInv (execVfcvt d a df sf sat s) = true := by
  unfold execVfcvt
  exact runRegs_inv _ _ _ h

theorem execVfcvtSr_inv (d a : VReg) (df sf : Cvt) (sat : Bool) (seed : VReg) (s : State) (h : s.inv = true) :
    outInv (execVfcvtSr d a df sf sat seed s) = true := by
  unfold execVfcvtSr
  exact runRegs_inv _ _ _ h

theorem execVrcp_inv (t : FTy) (d a : VReg) (s : State) (h : s.inv = true) : outInv (execVrcp t d a s) = true := by
  unfold execVrcp
  exact runRegs_inv _ _ _ h

theorem execVsqrt_inv (t : FTy) (d a : VReg) (s : State) (h : s.inv = true) :
    outInv (execVsqrt t d a s) = true := by
  unfold execVsqrt
  exact runRegs_inv _ _ _ h

theorem execVrsq_inv (t : FTy) (d a : VReg) (s : State) (h : s.inv = true) : outInv (execVrsq t d a s) = true := by
  unfold execVrsq
  exact runRegs_inv _ _ _ h

theorem execVexp2_inv (t : FTy) (d a : VReg) (s : State) (h : s.inv = true) :
    outInv (execVexp2 t d a s) = true := by
  unfold execVexp2
  exact runRegs_inv _ _ _ h

theorem execVlog2_inv (t : FTy) (d a : VReg) (s : State) (h : s.inv = true) :
    outInv (execVlog2 t d a s) = true := by
  unfold execVlog2
  exact runRegs_inv _ _ _ h

theorem execVsin_inv (t : FTy) (d a : VReg) (s : State) (h : s.inv = true) : outInv (execVsin t d a s) = true := by
  unfold execVsin
  exact runRegs_inv _ _ _ h

theorem execVcos_inv (t : FTy) (d a : VReg) (s : State) (h : s.inv = true) : outInv (execVcos t d a s) = true := by
  unfold execVcos
  exact runRegs_inv _ _ _ h

theorem execVtanh_inv (t : FTy) (d a : VReg) (s : State) (h : s.inv = true) :
    outInv (execVtanh t d a s) = true := by
  unfold execVtanh
  exact runRegs_inv _ _ _ h

theorem execVosmx_inv (d a b : VReg) (s : State) (h : s.inv = true) : outInv (execVosmx d a b s) = true := by
  unfold execVosmx
  exact runParty_inv _ _ _ h (fun w s h => by grind)

theorem execVosms_inv (d a : VReg) (s : State) (h : s.inv = true) : outInv (execVosms d a s) = true := by
  unfold execVosms
  exact runParty_inv _ _ _ h (fun w s h => by grind)

/-! ## Ssu -/

theorem execSsint_inv (d a b : SReg) (f : IntForm) (s : State) (h : s.inv = true) :
    outInv (execSsint d a b f s) = true := by
  unfold execSsint
  exact runTeam_inv _ _ _ h (fun w t q s h => by grind)

theorem execSsmerge_inv (d a b : SReg) (int keepz : Bool) (c : Comb) (s : State) (h : s.inv = true) :
    outInv (execSsmerge d a b int keepz c s) = true := by
  unfold execSsmerge
  exact runTeam_inv _ _ _ h (fun w t q s h => by grind)

theorem execSsscan_inv (d a b : SReg) (s : State) (h : s.inv = true) : outInv (execSsscan d a b s) = true := by
  unfold execSsscan
  exact runTeam_inv _ _ _ h (fun w t q s h => by grind)

theorem execSpx_inv (d a : SReg) (s : State) (h : s.inv = true) : outInv (execSpx d a s) = true := by
  unfold execSpx
  exact runTeam_inv _ _ _ h (fun w t q s h => by grind)

theorem execSsuComplete_inv (cluster core : Nat) (s : State) (h : s.inv = true) :
    outInv (execSsuComplete cluster core s) = true := by
  unfold execSsuComplete
  split
  · exact h
  · next c _ =>
    split
    · exact h
    · split
      · exact h
      · split
        · split
          · exact h
          · exact State.endSsu_inv _ _ _ _ _ h
        · split
          · exact h
          · have h1 := State.usedBytes_inv _ c.id (State.readAs_inv s { id := c.id, tid := c.tid, origin := c.origin, serial := true }
              (fun s => ((s.runSsu c).1.putSsu c (s.runSsu c).2 |>.1, (s.runSsu c).2,
                ((s.runSsu c).1.putSsu c (s.runSsu c).2).2)) h
              (fun s h => State.putSsu_inv _ _ _ (State.runSsu_inv s c h)))
            dsimp only
            split
            · exact State.laterFault_inv _ _ _ _ _ _ h1
            · split
              · exact h1
              · exact State.endSsu_inv _ _ _ _ _ h1

/-! ## Ne -/

theorem execNePairGroup_inv (cluster : Nat) (s : State) (h : s.inv = true) :
    outInv (execNePairGroup cluster s) = true := by
  unfold execNePairGroup
  split
  · exact h
  · next c t _ =>
    split
    · exact h
    · have h1 := State.usedBytes_inv _ c.id (State.readAs_inv s c.reader (fun s => s.startPairs c) h
        (fun s h => State.startPairs_inv s c h))
      cases hp : c.pairs with
      | none =>
        generalize s.readAs c.reader (fun s => s.startPairs c) = y at h1 ⊢
        obtain ⟨s1, r⟩ := y
        cases r with
        | error e => exact State.neFault_inv _ _ _ _ h1
        | ok x =>
          dsimp only
          split
          · exact h1
          · exact State.enterGroups_inv _ _ _ _ (State.useFree_inv _ h1)
      | some ps =>
        dsimp only
        split
        · exact h
        · exact State.enterGroups_inv _ _ _ _ (State.useFree_inv _ h)

theorem execNeComplete_inv (cluster : Nat) (s : State) (h : s.inv = true) :
    outInv (execNeComplete cluster s) = true := by
  unfold execNeComplete
  grind

theorem execNbbin_inv (d a : SReg) (s : State) (h : s.inv = true) : outInv (execNbbin d a s) = true := by
  unfold execNbbin
  exact runTeam_inv _ _ _ h (fun w t q s h => by grind)

theorem execNbpairs_inv (d a : SReg) (port : Bool) (s : State) (h : s.inv = true) :
    outInv (execNbpairs d a port s) = true := by
  unfold execNbpairs
  exact runTeam_inv _ _ _ h (fun w t q s h => by grind)

theorem execNbstat_inv (d : SReg) (s : State) (h : s.inv = true) : outInv (execNbstat d s) = true := by
  unfold execNbstat
  exact runTeam_inv _ _ _ h (fun w t q s h => by grind)

theorem execQbind_inv (n : BitVec 2) (hd0 : BitVec 4) (scope : Scope) (s : State) (h : s.inv = true) :
    outInv (execQbind n hd0 scope s) = true := by
  unfold execQbind
  exact runTeam_inv _ _ _ h (fun w t q s h => by grind)

theorem execQclose_inv (n : BitVec 2) (s : State) (h : s.inv = true) : outInv (execQclose n s) = true := by
  unfold execQclose
  exact runTeam_inv _ _ _ h (fun w t q s h => by grind)

theorem execStoreStreamDrained_inv (tid p port : Nat) (s : State) (h : s.inv = true) :
    outInv (execStoreStreamDrained tid p port s) = true := by
  unfold execStoreStreamDrained
  grind

/-! ## Issue -/

theorem execClauseIssue_inv (w : Who) (s : State) (h : s.inv = true) : outInv (execClauseIssue w s) = true := by
  unfold execClauseIssue
  grind

theorem State.trackCycle_inv (s : State) (run : Who → State → Host.Outcome State Fault Refusal) (core track : Nat)
    (h : s.inv = true) (hr : ∀ w s, s.inv = true → outInv (run w s) = true) : outInv (s.trackCycle run core track) = true := by
  have inner (x : Nat × Nat × Team × Party) (sls : List Bool) (o : Host.Outcome State Fault Refusal) (ho : outInv o = true) :
      outInv (sls.foldl (fun o sl => match o with
        | .next s => run (.party x.1 x.2.1 sl) s
        | e => e) o) = true := by
    induction sls generalizing o with
    | nil => exact ho
    | cons sl t ih => refine ih _ ?_; cases o <;> first | exact hr _ _ ho | exact ho
  have outer (xs : List (Nat × Nat × Team × Party)) (o : Host.Outcome State Fault Refusal) (ho : outInv o = true) :
      outInv (xs.foldl (fun o x => x.2.2.2.paths.foldl (fun o sl => match o with
        | .next s => run (.party x.1 x.2.1 sl) s
        | e => e) o) o) = true := by
    induction xs generalizing o with
    | nil => exact ho
    | cons x t ih => exact ih _ (inner x _ _ ho)
  unfold State.trackCycle
  dsimp only
  cases s.contenders run core track
  · exact outer _ _ h
  · exact hr _ _ (foldl_inv _ _ _ (fun s x h => State.modParty_inv _ _ _ _ h) h)

theorem State.issueTurn_inv (s : State) (run : Who → State → Host.Outcome State Fault Refusal) (w : Who)
    (h : s.inv = true) (hr : ∀ w s, s.inv = true → outInv (run w s) = true) : outInv (s.issueTurn run w) = true := by
  unfold State.issueTurn
  split
  · exact hr _ _ h
  · split
    · split
      · exact hr _ _ h
      · split
        · exact hr _ _ h
        · dsimp only
          split
          · exact State.trackCycle_inv _ _ _ _ h hr
          · exact h
    · exact hr _ _ h

theorem execStarvationPromote_inv (tid p : Nat) (s : State) (h : s.inv = true) :
    outInv (execStarvationPromote tid p s) = true := by
  unfold execStarvationPromote
  grind

theorem execYieldTimeout_inv (tid p : Nat) (s : State) (h : s.inv = true) :
    outInv (execYieldTimeout tid p s) = true := by
  unfold execYieldTimeout
  grind

theorem State.wake_inv (s : State) (run : Who → State → Host.Outcome State Fault Refusal) (tid p : Nat)
    (h : s.inv = true) : (State.wake s run tid p).inv = true := by
  unfold State.wake
  grind

theorem State.rouse_inv (s : State) (run : Who → State → Host.Outcome State Fault Refusal) (core : Nat)
    (h : s.inv = true) : (State.rouse s run core).inv = true := by
  unfold State.rouse
  grind

theorem State.aheadOne_inv (run : Instr → State → Host.Outcome State Fault Refusal) (w : Issuer)
    (a b : State × State × List (Nat × Nat)) (h : a.1.inv = true) (e : State.aheadOne run w a = some b) : b.1.inv = true := by
  obtain ⟨s, x, unknown⟩ := a
  unfold State.aheadOne at e
  dsimp -zeta only at e
  dsimp only at h
  split at e
  · cases e
  · next t q _ =>
    extract_lets sl at e
    split at e
    · cases e
    · split at e
      · have hc := State.checkClause_inv s t false sl.pc h
        split at e
        · cases e
        · next ec =>
          rw [ec] at hc
          split at e
          · cases e
          · cases e; exact hc
      · next c _ =>
        have hf := State.fetchWords_inv s t sl.pc (wordsLeft sl.pc c) h
        split at e
        · cases e
        · next ef =>
          rw [ef] at hf
          split at e
          · cases e
          · next i _ =>
            have key : ∀ (c : Bool) (l : List DWord) (s' : State), s'.inv = true →
                (if c = true then l.foldl (fun s v => s.prefetch t v) s' else s').inv = true := by
              intro c l s' h'
              split
              · exact foldl_inv _ _ _ (fun s v h => State.prefetch_inv s t v h) h'
              · exact h'
            have hk := fun c l => key c l _ hf
            extract_lets o lanes sources dests known z skip at e
            have hzi : z.inv = true := hk _ _
            clear_value z
            split at e
            · cases e
            · split at e
              · cases e; exact hzi
              · split at e
                · cases e
                · split at e
                  · split at e
                    · split at e
                      · cases e
                      · cases e; exact hzi
                    · cases e; exact hzi
                  · cases e

theorem State.aheadFrom_inv (run : Instr → State → Host.Outcome State Fault Refusal) (w : Issuer)
    (a : State × State × List (Nat × Nat)) (n : Nat) (h : a.1.inv = true) : (State.aheadFrom run w a n).inv = true := by
  induction n generalizing a with
  | zero => exact h
  | succ n ih =>
    unfold State.aheadFrom
    split
    · exact h
    · next e => exact ih _ (State.aheadOne_inv _ _ _ _ h e)

theorem execRunAhead_inv (tid p : Nat) (s : State) (h : s.inv = true) : outInv (execRunAhead tid p s) = true := by
  unfold execRunAhead
  split <;> grind

theorem State.runAhead_inv (s : State) (run : Who → State → Host.Outcome State Fault Refusal)
    (meaning : Instr → State → Host.Outcome State Fault Refusal) (tid p : Nat) (h : s.inv = true) :
    (s.runAhead run meaning tid p).inv = true := by
  unfold State.runAhead
  split
  · exact h
  · split
    · exact h
    · split
      · exact h
      · exact State.aheadFrom_inv _ _ _ _ (State.useFree_inv _ h)

theorem runFetched_inv (meaning : Instr → State → Host.Outcome State Fault Refusal) (w : Who) (s : State) (x : Fetched)
    (h : s.inv = true) (hx : x.inv = true) (hm : ∀ i s, s.inv = true → outInv (meaning i s) = true) :
    outInv (runFetched meaning w s x) = true := by
  have hold := fun s' (h' : s'.inv = true) => State.holdBy_inv _ w (State.undo_inv s (some w) (s.originFor w) s' h h')
  unfold runFetched
  split
  · exact h
  · dsimp only [outInv]
    split
    · exact hold _ hx
    · exact hx
  · next s' i =>
    have := hm i s' hx
    split
    · exact hold _ hx
    · split
      · next h2 =>
        rw [h2] at this
        dsimp only [outInv] at this ⊢
        split
        · exact hold _ this
        · split
          · exact this
          · exact State.issued_inv _ _ _ this
      · rfl
      · rfl

theorem issueBy_inv (meaning : Instr → State → Host.Outcome State Fault Refusal) (w : Who) (s : State) (h : s.inv = true)
    (hm : ∀ i s, s.inv = true → outInv (meaning i s) = true) : outInv (issueBy meaning w s) = true := by
  unfold issueBy
  have h1 := runFetched_inv meaning w s _ h (State.fetch_inv s w h) hm
  split
  · next s' hs =>
    rw [hs] at h1
    split
    · exact h1
    · have h2 := runFetched_inv meaning w s' _ h1 (State.fetch_inv s' w h1) hm
      split
      · next s2 hs2 => rw [hs2] at h2; exact State.backOut_inv _ _ h2
      · exact h2
  · exact h1

/-! ## Lookout -/

theorem execLkoPred_inv (m : BitVec 2) (hd0 : BitVec 4) (s : State) (h : s.inv = true) :
    outInv (execLkoPred m hd0 s) = true := by
  unfold execLkoPred
  refine runSeq_inv _ _ _ h (fun tid t q s hs => ?_)
  dsimp only
  split
  · exact hs
  · split
    · next e => exact of_pair e (State.fetchHandle_inv _ _ _ _ hs)
    · next e =>
      have hs := of_pair e (State.fetchHandle_inv _ _ _ _ hs)
      split
      all_goals
        split
        · exact hs
        · split
          · exact hs
          · split
            · exact hs
            · split
              · next e => exact of_pair e (State.engineRead_inv _ _ _ _ _ _ hs)
              · next e =>
                have hs := of_pair e (State.engineRead_inv _ _ _ _ _ _ hs)
                split
                · exact hs
                · split
                  · exact hs
                  · split
                    · next e => exact of_pair e (State.engineRead_inv _ _ _ _ _ _ hs)
                    · next e =>
                      have hs := of_pair e (State.engineRead_inv _ _ _ _ _ _ hs)
                      split
                      · exact hs
                      · split
                        · exact hs
                        · split
                          · exact hs
                          · split
                            · rfl
                            · split
                              · rfl
                              · split
                                · rfl
                                · exact State.modSeq_inv _ _ _ (State.post_inv _ _ _ _ _ _ hs)

theorem execLkoFetch_inv (hd0 : BitVec 4) (s : State) (h : s.inv = true) : outInv (execLkoFetch hd0 s) = true := by
  unfold execLkoFetch
  exact runSeq_inv _ _ _ h (fun tid t q s h => by grind)

theorem execLkoChk_inv (c : BitVec 4) (m : BitVec 2) (hd0 : BitVec 4) (s : State) (h : s.inv = true) :
    outInv (execLkoChk c m hd0 s) = true := by
  unfold execLkoChk
  exact runSeq_inv _ _ _ h (fun tid t q s h => by grind)

/-! ## MatrixSteps -/

theorem execPassGrant_inv (cluster : Nat) (s : State) (h : s.inv = true) :
    outInv (execPassGrant cluster s) = true := by
  unfold execPassGrant
  grind

theorem execPassRetire_inv (tid id : Nat) (mismatch mismatch2 : Bool) (s : State) (h : s.inv = true) :
    outInv (execPassRetire tid id mismatch mismatch2 s) = true := by
  unfold execPassRetire
  grind

theorem execMatrixOpRetire_inv (tid id : Nat) (s : State) (h : s.inv = true) :
    outInv (execMatrixOpRetire tid id s) = true := by
  unfold execMatrixOpRetire
  split
  · exact h
  · split
    · exact h
    · split
      · exact h
      · split
        · exact h
        · split
          · exact State.afterWrites_inv _ _ _ _ h
          · split
            · exact h
            · split
              · exact State.fetchBefore_inv _ _ _ _ _ h
              · exact State.runAs_inv _ _ _ h (fun s h => State.retireKind_inv _ _ _ _ _ _ h)

/-! ## Preempt -/

theorem execLadderDrainTimeout_inv (key : Nat) (s : State) (h : s.inv = true) :
    outInv (execLadderDrainTimeout key s) = true := by
  unfold execLadderDrainTimeout
  grind

theorem execTeamSaveComplete_inv (tid : Nat) (s : State) (h : s.inv = true) :
    outInv (execTeamSaveComplete tid s) = true := by
  unfold execTeamSaveComplete
  grind

theorem execLadderSaveTimeout_inv (key : Nat) (s : State) (h : s.inv = true) :
    outInv (execLadderSaveTimeout key s) = true := by
  unfold execLadderSaveTimeout
  grind

theorem execHangReport_inv (tid p : Nat) (s : State) (h : s.inv = true) :
    outInv (execHangReport tid p s) = true := by
  unfold execHangReport
  grind

theorem execQueueResetComplete_inv (key : Nat) (s : State) (h : s.inv = true) :
    outInv (execQueueResetComplete key s) = true := by
  unfold execQueueResetComplete
  grind

theorem execClockGate_inv (core : Nat) (s : State) (h : s.inv = true) : outInv (execClockGate core s) = true := by
  unfold execClockGate
  grind

theorem execPowerGate_inv (core : Nat) (s : State) (h : s.inv = true) : outInv (execPowerGate core s) = true := by
  unfold execPowerGate
  grind

theorem execCoreWake_inv (core : Nat) (s : State) (h : s.inv = true) : outInv (execCoreWake core s) = true := by
  unfold execCoreWake
  grind

/-! ## Queues -/

theorem execDoorbell_inv (f q : Nat) (v : Word) (s : State) (h : s.inv = true) :
    outInv (execDoorbell f q v s) = true := by
  unfold execDoorbell
  grind

theorem execQueueEnable_inv (f q : Nat) (s : State) (h : s.inv = true) : outInv (execQueueEnable f q s) = true := by
  unfold execQueueEnable
  grind

theorem execQueueDisable_inv (f q : Nat) (s : State) (h : s.inv = true) :
    outInv (execQueueDisable f q s) = true := by
  unfold execQueueDisable
  grind

theorem execQueueCtlReset_inv (f q : Nat) (s : State) (h : s.inv = true) :
    outInv (execQueueCtlReset f q s) = true := by
  unfold execQueueCtlReset
  grind

theorem execQueueCtlPreempt_inv (f q : Nat) (s : State) (h : s.inv = true) :
    outInv (execQueueCtlPreempt f q s) = true := by
  unfold execQueueCtlPreempt
  grind

theorem execQueueCtlResume_inv (f q : Nat) (s : State) (h : s.inv = true) :
    outInv (execQueueCtlResume f q s) = true := by
  unfold execQueueCtlResume
  grind

theorem execQueueInvalidate_inv (f q : Nat) (s : State) (h : s.inv = true) :
    outInv (execQueueInvalidate f q s) = true := by
  unfold execQueueInvalidate
  grind

theorem execSigdbWrite_inv (f : Nat) (va : DWord) (s : State) (h : s.inv = true) :
    outInv (execSigdbWrite f va s) = true := by
  unfold execSigdbWrite
  grind

theorem execParkedWaitPoll_inv (s : State) (h : s.inv = true) : outInv (execParkedWaitPoll s) = true := by
  unfold execParkedWaitPoll
  grind

theorem execFlogdropClear_inv (f : Nat) (s : State) (h : s.inv = true) : outInv (execFlogdropClear f s) = true := by
  unfold execFlogdropClear
  grind

theorem execPwrcapWrite_inv (f : Nat) (v : Word) (s : State) (h : s.inv = true) :
    outInv (execPwrcapWrite f v s) = true := by
  unfold execPwrcapWrite
  split
  · exact invOf_cap _ _ _ _ _ h (clampCap_range v)
  · exact h

theorem execMailboxGo_inv (f : Nat) (s : State) (h : s.inv = true) : outInv (execMailboxGo f s) = true := by
  unfold execMailboxGo
  grind

theorem execMailboxVerifyDone_inv (image : FwImage) (version : Word) (readOk : Bool) (s : State) (h : s.inv = true) :
    outInv (execMailboxVerifyDone image version readOk s) = true := by
  unfold execMailboxVerifyDone
  grind

theorem ctlWrite_inv (f q : Nat) (v : Word) (s : State) (h : s.inv = true) : outInv (ctlWrite f q v s) = true := by
  unfold ctlWrite
  split
  · exact execQueueEnable_inv _ _ _ h
  · exact execQueueDisable_inv _ _ _ h
  · exact execQueueCtlReset_inv _ _ _ h
  · exact execQueueCtlPreempt_inv _ _ _ h
  · exact execQueueCtlResume_inv _ _ _ h
  · exact h
grind_pattern ctlWrite_inv => ctlWrite f q v s

theorem barWord_inv (f off : Nat) (v : Word) (s : State) (h : s.inv = true) :
    outInv (barWord f off v s) = true := by
  unfold barWord
  split
  · exact State.plainWrite_inv _ _ _ _ h
  · split
    · exact execDoorbell_inv _ _ _ _ h
    · exact ctlWrite_inv _ _ _ _ h
    · exact State.plainWrite_inv _ _ _ _ h
    · exact execQueueInvalidate_inv _ _ _ h
    · exact State.plainWrite_inv _ _ _ _ h
    · split
      · exact execFlogdropClear_inv _ _ h
      · exact h
    · exact execPwrcapWrite_inv _ _ _ h
    · exact State.plainWrite_inv _ _ _ _ h
    · exact execMailboxGo_inv _ _ h
    · exact h
grind_pattern barWord_inv => barWord f off v s

theorem barWide_inv (f off : Nat) (v : DWord) (s : State) (h : s.inv = true) :
    outInv (barWide f off v s) = true := by
  unfold barWide
  split
  · exact State.plainWrite_inv _ _ _ _ h
  · exact execSigdbWrite_inv _ _ _ h
  · have h1 := barWord_inv f off (v.setWidth 32) s h
    split
    · next e => rw [e] at h1; exact barWord_inv _ _ _ _ h1
    · exact h1
grind_pattern barWide_inv => barWide f off v s

theorem execRegisterWrite_inv (f : Nat) (r : HostReg) (v : DWord) (s : State) (h : s.inv = true) :
    outInv (execRegisterWrite f r v s) = true := by
  unfold execRegisterWrite
  grind

theorem execQueueMap_inv (q slot : Nat) (order : MapOrder) (s : State) (h : s.inv = true) :
    outInv (execQueueMap q slot order s) = true := by
  unfold execQueueMap
  grind

theorem execQueueUnmap_inv (q : Nat) (s : State) (h : s.inv = true) : outInv (execQueueUnmap q s) = true := by
  unfold execQueueUnmap
  grind

theorem execTimeSliceExpiry_inv (q : Nat) (s : State) (h : s.inv = true) :
    outInv (execTimeSliceExpiry q s) = true := by
  unfold execTimeSliceExpiry
  grind

/-! ## Packets -/

theorem execPacketLaunch_inv (q : Nat) (s : State) (h : s.inv = true) : outInv (execPacketLaunch q s) = true := by
  unfold execPacketLaunch
  exact State.onPacket_inv _ _ _ _ h (fun s n r h => by grind)

theorem execPacketWait_inv (q : Nat) (s : State) (h : s.inv = true) : outInv (execPacketWait q s) = true := by
  unfold execPacketWait
  exact State.onPacket_inv _ _ _ _ h (fun s n r h => by grind)

theorem execPacketSignal_inv (q : Nat) (s : State) (h : s.inv = true) : outInv (execPacketSignal q s) = true := by
  unfold execPacketSignal
  exact State.onPacket_inv _ _ _ _ h (fun s n r h => by grind)

theorem execPacketWsload_inv (q : Nat) (s : State) (h : s.inv = true) : outInv (execPacketWsload q s) = true := by
  unfold execPacketWsload
  exact State.onPacket_inv _ _ _ _ h (fun s n r h => by grind)

theorem execWsloadUnsealStart_inv (q : Nat) (s : State) (h : s.inv = true) :
    outInv (execWsloadUnsealStart q s) = true := by
  unfold execWsloadUnsealStart
  grind

theorem execWsloadComplete_inv (q idx : Nat) (s : State) (h : s.inv = true) :
    outInv (execWsloadComplete q idx s) = true := by
  unfold execWsloadComplete
  grind

theorem execPacketBarrier_inv (q : Nat) (s : State) (h : s.inv = true) : outInv (execPacketBarrier q s) = true := by
  unfold execPacketBarrier
  exact State.onPacket_inv _ _ _ _ h (fun s n r h => by grind)

theorem execPacketPreempt_inv (q : Nat) (s : State) (h : s.inv = true) : outInv (execPacketPreempt q s) = true := by
  unfold execPacketPreempt
  exact State.onPacket_inv _ _ _ _ h (fun s n r h => by grind)

theorem execPacketReset_inv (q : Nat) (s : State) (h : s.inv = true) : outInv (execPacketReset q s) = true := by
  unfold execPacketReset
  exact State.onPacket_inv _ _ _ _ h (fun s n r h => by grind)

/-! ## MemSteps -/

theorem execWcbDrainTimeout_inv (core line : Nat) (s : State) (h : s.inv = true) :
    outInv (execWcbDrainTimeout core line s) = true := by
  unfold execWcbDrainTimeout
  grind

theorem execWalkComplete_inv (id : Nat) (s : State) (h : s.inv = true) : outInv (execWalkComplete id s) = true := by
  unfold execWalkComplete
  grind

theorem execMigrationTableEntry_inv (die oldFrame size newFrame : Nat) (rank : Option Nat) (s : State)
    (h : s.inv = true) : outInv (execMigrationTableEntry die oldFrame size newFrame rank s) = true := by
  unfold execMigrationTableEntry
  grind

theorem execMigrationLineCopy_inv (die frame line : Nat) (s : State) (h : s.inv = true) :
    outInv (execMigrationLineCopy die frame line s) = true := by
  unfold execMigrationLineCopy
  grind

theorem execMigrationEntryRemoval_inv (die oldFrame : Nat) (s : State) (h : s.inv = true) :
    outInv (execMigrationEntryRemoval die oldFrame s) = true := by
  unfold execMigrationEntryRemoval
  grind

theorem execMigrationBounce_inv (id : Nat) (s : State) (h : s.inv = true) :
    outInv (execMigrationBounce id s) = true := by
  unfold execMigrationBounce
  grind

theorem execBackgroundScrub_inv (x : ErrSite) (uncorrectable : Bool) (s : State) (h : s.inv = true) :
    outInv (execBackgroundScrub x uncorrectable s) = true := by
  unfold execBackgroundScrub
  grind

theorem execRefreshWindowOpen_inv (die : Nat) (s : State) (h : s.inv = true) :
    outInv (execRefreshWindowOpen die s) = true := by
  unfold execRefreshWindowOpen
  grind

theorem execRefreshWindowClose_inv (die : Nat) (s : State) (h : s.inv = true) :
    outInv (execRefreshWindowClose die s) = true := by
  unfold execRefreshWindowClose
  grind

/-! ## Fabric -/

theorem execRemoteRequest_inv (r : FabReq) (s : State) (h : s.inv = true) :
    outInv (execRemoteRequest r s) = true := by
  unfold execRemoteRequest
  grind

theorem execAtomicRecordExpiry_inv (src agent : Nat) (seqno : BitVec 16) (s : State) (h : s.inv = true) :
    outInv (execAtomicRecordExpiry src agent seqno s) = true := by
  unfold execAtomicRecordExpiry
  grind

theorem execRemoteResponse_inv (id : Nat) (r : FabResp) (s : State) (h : s.inv = true) :
    outInv (execRemoteResponse id r s) = true := by
  unfold execRemoteResponse
  grind

theorem execFabricRetryBackoff_inv (id : Nat) (s : State) (h : s.inv = true) :
    outInv (execFabricRetryBackoff id s) = true := by
  unfold execFabricRetryBackoff
  grind

theorem execFabricTimeout_inv (id : Nat) (s : State) (h : s.inv = true) :
    outInv (execFabricTimeout id s) = true := by
  unfold execFabricTimeout
  grind

theorem execDlFlitReceive_inv (port : Nat) (flit : Flit) (s : State) (h : s.inv = true) :
    outInv (execDlFlitReceive port flit s) = true := by
  unfold execDlFlitReceive
  grind

theorem execLinkTraining_inv (port : Nat) (offer : LinkOffer) (s : State) (h : s.inv = true) :
    outInv (execLinkTraining port offer s) = true := by
  unfold execLinkTraining
  grind [Offered.inv]

theorem execPortGoesDown_inv (port : Nat) (s : State) (h : s.inv = true) :
    outInv (execPortGoesDown port s) = true := by
  unfold execPortGoesDown
  grind

theorem execSetKey_inv (wrapped : Nat) (unwraps : Bool) (s : State) (h : s.inv = true) :
    outInv (execSetKey wrapped unwraps s) = true := by
  unfold execSetKey
  grind

theorem execKeySwitch_inv (s : State) (h : s.inv = true) : outInv (execKeySwitch s) = true := by
  unfold execKeySwitch
  grind

theorem execOldKeyExpiry_inv (s : State) (h : s.inv = true) : outInv (execOldKeyExpiry s) = true := by
  unfold execOldKeyExpiry
  split
  · exact h
  · split <;> exact h

theorem execZeroise_inv (s : State) (h : s.inv = true) : outInv (execZeroise s) = true := by
  unfold execZeroise
  grind

theorem execSetRank_inv (r : BitVec 12) (s : State) (h : s.inv = true) : outInv (execSetRank r s) = true := by
  unfold execSetRank
  grind

theorem execSetFto_inv (ns : Nat) (s : State) (h : s.inv = true) : outInv (execSetFto ns s) = true := by
  unfold execSetFto
  grind

theorem execPtpMessage_inv (offset : ℤ) (s : State) (h : s.inv = true) :
    outInv (execPtpMessage offset s) = true := by
  unfold execPtpMessage
  grind

theorem execPpsInput_inv (offset : ℤ) (s : State) (h : s.inv = true) : outInv (execPpsInput offset s) = true := by
  unfold execPpsInput
  grind

theorem execTbaseLock_inv (s : State) (h : s.inv = true) : outInv (execTbaseLock s) = true := by
  unfold execTbaseLock
  split
  · exact h
  · split <;> exact h

theorem execHoldoverEntry_inv (s : State) (h : s.inv = true) : outInv (execHoldoverEntry s) = true := by
  unfold execHoldoverEntry
  grind

/-! ## Device -/

theorem execThrottleUp_inv (die : Nat) (reading : Reading) (s : State) (h : s.inv = true) :
    outInv (execThrottleUp die reading s) = true := by
  unfold execThrottleUp
  split
  · exact h
  · rw [inv_eq, invOf_iff] at h
    refine (invOf_iff _ _ _ _).2 ⟨h.1, h.2.1, h.2.2.1, throttle_write _ _ _ h.2.2.2 ?_⟩
    have := throttle_read s.throttle die h.2.2.2
    have := asks_le s reading (Store.read s.throttle die).toNat (s.sensorsOf die).overSince
    rw [BitVec.toNat_ofNat]
    omega

theorem execThrottleDown_inv (die : Nat) (s : State) (h : s.inv = true) :
    outInv (execThrottleDown die s) = true := by
  unfold execThrottleDown
  dsimp only
  generalize (Option.any _ _ : Bool) = calm
  split
  · next hc =>
    rw [inv_eq, invOf_iff] at h
    refine (invOf_iff _ _ _ _).2 ⟨h.1, h.2.1, h.2.2.1, throttle_write _ _ _ h.2.2.2 ?_⟩
    have := throttle_read s.throttle die h.2.2.2
    rw [BitVec.toNat_ofNat]
    omega
  · exact h

theorem execThermalTrip_inv (s : State) (h : s.inv = true) : outInv (execThermalTrip s) = true := by
  unfold execThermalTrip
  grind

theorem execCoolantFault_inv (s : State) (h : s.inv = true) : outInv (execCoolantFault s) = true := by
  unfold execCoolantFault
  grind

theorem execColdReset_inv (s : State) (h : s.inv = true) : outInv (execColdReset s) = true := by
  unfold execColdReset
  grind

theorem execWarmReset_inv (s : State) (h : s.inv = true) : outInv (execWarmReset s) = true := by
  unfold execWarmReset
  grind

theorem execMgmtReset_inv (s : State) (h : s.inv = true) : outInv (execMgmtReset s) = true := by
  unfold execMgmtReset
  grind

theorem execBringupPhaseComplete_inv (ok : Bool) (s : State) (h : s.inv = true) :
    outInv (execBringupPhaseComplete ok s) = true := by
  unfold execBringupPhaseComplete
  have key : s.phase ≤ 3 → invOf s.mem s.cap (s.phase + 1) s.throttle = true := fun hp =>
    (invOf_iff _ _ _ _).2 ⟨((invOf_iff _ _ _ _).1 h).1, ((invOf_iff _ _ _ _).1 h).2.1, by omega, ((invOf_iff _ _ _ _).1 h).2.2.2⟩
  dsimp only
  split <;> split <;> first
    | exact h
    | exact key (by omega)
    | simp_all

theorem execFunctionLevelReset_inv (f : Nat) (s : State) (h : s.inv = true) :
    outInv (execFunctionLevelReset f s) = true := by
  unfold execFunctionLevelReset
  grind

theorem execConfigurationRequest_inv (f : Nat) (s : State) (h : s.inv = true) :
    outInv (execConfigurationRequest f s) = true := by
  unfold execConfigurationRequest
  grind

theorem execUnitFence_inv (u : FenceUnit) (s : State) (h : s.inv = true) : outInv (execUnitFence u s) = true := by
  unfold execUnitFence
  grind

theorem execGetVersion_inv (s : State) (h : s.inv = true) : outInv (execGetVersion s) = true := by
  unfold execGetVersion
  grind

theorem execGetCapabilities_inv (s : State) (h : s.inv = true) : outInv (execGetCapabilities s) = true := by
  unfold execGetCapabilities
  grind

theorem execNegotiateAlgorithms_inv (s : State) (h : s.inv = true) : outInv (execNegotiateAlgorithms s) = true := by
  unfold execNegotiateAlgorithms
  grind

theorem execGetDigests_inv (s : State) (h : s.inv = true) : outInv (execGetDigests s) = true := by
  unfold execGetDigests
  grind

theorem execGetCertificate_inv (s : State) (h : s.inv = true) : outInv (execGetCertificate s) = true := by
  unfold execGetCertificate
  grind

theorem execChallenge_inv (nonce : Nat) (s : State) (h : s.inv = true) : outInv (execChallenge nonce s) = true := by
  unfold execChallenge
  grind

theorem execGetMeasurements_inv (s : State) (h : s.inv = true) : outInv (execGetMeasurements s) = true := by
  unfold execGetMeasurements
  grind

theorem execPldmMonitorRequest_inv (w : PldmWhat) (s : State) (h : s.inv = true) :
    outInv (execPldmMonitorRequest w s) = true := by
  unfold execPldmMonitorRequest
  grind

theorem execSetCap_inv (v : Word) (s : State) (h : s.inv = true) : outInv (execSetCap v s) = true := by
  exact invOf_cap _ _ _ _ _ h (clampCap_range v)

/-! ## Special -/

theorem execSget_inv (d : SReg) (n : BitVec 6) (s : State) (h : s.inv = true) : outInv (execSget d n s) = true := by
  unfold execSget
  exact runParty_inv _ _ _ h (fun w s h => by grind)

theorem execSset_inv (a : SReg) (n : BitVec 6) (s : State) (h : s.inv = true) : outInv (execSset a n s) = true := by
  unfold execSset
  exact runRegs_inv _ _ _ h

theorem execCkwarn_inv (d a : SReg) (s : State) (h : s.inv = true) : outInv (execCkwarn d a s) = true := by
  unfold execCkwarn
  exact runParty_inv _ _ _ h (fun w s h => by grind)

theorem execSetfmt_inv (v : BitVec 6) (s : State) (h : s.inv = true) : outInv (execSetfmt v s) = true := by
  unfold execSetfmt
  exact runRegs_inv _ _ _ h

theorem execSetmode_inv (v : BitVec 6) (s : State) (h : s.inv = true) : outInv (execSetmode v s) = true := by
  unfold execSetmode
  exact runRegs_inv _ _ _ h

theorem execSgetIdLane_inv (d : VReg) (s : State) (h : s.inv = true) : outInv (execSgetIdLane d s) = true := by
  unfold execSgetIdLane
  exact runRegs_inv _ _ _ h

theorem execClkrd_inv (d : SReg) (s : State) (h : s.inv = true) : outInv (execClkrd d s) = true := by
  unfold execClkrd
  exact runParty_inv _ _ _ h (fun w s h => by grind)

end Sys2Proof.Machine
end

