-- ==== Sys2Proof/Laws/Memory.lean ====
section
/-!
SUPPORT. Every operation on memory keeps its canonical form: addresses strictly rising, no listed zero.
-/

set_option linter.unusedVariables false

namespace Sys2Proof.Machine

open Sys2Proof

/-- Memory is in its canonical form. -/
def State.memOk (s : State) : Bool := Memory.wf s.mem

theorem memOk_eq (s : State) : s.memOk = Memory.wf s.mem := rfl
grind_pattern memOk_eq => State.memOk s

theorem Memory.wf_written (m : Store 8) (bs : List (Nat × Byte)) (h : Memory.wf m = true) :
    Memory.wf (writeBytes m bs) = true := wf_writeBytes bs h
grind_pattern Memory.wf_written => Memory.wf (writeBytes m bs)

theorem foldl_storeWf {α : Type} (f : Store 8 → α → Store 8) (m : Store 8) (l : List α)
    (hf : ∀ m x, Store.wf m = true → Store.wf (f m x) = true) (h : Store.wf m = true) : Store.wf (l.foldl f m) = true := by
  induction l generalizing m with
  | nil => exact h
  | cons x t ih => exact ih _ (hf _ _ h)

theorem foldl_memOk {α : Type} (f : State → α → State) (s : State) (l : List α)
    (hf : ∀ s x, s.memOk = true → (f s x).memOk = true) (h : s.memOk = true) : (l.foldl f s).memOk = true := by
  induction l generalizing s with
  | nil => exact h
  | cons x t ih => exact ih _ (hf _ _ h)
grind_pattern foldl_memOk => List.foldl f s l

theorem foldl_memOk2 {α β : Type} (f : State × β → α → State × β) (x : State × β) (l : List α)
    (hf : ∀ x a, x.1.memOk = true → (f x a).1.memOk = true) (h : x.1.memOk = true) : (l.foldl f x).1.memOk = true := by
  induction l generalizing x with
  | nil => exact h
  | cons a t ih => exact ih _ (hf _ _ h)
grind_pattern foldl_memOk2 => List.foldl f x l

theorem memOk_of_pair {β : Type} {x : State × β} {s : State} {r : β} (e : x = (s, r)) (h : x.1.memOk = true) :
    s.memOk = true := by
  rw [e] at h; exact h

theorem ite_memOk {β : Type} {c : Prop} [Decidable c] {a b : State × β} (ha : a.1.memOk = true) (hb : b.1.memOk = true) :
    (if c then a else b).1.memOk = true := by
  split <;> assumption

/-! ## The form of what an operation answers -/

def optOk : Option State → Bool
  | some s => s.memOk
  | none => true

theorem optOk_getD (o : Option State) (s : State) (h : s.memOk = true) (ho : optOk o = true) : (o.getD s).memOk = true := by
  cases o <;> assumption
grind_pattern optOk_getD => o.getD s

def excOk : Except Nat State → Bool
  | .ok s => s.memOk
  | .error _ => true

def Served.memOk : Served → Bool
  | .answer s _ | .later s => s.memOk
  | .held => true

/-! ## Ops -/

theorem State.modTeam_wf (s : State) (tid : Nat) (f : Team → Team) (h : s.memOk = true) :
    (State.modTeam s tid f).memOk = true := by
  unfold State.modTeam
  grind
grind_pattern State.modTeam_wf => State.modTeam s tid f

theorem State.modParty_wf (s : State) (tid p : Nat) (f : Party → Party) (h : s.memOk = true) :
    (State.modParty s tid p f).memOk = true := by
  unfold State.modParty
  grind
grind_pattern State.modParty_wf => State.modParty s tid p f

theorem State.useFree_wf (s : State) (h : s.memOk = true) : (State.useFree s).memOk = true := by
  unfold State.useFree
  grind
grind_pattern State.useFree_wf => State.useFree s

theorem State.fresh_wf (s : State) (h : s.memOk = true) : (State.fresh s).2.memOk = true := by
  unfold State.fresh
  grind
grind_pattern State.fresh_wf => State.fresh s

theorem State.takeFault_wf (s : State) (tid : Nat) (o : Origin) (c : Cause) (deferred engine : Bool) (w : Wait)
    (h : s.memOk = true) : (State.takeFault s tid o c deferred engine w).memOk = true := by
  unfold State.takeFault
  grind
grind_pattern State.takeFault_wf => State.takeFault s tid o c deferred engine w

theorem State.laterFault_wf (s : State) (tid : Nat) (o : Origin) (c : Cause) (deferred engine : Bool)
    (h : s.memOk = true) : (State.laterFault s tid o c deferred engine).memOk = true := by
  unfold State.laterFault
  grind
grind_pattern State.laterFault_wf => State.laterFault s tid o c deferred engine

theorem State.copyLine_wf (s : State) (m : Migration) (line : Nat) (h : s.memOk = true) :
    (State.copyLine s m line).memOk = true := by
  unfold State.copyLine
  grind
grind_pattern State.copyLine_wf => State.copyLine s m line

theorem State.settle_wf (s : State) (pa : Nat) (h : s.memOk = true) : (State.settle s pa).1.memOk = true := by
  unfold State.settle
  grind
grind_pattern State.settle_wf => State.settle s pa

theorem RedEntry.apply_wf (e : RedEntry) (s : State) (h : s.memOk = true) : (e.apply s).memOk = true :=
  foldl_storeWf _ _ _ (fun _ _ h => wf_writeBytes _ h) h
grind_pattern RedEntry.apply_wf => RedEntry.apply e s

theorem State.applyReductions_wf (s : State) (sel : RedEntry → Bool) (h : s.memOk = true) :
    (State.applyReductions s sel).memOk = true := by
  unfold State.applyReductions
  grind
grind_pattern State.applyReductions_wf => State.applyReductions s sel

theorem State.reach_wf (s : State) (pa n : Nat) (h : s.memOk = true) : (State.reach s pa n).memOk = true := by
  unfold State.reach
  grind
grind_pattern State.reach_wf => State.reach s pa n

theorem State.poke_wf (s : State) (pa : Nat) (bs : List Byte) (h : s.memOk = true) :
    (State.poke s pa bs).memOk = true := by
  unfold State.poke
  grind
grind_pattern State.poke_wf => State.poke s pa bs

theorem State.pokeLine_wf (s : State) (line : Nat) (bytes : Map Byte) (h : s.memOk = true) :
    (State.pokeLine s line bytes).memOk = true := by
  unfold State.pokeLine
  grind
grind_pattern State.pokeLine_wf => State.pokeLine s line bytes

theorem State.setWcb_wf (s : State) (core : Nat) (es : List WcbEntry) (h : s.memOk = true) :
    (State.setWcb s core es).memOk = true := by
  unfold State.setWcb
  grind
grind_pattern State.setWcb_wf => State.setWcb s core es

theorem State.drainEntry_wf (s : State) (core : Nat) (e : WcbEntry) (h : s.memOk = true) :
    (State.drainEntry s core e).memOk = true := by
  unfold State.drainEntry
  grind
grind_pattern State.drainEntry_wf => State.drainEntry s core e

theorem State.retryHeld_wf (s : State) (hd0 : HeldStore) (h : s.memOk = true) :
    (State.retryHeld s hd0).memOk = true := by
  unfold State.retryHeld
  grind
grind_pattern State.retryHeld_wf => State.retryHeld s hd0

theorem State.performHeld_wf (s : State) (h : s.memOk = true) : (State.performHeld s).memOk = true := by
  unfold State.performHeld
  grind
grind_pattern State.performHeld_wf => State.performHeld s

theorem State.drain_wf (s : State) (core : Nat) (sel : WcbEntry → Bool) (h : s.memOk = true) :
    (State.drain s core sel).memOk = true := by
  unfold State.drain
  grind
grind_pattern State.drain_wf => State.drain s core sel

theorem State.drainEvery_wf (s : State) (sel : WcbEntry → Bool) (h : s.memOk = true) :
    (State.drainEvery s sel).memOk = true := by
  unfold State.drainEvery
  grind
grind_pattern State.drainEvery_wf => State.drainEvery s sel

theorem State.wcbStore_wf (s : State) (core : Nat) (owner : Nat × Nat) (pa : Nat) (bs : List Byte)
    (h : s.memOk = true) : (State.wcbStore s core owner pa bs).memOk = true := by
  unfold State.wcbStore
  grind
grind_pattern State.wcbStore_wf => State.wcbStore s core owner pa bs

theorem State.fillDie_wf (s : State) (die : Nat) (e : TlbEntry) (h : s.memOk = true) :
    (State.fillDie s die e).memOk = true := by
  unfold State.fillDie
  grind
grind_pattern State.fillDie_wf => State.fillDie s die e

theorem State.fillTlb_wf (s : State) (core : Nat) (e : TlbEntry) (h : s.memOk = true) :
    (State.fillTlb s core e).memOk = true := by
  unfold State.fillTlb
  grind
grind_pattern State.fillTlb_wf => State.fillTlb s core e

theorem State.stick_wf (s : State) (b : Bool) (h : s.memOk = true) : (State.stick s b).memOk = true := by
  unfold State.stick
  grind
grind_pattern State.stick_wf => State.stick s b

theorem State.await_wf (s : State) (core : Option Nat) (tag : BitVec 16) (va : Nat) (h : s.memOk = true) :
    (State.await s core tag va).memOk = true := by
  unfold State.await
  grind
grind_pattern State.await_wf => State.await s core tag va

theorem State.missFor_wf (s : State) (core : Option Nat) (tag : BitVec 16) (va : Nat) (h : s.memOk = true) :
    (State.missFor s core tag va).1.memOk = true := by
  unfold State.missFor
  grind
grind_pattern State.missFor_wf => State.missFor s core tag va

theorem State.entryFor_wf (s : State) (core : Nat) (tag : BitVec 16) (va : Nat) (h : s.memOk = true) :
    (State.entryFor s core tag va).1.memOk = true := by
  unfold State.entryFor
  grind
grind_pattern State.entryFor_wf => State.entryFor s core tag va

theorem State.startWalk_wf (s : State) (core : Option Nat) (who : Option Who) (tag : BitVec 16) (va : Nat)
    (needed : Bool) (h : s.memOk = true) : (State.startWalk s core who tag va needed).memOk = true := by
  unfold State.startWalk
  grind
grind_pattern State.startWalk_wf => State.startWalk s core who tag va needed

theorem State.grantWalkers_wf (s : State) (todo : List Nat) (h : s.memOk = true) :
    (State.grantWalkers s todo).memOk = true := by
  fun_induction State.grantWalkers s todo <;> grind
grind_pattern State.grantWalkers_wf => State.grantWalkers s todo

theorem State.admitWalks_wf (s : State) (todo : List Nat) (h : s.memOk = true) :
    (State.admitWalks s todo).memOk = true := by
  fun_induction State.admitWalks s todo <;> grind
grind_pattern State.admitWalks_wf => State.admitWalks s todo

theorem State.regrant_wf (s : State) (die : Nat) (h : s.memOk = true) : (State.regrant s die).memOk = true := by
  unfold State.regrant
  grind
grind_pattern State.regrant_wf => State.regrant s die

theorem State.translate_wf (s : State) (core : Nat) (tag : BitVec 16) (priv : Bool) (u : Use) (a : DWord)
    (h : s.memOk = true) : (State.translate s core tag priv u a).1.memOk = true := by
  unfold State.translate
  grind
grind_pattern State.translate_wf => State.translate s core tag priv u a

theorem State.walkTo_wf (s : State) (tag : BitVec 16) (priv : Bool) (u : Use) (a : Nat) (h : s.memOk = true) :
    (State.walkTo s tag priv u a).1.memOk = true := by
  unfold State.walkTo
  grind
grind_pattern State.walkTo_wf => State.walkTo s tag priv u a

theorem State.engineTarget_wf (s : State) (core : Option Nat) (tag : BitVec 16) (priv : Bool) (u : Use) (a : Nat)
    (h : s.memOk = true) : (State.engineTarget s core tag priv u a).1.memOk = true := by
  unfold State.engineTarget
  grind
grind_pattern State.engineTarget_wf => State.engineTarget s core tag priv u a

theorem State.registerRead_wf (s : State) (pa lane n : Nat) (h : s.memOk = true) :
    (State.registerRead s pa lane n).1.memOk = true := by
  unfold State.registerRead
  grind
grind_pattern State.registerRead_wf => State.registerRead s pa lane n

theorem State.peerByte_wf (s : State) (r pa va : Nat) (h : s.memOk = true) :
    (State.peerByte s r pa va).1.memOk = true := by
  unfold State.peerByte
  grind
grind_pattern State.peerByte_wf => State.peerByte s r pa va

theorem State.readAs_wf {α : Type} (s : State) (r : Reader) (f : State → State × α) (h : s.memOk = true)
    (hf : ∀ s, s.memOk = true → (f s).1.memOk = true) : (State.readAs s r f).1.memOk = true := hf _ h
grind_pattern State.readAs_wf => State.readAs s r f

theorem State.usedBytes_wf (s : State) (id : Nat) (h : s.memOk = true) : (State.usedBytes s id).memOk = true := by
  unfold State.usedBytes
  grind
grind_pattern State.usedBytes_wf => State.usedBytes s id

theorem State.runAs_wf (s : State) (r : Reader) (f : State → State) (h : s.memOk = true)
    (hf : ∀ s, s.memOk = true → (f s).memOk = true) : (State.runAs s r f).memOk = true :=
  State.usedBytes_wf _ _ (hf _ h)
grind_pattern State.runAs_wf => State.runAs s r f

theorem State.engineByte_wf (s : State) (core : Option Nat) (t : Target) (va : Nat) (h : s.memOk = true) :
    (State.engineByte s core t va).1.memOk = true := by
  unfold State.engineByte
  grind
grind_pattern State.engineByte_wf => State.engineByte s core t va

theorem State.egress_wf (s : State) (h : s.memOk = true) : (State.egress s).2.memOk = true := by
  unfold State.egress
  grind
grind_pattern State.egress_wf => State.egress s

theorem State.nextOrder_wf (s : State) (dst addr : Nat) (op : FabOp) (h : s.memOk = true) :
    (State.nextOrder s dst addr op).2.memOk = true := by
  unfold State.nextOrder
  grind
grind_pattern State.nextOrder_wf => State.nextOrder s dst addr op

theorem State.request_wf (s : State) (tid : Nat) (party : Option Nat) (acc : Option (Nat × Nat)) (o : Origin)
    (dst addr : Nat) (op : FabOp) (va place lane : Option Nat) (late : Option Team) (lanes : List (Nat × Nat))
    (dev : Bool) (aft : Option Nat) (tag : Option (BitVec 16)) (h : s.memOk = true) :
    (State.request s tid party acc o dst addr op va place lane late lanes dev aft tag).1.memOk = true := by
  unfold State.request
  exact State.nextOrder_wf _ _ _ _ (State.egress_wf _ (State.fresh_wf _ h))
grind_pattern State.request_wf => State.request s tid party acc o dst addr op va place lane late lanes dev aft tag

theorem State.askByte_wf (s : State) (since : Nat) (x : Reader) (r pa va : Nat) (h : s.memOk = true) :
    (State.askByte s since x r pa va).memOk = true := by
  unfold State.askByte
  grind
grind_pattern State.askByte_wf => State.askByte s since x r pa va

theorem State.received_wf (s : State) (who : Who) (h : s.memOk = true) : (State.received s who).memOk = true := by
  unfold State.received
  grind
grind_pattern State.received_wf => State.received s who

theorem State.undo_wf (s : State) (who : Option Who) (o : Origin) (stuck : State) (h : s.memOk = true)
    (h1 : stuck.memOk = true) : (State.undo s who o stuck).memOk = true := by
  unfold State.undo
  grind
grind_pattern State.undo_wf => State.undo s who o stuck

theorem State.stampedPoke_wf (s : State) (place : Option Nat) (pa : Nat) (bs : List Byte) (h : s.memOk = true) :
    (State.stampedPoke s place pa bs).memOk = true := by
  unfold State.stampedPoke
  grind
grind_pattern State.stampedPoke_wf => State.stampedPoke s place pa bs

theorem State.enginePut_wf (s : State) (tid : Nat) (o : Origin) (place : Option Nat) (t : Target) (va : Nat)
    (bs : List Byte) (tag : Option (BitVec 16)) (h : s.memOk = true) :
    (State.enginePut s tid o place t va bs tag).memOk = true := by
  unfold State.enginePut
  grind
grind_pattern State.enginePut_wf => State.enginePut s tid o place t va bs tag

theorem State.engineRead_wf (s : State) (core : Option Nat) (tag : BitVec 16) (priv : Bool) (a n : Nat)
    (h : s.memOk = true) : (State.engineRead s core tag priv a n).1.memOk = true := by
  fun_induction State.engineRead s core tag priv a n <;> grind
grind_pattern State.engineRead_wf => State.engineRead s core tag priv a n

theorem State.engineWriteN_wf (s : State) (core : Option Nat) (tid : Nat) (o : Origin) (place : Option Nat)
    (tag : BitVec 16) (priv : Bool) (a : Nat) (bs : List Byte) (fuel : Nat) (h : s.memOk = true) :
    (State.engineWriteN s core tid o place tag priv a bs fuel).1.memOk = true := by
  fun_induction State.engineWriteN s core tid o place tag priv a bs fuel <;> grind
grind_pattern State.engineWriteN_wf => State.engineWriteN s core tid o place tag priv a bs fuel

theorem State.engineWrite_memOk (s : State) (core : Option Nat) (tid : Nat) (o : Origin) (place : Option Nat)
    (tag : BitVec 16) (priv : Bool) (a : Nat) (bs : List Byte) (h : s.memOk = true) :
    (State.engineWrite s core tid o place tag priv a bs).1.memOk = true := by
  unfold State.engineWrite
  grind
grind_pattern State.engineWrite_memOk => State.engineWrite s core tid o place tag priv a bs

/-! ## Tiles -/

theorem State.locRead_wf (s : State) (tid loc a n : Nat) (h : s.memOk = true) :
    (State.locRead s tid loc a n).1.memOk = true := by
  unfold State.locRead
  grind
grind_pattern State.locRead_wf => State.locRead s tid loc a n

theorem State.readElem_wf (s : State) (tid : Nat) (hd0 : Handle) (r c : Nat) (h : s.memOk = true) :
    (State.readElem s tid hd0 r c).1.memOk = true := by
  unfold State.readElem
  grind
grind_pattern State.readElem_wf => State.readElem s tid hd0 r c

/-! ## Operands -/

theorem State.waitOn_wf (s : State) (w : Issuer) (x : Wait) (h : s.memOk = true) :
    (State.waitOn s w x).memOk = true := by
  unfold State.waitOn
  grind
grind_pattern State.waitOn_wf => State.waitOn s w x

/-! ## Order -/

theorem State.release_wf (s : State) (core tid p : Nat) (q : Party) (scope : Scope) (h : s.memOk = true) :
    (State.release s core tid p q scope).1.memOk = true := by
  unfold State.release
  grind
grind_pattern State.release_wf => State.release s core tid p q scope

theorem State.promote_wf (s : State) (on : Bool) (h : s.memOk = true) : (State.promote s on).1.memOk = true := by
  unfold State.promote
  grind
grind_pattern State.promote_wf => State.promote s on

theorem State.peerWrite_memOk (s : State) (tid p : Nat) (o : Origin) (dst addr : Nat) (op : FabOp) (va : Nat)
    (acq dev : Bool) (h : s.memOk = true) : (State.peerWrite s tid p o dst addr op va acq dev).memOk = true := by
  unfold State.peerWrite
  grind
grind_pattern State.peerWrite_memOk => State.peerWrite s tid p o dst addr op va acq dev

theorem State.coalesce_wf (s : State) (since tid p dst line : Nat) (lane : List (Nat × Nat)) (op : FabOp)
    (h : s.memOk = true) : optOk (State.coalesce s since tid p dst line lane op) = true := by
  unfold State.coalesce
  grind [optOk]
grind_pattern State.coalesce_wf => State.coalesce s since tid p dst line lane op

theorem State.storePeer_wf (s : State) (since tid p : Nat) (o : Origin) (dst addr mt : Nat) (bs : List Byte)
    (va : Nat) (h : s.memOk = true) : (State.storePeer s since tid p o dst addr mt bs va).memOk = true := by
  unfold State.storePeer
  grind [optOk]
grind_pattern State.storePeer_wf => State.storePeer s since tid p o dst addr mt bs va

theorem State.readTarget_wf (s : State) (core : Nat) (strong : Bool) (t : Target) (lane n : Nat)
    (h : s.memOk = true) : (State.readTarget s core strong t lane n).1.memOk = true := by
  unfold State.readTarget
  grind
grind_pattern State.readTarget_wf => State.readTarget s core strong t lane n

theorem State.storeEach_wf (s : State) (since core tid p : Nat) (o : Origin) (n : Nat)
    (ls : List (Target × Nat × Nat)) (h : s.memOk = true) :
    (State.storeEach s since core tid p o n ls).memOk = true := by
  fun_induction State.storeEach s since core tid p o n ls <;> grind
grind_pattern State.storeEach_wf => State.storeEach s since core tid p o n ls

theorem State.storeLanes_wf (s : State) (core tid p : Nat) (o : Origin) (n : Nat) (ls : List (Target × Nat × Nat))
    (since : Nat) (h : s.memOk = true) : (State.storeLanes s core tid p o n ls since).memOk = true := by
  unfold State.storeLanes
  grind
grind_pattern State.storeLanes_wf => State.storeLanes s core tid p o n ls since

theorem State.translateAll_wf (s : State) (core : Nat) (tag : BitVec 16) (priv : Bool) (u : Use)
    (as : List (Nat × DWord)) (h : s.memOk = true) : (State.translateAll s core tag priv u as).1.memOk = true := by
  fun_induction State.translateAll s core tag priv u as <;> grind
grind_pattern State.translateAll_wf => State.translateAll s core tag priv u as

theorem State.translateStores_wf (s : State) (core : Nat) (tag : BitVec 16) (priv : Bool) (as : List (Nat × DWord))
    (u : Use) (h : s.memOk = true) : (State.translateStores s core tag priv as u).1.memOk = true := by
  unfold State.translateStores
  grind
grind_pattern State.translateStores_wf => State.translateStores s core tag priv as u

/-! ## Versions -/

theorem State.pendStore_wf (s : State) (cid : BitVec 24) (ver : Word) (pa : Nat) (bs : List Byte)
    (source : Option Nat) (h : s.memOk = true) : excOk (State.pendStore s cid ver pa bs source) = true := by
  unfold State.pendStore
  grind [excOk]
grind_pattern State.pendStore_wf => State.pendStore s cid ver pa bs source

theorem State.cleanPending_wf (s : State) (cid : BitVec 24) (ver : Word) (sector : Nat) (h : s.memOk = true) :
    (State.cleanPending s cid ver sector).memOk = true := by
  unfold State.cleanPending
  grind
grind_pattern State.cleanPending_wf => State.cleanPending s cid ver sector

theorem State.commitLine_wf (s : State) (line stamp comp : Nat) (h : s.memOk = true) :
    (State.commitLine s line stamp comp).memOk = true := by
  unfold State.commitLine
  grind
grind_pattern State.commitLine_wf => State.commitLine s line stamp comp

theorem State.commitLines_wf (s : State) (cid : BitVec 24) (ver : Word) (stamp comp : Nat) (h : s.memOk = true) :
    (State.commitLines s cid ver stamp comp).memOk = true := by
  unfold State.commitLines
  grind
grind_pattern State.commitLines_wf => State.commitLines s cid ver stamp comp

theorem State.prepare_wf (s : State) (cid : BitVec 24) (ver : Word) (h : s.memOk = true) :
    (State.prepare s cid ver).memOk = true := by
  unfold State.prepare
  grind
grind_pattern State.prepare_wf => State.prepare s cid ver

theorem State.dropPending_wf (s : State) (cid : BitVec 24) (ver : Word) (h : s.memOk = true) :
    (State.dropPending s cid ver).memOk = true := by
  unfold State.dropPending
  grind
grind_pattern State.dropPending_wf => State.dropPending s cid ver

theorem State.discardConvoy_wf (s : State) (cid : BitVec 24) (ver : Word) (h : s.memOk = true) :
    (State.discardConvoy s cid ver).memOk = true := by
  unfold State.discardConvoy
  grind
grind_pattern State.discardConvoy_wf => State.discardConvoy s cid ver

theorem State.tellPeers_wf (s : State) (tid : Nat) (ranks : List Nat) (op : FabOp) (h : s.memOk = true) :
    (State.tellPeers s tid ranks op).memOk = true := by
  unfold State.tellPeers
  grind
grind_pattern State.tellPeers_wf => State.tellPeers s tid ranks op

theorem State.abortConvoy_wf (s : State) (cid : BitVec 24) (ver : Word) (h : s.memOk = true) :
    (State.abortConvoy s cid ver).memOk = true := by
  unfold State.abortConvoy
  grind
grind_pattern State.abortConvoy_wf => State.abortConvoy s cid ver

theorem State.dropConvoys_wf (s : State) (tid : Nat) (h : s.memOk = true) :
    (State.dropConvoys s tid).memOk = true := by
  unfold State.dropConvoys
  grind
grind_pattern State.dropConvoys_wf => State.dropConvoys s tid

/-! ## Memory -/

theorem State.askPeer_wf (s : State) (since tid p : Nat) (a : Access) (x : LaneAcc) (rank addr : Nat)
    (h : s.memOk = true) : (State.askPeer s since tid p a x rank addr).memOk = true := by
  unfold State.askPeer
  grind [optOk]
grind_pattern State.askPeer_wf => State.askPeer s since tid p a x rank addr

theorem State.readView_wf (s : State) (core view : Nat) (t : Target) (n : Nat) (h : s.memOk = true) :
    (State.readView s core view t n).1.memOk = true := by
  unfold State.readView
  grind
grind_pattern State.readView_wf => State.readView s core view t n

theorem State.performLane_wf (s : State) (since core tid p : Nat) (a : Access) (x : LaneAcc) (h : s.memOk = true) :
    (State.performLane s since core tid p a x).1.memOk = true := by
  unfold State.performLane
  grind
grind_pattern State.performLane_wf => State.performLane s since core tid p a x

theorem State.performLanes_wf (s : State) (core tid p : Nat) (a : Access) (done todo : List LaneAcc) (since : Nat)
    (h : s.memOk = true) : (State.performLanes s core tid p a done todo since).1.memOk = true := by
  fun_induction State.performLanes s core tid p a done todo since <;> grind
grind_pattern State.performLanes_wf => State.performLanes s core tid p a done todo since

theorem State.settleAccess_wf (s : State) (tag : BitVec 16) (tid p : Nat) (a : Access) (h : s.memOk = true) :
    (State.settleAccess s tag tid p a).memOk = true := by
  unfold State.settleAccess
  grind
grind_pattern State.settleAccess_wf => State.settleAccess s tag tid p a

/-! ## Atomics -/

theorem State.hostAtomicFails_wf (s : State) (pa : Nat) (h : s.memOk = true) :
    (State.hostAtomicFails s pa).1.memOk = true := by
  unfold State.hostAtomicFails
  grind
grind_pattern State.hostAtomicFails_wf => State.hostAtomicFails s pa

theorem State.atomHere_wf (s : State) (core pa : Nat) (op : AOp) (ty : ATy) (k : AtomLane) (h : s.memOk = true) :
    (State.atomHere s core pa op ty k).1.memOk = true := by
  unfold State.atomHere
  grind
grind_pattern State.atomHere_wf => State.atomHere s core pa op ty k

theorem State.atomLanes_wf (s : State) (core tid p : Nat) (a : Access) (op : AOp) (ty : ATy) (done : List LaneAcc)
    (todo : List (LaneAcc × AtomLane)) (h : s.memOk = true) :
    (State.atomLanes s core tid p a op ty done todo).1.memOk = true := by
  fun_induction State.atomLanes s core tid p a op ty done todo <;> grind
grind_pattern State.atomLanes_wf => State.atomLanes s core tid p a op ty done todo

theorem State.makeRoom_wf (s : State) (pa : Nat) (h : s.memOk = true) : (State.makeRoom s pa).memOk = true := by
  unfold State.makeRoom
  grind
grind_pattern State.makeRoom_wf => State.makeRoom s pa

theorem State.enqueueRed_wf (s : State) (owner : Option (Nat × Nat)) (op : AOp) (ty : ATy) (pa : Nat)
    (add : RedEntry → RedEntry) (h : s.memOk = true) : (State.enqueueRed s owner op ty pa add).memOk = true := by
  unfold State.enqueueRed
  grind
grind_pattern State.enqueueRed_wf => State.enqueueRed s owner op ty pa add

theorem State.redLane_wf (s : State) (core tid p : Nat) (o : Origin) (acq : Bool) (op : AOp) (ty : ATy) (t : Target)
    (va : Nat) (k : AtomLane) (h : s.memOk = true) :
    (State.redLane s core tid p o acq op ty t va k).memOk = true := by
  unfold State.redLane
  grind
grind_pattern State.redLane_wf => State.redLane s core tid p o acq op ty t va k

theorem State.redCombined_wf (s : State) (core tid p : Nat) (o : Origin) (acq : Bool) (op : AOp) (ty : ATy)
    (x : Target × Nat × ℤ × Nat) (h : s.memOk = true) :
    (State.redCombined s core tid p o acq op ty x).memOk = true := by
  unfold State.redCombined
  grind
grind_pattern State.redCombined_wf => State.redCombined s core tid p o acq op ty x

theorem State.redLanes_wf (s : State) (core tid p : Nat) (o : Origin) (acq : Bool) (op : AOp) (ty : ATy)
    (ls : List (Target × Nat × AtomLane)) (h : s.memOk = true) :
    (State.redLanes s core tid p o acq op ty ls).memOk = true := by
  unfold State.redLanes
  grind
grind_pattern State.redLanes_wf => State.redLanes s core tid p o acq op ty ls

theorem State.hostLanes_wf (s : State) (ls : List LaneAcc) (h : s.memOk = true) :
    (State.hostLanes s ls).1.memOk = true := by
  fun_induction State.hostLanes s ls <;> grind
grind_pattern State.hostLanes_wf => State.hostLanes s ls

theorem State.reachLanes_wf (s : State) (ls : List LaneAcc) (n : Nat) (h : s.memOk = true) :
    (State.reachLanes s ls n).memOk = true := by
  unfold State.reachLanes
  exact foldl_memOk _ _ _ (fun s x h => by grind) h
grind_pattern State.reachLanes_wf => State.reachLanes s ls n

/-! ## Joins -/

theorem State.modRun_wf (s : State) (run : Nat) (f : Run → Run) (h : s.memOk = true) :
    (State.modRun s run f).memOk = true := by
  unfold State.modRun
  grind
grind_pattern State.modRun_wf => State.modRun s run f

theorem State.acceptRecs_wf (s : State) (run die node : Nat) (origin : Option Nat) (recs : List Rec) (fault : Bool)
    (h : s.memOk = true) : (State.acceptRecs s run die node origin recs fault).memOk = true := by
  unfold State.acceptRecs
  grind
grind_pattern State.acceptRecs_wf => State.acceptRecs s run die node origin recs fault

theorem State.emitConts_wf (s : State) (run die : Nat) (conts : List (Rec × Option Nat)) (h : s.memOk = true) :
    (State.emitConts s run die conts).memOk = true := by
  unfold State.emitConts
  grind
grind_pattern State.emitConts_wf => State.emitConts s run die conts

theorem State.resolveHere_wf (s : State) (key n : Nat) (h : s.memOk = true) :
    (State.resolveHere s key n).1.memOk = true := by
  unfold State.resolveHere
  grind
grind_pattern State.resolveHere_wf => State.resolveHere s key n

theorem State.resolve_wf (s : State) (tid : Nat) (o : Origin) (hd0 : Word) (n : Nat) (deferred : Bool)
    (lane : Option Nat) (late : Option Team) (h : s.memOk = true) :
    (State.resolve s tid o hd0 n deferred lane late).1.memOk = true := by
  unfold State.resolve
  grind
grind_pattern State.resolve_wf => State.resolve s tid o hd0 n deferred lane late

/-! ## Convoy -/

theorem State.committed_wf (s : State) (key : Nat) (c : CvSlot) (stamp : Nat) (h : s.memOk = true) :
    (State.committed s key c stamp).memOk = true := by
  unfold State.committed
  grind
grind_pattern State.committed_wf => State.committed s key c stamp

/-! ## Copy -/

theorem State.modChan_wf (s : State) (tid ch : Nat) (f : Channel → Channel) (h : s.memOk = true) :
    (State.modChan s tid ch f).memOk = true := by
  unfold State.modChan
  grind
grind_pattern State.modChan_wf => State.modChan s tid ch f

theorem State.setCmd_wf (s : State) (tid ch : Nat) (c : CopyCmd) (h : s.memOk = true) :
    (State.setCmd s tid ch c).memOk = true := by
  unfold State.setCmd
  grind
grind_pattern State.setCmd_wf => State.setCmd s tid ch c

theorem State.multicastIn_wf (s : State) (t : Team) (c : CopyCmd) (h : s.memOk = true) :
    (State.multicastIn s t c).memOk = true := by
  unfold State.multicastIn
  grind
grind_pattern State.multicastIn_wf => State.multicastIn s t c

theorem State.landed_wf (s : State) (tid ch : Nat) (h : s.memOk = true) : (State.landed s tid ch).memOk = true := by
  unfold State.landed
  grind
grind_pattern State.landed_wf => State.landed s tid ch

/-! ## System -/

theorem State.putSector_wf (s : State) (pa : Nat) (bs : List Byte) (bad : Bool) (h : s.memOk = true) :
    (State.putSector s pa bs bad).memOk = true := by
  unfold State.putSector
  grind
grind_pattern State.putSector_wf => State.putSector s pa bs bad

theorem State.copySectors_wf (s : State) (core : Option Nat) (tag : BitVec 16) (priv : Bool) (va pa n : Nat)
    (h : s.memOk = true) : (State.copySectors s core tag priv va pa n).1.memOk = true := by
  fun_induction State.copySectors s core tag priv va pa n <;> grind
grind_pattern State.copySectors_wf => State.copySectors s core tag priv va pa n

/-! ## Passes -/

theorem State.operand_wf (s : State) (tid : Nat) (hd0 : Handle) (r c : Nat) (h : s.memOk = true) :
    (State.operand s tid hd0 r c).1.memOk = true := by
  unfold State.operand
  grind
grind_pattern State.operand_wf => State.operand s tid hd0 r c

theorem State.elems_wf (s : State) (tid : Nat) (hd0 : Handle) (m : Map DWord) (ps : List (Nat × Nat × Nat))
    (h : s.memOk = true) : (State.elems s tid hd0 m ps).1.memOk = true := by
  fun_induction State.elems s tid hd0 m ps <;> grind
grind_pattern State.elems_wf => State.elems s tid hd0 m ps

/-! ## Placement -/

theorem State.occupied_wf (s : State) (core : Nat) (h : s.memOk = true) : (State.occupied s core).memOk = true := by
  unfold State.occupied
  grind
grind_pattern State.occupied_wf => State.occupied s core

theorem State.place_wf (s : State) (run : Nat) (r : Run) (n : Node) (k : Nat) (g : Gathered)
    (at_ : List (Nat × Word)) (h : s.memOk = true) : (State.place s run r n k g at_).memOk = true := by
  unfold State.place
  grind
grind_pattern State.place_wf => State.place s run r n k g at_

/-! ## HostBase -/

theorem State.setQueue_wf (s : State) (key : Nat) (q : Queue) (h : s.memOk = true) :
    (State.setQueue s key q).memOk = true := by
  unfold State.setQueue
  grind
grind_pattern State.setQueue_wf => State.setQueue s key q

theorem State.modQueue_wf (s : State) (key : Nat) (f : Queue → Queue) (h : s.memOk = true) :
    (State.modQueue s key f).memOk = true := by
  unfold State.modQueue
  grind
grind_pattern State.modQueue_wf => State.modQueue s key f

theorem State.modFn_wf (s : State) (f : Nat) (g : FnPage → FnPage) (h : s.memOk = true) :
    (State.modFn s f g).memOk = true := by
  unfold State.modFn
  grind
grind_pattern State.modFn_wf => State.modFn s f g

theorem State.failQueue_wf (s : State) (key err : Nat) (h : s.memOk = true) :
    (State.failQueue s key err).memOk = true := by
  unfold State.failQueue
  grind
grind_pattern State.failQueue_wf => State.failQueue s key err

theorem State.queueTarget_wf (s : State) (key : Nat) (u : Use) (va : Nat) (h : s.memOk = true) :
    (State.queueTarget s key u va).1.memOk = true := by
  unfold State.queueTarget
  grind
grind_pattern State.queueTarget_wf => State.queueTarget s key u va

theorem State.queueBytes_wf (s : State) (key va n : Nat) (h : s.memOk = true) :
    (State.queueBytes s key va n).1.memOk = true := by
  fun_induction State.queueBytes s key va n <;> grind
grind_pattern State.queueBytes_wf => State.queueBytes s key va n

theorem State.queueRead_wf (s : State) (key va n : Nat) (h : s.memOk = true) :
    (State.queueRead s key va n).1.memOk = true := by
  unfold State.queueRead
  have h1 := State.readAs_wf s { id := queueReader key, tid := 0, origin := noOrigin, serial := true } (fun s => s.queueBytes key va n) h
    (fun s h => State.queueBytes_wf s key va n h)
  dsimp only
  split
  · exact h1
  · exact State.usedBytes_wf _ _ h1
grind_pattern State.queueRead_wf => State.queueRead s key va n

theorem State.queueWrite_memOk (s : State) (key va : Nat) (bs : List Byte) (h : s.memOk = true) :
    optOk (State.queueWrite s key va bs) = true := by
  unfold State.queueWrite
  grind [optOk]
grind_pattern State.queueWrite_memOk => State.queueWrite s key va bs

theorem State.evalWait_wf (s : State) (key : Nat) (w : Rec) (h : s.memOk = true) :
    (State.evalWait s key w).1.memOk = true := by
  unfold State.evalWait
  grind
grind_pattern State.evalWait_wf => State.evalWait s key w

theorem State.putSignal_wf (s : State) (key : Nat) (va : DWord) (op : SigOp) (v : DWord) (h : s.memOk = true) :
    (State.putSignal s key va op v).memOk = true := by
  unfold State.putSignal
  grind
grind_pattern State.putSignal_wf => State.putSignal s key va op v

theorem State.modPacket_wf (s : State) (key idx : Nat) (f : Packet → Packet) (h : s.memOk = true) :
    (State.modPacket s key idx f).memOk = true := by
  unfold State.modPacket
  grind
grind_pattern State.modPacket_wf => State.modPacket s key idx f

theorem State.marked_wf (s : State) (key idx : Nat) (h : s.memOk = true) :
    (State.marked s key idx).memOk = true := by
  unfold State.marked
  grind
grind_pattern State.marked_wf => State.marked s key idx

theorem State.takeOut_wf (s : State) (key idx : Nat) (h : s.memOk = true) :
    (State.takeOut s key idx).1.memOk = true := by
  unfold State.takeOut
  grind
grind_pattern State.takeOut_wf => State.takeOut s key idx

theorem State.testWaits_wf (s : State) (keys : List Nat) (h : s.memOk = true) :
    (State.testWaits s keys).1.memOk = true := by
  unfold State.testWaits
  grind
grind_pattern State.testWaits_wf => State.testWaits s keys

theorem State.signalled_wf (s : State) (w : SigWrite) (id : Nat) (h : s.memOk = true) :
    (State.signalled s w id).1.memOk = true := by
  unfold State.signalled
  grind
grind_pattern State.signalled_wf => State.signalled s w id

theorem State.writeSignals_wf (s : State) (todo : List SigWrite) (fuel : Nat) (h : s.memOk = true) :
    (State.writeSignals s todo fuel).memOk = true := by
  fun_induction State.writeSignals s todo fuel <;> grind
grind_pattern State.writeSignals_wf => State.writeSignals s todo fuel

theorem State.completePacket_wf (s : State) (key idx : Nat) (h : s.memOk = true) :
    (State.completePacket s key idx).memOk = true := by
  unfold State.completePacket
  grind
grind_pattern State.completePacket_wf => State.completePacket s key idx

theorem State.signalLanded_wf (s : State) (id : Nat) (h : s.memOk = true) :
    (State.signalLanded s id).memOk = true := by
  unfold State.signalLanded
  grind
grind_pattern State.signalLanded_wf => State.signalLanded s id

theorem State.logFault_wf (s : State) (r : Run) (rec : Rec) (h : s.memOk = true) :
    (State.logFault s r rec).memOk = true := by
  unfold State.logFault
  grind [optOk]
grind_pattern State.logFault_wf => State.logFault s r rec

/-! ## Runs -/

theorem State.deliverFault_wf (s : State) (run : Nat) (r : Run) (t : Team) (f : FaultRec) (fatal : Bool)
    (h : s.memOk = true) : (State.deliverFault s run r t f fatal).memOk = true := by
  unfold State.deliverFault
  grind
grind_pattern State.deliverFault_wf => State.deliverFault s run r t f fatal

theorem State.lateFault_wf (s : State) (t : Team) (c : Cause) (h : s.memOk = true) :
    (State.lateFault s t c).memOk = true := by
  unfold State.lateFault
  grind
grind_pattern State.lateFault_wf => State.lateFault s t c

/-! ## Ssu -/

theorem State.ssuWord_wf (s : State) (tid a n : Nat) (h : s.memOk = true) :
    (State.ssuWord s tid a n).1.memOk = true := by
  unfold State.ssuWord
  grind
grind_pattern State.ssuWord_wf => State.ssuWord s tid a n

theorem State.advanceTo_wf (s : State) (tid base len i : Nat) (prev : Option Nat) (h : s.memOk = true) :
    (State.advanceTo s tid base len i prev).1.memOk = true := by
  unfold State.advanceTo
  grind
grind_pattern State.advanceTo_wf => State.advanceTo s tid base len i prev

theorem State.advanceBoth_wf (s : State) (tid : Nat) (c : SsuCmd) (k : Cursor) (a b : Bool) (h : s.memOk = true) :
    (State.advanceBoth s tid c k a b).1.memOk = true := by
  unfold State.advanceBoth
  grind
grind_pattern State.advanceBoth_wf => State.advanceBoth s tid c k a b

theorem State.merge_wf (s : State) (tid : Nat) (c : SsuCmd) (isInt keepz : Bool) (cb : Comb) (k : Cursor)
    (o : SsuOut) (fuel : Nat) (h : s.memOk = true) :
    (State.merge s tid c isInt keepz cb k o fuel).1.memOk = true := by
  fun_induction State.merge s tid c isInt keepz cb k o fuel <;> grind
grind_pattern State.merge_wf => State.merge s tid c isInt keepz cb k o fuel

/-! ## Preempt -/

theorem State.zeroFill_wf (s : State) (f : Nat) (h : s.memOk = true) : (State.zeroFill s f).memOk = true := by
  exact Store.wf_filter _ h
grind_pattern State.zeroFill_wf => State.zeroFill s f

/-! ## Fabric -/

theorem State.bringOver_wf (s : State) (pa : Nat) (h : s.memOk = true) : (State.bringOver s pa).memOk = true := by
  unfold State.bringOver
  grind
grind_pattern State.bringOver_wf => State.bringOver s pa

theorem State.pokeAll_wf (s : State) (place : Option Nat) (pa : Nat) (bs : List Byte) (h : s.memOk = true) :
    (State.pokeAll s place pa bs).memOk = true := by
  unfold State.pokeAll
  grind
grind_pattern State.pokeAll_wf => State.pokeAll s place pa bs

theorem State.pendRuns_wf (s : State) (cid : BitVec 24) (ver : Word) (pa : Nat) (source : Option Nat)
    (rs : List (Nat × List Byte)) (h : s.memOk = true) : excOk (State.pendRuns s cid ver pa source rs) = true := by
  fun_induction State.pendRuns s cid ver pa source rs <;> grind [excOk]
grind_pattern State.pendRuns_wf => State.pendRuns s cid ver pa source rs

theorem State.recordAtomic_wf (s : State) (r : FabReq) (v : DWord) (h : s.memOk = true) :
    (State.recordAtomic s r v).memOk = true := by
  unfold State.recordAtomic
  grind
grind_pattern State.recordAtomic_wf => State.recordAtomic s r v

theorem State.serveAtomic_wf (s : State) (r : FabReq) (op : AOp) (ty : ATy) (x new : DWord) (returns : Bool)
    (h : s.memOk = true) : (State.serveAtomic s r op ty x new returns).memOk = true := by
  unfold State.serveAtomic
  grind [Served.memOk]
grind_pattern State.serveAtomic_wf => State.serveAtomic s r op ty x new returns

theorem State.serveReduce_wf (s : State) (r : FabReq) (op : AOp) (ty : ATy) (c : ℤ × Nat) (acquires : Bool)
    (h : s.memOk = true) : (State.serveReduce s r op ty c acquires).memOk = true := by
  unfold State.serveReduce
  grind [Served.memOk]
grind_pattern State.serveReduce_wf => State.serveReduce s r op ty c acquires

theorem State.serveMemory_wf (s : State) (r : FabReq) (h : s.memOk = true) :
    (State.serveMemory s r).memOk = true := by
  unfold State.serveMemory
  split
  all_goals
    try dsimp only
    (repeat' split) <;> first
      | exact h
      | rfl
      | grind [Served.memOk, excOk]
grind_pattern State.serveMemory_wf => State.serveMemory s r

theorem State.answer_wf (s : State) (r : FabReq) (a : FabResp) (h : s.memOk = true) :
    (State.answer s r a).memOk = true := by
  unfold State.answer
  grind
grind_pattern State.answer_wf => State.answer s r a

theorem State.forget_wf (s : State) (o : Outstanding) (h : s.memOk = true) : (State.forget s o).memOk = true := by
  unfold State.forget
  grind
grind_pattern State.forget_wf => State.forget s o

theorem State.lose_wf (s : State) (o : Outstanding) (h : s.memOk = true) : (State.lose s o).memOk = true := by
  unfold State.lose
  grind
grind_pattern State.lose_wf => State.lose s o

theorem State.failRequest_wf (s : State) (o : Outstanding) (c : Cause) (deferred : Bool) (h : s.memOk = true) :
    (State.failRequest s o c deferred).memOk = true := by
  unfold State.failRequest
  grind
grind_pattern State.failRequest_wf => State.failRequest s o c deferred

theorem State.fillLanes_wf (s : State) (o : Outstanding) (a : Nat × Nat) (f : Nat → Nat → LaneAcc → LaneAcc)
    (h : s.memOk = true) : (State.fillLanes s o a f).memOk = true := by
  unfold State.fillLanes
  grind
grind_pattern State.fillLanes_wf => State.fillLanes s o a f

theorem State.refuse_wf (s : State) (o : Outstanding) (cause sub : Nat) (h : s.memOk = true) :
    (State.refuse s o cause sub).memOk = true := by
  unfold State.refuse
  grind
grind_pattern State.refuse_wf => State.refuse s o cause sub

theorem State.closeFails_wf (s : State) (o : Outstanding) (cid : BitVec 24) (ver : Word) (h : s.memOk = true) :
    (State.closeFails s o cid ver).memOk = true := by
  unfold State.closeFails
  grind
grind_pattern State.closeFails_wf => State.closeFails s o cid ver

/-! ## Device -/

theorem State.restart_wf (s : State) (h : s.memOk = true) : (State.restart s).memOk = true := by
  exact Store.wf_filter _ h
grind_pattern State.restart_wf => State.restart s

/-! ## Step -/

theorem State.withFetchWord_wf (s : State) (nbits w : Nat) (h : s.memOk = true) :
    (s.withFetchWord nbits w).memOk = true := wf_writeBytes _ h

/-! ## Reset -/

theorem State.reset_wf : State.reset.memOk = true := rfl

end Sys2Proof.Machine
end

