-- ==== Sys2Proof/Laws/PerInstr.lean ====
section
/-!
SUPPORT. The family `RoundTrip`, one lemma per constructor: the word and the literal words of an instruction that keeps
the limits decode, field by field, to that instruction, whatever words follow.
-/

set_option linter.unusedSimpArgs false
set_option linter.unreachableTactic false
set_option linter.unusedTactic false

namespace Sys2Proof.Laws.RoundTrip

open Sys2Proof

/-- The words of `i`, followed by any others, have exactly the fields of `i` (R159 to R170). -/
def Statement (i : Instr) : Prop :=
  ∀ w ls rest, i.illegal = none → encode i = w :: ls → decodeFields w (ls ++ rest) = .ok i

theorem sadd (d : SReg) (a : SReg) (b : SOp) : Statement (.sadd d a b) := by
  intro w ls rest hi he
  have hb : sbOk b = true := by
    have h2 : firstFailing _ = none := hi
    rw [firstFailing_eq_none] at h2; simp at h2; tauto
  obtain ⟨rfl, rfl⟩ := List.cons.inj he
  rw [decodeFields_0x01 _ _ (by simp only [fld_packSR_maj, fld_packSR_d, fld_packSR_a, fld_packSR_b, fld_packSR_fn] <;> rfl)]
  unfold decScalar
  simp (disch := decide) only [fld_packSR_maj, fld_packSR_d, fld_packSR_a, fld_packSR_b, fld_packSR_fn, sB_sbField _ _ hb, sOf7_s7,
    sLit_sWord, vLit_vWord, List.append_assoc, List.cons_append, List.nil_append, List.append_nil,
    fld_packSR_within_d, fld_packSR_within_a, fld_packSR_within_b, fld_packSR_within_fn, extract_append_high,
    extract_append_low, extract_all, Nat.reduceSub]
  first
  | rfl
  | simp (disch := decide) [need, coded, takeLit, Bind.bind, Except.bind, Pure.pure, Except.pure, fld_packSR_maj, fld_packSR_d,
    fld_packSR_a, fld_packSR_b, fld_packSR_fn, sB_sbField _ _ hb, sOf7_s7, sLit_sWord, vLit_vWord,
    List.append_assoc, List.cons_append, List.nil_append, List.append_nil, fld_packSR_within_d,
    fld_packSR_within_a, fld_packSR_within_b, fld_packSR_within_fn, extract_append_high, extract_append_low,
    extract_all, fld_packSR_zeros]

theorem ssub (d : SReg) (a : SReg) (b : SOp) : Statement (.ssub d a b) := by
  intro w ls rest hi he
  have hb : sbOk b = true := by
    have h2 : firstFailing _ = none := hi
    rw [firstFailing_eq_none] at h2; simp at h2; tauto
  obtain ⟨rfl, rfl⟩ := List.cons.inj he
  rw [decodeFields_0x01 _ _ (by simp only [fld_packSR_maj, fld_packSR_d, fld_packSR_a, fld_packSR_b, fld_packSR_fn] <;> rfl)]
  unfold decScalar
  simp (disch := decide) only [fld_packSR_maj, fld_packSR_d, fld_packSR_a, fld_packSR_b, fld_packSR_fn, sB_sbField _ _ hb, sOf7_s7,
    sLit_sWord, vLit_vWord, List.append_assoc, List.cons_append, List.nil_append, List.append_nil,
    fld_packSR_within_d, fld_packSR_within_a, fld_packSR_within_b, fld_packSR_within_fn, extract_append_high,
    extract_append_low, extract_all, Nat.reduceSub]
  first
  | rfl
  | simp (disch := decide) [need, coded, takeLit, Bind.bind, Except.bind, Pure.pure, Except.pure, fld_packSR_maj, fld_packSR_d,
    fld_packSR_a, fld_packSR_b, fld_packSR_fn, sB_sbField _ _ hb, sOf7_s7, sLit_sWord, vLit_vWord,
    List.append_assoc, List.cons_append, List.nil_append, List.append_nil, fld_packSR_within_d,
    fld_packSR_within_a, fld_packSR_within_b, fld_packSR_within_fn, extract_append_high, extract_append_low,
    extract_all, fld_packSR_zeros]

theorem smul (d : SReg) (a : SReg) (b : SOp) : Statement (.smul d a b) := by
  intro w ls rest hi he
  have hb : sbOk b = true := by
    have h2 : firstFailing _ = none := hi
    rw [firstFailing_eq_none] at h2; simp at h2; tauto
  obtain ⟨rfl, rfl⟩ := List.cons.inj he
  rw [decodeFields_0x01 _ _ (by simp only [fld_packSR_maj, fld_packSR_d, fld_packSR_a, fld_packSR_b, fld_packSR_fn] <;> rfl)]
  unfold decScalar
  simp (disch := decide) only [fld_packSR_maj, fld_packSR_d, fld_packSR_a, fld_packSR_b, fld_packSR_fn, sB_sbField _ _ hb, sOf7_s7,
    sLit_sWord, vLit_vWord, List.append_assoc, List.cons_append, List.nil_append, List.append_nil,
    fld_packSR_within_d, fld_packSR_within_a, fld_packSR_within_b, fld_packSR_within_fn, extract_append_high,
    extract_append_low, extract_all, Nat.reduceSub]
  first
  | rfl
  | simp (disch := decide) [need, coded, takeLit, Bind.bind, Except.bind, Pure.pure, Except.pure, fld_packSR_maj, fld_packSR_d,
    fld_packSR_a, fld_packSR_b, fld_packSR_fn, sB_sbField _ _ hb, sOf7_s7, sLit_sWord, vLit_vWord,
    List.append_assoc, List.cons_append, List.nil_append, List.append_nil, fld_packSR_within_d,
    fld_packSR_within_a, fld_packSR_within_b, fld_packSR_within_fn, extract_append_high, extract_append_low,
    extract_all, fld_packSR_zeros]

theorem smulhI32 (d : SReg) (a : SReg) (b : SOp) : Statement (.smulhI32 d a b) := by
  intro w ls rest hi he
  have hb : sbOk b = true := by
    have h2 : firstFailing _ = none := hi
    rw [firstFailing_eq_none] at h2; simp at h2; tauto
  obtain ⟨rfl, rfl⟩ := List.cons.inj he
  rw [decodeFields_0x01 _ _ (by simp only [fld_packSR_maj, fld_packSR_d, fld_packSR_a, fld_packSR_b, fld_packSR_fn] <;> rfl)]
  unfold decScalar
  simp (disch := decide) only [fld_packSR_maj, fld_packSR_d, fld_packSR_a, fld_packSR_b, fld_packSR_fn, sB_sbField _ _ hb, sOf7_s7,
    sLit_sWord, vLit_vWord, List.append_assoc, List.cons_append, List.nil_append, List.append_nil,
    fld_packSR_within_d, fld_packSR_within_a, fld_packSR_within_b, fld_packSR_within_fn, extract_append_high,
    extract_append_low, extract_all, Nat.reduceSub]
  first
  | rfl
  | simp (disch := decide) [need, coded, takeLit, Bind.bind, Except.bind, Pure.pure, Except.pure, fld_packSR_maj, fld_packSR_d,
    fld_packSR_a, fld_packSR_b, fld_packSR_fn, sB_sbField _ _ hb, sOf7_s7, sLit_sWord, vLit_vWord,
    List.append_assoc, List.cons_append, List.nil_append, List.append_nil, fld_packSR_within_d,
    fld_packSR_within_a, fld_packSR_within_b, fld_packSR_within_fn, extract_append_high, extract_append_low,
    extract_all, fld_packSR_zeros]

theorem smulhN32 (d : SReg) (a : SReg) (b : SOp) : Statement (.smulhN32 d a b) := by
  intro w ls rest hi he
  have hb : sbOk b = true := by
    have h2 : firstFailing _ = none := hi
    rw [firstFailing_eq_none] at h2; simp at h2; tauto
  obtain ⟨rfl, rfl⟩ := List.cons.inj he
  rw [decodeFields_0x01 _ _ (by simp only [fld_packSR_maj, fld_packSR_d, fld_packSR_a, fld_packSR_b, fld_packSR_fn] <;> rfl)]
  unfold decScalar
  simp (disch := decide) only [fld_packSR_maj, fld_packSR_d, fld_packSR_a, fld_packSR_b, fld_packSR_fn, sB_sbField _ _ hb, sOf7_s7,
    sLit_sWord, vLit_vWord, List.append_assoc, List.cons_append, List.nil_append, List.append_nil,
    fld_packSR_within_d, fld_packSR_within_a, fld_packSR_within_b, fld_packSR_within_fn, extract_append_high,
    extract_append_low, extract_all, Nat.reduceSub]
  first
  | rfl
  | simp (disch := decide) [need, coded, takeLit, Bind.bind, Except.bind, Pure.pure, Except.pure, fld_packSR_maj, fld_packSR_d,
    fld_packSR_a, fld_packSR_b, fld_packSR_fn, sB_sbField _ _ hb, sOf7_s7, sLit_sWord, vLit_vWord,
    List.append_assoc, List.cons_append, List.nil_append, List.append_nil, fld_packSR_within_d,
    fld_packSR_within_a, fld_packSR_within_b, fld_packSR_within_fn, extract_append_high, extract_append_low,
    extract_all, fld_packSR_zeros]

theorem sand (d : SReg) (a : SReg) (b : SOp) : Statement (.sand d a b) := by
  intro w ls rest hi he
  have hb : sbOk b = true := by
    have h2 : firstFailing _ = none := hi
    rw [firstFailing_eq_none] at h2; simp at h2; tauto
  obtain ⟨rfl, rfl⟩ := List.cons.inj he
  rw [decodeFields_0x01 _ _ (by simp only [fld_packSR_maj, fld_packSR_d, fld_packSR_a, fld_packSR_b, fld_packSR_fn] <;> rfl)]
  unfold decScalar
  simp (disch := decide) only [fld_packSR_maj, fld_packSR_d, fld_packSR_a, fld_packSR_b, fld_packSR_fn, sB_sbField _ _ hb, sOf7_s7,
    sLit_sWord, vLit_vWord, List.append_assoc, List.cons_append, List.nil_append, List.append_nil,
    fld_packSR_within_d, fld_packSR_within_a, fld_packSR_within_b, fld_packSR_within_fn, extract_append_high,
    extract_append_low, extract_all, Nat.reduceSub]
  first
  | rfl
  | simp (disch := decide) [need, coded, takeLit, Bind.bind, Except.bind, Pure.pure, Except.pure, fld_packSR_maj, fld_packSR_d,
    fld_packSR_a, fld_packSR_b, fld_packSR_fn, sB_sbField _ _ hb, sOf7_s7, sLit_sWord, vLit_vWord,
    List.append_assoc, List.cons_append, List.nil_append, List.append_nil, fld_packSR_within_d,
    fld_packSR_within_a, fld_packSR_within_b, fld_packSR_within_fn, extract_append_high, extract_append_low,
    extract_all, fld_packSR_zeros]

theorem sor (d : SReg) (a : SReg) (b : SOp) : Statement (.sor d a b) := by
  intro w ls rest hi he
  have hb : sbOk b = true := by
    have h2 : firstFailing _ = none := hi
    rw [firstFailing_eq_none] at h2; simp at h2; tauto
  obtain ⟨rfl, rfl⟩ := List.cons.inj he
  rw [decodeFields_0x01 _ _ (by simp only [fld_packSR_maj, fld_packSR_d, fld_packSR_a, fld_packSR_b, fld_packSR_fn] <;> rfl)]
  unfold decScalar
  simp (disch := decide) only [fld_packSR_maj, fld_packSR_d, fld_packSR_a, fld_packSR_b, fld_packSR_fn, sB_sbField _ _ hb, sOf7_s7,
    sLit_sWord, vLit_vWord, List.append_assoc, List.cons_append, List.nil_append, List.append_nil,
    fld_packSR_within_d, fld_packSR_within_a, fld_packSR_within_b, fld_packSR_within_fn, extract_append_high,
    extract_append_low, extract_all, Nat.reduceSub]
  first
  | rfl
  | simp (disch := decide) [need, coded, takeLit, Bind.bind, Except.bind, Pure.pure, Except.pure, fld_packSR_maj, fld_packSR_d,
    fld_packSR_a, fld_packSR_b, fld_packSR_fn, sB_sbField _ _ hb, sOf7_s7, sLit_sWord, vLit_vWord,
    List.append_assoc, List.cons_append, List.nil_append, List.append_nil, fld_packSR_within_d,
    fld_packSR_within_a, fld_packSR_within_b, fld_packSR_within_fn, extract_append_high, extract_append_low,
    extract_all, fld_packSR_zeros]

theorem sxor (d : SReg) (a : SReg) (b : SOp) : Statement (.sxor d a b) := by
  intro w ls rest hi he
  have hb : sbOk b = true := by
    have h2 : firstFailing _ = none := hi
    rw [firstFailing_eq_none] at h2; simp at h2; tauto
  obtain ⟨rfl, rfl⟩ := List.cons.inj he
  rw [decodeFields_0x01 _ _ (by simp only [fld_packSR_maj, fld_packSR_d, fld_packSR_a, fld_packSR_b, fld_packSR_fn] <;> rfl)]
  unfold decScalar
  simp (disch := decide) only [fld_packSR_maj, fld_packSR_d, fld_packSR_a, fld_packSR_b, fld_packSR_fn, sB_sbField _ _ hb, sOf7_s7,
    sLit_sWord, vLit_vWord, List.append_assoc, List.cons_append, List.nil_append, List.append_nil,
    fld_packSR_within_d, fld_packSR_within_a, fld_packSR_within_b, fld_packSR_within_fn, extract_append_high,
    extract_append_low, extract_all, Nat.reduceSub]
  first
  | rfl
  | simp (disch := decide) [need, coded, takeLit, Bind.bind, Except.bind, Pure.pure, Except.pure, fld_packSR_maj, fld_packSR_d,
    fld_packSR_a, fld_packSR_b, fld_packSR_fn, sB_sbField _ _ hb, sOf7_s7, sLit_sWord, vLit_vWord,
    List.append_assoc, List.cons_append, List.nil_append, List.append_nil, fld_packSR_within_d,
    fld_packSR_within_a, fld_packSR_within_b, fld_packSR_within_fn, extract_append_high, extract_append_low,
    extract_all, fld_packSR_zeros]

theorem sshl (d : SReg) (a : SReg) (b : SOp) : Statement (.sshl d a b) := by
  intro w ls rest hi he
  have hb : sbOk b = true := by
    have h2 : firstFailing _ = none := hi
    rw [firstFailing_eq_none] at h2; simp at h2; tauto
  obtain ⟨rfl, rfl⟩ := List.cons.inj he
  rw [decodeFields_0x01 _ _ (by simp only [fld_packSR_maj, fld_packSR_d, fld_packSR_a, fld_packSR_b, fld_packSR_fn] <;> rfl)]
  unfold decScalar
  simp (disch := decide) only [fld_packSR_maj, fld_packSR_d, fld_packSR_a, fld_packSR_b, fld_packSR_fn, sB_sbField _ _ hb, sOf7_s7,
    sLit_sWord, vLit_vWord, List.append_assoc, List.cons_append, List.nil_append, List.append_nil,
    fld_packSR_within_d, fld_packSR_within_a, fld_packSR_within_b, fld_packSR_within_fn, extract_append_high,
    extract_append_low, extract_all, Nat.reduceSub]
  first
  | rfl
  | simp (disch := decide) [need, coded, takeLit, Bind.bind, Except.bind, Pure.pure, Except.pure, fld_packSR_maj, fld_packSR_d,
    fld_packSR_a, fld_packSR_b, fld_packSR_fn, sB_sbField _ _ hb, sOf7_s7, sLit_sWord, vLit_vWord,
    List.append_assoc, List.cons_append, List.nil_append, List.append_nil, fld_packSR_within_d,
    fld_packSR_within_a, fld_packSR_within_b, fld_packSR_within_fn, extract_append_high, extract_append_low,
    extract_all, fld_packSR_zeros]

theorem sshr (d : SReg) (a : SReg) (b : SOp) : Statement (.sshr d a b) := by
  intro w ls rest hi he
  have hb : sbOk b = true := by
    have h2 : firstFailing _ = none := hi
    rw [firstFailing_eq_none] at h2; simp at h2; tauto
  obtain ⟨rfl, rfl⟩ := List.cons.inj he
  rw [decodeFields_0x01 _ _ (by simp only [fld_packSR_maj, fld_packSR_d, fld_packSR_a, fld_packSR_b, fld_packSR_fn] <;> rfl)]
  unfold decScalar
  simp (disch := decide) only [fld_packSR_maj, fld_packSR_d, fld_packSR_a, fld_packSR_b, fld_packSR_fn, sB_sbField _ _ hb, sOf7_s7,
    sLit_sWord, vLit_vWord, List.append_assoc, List.cons_append, List.nil_append, List.append_nil,
    fld_packSR_within_d, fld_packSR_within_a, fld_packSR_within_b, fld_packSR_within_fn, extract_append_high,
    extract_append_low, extract_all, Nat.reduceSub]
  first
  | rfl
  | simp (disch := decide) [need, coded, takeLit, Bind.bind, Except.bind, Pure.pure, Except.pure, fld_packSR_maj, fld_packSR_d,
    fld_packSR_a, fld_packSR_b, fld_packSR_fn, sB_sbField _ _ hb, sOf7_s7, sLit_sWord, vLit_vWord,
    List.append_assoc, List.cons_append, List.nil_append, List.append_nil, fld_packSR_within_d,
    fld_packSR_within_a, fld_packSR_within_b, fld_packSR_within_fn, extract_append_high, extract_append_low,
    extract_all, fld_packSR_zeros]

theorem ssra (d : SReg) (a : SReg) (b : SOp) : Statement (.ssra d a b) := by
  intro w ls rest hi he
  have hb : sbOk b = true := by
    have h2 : firstFailing _ = none := hi
    rw [firstFailing_eq_none] at h2; simp at h2; tauto
  obtain ⟨rfl, rfl⟩ := List.cons.inj he
  rw [decodeFields_0x01 _ _ (by simp only [fld_packSR_maj, fld_packSR_d, fld_packSR_a, fld_packSR_b, fld_packSR_fn] <;> rfl)]
  unfold decScalar
  simp (disch := decide) only [fld_packSR_maj, fld_packSR_d, fld_packSR_a, fld_packSR_b, fld_packSR_fn, sB_sbField _ _ hb, sOf7_s7,
    sLit_sWord, vLit_vWord, List.append_assoc, List.cons_append, List.nil_append, List.append_nil,
    fld_packSR_within_d, fld_packSR_within_a, fld_packSR_within_b, fld_packSR_within_fn, extract_append_high,
    extract_append_low, extract_all, Nat.reduceSub]
  first
  | rfl
  | simp (disch := decide) [need, coded, takeLit, Bind.bind, Except.bind, Pure.pure, Except.pure, fld_packSR_maj, fld_packSR_d,
    fld_packSR_a, fld_packSR_b, fld_packSR_fn, sB_sbField _ _ hb, sOf7_s7, sLit_sWord, vLit_vWord,
    List.append_assoc, List.cons_append, List.nil_append, List.append_nil, fld_packSR_within_d,
    fld_packSR_within_a, fld_packSR_within_b, fld_packSR_within_fn, extract_append_high, extract_append_low,
    extract_all, fld_packSR_zeros]

theorem sminI32 (d : SReg) (a : SReg) (b : SOp) : Statement (.sminI32 d a b) := by
  intro w ls rest hi he
  have hb : sbOk b = true := by
    have h2 : firstFailing _ = none := hi
    rw [firstFailing_eq_none] at h2; simp at h2; tauto
  obtain ⟨rfl, rfl⟩ := List.cons.inj he
  rw [decodeFields_0x01 _ _ (by simp only [fld_packSR_maj, fld_packSR_d, fld_packSR_a, fld_packSR_b, fld_packSR_fn] <;> rfl)]
  unfold decScalar
  simp (disch := decide) only [fld_packSR_maj, fld_packSR_d, fld_packSR_a, fld_packSR_b, fld_packSR_fn, sB_sbField _ _ hb, sOf7_s7,
    sLit_sWord, vLit_vWord, List.append_assoc, List.cons_append, List.nil_append, List.append_nil,
    fld_packSR_within_d, fld_packSR_within_a, fld_packSR_within_b, fld_packSR_within_fn, extract_append_high,
    extract_append_low, extract_all, Nat.reduceSub]
  first
  | rfl
  | simp (disch := decide) [need, coded, takeLit, Bind.bind, Except.bind, Pure.pure, Except.pure, fld_packSR_maj, fld_packSR_d,
    fld_packSR_a, fld_packSR_b, fld_packSR_fn, sB_sbField _ _ hb, sOf7_s7, sLit_sWord, vLit_vWord,
    List.append_assoc, List.cons_append, List.nil_append, List.append_nil, fld_packSR_within_d,
    fld_packSR_within_a, fld_packSR_within_b, fld_packSR_within_fn, extract_append_high, extract_append_low,
    extract_all, fld_packSR_zeros]

theorem sminN32 (d : SReg) (a : SReg) (b : SOp) : Statement (.sminN32 d a b) := by
  intro w ls rest hi he
  have hb : sbOk b = true := by
    have h2 : firstFailing _ = none := hi
    rw [firstFailing_eq_none] at h2; simp at h2; tauto
  obtain ⟨rfl, rfl⟩ := List.cons.inj he
  rw [decodeFields_0x01 _ _ (by simp only [fld_packSR_maj, fld_packSR_d, fld_packSR_a, fld_packSR_b, fld_packSR_fn] <;> rfl)]
  unfold decScalar
  simp (disch := decide) only [fld_packSR_maj, fld_packSR_d, fld_packSR_a, fld_packSR_b, fld_packSR_fn, sB_sbField _ _ hb, sOf7_s7,
    sLit_sWord, vLit_vWord, List.append_assoc, List.cons_append, List.nil_append, List.append_nil,
    fld_packSR_within_d, fld_packSR_within_a, fld_packSR_within_b, fld_packSR_within_fn, extract_append_high,
    extract_append_low, extract_all, Nat.reduceSub]
  first
  | rfl
  | simp (disch := decide) [need, coded, takeLit, Bind.bind, Except.bind, Pure.pure, Except.pure, fld_packSR_maj, fld_packSR_d,
    fld_packSR_a, fld_packSR_b, fld_packSR_fn, sB_sbField _ _ hb, sOf7_s7, sLit_sWord, vLit_vWord,
    List.append_assoc, List.cons_append, List.nil_append, List.append_nil, fld_packSR_within_d,
    fld_packSR_within_a, fld_packSR_within_b, fld_packSR_within_fn, extract_append_high, extract_append_low,
    extract_all, fld_packSR_zeros]

theorem smaxI32 (d : SReg) (a : SReg) (b : SOp) : Statement (.smaxI32 d a b) := by
  intro w ls rest hi he
  have hb : sbOk b = true := by
    have h2 : firstFailing _ = none := hi
    rw [firstFailing_eq_none] at h2; simp at h2; tauto
  obtain ⟨rfl, rfl⟩ := List.cons.inj he
  rw [decodeFields_0x01 _ _ (by simp only [fld_packSR_maj, fld_packSR_d, fld_packSR_a, fld_packSR_b, fld_packSR_fn] <;> rfl)]
  unfold decScalar
  simp (disch := decide) only [fld_packSR_maj, fld_packSR_d, fld_packSR_a, fld_packSR_b, fld_packSR_fn, sB_sbField _ _ hb, sOf7_s7,
    sLit_sWord, vLit_vWord, List.append_assoc, List.cons_append, List.nil_append, List.append_nil,
    fld_packSR_within_d, fld_packSR_within_a, fld_packSR_within_b, fld_packSR_within_fn, extract_append_high,
    extract_append_low, extract_all, Nat.reduceSub]
  first
  | rfl
  | simp (disch := decide) [need, coded, takeLit, Bind.bind, Except.bind, Pure.pure, Except.pure, fld_packSR_maj, fld_packSR_d,
    fld_packSR_a, fld_packSR_b, fld_packSR_fn, sB_sbField _ _ hb, sOf7_s7, sLit_sWord, vLit_vWord,
    List.append_assoc, List.cons_append, List.nil_append, List.append_nil, fld_packSR_within_d,
    fld_packSR_within_a, fld_packSR_within_b, fld_packSR_within_fn, extract_append_high, extract_append_low,
    extract_all, fld_packSR_zeros]

theorem smaxN32 (d : SReg) (a : SReg) (b : SOp) : Statement (.smaxN32 d a b) := by
  intro w ls rest hi he
  have hb : sbOk b = true := by
    have h2 : firstFailing _ = none := hi
    rw [firstFailing_eq_none] at h2; simp at h2; tauto
  obtain ⟨rfl, rfl⟩ := List.cons.inj he
  rw [decodeFields_0x01 _ _ (by simp only [fld_packSR_maj, fld_packSR_d, fld_packSR_a, fld_packSR_b, fld_packSR_fn] <;> rfl)]
  unfold decScalar
  simp (disch := decide) only [fld_packSR_maj, fld_packSR_d, fld_packSR_a, fld_packSR_b, fld_packSR_fn, sB_sbField _ _ hb, sOf7_s7,
    sLit_sWord, vLit_vWord, List.append_assoc, List.cons_append, List.nil_append, List.append_nil,
    fld_packSR_within_d, fld_packSR_within_a, fld_packSR_within_b, fld_packSR_within_fn, extract_append_high,
    extract_append_low, extract_all, Nat.reduceSub]
  first
  | rfl
  | simp (disch := decide) [need, coded, takeLit, Bind.bind, Except.bind, Pure.pure, Except.pure, fld_packSR_maj, fld_packSR_d,
    fld_packSR_a, fld_packSR_b, fld_packSR_fn, sB_sbField _ _ hb, sOf7_s7, sLit_sWord, vLit_vWord,
    List.append_assoc, List.cons_append, List.nil_append, List.append_nil, fld_packSR_within_d,
    fld_packSR_within_a, fld_packSR_within_b, fld_packSR_within_fn, extract_append_high, extract_append_low,
    extract_all, fld_packSR_zeros]

theorem smov (d : SReg) (a : SReg) : Statement (.smov d a) := by
  intro w ls rest hi he
  obtain ⟨rfl, rfl⟩ := List.cons.inj he
  rw [decodeFields_0x01 _ _ (by simp only [fld_packSR_maj, fld_packSR_d, fld_packSR_a, fld_packSR_b, fld_packSR_fn] <;> rfl)]
  unfold decScalar
  simp (disch := decide) only [fld_packSR_maj, fld_packSR_d, fld_packSR_a, fld_packSR_b, fld_packSR_fn, sOf7_s7, sLit_sWord, vLit_vWord,
    List.append_assoc, List.cons_append, List.nil_append, List.append_nil, fld_packSR_within_d,
    fld_packSR_within_a, fld_packSR_within_b, fld_packSR_within_fn, extract_append_high, extract_append_low,
    extract_all, Nat.reduceSub]
  first
  | rfl
  | simp (disch := decide) [need, coded, takeLit, Bind.bind, Except.bind, Pure.pure, Except.pure, fld_packSR_maj, fld_packSR_d,
    fld_packSR_a, fld_packSR_b, fld_packSR_fn, sOf7_s7, sLit_sWord, vLit_vWord, List.append_assoc,
    List.cons_append, List.nil_append, List.append_nil, fld_packSR_within_d, fld_packSR_within_a,
    fld_packSR_within_b, fld_packSR_within_fn, extract_append_high, extract_append_low, extract_all,
    fld_packSR_zeros]

theorem spopc (d : SReg) (a : SReg) : Statement (.spopc d a) := by
  intro w ls rest hi he
  obtain ⟨rfl, rfl⟩ := List.cons.inj he
  rw [decodeFields_0x01 _ _ (by simp only [fld_packSR_maj, fld_packSR_d, fld_packSR_a, fld_packSR_b, fld_packSR_fn] <;> rfl)]
  unfold decScalar
  simp (disch := decide) only [fld_packSR_maj, fld_packSR_d, fld_packSR_a, fld_packSR_b, fld_packSR_fn, sOf7_s7, sLit_sWord, vLit_vWord,
    List.append_assoc, List.cons_append, List.nil_append, List.append_nil, fld_packSR_within_d,
    fld_packSR_within_a, fld_packSR_within_b, fld_packSR_within_fn, extract_append_high, extract_append_low,
    extract_all, Nat.reduceSub]
  first
  | rfl
  | simp (disch := decide) [need, coded, takeLit, Bind.bind, Except.bind, Pure.pure, Except.pure, fld_packSR_maj, fld_packSR_d,
    fld_packSR_a, fld_packSR_b, fld_packSR_fn, sOf7_s7, sLit_sWord, vLit_vWord, List.append_assoc,
    List.cons_append, List.nil_append, List.append_nil, fld_packSR_within_d, fld_packSR_within_a,
    fld_packSR_within_b, fld_packSR_within_fn, extract_append_high, extract_append_low, extract_all,
    fld_packSR_zeros]

theorem sclz (d : SReg) (a : SReg) : Statement (.sclz d a) := by
  intro w ls rest hi he
  obtain ⟨rfl, rfl⟩ := List.cons.inj he
  rw [decodeFields_0x01 _ _ (by simp only [fld_packSR_maj, fld_packSR_d, fld_packSR_a, fld_packSR_b, fld_packSR_fn] <;> rfl)]
  unfold decScalar
  simp (disch := decide) only [fld_packSR_maj, fld_packSR_d, fld_packSR_a, fld_packSR_b, fld_packSR_fn, sOf7_s7, sLit_sWord, vLit_vWord,
    List.append_assoc, List.cons_append, List.nil_append, List.append_nil, fld_packSR_within_d,
    fld_packSR_within_a, fld_packSR_within_b, fld_packSR_within_fn, extract_append_high, extract_append_low,
    extract_all, Nat.reduceSub]
  first
  | rfl
  | simp (disch := decide) [need, coded, takeLit, Bind.bind, Except.bind, Pure.pure, Except.pure, fld_packSR_maj, fld_packSR_d,
    fld_packSR_a, fld_packSR_b, fld_packSR_fn, sOf7_s7, sLit_sWord, vLit_vWord, List.append_assoc,
    List.cons_append, List.nil_append, List.append_nil, fld_packSR_within_d, fld_packSR_within_a,
    fld_packSR_within_b, fld_packSR_within_fn, extract_append_high, extract_append_low, extract_all,
    fld_packSR_zeros]

theorem sffs (d : SReg) (a : SReg) : Statement (.sffs d a) := by
  intro w ls rest hi he
  obtain ⟨rfl, rfl⟩ := List.cons.inj he
  rw [decodeFields_0x01 _ _ (by simp only [fld_packSR_maj, fld_packSR_d, fld_packSR_a, fld_packSR_b, fld_packSR_fn] <;> rfl)]
  unfold decScalar
  simp (disch := decide) only [fld_packSR_maj, fld_packSR_d, fld_packSR_a, fld_packSR_b, fld_packSR_fn, sOf7_s7, sLit_sWord, vLit_vWord,
    List.append_assoc, List.cons_append, List.nil_append, List.append_nil, fld_packSR_within_d,
    fld_packSR_within_a, fld_packSR_within_b, fld_packSR_within_fn, extract_append_high, extract_append_low,
    extract_all, Nat.reduceSub]
  first
  | rfl
  | simp (disch := decide) [need, coded, takeLit, Bind.bind, Except.bind, Pure.pure, Except.pure, fld_packSR_maj, fld_packSR_d,
    fld_packSR_a, fld_packSR_b, fld_packSR_fn, sOf7_s7, sLit_sWord, vLit_vWord, List.append_assoc,
    List.cons_append, List.nil_append, List.append_nil, fld_packSR_within_d, fld_packSR_within_a,
    fld_packSR_within_b, fld_packSR_within_fn, extract_append_high, extract_append_low, extract_all,
    fld_packSR_zeros]

theorem scmp (c : ICond) (d : SReg) (a : SReg) (b : SOp) : Statement (.scmp c d a b) := by
  intro w ls rest hi he
  have hb : sbOk b = true := by
    have h2 : firstFailing _ = none := hi
    rw [firstFailing_eq_none] at h2; simp at h2; tauto
  obtain ⟨rfl, rfl⟩ := List.cons.inj he
  rw [decodeFields_0x01 _ _ (by simp only [fld_packSR_maj, fld_packSR_d, fld_packSR_a, fld_packSR_b, fld_packSR_fn] <;> rfl)]
  unfold decScalar
  simp (disch := decide) only [fld_packSR_maj, fld_packSR_d, fld_packSR_a, fld_packSR_b, fld_packSR_fn, sB_sbField _ _ hb, ICond.ofCode_code,
    sOf7_s7, sLit_sWord, vLit_vWord, List.append_assoc, List.cons_append, List.nil_append, List.append_nil,
    fld_packSR_within_d, fld_packSR_within_a, fld_packSR_within_b, fld_packSR_within_fn, extract_append_high,
    extract_append_low, extract_all, Nat.reduceSub]
  first
  | rfl
  | simp (disch := decide) [need, coded, takeLit, Bind.bind, Except.bind, Pure.pure, Except.pure, fld_packSR_maj, fld_packSR_d,
    fld_packSR_a, fld_packSR_b, fld_packSR_fn, sB_sbField _ _ hb, ICond.ofCode_code, sOf7_s7, sLit_sWord,
    vLit_vWord, List.append_assoc, List.cons_append, List.nil_append, List.append_nil, fld_packSR_within_d,
    fld_packSR_within_a, fld_packSR_within_b, fld_packSR_within_fn, extract_append_high, extract_append_low,
    extract_all, fld_packSR_zeros]

theorem ssel (c : SReg) (d : SReg) (a : SReg) (b : SOp) : Statement (.ssel c d a b) := by
  intro w ls rest hi he
  have hb : sbOk b = true := by
    have h2 : firstFailing _ = none := hi
    rw [firstFailing_eq_none] at h2; simp at h2; tauto
  obtain ⟨rfl, rfl⟩ := List.cons.inj he
  rw [decodeFields_0x01 _ _ (by simp only [fld_packSR_maj, fld_packSR_d, fld_packSR_a, fld_packSR_b, fld_packSR_fn] <;> rfl)]
  unfold decScalar
  simp (disch := decide) only [fld_packSR_maj, fld_packSR_d, fld_packSR_a, fld_packSR_b, fld_packSR_fn, sB_sbField _ _ hb, sOf7_s7,
    sLit_sWord, vLit_vWord, List.append_assoc, List.cons_append, List.nil_append, List.append_nil,
    fld_packSR_within_d, fld_packSR_within_a, fld_packSR_within_b, fld_packSR_within_fn, extract_append_high,
    extract_append_low, extract_all, Nat.reduceSub]
  first
  | rfl
  | simp (disch := decide) [need, coded, takeLit, Bind.bind, Except.bind, Pure.pure, Except.pure, fld_packSR_maj, fld_packSR_d,
    fld_packSR_a, fld_packSR_b, fld_packSR_fn, sB_sbField _ _ hb, sOf7_s7, sLit_sWord, vLit_vWord,
    List.append_assoc, List.cons_append, List.nil_append, List.append_nil, fld_packSR_within_d,
    fld_packSR_within_a, fld_packSR_within_b, fld_packSR_within_fn, extract_append_high, extract_append_low,
    extract_all, fld_packSR_zeros]

theorem saddImm (d : SReg) (a : SReg) (i0 : BitVec 14) : Statement (.saddImm d a i0) := by
  intro w ls rest hi he
  obtain ⟨rfl, rfl⟩ := List.cons.inj he
  rw [decodeFields_0x02 _ _ (by simp only [fld_packSI_maj, fld_packSI_d, fld_packSI_a, fld_packSI_x] <;> rfl)]
  unfold decImm
  simp (disch := decide) only [fld_packSI_maj, fld_packSI_d, fld_packSI_a, fld_packSI_x, sOf7_s7, sLit_sWord, vLit_vWord, List.append_assoc,
    List.cons_append, List.nil_append, List.append_nil, fld_packSI_within_d, fld_packSI_within_a,
    fld_packSI_within_x, extract_append_high, extract_append_low, extract_all, Nat.reduceSub]
  first
  | rfl
  | simp (disch := decide) [need, coded, takeLit, Bind.bind, Except.bind, Pure.pure, Except.pure, fld_packSI_maj, fld_packSI_d,
    fld_packSI_a, fld_packSI_x, sOf7_s7, sLit_sWord, vLit_vWord, List.append_assoc, List.cons_append,
    List.nil_append, List.append_nil, fld_packSI_within_d, fld_packSI_within_a, fld_packSI_within_x,
    extract_append_high, extract_append_low, extract_all]

theorem sandImm (d : SReg) (a : SReg) (i0 : BitVec 14) : Statement (.sandImm d a i0) := by
  intro w ls rest hi he
  obtain ⟨rfl, rfl⟩ := List.cons.inj he
  rw [decodeFields_0x03 _ _ (by simp only [fld_packSI_maj, fld_packSI_d, fld_packSI_a, fld_packSI_x] <;> rfl)]
  unfold decImm
  simp (disch := decide) only [fld_packSI_maj, fld_packSI_d, fld_packSI_a, fld_packSI_x, sOf7_s7, sLit_sWord, vLit_vWord, List.append_assoc,
    List.cons_append, List.nil_append, List.append_nil, fld_packSI_within_d, fld_packSI_within_a,
    fld_packSI_within_x, extract_append_high, extract_append_low, extract_all, Nat.reduceSub]
  first
  | rfl
  | simp (disch := decide) [need, coded, takeLit, Bind.bind, Except.bind, Pure.pure, Except.pure, fld_packSI_maj, fld_packSI_d,
    fld_packSI_a, fld_packSI_x, sOf7_s7, sLit_sWord, vLit_vWord, List.append_assoc, List.cons_append,
    List.nil_append, List.append_nil, fld_packSI_within_d, fld_packSI_within_a, fld_packSI_within_x,
    extract_append_high, extract_append_low, extract_all]

theorem sorImm (d : SReg) (a : SReg) (i0 : BitVec 14) : Statement (.sorImm d a i0) := by
  intro w ls rest hi he
  obtain ⟨rfl, rfl⟩ := List.cons.inj he
  rw [decodeFields_0x04 _ _ (by simp only [fld_packSI_maj, fld_packSI_d, fld_packSI_a, fld_packSI_x] <;> rfl)]
  unfold decImm
  simp (disch := decide) only [fld_packSI_maj, fld_packSI_d, fld_packSI_a, fld_packSI_x, sOf7_s7, sLit_sWord, vLit_vWord, List.append_assoc,
    List.cons_append, List.nil_append, List.append_nil, fld_packSI_within_d, fld_packSI_within_a,
    fld_packSI_within_x, extract_append_high, extract_append_low, extract_all, Nat.reduceSub]
  first
  | rfl
  | simp (disch := decide) [need, coded, takeLit, Bind.bind, Except.bind, Pure.pure, Except.pure, fld_packSI_maj, fld_packSI_d,
    fld_packSI_a, fld_packSI_x, sOf7_s7, sLit_sWord, vLit_vWord, List.append_assoc, List.cons_append,
    List.nil_append, List.append_nil, fld_packSI_within_d, fld_packSI_within_a, fld_packSI_within_x,
    extract_append_high, extract_append_low, extract_all]

theorem sshlImm (d : SReg) (a : SReg) (n : BitVec 5) : Statement (.sshlImm d a n) := by
  intro w ls rest hi he
  obtain ⟨rfl, rfl⟩ := List.cons.inj he
  rw [decodeFields_0x05 _ _ (by simp only [fld_packSI_maj, fld_packSI_d, fld_packSI_a, fld_packSI_x] <;> rfl)]
  unfold decImm
  simp (disch := decide) only [fld_packSI_maj, fld_packSI_d, fld_packSI_a, fld_packSI_x, sOf7_s7, sLit_sWord, vLit_vWord, List.append_assoc,
    List.cons_append, List.nil_append, List.append_nil, fld_packSI_within_d, fld_packSI_within_a,
    fld_packSI_within_x, extract_append_high, extract_append_low, extract_all, Nat.reduceSub]
  first
  | rfl
  | simp (disch := decide) [need, coded, takeLit, Bind.bind, Except.bind, Pure.pure, Except.pure, fld_packSI_maj, fld_packSI_d,
    fld_packSI_a, fld_packSI_x, sOf7_s7, sLit_sWord, vLit_vWord, List.append_assoc, List.cons_append,
    List.nil_append, List.append_nil, fld_packSI_within_d, fld_packSI_within_a, fld_packSI_within_x,
    extract_append_high, extract_append_low, extract_all]

theorem sshrImm (d : SReg) (a : SReg) (n : BitVec 5) : Statement (.sshrImm d a n) := by
  intro w ls rest hi he
  obtain ⟨rfl, rfl⟩ := List.cons.inj he
  rw [decodeFields_0x05 _ _ (by simp only [fld_packSI_maj, fld_packSI_d, fld_packSI_a, fld_packSI_x] <;> rfl)]
  unfold decImm
  simp (disch := decide) only [fld_packSI_maj, fld_packSI_d, fld_packSI_a, fld_packSI_x, sOf7_s7, sLit_sWord, vLit_vWord, List.append_assoc,
    List.cons_append, List.nil_append, List.append_nil, fld_packSI_within_d, fld_packSI_within_a,
    fld_packSI_within_x, extract_append_high, extract_append_low, extract_all, Nat.reduceSub]
  first
  | rfl
  | simp (disch := decide) [need, coded, takeLit, Bind.bind, Except.bind, Pure.pure, Except.pure, fld_packSI_maj, fld_packSI_d,
    fld_packSI_a, fld_packSI_x, sOf7_s7, sLit_sWord, vLit_vWord, List.append_assoc, List.cons_append,
    List.nil_append, List.append_nil, fld_packSI_within_d, fld_packSI_within_a, fld_packSI_within_x,
    extract_append_high, extract_append_low, extract_all]

theorem ssraImm (d : SReg) (a : SReg) (n : BitVec 5) : Statement (.ssraImm d a n) := by
  intro w ls rest hi he
  obtain ⟨rfl, rfl⟩ := List.cons.inj he
  rw [decodeFields_0x05 _ _ (by simp only [fld_packSI_maj, fld_packSI_d, fld_packSI_a, fld_packSI_x] <;> rfl)]
  unfold decImm
  simp (disch := decide) only [fld_packSI_maj, fld_packSI_d, fld_packSI_a, fld_packSI_x, sOf7_s7, sLit_sWord, vLit_vWord, List.append_assoc,
    List.cons_append, List.nil_append, List.append_nil, fld_packSI_within_d, fld_packSI_within_a,
    fld_packSI_within_x, extract_append_high, extract_append_low, extract_all, Nat.reduceSub]
  first
  | rfl
  | simp (disch := decide) [need, coded, takeLit, Bind.bind, Except.bind, Pure.pure, Except.pure, fld_packSI_maj, fld_packSI_d,
    fld_packSI_a, fld_packSI_x, sOf7_s7, sLit_sWord, vLit_vWord, List.append_assoc, List.cons_append,
    List.nil_append, List.append_nil, fld_packSI_within_d, fld_packSI_within_a, fld_packSI_within_x,
    extract_append_high, extract_append_low, extract_all]

theorem sbfx (d : SReg) (a : SReg) (sign : Bool) (lsb : BitVec 5) (w0 : BitVec 5) : Statement (.sbfx d a sign lsb w0) := by
  intro w ls rest hi he
  obtain ⟨rfl, rfl⟩ := List.cons.inj he
  rw [decodeFields_0x06 _ _ (by simp only [fld_packSI_maj, fld_packSI_d, fld_packSI_a, fld_packSI_x] <;> rfl)]
  unfold decImm
  simp (disch := decide) only [fld_packSI_maj, fld_packSI_d, fld_packSI_a, fld_packSI_x, bitBool_boolBit, sOf7_s7, sLit_sWord, vLit_vWord,
    List.append_assoc, List.cons_append, List.nil_append, List.append_nil, fld_packSI_within_d,
    fld_packSI_within_a, fld_packSI_within_x, extract_append_high, extract_append_low, extract_all, Nat.reduceSub]
  first
  | rfl
  | simp (disch := decide) [need, coded, takeLit, Bind.bind, Except.bind, Pure.pure, Except.pure, fld_packSI_maj, fld_packSI_d,
    fld_packSI_a, fld_packSI_x, bitBool_boolBit, sOf7_s7, sLit_sWord, vLit_vWord, List.append_assoc,
    List.cons_append, List.nil_append, List.append_nil, fld_packSI_within_d, fld_packSI_within_a,
    fld_packSI_within_x, extract_append_high, extract_append_low, extract_all]

theorem sbfi (d : SReg) (a : SReg) (lsb : BitVec 5) (w0 : BitVec 5) : Statement (.sbfi d a lsb w0) := by
  intro w ls rest hi he
  obtain ⟨rfl, rfl⟩ := List.cons.inj he
  rw [decodeFields_0x07 _ _ (by simp only [fld_packSI_maj, fld_packSI_d, fld_packSI_a, fld_packSI_x] <;> rfl)]
  unfold decImm
  simp (disch := decide) only [fld_packSI_maj, fld_packSI_d, fld_packSI_a, fld_packSI_x, sOf7_s7, sLit_sWord, vLit_vWord, List.append_assoc,
    List.cons_append, List.nil_append, List.append_nil, fld_packSI_within_d, fld_packSI_within_a,
    fld_packSI_within_x, extract_append_high, extract_append_low, extract_all, Nat.reduceSub]
  first
  | rfl
  | simp (disch := decide) [need, coded, takeLit, Bind.bind, Except.bind, Pure.pure, Except.pure, fld_packSI_maj, fld_packSI_d,
    fld_packSI_a, fld_packSI_x, sOf7_s7, sLit_sWord, vLit_vWord, List.append_assoc, List.cons_append,
    List.nil_append, List.append_nil, fld_packSI_within_d, fld_packSI_within_a, fld_packSI_within_x,
    extract_append_high, extract_append_low, extract_all]

theorem sli (d : SReg) (i0 : BitVec 20) : Statement (.sli d i0) := by
  intro w ls rest hi he
  obtain ⟨rfl, rfl⟩ := List.cons.inj he
  rw [decodeFields_0x08 _ _ (by simp only [fld_packSI_maj, fld_packSI_d, fld_packSI_a, fld_packSI_x] <;> rfl)]
  unfold decImm
  simp (disch := decide) only [fld_packSI_maj, fld_packSI_d, fld_packSI_a, fld_packSI_x, sOf7_s7, sLit_sWord, vLit_vWord, List.append_assoc,
    List.cons_append, List.nil_append, List.append_nil, fld_packSI_within_d, fld_packSI_within_a,
    fld_packSI_within_x, extract_append_high, extract_append_low, extract_all, Nat.reduceSub]
  first
  | rfl
  | simp (disch := decide) [need, coded, takeLit, Bind.bind, Except.bind, Pure.pure, Except.pure, fld_packSI_maj, fld_packSI_d,
    fld_packSI_a, fld_packSI_x, sOf7_s7, sLit_sWord, vLit_vWord, List.append_assoc, List.cons_append,
    List.nil_append, List.append_nil, fld_packSI_within_d, fld_packSI_within_a, fld_packSI_within_x,
    extract_append_high, extract_append_low, extract_all, append_halves_20]

theorem slui (d : SReg) (i0 : BitVec 20) : Statement (.slui d i0) := by
  intro w ls rest hi he
  obtain ⟨rfl, rfl⟩ := List.cons.inj he
  rw [decodeFields_0x09 _ _ (by simp only [fld_packSI_maj, fld_packSI_d, fld_packSI_a, fld_packSI_x] <;> rfl)]
  unfold decImm
  simp (disch := decide) only [fld_packSI_maj, fld_packSI_d, fld_packSI_a, fld_packSI_x, sOf7_s7, sLit_sWord, vLit_vWord, List.append_assoc,
    List.cons_append, List.nil_append, List.append_nil, fld_packSI_within_d, fld_packSI_within_a,
    fld_packSI_within_x, extract_append_high, extract_append_low, extract_all, Nat.reduceSub]
  first
  | rfl
  | simp (disch := decide) [need, coded, takeLit, Bind.bind, Except.bind, Pure.pure, Except.pure, fld_packSI_maj, fld_packSI_d,
    fld_packSI_a, fld_packSI_x, sOf7_s7, sLit_sWord, vLit_vWord, List.append_assoc, List.cons_append,
    List.nil_append, List.append_nil, fld_packSI_within_d, fld_packSI_within_a, fld_packSI_within_x,
    extract_append_high, extract_append_low, extract_all, append_halves_20]

theorem sget (d : SReg) (n : BitVec 6) : Statement (.sget d n) := by
  intro w ls rest hi he
  obtain ⟨rfl, rfl⟩ := List.cons.inj he
  rw [decodeFields_0x0A _ _ (by simp only [fld_packSR_maj, fld_packSR_d, fld_packSR_a, fld_packSR_b, fld_packSR_fn] <;> rfl)]
  unfold decState
  simp (disch := decide) only [fld_packSR_maj, fld_packSR_d, fld_packSR_a, fld_packSR_b, fld_packSR_fn, sOf7_s7, sLit_sWord, vLit_vWord,
    List.append_assoc, List.cons_append, List.nil_append, List.append_nil, fld_packSR_within_d,
    fld_packSR_within_a, fld_packSR_within_b, fld_packSR_within_fn, extract_append_high, extract_append_low,
    extract_all, Nat.reduceSub]
  first
  | rfl
  | simp (disch := decide) [need, coded, takeLit, Bind.bind, Except.bind, Pure.pure, Except.pure, fld_packSR_maj, fld_packSR_d,
    fld_packSR_a, fld_packSR_b, fld_packSR_fn, sOf7_s7, sLit_sWord, vLit_vWord, List.append_assoc,
    List.cons_append, List.nil_append, List.append_nil, fld_packSR_within_d, fld_packSR_within_a,
    fld_packSR_within_b, fld_packSR_within_fn, extract_append_high, extract_append_low, extract_all,
    fld_packSR_zeros]

theorem sset (a : SReg) (n : BitVec 6) : Statement (.sset a n) := by
  intro w ls rest hi he
  obtain ⟨rfl, rfl⟩ := List.cons.inj he
  rw [decodeFields_0x0A _ _ (by simp only [fld_packSR_maj, fld_packSR_d, fld_packSR_a, fld_packSR_b, fld_packSR_fn] <;> rfl)]
  unfold decState
  simp (disch := decide) only [fld_packSR_maj, fld_packSR_d, fld_packSR_a, fld_packSR_b, fld_packSR_fn, sOf7_s7, sLit_sWord, vLit_vWord,
    List.append_assoc, List.cons_append, List.nil_append, List.append_nil, fld_packSR_within_d,
    fld_packSR_within_a, fld_packSR_within_b, fld_packSR_within_fn, extract_append_high, extract_append_low,
    extract_all, Nat.reduceSub]
  first
  | rfl
  | simp (disch := decide) [need, coded, takeLit, Bind.bind, Except.bind, Pure.pure, Except.pure, fld_packSR_maj, fld_packSR_d,
    fld_packSR_a, fld_packSR_b, fld_packSR_fn, sOf7_s7, sLit_sWord, vLit_vWord, List.append_assoc,
    List.cons_append, List.nil_append, List.append_nil, fld_packSR_within_d, fld_packSR_within_a,
    fld_packSR_within_b, fld_packSR_within_fn, extract_append_high, extract_append_low, extract_all,
    fld_packSR_zeros]

theorem ckwarn (d : SReg) (a : SReg) : Statement (.ckwarn d a) := by
  intro w ls rest hi he
  obtain ⟨rfl, rfl⟩ := List.cons.inj he
  rw [decodeFields_0x0A _ _ (by simp only [fld_packSR_maj, fld_packSR_d, fld_packSR_a, fld_packSR_b, fld_packSR_fn] <;> rfl)]
  unfold decState
  simp (disch := decide) only [fld_packSR_maj, fld_packSR_d, fld_packSR_a, fld_packSR_b, fld_packSR_fn, sOf7_s7, sLit_sWord, vLit_vWord,
    List.append_assoc, List.cons_append, List.nil_append, List.append_nil, fld_packSR_within_d,
    fld_packSR_within_a, fld_packSR_within_b, fld_packSR_within_fn, extract_append_high, extract_append_low,
    extract_all, Nat.reduceSub]
  first
  | rfl
  | simp (disch := decide) [need, coded, takeLit, Bind.bind, Except.bind, Pure.pure, Except.pure, fld_packSR_maj, fld_packSR_d,
    fld_packSR_a, fld_packSR_b, fld_packSR_fn, sOf7_s7, sLit_sWord, vLit_vWord, List.append_assoc,
    List.cons_append, List.nil_append, List.append_nil, fld_packSR_within_d, fld_packSR_within_a,
    fld_packSR_within_b, fld_packSR_within_fn, extract_append_high, extract_append_low, extract_all,
    fld_packSR_zeros]

theorem setfmt (v : BitVec 6) : Statement (.setfmt v) := by
  intro w ls rest hi he
  obtain ⟨rfl, rfl⟩ := List.cons.inj he
  rw [decodeFields_0x0B _ _ (by simp only [fld_packSI_maj, fld_packSI_d, fld_packSI_a, fld_packSI_x] <;> rfl)]
  unfold decImm
  simp (disch := decide) only [fld_packSI_maj, fld_packSI_d, fld_packSI_a, fld_packSI_x, sOf7_s7, sLit_sWord, vLit_vWord, List.append_assoc,
    List.cons_append, List.nil_append, List.append_nil, fld_packSI_within_d, fld_packSI_within_a,
    fld_packSI_within_x, extract_append_high, extract_append_low, extract_all, Nat.reduceSub]
  first
  | rfl
  | simp (disch := decide) [need, coded, takeLit, Bind.bind, Except.bind, Pure.pure, Except.pure, fld_packSI_maj, fld_packSI_d,
    fld_packSI_a, fld_packSI_x, sOf7_s7, sLit_sWord, vLit_vWord, List.append_assoc, List.cons_append,
    List.nil_append, List.append_nil, fld_packSI_within_d, fld_packSI_within_a, fld_packSI_within_x,
    extract_append_high, extract_append_low, extract_all]

theorem setmode (v : BitVec 6) : Statement (.setmode v) := by
  intro w ls rest hi he
  obtain ⟨rfl, rfl⟩ := List.cons.inj he
  rw [decodeFields_0x0B _ _ (by simp only [fld_packSI_maj, fld_packSI_d, fld_packSI_a, fld_packSI_x] <;> rfl)]
  unfold decImm
  simp (disch := decide) only [fld_packSI_maj, fld_packSI_d, fld_packSI_a, fld_packSI_x, sOf7_s7, sLit_sWord, vLit_vWord, List.append_assoc,
    List.cons_append, List.nil_append, List.append_nil, fld_packSI_within_d, fld_packSI_within_a,
    fld_packSI_within_x, extract_append_high, extract_append_low, extract_all, Nat.reduceSub]
  first
  | rfl
  | simp (disch := decide) [need, coded, takeLit, Bind.bind, Except.bind, Pure.pure, Except.pure, fld_packSI_maj, fld_packSI_d,
    fld_packSI_a, fld_packSI_x, sOf7_s7, sLit_sWord, vLit_vWord, List.append_assoc, List.cons_append,
    List.nil_append, List.append_nil, fld_packSI_within_d, fld_packSI_within_a, fld_packSI_within_x,
    extract_append_high, extract_append_low, extract_all]

theorem br (o : BitVec 22) : Statement (.br o) := by
  intro w ls rest hi he
  obtain ⟨rfl, rfl⟩ := List.cons.inj he
  rw [decodeFields_0x0C _ _ (by simp only [fld_packBR_maj, fld_packBR_c, fld_packBR_x] <;> rfl)]
  unfold decBranch
  simp (disch := decide) only [fld_packBR_maj, fld_packBR_c, fld_packBR_x, sOf7_s7, sLit_sWord, vLit_vWord, List.append_assoc,
    List.cons_append, List.nil_append, List.append_nil, fld_packBR_within_c, fld_packBR_within_x,
    extract_append_high, extract_append_low, extract_all, Nat.reduceSub]
  first
  | rfl
  | simp (disch := decide) [need, coded, takeLit, Bind.bind, Except.bind, Pure.pure, Except.pure, fld_packBR_maj, fld_packBR_c,
    fld_packBR_x, sOf7_s7, sLit_sWord, vLit_vWord, List.append_assoc, List.cons_append, List.nil_append,
    List.append_nil, fld_packBR_within_c, fld_packBR_within_x, extract_append_high, extract_append_low,
    extract_all]

theorem call (o : BitVec 22) : Statement (.call o) := by
  intro w ls rest hi he
  obtain ⟨rfl, rfl⟩ := List.cons.inj he
  rw [decodeFields_0x0C _ _ (by simp only [fld_packBR_maj, fld_packBR_c, fld_packBR_x] <;> rfl)]
  unfold decBranch
  simp (disch := decide) only [fld_packBR_maj, fld_packBR_c, fld_packBR_x, sOf7_s7, sLit_sWord, vLit_vWord, List.append_assoc,
    List.cons_append, List.nil_append, List.append_nil, fld_packBR_within_c, fld_packBR_within_x,
    extract_append_high, extract_append_low, extract_all, Nat.reduceSub]
  first
  | rfl
  | simp (disch := decide) [need, coded, takeLit, Bind.bind, Except.bind, Pure.pure, Except.pure, fld_packBR_maj, fld_packBR_c,
    fld_packBR_x, sOf7_s7, sLit_sWord, vLit_vWord, List.append_assoc, List.cons_append, List.nil_append,
    List.append_nil, fld_packBR_within_c, fld_packBR_within_x, extract_append_high, extract_append_low,
    extract_all]

theorem bc (t : BTest) (a : SReg) (o : BitVec 14) : Statement (.bc t a o) := by
  intro w ls rest hi he
  obtain ⟨rfl, rfl⟩ := List.cons.inj he
  rw [decodeFields_0x0D _ _ (by simp only [fld_packSI_maj, fld_packSI_d, fld_packSI_a, fld_packSI_x] <;> rfl)]
  unfold decImm
  simp (disch := decide) only [fld_packSI_maj, fld_packSI_d, fld_packSI_a, fld_packSI_x, BTest.ofCode_code, sOf7_s7, sLit_sWord, vLit_vWord,
    List.append_assoc, List.cons_append, List.nil_append, List.append_nil, fld_packSI_within_d,
    fld_packSI_within_a, fld_packSI_within_x, extract_append_high, extract_append_low, extract_all, Nat.reduceSub]
  first
  | rfl
  | simp (disch := decide) [need, coded, takeLit, Bind.bind, Except.bind, Pure.pure, Except.pure, fld_packSI_maj, fld_packSI_d,
    fld_packSI_a, fld_packSI_x, BTest.ofCode_code, sOf7_s7, sLit_sWord, vLit_vWord, List.append_assoc,
    List.cons_append, List.nil_append, List.append_nil, fld_packSI_within_d, fld_packSI_within_a,
    fld_packSI_within_x, extract_append_high, extract_append_low, extract_all]

theorem bdiv (a : SReg) (o : BitVec 14) : Statement (.bdiv a o) := by
  intro w ls rest hi he
  obtain ⟨rfl, rfl⟩ := List.cons.inj he
  rw [decodeFields_0x0E _ _ (by simp only [fld_packSI_maj, fld_packSI_d, fld_packSI_a, fld_packSI_x] <;> rfl)]
  unfold decImm
  simp (disch := decide) only [fld_packSI_maj, fld_packSI_d, fld_packSI_a, fld_packSI_x, sOf7_s7, sLit_sWord, vLit_vWord, List.append_assoc,
    List.cons_append, List.nil_append, List.append_nil, fld_packSI_within_d, fld_packSI_within_a,
    fld_packSI_within_x, extract_append_high, extract_append_low, extract_all, Nat.reduceSub]
  first
  | rfl
  | simp (disch := decide) [need, coded, takeLit, Bind.bind, Except.bind, Pure.pure, Except.pure, fld_packSI_maj, fld_packSI_d,
    fld_packSI_a, fld_packSI_x, sOf7_s7, sLit_sWord, vLit_vWord, List.append_assoc, List.cons_append,
    List.nil_append, List.append_nil, fld_packSI_within_d, fld_packSI_within_a, fld_packSI_within_x,
    extract_append_high, extract_append_low, extract_all]

theorem nop : Statement (.nop) := by
  intro w ls rest hi he
  obtain ⟨rfl, rfl⟩ := List.cons.inj he
  rw [decodeFields_0x0F _ _ (by simp only [fld_packSR_maj, fld_packSR_d, fld_packSR_a, fld_packSR_b, fld_packSR_fn] <;> rfl)]
  unfold decFlow
  simp (disch := decide) only [fld_packSR_maj, fld_packSR_d, fld_packSR_a, fld_packSR_b, fld_packSR_fn, sOf7_s7, sLit_sWord, vLit_vWord,
    List.append_assoc, List.cons_append, List.nil_append, List.append_nil, fld_packSR_within_d,
    fld_packSR_within_a, fld_packSR_within_b, fld_packSR_within_fn, extract_append_high, extract_append_low,
    extract_all, Nat.reduceSub]
  first
  | rfl
  | simp (disch := decide) [need, coded, takeLit, Bind.bind, Except.bind, Pure.pure, Except.pure, fld_packSR_maj, fld_packSR_d,
    fld_packSR_a, fld_packSR_b, fld_packSR_fn, sOf7_s7, sLit_sWord, vLit_vWord, List.append_assoc,
    List.cons_append, List.nil_append, List.append_nil, fld_packSR_within_d, fld_packSR_within_a,
    fld_packSR_within_b, fld_packSR_within_fn, extract_append_high, extract_append_low, extract_all,
    fld_packSR_zeros]

theorem join : Statement (.join) := by
  intro w ls rest hi he
  obtain ⟨rfl, rfl⟩ := List.cons.inj he
  rw [decodeFields_0x0F _ _ (by simp only [fld_packSR_maj, fld_packSR_d, fld_packSR_a, fld_packSR_b, fld_packSR_fn] <;> rfl)]
  unfold decFlow
  simp (disch := decide) only [fld_packSR_maj, fld_packSR_d, fld_packSR_a, fld_packSR_b, fld_packSR_fn, sOf7_s7, sLit_sWord, vLit_vWord,
    List.append_assoc, List.cons_append, List.nil_append, List.append_nil, fld_packSR_within_d,
    fld_packSR_within_a, fld_packSR_within_b, fld_packSR_within_fn, extract_append_high, extract_append_low,
    extract_all, Nat.reduceSub]
  first
  | rfl
  | simp (disch := decide) [need, coded, takeLit, Bind.bind, Except.bind, Pure.pure, Except.pure, fld_packSR_maj, fld_packSR_d,
    fld_packSR_a, fld_packSR_b, fld_packSR_fn, sOf7_s7, sLit_sWord, vLit_vWord, List.append_assoc,
    List.cons_append, List.nil_append, List.append_nil, fld_packSR_within_d, fld_packSR_within_a,
    fld_packSR_within_b, fld_packSR_within_fn, extract_append_high, extract_append_low, extract_all,
    fld_packSR_zeros]

theorem ret : Statement (.ret) := by
  intro w ls rest hi he
  obtain ⟨rfl, rfl⟩ := List.cons.inj he
  rw [decodeFields_0x0F _ _ (by simp only [fld_packSR_maj, fld_packSR_d, fld_packSR_a, fld_packSR_b, fld_packSR_fn] <;> rfl)]
  unfold decFlow
  simp (disch := decide) only [fld_packSR_maj, fld_packSR_d, fld_packSR_a, fld_packSR_b, fld_packSR_fn, sOf7_s7, sLit_sWord, vLit_vWord,
    List.append_assoc, List.cons_append, List.nil_append, List.append_nil, fld_packSR_within_d,
    fld_packSR_within_a, fld_packSR_within_b, fld_packSR_within_fn, extract_append_high, extract_append_low,
    extract_all, Nat.reduceSub]
  first
  | rfl
  | simp (disch := decide) [need, coded, takeLit, Bind.bind, Except.bind, Pure.pure, Except.pure, fld_packSR_maj, fld_packSR_d,
    fld_packSR_a, fld_packSR_b, fld_packSR_fn, sOf7_s7, sLit_sWord, vLit_vWord, List.append_assoc,
    List.cons_append, List.nil_append, List.append_nil, fld_packSR_within_d, fld_packSR_within_a,
    fld_packSR_within_b, fld_packSR_within_fn, extract_append_high, extract_append_low, extract_all,
    fld_packSR_zeros]

theorem jmpi (a : SReg) : Statement (.jmpi a) := by
  intro w ls rest hi he
  obtain ⟨rfl, rfl⟩ := List.cons.inj he
  rw [decodeFields_0x0F _ _ (by simp only [fld_packSR_maj, fld_packSR_d, fld_packSR_a, fld_packSR_b, fld_packSR_fn] <;> rfl)]
  unfold decFlow
  simp (disch := decide) only [fld_packSR_maj, fld_packSR_d, fld_packSR_a, fld_packSR_b, fld_packSR_fn, sOf7_s7, sLit_sWord, vLit_vWord,
    List.append_assoc, List.cons_append, List.nil_append, List.append_nil, fld_packSR_within_d,
    fld_packSR_within_a, fld_packSR_within_b, fld_packSR_within_fn, extract_append_high, extract_append_low,
    extract_all, Nat.reduceSub]
  first
  | rfl
  | simp (disch := decide) [need, coded, takeLit, Bind.bind, Except.bind, Pure.pure, Except.pure, fld_packSR_maj, fld_packSR_d,
    fld_packSR_a, fld_packSR_b, fld_packSR_fn, sOf7_s7, sLit_sWord, vLit_vWord, List.append_assoc,
    List.cons_append, List.nil_append, List.append_nil, fld_packSR_within_d, fld_packSR_within_a,
    fld_packSR_within_b, fld_packSR_within_fn, extract_append_high, extract_append_low, extract_all,
    fld_packSR_zeros]

theorem exit : Statement (.exit) := by
  intro w ls rest hi he
  obtain ⟨rfl, rfl⟩ := List.cons.inj he
  rw [decodeFields_0x0F _ _ (by simp only [fld_packSR_maj, fld_packSR_d, fld_packSR_a, fld_packSR_b, fld_packSR_fn] <;> rfl)]
  unfold decFlow
  simp (disch := decide) only [fld_packSR_maj, fld_packSR_d, fld_packSR_a, fld_packSR_b, fld_packSR_fn, sOf7_s7, sLit_sWord, vLit_vWord,
    List.append_assoc, List.cons_append, List.nil_append, List.append_nil, fld_packSR_within_d,
    fld_packSR_within_a, fld_packSR_within_b, fld_packSR_within_fn, extract_append_high, extract_append_low,
    extract_all, Nat.reduceSub]
  first
  | rfl
  | simp (disch := decide) [need, coded, takeLit, Bind.bind, Except.bind, Pure.pure, Except.pure, fld_packSR_maj, fld_packSR_d,
    fld_packSR_a, fld_packSR_b, fld_packSR_fn, sOf7_s7, sLit_sWord, vLit_vWord, List.append_assoc,
    List.cons_append, List.nil_append, List.append_nil, fld_packSR_within_d, fld_packSR_within_a,
    fld_packSR_within_b, fld_packSR_within_fn, extract_append_high, extract_append_low, extract_all,
    fld_packSR_zeros]

theorem yield : Statement (.yield) := by
  intro w ls rest hi he
  obtain ⟨rfl, rfl⟩ := List.cons.inj he
  rw [decodeFields_0x0F _ _ (by simp only [fld_packSR_maj, fld_packSR_d, fld_packSR_a, fld_packSR_b, fld_packSR_fn] <;> rfl)]
  unfold decFlow
  simp (disch := decide) only [fld_packSR_maj, fld_packSR_d, fld_packSR_a, fld_packSR_b, fld_packSR_fn, sOf7_s7, sLit_sWord, vLit_vWord,
    List.append_assoc, List.cons_append, List.nil_append, List.append_nil, fld_packSR_within_d,
    fld_packSR_within_a, fld_packSR_within_b, fld_packSR_within_fn, extract_append_high, extract_append_low,
    extract_all, Nat.reduceSub]
  first
  | rfl
  | simp (disch := decide) [need, coded, takeLit, Bind.bind, Except.bind, Pure.pure, Except.pure, fld_packSR_maj, fld_packSR_d,
    fld_packSR_a, fld_packSR_b, fld_packSR_fn, sOf7_s7, sLit_sWord, vLit_vWord, List.append_assoc,
    List.cons_append, List.nil_append, List.append_nil, fld_packSR_within_d, fld_packSR_within_a,
    fld_packSR_within_b, fld_packSR_within_fn, extract_append_high, extract_append_low, extract_all,
    fld_packSR_zeros]

theorem vadd (t : ITy) (d : VReg) (a : VReg) (b : BOp) : Statement (.vadd t d a b) := by
  intro w ls rest hi he
  have hb : vbOk b = true := by
    have h2 : firstFailing _ = none := hi
    rw [firstFailing_eq_none] at h2; simp at h2; tauto
  obtain ⟨rfl, rfl⟩ := List.cons.inj he
  rw [decodeFields_vecInt t _ _ (by simp only [fld_packVR_maj, fld_packVR_d, fld_packVR_a, fld_packVR_b, fld_packVR_fn] <;> rfl)]
  cases t
  all_goals
    unfold decVecInt
    simp (disch := decide) only [fld_packVR_maj, fld_packVR_d, fld_packVR_a, fld_packVR_b, fld_packVR_fn, vB_bField _ _ hb, sOf7_s7, sLit_sWord,
      vLit_vWord, List.append_assoc, List.cons_append, List.nil_append, List.append_nil, fld_packVR_within_d,
      fld_packVR_within_a, fld_packVR_within_b, fld_packVR_within_fn, extract_append_high, extract_append_low,
      extract_all, Nat.reduceSub]
    first
    | rfl
    | simp (disch := decide) [need, coded, takeLit, Bind.bind, Except.bind, Pure.pure, Except.pure, fld_packVR_maj, fld_packVR_d,
      fld_packVR_a, fld_packVR_b, fld_packVR_fn, vB_bField _ _ hb, sOf7_s7, sLit_sWord, vLit_vWord,
      List.append_assoc, List.cons_append, List.nil_append, List.append_nil, fld_packVR_within_d,
      fld_packVR_within_a, fld_packVR_within_b, fld_packVR_within_fn, extract_append_high, extract_append_low,
      extract_all, fld_packVR_zeros]

theorem vsub (t : ITy) (d : VReg) (a : VReg) (b : BOp) : Statement (.vsub t d a b) := by
  intro w ls rest hi he
  have hb : vbOk b = true := by
    have h2 : firstFailing _ = none := hi
    rw [firstFailing_eq_none] at h2; simp at h2; tauto
  obtain ⟨rfl, rfl⟩ := List.cons.inj he
  rw [decodeFields_vecInt t _ _ (by simp only [fld_packVR_maj, fld_packVR_d, fld_packVR_a, fld_packVR_b, fld_packVR_fn] <;> rfl)]
  cases t
  all_goals
    unfold decVecInt
    simp (disch := decide) only [fld_packVR_maj, fld_packVR_d, fld_packVR_a, fld_packVR_b, fld_packVR_fn, vB_bField _ _ hb, sOf7_s7, sLit_sWord,
      vLit_vWord, List.append_assoc, List.cons_append, List.nil_append, List.append_nil, fld_packVR_within_d,
      fld_packVR_within_a, fld_packVR_within_b, fld_packVR_within_fn, extract_append_high, extract_append_low,
      extract_all, Nat.reduceSub]
    first
    | rfl
    | simp (disch := decide) [need, coded, takeLit, Bind.bind, Except.bind, Pure.pure, Except.pure, fld_packVR_maj, fld_packVR_d,
      fld_packVR_a, fld_packVR_b, fld_packVR_fn, vB_bField _ _ hb, sOf7_s7, sLit_sWord, vLit_vWord,
      List.append_assoc, List.cons_append, List.nil_append, List.append_nil, fld_packVR_within_d,
      fld_packVR_within_a, fld_packVR_within_b, fld_packVR_within_fn, extract_append_high, extract_append_low,
      extract_all, fld_packVR_zeros]

theorem vmul (t : ITy) (d : VReg) (a : VReg) (b : BOp) : Statement (.vmul t d a b) := by
  intro w ls rest hi he
  have hb : vbOk b = true := by
    have h2 : firstFailing _ = none := hi
    rw [firstFailing_eq_none] at h2; simp at h2; tauto
  obtain ⟨rfl, rfl⟩ := List.cons.inj he
  rw [decodeFields_vecInt t _ _ (by simp only [fld_packVR_maj, fld_packVR_d, fld_packVR_a, fld_packVR_b, fld_packVR_fn] <;> rfl)]
  cases t
  all_goals
    unfold decVecInt
    simp (disch := decide) only [fld_packVR_maj, fld_packVR_d, fld_packVR_a, fld_packVR_b, fld_packVR_fn, vB_bField _ _ hb, sOf7_s7, sLit_sWord,
      vLit_vWord, List.append_assoc, List.cons_append, List.nil_append, List.append_nil, fld_packVR_within_d,
      fld_packVR_within_a, fld_packVR_within_b, fld_packVR_within_fn, extract_append_high, extract_append_low,
      extract_all, Nat.reduceSub]
    first
    | rfl
    | simp (disch := decide) [need, coded, takeLit, Bind.bind, Except.bind, Pure.pure, Except.pure, fld_packVR_maj, fld_packVR_d,
      fld_packVR_a, fld_packVR_b, fld_packVR_fn, vB_bField _ _ hb, sOf7_s7, sLit_sWord, vLit_vWord,
      List.append_assoc, List.cons_append, List.nil_append, List.append_nil, fld_packVR_within_d,
      fld_packVR_within_a, fld_packVR_within_b, fld_packVR_within_fn, extract_append_high, extract_append_low,
      extract_all, fld_packVR_zeros]

theorem vmulhSigned (t : ITy) (d : VReg) (a : VReg) (b : BOp) : Statement (.vmulhSigned t d a b) := by
  intro w ls rest hi he
  have hb : vbOk b = true := by
    have h2 : firstFailing _ = none := hi
    rw [firstFailing_eq_none] at h2; simp at h2; tauto
  obtain ⟨rfl, rfl⟩ := List.cons.inj he
  rw [decodeFields_vecInt t _ _ (by simp only [fld_packVR_maj, fld_packVR_d, fld_packVR_a, fld_packVR_b, fld_packVR_fn] <;> rfl)]
  cases t
  all_goals
    unfold decVecInt
    simp (disch := decide) only [fld_packVR_maj, fld_packVR_d, fld_packVR_a, fld_packVR_b, fld_packVR_fn, vB_bField _ _ hb, sOf7_s7, sLit_sWord,
      vLit_vWord, List.append_assoc, List.cons_append, List.nil_append, List.append_nil, fld_packVR_within_d,
      fld_packVR_within_a, fld_packVR_within_b, fld_packVR_within_fn, extract_append_high, extract_append_low,
      extract_all, Nat.reduceSub]
    first
    | rfl
    | simp (disch := decide) [need, coded, takeLit, Bind.bind, Except.bind, Pure.pure, Except.pure, fld_packVR_maj, fld_packVR_d,
      fld_packVR_a, fld_packVR_b, fld_packVR_fn, vB_bField _ _ hb, sOf7_s7, sLit_sWord, vLit_vWord,
      List.append_assoc, List.cons_append, List.nil_append, List.append_nil, fld_packVR_within_d,
      fld_packVR_within_a, fld_packVR_within_b, fld_packVR_within_fn, extract_append_high, extract_append_low,
      extract_all, fld_packVR_zeros]

theorem vmulhUnsigned (t : ITy) (d : VReg) (a : VReg) (b : BOp) : Statement (.vmulhUnsigned t d a b) := by
  intro w ls rest hi he
  have hb : vbOk b = true := by
    have h2 : firstFailing _ = none := hi
    rw [firstFailing_eq_none] at h2; simp at h2; tauto
  obtain ⟨rfl, rfl⟩ := List.cons.inj he
  rw [decodeFields_vecInt t _ _ (by simp only [fld_packVR_maj, fld_packVR_d, fld_packVR_a, fld_packVR_b, fld_packVR_fn] <;> rfl)]
  cases t
  all_goals
    unfold decVecInt
    simp (disch := decide) only [fld_packVR_maj, fld_packVR_d, fld_packVR_a, fld_packVR_b, fld_packVR_fn, vB_bField _ _ hb, sOf7_s7, sLit_sWord,
      vLit_vWord, List.append_assoc, List.cons_append, List.nil_append, List.append_nil, fld_packVR_within_d,
      fld_packVR_within_a, fld_packVR_within_b, fld_packVR_within_fn, extract_append_high, extract_append_low,
      extract_all, Nat.reduceSub]
    first
    | rfl
    | simp (disch := decide) [need, coded, takeLit, Bind.bind, Except.bind, Pure.pure, Except.pure, fld_packVR_maj, fld_packVR_d,
      fld_packVR_a, fld_packVR_b, fld_packVR_fn, vB_bField _ _ hb, sOf7_s7, sLit_sWord, vLit_vWord,
      List.append_assoc, List.cons_append, List.nil_append, List.append_nil, fld_packVR_within_d,
      fld_packVR_within_a, fld_packVR_within_b, fld_packVR_within_fn, extract_append_high, extract_append_low,
      extract_all, fld_packVR_zeros]

theorem vmac (t : ITy) (d : VReg) (a : VReg) (b : BOp) : Statement (.vmac t d a b) := by
  intro w ls rest hi he
  have hb : vbOk b = true := by
    have h2 : firstFailing _ = none := hi
    rw [firstFailing_eq_none] at h2; simp at h2; tauto
  obtain ⟨rfl, rfl⟩ := List.cons.inj he
  rw [decodeFields_vecInt t _ _ (by simp only [fld_packVR_maj, fld_packVR_d, fld_packVR_a, fld_packVR_b, fld_packVR_fn] <;> rfl)]
  cases t
  all_goals
    unfold decVecInt
    simp (disch := decide) only [fld_packVR_maj, fld_packVR_d, fld_packVR_a, fld_packVR_b, fld_packVR_fn, vB_bField _ _ hb, sOf7_s7, sLit_sWord,
      vLit_vWord, List.append_assoc, List.cons_append, List.nil_append, List.append_nil, fld_packVR_within_d,
      fld_packVR_within_a, fld_packVR_within_b, fld_packVR_within_fn, extract_append_high, extract_append_low,
      extract_all, Nat.reduceSub]
    first
    | rfl
    | simp (disch := decide) [need, coded, takeLit, Bind.bind, Except.bind, Pure.pure, Except.pure, fld_packVR_maj, fld_packVR_d,
      fld_packVR_a, fld_packVR_b, fld_packVR_fn, vB_bField _ _ hb, sOf7_s7, sLit_sWord, vLit_vWord,
      List.append_assoc, List.cons_append, List.nil_append, List.append_nil, fld_packVR_within_d,
      fld_packVR_within_a, fld_packVR_within_b, fld_packVR_within_fn, extract_append_high, extract_append_low,
      extract_all, fld_packVR_zeros]

theorem vand (t : ITy) (d : VReg) (a : VReg) (b : BOp) : Statement (.vand t d a b) := by
  intro w ls rest hi he
  have hb : vbOk b = true := by
    have h2 : firstFailing _ = none := hi
    rw [firstFailing_eq_none] at h2; simp at h2; tauto
  obtain ⟨rfl, rfl⟩ := List.cons.inj he
  rw [decodeFields_vecInt t _ _ (by simp only [fld_packVR_maj, fld_packVR_d, fld_packVR_a, fld_packVR_b, fld_packVR_fn] <;> rfl)]
  cases t
  all_goals
    unfold decVecInt
    simp (disch := decide) only [fld_packVR_maj, fld_packVR_d, fld_packVR_a, fld_packVR_b, fld_packVR_fn, vB_bField _ _ hb, sOf7_s7, sLit_sWord,
      vLit_vWord, List.append_assoc, List.cons_append, List.nil_append, List.append_nil, fld_packVR_within_d,
      fld_packVR_within_a, fld_packVR_within_b, fld_packVR_within_fn, extract_append_high, extract_append_low,
      extract_all, Nat.reduceSub]
    first
    | rfl
    | simp (disch := decide) [need, coded, takeLit, Bind.bind, Except.bind, Pure.pure, Except.pure, fld_packVR_maj, fld_packVR_d,
      fld_packVR_a, fld_packVR_b, fld_packVR_fn, vB_bField _ _ hb, sOf7_s7, sLit_sWord, vLit_vWord,
      List.append_assoc, List.cons_append, List.nil_append, List.append_nil, fld_packVR_within_d,
      fld_packVR_within_a, fld_packVR_within_b, fld_packVR_within_fn, extract_append_high, extract_append_low,
      extract_all, fld_packVR_zeros]

theorem vor (t : ITy) (d : VReg) (a : VReg) (b : BOp) : Statement (.vor t d a b) := by
  intro w ls rest hi he
  have hb : vbOk b = true := by
    have h2 : firstFailing _ = none := hi
    rw [firstFailing_eq_none] at h2; simp at h2; tauto
  obtain ⟨rfl, rfl⟩ := List.cons.inj he
  rw [decodeFields_vecInt t _ _ (by simp only [fld_packVR_maj, fld_packVR_d, fld_packVR_a, fld_packVR_b, fld_packVR_fn] <;> rfl)]
  cases t
  all_goals
    unfold decVecInt
    simp (disch := decide) only [fld_packVR_maj, fld_packVR_d, fld_packVR_a, fld_packVR_b, fld_packVR_fn, vB_bField _ _ hb, sOf7_s7, sLit_sWord,
      vLit_vWord, List.append_assoc, List.cons_append, List.nil_append, List.append_nil, fld_packVR_within_d,
      fld_packVR_within_a, fld_packVR_within_b, fld_packVR_within_fn, extract_append_high, extract_append_low,
      extract_all, Nat.reduceSub]
    first
    | rfl
    | simp (disch := decide) [need, coded, takeLit, Bind.bind, Except.bind, Pure.pure, Except.pure, fld_packVR_maj, fld_packVR_d,
      fld_packVR_a, fld_packVR_b, fld_packVR_fn, vB_bField _ _ hb, sOf7_s7, sLit_sWord, vLit_vWord,
      List.append_assoc, List.cons_append, List.nil_append, List.append_nil, fld_packVR_within_d,
      fld_packVR_within_a, fld_packVR_within_b, fld_packVR_within_fn, extract_append_high, extract_append_low,
      extract_all, fld_packVR_zeros]

theorem vxor (t : ITy) (d : VReg) (a : VReg) (b : BOp) : Statement (.vxor t d a b) := by
  intro w ls rest hi he
  have hb : vbOk b = true := by
    have h2 : firstFailing _ = none := hi
    rw [firstFailing_eq_none] at h2; simp at h2; tauto
  obtain ⟨rfl, rfl⟩ := List.cons.inj he
  rw [decodeFields_vecInt t _ _ (by simp only [fld_packVR_maj, fld_packVR_d, fld_packVR_a, fld_packVR_b, fld_packVR_fn] <;> rfl)]
  cases t
  all_goals
    unfold decVecInt
    simp (disch := decide) only [fld_packVR_maj, fld_packVR_d, fld_packVR_a, fld_packVR_b, fld_packVR_fn, vB_bField _ _ hb, sOf7_s7, sLit_sWord,
      vLit_vWord, List.append_assoc, List.cons_append, List.nil_append, List.append_nil, fld_packVR_within_d,
      fld_packVR_within_a, fld_packVR_within_b, fld_packVR_within_fn, extract_append_high, extract_append_low,
      extract_all, Nat.reduceSub]
    first
    | rfl
    | simp (disch := decide) [need, coded, takeLit, Bind.bind, Except.bind, Pure.pure, Except.pure, fld_packVR_maj, fld_packVR_d,
      fld_packVR_a, fld_packVR_b, fld_packVR_fn, vB_bField _ _ hb, sOf7_s7, sLit_sWord, vLit_vWord,
      List.append_assoc, List.cons_append, List.nil_append, List.append_nil, fld_packVR_within_d,
      fld_packVR_within_a, fld_packVR_within_b, fld_packVR_within_fn, extract_append_high, extract_append_low,
      extract_all, fld_packVR_zeros]

theorem vnot (t : ITy) (d : VReg) (a : VReg) : Statement (.vnot t d a) := by
  intro w ls rest hi he
  obtain ⟨rfl, rfl⟩ := List.cons.inj he
  rw [decodeFields_vecInt t _ _ (by simp only [fld_packVR_maj, fld_packVR_d, fld_packVR_a, fld_packVR_b, fld_packVR_fn] <;> rfl)]
  cases t
  all_goals
    unfold decVecInt
    simp (disch := decide) only [fld_packVR_maj, fld_packVR_d, fld_packVR_a, fld_packVR_b, fld_packVR_fn, sOf7_s7, sLit_sWord, vLit_vWord,
      List.append_assoc, List.cons_append, List.nil_append, List.append_nil, fld_packVR_within_d,
      fld_packVR_within_a, fld_packVR_within_b, fld_packVR_within_fn, extract_append_high, extract_append_low,
      extract_all, Nat.reduceSub]
    first
    | rfl
    | simp (disch := decide) [need, coded, takeLit, Bind.bind, Except.bind, Pure.pure, Except.pure, fld_packVR_maj, fld_packVR_d,
      fld_packVR_a, fld_packVR_b, fld_packVR_fn, sOf7_s7, sLit_sWord, vLit_vWord, List.append_assoc,
      List.cons_append, List.nil_append, List.append_nil, fld_packVR_within_d, fld_packVR_within_a,
      fld_packVR_within_b, fld_packVR_within_fn, extract_append_high, extract_append_low, extract_all,
      fld_packVR_zeros]

theorem vshl (t : ITy) (d : VReg) (a : VReg) (b : BOp) : Statement (.vshl t d a b) := by
  intro w ls rest hi he
  have hb : vbOk b = true := by
    have h2 : firstFailing _ = none := hi
    rw [firstFailing_eq_none] at h2; simp at h2; tauto
  obtain ⟨rfl, rfl⟩ := List.cons.inj he
  rw [decodeFields_vecInt t _ _ (by simp only [fld_packVR_maj, fld_packVR_d, fld_packVR_a, fld_packVR_b, fld_packVR_fn] <;> rfl)]
  cases t
  all_goals
    unfold decVecInt
    simp (disch := decide) only [fld_packVR_maj, fld_packVR_d, fld_packVR_a, fld_packVR_b, fld_packVR_fn, vB_bField _ _ hb, sOf7_s7, sLit_sWord,
      vLit_vWord, List.append_assoc, List.cons_append, List.nil_append, List.append_nil, fld_packVR_within_d,
      fld_packVR_within_a, fld_packVR_within_b, fld_packVR_within_fn, extract_append_high, extract_append_low,
      extract_all, Nat.reduceSub]
    first
    | rfl
    | simp (disch := decide) [need, coded, takeLit, Bind.bind, Except.bind, Pure.pure, Except.pure, fld_packVR_maj, fld_packVR_d,
      fld_packVR_a, fld_packVR_b, fld_packVR_fn, vB_bField _ _ hb, sOf7_s7, sLit_sWord, vLit_vWord,
      List.append_assoc, List.cons_append, List.nil_append, List.append_nil, fld_packVR_within_d,
      fld_packVR_within_a, fld_packVR_within_b, fld_packVR_within_fn, extract_append_high, extract_append_low,
      extract_all, fld_packVR_zeros]

theorem vshr (t : ITy) (d : VReg) (a : VReg) (b : BOp) : Statement (.vshr t d a b) := by
  intro w ls rest hi he
  have hb : vbOk b = true := by
    have h2 : firstFailing _ = none := hi
    rw [firstFailing_eq_none] at h2; simp at h2; tauto
  obtain ⟨rfl, rfl⟩ := List.cons.inj he
  rw [decodeFields_vecInt t _ _ (by simp only [fld_packVR_maj, fld_packVR_d, fld_packVR_a, fld_packVR_b, fld_packVR_fn] <;> rfl)]
  cases t
  all_goals
    unfold decVecInt
    simp (disch := decide) only [fld_packVR_maj, fld_packVR_d, fld_packVR_a, fld_packVR_b, fld_packVR_fn, vB_bField _ _ hb, sOf7_s7, sLit_sWord,
      vLit_vWord, List.append_assoc, List.cons_append, List.nil_append, List.append_nil, fld_packVR_within_d,
      fld_packVR_within_a, fld_packVR_within_b, fld_packVR_within_fn, extract_append_high, extract_append_low,
      extract_all, Nat.reduceSub]
    first
    | rfl
    | simp (disch := decide) [need, coded, takeLit, Bind.bind, Except.bind, Pure.pure, Except.pure, fld_packVR_maj, fld_packVR_d,
      fld_packVR_a, fld_packVR_b, fld_packVR_fn, vB_bField _ _ hb, sOf7_s7, sLit_sWord, vLit_vWord,
      List.append_assoc, List.cons_append, List.nil_append, List.append_nil, fld_packVR_within_d,
      fld_packVR_within_a, fld_packVR_within_b, fld_packVR_within_fn, extract_append_high, extract_append_low,
      extract_all, fld_packVR_zeros]

theorem vsra (t : ITy) (d : VReg) (a : VReg) (b : BOp) : Statement (.vsra t d a b) := by
  intro w ls rest hi he
  have hb : vbOk b = true := by
    have h2 : firstFailing _ = none := hi
    rw [firstFailing_eq_none] at h2; simp at h2; tauto
  obtain ⟨rfl, rfl⟩ := List.cons.inj he
  rw [decodeFields_vecInt t _ _ (by simp only [fld_packVR_maj, fld_packVR_d, fld_packVR_a, fld_packVR_b, fld_packVR_fn] <;> rfl)]
  cases t
  all_goals
    unfold decVecInt
    simp (disch := decide) only [fld_packVR_maj, fld_packVR_d, fld_packVR_a, fld_packVR_b, fld_packVR_fn, vB_bField _ _ hb, sOf7_s7, sLit_sWord,
      vLit_vWord, List.append_assoc, List.cons_append, List.nil_append, List.append_nil, fld_packVR_within_d,
      fld_packVR_within_a, fld_packVR_within_b, fld_packVR_within_fn, extract_append_high, extract_append_low,
      extract_all, Nat.reduceSub]
    first
    | rfl
    | simp (disch := decide) [need, coded, takeLit, Bind.bind, Except.bind, Pure.pure, Except.pure, fld_packVR_maj, fld_packVR_d,
      fld_packVR_a, fld_packVR_b, fld_packVR_fn, vB_bField _ _ hb, sOf7_s7, sLit_sWord, vLit_vWord,
      List.append_assoc, List.cons_append, List.nil_append, List.append_nil, fld_packVR_within_d,
      fld_packVR_within_a, fld_packVR_within_b, fld_packVR_within_fn, extract_append_high, extract_append_low,
      extract_all, fld_packVR_zeros]

theorem vminSigned (t : ITy) (d : VReg) (a : VReg) (b : BOp) : Statement (.vminSigned t d a b) := by
  intro w ls rest hi he
  have hb : vbOk b = true := by
    have h2 : firstFailing _ = none := hi
    rw [firstFailing_eq_none] at h2; simp at h2; tauto
  obtain ⟨rfl, rfl⟩ := List.cons.inj he
  rw [decodeFields_vecInt t _ _ (by simp only [fld_packVR_maj, fld_packVR_d, fld_packVR_a, fld_packVR_b, fld_packVR_fn] <;> rfl)]
  cases t
  all_goals
    unfold decVecInt
    simp (disch := decide) only [fld_packVR_maj, fld_packVR_d, fld_packVR_a, fld_packVR_b, fld_packVR_fn, vB_bField _ _ hb, sOf7_s7, sLit_sWord,
      vLit_vWord, List.append_assoc, List.cons_append, List.nil_append, List.append_nil, fld_packVR_within_d,
      fld_packVR_within_a, fld_packVR_within_b, fld_packVR_within_fn, extract_append_high, extract_append_low,
      extract_all, Nat.reduceSub]
    first
    | rfl
    | simp (disch := decide) [need, coded, takeLit, Bind.bind, Except.bind, Pure.pure, Except.pure, fld_packVR_maj, fld_packVR_d,
      fld_packVR_a, fld_packVR_b, fld_packVR_fn, vB_bField _ _ hb, sOf7_s7, sLit_sWord, vLit_vWord,
      List.append_assoc, List.cons_append, List.nil_append, List.append_nil, fld_packVR_within_d,
      fld_packVR_within_a, fld_packVR_within_b, fld_packVR_within_fn, extract_append_high, extract_append_low,
      extract_all, fld_packVR_zeros]

theorem vminUnsigned (t : ITy) (d : VReg) (a : VReg) (b : BOp) : Statement (.vminUnsigned t d a b) := by
  intro w ls rest hi he
  have hb : vbOk b = true := by
    have h2 : firstFailing _ = none := hi
    rw [firstFailing_eq_none] at h2; simp at h2; tauto
  obtain ⟨rfl, rfl⟩ := List.cons.inj he
  rw [decodeFields_vecInt t _ _ (by simp only [fld_packVR_maj, fld_packVR_d, fld_packVR_a, fld_packVR_b, fld_packVR_fn] <;> rfl)]
  cases t
  all_goals
    unfold decVecInt
    simp (disch := decide) only [fld_packVR_maj, fld_packVR_d, fld_packVR_a, fld_packVR_b, fld_packVR_fn, vB_bField _ _ hb, sOf7_s7, sLit_sWord,
      vLit_vWord, List.append_assoc, List.cons_append, List.nil_append, List.append_nil, fld_packVR_within_d,
      fld_packVR_within_a, fld_packVR_within_b, fld_packVR_within_fn, extract_append_high, extract_append_low,
      extract_all, Nat.reduceSub]
    first
    | rfl
    | simp (disch := decide) [need, coded, takeLit, Bind.bind, Except.bind, Pure.pure, Except.pure, fld_packVR_maj, fld_packVR_d,
      fld_packVR_a, fld_packVR_b, fld_packVR_fn, vB_bField _ _ hb, sOf7_s7, sLit_sWord, vLit_vWord,
      List.append_assoc, List.cons_append, List.nil_append, List.append_nil, fld_packVR_within_d,
      fld_packVR_within_a, fld_packVR_within_b, fld_packVR_within_fn, extract_append_high, extract_append_low,
      extract_all, fld_packVR_zeros]

theorem vmaxSigned (t : ITy) (d : VReg) (a : VReg) (b : BOp) : Statement (.vmaxSigned t d a b) := by
  intro w ls rest hi he
  have hb : vbOk b = true := by
    have h2 : firstFailing _ = none := hi
    rw [firstFailing_eq_none] at h2; simp at h2; tauto
  obtain ⟨rfl, rfl⟩ := List.cons.inj he
  rw [decodeFields_vecInt t _ _ (by simp only [fld_packVR_maj, fld_packVR_d, fld_packVR_a, fld_packVR_b, fld_packVR_fn] <;> rfl)]
  cases t
  all_goals
    unfold decVecInt
    simp (disch := decide) only [fld_packVR_maj, fld_packVR_d, fld_packVR_a, fld_packVR_b, fld_packVR_fn, vB_bField _ _ hb, sOf7_s7, sLit_sWord,
      vLit_vWord, List.append_assoc, List.cons_append, List.nil_append, List.append_nil, fld_packVR_within_d,
      fld_packVR_within_a, fld_packVR_within_b, fld_packVR_within_fn, extract_append_high, extract_append_low,
      extract_all, Nat.reduceSub]
    first
    | rfl
    | simp (disch := decide) [need, coded, takeLit, Bind.bind, Except.bind, Pure.pure, Except.pure, fld_packVR_maj, fld_packVR_d,
      fld_packVR_a, fld_packVR_b, fld_packVR_fn, vB_bField _ _ hb, sOf7_s7, sLit_sWord, vLit_vWord,
      List.append_assoc, List.cons_append, List.nil_append, List.append_nil, fld_packVR_within_d,
      fld_packVR_within_a, fld_packVR_within_b, fld_packVR_within_fn, extract_append_high, extract_append_low,
      extract_all, fld_packVR_zeros]

theorem vmaxUnsigned (t : ITy) (d : VReg) (a : VReg) (b : BOp) : Statement (.vmaxUnsigned t d a b) := by
  intro w ls rest hi he
  have hb : vbOk b = true := by
    have h2 : firstFailing _ = none := hi
    rw [firstFailing_eq_none] at h2; simp at h2; tauto
  obtain ⟨rfl, rfl⟩ := List.cons.inj he
  rw [decodeFields_vecInt t _ _ (by simp only [fld_packVR_maj, fld_packVR_d, fld_packVR_a, fld_packVR_b, fld_packVR_fn] <;> rfl)]
  cases t
  all_goals
    unfold decVecInt
    simp (disch := decide) only [fld_packVR_maj, fld_packVR_d, fld_packVR_a, fld_packVR_b, fld_packVR_fn, vB_bField _ _ hb, sOf7_s7, sLit_sWord,
      vLit_vWord, List.append_assoc, List.cons_append, List.nil_append, List.append_nil, fld_packVR_within_d,
      fld_packVR_within_a, fld_packVR_within_b, fld_packVR_within_fn, extract_append_high, extract_append_low,
      extract_all, Nat.reduceSub]
    first
    | rfl
    | simp (disch := decide) [need, coded, takeLit, Bind.bind, Except.bind, Pure.pure, Except.pure, fld_packVR_maj, fld_packVR_d,
      fld_packVR_a, fld_packVR_b, fld_packVR_fn, vB_bField _ _ hb, sOf7_s7, sLit_sWord, vLit_vWord,
      List.append_assoc, List.cons_append, List.nil_append, List.append_nil, fld_packVR_within_d,
      fld_packVR_within_a, fld_packVR_within_b, fld_packVR_within_fn, extract_append_high, extract_append_low,
      extract_all, fld_packVR_zeros]

theorem vabs (t : ITy) (d : VReg) (a : VReg) : Statement (.vabs t d a) := by
  intro w ls rest hi he
  obtain ⟨rfl, rfl⟩ := List.cons.inj he
  rw [decodeFields_vecInt t _ _ (by simp only [fld_packVR_maj, fld_packVR_d, fld_packVR_a, fld_packVR_b, fld_packVR_fn] <;> rfl)]
  cases t
  all_goals
    unfold decVecInt
    simp (disch := decide) only [fld_packVR_maj, fld_packVR_d, fld_packVR_a, fld_packVR_b, fld_packVR_fn, sOf7_s7, sLit_sWord, vLit_vWord,
      List.append_assoc, List.cons_append, List.nil_append, List.append_nil, fld_packVR_within_d,
      fld_packVR_within_a, fld_packVR_within_b, fld_packVR_within_fn, extract_append_high, extract_append_low,
      extract_all, Nat.reduceSub]
    first
    | rfl
    | simp (disch := decide) [need, coded, takeLit, Bind.bind, Except.bind, Pure.pure, Except.pure, fld_packVR_maj, fld_packVR_d,
      fld_packVR_a, fld_packVR_b, fld_packVR_fn, sOf7_s7, sLit_sWord, vLit_vWord, List.append_assoc,
      List.cons_append, List.nil_append, List.append_nil, fld_packVR_within_d, fld_packVR_within_a,
      fld_packVR_within_b, fld_packVR_within_fn, extract_append_high, extract_append_low, extract_all,
      fld_packVR_zeros]

theorem vneg (t : ITy) (d : VReg) (a : VReg) : Statement (.vneg t d a) := by
  intro w ls rest hi he
  obtain ⟨rfl, rfl⟩ := List.cons.inj he
  rw [decodeFields_vecInt t _ _ (by simp only [fld_packVR_maj, fld_packVR_d, fld_packVR_a, fld_packVR_b, fld_packVR_fn] <;> rfl)]
  cases t
  all_goals
    unfold decVecInt
    simp (disch := decide) only [fld_packVR_maj, fld_packVR_d, fld_packVR_a, fld_packVR_b, fld_packVR_fn, sOf7_s7, sLit_sWord, vLit_vWord,
      List.append_assoc, List.cons_append, List.nil_append, List.append_nil, fld_packVR_within_d,
      fld_packVR_within_a, fld_packVR_within_b, fld_packVR_within_fn, extract_append_high, extract_append_low,
      extract_all, Nat.reduceSub]
    first
    | rfl
    | simp (disch := decide) [need, coded, takeLit, Bind.bind, Except.bind, Pure.pure, Except.pure, fld_packVR_maj, fld_packVR_d,
      fld_packVR_a, fld_packVR_b, fld_packVR_fn, sOf7_s7, sLit_sWord, vLit_vWord, List.append_assoc,
      List.cons_append, List.nil_append, List.append_nil, fld_packVR_within_d, fld_packVR_within_a,
      fld_packVR_within_b, fld_packVR_within_fn, extract_append_high, extract_append_low, extract_all,
      fld_packVR_zeros]

theorem vpopc (t : ITy) (d : VReg) (a : VReg) : Statement (.vpopc t d a) := by
  intro w ls rest hi he
  obtain ⟨rfl, rfl⟩ := List.cons.inj he
  rw [decodeFields_vecInt t _ _ (by simp only [fld_packVR_maj, fld_packVR_d, fld_packVR_a, fld_packVR_b, fld_packVR_fn] <;> rfl)]
  cases t
  all_goals
    unfold decVecInt
    simp (disch := decide) only [fld_packVR_maj, fld_packVR_d, fld_packVR_a, fld_packVR_b, fld_packVR_fn, sOf7_s7, sLit_sWord, vLit_vWord,
      List.append_assoc, List.cons_append, List.nil_append, List.append_nil, fld_packVR_within_d,
      fld_packVR_within_a, fld_packVR_within_b, fld_packVR_within_fn, extract_append_high, extract_append_low,
      extract_all, Nat.reduceSub]
    first
    | rfl
    | simp (disch := decide) [need, coded, takeLit, Bind.bind, Except.bind, Pure.pure, Except.pure, fld_packVR_maj, fld_packVR_d,
      fld_packVR_a, fld_packVR_b, fld_packVR_fn, sOf7_s7, sLit_sWord, vLit_vWord, List.append_assoc,
      List.cons_append, List.nil_append, List.append_nil, fld_packVR_within_d, fld_packVR_within_a,
      fld_packVR_within_b, fld_packVR_within_fn, extract_append_high, extract_append_low, extract_all,
      fld_packVR_zeros]

theorem vclz (t : ITy) (d : VReg) (a : VReg) : Statement (.vclz t d a) := by
  intro w ls rest hi he
  obtain ⟨rfl, rfl⟩ := List.cons.inj he
  rw [decodeFields_vecInt t _ _ (by simp only [fld_packVR_maj, fld_packVR_d, fld_packVR_a, fld_packVR_b, fld_packVR_fn] <;> rfl)]
  cases t
  all_goals
    unfold decVecInt
    simp (disch := decide) only [fld_packVR_maj, fld_packVR_d, fld_packVR_a, fld_packVR_b, fld_packVR_fn, sOf7_s7, sLit_sWord, vLit_vWord,
      List.append_assoc, List.cons_append, List.nil_append, List.append_nil, fld_packVR_within_d,
      fld_packVR_within_a, fld_packVR_within_b, fld_packVR_within_fn, extract_append_high, extract_append_low,
      extract_all, Nat.reduceSub]
    first
    | rfl
    | simp (disch := decide) [need, coded, takeLit, Bind.bind, Except.bind, Pure.pure, Except.pure, fld_packVR_maj, fld_packVR_d,
      fld_packVR_a, fld_packVR_b, fld_packVR_fn, sOf7_s7, sLit_sWord, vLit_vWord, List.append_assoc,
      List.cons_append, List.nil_append, List.append_nil, fld_packVR_within_d, fld_packVR_within_a,
      fld_packVR_within_b, fld_packVR_within_fn, extract_append_high, extract_append_low, extract_all,
      fld_packVR_zeros]

theorem vmov (t : ITy) (d : VReg) (a : VReg) : Statement (.vmov t d a) := by
  intro w ls rest hi he
  obtain ⟨rfl, rfl⟩ := List.cons.inj he
  rw [decodeFields_vecInt t _ _ (by simp only [fld_packVR_maj, fld_packVR_d, fld_packVR_a, fld_packVR_b, fld_packVR_fn] <;> rfl)]
  cases t
  all_goals
    unfold decVecInt
    simp (disch := decide) only [fld_packVR_maj, fld_packVR_d, fld_packVR_a, fld_packVR_b, fld_packVR_fn, sOf7_s7, sLit_sWord, vLit_vWord,
      List.append_assoc, List.cons_append, List.nil_append, List.append_nil, fld_packVR_within_d,
      fld_packVR_within_a, fld_packVR_within_b, fld_packVR_within_fn, extract_append_high, extract_append_low,
      extract_all, Nat.reduceSub]
    first
    | rfl
    | simp (disch := decide) [need, coded, takeLit, Bind.bind, Except.bind, Pure.pure, Except.pure, fld_packVR_maj, fld_packVR_d,
      fld_packVR_a, fld_packVR_b, fld_packVR_fn, sOf7_s7, sLit_sWord, vLit_vWord, List.append_assoc,
      List.cons_append, List.nil_append, List.append_nil, fld_packVR_within_d, fld_packVR_within_a,
      fld_packVR_within_b, fld_packVR_within_fn, extract_append_high, extract_append_low, extract_all,
      fld_packVR_zeros]

theorem vsel (t : ITy) (d : VReg) (a : VReg) (b : BOp) : Statement (.vsel t d a b) := by
  intro w ls rest hi he
  have hb : vbOk b = true := by
    have h2 : firstFailing _ = none := hi
    rw [firstFailing_eq_none] at h2; simp at h2; tauto
  obtain ⟨rfl, rfl⟩ := List.cons.inj he
  rw [decodeFields_vecInt t _ _ (by simp only [fld_packVR_maj, fld_packVR_d, fld_packVR_a, fld_packVR_b, fld_packVR_fn] <;> rfl)]
  cases t
  all_goals
    unfold decVecInt
    simp (disch := decide) only [fld_packVR_maj, fld_packVR_d, fld_packVR_a, fld_packVR_b, fld_packVR_fn, vB_bField _ _ hb, sOf7_s7, sLit_sWord,
      vLit_vWord, List.append_assoc, List.cons_append, List.nil_append, List.append_nil, fld_packVR_within_d,
      fld_packVR_within_a, fld_packVR_within_b, fld_packVR_within_fn, extract_append_high, extract_append_low,
      extract_all, Nat.reduceSub]
    first
    | rfl
    | simp (disch := decide) [need, coded, takeLit, Bind.bind, Except.bind, Pure.pure, Except.pure, fld_packVR_maj, fld_packVR_d,
      fld_packVR_a, fld_packVR_b, fld_packVR_fn, vB_bField _ _ hb, sOf7_s7, sLit_sWord, vLit_vWord,
      List.append_assoc, List.cons_append, List.nil_append, List.append_nil, fld_packVR_within_d,
      fld_packVR_within_a, fld_packVR_within_b, fld_packVR_within_fn, extract_append_high, extract_append_low,
      extract_all, fld_packVR_zeros]

theorem vcmp (wide : Bool) (c : ICond) (s0 : SReg) (a : VReg) (b : BOp) : Statement (.vcmp wide c s0 a b) := by
  intro w ls rest hi he
  have hb : vbOk b = true := by
    have h2 : firstFailing _ = none := hi
    rw [firstFailing_eq_none] at h2; simp at h2; tauto
  obtain ⟨rfl, rfl⟩ := List.cons.inj he
  rw [decodeFields_vecInt (if wide then .w64 else .w32) _ _ (by simp only [fld_packVR_maj, fld_packVR_d, fld_packVR_a, fld_packVR_b, fld_packVR_fn] <;> rfl)]
  cases wide
  all_goals
    unfold decVecInt
    simp (disch := decide) only [fld_packVR_maj, fld_packVR_d, fld_packVR_a, fld_packVR_b, fld_packVR_fn, vB_bField _ _ hb, ICond.ofCode_code,
      bitBool_boolBit, sOf7_s7, sLit_sWord, vLit_vWord, List.append_assoc, List.cons_append, List.nil_append,
      List.append_nil, fld_packVR_within_d, fld_packVR_within_a, fld_packVR_within_b, fld_packVR_within_fn,
      extract_append_high, extract_append_low, extract_all, Nat.reduceSub]
    first
    | rfl
    | simp (disch := decide) [need, coded, takeLit, Bind.bind, Except.bind, Pure.pure, Except.pure, fld_packVR_maj, fld_packVR_d,
      fld_packVR_a, fld_packVR_b, fld_packVR_fn, vB_bField _ _ hb, ICond.ofCode_code, bitBool_boolBit, sOf7_s7,
      sLit_sWord, vLit_vWord, List.append_assoc, List.cons_append, List.nil_append, List.append_nil,
      fld_packVR_within_d, fld_packVR_within_a, fld_packVR_within_b, fld_packVR_within_fn, extract_append_high,
      extract_append_low, extract_all, fld_packVR_zeros]

theorem vaddImm (d : VReg) (a : VReg) (i0 : BitVec 12) : Statement (.vaddImm d a i0) := by
  intro w ls rest hi he
  obtain ⟨rfl, rfl⟩ := List.cons.inj he
  rw [decodeFields_0x14 _ _ (by simp only [fld_packVI_maj, fld_packVI_d, fld_packVI_a, fld_packVI_x] <;> rfl)]
  unfold decVecImm
  simp (disch := decide) only [fld_packVI_maj, fld_packVI_d, fld_packVI_a, fld_packVI_x, sOf7_s7, sLit_sWord, vLit_vWord, List.append_assoc,
    List.cons_append, List.nil_append, List.append_nil, fld_packVI_within_d, fld_packVI_within_a,
    fld_packVI_within_x, extract_append_high, extract_append_low, extract_all, Nat.reduceSub]
  first
  | rfl
  | simp (disch := decide) [need, coded, takeLit, Bind.bind, Except.bind, Pure.pure, Except.pure, fld_packVI_maj, fld_packVI_d,
    fld_packVI_a, fld_packVI_x, sOf7_s7, sLit_sWord, vLit_vWord, List.append_assoc, List.cons_append,
    List.nil_append, List.append_nil, fld_packVI_within_d, fld_packVI_within_a, fld_packVI_within_x,
    extract_append_high, extract_append_low, extract_all]

theorem vli (d : VReg) (i0 : BitVec 19) : Statement (.vli d i0) := by
  intro w ls rest hi he
  obtain ⟨rfl, rfl⟩ := List.cons.inj he
  rw [decodeFields_0x15 _ _ (by simp only [fld_packVI_maj, fld_packVI_d, fld_packVI_a, fld_packVI_x] <;> rfl)]
  unfold decVecImm
  simp (disch := decide) only [fld_packVI_maj, fld_packVI_d, fld_packVI_a, fld_packVI_x, sOf7_s7, sLit_sWord, vLit_vWord, List.append_assoc,
    List.cons_append, List.nil_append, List.append_nil, fld_packVI_within_d, fld_packVI_within_a,
    fld_packVI_within_x, extract_append_high, extract_append_low, extract_all, Nat.reduceSub]
  first
  | rfl
  | simp (disch := decide) [need, coded, takeLit, Bind.bind, Except.bind, Pure.pure, Except.pure, fld_packVI_maj, fld_packVI_d,
    fld_packVI_a, fld_packVI_x, sOf7_s7, sLit_sWord, vLit_vWord, List.append_assoc, List.cons_append,
    List.nil_append, List.append_nil, fld_packVI_within_d, fld_packVI_within_a, fld_packVI_within_x,
    extract_append_high, extract_append_low, extract_all, append_halves_19]

theorem vbfx (d : VReg) (a : VReg) (sign : Bool) (lsb : BitVec 5) (w0 : BitVec 5) : Statement (.vbfx d a sign lsb w0) := by
  intro w ls rest hi he
  obtain ⟨rfl, rfl⟩ := List.cons.inj he
  rw [decodeFields_0x16 _ _ (by simp only [fld_packVI_maj, fld_packVI_d, fld_packVI_a, fld_packVI_x] <;> rfl)]
  unfold decVecImm
  simp (disch := decide) only [fld_packVI_maj, fld_packVI_d, fld_packVI_a, fld_packVI_x, bitBool_boolBit, sOf7_s7, sLit_sWord, vLit_vWord,
    List.append_assoc, List.cons_append, List.nil_append, List.append_nil, fld_packVI_within_d,
    fld_packVI_within_a, fld_packVI_within_x, extract_append_high, extract_append_low, extract_all, Nat.reduceSub]
  first
  | rfl
  | simp (disch := decide) [need, coded, takeLit, Bind.bind, Except.bind, Pure.pure, Except.pure, fld_packVI_maj, fld_packVI_d,
    fld_packVI_a, fld_packVI_x, bitBool_boolBit, sOf7_s7, sLit_sWord, vLit_vWord, List.append_assoc,
    List.cons_append, List.nil_append, List.append_nil, fld_packVI_within_d, fld_packVI_within_a,
    fld_packVI_within_x, extract_append_high, extract_append_low, extract_all]

theorem vbfi (d : VReg) (a : VReg) (lsb : BitVec 5) (w0 : BitVec 5) : Statement (.vbfi d a lsb w0) := by
  intro w ls rest hi he
  obtain ⟨rfl, rfl⟩ := List.cons.inj he
  rw [decodeFields_0x17 _ _ (by simp only [fld_packVI_maj, fld_packVI_d, fld_packVI_a, fld_packVI_x] <;> rfl)]
  unfold decVecImm
  simp (disch := decide) only [fld_packVI_maj, fld_packVI_d, fld_packVI_a, fld_packVI_x, sOf7_s7, sLit_sWord, vLit_vWord, List.append_assoc,
    List.cons_append, List.nil_append, List.append_nil, fld_packVI_within_d, fld_packVI_within_a,
    fld_packVI_within_x, extract_append_high, extract_append_low, extract_all, Nat.reduceSub]
  first
  | rfl
  | simp (disch := decide) [need, coded, takeLit, Bind.bind, Except.bind, Pure.pure, Except.pure, fld_packVI_maj, fld_packVI_d,
    fld_packVI_a, fld_packVI_x, sOf7_s7, sLit_sWord, vLit_vWord, List.append_assoc, List.cons_append,
    List.nil_append, List.append_nil, fld_packVI_within_d, fld_packVI_within_a, fld_packVI_within_x,
    extract_append_high, extract_append_low, extract_all]

theorem vshlImm (d : VReg) (a : VReg) (n : BitVec 5) : Statement (.vshlImm d a n) := by
  intro w ls rest hi he
  obtain ⟨rfl, rfl⟩ := List.cons.inj he
  rw [decodeFields_0x18 _ _ (by simp only [fld_packVI_maj, fld_packVI_d, fld_packVI_a, fld_packVI_x] <;> rfl)]
  unfold decVecImm
  simp (disch := decide) only [fld_packVI_maj, fld_packVI_d, fld_packVI_a, fld_packVI_x, sOf7_s7, sLit_sWord, vLit_vWord, List.append_assoc,
    List.cons_append, List.nil_append, List.append_nil, fld_packVI_within_d, fld_packVI_within_a,
    fld_packVI_within_x, extract_append_high, extract_append_low, extract_all, Nat.reduceSub]
  first
  | rfl
  | simp (disch := decide) [need, coded, takeLit, Bind.bind, Except.bind, Pure.pure, Except.pure, fld_packVI_maj, fld_packVI_d,
    fld_packVI_a, fld_packVI_x, sOf7_s7, sLit_sWord, vLit_vWord, List.append_assoc, List.cons_append,
    List.nil_append, List.append_nil, fld_packVI_within_d, fld_packVI_within_a, fld_packVI_within_x,
    extract_append_high, extract_append_low, extract_all]

theorem vshrImm (d : VReg) (a : VReg) (n : BitVec 5) : Statement (.vshrImm d a n) := by
  intro w ls rest hi he
  obtain ⟨rfl, rfl⟩ := List.cons.inj he
  rw [decodeFields_0x18 _ _ (by simp only [fld_packVI_maj, fld_packVI_d, fld_packVI_a, fld_packVI_x] <;> rfl)]
  unfold decVecImm
  simp (disch := decide) only [fld_packVI_maj, fld_packVI_d, fld_packVI_a, fld_packVI_x, sOf7_s7, sLit_sWord, vLit_vWord, List.append_assoc,
    List.cons_append, List.nil_append, List.append_nil, fld_packVI_within_d, fld_packVI_within_a,
    fld_packVI_within_x, extract_append_high, extract_append_low, extract_all, Nat.reduceSub]
  first
  | rfl
  | simp (disch := decide) [need, coded, takeLit, Bind.bind, Except.bind, Pure.pure, Except.pure, fld_packVI_maj, fld_packVI_d,
    fld_packVI_a, fld_packVI_x, sOf7_s7, sLit_sWord, vLit_vWord, List.append_assoc, List.cons_append,
    List.nil_append, List.append_nil, fld_packVI_within_d, fld_packVI_within_a, fld_packVI_within_x,
    extract_append_high, extract_append_low, extract_all]

theorem vsraImm (d : VReg) (a : VReg) (n : BitVec 5) : Statement (.vsraImm d a n) := by
  intro w ls rest hi he
  obtain ⟨rfl, rfl⟩ := List.cons.inj he
  rw [decodeFields_0x18 _ _ (by simp only [fld_packVI_maj, fld_packVI_d, fld_packVI_a, fld_packVI_x] <;> rfl)]
  unfold decVecImm
  simp (disch := decide) only [fld_packVI_maj, fld_packVI_d, fld_packVI_a, fld_packVI_x, sOf7_s7, sLit_sWord, vLit_vWord, List.append_assoc,
    List.cons_append, List.nil_append, List.append_nil, fld_packVI_within_d, fld_packVI_within_a,
    fld_packVI_within_x, extract_append_high, extract_append_low, extract_all, Nat.reduceSub]
  first
  | rfl
  | simp (disch := decide) [need, coded, takeLit, Bind.bind, Except.bind, Pure.pure, Except.pure, fld_packVI_maj, fld_packVI_d,
    fld_packVI_a, fld_packVI_x, sOf7_s7, sLit_sWord, vLit_vWord, List.append_assoc, List.cons_append,
    List.nil_append, List.append_nil, fld_packVI_within_d, fld_packVI_within_a, fld_packVI_within_x,
    extract_append_high, extract_append_low, extract_all]

theorem vperm (d : VReg) (a : VReg) (b : BOp) : Statement (.vperm d a b) := by
  intro w ls rest hi he
  have hb : vbOk b = true := by
    have h2 : firstFailing _ = none := hi
    rw [firstFailing_eq_none] at h2; simp at h2; tauto
  obtain ⟨rfl, rfl⟩ := List.cons.inj he
  rw [decodeFields_0x19 _ _ (by simp only [fld_packVR_maj, fld_packVR_d, fld_packVR_a, fld_packVR_b, fld_packVR_fn] <;> rfl)]
  unfold decCross
  simp (disch := decide) only [fld_packVR_maj, fld_packVR_d, fld_packVR_a, fld_packVR_b, fld_packVR_fn, vB_bField _ _ hb, sOf7_s7, sLit_sWord,
    vLit_vWord, List.append_assoc, List.cons_append, List.nil_append, List.append_nil, fld_packVR_within_d,
    fld_packVR_within_a, fld_packVR_within_b, fld_packVR_within_fn, extract_append_high, extract_append_low,
    extract_all, Nat.reduceSub]
  first
  | rfl
  | simp (disch := decide) [need, coded, takeLit, Bind.bind, Except.bind, Pure.pure, Except.pure, fld_packVR_maj, fld_packVR_d,
    fld_packVR_a, fld_packVR_b, fld_packVR_fn, vB_bField _ _ hb, sOf7_s7, sLit_sWord, vLit_vWord,
    List.append_assoc, List.cons_append, List.nil_append, List.append_nil, fld_packVR_within_d,
    fld_packVR_within_a, fld_packVR_within_b, fld_packVR_within_fn, extract_append_high, extract_append_low,
    extract_all, fld_packVR_zeros]

theorem vbcast (d : VReg) (a : VReg) (n : BitVec 7) : Statement (.vbcast d a n) := by
  intro w ls rest hi he
  obtain ⟨rfl, rfl⟩ := List.cons.inj he
  rw [decodeFields_0x19 _ _ (by simp only [fld_packVR_maj, fld_packVR_d, fld_packVR_a, fld_packVR_b, fld_packVR_fn] <;> rfl)]
  unfold decCross
  simp (disch := decide) only [fld_packVR_maj, fld_packVR_d, fld_packVR_a, fld_packVR_b, fld_packVR_fn, sOf7_s7, sLit_sWord, vLit_vWord,
    List.append_assoc, List.cons_append, List.nil_append, List.append_nil, fld_packVR_within_d,
    fld_packVR_within_a, fld_packVR_within_b, fld_packVR_within_fn, extract_append_high, extract_append_low,
    extract_all, Nat.reduceSub]
  first
  | rfl
  | simp (disch := decide) [need, coded, takeLit, Bind.bind, Except.bind, Pure.pure, Except.pure, fld_packVR_maj, fld_packVR_d,
    fld_packVR_a, fld_packVR_b, fld_packVR_fn, sOf7_s7, sLit_sWord, vLit_vWord, List.append_assoc,
    List.cons_append, List.nil_append, List.append_nil, fld_packVR_within_d, fld_packVR_within_a,
    fld_packVR_within_b, fld_packVR_within_fn, extract_append_high, extract_append_low, extract_all,
    fld_packVR_zeros]

theorem vxshf (d : VReg) (a : VReg) (m : BitVec 7) : Statement (.vxshf d a m) := by
  intro w ls rest hi he
  obtain ⟨rfl, rfl⟩ := List.cons.inj he
  rw [decodeFields_0x19 _ _ (by simp only [fld_packVR_maj, fld_packVR_d, fld_packVR_a, fld_packVR_b, fld_packVR_fn] <;> rfl)]
  unfold decCross
  simp (disch := decide) only [fld_packVR_maj, fld_packVR_d, fld_packVR_a, fld_packVR_b, fld_packVR_fn, sOf7_s7, sLit_sWord, vLit_vWord,
    List.append_assoc, List.cons_append, List.nil_append, List.append_nil, fld_packVR_within_d,
    fld_packVR_within_a, fld_packVR_within_b, fld_packVR_within_fn, extract_append_high, extract_append_low,
    extract_all, Nat.reduceSub]
  first
  | rfl
  | simp (disch := decide) [need, coded, takeLit, Bind.bind, Except.bind, Pure.pure, Except.pure, fld_packVR_maj, fld_packVR_d,
    fld_packVR_a, fld_packVR_b, fld_packVR_fn, sOf7_s7, sLit_sWord, vLit_vWord, List.append_assoc,
    List.cons_append, List.nil_append, List.append_nil, fld_packVR_within_d, fld_packVR_within_a,
    fld_packVR_within_b, fld_packVR_within_fn, extract_append_high, extract_append_low, extract_all,
    fld_packVR_zeros]

theorem vred (op : RedOp) (d : VReg) (a : VReg) : Statement (.vred op d a) := by
  intro w ls rest hi he
  obtain ⟨rfl, rfl⟩ := List.cons.inj he
  rw [decodeFields_0x19 _ _ (by simp only [fld_packVR_maj, fld_packVR_d, fld_packVR_a, fld_packVR_b, fld_packVR_fn] <;> rfl)]
  unfold decCross
  simp (disch := decide) only [fld_packVR_maj, fld_packVR_d, fld_packVR_a, fld_packVR_b, fld_packVR_fn, RedOp.ofCode_code, sOf7_s7,
    sLit_sWord, vLit_vWord, List.append_assoc, List.cons_append, List.nil_append, List.append_nil,
    fld_packVR_within_d, fld_packVR_within_a, fld_packVR_within_b, fld_packVR_within_fn, extract_append_high,
    extract_append_low, extract_all, Nat.reduceSub]
  first
  | rfl
  | simp (disch := decide) [need, coded, takeLit, Bind.bind, Except.bind, Pure.pure, Except.pure, fld_packVR_maj, fld_packVR_d,
    fld_packVR_a, fld_packVR_b, fld_packVR_fn, RedOp.ofCode_code, sOf7_s7, sLit_sWord, vLit_vWord,
    List.append_assoc, List.cons_append, List.nil_append, List.append_nil, fld_packVR_within_d,
    fld_packVR_within_a, fld_packVR_within_b, fld_packVR_within_fn, extract_append_high, extract_append_low,
    extract_all, fld_packVR_zeros]

theorem vscan (op : RedOp) (excl : Bool) (d : VReg) (a : VReg) : Statement (.vscan op excl d a) := by
  intro w ls rest hi he
  obtain ⟨rfl, rfl⟩ := List.cons.inj he
  rw [decodeFields_0x19 _ _ (by simp only [fld_packVR_maj, fld_packVR_d, fld_packVR_a, fld_packVR_b, fld_packVR_fn] <;> rfl)]
  unfold decCross
  simp (disch := decide) only [fld_packVR_maj, fld_packVR_d, fld_packVR_a, fld_packVR_b, fld_packVR_fn, RedOp.ofCode_code, bitBool_boolBit,
    sOf7_s7, sLit_sWord, vLit_vWord, List.append_assoc, List.cons_append, List.nil_append, List.append_nil,
    fld_packVR_within_d, fld_packVR_within_a, fld_packVR_within_b, fld_packVR_within_fn, extract_append_high,
    extract_append_low, extract_all, Nat.reduceSub]
  first
  | rfl
  | simp (disch := decide) [need, coded, takeLit, Bind.bind, Except.bind, Pure.pure, Except.pure, fld_packVR_maj, fld_packVR_d,
    fld_packVR_a, fld_packVR_b, fld_packVR_fn, RedOp.ofCode_code, bitBool_boolBit, sOf7_s7, sLit_sWord, vLit_vWord,
    List.append_assoc, List.cons_append, List.nil_append, List.append_nil, fld_packVR_within_d,
    fld_packVR_within_a, fld_packVR_within_b, fld_packVR_within_fn, extract_append_high, extract_append_low,
    extract_all, fld_packVR_zeros]

theorem vballot (s0 : SReg) (a : VReg) : Statement (.vballot s0 a) := by
  intro w ls rest hi he
  obtain ⟨rfl, rfl⟩ := List.cons.inj he
  rw [decodeFields_0x19 _ _ (by simp only [fld_packVR_maj, fld_packVR_d, fld_packVR_a, fld_packVR_b, fld_packVR_fn] <;> rfl)]
  unfold decCross
  simp (disch := decide) only [fld_packVR_maj, fld_packVR_d, fld_packVR_a, fld_packVR_b, fld_packVR_fn, sOf7_s7, sLit_sWord, vLit_vWord,
    List.append_assoc, List.cons_append, List.nil_append, List.append_nil, fld_packVR_within_d,
    fld_packVR_within_a, fld_packVR_within_b, fld_packVR_within_fn, extract_append_high, extract_append_low,
    extract_all, Nat.reduceSub]
  first
  | rfl
  | simp (disch := decide) [need, coded, takeLit, Bind.bind, Except.bind, Pure.pure, Except.pure, fld_packVR_maj, fld_packVR_d,
    fld_packVR_a, fld_packVR_b, fld_packVR_fn, sOf7_s7, sLit_sWord, vLit_vWord, List.append_assoc,
    List.cons_append, List.nil_append, List.append_nil, fld_packVR_within_d, fld_packVR_within_a,
    fld_packVR_within_b, fld_packVR_within_fn, extract_append_high, extract_append_low, extract_all,
    fld_packVR_zeros]

theorem vvote (k : VoteKind) (s0 : SReg) (a : VReg) : Statement (.vvote k s0 a) := by
  intro w ls rest hi he
  obtain ⟨rfl, rfl⟩ := List.cons.inj he
  rw [decodeFields_0x19 _ _ (by simp only [fld_packVR_maj, fld_packVR_d, fld_packVR_a, fld_packVR_b, fld_packVR_fn] <;> rfl)]
  unfold decCross
  simp (disch := decide) only [fld_packVR_maj, fld_packVR_d, fld_packVR_a, fld_packVR_b, fld_packVR_fn, VoteKind.ofCode_code, sOf7_s7,
    sLit_sWord, vLit_vWord, List.append_assoc, List.cons_append, List.nil_append, List.append_nil,
    fld_packVR_within_d, fld_packVR_within_a, fld_packVR_within_b, fld_packVR_within_fn, extract_append_high,
    extract_append_low, extract_all, Nat.reduceSub]
  first
  | rfl
  | simp (disch := decide) [need, coded, takeLit, Bind.bind, Except.bind, Pure.pure, Except.pure, fld_packVR_maj, fld_packVR_d,
    fld_packVR_a, fld_packVR_b, fld_packVR_fn, VoteKind.ofCode_code, sOf7_s7, sLit_sWord, vLit_vWord,
    List.append_assoc, List.cons_append, List.nil_append, List.append_nil, fld_packVR_within_d,
    fld_packVR_within_a, fld_packVR_within_b, fld_packVR_within_fn, extract_append_high, extract_append_low,
    extract_all, fld_packVR_zeros]

theorem sgetIdLane (d : VReg) : Statement (.sgetIdLane d) := by
  intro w ls rest hi he
  obtain ⟨rfl, rfl⟩ := List.cons.inj he
  rw [decodeFields_0x1A _ _ (by simp only [fld_packVR_maj, fld_packVR_d, fld_packVR_a, fld_packVR_b, fld_packVR_fn] <;> rfl)]
  unfold decLane
  simp (disch := decide) only [fld_packVR_maj, fld_packVR_d, fld_packVR_a, fld_packVR_b, fld_packVR_fn, sOf7_s7, sLit_sWord, vLit_vWord,
    List.append_assoc, List.cons_append, List.nil_append, List.append_nil, fld_packVR_within_d,
    fld_packVR_within_a, fld_packVR_within_b, fld_packVR_within_fn, extract_append_high, extract_append_low,
    extract_all, Nat.reduceSub]
  first
  | rfl
  | simp (disch := decide) [need, coded, takeLit, Bind.bind, Except.bind, Pure.pure, Except.pure, fld_packVR_maj, fld_packVR_d,
    fld_packVR_a, fld_packVR_b, fld_packVR_fn, sOf7_s7, sLit_sWord, vLit_vWord, List.append_assoc,
    List.cons_append, List.nil_append, List.append_nil, fld_packVR_within_d, fld_packVR_within_a,
    fld_packVR_within_b, fld_packVR_within_fn, extract_append_high, extract_append_low, extract_all,
    fld_packVR_zeros]

theorem vfadd (t : FTy) (d : VReg) (a : VReg) (b : BOp) : Statement (.vfadd t d a b) := by
  intro w ls rest hi he
  have hb : vbOk b = true := by
    have h2 : firstFailing _ = none := hi
    rw [firstFailing_eq_none] at h2; simp at h2; tauto
  obtain ⟨rfl, rfl⟩ := List.cons.inj he
  rw [decodeFields_vecFloat t _ _ (by simp only [fld_packVR_maj, fld_packVR_d, fld_packVR_a, fld_packVR_b, fld_packVR_fn] <;> rfl)]
  cases t
  all_goals
    unfold decVecFloat
    simp (disch := decide) only [fld_packVR_maj, fld_packVR_d, fld_packVR_a, fld_packVR_b, fld_packVR_fn, vB_bField _ _ hb, sOf7_s7, sLit_sWord,
      vLit_vWord, List.append_assoc, List.cons_append, List.nil_append, List.append_nil, fld_packVR_within_d,
      fld_packVR_within_a, fld_packVR_within_b, fld_packVR_within_fn, extract_append_high, extract_append_low,
      extract_all, Nat.reduceSub]
    first
    | rfl
    | simp (disch := decide) [need, coded, takeLit, Bind.bind, Except.bind, Pure.pure, Except.pure, fld_packVR_maj, fld_packVR_d,
      fld_packVR_a, fld_packVR_b, fld_packVR_fn, vB_bField _ _ hb, sOf7_s7, sLit_sWord, vLit_vWord,
      List.append_assoc, List.cons_append, List.nil_append, List.append_nil, fld_packVR_within_d,
      fld_packVR_within_a, fld_packVR_within_b, fld_packVR_within_fn, extract_append_high, extract_append_low,
      extract_all, fld_packVR_zeros]

theorem vfsub (t : FTy) (d : VReg) (a : VReg) (b : BOp) : Statement (.vfsub t d a b) := by
  intro w ls rest hi he
  have hb : vbOk b = true := by
    have h2 : firstFailing _ = none := hi
    rw [firstFailing_eq_none] at h2; simp at h2; tauto
  obtain ⟨rfl, rfl⟩ := List.cons.inj he
  rw [decodeFields_vecFloat t _ _ (by simp only [fld_packVR_maj, fld_packVR_d, fld_packVR_a, fld_packVR_b, fld_packVR_fn] <;> rfl)]
  cases t
  all_goals
    unfold decVecFloat
    simp (disch := decide) only [fld_packVR_maj, fld_packVR_d, fld_packVR_a, fld_packVR_b, fld_packVR_fn, vB_bField _ _ hb, sOf7_s7, sLit_sWord,
      vLit_vWord, List.append_assoc, List.cons_append, List.nil_append, List.append_nil, fld_packVR_within_d,
      fld_packVR_within_a, fld_packVR_within_b, fld_packVR_within_fn, extract_append_high, extract_append_low,
      extract_all, Nat.reduceSub]
    first
    | rfl
    | simp (disch := decide) [need, coded, takeLit, Bind.bind, Except.bind, Pure.pure, Except.pure, fld_packVR_maj, fld_packVR_d,
      fld_packVR_a, fld_packVR_b, fld_packVR_fn, vB_bField _ _ hb, sOf7_s7, sLit_sWord, vLit_vWord,
      List.append_assoc, List.cons_append, List.nil_append, List.append_nil, fld_packVR_within_d,
      fld_packVR_within_a, fld_packVR_within_b, fld_packVR_within_fn, extract_append_high, extract_append_low,
      extract_all, fld_packVR_zeros]

theorem vfmul (t : FTy) (d : VReg) (a : VReg) (b : BOp) : Statement (.vfmul t d a b) := by
  intro w ls rest hi he
  have hb : vbOk b = true := by
    have h2 : firstFailing _ = none := hi
    rw [firstFailing_eq_none] at h2; simp at h2; tauto
  obtain ⟨rfl, rfl⟩ := List.cons.inj he
  rw [decodeFields_vecFloat t _ _ (by simp only [fld_packVR_maj, fld_packVR_d, fld_packVR_a, fld_packVR_b, fld_packVR_fn] <;> rfl)]
  cases t
  all_goals
    unfold decVecFloat
    simp (disch := decide) only [fld_packVR_maj, fld_packVR_d, fld_packVR_a, fld_packVR_b, fld_packVR_fn, vB_bField _ _ hb, sOf7_s7, sLit_sWord,
      vLit_vWord, List.append_assoc, List.cons_append, List.nil_append, List.append_nil, fld_packVR_within_d,
      fld_packVR_within_a, fld_packVR_within_b, fld_packVR_within_fn, extract_append_high, extract_append_low,
      extract_all, Nat.reduceSub]
    first
    | rfl
    | simp (disch := decide) [need, coded, takeLit, Bind.bind, Except.bind, Pure.pure, Except.pure, fld_packVR_maj, fld_packVR_d,
      fld_packVR_a, fld_packVR_b, fld_packVR_fn, vB_bField _ _ hb, sOf7_s7, sLit_sWord, vLit_vWord,
      List.append_assoc, List.cons_append, List.nil_append, List.append_nil, fld_packVR_within_d,
      fld_packVR_within_a, fld_packVR_within_b, fld_packVR_within_fn, extract_append_high, extract_append_low,
      extract_all, fld_packVR_zeros]

theorem vfma (t : FTy) (d : VReg) (a : VReg) (b : BOp) : Statement (.vfma t d a b) := by
  intro w ls rest hi he
  have hb : vbOk b = true := by
    have h2 : firstFailing _ = none := hi
    rw [firstFailing_eq_none] at h2; simp at h2; tauto
  obtain ⟨rfl, rfl⟩ := List.cons.inj he
  rw [decodeFields_vecFloat t _ _ (by simp only [fld_packVR_maj, fld_packVR_d, fld_packVR_a, fld_packVR_b, fld_packVR_fn] <;> rfl)]
  cases t
  all_goals
    unfold decVecFloat
    simp (disch := decide) only [fld_packVR_maj, fld_packVR_d, fld_packVR_a, fld_packVR_b, fld_packVR_fn, vB_bField _ _ hb, sOf7_s7, sLit_sWord,
      vLit_vWord, List.append_assoc, List.cons_append, List.nil_append, List.append_nil, fld_packVR_within_d,
      fld_packVR_within_a, fld_packVR_within_b, fld_packVR_within_fn, extract_append_high, extract_append_low,
      extract_all, Nat.reduceSub]
    first
    | rfl
    | simp (disch := decide) [need, coded, takeLit, Bind.bind, Except.bind, Pure.pure, Except.pure, fld_packVR_maj, fld_packVR_d,
      fld_packVR_a, fld_packVR_b, fld_packVR_fn, vB_bField _ _ hb, sOf7_s7, sLit_sWord, vLit_vWord,
      List.append_assoc, List.cons_append, List.nil_append, List.append_nil, fld_packVR_within_d,
      fld_packVR_within_a, fld_packVR_within_b, fld_packVR_within_fn, extract_append_high, extract_append_low,
      extract_all, fld_packVR_zeros]

theorem vfms (t : FTy) (d : VReg) (a : VReg) (b : BOp) : Statement (.vfms t d a b) := by
  intro w ls rest hi he
  have hb : vbOk b = true := by
    have h2 : firstFailing _ = none := hi
    rw [firstFailing_eq_none] at h2; simp at h2; tauto
  obtain ⟨rfl, rfl⟩ := List.cons.inj he
  rw [decodeFields_vecFloat t _ _ (by simp only [fld_packVR_maj, fld_packVR_d, fld_packVR_a, fld_packVR_b, fld_packVR_fn] <;> rfl)]
  cases t
  all_goals
    unfold decVecFloat
    simp (disch := decide) only [fld_packVR_maj, fld_packVR_d, fld_packVR_a, fld_packVR_b, fld_packVR_fn, vB_bField _ _ hb, sOf7_s7, sLit_sWord,
      vLit_vWord, List.append_assoc, List.cons_append, List.nil_append, List.append_nil, fld_packVR_within_d,
      fld_packVR_within_a, fld_packVR_within_b, fld_packVR_within_fn, extract_append_high, extract_append_low,
      extract_all, Nat.reduceSub]
    first
    | rfl
    | simp (disch := decide) [need, coded, takeLit, Bind.bind, Except.bind, Pure.pure, Except.pure, fld_packVR_maj, fld_packVR_d,
      fld_packVR_a, fld_packVR_b, fld_packVR_fn, vB_bField _ _ hb, sOf7_s7, sLit_sWord, vLit_vWord,
      List.append_assoc, List.cons_append, List.nil_append, List.append_nil, fld_packVR_within_d,
      fld_packVR_within_a, fld_packVR_within_b, fld_packVR_within_fn, extract_append_high, extract_append_low,
      extract_all, fld_packVR_zeros]

theorem vfmin (t : FTy) (d : VReg) (a : VReg) (b : BOp) : Statement (.vfmin t d a b) := by
  intro w ls rest hi he
  have hb : vbOk b = true := by
    have h2 : firstFailing _ = none := hi
    rw [firstFailing_eq_none] at h2; simp at h2; tauto
  obtain ⟨rfl, rfl⟩ := List.cons.inj he
  rw [decodeFields_vecFloat t _ _ (by simp only [fld_packVR_maj, fld_packVR_d, fld_packVR_a, fld_packVR_b, fld_packVR_fn] <;> rfl)]
  cases t
  all_goals
    unfold decVecFloat
    simp (disch := decide) only [fld_packVR_maj, fld_packVR_d, fld_packVR_a, fld_packVR_b, fld_packVR_fn, vB_bField _ _ hb, sOf7_s7, sLit_sWord,
      vLit_vWord, List.append_assoc, List.cons_append, List.nil_append, List.append_nil, fld_packVR_within_d,
      fld_packVR_within_a, fld_packVR_within_b, fld_packVR_within_fn, extract_append_high, extract_append_low,
      extract_all, Nat.reduceSub]
    first
    | rfl
    | simp (disch := decide) [need, coded, takeLit, Bind.bind, Except.bind, Pure.pure, Except.pure, fld_packVR_maj, fld_packVR_d,
      fld_packVR_a, fld_packVR_b, fld_packVR_fn, vB_bField _ _ hb, sOf7_s7, sLit_sWord, vLit_vWord,
      List.append_assoc, List.cons_append, List.nil_append, List.append_nil, fld_packVR_within_d,
      fld_packVR_within_a, fld_packVR_within_b, fld_packVR_within_fn, extract_append_high, extract_append_low,
      extract_all, fld_packVR_zeros]

theorem vfmax (t : FTy) (d : VReg) (a : VReg) (b : BOp) : Statement (.vfmax t d a b) := by
  intro w ls rest hi he
  have hb : vbOk b = true := by
    have h2 : firstFailing _ = none := hi
    rw [firstFailing_eq_none] at h2; simp at h2; tauto
  obtain ⟨rfl, rfl⟩ := List.cons.inj he
  rw [decodeFields_vecFloat t _ _ (by simp only [fld_packVR_maj, fld_packVR_d, fld_packVR_a, fld_packVR_b, fld_packVR_fn] <;> rfl)]
  cases t
  all_goals
    unfold decVecFloat
    simp (disch := decide) only [fld_packVR_maj, fld_packVR_d, fld_packVR_a, fld_packVR_b, fld_packVR_fn, vB_bField _ _ hb, sOf7_s7, sLit_sWord,
      vLit_vWord, List.append_assoc, List.cons_append, List.nil_append, List.append_nil, fld_packVR_within_d,
      fld_packVR_within_a, fld_packVR_within_b, fld_packVR_within_fn, extract_append_high, extract_append_low,
      extract_all, Nat.reduceSub]
    first
    | rfl
    | simp (disch := decide) [need, coded, takeLit, Bind.bind, Except.bind, Pure.pure, Except.pure, fld_packVR_maj, fld_packVR_d,
      fld_packVR_a, fld_packVR_b, fld_packVR_fn, vB_bField _ _ hb, sOf7_s7, sLit_sWord, vLit_vWord,
      List.append_assoc, List.cons_append, List.nil_append, List.append_nil, fld_packVR_within_d,
      fld_packVR_within_a, fld_packVR_within_b, fld_packVR_within_fn, extract_append_high, extract_append_low,
      extract_all, fld_packVR_zeros]

theorem vfexp (t : FTy) (d : VReg) (a : VReg) : Statement (.vfexp t d a) := by
  intro w ls rest hi he
  obtain ⟨rfl, rfl⟩ := List.cons.inj he
  rw [decodeFields_vecFloat t _ _ (by simp only [fld_packVR_maj, fld_packVR_d, fld_packVR_a, fld_packVR_b, fld_packVR_fn] <;> rfl)]
  cases t
  all_goals
    unfold decVecFloat
    simp (disch := decide) only [fld_packVR_maj, fld_packVR_d, fld_packVR_a, fld_packVR_b, fld_packVR_fn, sOf7_s7, sLit_sWord, vLit_vWord,
      List.append_assoc, List.cons_append, List.nil_append, List.append_nil, fld_packVR_within_d,
      fld_packVR_within_a, fld_packVR_within_b, fld_packVR_within_fn, extract_append_high, extract_append_low,
      extract_all, Nat.reduceSub]
    first
    | rfl
    | simp (disch := decide) [need, coded, takeLit, Bind.bind, Except.bind, Pure.pure, Except.pure, fld_packVR_maj, fld_packVR_d,
      fld_packVR_a, fld_packVR_b, fld_packVR_fn, sOf7_s7, sLit_sWord, vLit_vWord, List.append_assoc,
      List.cons_append, List.nil_append, List.append_nil, fld_packVR_within_d, fld_packVR_within_a,
      fld_packVR_within_b, fld_packVR_within_fn, extract_append_high, extract_append_low, extract_all,
      fld_packVR_zeros]

theorem vfscl (t : FTy) (d : VReg) (a : VReg) (b : BOp) : Statement (.vfscl t d a b) := by
  intro w ls rest hi he
  have hb : vbOk b = true := by
    have h2 : firstFailing _ = none := hi
    rw [firstFailing_eq_none] at h2; simp at h2; tauto
  obtain ⟨rfl, rfl⟩ := List.cons.inj he
  rw [decodeFields_vecFloat t _ _ (by simp only [fld_packVR_maj, fld_packVR_d, fld_packVR_a, fld_packVR_b, fld_packVR_fn] <;> rfl)]
  cases t
  all_goals
    unfold decVecFloat
    simp (disch := decide) only [fld_packVR_maj, fld_packVR_d, fld_packVR_a, fld_packVR_b, fld_packVR_fn, vB_bField _ _ hb, sOf7_s7, sLit_sWord,
      vLit_vWord, List.append_assoc, List.cons_append, List.nil_append, List.append_nil, fld_packVR_within_d,
      fld_packVR_within_a, fld_packVR_within_b, fld_packVR_within_fn, extract_append_high, extract_append_low,
      extract_all, Nat.reduceSub]
    first
    | rfl
    | simp (disch := decide) [need, coded, takeLit, Bind.bind, Except.bind, Pure.pure, Except.pure, fld_packVR_maj, fld_packVR_d,
      fld_packVR_a, fld_packVR_b, fld_packVR_fn, vB_bField _ _ hb, sOf7_s7, sLit_sWord, vLit_vWord,
      List.append_assoc, List.cons_append, List.nil_append, List.append_nil, fld_packVR_within_d,
      fld_packVR_within_a, fld_packVR_within_b, fld_packVR_within_fn, extract_append_high, extract_append_low,
      extract_all, fld_packVR_zeros]

theorem vfclass (t : FTy) (d : VReg) (a : VReg) : Statement (.vfclass t d a) := by
  intro w ls rest hi he
  obtain ⟨rfl, rfl⟩ := List.cons.inj he
  rw [decodeFields_vecFloat t _ _ (by simp only [fld_packVR_maj, fld_packVR_d, fld_packVR_a, fld_packVR_b, fld_packVR_fn] <;> rfl)]
  cases t
  all_goals
    unfold decVecFloat
    simp (disch := decide) only [fld_packVR_maj, fld_packVR_d, fld_packVR_a, fld_packVR_b, fld_packVR_fn, sOf7_s7, sLit_sWord, vLit_vWord,
      List.append_assoc, List.cons_append, List.nil_append, List.append_nil, fld_packVR_within_d,
      fld_packVR_within_a, fld_packVR_within_b, fld_packVR_within_fn, extract_append_high, extract_append_low,
      extract_all, Nat.reduceSub]
    first
    | rfl
    | simp (disch := decide) [need, coded, takeLit, Bind.bind, Except.bind, Pure.pure, Except.pure, fld_packVR_maj, fld_packVR_d,
      fld_packVR_a, fld_packVR_b, fld_packVR_fn, sOf7_s7, sLit_sWord, vLit_vWord, List.append_assoc,
      List.cons_append, List.nil_append, List.append_nil, fld_packVR_within_d, fld_packVR_within_a,
      fld_packVR_within_b, fld_packVR_within_fn, extract_append_high, extract_append_low, extract_all,
      fld_packVR_zeros]

theorem vf2sum (wide : Bool) (d : VReg) (a : VReg) (b : BOp) : Statement (.vf2sum wide d a b) := by
  intro w ls rest hi he
  have hb : vbOk b = true := by
    have h2 : firstFailing _ = none := hi
    rw [firstFailing_eq_none] at h2; simp at h2; tauto
  obtain ⟨rfl, rfl⟩ := List.cons.inj he
  rw [decodeFields_vecFloat (if wide then .f64 else .f32) _ _ (by simp only [fld_packVR_maj, fld_packVR_d, fld_packVR_a, fld_packVR_b, fld_packVR_fn] <;> rfl)]
  cases wide
  all_goals
    unfold decVecFloat
    simp (disch := decide) only [fld_packVR_maj, fld_packVR_d, fld_packVR_a, fld_packVR_b, fld_packVR_fn, vB_bField _ _ hb, bitBool_boolBit,
      sOf7_s7, sLit_sWord, vLit_vWord, List.append_assoc, List.cons_append, List.nil_append, List.append_nil,
      fld_packVR_within_d, fld_packVR_within_a, fld_packVR_within_b, fld_packVR_within_fn, extract_append_high,
      extract_append_low, extract_all, Nat.reduceSub]
    first
    | rfl
    | simp (disch := decide) [need, coded, takeLit, Bind.bind, Except.bind, Pure.pure, Except.pure, fld_packVR_maj, fld_packVR_d,
      fld_packVR_a, fld_packVR_b, fld_packVR_fn, vB_bField _ _ hb, bitBool_boolBit, sOf7_s7, sLit_sWord, vLit_vWord,
      List.append_assoc, List.cons_append, List.nil_append, List.append_nil, fld_packVR_within_d,
      fld_packVR_within_a, fld_packVR_within_b, fld_packVR_within_fn, extract_append_high, extract_append_low,
      extract_all, fld_packVR_zeros]

theorem vfrnd (t : FTy) (d : VReg) (a : VReg) (seed : VReg) : Statement (.vfrnd t d a seed) := by
  intro w ls rest hi he
  obtain ⟨rfl, rfl⟩ := List.cons.inj he
  rw [decodeFields_vecFloat t _ _ (by simp only [fld_packVR_maj, fld_packVR_d, fld_packVR_a, fld_packVR_b, fld_packVR_fn] <;> rfl)]
  cases t
  all_goals
    unfold decVecFloat
    simp (disch := decide) only [fld_packVR_maj, fld_packVR_d, fld_packVR_a, fld_packVR_b, fld_packVR_fn, sOf7_s7, sLit_sWord, vLit_vWord,
      List.append_assoc, List.cons_append, List.nil_append, List.append_nil, fld_packVR_within_d,
      fld_packVR_within_a, fld_packVR_within_b, fld_packVR_within_fn, extract_append_high, extract_append_low,
      extract_all, Nat.reduceSub]
    first
    | rfl
    | simp (disch := decide) [need, coded, takeLit, Bind.bind, Except.bind, Pure.pure, Except.pure, fld_packVR_maj, fld_packVR_d,
      fld_packVR_a, fld_packVR_b, fld_packVR_fn, sOf7_s7, sLit_sWord, vLit_vWord, List.append_assoc,
      List.cons_append, List.nil_append, List.append_nil, fld_packVR_within_d, fld_packVR_within_a,
      fld_packVR_within_b, fld_packVR_within_fn, extract_append_high, extract_append_low, extract_all,
      fld_packVR_zeros]

theorem vrcp (t : FTy) (d : VReg) (a : VReg) : Statement (.vrcp t d a) := by
  intro w ls rest hi he
  obtain ⟨rfl, rfl⟩ := List.cons.inj he
  rw [decodeFields_vecFloat t _ _ (by simp only [fld_packVR_maj, fld_packVR_d, fld_packVR_a, fld_packVR_b, fld_packVR_fn] <;> rfl)]
  cases t
  all_goals
    unfold decVecFloat
    simp (disch := decide) only [fld_packVR_maj, fld_packVR_d, fld_packVR_a, fld_packVR_b, fld_packVR_fn, sOf7_s7, sLit_sWord, vLit_vWord,
      List.append_assoc, List.cons_append, List.nil_append, List.append_nil, fld_packVR_within_d,
      fld_packVR_within_a, fld_packVR_within_b, fld_packVR_within_fn, extract_append_high, extract_append_low,
      extract_all, Nat.reduceSub]
    first
    | rfl
    | simp (disch := decide) [need, coded, takeLit, Bind.bind, Except.bind, Pure.pure, Except.pure, fld_packVR_maj, fld_packVR_d,
      fld_packVR_a, fld_packVR_b, fld_packVR_fn, sOf7_s7, sLit_sWord, vLit_vWord, List.append_assoc,
      List.cons_append, List.nil_append, List.append_nil, fld_packVR_within_d, fld_packVR_within_a,
      fld_packVR_within_b, fld_packVR_within_fn, extract_append_high, extract_append_low, extract_all,
      fld_packVR_zeros]

theorem vrsq (t : FTy) (d : VReg) (a : VReg) : Statement (.vrsq t d a) := by
  intro w ls rest hi he
  obtain ⟨rfl, rfl⟩ := List.cons.inj he
  rw [decodeFields_vecFloat t _ _ (by simp only [fld_packVR_maj, fld_packVR_d, fld_packVR_a, fld_packVR_b, fld_packVR_fn] <;> rfl)]
  cases t
  all_goals
    unfold decVecFloat
    simp (disch := decide) only [fld_packVR_maj, fld_packVR_d, fld_packVR_a, fld_packVR_b, fld_packVR_fn, sOf7_s7, sLit_sWord, vLit_vWord,
      List.append_assoc, List.cons_append, List.nil_append, List.append_nil, fld_packVR_within_d,
      fld_packVR_within_a, fld_packVR_within_b, fld_packVR_within_fn, extract_append_high, extract_append_low,
      extract_all, Nat.reduceSub]
    first
    | rfl
    | simp (disch := decide) [need, coded, takeLit, Bind.bind, Except.bind, Pure.pure, Except.pure, fld_packVR_maj, fld_packVR_d,
      fld_packVR_a, fld_packVR_b, fld_packVR_fn, sOf7_s7, sLit_sWord, vLit_vWord, List.append_assoc,
      List.cons_append, List.nil_append, List.append_nil, fld_packVR_within_d, fld_packVR_within_a,
      fld_packVR_within_b, fld_packVR_within_fn, extract_append_high, extract_append_low, extract_all,
      fld_packVR_zeros]

theorem vsqrt (t : FTy) (d : VReg) (a : VReg) : Statement (.vsqrt t d a) := by
  intro w ls rest hi he
  obtain ⟨rfl, rfl⟩ := List.cons.inj he
  rw [decodeFields_vecFloat t _ _ (by simp only [fld_packVR_maj, fld_packVR_d, fld_packVR_a, fld_packVR_b, fld_packVR_fn] <;> rfl)]
  cases t
  all_goals
    unfold decVecFloat
    simp (disch := decide) only [fld_packVR_maj, fld_packVR_d, fld_packVR_a, fld_packVR_b, fld_packVR_fn, sOf7_s7, sLit_sWord, vLit_vWord,
      List.append_assoc, List.cons_append, List.nil_append, List.append_nil, fld_packVR_within_d,
      fld_packVR_within_a, fld_packVR_within_b, fld_packVR_within_fn, extract_append_high, extract_append_low,
      extract_all, Nat.reduceSub]
    first
    | rfl
    | simp (disch := decide) [need, coded, takeLit, Bind.bind, Except.bind, Pure.pure, Except.pure, fld_packVR_maj, fld_packVR_d,
      fld_packVR_a, fld_packVR_b, fld_packVR_fn, sOf7_s7, sLit_sWord, vLit_vWord, List.append_assoc,
      List.cons_append, List.nil_append, List.append_nil, fld_packVR_within_d, fld_packVR_within_a,
      fld_packVR_within_b, fld_packVR_within_fn, extract_append_high, extract_append_low, extract_all,
      fld_packVR_zeros]

theorem vexp2 (t : FTy) (d : VReg) (a : VReg) : Statement (.vexp2 t d a) := by
  intro w ls rest hi he
  obtain ⟨rfl, rfl⟩ := List.cons.inj he
  rw [decodeFields_vecFloat t _ _ (by simp only [fld_packVR_maj, fld_packVR_d, fld_packVR_a, fld_packVR_b, fld_packVR_fn] <;> rfl)]
  cases t
  all_goals
    unfold decVecFloat
    simp (disch := decide) only [fld_packVR_maj, fld_packVR_d, fld_packVR_a, fld_packVR_b, fld_packVR_fn, sOf7_s7, sLit_sWord, vLit_vWord,
      List.append_assoc, List.cons_append, List.nil_append, List.append_nil, fld_packVR_within_d,
      fld_packVR_within_a, fld_packVR_within_b, fld_packVR_within_fn, extract_append_high, extract_append_low,
      extract_all, Nat.reduceSub]
    first
    | rfl
    | simp (disch := decide) [need, coded, takeLit, Bind.bind, Except.bind, Pure.pure, Except.pure, fld_packVR_maj, fld_packVR_d,
      fld_packVR_a, fld_packVR_b, fld_packVR_fn, sOf7_s7, sLit_sWord, vLit_vWord, List.append_assoc,
      List.cons_append, List.nil_append, List.append_nil, fld_packVR_within_d, fld_packVR_within_a,
      fld_packVR_within_b, fld_packVR_within_fn, extract_append_high, extract_append_low, extract_all,
      fld_packVR_zeros]

theorem vlog2 (t : FTy) (d : VReg) (a : VReg) : Statement (.vlog2 t d a) := by
  intro w ls rest hi he
  obtain ⟨rfl, rfl⟩ := List.cons.inj he
  rw [decodeFields_vecFloat t _ _ (by simp only [fld_packVR_maj, fld_packVR_d, fld_packVR_a, fld_packVR_b, fld_packVR_fn] <;> rfl)]
  cases t
  all_goals
    unfold decVecFloat
    simp (disch := decide) only [fld_packVR_maj, fld_packVR_d, fld_packVR_a, fld_packVR_b, fld_packVR_fn, sOf7_s7, sLit_sWord, vLit_vWord,
      List.append_assoc, List.cons_append, List.nil_append, List.append_nil, fld_packVR_within_d,
      fld_packVR_within_a, fld_packVR_within_b, fld_packVR_within_fn, extract_append_high, extract_append_low,
      extract_all, Nat.reduceSub]
    first
    | rfl
    | simp (disch := decide) [need, coded, takeLit, Bind.bind, Except.bind, Pure.pure, Except.pure, fld_packVR_maj, fld_packVR_d,
      fld_packVR_a, fld_packVR_b, fld_packVR_fn, sOf7_s7, sLit_sWord, vLit_vWord, List.append_assoc,
      List.cons_append, List.nil_append, List.append_nil, fld_packVR_within_d, fld_packVR_within_a,
      fld_packVR_within_b, fld_packVR_within_fn, extract_append_high, extract_append_low, extract_all,
      fld_packVR_zeros]

theorem vsin (t : FTy) (d : VReg) (a : VReg) : Statement (.vsin t d a) := by
  intro w ls rest hi he
  obtain ⟨rfl, rfl⟩ := List.cons.inj he
  rw [decodeFields_vecFloat t _ _ (by simp only [fld_packVR_maj, fld_packVR_d, fld_packVR_a, fld_packVR_b, fld_packVR_fn] <;> rfl)]
  cases t
  all_goals
    unfold decVecFloat
    simp (disch := decide) only [fld_packVR_maj, fld_packVR_d, fld_packVR_a, fld_packVR_b, fld_packVR_fn, sOf7_s7, sLit_sWord, vLit_vWord,
      List.append_assoc, List.cons_append, List.nil_append, List.append_nil, fld_packVR_within_d,
      fld_packVR_within_a, fld_packVR_within_b, fld_packVR_within_fn, extract_append_high, extract_append_low,
      extract_all, Nat.reduceSub]
    first
    | rfl
    | simp (disch := decide) [need, coded, takeLit, Bind.bind, Except.bind, Pure.pure, Except.pure, fld_packVR_maj, fld_packVR_d,
      fld_packVR_a, fld_packVR_b, fld_packVR_fn, sOf7_s7, sLit_sWord, vLit_vWord, List.append_assoc,
      List.cons_append, List.nil_append, List.append_nil, fld_packVR_within_d, fld_packVR_within_a,
      fld_packVR_within_b, fld_packVR_within_fn, extract_append_high, extract_append_low, extract_all,
      fld_packVR_zeros]

theorem vcos (t : FTy) (d : VReg) (a : VReg) : Statement (.vcos t d a) := by
  intro w ls rest hi he
  obtain ⟨rfl, rfl⟩ := List.cons.inj he
  rw [decodeFields_vecFloat t _ _ (by simp only [fld_packVR_maj, fld_packVR_d, fld_packVR_a, fld_packVR_b, fld_packVR_fn] <;> rfl)]
  cases t
  all_goals
    unfold decVecFloat
    simp (disch := decide) only [fld_packVR_maj, fld_packVR_d, fld_packVR_a, fld_packVR_b, fld_packVR_fn, sOf7_s7, sLit_sWord, vLit_vWord,
      List.append_assoc, List.cons_append, List.nil_append, List.append_nil, fld_packVR_within_d,
      fld_packVR_within_a, fld_packVR_within_b, fld_packVR_within_fn, extract_append_high, extract_append_low,
      extract_all, Nat.reduceSub]
    first
    | rfl
    | simp (disch := decide) [need, coded, takeLit, Bind.bind, Except.bind, Pure.pure, Except.pure, fld_packVR_maj, fld_packVR_d,
      fld_packVR_a, fld_packVR_b, fld_packVR_fn, sOf7_s7, sLit_sWord, vLit_vWord, List.append_assoc,
      List.cons_append, List.nil_append, List.append_nil, fld_packVR_within_d, fld_packVR_within_a,
      fld_packVR_within_b, fld_packVR_within_fn, extract_append_high, extract_append_low, extract_all,
      fld_packVR_zeros]

theorem vtanh (t : FTy) (d : VReg) (a : VReg) : Statement (.vtanh t d a) := by
  intro w ls rest hi he
  obtain ⟨rfl, rfl⟩ := List.cons.inj he
  rw [decodeFields_vecFloat t _ _ (by simp only [fld_packVR_maj, fld_packVR_d, fld_packVR_a, fld_packVR_b, fld_packVR_fn] <;> rfl)]
  cases t
  all_goals
    unfold decVecFloat
    simp (disch := decide) only [fld_packVR_maj, fld_packVR_d, fld_packVR_a, fld_packVR_b, fld_packVR_fn, sOf7_s7, sLit_sWord, vLit_vWord,
      List.append_assoc, List.cons_append, List.nil_append, List.append_nil, fld_packVR_within_d,
      fld_packVR_within_a, fld_packVR_within_b, fld_packVR_within_fn, extract_append_high, extract_append_low,
      extract_all, Nat.reduceSub]
    first
    | rfl
    | simp (disch := decide) [need, coded, takeLit, Bind.bind, Except.bind, Pure.pure, Except.pure, fld_packVR_maj, fld_packVR_d,
      fld_packVR_a, fld_packVR_b, fld_packVR_fn, sOf7_s7, sLit_sWord, vLit_vWord, List.append_assoc,
      List.cons_append, List.nil_append, List.append_nil, fld_packVR_within_d, fld_packVR_within_a,
      fld_packVR_within_b, fld_packVR_within_fn, extract_append_high, extract_append_low, extract_all,
      fld_packVR_zeros]

theorem vosmx (d : VReg) (a : VReg) (b : VReg) : Statement (.vosmx d a b) := by
  intro w ls rest hi he
  obtain ⟨rfl, rfl⟩ := List.cons.inj he
  rw [decodeFields_0x20 _ _ (by simp only [fld_packVR_maj, fld_packVR_d, fld_packVR_a, fld_packVR_b, fld_packVR_fn] <;> rfl)]
  unfold decVecFloat
  simp (disch := decide) only [fld_packVR_maj, fld_packVR_d, fld_packVR_a, fld_packVR_b, fld_packVR_fn, sOf7_s7, sLit_sWord, vLit_vWord,
    List.append_assoc, List.cons_append, List.nil_append, List.append_nil, fld_packVR_within_d,
    fld_packVR_within_a, fld_packVR_within_b, fld_packVR_within_fn, extract_append_high, extract_append_low,
    extract_all, Nat.reduceSub]
  first
  | rfl
  | simp (disch := decide) [need, coded, takeLit, Bind.bind, Except.bind, Pure.pure, Except.pure, fld_packVR_maj, fld_packVR_d,
    fld_packVR_a, fld_packVR_b, fld_packVR_fn, sOf7_s7, sLit_sWord, vLit_vWord, List.append_assoc,
    List.cons_append, List.nil_append, List.append_nil, fld_packVR_within_d, fld_packVR_within_a,
    fld_packVR_within_b, fld_packVR_within_fn, extract_append_high, extract_append_low, extract_all,
    fld_packVR_zeros]

theorem vosms (d : VReg) (a : VReg) : Statement (.vosms d a) := by
  intro w ls rest hi he
  obtain ⟨rfl, rfl⟩ := List.cons.inj he
  rw [decodeFields_0x20 _ _ (by simp only [fld_packVR_maj, fld_packVR_d, fld_packVR_a, fld_packVR_b, fld_packVR_fn] <;> rfl)]
  unfold decVecFloat
  simp (disch := decide) only [fld_packVR_maj, fld_packVR_d, fld_packVR_a, fld_packVR_b, fld_packVR_fn, sOf7_s7, sLit_sWord, vLit_vWord,
    List.append_assoc, List.cons_append, List.nil_append, List.append_nil, fld_packVR_within_d,
    fld_packVR_within_a, fld_packVR_within_b, fld_packVR_within_fn, extract_append_high, extract_append_low,
    extract_all, Nat.reduceSub]
  first
  | rfl
  | simp (disch := decide) [need, coded, takeLit, Bind.bind, Except.bind, Pure.pure, Except.pure, fld_packVR_maj, fld_packVR_d,
    fld_packVR_a, fld_packVR_b, fld_packVR_fn, sOf7_s7, sLit_sWord, vLit_vWord, List.append_assoc,
    List.cons_append, List.nil_append, List.append_nil, fld_packVR_within_d, fld_packVR_within_a,
    fld_packVR_within_b, fld_packVR_within_fn, extract_append_high, extract_append_low, extract_all,
    fld_packVR_zeros]

theorem vfcmp (t : FTy) (c : FCond) (s0 : SReg) (a : VReg) (b : BOp) : Statement (.vfcmp t c s0 a b) := by
  intro w ls rest hi he
  have hb : vbOk b = true := by
    have h2 : firstFailing _ = none := hi
    rw [firstFailing_eq_none] at h2; simp at h2; tauto
  obtain ⟨rfl, rfl⟩ := List.cons.inj he
  rw [decodeFields_vecFloat t _ _ (by simp only [fld_packVR_maj, fld_packVR_d, fld_packVR_a, fld_packVR_b, fld_packVR_fn] <;> rfl)]
  cases t
  all_goals
    unfold decVecFloat
    simp (disch := decide) only [fld_packVR_maj, fld_packVR_d, fld_packVR_a, fld_packVR_b, fld_packVR_fn, vB_bField _ _ hb, FCond.ofCode_code,
      sOf7_s7, sLit_sWord, vLit_vWord, List.append_assoc, List.cons_append, List.nil_append, List.append_nil,
      fld_packVR_within_d, fld_packVR_within_a, fld_packVR_within_b, fld_packVR_within_fn, extract_append_high,
      extract_append_low, extract_all, Nat.reduceSub]
    first
    | rfl
    | simp (disch := decide) [need, coded, takeLit, Bind.bind, Except.bind, Pure.pure, Except.pure, fld_packVR_maj, fld_packVR_d,
      fld_packVR_a, fld_packVR_b, fld_packVR_fn, vB_bField _ _ hb, FCond.ofCode_code, sOf7_s7, sLit_sWord,
      vLit_vWord, List.append_assoc, List.cons_append, List.nil_append, List.append_nil, fld_packVR_within_d,
      fld_packVR_within_a, fld_packVR_within_b, fld_packVR_within_fn, extract_append_high, extract_append_low,
      extract_all, fld_packVR_zeros]

theorem vfcvt (d : VReg) (a : VReg) (df : Cvt) (sf : Cvt) (sat : Bool) : Statement (.vfcvt d a df sf sat) := by
  intro w ls rest hi he
  obtain ⟨rfl, rfl⟩ := List.cons.inj he
  rw [decodeFields_0x24 _ _ (by simp only [fld_packVC_maj, fld_packVC_d, fld_packVC_a, fld_packVC_df, fld_packVC_sf, fld_packVC_sat, fld_packVC_srs] <;> rfl)]
  unfold decConvert
  simp (disch := decide) only [fld_packVC_maj, fld_packVC_d, fld_packVC_a, fld_packVC_df, fld_packVC_sf, fld_packVC_sat, fld_packVC_srs,
    Cvt.ofCode_code, bitBool_boolBit, sOf7_s7, sLit_sWord, vLit_vWord, List.append_assoc, List.cons_append,
    List.nil_append, List.append_nil, fld_packVC_within_d, fld_packVC_within_a, fld_packVC_within_df,
    fld_packVC_within_sf, extract_append_high, extract_append_low, extract_all, Nat.reduceSub]
  first
  | rfl
  | simp (disch := decide) [need, coded, takeLit, Bind.bind, Except.bind, Pure.pure, Except.pure, fld_packVC_maj, fld_packVC_d,
    fld_packVC_a, fld_packVC_df, fld_packVC_sf, fld_packVC_sat, fld_packVC_srs, Cvt.ofCode_code, bitBool_boolBit,
    sOf7_s7, sLit_sWord, vLit_vWord, List.append_assoc, List.cons_append, List.nil_append, List.append_nil,
    fld_packVC_within_d, fld_packVC_within_a, fld_packVC_within_df, fld_packVC_within_sf, extract_append_high,
    extract_append_low, extract_all]

theorem vld (d : VReg) (a : SReg) (b : BOp) (o : Option Ord) (pol : Policy) (z : Size) : Statement (.vld d a b o pol z) := by
  intro w ls rest hi he
  have hb : vbOk b = true := by
    have h2 : firstFailing _ = none := hi
    rw [firstFailing_eq_none] at h2; simp at h2; tauto
  obtain ⟨rfl, rfl⟩ := List.cons.inj he
  rw [decodeFields_0x2C _ _ (by simp only [fld_packMM_maj, fld_packMM_d, fld_packMM_a, fld_packMM_b, fld_packMM_o, fld_packMM_p, fld_packMM_z] <;> rfl)]
  cases o
  all_goals
    unfold decAccess
    simp (disch := decide) only [fld_packMM_maj, fld_packMM_d, fld_packMM_a, fld_packMM_b, fld_packMM_o, fld_packMM_p, fld_packMM_z,
      vB_bField _ _ hb, Size.ofCode_code, Policy.ofCode_code, plainOrd_ordWord, polOrd_ordWord, atomOrd_ordWord,
      bitBool_boolBit, sOf7_s7, sLit_sWord, vLit_vWord, List.append_assoc, List.cons_append, List.nil_append,
      List.append_nil, fld_packMM_within_d, fld_packMM_within_a, fld_packMM_within_b, fld_packMM_within_p,
      fld_packMM_within_z, extract_append_high, extract_append_low, extract_all, Nat.reduceSub]
    first
    | rfl
    | simp (disch := decide) [need, coded, takeLit, Bind.bind, Except.bind, Pure.pure, Except.pure, fld_packMM_maj, fld_packMM_d,
      fld_packMM_a, fld_packMM_b, fld_packMM_o, fld_packMM_p, fld_packMM_z, vB_bField _ _ hb, Size.ofCode_code,
      Policy.ofCode_code, plainOrd_ordWord, polOrd_ordWord, atomOrd_ordWord, bitBool_boolBit, sOf7_s7, sLit_sWord,
      vLit_vWord, List.append_assoc, List.cons_append, List.nil_append, List.append_nil, fld_packMM_within_d,
      fld_packMM_within_a, fld_packMM_within_b, fld_packMM_within_p, fld_packMM_within_z, extract_append_high,
      extract_append_low, extract_all, boolBit]

theorem vst (d : VReg) (a : SReg) (b : BOp) (o : Option Ord) (pol : Policy) (z : Size) : Statement (.vst d a b o pol z) := by
  intro w ls rest hi he
  have hb : vbOk b = true := by
    have h2 : firstFailing _ = none := hi
    rw [firstFailing_eq_none] at h2; simp at h2; tauto
  obtain ⟨rfl, rfl⟩ := List.cons.inj he
  rw [decodeFields_0x2D _ _ (by simp only [fld_packMM_maj, fld_packMM_d, fld_packMM_a, fld_packMM_b, fld_packMM_o, fld_packMM_p, fld_packMM_z] <;> rfl)]
  cases o
  all_goals
    unfold decAccess
    simp (disch := decide) only [fld_packMM_maj, fld_packMM_d, fld_packMM_a, fld_packMM_b, fld_packMM_o, fld_packMM_p, fld_packMM_z,
      vB_bField _ _ hb, Size.ofCode_code, Policy.ofCode_code, plainOrd_ordWord, polOrd_ordWord, atomOrd_ordWord,
      bitBool_boolBit, sOf7_s7, sLit_sWord, vLit_vWord, List.append_assoc, List.cons_append, List.nil_append,
      List.append_nil, fld_packMM_within_d, fld_packMM_within_a, fld_packMM_within_b, fld_packMM_within_p,
      fld_packMM_within_z, extract_append_high, extract_append_low, extract_all, Nat.reduceSub]
    first
    | rfl
    | simp (disch := decide) [need, coded, takeLit, Bind.bind, Except.bind, Pure.pure, Except.pure, fld_packMM_maj, fld_packMM_d,
      fld_packMM_a, fld_packMM_b, fld_packMM_o, fld_packMM_p, fld_packMM_z, vB_bField _ _ hb, Size.ofCode_code,
      Policy.ofCode_code, plainOrd_ordWord, polOrd_ordWord, atomOrd_ordWord, bitBool_boolBit, sOf7_s7, sLit_sWord,
      vLit_vWord, List.append_assoc, List.cons_append, List.nil_append, List.append_nil, fld_packMM_within_d,
      fld_packMM_within_a, fld_packMM_within_b, fld_packMM_within_p, fld_packMM_within_z, extract_append_high,
      extract_append_low, extract_all, boolBit]

theorem vldg (d : VReg) (a : SReg) (b : BOp) (o : Option Ord) (pol : Policy) (z : Size) : Statement (.vldg d a b o pol z) := by
  intro w ls rest hi he
  have hb : vbOk b = true := by
    have h2 : firstFailing _ = none := hi
    rw [firstFailing_eq_none] at h2; simp at h2; tauto
  obtain ⟨rfl, rfl⟩ := List.cons.inj he
  rw [decodeFields_0x2E _ _ (by simp only [fld_packMM_maj, fld_packMM_d, fld_packMM_a, fld_packMM_b, fld_packMM_o, fld_packMM_p, fld_packMM_z] <;> rfl)]
  cases o
  all_goals
    unfold decAccess
    simp (disch := decide) only [fld_packMM_maj, fld_packMM_d, fld_packMM_a, fld_packMM_b, fld_packMM_o, fld_packMM_p, fld_packMM_z,
      vB_bField _ _ hb, Size.ofCode_code, Policy.ofCode_code, plainOrd_ordWord, polOrd_ordWord, atomOrd_ordWord,
      bitBool_boolBit, sOf7_s7, sLit_sWord, vLit_vWord, List.append_assoc, List.cons_append, List.nil_append,
      List.append_nil, fld_packMM_within_d, fld_packMM_within_a, fld_packMM_within_b, fld_packMM_within_p,
      fld_packMM_within_z, extract_append_high, extract_append_low, extract_all, Nat.reduceSub]
    first
    | rfl
    | simp (disch := decide) [need, coded, takeLit, Bind.bind, Except.bind, Pure.pure, Except.pure, fld_packMM_maj, fld_packMM_d,
      fld_packMM_a, fld_packMM_b, fld_packMM_o, fld_packMM_p, fld_packMM_z, vB_bField _ _ hb, Size.ofCode_code,
      Policy.ofCode_code, plainOrd_ordWord, polOrd_ordWord, atomOrd_ordWord, bitBool_boolBit, sOf7_s7, sLit_sWord,
      vLit_vWord, List.append_assoc, List.cons_append, List.nil_append, List.append_nil, fld_packMM_within_d,
      fld_packMM_within_a, fld_packMM_within_b, fld_packMM_within_p, fld_packMM_within_z, extract_append_high,
      extract_append_low, extract_all, boolBit]

theorem vsts (d : VReg) (a : SReg) (b : BOp) (o : Option Ord) (pol : Policy) (z : Size) : Statement (.vsts d a b o pol z) := by
  intro w ls rest hi he
  have hb : vbOk b = true := by
    have h2 : firstFailing _ = none := hi
    rw [firstFailing_eq_none] at h2; simp at h2; tauto
  obtain ⟨rfl, rfl⟩ := List.cons.inj he
  rw [decodeFields_0x30 _ _ (by simp only [fld_packMM_maj, fld_packMM_d, fld_packMM_a, fld_packMM_b, fld_packMM_o, fld_packMM_p, fld_packMM_z] <;> rfl)]
  cases o
  all_goals
    unfold decAccess
    simp (disch := decide) only [fld_packMM_maj, fld_packMM_d, fld_packMM_a, fld_packMM_b, fld_packMM_o, fld_packMM_p, fld_packMM_z,
      vB_bField _ _ hb, Size.ofCode_code, Policy.ofCode_code, plainOrd_ordWord, polOrd_ordWord, atomOrd_ordWord,
      bitBool_boolBit, sOf7_s7, sLit_sWord, vLit_vWord, List.append_assoc, List.cons_append, List.nil_append,
      List.append_nil, fld_packMM_within_d, fld_packMM_within_a, fld_packMM_within_b, fld_packMM_within_p,
      fld_packMM_within_z, extract_append_high, extract_append_low, extract_all, Nat.reduceSub]
    first
    | rfl
    | simp (disch := decide) [need, coded, takeLit, Bind.bind, Except.bind, Pure.pure, Except.pure, fld_packMM_maj, fld_packMM_d,
      fld_packMM_a, fld_packMM_b, fld_packMM_o, fld_packMM_p, fld_packMM_z, vB_bField _ _ hb, Size.ofCode_code,
      Policy.ofCode_code, plainOrd_ordWord, polOrd_ordWord, atomOrd_ordWord, bitBool_boolBit, sOf7_s7, sLit_sWord,
      vLit_vWord, List.append_assoc, List.cons_append, List.nil_append, List.append_nil, fld_packMM_within_d,
      fld_packMM_within_a, fld_packMM_within_b, fld_packMM_within_p, fld_packMM_within_z, extract_append_high,
      extract_append_low, extract_all, boolBit]

theorem lld (d : VReg) (a : SReg) (b : BOp) (z : Size) : Statement (.lld d a b z) := by
  intro w ls rest hi he
  have hb : vbOk b = true := by
    have h2 : firstFailing _ = none := hi
    rw [firstFailing_eq_none] at h2; simp at h2; tauto
  obtain ⟨rfl, rfl⟩ := List.cons.inj he
  rw [decodeFields_0x31 _ _ (by simp only [fld_packAT_maj, fld_packAT_d, fld_packAT_a, fld_packAT_b, fld_packAT_k, fld_packAT_z] <;> rfl)]
  unfold decLocal
  simp (disch := decide) only [fld_packAT_maj, fld_packAT_d, fld_packAT_a, fld_packAT_b, fld_packAT_k, fld_packAT_z, vB_bField _ _ hb,
    Size.ofCode_code, sOf7_s7, sLit_sWord, vLit_vWord, List.append_assoc, List.cons_append, List.nil_append,
    List.append_nil, fld_packAT_within_d, fld_packAT_within_a, fld_packAT_within_b, fld_packAT_within_k,
    fld_packAT_within_z, extract_append_high, extract_append_low, extract_all, Nat.reduceSub]
  first
  | rfl
  | simp (disch := decide) [need, coded, takeLit, Bind.bind, Except.bind, Pure.pure, Except.pure, fld_packAT_maj, fld_packAT_d,
    fld_packAT_a, fld_packAT_b, fld_packAT_k, fld_packAT_z, vB_bField _ _ hb, Size.ofCode_code, sOf7_s7,
    sLit_sWord, vLit_vWord, List.append_assoc, List.cons_append, List.nil_append, List.append_nil,
    fld_packAT_within_d, fld_packAT_within_a, fld_packAT_within_b, fld_packAT_within_k, fld_packAT_within_z,
    extract_append_high, extract_append_low, extract_all]

theorem lst (d : VReg) (a : SReg) (b : BOp) (z : Size) : Statement (.lst d a b z) := by
  intro w ls rest hi he
  have hb : vbOk b = true := by
    have h2 : firstFailing _ = none := hi
    rw [firstFailing_eq_none] at h2; simp at h2; tauto
  obtain ⟨rfl, rfl⟩ := List.cons.inj he
  rw [decodeFields_0x31 _ _ (by simp only [fld_packAT_maj, fld_packAT_d, fld_packAT_a, fld_packAT_b, fld_packAT_k, fld_packAT_z] <;> rfl)]
  unfold decLocal
  simp (disch := decide) only [fld_packAT_maj, fld_packAT_d, fld_packAT_a, fld_packAT_b, fld_packAT_k, fld_packAT_z, vB_bField _ _ hb,
    Size.ofCode_code, sOf7_s7, sLit_sWord, vLit_vWord, List.append_assoc, List.cons_append, List.nil_append,
    List.append_nil, fld_packAT_within_d, fld_packAT_within_a, fld_packAT_within_b, fld_packAT_within_k,
    fld_packAT_within_z, extract_append_high, extract_append_low, extract_all, Nat.reduceSub]
  first
  | rfl
  | simp (disch := decide) [need, coded, takeLit, Bind.bind, Except.bind, Pure.pure, Except.pure, fld_packAT_maj, fld_packAT_d,
    fld_packAT_a, fld_packAT_b, fld_packAT_k, fld_packAT_z, vB_bField _ _ hb, Size.ofCode_code, sOf7_s7,
    sLit_sWord, vLit_vWord, List.append_assoc, List.cons_append, List.nil_append, List.append_nil,
    fld_packAT_within_d, fld_packAT_within_a, fld_packAT_within_b, fld_packAT_within_k, fld_packAT_within_z,
    extract_append_high, extract_append_low, extract_all]

theorem ald (wide : Bool) (d : VReg) (a : SReg) (t : BitVec 4) : Statement (.ald wide d a t) := by
  intro w ls rest hi he
  obtain ⟨rfl, rfl⟩ := List.cons.inj he
  rw [decodeFields_0x31 _ _ (by simp only [fld_packAT_maj, fld_packAT_d, fld_packAT_a, fld_packAT_b, fld_packAT_k, fld_packAT_z] <;> rfl)]
  cases wide
  all_goals
    unfold decLocal
    simp (disch := decide) only [fld_packAT_maj, fld_packAT_d, fld_packAT_a, fld_packAT_b, fld_packAT_k, fld_packAT_z, bitBool_boolBit, sOf7_s7,
      sLit_sWord, vLit_vWord, List.append_assoc, List.cons_append, List.nil_append, List.append_nil,
      fld_packAT_within_d, fld_packAT_within_a, fld_packAT_within_b, fld_packAT_within_k, fld_packAT_within_z,
      extract_append_high, extract_append_low, extract_all, Nat.reduceSub]
    first
    | rfl
    | simp (disch := decide) [need, coded, takeLit, Bind.bind, Except.bind, Pure.pure, Except.pure, fld_packAT_maj, fld_packAT_d,
      fld_packAT_a, fld_packAT_b, fld_packAT_k, fld_packAT_z, bitBool_boolBit, sOf7_s7, sLit_sWord, vLit_vWord,
      List.append_assoc, List.cons_append, List.nil_append, List.append_nil, fld_packAT_within_d,
      fld_packAT_within_a, fld_packAT_within_b, fld_packAT_within_k, fld_packAT_within_z, extract_append_high,
      extract_append_low, extract_all]

theorem ast (wide : Bool) (d : VReg) (a : SReg) (t : BitVec 4) : Statement (.ast wide d a t) := by
  intro w ls rest hi he
  obtain ⟨rfl, rfl⟩ := List.cons.inj he
  rw [decodeFields_0x31 _ _ (by simp only [fld_packAT_maj, fld_packAT_d, fld_packAT_a, fld_packAT_b, fld_packAT_k, fld_packAT_z] <;> rfl)]
  cases wide
  all_goals
    unfold decLocal
    simp (disch := decide) only [fld_packAT_maj, fld_packAT_d, fld_packAT_a, fld_packAT_b, fld_packAT_k, fld_packAT_z, bitBool_boolBit, sOf7_s7,
      sLit_sWord, vLit_vWord, List.append_assoc, List.cons_append, List.nil_append, List.append_nil,
      fld_packAT_within_d, fld_packAT_within_a, fld_packAT_within_b, fld_packAT_within_k, fld_packAT_within_z,
      extract_append_high, extract_append_low, extract_all, Nat.reduceSub]
    first
    | rfl
    | simp (disch := decide) [need, coded, takeLit, Bind.bind, Except.bind, Pure.pure, Except.pure, fld_packAT_maj, fld_packAT_d,
      fld_packAT_a, fld_packAT_b, fld_packAT_k, fld_packAT_z, bitBool_boolBit, sOf7_s7, sLit_sWord, vLit_vWord,
      List.append_assoc, List.cons_append, List.nil_append, List.append_nil, fld_packAT_within_d,
      fld_packAT_within_a, fld_packAT_within_b, fld_packAT_within_k, fld_packAT_within_z, extract_append_high,
      extract_append_low, extract_all]

theorem pref (a : SReg) (b : SOp) (pol : Policy) : Statement (.pref a b pol) := by
  intro w ls rest hi he
  have hb : sbOk b = true := by
    have h2 : firstFailing _ = none := hi
    rw [firstFailing_eq_none] at h2; simp at h2; tauto
  obtain ⟨rfl, rfl⟩ := List.cons.inj he
  rw [decodeFields_0x33 _ _ (by simp only [fld_packSR_maj, fld_packSR_d, fld_packSR_a, fld_packSR_b, fld_packSR_fn] <;> rfl)]
  unfold decScalarMem
  simp (disch := decide) only [fld_packSR_maj, fld_packSR_d, fld_packSR_a, fld_packSR_b, fld_packSR_fn, sB_sbField _ _ hb, Policy.ofCode_code,
    sOf7_s7, sLit_sWord, vLit_vWord, List.append_assoc, List.cons_append, List.nil_append, List.append_nil,
    fld_packSR_within_d, fld_packSR_within_a, fld_packSR_within_b, fld_packSR_within_fn, extract_append_high,
    extract_append_low, extract_all, Nat.reduceSub]
  first
  | rfl
  | simp (disch := decide) [need, coded, takeLit, Bind.bind, Except.bind, Pure.pure, Except.pure, fld_packSR_maj, fld_packSR_d,
    fld_packSR_a, fld_packSR_b, fld_packSR_fn, sB_sbField _ _ hb, Policy.ofCode_code, sOf7_s7, sLit_sWord,
    vLit_vWord, List.append_assoc, List.cons_append, List.nil_append, List.append_nil, fld_packSR_within_d,
    fld_packSR_within_a, fld_packSR_within_b, fld_packSR_within_fn, extract_append_high, extract_append_low,
    extract_all, fld_packSR_zeros]

theorem fence (str : Strength) (scope : Scope) : Statement (.fence str scope) := by
  intro w ls rest hi he
  have hs : fenceOfCode (fenceCode str) = some str := by
    have h2 : firstFailing _ = none := hi
    rw [firstFailing_eq_none] at h2; simp at h2
    exact fenceOfCode_fenceCode _ (by tauto)
  obtain ⟨rfl, rfl⟩ := List.cons.inj he
  rw [decodeFields_0x33 _ _ (by simp only [fld_packSR_maj, fld_packSR_d, fld_packSR_a, fld_packSR_b, fld_packSR_fn] <;> rfl)]
  unfold decScalarMem
  simp (disch := decide) only [fld_packSR_maj, fld_packSR_d, fld_packSR_a, fld_packSR_b, fld_packSR_fn, Strength.ofCode_code,
    Scope.ofCode_code, sOf7_s7, sLit_sWord, vLit_vWord, hs, List.append_assoc, List.cons_append, List.nil_append,
    List.append_nil, fld_packSR_within_d, fld_packSR_within_a, fld_packSR_within_b, fld_packSR_within_fn,
    extract_append_high, extract_append_low, extract_all, Nat.reduceSub]
  first
  | rfl
  | simp (disch := decide) [need, coded, takeLit, Bind.bind, Except.bind, Pure.pure, Except.pure, fld_packSR_maj, fld_packSR_d,
    fld_packSR_a, fld_packSR_b, fld_packSR_fn, Strength.ofCode_code, Scope.ofCode_code, sOf7_s7, sLit_sWord,
    vLit_vWord, hs, List.append_assoc, List.cons_append, List.nil_append, List.append_nil, fld_packSR_within_d,
    fld_packSR_within_a, fld_packSR_within_b, fld_packSR_within_fn, extract_append_high, extract_append_low,
    extract_all, fld_packSR_zeros]

theorem cclean (a : SReg) (b : SOp) (scope : Scope) : Statement (.cclean a b scope) := by
  intro w ls rest hi he
  have hb : sbOk b = true := by
    have h2 : firstFailing _ = none := hi
    rw [firstFailing_eq_none] at h2; simp at h2; tauto
  obtain ⟨rfl, rfl⟩ := List.cons.inj he
  rw [decodeFields_0x33 _ _ (by simp only [fld_packSR_maj, fld_packSR_d, fld_packSR_a, fld_packSR_b, fld_packSR_fn] <;> rfl)]
  unfold decScalarMem
  simp (disch := decide) only [fld_packSR_maj, fld_packSR_d, fld_packSR_a, fld_packSR_b, fld_packSR_fn, sB_sbField _ _ hb, Scope.ofCode_code,
    sOf7_s7, sLit_sWord, vLit_vWord, List.append_assoc, List.cons_append, List.nil_append, List.append_nil,
    fld_packSR_within_d, fld_packSR_within_a, fld_packSR_within_b, fld_packSR_within_fn, extract_append_high,
    extract_append_low, extract_all, Nat.reduceSub]
  first
  | rfl
  | simp (disch := decide) [need, coded, takeLit, Bind.bind, Except.bind, Pure.pure, Except.pure, fld_packSR_maj, fld_packSR_d,
    fld_packSR_a, fld_packSR_b, fld_packSR_fn, sB_sbField _ _ hb, Scope.ofCode_code, sOf7_s7, sLit_sWord,
    vLit_vWord, List.append_assoc, List.cons_append, List.nil_append, List.append_nil, fld_packSR_within_d,
    fld_packSR_within_a, fld_packSR_within_b, fld_packSR_within_fn, extract_append_high, extract_append_low,
    extract_all, fld_packSR_zeros]

theorem cinval (a : SReg) (b : SOp) (scope : Scope) : Statement (.cinval a b scope) := by
  intro w ls rest hi he
  have hb : sbOk b = true := by
    have h2 : firstFailing _ = none := hi
    rw [firstFailing_eq_none] at h2; simp at h2; tauto
  obtain ⟨rfl, rfl⟩ := List.cons.inj he
  rw [decodeFields_0x33 _ _ (by simp only [fld_packSR_maj, fld_packSR_d, fld_packSR_a, fld_packSR_b, fld_packSR_fn] <;> rfl)]
  unfold decScalarMem
  simp (disch := decide) only [fld_packSR_maj, fld_packSR_d, fld_packSR_a, fld_packSR_b, fld_packSR_fn, sB_sbField _ _ hb, Scope.ofCode_code,
    sOf7_s7, sLit_sWord, vLit_vWord, List.append_assoc, List.cons_append, List.nil_append, List.append_nil,
    fld_packSR_within_d, fld_packSR_within_a, fld_packSR_within_b, fld_packSR_within_fn, extract_append_high,
    extract_append_low, extract_all, Nat.reduceSub]
  first
  | rfl
  | simp (disch := decide) [need, coded, takeLit, Bind.bind, Except.bind, Pure.pure, Except.pure, fld_packSR_maj, fld_packSR_d,
    fld_packSR_a, fld_packSR_b, fld_packSR_fn, sB_sbField _ _ hb, Scope.ofCode_code, sOf7_s7, sLit_sWord,
    vLit_vWord, List.append_assoc, List.cons_append, List.nil_append, List.append_nil, fld_packSR_within_d,
    fld_packSR_within_a, fld_packSR_within_b, fld_packSR_within_fn, extract_append_high, extract_append_low,
    extract_all, fld_packSR_zeros]

theorem cpy (d : SReg) (ch : BitVec 3) (hd : BitVec 4) (hs : BitVec 4) (scope : Scope) : Statement (.cpy d ch hd hs scope) := by
  intro w ls rest hi he
  obtain ⟨rfl, rfl⟩ := List.cons.inj he
  rw [decodeFields_0x34 _ _ (by simp only [fld_packCP_maj, fld_packCP_op, fld_packCP_ch, fld_packCP_d, fld_packCP_hd, fld_packCP_hs, fld_packCP_scp,
      fld_packCP_xt] <;> rfl)]
  unfold decCopy
  simp (disch := decide) only [fld_packCP_maj, fld_packCP_op, fld_packCP_ch, fld_packCP_d, fld_packCP_hd, fld_packCP_hs, fld_packCP_scp,
    fld_packCP_xt, Scope.ofCode_code, sOf7_s7, sLit_sWord, vLit_vWord, List.append_assoc, List.cons_append,
    List.nil_append, List.append_nil, fld_packCP_within_op, fld_packCP_within_ch, fld_packCP_within_d,
    fld_packCP_within_hd, fld_packCP_within_hs, fld_packCP_within_scp, fld_packCP_within_xt, extract_append_high,
    extract_append_low, extract_all, Nat.reduceSub]
  first
  | rfl
  | simp (disch := decide) [need, coded, takeLit, Bind.bind, Except.bind, Pure.pure, Except.pure, fld_packCP_maj, fld_packCP_op,
    fld_packCP_ch, fld_packCP_d, fld_packCP_hd, fld_packCP_hs, fld_packCP_scp, fld_packCP_xt, Scope.ofCode_code,
    sOf7_s7, sLit_sWord, vLit_vWord, List.append_assoc, List.cons_append, List.nil_append, List.append_nil,
    fld_packCP_within_op, fld_packCP_within_ch, fld_packCP_within_d, fld_packCP_within_hd, fld_packCP_within_hs,
    fld_packCP_within_scp, fld_packCP_within_xt, extract_append_high, extract_append_low, extract_all,
    fld_packCP_zeros11, fld_packCP_zeros20]

theorem cpwpRead (d : SReg) (ch : BitVec 3) : Statement (.cpwpRead d ch) := by
  intro w ls rest hi he
  obtain ⟨rfl, rfl⟩ := List.cons.inj he
  rw [decodeFields_0x34 _ _ (by simp only [fld_packCP_maj, fld_packCP_op, fld_packCP_ch, fld_packCP_d, fld_packCP_hd, fld_packCP_hs, fld_packCP_scp,
      fld_packCP_xt] <;> rfl)]
  unfold decCopy
  simp (disch := decide) only [fld_packCP_maj, fld_packCP_op, fld_packCP_ch, fld_packCP_d, fld_packCP_hd, fld_packCP_hs, fld_packCP_scp,
    fld_packCP_xt, sOf7_s7, sLit_sWord, vLit_vWord, List.append_assoc, List.cons_append, List.nil_append,
    List.append_nil, fld_packCP_within_op, fld_packCP_within_ch, fld_packCP_within_d, fld_packCP_within_hd,
    fld_packCP_within_hs, fld_packCP_within_scp, fld_packCP_within_xt, extract_append_high, extract_append_low,
    extract_all, Nat.reduceSub]
  first
  | rfl
  | simp (disch := decide) [need, coded, takeLit, Bind.bind, Except.bind, Pure.pure, Except.pure, fld_packCP_maj, fld_packCP_op,
    fld_packCP_ch, fld_packCP_d, fld_packCP_hd, fld_packCP_hs, fld_packCP_scp, fld_packCP_xt, sOf7_s7, sLit_sWord,
    vLit_vWord, List.append_assoc, List.cons_append, List.nil_append, List.append_nil, fld_packCP_within_op,
    fld_packCP_within_ch, fld_packCP_within_d, fld_packCP_within_hd, fld_packCP_within_hs, fld_packCP_within_scp,
    fld_packCP_within_xt, extract_append_high, extract_append_low, extract_all, fld_packCP_zeros11,
    fld_packCP_zeros20]

theorem cpwpRecv (d : SReg) (m : BitVec 2) : Statement (.cpwpRecv d m) := by
  intro w ls rest hi he
  obtain ⟨rfl, rfl⟩ := List.cons.inj he
  rw [decodeFields_0x34 _ _ (by simp only [fld_packCP_maj, fld_packCP_op, fld_packCP_ch, fld_packCP_d, fld_packCP_hd, fld_packCP_hs, fld_packCP_scp,
      fld_packCP_xt] <;> rfl)]
  unfold decCopy
  simp (disch := decide) only [fld_packCP_maj, fld_packCP_op, fld_packCP_ch, fld_packCP_d, fld_packCP_hd, fld_packCP_hs, fld_packCP_scp,
    fld_packCP_xt, sOf7_s7, sLit_sWord, vLit_vWord, List.append_assoc, List.cons_append, List.nil_append,
    List.append_nil, fld_packCP_within_op, fld_packCP_within_ch, fld_packCP_within_d, fld_packCP_within_hd,
    fld_packCP_within_hs, fld_packCP_within_scp, fld_packCP_within_xt, extract_append_high, extract_append_low,
    extract_all, Nat.reduceSub]
  first
  | rfl
  | simp (disch := decide) [need, coded, takeLit, Bind.bind, Except.bind, Pure.pure, Except.pure, fld_packCP_maj, fld_packCP_op,
    fld_packCP_ch, fld_packCP_d, fld_packCP_hd, fld_packCP_hs, fld_packCP_scp, fld_packCP_xt, sOf7_s7, sLit_sWord,
    vLit_vWord, List.append_assoc, List.cons_append, List.nil_append, List.append_nil, fld_packCP_within_op,
    fld_packCP_within_ch, fld_packCP_within_d, fld_packCP_within_hd, fld_packCP_within_hs, fld_packCP_within_scp,
    fld_packCP_within_xt, extract_append_high, extract_append_low, extract_all, fld_packCP_zeros11,
    fld_packCP_zeros20]

theorem cpcan (ch : BitVec 3) : Statement (.cpcan ch) := by
  intro w ls rest hi he
  obtain ⟨rfl, rfl⟩ := List.cons.inj he
  rw [decodeFields_0x34 _ _ (by simp only [fld_packCP_maj, fld_packCP_op, fld_packCP_ch, fld_packCP_d, fld_packCP_hd, fld_packCP_hs, fld_packCP_scp,
      fld_packCP_xt] <;> rfl)]
  unfold decCopy
  simp (disch := decide) only [fld_packCP_maj, fld_packCP_op, fld_packCP_ch, fld_packCP_d, fld_packCP_hd, fld_packCP_hs, fld_packCP_scp,
    fld_packCP_xt, sOf7_s7, sLit_sWord, vLit_vWord, List.append_assoc, List.cons_append, List.nil_append,
    List.append_nil, fld_packCP_within_op, fld_packCP_within_ch, fld_packCP_within_d, fld_packCP_within_hd,
    fld_packCP_within_hs, fld_packCP_within_scp, fld_packCP_within_xt, extract_append_high, extract_append_low,
    extract_all, Nat.reduceSub]
  first
  | rfl
  | simp (disch := decide) [need, coded, takeLit, Bind.bind, Except.bind, Pure.pure, Except.pure, fld_packCP_maj, fld_packCP_op,
    fld_packCP_ch, fld_packCP_d, fld_packCP_hd, fld_packCP_hs, fld_packCP_scp, fld_packCP_xt, sOf7_s7, sLit_sWord,
    vLit_vWord, List.append_assoc, List.cons_append, List.nil_append, List.append_nil, fld_packCP_within_op,
    fld_packCP_within_ch, fld_packCP_within_d, fld_packCP_within_hd, fld_packCP_within_hs, fld_packCP_within_scp,
    fld_packCP_within_xt, extract_append_high, extract_append_low, extract_all, fld_packCP_zeros11,
    fld_packCP_zeros20]

theorem qbind (q : BitVec 2) (h : BitVec 4) (scope : Scope) : Statement (.qbind q h scope) := by
  intro w ls rest hi he
  change (if q.toNat < 2 then _ else _) = _ at he
  have hq : (q.extractLsb' 1 1 = 0#1) = (q.toNat < 2) := by
    have : ∀ q : BitVec 2, (q.extractLsb' 1 1 = 0#1) ↔ (q.toNat < 2) := by decide
    exact propext (this q)
  split at he
  all_goals
    rename_i hlt
    simp only [hlt, iff_true, iff_false, eq_iff_iff] at hq
    obtain ⟨rfl, rfl⟩ := List.cons.inj he
    rw [decodeFields_0x34 _ _ (by simp only [fld_packCP_maj, fld_packCP_op, fld_packCP_ch, fld_packCP_d, fld_packCP_hd, fld_packCP_hs, fld_packCP_scp,
      fld_packCP_xt] <;> rfl)]
    unfold decCopy
    simp (disch := decide) only [fld_packCP_maj, fld_packCP_op, fld_packCP_ch, fld_packCP_d, fld_packCP_hd, fld_packCP_hs, fld_packCP_scp,
      fld_packCP_xt, Scope.ofCode_code, sOf7_s7, sLit_sWord, vLit_vWord, hq, List.append_assoc, List.cons_append,
      List.nil_append, List.append_nil, fld_packCP_within_op, fld_packCP_within_ch, fld_packCP_within_d,
      fld_packCP_within_hd, fld_packCP_within_hs, fld_packCP_within_scp, fld_packCP_within_xt, extract_append_high,
      extract_append_low, extract_all, Nat.reduceSub]
    first
    | rfl
    | simp (disch := decide) [need, coded, takeLit, Bind.bind, Except.bind, Pure.pure, Except.pure, fld_packCP_maj, fld_packCP_op,
      fld_packCP_ch, fld_packCP_d, fld_packCP_hd, fld_packCP_hs, fld_packCP_scp, fld_packCP_xt, Scope.ofCode_code,
      sOf7_s7, sLit_sWord, vLit_vWord, hq, List.append_assoc, List.cons_append, List.nil_append, List.append_nil,
      fld_packCP_within_op, fld_packCP_within_ch, fld_packCP_within_d, fld_packCP_within_hd, fld_packCP_within_hs,
      fld_packCP_within_scp, fld_packCP_within_xt, extract_append_high, extract_append_low, extract_all,
      fld_packCP_zeros11, fld_packCP_zeros20]

theorem qclose (q : BitVec 2) : Statement (.qclose q) := by
  intro w ls rest hi he
  obtain ⟨rfl, rfl⟩ := List.cons.inj he
  rw [decodeFields_0x34 _ _ (by simp only [fld_packCP_maj, fld_packCP_op, fld_packCP_ch, fld_packCP_d, fld_packCP_hd, fld_packCP_hs, fld_packCP_scp,
      fld_packCP_xt] <;> rfl)]
  unfold decCopy
  simp (disch := decide) only [fld_packCP_maj, fld_packCP_op, fld_packCP_ch, fld_packCP_d, fld_packCP_hd, fld_packCP_hs, fld_packCP_scp,
    fld_packCP_xt, sOf7_s7, sLit_sWord, vLit_vWord, List.append_assoc, List.cons_append, List.nil_append,
    List.append_nil, fld_packCP_within_op, fld_packCP_within_ch, fld_packCP_within_d, fld_packCP_within_hd,
    fld_packCP_within_hs, fld_packCP_within_scp, fld_packCP_within_xt, extract_append_high, extract_append_low,
    extract_all, Nat.reduceSub]
  first
  | rfl
  | simp (disch := decide) [need, coded, takeLit, Bind.bind, Except.bind, Pure.pure, Except.pure, fld_packCP_maj, fld_packCP_op,
    fld_packCP_ch, fld_packCP_d, fld_packCP_hd, fld_packCP_hs, fld_packCP_scp, fld_packCP_xt, sOf7_s7, sLit_sWord,
    vLit_vWord, List.append_assoc, List.cons_append, List.nil_append, List.append_nil, fld_packCP_within_op,
    fld_packCP_within_ch, fld_packCP_within_d, fld_packCP_within_hd, fld_packCP_within_hs, fld_packCP_within_scp,
    fld_packCP_within_xt, extract_append_high, extract_append_low, extract_all, fld_packCP_zeros11,
    fld_packCP_zeros20]

theorem cvopen (d : SReg) (a : SReg) (view : Bool) : Statement (.cvopen d a view) := by
  intro w ls rest hi he
  obtain ⟨rfl, rfl⟩ := List.cons.inj he
  rw [decodeFields_0x36 _ _ (by simp only [fld_packSR_maj, fld_packSR_d, fld_packSR_a, fld_packSR_b, fld_packSR_fn] <;> rfl)]
  unfold decConvoy
  simp (disch := decide) only [fld_packSR_maj, fld_packSR_d, fld_packSR_a, fld_packSR_b, fld_packSR_fn, bitBool_boolBit, sOf7_s7, sLit_sWord,
    vLit_vWord, List.append_assoc, List.cons_append, List.nil_append, List.append_nil, fld_packSR_within_d,
    fld_packSR_within_a, fld_packSR_within_b, fld_packSR_within_fn, extract_append_high, extract_append_low,
    extract_all, Nat.reduceSub]
  first
  | rfl
  | simp (disch := decide) [need, coded, takeLit, Bind.bind, Except.bind, Pure.pure, Except.pure, fld_packSR_maj, fld_packSR_d,
    fld_packSR_a, fld_packSR_b, fld_packSR_fn, bitBool_boolBit, sOf7_s7, sLit_sWord, vLit_vWord, List.append_assoc,
    List.cons_append, List.nil_append, List.append_nil, fld_packSR_within_d, fld_packSR_within_a,
    fld_packSR_within_b, fld_packSR_within_fn, extract_append_high, extract_append_low, extract_all,
    fld_packSR_zeros]

theorem cvclose (d : SReg) (t : SReg) : Statement (.cvclose d t) := by
  intro w ls rest hi he
  obtain ⟨rfl, rfl⟩ := List.cons.inj he
  rw [decodeFields_0x36 _ _ (by simp only [fld_packSR_maj, fld_packSR_d, fld_packSR_a, fld_packSR_b, fld_packSR_fn] <;> rfl)]
  unfold decConvoy
  simp (disch := decide) only [fld_packSR_maj, fld_packSR_d, fld_packSR_a, fld_packSR_b, fld_packSR_fn, sOf7_s7, sLit_sWord, vLit_vWord,
    List.append_assoc, List.cons_append, List.nil_append, List.append_nil, fld_packSR_within_d,
    fld_packSR_within_a, fld_packSR_within_b, fld_packSR_within_fn, extract_append_high, extract_append_low,
    extract_all, Nat.reduceSub]
  first
  | rfl
  | simp (disch := decide) [need, coded, takeLit, Bind.bind, Except.bind, Pure.pure, Except.pure, fld_packSR_maj, fld_packSR_d,
    fld_packSR_a, fld_packSR_b, fld_packSR_fn, sOf7_s7, sLit_sWord, vLit_vWord, List.append_assoc,
    List.cons_append, List.nil_append, List.append_nil, fld_packSR_within_d, fld_packSR_within_a,
    fld_packSR_within_b, fld_packSR_within_fn, extract_append_high, extract_append_low, extract_all,
    fld_packSR_zeros]

theorem cvstat (d : SReg) (t : SReg) : Statement (.cvstat d t) := by
  intro w ls rest hi he
  obtain ⟨rfl, rfl⟩ := List.cons.inj he
  rw [decodeFields_0x36 _ _ (by simp only [fld_packSR_maj, fld_packSR_d, fld_packSR_a, fld_packSR_b, fld_packSR_fn] <;> rfl)]
  unfold decConvoy
  simp (disch := decide) only [fld_packSR_maj, fld_packSR_d, fld_packSR_a, fld_packSR_b, fld_packSR_fn, sOf7_s7, sLit_sWord, vLit_vWord,
    List.append_assoc, List.cons_append, List.nil_append, List.append_nil, fld_packSR_within_d,
    fld_packSR_within_a, fld_packSR_within_b, fld_packSR_within_fn, extract_append_high, extract_append_low,
    extract_all, Nat.reduceSub]
  first
  | rfl
  | simp (disch := decide) [need, coded, takeLit, Bind.bind, Except.bind, Pure.pure, Except.pure, fld_packSR_maj, fld_packSR_d,
    fld_packSR_a, fld_packSR_b, fld_packSR_fn, sOf7_s7, sLit_sWord, vLit_vWord, List.append_assoc,
    List.cons_append, List.nil_append, List.append_nil, fld_packSR_within_d, fld_packSR_within_a,
    fld_packSR_within_b, fld_packSR_within_fn, extract_append_high, extract_append_low, extract_all,
    fld_packSR_zeros]

theorem ssint (d : SReg) (a : SReg) (b : SReg) (f : IntForm) : Statement (.ssint d a b f) := by
  intro w ls rest hi he
  obtain ⟨rfl, rfl⟩ := List.cons.inj he
  rw [decodeFields_0x39 _ _ (by simp only [fld_packSR_maj, fld_packSR_d, fld_packSR_a, fld_packSR_b, fld_packSR_fn] <;> rfl)]
  unfold decStream
  simp (disch := decide) only [fld_packSR_maj, fld_packSR_d, fld_packSR_a, fld_packSR_b, fld_packSR_fn, IntForm.ofCode_code, sOf7_s7,
    sLit_sWord, vLit_vWord, List.append_assoc, List.cons_append, List.nil_append, List.append_nil,
    fld_packSR_within_d, fld_packSR_within_a, fld_packSR_within_b, fld_packSR_within_fn, extract_append_high,
    extract_append_low, extract_all, Nat.reduceSub]
  first
  | rfl
  | simp (disch := decide) [need, coded, takeLit, Bind.bind, Except.bind, Pure.pure, Except.pure, fld_packSR_maj, fld_packSR_d,
    fld_packSR_a, fld_packSR_b, fld_packSR_fn, IntForm.ofCode_code, sOf7_s7, sLit_sWord, vLit_vWord,
    List.append_assoc, List.cons_append, List.nil_append, List.append_nil, fld_packSR_within_d,
    fld_packSR_within_a, fld_packSR_within_b, fld_packSR_within_fn, extract_append_high, extract_append_low,
    extract_all, fld_packSR_zeros]

theorem ssmerge (d : SReg) (a : SReg) (b : SReg) (int : Bool) (keepz : Bool) (c : Comb) : Statement (.ssmerge d a b int keepz c) := by
  intro w ls rest hi he
  obtain ⟨rfl, rfl⟩ := List.cons.inj he
  rw [decodeFields_0x39 _ _ (by simp only [fld_packSR_maj, fld_packSR_d, fld_packSR_a, fld_packSR_b, fld_packSR_fn] <;> rfl)]
  unfold decStream
  simp (disch := decide) only [fld_packSR_maj, fld_packSR_d, fld_packSR_a, fld_packSR_b, fld_packSR_fn, Comb.ofCode_code, bitBool_boolBit,
    sOf7_s7, sLit_sWord, vLit_vWord, List.append_assoc, List.cons_append, List.nil_append, List.append_nil,
    fld_packSR_within_d, fld_packSR_within_a, fld_packSR_within_b, fld_packSR_within_fn, extract_append_high,
    extract_append_low, extract_all, Nat.reduceSub]
  first
  | rfl
  | simp (disch := decide) [need, coded, takeLit, Bind.bind, Except.bind, Pure.pure, Except.pure, fld_packSR_maj, fld_packSR_d,
    fld_packSR_a, fld_packSR_b, fld_packSR_fn, Comb.ofCode_code, bitBool_boolBit, sOf7_s7, sLit_sWord, vLit_vWord,
    List.append_assoc, List.cons_append, List.nil_append, List.append_nil, fld_packSR_within_d,
    fld_packSR_within_a, fld_packSR_within_b, fld_packSR_within_fn, extract_append_high, extract_append_low,
    extract_all, fld_packSR_zeros]

theorem ssscan (d : SReg) (a : SReg) (b : SReg) : Statement (.ssscan d a b) := by
  intro w ls rest hi he
  obtain ⟨rfl, rfl⟩ := List.cons.inj he
  rw [decodeFields_0x39 _ _ (by simp only [fld_packSR_maj, fld_packSR_d, fld_packSR_a, fld_packSR_b, fld_packSR_fn] <;> rfl)]
  unfold decStream
  simp (disch := decide) only [fld_packSR_maj, fld_packSR_d, fld_packSR_a, fld_packSR_b, fld_packSR_fn, sOf7_s7, sLit_sWord, vLit_vWord,
    List.append_assoc, List.cons_append, List.nil_append, List.append_nil, fld_packSR_within_d,
    fld_packSR_within_a, fld_packSR_within_b, fld_packSR_within_fn, extract_append_high, extract_append_low,
    extract_all, Nat.reduceSub]
  first
  | rfl
  | simp (disch := decide) [need, coded, takeLit, Bind.bind, Except.bind, Pure.pure, Except.pure, fld_packSR_maj, fld_packSR_d,
    fld_packSR_a, fld_packSR_b, fld_packSR_fn, sOf7_s7, sLit_sWord, vLit_vWord, List.append_assoc,
    List.cons_append, List.nil_append, List.append_nil, fld_packSR_within_d, fld_packSR_within_a,
    fld_packSR_within_b, fld_packSR_within_fn, extract_append_high, extract_append_low, extract_all,
    fld_packSR_zeros]

theorem spx (d : SReg) (a : SReg) : Statement (.spx d a) := by
  intro w ls rest hi he
  obtain ⟨rfl, rfl⟩ := List.cons.inj he
  rw [decodeFields_0x39 _ _ (by simp only [fld_packSR_maj, fld_packSR_d, fld_packSR_a, fld_packSR_b, fld_packSR_fn] <;> rfl)]
  unfold decStream
  simp (disch := decide) only [fld_packSR_maj, fld_packSR_d, fld_packSR_a, fld_packSR_b, fld_packSR_fn, sOf7_s7, sLit_sWord, vLit_vWord,
    List.append_assoc, List.cons_append, List.nil_append, List.append_nil, fld_packSR_within_d,
    fld_packSR_within_a, fld_packSR_within_b, fld_packSR_within_fn, extract_append_high, extract_append_low,
    extract_all, Nat.reduceSub]
  first
  | rfl
  | simp (disch := decide) [need, coded, takeLit, Bind.bind, Except.bind, Pure.pure, Except.pure, fld_packSR_maj, fld_packSR_d,
    fld_packSR_a, fld_packSR_b, fld_packSR_fn, sOf7_s7, sLit_sWord, vLit_vWord, List.append_assoc,
    List.cons_append, List.nil_append, List.append_nil, fld_packSR_within_d, fld_packSR_within_a,
    fld_packSR_within_b, fld_packSR_within_fn, extract_append_high, extract_append_low, extract_all,
    fld_packSR_zeros]

theorem nbbin (d : SReg) (a : SReg) : Statement (.nbbin d a) := by
  intro w ls rest hi he
  obtain ⟨rfl, rfl⟩ := List.cons.inj he
  rw [decodeFields_0x3A _ _ (by simp only [fld_packSR_maj, fld_packSR_d, fld_packSR_a, fld_packSR_b, fld_packSR_fn] <;> rfl)]
  unfold decNeighbour
  simp (disch := decide) only [fld_packSR_maj, fld_packSR_d, fld_packSR_a, fld_packSR_b, fld_packSR_fn, sOf7_s7, sLit_sWord, vLit_vWord,
    List.append_assoc, List.cons_append, List.nil_append, List.append_nil, fld_packSR_within_d,
    fld_packSR_within_a, fld_packSR_within_b, fld_packSR_within_fn, extract_append_high, extract_append_low,
    extract_all, Nat.reduceSub]
  first
  | rfl
  | simp (disch := decide) [need, coded, takeLit, Bind.bind, Except.bind, Pure.pure, Except.pure, fld_packSR_maj, fld_packSR_d,
    fld_packSR_a, fld_packSR_b, fld_packSR_fn, sOf7_s7, sLit_sWord, vLit_vWord, List.append_assoc,
    List.cons_append, List.nil_append, List.append_nil, fld_packSR_within_d, fld_packSR_within_a,
    fld_packSR_within_b, fld_packSR_within_fn, extract_append_high, extract_append_low, extract_all,
    fld_packSR_zeros]

theorem nbpairs (d : SReg) (a : SReg) (port : Bool) : Statement (.nbpairs d a port) := by
  intro w ls rest hi he
  obtain ⟨rfl, rfl⟩ := List.cons.inj he
  rw [decodeFields_0x3A _ _ (by simp only [fld_packSR_maj, fld_packSR_d, fld_packSR_a, fld_packSR_b, fld_packSR_fn] <;> rfl)]
  unfold decNeighbour
  simp (disch := decide) only [fld_packSR_maj, fld_packSR_d, fld_packSR_a, fld_packSR_b, fld_packSR_fn, bitBool_boolBit, sOf7_s7, sLit_sWord,
    vLit_vWord, List.append_assoc, List.cons_append, List.nil_append, List.append_nil, fld_packSR_within_d,
    fld_packSR_within_a, fld_packSR_within_b, fld_packSR_within_fn, extract_append_high, extract_append_low,
    extract_all, Nat.reduceSub]
  first
  | rfl
  | simp (disch := decide) [need, coded, takeLit, Bind.bind, Except.bind, Pure.pure, Except.pure, fld_packSR_maj, fld_packSR_d,
    fld_packSR_a, fld_packSR_b, fld_packSR_fn, bitBool_boolBit, sOf7_s7, sLit_sWord, vLit_vWord, List.append_assoc,
    List.cons_append, List.nil_append, List.append_nil, fld_packSR_within_d, fld_packSR_within_a,
    fld_packSR_within_b, fld_packSR_within_fn, extract_append_high, extract_append_low, extract_all,
    fld_packSR_zeros]

theorem nbstat (d : SReg) : Statement (.nbstat d) := by
  intro w ls rest hi he
  obtain ⟨rfl, rfl⟩ := List.cons.inj he
  rw [decodeFields_0x3A _ _ (by simp only [fld_packSR_maj, fld_packSR_d, fld_packSR_a, fld_packSR_b, fld_packSR_fn] <;> rfl)]
  unfold decNeighbour
  simp (disch := decide) only [fld_packSR_maj, fld_packSR_d, fld_packSR_a, fld_packSR_b, fld_packSR_fn, sOf7_s7, sLit_sWord, vLit_vWord,
    List.append_assoc, List.cons_append, List.nil_append, List.append_nil, fld_packSR_within_d,
    fld_packSR_within_a, fld_packSR_within_b, fld_packSR_within_fn, extract_append_high, extract_append_low,
    extract_all, Nat.reduceSub]
  first
  | rfl
  | simp (disch := decide) [need, coded, takeLit, Bind.bind, Except.bind, Pure.pure, Except.pure, fld_packSR_maj, fld_packSR_d,
    fld_packSR_a, fld_packSR_b, fld_packSR_fn, sOf7_s7, sLit_sWord, vLit_vWord, List.append_assoc,
    List.cons_append, List.nil_append, List.append_nil, fld_packSR_within_d, fld_packSR_within_a,
    fld_packSR_within_b, fld_packSR_within_fn, extract_append_high, extract_append_low, extract_all,
    fld_packSR_zeros]

theorem emit (v : VReg) (e : BitVec 6) (j : SReg) (ns : Bool) : Statement (.emit v e j ns) := by
  intro w ls rest hi he
  obtain ⟨rfl, rfl⟩ := List.cons.inj he
  rw [decodeFields_0x3C _ _ (by simp only [fld_packGR_maj, fld_packGR_d, fld_packGR_a, fld_packGR_b, fld_packGR_fn] <;> rfl)]
  unfold decGraph
  simp (disch := decide) only [fld_packGR_maj, fld_packGR_d, fld_packGR_a, fld_packGR_b, fld_packGR_fn, bitBool_boolBit, sOf7_s7, sLit_sWord,
    vLit_vWord, List.append_assoc, List.cons_append, List.nil_append, List.append_nil, fld_packGR_within_d,
    fld_packGR_within_a, fld_packGR_within_b, fld_packGR_within_fn, extract_append_high, extract_append_low,
    extract_all, Nat.reduceSub]
  first
  | rfl
  | simp (disch := decide) [need, coded, takeLit, Bind.bind, Except.bind, Pure.pure, Except.pure, fld_packGR_maj, fld_packGR_d,
    fld_packGR_a, fld_packGR_b, fld_packGR_fn, bitBool_boolBit, sOf7_s7, sLit_sWord, vLit_vWord, List.append_assoc,
    List.cons_append, List.nil_append, List.append_nil, fld_packGR_within_d, fld_packGR_within_a,
    fld_packGR_within_b, fld_packGR_within_fn, extract_append_high, extract_append_low, extract_all]

theorem emitr (v : VReg) (e : BitVec 6) (r : BOp) (ns : Bool) : Statement (.emitr v e r ns) := by
  intro w ls rest hi he
  have hb : vbOk r = true := by
    have h2 : firstFailing _ = none := hi
    rw [firstFailing_eq_none] at h2; simp at h2; tauto
  obtain ⟨rfl, rfl⟩ := List.cons.inj he
  rw [decodeFields_0x3C _ _ (by simp only [fld_packGR_maj, fld_packGR_d, fld_packGR_a, fld_packGR_b, fld_packGR_fn] <;> rfl)]
  unfold decGraph
  simp (disch := decide) only [fld_packGR_maj, fld_packGR_d, fld_packGR_a, fld_packGR_b, fld_packGR_fn, vB_bField _ _ hb, bitBool_boolBit,
    sOf7_s7, sLit_sWord, vLit_vWord, List.append_assoc, List.cons_append, List.nil_append, List.append_nil,
    fld_packGR_within_d, fld_packGR_within_a, fld_packGR_within_b, fld_packGR_within_fn, extract_append_high,
    extract_append_low, extract_all, Nat.reduceSub]
  first
  | rfl
  | simp (disch := decide) [need, coded, takeLit, Bind.bind, Except.bind, Pure.pure, Except.pure, fld_packGR_maj, fld_packGR_d,
    fld_packGR_a, fld_packGR_b, fld_packGR_fn, vB_bField _ _ hb, bitBool_boolBit, sOf7_s7, sLit_sWord, vLit_vWord,
    List.append_assoc, List.cons_append, List.nil_append, List.append_nil, fld_packGR_within_d,
    fld_packGR_within_a, fld_packGR_within_b, fld_packGR_within_fn, extract_append_high, extract_append_low,
    extract_all]

theorem rget (d : VReg) (w0 : BitVec 4) (i0 : BOp) : Statement (.rget d w0 i0) := by
  intro w ls rest hi he
  have hb : vbOk i0 = true := by
    have h2 : firstFailing _ = none := hi
    rw [firstFailing_eq_none] at h2; simp at h2; tauto
  obtain ⟨rfl, rfl⟩ := List.cons.inj he
  rw [decodeFields_0x3C _ _ (by simp only [fld_packGR_maj, fld_packGR_d, fld_packGR_a, fld_packGR_b, fld_packGR_fn] <;> rfl)]
  unfold decGraph
  simp (disch := decide) only [fld_packGR_maj, fld_packGR_d, fld_packGR_a, fld_packGR_b, fld_packGR_fn, vB_bField _ _ hb, sOf7_s7, sLit_sWord,
    vLit_vWord, List.append_assoc, List.cons_append, List.nil_append, List.append_nil, fld_packGR_within_d,
    fld_packGR_within_a, fld_packGR_within_b, fld_packGR_within_fn, extract_append_high, extract_append_low,
    extract_all, Nat.reduceSub]
  first
  | rfl
  | simp (disch := decide) [need, coded, takeLit, Bind.bind, Except.bind, Pure.pure, Except.pure, fld_packGR_maj, fld_packGR_d,
    fld_packGR_a, fld_packGR_b, fld_packGR_fn, vB_bField _ _ hb, sOf7_s7, sLit_sWord, vLit_vWord,
    List.append_assoc, List.cons_append, List.nil_append, List.append_nil, fld_packGR_within_d,
    fld_packGR_within_a, fld_packGR_within_b, fld_packGR_within_fn, extract_append_high, extract_append_low,
    extract_all]

theorem rdone (d : SReg) : Statement (.rdone d) := by
  intro w ls rest hi he
  obtain ⟨rfl, rfl⟩ := List.cons.inj he
  rw [decodeFields_0x3C _ _ (by simp only [fld_packGR_maj, fld_packGR_d, fld_packGR_a, fld_packGR_b, fld_packGR_fn] <;> rfl)]
  unfold decGraph
  simp (disch := decide) only [fld_packGR_maj, fld_packGR_d, fld_packGR_a, fld_packGR_b, fld_packGR_fn, sOf7_s7, sLit_sWord, vLit_vWord,
    List.append_assoc, List.cons_append, List.nil_append, List.append_nil, fld_packGR_within_d,
    fld_packGR_within_a, fld_packGR_within_b, fld_packGR_within_fn, extract_append_high, extract_append_low,
    extract_all, Nat.reduceSub]
  first
  | rfl
  | simp (disch := decide) [need, coded, takeLit, Bind.bind, Except.bind, Pure.pure, Except.pure, fld_packGR_maj, fld_packGR_d,
    fld_packGR_a, fld_packGR_b, fld_packGR_fn, sOf7_s7, sLit_sWord, vLit_vWord, List.append_assoc,
    List.cons_append, List.nil_append, List.append_nil, fld_packGR_within_d, fld_packGR_within_a,
    fld_packGR_within_b, fld_packGR_within_fn, extract_append_high, extract_append_low, extract_all]

theorem futnew (d : SReg) (c : SReg) : Statement (.futnew d c) := by
  intro w ls rest hi he
  obtain ⟨rfl, rfl⟩ := List.cons.inj he
  rw [decodeFields_0x3C _ _ (by simp only [fld_packGR_maj, fld_packGR_d, fld_packGR_a, fld_packGR_b, fld_packGR_fn] <;> rfl)]
  unfold decGraph
  simp (disch := decide) only [fld_packGR_maj, fld_packGR_d, fld_packGR_a, fld_packGR_b, fld_packGR_fn, sOf7_s7, sLit_sWord, vLit_vWord,
    List.append_assoc, List.cons_append, List.nil_append, List.append_nil, fld_packGR_within_d,
    fld_packGR_within_a, fld_packGR_within_b, fld_packGR_within_fn, extract_append_high, extract_append_low,
    extract_all, Nat.reduceSub]
  first
  | rfl
  | simp (disch := decide) [need, coded, takeLit, Bind.bind, Except.bind, Pure.pure, Except.pure, fld_packGR_maj, fld_packGR_d,
    fld_packGR_a, fld_packGR_b, fld_packGR_fn, sOf7_s7, sLit_sWord, vLit_vWord, List.append_assoc,
    List.cons_append, List.nil_append, List.append_nil, fld_packGR_within_d, fld_packGR_within_a,
    fld_packGR_within_b, fld_packGR_within_fn, extract_append_high, extract_append_low, extract_all]

theorem futreg (j : SReg) (e : BitVec 6) (v : VReg) : Statement (.futreg j e v) := by
  intro w ls rest hi he
  obtain ⟨rfl, rfl⟩ := List.cons.inj he
  rw [decodeFields_0x3C _ _ (by simp only [fld_packGR_maj, fld_packGR_d, fld_packGR_a, fld_packGR_b, fld_packGR_fn] <;> rfl)]
  unfold decGraph
  simp (disch := decide) only [fld_packGR_maj, fld_packGR_d, fld_packGR_a, fld_packGR_b, fld_packGR_fn, sOf7_s7, sLit_sWord, vLit_vWord,
    List.append_assoc, List.cons_append, List.nil_append, List.append_nil, fld_packGR_within_d,
    fld_packGR_within_a, fld_packGR_within_b, fld_packGR_within_fn, extract_append_high, extract_append_low,
    extract_all, Nat.reduceSub]
  first
  | rfl
  | simp (disch := decide) [need, coded, takeLit, Bind.bind, Except.bind, Pure.pure, Except.pure, fld_packGR_maj, fld_packGR_d,
    fld_packGR_a, fld_packGR_b, fld_packGR_fn, sOf7_s7, sLit_sWord, vLit_vWord, List.append_assoc,
    List.cons_append, List.nil_append, List.append_nil, fld_packGR_within_d, fld_packGR_within_a,
    fld_packGR_within_b, fld_packGR_within_fn, extract_append_high, extract_append_low, extract_all]

theorem futres (j : SReg) (n : SReg) (f : FutForm) : Statement (.futres j n f) := by
  intro w ls rest hi he
  cases f
  all_goals
    obtain ⟨rfl, rfl⟩ := List.cons.inj he
    rw [decodeFields_0x3C _ _ (by simp only [fld_packGR_maj, fld_packGR_d, fld_packGR_a, fld_packGR_b, fld_packGR_fn] <;> rfl)]
    unfold decGraph
    simp (disch := decide) only [fld_packGR_maj, fld_packGR_d, fld_packGR_a, fld_packGR_b, fld_packGR_fn, sOf7_s7, sLit_sWord, vLit_vWord,
      List.append_assoc, List.cons_append, List.nil_append, List.append_nil, fld_packGR_within_d,
      fld_packGR_within_a, fld_packGR_within_b, fld_packGR_within_fn, extract_append_high, extract_append_low,
      extract_all, Nat.reduceSub]
    first
    | rfl
    | simp (disch := decide) [need, coded, takeLit, Bind.bind, Except.bind, Pure.pure, Except.pure, fld_packGR_maj, fld_packGR_d,
      fld_packGR_a, fld_packGR_b, fld_packGR_fn, sOf7_s7, sLit_sWord, vLit_vWord, List.append_assoc,
      List.cons_append, List.nil_append, List.append_nil, fld_packGR_within_d, fld_packGR_within_a,
      fld_packGR_within_b, fld_packGR_within_fn, extract_append_high, extract_append_low, extract_all]

theorem futst (d : SReg) (j : SReg) : Statement (.futst d j) := by
  intro w ls rest hi he
  obtain ⟨rfl, rfl⟩ := List.cons.inj he
  rw [decodeFields_0x3C _ _ (by simp only [fld_packGR_maj, fld_packGR_d, fld_packGR_a, fld_packGR_b, fld_packGR_fn] <;> rfl)]
  unfold decGraph
  simp (disch := decide) only [fld_packGR_maj, fld_packGR_d, fld_packGR_a, fld_packGR_b, fld_packGR_fn, sOf7_s7, sLit_sWord, vLit_vWord,
    List.append_assoc, List.cons_append, List.nil_append, List.append_nil, fld_packGR_within_d,
    fld_packGR_within_a, fld_packGR_within_b, fld_packGR_within_fn, extract_append_high, extract_append_low,
    extract_all, Nat.reduceSub]
  first
  | rfl
  | simp (disch := decide) [need, coded, takeLit, Bind.bind, Except.bind, Pure.pure, Except.pure, fld_packGR_maj, fld_packGR_d,
    fld_packGR_a, fld_packGR_b, fld_packGR_fn, sOf7_s7, sLit_sWord, vLit_vWord, List.append_assoc,
    List.cons_append, List.nil_append, List.append_nil, fld_packGR_within_d, fld_packGR_within_a,
    fld_packGR_within_b, fld_packGR_within_fn, extract_append_high, extract_append_low, extract_all]

theorem dget (src : DgetSrc) (h : BitVec 4) : Statement (.dget src h) := by
  intro w ls rest hi he
  cases src
  all_goals
    obtain ⟨rfl, rfl⟩ := List.cons.inj he
    rw [decodeFields_0x3C _ _ (by simp only [fld_packGR_maj, fld_packGR_d, fld_packGR_a, fld_packGR_b, fld_packGR_fn] <;> rfl)]
    unfold decGraph
    simp (disch := decide) only [fld_packGR_maj, fld_packGR_d, fld_packGR_a, fld_packGR_b, fld_packGR_fn, sOf7_s7, sLit_sWord, vLit_vWord,
      List.append_assoc, List.cons_append, List.nil_append, List.append_nil, fld_packGR_within_d,
      fld_packGR_within_a, fld_packGR_within_b, fld_packGR_within_fn, extract_append_high, extract_append_low,
      extract_all, Nat.reduceSub]
    first
    | rfl
    | simp (disch := decide) [need, coded, takeLit, Bind.bind, Except.bind, Pure.pure, Except.pure, fld_packGR_maj, fld_packGR_d,
      fld_packGR_a, fld_packGR_b, fld_packGR_fn, sOf7_s7, sLit_sWord, vLit_vWord, List.append_assoc,
      List.cons_append, List.nil_append, List.append_nil, fld_packGR_within_d, fld_packGR_within_a,
      fld_packGR_within_b, fld_packGR_within_fn, extract_append_high, extract_append_low, extract_all]

theorem barArrive (s0 : BarScope) (b : BitVec 4) : Statement (.barArrive s0 b) := by
  intro w ls rest hi he
  obtain ⟨rfl, rfl⟩ := List.cons.inj he
  rw [decodeFields_0x3D _ _ (by simp only [fld_packSR_maj, fld_packSR_d, fld_packSR_a, fld_packSR_b, fld_packSR_fn] <;> rfl)]
  unfold decBarrier
  simp (disch := decide) only [fld_packSR_maj, fld_packSR_d, fld_packSR_a, fld_packSR_b, fld_packSR_fn, BarScope.ofCode_code, sOf7_s7,
    sLit_sWord, vLit_vWord, List.append_assoc, List.cons_append, List.nil_append, List.append_nil,
    fld_packSR_within_d, fld_packSR_within_a, fld_packSR_within_b, fld_packSR_within_fn, extract_append_high,
    extract_append_low, extract_all, Nat.reduceSub]
  first
  | rfl
  | simp (disch := decide) [need, coded, takeLit, Bind.bind, Except.bind, Pure.pure, Except.pure, fld_packSR_maj, fld_packSR_d,
    fld_packSR_a, fld_packSR_b, fld_packSR_fn, BarScope.ofCode_code, sOf7_s7, sLit_sWord, vLit_vWord,
    List.append_assoc, List.cons_append, List.nil_append, List.append_nil, fld_packSR_within_d,
    fld_packSR_within_a, fld_packSR_within_b, fld_packSR_within_fn, extract_append_high, extract_append_low,
    extract_all, fld_packSR_zeros]

theorem barWait (s0 : BarScope) (b : BitVec 4) : Statement (.barWait s0 b) := by
  intro w ls rest hi he
  obtain ⟨rfl, rfl⟩ := List.cons.inj he
  rw [decodeFields_0x3D _ _ (by simp only [fld_packSR_maj, fld_packSR_d, fld_packSR_a, fld_packSR_b, fld_packSR_fn] <;> rfl)]
  unfold decBarrier
  simp (disch := decide) only [fld_packSR_maj, fld_packSR_d, fld_packSR_a, fld_packSR_b, fld_packSR_fn, BarScope.ofCode_code, sOf7_s7,
    sLit_sWord, vLit_vWord, List.append_assoc, List.cons_append, List.nil_append, List.append_nil,
    fld_packSR_within_d, fld_packSR_within_a, fld_packSR_within_b, fld_packSR_within_fn, extract_append_high,
    extract_append_low, extract_all, Nat.reduceSub]
  first
  | rfl
  | simp (disch := decide) [need, coded, takeLit, Bind.bind, Except.bind, Pure.pure, Except.pure, fld_packSR_maj, fld_packSR_d,
    fld_packSR_a, fld_packSR_b, fld_packSR_fn, BarScope.ofCode_code, sOf7_s7, sLit_sWord, vLit_vWord,
    List.append_assoc, List.cons_append, List.nil_append, List.append_nil, fld_packSR_within_d,
    fld_packSR_within_a, fld_packSR_within_b, fld_packSR_within_fn, extract_append_high, extract_append_low,
    extract_all, fld_packSR_zeros]

theorem barSync (s0 : BarScope) (b : BitVec 4) : Statement (.barSync s0 b) := by
  intro w ls rest hi he
  obtain ⟨rfl, rfl⟩ := List.cons.inj he
  rw [decodeFields_0x3D _ _ (by simp only [fld_packSR_maj, fld_packSR_d, fld_packSR_a, fld_packSR_b, fld_packSR_fn] <;> rfl)]
  unfold decBarrier
  simp (disch := decide) only [fld_packSR_maj, fld_packSR_d, fld_packSR_a, fld_packSR_b, fld_packSR_fn, BarScope.ofCode_code, sOf7_s7,
    sLit_sWord, vLit_vWord, List.append_assoc, List.cons_append, List.nil_append, List.append_nil,
    fld_packSR_within_d, fld_packSR_within_a, fld_packSR_within_b, fld_packSR_within_fn, extract_append_high,
    extract_append_low, extract_all, Nat.reduceSub]
  first
  | rfl
  | simp (disch := decide) [need, coded, takeLit, Bind.bind, Except.bind, Pure.pure, Except.pure, fld_packSR_maj, fld_packSR_d,
    fld_packSR_a, fld_packSR_b, fld_packSR_fn, BarScope.ofCode_code, sOf7_s7, sLit_sWord, vLit_vWord,
    List.append_assoc, List.cons_append, List.nil_append, List.append_nil, fld_packSR_within_d,
    fld_packSR_within_a, fld_packSR_within_b, fld_packSR_within_fn, extract_append_high, extract_append_low,
    extract_all, fld_packSR_zeros]

theorem kli (k : BitVec 4) (v : BitVec 10) : Statement (.kli k v) := by
  intro w ls rest hi he
  obtain ⟨rfl, rfl⟩ := List.cons.inj he
  rw [decodeFields_0x3E _ _ (by simp only [fld_packMX_maj, fld_packMX_cd, fld_packMX_ma, fld_packMX_hh, fld_packMX_ru, fld_packMX_op, fld_packMX_fn] <;> rfl)]
  unfold decMatrix
  simp (disch := decide) only [fld_packMX_maj, fld_packMX_cd, fld_packMX_ma, fld_packMX_hh, fld_packMX_ru, fld_packMX_op, fld_packMX_fn,
    sOf7_s7, sLit_sWord, vLit_vWord, List.append_assoc, List.cons_append, List.nil_append, List.append_nil,
    fld_packMX_within_cd, fld_packMX_within_ma, fld_packMX_within_hh, fld_packMX_within_op, fld_packMX_within_fn,
    extract_append_high, extract_append_low, extract_all, Nat.reduceSub]
  first
  | rfl
  | simp (disch := decide) [need, coded, takeLit, Bind.bind, Except.bind, Pure.pure, Except.pure, fld_packMX_maj, fld_packMX_cd,
    fld_packMX_ma, fld_packMX_hh, fld_packMX_ru, fld_packMX_op, fld_packMX_fn, sOf7_s7, sLit_sWord, vLit_vWord,
    List.append_assoc, List.cons_append, List.nil_append, List.append_nil, fld_packMX_within_cd,
    fld_packMX_within_ma, fld_packMX_within_hh, fld_packMX_within_op, fld_packMX_within_fn, extract_append_high,
    extract_append_low, extract_all]

theorem kadd (k : BitVec 4) (a : BitVec 4) (v : BitVec 10) : Statement (.kadd k a v) := by
  intro w ls rest hi he
  obtain ⟨rfl, rfl⟩ := List.cons.inj he
  rw [decodeFields_0x3E _ _ (by simp only [fld_packMX_maj, fld_packMX_cd, fld_packMX_ma, fld_packMX_hh, fld_packMX_ru, fld_packMX_op, fld_packMX_fn] <;> rfl)]
  unfold decMatrix
  simp (disch := decide) only [fld_packMX_maj, fld_packMX_cd, fld_packMX_ma, fld_packMX_hh, fld_packMX_ru, fld_packMX_op, fld_packMX_fn,
    sOf7_s7, sLit_sWord, vLit_vWord, List.append_assoc, List.cons_append, List.nil_append, List.append_nil,
    fld_packMX_within_cd, fld_packMX_within_ma, fld_packMX_within_hh, fld_packMX_within_op, fld_packMX_within_fn,
    extract_append_high, extract_append_low, extract_all, Nat.reduceSub]
  first
  | rfl
  | simp (disch := decide) [need, coded, takeLit, Bind.bind, Except.bind, Pure.pure, Except.pure, fld_packMX_maj, fld_packMX_cd,
    fld_packMX_ma, fld_packMX_hh, fld_packMX_ru, fld_packMX_op, fld_packMX_fn, sOf7_s7, sLit_sWord, vLit_vWord,
    List.append_assoc, List.cons_append, List.nil_append, List.append_nil, fld_packMX_within_cd,
    fld_packMX_within_ma, fld_packMX_within_hh, fld_packMX_within_op, fld_packMX_within_fn, extract_append_high,
    extract_append_low, extract_all]

theorem kbr (c : KCond) (a : BitVec 4) (o : BitVec 10) : Statement (.kbr c a o) := by
  intro w ls rest hi he
  obtain ⟨rfl, rfl⟩ := List.cons.inj he
  rw [decodeFields_0x3E _ _ (by simp only [fld_packMX_maj, fld_packMX_cd, fld_packMX_ma, fld_packMX_hh, fld_packMX_ru, fld_packMX_op, fld_packMX_fn] <;> rfl)]
  unfold decMatrix
  simp (disch := decide) only [fld_packMX_maj, fld_packMX_cd, fld_packMX_ma, fld_packMX_hh, fld_packMX_ru, fld_packMX_op, fld_packMX_fn,
    KCond.ofCode_code, sOf7_s7, sLit_sWord, vLit_vWord, List.append_assoc, List.cons_append, List.nil_append,
    List.append_nil, fld_packMX_within_cd, fld_packMX_within_ma, fld_packMX_within_hh, fld_packMX_within_op,
    fld_packMX_within_fn, extract_append_high, extract_append_low, extract_all, Nat.reduceSub]
  first
  | rfl
  | simp (disch := decide) [need, coded, takeLit, Bind.bind, Except.bind, Pure.pure, Except.pure, fld_packMX_maj, fld_packMX_cd,
    fld_packMX_ma, fld_packMX_hh, fld_packMX_ru, fld_packMX_op, fld_packMX_fn, KCond.ofCode_code, sOf7_s7,
    sLit_sWord, vLit_vWord, List.append_assoc, List.cons_append, List.nil_append, List.append_nil,
    fld_packMX_within_cd, fld_packMX_within_ma, fld_packMX_within_hh, fld_packMX_within_op, fld_packMX_within_fn,
    extract_append_high, extract_append_low, extract_all]

theorem mld (m : BitVec 2) (h : BitVec 4) (k : BitVec 4) (ko : Bool) : Statement (.mld m h k ko) := by
  intro w ls rest hi he
  obtain ⟨rfl, rfl⟩ := List.cons.inj he
  rw [decodeFields_0x3E _ _ (by simp only [fld_packMX_maj, fld_packMX_cd, fld_packMX_ma, fld_packMX_hh, fld_packMX_ru, fld_packMX_op, fld_packMX_fn] <;> rfl)]
  unfold decMatrix
  simp (disch := decide) only [fld_packMX_maj, fld_packMX_cd, fld_packMX_ma, fld_packMX_hh, fld_packMX_ru, fld_packMX_op, fld_packMX_fn,
    bitBool_boolBit, sOf7_s7, sLit_sWord, vLit_vWord, List.append_assoc, List.cons_append, List.nil_append,
    List.append_nil, fld_packMX_within_cd, fld_packMX_within_ma, fld_packMX_within_hh, fld_packMX_within_op,
    fld_packMX_within_fn, extract_append_high, extract_append_low, Nat.reduceSub]
  first
  | rfl
  | simp (disch := decide) [need, coded, takeLit, Bind.bind, Except.bind, Pure.pure, Except.pure, fld_packMX_maj, fld_packMX_cd,
    fld_packMX_ma, fld_packMX_hh, fld_packMX_ru, fld_packMX_op, fld_packMX_fn, bitBool_boolBit, sOf7_s7,
    sLit_sWord, vLit_vWord, List.append_assoc, List.cons_append, List.nil_append, List.append_nil,
    fld_packMX_within_cd, fld_packMX_within_ma, fld_packMX_within_hh, fld_packMX_within_op, fld_packMX_within_fn,
    extract_append_high, extract_append_low, encBlock_k, encBlock_ko, encBlock_zeros, encBlock_zs, encBlock_low,
    show bitBool 0#1 = false from rfl, bitBool_boolBit]

theorem mrel (m : BitVec 2) : Statement (.mrel m) := by
  intro w ls rest hi he
  obtain ⟨rfl, rfl⟩ := List.cons.inj he
  rw [decodeFields_0x3E _ _ (by simp only [fld_packMX_maj, fld_packMX_cd, fld_packMX_ma, fld_packMX_hh, fld_packMX_ru, fld_packMX_op, fld_packMX_fn] <;> rfl)]
  unfold decMatrix
  simp (disch := decide) only [fld_packMX_maj, fld_packMX_cd, fld_packMX_ma, fld_packMX_hh, fld_packMX_ru, fld_packMX_op, fld_packMX_fn,
    sOf7_s7, sLit_sWord, vLit_vWord, List.append_assoc, List.cons_append, List.nil_append, List.append_nil,
    fld_packMX_within_cd, fld_packMX_within_ma, fld_packMX_within_hh, fld_packMX_within_op, fld_packMX_within_fn,
    extract_append_high, extract_append_low, extract_all, Nat.reduceSub]
  first
  | rfl
  | simp (disch := decide) [need, coded, takeLit, Bind.bind, Except.bind, Pure.pure, Except.pure, fld_packMX_maj, fld_packMX_cd,
    fld_packMX_ma, fld_packMX_hh, fld_packMX_ru, fld_packMX_op, fld_packMX_fn, sOf7_s7, sLit_sWord, vLit_vWord,
    List.append_assoc, List.cons_append, List.nil_append, List.append_nil, fld_packMX_within_cd,
    fld_packMX_within_ma, fld_packMX_within_hh, fld_packMX_within_op, fld_packMX_within_fn, extract_append_high,
    extract_append_low, extract_all]

theorem mzero (c : BitVec 4) : Statement (.mzero c) := by
  intro w ls rest hi he
  obtain ⟨rfl, rfl⟩ := List.cons.inj he
  rw [decodeFields_0x3E _ _ (by simp only [fld_packMX_maj, fld_packMX_cd, fld_packMX_ma, fld_packMX_hh, fld_packMX_ru, fld_packMX_op, fld_packMX_fn] <;> rfl)]
  unfold decMatrix
  simp (disch := decide) only [fld_packMX_maj, fld_packMX_cd, fld_packMX_ma, fld_packMX_hh, fld_packMX_ru, fld_packMX_op, fld_packMX_fn,
    sOf7_s7, sLit_sWord, vLit_vWord, List.append_assoc, List.cons_append, List.nil_append, List.append_nil,
    fld_packMX_within_cd, fld_packMX_within_ma, fld_packMX_within_hh, fld_packMX_within_op, fld_packMX_within_fn,
    extract_append_high, extract_append_low, extract_all, Nat.reduceSub]
  first
  | rfl
  | simp (disch := decide) [need, coded, takeLit, Bind.bind, Except.bind, Pure.pure, Except.pure, fld_packMX_maj, fld_packMX_cd,
    fld_packMX_ma, fld_packMX_hh, fld_packMX_ru, fld_packMX_op, fld_packMX_fn, sOf7_s7, sLit_sWord, vLit_vWord,
    List.append_assoc, List.cons_append, List.nil_append, List.append_nil, fld_packMX_within_cd,
    fld_packMX_within_ma, fld_packMX_within_hh, fld_packMX_within_op, fld_packMX_within_fn, extract_append_high,
    extract_append_low, extract_all]

theorem mma (c : BitVec 4) (m : BitVec 2) (h : BitVec 4) (ru : Bool) (k : BitVec 4) (ko : Bool) (zs : Bool) : Statement (.mma c m h ru k ko zs) := by
  intro w ls rest hi he
  obtain ⟨rfl, rfl⟩ := List.cons.inj he
  rw [decodeFields_0x3E _ _ (by simp only [fld_packMX_maj, fld_packMX_cd, fld_packMX_ma, fld_packMX_hh, fld_packMX_ru, fld_packMX_op, fld_packMX_fn] <;> rfl)]
  unfold decMatrix
  simp (disch := decide) only [fld_packMX_maj, fld_packMX_cd, fld_packMX_ma, fld_packMX_hh, fld_packMX_ru, fld_packMX_op, fld_packMX_fn,
    bitBool_boolBit, sOf7_s7, sLit_sWord, vLit_vWord, List.append_assoc, List.cons_append, List.nil_append,
    List.append_nil, fld_packMX_within_cd, fld_packMX_within_ma, fld_packMX_within_hh, fld_packMX_within_op,
    fld_packMX_within_fn, extract_append_high, extract_append_low, Nat.reduceSub]
  first
  | rfl
  | simp (disch := decide) [need, coded, takeLit, Bind.bind, Except.bind, Pure.pure, Except.pure, fld_packMX_maj, fld_packMX_cd,
    fld_packMX_ma, fld_packMX_hh, fld_packMX_ru, fld_packMX_op, fld_packMX_fn, bitBool_boolBit, sOf7_s7,
    sLit_sWord, vLit_vWord, List.append_assoc, List.cons_append, List.nil_append, List.append_nil,
    fld_packMX_within_cd, fld_packMX_within_ma, fld_packMX_within_hh, fld_packMX_within_op, fld_packMX_within_fn,
    extract_append_high, extract_append_low, encBlock_k, encBlock_ko, encBlock_zeros, encBlock_zs, encBlock_low,
    show bitBool 0#1 = false from rfl, bitBool_boolBit]

theorem mmt (c : BitVec 4) (m : BitVec 2) (h : BitVec 4) (ru : Bool) (k : BitVec 4) (ko : Bool) (zs : Bool) : Statement (.mmt c m h ru k ko zs) := by
  intro w ls rest hi he
  obtain ⟨rfl, rfl⟩ := List.cons.inj he
  rw [decodeFields_0x3E _ _ (by simp only [fld_packMX_maj, fld_packMX_cd, fld_packMX_ma, fld_packMX_hh, fld_packMX_ru, fld_packMX_op, fld_packMX_fn] <;> rfl)]
  unfold decMatrix
  simp (disch := decide) only [fld_packMX_maj, fld_packMX_cd, fld_packMX_ma, fld_packMX_hh, fld_packMX_ru, fld_packMX_op, fld_packMX_fn,
    bitBool_boolBit, sOf7_s7, sLit_sWord, vLit_vWord, List.append_assoc, List.cons_append, List.nil_append,
    List.append_nil, fld_packMX_within_cd, fld_packMX_within_ma, fld_packMX_within_hh, fld_packMX_within_op,
    fld_packMX_within_fn, extract_append_high, extract_append_low, Nat.reduceSub]
  first
  | rfl
  | simp (disch := decide) [need, coded, takeLit, Bind.bind, Except.bind, Pure.pure, Except.pure, fld_packMX_maj, fld_packMX_cd,
    fld_packMX_ma, fld_packMX_hh, fld_packMX_ru, fld_packMX_op, fld_packMX_fn, bitBool_boolBit, sOf7_s7,
    sLit_sWord, vLit_vWord, List.append_assoc, List.cons_append, List.nil_append, List.append_nil,
    fld_packMX_within_cd, fld_packMX_within_ma, fld_packMX_within_hh, fld_packMX_within_op, fld_packMX_within_fn,
    extract_append_high, extract_append_low, encBlock_k, encBlock_ko, encBlock_zeros, encBlock_zs, encBlock_low,
    show bitBool 0#1 = false from rfl, bitBool_boolBit]

theorem mst (c : BitVec 4) (h : BitVec 4) (k : BitVec 4) (ko : Bool) : Statement (.mst c h k ko) := by
  intro w ls rest hi he
  obtain ⟨rfl, rfl⟩ := List.cons.inj he
  rw [decodeFields_0x3E _ _ (by simp only [fld_packMX_maj, fld_packMX_cd, fld_packMX_ma, fld_packMX_hh, fld_packMX_ru, fld_packMX_op, fld_packMX_fn] <;> rfl)]
  unfold decMatrix
  simp (disch := decide) only [fld_packMX_maj, fld_packMX_cd, fld_packMX_ma, fld_packMX_hh, fld_packMX_ru, fld_packMX_op, fld_packMX_fn,
    bitBool_boolBit, sOf7_s7, sLit_sWord, vLit_vWord, List.append_assoc, List.cons_append, List.nil_append,
    List.append_nil, fld_packMX_within_cd, fld_packMX_within_ma, fld_packMX_within_hh, fld_packMX_within_op,
    fld_packMX_within_fn, extract_append_high, extract_append_low, Nat.reduceSub]
  first
  | rfl
  | simp (disch := decide) [need, coded, takeLit, Bind.bind, Except.bind, Pure.pure, Except.pure, fld_packMX_maj, fld_packMX_cd,
    fld_packMX_ma, fld_packMX_hh, fld_packMX_ru, fld_packMX_op, fld_packMX_fn, bitBool_boolBit, sOf7_s7,
    sLit_sWord, vLit_vWord, List.append_assoc, List.cons_append, List.nil_append, List.append_nil,
    fld_packMX_within_cd, fld_packMX_within_ma, fld_packMX_within_hh, fld_packMX_within_op, fld_packMX_within_fn,
    extract_append_high, extract_append_low, encBlock_k, encBlock_ko, encBlock_zeros, encBlock_zs, encBlock_low,
    show bitBool 0#1 = false from rfl, bitBool_boolBit]

theorem mscl (c : BitVec 4) (h : BitVec 4) : Statement (.mscl c h) := by
  intro w ls rest hi he
  obtain ⟨rfl, rfl⟩ := List.cons.inj he
  rw [decodeFields_0x3E _ _ (by simp only [fld_packMX_maj, fld_packMX_cd, fld_packMX_ma, fld_packMX_hh, fld_packMX_ru, fld_packMX_op, fld_packMX_fn] <;> rfl)]
  unfold decMatrix
  simp (disch := decide) only [fld_packMX_maj, fld_packMX_cd, fld_packMX_ma, fld_packMX_hh, fld_packMX_ru, fld_packMX_op, fld_packMX_fn,
    sOf7_s7, sLit_sWord, vLit_vWord, List.append_assoc, List.cons_append, List.nil_append, List.append_nil,
    fld_packMX_within_cd, fld_packMX_within_ma, fld_packMX_within_hh, fld_packMX_within_op, fld_packMX_within_fn,
    extract_append_high, extract_append_low, extract_all, Nat.reduceSub]
  first
  | rfl
  | simp (disch := decide) [need, coded, takeLit, Bind.bind, Except.bind, Pure.pure, Except.pure, fld_packMX_maj, fld_packMX_cd,
    fld_packMX_ma, fld_packMX_hh, fld_packMX_ru, fld_packMX_op, fld_packMX_fn, sOf7_s7, sLit_sWord, vLit_vWord,
    List.append_assoc, List.cons_append, List.nil_append, List.append_nil, fld_packMX_within_cd,
    fld_packMX_within_ma, fld_packMX_within_hh, fld_packMX_within_op, fld_packMX_within_fn, extract_append_high,
    extract_append_low, extract_all]

theorem mchk (k : BitVec 4) : Statement (.mchk k) := by
  intro w ls rest hi he
  obtain ⟨rfl, rfl⟩ := List.cons.inj he
  rw [decodeFields_0x3E _ _ (by simp only [fld_packMX_maj, fld_packMX_cd, fld_packMX_ma, fld_packMX_hh, fld_packMX_ru, fld_packMX_op, fld_packMX_fn] <;> rfl)]
  unfold decMatrix
  simp (disch := decide) only [fld_packMX_maj, fld_packMX_cd, fld_packMX_ma, fld_packMX_hh, fld_packMX_ru, fld_packMX_op, fld_packMX_fn,
    sOf7_s7, sLit_sWord, vLit_vWord, List.append_assoc, List.cons_append, List.nil_append, List.append_nil,
    fld_packMX_within_cd, fld_packMX_within_ma, fld_packMX_within_hh, fld_packMX_within_op, fld_packMX_within_fn,
    extract_append_high, extract_append_low, extract_all, Nat.reduceSub]
  first
  | rfl
  | simp (disch := decide) [need, coded, takeLit, Bind.bind, Except.bind, Pure.pure, Except.pure, fld_packMX_maj, fld_packMX_cd,
    fld_packMX_ma, fld_packMX_hh, fld_packMX_ru, fld_packMX_op, fld_packMX_fn, sOf7_s7, sLit_sWord, vLit_vWord,
    List.append_assoc, List.cons_append, List.nil_append, List.append_nil, fld_packMX_within_cd,
    fld_packMX_within_ma, fld_packMX_within_hh, fld_packMX_within_op, fld_packMX_within_fn, extract_append_high,
    extract_append_low, extract_all]

theorem mbar (b : BitVec 4) : Statement (.mbar b) := by
  intro w ls rest hi he
  obtain ⟨rfl, rfl⟩ := List.cons.inj he
  rw [decodeFields_0x3E _ _ (by simp only [fld_packMX_maj, fld_packMX_cd, fld_packMX_ma, fld_packMX_hh, fld_packMX_ru, fld_packMX_op, fld_packMX_fn] <;> rfl)]
  unfold decMatrix
  simp (disch := decide) only [fld_packMX_maj, fld_packMX_cd, fld_packMX_ma, fld_packMX_hh, fld_packMX_ru, fld_packMX_op, fld_packMX_fn,
    sOf7_s7, sLit_sWord, vLit_vWord, List.append_assoc, List.cons_append, List.nil_append, List.append_nil,
    fld_packMX_within_cd, fld_packMX_within_ma, fld_packMX_within_hh, fld_packMX_within_op, fld_packMX_within_fn,
    extract_append_high, extract_append_low, extract_all, Nat.reduceSub]
  first
  | rfl
  | simp (disch := decide) [need, coded, takeLit, Bind.bind, Except.bind, Pure.pure, Except.pure, fld_packMX_maj, fld_packMX_cd,
    fld_packMX_ma, fld_packMX_hh, fld_packMX_ru, fld_packMX_op, fld_packMX_fn, sOf7_s7, sLit_sWord, vLit_vWord,
    List.append_assoc, List.cons_append, List.nil_append, List.append_nil, fld_packMX_within_cd,
    fld_packMX_within_ma, fld_packMX_within_hh, fld_packMX_within_op, fld_packMX_within_fn, extract_append_high,
    extract_append_low, extract_all]

theorem lkoPred (m : BitVec 2) (h : BitVec 4) : Statement (.lkoPred m h) := by
  intro w ls rest hi he
  obtain ⟨rfl, rfl⟩ := List.cons.inj he
  rw [decodeFields_0x3E _ _ (by simp only [fld_packMX_maj, fld_packMX_cd, fld_packMX_ma, fld_packMX_hh, fld_packMX_ru, fld_packMX_op, fld_packMX_fn] <;> rfl)]
  unfold decMatrix
  simp (disch := decide) only [fld_packMX_maj, fld_packMX_cd, fld_packMX_ma, fld_packMX_hh, fld_packMX_ru, fld_packMX_op, fld_packMX_fn,
    sOf7_s7, sLit_sWord, vLit_vWord, List.append_assoc, List.cons_append, List.nil_append, List.append_nil,
    fld_packMX_within_cd, fld_packMX_within_ma, fld_packMX_within_hh, fld_packMX_within_op, fld_packMX_within_fn,
    extract_append_high, extract_append_low, extract_all, Nat.reduceSub]
  first
  | rfl
  | simp (disch := decide) [need, coded, takeLit, Bind.bind, Except.bind, Pure.pure, Except.pure, fld_packMX_maj, fld_packMX_cd,
    fld_packMX_ma, fld_packMX_hh, fld_packMX_ru, fld_packMX_op, fld_packMX_fn, sOf7_s7, sLit_sWord, vLit_vWord,
    List.append_assoc, List.cons_append, List.nil_append, List.append_nil, fld_packMX_within_cd,
    fld_packMX_within_ma, fld_packMX_within_hh, fld_packMX_within_op, fld_packMX_within_fn, extract_append_high,
    extract_append_low, extract_all]

theorem lkoFetch (h : BitVec 4) : Statement (.lkoFetch h) := by
  intro w ls rest hi he
  obtain ⟨rfl, rfl⟩ := List.cons.inj he
  rw [decodeFields_0x3E _ _ (by simp only [fld_packMX_maj, fld_packMX_cd, fld_packMX_ma, fld_packMX_hh, fld_packMX_ru, fld_packMX_op, fld_packMX_fn] <;> rfl)]
  unfold decMatrix
  simp (disch := decide) only [fld_packMX_maj, fld_packMX_cd, fld_packMX_ma, fld_packMX_hh, fld_packMX_ru, fld_packMX_op, fld_packMX_fn,
    sOf7_s7, sLit_sWord, vLit_vWord, List.append_assoc, List.cons_append, List.nil_append, List.append_nil,
    fld_packMX_within_cd, fld_packMX_within_ma, fld_packMX_within_hh, fld_packMX_within_op, fld_packMX_within_fn,
    extract_append_high, extract_append_low, extract_all, Nat.reduceSub]
  first
  | rfl
  | simp (disch := decide) [need, coded, takeLit, Bind.bind, Except.bind, Pure.pure, Except.pure, fld_packMX_maj, fld_packMX_cd,
    fld_packMX_ma, fld_packMX_hh, fld_packMX_ru, fld_packMX_op, fld_packMX_fn, sOf7_s7, sLit_sWord, vLit_vWord,
    List.append_assoc, List.cons_append, List.nil_append, List.append_nil, fld_packMX_within_cd,
    fld_packMX_within_ma, fld_packMX_within_hh, fld_packMX_within_op, fld_packMX_within_fn, extract_append_high,
    extract_append_low, extract_all]

theorem lkoChk (c : BitVec 4) (m : BitVec 2) (h : BitVec 4) : Statement (.lkoChk c m h) := by
  intro w ls rest hi he
  obtain ⟨rfl, rfl⟩ := List.cons.inj he
  rw [decodeFields_0x3E _ _ (by simp only [fld_packMX_maj, fld_packMX_cd, fld_packMX_ma, fld_packMX_hh, fld_packMX_ru, fld_packMX_op, fld_packMX_fn] <;> rfl)]
  unfold decMatrix
  simp (disch := decide) only [fld_packMX_maj, fld_packMX_cd, fld_packMX_ma, fld_packMX_hh, fld_packMX_ru, fld_packMX_op, fld_packMX_fn,
    sOf7_s7, sLit_sWord, vLit_vWord, List.append_assoc, List.cons_append, List.nil_append, List.append_nil,
    fld_packMX_within_cd, fld_packMX_within_ma, fld_packMX_within_hh, fld_packMX_within_op, fld_packMX_within_fn,
    extract_append_high, extract_append_low, extract_all, Nat.reduceSub]
  first
  | rfl
  | simp (disch := decide) [need, coded, takeLit, Bind.bind, Except.bind, Pure.pure, Except.pure, fld_packMX_maj, fld_packMX_cd,
    fld_packMX_ma, fld_packMX_hh, fld_packMX_ru, fld_packMX_op, fld_packMX_fn, sOf7_s7, sLit_sWord, vLit_vWord,
    List.append_assoc, List.cons_append, List.nil_append, List.append_nil, fld_packMX_within_cd,
    fld_packMX_within_ma, fld_packMX_within_hh, fld_packMX_within_op, fld_packMX_within_fn, extract_append_high,
    extract_append_low, extract_all]

theorem trap (code : BitVec 12) : Statement (.trap code) := by
  intro w ls rest hi he
  obtain ⟨rfl, rfl⟩ := List.cons.inj he
  rw [decodeFields_0x3F _ _ (by simp (disch := decide) only [fld, extract_append_high, extract_append_low, extract_all, Nat.reduceSub])]
  unfold decSystem
  simp (disch := decide) only [fld, extract_append_high, extract_append_low, extract_all, Nat.reduceSub]
  rfl

theorem rfe (d : SReg) (a : SReg) (b : SOp) : Statement (.rfe d a b) := by
  intro w ls rest hi he
  have hb : sbOk b = true := by
    have h2 : firstFailing _ = none := hi
    rw [firstFailing_eq_none] at h2; simp at h2; tauto
  obtain ⟨rfl, rfl⟩ := List.cons.inj he
  rw [decodeFields_0x3F _ _ (by simp only [fld_packSR_maj, fld_packSR_d, fld_packSR_a, fld_packSR_b, fld_packSR_fn] <;> rfl)]
  unfold decSystem
  simp (disch := decide) only [fld_packSR_maj, fld_packSR_d, fld_packSR_a, fld_packSR_b, fld_packSR_fn, sB_sbField _ _ hb, sOf7_s7,
    sLit_sWord, vLit_vWord, List.append_assoc, List.cons_append, List.nil_append, List.append_nil,
    fld_packSR_within_d, fld_packSR_within_a, fld_packSR_within_b, fld_packSR_within_fn, extract_append_high,
    extract_append_low, extract_all, Nat.reduceSub]
  first
  | rfl
  | simp (disch := decide) [need, coded, takeLit, Bind.bind, Except.bind, Pure.pure, Except.pure, fld_packSR_maj, fld_packSR_d,
    fld_packSR_a, fld_packSR_b, fld_packSR_fn, sB_sbField _ _ hb, sOf7_s7, sLit_sWord, vLit_vWord,
    List.append_assoc, List.cons_append, List.nil_append, List.append_nil, fld_packSR_within_d,
    fld_packSR_within_a, fld_packSR_within_b, fld_packSR_within_fn, extract_append_high, extract_append_low,
    extract_all, fld_packSR_zeros]

theorem tlbrng (d : SReg) (a : SReg) (b : SReg) : Statement (.tlbrng d a b) := by
  intro w ls rest hi he
  obtain ⟨rfl, rfl⟩ := List.cons.inj he
  rw [decodeFields_0x3F _ _ (by simp only [fld_packSR_maj, fld_packSR_d, fld_packSR_a, fld_packSR_b, fld_packSR_fn] <;> rfl)]
  unfold decSystem
  simp (disch := decide) only [fld_packSR_maj, fld_packSR_d, fld_packSR_a, fld_packSR_b, fld_packSR_fn, sOf7_s7, sLit_sWord, vLit_vWord,
    List.append_assoc, List.cons_append, List.nil_append, List.append_nil, fld_packSR_within_d,
    fld_packSR_within_a, fld_packSR_within_b, fld_packSR_within_fn, extract_append_high, extract_append_low,
    extract_all, Nat.reduceSub]
  first
  | rfl
  | simp (disch := decide) [need, coded, takeLit, Bind.bind, Except.bind, Pure.pure, Except.pure, fld_packSR_maj, fld_packSR_d,
    fld_packSR_a, fld_packSR_b, fld_packSR_fn, sOf7_s7, sLit_sWord, vLit_vWord, List.append_assoc,
    List.cons_append, List.nil_append, List.append_nil, fld_packSR_within_d, fld_packSR_within_a,
    fld_packSR_within_b, fld_packSR_within_fn, extract_append_high, extract_append_low, extract_all,
    fld_packSR_zeros]

theorem wsld (d : SReg) (a : SReg) (b : SReg) : Statement (.wsld d a b) := by
  intro w ls rest hi he
  obtain ⟨rfl, rfl⟩ := List.cons.inj he
  rw [decodeFields_0x3F _ _ (by simp only [fld_packSR_maj, fld_packSR_d, fld_packSR_a, fld_packSR_b, fld_packSR_fn] <;> rfl)]
  unfold decSystem
  simp (disch := decide) only [fld_packSR_maj, fld_packSR_d, fld_packSR_a, fld_packSR_b, fld_packSR_fn, sOf7_s7, sLit_sWord, vLit_vWord,
    List.append_assoc, List.cons_append, List.nil_append, List.append_nil, fld_packSR_within_d,
    fld_packSR_within_a, fld_packSR_within_b, fld_packSR_within_fn, extract_append_high, extract_append_low,
    extract_all, Nat.reduceSub]
  first
  | rfl
  | simp (disch := decide) [need, coded, takeLit, Bind.bind, Except.bind, Pure.pure, Except.pure, fld_packSR_maj, fld_packSR_d,
    fld_packSR_a, fld_packSR_b, fld_packSR_fn, sOf7_s7, sLit_sWord, vLit_vWord, List.append_assoc,
    List.cons_append, List.nil_append, List.append_nil, fld_packSR_within_d, fld_packSR_within_a,
    fld_packSR_within_b, fld_packSR_within_fn, extract_append_high, extract_append_low, extract_all,
    fld_packSR_zeros]

theorem hcall (d : SReg) (a : SReg) (b : SOp) : Statement (.hcall d a b) := by
  intro w ls rest hi he
  have hb : sbOk b = true := by
    have h2 : firstFailing _ = none := hi
    rw [firstFailing_eq_none] at h2; simp at h2; tauto
  obtain ⟨rfl, rfl⟩ := List.cons.inj he
  rw [decodeFields_0x3F _ _ (by simp only [fld_packSR_maj, fld_packSR_d, fld_packSR_a, fld_packSR_b, fld_packSR_fn] <;> rfl)]
  unfold decSystem
  simp (disch := decide) only [fld_packSR_maj, fld_packSR_d, fld_packSR_a, fld_packSR_b, fld_packSR_fn, sB_sbField _ _ hb, sOf7_s7,
    sLit_sWord, vLit_vWord, List.append_assoc, List.cons_append, List.nil_append, List.append_nil,
    fld_packSR_within_d, fld_packSR_within_a, fld_packSR_within_b, fld_packSR_within_fn, extract_append_high,
    extract_append_low, extract_all, Nat.reduceSub]
  first
  | rfl
  | simp (disch := decide) [need, coded, takeLit, Bind.bind, Except.bind, Pure.pure, Except.pure, fld_packSR_maj, fld_packSR_d,
    fld_packSR_a, fld_packSR_b, fld_packSR_fn, sB_sbField _ _ hb, sOf7_s7, sLit_sWord, vLit_vWord,
    List.append_assoc, List.cons_append, List.nil_append, List.append_nil, fld_packSR_within_d,
    fld_packSR_within_a, fld_packSR_within_b, fld_packSR_within_fn, extract_append_high, extract_append_low,
    extract_all, fld_packSR_zeros]

theorem clkrd (d : SReg) : Statement (.clkrd d) := by
  intro w ls rest hi he
  obtain ⟨rfl, rfl⟩ := List.cons.inj he
  rw [decodeFields_0x3F _ _ (by simp only [fld_packSR_maj, fld_packSR_d, fld_packSR_a, fld_packSR_b, fld_packSR_fn] <;> rfl)]
  unfold decSystem
  simp (disch := decide) only [fld_packSR_maj, fld_packSR_d, fld_packSR_a, fld_packSR_b, fld_packSR_fn, sOf7_s7, sLit_sWord, vLit_vWord,
    List.append_assoc, List.cons_append, List.nil_append, List.append_nil, fld_packSR_within_d,
    fld_packSR_within_a, fld_packSR_within_b, fld_packSR_within_fn, extract_append_high, extract_append_low,
    extract_all, Nat.reduceSub]
  first
  | rfl
  | simp (disch := decide) [need, coded, takeLit, Bind.bind, Except.bind, Pure.pure, Except.pure, fld_packSR_maj, fld_packSR_d,
    fld_packSR_a, fld_packSR_b, fld_packSR_fn, sOf7_s7, sLit_sWord, vLit_vWord, List.append_assoc,
    List.cons_append, List.nil_append, List.append_nil, fld_packSR_within_d, fld_packSR_within_a,
    fld_packSR_within_b, fld_packSR_within_fn, extract_append_high, extract_append_low, extract_all,
    fld_packSR_zeros]

theorem vliLit (d : VReg) (w0 : Word) : Statement (.vliLit d w0) := by
  intro w ls rest hi he
  obtain ⟨rfl, rfl⟩ := List.cons.inj he
  rw [decodeFields_0x10 _ _ (by simp only [fld_packVR_maj, fld_packVR_d, fld_packVR_a, fld_packVR_b, fld_packVR_fn] <;> rfl)]
  unfold decVecInt
  simp (disch := decide) only [fld_packVR_maj, fld_packVR_d, fld_packVR_a, fld_packVR_b, fld_packVR_fn, sOf7_s7, sLit_sWord, vLit_vWord,
    List.append_assoc, List.cons_append, List.nil_append, List.append_nil, fld_packVR_within_d,
    fld_packVR_within_a, fld_packVR_within_b, fld_packVR_within_fn, extract_append_high, extract_append_low,
    extract_all, Nat.reduceSub]
  first
  | rfl
  | simp (disch := decide) [need, coded, takeLit, Bind.bind, Except.bind, Pure.pure, Except.pure, fld_packVR_maj, fld_packVR_d,
    fld_packVR_a, fld_packVR_b, fld_packVR_fn, sOf7_s7, sLit_sWord, vLit_vWord, List.append_assoc,
    List.cons_append, List.nil_append, List.append_nil, fld_packVR_within_d, fld_packVR_within_a,
    fld_packVR_within_b, fld_packVR_within_fn, extract_append_high, extract_append_low, extract_all,
    fld_packVR_zeros]

theorem vfcvtSr (d : VReg) (a : VReg) (df : Cvt) (sf : Cvt) (sat : Bool) (seed : VReg) : Statement (.vfcvtSr d a df sf sat seed) := by
  intro w ls rest hi he
  obtain ⟨rfl, rfl⟩ := List.cons.inj he
  rw [decodeFields_0x24 _ _ (by simp only [fld_packVC_maj, fld_packVC_d, fld_packVC_a, fld_packVC_df, fld_packVC_sf, fld_packVC_sat, fld_packVC_srs] <;> rfl)]
  unfold decConvert
  simp (disch := decide) only [fld_packVC_maj, fld_packVC_d, fld_packVC_a, fld_packVC_df, fld_packVC_sf, fld_packVC_sat, fld_packVC_srs,
    Cvt.ofCode_code, bitBool_boolBit, sOf7_s7, sLit_sWord, vLit_vWord, List.append_assoc, List.cons_append,
    List.nil_append, List.append_nil, fld_packVC_within_d, fld_packVC_within_a, fld_packVC_within_df,
    fld_packVC_within_sf, extract_append_high, extract_append_low, extract_all, Nat.reduceSub]
  first
  | rfl
  | simp (disch := decide) [need, coded, takeLit, Bind.bind, Except.bind, Pure.pure, Except.pure, fld_packVC_maj, fld_packVC_d,
    fld_packVC_a, fld_packVC_df, fld_packVC_sf, fld_packVC_sat, fld_packVC_srs, Cvt.ofCode_code, bitBool_boolBit,
    sOf7_s7, sLit_sWord, vLit_vWord, List.append_assoc, List.cons_append, List.nil_append, List.append_nil,
    fld_packVC_within_d, fld_packVC_within_a, fld_packVC_within_df, fld_packVC_within_sf, extract_append_high,
    extract_append_low, extract_all]

theorem vldgPart (d : VReg) (a : SReg) (b : BOp) (o : Option Ord) (pol : Policy) (z : Size) (m : SReg) : Statement (.vldgPart d a b o pol z m) := by
  intro w ls rest hi he
  have hb : vbOk b = true := by
    have h2 := ((andThen_eq_none _ _).mp hi).1
    simp only [atomOk, mmOk, firstFailing_eq_none] at h2; simp at h2; tauto
  obtain ⟨rfl, rfl⟩ := List.cons.inj he
  rw [decodeFields_0x2F _ _ (by simp only [fld_packMM_maj, fld_packMM_d, fld_packMM_a, fld_packMM_b, fld_packMM_o, fld_packMM_p, fld_packMM_z] <;> rfl)]
  cases o
  all_goals
    unfold decAccess
    simp (disch := decide) only [fld_packMM_maj, fld_packMM_d, fld_packMM_a, fld_packMM_b, fld_packMM_o, fld_packMM_p, fld_packMM_z,
      vB_bField _ _ hb, Size.ofCode_code, Policy.ofCode_code, plainOrd_ordWord, polOrd_ordWord, atomOrd_ordWord,
      bitBool_boolBit, sOf7_s7, sLit_sWord, vLit_vWord, List.append_assoc, List.cons_append, List.nil_append,
      List.append_nil, fld_packMM_within_d, fld_packMM_within_a, fld_packMM_within_b, fld_packMM_within_p,
      fld_packMM_within_z, extract_append_high, extract_append_low, extract_all, Nat.reduceSub]
    first
    | rfl
    | simp (disch := decide) [need, coded, takeLit, Bind.bind, Except.bind, Pure.pure, Except.pure, fld_packMM_maj, fld_packMM_d,
      fld_packMM_a, fld_packMM_b, fld_packMM_o, fld_packMM_p, fld_packMM_z, vB_bField _ _ hb, Size.ofCode_code,
      Policy.ofCode_code, plainOrd_ordWord, polOrd_ordWord, atomOrd_ordWord, bitBool_boolBit, sOf7_s7, sLit_sWord,
      vLit_vWord, List.append_assoc, List.cons_append, List.nil_append, List.append_nil, fld_packMM_within_d,
      fld_packMM_within_a, fld_packMM_within_b, fld_packMM_within_p, fld_packMM_within_z, extract_append_high,
      extract_append_low, extract_all, boolBit]

theorem sld (d : SReg) (a : SReg) (b : SOp) (z : Size) (o : Ord) (pol : Policy) : Statement (.sld d a b z o pol) := by
  intro w ls rest hi he
  have hb : sbOk b = true := by
    have h2 : firstFailing _ = none := hi
    rw [firstFailing_eq_none] at h2; simp at h2; tauto
  obtain ⟨rfl, rfl⟩ := List.cons.inj he
  rw [decodeFields_0x33 _ _ (by simp only [fld_packSR_maj, fld_packSR_d, fld_packSR_a, fld_packSR_b, fld_packSR_fn] <;> rfl)]
  unfold decScalarMem
  simp (disch := decide) only [fld_packSR_maj, fld_packSR_d, fld_packSR_a, fld_packSR_b, fld_packSR_fn, sB_sbField _ _ hb, Size.ofCode_code,
    Policy.ofCode_code, plainOrd_ordWord, polOrd_ordWord, atomOrd_ordWord, sOf7_s7, sLit_sWord, vLit_vWord,
    List.append_assoc, List.cons_append, List.nil_append, List.append_nil, fld_packSR_within_d,
    fld_packSR_within_a, fld_packSR_within_b, fld_packSR_within_fn, extract_append_high, extract_append_low,
    extract_all, Nat.reduceSub]
  first
  | rfl
  | simp (disch := decide) [need, coded, takeLit, Bind.bind, Except.bind, Pure.pure, Except.pure, fld_packSR_maj, fld_packSR_d,
    fld_packSR_a, fld_packSR_b, fld_packSR_fn, sB_sbField _ _ hb, Size.ofCode_code, Policy.ofCode_code,
    plainOrd_ordWord, polOrd_ordWord, atomOrd_ordWord, sOf7_s7, sLit_sWord, vLit_vWord, List.append_assoc,
    List.cons_append, List.nil_append, List.append_nil, fld_packSR_within_d, fld_packSR_within_a,
    fld_packSR_within_b, fld_packSR_within_fn, extract_append_high, extract_append_low, extract_all,
    fld_packSR_zeros]

theorem sst (d : SReg) (a : SReg) (b : SOp) (z : Size) (o : Ord) (pol : Policy) : Statement (.sst d a b z o pol) := by
  intro w ls rest hi he
  have hb : sbOk b = true := by
    have h2 : firstFailing _ = none := hi
    rw [firstFailing_eq_none] at h2; simp at h2; tauto
  obtain ⟨rfl, rfl⟩ := List.cons.inj he
  rw [decodeFields_0x33 _ _ (by simp only [fld_packSR_maj, fld_packSR_d, fld_packSR_a, fld_packSR_b, fld_packSR_fn] <;> rfl)]
  unfold decScalarMem
  simp (disch := decide) only [fld_packSR_maj, fld_packSR_d, fld_packSR_a, fld_packSR_b, fld_packSR_fn, sB_sbField _ _ hb, Size.ofCode_code,
    Policy.ofCode_code, plainOrd_ordWord, polOrd_ordWord, atomOrd_ordWord, sOf7_s7, sLit_sWord, vLit_vWord,
    List.append_assoc, List.cons_append, List.nil_append, List.append_nil, fld_packSR_within_d,
    fld_packSR_within_a, fld_packSR_within_b, fld_packSR_within_fn, extract_append_high, extract_append_low,
    extract_all, Nat.reduceSub]
  first
  | rfl
  | simp (disch := decide) [need, coded, takeLit, Bind.bind, Except.bind, Pure.pure, Except.pure, fld_packSR_maj, fld_packSR_d,
    fld_packSR_a, fld_packSR_b, fld_packSR_fn, sB_sbField _ _ hb, Size.ofCode_code, Policy.ofCode_code,
    plainOrd_ordWord, polOrd_ordWord, atomOrd_ordWord, sOf7_s7, sLit_sWord, vLit_vWord, List.append_assoc,
    List.cons_append, List.nil_append, List.append_nil, fld_packSR_within_d, fld_packSR_within_a,
    fld_packSR_within_b, fld_packSR_within_fn, extract_append_high, extract_append_low, extract_all,
    fld_packSR_zeros]

theorem vatom (op : AOp) (ty : ATy) (o : Ord) (d : VReg) (a : SReg) (b : BOp) : Statement (.vatom op ty o d a b) := by
  intro w ls rest hi he
  have hb : vbOk b = true := by
    have h2 := ((andThen_eq_none _ _).mp hi).1
    simp only [atomOk, mmOk, firstFailing_eq_none] at h2; simp at h2; tauto
  obtain ⟨rfl, rfl⟩ := List.cons.inj he
  rw [decodeFields_0x32 _ _ (by simp only [fld_packAT_maj, fld_packAT_d, fld_packAT_a, fld_packAT_b, fld_packAT_k, fld_packAT_z] <;> rfl)]
  unfold decAtomic
  simp (disch := decide) only [fld_packAT_maj, fld_packAT_d, fld_packAT_a, fld_packAT_b, fld_packAT_k, fld_packAT_z, vB_bField _ _ hb,
    AOp.ofCode_code, ATy.ofCode_code, plainOrd_ordWord, polOrd_ordWord, atomOrd_ordWord, sOf7_s7, sLit_sWord,
    vLit_vWord, List.append_assoc, List.cons_append, List.nil_append, List.append_nil, fld_packAT_within_d,
    fld_packAT_within_a, fld_packAT_within_b, fld_packAT_within_k, fld_packAT_within_z, extract_append_high,
    extract_append_low, extract_all, Nat.reduceSub]
  first
  | rfl
  | simp (disch := decide) [need, coded, takeLit, Bind.bind, Except.bind, Pure.pure, Except.pure, fld_packAT_maj, fld_packAT_d,
    fld_packAT_a, fld_packAT_b, fld_packAT_k, fld_packAT_z, vB_bField _ _ hb, AOp.ofCode_code, ATy.ofCode_code,
    plainOrd_ordWord, polOrd_ordWord, atomOrd_ordWord, sOf7_s7, sLit_sWord, vLit_vWord, List.append_assoc,
    List.cons_append, List.nil_append, List.append_nil, fld_packAT_within_d, fld_packAT_within_a,
    fld_packAT_within_b, fld_packAT_within_k, fld_packAT_within_z, extract_append_high, extract_append_low,
    extract_all]

theorem vredm (op : AOp) (ty : ATy) (o : Ord) (d : VReg) (a : SReg) (b : BOp) : Statement (.vredm op ty o d a b) := by
  intro w ls rest hi he
  have hb : vbOk b = true := by
    have h2 := ((andThen_eq_none _ _).mp hi).1
    simp only [atomOk, mmOk, firstFailing_eq_none] at h2; simp at h2; tauto
  obtain ⟨rfl, rfl⟩ := List.cons.inj he
  rw [decodeFields_0x32 _ _ (by simp only [fld_packAT_maj, fld_packAT_d, fld_packAT_a, fld_packAT_b, fld_packAT_k, fld_packAT_z] <;> rfl)]
  unfold decAtomic
  simp (disch := decide) only [fld_packAT_maj, fld_packAT_d, fld_packAT_a, fld_packAT_b, fld_packAT_k, fld_packAT_z, vB_bField _ _ hb,
    AOp.ofCode_code, ATy.ofCode_code, plainOrd_ordWord, polOrd_ordWord, atomOrd_ordWord, sOf7_s7, sLit_sWord,
    vLit_vWord, List.append_assoc, List.cons_append, List.nil_append, List.append_nil, fld_packAT_within_d,
    fld_packAT_within_a, fld_packAT_within_b, fld_packAT_within_k, fld_packAT_within_z, extract_append_high,
    extract_append_low, extract_all, Nat.reduceSub]
  first
  | rfl
  | simp (disch := decide) [need, coded, takeLit, Bind.bind, Except.bind, Pure.pure, Except.pure, fld_packAT_maj, fld_packAT_d,
    fld_packAT_a, fld_packAT_b, fld_packAT_k, fld_packAT_z, vB_bField _ _ hb, AOp.ofCode_code, ATy.ofCode_code,
    plainOrd_ordWord, polOrd_ordWord, atomOrd_ordWord, sOf7_s7, sLit_sWord, vLit_vWord, List.append_assoc,
    List.cons_append, List.nil_append, List.append_nil, fld_packAT_within_d, fld_packAT_within_a,
    fld_packAT_within_b, fld_packAT_within_k, fld_packAT_within_z, extract_append_high, extract_append_low,
    extract_all]

theorem lredm (op : AOp) (ty : ATy) (o : Ord) (d : VReg) (a : SReg) (b : BOp) : Statement (.lredm op ty o d a b) := by
  intro w ls rest hi he
  have hb : vbOk b = true := by
    have h2 : firstFailing _ = none := hi
    rw [firstFailing_eq_none] at h2; simp at h2; tauto
  obtain ⟨rfl, rfl⟩ := List.cons.inj he
  rw [decodeFields_0x32 _ _ (by simp only [fld_packAT_maj, fld_packAT_d, fld_packAT_a, fld_packAT_b, fld_packAT_k, fld_packAT_z] <;> rfl)]
  unfold decAtomic
  simp (disch := decide) only [fld_packAT_maj, fld_packAT_d, fld_packAT_a, fld_packAT_b, fld_packAT_k, fld_packAT_z, vB_bField _ _ hb,
    AOp.ofCode_code, ATy.ofCode_code, plainOrd_ordWord, polOrd_ordWord, atomOrd_ordWord, sOf7_s7, sLit_sWord,
    vLit_vWord, List.append_assoc, List.cons_append, List.nil_append, List.append_nil, fld_packAT_within_d,
    fld_packAT_within_a, fld_packAT_within_b, fld_packAT_within_k, fld_packAT_within_z, extract_append_high,
    extract_append_low, extract_all, Nat.reduceSub]
  first
  | rfl
  | simp (disch := decide) [need, coded, takeLit, Bind.bind, Except.bind, Pure.pure, Except.pure, fld_packAT_maj, fld_packAT_d,
    fld_packAT_a, fld_packAT_b, fld_packAT_k, fld_packAT_z, vB_bField _ _ hb, AOp.ofCode_code, ATy.ofCode_code,
    plainOrd_ordWord, polOrd_ordWord, atomOrd_ordWord, sOf7_s7, sLit_sWord, vLit_vWord, List.append_assoc,
    List.cons_append, List.nil_append, List.append_nil, fld_packAT_within_d, fld_packAT_within_a,
    fld_packAT_within_b, fld_packAT_within_k, fld_packAT_within_z, extract_append_high, extract_append_low,
    extract_all]

theorem satom (op : AOp) (ty : ATy) (o : Ord) (d : SReg) (a : SReg) (b : SOp) : Statement (.satom op ty o d a b) := by
  intro w ls rest hi he
  have hb : sbOk b = true := by
    have h2 : firstFailing _ = none := hi
    rw [firstFailing_eq_none] at h2; simp at h2; tauto
  obtain ⟨rfl, rfl⟩ := List.cons.inj he
  rw [decodeFields_0x33 _ _ (by simp only [fld_packSR_maj, fld_packSR_d, fld_packSR_a, fld_packSR_b, fld_packSR_fn] <;> rfl)]
  unfold decScalarMem
  simp (disch := decide) only [fld_packSR_maj, fld_packSR_d, fld_packSR_a, fld_packSR_b, fld_packSR_fn, sB_sbField _ _ hb, AOp.ofCode_code,
    ATy.ofCode_code, plainOrd_ordWord, polOrd_ordWord, atomOrd_ordWord, sOf7_s7, sLit_sWord, vLit_vWord,
    List.append_assoc, List.cons_append, List.nil_append, List.append_nil, fld_packSR_within_d,
    fld_packSR_within_a, fld_packSR_within_b, fld_packSR_within_fn, extract_append_high, extract_append_low,
    extract_all, Nat.reduceSub]
  first
  | rfl
  | simp (disch := decide) [need, coded, takeLit, Bind.bind, Except.bind, Pure.pure, Except.pure, fld_packSR_maj, fld_packSR_d,
    fld_packSR_a, fld_packSR_b, fld_packSR_fn, sB_sbField _ _ hb, AOp.ofCode_code, ATy.ofCode_code,
    plainOrd_ordWord, polOrd_ordWord, atomOrd_ordWord, sOf7_s7, sLit_sWord, vLit_vWord, List.append_assoc,
    List.cons_append, List.nil_append, List.append_nil, fld_packSR_within_d, fld_packSR_within_a,
    fld_packSR_within_b, fld_packSR_within_fn, extract_append_high, extract_append_low, extract_all,
    fld_packSR_zeros]

theorem cpg (d : SReg) (ch : BitVec 3) (hd : BitVec 4) (hs : BitVec 4) (scope : Scope) (v : VReg) : Statement (.cpg d ch hd hs scope v) := by
  intro w ls rest hi he
  obtain ⟨rfl, rfl⟩ := List.cons.inj he
  rw [decodeFields_0x34 _ _ (by simp only [fld_packCP_maj, fld_packCP_op, fld_packCP_ch, fld_packCP_d, fld_packCP_hd, fld_packCP_hs, fld_packCP_scp,
      fld_packCP_xt] <;> rfl)]
  unfold decCopy
  simp (disch := decide) only [fld_packCP_maj, fld_packCP_op, fld_packCP_ch, fld_packCP_d, fld_packCP_hd, fld_packCP_hs, fld_packCP_scp,
    fld_packCP_xt, Scope.ofCode_code, sOf7_s7, sLit_sWord, vLit_vWord, List.append_assoc, List.cons_append,
    List.nil_append, List.append_nil, fld_packCP_within_op, fld_packCP_within_ch, fld_packCP_within_d,
    fld_packCP_within_hd, fld_packCP_within_hs, fld_packCP_within_scp, fld_packCP_within_xt, extract_append_high,
    extract_append_low, extract_all, Nat.reduceSub]
  first
  | rfl
  | simp (disch := decide) [need, coded, takeLit, Bind.bind, Except.bind, Pure.pure, Except.pure, fld_packCP_maj, fld_packCP_op,
    fld_packCP_ch, fld_packCP_d, fld_packCP_hd, fld_packCP_hs, fld_packCP_scp, fld_packCP_xt, Scope.ofCode_code,
    sOf7_s7, sLit_sWord, vLit_vWord, List.append_assoc, List.cons_append, List.nil_append, List.append_nil,
    fld_packCP_within_op, fld_packCP_within_ch, fld_packCP_within_d, fld_packCP_within_hd, fld_packCP_within_hs,
    fld_packCP_within_scp, fld_packCP_within_xt, extract_append_high, extract_append_low, extract_all,
    fld_packCP_zeros11, fld_packCP_zeros20]

theorem cps (d : SReg) (ch : BitVec 3) (hd : BitVec 4) (hs : BitVec 4) (scope : Scope) (v : VReg) : Statement (.cps d ch hd hs scope v) := by
  intro w ls rest hi he
  obtain ⟨rfl, rfl⟩ := List.cons.inj he
  rw [decodeFields_0x34 _ _ (by simp only [fld_packCP_maj, fld_packCP_op, fld_packCP_ch, fld_packCP_d, fld_packCP_hd, fld_packCP_hs, fld_packCP_scp,
      fld_packCP_xt] <;> rfl)]
  unfold decCopy
  simp (disch := decide) only [fld_packCP_maj, fld_packCP_op, fld_packCP_ch, fld_packCP_d, fld_packCP_hd, fld_packCP_hs, fld_packCP_scp,
    fld_packCP_xt, Scope.ofCode_code, sOf7_s7, sLit_sWord, vLit_vWord, List.append_assoc, List.cons_append,
    List.nil_append, List.append_nil, fld_packCP_within_op, fld_packCP_within_ch, fld_packCP_within_d,
    fld_packCP_within_hd, fld_packCP_within_hs, fld_packCP_within_scp, fld_packCP_within_xt, extract_append_high,
    extract_append_low, extract_all, Nat.reduceSub]
  first
  | rfl
  | simp (disch := decide) [need, coded, takeLit, Bind.bind, Except.bind, Pure.pure, Except.pure, fld_packCP_maj, fld_packCP_op,
    fld_packCP_ch, fld_packCP_d, fld_packCP_hd, fld_packCP_hs, fld_packCP_scp, fld_packCP_xt, Scope.ofCode_code,
    sOf7_s7, sLit_sWord, vLit_vWord, List.append_assoc, List.cons_append, List.nil_append, List.append_nil,
    fld_packCP_within_op, fld_packCP_within_ch, fld_packCP_within_d, fld_packCP_within_hd, fld_packCP_within_hs,
    fld_packCP_within_scp, fld_packCP_within_xt, extract_append_high, extract_append_low, extract_all,
    fld_packCP_zeros11, fld_packCP_zeros20]

theorem cpm (d : SReg) (ch : BitVec 3) (hs : BitVec 4) (scope : Scope) (m : SReg) : Statement (.cpm d ch hs scope m) := by
  intro w ls rest hi he
  obtain ⟨rfl, rfl⟩ := List.cons.inj he
  rw [decodeFields_0x34 _ _ (by simp only [fld_packCP_maj, fld_packCP_op, fld_packCP_ch, fld_packCP_d, fld_packCP_hd, fld_packCP_hs, fld_packCP_scp,
      fld_packCP_xt] <;> rfl)]
  unfold decCopy
  simp (disch := decide) only [fld_packCP_maj, fld_packCP_op, fld_packCP_ch, fld_packCP_d, fld_packCP_hd, fld_packCP_hs, fld_packCP_scp,
    fld_packCP_xt, Scope.ofCode_code, sOf7_s7, sLit_sWord, vLit_vWord, List.append_assoc, List.cons_append,
    List.nil_append, List.append_nil, fld_packCP_within_op, fld_packCP_within_ch, fld_packCP_within_d,
    fld_packCP_within_hd, fld_packCP_within_hs, fld_packCP_within_scp, fld_packCP_within_xt, extract_append_high,
    extract_append_low, extract_all, Nat.reduceSub]
  first
  | rfl
  | simp (disch := decide) [need, coded, takeLit, Bind.bind, Except.bind, Pure.pure, Except.pure, fld_packCP_maj, fld_packCP_op,
    fld_packCP_ch, fld_packCP_d, fld_packCP_hd, fld_packCP_hs, fld_packCP_scp, fld_packCP_xt, Scope.ofCode_code,
    sOf7_s7, sLit_sWord, vLit_vWord, List.append_assoc, List.cons_append, List.nil_append, List.append_nil,
    fld_packCP_within_op, fld_packCP_within_ch, fld_packCP_within_d, fld_packCP_within_hd, fld_packCP_within_hs,
    fld_packCP_within_scp, fld_packCP_within_xt, extract_append_high, extract_append_low, extract_all,
    fld_packCP_zeros11, fld_packCP_zeros20]

theorem cpwpWait (d : SReg) (ch : BitVec 3) (k : SReg) : Statement (.cpwpWait d ch k) := by
  intro w ls rest hi he
  obtain ⟨rfl, rfl⟩ := List.cons.inj he
  rw [decodeFields_0x34 _ _ (by simp only [fld_packCP_maj, fld_packCP_op, fld_packCP_ch, fld_packCP_d, fld_packCP_hd, fld_packCP_hs, fld_packCP_scp,
      fld_packCP_xt] <;> rfl)]
  unfold decCopy
  simp (disch := decide) only [fld_packCP_maj, fld_packCP_op, fld_packCP_ch, fld_packCP_d, fld_packCP_hd, fld_packCP_hs, fld_packCP_scp,
    fld_packCP_xt, sOf7_s7, sLit_sWord, vLit_vWord, List.append_assoc, List.cons_append, List.nil_append,
    List.append_nil, fld_packCP_within_op, fld_packCP_within_ch, fld_packCP_within_d, fld_packCP_within_hd,
    fld_packCP_within_hs, fld_packCP_within_scp, fld_packCP_within_xt, extract_append_high, extract_append_low,
    extract_all, Nat.reduceSub]
  first
  | rfl
  | simp (disch := decide) [need, coded, takeLit, Bind.bind, Except.bind, Pure.pure, Except.pure, fld_packCP_maj, fld_packCP_op,
    fld_packCP_ch, fld_packCP_d, fld_packCP_hd, fld_packCP_hs, fld_packCP_scp, fld_packCP_xt, sOf7_s7, sLit_sWord,
    vLit_vWord, List.append_assoc, List.cons_append, List.nil_append, List.append_nil, fld_packCP_within_op,
    fld_packCP_within_ch, fld_packCP_within_d, fld_packCP_within_hd, fld_packCP_within_hs, fld_packCP_within_scp,
    fld_packCP_within_xt, extract_append_high, extract_append_low, extract_all, fld_packCP_zeros11,
    fld_packCP_zeros20]

theorem cpwpAck (m : BitVec 2) (k : SReg) : Statement (.cpwpAck m k) := by
  intro w ls rest hi he
  obtain ⟨rfl, rfl⟩ := List.cons.inj he
  rw [decodeFields_0x34 _ _ (by simp only [fld_packCP_maj, fld_packCP_op, fld_packCP_ch, fld_packCP_d, fld_packCP_hd, fld_packCP_hs, fld_packCP_scp,
      fld_packCP_xt] <;> rfl)]
  unfold decCopy
  simp (disch := decide) only [fld_packCP_maj, fld_packCP_op, fld_packCP_ch, fld_packCP_d, fld_packCP_hd, fld_packCP_hs, fld_packCP_scp,
    fld_packCP_xt, sOf7_s7, sLit_sWord, vLit_vWord, List.append_assoc, List.cons_append, List.nil_append,
    List.append_nil, fld_packCP_within_op, fld_packCP_within_ch, fld_packCP_within_d, fld_packCP_within_hd,
    fld_packCP_within_hs, fld_packCP_within_scp, fld_packCP_within_xt, extract_append_high, extract_append_low,
    extract_all, Nat.reduceSub]
  first
  | rfl
  | simp (disch := decide) [need, coded, takeLit, Bind.bind, Except.bind, Pure.pure, Except.pure, fld_packCP_maj, fld_packCP_op,
    fld_packCP_ch, fld_packCP_d, fld_packCP_hd, fld_packCP_hs, fld_packCP_scp, fld_packCP_xt, sOf7_s7, sLit_sWord,
    vLit_vWord, List.append_assoc, List.cons_append, List.nil_append, List.append_nil, fld_packCP_within_op,
    fld_packCP_within_ch, fld_packCP_within_d, fld_packCP_within_hd, fld_packCP_within_hs, fld_packCP_within_scp,
    fld_packCP_within_xt, extract_append_high, extract_append_low, extract_all, fld_packCP_zeros11,
    fld_packCP_zeros20]

theorem cvst (d : VReg) (a : SReg) (b : BOp) (o : Option Ord) (pol : Policy) (z : Size) (t : SReg) : Statement (.cvst d a b o pol z t) := by
  intro w ls rest hi he
  have hb : vbOk b = true := by
    have h2 : firstFailing _ = none := hi
    rw [firstFailing_eq_none] at h2; simp at h2; tauto
  obtain ⟨rfl, rfl⟩ := List.cons.inj he
  rw [decodeFields_0x37 _ _ (by simp only [fld_packMM_maj, fld_packMM_d, fld_packMM_a, fld_packMM_b, fld_packMM_o, fld_packMM_p, fld_packMM_z] <;> rfl)]
  cases o
  all_goals
    unfold decAccess
    simp (disch := decide) only [fld_packMM_maj, fld_packMM_d, fld_packMM_a, fld_packMM_b, fld_packMM_o, fld_packMM_p, fld_packMM_z,
      vB_bField _ _ hb, Size.ofCode_code, Policy.ofCode_code, plainOrd_ordWord, polOrd_ordWord, atomOrd_ordWord,
      bitBool_boolBit, sOf7_s7, sLit_sWord, vLit_vWord, List.append_assoc, List.cons_append, List.nil_append,
      List.append_nil, fld_packMM_within_d, fld_packMM_within_a, fld_packMM_within_b, fld_packMM_within_p,
      fld_packMM_within_z, extract_append_high, extract_append_low, extract_all, Nat.reduceSub]
    first
    | rfl
    | simp (disch := decide) [need, coded, takeLit, Bind.bind, Except.bind, Pure.pure, Except.pure, fld_packMM_maj, fld_packMM_d,
      fld_packMM_a, fld_packMM_b, fld_packMM_o, fld_packMM_p, fld_packMM_z, vB_bField _ _ hb, Size.ofCode_code,
      Policy.ofCode_code, plainOrd_ordWord, polOrd_ordWord, atomOrd_ordWord, bitBool_boolBit, sOf7_s7, sLit_sWord,
      vLit_vWord, List.append_assoc, List.cons_append, List.nil_append, List.append_nil, fld_packMM_within_d,
      fld_packMM_within_a, fld_packMM_within_b, fld_packMM_within_p, fld_packMM_within_z, extract_append_high,
      extract_append_low, extract_all, boolBit]

theorem cvld (d : VReg) (a : SReg) (b : BOp) (o : Option Ord) (pol : Policy) (z : Size) (t : SReg) : Statement (.cvld d a b o pol z t) := by
  intro w ls rest hi he
  have hb : vbOk b = true := by
    have h2 : firstFailing _ = none := hi
    rw [firstFailing_eq_none] at h2; simp at h2; tauto
  obtain ⟨rfl, rfl⟩ := List.cons.inj he
  rw [decodeFields_0x38 _ _ (by simp only [fld_packMM_maj, fld_packMM_d, fld_packMM_a, fld_packMM_b, fld_packMM_o, fld_packMM_p, fld_packMM_z] <;> rfl)]
  cases o
  all_goals
    unfold decAccess
    simp (disch := decide) only [fld_packMM_maj, fld_packMM_d, fld_packMM_a, fld_packMM_b, fld_packMM_o, fld_packMM_p, fld_packMM_z,
      vB_bField _ _ hb, Size.ofCode_code, Policy.ofCode_code, plainOrd_ordWord, polOrd_ordWord, atomOrd_ordWord,
      bitBool_boolBit, sOf7_s7, sLit_sWord, vLit_vWord, List.append_assoc, List.cons_append, List.nil_append,
      List.append_nil, fld_packMM_within_d, fld_packMM_within_a, fld_packMM_within_b, fld_packMM_within_p,
      fld_packMM_within_z, extract_append_high, extract_append_low, extract_all, Nat.reduceSub]
    first
    | rfl
    | simp (disch := decide) [need, coded, takeLit, Bind.bind, Except.bind, Pure.pure, Except.pure, fld_packMM_maj, fld_packMM_d,
      fld_packMM_a, fld_packMM_b, fld_packMM_o, fld_packMM_p, fld_packMM_z, vB_bField _ _ hb, Size.ofCode_code,
      Policy.ofCode_code, plainOrd_ordWord, polOrd_ordWord, atomOrd_ordWord, bitBool_boolBit, sOf7_s7, sLit_sWord,
      vLit_vWord, List.append_assoc, List.cons_append, List.nil_append, List.append_nil, fld_packMM_within_d,
      fld_packMM_within_a, fld_packMM_within_b, fld_packMM_within_p, fld_packMM_within_z, extract_append_high,
      extract_append_low, extract_all, boolBit]

theorem kliLiteral (k : BitVec 4) (w0 : Word) : Statement (.kliLiteral k w0) := by
  intro w ls rest hi he
  obtain ⟨rfl, rfl⟩ := List.cons.inj he
  rw [decodeFields_0x3E _ _ (by simp only [fld_packMX_maj, fld_packMX_cd, fld_packMX_ma, fld_packMX_hh, fld_packMX_ru, fld_packMX_op, fld_packMX_fn] <;> rfl)]
  unfold decMatrix
  simp (disch := decide) only [fld_packMX_maj, fld_packMX_cd, fld_packMX_ma, fld_packMX_hh, fld_packMX_ru, fld_packMX_op, fld_packMX_fn,
    sOf7_s7, sLit_sWord, vLit_vWord, List.append_assoc, List.cons_append, List.nil_append, List.append_nil,
    fld_packMX_within_cd, fld_packMX_within_ma, fld_packMX_within_hh, fld_packMX_within_op, fld_packMX_within_fn,
    extract_append_high, extract_append_low, extract_all, Nat.reduceSub]
  first
  | rfl
  | simp (disch := decide) [need, coded, takeLit, Bind.bind, Except.bind, Pure.pure, Except.pure, fld_packMX_maj, fld_packMX_cd,
    fld_packMX_ma, fld_packMX_hh, fld_packMX_ru, fld_packMX_op, fld_packMX_fn, sOf7_s7, sLit_sWord, vLit_vWord,
    List.append_assoc, List.cons_append, List.nil_append, List.append_nil, fld_packMX_within_cd,
    fld_packMX_within_ma, fld_packMX_within_hh, fld_packMX_within_op, fld_packMX_within_fn, extract_append_high,
    extract_append_low, extract_all]

theorem clauseIssue (w0 : Who) : Statement (.clauseIssue w0) :=
  fun _ _ _ _ h => nomatch h

theorem starvationPromote (tid0 : Nat) (p0 : Nat) : Statement (.starvationPromote tid0 p0) :=
  fun _ _ _ _ h => nomatch h

theorem yieldTimeout (tid0 : Nat) (p0 : Nat) : Statement (.yieldTimeout tid0 p0) :=
  fun _ _ _ _ h => nomatch h

theorem runAhead (tid0 : Nat) (p0 : Nat) : Statement (.runAhead tid0 p0) :=
  fun _ _ _ _ h => nomatch h

theorem memoryReadResponse (tid0 : Nat) (p0 : Nat) (id0 : Nat) : Statement (.memoryReadResponse tid0 p0 id0) :=
  fun _ _ _ _ h => nomatch h

theorem wcbDrainTimeout (core0 : Nat) (line0 : Nat) : Statement (.wcbDrainTimeout core0 line0) :=
  fun _ _ _ _ h => nomatch h

theorem walkComplete (id0 : Nat) : Statement (.walkComplete id0) :=
  fun _ _ _ _ h => nomatch h

theorem tlbrngDone (id0 : Nat) : Statement (.tlbrngDone id0) :=
  fun _ _ _ _ h => nomatch h

theorem migrationBounce (id0 : Nat) : Statement (.migrationBounce id0) :=
  fun _ _ _ _ h => nomatch h

theorem migrationLineCopy (die0 : Nat) (frame0 : Nat) (line0 : Nat) : Statement (.migrationLineCopy die0 frame0 line0) :=
  fun _ _ _ _ h => nomatch h

theorem backgroundScrub (site0 : ErrSite) (uncorrectable0 : Bool) : Statement (.backgroundScrub site0 uncorrectable0) :=
  fun _ _ _ _ h => nomatch h

theorem refreshWindowOpen (die0 : Nat) : Statement (.refreshWindowOpen die0) :=
  fun _ _ _ _ h => nomatch h

theorem refreshWindowClose (die0 : Nat) : Statement (.refreshWindowClose die0) :=
  fun _ _ _ _ h => nomatch h

theorem copyDeliver (tid0 : Nat) (ch0 : Nat) (n0 : Nat) : Statement (.copyDeliver tid0 ch0 n0) :=
  fun _ _ _ _ h => nomatch h

theorem copyComplete (tid0 : Nat) (ch0 : Nat) : Statement (.copyComplete tid0 ch0) :=
  fun _ _ _ _ h => nomatch h

theorem ssuComplete (cluster0 : Nat) (core0 : Nat) : Statement (.ssuComplete cluster0 core0) :=
  fun _ _ _ _ h => nomatch h

theorem nePairGroup (cluster0 : Nat) : Statement (.nePairGroup cluster0) :=
  fun _ _ _ _ h => nomatch h

theorem neComplete (cluster0 : Nat) : Statement (.neComplete cluster0) :=
  fun _ _ _ _ h => nomatch h

theorem storeStreamDrained (tid0 : Nat) (p0 : Nat) (port0 : Nat) : Statement (.storeStreamDrained tid0 p0 port0) :=
  fun _ _ _ _ h => nomatch h

theorem passGrant (cluster0 : Nat) : Statement (.passGrant cluster0) :=
  fun _ _ _ _ h => nomatch h

theorem passRetire (tid0 : Nat) (id0 : Nat) (mismatch0 : Bool) (mismatch20 : Bool) : Statement (.passRetire tid0 id0 mismatch0 mismatch20) :=
  fun _ _ _ _ h => nomatch h

theorem matrixOpRetire (tid0 : Nat) (id0 : Nat) : Statement (.matrixOpRetire tid0 id0) :=
  fun _ _ _ _ h => nomatch h

theorem barrierPhaseComplete (b0 : BarRef) : Statement (.barrierPhaseComplete b0) :=
  fun _ _ _ _ h => nomatch h

theorem runBarrierMessage (run0 : Nat) (part0 : Nat × Nat × Nat) :
    Statement (.runBarrierMessage run0 part0) :=
  fun _ _ _ _ h => nomatch h

theorem stalledEmissionAccept (id0 : Nat) : Statement (.stalledEmissionAccept id0) :=
  fun _ _ _ _ h => nomatch h

theorem spillRefill (run0 : Nat) (die0 : Nat) (node0 : Nat) : Statement (.spillRefill run0 die0 node0) :=
  fun _ _ _ _ h => nomatch h

theorem gatherWindowExpiry (run0 : Nat) (die0 : Nat) (node0 : Nat) : Statement (.gatherWindowExpiry run0 die0 node0) :=
  fun _ _ _ _ h => nomatch h

theorem teamPlacement (die0 : Nat) (cores0 : List Nat) (nos0 : List Word) :
    Statement (.teamPlacement die0 cores0 nos0) :=
  fun _ _ _ _ h => nomatch h

theorem graphDeadlockDetect (run0 : Nat) (die0 : Nat) (nodes0 : List Nat) : Statement (.graphDeadlockDetect run0 die0 nodes0) :=
  fun _ _ _ _ h => nomatch h

theorem runSeed (run0 : Nat) (die0 : Nat) : Statement (.runSeed run0 die0) :=
  fun _ _ _ _ h => nomatch h

theorem teamRetire (tid0 : Nat) : Statement (.teamRetire tid0) :=
  fun _ _ _ _ h => nomatch h

theorem runComplete (run0 : Nat) : Statement (.runComplete run0) :=
  fun _ _ _ _ h => nomatch h

theorem faultStop (tid0 : Nat) : Statement (.faultStop tid0) :=
  fun _ _ _ _ h => nomatch h

theorem hangReport (tid0 : Nat) (p0 : Nat) : Statement (.hangReport tid0 p0) :=
  fun _ _ _ _ h => nomatch h

theorem clockGate (core0 : Nat) : Statement (.clockGate core0) :=
  fun _ _ _ _ h => nomatch h

theorem powerGate (core0 : Nat) : Statement (.powerGate core0) :=
  fun _ _ _ _ h => nomatch h

theorem coreWake (core0 : Nat) : Statement (.coreWake core0) :=
  fun _ _ _ _ h => nomatch h

theorem ladderDrainTimeout (q0 : Nat) : Statement (.ladderDrainTimeout q0) :=
  fun _ _ _ _ h => nomatch h

theorem ladderSaveTimeout (q0 : Nat) : Statement (.ladderSaveTimeout q0) :=
  fun _ _ _ _ h => nomatch h

theorem teamSaveComplete (tid0 : Nat) : Statement (.teamSaveComplete tid0) :=
  fun _ _ _ _ h => nomatch h

theorem teamResume (tid0 : Nat) (cores0 : List Nat) : Statement (.teamResume tid0 cores0) :=
  fun _ _ _ _ h => nomatch h

theorem timeSliceExpiry (q0 : Nat) : Statement (.timeSliceExpiry q0) :=
  fun _ _ _ _ h => nomatch h

theorem queueMap (q0 : Nat) (slot0 : Nat) (order0 : MapOrder) : Statement (.queueMap q0 slot0 order0) :=
  fun _ _ _ _ h => nomatch h

theorem queueUnmap (q0 : Nat) : Statement (.queueUnmap q0) :=
  fun _ _ _ _ h => nomatch h

theorem parkedWaitPoll : Statement (.parkedWaitPoll) :=
  fun _ _ _ _ h => nomatch h

theorem wsloadUnsealStart (q0 : Nat) : Statement (.wsloadUnsealStart q0) :=
  fun _ _ _ _ h => nomatch h

theorem wsloadComplete (q0 : Nat) (idx0 : Nat) : Statement (.wsloadComplete q0 idx0) :=
  fun _ _ _ _ h => nomatch h

theorem reductionEntryApply (die0 : Nat) (sector0 : Nat) : Statement (.reductionEntryApply die0 sector0) :=
  fun _ _ _ _ h => nomatch h

theorem convoyCommit (slot0 : Nat) : Statement (.convoyCommit slot0) :=
  fun _ _ _ _ h => nomatch h

theorem cvcloseDone (tid0 : Nat) (p0 : Nat) : Statement (.cvcloseDone tid0 p0) :=
  fun _ _ _ _ h => nomatch h

theorem remoteRequest (r0 : FabReq) : Statement (.remoteRequest r0) :=
  fun _ _ _ _ h => nomatch h

theorem remoteResponse (id0 : Nat) (r0 : FabResp) : Statement (.remoteResponse id0 r0) :=
  fun _ _ _ _ h => nomatch h

theorem fabricRetryBackoff (id0 : Nat) : Statement (.fabricRetryBackoff id0) :=
  fun _ _ _ _ h => nomatch h

theorem fabricTimeout (id0 : Nat) : Statement (.fabricTimeout id0) :=
  fun _ _ _ _ h => nomatch h

theorem atomicRecordExpiry (src0 : Nat) (agent0 : Nat) (seqno0 : BitVec 16) : Statement (.atomicRecordExpiry src0 agent0 seqno0) :=
  fun _ _ _ _ h => nomatch h

theorem dlFlitReceive (port0 : Nat) (flit0 : Flit) : Statement (.dlFlitReceive port0 flit0) :=
  fun _ _ _ _ h => nomatch h

theorem linkTraining (port0 : Nat) (offer0 : LinkOffer) : Statement (.linkTraining port0 offer0) :=
  fun _ _ _ _ h => nomatch h

theorem oldKeyExpiry : Statement (.oldKeyExpiry) :=
  fun _ _ _ _ h => nomatch h

theorem ptpMessage (offset0 : Int) : Statement (.ptpMessage offset0) :=
  fun _ _ _ _ h => nomatch h

theorem ppsInput (offset0 : Int) : Statement (.ppsInput offset0) :=
  fun _ _ _ _ h => nomatch h

theorem tbaseLock : Statement (.tbaseLock) :=
  fun _ _ _ _ h => nomatch h

theorem holdoverEntry : Statement (.holdoverEntry) :=
  fun _ _ _ _ h => nomatch h

theorem throttleUp (die0 : Nat) (reading0 : Reading) : Statement (.throttleUp die0 reading0) :=
  fun _ _ _ _ h => nomatch h

theorem throttleDown (die0 : Nat) : Statement (.throttleDown die0) :=
  fun _ _ _ _ h => nomatch h

theorem thermalTrip : Statement (.thermalTrip) :=
  fun _ _ _ _ h => nomatch h

theorem coolantFault : Statement (.coolantFault) :=
  fun _ _ _ _ h => nomatch h

theorem coldReset : Statement (.coldReset) :=
  fun _ _ _ _ h => nomatch h

theorem warmReset : Statement (.warmReset) :=
  fun _ _ _ _ h => nomatch h

theorem bringupPhaseComplete (ok0 : Bool) : Statement (.bringupPhaseComplete ok0) :=
  fun _ _ _ _ h => nomatch h

theorem functionLevelReset (f0 : Nat) : Statement (.functionLevelReset f0) :=
  fun _ _ _ _ h => nomatch h

theorem unitFence (u0 : FenceUnit) : Statement (.unitFence u0) :=
  fun _ _ _ _ h => nomatch h

theorem doorbell (f0 : Nat) (q0 : Nat) (v0 : Word) : Statement (.doorbell f0 q0 v0) :=
  fun _ _ _ _ h => nomatch h

theorem queueEnable (f0 : Nat) (q0 : Nat) : Statement (.queueEnable f0 q0) :=
  fun _ _ _ _ h => nomatch h

theorem queueDisable (f0 : Nat) (q0 : Nat) : Statement (.queueDisable f0 q0) :=
  fun _ _ _ _ h => nomatch h

theorem queueCtlReset (f0 : Nat) (q0 : Nat) : Statement (.queueCtlReset f0 q0) :=
  fun _ _ _ _ h => nomatch h

theorem queueCtlPreempt (f0 : Nat) (q0 : Nat) : Statement (.queueCtlPreempt f0 q0) :=
  fun _ _ _ _ h => nomatch h

theorem queueCtlResume (f0 : Nat) (q0 : Nat) : Statement (.queueCtlResume f0 q0) :=
  fun _ _ _ _ h => nomatch h

theorem queueInvalidate (f0 : Nat) (q0 : Nat) : Statement (.queueInvalidate f0 q0) :=
  fun _ _ _ _ h => nomatch h

theorem sigdbWrite (f0 : Nat) (va0 : DWord) : Statement (.sigdbWrite f0 va0) :=
  fun _ _ _ _ h => nomatch h

theorem flogdropClear (f0 : Nat) : Statement (.flogdropClear f0) :=
  fun _ _ _ _ h => nomatch h

theorem pwrcapWrite (f0 : Nat) (v0 : Word) : Statement (.pwrcapWrite f0 v0) :=
  fun _ _ _ _ h => nomatch h

theorem mailboxGo (f0 : Nat) : Statement (.mailboxGo f0) :=
  fun _ _ _ _ h => nomatch h

theorem mailboxVerifyDone (image0 : FwImage) (version0 : Word) (readOk0 : Bool) : Statement (.mailboxVerifyDone image0 version0 readOk0) :=
  fun _ _ _ _ h => nomatch h

theorem registerWrite (f0 : Nat) (r0 : HostReg) (v0 : DWord) : Statement (.registerWrite f0 r0 v0) :=
  fun _ _ _ _ h => nomatch h

theorem packetLaunch (q0 : Nat) : Statement (.packetLaunch q0) :=
  fun _ _ _ _ h => nomatch h

theorem packetWait (q0 : Nat) : Statement (.packetWait q0) :=
  fun _ _ _ _ h => nomatch h

theorem packetSignal (q0 : Nat) : Statement (.packetSignal q0) :=
  fun _ _ _ _ h => nomatch h

theorem packetWsload (q0 : Nat) : Statement (.packetWsload q0) :=
  fun _ _ _ _ h => nomatch h

theorem packetBarrier (q0 : Nat) : Statement (.packetBarrier q0) :=
  fun _ _ _ _ h => nomatch h

theorem packetPreempt (q0 : Nat) : Statement (.packetPreempt q0) :=
  fun _ _ _ _ h => nomatch h

theorem packetReset (q0 : Nat) : Statement (.packetReset q0) :=
  fun _ _ _ _ h => nomatch h

theorem getVersion : Statement (.getVersion) :=
  fun _ _ _ _ h => nomatch h

theorem getCapabilities : Statement (.getCapabilities) :=
  fun _ _ _ _ h => nomatch h

theorem negotiateAlgorithms : Statement (.negotiateAlgorithms) :=
  fun _ _ _ _ h => nomatch h

theorem getDigests : Statement (.getDigests) :=
  fun _ _ _ _ h => nomatch h

theorem getCertificate : Statement (.getCertificate) :=
  fun _ _ _ _ h => nomatch h

theorem challenge (nonce0 : Nat) : Statement (.challenge nonce0) :=
  fun _ _ _ _ h => nomatch h

theorem getMeasurements : Statement (.getMeasurements) :=
  fun _ _ _ _ h => nomatch h

theorem pldmMonitorRequest (w0 : PldmWhat) : Statement (.pldmMonitorRequest w0) :=
  fun _ _ _ _ h => nomatch h

theorem setRank (r0 : BitVec 12) : Statement (.setRank r0) :=
  fun _ _ _ _ h => nomatch h

theorem setKey (wrapped0 : Nat) (unwraps0 : Bool) : Statement (.setKey wrapped0 unwraps0) :=
  fun _ _ _ _ h => nomatch h

theorem keySwitch : Statement (.keySwitch) :=
  fun _ _ _ _ h => nomatch h

theorem zeroise : Statement (.zeroise) :=
  fun _ _ _ _ h => nomatch h

theorem setFto (ns0 : Nat) : Statement (.setFto ns0) :=
  fun _ _ _ _ h => nomatch h

theorem setCap (v0 : Word) : Statement (.setCap v0) :=
  fun _ _ _ _ h => nomatch h

theorem mgmtReset : Statement (.mgmtReset) :=
  fun _ _ _ _ h => nomatch h

theorem migrationTableEntry (die0 : Nat) (oldFrame0 : Nat) (size0 : Nat) (newFrame0 : Nat) (rank0 : Option Nat) : Statement (.migrationTableEntry die0 oldFrame0 size0 newFrame0 rank0) :=
  fun _ _ _ _ h => nomatch h

theorem migrationEntryRemoval (die0 : Nat) (oldFrame0 : Nat) : Statement (.migrationEntryRemoval die0 oldFrame0) :=
  fun _ _ _ _ h => nomatch h

theorem wsldComplete (id0 : Nat) : Statement (.wsldComplete id0) :=
  fun _ _ _ _ h => nomatch h

theorem queueResetComplete (q0 : Nat) : Statement (.queueResetComplete q0) :=
  fun _ _ _ _ h => nomatch h

theorem portGoesDown (port0 : Nat) : Statement (.portGoesDown port0) :=
  fun _ _ _ _ h => nomatch h

theorem configurationRequest (f0 : Nat) : Statement (.configurationRequest f0) :=
  fun _ _ _ _ h => nomatch h

end Sys2Proof.Laws.RoundTrip
end

