-- ==== Sys2Proof/Laws/State.lean ====
section
/-!
SUPPORT. What the operations that change one part of the state leave in every other field, so that no later proof unfolds a
record update.
-/

namespace Sys2Proof.Machine

open Sys2Proof

/-! ## A team changes -/

@[simp] theorem State.modTeam_teams (s : State) (i : Nat) (f : Team → Team) : (s.modTeam i f).teams = Map.update s.teams i f := rfl
@[simp] theorem State.modTeam_agenda (s : State) (i : Nat) (f : Team → Team) : (s.modTeam i f).agenda = s.agenda := rfl
@[simp] theorem State.modTeam_cur (s : State) (i : Nat) (f : Team → Team) : (s.modTeam i f).cur = s.cur := rfl
@[simp] theorem State.modTeam_nextId (s : State) (i : Nat) (f : Team → Team) : (s.modTeam i f).nextId = s.nextId := rfl
@[simp] theorem State.modTeam_free (s : State) (i : Nat) (f : Team → Team) : (s.modTeam i f).free = s.free := rfl
@[simp] theorem State.modTeam_stuck (s : State) (i : Nat) (f : Team → Team) : (s.modTeam i f).stuck = s.stuck := rfl
@[simp] theorem State.modTeam_missed (s : State) (i : Nat) (f : Team → Team) : (s.modTeam i f).missed = s.missed := rfl
@[simp] theorem State.modTeam_reader (s : State) (i : Nat) (f : Team → Team) : (s.modTeam i f).reader = s.reader := rfl
@[simp] theorem State.modTeam_wanted (s : State) (i : Nat) (f : Team → Team) : (s.modTeam i f).wanted = s.wanted := rfl
@[simp] theorem State.modTeam_peerData (s : State) (i : Nat) (f : Team → Team) : (s.modTeam i f).peerData = s.peerData := rfl
@[simp] theorem State.modTeam_stamped (s : State) (i : Nat) (f : Team → Team) : (s.modTeam i f).stamped = s.stamped := rfl
@[simp] theorem State.modTeam_corrected (s : State) (i : Nat) (f : Team → Team) : (s.modTeam i f).corrected = s.corrected := rfl
@[simp] theorem State.modTeam_clk (s : State) (i : Nat) (f : Team → Team) : (s.modTeam i f).clk = s.clk := rfl
@[simp] theorem State.modTeam_tbase (s : State) (i : Nat) (f : Team → Team) : (s.modTeam i f).tbase = s.tbase := rfl
@[simp] theorem State.modTeam_mem (s : State) (i : Nat) (f : Team → Team) : (s.modTeam i f).mem = s.mem := rfl
@[simp] theorem State.modTeam_poison (s : State) (i : Nat) (f : Team → Team) : (s.modTeam i f).poison = s.poison := rfl
@[simp] theorem State.modTeam_wcb (s : State) (i : Nat) (f : Team → Team) : (s.modTeam i f).wcb = s.wcb := rfl
@[simp] theorem State.modTeam_heldStores (s : State) (i : Nat) (f : Team → Team) : (s.modTeam i f).heldStores = s.heldStores := rfl
@[simp] theorem State.modTeam_reductions (s : State) (i : Nat) (f : Team → Team) : (s.modTeam i f).reductions = s.reductions := rfl
@[simp] theorem State.modTeam_tlbCore (s : State) (i : Nat) (f : Team → Team) : (s.modTeam i f).tlbCore = s.tlbCore := rfl
@[simp] theorem State.modTeam_tlbCluster (s : State) (i : Nat) (f : Team → Team) : (s.modTeam i f).tlbCluster = s.tlbCluster := rfl
@[simp] theorem State.modTeam_tlbDie (s : State) (i : Nat) (f : Team → Team) : (s.modTeam i f).tlbDie = s.tlbDie := rfl
@[simp] theorem State.modTeam_walks (s : State) (i : Nat) (f : Team → Team) : (s.modTeam i f).walks = s.walks := rfl
@[simp] theorem State.modTeam_contexts (s : State) (i : Nat) (f : Team → Team) : (s.modTeam i f).contexts = s.contexts := rfl
@[simp] theorem State.modTeam_invals (s : State) (i : Nat) (f : Team → Team) : (s.modTeam i f).invals = s.invals := rfl
@[simp] theorem State.modTeam_migrations (s : State) (i : Nat) (f : Team → Team) : (s.modTeam i f).migrations = s.migrations := rfl
@[simp] theorem State.modTeam_cvSlots (s : State) (i : Nat) (f : Team → Team) : (s.modTeam i f).cvSlots = s.cvSlots := rfl
@[simp] theorem State.modTeam_cvVersions (s : State) (i : Nat) (f : Team → Team) : (s.modTeam i f).cvVersions = s.cvVersions := rfl
@[simp] theorem State.modTeam_cvTable (s : State) (i : Nat) (f : Team → Team) : (s.modTeam i f).cvTable = s.cvTable := rfl
@[simp] theorem State.modTeam_cvOpeners (s : State) (i : Nat) (f : Team → Team) : (s.modTeam i f).cvOpeners = s.cvOpeners := rfl
@[simp] theorem State.modTeam_cvLines (s : State) (i : Nat) (f : Team → Team) : (s.modTeam i f).cvLines = s.cvLines := rfl
@[simp] theorem State.modTeam_cvLast (s : State) (i : Nat) (f : Team → Team) : (s.modTeam i f).cvLast = s.cvLast := rfl
@[simp] theorem State.modTeam_retCap (s : State) (i : Nat) (f : Team → Team) : (s.modTeam i f).retCap = s.retCap := rfl
@[simp] theorem State.modTeam_runs (s : State) (i : Nat) (f : Team → Team) : (s.modTeam i f).runs = s.runs := rfl
@[simp] theorem State.modTeam_joins (s : State) (i : Nat) (f : Team → Team) : (s.modTeam i f).joins = s.joins := rfl
@[simp] theorem State.modTeam_deferred (s : State) (i : Nat) (f : Team → Team) : (s.modTeam i f).deferred = s.deferred := rfl
@[simp] theorem State.modTeam_stalled (s : State) (i : Nat) (f : Team → Team) : (s.modTeam i f).stalled = s.stalled := rfl
@[simp] theorem State.modTeam_holds (s : State) (i : Nat) (f : Team → Team) : (s.modTeam i f).holds = s.holds := rfl
@[simp] theorem State.modTeam_clBarriers (s : State) (i : Nat) (f : Team → Team) : (s.modTeam i f).clBarriers = s.clBarriers := rfl
@[simp] theorem State.modTeam_ssu (s : State) (i : Nat) (f : Team → Team) : (s.modTeam i f).ssu = s.ssu := rfl
@[simp] theorem State.modTeam_ne (s : State) (i : Nat) (f : Team → Team) : (s.modTeam i f).ne = s.ne := rfl
@[simp] theorem State.modTeam_wsCopies (s : State) (i : Nat) (f : Team → Team) : (s.modTeam i f).wsCopies = s.wsCopies := rfl
@[simp] theorem State.modTeam_window (s : State) (i : Nat) (f : Team → Team) : (s.modTeam i f).window = s.window := rfl
@[simp] theorem State.modTeam_deadWatch (s : State) (i : Nat) (f : Team → Team) : (s.modTeam i f).deadWatch = s.deadWatch := rfl
@[simp] theorem State.modTeam_reserve (s : State) (i : Nat) (f : Team → Team) : (s.modTeam i f).reserve = s.reserve := rfl
@[simp] theorem State.modTeam_reserveOver (s : State) (i : Nat) (f : Team → Team) : (s.modTeam i f).reserveOver = s.reserveOver := rfl
@[simp] theorem State.modTeam_fenced (s : State) (i : Nat) (f : Team → Team) : (s.modTeam i f).fenced = s.fenced := rfl
@[simp] theorem State.modTeam_gated (s : State) (i : Nat) (f : Team → Team) : (s.modTeam i f).gated = s.gated := rfl
@[simp] theorem State.modTeam_coreLast (s : State) (i : Nat) (f : Team → Team) : (s.modTeam i f).coreLast = s.coreLast := rfl
@[simp] theorem State.modTeam_queues (s : State) (i : Nat) (f : Team → Team) : (s.modTeam i f).queues = s.queues := rfl
@[simp] theorem State.modTeam_fnPages (s : State) (i : Nat) (f : Team → Team) : (s.modTeam i f).fnPages = s.fnPages := rfl
@[simp] theorem State.modTeam_lastFn (s : State) (i : Nat) (f : Team → Team) : (s.modTeam i f).lastFn = s.lastFn := rfl
@[simp] theorem State.modTeam_polledAt (s : State) (i : Nat) (f : Team → Team) : (s.modTeam i f).polledAt = s.polledAt := rfl
@[simp] theorem State.modTeam_clusterFn (s : State) (i : Nat) (f : Team → Team) : (s.modTeam i f).clusterFn = s.clusterFn := rfl
@[simp] theorem State.modTeam_hbmFn (s : State) (i : Nat) (f : Team → Team) : (s.modTeam i f).hbmFn = s.hbmFn := rfl
@[simp] theorem State.modTeam_bankFn (s : State) (i : Nat) (f : Team → Team) : (s.modTeam i f).bankFn = s.bankFn := rfl
@[simp] theorem State.modTeam_phase (s : State) (i : Nat) (f : Team → Team) : (s.modTeam i f).phase = s.phase := rfl
@[simp] theorem State.modTeam_throttle (s : State) (i : Nat) (f : Team → Team) : (s.modTeam i f).throttle = s.throttle := rfl
@[simp] theorem State.modTeam_sensors (s : State) (i : Nat) (f : Team → Team) : (s.modTeam i f).sensors = s.sensors := rfl
@[simp] theorem State.modTeam_trip (s : State) (i : Nat) (f : Team → Team) : (s.modTeam i f).trip = s.trip := rfl
@[simp] theorem State.modTeam_cap (s : State) (i : Nat) (f : Team → Team) : (s.modTeam i f).cap = s.cap := rfl
@[simp] theorem State.modTeam_locked (s : State) (i : Nat) (f : Team → Team) : (s.modTeam i f).locked = s.locked := rfl
@[simp] theorem State.modTeam_holdover (s : State) (i : Nat) (f : Team → Team) : (s.modTeam i f).holdover = s.holdover := rfl
@[simp] theorem State.modTeam_lostAt (s : State) (i : Nat) (f : Team → Team) : (s.modTeam i f).lostAt = s.lostAt := rfl
@[simp] theorem State.modTeam_lastSync (s : State) (i : Nat) (f : Team → Team) : (s.modTeam i f).lastSync = s.lastSync := rfl
@[simp] theorem State.modTeam_lastPps (s : State) (i : Nat) (f : Team → Team) : (s.modTeam i f).lastPps = s.lastPps := rfl
@[simp] theorem State.modTeam_tolSince (s : State) (i : Nat) (f : Team → Team) : (s.modTeam i f).tolSince = s.tolSince := rfl
@[simp] theorem State.modTeam_tOffset (s : State) (i : Nat) (f : Team → Team) : (s.modTeam i f).tOffset = s.tOffset := rfl
@[simp] theorem State.modTeam_fto (s : State) (i : Nat) (f : Team → Team) : (s.modTeam i f).fto = s.fto := rfl
@[simp] theorem State.modTeam_hangt (s : State) (i : Nat) (f : Team → Team) : (s.modTeam i f).hangt = s.hangt := rfl
@[simp] theorem State.modTeam_rank (s : State) (i : Nat) (f : Team → Team) : (s.modTeam i f).rank = s.rank := rfl
@[simp] theorem State.modTeam_ranked (s : State) (i : Nat) (f : Team → Team) : (s.modTeam i f).ranked = s.ranked := rfl
@[simp] theorem State.modTeam_fabPorts (s : State) (i : Nat) (f : Team → Team) : (s.modTeam i f).fabPorts = s.fabPorts := rfl
@[simp] theorem State.modTeam_key (s : State) (i : Nat) (f : Team → Team) : (s.modTeam i f).key = s.key := rfl
@[simp] theorem State.modTeam_newKey (s : State) (i : Nat) (f : Team → Team) : (s.modTeam i f).newKey = s.newKey := rfl
@[simp] theorem State.modTeam_oldKey (s : State) (i : Nat) (f : Team → Team) : (s.modTeam i f).oldKey = s.oldKey := rfl
@[simp] theorem State.modTeam_outstanding (s : State) (i : Nat) (f : Team → Team) : (s.modTeam i f).outstanding = s.outstanding := rfl
@[simp] theorem State.modTeam_issuedTo (s : State) (i : Nat) (f : Team → Team) : (s.modTeam i f).issuedTo = s.issuedTo := rfl
@[simp] theorem State.modTeam_servedOf (s : State) (i : Nat) (f : Team → Team) : (s.modTeam i f).servedOf = s.servedOf := rfl
@[simp] theorem State.modTeam_reorder (s : State) (i : Nat) (f : Team → Team) : (s.modTeam i f).reorder = s.reorder := rfl
@[simp] theorem State.modTeam_lastReq (s : State) (i : Nat) (f : Team → Team) : (s.modTeam i f).lastReq = s.lastReq := rfl
@[simp] theorem State.modTeam_applied (s : State) (i : Nat) (f : Team → Team) : (s.modTeam i f).applied = s.applied := rfl
@[simp] theorem State.modTeam_minVersion (s : State) (i : Nat) (f : Team → Team) : (s.modTeam i f).minVersion = s.minVersion := rfl
@[simp] theorem State.modTeam_keyFuse (s : State) (i : Nat) (f : Team → Team) : (s.modTeam i f).keyFuse = s.keyFuse := rfl
@[simp] theorem State.modTeam_sigIndex (s : State) (i : Nat) (f : Team → Team) : (s.modTeam i f).sigIndex = s.sigIndex := rfl
@[simp] theorem State.modTeam_fwImage (s : State) (i : Nat) (f : Team → Team) : (s.modTeam i f).fwImage = s.fwImage := rfl
@[simp] theorem State.modTeam_fwVersion (s : State) (i : Nat) (f : Team → Team) : (s.modTeam i f).fwVersion = s.fwVersion := rfl
@[simp] theorem State.modTeam_sent (s : State) (i : Nat) (f : Team → Team) : (s.modTeam i f).sent = s.sent := rfl

/-! ## A party changes -/

@[simp] theorem State.modParty_teams (s : State) (i p : Nat) (f : Party → Party) :
    (s.modParty i p f).teams = Map.update s.teams i fun t => t.modParty p f := rfl
@[simp] theorem State.modParty_agenda (s : State) (i p : Nat) (f : Party → Party) : (s.modParty i p f).agenda = s.agenda := rfl
@[simp] theorem State.modParty_cur (s : State) (i p : Nat) (f : Party → Party) : (s.modParty i p f).cur = s.cur := rfl
@[simp] theorem State.modParty_nextId (s : State) (i p : Nat) (f : Party → Party) : (s.modParty i p f).nextId = s.nextId := rfl
@[simp] theorem State.modParty_free (s : State) (i p : Nat) (f : Party → Party) : (s.modParty i p f).free = s.free := rfl
@[simp] theorem State.modParty_stuck (s : State) (i p : Nat) (f : Party → Party) : (s.modParty i p f).stuck = s.stuck := rfl
@[simp] theorem State.modParty_missed (s : State) (i p : Nat) (f : Party → Party) : (s.modParty i p f).missed = s.missed := rfl
@[simp] theorem State.modParty_reader (s : State) (i p : Nat) (f : Party → Party) : (s.modParty i p f).reader = s.reader := rfl
@[simp] theorem State.modParty_wanted (s : State) (i p : Nat) (f : Party → Party) : (s.modParty i p f).wanted = s.wanted := rfl
@[simp] theorem State.modParty_peerData (s : State) (i p : Nat) (f : Party → Party) : (s.modParty i p f).peerData = s.peerData := rfl
@[simp] theorem State.modParty_stamped (s : State) (i p : Nat) (f : Party → Party) : (s.modParty i p f).stamped = s.stamped := rfl
@[simp] theorem State.modParty_corrected (s : State) (i p : Nat) (f : Party → Party) : (s.modParty i p f).corrected = s.corrected := rfl
@[simp] theorem State.modParty_clk (s : State) (i p : Nat) (f : Party → Party) : (s.modParty i p f).clk = s.clk := rfl
@[simp] theorem State.modParty_tbase (s : State) (i p : Nat) (f : Party → Party) : (s.modParty i p f).tbase = s.tbase := rfl
@[simp] theorem State.modParty_mem (s : State) (i p : Nat) (f : Party → Party) : (s.modParty i p f).mem = s.mem := rfl
@[simp] theorem State.modParty_poison (s : State) (i p : Nat) (f : Party → Party) : (s.modParty i p f).poison = s.poison := rfl
@[simp] theorem State.modParty_wcb (s : State) (i p : Nat) (f : Party → Party) : (s.modParty i p f).wcb = s.wcb := rfl
@[simp] theorem State.modParty_heldStores (s : State) (i p : Nat) (f : Party → Party) : (s.modParty i p f).heldStores = s.heldStores := rfl
@[simp] theorem State.modParty_reductions (s : State) (i p : Nat) (f : Party → Party) : (s.modParty i p f).reductions = s.reductions := rfl
@[simp] theorem State.modParty_tlbCore (s : State) (i p : Nat) (f : Party → Party) : (s.modParty i p f).tlbCore = s.tlbCore := rfl
@[simp] theorem State.modParty_tlbCluster (s : State) (i p : Nat) (f : Party → Party) : (s.modParty i p f).tlbCluster = s.tlbCluster := rfl
@[simp] theorem State.modParty_tlbDie (s : State) (i p : Nat) (f : Party → Party) : (s.modParty i p f).tlbDie = s.tlbDie := rfl
@[simp] theorem State.modParty_walks (s : State) (i p : Nat) (f : Party → Party) : (s.modParty i p f).walks = s.walks := rfl
@[simp] theorem State.modParty_contexts (s : State) (i p : Nat) (f : Party → Party) : (s.modParty i p f).contexts = s.contexts := rfl
@[simp] theorem State.modParty_invals (s : State) (i p : Nat) (f : Party → Party) : (s.modParty i p f).invals = s.invals := rfl
@[simp] theorem State.modParty_migrations (s : State) (i p : Nat) (f : Party → Party) : (s.modParty i p f).migrations = s.migrations := rfl
@[simp] theorem State.modParty_cvSlots (s : State) (i p : Nat) (f : Party → Party) : (s.modParty i p f).cvSlots = s.cvSlots := rfl
@[simp] theorem State.modParty_cvVersions (s : State) (i p : Nat) (f : Party → Party) : (s.modParty i p f).cvVersions = s.cvVersions := rfl
@[simp] theorem State.modParty_cvTable (s : State) (i p : Nat) (f : Party → Party) : (s.modParty i p f).cvTable = s.cvTable := rfl
@[simp] theorem State.modParty_cvOpeners (s : State) (i p : Nat) (f : Party → Party) : (s.modParty i p f).cvOpeners = s.cvOpeners := rfl
@[simp] theorem State.modParty_cvLines (s : State) (i p : Nat) (f : Party → Party) : (s.modParty i p f).cvLines = s.cvLines := rfl
@[simp] theorem State.modParty_cvLast (s : State) (i p : Nat) (f : Party → Party) : (s.modParty i p f).cvLast = s.cvLast := rfl
@[simp] theorem State.modParty_retCap (s : State) (i p : Nat) (f : Party → Party) : (s.modParty i p f).retCap = s.retCap := rfl
@[simp] theorem State.modParty_runs (s : State) (i p : Nat) (f : Party → Party) : (s.modParty i p f).runs = s.runs := rfl
@[simp] theorem State.modParty_joins (s : State) (i p : Nat) (f : Party → Party) : (s.modParty i p f).joins = s.joins := rfl
@[simp] theorem State.modParty_deferred (s : State) (i p : Nat) (f : Party → Party) : (s.modParty i p f).deferred = s.deferred := rfl
@[simp] theorem State.modParty_stalled (s : State) (i p : Nat) (f : Party → Party) : (s.modParty i p f).stalled = s.stalled := rfl
@[simp] theorem State.modParty_holds (s : State) (i p : Nat) (f : Party → Party) : (s.modParty i p f).holds = s.holds := rfl
@[simp] theorem State.modParty_clBarriers (s : State) (i p : Nat) (f : Party → Party) : (s.modParty i p f).clBarriers = s.clBarriers := rfl
@[simp] theorem State.modParty_ssu (s : State) (i p : Nat) (f : Party → Party) : (s.modParty i p f).ssu = s.ssu := rfl
@[simp] theorem State.modParty_ne (s : State) (i p : Nat) (f : Party → Party) : (s.modParty i p f).ne = s.ne := rfl
@[simp] theorem State.modParty_wsCopies (s : State) (i p : Nat) (f : Party → Party) : (s.modParty i p f).wsCopies = s.wsCopies := rfl
@[simp] theorem State.modParty_window (s : State) (i p : Nat) (f : Party → Party) : (s.modParty i p f).window = s.window := rfl
@[simp] theorem State.modParty_deadWatch (s : State) (i p : Nat) (f : Party → Party) : (s.modParty i p f).deadWatch = s.deadWatch := rfl
@[simp] theorem State.modParty_reserve (s : State) (i p : Nat) (f : Party → Party) : (s.modParty i p f).reserve = s.reserve := rfl
@[simp] theorem State.modParty_reserveOver (s : State) (i p : Nat) (f : Party → Party) : (s.modParty i p f).reserveOver = s.reserveOver := rfl
@[simp] theorem State.modParty_fenced (s : State) (i p : Nat) (f : Party → Party) : (s.modParty i p f).fenced = s.fenced := rfl
@[simp] theorem State.modParty_gated (s : State) (i p : Nat) (f : Party → Party) : (s.modParty i p f).gated = s.gated := rfl
@[simp] theorem State.modParty_coreLast (s : State) (i p : Nat) (f : Party → Party) : (s.modParty i p f).coreLast = s.coreLast := rfl
@[simp] theorem State.modParty_queues (s : State) (i p : Nat) (f : Party → Party) : (s.modParty i p f).queues = s.queues := rfl
@[simp] theorem State.modParty_fnPages (s : State) (i p : Nat) (f : Party → Party) : (s.modParty i p f).fnPages = s.fnPages := rfl
@[simp] theorem State.modParty_lastFn (s : State) (i p : Nat) (f : Party → Party) : (s.modParty i p f).lastFn = s.lastFn := rfl
@[simp] theorem State.modParty_polledAt (s : State) (i p : Nat) (f : Party → Party) : (s.modParty i p f).polledAt = s.polledAt := rfl
@[simp] theorem State.modParty_clusterFn (s : State) (i p : Nat) (f : Party → Party) : (s.modParty i p f).clusterFn = s.clusterFn := rfl
@[simp] theorem State.modParty_hbmFn (s : State) (i p : Nat) (f : Party → Party) : (s.modParty i p f).hbmFn = s.hbmFn := rfl
@[simp] theorem State.modParty_bankFn (s : State) (i p : Nat) (f : Party → Party) : (s.modParty i p f).bankFn = s.bankFn := rfl
@[simp] theorem State.modParty_phase (s : State) (i p : Nat) (f : Party → Party) : (s.modParty i p f).phase = s.phase := rfl
@[simp] theorem State.modParty_throttle (s : State) (i p : Nat) (f : Party → Party) : (s.modParty i p f).throttle = s.throttle := rfl
@[simp] theorem State.modParty_sensors (s : State) (i p : Nat) (f : Party → Party) : (s.modParty i p f).sensors = s.sensors := rfl
@[simp] theorem State.modParty_trip (s : State) (i p : Nat) (f : Party → Party) : (s.modParty i p f).trip = s.trip := rfl
@[simp] theorem State.modParty_cap (s : State) (i p : Nat) (f : Party → Party) : (s.modParty i p f).cap = s.cap := rfl
@[simp] theorem State.modParty_locked (s : State) (i p : Nat) (f : Party → Party) : (s.modParty i p f).locked = s.locked := rfl
@[simp] theorem State.modParty_holdover (s : State) (i p : Nat) (f : Party → Party) : (s.modParty i p f).holdover = s.holdover := rfl
@[simp] theorem State.modParty_lostAt (s : State) (i p : Nat) (f : Party → Party) : (s.modParty i p f).lostAt = s.lostAt := rfl
@[simp] theorem State.modParty_lastSync (s : State) (i p : Nat) (f : Party → Party) : (s.modParty i p f).lastSync = s.lastSync := rfl
@[simp] theorem State.modParty_lastPps (s : State) (i p : Nat) (f : Party → Party) : (s.modParty i p f).lastPps = s.lastPps := rfl
@[simp] theorem State.modParty_tolSince (s : State) (i p : Nat) (f : Party → Party) : (s.modParty i p f).tolSince = s.tolSince := rfl
@[simp] theorem State.modParty_tOffset (s : State) (i p : Nat) (f : Party → Party) : (s.modParty i p f).tOffset = s.tOffset := rfl
@[simp] theorem State.modParty_fto (s : State) (i p : Nat) (f : Party → Party) : (s.modParty i p f).fto = s.fto := rfl
@[simp] theorem State.modParty_hangt (s : State) (i p : Nat) (f : Party → Party) : (s.modParty i p f).hangt = s.hangt := rfl
@[simp] theorem State.modParty_rank (s : State) (i p : Nat) (f : Party → Party) : (s.modParty i p f).rank = s.rank := rfl
@[simp] theorem State.modParty_ranked (s : State) (i p : Nat) (f : Party → Party) : (s.modParty i p f).ranked = s.ranked := rfl
@[simp] theorem State.modParty_fabPorts (s : State) (i p : Nat) (f : Party → Party) : (s.modParty i p f).fabPorts = s.fabPorts := rfl
@[simp] theorem State.modParty_key (s : State) (i p : Nat) (f : Party → Party) : (s.modParty i p f).key = s.key := rfl
@[simp] theorem State.modParty_newKey (s : State) (i p : Nat) (f : Party → Party) : (s.modParty i p f).newKey = s.newKey := rfl
@[simp] theorem State.modParty_oldKey (s : State) (i p : Nat) (f : Party → Party) : (s.modParty i p f).oldKey = s.oldKey := rfl
@[simp] theorem State.modParty_outstanding (s : State) (i p : Nat) (f : Party → Party) : (s.modParty i p f).outstanding = s.outstanding := rfl
@[simp] theorem State.modParty_issuedTo (s : State) (i p : Nat) (f : Party → Party) : (s.modParty i p f).issuedTo = s.issuedTo := rfl
@[simp] theorem State.modParty_servedOf (s : State) (i p : Nat) (f : Party → Party) : (s.modParty i p f).servedOf = s.servedOf := rfl
@[simp] theorem State.modParty_reorder (s : State) (i p : Nat) (f : Party → Party) : (s.modParty i p f).reorder = s.reorder := rfl
@[simp] theorem State.modParty_lastReq (s : State) (i p : Nat) (f : Party → Party) : (s.modParty i p f).lastReq = s.lastReq := rfl
@[simp] theorem State.modParty_applied (s : State) (i p : Nat) (f : Party → Party) : (s.modParty i p f).applied = s.applied := rfl
@[simp] theorem State.modParty_minVersion (s : State) (i p : Nat) (f : Party → Party) : (s.modParty i p f).minVersion = s.minVersion := rfl
@[simp] theorem State.modParty_keyFuse (s : State) (i p : Nat) (f : Party → Party) : (s.modParty i p f).keyFuse = s.keyFuse := rfl
@[simp] theorem State.modParty_sigIndex (s : State) (i p : Nat) (f : Party → Party) : (s.modParty i p f).sigIndex = s.sigIndex := rfl
@[simp] theorem State.modParty_fwImage (s : State) (i p : Nat) (f : Party → Party) : (s.modParty i p f).fwImage = s.fwImage := rfl
@[simp] theorem State.modParty_fwVersion (s : State) (i p : Nat) (f : Party → Party) : (s.modParty i p f).fwVersion = s.fwVersion := rfl
@[simp] theorem State.modParty_sent (s : State) (i p : Nat) (f : Party → Party) : (s.modParty i p f).sent = s.sent := rfl

/-! ## A run changes -/

@[simp] theorem State.modRun_runs (s : State) (i : Nat) (f : Run → Run) : (s.modRun i f).runs = Map.update s.runs i f := rfl
@[simp] theorem State.modRun_agenda (s : State) (i : Nat) (f : Run → Run) : (s.modRun i f).agenda = s.agenda := rfl
@[simp] theorem State.modRun_cur (s : State) (i : Nat) (f : Run → Run) : (s.modRun i f).cur = s.cur := rfl
@[simp] theorem State.modRun_nextId (s : State) (i : Nat) (f : Run → Run) : (s.modRun i f).nextId = s.nextId := rfl
@[simp] theorem State.modRun_free (s : State) (i : Nat) (f : Run → Run) : (s.modRun i f).free = s.free := rfl
@[simp] theorem State.modRun_stuck (s : State) (i : Nat) (f : Run → Run) : (s.modRun i f).stuck = s.stuck := rfl
@[simp] theorem State.modRun_missed (s : State) (i : Nat) (f : Run → Run) : (s.modRun i f).missed = s.missed := rfl
@[simp] theorem State.modRun_reader (s : State) (i : Nat) (f : Run → Run) : (s.modRun i f).reader = s.reader := rfl
@[simp] theorem State.modRun_wanted (s : State) (i : Nat) (f : Run → Run) : (s.modRun i f).wanted = s.wanted := rfl
@[simp] theorem State.modRun_peerData (s : State) (i : Nat) (f : Run → Run) : (s.modRun i f).peerData = s.peerData := rfl
@[simp] theorem State.modRun_stamped (s : State) (i : Nat) (f : Run → Run) : (s.modRun i f).stamped = s.stamped := rfl
@[simp] theorem State.modRun_corrected (s : State) (i : Nat) (f : Run → Run) : (s.modRun i f).corrected = s.corrected := rfl
@[simp] theorem State.modRun_clk (s : State) (i : Nat) (f : Run → Run) : (s.modRun i f).clk = s.clk := rfl
@[simp] theorem State.modRun_tbase (s : State) (i : Nat) (f : Run → Run) : (s.modRun i f).tbase = s.tbase := rfl
@[simp] theorem State.modRun_mem (s : State) (i : Nat) (f : Run → Run) : (s.modRun i f).mem = s.mem := rfl
@[simp] theorem State.modRun_poison (s : State) (i : Nat) (f : Run → Run) : (s.modRun i f).poison = s.poison := rfl
@[simp] theorem State.modRun_wcb (s : State) (i : Nat) (f : Run → Run) : (s.modRun i f).wcb = s.wcb := rfl
@[simp] theorem State.modRun_heldStores (s : State) (i : Nat) (f : Run → Run) : (s.modRun i f).heldStores = s.heldStores := rfl
@[simp] theorem State.modRun_reductions (s : State) (i : Nat) (f : Run → Run) : (s.modRun i f).reductions = s.reductions := rfl
@[simp] theorem State.modRun_tlbCore (s : State) (i : Nat) (f : Run → Run) : (s.modRun i f).tlbCore = s.tlbCore := rfl
@[simp] theorem State.modRun_tlbCluster (s : State) (i : Nat) (f : Run → Run) : (s.modRun i f).tlbCluster = s.tlbCluster := rfl
@[simp] theorem State.modRun_tlbDie (s : State) (i : Nat) (f : Run → Run) : (s.modRun i f).tlbDie = s.tlbDie := rfl
@[simp] theorem State.modRun_walks (s : State) (i : Nat) (f : Run → Run) : (s.modRun i f).walks = s.walks := rfl
@[simp] theorem State.modRun_contexts (s : State) (i : Nat) (f : Run → Run) : (s.modRun i f).contexts = s.contexts := rfl
@[simp] theorem State.modRun_invals (s : State) (i : Nat) (f : Run → Run) : (s.modRun i f).invals = s.invals := rfl
@[simp] theorem State.modRun_migrations (s : State) (i : Nat) (f : Run → Run) : (s.modRun i f).migrations = s.migrations := rfl
@[simp] theorem State.modRun_cvSlots (s : State) (i : Nat) (f : Run → Run) : (s.modRun i f).cvSlots = s.cvSlots := rfl
@[simp] theorem State.modRun_cvVersions (s : State) (i : Nat) (f : Run → Run) : (s.modRun i f).cvVersions = s.cvVersions := rfl
@[simp] theorem State.modRun_cvTable (s : State) (i : Nat) (f : Run → Run) : (s.modRun i f).cvTable = s.cvTable := rfl
@[simp] theorem State.modRun_cvOpeners (s : State) (i : Nat) (f : Run → Run) : (s.modRun i f).cvOpeners = s.cvOpeners := rfl
@[simp] theorem State.modRun_cvLines (s : State) (i : Nat) (f : Run → Run) : (s.modRun i f).cvLines = s.cvLines := rfl
@[simp] theorem State.modRun_cvLast (s : State) (i : Nat) (f : Run → Run) : (s.modRun i f).cvLast = s.cvLast := rfl
@[simp] theorem State.modRun_retCap (s : State) (i : Nat) (f : Run → Run) : (s.modRun i f).retCap = s.retCap := rfl
@[simp] theorem State.modRun_teams (s : State) (i : Nat) (f : Run → Run) : (s.modRun i f).teams = s.teams := rfl
@[simp] theorem State.modRun_joins (s : State) (i : Nat) (f : Run → Run) : (s.modRun i f).joins = s.joins := rfl
@[simp] theorem State.modRun_deferred (s : State) (i : Nat) (f : Run → Run) : (s.modRun i f).deferred = s.deferred := rfl
@[simp] theorem State.modRun_stalled (s : State) (i : Nat) (f : Run → Run) : (s.modRun i f).stalled = s.stalled := rfl
@[simp] theorem State.modRun_holds (s : State) (i : Nat) (f : Run → Run) : (s.modRun i f).holds = s.holds := rfl
@[simp] theorem State.modRun_clBarriers (s : State) (i : Nat) (f : Run → Run) : (s.modRun i f).clBarriers = s.clBarriers := rfl
@[simp] theorem State.modRun_ssu (s : State) (i : Nat) (f : Run → Run) : (s.modRun i f).ssu = s.ssu := rfl
@[simp] theorem State.modRun_ne (s : State) (i : Nat) (f : Run → Run) : (s.modRun i f).ne = s.ne := rfl
@[simp] theorem State.modRun_wsCopies (s : State) (i : Nat) (f : Run → Run) : (s.modRun i f).wsCopies = s.wsCopies := rfl
@[simp] theorem State.modRun_window (s : State) (i : Nat) (f : Run → Run) : (s.modRun i f).window = s.window := rfl
@[simp] theorem State.modRun_deadWatch (s : State) (i : Nat) (f : Run → Run) : (s.modRun i f).deadWatch = s.deadWatch := rfl
@[simp] theorem State.modRun_reserve (s : State) (i : Nat) (f : Run → Run) : (s.modRun i f).reserve = s.reserve := rfl
@[simp] theorem State.modRun_reserveOver (s : State) (i : Nat) (f : Run → Run) : (s.modRun i f).reserveOver = s.reserveOver := rfl
@[simp] theorem State.modRun_fenced (s : State) (i : Nat) (f : Run → Run) : (s.modRun i f).fenced = s.fenced := rfl
@[simp] theorem State.modRun_gated (s : State) (i : Nat) (f : Run → Run) : (s.modRun i f).gated = s.gated := rfl
@[simp] theorem State.modRun_coreLast (s : State) (i : Nat) (f : Run → Run) : (s.modRun i f).coreLast = s.coreLast := rfl
@[simp] theorem State.modRun_queues (s : State) (i : Nat) (f : Run → Run) : (s.modRun i f).queues = s.queues := rfl
@[simp] theorem State.modRun_fnPages (s : State) (i : Nat) (f : Run → Run) : (s.modRun i f).fnPages = s.fnPages := rfl
@[simp] theorem State.modRun_lastFn (s : State) (i : Nat) (f : Run → Run) : (s.modRun i f).lastFn = s.lastFn := rfl
@[simp] theorem State.modRun_polledAt (s : State) (i : Nat) (f : Run → Run) : (s.modRun i f).polledAt = s.polledAt := rfl
@[simp] theorem State.modRun_clusterFn (s : State) (i : Nat) (f : Run → Run) : (s.modRun i f).clusterFn = s.clusterFn := rfl
@[simp] theorem State.modRun_hbmFn (s : State) (i : Nat) (f : Run → Run) : (s.modRun i f).hbmFn = s.hbmFn := rfl
@[simp] theorem State.modRun_bankFn (s : State) (i : Nat) (f : Run → Run) : (s.modRun i f).bankFn = s.bankFn := rfl
@[simp] theorem State.modRun_phase (s : State) (i : Nat) (f : Run → Run) : (s.modRun i f).phase = s.phase := rfl
@[simp] theorem State.modRun_throttle (s : State) (i : Nat) (f : Run → Run) : (s.modRun i f).throttle = s.throttle := rfl
@[simp] theorem State.modRun_sensors (s : State) (i : Nat) (f : Run → Run) : (s.modRun i f).sensors = s.sensors := rfl
@[simp] theorem State.modRun_trip (s : State) (i : Nat) (f : Run → Run) : (s.modRun i f).trip = s.trip := rfl
@[simp] theorem State.modRun_cap (s : State) (i : Nat) (f : Run → Run) : (s.modRun i f).cap = s.cap := rfl
@[simp] theorem State.modRun_locked (s : State) (i : Nat) (f : Run → Run) : (s.modRun i f).locked = s.locked := rfl
@[simp] theorem State.modRun_holdover (s : State) (i : Nat) (f : Run → Run) : (s.modRun i f).holdover = s.holdover := rfl
@[simp] theorem State.modRun_lostAt (s : State) (i : Nat) (f : Run → Run) : (s.modRun i f).lostAt = s.lostAt := rfl
@[simp] theorem State.modRun_lastSync (s : State) (i : Nat) (f : Run → Run) : (s.modRun i f).lastSync = s.lastSync := rfl
@[simp] theorem State.modRun_lastPps (s : State) (i : Nat) (f : Run → Run) : (s.modRun i f).lastPps = s.lastPps := rfl
@[simp] theorem State.modRun_tolSince (s : State) (i : Nat) (f : Run → Run) : (s.modRun i f).tolSince = s.tolSince := rfl
@[simp] theorem State.modRun_tOffset (s : State) (i : Nat) (f : Run → Run) : (s.modRun i f).tOffset = s.tOffset := rfl
@[simp] theorem State.modRun_fto (s : State) (i : Nat) (f : Run → Run) : (s.modRun i f).fto = s.fto := rfl
@[simp] theorem State.modRun_hangt (s : State) (i : Nat) (f : Run → Run) : (s.modRun i f).hangt = s.hangt := rfl
@[simp] theorem State.modRun_rank (s : State) (i : Nat) (f : Run → Run) : (s.modRun i f).rank = s.rank := rfl
@[simp] theorem State.modRun_ranked (s : State) (i : Nat) (f : Run → Run) : (s.modRun i f).ranked = s.ranked := rfl
@[simp] theorem State.modRun_fabPorts (s : State) (i : Nat) (f : Run → Run) : (s.modRun i f).fabPorts = s.fabPorts := rfl
@[simp] theorem State.modRun_key (s : State) (i : Nat) (f : Run → Run) : (s.modRun i f).key = s.key := rfl
@[simp] theorem State.modRun_newKey (s : State) (i : Nat) (f : Run → Run) : (s.modRun i f).newKey = s.newKey := rfl
@[simp] theorem State.modRun_oldKey (s : State) (i : Nat) (f : Run → Run) : (s.modRun i f).oldKey = s.oldKey := rfl
@[simp] theorem State.modRun_outstanding (s : State) (i : Nat) (f : Run → Run) : (s.modRun i f).outstanding = s.outstanding := rfl
@[simp] theorem State.modRun_issuedTo (s : State) (i : Nat) (f : Run → Run) : (s.modRun i f).issuedTo = s.issuedTo := rfl
@[simp] theorem State.modRun_servedOf (s : State) (i : Nat) (f : Run → Run) : (s.modRun i f).servedOf = s.servedOf := rfl
@[simp] theorem State.modRun_reorder (s : State) (i : Nat) (f : Run → Run) : (s.modRun i f).reorder = s.reorder := rfl
@[simp] theorem State.modRun_lastReq (s : State) (i : Nat) (f : Run → Run) : (s.modRun i f).lastReq = s.lastReq := rfl
@[simp] theorem State.modRun_applied (s : State) (i : Nat) (f : Run → Run) : (s.modRun i f).applied = s.applied := rfl
@[simp] theorem State.modRun_minVersion (s : State) (i : Nat) (f : Run → Run) : (s.modRun i f).minVersion = s.minVersion := rfl
@[simp] theorem State.modRun_keyFuse (s : State) (i : Nat) (f : Run → Run) : (s.modRun i f).keyFuse = s.keyFuse := rfl
@[simp] theorem State.modRun_sigIndex (s : State) (i : Nat) (f : Run → Run) : (s.modRun i f).sigIndex = s.sigIndex := rfl
@[simp] theorem State.modRun_fwImage (s : State) (i : Nat) (f : Run → Run) : (s.modRun i f).fwImage = s.fwImage := rfl
@[simp] theorem State.modRun_fwVersion (s : State) (i : Nat) (f : Run → Run) : (s.modRun i f).fwVersion = s.fwVersion := rfl
@[simp] theorem State.modRun_sent (s : State) (i : Nat) (f : Run → Run) : (s.modRun i f).sent = s.sent := rfl

/-! ## A free value is used -/

@[simp] theorem State.useFree_free (s : State) : s.useFree.free = s.free + 1 := rfl
@[simp] theorem State.useFree_agenda (s : State) : (s.useFree).agenda = s.agenda := rfl
@[simp] theorem State.useFree_cur (s : State) : (s.useFree).cur = s.cur := rfl
@[simp] theorem State.useFree_nextId (s : State) : (s.useFree).nextId = s.nextId := rfl
@[simp] theorem State.useFree_stuck (s : State) : (s.useFree).stuck = s.stuck := rfl
@[simp] theorem State.useFree_missed (s : State) : (s.useFree).missed = s.missed := rfl
@[simp] theorem State.useFree_reader (s : State) : (s.useFree).reader = s.reader := rfl
@[simp] theorem State.useFree_wanted (s : State) : (s.useFree).wanted = s.wanted := rfl
@[simp] theorem State.useFree_peerData (s : State) : (s.useFree).peerData = s.peerData := rfl
@[simp] theorem State.useFree_stamped (s : State) : (s.useFree).stamped = s.stamped := rfl
@[simp] theorem State.useFree_corrected (s : State) : (s.useFree).corrected = s.corrected := rfl
@[simp] theorem State.useFree_clk (s : State) : (s.useFree).clk = s.clk := rfl
@[simp] theorem State.useFree_tbase (s : State) : (s.useFree).tbase = s.tbase := rfl
@[simp] theorem State.useFree_mem (s : State) : (s.useFree).mem = s.mem := rfl
@[simp] theorem State.useFree_poison (s : State) : (s.useFree).poison = s.poison := rfl
@[simp] theorem State.useFree_wcb (s : State) : (s.useFree).wcb = s.wcb := rfl
@[simp] theorem State.useFree_heldStores (s : State) : (s.useFree).heldStores = s.heldStores := rfl
@[simp] theorem State.useFree_reductions (s : State) : (s.useFree).reductions = s.reductions := rfl
@[simp] theorem State.useFree_tlbCore (s : State) : (s.useFree).tlbCore = s.tlbCore := rfl
@[simp] theorem State.useFree_tlbCluster (s : State) : (s.useFree).tlbCluster = s.tlbCluster := rfl
@[simp] theorem State.useFree_tlbDie (s : State) : (s.useFree).tlbDie = s.tlbDie := rfl
@[simp] theorem State.useFree_walks (s : State) : (s.useFree).walks = s.walks := rfl
@[simp] theorem State.useFree_contexts (s : State) : (s.useFree).contexts = s.contexts := rfl
@[simp] theorem State.useFree_invals (s : State) : (s.useFree).invals = s.invals := rfl
@[simp] theorem State.useFree_migrations (s : State) : (s.useFree).migrations = s.migrations := rfl
@[simp] theorem State.useFree_cvSlots (s : State) : (s.useFree).cvSlots = s.cvSlots := rfl
@[simp] theorem State.useFree_cvVersions (s : State) : (s.useFree).cvVersions = s.cvVersions := rfl
@[simp] theorem State.useFree_cvTable (s : State) : (s.useFree).cvTable = s.cvTable := rfl
@[simp] theorem State.useFree_cvOpeners (s : State) : (s.useFree).cvOpeners = s.cvOpeners := rfl
@[simp] theorem State.useFree_cvLines (s : State) : (s.useFree).cvLines = s.cvLines := rfl
@[simp] theorem State.useFree_cvLast (s : State) : (s.useFree).cvLast = s.cvLast := rfl
@[simp] theorem State.useFree_retCap (s : State) : (s.useFree).retCap = s.retCap := rfl
@[simp] theorem State.useFree_teams (s : State) : (s.useFree).teams = s.teams := rfl
@[simp] theorem State.useFree_runs (s : State) : (s.useFree).runs = s.runs := rfl
@[simp] theorem State.useFree_joins (s : State) : (s.useFree).joins = s.joins := rfl
@[simp] theorem State.useFree_deferred (s : State) : (s.useFree).deferred = s.deferred := rfl
@[simp] theorem State.useFree_stalled (s : State) : (s.useFree).stalled = s.stalled := rfl
@[simp] theorem State.useFree_holds (s : State) : (s.useFree).holds = s.holds := rfl
@[simp] theorem State.useFree_clBarriers (s : State) : (s.useFree).clBarriers = s.clBarriers := rfl
@[simp] theorem State.useFree_ssu (s : State) : (s.useFree).ssu = s.ssu := rfl
@[simp] theorem State.useFree_ne (s : State) : (s.useFree).ne = s.ne := rfl
@[simp] theorem State.useFree_wsCopies (s : State) : (s.useFree).wsCopies = s.wsCopies := rfl
@[simp] theorem State.useFree_window (s : State) : (s.useFree).window = s.window := rfl
@[simp] theorem State.useFree_deadWatch (s : State) : (s.useFree).deadWatch = s.deadWatch := rfl
@[simp] theorem State.useFree_reserve (s : State) : (s.useFree).reserve = s.reserve := rfl
@[simp] theorem State.useFree_reserveOver (s : State) : (s.useFree).reserveOver = s.reserveOver := rfl
@[simp] theorem State.useFree_fenced (s : State) : (s.useFree).fenced = s.fenced := rfl
@[simp] theorem State.useFree_gated (s : State) : (s.useFree).gated = s.gated := rfl
@[simp] theorem State.useFree_coreLast (s : State) : (s.useFree).coreLast = s.coreLast := rfl
@[simp] theorem State.useFree_queues (s : State) : (s.useFree).queues = s.queues := rfl
@[simp] theorem State.useFree_fnPages (s : State) : (s.useFree).fnPages = s.fnPages := rfl
@[simp] theorem State.useFree_lastFn (s : State) : (s.useFree).lastFn = s.lastFn := rfl
@[simp] theorem State.useFree_polledAt (s : State) : (s.useFree).polledAt = s.polledAt := rfl
@[simp] theorem State.useFree_clusterFn (s : State) : (s.useFree).clusterFn = s.clusterFn := rfl
@[simp] theorem State.useFree_hbmFn (s : State) : (s.useFree).hbmFn = s.hbmFn := rfl
@[simp] theorem State.useFree_bankFn (s : State) : (s.useFree).bankFn = s.bankFn := rfl
@[simp] theorem State.useFree_phase (s : State) : (s.useFree).phase = s.phase := rfl
@[simp] theorem State.useFree_throttle (s : State) : (s.useFree).throttle = s.throttle := rfl
@[simp] theorem State.useFree_sensors (s : State) : (s.useFree).sensors = s.sensors := rfl
@[simp] theorem State.useFree_trip (s : State) : (s.useFree).trip = s.trip := rfl
@[simp] theorem State.useFree_cap (s : State) : (s.useFree).cap = s.cap := rfl
@[simp] theorem State.useFree_locked (s : State) : (s.useFree).locked = s.locked := rfl
@[simp] theorem State.useFree_holdover (s : State) : (s.useFree).holdover = s.holdover := rfl
@[simp] theorem State.useFree_lostAt (s : State) : (s.useFree).lostAt = s.lostAt := rfl
@[simp] theorem State.useFree_lastSync (s : State) : (s.useFree).lastSync = s.lastSync := rfl
@[simp] theorem State.useFree_lastPps (s : State) : (s.useFree).lastPps = s.lastPps := rfl
@[simp] theorem State.useFree_tolSince (s : State) : (s.useFree).tolSince = s.tolSince := rfl
@[simp] theorem State.useFree_tOffset (s : State) : (s.useFree).tOffset = s.tOffset := rfl
@[simp] theorem State.useFree_fto (s : State) : (s.useFree).fto = s.fto := rfl
@[simp] theorem State.useFree_hangt (s : State) : (s.useFree).hangt = s.hangt := rfl
@[simp] theorem State.useFree_rank (s : State) : (s.useFree).rank = s.rank := rfl
@[simp] theorem State.useFree_ranked (s : State) : (s.useFree).ranked = s.ranked := rfl
@[simp] theorem State.useFree_fabPorts (s : State) : (s.useFree).fabPorts = s.fabPorts := rfl
@[simp] theorem State.useFree_key (s : State) : (s.useFree).key = s.key := rfl
@[simp] theorem State.useFree_newKey (s : State) : (s.useFree).newKey = s.newKey := rfl
@[simp] theorem State.useFree_oldKey (s : State) : (s.useFree).oldKey = s.oldKey := rfl
@[simp] theorem State.useFree_outstanding (s : State) : (s.useFree).outstanding = s.outstanding := rfl
@[simp] theorem State.useFree_issuedTo (s : State) : (s.useFree).issuedTo = s.issuedTo := rfl
@[simp] theorem State.useFree_servedOf (s : State) : (s.useFree).servedOf = s.servedOf := rfl
@[simp] theorem State.useFree_reorder (s : State) : (s.useFree).reorder = s.reorder := rfl
@[simp] theorem State.useFree_lastReq (s : State) : (s.useFree).lastReq = s.lastReq := rfl
@[simp] theorem State.useFree_applied (s : State) : (s.useFree).applied = s.applied := rfl
@[simp] theorem State.useFree_minVersion (s : State) : (s.useFree).minVersion = s.minVersion := rfl
@[simp] theorem State.useFree_keyFuse (s : State) : (s.useFree).keyFuse = s.keyFuse := rfl
@[simp] theorem State.useFree_sigIndex (s : State) : (s.useFree).sigIndex = s.sigIndex := rfl
@[simp] theorem State.useFree_fwImage (s : State) : (s.useFree).fwImage = s.fwImage := rfl
@[simp] theorem State.useFree_fwVersion (s : State) : (s.useFree).fwVersion = s.fwVersion := rfl
@[simp] theorem State.useFree_sent (s : State) : (s.useFree).sent = s.sent := rfl

/-! ## Time passes -/

@[simp] theorem State.pass_clk (s : State) (a b : Nat) : (s.pass a b).clk = s.clk + BitVec.ofNat 64 a := rfl
@[simp] theorem State.pass_tbase (s : State) (a b : Nat) : (s.pass a b).tbase = s.tbase + BitVec.ofNat 64 (s.tbaseAdvance a b) := rfl
@[simp] theorem State.pass_agenda (s : State) (a b : Nat) : (s.pass a b).agenda = s.agenda := rfl
@[simp] theorem State.pass_cur (s : State) (a b : Nat) : (s.pass a b).cur = s.cur := rfl
@[simp] theorem State.pass_nextId (s : State) (a b : Nat) : (s.pass a b).nextId = s.nextId := rfl
@[simp] theorem State.pass_free (s : State) (a b : Nat) : (s.pass a b).free = s.free := rfl
@[simp] theorem State.pass_stuck (s : State) (a b : Nat) : (s.pass a b).stuck = s.stuck := rfl
@[simp] theorem State.pass_missed (s : State) (a b : Nat) : (s.pass a b).missed = s.missed := rfl
@[simp] theorem State.pass_reader (s : State) (a b : Nat) : (s.pass a b).reader = s.reader := rfl
@[simp] theorem State.pass_wanted (s : State) (a b : Nat) : (s.pass a b).wanted = s.wanted := rfl
@[simp] theorem State.pass_peerData (s : State) (a b : Nat) : (s.pass a b).peerData = s.peerData := rfl
@[simp] theorem State.pass_stamped (s : State) (a b : Nat) : (s.pass a b).stamped = s.stamped := rfl
@[simp] theorem State.pass_corrected (s : State) (a b : Nat) : (s.pass a b).corrected = s.corrected := rfl
@[simp] theorem State.pass_mem (s : State) (a b : Nat) : (s.pass a b).mem = s.mem := rfl
@[simp] theorem State.pass_poison (s : State) (a b : Nat) : (s.pass a b).poison = s.poison := rfl
@[simp] theorem State.pass_wcb (s : State) (a b : Nat) : (s.pass a b).wcb = s.wcb := rfl
@[simp] theorem State.pass_heldStores (s : State) (a b : Nat) : (s.pass a b).heldStores = s.heldStores := rfl
@[simp] theorem State.pass_reductions (s : State) (a b : Nat) : (s.pass a b).reductions = s.reductions := rfl
@[simp] theorem State.pass_tlbCore (s : State) (a b : Nat) : (s.pass a b).tlbCore = s.tlbCore := rfl
@[simp] theorem State.pass_tlbCluster (s : State) (a b : Nat) : (s.pass a b).tlbCluster = s.tlbCluster := rfl
@[simp] theorem State.pass_tlbDie (s : State) (a b : Nat) : (s.pass a b).tlbDie = s.tlbDie := rfl
@[simp] theorem State.pass_walks (s : State) (a b : Nat) : (s.pass a b).walks = s.walks := rfl
@[simp] theorem State.pass_contexts (s : State) (a b : Nat) : (s.pass a b).contexts = s.contexts := rfl
@[simp] theorem State.pass_invals (s : State) (a b : Nat) : (s.pass a b).invals = s.invals := rfl
@[simp] theorem State.pass_migrations (s : State) (a b : Nat) : (s.pass a b).migrations = s.migrations := rfl
@[simp] theorem State.pass_cvSlots (s : State) (a b : Nat) : (s.pass a b).cvSlots = s.cvSlots := rfl
@[simp] theorem State.pass_cvVersions (s : State) (a b : Nat) : (s.pass a b).cvVersions = s.cvVersions := rfl
@[simp] theorem State.pass_cvTable (s : State) (a b : Nat) : (s.pass a b).cvTable = s.cvTable := rfl
@[simp] theorem State.pass_cvOpeners (s : State) (a b : Nat) : (s.pass a b).cvOpeners = s.cvOpeners := rfl
@[simp] theorem State.pass_cvLines (s : State) (a b : Nat) : (s.pass a b).cvLines = s.cvLines := rfl
@[simp] theorem State.pass_cvLast (s : State) (a b : Nat) : (s.pass a b).cvLast = s.cvLast := rfl
@[simp] theorem State.pass_retCap (s : State) (a b : Nat) : (s.pass a b).retCap = s.retCap := rfl
@[simp] theorem State.pass_teams (s : State) (a b : Nat) : (s.pass a b).teams = s.teams := rfl
@[simp] theorem State.pass_runs (s : State) (a b : Nat) : (s.pass a b).runs = s.runs := rfl
@[simp] theorem State.pass_joins (s : State) (a b : Nat) : (s.pass a b).joins = s.joins := rfl
@[simp] theorem State.pass_deferred (s : State) (a b : Nat) : (s.pass a b).deferred = s.deferred := rfl
@[simp] theorem State.pass_stalled (s : State) (a b : Nat) : (s.pass a b).stalled = s.stalled := rfl
@[simp] theorem State.pass_holds (s : State) (a b : Nat) : (s.pass a b).holds = s.holds := rfl
@[simp] theorem State.pass_clBarriers (s : State) (a b : Nat) : (s.pass a b).clBarriers = s.clBarriers := rfl
@[simp] theorem State.pass_ssu (s : State) (a b : Nat) : (s.pass a b).ssu = s.ssu := rfl
@[simp] theorem State.pass_ne (s : State) (a b : Nat) : (s.pass a b).ne = s.ne := rfl
@[simp] theorem State.pass_wsCopies (s : State) (a b : Nat) : (s.pass a b).wsCopies = s.wsCopies := rfl
@[simp] theorem State.pass_window (s : State) (a b : Nat) : (s.pass a b).window = s.window := rfl
@[simp] theorem State.pass_deadWatch (s : State) (a b : Nat) : (s.pass a b).deadWatch = s.deadWatch := rfl
@[simp] theorem State.pass_reserve (s : State) (a b : Nat) : (s.pass a b).reserve = s.reserve := rfl
@[simp] theorem State.pass_reserveOver (s : State) (a b : Nat) : (s.pass a b).reserveOver = s.reserveOver := rfl
@[simp] theorem State.pass_fenced (s : State) (a b : Nat) : (s.pass a b).fenced = s.fenced := rfl
@[simp] theorem State.pass_gated (s : State) (a b : Nat) : (s.pass a b).gated = s.gated := rfl
@[simp] theorem State.pass_coreLast (s : State) (a b : Nat) : (s.pass a b).coreLast = s.coreLast := rfl
@[simp] theorem State.pass_queues (s : State) (a b : Nat) : (s.pass a b).queues = s.queues := rfl
@[simp] theorem State.pass_fnPages (s : State) (a b : Nat) : (s.pass a b).fnPages = s.fnPages := rfl
@[simp] theorem State.pass_lastFn (s : State) (a b : Nat) : (s.pass a b).lastFn = s.lastFn := rfl
@[simp] theorem State.pass_polledAt (s : State) (a b : Nat) : (s.pass a b).polledAt = s.polledAt := rfl
@[simp] theorem State.pass_clusterFn (s : State) (a b : Nat) : (s.pass a b).clusterFn = s.clusterFn := rfl
@[simp] theorem State.pass_hbmFn (s : State) (a b : Nat) : (s.pass a b).hbmFn = s.hbmFn := rfl
@[simp] theorem State.pass_bankFn (s : State) (a b : Nat) : (s.pass a b).bankFn = s.bankFn := rfl
@[simp] theorem State.pass_phase (s : State) (a b : Nat) : (s.pass a b).phase = s.phase := rfl
@[simp] theorem State.pass_throttle (s : State) (a b : Nat) : (s.pass a b).throttle = s.throttle := rfl
@[simp] theorem State.pass_sensors (s : State) (a b : Nat) : (s.pass a b).sensors = s.sensors := rfl
@[simp] theorem State.pass_trip (s : State) (a b : Nat) : (s.pass a b).trip = s.trip := rfl
@[simp] theorem State.pass_cap (s : State) (a b : Nat) : (s.pass a b).cap = s.cap := rfl
@[simp] theorem State.pass_locked (s : State) (a b : Nat) : (s.pass a b).locked = s.locked := rfl
@[simp] theorem State.pass_holdover (s : State) (a b : Nat) : (s.pass a b).holdover = s.holdover := rfl
@[simp] theorem State.pass_lostAt (s : State) (a b : Nat) : (s.pass a b).lostAt = s.lostAt := rfl
@[simp] theorem State.pass_lastSync (s : State) (a b : Nat) : (s.pass a b).lastSync = s.lastSync := rfl
@[simp] theorem State.pass_lastPps (s : State) (a b : Nat) : (s.pass a b).lastPps = s.lastPps := rfl
@[simp] theorem State.pass_tolSince (s : State) (a b : Nat) : (s.pass a b).tolSince = s.tolSince := rfl
@[simp] theorem State.pass_fto (s : State) (a b : Nat) : (s.pass a b).fto = s.fto := rfl
@[simp] theorem State.pass_hangt (s : State) (a b : Nat) : (s.pass a b).hangt = s.hangt := rfl
@[simp] theorem State.pass_rank (s : State) (a b : Nat) : (s.pass a b).rank = s.rank := rfl
@[simp] theorem State.pass_ranked (s : State) (a b : Nat) : (s.pass a b).ranked = s.ranked := rfl
@[simp] theorem State.pass_fabPorts (s : State) (a b : Nat) : (s.pass a b).fabPorts = s.fabPorts := rfl
@[simp] theorem State.pass_key (s : State) (a b : Nat) : (s.pass a b).key = s.key := rfl
@[simp] theorem State.pass_newKey (s : State) (a b : Nat) : (s.pass a b).newKey = s.newKey := rfl
@[simp] theorem State.pass_oldKey (s : State) (a b : Nat) : (s.pass a b).oldKey = s.oldKey := rfl
@[simp] theorem State.pass_outstanding (s : State) (a b : Nat) : (s.pass a b).outstanding = s.outstanding := rfl
@[simp] theorem State.pass_issuedTo (s : State) (a b : Nat) : (s.pass a b).issuedTo = s.issuedTo := rfl
@[simp] theorem State.pass_servedOf (s : State) (a b : Nat) : (s.pass a b).servedOf = s.servedOf := rfl
@[simp] theorem State.pass_reorder (s : State) (a b : Nat) : (s.pass a b).reorder = s.reorder := rfl
@[simp] theorem State.pass_lastReq (s : State) (a b : Nat) : (s.pass a b).lastReq = s.lastReq := rfl
@[simp] theorem State.pass_applied (s : State) (a b : Nat) : (s.pass a b).applied = s.applied := rfl
@[simp] theorem State.pass_minVersion (s : State) (a b : Nat) : (s.pass a b).minVersion = s.minVersion := rfl
@[simp] theorem State.pass_keyFuse (s : State) (a b : Nat) : (s.pass a b).keyFuse = s.keyFuse := rfl
@[simp] theorem State.pass_sigIndex (s : State) (a b : Nat) : (s.pass a b).sigIndex = s.sigIndex := rfl
@[simp] theorem State.pass_fwImage (s : State) (a b : Nat) : (s.pass a b).fwImage = s.fwImage := rfl
@[simp] theorem State.pass_fwVersion (s : State) (a b : Nat) : (s.pass a b).fwVersion = s.fwVersion := rfl
@[simp] theorem State.pass_sent (s : State) (a b : Nat) : (s.pass a b).sent = s.sent := rfl

/-! ## A party of a team changes -/

@[simp] theorem Team.modParty_parties (t : Team) (p : Nat) (f : Party → Party) :
    (t.modParty p f).parties = Map.update t.parties p f := rfl
@[simp] theorem Team.modParty_state (t : Team) (p : Nat) (f : Party → Party) : (t.modParty p f).state = t.state := rfl
@[simp] theorem Team.modParty_run (t : Team) (p : Nat) (f : Party → Party) : (t.modParty p f).run = t.run := rfl
@[simp] theorem Team.modParty_node (t : Team) (p : Nat) (f : Party → Party) : (t.modParty p f).node = t.node := rfl
@[simp] theorem Team.modParty_die (t : Team) (p : Nat) (f : Party → Party) : (t.modParty p f).die = t.die := rfl
@[simp] theorem Team.modParty_core (t : Team) (p : Nat) (f : Party → Party) : (t.modParty p f).core = t.core := rfl
@[simp] theorem Team.modParty_lastCore (t : Team) (p : Nat) (f : Party → Party) : (t.modParty p f).lastCore = t.lastCore := rfl
@[simp] theorem Team.modParty_teamNo (t : Team) (p : Nat) (f : Party → Party) : (t.modParty p f).teamNo = t.teamNo := rfl
@[simp] theorem Team.modParty_vcore (t : Team) (p : Nat) (f : Party → Party) : (t.modParty p f).vcore = t.vcore := rfl
@[simp] theorem Team.modParty_group (t : Team) (p : Nat) (f : Party → Party) : (t.modParty p f).group = t.group := rfl
@[simp] theorem Team.modParty_mig (t : Team) (p : Nat) (f : Party → Party) : (t.modParty p f).mig = t.mig := rfl
@[simp] theorem Team.modParty_handles (t : Team) (p : Nat) (f : Party → Party) : (t.modParty p f).handles = t.handles := rfl
@[simp] theorem Team.modParty_ls (t : Team) (p : Nat) (f : Party → Party) : (t.modParty p f).ls = t.ls := rfl
@[simp] theorem Team.modParty_lsSize (t : Team) (p : Nat) (f : Party → Party) : (t.modParty p f).lsSize = t.lsSize := rfl
@[simp] theorem Team.modParty_lsPoison (t : Team) (p : Nat) (f : Party → Party) : (t.modParty p f).lsPoison = t.lsPoison := rfl
@[simp] theorem Team.modParty_accPoison (t : Team) (p : Nat) (f : Party → Party) : (t.modParty p f).accPoison = t.accPoison := rfl
@[simp] theorem Team.modParty_acc (t : Team) (p : Nat) (f : Party → Party) : (t.modParty p f).acc = t.acc := rfl
@[simp] theorem Team.modParty_tiles (t : Team) (p : Nat) (f : Party → Party) : (t.modParty p f).tiles = t.tiles := rfl
@[simp] theorem Team.modParty_tile0 (t : Team) (p : Nat) (f : Party → Party) : (t.modParty p f).tile0 = t.tile0 := rfl
@[simp] theorem Team.modParty_aregs (t : Team) (p : Nat) (f : Party → Party) : (t.modParty p f).aregs = t.aregs := rfl
@[simp] theorem Team.modParty_seq (t : Team) (p : Nat) (f : Party → Party) : (t.modParty p f).seq = t.seq := rfl
@[simp] theorem Team.modParty_channels (t : Team) (p : Nat) (f : Party → Party) : (t.modParty p f).channels = t.channels := rfl
@[simp] theorem Team.modParty_free (t : Team) (p : Nat) (f : Party → Party) : (t.modParty p f).free = t.free := rfl
@[simp] theorem Team.modParty_sent (t : Team) (p : Nat) (f : Party → Party) : (t.modParty p f).sent = t.sent := rfl
@[simp] theorem Team.modParty_recv (t : Team) (p : Nat) (f : Party → Party) : (t.modParty p f).recv = t.recv := rfl
@[simp] theorem Team.modParty_acked (t : Team) (p : Nat) (f : Party → Party) : (t.modParty p f).acked = t.acked := rfl
@[simp] theorem Team.modParty_barriers (t : Team) (p : Nat) (f : Party → Party) : (t.modParty p f).barriers = t.barriers := rfl
@[simp] theorem Team.modParty_neStatus (t : Team) (p : Nat) (f : Party → Party) : (t.modParty p f).neStatus = t.neStatus := rfl
@[simp] theorem Team.modParty_lko (t : Team) (p : Nat) (f : Party → Party) : (t.modParty p f).lko = t.lko := rfl
@[simp] theorem Team.modParty_lkoNew (t : Team) (p : Nat) (f : Party → Party) : (t.modParty p f).lkoNew = t.lkoNew := rfl
@[simp] theorem Team.modParty_fault (t : Team) (p : Nat) (f : Party → Party) : (t.modParty p f).fault = t.fault := rfl
@[simp] theorem Team.modParty_stamp (t : Team) (p : Nat) (f : Party → Party) : (t.modParty p f).stamp = t.stamp := rfl
@[simp] theorem Team.modParty_teamRecords (t : Team) (p : Nat) (f : Party → Party) : (t.modParty p f).teamRecords = t.teamRecords := rfl
@[simp] theorem Team.modParty_lastExit (t : Team) (p : Nat) (f : Party → Party) : (t.modParty p f).lastExit = t.lastExit := rfl

end Sys2Proof.Machine
end

