-- ==== Sys2Proof/Laws/Registers.lean ====
section
/-!
SUPPORT. What writing a register, a lane, a slot or a party leaves to be read: one lemma per operation.
-/

namespace Sys2Proof.Machine

open Sys2Proof

/-! ## Slots -/

@[simp] theorem Party.slot_setSlot_self (q : Party) (b : Bool) (x : Slot) : (q.setSlot b x).slot b = x := by cases b <;> rfl

@[simp] theorem Party.slot_setSlot_other (q : Party) (b : Bool) (x : Slot) : (q.setSlot b x).slot (!b) = q.slot (!b) := by
  cases b <;> rfl

@[simp] theorem Party.slot_modSlot_self (q : Party) (b : Bool) (f : Slot → Slot) : (q.modSlot b f).slot b = f (q.slot b) := by
  cases b <;> rfl

@[simp] theorem Party.slot_modSlot_other (q : Party) (b : Bool) (f : Slot → Slot) :
    (q.modSlot b f).slot (!b) = q.slot (!b) := by cases b <;> rfl

@[simp] theorem Party.modSlot_live (q : Party) (b : Bool) (f : Slot → Slot) : (q.modSlot b f).live = q.live := by
  cases b <;> rfl

@[simp] theorem Party.modSlot_sregs (q : Party) (b : Bool) (f : Slot → Slot) : (q.modSlot b f).sregs = q.sregs := by
  cases b <;> rfl

@[simp] theorem Party.modSlot_vregs (q : Party) (b : Bool) (f : Slot → Slot) : (q.modSlot b f).vregs = q.vregs := by
  cases b <;> rfl

@[simp] theorem Party.modSlot_warn (q : Party) (b : Bool) (f : Slot → Slot) : (q.modSlot b f).warn = q.warn := by
  cases b <;> rfl

/-! ## Scalar registers -/

/-- s0 discards what is written. -/
@[simp] theorem Party.setS_zero (q : Party) (b : Bool) (v : Word) : q.setS b 0 v = q := rfl

/-- s0 reads zero. -/
@[simp] theorem Party.getS_zero (q : Party) (b : Bool) : q.getS b 0 = 0 := rfl

/-- A scalar register that holds a value, written. -/
theorem Party.setS_plain (q : Party) (b : Bool) {n : Nat} (v : Word) (h : 1 ≤ n) (h' : n ≤ 60) :
    q.setS b n v = { q with sregs := Store.write q.sregs n v } := by
  unfold Party.setS
  rw [if_neg (by omega), if_neg (by omega)]

/-- A scalar register that holds a value, read. -/
theorem Party.getS_plain (q : Party) (b : Bool) {n : Nat} (h : 1 ≤ n) (h' : n ≤ 60) : q.getS b n = Store.read q.sregs n := by
  unfold Party.getS
  rw [if_neg (by omega), if_neg (by omega)]

@[simp] theorem Party.setS_vregs (q : Party) (b : Bool) (n : Nat) (v : Word) : (q.setS b n v).vregs = q.vregs := by
  unfold Party.setS
  split
  · rfl
  · split
    · simp
    · rfl

@[simp] theorem Party.setS_live (q : Party) (b : Bool) (n : Nat) (v : Word) : (q.setS b n v).live = q.live := by
  unfold Party.setS
  split
  · rfl
  · split
    · simp
    · rfl

@[simp] theorem Party.setS_warn (q : Party) (b : Bool) (n : Nat) (v : Word) : (q.setS b n v).warn = q.warn := by
  unfold Party.setS
  split
  · rfl
  · split
    · simp
    · rfl

/-! ## Vector registers -/

theorem mem_maskLanes {m : Mask} {l : Nat} (h : l < 96) : l ∈ maskLanes m ↔ inMask m l = true := by
  simp [maskLanes, lanes, h]

theorem lt_of_mem_maskLanes {m : Mask} {l : Nat} (h : l ∈ maskLanes m) : l < 96 := by
  simp only [maskLanes, lanes, List.mem_filter, List.mem_range] at h
  exact h.1

/-- What the lanes of a list, written to a register, leave to be read in every lane of every register. -/
theorem read_writeLanes (m : Store 32) (n : Nat) (f : Nat → Word) (ls : List Nat) (k l : Nat) (hl : l < 96)
    (hls : ∀ x ∈ ls, x < 96) :
    Store.read (writeLanes m n f ls) (96 * k + l) = if k = n ∧ l ∈ ls then f l else Store.read m (96 * k + l) := by
  induction ls generalizing m with
  | nil => simp [writeLanes]
  | cons x t ih =>
    simp only [writeLanes]
    rw [ih _ (fun y hy => hls y (by simp [hy])), Store.read_write]
    have := hls x (by simp)
    by_cases h : k = n ∧ l ∈ t
    · simp [h]
    · by_cases h2 : k = n ∧ l = x
      · obtain ⟨rfl, rfl⟩ := h2
        simp
      · have h3 : ¬(96 * k + l = 96 * n + x) := by
          intro h4
          apply h2
          constructor <;> omega
        simp only [h, h3, if_false, List.mem_cons]
        rw [if_neg]
        rintro ⟨rfl, rfl | h5⟩
        · exact h2 ⟨rfl, rfl⟩
        · exact h ⟨rfl, h5⟩

/-- The register written, read in one lane. -/
theorem Party.getV_setV_self (q : Party) {n : Nat} (m : Mask) (f : Nat → Word) (h : q.storePort n = none) {l : Nat}
    (hl : l < 96) : (q.setV n m f).getV n l = if inMask m l = true then f l else q.getV n l := by
  simp only [Party.setV, h, Party.getV]
  rw [read_writeLanes _ _ _ _ _ _ hl fun _ => lt_of_mem_maskLanes]
  simp [mem_maskLanes hl]

/-- Another register than the one written. -/
theorem Party.getV_setV_ne (q : Party) {n k : Nat} (m : Mask) (f : Nat → Word) (h : q.storePort n = none) (hk : k ≠ n)
    {l : Nat} (hl : l < 96) : (q.setV n m f).getV k l = q.getV k l := by
  simp only [Party.setV, h, Party.getV]
  rw [read_writeLanes _ _ _ _ _ _ hl fun _ => lt_of_mem_maskLanes]
  simp [hk]

/-! ## Parties -/

/-- A party changed, where it stands. -/
theorem State.party_modParty (s : State) (i p : Nat) (f : Party → Party) : (s.modParty i p f).party? i p = (s.party? i p).map f := by
  unfold State.party?
  simp only [State.modParty_teams, Map.find_update, if_true]
  cases h : Map.find s.teams i <;> simp

/-- Two changes that agree on the value at a key change a map alike. -/
theorem Map.update_congr {α : Type} {m : Map α} {k : Nat} {x : α} {f g : α → α} (hx : Map.find m k = some x) (h : f x = g x) :
    Map.update m k f = Map.update m k g := by
  induction m with
  | nil => rfl
  | cons y t ih =>
    obtain ⟨j, y⟩ := y
    by_cases hj : j = k
    · simp only [Map.find, hj, if_true, Option.some.injEq] at hx
      simp [Map.update, hj, hx, h]
    · simp only [Map.find, hj, if_false] at hx
      simp [Map.update, hj, ih hx]

/-- A change of a party is given by what it makes of the party. -/
theorem State.modParty_congr {s : State} {i p : Nat} {q : Party} {f g : Party → Party} (hq : s.party? i p = some q) (h : f q = g q) :
    s.modParty i p f = s.modParty i p g := by
  unfold State.party? at hq
  cases ht : Map.find s.teams i with
  | none => simp [ht] at hq
  | some t =>
    simp only [ht] at hq
    simp only [State.modParty, State.modTeam]
    rw [Map.update_congr (f := fun t => t.modParty p f) (g := fun t => t.modParty p g) ht]
    simp only [Team.modParty, Map.update_congr hq h]

end Sys2Proof.Machine
end

