-- ==== Sys2Proof/Laws/Release.lean ====
section
/-!
SUPPORT. A release meets no wait for a walker, a closed bank or a peer's bytes: what it applies, drains and writes leaves `stuck` as
it was, and so does counting an arrival.
-/

namespace Sys2Proof.Machine

theorem foldl_stuck {α : Type} (l : List α) (f : State → α → State) (s : State) (h : ∀ s x, (f s x).stuck = s.stuck) :
    (l.foldl f s).stuck = s.stuck := by
  induction l generalizing s with
  | nil => rfl
  | cons a l ih => rw [List.foldl_cons, ih, h]

@[simp] theorem State.applyReductions_stuck (s : State) (f : RedEntry → Bool) : (s.applyReductions f).stuck = s.stuck :=
  foldl_stuck _ _ _ fun _ _ => rfl

@[simp] theorem State.reach_stuck (s : State) (a n : Nat) : (s.reach a n).stuck = s.stuck := by
  unfold State.reach
  split <;> simp

@[simp] theorem State.copyLine_stuck (s : State) (m : Migration) (line : Nat) : (s.copyLine m line).stuck = s.stuck := by
  unfold State.copyLine
  split <;> rfl

@[simp] theorem State.settle_stuck (s : State) (a : Nat) : (s.settle a).1.stuck = s.stuck := by
  unfold State.settle
  split <;> simp

@[simp] theorem State.pokeLine_stuck (s : State) (l : Nat) (m : Map Byte) : (s.pokeLine l m).stuck = s.stuck := by
  unfold State.pokeLine
  have h := State.settle_stuck s (64 * l)
  generalize s.settle (64 * l) = x at h
  obtain ⟨x, r, b⟩ := x
  dsimp only at h ⊢
  split
  · simp [h]
  · split
    · simp [h]
    · split <;> simp [h]

@[simp] theorem State.drainEntry_stuck (s : State) (c : Nat) (e : WcbEntry) : (s.drainEntry c e).stuck = s.stuck := by
  unfold State.drainEntry
  dsimp only
  split <;> simp

@[simp] theorem State.drain_stuck (s : State) (c : Nat) (f : WcbEntry → Bool) : (s.drain c f).stuck = s.stuck := by
  unfold State.drain
  dsimp only
  split
  · rw [foldl_stuck _ _ _ fun s e => State.drainEntry_stuck s c e]; rfl
  · rfl

/-- A release leaves `stuck` as it was. -/
@[simp] theorem State.release_stuck (s : State) (c tid p : Nat) (q : Party) (x : Scope) :
    (s.release c tid p q x).1.stuck = s.stuck := by
  unfold State.release
  dsimp only
  split
  · rfl
  · split <;> simp

@[simp] theorem State.setBarrier_stuck (s : State) (r : BarRef) (x : Barrier) : (s.setBarrier r x).stuck = s.stuck := by
  cases r <;> rfl

end Sys2Proof.Machine
end

