-- ==== Sys2Proof/Laws/Run.lean ====
section
/-!
SUPPORT. What the shared forms of an instruction answer when it issues: one lemma per form, cited instead of unfolding the
forms.
-/

namespace Sys2Proof.Machine

open Sys2Proof

variable {s0 : State} {who : Who} {o : Origin}

/-- An effect that leaves nothing stuck is what it is. -/
theorem Effect.unstuck_of_calm {e : Effect} (h : ∀ r, e.state? = some r → r.stuck = false) : e.unstuck s0 who o = e := by
  unfold Effect.unstuck
  cases he : e.state? with
  | none => simp
  | some r => simp [h r he]

@[simp] theorem Effect.unstuck_done {r : State} (h : r.stuck = false) : (Effect.done r).unstuck s0 who o = .done r :=
  Effect.unstuck_of_calm fun _ hr => by cases hr; exact h

@[simp] theorem Effect.unstuck_flow {r : State} (h : r.stuck = false) : (Effect.flow r).unstuck s0 who o = .flow r :=
  Effect.unstuck_of_calm fun _ hr => by cases hr; exact h

@[simp] theorem Effect.unstuck_wait {r : State} {x : Wait} (h : r.stuck = false) : (Effect.wait r x).unstuck s0 who o = .wait r x :=
  Effect.unstuck_of_calm fun _ hr => by cases hr; exact h

@[simp] theorem Effect.unstuck_fault {r : State} {c : Cause} (h : r.stuck = false) : (Effect.fault r c).unstuck s0 who o = .fault r c :=
  Effect.unstuck_of_calm fun _ hr => by cases hr; exact h

@[simp] theorem Effect.unstuck_hold (x : Wait) : (Effect.hold x).unstuck s0 who o = .hold x := rfl

/-- An instruction whose operands name no bound load port pops nothing. -/
theorem popAll_of_no_port (s : State) (tid p : Nat) (sl : Bool) (seen ns : List Nat) (q : Party)
    (hq : s.party? tid p = some q) (h : ∀ n ∈ ns, q.loadPort n = none) : s.popAll tid p sl seen ns = (s, none) := by
  induction ns generalizing seen with
  | nil => rfl
  | cons n t ih =>
    have h1 : s.popOne tid p sl (seen.contains n) n = (s, none) := by
      unfold State.popOne
      simp [hq, h n (by simp)]
    unfold State.popAll
    rw [h1]
    exact ih _ fun m hm => h m (by simp [hm])

/-- The party that issues is where its team says. -/
theorem party_of_issuer {s : State} {w : Issuer} {t : Team} {q : Party} (h : s.issuer = some (w, t, q)) :
    s.site w = some (t, q) ∧ s.party? w.tid w.p = some q := by
  unfold State.issuer at h
  unfold State.site State.party?
  split at h
  · split at h
    · next h1 =>
      split at h
      · next h2 => cases h; simp [h1, h2]
      · cases h
    · cases h
  · cases h

/-- What an instruction pops is among its sources. -/
theorem poppable_sub {i : Instr} {q : Party} {sl : Bool} {n : Nat} (h : n ∈ poppable i q sl) : n ∈ (operands i).reads := by
  unfold poppable at h
  split at h
  · cases h
  · exact h

/-- Of an instruction that names no bound load port, nothing more is left. -/
theorem not_pops {i : Instr} {q : Party} {sl : Bool} (h : ∀ n ∈ (operands i).reads, q.loadPort n = none) :
    pops i q sl = false := by
  simp only [pops, List.any_eq_false]
  intro n hn
  simp [h n (poppable_sub hn)]

theorem ended_of_not_pops {i : Instr} {s : State} {w : Issuer} {t : Team} {q : Party} (hi : s.issuer = some (w, t, q))
    (h : pops i q w.sl = false) (r : State) : s.ended i w r = r := by
  simp [State.ended, hi, h]

theorem ended_of_begun {i : Instr} {s : State} {w : Issuer} {t : Team} {q : Party} (h : Resumes s w t q) (r : State) :
    s.ended i w r = r := by
  simp [State.ended, h.issuer, h.begun]

/-- An instruction without vector sources takes nothing from a port. -/
theorem ended_of_no_reads {i : Instr} (h : (operands i).reads = []) (s : State) (w : Issuer) (r : State) : s.ended i w r = r := by
  have hp : ∀ q sl, poppable i q sl = [] := fun q sl => List.eq_nil_iff_forall_not_mem.2 fun n hn => by
    simpa [h] using poppable_sub hn
  unfold State.ended
  split <;> simp [pops, hp]

/-- An instruction of a party that issues has its effect in the state after the pops. -/
theorem runParty_of_issues {i : Instr} {s s' : State} {w : Issuer} {t : Team} {q : Party} (h : Issues i s w t q s')
    (effect : Issuer → State → Effect) :
    runParty i s effect = .next (s.ended i w (finish i s w q ((effect w s').unstuck s w.who (originOf w q i.word)))) := by
  unfold runParty
  rw [h.issuer]
  by_cases hp : pops i q w.sl = true
  · have hp' := hp
    unfold pops at hp'
    simp [h.running, h.live, h.fresh, h.gate, h.pops, State.ended, h.issuer, hp, hp']
  · have hn : ∀ n ∈ poppable i q w.sl, q.loadPort n = none := by
      intro n hn
      simp only [pops, Bool.not_eq_true, List.any_eq_false] at hp
      simpa using hp n hn
    have hs : s' = s := by
      have h1 := h.pops
      rw [popAll_of_no_port _ _ _ _ _ _ q (party_of_issuer h.issuer).2 hn] at h1
      exact (Prod.mk.inj h1).1.symm
    have hp' := hp
    unfold pops at hp'
    simp [h.running, h.live, h.fresh, h.gate, State.ended, h.issuer, hp, hp', hs]

/-- An instruction that only changes its party's registers completes. -/
theorem runRegs_of_issues {i : Instr} {s s' : State} {w : Issuer} {t : Team} {q : Party} (h : Issues i s w t q s')
    (f : Bool → Party → Party) :
    runRegs i s f = .next (s.after i w (s'.modParty w.tid w.p (f w.sl))) := by
  unfold runRegs
  rw [runParty_of_issues h, Effect.unstuck_done (show (s'.modParty w.tid w.p (f w.sl)).stuck = false from h.calm)]
  rfl

/-- An instruction that looks at its team has its effect on the team as it is after the pops. -/
theorem runTeam_of_issues {i : Instr} {s s' : State} {w : Issuer} {t t' : Team} {q q' : Party}
    (h : Issues i s w t q s') (hs : s'.site w = some (t', q')) (f : Issuer → Team → Party → State → Effect) :
    runTeam i s f = .next (s.ended i w (finish i s w q ((f w t' q' s').unstuck s w.who (originOf w q i.word)))) := by
  unfold runTeam
  rw [runParty_of_issues h]
  simp [hs]

/-- An instruction that names no bound load port issues and pops nothing. -/
theorem IssuesPlain.issues {i : Instr} {s : State} {w : Issuer} {t : Team} {q : Party} (h : IssuesPlain i s w t q) :
    Issues i s w t q s :=
  ⟨h.issuer, h.running, h.live, h.fresh, h.gate,
    popAll_of_no_port _ _ _ _ _ _ q (party_of_issuer h.issuer).2 (fun n hn => h.unported n (poppable_sub hn)), h.calm⟩

theorem IssuesPlain.ended {i : Instr} {s : State} {w : Issuer} {t : Team} {q : Party} (h : IssuesPlain i s w t q) (r : State) :
    s.ended i w r = r := ended_of_not_pops h.issuer (not_pops h.unported) r

/-- Such an instruction that looks at its team sees it as it is. -/
theorem runTeam_of_plain {i : Instr} {s : State} {w : Issuer} {t : Team} {q : Party} (h : IssuesPlain i s w t q)
    (f : Issuer → Team → Party → State → Effect) : runTeam i s f = .next (finish i s w q ((f w t q s).unstuck s w.who (originOf w q i.word))) := by
  rw [runTeam_of_issues h.issues (party_of_issuer h.issuer).1 f, h.ended]

/-- An instruction that waits with part of it done goes straight to its effect. -/
theorem runTeam_of_resumes {i : Instr} {s : State} {w : Issuer} {t : Team} {q : Party} (h : Resumes s w t q)
    (f : Issuer → Team → Party → State → Effect) : runTeam i s f = .next (finish i s w q ((f w t q s).unstuck s w.who (originOf w q i.word))) := by
  unfold runTeam runParty
  rw [h.issuer]
  simp [h.running, h.live, h.begun, (party_of_issuer h.issuer).1]

/-- An instruction that looks at its team has its effect on what it executes in. -/
theorem runTeam_of_executes {i : Instr} {s0 s : State} {w : Issuer} {t : Team} {q : Party} (h : Executes i s0 w s t q)
    (f : Issuer → Team → Party → State → Effect) :
    ∃ q0, runTeam i s0 f = .next (s0.ended i w (finish i s0 w q0 ((f w t q s).unstuck s0 w.who (originOf w q0 i.word)))) := by
  obtain ⟨⟨t0, q0, h0⟩ | ⟨rfl, h0⟩, hs⟩ := h
  · exact ⟨q0, runTeam_of_issues h0 hs f⟩
  · exact ⟨q, by rw [runTeam_of_resumes h0 f, ended_of_begun h0]⟩

/-- When that effect is done and nothing had to wait for a walker or a closed bank, the instruction has completed. -/
theorem runTeam_done {i : Instr} {s0 s r : State} {w : Issuer} {t : Team} {q : Party} (h : Executes i s0 w s t q)
    {f : Issuer → Team → Party → State → Effect} (hf : f w t q s = .done r) (hr : r.stuck = false) :
    runTeam i s0 f = .next (s0.after i w r) := by
  obtain ⟨q0, hq⟩ := runTeam_of_executes h f
  rw [hq, hf, Effect.unstuck_done hr]
  rfl

/-- What an instruction executes in is not stuck. -/
theorem Executes.calm {i : Instr} {s0 s : State} {w : Issuer} {t : Team} {q : Party} (h : Executes i s0 w s t q) :
    s.stuck = false := by
  obtain ⟨⟨_, _, h0⟩ | ⟨rfl, h0⟩, _⟩ := h
  · exact h0.calm
  · exact h0.calm

/-- An instruction of a sequencer that issues has its effect. -/
theorem runSeq_of_issues {i : Instr} {s : State} {tid : Nat} {t : Team} {q : Sequencer} (h : SeqIssues s tid t q)
    (f : Nat → Team → Sequencer → State → Effect) : runSeq i s f = .next (finishSeq i s tid q ((f tid t q s).unstuck s (.seq tid) (seqOrigin q i.word))) := by
  unfold runSeq
  rw [h.issuer]
  simp only [h.running, h.going, h.posted]
  rfl

end Sys2Proof.Machine
end

