-- ==== Sys2Proof/Tests/Slice0.lean ====
section
/-!
SUPPORT. Tests. The words are written out from the encodings of chapter 06; the witnesses apply each statement of the
obligations to a concrete state and concrete operands, so that the proof of a witness shows that all hypotheses of the clause are
met together, and its conclusion that the step completes there.
-/

namespace Sys2Proof.Tests

set_option Elab.async false

open Sys2Proof Sys2Proof.Machine

/-! ## Small states -/

/-- A team (1) of a run (2) on core 0: its one party stands in a clause, slot 0, with lanes 0 and 1 active. A page of 1 GiB maps
every virtual address to itself, for loads, stores, fetches and convoys. -/
def sMem : Store 8 :=
  writeBytes [] (withAddr 0 (toBytes 8 0x133) ++ withAddr 0x1000 (toBytes 8 1))

def sTlb : TlbEntry := { tag := 0xFFFE, base := 0, size := 2 ^ 30, leaf := 0x133 }

/-- Registers of the party: the pairs at s4 and s8 hold addresses, s6 is 2, s7 is 1. -/
def sRegs : Store 32 := [(4, 0x20000), (6, 2), (7, 1), (8, 0x21000), (10, 0x22000)]

/-- Two rows of sixteen FP32 elements at 0x40000 and 0x41000, named by h0 and h1. -/
def hA : Nat := 0x40000 + 2 ^ 64 + 15 * 2 ^ 80
def hB : Nat := 0x41000 + 2 ^ 64 + 15 * 2 ^ 80

def sOf (s : State) : State :=
  let s := s.withFetchWord 32 0x3C000004
  let s := { s with
    contexts := [(0xFFFE, { root := 0x1000, fn := 0, queue := 0 })], mem := sMem, tlbCore := [(0, [sTlb])] }
  s.modParty 1 0 fun q => { q with
    sregs := sRegs, live := 3, slot0 := { q.slot0 with mask := 3, wait := .none } }

def s0 : State := sOf State.reset

/-- The same with the party changed. -/
def sp (f : Party → Party) : State := s0.modParty 1 0 f

/-- With the team changed. -/
def st (f : Team → Team) : State := s0.modTeam 1 f

/-- With the run changed. -/
def sr (f : Run → Run) : State := s0.modRun 2 f

/-- The team and the party of a state; the last alternatives are never met. -/
def teamOf (s : State) : Team := (Map.find s.teams 1).getD (s0.launchTeam 2 placedRun placedNode
  { node := 0, die := 0, recs := [], stamp := 0, origin := none } 0 0 none 0 [])
def partyOf (s : State) : Party := (Map.find (teamOf s).parties 0).getD (launchParty placedNode [] 0 0 0 0)

def sq0 : Sequencer :=
  { stopped := false, pc := 0, clause := none, k := [], fmt := 0, mode := 0, latch := none, wait := .none, barWait := none, lko := none,
    ops := [], check := 0 }
def seqOf (s : State) : Sequencer := (teamOf s).seq.getD sq0

/-! ## How the hypotheses are met -/

/-- An instruction of the party issues in a state, decidably. -/
def issuesIn (i : Instr) (s : State) : Bool :=
  decide (s.issuer = some (⟨1, 0, false⟩, teamOf s, partyOf s)) && (teamOf s).running && (partyOf s).slot0.live &&
    !(partyOf s).slot0.wait.begun && decide (s.gate i (teamOf s) (partyOf s) false = .go) && !s.stuck &&
    (operands i).reads.all fun n => (partyOf s).loadPort n == none

theorem plain_of {i : Instr} {s : State} (h : issuesIn i s = true) : IssuesPlain i s ⟨1, 0, false⟩ (teamOf s) (partyOf s) := by
  simp only [issuesIn, Bool.and_eq_true, decide_eq_true_eq, Bool.not_eq_true', List.all_eq_true, beq_iff_eq] at h
  exact ⟨h.1.1.1.1.1.1, h.1.1.1.1.1.2, h.1.1.1.1.2, h.1.1.1.2, h.1.1.2, h.2, h.1.2⟩

theorem issues_of {i : Instr} {s : State} (h : issuesIn i s = true) : Issues i s ⟨1, 0, false⟩ (teamOf s) (partyOf s) s :=
  (plain_of h).issues

theorem executes_of {i : Instr} {s : State} (h : issuesIn i s = true) :
    Executes i s ⟨1, 0, false⟩ s (teamOf s) (partyOf s) :=
  ⟨.inl ⟨_, _, issues_of h⟩, (party_of_issuer (plain_of h).issuer).1⟩

/-- The party's instruction is issued again in a state, decidably. -/
def resumesIn (s : State) : Bool :=
  decide (s.issuer = some (⟨1, 0, false⟩, teamOf s, partyOf s)) && (teamOf s).running && (partyOf s).slot0.live &&
    (partyOf s).slot0.wait.begun && !s.stuck

theorem resumes_of {s : State} (h : resumesIn s = true) : Resumes s ⟨1, 0, false⟩ (teamOf s) (partyOf s) := by
  simp only [resumesIn, Bool.and_eq_true, decide_eq_true_eq, Bool.not_eq_true'] at h
  exact ⟨h.1.1.1.1, h.1.1.1.2, h.1.1.2, h.1.2, h.2⟩

theorem resumes {i : Instr} {s : State} (h : resumesIn s = true) : Executes i s ⟨1, 0, false⟩ s (teamOf s) (partyOf s) :=
  ⟨.inr ⟨rfl, resumes_of h⟩, (party_of_issuer (resumes_of h).issuer).1⟩

/-- The team's sequencer issues in a state, decidably. -/
def seqIssuesIn (s : State) : Bool :=
  decide (s.sequencer = some (1, teamOf s, seqOf s)) && (teamOf s).running && !(seqOf s).stopped &&
    !((seqOf s).ops.any fun o => decide (0 < o.passes.unposted)) && !s.stuck

theorem seq_of {s : State} (h : seqIssuesIn s = true) : SeqIssues s 1 (teamOf s) (seqOf s) := by
  simp only [seqIssuesIn, Bool.and_eq_true, decide_eq_true_eq, Bool.not_eq_true'] at h
  exact ⟨h.1.1.1.1, h.1.1.1.2, h.1.1.2, h.1.2, h.2⟩

/-- An answer that is no error, taken apart. -/
def okOf {σ ε α : Type} (r : σ × Except ε α) (d : α) : α := match r.2 with | .ok a => a | .error _ => d

def isOk {σ ε α : Type} (r : σ × Except ε α) : Bool := match r.2 with | .ok _ => true | .error _ => false

theorem ok_of {σ ε α : Type} {r : σ × Except ε α} (d : α) (h : isOk r = true) :
    r = (r.1, .ok (okOf r d)) := by
  obtain ⟨a, b⟩ := r
  cases b with
  | ok x => rfl
  | error e => cases h

theorem pair_of {σ α : Type} {r : σ × α} {a : α} (h : r.2 = a) : r = (r.1, a) := by cases r; cases h; rfl

/-- The same where the answer is a pair. -/
theorem ok_pair {σ ε α β : Type} {r : σ × Except ε (α × β)} (d : α × β)
    (h : isOk r = true) : r = (r.1, .ok ((okOf r d).1, (okOf r d).2)) := ok_of d h

/-- The same with the answer known. -/
theorem ok_eq {σ ε α : Type} {r : σ × Except ε α} {a : α} (d : α) (h : isOk r = true) (ha : okOf r d = a) : r = (r.1, .ok a) := by
  subst ha
  exact ok_of d h

/-! ## Words, from the chapters' listings -/

/-- Chapter 06 R177 and R219 to R221: scalar words. -/
theorem test_decode_scalar :
    decode 0x04513F02 [0x180] = .ok (.smul 5 4 (.lit 0x180)) ∧ decode 0x0450000F [] = .ok (.smov 5 0) ∧
    decode 0x08A10300 [] = .ok (.saddImm 10 4 0x300) ∧ decode 0x0C41000F [] = .ok (.sandImm 4 4 15) ∧
    decode 0x20D0000C [] = .ok (.sli 13 12) ∧ decode 0x24410010 [] = .ok (.slui 4 0x10010) ∧
    decode 0x19230017 [] = .ok (.sbfx 18 12 false 0 23) ∧ decode 0x04613F07 [1] = .ok (.sxor 6 4 (.lit 1)) ∧
    decode 0x08D37FFF [] = .ok (.saddImm 13 13 0x3FFF) := by decide +kernel

/-- Chapters 08, 13 and 23: state instructions and control flow. -/
theorem test_decode_control :
    decode 0x28400007 [] = .ok (.sget 4 7) ∧ decode 0x2880000F [] = .ok (.sget 8 15) ∧
    decode 0x34028008 [] = .ok (.bc .z 10 8) ∧ decode 0x34137FF3 [] = .ok (.bc .nz 13 0x3FF3) ∧
    decode 0x303FFFFC [] = .ok (.br 0x3FFFFC) ∧ decode 0x3C000004 [] = .ok .exit := by decide +kernel

/-- Chapters 06, 13 and 23: vector words. -/
theorem test_decode_vector :
    decode 0x40181040 [] = .ok (.vadd .w32 3 1 (.reg 2)) ∧ decode 0x40200FF6 [0x12345678] = .ok (.vliLit 4 0x12345678) ∧
    decode 0x4050309A [] = .ok (.vcmp false .ltI 10 3 (.reg 4)) ∧ decode 0x40183081 [] = .ok (.vsub .w32 3 3 (.reg 4)) ∧
    decode 0x68080000 [] = .ok (.sgetIdLane 1) ∧ decode 0x60101002 [] = .ok (.vshlImm 2 1 2) ∧
    decode 0x503013E8 [] = .ok (.vaddImm 6 1 0x3E8) ∧ decode 0x80202060 [] = .ok (.vfadd .f32 4 2 (.reg 3)) ∧
    decode 0x80204126 [] = .ok (.vfmax .f32 4 4 (.reg 9)) := by decide +kernel

/-- Chapters 13, 19 and 22: memory, local store, copies, engines. -/
theorem test_decode_memory :
    decode 0xB0408084 [] = .ok (.vld 8 4 (.reg 2) none .ca .w32) ∧ decode 0xC430A094 [] = .ok (.lst 6 5 (.reg 2) .w32) ∧
    decode 0xC438E084 [] = .ok (.lld 7 7 (.reg 2) .w32) ∧ decode 0xCC628005 [0] = .ok (.sld 6 10 (.reg 0) .d64 ⟨.wk, .pt⟩ .ca) ∧
    decode 0xCD240014 [0] = .ok (.sst 18 16 (.reg 0) .w32 ⟨.wk, .pt⟩ .ca) ∧
    decode 0xD00550E0 [] = .ok (.cpy 21 0 4 3 .dv) ∧ decode 0xE4C10602 [] = .ok (.ssint 12 4 6 .cnt) := by decide +kernel

/-- Chapter 11: convoys. -/
theorem test_decode_convoys :
    decode 0xD8C00000 [] = .ok (.cvopen 12 0 false) ∧ decode 0xDC408084 [0xC] = .ok (.cvst 8 4 (.reg 2) none .ca .w32 12) ∧
    decode 0xE0488084 [0xD] = .ok (.cvld 9 4 (.reg 2) none .ca .w32 13) ∧ decode 0xD8E30001 [] = .ok (.cvclose 14 12) ∧
    decode 0xD8F30002 [] = .ok (.cvstat 15 12) := by decide +kernel

/-- Chapters 12, 13 and 22: the graph and barriers. -/
theorem test_decode_graph :
    decode 0xF0606004 [] = .ok (.futnew 12 3) ∧ decode 0xF0609546 [] = .ok (.futres 12 4 (.cmd 21)) ∧
    decode 0xF0608006 [] = .ok (.futres 12 4 .imm) ∧ decode 0xF0600005 [] = .ok (.futreg 12 0 0) ∧
    decode 0xF4000080 [] = .ok (.barSync .tm 0) := by decide +kernel

/-- Chapter 10: the matrix stream. -/
theorem test_decode_matrix :
    decode 0xF8002C00 [] = .ok (.mbar 0) ∧ decode 0xF8001400 [] = .ok (.mzero 0) ∧ decode 0xF8800004 [] = .ok (.kli 2 4) ∧
    decode 0xF8000C60 [] = .ok (.mld 0 0 1 true) ∧ decode 0xF8011861 [] = .ok (.mma 0 0 1 false 1 true true) ∧
    decode 0xF8410401 [] = .ok (.kadd 1 1 1) ∧ decode 0xF8820800 [] = .ok (.kbr .dec 2 0) ∧
    decode 0xF8022000 [] = .ok (.mst 0 2 0 false) ∧ decode 0xF8003000 [] = .ok (.lkoPred 0 0) ∧
    decode 0xF8013400 [] = .ok (.lkoFetch 1) ∧ decode 0xF8011C00 [] = .ok (.mmt 0 0 1 false 0 false false) ∧
    decode 0xF8013800 [] = .ok (.lkoChk 0 0 1) := by decide +kernel

/-- Chapters 01, 02, 13 and 14: system instructions. -/
theorem test_decode_system :
    decode 0xFC002A00 [] = .ok (.trap 0x2A) ∧ decode 0xFCA10602 [] = .ok (.tlbrng 10 4 6) ∧
    decode 0xFCC08803 [] = .ok (.wsld 12 2 8) ∧ decode 0xFCA10504 [] = .ok (.hcall 10 4 (.reg 5)) ∧
    decode 0xFC318701 [] = .ok (.rfe 3 6 (.reg 7)) ∧ decode 0xFC800005 [] = .ok (.clkrd 8) := by decide +kernel

/-! ## What is ill formed -/

/-- One term for each check of well-formedness, and what refuses it. -/
theorem test_ill_formed :
    (Instr.sadd 1 2 (.reg 63)).illegal = some .notEncodable ∧ (Instr.vadd .w32 1 2 (.reg 127)).illegal = some .notEncodable ∧
    (Instr.sbfx 1 2 true 31 1).illegal = some .outOfRange ∧ (Instr.sget 1 17).illegal = some .outOfRange ∧
    (Instr.sget 1 6).illegal = some .outOfRange ∧ (Instr.sget 1 3).illegal = some .oddPair ∧
    (Instr.sset 1 5).illegal = some .oddPair ∧ (Instr.setmode 8).illegal = some .outOfRange ∧
    (Instr.bdiv 62 0).illegal = some .tripleStart ∧ (Instr.bdiv 0 0).illegal = some .tripleStart ∧
    (Instr.vadd .w64 1 2 (.reg 4)).illegal = some .oddPair ∧ (Instr.vcmp false .eq 62 1 (.reg 2)).illegal = some .tripleStart ∧
    (Instr.vbcast 1 2 96).illegal = some .outOfRange ∧ (Instr.vxshf 1 2 127).illegal = some .outOfRange ∧
    (Instr.vf2sum false 1 2 (.reg 4)).illegal = some .oddPair ∧ (Instr.vfrnd .f32 1 2 1).illegal = some .overlap ∧
    (Instr.vsin .f64 2 4).illegal = some .typeForm ∧ (Instr.vosmx 1 2 4).illegal = some .oddPair ∧
    (Instr.vosmx 2 4 3).illegal = some .overlap ∧ (Instr.vfcvt 1 2 .fp64 .fp32 false).illegal = some .oddPair := by
  decide +kernel

theorem test_ill_formed_memory :
    (Instr.vld 8 5 (.reg 2) none .ca .w32).illegal = some .oddPair ∧
    (Instr.sld 1 4 (.reg 2) .d64 ⟨.wk, .pt⟩ .ca).illegal = some .oddPair ∧
    (Instr.fence .wk .pt).illegal = some .reservedCode ∧ (Instr.fence .acq .dvRem).illegal = some .reservedCode ∧
    (Instr.vatom .fadd .i32 ⟨.st, .dv⟩ 1 4 (.reg 2)).illegal = some .typeForm ∧
    (Instr.cpy 60 0 0 0 .dv).illegal = some .outOfRange ∧ (Instr.cvopen 12 3 true).illegal = some .nonzeroField ∧
    (Instr.ssscan 1 3 4).illegal = some .oddPair ∧ (Instr.futres 1 2 (.cmd 60)).illegal = some .outOfRange ∧
    (Instr.dget (.word 5) 0).illegal = some .outOfRange ∧ (Instr.barSync .cl 8).illegal = some .outOfRange ∧
    (Instr.mld 0 0 1 false).illegal = some .nonzeroField ∧ (Instr.clkrd 2).illegal = some .oddPair ∧
    (Instr.clkrd 60).illegal = some .outOfRange ∧ (Instr.tlbrng 1 60 2).illegal = some .outOfRange ∧
    (Instr.rfe 1 2 (.reg 63)).illegal = some .notEncodable ∧ Instr.coldReset.illegal = some .notEncodable := by
  decide +kernel

/-- Words that decode to nothing: a major that no table lists, a code without a meaning, a field that must be zero, a literal
that is not there. -/
theorem test_refused_words :
    decode 0 [] = .error .unusedMajor ∧ decode 0x040000FF [] = .error .unusedFn ∧ decode 0xFC102A00 [] = .error .nonzeroField ∧
    decode 0x34600000 [] = .error .reservedCode ∧ decode 0x40200FF6 [] = .error .missingLiteral ∧
    decodeTableWord 32 0xFC002A00 = some (.trap 0x2A) ∧ decodeTableWord 64 0x1234567840200FF6 = some (.vliLit 4 0x12345678) := by
  decide +kernel

/-! ## Witnesses: instructions that change their party alone

Each list names one form of every instruction of the clauses; its theorem shows that they issue in the state `s0`, which is what
the clauses assume. -/

/-- ScalarArithmetic, ScalarImmediates, SpecialRegisters. -/
theorem test_meets_scalar :
    [Instr.sadd 1 2 (.reg 3), .ssub 60 2 (.lit 7), .smul 1 2 (.reg 3), .smulhI32 1 2 (.reg 3), .smulhN32 1 2 (.reg 3),
      .sand 1 2 (.reg 3), .sor 1 2 (.reg 3), .sxor 0 2 (.reg 3), .sshl 1 4 (.lit 32), .sshr 1 4 (.lit 31), .ssra 1 4 (.reg 6),
      .sminI32 1 2 (.reg 3), .sminN32 1 2 (.reg 3), .smaxI32 1 2 (.reg 3), .smaxN32 1 2 (.reg 3), .smov 63 1, .spopc 1 4, .sclz 1 0,
      .sffs 1 4, .scmp .leI 1 2 (.reg 3), .ssel 1 2 3 (.reg 4), .saddImm 1 2 0x3FFF, .sandImm 1 2 5, .sorImm 1 2 5, .sshlImm 1 2 31,
      .sshrImm 1 2 31, .ssraImm 1 2 31, .sbfx 1 2 true 31 0, .sbfi 1 2 0 31, .sli 1 0xFFFFF, .slui 1 1, .sget 1 16, .sget 8 3, .sget 1 15,
      .sget 1 2, .sget 1 14, .sset 4 5, .sset 6 14, .ckwarn 1 2, .setfmt 0x3F, .setmode 0x37, .sgetIdLane 1, .clkrd 56].all
      (issuesIn · s0) = true := by
  decide +kernel

/-- sget of warn and ckwarn find every access of the party performed. -/
theorem test_meets_warn : (partyOf s0).accesses = [] := by decide +kernel

/-- Branches. -/
theorem test_meets_branches :
    [Instr.br 0x3FFFFF, .call 2, .bc .z 0 4, .bc .nz 6 4, .ret, .jmpi 4, .nop, .yield, .join, .exit, .bdiv 61 4, .bdiv 1 4].all
      (issuesIn · s0) = true := by
  decide +kernel

/-- VectorArithmetic, VectorImmediates, LaneConditions, LaneMoves. -/
theorem test_meets_vector :
    [Instr.vadd .w32 1 2 (.reg 3), .vsub .w64 2 4 (.reg 6), .vmul .h16 1 2 (.reg 3), .vmulhSigned .b8 1 2 (.reg 3),
      .vmulhUnsigned .w32 1 2 (.reg 3), .vmac .w32 1 2 (.reg 3), .vand .w32 1 2 (.lit 1), .vor .w32 1 2 (.reg 3),
      .vxor .w32 1 2 (.reg 3), .vnot .w32 1 2, .vshl .w32 1 2 (.lit 32), .vshr .w32 1 2 (.reg 3), .vsra .w32 1 2 (.reg 3),
      .vminSigned .w32 1 2 (.reg 3), .vminUnsigned .w32 1 2 (.reg 3), .vmaxSigned .w32 1 2 (.reg 3),
      .vmaxUnsigned .w32 1 2 (.reg 3), .vabs .w32 1 2, .vneg .w32 1 2, .vpopc .w32 1 2, .vclz .w32 1 2, .vmov .w32 119 2,
      .vsel .w32 1 2 (.reg 3), .vcmp true .eq 61 2 (.reg 4), .vcmp false .ltN 1 2 (.reg 4), .vaddImm 1 2 0xFFF, .vli 1 5,
      .vliLit 1 5, .vbfx 1 2 true 31 0, .vbfi 1 2 0 31, .vshlImm 1 2 31, .vshrImm 1 2 31, .vsraImm 1 2 31, .vperm 1 2 (.reg 3),
      .vbcast 1 2 95, .vxshf 1 2 126, .vred .add 1 2, .vscan .fadd true 1 2, .vballot 61 2, .vvote .all 1 2, .vvote .any 1 2,
      .vvote .uniform 63 2, .vfcmp .f32 .un 1 2 (.reg 3), .vfcmp .f64 .lt 1 2 (.reg 4)].all (issuesIn · s0) = true := by
  decide +kernel

/-- FloatInstructions. -/
theorem test_meets_float :
    [Instr.vfadd .f32 1 2 (.reg 3), .vfsub .f64 2 4 (.reg 6), .vfmul .bf16 1 2 (.reg 3), .vfma .f16 1 2 (.reg 3),
      .vfms .f32 1 2 (.reg 3), .vfmin .f32 1 2 (.reg 3), .vfmax .f32 1 2 (.reg 3), .vfexp .f32 1 2, .vfscl .f32 1 2 (.reg 3),
      .vfclass .f32 1 2, .vf2sum false 2 4 (.reg 6), .vfrnd .f32 1 2 3, .vrcp .f32 1 2, .vrsq .f32 1 2, .vsqrt .f32 1 2,
      .vexp2 .f32 1 2, .vlog2 .f32 1 2, .vsin .f32 1 2, .vcos .f32 1 2, .vtanh .f32 1 2, .vosmx 2 4 6, .vosms 2 4,
      .vfcvt 1 2 .fp16 .fp32 true, .vfcvtSr 1 2 .fp16 .fp32 false 3, .pref 4 (.reg 0) .cn].all (issuesIn · s0) = true := by
  decide +kernel

/-! ## Witnesses: clauses with hypotheses of their own -/

/-- Encoding. -/
theorem test_meets_LiteralWords : (Instr.vldgPart 8 4 (.lit 1) (some ⟨.acq, .dv⟩) .ca .w32 1).wf = true ∧
    (Instr.cvst 8 4 (.lit 1) (some ⟨.rel, .dv⟩) .ca .w32 12).wf = true ∧ Instr.nop.wf = true := by decide +kernel

theorem test_meets_DecodeRefuses (h : Obligations.DecodeRefuses) : Instr.exit.wf = true :=
  (h.1 0x3C000004 [] .exit (by decide +kernel)).1

/-- A store port with the last group of its tile still to come. -/
def portState : Port :=
  { kind := .store, handle := 0, pos := 0, rnd := 0, sub := 0, scope := .tm, origin := ⟨0, 0, 0, some 0, false⟩, groups := [],
    unwritten := [], ended := false }

theorem test_meets_VectorWrites : (sp fun q => { q with ports := [(2, portState)] }).party? 1 0 ≠ none ∧
    (partyOf (sp fun q => { q with ports := [(2, portState)] })).storePort 122 = some portState ∧
    (partyOf s0).storePort 122 = none := by decide +kernel

/-- Rounding, FloatValues, SpecialFunctions: a zero, an infinity, the least subnormal, NaNs, finite numbers of both signs, and the
exact cases, among the inputs. -/
theorem test_meets_Rounding : (fmtFp32.unpack 0x80000000).isZero = true ∧ fmtFp32.unpack 0x7F800000 = .inf false ∧
    (fmtFp32.unpack 0x7FC00000).isNan = true ∧ (fmtFp32.unpack 0x7F800001).isSig = true ∧
    fmtFp32.unpack 1 = .fin false 1 (-149) ∧ fmtFp32.unpack 0xBF800000 = .fin true 0x800000 (-23) ∧
    (roundFloat (ftyFmt .f16) .rne false false (.fin false 65537 0)) = (0x7C00, wOVF ||| wINX) ∧
    (roundFloat (ftyFmt .f16) .rne true false (.fin false 3 (-26))).1 = 0 ∧
    convert .bf16 .int8 ⟨.rne, false, false⟩ false 0x4320 = (0x7F, wINV) := by decide +kernel

/-- 4⁻¹, 2³, 2⁻⁵, ½, 9 and 1.5 for vrsq, vexp2, vlog2, vcos, vtanh and vsin; exp2s of −3; and vosmx and vosms from −∞ and 0. -/
theorem test_meets_SpecialFunctions : approxElem .rsq .f32 0 0x3E800000 = (0x40000000, 0) ∧
    approxElem .exp2 .f32 0 0x40400000 = (0x41000000, 0) ∧ approxElem .log2 .f32 0 0x3D000000 = (0xC0A00000, 0) ∧
    approxElem .cos .f32 0 0x3F000000 = (0, 0) ∧ approxElem .tanh .f32 0 0x41100000 = (0x3F800000, wINX) ∧
    approxElem .sin .f32 0 0x3FC00000 = (0xBF800000, 0) ∧ exp2s (-3) 0 0 = (0x3E000000, 0) ∧
    osmx 0xFF800000 0 0x3F800000 0 = ((0x3F800000, 0, 0), 0) ∧ osms 0xFF800000 0 0x3F800000 0 = (0x7F800000, 0) := by
  decide +kernel

/-- Divergence: both slots idle or not, and a stack that is full. -/
def full : StackEntry :=
  { valid := true, defer := false, pc := 0, mask := 3, fmt := 0, mode := 0, pend := 1, link := none }

theorem test_meets_Divergence (h : Obligations.Divergence) :
    let s := sp fun q => { q with stack := List.replicate 63 full }
    exec (.bdiv 1 4) s = .next (s.faultAt ⟨1, 0, false⟩ (partyOf s) (Instr.bdiv 1 4).word rcStack) :=
  (h _ _ _ _ 1 4 (plain_of (by decide +kernel))).1 (by decide +kernel)

/-- The masks of the three clauses: no lane in the condition, every lane, some. -/
theorem test_meets_Divergence_masks :
    (partyOf s0).slot0.mask &&& (partyOf s0).triple false 1 = 0 ∧ (partyOf s0).slot0.mask &&& ~~~(partyOf s0).triple false 61 = 0 ∧
    (partyOf s0).slot0.mask &&& (partyOf s0).triple false 61 ≠ 0 ∧ (partyOf s0).slot0.mask &&& (partyOf s0).triple false 7 ≠ 0 ∧
    (partyOf s0).slot0.mask &&& ~~~(partyOf s0).triple false 7 ≠ 0 ∧ (partyOf s0).slot1.live = false ∧
    issuesIn (.bdiv 61 4) s0 = true ∧ issuesIn (.bdiv 7 4) s0 = true ∧
    issuesIn (.bdiv 7 4) (sp fun q => { q with slot1 := { q.slot1 with live := true } }) = true := by decide +kernel

/-- Joins: a first arrival, a last one with lanes left, and a last one whose entry has no live lane, which leaves no path. -/
def joined (pend : Nat) (mask : Mask) : State :=
  sp fun q => { q with stack := [{ full with pend := pend, mask := mask }], slot0 := { q.slot0 with frame := some 0 } }

theorem waits_after {q : Party} {sl : Bool} (h : (q.stack.any fun e => e.defer) = false) : UnwindsIn sl true 1 q (q.setSlot sl Slot.idle) :=
  .idle q fun e he => by
    simp only [List.any_eq_false] at h
    exact Bool.eq_false_iff.mpr (h e (List.mem_of_getLast? he))

theorem test_meets_Joins (h : Obligations.Joins) : Completes (exec .join s0) ∧ Completes (exec .join (joined 2 3)) ∧
    Completes (exec .join (joined 1 3)) ∧ Completes (exec .join (joined 1 4)) := by
  obtain ⟨go, hg, he⟩ := h false
  have x (s : State) := (he s ⟨1, 0, false⟩ (teamOf s) (partyOf s) s rfl)
  have none_left {q r : Party} (hq : go q = r) (hr : ((if r.finished then q.records.filter fun d => !d.retired else []).filterMap
      fun d => recJoin d.words) = []) (s : State) :
      s.retireRelease (teamOf s).core 1 0 q (if (go q).finished then q.records.filter fun d => !d.retired else []) = (s, none) := by
    subst hq; simp only [State.retireRelease, hr, List.isEmpty_nil, if_true]
  have g0 := (hg (partyOf s0)).2.1 (by decide +kernel)
  have g1 := ((hg (partyOf (joined 2 3))).2.2 0 { full with pend := 2 } (by decide +kernel) (by decide +kernel)).2.1
    (by decide) 1 _ (by decide +kernel) (waits_after (by decide +kernel))
  have g2 := ((hg (partyOf (joined 1 3))).2.2 0 full (by decide +kernel) (by decide +kernel)).2.2.1 (by decide) (by decide +kernel)
  have g3 := ((hg (partyOf (joined 1 4))).2.2 0 { full with mask := 4 } (by decide +kernel) (by decide +kernel)).2.2.2 (by decide)
    (by decide +kernel) 2 _ (by decide +kernel) (.noFrame _ _ _ (by decide +kernel) (waits_after (by decide +kernel)))
  have calm {s : State} {r : Party} {o : Origin} {y : Wait} (hs : s.party? 1 0 = some (partyOf s)) (hq : go (partyOf s) = r)
      (hr : ((s.modParty 1 0 fun _ => r).retireFinished 1 0 o y).stuck = false) :
      ((s.modParty 1 0 go).retireFinished 1 0 o y).stuck = false := by
    rw [State.modParty_congr hs (g := fun _ => r) hq]; exact hr
  refine ⟨⟨_, x s0 (plain_of (by decide +kernel)) (none_left g0 (by decide +kernel) s0) (calm (by decide +kernel) g0 ?_)⟩,
    ⟨_, x (joined 2 3) (plain_of (by decide +kernel)) (none_left g1 (by decide +kernel) _) (calm (by decide +kernel) g1 ?_)⟩,
    ⟨_, x (joined 1 3) (plain_of (by decide +kernel)) (none_left g2 (by decide +kernel) _) (calm (by decide +kernel) g2 ?_)⟩,
    ⟨_, x (joined 1 4) (plain_of (by decide +kernel)) (none_left g3 (by decide +kernel) _) (calm (by decide +kernel) g3 ?_)⟩⟩
  all_goals decide +kernel

/-- Slot 0 of the core holds an open convoy of the team, slot 1 a view; s12 and s13 hold their tokens. -/
def convoy : CvSlot :=
  { view := false, tid := 1, cid := 7, ver := 1, stamp := 0, lost := false, state := .opened, lines := [], opener := none,
    closing := none }

def sc : State :=
  ({ s0 with cvSlots := [(0, convoy), (1, { convoy with view := true, cid := 0 })], cvTable := [(7, .opened)] } : State).modParty 1 0
    fun q => { q with sregs := Store.write (Store.write q.sregs 12 7) 13 0x81000000 }

/-- Lanes 0 and 1 exit, and lane 2 goes on; and the last lanes exit while the convoy is open. -/
theorem test_meets_Exits (h : Obligations.Exits) :
    Completes (exec .exit (sp fun q => { q with live := 7 })) ∧ Completes (exec .exit sc) := by
  obtain ⟨go, hg, he⟩ := h false
  have g {s : State} {r : Party} (h1 : (partyOf s).slot1.live = false)
      (hu : UnwindsIn false false 2 { (partyOf s).modSlot true (fun y => { y with mask := y.mask &&& ~~~((partyOf s).active false) }) |>.modSlot
        false (fun y => { y with mask := 0 }) with live := (partyOf s).live &&& ~~~((partyOf s).active false) } r)
      (hr : 2 ≤ Party.rounds ({ (partyOf s).modSlot true (fun y => { y with mask := y.mask &&& ~~~((partyOf s).active false) }) |>.modSlot
        false (fun y => { y with mask := 0 }) with live := (partyOf s).live &&& ~~~((partyOf s).active false) })) :
      go ((partyOf s).active false) (partyOf s) = r :=
    ((hg _ (partyOf s)).2.2.2.2 2 r hr hu).1 (.inl h1)
  have g0 := g (s := sp fun q => { q with live := 7 }) (by decide +kernel)
    (.noFrame _ _ _ (by decide +kernel) (waits_after (by decide +kernel))) (by decide +kernel)
  have g1 := g (s := sc) (by decide +kernel) (.noFrame _ _ _ (by decide +kernel) (waits_after (by decide +kernel))) (by decide +kernel)
  have x (s : State) := he s ⟨1, 0, false⟩ (teamOf s) (partyOf s) placedNode s rfl
  have none_left {s : State} {f : Delivered → Bool} (hr : ((partyOf s).records.all fun d => recJoin d.words == none) = true) :
      s.retireRelease (teamOf s).core 1 0 (partyOf s) ((partyOf s).records.filter f) = (s, none) := by
    simp only [List.all_eq_true, beq_iff_eq] at hr
    rw [State.retireRelease, List.filterMap_eq_nil_iff.mpr fun d hd => hr d (List.mem_of_mem_filter hd)]
    rfl
  have left {s : State} {r : Party} {o : Origin} {y : Wait} {gone : Delivered → Bool} (hs : s.party? 1 0 = some (partyOf s))
      (hq : go ((partyOf s).active false) (partyOf s) = r) :
      ((s.modParty 1 0 (go ((partyOf s).active false))).retireParty 1 0 o y gone).1.retireFinished 1 0 o y =
        ((s.modParty 1 0 fun _ => r).retireParty 1 0 o y gone).1.retireFinished 1 0 o y := by
    rw [State.modParty_congr hs (g := fun _ => r) hq]
  refine ⟨⟨_, (x (sp fun q => { q with live := 7 }) (plain_of (by decide +kernel)) (by decide +kernel) (none_left (by decide +kernel))).1
      (.inr (.inl (by decide +kernel))) (by rw [left (by decide +kernel) g0]; decide +kernel)⟩,
    ⟨_, (x sc (plain_of (by decide +kernel)) (by decide +kernel) (none_left (by decide +kernel))).2 convoy (by decide +kernel)
      (by decide +kernel) (by rw [left (by decide +kernel) g1]; decide +kernel) (by rw [left (by decide +kernel) g1]; decide +kernel)⟩⟩


/-! ## Witnesses: memory -/

theorem test_meets_vld (h : Obligations.LoadsIssue) : Completes (exec (.vld 8 4 (.reg 2) none .ca .w32) s0) := by
  refine ⟨_, h.1 8 4 (.reg 2) none .ca .w32 s0 _ _ _ _ _ _ (executes_of ?_) ?_ ?_ ?_ (ok_of [] ?_) ?_ ?_⟩ <;> decide +kernel

theorem test_meets_sld (h : Obligations.LoadsIssue) : Completes (exec (.sld 6 8 (.reg 0) .d64 ⟨.acq, .dv⟩ .ca) s0) := by
  refine ⟨_, h.2.1 6 8 (.reg 0) .d64 ⟨.acq, .dv⟩ .ca s0 _ _ _ _ _ _ (executes_of ?_) ?_ ?_ ?_ (ok_of [] ?_) ?_ ?_⟩ <;>
    decide +kernel

/-- No lane of the party is active. -/
def sIdle : State := sp fun q => { q with slot0 := { q.slot0 with mask := 0 } }

theorem test_meets_loads_idle (h : Obligations.LoadsIssue) :
    Completes (exec (.vld 8 4 (.reg 2) none .ca .w32) sIdle) ∧ Completes (exec (.vldg 8 4 (.reg 2) none .ca .w32) sIdle) ∧
      Completes (exec (.vldgPart 8 4 (.reg 2) none .ca .w32 1) sIdle) := by
  have x := h.2.2.1 8 4 (.reg 2) none .ca .w32 1 sIdle ⟨1, 0, false⟩ sIdle (teamOf sIdle) (partyOf sIdle)
  refine ⟨⟨_, x.1 (executes_of ?_) ?_ ?_⟩, ⟨_, x.2.1 (executes_of ?_) ?_ ?_⟩, ⟨_, x.2.2 (executes_of ?_) ?_ ?_⟩⟩ <;>
    decide +kernel

/-- Lane 1 is at 1 GiB, past the page that the core's translations hold. -/
def sFar : State := sp fun q => { q with vregs := Store.write q.vregs (96 * 2 + 1) 0x40000000 }

/-- The same where the page is for privileged parties alone: lane 0 fails, and lane 1 has yet to be walked. -/
def sUnread : State := { sFar with tlbCore := [(0, [{ sTlb with leaf := 0x173 }])] }

/-- No translation is near. -/
def sMiss : State := { s0 with tlbCore := [] }

theorem test_meets_vldg (h : Obligations.LoadsIssue) : Completes (exec (.vldg 8 4 (.reg 2) none .ca .w32) sFar) := by
  refine ⟨_, h.2.2.2.1 8 4 (.reg 2) none .ca .w32 sFar _ _ _ _ (executes_of ?_) ?_ ?_ ?_ ?_ (.inl ?_) ?_⟩ <;> decide +kernel

theorem test_meets_vldg_fails (h : Obligations.LoadsIssue) : Completes (exec (.vldg 8 4 (.reg 2) none .ca .w32) sUnread) := by
  refine ⟨_, h.2.2.2.1 8 4 (.reg 2) none .ca .w32 sUnread _ _ _ _ (executes_of ?_) ?_ ?_ ?_ ?_ (.inr ?_) ?_⟩ <;> decide +kernel

/-- Nothing has failed in the other one, so that its first alternative is not met. -/
theorem test_vldg_unread :
    failing (nearLanes sUnread (teamOf sUnread) .load ((partyOf sUnread).eaLanes false 4 (.reg 2))) ≠ none := by
  decide +kernel

theorem test_meets_vldgPart (h : Obligations.LoadsIssue) :
    Completes (exec (.vldgPart 8 4 (.reg 2) none .ca .w32 1) sFar) ∧
      Completes (exec (.vldgPart 8 4 (.reg 2) none .ca .w32 1) sMiss) := by
  have x (s : State) := h.2.2.2.2 8 4 (.reg 2) none .ca .w32 1 s ⟨1, 0, false⟩ s (teamOf s) (partyOf s)
  refine ⟨(x sFar (executes_of ?_) ?_ ?_ ?_ ?_ ?_ ?_).elim fun _ y => ⟨_, y.2⟩,
    (x sMiss (executes_of ?_) ?_ ?_ ?_ ?_ ?_ ?_).elim fun _ y => ⟨_, y.2⟩⟩ <;> decide +kernel

/-- A writable page of this device, convoy-capable. -/
def aTarget (pa : Nat) : Target := { pa := pa, peer := none, mt := 0, wsa := false, cv := true, mig := false }

/-- A load of four bytes at 0x20000 whose data is to return. -/
def loading (o : Ord) : Access :=
  { id := 9, kind := .vld, slot := false, pc := 4, clause := 0, word := 0, dest := 8, size := .w32, ord := o, pol := .ca,
    lanes := [{ lane := 0, va := 0x20000, tgt := some (aTarget 0x20000), failed := none, val := none }], data := [], view := 0,
    missed := none, fall := 0 }

/-- A byte of that line stands in the core's buffer. -/
def sLoading (o : Ord) : State :=
  { sp fun q => { q with accesses := [loading o] } with
    wcb := [(0, [{ line := 0x800, bytes := [(1, 7)], owners := [(1, 0)], last := 0 }])] }

/-- The readable lanes and the buffer of the statement, decidably. -/
def readableIn (s : State) (n : Nat) (ls : List LaneAcc) : Bool :=
  ls.all fun x => x.failed.isNone && x.val.isNone && match x.tgt with
    | some g => decide (g.peer = none ∧ g.pa % n = 0 ∧ s.owned g.pa = false ∧ s.bankClosed g.pa = false ∧
        regionOf g.pa ≠ .device ∧ s.poisoned g.pa n = false)
    | none => false

theorem readable_of {s : State} {n : Nat} {ls : List LaneAcc} (h : readableIn s n ls = true) : ReadableLanes s n ls := by
  intro x hx
  have := List.all_eq_true.mp h x hx
  cases ht : x.tgt with
  | none => simp [ht] at this
  | some g =>
    simp only [ht, Bool.and_eq_true, Option.isNone_iff_eq_none, decide_eq_true_eq] at this
    exact ⟨this.1.1, this.1.2, g, rfl, this.2⟩

theorem buffer_of {s : State} {core : Nat} (h : decide (((s.wcbOf core).map WcbEntry.line).Nodup ∧
    ∀ e ∈ s.wcbOf core, regionOf (64 * e.line) ≠ .device ∧ (e.bytes.map Prod.fst).Pairwise (· < ·) ∧ ∀ x ∈ e.bytes, x.1 < 64) =
      true) : BufferOk s core := by
  unfold BufferOk; exact of_decide_eq_true h

theorem test_meets_LoadsReturn (h : Obligations.LoadsReturn) :
    Completes (exec (.memoryReadResponse 1 0 9) (sLoading ⟨.wk, .pt⟩)) ∧
      Completes (exec (.memoryReadResponse 1 0 9) (sLoading ⟨.acq, .dvRem⟩)) := by
  have x (o : Ord) := h (sLoading o) 1 0 9 (teamOf (sLoading o)) (partyOf (sLoading o)) (loading o)
  refine ⟨⟨_, x ⟨.wk, .pt⟩ ?_ ?_ ?_ ?_ ?_ ?_ ?_ ?_ (readable_of ?_) (buffer_of ?_) ?_⟩,
    ⟨_, x ⟨.acq, .dvRem⟩ ?_ ?_ ?_ ?_ ?_ ?_ ?_ ?_ (readable_of ?_) (buffer_of ?_) ?_⟩⟩ <;> decide +kernel

theorem test_meets_vst (h : Obligations.StoresIssue) :
    Completes (exec (.vst 8 4 (.reg 2) (some ⟨.rel, .dv⟩) .ca .w32) s0) ∧
      Completes (exec (.vst 8 4 (.reg 2) none .ca .w32) sIdle) := by
  have x (o : Option Ord) (s : State) := h.1 8 4 (.reg 2) o .ca .w32 s
  refine ⟨⟨_, x _ s0 _ _ _ _ _ _ _ (executes_of ?_) ?_ ?_ (ok_of [] ?_) ?_ ?_ ?_ (pair_of ?_) ?_⟩,
    ⟨_, x _ sIdle _ _ _ _ _ _ _ (executes_of ?_) ?_ ?_ (ok_of [] ?_) ?_ ?_ ?_ (pair_of ?_) ?_⟩⟩ <;> decide +kernel

theorem test_meets_sst (h : Obligations.StoresIssue) : Completes (exec (.sst 6 8 (.reg 0) .d64 ⟨.wk, .pt⟩ .ca) s0) := by
  refine ⟨_, h.2.1 6 8 (.reg 0) .d64 ⟨.wk, .pt⟩ .ca s0 _ _ _ _ _ _ _ (executes_of ?_) ?_ ?_ (ok_of [] ?_) ?_ ?_ ?_
    (pair_of ?_) ?_⟩ <;> decide +kernel

theorem test_meets_vsts (h : Obligations.StoresIssue) :
    Completes (exec (.vsts 8 4 (.reg 2) none .ca .w32) sIdle) ∧ Completes (exec (.vsts 8 4 (.reg 2) none .ca .w32) s0) ∧
      Completes (exec (.vsts 8 4 (.reg 2) none .ca .w32) sFar) := by
  have x (s : State) := h.2.2.2 8 4 (.reg 2) none .ca .w32 s
  refine ⟨⟨_, h.2.2.1 8 4 (.reg 2) none .ca .w32 sIdle _ _ _ _ (executes_of ?_) ?_ ?_⟩,
    ⟨_, x s0 _ _ _ _ _ _ (executes_of ?_) ?_ ?_ ?_ ?_ ?_ ?_ rfl ?_ ?_⟩,
    ⟨_, x sFar _ _ _ _ _ _ (executes_of ?_) ?_ ?_ ?_ ?_ ?_ ?_ rfl ?_ ?_⟩⟩ <;> decide +kernel

/-- A store of each width at its last place in a line, and a buffer that holds the line before. -/
theorem test_meets_StoresWriteBytes (h : Obligations.StoresWriteBytes) :
    let s := s0.storeLanes 0 1 0 ⟨0, 0, 0, some 0, false⟩ 4 [(aTarget 0x20000, 0x20000, 5)]
    (s.storeLanes 0 1 0 ⟨0, 0, 0, some 0, false⟩ 8 [(aTarget 0x20038, 0x20038, 7)]).coreByte 0 0x20038 = 7 := by
  intro s
  rw [h s 0 1 0 ⟨0, 0, 0, some 0, false⟩ 8 _ (by decide +kernel) (by decide +kernel) (by decide) (buffer_of (by decide +kernel))
    (by decide +kernel) (by decide +kernel) (by decide +kernel) (by decide +kernel)]
  decide +kernel

theorem test_meets_lld (h : Obligations.LocalAndTileAccess) : Completes (exec (.lld 8 6 (.lit 2) .w32) s0) := by
  refine ⟨_, h.2.2.1 8 6 (.lit 2) .w32 s0 _ _ _ _ (executes_of ?_) ?_ ?_ ?_ ?_⟩ <;> decide +kernel

theorem test_meets_lld_idle (h : Obligations.LocalAndTileAccess) : Completes (exec (.lld 8 6 (.lit 2) .w32) sIdle) ∧
    Completes (exec (.ald true 8 6 10) sIdle) := by
  refine ⟨⟨_, h.1 8 6 (.lit 2) .w32 sIdle _ _ _ _ (executes_of ?_) ?_ ?_⟩, ⟨_, h.2.1 true 8 6 10 sIdle _ _ _ _ (executes_of ?_) ?_ ?_⟩⟩ <;>
    decide +kernel

/-- The last word of the local store. -/
theorem test_meets_lst (h : Obligations.LocalAndTileAccess) : Completes (exec (.lst 8 6 (.lit 491514) .w32) s0) := by
  refine (h.2.2.2.1 8 6 (.lit 491514) .w32 s0 _ _ _ _ (executes_of ?_) ?_ ?_).elim fun _ x => ⟨_, x.1⟩ <;> decide +kernel

theorem test_meets_ald (h : Obligations.LocalAndTileAccess) : Completes (exec (.ald true 8 6 10) s0) := by
  refine (h.2.2.2.2.1 true 8 6 10 s0 _ _ _ _ (executes_of ?_) ?_ ?_ ?_).elim fun _ x => ⟨_, x.2⟩ <;> decide +kernel

theorem test_meets_ast (h : Obligations.LocalAndTileAccess) : Completes (exec (.ast false 8 6 11) s0) := by
  refine ⟨_, h.2.2.2.2.2 false 8 6 11 s0 _ _ _ _ (executes_of ?_) ?_⟩ <;> decide +kernel

theorem test_meets_pref (h : Obligations.FencesAndReleases) : Completes (exec (.pref 4 (.reg 0) .cn) s0) := by
  refine (h.1 4 (.reg 0) .cn s0 _ _ _ _ (executes_of ?_)).elim fun _ x => ⟨_, x.2.2⟩; decide +kernel

theorem test_meets_fence (h : Obligations.FencesAndReleases) :
    Completes (exec (.fence .acq .dv) s0) ∧ Completes (exec (.fence .ar .sy) s0) ∧ Completes (exec (.fence .rel .tm) s0) := by
  refine ⟨⟨_, h.2.1 .dv s0 _ _ _ _ (executes_of ?_) ?_⟩,
    ⟨_, h.2.2.1 .ar .sy s0 _ _ _ _ _ (executes_of ?_) ?_ (fun _ => ?_) (pair_of ?_) ?_⟩,
    ⟨_, h.2.2.1 .rel .tm s0 _ _ _ _ _ (executes_of ?_) ?_ (absurd rfl) (pair_of ?_) ?_⟩⟩ <;> decide +kernel

theorem test_meets_cclean (h : Obligations.FencesAndReleases) :
    Completes (exec (.cclean 4 (.lit 256) .dv) s0) ∧ Completes (exec (.cinval 4 (.lit 256) .dv) s0) := by
  have x := h.2.2.2.1 4 (.lit 256) .dv s0 ⟨1, 0, false⟩ s0 (teamOf s0) (partyOf s0) _ (by decide +kernel)
    (pair_of (by decide +kernel)) (by decide +kernel) (by decide +kernel)
  exact ⟨⟨_, x.1 (executes_of (by decide +kernel))⟩, ⟨_, x.2 (executes_of (by decide +kernel))⟩⟩

theorem test_meets_release (h : Obligations.FencesAndReleases) : (partyOf s0).accesses = [] :=
  (h.2.2.2.2 s0 _ 0 1 0 (partyOf s0) .sy (pair_of (by decide +kernel))).1

theorem test_meets_vatom (h : Obligations.AtomicsIssue) :
    Completes (exec (.vatom .add .i32 ⟨.ar, .dv⟩ 8 4 (.reg 2)) s0) ∧
      Completes (exec (.vatom .add .i32 ⟨.acq, .dvRem⟩ 8 4 (.reg 2)) s0) ∧
      Completes (exec (.vatom .add .i32 ⟨.st, .dv⟩ 8 4 (.reg 2)) sIdle) := by
  have x (o : Ord) (s : State) := h.1 .add .i32 o 8 4 (.reg 2) s ⟨1, 0, false⟩
  refine ⟨⟨_, (x _ s0 _ _ _ _ _ _ (executes_of ?_) ?_ ?_ (ok_of [] ?_) ?_ ?_ ?_ ?_ (pair_of ?_)).2 _ _ ?_ ?_ (ok_of [] ?_) ?_⟩,
    ⟨_, (x _ s0 _ _ _ _ _ _ (executes_of ?_) ?_ ?_ (ok_of [] ?_) ?_ ?_ ?_ ?_ (pair_of ?_)).2 _ _ ?_ ?_ (ok_of [] ?_) ?_⟩,
    ⟨_, (x _ sIdle _ _ _ _ _ _ (executes_of ?_) ?_ ?_ (ok_of [] ?_) ?_ ?_ ?_ ?_ (pair_of ?_)).1 ?_ ?_⟩⟩ <;> decide +kernel

theorem test_meets_satom (h : Obligations.AtomicsIssue) : Completes (exec (.satom .cas .n64 ⟨.st, .dv⟩ 12 8 (.reg 0)) s0) := by
  refine ⟨_, (h.2.1 .cas .n64 ⟨.st, .dv⟩ 12 8 (.reg 0) s0 _ _ _ _ _ _ _ (executes_of ?_) ?_ ?_ (ok_of [] ?_) ?_ ?_ ?_ ?_
    (pair_of ?_)).2 _ _ ?_ ?_ (ok_of [] ?_) ?_⟩ <;> decide +kernel

theorem test_meets_vredm (h : Obligations.AtomicsIssue) :
    Completes (exec (.vredm .fadd .f32 ⟨.st, .dv⟩ 8 4 (.reg 2)) s0) ∧
      Completes (exec (.vredm .fadd .f32 ⟨.acq, .dvRem⟩ 8 4 (.reg 2)) s0) ∧
      Completes (exec (.vredm .fadd .f32 ⟨.rel, .dv⟩ 8 4 (.reg 2)) sIdle) := by
  have x (o : Ord) (s : State) := h.2.2.1 .fadd .f32 o 8 4 (.reg 2) s ⟨1, 0, false⟩
  refine ⟨⟨_, (x _ s0 _ _ _ _ _ _ (executes_of ?_) ?_ ?_ (ok_of [] ?_) ?_ ?_ ?_ ?_ (pair_of ?_)).2 _ ?_ (pair_of ?_) ?_ ?_⟩,
    ⟨_, (x _ s0 _ _ _ _ _ _ (executes_of ?_) ?_ ?_ (ok_of [] ?_) ?_ ?_ ?_ ?_ (pair_of ?_)).2 _ ?_ (pair_of ?_) ?_ ?_⟩,
    ⟨_, (x _ sIdle _ _ _ _ _ _ (executes_of ?_) ?_ ?_ (ok_of [] ?_) ?_ ?_ ?_ ?_ (pair_of ?_)).1 ?_ ?_⟩⟩ <;> decide +kernel

/-- Lane 0 alone is active. -/
def sOne : State := sp fun q => { q with slot0 := { q.slot0 with mask := 1 } }

theorem test_meets_lredm (h : Obligations.AtomicsIssue) :
    Completes (exec (.lredm .max .i32 ⟨.st, .tm⟩ 8 6 (.lit 2)) s0) ∧
      Completes (exec (.lredm .max .i32 ⟨.rel, .dv⟩ 8 6 (.lit 2)) sIdle) := by
  have x (o : Ord) (s : State) := h.2.2.2 .max .i32 o 8 6 (.lit 2) s ⟨1, 0, false⟩
  refine ⟨((x _ s0 _ _ _ _ (executes_of ?_) ?_ ?_ (pair_of ?_) ?_ ?_).2 ?_).elim fun _ y => ⟨_, y.1⟩,
    ⟨_, (x _ sIdle _ _ _ _ (executes_of ?_) ?_ ?_ (pair_of ?_) ?_ ?_).1 ?_⟩⟩ <;> decide +kernel

/-- Two lanes add 5 and 7 to one word of the local store, and to the 0 that it holds. -/
def sAdds : State := sp fun q => { q with vregs := Store.write (Store.write q.vregs (96 * 8) 5) (96 * 8 + 1) 7 }

theorem test_meets_lredm_lanes (h : Obligations.AtomicsIssue) :
    ∃ u : Team, u.lsRead 4 4 = 12 ∧ Completes (exec (.lredm .add .i32 ⟨.st, .tm⟩ 8 6 (.lit 2)) sAdds) := by
  have x := h.2.2.2 .add .i32 ⟨.st, .tm⟩ 8 6 (.lit 2) sAdds ⟨1, 0, false⟩ _ _ _ _ (executes_of (by decide +kernel))
    (by decide +kernel) (by decide +kernel) (pair_of (by decide +kernel)) (by decide +kernel) (by decide +kernel)
  obtain ⟨u, he, -, -, hl⟩ := x.2 (by decide +kernel)
  exact ⟨u, ((hl 0 (by decide +kernel)).1 (by decide) (by decide) (by decide) (by decide)).trans (by decide +kernel), _, he⟩

/-- What AtomicResults and lredm say of floating point: 1.5 + 1.5 = 3, and the smaller of 1.5 and −0. -/
theorem test_AtomicResults_float : atomNew .fadd .f32 0x3FC00000 0 0x3FC00000 = 0x40400000 ∧
    atomNew .min .f32 0x3FC00000 0 0x80000000 = 0x80000000 ∧ atomNew .max .f64 0x7FF8000000000001 0 0 = 0x7FF8000000000000 := by
  decide +kernel


/-! ## Witnesses: copies, streams and engines -/

def withHandles (s : State) : State :=
  ({ s with mem := writeBytes s.mem (withAddr 0x30000 (toBytes 16 hA) ++ withAddr 0x30010 (toBytes 16 hB) ++
      withAddr 0x30020 (toBytes 16 (hA + 3 * 2 ^ 60))) } : State).modTeam 1 fun t =>
    { t with handles := Store.write (Store.write (Store.write t.handles 0 0x30001) 1 0x30011) 2 0x30021 }

/-- h2 names the tile of h0 in BF16. -/
def sh : State := withHandles s0

/-- A channel without commands. -/
def idleChan (n : Nat) : Channel := { phys := n, cmds := [], next := 0, wptr := 0xFE000000 }

theorem test_meets_cpy (h : Obligations.CopiesIssue) :
    Completes (exec (.cpy 12 7 0 1 .dv) sh) ∧ Completes (exec (.cpy 12 0 2 1 .pt) sh) := by
  refine ⟨⟨_, h.1 12 7 0 1 .dv sh _ _ _ _ _ _ _ _ _ (idleChan 7) (executes_of ?_) (ok_of 0 ?_) (ok_of 0 ?_) ?_ ?_ ?_ ?_ ?_ ?_ ?_ ?_
      ?_ (pair_of ?_) ?_⟩,
    ⟨_, h.1 12 0 2 1 .pt sh _ _ _ _ _ _ _ _ _ (idleChan 0) (executes_of ?_) (ok_of 0 ?_) (ok_of 0 ?_) ?_ ?_ ?_ ?_ ?_ ?_ ?_ ?_
      ?_ (pair_of ?_) ?_⟩⟩ <;> decide +kernel

/-- The index register v2 holds row 0 in lane 0 and the mark of a row that is left out in lane 1. -/
def sIndexed : State := sh.modParty 1 0 fun q => { q with vregs := Store.write q.vregs (96 * 2 + 1) 0xFFFFFFFF }

theorem test_meets_cpg (h : Obligations.CopiesIssue) : Completes (exec (.cpg 12 0 0 1 .dv 2) sIndexed) := by
  refine ⟨_, h.2.1 true 12 0 0 1 .dv 2 sIndexed _ _ _ _ _ _ _ _ _ (idleChan 0) (executes_of ?_) (ok_of 0 ?_) (ok_of 0 ?_) ?_ ?_ ?_
    ?_ ?_ ?_ ?_ ?_ ?_ (pair_of ?_) ?_⟩ <;> decide +kernel

theorem test_meets_cps (h : Obligations.CopiesIssue) : Completes (exec (.cps 12 0 0 1 .dv 2) sIndexed) := by
  refine ⟨_, h.2.1 false 12 0 0 1 .dv 2 sIndexed _ _ _ _ _ _ _ _ _ (idleChan 0) (executes_of ?_) (ok_of 0 ?_) (ok_of 0 ?_) ?_ ?_ ?_
    ?_ ?_ ?_ ?_ ?_ ?_ (pair_of ?_) ?_⟩ <;> decide +kernel

/-- A node of a cluster group of two, with rings of two slots of 128 bytes. -/
def groupNode : Node := { placedNode with group := 2, rslots := 2, rsize := 2 }

/-- Member 0 of a group of two, whose member 1 is team 5 on the next core. -/
def sg : State :=
  let s := (sh.modRun 2 fun r => { r with image := { r.image with nodes := [groupNode] } }).modTeam 1 fun t =>
    { t with group := some (1, 2), free := [(1, 2)] }
  { s with teams := Map.set s.teams 5 { teamOf s with vcore := 1, core := 1, free := [(0, 1)] } }

theorem test_meets_cpm (h : Obligations.CopiesIssue) :
    Completes (exec (.cpm 12 0 1 .dv 6) sg) ∧ Completes (exec (.cpm 12 0 1 .dv 0) sg) := by
  have x (m : SReg) := fun s1 s2 src => h.2.2 12 0 1 .dv m sg ⟨1, 0, false⟩ sg (teamOf sg) (partyOf sg) s1 s2 src (idleChan 0) groupNode
  refine ⟨⟨_, x 6 _ _ _ (executes_of ?_) (ok_of 0 ?_) ?_ ?_ ?_ ?_ ?_ ?_ ?_ ?_ (pair_of ?_) ?_⟩,
    ⟨_, x 0 _ _ _ (executes_of ?_) (ok_of 0 ?_) ?_ ?_ ?_ ?_ ?_ ?_ ?_ ?_ (pair_of ?_) ?_⟩⟩ <;> decide +kernel

theorem test_meets_cpwpRead (h : Obligations.ChannelsAndStreams) : Completes (exec (.cpwpRead 12 7) s0) := by
  refine ⟨_, h.1 12 7 s0 _ _ _ _ (idleChan 7) (executes_of ?_) ?_⟩ <;> decide +kernel

/-- s1 is changed. -/
def sOne' (v : Word) : State := sp fun q => { q with sregs := Store.write q.sregs 1 v }

/-- The pointer's own sequence number, 127, and one that the pointer is 64 commands past. -/
theorem test_meets_cpwpWait (h : Obligations.ChannelsAndStreams) :
    Completes (exec (.cpwpWait 12 0 1) (sOne' 0xFE000000)) ∧ Completes (exec (.cpwpWait 12 0 1) (sOne' 0x7E000000)) := by
  have x (v : Word) := h.2.1 12 0 1 (sOne' v) ⟨1, 0, false⟩ (sOne' v) (teamOf (sOne' v)) (partyOf (sOne' v)) (idleChan 0)
  refine ⟨⟨_, x 0xFE000000 (executes_of ?_) ?_ ?_⟩, ⟨_, x 0x7E000000 (executes_of ?_) ?_ ?_⟩⟩ <;> decide +kernel

/-- One slot comes back to a ring of two of which one is free; and to a member that has ended. -/
theorem test_meets_cpwpAck (h : Obligations.ChannelsAndStreams) :
    Completes (exec (.cpwpAck 1 7) sg) ∧
      Completes (exec (.cpwpAck 1 7) { sg with teams := Map.drop sg.teams 5 }) := by
  refine ⟨⟨_, h.2.2.1 1 7 sg _ _ _ _ 5 ((Map.find sg.teams 5).getD (teamOf sg)) groupNode (executes_of ?_) ?_ ?_ ?_ ?_ ?_⟩,
    ⟨_, h.2.2.2.1 1 7 { sg with teams := Map.drop sg.teams 5 } _ _ _ _ (executes_of ?_) ?_ ?_⟩⟩ <;> decide +kernel

theorem test_meets_cpwpRecv (h : Obligations.ChannelsAndStreams) : Completes (exec (.cpwpRecv 12 1) sg) := by
  refine ⟨_, h.2.2.2.2.1 12 1 sg _ _ _ _ (executes_of ?_) ?_⟩ <;> decide +kernel

theorem test_meets_cpcan (h : Obligations.ChannelsAndStreams) : Completes (exec (.cpcan 7) s0) :=
  ⟨_, h.2.2.2.2.2.1 7 s0 _ _ _ _ (issues_of (by decide +kernel))⟩

/-- A load stream is bound to q1, and a store stream with nothing pushed to q2. -/
def sPorts : State := sh.modParty 1 0 fun q => { q with ports := [(1, { portState with kind := .load }), (2, portState)] }

theorem test_meets_qbind (h : Obligations.ChannelsAndStreams) :
    Completes (exec (.qbind 3 0 .dv) sh) ∧ Completes (exec (.qbind 2 0 .dv) sPorts) ∧ Completes (exec (.qbind 1 0 .pt) sPorts) := by
  have x (n : BitVec 2) (c : Scope) (s : State) := h.2.2.2.2.2.2.1 n 0 c s ⟨1, 0, false⟩ s (teamOf s) (partyOf s)
  refine ⟨⟨_, x 3 .dv sh _ _ _ _ (executes_of ?_) (ok_of 0 ?_) ?_ ?_ ?_ (pair_of ?_) (pair_of ?_) ?_⟩,
    ⟨_, x 2 .dv sPorts _ _ _ _ (executes_of ?_) (ok_of 0 ?_) ?_ ?_ ?_ (pair_of ?_) (pair_of ?_) ?_⟩,
    ⟨_, x 1 .pt sPorts _ _ _ _ (executes_of ?_) (ok_of 0 ?_) ?_ ?_ ?_ (pair_of ?_) (pair_of ?_) ?_⟩⟩ <;> decide +kernel

theorem test_meets_qclose (h : Obligations.ChannelsAndStreams) :
    Completes (exec (.qclose 0) s0) ∧ Completes (exec (.qclose 2) sPorts) ∧ Completes (exec (.qclose 1) sPorts) := by
  have x (n : BitVec 2) (s : State) := h.2.2.2.2.2.2.2 n s ⟨1, 0, false⟩ s (teamOf s) (partyOf s)
  refine ⟨⟨_, (x 0 s0 (executes_of ?_) ?_).1 ?_⟩,
    ⟨_, ((x 2 sPorts (executes_of ?_) ?_).2 portState ?_).1 _ ?_ (pair_of ?_) ?_⟩,
    ⟨_, ((x 1 sPorts (executes_of ?_) ?_).2 { portState with kind := .load } ?_).2 ?_ ?_⟩⟩ <;> decide +kernel

/-- The blocks at 0x20000 and 0x21000 are zero. -/
theorem streams {i : Instr} {kind : SsuKind} {d a b : SReg} {n : Nat} (h : StreamIssues i kind d a b n) (hi : issuesIn i s0 = true)
    (ha : ((partyOf s0).base false a).toNat % 64 = 0)
    (hb : isOk ((s0.release 0 1 0 (partyOf s0) .dv).1.engineRead (some 0) (s0.tagOf (teamOf s0)) false
      ((partyOf s0).base false a).toNat n) = true)
    (hc : ((s0.release 0 1 0 (partyOf s0) .dv).1.engineRead (some 0) (s0.tagOf (teamOf s0)) false
      ((partyOf s0).base false a).toNat n).1.stuck = false) : Completes (exec i s0) := by
  obtain ⟨c, s3, x⟩ := h s0 ⟨1, 0, false⟩ s0 (teamOf s0) (partyOf s0) _ _ _ _ (executes_of hi) ha (by decide +kernel)
    (pair_of (by decide +kernel)) (ok_pair ([], false) hb) hc
  apply Exists.intro
  repeat (first | exact x | replace x := x.2)

theorem test_meets_streams (h : Obligations.EngineCommands) :
    Completes (exec (.ssint 12 4 8 .cnt) s0) ∧ Completes (exec (.ssmerge 12 4 8 true false .max) s0) ∧
      Completes (exec (.ssscan 12 4 8) s0) ∧ Completes (exec (.spx 12 4) s0) := by
  refine ⟨streams (h.1 12 4 8 .cnt) ?_ ?_ ?_ ?_, streams (h.2.1 12 4 8 true false .max) ?_ ?_ ?_ ?_,
    streams (h.2.2.1 12 4 8) ?_ ?_ ?_ ?_, streams (h.2.2.2.1 12 4) ?_ ?_ ?_ ?_⟩ <;> decide +kernel

/-- The grid descriptor at 0x20000 names no overflow node, or edge 0 of the node. -/
def sGrid : State := { s0 with mem := writeBytes s0.mem (withAddr 0x20022 [0xFF, 0xFF]) }

def sOverflow : State := s0.modRun 2 fun r => { r with
  image := { r.image with
    nodes := [{ placedNode with nout := 1 }], edges := [{ target := 0, type := 0, cyc := true, prio := 3, cls := 0 }] } }

theorem test_meets_nbbin (h : Obligations.EngineCommands) :
    Completes (exec (.nbbin 12 4) sGrid) ∧ Completes (exec (.nbbin 12 4) sOverflow) := by
  have x (s : State) := h.2.2.2.2.1 none 12 4 s ⟨1, 0, false⟩ s (teamOf s) (partyOf s)
  constructor
  · obtain ⟨c, x⟩ := x sGrid _ _ _ _ (executes_of (by decide +kernel)) (by decide +kernel) (by decide +kernel)
      (pair_of (by decide +kernel)) (ok_pair ([], false) (by decide +kernel)) (fun _ => .inl (by decide +kernel)) (by decide +kernel)
    apply Exists.intro
    repeat (first | exact x | replace x := x.2)
  · obtain ⟨c, x⟩ := x sOverflow _ _ _ _ (executes_of (by decide +kernel)) (by decide +kernel) (by decide +kernel)
      (pair_of (by decide +kernel)) (ok_pair ([], false) (by decide +kernel)) (fun _ => .inr (by decide +kernel)) (by decide +kernel)
    apply Exists.intro
    repeat (first | exact x | replace x := x.2)

theorem test_meets_nbpairs (h : Obligations.EngineCommands) : Completes (exec (.nbpairs 12 4 true) s0) := by
  obtain ⟨c, x⟩ := h.2.2.2.2.1 (some true) 12 4 s0 ⟨1, 0, false⟩ s0 (teamOf s0) (partyOf s0) _ _ _ _ (executes_of (by decide +kernel))
    (by decide +kernel) (by decide +kernel) (pair_of (by decide +kernel)) (ok_pair ([], false) (by decide +kernel))
    (by decide +kernel) (by decide +kernel)
  apply Exists.intro
  repeat (first | exact x | replace x := x.2)

theorem test_meets_nbstat (h : Obligations.EngineCommands) : Completes (exec (.nbstat 12) s0) :=
  ⟨_, h.2.2.2.2.2 12 s0 _ _ _ _ (executes_of (by decide +kernel))⟩

/-! ## Witnesses: convoys -/

theorem test_meets_cvopen_view (h : Obligations.ConvoysIssue) : Completes (exec (.cvopen 14 0 true) sc) := by
  refine (h.1 14 0 sc _ _ _ _ (executes_of ?_) ?_ ⟨15, ?_⟩).elim fun _ x => ⟨_, x.2.2⟩ <;> decide +kernel

/-- The run has two members, this device and rank 3; s1 names one of them. -/
def sTwo (r : Word) : State :=
  ((s0.modRun 2 fun x => { x with members := [⟨0, 1, 0, 0, 0⟩, ⟨3, 1, 0, 0, 0⟩] }).modParty 1 0 fun q =>
    { q with sregs := Store.write q.sregs 1 r })

theorem test_meets_cvopen (h : Obligations.ConvoysIssue) :
    Completes (exec (.cvopen 14 0 false) s0) ∧ Completes (exec (.cvopen 14 1 false) (sTwo 0)) := by
  have x (a : SReg) (s : State) := h.2.1 14 a s ⟨1, 0, false⟩ s (teamOf s) (partyOf s)
  refine ⟨?_, ?_⟩
  · obtain ⟨k, n, -, -, -, -, y⟩ := x 0 s0 (executes_of (by decide +kernel)) (by decide +kernel) (.inl rfl)
      ⟨0, by decide +kernel⟩ ⟨1, by decide +kernel⟩
    exact ⟨_, y⟩
  · obtain ⟨k, n, -, -, -, -, y⟩ := x 1 (sTwo 0) (executes_of (by decide +kernel)) (by decide +kernel) (.inr (by decide +kernel))
      ⟨0, by decide +kernel⟩ ⟨4095, by decide +kernel⟩
    exact ⟨_, y⟩

theorem test_meets_cvopen_peer (h : Obligations.ConvoysIssue) : Completes (exec (.cvopen 14 1 false) (sTwo 3)) := by
  refine (h.2.2.1 14 1 (sTwo 3) _ _ _ _ (executes_of ?_) ?_ ?_ ?_ ?_ ⟨0, ?_⟩).elim fun _ x => ⟨_, x.2.2⟩ <;> decide +kernel

/-- The answer of the home has come: slot 0 holds the convoy, and the path that opened it waits. -/
def sAnswered : State :=
  { sp (fun q => { q with slot0 := { q.slot0 with wait := .cvopen } }) with
    cvSlots := [(0, { convoy with opener := some (0, false) })] }

theorem test_meets_cvopen_again (h : Obligations.ConvoysIssue) : Completes (exec (.cvopen 14 1 false) sAnswered) := by
  refine ⟨_, h.2.2.2.1 14 1 false sAnswered _ _ _ _ 0 { convoy with opener := some (0, false) } (executes_of ?_) ?_ ?_⟩ <;>
    decide +kernel

theorem test_meets_cvstat (h : Obligations.ConvoysIssue) :
    Completes (exec (.cvstat 14 12) sc) ∧ Completes (exec (.cvstat 14 12) s0) ∧
      Completes (exec (.cvstat 14 12) { s0 with cvSlots := [(0, { convoy with state := .idle })] }) := by
  have x (s : State) := h.2.2.2.2.1 14 12 s ⟨1, 0, false⟩ s (teamOf s) (partyOf s)
  refine ⟨⟨_, ((x sc (executes_of ?_)).2 convoy ?_).2 ?_ ?_ ?_⟩, ⟨_, (x s0 (executes_of ?_)).1 ?_⟩,
    ⟨_, ((x { s0 with cvSlots := [(0, { convoy with state := .idle })] } (executes_of ?_)).2 { convoy with state := .idle } ?_).1 ?_⟩⟩ <;>
    decide +kernel

theorem test_meets_cvclose_view (h : Obligations.ConvoysIssue) : Completes (exec (.cvclose 14 13) sc) := by
  refine ⟨_, h.2.2.2.2.2.1 14 13 sc _ _ _ _ { convoy with view := true, cid := 0 } (executes_of ?_) ?_ ?_ ?_⟩ <;> decide +kernel

theorem test_meets_cvclose (h : Obligations.ConvoysIssue) : Completes (exec (.cvclose 14 12) sc) := by
  refine ⟨_, h.2.2.2.2.2.2.1 14 12 sc _ _ _ _ convoy _ (executes_of ?_) ?_ ?_ ?_ ?_ ?_ (pair_of ?_) ?_ ?_⟩ <;> decide +kernel

/-- The convoy with no lane of the party active. -/
def scIdle : State := sc.modParty 1 0 fun q => { q with slot0 := { q.slot0 with mask := 0 } }

theorem test_meets_cvst (h : Obligations.ConvoysIssue) :
    Completes (exec (.cvst 8 4 (.reg 2) (some ⟨.rel, .sy⟩) .ca .w32 12) sc) ∧
      Completes (exec (.cvst 8 4 (.reg 2) (some ⟨.rel, .sy⟩) .ca .w32 12) scIdle) := by
  have x (s : State) := h.2.2.2.2.2.2.2.1 8 4 (.reg 2) (some ⟨.rel, .sy⟩) .ca .w32 12 s ⟨1, 0, false⟩ s (teamOf s) (partyOf s) convoy
  refine ⟨⟨_, (x sc _ _ _ _ (executes_of ?_) ?_ ?_ ?_ ?_ ?_ (ok_of [] ?_) ?_ ?_ ?_ (pair_of ?_)).2 ?_ (pair_of ?_) ?_⟩,
    ⟨_, (x scIdle _ _ sc _ (executes_of ?_) ?_ ?_ ?_ ?_ ?_ (ok_of [] ?_) ?_ ?_ ?_ (pair_of ?_)).1 ?_ ?_⟩⟩ <;> decide +kernel

theorem test_meets_cvld (h : Obligations.ConvoysIssue) :
    Completes (exec (.cvld 8 4 (.reg 2) none .ca .w32 13) sc) ∧ Completes (exec (.cvld 8 4 (.reg 2) none .ca .w32 13) scIdle) := by
  have x (s : State) := h.2.2.2.2.2.2.2.2 8 4 (.reg 2) none .ca .w32 13 s ⟨1, 0, false⟩ s (teamOf s) (partyOf s)
    { convoy with view := true, cid := 0 }
  refine ⟨⟨_, (x sc (executes_of ?_) ?_ ?_).2 _ _ ?_ ?_ (ok_of [] ?_) ?_ ?_⟩, ⟨_, (x scIdle (executes_of ?_) ?_ ?_).1 ?_⟩⟩ <;>
    decide +kernel

/-! ## Witnesses: the graph -/

/-- An edge of the node to itself, and the node with it. -/
def edge0 : Edge := { target := 0, type := 0, cyc := true, prio := 3, cls := 0 }
def graphNode : Node := { placedNode with nout := 1, quota := 8 }

/-- A record that no parent join waits for; lanes 0 and 1 of the party each own one. -/
def rec0 : Rec := [0, 0xFFFF0000, 0xFFFFFFFF] ++ List.replicate 13 0

def owned0 (lane : Option Nat) : Delivered := { words := rec0, lane := lane, retired := false, fault := false }

/-- The run's members are this device, rank 0, with die 0, and rank 3. -/
def sGraph : State :=
  ((s0.modRun 2 fun r => { r with
      image := { r.image with nodes := [graphNode], edges := [edge0] }
      members := [⟨0, 1, 0, 0, 0⟩, ⟨3, 1, 0, 0, 0⟩] }).modParty 1 0 fun q =>
        { q with records := [owned0 (some 0), owned0 (some 1)] })

theorem no_emission {q : Party} {sl : Bool} (h : (q.slot sl).wait = .none) : ∀ k, (q.slot sl).wait ≠ .emission k := by simp [h]

/-- Offered records that every queue took. -/
def offS (r : Offered) : State := match r with | .done s _ _ => s | .overflow s _ => s
def offN (r : Offered) : Nat := match r with | .done _ n _ => n | .overflow _ n => n
def offDone (r : Offered) : Bool := match r with | .done _ _ b => !b | .overflow .. => false

theorem done_of {r : Offered} (h : offDone r = true) : r = .done (offS r) (offN r) false := by
  cases r with
  | done s n b => simp only [offDone, Bool.not_eq_true'] at h; subst h; rfl
  | overflow s n => cases h

theorem test_meets_emit (h : Obligations.Emissions) : Completes (exec (.emit 8 0 0 false) sGraph) := by
  refine ⟨_, h.1 8 0 0 false sGraph _ _ _ _ edge0 1 _ _ _ (executes_of ?_) (no_emission ?_) ?_ ?_ ?_ (pair_of ?_) (done_of ?_) ?_⟩ <;>
    decide +kernel

theorem test_meets_emitr (h : Obligations.Emissions) : Completes (exec (.emitr 8 0 (.lit 0) false) sGraph) := by
  refine ⟨_, h.2.1 8 0 (.lit 0) false sGraph _ _ _ _ edge0 ((Map.find sGraph.runs 2).getD placedRun) 1 _ _ _ (executes_of ?_)
    (no_emission ?_) ?_ ?_ (fun l hl => ⟨0, by revert l hl; decide +kernel⟩) ?_ (pair_of ?_) (done_of ?_) ?_⟩ <;> decide +kernel

/-- The slot waits for an emission that has been accepted meanwhile. -/
def sEmitted : State := sp fun q => { q with slot0 := { q.slot0 with wait := .emission 0 } }

theorem test_meets_emit_again (h : Obligations.Emissions) :
    Completes (exec (.emit 8 0 0 false) sEmitted) ∧ Completes (exec (.emitr 8 0 (.lit 0) false) sEmitted) :=
  have x := h.2.2 sEmitted _ _ _ 0 (resumes_of (by decide +kernel)) (by decide +kernel) (by decide +kernel)
  ⟨⟨_, x.1 8 0 0 false⟩, ⟨_, x.2 8 0 (.lit 0) false⟩⟩

theorem test_meets_rget (h : Obligations.RecordsInHand) : Completes (exec (.rget 8 15 (.lit 0xFFFFFFFF)) sGraph) := by
  refine ⟨_, h.1 8 15 (.lit 0xFFFFFFFF) sGraph _ _ _ _ (executes_of ?_) ?_⟩ <;> decide +kernel

/-- The same with records of the team (RMODE 2), one of them retired. -/
def sTeamRecords : State :=
  (sGraph.modRun 2 fun r => { r with image := { r.image with nodes := [{ graphNode with rmode := 2 }] } }).modTeam 1 fun t =>
    { t with teamRecords := [owned0 none, { owned0 none with retired := true }] }

theorem test_meets_rdone (h : Obligations.RecordsInHand) :
    Completes (exec (.rdone 12) sGraph) ∧ Completes (exec (.rdone 12) sTeamRecords) := by
  have x (n : Node) (s : State) := h.2.1 12 s ⟨1, 0, false⟩ s (teamOf s) (partyOf s) n
  refine ⟨⟨_, (x graphNode sGraph (executes_of ?_) ?_).1 ?_ _ (pair_of ?_) ?_⟩,
    ⟨_, (x { graphNode with rmode := 2 } sTeamRecords (executes_of ?_) ?_).2 ?_ _ (pair_of ?_) ?_⟩⟩ <;> decide +kernel

theorem test_meets_dget (h : Obligations.RecordsInHand) :
    Completes (exec (.dget (.pair 4) 15) s0) ∧ Completes (exec (.dget (.pair 0) 0) s0) ∧
      Completes (exec (.dget (.word 14) 3) sIdle) ∧ Completes (exec (.dget (.word 14) 3) sGraph) := by
  refine ⟨⟨_, h.2.2.1 4 15 s0 _ _ _ _ (executes_of ?_) ?_ ?_⟩, ⟨_, h.2.2.2.1 0 s0 _ _ _ _ (executes_of ?_)⟩,
    ⟨_, h.2.2.2.2.1 14 3 sIdle _ _ _ _ (executes_of ?_) ?_⟩,
    ⟨_, h.2.2.2.2.2 14 3 sGraph _ _ _ _ 0 rec0 (executes_of ?_) ?_ ?_ ?_⟩⟩ <;> decide +kernel

/-- futnew with a count of 2, and of 0. -/
theorem test_meets_futnew (h : Obligations.Futures) :
    Completes (exec (.futnew 12 6) s0) ∧ Completes (exec (.futnew 12 1) s0) := by
  have x (c : SReg) := h.1 12 c s0 ⟨1, 0, false⟩ s0 (teamOf s0) (partyOf s0)
  refine ⟨(x 6 _ (executes_of ?_) ?_ (pair_of ?_) ?_).elim fun _ y => ⟨_, y.2.2⟩, (x 1 _ (executes_of ?_) ?_ (pair_of ?_) ?_).elim fun _ y => ⟨_, y.2.2⟩⟩ <;>
    decide +kernel

/-- A pending join slot 9 of die 0 with a count of 2; its handle is in s12, and s13 names a slot of rank 3. -/
def sJoin : State :=
  ({ sGraph with joins := [(9, { state := .pending, count := 2, owner := 0, ownerTid := 1, run := 2, conts := [] })] } : State).modParty
    1 0 fun q => { q with sregs := Store.write (Store.write q.sregs 12 9) 13 0x300009 }

def sJoinIdle : State := sJoin.modParty 1 0 fun q => { q with slot0 := { q.slot0 with mask := 0 } }

/-- Offered continuations that the slot took. -/
def regS (r : Registered) (d : State) : State := match r with | .done s => s | _ => d
def regDone (r : Registered) : Bool := match r with | .done _ => true | _ => false

theorem registered_of {r : Registered} (d : State) (h : regDone r = true) : r = .done (regS r d) := by
  cases r <;> first | rfl | cases h

theorem test_meets_futreg (h : Obligations.Futures) :
    Completes (exec (.futreg 12 0 8) sJoin) ∧ Completes (exec (.futreg 13 0 8) sJoin) ∧ Completes (exec (.futreg 12 0 8) sJoinIdle) := by
  have x (j : SReg) (s : State) := h.2.1 j 0 8 s ⟨1, 0, false⟩ s (teamOf s) (partyOf s) edge0 1
  refine ⟨⟨_, ((x 12 sJoin (executes_of ?_) ?_ ?_ ?_).2 0 _ ?_ (pair_of ?_) ?_).1 _ ?_ (registered_of sJoin ?_) ?_⟩,
    ⟨_, ((x 13 sJoin (executes_of ?_) ?_ ?_ ?_).2 0 _ ?_ (pair_of ?_) ?_).2 ?_ ?_⟩,
    ⟨_, (x 12 sJoinIdle (executes_of ?_) ?_ ?_ ?_).1 ?_⟩⟩ <;> decide +kernel

/-- A matrix operation in flight, and a copy whose status register is s20. -/
def anOp : MatOp :=
  { id := 20, kind := .mld 0 0 0 0, fmt := 0, mode := 0, place := 0, origin := ⟨0, 0, 0, none, false⟩, prio := 0,
    passes := ⟨0, [], 0, 0⟩, fetched := [], owned := [], ended := none }

def aCopy : CopyCmd :=
  { id := 21, seq := 0, kind := .cpy, src := BitVec.ofNat 128 hB, dst := BitVec.ofNat 128 hA, sd := 20, scope := .dv, rnd := 0, sub := 0,
    index := [], ring := [], place := 0, origin := ⟨0, 0, 0, some 0, false⟩, delivered := 0, written := 0, owned := [],
    poison := false, tainted := [], cancelled := false, flags := 0 }

def sBound : State := sJoin.modTeam 1 fun t => { t with
  seq := t.seq.map fun q => { q with ops := [anOp] }, channels := Map.update t.channels 0 fun x => { x with cmds := [aCopy], next := 1 } }

/-- futres at once, for n = 0, of a slot of another device, and bound to the operation or the copy. -/
theorem test_meets_futres (h : Obligations.Futures) :
    Completes (exec (.futres 12 6 .imm) sJoin) ∧ Completes (exec (.futres 12 1 .imm) sJoin) ∧
      Completes (exec (.futres 13 6 .imm) sJoin) ∧ Completes (exec (.futres 12 6 .mx) sBound) ∧
      Completes (exec (.futres 12 6 (.cmd 20)) sBound) := by
  have x (j n : SReg) (f : FutForm) (s : State) := h.2.2.1 j n f s ⟨1, 0, false⟩ s (teamOf s) (partyOf s)
  refine ⟨⟨_, ((x 12 6 .imm sJoin (executes_of ?_) ?_ ?_).2 _ ?_ (pair_of ?_) ?_).1 _ ?_ (pair_of ?_) ?_⟩,
    ⟨_, (x 12 1 .imm sJoin (executes_of ?_) ?_ ?_).1 ?_⟩,
    ⟨_, ((x 13 6 .imm sJoin (executes_of ?_) ?_ ?_).2 _ ?_ (pair_of ?_) ?_).1 _ ?_ (pair_of ?_) ?_⟩,
    ⟨_, ((x 12 6 .mx sBound (executes_of ?_) ?_ ?_).2 _ ?_ (pair_of ?_) ?_).2 ?_⟩,
    ⟨_, ((x 12 6 (.cmd 20) sBound (executes_of ?_) ?_ ?_).2 _ ?_ (pair_of ?_) ?_).2 ?_⟩⟩ <;> decide +kernel

/-- The state word of rank 3's slot has come. -/
def sJoinRead : State := sJoin.modParty 1 0 fun q => { q with slot0 := { q.slot0 with wait := .joinRead 3 } }

theorem not_reading {q : Party} {sl : Bool} (h : (q.slot sl).wait = .none) : ∀ r, (q.slot sl).wait ≠ .joinRead r := by simp [h]

theorem test_meets_futst (h : Obligations.Futures) :
    Completes (exec (.futst 14 12) sJoin) ∧ Completes (exec (.futst 14 13) sJoin) ∧ Completes (exec (.futst 14 13) sJoinRead) := by
  refine ⟨⟨_, (h.2.2.2 14 12 sJoin _ _ _ _ (executes_of ?_) ?_).1 _ (not_reading ?_) ?_ (pair_of ?_)⟩,
    ((h.2.2.2 14 13 sJoin _ _ _ _ (executes_of ?_) ?_).2.1 _ (not_reading ?_) ?_ (pair_of ?_)).elim fun _ x => ⟨_, x.1⟩,
    ⟨_, (h.2.2.2 14 13 sJoinRead _ _ _ _ (resumes ?_) ?_).2.2 3 ?_ ?_⟩⟩ <;> decide +kernel

/-! ## Witnesses: barriers, system instructions, faults -/

theorem no_barrier {q : Party} {sl : Bool} (h : (q.slot sl).wait = .none) : ∀ k l m, (q.slot sl).wait ≠ .barrier k l m := by simp [h]

theorem test_meets_barArrive (h : Obligations.BarriersIssue) :
    Completes (exec (.barArrive .tm 15) s0) ∧ Completes (exec (.barArrive .run 0) s0) := by
  refine ⟨⟨_, h.1 .tm 15 s0 _ _ _ _ (.team 1 15) (executes_of ?_) ?_ ?_⟩,
    ⟨_, h.1 .run 0 s0 _ _ _ _ (.run 2 0) (executes_of ?_) ?_ ?_⟩⟩ <;> decide +kernel

/-- The party has arrived at barrier 0 of its team, in a phase that has completed or that is open. -/
def sPhase (n : Nat) : State := st fun t => { t with
  barriers := [(0, { phase := n, arrived := [] })]
  parties := Map.update t.parties 0 fun q => { q with
    arrivals := [(0, 0)], slot0 := { q.slot0 with wait := .barrier 0 0 0, barWait := some (0, 0) } } }

theorem test_meets_barWait (h : Obligations.BarriersIssue) :
    Completes (exec (.barWait .run 3) s0) ∧ Completes (exec (.barWait .tm 0) (sPhase 1)) ∧
      Completes (exec (.barWait .tm 0) (sPhase 0)) := by
  refine ⟨⟨_, (h.2.1 .run 3 s0 _ _ _ _ (executes_of ?_)).1 (.inr ?_)⟩,
    ⟨_, ((h.2.1 .tm 0 (sPhase 1) _ _ _ _ (resumes ?_)).2 (.team 1 0) 0 ?_ ?_).1 ?_⟩,
    ⟨_, ((h.2.1 .tm 0 (sPhase 0) _ _ _ _ (resumes ?_)).2 (.team 1 0) 0 ?_ ?_).2 ?_⟩⟩ <;> decide +kernel

/-- Its first issue, and again while the phase is open and after it. -/
theorem test_meets_barSync (h : Obligations.BarriersIssue) :
    Completes (exec (.barSync .tm 0) s0) ∧ Completes (exec (.barSync .tm 0) (sPhase 1)) ∧ Completes (exec (.barSync .tm 0) (sPhase 0)) := by
  refine ⟨⟨_, h.2.2.1 .tm 0 s0 _ _ _ _ (.team 1 0) (executes_of ?_) (no_barrier ?_) ?_ ?_⟩,
    ⟨_, (h.2.2.2 .tm 0 (sPhase 1) _ _ _ (.team 1 0) 0 0 0 0 (resumes_of ?_) ?_ ?_ ?_).1 ?_⟩,
    ⟨_, (h.2.2.2 .tm 0 (sPhase 0) _ _ _ (.team 1 0) 0 0 0 0 (resumes_of ?_) ?_ ?_ ?_).2 ?_⟩⟩ <;> decide +kernel

/-- The party stands in the open phase of barrier 0 of its team, by its other path. -/
def sArrived : State := st fun t => { t with
  barriers := [(0, { phase := 0, arrived := [{ tid := 1, who := 0, fmt := 0, mode := 0, awaits := [], streams := [] }] })] }

theorem test_meets_BarrierFaults (h : Obligations.BarrierFaults) :
    Completes (exec (.barSync .cl 7) s0) ∧ Completes (exec (.barArrive .tm 0) sArrived) := by
  refine ⟨⟨_, h.1 7 s0 _ _ _ _ (.barSync .cl 7) (.inr rfl) (executes_of ?_) (no_barrier ?_) ?_⟩,
    ⟨_, h.2.1 .tm 0 sArrived _ _ _ _ (.barArrive .tm 0) (.team 1 0) (.inl rfl) (executes_of ?_) (no_barrier ?_) ?_
      ⟨{ tid := 1, who := 0, fmt := 0, mode := 0, awaits := [], streams := [] }, ?_, ?_⟩⟩⟩ <;> decide +kernel

theorem test_meets_trap (h : Obligations.Trap) : Completes (exec (.trap 0xFFF) s0) :=
  ⟨_, h.2.2 0xFFF s0 _ _ _ (plain_of (by decide +kernel))⟩

theorem test_meets_FaultsAreRecorded : Map.find s0.teams 1 = some (teamOf s0) ∧ (teamOf s0).fault = none := by decide +kernel

/-- A pending operand, and a register that the node does not declare. -/
def sPending : State := sp fun q => { q with pending := [{ kind := 1, num := 2, op := 9 }] }

theorem test_meets_GateStopsOrWaits (h : Obligations.GateStopsOrWaits) :
    Completes (exec (.smov 1 2) sPending) ∧
      Completes (exec (.vmov .w32 32 1) (sr fun r => { r with image := { r.image with nodes := [{ placedNode with vregs := 32 }] } })) := by
  have x (i : Instr) (s : State) := h i s ⟨1, 0, false⟩ (teamOf s) (partyOf s)
  refine ⟨⟨_, (x (.smov 1 2) sPending ?_ ?_ ?_ ?_ ?_ ?_).2 (.scoreboard 1 2) ?_⟩,
    ⟨_, (x (.vmov .w32 32 1) (sr fun r => { r with image := { r.image with nodes := [{ placedNode with vregs := 32 }] } })
      ?_ ?_ ?_ ?_ ?_ ?_).1 registerRange ?_⟩⟩ <;> decide +kernel

theorem test_meets_privileged_faults (h : Obligations.Privileged) :
    Completes (exec (.rfe 3 6 (.reg 7)) s0) ∧ Completes (exec (.tlbrng 10 4 6) s0) ∧ Completes (exec (.wsld 12 4 6) s0) :=
  have x := h.1 s0 ⟨1, 0, false⟩ (teamOf s0) (partyOf s0) (by decide +kernel)
  ⟨⟨_, x.1 3 6 (.reg 7) (plain_of (by decide +kernel))⟩, ⟨_, x.2.1 10 4 6 (plain_of (by decide +kernel))⟩,
    ⟨_, x.2.2 12 4 6 (plain_of (by decide +kernel))⟩⟩

/-- A firmware run; entry 1 of die 0 holds a request of the party's other slot, and s1 has its token. -/
def sFirm : State :=
  let s := (sr fun r => { r with privileged := true }).modParty 1 0 fun q => { q with sregs := Store.write q.sregs 1 0x401 }
  { s with holds := [(1, { gen := 1, held := some (1, 0, true, 9), reply := none })] }

/-- The team of the request is saved: it stands beside the firmware's, as team 5. -/
def sFirmSaved : State :=
  { sFirm with
    teams := Map.set sFirm.teams 5 { teamOf sFirm with state := .saved, core := 192 }
    holds := [(1, { gen := 1, held := some (5, 0, true, 9), reply := none })] }

/-- The entry is free; the request is answered; it has had its reply; and its team is saved. -/
theorem test_meets_rfe (h : Obligations.Privileged) :
    Completes (exec (.rfe 3 6 (.reg 7)) sFirm) ∧ Completes (exec (.rfe 3 1 (.reg 7)) sFirm) ∧
      Completes (exec (.rfe 3 1 (.reg 7)) { sFirm with holds := [(1, { gen := 1, held := some (1, 0, true, 9), reply := some 0 })] }) ∧
      Completes (exec (.rfe 3 1 (.reg 7)) sFirmSaved) := by
  have x (a : SReg) (s : State) := h.2.1 3 a (.reg 7) s ⟨1, 0, false⟩ s (teamOf s) (partyOf s)
  refine ⟨⟨_, (x 6 sFirm _ (executes_of ?_) ?_ (pair_of ?_) ?_).1 ?_⟩,
    ⟨_, ((x 1 sFirm _ (executes_of ?_) ?_ (pair_of ?_) ?_).2 1 (0, true, 9) ?_).2 ?_ ?_ |>.2 ?_⟩,
    ⟨_, ((x 1 _ _ (executes_of ?_) ?_ (pair_of ?_) ?_).2 1 (0, true, 9) ?_).1 (.inr ?_)⟩,
    ⟨_, ((x 1 sFirmSaved _ (executes_of ?_) ?_ (pair_of ?_) ?_).2 5 (0, true, 9) ?_).2 ?_ ?_ |>.1 ?_⟩⟩ <;> decide +kernel

/-- A range of two pages, and every page. -/
theorem test_meets_tlbrng (h : Obligations.Privileged) :
    Completes (exec (.tlbrng 10 4 6) sFirm) ∧ Completes (exec (.tlbrng 10 4 12) sFirm) := by
  have x (b : SReg) := h.2.2.1 10 4 b sFirm ⟨1, 0, false⟩ sFirm (teamOf sFirm) (partyOf sFirm)
  refine ⟨⟨_, x 6 _ _ (executes_of ?_) ?_ ?_ rfl ?_⟩, ⟨_, x 12 _ _ (executes_of ?_) ?_ ?_ rfl ?_⟩⟩ <;> decide +kernel

/-- One unit of 256 bytes goes to the first bank of die 0. -/
def sLoadW : State := sFirm.modParty 1 0 fun q => { q with sregs := Store.write (Store.write q.sregs 14 0) 15 1 }

theorem test_meets_wsld (h : Obligations.Privileged) : Completes (exec (.wsld 12 4 14) sLoadW) := by
  refine ⟨_, h.2.2.2.1 12 4 14 sLoadW _ _ _ _ _ _ (executes_of ?_) ?_ ?_ ?_ ?_ ?_ (ok_of false ?_) ?_⟩ <;> decide +kernel

theorem test_meets_hcall (h : Obligations.Privileged) : Completes (exec (.hcall 10 4 (.reg 6)) s0) := by
  refine (h.2.2.2.2.1 10 4 (.reg 6) s0 _ _ _ _ _ 0 (executes_of ?_) ?_ (pair_of ?_) ?_ ?_ ?_).elim fun _ x => ⟨_, x.1⟩ <;>
    decide +kernel

def sReplied : State := sp fun q => { q with slot0 := { q.slot0 with wait := .hcall 0 } }

theorem test_meets_hcall_again (h : Obligations.Privileged) : Completes (exec (.hcall 10 4 (.reg 6)) sReplied) := by
  refine ⟨_, h.2.2.2.2.2 10 4 (.reg 6) sReplied _ _ _ (resumes_of ?_) ?_ ?_⟩ <;> decide +kernel

/-! ## Witnesses: the matrix stream -/

/-- The sequencer of the team issues, under the pass format FP32; h0 and h1 name FP32 tiles, h2 an E4M3 tile with scale words, h3 a
Lookout block, h4 INT8 weights; k1 is 1. -/
def sq (bs : List (Nat × Byte)) (f : Sequencer → Sequencer) : State :=
  ({ s0 with mem := writeBytes s0.mem bs, cur := some (.seq 1) } : State).modTeam 1 fun t => { t with
    handles := [(0, 0x30001), (1, 0x30011), (2, 0x30021), (3, 0x30041), (4, 0x30051)]
    seq := t.seq.map fun q => f { q with k := [(1, 1)], pc := 4, clause := some { addr := 0, stop := 20, cls := 4 } } }

def tilesMem : List (Nat × Byte) := withAddr 0x30000 (toBytes 16 hA) ++ withAddr 0x30010 (toBytes 16 hB)

def sclMem : List (Nat × Byte) := withAddr 0x30020 (toBytes 16 (0x42000 + 6 * 2 ^ 60 + 2 ^ 64 + 15 * 2 ^ 80 + 2 ^ 112))

def lkoMem : List (Nat × Byte) :=
  withAddr 0x30030 (toBytes 16 (0x43000 + 0xA * 2 ^ 60 + 15 * 2 ^ 80)) ++
    withAddr 0x30040 (toBytes 16 (0x50000 + 0xA * 2 ^ 60)) ++
    withAddr 0x50000 (toBytes 8 0x30030) ++ withAddr 0x5002C (toBytes 5 0x200010010)

def wMem : List (Nat × Byte) := withAddr 0x30050 (toBytes 16 (0x44000 + 0xA * 2 ^ 60 + 2 ^ 64 + 15 * 2 ^ 80))

def sm : State := sq tilesMem id

theorem test_meets_SequencerFlow (h : Obligations.SequencerFlow) :
    Completes (exec (.kli 15 0x200) sm) ∧ Completes (exec (.kliLiteral 1 7) sm) ∧ Completes (exec (.kadd 1 1 1) sm) ∧
      Completes (exec (.kbr .dec 1 0x3FF) sm) ∧ Completes (exec (.mrel 3) sm) ∧ Completes (exec (.mzero 11) sm) ∧
      Completes (exec (.mchk 2) sm) :=
  have x := h sm 1 _ _ (seq_of (by decide +kernel))
  ⟨⟨_, x.1 15 0x200⟩, ⟨_, x.2.1 1 7⟩, ⟨_, x.2.2.1 1 1 1⟩, ⟨_, x.2.2.2.1 .dec 1 0x3FF⟩, ⟨_, x.2.2.2.2.1 3⟩,
    ⟨_, (x.2.2.2.2.2.1 11 (by decide +kernel) (by decide +kernel)).1⟩, ⟨_, x.2.2.2.2.2.2.1 2 (by decide +kernel)⟩⟩

def noA : AReg := { elems := [], scales := [], enc := none }

/-- A pass whose entry is in the array, or waits for its grant. -/
def aPass (granted : Bool) : MatOp :=
  { anOp with
    kind := .pass 11 noA (BitVec.ofNat 128 hB) true 0 0 false
    passes := if granted then ⟨0, [], 1, 0⟩ else ⟨0, [0], 0, 0⟩
    fetched := if granted then [noA] else [] }

/-- The operations of a sequencer are passes that the array holds, decidably. -/
theorem passes_of {q : Sequencer}
    (h : (q.ops.all fun o => (match o.kind with | .pass .. => true | _ => false) && decide (0 < o.passes.inArray)) = true) :
    ∀ o ∈ q.ops, (∃ c a h x kc nb m, o.kind = .pass c a h x kc nb m) ∧ 0 < o.passes.inArray := by
  intro o ho
  have x := List.all_eq_true.mp h o ho
  cases hk : o.kind <;> simp_all

/-- The sequencer arrives at barrier 15, with no operation in flight and with a pass that the array holds; and the phase of barrier
2 that it arrived in has completed. -/
theorem test_meets_mbar (h : Obligations.SequencerFlow) :
    Completes (exec (.mbar 15) sm) ∧ Completes (exec (.mbar 15) (sq [] fun q => { q with ops := [aPass true] })) ∧
      Completes (exec (.mbar 2) ((sq [] fun q => { q with barWait := some (2, 0) }).modTeam 1 fun t =>
        { t with barriers := [(2, { phase := 1, arrived := [] })] })) := by
  have x (s : State) (y : seqIssuesIn s = true) := h s 1 _ _ (seq_of y)
  refine ⟨⟨_, (x sm ?_).2.2.2.2.2.2.2.2 15 ?_ ?_ (passes_of ?_)⟩,
    ⟨_, (x (sq [] fun q => { q with ops := [aPass true] }) ?_).2.2.2.2.2.2.2.2 15 ?_ ?_ (passes_of ?_)⟩,
    ⟨_, (x ((sq [] fun q => { q with barWait := some (2, 0) }).modTeam 1 fun t =>
      { t with barriers := [(2, { phase := 1, arrived := [] })] }) ?_).2.2.2.2.2.2.2.1 2 2 0 ?_ ?_⟩⟩ <;> decide +kernel

/-- The node's SEQBAR is clear. -/
def smNoBar : State := sm.modRun 2 fun r => { r with image := { r.image with nodes := [{ placedNode with seqbar := 0 }] } }

theorem test_meets_BarrierFaults_mbar (h : Obligations.BarrierFaults) : Completes (exec (.mbar 3) smNoBar) := by
  refine ⟨_, h.2.2 3 smNoBar _ _ _ (seq_of (by decide +kernel)) (by decide +kernel) fun n hn => ?_⟩
  cases (show smNoBar.node? (teamOf smNoBar) = some { placedNode with seqbar := 0 } by decide +kernel).symm.trans hn
  decide

def p32 : PassFmt := ⟨.fp32, .fp32, 64, false, false, false⟩
def pI8 : PassFmt := ⟨.int8, .int8, 256, true, true, true⟩

theorem sm_issues : SeqIssues sm 1 (teamOf sm) (seqOf sm) := seq_of (by decide +kernel)

theorem test_meets_mld (h : Obligations.MatrixIssue) : Completes (exec (.mld 3 0 0 false) sm) := by
  refine ⟨_, (h sm 1 _ _ p32 sm_issues ?_).1 3 0 0 false _ _ (ok_of 0 ?_) ?_ ?_ ?_ ?_ ?_⟩ <;>
    first | decide +kernel | (unfold blockFits; decide +kernel)

/-- An A register that nothing has loaded records no encoding. -/
theorem unloaded {t : Team} {m : Nat} (h : Map.find t.aregs m = none) (P : Nat → Bool → Prop) :
    ∀ f holds, ((Map.find t.aregs m).getD { elems := [], scales := [], enc := none }).enc = some (f, holds) → P f holds := by
  simp [h]

theorem test_meets_mma (h : Obligations.MatrixIssue) :
    Completes (exec (.mmt 11 3 1 true 0 false true) sm) ∧ Completes (exec (.mma 0 0 1 false 0 false false) sm) := by
  have x := (h sm 1 _ _ p32 sm_issues (by decide +kernel)).2.1
  refine ⟨⟨_, x true 11 3 1 true 0 false true _ _ ?_ ?_ (ok_of 0 ?_) ?_ ?_ ?_ (unloaded ?_ _) ?_ ?_ ?_⟩,
    ⟨_, x false 0 0 1 false 0 false false _ _ ?_ ?_ (ok_of 0 ?_) ?_ ?_ ?_ (unloaded ?_ _) ?_ ?_ ?_⟩⟩ <;>
    first | decide +kernel | (unfold blockFits; decide +kernel)

theorem test_meets_mst (h : Obligations.MatrixIssue) : Completes (exec (.mst 11 0 0 false) sm) := by
  refine ((h sm 1 _ _ p32 sm_issues ?_).2.2.1 11 0 0 false _ _ ?_ (ok_of 0 ?_) ?_ ?_ ?_ ?_).elim fun _ x => ⟨_, x.2.2⟩ <;>
    first | decide +kernel | (unfold blockFits; decide +kernel)

def smScl : State := sq sclMem id

theorem test_meets_mscl (h : Obligations.MatrixIssue) : Completes (exec (.mscl 0 2) smScl) := by
  refine ⟨_, (h smScl 1 _ _ p32 (seq_of ?_) ?_).2.2.2.1 0 2 _ _ ?_ (ok_of 0 ?_) ?_ ?_ ?_ ?_ ?_ ?_ ?_⟩ <;>
    first | decide +kernel | (unfold blockFits; decide +kernel)

/-- The pass format is INT8, under which Lookout runs; a sequence is open or not. -/
def smI8 : State := sq lkoMem fun q => { q with fmt := 0xA }

def lkoBlock : List Byte := toBytes 8 0x30030 ++ List.replicate 36 0 ++ toBytes 5 0x200010010 ++ List.replicate 15 0

def lko0 : LkoSeq :=
  { block := lkoBlock, x := BitVec.ofNat 128 (0x43000 + 0xA * 2 ^ 60 + 15 * 2 ^ 80), blockVa := 0x50000, ma := 0, pass := 0xA,
    classes := [], pe := [], weights := none, tile := none }

def wHandle : Handle := BitVec.ofNat 128 (0x44000 + 0xA * 2 ^ 60 + 2 ^ 64 + 15 * 2 ^ 80)

/-- No answer of a walk names a peer. -/
theorem own_of {r : Option Target} (h : (r.all fun g => g.peer.isNone) = true) : ∀ g, r = some g → g.peer = none := by
  intro g hg
  simpa [hg] using h

def smOpen (w : Option (Nat × Handle)) : State := sq wMem fun q => { q with fmt := 0xA, lko := some { lko0 with weights := w } }

theorem test_meets_lkoFetch (h : Obligations.MatrixIssue) : Completes (exec (.lkoFetch 4) (smOpen none)) := by
  refine ⟨_, (h (smOpen none) 1 _ _ pI8 (seq_of ?_) ?_).2.2.2.2.1 4 _ _ lko0 (ok_of 0 ?_) ?_ ?_ ?_ ?_ ?_ ?_ ?_⟩ <;> decide +kernel

theorem open_of {q : Sequencer} {l : LkoSeq} {P : LkoSeq → Prop} (h : q.openLko = some l) (hp : P l) :
    ∀ x, q.openLko = some x → P x := by
  intro x hx
  cases h.symm.trans hx
  exact hp

/-- A pass that maps the weights that lko.fetch has read. -/
theorem test_meets_mapped (h : Obligations.MatrixIssue) :
    Completes (exec (.mmt 3 0 4 false 0 false false) (smOpen (some (4, wHandle)))) := by
  refine ⟨_, (h (smOpen (some (4, wHandle))) 1 _ _ pI8 (seq_of ?_) ?_).2.1 true 3 0 4 false 0 false false _ wHandle ?_ ?_
    (ok_eq 0 ?_ ?_) ?_ ?_ ?_ (unloaded ?_ _) ?_
    (fun _ => ⟨?_, ?_, ?_, open_of (l := { lko0 with weights := some (4, wHandle) }) ?_ ⟨?_, fun x hx => by cases hx⟩⟩) ?_⟩ <;>
    first | decide +kernel | (unfold blockFits; decide +kernel)

theorem test_mapped : (seqOf (smOpen (some (4, wHandle)))).mapped 4 = true := by decide +kernel

theorem test_meets_lkoPred (h : Obligations.MatrixIssue) : Completes (exec (.lkoPred 0 3) smI8) := by
  refine ⟨_, (h smI8 1 _ _ pI8 (seq_of ?_) ?_).2.2.2.2.2.1 0 3 _ _ _ (BitVec.ofNat 128 (0x50000 + 0xA * 2 ^ 60)) lkoBlock
    (toBytes 16 (0x43000 + 0xA * 2 ^ 60 + 15 * 2 ^ 80)) (ok_eq 0 ?_ ?_) (own_of ?_) ?_ ?_ ?_ (ok_eq ([], false) ?_ ?_) ?_
    (ok_eq ([], false) ?_ ?_) ?_ ?_ ?_ ?_ ?_ ?_ ?_ ?_ ?_ ?_⟩ <;> decide +kernel

theorem test_meets_lkoChk (h : Obligations.MatrixIssue) : Completes (exec (.lkoChk 0 0 4) (smOpen (some (4, wHandle)))) := by
  refine ⟨_, (h (smOpen (some (4, wHandle))) 1 _ _ pI8 (seq_of ?_) ?_).2.2.2.2.2.2 0 0 4 _ wHandle
    { lko0 with weights := some (4, wHandle) } ?_ (ok_eq 0 ?_ ?_) ?_ ?_ ?_ ?_ ?_ (fun x hx => by cases hx) ?_ ?_ ?_⟩ <;> decide +kernel

/-! ## Witnesses: steps -/

/-- The state of an answer. -/
def outS (o : Host.Outcome State Fault Refusal) : State := match o with | .next s => s | _ => s0
def isNext (o : Host.Outcome State Fault Refusal) : Bool := match o with | .next _ => true | _ => false

theorem next_of {o : Host.Outcome State Fault Refusal} (h : isNext o = true) : o = .next (outS o) := by
  cases o with
  | next s => rfl
  | fault f => cases h
  | refused r => cases h

/-- The word of exit stands at the program counter of the team's party, in an SV clause. -/
def sExit : State := State.reset.withFetchWord 32 0x3C000004

/-- After upkeep and the cycle. -/
def on (s : State) : State := s.upkeep.cycle

def wordsAt (s : State) : State × Except Cause (List Word) := (on s).fetchWords (teamOf (on s)) 4 4

theorem test_meets_StepRunsIssuer (h : Obligations.StepRunsIssuer) :
    step sExit = match exec .exit (wordsAt sExit).1 with
      | .next s2 => .next (if s2.stuck then setBack (on sExit) s2 (.party 1 0 false)
          else s2.issued (.party 1 0 false) ((on sExit).waitBy (.party 1 0 false)))
      | e => e := by
  refine ((h.1 sExit _ 1 0 false (teamOf (on sExit)) (partyOf (on sExit)) { addr := 0, stop := 20, cls := 0 }
    (okOf (wordsAt sExit) []) .exit ?_ ?_ ?_ ?_ (.inl ?_) ?_ ?_ ?_ ?_ ?_ (ok_of (r := wordsAt sExit) [] ?_)).2 ?_).1 ?_ ?_ ?_ <;>
    decide +kernel

/-- A clause of class SYS; a word that decodes to nothing; and a fetch that finds a walk of its page in progress. -/
def sClass : State := sExit.modParty 1 0 fun q => { q with slot0 := { q.slot0 with clause := some { addr := 0, stop := 20, cls := 5 } } }
def sZero : State := State.reset.withFetchWord 32 0
def sWalked : State :=
  { s0 with
    tlbCore := []
    walks := [{ id := 9, die := 0, tag := 0xFFFE, base := 0, size := 2 ^ 30, at_ := .walker, cores := [0], needed := true, waiters := [] }] }

theorem test_meets_StepRunsIssuer_class (h : Obligations.StepRunsIssuer) : Completes (step sClass) := by
  refine ⟨_, ((h.1 sClass _ 1 0 false (teamOf (on sClass)) (partyOf (on sClass)) { addr := 0, stop := 20, cls := 5 }
    (okOf (wordsAt sClass) []) .exit ?_ ?_ ?_ ?_ (.inl ?_) ?_ ?_ ?_ ?_ ?_ (ok_of (r := wordsAt sClass) [] ?_)).2 ?_).2.1 ?_ ?_⟩ <;>
    decide +kernel

theorem test_meets_StepRunsIssuer_illegal (h : Obligations.StepRunsIssuer) : Completes (step sZero) := by
  refine ⟨_, ((h.1 sZero _ 1 0 false (teamOf (on sZero)) (partyOf (on sZero)) { addr := 0, stop := 20, cls := 0 }
    (okOf (wordsAt sZero) []) .exit ?_ ?_ ?_ ?_ (.inl ?_) ?_ ?_ ?_ ?_ ?_ (ok_of (r := wordsAt sZero) [] ?_)).2 ?_).2.2 .unusedMajor ?_⟩ <;>
    decide +kernel

theorem test_meets_StepRunsIssuer_waits (h : Obligations.StepRunsIssuer) : Completes (step sWalked) := by
  refine ⟨_, (h.1 sWalked _ 1 0 false (teamOf (on sWalked)) (partyOf (on sWalked)) { addr := 0, stop := 20, cls := 0 }
    (okOf (wordsAt sWalked) []) .exit ?_ ?_ ?_ ?_ (.inl ?_) ?_ ?_ ?_ ?_ ?_ (ok_of (r := wordsAt sWalked) [] ?_)).1 ?_⟩ <;> decide +kernel

/-- Slot 1 of the party is a path too, and younger: slot 0 issues, and slot 1 does nothing. -/
def sPaths (cur : Bool) : State :=
  { sExit.modParty 1 0 fun q => { q with live := 7, slot0 := { q.slot0 with mask := 3 },
                                          slot1 := { q.slot0 with mask := 4, age := q.slot0.age + 1 } } with cur := some (.party 1 0 cur) }

def crowd (s : State) : List Contender := (on s).contenders issue (teamOf (on s)).core (partyOf (on s)).track

theorem chosen_of {s : State} {sl : Bool} {c : Contender} {rest : List Contender} (hc : crowd s = c :: rest)
    (ha : (on s).alone (teamOf (on s)).core (partyOf (on s)) 1 0 sl = false) (hr : readyBy issue (on s) (.party 1 0 sl) = true) :
    ¬turnOf (on s) (teamOf (on s)) (partyOf (on s)) 1 0 sl := by
  simp [turnOf, ha, hr]

theorem test_meets_StepRunsIssuer_track (h : Obligations.StepRunsIssuer) : Completes (step (sPaths true)) := by
  obtain ⟨c, rest, hc⟩ : ∃ c rest, crowd (sPaths true) = c :: rest := by
    cases hx : crowd (sPaths true) with
    | nil => exact absurd hx (by decide +kernel)
    | cons c rest => exact ⟨c, rest, rfl⟩
  have hb : (firstOf c rest).sl = false := by
    have : (match crowd (sPaths true) with | c :: rest => (firstOf c rest).sl | [] => true) = false := by decide +kernel
    rwa [hc] at this
  exact ⟨_, (h.2.1 (sPaths true) 1 0 true (teamOf (on (sPaths true))) (partyOf (on (sPaths true))) c rest (by decide +kernel)
    (by decide +kernel) (by decide +kernel) (by decide +kernel) (chosen_of hc (by decide +kernel) (by decide +kernel)) hc).2
      (by simp [hb])⟩

def sKli : State := State.reset.withFetchWord 32 0xF8800004

theorem test_meets_StepRunsIssuer_seq (h : Obligations.StepRunsIssuer) :
    step sKli = match exec (.kli 2 4) (wordsAt sKli).1 with
      | .next s2 => .next (if s2.stuck then setBack (on sKli) s2 (.seq 1) else s2.issued (.seq 1) ((on sKli).waitBy (.seq 1)))
      | e => e := by
  refine ((h.2.2 sKli _ 1 (teamOf (on sKli)) (seqOf (on sKli)) { addr := 0, stop := 20, cls := 4 } (okOf (wordsAt sKli) []) (.kli 2 4)
    ?_ ?_ ?_ ?_ ?_ ?_ ?_ (ok_of (r := wordsAt sKli) [] ?_)).2 ?_ ?_ ?_).1 ?_ <;> decide +kernel

/-- A header stands at the program counter of the party and of the sequencer. -/
def headed (w : Nat) (cur : Bool) : State :=
  let s := (State.reset.withFetchWord 32 0x3C000004).modTeam 1 fun t => { t with
    parties := Map.update t.parties 0 fun q => { q with slot0 := { q.slot0 with clause := none, pc := 4 } }
    seq := t.seq.map fun q => { q with clause := none, pc := 4 } }
  { s with mem := writeBytes s.mem (withAddr 65540 (toBytes 4 w ++ toBytes 4 (if cur then 0x3C000004 else 0xF8800004))) }

def goStateOf (x : Fetched) : State := match x with | .go s _ => s | _ => s0
def goInstrOf (x : Fetched) : Instr := match x with | .go _ i => i | _ => .nop
def isGoing (x : Fetched) : Bool := match x with | .go .. => true | _ => false

theorem going_of {x : Fetched} (h : isGoing x = true) : x = .go (goStateOf x) (goInstrOf x) := by
  cases x with
  | idle => cases h
  | faulted s => cases h
  | go s i => rfl

/-- The header that a path meets; its state after; and the fetch of its first instruction. -/
def sHead : State := headed 0xC1000201 true
def sBegun : State := outS (exec (.clauseIssue (.party 1 0 false)) (on sHead))

/-- An event, and an instruction that stands on the agenda. -/
theorem test_meets_StepTakesTurns (h : Obligations.StepTakesTurns) :
    Completes (step { State.reset with agenda := [⟨5, 6, .event .getVersion⟩] }) ∧
      step { State.reset with agenda := [⟨0, 0, .event .nop⟩] } = .refused .notAnEvent := by
  refine ⟨⟨_, (h.1 _ 5 6 .getVersion [] rfl).1 ?_ (fun _ hw => by cases hw) _ (next_of ?_)⟩, (h.1 _ 0 0 .nop [] rfl).2.2 ?_⟩ <;>
    decide +kernel

/-- The event of CLAUSE_ISSUE: the path enters its clause and its first instruction issues. -/
theorem test_meets_StepTakesTurns_event (h : Obligations.StepTakesTurns) :
    let s : State := { sHead with agenda := [⟨0, 0, .event (.clauseIssue (.party 1 0 false))⟩] }
    step s = ((sHead.upkeep.pass 0 0).issueTurn issue (.party 1 0 false)) ∧ isNext (step s) = true := by
  refine ⟨((h.1 { sHead with agenda := [⟨0, 0, .event (.clauseIssue (.party 1 0 false))⟩] } 0 0 _ [] rfl).2.1 _ rfl).trans
    (if_neg ?_), ?_⟩ <;> decide +kernel

theorem test_meets_StepTakesTurns_clause (h : Obligations.StepTakesTurns) : Completes (step sHead) := by
  refine ⟨_, (h.2 sHead sBegun 1 0 false (teamOf (on sHead)) (partyOf (on sHead)) ?_ ?_ ?_ ?_ (.inl ?_) ?_ ?_ ?_ ?_ ?_ ?_ (next_of ?_) ?_).2
    _ _ _ ?_ (going_of ?_) ?_ (next_of ?_) ?_ ?_⟩ <;> decide +kernel

/-- A reserved bit of the header is set: the path does not enter, and its team faults. -/
def sBadHead : State := headed 0xC1000203 true

theorem test_meets_StepTakesTurns_out (h : Obligations.StepTakesTurns) : Completes (step sBadHead) := by
  refine ⟨_, (h.2 sBadHead _ 1 0 false (teamOf (on sBadHead)) (partyOf (on sBadHead)) ?_ ?_ ?_ ?_ (.inl ?_) ?_ ?_ ?_ ?_ ?_ ?_ (next_of ?_)
    ?_).1 ?_⟩ <;>
    decide +kernel

theorem test_meets_NineCycles : State.reset.clk.toNat + 9 < 2 ^ 64 := by decide +kernel

theorem test_meets_TrackIssuesFirstContender : sExit.contenders issue 0 0 ≠ [] := by decide +kernel

theorem test_meets_StepInv : sExit.inv = true ∧ Completes (step sExit) :=
  ⟨by decide +kernel, _, next_of (by decide +kernel)⟩

/-! ## Witnesses: events of issue and memory -/

/-- The header that a check accepts. -/
def checkedHdr (r : State × Checked) : Word := match r.2 with | .ok h => h | .fault .. => 0
def checkedOk (r : State × Checked) : Bool := match r.2 with | .ok _ => true | .fault .. => false

theorem checked_of {r : State × Checked} (h : checkedOk r = true) : r = (r.1, .ok (checkedHdr r)) := by
  obtain ⟨a, b⟩ := r
  cases b with
  | ok x => rfl
  | fault => cases h

def sSeqHead : State := headed 0xC1000041 false

theorem test_meets_clauseIssue (h : Obligations.IssueAndMemoryEvents) :
    Completes (exec (.clauseIssue (.party 1 0 false)) sHead) ∧ Completes (exec (.clauseIssue (.seq 1)) sSeqHead) := by
  refine ⟨⟨_, h.1 sHead _ 1 0 false (teamOf sHead) (partyOf sHead) _ ?_ ?_ ?_ ?_ ?_ (checked_of ?_)⟩,
    ⟨_, h.2.1 sSeqHead _ 1 (teamOf sSeqHead) (seqOf sSeqHead) _ ?_ ?_ ?_ ?_ ?_ (checked_of ?_)⟩⟩ <;> decide +kernel

theorem test_meets_starvationPromote (h : Obligations.IssueAndMemoryEvents) :
    Completes (exec (.starvationPromote 1 0) (sp fun q => { q with starve := 1024 })) := by
  obtain ⟨-, -, x, -⟩ := h
  refine ⟨_, x (sp fun q => { q with starve := 1024 }) 1 0 (teamOf (sp fun q => { q with starve := 1024 })) (partyOf (sp fun q => { q with starve := 1024 })) ?_ ?_ ?_ ?_⟩ <;>
    decide +kernel

/-- The party waits for the register that a load will write. -/
def sAhead : State :=
  sp fun q => { q with
    accesses := [loading ⟨.wk, .pt⟩], pending := [{ kind := 0, num := 8, op := 9 }], slot0 := { q.slot0 with wait := .scoreboard 0 8 } }

theorem test_meets_runAhead (h : Obligations.IssueAndMemoryEvents) : Completes (exec (.runAhead 1 0) sAhead) := by
  obtain ⟨-, -, -, x, -⟩ := h
  refine ⟨_, x sAhead 1 0 (teamOf sAhead) (partyOf sAhead) ?_ ?_ ?_ ?_ (fun b hb => ⟨0, 8, ?_⟩)⟩
  case refine_5 => revert b; decide +kernel
  all_goals decide +kernel

theorem test_meets_yieldTimeout (h : Obligations.IssueAndMemoryEvents) :
    Completes (exec (.yieldTimeout 1 0) ({ sp fun q => { q with yielded := true } with clk := 16 })) := by
  obtain ⟨-, -, -, -, -, x, -⟩ := h
  refine ⟨_, x _ 1 0 (partyOf (sp fun q => { q with yielded := true })) ?_ ?_ ?_⟩ <;> decide +kernel

/-- A miss of the page of 1 GiB at 0, and one of an address that has no leaf. -/
def aWalk (base : Nat) : Walk :=
  { id := 9, die := 0, tag := 0xFFFE, base := base, size := 65536, at_ := .walker, cores := [0], needed := true, waiters := [] }

def sWalk (base : Nat) : State := { s0 with walks := [aWalk base] }

/-- An answer that is an error. -/
def errOf {ε α : Type} (r : Except ε α) (d : ε) : ε := match r with | .error e => e | .ok _ => d
def valOf {ε α : Type} (r : Except ε α) (d : α) : α := match r with | .ok a => a | .error _ => d
def isErr {ε α : Type} (r : Except ε α) : Bool := match r with | .error _ => true | .ok _ => false

theorem err_of {ε α : Type} {r : Except ε α} (d : ε) (h : isErr r = true) : r = .error (errOf r d) := by
  cases r with
  | ok a => cases h
  | error e => rfl

theorem val_of {ε α : Type} {r : Except ε α} (d : α) (h : isErr r = false) : r = .ok (valOf r d) := by
  cases r with
  | ok a => rfl
  | error e => cases h

theorem test_meets_walkComplete (h : Obligations.IssueAndMemoryEvents) :
    Completes (exec (.walkComplete 9) (sWalk 0)) ∧ Completes (exec (.walkComplete 9) (sWalk 0x40000000)) := by
  obtain ⟨-, -, -, -, -, -, -, -, -, x, y, -⟩ := h
  refine ⟨⟨_, x (sWalk 0) 9 (aWalk 0) _ ?_ (.inl ?_) (val_of sTlb ?_)⟩,
    ⟨_, y (sWalk 0x40000000) 9 (aWalk 0x40000000) _ ?_ (.inl ?_) (err_of registerRange ?_)⟩⟩ <;> decide +kernel

/-- A miss that has found its translation in the die's last level. -/
theorem test_meets_walkComplete_hit (h : Obligations.IssueAndMemoryEvents) :
    Completes (exec (.walkComplete 9) { s0 with tlbDie := [(0, [sTlb])], walks := [{ aWalk 0 with at_ := .dieHit }] }) := by
  obtain ⟨-, -, -, -, -, -, -, -, -, x, -⟩ := h
  refine ⟨_, x _ 9 { aWalk 0 with at_ := .dieHit } _ ?_ (.inr ?_) (val_of sTlb ?_)⟩ <;> decide +kernel

/-- An error of each kind, at the last place of its array. -/
theorem test_meets_backgroundScrub (h : Obligations.IssueAndMemoryEvents) :
    Completes (exec (.backgroundScrub (.memory 0x101FFFFFFFF) true) s0) ∧
      Completes (exec (.backgroundScrub (.localStore 1 122879) true) s0) ∧
      Completes (exec (.backgroundScrub (.accumulator 1 196607) true) s0) ∧
      Completes (exec (.backgroundScrub (.vector 1 0 127 95) true) s0) ∧
      Completes (exec (.backgroundScrub (.stack 1 0 0) true) (joined 1 3)) ∧ Completes (exec (.backgroundScrub (.array 7) false) s0) := by
  obtain ⟨-, -, -, -, -, -, -, -, -, -, -, a, b, c, d, e, f, -⟩ := h
  refine ⟨⟨_, a s0 (.memory 0x101FFFFFFFF) 0x101FFFFFFFF (.inl rfl) (.inr ?_) ?_⟩, ⟨_, b s0 1 (teamOf s0) 122879 ?_ ?_ ?_⟩,
    ⟨_, c s0 1 (teamOf s0) 196607 ?_ ?_ ?_⟩, ⟨_, d s0 1 0 (partyOf s0) 127 95 ?_ ?_ ?_ ?_⟩,
    ⟨_, e (joined 1 3) 1 0 (partyOf (joined 1 3)) 0 ?_ ?_ ?_⟩, ⟨_, f s0 (.array 7) ?_⟩⟩ <;> decide +kernel

theorem test_meets_refreshWindows (h : Obligations.IssueAndMemoryEvents) :
    Completes (exec (.refreshWindowOpen 3) s0) ∧ Completes (exec (.refreshWindowClose 3) { s0 with clk := 1152 }) := by
  obtain ⟨-, -, -, -, -, -, -, -, -, -, -, -, -, -, -, -, -, x, y, -⟩ := h
  refine ⟨⟨_, x s0 3 0 ?_ ?_⟩, ⟨_, y { s0 with clk := 1152 } 3 ?_⟩⟩ <;> decide +kernel

def aMove : Migration := { die := 0, oldFrame := 0x100000, size := 65536, newFrame := 0x200000, rank := none, copied := [], applied := [] }

/-- A request that its page's migration has sent to another device. -/
def aBounced : Outstanding :=
  { id := 7, req := { src := 0, dst := 2, agent := 0, seqno := 0, addr := 0x40, op := .read 4, stamp := 0, place := none, order := 0 },
    tid := 1, party := some 0, access := none, lanes := [], dev := false, after := none, origin := ⟨0, 0, 0, some 0, false⟩, va := none,
    key := 0x40, backoff := 0, retryAt := 0, tag := 0, port := some 0, waiting := false, bounced := some (3, 0x80), held := false,
    lane := none, late := none }

theorem test_meets_migrations (h : Obligations.IssueAndMemoryEvents) :
    Completes (exec (.migrationTableEntry 0 0x100000 65536 0x200000 none) { s0 with migrations := [{ aMove with oldFrame := 0xF0000 }] }) ∧
      Completes (exec (.migrationLineCopy 0 0x100000 255) { s0 with migrations := [aMove] }) ∧
      Completes (exec (.migrationEntryRemoval 0 0x100000) { s0 with migrations := [{ aMove with copied := List.range 256 }] }) ∧
      Completes (exec (.migrationBounce 7) { s0 with outstanding := [aBounced] }) := by
  obtain ⟨-, -, -, -, -, -, -, -, -, -, -, -, -, -, -, -, -, -, -, x, y, z, b, -⟩ := h
  refine ⟨⟨_, x _ 0 0x100000 65536 0x200000 none ?_ ?_ ?_⟩,
    (y { s0 with migrations := [aMove] } 0 0x100000 255 aMove ?_ ?_ ?_ ?_ rfl ?_).elim fun _ x => ⟨_, x.1⟩,
    ⟨_, z _ 0 0x100000 { aMove with copied := List.range 256 } ?_ (fun _ => ?_)⟩, ?_⟩
  case refine_11 =>
    obtain ⟨p, n, s1, -, -, e⟩ := b { s0 with outstanding := [aBounced] } 7 aBounced 3 0x80 (by decide +kernel) rfl (by decide +kernel)
    exact ⟨_, e⟩
  all_goals decide +kernel

def anInval (d : Option (Nat × Nat × Nat)) : Inval := { id := 9, tag := 5, removed := 3, awaits := [], dest := d, queue := 0 }
def aWsCopy : WsCopy := { id := 9, dest := some (1, 0, 12), queue := 0, packet := 0, die := 0, off := 0, len := 1, poison := false }

theorem test_meets_systemDone (h : Obligations.IssueAndMemoryEvents) :
    Completes (exec (.tlbrngDone 9) { s0 with invals := [anInval (some (1, 0, 12))] }) ∧
      Completes (exec (.tlbrngDone 9) { s0 with invals := [anInval none] }) ∧
      Completes (exec (.wsldComplete 9) { s0 with wsCopies := [aWsCopy] }) := by
  obtain ⟨-, -, -, -, -, -, -, -, -, -, -, -, -, -, -, -, -, -, -, -, -, -, -, x⟩ := h
  refine ⟨⟨_, (x.1 { s0 with invals := [anInval (some (1, 0, 12))] } 9 (anInval (some (1, 0, 12))) ?_ ?_ ?_ ?_).1 (1, 0, 12) rfl⟩,
    ⟨_, (x.1 { s0 with invals := [anInval none] } 9 (anInval none) ?_ ?_ ?_ ?_).2 rfl⟩,
    ⟨_, x.2 _ 9 aWsCopy (1, 0, 12) ?_ rfl⟩⟩ <;> decide +kernel

/-! ## Witnesses: events of the engines and of convoys -/

/-- The copy of `aCopy` stands on channel 0, with nothing delivered or all of it. -/
def copied (n : Nat) : CopyCmd := { aCopy with delivered := n, written := n }
def copyChan (n : Nat) : Channel := { phys := 0, cmds := [copied n], next := 1, wptr := 0xFE000000 }

def sCopy (n : Nat) : State := sh.modTeam 1 fun t => { t with channels := Map.set t.channels 0 (copyChan n) }

theorem test_meets_copyDeliver (h : Obligations.EngineEvents) : Completes (exec (.copyDeliver 1 0 64) (sCopy 0)) := by
  refine ⟨_, h.1 (sCopy 0) _ 1 0 64 (teamOf (sCopy 0)) (copyChan 0) (copied 0) _ [] ?_ ?_ rfl ?_ ?_ ?_ ?_ ?_ ?_
    (ok_of aCopy ?_)⟩ <;> decide +kernel

theorem test_meets_copyComplete (h : Obligations.EngineEvents) : Completes (exec (.copyComplete 1 0) (sCopy 128)) := by
  refine ⟨_, h.2.1 (sCopy 128) 1 0 (teamOf (sCopy 128)) (copyChan 128) (copied 128) [] ?_ ?_ rfl ?_ ?_ ?_⟩ <;> decide +kernel

theorem triple_of {α β γ : Type} {r : α × β × γ} {c : γ} (h : r.2.2 = c) : r = (r.1, r.2.1, c) := by obtain ⟨a, b, c⟩ := r; cases h; rfl

/-- Streams of no elements; and a command that has only a peer to wait for. -/
def aScan (e : Option (Word × Word)) : SsuCmd :=
  { id := 9, tid := 1, core := 0, kind := .scan, sd := 12, blk := 0x20000, len0 := 0, len1 := 0, rnd := 0, sub := 0, place := 0,
    origin := ⟨0, 0, 0, some 0, false⟩, block := List.replicate 64 0, bad := false, owned := [], passes := ⟨0, [], 0, 0⟩, ended := e }

def sScan (e : Option (Word × Word)) : State := { s0 with ssu := [(0, [aScan e])] }

theorem test_meets_ssuComplete (h : Obligations.EngineEvents) :
    Completes (exec (.ssuComplete 0 0) (sScan none)) ∧ Completes (exec (.ssuComplete 0 0) (sScan (some (0, 0x80000000)))) := by
  have x (e : Option (Word × Word)) := h.2.2.1 (sScan e) 0 0 (aScan e) (teamOf (sScan e))
  refine ⟨⟨_, ((x none ?_ ?_ ?_).1 _ _ rfl ?_ ?_ (triple_of ?_) ?_).1 ?_⟩,
    ⟨_, (x (some (0, 0x80000000)) ?_ ?_ ?_).2 _ _ rfl ?_⟩⟩ <;> decide +kernel

/-- Two particles at the origin in one cell, with a cutoff of 1. -/
def gridDesc : List Byte :=
  List.replicate 12 0 ++ toBytes 12 (0x3F800000 * (1 + 2 ^ 32 + 2 ^ 64)) ++ toBytes 4 0x4081 ++ toBytes 4 0x3C00 ++
    toBytes 4 0xFFFF0002 ++ toBytes 4 2 ++ toBytes 8 0x60000 ++ toBytes 8 0x60000 ++ toBytes 8 0x61000

def aGrid (port : Option Nat) (ps : Option (List (List Word))) (e : Option Word) : NeCmd :=
  { id := 9, tid := 1, core := 0, port := port, sd := 12, grid := 0x20000, desc := gridDesc, place := 0,
    origin := ⟨0, 0, 0, some 0, false⟩, pairs := ps, flags := 0, owned := [], ended := e }

def sNe (port : Option Nat) (ps : Option (List (List Word))) (e : Option Word) : State :=
  { s0 with ne := [(0, [aGrid port ps e])], mem := writeBytes sMem (withAddr 0x61000 (toBytes 4 2) ++ withAddr 0x61008 (toBytes 4 1)) }

theorem test_meets_nePairGroup (h : Obligations.EngineEvents) : Completes (exec (.nePairGroup 0) (sNe (some 0) none none)) := by
  refine ⟨_, h.2.2.2.1 (sNe (some 0) none none) _ 0 (aGrid (some 0) none none) (teamOf s0) _ _ ?_ ?_ rfl rfl (ok_pair ([], 0) ?_) ?_⟩ <;> decide +kernel

theorem test_meets_neComplete (h : Obligations.EngineEvents) :
    Completes (exec (.neComplete 0) (sNe none none none)) ∧ Completes (exec (.neComplete 0) (sNe (some 0) (some []) none)) ∧
      Completes (exec (.neComplete 0) (sNe none none (some 0x80000000))) := by
  have x (port : Option Nat) (ps : Option (List (List Word))) (e : Option Word) :=
    h.2.2.2.2.1 (sNe port ps e) 0 (aGrid port ps e) (teamOf s0)
  refine ⟨⟨_, (x none none none ?_ ?_).2.1 rfl rfl ?_⟩, ⟨_, (x (some 0) (some []) none ?_ ?_).2.2 rfl rfl rfl⟩,
    ⟨_, (x none none (some 0x80000000) ?_ ?_).1 _ rfl⟩⟩ <;> decide +kernel

/-- A store stream of which one element has yet to be written; and one whose tile is full. -/
def aStream (e : Bool) : Port := { portState with handle := BitVec.ofNat 128 hA, unwritten := [(31, 5)], ended := e }

def sStream (e : Bool) : State := sp fun q => { q with ports := [(2, aStream e)] }

theorem test_meets_storeStreamDrained (h : Obligations.EngineEvents) :
    Completes (exec (.storeStreamDrained 1 0 2) (sStream false)) ∧ Completes (exec (.storeStreamDrained 1 0 2) (sStream true)) := by
  have x (e : Bool) (s1 : State) :=
    h.2.2.2.2.2.1 (sStream e) s1 1 0 2 (teamOf (sStream e)) (partyOf (sStream e)) (aStream e)
  refine ⟨⟨_, (x false _ ?_ ?_ ?_ ?_ rfl (pair_of ?_)).1 rfl⟩,
    ⟨_, (x true _ ?_ ?_ ?_ ?_ rfl (pair_of ?_)).2 _ rfl ?_ (pair_of ?_)⟩⟩ <;> decide +kernel

def sOps (os : List MatOp) (l : Option LkoSeq) : State :=
  s0.modTeam 1 fun t => { t with seq := t.seq.map fun q => { q with ops := os, lko := l } }

/-- The operation's entry in its cluster's table. -/
def entryOf' (o : MatOp) : Entry := ⟨1, 0, o.id, false, 0, o.origin, o.passes⟩

theorem test_meets_passGrant (h : Obligations.EngineEvents) : Completes (exec (.passGrant 0) (sOps [aPass false] none)) := by
  refine ⟨_, h.2.2.2.2.2.2.1 (sOps [aPass false] none) 0 (entryOf' (aPass false)) ?_ ?_ ?_⟩ <;> decide +kernel

/-- A Lookout operation with a pass in the array; and a command of the stream unit. -/
def lkoInArray : MatOp := { anOp with kind := .lkoPred 0, passes := ⟨0, [], 1, 0⟩ }

def sSpx : State := { s0 with ssu := [(0, [{ aScan none with kind := .spx, passes := ⟨0, [], 1, 0⟩ }])] }

theorem test_meets_passRetire (h : Obligations.EngineEvents) :
    Completes (exec (.passRetire 1 20 true true) (sOps [aPass true] none)) ∧
      Completes (exec (.passRetire 1 20 true false) (sOps [aPass true] none)) ∧
      Completes (exec (.passRetire 1 20 false false) (sOps [lkoInArray] (some lko0))) ∧
      Completes (exec (.passRetire 1 9 false false) sSpx) := by
  have x (s : State) (id : Nat) (e : Entry) := h.2.2.2.2.2.2.2.1 s 1 id (teamOf s) e
  have y := x (sOps [aPass true] none) 20 (entryOf' (aPass true)) (by decide +kernel) (by decide +kernel)
  refine ⟨⟨_, y.1⟩,
    ⟨_, (y.2.2 true (seqOf (sOps [aPass true] none)) (aPass true) p32 rfl ?_ ?_ ?_).1 11 noA (BitVec.ofNat 128 hB) true 0 0 false noA
      rfl rfl ?_ ?_⟩,
    ⟨_, ((x (sOps [lkoInArray] (some lko0)) 20 (entryOf' lkoInArray) ?_ ?_).2.2 false (seqOf (sOps [lkoInArray] (some lko0))) lkoInArray
      p32 rfl ?_ ?_ ?_).2 (fun _ _ _ _ _ _ _ e => by cases e)⟩,
    ⟨_, (x sSpx 9 ⟨1, 0, 9, true, 0, ⟨0, 0, 0, some 0, false⟩, ⟨0, [], 1, 0⟩⟩ ?_ ?_).2.1 false rfl⟩⟩ <;> decide +kernel

/-- The only operation in flight, of each kind that is not a pass. -/
def retiring (k : MatKind) (l : Option LkoSeq) : State := sOps [{ anOp with kind := k }] l

/-- What the statement asks of such a state is decidable. -/
def retires (k : MatKind) (l : Option LkoSeq) : Bool :=
  let s := retiring k l
  let o : MatOp := { anOp with kind := k }
  decide (Map.find s.teams 1 = some (teamOf s) ∧ (teamOf s).seq = some (seqOf s) ∧ ((seqOf s).ops.find? fun o => o.id == 20) = some o ∧
    (teamOf s).active = true ∧ (teamOf s).tileTurn o = true ∧ s.memTurn 1 (teamOf s) (seqOf s) o = true ∧
    s.outranked 0 [] = false ∧ (seqOf s).lko = l)

theorem retires_of {k : MatKind} {l : Option LkoSeq} (h : Obligations.EngineEvents) (hr : retires k l = true)
    (hk : match k with | .pass .. => False | .lkoPred _ | .lkoChk .. => l.isSome = true | _ => True) :
    Completes (exec (.matrixOpRetire 1 20) (retiring k l)) := by
  have hr := of_decide_eq_true hr
  obtain ⟨-, -, -, -, -, -, -, -, x, -⟩ := h
  have x := (x (retiring k l) 1 20 (teamOf (retiring k l)) (seqOf (retiring k l)) { anOp with kind := k } p32 hr.1
    hr.2.1 hr.2.2.1 (show passFmt (passCode anOp.fmt) = some p32 by decide) hr.2.2.2.1 (show anOp.passes.left = 0 by decide)).2.2 rfl
    hr.2.2.2.2.1 hr.2.2.2.2.2.1 hr.2.2.2.2.2.2.1
  have hl := hr.2.2.2.2.2.2.2
  cases k with
  | pass => exact hk.elim
  | mld => exact ⟨_, x.1 _ _ _ _ rfl⟩
  | mst => exact ⟨_, x.2.1 _ _ _ _ rfl⟩
  | mscl => exact ⟨_, x.2.2.1 _ _ rfl⟩
  | lkoPred =>
    cases l with
    | none => cases hk
    | some l => exact ⟨_, x.2.2.2.1 _ l rfl hl⟩
  | lkoChk =>
    cases l with
    | none => cases hk
    | some l => exact ⟨_, x.2.2.2.2 _ _ _ l rfl hl⟩

theorem test_meets_matrixOpRetire (h : Obligations.EngineEvents) :
    Completes (exec (.matrixOpRetire 1 20) (retiring (.mld 3 0 0 0) none)) ∧
      Completes (exec (.matrixOpRetire 1 20) (retiring (.mst 11 0 0 0) none)) ∧
      Completes (exec (.matrixOpRetire 1 20) (retiring (.mscl 0 0) none)) ∧
      Completes (exec (.matrixOpRetire 1 20) (retiring (.lkoPred 0) (some lko0))) ∧
      Completes (exec (.matrixOpRetire 1 20) (retiring (.lkoChk 0 0 4) (some { lko0 with weights := some (4, wHandle) }))) := by
  refine ⟨retires_of h ?_ trivial, retires_of h ?_ trivial, retires_of h ?_ trivial, retires_of h ?_ rfl, retires_of h ?_ rfl⟩ <;>
    decide +kernel

/-- An operation whose writes to a peer have been performed. -/
def written : MatOp := { anOp with kind := .mst 11 0 0 0, ended := some 0 }

theorem test_meets_matrixOpRetire_written (h : Obligations.EngineEvents) :
    Completes (exec (.matrixOpRetire 1 20) (sOps [written] none)) := by
  refine ⟨_, (h.2.2.2.2.2.2.2.2.1 (sOps [written] none) 1 20 (teamOf (sOps [written] none)) (seqOf (sOps [written] none)) written p32
    ?_ ?_ ?_ ?_ ?_ ?_).1 0 rfl⟩ <;> decide +kernel

def closing : CvClosing := { op := 9, p := 0, sd := 14, origin := ⟨0, 0, 0, some 0, false⟩ }

/-- A cvclose waits for the commit of a convoy at home, or at rank 3. -/
def sClosing (cid : BitVec 24) : State := { sc with cvSlots := [(0, { convoy with cid := cid, closing := some closing })] }

theorem test_meets_convoyCommit (h : Obligations.EngineEvents) :
    Completes (exec (.convoyCommit 0) (sClosing 7)) ∧ Completes (exec (.convoyCommit 0) (sClosing 0x3007)) := by
  have x (cid : BitVec 24) := h.2.2.2.2.2.2.2.2.2.1 (sClosing cid) 0 { convoy with cid := cid, closing := some closing } closing
  refine ⟨⟨_, ((x 7 ?_ rfl rfl rfl ?_).1 ?_ ?_).1⟩, ⟨_, (x 0x3007 ?_ rfl rfl rfl ?_).2 ?_⟩⟩ <;> decide +kernel

/-- The convoy committed at 0 ns, and the clock bound has passed. -/
def sCommitted : State :=
  { sc with cvSlots := [(0, { convoy with state := .committed, closing := some closing })], tbase := 0xFFFFFFFFFF }

theorem test_meets_cvcloseDone (h : Obligations.EngineEvents) : Completes (exec (.cvcloseDone 1 0) sCommitted) := by
  refine ⟨_, h.2.2.2.2.2.2.2.2.2.2 sCommitted 1 0 0 { convoy with state := .committed, closing := some closing } closing ?_ rfl⟩ <;>
    decide +kernel

/-! ## Witnesses: events of the graph -/

def barrierAt (who : List Nat) : Barrier :=
  { phase := 0, arrived := who.map fun k => { tid := 1, who := k, fmt := 0, mode := 0, awaits := [], streams := [] } }

/-- The party has arrived at the team's barrier 3, which the sequencer does not meet; as a member of a group, at its cluster's; with
the sequencer, at a barrier that both meet; and at a barrier of a run of one device and of two. -/
def sTeamBar : State :=
  (s0.modRun 2 fun r => { r with image := { r.image with nodes := [{ placedNode with seqbar := 0 }] } }).modTeam 1 fun t =>
    { t with barriers := [(3, barrierAt [0])] }

def sClBar : State := { st (fun t => { t with group := some (1, 2) }) with clBarriers := [(3, barrierAt [0])] }

def sMetBar : State := st fun t => { t with barriers := [(3, barrierAt [0, 16])] }

def sRunBar (ms : List Member) : State := sr fun r => { r with members := ms, barriers := [(3, barrierAt [0])] }

def runOf (s : State) : Run := (Map.find s.runs 2).getD placedRun

theorem test_meets_barrierPhaseComplete (h : Obligations.GraphEvents) :
    Completes (exec (.barrierPhaseComplete (.team 1 3)) sTeamBar) ∧ Completes (exec (.barrierPhaseComplete (.cluster 0 3)) sClBar) ∧
      Completes (exec (.barrierPhaseComplete (.team 1 3)) sMetBar) ∧
      Completes (exec (.barrierPhaseComplete (.run 2 3)) (sRunBar [])) ∧
      Completes (exec (.barrierPhaseComplete (.run 2 3)) (sRunBar [⟨0, 1, 0, 0, 0⟩, ⟨3, 1, 0, 0, 0⟩])) := by
  have x (ms : List Member) := h.2.2.2.1 (sRunBar ms) 2 3 (runOf (sRunBar ms))
  refine ⟨⟨_, h.1 sTeamBar 1 3 (teamOf sTeamBar) ?_ ?_ ?_⟩, ⟨_, h.2.1 sClBar 0 3 ?_⟩,
    ⟨_, h.2.2.1 sMetBar 1 3 (teamOf sMetBar) ?_ ?_ ?_⟩, ⟨_, (x [] ?_).1 ?_ ?_⟩,
    ⟨_, (x [⟨0, 1, 0, 0, 0⟩, ⟨3, 1, 0, 0, 0⟩] ?_).2 ?_⟩⟩ <;> decide +kernel

def aStall (p : Option (Nat × Nat × BitVec 16)) : Stalled :=
  { id := 9, run := 2, die := 0, node := 0, recs := [rec0], cluster := 0, tid := 1, party := 0, origin := ⟨0, 0, 0, some 0, false⟩,
    peer := p }

/-- An emission of this device, and one of agent 1 of rank 3. -/
theorem test_meets_stalledEmissionAccept (h : Obligations.GraphEvents) :
    Completes (exec (.stalledEmissionAccept 9) { sGraph with stalled := [aStall none] }) ∧
      Completes (exec (.stalledEmissionAccept 9) { sGraph with stalled := [aStall (some (3, 1, 7))] }) := by
  have x (p : Option (Nat × Nat × BitVec 16)) := h.2.2.2.2.2.1 { sGraph with stalled := [aStall p] } 9 (aStall p)
  refine ⟨⟨_, (x none ?_ ?_).1 (teamOf sGraph) rfl ?_ ?_⟩, ⟨_, (x (some (3, 1, 7)) ?_ ?_).2 3 1 7 rfl⟩⟩ <;> decide +kernel

def aQRec : QRec := { words := rec0, spilled := false, overflowed := false, since := 0, origin := none, fault := false }

/-- The run of the graph, changed. -/
def rg (f : Run → Run) : State := sGraph.modRun 2 f

def sQueued : State := rg fun r => { r with queues := [(0, [aQRec])] }

theorem test_meets_gatherWindowExpiry (h : Obligations.GraphEvents) : Completes (exec (.gatherWindowExpiry 2 0 0) sQueued) := by
  refine ⟨_, h.2.2.2.2.2.2.2.1 sQueued 2 (runOf sQueued) 0 0 graphNode aQRec [] ?_ ?_ ?_ ?_ ?_ ?_⟩ <;> decide +kernel

def aGathered : Gathered := { node := 0, die := 0, recs := [aQRec], stamp := 0, origin := none }

def sGathered : State := { rg (fun r => { r with gathered := [aGathered] }) with teams := [] }

theorem freshNumber : (1 : Word) ∉ (runOf sGathered).teamNos := by decide +kernel

theorem test_meets_teamPlacement (h : Obligations.GraphEvents) : Completes (exec (.teamPlacement 0 [0] [1]) sGathered) := by
  refine ⟨_, h.2.2.2.2.2.2.2.2.1 sGathered 0 [0] [1] 0 0 2 0 (runOf sGathered) aGathered graphNode
    ?_ ?_ ?_ ?_ ?_ ?_ ?_ ?_ ?_ ?_ fun _ h => List.mem_singleton.mp h ▸ freshNumber⟩ <;>
    decide +kernel

/-- The queue of the node is full, a party of the only team of the node waits to emit into it, and no core of the die takes another
team. -/
def sFullQueue (w : List (Nat × Nat × List Nat × Nat)) : State :=
  { rg (fun r => { r with
      image := { r.image with nodes := [{ graphNode with quota := 1 }] }, queues := [(0, [aQRec])] }) with
    stalled := [aStall none], clk := 300000, deadWatch := w, fenced := (List.range 48).map .core }

/-- The set is seen first, then watched for too short a time, then for long enough. -/
theorem test_meets_graphDeadlockDetect (h : Obligations.GraphEvents) :
    Completes (exec (.graphDeadlockDetect 2 0 [0]) (sFullQueue [])) ∧
      Completes (exec (.graphDeadlockDetect 2 0 [0]) (sFullQueue [(2, 0, [0], 75001)])) ∧
      Completes (exec (.graphDeadlockDetect 2 0 [0]) (sFullQueue [(2, 0, [0], 75000)])) := by
  have x (w : List (Nat × Nat × List Nat × Nat)) := h.2.2.2.2.2.2.2.2.2.1 (sFullQueue w) 2 0 [0]
  refine ⟨⟨_, (x [] ?_).1 ?_⟩, ⟨_, ((x [(2, 0, [0], 75001)] ?_).2 2 0 [0] 75001 ?_).1 ?_⟩,
    (((x [(2, 0, [0], 75000)] ?_).2 2 0 [0] 75000 ?_).2 ?_ ?_).elim fun _ y => ⟨_, y.2.2⟩⟩ <;> decide +kernel

def sUnseeded : State := rg fun r => { r with seeded := [], seeds := [rec0] }

theorem test_meets_runSeed (h : Obligations.GraphEvents) : Completes (exec (.runSeed 2 0) sUnseeded) := by
  refine ⟨_, h.2.2.2.2.2.2.2.2.2.2.1 sUnseeded 2 0 (runOf sUnseeded) ?_ ?_ (.inr ?_) ?_ ?_ ?_ ?_ ?_⟩ <;> decide +kernel

def sRetired : State := sp fun q => { q with retired := true }

theorem test_meets_teamRetire (h : Obligations.GraphEvents) : Completes (exec (.teamRetire 1) sRetired) := by
  refine ⟨_, h.2.2.2.2.2.2.2.2.2.2.2.1 sRetired 1 (teamOf sRetired) (runOf sRetired) ?_ ?_ ?_ ?_ ?_ ?_ ?_ ?_
    (fun c hc => absurd (show sRetired.wsCopies = [] by decide +kernel) (List.ne_nil_of_mem hc))⟩ <;> decide +kernel

theorem test_meets_runComplete (h : Obligations.GraphEvents) : Completes (exec (.runComplete 2) { s0 with teams := [] }) := by
  refine ⟨_, h.2.2.2.2.2.2.2.2.2.2.2.2.1 { s0 with teams := [] } 2 (runOf s0) ?_ ?_⟩ <;> decide +kernel

def aFault : FaultRec :=
  { cause := 0x05, sub := 0, deferred := false, engine := false, origin := ⟨4, 0, 0, some 0, false⟩, lane := none, addr := none,
    info := 7, waitOn := 0, waitX := 0, stamp := 0, supp := 0 }

/-- The team stops, with a fault or without one, at a node that is fatal or not. -/
def sStopping (f : Option FaultRec) (fatal : Bool) : State :=
  (st fun t => { t with state := .stopping, fault := f }).modRun 2 fun r =>
    { r with image := { r.image with nodes := [{ placedNode with fatal := fatal }] } }

theorem test_meets_faultStop (h : Obligations.GraphEvents) :
    Completes (exec (.faultStop 1) (sStopping none false)) ∧ Completes (exec (.faultStop 1) (sStopping (some aFault) false)) ∧
      Completes (exec (.faultStop 1) (sStopping (some aFault) true)) := by
  have x (f : Option FaultRec) (b : Bool) := h.2.2.2.2.2.2.2.2.2.2.2.2.2.1 (sStopping f b) 1 (teamOf (sStopping f b))
    (runOf (((sStopping f b).settleStores 1 0).contain 1 (teamOf (sStopping f b))))
  refine ⟨⟨_, (x none false ?_ ?_ ?_).1 (.inl ?_)⟩, ⟨_, ((x (some aFault) false ?_ ?_ ?_).2 aFault ?_ ?_).1 ?_⟩,
    ⟨_, ((x (some aFault) true ?_ ?_ ?_).2 aFault ?_ ?_).2 ?_⟩⟩ <;> decide +kernel

def sHung : State := { s0 with hangt := 100, clk := 100 }

theorem test_meets_hangReport (h : Obligations.GraphEvents) : Completes (exec (.hangReport 1 0) sHung) := by
  refine (h.2.2.2.2.2.2.2.2.2.2.2.2.2.2.1 sHung 1 0 (teamOf sHung) (partyOf sHung) (runOf sHung) ?_ ?_ ?_ ?_ ?_ ?_ ?_).elim fun _ x =>
    ⟨_, x.2.2.2.2.2.2.2⟩ <;> decide +kernel

def sWaits : State := { sp (fun q => { q with slot0 := { q.slot0 with wait := .lko } }) with clk := 5500000 }

theorem test_meets_gating (h : Obligations.GraphEvents) :
    Completes (exec (.clockGate 0) sWaits) ∧ Completes (exec (.powerGate 0) sWaits) ∧ Completes (exec (.coreWake 0) { sWaits with gated := [(0, 2)] }) := by
  have x := h.2.2.2.2.2.2.2.2.2.2.2.2.2.2.2 sWaits 0
  refine ⟨⟨_, x.1 ?_ ?_ ?_⟩, ⟨_, x.2.1 ?_ ?_⟩, ⟨_, (h.2.2.2.2.2.2.2.2.2.2.2.2.2.2.2 { sWaits with gated := [(0, 2)] } 0).2.2.1 ?_ ?_ ?_⟩⟩ <;>
    decide +kernel

/-- A gated core whose party is ready, and one whose party waits. -/
theorem test_meets_rouse (h : Obligations.GraphEvents) :
    Completes (act (.rouse 0) { s0 with gated := [(0, 1)] }) ∧ Completes (act (.rouse 0) { sWaits with gated := [(0, 1)] }) := by
  have x (s : State) := (h.2.2.2.2.2.2.2.2.2.2.2.2.2.2.2 s 0).2.2.2
  refine ⟨⟨_, (x { s0 with gated := [(0, 1)] }).1 ⟨0, by decide, ?_⟩⟩, ⟨_, (x { sWaits with gated := [(0, 1)] }).2 ?_⟩⟩ <;>
    decide +kernel

/-! ## Witnesses: events of queues -/

/-- The queue 0 of the run, changed; it is enabled and mapped, and its pages answer. -/
def sKey (f : Queue → Queue) : State :=
  { s0.modQueue 0 (fun q => f { q with state := .enabled, mapped := some (0, 0xFFFE) }) with phase := 4, tbase := 0x100000000000 }

theorem test_meets_ladderTimeouts (h : Obligations.QueueEvents) :
    Completes (exec (.ladderDrainTimeout 0) (sKey fun q => { q with status := statusWord 1 true false 0 0 })) ∧
      Completes (exec (.ladderSaveTimeout 0) (sKey fun q => { q with status := statusWord 2 true false 0 0 })) ∧
      Completes (exec (.ladderSaveTimeout 0) (sKey fun q => { q with status := statusWord 3 true false 0 0 })) := by
  have x (r : Nat) := h.2.1 (sKey fun q => { q with status := statusWord r true false 0 0 }) 0
  refine ⟨⟨_, h.1 (sKey fun q => { q with status := statusWord 1 true false 0 0 }) 0 ?_ ?_ ?_ ?_ ?_⟩,
    ⟨_, ((x 2 ?_ ?_).2 ?_ ?_ ?_).2 ?_⟩, ⟨_, ((x 3 ?_ ?_).1 ?_).2 ?_⟩⟩ <;> decide +kernel

def sSaving : State := st fun t => { t with state := .saving }

theorem test_meets_teamSaveComplete (h : Obligations.QueueEvents) : Completes (exec (.teamSaveComplete 1) sSaving) := by
  refine ⟨_, h.2.2.1 sSaving 1 (teamOf sSaving) (runOf sSaving) ?_ ?_ ?_⟩ <;> decide +kernel

def sSaved : State := st fun t => { t with state := .saved, core := 196 }

theorem test_meets_teamResume (h : Obligations.QueueEvents) : Completes (exec (.teamResume 1 [5]) sSaved) := by
  refine ⟨_, h.2.2.2.1 sSaved 1 [5] (teamOf sSaved) placedNode (runOf sSaved) 0 0 2 ?_ ?_ ?_ ?_ ?_ ?_ ?_⟩ <;> decide +kernel

/-- Every hardware slot is taken, and queue 300 waits for one. -/
def sSliced : State :=
  { s0 with
    tbase := 2560000000
    queues := ((List.range 256).map fun k => (k, { Queue.reset with mapped := some (k, BitVec.ofNat 16 k) })) ++
      [(300, { Queue.reset with state := .enabled, wptr := 1 })] }

theorem test_meets_timeSliceExpiry (h : Obligations.QueueEvents) : Completes (exec (.timeSliceExpiry 3) sSliced) := by
  refine ⟨_, h.2.2.2.2.1 sSliced 3 (3, 3) ?_ ?_ ?_ ?_ ?_⟩ <;> decide +kernel

def sUnmapped : State := { s0.modQueue 5 (fun q => { q with state := .enabled, wptr := 1 }) with phase := 4 }

theorem free_of {s : State} (h : (s.queues.all fun x => x.2.mapped.isNone) = true) (slot : Nat) (tag : BitVec 16) :
    ∀ x ∈ s.queues, ∀ n t, x.2.mapped = some (n, t) → n ≠ slot ∧ t ≠ tag := by
  intro x hx n t e
  have := List.all_eq_true.mp h x hx
  simp [e] at this

def anOrder : MapOrder :=
  { tag := 1, privileged := false, t1 := 10000000, t2 := 100000, hangt := 2250000, clusters := [0], ranges := [0], banks := [0] }

theorem test_meets_queueMap (h : Obligations.QueueEvents) : Completes (exec (.queueMap 5 0 anOrder) sUnmapped) := by
  refine ⟨_, h.2.2.2.2.2.1 sUnmapped 5 0 anOrder ?_ ?_ (free_of ?_ 0 1) ?_ ?_ ?_ ?_ ?_ ?_ ?_ ?_⟩ <;> decide +kernel

def sGone : State := s0.modQueue 5 fun q => { q with mapped := some (0, 1) }

theorem test_meets_queueUnmap (h : Obligations.QueueEvents) : Completes (exec (.queueUnmap 5) sGone) := by
  refine ⟨_, h.2.2.2.2.2.2.1 sGone 5 (0, 1) ?_ ?_ ?_ ?_⟩ <;> decide +kernel

theorem test_meets_parkedWaitPoll (h : Obligations.QueueEvents) : Completes (exec .parkedWaitPoll { s0 with clk := 225000 }) :=
  ⟨_, h.2.2.2.2.2.2.2.1 { s0 with clk := 225000 } (by decide +kernel) (by decide +kernel)⟩

/-- A WSLOAD of 256 bytes from 0x20000 to bank 0 of die 0. -/
def wsloadRec : Rec := [4, 0, 0x20000, 0, 0, 1] ++ List.replicate 10 0

def sStart : State := { sKey (fun q => { q with started := [⟨0, wsloadRec, false, false, none⟩] }) with runs := [] }

def sLoaded : State :=
  { sKey (fun q => { q with started := [⟨0, wsloadRec, true, false, none⟩] }) with wsCopies := [{ aWsCopy with dest := none }] }

theorem test_meets_wsload (h : Obligations.QueueEvents) :
    Completes (exec (.wsloadUnsealStart 0) sStart) ∧ Completes (exec (.wsloadComplete 0 0) sLoaded) := by
  refine ⟨⟨_, h.2.2.2.2.2.2.2.2.1 sStart 0 ⟨0, wsloadRec, false, false, none⟩ ?_ ?_ ?_ ?_ ?_⟩,
    ⟨_, h.2.2.2.2.2.2.2.2.2.1 sLoaded 0 0 { aWsCopy with dest := none } ⟨0, wsloadRec, true, false, none⟩ ?_ ?_⟩⟩ <;> decide +kernel

def sReset : State := sKey fun q => { q with resetting := true }

theorem test_meets_queueResetComplete (h : Obligations.QueueEvents) : Completes (exec (.queueResetComplete 0) sReset) := by
  refine ⟨_, h.2.2.2.2.2.2.2.2.2.2 sReset 0 (by decide +kernel) fun tag k _ hk => ?_⟩
  rw [show sReset.lastReq = [] by decide +kernel] at hk
  cases hk


/-! ## Witnesses: the fabric and the time base -/

/-- A request of rank 3 to this device, rank 0. -/
def aReq (op : FabOp) : FabReq :=
  { src := 3, dst := 0, agent := 1, seqno := 7, addr := 0x20000, op := op, stamp := 0, place := none, order := 0 }

def servedS (r : Served) : State := match r with | .answer s _ => s | _ => s0
def servedR (r : Served) : FabResp := match r with | .answer _ a => a | _ => .ack
def isServed (r : Served) : Bool := match r with | .answer .. => true | _ => false

theorem served_of {r : Served} (h : isServed r = true) : r = .answer (servedS r) (servedR r) := by
  cases r with
  | answer s a => rfl
  | _ => cases h

/-- A port works. -/
def sLink : State := { s0 with fabPorts := [(2, { trained := true, up := true, failures := 0, held := false })], phase := 4 }

/-- One whose turn has come, one that is ahead of its turn, one for another rank, and one that has come too late. -/
theorem test_meets_remoteRequest (h : Obligations.FabricAndTime) :
    Completes (exec (.remoteRequest (aReq (.read 4))) sLink) ∧
      Completes (exec (.remoteRequest { aReq (.read 4) with order := 1 }) sLink) ∧
      Completes (exec (.remoteRequest { aReq (.read 4) with dst := 5 }) sLink) ∧
      Completes (exec (.remoteRequest (aReq (.read 4))) { sLink with tbase := 0xFFFFFFFFFFF }) := by
  have nobody {s : State} (r : FabReq) (hs : s.reorder = []) :
      ∀ x ∈ s.reorder, ¬(x.src = r.src ∧ x.agent = r.agent ∧ x.seqno = r.seqno ∧ x.order = r.order) := by simp [hs]
  have x (r : FabReq) (s : State) := h.1 s r
  refine ⟨⟨_, ((x (aReq (.read 4)) sLink ?_ ?_ ?_ ?_ ?_ (nobody _ ?_)).2.2 ?_ ?_).2 _ _ ?_ (served_of ?_)⟩,
    ⟨_, ((x { aReq (.read 4) with order := 1 } sLink ?_ ?_ ?_ ?_ ?_ (nobody _ ?_)).2.2 ?_ ?_).1 ?_⟩,
    ⟨_, h.2.1 sLink { aReq (.read 4) with dst := 5 } (.inl ?_)⟩,
    ⟨_, (x (aReq (.read 4)) { sLink with tbase := 0xFFFFFFFFFFF } ?_ ?_ ?_ ?_ ?_ (nobody _ ?_)).2.1 ?_ ?_⟩⟩ <;> decide +kernel

/-- An engine owns the line that the request names, so that it needs a forward. -/
def sForward : State := { sLink with ssu := [(0, [{ aScan none with owned := [lineKey 0x20000] }])] }

theorem test_meets_remoteRequest_forward (h : Obligations.FabricAndTime) : Completes (exec (.remoteRequest (aReq (.read 4))) sForward) := by
  obtain ⟨x, -⟩ := h.1 sForward (aReq (.read 4)) (by decide +kernel) (by decide)
    (by decide +kernel) (by decide +kernel) rfl (by simp [show sForward.reorder = [] by decide +kernel])
  rcases x (by decide +kernel) with e | e <;> exact ⟨_, e⟩

/-- A request of one lane of the access 4, sent to rank 3. -/
def outOf (op : FabOp) (a : Option (Nat × Nat)) : Outstanding :=
  { id := 9, req := { aReq op with src := 0, dst := 3 }, tid := 1, party := some 0, access := a, lanes := [(0, 0)], dev := false,
    after := none, origin := ⟨0, 0, 0, some 0, false⟩, va := some 0x20000, key := 3 * 2 ^ 52 + 0x20000, backoff := 0, retryAt := 0, tag := 0,
    port := some 2, waiting := false, bounced := none, held := false, lane := none, late := none }

def sOut (o : Outstanding) : State := { sLink with outstanding := [o], tbase := 0xFFFFFFFFFFF }

def outRead : Outstanding := outOf (.read 4) (some (4, 0))
def outWrite : Outstanding := outOf (.write [0]) none

theorem test_meets_remoteResponse (h : Obligations.FabricAndTime) :
    Completes (exec (.remoteResponse 9 .ack) (sOut outWrite)) ∧ Completes (exec (.remoteResponse 9 (.front 5)) (sOut outRead)) := by
  have x (o : Outstanding) := h.2.2.1 (sOut o) 9 o
  refine ⟨⟨_, (x outWrite ?_ ?_ ?_).1⟩, ⟨_, (x outRead ?_ ?_ ?_).2.2.2.2.2.1 5 (4, 0) rfl⟩⟩ <;> decide +kernel

/-- A request that was told to come again at 0, with a backoff of 64 microseconds. -/
theorem test_meets_retryBackoff (h : Obligations.FabricAndTime) :
    Completes (exec (.fabricRetryBackoff 9) (sOut { outRead with waiting := true, backoff := 64 })) := by
  obtain ⟨p, e⟩ := (h.2.2.2.2.1 (sOut { outRead with waiting := true, backoff := 64 }) 9).2
    ⟨{ outRead with waiting := true, backoff := 64 }, by decide +kernel, by decide +kernel⟩
  exact ⟨_, e⟩

theorem test_meets_fabricTimeout (h : Obligations.FabricAndTime) :
    Completes (exec (.fabricTimeout 9) (sOut outWrite)) ∧
      (sOut outWrite).timedOut outWrite = (sOut outWrite).failRequest outWrite { cause := 0x11, addr := some 0x20000, info := 3 } true := by
  have x := h.2.2.2.1 (sOut outWrite) 9 outWrite (by decide +kernel) (by decide +kernel) rfl rfl (by decide +kernel)
  exact ⟨⟨_, x.1⟩, x.2 [0] rfl rfl rfl⟩

/-- Port 2 is up, with two flits in a row that failed, or none. -/
def sPort (n : Nat) : State :=
  { s0 with fabPorts := [(2, { trained := true, up := true, failures := n, held := false })], phase := 4 }

/-- A flit under the key, and one that the link has damaged. -/
theorem test_meets_dlFlitReceive (h : Obligations.FabricAndTime) :
    Completes (exec (.dlFlitReceive 2 ⟨1, true⟩) { sPort 2 with key := some 1 }) ∧
      Completes (exec (.dlFlitReceive 2 ⟨1, false⟩) (sPort 0)) ∧ Completes (exec (.dlFlitReceive 2 ⟨1, false⟩) (sPort 2)) := by
  have bad (s : State) : ¬((⟨1, false⟩ : Flit).intact = true ∧ (s.key = some 1 ∨
      ∃ t, s.oldKey = some (1, t) ∧ s.tbase.toNat < t + 2560000000)) := fun h => nomatch h.1
  have x (n : Nat) := h.2.2.2.2.2.2.1 (sPort n) 2 ⟨1, false⟩
  refine ⟨⟨_, (h.2.2.2.2.2.2.1 { sPort 2 with key := some 1 } 2 ⟨1, true⟩ ?_).1 ⟨rfl, .inl rfl⟩⟩, ⟨_, (x 0 ?_).2.1 (bad _) ?_⟩,
    ⟨_, (x 2 ?_).2.2 (bad _) ?_⟩⟩ <;> decide +kernel

theorem test_meets_links (h : Obligations.FabricAndTime) :
    Completes (exec (.linkTraining 2 { lanes := 4, gtPerLane := 200, onlyListed := true }) (sPort 0)) ∧
      Completes (exec (.portGoesDown 15) (sPort 0)) := by
  refine ⟨(h.2.2.2.2.2.2.2.1 (sPort 0) 2 { lanes := 4, gtPerLane := 200, onlyListed := true } ?_ ?_ ?_).elim fun _ x => ⟨_, x.1⟩,
    (h.2.2.2.2.2.2.2.2.1 (sPort 0) 15 ?_).elim fun _ x => ⟨_, x.1⟩⟩ <;> decide +kernel

/-- The device has a key, a new one, and an old one that was replaced at 0. -/
def sKeys : State := { s0 with key := some 1, newKey := some 2, oldKey := some (0, 0), tbase := 2560000000 }

theorem test_meets_keys (h : Obligations.FabricAndTime) :
    Completes (exec .oldKeyExpiry sKeys) ∧ Completes (exec (.setKey 5 true) s0) ∧ Completes (exec (.setKey 5 true) sKeys) ∧
      Completes (exec .keySwitch s0) ∧ Completes (exec .keySwitch sKeys) := by
  have x := h.2.2.2.2.2.2.2.2.2
  refine ⟨⟨_, x.1 sKeys 0 0 rfl ?_⟩, ⟨_, (x.2.1 s0 5).2.1 ?_⟩, ⟨_, (x.2.1 sKeys 5).2.2 ?_⟩, ⟨_, x.2.2.1 s0 ?_⟩,
    ⟨_, x.2.2.2.1 sKeys 2 1 rfl rfl⟩⟩ <;> decide +kernel

/-- A queue of the device is mapped. -/
def sMapped : State := s0.modQueue 0 fun q => { q with mapped := some (0, 0xFFFE) }

theorem test_meets_setRank (h : Obligations.FabricAndTime) :
    Completes (exec (.setRank 5) s0) ∧ Completes (exec (.setFto 100000) s0) ∧ Completes (exec (.setRank 5) sMapped) ∧
      Completes (exec (.setFto 99999) s0) := by
  have x := h.2.2.2.2.2.2.2.2.2.2.2.2.2.2
  refine ⟨⟨_, (x.1 s0 5 100000 ?_).1⟩, ⟨_, (x.1 s0 5 100000 ?_).2 ?_ ?_⟩, ⟨_, (x.2.1 sMapped 5 100000).1 ?_⟩,
    ⟨_, (x.2.1 s0 5 99999).2 (.inr (.inl ?_))⟩⟩ <;> decide +kernel

def sLock : State := { s0 with tolSince := some 0, tbase := 15360000000000, locked := true }

theorem test_meets_timeBase (h : Obligations.FabricAndTime) :
    Completes (exec .tbaseLock { sLock with lastSync := 15360000000000 }) ∧ Completes (exec .holdoverEntry sLock) ∧
      Completes (exec (.ptpMessage 50) sLock) ∧ Completes (exec (.ptpMessage 50) { sLock with lastPps := some 15360000000000 }) ∧
      Completes (exec (.ppsInput 51) sLock) := by
  obtain ⟨-, -, -, -, -, -, -, -, -, -, -, -, -, -, -, -, i, -, a, b⟩ := h
  have y := i { sLock with lastPps := some 15360000000000 } 50
  refine ⟨⟨_, a { sLock with lastSync := 15360000000000 } 0 rfl ?_ ?_⟩, ⟨_, b sLock rfl ?_⟩,
    ⟨_, (i sLock 50).1 fun k hk => absurd hk (by simp [show sLock.lastPps = none by decide +kernel])⟩,
    (y.2.1 15360000000000 rfl ?_).elim fun _ x => ⟨_, x.1⟩, (i sLock 51).2.2.elim fun _ x => ⟨_, x.1⟩⟩ <;> decide +kernel

/-! ## Witnesses: power and management -/

/-- Die 2 is at level 5; its sensors have been calm, and one has been over 105 °C, since 0. -/
def sHot : State :=
  { s0 with
    throttle := [(2, 5)], sensors := [(2, { last := ⟨0, 0, 0⟩, overSince := none, calmSince := some 0, hotSince := some 0 })]
    clk := 2250000 }

theorem test_meets_throttle (h : Obligations.PowerAndManagement) :
    (∃ x, x.hotSince = none ∧ exec (.throttleUp 2 ⟨0, 96000, 0⟩) s0 =
      .next { s0 with throttle := Store.write s0.throttle 2 3, sensors := Map.set s0.sensors 2 x }) ∧
      Completes (exec (.throttleDown 2) sHot) ∧ Completes (exec .thermalTrip sHot) := by
  refine ⟨?_, ⟨_, h.2.1 sHot 2 0 ?_ ?_ ?_ ?_ ?_⟩, (h.2.2.1 sHot).elim fun _ x => ⟨_, x.2.2.2.1 ⟨2, ?_, ?_, 0, ?_, ?_⟩⟩⟩
  · obtain ⟨l, x, w, -, a, e⟩ := h.1 s0 2 ⟨0, 96000, 0⟩ (by decide)
    rw [w.2.2.1 (by decide) (by decide)] at e
    exact ⟨x, by rw [a]; rfl, e⟩
  all_goals decide +kernel

/-- Bring-up in phases 0, 1 and 3 with what each needs. -/
def sPhaseThree : State := { s0 with phase := 3, ranked := true, key := some 1 }

theorem test_meets_bringup (h : Obligations.PowerAndManagement) :
    Completes (exec (.bringupPhaseComplete true) s0) ∧ Completes (exec (.bringupPhaseComplete true) { s0 with phase := 1 }) ∧
      Completes (exec (.bringupPhaseComplete true) sPhaseThree) := by
  have x := h.2.2.2.2.2.1
  refine ⟨⟨_, (x s0).1 rfl ⟨?_, ?_, ?_⟩⟩, ⟨_, (x { s0 with phase := 1 }).2.2.1 (.inl rfl)⟩, ⟨_, (x sPhaseThree).2.2.2.1 rfl rfl rfl⟩⟩ <;>
    decide +kernel

theorem test_meets_functionLevelReset (h : Obligations.PowerAndManagement) :
    Completes (exec (.functionLevelReset 63) s0) ∧ Completes (exec (.configurationRequest 63) s0) ∧
      Completes (exec (.functionLevelReset 64) s0) := by
  have x := h.2.2.2.2.2.2
  refine ⟨(x.1 s0 63 ?_).elim fun _ y => ⟨_, y.2⟩, ⟨_, x.2.1 s0 63 ?_⟩, ⟨_, (x.2.2.1 s0 64 ?_).2⟩⟩ <;> decide

/-- Core 5 is fenced, and the other kinds of unit are not. -/
def sFenced : State := { s0 with fenced := [.core 5] }

theorem test_meets_unitFence (h : Obligations.PowerAndManagement) :
    Completes (exec (.unitFence (.core 5)) sFenced) ∧ Completes (exec (.unitFence (.channel 5 1)) sFenced) ∧
      Completes (exec (.unitFence (.ne 3)) sFenced) ∧ Completes (exec (.unitFence (.engine 0)) sFenced) ∧
      Completes (exec (.unitFence (.ssu 0)) sFenced) ∧ Completes (exec (.unitFence (.slice 0 7)) { sFenced with runs := [] }) ∧ Completes (exec (.unitFence (.slice 0 7)) sFenced) ∧
      Completes (exec (.unitFence (.core 0)) sFenced) := by
  have x := h.2.2.2.2.2.2.2.2.2
  refine ⟨⟨_, x.1 sFenced (.core 5) ?_⟩, ⟨_, x.2.1 sFenced 5 1 ?_⟩, ⟨_, x.2.2.1 sFenced 3 ?_⟩, ⟨_, x.2.2.2.1 sFenced 0 ?_⟩,
    ⟨_, x.2.2.2.2.1 sFenced 0 ?_⟩, ⟨_, (x.2.2.2.2.2.1 { sFenced with runs := [] } 0 7 ?_).1 ?_⟩,
    ⟨_, (x.2.2.2.2.2.1 sFenced 0 7 ?_).2 ?_⟩, ⟨_, x.2.2.2.2.2.2.1 sFenced 0 ?_⟩⟩ <;> decide +kernel

theorem test_meets_challenge (h : Obligations.PowerAndManagement) :
    Completes (exec (.challenge 77) s0) ∧ Completes (exec (.challenge 77) { s0 with sigIndex := 2 ^ 20 }) := by
  have x := h.2.2.2.2.2.2.2.2.2.2.2.2.2.2.2.2.2.2.1
  refine ⟨⟨_, (x s0 77).1 ?_⟩, ⟨_, (x { s0 with sigIndex := 2 ^ 20 } 77).2 ?_⟩⟩ <;> decide +kernel

/-! ## Witnesses: the host's registers and packets -/

/-- The queue 5 of function 0 as reset leaves it, in a device whose pages answer; and enabled, or mapped. -/
def sPages : State := { s0 with phase := 4, runs := [], teams := [] }
def sQ5 (f : Queue → Queue) : State := sPages.modQueue 5 f

def sEnabled : State := sQ5 fun q => { q with state := .enabled }

theorem test_meets_queueRegisters (h : Obligations.HostRegistersAndPackets) :
    Completes (exec (.doorbell 0 5 1) sPages) ∧ Completes (exec (.doorbell 0 5 16) sEnabled) ∧
      Completes (exec (.queueEnable 0 5) sPages) ∧ Completes (exec (.queueDisable 0 5) sEnabled) ∧
      Completes (exec (.queueInvalidate 0 5) sPages) ∧
      Completes (exec (.queueInvalidate 0 5) (sQ5 fun q => { q with mapped := some (0, 5) })) ∧
      Completes (exec (.registerWrite 0 (.ring 5) 0x60000) sPages) ∧ Completes (exec (.registerWrite 0 (.ring 5) 0x60000) sEnabled) := by
  have x := h.1 sPages 0 5 (by decide) (by decide) (by decide +kernel)
  have y := h.1 sEnabled 0 5 (by decide) (by decide) (by decide +kernel)
  have z := h.1 (sQ5 fun q => { q with mapped := some (0, 5) }) 0 5 (by decide) (by decide) (by decide +kernel)
  refine ⟨⟨_, x.1 1 (.inr (.inl ?_))⟩, ⟨_, y.1 16 (.inr (.inr ?_))⟩, ⟨_, x.2.1 ?_ ?_ ?_ ?_ ?_⟩, ⟨_, y.2.2.1 ?_ ?_⟩,
    ⟨_, x.2.2.2.2.2.2.1 ?_⟩, (z.2.2.2.2.2.2.2.1 0 5 ?_).elim fun _ u => u.elim fun _ u => ⟨_, u.2⟩,
    ⟨_, (x.2.2.2.2.2.2.2.2.1 0x60000 ?_).1⟩, ⟨_, (y.2.2.2.2.2.2.2.2.2.1 0x60000 ?_).1⟩⟩ <;> decide +kernel

def sVerify : State := sPages.modFn 0 fun p => { p with mbstat := 1 }

/-- A page of function 64; the pages of a device that is not yet up; and those of function 0. -/
theorem test_meets_functionPage (h : Obligations.HostRegistersAndPackets) :
    Completes (exec (.queueEnable 64 5) sPages) ∧ Completes (exec (.queueEnable 0 5) s0) ∧ Completes (exec (.flogdropClear 0) s0) ∧
      Completes (exec (.sigdbWrite 63 0) sPages) ∧ Completes (exec (.pwrcapWrite 3 0) sPages) ∧ Completes (exec (.mailboxGo 0) sPages) ∧
      Completes (exec (.mailboxGo 0) (sKey id)) := by
  obtain ⟨-, x, -, -, -, a, b, c, -⟩ := h
  refine ⟨⟨_, (x sPages 64 5 (.inl ?_)).2.1⟩, ⟨_, (x s0 0 5 (.inr (.inr ?_))).2.1⟩, ⟨_, (a s0 0 0 ?_ (.inr ?_)).2⟩,
    ⟨_, (a sPages 63 0 ?_ (.inl ?_)).1 ?_⟩, ⟨_, (b sPages 0).2 3 ?_⟩, ⟨_, (c sPages ?_).1 ?_⟩,
    ⟨_, (c (sKey id) ?_).2 ?_ ?_⟩⟩ <;> decide +kernel

/-- An image that verifies, one that is signed for other words, and one of an older version. -/
theorem test_meets_mailboxVerifyDone (h : Obligations.HostRegistersAndPackets) :
    Completes (exec (.mailboxVerifyDone ⟨4, 0, 4⟩ 9 true) sVerify) ∧ Completes (exec (.mailboxVerifyDone ⟨4, 0, 5⟩ 9 true) sVerify) ∧
      Completes (exec (.mailboxVerifyDone ⟨4, 0, 4⟩ 9 true) { sVerify with minVersion := 10 }) ∧
      Completes (exec (.mailboxVerifyDone ⟨4, 0, 4⟩ 9 false) sVerify) := by
  obtain ⟨-, -, -, -, -, -, -, -, x, -⟩ := h
  refine ⟨((x sVerify ⟨4, 0, 4⟩ 9 ?_ ?_).1 ?_ ?_ ?_).elim fun _ y => ⟨_, y.1⟩, ⟨_, (x sVerify ⟨4, 0, 5⟩ 9 ?_ ?_).2.1 (.inr ?_)⟩,
    ⟨_, (x { sVerify with minVersion := 10 } ⟨4, 0, 4⟩ 9 ?_ ?_).2.2.1 ?_ ?_ ?_⟩, ⟨_, (x sVerify ⟨4, 0, 4⟩ 9 ?_ ?_).2.2.2⟩⟩ <;>
    decide +kernel

/-- The doorbell of queue 5 and the mailbox's GO at their offsets, and an offset that does not answer before phase 2. -/
theorem test_meets_bar (h : Obligations.HostRegistersAndPackets) :
    exec (.registerWrite 0 (.bar 0x105018 false) 1) sPages = exec (.doorbell 0 5 1) sPages ∧
      exec (.registerWrite 0 (.bar 0x80C false) 0) sPages = exec (.mailboxGo 0) sPages ∧ s0.readBar 0 0x105018 = none := by
  obtain ⟨-, -, x, y, z, -⟩ := h
  exact ⟨(x sPages 0 5 1 (by decide) (by decide) (by decide +kernel)).2.2.2.1, (y sPages 0 0 (by decide)).2.2.1,
    (z s0 0 0x18 5 (by decide +kernel)).2⟩

/-- Queue 0 is enabled and mapped, and its ring of sixteen packets at 0x60000 holds one. -/
def sPkt (w : Rec) : State :=
  { sKey (fun q => { q with ring := 0x60000, root := 0x1000, wptr := 1 }) with
    runs := [], mem := writeBytes sMem (withAddr 0x60000 (w.flatMap fun x => toBytes 4 x.toNat)) }

def goS (r : Taken) : State := match r with | .go s _ _ => s | _ => s0
def goI (r : Taken) : Nat := match r with | .go _ i _ => i | _ => 0
def goW (r : Taken) : Rec := match r with | .go _ _ w => w | _ => []
def isGo (r : Taken) : Bool := match r with | .go .. => true | _ => false

theorem go_of {r : Taken} (h : isGo r = true) : r = .go (goS r) (goI r) (goW r) := by
  cases r with
  | go s i w => rfl
  | none => cases h
  | bad s => cases h

def pktRec (ty x : Word) : Rec := [ty, 0, x] ++ List.replicate 13 0

theorem test_meets_packets (h : Obligations.HostRegistersAndPackets) :
    Completes (exec (.packetLaunch 0) (sPkt (pktRec 1 0))) ∧ Completes (exec (.packetWait 0) (sPkt (pktRec 2 0x20000))) ∧
      Completes (exec (.packetSignal 0) (sPkt (pktRec 3 0x20000))) ∧ Completes (exec (.packetPreempt 0) (sPkt (pktRec 6 1))) ∧
      Completes (exec (.packetReset 0) (sPkt (pktRec 7 1))) := by
  obtain ⟨-, -, -, -, -, -, -, -, -, x⟩ := h
  refine ⟨⟨_, x.1 (sPkt (pktRec 1 0)) _ 0 _ _ (go_of ?_)⟩, ⟨_, x.2.1 (sPkt (pktRec 2 0x20000)) _ 0 _ _ (go_of ?_)⟩,
    ⟨_, x.2.2.1 (sPkt (pktRec 3 0x20000)) _ 0 _ _ (go_of ?_)⟩, ⟨_, x.2.2.2.2.2.2.1 (sPkt (pktRec 6 1)) _ 0 _ _ (go_of ?_)⟩,
    ⟨_, x.2.2.2.2.2.2.2 (sPkt (pktRec 7 1)) _ 0 _ _ (go_of ?_)⟩⟩ <;> decide +kernel

/-- The bank that a WSLOAD writes is sealed by a run that has seeded die 0. -/
def sSealed : State := { sPkt wsloadRec with runs := s0.runs }

theorem test_meets_packetWsload (h : Obligations.HostRegistersAndPackets) :
    Completes (exec (.packetWsload 0) (sPkt wsloadRec)) ∧ Completes (exec (.packetWsload 0) sSealed) := by
  obtain ⟨-, -, -, -, -, -, -, -, -, -, -, -, x⟩ := h
  refine ⟨⟨_, x.1 (sPkt wsloadRec) _ 0 _ _ (go_of ?_) ?_⟩, ⟨_, x.2.1 sSealed _ 0 _ _ (go_of ?_) ?_⟩⟩ <;> decide +kernel

/-- A BARRIER with nothing before it, and one that stands behind a WSLOAD that has begun. -/
def sBehind : State :=
  { sKey (fun q => { q with ring := 0x60000, root := 0x1000, wptr := 2, rptr := 1, started := [⟨0, wsloadRec, true, false, none⟩] }) with
    runs := [], mem := writeBytes sMem (withAddr 0x60040 ((pktRec 5 0).flatMap fun x => toBytes 4 x.toNat)) }

theorem test_meets_packetBarrier (h : Obligations.HostRegistersAndPackets) :
    Completes (exec (.packetBarrier 0) (sPkt (pktRec 5 0))) ∧ Completes (exec (.packetBarrier 0) sBehind) := by
  obtain ⟨-, -, -, -, -, -, -, -, -, -, -, -, -, -, x, -⟩ := h
  refine ⟨⟨_, (x (sPkt (pktRec 5 0)) _ 0 _ _ ⟨0, pktRec 5 0, true, false, none⟩ [] (go_of ?_) ?_).1 ?_⟩,
    ⟨_, (x sBehind _ 0 _ _ ⟨0, wsloadRec, true, false, none⟩ [⟨1, pktRec 5 0, true, false, none⟩] (go_of ?_) ?_).2 ?_⟩⟩ <;> decide +kernel

/-! ## Witnesses: statements about functions -/

theorem test_meets_DecodeEncode : (Instr.vldgPart 8 4 (.lit 1) (some ⟨.acq, .dv⟩) .ca .w32 1).wf = true ∧
    (encode (Instr.vldgPart 8 4 (.lit 1) (some ⟨.acq, .dv⟩) .ca .w32 1)).length = 4 := by decide +kernel

theorem test_meets_AtomicResults (h : Obligations.AtomicResults) : atomNew .add .i32 0xFFFFFFFF 0 2 = 1 ∧
    AppliedOnce .fadd .f32 0x3F800000 [0x40000000] (atomNew .fadd .f32 0x3F800000 0 0x40000000) :=
  ⟨h.2.2 .add .i32 0xFFFFFFFF 0 2 (by decide) (by decide) (by decide) (by decide) (by decide),
    h.1 .fadd .f32 0x3F800000 0 0x40000000 (by decide) (by decide) (by decide) (by decide)⟩

theorem test_meets_FloatValues (h : Obligations.FloatValues) :
    (mulNum (.inf true) (.fin false 0 0)).1.isNan = true ∧ (addNum false (.inf true) (.inf false)).2 = wINV ∧
      elemFexp .f32 0 0 0 0 = (2 ^ 31, wDZ) ∧ (elemFscl .f32 0 0 0x7F800000 3).2 = 0 := by
  refine ⟨((h.1 false (.inf true) (.fin false 0 0)).2.2.2.1 rfl rfl (.inl ⟨⟨true, rfl⟩, rfl⟩)).1,
    ((h.1 false (.inf true) (.inf false)).2.1 true rfl rfl).2, (h.2.2.2.2.2.1 .f32 0 0 0 0).2.2.1 (by decide),
    ((h.2.2.2.2.2.2.1 .f32 0 0 0x7F800000 3 (by decide)).2.1 false (by decide)).2⟩

theorem test_meets_VectorElements : (partyOf s0).storePort 118 = none ∧ (partyOf s0).storePort 119 = none ∧
    inMask ((partyOf s0).active false) 1 = true ∧ inMask ((partyOf s0).active false) 2 = false := by decide +kernel

/-! ## Values worked out by hand -/

/-- s0 with lane 0 of v1, v2 and v3 set. -/
def sLane (a b c : Word) : State :=
  sp fun q => { q with vregs := Store.write (Store.write (Store.write q.vregs 96 a) 192 b) 288 c }

/-- Lane 0 of v3 and warn after an instruction. -/
def lane0 (i : Instr) (s : State) : Word × Word :=
  match exec i s with
  | .next t => ((partyOf t).getV 3 0, (partyOf t).warn)
  | _ => (0xBAD, 0xBAD)

/-- 1 + 2^-24 lies half way to the next FP32 number and ties to the even 1; the result is inexact. -/
theorem test_vfadd_tie : (lane0 (.vfadd .f32 3 1 (.reg 2)) (sLane 0x3F800000 0x33800000 0)).1 = 0x3F800000 := by decide +kernel

/-- (1 + 2^-23)^2 - (1 + 2^-22) is exactly 2^-46. -/
theorem test_vfms_exact : (lane0 (.vfms .f32 3 1 (.reg 2)) (sLane 0x3F800001 0x3F800001 0x3F800002)).1 = 0x28800000 := by decide +kernel

/-- The product of the largest number with 2 overflows to infinity. -/
theorem test_vfmul_overflow : (lane0 (.vfmul .f32 3 1 (.reg 2)) (sLane 0x7F7FFFFF 0x40000000 0)).1 = 0x7F800000 := by decide +kernel

/-- A third and the root of 2, rounded to nearest. -/
theorem test_vrcp_vsqrt : (lane0 (.vrcp .f32 3 1) (sLane 0x40400000 0 0)).1 = 0x3EAAAAAB ∧
    (lane0 (.vsqrt .f32 3 1) (sLane 0x40000000 0 0)).1 = 0x3FB504F3 := by decide +kernel

/-- 65,520 is half way between the largest FP16 number and the next power of two, and rounds to infinity. -/
theorem test_vfcvt_overflow : (lane0 (.vfcvt 3 1 .fp16 .fp32 false) (sLane 0x477FF000 0 0)).1 = 0x7C00 := by decide +kernel

/-- −3 × 5 has the high word −1, and 0xFFFFFFFD × 5 the high word 4. -/
theorem test_vmulh : (lane0 (.vmulhSigned .w32 3 1 (.reg 2)) (sLane 0xFFFFFFFD 5 0)).1 = 0xFFFFFFFF ∧
    (lane0 (.vmulhUnsigned .w32 3 1 (.reg 2)) (sLane 0xFFFFFFFD 5 0)).1 = 4 := by decide +kernel

end Sys2Proof.Tests
end

/-!
PROOFS. Writes of bytes, and steps that change memory and buffers alone while no page migrates and no reduction waits (R45, R319).
-/

namespace Sys2Proof.Machine

open Sys2Proof

/-! ## Runs of bytes laid over memory -/

/-- What a run of bytes from an address on gives at an address, if it covers it. -/
def overlay (a : Nat) (bs : List Byte) (k : Nat) : Option Byte := if a ≤ k then bs[k - a]? else none

@[simp] theorem overlay_nil (a k : Nat) : overlay a [] k = none := by simp [overlay]

/-- The head of a run covers its own address, the tail the addresses above. -/
theorem overlay_cons (a : Nat) (b : Byte) (bs : List Byte) (k : Nat) :
    overlay a (b :: bs) k = (overlay (a + 1) bs k).or (if k = a then some b else none) := by
  unfold overlay
  rcases Nat.lt_trichotomy k a with h | rfl | h
  · simp [show ¬a ≤ k by omega, show ¬a + 1 ≤ k by omega, show k ≠ a by omega]
  · simp
  · obtain ⟨j, rfl⟩ : ∃ j, k = a + 1 + j := ⟨k - (a + 1), by omega⟩
    simp [show a + 1 + j - a = j + 1 by omega, show a ≤ a + 1 + j by omega, show a + 1 + j ≠ a by omega]

/-- Inside one line a run is laid as its offsets are. -/
theorem overlay_offset {pa a : Nat} (bs : List Byte) (h : a / 64 = pa / 64) :
    overlay (pa % 64) bs (a % 64) = overlay pa bs a := by
  unfold overlay
  by_cases hle : pa ≤ a
  · rw [if_pos hle, if_pos (by omega), show a % 64 - pa % 64 = a - pa by omega]
  · rw [if_neg hle, if_neg (by omega)]

/-- A run that stays in its line gives nothing in other lines. -/
theorem overlay_other_line {pa a : Nat} {bs : List Byte} (hb : pa % 64 + bs.length ≤ 64) (h : a / 64 ≠ pa / 64) :
    overlay pa bs a = none := by
  unfold overlay
  split
  · exact List.getElem?_eq_none (by omega)
  · rfl

/-- Memory after a consecutive write. -/
theorem read_write_overlay (m : Store 8) (a : Nat) (bs : List Byte) (k : Nat) :
    Store.read (writeBytes m (withAddr a bs)) k = (overlay a bs k).getD (Store.read m k) := by
  induction bs generalizing m a with
  | nil => simp [withAddr, writeBytes]
  | cons b t ih =>
    rw [withAddr, writeBytes, ih, Store.read_write, overlay_cons, Option.getD_or]
    split <;> simp

/-- A map of bytes after a consecutive run is merged into it. -/
theorem find_mergeBytes (m : Map Byte) (a : Nat) (bs : List Byte) (k : Nat) :
    Map.find (mergeBytes m (withAddr a bs)) k = (overlay a bs k).or (Map.find m k) := by
  unfold mergeBytes
  induction bs generalizing m a with
  | nil => simp [withAddr]
  | cons b t ih =>
    rw [withAddr, List.foldl_cons, ih, Map.find_set, overlay_cons, Option.or_assoc]
    split <;> simp

/-- The keys of a map rise when each lies below those after it. -/
theorem rising_iff_pairwise {α : Type} (m : Map α) (b : Nat) :
    Map.rising b m = true ↔ (∀ x ∈ m, b ≤ x.1) ∧ (m.map Prod.fst).Pairwise (· < ·) := by
  induction m generalizing b with
  | nil => simp [Map.rising]
  | cons x t ih =>
    obtain ⟨j, y⟩ := x
    simp only [Map.rising, Bool.and_eq_true, decide_eq_true_eq, ih, List.map_cons, List.pairwise_cons, List.forall_mem_cons,
      List.forall_mem_map]
    constructor
    · rintro ⟨hb, hj, ht⟩
      exact ⟨⟨hb, fun z hz => Nat.le_trans hb (Nat.le_of_succ_le (hj z hz))⟩, hj, ht⟩
    · rintro ⟨⟨hb, -⟩, hj, ht⟩
      exact ⟨hb, hj, ht⟩

theorem length_toBytes (n x : Nat) : (toBytes n x).length = n := by
  induction n generalizing x with
  | zero => rfl
  | succ n ih => simp [toBytes, ih]

/-- The bytes of a number, little-endian. -/
theorem getElem?_toBytes (n x k : Nat) :
    (toBytes n x)[k]? = if k < n then some (BitVec.ofNat 8 (x / 256 ^ k)) else none := by
  induction n generalizing x k with
  | zero => simp [toBytes]
  | succ n ih =>
    cases k with
    | zero => simp [toBytes]
    | succ k =>
      rw [toBytes, List.getElem?_cons_succ, ih, Nat.div_div_eq_div_mul, pow_succ']
      simp

/-! ## Steps that change memory alone -/

/-- The state with other memory, poison and write-combining buffers. -/
def State.withMemory (s : State) (m : Store 8) (p : List Nat) (w : Map (List WcbEntry)) : State :=
  { s with mem := m, poison := p, wcb := w }

/-- A state differs from another in memory and buffers alone, and no further sector is poisoned. -/
def State.MemoryStep (s r : State) : Prop := ∃ m p w, p ⊆ s.poison ∧ r = s.withMemory m p w

namespace State.MemoryStep

variable {s r u : State}

theorem refl (s : State) : s.MemoryStep s := ⟨s.mem, s.poison, s.wcb, List.Subset.refl _, rfl⟩

theorem trans (h : s.MemoryStep r) (h' : r.MemoryStep u) : s.MemoryStep u := by
  obtain ⟨m, p, w, hp, rfl⟩ := h
  obtain ⟨m', p', w', hp', rfl⟩ := h'
  exact ⟨m', p', w', fun _ hk => hp (hp' hk), rfl⟩

theorem owned (h : s.MemoryStep r) (a : Nat) : r.owned a = s.owned a := by
  obtain ⟨m, p, w, -, rfl⟩ := h
  rfl

theorem bankClosed (h : s.MemoryStep r) (a : Nat) : r.bankClosed a = s.bankClosed a := by
  obtain ⟨m, p, w, -, rfl⟩ := h
  rfl

theorem lastDev (h : s.MemoryStep r) (tid p : Nat) : r.lastDev tid p = s.lastDev tid p := by
  obtain ⟨m, p, w, -, rfl⟩ := h
  rfl

theorem heldStores (h : s.MemoryStep r) : r.heldStores = s.heldStores := by
  obtain ⟨m, p, w, -, rfl⟩ := h
  rfl

theorem unpoisoned (h : s.MemoryStep r) {a n : Nat} (hp : s.poisoned a n = false) : r.poisoned a n = false := by
  obtain ⟨m, p, w, hsub, rfl⟩ := h
  simp only [State.poisoned, List.any_eq_false, List.contains_iff_mem] at hp ⊢
  exact fun k hk hm => hp k hk (hsub hm)

end State.MemoryStep

/-- A state in which memory has been written: what `f` gives, and elsewhere what was there; no buffer has changed. -/
structure State.Written (s : State) (f : Nat → Option Byte) (r : State) : Prop where
  step : s.MemoryStep r
  wcb : r.wcb = s.wcb
  byte : ∀ a, r.byte a = (f a).getD (s.byte a)

theorem State.Written.trans {s r u : State} {f g : Nat → Option Byte} (h : s.Written f r) (h' : r.Written g u) :
    s.Written (fun a => (g a).or (f a)) u where
  step := h.step.trans h'.step
  wcb := h'.wcb.trans h.wcb
  byte a := by rw [h'.byte, h.byte, Option.getD_or]

/-! ## With no page migrating and no reduction waiting -/

/-- No page migrates and no reduction waits: an access meets the frame that its address names, as memory holds it. -/
structure State.Still (s : State) : Prop where
  migrations : s.migrations = []
  reductions : s.reductions = []

namespace State.Still

variable {s : State}

theorem step {r : State} (h : s.Still) (hr : s.MemoryStep r) : r.Still := by
  obtain ⟨m, p, w, -, rfl⟩ := hr
  exact ⟨h.migrations, h.reductions⟩

theorem settle (h : s.Still) (a : Nat) : s.settle a = (s, none, a) := by
  simp [State.settle, State.migration?, h.migrations]

theorem reach (h : s.Still) (a n : Nat) : s.reach a n = s := by
  simp [State.reach, h.reductions]

/-- An engine owns all of a 256-byte line or nothing of it. -/
theorem owned_line (h : s.Still) (a : Nat) : s.owned (64 * (a / 64)) = s.owned a := by
  have hw : ∀ b, s.whereNow b = b := fun b => by simp [State.whereNow, State.migration?, h.migrations]
  simp only [State.owned, State.undecided, hw, lineKey, show 64 * (a / 64) / 256 = a / 256 by omega]

/-- A write of a part of a sector, outside the device registers. -/
theorem poke (h : s.Still) {a : Nat} (bs : List Byte) (hd : regionOf a ≠ .device) : s.Written (overlay a bs) (s.poke a bs) := by
  unfold State.poke
  rw [h.reach]
  simp only [hd, if_false]
  split
  · exact ⟨⟨_, _, s.wcb, List.filter_subset_self _, rfl⟩, rfl, read_write_overlay s.mem a bs⟩
  · exact ⟨⟨_, _, s.wcb, List.Subset.refl _, rfl⟩, rfl, read_write_overlay s.mem a bs⟩

end State.Still

end Sys2Proof.Machine

/-!
PROOFS. Write-combining buffers (R53): what a buffer holds for an address, and that a drain writes it where it was read from.
-/

namespace Sys2Proof.Machine

open Sys2Proof

/-! ## A write-combining buffer as a list of entries -/

/-- The byte that a buffer holds for an address, if it does. -/
def buffered (es : List WcbEntry) (a : Nat) : Option Byte :=
  (es.find? fun e => e.line == a / 64).bind fun e => Map.find e.bytes (a % 64)

/-- An entry on a line of memory, each byte of the line once. -/
structure WcbEntry.Ok (e : WcbEntry) : Prop where
  region : regionOf (64 * e.line) ≠ .device
  sorted : (e.bytes.map Prod.fst).Pairwise (· < ·)
  inLine : ∀ x ∈ e.bytes, x.1 < 64

/-- A buffer as its operations leave it, on lines that satisfy a condition: one entry a line. -/
structure BufferOn (P : Nat → Prop) (es : List WcbEntry) : Prop where
  nodup : (es.map WcbEntry.line).Nodup
  ok : ∀ e ∈ es, e.Ok
  lines : ∀ e ∈ es, P e.line

/-- A core reads what its buffer holds before memory. -/
theorem State.coreByte_eq (s : State) (core a : Nat) : s.coreByte core a = (buffered (s.wcbOf core) a).getD (s.byte a) := by
  unfold State.coreByte buffered
  cases (s.wcbOf core).find? fun e => e.line == a / 64 with
  | none => rfl
  | some e => cases h : Map.find e.bytes (a % 64) <;> simp [h]

@[simp] theorem buffered_nil (a : Nat) : buffered [] a = none := rfl

theorem buffered_cons (e : WcbEntry) (es : List WcbEntry) (a : Nat) :
    buffered (e :: es) a = if e.line = a / 64 then Map.find e.bytes (a % 64) else buffered es a := by
  unfold buffered
  by_cases h : e.line = a / 64 <;> simp [h]

/-- A buffer without an entry for a line holds no byte of it. -/
theorem buffered_eq_none {es : List WcbEntry} {a : Nat} (h : ∀ e ∈ es, e.line ≠ a / 64) : buffered es a = none := by
  have : (es.find? fun e => e.line == a / 64) = none := by simpa using h
  simp [buffered, this]

/-- Of a buffer with one entry a line, a part holds what it takes along, and the rest what is left. -/
theorem buffered_filter_or {es : List WcbEntry} (h : (es.map WcbEntry.line).Nodup) (sel : WcbEntry → Bool) (a : Nat) :
    (buffered (es.filter fun e => !sel e) a).or (buffered (es.filter sel) a) = buffered es a := by
  induction es with
  | nil => rfl
  | cons e t ih =>
    obtain ⟨he, ht⟩ := List.nodup_cons.1 h
    have hnone (p : WcbEntry → Bool) (hl : e.line = a / 64) : buffered (t.filter p) a = none :=
      buffered_eq_none fun x hx hxa =>
        he (List.mem_map.2 ⟨x, (List.mem_filter.1 hx).1, hxa.trans hl.symm⟩)
    by_cases hl : e.line = a / 64 <;> cases hs : sel e
    · simp [hs, buffered_cons, hl, hnone _ hl]
    · simp [hs, buffered_cons, hl, hnone _ hl]
    · simpa [hs, buffered_cons, hl] using ih ht
    · simpa [hs, buffered_cons, hl] using ih ht

namespace BufferOn

variable {P : Nat → Prop} {es : List WcbEntry}

theorem filter (h : BufferOn P es) (sel : WcbEntry → Bool) : BufferOn P (es.filter sel) where
  nodup := h.nodup.sublist (List.filter_sublist.map _)
  ok e he := h.ok e (List.mem_filter.1 he).1
  lines e he := h.lines e (List.mem_filter.1 he).1

/-- The entries that a test selects, where only these must keep a condition on their lines. -/
theorem selected {Q : Nat → Prop} (h : BufferOn P es) {sel : WcbEntry → Bool} (hQ : ∀ e ∈ es, sel e = true → Q e.line) :
    BufferOn Q (es.filter sel) where
  nodup := (h.filter sel).nodup
  ok := (h.filter sel).ok
  lines e he := hQ e (List.mem_filter.1 he).1 (List.mem_filter.1 he).2

theorem imp {Q : Nat → Prop} (h : BufferOn P es) (hPQ : ∀ l, P l → Q l) : BufferOn Q es :=
  ⟨h.nodup, h.ok, fun e he => hPQ _ (h.lines e he)⟩

/-- An entry for a line that has none. -/
theorem append (h : BufferOn P es) {e : WcbEntry} (hn : ∀ x ∈ es, x.line ≠ e.line) (ho : e.Ok) (hP : P e.line) :
    BufferOn P (es ++ [e]) where
  nodup := by
    rw [List.map_append, List.nodup_append]
    refine ⟨h.nodup, by simp, ?_⟩
    simpa using hn
  ok x hx := by
    rcases List.mem_append.1 hx with hx | hx
    · exact h.ok x hx
    · rwa [List.mem_singleton.1 hx]
  lines x hx := by
    rcases List.mem_append.1 hx with hx | hx
    · exact h.lines x hx
    · rwa [List.mem_singleton.1 hx]

/-- Entries changed within their lines. -/
theorem map (h : BufferOn P es) {f : WcbEntry → WcbEntry} (hl : ∀ e, (f e).line = e.line) (ho : ∀ e, e.Ok → (f e).Ok) :
    BufferOn P (es.map f) where
  nodup := by
    have : WcbEntry.line ∘ f = WcbEntry.line := funext hl
    rw [List.map_map, this]
    exact h.nodup
  ok := List.forall_mem_map.2 fun e he => ho e (h.ok e he)
  lines := List.forall_mem_map.2 fun e he => by
    rw [hl]
    exact h.lines e he

end BufferOn

/-- Bytes of the line merged into an entry leave it in its form. -/
theorem mergeBytes_ok {m : Map Byte} {bs : List (Nat × Byte)} (hs : (m.map Prod.fst).Pairwise (· < ·))
    (hm : ∀ x ∈ m, x.1 < 64) (hb : ∀ x ∈ bs, x.1 < 64) :
    ((mergeBytes m bs).map Prod.fst).Pairwise (· < ·) ∧ ∀ x ∈ mergeBytes m bs, x.1 < 64 := by
  unfold mergeBytes
  induction bs generalizing m with
  | nil => exact ⟨hs, hm⟩
  | cons b t ih =>
    have hrise : Map.rising 0 m = true := (rising_iff_pairwise m 0).2 ⟨fun _ _ => Nat.zero_le _, hs⟩
    have hall : m.all (fun x => decide (x.1 < 64)) = true := by simpa using hm
    have hset := Store.all_set b.1 b.2 hall (by simpa using hb b (List.mem_cons_self ..))
    refine ih ((rising_iff_pairwise _ 0).1 (Map.rising_set b.2 (Nat.zero_le _) hrise)).2 ?_
      fun x hx => hb x (List.mem_cons_of_mem _ hx)
    simpa only [List.all_eq_true, decide_eq_true_eq] using hset

/-! ## Drains -/

/-- What drains to a line that no engine owns, with nothing held at the directory, is written. -/
theorem State.drainEntry_of_free {s : State} (hheld : s.heldStores = []) (core : Nat) {e : WcbEntry}
    (ho : s.owned (64 * e.line) = false) : s.drainEntry core e = s.pokeLine e.line e.bytes := by
  simp only [State.owned, Bool.or_eq_false_iff, List.any_eq_false, Bool.not_eq_true] at ho
  obtain ⟨hown, hund⟩ := ho
  have hnone : s.lineOwners (64 * e.line) = [] := by
    simp only [State.lineOwners, List.map_eq_nil_iff, List.filter_eq_nil_iff, Bool.not_eq_true]
    exact hown
  simp [State.drainEntry, hnone, hund, hheld]

theorem find_eq_none {m : Map Byte} {k : Nat} (h : ∀ x ∈ m, x.1 ≠ k) : Map.find m k = none := by
  induction m with
  | nil => rfl
  | cons x t ih =>
    obtain ⟨hx, ht⟩ := List.forall_mem_cons.1 h
    simp [Map.find, hx, ih ht]

/-- What memory holds after the bytes of an entry are written to its line. -/
theorem WcbEntry.Ok.read_written {e : WcbEntry} (he : e.Ok) (m : Store 8) (a : Nat) :
    Store.read (writeBytes m (e.bytes.map fun x => (64 * e.line + x.1, x.2))) a = (buffered [e] a).getD (Store.read m a) := by
  obtain ⟨line, bs, owners, last⟩ := e
  obtain ⟨-, hs, hl⟩ := he
  simp only [buffered_cons, buffered_nil] at hs hl ⊢
  induction bs generalizing m with
  | nil => simp [writeBytes]
  | cons x t ih =>
    obtain ⟨k, b⟩ := x
    obtain ⟨hk, ht⟩ := List.pairwise_cons.1 hs
    have hk64 : k < 64 := hl (k, b) (List.mem_cons_self ..)
    rw [List.map_cons, writeBytes, ih _ ht fun y hy => hl y (List.mem_cons_of_mem _ hy), Store.read_write]
    by_cases hline : line = a / 64
    · by_cases hak : k = a % 64
      · have hnone : Map.find t (a % 64) = none := find_eq_none fun y hy => by
          have := hk y.1 (List.mem_map_of_mem hy)
          omega
        rw [if_pos hline, if_pos hline, hnone, if_pos (by omega)]
        simp [Map.find, hak]
      · rw [if_pos hline, if_pos hline, if_neg (by omega)]
        simp [Map.find, hak]
    · rw [if_neg hline, if_neg hline, if_neg (by omega)]

/-- An entry's line is written. -/
theorem State.Still.pokeLine {s : State} (h : s.Still) {e : WcbEntry} (he : e.Ok) :
    s.Written (buffered [e]) (s.pokeLine e.line e.bytes) := by
  unfold State.pokeLine
  rw [h.settle]
  simp only [h.reach, he.region, if_false]
  split
  · exact ⟨⟨_, _, s.wcb, List.filter_subset_self _, rfl⟩, rfl, he.read_written s.mem⟩
  · exact ⟨⟨_, _, s.wcb, List.Subset.refl _, rfl⟩, rfl, he.read_written s.mem⟩

/-- Entries that drain one after another write their bytes. -/
theorem State.written_drainEntries {s : State} (h : s.Still) (hheld : s.heldStores = []) (core : Nat) {es : List WcbEntry}
    (hes : BufferOn (fun l => s.owned (64 * l) = false) es) :
    s.Written (buffered es) (es.foldl (fun s e => s.drainEntry core e) s) := by
  induction es generalizing s with
  | nil => exact ⟨.refl s, rfl, fun _ => rfl⟩
  | cons e t ih =>
    obtain ⟨hnot, hnod⟩ := List.nodup_cons.1 hes.nodup
    obtain ⟨heok, htok⟩ := List.forall_mem_cons.1 hes.ok
    obtain ⟨heo, hto⟩ := List.forall_mem_cons.1 hes.lines
    have hw := h.pokeLine heok
    have hrest := ih (h.step hw.step) (hw.step.heldStores.trans hheld)
      ⟨hnod, htok, fun x hx => (hw.step.owned _).trans (hto x hx)⟩
    have hsum : buffered (e :: t) = fun a => (buffered t a).or (buffered [e] a) := by
      funext a
      by_cases hl : e.line = a / 64
      · have hnone : buffered t a = none := buffered_eq_none fun x hx hxa =>
          hnot (List.mem_map.2 ⟨x, hx, hxa.trans hl.symm⟩)
        simp [buffered_cons, hl, hnone]
      · simp [buffered_cons, hl]
    rw [List.foldl_cons, State.drainEntry_of_free hheld core heo, hsum]
    exact hw.trans hrest

/-! ## Buffers of a state -/

theorem State.wcbOf_setWcb (s : State) (core : Nat) (es : List WcbEntry) : (s.setWcb core es).wcbOf core = es := by
  unfold State.setWcb State.wcbOf
  cases es <;> simp [Map.find_drop]

theorem State.memoryStep_setWcb (s : State) (core : Nat) (es : List WcbEntry) : s.MemoryStep (s.setWcb core es) :=
  ⟨s.mem, s.poison, _, List.Subset.refl _, rfl⟩

/-- What a core reads with another buffer. -/
theorem State.coreByte_setWcb (s : State) (core : Nat) (es : List WcbEntry) (a : Nat) :
    (s.setWcb core es).coreByte core a = (buffered es a).getD (s.byte a) := by
  rw [State.coreByte_eq, State.wcbOf_setWcb]
  rfl

/-- What a drain of a core's buffer leaves: the entries not selected, and every byte as the core read it before. -/
structure State.Drained (s : State) (core : Nat) (sel : WcbEntry → Bool) (r : State) : Prop where
  step : s.MemoryStep r
  left : r.wcbOf core = (s.wcbOf core).filter fun e => !sel e
  same : ∀ a, r.coreByte core a = s.coreByte core a

/-- A drain to lines that no engine owns writes the selected entries, so that the core reads what it read before. -/
theorem State.drained_drain {s : State} (h : s.Still) (hheld : s.heldStores = []) {core : Nat} {P : Nat → Prop}
    (hes : BufferOn P (s.wcbOf core)) {sel : WcbEntry → Bool}
    (hsel : ∀ e ∈ s.wcbOf core, sel e = true → s.owned (64 * e.line) = false) : s.Drained core sel (s.drain core sel) := by
  unfold State.drain
  by_cases hany : (s.wcbOf core).any sel = true
  · have hstep := s.memoryStep_setWcb core ((s.wcbOf core).filter fun e => !sel e)
    have hw := State.written_drainEntries (h.step hstep) (hstep.heldStores.trans hheld) core
      ((hes.selected hsel).imp fun l hl => (hstep.owned _).trans hl)
    have hleft : State.wcbOf _ core = (s.wcbOf core).filter fun e => !sel e :=
      (congrArg (fun w => (Map.find w core).getD []) hw.wcb).trans (s.wcbOf_setWcb core _)
    simp only [hany, if_true]
    refine ⟨hstep.trans hw.step, hleft, fun a => ?_⟩
    rw [State.coreByte_eq, hleft, hw.byte, ← Option.getD_or, buffered_filter_or hes.nodup, State.coreByte_eq]
    rfl
  · simp only [hany]
    have hkeep : ((s.wcbOf core).filter fun e => !sel e) = s.wcbOf core := by
      simpa [List.filter_eq_self] using hany
    exact ⟨.refl s, hkeep.symm, fun _ => rfl⟩

end Sys2Proof.Machine

/-!
PROOFS. Stores (R188): what a core reads after a store has entered its buffer or gone past it, and after an instruction's lanes.
-/

namespace Sys2Proof.Machine

open Sys2Proof

/-! ## Stores -/

/-- What a store leaves of the core's view: the bytes that `f` gives, and elsewhere what the core read before; the buffer stays on
lines that no engine owns. -/
structure State.Stored (s : State) (core : Nat) (f : Nat → Option Byte) (r : State) : Prop where
  step : s.MemoryStep r
  buffer : BufferOn (fun l => s.owned (64 * l) = false) (r.wcbOf core)
  read : ∀ a, r.coreByte core a = (f a).getD (s.coreByte core a)

/-- Stores of a party reach its core's view at once: nothing is held, no line of the buffer is owned, and no DEV write to a peer is
open. -/
structure State.StoresReady (s : State) (core tid p : Nat) : Prop where
  still : s.Still
  held : s.heldStores = []
  dev : s.lastDev tid p = none
  buffer : BufferOn (fun l => s.owned (64 * l) = false) (s.wcbOf core)

namespace State.Stored

variable {s r u : State} {core : Nat} {f g : Nat → Option Byte}

theorem trans (h : s.Stored core f r) (h' : r.Stored core g u) : s.Stored core (fun a => (g a).or (f a)) u where
  step := h.step.trans h'.step
  buffer := h'.buffer.imp fun _ hl => (h.step.owned _).symm.trans hl
  read a := by rw [h'.read, h.read, Option.getD_or]

theorem ready {tid p : Nat} (h : s.Stored core f r) (hs : s.StoresReady core tid p) : r.StoresReady core tid p where
  still := hs.still.step h.step
  held := h.step.heldStores.trans hs.held
  dev := (h.step.lastDev tid p).trans hs.dev
  buffer := h.buffer.imp fun _ hl => (h.step.owned _).trans hl

/-- The buffer replaced by one that holds more. -/
theorem setWcb {es : List WcbEntry} (hes : BufferOn (fun l => s.owned (64 * l) = false) es)
    (hf : ∀ a, buffered es a = (f a).or (buffered (s.wcbOf core) a)) : s.Stored core f (s.setWcb core es) where
  step := s.memoryStep_setWcb core es
  buffer := by rwa [State.wcbOf_setWcb]
  read a := by rw [State.coreByte_setWcb, hf, Option.getD_or, State.coreByte_eq]

end State.Stored

namespace State.StoresReady

variable {s : State} {core tid p : Nat}

theorem drained (h : s.StoresReady core tid p) (sel : WcbEntry → Bool) : s.Drained core sel (s.drain core sel) :=
  State.drained_drain h.still h.held h.buffer fun e he _ => h.buffer.lines e he

/-- A drain leaves the core's view. -/
theorem drain (h : s.StoresReady core tid p) (sel : WcbEntry → Bool) : s.Stored core (fun _ => none) (s.drain core sel) where
  step := (h.drained sel).step
  buffer := by
    rw [(h.drained sel).left]
    exact h.buffer.filter _
  read := (h.drained sel).same

end State.StoresReady

/-- An entry into which the bytes of a store are merged, if it is the entry of the store's line. -/
def WcbEntry.merged (owner : Nat × Nat) (clk pa : Nat) (bs : List Byte) (e : WcbEntry) : WcbEntry :=
  if e.line = pa / 64 then
    { e with bytes := mergeBytes e.bytes (withAddr (pa % 64) bs), last := clk
             owners := if e.owners.contains owner then e.owners else owner :: e.owners }
  else e

/-- The entry that a store to another line begins. -/
def WcbEntry.begun (owner : Nat × Nat) (clk pa : Nat) (bs : List Byte) : WcbEntry :=
  { line := pa / 64, bytes := mergeBytes [] (withAddr (pa % 64) bs), owners := [owner], last := clk }

section
variable {owner : Nat × Nat} {clk pa : Nat} {bs : List Byte}

theorem WcbEntry.merged_line (e : WcbEntry) : (e.merged owner clk pa bs).line = e.line := by
  unfold WcbEntry.merged
  split <;> rfl

theorem WcbEntry.merged_bytes (e : WcbEntry) : (e.merged owner clk pa bs).bytes =
    if e.line = pa / 64 then mergeBytes e.bytes (withAddr (pa % 64) bs) else e.bytes := by
  unfold WcbEntry.merged
  split <;> rfl

/-- Offsets of a run that stays in its line. -/
theorem offset_lt (hb : pa % 64 + bs.length ≤ 64) : ∀ x ∈ withAddr (pa % 64) bs, x.1 < 64 := fun x hx => by
  have := mem_withAddr hx
  omega

theorem WcbEntry.Ok.merged (hb : pa % 64 + bs.length ≤ 64) {e : WcbEntry} (he : e.Ok) : (e.merged owner clk pa bs).Ok := by
  unfold WcbEntry.merged
  split
  · obtain ⟨hs, hl⟩ := mergeBytes_ok he.sorted he.inLine (offset_lt hb)
    exact ⟨he.region, hs, hl⟩
  · exact he

theorem WcbEntry.begun_ok (hb : pa % 64 + bs.length ≤ 64) (hd : regionOf (64 * (pa / 64)) ≠ .device) :
    (WcbEntry.begun owner clk pa bs).Ok := by
  obtain ⟨hs, hl⟩ := mergeBytes_ok (m := []) .nil (by simp) (offset_lt hb)
  exact ⟨hd, hs, hl⟩

/-- A buffer with an entry for the line holds, after a store merged into it, the store's bytes before its own. -/
theorem buffered_merged (hb : pa % 64 + bs.length ≤ 64) {es : List WcbEntry} {a : Nat}
    (h : a / 64 = pa / 64 → ∃ e ∈ es, e.line = a / 64) :
    buffered (es.map (WcbEntry.merged owner clk pa bs)) a = (overlay pa bs a).or (buffered es a) := by
  by_cases ha : a / 64 = pa / 64
  · replace h := h ha
    induction es with
    | nil => simp at h
    | cons e t ih =>
      rw [List.map_cons, buffered_cons, buffered_cons, WcbEntry.merged_line, WcbEntry.merged_bytes]
      by_cases he : e.line = a / 64
      · rw [if_pos he, if_pos (he.trans ha), if_pos he, find_mergeBytes, overlay_offset _ ha]
      · rw [if_neg he, if_neg he]
        exact ih (by simpa [he] using h)
  · rw [overlay_other_line hb ha]
    clear h
    induction es with
    | nil => rfl
    | cons e t ih =>
      rw [List.map_cons, buffered_cons, buffered_cons, WcbEntry.merged_line, WcbEntry.merged_bytes, ih]
      by_cases he : e.line = a / 64
      · simp [he, ha]
      · simp [he]

/-- A buffer without an entry for the line holds the store's bytes in the entry that it begins. -/
theorem buffered_begun (hb : pa % 64 + bs.length ≤ 64) {es : List WcbEntry} (h : ∀ e ∈ es, e.line ≠ pa / 64) (a : Nat) :
    buffered (es ++ [WcbEntry.begun owner clk pa bs]) a = (overlay pa bs a).or (buffered es a) := by
  have hlast : buffered [WcbEntry.begun owner clk pa bs] a = overlay pa bs a := by
    by_cases ha : a / 64 = pa / 64
    · simp [buffered_cons, WcbEntry.begun, ha, find_mergeBytes, overlay_offset _ ha]
    · simp [buffered_cons, WcbEntry.begun, Ne.symm ha, overlay_other_line hb ha]
  have hline (e : WcbEntry) (he : e ∈ es) (hea : e.line = a / 64) : overlay pa bs a = none :=
    overlay_other_line hb fun ha => h e he (hea.trans ha)
  rw [← hlast] at hline ⊢
  clear h hlast
  induction es with
  | nil => simp
  | cons e t ih =>
    rw [List.cons_append, buffered_cons, buffered_cons e t, ih fun x hx => hline x (List.mem_cons_of_mem _ hx)]
    by_cases he : e.line = a / 64
    · simp [he, hline e (List.mem_cons_self ..) he]
    · simp [he]

end

/-- A store into an entry of its core's buffer. -/
theorem State.wcbStore_of_any {s : State} {core pa : Nat} (owner : Nat × Nat) (bs : List Byte)
    (h : ((s.wcbOf core).any fun e => e.line == pa / 64) = true) :
    s.wcbStore core owner pa bs =
      (s.setWcb core ((s.wcbOf core).map (WcbEntry.merged owner s.clk.toNat pa bs))).drain core
        fun e => e.line == pa / 64 && decide (64 ≤ e.bytes.length) := by
  unfold State.wcbStore
  simp only [h, if_true]
  rfl

/-- Room in a core's buffer for one entry more: the oldest drains from a full one. -/
def State.wcbRoom (s : State) (core : Nat) : State :=
  if 32 ≤ (s.wcbOf core).length then s.drain core fun e => some e.line == (s.wcbOf core).head?.map WcbEntry.line else s

/-- A store that begins an entry. -/
theorem State.wcbStore_of_not_any {s : State} {core pa : Nat} (owner : Nat × Nat) (bs : List Byte)
    (h : ((s.wcbOf core).any fun e => e.line == pa / 64) = false) :
    s.wcbStore core owner pa bs =
      ((s.wcbRoom core).setWcb core ((s.wcbRoom core).wcbOf core ++ [WcbEntry.begun owner s.clk.toNat pa bs])).drain core
        fun e => e.line == pa / 64 && decide (64 ≤ e.bytes.length) := by
  unfold State.wcbStore
  simp only [h]
  rfl

/-- A line and the addresses in it are device registers together. -/
theorem regionOf_line {pa : Nat} (h : regionOf pa ≠ .device) : regionOf (64 * (pa / 64)) ≠ .device := by
  intro hd
  apply h
  have hr : 0x4000000000000 ≤ 64 * (pa / 64) ∧ 64 * (pa / 64) < 0x4000100000000 := by
    unfold regionOf at hd
    split_ifs at hd
    assumption
  unfold regionOf
  rw [if_neg (by omega), if_neg (by omega), if_pos (by omega)]

namespace State.StoresReady

variable {s : State} {core tid p : Nat}

/-- Making room leaves the core's view. -/
theorem wcbRoom (h : s.StoresReady core tid p) : s.Stored core (fun _ => none) (s.wcbRoom core) := by
  unfold State.wcbRoom
  split
  · exact h.drain _
  · exact ⟨.refl s, h.buffer, fun _ => rfl⟩

/-- Making room begins no entry. -/
theorem mem_of_mem_wcbRoom (h : s.StoresReady core tid p) {e : WcbEntry} (he : e ∈ (s.wcbRoom core).wcbOf core) :
    e ∈ s.wcbOf core := by
  unfold State.wcbRoom at he
  split at he
  · rw [(h.drained _).left] at he
    exact (List.mem_filter.1 he).1
  · exact he

/-- A store that enters the buffer is what the core reads from then on (R53). -/
theorem wcbStore (h : s.StoresReady core tid p) (owner : Nat × Nat) {pa : Nat} {bs : List Byte}
    (hb : pa % 64 + bs.length ≤ 64) (hd : regionOf pa ≠ .device) (ho : s.owned pa = false) :
    s.Stored core (overlay pa bs) (s.wcbStore core owner pa bs) := by
  have hline : s.owned (64 * (pa / 64)) = false := (h.still.owned_line pa).trans ho
  cases hany : (s.wcbOf core).any fun e => e.line == pa / 64 with
  | true =>
    obtain ⟨e, he, hel⟩ : ∃ e ∈ s.wcbOf core, e.line = pa / 64 := by simpa using hany
    have hset : s.Stored core (overlay pa bs)
        (s.setWcb core ((s.wcbOf core).map (WcbEntry.merged owner s.clk.toNat pa bs))) :=
      .setWcb (h.buffer.map WcbEntry.merged_line fun _ => .merged hb) fun a =>
        buffered_merged hb fun ha => ⟨e, he, hel.trans ha.symm⟩
    rw [State.wcbStore_of_any _ _ hany]
    exact hset.trans ((hset.ready h).drain _)
  | false =>
    have hnone : ∀ e ∈ s.wcbOf core, e.line ≠ pa / 64 := by simpa using hany
    have hroom := h.wcbRoom
    have hready := hroom.ready h
    have hleft : ∀ e ∈ (s.wcbRoom core).wcbOf core, e.line ≠ pa / 64 := fun e he => hnone e (h.mem_of_mem_wcbRoom he)
    have hset : (s.wcbRoom core).Stored core (overlay pa bs) ((s.wcbRoom core).setWcb core
        ((s.wcbRoom core).wcbOf core ++ [WcbEntry.begun owner s.clk.toNat pa bs])) :=
      .setWcb (hready.buffer.append hleft (WcbEntry.begun_ok hb (regionOf_line hd)) ((hroom.step.owned _).trans hline))
        (buffered_begun hb hleft)
    rw [State.wcbStore_of_not_any _ _ hany]
    simpa using (hroom.trans hset).trans ((hset.ready hready).drain _)

/-- A store past the buffer, to which the line's entry has drained, is what the core reads from then on (R53). -/
theorem poke (h : s.StoresReady core tid p) {pa : Nat} {bs : List Byte} (hb : pa % 64 + bs.length ≤ 64)
    (hd : regionOf pa ≠ .device) :
    s.Stored core (overlay pa bs) ((s.drain core fun e => e.line == pa / 64).poke pa bs) := by
  have hdr := h.drained fun e => e.line == pa / 64
  have hw := (h.still.step hdr.step).poke bs hd
  have hwcb := congrArg (fun w => (Map.find w core).getD []) hw.wcb
  refine ⟨hdr.step.trans hw.step, ?_, fun a => ?_⟩
  · rw [show State.wcbOf _ core = _ from hwcb.trans hdr.left]
    exact h.buffer.filter _
  · rw [← hdr.same a, State.coreByte_eq, show State.wcbOf _ core = _ from hwcb.trans hdr.left, hw.byte, State.coreByte_eq,
      hdr.left]
    by_cases ha : a / 64 = pa / 64
    · rw [buffered_eq_none fun e he => by simpa [ha] using (List.mem_filter.1 he).2]
      rfl
    · rw [overlay_other_line hb ha]
      rfl

end State.StoresReady

/-! ## An instruction's stores (R188) -/

/-- A lane's store to memory of this device, on a line that no engine owns. -/
structure State.OwnLane (s : State) (n : Nat) (x : Target × Nat × Nat) : Prop where
  peer : x.1.peer = none
  aligned : x.1.pa % n = 0
  region : regionOf x.1.pa ≠ .device
  unowned : s.owned x.1.pa = false

/-- The bytes that a lane stores. -/
def laneBytes (n : Nat) (x : Target × Nat × Nat) : Nat → Option Byte := overlay x.1.pa (toBytes n x.2.2)

/-- An aligned run of one of the widths stays in its line. -/
theorem aligned_in_line {n pa : Nat} (hn : n ∈ [1, 2, 4, 8]) (h : pa % n = 0) : pa % 64 + n ≤ 64 := by
  simp only [List.mem_cons, List.not_mem_nil, or_false] at hn
  rcases hn with rfl | rfl | rfl | rfl <;> omega

/-- What a lane stores is what the statement says of it. -/
theorem laneBytes_eq (n : Nat) (x : Target × Nat × Nat) (a : Nat) :
    laneBytes n x a = if x.1.pa ≤ a ∧ a < x.1.pa + n then some (BitVec.ofNat 8 (x.2.2 / 256 ^ (a - x.1.pa))) else none := by
  unfold laneBytes overlay
  rw [getElem?_toBytes]
  by_cases h : x.1.pa ≤ a
  · simp [h, show a - x.1.pa < n ↔ a < x.1.pa + n by omega]
  · simp [h]

/-- Choosing the last that gives something, from a first choice on. -/
theorem foldl_or {α β : Type} (f : β → Option α) (ls : List β) (r : Option α) :
    ls.foldl (fun r x => (f x).or r) r = (ls.foldl (fun r x => (f x).or r) none).or r := by
  induction ls generalizing r with
  | nil => rfl
  | cons x t ih =>
    rw [List.foldl_cons, List.foldl_cons, ih, ih ((f x).or none), Option.or_assoc, Option.or_none]

theorem lastStored_eq (n : Nat) (ls : List (Target × Nat × Nat)) (a : Nat) :
    lastStored n ls a = ls.foldl (fun r x => (laneBytes n x a).or r) none := by
  unfold lastStored
  congr
  funext r x
  rw [laneBytes_eq]
  split <;> rfl

/-- The last lane that covers an address wins. -/
theorem lastStored_cons (n : Nat) (x : Target × Nat × Nat) (ls : List (Target × Nat × Nat)) (a : Nat) :
    lastStored n (x :: ls) a = (lastStored n ls a).or (laneBytes n x a) := by
  rw [lastStored_eq, lastStored_eq, List.foldl_cons, foldl_or, Option.or_none]

/-- The store of a lane to memory of this device, with no DEV write to a peer open: to the buffer, or past it (R53). -/
def State.storeOwn (s : State) (core tid p n : Nat) (x : Target × Nat × Nat) : State :=
  if 2 ≤ x.1.mt ∨ regionOf x.1.pa = .device then
    (s.drain core fun e => e.line == x.1.pa / 64).poke x.1.pa (toBytes n x.2.2)
  else s.wcbStore core (tid, p) x.1.pa (toBytes n x.2.2)

namespace State.StoresReady

variable {s : State} {core tid p : Nat}

/-- One lane's store is what the core reads from then on. -/
theorem storeOwn (h : s.StoresReady core tid p) {n : Nat} (hn : n ∈ [1, 2, 4, 8]) {x : Target × Nat × Nat} (hx : s.OwnLane n x) :
    s.Stored core (laneBytes n x) (s.storeOwn core tid p n x) := by
  have hb : x.1.pa % 64 + (toBytes n x.2.2).length ≤ 64 := by
    rw [length_toBytes]
    exact aligned_in_line hn hx.aligned
  unfold State.storeOwn
  split
  · exact h.poke hb hx.region
  · exact h.wcbStore _ hb hx.region hx.unowned

/-- A lane's store, then the stores of the lanes after it. -/
theorem storeEach_cons (h : s.StoresReady core tid p) (since : Nat) (o : Origin) {n : Nat} {x : Target × Nat × Nat}
    (hx : x.1.peer = none) (ls : List (Target × Nat × Nat)) :
    s.storeEach since core tid p o n (x :: ls) = (s.storeOwn core tid p n x).storeEach since core tid p o n ls := by
  obtain ⟨g, va, v⟩ := x
  rw [State.storeEach, show g.peer = none from hx]
  simp only [h.still.settle, h.dev, Option.isSome_none, Bool.false_eq_true, and_false, if_false]
  rfl

/-- An instruction's lanes stored in order. -/
theorem storeEach (h : s.StoresReady core tid p) (since : Nat) (o : Origin) {n : Nat} (hn : n ∈ [1, 2, 4, 8])
    {ls : List (Target × Nat × Nat)} (hls : ∀ x ∈ ls, s.OwnLane n x) :
    s.Stored core (lastStored n ls) (s.storeEach since core tid p o n ls) := by
  induction ls generalizing s with
  | nil => exact ⟨.refl s, h.buffer, fun _ => rfl⟩
  | cons x t ih =>
    obtain ⟨hx, ht⟩ := List.forall_mem_cons.1 hls
    have hlane := h.storeOwn hn hx
    have hrest := ih (hlane.ready h) fun y hy =>
      ⟨(ht y hy).peer, (ht y hy).aligned, (ht y hy).region, (hlane.step.owned _).trans (ht y hy).unowned⟩
    rw [h.storeEach_cons since o hx.peer, show lastStored n (x :: t) = _ from funext (lastStored_cons n x t)]
    exact hlane.trans hrest

/-- The sectors that an instruction covers whole lose their poison, and no byte changes by it. -/
theorem coreByte_storeLanes (h : s.StoresReady core tid p) (since : Nat) (o : Origin) {n : Nat} (hn : n ∈ [1, 2, 4, 8])
    {ls : List (Target × Nat × Nat)} (hls : ∀ x ∈ ls, s.OwnLane n x) (a : Nat) :
    (s.storeLanes core tid p o n ls since).coreByte core a = (lastStored n ls a).getD (s.coreByte core a) := by
  have hst := h.storeEach since o hn hls
  rw [← hst.read a]
  unfold State.storeLanes
  dsimp only
  split
  · rfl
  · refine (List.foldlRecOn (coveredSectors n ls) _
      (motive := fun r : State => r.Still ∧ r.coreByte core a = (s.storeEach since core tid p o n ls).coreByte core a)
      ⟨h.still.step hst.step, rfl⟩ fun r hr k _ => ?_).2
    rw [hr.1.settle]
    exact ⟨⟨hr.1.migrations, hr.1.reductions⟩, hr.2⟩

end State.StoresReady

/-- The buffer that the statements speak of, its lines unowned. -/
theorem bufferOn_of_bufferOk {s : State} {core : Nat} {P : Nat → Prop} (h : BufferOk s core)
    (hP : ∀ e ∈ s.wcbOf core, P e.line) : BufferOn P (s.wcbOf core) := by
  obtain ⟨hnod, hes⟩ := h
  refine ⟨hnod, fun e he => ?_, hP⟩
  obtain ⟨hr, hs, hl⟩ := hes e he
  exact ⟨hr, hs, hl⟩

/-- Settles O34, by induction on the lanes: each lane's store is laid over what the core read before it. -/
theorem storesWriteBytes : Obligations.StoresWriteBytes := by
  intro s core tid p o n ls hmig hred hn hbuf hheld hdev hfree hls a
  have hready : s.StoresReady core tid p := ⟨⟨hmig, hred⟩, hheld, hdev, bufferOn_of_bufferOk hbuf hfree⟩
  refine hready.coreByte_storeLanes _ o hn (fun x hx => ?_) a
  obtain ⟨hpeer, halign, hregion, howned⟩ := hls x hx
  exact ⟨hpeer, halign, hregion, howned⟩

end Sys2Proof.Machine

/-!
PROOFS. Loads (R184): what the lanes of a load read when its data returns.
-/

namespace Sys2Proof.Machine

open Sys2Proof

/-! ## Loads -/

/-- A load of a core finds memory still and, if it is strong, nothing held at the directory. -/
structure State.LoadReady (s : State) (core : Nat) (strong : Bool) : Prop where
  still : s.Still
  held : strong = true → s.heldStores = []
  buffer : BufferOn (fun _ => True) (s.wcbOf core)

/-- The line of an address, which a strong load drains from its core's buffer. -/
def State.drainFor (s : State) (core : Nat) (strong : Bool) (a : Nat) : State :=
  if strong then s.drain core fun e => e.line == a / 64 else s

/-- The address that a lane reads. -/
def LaneAcc.pa (x : LaneAcc) : Nat := (x.tgt.map Target.pa).getD 0

/-- A lane with the value that its core sees. -/
def LaneAcc.read (s : State) (core n : Nat) (x : LaneAcc) : LaneAcc := { x with val := some (x.coreValue s core n) }

/-- States in which a core reads the same bytes give it the same numbers. -/
theorem State.coreBytes_congr {s r : State} {core : Nat} (h : ∀ a, r.coreByte core a = s.coreByte core a) (a n : Nat) :
    r.coreBytes core a n = s.coreBytes core a n := by
  induction n generalizing a with
  | zero => rfl
  | succ n ih => rw [State.coreBytes, State.coreBytes, h, ih]

theorem LaneAcc.read_congr {s r : State} {core : Nat} (h : ∀ a, r.coreByte core a = s.coreByte core a) (n : Nat) :
    LaneAcc.read r core n = LaneAcc.read s core n := by
  funext x
  simp only [LaneAcc.read, LaneAcc.coreValue, State.coreBytes_congr h]

namespace State.LoadReady

variable {s : State} {core : Nat} {strong : Bool}

/-- Draining a line that no engine owns leaves what the core reads. -/
theorem drainFor (h : s.LoadReady core strong) {a : Nat} (ho : s.owned a = false) :
    (s.drainFor core strong a).LoadReady core strong ∧ s.MemoryStep (s.drainFor core strong a) ∧
      ∀ b, (s.drainFor core strong a).coreByte core b = s.coreByte core b := by
  unfold State.drainFor
  cases strong with
  | false => exact ⟨h, .refl s, fun _ => rfl⟩
  | true =>
    have hd := State.drained_drain h.still (h.held rfl) h.buffer (sel := fun e => e.line == a / 64) fun e _ he => by
      rw [eq_of_beq he, h.still.owned_line, ho]
    refine ⟨⟨h.still.step hd.step, fun _ => hd.step.heldStores.trans (h.held rfl), ?_⟩, hd.step, hd.same⟩
    rw [if_pos rfl, hd.left]
    exact h.buffer.filter _

/-- A read of memory of this device finds what the core sees (R53, R54). -/
theorem readTarget (h : s.LoadReady core strong) {g : Target} {n : Nat} (lane : Nat) (hpeer : g.peer = none)
    (ho : s.owned g.pa = false) (hb : s.bankClosed g.pa = false) (hr : regionOf g.pa ≠ .device)
    (hp : s.poisoned g.pa n = false) :
    s.readTarget core strong g lane n = (s.drainFor core strong g.pa, .value (s.coreBytes core g.pa n) false) := by
  obtain ⟨hready, hstep, hsame⟩ := h.drainFor ho
  unfold State.drainFor at hready hstep hsame ⊢
  unfold State.readTarget
  rw [hpeer]
  simp only [ho, h.still.settle, hready.still.reach, hstep.bankClosed, hb, hr, hstep.unpoisoned hp, State.coreBytes_congr hsame]
  simp

end State.LoadReady

/-- A lane waits for lower DEV lanes, of which none is left when all lower lanes have been performed. -/
theorem devBelow_of_performed {done rest : List LaneAcc} {x : LaneAcc} (h : ∀ y ∈ done, y.val.isSome = true) :
    devBelow ((done ++ x :: rest).takeWhile fun y => y.lane != x.lane) x = false := by
  have hlow : ∀ y ∈ (done ++ x :: rest).takeWhile fun y => y.lane != x.lane, y ∈ done := by
    intro y hy
    rw [List.takeWhile_append] at hy
    split at hy
    · simpa using hy
    · exact (List.takeWhile_sublist _).subset hy
  unfold devBelow
  rw [Bool.and_eq_false_iff, List.any_eq_false]
  refine .inr fun y hy => ?_
  simp [Option.isSome_iff_ne_none.1 (h y (hlow y hy))]

/-- One lane of a load is performed when the lanes before it have been. -/
theorem State.LoadReady.performLane {s : State} {core : Nat} {a : Access} {strong : Bool}
    (hstrong : ((a.kind.form.eff (some a.ord)).str != .wk) = strong) (h : s.LoadReady core strong)
    (hk : a.kind ≠ .vsts ∧ a.kind ≠ .cvld) {done rest : List LaneAcc} {x : LaneAcc} (hdone : ∀ y ∈ done, y.val.isSome = true)
    (hx : ReadableLanes s (Size.bytes a.size) [x]) (since tid p : Nat) :
    s.performLane since core tid p { a with lanes := done ++ x :: rest } x =
      (s.drainFor core strong x.pa, x.read s core (Size.bytes a.size)) := by
  obtain ⟨hfail, hval, g, hg, hpeer, -, ho, hb, hr, hp⟩ := hx x (List.mem_singleton_self x)
  unfold State.performLane
  simp only [hg, hval, hfail, devBelow_of_performed hdone, hk.1, hk.2, hstrong, if_false, Bool.false_eq_true,
    h.readTarget x.lane hpeer ho hb hr hp]
  simp [LaneAcc.read, LaneAcc.coreValue, LaneAcc.pa, hg, hfail]

/-- The lanes of a load, performed in order: each drains its line, if the load is strong, and reads what the core saw at first. -/
theorem State.LoadReady.performLanes {s : State} {core : Nat} {a : Access} {strong : Bool}
    (hstrong : ((a.kind.form.eff (some a.ord)).str != .wk) = strong) (h : s.LoadReady core strong)
    (hk : a.kind ≠ .vsts ∧ a.kind ≠ .cvld) {done todo : List LaneAcc} (hdone : ∀ y ∈ done, y.val.isSome = true)
    (htodo : ReadableLanes s (Size.bytes a.size) todo) (since tid p : Nat) :
    s.performLanes core tid p a done todo since =
      (todo.foldl (fun s x => s.drainFor core strong x.pa) s, done ++ todo.map (LaneAcc.read s core (Size.bytes a.size))) := by
  induction todo generalizing s done with
  | nil => simp [State.performLanes]
  | cons x t ih =>
    obtain ⟨hx, ht⟩ := List.forall_mem_cons.1 htodo
    have howned : s.owned x.pa = false := by
      obtain ⟨-, -, g, hg, -, -, ho, -⟩ := hx
      simpa [LaneAcc.pa, hg] using ho
    obtain ⟨hready, hstep, hsame⟩ := h.drainFor howned
    have hdone' : ∀ y ∈ done ++ [x.read s core (Size.bytes a.size)], y.val.isSome = true := by
      simp only [List.forall_mem_append, List.forall_mem_singleton]
      exact ⟨hdone, rfl⟩
    have ht' : ReadableLanes (s.drainFor core strong x.pa) (Size.bytes a.size) t := fun y hy => by
      obtain ⟨hfail, hval, g, hg, hpeer, halign, ho, hb, hr, hp⟩ := ht y hy
      exact ⟨hfail, hval, g, hg, hpeer, halign, (hstep.owned _).trans ho, (hstep.bankClosed _).trans hb, hr, hstep.unpoisoned hp⟩
    rw [State.performLanes, h.performLane hstrong hk hdone (List.forall_mem_singleton.2 hx)]
    simp only
    rw [ih hready hdone' ht', LaneAcc.read_congr hsame]
    simp

/-- All lanes of a load. -/
theorem State.LoadReady.performAll {s : State} {core : Nat} {a : Access} {strong : Bool}
    (hstrong : ((a.kind.form.eff (some a.ord)).str != .wk) = strong) (h : s.LoadReady core strong)
    (hk : a.kind ≠ .vsts ∧ a.kind ≠ .cvld) (hlanes : ReadableLanes s (Size.bytes a.size) a.lanes) (tid p : Nat) :
    s.performAll core tid p a = (a.lanes.foldl (fun s x => s.drainFor core strong x.pa) s,
      { a with lanes := a.lanes.map (LaneAcc.read s core (Size.bytes a.size)) }) := by
  have hk' : (a.kind == AccKind.vsts) = false := by simpa using hk.1
  simp [State.performAll, hk', h.performLanes hstrong hk (done := []) (by simp) hlanes]

/-- A weak load drains nothing, and a strong one the line of each lane. -/
theorem foldl_drainFor (s : State) (core : Nat) (x : Strength) (ls : List LaneAcc) :
    ls.foldl (fun s y => s.drainFor core (x != .wk) y.pa) s =
      if x = .wk then s else ls.foldl (fun s y => s.drain core fun e => e.line == ((y.tgt.map Target.pa).getD 0) / 64) s := by
  by_cases hx : x = .wk
  · rw [if_pos hx]
    exact List.foldlRecOn (motive := (· = s)) _ _ rfl fun r hr y _ => by simp [State.drainFor, hx, hr]
  · rw [if_neg hx]
    simp only [State.drainFor, bne_iff_ne.2 hx, if_true]
    rfl

/-! ## Promotion before an acquire (R311) -/

namespace State.Still

variable {s : State}

theorem still_pokeLine (h : s.Still) (line : Nat) (bs : Map Byte) : (s.pokeLine line bs).Still := by
  unfold State.pokeLine
  rw [h.settle]
  simp only [h.reach]
  split_ifs
  · exact h
  · exact ⟨h.migrations, h.reductions⟩
  · exact ⟨h.migrations, h.reductions⟩

theorem still_drainEntry (h : s.Still) (core : Nat) (e : WcbEntry) : (s.drainEntry core e).Still := by
  unfold State.drainEntry
  dsimp only
  split
  · exact h.still_pokeLine _ _
  · exact ⟨h.migrations, h.reductions⟩

theorem still_drain (h : s.Still) (core : Nat) (sel : WcbEntry → Bool) : (s.drain core sel).Still := by
  unfold State.drain
  dsimp only
  split
  · exact List.foldlRecOn _ _ ⟨h.migrations, h.reductions⟩ fun _ hr e _ => State.Still.still_drainEntry hr core e
  · exact h

theorem still_drainEvery (h : s.Still) (sel : WcbEntry → Bool) : (s.drainEvery sel).Still :=
  List.foldlRecOn _ _ h fun _ hr c _ => State.Still.still_drain hr c.1 sel

end State.Still

/-! ## The data of a load returns (R184) -/

/-- What the return of a load's data does when nothing holds the access back and its promotion leaves nothing held. -/
theorem execMemoryReadResponse_of_load {s s1 s2 : State} {tid p id : Nat} {t : Team} {q : Party} {a b : Access}
    (ht : Map.find s.teams tid = some t) (hq : Map.find t.parties p = some q)
    (ha : (q.accesses.find? fun b => b.id == id) = some a) (hact : t.active = true) (hback : s.heldBack tid p q a = false)
    (hprom : s.promote ((a.kind.form.eff (some a.ord)).scope == .dvRem && (a.kind.form.eff (some a.ord)).str == .acq) =
      (s1, false)) (hperf : s1.performAll t.core tid p a = (s2, b)) :
    execMemoryReadResponse tid p id s = .next (s2.settleAccess (s2.tagOf t) tid p b) := by
  have hstop : (t.state == TeamState.stopping) = false := by
    unfold Team.active at hact
    cases hs : t.state <;> simp_all
  unfold execMemoryReadResponse
  simp only [ht, hq, ha, hact, hstop, hback, hprom, hperf, Bool.false_and, Bool.or_false, Bool.not_true, Bool.false_eq_true, if_false]

/-- An access whose lanes have all read a value writes it back. -/
theorem State.settleAccess_of_read (s : State) (tag : BitVec 16) (tid p : Nat) {a : Access} (hk : a.kind ≠ .vsts)
    (hval : ∀ x ∈ a.lanes, x.val.isSome = true) (hfail : ∀ x ∈ a.lanes, x.failed = none) :
    s.settleAccess tag tid p a = s.modParty tid p fun q => q.complete a := by
  have hended : a.ended = true := by
    have hk' : (a.kind == AccKind.vsts) = false := by simpa using hk
    simp only [Access.ended, hk', Bool.false_and, Bool.false_eq_true, if_false, List.all_eq_true, Bool.or_eq_true]
    exact fun x hx => .inl (hval x hx)
  have hnone : failing a.lanes = none := by
    simp only [failing, List.find?_eq_none]
    exact fun x hx => by simp [hfail x hx]
  simp [State.settleAccess, hended, hnone]

/-- The promotion that an acquire makes, when it leaves nothing held. -/
theorem State.promote_of_unheld {s s1 : State} {c : Prop} [Decidable c] {on : Bool} (hon : on = decide c)
    (hs1 : s1 = if c then s.drainEvery fun _ => true else s) (hheld : c → s1.heldStores = []) : s.promote on = (s1, false) := by
  subst hs1 hon
  unfold State.promote
  by_cases hc : c
  · simpa [hc] using hheld hc
  · simp [hc]

/-- Settles O32, by induction on the lanes: a drain of a line leaves what the core reads, so that every lane reads what the core
saw when the data returned. -/
theorem loadsReturn : Obligations.LoadsReturn := by
  intro s tid p id t q a ht hq ha hact hback hkind hmig hred e s1 n hlanes hbuf hheld s2
  have hk : a.kind ≠ .vsts ∧ a.kind ≠ .cvld := by
    constructor <;> rintro hk <;> simp [hk] at hkind
  have hstill : s1.Still := by
    have hs : s.Still := ⟨hmig, hred⟩
    show State.Still (if _ then _ else _)
    split
    · exact hs.still_drainEvery _
    · exact hs
  have hprom : s.promote (e.scope == .dvRem && e.str == .acq) = (s1, false) :=
    State.promote_of_unheld (by rw [Bool.decide_and]; rfl) rfl fun hacq => hheld (by simp [hacq.2])
  have hready : s1.LoadReady t.core (e.str != .wk) :=
    ⟨hstill, fun hne => hheld (by simpa using hne), bufferOn_of_bufferOk hbuf fun _ _ => trivial⟩
  have hperf := hready.performAll rfl hk hlanes tid p
  rw [exec_memoryReadResponse, execMemoryReadResponse_of_load ht hq ha hact hback hprom hperf, State.settleAccess_of_read,
    foldl_drainFor]
  · rfl
  · exact hk.1
  · simp [LaneAcc.read]
  · simpa [LaneAcc.read] using fun x hx => (hlanes x hx).1

end Sys2Proof.Machine

/-!
PROOFS. What fetching, checking a clause and run-ahead leave alone: the teams, the runs and the requests to peers.
-/

namespace Sys2Proof.Machine

open Sys2Proof

/-- The teams, the runs and the requests to peers are as they were. -/
structure State.SameWork (s r : State) : Prop where
  teams : r.teams = s.teams
  runs : r.runs = s.runs
  outstanding : r.outstanding = s.outstanding

namespace State.SameWork

variable {s r u : State}

theorem refl (s : State) : s.SameWork s := ⟨rfl, rfl, rfl⟩

theorem trans (h : s.SameWork r) (h' : r.SameWork u) : s.SameWork u :=
  ⟨h'.teams.trans h.teams, h'.runs.trans h.runs, h'.outstanding.trans h.outstanding⟩

theorem foldl {α : Type} (f : State → α → State) (hf : ∀ s x, State.SameWork s (f s x)) (s : State) (l : List α) :
    s.SameWork (l.foldl f s) :=
  List.foldlRecOn (motive := s.SameWork) l f (refl s) fun r hr x _ => hr.trans (hf r x)

end State.SameWork

theorem State.sameWork_applyReductions (s : State) (sel : RedEntry → Bool) : s.SameWork (s.applyReductions sel) := by
  have h := State.SameWork.foldl (fun (s : State) e => RedEntry.apply e s) (fun _ _ => ⟨rfl, rfl, rfl⟩) s (s.reductions.filter sel)
  exact ⟨h.teams, h.runs, h.outstanding⟩

theorem State.sameWork_reach (s : State) (pa n : Nat) : s.SameWork (s.reach pa n) := by
  unfold State.reach
  split
  · exact .refl s
  · exact s.sameWork_applyReductions _

theorem State.sameWork_copyLine (s : State) (m : Migration) (line : Nat) : s.SameWork (s.copyLine m line) := by
  unfold State.copyLine
  split <;> exact ⟨rfl, rfl, rfl⟩

theorem State.sameWork_settle (s : State) (pa : Nat) : s.SameWork (s.settle pa).1 := by
  unfold State.settle
  split
  · exact .refl s
  · exact s.sameWork_copyLine _ _

theorem State.sameWork_missFor (s : State) (core : Option Nat) (tag : BitVec 16) (va : Nat) :
    s.SameWork (s.missFor core tag va).1 := by
  unfold State.missFor State.await
  cases core <;> dsimp only <;> (repeat' split) <;> exact ⟨rfl, rfl, rfl⟩

theorem State.sameWork_translate (s : State) (core : Nat) (tag : BitVec 16) (priv : Bool) (u : Use) (a : DWord) :
    s.SameWork (s.translate core tag priv u a).1 := by
  have hentry (va : Nat) : s.SameWork (s.entryFor core tag va).1 := by
    unfold State.entryFor
    split
    · exact .refl s
    · exact s.sameWork_missFor _ _ _
  unfold State.translate
  split
  · exact .refl s
  · next va _ =>
    specialize hentry va
    generalize s.entryFor core tag va = x at hentry ⊢
    obtain ⟨r, c | e⟩ := x
    · exact hentry
    · dsimp only at hentry ⊢
      split <;> exact hentry

theorem State.sameWork_peerByte (s : State) (r pa va : Nat) : s.SameWork (s.peerByte r pa va).1 := by
  unfold State.peerByte
  split <;> exact ⟨rfl, rfl, rfl⟩

theorem State.sameWork_engineByte (s : State) (core : Option Nat) (t : Target) (va : Nat) : s.SameWork (s.engineByte core t va).1 := by
  unfold State.engineByte
  cases t.peer with
  | some r => exact s.sameWork_peerByte _ _ _
  | none =>
    have h := s.sameWork_settle t.pa
    generalize s.settle t.pa = x at h ⊢
    obtain ⟨s1, r | r, pa⟩ := x
    · have hr : s.SameWork (s1.reach pa 1) := h.trans (s1.sameWork_reach _ _)
      have hstick : s.SameWork ((s1.reach pa 1).stick (s1.bankClosed pa || s1.undecided pa)) := ⟨hr.teams, hr.runs, hr.outstanding⟩
      dsimp only
      split
      · unfold State.registerRead
        split <;> exact ⟨hstick.teams, hstick.runs, hstick.outstanding⟩
      · exact hstick
    · exact h.trans (s1.sameWork_peerByte _ _ _)

theorem State.sameWork_fetchWord (s : State) (t : Team) (pc : Word) : s.SameWork (s.fetchWord t pc).1 := by
  unfold State.fetchWord
  dsimp only
  generalize hx : s.translate _ _ _ _ _ = x
  have h : s.SameWork x.1 := hx ▸ s.sameWork_translate _ _ _ _ _
  obtain ⟨r, c | g⟩ := x
  · exact h
  · exact h.trans ((((r.sameWork_engineByte _ _ _).trans (State.sameWork_engineByte _ _ _ _)).trans
      (State.sameWork_engineByte _ _ _ _)).trans (State.sameWork_engineByte _ _ _ _))

theorem State.sameWork_fetchWords (s : State) (t : Team) (pc : Word) (n : Nat) : s.SameWork (s.fetchWords t pc n).1 := by
  induction n generalizing s pc with
  | zero => exact .refl s
  | succ n ih =>
    rw [State.fetchWords]
    have h := s.sameWork_fetchWord t pc
    generalize s.fetchWord t pc = x at h ⊢
    obtain ⟨r, c | w⟩ := x
    · exact h
    · have h' := ih r (pc + 4)
      dsimp only
      generalize r.fetchWords t (pc + 4) n = y at h' ⊢
      obtain ⟨u, c | ws⟩ := y <;> exact h.trans h'

theorem State.sameWork_checkClause (s : State) (t : Team) (seq : Bool) (pc : Word) : s.SameWork (s.checkClause t seq pc).1 := by
  unfold State.checkClause
  dsimp only
  split
  · exact ⟨rfl, rfl, rfl⟩
  · have h := s.sameWork_fetchWord t pc
    generalize s.fetchWord t pc = x at h ⊢
    obtain ⟨r, c | w⟩ := x
    · exact ⟨h.teams, h.runs, h.outstanding⟩
    · dsimp only
      split
      · exact h
      · have h' := r.sameWork_fetchWords t (pc + 4) (hdrCount w)
        generalize r.fetchWords t (pc + 4) (hdrCount w) = y at h' ⊢
        obtain ⟨u, c | ws⟩ := y
        · exact h.trans h'
        · dsimp only
          split_ifs <;> exact h.trans h'

theorem State.sameWork_prefetch (s : State) (t : Team) (a : DWord) : s.SameWork (s.prefetch t a) := by
  unfold State.prefetch
  dsimp only
  split
  · exact .refl s
  · exact s.sameWork_translate _ _ _ _ _

/-- The prefetches of an instruction, if its addresses are known. -/
theorem State.sameWork_prefetched (s : State) (t : Team) (as : List DWord) (k : Bool) :
    s.SameWork (if k = true then as.foldl (fun s v => s.prefetch t v) s else s) := by
  cases k
  · exact .refl s
  · exact .foldl _ (fun s v => s.sameWork_prefetch t v) s as

/-- One instruction of run-ahead. -/
theorem State.sameWork_aheadOne {run : Instr → State → Host.Outcome State Fault Refusal} {w : Issuer}
    {s x : State} {ns : List (Nat × Nat)} {b : State × State × List (Nat × Nat)} (h : State.aheadOne run w (s, x, ns) = some b) :
    s.SameWork b.1 := by
  unfold State.aheadOne at h
  dsimp only at h
  split at h
  · cases h
  · next t q _ =>
    split at h
    · cases h
    · split at h
      · have hc := s.sameWork_checkClause t false (q.slot w.sl).pc
        generalize s.checkClause t false (q.slot w.sl).pc = y at h hc
        obtain ⟨r, hd | _⟩ := y
        · dsimp only at h
          split at h
          · cases h
          · cases h
            exact hc
        · cases h
      · next c _ =>
        have hf := s.sameWork_fetchWords t (q.slot w.sl).pc (wordsLeft (q.slot w.sl).pc c)
        generalize s.fetchWords t (q.slot w.sl).pc (wordsLeft (q.slot w.sl).pc c) = y at h hf
        obtain ⟨r, e | ws⟩ := y
        · cases h
        · dsimp only at h
          split at h
          · cases h
          · next i _ =>
            generalize (!(List.any _ ns.contains || List.any _ q.isPort)) = known at h
            have hpre := hf.trans (r.sameWork_prefetched t (aheadAddresses i q w.sl) known)
            generalize (if known = true then List.foldl _ r _ else r) = r' at h hpre
            (repeat' split at h) <;> cases h <;> exact hpre

theorem State.sameWork_aheadFrom {run : Instr → State → Host.Outcome State Fault Refusal} {w : Issuer}
    (s x : State) (ns : List (Nat × Nat)) (n : Nat) : s.SameWork (State.aheadFrom run w (s, x, ns) n) := by
  induction n generalizing s x ns with
  | zero => exact .refl s
  | succ n ih =>
    rw [State.aheadFrom]
    split
    · exact .refl s
    · next b hb => exact (State.sameWork_aheadOne hb).trans (ih _ _ _)

theorem State.sameWork_runAhead (s : State) (run : Who → State → Host.Outcome State Fault Refusal)
    (meaning : Instr → State → Host.Outcome State Fault Refusal) (tid p : Nat) : s.SameWork (s.runAhead run meaning tid p) := by
  unfold State.runAhead
  split
  · exact .refl s
  · split
    · exact .refl s
    · split
      · exact .refl s
      · dsimp only
        exact .trans (r := s.useFree) ⟨rfl, rfl, rfl⟩ (State.sameWork_aheadFrom _ _ _ _)

end Sys2Proof.Machine

/-!
PROOFS. The events of issue and of memory (O54): what each does when what it waits for holds.
-/

namespace Sys2Proof.Machine

open Sys2Proof

/-! ## Changes given by what they make of a team -/

/-- A change of a team is given by what it makes of the team. -/
theorem State.modTeam_congr {s : State} {i : Nat} {t : Team} {f g : Team → Team} (ht : Map.find s.teams i = some t) (h : f t = g t) :
    s.modTeam i f = s.modTeam i g := by
  simp only [State.modTeam, Map.update_congr ht h]

theorem State.modSeq_congr {s : State} {i : Nat} {t : Team} {q : Sequencer} {f g : Sequencer → Sequencer}
    (ht : Map.find s.teams i = some t) (hq : t.seq = some q) (h : f q = g q) : s.modSeq i f = s.modSeq i g :=
  State.modTeam_congr ht (by simp [Team.modSeq, hq, h])

theorem State.party?_eq {s : State} {tid p : Nat} {t : Team} {q : Party} (ht : Map.find s.teams tid = some t)
    (hq : Map.find t.parties p = some q) : s.party? tid p = some q := by
  simp [State.party?, ht, hq]

/-! ## A clause begins (R155 to R157) -/

/-- CLAUSE_ISSUE of a path whose clause passes its checks: a wait for stores drains first, then the path enters the clause or waits
for the conditions that do not hold. -/
theorem exec_clauseIssue_party (s s1 : State) (tid p : Nat) (sl : Bool) (t : Team) (q : Party) (h : Word)
    (ht : Map.find s.teams tid = some t) (hq : Map.find t.parties p = some q) (hrun : t.running = true)
    (hlive : (q.slot sl).live = true) (hnone : (q.slot sl).clause = none)
    (hc : s.checkClause t false (q.slot sl).pc = (s1, .ok h)) :
    let s2 := if (hdrWait h).getLsbD 1 then s1.beginW1 t.core tid p else s1
    let u := unmet (hdrWait h) (s2.waitsMet t tid p q)
    exec (.clauseIssue (.party tid p sl)) s = .next (s2.modParty tid p fun q' => q'.modSlot sl fun x =>
      if u = 0 then { x with pc := (q.slot sl).pc + 4, wait := .none, clause := some (clauseOf (q.slot sl).pc h) }
      else { x with wait := .clause u }) := by
  simp only [exec_clauseIssue, execClauseIssue, ht, hq, hrun, hlive, hnone, Option.isNone_none, Bool.and_self, if_true,
    State.enterClause, hc]

/-- The same for a sequencer, whose checks leave the team as it is. -/
theorem exec_clauseIssue_seq (s s1 : State) (tid : Nat) (t : Team) (q : Sequencer) (h : Word)
    (ht : Map.find s.teams tid = some t) (hq : t.seq = some q) (hrun : t.running = true) (hgo : q.stopped = false)
    (hnone : q.clause = none) (hc : s.checkClause t true q.pc = (s1, .ok h)) :
    let u := unmet (hdrWait h) (s1.seqWaitsMet q)
    exec (.clauseIssue (.seq tid)) s = .next (s1.modSeq tid fun x =>
      if u = 0 then { x with pc := q.pc + 4, wait := .none, clause := some (clauseOf q.pc h) }
      else { x with wait := .clause u }) := by
  have hteams : s1.teams = s.teams := by
    have hwork := s.sameWork_checkClause t true q.pc
    rw [hc] at hwork
    exact hwork.teams
  have ht1 : Map.find s1.teams tid = some t := by rw [hteams, ht]
  simp only [exec_clauseIssue, execClauseIssue, ht, hq, hrun, hgo, hnone, Option.isNone_none, Bool.not_false, Bool.and_self, if_true,
    State.enterSeq, hc]
  exact congrArg _ (State.modSeq_congr ht1 hq rfl)

/-! ## Promotion, run-ahead, yields (R152, R377, R389) -/

theorem exec_starvationPromote_of_starved (s : State) (tid p : Nat) (t : Team) (q : Party) (ht : Map.find s.teams tid = some t)
    (hq : Map.find t.parties p = some q) (hstarve : 1024 ≤ q.starve) (hy : q.yielded = false) :
    exec (.starvationPromote tid p) s = .next { s with agenda := ⟨0, 0, .track t.core q.track⟩ :: s.agenda } := by
  simp [exec_starvationPromote, execStarvationPromote, ht, State.party?_eq ht hq, Nat.not_lt.2 hstarve, hy, State.nextTurn]

theorem Party.waitsForLoad_iff (q : Party) (sl : Bool) :
    q.waitsForLoad sl = true ↔ ∃ k n, (q.slot sl).wait = .scoreboard k n ∧ ∃ x ∈ q.pending, x.kind = k ∧ x.num = n ∧
      ∃ a ∈ q.accesses, a.id = x.op ∧ (a.kind = .vld ∨ a.kind = .vldg ∨ a.kind = .sld) := by
  unfold Party.waitsForLoad
  cases hw : (q.slot sl).wait with
  | scoreboard k n =>
    simp only [List.any_eq_true, Bool.and_eq_true, Bool.or_eq_true, beq_iff_eq, and_assoc, or_assoc, Wait.scoreboard.injEq]
    constructor
    · exact fun h => ⟨k, n, rfl, rfl, h⟩
    · rintro ⟨_, _, rfl, rfl, h⟩
      exact h
  | _ => simp

theorem exec_runAhead_of_waiting (s : State) (tid p : Nat) (t : Team) (q : Party) (ht : Map.find s.teams tid = some t)
    (hq : Map.find t.parties p = some q) (hrun : t.running = true) (hpaths : q.paths ≠ [])
    (hwait : ∀ b ∈ q.paths, ∃ k n, (q.slot b).wait = .scoreboard k n ∧ ∃ x ∈ q.pending, x.kind = k ∧ x.num = n ∧
      ∃ a ∈ q.accesses, a.id = x.op ∧ (a.kind = .vld ∨ a.kind = .vldg ∨ a.kind = .sld)) :
    exec (.runAhead tid p) s = .next { s with agenda := ⟨0, 0, .ahead tid p⟩ :: s.agenda } := by
  have hall : q.paths.all q.waitsForLoad = true := List.all_eq_true.2 fun b hb => (q.waitsForLoad_iff b).2 (hwait b hb)
  simp [exec_runAhead, execRunAhead, ht, State.party?_eq ht hq, hrun, hpaths, hall, State.nextTurn]

/-- Run-ahead computes on a copy of the state. -/
theorem act_ahead_sameWork (s : State) (tid p : Nat) : ∃ s1, act (.ahead tid p) s = .next s1 ∧ s1.teams = s.teams ∧
    s1.runs = s.runs ∧ s1.outstanding = s.outstanding := by
  have h := s.sameWork_runAhead issue exec tid p
  exact ⟨_, rfl, h.teams, h.runs, h.outstanding⟩

theorem exec_yieldTimeout_of_elapsed (s : State) (tid p : Nat) (q : Party) (hq : s.party? tid p = some q) (hy : q.yielded = true)
    (hclk : q.lastIssue + 16 ≤ s.clk.toNat) :
    exec (.yieldTimeout tid p) s = .next { s with agenda := ⟨0, 0, .wake tid p⟩ :: s.agenda } := by
  simp [exec_yieldTimeout, execYieldTimeout, hq, hy, hclk, State.nextTurn]

/-! ## Walks (R34 to R39) -/

theorem not_queued_of_walking {w : Walk} (h : w.at_ = .walker ∨ w.at_ = .dieHit) :
    ¬(w.at_ = .queue ∨ w.at_ = .cluster ∨ w.fault?.isSome = true) := by
  unfold Walk.fault?
  rcases h with h | h <;> simp [h]

/-- A walk that holds a walker, or that has found its translation in the die's last level, ends. -/
theorem execWalkComplete_of_walking {s : State} {w : Walk} {r : Except Cause TlbEntry}
    (hw : (s.walks.find? fun x => x.id == w.id) = some w) (hat : w.at_ = .walker ∨ w.at_ = .dieHit) (hr : s.walkResult w = r) :
    execWalkComplete w.id s = .next
      ((((s.endWalk w r).regrant w.die).deferredBy w.tag w.cores).foldl (fun s x => s.replayLane w.tag w.base w.size r x)
        ((s.endWalk w r).regrant w.die)) := by
  unfold execWalkComplete
  simp only [hw, if_neg (not_queued_of_walking hat), hr]

theorem State.endWalk_ok (s : State) (w : Walk) (e : TlbEntry) :
    s.endWalk w (.ok e) = w.cores.foldl (fun s c => s.fillTlb c e)
      { s with walks := s.walks.filter fun x => x.id != w.id
               tlbDie := Map.set s.tlbDie w.die (addTlb 131072 (s.lastTlb w.die) e) } := rfl

theorem State.endWalk_error (s : State) (w : Walk) (c : Cause) :
    s.endWalk w (.error c) = { s with
      walks := (s.walks.filter fun x => x.id != w.id) ++ if w.waiters = [] then [] else [{ w with at_ := .ended c.cause c.sub }] } := by
  unfold State.endWalk
  cases w.waiters <;> simp

theorem exec_walkComplete_ok (s : State) (id : Nat) (w : Walk) (e : TlbEntry) (hw : (s.walks.find? fun w => w.id == id) = some w)
    (hat : w.at_ = .walker ∨ w.at_ = .dieHit) (hr : s.walkResult w = .ok e) :
    let s1 : State := { s with walks := s.walks.filter fun x => x.id != id
                               tlbDie := Map.set s.tlbDie w.die (addTlb 131072 (s.lastTlb w.die) e) }
    let s2 := (w.cores.foldl (fun s c => s.fillTlb c e) s1).regrant w.die
    exec (.walkComplete id) s =
      .next ((s2.deferredBy w.tag w.cores).foldl (fun s x => s.replayLane w.tag w.base w.size (.ok e) x) s2) := by
  obtain rfl : w.id = id := by simpa using List.find?_some hw
  rw [exec_walkComplete, execWalkComplete_of_walking hw hat hr, State.endWalk_ok]

theorem exec_walkComplete_error (s : State) (id : Nat) (w : Walk) (c : Cause) (hw : (s.walks.find? fun w => w.id == id) = some w)
    (hat : w.at_ = .walker ∨ w.at_ = .dieHit) (hr : s.walkResult w = .error c) :
    let left := (s.walks.filter fun x => x.id != id) ++ if w.waiters = [] then [] else [{ w with at_ := .ended c.cause c.sub }]
    let s1 := ({ s with walks := left } : State).regrant w.die
    exec (.walkComplete id) s =
      .next ((s1.deferredBy w.tag w.cores).foldl (fun s x => s.replayLane w.tag w.base w.size (.error c) x) s1) := by
  obtain rfl : w.id = id := by simpa using List.find?_some hw
  rw [exec_walkComplete, execWalkComplete_of_walking hw hat hr, State.endWalk_error]

/-! ## Errors that an array's check finds (R70, R71) -/

theorem addOnce_of_notMem {l : List Nat} {k : Nat} (h : k ∉ l) : addOnce l k = k :: l := by
  simp [addOnce, h]

theorem exec_backgroundScrub_memory (s : State) (x : ErrSite) (pa : Nat) (hx : x = .memory pa ∨ x = .l2 pa)
    (hr : regionOf pa = .hbm ∨ regionOf pa = .weights) (hp : pa / 64 ∉ s.poison) :
    exec (.backgroundScrub x true) s = .next { s with poison := pa / 64 :: s.poison } := by
  obtain rfl | rfl := hx <;>
    simp [exec_backgroundScrub, execBackgroundScrub, State.poisonAt, hr, addOnce_of_notMem hp]

theorem exec_backgroundScrub_localStore (s : State) (tid : Nat) (t : Team) (w : Nat) (ht : Map.find s.teams tid = some t)
    (hw : 4 * w < t.lsSize) (hp : w ∉ t.lsPoison) :
    exec (.backgroundScrub (.localStore tid w) true) s =
      .next (s.modTeam tid fun t => { t with lsPoison := w :: t.lsPoison }) := by
  rw [exec_backgroundScrub]
  exact congrArg _ (State.modTeam_congr ht (by simp [hw, addOnce_of_notMem hp]))

theorem exec_backgroundScrub_accumulator (s : State) (tid : Nat) (t : Team) (k : Nat) (ht : Map.find s.teams tid = some t)
    (hk : k < 16384 * t.tiles) (hp : k ∉ t.accPoison) :
    exec (.backgroundScrub (.accumulator tid k) true) s =
      .next (s.modTeam tid fun t => { t with accPoison := k :: t.accPoison }) := by
  rw [exec_backgroundScrub]
  exact congrArg _ (State.modTeam_congr ht (by simp [hk, addOnce_of_notMem hp]))

theorem exec_backgroundScrub_vector (s : State) (tid p : Nat) (q : Party) (n l : Nat) (hq : s.party? tid p = some q) (hn : n < 128)
    (hl : l < 96) (hp : 96 * n + l ∉ q.vPoison) :
    exec (.backgroundScrub (.vector tid p n l) true) s =
      .next (s.modParty tid p fun q => { q with vPoison := (96 * n + l) :: q.vPoison }) := by
  rw [exec_backgroundScrub]
  exact congrArg _ (State.modParty_congr hq (by simp [hn, hl, addOnce_of_notMem hp]))

theorem exec_backgroundScrub_stack (s : State) (tid p : Nat) (q : Party) (k : Nat) (hq : s.party? tid p = some q)
    (hk : k < q.stack.length) (hp : k ∉ q.stackPoison) :
    exec (.backgroundScrub (.stack tid p k) true) s =
      .next (s.modParty tid p fun q => { q with stackPoison := k :: q.stackPoison }) := by
  rw [exec_backgroundScrub]
  exact congrArg _ (State.modParty_congr hq (by simp [hk, addOnce_of_notMem hp]))

theorem exec_backgroundScrub_corrected (s : State) (x : ErrSite) (hrow : errRow x < 8) :
    exec (.backgroundScrub x false) s =
      .next { s with corrected := Store.write s.corrected (errRow x) (Store.read s.corrected (errRow x) + 1) } := by
  simp [exec_backgroundScrub, execBackgroundScrub, hrow]

/-! ## Refresh windows (R61) -/

theorem exec_refreshWindowOpen_of_open (s : State) (die j : Nat) (hd : die < 4) (hj : s.openWindow = some j) :
    exec (.refreshWindowOpen die) s = .next { s with window := Store.write s.window die (BitVec.ofNat 8 (j + 1)) } := by
  simp [exec_refreshWindowOpen, execRefreshWindowOpen, hj, hd]

theorem exec_refreshWindowClose_of_closed (s : State) (die : Nat) (hn : s.openWindow = none) :
    exec (.refreshWindowClose die) s = .next { s with window := Map.drop s.window die } := by
  simp [exec_refreshWindowClose, execRefreshWindowClose, hn]

/-! ## Migration (R44 to R47) -/

/-- A page that overlaps no migrating page enters the table of its home while that has room. -/
theorem exec_migrationTableEntry_of_room (s : State) (die oldFrame size newFrame : Nat) (rank : Option Nat)
    (hroom : (s.migrations.filter fun m => m.die == die).length < 64) (hhome : homeDie oldFrame = die)
    (hapart : ∀ m ∈ s.migrations, oldFrame + size ≤ m.oldFrame ∨ m.oldFrame + m.size ≤ oldFrame) :
    let m : Migration :=
      { die := die, oldFrame := oldFrame, size := size, newFrame := newFrame, rank := rank, copied := [], applied := [] }
    let s1 := (((s.drainEvery fun e => decide (oldFrame ≤ 64 * e.line ∧ 64 * e.line < oldFrame + size)).reach oldFrame
      size).recallLines m).performHeld
    exec (.migrationTableEntry die oldFrame size newFrame rank) s = .next { s1 with migrations := s1.migrations ++ [m] } := by
  have hmay : ¬(64 ≤ (s.migrations.filter fun m => m.die == die).length ∨ homeDie oldFrame ≠ die ∨
      (s.migrations.any fun m => decide (m.oldFrame < oldFrame + size ∧ oldFrame < m.oldFrame + m.size)) = true) := by
    simp only [List.any_eq_true, decide_eq_true_eq, not_or, not_exists, not_not]
    refine ⟨by omega, hhome, fun m hm => ?_⟩
    have := hapart m hm.1
    omega
  rw [exec_migrationTableEntry, execMigrationTableEntry, if_neg hmay]

theorem withAddr_map_range (a n : Nat) (f : Nat → Byte) :
    (List.range n).map (fun k => (a + k, f k)) = withAddr a ((List.range n).map f) := by
  induction n generalizing a f with
  | zero => rfl
  | succ n ih =>
    rw [List.range_succ_eq_map, List.map_cons, List.map_cons, withAddr, List.map_map, List.map_map, ← ih (a + 1) (f ∘ Nat.succ)]
    simp [Function.comp_def, Nat.add_assoc, Nat.add_comm 1]

/-- A line copied to its new frame holds there what it held in the old one, and no other byte changes. -/
theorem State.byte_copyLine {s : State} {m : Migration} {line : Nat} (hc : line ∉ m.copied) (hr : m.rank = none) (a : Nat) :
    (s.copyLine m line).byte a =
      if 256 * (m.newFrame / 256 + line) ≤ a ∧ a < 256 * (m.newFrame / 256 + line) + 256 then
        s.byte (256 * (m.oldFrame / 256 + line) + (a - 256 * (m.newFrame / 256 + line)))
      else s.byte a := by
  simp only [State.copyLine, hr, List.contains_iff_mem, hc, Bool.or_eq_true, Option.isSome_none, or_self, if_false, Bool.false_eq_true]
  simp only [State.byte]
  rw [withAddr_map_range, read_write_overlay, overlay]
  by_cases hle : 256 * (m.newFrame / 256 + line) ≤ a
  · by_cases hlt : a < 256 * (m.newFrame / 256 + line) + 256
    · have hk : a - 256 * (m.newFrame / 256 + line) < 256 := by omega
      simp [hle, hlt, hk]
    · have hk : 256 ≤ a - 256 * (m.newFrame / 256 + line) := by omega
      simp [hle, hlt, hk]
  · simp [hle]

/-- The sectors of a copied line are poisoned as those of the old one are. -/
theorem State.poison_copyLine {s : State} {m : Migration} {line : Nat} (hc : line ∉ m.copied) (hr : m.rank = none) {k : Nat}
    (hk : k < 4) : (s.copyLine m line).poison.contains (4 * (m.newFrame / 256 + line) + k) =
      s.poison.contains (4 * (m.oldFrame / 256 + line) + k) := by
  have hdiv : (4 * (m.newFrame / 256 + line) + k) / 4 = m.newFrame / 256 + line := by omega
  simp only [State.copyLine, hr, List.contains_iff_mem, hc, Bool.or_eq_true, Option.isSome_none, or_self, if_false, Bool.false_eq_true]
  rw [Bool.eq_iff_iff]
  simp [hdiv, hk]

theorem exec_migrationLineCopy_copies (s : State) (die frame line : Nat) (m : Migration)
    (hm : (s.migrations.find? fun m => m.die == die && m.oldFrame == frame) = some m) (hold : m.oldFrame % 256 = 0)
    (hnew : m.newFrame % 256 = 0) (hline : line < m.size / 256) (hrank : m.rank = none) (hcopied : line ∉ m.copied) :
    ∃ s1 : State, exec (.migrationLineCopy die frame line) s = .next s1 ∧
      (∀ k, k < 256 → s1.byte (m.newFrame + 256 * line + k) = s.byte (m.oldFrame + 256 * line + k)) ∧
      (∀ k, k < 4 → (s1.poison.contains (m.newFrame / 64 + 4 * line + k) = s.poison.contains (m.oldFrame / 64 + 4 * line + k))) ∧
      (∀ a, (a < m.newFrame + 256 * line ∨ m.newFrame + 256 * line + 256 ≤ a) → s1.byte a = s.byte a) ∧
      s1.teams = s.teams ∧ s1.runs = s.runs ∧ s1.wcb = s.wcb ∧ s1.tlbDie = s.tlbDie := by
  refine ⟨s.copyLine m line, ?_, fun k hk => ?_, fun k hk => ?_, fun a ha => ?_, ?_⟩
  · simp [exec_migrationLineCopy, execMigrationLineCopy, hm, hline]
  · rw [State.byte_copyLine hcopied hrank, if_pos (by omega)]
    congr 1
    omega
  · rw [show m.newFrame / 64 + 4 * line + k = 4 * (m.newFrame / 256 + line) + k by omega, State.poison_copyLine hcopied hrank hk,
      show m.oldFrame / 64 + 4 * line + k = 4 * (m.oldFrame / 256 + line) + k by omega]
  · rw [State.byte_copyLine hcopied hrank, if_neg (by omega)]
  · unfold State.copyLine
    split <;> exact ⟨rfl, rfl, rfl, rfl⟩

theorem exec_migrationEntryRemoval_of_copied (s : State) (die frame : Nat) (m : Migration)
    (hm : (s.migrations.find? fun m => m.die == die && m.oldFrame == frame) = some m)
    (hall : m.rank = none → m.size / 256 ≤ m.copied.length) :
    exec (.migrationEntryRemoval die frame) s =
      .next { s with migrations := s.migrations.filter fun x => !(x.die == die && x.oldFrame == frame) } := by
  have hdone : ¬(m.rank.isNone = true ∧ m.copied.length < m.size / 256) := fun h =>
    Nat.not_lt.2 (hall (Option.isNone_iff_eq_none.1 h.1)) h.2
  simp only [exec_migrationEntryRemoval, execMigrationEntryRemoval, hm, if_neg hdone]

/-- Taking a number in an order changes the count of the order alone. -/
theorem State.nextOrder_frame (s : State) (dst addr : Nat) (op : FabOp) :
    ∃ c, (s.nextOrder dst addr op).2 = { s with issuedTo := c } := by
  unfold State.nextOrder
  split
  · exact ⟨s.issuedTo, rfl⟩
  · exact ⟨_, rfl⟩

/-- A bounced request with none before it in its order goes to the new location. -/
theorem exec_migrationBounce_of_first (s : State) (id : Nat) (o : Outstanding) (rank frame : Nat)
    (ho : (s.outstanding.find? fun o => o.id == id) = some o) (hb : o.bounced = some (rank, frame))
    (hfirst : ∀ x ∈ s.outstanding.takeWhile (fun x => x.id != id), inOrder x.req o.req = false) :
    ∃ port order, ∃ s1 : State, s1.teams = s.teams ∧ s1.mem = s.mem ∧ exec (.migrationBounce id) s = .next { s1 with
      outstanding := s.outstanding.map fun x =>
        if x.id = id then
          { x with bounced := none, port := port, req := { x.req with dst := rank, addr := frame, order := order } }
        else x } := by
  obtain ⟨c, hc⟩ := s.egress.2.nextOrder_frame rank frame o.req.op
  have hnone : ((s.outstanding.takeWhile fun x => x.id != id).any fun x => inOrder x.req o.req) = false := by
    simpa [List.any_eq_false] using hfirst
  refine ⟨s.egress.1, (s.egress.2.nextOrder rank frame o.req.op).1, { s.egress.2 with issuedTo := c }, rfl, rfl, ?_⟩
  simp only [exec_migrationBounce, execMigrationBounce, ho, hb, hnone, Bool.false_eq_true, if_false]
  rw [hc]
  rfl

/-! ## Invalidations and weight-store copies (R43, R60) -/

/-- An invalidation is done once nothing uses a removed translation, and no buffer and no directory holds a store. -/
theorem exec_tlbrngDone_of_performed (s : State) (id : Nat) (v : Inval) (hv : (s.invals.find? fun x => x.id == id) = some v) :
    let s1 := (s.drainEvery fun _ => true).applyReductions fun e => v.awaits.contains e.id
    s1.stillUses v.awaits = false → s1.wcb = [] → s1.heldStores = [] →
    let s2 : State := { s1 with invals := s1.invals.filter fun x => x.id != id }
    (∀ dest, v.dest = some dest →
      exec (.tlbrngDone id) s = .next (s2.writeStatus dest id (0x80000000 ||| BitVec.ofNat 32 (min v.removed 0xFFFFFF)))) ∧
    (v.dest = none → exec (.tlbrngDone id) s =
      .next { s2 with queues := Map.update s2.queues v.queue fun q =>
        { q with invdone := !(s2.invals.any fun x => x.dest.isNone && x.queue == v.queue) } }) := by
  intro s1 huse hwcb hheld s2
  have hdone : ¬(s1.stillUses v.awaits = true ∨ (!s1.wcb.isEmpty) = true ∨ (!s1.heldStores.isEmpty) = true) := by
    simp [huse, hwcb, hheld]
  simp only [exec_tlbrngDone, execTlbrngDone, hv]
  rw [if_neg hdone]
  exact ⟨fun dest hd => by rw [hd], fun hd => by rw [hd]⟩

theorem exec_wsldComplete_of_copied (s : State) (id : Nat) (c : WsCopy) (dest : Nat × Nat × Nat)
    (hc : (s.wsCopies.find? fun c => c.id == id) = some c) (hd : c.dest = some dest) :
    exec (.wsldComplete id) s = .next (({ s with wsCopies := s.wsCopies.filter fun x => x.id != id } : State).writeStatus dest id
      (0x80000000 ||| (if c.poison then 0x40000000 else 0))) := by
  simp only [exec_wsldComplete, execWsldComplete, hc, hd, when]

/-- Settles O54, event by event. -/
theorem issueAndMemoryEvents : Obligations.IssueAndMemoryEvents := by
  refine ⟨exec_clauseIssue_party, exec_clauseIssue_seq, exec_starvationPromote_of_starved, exec_runAhead_of_waiting,
    act_ahead_sameWork, exec_yieldTimeout_of_elapsed, fun _ _ _ => rfl, fun _ _ _ => rfl, fun _ _ _ => rfl, exec_walkComplete_ok,
    exec_walkComplete_error, exec_backgroundScrub_memory, exec_backgroundScrub_localStore, exec_backgroundScrub_accumulator,
    exec_backgroundScrub_vector, exec_backgroundScrub_stack, ?_, exec_refreshWindowOpen_of_open,
    exec_refreshWindowClose_of_closed, exec_migrationTableEntry_of_room, exec_migrationLineCopy_copies,
    exec_migrationEntryRemoval_of_copied, exec_migrationBounce_of_first, exec_tlbrngDone_of_performed,
    exec_wsldComplete_of_copied⟩
  intro s x row hrow
  have hx : errRow x = row := by cases x <;> rfl
  exact hx ▸ exec_backgroundScrub_corrected s x (hx ▸ hrow)

end Sys2Proof.Machine

/-!
PROOFS. The events of the ladder, of mapping and of parked packets (O57): what each does when its conditions hold.
-/

namespace Sys2Proof.Machine

open Sys2Proof

/-! ## The ladder (R412 to R416) -/

theorem State.nextOrder_tbase (s : State) (dst addr : Nat) (op : FabOp) : (s.nextOrder dst addr op).2.tbase = s.tbase := by
  obtain ⟨c, hc⟩ := s.nextOrder_frame dst addr op
  rw [hc]

theorem State.request_tbase (s : State) (tid : Nat) (party : Option Nat) (acc : Option (Nat × Nat)) (o : Origin) (dst addr : Nat)
    (op : FabOp) : (s.request tid party acc o dst addr op).1.tbase = s.tbase :=
  State.nextOrder_tbase _ dst addr op

/-- Stopping a team to be saved takes no time. -/
theorem State.beginSave_tbase (s : State) (tid : Nat) : (s.beginSave tid).tbase = s.tbase := by
  unfold State.beginSave
  split
  · rfl
  · dsimp only
    split
    · rfl
    · exact List.foldlRecOn (motive := fun r : State => r.tbase = s.tbase) _ _ rfl fun r hr o _ => (r.request_tbase ..).trans hr

theorem State.foldl_beginSave_tbase (s : State) (ts : List (Nat × Team)) :
    (ts.foldl (fun s t => s.beginSave t.1) s).tbase = s.tbase :=
  List.foldlRecOn (motive := fun r : State => r.tbase = s.tbase) _ _ rfl fun r hr t _ => (r.beginSave_tbase t.1).trans hr

/-- A team of the queue is not saved. -/
theorem State.any_unsaved {s : State} {key : Nat} (h : ∃ t ∈ s.teamsOf key, t.2.state ≠ .saved) :
    ((s.teamsOf key).any fun t => t.2.state != .saved) = true := by
  simpa using h

/-- T1 has expired with a team of the queue unsaved. -/
theorem exec_ladderDrainTimeout_of_expired (s : State) (key : Nat) (hbusy : stBusy (s.queue key).status = true)
    (hrung : stRung (s.queue key).status = 1) (hres : (s.queue key).resetting = false)
    (hdue : (s.queue key).rungAt + 256 * (s.queue key).t1 ≤ s.tbase.toNat) (hleft : ∃ t ∈ s.teamsOf key, t.2.state ≠ .saved) :
    let s1 := ((s.teamsOf key).foldl (fun s t => s.beginSave t.1) s).modQueue key fun q => { q with rungAt := s.tbase.toNat }
    exec (.ladderDrainTimeout key) s = .next (s1.postStatus key (statusWord 2 true false (stReason (s.queue key).status)
      ((s1.teamsOf key).filter fun t => t.2.state == .saved).length)) := by
  simp only [exec_ladderDrainTimeout, execLadderDrainTimeout, hbusy, hrung, hres, State.any_unsaved hleft, Nat.not_lt.2 hdue,
    decide_false, bne_self_eq_false, Bool.not_true, Bool.or_self, Bool.false_eq_true, if_false]
  rw [State.foldl_beginSave_tbase]
  rfl

theorem State.resetDone_of_writesOut {s : State} {key : Nat} (h : s.writesOut key = true) : s.resetDone key = s := by
  simp [State.resetDone, h]

theorem State.resetDone_of_performed {s : State} {key : Nat} (h : s.writesOut key = false) :
    s.resetDone key = (s.postStatus key (statusWord 3 false false (stReason (s.queue key).status)
      (stTeams (s.queue key).status))).finishPreempts key false := by
  simp [State.resetDone, h]

/-- The reset rung ends when the writes of the queue's work are performed. -/
theorem exec_ladderSaveTimeout_of_ladder (s : State) (key : Nat) (hbusy : stBusy (s.queue key).status = true)
    (hres : (s.queue key).resetting = false) :
    let ends (s1 : State) : Prop :=
      let w := (s1.queue key).status
      (s1.writesOut key = true → exec (.ladderSaveTimeout key) s = .next s1) ∧
      (s1.writesOut key = false → exec (.ladderSaveTimeout key) s =
        .next ((s1.postStatus key (statusWord 3 false false (stReason w) (stTeams w))).finishPreempts key false))
    (stRung (s.queue key).status = 3 → ends s) ∧
    (stRung (s.queue key).status = 2 → (s.queue key).rungAt + 256 * (s.queue key).t2 ≤ s.tbase.toNat →
      (∃ t ∈ s.teamsOf key, t.2.state ≠ .saved) → ends ((s.resetRung key true).modQueue key fun x =>
        { x with status := statusWord 3 true false (stReason (s.queue key).status) (stTeams (s.queue key).status) })) := by
  intro ends
  have hends (s1 : State) (h : exec (.ladderSaveTimeout key) s = .next (s1.resetDone key)) : ends s1 :=
    ⟨fun hw => by rw [h, State.resetDone_of_writesOut hw], fun hw => by rw [h, State.resetDone_of_performed hw]⟩
  constructor
  · intro hrung
    refine hends s ?_
    simp [exec_ladderSaveTimeout, execLadderSaveTimeout, hbusy, hres, hrung]
  · intro hrung hdue hleft
    refine hends _ ?_
    simp [exec_ladderSaveTimeout, execLadderSaveTimeout, hbusy, hres, hrung, Nat.not_lt.2 hdue, State.any_unsaved hleft]

theorem exec_teamSaveComplete_of_savable (s : State) (tid : Nat) (t : Team) (r : Run) (ht : Map.find s.teams tid = some t)
    (hr : Map.find s.runs t.run = some r) :
    let members := if t.group.isSome then s.teams.filter fun u => u.2.group == t.group else [(tid, t)]
    (∀ u ∈ members, s.savable u.1 u.2 = true) →
    exec (.teamSaveComplete tid) s = .next ((members.foldl (fun s u => s.save u.1 u.2) s).ladderCheck r.queue) := by
  intro members hall
  have hready : (members.all fun u => s.savable u.1 u.2) = true := List.all_eq_true.2 hall
  simp only [exec_teamSaveComplete, execTeamSaveComplete, ht, hr]
  exact if_pos hready

/-- The saved team whose turn it is resumes with its group, on cores of its die that fit and have its convoy slots free. -/
theorem exec_teamResume_of_fits (s : State) (tid : Nat) (cores : List Nat) (t : Team) (n : Node) (r : Run)
    (prio stamp run : Nat) (ht : Map.find s.teams tid = some t) (hn : s.node? t = some n) (hr : Map.find s.runs t.run = some r)
    (hturn : s.nextWaiting t.die = some { prio := prio, stamp := stamp, run := run, which := .inr tid })
    (hfit : s.coresFit n r.fn (s.membersOf tid t).length cores = true) (hdie : ∀ c ∈ cores, dieOf c = t.die)
    (hcv : ∀ x ∈ (s.membersOf tid t).zip cores, s.convoysFit x.1 x.2 = true) :
    exec (.teamResume tid cores) s =
      .next (((s.membersOf tid t).zip cores).foldl (fun s m => s.resumeOn m.1 n m.2) s) := by
  have hd : (cores.any fun c => dieOf c != t.die) = false := by simpa [List.any_eq_false] using hdie
  have hc : (((s.membersOf tid t).zip cores).all fun m => s.convoysFit m.1 m.2) = true := List.all_eq_true.2 hcv
  simp only [exec_teamResume, execTeamResume, ht, hn, hr, hturn, hfit, hd, hc]
  simp

/-! ## Mapping (R424) -/

theorem exec_timeSliceExpiry_of_due (s : State) (key : Nat) (n : Nat × BitVec 16) (hmap : (s.queue key).mapped = some n)
    (hres : stResum (s.queue key).status = false) (hturn : s.turnToMap.isSome = true)
    (hfull : 256 ≤ (s.queues.filter fun y => y.2.mapped.isSome).length)
    (hdue : (s.queue key).mappedAt + 2560000000 ≤ s.tbase.toNat) :
    exec (.timeSliceExpiry key) s = .next (s.startLadder key 1) := by
  simp [exec_timeSliceExpiry, execTimeSliceExpiry, hmap, hres, hturn, hfull, hdue]

/-- The eligible queue whose turn it is is mapped with the order's resources and limits, and resumes if it was saved for a time
slice. -/
theorem exec_queueMap_of_eligible (s : State) (key slot : Nat) (o : MapOrder) (hturn : s.turnToMap = some key) (hslot : slot < 256)
    (hfree : ∀ x ∈ s.queues, ∀ n t, x.2.mapped = some (n, t) → n ≠ slot ∧ t ≠ o.tag)
    (htag : Map.find s.contexts o.tag.toNat = none) (htrip : s.trip = false) (hvis : s.visible = true) (ht1 : o.t1 ≤ 10000000)
    (ht2 : 100000 ≤ o.t2) (ht2' : o.t2 ≤ 100000000) (hh : 2250000 ≤ o.hangt) (hh' : o.hangt ≤ 135000000000) :
    let s1 := s.grant (fnOf key) o
    let s2 := (({ s1 with
      contexts := Map.set s1.contexts o.tag.toNat { root := (s1.queue key).root.toNat, fn := fnOf key, queue := key }
      lastFn := fnOf key, hangt := o.hangt } : State).modRunsOf key fun r => { r with tag := o.tag }).modQueue key fun x =>
        { x with mapped := some (slot, o.tag), mappedAt := s1.tbase.toNat, idleAt := s1.tbase.toNat, privileged := o.privileged
                 t1 := o.t1, t2 := o.t2 }
    exec (.queueMap key slot o) s = .next (if stReason (s2.queue key).status = 1 then s2.resumeQueue key else s2) := by
  have hrange : orderInRange o = true := by simp [orderInRange, ht1, ht2, ht2', hh, hh']
  have htaken : (s.queues.any fun x => match x.2.mapped with
      | some (n, t) => n == slot || t == o.tag
      | none => false) = false := by
    rw [List.any_eq_false]
    intro x hx
    cases hm : x.2.mapped with
    | none => simp
    | some m => simpa using hfree x hx m.1 m.2 hm
  have hmay : ¬(s.turnToMap ≠ some key ∨ 256 ≤ slot ∨ (s.queues.any fun x => match x.2.mapped with
      | some (n, t) => n == slot || t == o.tag
      | none => false) = true ∨ (Map.find s.contexts o.tag.toNat).isSome = true ∨ s.trip = true ∨ (!s.visible) = true ∨
      (!orderInRange o) = true) := by
    simp [hturn, hslot, htaken, htag, htrip, hvis, hrange]
  rw [exec_queueMap, execQueueMap]
  exact if_neg hmay

theorem exec_queueUnmap_of_gone (s : State) (key : Nat) (n : Nat × BitVec 16) (hmap : (s.queue key).mapped = some n)
    (hres : (s.queue key).resetting = false) (hstate : (s.queue key).state ≠ .enabled) (hrun : s.hasRun key = false) :
    exec (.queueUnmap key) s = .next (s.unmap key) := by
  simp [exec_queueUnmap, execQueueUnmap, hmap, hres, hstate, hrun]

/-! ## Parked packets (R426 to R432) -/

theorem exec_parkedWaitPoll_of_due (s : State) (hdue : s.polledAt + 225000 ≤ s.clk.toNat) (htrip : s.trip = false) :
    exec .parkedWaitPoll s = .next (({ s with polledAt := s.clk.toNat } : State).pollWaits (Map.keys s.queues)) := by
  simp [exec_parkedWaitPoll, execParkedWaitPoll, hdue, htrip]

theorem exec_wsloadUnsealStart_of_unsealed (s : State) (key : Nat) (p : Packet)
    (hp : ((s.queue key).started.find? fun p => !p.begun) = some p) (hseal : s.wsloadSealed p.words = false)
    (htrip : s.trip = false) (hstate : (s.queue key).state = .enabled) (hmap : (s.queue key).mapped.isSome = true) :
    exec (.wsloadUnsealStart key) s = .next ((s.modQueue key fun x =>
      { x with started := x.started.map fun y => if y.index = p.index then { y with begun := true } else y }).beginWsload key
        p.index p.words) := by
  have hmap' : (s.queue key).mapped.isNone = false := Option.isNone_eq_false_iff.2 hmap
  simp [exec_wsloadUnsealStart, execWsloadUnsealStart, hp, hseal, htrip, hstate, hmap']

theorem exec_wsloadComplete_of_copied (s : State) (key idx : Nat) (c : WsCopy) (p : Packet)
    (hc : (s.wsCopies.find? fun c => c.dest.isNone && c.queue == key && c.packet == idx) = some c)
    (hp : ((s.queue key).started.find? fun p => p.index == idx) = some p) :
    let s1 : State := { s with wsCopies := s.wsCopies.filter fun x => x.id != c.id }
    exec (.wsloadComplete key idx) s = .next ((if pktWide p.words 6 = 0 then s1 else
      s1.signal key (pktWide p.words 6) .set (pktWide p.words 8 ||| (if c.poison then 2 ^ 63 else 0))).completePacket key idx) := by
  have hbit : (0x8000000000000000 : DWord) = 2 ^ 63 := by norm_num
  simp only [exec_wsloadComplete, execWsloadComplete, hc, hp, hbit]

theorem State.drained_of_elapsed {s : State} {key : Nat}
    (h : ∀ tag k, (s.queue key).tag = some tag → Map.find s.lastReq tag.toNat = some k → k + 256 * (s.fto + s.bound) ≤ s.tbase.toNat) :
    s.drained key = true := by
  unfold State.drained
  split
  · rfl
  · next tag ht =>
    cases hk : Map.find s.lastReq tag.toNat with
    | none => rfl
    | some k => simpa using h tag k ht hk

theorem exec_queueResetComplete_of_drained (s : State) (key : Nat) (hres : (s.queue key).resetting = true)
    (hdrained : ∀ tag k, (s.queue key).tag = some tag → Map.find s.lastReq tag.toNat = some k →
      k + 256 * (s.fto + s.bound) ≤ s.tbase.toNat) :
    exec (.queueResetComplete key) s = .next (((((({ s with
      outstanding := s.outstanding.filter fun o => (s.queue key).tag != some o.tag } : State).postStatus key
        (statusWord 3 false false 0 0)).unmap key).modQueue key fun q =>
          { q with resetting := false, state := .disabled, err := 0 }).finishPreempts key true).finishFlr (fnOf key)) := by
  simp only [exec_queueResetComplete, execQueueResetComplete, hres, State.drained_of_elapsed hdrained, Bool.not_true, Bool.or_self,
    Bool.false_eq_true, if_false]

/-- Settles O57, event by event. -/
theorem queueEvents : Obligations.QueueEvents := by
  refine ⟨exec_ladderDrainTimeout_of_expired, exec_ladderSaveTimeout_of_ladder, exec_teamSaveComplete_of_savable, ?_,
    exec_timeSliceExpiry_of_due, exec_queueMap_of_eligible, exec_queueUnmap_of_gone, exec_parkedWaitPoll_of_due,
    exec_wsloadUnsealStart_of_unsealed, exec_wsloadComplete_of_copied, exec_queueResetComplete_of_drained⟩
  intro s tid cores t n r prio stamp run ht hn hr hturn members hfit hdie hcv
  have hmembers : s.membersOf tid t = members := by cases hg : t.group <;> simp [State.membersOf, members, hg]
  rw [← hmembers] at hfit hcv ⊢
  exact exec_teamResume_of_fits s tid cores t n r prio stamp run ht hn hr hturn hfit hdie hcv

end Sys2Proof.Machine

/-!
PROOFS. The privileged instructions and hcall.
-/

namespace Sys2Proof.Machine

open Sys2Proof

/-- A field of a word as an arithmetic slice of its value. -/
theorem toNat_fld (x : Word) (lo len : Nat) : (fld x lo len).toNat = x.toNat / 2 ^ lo % 2 ^ len := by
  simp [fld, BitVec.extractLsb'_toNat, Nat.shiftRight_eq_div_pow]

/-- A team outside a firmware run may not execute a privileged instruction: PROTECTION sub 5 (R40). -/
theorem runTeam_of_unprivileged {i : Instr} {s : State} {w : Issuer} {t : Team} {q : Party} (h : IssuesPlain i s w t q)
    (f : Issuer → Team → Party → State → Effect) (hf : f w t q s = .fault s privInsn) :
    runTeam i s f = .next (s.faultAt w q i.word (protection 5)) := by
  rw [runTeam_of_plain h, hf, Effect.unstuck_fault h.calm]
  rfl

@[simp] theorem State.deliverReply_stuck (s : State) (k : Nat) (v : Word) : (s.deliverReply k v).stuck = s.stuck := by
  unfold State.deliverReply
  split <;> simp [State.freeEntry]

@[simp] theorem State.pendScalar_stuck (s : State) (tid p sd op : Nat) : (s.pendScalar tid p sd op).stuck = s.stuck := by
  unfold State.pendScalar
  split <;> simp

/-- What rfe does in a firmware run, where the release of its .sy scope left `s1`. -/
theorem exec_rfe_of_released {d a : SReg} {b : SOp} {s0 s s1 : State} {w : Issuer} {t : Team} {q : Party}
    (h : Executes (.rfe d a b) s0 w s t q) (hp : s.privileged t = true)
    (hr : s.release t.core w.tid w.p q .sy = (s1, none)) (hs : s1.stuck = false) :
    let x := (q.getS w.sl a.toNat).toNat
    let k := 1024 * (x / 2 ^ 30) + x % 1024
    let v := q.bS w.sl b
    let gives (s2 : State) (r : Word) : Prop :=
      exec (.rfe d a b) s0 = .next (s0.after (.rfe d a b) w (s2.modParty w.tid w.p fun q => q.setS w.sl d.toNat r))
    ((s1.hold k).held = none → gives s1 0) ∧
    ∀ u y, (s1.hold k).held = some (u, y) →
      ((s1.hold k).gen ≠ x / 1024 % 2 ^ 20 ∨ (s1.hold k).reply ≠ none → gives s1 0) ∧
      ((s1.hold k).gen = x / 1024 % 2 ^ 20 → (s1.hold k).reply = none →
        let saved : Bool := (Map.find s1.teams u).any fun y => y.state == .saving || y.state == .saved
        (saved = true → gives { s1 with holds := Map.set s1.holds k { s1.hold k with reply := some v } } 1) ∧
        (saved = false → gives (s1.deliverReply k v) 1)) := by
  intro x k v gives
  have hk : 1024 * (fld (q.getS w.sl a.toNat) 30 2).toNat + (fld (q.getS w.sl a.toNat) 0 10).toNat = k := by
    have hlt := (q.getS w.sl a.toNat).isLt
    simp only [toNat_fld, k, x]
    omega
  have hg : (fld (q.getS w.sl a.toNat) 10 20).toNat = x / 1024 % 2 ^ 20 := toNat_fld ..
  simp only [gives, exec_rfe, execRfe]
  refine ⟨fun hn => ?_, fun u y hh => ⟨fun hw => ?_, fun hgen hrep => ⟨fun hsv => ?_, fun hsv => ?_⟩⟩⟩
  · exact runTeam_done h (by simp only [hp, hr, hk, hn]; rfl) (by simpa using hs)
  · have hstale : (s1.hold k).gen ≠ x / 1024 % 2 ^ 20 ∨ (s1.hold k).reply.isSome = true :=
      hw.imp_right Option.isSome_iff_ne_none.2
    exact runTeam_done h (by simp only [hp, hr, hk, hg, hh, if_pos hstale]; rfl) (by simpa using hs)
  all_goals
    have hvalid : ¬((s1.hold k).gen ≠ x / 1024 % 2 ^ 20 ∨ (s1.hold k).reply.isSome = true) := by simp [hgen, hrep]
  · exact runTeam_done h (by simp only [hp, hr, hk, hg, hh, if_neg hvalid, if_pos hsv]; rfl) hs
  · exact runTeam_done h (by simp only [hp, hr, hk, hg, hh, if_neg hvalid, hsv]; rfl) (by simpa using hs)

/-- tlbrng in a firmware run, of a range that starts at a multiple of 64 KiB. -/
theorem exec_tlbrng_of_aligned {d a b : SReg} {s0 s s1 : State} {w : Issuer} {t : Team} {q : Party} {id : Nat}
    (h : Executes (.tlbrng d a b) s0 w s t q) (hp : s.privileged t = true) :
    let start := (q.pairS w.sl a.toNat).toNat % 2 ^ 57
    let n := (q.getS w.sl b.toNat).toNat
    let lo := if n = 0 then 0 else start
    let hi := if n = 0 then 2 ^ 57 else min (start + n * 65536) (2 ^ 57)
    start % 65536 = 0 →
    s.invalidate (BitVec.ofNat 16 (q.getS w.sl (b.toNat + 1)).toNat) lo hi (some (w.tid, w.p, d.toNat)) 0 = (s1, id) →
    s1.stuck = false →
    exec (.tlbrng d a b) s0 = .next (s0.after (.tlbrng d a b) w (s1.pendScalar w.tid w.p d.toNat id)) := by
  intro start n lo hi hstart hinv hs
  have hstart' : ¬q.pairVa w.sl a % 65536 ≠ 0 := not_not.2 hstart
  have hrange : (if (q.getS w.sl b.toNat).toNat = 0 then (0, 2 ^ 57)
      else (q.pairVa w.sl a, min (q.pairVa w.sl a + (q.getS w.sl b.toNat).toNat * 65536) (2 ^ 57))) = (lo, hi) := by
    simp only [lo, hi, n, start, Party.pairVa]
    split <;> rfl
  rw [exec_tlbrng]
  refine runTeam_done h ?_ (by simpa using hs)
  simp only [hp, if_neg hstart', hrange]
  rw [show (q.getS w.sl (b.toNat + 1)).setWidth 16 = BitVec.ofNat 16 (q.getS w.sl (b.toNat + 1)).toNat from rfl, hinv]
  rfl

/-- wsld in a firmware run, whose sectors lie within the weight store and whose banks are not sealed. -/
theorem exec_wsld_of_copied {d a b : SReg} {s0 s s1 : State} {w : Issuer} {t : Team} {q : Party} {bad : Bool}
    (h : Executes (.wsld d a b) s0 w s t q) (hp : s.privileged t = true) :
    let src := (q.pairS w.sl a.toNat).toNat % 2 ^ 57
    let x := (q.getS w.sl b.toNat).toNat
    let die := x / 2 ^ 23 % 4
    let unit := x % 2 ^ 23
    let n := (q.getS w.sl (b.toNat + 1)).toNat % 2 ^ 24
    src % 256 = 0 → 0 < n → unit + n ≤ 2 ^ 23 → (∀ k ∈ banksOf unit n, s.sealed die k = false) →
    s.copySectors (some t.core) (s.tagOf t) true (sext57 src) (weightPa die (256 * unit)) (4 * n) = (s1, .ok bad) →
    s1.stuck = false →
    exec (.wsld d a b) s0 = .next (s0.after (.wsld d a b) w (({ s1 with
      nextId := s1.nextId + 1
      wsCopies := s1.wsCopies ++ [{ id := s1.nextId, dest := some (w.tid, w.p, d.toNat), queue := 0, packet := 0, die := die,
                                    off := unit, len := n, poison := bad }] } : State).pendScalar w.tid w.p d.toNat
        s1.nextId)) := by
  intro src x die unit n hsrc hn hfit hopen hcopy hs
  have hsrc' : ¬q.pairVa w.sl a % 256 ≠ 0 := not_not.2 hsrc
  have hfits : ¬(n = 0 ∨ 2 ^ 23 < unit + n) := by omega
  have hsealed : ¬(banksOf unit n).any (s.sealed die) = true := by simpa using hopen
  have hdie : (fld (q.getS w.sl b.toNat) 23 2).toNat = die := toNat_fld ..
  have hunit : (fld (q.getS w.sl b.toNat) 0 23).toNat = unit := (toNat_fld ..).trans (by rw [pow_zero, Nat.div_one])
  have hlen : (fld (q.getS w.sl (b.toNat + 1)) 0 24).toNat = n := (toNat_fld ..).trans (by rw [pow_zero, Nat.div_one])
  rw [exec_wsld]
  refine runTeam_done h ?_ (by simpa using hs)
  simp only [hp, hdie, hunit, hlen, if_neg hsrc', if_neg hfits, if_neg hsealed]
  rw [show q.pairVa w.sl a = src from rfl, hcopy]
  rfl

/-- A first issue of hcall takes the entry `k` of its die, sends its request and waits. -/
theorem exec_hcall_of_free {d a : SReg} {b : SOp} {s0 s s1 : State} {w : Issuer} {t : Team} {q : Party} {k : Nat}
    (h : Executes (.hcall d a b) s0 w s t q) (hw : (q.slot w.sl).wait ≠ .hcall 0)
    (hr : s.release t.core w.tid w.p q .sy = (s1, none)) (hs : s1.stuck = false) (hno : s1.holdOf w = none)
    (hk : s1.freeHold t.die = some k) :
    ∃ s2 : State, exec (.hcall d a b) s0 = .next (s2.waitOn w (.hcall 0)) ∧ (s2.hold k).held = some (w.tid, w.p, w.sl, d.toNat) ∧
      (s2.hold k).gen = (s1.hold k).gen ∧
      ∃ ws : List Word, s2.sent = s1.sent ++ [Reply.hcall ws] ∧
        ws.take 3 = [q.getS w.sl a.toNat, q.bS w.sl b, holdToken k (s1.hold k).gen] := by
  obtain ⟨q0, hrun⟩ := runTeam_of_executes h _
  rw [exec_hcall, execHcall, hrun, ended_of_no_reads rfl]
  split
  · next hc => exact absurd hc hw
  · simp only [hr, hno, hk, Option.isSome_none, Bool.false_eq_true, if_false]
    rw [Effect.unstuck_wait (by simpa [State.fresh] using hs)]
    simp only [finish]
    refine ⟨_, rfl, ?_, ?_, _, State.modParty_sent .., rfl⟩
    · rw [State.hold, State.modParty_holds, Map.find_set_self]
      rfl
    · rw [State.hold, State.modParty_holds, Map.find_set_self]
      rfl

/-- Settles O51: one instruction at a time, each with its effect in a firmware run; outside one, the fault is its whole effect. -/
theorem privileged : Obligations.Privileged := by
  unfold Obligations.Privileged
  refine ⟨fun s w t q hp => ⟨fun d a b h => ?_, fun d a b h => ?_, fun d a b h => ?_⟩, ?_, ?_, ?_, ?_, ?_⟩
  · rw [exec_rfe]
    exact runTeam_of_unprivileged h _ (by rw [hp]; rfl)
  · rw [exec_tlbrng]
    exact runTeam_of_unprivileged h _ (by rw [hp]; rfl)
  · rw [exec_wsld]
    exact runTeam_of_unprivileged h _ (by rw [hp]; rfl)
  · exact fun d a b s0 w s t q s1 h hp hr hs => exec_rfe_of_released h hp hr hs
  · exact fun d a b s0 w s t q s1 id h hp => exec_tlbrng_of_aligned h hp
  · exact fun d a b s0 w s t q s1 bad h hp => exec_wsld_of_copied h hp
  · exact fun d a b s0 w s t q s1 k h hw hr hs hno hk => exec_hcall_of_free h hw hr hs hno hk
  · intro d a b s w t q h hw hno
    rw [exec_hcall, execHcall, runTeam_of_resumes h]
    simp only [hw, hno, Option.isSome_none, Bool.false_eq_true, if_false, Effect.unstuck_done h.calm]
    rfl

end Sys2Proof.Machine

/-!
PROOFS. The loads and gathers at issue (R184 to R187, R191).
-/

namespace Sys2Proof.Machine

open Sys2Proof

@[simp] theorem State.addAccess_stuck (s : State) (w : Issuer) (a : Access) : (s.addAccess w a).stuck = s.stuck := rfl

/-- A slot has a lane to reach exactly when some lane is active. -/
theorem eaLanes_eq_nil {q : Party} {sl : Bool} {a : SReg} {b : BOp} : q.eaLanes sl a b = [] ↔ q.active sl = 0 := by
  simp only [Party.eaLanes, List.map_eq_nil_iff]
  constructor
  · intro h
    refine BitVec.eq_of_getLsbD_eq fun l hl => ?_
    have hn : ¬l ∈ maskLanes (q.active sl) := by simp [h]
    simpa [mem_maskLanes hl, inMask] using hn
  · intro h
    refine List.eq_nil_iff_forall_not_mem.2 fun l hl => ?_
    simp [mem_maskLanes (lt_of_mem_maskLanes hl), h, inMask] at hl

/-- The mask of a list of lanes holds exactly their bits. -/
theorem getLsbD_foldl_lanes (ls : List LaneAcc) (m : Mask) (l : Nat) (hl : l < 96) :
    (ls.foldl (fun m x => m ||| (1#96 <<< x.lane)) m).getLsbD l = (m.getLsbD l || ls.any fun x => x.lane == l) := by
  induction ls generalizing m with
  | nil => simp
  | cons x xs ih =>
    have hx : (1#96 <<< x.lane).getLsbD l = (x.lane == l) := by
      rw [Bool.eq_iff_iff]
      simp [hl]
      omega
    simp only [List.foldl_cons, ih, BitVec.getLsbD_or, hx, List.any_cons, Bool.or_assoc]

/-- A load of at least one lane, whose translations all are at hand, is outstanding and completes. -/
theorem loadEffect_of_translated {i : Instr} {k : AccKind} {dest : Nat} {z : Size} {o : Option Ord} {pol : Policy}
    {as : Party → List (Nat × DWord)} {w : Issuer} {t : Team} {q : Party} {s s1 : State} {ls : List LaneAcc}
    (hacq : q.acquiring = false) (hne : as q ≠ []) (hbad : badAddress (s.tagOf t) (Size.bytes z) (as q) = none)
    (htr : s.translateAll t.core (s.tagOf t) (s.privileged t) .load (as q) = (s1, .ok ls))
    (hcf : s1.conflicts q false ls (Size.bytes z) = false) :
    loadEffect i k dest z o pol as w t q s =
      .done (({ s1 with nextId := s1.nextId + 1 } : State).addAccess w (newAccess i w q s1.nextId k dest z o pol ls)) := by
  have hne' : (as q).isEmpty = false := by simpa using hne
  simp only [loadEffect, hacq, hne', hbad, htr, hcf, Bool.false_eq_true, if_false]
  rfl

theorem exec_vld_of_translated (d : VReg) (a : SReg) (b : BOp) (o : Option Ord) (pol : Policy) (z : Size) :
    LoadIssues (.vld d a b o pol z) .vld d.toNat z o pol fun sl q => q.eaLanes sl a b := by
  intro s0 w s t q s1 ls h hacq hne hbad htr hs hcf
  rw [exec_vld, execVld]
  exact runTeam_done h (loadEffect_of_translated hacq hne hbad htr hcf) hs

theorem exec_sld_of_translated (d a : SReg) (b : SOp) (z : Size) (o : Ord) (pol : Policy) :
    LoadIssues (.sld d a b z o pol) .sld d.toNat z (some o) pol fun sl q => [(96, q.eaS sl a b)] := by
  intro s0 w s t q s1 ls h hacq hne hbad htr hs hcf
  rw [exec_sld, execSld]
  exact runTeam_done h (loadEffect_of_translated hacq hne hbad htr hcf) hs

/-- Nothing is left for the fault of a gather when no lane has failed, or some lane still waits. -/
theorem failing_of_decided {ls : List LaneAcc} (h : failing ls = none ∨ ∃ x ∈ ls, x.tgt = none ∧ x.failed = none) :
    (if ls.all fun x => x.tgt.isSome || x.failed.isSome then failing ls else none) = none := by
  obtain hf | ⟨x, hx, ht, hf⟩ := h
  · simp [hf]
  · have hw : (ls.all fun x => x.tgt.isSome || x.failed.isSome) = false :=
      List.all_eq_false.2 ⟨x, hx, by simp [ht, hf]⟩
    simp [hw]

section

variable {s0 s : State} {w : Issuer} {t : Team} {q : Party} {d : VReg} {a : SReg} {b : BOp} {o : Option Ord} {pol : Policy}
  {z : Size} {m : SReg}

theorem exec_vld_of_idle (h : Executes (.vld d a b o pol z) s0 w s t q) (hacq : q.acquiring = false) (hact : q.active w.sl = 0) :
    exec (.vld d a b o pol z) s0 = .next (s0.after (.vld d a b o pol z) w s) := by
  rw [exec_vld, execVld]
  refine runTeam_done h ?_ h.calm
  simp [loadEffect, hacq, eaLanes_eq_nil.2 hact]

theorem exec_vldg_of_idle (h : Executes (.vldg d a b o pol z) s0 w s t q) (hacq : q.acquiring = false)
    (hact : q.active w.sl = 0) : exec (.vldg d a b o pol z) s0 = .next (s0.after (.vldg d a b o pol z) w s) := by
  rw [exec_vldg, execVldg]
  refine runTeam_done h ?_ h.calm
  simp [hacq, eaLanes_eq_nil.2 hact]

theorem exec_vldgPart_of_idle (h : Executes (.vldgPart d a b o pol z m) s0 w s t q) (hacq : q.acquiring = false)
    (hact : q.active w.sl = 0) : exec (.vldgPart d a b o pol z m) s0 = .next (s0.after (.vldgPart d a b o pol z m) w s) := by
  rw [exec_vldgPart, execVldgPart]
  refine runTeam_done h ?_ h.calm
  simp [hacq, eaLanes_eq_nil.2 hact]

/-- vldg waits for the translations it lacks as an access (R38). -/
theorem exec_vldg_of_waiting (h : Executes (.vldg d a b o pol z) s0 w s t q) (hacq : q.acquiring = false)
    (hact : q.active w.sl ≠ 0) (hbad : badAddress (s.tagOf t) (Size.bytes z) (q.eaLanes w.sl a b) = none) :
    let i := Instr.vldg d a b o pol z
    let ls := nearLanes s t .load (q.eaLanes w.sl a b)
    s.conflicts q false ls (Size.bytes z) = false →
    (failing ls = none ∨ ∃ x ∈ ls, x.tgt = none ∧ x.failed = none) →
    let s1 := s.startWalks t.core (s.tagOf t) true ls
    s1.stuck = false →
    exec i s0 = .next (s0.after i w (({ s1 with nextId := s1.nextId + 1 } : State).addAccess w
      (newAccess i w q s1.nextId .vldg d.toNat z o pol ls))) := by
  intro i ls hcf hfail s1 hs
  have hne : (q.eaLanes w.sl a b).isEmpty = false := by simpa using mt eaLanes_eq_nil.1 hact
  rw [exec_vldg, execVldg]
  refine runTeam_done h ?_ hs
  simp only [hacq, hne, hbad, Bool.false_eq_true, if_false]
  rw [show ((q.eaLanes w.sl a b).map fun x => s.nearLane t.core (s.tagOf t) (s.privileged t) .load x.1 x.2) = ls from rfl,
    hcf, failing_of_decided hfail]
  rfl

/-- vldg.part reads the lanes that hit and reports the others (R187). -/
theorem exec_vldgPart_of_near (h : Executes (.vldgPart d a b o pol z m) s0 w s t q) (hacq : q.acquiring = false)
    (hact : q.active w.sl ≠ 0) (hbad : badAddress (s.tagOf t) (Size.bytes z) (q.eaLanes w.sl a b) = none) :
    let i := Instr.vldgPart d a b o pol z m
    let ls := nearLanes s t .load (q.eaLanes w.sl a b)
    let hits := ls.filter fun x => x.tgt.isSome
    failing ls = none → s.conflicts q false hits (Size.bytes z) = false →
    let s1 := s.startWalks t.core (s.tagOf t) false ls
    s1.stuck = false →
    ∃ missed : Mask, (∀ l, l < 96 → missed.getLsbD l = ls.any fun x => x.lane == l && x.tgt.isNone) ∧
      let s2 : State := { s1 with nextId := s1.nextId + 1 }
      exec i s0 = .next (s0.after i w (
        if hits = [] then
          s2.modParty w.tid w.p fun q => (q.setTriple w.sl m.toNat missed).raise (OrdForm.gather.eff o).warn
        else s2.addAccess w { newAccess i w q s1.nextId .vldg d.toNat z o pol hits with missed := some (m.toNat, missed) })) := by
  intro i ls hits hfail hcf s1 hs
  refine ⟨(ls.filter fun x => x.tgt.isNone).foldl (fun m x => m ||| (1#96 <<< x.lane)) 0, fun l hl => ?_, ?_⟩
  · rw [getLsbD_foldl_lanes _ _ _ hl, List.any_filter]
    simp [Bool.and_comm]
  · have hne : (q.eaLanes w.sl a b).isEmpty = false := by simpa using mt eaLanes_eq_nil.1 hact
    intro s2
    rw [exec_vldgPart, execVldgPart]
    refine runTeam_done h ?_ (by split <;> exact hs)
    simp only [hacq, hne, hbad, Bool.false_eq_true, if_false]
    rw [show ((q.eaLanes w.sl a b).map fun x => s.nearLane t.core (s.tagOf t) (s.privileged t) .load x.1 x.2) = ls from rfl,
      hfail]
    rw [show (ls.filter fun x => x.tgt.isSome) = hits from rfl, hcf]
    by_cases hh : hits = []
    · simp only [hh, List.isEmpty_nil, if_true]
      rfl
    · have hh' : hits.isEmpty = false := by simpa using hh
      simp only [hh', if_neg hh, Bool.false_eq_true, if_false]
      rfl

end

/-- Settles O31, one kind of load at a time. -/
theorem loadsIssue : Obligations.LoadsIssue := by
  unfold Obligations.LoadsIssue
  refine ⟨exec_vld_of_translated, exec_sld_of_translated, ?_, ?_, ?_⟩
  · exact fun d a b o pol z m s0 w s t q => ⟨exec_vld_of_idle, exec_vldg_of_idle, exec_vldgPart_of_idle⟩
  · exact fun d a b o pol z s0 w s t q => exec_vldg_of_waiting
  · exact fun d a b o pol z m s0 w s t q => exec_vldgPart_of_near

end Sys2Proof.Machine

/-!
PROOFS. Upkeep leaves `cur` alone: only a step's own turn names who issues. One lemma for each function that upkeep reaches, in the
order of the definitions, each by the lemmas about what that function calls (their patterns give them to `grind`).
-/

namespace Sys2Proof.Machine

open Sys2Proof

grind_pattern State.modTeam_cur => State.modTeam s i f
grind_pattern State.modParty_cur => State.modParty s i p f
grind_pattern State.modRun_cur => State.modRun s i f
grind_pattern State.useFree_cur => State.useFree s

theorem State.foldl_cur {α : Type} (f : State → α → State) (s : State) (l : List α) (hf : ∀ s x, (f s x).cur = s.cur) :
    (l.foldl f s).cur = s.cur :=
  List.foldlRecOn (motive := fun r : State => r.cur = s.cur) l f rfl fun r hr x _ => (hf r x).trans hr
grind_pattern State.foldl_cur => List.foldl f s l

theorem State.foldl_pair_cur {α β : Type} (f : State × β → α → State × β) (x : State × β) (l : List α)
    (hf : ∀ x a, (f x a).1.cur = x.1.cur) : (l.foldl f x).1.cur = x.1.cur :=
  List.foldlRecOn (motive := fun r : State × β => r.1.cur = x.1.cur) l f rfl fun r hr a _ => (hf r a).trans hr
grind_pattern State.foldl_pair_cur => List.foldl f x l

/-- What a peer's request comes to leaves `cur` at a value. -/
def Served.keeps (c : Option Who) : Served → Prop
  | .answer s _ | .later s => s.cur = c
  | .held => True

/-! ## Faults, memory and translation -/

theorem State.fresh_cur (s : State) : (State.fresh s).2.cur = s.cur := by
  unfold State.fresh
  grind
grind_pattern State.fresh_cur => State.fresh s

theorem State.takeFault_cur (s : State) (tid : Nat) (o : Origin) (c : Cause) (deferred engine : Bool) (w : Wait) :
    (State.takeFault s tid o c deferred engine w).cur = s.cur := by
  unfold State.takeFault
  grind
grind_pattern State.takeFault_cur => State.takeFault s tid o c deferred engine w

theorem State.laterFault_cur (s : State) (tid : Nat) (o : Origin) (c : Cause) (deferred engine : Bool) :
    (State.laterFault s tid o c deferred engine).cur = s.cur := by
  unfold State.laterFault
  grind
grind_pattern State.laterFault_cur => State.laterFault s tid o c deferred engine

theorem State.copyLine_cur (s : State) (m : Migration) (line : Nat) : (State.copyLine s m line).cur = s.cur := by
  unfold State.copyLine
  grind
grind_pattern State.copyLine_cur => State.copyLine s m line

theorem State.settle_cur (s : State) (pa : Nat) : (State.settle s pa).1.cur = s.cur := by
  unfold State.settle
  grind
grind_pattern State.settle_cur => State.settle s pa

theorem RedEntry.apply_cur (e : RedEntry) (s : State) : (e.apply s).cur = s.cur := rfl
grind_pattern RedEntry.apply_cur => RedEntry.apply e s

theorem State.applyReductions_cur (s : State) (sel : RedEntry → Bool) : (State.applyReductions s sel).cur = s.cur := by
  unfold State.applyReductions
  grind
grind_pattern State.applyReductions_cur => State.applyReductions s sel

theorem State.reach_cur (s : State) (pa n : Nat) : (State.reach s pa n).cur = s.cur := by
  unfold State.reach
  grind
grind_pattern State.reach_cur => State.reach s pa n

theorem State.poke_cur (s : State) (pa : Nat) (bs : List Byte) : (State.poke s pa bs).cur = s.cur := by
  unfold State.poke
  grind
grind_pattern State.poke_cur => State.poke s pa bs

theorem State.pokeLine_cur (s : State) (line : Nat) (bytes : Map Byte) : (State.pokeLine s line bytes).cur = s.cur := by
  unfold State.pokeLine
  grind
grind_pattern State.pokeLine_cur => State.pokeLine s line bytes

theorem State.retryHeld_cur (s : State) (hd0 : HeldStore) : (State.retryHeld s hd0).cur = s.cur := by
  unfold State.retryHeld
  grind
grind_pattern State.retryHeld_cur => State.retryHeld s hd0

theorem State.performHeld_cur (s : State) : (State.performHeld s).cur = s.cur := by
  unfold State.performHeld
  grind
grind_pattern State.performHeld_cur => State.performHeld s

theorem State.fillDie_cur (s : State) (die : Nat) (e : TlbEntry) : (State.fillDie s die e).cur = s.cur := by
  unfold State.fillDie
  grind
grind_pattern State.fillDie_cur => State.fillDie s die e

theorem State.fillTlb_cur (s : State) (core : Nat) (e : TlbEntry) : (State.fillTlb s core e).cur = s.cur := by
  unfold State.fillTlb
  grind
grind_pattern State.fillTlb_cur => State.fillTlb s core e

theorem State.stick_cur (s : State) (b : Bool) : (State.stick s b).cur = s.cur := by
  unfold State.stick
  grind
grind_pattern State.stick_cur => State.stick s b

theorem State.await_cur (s : State) (core : Option Nat) (tag : BitVec 16) (va : Nat) :
    (State.await s core tag va).cur = s.cur := by
  unfold State.await
  grind
grind_pattern State.await_cur => State.await s core tag va

theorem State.missFor_cur (s : State) (core : Option Nat) (tag : BitVec 16) (va : Nat) :
    (State.missFor s core tag va).1.cur = s.cur := by
  unfold State.missFor
  grind
grind_pattern State.missFor_cur => State.missFor s core tag va

theorem State.walkTo_cur (s : State) (tag : BitVec 16) (priv : Bool) (u : Use) (a : Nat) :
    (State.walkTo s tag priv u a).1.cur = s.cur := by
  unfold State.walkTo
  grind
grind_pattern State.walkTo_cur => State.walkTo s tag priv u a

theorem State.registerRead_cur (s : State) (pa lane n : Nat) : (State.registerRead s pa lane n).1.cur = s.cur := by
  unfold State.registerRead
  grind
grind_pattern State.registerRead_cur => State.registerRead s pa lane n

theorem State.peerByte_cur (s : State) (r pa va : Nat) : (State.peerByte s r pa va).1.cur = s.cur := by
  unfold State.peerByte
  grind
grind_pattern State.peerByte_cur => State.peerByte s r pa va

theorem State.readAs_cur {α : Type} (s : State) (r : Reader) (f : State → State × α)
    (hf : ∀ s, (f s).1.cur = s.cur) : (State.readAs s r f).1.cur = s.cur := hf _
grind_pattern State.readAs_cur => State.readAs s r f

theorem State.usedBytes_cur (s : State) (id : Nat) : (State.usedBytes s id).cur = s.cur := by
  unfold State.usedBytes
  grind
grind_pattern State.usedBytes_cur => State.usedBytes s id

theorem State.engineByte_cur (s : State) (core : Option Nat) (t : Target) (va : Nat) :
    (State.engineByte s core t va).1.cur = s.cur := by
  unfold State.engineByte
  grind
grind_pattern State.engineByte_cur => State.engineByte s core t va

/-! ## Requests to peers -/

theorem State.egress_cur (s : State) : (State.egress s).2.cur = s.cur := by
  unfold State.egress
  grind
grind_pattern State.egress_cur => State.egress s

theorem State.nextOrder_cur (s : State) (dst addr : Nat) (op : FabOp) : (State.nextOrder s dst addr op).2.cur = s.cur := by
  unfold State.nextOrder
  grind
grind_pattern State.nextOrder_cur => State.nextOrder s dst addr op

theorem State.request_cur (s : State) (tid : Nat) (party : Option Nat) (acc : Option (Nat × Nat)) (o : Origin)
    (dst addr : Nat) (op : FabOp) (va place lane : Option Nat) (late : Option Team) (lanes : List (Nat × Nat))
    (dev : Bool) (aft : Option Nat) (tag : Option (BitVec 16)) :
    (State.request s tid party acc o dst addr op va place lane late lanes dev aft tag).1.cur = s.cur :=
  State.nextOrder_cur _ _ _ _
grind_pattern State.request_cur => State.request s tid party acc o dst addr op va place lane late lanes dev aft tag

theorem State.stampedPoke_cur (s : State) (place : Option Nat) (pa : Nat) (bs : List Byte) :
    (State.stampedPoke s place pa bs).cur = s.cur := by
  unfold State.stampedPoke
  grind
grind_pattern State.stampedPoke_cur => State.stampedPoke s place pa bs

theorem State.enginePut_cur (s : State) (tid : Nat) (o : Origin) (place : Option Nat) (t : Target) (va : Nat)
    (bs : List Byte) (tag : Option (BitVec 16)) :
    (State.enginePut s tid o place t va bs tag).cur = s.cur := by
  unfold State.enginePut
  grind
grind_pattern State.enginePut_cur => State.enginePut s tid o place t va bs tag

/-! ## Convoys and reductions -/

theorem State.pendStore_cur {s s' : State} {cid : BitVec 24} {ver : Word} {pa : Nat} {bs : List Byte} {source : Option Nat}
    (h : s.pendStore cid ver pa bs source = .ok s') : s'.cur = s.cur := by
  unfold State.pendStore at h
  grind
grind_pattern State.pendStore_cur => State.pendStore s cid ver pa bs source, Except.ok s'

theorem State.commitLine_cur (s : State) (line stamp comp : Nat) : (State.commitLine s line stamp comp).cur = s.cur := by
  unfold State.commitLine
  grind
grind_pattern State.commitLine_cur => State.commitLine s line stamp comp

theorem State.commitLines_cur (s : State) (cid : BitVec 24) (ver : Word) (stamp comp : Nat) :
    (State.commitLines s cid ver stamp comp).cur = s.cur := by
  unfold State.commitLines
  grind
grind_pattern State.commitLines_cur => State.commitLines s cid ver stamp comp

theorem State.prepare_cur (s : State) (cid : BitVec 24) (ver : Word) : (State.prepare s cid ver).cur = s.cur := by
  unfold State.prepare
  grind
grind_pattern State.prepare_cur => State.prepare s cid ver

theorem State.dropPending_cur (s : State) (cid : BitVec 24) (ver : Word) : (State.dropPending s cid ver).cur = s.cur := by
  unfold State.dropPending
  grind
grind_pattern State.dropPending_cur => State.dropPending s cid ver

theorem State.discardConvoy_cur (s : State) (cid : BitVec 24) (ver : Word) : (State.discardConvoy s cid ver).cur = s.cur := by
  unfold State.discardConvoy
  grind
grind_pattern State.discardConvoy_cur => State.discardConvoy s cid ver

theorem State.tellPeers_cur (s : State) (tid : Nat) (ranks : List Nat) (op : FabOp) :
    (State.tellPeers s tid ranks op).cur = s.cur := by
  unfold State.tellPeers
  grind
grind_pattern State.tellPeers_cur => State.tellPeers s tid ranks op

theorem State.abortConvoy_cur (s : State) (cid : BitVec 24) (ver : Word) : (State.abortConvoy s cid ver).cur = s.cur := by
  unfold State.abortConvoy
  grind
grind_pattern State.abortConvoy_cur => State.abortConvoy s cid ver

theorem State.settleAccess_cur (s : State) (tag : BitVec 16) (tid p : Nat) (a : Access) :
    (State.settleAccess s tag tid p a).cur = s.cur := by
  unfold State.settleAccess
  grind
grind_pattern State.settleAccess_cur => State.settleAccess s tag tid p a

theorem State.hostAtomicFails_cur (s : State) (pa : Nat) : (State.hostAtomicFails s pa).1.cur = s.cur := by
  unfold State.hostAtomicFails
  grind
grind_pattern State.hostAtomicFails_cur => State.hostAtomicFails s pa

theorem State.makeRoom_cur (s : State) (pa : Nat) : (State.makeRoom s pa).cur = s.cur := by
  unfold State.makeRoom
  grind
grind_pattern State.makeRoom_cur => State.makeRoom s pa

theorem State.enqueueRed_cur (s : State) (owner : Option (Nat × Nat)) (op : AOp) (ty : ATy) (pa : Nat)
    (add : RedEntry → RedEntry) : (State.enqueueRed s owner op ty pa add).cur = s.cur := by
  unfold State.enqueueRed
  grind
grind_pattern State.enqueueRed_cur => State.enqueueRed s owner op ty pa add

/-! ## Records, joins and copies -/

theorem State.acceptRecs_cur (s : State) (run die node : Nat) (origin : Option Nat) (recs : List Rec) (fault : Bool) :
    (State.acceptRecs s run die node origin recs fault).cur = s.cur := by
  unfold State.acceptRecs
  grind
grind_pattern State.acceptRecs_cur => State.acceptRecs s run die node origin recs fault

theorem State.emitConts_cur (s : State) (run die : Nat) (conts : List (Rec × Option Nat)) :
    (State.emitConts s run die conts).cur = s.cur := by
  unfold State.emitConts
  grind
grind_pattern State.emitConts_cur => State.emitConts s run die conts

theorem State.resolveHere_cur (s : State) (key n : Nat) : (State.resolveHere s key n).1.cur = s.cur := by
  unfold State.resolveHere
  grind
grind_pattern State.resolveHere_cur => State.resolveHere s key n

theorem State.failHere_cur (s : State) (key : Nat) : (State.failHere s key).cur = s.cur := by
  unfold State.failHere
  grind
grind_pattern State.failHere_cur => State.failHere s key

theorem State.allocConvoy_cur {s s' : State} {d : Nat} {x : BitVec 24 × Word} (e : s.allocConvoy d = some (s', x)) :
    s'.cur = s.cur := by
  unfold State.allocConvoy at e
  obtain ⟨n, -, e⟩ := Option.map_eq_some_iff.1 e
  cases e
  rfl
grind_pattern State.allocConvoy_cur => State.allocConvoy s d, some (s', x)

theorem State.openedAway_cur (s : State) (tid p : Nat) (sl : Bool) (home x : Nat) :
    (State.openedAway s tid p sl home x).cur = s.cur := by
  unfold State.openedAway
  grind
grind_pattern State.openedAway_cur => State.openedAway s tid p sl home x

theorem State.committed_cur (s : State) (key : Nat) (c : CvSlot) (stamp : Nat) : (State.committed s key c stamp).cur = s.cur := by
  unfold State.committed
  grind
grind_pattern State.committed_cur => State.committed s key c stamp

theorem State.committedAway_cur (s : State) (cid : BitVec 24) (ver : Word) (stamp : Nat) :
    (State.committedAway s cid ver stamp).cur = s.cur := by
  unfold State.committedAway
  grind
grind_pattern State.committedAway_cur => State.committedAway s cid ver stamp

theorem State.modChan_cur (s : State) (tid ch : Nat) (f : Channel → Channel) : (State.modChan s tid ch f).cur = s.cur := by
  unfold State.modChan
  grind
grind_pattern State.modChan_cur => State.modChan s tid ch f

theorem State.setCmd_cur (s : State) (tid ch : Nat) (c : CopyCmd) : (State.setCmd s tid ch c).cur = s.cur := by
  unfold State.setCmd
  grind
grind_pattern State.setCmd_cur => State.setCmd s tid ch c

theorem State.multicastIn_cur (s : State) (t : Team) (c : CopyCmd) : (State.multicastIn s t c).cur = s.cur := by
  unfold State.multicastIn
  grind
grind_pattern State.multicastIn_cur => State.multicastIn s t c

theorem State.landed_cur (s : State) (tid ch : Nat) : (State.landed s tid ch).cur = s.cur := by
  unfold State.landed
  grind
grind_pattern State.landed_cur => State.landed s tid ch

/-! ## Queues, packets and signals -/

theorem State.setQueue_cur (s : State) (key : Nat) (q : Queue) : (State.setQueue s key q).cur = s.cur := by
  unfold State.setQueue
  grind
grind_pattern State.setQueue_cur => State.setQueue s key q

theorem State.modQueue_cur (s : State) (key : Nat) (f : Queue → Queue) : (State.modQueue s key f).cur = s.cur := by
  unfold State.modQueue
  grind
grind_pattern State.modQueue_cur => State.modQueue s key f

theorem State.modFn_cur (s : State) (f : Nat) (g : FnPage → FnPage) : (State.modFn s f g).cur = s.cur := by
  unfold State.modFn
  grind
grind_pattern State.modFn_cur => State.modFn s f g

theorem State.failQueue_cur (s : State) (key err : Nat) : (State.failQueue s key err).cur = s.cur := by
  unfold State.failQueue
  grind
grind_pattern State.failQueue_cur => State.failQueue s key err

theorem State.queueTarget_cur (s : State) (key : Nat) (u : Use) (va : Nat) : (State.queueTarget s key u va).1.cur = s.cur := by
  unfold State.queueTarget
  grind
grind_pattern State.queueTarget_cur => State.queueTarget s key u va

theorem State.queueBytes_cur (s : State) (key va n : Nat) : (State.queueBytes s key va n).1.cur = s.cur := by
  fun_induction State.queueBytes s key va n <;> grind
grind_pattern State.queueBytes_cur => State.queueBytes s key va n

theorem State.queueRead_cur (s : State) (key va n : Nat) : (State.queueRead s key va n).1.cur = s.cur := by
  unfold State.queueRead
  grind
grind_pattern State.queueRead_cur => State.queueRead s key va n

theorem State.queueWrite_cur {s s' : State} {key va : Nat} {bs : List Byte} (h : s.queueWrite key va bs = some s') :
    s'.cur = s.cur := by
  unfold State.queueWrite at h
  grind
grind_pattern State.queueWrite_cur => State.queueWrite s key va bs, some s'

theorem State.queueWrite_getD_cur (s : State) (key va : Nat) (bs : List Byte) : ((s.queueWrite key va bs).getD s).cur = s.cur := by
  cases h : s.queueWrite key va bs with
  | none => rfl
  | some s' => exact State.queueWrite_cur h
grind_pattern State.queueWrite_getD_cur => (State.queueWrite s key va bs).getD s

theorem State.evalWait_cur (s : State) (key : Nat) (w : Rec) : (State.evalWait s key w).1.cur = s.cur := by
  unfold State.evalWait
  grind
grind_pattern State.evalWait_cur => State.evalWait s key w

theorem State.putSignal_cur (s : State) (key : Nat) (va : DWord) (op : SigOp) (v : DWord) :
    (State.putSignal s key va op v).cur = s.cur := by
  unfold State.putSignal
  grind
grind_pattern State.putSignal_cur => State.putSignal s key va op v

theorem State.modPacket_cur (s : State) (key idx : Nat) (f : Packet → Packet) : (State.modPacket s key idx f).cur = s.cur := by
  unfold State.modPacket
  grind
grind_pattern State.modPacket_cur => State.modPacket s key idx f

theorem State.marked_cur (s : State) (key idx : Nat) : (State.marked s key idx).cur = s.cur := by
  unfold State.marked
  grind
grind_pattern State.marked_cur => State.marked s key idx

theorem State.takeOut_cur (s : State) (key idx : Nat) : (State.takeOut s key idx).1.cur = s.cur := by
  unfold State.takeOut
  grind
grind_pattern State.takeOut_cur => State.takeOut s key idx

theorem State.testWaits_cur (s : State) (keys : List Nat) : (State.testWaits s keys).1.cur = s.cur := by
  unfold State.testWaits
  grind
grind_pattern State.testWaits_cur => State.testWaits s keys

theorem State.signalled_cur (s : State) (w : SigWrite) (id : Nat) : (State.signalled s w id).1.cur = s.cur := by
  unfold State.signalled
  grind
grind_pattern State.signalled_cur => State.signalled s w id

theorem State.writeSignals_cur (s : State) (todo : List SigWrite) (fuel : Nat) :
    (State.writeSignals s todo fuel).cur = s.cur := by
  fun_induction State.writeSignals s todo fuel <;> grind
grind_pattern State.writeSignals_cur => State.writeSignals s todo fuel

theorem State.completePacket_cur (s : State) (key idx : Nat) : (State.completePacket s key idx).cur = s.cur := by
  unfold State.completePacket
  grind
grind_pattern State.completePacket_cur => State.completePacket s key idx

theorem State.signal_cur (s : State) (key : Nat) (va : DWord) (op : SigOp) (v : DWord) (pkt : Option Nat) :
    (State.signal s key va op v pkt).cur = s.cur := by
  unfold State.signal
  grind
grind_pattern State.signal_cur => State.signal s key va op v pkt

theorem State.signalLanded_cur (s : State) (id : Nat) : (State.signalLanded s id).cur = s.cur := by
  unfold State.signalLanded
  grind
grind_pattern State.signalLanded_cur => State.signalLanded s id

theorem State.postStatus_cur (s : State) (key : Nat) (w : Word) : (State.postStatus s key w).cur = s.cur := by
  unfold State.postStatus
  grind
grind_pattern State.postStatus_cur => State.postStatus s key w

/-! ## The end of a run -/

theorem State.finishPreempts_cur (s : State) (target : Nat) (reset : Bool) :
    (State.finishPreempts s target reset).cur = s.cur := by
  unfold State.finishPreempts
  grind
grind_pattern State.finishPreempts_cur => State.finishPreempts s target reset

theorem State.writeReports_cur (s : State) (r : Run) (flag : BitVec 8) : (State.writeReports s r flag).1.cur = s.cur := by
  unfold State.writeReports
  grind
grind_pattern State.writeReports_cur => State.writeReports s r flag

theorem State.writeResult_cur (s : State) (key result code detail : Nat) :
    (State.writeResult s key result code detail).1.cur = s.cur := by
  unfold State.writeResult
  grind
grind_pattern State.writeResult_cur => State.writeResult s key result code detail

theorem State.endLaunch_cur (s : State) (key idx result doneSig : Nat) (doneVal : DWord) (code detail : Nat)
    (signal bad : Bool) :
    (State.endLaunch s key idx result doneSig doneVal code detail signal bad).cur = s.cur := by
  unfold State.endLaunch
  grind
grind_pattern State.endLaunch_cur => State.endLaunch s key idx result doneSig doneVal code detail signal bad

theorem State.clearJoins_cur (s : State) (run : Nat) (completes : Bool) : (State.clearJoins s run completes).cur = s.cur := by
  unfold State.clearJoins
  grind
grind_pattern State.clearJoins_cur => State.clearJoins s run completes

theorem State.freeReserves_cur (s : State) (r : Run) : (State.freeReserves s r).cur = s.cur := by
  unfold State.freeReserves
  grind
grind_pattern State.freeReserves_cur => State.freeReserves s r

theorem State.endRun_cur (s : State) (run code : Nat) (flag : BitVec 8) (signal : Bool) :
    (State.endRun s run code flag signal).cur = s.cur := by
  unfold State.endRun
  grind
grind_pattern State.endRun_cur => State.endRun s run code flag signal

theorem State.logFault_cur (s : State) (r : Run) (rec : Rec) : (State.logFault s r rec).cur = s.cur := by
  unfold State.logFault
  grind
grind_pattern State.logFault_cur => State.logFault s r rec

theorem State.note_cur (s : State) (src agent : Nat) (seqno : BitVec 16) (v : DWord) :
    (State.note s src agent seqno v).cur = s.cur := by
  unfold State.note
  grind
grind_pattern State.note_cur => State.note s src agent seqno v

theorem State.drainCheck_cur (s : State) (key : Nat) : (State.drainCheck s key).cur = s.cur := by
  unfold State.drainCheck
  grind
grind_pattern State.drainCheck_cur => State.drainCheck s key

theorem State.saveCheck_cur (s : State) (key : Nat) : (State.saveCheck s key).cur = s.cur := by
  unfold State.saveCheck
  grind
grind_pattern State.saveCheck_cur => State.saveCheck s key

theorem State.ladderCheck_cur (s : State) (key : Nat) : (State.ladderCheck s key).cur = s.cur := by
  unfold State.ladderCheck
  grind
grind_pattern State.ladderCheck_cur => State.ladderCheck s key

theorem State.deliverFault_cur (s : State) (run : Nat) (r : Run) (t : Team) (f : FaultRec) (fatal : Bool) :
    (State.deliverFault s run r t f fatal).cur = s.cur := by
  unfold State.deliverFault
  grind
grind_pattern State.deliverFault_cur => State.deliverFault s run r t f fatal

theorem State.lateFault_cur (s : State) (t : Team) (c : Cause) : (State.lateFault s t c).cur = s.cur := by
  unfold State.lateFault
  grind
grind_pattern State.lateFault_cur => State.lateFault s t c

theorem State.stopRun_cur (s : State) (run : Nat) : (State.stopRun s run).cur = s.cur := by
  unfold State.stopRun
  grind
grind_pattern State.stopRun_cur => State.stopRun s run

theorem State.fatalEnd_cur (s : State) (run : Nat) : (State.fatalEnd s run).cur = s.cur := by
  unfold State.fatalEnd
  grind
grind_pattern State.fatalEnd_cur => State.fatalEnd s run

theorem State.watchDead_cur (s : State) : (State.watchDead s).cur = s.cur := by
  unfold State.watchDead
  grind
grind_pattern State.watchDead_cur => State.watchDead s

/-! ## Serving a request -/

theorem State.bringOver_cur (s : State) (pa : Nat) : (State.bringOver s pa).cur = s.cur := by
  unfold State.bringOver
  grind
grind_pattern State.bringOver_cur => State.bringOver s pa

theorem State.pokeAll_cur (s : State) (place : Option Nat) (pa : Nat) (bs : List Byte) :
    (State.pokeAll s place pa bs).cur = s.cur := by
  unfold State.pokeAll
  grind
grind_pattern State.pokeAll_cur => State.pokeAll s place pa bs

theorem State.pendRuns_cur {s s' : State} {cid : BitVec 24} {ver : Word} {pa : Nat} {source : Option Nat}
    {rs : List (Nat × List Byte)} (h : s.pendRuns cid ver pa source rs = .ok s') : s'.cur = s.cur := by
  fun_induction State.pendRuns s cid ver pa source rs <;> grind
grind_pattern State.pendRuns_cur => State.pendRuns s cid ver pa source rs, Except.ok s'

theorem State.recordAtomic_cur (s : State) (r : FabReq) (v : DWord) : (State.recordAtomic s r v).cur = s.cur := by
  unfold State.recordAtomic
  grind
grind_pattern State.recordAtomic_cur => State.recordAtomic s r v

theorem State.serveAtomic_cur (s : State) (r : FabReq) (op : AOp) (ty : ATy) (x new : DWord) (returns : Bool) :
    (State.serveAtomic s r op ty x new returns).keeps s.cur := by
  unfold State.serveAtomic
  grind [Served.keeps]
grind_pattern State.serveAtomic_cur => State.serveAtomic s r op ty x new returns

theorem State.serveReduce_cur (s : State) (r : FabReq) (op : AOp) (ty : ATy) (c : ℤ × Nat) (acquires : Bool) :
    (State.serveReduce s r op ty c acquires).keeps s.cur := by
  unfold State.serveReduce
  grind [Served.keeps]
grind_pattern State.serveReduce_cur => State.serveReduce s r op ty c acquires

theorem State.replayed_cur {s : State} {r : FabReq} {x : Served} (h : s.replayed r = some x) : x.keeps s.cur := by
  unfold State.replayed at h
  grind [Served.keeps, Option.map_eq_some_iff]
grind_pattern State.replayed_cur => State.replayed s r, some x

theorem State.serveMemory_cur (s : State) (r : FabReq) : (State.serveMemory s r).keeps s.cur := by
  unfold State.serveMemory
  split <;> grind [Served.keeps]
grind_pattern State.serveMemory_cur => State.serveMemory s r

theorem State.serveEmission_cur (s : State) (r : FabReq) (ident die : Nat) (ns : Bool) (recs : List Rec) :
    (State.serveEmission s r ident die ns recs).keeps s.cur := by
  unfold State.serveEmission
  grind [Served.keeps]
grind_pattern State.serveEmission_cur => State.serveEmission s r ident die ns recs

theorem State.serveConvoy_cur (s : State) (r : FabReq) : (State.serveConvoy s r).keeps s.cur := by
  unfold State.serveConvoy
  split <;> grind [Served.keeps]
grind_pattern State.serveConvoy_cur => State.serveConvoy s r

theorem State.register_cur {s s' : State} {h : Word} {rec : Rec} {cluster : Option Nat}
    (e : s.register h rec cluster = .done s') : s'.cur = s.cur := by
  unfold State.register at e
  grind
grind_pattern State.register_cur => State.register s h rec cluster, Registered.done s'

theorem State.serve_cur (s : State) (r : FabReq) : (State.serve s r).keeps s.cur := by
  unfold State.serve
  cases r.op
  case withdraw =>
    dsimp only
    split
    · rfl
    · rfl
    · exact State.note_cur ..
  all_goals
    dsimp only
    grind [Served.keeps]
grind_pattern State.serve_cur => State.serve s r

theorem State.passed_cur (s : State) (r : FabReq) : (State.passed s r).cur = s.cur := by
  unfold State.passed
  grind
grind_pattern State.passed_cur => State.passed s r

theorem State.answer_cur (s : State) (r : FabReq) (a : FabResp) : (State.answer s r a).cur = s.cur := by
  unfold State.answer
  grind
grind_pattern State.answer_cur => State.answer s r a

theorem State.performRequest_cur (s : State) (r : FabReq) : (State.performRequest s r).cur = s.cur := by
  unfold State.performRequest
  grind [Served.keeps]
grind_pattern State.performRequest_cur => State.performRequest s r

theorem State.inTurn_cur (s : State) (r : FabReq) : (State.inTurn s r).cur = s.cur := by
  unfold State.inTurn
  grind [Served.keeps]
grind_pattern State.inTurn_cur => State.inTurn s r

/-! ## Responses and upkeep -/

theorem State.readmit_cur (s : State) : (State.readmit s).cur = s.cur := by
  unfold State.readmit
  grind
grind_pattern State.readmit_cur => State.readmit s

theorem State.forget_cur (s : State) (o : Outstanding) : (State.forget s o).cur = s.cur := by
  unfold State.forget
  grind
grind_pattern State.forget_cur => State.forget s o

theorem State.lose_cur (s : State) (o : Outstanding) : (State.lose s o).cur = s.cur := by
  unfold State.lose
  grind
grind_pattern State.lose_cur => State.lose s o

theorem State.failRequest_cur (s : State) (o : Outstanding) (c : Cause) (deferred : Bool) :
    (State.failRequest s o c deferred).cur = s.cur := by
  unfold State.failRequest
  grind
grind_pattern State.failRequest_cur => State.failRequest s o c deferred

theorem State.fillLanes_cur (s : State) (o : Outstanding) (a : Nat × Nat) (f : Nat → Nat → LaneAcc → LaneAcc) :
    (State.fillLanes s o a f).cur = s.cur := by
  unfold State.fillLanes
  grind
grind_pattern State.fillLanes_cur => State.fillLanes s o a f

theorem State.fillRead_cur (s : State) (o : Outstanding) (a : Nat × Nat) (v : Nat) : (State.fillRead s o a v).cur = s.cur := by
  unfold State.fillRead
  grind
grind_pattern State.fillRead_cur => State.fillRead s o a v

theorem State.brought_cur (s : State) (o : Outstanding) (id v : Nat) : (State.brought s o id v).cur = s.cur := by
  unfold State.brought
  grind
grind_pattern State.brought_cur => State.brought s o id v

theorem State.withdrawn_cur (s : State) (o : Outstanding) (seqno : BitVec 16) : (State.withdrawn s o seqno).cur = s.cur := by
  unfold State.withdrawn
  grind
grind_pattern State.withdrawn_cur => State.withdrawn s o seqno

theorem State.readBack_cur (s : State) (o : Outstanding) (v : Nat) : (State.readBack s o v).cur = s.cur := by
  unfold State.readBack
  cases o.req.op <;> cases o.party <;> cases o.access <;> dsimp only <;> grind
grind_pattern State.readBack_cur => State.readBack s o v

theorem State.loseView_cur (s : State) (o : Outstanding) (a : Nat × Nat) : (State.loseView s o a).cur = s.cur := by
  unfold State.loseView
  grind
grind_pattern State.loseView_cur => State.loseView s o a

theorem State.refuse_cur (s : State) (o : Outstanding) (cause sub : Nat) : (State.refuse s o cause sub).cur = s.cur := by
  unfold State.refuse
  grind
grind_pattern State.refuse_cur => State.refuse s o cause sub

theorem State.took_cur (s : State) (o : Outstanding) : (State.took s o).cur = s.cur := by
  unfold State.took
  grind
grind_pattern State.took_cur => State.took s o

theorem State.acknowledge_cur (s : State) (o : Outstanding) : (State.acknowledge s o).cur = s.cur := by
  unfold State.acknowledge
  grind
grind_pattern State.acknowledge_cur => State.acknowledge s o

theorem State.closeFails_cur (s : State) (o : Outstanding) (cid : BitVec 24) (ver : Word) :
    (State.closeFails s o cid ver).cur = s.cur := by
  unfold State.closeFails
  grind
grind_pattern State.closeFails_cur => State.closeFails s o cid ver

theorem State.joinFault_cur (s : State) (o : Outstanding) (cause sub : Nat) : (State.joinFault s o cause sub).cur = s.cur := by
  unfold State.joinFault
  grind
grind_pattern State.joinFault_cur => State.joinFault s o cause sub

theorem State.respond_cur (s : State) (o : Outstanding) (r : FabResp) : (State.respond s o r).cur = s.cur := by
  unfold State.respond
  grind
grind_pattern State.respond_cur => State.respond s o r

theorem State.serveOne_cur (s : State) (o : Outstanding) : (State.serveOne s o).cur = s.cur := by
  unfold State.serveOne
  grind [Served.keeps]
grind_pattern State.serveOne_cur => State.serveOne s o

theorem State.ownAnswers_cur (s : State) : (State.ownAnswers s).cur = s.cur := by
  unfold State.ownAnswers
  grind
grind_pattern State.ownAnswers_cur => State.ownAnswers s

theorem State.serveOwn_cur (s : State) : (State.serveOwn s).cur = s.cur := by
  unfold State.serveOwn
  grind
grind_pattern State.serveOwn_cur => State.serveOwn s

theorem State.findPorts_cur (s : State) : (State.findPorts s).cur = s.cur := by
  unfold State.findPorts
  grind
grind_pattern State.findPorts_cur => State.findPorts s

theorem State.upkeep_cur (s : State) : (State.upkeep s).cur = s.cur := by
  unfold State.upkeep
  grind
grind_pattern State.upkeep_cur => State.upkeep s

end Sys2Proof.Machine

/-!
PROOFS. A step that an issuer or an event takes (O5, O6).
-/

namespace Sys2Proof.Machine

open Sys2Proof

theorem State.cycle_upkeep_cur (s : State) : s.upkeep.cycle.cur = s.cur :=
  (State.pass_cur ..).trans s.upkeep_cur

/-! ## What a fault leaves of the turn's misses and wants -/

@[simp] theorem State.takeFault_stuck (s : State) (tid : Nat) (o : Origin) (c : Cause) (deferred engine : Bool) (x : Wait) :
    (s.takeFault tid o c deferred engine x).stuck = s.stuck := by
  unfold State.takeFault
  split <;> rfl

@[simp] theorem State.takeFault_missed (s : State) (tid : Nat) (o : Origin) (c : Cause) (deferred engine : Bool) (x : Wait) :
    (s.takeFault tid o c deferred engine x).missed = s.missed := by
  unfold State.takeFault
  split <;> rfl

@[simp] theorem State.takeFault_wanted (s : State) (tid : Nat) (o : Origin) (c : Cause) (deferred engine : Bool) (x : Wait) :
    (s.takeFault tid o c deferred engine x).wanted = s.wanted := by
  unfold State.takeFault
  split <;> rfl

/-! ## Fetching -/

theorem State.fetch_party {s : State} {tid p : Nat} {sl : Bool} {t : Team} {q : Party} (hcur : s.cur = some (.party tid p sl))
    (ht : Map.find s.teams tid = some t) (hq : Map.find t.parties p = some q) :
    s.fetch (.party tid p sl) = s.fetchParty ⟨tid, p, sl⟩ t q := by
  have hs : ({ s with cur := some (.party tid p sl) } : State) = s := by rw [← hcur]
  simp only [State.fetch, ht, hq, hs]

theorem State.fetch_seq {s : State} {tid : Nat} {t : Team} {q : Sequencer} (hcur : s.cur = some (.seq tid))
    (ht : Map.find s.teams tid = some t) (hq : t.seq = some q) : s.fetch (.seq tid) = s.fetchSeq tid t q := by
  have hs : ({ s with cur := some (.seq tid) } : State) = s := by rw [← hcur]
  simp only [State.fetch, ht, hq, hs]

/-- The fetch of an issuer inside a clause of class `cls` has brought the words `ws` and left `s1`: what they decode to runs
there, or is the fault that `flt` takes there. -/
structure Fetches (s s1 : State) (w : Who) (ws : List Word) (cls : Nat) (flt : Cause → State) : Prop where
  entered : s.entered w = true
  decoded : ∀ i, decode (ws.headD 0) ws.tail = .ok i → s.fetch w = if i.cls = cls then .go s1 i else .faulted (flt illegalClass)
  undecoded : ∀ r, decode (ws.headD 0) ws.tail = .error r → s.fetch w = .faulted (flt illegalInstruction)
  stuck : ∀ c, (flt c).stuck = s1.stuck
  undo : ∀ c s o, State.undo s (some w) o (flt c) = s.undo (some w) o s1

namespace Fetches

variable {s s1 : State} {w : Who} {ws : List Word} {cls : Nat} {flt : Cause → State} {i : Instr} {r : Reject}

/-- Inside a clause an issuer's turn is one instruction. -/
theorem issue_eq (h : Fetches s s1 w ws cls flt) : issue w s = runFetched exec w s (s.fetch w) := by
  unfold issue issueBy
  simp only [h.entered, Bool.true_or, if_true]
  cases runFetched exec w s (s.fetch w) <;> rfl

theorem issue_of_stuck (h : Fetches s s1 w ws cls flt) (hs : s1.stuck = true) : issue w s = .next (setBack s s1 w) := by
  have hfault (c : Cause) : runFetched exec w s (.faulted (flt c)) = .next (setBack s s1 w) := by
    simp only [runFetched, h.stuck, hs, if_true, h.undo, setBack]
  rw [h.issue_eq]
  cases hd : decode (ws.headD 0) ws.tail with
  | error r => rw [h.undecoded r hd, hfault]
  | ok i =>
    rw [h.decoded i hd]
    split
    · simp only [runFetched, hs, if_true, setBack]
    · exact hfault _

theorem issue_of_faulted (h : Fetches s s1 w ws cls flt) (hs : s1.stuck = false) (c : Cause)
    (hf : s.fetch w = .faulted (flt c)) : issue w s = .next (flt c) := by
  rw [h.issue_eq, hf]
  simp only [runFetched, h.stuck, hs, Bool.false_eq_true, if_false]

theorem issue_of_undecoded (h : Fetches s s1 w ws cls flt) (hs : s1.stuck = false)
    (hd : decode (ws.headD 0) ws.tail = .error r) : issue w s = .next (flt illegalInstruction) :=
  h.issue_of_faulted hs _ (h.undecoded r hd)

theorem issue_of_otherClass (h : Fetches s s1 w ws cls flt) (hs : s1.stuck = false)
    (hd : decode (ws.headD 0) ws.tail = .ok i) (hc : i.cls ≠ cls) : issue w s = .next (flt illegalClass) :=
  h.issue_of_faulted hs _ ((h.decoded i hd).trans (if_neg hc))

theorem issue_of_decoded (h : Fetches s s1 w ws cls flt) (hs : s1.stuck = false)
    (hd : decode (ws.headD 0) ws.tail = .ok i) (hc : i.cls = cls) (he : isEvent i = false) :
    issue w s = match exec i s1 with
      | .next s2 => .next (if s2.stuck then setBack s s2 w else s2.issued w (s.waitBy w))
      | e => e := by
  rw [h.issue_eq, h.decoded i hd, if_pos hc]
  simp only [runFetched, hs, Bool.false_eq_true, if_false]
  cases exec i s1
  case next s2 => simp only [he, Bool.false_eq_true, if_false, setBack]
  all_goals rfl

end Fetches

theorem undo_takeFault (s s1 : State) (who : Option Who) (o o' : Origin) (tid : Nat) (c : Cause) (x : Wait) :
    s.undo who o (s1.takeFault tid o' c false false x) = s.undo who o s1 := by
  simp only [State.undo, State.takeFault_missed, State.takeFault_wanted]

/-- A slot of a running team, inside a clause, fetches. -/
theorem fetches_party {s s1 : State} {tid p : Nat} {sl : Bool} {t : Team} {q : Party} {c : Clause} {ws : List Word}
    (hcur : s.cur = some (.party tid p sl)) (ht : Map.find s.teams tid = some t) (hq : Map.find t.parties p = some q)
    (hrun : t.running = true) (hlive : (q.slot sl).live = true) (hy : q.yielded = false) (hg : s.isGated t.core = false)
    (hc : (q.slot sl).clause = some c) (hw : s.fetchWords t (q.slot sl).pc (wordsLeft (q.slot sl).pc c) = (s1, .ok ws)) :
    Fetches s s1 (.party tid p sl) ws c.cls fun x => s1.faultAt ⟨tid, p, sl⟩ q (ws.headD 0) x where
  entered := by simp [State.entered, State.party?_eq, ht, hq, hc]
  decoded i hd := by
    rw [State.fetch_party hcur ht hq]
    simp only [State.fetchParty, hrun, hlive, hy, hg, hc, hw, hd, Bool.not_true, Bool.or_false, Bool.false_eq_true, if_false]
  undecoded r hd := by
    rw [State.fetch_party hcur ht hq]
    simp only [State.fetchParty, hrun, hlive, hy, hg, hc, hw, hd, Bool.not_true, Bool.or_false, Bool.false_eq_true, if_false]
  stuck _ := State.takeFault_stuck ..
  undo _ _ _ := undo_takeFault ..

/-- A sequencer of a running team, inside a clause, fetches. -/
theorem fetches_seq {s s1 : State} {tid : Nat} {t : Team} {q : Sequencer} {c : Clause} {ws : List Word}
    (hcur : s.cur = some (.seq tid)) (ht : Map.find s.teams tid = some t) (hq : t.seq = some q)
    (hrun : t.running = true) (hgo : q.stopped = false) (hc : q.clause = some c)
    (hw : s.fetchWords t q.pc (wordsLeft q.pc c) = (s1, .ok ws)) :
    Fetches s s1 (.seq tid) ws c.cls fun x => s1.takeFault tid (seqOrigin q (ws.headD 0)) x false false .none where
  entered := by simp [State.entered, ht, hq, hc]
  decoded i hd := by
    rw [State.fetch_seq hcur ht hq]
    simp only [State.fetchSeq, hrun, hgo, hc, hw, hd, Bool.not_true, Bool.or_false, Bool.false_eq_true, if_false]
  undecoded r hd := by
    rw [State.fetch_seq hcur ht hq]
    simp only [State.fetchSeq, hrun, hgo, hc, hw, hd, Bool.not_true, Bool.or_false, Bool.false_eq_true, if_false]
  stuck _ := State.takeFault_stuck ..
  undo _ _ _ := undo_takeFault ..

/-! ## Turns -/

section

variable {s : State} {tid p : Nat} {sl : Bool} {t : Team} {q : Party}

theorem issueTurn_of_turn (ht : Map.find s.teams tid = some t) (hq : Map.find t.parties p = some q)
    (hturn : turnOf s t q tid p sl) : s.issueTurn issue (.party tid p sl) = issue (.party tid p sl) s := by
  have hp : s.party? tid p = some q := by simp [State.party?_eq, ht, hq]
  have halone : (s.alone t.core q tid p sl || !readyBy issue s (.party tid p sl)) = true := by
    simpa [turnOf] using hturn
  simp only [State.issueTurn, ht, hp, halone, if_true]

theorem issueTurn_of_contended {c : Contender} {rest : List Contender} (ht : Map.find s.teams tid = some t)
    (hq : Map.find t.parties p = some q) (hturn : ¬turnOf s t q tid p sl) (hc : s.contenders issue t.core q.track = c :: rest) :
    s.issueTurn issue (.party tid p sl) =
      if (firstOf c rest).tid = tid ∧ (firstOf c rest).p = p ∧ (firstOf c rest).sl = sl then s.trackCycle issue t.core q.track
      else .next s := by
  have hp : s.party? tid p = some q := by simp [State.party?_eq, ht, hq]
  have halone : (s.alone t.core q tid p sl || !readyBy issue s (.party tid p sl)) = false := by
    simpa [turnOf] using hturn
  simp only [State.issueTurn, ht, hp, halone, hc, Bool.false_eq_true, if_false]

end

theorem step_of_cur {s : State} {w : Who} (ha : s.agenda = []) (hcur : s.cur = some w) :
    step s = s.upkeep.cycle.issueTurn issue w := by
  simp only [step, ha, hcur]

/-- Settles O5: a fetch inside a clause, of a party's slot or of a sequencer, and the choice of the track. -/
theorem stepRunsIssuer : Obligations.StepRunsIssuer := by
  unfold Obligations.StepRunsIssuer
  refine ⟨?_, ?_, ?_⟩
  · intro s0 s1 tid p sl t q c ws i ha hcur s w ht hq hturn hrun hlive hy hg hc hw
    rw [step_of_cur ha hcur, issueTurn_of_turn ht hq hturn]
    have hf := fetches_party (s0.cycle_upkeep_cur.trans hcur) ht hq hrun hlive hy hg hc hw
    exact ⟨hf.issue_of_stuck, fun hs => ⟨hf.issue_of_decoded hs, hf.issue_of_otherClass hs, fun r => hf.issue_of_undecoded hs⟩⟩
  · intro s0 tid p sl t q c rest ha hcur s ht hq hturn hc best
    rw [step_of_cur ha hcur, issueTurn_of_contended ht hq hturn hc]
    exact ⟨fun hb => if_pos hb, fun hb => if_neg hb⟩
  · intro s0 s1 tid t q c ws i ha hcur s w ht hq hrun hgo hc hw
    rw [step_of_cur ha hcur, show s0.upkeep.cycle.issueTurn issue (.seq tid) = issue (.seq tid) s from rfl]
    have hf := fetches_seq (s0.cycle_upkeep_cur.trans hcur) ht hq hrun hgo hc hw
    exact ⟨hf.issue_of_stuck, fun hs hd he =>
      ⟨fun hcls => hf.issue_of_decoded hs hd hcls he, hf.issue_of_otherClass hs hd⟩⟩

/-! ## Events and clause boundaries -/

/-- An event takes its own turn; CLAUSE_ISSUE has a turn of its own. -/
theorem act_event {e : Instr} (he : isEvent e = true) (hc : ∀ w, e ≠ .clauseIssue w) (s : State) : act (.event e) s = event e s := by
  unfold act
  split
  case h_1 h => exact absurd (Act.event.inj h) (hc _)
  case h_2 h =>
    cases h
    exact if_pos he
  all_goals contradiction

theorem act_clauseIssue (w : Who) (s : State) :
    act (.event (.clauseIssue w)) s = if s.entered w then .next s else s.issueTurn issue w := rfl

theorem act_instruction {e : Instr} (he : isEvent e = false) (s : State) : act (.event e) s = .refused .notAnEvent := by
  unfold act
  split
  case h_1 h =>
    cases h
    cases he
  case h_2 h =>
    cases h
    simp only [he, Bool.false_eq_true, if_false]
  all_goals contradiction

theorem event_of_next {e : Instr} {s s1 : State} (h : exec e s = .next s1) :
    event e s = .next (if s1.stuck then s.undo none noOrigin s1 else s1) := by
  simp only [event, h]

theorem step_of_event {s : State} {dclk : Nat} {dtb : Nat} {e : Instr} {rest : List Turn}
    (h : s.agenda = ⟨dclk, dtb, .event e⟩ :: rest) :
    step s = act (.event e) (({ s with agenda := rest } : State).upkeep.pass dclk dtb) := by
  simp only [step, h]

/-- A slot of a running team at a clause boundary meets CLAUSE_ISSUE (R157). -/
theorem fetch_of_boundary {s : State} {tid p : Nat} {sl : Bool} {t : Team} {q : Party} (hcur : s.cur = some (.party tid p sl))
    (ht : Map.find s.teams tid = some t) (hq : Map.find t.parties p = some q) (hrun : t.running = true)
    (hlive : (q.slot sl).live = true) (hy : q.yielded = false) (hg : s.isGated t.core = false) (hc : (q.slot sl).clause = none) :
    s.fetch (.party tid p sl) = .go s (.clauseIssue (.party tid p sl)) := by
  rw [State.fetch_party hcur ht hq]
  simp only [State.fetchParty, hrun, hlive, hy, hg, hc, Bool.not_true, Bool.or_false, Bool.false_eq_true, if_false]

/-- What a fetched instruction does where nothing has to wait for a walker or a closed bank. -/
theorem runFetched_go {s s1 s2 : State} {w : Who} {i : Instr} (hs1 : s1.stuck = false) (hi : exec i s1 = .next s2)
    (hs2 : s2.stuck = false) :
    runFetched exec w s (.go s1 i) = .next (if isEvent i then s2 else s2.issued w (s.waitBy w)) := by
  simp only [runFetched, hs1, hi, hs2, Bool.false_eq_true, if_false]

/-- At a clause boundary a turn is CLAUSE_ISSUE, and the first instruction of the clause where that lets the path enter it. -/
theorem issue_of_boundary {s s1 : State} {w : Who} (hw : s.entered w = false) (hs : s.stuck = false)
    (hf : s.fetch w = .go s (.clauseIssue w)) (he : exec (.clauseIssue w) s = .next s1) (hs1 : s1.stuck = false) :
    (s1.entered w = false → issue w s = .next s1) ∧
    ∀ s2 i s3, s1.entered w = true → s1.fetch w = .go s2 i → s2.stuck = false → exec i s2 = .next s3 → s3.stuck = false →
      isEvent i = false → issue w s = .next ((s3.issued w (s1.waitBy w)).backOut w) := by
  have hclause : runFetched exec w s (s.fetch w) = .next s1 := by
    rw [hf, runFetched_go hs he hs1]
    rfl
  simp only [issue, issueBy, hclause, hw]
  refine ⟨fun h1 => ?_, fun s2 i s3 h1 hf2 hs2 hi hs3 hev => ?_⟩
  · simp only [h1, Bool.not_false, Bool.or_true, if_true]
  · simp only [h1, hf2, runFetched_go hs2 hi hs3, hev, Bool.not_true, Bool.or_false, Bool.false_eq_true, if_false]

/-- Settles O6: the head of the agenda by what it names, and a turn at a clause boundary. -/
theorem stepTakesTurns : Obligations.StepTakesTurns := by
  unfold Obligations.StepTakesTurns
  refine ⟨?_, ?_⟩
  · intro s0 dclk dtb e rest ha s
    rw [step_of_event ha]
    refine ⟨fun he hc s1 h => ?_, fun w hw => ?_, fun he => act_instruction he s⟩
    · rw [act_event he hc, event_of_next h]
    · rw [hw, act_clauseIssue]
  · intro s0 s1 tid p sl t q ha hcur s w ht hq hturn hrun hlive hy hg hc hs he hs1
    rw [step_of_cur ha hcur, issueTurn_of_turn ht hq hturn]
    have hentered : s.entered w = false := by simp [State.entered, w, State.party?_eq, ht, hq, hc]
    exact issue_of_boundary hentered hs (fetch_of_boundary (s0.cycle_upkeep_cur.trans hcur) ht hq hrun hlive hy hg hc) he hs1

end Sys2Proof.Machine

/-!
PROOFS. Time: how far tbase goes on in some cycles of clk, and what the refresh register shows.
-/

namespace Sys2Proof.Machine

open Sys2Proof

/-! ## Cycles (R61, R391) -/

/-- Nine cycles more are 1,024 units more, wherever the count of units stands. -/
theorem units_add_nine_mul (q r : Nat) : (9 * q + r) * 1024 / 9 = 1024 * q + r * 1024 / 9 := by omega

/-- The units of one more cycle, whatever cycle of the nine clk stands at. -/
theorem tbaseOfCycles_succ {c d : DWord} {k : Nat} (h : d.toNat = c.toNat + k) :
    tbaseOfCycles c (k + 1) = tbaseOfCycles c k + tbaseOfCycles d 1 := by
  have hq : c.toNat % 9 + k = 9 * ((c.toNat % 9 + k) / 9) + d.toNat % 9 := by omega
  simp only [tbaseOfCycles, ← Nat.add_assoc]
  rw [hq, Nat.add_assoc, units_add_nine_mul, units_add_nine_mul]
  omega

theorem tbaseOfCycles_nine (c : DWord) : tbaseOfCycles c 9 = 1024 := by
  unfold tbaseOfCycles
  omega

theorem tbaseOfCycles_one_le (c : DWord) : tbaseOfCycles c 1 ≤ 114 := by
  unfold tbaseOfCycles
  omega

/-- In one cycle the slew of R392 is less than a unit: tbase goes on at its nominal rate as long as it does not reach its end. -/
theorem State.tbaseAdvance_cycle {s : State} (h : s.tbase.toNat + tbaseOfCycles s.clk 1 < 2 ^ 64) :
    s.tbaseAdvance 1 (tbaseOfCycles s.clk 1) = tbaseOfCycles s.clk 1 := by
  have hslew : tbaseOfCycles s.clk 1 / 10000 = 0 := by
    have := tbaseOfCycles_one_le s.clk
    omega
  simp only [State.tbaseAdvance, hslew, Nat.zero_min, Nat.sub_zero, Nat.add_zero, ite_self, max_self, min_self]
  omega

theorem State.cycle_clk (s : State) : s.cycle.clk = s.clk + 1 := rfl

theorem State.cycle_tbase {s : State} (h : s.tbase.toNat + tbaseOfCycles s.clk 1 < 2 ^ 64) :
    s.cycle.tbase = s.tbase + BitVec.ofNat 64 (tbaseOfCycles s.clk 1) := by
  rw [← State.tbaseAdvance_cycle h]
  rfl

/-- The counts after some cycles, neither of which wraps around. -/
theorem State.counts_cycles {s : State} {k : Nat} (hclk : s.clk.toNat + k < 2 ^ 64)
    (htb : s.tbase.toNat + tbaseOfCycles s.clk k < 2 ^ 64) :
    (State.cycle^[k] s).clk = s.clk + BitVec.ofNat 64 k ∧
      (State.cycle^[k] s).tbase = s.tbase + BitVec.ofNat 64 (tbaseOfCycles s.clk k) := by
  induction k with
  | zero => simp [tbaseOfCycles]
  | succ k ih =>
    have hd : (s.clk + BitVec.ofNat 64 k).toNat = s.clk.toNat + k := by
      rw [BitVec.toNat_add, BitVec.toNat_ofNat]
      omega
    rw [tbaseOfCycles_succ hd] at htb ⊢
    obtain ⟨hc, ht⟩ := ih (by omega) (by omega)
    have hroom : (State.cycle^[k] s).tbase.toNat + tbaseOfCycles (State.cycle^[k] s).clk 1 < 2 ^ 64 := by
      rw [hc, ht, BitVec.toNat_add, BitVec.toNat_ofNat]
      omega
    rw [Function.iterate_succ_apply', State.cycle_clk, State.cycle_tbase hroom, hc, ht]
    simp only [BitVec.ofNat_add, BitVec.add_assoc, BitVec.ofNat_eq_ofNat, and_self]

/-- Settles O7: the nine floors add up to 1,024 (the discipline of log entry 23 slews one cycle by less than a unit). -/
theorem nineCyclesAreFourNanoseconds : Obligations.NineCyclesAreFourNanoseconds := by
  intro s hclk htb
  rw [← tbaseOfCycles_nine s.clk] at htb
  have h := State.counts_cycles hclk htb
  rwa [tbaseOfCycles_nine] at h

/-! ## The refresh register (R63) -/

/-- The cycles until the window that is open closes, or the next one opens. -/
def refreshLeft (clk : Nat) : Nat := if clk % 4500 < 1152 then 1152 - clk % 4500 else 4500 - clk % 4500

/-- The window that is open, or the next one. -/
def refreshWindow (clk : Nat) : Nat := if clk % 4500 < 1152 then clk % 72000 / 4500 else (clk % 72000 / 4500 + 1) % 16

/-- Bit 31 of the refresh register, as a number. -/
def refreshOpen (clk : Nat) : Nat := if clk % 4500 < 1152 then 1 else 0

theorem refreshLeft_lt (clk : Nat) : refreshLeft clk < 2 ^ 13 := by
  unfold refreshLeft
  split <;> omega

theorem refreshWindow_lt (clk : Nat) : refreshWindow clk < 2 ^ 4 := by
  unfold refreshWindow
  split <;> omega

theorem toNat_wsrefWord (clk : Nat) :
    (wsrefWord clk).toNat = 2 ^ 31 * refreshOpen clk + 2 ^ 24 * refreshWindow clk + refreshLeft clk := by
  unfold wsrefWord refreshOpen refreshWindow refreshLeft
  dsimp only
  split <;> rw [BitVec.toNat_ofNat] <;> omega

/-- The fields of wsref do not overlap. -/
theorem wsrefWord_fields (clk : Nat) :
    (wsrefWord clk).getLsbD 31 = decide (clk % 4500 < 1152) ∧ fld (wsrefWord clk) 28 3 = 0 ∧ fld (wsrefWord clk) 13 11 = 0 ∧
      (fld (wsrefWord clk) 24 4).toNat = refreshWindow clk ∧ (fld (wsrefWord clk) 0 13).toNat = refreshLeft clk := by
  have hw := toNat_wsrefWord clk
  have hwin := refreshWindow_lt clk
  have hleft := refreshLeft_lt clk
  have hopen : refreshOpen clk ≤ 1 := by unfold refreshOpen; split <;> omega
  refine ⟨?_, BitVec.eq_of_toNat_eq ?_, BitVec.eq_of_toNat_eq ?_, ?_, ?_⟩
  · rw [BitVec.getLsbD, Nat.testBit_eq_decide_div_mod_eq, hw, decide_eq_decide]
    have hiff : refreshOpen clk = 1 ↔ clk % 4500 < 1152 := by unfold refreshOpen; split <;> simp_all
    rw [← hiff]
    omega
  · rw [toNat_fld, hw]
    change _ = 0
    omega
  · rw [toNat_fld, hw]
    change _ = 0
    omega
  · rw [toNat_fld, hw]
    omega
  · rw [toNat_fld, hw]
    omega

/-- The team and the party of an issuer, each where it stands. -/
theorem State.site_eq_some {s : State} {w : Issuer} {t : Team} {q : Party} (h : s.site w = some (t, q)) :
    Map.find s.teams w.tid = some t ∧ Map.find t.parties w.p = some q := by
  unfold State.site at h
  split at h
  · next ht =>
    split at h
    · next hq =>
      cases h
      exact ⟨ht, hq⟩
    · cases h
  · cases h

/-- A read of wsref gives the refresh state at the cycle of the read. -/
theorem exec_sget_wsref {s : State} {w : Issuer} {t : Team} {q : Party} {d : SReg} (h : IssuesPlain (.sget d 14) s w t q) :
    exec (.sget d 14) s =
      .next ((s.modParty w.tid w.p fun q' => q'.setS w.sl d.toNat (wsrefWord s.clk.toNat)).completed (.sget d 14) w) := by
  obtain ⟨ht, hq⟩ := State.site_eq_some (party_of_issuer h.issuer).1
  have hread : (s.special t w.p q w.sl 14).setWidth 32 = wsrefWord s.clk.toNat := by
    simp [State.special, BitVec.setWidth_setWidth_of_le]
  rw [exec_sget, execSget, runParty_of_issues h.issues, h.ended]
  simp only [ht, hq, BitVec.ofNat_eq_ofNat, BitVec.reduceEq, BitVec.toNat_ofNat, Nat.reducePow, Nat.reduceMod, Nat.reduceLeDiff,
    ne_eq, false_and, and_false, if_false, hread, State.modParty_stuck, h.calm, Effect.unstuck_done]
  rfl

theorem registerEffect_sset_wsref (a : SReg) : RegisterEffect (.sset a 14) fun _ q => q :=
  fun _ _ _ _ _ h => by
    rw [exec_sset, execSset, runRegs_of_issues h]
    rfl

/-- Settles O17: what wsref shows is the word of `toNat_wsrefWord`, whose fields do not overlap. -/
theorem refreshRegister : Obligations.RefreshRegister :=
  ⟨fun _ _ _ _ _ => exec_sget_wsref, registerEffect_sset_wsref, by decide, wsrefWord_fields⟩

end Sys2Proof.Machine

/-!
PROOFS. Writes of a vector register: the register file's case and the push into a bound store port.
-/

namespace Sys2Proof.Machine

open Sys2Proof

/-! ## Of a register that names no bound store port (R71, R180, R228) -/

theorem Party.setV_register {q : Party} {n : Nat} (m : Mask) (f : Nat → Word) (h : q.storePort n = none) :
    q.setV n m f = { q with
      vregs := writeLanes q.vregs n f (maskLanes m)
      vPoison := q.vPoison.filter fun k => !(k / 96 == n && inMask m (k % 96)) } := by
  unfold Party.setV
  rw [h]

/-- The lanes written lose their poison, and no other. -/
theorem Party.mem_vPoison_setV {q : Party} {n : Nat} (m : Mask) (f : Nat → Word) (h : q.storePort n = none) (k : Nat) :
    k ∈ (q.setV n m f).vPoison ↔ k ∈ q.vPoison ∧ ¬(k / 96 = n ∧ inMask m (k % 96) = true) := by
  simp [Party.setV_register m f h, imp_iff_not_or]

/-! ## Of a register that names one (R136, R208) -/

theorem Party.setV_port {q : Party} {n : Nat} {p : Port} (m : Mask) (f : Nat → Word) (h : q.storePort n = some p) :
    q.setV n m f = { q with ports := Map.set q.ports (n - 120) (p.push p.total m f), warn := q.warn ||| p.pushFlags m f } := by
  unfold Party.setV
  rw [h]

/-- A port that takes pushes has not ended. -/
theorem Party.ended_of_storePort {q : Party} {n : Nat} {p : Port} (h : q.storePort n = some p) : p.ended = false := by
  unfold Party.storePort at h
  split at h
  · split at h
    · split at h
      · next hopen =>
        cases h
        exact hopen.2
      · cases h
    · cases h
  · cases h

/-- The elements of a port after a push: those it had, and the active lanes' that lie in the tile. -/
theorem Port.mem_unwritten_push (p : Port) (total : Nat) (m : Mask) (f : Nat → Word) (x : Nat × Word) :
    x ∈ (p.push total m f).unwritten ↔
      x ∈ p.unwritten ∨ ∃ l, l < 96 ∧ inMask m l = true ∧ p.pos + l < total ∧ x = (p.pos + l, f l) := by
  simp only [Port.push, List.mem_append, List.mem_filterMap, Option.ite_none_right_eq_some, Option.some.injEq]
  refine or_congr_right (exists_congr fun l => ⟨?_, ?_⟩)
  · rintro ⟨hl, ht, rfl⟩
    have hlt := lt_of_mem_maskLanes hl
    exact ⟨hlt, (mem_maskLanes hlt).1 hl, ht, rfl⟩
  · rintro ⟨hlt, hm, ht, rfl⟩
    exact ⟨(mem_maskLanes hlt).2 hm, ht, rfl⟩

/-- Settles O13: by whether the register names a bound store port. -/
theorem vectorWrites : Obligations.VectorWrites := by
  refine ⟨fun q n m f h => ⟨fun _ => q.getV_setV_self m f h, fun _ _ hk => q.getV_setV_ne m f h hk, Party.mem_vPoison_setV m f h, ?_⟩,
    fun q n m f p h => ⟨?_, p.push p.total m f, ?_, rfl, ?_, ?_, ?_, ?_, ?_⟩⟩
  · rw [Party.setV_register m f h]
  · rw [Party.setV_port m f h]
  · rw [Party.setV_port m f h, Map.find_set_self]
  · exact fun x hx => (p.mem_unwritten_push _ m f x).2 (.inl hx)
  · exact fun l hl hm ht => (p.mem_unwritten_push _ m f _).2 (.inr ⟨l, hl, hm, ht, rfl⟩)
  · exact fun x => (p.mem_unwritten_push _ m f x).1
  · simp [Port.push, Party.ended_of_storePort h]
  · intro k hk
    rw [Party.setV_port m f h, Map.find_set, if_neg hk]

end Sys2Proof.Machine

/-!
PROOFS. Prefetches, fences, cache maintenance and releases.
-/

namespace Sys2Proof.Machine

open Sys2Proof

/-! ## What reaching memory leaves of the buffers -/

/-- The write-combining buffers are as they were, and no reduction waits that did not wait before. -/
structure State.Reached (s r : State) : Prop where
  wcb : r.wcb = s.wcb
  reductions : r.reductions ⊆ s.reductions

namespace State.Reached

variable {s r u : State}

theorem refl (s : State) : s.Reached s := ⟨rfl, List.Subset.refl _⟩

theorem trans (h : s.Reached r) (h' : r.Reached u) : s.Reached u :=
  ⟨h'.wcb.trans h.wcb, List.Subset.trans h'.reductions h.reductions⟩

theorem foldl {α : Type} (f : State → α → State) (hf : ∀ s x, State.Reached s (f s x)) (s : State) (l : List α) :
    s.Reached (l.foldl f s) :=
  List.foldlRecOn (motive := s.Reached) l f (refl s) fun r hr x _ => hr.trans (hf r x)

theorem wcbOf (h : s.Reached r) (core : Nat) : r.wcbOf core = s.wcbOf core :=
  congrArg (fun w => (Map.find w core).getD []) h.wcb

end State.Reached

@[simp] theorem State.applyReductions_reductions (s : State) (sel : RedEntry → Bool) :
    (s.applyReductions sel).reductions = s.reductions.filter fun e => !sel e := rfl

theorem State.reached_applyReductions (s : State) (sel : RedEntry → Bool) : s.Reached (s.applyReductions sel) := by
  have h := State.Reached.foldl (fun (s : State) e => RedEntry.apply e s) (fun s _ => ⟨rfl, List.Subset.refl _⟩) s
    (s.reductions.filter sel)
  exact ⟨h.wcb, fun _ => List.mem_of_mem_filter⟩

theorem State.reached_reach (s : State) (pa n : Nat) : s.Reached (s.reach pa n) := by
  unfold State.reach
  split
  · exact .refl s
  · exact s.reached_applyReductions _

theorem State.reached_copyLine (s : State) (m : Migration) (line : Nat) : s.Reached (s.copyLine m line) := by
  unfold State.copyLine
  split <;> exact ⟨rfl, List.Subset.refl _⟩

theorem State.reached_settle (s : State) (pa : Nat) : s.Reached (s.settle pa).1 := by
  unfold State.settle
  split
  · exact .refl s
  · exact s.reached_copyLine _ _

theorem State.reached_pokeLine (s : State) (line : Nat) (bytes : Map Byte) : s.Reached (s.pokeLine line bytes) := by
  unfold State.pokeLine
  have h := s.reached_settle (64 * line)
  generalize s.settle (64 * line) = x at h
  obtain ⟨s1, rank, base⟩ := x
  have hreach : s.Reached (s1.reach base 64) := h.trans (s1.reached_reach base 64)
  dsimp only
  split
  · exact hreach
  · split
    · exact hreach
    · split <;> exact ⟨hreach.wcb, hreach.reductions⟩

theorem State.reached_drainEntry (s : State) (core : Nat) (e : WcbEntry) : s.Reached (s.drainEntry core e) := by
  unfold State.drainEntry
  dsimp only
  split
  · exact s.reached_pokeLine _ _
  · exact ⟨rfl, List.Subset.refl _⟩

/-- A drain takes the entries it selects out of the buffer. -/
theorem State.wcbOf_drain (s : State) (core : Nat) (sel : WcbEntry → Bool) :
    (s.drain core sel).wcbOf core = (s.wcbOf core).filter fun e => !sel e := by
  unfold State.drain
  dsimp only
  split
  · rw [(State.Reached.foldl _ (fun s e => s.reached_drainEntry core e) _ _).wcbOf, State.wcbOf_setWcb]
  · next hany =>
    have hkeep : ((s.wcbOf core).filter fun e => !sel e) = s.wcbOf core := by simpa [List.filter_eq_self] using hany
    exact hkeep.symm

theorem State.reductions_drain (s : State) (core : Nat) (sel : WcbEntry → Bool) :
    (s.drain core sel).reductions ⊆ s.reductions := by
  unfold State.drain
  dsimp only
  split
  · exact (State.Reached.foldl _ (fun s e => s.reached_drainEntry core e) _ _).reductions
  · exact List.Subset.refl _

/-! ## Releases (R305, R319) -/

theorem Party.unperformed_eq_none {q : Party} (h : q.unperformed = none) :
    q.accesses = [] ∧ q.remote = [] ∧ q.draining = none := by
  unfold Party.unperformed at h
  split at h
  · cases h
  · next hacc =>
    split at h
    · cases h
    · next hrem => exact ⟨List.head?_eq_none_iff.1 hacc, List.head?_eq_none_iff.1 hrem, Option.map_eq_none_iff.1 h⟩

theorem Scope.narrow_iff {c : Scope} : Scope.wide c = false ↔ c = .pt ∨ c = .tm := by
  cases c <;> simp [Scope.wide]

theorem State.not_holdsOf {s : State} {core : Nat} (h : s.holdsOf core = false) : ∀ x ∈ s.heldStores, x.core ≠ core := by
  simpa [State.holdsOf] using h

theorem State.release_own_scope {s s1 : State} {core tid p : Nat} {q : Party}
    (h : s.release core tid p q .pt = (s1, none)) : q.accesses = [] := by
  simpa [State.release] using (Prod.mk.inj h).2

/-- At team scope a release is complete when the party has nothing unperformed, and has applied the party's reductions. -/
theorem State.release_narrow {s s1 : State} {core tid p : Nat} {q : Party} {scope : Scope} (hpt : scope ≠ .pt)
    (hn : Scope.wide scope = false) (h : s.release core tid p q scope = (s1, none)) :
    s1 = (s.applyReductions fun e => e.owners.contains (tid, p)) ∧ q.unperformed = none := by
  simp only [State.release, if_neg hpt, hn, Bool.false_eq_true, if_false, Prod.mk.injEq] at h
  exact ⟨h.1.symm, h.2⟩

/-- At a wide scope it then drains the core's buffer, and waits while the directory holds a store of the core. -/
theorem State.release_wide {s s1 : State} {core tid p : Nat} {q : Party} {scope : Scope} (hpt : scope ≠ .pt)
    (hw : Scope.wide scope = true) (h : s.release core tid p q scope = (s1, none)) :
    s1 = (s.applyReductions fun e => e.owners.contains (tid, p)).drain core (fun _ => true) ∧ q.unperformed = none ∧
      s1.holdsOf core = false := by
  simp only [State.release, if_neg hpt, hw, if_true, Prod.mk.injEq, Option.or_eq_none_iff, ite_eq_right_iff, reduceCtorEq,
    imp_false, Bool.not_eq_true] at h
  obtain ⟨rfl, hq, hheld⟩ := h
  exact ⟨rfl, hq, hheld⟩

theorem State.notMem_owners_of_applied {s : State} {tid p : Nat} {e : RedEntry}
    (h : e ∈ (s.applyReductions fun e => e.owners.contains (tid, p)).reductions) : (tid, p) ∉ e.owners := by
  simpa using (List.mem_filter.1 h).2

/-- What holds when a release is complete. -/
theorem State.release_complete {s s1 : State} {core tid p : Nat} {q : Party} {scope : Scope}
    (h : s.release core tid p q scope = (s1, none)) :
    q.accesses = [] ∧ (scope ≠ .pt → q.remote = [] ∧ q.draining = none ∧ ∀ e ∈ s1.reductions, (tid, p) ∉ e.owners) ∧
      (scope ≠ .pt → scope ≠ .tm → (∀ e ∈ s1.wcbOf core, (tid, p) ∉ e.owners) ∧ ∀ x ∈ s1.heldStores, x.core ≠ core) := by
  by_cases hpt : scope = .pt
  · subst hpt
    exact ⟨State.release_own_scope h, fun hne => absurd rfl hne, fun hne => absurd rfl hne⟩
  cases hw : Scope.wide scope with
  | false =>
    obtain ⟨rfl, hq⟩ := State.release_narrow hpt hw h
    obtain ⟨hacc, hrem, hdr⟩ := Party.unperformed_eq_none hq
    exact ⟨hacc, fun _ => ⟨hrem, hdr, fun _ => State.notMem_owners_of_applied⟩,
      fun _ htm => ((Scope.narrow_iff.1 hw).elim hpt htm).elim⟩
  | true =>
    obtain ⟨rfl, hq, hheld⟩ := State.release_wide hpt hw h
    obtain ⟨hacc, hrem, hdr⟩ := Party.unperformed_eq_none hq
    refine ⟨hacc, fun _ => ⟨hrem, hdr, fun e he => ?_⟩, fun _ _ => ⟨fun e he => ?_, State.not_holdsOf hheld⟩⟩
    · exact State.notMem_owners_of_applied (State.reductions_drain _ core _ he)
    · simp [State.wcbOf_drain] at he

/-! ## Prefetches (R195) -/

/-- A translation misses for a walker and leaves the step stuck, or changes the translation caches alone. -/
def State.Translated (s r : State) : Prop :=
  r.stuck = true ∨ ({ r with tlbCore := s.tlbCore, tlbCluster := s.tlbCluster, tlbDie := s.tlbDie } : State) = s

theorem State.translated_missFor (s : State) (core : Nat) (tag : BitVec 16) (va : Nat) :
    s.Translated (s.missFor (some core) tag va).1 := by
  unfold State.missFor
  dsimp only
  split
  · exact .inr rfl
  · split
    · exact .inr rfl
    · by_cases hwait : (!s.mayWalk (dieOf core) tag || s.walking (dieOf core) tag va) = true
      · rw [if_pos hwait]
        split <;> exact .inl rfl
      · rw [if_neg hwait]
        split <;> exact .inr rfl

theorem State.translated_entryFor (s : State) (core : Nat) (tag : BitVec 16) (va : Nat) :
    s.Translated (s.entryFor core tag va).1 := by
  unfold State.entryFor
  split
  · exact .inr rfl
  · exact s.translated_missFor core tag va

theorem State.translated_translate (s : State) (core : Nat) (tag : BitVec 16) (priv : Bool) (u : Use) (a : DWord) :
    s.Translated (s.translate core tag priv u a).1 := by
  unfold State.translate
  split
  · exact .inr rfl
  · next va _ =>
    have h := s.translated_entryFor core tag va
    generalize s.entryFor core tag va = x at h ⊢
    obtain ⟨r, c | e⟩ := x
    · exact h
    · dsimp only at h ⊢
      split <;> exact h

/-- A prefetch that would wait for a walker leaves the state as it was. -/
theorem State.prefetch_frame {s : State} (t : Team) (a : DWord) :
    ({ s.prefetch t a with tlbCore := s.tlbCore, tlbCluster := s.tlbCluster, tlbDie := s.tlbDie } : State) = s := by
  unfold State.prefetch
  dsimp only
  split
  · rfl
  · next hs => exact (s.translated_translate t.core _ _ _ _).resolve_left hs

theorem State.prefetch_stuck {s : State} (hs : s.stuck = false) (t : Team) (a : DWord) : (s.prefetch t a).stuck = false := by
  unfold State.prefetch
  dsimp only
  split
  · exact hs
  · next h => simpa using h

section

variable {s0 s s1 : State} {w : Issuer} {t : Team} {q : Party}

theorem exec_pref_cn {a : SReg} {b : SOp} (h : Executes (.pref a b .cn) s0 w s t q) :
    exec (.pref a b .cn) s0 = .next (s0.after (.pref a b .cn) w (s.modParty w.tid w.p fun q' =>
      { q' with warn := q'.warn ||| when true wFALLBK })) := by
  rw [exec_pref, execPref]
  refine runTeam_done h ?_ ?_
  · simp only [if_true, h.calm, Bool.false_eq_true, if_false]
    rfl
  · exact h.calm

/-- Of the other policies, pref does what a prefetch of its address does. -/
theorem exec_pref_of_ne_cn {a : SReg} {b : SOp} {pol : Policy} (hpol : pol ≠ .cn) (h : Executes (.pref a b pol) s0 w s t q) :
    exec (.pref a b pol) s0 = .next (s0.after (.pref a b pol) w ((s.prefetch t (q.eaS w.sl a b)).modParty w.tid w.p fun q' =>
      { q' with warn := q'.warn ||| when (pol == .cn) wFALLBK })) := by
  rw [exec_pref, execPref]
  refine runTeam_done h ?_ ?_
  · simp only [if_neg hpol]
    rfl
  · exact State.prefetch_stuck h.calm t _

/-! ## Fences (R196) -/

theorem exec_fence_acq {c : Scope} (h : Executes (.fence .acq c) s0 w s t q) (hacc : q.accesses = []) :
    exec (.fence .acq c) s0 = .next (s0.after (.fence .acq c) w s) := by
  rw [exec_fence, execFence]
  refine runTeam_done h ?_ h.calm
  simp [hacc]

theorem exec_fence_of_released {x : Strength} {c : Scope} (h : Executes (.fence x c) s0 w s t q) (hx : x ≠ .acq)
    (hacc : x ≠ .rel → q.accesses = []) (hr : s.release t.core w.tid w.p q c = (s1, none)) (hs : s1.stuck = false) :
    exec (.fence x c) s0 = .next (s0.after (.fence x c) w s1) := by
  rw [exec_fence, execFence]
  refine runTeam_done h ?_ hs
  have hperformed : ¬(x ≠ .rel ∧ (!q.accesses.isEmpty) = true) := fun ⟨hne, hany⟩ => by simp [hacc hne] at hany
  rw [if_neg hperformed, if_neg hx, hr]

/-! ## Cache maintenance (R197, R198) -/

/-- The range is clean when its pages have been drained and the directory holds no store of the core. -/
theorem cleanEffect_of_cleaned {a : SReg} {b : SOp} (hacq : q.acquiring = false)
    (hc : s.cleanUnits t.core (s.tagOf t) (s.privileged t) (q.base w.sl a).toNat (q.bS w.sl b).toNat
      ((q.bS w.sl b).toNat / 65536 + 2) = (s1, none)) (hheld : s1.holdsOf t.core = false) :
    cleanEffect a b w t q s = .done s1 := by
  simp [cleanEffect, hacq, hc, hheld]

end

/-- Settles O36: each instruction by what its effect answers, and a complete release (log entry 7: cclean and cinval
leave only the drained buffer). -/
theorem fencesAndReleases : Obligations.FencesAndReleases := by
  refine ⟨fun a b pol s0 w s t q h => ?_, fun _ _ _ _ _ _ => exec_fence_acq,
    fun _ _ _ _ _ _ _ _ h hx hacc => exec_fence_of_released h hx hacc,
    fun _ _ _ _ _ _ _ _ _ hacq hc hs hheld => ⟨fun h => runTeam_done h (cleanEffect_of_cleaned hacq hc hheld) hs,
      fun h => runTeam_done h (cleanEffect_of_cleaned hacq hc hheld) hs⟩,
    fun _ _ _ _ _ _ _ => State.release_complete⟩
  by_cases hpol : pol = .cn
  · subst hpol
    exact ⟨s, rfl, fun _ => rfl, exec_pref_cn h⟩
  · exact ⟨s.prefetch t (q.eaS w.sl a b), State.prefetch_frame _ _, fun hcn => absurd hcn hpol, exec_pref_of_ne_cn hpol h⟩

end Sys2Proof.Machine

/-!
PROOFS. One rounding (R90, R91): the neighbours of a number on a grid, which of them a mode takes, and what `roundAt` takes.
-/

namespace Sys2Proof

/-! ## Neighbours of a number on a grid -/

/-- Two neighbouring magnitudes of a set of representable values. -/
structure Neighbours (rep : ℝ → Prop) (lo hi : ℝ) : Prop where
  nonneg : 0 ≤ lo
  lt : lo < hi
  low : rep lo
  high : rep hi
  gap : ∀ w, rep w → |w| ≤ lo ∨ hi ≤ |w|

/-- A magnitude the fraction `t` of the way from its lower neighbour `k` to `k + 1` is rounded up (R90, R91). -/
def GoesUp (r : Rnd) (neg : Bool) (k : Nat) (t : ℝ) : Prop :=
  t ≠ 0 ∧
    match r with
    | .rne => 1 / 2 < t ∨ t = 1 / 2 ∧ k % 2 = 1
    | .rtz => False
    | .rup => neg = false
    | .rdn => neg = true
    | .rna => 1 / 2 ≤ t
    | .sr draw => 2 ^ 24 ≤ ⌊t * 2 ^ 24⌋₊ + draw

/-- The sign of a number as a factor. -/
def signFactor (neg : Bool) : ℝ := if neg then -1 else 1

@[simp] theorem signFactor_false : signFactor false = 1 := rfl

@[simp] theorem signFactor_true : signFactor true = -1 := rfl

@[simp] theorem abs_signFactor_mul (neg : Bool) (x : ℝ) : |signFactor neg * x| = |x| := by cases neg <;> simp

theorem signFactor_mul_inj {neg : Bool} {x y : ℝ} : signFactor neg * x = signFactor neg * y ↔ x = y := by cases neg <;> simp

theorem ratOf_fin (neg : Bool) (m : Nat) (e : Int) : ratOf (.fin neg m e) = signFactor neg * (m * 2 ^ e) :=
  mul_assoc (signFactor neg) (m : ℝ) (2 ^ e)

@[simp] theorem abs_ratOf_fin (neg : Bool) (m : Nat) (e : Int) : |ratOf (.fin neg m e)| = m * 2 ^ e := by
  rw [ratOf_fin, abs_signFactor_mul, abs_of_nonneg (by positivity)]

theorem ratOf_fin_ne_zero {m : Nat} (hm : m ≠ 0) (neg : Bool) (e : Int) : ratOf (.fin neg m e) ≠ 0 := by
  rw [← abs_pos, abs_ratOf_fin]
  positivity

/-- The mode that does to −x what a mode does to x. -/
def Rnd.mirror : Rnd → Rnd
  | .rup => .rdn
  | .rdn => .rup
  | r => r

theorem goesUp_mirror (r : Rnd) (k : Nat) (t : ℝ) : GoesUp r true k t ↔ GoesUp r.mirror false k t := by
  cases r <;> simp [GoesUp, Rnd.mirror]

theorem abs_neg_sub_neg (x y : ℝ) : |-x - -y| = |x - y| := by rw [neg_sub_neg, abs_sub_comm]

section
variable {rep even : ℝ → Prop} {r : Rnd} {a v lo hi t : ℝ} {k : Nat}

theorem roundedTo_neg (hrep : ∀ w, rep (-w) ↔ rep w) (heven : even v → even (-v)) (h : RoundedTo r.mirror rep even a v) :
    RoundedTo r rep even (-a) (-v) := by
  obtain ⟨hv, hs, h⟩ := h
  refine ⟨(hrep v).2 hv, by rwa [neg_mul_neg], ?_⟩
  have nearest (P Q : ℝ → Prop) (hPQ : ∀ w, P (-w) → Q w)
      (h : ∀ w, rep w → |v - a| < |w - a| ∨ |v - a| = |w - a| ∧ P w) (w : ℝ) (hw : rep w) :
      |-v - -a| < |w - -a| ∨ |-v - -a| = |w - -a| ∧ Q w := by
    have hw' := h (-w) ((hrep w).2 hw)
    rw [← abs_neg_sub_neg (-w) a, neg_neg] at hw'
    rw [abs_neg_sub_neg]
    exact hw'.imp id (And.imp_right (hPQ w))
  cases r with
  | rtz => simpa only [Rnd.mirror, abs_neg] using h
  | rup =>
    exact ⟨neg_le_neg h.1, fun w hw hle => neg_le.1 (h.2 (-w) ((hrep w).2 hw) (neg_le.1 hle))⟩
  | rdn =>
    exact ⟨neg_le_neg h.1, fun w hw hle => le_neg.1 (h.2 (-w) ((hrep w).2 hw) (le_neg.1 hle))⟩
  | rne => exact nearest (fun w => w = v ∨ even v) _ (fun w hw => hw.imp (fun h => neg_eq_iff_eq_neg.1 h) heven) h
  | rna => exact nearest (fun w => |w| ≤ |v|) _ (fun w hw => by rwa [abs_neg] at hw ⊢) h
  | sr draw =>
    obtain ⟨lo, hi, hlo, hhi, hla, hha, hle, hlt, hgap, heq, hne⟩ := h
    refine ⟨-lo, -hi, (hrep lo).2 hlo, (hrep hi).2 hhi, by rwa [neg_mul_neg], by rwa [neg_mul_neg], ?_, ?_, ?_, ?_, ?_⟩
    · simpa only [abs_neg] using hle
    · simpa only [abs_neg] using hlt
    · simpa only [abs_neg] using hgap
    · exact fun h => congrArg _ (heq (neg_injective h))
    · intro h
      obtain ⟨hup, hdown⟩ := hne fun h' => h (congrArg _ h')
      simp only [abs_neg]
      exact ⟨fun h => congrArg _ (hup h), fun h => congrArg _ (hdown h)⟩

/-- From the middle of two neighbours on, the upper one is nearest; the lower one is as near in the middle alone. -/
theorem nearest_high {P : ℝ → Prop} (hlt : lo < hi) (ht : 1 / 2 ≤ t) (ht1 : t < 1) (hP : P hi) (hmid : t = 1 / 2 → P lo)
    {w : ℝ} (hw : w ≤ lo ∨ hi ≤ w) :
    |hi - (lo + t * (hi - lo))| < |w - (lo + t * (hi - lo))| ∨
      |hi - (lo + t * (hi - lo))| = |w - (lo + t * (hi - lo))| ∧ P w := by
  have hd : 0 < hi - lo := sub_pos.2 hlt
  rw [abs_of_nonneg (by nlinarith : 0 ≤ hi - (lo + t * (hi - lo)))]
  rcases hw with hw | hw
  · rw [abs_of_nonpos (by nlinarith : w - (lo + t * (hi - lo)) ≤ 0)]
    rcases hw.lt_or_eq with hw | rfl
    · exact .inl (by nlinarith)
    · rcases ht.lt_or_eq with ht | ht
      · exact .inl (by nlinarith)
      · exact .inr ⟨by rw [← ht]; ring, hmid ht.symm⟩
  · rw [abs_of_nonneg (by nlinarith : 0 ≤ w - (lo + t * (hi - lo)))]
    rcases hw.lt_or_eq with hw | rfl
    · exact .inl (by linarith)
    · exact .inr ⟨rfl, hP⟩

/-- Up to the middle of two neighbours the lower one is nearest; the upper one is as near in the middle alone. -/
theorem nearest_low {P : ℝ → Prop} (hlt : lo < hi) (ht : 0 ≤ t) (ht1 : t ≤ 1 / 2) (hP : P lo) (hmid : t = 1 / 2 → P hi)
    {w : ℝ} (hw : w ≤ lo ∨ hi ≤ w) :
    |lo - (lo + t * (hi - lo))| < |w - (lo + t * (hi - lo))| ∨
      |lo - (lo + t * (hi - lo))| = |w - (lo + t * (hi - lo))| ∧ P w := by
  have hd : 0 < hi - lo := sub_pos.2 hlt
  rw [abs_of_nonpos (by nlinarith : lo - (lo + t * (hi - lo)) ≤ 0)]
  rcases hw with hw | hw
  · rw [abs_of_nonpos (by nlinarith : w - (lo + t * (hi - lo)) ≤ 0)]
    rcases hw.lt_or_eq with hw | rfl
    · exact .inl (by linarith)
    · exact .inr ⟨rfl, hP⟩
  · rw [abs_of_nonneg (by nlinarith : 0 ≤ w - (lo + t * (hi - lo)))]
    rcases hw.lt_or_eq with hw | rfl
    · exact .inl (by nlinarith)
    · rcases ht1.lt_or_eq with ht | ht
      · exact .inl (by nlinarith)
      · exact .inr ⟨by rw [ht]; ring, hmid ht⟩

open Classical in
/-- The neighbour that a positive number between two neighbours is rounded to. -/
theorem roundedTo_of_nonneg (hn : Neighbours rep lo hi) (ht : 0 ≤ t) (ht1 : t < 1)
    (hlow : k % 2 = 0 → even lo) (hhigh : k % 2 = 1 → even hi) :
    RoundedTo r rep even (lo + t * (hi - lo)) (if GoesUp r false k t then hi else lo) := by
  obtain ⟨hlo, hlt, hlr, hhr, hgap⟩ := hn
  have hd : 0 < hi - lo := sub_pos.2 hlt
  have hal : lo ≤ lo + t * (hi - lo) := le_add_of_nonneg_right (mul_nonneg ht hd.le)
  have hah : lo + t * (hi - lo) < hi := by nlinarith
  have ha0 := hlo.trans hal
  have hside (w : ℝ) (hw : rep w) : w ≤ lo ∨ hi ≤ w := by
    rcases abs_choice w with h | h <;> have := hgap w hw
    · rwa [h] at this
    · exact .inl ((neg_nonneg.1 (h ▸ abs_nonneg w)).trans hlo)
  refine ⟨by split_ifs <;> assumption, mul_nonneg (by split_ifs <;> linarith) ha0, ?_⟩
  cases r with
  | rtz =>
    rw [if_neg (by simp [GoesUp]), abs_of_nonneg hlo, abs_of_nonneg ha0]
    exact ⟨hal, fun w hw hwa => (hgap w hw).resolve_right fun h => absurd (hah.trans_le h) hwa.not_gt⟩
  | rup =>
    by_cases h0 : t = 0
    · simp [GoesUp, h0]
    · have hlow' : lo < lo + t * (hi - lo) := lt_add_of_pos_right _ (mul_pos (ht.lt_of_ne' h0) hd)
      rw [if_pos (by simp [GoesUp, h0])]
      exact ⟨hah.le, fun w hw hwa => (hside w hw).resolve_left fun h => absurd (hlow'.trans_le hwa) h.not_gt⟩
  | rdn =>
    rw [if_neg (by simp [GoesUp])]
    exact ⟨hal, fun w hw hwa => (hside w hw).resolve_right fun h => absurd (hah.trans_le h) hwa.not_gt⟩
  | rne =>
    intro w hw
    split_ifs with hup
    · obtain ⟨-, hup⟩ := hup
      refine nearest_high (P := fun w => w = hi ∨ even hi) hlt (hup.elim le_of_lt fun h => h.1.ge) ht1 (.inl rfl)
        (fun h => .inr (hhigh ?_)) (hside w hw)
      exact hup.elim (fun h' => absurd h h'.ne') And.right
    · have hle : t ≤ 1 / 2 := not_lt.1 fun h => hup ⟨by linarith, .inl h⟩
      refine nearest_low (P := fun w => w = lo ∨ even lo) hlt ht hle (.inl rfl) (fun h => .inr (hlow ?_)) (hside w hw)
      exact Nat.mod_two_ne_one.1 fun hk => hup ⟨by rw [h]; norm_num, .inr ⟨h, hk⟩⟩
  | rna =>
    intro w hw
    split_ifs with hup
    · obtain ⟨-, hup⟩ := hup
      exact nearest_high (P := fun w => |w| ≤ |hi|) hlt hup ht1 le_rfl
        (fun _ => abs_le_abs_of_nonneg hlo hlt.le) (hside w hw)
    · have hlt' : t < 1 / 2 := not_le.1 fun h => hup ⟨by linarith, h⟩
      exact nearest_low (P := fun w => |w| ≤ |lo|) hlt ht hlt'.le le_rfl (fun h => absurd h hlt'.ne) (hside w hw)
  | sr draw =>
    refine ⟨lo, hi, hlr, hhr, mul_nonneg hlo ha0, mul_nonneg (hlo.trans hlt.le) ha0, ?_⟩
    rw [abs_of_nonneg hlo, abs_of_nonneg (hlo.trans hlt.le), abs_of_nonneg ha0,
      add_sub_cancel_left, mul_div_cancel_right₀ _ hd.ne']
    have hexact : lo + t * (hi - lo) = lo ↔ t = 0 := by simp [hd.ne']
    refine ⟨hal, hah, hgap, fun h => if_neg fun hup => hup.1 (hexact.1 h), fun h => ⟨fun hup => ?_, fun hdown => ?_⟩⟩
    · exact if_pos ⟨fun h0 => h (hexact.2 h0), hup⟩
    · exact if_neg fun hup => hdown.not_ge hup.2

open Classical in
/-- A number of either sign between two neighbours is rounded to the one that `GoesUp` names. -/
theorem roundedTo_of_neighbours (hn : Neighbours rep lo hi) (hrep : ∀ w, rep (-w) ↔ rep w) (heven : ∀ w, even w → even (-w))
    (ht : 0 ≤ t) (ht1 : t < 1) (hlow : k % 2 = 0 → even lo) (hhigh : k % 2 = 1 → even hi) (neg : Bool) :
    RoundedTo r rep even (signFactor neg * (lo + t * (hi - lo))) (signFactor neg * if GoesUp r neg k t then hi else lo) := by
  cases neg with
  | false => simpa using roundedTo_of_nonneg hn ht ht1 hlow hhigh
  | true =>
    simp only [signFactor_true, neg_one_mul, goesUp_mirror]
    exact roundedTo_neg hrep (heven _) (roundedTo_of_nonneg hn ht ht1 hlow hhigh)

/-- A number is rounded to one value only, where two values that are even have another one between them. -/
theorem roundedTo_unique {u : ℝ} (ha : a ≠ 0)
    (heven : ∀ x y, even x → even y → 0 ≤ x * y → x < y → ∃ w, rep w ∧ x < w ∧ w < y)
    (hv : RoundedTo r rep even a v) (hu : RoundedTo r rep even a u) : v = u := by
  obtain ⟨hvr, hvs, hv⟩ := hv
  obtain ⟨hur, hus, hu⟩ := hu
  have hsame {x y : ℝ} (hx : 0 ≤ x * a) (hy : 0 ≤ y * a) (h : |x| = |y|) : x = y := by
    rcases abs_eq_abs.1 h with h | rfl
    · exact h
    · have : y = 0 := (mul_eq_zero.1 (le_antisymm (by linarith) hy)).resolve_right ha
      simp [this]
  cases r with
  | rtz => exact hsame hvs hus (le_antisymm (hu.2 v hvr hv.1) (hv.2 u hur hu.1))
  | rup => exact le_antisymm (hv.2 u hur hu.1) (hu.2 v hvr hv.1)
  | rdn => exact le_antisymm (hu.2 v hvr hv.1) (hv.2 u hur hu.1)
  | rna =>
    rcases hv u hur with h | ⟨h, hle⟩ <;> rcases hu v hvr with h' | ⟨h', hle'⟩
    · exact absurd h' h.not_gt
    · exact absurd h'.symm h.ne
    · exact absurd h.symm h'.ne
    · exact hsame hvs hus (le_antisymm hle' hle)
  | rne =>
    have hprod : 0 ≤ v * u :=
      nonneg_of_mul_nonneg_left (by nlinarith [mul_nonneg hvs hus] : 0 ≤ v * u * (a * a)) (mul_self_pos.2 ha)
    have between {x y : ℝ} (hxy : x < y) (hx : even x) (hy : even y) (hp : 0 ≤ x * y) (hd : |x - a| = |y - a|)
        (hnear : ∀ w, rep w → |x - a| ≤ |w - a|) : False := by
      obtain ⟨w, hw, hxw, hwy⟩ := heven x y hx hy hp hxy
      have hmid : x - a = -(y - a) := (abs_eq_abs.1 hd).resolve_left fun h => by linarith
      have hfar := hnear w hw
      rw [abs_of_nonpos (by linarith : x - a ≤ 0)] at hfar
      exact absurd hfar (abs_lt.2 ⟨by linarith, by linarith⟩).not_ge
    have hvn (w : ℝ) (hw : rep w) : |v - a| ≤ |w - a| := (hv w hw).elim le_of_lt fun h => h.1.le
    have hun (w : ℝ) (hw : rep w) : |u - a| ≤ |w - a| := (hu w hw).elim le_of_lt fun h => h.1.le
    have hd : |v - a| = |u - a| := le_antisymm (hvn u hur) (hun v hvr)
    have hve := ((hv u hur).resolve_left hd.not_lt).2
    have hue := ((hu v hvr).resolve_left hd.not_gt).2
    by_contra hne
    replace hve := hve.resolve_left (Ne.symm hne)
    replace hue := hue.resolve_left hne
    rcases lt_or_gt_of_ne hne with hlt | hlt
    · exact between hlt hve hue hprod hd hvn
    · exact between hlt hue hve (mul_comm v u ▸ hprod) hd.symm hun
  | sr draw =>
    obtain ⟨lo, hi, hlo, hhi, hls, hhs, hle, hlt, hgap, heq, hne⟩ := hv
    obtain ⟨lo', hi', hlo', hhi', hls', hhs', hle', hlt', hgap', heq', hne'⟩ := hu
    obtain rfl : lo = lo' := hsame hls hls' <| le_antisymm
      ((hgap' lo hlo).resolve_right fun h => absurd (hlt'.trans_le h) hle.not_gt)
      ((hgap lo' hlo').resolve_right fun h => absurd (hlt.trans_le h) hle'.not_gt)
    obtain rfl : hi = hi' := hsame hhs hhs' <| le_antisymm
      ((hgap hi' hhi').resolve_left fun h => absurd (h.trans hle) hlt'.not_ge)
      ((hgap' hi hhi).resolve_left fun h => absurd (h.trans hle) hlt.not_ge)
    by_cases h : a = lo
    · rw [heq h, heq' h]
    · rcases le_or_gt (2 ^ 24) (⌊(|a| - |lo|) / (|hi| - |lo|) * 2 ^ 24⌋₊ + draw) with hd | hd
      · rw [(hne h).1 hd, (hne' h).1 hd]
      · rw [(hne h).2 hd, (hne' h).2 hd]

end

/-! ## Grids (R73) -/

/-- The magnitude k · 2^q is written with as many bits as a grid allows. -/
structure IsCell (bits : Nat) (least : Option Int) (k : Nat) (q : Int) : Prop where
  lt : k < 2 ^ (bits + 1)
  le : ∀ b, least = some b → b ≤ q
  normal : 2 ^ bits ≤ k ∨ least = some q

theorem mul_zpow_lt_of_lt {bits k k' : Nat} {q q' : Int} (hk : k < 2 ^ (bits + 1)) (hk' : 2 ^ bits ≤ k') (hq : q < q') :
    (k : ℝ) * 2 ^ q < k' * 2 ^ q' := by
  have hk : (k : ℝ) < 2 ^ (bits + 1) := mod_cast hk
  have hk' : (2 : ℝ) ^ bits ≤ k' := mod_cast hk'
  calc (k : ℝ) * 2 ^ q < 2 ^ (bits + 1) * 2 ^ q := by gcongr
    _ = 2 ^ bits * 2 ^ (q + 1) := by rw [zpow_add_one₀ two_ne_zero]; ring
    _ ≤ k' * 2 ^ q' := mul_le_mul hk' (zpow_le_zpow_right₀ one_le_two (by omega)) (by positivity) (by positivity)

/-- A significand that has grown by one bit is halved, and its exponent goes up by one. -/
def carried (bits k : Nat) (q : Int) : Nat × Int := if 2 ^ (bits + 1) ≤ k then (k / 2, q + 1) else (k, q)

theorem carried_of_lt {bits k : Nat} {q : Int} (h : k < 2 ^ (bits + 1)) : carried bits k q = (k, q) := if_neg h.not_ge

theorem carried_two_pow (bits : Nat) (q : Int) : carried bits (2 ^ (bits + 1)) q = (2 ^ bits, q + 1) := by
  rw [carried, if_pos le_rfl, pow_succ, Nat.mul_div_cancel _ two_pos]

theorem carried_value {bits k : Nat} {q : Int} (h : k ≤ 2 ^ (bits + 1)) :
    ((carried bits k q).1 : ℝ) * 2 ^ (carried bits k q).2 = k * 2 ^ q := by
  rcases h.lt_or_eq with h | rfl
  · rw [carried_of_lt h]
  · rw [carried_two_pow, zpow_add_one₀ two_ne_zero]
    push_cast
    ring

theorem exists_cell_of_even {bits : Nat} {least : Option Int} {v : ℝ} (h : EvenOnGrid bits least v) :
    ∃ k q, IsCell bits least k q ∧ |v| = k * 2 ^ q ∧ k % 2 = 0 := by
  obtain ⟨k, q, hk, hq, hn, hv, he⟩ := h
  exact ⟨k, q, ⟨hk, hq, hn⟩, hv, he⟩

theorem onGrid_neg {bits : Nat} {least : Option Int} (v : ℝ) : OnGrid bits least (-v) ↔ OnGrid bits least v := by
  simp only [OnGrid, abs_neg]

theorem evenOnGrid_neg {bits : Nat} {least : Option Int} (v : ℝ) (h : EvenOnGrid bits least v) : EvenOnGrid bits least (-v) := by
  simpa only [EvenOnGrid, abs_neg] using h

namespace IsCell

variable {bits k k' : Nat} {least : Option Int} {q q' : Int}

/-- Cells are ordered by exponent first. -/
theorem lt_iff (h : IsCell bits least k q) (h' : IsCell bits least k' q') :
    (k : ℝ) * 2 ^ q < k' * 2 ^ q' ↔ q < q' ∨ q = q' ∧ k < k' := by
  have below {k k' : Nat} {q q' : Int} (h : IsCell bits least k q) (h' : IsCell bits least k' q') (hq : q < q') :
      (k : ℝ) * 2 ^ q < k' * 2 ^ q' :=
    mul_zpow_lt_of_lt h.lt (h'.normal.resolve_right fun hl => hq.not_ge (h.le _ hl)) hq
  rcases lt_trichotomy q q' with hq | rfl | hq
  · exact iff_of_true (below h h' hq) (.inl hq)
  · simp [zpow_pos (two_pos : (0 : ℝ) < 2) q]
  · exact iff_of_false (below h' h hq).not_gt (by omega)

theorem inj (h : IsCell bits least k q) (h' : IsCell bits least k' q') (he : (k : ℝ) * 2 ^ q = k' * 2 ^ q') :
    k = k' ∧ q = q' := by
  have h1 := mt (h.lt_iff h').2 he.not_lt
  have h2 := mt (h'.lt_iff h).2 he.not_gt
  omega

theorem nonneg (k : Nat) (q : Int) : (0 : ℝ) ≤ k * 2 ^ q := by positivity

theorem carried_succ (h : IsCell bits least k q) :
    IsCell bits least (carried bits (k + 1) q).1 (carried bits (k + 1) q).2 := by
  rcases (Nat.succ_le_of_lt h.lt).lt_or_eq with hlt | heq
  · rw [carried_of_lt hlt]
    exact ⟨hlt, h.le, h.normal.imp_left fun h => h.trans k.le_succ⟩
  · rw [show k + 1 = 2 ^ (bits + 1) from heq, carried_two_pow]
    exact ⟨Nat.pow_lt_pow_right one_lt_two bits.lt_succ_self, fun b hb => (h.le b hb).trans (by omega), .inl le_rfl⟩

theorem carried_succ_even (h : IsCell bits least k q) (hb : 0 < bits) (ho : k % 2 = 1) : (carried bits (k + 1) q).1 % 2 = 0 := by
  rcases (Nat.succ_le_of_lt h.lt).lt_or_eq with hlt | heq
  · rw [carried_of_lt hlt]
    omega
  · rw [show k + 1 = 2 ^ (bits + 1) from heq, carried_two_pow]
    exact Nat.mod_eq_zero_of_dvd (dvd_pow_self 2 hb.ne')

theorem neighbours (h : IsCell bits least k q) : Neighbours (OnGrid bits least) (k * 2 ^ q) ((k + 1 : Nat) * 2 ^ q) where
  nonneg := by positivity
  lt := by gcongr; simp
  low := ⟨k, q, h.lt, h.le, abs_of_nonneg (nonneg k q)⟩
  high := by
    obtain ⟨hlt, hle, -⟩ := h.carried_succ
    exact ⟨_, _, hlt, hle, by rw [carried_value h.lt, abs_of_nonneg (nonneg _ q)]⟩
  gap w hw := by
    obtain ⟨j, p, hj, hp, hw⟩ := hw
    rw [hw]
    rcases lt_or_ge p q with hpq | hpq
    · exact .inl (mul_zpow_lt_of_lt hj (h.normal.resolve_right fun hl => hpq.not_ge (hp _ hl)) hpq).le
    · have hcast : (j : ℝ) * 2 ^ p = (j * 2 ^ (p - q).toNat : Nat) * 2 ^ q := by
        push_cast
        rw [mul_assoc, ← zpow_natCast, ← zpow_add₀ two_ne_zero, Int.toNat_of_nonneg (by omega), sub_add_cancel]
      rw [hcast]
      rcases Nat.lt_or_ge k (j * 2 ^ (p - q).toNat) with hlt | hle
      · exact .inr (by gcongr; exact hlt)
      · exact .inl (by gcongr)

theorem even_low (h : IsCell bits least k q) (he : k % 2 = 0) : EvenOnGrid bits least (k * 2 ^ q) :=
  ⟨k, q, h.lt, h.le, h.normal, abs_of_nonneg (nonneg k q), he⟩

theorem even_high (h : IsCell bits least k q) (hb : 0 < bits) (ho : k % 2 = 1) :
    EvenOnGrid bits least ((k + 1 : Nat) * 2 ^ q) := by
  rw [← carried_value h.lt]
  exact h.carried_succ.even_low (h.carried_succ_even hb ho)

end IsCell

/-- Between two even values of a grid lies another value of it. -/
theorem exists_between_even {bits : Nat} {least : Option Int} (x y : ℝ) (hx : EvenOnGrid bits least x)
    (hy : EvenOnGrid bits least y) (hxy : 0 ≤ x * y) (hlt : x < y) : ∃ w, OnGrid bits least w ∧ x < w ∧ w < y := by
  have above {x y : ℝ} (hx : EvenOnGrid bits least x) (hy : EvenOnGrid bits least y) (h0 : 0 ≤ x) (hlt : x < y) :
      ∃ w, OnGrid bits least w ∧ x < w ∧ w < y := by
    obtain ⟨k, q, hk, hxk, hke⟩ := exists_cell_of_even hx
    obtain ⟨j, p, hj, hyj, hje⟩ := exists_cell_of_even hy
    rw [abs_of_nonneg h0] at hxk
    rw [abs_of_nonneg (h0.trans hlt.le)] at hyj
    subst hxk hyj
    have hn := hk.neighbours
    refine ⟨_, hn.high, hn.lt, lt_of_le_of_ne ?_ fun he => ?_⟩
    · have := hn.gap _ hj.neighbours.low
      rw [abs_of_nonneg (IsCell.nonneg j p)] at this
      exact this.resolve_left hlt.not_ge
    · have hsucc : k + 1 < 2 ^ (bits + 1) := by
        have := hk.lt
        rw [pow_succ] at this ⊢
        omega
      have hcell := hk.carried_succ
      rw [carried_of_lt hsucc] at hcell
      have := (hcell.inj hj he).1
      omega
  rcases le_or_gt 0 x with h0 | h0
  · exact above hx hy h0 hlt
  · obtain ⟨w, hw, hyw, hwx⟩ := above (evenOnGrid_neg y hy) (evenOnGrid_neg x hx) (by nlinarith) (neg_lt_neg hlt)
    exact ⟨-w, (onGrid_neg w).2 hw, by linarith, by linarith⟩

/-! ## One rounding to a multiple of a quantum (R90, R91) -/

open Classical in
/-- The multiple that k + t is rounded to. -/
noncomputable def stepped (r : Rnd) (neg : Bool) (k : Nat) (t : ℝ) : Nat := if GoesUp r neg k t then k + 1 else k

/-- m · 2^e lies the fraction `t` of the way from k · 2^q to the next multiple of 2^q. -/
structure SplitAt (m : Nat) (e q : Int) (k : Nat) (t : ℝ) : Prop where
  nonneg : 0 ≤ t
  lt : t < 1
  value : (m : ℝ) * 2 ^ e = (k + t) * 2 ^ q

theorem stepped_zero (r : Rnd) (neg : Bool) (k : Nat) : stepped r neg k 0 = k := by
  classical exact if_neg fun h => h.1 rfl

theorem stepped_cases (r : Rnd) (neg : Bool) (k : Nat) (t : ℝ) : stepped r neg k t = k ∨ stepped r neg k t = k + 1 := by
  classical exact (ite_eq_or_eq _ _ _).symm

theorem SplitAt.stepped_eq_iff {m : Nat} {e q : Int} {k : Nat} {t : ℝ} (h : SplitAt m e q k t) (r : Rnd) (neg : Bool) :
    (stepped r neg k t : ℝ) * 2 ^ q = m * 2 ^ e ↔ t = 0 := by
  rw [h.value, mul_left_inj' (zpow_ne_zero q two_ne_zero)]
  constructor
  · intro he
    have := h.nonneg
    have := h.lt
    rcases stepped_cases r neg k t with hs | hs <;> rw [hs] at he <;> push_cast at he <;> linarith
  · rintro rfl
    rw [stepped_zero, add_zero]

/-- The middle of two multiples, and the draw's fraction, in units of the bits that are shifted out. -/
theorem fraction_facts (x p : Nat) :
    (1 / 2 < (x / (2 ^ (p + 1) : Nat) : ℝ) ↔ 2 ^ p < x) ∧ ((x / (2 ^ (p + 1) : Nat) : ℝ) = 1 / 2 ↔ x = 2 ^ p) ∧
      (1 / 2 ≤ (x / (2 ^ (p + 1) : Nat) : ℝ) ↔ 2 ^ p ≤ x) ∧
      ⌊(x / (2 ^ (p + 1) : Nat) : ℝ) * 2 ^ 24⌋₊ = x * 2 ^ 24 / 2 ^ (p + 1) := by
  have hpos : (0 : ℝ) < (2 ^ (p + 1) : Nat) := by positivity
  have hhalf : (1 / 2 : ℝ) * (2 ^ (p + 1) : Nat) = (2 ^ p : Nat) := by push_cast; ring
  refine ⟨?_, ?_, ?_, ?_⟩
  · rw [lt_div_iff₀ hpos, hhalf, Nat.cast_lt]
  · rw [div_eq_iff hpos.ne', hhalf, Nat.cast_inj]
  · rw [le_div_iff₀ hpos, hhalf, Nat.cast_le]
  · rw [div_mul_eq_mul_div, ← Nat.floor_div_eq_div (K := ℝ)]
    norm_num

theorem roundShift_eq (r : Rnd) (neg : Bool) (m n : Nat) :
    roundShift r neg m n =
      (stepped r neg (m / 2 ^ n) ((m % 2 ^ n : Nat) / (2 ^ n : Nat)), decide (((m % 2 ^ n : Nat) / (2 ^ n : Nat) : ℝ) = 0)) := by
  have hzero : ((m % 2 ^ n : Nat) / (2 ^ n : Nat) : ℝ) = 0 ↔ m % 2 ^ n = 0 := by
    rw [div_eq_zero_iff, or_iff_left (by positivity), Nat.cast_eq_zero]
  simp only [roundShift, Nat.shiftRight_eq_div_pow]
  by_cases h0 : m % 2 ^ n = 0
  · rw [if_pos h0, hzero.2 h0, stepped_zero, decide_eq_true rfl]
  · rw [if_neg h0]
    obtain ⟨p, rfl⟩ : ∃ p, n = p + 1 := Nat.exists_eq_succ_of_ne_zero fun hn => h0 (by rw [hn, pow_zero, Nat.mod_one])
    obtain ⟨hlt, heq, hle, hfloor⟩ := fraction_facts (m % 2 ^ (p + 1)) p
    classical refine Prod.ext (if_congr ?_ rfl rfl) (decide_eq_false (mt hzero.1 h0)).symm
    have ht0 := mt hzero.1 h0
    generalize ((m % 2 ^ (p + 1) : Nat) / (2 ^ (p + 1) : Nat) : ℝ) = t at *
    cases r <;> simp only [GoesUp, ne_eq, ht0, not_false_eq_true, true_and, hlt, heq, hle, hfloor] <;> simp

theorem roundAt_eq (m : Nat) (e q : Int) :
    ∃ k t, SplitAt m e q k t ∧ ∀ r neg, roundAt r neg m e q = (stepped r neg k t, decide (t = 0)) := by
  rcases le_or_gt q e with hq | hq
  · refine ⟨m <<< (e - q).toNat, 0, ⟨le_rfl, one_pos, ?_⟩, fun r neg => ?_⟩
    · rw [add_zero, Nat.shiftLeft_eq]
      push_cast
      rw [mul_assoc, ← zpow_natCast, ← zpow_add₀ two_ne_zero, Int.toNat_of_nonneg (by omega), sub_add_cancel]
    · rw [roundAt, if_pos hq, stepped_zero, decide_eq_true rfl]
  · refine ⟨m / 2 ^ (q - e).toNat, _, ⟨by positivity, ?_, ?_⟩,
      fun r neg => (if_neg hq.not_ge).trans (roundShift_eq r neg m _)⟩
    · rw [div_lt_one (by positivity), Nat.cast_lt]
      exact Nat.mod_lt _ (Nat.two_pow_pos _)
    · have hn : ((2 ^ (q - e).toNat : Nat) : ℝ) ≠ 0 := by positivity
      have hpow : (2 : ℝ) ^ q = (2 ^ (q - e).toNat : Nat) * 2 ^ e := by
        push_cast
        rw [← zpow_natCast, ← zpow_add₀ two_ne_zero, Int.toNat_of_nonneg (by omega), sub_add_cancel]
      rw [hpow, ← mul_assoc, add_mul, div_mul_cancel₀ _ hn]
      exact_mod_cast congrArg (fun x : Nat => (x : ℝ) * 2 ^ e) (Nat.div_add_mod' m _).symm

theorem two_zpow_floorLog_le {m : Nat} (hm : m ≠ 0) (e : Int) : (2 : ℝ) ^ floorLog m e ≤ m * 2 ^ e := by
  rw [floorLog, zpow_add₀ two_ne_zero, zpow_natCast]
  have : (2 : ℝ) ^ m.log2 ≤ m := mod_cast Nat.log2_self_le hm
  gcongr

theorem lt_two_zpow_floorLog (m : Nat) (e : Int) : (m : ℝ) * 2 ^ e < 2 ^ (floorLog m e + 1) := by
  rw [floorLog, add_right_comm, zpow_add₀ two_ne_zero, ← Nat.cast_succ, zpow_natCast]
  have : (m : ℝ) < 2 ^ (m.log2 + 1) := mod_cast Nat.lt_log2_self
  gcongr

namespace SplitAt

variable {bits m k : Nat} {least : Option Int} {e q : Int} {t : ℝ}

/-- A quantum with `bits` bits below the leading one, or the least of a grid, splits a number at a cell of the grid. -/
theorem isCell (h : SplitAt m e q k t) (hm : m ≠ 0) (hlog : floorLog m e - bits ≤ q) (hle : ∀ b, least = some b → b ≤ q)
    (hq : q = floorLog m e - bits ∨ least = some q) : IsCell bits least k q := by
  have hpos : (0 : ℝ) < 2 ^ q := by positivity
  have hlow := two_zpow_floorLog_le hm e
  have hhigh := lt_two_zpow_floorLog m e
  rw [h.value] at hlow hhigh
  refine ⟨?_, hle, hq.imp_left fun hq => ?_⟩
  · have hk : (k : ℝ) * 2 ^ q < (2 ^ (bits + 1) : Nat) * 2 ^ q :=
      calc (k : ℝ) * 2 ^ q ≤ (k + t) * 2 ^ q := mul_le_mul_of_nonneg_right (le_add_of_nonneg_right h.nonneg) hpos.le
        _ < 2 ^ (floorLog m e + 1) := hhigh
        _ ≤ 2 ^ ((bits + 1 : Nat) + q) := zpow_le_zpow_right₀ one_le_two (by push_cast; omega)
        _ = (2 ^ (bits + 1) : Nat) * 2 ^ q := by rw [zpow_add₀ two_ne_zero, zpow_natCast]; norm_cast
    exact Nat.cast_lt.1 (lt_of_mul_lt_mul_right hk hpos.le)
  · have hk : ((2 ^ bits : Nat) : ℝ) * 2 ^ q < (k + 1 : Nat) * 2 ^ q :=
      calc ((2 ^ bits : Nat) : ℝ) * 2 ^ q = 2 ^ (bits + q : Int) := by rw [zpow_add₀ two_ne_zero, zpow_natCast]; norm_cast
        _ = 2 ^ floorLog m e := by rw [hq]; congr 1; omega
        _ ≤ (k + t) * 2 ^ q := hlow
        _ < (k + 1 : Nat) * 2 ^ q := by push_cast; exact mul_lt_mul_of_pos_right (by linarith [h.lt]) hpos
    exact Nat.le_of_lt_succ (Nat.cast_lt.1 (lt_of_mul_lt_mul_right hk hpos.le))

/-- A number whose lower neighbour is k · 2^q is rounded to the multiple that `roundAt` takes. -/
theorem roundedTo (h : SplitAt m e q k t) {rep even : ℝ → Prop} (hn : Neighbours rep (k * 2 ^ q) ((k + 1 : Nat) * 2 ^ q))
    (hrep : ∀ w, rep (-w) ↔ rep w) (heven : ∀ w, even w → even (-w)) (hlow : k % 2 = 0 → even (k * 2 ^ q))
    (hhigh : k % 2 = 1 → even ((k + 1 : Nat) * 2 ^ q)) (r : Rnd) (neg : Bool) :
    RoundedTo r rep even (ratOf (.fin neg m e)) (signFactor neg * (stepped r neg k t * 2 ^ q)) := by
  have hv : (m : ℝ) * 2 ^ e = k * 2 ^ q + t * ((k + 1 : Nat) * 2 ^ q - k * 2 ^ q) := by
    rw [h.value]
    push_cast
    ring
  rw [ratOf_fin, hv, stepped, apply_ite Nat.cast, ite_mul]
  exact roundedTo_of_neighbours hn hrep heven h.nonneg h.lt hlow hhigh neg

theorem roundedTo_grid (h : SplitAt m e q k t) (hc : IsCell bits least k q) (hb : 0 < bits) (r : Rnd) (neg : Bool) :
    RoundedTo r (OnGrid bits least) (EvenOnGrid bits least) (ratOf (.fin neg m e)) (signFactor neg * (stepped r neg k t * 2 ^ q)) :=
  h.roundedTo hc.neighbours onGrid_neg evenOnGrid_neg hc.even_low (hc.even_high hb) r neg

end SplitAt

end Sys2Proof

/-!
PROOFS. The codes of a float format (R73): the finite ones are the cells of its grid up to the largest magnitude.
-/

namespace Sys2Proof

/-- What every float format of R73 has: a mantissa, and more than one bit of exponent. -/
structure FloatFmt.Regular (f : FloatFmt) : Prop where
  mbits : 0 < f.mbits
  ebits : 2 ≤ f.ebits

theorem Cvt.regular_of_float {c : Cvt} {f : FloatFmt} (h : c.float = some f) : f.Regular := by
  cases c <;> cases h <;> exact ⟨by decide, by decide⟩

namespace FloatFmt

variable {f : FloatFmt} {neg : Bool} {E M k : Nat} {q : Int}

/-- The exponent of a format's least quantum. -/
def qmin (f : FloatFmt) : Int := leastExp f - f.mbits

/-- The significand of a code with the exponent and mantissa fields given. -/
def fieldSig (f : FloatFmt) (E M : Nat) : Nat := if E = 0 then M else 2 ^ f.mbits + M

/-- The exponent of the last bit of that significand. -/
def fieldExp (f : FloatFmt) (E : Nat) : Int := (max E 1 : Nat) - f.bias - f.mbits

theorem code_mod (hM : M < 2 ^ f.mbits) : f.code neg E M % 2 ^ f.mbits = M := by
  rw [code, Nat.add_comm, Nat.add_mul_mod_self_right, Nat.mod_eq_of_lt hM]

theorem code_div (hM : M < 2 ^ f.mbits) : f.code neg E M / 2 ^ f.mbits = (if neg then 2 ^ f.ebits else 0) + E := by
  rw [code, Nat.add_comm, Nat.add_mul_div_right _ _ (Nat.two_pow_pos _), Nat.div_eq_of_lt hM, Nat.zero_add]

theorem code_field_mod (hE : E < 2 ^ f.ebits) (hM : M < 2 ^ f.mbits) : f.code neg E M / 2 ^ f.mbits % 2 ^ f.ebits = E := by
  rw [code_div hM]
  cases neg <;> simp [Nat.mod_eq_of_lt hE]

theorem code_field_div (hE : E < 2 ^ f.ebits) (hM : M < 2 ^ f.mbits) :
    f.code neg E M / 2 ^ f.mbits / 2 ^ f.ebits = neg.toNat := by
  rw [code_div hM]
  cases neg <;> simp [Nat.div_eq_of_lt hE, Nat.add_div_left]

theorem code_lt (hE : E < 2 ^ f.ebits) (hM : M < 2 ^ f.mbits) : f.code neg E M < 2 ^ (1 + f.ebits + f.mbits) := by
  rw [pow_add, ← Nat.div_lt_iff_lt_mul (Nat.two_pow_pos _), pow_add, ← Nat.div_lt_iff_lt_mul (Nat.two_pow_pos _),
    code_field_div hE hM]
  exact neg.toNat_lt

theorem exists_code {x : Nat} (hx : x < 2 ^ (1 + f.ebits + f.mbits)) :
    ∃ neg E M, E < 2 ^ f.ebits ∧ M < 2 ^ f.mbits ∧ x = f.code neg E M := by
  refine ⟨decide (x / 2 ^ f.mbits / 2 ^ f.ebits = 1), x / 2 ^ f.mbits % 2 ^ f.ebits, x % 2 ^ f.mbits,
    Nat.mod_lt _ (Nat.two_pow_pos _), Nat.mod_lt _ (Nat.two_pow_pos _), ?_⟩
  have hs : x / 2 ^ f.mbits / 2 ^ f.ebits < 2 := by
    rwa [Nat.div_lt_iff_lt_mul (Nat.two_pow_pos _), Nat.div_lt_iff_lt_mul (Nat.two_pow_pos _), ← pow_succ',
      ← pow_add, add_comm f.ebits]
  have hsign : (if decide (x / 2 ^ f.mbits / 2 ^ f.ebits = 1) then 2 ^ f.ebits else 0) =
      2 ^ f.ebits * (x / 2 ^ f.mbits / 2 ^ f.ebits) := by
    generalize x / 2 ^ f.mbits / 2 ^ f.ebits = s at hs
    interval_cases s <;> simp
  rw [code, hsign, Nat.div_add_mod, Nat.div_add_mod']

theorem unpack_code (hE : E < 2 ^ f.ebits) (hM : M < 2 ^ f.mbits) :
    f.unpack (f.code neg E M) =
      if f.special = .ieee ∧ E = 2 ^ f.ebits - 1 then if M = 0 then .inf neg else .nan (M < 2 ^ (f.mbits - 1)) neg
      else if f.special = .nanOnly ∧ E = 2 ^ f.ebits - 1 ∧ M = 2 ^ f.mbits - 1 then .nan false neg
      else .fin neg (f.fieldSig E M) (f.fieldExp E) := by
  have hneg : (neg.toNat % 2 == 1) = neg := by cases neg <;> rfl
  simp only [unpack, Nat.shiftRight_eq_div_pow, pow_add, ← Nat.div_div_eq_div_mul, code_mod hM, code_field_mod hE hM,
    code_field_div hE hM, hneg]
  refine if_congr Iff.rfl rfl (if_congr Iff.rfl rfl ?_)
  rw [fieldSig, fieldExp]
  split_ifs with h0
  · rw [h0]
    rfl
  · rw [Nat.max_eq_left (by omega)]

/-- The fields are those of a finite number. -/
def FiniteField (f : FloatFmt) (E M : Nat) : Prop := E < f.maxField.1 ∨ E = f.maxField.1 ∧ M ≤ f.maxField.2

/-- The cell lies beyond that of the largest finite magnitude. -/
abbrev Beyond (f : FloatFmt) (k : Nat) (q : Int) : Prop :=
  (f.maxField.1 : Int) - f.bias - f.mbits < q ∨
    q = (f.maxField.1 : Int) - f.bias - f.mbits ∧ 2 ^ f.mbits + f.maxField.2 < k

/-- The largest finite magnitude. -/
noncomputable def maxMag (f : FloatFmt) : ℝ :=
  (2 ^ f.mbits + f.maxField.2 : Nat) * 2 ^ ((f.maxField.1 : Int) - f.bias - f.mbits)

namespace Regular

variable (hf : f.Regular)

include hf

theorem maxField_bounds : 0 < f.maxField.1 ∧ f.maxField.1 < 2 ^ f.ebits ∧ f.maxField.2 < 2 ^ f.mbits := by
  have he : 2 ^ 2 ≤ 2 ^ f.ebits := Nat.pow_le_pow_right two_pos hf.ebits
  have hm : 2 ^ 1 ≤ 2 ^ f.mbits := Nat.pow_le_pow_right two_pos hf.mbits
  unfold maxField
  cases f.special <;> exact ⟨by dsimp only; omega, by dsimp only; omega, by dsimp only; omega⟩

theorem unpack_code_of_finite (hM : M < 2 ^ f.mbits) (hfin : f.FiniteField E M) (neg : Bool) :
    f.unpack (f.code neg E M) = .fin neg (f.fieldSig E M) (f.fieldExp E) := by
  have he : 2 ^ 2 ≤ 2 ^ f.ebits := Nat.pow_le_pow_right two_pos hf.ebits
  have hm : 2 ^ 1 ≤ 2 ^ f.mbits := Nat.pow_le_pow_right two_pos hf.mbits
  have hE : E < 2 ^ f.ebits := by
    obtain ⟨-, h, -⟩ := hf.maxField_bounds
    exact (hfin.elim le_of_lt fun h => h.1.le).trans_lt h
  rw [unpack_code hE hM, if_neg, if_neg]
  · rintro ⟨hs, h1, h2⟩
    simp only [FiniteField, maxField, hs] at hfin
    omega
  · rintro ⟨hs, h1⟩
    simp only [FiniteField, maxField, hs] at hfin
    omega

theorem finite_of_unpack {n : Bool} {m : Nat} {e : Int} (hE : E < 2 ^ f.ebits) (hM : M < 2 ^ f.mbits)
    (h : f.unpack (f.code neg E M) = .fin n m e) : f.FiniteField E M := by
  have he : 2 ^ 2 ≤ 2 ^ f.ebits := Nat.pow_le_pow_right two_pos hf.ebits
  rw [unpack_code hE hM] at h
  unfold FiniteField maxField
  cases hs : f.special
  case ieee =>
    by_cases h1 : E = 2 ^ f.ebits - 1
    · rw [if_pos ⟨hs, h1⟩] at h
      split at h <;> cases h
    · dsimp only
      omega
  case nanOnly =>
    by_cases h1 : E = 2 ^ f.ebits - 1 ∧ M = 2 ^ f.mbits - 1
    · rw [if_neg (by simp [hs]), if_pos ⟨hs, h1⟩] at h
      cases h
    · dsimp only
      omega
  case none =>
    dsimp only
    omega

end Regular

theorem unpack_infCode (hs : f.special = .ieee) (neg : Bool) : f.unpack (f.infCode neg) = .inf neg := by
  rw [infCode, unpack_code (Nat.sub_lt (Nat.two_pow_pos _) one_pos) (Nat.two_pow_pos _), if_pos ⟨hs, rfl⟩, if_pos rfl]

theorem nanCode_of_nanOnly (hs : f.special = .nanOnly) (neg : Bool) :
    f.nanCode neg = f.code neg (2 ^ f.ebits - 1) (2 ^ f.mbits - 1) := by
  rw [nanCode, hs]

theorem unpack_nanCode (hs : f.special = .nanOnly) (neg : Bool) : f.unpack (f.nanCode neg) = .nan false neg := by
  rw [nanCode_of_nanOnly hs, unpack_code (Nat.sub_lt (Nat.two_pow_pos _) one_pos) (Nat.sub_lt (Nat.two_pow_pos _) one_pos),
    if_neg (by simp [hs]), if_pos ⟨hs, rfl, rfl⟩]

theorem isCell_field (hM : M < 2 ^ f.mbits) (E : Nat) : IsCell f.mbits (some f.qmin) (f.fieldSig E M) (f.fieldExp E) := by
  have hmin : f.qmin = 1 - (f.bias : Int) - f.mbits := rfl
  rw [fieldSig, fieldExp, hmin]
  refine ⟨?_, ?_, ?_⟩
  · rw [pow_succ]
    split_ifs <;> omega
  · rintro b ⟨⟩
    omega
  · split_ifs with h0
    · exact .inr (by rw [h0]; rfl)
    · exact .inl (Nat.le_add_right _ _)

/-- The code of a cell's magnitude. -/
def cellCode (f : FloatFmt) (neg : Bool) (k : Nat) (q : Int) : Nat :=
  if k < 2 ^ f.mbits then f.code neg 0 k else f.code neg (q + f.mbits + f.bias).toNat (k - 2 ^ f.mbits)

/-- Every cell is that of an exponent and a mantissa field. -/
theorem exists_field (hk : IsCell f.mbits (some f.qmin) k q) :
    ∃ E M, M < 2 ^ f.mbits ∧ f.fieldSig E M = k ∧ f.fieldExp E = q ∧ ∀ neg, f.cellCode neg k q = f.code neg E M := by
  have hmin : f.qmin = 1 - (f.bias : Int) - f.mbits := rfl
  obtain ⟨hlt, hle, hnorm⟩ := hk
  have hle := hle _ rfl
  rw [pow_succ] at hlt
  by_cases hsub : k < 2 ^ f.mbits
  · have hq : f.qmin = q := Option.some.inj (hnorm.resolve_left hsub.not_ge)
    exact ⟨0, k, hsub, rfl, hq, fun _ => if_pos hsub⟩
  · refine ⟨_, _, ?_, ?_, ?_, fun _ => if_neg hsub⟩
    · omega
    · rw [fieldSig, if_neg (by omega)]
      omega
    · rw [fieldExp]
      omega

theorem cellCode_field (hM : M < 2 ^ f.mbits) (neg : Bool) :
    f.cellCode neg (f.fieldSig E M) (f.fieldExp E) = f.code neg E M := by
  unfold cellCode fieldSig fieldExp
  by_cases h0 : E = 0
  · rw [if_pos h0, if_pos hM, h0]
  · rw [if_neg h0, if_neg (by omega), Nat.add_sub_cancel_left, Nat.max_eq_left (by omega),
      show (E - f.bias - f.mbits + f.mbits + f.bias : Int).toNat = E by omega]

/-- The code of an infinity, or of the NaN that stands for it. -/
theorem unbounded_spec (hs : f.special ≠ .none) (neg : Bool) :
    (if f.special = .ieee then f.infCode neg else f.nanCode neg) < 2 ^ (1 + f.ebits + f.mbits) ∧
      f.unpack (if f.special = .ieee then f.infCode neg else f.nanCode neg) =
        if f.special = .ieee then .inf neg else .nan false neg := by
  have hE : 2 ^ f.ebits - 1 < 2 ^ f.ebits := Nat.sub_lt (Nat.two_pow_pos _) one_pos
  split_ifs with hi
  · exact ⟨code_lt hE (Nat.two_pow_pos _), unpack_infCode hi neg⟩
  · have hn : f.special = .nanOnly := by cases h : f.special <;> simp_all
    rw [unpack_nanCode hn, nanCode_of_nanOnly hn]
    exact ⟨code_lt hE (Nat.sub_lt (Nat.two_pow_pos _) one_pos), rfl⟩

namespace Regular

variable (hf : f.Regular)

include hf

theorem isCell_max : IsCell f.mbits (some f.qmin) (2 ^ f.mbits + f.maxField.2) ((f.maxField.1 : Int) - f.bias - f.mbits) := by
  have hmin : f.qmin = 1 - (f.bias : Int) - f.mbits := rfl
  obtain ⟨h0, -, hM⟩ := hf.maxField_bounds
  refine ⟨by rw [pow_succ]; omega, ?_, .inl (Nat.le_add_right _ _)⟩
  rintro b ⟨⟩
  omega

theorem beyond_iff (hk : IsCell f.mbits (some f.qmin) k q) : f.Beyond k q ↔ f.maxMag < k * 2 ^ q := by
  rw [maxMag, hf.isCell_max.lt_iff hk, Beyond, eq_comm]

theorem finiteField_iff (hM : M < 2 ^ f.mbits) : f.FiniteField E M ↔ ¬f.Beyond (f.fieldSig E M) (f.fieldExp E) := by
  obtain ⟨h0, -, -⟩ := hf.maxField_bounds
  unfold FiniteField Beyond fieldSig fieldExp
  split_ifs <;> omega

theorem isCode_field (hM : M < 2 ^ f.mbits) (hfin : f.FiniteField E M) (neg : Bool) :
    IsCode f neg (signFactor neg * (f.fieldSig E M * 2 ^ f.fieldExp E)) (f.code neg E M) := by
  obtain ⟨-, h, -⟩ := hf.maxField_bounds
  exact ⟨code_lt ((hfin.elim le_of_lt fun h => h.1.le).trans_lt h) hM, _, _,
    hf.unpack_code_of_finite hM hfin neg, ratOf_fin _ _ _⟩

theorem isCode_cellCode (hk : IsCell f.mbits (some f.qmin) k q) (hb : ¬f.Beyond k q) (neg : Bool) :
    IsCode f neg (signFactor neg * (k * 2 ^ q)) (f.cellCode neg k q) := by
  obtain ⟨E, M, hM, rfl, rfl, hcode⟩ := exists_field hk
  rw [hcode]
  exact hf.isCode_field hM ((hf.finiteField_iff hM).2 hb) neg

theorem abs_le_of_isCode {w : ℝ} {z : Nat} (h : IsCode f neg w z) : |w| ≤ f.maxMag := by
  obtain ⟨hz, m, e, hu, rfl⟩ := h
  obtain ⟨n, E, M, hE, hM, rfl⟩ := exists_code hz
  have hfin := hf.finite_of_unpack hE hM hu
  rw [hf.unpack_code_of_finite hM hfin] at hu
  cases hu
  rw [ratOf_fin, abs_signFactor_mul, abs_of_nonneg (IsCell.nonneg _ _), ← not_lt, ← hf.beyond_iff (isCell_field hM E)]
  exact (hf.finiteField_iff hM).1 hfin

theorem isCode_maxCode (neg : Bool) : IsCode f neg (signFactor neg * f.maxMag) (f.maxCode neg) := by
  obtain ⟨h0, -, hM⟩ := hf.maxField_bounds
  have h := hf.isCode_field hM (.inr ⟨rfl, le_rfl⟩) neg
  rwa [fieldSig, if_neg h0.ne', fieldExp, Nat.max_eq_left h0] at h

theorem isMaxCode_maxCode (neg : Bool) : IsMaxCode f neg (f.maxCode neg) := by
  refine ⟨_, hf.isCode_maxCode neg, fun n w z h => ?_⟩
  rw [abs_signFactor_mul]
  exact (hf.abs_le_of_isCode h).trans (le_abs_self _)

theorem isCode_zero (neg : Bool) : IsCode f neg 0 (f.code neg 0 0) := by
  have h := hf.isCode_field (Nat.two_pow_pos _) (.inl hf.maxField_bounds.1) neg
  simpa [fieldSig] using h

/-- A magnitude is no larger than some finite code's exactly up to the largest. -/
theorem exists_code_ge_iff (v : ℝ) : (∃ n w z, IsCode f n w z ∧ |v| ≤ |w|) ↔ |v| ≤ f.maxMag := by
  constructor
  · rintro ⟨n, w, z, hw, hv⟩
    exact hv.trans (hf.abs_le_of_isCode hw)
  · intro hv
    refine ⟨false, _, _, hf.isCode_maxCode false, ?_⟩
    rw [abs_signFactor_mul]
    exact hv.trans (le_abs_self _)

theorem forall_code_lt_iff (v : ℝ) : (∀ n w z, IsCode f n w z → |w| < |v|) ↔ f.maxMag < |v| := by
  rw [← not_le, ← hf.exists_code_ge_iff]
  push Not
  rfl

end Regular

end FloatFmt

/-! ## Overflow, infinities and NaNs (R95) -/

/-- What holds an overflow at the largest finite magnitude. -/
def OverflowLimited (f : FloatFmt) (r : Rnd) (sat neg : Bool) : Prop :=
  f.special = .none ∨ sat = true ∨ r = .rtz ∨ (r = .rup ∧ neg = true) ∨ (r = .rdn ∧ neg = false)

theorem overflowCode_of_limited {f : FloatFmt} {r : Rnd} {sat neg : Bool} (h : OverflowLimited f r sat neg) :
    overflowCode f r sat neg = f.maxCode neg := by
  rcases h with hs | rfl | rfl | ⟨rfl, rfl⟩ | ⟨rfl, rfl⟩
  · simp only [overflowCode, hs]
  all_goals cases hs : f.special <;> simp [overflowCode, hs]

theorem overflowCode_of_not_limited {f : FloatFmt} {r : Rnd} {sat neg : Bool} (h : ¬OverflowLimited f r sat neg) :
    overflowCode f r sat neg = if f.special = .ieee then f.infCode neg else f.nanCode neg := by
  simp only [OverflowLimited, not_or, not_and, Bool.not_eq_true, Bool.not_eq_false] at h
  obtain ⟨hnone, rfl, hrtz, hup, hdown⟩ := h
  cases r
  case rtz => exact absurd rfl hrtz
  all_goals cases hs : f.special <;> simp_all [overflowCode]

end Sys2Proof

/-!
PROOFS. Rounding and conversion (O28): into a float format, into an integer, and the conversions of one element.
-/

namespace Sys2Proof

/-! ## Rounding into a float format (R90 to R95) -/

namespace FloatFmt

/-- The cell that a nonzero number is rounded to. -/
def rounded (f : FloatFmt) (r : Rnd) (neg : Bool) (m : Nat) (e : Int) : Nat × Int :=
  let q := quantum f.mbits (leastExp f) m e
  carried f.mbits (roundAt r neg m e q).1 q

/-- The number had no bit below its quantum. -/
def exactAt (f : FloatFmt) (r : Rnd) (neg : Bool) (m : Nat) (e : Int) : Bool :=
  (roundAt r neg m e (quantum f.mbits (leastExp f) m e)).2

/-- The number is inexact, and below the least normal magnitude when it is rounded with an unbounded exponent (R94). -/
def tiny (f : FloatFmt) (r : Rnd) (neg : Bool) (m : Nat) (e : Int) : Bool :=
  let ev := floorLog m e
  !f.exactAt r neg m e && ev < leastExp f &&
    (if 2 ^ (f.mbits + 1) ≤ (roundAt r neg m e (ev - f.mbits)).1 then ev + 1 else ev) < leastExp f

/-- The flags of a rounding within the format's range. -/
def rangeFlags (f : FloatFmt) (r : Rnd) (neg : Bool) (m : Nat) (e : Int) : Word :=
  when (!f.exactAt r neg m e) wINX ||| when (f.tiny r neg m e) wUNF

variable {f : FloatFmt} {r : Rnd} {fout sat neg : Bool} {m : Nat} {e : Int}

theorem roundFinite_eq :
    roundFinite f r fout sat neg m e =
      let c := f.rounded r neg m e
      let fl := f.rangeFlags r neg m e
      if f.Beyond c.1 c.2 then (overflowCode f r sat neg, wOVF ||| wINX)
      else if c.1 < 2 ^ f.mbits then
        if fout && c.1 != 0 then (f.code neg 0 0, fl ||| wUNF ||| wINX) else (f.code neg 0 c.1, fl)
      else (f.code neg (c.2 + f.mbits + f.bias).toNat (c.1 - 2 ^ f.mbits), fl) :=
  rfl

theorem roundFinite_of_beyond (h : f.Beyond (f.rounded r neg m e).1 (f.rounded r neg m e).2) :
    roundFinite f r fout sat neg m e = (overflowCode f r sat neg, wOVF ||| wINX) :=
  roundFinite_eq.trans (if_pos h)

theorem roundFinite_of_flushed (h : ¬f.Beyond (f.rounded r neg m e).1 (f.rounded r neg m e).2)
    (hout : fout = true) (h0 : (f.rounded r neg m e).1 ≠ 0) (hsub : (f.rounded r neg m e).1 < 2 ^ f.mbits) :
    roundFinite f r fout sat neg m e = (f.code neg 0 0, wUNF ||| wINX) := by
  have hfl : f.rangeFlags r neg m e ||| wUNF ||| wINX = wUNF ||| wINX := by
    unfold rangeFlags
    cases f.exactAt r neg m e <;> cases f.tiny r neg m e <;> rfl
  rw [roundFinite_eq, ← hfl]
  exact (if_neg h).trans <| (if_pos hsub).trans <| if_pos (by simp [hout, h0])

theorem roundFinite_of_kept (h : ¬f.Beyond (f.rounded r neg m e).1 (f.rounded r neg m e).2)
    (hkeep : ¬(fout = true ∧ (f.rounded r neg m e).1 ≠ 0 ∧ (f.rounded r neg m e).1 < 2 ^ f.mbits)) :
    roundFinite f r fout sat neg m e =
      (f.cellCode neg (f.rounded r neg m e).1 (f.rounded r neg m e).2, f.rangeFlags r neg m e) := by
  refine roundFinite_eq.trans <| (if_neg h).trans ?_
  by_cases hsub : (f.rounded r neg m e).1 < 2 ^ f.mbits
  · refine (if_pos hsub).trans <| (if_neg ?_).trans ?_
    · simpa [hsub] using hkeep
    · rw [cellCode, if_pos hsub]
  · exact (if_neg hsub).trans (by rw [cellCode, if_neg hsub])

end FloatFmt

theorem IsCell.carried_stepped {bits k : Nat} {least : Option Int} {q : Int} (h : IsCell bits least k q) (r : Rnd)
    (neg : Bool) (t : ℝ) :
    IsCell bits least (carried bits (stepped r neg k t) q).1 (carried bits (stepped r neg k t) q).2 ∧
      ((carried bits (stepped r neg k t) q).1 : ℝ) * 2 ^ (carried bits (stepped r neg k t) q).2 = stepped r neg k t * 2 ^ q := by
  rcases stepped_cases r neg k t with hs | hs <;> rw [hs]
  · rw [carried_of_lt h.lt]
    exact ⟨h, rfl⟩
  · exact ⟨h.carried_succ, carried_value h.lt⟩

theorem IsCell.lt_two_zpow_iff {bits k : Nat} {least : Option Int} {q b : Int} (h : IsCell bits least k q)
    (hb : ∀ l, least = some l → l ≤ b - bits) : (k : ℝ) * 2 ^ q < 2 ^ b ↔ q < b - bits ∨ q = b - bits ∧ k < 2 ^ bits := by
  have hcell : IsCell bits least (2 ^ bits) (b - bits) :=
    ⟨Nat.pow_lt_pow_right one_lt_two bits.lt_succ_self, hb, .inl le_rfl⟩
  have hpow : (2 : ℝ) ^ b = (2 ^ bits : Nat) * 2 ^ (b - bits) := by
    push_cast
    rw [← zpow_natCast, ← zpow_add₀ two_ne_zero, add_sub_cancel]
  rw [hpow, h.lt_iff hcell]

namespace FloatFmt

variable {f : FloatFmt} {m : Nat} {e : Int}

/-- What a nonzero number is rounded to (R90, R91), with the cell of the result. -/
theorem exists_rounded (hf : f.Regular) (hm : m ≠ 0) (e : Int) (r : Rnd) (neg : Bool) :
    ∃ v, RoundedTo r (OnGrid f.mbits (some f.qmin)) (EvenOnGrid f.mbits (some f.qmin)) (ratOf (.fin neg m e)) v ∧
      v = signFactor neg * ((f.rounded r neg m e).1 * 2 ^ (f.rounded r neg m e).2) ∧
      IsCell f.mbits (some f.qmin) (f.rounded r neg m e).1 (f.rounded r neg m e).2 ∧
      (f.exactAt r neg m e = true ↔ v = ratOf (.fin neg m e)) := by
  obtain ⟨k, t, hs, hround⟩ := roundAt_eq m e (quantum f.mbits (leastExp f) m e)
  have hmin : f.qmin = leastExp f - f.mbits := rfl
  have hq : quantum f.mbits (leastExp f) m e = max (floorLog m e) (leastExp f) - f.mbits := rfl
  have hc : IsCell f.mbits (some f.qmin) k (quantum f.mbits (leastExp f) m e) :=
    hs.isCell hm (by omega) (by rintro b ⟨⟩; omega) (by rw [Option.some_inj]; omega)
  obtain ⟨hcell, hval⟩ := hc.carried_stepped r neg t
  rw [rounded, exactAt, hround]
  refine ⟨_, hs.roundedTo_grid hc hf.mbits r neg, by rw [hval], hcell, ?_⟩
  rw [ratOf_fin, signFactor_mul_inj, hs.stepped_eq_iff, decide_eq_true_iff]

/-- R94: tiny after rounding with an unbounded exponent. -/
theorem tiny_iff (hf : f.Regular) (hm : m ≠ 0) (e : Int) (r : Rnd) (neg : Bool) :
    f.tiny r neg m e = true ↔ f.exactAt r neg m e = false ∧
      ∃ u, RoundedTo r (OnGrid f.mbits none) (EvenOnGrid f.mbits none) (ratOf (.fin neg m e)) u ∧ |u| < 2 ^ leastExp f := by
  obtain ⟨k, t, hs, hround⟩ := roundAt_eq m e (floorLog m e - f.mbits)
  have hc : IsCell f.mbits none k (floorLog m e - f.mbits) := hs.isCell hm le_rfl (by simp) (.inl rfl)
  obtain ⟨hcell, hval⟩ := hc.carried_stepped r neg t
  have hu := hs.roundedTo_grid hc hf.mbits r neg
  have ha := ratOf_fin_ne_zero hm neg e
  have hsmall : (∃ u, RoundedTo r (OnGrid f.mbits none) (EvenOnGrid f.mbits none) (ratOf (.fin neg m e)) u ∧
      |u| < 2 ^ leastExp f) ↔ (carried f.mbits (stepped r neg k t) (floorLog m e - f.mbits)).2 < leastExp f - f.mbits := by
    have hlt := hcell.lt_two_zpow_iff (b := leastExp f) (by simp)
    have hnorm := hcell.normal.resolve_right (by simp)
    rw [or_iff_left (fun h => hnorm.not_gt h.2), hval] at hlt
    rw [← hlt]
    constructor
    · rintro ⟨u, hu', hlt⟩
      rw [roundedTo_unique ha exists_between_even hu' hu, abs_signFactor_mul, abs_of_nonneg (IsCell.nonneg _ _)] at hlt
      exact hlt
    · intro hlt
      exact ⟨_, hu, by rwa [abs_signFactor_mul, abs_of_nonneg (IsCell.nonneg _ _)]⟩
  rw [hsmall, tiny, hround, carried]
  simp only [Bool.and_eq_true, Bool.not_eq_true', decide_eq_true_iff, and_assoc]
  refine and_congr_right fun _ => ?_
  split_ifs <;> dsimp only <;> omega

theorem rangeFlags_spec (hf : f.Regular) (hm : m ≠ 0) {r : Rnd} {neg : Bool} {v : ℝ}
    (hv : f.exactAt r neg m e = true ↔ v = ratOf (.fin neg m e)) :
    ∃ inx unf : Bool, f.rangeFlags r neg m e = (when inx wINX ||| when unf wUNF) ∧ (inx = true ↔ v ≠ ratOf (.fin neg m e)) ∧
      (unf = true ↔ v ≠ ratOf (.fin neg m e) ∧
        ∃ u, RoundedTo r (OnGrid f.mbits none) (EvenOnGrid f.mbits none) (ratOf (.fin neg m e)) u ∧ |u| < 2 ^ leastExp f) := by
  refine ⟨_, _, rfl, ?_, ?_⟩
  · rw [ne_eq, ← hv, Bool.not_eq_true', Bool.not_eq_true]
  · rw [tiny_iff hf hm, ne_eq, ← hv, Bool.not_eq_true]

end FloatFmt

/-- A rounding gives the value that its mode takes, or what the overflow column of R95 names. -/
theorem roundsTo_roundFinite {f : FloatFmt} (hf : f.Regular) {m : Nat} (hm : m ≠ 0) (e : Int) (r : Rnd) (fout sat neg : Bool) :
    RoundsTo f r fout sat neg (ratOf (.fin neg m e)) (roundFinite f r fout sat neg m e) := by
  obtain ⟨v, hv, hval, hcell, hexact⟩ := f.exists_rounded hf hm e r neg
  have habs : |v| = (f.rounded r neg m e).1 * 2 ^ (f.rounded r neg m e).2 := by
    rw [hval, abs_signFactor_mul, abs_of_nonneg (IsCell.nonneg _ _)]
  have hbeyond : f.Beyond (f.rounded r neg m e).1 (f.rounded r neg m e).2 ↔ f.maxMag < |v| := by
    rw [hf.beyond_iff hcell, habs]
  have hflush : v ≠ 0 ∧ |v| < 2 ^ leastExp f ↔ (f.rounded r neg m e).1 ≠ 0 ∧ (f.rounded r neg m e).1 < 2 ^ f.mbits := by
    have hle := hcell.le _ rfl
    have hnorm := hcell.normal
    rw [Option.some_inj] at hnorm
    rw [← abs_pos, habs, hcell.lt_two_zpow_iff (by rintro l ⟨⟩; exact le_rfl)]
    refine and_congr ?_ ?_
    · rw [mul_pos_iff_of_pos_right (by positivity), Nat.cast_pos, Nat.pos_iff_ne_zero]
    · have hmin : f.qmin = leastExp f - f.mbits := rfl
      omega
  refine ⟨v, hv, fun hin => ?_, fun hout => ?_⟩
  · rw [hf.exists_code_ge_iff, ← not_lt, ← hbeyond] at hin
    rw [hflush]
    refine ⟨fun ⟨h1, h0, hsub⟩ => ?_, fun hkeep => ?_⟩
    · rw [FloatFmt.roundFinite_of_flushed hin h1 h0 hsub]
      exact ⟨hf.isCode_zero neg, rfl⟩
    · rw [FloatFmt.roundFinite_of_kept hin hkeep]
      exact ⟨hval ▸ hf.isCode_cellCode hcell hin neg, FloatFmt.rangeFlags_spec hf hm hexact⟩
  · rw [hf.forall_code_lt_iff, ← hbeyond] at hout
    rw [FloatFmt.roundFinite_of_beyond hout]
    refine ⟨rfl, fun hlim => ?_, fun hlim => ?_⟩
    · rw [overflowCode_of_limited hlim]
      exact hf.isMaxCode_maxCode neg
    · rw [overflowCode_of_not_limited hlim]
      exact FloatFmt.unbounded_spec (fun hs => hlim (.inl hs)) neg

theorem quantum_of_cell {f : FloatFmt} {k : Nat} {q : Int} (hk : IsCell f.mbits (some f.qmin) k q) (h0 : k ≠ 0) :
    quantum f.mbits (leastExp f) k q = q := by
  have hmin : f.qmin = leastExp f - f.mbits := rfl
  have hle := hk.le _ rfl
  have hnorm := hk.normal
  rw [Option.some_inj, ← Nat.le_log2 h0] at hnorm
  have hlog := (Nat.log2_lt h0).2 hk.lt
  unfold quantum floorLog
  omega

/-- The magnitude of a cell within the range is delivered as it is, with no flag. -/
theorem roundFinite_cell {f : FloatFmt} {k : Nat} {q : Int} (hk : IsCell f.mbits (some f.qmin) k q) (h0 : k ≠ 0)
    (hb : ¬f.Beyond k q) (r : Rnd) (sat neg : Bool) : roundFinite f r false sat neg k q = (f.cellCode neg k q, 0) := by
  have hat : roundAt r neg k q q = (k, true) := by rw [roundAt, if_pos le_rfl, sub_self]; rfl
  have hrounded : f.rounded r neg k q = (k, q) := by
    rw [FloatFmt.rounded, quantum_of_cell hk h0, hat, carried_of_lt hk.lt]
  have hexact : f.exactAt r neg k q = true := by rw [FloatFmt.exactAt, quantum_of_cell hk h0, hat]
  rw [FloatFmt.roundFinite_of_kept (by rwa [hrounded]) (by simp), hrounded, FloatFmt.rangeFlags, FloatFmt.tiny, hexact]
  simp only [Bool.not_true, Bool.false_and]
  rfl

theorem roundFloat_fin (f : FloatFmt) (r : Rnd) (fout sat neg : Bool) (m : Nat) (e : Int) :
    roundFloat f r fout sat (.fin neg m e) = if m = 0 then (f.code neg 0 0, 0) else roundFinite f r fout sat neg m e := rfl

theorem roundFloat_inf_ieee {f : FloatFmt} (hs : f.special = .ieee) (r : Rnd) (fout sat neg : Bool) :
    roundFloat f r fout sat (.inf neg) = (if sat then f.maxCode neg else f.infCode neg, 0) := by
  simp only [roundFloat, hs]

theorem roundFloat_inf_nanOnly {f : FloatFmt} (hs : f.special = .nanOnly) (r : Rnd) (fout sat neg : Bool) :
    roundFloat f r fout sat (.inf neg) = if sat then (f.maxCode neg, 0) else (f.nanCode neg, wINV) := by
  simp only [roundFloat, hs]

theorem roundFloat_inf_none {f : FloatFmt} (hs : f.special = .none) (r : Rnd) (fout sat neg : Bool) :
    roundFloat f r fout sat (.inf neg) = (f.maxCode neg, wOVF) := by
  simp only [roundFloat, hs]

theorem roundFloat_nan_none {f : FloatFmt} (hs : f.special = .none) (r : Rnd) (fout sat sig neg : Bool) :
    roundFloat f r fout sat (.nan sig neg) = (f.maxCode neg, wNANSAT ||| when sig wINV) := by
  simp only [roundFloat, hs]

theorem roundFloat_nan {f : FloatFmt} (hs : f.special ≠ .none) (r : Rnd) (fout sat sig neg : Bool) :
    roundFloat f r fout sat (.nan sig neg) = (f.nanCode false, when sig wINV) := by
  cases h : f.special <;> simp_all [roundFloat]

theorem nanCode_false (f : FloatFmt) : f.nanCode false = canonNaN f := by
  have he := Nat.two_pow_pos f.ebits
  have hm := Nat.two_pow_pos f.mbits
  cases hs : f.special
  case nanOnly =>
    rw [FloatFmt.nanCode_of_nanOnly hs, canonNaN, if_pos hs, FloatFmt.code, pow_add, if_neg Bool.false_ne_true,
      Nat.zero_add, Nat.sub_mul, one_mul]
    have := Nat.le_mul_of_pos_left (2 ^ f.mbits) he
    omega
  all_goals simp [FloatFmt.nanCode, canonNaN, FloatFmt.code, hs]

/-- A code that is no NaN is rounded to itself. -/
theorem roundFloat_unpack {f : FloatFmt} (hf : f.Regular) (r : Rnd) {x : Nat} (hx : x < 2 ^ (1 + f.ebits + f.mbits))
    (hn : (f.unpack x).isNan = false) : roundFloat f r false false (f.unpack x) = (x, 0) := by
  obtain ⟨neg, E, M, hE, hM, rfl⟩ := FloatFmt.exists_code hx
  cases hu : f.unpack (f.code neg E M) with
  | nan sig n => simp [hu, Num.isNan] at hn
  | inf n =>
    rw [FloatFmt.unpack_code hE hM] at hu
    split_ifs at hu with hs h0
    obtain ⟨hs, rfl⟩ := hs
    cases hu
    rw [roundFloat_inf_ieee hs, h0]
    rfl
  | fin n m e =>
    have hfin := hf.finite_of_unpack hE hM hu
    rw [hf.unpack_code_of_finite hM hfin] at hu
    cases hu
    rw [roundFloat_fin]
    split_ifs with h0
    · unfold FloatFmt.fieldSig at h0
      have := Nat.two_pow_pos f.mbits
      split_ifs at h0 with hE0
      · rw [hE0, h0]
      · omega
    · rw [roundFinite_cell (FloatFmt.isCell_field hM E) h0 ((hf.finiteField_iff hM).1 hfin), FloatFmt.cellCode_field hM]

/-- The signs of zeros are kept (R97). -/
theorem roundFloat_zero {f : FloatFmt} (hf : f.Regular) (r : Rnd) (fout sat neg : Bool) (e : Int) :
    IsCode f neg 0 (roundFloat f r fout sat (.fin neg 0 e)).1 ∧ (roundFloat f r fout sat (.fin neg 0 e)).2 = 0 :=
  ⟨hf.isCode_zero neg, rfl⟩

theorem roundFloat_inf_spec {f : FloatFmt} (hf : f.Regular) (r : Rnd) (fout sat neg : Bool) :
    let y := roundFloat f r fout sat (.inf neg)
    (f.special = .none → IsMaxCode f neg y.1 ∧ y.2 = wOVF) ∧
    (f.special ≠ .none → sat = true → IsMaxCode f neg y.1 ∧ y.2 = 0) ∧
    (f.special = .nanOnly → sat = false → f.unpack y.1 = .nan false neg ∧ y.2 = wINV) ∧
    (f.special = .ieee → sat = false → f.unpack y.1 = .inf neg ∧ y.2 = 0) := by
  have hmax := hf.isMaxCode_maxCode neg
  cases hs : f.special
  case ieee =>
    rw [roundFloat_inf_ieee hs]
    cases sat <;> simp [hmax, FloatFmt.unpack_infCode hs]
  case nanOnly =>
    rw [roundFloat_inf_nanOnly hs]
    cases sat <;> simp [hmax, FloatFmt.unpack_nanCode hs]
  case none =>
    rw [roundFloat_inf_none hs]
    simp [hmax]

theorem roundFloat_nan_spec {f : FloatFmt} (hf : f.Regular) (r : Rnd) (fout sat sig neg : Bool) :
    let y := roundFloat f r fout sat (.nan sig neg)
    (f.special = .none → IsMaxCode f neg y.1 ∧ y.2 = (wNANSAT ||| when sig wINV)) ∧
    (f.special ≠ .none → y = (canonNaN f, when sig wINV)) := by
  refine ⟨fun hs => ?_, fun hs => ?_⟩
  · rw [roundFloat_nan_none hs]
    exact ⟨hf.isMaxCode_maxCode neg, rfl⟩
  · rw [roundFloat_nan hs, nanCode_false]

/-! ## Flushing of inputs (R92) -/

theorem abs_ratOf_lt_iff {m : Nat} (hm : m ≠ 0) (neg : Bool) (e b : Int) :
    |ratOf (.fin neg m e)| < 2 ^ b ↔ floorLog m e < b := by
  rw [abs_ratOf_fin]
  constructor
  · intro h
    by_contra hb
    exact absurd ((zpow_le_zpow_right₀ one_le_two (not_lt.1 hb)).trans (two_zpow_floorLog_le hm e)) h.not_ge
  · exact fun h => (lt_two_zpow_floorLog m e).trans_le (zpow_le_zpow_right₀ one_le_two h)

theorem Cvt.flushes_eq (c : Cvt) : c.flushes = decide (c ∈ flushFormats) := by cases c <;> rfl

/-- A finite number is a subnormal of a format that can flush its inputs, and they are flushed. -/
def Flushed (c : Cvt) (f : FloatFmt) (on neg : Bool) (m : Nat) (e : Int) : Prop :=
  on = true ∧ c ∈ flushFormats ∧ m ≠ 0 ∧ |ratOf (.fin neg m e)| < 2 ^ leastExp f

theorem flushIn_fin {c : Cvt} {f : FloatFmt} (hc : c.float = some f) (on neg : Bool) (m : Nat) (e : Int) :
    (Flushed c f on neg m e → flushIn c on (.fin neg m e) = .fin neg 0 0) ∧
    (¬Flushed c f on neg m e → flushIn c on (.fin neg m e) = .fin neg m e) := by
  have hcond : Flushed c f on neg m e ↔
      (on && c.flushes && m != 0 && decide (floorLog m e < 1 - (f.bias : Int))) = true := by
    simp only [Bool.and_eq_true, bne_iff_ne, decide_eq_true_iff, c.flushes_eq, and_assoc]
    exact and_congr_right fun _ => and_congr_right fun _ => and_congr_right fun hm => abs_ratOf_lt_iff hm neg e (leastExp f)
  have heq : flushIn c on (.fin neg m e) =
      if on && c.flushes && m != 0 && decide (floorLog m e < 1 - (f.bias : Int)) then .fin neg 0 0 else .fin neg m e := by
    simp only [flushIn, hc]
  rw [hcond, heq]
  exact ⟨fun h => if_pos h, fun h => if_neg h⟩

theorem flushIn_of_float_none {c : Cvt} (hc : c.float = none) (on : Bool) (x : Num) : flushIn c on x = x := by
  simp only [flushIn, hc]

theorem flushIn_of_not_fin (c : Cvt) (on : Bool) {x : Num} (hx : ∀ neg m e, x ≠ .fin neg m e) : flushIn c on x = x := by
  cases x with
  | fin neg m e => exact absurd rfl (hx neg m e)
  | nan sig neg => unfold flushIn; split <;> simp_all
  | inf neg => unfold flushIn; split <;> simp_all

/-! ## Rounding into an integer (R96, R97) -/

theorem intBits_eq (w : Nat) (v : Int) : intBits w v = (BitVec.ofInt w v).toNat := by
  rw [BitVec.toNat_ofInt]
  norm_cast

theorem int_neighbours (k : Nat) : Neighbours (fun x => ∃ z : Int, x = z) (k * 2 ^ (0 : Int)) ((k + 1 : Nat) * 2 ^ (0 : Int)) where
  nonneg := IsCell.nonneg _ _
  lt := by simp
  low := ⟨k, by simp⟩
  high := ⟨(k + 1 : Nat), by simp⟩
  gap := by
    rintro w ⟨z, rfl⟩
    rw [← Int.cast_abs, ← Int.natCast_natAbs, zpow_zero, mul_one, mul_one, Int.cast_natCast, Nat.cast_le, Nat.cast_le]
    omega

/-- The integer of a sign and a magnitude. -/
def signedInt (neg : Bool) (k : Nat) : Int := if neg then -k else k

theorem cast_signedInt (neg : Bool) (k : Nat) : (signedInt neg k : ℝ) = signFactor neg * k := by
  cases neg <;> simp [signedInt]

theorem roundInt_fin {lo hi : Int} {w : Nat} {r : Rnd} {neg : Bool} {m : Nat} {e : Int} (hm : m ≠ 0) :
    roundInt lo hi w r (.fin neg m e) =
      let x := roundAt r neg m e 0
      let v := signedInt neg x.1
      if hi < v then (intBits w hi, wINV)
      else if v < lo then (intBits w lo, wINV)
      else if v = 0 then (0, wUNF ||| wINX)
      else (intBits w v, when (!x.2) wINX) :=
  if_neg hm

theorem roundsToInt_roundInt {lo hi : Int} (hle : lo ≤ hi) (w : Nat) (r : Rnd) (neg : Bool) {m : Nat} (hm : m ≠ 0) (e : Int) :
    RoundsToInt lo hi w r (ratOf (.fin neg m e)) (roundInt lo hi w r (.fin neg m e)) := by
  obtain ⟨k, t, hs, hround⟩ := roundAt_eq m e 0
  have hval : (signedInt neg (stepped r neg k t) : ℝ) = signFactor neg * (stepped r neg k t * 2 ^ (0 : Int)) := by
    rw [cast_signedInt, zpow_zero, mul_one]
  have hexact : (signedInt neg (stepped r neg k t) : ℝ) = ratOf (.fin neg m e) ↔ t = 0 := by
    rw [hval, ratOf_fin, signFactor_mul_inj, hs.stepped_eq_iff]
  rw [roundInt_fin hm, hround]
  refine ⟨signedInt neg (stepped r neg k t), ?_, fun hhi => ?_, fun hlo => ?_, fun hlo hhi => ?_⟩
  · rw [hval]
    refine hs.roundedTo (int_neighbours k) (fun w => ?_) (fun w => ?_) (fun hk => ?_) (fun hk => ?_) r neg
    · constructor <;> rintro ⟨z, hz⟩ <;> exact ⟨-z, by push_cast; linarith⟩
    · rintro ⟨z, hz⟩
      exact ⟨-z, by push_cast; linarith⟩
    · exact ⟨(k / 2 : Nat), by rw [zpow_zero, mul_one]; exact_mod_cast (Nat.mul_div_cancel' (Nat.dvd_of_mod_eq_zero hk)).symm⟩
    · refine ⟨((k + 1) / 2 : Nat), ?_⟩
      rw [zpow_zero, mul_one]
      exact_mod_cast (Nat.mul_div_cancel' (by omega : 2 ∣ k + 1)).symm
  · dsimp only
    rw [if_pos hhi, intBits_eq]
  · dsimp only
    rw [if_neg (by omega), if_pos hlo, intBits_eq]
  · dsimp only
    rw [if_neg hhi.not_gt, if_neg hlo.not_gt, hexact, ← intBits_eq]
    split_ifs with h0
    · have ht : t ≠ 0 := fun ht => ratOf_fin_ne_zero hm neg e (by rw [← hexact.2 ht, h0, Int.cast_zero])
      exact ⟨by rw [h0]; simp [intBits], fun h => absurd h ht, fun _ => rfl⟩
    · exact ⟨rfl, fun ht => by simp [ht, when], fun ht => by simp [mt hexact.2 ht, when]⟩

theorem roundInt_spec (lo hi : Int) (w : Nat) (r : Rnd) (n : Num) :
    (n.isNan = true → roundInt lo hi w r n = (0, wINV)) ∧ (n.isZero = true → roundInt lo hi w r n = (0, 0)) ∧
      (n = .inf false → roundInt lo hi w r n = ((BitVec.ofInt w hi).toNat, wINV)) ∧
      (n = .inf true → roundInt lo hi w r n = ((BitVec.ofInt w lo).toNat, wINV)) := by
  cases n with
  | nan sig neg => simp [roundInt, Num.isNan, Num.isZero]
  | inf neg => cases neg <;> simp [roundInt, Num.isNan, Num.isZero, intBits_eq]
  | fin neg m e =>
    refine ⟨fun h => absurd h Bool.false_ne_true, fun h => if_pos (beq_iff_eq.1 h), ?_, ?_⟩ <;> rintro ⟨⟩

/-! ## Conversions of one element (R95 to R98) -/

theorem Cvt.intRange_spec {c : Cvt} (hc : c.float = none) : c.intRange.1 ≤ c.intRange.2.1 ∧ c.intRange.2.2 = c.width := by
  revert hc
  cases c <;> decide

theorem Cvt.unpack_of_float_none {c : Cvt} (hc : c.float = none) (x : Nat) : ∃ neg m, c.unpack x = .fin neg m 0 := by
  simp only [Cvt.unpack, hc]
  split
  · split <;> exact ⟨_, _, rfl⟩
  · exact ⟨_, _, rfl⟩

theorem ratOf_eq_toInt {c : Cvt} (hc : c.float = none) (x : Nat) : ratOf (c.unpack x) = ((c.unpack x).toInt : ℝ) := by
  obtain ⟨neg, m, h⟩ := Cvt.unpack_of_float_none hc x
  rw [h, ratOf_fin, zpow_zero, mul_one]
  exact (cast_signedInt neg m).symm

/-- The flag of a reserved ternary code (R78). -/
def trnFlag (c : Cvt) (x : Nat) : Word := when (c == .trn2 && x % 4 == 2) wTRNRES

theorem trnFlag_of_float {c : Cvt} (hc : c.float.isSome = true) (x : Nat) : trnFlag c x = 0 := by
  have hne : c ≠ .trn2 := by
    rintro rfl
    simp [Cvt.float] at hc
  simp [trnFlag, hne, when]

theorem convert_to_float {df : Cvt} {f : FloatFmt} (hdf : df.float = some f) (sf : Cvt) (env : FEnv) (sat : Bool) (x : Nat) :
    let z := roundFloat f env.rnd (env.fout && decide (df ∈ flushFormats) && !widens sf df) (sat && df != .fp64)
      (flushIn sf env.fin (sf.unpack x))
    convert sf df env sat x = (if df = .f19 then z.1 * 2 ^ 13 else z.1, trnFlag sf x ||| z.2) := by
  have hout : ((if widens sf df then { env with fout := false } else env).fout && df.flushes) =
      (env.fout && decide (df ∈ flushFormats) && !widens sf df) := by
    rw [df.flushes_eq]
    cases widens sf df <;> simp
  have hrnd : (if widens sf df then { env with fout := false } else env).rnd = env.rnd := by
    cases widens sf df <;> rfl
  simp only [convert, roundTo, hdf, Option.isNone_some, Bool.and_false, Bool.false_eq_true, if_false, hout, hrnd, Nat.shiftLeft_eq]
  rfl

theorem convert_float_to_int {sf df : Cvt} (hdf : df.float = none) (hsf : sf.float.isSome = true) (env : FEnv) (sat : Bool)
    (x : Nat) :
    convert sf df env sat x =
      roundInt df.intRange.1 df.intRange.2.1 df.width env.rnd (flushIn sf env.fin (sf.unpack x)) := by
  have hw : widens sf df = false := by simp [widens, hdf]
  have hsf' : sf.float.isNone = false := by simpa using hsf
  have htrn := trnFlag_of_float hsf x
  unfold trnFlag at htrn
  simp only [convert, roundTo, hdf, hsf', hw, htrn, Bool.false_and, Bool.false_eq_true, if_false, (Cvt.intRange_spec hdf).2]
  exact Prod.ext rfl BitVec.zero_or

theorem convert_int_to_int {sf df : Cvt} (hdf : df.float = none) (hsf : sf.float = none) (env : FEnv) (sat : Bool) (x : Nat)
    {v : Int} (hv : ratOf (flushIn sf env.fin (sf.unpack x)) = v) :
    let clamped := if v < df.intRange.1 then df.intRange.1 else if df.intRange.2.1 < v then df.intRange.2.1 else v
    let used := if sat = true ∨ df = .trn2 then clamped else v
    convert sf df env sat x = ((BitVec.ofInt df.width used).toNat, trnFlag sf x ||| when (used != v) wINV) := by
  obtain ⟨hle, hw⟩ := Cvt.intRange_spec hdf
  rw [flushIn_of_float_none hsf, ratOf_eq_toInt hsf, Int.cast_inj] at hv
  intro clamped used
  have hconv : convert sf df env sat x =
      if df.intRange.1 ≤ v ∧ v ≤ df.intRange.2.1 then (intBits df.width v, trnFlag sf x)
      else if sat || df == .trn2 then
        (intBits df.width (if v < df.intRange.1 then df.intRange.1 else df.intRange.2.1), trnFlag sf x ||| wINV)
      else (intBits df.width v, trnFlag sf x) := by
    simp only [convert, hdf, hsf, flushIn_of_float_none hsf, hv, Option.isNone_none, Bool.and_self, if_true, hw]
    rfl
  rw [hconv, ← intBits_eq]
  by_cases hin : df.intRange.1 ≤ v ∧ v ≤ df.intRange.2.1
  · have hused : used = v := by
      simp only [used, clamped]
      split_ifs <;> omega
    simp [hin, hused, when]
  · by_cases hclamp : sat = true ∨ df = .trn2
    · have hused : used = if v < df.intRange.1 then df.intRange.1 else df.intRange.2.1 := by
        simp only [used, clamped, if_pos hclamp]
        split_ifs <;> omega
      have hne : used ≠ v := by
        rw [hused]
        split_ifs <;> omega
      rw [if_neg hin, if_pos (by simpa using hclamp), ← hused, bne_iff_ne.2 hne]
      rfl
    · have hused : used = v := if_neg hclamp
      rw [if_neg hin, if_neg (by simpa using hclamp), hused]
      simp [when]

/-- Settles O28: each format by its grid and its codes, each conversion by the rounding it makes (log entry 79: .sat turns an
infinity into the maximum of a wider float too). -/
theorem rounding : Obligations.Rounding := by
  refine ⟨fun c f hc => ?_, fun c on neg m e f hc => flushIn_fin hc on neg m e, fun c on x h => ?_, fun sf df env sat x => ?_⟩
  · have hf := Cvt.regular_of_float hc
    refine ⟨fun x r hx => roundFloat_unpack hf r hx, fun r fout sat neg m e hm => ?_, roundFloat_zero hf,
      roundFloat_inf_spec hf, roundFloat_nan_spec hf⟩
    rw [roundFloat_fin, if_neg hm]
    exact roundsTo_roundFinite hf hm e r fout sat neg
  · exact h.elim (fun hc => flushIn_of_float_none hc on x) (flushIn_of_not_fin c on)
  · refine ⟨fun f hf => convert_to_float hf sf env sat x, fun hdf hsf neg m e hn hm => ?_, fun hdf hsf => ?_,
      fun hdf hsf v => convert_int_to_int hdf hsf env sat x⟩
    · rw [convert_float_to_int hdf hsf, hn]
      exact roundsToInt_roundInt (Cvt.intRange_spec hdf).1 _ _ _ hm _
    · rw [convert_float_to_int hdf hsf]
      exact roundInt_spec _ _ _ _ _

end Sys2Proof

/-!
PROOFS. The channel pointers and the streams of the ports (O40), and the buffer that a copy drains at its issue (O39).
-/

namespace Sys2Proof.Machine

open Sys2Proof

/-! ## Channel pointers (R116, R205, R206) -/

section

variable {s0 s : State} {w : Issuer} {t : Team} {q : Party} {d k : SReg} {ch : BitVec 3} {m : BitVec 2} {x : Channel}

theorem exec_cpwpRead_of_channel (h : Executes (.cpwpRead d ch) s0 w s t q) (hx : Map.find t.channels ch.toNat = some x) :
    exec (.cpwpRead d ch) s0 =
      .next (s0.after (.cpwpRead d ch) w (s.modParty w.tid w.p fun q => q.setS w.sl d.toNat x.wptr)) := by
  rw [exec_cpwpRead, execCpwpRead]
  exact runTeam_done h (by rw [hx]) h.calm

/-- WPTR has reached a target (R205): SEQ is its command's and no command is left or DELIVERED is as far, or SEQ is past it in the
sense of the sequence numbers modulo 128. -/
theorem Channel.reached_iff (x : Channel) (target : Word) : x.reached target = true ↔
    let ahead := ((target.toNat / 2 ^ 25) + 128 - x.wptr.toNat / 2 ^ 25) % 128
    if ahead = 0 then x.cmds = [] ∨ target.toNat % 2 ^ 25 ≤ x.wptr.toNat % 2 ^ 25 else 64 ≤ ahead := by
  have hseq (v : Word) : v.toNat / 2 ^ 25 % 2 ^ 7 = v.toNat / 2 ^ 25 := by omega
  simp only [Channel.reached, toNat_fld, hseq, pow_zero, Nat.div_one]
  split <;> simp

theorem exec_cpwpWait_of_reached (h : Executes (.cpwpWait d ch k) s0 w s t q) (hx : Map.find t.channels ch.toNat = some x)
    (hr : x.reached (q.getS w.sl k.toNat) = true) :
    exec (.cpwpWait d ch k) s0 =
      .next (s0.after (.cpwpWait d ch k) w (s.modParty w.tid w.p fun q => q.setS w.sl d.toNat x.wptr)) := by
  rw [exec_cpwpWait, execCpwpWait]
  exact runTeam_done h (by simp only [hx, hr, if_true]) h.calm

theorem exec_cpwpAck_of_room {u : Nat} {v : Team} {n : Node} (h : Executes (.cpwpAck m k) s0 w s t q)
    (hm : t.other m.toNat = true) (hu : s.memberTeam t m.toNat = some u) (hv : Map.find s.teams u = some v)
    (hn : s.node? t = some n) (hroom : (Store.read v.free t.vcore).toNat + (q.getS w.sl k.toNat).toNat ≤ n.rslots) :
    exec (.cpwpAck m k) s0 = .next (s0.after (.cpwpAck m k) w (s.modTeam u fun x =>
      { x with free := Store.write x.free t.vcore (Store.read v.free t.vcore + q.getS w.sl k.toNat) })) := by
  rw [exec_cpwpAck, execCpwpAck]
  refine runTeam_done h ?_ h.calm
  simp only [hm, hu, hv, hn, Bool.not_true, Bool.false_eq_true, if_false, if_neg (Nat.not_lt.2 hroom)]

/-- Slots given back to a member whose team is no longer there are gone. -/
theorem exec_cpwpAck_of_gone (h : Executes (.cpwpAck m k) s0 w s t q) (hm : t.other m.toNat = true)
    (hu : s.memberTeam t m.toNat = none) : exec (.cpwpAck m k) s0 = .next (s0.after (.cpwpAck m k) w s) := by
  rw [exec_cpwpAck, execCpwpAck]
  refine runTeam_done h ?_ h.calm
  simp only [hm, hu, Bool.not_true, Bool.false_eq_true, if_false]

theorem exec_cpwpRecv_of_other (h : Executes (.cpwpRecv d m) s0 w s t q) (hm : t.other m.toNat = true) :
    exec (.cpwpRecv d m) s0 =
      .next (s0.after (.cpwpRecv d m) w (s.modParty w.tid w.p fun q => q.setS w.sl d.toNat (Store.read t.recv m.toNat))) := by
  rw [exec_cpwpRecv, execCpwpRecv]
  refine runTeam_done h ?_ h.calm
  simp only [hm, Bool.not_true, Bool.false_eq_true, if_false]

theorem exec_cpcan_of_issues (h : Issues (.cpcan ch) s0 w t q s) :
    exec (.cpcan ch) s0 = .next (s0.after (.cpcan ch) w (s.modTeam w.tid fun t =>
      { t with channels := Map.update t.channels ch.toNat fun x =>
          { x with cmds := x.cmds.map fun c => { c with cancelled := true } } })) := by
  rw [exec_cpcan, execCpcan, runParty_of_issues h, Effect.unstuck_done (by exact h.calm)]
  rfl

end

/-! ## Binding and closing a port (R207 to R209) -/

section

variable {s0 s s1 s2 s3 : State} {w : Issuer} {t : Team} {q : Party} {n : BitVec 2}

/-- A port with nothing left to write, of a store port with the release of its bind made, is bound to the tile that the handle
names. -/
theorem exec_qbind_of_closed {h : BitVec 4} {scope : Scope} {hd : Handle} (hx : Executes (.qbind n h scope) s0 w s t q)
    (hh : s.copyHandle w.tid h.toNat = (s1, .ok hd)) (hf : hFmt hd ≠ 1) (hf' : hFmt hd ≠ 0xE) (hw : q.storing n.toNat = false)
    (hc : s1.closeWait t.core w.tid w.p q n.toNat = (s2, none))
    (hr : s2.release t.core w.tid w.p q (copyScope scope) = (s3, none)) :
    let i := Instr.qbind n h scope
    let r := (s3.closeLoad w.tid w.p n.toNat).modParty w.tid w.p fun q' =>
      { q' with
        warn := q'.warn ||| when (scope == .pt) wFALLBK
        ports := Map.set q'.ports n.toNat
          { kind := if n.toNat < 2 then .load else .store, handle := hd, pos := 0,
            rnd := (fld (q.slot w.sl).mode 0 3).toNat, sub := (fld (q.slot w.sl).mode 4 2).toNat, scope := copyScope scope,
            origin := originOf w q i.word, groups := [], unwritten := [], ended := false } }
    r.stuck = false → exec i s0 = .next (s0.after i w r) := by
  intro i r hs
  rw [exec_qbind, execQbind]
  refine runTeam_done hx ?_ hs
  simp only [hh, hf, hf', hw, hc, hr, or_self, Bool.false_eq_true, if_false]
  rfl

theorem exec_qclose_of_unbound (h : Executes (.qclose n) s0 w s t q) (hw : q.storing n.toNat = false)
    (hp : Map.find q.ports n.toNat = none) : exec (.qclose n) s0 = .next (s0.after (.qclose n) w s) := by
  rw [exec_qclose, execQclose]
  exact runTeam_done h (by simp only [hw, hp, Bool.false_eq_true, if_false]) h.calm

variable {x : Port}

theorem exec_qclose_of_store (h : Executes (.qclose n) s0 w s t q) (hw : q.storing n.toNat = false)
    (hp : Map.find q.ports n.toNat = some x) (hk : x.kind = .store)
    (hc : s.closeWait t.core w.tid w.p q n.toNat = (s1, none)) (hs : s1.stuck = false) :
    exec (.qclose n) s0 = .next (s0.after (.qclose n) w
      (s1.modParty w.tid w.p fun q => { q with ports := Map.drop q.ports n.toNat })) := by
  rw [exec_qclose, execQclose]
  exact runTeam_done h (by simp only [hw, hp, hk, hc, Bool.false_eq_true, if_false, if_true]) hs

theorem exec_qclose_of_load (h : Executes (.qclose n) s0 w s t q) (hw : q.storing n.toNat = false)
    (hp : Map.find q.ports n.toNat = some x) (hk : x.kind ≠ .store) (hs : (s.closeLoad w.tid w.p n.toNat).stuck = false) :
    exec (.qclose n) s0 = .next (s0.after (.qclose n) w (s.closeLoad w.tid w.p n.toNat)) := by
  rw [exec_qclose, execQclose]
  exact runTeam_done h (by simp only [hw, hp, hk, Bool.false_eq_true, if_false]) hs

end

/-- Settles O40, instruction by instruction: each has nothing to wait for. -/
theorem channelsAndStreams : Obligations.ChannelsAndStreams := by
  refine ⟨fun d ch s0 w s t q x => exec_cpwpRead_of_channel, ?_, fun m k s0 w s t q u v n => exec_cpwpAck_of_room,
    fun m k s0 w s t q => exec_cpwpAck_of_gone, fun d m s0 w s t q => exec_cpwpRecv_of_other,
    fun ch s0 w t q s => exec_cpcan_of_issues, fun n h scope s0 w s t q s1 s2 s3 hd => exec_qbind_of_closed, ?_⟩
  · intro d ch k s0 w s t q x h hx hr
    exact exec_cpwpWait_of_reached h hx ((x.reached_iff _).2 hr)
  · intro n s0 w s t q i h hw
    exact ⟨exec_qclose_of_unbound h hw, fun x hp =>
      ⟨fun s1 => exec_qclose_of_store h hw hp, exec_qclose_of_load h hw hp⟩⟩

/-! ## A copy's issue (R105) -/

/-- The buffer of a core after a step that answers a state. -/
def bufferAfter (core : Nat) : Host.Outcome State Fault Refusal → List WcbEntry
  | .next s => s.wcbOf core
  | _ => []

/-- A party of team 1 issues a cpy of scope .tm: h0 points at bytes that are zero, which name one element at 0, and the core's
buffer holds an earlier store. -/
def storeBeforeCopy : State :=
  { (State.reset.withFetchWord 32 0xD0000008).modTeam 1 (fun t => { t with handles := [(0, 0x10101)] }) with
    wcb := [(0, [{ line := 4096, bytes := [(0, 1)], owners := [(1, 0)], last := 0 }])] }


/-- The team that issues the copy. -/
def copyingTeam : Team := (Map.find storeBeforeCopy.teams 1).get (by decide +kernel)

/-- The party that issues the copy. -/
def copyingParty : Party := (Map.find copyingTeam.parties 0).get (by decide +kernel)

/-- The copy meets nothing to wait for at its issue. -/
theorem executes_storeBeforeCopy :
    Executes (.cpy 0 0 0 0 .tm) storeBeforeCopy ⟨1, 0, false⟩ storeBeforeCopy copyingTeam copyingParty := by
  have h : IssuesPlain (.cpy 0 0 0 0 .tm) storeBeforeCopy ⟨1, 0, false⟩ copyingTeam copyingParty := by
    constructor <;> decide +kernel
  exact ⟨.inl ⟨_, _, h.issues⟩, (party_of_issuer h.issuer).1⟩

/-- The copy drains its core's buffer at its issue, whatever its scope (log entry 13). -/
theorem bufferAfter_cpy : bufferAfter 0 (exec (.cpy 0 0 0 0 .tm) storeBeforeCopy) = [] := by decide +kernel

/-- Refutes O39: before a copy enters its channel its core's buffer drains whatever the scope (R105, log entry 13), where the
statement adds the command to what the release alone has left, and a release at .tm drains nothing. -/
theorem not_copiesIssue : ¬ Obligations.CopiesIssue := by
  intro h
  have hcpy := h.1 0 0 0 0 .tm storeBeforeCopy _ storeBeforeCopy _ _ storeBeforeCopy storeBeforeCopy storeBeforeCopy 0 0
    { phys := 0, cmds := [], next := 0, wptr := 0xFE000000 } executes_storeBeforeCopy (by decide +kernel) (by decide +kernel)
    (by decide +kernel) (by decide +kernel) (by decide +kernel) (by decide +kernel) (by decide +kernel) (by decide +kernel)
    (by decide +kernel) (by decide +kernel) (by decide +kernel) (by decide +kernel) (by decide +kernel)
  have hdrained := bufferAfter_cpy
  rw [hcpy] at hdrained
  exact absurd hdrained (by decide +kernel)

end Sys2Proof.Machine

/-!
PROOFS. The events of the engines and of convoys (O55): what each does when its command or operation can go on.
-/

namespace Sys2Proof.Machine

open Sys2Proof

/-! ## The channels (R104 to R112) -/

section

variable {s s1 : State} {tid ch : Nat} {t : Team} {x : Channel} {c c1 : CopyCmd} {rest : List CopyCmd}

/-- The command that a channel is at. -/
theorem head_of_channel (hx : Map.find t.channels ch = some x) (hc : x.cmds = c :: rest) :
    ((Map.find t.channels ch).bind fun x => x.cmds.head?) = some c := by
  simp [hx, hc]

/-- An engine's read answers what its function answers. -/
theorem State.readAs_answer {α : Type} {s s1 : State} {r : Reader} {f : State → State × α} {x : α}
    (h : s.readAs r f = (s1, x)) : (f { s with reader := some r }).2 = x :=
  congrArg Prod.snd h

/-- The delivery of a row keeps the command's number. -/
theorem State.deliverRow_id {d off0 off1 : Nat} {r : Option Nat × Option Nat}
    (h : (s.deliverRow tid t c d r off0 off1).2 = .ok c1) : c1.id = c.id := by
  unfold State.deliverRow at h
  split at h
  · cases h
    rfl
  · split at h
    · cases h
    · refine List.foldlRecOn (motive := fun y : State × Except Cause CopyCmd => ∀ c1, y.2 = .ok c1 → c1.id = c.id) _ _
        (fun c1 h1 => ?_) (fun y hy place _ c1 h1 => ?_) c1 h
      · cases h1
        rfl
      · obtain ⟨s2, e | c2⟩ := y
        · cases h1
        · dsimp only at h1
          split at h1
          · cases h1
          · cases h1
            exact hy c2 rfl

/-- A delivery keeps the command's number. -/
theorem State.deliverAll_id {d : Nat} {ss : List (Nat × Nat × Nat)} (h : (s.deliverAll tid t c d ss).2 = .ok c1) :
    c1.id = c.id := by
  induction ss generalizing s c with
  | nil =>
    cases h
    rfl
  | cons k ss ih =>
    rw [State.deliverAll] at h
    split at h
    · cases h
      rfl
    · split at h
      · cases h
      · next heq => exact (ih h).trans (State.deliverRow_id (congrArg Prod.snd heq))

/-- A channel without a stream class delivers a step of its oldest command (R107). -/
theorem exec_copyDeliver_of_ready {n : Nat} (ht : Map.find s.teams tid = some t) (hx : Map.find t.channels ch = some x)
    (hc : x.cmds = c :: rest) (hrun : t.running = true) (hout : s.copyOutstanding tid c.origin = false)
    (hcls : s.classOf t ch = 0) :
    let d := c.whole (min c.stop (c.delivered + n))
    let ss := c.stretches c.delivered d
    c.delivered < d → (c.byRows = true ∨ c.stop ≤ d ∨ c.delivered + 64 ≤ d) →
    s.outranked c.place (s.stretchLines tid t c ss) = false →
    s.readAs { id := c.id, tid := tid, origin := c.origin, serial := false } (fun s => s.deliverAll tid t c d ss) = (s1, .ok c1) →
    exec (.copyDeliver tid ch n) s =
      .next (((s1.usedBytes c.id).setCmd tid ch { c1 with written := d }).landed tid ch) := by
  intro d ss hlt hstep hrank hread
  have hmay : (!t.running || decide (d ≤ c.delivered) || (!c.byRows && decide (d < c.stop ∧ d < c.delivered + 64)) ||
      s.copyOutstanding tid c.origin) = false := by
    have hlen : (!c.byRows && decide (d < c.stop ∧ d < c.delivered + 64)) = false := by
      obtain h | h | h := hstep
      · simp [h]
      · simp [Nat.not_lt.2 h]
      · simp [Nat.not_lt.2 h]
    rw [hrun, hlen, hout, decide_eq_false (Nat.not_le.2 hlt)]
    rfl
  have hid : c1.id = c.id := State.deliverAll_id (State.readAs_answer hread)
  simp only [exec_copyDeliver, execCopyDeliver, ht, head_of_channel hx hc]
  rw [hmay]
  simp [hcls, d, ss, hrank, hread, hid]

theorem exec_copyComplete_of_delivered (ht : Map.find s.teams tid = some t) (hx : Map.find t.channels ch = some x)
    (hc : x.cmds = c :: rest) (hrun : t.running = true) (hstop : c.stop ≤ c.delivered)
    (hout : s.copyOutstanding tid c.origin = false) :
    exec (.copyComplete tid ch) s = .next ((((s.completeOp c.id).modChan tid ch fun x =>
      { x with
        cmds := x.cmds.drop 1
        wptr := match x.cmds.drop 1 with
          | y :: _ => wptrOf y.seq 0
          | [] => if (c.seq + 1) % 128 = x.next then wptrOf c.seq c.delivered else wptrOf (x.next + 127) 0 })).modParty tid
        (c.origin.party.getD 0) fun q => q.writeStatus c.id c.sd c.flags (statusOf c.poison c.cancelled c.delivered)) := by
  have hdone : ¬(!t.running || decide (c.delivered < c.stop) || s.copyOutstanding tid c.origin) = true := by
    simp [hrun, hout, hstop]
  simp only [exec_copyComplete, execCopyComplete, ht, head_of_channel hx hc]
  exact if_neg hdone

end

/-! ## The stream unit (R120) -/

section

variable {s : State} {cluster core : Nat} {c : SsuCmd} {t : Team}

/-- A command that has ended leaves its unit once no write to a peer is outstanding. -/
theorem exec_ssuComplete_of_ended {w st : Word} (hc : (((Map.find s.ssu cluster).getD []).find? fun c => c.core == core) = some c)
    (ht : Map.find s.teams c.tid = some t) (hrun : t.running = true) (he : c.ended = some (w, st))
    (hout : s.copyOutstanding c.tid c.origin = false) :
    exec (.ssuComplete cluster core) s = .next (s.endSsu cluster c w st) := by
  simp only [exec_ssuComplete, execSsuComplete, hc, ht, hrun, he, hout, Bool.not_true, Bool.false_eq_true, if_false]

/-- A command whose passes have retired runs and writes its outputs; its status word waits for the writes to peers. -/
theorem exec_ssuComplete_of_written {s1 : State} {o : SsuOut}
    (hc : (((Map.find s.ssu cluster).getD []).find? fun c => c.core == core) = some c)
    (ht : Map.find s.teams c.tid = some t) (hrun : t.running = true) (he : c.ended = none) (hp : c.passes.left = 0)
    (hrank : s.outranked c.place c.owned = false)
    (hread : (s.readAs { id := c.id, tid := c.tid, origin := c.origin, serial := true } fun s =>
        let (s, o) := s.runSsu c
        let (s, e) := s.putSsu c o
        (s, o, e)) = (s1, o, none)) (hf : o.fault = none) :
    let s2 := s1.usedBytes c.id
    exec (.ssuComplete cluster core) s = .next (if s2.copyOutstanding c.tid c.origin = true then
        { s2 with
          ssu := Map.update s2.ssu cluster fun cs =>
            cs.map fun x => if x.id = c.id then { x with ended := some (o.warn, ssuStatus c o) } else x }
      else s2.endSsu cluster c o.warn (ssuStatus c o)) := by
  intro s2
  have hgo : ¬(0 < c.passes.left ∨ s.outranked c.place c.owned = true) := by simp [hp, hrank]
  simp only [exec_ssuComplete, execSsuComplete, hc, ht, hrun, he, hgo, hread, hf, Bool.not_true, Bool.false_eq_true, if_false,
    Option.or_none]
  split <;> rfl

end

/-! ## The neighbour engine (R129, R130, R216) -/

section

variable {s s1 : State} {cluster : Nat} {c : NeCmd} {t : Team}

/-- The pairs that an nbpairs has left, found at its first group, enter its stream up to 96 at a time. -/
theorem exec_nePairGroup_of_pairs {ps : List (List Word)} {f : Word} (hc : s.neHead cluster = some (c, t))
    (hrun : t.running = true) (hp : c.port.isSome = true) (he : c.ended = none)
    (hps : (match c.pairs with
      | some ps => (s, Except.ok (ps, c.flags))
      | none =>
        let (s, r) := s.readAs c.reader fun s => s.startPairs c
        (s.usedBytes c.id, r)) = (s1, .ok (ps, f))) (hne : ps ≠ []) :
    exec (.nePairGroup cluster) s = .next ((({ s1.useFree with
      ne := Map.update s1.ne cluster fun cs =>
        cs.map fun x => if x.id = c.id then { x with pairs := some (ps.drop 96), flags := f } else x } : State).enterGroups c
          (pairGroup s1.free (ps.take 96)) false)) := by
  have hport : c.port.isNone = false := Option.isNone_eq_false_iff.2 hp
  have hmore : ps.isEmpty = false := by simpa using hne
  simp only [exec_nePairGroup, execNePairGroup, hc, hrun, hport, he, Bool.not_true, Option.isSome_none, Bool.or_self,
    Bool.false_eq_true, if_false]
  split
  · next heq => cases heq.symm.trans hps
  · next heq =>
    cases heq.symm.trans hps
    rw [hmore]
    rfl

theorem exec_neComplete_of_ended {st : Word} (hc : s.neHead cluster = some (c, t)) (hrun : t.running = true)
    (he : c.ended = some st) : exec (.neComplete cluster) s = .next (s.endNe cluster c st) := by
  simp only [exec_neComplete, execNeComplete, hc, hrun, he, Bool.not_true, Bool.false_eq_true, if_false]

theorem exec_neComplete_of_bin (hc : s.neHead cluster = some (c, t)) (hrun : t.running = true) (he : c.ended = none)
    (hp : c.port = none) (hrank : s.outranked c.place c.owned = false) :
    exec (.neComplete cluster) s = .next (s.runAs c.reader fun s => s.runBin cluster c t) := by
  simp only [exec_neComplete, execNeComplete, hc, hrun, he, hp, hrank, Bool.not_true, Bool.false_eq_true, if_false]

/-- An nbpairs without a pair left ends with its terminal group. -/
theorem exec_neComplete_of_no_pairs (hc : s.neHead cluster = some (c, t)) (hrun : t.running = true) (he : c.ended = none)
    (hp : c.port.isSome = true) (hps : c.pairs = some []) :
    exec (.neComplete cluster) s = .next
      ((s.useFree.enterGroups c (terminalGroup s.free (pairStatus t.neStatus c.flags)) true).endNe cluster c
        (pairStatus t.neStatus c.flags)) := by
  obtain ⟨port, hport⟩ := Option.isSome_iff_exists.1 hp
  simp only [exec_neComplete, execNeComplete, hc, hrun, he, hport, hps, Bool.not_true, Bool.false_eq_true, if_false]

end

/-! ## Store streams (R209) -/

section

variable {s s1 s2 : State} {tid p port : Nat} {t : Team} {q : Party} {x : Port}

theorem exec_storeStreamDrained_of_open (ht : Map.find s.teams tid = some t) (hq : s.party? tid p = some q)
    (hx : Map.find q.ports port = some x) (hrun : t.running = true) (hk : x.kind = .store)
    (hw : s.writePushed tid x x.unwritten = (s1, none)) (he : x.ended = false) :
    exec (.storeStreamDrained tid p port) s =
      .next (s1.modParty tid p fun q => { q with ports := Map.set q.ports port { x with unwritten := [] } }) := by
  simp [exec_storeStreamDrained, execStoreStreamDrained, ht, hq, hx, hrun, hk, hw, he]

/-- A store stream that takes no more is unbound with the release at the scope of its bind. -/
theorem exec_storeStreamDrained_of_ended (ht : Map.find s.teams tid = some t) (hq : s.party? tid p = some q)
    (hx : Map.find q.ports port = some x) (hrun : t.running = true) (hk : x.kind = .store)
    (hw : s.writePushed tid x x.unwritten = (s1, none)) (he : x.ended = true)
    (hout : s1.copyOutstanding tid x.origin = false)
    (hr : s1.release t.core tid p { q with ports := Map.drop q.ports port } x.scope = (s2, none)) :
    exec (.storeStreamDrained tid p port) s =
      .next (s2.modParty tid p fun q => { q with ports := Map.drop q.ports port }) := by
  simp [exec_storeStreamDrained, execStoreStreamDrained, ht, hq, hx, hrun, hk, hw, he, hout, hr]

end

/-! ## Matrix passes (R277, R280 to R282) -/

/-- The array takes the waiting entry whose grant comes next; each older one counts a bypass. -/
theorem exec_passGrant_of_eligible (s : State) (cluster : Nat) (g : Entry) (hf : s.fenced.contains (.engine cluster) = false) :
    let s1 := s.repost cluster
    let waiting := (s1.matOps cluster).filter fun e => !e.passes.waiting.isEmpty && s1.posts e
    let s2 := (waiting.filter fun e => e.older g).foldl
      (fun s e => s.modPasses cluster e fun x => { x with waiting := x.waiting.map (· + 1) }) s1
    grantee waiting = some g → s1.eligible g = true →
    exec (.passGrant cluster) s = .next ((s2.enterArray cluster g).repost cluster) := by
  intro s1 waiting s2 hg hel
  simp only [exec_passGrant, execPassGrant, hf, Bool.false_eq_true, if_false]
  rw [show grantee _ = some g from hg]
  exact if_neg (by simpa using hel)

section

variable {s : State} {tid id : Nat} {t : Team} {e : Entry} {q : Sequencer} {o : MatOp} {p : PassFmt} {mismatch : Bool}

/-- A pass of an operation of the sequencer finishes. -/
theorem exec_passRetire_of_op (ht : Map.find s.teams tid = some t)
    (he : ((s.matOps (clusterOf t.core)).find? fun e => e.tid == tid && e.id == id && decide (0 < e.passes.inArray)) = some e)
    (hspx : e.spx = false) (hq : t.seq = some q) (ho : (q.ops.find? fun o => o.id == id) = some o) :
    exec (.passRetire tid id mismatch false) s = .next (s.retirePass tid t o mismatch) := by
  have hop : (t.seq.bind fun q => q.ops.find? fun o => o.id == id) = some o := by simp [hq, ho]
  simp only [exec_passRetire, execPassRetire, ht, he, hspx, hop, Bool.and_false, Bool.false_eq_true, if_false]

theorem exec_passRetire_of_spx (ht : Map.find s.teams tid = some t)
    (he : ((s.matOps (clusterOf t.core)).find? fun e => e.tid == tid && e.id == id && decide (0 < e.passes.inArray)) = some e)
    (hspx : e.spx = true) :
    exec (.passRetire tid id mismatch false) s =
      .next ((s.modPasses (clusterOf t.core) e fun x => { x with inArray := x.inArray - 1 }).modSeq tid fun q =>
        { q with check := countPass q.check false mismatch }) := by
  simp only [exec_passRetire, execPassRetire, ht, he, hspx, Bool.and_false, Bool.false_eq_true, if_false, if_true]

theorem exec_passRetire_of_mismatches (ht : Map.find s.teams tid = some t)
    (he : ((s.matOps (clusterOf t.core)).find? fun e => e.tid == tid && e.id == id && decide (0 < e.passes.inArray)) = some e) :
    exec (.passRetire tid id true true) s = .next (s.doubleMismatch tid id (clusterOf t.core)) := by
  simp only [exec_passRetire, execPassRetire, ht, he, Bool.and_self, if_true]

/-- The pass of an mma or mmt whose turn at its tile has come writes the tile, and its operation retires. -/
theorem State.retirePass_of_tile {cd kc nb : Nat} {a b : AReg} {h : Handle} {tr m : Bool} (hk : o.kind = .pass cd a h tr kc nb m)
    (hb : o.fetched = [b]) (hp : passFmt (passCode o.fmt) = some p) (htile : t.tileTurn o = true)
    (hpoison : t.tilePoisoned (p.a == .fp64) cd = false) :
    s.retirePass tid t o mismatch = (s.modTeam tid fun t =>
      ((t.pass p o.fmt a b cd fun j => !m || t.activeNeurons j).modSeq fun q =>
        { q with check := countPass q.check true mismatch }).raiseAll (passWarn p o b)).retireOp tid o.id := by
  simp only [State.retirePass, hk, hb, hp, htile, hpoison, Bool.not_true, Bool.false_eq_true, if_false]

/-- A pass of another operation is counted. -/
theorem State.retirePass_of_not_pass (hk : ∀ cd a h tr kc nb m, o.kind ≠ .pass cd a h tr kc nb m) :
    s.retirePass tid t o mismatch = (s.modTeam tid fun t => t.modSeq fun q =>
      { q with check := countPass q.check true mismatch }).modOp tid o.id fun o =>
        { o with passes := { o.passes with inArray := o.passes.inArray - 1 } } := by
  unfold State.retirePass
  dsimp only
  split
  · next hpass _ _ => exact absurd hpass (hk _ _ _ _ _ _ _)
  · rfl

end

/-! ## The other operations (R265, R277) -/

section

variable {s : State} {tid id : Nat} {t : Team} {q : Sequencer} {o : MatOp} {p : PassFmt}

/-- The end of an operation whose passes have retired, of an active team: of one that has ended once its writes are performed, of
another by its turns at its tile and at memory. -/
theorem exec_matrixOpRetire_of_op (ht : Map.find s.teams tid = some t) (hq : t.seq = some q)
    (ho : (q.ops.find? fun o => o.id == id) = some o) (hp : passFmt (passCode o.fmt) = some p) (ha : t.active = true)
    (hl : o.passes.left = 0) :
    (∀ w, o.ended = some w → exec (.matrixOpRetire tid id) s = .next (s.afterWrites tid o w)) ∧
    (o.ended = none → t.tileTurn o = true → s.outranked o.place o.owned = false → exec (.matrixOpRetire tid id) s =
      .next (if s.memTurn tid t q o = true then s.runAs (o.reader tid) fun s => s.retireKind tid t o q.lko p
        else s.fetchBefore tid t q o)) := by
  have hop : (t.seq.bind fun q => (q.ops.find? fun o => o.id == id).map fun o => (o, q)) = some (o, q) := by simp [hq, ho]
  simp only [exec_matrixOpRetire, execMatrixOpRetire, ht, hop, hp, ha, hl]
  refine ⟨fun w hw => by simp [hw], fun he htile hrank => ?_⟩
  cases hm : s.memTurn tid t q o <;> simp [he, htile, hrank]

/-- An operation whose turns have come has the effect of its kind. -/
theorem exec_matrixOpRetire_of_turns (ht : Map.find s.teams tid = some t) (hq : t.seq = some q)
    (ho : (q.ops.find? fun o => o.id == id) = some o) (hp : passFmt (passCode o.fmt) = some p) (ha : t.active = true)
    (hl : o.passes.left = 0) (he : o.ended = none) (htile : t.tileTurn o = true) (hm : s.memTurn tid t q o = true)
    (hrank : s.outranked o.place o.owned = false) {f : State → State} (hf : ∀ s, s.retireKind tid t o q.lko p = f s) :
    exec (.matrixOpRetire tid id) s = .next (s.runAs (o.reader tid) f) := by
  rw [(exec_matrixOpRetire_of_op ht hq ho hp ha hl).2 he htile hrank, if_pos hm, funext hf]

end

/-! ## Convoys (R326, R333) -/

/-- The state with another time of the last commit and another table of convoys. -/
def State.withCommits (s : State) (last : Nat) (table : Map CvState) : State := { s with cvLast := last, cvTable := table }

section

variable (s : State) (last : Nat) (table : Map CvState)

theorem State.applyReductions_withCommits (sel : RedEntry → Bool) :
    (s.withCommits last table).applyReductions sel = (s.applyReductions sel).withCommits last table := by
  have h := List.foldl_hom (fun s : State => s.withCommits last table) (g₁ := fun (s : State) e => RedEntry.apply e s)
    (g₂ := fun (s : State) e => RedEntry.apply e s) (l := s.reductions.filter sel) (init := s) fun _ _ => rfl
  unfold State.applyReductions
  rw [show (s.withCommits last table).reductions = s.reductions from rfl, h]
  rfl

theorem State.reach_withCommits (a n : Nat) :
    (s.withCommits last table).reach a n = (s.reach a n).withCommits last table := by
  unfold State.reach
  rw [show (s.withCommits last table).reductions = s.reductions from rfl]
  split
  · rfl
  · exact s.applyReductions_withCommits last table _

theorem State.commitLine_withCommits (line stamp comp : Nat) :
    (s.withCommits last table).commitLine line stamp comp = (s.commitLine line stamp comp).withCommits last table := by
  unfold State.commitLine
  rw [show (s.withCommits last table).cvLine line = s.cvLine line from rfl, State.reach_withCommits]
  dsimp only
  split <;> rfl

/-- The lines of a convoy commit whatever the table of convoys says. -/
theorem State.commitLines_withCommits (cid : BitVec 24) (ver : Word) (stamp comp : Nat) :
    (s.withCommits last table).commitLines cid ver stamp comp = (s.commitLines cid ver stamp comp).withCommits last table :=
  List.foldl_hom (fun s : State => s.withCommits last table) fun s line => s.commitLine_withCommits last table line stamp comp

end

theorem State.nextOrder_mem (s : State) (dst addr : Nat) (op : FabOp) : (s.nextOrder dst addr op).2.mem = s.mem := by
  obtain ⟨c, hc⟩ := s.nextOrder_frame dst addr op
  rw [hc]

/-- A request changes no memory. -/
theorem State.request_mem (s : State) (tid : Nat) (party : Option Nat) (acc : Option (Nat × Nat)) (o : Origin) (dst addr : Nat)
    (op : FabOp) : (s.request tid party acc o dst addr op).1.mem = s.mem :=
  State.nextOrder_mem _ dst addr op

theorem State.tellPeers_mem (s : State) (tid : Nat) (ranks : List Nat) (op : FabOp) : (s.tellPeers tid ranks op).mem = s.mem :=
  List.foldlRecOn (motive := fun r : State => r.mem = s.mem) ranks _ rfl fun r hr _ _ => (r.request_mem ..).trans hr

/-- A convoy that is closing keeps its slot at its commit. -/
theorem State.find_committed {s : State} {key : Nat} {c : CvSlot} {stamp : Nat} (hc : c.closing.isSome = true) :
    Map.find (s.committed key c stamp).cvSlots key = some { c with state := .committed, stamp := BitVec.ofNat 64 stamp } := by
  have hgone : c.closing.isNone = false := Option.isNone_eq_false_iff.2 hc
  simp [State.committed, hgone]

theorem State.committed_mem (s : State) (key : Nat) (c : CvSlot) (stamp : Nat) :
    (s.committed key c stamp).mem = (s.commitLines c.cid c.ver stamp (c.lines.length - 1)).mem :=
  State.tellPeers_mem ..

section

variable {s : State} {slot : Nat} {c : CvSlot} {x : CvClosing}

/-- A convoy commits at this device, its home, once tbase has passed the commits before. -/
theorem exec_convoyCommit_of_home (hc : Map.find s.cvSlots slot = some c) (hv : c.view = false) (hs : c.state = .opened)
    (hx : c.closing = some x) (ha : s.closingAway c = false) (hr : cidRank c.cid = s.rank.toNat) (hl : s.cvLast ≤ s.ns) :
    exec (.convoyCommit slot) s = .next ((s.withCommits (s.ns + 1) (Map.set s.cvTable (cidSlot c.cid) .committed)).committed
      slot c s.ns) := by
  simp only [exec_convoyCommit, execConvoyCommit, hc, hv, hs, hx, ha, hr, Nat.not_lt.2 hl, ne_eq, not_true_eq_false,
    Bool.false_eq_true, or_self, if_false, if_true]
  rfl

/-- The home of a convoy that is a peer is told to commit it. -/
theorem exec_convoyCommit_of_away (hc : Map.find s.cvSlots slot = some c) (hv : c.view = false) (hs : c.state = .opened)
    (hx : c.closing = some x) (ha : s.closingAway c = false) (hr : cidRank c.cid ≠ s.rank.toNat) :
    exec (.convoyCommit slot) s =
      .next ((s.request c.tid (some x.p) none x.origin (cidRank c.cid) 0 (.cvhome c.cid c.ver (c.lines.length - 1))).1.prepare
        c.cid c.ver) := by
  simp only [exec_convoyCommit, execConvoyCommit, hc, hv, hs, hx, ha, hr, ne_eq, not_true_eq_false, Bool.false_eq_true, or_self,
    if_false]

end

/-- A close is done when the bound of the time base has passed its stamp. -/
theorem exec_cvcloseDone_of_passed (s : State) (tid p key : Nat) (c : CvSlot) (x : CvClosing)
    (hc : (s.cvSlots.find? fun c => c.2.tid == tid && c.2.state == .committed && (match c.2.closing with
      | some x => x.p == p && decide (c.2.stamp.toNat + s.bound < s.ns)
      | none => false)) = some (key, c)) (hx : c.closing = some x) :
    exec (.cvcloseDone tid p) s = .next (({ s with
      cvSlots := Map.drop s.cvSlots key
      cvTable := if cidRank c.cid = s.rank.toNat then Map.drop s.cvTable (cidSlot c.cid) else s.cvTable } : State).modParty
        tid p fun q =>
        { q.setS false x.sd (cvStatus true false .committed c.lines.length) with
          pending := q.pending.filter fun y => y.op != x.op }) := by
  rw [exec_cvcloseDone, execCvcloseDone]
  split
  · next heq => cases heq.symm.trans hc
  · next heq =>
    cases heq.symm.trans hc
    rw [hx]

/-- Settles O55, event by event; the count in the status word of the stream unit is log entry 55, the message to a home that is a
peer log entry 11. -/
theorem engineEvents : Obligations.EngineEvents := by
  refine ⟨fun s s1 tid ch n t x c c1 rest => exec_copyDeliver_of_ready,
    fun s tid ch t x c rest => exec_copyComplete_of_delivered, ?_,
    fun s s1 cluster c t ps f => exec_nePairGroup_of_pairs, fun s cluster c t hc hrun =>
      ⟨fun st => exec_neComplete_of_ended hc hrun, exec_neComplete_of_bin hc hrun, exec_neComplete_of_no_pairs hc hrun⟩,
    fun s s1 tid p port t q x ht hq hx hrun hk hw =>
      ⟨exec_storeStreamDrained_of_open ht hq hx hrun hk hw, fun s2 => exec_storeStreamDrained_of_ended ht hq hx hrun hk hw⟩,
    exec_passGrant_of_eligible, ?_, ?_, ?_, exec_cvcloseDone_of_passed⟩
  · intro s cluster core c t hc ht hrun
    refine ⟨fun s1 o he hp hrank hread hf => ?_, fun w st => exec_ssuComplete_of_ended hc ht hrun⟩
    intro s2 status
    have h := exec_ssuComplete_of_written hc ht hrun he hp hrank hread hf
    exact ⟨fun hout => h.trans (congrArg _ (if_neg (ne_true_of_eq_false hout))),
      fun hout => h.trans (congrArg _ (if_pos hout))⟩
  · intro s tid id t e ht he
    refine ⟨exec_passRetire_of_mismatches ht he, fun mismatch => exec_passRetire_of_spx ht he, ?_⟩
    intro mismatch q o p hspx hq ho hp count
    have hid : o.id = id := by simpa using List.find?_some ho
    refine ⟨fun cd a h tr kc nb m b hk hb htile hpoison => ?_, fun hk => ?_⟩
    · rw [exec_passRetire_of_op ht he hspx hq ho, State.retirePass_of_tile hk hb hp htile hpoison, hid]
    · rw [exec_passRetire_of_op ht he hspx hq ho, State.retirePass_of_not_pass hk, hid]
  · intro s tid id t q o p ht hq ho hp ha hl
    obtain ⟨hended, hturn⟩ := exec_matrixOpRetire_of_op ht hq ho hp ha hl
    refine ⟨hended, fun he htile hm hrank => ?_, fun he htile hm hrank => ?_⟩
    · rw [hturn he htile hrank, hm]
      rfl
    · have hdoes {f : State → State} := exec_matrixOpRetire_of_turns (f := f) ht hq ho hp ha hl he htile hm hrank
      exact ⟨fun ma h kc nb hk => hdoes fun s => by rw [State.retireKind, hk],
        fun cd h kc nb hk => hdoes fun s => by rw [State.retireKind, hk],
        fun cd h hk => hdoes fun s => by rw [State.retireKind, hk],
        fun ma l hk hlko => hdoes fun s => by rw [State.retireKind, hk, hlko],
        fun cd ma h l hk hlko => hdoes fun s => by rw [State.retireKind, hk, hlko]⟩
  · intro s slot c x hc hv hs hx ha
    refine ⟨fun hr hl => ?_, exec_convoyCommit_of_away hc hv hs hx ha⟩
    have h := exec_convoyCommit_of_home hc hv hs hx ha hr hl
    refine ⟨h, _, h, State.find_committed (by rw [hx]; rfl), ?_⟩
    rw [State.committed_mem, State.commitLines_withCommits]
    rfl

end Sys2Proof.Machine

/-!
PROOFS. Scalar registers (O12): the words of a mask, and what a write of a register leaves to be read.
-/

namespace Sys2Proof.Machine

open Sys2Proof

/-! ## The words of a mask -/

theorem maskWord_and (a b : Mask) (k : Nat) : maskWord (a &&& b) k = maskWord a k &&& maskWord b k := by
  ext i hi
  simp [maskWord]

/-- The words of a mask that is put together from three. -/
theorem maskWord_append (x y z : Word) :
    maskWord (x ++ y ++ z) 0 = z ∧ maskWord (x ++ y ++ z) 1 = y ∧ maskWord (x ++ y ++ z) 2 = x := by
  refine ⟨?_, ?_, ?_⟩ <;>
    simp (disch := decide) only [maskWord, extract_append_low, extract_append_high, extract_all, Nat.reduceMul, Nat.reduceSub]

/-- A mask with a word replaced, word by word. -/
theorem maskWord_setMaskWord (m : Mask) (v : Word) {k j : Nat} (hk : k < 3) (hj : j < 3) :
    maskWord (setMaskWord m k v) j = if j = k then v else maskWord m j := by
  interval_cases k
  all_goals
    unfold setMaskWord
    interval_cases j
    all_goals simp [maskWord_append]

/-! ## Reads and writes -/

theorem Party.getS_mask (q : Party) (b : Bool) {n : Nat} (h : 61 ≤ n) : q.getS b n = maskWord (q.slot b).mask (n - 61) := by
  unfold Party.getS
  rw [if_neg (by omega), if_pos h]

theorem Party.setS_mask (q : Party) (b : Bool) {n : Nat} (v : Word) (h : 61 ≤ n) :
    q.setS b n v = q.modSlot b fun x => { x with mask := setMaskWord x.mask (n - 61) v &&& q.live } := by
  unfold Party.setS
  rw [if_neg (by omega), if_pos h]

/-- A register that holds a value is written alone. -/
theorem Party.getS_write_ne (q : Party) (b : Bool) {n m : Nat} (v : Word) (h : m ≠ n) :
    ({ q with sregs := Store.write q.sregs n v } : Party).getS b m = q.getS b m := by
  unfold Party.getS
  rw [Store.read_write_ne _ _ h]
  rfl

theorem Party.getS_modSlot_value (q : Party) (b c : Bool) (f : Slot → Slot) {n : Nat} (h : n ≤ 60) :
    (q.modSlot c f).getS b n = q.getS b n := by
  simp only [Party.getS, show ¬61 ≤ n by omega, if_false, Party.modSlot_sregs]

theorem Party.getS_modSlot_other (q : Party) (b : Bool) (f : Slot → Slot) (n : Nat) :
    (q.modSlot b f).getS (!b) n = q.getS (!b) n := by
  unfold Party.getS
  rw [Party.slot_modSlot_other, Party.modSlot_sregs]

/-- What a write of a mask register leaves in the three: the word written, and in each the lanes of the live set alone. -/
theorem Party.getS_setS_mask (q : Party) (b : Bool) {n m : Nat} (v : Word) (hn : 61 ≤ n) (hn' : n ≤ 63) (hm : 61 ≤ m)
    (hm' : m ≤ 63) :
    (q.setS b n v).getS b m = (if m = n then v else q.getS b m) &&& maskWord q.live (m - 61) := by
  rw [Party.setS_mask q b v hn, Party.getS_mask _ b hm, Party.getS_mask q b hm, Party.slot_modSlot_self, maskWord_and,
    maskWord_setMaskWord _ _ (by omega) (by omega)]
  simp only [show m - 61 = n - 61 ↔ m = n by omega]

/-- Settles O12: s0, the registers that hold a value, and the mask registers. -/
theorem scalarRegisters : Obligations.ScalarRegisters := by
  refine fun q sl v => ⟨q.getS_zero sl, q.setS_zero sl v, fun n h h' => ?_, fun n h h' => ⟨?_, fun m _ hm => ?_,
    fun m hne hm hm' => ?_, fun m _ => ?_, ?_⟩⟩
  · rw [Party.setS_plain q sl v h h']
    refine ⟨?_, fun m hm b => q.getS_write_ne b v hm, rfl⟩
    rw [Party.getS_plain _ sl h h', Store.read_write_self]
  · rw [Party.getS_setS_mask q sl v h h' h h', if_pos rfl]
  · rw [Party.setS_mask q sl v h, Party.getS_modSlot_value _ _ _ _ hm]
  · rw [Party.getS_setS_mask q sl v h h' hm hm', if_neg hne]
  · rw [Party.setS_mask q sl v h, Party.getS_modSlot_other]
  · rw [Party.setS_mask q sl v h]
    cases sl <;> rfl

end Sys2Proof.Machine

/-!
PROOFS. The special registers (O16): what each number reads, and what it takes.
-/

namespace Sys2Proof.Machine

open Sys2Proof

/-! ## Reading (R223, R226, R299) -/

theorem Team.lkoRead_mem (t : Team) (k : Nat) : t.lkoRead k ∈ t.lko :: t.lkoNew := by
  have hlt : k % (1 + t.lkoNew.length) < (t.lko :: t.lkoNew).length := by
    rw [List.length_cons, Nat.add_comm]
    exact Nat.mod_lt k (by omega)
  rw [Team.lkoRead, List.getElem?_eq_getElem hlt, Option.getD_some]
  exact List.getElem_mem hlt

/-- A read of warn waits for no access of a party that has none outstanding. -/
theorem warnHold_of_no_access {q : Party} (h : q.accesses = []) : warnHold q = none := by
  simp [warnHold, h]

/-- Of every special register but lko, which reads a value of its team's own, and id.party, a 32-bit word, the value is R137's. -/
theorem special_eq_specialOf (s : State) (t : Team) (p : Nat) (q : Party) (sl : Bool) :
    ∀ n, n ≠ 7 → n ≠ 15 → s.special t p q sl n = specialOf s t p q sl n
  | 0, _, _ | 1, _, _ | 2, _, _ | 3, _, _ | 4, _, _ | 5, _, _ | 6, _, _ => rfl
  | 7, h, _ => absurd rfl h
  | 8, _, _ | 9, _, _ | 10, _, _ | 11, _, _ | 12, _, _ | 13, _, _ | 14, _, _ => rfl
  | 15, _, h => absurd rfl h
  | _ + 16, _, _ => rfl

/-- The word that sget takes of a special register but lko. -/
theorem special_low (s : State) (t : Team) (p : Nat) (q : Party) (sl : Bool) {n : Nat} (hn : n ≠ 15) :
    (s.special t p q sl n).setWidth 32 = (specialOf s t p q sl n).extractLsb' 0 32 := by
  rw [← BitVec.setWidth_eq_extractLsb' (by decide)]
  by_cases h7 : n = 7
  · subst h7
    simp [State.special, specialOf, idParty]
  · rw [special_eq_specialOf s t p q sl n h7 hn]

section

variable {s : State} {w : Issuer} {t : Team} {q : Party} {d : SReg}

/-- sget completes where it does not read warn, or no access has yet to raise its bits; a choice among values of lko uses one up. -/
theorem exec_sget_of_ready {n : BitVec 6} (h : IssuesPlain (.sget d n) s w t q) (hw : n = 2 → q.accesses = []) :
    exec (.sget d n) s =
      .next (((if n = 15 ∧ t.lkoNew ≠ [] then s.useFree else s).modParty w.tid w.p fun q' =>
        let x := s.special t w.p q w.sl n.toNat
        if 3 ≤ n.toNat ∧ n.toNat ≤ 5 then q'.setPairS w.sl d.toNat x else q'.setS w.sl d.toNat (x.setWidth 32)).completed
          (.sget d n) w) := by
  obtain ⟨ht, hq⟩ := State.site_eq_some (party_of_issuer h.issuer).1
  have hgo : (if n = 2 then warnHold q else none) = none := by
    split
    · next h2 => exact warnHold_of_no_access (hw h2)
    · rfl
  have hcalm : (if n = 15 ∧ t.lkoNew ≠ [] then s.useFree else s).stuck = false := by
    split <;> exact h.calm
  rw [exec_sget, execSget, runParty_of_issues h.issues, h.ended]
  simp only [ht, hq, hgo]
  rw [Effect.unstuck_done (by simpa using hcalm)]
  rfl

theorem exec_sget_lko (h : IssuesPlain (.sget d 15) s w t q) :
    ∃ v ∈ t.lko :: t.lkoNew, exec (.sget d 15) s =
      .next ((({ s with free := if t.lkoNew = [] then s.free else s.free + 1 } : State).modParty w.tid w.p fun q' =>
        q'.setS w.sl d.toNat v).completed (.sget d 15) w) := by
  refine ⟨_, t.lkoRead_mem (Config.lkoChoice s.free), ?_⟩
  have hfree : (if (15 : BitVec 6) = 15 ∧ t.lkoNew ≠ [] then s.useFree else s) =
      { s with free := if t.lkoNew = [] then s.free else s.free + 1 } := by
    by_cases hn : t.lkoNew = []
    · simp [hn]
    · simp only [hn, ne_eq, not_false_eq_true, and_self, if_true, if_false]
      rfl
  rw [exec_sget_of_ready h fun h2 => absurd h2 (by decide), hfree]
  simp [State.special, BitVec.setWidth_setWidth_of_le]

theorem exec_sget_special {n : BitVec 6} (h : IssuesPlain (.sget d n) s w t q) (hn : n ≠ 15) (hw : n = 2 → q.accesses = []) :
    exec (.sget d n) s = .next ((s.modParty w.tid w.p fun q' =>
      let x := specialOf s t w.p q w.sl n.toNat
      if 3 ≤ n.toNat ∧ n.toNat ≤ 5 then
        (q'.setS w.sl d.toNat (x.extractLsb' 0 32)).setS w.sl (d.toNat + 1) (x.extractLsb' 32 32)
      else q'.setS w.sl d.toNat (x.extractLsb' 0 32)).completed (.sget d n) w) := by
  have hn' : n.toNat ≠ 15 := fun h15 => hn (BitVec.eq_of_toNat_eq h15)
  rw [exec_sget_of_ready h hw, if_neg fun hl => hn hl.1]
  congr 3
  funext q'
  dsimp only
  split
  · next hwide => rw [special_eq_specialOf _ _ _ _ _ _ (by omega) hn', Party.setPairS]
  · rw [special_low _ _ _ _ _ hn']

/-- ckwarn takes warn and clears the selected bits, once every access of the party has raised its own. -/
theorem exec_ckwarn_of_ready {a : SReg} (h : IssuesPlain (.ckwarn d a) s w t q) (hq : q.accesses = []) :
    exec (.ckwarn d a) s = .next ((s.modParty w.tid w.p fun q' =>
      ({ q' with warn := q'.warn &&& ~~~(q'.getS w.sl a.toNat &&& 0xFFF) } : Party).setS w.sl d.toNat q'.warn).completed
        (.ckwarn d a) w) := by
  rw [exec_ckwarn, execCkwarn, runParty_of_issues h.issues, h.ended]
  simp only [(party_of_issuer h.issuer).2, Option.bind_some, warnHold_of_no_access hq, State.modParty_stuck, h.calm,
    Effect.unstuck_done]
  rfl

theorem exec_clkrd_of_issues (h : IssuesPlain (.clkrd d) s w t q) :
    exec (.clkrd d) s = .next ((s.modParty w.tid w.p fun q =>
      (q.setPairS w.sl d.toNat s.clk).setPairS w.sl (d.toNat + 2) s.tbase).completed (.clkrd d) w) := by
  rw [exec_clkrd, execClkrd, runParty_of_issues h.issues, h.ended]
  simp only [State.modParty_stuck, h.calm, Effect.unstuck_done]
  rfl

end

/-! ## Writing (R224, R227) -/

/-- What an instruction that only changes registers does, where its change is given in other terms. -/
theorem registerEffect_of_runRegs {i : Instr} {f g : Bool → Party → Party} (hi : ∀ s, exec i s = runRegs i s f)
    (hfg : ∀ sl q, f sl q = g sl q) : RegisterEffect i g := by
  obtain rfl : f = g := funext fun sl => funext fun q => hfg sl q
  exact fun s _ _ _ _ h => (hi s).trans (runRegs_of_issues h f)

/-- Bit 3 of mode is reserved: a value without it is kept whole. -/
theorem setWidth_and_mode :
    ∀ v : BitVec 6, v.getLsbD 3 = false → v.setWidth 32 &&& 0x37 = BitVec.ofNat 32 v.toNat := by decide

/-- Settles O16, one instruction at a time. -/
theorem specialRegisters : Obligations.SpecialRegisters := by
  unfold Obligations.SpecialRegisters
  refine ⟨fun _ _ _ _ _ => exec_sget_lko, fun _ _ _ _ _ _ => exec_sget_special, fun _ _ _ _ _ _ => exec_ckwarn_of_ready,
    fun a n => ?_, fun v => ?_, fun v hv => ?_, fun d => ?_, fun _ _ _ _ _ => exec_clkrd_of_issues⟩
  · have h5 : n = 5 ↔ n.toNat = 5 := by rw [← BitVec.toNat_inj]; rfl
    refine registerEffect_of_runRegs (exec_sset a n) fun sl q => ?_
    simp only [h5]
    rcases n.toNat with _ | _ | _ | _ | _ | _ | k <;> simp [Party.setSpecial, Party.pairS]
  · exact registerEffect_of_runRegs (exec_setfmt v) fun _ _ => by rw [BitVec.ofNat_toNat]
  · exact registerEffect_of_runRegs (exec_setmode v) fun _ _ => by rw [setWidth_and_mode v hv]
  · exact registerEffect_of_runRegs (exec_sgetIdLane d) fun _ _ => rfl

end Sys2Proof.Machine

/-!
PROOFS. Divergence and joins (O19, O20): where a path goes on, and what unwinding the reconvergence stack comes to and leaves.
-/

namespace Sys2Proof.Machine

open Sys2Proof

/-! ## Where a path goes on (R166) -/

/-- The next clause, as control flow of one word names it. -/
theorem Slot.nextClause_one (x : Slot) : x.nextClause 1 = nextOf x := by
  unfold Slot.nextClause nextOf
  split <;> rfl

/-- A relative target is 4 times the offset from the clause. -/
theorem Slot.target_eq {n : Nat} (x : Slot) (o : BitVec n) : x.target o = clauseStart x + BitVec.ofInt 32 (4 * o.toInt) := by
  have hstart : x.clauseAddr = clauseStart x := by
    unfold Slot.clauseAddr clauseStart
    split <;> rfl
  have hoff : o.signExtend 32 <<< 2 = BitVec.ofInt 32 (4 * o.toInt) := by
    rw [BitVec.shiftLeft_eq_mul_twoPow, BitVec.signExtend, BitVec.mul_comm, BitVec.ofInt_mul]
    rfl
  rw [Slot.target, hstart, hoff]

/-! ## bdiv (R147, R374) -/

section

variable (q : Party) (sl : Bool) (c : Mask) (target next : Word)

/-- The entry of a join that `n` paths must reach, as the path of a slot diverges. -/
def joinEntry (x : Slot) (n : Nat) : StackEntry :=
  { valid := true, defer := false, pc := 0, mask := x.mask, fmt := x.fmt, mode := x.mode, pend := n, link := x.frame }

/-- The entry of a path that is still to start, and that then reaches the join at `j`. -/
def deferEntry (x : Slot) (c : Mask) (pc : Word) (j : Nat) : StackEntry :=
  { joinEntry x 0 with defer := true, pc := pc, mask := x.mask &&& c, link := some j }

theorem Party.diverge_frame :
    (q.diverge sl c target next).vregs = q.vregs ∧ (q.diverge sl c target next).sregs = q.sregs ∧
      (q.diverge sl c target next).live = q.live := by
  unfold Party.diverge
  dsimp only
  split <;> [skip; split] <;> cases sl <;> exact ⟨rfl, rfl, rfl⟩

variable {q sl c target next}

/-- All active lanes go one way. -/
theorem Party.diverge_of_uniform (h : (q.slot sl).mask &&& c = 0 ∨ (q.slot sl).mask &&& ~~~c = 0) :
    let r := q.diverge sl c target next
    r.slot sl = { (q.slot sl).at_ (if (q.slot sl).mask &&& c = 0 then next else target) with frame := some q.stack.length } ∧
      r.stack = q.stack ++ [joinEntry (q.slot sl) 1] ∧ r.slot (!sl) = q.slot (!sl) := by
  unfold Party.diverge
  dsimp only
  rw [if_pos h]
  cases sl <;> exact ⟨rfl, rfl, rfl⟩

/-- The lanes split, and the other slot takes those in the condition. -/
theorem Party.diverge_of_idle (ht : (q.slot sl).mask &&& c ≠ 0) (hn : (q.slot sl).mask &&& ~~~c ≠ 0)
    (ho : (q.slot (!sl)).live = false) :
    let r := q.diverge sl c target next
    r.slot sl = { (q.slot sl).at_ next with frame := some q.stack.length, mask := (q.slot sl).mask &&& ~~~c } ∧
      r.stack = q.stack ++ [joinEntry (q.slot sl) 2] ∧
      r.slot (!sl) = { pathOf (deferEntry (q.slot sl) c target q.stack.length) ((q.slot sl).mask &&& c) q.nextAge with
        mask := (q.slot sl).mask &&& c } := by
  unfold Party.diverge
  dsimp only
  rw [if_neg (not_or.2 ⟨ht, hn⟩), Party.slot_setSlot_other]
  cases sl
  all_goals
    rw [if_neg (by exact Bool.eq_false_iff.1 ho)]
    exact ⟨rfl, rfl, rfl⟩

/-- The lanes split, and those in the condition are deferred above the join. -/
theorem Party.diverge_of_live (ht : (q.slot sl).mask &&& c ≠ 0) (hn : (q.slot sl).mask &&& ~~~c ≠ 0)
    (ho : (q.slot (!sl)).live = true) :
    let r := q.diverge sl c target next
    r.slot sl = { (q.slot sl).at_ next with frame := some q.stack.length, mask := (q.slot sl).mask &&& ~~~c } ∧
      r.stack = q.stack ++ [joinEntry (q.slot sl) 2, deferEntry (q.slot sl) c target q.stack.length] ∧
      r.slot (!sl) = q.slot (!sl) := by
  unfold Party.diverge
  dsimp only
  rw [if_neg (not_or.2 ⟨ht, hn⟩), Party.slot_setSlot_other]
  cases sl
  all_goals
    rw [if_pos (by exact ho)]
    exact ⟨rfl, List.append_assoc .., rfl⟩

end

/-- bdiv where the stack has room. -/
theorem exec_bdiv_of_room {s : State} {w : Issuer} {t : Team} {q : Party} {a : SReg} {o : BitVec 14}
    (h : IssuesPlain (.bdiv a o) s w t q) (hroom : q.stack.length ≤ 62) :
    exec (.bdiv a o) s = .next (s.modParty w.tid w.p fun _ => q.diverge w.sl (q.triple w.sl a.toNat)
      (clauseStart (q.slot w.sl) + BitVec.ofInt 32 (4 * o.toInt)) (nextOf (q.slot w.sl))) := by
  rw [exec_bdiv, execBdiv, runTeam_of_plain h]
  simp only [if_neg (Nat.not_lt.2 hroom), State.modParty_stuck, h.calm, Effect.unstuck_flow, finish]
  rw [State.modParty_congr (party_of_issuer h.issuer).2]
  rw [Slot.target_eq, Slot.nextClause_one]

/-- Settles O19: by which way the active lanes go, and whether the other slot is idle. -/
theorem divergence : Obligations.Divergence := by
  intro s w t q a o h x c target entry join
  refine ⟨fun hfull => ?_, fun hroom => ?_⟩
  · rw [exec_bdiv, execBdiv, runTeam_of_plain h]
    simp only [if_pos hfull, Effect.unstuck_fault h.calm]
    rfl
  · obtain ⟨hv, hs, hl⟩ := q.diverge_frame w.sl c target (nextOf x)
    refine ⟨_, exec_bdiv_of_room h hroom, hv, hs, hl, fun ht => ?_, fun ht hn => ?_, fun ht hn => ?_⟩
    · have hr := Party.diverge_of_uniform (target := target) (next := nextOf x) (.inl ht)
      rwa [if_pos ht] at hr
    · have hr := Party.diverge_of_uniform (target := target) (next := nextOf x) (.inr hn)
      rwa [if_neg ht] at hr
    · cases ho : (q.slot (!w.sl)).live with
      | false =>
        obtain ⟨h1, h2, h3⟩ := Party.diverge_of_idle (target := target) (next := nextOf x) ht hn ho
        refine ⟨h1, fun _ => ⟨h2, ?_⟩, nofun⟩
        rw [h3]
        exact ⟨rfl, rfl, rfl, rfl, rfl, rfl⟩
      | true =>
        obtain ⟨h1, h2, h3⟩ := Party.diverge_of_live (target := target) (next := nextOf x) ht hn ho
        exact ⟨h1, nofun, fun _ => ⟨h3, h2⟩⟩

/-! ## The stack without an entry (R146) -/

/-- The top falls past every invalid entry, and past no valid one. -/
theorem trimStack_spec (st : List StackEntry) :
    (∃ cut, st = trimStack st ++ cut ∧ ∀ e ∈ cut, e.valid = false) ∧
      ∀ e, (trimStack st).getLast? = some e → e.valid = true := by
  refine ⟨⟨(st.reverse.takeWhile fun e => !e.valid).reverse, ?_, fun e he => ?_⟩, fun e he => ?_⟩
  · rw [trimStack, ← List.reverse_append, List.takeWhile_append_dropWhile, List.reverse_reverse]
  · simpa using List.mem_takeWhile_imp (List.mem_reverse.1 he)
  · rw [trimStack, List.getLast?_reverse] at he
    simpa [he] using List.head?_dropWhile_not (fun e => !e.valid) st.reverse

theorem removedFrom_dropEntry (q : Party) (j : Nat) : removedFrom q.stack (q.dropEntry j).stack j :=
  trimStack_spec _

/-! ## Unwinding (R148, R149) -/

/-- Given at least the rounds that it takes, unwinding comes to what `UnwindsIn` says. -/
theorem Party.unwind_of_unwindsIn {sl ending : Bool} {n : Nat} {q r : Party} (h : UnwindsIn sl ending n q r) {k : Nat}
    (hk : n ≤ k) : q.unwind sl ending k = r := by
  induction h generalizing k with
  | idle q hq =>
    obtain ⟨k, rfl⟩ := Nat.exists_eq_add_of_le' hk
    cases he : q.stack.getLast? with
    | none => simp [Party.unwind, he]
    | some e => simp [Party.unwind, he, hq e he]
  | takes q e he hd hm =>
    obtain ⟨k, rfl⟩ := Nat.exists_eq_add_of_le' hk
    simp only [Party.unwind, if_true, he, hd]
    exact if_neg hm
  | dead q r e n he hd hm _ ih =>
    obtain ⟨k, rfl⟩ := Nat.exists_eq_add_of_le' hk
    simp only [Party.unwind, if_true, he, hd]
    exact (if_pos hm).trans (ih (Nat.le_add_left ..))
  | noFrame q r n hf _ ih =>
    obtain ⟨k, rfl⟩ := Nat.exists_eq_add_of_le' hk
    simp only [Party.unwind, Bool.false_eq_true, if_false, hf]
    exact ih (Nat.le_add_left ..)
  | counted q r j e n hf he hp _ ih =>
    obtain ⟨k, rfl⟩ := Nat.exists_eq_add_of_le' hk
    simp only [Party.unwind, Bool.false_eq_true, if_false, hf, he, hp, if_true]
    exact ih (Nat.le_add_left ..)
  | resumes q j e hf he hp hm hpc =>
    obtain ⟨k, rfl⟩ := Nat.exists_eq_add_of_le' hk
    simp only [Party.unwind, Bool.false_eq_true, if_false, hf, he, if_neg (Nat.not_lt.2 hp)]
    exact if_neg (not_or.2 ⟨hm, hpc⟩)
  | above q r j e n hf he hp hm _ ih =>
    obtain ⟨k, rfl⟩ := Nat.exists_eq_add_of_le' hk
    simp only [Party.unwind, Bool.false_eq_true, if_false, hf, he, if_neg (Nat.not_lt.2 hp)]
    exact (if_pos hm).trans (ih (Nat.le_add_left ..))

/-! ## What control flow leaves alone -/

/-- Beside its slots, its stack and the count of its paths' ages a party is as it was. -/
def Party.SameBesidePaths (q r : Party) : Prop :=
  ({ r with slot0 := q.slot0, slot1 := q.slot1, stack := q.stack, nextAge := q.nextAge } : Party) = q

namespace Party.SameBesidePaths

variable {q r : Party}

theorem refl (q : Party) : q.SameBesidePaths q := rfl

theorem setSlot (h : q.SameBesidePaths r) (sl : Bool) (x : Slot) : q.SameBesidePaths (r.setSlot sl x) := by
  cases sl <;> exact h

theorem dropEntry (h : q.SameBesidePaths r) (j : Nat) : q.SameBesidePaths (r.dropEntry j) := h

theorem modEntry (h : q.SameBesidePaths r) (j : Nat) (f : StackEntry → StackEntry) : q.SameBesidePaths (r.modEntry j f) := h

theorem withAge (h : q.SameBesidePaths r) (n : Nat) : q.SameBesidePaths { r with nextAge := n } := h

/-- Unwinding changes the paths alone, whatever rounds it is given. -/
theorem unwind (h : q.SameBesidePaths r) (sl ending : Bool) (n : Nat) : q.SameBesidePaths (r.unwind sl ending n) := by
  induction n generalizing r ending with
  | zero => exact h
  | succ n ih =>
    unfold Party.unwind
    split
    · split
      · split
        · dsimp only
          split
          · exact ih (((h.dropEntry _).withAge _).setSlot _ _) _
          · exact ((h.dropEntry _).withAge _).setSlot _ _
        · exact h.setSlot _ _
      · exact h.setSlot _ _
    · split
      · exact ih h _
      · split
        · exact ih h _
        · split
          · exact ih (h.modEntry _ _) _
          · dsimp only
            split
            · exact ih ((h.dropEntry _).setSlot _ _) _
            · exact (h.dropEntry _).setSlot _ _

theorem rejoin (q : Party) (sl : Bool) (next : Word) : q.SameBesidePaths (q.rejoin sl next) := by
  have hq := refl q
  unfold Party.rejoin
  dsimp only
  split
  · exact hq.setSlot _ _
  · split
    · exact hq.setSlot _ _
    · split
      · exact (hq.modEntry _ _).unwind _ _ _
      · split
        · exact ((hq.dropEntry _).setSlot _ _).unwind _ _ _
        · exact (hq.dropEntry _).setSlot _ _

end Party.SameBesidePaths

/-! ## join (R148, R375) -/

section

variable {q : Party} {sl : Bool} {next : Word} {j : Nat} {e : StackEntry}

theorem Party.rejoin_of_no_frame (h : (q.slot sl).frame = none) :
    q.rejoin sl next = q.modSlot sl fun x => x.at_ next := by
  simp only [Party.rejoin, h]
  rfl

/-- Other paths must still arrive. -/
theorem Party.rejoin_of_early (hf : (q.slot sl).frame = some j) (he : q.stack[j]? = some e) (hp : 1 < e.pend) :
    q.rejoin sl next =
      (q.modEntry j fun e => { e with pend := e.pend - 1, pc := if e.pc = 0 then next else e.pc }).endPath sl := by
  simp only [Party.rejoin, hf, he, hp, if_true]

/-- The last path arrives. -/
theorem Party.rejoin_of_last (hf : (q.slot sl).frame = some j) (he : q.stack[j]? = some e) (hp : e.pend ≤ 1) :
    let last := (q.dropEntry j).setSlot sl
      { (q.slot sl).at_ next with mask := e.mask &&& q.live, fmt := e.fmt, mode := e.mode, frame := e.link }
    q.rejoin sl next = if e.mask &&& q.live = 0 then last.pathEmptied sl else last := by
  simp only [Party.rejoin, hf, he, if_neg (Nat.not_lt.2 hp)]
  rfl

end

/-- The records that retire with a party that a join finishes. -/
theorem Party.retiring_none (q q' : Party) :
    q.retiring q' (fun _ => false) = if q'.finished then q.records.filter fun d => !d.retired else [] := by
  unfold Party.retiring
  cases q'.finished <;> simp

/-- join where its release is complete. -/
theorem exec_join_of_released {s s1 : State} {w : Issuer} {t : Team} {q : Party} (h : IssuesPlain .join s w t q) :
    let go (q : Party) : Party := q.rejoin w.sl (nextOf (q.slot w.sl))
    s.retireRelease t.core w.tid w.p q (if (go q).finished then q.records.filter fun d => !d.retired else []) = (s1, none) →
    let r := (s1.modParty w.tid w.p go).retireFinished w.tid w.p (originOf w q Instr.join.word) (q.slot (!w.sl)).wait
    r.stuck = false → exec .join s = .next r := by
  intro go hrel r hr
  rw [exec_join, execJoin, runTeam_of_plain h]
  simp only [Slot.nextClause_one, Party.retiring_none]
  rw [hrel, Effect.unstuck_flow hr]
  rfl

/-- Settles O20: by whether the path has a frame, and whether it is the last to arrive. -/
theorem joins : Obligations.Joins := by
  intro sl
  refine ⟨fun q => q.rejoin sl (nextOf (q.slot sl)), fun q => ⟨Party.SameBesidePaths.rejoin .., Party.rejoin_of_no_frame,
    fun j e hf he => ⟨removedFrom_dropEntry q j, fun hp n r hn hr => ?_, fun hp hm => ?_, fun hp hm n r hn hr => ?_⟩⟩, ?_⟩
  · exact (Party.rejoin_of_early hf he hp).trans (Party.unwind_of_unwindsIn hr hn)
  · exact (Party.rejoin_of_last hf he hp).trans (if_neg hm)
  · exact (Party.rejoin_of_last hf he hp).trans ((if_pos hm).trans (Party.unwind_of_unwindsIn hr hn))
  · rintro s w t q s1 rfl h hrel
    exact exec_join_of_released h hrel

end Sys2Proof.Machine

/-!
PROOFS. The gate of an instruction (O50): every instruction of a party meets the checks at issue before its effect.
-/

namespace Sys2Proof.Machine

open Sys2Proof

/-! ## Instructions of a party -/

/-- What an instruction answers is what the issue of a party's instruction answers, with some effect. -/
def RunsParty (i : Instr) (s : State) (r : Host.Outcome State Fault Refusal) : Prop := ∃ effect, r = runParty i s effect

theorem runsParty_runParty (i : Instr) (s : State) (effect : Issuer → State → Effect) : RunsParty i s (runParty i s effect) :=
  ⟨effect, rfl⟩

theorem runsParty_runRegs (i : Instr) (s : State) (f : Bool → Party → Party) : RunsParty i s (runRegs i s f) := ⟨_, rfl⟩

theorem runsParty_runTeam (i : Instr) (s : State) (f : Issuer → Team → Party → State → Effect) :
    RunsParty i s (runTeam i s f) := ⟨_, rfl⟩

/-- The words of major 0x3E are a sequencer's. -/
theorem Instr.cls_of_packMX {i : Instr} {cd : BitVec 4} {ma : BitVec 2} {h : BitVec 4} {ru : BitVec 1} {op : BitVec 5}
    {fn : BitVec 10} (hw : i.word = packMX cd ma h ru op fn) : i.cls = 4 := by
  rw [Instr.cls, hw, fld_packMX_maj]
  rfl

/-- An instruction that is no event and no sequencer's is a party's: each by the form that its meaning has. -/
theorem runsParty_exec {i : Instr} (he : isEvent i = false) (hc : i.cls ≠ 4) (s : State) : RunsParty i s (exec i s) := by
  cases i
  case sadd | ssub | smul | smulhI32 | smulhN32 | sand | sor | sxor | sshl | sshr | ssra | sminI32 | sminN32 | smaxI32 |
      smaxN32 | scmp =>
    simp only [exec, execSadd, execSsub, execSmul, execSmulhI32, execSmulhN32, execSand, execSor, execSxor, execSshl, execSshr,
      execSsra, execSminI32, execSminN32, execSmaxI32, execSmaxN32, execScmp, scalar2, ↓runsParty_runRegs]
  case smov | spopc | sclz | sffs | saddImm | sandImm | sorImm | sshlImm | sshrImm | ssraImm | sbfx =>
    simp only [exec, execSmov, execSpopc, execSclz, execSffs, execSaddImm, execSandImm, execSorImm, execSshlImm, execSshrImm,
      execSsraImm, execSbfx, scalar1, ↓runsParty_runRegs]
  case vadd | vsub | vmul | vmulhSigned | vmulhUnsigned | vmac | vand | vor | vxor | vshl | vshr | vsra | vminSigned |
      vminUnsigned | vmaxSigned | vmaxUnsigned | vsel =>
    simp only [exec, execVadd, execVsub, execVmul, execVmulhSigned, execVmulhUnsigned, execVmac, execVand, execVor, execVxor,
      execVshl, execVshr, execVsra, execVminSigned, execVminUnsigned, execVmaxSigned, execVmaxUnsigned, execVsel, vec2,
      ↓runsParty_runRegs]
  case vnot | vabs | vneg | vpopc | vclz | vmov =>
    simp only [exec, execVnot, execVabs, execVneg, execVpopc, execVclz, execVmov, vec1, ↓runsParty_runRegs]
  case vaddImm | vbfx | vbfi | vshlImm | vshrImm | vsraImm =>
    simp only [exec, execVaddImm, execVbfx, execVbfi, execVshlImm, execVshrImm, execVsraImm, vecImm, ↓runsParty_runRegs]
  case ssel | sbfi | sli | slui | sset | setfmt | setmode | nop | yield | vcmp | vli | vperm | vbcast | vxshf | vred | vscan |
      vballot | vvote | sgetIdLane | vfadd | vfsub | vfmul | vfma | vfms | vfmin | vfmax | vfexp | vfscl | vfclass | vf2sum |
      vfrnd | vrcp | vrsq | vsqrt | vexp2 | vlog2 | vsin | vcos | vtanh | vfcmp | vfcvt | vfcvtSr | vliLit =>
    simp only [exec, execSsel, execSbfi, execSli, execSlui, execSset, execSetfmt, execSetmode, execNop, execYield, execVcmp,
      execVli, execVperm, execVbcast, execVxshf, execVred, execVscan, execVballot, execVvote, execSgetIdLane, execVfadd,
      execVfsub, execVfmul, execVfma, execVfms, execVfmin, execVfmax, execVfexp, execVfscl, execVfclass, execVf2sum, execVfrnd,
      execVrcp, execVrsq, execVsqrt, execVexp2, execVlog2, execVsin, execVcos, execVtanh, execVfcmp, execVfcvt, execVfcvtSr,
      execVliLit, ↓runsParty_runRegs]
  case sget | ckwarn | br | call | bc | ret | jmpi | vosmx | vosms | cpcan | trap | clkrd =>
    simp only [exec, execSget, execCkwarn, execBr, execCall, execBc, execRet, execJmpi, execVosmx, execVosms, execCpcan,
      execTrap, execClkrd, ↓runsParty_runParty]
  case bdiv | join | exit | vld | vst | vldg | vsts | lld | lst | ald | ast | pref | fence | cclean | cinval | cpy | cpwpRead |
      cpwpRecv | qbind | qclose | cvopen | cvclose | cvstat | ssint | ssmerge | ssscan | spx | nbbin | nbpairs | nbstat | emit |
      emitr | rget | rdone | futnew | futreg | futres | futst | dget | barArrive | barWait | barSync | rfe | tlbrng | wsld |
      hcall | vldgPart | sld | sst | vatom | vredm | lredm | satom | cpg | cps | cpm | cpwpWait | cpwpAck | cvst | cvld =>
    simp only [exec, execBdiv, execJoin, execExit, execVld, execVst, execVldg, execVsts, execLld, execLst, execAld, execAst,
      execPref, execFence, execCclean, execCinval, execCpy, execCpwpRead, execCpwpRecv, execQbind, execQclose, execCvopen,
      execCvclose, execCvstat, execSsint, execSsmerge, execSsscan, execSpx, execNbbin, execNbpairs, execNbstat, execEmit,
      execEmitr, execRget, execRdone, execFutnew, execFutreg, execFutres, execFutst, execDget, execBarArrive, execBarWait,
      execBarSync, execRfe, execTlbrng, execWsld, execHcall, execVldgPart, execSld, execSst, execVatom, execVredm, execLredm,
      execSatom, execCpg, execCps, execCpm, execCpwpWait, execCpwpAck, execCvst, execCvld, ↓runsParty_runTeam]
  case kli | kadd | kliLiteral | kbr | mld | mrel | mzero | mma | mmt | mst | mscl | mchk | mbar | lkoPred | lkoFetch |
      lkoChk =>
    exact absurd (Instr.cls_of_packMX rfl) hc
  all_goals cases he

/-! ## The checks at issue -/

section

variable {i : Instr} {s : State} {w : Issuer} {t : Team} {q : Party} (hi : s.issuer = some (w, t, q)) (hrun : t.running = true)
  (hlive : (q.slot w.sl).live = true) (hfresh : (q.slot w.sl).wait.begun = false)

include hi hrun hlive hfresh

/-- What the checks refuse is a fault, whatever the effect. -/
theorem runParty_of_gate_fault {c : Cause} (hg : s.gate i t q w.sl = .fault c) (effect : Issuer → State → Effect) :
    runParty i s effect = .next (s.faultAt w q i.word c) := by
  simp only [runParty, hi, hrun, hlive, hfresh, hg, Bool.not_true, Bool.or_self, Bool.false_eq_true, if_false]

/-- What the checks hold back waits, whatever the effect. -/
theorem runParty_of_gate_wait {x : Wait} (hg : s.gate i t q w.sl = .wait x) (effect : Issuer → State → Effect) :
    runParty i s effect = .next (s.waitOn w x) := by
  simp only [runParty, hi, hrun, hlive, hfresh, hg, Bool.not_true, Bool.or_self, Bool.false_eq_true, if_false]

end

/-- Settles O50: the instruction is a party's, and the gate decides before its effect. -/
theorem gateStopsOrWaits : Obligations.GateStopsOrWaits := by
  intro i s w t q he hc hi hrun hlive hfresh
  obtain ⟨effect, hexec⟩ := runsParty_exec he hc s
  rw [hexec]
  exact ⟨fun c hg => runParty_of_gate_fault hi hrun hlive hfresh hg effect,
    fun x hg => runParty_of_gate_wait hi hrun hlive hfresh hg effect⟩

end Sys2Proof.Machine

/-!
PROOFS. The encoding of chapter 06 (O1 to O3): every instruction within the limits is read back from its own words, whatever words
follow (R159 to R171), and its head word announces exactly its literal words (R161).
-/

namespace Sys2Proof

open Sys2Proof.Machine

/-! ## The fields of a packed word, all at once (R159) -/

theorem fields_packVR (maj : BitVec 6) (d a b : BitVec 7) (fn : BitVec 5) :
    fld (packVR maj d a b fn) 19 7 = d ∧ fld (packVR maj d a b fn) 12 7 = a ∧ fld (packVR maj d a b fn) 5 7 = b ∧
      fld (packVR maj d a b fn) 0 5 = fn :=
  ⟨fld_packVR_d .., fld_packVR_a .., fld_packVR_b .., fld_packVR_fn ..⟩

theorem fields_packSR (maj d a b : BitVec 6) (fn : BitVec 8) :
    fld (packSR maj d a b fn) 20 6 = d ∧ fld (packSR maj d a b fn) 14 6 = a ∧ fld (packSR maj d a b fn) 8 6 = b ∧
      fld (packSR maj d a b fn) 0 8 = fn :=
  ⟨fld_packSR_d .., fld_packSR_a .., fld_packSR_b .., fld_packSR_fn ..⟩

theorem fields_packSI (maj d a : BitVec 6) (x : BitVec 14) :
    fld (packSI maj d a x) 20 6 = d ∧ fld (packSI maj d a x) 14 6 = a ∧ fld (packSI maj d a x) 0 14 = x :=
  ⟨fld_packSI_d .., fld_packSI_a .., fld_packSI_x ..⟩

theorem fields_packVI (maj : BitVec 6) (d a : BitVec 7) (x : BitVec 12) :
    fld (packVI maj d a x) 19 7 = d ∧ fld (packVI maj d a x) 12 7 = a ∧ fld (packVI maj d a x) 0 12 = x :=
  ⟨fld_packVI_d .., fld_packVI_a .., fld_packVI_x ..⟩

theorem fields_packVC (d a : BitVec 7) (df sf : BitVec 5) (sat srs : BitVec 1) :
    fld (packVC d a df sf sat srs) 19 7 = d ∧ fld (packVC d a df sf sat srs) 12 7 = a ∧ fld (packVC d a df sf sat srs) 7 5 = df ∧
      fld (packVC d a df sf sat srs) 2 5 = sf ∧ fld (packVC d a df sf sat srs) 1 1 = sat ∧
      fld (packVC d a df sf sat srs) 0 1 = srs :=
  ⟨fld_packVC_d .., fld_packVC_a .., fld_packVC_df .., fld_packVC_sf .., fld_packVC_sat .., fld_packVC_srs ..⟩

theorem fields_packMM (maj : BitVec 6) (d : BitVec 7) (a : BitVec 6) (b : BitVec 7) (s : BitVec 1) (p : BitVec 2) (z : BitVec 3) :
    fld (packMM maj d a b s p z) 19 7 = d ∧ fld (packMM maj d a b s p z) 13 6 = a ∧ fld (packMM maj d a b s p z) 6 7 = b ∧
      fld (packMM maj d a b s p z) 5 1 = s ∧ fld (packMM maj d a b s p z) 3 2 = p ∧ fld (packMM maj d a b s p z) 0 3 = z :=
  ⟨fld_packMM_d .., fld_packMM_a .., fld_packMM_b .., fld_packMM_o .., fld_packMM_p .., fld_packMM_z ..⟩

theorem fields_packAT (maj : BitVec 6) (d : BitVec 7) (a : BitVec 6) (b : BitVec 7) (k : BitVec 2) (z : BitVec 4) :
    fld (packAT maj d a b k z) 19 7 = d ∧ fld (packAT maj d a b k z) 13 6 = a ∧ fld (packAT maj d a b k z) 6 7 = b ∧
      fld (packAT maj d a b k z) 4 2 = k ∧ fld (packAT maj d a b k z) 0 4 = z :=
  ⟨fld_packAT_d .., fld_packAT_a .., fld_packAT_b .., fld_packAT_k .., fld_packAT_z ..⟩

theorem fields_packCP (op ch : BitVec 3) (d : BitVec 6) (hd hs : BitVec 4) (scp xt : BitVec 3) :
    fld (packCP op ch d hd hs scp xt) 23 3 = op ∧ fld (packCP op ch d hd hs scp xt) 20 3 = ch ∧
      fld (packCP op ch d hd hs scp xt) 14 6 = d ∧ fld (packCP op ch d hd hs scp xt) 10 4 = hd ∧
      fld (packCP op ch d hd hs scp xt) 6 4 = hs ∧ fld (packCP op ch d hd hs scp xt) 3 3 = scp ∧
      fld (packCP op ch d hd hs scp xt) 0 3 = xt :=
  ⟨fld_packCP_op .., fld_packCP_ch .., fld_packCP_d .., fld_packCP_hd .., fld_packCP_hs .., fld_packCP_scp .., fld_packCP_xt ..⟩

theorem fields_packGR (d : BitVec 7) (a : BitVec 6) (b : BitVec 7) (fn : BitVec 6) :
    fld (packGR d a b fn) 19 7 = d ∧ fld (packGR d a b fn) 13 6 = a ∧ fld (packGR d a b fn) 6 7 = b :=
  ⟨fld_packGR_d .., fld_packGR_a .., fld_packGR_b ..⟩

theorem fields_packMX (cd : BitVec 4) (ma : BitVec 2) (h : BitVec 4) (ru : BitVec 1) (op : BitVec 5) (fn : BitVec 10) :
    fld (packMX cd ma h ru op fn) 22 4 = cd ∧ fld (packMX cd ma h ru op fn) 20 2 = ma ∧ fld (packMX cd ma h ru op fn) 16 4 = h ∧
      fld (packMX cd ma h ru op fn) 15 1 = ru ∧ fld (packMX cd ma h ru op fn) 10 5 = op ∧ fld (packMX cd ma h ru op fn) 0 10 = fn :=
  ⟨fld_packMX_cd .., fld_packMX_ma .., fld_packMX_hh .., fld_packMX_ru .., fld_packMX_op .., fld_packMX_fn ..⟩

/-- trap holds a 12-bit code where other words of its major hold two registers (R408). -/
theorem fields_trap (c : BitVec 12) :
    fld (0x3F#6 ++ 0#6 ++ c ++ 0#8) 26 6 = 0x3F#6 ∧ fld (0x3F#6 ++ 0#6 ++ c ++ 0#8) 20 6 = 0#6 ∧
      fld (0x3F#6 ++ 0#6 ++ c ++ 0#8) 8 12 = c ∧ fld (0x3F#6 ++ 0#6 ++ c ++ 0#8) 0 8 = 0#8 := by
  and_intros
  all_goals simp (disch := decide) only [fld, extract_append_low, extract_append_high, extract_all, Nat.reduceSub]

/-- A slice that lies in one part of a concatenation is a slice of that part. -/
theorem slice_append {a b : Nat} (x : BitVec a) (y : BitVec b) (lo len : Nat) :
    (lo + len ≤ b → (x ++ y).extractLsb' lo len = y.extractLsb' lo len) ∧
      (b ≤ lo → (x ++ y).extractLsb' lo len = x.extractLsb' (lo - b) len) :=
  ⟨extract_append_low x y lo len, extract_append_high x y lo len⟩

/-! ## What the decoder's own operations answer -/

theorem dec_ok_bind {α β : Type} (x : α) (f : α → Dec β) : (Except.ok x >>= f : Dec β) = f x := rfl

theorem dec_pure {α : Type} (x : α) : (pure x : Dec α) = .ok x := rfl

theorem boolBit_eq_one (b : Bool) : (boolBit b = 1#1) = (b = true) := by cases b <;> decide

theorem firstFailing_cons {b : Bool} {r : Reject} {t : List (Bool × Reject)} :
    firstFailing ((b, r) :: t) = none ↔ b = true ∧ firstFailing t = none := by cases b <;> simp [firstFailing]

theorem decodeFields_access {w : Word} {m : BitVec 6} (h : fld w 26 6 = m)
    (hm : m ∈ [0x2C#6, 0x2D, 0x2E, 0x2F, 0x30, 0x37, 0x38]) (ls : List Word) : decodeFields w ls = decAccess m.toNat w ls := by
  unfold decodeFields
  fin_cases hm <;> rw [h] <;> rfl

/-- The order words as the encoder writes them: the fields that an access leaves unused are zero (R162, R181). -/
theorem plainOrd_zeros (o : Ord) : plainOrd (ordWord 0 0 0 o) = .ok o := plainOrd_ordWord o

theorem polOrd_zeros (p : Policy) (o : Ord) : polOrd (ordWord 0 0 p.code o) = .ok (o, p) := polOrd_ordWord p o

theorem atomOrd_zeros (op : AOp) (ty : ATy) (o : Ord) : atomOrd (ordWord op.code ty.code 0 o) = .ok (op, ty, o) :=
  atomOrd_ordWord op ty o

/-- The spans of unused bits as the encoder writes them. -/
theorem fld_packSR_unused (m : BitVec 6) (fn : BitVec 8) : fld (packSR m 0 0 0 fn) 8 18 = 0#18 := fld_packSR_zeros m fn

theorem fld_packVR_unused (m : BitVec 6) (d : BitVec 7) (fn : BitVec 5) : fld (packVR m d 0 0 fn) 5 14 = 0#14 :=
  fld_packVR_zeros m d fn

theorem fld_packCP_unused (op ch : BitVec 3) (d : BitVec 6) (xt : BitVec 3) : fld (packCP op ch d 0 0 0 xt) 3 11 = 0#11 :=
  fld_packCP_zeros11 op ch d xt

theorem fld_packCP_unused_low (op ch : BitVec 3) : fld (packCP op ch 0 0 0 0 0) 0 20 = 0#20 := fld_packCP_zeros20 op ch

/-! ## What a head word announces (R161) -/

theorem countIf_le_one (b : Bool) : countIf b ≤ 1 := by cases b <;> decide

/-- No head word announces more than three literal words. -/
theorem literalCount_le_three (w : Word) : literalCount w ≤ 3 := by
  unfold literalCount
  simp only
  split_ifs
  all_goals grind [countIf_le_one]

theorem countIf_bField {b : BOp} (hb : vbOk b = true) : countIf (bField b == 0x7F) = (bLits b).length := by
  cases b with
  | reg r => simp_all [vbOk, bField, bLits, countIf]
  | lit w => rfl

theorem countIf_sbField {b : SOp} (hb : sbOk b = true) : countIf (sbField b == 0x3F) = (sbLits b).length := by
  cases b with
  | reg r => simp_all [sbOk, sbField, sbLits, countIf]
  | lit w => rfl

/-- The majors of formats SI, VI and BR, and those of format SR without a B operand. -/
def bareMajors : List (BitVec 6) :=
  [0x02, 0x03, 0x04, 0x05, 0x06, 0x07, 0x08, 0x09, 0x0A, 0x0B, 0x0C, 0x0D, 0x0E, 0x0F, 0x14, 0x15, 0x16, 0x17, 0x18, 0x1A, 0x36,
    0x39, 0x3A, 0x3D]

/-- The majors of format VR that have a B operand in some of their words. -/
def vrMajors : List (BitVec 6) := [0x10, 0x11, 0x12, 0x13, 0x19, 0x20, 0x21, 0x22, 0x23]

theorem ITy.major_mem (t : ITy) : t.major ∈ vrMajors := by cases t <;> decide
theorem FTy.major_mem (t : FTy) : t.major ∈ vrMajors := by cases t <;> decide
theorem ITy.vrHasB_major (t : ITy) (fn : Nat) : vrHasB t.major.toNat fn = vrHasB 0x10 fn := by cases t <;> rfl
theorem FTy.vrHasB_major (t : FTy) (fn : Nat) : vrHasB t.major.toNat fn = vrHasB 0x20 fn := by cases t <;> rfl

theorem literalCount_bare {w : Word} {m : BitVec 6} (h : fld w 26 6 = m) (hm : m ∈ bareMajors) : literalCount w = 0 := by
  unfold bareMajors at hm
  fin_cases hm <;> simp [literalCount, h, isMM, vrHasB, srHasB, countIf]

theorem literalCount_vr {w : Word} {m : BitVec 6} (h : fld w 26 6 = m) (hm : m ∈ vrMajors) :
    literalCount w = countIf (fld w 5 7 == 0x7F && vrHasB m.toNat (fld w 0 5).toNat) := by
  unfold vrMajors at hm
  fin_cases hm <;> simp [literalCount, h, isMM, vrHasB, srHasB, countIf]

theorem literalCount_sr {w : Word} {m : BitVec 6} (h : fld w 26 6 = m) (hm : m ∈ [0x01#6, 0x33, 0x3F]) :
    literalCount w = countIf (fld w 8 6 == 0x3F && srHasB m.toNat (fld w 0 8).toNat)
      + countIf (m == 0x33 && ((fld w 0 8).toNat / 16 ≤ 1 || (fld w 0 8).toNat / 16 == 6)) := by
  fin_cases hm <;> simp [literalCount, h, isMM, vrHasB, srHasB, countIf]

theorem literalCount_mm {w : Word} {m : BitVec 6} (h : fld w 26 6 = m) (hm : isMM m.toNat = true) :
    literalCount w = countIf (fld w 6 7 == 0x7F) + countIf (fld w 5 1 == 1)
      + countIf (m.toNat == 0x2F || m.toNat == 0x37 || m.toNat == 0x38) := by
  have hvc : m.toNat ≠ 0x24 := fun h24 => by rw [h24] at hm; cases hm
  simp only [literalCount, h, if_neg hvc, if_pos hm]

theorem literalCount_0x31 {w : Word} (h : fld w 26 6 = 0x31#6) :
    literalCount w = countIf (fld w 6 7 == 0x7F && fld w 5 1 == 0) := by
  simp only [literalCount, h]
  rfl

theorem literalCount_0x32 {w : Word} (h : fld w 26 6 = 0x32#6) : literalCount w = countIf (fld w 6 7 == 0x7F) + 1 := by
  simp only [literalCount, h]
  rfl

/-- Major 0x33, whose operation is the high half of its function code. -/
theorem literalCount_0x33 (d a b : SReg) (fn lo : BitVec 4) :
    literalCount (packSR 0x33 d a b (fn ++ lo)) =
      countIf (b == 0x3F && (fn.toNat ≤ 2 || (4 ≤ fn.toNat && fn.toNat ≤ 6))) + countIf (fn.toNat ≤ 1 || fn.toNat == 6) := by
  have hop : (fn ++ lo).toNat / 16 = fn.toNat := by
    rw [BitVec.toNat_append, Nat.shiftLeft_eq, Nat.mul_comm, ← Nat.two_pow_add_eq_or_of_lt lo.isLt]
    omega
  rw [literalCount_sr (fld_packSR_maj ..) (by decide), fld_packSR_b, fld_packSR_fn, hop]
  simp only [srHasB, hop]
  rfl

theorem literalCount_packVC (d a : VReg) (df sf : BitVec 5) (sat srs : BitVec 1) :
    literalCount (packVC d a df sf sat srs) = countIf (srs == 1) := by
  simp only [literalCount, fld_packVC_maj, fld_packVC_srs]
  rfl

theorem literalCount_packCP (op ch : BitVec 3) (d : BitVec 6) (hd hs : BitVec 4) (scp xt : BitVec 3) :
    literalCount (packCP op ch d hd hs scp xt) =
      countIf (op.toNat == 1 || op.toNat == 2 || op.toNat == 3 || (op.toNat == 4 && (xt.toNat == 1 || xt.toNat == 2))) := by
  simp only [literalCount, fld_packCP_maj, fld_packCP_op, fld_packCP_xt]
  rfl

theorem literalCount_packGR (d : BitVec 7) (a : BitVec 6) (b : BitVec 7) (fn : BitVec 6) :
    literalCount (packGR d a b fn) = countIf (b == 0x7F && (fn.extractLsb' 0 5 == 1 || fn.extractLsb' 0 5 == 2)) := by
  simp (disch := decide) only [literalCount, fld_packGR_maj, fld_packGR_b, fld_packGR_within_fn]
  rfl

theorem literalCount_packMX (cd : BitVec 4) (ma : BitVec 2) (h : BitVec 4) (ru : BitVec 1) (op : BitVec 5) (fn : BitVec 10) :
    literalCount (packMX cd ma h ru op fn) = countIf (op == 0 && ma == 1) := by
  simp only [literalCount, fld_packMX_maj, fld_packMX_op, fld_packMX_ma]
  rfl

/-- An MM word announces its B literal, its order word and, in three majors, one register word more. -/
theorem literalCount_encAccess {maj : BitVec 6} (hm : isMM maj.toNat = true) {b : BOp} (hb : vbOk b = true) (d : VReg) (a : SReg)
    (o : Option Ord) (p : Policy) (z : Size) :
    literalCount (packMM maj d a (bField b) (boolBit o.isSome) p.code z.code) =
      (bLits b).length + o.toList.length + countIf (maj.toNat == 0x2F || maj.toNat == 0x37 || maj.toNat == 0x38) := by
  rw [literalCount_mm (fld_packMM_maj ..) hm, fld_packMM_b, fld_packMM_o, countIf_bField hb]
  congr 3
  cases o <;> rfl

/-! ## Instructions that their own words spell, by format -/

/-- The decoder reads the instruction back from its own words, whatever words follow, and its head word announces its literal
words. -/
def Instr.Spelled (i : Instr) : Prop :=
  ∃ w ls, encode i = w :: ls ∧ (∀ rest, decodeFields w (ls ++ rest) = .ok i) ∧ literalCount w = ls.length

theorem spelled_of_word {i : Instr} {w : Word} (he : encode i = [w]) (hd : ∀ ls, decodeFields w ls = .ok i)
    (hc : literalCount w = 0) : i.Spelled := ⟨w, [], he, hd, hc⟩

/-- Format SR with a B operand, in the majors whose words have no other literal. -/
theorem spelled_of_packSR_b {k : SOp → Instr} {maj d a : BitVec 6} {fn : BitVec 8} {b : SOp} (hb : sbOk b = true)
    (he : encode (k b) = packSR maj d a (sbField b) fn :: sbLits b) (hm : maj ∈ [0x01#6, 0x3F])
    (hn : srHasB maj.toNat fn.toNat = true)
    (hd : ∀ w ls, fld w 26 6 = maj → fld w 20 6 = d → fld w 14 6 = a → fld w 0 8 = fn →
      decodeFields w ls = (sB (fld w 8 6) ls).bind fun x => .ok (k x.1)) : (k b).Spelled := by
  refine ⟨_, _, he, fun rest =>
    (hd _ _ (fld_packSR_maj ..) (fld_packSR_d ..) (fld_packSR_a ..) (fld_packSR_fn ..)).trans ?_, ?_⟩
  · rw [fld_packSR_b, sB_sbField _ _ hb]
    rfl
  · have h33 : (maj == 0x33) = false := by fin_cases hm <;> rfl
    rw [literalCount_sr (fld_packSR_maj ..) (by fin_cases hm <;> decide), fld_packSR_b, fld_packSR_fn, hn, h33, Bool.and_true,
      countIf_sbField hb]
    rfl

/-- Format VR with a B operand. -/
theorem spelled_of_packVR_b {k : BOp → Instr} {maj : BitVec 6} {d a : BitVec 7} {fn : BitVec 5} {b : BOp} (hb : vbOk b = true)
    (he : encode (k b) = packVR maj d a (bField b) fn :: bLits b) (hm : maj ∈ vrMajors) (hn : vrHasB maj.toNat fn.toNat = true)
    (hd : ∀ w ls, fld w 26 6 = maj → fld w 19 7 = d → fld w 12 7 = a → fld w 0 5 = fn →
      decodeFields w ls = (vB (fld w 5 7) ls).bind fun x => .ok (k x.1)) : (k b).Spelled := by
  refine ⟨_, _, he, fun rest =>
    (hd _ _ (fld_packVR_maj ..) (fld_packVR_d ..) (fld_packVR_a ..) (fld_packVR_fn ..)).trans ?_, ?_⟩
  · rw [fld_packVR_b, vB_bField _ _ hb]
    rfl
  · rw [literalCount_vr (fld_packVR_maj ..) hm, fld_packVR_b, fld_packVR_fn, hn, Bool.and_true, countIf_bField hb]

/-- Format VR whose VB is no B operand. -/
theorem spelled_of_packVR {i : Instr} {maj : BitVec 6} {d a b : BitVec 7} {fn : BitVec 5} (he : encode i = [packVR maj d a b fn])
    (hm : maj ∈ vrMajors) (hn : vrHasB maj.toNat fn.toNat = false)
    (hd : ∀ w ls, fld w 26 6 = maj → fld w 19 7 = d → fld w 12 7 = a → fld w 5 7 = b → fld w 0 5 = fn →
      decodeFields w ls = .ok i) : i.Spelled := by
  refine spelled_of_word he (fun ls => hd _ ls (fld_packVR_maj ..) (fld_packVR_d ..) (fld_packVR_a ..) (fld_packVR_b ..)
    (fld_packVR_fn ..)) ?_
  rw [literalCount_vr (fld_packVR_maj ..) hm, fld_packVR_fn, hn, Bool.and_false]
  rfl

theorem spelled_of_packSI {i : Instr} {maj d a : BitVec 6} {x : BitVec 14} (he : encode i = [packSI maj d a x])
    (hm : maj ∈ [0x02#6, 0x03, 0x04, 0x05, 0x06, 0x07, 0x08, 0x09, 0x0B, 0x0D, 0x0E])
    (hd : decImm maj.toNat (packSI maj d a x) = .ok i) : i.Spelled := by
  refine spelled_of_word he (fun ls => ?_) (literalCount_bare (fld_packSI_maj ..) ?_)
  · rw [← hd]
    fin_cases hm <;> simp only [decodeFields, fld_packSI_maj] <;> rfl
  · fin_cases hm <;> decide

theorem spelled_of_packVI {i : Instr} {maj : BitVec 6} {d a : BitVec 7} {x : BitVec 12} (he : encode i = [packVI maj d a x])
    (hm : maj ∈ [0x14#6, 0x15, 0x16, 0x17, 0x18]) (hd : decVecImm maj.toNat (packVI maj d a x) = .ok i) : i.Spelled := by
  refine spelled_of_word he (fun ls => ?_) (literalCount_bare (fld_packVI_maj ..) ?_)
  · rw [← hd]
    fin_cases hm <;> simp only [decodeFields, fld_packVI_maj] <;> rfl
  · fin_cases hm <;> decide

/-!
## Each decoder reads its instructions back

A theorem lists instructions that one decoder reads from words of one shape, over all the operands that some of them have; an
operand that an instruction of the list lacks keeps its default.
-/

/-! ### Scalar instructions (R164, R221 to R227, R371 to R377) -/

theorem spelled_scalar_binary (d a : SReg) {b : SOp} (hb : sbOk b = true) :
    ∀ k ∈ [Instr.sadd, .ssub, .smul, .smulhI32, .smulhN32, .sand, .sor, .sxor, .sshl, .sshr, .ssra, .sminI32, .sminN32,
      .smaxI32, .smaxN32], (k d a b).Spelled := by
  refine List.forall_iff_forall_mem.mp ?_
  and_intros
  all_goals
    refine spelled_of_packSR_b hb rfl (by decide) rfl fun w ls hm hd ha hf => (decodeFields_0x01 w ls hm).trans ?_
    simp only [decScalar, hd, ha, hf]
    rfl

theorem spelled_scmp (c : ICond) (d a : SReg) {b : SOp} (hb : sbOk b = true) : (Instr.scmp c d a b).Spelled := by
  refine spelled_of_packSR_b hb rfl (by decide) (by cases c <;> rfl) fun w ls hm hd ha hf => (decodeFields_0x01 w ls hm).trans ?_
  simp (disch := decide) only [decScalar, hd, ha, hf, slice_append, extract_all, ICond.ofCode_code]
  rfl

theorem spelled_ssel (c d a : SReg) {b : SOp} (hb : sbOk b = true) : (Instr.ssel c d a b).Spelled := by
  refine spelled_of_packSR_b hb rfl (by decide) (by revert c; decide) fun w ls hm hd ha hf =>
    (decodeFields_0x01 w ls hm).trans ?_
  simp (disch := decide) only [decScalar, hd, ha, hf, slice_append, extract_all]
  rfl

theorem spelled_scalar_unary (d a : SReg) :
    ∀ k ∈ [Instr.smov, .spopc, .sclz, .sffs], (k d a).Spelled := by
  refine List.forall_iff_forall_mem.mp ?_
  and_intros
  all_goals
    refine spelled_of_word rfl (fun ls => (decodeFields_0x01 _ _ (fld_packSR_maj ..)).trans ?_)
      ((literalCount_sr (fld_packSR_maj ..) (by decide)).trans ?_)
    · simp only [decScalar, fields_packSR]
      rfl
    · rw [fld_packSR_b, fld_packSR_fn]
      rfl

theorem spelled_scalar_imm {i : Instr} (d a : SReg := 0) (x : BitVec 14 := 0) (y : BitVec 20 := 0) (l n : BitVec 5 := 0)
    (s : Bool := false) (v : BitVec 6 := 0) (t : BTest := .z)
    (hi : i ∈ [.saddImm d a x, .sandImm d a x, .sorImm d a x, .sshlImm d a n, .sshrImm d a n, .ssraImm d a n, .sbfx d a s l n,
      .sbfi d a l n, .sli d y, .slui d y, .setfmt v, .setmode v, .bc t a x, .bdiv a x]) : i.Spelled := by
  refine List.forall_iff_forall_mem.mp ?_ i hi
  and_intros
  all_goals
    refine spelled_of_packSI rfl (by decide) ?_
    simp (disch := decide) only [decImm, fields_packSI, fld_packSI_within_d, fld_packSI_within_x, slice_append, extract_all,
      Nat.reduceSub, append_halves_20, bitBool_boolBit, BTest.ofCode_code]
    rfl

theorem spelled_state {i : Instr} (d a : SReg := 0) (n : BitVec 6 := 0) (hi : i ∈ [.sget d n, .sset a n, .ckwarn d a]) :
    i.Spelled := by
  refine List.forall_iff_forall_mem.mp ?_ i hi
  and_intros
  all_goals
    refine spelled_of_word rfl (fun ls => (decodeFields_0x0A _ _ (fld_packSR_maj ..)).trans ?_)
      (literalCount_bare (fld_packSR_maj ..) (by decide))
    simp (disch := decide) only [decState, fields_packSR, fld_packSR_within_fn, slice_append, extract_all, Nat.reduceSub]
    rfl

theorem spelled_br_call (o : BitVec 22) :
    ∀ k ∈ [Instr.br, .call], (k o).Spelled := by
  refine List.forall_iff_forall_mem.mp ?_
  and_intros
  all_goals
    refine spelled_of_word rfl (fun ls => (decodeFields_0x0C _ _ (fld_packBR_maj ..)).trans ?_)
      (literalCount_bare (fld_packBR_maj ..) (by decide))
    simp only [decBranch, fld_packBR_c, fld_packBR_x]
    rfl

theorem spelled_flow {i : Instr} (a : SReg := 0) (hi : i ∈ [.nop, .join, .ret, .jmpi a, .exit, .yield]) : i.Spelled := by
  refine List.forall_iff_forall_mem.mp ?_ i hi
  and_intros
  all_goals
    refine spelled_of_word rfl (fun ls => (decodeFields_0x0F _ _ (fld_packSR_maj ..)).trans ?_)
      (literalCount_bare (fld_packSR_maj ..) (by decide))
    simp only [decFlow, fields_packSR]
    rfl

/-! ### Vector instructions (R165, R228 to R261) -/

theorem spelled_vecInt_binary (t : ITy) (d a : VReg) {b : BOp} (hb : vbOk b = true) :
    ∀ k ∈ [Instr.vadd, .vsub, .vmul, .vmulhSigned, .vmulhUnsigned, .vmac, .vand, .vor, .vxor, .vshl, .vshr, .vsra, .vminSigned,
      .vminUnsigned, .vmaxSigned, .vmaxUnsigned, .vsel], (k t d a b).Spelled := by
  refine List.forall_iff_forall_mem.mp ?_
  and_intros
  all_goals
    refine spelled_of_packVR_b hb rfl t.major_mem (t.vrHasB_major _) fun w ls hm hd ha hf =>
      (decodeFields_vecInt t w ls hm).trans ?_
    simp only [decVecInt, hd, ha, hf]
    rfl

theorem spelled_vecInt_unary (t : ITy) (d a : VReg) :
    ∀ k ∈ [Instr.vnot, .vabs, .vneg, .vpopc, .vclz, .vmov], (k t d a).Spelled := by
  refine List.forall_iff_forall_mem.mp ?_
  and_intros
  all_goals
    refine spelled_of_packVR rfl t.major_mem (t.vrHasB_major _) fun w ls hm hd ha hb hf =>
      (decodeFields_vecInt t w ls hm).trans ?_
    simp only [decVecInt, hd, ha, hb, hf]
    rfl

theorem spelled_vcmp (wide : Bool) (c : ICond) (s : SReg) (a : VReg) {b : BOp} (hb : vbOk b = true) :
    (Instr.vcmp wide c s a b).Spelled := by
  refine spelled_of_packVR_b hb rfl (ITy.major_mem _) ((ITy.vrHasB_major _ _).trans ?_) fun w ls hm hd ha hf =>
    (decodeFields_vecInt _ w ls hm).trans ?_
  · cases c <;> rfl
  · simp (disch := decide) only [decVecInt, hd, ha, hf, sOf7_s7, slice_append, extract_all, ICond.ofCode_code]
    cases wide <;> rfl

/-- The literal form of vli, whose VB announces the word though it is no B operand (R234). -/
theorem spelled_vliLit (d : VReg) (l : Word) : (Instr.vliLit d l).Spelled := by
  refine ⟨_, _, rfl, fun rest => (decodeFields_0x10 _ _ (fld_packVR_maj ..)).trans ?_,
    (literalCount_vr (fld_packVR_maj ..) (by decide)).trans ?_⟩
  · simp only [decVecInt, fields_packVR]
    rfl
  · rw [fld_packVR_b, fld_packVR_fn]
    rfl

theorem spelled_vecImm {i : Instr} (d a : VReg := 0) (x : BitVec 12 := 0) (y : BitVec 19 := 0) (l n : BitVec 5 := 0)
    (s : Bool := false)
    (hi : i ∈ [.vaddImm d a x, .vli d y, .vbfx d a s l n, .vbfi d a l n, .vshlImm d a n, .vshrImm d a n, .vsraImm d a n]) :
    i.Spelled := by
  refine List.forall_iff_forall_mem.mp ?_ i hi
  and_intros
  all_goals
    refine spelled_of_packVI rfl (by decide) ?_
    simp (disch := decide) only [decVecImm, fields_packVI, fld_packVI_within_x, slice_append, extract_all, Nat.reduceSub,
      append_halves_19, bitBool_boolBit]
    rfl

theorem spelled_vperm (d a : VReg) {b : BOp} (hb : vbOk b = true) : (Instr.vperm d a b).Spelled := by
  refine spelled_of_packVR_b hb rfl (by decide) rfl fun w ls hm hd ha hf => (decodeFields_0x19 w ls hm).trans ?_
  simp only [decCross, hd, ha, hf]
  rfl

theorem spelled_cross {i : Instr} (d a : VReg := 0) (n : BitVec 7 := 0) (op : RedOp := .add) (x : Bool := false) (s : SReg := 0)
    (v : VoteKind := .all)
    (hi : i ∈ [.vbcast d a n, .vxshf d a n, .vred op d a, .vscan op x d a, .vballot s a, .vvote v s a]) : i.Spelled := by
  refine List.forall_iff_forall_mem.mp ?_ i hi
  and_intros
  all_goals
    refine spelled_of_word rfl (fun ls => (decodeFields_0x19 _ _ (fld_packVR_maj ..)).trans ?_)
      ((literalCount_vr (fld_packVR_maj ..) (by decide)).trans ?_)
    · simp (disch := decide) only [decCross, fields_packVR, fld_packVR_within_b, slice_append, extract_all, Nat.reduceSub,
        bitBool_boolBit, RedOp.ofCode_code, VoteKind.ofCode_code, sOf7_s7]
      rfl
    · rw [fld_packVR_fn]
      exact congrArg countIf (Bool.and_false _)

theorem spelled_sgetIdLane (d : VReg) : (Instr.sgetIdLane d).Spelled := by
  refine spelled_of_word rfl (fun ls => (decodeFields_0x1A _ _ (fld_packVR_maj ..)).trans ?_)
    (literalCount_bare (fld_packVR_maj ..) (by decide))
  simp only [decLane, fld_packVR_unused, fields_packVR]
  rfl

theorem spelled_vecFloat_binary (t : FTy) (d a : VReg) {b : BOp} (hb : vbOk b = true) :
    ∀ k ∈ [Instr.vfadd, .vfsub, .vfmul, .vfma, .vfms, .vfmin, .vfmax, .vfscl], (k t d a b).Spelled := by
  refine List.forall_iff_forall_mem.mp ?_
  and_intros
  all_goals
    refine spelled_of_packVR_b hb rfl t.major_mem (t.vrHasB_major _) fun w ls hm hd ha hf =>
      (decodeFields_vecFloat t w ls hm).trans ?_
    simp only [decVecFloat, hd, ha, hf]
    rfl

theorem spelled_vecFloat_unary (t : FTy) (d a : VReg) :
    ∀ k ∈ [Instr.vfexp, .vfclass, .vrcp, .vrsq, .vsqrt, .vexp2, .vlog2, .vsin, .vcos, .vtanh], (k t d a).Spelled := by
  refine List.forall_iff_forall_mem.mp ?_
  and_intros
  all_goals
    refine spelled_of_packVR rfl t.major_mem (t.vrHasB_major _) fun w ls hm hd ha hb hf =>
      (decodeFields_vecFloat t w ls hm).trans ?_
    simp only [decVecFloat, hd, ha, hb, hf]
    rfl

theorem spelled_vfrnd (t : FTy) (d a b : VReg) : (Instr.vfrnd t d a b).Spelled := by
  refine spelled_of_packVR rfl t.major_mem (t.vrHasB_major _) fun w ls hm hd ha hb hf =>
    (decodeFields_vecFloat t w ls hm).trans ?_
  simp only [decVecFloat, hd, ha, hb, hf]
  rfl

theorem spelled_softmax {i : Instr} (d a : VReg) (b : VReg := 0) (hi : i ∈ [.vosmx d a b, .vosms d a]) : i.Spelled := by
  refine List.forall_iff_forall_mem.mp ?_ i hi
  and_intros
  all_goals
    refine spelled_of_packVR rfl (by decide) rfl fun w ls hm hd ha hb hf => (decodeFields_0x20 w ls hm).trans ?_
    simp only [decVecFloat, hd, ha, hb, hf]
    rfl

theorem spelled_vf2sum (wide : Bool) (d a : VReg) {b : BOp} (hb : vbOk b = true) : (Instr.vf2sum wide d a b).Spelled := by
  refine spelled_of_packVR_b hb rfl (FTy.major_mem _) (FTy.vrHasB_major _ _) fun w ls hm hd ha hf =>
    (decodeFields_vecFloat _ w ls hm).trans ?_
  simp only [decVecFloat, hd, ha, hf]
  cases wide <;> rfl

theorem spelled_vfcmp (t : FTy) (c : FCond) (s : SReg) (a : VReg) {b : BOp} (hb : vbOk b = true) :
    (Instr.vfcmp t c s a b).Spelled := by
  refine spelled_of_packVR_b hb rfl t.major_mem ((t.vrHasB_major _).trans ?_) fun w ls hm hd ha hf =>
    (decodeFields_vecFloat _ w ls hm).trans ?_
  · cases c <;> rfl
  · simp (disch := decide) only [decVecFloat, hd, ha, hf, sOf7_s7, slice_append, extract_all, FCond.ofCode_code]
    rfl

theorem spelled_vfcvt {i : Instr} (d a : VReg) (df sf : Cvt) (sat : Bool) (s : VReg := 0)
    (hi : i ∈ [.vfcvt d a df sf sat, .vfcvtSr d a df sf sat s]) : i.Spelled := by
  refine List.forall_iff_forall_mem.mp ?_ i hi
  and_intros
  all_goals
    refine ⟨_, _, rfl, fun rest => (decodeFields_0x24 _ _ (fld_packVC_maj ..)).trans ?_, literalCount_packVC ..⟩
    simp only [decConvert, fields_packVC, Cvt.ofCode_code, bitBool_boolBit, coded, List.cons_append, takeLit, dec_ok_bind,
      vLit_vWord]
    rfl

/-! ### Memory instructions (R181 to R197, R321 to R323) -/

theorem spelled_access {i : Instr} (d : VReg) (a : SReg) {b : BOp} (hb : vbOk b = true) (o : Option Ord) (p : Policy) (z : Size)
    (m : SReg := 0)
    (hi : i ∈ [.vld d a b o p z, .vst d a b o p z, .vldg d a b o p z, .vsts d a b o p z, .vldgPart d a b o p z m,
      .cvst d a b o p z m, .cvld d a b o p z m]) : i.Spelled := by
  refine List.forall_iff_forall_mem.mp ?_ i hi
  and_intros
  all_goals
    refine ⟨_, _, rfl, fun rest => (decodeFields_access (fld_packMM_maj ..) (by decide) _).trans ?_,
      (literalCount_encAccess rfl hb ..).trans ?_⟩
    · cases o
      all_goals
        simp only [decAccess, fields_packMM, Policy.ofCode_code, Size.ofCode_code, coded, boolBit_eq_one, Option.isSome_none,
          Option.isSome_some, if_true, Bool.false_eq_true, if_false, dec_ok_bind, dec_pure, List.append_assoc, vB_bField _ _ hb,
          List.nil_append, List.cons_append, takeLit, plainOrd_zeros, sLit_sWord]
        rfl
    · cases o <;> simp [countIf]

theorem spelled_local (d : VReg) (a : SReg) {b : BOp} (hb : vbOk b = true) (z : Size) :
    ∀ k ∈ [Instr.lld, .lst], (k d a b z).Spelled := by
  refine List.forall_iff_forall_mem.mp ?_
  and_intros
  all_goals
    refine ⟨_, _, rfl, fun rest => (decodeFields_0x31 _ _ (fld_packAT_maj ..)).trans ?_,
      (literalCount_0x31 (fld_packAT_maj ..)).trans ?_⟩
    · simp (disch := decide) only [decLocal, fields_packAT, fld_packAT_within_z, slice_append, extract_all, Nat.reduceSub,
        Size.ofCode_code, coded, vB_bField _ _ hb]
      rfl
    · simp (disch := decide) only [fld_packAT_b, fld_packAT_within_k, ← countIf_bField hb]
      exact congrArg countIf (Bool.and_true _)

theorem spelled_tile (wide : Bool) (d : VReg) (a : SReg) (t : BitVec 4) :
    ∀ k ∈ [Instr.ald, .ast], (k wide d a t).Spelled := by
  refine List.forall_iff_forall_mem.mp ?_
  and_intros
  all_goals
    refine spelled_of_word rfl (fun ls => (decodeFields_0x31 _ _ (fld_packAT_maj ..)).trans ?_)
      ((literalCount_0x31 (fld_packAT_maj ..)).trans ?_)
    · simp (disch := decide) only [decLocal, fields_packAT, fld_packAT_within_b, fld_packAT_within_z, slice_append, extract_all,
        Nat.reduceSub]
      cases wide <;> rfl
    · simp (disch := decide) only [fld_packAT_within_k]
      exact congrArg countIf (Bool.and_false _)

theorem spelled_atomic (op : AOp) (ty : ATy) (o : Ord) (d : VReg) (a : SReg)
    {b : BOp} (hb : vbOk b = true) :
    ∀ k ∈ [Instr.vatom, .vredm, .lredm], (k op ty o d a b).Spelled := by
  refine List.forall_iff_forall_mem.mp ?_
  and_intros
  all_goals
    refine ⟨_, _, rfl, fun rest => (decodeFields_0x32 _ _ (fld_packAT_maj ..)).trans ?_,
      (literalCount_0x32 (fld_packAT_maj ..)).trans ?_⟩
    · simp only [decAtomic, fields_packAT, List.append_assoc, vB_bField _ _ hb, List.cons_append, takeLit, atomOrd_zeros,
        dec_ok_bind]
      rfl
    · rw [fld_packAT_b, countIf_bField hb, List.length_append]
      rfl

theorem spelled_scalarMem {i : Instr} (d : SReg := 0) (a : SReg) {b : SOp} (hb : sbOk b = true) (z : Size := .w32)
    (o : Ord := ⟨.wk, .pt⟩) (p : Policy := .ca) (op : AOp := .add) (ty : ATy := .i32) (c : Scope := .pt)
    (hi : i ∈ [.sld d a b z o p, .sst d a b z o p, .pref a b p, .cclean a b c, .cinval a b c, .satom op ty o d a b]) :
    i.Spelled := by
  refine List.forall_iff_forall_mem.mp ?_ i hi
  and_intros
  all_goals
    refine ⟨_, _, rfl, fun rest => (decodeFields_0x33 _ _ (fld_packSR_maj ..)).trans ?_, (literalCount_0x33 ..).trans ?_⟩
    · simp (disch := decide) only [decScalarMem, fields_packSR, fld_packSR_within_fn, slice_append, extract_all, Nat.reduceSub,
        Size.ofCode_code, Policy.ofCode_code, Scope.ofCode_code, coded, List.append_assoc, sB_sbField _ _ hb, List.cons_append,
        takeLit, polOrd_zeros, atomOrd_zeros, dec_ok_bind]
      rfl
    · rw [List.length_append, ← countIf_sbField hb]
      exact congrArg (countIf · + _) (Bool.and_true _)

theorem spelled_fence {s : Strength} (hs : (s == .ar || s == .acq || s == .rel) = true) (c : Scope) :
    (Instr.fence s c).Spelled := by
  have hcode : fenceOfCode (fenceCode s) = some s := fenceOfCode_fenceCode s (by simpa [or_assoc] using hs)
  refine spelled_of_word rfl (fun ls => (decodeFields_0x33 _ _ (fld_packSR_maj ..)).trans ?_)
    ((literalCount_sr (fld_packSR_maj ..) (by decide)).trans ?_)
  · simp (disch := decide) only [decScalarMem, fields_packSR, fld_packSR_within_d, fld_packSR_within_fn, slice_append, extract_all,
      Nat.reduceSub, Scope.ofCode_code, coded, hcode]
    rfl
  · rw [fld_packSR_b, fld_packSR_fn]
    cases c <;> rfl

/-! ### Engine instructions (R199 to R217, R330) -/

theorem spelled_copy {i : Instr} (d : SReg) (ch : BitVec 3) (hd hs : BitVec 4 := 0) (c : Scope) (v : VReg := 0) (m : SReg := 0)
    (hi : i ∈ [.cpy d ch hd hs c, .cpg d ch hd hs c v, .cps d ch hd hs c v, .cpm d ch hs c m]) : i.Spelled := by
  refine List.forall_iff_forall_mem.mp ?_ i hi
  and_intros
  all_goals
    refine ⟨_, _, rfl, fun rest => (decodeFields_0x34 _ _ (fld_packCP_maj ..)).trans ?_, literalCount_packCP ..⟩
    simp only [decCopy, fields_packCP, Scope.ofCode_code, coded, List.cons_append, takeLit, dec_ok_bind, vLit_vWord, sLit_sWord]
    rfl

theorem spelled_channel {i : Instr} (d : SReg := 0) (ch : BitVec 3 := 0) (m : BitVec 2 := 0) (k : SReg := 0)
    (hi : i ∈ [.cpwpRead d ch, .cpwpWait d ch k, .cpwpAck m k, .cpwpRecv d m, .cpcan ch, .qclose m]) : i.Spelled := by
  refine List.forall_iff_forall_mem.mp ?_ i hi
  and_intros
  all_goals
    refine ⟨_, _, rfl, fun rest => (decodeFields_0x34 _ _ (fld_packCP_maj ..)).trans ?_, literalCount_packCP ..⟩
    simp (disch := decide) only [decCopy, fields_packCP, fld_packCP_unused, fld_packCP_unused_low, fld_packCP_within_ch,
      slice_append, extract_all, Nat.reduceSub, List.cons_append, takeLit, dec_ok_bind, sLit_sWord]
    rfl

/-- Ports 0 and 1 name the handle of a source, ports 2 and 3 that of a destination (R205). -/
theorem spelled_qbind (q : BitVec 2) (h : BitVec 4) (c : Scope) : (Instr.qbind q h c).Spelled := by
  have hq : q = 0 ∨ q = 1 ∨ q = 2 ∨ q = 3 := by revert q; decide
  rcases hq with rfl | rfl | rfl | rfl
  all_goals
    refine spelled_of_word rfl (fun ls => (decodeFields_0x34 _ _ (fld_packCP_maj ..)).trans ?_) (literalCount_packCP ..)
    simp (disch := decide) only [decCopy, fields_packCP, fld_packCP_within_ch, Nat.reduceSub, Scope.ofCode_code, coded]
    rfl

theorem spelled_convoy {i : Instr} (d a : SReg) (view : Bool := false)
    (hi : i ∈ [.cvopen d a view, .cvclose d a, .cvstat d a]) : i.Spelled := by
  refine List.forall_iff_forall_mem.mp ?_ i hi
  and_intros
  all_goals
    refine spelled_of_word rfl (fun ls => (decodeFields_0x36 _ _ (fld_packSR_maj ..)).trans ?_)
      (literalCount_bare (fld_packSR_maj ..) (by decide))
    simp (disch := decide) only [decConvoy, fields_packSR, fld_packSR_within_b, slice_append, extract_all, Nat.reduceSub,
      bitBool_boolBit]
    rfl

theorem spelled_stream {i : Instr} (d a : SReg) (b : SReg := 0) (f : IntForm := .idx) (int keepz : Bool := false) (c : Comb := .add)
    (hi : i ∈ [.ssint d a b f, .ssmerge d a b int keepz c, .ssscan d a b, .spx d a]) : i.Spelled := by
  refine List.forall_iff_forall_mem.mp ?_ i hi
  and_intros
  all_goals
    refine spelled_of_word rfl (fun ls => (decodeFields_0x39 _ _ (fld_packSR_maj ..)).trans ?_)
      (literalCount_bare (fld_packSR_maj ..) (by decide))
    simp (disch := decide) only [decStream, fields_packSR, fld_packSR_within_fn, slice_append, extract_all, Nat.reduceSub,
      bitBool_boolBit, IntForm.ofCode_code, Comb.ofCode_code, coded]
    rfl

theorem spelled_neighbour {i : Instr} (d : SReg) (a : SReg := 0) (port : Bool := false)
    (hi : i ∈ [.nbbin d a, .nbpairs d a port, .nbstat d]) : i.Spelled := by
  refine List.forall_iff_forall_mem.mp ?_ i hi
  and_intros
  all_goals
    refine spelled_of_word rfl (fun ls => (decodeFields_0x3A _ _ (fld_packSR_maj ..)).trans ?_)
      (literalCount_bare (fld_packSR_maj ..) (by decide))
    simp (disch := decide) only [decNeighbour, fields_packSR, fld_packSR_within_fn, slice_append, extract_all, Nat.reduceSub,
      bitBool_boolBit]
    rfl

/-! ### Graph instructions and barriers (R362 to R370, R381) -/

theorem spelled_graph_b {i : Instr} (v : VReg) (e : BitVec 6 := 0) (x : BitVec 4 := 0) {b : BOp} (hb : vbOk b = true)
    (ns : Bool := false) (hi : i ∈ [.emitr v e b ns, .rget v x b]) : i.Spelled := by
  refine List.forall_iff_forall_mem.mp ?_ i hi
  and_intros
  all_goals
    refine ⟨_, _, rfl, fun rest => (decodeFields_0x3C _ _ (fld_packGR_maj ..)).trans ?_, (literalCount_packGR ..).trans ?_⟩
    · simp (disch := decide) only [decGraph, fields_packGR, fld_packGR_within_a, fld_packGR_within_fn, slice_append, extract_all,
        Nat.reduceSub, bitBool_boolBit, vB_bField _ _ hb]
      rfl
    · simp (disch := decide) only [← countIf_bField hb, slice_append, extract_all]
      exact congrArg countIf (Bool.and_true _)

theorem spelled_emit (v : VReg) (e : BitVec 6) (j : SReg) (ns : Bool) : (Instr.emit v e j ns).Spelled := by
  refine spelled_of_word rfl (fun ls => (decodeFields_0x3C _ _ (fld_packGR_maj ..)).trans ?_) ((literalCount_packGR ..).trans ?_)
  · simp (disch := decide) only [decGraph, fields_packGR, fld_packGR_within_fn, slice_append, extract_all, Nat.reduceSub,
      bitBool_boolBit, sOf7_s7]
    rfl
  · simp (disch := decide) only [slice_append, extract_all]
    exact congrArg countIf (Bool.and_false _)

theorem spelled_graph {i : Instr} (v : VReg := 0) (d j s : SReg := 0) (e : BitVec 6 := 0) (h : BitVec 4 := 0)
    (hi : i ∈ [.rdone d, .futnew d j, .futreg j e v, .futres j d .imm, .futres j d .mx, .futres j d (.cmd s), .futst d j,
      .dget (.pair d) h, .dget (.word e) h]) : i.Spelled := by
  refine List.forall_iff_forall_mem.mp ?_ i hi
  and_intros
  all_goals
    refine spelled_of_word rfl (fun ls => (decodeFields_0x3C _ _ (fld_packGR_maj ..)).trans ?_)
      ((literalCount_packGR ..).trans (congrArg countIf (Bool.and_false _)))
    simp (disch := decide) only [decGraph, fields_packGR, fld_packGR_within_b, fld_packGR_within_fn, slice_append, extract_all,
      Nat.reduceSub, sOf7_s7]
    rfl

theorem spelled_barrier (s : BarScope) (b : BitVec 4) :
    ∀ k ∈ [Instr.barArrive, .barWait, .barSync], (k s b).Spelled := by
  refine List.forall_iff_forall_mem.mp ?_
  and_intros
  all_goals
    refine spelled_of_word rfl (fun ls => (decodeFields_0x3D _ _ (fld_packSR_maj ..)).trans ?_)
      (literalCount_bare (fld_packSR_maj ..) (by decide))
    simp (disch := decide) only [decBarrier, fld_packSR_unused, fld_packSR_within_fn, slice_append, extract_all, Nat.reduceSub,
      BarScope.ofCode_code, coded]
    rfl

/-! ### The matrix stream and the system instructions (R170, R284 to R299, R408) -/

theorem spelled_matrix {i : Instr} (c k h : BitVec 4 := 0) (v : BitVec 10 := 0) (t : KCond := .nz) (m : BitVec 2 := 0)
    (ru ko zs : Bool := false) (l : Word := 0)
    (hi : i ∈ [.kli c v, .kliLiteral c l, .kadd c h v, .kbr t h v, .mld m h k ko, .mrel m, .mzero c, .mma c m h ru k ko zs,
      .mmt c m h ru k ko zs, .mst c h k ko, .mscl c h, .mchk c, .mbar h, .lkoPred m h, .lkoFetch h, .lkoChk c m h]) :
    i.Spelled := by
  refine List.forall_iff_forall_mem.mp ?_ i hi
  and_intros
  all_goals
    refine ⟨_, _, rfl, fun rest => (decodeFields_0x3E _ _ (fld_packMX_maj ..)).trans ?_, literalCount_packMX ..⟩
    simp (disch := decide) only [decMatrix, fields_packMX, fld_packMX_within_fn, slice_append, extract_all, Nat.reduceSub,
      encBlock_k, encBlock_ko, encBlock_zeros, encBlock_zs, encBlock_low, bitBool_boolBit, KCond.ofCode_code, coded]
    rfl

theorem spelled_system_b (d a : SReg) {b : SOp} (hb : sbOk b = true) :
    ∀ k ∈ [Instr.rfe, .hcall], (k d a b).Spelled := by
  refine List.forall_iff_forall_mem.mp ?_
  and_intros
  all_goals
    refine spelled_of_packSR_b hb rfl (by decide) rfl fun w ls hm hd ha hf => (decodeFields_0x3F w ls hm).trans ?_
    simp only [decSystem, hd, ha, hf]
    rfl

theorem spelled_system {i : Instr} (d : SReg) (a b : SReg := 0) (hi : i ∈ [.tlbrng d a b, .wsld d a b, .clkrd d]) :
    i.Spelled := by
  refine List.forall_iff_forall_mem.mp ?_ i hi
  and_intros
  all_goals
    refine spelled_of_word rfl (fun ls => (decodeFields_0x3F _ _ (fld_packSR_maj ..)).trans ?_)
      ((literalCount_sr (fld_packSR_maj ..) (by decide)).trans ?_)
    · simp only [decSystem, fields_packSR]
      rfl
    · rw [fld_packSR_b, fld_packSR_fn]
      exact congrArg (countIf · + 0) (Bool.and_false _)

theorem spelled_trap (c : BitVec 12) : (Instr.trap c).Spelled := by
  obtain ⟨hm, hd, hc, hf⟩ := fields_trap c
  refine spelled_of_word rfl (fun ls => (decodeFields_0x3F _ _ hm).trans ?_) ((literalCount_sr hm (by decide)).trans ?_)
  · simp only [decSystem, hd, hf, hc]
    rfl
  · rw [hf]
    exact congrArg (countIf · + 0) (Bool.and_false _)

/-! ## Every instruction within the limits is spelled by its words -/

/-- The case split over the instructions: of the limits, the B operands' (R161) and fence's strength (R196) are all that the words
need. An event is within no limits. -/
theorem Instr.spelled {i : Instr} (h : i.illegal = none) : i.Spelled := by
  cases i
  case sadd | ssub | smul | smulhI32 | smulhN32 | sand | sor | sxor | sshl | sshr | ssra | sminI32 | sminN32 | smaxI32 | smaxN32 =>
    exact spelled_scalar_binary _ _ (firstFailing_cons.mp h).1 _ (by simp)
  case scmp => exact spelled_scmp _ _ _ (firstFailing_cons.mp h).1
  case ssel => exact spelled_ssel _ _ _ (firstFailing_cons.mp h).1
  case smov | spopc | sclz | sffs => exact spelled_scalar_unary _ _ _ (by simp)
  case saddImm d a x | sandImm d a x | sorImm d a x => exact spelled_scalar_imm (d := d) (a := a) (x := x) (hi := by simp)
  case sshlImm d a n | sshrImm d a n | ssraImm d a n => exact spelled_scalar_imm (d := d) (a := a) (n := n) (hi := by simp)
  case sbfx d a s l n => exact spelled_scalar_imm (d := d) (a := a) (s := s) (l := l) (n := n) (hi := by simp)
  case sbfi d a l n => exact spelled_scalar_imm (d := d) (a := a) (l := l) (n := n) (hi := by simp)
  case sli d y | slui d y => exact spelled_scalar_imm (d := d) (y := y) (hi := by simp)
  case setfmt v | setmode v => exact spelled_scalar_imm (v := v) (hi := by simp)
  case bc t a x => exact spelled_scalar_imm (t := t) (a := a) (x := x) (hi := by simp)
  case bdiv a x => exact spelled_scalar_imm (a := a) (x := x) (hi := by simp)
  case sget d n => exact spelled_state (d := d) (n := n) (hi := by simp)
  case sset a n => exact spelled_state (a := a) (n := n) (hi := by simp)
  case ckwarn d a => exact spelled_state (d := d) (a := a) (hi := by simp)
  case br | call => exact spelled_br_call _ _ (by simp)
  case nop | join | ret | exit | yield => exact spelled_flow (hi := by simp)
  case jmpi a => exact spelled_flow (a := a) (hi := by simp)
  case vadd | vsub | vmul | vmulhSigned | vmulhUnsigned | vmac | vand | vor | vxor | vshl | vshr | vsra | vminSigned |
      vminUnsigned | vmaxSigned | vmaxUnsigned | vsel =>
    exact spelled_vecInt_binary _ _ _ (firstFailing_cons.mp h).1 _ (by simp)
  case vnot | vabs | vneg | vpopc | vclz | vmov => exact spelled_vecInt_unary _ _ _ _ (by simp)
  case vcmp => exact spelled_vcmp _ _ _ _ (firstFailing_cons.mp h).1
  case vliLit => exact spelled_vliLit _ _
  case vaddImm d a x => exact spelled_vecImm (d := d) (a := a) (x := x) (hi := by simp)
  case vli d y => exact spelled_vecImm (d := d) (y := y) (hi := by simp)
  case vbfx d a s l n => exact spelled_vecImm (d := d) (a := a) (s := s) (l := l) (n := n) (hi := by simp)
  case vbfi d a l n => exact spelled_vecImm (d := d) (a := a) (l := l) (n := n) (hi := by simp)
  case vshlImm d a n | vshrImm d a n | vsraImm d a n => exact spelled_vecImm (d := d) (a := a) (n := n) (hi := by simp)
  case vperm => exact spelled_vperm _ _ (firstFailing_cons.mp h).1
  case vbcast d a n | vxshf d a n => exact spelled_cross (d := d) (a := a) (n := n) (hi := by simp)
  case vred op d a => exact spelled_cross (op := op) (d := d) (a := a) (hi := by simp)
  case vscan op x d a => exact spelled_cross (op := op) (x := x) (d := d) (a := a) (hi := by simp)
  case vballot s a => exact spelled_cross (s := s) (a := a) (hi := by simp)
  case vvote v s a => exact spelled_cross (v := v) (s := s) (a := a) (hi := by simp)
  case sgetIdLane => exact spelled_sgetIdLane _
  case vfadd | vfsub | vfmul | vfma | vfms | vfmin | vfmax | vfscl =>
    exact spelled_vecFloat_binary _ _ _ (firstFailing_cons.mp h).1 _ (by simp)
  case vfexp | vfclass | vrcp | vrsq | vsqrt | vexp2 | vlog2 | vsin | vcos | vtanh => exact spelled_vecFloat_unary _ _ _ _ (by simp)
  case vfrnd => exact spelled_vfrnd _ _ _ _
  case vosmx d a b => exact spelled_softmax d a (b := b) (hi := by simp)
  case vosms d a => exact spelled_softmax d a (hi := by simp)
  case vf2sum => exact spelled_vf2sum _ _ _ (firstFailing_cons.mp h).1
  case vfcmp => exact spelled_vfcmp _ _ _ _ (firstFailing_cons.mp h).1
  case vfcvt d a df sf sat => exact spelled_vfcvt d a df sf sat (hi := by simp)
  case vfcvtSr d a df sf sat s => exact spelled_vfcvt d a df sf sat (s := s) (hi := by simp)
  case vld d a b o p z | vst d a b o p z | vldg d a b o p z | vsts d a b o p z =>
    exact spelled_access d a (firstFailing_cons.mp h).1 o p z (hi := by simp)
  case vldgPart d a b o p z m =>
    exact spelled_access d a (firstFailing_cons.mp ((andThen_eq_none _ _).mp h).1).1 o p z (m := m) (hi := by simp)
  case cvst d a b o p z m | cvld d a b o p z m =>
    exact spelled_access d a (firstFailing_cons.mp h).1 o p z (m := m) (hi := by simp)
  case lld | lst => exact spelled_local _ _ (firstFailing_cons.mp h).1 _ _ (by simp)
  case ald | ast => exact spelled_tile _ _ _ _ _ (by simp)
  case vatom | vredm => exact spelled_atomic _ _ _ _ _ (firstFailing_cons.mp ((andThen_eq_none _ _).mp h).1).1 _ (by simp)
  case lredm => exact spelled_atomic _ _ _ _ _ (firstFailing_cons.mp h).1 _ (by simp)
  case sld d a b z o p | sst d a b z o p =>
    exact spelled_scalarMem (d := d) (a := a) (hb := (firstFailing_cons.mp h).1) (z := z) (o := o) (p := p) (hi := by simp)
  case pref a b p => exact spelled_scalarMem (a := a) (hb := (firstFailing_cons.mp h).1) (p := p) (hi := by simp)
  case cclean a b c | cinval a b c => exact spelled_scalarMem (a := a) (hb := (firstFailing_cons.mp h).1) (c := c) (hi := by simp)
  case satom op ty o d a b =>
    exact spelled_scalarMem (d := d) (a := a) (hb := (firstFailing_cons.mp h).1) (o := o) (op := op) (ty := ty) (hi := by simp)
  case fence => exact spelled_fence (firstFailing_cons.mp h).1 _
  case cpy d ch hd hs c => exact spelled_copy d ch (hd := hd) (hs := hs) (c := c) (hi := by simp)
  case cpg d ch hd hs c v | cps d ch hd hs c v => exact spelled_copy d ch (hd := hd) (hs := hs) (c := c) (v := v) (hi := by simp)
  case cpm d ch hs c m => exact spelled_copy d ch (hs := hs) (c := c) (m := m) (hi := by simp)
  case cpwpRead d ch => exact spelled_channel (d := d) (ch := ch) (hi := by simp)
  case cpwpWait d ch k => exact spelled_channel (d := d) (ch := ch) (k := k) (hi := by simp)
  case cpwpAck m k => exact spelled_channel (m := m) (k := k) (hi := by simp)
  case cpwpRecv d m => exact spelled_channel (d := d) (m := m) (hi := by simp)
  case cpcan ch => exact spelled_channel (ch := ch) (hi := by simp)
  case qclose q => exact spelled_channel (m := q) (hi := by simp)
  case qbind => exact spelled_qbind _ _ _
  case cvopen d a view => exact spelled_convoy d a (view := view) (hi := by simp)
  case cvclose d a | cvstat d a => exact spelled_convoy d a (hi := by simp)
  case ssint d a b f => exact spelled_stream d a (b := b) (f := f) (hi := by simp)
  case ssmerge d a b int keepz c => exact spelled_stream d a (b := b) (int := int) (keepz := keepz) (c := c) (hi := by simp)
  case ssscan d a b => exact spelled_stream d a (b := b) (hi := by simp)
  case spx d a => exact spelled_stream d a (hi := by simp)
  case nbbin d a => exact spelled_neighbour d (a := a) (hi := by simp)
  case nbpairs d a port => exact spelled_neighbour d (a := a) (port := port) (hi := by simp)
  case nbstat d => exact spelled_neighbour d (hi := by simp)
  case emit => exact spelled_emit _ _ _ _
  case emitr v e b ns => exact spelled_graph_b v (e := e) (hb := (firstFailing_cons.mp h).1) (ns := ns) (hi := by simp)
  case rget v x b => exact spelled_graph_b v (x := x) (hb := (firstFailing_cons.mp h).1) (hi := by simp)
  case rdone d => exact spelled_graph (d := d) (hi := by simp)
  case futnew d j | futst d j => exact spelled_graph (d := d) (j := j) (hi := by simp)
  case futreg j e v => exact spelled_graph (j := j) (e := e) (v := v) (hi := by simp)
  case futres j d f =>
    cases f with
    | imm | mx => exact spelled_graph (j := j) (d := d) (hi := by simp)
    | cmd s => exact spelled_graph (j := j) (d := d) (s := s) (hi := by simp)
  case dget src n =>
    cases src with
    | pair d => exact spelled_graph (d := d) (h := n) (hi := by simp)
    | word e => exact spelled_graph (e := e) (h := n) (hi := by simp)
  case barArrive | barWait | barSync => exact spelled_barrier _ _ _ (by simp)
  case kli c v => exact spelled_matrix (c := c) (v := v) (hi := by simp)
  case kliLiteral c l => exact spelled_matrix (c := c) (l := l) (hi := by simp)
  case kadd c n v => exact spelled_matrix (c := c) (h := n) (v := v) (hi := by simp)
  case kbr t n v => exact spelled_matrix (t := t) (h := n) (v := v) (hi := by simp)
  case mld m n k ko => exact spelled_matrix (m := m) (h := n) (k := k) (ko := ko) (hi := by simp)
  case mrel m => exact spelled_matrix (m := m) (hi := by simp)
  case mzero c | mchk c => exact spelled_matrix (c := c) (hi := by simp)
  case mma c m n ru k ko zs | mmt c m n ru k ko zs =>
    exact spelled_matrix (c := c) (m := m) (h := n) (ru := ru) (k := k) (ko := ko) (zs := zs) (hi := by simp)
  case mst c n k ko => exact spelled_matrix (c := c) (h := n) (k := k) (ko := ko) (hi := by simp)
  case mscl c n => exact spelled_matrix (c := c) (h := n) (hi := by simp)
  case mbar n | lkoFetch n => exact spelled_matrix (h := n) (hi := by simp)
  case lkoPred m n => exact spelled_matrix (m := m) (h := n) (hi := by simp)
  case lkoChk c m n => exact spelled_matrix (c := c) (m := m) (h := n) (hi := by simp)
  case rfe | hcall => exact spelled_system_b _ _ (firstFailing_cons.mp h).1 _ (by simp)
  case tlbrng d a b | wsld d a b => exact spelled_system d (a := a) (b := b) (hi := by simp)
  case clkrd d => exact spelled_system d (hi := by simp)
  case trap => exact spelled_trap _
  all_goals cases h

/-- Major 0x00 and the majors that no table lists select no decoder (R163). -/
theorem decodeFields_unlisted {w : Word} (h : (fld w 26 6).toNat ∈ [0x00, 0x1B, 0x1C, 0x1D, 0x1E, 0x1F, 0x25, 0x26, 0x27, 0x28,
    0x29, 0x2A, 0x2B, 0x35, 0x3B]) (ls : List Word) : decodeFields w ls = .error .unusedMajor := by
  unfold decodeFields
  generalize (fld w 26 6).toNat = m at h
  fin_cases h <;> rfl

/-! ## The statements -/

/-- Settles O1: every well-formed instruction is spelled by its words, and it keeps the limits that the decoder then checks. -/
theorem decodeEncode : Obligations.DecodeEncode := by
  intro i w ls rest hwf he
  have hi : i.illegal = none := (wf_iff i).mp hwf
  obtain ⟨w', ls', he', hd, -⟩ := Instr.spelled hi
  obtain ⟨rfl, rfl⟩ := List.cons.inj (he.symm.trans he')
  exact decode_of_fields i w (ls ++ rest) (hd rest) hi

/-- Settles O2: every well-formed instruction is spelled by its words, and no head word announces more than three. -/
theorem literalWords : Obligations.LiteralWords := by
  intro i hwf
  obtain ⟨w, ls, he, -, hc⟩ := Instr.spelled ((wf_iff i).mp hwf)
  exact ⟨w, ls, he, hc, hc ▸ literalCount_le_three w⟩

/-- Settles O3: the decoder checks the limits last, and what keeps them has a word. -/
theorem decodeRefuses : Obligations.DecodeRefuses := by
  refine ⟨fun w ls i hd => ?_, fun w ls hm => ?_⟩
  · have hi : i.illegal = none := illegal_of_decode i w ls hd
    obtain ⟨w', ls', he, -⟩ := Instr.spelled hi
    exact ⟨(wf_iff i).mpr hi, by rw [isEvent, he]; rfl⟩
  · rw [decode, decodeFields_unlisted hm]

end Sys2Proof

/-!
PROOFS. Element operations (R180, R228): each packed element in its own place, and what an operation leaves alone.
-/

namespace Sys2Proof.Machine

open Sys2Proof

/-! ## The packed elements of a lane -/

/-- A packed element of 16 bits, from the operands' elements in its place. -/
theorem elemOf_each16 (f : BitVec 16 → BitVec 16 → BitVec 16 → BitVec 16) (x y z : Word) {k : Nat} (hk : k < 2) :
    elemOf (each16 f x y z) 16 k = f (elemOf x 16 k) (elemOf y 16 k) (elemOf z 16 k) := by
  obtain rfl | rfl : k = 0 ∨ k = 1 := by omega
  · exact BitVec.extractLsb'_append_eq_right
  · exact BitVec.extractLsb'_append_eq_left

/-- A packed element of 8 bits, from the operands' elements in its place. -/
theorem elemOf_each8 (f : BitVec 8 → BitVec 8 → BitVec 8 → BitVec 8) (x y z : Word) {k : Nat} (hk : k < 4) :
    elemOf (each8 f x y z) 8 k = f (elemOf x 8 k) (elemOf y 8 k) (elemOf z 8 k) := by
  obtain rfl | rfl | rfl | rfl : k = 0 ∨ k = 1 ∨ k = 2 ∨ k = 3 := by omega
  · exact (extract_append_low _ _ 0 8 (by decide)).trans
      ((extract_append_low _ _ 0 8 (by decide)).trans BitVec.extractLsb'_append_eq_right)
  · exact (extract_append_low _ _ 8 8 (by decide)).trans
      ((extract_append_low _ _ 8 8 (by decide)).trans BitVec.extractLsb'_append_eq_left)
  · exact (extract_append_low _ _ 16 8 (by decide)).trans BitVec.extractLsb'_append_eq_left
  · exact BitVec.extractLsb'_append_eq_left

/-! ## Writes of a register or a pair that names no bound store port -/

section

variable {q : Party} {n k l : Nat} {m : Mask}

theorem Party.storePort_setV (f : Nat → Word) (h : q.storePort n = none) (k : Nat) : (q.setV n m f).storePort k = q.storePort k := by
  rw [Party.setV_register m f h]
  rfl

theorem Party.setV_beside_vregs (f : Nat → Word) (h : q.storePort n = none) :
    ({ q.setV n m f with vregs := q.vregs, vPoison := q.vPoison } : Party) = q := by
  rw [Party.setV_register m f h]

theorem Party.getV_setV_unwritten (f : Nat → Word) (h : q.storePort n = none) (hl : l < 96) (hk : inMask m l = false ∨ k ≠ n) :
    (q.setV n m f).getV k l = q.getV k l := by
  by_cases hkn : k = n
  · subst hkn
    simp [q.getV_setV_self m f h hl, hk.resolve_right (· rfl)]
  · exact q.getV_setV_ne m f h hkn hl

variable (f : Nat → DWord) (h : q.storePort n = none) (h' : q.storePort (n + 1) = none)

include h h'

/-- A lane of the pair written holds the value, its low word in the even register. -/
theorem Party.pairV_setPairV_self (hl : l < 96) (hm : inMask m l = true) : (q.setPairV n m f).pairV n l = f l := by
  have hport := (Party.storePort_setV (m := m) (fun l => (f l).extractLsb' 0 32) h (n + 1)).trans h'
  have hlow : (q.setPairV n m f).getV n l = (f l).extractLsb' 0 32 := by
    rw [Party.setPairV, Party.getV_setV_ne _ _ _ hport (by omega) hl, Party.getV_setV_self _ _ _ h hl, if_pos hm]
  have hhigh : (q.setPairV n m f).getV (n + 1) l = (f l).extractLsb' 32 32 := by
    rw [Party.setPairV, Party.getV_setV_self _ _ _ hport hl, if_pos hm]
  rw [Party.pairV, hlow, hhigh]
  exact BitVec.extractLsb'_append_extractLsb'

theorem Party.setPairV_beside_vregs :
    ({ q.setPairV n m f with vregs := q.vregs, vPoison := q.vPoison } : Party) = q := by
  have hport := (Party.storePort_setV (m := m) (fun l => (f l).extractLsb' 0 32) h (n + 1)).trans h'
  rw [Party.setPairV, Party.setV_register _ _ hport, Party.setV_register _ _ h]

theorem Party.getV_setPairV_unwritten (hl : l < 96) (hk : inMask m l = false ∨ (k ≠ n ∧ k ≠ n + 1)) :
    (q.setPairV n m f).getV k l = q.getV k l := by
  have hport := (Party.storePort_setV (m := m) (fun l => (f l).extractLsb' 0 32) h (n + 1)).trans h'
  rw [Party.setPairV, Party.getV_setV_unwritten _ hport hl (hk.imp_right And.right),
    Party.getV_setV_unwritten _ h hl (hk.imp_right And.left)]

end

/-! ## Element operations -/

/-- An operation on elements of up to 32 bits writes one register in the active lanes. -/
theorem vecInt_eq_setV {t : ITy} (ht : t ≠ .w64) (f : ElemOp) (d a : VReg) (b : BOp) (sl : Bool) (q : Party) :
    ∃ g : Nat → Word, vecInt f t d a b sl q = q.setV d.toNat (q.active sl) g := by
  cases t with
  | w64 => exact absurd rfl ht
  | w32 | h16 | b8 => exact ⟨_, rfl⟩

/-- Settles O23: an operation writes its register, or pair, in the active lanes, and packs every element in its place. -/
theorem vectorElements : Obligations.VectorElements := by
  intro f d a b sl q hd m old x y
  refine ⟨fun l hl => q.getV_setV_self _ _ hd hl, fun l k hl hm hk => ?_, fun l k hl hm hk => ?_,
    fun _ hd' l hl hm => Party.pairV_setPairV_self _ hd hd' hl hm, fun t ht => ?_⟩
  · rw [vecInt, q.getV_setV_self _ _ hd hl, if_pos hm, elemOf_each16 _ _ _ _ hk]
  · rw [vecInt, q.getV_setV_self _ _ hd hl, if_pos hm, elemOf_each8 _ _ _ _ hk]
  · by_cases hw : t = .w64
    · subst hw
      obtain ⟨-, hd'⟩ := ht rfl
      exact ⟨Party.setPairV_beside_vregs _ hd hd', fun n l hl hn =>
        Party.getV_setPairV_unwritten _ hd hd' hl (hn.imp_right (And.imp_right (· rfl)))⟩
    · obtain ⟨g, hg⟩ := vecInt_eq_setV hw f d a b sl q
      rw [hg]
      exact ⟨Party.setV_beside_vregs g hd, fun n l hl hn => Party.getV_setV_unwritten g hd hl (hn.imp_right And.left)⟩

end Sys2Proof.Machine

/-!
PROOFS. The stores and the scatter at issue (R185, R188, R190, R191).
-/

namespace Sys2Proof.Machine

open Sys2Proof

/-- A store with nothing of its party in the way and its release complete stores its lanes; without lanes only the release is
left. -/
theorem storeEffect_of_translated {i : Instr} {z : Size} {o : Option Ord} {pol : Policy} {as : List (Nat × DWord)}
    {data : Nat → DWord} {w : Issuer} {t : Team} {q : Party} {s s1 s2 : State} {ls : List LaneAcc} (hacq : q.acquiring = false)
    (hbad : badAddress (s.tagOf t) (Size.bytes z) as = none)
    (htr : s.translateStores t.core (s.tagOf t) (s.privileged t) as = (s1, .ok ls))
    (hcf : s1.conflicts q true ls (Size.bytes z) = false) (hdev : s1.devHold w.tid w.p q ls = false)
    (hheld : s1.heldLines ls = false)
    (hrel : (if (OrdForm.store.eff o).str = .rel then s1.release t.core w.tid w.p q (OrdForm.store.eff o).scope else (s1, none)) =
      (s2, none)) :
    storeEffect i z o pol as data w t q s = .done (if as = [] then s2 else
      (s2.storeLanes t.core w.tid w.p (originOf w q i.word) (Size.bytes z)
        (ls.filterMap fun x => x.tgt.map fun g => (g, x.va, (data x.lane).toNat))).modParty w.tid w.p fun q =>
          q.raise ((OrdForm.store.eff o).warn ||| lanesPolicy pol ls)) := by
  simp only [storeEffect, hacq, hbad, htr, hcf, hdev, hheld, Bool.or_self, Bool.false_eq_true, if_false, hrel,
    List.isEmpty_iff]
  split <;> rfl

theorem exec_vst_of_translated (d : VReg) (a : SReg) (b : BOp) (o : Option Ord) (pol : Policy) (z : Size) :
    StoreIssues (.vst d a b o pol z) z o pol (fun sl q => q.eaLanes sl a b) fun _ q l =>
      if z = .d64 then q.pairV d.toNat l else (q.getV d.toNat l).setWidth 64 := by
  intro s0 w s t q s1 s2 ls h hacq hbad htr hcf hdev hheld hrel r hr
  rw [exec_vst, execVst]
  exact runTeam_done h (storeEffect_of_translated hacq hbad htr hcf hdev hheld hrel) hr

theorem exec_sst_of_translated (d a : SReg) (b : SOp) (z : Size) (o : Ord) (pol : Policy) :
    StoreIssues (.sst d a b z o pol) z (some o) pol (fun sl q => [(96, q.eaS sl a b)]) fun sl q _ =>
      if d = 0 then 0 else if z = .d64 then q.pairS sl d.toNat else (q.getS sl d.toNat).setWidth 64 := by
  intro s0 w s t q s1 s2 ls h hacq hbad htr hcf hdev hheld hrel r hr
  rw [exec_sst, execSst]
  exact runTeam_done h (storeEffect_of_translated hacq hbad htr hcf hdev hheld hrel) hr

/-! ## vsts (R188) -/

/-- A scatter without a failed lane has ended when every lane is performed. -/
theorem Access.ended_of_unfailed {a : Access} (h : failing a.lanes = none) : a.ended = a.lanes.all fun x => x.val.isSome := by
  have hf : ∀ x ∈ a.lanes, x.failed.isSome = false := by simpa [failing] using h
  simp only [Access.ended, h, Option.isSome_none, Bool.and_false, Bool.false_eq_true, if_false]
  rw [Bool.eq_iff_iff, List.all_eq_true, List.all_eq_true]
  exact forall₂_congr fun x hx => by simp [hf x hx]

theorem cutAtFailure_of_unfailed {ls : List LaneAcc} (h : failing ls = none) : cutAtFailure ls = ls := by
  rw [cutAtFailure, h]

section

variable {s0 s s2 : State} {w : Issuer} {t : Team} {q : Party} {d : VReg} {a : SReg} {b : BOp} {o : Option Ord} {pol : Policy}
  {z : Size} {done : List LaneAcc}

theorem exec_vsts_of_idle (h : Executes (.vsts d a b o pol z) s0 w s t q) (hacq : q.acquiring = false)
    (hact : q.active w.sl = 0) : exec (.vsts d a b o pol z) s0 = .next (s0.after (.vsts d a b o pol z) w s) := by
  rw [exec_vsts, execVsts]
  refine runTeam_done h ?_ h.calm
  simp [hacq, eaLanes_eq_nil.2 hact]

/-- vsts stores the lanes that hit, and is outstanding while some lane is still to be performed. -/
theorem exec_vsts_of_near (h : Executes (.vsts d a b o pol z) s0 w s t q) (hacq : q.acquiring = false)
    (hact : q.active w.sl ≠ 0) (hbad : badAddress (s.tagOf t) (Size.bytes z) (q.eaLanes w.sl a b) = none) :
    let i := Instr.vsts d a b o pol z
    let ls := nearLanes s t .store (q.eaLanes w.sl a b)
    let s1 := s.startWalks t.core (s.tagOf t) true ls
    let acc := { newAccess i w q s1.nextId .vsts d.toNat z o pol ls with
      data := ls.map fun x => (x.lane, if z = .d64 then q.pairV d.toNat x.lane else (q.getV d.toNat x.lane).setWidth 64) }
    failing ls = none → s.conflicts q true ls (Size.bytes z) = false → s.devHold w.tid w.p q ls = false →
    ({ s1 with nextId := s1.nextId + 1 } : State).performLanes t.core w.tid w.p acc [] ls = (s2, done) →
    failing done = none → s2.stuck = false →
    exec i s0 = .next (s0.after i w (
      if done.all fun x => x.val.isSome then
        s2.modParty w.tid w.p fun q => q.raise ((OrdForm.scatter.eff o).warn ||| lanesPolicy pol done)
      else s2.addAccess w { acc with lanes := done })) := by
  intro i ls s1 acc hfail hcf hdev hperf hdone hs
  have hne : (q.eaLanes w.sl a b).isEmpty = false := by simpa using mt eaLanes_eq_nil.1 hact
  have hended : ({ acc with lanes := done } : Access).ended = done.all fun x => x.val.isSome := Access.ended_of_unfailed hdone
  rw [exec_vsts, execVsts]
  refine runTeam_done h ?_ (by split <;> exact hs)
  simp only [hacq, hne, hbad, Bool.false_eq_true, if_false]
  rw [show ((q.eaLanes w.sl a b).map fun x => s.nearLane t.core (s.tagOf t) (s.privileged t) .store x.1 x.2) = ls from rfl,
    cutAtFailure_of_unfailed hfail, hcf, hdev]
  simp only [Bool.or_self, Bool.false_eq_true, if_false, State.fresh, Party.storeData]
  erw [hperf]
  simp only [hdone, ite_self]
  erw [hended]
  split <;> rfl

end

/-- Settles O33, one kind of store at a time. -/
theorem storesIssue : Obligations.StoresIssue := by
  refine ⟨exec_vst_of_translated, exec_sst_of_translated, ?_, ?_⟩
  · exact fun d a b o pol z s0 w s t q => exec_vsts_of_idle
  · exact fun d a b o pol z s0 w s t q s2 done => exec_vsts_of_near

end Sys2Proof.Machine

/-!
PROOFS. The local store and the accumulator tiles (R192, R193).
-/

namespace Sys2Proof.Machine

open Sys2Proof

/-! ## Lanes with their places -/

theorem lsLanes_eq_nil {q : Party} {sl : Bool} {a : SReg} {b : BOp} : q.lsLanes sl a b = [] ↔ q.active sl = 0 := by
  rw [← eaLanes_eq_nil (a := a) (b := b), Party.lsLanes, Party.eaLanes, List.map_eq_nil_iff, List.map_eq_nil_iff]

/-- The mask of a list of lane numbers holds exactly their bits. -/
theorem getLsbD_lanesMask (ls : List Nat) {l : Nat} (hl : l < 96) : (lanesMask ls).getLsbD l = decide (l ∈ ls) := by
  have h := getLsbD_foldl_lanes (ls.map fun n => ⟨n, 0, none, none, none⟩) 0 l hl
  rw [List.foldl_map] at h
  simpa [lanesMask, List.any_map, List.any_eq] using h

/-- ald and ast reach the active lanes whose column exists. -/
theorem mem_tileLanes {q : Party} {sl : Bool} {a : SReg} {l : Nat} (hl : l < 96) :
    l ∈ (q.tileLanes sl a).map Prod.fst ↔
      inMask (q.active sl) l = true ∧ (fld (q.getS sl a.toNat) 8 7).toNat + l < 128 := by
  simp [Party.tileLanes, mem_maskLanes hl]

/-! ## Bytes of several lanes -/

theorem writeBytes_append (m : Store 8) (xs ys : List (Nat × Byte)) :
    writeBytes m (xs ++ ys) = writeBytes (writeBytes m xs) ys := by
  induction xs generalizing m with
  | nil => rfl
  | cons x t ih => exact ih _

/-- Runs of bytes written one after another: a byte is the last run's that covers it. -/
theorem read_writeBytes_runs {α : Type} (start : α → Nat) (bs : α → List Byte) (xs : List α) (m : Store 8) (k : Nat) :
    Store.read (writeBytes m (xs.flatMap fun x => withAddr (start x) (bs x))) k =
      xs.foldl (fun r x => (overlay (start x) (bs x) k).getD r) (Store.read m k) := by
  induction xs generalizing m with
  | nil => rfl
  | cons x t ih => rw [List.flatMap_cons, writeBytes_append, ih, read_write_overlay, List.foldl_cons]

/-- The bytes of a 64-bit value, laid from an address on. -/
theorem overlay_toBytes (a n : Nat) (v : DWord) (k : Nat) :
    overlay a (toBytes n v.toNat) k = if a ≤ k ∧ k < a + n then some (v.extractLsb' (8 * (k - a)) 8) else none := by
  have hbyte : v.extractLsb' (8 * (k - a)) 8 = BitVec.ofNat 8 (v.toNat / 256 ^ (k - a)) := by
    rw [BitVec.extractLsb', Nat.shiftRight_eq_div_pow, pow_mul]
    rfl
  rw [hbyte]
  exact laneBytes_eq n (⟨a, none, 0, false, false, false⟩, 0, v.toNat) k

/-! ## lld and lst (R192) -/

section

variable {s0 s : State} {w : Issuer} {t : Team} {q : Party} {d : VReg} {a : SReg} {b : BOp} {z : Size}

theorem exec_lld_of_idle (h : Executes (.lld d a b z) s0 w s t q) (hacq : q.acquiring = false) (hact : q.active w.sl = 0) :
    exec (.lld d a b z) s0 = .next (s0.after (.lld d a b z) w s) := by
  rw [exec_lld, execLld]
  refine runTeam_done h ?_ h.calm
  simp [hacq, lsLanes_eq_nil.2 hact]

theorem exec_lld_of_inside (h : Executes (.lld d a b z) s0 w s t q) (hacq : q.acquiring = false) (hact : q.active w.sl ≠ 0)
    (hin : t.lsCheck (Size.bytes z) (q.lsLanes w.sl a b) = none)
    (hclean : ∀ x ∈ q.lsLanes w.sl a b, t.lsPoisoned x.2 (Size.bytes z) = false) :
    exec (.lld d a b z) s0 = .next (s0.after (.lld d a b z) w (s.modParty w.tid w.p fun q' =>
      let v (l : Nat) : DWord := BitVec.ofNat 64 (t.lsRead (q.lsOffset w.sl a b l) (Size.bytes z))
      if z = .d64 then q'.setPairV d.toNat (q.active w.sl) v
      else q'.setV d.toNat (q.active w.sl) fun l => Size.extend z (v l))) := by
  have hne : (q.lsLanes w.sl a b).isEmpty = false := by simpa using mt lsLanes_eq_nil.1 hact
  have hnone : ((q.lsLanes w.sl a b).find? fun x => t.lsPoisoned x.2 (Size.bytes z)) = none :=
    List.find?_eq_none.2 fun x hx => by simp [hclean x hx]
  obtain ⟨ht, hq⟩ := State.site_eq_some h.site
  rw [exec_lld, execLld]
  refine runTeam_done h ?_ h.calm
  simp only [hacq, hne, hin, hnone, Bool.false_eq_true, if_false]
  exact congrArg Effect.done (State.modParty_congr (State.party?_eq ht hq) rfl)

theorem exec_lst_of_inside (h : Executes (.lst d a b z) s0 w s t q) (hacq : q.acquiring = false)
    (hin : t.lsCheck (Size.bytes z) (q.lsLanes w.sl a b) = none) :
    exec (.lst d a b z) s0 = .next (s0.after (.lst d a b z) w (s.modTeam w.tid fun _ => t.lsWriteBytes
      ((q.lsLanes w.sl a b).flatMap fun x => withAddr x.2 (toBytes (Size.bytes z) (q.storeData z d.toNat x.1).toNat)))) := by
  obtain ⟨ht, -⟩ := State.site_eq_some h.site
  rw [exec_lst, execLst]
  refine runTeam_done h ?_ h.calm
  simp only [hacq, hin, Bool.false_eq_true, if_false]
  exact congrArg Effect.done (State.modTeam_congr ht rfl)

end

/-! ## ald and ast (R193) -/

section

variable {s0 s : State} {w : Issuer} {t : Team} {q : Party} {wide : Bool} {d : VReg} {a : SReg} {c : BitVec 4}

theorem exec_ald_of_idle (h : Executes (.ald wide d a c) s0 w s t q) (hgate : t.tileGate wide false c.toNat = none)
    (hact : q.active w.sl = 0) : exec (.ald wide d a c) s0 = .next (s0.after (.ald wide d a c) w s) := by
  rw [exec_ald, execAld]
  exact runTeam_done h (by simp only [hgate, hact, if_true]) h.calm

theorem exec_ald_of_free (h : Executes (.ald wide d a c) s0 w s t q) (hgate : t.tileGate wide false c.toNat = none)
    (hact : q.active w.sl ≠ 0) :
    let row := (fld (q.getS w.sl a.toNat) 0 7).toNat
    let j0 := (fld (q.getS w.sl a.toNat) 8 7).toNat
    let m := lanesMask ((q.tileLanes w.sl a).map Prod.fst)
    (∀ x ∈ q.tileLanes w.sl a, accKey c.toNat row x.2 ∉ t.accPoison ∧ (wide = true → accKey (c.toNat + 1) row x.2 ∉ t.accPoison)) →
    exec (.ald wide d a c) s0 = .next (s0.after (.ald wide d a c) w (s.modParty w.tid w.p fun q =>
      let q := q.setV d.toNat m fun l => t.tile c.toNat row (j0 + l)
      if wide then q.setV (d.toNat + 1) m fun l => t.tile (c.toNat + 1) row (j0 + l) else q)) := by
  intro row j0 m hclean
  have hnone : ((q.tileLanes w.sl a).find? fun x =>
      t.accPoison.contains (accKey c.toNat row x.2) || (wide && t.accPoison.contains (accKey (c.toNat + 1) row x.2))) = none :=
    List.find?_eq_none.2 fun x hx => by
      obtain ⟨hlow, hhigh⟩ := hclean x hx
      simpa [hlow] using hhigh
  rw [exec_ald, execAld]
  refine runTeam_done h ?_ h.calm
  simp only [hgate, if_neg hact]
  rw [hnone]

theorem exec_ast_of_free (h : Executes (.ast wide d a c) s0 w s t q) (hgate : t.tileGate wide true c.toNat = none) :
    let row := (fld (q.getS w.sl a.toNat) 0 7).toNat
    exec (.ast wide d a c) s0 = .next (s0.after (.ast wide d a c) w (s.modTeam w.tid fun t =>
      (q.tileLanes w.sl a).foldl (fun t x =>
        let t := t.setTile c.toNat row x.2 (q.getV d.toNat x.1)
        if wide then t.setTile (c.toNat + 1) row x.2 (q.getV (d.toNat + 1) x.1) else t) t)) := by
  intro row
  rw [exec_ast, execAst]
  exact runTeam_done h (by simp only [hgate]; rfl) h.calm

end

/-- Settles O35, instruction by instruction; of what lst leaves, each lane's bytes are laid over those of the lanes below it. -/
theorem localAndTileAccess : Obligations.LocalAndTileAccess := by
  refine ⟨fun d a b z s0 w s t q => exec_lld_of_idle, fun wide d a c s0 w s t q => exec_ald_of_idle,
    fun d a b z s0 w s t q => exec_lld_of_inside, ?_, ?_, fun wide d a c s0 w s t q => exec_ast_of_free⟩
  · intro d a b z s0 w s t q h hacq hin
    refine ⟨_, exec_lst_of_inside h hacq hin, rfl, fun k => ?_⟩
    rw [Team.lsWriteBytes, read_writeBytes_runs]
    refine congrArg (fun f => List.foldl f _ _) (funext₂ fun r x => ?_)
    rw [overlay_toBytes]
    split <;> rfl
  · intro wide d a c s0 w s t q h hgate hact row j0 hclean
    refine ⟨lanesMask ((q.tileLanes w.sl a).map Prod.fst), fun l hl => ?_, exec_ald_of_free h hgate hact hclean⟩
    rw [getLsbD_lanesMask _ hl, Bool.eq_iff_iff]
    simp only [decide_eq_true_eq, Bool.and_eq_true]
    exact mem_tileLanes hl

end Sys2Proof.Machine

/-!
PROOFS. The commands of the sparse stream unit and of the neighbour engine at issue (R210 to R217).
-/

namespace Sys2Proof.Machine

open Sys2Proof

/-- s0 is the register of number zero. -/
theorem toNat_eq_zero_iff {d : SReg} : d.toNat = 0 ↔ d = 0 := BitVec.toNat_inj (y := 0#6)

/-! ## The sparse stream unit (R210 to R213) -/

/-- The command that an instruction of the stream unit enters, with the values of the registers at issue; its passes and the lines
that it owns are what its block says. -/
def streamCommand (i : Instr) (kind : SsuKind) (d a b : SReg) (w : Issuer) (t : Team) (q : Party) (s : State) (bs : List Byte)
    (bad : Bool) (passes : Passes) (owned : List Nat) : SsuCmd :=
  { id := s.nextId, tid := w.tid, core := t.core, kind := kind, sd := d.toNat, blk := (q.base w.sl a).toNat,
    len0 := q.getS w.sl b.toNat, len1 := q.getS w.sl (b.toNat + 1), rnd := (fld (q.slot w.sl).mode 0 3).toNat,
    sub := (fld (q.slot w.sl).mode 4 2).toNat, place := s.placeNow t.core 8 0, origin := originOf w q i.word, block := bs,
    bad := bad, owned := owned, passes := passes, ended := none }

/-- With room on the unit, the drain made and the block read, the command enters; of a product that can run, a free value gives
the number of passes. -/
theorem ssuEffect_of_room {i : Instr} {kind : SsuKind} {d a b : SReg} {n : Nat} {w : Issuer} {t : Team} {q : Party}
    {s s1 s2 : State} {bs : List Byte} {bad : Bool} (halign : (q.base w.sl a).toNat % 64 = 0)
    (hroom : (((Map.find s.ssu (clusterOf t.core)).getD []).filter fun c => c.core == t.core).length < 4)
    (hrel : s.release t.core w.tid w.p q .dv = (s1, none))
    (hblock : s1.engineRead (some t.core) (s1.tagOf t) (s1.privileged t) (q.base w.sl a).toNat n = (s2, .ok (bs, bad))) :
    ∃ (passes : Passes) (owned : List Nat) (s3 : State), (s3 = s2 ∨ kind = .spx ∧ s3 = s2.useFree) ∧
      ssuEffect i kind d a b n w t q s = .done (({ s3 with
        nextId := s3.nextId + 1
        ssu := Map.set s3.ssu (clusterOf t.core) ((Map.find s.ssu (clusterOf t.core)).getD [] ++
          [streamCommand i kind d a b w t q s2 bs bad passes owned]) } : State).modParty w.tid w.p fun q =>
            if d.toNat = 0 then q else { q with pending := q.pending ++ [{ kind := 1, num := d.toNat, op := s2.nextId }] }) := by
  unfold ssuEffect
  simp only [halign, Nat.not_le.2 hroom, hrel, hblock, ne_eq, not_true_eq_false, if_false]
  split
  case isTrue hspx =>
    have hk : kind = .spx := by
      simp only [Bool.and_eq_true, beq_iff_eq] at hspx
      exact hspx.1.1
    split <;> exact ⟨_, _, s2.useFree, .inr ⟨hk, rfl⟩, rfl⟩
  case isFalse => split <;> exact ⟨_, _, s2, .inl rfl, rfl⟩

theorem streamIssues_of_exec {i : Instr} {kind : SsuKind} {d a b : SReg} {n : Nat}
    (hexec : ∀ s, exec i s = runTeam i s (ssuEffect i kind d a b n)) : StreamIssues i kind d a b n := by
  intro s0 w s t q s1 s2 bs bad h halign hroom hrel hblock hs
  obtain ⟨passes, owned, s3, hs3, heff⟩ := ssuEffect_of_room (i := i) (kind := kind) (d := d) (b := b) halign hroom hrel hblock
  have hcalm : s3.stuck = false := by
    obtain rfl | ⟨-, rfl⟩ := hs3 <;> exact hs
  refine ⟨streamCommand i kind d a b w t q s2 bs bad passes owned, s3, hs3, rfl, rfl, rfl, rfl, rfl, rfl, rfl, rfl, rfl, rfl, rfl,
    rfl, rfl, rfl, ?_⟩
  rw [hexec, runTeam_done h heff hcalm]
  simp only [toNat_eq_zero_iff]
  rfl

/-! ## The neighbour engine (R215 to R217) -/

/-- The command that nbbin or nbpairs enters; the lines that it owns are those of its grid's outputs. -/
def neighbourCommand (i : Instr) (d a : SReg) (port : Option Nat) (w : Issuer) (t : Team) (q : Party) (s : State) (bs : List Byte)
    (owned : List Nat) : NeCmd :=
  { id := s.nextId, tid := w.tid, core := t.core, port := port, sd := d.toNat, grid := (q.base w.sl a).toNat, desc := bs,
    place := s.placeNow t.core 9 0, origin := originOf w q i.word, pairs := none, flags := 0, owned := owned, ended := none }

section

variable {s0 s s1 s2 : State} {w : Issuer} {t : Team} {q : Party} {d a : SReg} {bs : List Byte} {bad : Bool}

/-- nbbin enters its cluster's engine where a full cell has no edge to report on, or the edge exists. -/
theorem exec_nbbin_of_room (h : Executes (.nbbin d a) s0 w s t q) (halign : (q.base w.sl a).toNat % 64 = 0)
    (hroom : ((Map.find s.ne (clusterOf t.core)).getD []).length < 8) (hrel : s.release t.core w.tid w.p q .dv = (s1, none))
    (hblock : s1.engineRead (some t.core) (s1.tagOf t) (s1.privileged t) (q.base w.sl a).toNat 64 = (s2, .ok (bs, bad)))
    (hedge : gridOvf bs = 0xFFFF ∨ (s2.edgeTo t (gridOvf bs)).isSome = true) (hs : s2.stuck = false) :
    ∃ owned, exec (.nbbin d a) s0 = .next (s0.after (.nbbin d a) w (({ s2 with
      nextId := s2.nextId + 1
      ne := Map.set s2.ne (clusterOf t.core) ((Map.find s2.ne (clusterOf t.core)).getD [] ++
        [neighbourCommand (.nbbin d a) d a none w t q s2 bs owned]) } : State).modParty w.tid w.p fun q =>
          { q with pending := if d = 0 then q.pending else q.pending ++ [{ kind := 1, num := d.toNat, op := s2.nextId }] })) := by
  have hreport : ¬(gridOvf bs ≠ 0xFFFF ∧ (s2.edgeTo t (gridOvf bs)).isNone = true) := by
    rintro ⟨hne, hnone⟩
    simp [hne, Option.isNone_iff_eq_none.1 hnone] at hedge
  rw [exec_nbbin, execNbbin]
  refine ⟨?owned, runTeam_done h ?effect hs⟩
  case effect =>
    simp only [neEffect, halign, Nat.not_le.2 hroom, hrel, hblock, ne_eq, not_true_eq_false, if_false, Option.isNone_none, true_and,
      if_neg hreport, toNat_eq_zero_iff]
    rfl

/-- nbpairs enters it too, its port bound to the stream of pairs after what stood there has been closed. -/
theorem exec_nbpairs_of_room {x : Bool} (h : Executes (.nbpairs d a x) s0 w s t q) (halign : (q.base w.sl a).toNat % 64 = 0)
    (hroom : ((Map.find s.ne (clusterOf t.core)).getD []).length < 8) (hrel : s.release t.core w.tid w.p q .dv = (s1, none))
    (hblock : s1.engineRead (some t.core) (s1.tagOf t) (s1.privileged t) (q.base w.sl a).toNat 64 = (s2, .ok (bs, bad))) :
    let n := if x then 1 else 0
    let s3 := s2.closeLoad w.tid w.p n
    s3.stuck = false →
    exec (.nbpairs d a x) s0 = .next (s0.after (.nbpairs d a x) w (({ s3 with
      nextId := s3.nextId + 1
      ne := Map.set s3.ne (clusterOf t.core) ((Map.find s3.ne (clusterOf t.core)).getD [] ++
        [neighbourCommand (.nbpairs d a x) d a (some n) w t q s3 bs []]) } : State).modParty w.tid w.p fun q' =>
          { q' with
            pending := if d = 0 then q'.pending else q'.pending ++ [{ kind := 1, num := d.toNat, op := s3.nextId }]
            ports := Map.set q'.ports n
              { kind := .pairs, handle := 0, pos := 0, rnd := 0, sub := 0, scope := .dv,
                origin := originOf w q (Instr.nbpairs d a x).word, groups := [], unwritten := [], ended := false } })) := by
  intro n s3 hs
  rw [exec_nbpairs, execNbpairs]
  refine runTeam_done h ?_ hs
  simp only [neEffect, halign, Nat.not_le.2 hroom, hrel, hblock, ne_eq, not_true_eq_false, if_false, Option.isNone_some,
    Bool.false_eq_true, false_and, toNat_eq_zero_iff]
  rfl

end

theorem exec_nbstat_of_executes {d : SReg} {s0 s : State} {w : Issuer} {t : Team} {q : Party} (h : Executes (.nbstat d) s0 w s t q) :
    exec (.nbstat d) s0 =
      .next (s0.after (.nbstat d) w (s.modParty w.tid w.p fun q => q.setS w.sl d.toNat t.neStatus)) := by
  rw [exec_nbstat, execNbstat]
  exact runTeam_done h rfl h.calm

/-- Settles O41: the four commands of the stream unit share their issue, and nbbin and nbpairs theirs. -/
theorem engineCommands : Obligations.EngineCommands := by
  refine ⟨fun d a b f => streamIssues_of_exec fun s => ?_, fun d a b int keepz c => streamIssues_of_exec fun s => ?_,
    fun d a b => streamIssues_of_exec fun s => ?_, fun d a => streamIssues_of_exec fun s => ?_, ?_,
    fun d s0 w s t q => exec_nbstat_of_executes⟩
  · rw [exec_ssint, execSsint]
  · rw [exec_ssmerge, execSsmerge]
  · rw [exec_ssscan, execSsscan]
  · rw [exec_spx, execSpx]
  · intro port d a s0 w s t q s1 s2 bs bad i n h halign hroom hrel hblock hedge s3 hs
    cases port with
    | none =>
      obtain ⟨owned, hexec⟩ := exec_nbbin_of_room h halign hroom hrel hblock (hedge rfl) hs
      exact ⟨neighbourCommand (.nbbin d a) d a none w t q s2 bs owned, rfl, rfl, rfl, rfl, rfl, rfl, rfl, rfl, rfl, rfl, nofun,
        hexec⟩
    | some x =>
      exact ⟨neighbourCommand (.nbpairs d a x) d a n w t q s3 bs [], rfl, rfl, rfl, rfl, rfl, rfl, rfl, rfl, rfl, rfl, fun _ => rfl,
        exec_nbpairs_of_room h halign hroom hrel hblock hs⟩

end Sys2Proof.Machine

/-!
PROOFS. Words and their fields (O14, O15, O22, O24): what each operation of the scalar and the vector integer instructions computes, on
words of any width, and the instructions that write it.
-/

namespace Sys2Proof.Machine

open Sys2Proof

/-! ## Arithmetic and shifts on words of any width (R219, R231) -/

/-- A difference, taken on the integers. -/
theorem sub_eq_ofInt {w : Nat} (a b : BitVec w) : a - b = BitVec.ofInt w ((a.toNat : Int) - b.toNat) := by
  rw [Int.sub_eq_add_neg, BitVec.ofInt_add, BitVec.ofInt_neg, BitVec.ofInt_natCast, BitVec.ofInt_natCast, BitVec.ofNat_toNat,
    BitVec.ofNat_toNat, BitVec.setWidth_eq, BitVec.setWidth_eq, BitVec.sub_eq_add_neg]

theorem mul_eq_ofNat {w : Nat} (a b : BitVec w) : a * b = BitVec.ofNat w (a.toNat * b.toNat) := by
  rw [BitVec.ofNat_mul, BitVec.ofNat_toNat, BitVec.ofNat_toNat, BitVec.setWidth_eq, BitVec.setWidth_eq]

theorem add_mul_eq_ofNat {w : Nat} (z a b : BitVec w) : z + a * b = BitVec.ofNat w (z.toNat + a.toNat * b.toNat) := by
  rw [mul_eq_ofNat, BitVec.ofNat_add, BitVec.ofNat_toNat, BitVec.setWidth_eq]

theorem neg_eq_ofInt {w : Nat} (a : BitVec w) : -a = BitVec.ofInt w (-a.toInt) := by
  rw [BitVec.ofInt_neg, BitVec.ofInt_toInt]

theorem absElem_eq {w : Nat} (a : BitVec w) : absElem a = BitVec.ofInt w a.toInt.natAbs := by
  have hlt : a.slt 0 = true ↔ a.toInt < 0 := by rw [BitVec.slt_iff_toInt_lt, BitVec.ofNat_eq_ofNat, BitVec.toInt_zero]
  rw [absElem]
  split
  · next h => rw [neg_eq_ofInt, Int.ofNat_natAbs_of_nonpos (hlt.1 h).le]
  · next h => rw [Int.natAbs_of_nonneg (not_lt.1 (hlt.not.1 h)), BitVec.ofInt_toInt]

/-- The bits of an integer from bit `k` on are those of its quotient. -/
theorem extractLsb'_ofInt {n k w : Nat} (hn : n = k + w) (x : Int) :
    (BitVec.ofInt n x).extractLsb' k w = BitVec.ofInt w (x / 2 ^ k) := by
  have hpos : (0 : Int) < 2 ^ k := Int.pow_pos (by decide)
  have hquot : x % (2 ^ k * 2 ^ w) / 2 ^ k = x / 2 ^ k % 2 ^ w := by
    rw [Int.emod_def, Int.emod_def, Int.mul_assoc, Int.sub_mul_ediv_left _ _ hpos.ne', Int.ediv_ediv_of_nonneg hpos.le]
  apply BitVec.eq_of_toInt_eq
  rw [BitVec.toInt_extractLsb', BitVec.toInt_ofInt, BitVec.toNat_ofInt, hn, Nat.shiftRight_eq_div_pow]
  push_cast
  rw [Int.toNat_of_nonneg (Int.emod_nonneg _ (by positivity)), pow_add, hquot]
  exact_mod_cast Int.emod_bmod (x / 2 ^ k) (2 ^ w)

/-- Bits [63:32] of a signed product. -/
theorem mulHighS_eq {w : Nat} (a b : BitVec w) : mulHighS a b = BitVec.ofInt w (a.toInt * b.toInt / 2 ^ w) := by
  rw [mulHighS, BitVec.signExtend, BitVec.signExtend, ← BitVec.ofInt_mul, extractLsb'_ofInt (Nat.two_mul w)]

/-- Bits [63:32] of an unsigned product. -/
theorem mulHighU_eq {w : Nat} (a b : BitVec w) : mulHighU a b = BitVec.ofNat w (a.toNat * b.toNat / 2 ^ w) := by
  have hw : (a.setWidth (2 * w) * b.setWidth (2 * w)) = BitVec.ofInt (2 * w) (a.toNat * b.toNat : Nat) := by
    rw [mul_eq_ofNat, BitVec.ofInt_natCast, BitVec.toNat_setWidth_of_le (by omega), BitVec.toNat_setWidth_of_le (by omega)]
  rw [mulHighU, hw, extractLsb'_ofInt (Nat.two_mul w)]
  exact_mod_cast BitVec.ofInt_natCast w _

/-- A left shift is a multiplication. -/
theorem shiftLeft_eq_ofNat {w : Nat} (a : BitVec w) (n : Nat) : a <<< n = BitVec.ofNat w (a.toNat * 2 ^ n) := by
  apply BitVec.eq_of_toNat_eq
  rw [BitVec.toNat_shiftLeft, Nat.shiftLeft_eq, BitVec.toNat_ofNat]

/-- A logical right shift is a division. -/
theorem ushiftRight_eq_ofNat {w : Nat} (a : BitVec w) (n : Nat) : a >>> n = BitVec.ofNat w (a.toNat / 2 ^ n) := by
  rw [← Nat.shiftRight_eq_div_pow, ← BitVec.toNat_ushiftRight, BitVec.ofNat_toNat, BitVec.setWidth_eq]

/-- An arithmetic right shift is a division of the signed value. -/
theorem sshiftRight_eq_ofInt {w : Nat} (a : BitVec w) (n : Nat) : a.sshiftRight n = BitVec.ofInt w (a.toInt / 2 ^ n) := by
  rw [← BitVec.ofInt_toInt (x := a.sshiftRight n), BitVec.toInt_sshiftRight, Int.shiftRight_eq_div_pow]
  norm_cast

theorem shl_eq {w : Nat} (a b : BitVec w) :
    shl a b = if w ≤ b.toNat then 0 else BitVec.ofNat w (a.toNat * 2 ^ b.toNat) := by
  rw [shl, shiftLeft_eq_ofNat, ← ite_not]
  simp only [not_lt]

theorem shr_eq {w : Nat} (a b : BitVec w) :
    shr a b = if w ≤ b.toNat then 0 else BitVec.ofNat w (a.toNat / 2 ^ b.toNat) := by
  rw [shr]
  split
  · next h => exact BitVec.ushiftRight_eq_zero h
  · exact ushiftRight_eq_ofNat a _

theorem sra_eq {w : Nat} (a b : BitVec w) :
    sra a b = if w ≤ b.toNat then (if a.msb then BitVec.allOnes w else 0) else BitVec.ofInt w (a.toInt / 2 ^ b.toNat) := by
  rw [sra]
  split
  · next h =>
    ext i hi
    rw [BitVec.getElem_sshiftRight, dif_neg (by omega)]
    cases a.msb <;> simp
  · exact sshiftRight_eq_ofInt a _

/-! ## The smaller and the larger of two -/

theorem minS_eq {w : Nat} (a b : BitVec w) : minS a b = if b.toInt < a.toInt then b else a := by
  simp only [minS, BitVec.slt_iff_toInt_lt]

theorem maxS_eq {w : Nat} (a b : BitVec w) : maxS a b = if a.toInt < b.toInt then b else a := by
  simp only [maxS, BitVec.slt_iff_toInt_lt]

theorem minU_eq {w : Nat} (a b : BitVec w) : minU a b = if b.toNat < a.toNat then b else a := by
  simp only [minU, BitVec.ult_iff_toNat_lt]

theorem maxU_eq {w : Nat} (a b : BitVec w) : maxU a b = if a.toNat < b.toNat then b else a := by
  simp only [maxU, BitVec.ult_iff_toNat_lt]

theorem beq_eq_decide_toNat {w : Nat} (a b : BitVec w) : (a == b) = decide (a.toNat = b.toNat) := by
  simp only [beq_eq_decide, BitVec.toNat_inj]

/-! ## Counts of bits -/

theorem popBelow_eq {w : Nat} (a : BitVec w) (n : Nat) : popBelow a n = (List.range n).countP fun k => a.getLsbD k := by
  induction n with
  | zero => rfl
  | succ n ih => rw [popBelow, ih, List.range_succ, List.countP_append, List.countP_singleton, Nat.add_comm]

theorem popCount_eq {w : Nat} (a : BitVec w) :
    popCount a = BitVec.ofNat w ((List.range w).countP fun k => a.getLsbD k) := by
  rw [popCount, popBelow_eq]

/-- A word's highest bit below `n` is either bit `n - 1` or below it. -/
theorem clzBelow_eq {w : Nat} (a : BitVec w) {n : Nat} (h : a.toNat < 2 ^ n) :
    clzBelow a n = if a = 0 then n else n - 1 - Nat.log2 a.toNat := by
  have hzero : a = 0 ↔ a.toNat = 0 := by rw [← BitVec.toNat_inj]; rfl
  induction n with
  | zero => rw [clzBelow, if_pos (hzero.2 (by omega))]
  | succ n ih =>
    rw [clzBelow]
    by_cases hlow : a.toNat < 2 ^ n
    · rw [BitVec.getLsbD, Nat.testBit_lt_two_pow hlow, if_neg Bool.false_ne_true, ih hlow]
      by_cases h0 : a = 0
      · simp only [h0, if_true]
      · have hlog := (Nat.log2_lt (hzero.not.1 h0)).2 hlow
        simp only [h0, if_false]
        omega
    · have hne : a.toNat ≠ 0 := by have := Nat.two_pow_pos n; omega
      have hbit : a.getLsbD n = true := Nat.testBit_of_two_pow_le_and_two_pow_add_one_gt (not_lt.1 hlow) h
      rw [if_pos hbit, if_neg (hzero.not.2 hne), (Nat.log2_eq_iff hne).2 ⟨not_lt.1 hlow, h⟩]
      omega

theorem leadingZeros_eq {w : Nat} (a : BitVec w) :
    leadingZeros a = BitVec.ofNat w (if a = 0 then w else w - 1 - Nat.log2 a.toNat) := by
  rw [leadingZeros, clzBelow_eq a a.isLt]

/-- The lowest 1 bit among the `n` from bit `k` on; `k + n` without one. -/
theorem ffsFrom_spec {w : Nat} (a : BitVec w) (k n : Nat) :
    (∀ i, k ≤ i → i < ffsFrom a k n → a.getLsbD i = false) ∧
      (ffsFrom a k n = k + n ∨ ffsFrom a k n < k + n ∧ a.getLsbD (ffsFrom a k n) = true) := by
  induction n generalizing k with
  | zero => exact ⟨fun i hk hi => absurd hi (not_lt.2 hk), .inl rfl⟩
  | succ n ih =>
    obtain ⟨hbelow, hat⟩ := ih (k + 1)
    rw [ffsFrom]
    split
    · next h => exact ⟨fun i hk hi => absurd hi (not_lt.2 hk), .inr ⟨by omega, h⟩⟩
    · next h =>
      refine ⟨fun i hk hi => ?_, hat.imp (fun h => by omega) (And.imp_left fun h => by omega)⟩
      rcases hk.eq_or_lt with rfl | hlt
      · exact Bool.eq_false_iff.2 h
      · exact hbelow i hlt hi

theorem lowestOne_zero : lowestOne (0 : Word) = 32 := by decide

/-- sffs of a word that is not 0. -/
theorem lowestOne_spec {a : Word} (h : a ≠ 0) :
    (lowestOne a).toNat < 32 ∧ a.getLsbD (lowestOne a).toNat = true ∧
      ∀ k, k < (lowestOne a).toNat → a.getLsbD k = false := by
  obtain ⟨hbelow, hat⟩ := ffsFrom_spec a 0 32
  have hlt : ffsFrom a 0 32 < 0 + 32 ∧ a.getLsbD (ffsFrom a 0 32) = true := by
    refine hat.resolve_left fun hnone => h ?_
    exact BitVec.eq_of_getLsbD_eq fun i hi => (hbelow i (Nat.zero_le i) (by omega)).trans BitVec.getLsbD_zero.symm
  have htoNat : (lowestOne a).toNat = ffsFrom a 0 32 := by
    rw [lowestOne, BitVec.toNat_ofNat, Nat.mod_eq_of_lt (by omega)]
  rw [htoNat]
  exact ⟨hlt.1, hlt.2, fun k hk => hbelow k (Nat.zero_le k) hk⟩

/-! ## Fields of a word (R221, R233) -/

/-- A field of a word, as its bits. -/
theorem toNat_field (a : Word) (lsb k : Nat) : (a.extractLsb' lsb k).toNat = fieldOf a lsb k := by
  rw [BitVec.extractLsb'_toNat, Nat.shiftRight_eq_div_pow, fieldOf]

/-- bitField is the field, sign- or zero-extended. -/
theorem bitField_eq_extend (a : Word) (sign : Bool) (lsb n : BitVec 5) (h : lsb.toNat + n.toNat ≤ 31) :
    bitField a sign lsb n =
      if sign then (a.extractLsb' lsb.toNat (n.toNat + 1)).signExtend 32
      else (a.extractLsb' lsb.toNat (n.toNat + 1)).setWidth 32 := by
  have hbit : ∀ i, 31 - n.toNat + i < 32 → (a <<< (31 - lsb.toNat - n.toNat)).getLsbD (31 - n.toNat + i) =
      a.getLsbD (lsb.toNat + i) := by
    intro i hi
    rw [BitVec.getLsbD_shiftLeft, show 31 - n.toNat + i - (31 - lsb.toNat - n.toNat) = lsb.toNat + i by omega]
    simp [hi, show ¬31 - n.toNat + i < 31 - lsb.toNat - n.toNat by omega]
  rw [bitField]
  cases sign with
  | false =>
    refine BitVec.eq_of_getLsbD_eq fun i hi => ?_
    rw [if_neg Bool.false_ne_true, if_neg Bool.false_ne_true, BitVec.getLsbD_ushiftRight, BitVec.getLsbD_setWidth,
      BitVec.getLsbD_extractLsb']
    by_cases hn : i < n.toNat + 1
    · simp [hbit i (by omega), hn, hi]
    · simp [hn, BitVec.getLsbD_of_ge _ _ (show 32 ≤ 31 - n.toNat + i by omega)]
  | true =>
    have hmsb : (a <<< (31 - lsb.toNat - n.toNat)).msb = (a.extractLsb' lsb.toNat (n.toNat + 1)).msb := by
      rw [BitVec.msb_eq_getLsbD_last, BitVec.msb_eq_getLsbD_last, BitVec.getLsbD_extractLsb',
        show 32 - 1 = 31 - n.toNat + n.toNat by omega, hbit _ (by omega)]
      simp
    refine BitVec.eq_of_getLsbD_eq fun i hi => ?_
    rw [if_pos rfl, if_pos rfl, BitVec.getLsbD_sshiftRight, BitVec.getLsbD_signExtend, hmsb]
    by_cases hn : i < n.toNat + 1
    · rw [if_pos (by omega), if_pos hn, hbit i (by omega), BitVec.getLsbD_extractLsb']
      simp [hn, hi]
    · simp [hn, hi, show ¬31 - n.toNat + i < 32 by omega]

/-- The field as sbfx and vbfx write it: two's complement of its own width where `sign` is set. -/
theorem bitField_eq (a : Word) (sign : Bool) (lsb n : BitVec 5) (h : lsb.toNat + n.toNat ≤ 31) :
    let x := fieldOf a lsb.toNat (n.toNat + 1)
    bitField a sign lsb n =
      if sign ∧ 2 ^ n.toNat ≤ x then BitVec.ofInt 32 ((x : Int) - 2 ^ (n.toNat + 1)) else BitVec.ofNat 32 x := by
  intro x
  have hx : (a.extractLsb' lsb.toNat (n.toNat + 1)).toNat = x := toNat_field a _ _
  rw [bitField_eq_extend a sign lsb n h]
  cases sign with
  | false =>
    rw [if_neg Bool.false_ne_true, if_neg (fun hs => Bool.false_ne_true hs.1), ← hx]
    exact BitVec.eq_of_toNat_eq (by simp)
  | true =>
    rw [if_pos rfl, BitVec.signExtend, BitVec.toInt_eq_toNat_cond, hx]
    by_cases hlow : 2 ^ n.toNat ≤ x
    · rw [if_neg (by rw [pow_succ]; omega), if_pos ⟨rfl, hlow⟩]
      norm_cast
    · rw [if_pos (by rw [pow_succ]; omega), if_neg fun hs => hlow hs.2, BitVec.ofInt_natCast]

/-- The mask of bits [lsb + n : lsb], as bitInsert builds it. -/
def fieldMask (lsb n : Nat) : Word := (BitVec.allOnes 32 >>> (31 - n)) <<< lsb

theorem getLsbD_fieldMask {lsb n : Nat} (h : lsb + n ≤ 31) (i : Nat) :
    (fieldMask lsb n).getLsbD i = decide (lsb ≤ i ∧ i < lsb + (n + 1)) := by
  rw [fieldMask, BitVec.getLsbD_shiftLeft, BitVec.getLsbD_ushiftRight, BitVec.getLsbD_allOnes, ← decide_not, ← Bool.decide_and,
    ← Bool.decide_and]
  exact decide_eq_decide.2 (by omega)

/-- What a word holds in a field, left in its place. -/
theorem toNat_and_fieldMask (a : Word) {lsb n : Nat} (h : lsb + n ≤ 31) :
    (a &&& fieldMask lsb n).toNat = 2 ^ lsb * fieldOf a lsb (n + 1) := by
  refine Nat.eq_of_testBit_eq fun i => ?_
  rw [BitVec.testBit_toNat, BitVec.getLsbD_and, getLsbD_fieldMask h, fieldOf, Nat.testBit_two_pow_mul, Nat.testBit_mod_two_pow,
    Nat.testBit_div_two_pow, BitVec.testBit_toNat]
  by_cases hi : lsb ≤ i
  · simp [hi, show i - lsb < n + 1 ↔ i < lsb + (n + 1) by omega, show i - lsb + lsb = i by omega, Bool.and_comm]
  · simp [hi]

/-- The low bits of a word, moved up to a field. -/
theorem fieldOf_shiftLeft (a : Word) {lsb n : Nat} (h : lsb + n ≤ 31) : fieldOf (a <<< lsb) lsb (n + 1) = fieldOf a 0 (n + 1) := by
  refine Nat.eq_of_testBit_eq fun i => ?_
  simp only [fieldOf, Nat.testBit_mod_two_pow, Nat.testBit_div_two_pow, BitVec.testBit_toNat, BitVec.getLsbD_shiftLeft]
  by_cases hi : i < n + 1
  · simp [hi, show i + lsb < 32 by omega]
  · simp [hi]

/-- The part of a word outside a mask is disjoint from any part inside it. -/
theorem and_not_and_and {w : Nat} (x y m : BitVec w) : x &&& ~~~m &&& (y &&& m) = 0#w := by
  ext i hi
  simp only [BitVec.getElem_and, BitVec.getElem_not, BitVec.getElem_zero]
  cases m[i] <;> simp

/-- The part of a word outside a mask is the word less its part inside. -/
theorem and_not_eq_sub {w : Nat} (x m : BitVec w) : x &&& ~~~m = x - (x &&& m) := by
  refine eq_sub_of_add_eq ((BitVec.add_eq_or_of_and_eq_zero _ _ (and_not_and_and x x m)).trans ?_)
  ext i hi
  simp only [BitVec.getElem_or, BitVec.getElem_and, BitVec.getElem_not]
  cases m[i] <;> simp

/-- bitInsert takes the field's own part off the word and adds the low bits of the other in its place. -/
theorem bitInsert_eq (d a : Word) (lsb n : BitVec 5) (h : lsb.toNat + n.toNat ≤ 31) :
    bitInsert d a lsb n = BitVec.ofNat 32 (d.toNat - 2 ^ lsb.toNat * fieldOf d lsb.toNat (n.toNat + 1) +
      2 ^ lsb.toNat * fieldOf a 0 (n.toNat + 1)) := by
  have hle : d &&& fieldMask lsb.toNat n.toNat ≤ d := by
    rw [BitVec.le_def, BitVec.toNat_and]
    exact Nat.and_le_left
  calc bitInsert d a lsb n
      = (d &&& ~~~fieldMask lsb.toNat n.toNat) + (a <<< lsb.toNat &&& fieldMask lsb.toNat n.toNat) :=
        (BitVec.add_eq_or_of_and_eq_zero _ _ (and_not_and_and d _ _)).symm
    _ = _ := by
      rw [and_not_eq_sub, BitVec.add_def, BitVec.toNat_sub_of_le hle, toNat_and_fieldMask d h, toNat_and_fieldMask _ h,
        fieldOf_shiftLeft a h]

/-! ## Immediate operands (R221, R233) -/

section

variable (x : Word)

theorem add_signExtend_eq {w : Nat} (i : BitVec w) : x + i.signExtend 32 = BitVec.ofInt 32 (x.toNat + i.toInt) := by
  rw [BitVec.ofInt_add, BitVec.ofInt_natCast, BitVec.ofNat_toNat, BitVec.setWidth_eq, BitVec.signExtend]

theorem and_setWidth_eq (i : BitVec 14) : x &&& i.setWidth 32 = BitVec.ofNat 32 (Nat.land x.toNat i.toNat) := by
  rw [← BitVec.toNat_setWidth_of_le (show 14 ≤ 32 by decide)]
  exact BitVec.eq_of_toNat_eq ((Nat.mod_eq_of_lt (x &&& i.setWidth 32).isLt).symm)

theorem or_setWidth_eq (i : BitVec 14) : x ||| i.setWidth 32 = BitVec.ofNat 32 (Nat.lor x.toNat i.toNat) := by
  rw [← BitVec.toNat_setWidth_of_le (show 14 ≤ 32 by decide)]
  exact BitVec.eq_of_toNat_eq ((Nat.mod_eq_of_lt (x ||| i.setWidth 32).isLt).symm)

variable (n : BitVec 5)

/-- A shift amount of five bits is below the width of a word. -/
theorem toNat_amount : (n.setWidth 32).toNat = n.toNat ∧ ¬32 ≤ n.toNat :=
  ⟨BitVec.toNat_setWidth_of_le (by decide), not_le.2 n.isLt⟩

theorem shl_amount : shl x (n.setWidth 32) = BitVec.ofNat 32 (x.toNat * 2 ^ n.toNat) := by
  rw [shl_eq, (toNat_amount n).1, if_neg (toNat_amount n).2]

theorem shr_amount : shr x (n.setWidth 32) = BitVec.ofNat 32 (x.toNat / 2 ^ n.toNat) := by
  rw [shr_eq, (toNat_amount n).1, if_neg (toNat_amount n).2]

theorem sra_amount : sra x (n.setWidth 32) = BitVec.ofInt 32 (x.toInt / 2 ^ n.toNat) := by
  rw [sra_eq, (toNat_amount n).1, if_neg (toNat_amount n).2]

end

/-! ## The scalar and the vector forms, by the word operation each computes -/

section

variable {i : Instr} {F : Bool → Party → Party}

/-- A scalar form of one source, where its change is given in other terms. -/
theorem registerEffect_of_scalar1 {g : Word → Word} {d a : SReg} (hi : ∀ s, exec i s = scalar1 i g d a s)
    (h : ∀ (sl : Bool) (q : Party), q.setS sl d.toNat (g (q.getS sl a.toNat)) = F sl q) : RegisterEffect i F :=
  registerEffect_of_runRegs hi h

theorem registerEffect_of_scalar2 {g : Word → Word → Word} {d a : SReg} {b : SOp} (hi : ∀ s, exec i s = scalar2 i g d a b s)
    (h : ∀ (sl : Bool) (q : Party), q.setS sl d.toNat (g (q.getS sl a.toNat) (q.bS sl b)) = F sl q) : RegisterEffect i F :=
  registerEffect_of_runRegs hi h

/-- A vector immediate form, where its change is given in other terms. -/
theorem registerEffect_of_vecImm {g : Word → Word → Word} {d a : VReg} (hi : ∀ s, exec i s = vecImm i g d a s)
    (h : ∀ (sl : Bool) (q : Party),
      (q.setV d.toNat (q.active sl) fun l => g (q.getV d.toNat l) (q.getV a.toNat l)) = F sl q) : RegisterEffect i F :=
  registerEffect_of_runRegs hi h

end

/-- A scalar form of two sources computes the word operation that `exec` gives it. -/
theorem scalarEffect_of_eq {k : SReg → SReg → SOp → Instr} {f g : Word → Word → Word}
    (hk : ∀ d a b s, exec (k d a b) s = scalar2 (k d a b) g d a b s) (h : ∀ x y, g x y = f x y) : ScalarEffect k f :=
  fun d a b => registerEffect_of_scalar2 (hk d a b) fun _ _ => by rw [h]

theorem scalarEffect1_of_eq {k : SReg → SReg → Instr} {f g : Word → Word}
    (hk : ∀ d a s, exec (k d a) s = scalar1 (k d a) g d a s) (h : ∀ x, g x = f x) : ScalarEffect1 k f :=
  fun d a => registerEffect_of_scalar1 (hk d a) fun _ _ => by rw [h]

/-- A vector form of two sources computes the element operation that `exec` gives it, at every width. -/
theorem vecEffect_of_eq {k : ITy → VReg → VReg → BOp → Instr} {f g : ElemOp}
    (hk : ∀ t d a b s, exec (k t d a b) s = vec2 (k t d a b) g t d a b s) (h : ∀ w z x y, g w z x y = f w z x y) :
    VecEffect k f := by
  obtain rfl : g = f := funext fun w => funext fun z => funext fun x => funext fun y => h w z x y
  exact fun t d a b => registerEffect_of_runRegs (hk t d a b) fun _ _ => rfl

theorem vecEffect1_of_eq {k : ITy → VReg → VReg → Instr} {f g : (w : Nat) → BitVec w → BitVec w}
    (hk : ∀ t d a s, exec (k t d a) s = vec1 (k t d a) g t d a s) (h : ∀ w x, g w x = f w x) : VecEffect1 k f := by
  obtain rfl : g = f := funext fun w => funext fun x => h w x
  exact fun t d a => registerEffect_of_runRegs (hk t d a) fun _ _ => rfl

/-- Settles O14, row by row of R219; scmp by the conditions of R220. -/
theorem scalarArithmetic : Obligations.ScalarArithmetic := by
  unfold Obligations.ScalarArithmetic
  refine ⟨scalarEffect_of_eq exec_sadd BitVec.add_def, scalarEffect_of_eq exec_ssub sub_eq_ofInt,
    scalarEffect_of_eq exec_smul mul_eq_ofNat, scalarEffect_of_eq exec_smulhI32 mulHighS_eq,
    scalarEffect_of_eq exec_smulhN32 mulHighU_eq, scalarEffect_of_eq exec_sand fun _ _ => rfl,
    scalarEffect_of_eq exec_sor fun _ _ => rfl, scalarEffect_of_eq exec_sxor fun _ _ => rfl,
    scalarEffect_of_eq exec_sshl shl_eq, scalarEffect_of_eq exec_sshr shr_eq, scalarEffect_of_eq exec_ssra sra_eq,
    scalarEffect_of_eq exec_sminI32 minS_eq, scalarEffect_of_eq exec_sminN32 minU_eq, scalarEffect_of_eq exec_smaxI32 maxS_eq,
    scalarEffect_of_eq exec_smaxN32 maxU_eq, scalarEffect1_of_eq exec_smov fun _ => rfl,
    fun d a => registerEffect_of_scalar1 (exec_spopc d a) fun _ _ => by rw [popCount_eq],
    scalarEffect1_of_eq exec_sclz leadingZeros_eq,
    ⟨lowestOne, scalarEffect1_of_eq exec_sffs fun _ => rfl, lowestOne_zero, fun _ => lowestOne_spec⟩,
    fun c d a b => registerEffect_of_scalar2 (exec_scmp c d a b) fun sl q => ?_,
    fun c d a b => registerEffect_of_runRegs (exec_ssel c d a b) fun sl q => ?_⟩
  · cases c with
    | eq => simp only [iHolds, beq_eq_decide_toNat]
    | ne => simp only [iHolds, bne, beq_eq_decide_toNat, ne_eq, decide_not]
    | ltI | gtI => simp only [iHolds, BitVec.slt_eq_decide]
    | leI => simp only [iHolds, BitVec.sle_eq_decide]
    | ltN | gtN => simp only [iHolds, BitVec.ult_eq_decide]
    | leN => simp only [iHolds, BitVec.ule_eq_decide]
  · simp only [ne_eq, ite_not]

/-- Settles O15, form by form. -/
theorem scalarImmediates : Obligations.ScalarImmediates := by
  unfold Obligations.ScalarImmediates
  refine ⟨fun d a i => ?_, fun d a i => ?_, fun d a i => ?_, fun d a n => ?_, fun d a n => ?_, fun d a n => ?_,
    fun d a sign lsb n h => ?_, fun d a lsb n h => ?_, fun d i => ?_, fun d i => ?_⟩
  · exact registerEffect_of_scalar1 (exec_saddImm d a i) fun _ _ => by rw [add_signExtend_eq]
  · exact registerEffect_of_scalar1 (exec_sandImm d a i) fun _ _ => by rw [and_setWidth_eq]
  · exact registerEffect_of_scalar1 (exec_sorImm d a i) fun _ _ => by rw [or_setWidth_eq]
  · exact registerEffect_of_scalar1 (exec_sshlImm d a n) fun _ _ => by rw [shl_amount]
  · exact registerEffect_of_scalar1 (exec_sshrImm d a n) fun _ _ => by rw [shr_amount]
  · exact registerEffect_of_scalar1 (exec_ssraImm d a n) fun _ _ => by rw [sra_amount]
  · exact registerEffect_of_scalar1 (exec_sbfx d a sign lsb n) fun _ _ => by rw [bitField_eq _ _ _ _ h]
  · exact registerEffect_of_runRegs (exec_sbfi d a lsb n) fun _ _ => by rw [bitInsert_eq _ _ _ _ h]
  · exact registerEffect_of_runRegs (exec_sli d i) fun _ _ => rfl
  · refine registerEffect_of_runRegs (exec_slui d i) fun _ _ => ?_
    rw [shiftLeft_eq_ofNat, BitVec.toNat_setWidth_of_le (by decide)]

/-- Settles O22, row by row of R231: the operations are those of the scalar forms, at the width of the element. -/
theorem vectorArithmetic : Obligations.VectorArithmetic := by
  unfold Obligations.VectorArithmetic
  exact ⟨vecEffect_of_eq exec_vadd fun _ _ => BitVec.add_def, vecEffect_of_eq exec_vsub fun _ _ => sub_eq_ofInt,
    vecEffect_of_eq exec_vmul fun _ _ => mul_eq_ofNat, vecEffect_of_eq exec_vmulhSigned fun _ _ => mulHighS_eq,
    vecEffect_of_eq exec_vmulhUnsigned fun _ _ => mulHighU_eq, vecEffect_of_eq exec_vmac fun _ => add_mul_eq_ofNat,
    vecEffect_of_eq exec_vand fun _ _ _ _ => rfl, vecEffect_of_eq exec_vor fun _ _ _ _ => rfl,
    vecEffect_of_eq exec_vxor fun _ _ _ _ => rfl, vecEffect1_of_eq exec_vnot fun _ _ => rfl,
    vecEffect_of_eq exec_vshl fun _ _ => shl_eq, vecEffect_of_eq exec_vshr fun _ _ => shr_eq,
    vecEffect_of_eq exec_vsra fun _ _ => sra_eq, vecEffect_of_eq exec_vminSigned fun _ _ => minS_eq,
    vecEffect_of_eq exec_vminUnsigned fun _ _ => minU_eq, vecEffect_of_eq exec_vmaxSigned fun _ _ => maxS_eq,
    vecEffect_of_eq exec_vmaxUnsigned fun _ _ => maxU_eq, vecEffect1_of_eq exec_vabs fun _ => absElem_eq,
    vecEffect1_of_eq exec_vneg fun _ => neg_eq_ofInt, vecEffect1_of_eq exec_vpopc fun _ => popCount_eq,
    vecEffect1_of_eq exec_vclz fun _ => leadingZeros_eq, vecEffect1_of_eq exec_vmov fun _ _ => rfl,
    vecEffect_of_eq exec_vsel fun _ _ _ _ => (ite_not ..).symm⟩

/-- Settles O24, form by form. -/
theorem vectorImmediates : Obligations.VectorImmediates := by
  unfold Obligations.VectorImmediates
  refine ⟨fun d a i => ?_, fun d i => ?_, fun d v => ?_, fun d a sign lsb n h => ?_, fun d a lsb n h => ?_, fun d a n => ?_,
    fun d a n => ?_, fun d a n => ?_⟩
  · exact registerEffect_of_vecImm (exec_vaddImm d a i) fun _ _ => by simp only [add_signExtend_eq]
  · exact registerEffect_of_runRegs (exec_vli d i) fun _ _ => rfl
  · exact registerEffect_of_runRegs (exec_vliLit d v) fun _ _ => rfl
  · exact registerEffect_of_vecImm (exec_vbfx d a sign lsb n) fun _ _ => by simp only [bitField_eq _ _ _ _ h]
  · exact registerEffect_of_vecImm (exec_vbfi d a lsb n) fun _ _ => by simp only [bitInsert_eq _ _ _ _ h]
  · exact registerEffect_of_vecImm (exec_vshlImm d a n) fun _ _ => by simp only [shl_amount]
  · exact registerEffect_of_vecImm (exec_vshrImm d a n) fun _ _ => by simp only [shr_amount]
  · exact registerEffect_of_vecImm (exec_vsraImm d a n) fun _ _ => by simp only [sra_amount]

end Sys2Proof.Machine

/-!
PROOFS. Conditions over the active lanes (O25): the mask of the lanes in which a condition holds, the flags of all, and votes.
-/

namespace Sys2Proof.Machine

open Sys2Proof

/-! ## Masks and flags over the active lanes (R232, R242) -/

theorem laneMask_eq_lanesMask (m : Mask) (f : Nat → Bool) : laneMask m f = lanesMask ((maskLanes m).filter f) := by
  rw [laneMask, lanesMask, List.foldl_filter]

theorem isLaneMask_laneMask (m : Mask) (f : Nat → Bool) : IsLaneMask (laneMask m f) m f := by
  intro l hl
  rw [laneMask_eq_lanesMask, getLsbD_lanesMask _ hl, Bool.eq_iff_iff]
  simp [mem_maskLanes hl]

/-- A bit of several words ORed into a first one. -/
theorem getLsbD_foldl_or {α : Type} (f : α → Word) (xs : List α) (w : Word) (n : Nat) :
    (xs.foldl (fun w x => w ||| f x) w).getLsbD n = (w.getLsbD n || xs.any fun x => (f x).getLsbD n) := by
  induction xs generalizing w with
  | nil => simp
  | cons x t ih => rw [List.foldl_cons, ih, BitVec.getLsbD_or, List.any_cons, Bool.or_assoc]

/-- A bit of the flags of all active lanes is one that some lane's operation raises. -/
theorem getLsbD_flagsOf (m : Mask) (f : Nat → Word) (n : Nat) :
    (flagsOf m f).getLsbD n = true ↔ ∃ l ∈ maskLanes m, (f l).getLsbD n = true := by
  simp [flagsOf, getLsbD_foldl_or]

/-! ## The elements of a lane (R242) -/

theorem floatLane_whole {t : FTy} (ht : elemsOf t = [0]) (f : FElem) (d a b : Nat) :
    floatLane t f d a b = f (floatElem t d 0) (floatElem t a 0) (floatElem t b 0) := by
  cases t with
  | f32 | f64 => rfl
  | f16 | bf16 => cases ht

/-- A lane of two elements holds one 32-bit register. -/
theorem floatLane_packed {t : FTy} (ht : elemsOf t = [0, 1]) (f : FElem) {d a b : Nat} (hd : d < 2 ^ 32) (ha : a < 2 ^ 32)
    (hb : b < 2 ^ 32) :
    floatLane t f d a b =
      ((f (floatElem t d 0) (floatElem t a 0) (floatElem t b 0)).1 +
          2 ^ 16 * (f (floatElem t d 1) (floatElem t a 1) (floatElem t b 1)).1,
        (f (floatElem t d 0) (floatElem t a 0) (floatElem t b 0)).2 |||
          (f (floatElem t d 1) (floatElem t a 1) (floatElem t b 1)).2) := by
  have hlow : ∀ x, floatElem t x 0 = x % 2 ^ 16 := fun x => by
    cases t with
    | f32 | f64 => cases ht
    | f16 | bf16 => simp [floatElem]
  have hhigh : ∀ x, x < 2 ^ 32 → floatElem t x 1 = x / 2 ^ 16 := fun x hx => by
    cases t with
    | f32 | f64 => cases ht
    | f16 | bf16 => exact Nat.mod_eq_of_lt (by omega)
  rw [hlow, hlow, hlow, hhigh d hd, hhigh a ha, hhigh b hb]
  cases t with
  | f32 | f64 => cases ht
  | f16 | bf16 => rfl

theorem elemsOf_cases (t : FTy) : elemsOf t = [0] ∧ (t = .f32 ∨ t = .f64) ∨ elemsOf t = [0, 1] ∧ t ≠ .f32 ∧ t ≠ .f64 := by
  cases t <;> decide

theorem Party.laneV_narrow_lt (q : Party) (n l : Nat) : q.laneV false n l < 2 ^ 32 := (q.getV n l).isLt

theorem Party.bF_narrow_lt (q : Party) (b : BOp) (l : Nat) : q.bF false b l < 2 ^ 32 := by
  cases b with
  | reg r => exact (q.getB r.toNat l).isLt
  | lit w => exact w.isLt

/-! ## vfcmp (R248) -/

section

variable (c : FCond) (t : FTy) (q : Party) (sl : Bool) (a : VReg) (b : BOp) (l : Nat)

/-- What vfcmp finds of an element of a lane. -/
def cmpElem (k : Nat) : Bool × Word :=
  fHolds c (inF t (q.mode sl) (floatElem t (q.laneV (t == .f64) a.toNat l) k))
    (inF t (q.mode sl) (floatElem t (q.bF (t == .f64) b l) k))

/-- What vfcmp computes of a lane. -/
def cmpLane : Nat × Word :=
  floatLane t (elemFcmp c t (q.mode sl)) 0 (q.laneV (t == .f64) a.toNat l) (q.bF (t == .f64) b l)

/-- A lane meets the condition when each of its elements does, and raises what they raise. -/
theorem cmpLane_spec :
    laneHolds t (cmpLane c t q sl a b l).1 = (elemsOf t).all (fun k => (cmpElem c t q sl a b l k).1) ∧
      ∀ n, (cmpLane c t q sl a b l).2.getLsbD n = true ↔ ∃ k ∈ elemsOf t, (cmpElem c t q sl a b l k).2.getLsbD n = true := by
  rcases elemsOf_cases t with ⟨ht, hty⟩ | ⟨ht, h32, h64⟩
  · have hlane : cmpLane c t q sl a b l =
        (if (cmpElem c t q sl a b l 0).1 then 1 else 0, (cmpElem c t q sl a b l 0).2) := floatLane_whole ht _ _ _ _
    have hone : ∀ x : Bool, laneHolds t (if x then 1 else 0) = x := by
      rcases hty with rfl | rfl <;> decide
    rw [hlane, ht, hone]
    simp
  · have hlane : cmpLane c t q sl a b l =
        ((if (cmpElem c t q sl a b l 0).1 then 1 else 0) + 2 ^ 16 * (if (cmpElem c t q sl a b l 1).1 then 1 else 0),
          (cmpElem c t q sl a b l 0).2 ||| (cmpElem c t q sl a b l 1).2) := by
      have hwide : (t == .f64) = false := beq_false_of_ne h64
      refine floatLane_packed ht _ (by decide) ?_ ?_
      · rw [hwide]
        exact q.laneV_narrow_lt _ _
      · rw [hwide]
        exact q.bF_narrow_lt _ _
    have hboth : ∀ x y : Bool, laneHolds t ((if x then 1 else 0) + 2 ^ 16 * (if y then 1 else 0)) = (x && y) := by
      cases t with
      | f32 => exact absurd rfl h32
      | f64 => exact absurd rfl h64
      | f16 | bf16 => decide
    rw [hlane, ht, hboth]
    simp

end

/-! ## Votes (R241) -/

/-- Over the lanes of a mask. -/
theorem all_maskLanes (m : Mask) (f : Nat → Bool) : (maskLanes m).all f = lanes.all fun l => !inMask m l || f l := by
  rw [maskLanes, List.all_filter]

theorem any_maskLanes (m : Mask) (f : Nat → Bool) : (maskLanes m).any f = lanes.any fun l => inMask m l && f l := by
  rw [maskLanes, List.any_filter]

/-- All of a list are one value when any two of them agree. -/
theorem allSame_eq (xs : List Word) : allSame xs = xs.all fun x => xs.all fun y => x == y := by
  cases xs with
  | nil => rfl
  | cons x t =>
    rw [Bool.eq_iff_iff]
    simp only [allSame, List.all_eq_true, beq_iff_eq, List.forall_mem_cons, true_and]
    exact ⟨fun h => ⟨fun y hy => (h y hy).symm, fun y hy => ⟨h y hy, fun z hz => (h y hy).trans (h z hz).symm⟩⟩,
      fun h y hy => (h.2 y hy).1⟩

theorem Party.laneValues_all (q : Party) (sl : Bool) (a : VReg) :
    q.laneValues sl a (fun _ => true) = (maskLanes (q.active sl)).map (q.getV a.toNat) := by
  rw [Party.laneValues, List.filter_true]

/-- Settles O25: each instruction writes what it finds of the active lanes. -/
theorem laneConditions : Obligations.LaneConditions := by
  unfold Obligations.LaneConditions
  refine ⟨fun wide c d a b => ?_, fun d a => ?_, fun t c d a b => ?_, fun d a => ?_, fun d a => ?_, fun d a => ?_⟩
  · exact ⟨_, registerEffect_of_runRegs (exec_vcmp wide c d a b) fun _ _ => rfl, fun _ _ => isLaneMask_laneMask _ _⟩
  · exact ⟨_, registerEffect_of_runRegs (exec_vballot d a) fun _ _ => rfl, fun _ _ => isLaneMask_laneMask _ _⟩
  · refine ⟨fun sl q => laneMask (q.active sl) fun l => laneHolds t (cmpLane c t q sl a b l).1,
      fun sl q => flagsOf (q.active sl) fun l => (cmpLane c t q sl a b l).2,
      registerEffect_of_runRegs (exec_vfcmp t c d a b) fun _ _ => rfl, fun sl q => ⟨fun l hl => ?_, fun n => ?_⟩⟩
    · rw [isLaneMask_laneMask _ _ l hl, (cmpLane_spec c t q sl a b l).1]
      rfl
    · simp only [getLsbD_flagsOf, (cmpLane_spec c t q sl a b _).2]
      rfl
  · refine registerEffect_of_runRegs (exec_vvote .all d a) fun sl q => ?_
    simp only [q.laneValues_all, List.all_map, all_maskLanes]
    rfl
  · refine registerEffect_of_runRegs (exec_vvote .any d a) fun sl q => ?_
    simp only [q.laneValues_all, List.any_map, any_maskLanes]
    rfl
  · refine registerEffect_of_runRegs (exec_vvote .uniform d a) fun sl q => ?_
    simp only [q.laneValues_all, allSame_eq, List.all_map, all_maskLanes, Function.comp_def, List.or_all_distrib_left,
      Bool.or_assoc]

end Sys2Proof.Machine

/-!
PROOFS. Moves between lanes and reductions over them (O26): the order of exact numbers, the least and the greatest of several values, and
their exact sum, rounded once.
-/

namespace Sys2Proof.Machine

open Sys2Proof

/-! ## Reductions of integers and of bits (R238) -/

theorem foldl_add_eq (xs : List Word) (a : Word) :
    xs.foldl (· + ·) a = BitVec.ofNat 32 (a.toNat + (xs.map BitVec.toNat).sum) := by
  induction xs generalizing a with
  | nil => simp
  | cons x t ih =>
    apply BitVec.eq_of_toNat_eq
    rw [List.foldl_cons, ih, List.map_cons, List.sum_cons, BitVec.toNat_ofNat, BitVec.toNat_ofNat, BitVec.toNat_add, Nat.mod_add_mod,
      Nat.add_assoc]

section

variable {key : Word → Int} {pick : Word → Word → Word} (hpick : ∀ a b, pick a b = if key b < key a then b else a)

include hpick

/-- A fold that keeps the least by a key, from a first value on. -/
theorem foldl_least (xs : List Word) (a : Word) :
    let r := xs.foldl pick a
    (r = a ∨ r ∈ xs) ∧ key r ≤ key a ∧ ∀ x ∈ xs, key r ≤ key x := by
  induction xs generalizing a with
  | nil => exact ⟨.inl rfl, le_rfl, fun _ h => absurd h List.not_mem_nil⟩
  | cons x t ih =>
    obtain ⟨hmem, hle, hall⟩ := ih (pick a x)
    obtain ⟨hone, hlea, hlex⟩ : (pick a x = a ∨ pick a x = x) ∧ key (pick a x) ≤ key a ∧ key (pick a x) ≤ key x := by
      rw [hpick]
      split
      · next h => exact ⟨.inr rfl, h.le, le_rfl⟩
      · next h => exact ⟨.inl rfl, le_rfl, not_lt.1 h⟩
    rw [List.foldl_cons]
    refine ⟨?_, hle.trans hlea, List.forall_mem_cons.2 ⟨hle.trans hlex, hall⟩⟩
    rcases hmem with h | h
    · rw [h, List.mem_cons, ← or_assoc]
      exact .inl hone
    · exact .inr (List.mem_cons_of_mem x h)

/-- Folded from a value that none exceeds, the least of some values is one of them. -/
theorem foldl_least_of_top (hkey : Function.Injective key) {top : Word} (htop : ∀ x, key x ≤ key top) (xs : List Word) :
    (xs = [] → xs.foldl pick top = top) ∧
      (xs ≠ [] → xs.foldl pick top ∈ xs ∧ ∀ x ∈ xs, key (xs.foldl pick top) ≤ key x) := by
  obtain ⟨hmem, -, hall⟩ := foldl_least hpick xs top
  refine ⟨fun h => by rw [h, List.foldl_nil], fun hne => ⟨hmem.elim (fun htop' => ?_) id, hall⟩⟩
  obtain ⟨x, hx⟩ := List.exists_mem_of_ne_nil xs hne
  rwa [hkey (le_antisymm (hall x hx) ((htop x).trans (congrArg key htop').ge))]

end

theorem getLsbD_foldl_and (xs : List Word) (a : Word) (k : Nat) :
    (xs.foldl (· &&& ·) a).getLsbD k = (a.getLsbD k && xs.all fun x => x.getLsbD k) := by
  induction xs generalizing a with
  | nil => simp
  | cons x t ih => rw [List.foldl_cons, ih, BitVec.getLsbD_and, List.all_cons, Bool.and_assoc]

/-- A bit of a combination by exclusive or is the parity of that bit among the values. -/
theorem getLsbD_foldl_xor (xs : List Word) (a : Word) (k : Nat) :
    (xs.foldl (· ^^^ ·) a).getLsbD k = (a.getLsbD k ^^ decide (xs.countP (fun x => x.getLsbD k) % 2 = 1)) := by
  induction xs generalizing a with
  | nil => simp
  | cons x t ih =>
    have hflip : ∀ n : Nat, decide ((n + 1) % 2 = 1) = !decide (n % 2 = 1) := fun n => by
      rw [← decide_not]
      exact decide_eq_decide.2 (by omega)
    rw [List.foldl_cons, ih, BitVec.getLsbD_xor, List.countP_cons, Bool.xor_assoc]
    cases x.getLsbD k <;> simp [hflip]

/-! ## The exact order of numbers -/

/-- A finite number as a multiple of a lower power of two. -/
theorem ratOf_eq_scaled (neg : Bool) (m : Nat) {e x : Int} (h : e ≤ x) :
    ratOf (.fin neg m x) = (scaled e (.fin neg m x) : ℝ) * 2 ^ e := by
  have hpow : (2 : ℝ) ^ x = 2 ^ (x - e).toNat * 2 ^ e := by
    rw [← zpow_natCast, Int.toNat_of_nonneg (by omega), ← zpow_add₀ two_ne_zero, sub_add_cancel]
  rw [ratOf_fin, hpow, scaled, Nat.shiftLeft_eq]
  cases neg <;> simp [signFactor] <;> ring

theorem valOf_fin (neg : Bool) (m : Nat) (e : Int) : valOf (.fin neg m e) = ((ratOf (.fin neg m e) : ℝ) : EReal) := rfl

/-- cmpNum is the order of the extended line. -/
theorem cmpNum_compares {a b : Num} (ha : a.isNan = false) (hb : b.isNan = false) :
    (cmpNum a b).Compares (valOf a) (valOf b) := by
  cases a with
  | nan s n => cases ha
  | inf n =>
    cases b with
    | nan s k => cases hb
    | inf k => cases n <;> cases k <;> simp [cmpNum, valOf, Ordering.Compares]
    | fin nb mb eb => cases n <;> simp [cmpNum, valOf, Ordering.Compares]
  | fin na ma ea =>
    cases b with
    | nan s k => cases hb
    | inf k => cases k <;> simp [cmpNum, valOf, Ordering.Compares]
    | fin nb mb eb =>
      have hpos : (0 : ℝ) < 2 ^ min ea eb := by positivity
      rw [valOf_fin, valOf_fin, ratOf_eq_scaled na ma (min_le_left ea eb), ratOf_eq_scaled nb mb (min_le_right ea eb)]
      change (compare (scaled (min ea eb) (.fin na ma ea)) (scaled (min ea eb) (.fin nb mb eb))).Compares _ _
      generalize scaled (min ea eb) (.fin na ma ea) = x
      generalize scaled (min ea eb) (.fin nb mb eb) = y
      rcases lt_trichotomy x y with h | rfl | h
      · rw [compare_lt_iff_lt.2 h]
        exact EReal.coe_lt_coe_iff.2 (mul_lt_mul_of_pos_right (Int.cast_lt.2 h) hpos)
      · rw [compare_eq_iff_eq.2 rfl]
        exact rfl
      · rw [compare_gt_iff_gt.2 h]
        exact EReal.coe_lt_coe_iff.2 (mul_lt_mul_of_pos_right (Int.cast_lt.2 h) hpos)

theorem isZero_iff {a : Num} (ha : a.isNan = false) : a.isZero = true ↔ valOf a = 0 := by
  cases a with
  | nan s n => cases ha
  | inf n => cases n <;> simp [Num.isZero, valOf]
  | fin n m e =>
    by_cases hm : m = 0
    · simp [Num.isZero, valOf_fin, ratOf, hm]
    · simp [Num.isZero, valOf_fin, hm, ratOf_fin_ne_zero hm n e]

/-- `below` is the strict order that `AtMost` goes with. -/
theorem not_below_iff {a b : Num} (ha : a.isNan = false) (hb : b.isNan = false) : below b a = false ↔ AtMost a b := by
  have hcmp := cmpNum_compares hb ha
  unfold below
  unfold AtMost
  rw [← isZero_iff ha]
  cases ho : cmpNum b a with
  | lt =>
    rw [ho] at hcmp
    have hlt : valOf b < valOf a := hcmp
    simp [hlt.not_gt, hlt.ne']
  | gt =>
    rw [ho] at hcmp
    have hlt : valOf a < valOf b := hcmp
    simp [hlt]
  | eq =>
    rw [ho] at hcmp
    have heq : valOf b = valOf a := hcmp
    have hzero : b.isZero = a.isZero := by rw [Bool.eq_iff_iff, isZero_iff ha, isZero_iff hb, heq]
    rw [heq, hzero]
    cases a.isZero <;> cases b.neg <;> cases a.neg <;> simp

theorem atMost_trans {a b c : Num} (h : AtMost a b) (h' : AtMost b c) : AtMost a c := by
  rcases h with h | ⟨h, hs⟩
  · exact .inl (h.trans_le (h'.elim le_of_lt fun h' => h'.1.le))
  · rcases h' with h' | ⟨h', hs'⟩
    · exact .inl (h ▸ h')
    · exact .inr ⟨h.trans h', fun h0 hn => hs h0 (hs' (h ▸ h0) hn)⟩

theorem atMost_refl (a : Num) : AtMost a a := .inr ⟨rfl, fun _ h => h⟩

/-- What one of two numbers is at most depends on its value and its sign alone. -/
theorem atMost_congr {a a' b b' : Num} (ha : SameNum a a') (hb : SameNum b b') : AtMost a b ↔ AtMost a' b' := by
  obtain ⟨-, -, hva, hna⟩ := ha
  obtain ⟨-, -, hvb, hnb⟩ := hb
  rw [AtMost, AtMost, hva, hvb, hna, hnb]

theorem sameNum_refl {a : Num} (ha : a.isNan = false) : SameNum a a := ⟨ha, ha, rfl, rfl⟩

theorem sameNum_trans {a b c : Num} (h : SameNum a b) (h' : SameNum b c) : SameNum a c := by
  obtain ⟨ha, -, hv, hn⟩ := h
  obtain ⟨-, hc, hv', hn'⟩ := h'
  exact ⟨ha, hc, hv.trans hv', hn.trans hn'⟩

theorem atMost_of_below {a b : Num} (ha : a.isNan = false) (hb : b.isNan = false) (h : below a b = true) : AtMost a b := by
  have hcmp := cmpNum_compares ha hb
  unfold below at h
  split at h
  · next ho => exact .inl (by rwa [ho] at hcmp)
  · cases h
  · next ho =>
    rw [ho] at hcmp
    simp only [Bool.and_eq_true] at h
    obtain ⟨⟨-, hneg⟩, -⟩ := h
    exact .inr ⟨hcmp, fun _ _ => hneg⟩

/-- Only an infinity stands where an infinity does. -/
theorem eq_inf_of_valOf_eq {a : Num} (ha : a.isNan = false) {neg : Bool} (h : valOf a = valOf (.inf neg)) : a = .inf neg := by
  cases a with
  | nan s n => cases ha
  | inf n => cases n <;> cases neg <;> simp [valOf] at h ⊢
  | fin n m e => cases neg <;> simp [valOf] at h

/-! ## Least and greatest (R239, R247) -/

/-- What the operation keeps of two numbers: the greater or the smaller. -/
def Keeps (larger : Bool) (a b : Num) : Prop := if larger then AtMost b a else AtMost a b

theorem Keeps.trans {larger : Bool} {a b c : Num} (h : Keeps larger a b) (h' : Keeps larger b c) : Keeps larger a c := by
  cases larger with
  | false => exact atMost_trans h h'
  | true => exact atMost_trans h' h

theorem Keeps.refl (larger : Bool) (a : Num) : Keeps larger a a := by cases larger <;> exact atMost_refl a

theorem keeps_congr {larger : Bool} {a a' b b' : Num} (ha : SameNum a a') (hb : SameNum b b') :
    Keeps larger a b ↔ Keeps larger a' b' := by
  cases larger with
  | false => exact atMost_congr ha hb
  | true => exact atMost_congr hb ha

/-- The infinity that the operation starts from is kept before its like alone. -/
theorem eq_inf_of_keeps {larger : Bool} {a : Num} (ha : a.isNan = false) (h : Keeps larger (.inf larger) a) :
    a = .inf larger := by
  have hle : ∀ {x y : Num}, AtMost x y → valOf x ≤ valOf y := fun hxy => hxy.elim le_of_lt fun hv => hv.1.le
  cases larger with
  | false => exact eq_inf_of_valOf_eq ha (top_le_iff.1 (hle h))
  | true => exact eq_inf_of_valOf_eq ha (le_bot_iff.1 (hle h))

theorem minMax_keeps (f : FloatFmt) (larger : Bool) {a b : Nat × Num} (ha : a.2.isNan = false) (hb : b.2.isNan = false) :
    (minMax f larger a b).1 = a.1 ∧ Keeps larger a.2 b.2 ∨ (minMax f larger a b).1 = b.1 ∧ Keeps larger b.2 a.2 := by
  unfold minMax
  rw [ha, hb]
  cases larger with
  | false =>
    cases h : below b.2 a.2 with
    | false => exact .inl ⟨by simp, (not_below_iff ha hb).1 h⟩
    | true => exact .inr ⟨by simp, atMost_of_below hb ha h⟩
  | true =>
    cases h : below a.2 b.2 with
    | false => exact .inl ⟨by simp, (not_below_iff hb ha).1 h⟩
    | true => exact .inr ⟨by simp, atMost_of_below ha hb h⟩

/-! ## The FP32 codes of vred and vscan (R238, R239) -/

section

variable (env : FEnv)

theorem regular_fp32 : fmtFp32.Regular := Cvt.regular_of_float (c := .fp32) rfl

theorem fp32In_eq (x : Word) : fp32In env x = flushIn .fp32 env.fin (fmtFp32.unpack x.toNat) := rfl

/-- A value as it was, or the zero that a subnormal becomes. -/
theorem fp32In_cases (x : Word) :
    fp32In env x = fmtFp32.unpack x.toNat ∨ ∃ neg, fp32In env x = .fin neg 0 0 := by
  rw [fp32In_eq]
  cases hu : fmtFp32.unpack x.toNat with
  | nan s n => exact .inl (flushIn_of_not_fin _ _ (by simp))
  | inf n => exact .inl (flushIn_of_not_fin _ _ (by simp))
  | fin n m e =>
    obtain ⟨hflushed, hkept⟩ := flushIn_fin (c := .fp32) rfl env.fin n m e
    by_cases h : Flushed .fp32 fmtFp32 env.fin n m e
    · exact .inr ⟨n, hflushed h⟩
    · exact .inl (hkept h)

variable {env}

/-- The code of a flushed value stands for it. -/
theorem fp32Bits_spec {x : Word} (h : (fp32In env x).isNan = false) :
    fp32Bits env x < 2 ^ 32 ∧ SameNum (fmtFp32.unpack (fp32Bits env x)) (fp32In env x) := by
  unfold fp32Bits
  rcases fp32In_cases env x with hx | ⟨neg, hx⟩
  · rw [hx] at h ⊢
    rw [roundFloat_unpack regular_fp32 .rne x.isLt h]
    exact ⟨x.isLt, sameNum_refl h⟩
  · rw [hx]
    obtain ⟨⟨hlt, m, e, hu, hval⟩, -⟩ := roundFloat_zero regular_fp32 .rne false false neg 0
    refine ⟨hlt, ?_⟩
    rw [hu]
    refine ⟨rfl, rfl, ?_, rfl⟩
    rw [valOf_fin, valOf_fin, hval]
    simp [ratOf]

/-- The code that the fold of redMinMax keeps of two. -/
def pickFp32 (env : FEnv) (larger : Bool) (m : Nat) (x : Word) : Nat :=
  (minMax fmtFp32 larger (m, fmtFp32.unpack m) (fp32Bits env x, fp32In env x)).1

/-- What a code holds as the fold goes on: a number that the operation keeps before all that it has met. -/
theorem pickFp32_spec (larger : Bool) {m : Nat} {x : Word} (hm : m < 2 ^ 32) (hnum : (fmtFp32.unpack m).isNan = false)
    (hx : (fp32In env x).isNan = false) :
    let r := fmtFp32.unpack (pickFp32 env larger m x)
    pickFp32 env larger m x < 2 ^ 32 ∧ (SameNum r (fmtFp32.unpack m) ∨ SameNum r (fp32In env x)) ∧
      Keeps larger r (fmtFp32.unpack m) ∧ Keeps larger r (fp32In env x) := by
  obtain ⟨hlt, hsame⟩ := fp32Bits_spec hx
  rcases minMax_keeps fmtFp32 larger (a := (m, fmtFp32.unpack m)) (b := (fp32Bits env x, fp32In env x)) hnum hx with
    ⟨hr, hk⟩ | ⟨hr, hk⟩
  · rw [pickFp32, hr]
    exact ⟨hm, .inl (sameNum_refl hnum), Keeps.refl _ _, hk⟩
  · rw [pickFp32, hr]
    have hk' := (keeps_congr hsame (sameNum_refl hnum)).2 hk
    exact ⟨hlt, .inr hsame, hk', (keeps_congr hsame (sameNum_refl hx)).2 (Keeps.refl _ _)⟩

theorem foldl_pickFp32 (larger : Bool) {xs : List Word} (hxs : ∀ x ∈ xs, (fp32In env x).isNan = false) {m : Nat}
    (hm : m < 2 ^ 32) (hnum : (fmtFp32.unpack m).isNan = false) :
    let c := xs.foldl (pickFp32 env larger) m
    let r := fmtFp32.unpack c
    c < 2 ^ 32 ∧ (SameNum r (fmtFp32.unpack m) ∨ ∃ x ∈ xs, SameNum r (fp32In env x)) ∧ Keeps larger r (fmtFp32.unpack m) ∧
      ∀ x ∈ xs, Keeps larger r (fp32In env x) := by
  induction xs generalizing m with
  | nil => exact ⟨hm, .inl (sameNum_refl hnum), Keeps.refl _ _, fun _ h => absurd h List.not_mem_nil⟩
  | cons x t ih =>
    obtain ⟨hx, ht⟩ := List.forall_mem_cons.1 hxs
    obtain ⟨hlt, hsame, hkm, hkx⟩ := pickFp32_spec larger hm hnum hx
    obtain ⟨hlt', hsame', hkeep, hall⟩ := ih ht hlt (hsame.elim And.left And.left)
    rw [List.foldl_cons]
    refine ⟨hlt', ?_, hkeep.trans hkm, List.forall_mem_cons.2 ⟨hkeep.trans hkx, hall⟩⟩
    rw [List.exists_mem_cons_iff]
    rcases hsame' with h | h
    · exact hsame.imp (sameNum_trans h) fun hs => .inl (sameNum_trans h hs)
    · exact .inr (.inr h)

/-- The code of the infinity that the operation starts from. -/
def startCode (larger : Bool) : Nat := if larger then 0xFF800000 else 0x7F800000

theorem startCode_spec (larger : Bool) : startCode larger < 2 ^ 32 ∧ fmtFp32.unpack (startCode larger) = .inf larger := by
  cases larger <;> decide

theorem redMinMax_eq (larger : Bool) {xs : List Word} (hxs : ∀ x ∈ xs, (fp32In env x).isNan = false) :
    redMinMax env larger xs = (BitVec.ofNat 32 (xs.foldl (pickFp32 env larger) (startCode larger)), 0) := by
  have hany : (xs.map (fp32In env)).any Num.isNan = false := by simpa using hxs
  unfold redMinMax
  simp only [hany]
  rfl

/-- The least or the greatest of some values, none a NaN. -/
theorem redMinMax_of_numbers (larger : Bool) {xs : List Word} (hxs : ∀ x ∈ xs, (fp32In env x).isNan = false) (hne : xs ≠ []) :
    let y := redMinMax env larger xs
    let r := fmtFp32.unpack y.1.toNat
    y.2 = 0 ∧ (∃ n ∈ xs.map (fp32In env), SameNum r n) ∧ ∀ n ∈ xs.map (fp32In env), Keeps larger r n := by
  obtain ⟨hstart, hinf⟩ := startCode_spec larger
  obtain ⟨hlt, hsame, -, hall⟩ := foldl_pickFp32 larger hxs hstart (by rw [hinf]; rfl)
  rw [redMinMax_eq larger hxs]
  simp only [BitVec.toNat_ofNat, Nat.mod_eq_of_lt hlt, List.forall_mem_map, true_and]
  refine ⟨hsame.elim (fun hs => ?_) fun ⟨x, hx, hs⟩ => ⟨_, List.mem_map_of_mem hx, hs⟩, hall⟩
  obtain ⟨x, hx⟩ := List.exists_mem_of_ne_nil xs hne
  rw [hinf] at hs
  have hxinf : fp32In env x = .inf larger :=
    eq_inf_of_keeps (hxs x hx) ((keeps_congr hs (sameNum_refl (hxs x hx))).1 (hall x hx))
  exact ⟨_, List.mem_map_of_mem hx, hxinf ▸ hs⟩

theorem redMinMax_of_nan (larger : Bool) {xs : List Word} (h : ∃ n ∈ xs.map (fp32In env), n.isNan = true) :
    redMinMax env larger xs = (0x7FC00000, when ((xs.map (fp32In env)).any Num.isSig) wINV) := by
  unfold redMinMax
  simp only [List.any_eq_true.2 h]
  rfl

end

/-! ## Exact sums (R239) -/

/-- A multiple of a power of two, as a number. -/
theorem ratOf_ofScaled (zneg : Bool) {v : Int} (hv : v ≠ 0) (e : Int) :
    ∃ m, m ≠ 0 ∧ ofScaled zneg v e = .fin (decide (v < 0)) m e ∧ ratOf (.fin (decide (v < 0)) m e) = v * 2 ^ e := by
  refine ⟨v.natAbs, Int.natAbs_ne_zero.2 hv, if_neg hv, ?_⟩
  have habs : ((v.natAbs : Nat) : ℝ) = |(v : ℝ)| := by rw [Nat.cast_natAbs, Int.cast_abs]
  rw [ratOf_fin, habs, ← mul_assoc]
  congr 1
  rcases lt_or_ge v 0 with h | h
  · simp [signFactor, h, abs_of_neg (Int.cast_lt_zero.2 h)]
  · simp [signFactor, h.not_gt, abs_of_nonneg (Int.cast_nonneg h)]

/-- An exponent that none of some numbers goes below. -/
def leastOf (e : Int) (ns : List Num) : Int := ns.foldl (fun e x => min e x.exp) e

/-- The sum of their numerators over 2^e, from a first one on. -/
def totalOver (e v : Int) (ns : List Num) : Int := ns.foldl (fun v x => v + scaled e x) v

theorem leastOf_le (ns : List Num) (e : Int) : leastOf e ns ≤ e ∧ ∀ n ∈ ns, leastOf e ns ≤ n.exp := by
  induction ns generalizing e with
  | nil => exact ⟨le_rfl, fun _ h => absurd h List.not_mem_nil⟩
  | cons n t ih =>
    obtain ⟨hle, hall⟩ := ih (min e n.exp)
    exact ⟨hle.trans (min_le_left _ _), List.forall_mem_cons.2 ⟨hle.trans (min_le_right _ _), hall⟩⟩

/-- Finite numbers over one power of two add up as integers. -/
theorem totalOver_eq {ns : List Num} (hns : ∀ n ∈ ns, ∃ s m e, n = .fin s m e) {e : Int} (he : ∀ n ∈ ns, e ≤ n.exp) (v : Int) :
    (totalOver e v ns : ℝ) * 2 ^ e = v * 2 ^ e + (ns.map ratOf).sum := by
  induction ns generalizing v with
  | nil => simp [totalOver]
  | cons n t ih =>
    obtain ⟨⟨s, m, x, rfl⟩, ht⟩ := List.forall_mem_cons.1 hns
    obtain ⟨hx, he'⟩ := List.forall_mem_cons.1 he
    have hcons : totalOver e v (.fin s m x :: t) = totalOver e (v + scaled e (.fin s m x)) t := rfl
    rw [hcons, ih ht he', List.map_cons, List.sum_cons, ratOf_eq_scaled s m (show e ≤ x from hx), Int.cast_add, add_mul, add_assoc]

section

variable {ns : List Num}

theorem any_eq_inf (neg : Bool) : ns.any (· == .inf neg) = decide (Num.inf neg ∈ ns) := by
  rw [Bool.eq_iff_iff]
  simp

theorem when_or (a b : Bool) (f : Word) : when (a || b) f = (when a f ||| when b f) := by
  cases a <;> cases b <;> simp [when]

/-- No signalling operand without a NaN. -/
theorem sigFlag_of_no_nan (h : ¬∃ n ∈ ns, n.isNan = true) : sigFlag ns = 0 := by
  have hsig : ns.any Num.isSig = false := by
    rw [List.any_eq_false]
    intro n hn hs
    refine h ⟨n, hn, ?_⟩
    cases n with
    | nan s k => rfl
    | inf k => cases hs
    | fin k m e => cases hs
  rw [sigFlag, hsig]
  rfl

/-- A NaN, or both infinities. -/
theorem sumNum_of_invalid (down : Bool) (h : (∃ n ∈ ns, n.isNan = true) ∨ (Num.inf true ∈ ns ∧ Num.inf false ∈ ns)) :
    sumNum down ns = (.nan false false,
      when (ns.any Num.isSig || (decide (Num.inf true ∈ ns) && decide (Num.inf false ∈ ns))) wINV) := by
  have hcond : (ns.any Num.isNan || (decide (Num.inf false ∈ ns) && decide (Num.inf true ∈ ns))) = true := by
    rw [Bool.or_eq_true, List.any_eq_true]
    simpa [and_comm] using h
  simp only [sumNum, any_eq_inf, hcond, if_true, sigFlag, when_or, Bool.and_comm]

/-- One infinity, whatever else is finite. -/
theorem sumNum_of_inf (down neg : Bool) (hnan : ¬∃ n ∈ ns, n.isNan = true) (h : Num.inf neg ∈ ns) (h' : Num.inf (!neg) ∉ ns) :
    sumNum down ns = (.inf neg, 0) := by
  have hany : ns.any Num.isNan = false := by
    rw [List.any_eq_false]
    exact fun n hn hs => hnan ⟨n, hn, hs⟩
  cases neg with
  | false => simp [sumNum, any_eq_inf, hany, h, show Num.inf true ∉ ns from h', sigFlag_of_no_nan hnan, when]
  | true => simp [sumNum, any_eq_inf, hany, h, show Num.inf false ∉ ns from h', sigFlag_of_no_nan hnan, when]

/-- Finite numbers: their exact sum, and the sign of a zero. -/
theorem sumNum_of_finite (down : Bool) (h : ∀ n ∈ ns, ∃ s m e, n = .fin s m e) :
    ∃ (v : Int) (e : Int), (ns.map ratOf).sum = v * 2 ^ e ∧
      sumNum down ns = (ofScaled (down || ns.all fun n => n.isZero && n.neg) v e, 0) := by
  have hnan : ¬∃ n ∈ ns, n.isNan = true := by
    rintro ⟨n, hn, hs⟩
    obtain ⟨s, m, e, rfl⟩ := h n hn
    cases hs
  have hany : ns.any Num.isNan = false := by
    rw [List.any_eq_false]
    exact fun n hn hs => hnan ⟨n, hn, hs⟩
  have hinf : ∀ neg, Num.inf neg ∉ ns := fun neg hn => by
    obtain ⟨s, m, e, he⟩ := h _ hn
    cases he
  refine ⟨totalOver (leastOf 0 ns) 0 ns, leastOf 0 ns, ?_, ?_⟩
  · rw [totalOver_eq h (leastOf_le ns 0).2, Int.cast_zero, zero_mul, zero_add]
  · simp [sumNum, any_eq_inf, hany, hinf, sigFlag_of_no_nan hnan, when, totalOver, leastOf]

end

/-! ## A rounding gives a code of its format -/

theorem lt_of_roundsTo {f : FloatFmt} {r : Rnd} {fout sat neg : Bool} {a : ℝ} {y : Nat × Word}
    (h : RoundsTo f r fout sat neg a y) : y.1 < 2 ^ (1 + f.ebits + f.mbits) := by
  obtain ⟨v, -, hin, hout⟩ := h
  by_cases hfits : ∃ n w z, IsCode f n w z ∧ |v| ≤ |w|
  · obtain ⟨hflush, hkeep⟩ := hin hfits
    by_cases hfl : fout = true ∧ v ≠ 0 ∧ |v| < 2 ^ leastExp f
    · exact (hflush hfl).1.1
    · exact (hkeep hfl).1.1
  · push Not at hfits
    obtain ⟨-, hlim, hunlim⟩ := hout hfits
    by_cases hl : f.special = .none ∨ sat = true ∨ r = .rtz ∨ (r = .rup ∧ neg = true) ∨ (r = .rdn ∧ neg = false)
    · obtain ⟨w, hcode, -⟩ := hlim hl
      exact hcode.1
    · exact (hunlim hl).1

/-! ## fadd (R239): one exact sum, rounded once -/

section

variable {env : FEnv} {xs : List Word}

/-- The sum of some values, with its flags, before the rounding. -/
def sumOf (env : FEnv) (xs : List Word) : Num × Word := sumNum (env.rnd == .rdn) (xs.map (fp32In env))

theorem redFadd_eq (env : FEnv) (xs : List Word) :
    redFadd env xs = (BitVec.ofNat 32 (roundFloat fmtFp32 env.rnd env.fout false (sumOf env xs).1).1,
      (sumOf env xs).2 ||| (roundFloat fmtFp32 env.rnd env.fout false (sumOf env xs).1).2) := rfl

theorem redFadd_of_invalid
    (h : (∃ n ∈ xs.map (fp32In env), n.isNan = true) ∨
      (Num.inf true ∈ xs.map (fp32In env) ∧ Num.inf false ∈ xs.map (fp32In env))) :
    redFadd env xs = (0x7FC00000, when ((xs.map (fp32In env)).any Num.isSig ||
      (decide (Num.inf true ∈ xs.map (fp32In env)) && decide (Num.inf false ∈ xs.map (fp32In env)))) wINV) := by
  rw [redFadd_eq, sumOf, sumNum_of_invalid _ h, roundFloat_nan (by decide)]
  exact Prod.ext rfl BitVec.or_zero

theorem redFadd_of_inf {neg : Bool} (hnan : ¬∃ n ∈ xs.map (fp32In env), n.isNan = true) (h : Num.inf neg ∈ xs.map (fp32In env))
    (h' : Num.inf (!neg) ∉ xs.map (fp32In env)) :
    fmtFp32.unpack (redFadd env xs).1.toNat = .inf neg ∧ (redFadd env xs).2 = 0 := by
  rw [redFadd_eq, sumOf, sumNum_of_inf _ _ hnan h h', roundFloat_inf_ieee rfl]
  cases neg <;> decide

theorem redFadd_of_finite (h : ∀ n ∈ xs.map (fp32In env), ∃ s m e, n = .fin s m e) :
    let sum := ((xs.map (fp32In env)).map ratOf).sum
    let y := redFadd env xs
    (∀ neg, sum ≠ 0 → (neg = true ↔ sum < 0) → RoundsTo fmtFp32 env.rnd env.fout false neg sum (y.1.toNat, y.2)) ∧
      (sum = 0 → IsCode fmtFp32 (env.rnd == .rdn || (xs.map (fp32In env)).all fun n => n.isZero && n.neg) 0 y.1.toNat ∧ y.2 = 0) := by
  obtain ⟨v, e, hsum, hnum⟩ := sumNum_of_finite (env.rnd == .rdn) h
  have hpow : (0 : ℝ) < 2 ^ e := by positivity
  rw [redFadd_eq, sumOf, hnum]
  simp only [BitVec.ofNat_eq_ofNat, BitVec.zero_or]
  refine ⟨fun neg hne hneg => ?_, fun h0 => ?_⟩
  · have hv : v ≠ 0 := fun h0 => hne (by rw [hsum, h0, Int.cast_zero, zero_mul])
    obtain ⟨m, hm, hfin, hrat⟩ := ratOf_ofScaled (env.rnd == .rdn || (xs.map (fp32In env)).all fun n => n.isZero && n.neg) hv e
    have hsign : decide (v < 0) = neg := by
      rw [Bool.eq_iff_iff, decide_eq_true_iff, hneg, hsum, ← zero_mul ((2 : ℝ) ^ e), mul_lt_mul_iff_left₀ hpow, Int.cast_lt_zero]
    rw [hfin, roundFloat_fin, if_neg hm]
    have hround := roundsTo_roundFinite regular_fp32 hm e env.rnd env.fout false (decide (v < 0))
    rw [hrat, ← hsum, hsign] at hround
    rw [hsign, BitVec.toNat_ofNat, Nat.mod_eq_of_lt (show _ < 2 ^ 32 from lt_of_roundsTo hround)]
    exact hround
  · have hv : v = 0 := by
      rw [hsum, mul_eq_zero, Int.cast_eq_zero] at h0
      exact h0.resolve_right hpow.ne'
    rw [hv, ofScaled, if_pos rfl]
    obtain ⟨hcode, hflags⟩ := roundFloat_zero regular_fp32 env.rnd env.fout false
      (env.rnd == .rdn || (xs.map (fp32In env)).all fun n => n.isZero && n.neg) 0
    rw [BitVec.toNat_ofNat, Nat.mod_eq_of_lt (show _ < 2 ^ 32 from hcode.1)]
    exact ⟨hcode, hflags⟩

end

/-! ## vred and vscan (R238, R239) -/

theorem reducedTo_fadd (env : FEnv) (xs : List Word) : ReducedTo env .fadd xs (redOp env .fadd xs) := by
  by_cases hne : xs = []
  · subst hne
    simp [ReducedTo, redOp]
  · have hop : redOp env .fadd xs = redFadd env xs := if_neg (by simpa using hne)
    rw [hop]
    refine ⟨fun h => absurd h hne, fun h => ?_, fun neg hnan h h' => redFadd_of_inf hnan h h', fun _ h => redFadd_of_finite h⟩
    have hr := redFadd_of_invalid h
    exact ⟨congrArg Prod.fst hr, congrArg Prod.snd hr⟩

section

variable (env : FEnv) (xs : List Word)

/-- The three rows of R239 for min and max, the operation starting from an infinity. -/
theorem redMinMax_spec (larger : Bool) :
    let ns := xs.map (fp32In env)
    let y := redMinMax env larger xs
    let r := fmtFp32.unpack y.1.toNat
    ((∃ n ∈ ns, n.isNan = true) → y = (0x7FC00000, when (ns.any Num.isSig) wINV)) ∧
      (xs = [] → y = (BitVec.ofNat 32 (startCode larger), 0)) ∧
      ((¬∃ n ∈ ns, n.isNan = true) → xs ≠ [] → y.2 = 0 ∧ (∃ n ∈ ns, SameNum r n) ∧ ∀ n ∈ ns, Keeps larger r n) := by
  refine ⟨redMinMax_of_nan larger, fun h => ?_, fun hnan => redMinMax_of_numbers larger fun x hx => ?_⟩
  · subst h
    rfl
  · exact Bool.eq_false_iff.2 fun h => hnan ⟨_, List.mem_map_of_mem hx, h⟩

/-- The operation over some values is what R239 has it be. -/
theorem reducedTo_redOp (op : RedOp) : ReducedTo env op xs (redOp env op xs) := by
  have hsigned : ∀ x : Word, -2147483648 ≤ x.toInt ∧ x.toInt ≤ 2147483647 := fun x => by
    have := x.le_toInt
    have := x.toInt_lt
    omega
  cases op with
  | add => simp [ReducedTo, redOp, redInt, foldl_add_eq]
  | minI =>
    exact ⟨rfl, foldl_least_of_top (key := fun x => x.toInt) (top := 0x7FFFFFFF) minS_eq (fun _ _ => BitVec.eq_of_toInt_eq)
      (fun x => (hsigned x).2) xs⟩
  | maxI =>
    refine ⟨rfl, foldl_least_of_top (key := fun x => -x.toInt) (top := 0x80000000) (fun a b => ?_)
      (fun _ _ h => BitVec.eq_of_toInt_eq (neg_injective h)) (fun x => neg_le_neg (hsigned x).1) xs⟩
    simp only [maxS_eq, neg_lt_neg_iff]
  | minN =>
    refine ⟨rfl, foldl_least_of_top (key := fun x => (x.toNat : Int)) (fun a b => ?_)
      (fun _ _ h => BitVec.eq_of_toNat_eq (Int.ofNat_inj.1 h)) (fun x => ?_) xs⟩
    · simp only [minU_eq, Nat.cast_lt]
    · exact Int.ofNat_le.2 (Nat.le_of_lt_succ x.isLt)
  | maxN =>
    refine ⟨rfl, foldl_least_of_top (key := fun x => -(x.toNat : Int)) (fun a b => ?_)
      (fun _ _ h => BitVec.eq_of_toNat_eq (Int.ofNat_inj.1 (neg_injective h))) (fun x => ?_) xs⟩
    · simp only [maxU_eq, neg_lt_neg_iff, Nat.cast_lt]
    · exact neg_le_neg (Int.natCast_nonneg _)
  | and =>
    refine ⟨rfl, fun k hk => (getLsbD_foldl_and xs 0xFFFFFFFF k).trans ?_⟩
    rw [show (0xFFFFFFFF : Word) = BitVec.allOnes 32 from rfl, BitVec.getLsbD_allOnes, decide_eq_true hk, Bool.true_and]
  | or => exact ⟨rfl, fun k _ => (getLsbD_foldl_or id xs 0 k).trans (by simp)⟩
  | xor => exact ⟨rfl, fun k _ => (getLsbD_foldl_xor xs 0 k).trans (by simp)⟩
  | fadd => exact reducedTo_fadd env xs
  | fmin => exact redMinMax_spec env xs false
  | fmax => exact redMinMax_spec env xs true

end

/-! ## Moves between lanes (R235 to R237) -/

theorem Party.fromLane_eq (q : Party) (a src : Nat) : q.fromLane a src = fromLive q a src := by
  simp [Party.fromLane, fromLive]

/-- A lane-moving instruction, by the source of each lane. -/
theorem moveLanes_eq (d a : VReg) (src : Party → Nat → Nat) (sl : Bool) (q : Party) :
    moveLanes d a src sl q =
      (q.setV d.toNat (q.active sl) fun l => fromLive q a.toNat (src q l)).raise (when (q.deadSource sl (src q)) wDEADSRC) := by
  simp only [moveLanes, Party.fromLane_eq]

/-- Only a sum of FP32 values is rounded, and RND 6 and 7 are the reserved ones (R90, R244). -/
theorem redReserved_eq (op : RedOp) (mode : Word) : redReserved op mode = if op = .fadd ∧ 6 ≤ mode.toNat % 8 then 0x100 else 0 := by
  have hrnd : (fld mode 0 3).toNat = mode.toNat % 8 := by simp [fld]
  simp only [redReserved, rndReserved, when, hrnd, Bool.and_eq_true, beq_iff_eq, decide_eq_true_iff]
  rfl

/-- Settles O26, instruction by instruction; R239's operations by `reducedTo_redOp`. -/
theorem laneMoves : Obligations.LaneMoves := by
  unfold Obligations.LaneMoves
  refine ⟨fun d a b => ?_, fun d a n => ?_, fun d a m => ?_, fun op d a => ?_, fun op excl d a => ?_,
    fun env op xs => reducedTo_redOp env xs op, redReserved_eq⟩
  · exact registerEffect_of_runRegs (exec_vperm d a b) fun sl q => moveLanes_eq d a _ sl q
  · exact registerEffect_of_runRegs (exec_vbcast d a n) fun sl q => moveLanes_eq d a _ sl q
  · exact registerEffect_of_runRegs (exec_vxshf d a m) fun sl q => moveLanes_eq d a _ sl q
  · refine registerEffect_of_runRegs (exec_vred op d a) fun sl q => ?_
    simp only [q.laneValues_all]
    rfl
  · exact registerEffect_of_runRegs (exec_vscan op excl d a) fun _ _ => rfl

end Sys2Proof.Machine

/-!
PROOFS. Codes and numbers: what a code's number is, and roundings that change nothing (R73, R90).
-/

namespace Sys2Proof

/-! ## A value on the grid is rounded to itself (R90) -/

theorem eq_of_abs_eq_of_sameSign {a x y : ℝ} (ha : a ≠ 0) (hx : 0 ≤ x * a) (hy : 0 ≤ y * a) (h : |x| = |y|) : x = y := by
  rcases abs_eq_abs.1 h with h | rfl
  · exact h
  · have : y = 0 := (mul_eq_zero.1 (le_antisymm (by linarith) hy)).resolve_right ha
    simp [this]

theorem eq_of_roundedTo_of_rep {r : Rnd} {rep even : ℝ → Prop} {a v : ℝ} (ha : a ≠ 0) (hrep : rep a) (h : RoundedTo r rep even a v) :
    v = a := by
  obtain ⟨-, hs, h⟩ := h
  have hself : 0 ≤ a * a := mul_self_nonneg a
  cases r with
  | rtz => exact eq_of_abs_eq_of_sameSign ha hs hself (le_antisymm h.1 (h.2 a hrep le_rfl))
  | rup => exact le_antisymm (h.2 a hrep le_rfl) h.1
  | rdn => exact le_antisymm h.1 (h.2 a hrep le_rfl)
  | rne | rna =>
    have hd := h a hrep
    rw [sub_self, abs_zero] at hd
    exact sub_eq_zero.1 (abs_eq_zero.1 (hd.resolve_left (abs_nonneg _).not_gt).1)
  | sr draw =>
    obtain ⟨lo, hi, -, -, hlo, -, hle, hlt, hgap, heq, -⟩ := h
    have habs : |a| = |lo| := le_antisymm ((hgap a hrep).resolve_right hlt.not_ge) hle
    exact (heq (eq_of_abs_eq_of_sameSign ha hself hlo habs)).trans (eq_of_abs_eq_of_sameSign ha hself hlo habs).symm

/-- A number of the grid within the range is delivered as it is, with no flag. -/
theorem roundFloat_of_onGrid {f : FloatFmt} (hf : f.Regular) {neg : Bool} {m : Nat} {e : Int}
    (hgrid : OnGrid f.mbits (some f.qmin) (ratOf (.fin neg m e))) (hmax : (m : ℝ) * 2 ^ e ≤ f.maxMag) (r : Rnd) (sat : Bool) :
    IsCode f neg (ratOf (.fin neg m e)) (roundFloat f r false sat (.fin neg m e)).1 ∧
      (roundFloat f r false sat (.fin neg m e)).2 = 0 := by
  rw [roundFloat_fin]
  split_ifs with hm
  · subst hm
    simpa [ratOf] using hf.isCode_zero neg
  · obtain ⟨v, hv, hin, -⟩ := roundsTo_roundFinite hf hm e r false sat neg
    obtain rfl := eq_of_roundedTo_of_rep (ratOf_fin_ne_zero hm neg e) hgrid hv
    rw [hf.exists_code_ge_iff, abs_ratOf_fin] at hin
    obtain ⟨hcode, inx, unf, hfl, hinx, hunf⟩ := (hin hmax).2 (by simp)
    have hinx : inx = false := by simpa using hinx
    have hunf : unf = false := by simpa using hunf
    exact ⟨hcode, by rw [hfl, hinx, hunf]; rfl⟩

/-! ## The numbers of codes (R73) -/

theorem FloatFmt.unpack_mod (f : FloatFmt) (x : Nat) : f.unpack (x % 2 ^ (1 + f.ebits + f.mbits)) = f.unpack x := by
  have hm : x % 2 ^ (1 + f.ebits + f.mbits) % 2 ^ f.mbits = x % 2 ^ f.mbits :=
    Nat.mod_mod_of_dvd _ (pow_dvd_pow 2 (by omega))
  have he : (x % 2 ^ (1 + f.ebits + f.mbits)) >>> f.mbits % 2 ^ f.ebits = x >>> f.mbits % 2 ^ f.ebits := by
    rw [Nat.shiftRight_eq_div_pow, Nat.shiftRight_eq_div_pow, add_comm (1 + f.ebits), pow_add, Nat.mod_mul_right_div_self]
    exact Nat.mod_mod_of_dvd _ (pow_dvd_pow 2 (by omega))
  have hs : (x % 2 ^ (1 + f.ebits + f.mbits)) >>> (f.mbits + f.ebits) % 2 = x >>> (f.mbits + f.ebits) % 2 := by
    rw [Nat.shiftRight_eq_div_pow, Nat.shiftRight_eq_div_pow, show 1 + f.ebits + f.mbits = f.mbits + f.ebits + 1 by omega,
      pow_succ, Nat.mod_mul_right_div_self, Nat.mod_mod]
  simp only [FloatFmt.unpack, hm, he, hs]

/-- What the number of a code is when it is finite: a multiple of its least quantum, within the format's precision and range. -/
structure FloatFmt.Holds (f : FloatFmt) (m : Nat) (e : Int) : Prop where
  lt : m < 2 ^ (f.mbits + 1)
  le : f.qmin ≤ e
  max : (m : ℝ) * 2 ^ e ≤ f.maxMag

namespace FloatFmt

variable {f : FloatFmt} {m x : Nat} {e : Int} {neg : Bool}

theorem Holds.onGrid (h : f.Holds m e) (neg : Bool) : OnGrid f.mbits (some f.qmin) (ratOf (.fin neg m e)) :=
  ⟨m, e, h.lt, by rintro b ⟨⟩; exact h.le, abs_ratOf_fin neg m e⟩

theorem Regular.holds_of_unpack (hf : f.Regular) (h : f.unpack x = .fin neg m e) : f.Holds m e := by
  rw [← f.unpack_mod] at h
  obtain ⟨n, E, M, hE, hM, hx⟩ := exists_code (f := f) (Nat.mod_lt x (Nat.two_pow_pos _))
  have hcode : IsCode f neg (ratOf (.fin neg m e)) (x % 2 ^ (1 + f.ebits + f.mbits)) :=
    ⟨Nat.mod_lt _ (Nat.two_pow_pos _), m, e, h, rfl⟩
  have hmax := hf.abs_le_of_isCode hcode
  rw [abs_ratOf_fin] at hmax
  rw [hx] at h
  rw [hf.unpack_code_of_finite hM (hf.finite_of_unpack hE hM h)] at h
  cases h
  obtain ⟨hlt, hle, -⟩ := isCell_field (f := f) hM E
  exact ⟨hlt, hle _ rfl, hmax⟩

theorem mantissa_of_unpack_inf (h : f.unpack x = .inf neg) : x % 2 ^ f.mbits = 0 := by
  unfold unpack at h
  dsimp only at h
  split_ifs at h with _ h0
  exact h0

theorem qmin_eq (f : FloatFmt) : f.qmin = leastExp f - f.mbits := rfl

end FloatFmt

/-! ## The formats of elements (R242) -/

/-- A format with infinities and NaNs, whose exponents lie about the bias as R73 has it. -/
structure FloatFmt.Standard (f : FloatFmt) : Prop where
  regular : f.Regular
  ieee : f.special = .ieee
  fields : 2 ^ f.ebits = 2 * (f.bias + 1)

namespace FloatFmt.Standard

variable {f : FloatFmt} (hf : f.Standard)

include hf

theorem maxMag_eq : f.maxMag = (2 ^ (f.mbits + 1) - 1) * 2 ^ ((f.bias : Int) - f.mbits) := by
  have hpos := Nat.two_pow_pos f.mbits
  have hfields := hf.fields
  have hexp : ((2 ^ f.ebits - 2 : Nat) : Int) - f.bias - f.mbits = f.bias - f.mbits := by omega
  have hsig : ((2 ^ f.mbits + (2 ^ f.mbits - 1) : Nat) : ℝ) = 2 ^ (f.mbits + 1) - 1 := by
    rw [Nat.cast_add, Nat.cast_sub hpos, pow_succ]
    push_cast
    ring
  simp only [maxMag, maxField, hf.ieee, hexp, hsig]

theorem two_zpow_le_maxMag {k : Int} (hk : k ≤ f.bias) : (2 : ℝ) ^ k ≤ f.maxMag := by
  have hone : (1 : ℝ) ≤ 2 ^ f.mbits := one_le_pow₀ one_le_two
  calc (2 : ℝ) ^ k ≤ 2 ^ (f.bias : Int) := zpow_le_zpow_right₀ one_le_two hk
    _ = 2 ^ f.mbits * 2 ^ ((f.bias : Int) - f.mbits) := by
      rw [← zpow_natCast, ← zpow_add₀ two_ne_zero, add_sub_cancel]
    _ ≤ f.maxMag := by
      rw [hf.maxMag_eq, pow_succ]
      gcongr
      linarith

theorem maxMag_lt : f.maxMag < 2 ^ ((f.bias : Int) + 1) := by
  have hpow : (2 : ℝ) ^ ((f.bias : Int) + 1) = 2 ^ (f.mbits + 1) * 2 ^ ((f.bias : Int) - f.mbits) := by
    rw [← zpow_natCast, ← zpow_add₀ two_ne_zero]
    congr 1
    push_cast
    ring
  rw [hf.maxMag_eq, hpow]
  gcongr
  linarith

/-- A power of two within the exponents of the format. -/
theorem holds_two_pow {k : Int} (hmin : f.qmin ≤ k) (hmax : k ≤ f.bias) : f.Holds 1 k :=
  ⟨Nat.one_lt_two_pow (by omega), hmin, by simpa using hf.two_zpow_le_maxMag hmax⟩

end FloatFmt.Standard

theorem ftyFmt_standard (t : FTy) : (ftyFmt t).Standard := by
  cases t <;> exact ⟨⟨by decide, by decide⟩, rfl, by decide⟩

theorem ftyCvt_float (t : FTy) : (ftyCvt t).float = some (ftyFmt t) := by cases t <;> rfl

theorem ftyCvt_flushes (t : FTy) : (ftyCvt t).flushes = true := by cases t <;> rfl

theorem ftyCvt_unpack (t : FTy) (x : Nat) : (ftyCvt t).unpack x = (ftyFmt t).unpack x := by cases t <;> rfl

theorem width_ftyCvt (t : FTy) : (ftyCvt t).width = 1 + (ftyFmt t).ebits + (ftyFmt t).mbits := by cases t <;> rfl

/-- Each finite number of FP32 is one of FP64. -/
theorem holds_fp64_of_fp32 {m : Nat} {e : Int} (h : fmtFp32.Holds m e) : fmtFp64.Holds m e := by
  obtain ⟨hlt, hle, hmax⟩ := h
  have h32 : fmtFp32.Standard := ftyFmt_standard .f32
  have h64 : fmtFp64.Standard := ftyFmt_standard .f64
  have hmin : fmtFp64.qmin ≤ fmtFp32.qmin := by decide
  exact ⟨hlt.trans (by decide), hmin.trans hle, hmax.trans (h32.maxMag_lt.le.trans (h64.two_zpow_le_maxMag (by decide)))⟩

end Sys2Proof

/-!
PROOFS. The floating-point instructions of a vector (O27): what a lane holds of its elements, and what a form leaves alone.
-/

namespace Sys2Proof.Machine

open Sys2Proof

/-! ## What a form writes (R242, R260) -/

/-- One party comes from another by writing registers of `ds` in the lanes of a mask, and raising warn bits. -/
structure Party.WroteOnly (m : Mask) (ds : List Nat) (q q' : Party) : Prop where
  unwritten : ∀ n l, l < 96 → (n ∉ ds ∨ inMask m l = false) → q'.getV n l = q.getV n l
  raised : ∀ k, q.warn.getLsbD k = true → q'.warn.getLsbD k = true
  beside : ({ q' with vregs := q.vregs, vPoison := q.vPoison, warn := q.warn } : Party) = q

/-- The registers of a lane's result: one, or a pair. -/
def laneDest (wide : Bool) (n : Nat) : List Nat := if wide then [n, n + 1] else [n]

theorem floatDest_eq (t : FTy) (d : VReg) : floatDest t d = laneDest (t == .f64) d.toNat := by cases t <;> rfl

theorem laneDest_subset {ds : List Nat} {wide : Bool} {n : Nat} (h : n ∈ ds) (h' : wide = true → n + 1 ∈ ds) : laneDest wide n ⊆ ds := by
  cases wide with
  | false => simpa [laneDest] using h
  | true => simpa [laneDest] using ⟨h, h' rfl⟩

namespace Party.WroteOnly

variable {m : Mask} {ds : List Nat} {q q' : Party}

theorem refl (m : Mask) (ds : List Nat) (q : Party) : WroteOnly m ds q q := ⟨fun _ _ _ _ => rfl, fun _ h => h, rfl⟩

theorem ports_eq (h : WroteOnly m ds q q') : q'.ports = q.ports := by rw [← h.beside]

theorem storePort_eq (h : WroteOnly m ds q q') (n : Nat) : q'.storePort n = q.storePort n := by
  unfold Party.storePort
  rw [h.ports_eq]

theorem raise (h : WroteOnly m ds q q') (w : Word) : WroteOnly m ds q (q'.raise w) where
  unwritten := h.unwritten
  raised k hk := by simp [Party.raise, h.raised k hk]
  beside := h.beside

variable (hds : ∀ n ∈ ds, q.storePort n = none)

include hds

theorem setV (h : WroteOnly m ds q q') {n : Nat} (hn : n ∈ ds) (f : Nat → Word) : WroteOnly m ds q (q'.setV n m f) := by
  have hport := (h.storePort_eq n).trans (hds n hn)
  refine ⟨fun k l hl hk => ?_, fun k hk => ?_, ?_⟩
  · rw [Party.getV_setV_unwritten f hport hl (hk.symm.imp_right (ne_of_mem_of_not_mem hn · |>.symm)), h.unwritten k l hl hk]
  · rw [Party.setV_register m f hport]
    exact h.raised k hk
  · rw [Party.setV_register m f hport]
    exact h.beside

theorem setLaneV (h : WroteOnly m ds q q') {wide : Bool} {n : Nat} (hn : laneDest wide n ⊆ ds) (f : Nat → Nat) :
    WroteOnly m ds q (q'.setLaneV wide n m f) := by
  cases wide with
  | false => exact h.setV hds (hn (List.mem_singleton_self n)) _
  | true => exact (h.setV hds (hn (by simp [laneDest])) _).setV hds (hn (by simp [laneDest])) _

theorem setFloat (h : WroteOnly m ds q q') {wide : Bool} {n : Nat} (hn : laneDest wide n ⊆ ds) (f : Nat → Nat × Word) :
    WroteOnly m ds q (q'.setFloat wide n m f) := (h.setLaneV hds hn _).raise _

end Party.WroteOnly

/-- A change that writes only some registers of each party. -/
theorem writesOnly_of {f : Bool → Party → Party} {ds : List Nat}
    (h : ∀ sl q, (∀ n ∈ ds, q.storePort n = none) → Party.WroteOnly (q.active sl) ds q (f sl q)) : WritesOnly f ds := by
  intro sl q hds
  obtain ⟨hun, hwarn, hrest⟩ := h sl q hds
  exact ⟨hun, hwarn, hrest⟩

theorem writesOnly_vecFloat (f : FTy → Word → FElem) (rounds : Bool) (t : FTy) (d a : VReg) (b : BOp) :
    WritesOnly (vecFloat f rounds t d a b) (floatDest t d) :=
  writesOnly_of fun sl q hds => ((Party.WroteOnly.refl (q.active sl) _ q).setFloat hds (floatDest_eq t d ▸ List.Subset.refl _) _).raise _

theorem writesOnly_vecApprox (g : Approx) (t : FTy) (d a : VReg) : WritesOnly (vecApprox g t d a) (floatDest t d) :=
  writesOnly_vecFloat (fun t mode _ x _ => approxElem g t mode x) false t d a (.lit 0)

theorem writesOnly_vecFscl (t : FTy) (d a : VReg) (b : BOp) : WritesOnly (vecFscl t d a b) (floatDest t d) :=
  writesOnly_of fun sl q hds => ((Party.WroteOnly.refl (q.active sl) _ q).setFloat hds (floatDest_eq t d ▸ List.Subset.refl _) _).raise _

theorem writesOnly_vecF2sum (wide : Bool) (d a : VReg) (b : BOp) :
    WritesOnly (vecF2sum wide d a b)
      (if wide then [d.toNat, d.toNat + 1, d.toNat + 2, d.toNat + 3] else [d.toNat, d.toNat + 1]) :=
  writesOnly_of fun sl q hds =>
    (((Party.WroteOnly.refl (q.active sl) _ q).setLaneV hds (laneDest_subset (by cases wide <;> simp) (by rintro rfl; simp)) _).setLaneV
      hds (laneDest_subset (by cases wide <;> simp) (by rintro rfl; simp)) _).raise _

theorem writesOnly_vecFrnd (t : FTy) (d a seed : VReg) : WritesOnly (vecFrnd t d a seed) (seed.toNat :: floatDest t d) := by
  refine writesOnly_of fun sl q hds => ?_
  have h := ((Party.WroteOnly.refl (q.active sl) _ q).setFloat (wide := t == .f64) (n := d.toNat) hds
    (floatDest_eq t d ▸ List.subset_cons_self _ _) fun l =>
      (frndLane t (q.mode sl) (q.laneV (t == .f64) a.toNat l) (q.getV seed.toNat l)).1).raise (q.modeRes sl)
  unfold vecFrnd
  split
  · exact h.setV hds List.mem_cons_self _
  · exact h

theorem writesOnly_vecFcvt (d a : VReg) (df sf : Cvt) (sat : Bool) :
    WritesOnly (vecFcvt d a df sf sat) (laneDest df.wide d.toNat) :=
  writesOnly_of fun sl q hds => ((Party.WroteOnly.refl (q.active sl) _ q).setFloat hds (List.Subset.refl _) _).raise _

theorem writesOnly_vecFcvtSr (d a seed : VReg) (df sf : Cvt) (sat : Bool) :
    WritesOnly (vecFcvtSr d a df sf sat seed) (seed.toNat :: laneDest df.wide d.toNat) := by
  refine writesOnly_of fun sl q hds => ?_
  unfold vecFcvtSr
  split
  · exact ((Party.WroteOnly.refl (q.active sl) _ q).setFloat hds (List.subset_cons_self _ _) _).setV hds List.mem_cons_self _
  · exact ((Party.WroteOnly.refl (q.active sl) _ q).setFloat hds (List.subset_cons_self _ _) _).raise _

theorem writesOnly_vecOsmx (choice : Nat → Nat) (d a b : VReg) :
    WritesOnly (vecOsmx choice d a b) [d.toNat, d.toNat + 1, b.toNat] :=
  writesOnly_of fun sl q hds =>
    ((((Party.WroteOnly.refl (q.active sl) _ q).setV hds (by simp) _).setV hds (by simp) _).setV hds (by simp) _).raise _

theorem writesOnly_vecOsms (choice : Nat → Nat) (d a : VReg) : WritesOnly (vecOsms choice d a) [d.toNat + 1] :=
  writesOnly_of fun sl q hds => ((Party.WroteOnly.refl (q.active sl) _ q).setV hds (by simp) _).raise _

/-- The 22 forms of R242 to R260. -/
theorem floatMeaning_spec {i : Instr} {f : Bool → Party → Party} {ds : List Nat} (h : floatMeaning i = some (f, ds)) :
    RegisterEffect i f ∧ WritesOnly f ds := by
  have of {i : Instr} {f g : Bool → Party → Party} {ds ds' : List Nat} (he : some (g, ds') = some (f, ds))
      (hi : ∀ s, exec i s = runRegs i s g) (hw : WritesOnly g ds') : RegisterEffect i f ∧ WritesOnly f ds := by
    cases he
    exact ⟨registerEffect_of_runRegs hi fun _ _ => rfl, hw⟩
  unfold floatMeaning at h
  split at h
  · exact of h (exec_vfadd _ _ _ _) (writesOnly_vecFloat _ _ _ _ _ _)
  · exact of h (exec_vfsub _ _ _ _) (writesOnly_vecFloat _ _ _ _ _ _)
  · exact of h (exec_vfmul _ _ _ _) (writesOnly_vecFloat _ _ _ _ _ _)
  · exact of h (exec_vfma _ _ _ _) (writesOnly_vecFloat _ _ _ _ _ _)
  · exact of h (exec_vfms _ _ _ _) (writesOnly_vecFloat _ _ _ _ _ _)
  · exact of h (exec_vfmin _ _ _ _) (writesOnly_vecFloat _ _ _ _ _ _)
  · exact of h (exec_vfmax _ _ _ _) (writesOnly_vecFloat _ _ _ _ _ _)
  · exact of h (exec_vfscl _ _ _ _) (writesOnly_vecFscl _ _ _ _)
  · exact of h (exec_vfexp _ _ _) (writesOnly_vecFloat _ _ _ _ _ _)
  · exact of h (exec_vfclass _ _ _) (writesOnly_vecFloat _ _ _ _ _ _)
  · exact of h (exec_vf2sum _ _ _ _) (writesOnly_vecF2sum _ _ _ _)
  · exact of h (exec_vfrnd _ _ _ _) (writesOnly_vecFrnd _ _ _ _)
  · exact of h (exec_vfcvt _ _ _ _ _) (writesOnly_vecFcvt _ _ _ _ _)
  · exact of h (exec_vfcvtSr _ _ _ _ _ _) (writesOnly_vecFcvtSr _ _ _ _ _ _)
  · exact of h (exec_vrcp _ _ _) (writesOnly_vecFloat _ _ _ _ _ _)
  · exact of h (exec_vsqrt _ _ _) (writesOnly_vecFloat _ _ _ _ _ _)
  · exact of h (exec_vrsq _ _ _) (writesOnly_vecApprox _ _ _ _)
  · exact of h (exec_vexp2 _ _ _) (writesOnly_vecApprox _ _ _ _)
  · exact of h (exec_vlog2 _ _ _) (writesOnly_vecApprox _ _ _ _)
  · exact of h (exec_vsin _ _ _) (writesOnly_vecApprox _ _ _ _)
  · exact of h (exec_vcos _ _ _) (writesOnly_vecApprox _ _ _ _)
  · exact of h (exec_vtanh _ _ _) (writesOnly_vecApprox _ _ _ _)
  · cases h

/-! ## The steps of the softmax (R261) -/

theorem exec_vosmx_of_issues {s s' : State} {w : Issuer} {t : Team} {q : Party} {d a b : VReg}
    (h : Issues (.vosmx d a b) s w t q s') :
    exec (.vosmx d a b) s = .next (s.after (.vosmx d a b) w
      (s'.useFree.modParty w.tid w.p (vecOsmx (Config.exp2sChoice s'.free) d a b w.sl))) := by
  rw [exec_vosmx, execVosmx, runParty_of_issues h, Effect.unstuck_done (by simpa using h.calm)]
  rfl

theorem exec_vosms_of_issues {s s' : State} {w : Issuer} {t : Team} {q : Party} {d a : VReg}
    (h : Issues (.vosms d a) s w t q s') :
    exec (.vosms d a) s = .next (s.after (.vosms d a) w
      (s'.useFree.modParty w.tid w.p (vecOsms (Config.exp2sChoice s'.free) d a w.sl))) := by
  rw [exec_vosms, execVosms, runParty_of_issues h, Effect.unstuck_done (by simpa using h.calm)]
  rfl

end Sys2Proof.Machine

/-!
PROOFS. The lanes of the floating-point instructions (O27): their elements, conversions and seeds.
-/

namespace Sys2Proof.Machine

open Sys2Proof

/-! ## A lane of a register or of a pair -/

/-- The bits that a lane holds of an operand. -/
def laneBits (wide : Bool) : Nat := if wide then 64 else 32

theorem mem_laneDest {wide : Bool} {n k : Nat} : k ∈ laneDest wide n ↔ k = n ∨ wide = true ∧ k = n + 1 := by
  cases wide <;> simp [laneDest]

section

variable {q : Party} {wide : Bool} {n l : Nat} {m : Mask}

theorem Party.laneV_setLaneV (h : ∀ k ∈ laneDest wide n, q.storePort k = none) (hl : l < 96) (hm : inMask m l = true)
    (f : Nat → Nat) : (q.setLaneV wide n m f).laneV wide n l = f l % 2 ^ laneBits wide := by
  cases wide with
  | false =>
    have hword : (q.setV n m fun l => BitVec.ofNat 32 (f l)).getV n l = BitVec.ofNat 32 (f l) := by
      rw [Party.getV_setV_self _ _ _ (h n (by simp [laneDest])) hl, if_pos hm]
    exact (congrArg BitVec.toNat hword).trans (BitVec.toNat_ofNat _ _)
  | true =>
    have hpair := Party.pairV_setPairV_self (fun l => BitVec.ofNat 64 (f l)) (h n (by simp [laneDest])) (h (n + 1) (by simp [laneDest]))
      hl hm
    exact (congrArg BitVec.toNat hpair).trans (BitVec.toNat_ofNat _ _)

theorem Party.laneV_setFloat (h : ∀ k ∈ laneDest wide n, q.storePort k = none) (hl : l < 96) (hm : inMask m l = true)
    (f : Nat → Nat × Word) : (q.setFloat wide n m f).laneV wide n l = (f l).1 % 2 ^ laneBits wide :=
  Party.laneV_setLaneV h hl hm _

theorem Party.laneV_setV_of_notMem {k : Nat} (f : Nat → Word) (h : q.storePort k = none) (hl : l < 96) (hk : k ∉ laneDest wide n) :
    (q.setV k m f).laneV wide n l = q.laneV wide n l := by
  rw [mem_laneDest, not_or] at hk
  obtain ⟨hne, hne'⟩ := hk
  cases wide with
  | false => exact congrArg BitVec.toNat (Party.getV_setV_ne _ _ _ h (Ne.symm hne) hl)
  | true =>
    have hhigh := q.getV_setV_ne m f h (show n + 1 ≠ k from fun he => hne' ⟨rfl, he.symm⟩) hl
    simp only [Party.laneV, Party.pairV, if_true, hhigh, Party.getV_setV_ne _ _ _ h (Ne.symm hne) hl]

theorem Party.warn_setFloat (h : ∀ k ∈ laneDest wide n, q.storePort k = none) (f : Nat → Nat × Word) (k : Nat) :
    (q.setFloat wide n m f).warn.getLsbD k = (q.warn.getLsbD k || (maskLanes m).any fun l => (f l).2.getLsbD k) := by
  have hwarn : (q.setLaneV wide n m fun l => (f l).1).warn = q.warn := by
    have hone (q : Party) (g : Nat → Word) (n : Nat) (hp : q.storePort n = none) : (q.setV n m g).warn = q.warn := by
      rw [Party.setV_register m g hp]
    cases wide with
    | false => exact hone q _ n (h n (by simp [laneDest]))
    | true =>
      refine (hone _ _ (n + 1) ?_).trans (hone q _ n (h n (by simp [laneDest])))
      exact (Party.storePort_setV _ (h n (by simp [laneDest])) _).trans (h _ (by simp [laneDest]))
  rw [Party.setFloat, Party.raise, hwarn, BitVec.getLsbD_or, flagsOf, getLsbD_foldl_or]
  simp

end

theorem Party.laneV_lt_of_narrow (q : Party) {wide : Bool} (h : wide = false) (n l : Nat) : q.laneV wide n l < 2 ^ 32 := by
  subst h
  exact q.laneV_narrow_lt n l

theorem Party.bF_lt_of_narrow (q : Party) {wide : Bool} (h : wide = false) (b : BOp) (l : Nat) : q.bF wide b l < 2 ^ 32 := by
  subst h
  exact q.bF_narrow_lt b l

/-! ## The elements of a lane's result (R242) -/

/-- A lane's result, from those of its elements. -/
def packElems (t : FTy) (e : Nat → Nat × Word) : Nat × Word :=
  match t with
  | .f32 | .f64 => e 0
  | _ => ((e 0).1 + 2 ^ 16 * (e 1).1, (e 0).2 ||| (e 1).2)

section

variable {t : FTy} {e : Nat → Nat × Word}

theorem packElems_mod (h : ∀ j ∈ elemsOf t, (e j).1 < 2 ^ ftyWidth t) :
    (packElems t e).1 % 2 ^ laneBits (t == .f64) = (packElems t e).1 := by
  refine Nat.mod_eq_of_lt ?_
  cases t with
  | f32 | f64 => exact h 0 (List.mem_singleton_self 0)
  | bf16 | f16 =>
    have h0 : (e 0).1 < 2 ^ 16 := h 0 (by simp [elemsOf])
    have h1 : (e 1).1 < 2 ^ 16 := h 1 (by simp [elemsOf])
    change (e 0).1 + 2 ^ 16 * (e 1).1 < 2 ^ 32
    omega

theorem floatElem_packElems (h : ∀ j ∈ elemsOf t, (e j).1 < 2 ^ ftyWidth t) {k : Nat} (hk : k ∈ elemsOf t) :
    floatElem t (packElems t e).1 k = (e k).1 := by
  cases t with
  | f32 | f64 =>
    rw [List.mem_singleton.1 hk]
    rfl
  | bf16 | f16 =>
    have h0 : (e 0).1 < 2 ^ 16 := h 0 (by simp [elemsOf])
    have h1 : (e 1).1 < 2 ^ 16 := h 1 (by simp [elemsOf])
    simp only [elemsOf, List.mem_cons, List.not_mem_nil, or_false] at hk
    rcases hk with rfl | rfl <;> simp only [floatElem, packElems] <;> omega

theorem getLsbD_packElems (n : Nat) : (packElems t e).2.getLsbD n = (elemsOf t).any fun k => (e k).2.getLsbD n := by
  cases t <;> simp [packElems, elemsOf]

theorem floatLane_eq_packElems (f : FElem) {d a b : Nat} (hd : (t == .f64) = false → d < 2 ^ 32)
    (ha : (t == .f64) = false → a < 2 ^ 32) (hb : (t == .f64) = false → b < 2 ^ 32) :
    floatLane t f d a b = packElems t fun k => f (floatElem t d k) (floatElem t a k) (floatElem t b k) := by
  rcases elemsOf_cases t with ⟨ht, rfl | rfl⟩ | ⟨ht, h32, h64⟩
  · rfl
  · rfl
  · have hn : (t == .f64) = false := beq_false_of_ne h64
    rw [floatLane_packed ht f (hd hn) (ha hn) (hb hn)]
    cases t with
    | f32 => exact absurd rfl h32
    | f64 => exact absurd rfl h64
    | bf16 | f16 => rfl

end

/-- RND 6 and 7 are the reserved modes (R90, R244). -/
theorem getLsbD_modeRes (q : Party) (sl : Bool) (n : Nat) :
    (q.modeRes sl).getLsbD n = (decide (6 ≤ (q.mode sl).toNat % 8) && q.active sl != 0 && decide (n = 8)) := by
  have hrnd : (fld (q.mode sl) 0 3).toNat = (q.mode sl).toNat % 8 := by simp [fld]
  have hbit : wMODERES.getLsbD n = decide (n = 8) := by
    rw [show wMODERES = BitVec.twoPow 32 8 from rfl, BitVec.getLsbD_twoPow]
    simp [eq_comm]
  rw [Party.modeRes, rndReserved, hrnd, ← hbit]
  cases (decide (6 ≤ (q.mode sl).toNat % 8) && q.active sl != 0) <;> simp [when]

/-- Each element of an active lane is computed from those in its place, and the flags of all are raised. -/
theorem vecFloat_lanes (f : FTy → Word → FElem) (rounds : Bool) (t : FTy) (d a : VReg) (b : BOp) (sl : Bool) (q : Party)
    (hd : ∀ n ∈ floatDest t d, q.storePort n = none) :
    let wide := t == .f64
    let q' := vecFloat f rounds t d a b sl q
    let r (l k : Nat) := f t (q.mode sl) (floatElem t (q.laneV wide d.toNat l) k) (floatElem t (q.laneV wide a.toNat l) k)
      (floatElem t (q.bF wide b l) k)
    (∀ l k, l < 96 → inMask (q.active sl) l = true → k ∈ elemsOf t → (∀ j ∈ elemsOf t, (r l j).1 < 2 ^ ftyWidth t) →
      floatElem t (q'.laneV wide d.toNat l) k = (r l k).1) ∧
    ∀ n, q'.warn.getLsbD n = (q.warn.getLsbD n ||
      ((maskLanes (q.active sl)).any fun l => (elemsOf t).any fun k => (r l k).2.getLsbD n) ||
      (rounds && decide (6 ≤ (q.mode sl).toNat % 8) && q.active sl != 0 && decide (n = 8))) := by
  intro wide q' r
  rw [floatDest_eq] at hd
  have hlane (l : Nat) : floatLane t (f t (q.mode sl)) (q.laneV wide d.toNat l) (q.laneV wide a.toNat l) (q.bF wide b l) =
      packElems t (r l) :=
    floatLane_eq_packElems _ (fun hn => q.laneV_lt_of_narrow hn _ _) (fun hn => q.laneV_lt_of_narrow hn _ _)
      fun hn => q.bF_lt_of_narrow hn _ _
  refine ⟨fun l k hl hm hk hr => ?_, fun n => ?_⟩
  · have hheld : q'.laneV wide d.toNat l = (packElems t (r l)).1 :=
      (Party.laneV_setFloat hd hl hm _).trans ((congrArg (·.1 % 2 ^ laneBits wide) (hlane l)).trans (packElems_mod hr))
    rw [hheld, floatElem_packElems hr hk]
  · have hres : (if rounds then q.modeRes sl else 0).getLsbD n =
        (rounds && decide (6 ≤ (q.mode sl).toNat % 8) && q.active sl != 0 && decide (n = 8)) := by
      cases rounds with
      | false => simp
      | true => rw [if_pos rfl, getLsbD_modeRes, Bool.true_and]
    have hwarn := Party.warn_setFloat (m := q.active sl) hd
      (fun l => floatLane t (f t (q.mode sl)) (q.laneV wide d.toNat l) (q.laneV wide a.toNat l) (q.bF wide b l)) n
    refine BitVec.getLsbD_or.trans (congrArg₂ or (hwarn.trans ?_) hres)
    simp only [hlane, getLsbD_packElems]

/-! ## Literals of FP64 (R243) -/

theorem sameNum_widenLit (w : Word) (h : (fmtFp32.unpack w.toNat).isNan = false) :
    SameNum (fmtFp64.unpack (widenLit w)) (fmtFp32.unpack w.toNat) := by
  unfold widenLit
  cases hu : fmtFp32.unpack w.toNat with
  | nan s n =>
    rw [hu] at h
    cases h
  | inf n =>
    have hm : w.toNat % 2 ^ 23 = 0 := FloatFmt.mantissa_of_unpack_inf hu
    have hcode : fmtFp64.unpack (fmtFp64.code n 2047 0) = .inf n := FloatFmt.unpack_infCode rfl n
    simp only [hm, Nat.zero_mul, Num.neg, hcode]
    exact sameNum_refl rfl
  | fin n m e =>
    have hholds := holds_fp64_of_fp32 (regular_fp32.holds_of_unpack hu)
    obtain ⟨⟨-, m', e', hu', hval⟩, -⟩ :=
      roundFloat_of_onGrid (ftyFmt_standard .f64).regular (hholds.onGrid n) hholds.max .rne false
    rw [show fmtFp64 = ftyFmt .f64 from rfl, hu']
    exact ⟨rfl, rfl, congrArg Real.toEReal hval, rfl⟩

/-! ## Conversions (R256, R257) -/

theorem spread_mod {c : Cvt} {y : Nat} (h : y < 2 ^ c.width) :
    spread c y % 2 ^ laneBits c.wide =
      if c ∈ [Cvt.i16, .int8, .int4] ∧ 2 ^ (c.width - 1) ≤ y then 2 ^ 32 - 2 ^ c.width + y else y := by
  have signed (n : Nat) (hn : n = 16 ∨ n = 8 ∨ n = 4) (hy : y < 2 ^ n) :
      intBits 32 (sextNat n y) % 2 ^ 32 = if 2 ^ (n - 1) ≤ y then 2 ^ 32 - 2 ^ n + y else y := by
    simp only [intBits, sextNat, Nat.mod_eq_of_lt hy]
    rcases hn with rfl | rfl | rfl <;> split_ifs <;> norm_num at * <;> omega
  cases c
  case i16 => exact (signed 16 (by simp) h).trans (if_congr (and_iff_right (by simp)).symm rfl rfl)
  case int8 => exact (signed 8 (by simp) h).trans (if_congr (and_iff_right (by simp)).symm rfl rfl)
  case int4 => exact (signed 4 (by simp) h).trans (if_congr (and_iff_right (by simp)).symm rfl rfl)
  all_goals
    rw [if_neg (by simp)]
    exact Nat.mod_eq_of_lt (h.trans_le (by decide))

theorem rndIsSr_iff (mode : Word) : rndIsSr mode = true ↔ mode.toNat % 8 = 5 := by
  have hrnd : (fld mode 0 3).toNat = mode.toNat % 8 := by simp [fld]
  rw [rndIsSr, beq_iff_eq, ← BitVec.toNat_inj, hrnd]
  rfl

theorem drawOf_eq (seed : Word) : drawOf seed = seed.toNat / 2 ^ 8 := by simp [drawOf, Nat.shiftRight_eq_div_pow]

/-- What a conversion leaves in an active lane. -/
theorem laneV_convert {q : Party} {m : Mask} {df sf : Cvt} {d : Nat} (hd : ∀ k ∈ laneDest df.wide d, q.storePort k = none)
    (sat : Bool) (mode : Word) (rnd : Nat → Rnd) (x : Nat → Nat) {l : Nat} (hl : l < 96) (hm : inMask m l = true)
    (hy : (convert sf df ⟨rnd l, mode.getLsbD 4, mode.getLsbD 5⟩ sat (x l)).1 < 2 ^ df.width) :
    let y := (convert sf df ⟨rnd l, mode.getLsbD 4, mode.getLsbD 5⟩ sat (x l)).1
    (q.setFloat df.wide d m fun l => cvtElem df sf sat mode (rnd l) (x l)).laneV df.wide d l =
      if df ∈ [Cvt.i16, .int8, .int4] ∧ 2 ^ (df.width - 1) ≤ y then 2 ^ 32 - 2 ^ df.width + y else y :=
  (Party.laneV_setFloat hd hl hm _).trans (spread_mod hy)

/-! ## Seeds (R91, R253) -/

/-- The seed of a lane after it has advanced for an element. -/
def drawnSeed (seed : Word) (k : Nat) : Word := advanceSeed (if k = 0 then seed else advanceSeed seed)

/-- The rounding of a lane's element under vfrnd. -/
def frndMode (mode seed : Word) (k : Nat) : Rnd :=
  if mode.toNat % 8 = 5 then .sr ((drawnSeed seed k).toNat / 2 ^ 8) else rndOf mode

theorem frndLane_eq {t : FTy} (mode : Word) {x : Nat} (hx : (t == .f64) = false → x < 2 ^ 32) (seed : Word) :
    frndLane t mode x seed =
      (packElems t fun k => frnd t mode (frndMode mode seed k) (floatElem t x k),
        if mode.toNat % 8 = 5 then drawnSeed seed ((elemsOf t).length - 1) else seed) := by
  unfold frndLane frndMode
  by_cases hsr : mode.toNat % 8 = 5
  · simp only [(rndIsSr_iff mode).2 hsr, hsr, if_true, ← drawOf_eq]
    cases t with
    | f32 | f64 => rfl
    | bf16 | f16 =>
      have hhigh : x / 2 ^ 16 % 2 ^ 16 = x / 2 ^ 16 := Nat.mod_eq_of_lt (by have := hx rfl; omega)
      have hlow : x / 2 ^ (16 * 0) % 2 ^ 16 = x % 2 ^ 16 := by simp
      simp only [packElems, floatElem, drawnSeed, hlow, Nat.mul_one, hhigh]
      rfl
  · simp only [Bool.eq_false_iff.2 (mt (rndIsSr_iff mode).1 hsr), hsr, if_false, Bool.false_eq_true]
    rw [floatLane_eq_packElems _ (fun _ => by decide) hx fun _ => by decide]

theorem vecFrnd_lanes (t : FTy) (d a seed : VReg) (sl : Bool) (q : Party) (hd : ∀ n ∈ floatDest t d, q.storePort n = none)
    (hseed : q.storePort seed.toNat = none) (hne : seed.toNat ∉ floatDest t d) {l : Nat} (hl : l < 96)
    (hm : inMask (q.active sl) l = true) :
    let wide := t == .f64
    let q' := vecFrnd t d a seed sl q
    let r (k : Nat) := frnd t (q.mode sl) (frndMode (q.mode sl) (q.getV seed.toNat l) k) (floatElem t (q.laneV wide a.toNat l) k)
    (∀ k, k ∈ elemsOf t → (∀ j ∈ elemsOf t, (r j).1 < 2 ^ ftyWidth t) → floatElem t (q'.laneV wide d.toNat l) k = (r k).1) ∧
      q'.getV seed.toNat l =
        if (q.mode sl).toNat % 8 = 5 then drawnSeed (q.getV seed.toNat l) ((elemsOf t).length - 1) else q.getV seed.toNat l := by
  intro wide q' r
  rw [floatDest_eq] at hd hne
  have hlane (l : Nat) := frndLane_eq (q.mode sl) (fun hn => q.laneV_lt_of_narrow (wide := t == .f64) hn a.toNat l) (q.getV seed.toNat l)
  let q1 := (q.setFloat wide d.toNat (q.active sl) fun l =>
    (frndLane t (q.mode sl) (q.laneV wide a.toNat l) (q.getV seed.toNat l)).1).raise (q.modeRes sl)
  have hwrote : Party.WroteOnly (q.active sl) (laneDest wide d.toNat) q q1 :=
    ((Party.WroteOnly.refl _ _ q).setFloat hd (List.Subset.refl _) _).raise _
  have hport : q1.storePort seed.toNat = none := (hwrote.storePort_eq _).trans hseed
  have hq' : q' = if (q.mode sl).toNat % 8 = 5 then
      q1.setV seed.toNat (q.active sl) fun l => (frndLane t (q.mode sl) (q.laneV wide a.toNat l) (q.getV seed.toNat l)).2 else q1 :=
    if_congr (rndIsSr_iff _) rfl rfl
  have hheld : q'.laneV wide d.toNat l = q1.laneV wide d.toNat l := by
    rw [hq']
    split
    · exact Party.laneV_setV_of_notMem _ hport hl hne
    · rfl
  refine ⟨fun k hk hr => ?_, ?_⟩
  · have hpack : q1.laneV wide d.toNat l = (packElems t r).1 :=
      (Party.laneV_setFloat hd hl hm _).trans
        ((congrArg (·.1.1 % 2 ^ laneBits wide) (hlane l)).trans (packElems_mod hr))
    rw [hheld, hpack, floatElem_packElems hr hk]
  · rw [hq']
    split
    · next hsr => rw [Party.getV_setV_self _ _ _ hport hl, if_pos hm, hlane l, if_pos hsr]
    · exact hwrote.unwritten _ _ hl (.inl hne)

theorem vecFcvtSr_lanes (d a seed : VReg) (df sf : Cvt) (sat sl : Bool) (q : Party)
    (hd : ∀ k ∈ laneDest df.wide d.toNat, q.storePort k = none) (hseed : q.storePort seed.toNat = none)
    (hne : seed.toNat ∉ laneDest df.wide d.toNat) (hsr : (q.mode sl).toNat % 8 = 5) {l : Nat} (hl : l < 96)
    (hm : inMask (q.active sl) l = true) :
    let next (l : Nat) := advanceSeed (q.getV seed.toNat l)
    (vecFcvtSr d a df sf sat seed sl q).getV seed.toNat l = next l ∧
      (vecFcvtSr d a df sf sat seed sl q).laneV df.wide d.toNat l =
        (q.setFloat df.wide d.toNat (q.active sl) fun l =>
          cvtElem df sf sat (q.mode sl) (.sr ((next l).toNat / 2 ^ 8)) (q.laneV sf.wide a.toNat l)).laneV df.wide d.toNat l := by
  intro next
  have hport := (((Party.WroteOnly.refl (q.active sl) _ q).setFloat hd (List.Subset.refl _) fun l =>
    cvtElem df sf sat (q.mode sl) (.sr (drawOf (next l))) (q.laneV sf.wide a.toNat l)).storePort_eq seed.toNat).trans hseed
  have heq : vecFcvtSr d a df sf sat seed sl q = _ := if_pos ((rndIsSr_iff (q.mode sl)).2 hsr)
  rw [heq, Party.getV_setV_self _ _ _ hport hl, if_pos hm, Party.laneV_setV_of_notMem _ hport hl hne]
  simp only [drawOf_eq, next, and_self]

theorem vecFcvtSr_of_not_sr (d a seed : VReg) (df sf : Cvt) (sat sl : Bool) (q : Party) (hsr : ¬(q.mode sl).toNat % 8 = 5) :
    vecFcvtSr d a df sf sat seed sl q = vecFcvt d a df sf sat sl q :=
  if_neg (mt (rndIsSr_iff _).1 hsr)

theorem floatLanes : FloatLanes := by
  refine ⟨fun f rounds t d a b sl q _ hd => vecFloat_lanes f rounds t d a b sl q hd, sameNum_widenLit,
    fun d a seed df sf sat sl q _ hd hd' hseed hne hne' => ?_, fun t d a seed sl q _ hd hseed hne => ?_, fun _ => rfl⟩
  · intro sr next r held l hl hm
    have hports : ∀ k ∈ laneDest df.wide d.toNat, q.storePort k = none := fun k hk =>
      (mem_laneDest.1 hk).elim (fun h => h ▸ hd) fun h => h.2 ▸ hd' h.1
    have hmem : seed.toNat ∉ laneDest df.wide d.toNat := fun hk =>
      (mem_laneDest.1 hk).elim (fun h => hne (BitVec.eq_of_toNat_eq h)) fun h => hne' h.1 h.2
    refine ⟨fun hy => laneV_convert hports sat (q.mode sl) (fun _ => rndOf (q.mode sl)) _ hl hm hy,
      vecFcvtSr_of_not_sr d a seed df sf sat sl q, fun hsr => ?_⟩
    obtain ⟨hseed', hlane⟩ := vecFcvtSr_lanes d a seed df sf sat sl q hports hseed hmem hsr hl hm
    exact ⟨hseed', fun hy => hlane.trans
      (laneV_convert hports sat (q.mode sl) (fun l => .sr ((next l).toNat / 2 ^ 8)) _ hl hm hy)⟩
  · intro sr wide q' drawn r l hl hm
    obtain ⟨helem, hseed'⟩ := vecFrnd_lanes t d a seed sl q hd hseed hne hl hm
    exact ⟨helem, fun hsr => hseed'.trans (if_pos hsr), fun hsr => hseed'.trans (if_neg hsr)⟩

/-- Settles O27: each form by the registers that it writes, each lane by its elements. -/
theorem floatInstructions : Obligations.FloatInstructions :=
  ⟨fun _ _ _ h => floatMeaning_spec h, fun _ _ _ _ _ _ _ _ h => ⟨_, exec_vosmx_of_issues h⟩,
    fun _ _ _ _ _ _ _ h => ⟨_, exec_vosms_of_issues h⟩,
    fun choice d a b => ⟨writesOnly_vecOsmx choice d a b, writesOnly_vecOsms choice d a⟩, floatLanes⟩

end Sys2Proof.Machine

/-!
PROOFS. The element functions of the floating-point instructions (O29), up to vfexp: exact sums and products, their delivery, the
smaller and the larger, classes and exponents.
-/

namespace Sys2Proof.Machine

open Sys2Proof

/-! ## Exact sums and products (R245, R246) -/

section

variable {a b : Num} {down : Bool}

theorem addNum_of_nan (down : Bool) (h : a.isNan = true ∨ b.isNan = true) :
    addNum down a b = (.nan false false, when (a.isSig || b.isSig) wINV) := by
  cases a with
  | nan s n => rfl
  | inf n | fin n m e =>
    cases b with
    | nan s k => simp [addNum, Num.isSig]
    | inf k | fin k c h' => simp [Num.isNan] at h

theorem mulNum_of_nan (h : a.isNan = true ∨ b.isNan = true) :
    mulNum a b = (.nan false false, when (a.isSig || b.isSig) wINV) := by
  cases a with
  | nan s n => rfl
  | inf n | fin n m e =>
    cases b with
    | nan s k => simp [mulNum, Num.isSig]
    | inf k | fin k c h' => simp [Num.isNan] at h

theorem addNum_of_opposite (down n : Bool) : addNum down (.inf n) (.inf (!n)) = (.nan false false, wINV) := by
  cases n <;> rfl

theorem addNum_of_inf (down : Bool) {n : Bool} (ha : a.isNan = false) (hb : b.isNan = false) (h : a = .inf n ∨ b = .inf n)
    (ha' : a ≠ .inf (!n)) (hb' : b ≠ .inf (!n)) : addNum down a b = (.inf n, 0) := by
  cases a with
  | nan s k => cases ha
  | inf k =>
    obtain rfl : k = n := by simpa using ha'
    cases b with
    | nan s c => cases hb
    | inf c =>
      obtain rfl : c = k := by simpa using hb'
      simp [addNum]
    | fin c m e => rfl
  | fin k m e =>
    obtain rfl : b = .inf n := h.resolve_left (by simp)
    rfl

theorem mulNum_of_invalid (ha : a.isNan = false) (hb : b.isNan = false)
    (h : (∃ n, a = .inf n) ∧ b.isZero = true ∨ (∃ n, b = .inf n) ∧ a.isZero = true) :
    mulNum a b = (.nan false false, wINV) := by
  rcases h with ⟨⟨n, rfl⟩, hz⟩ | ⟨⟨n, rfl⟩, hz⟩
  · cases b with
    | nan s k => cases hb
    | inf k => cases hz
    | fin k m e => exact if_pos hz
  · cases a with
    | nan s k => cases ha
    | inf k => cases hz
    | fin k m e => exact if_pos hz

theorem mulNum_of_inf (ha : a.isNan = false) (hb : b.isNan = false)
    (h : (∃ n, a = .inf n) ∧ b.isZero = false ∨ (∃ n, b = .inf n) ∧ a.isZero = false) :
    mulNum a b = (.inf (a.neg != b.neg), 0) := by
  rcases h with ⟨⟨n, rfl⟩, hz⟩ | ⟨⟨n, rfl⟩, hz⟩
  · cases b with
    | nan s k => cases hb
    | inf k => rfl
    | fin k m e => exact if_neg (by simp [hz])
  · cases a with
    | nan s k => cases ha
    | inf k => rfl
    | fin k m e => exact (if_neg (by simp [hz])).trans (congrArg (fun c => (Num.inf c, 0)) (bne_comm ..))

/-- The sum of two finite numbers is a multiple of the lower of their powers of two. -/
theorem addNum_fin (down na : Bool) (ma : Nat) (ea : Int) (nb : Bool) (mb : Nat) (eb : Int) :
    ∃ v : Int, (v : ℝ) * 2 ^ min ea eb = ratOf (.fin na ma ea) + ratOf (.fin nb mb eb) ∧
      addNum down (.fin na ma ea) (.fin nb mb eb) = (ofScaled (down || (ma == 0 && mb == 0 && na && nb)) v (min ea eb), 0) := by
  refine ⟨scaled (min ea eb) (.fin na ma ea) + scaled (min ea eb) (.fin nb mb eb), ?_, rfl⟩
  rw [ratOf_eq_scaled na ma (min_le_left ea eb), ratOf_eq_scaled nb mb (min_le_right ea eb)]
  push_cast
  ring

/-- A multiple of a power of two as a number: nonzero as it is, or the zero with the sign given. -/
theorem ofScaled_spec (zneg : Bool) (v e : Int) :
    ∃ n m e', ofScaled zneg v e = .fin n m e' ∧ ratOf (.fin n m e') = v * 2 ^ e ∧ (v = 0 → n = zneg ∧ m = 0) ∧
      (v ≠ 0 → m ≠ 0 ∧ e' = e) := by
  by_cases hv : v = 0
  · exact ⟨zneg, 0, 0, if_pos hv, by simp [ratOf, hv], fun _ => ⟨rfl, rfl⟩, fun h => absurd hv h⟩
  · obtain ⟨m, hm, heq, hval⟩ := ratOf_ofScaled zneg hv e
    exact ⟨_, m, e, heq, hval, fun h => absurd h hv, fun _ => ⟨hm, rfl⟩⟩

theorem addNum_fin_spec (down na : Bool) (ma : Nat) (ea : Int) (nb : Bool) (mb : Nat) (eb : Int) :
    let s := addNum down (.fin na ma ea) (.fin nb mb eb)
    ∃ n m e, s = (.fin n m e, 0) ∧ ratOf s.1 = ratOf (.fin na ma ea) + ratOf (.fin nb mb eb) ∧
      (ratOf s.1 = 0 → n = (down || (ma == 0 && mb == 0 && na && nb))) := by
  obtain ⟨v, hv, hs⟩ := addNum_fin down na ma ea nb mb eb
  obtain ⟨n, m, e, hfin, hval, hzero, -⟩ := ofScaled_spec (down || (ma == 0 && mb == 0 && na && nb)) v (min ea eb)
  rw [hs, hfin]
  refine ⟨n, m, e, rfl, hval.trans hv, fun h0 => (hzero ?_).1⟩
  have h0' := hval.symm.trans h0
  rw [mul_eq_zero, Int.cast_eq_zero] at h0'
  exact h0'.resolve_right (by positivity)

theorem mulNum_fin (na : Bool) (ma : Nat) (ea : Int) (nb : Bool) (mb : Nat) (eb : Int) :
    mulNum (.fin na ma ea) (.fin nb mb eb) = (.fin (na != nb) (ma * mb) (ea + eb), 0) ∧
      ratOf (.fin (na != nb) (ma * mb) (ea + eb)) = ratOf (.fin na ma ea) * ratOf (.fin nb mb eb) := by
  refine ⟨rfl, ?_⟩
  have hsign : signFactor (na != nb) = signFactor na * signFactor nb := by cases na <;> cases nb <;> simp
  rw [ratOf_fin, ratOf_fin, ratOf_fin, hsign, zpow_add₀ two_ne_zero]
  push_cast
  ring

end

/-! ## Delivery (R95, R244) -/

theorem delivers_roundFloat {f : FloatFmt} (hf : f.Standard) (r : Rnd) (fout : Bool) (x : Num) (g : Word) :
    Delivers f r fout x g ((roundFloat f r fout false x).1, g ||| (roundFloat f r fout false x).2) := by
  refine ⟨fun sig neg hx => ?_, fun neg hx => ?_, fun neg e hx => ?_, fun neg m e hx hm => ?_⟩ <;> subst hx
  · rw [roundFloat_nan (by simp [hf.ieee]), nanCode_false]
  · rw [roundFloat_inf_ieee hf.ieee]
    exact ⟨FloatFmt.unpack_infCode hf.ieee neg, FloatFmt.code_lt (Nat.sub_lt (Nat.two_pow_pos _) one_pos) (Nat.two_pow_pos _),
      BitVec.or_zero⟩
  · exact ⟨hf.regular.isCode_zero neg, BitVec.or_zero⟩
  · exact ⟨_, roundsTo_roundFinite hf.regular hm e r fout false neg, by rw [roundFloat_fin, if_neg hm]⟩

/-- An element's delivery is one rounding under the mode. -/
theorem outF_eq (t : FTy) (mode : Word) (x : Num) (g : Word) :
    outF t mode (x, g) = ((roundFloat (ftyFmt t) (rndOf mode) (mode.getLsbD 5) false x).1,
      g ||| (roundFloat (ftyFmt t) (rndOf mode) (mode.getLsbD 5) false x).2) := by
  have hne : ftyCvt t ≠ .f19 := by cases t <;> simp [ftyCvt]
  simp only [outF, roundTo, ftyCvt_float, ftyCvt_flushes, FEnv.ofMode, hne, if_false, Bool.and_true, Bool.false_and]

theorem delivers_outF (t : FTy) (mode : Word) (x : Num) (g : Word) :
    Delivers (ftyFmt t) (rndOf mode) (mode.getLsbD 5) x g (outF t mode (x, g)) := by
  rw [outF_eq]
  exact delivers_roundFloat (ftyFmt_standard t) _ _ x g

/-- A nonzero number delivered with no flag of its own. -/
theorem outF_fin (t : FTy) (mode : Word) (neg : Bool) {m : Nat} (hm : m ≠ 0) (e : Int) :
    outF t mode (.fin neg m e, 0) = roundFinite (ftyFmt t) (rndOf mode) (mode.getLsbD 5) false neg m e := by
  rw [outF_eq, roundFloat_fin, if_neg hm]
  exact Prod.ext rfl BitVec.zero_or

theorem outF_zero (t : FTy) (mode : Word) (neg : Bool) (e : Int) :
    IsCode (ftyFmt t) neg 0 (outF t mode (.fin neg 0 e, 0)).1 ∧ (outF t mode (.fin neg 0 e, 0)).2 = 0 := by
  rw [outF_eq]
  exact ⟨(ftyFmt_standard t).regular.isCode_zero neg, BitVec.or_zero⟩

/-! ## Elements after input flushing (R92) -/

/-- An element is the number of its bits, or the zero that a subnormal becomes. -/
theorem inF_cases (t : FTy) (mode : Word) (x : Nat) :
    inF t mode x = (ftyFmt t).unpack x ∨
      ∃ neg m e, (ftyFmt t).unpack x = .fin neg m e ∧ m ≠ 0 ∧ inF t mode x = .fin neg 0 0 := by
  rw [inF, ftyCvt_unpack]
  cases hu : (ftyFmt t).unpack x with
  | nan s n => exact .inl (flushIn_of_not_fin _ _ (by simp))
  | inf n => exact .inl (flushIn_of_not_fin _ _ (by simp))
  | fin n m e =>
    obtain ⟨hflushed, hkept⟩ := flushIn_fin (ftyCvt_float t) (FEnv.ofMode mode).fin n m e
    by_cases h : Flushed (ftyCvt t) (ftyFmt t) (FEnv.ofMode mode).fin n m e
    · have ⟨_, _, hm, _⟩ := h
      exact .inr ⟨n, m, e, rfl, hm, hflushed h⟩
    · exact .inl (hkept h)

theorem unpack_of_inF_ne_zero {t : FTy} {mode : Word} {x : Nat} {neg : Bool} {m : Nat} {e : Int} (h : inF t mode x = .fin neg m e)
    (hm : m ≠ 0) : (ftyFmt t).unpack x = .fin neg m e := by
  rcases inF_cases t mode x with h' | ⟨n, k, c, -, -, h'⟩
  · exact h'.symm.trans h
  · rw [h'] at h
    cases h
    exact absurd rfl hm

theorem holds_of_inF {t : FTy} {mode : Word} {x : Nat} {neg : Bool} {m : Nat} {e : Int} (h : inF t mode x = .fin neg m e)
    (hm : m ≠ 0) : (ftyFmt t).Holds m e :=
  (ftyFmt_standard t).regular.holds_of_unpack (unpack_of_inF_ne_zero h hm)

/-! ## The smaller and the larger (R247) -/

theorem flushBits_eq {t : FTy} {mode : Word} {x : Nat} (h : inF t mode x = (ftyFmt t).unpack x) : flushBits t mode x = x := by
  unfold flushBits
  rw [ftyCvt_unpack, h]
  cases (ftyFmt t).unpack x with
  | nan s n => rfl
  | inf n => rfl
  | fin n m e => exact if_neg fun hm => hm.1 hm.2

theorem flushBits_of_flushed {t : FTy} {mode : Word} {x : Nat} {neg : Bool} {m : Nat} {e : Int}
    (hu : (ftyFmt t).unpack x = .fin neg m e) (hm : m ≠ 0) (h : inF t mode x = .fin neg 0 0) :
    flushBits t mode x = (ftyFmt t).code neg 0 0 := by
  unfold flushBits
  rw [ftyCvt_unpack, h, hu]
  exact if_pos ⟨hm, rfl⟩

/-- The bits of an element after flushing stand for its number. -/
theorem sameNum_flushBits {t : FTy} {mode : Word} {x : Nat} (h : (inF t mode x).isNan = false) :
    SameNum ((ftyFmt t).unpack (flushBits t mode x)) (inF t mode x) := by
  rcases inF_cases t mode x with h' | ⟨n, m, e, hu, hm, h'⟩
  · rw [flushBits_eq h', ← h']
    exact sameNum_refl h
  · obtain ⟨-, c, k, hcode, hval⟩ := (ftyFmt_standard t).regular.isCode_zero n
    rw [flushBits_of_flushed hu hm h', hcode, h']
    refine ⟨rfl, rfl, ?_, rfl⟩
    rw [valOf_fin, valOf_fin, hval]
    simp [ratOf]

theorem elemFminMax_of_nan (larger : Bool) {t : FTy} {mode : Word} (d : Nat) {a b : Nat}
    (h : (inF t mode a).isNan = true ∨ (inF t mode b).isNan = true) :
    elemFminMax larger t mode d a b =
      (canonNaN (ftyFmt t), when ((inF t mode a).isSig || (inF t mode b).isSig) wINV) := by
  have hcond : ((inF t mode a).isNan || (inF t mode b).isNan) = true := by simpa using h
  simp only [elemFminMax, minMax, hcond, if_true, nanCode_false, sigFlag, List.any_cons, List.any_nil, Bool.or_false]

theorem elemFminMax_of_numbers (larger : Bool) {t : FTy} {mode : Word} (d : Nat) {a b : Nat}
    (ha : (inF t mode a).isNan = false) (hb : (inF t mode b).isNan = false) :
    let f := ftyFmt t
    let y := elemFminMax larger t mode d a b
    y.2 = 0 ∧
      (∃ x ∈ [a, b], SameNum (f.unpack y.1) (inF t mode x) ∧ (inF t mode x = f.unpack x → y.1 = x)) ∧
      ∀ x ∈ [inF t mode a, inF t mode b], Keeps larger (f.unpack y.1) x := by
  intro f y
  have hflags : y.2 = 0 := by
    simp only [y, elemFminMax, minMax, ha, hb]
    cases larger <;> rfl
  rcases minMax_keeps f larger (a := (flushBits t mode a, inF t mode a)) (b := (flushBits t mode b, inF t mode b)) ha hb with
    ⟨hy, hk⟩ | ⟨hy, hk⟩
  · have hsame : SameNum (f.unpack y.1) (inF t mode a) := (congrArg f.unpack hy).symm ▸ sameNum_flushBits ha
    exact ⟨hflags, ⟨a, by simp, hsame, fun h => hy.trans (flushBits_eq h)⟩, List.forall_mem_cons.2
      ⟨(keeps_congr hsame (sameNum_refl ha)).2 (Keeps.refl _ _), by simpa using (keeps_congr hsame (sameNum_refl hb)).2 hk⟩⟩
  · have hsame : SameNum (f.unpack y.1) (inF t mode b) := (congrArg f.unpack hy).symm ▸ sameNum_flushBits hb
    exact ⟨hflags, ⟨b, by simp, hsame, fun h => hy.trans (flushBits_eq h)⟩, List.forall_mem_cons.2
      ⟨(keeps_congr hsame (sameNum_refl ha)).2 hk, by simpa using (keeps_congr hsame (sameNum_refl hb)).2 (Keeps.refl _ _)⟩⟩

/-! ## Classes (R251) -/

theorem sign_of_code {f : FloatFmt} {neg : Bool} {E M : Nat} (hE : E < 2 ^ f.ebits) (hM : M < 2 ^ f.mbits) :
    decide (2 ^ (f.ebits + f.mbits) ≤ f.code neg E M) = neg := by
  have hle : 2 ^ (f.ebits + f.mbits) ≤ f.code neg E M ↔ neg = true := by
    rw [pow_add, ← Nat.le_div_iff_mul_le (Nat.two_pow_pos _), FloatFmt.code_div hM]
    cases neg <;> simp [hE]
  simp [hle]

/-- A number of a subnormal exponent field lies below the least normal magnitude, and no other does. -/
theorem floorLog_field {f : FloatFmt} {E M : Nat} (hM : M < 2 ^ f.mbits) (h0 : f.fieldSig E M ≠ 0) :
    floorLog (f.fieldSig E M) (f.fieldExp E) < 1 - (f.bias : Int) ↔ E = 0 := by
  unfold FloatFmt.fieldSig FloatFmt.fieldExp floorLog at *
  split_ifs at h0 ⊢ with hE
  · have := (Nat.log2_lt h0).2 hM
    have : max E 1 = 1 := by omega
    omega
  · have : f.mbits ≤ Nat.log2 (2 ^ f.mbits + M) := (Nat.le_log2 (by omega)).2 (by omega)
    have : max E 1 = E := by omega
    omega

theorem elemFclass_spec (t : FTy) (mode : Word) (d : Nat) {a : Nat} (b : Nat) (ha : a < 2 ^ ftyWidth t) :
    let f := ftyFmt t
    let neg : Bool := decide (2 ^ (f.ebits + f.mbits) ≤ a)
    let e := a / 2 ^ f.mbits % 2 ^ f.ebits
    let m := a % 2 ^ f.mbits
    elemFclass t mode d a b =
      (2 ^ (if e = 2 ^ f.ebits - 1 then (if m = 0 then (if neg then 0 else 7) else if m < 2 ^ (f.mbits - 1) then 8 else 9)
        else if e ≠ 0 then (if neg then 1 else 6)
        else if m ≠ 0 then (if neg then 2 else 5)
        else if neg then 3 else 4), 0) := by
  have hf := ftyFmt_standard t
  rw [ftyWidth, width_ftyCvt] at ha
  obtain ⟨neg, E, M, hE, hM, rfl⟩ := FloatFmt.exists_code ha
  simp only [sign_of_code hE hM, FloatFmt.code_field_mod hE hM, FloatFmt.code_mod hM]
  have hu := FloatFmt.unpack_code (neg := neg) hE hM
  simp only [hf.ieee, true_and, reduceCtorEq, false_and, if_false] at hu
  simp only [elemFclass, ftyCvt_unpack]
  generalize ftyFmt t = f at *
  rw [hu]
  by_cases htop : E = 2 ^ f.ebits - 1
  · rw [if_pos htop, if_pos htop]
    by_cases h0 : M = 0
    · rw [if_pos h0, if_pos h0]
      cases neg <;> rfl
    · rw [if_neg h0, if_neg h0]
      by_cases hs : M < 2 ^ (f.mbits - 1) <;> simp [hs]
  · rw [if_neg htop, if_neg htop]
    have hzero : f.fieldSig E M = 0 ↔ E = 0 ∧ M = 0 := by
      unfold FloatFmt.fieldSig
      split_ifs <;> simp_all
    by_cases h0 : f.fieldSig E M = 0
    · obtain ⟨rfl, rfl⟩ := hzero.1 h0
      simp only [h0, if_true]
      cases neg <;> rfl
    · simp only [h0, if_false, floorLog_field hM h0]
      by_cases hE0 : E = 0
      · have hM0 : M ≠ 0 := fun hM0 => h0 (hzero.2 ⟨hE0, hM0⟩)
        simp only [hE0, hM0, if_true, ne_eq, not_true_eq_false, not_false_eq_true, if_false]
        cases neg <;> rfl
      · simp only [hE0, if_true, ne_eq, not_false_eq_true, if_false]
        cases neg <;> rfl

/-! ## Exponents (R249) -/

theorem elemFexp_spec (t : FTy) (mode : Word) (d a b : Nat) :
    let w := ftyWidth t
    let n := inF t mode a
    let y := elemFexp t mode d a b
    (n.isNan = true → y = (2 ^ (w - 1) - 1, when n.isSig wINV)) ∧ (∀ neg, n = .inf neg → y = (2 ^ (w - 1) - 1, 0)) ∧
    (n.isZero = true → y = (2 ^ (w - 1), wDZ)) ∧
    ∀ neg m e, n = .fin neg m e → m ≠ 0 →
      ∃ k : Int, (2 : ℝ) ^ k ≤ |ratOf n| ∧ |ratOf n| < 2 ^ (k + 1) ∧ y = ((BitVec.ofInt w k).toNat, 0) := by
  simp only [elemFexp]
  cases inF t mode a with
  | nan s n => simp [Num.isNan, Num.isSig, Num.isZero]
  | inf n => simp [Num.isNan, Num.isZero]
  | fin n m e =>
    refine ⟨fun h => (Bool.false_ne_true h).elim, fun _ h => (nomatch h), fun h => if_pos (beq_iff_eq.1 h), ?_⟩
    rintro _ _ _ ⟨⟩ hm
    refine ⟨floorLog m e, ?_, ?_, by rw [← intBits_eq]; exact if_neg hm⟩
    · rw [abs_ratOf_fin]
      exact two_zpow_floorLog_le hm e
    · rw [abs_ratOf_fin]
      exact lt_two_zpow_floorLog m e

end Sys2Proof.Machine

/-!
PROOFS. Scaling, the exact two-sum and rounding to an integral value (O29).
-/

namespace Sys2Proof

/-! ## Roundings that two numbers share (R90, R94) -/

/-- No mode but SR looks at more of a fraction than where it lies beside 0 and a half. -/
theorem goesUp_congr {r : Rnd} (hr : ∀ draw, r ≠ .sr draw) {neg : Bool} {k : Nat} {t t' : ℝ} (h0 : t = 0 ↔ t' = 0)
    (hlt : 1 / 2 < t ↔ 1 / 2 < t') (heq : t = 1 / 2 ↔ t' = 1 / 2) : GoesUp r neg k t ↔ GoesUp r neg k t' := by
  have hle : 1 / 2 ≤ t ↔ 1 / 2 ≤ t' := by rw [le_iff_lt_or_eq, le_iff_lt_or_eq, hlt, @eq_comm _ _ t, heq, @eq_comm _ _ t']
  cases r with
  | sr draw => exact absurd rfl (hr draw)
  | _ => simp only [GoesUp, ne_eq, h0, hlt, heq, hle]

theorem stepped_congr {r : Rnd} (hr : ∀ draw, r ≠ .sr draw) {neg : Bool} {k : Nat} {t t' : ℝ} (h0 : t = 0 ↔ t' = 0)
    (hlt : 1 / 2 < t ↔ 1 / 2 < t') (heq : t = 1 / 2 ↔ t' = 1 / 2) : stepped r neg k t = stepped r neg k t' := by
  classical exact if_congr (goesUp_congr hr h0 hlt heq) rfl rfl

theorem rndOf_ne_sr (mode : Word) (draw : Nat) : rndOf mode ≠ .sr draw := by
  unfold rndOf
  split <;> simp

namespace FloatFmt

variable {f : FloatFmt} {r : Rnd} {fout sat neg : Bool} {m : Nat} {e e' : Int}

/-- A rounding is given by its cell, whether it is exact, and whether it is tiny. -/
theorem roundFinite_congr {m' : Nat} (hc : f.rounded r neg m e = f.rounded r neg m' e')
    (hx : f.exactAt r neg m e = f.exactAt r neg m' e') (ht : f.tiny r neg m e = f.tiny r neg m' e') :
    roundFinite f r fout sat neg m e = roundFinite f r fout sat neg m' e' := by
  rw [roundFinite_eq, roundFinite_eq, rangeFlags, rangeFlags, hc, hx, ht]

theorem le_carried (bits k : Nat) (q : Int) : q ≤ (carried bits k q).2 := by
  unfold carried
  split <;> simp

/-- Numbers from the power of two beyond the range on all overflow. -/
theorem Standard.roundFinite_of_large (hf : f.Standard) (hm : m ≠ 0) (h : (2 : ℝ) ^ ((f.bias : Int) + 1) ≤ m * 2 ^ e) :
    roundFinite f r fout sat neg m e = (overflowCode f r sat neg, wOVF ||| wINX) := by
  have hlog : (f.bias : Int) + 1 ≤ floorLog m e := by
    rw [← abs_ratOf_fin false, ← not_lt, abs_ratOf_lt_iff hm, not_lt] at h
    exact h
  have hq : floorLog m e - f.mbits ≤ (f.rounded r neg m e).2 :=
    (sub_le_sub_right (le_max_left _ _) _).trans (le_carried _ _ _)
  have hfields := hf.fields
  refine roundFinite_of_beyond (.inl ?_)
  simp only [maxField, hf.ieee]
  omega

/-- Below half of the least quantum a mode takes 0 or the quantum whatever the number. -/
theorem roundAt_of_small (hm : m ≠ 0) {q : Int} (h : (m : ℝ) * 2 ^ e < 2 ^ (q - 1)) (hr : ∀ draw, r ≠ .sr draw) :
    roundAt r neg m e q = (stepped r neg 0 (1 / 4), false) := by
  obtain ⟨k, t, ⟨h0, -, hval⟩, hround⟩ := roundAt_eq m e q
  have hq : (0 : ℝ) < 2 ^ q := by positivity
  have hpos : (0 : ℝ) < m * 2 ^ e := by positivity
  rw [hval, zpow_sub_one₀ two_ne_zero, mul_comm, mul_lt_mul_iff_right₀ hq] at h
  rw [hval, mul_pos_iff_of_pos_right hq] at hpos
  have hk : k = 0 := by
    have hlt : (k : ℝ) < 1 := by linarith
    exact Nat.lt_one_iff.1 (by exact_mod_cast hlt)
  subst hk
  rw [Nat.cast_zero, zero_add] at h hpos
  rw [hround, stepped_congr hr (t' := 1 / 4) (by constructor <;> intro <;> linarith) (by constructor <;> intro <;> linarith)
    (by constructor <;> intro <;> linarith), decide_eq_false hpos.ne']

theorem roundFinite_of_small (hm : m ≠ 0) (h : (m : ℝ) * 2 ^ e < 2 ^ (f.qmin - 1)) (h' : (m : ℝ) * 2 ^ e' < 2 ^ (f.qmin - 1))
    (hr : ∀ draw, r ≠ .sr draw) : roundFinite f r fout sat neg m e = roundFinite f r fout sat neg m e' := by
  have facts {e : Int} (h : (m : ℝ) * 2 ^ e < 2 ^ (f.qmin - 1)) :
      f.rounded r neg m e = carried f.mbits (stepped r neg 0 (1 / 4)) f.qmin ∧ f.exactAt r neg m e = false ∧
        f.tiny r neg m e = true := by
    have hlog : floorLog m e < f.qmin - 1 := (abs_ratOf_lt_iff hm false e _).1 (by rwa [abs_ratOf_fin])
    have hmin : f.qmin = leastExp f - f.mbits := rfl
    have hq : quantum f.mbits (leastExp f) m e = f.qmin := by
      unfold quantum
      omega
    have hx : f.exactAt r neg m e = false := by rw [exactAt, hq, roundAt_of_small hm h hr]
    refine ⟨by rw [rounded, hq, roundAt_of_small hm h hr], hx, ?_⟩
    rw [tiny, hx]
    simp only [Bool.not_false, Bool.true_and, Bool.and_eq_true, decide_eq_true_iff]
    refine ⟨by omega, ?_⟩
    split <;> omega
  obtain ⟨hc, hx, ht⟩ := facts h
  obtain ⟨hc', hx', ht'⟩ := facts h'
  exact roundFinite_congr (hc.trans hc'.symm) (hx.trans hx'.symm) (ht.trans ht'.symm)

end FloatFmt

end Sys2Proof

/-!
PROOFS. Scaling, rounding to an integral value, and the exact two-sum (O29).
-/

namespace Sys2Proof.Machine

open Sys2Proof

/-! ## Scaling (R250) -/

theorem sextNat_eq_toInt {w b : Nat} (hw : 0 < w) (hb : b < 2 ^ w) : sextNat w b = (BitVec.ofNat w b).toInt := by
  have hpow : 2 ^ w = 2 * 2 ^ (w - 1) := by rw [← pow_succ', Nat.sub_add_cancel hw]
  rw [BitVec.toInt_eq_toNat_cond, BitVec.toNat_ofNat, Nat.mod_eq_of_lt hb, sextNat, Nat.mod_eq_of_lt hb]
  refine if_congr (by omega) rfl ?_
  push_cast
  rfl

/-- A scale of ±4096 takes every number of an element's format out of its range. -/
theorem ftyFmt_scale (t : FTy) : ((ftyFmt t).bias : Int) + 1 ≤ (ftyFmt t).qmin + 4096 ∧
    ((ftyFmt t).bias : Int) + 1 - 4096 ≤ (ftyFmt t).qmin - 1 := by
  cases t <;> decide

theorem ratOf_scale (neg : Bool) (m : Nat) (e n : Int) : ratOf (.fin neg m (e + n)) = ratOf (.fin neg m e) * 2 ^ n := by
  rw [ratOf_fin, ratOf_fin, zpow_add₀ two_ne_zero]
  ring

theorem roundFinite_clamped {t : FTy} {m : Nat} {e : Int} (hm : m ≠ 0) (h : (ftyFmt t).Holds m e) {r : Rnd}
    (hr : ∀ draw, r ≠ .sr draw) (fout neg : Bool) (n : Int) :
    roundFinite (ftyFmt t) r fout false neg m (e + max (-4096) (min 4096 n)) =
      roundFinite (ftyFmt t) r fout false neg m (e + n) := by
  have hf := ftyFmt_standard t
  obtain ⟨hbig, hsmall⟩ := ftyFmt_scale t
  have hone : (1 : ℝ) ≤ m := Nat.one_le_cast.2 (Nat.one_le_iff_ne_zero.2 hm)
  have hmax := h.max.trans_lt hf.maxMag_lt
  have large {k : Int} (hk : 4096 ≤ k) : (2 : ℝ) ^ (((ftyFmt t).bias : Int) + 1) ≤ m * 2 ^ (e + k) :=
    calc (2 : ℝ) ^ (((ftyFmt t).bias : Int) + 1) ≤ 2 ^ (e + k) := zpow_le_zpow_right₀ one_le_two (by have := h.le; omega)
      _ ≤ m * 2 ^ (e + k) := le_mul_of_one_le_left (by positivity) hone
  have small {k : Int} (hk : k ≤ -4096) : (m : ℝ) * 2 ^ (e + k) < 2 ^ ((ftyFmt t).qmin - 1) :=
    calc (m : ℝ) * 2 ^ (e + k) = m * 2 ^ e * 2 ^ k := by rw [zpow_add₀ two_ne_zero, mul_assoc]
      _ < 2 ^ (((ftyFmt t).bias : Int) + 1) * 2 ^ k := by gcongr
      _ = 2 ^ (((ftyFmt t).bias : Int) + 1 + k) := (zpow_add₀ two_ne_zero _ _).symm
      _ ≤ 2 ^ ((ftyFmt t).qmin - 1) := zpow_le_zpow_right₀ one_le_two (by omega)
  rcases lt_or_ge n (-4096) with hn | hn
  · rw [show max (-4096) (min 4096 n) = -4096 by omega]
    exact FloatFmt.roundFinite_of_small hm (small le_rfl) (small hn.le) hr
  rcases lt_or_ge 4096 n with hn' | hn'
  · rw [show max (-4096) (min 4096 n) = 4096 by omega, hf.roundFinite_of_large hm (large le_rfl),
      hf.roundFinite_of_large hm (large hn'.le)]
  · rw [show max (-4096) (min 4096 n) = n by omega]

theorem elemFscl_spec (t : FTy) (mode : Word) (d a : Nat) {b : Nat} (hb : b < 2 ^ ftyWidth t) :
    let f := ftyFmt t
    let n := inF t mode a
    let y := elemFscl t mode d a b
    (n.isNan = true → y = (canonNaN f, when n.isSig wINV)) ∧ (∀ neg, n = .inf neg → f.unpack y.1 = .inf neg ∧ y.2 = 0) ∧
    (n.isZero = true → IsCode f n.neg 0 y.1 ∧ y.2 = 0) ∧
    ∀ neg m e, n = .fin neg m e → m ≠ 0 →
      RoundsTo f (rndOf mode) (mode.getLsbD 5) false neg (ratOf n * 2 ^ (BitVec.ofNat (ftyWidth t) b).toInt) y := by
  have hf := ftyFmt_standard t
  have hw : 0 < ftyWidth t := by cases t <;> decide
  simp only [elemFscl, sextNat_eq_toInt hw hb, nanCode_false]
  cases hn : inF t mode a with
  | nan s n => simp [Num.isNan, Num.isSig, Num.isZero]
  | inf n => simp [Num.isNan, Num.isZero, FloatFmt.unpack_infCode hf.ieee]
  | fin n m e =>
    refine ⟨fun h => (Bool.false_ne_true h).elim, fun _ h => (nomatch h), fun h => ?_, ?_⟩
    · obtain rfl : m = 0 := beq_iff_eq.1 h
      exact outF_zero t mode n _
    · rintro _ _ _ ⟨⟩ hm
      dsimp only
      rw [outF_fin t mode n hm, roundFinite_clamped hm (holds_of_inF hn hm) (rndOf_ne_sr mode), ← ratOf_scale]
      exact roundsTo_roundFinite hf.regular hm _ _ _ _ _

/-! ## Rounding to an integral value (R253) -/

/-- A number lies between two whole numbers, of which a mode takes one. -/
theorem roundedTo_int {m k : Nat} {e : Int} {x : ℝ} (h : SplitAt m e 0 k x) (r : Rnd) (neg : Bool) :
    RoundedTo r (fun x => ∃ z : Int, x = z) (fun x => ∃ z : Int, x = 2 * z) (ratOf (.fin neg m e))
      (ratOf (.fin neg (stepped r neg k x) 0)) := by
  rw [ratOf_fin neg (stepped r neg k x)]
  refine h.roundedTo (int_neighbours k) (fun w => ?_) (fun w => ?_) (fun hk => ?_) (fun hk => ?_) r neg
  · constructor <;> rintro ⟨z, hz⟩ <;> exact ⟨-z, by push_cast; linarith⟩
  · rintro ⟨z, hz⟩
    exact ⟨-z, by push_cast; linarith⟩
  · obtain ⟨z, rfl⟩ := Nat.dvd_of_mod_eq_zero hk
    exact ⟨z, by simp⟩
  · obtain ⟨z, hz⟩ : 2 ∣ k + 1 := by omega
    exact ⟨z, by rw [hz]; simp⟩

/-- Whole numbers of the format's precision are numbers of it. -/
theorem holds_whole (t : FTy) {k : Nat} (hk : k < 2 ^ ((ftyFmt t).mbits + 1)) : (ftyFmt t).Holds k 0 := by
  have hmin : (ftyFmt t).qmin ≤ 0 ∧ ((ftyFmt t).mbits : Int) + 1 ≤ (ftyFmt t).bias := by cases t <;> decide
  refine ⟨hk, hmin.1, ?_⟩
  rw [zpow_zero, mul_one]
  calc (k : ℝ) ≤ (2 ^ ((ftyFmt t).mbits + 1) : Nat) := Nat.cast_le.2 hk.le
    _ = 2 ^ (((ftyFmt t).mbits : Int) + 1) := by rw [← Nat.cast_succ, zpow_natCast]; push_cast; rfl
    _ ≤ (ftyFmt t).maxMag := (ftyFmt_standard t).two_zpow_le_maxMag hmin.2

theorem frnd_fin {t : FTy} {mode : Word} {r : Rnd} {a : Nat} {neg : Bool} {m : Nat} {e : Int} (hn : inF t mode a = .fin neg m e)
    (hm : m ≠ 0) :
    let f := ftyFmt t
    let y := frnd t mode r a
    ∃ v, RoundedTo r (fun x => ∃ k : Int, x = k) (fun x => ∃ k : Int, x = 2 * k) (ratOf (.fin neg m e)) v ∧ IsCode f neg v y.1 ∧
      (v = ratOf (.fin neg m e) → y.2 = 0) ∧ (v ≠ ratOf (.fin neg m e) → y.2 = wINX) := by
  have hf := ftyFmt_standard t
  have hholds := holds_of_inF hn hm
  have exact_at {k : Nat} {q : Int} (h : (ftyFmt t).Holds k q) :=
    (roundFloat_of_onGrid hf.regular (h.onGrid neg) h.max .rne false).1
  obtain ⟨k, x, hs, hround⟩ := roundAt_eq m e 0
  have hval := hs.stepped_eq_iff r neg
  have hrounded := roundedTo_int hs r neg
  simp only [frnd, hn]
  rcases le_or_gt 0 e with he | he
  · have hx : x = 0 := by
      have := congrArg Prod.snd (hround r neg)
      rw [roundAt, if_pos he] at this
      exact of_decide_eq_true this.symm
    have hsame : ratOf (.fin neg (stepped r neg k x) 0) = ratOf (.fin neg m e) := by
      rw [ratOf_fin, ratOf_fin, signFactor_mul_inj]
      exact hval.2 hx
    rw [hsame] at hrounded
    refine ⟨_, hrounded, ?_, fun _ => ?_, fun h => absurd rfl h⟩
    · simp only [he, if_true]
      exact exact_at hholds
    · simp only [he, if_true]
      rfl
  · simp only [he.not_ge, if_false, hround]
    refine ⟨_, hrounded, exact_at (holds_whole t ?_), fun h => ?_, fun h => ?_⟩
    · have hlt : (k : ℝ) < (2 ^ (ftyFmt t).mbits : Nat) :=
        calc (k : ℝ) ≤ (k + x) * 2 ^ (0 : Int) := by rw [zpow_zero, mul_one]; linarith [hs.nonneg]
          _ = m * 2 ^ e := hs.value.symm
          _ ≤ m * 2 ^ (-1 : Int) := by gcongr; exacts [one_le_two, by omega]
          _ < (2 ^ ((ftyFmt t).mbits + 1) : Nat) * 2 ^ (-1 : Int) := by gcongr; exact hholds.lt
          _ = (2 ^ (ftyFmt t).mbits : Nat) := by push_cast; rw [pow_succ, zpow_neg_one]; ring
      have := Nat.cast_lt.1 hlt
      rw [pow_succ]
      rcases stepped_cases r neg k x with h | h <;> omega
    · rw [ratOf_fin, ratOf_fin, signFactor_mul_inj] at h
      simp [hval.1 h, when]
    · rw [ratOf_fin, ratOf_fin, ne_eq, signFactor_mul_inj] at h
      simp [mt hval.2 h, when]

theorem frnd_spec (t : FTy) (mode : Word) (r : Rnd) (a : Nat) :
    let f := ftyFmt t
    let n := inF t mode a
    let y := frnd t mode r a
    (n.isNan = true → y = (canonNaN f, when n.isSig wINV)) ∧ (∀ neg, n = .inf neg → f.unpack y.1 = .inf neg ∧ y.2 = 0) ∧
    (n.isZero = true → IsCode f n.neg 0 y.1 ∧ y.2 = 0) ∧
    ∀ neg m e, n = .fin neg m e → m ≠ 0 →
      ∃ v, RoundedTo r (fun x => ∃ k : Int, x = k) (fun x => ∃ k : Int, x = 2 * k) (ratOf n) v ∧ IsCode f neg v y.1 ∧
        (v = ratOf n → y.2 = 0) ∧ (v ≠ ratOf n → y.2 = wINX) := by
  have hf := ftyFmt_standard t
  cases hn : inF t mode a with
  | nan s n => simp [frnd, hn, Num.isNan, Num.isSig, Num.isZero, nanCode_false]
  | inf n => simp [frnd, hn, Num.isNan, Num.isZero, FloatFmt.unpack_infCode hf.ieee]
  | fin n m e =>
    refine ⟨fun h => (Bool.false_ne_true h).elim, fun _ h => (nomatch h), fun h => ?_, ?_⟩
    · obtain rfl : m = 0 := beq_iff_eq.1 h
      have hround : (if 0 ≤ e then ((0, true) : Nat × Bool) else roundAt r n 0 e 0) = (0, true) := by
        split_ifs with he
        · rfl
        · rw [roundAt, if_neg he]
          simp [roundShift]
      simp only [frnd, hn, hround]
      exact ⟨hf.regular.isCode_zero n, rfl⟩
    · rintro _ _ _ ⟨⟩ hm
      exact frnd_fin hn hm

end Sys2Proof.Machine

/-!
PROOFS. The exact two-sum (O29): the error of a sum rounded to nearest is a number of the format.
-/

namespace Sys2Proof.Machine

open Sys2Proof

/-! ## The error of a sum (R252) -/

theorem isCode_unique {f : FloatFmt} {n n' : Bool} {v v' : ℝ} {y : Nat} (h : IsCode f n v y) (h' : IsCode f n' v' y) :
    n = n' ∧ v = v' := by
  obtain ⟨-, m, e, hu, rfl⟩ := h
  obtain ⟨-, m', e', hu', rfl⟩ := h'
  cases hu.symm.trans hu'
  exact ⟨rfl, rfl⟩

/-- The nearest value is no further than any other. -/
theorem abs_sub_le_of_rne {rep even : ℝ → Prop} {a v w : ℝ} (h : RoundedTo .rne rep even a v) (hw : rep w) : |v - a| ≤ |w - a| :=
  (h.2.2 w hw).elim le_of_lt fun h => h.1.le

section

variable {f : FloatFmt} {r : Rnd} {neg : Bool} {m : Nat} {e : Int}

/-- What a rounding keeps or steps over is a multiple of the power of two that the number is a multiple of. -/
theorem exists_multiple_of_rounded (hf : f.Regular) (hm : m ≠ 0) {v : ℝ}
    (hv : RoundedTo r (OnGrid f.mbits (some f.qmin)) (EvenOnGrid f.mbits (some f.qmin)) (ratOf (.fin neg m e)) v) :
    ∃ z : Int, v = z * 2 ^ e := by
  obtain ⟨u, hu, hval, -, hexact⟩ := f.exists_rounded hf hm e r neg
  obtain rfl := roundedTo_unique (ratOf_fin_ne_zero hm neg e) exists_between_even hv hu
  have multiple (k : Nat) {q : Int} (hq : e ≤ q) : ∃ z : Int, signFactor neg * ((k : ℝ) * 2 ^ q) = z * 2 ^ e :=
    ⟨scaled e (.fin neg k q), by rw [← ratOf_fin, ratOf_eq_scaled neg k hq]⟩
  by_cases hq : quantum f.mbits (leastExp f) m e ≤ e
  · have hx : f.exactAt r neg m e = true := by rw [FloatFmt.exactAt, roundAt, if_pos hq]
    rw [hexact.1 hx, ratOf_fin]
    exact multiple m le_rfl
  · rw [hval]
    exact multiple _ ((not_le.1 hq).le.trans (FloatFmt.le_carried _ _ _))

end

section

variable {f : FloatFmt} {na nb : Bool} {ma mb : Nat} {ea eb : Int}

/-- The sum of two numbers of a format differs from what it is rounded to by no more than either, and by a multiple of the lower of
their powers of two: by a number of the format. -/
theorem sum_error_holds (hf : f.Standard) (ha : f.Holds ma ea) (hb : f.Holds mb eb) {neg : Bool} {m : Nat} (hm : m ≠ 0)
    (hsum : ratOf (.fin neg m (min ea eb)) = ratOf (.fin na ma ea) + ratOf (.fin nb mb eb)) {v : ℝ}
    (hv : RoundedTo .rne (OnGrid f.mbits (some f.qmin)) (EvenOnGrid f.mbits (some f.qmin)) (ratOf (.fin neg m (min ea eb))) v)
    {n : Bool} {c : Nat} {q : Int} (herr : ratOf (.fin n c q) = ratOf (.fin neg m (min ea eb)) - v) :
    OnGrid f.mbits (some f.qmin) (ratOf (.fin n c q)) ∧ (c : ℝ) * 2 ^ q ≤ f.maxMag := by
  have hlea : |ratOf (.fin n c q)| ≤ ma * 2 ^ ea := by
    have := abs_sub_le_of_rne hv (hb.onGrid nb)
    rwa [abs_sub_comm, ← herr, hsum, sub_add_cancel_right, abs_neg, abs_ratOf_fin na] at this
  have hleb : |ratOf (.fin n c q)| ≤ mb * 2 ^ eb := by
    have := abs_sub_le_of_rne hv (ha.onGrid na)
    rwa [abs_sub_comm, ← herr, hsum, sub_add_cancel_left, abs_neg, abs_ratOf_fin nb] at this
  obtain ⟨z, hz⟩ := exists_multiple_of_rounded hf.regular hm hv
  have hmul : |ratOf (.fin n c q)| = (scaled (min ea eb) (.fin neg m (min ea eb)) - z).natAbs * 2 ^ min ea eb := by
    rw [herr, hz, ratOf_eq_scaled neg m le_rfl, ← sub_mul, abs_mul, abs_of_pos (by positivity : (0 : ℝ) < 2 ^ min ea eb),
      Nat.cast_natAbs]
    push_cast
    rfl
  generalize (scaled (min ea eb) (.fin neg m (min ea eb)) - z).natAbs = k at hmul
  refine ⟨⟨k, min ea eb, ?_, by rintro b ⟨⟩; exact le_min ha.le hb.le, hmul⟩, ?_⟩
  · rw [hmul] at hlea hleb
    rcases min_choice ea eb with h | h <;> rw [h] at hlea hleb
    · exact (Nat.cast_le.1 (le_of_mul_le_mul_right hlea (by positivity))).trans_lt ha.lt
    · exact (Nat.cast_le.1 (le_of_mul_le_mul_right hleb (by positivity))).trans_lt hb.lt
  · rw [← abs_ratOf_fin n]
    exact hlea.trans ha.max

end

/-! ## vf2sum (R252) -/

/-- The low word before a zero of it loses its sign. -/
def lowCode (f : FloatFmt) (x : Num) (hi : Nat) : Nat :=
  match x, f.unpack hi with
  | .fin .., .fin .. => (roundFloat f .rne false false (addNum false x (f.unpack hi).negate).1).1
  | _, _ => 0

theorem twoSum_eq (f : FloatFmt) (a b : Nat) :
    let x := (addNum false (f.unpack a) (f.unpack b)).1
    let hi := roundFloat f .rne false false x
    let lo := lowCode f x hi.1
    twoSum f a b = ((hi.1, if f.unpack lo = .fin true 0 (1 - (f.bias : Int) - f.mbits) then 0 else lo),
      (addNum false (f.unpack a) (f.unpack b)).2 ||| hi.2) := by
  intro x hi lo
  unfold twoSum lo lowCode
  rfl

theorem lowCode_of_not_fin {f : FloatFmt} {x : Num} {hi : Nat} (h : ∀ neg m e, f.unpack hi ≠ .fin neg m e) :
    lowCode f x hi = 0 := by
  unfold lowCode
  split
  · next hu => exact absurd hu (h _ _ _)
  · rfl

theorem lowCode_fin {f : FloatFmt} {neg n : Bool} {m c hi : Nat} {e q : Int} (hhi : f.unpack hi = .fin n c q) :
    lowCode f (.fin neg m e) hi = (roundFloat f .rne false false (addNum false (.fin neg m e) (.fin (!n) c q)).1).1 := by
  simp only [lowCode, hhi, Num.negate]

theorem ratOf_negate (n : Bool) (c : Nat) (q : Int) : ratOf (.fin (!n) c q) = -ratOf (.fin n c q) := by
  rw [ratOf_fin, ratOf_fin]
  cases n <;> simp

/-- The low word that stands for no number, and one that stands for a number other than −0, is what vf2sum writes. -/
theorem unpack_zero_ne (f : FloatFmt) (hf : f.Standard) : f.unpack 0 ≠ .fin true 0 (1 - (f.bias : Int) - f.mbits) := by
  obtain ⟨-, m, e, hu, -⟩ := hf.regular.isCode_zero false
  rw [show f.code false 0 0 = 0 by simp [FloatFmt.code]] at hu
  rw [hu]
  simp

section

variable {f : FloatFmt} {a b : Nat}

theorem twoSum_of_nan (hf : f.Standard) (h : (f.unpack a).isNan = true ∨ (f.unpack b).isNan = true) :
    twoSum f a b = ((canonNaN f, 0), when ((f.unpack a).isSig || (f.unpack b).isSig) wINV) := by
  rw [twoSum_eq, addNum_of_nan false h, roundFloat_nan (by simp [hf.ieee]), nanCode_false]
  have hlow : lowCode f (.nan false false) (canonNaN f) = 0 := rfl
  rw [hlow, if_neg (unpack_zero_ne f hf)]
  simp [when]

theorem twoSum_of_opposite (hf : f.Standard) {n : Bool} (ha : f.unpack a = .inf n) (hb : f.unpack b = .inf (!n)) :
    twoSum f a b = ((canonNaN f, 0), wINV) := by
  rw [twoSum_eq, ha, hb, addNum_of_opposite, roundFloat_nan (by simp [hf.ieee]), nanCode_false]
  have hlow : lowCode f (.nan false false) (canonNaN f) = 0 := rfl
  rw [hlow, if_neg (unpack_zero_ne f hf)]
  simp [when]

theorem twoSum_of_inf (hf : f.Standard) {n : Bool} (h : addNum false (f.unpack a) (f.unpack b) = (.inf n, 0)) :
    f.unpack (twoSum f a b).1.1 = .inf n ∧ (twoSum f a b).1.2 = 0 ∧ (twoSum f a b).2 = 0 := by
  rw [twoSum_eq, h, roundFloat_inf_ieee hf.ieee]
  have hlow : lowCode f (.inf n) (f.infCode n) = 0 := rfl
  simp [hlow, FloatFmt.unpack_infCode hf.ieee, unpack_zero_ne f hf]

theorem twoSum_of_zero (hf : f.Standard) {na nb : Bool} {ma mb : Nat} {ea eb : Int} (ha : f.unpack a = .fin na ma ea)
    (hb : f.unpack b = .fin nb mb eb) (h : ratOf (.fin na ma ea) + ratOf (.fin nb mb eb) = 0) :
    IsCode f (ma == 0 && mb == 0 && na && nb) 0 (twoSum f a b).1.1 ∧ (twoSum f a b).1.2 = 0 ∧ (twoSum f a b).2 = 0 := by
  obtain ⟨v, hv, hs⟩ := addNum_fin false na ma ea nb mb eb
  have hv0 : v = 0 := by
    rw [h, mul_eq_zero, Int.cast_eq_zero] at hv
    exact hv.resolve_right (by positivity)
  rw [hv0, ofScaled, if_pos rfl, Bool.false_or] at hs
  obtain ⟨hlt, m, e, hcode, hval⟩ := hf.regular.isCode_zero (ma == 0 && mb == 0 && na && nb)
  generalize (ma == 0 && mb == 0 && na && nb) = z at *
  have hm : m = 0 := by
    by_contra hm
    exact ratOf_fin_ne_zero hm z e hval
  subst hm
  have hlow : lowCode f (.fin z 0 0) (f.code z 0 0) = 0 := by
    rw [lowCode_fin hcode]
    have hsum : addNum false (.fin z 0 0) (.fin (!z) 0 e) = (.fin false 0 0, 0) := by cases z <;> simp [addNum, scaled, ofScaled]
    rw [hsum, roundFloat_fin, if_pos rfl]
    simp [FloatFmt.code]
  rw [twoSum_eq, ha, hb, hs, roundFloat_fin, if_pos rfl]
  simp only [hlow, if_neg (unpack_zero_ne f hf)]
  exact ⟨⟨hlt, 0, e, hcode, hval⟩, by simp⟩

theorem neg_iff_ratOf_neg {m : Nat} (hm : m ≠ 0) (neg : Bool) (e : Int) : neg = true ↔ ratOf (.fin neg m e) < 0 := by
  have hpos : (0 : ℝ) < m * 2 ^ e := by positivity
  rw [ratOf_fin]
  cases neg <;> simp [hpos, hpos.le]

/-- A finite code that a rounding to nearest gives is that of the nearest value. -/
theorem roundedTo_of_isCode (hf : f.Standard) {s neg : Bool} {x z : ℝ} {y : Nat × Word}
    (h : RoundsTo f .rne false false s x y) (hz : IsCode f neg z y.1) :
    RoundedTo .rne (OnGrid f.mbits (some f.qmin)) (EvenOnGrid f.mbits (some f.qmin)) x z := by
  obtain ⟨v, hv, hin, hout⟩ := h
  by_cases hfits : ∃ n w z, IsCode f n w z ∧ |v| ≤ |w|
  · obtain ⟨hcode, -⟩ := (hin hfits).2 (by simp)
    rw [(isCode_unique hz hcode).2]
    exact hv
  · push Not at hfits
    obtain ⟨-, -, hinf⟩ := hout hfits
    obtain ⟨-, hu⟩ := hinf (by simp [hf.ieee])
    rw [if_pos hf.ieee] at hu
    obtain ⟨-, m, e, hfin, -⟩ := hz
    cases hu.symm.trans hfin

/-- The low word is the error of the high one. -/
theorem lowCode_spec (hf : f.Standard) {na nb : Bool} {ma mb : Nat} {ea eb : Int} (ha : f.Holds ma ea) (hb : f.Holds mb eb)
    {s : Bool} {m : Nat} (hm : m ≠ 0)
    (hsum : ratOf (.fin s m (min ea eb)) = ratOf (.fin na ma ea) + ratOf (.fin nb mb eb)) {hi : Nat} {neg : Bool} {z : ℝ}
    (hz : IsCode f neg z hi)
    (hround : RoundedTo .rne (OnGrid f.mbits (some f.qmin)) (EvenOnGrid f.mbits (some f.qmin))
      (ratOf (.fin s m (min ea eb))) z) :
    let err := ratOf (.fin s m (min ea eb)) - z
    ∃ neg', IsCode f neg' err (lowCode f (.fin s m (min ea eb)) hi) ∧ (err = 0 → neg' = false) := by
  intro err
  obtain ⟨-, c, q, hhi, hval⟩ := hz
  obtain ⟨n, k, e, hs, hdiff, hzero⟩ := addNum_fin_spec false s m (min ea eb) (!neg) c q
  rw [hs, ratOf_negate, hval] at hdiff
  rw [hs] at hzero
  have herr : ratOf (.fin n k e) = err := hdiff.trans (sub_eq_add_neg _ _).symm
  obtain ⟨hgrid, hmax⟩ := sum_error_holds hf ha hb hm hsum hround herr
  refine ⟨n, ?_, fun h0 => ?_⟩
  · rw [lowCode_fin hhi, hs, ← herr]
    exact (roundFloat_of_onGrid hf.regular hgrid hmax .rne false).1
  · rw [hzero (herr.trans h0)]
    simp [hm]

/-- A nonzero sum of two finite numbers: the high word rounds it, and the low word is what is left. -/
theorem twoSum_of_finite (hf : f.Standard) {na nb : Bool} {ma mb : Nat} {ea eb : Int} (ha : f.unpack a = .fin na ma ea)
    (hb : f.unpack b = .fin nb mb eb) (hne : ratOf (.fin na ma ea) + ratOf (.fin nb mb eb) ≠ 0) :
    let sum := ratOf (.fin na ma ea) + ratOf (.fin nb mb eb)
    let y := twoSum f a b
    (∀ neg, (neg = true ↔ sum < 0) → RoundsTo f .rne false false neg sum (y.1.1, y.2)) ∧
      (∀ neg z, IsCode f neg z y.1.1 → ∃ neg', IsCode f neg' (sum - z) y.1.2 ∧ (sum = z → neg' = false)) ∧
      ((f.unpack y.1.1 = .inf true ∨ f.unpack y.1.1 = .inf false) → y.1.2 = 0) := by
  intro sum
  obtain ⟨v, hv, hs⟩ := addNum_fin false na ma ea nb mb eb
  have hv0 : v ≠ 0 := by
    rintro rfl
    exact hne (by rw [← hv, Int.cast_zero, zero_mul])
  obtain ⟨m, hm, hfin, hval⟩ := ratOf_ofScaled (false || (ma == 0 && mb == 0 && na && nb)) hv0 (min ea eb)
  have hsum : ratOf (.fin (decide (v < 0)) m (min ea eb)) = sum := hval.trans hv
  rw [twoSum_eq, ha, hb, hs, hfin, roundFloat_fin, if_neg hm]
  generalize decide (v < 0) = s at *
  have hround := roundsTo_roundFinite hf.regular hm (min ea eb) .rne false false s
  generalize roundFinite f .rne false false s m (min ea eb) = r at *
  dsimp only
  refine ⟨fun neg hneg => ?_, fun neg z hz => ?_, fun hinf => ?_⟩
  · have hsign : s = neg := by rw [Bool.eq_iff_iff, neg_iff_ratOf_neg hm s (min ea eb), hneg, hsum]
    rw [← hsum, ← hsign, show (0 : Word) ||| r.2 = r.2 from BitVec.zero_or]
    exact hround
  · obtain ⟨neg', hcode, hpos⟩ := lowCode_spec hf (hf.regular.holds_of_unpack ha) (hf.regular.holds_of_unpack hb) hm hsum hz
      (roundedTo_of_isCode hf hround hz)
    rw [hsum] at hcode hpos
    have hkeep : ¬f.unpack (lowCode f (.fin s m (min ea eb)) r.1) = .fin true 0 (1 - (f.bias : Int) - f.mbits) := by
      intro hminus
      obtain ⟨-, c, q, hu, hzero⟩ := hcode
      cases hu.symm.trans hminus
      exact Bool.false_ne_true (hpos (hzero.symm.trans (by simp [ratOf]))).symm
    rw [if_neg hkeep]
    exact ⟨neg', hcode, fun h => hpos (sub_eq_zero.2 h)⟩
  · have hlow : lowCode f (.fin s m (min ea eb)) r.1 = 0 := by
      refine lowCode_of_not_fin fun n k e hu => ?_
      rw [hu] at hinf
      simp at hinf
    rw [hlow, if_neg (unpack_zero_ne f hf)]

end

/-! ## The statement -/

/-- Settles O29, function by function. -/
theorem floatValues : Obligations.FloatValues := by
  refine ⟨fun down a b => ?_, fun down a b d => rfl, delivers_outF, fun larger t mode d a b _ _ => ?_,
    fun t mode d a b ha => elemFclass_spec t mode d b ha, elemFexp_spec, fun t mode d a b hb => elemFscl_spec t mode d a hb,
    fun wide a b => ?_, frnd_spec⟩
  · refine ⟨fun h => ?_, ?_, fun n => addNum_of_inf down, fun ha hb h => ?_, fun ha hb h => mulNum_of_inf ha hb h, ?_⟩
    · rw [addNum_of_nan down h, mulNum_of_nan h]
      exact ⟨rfl, rfl, rfl, rfl⟩
    · rintro n rfl rfl
      rw [addNum_of_opposite]
      exact ⟨rfl, rfl⟩
    · rw [mulNum_of_invalid ha hb h]
      exact ⟨rfl, rfl⟩
    · rintro na ma ea nb mb eb rfl rfl
      exact ⟨addNum_fin_spec down na ma ea nb mb eb, _, _, (mulNum_fin na ma ea nb mb eb).1, (mulNum_fin na ma ea nb mb eb).2⟩
  · refine ⟨elemFminMax_of_nan larger d, fun ha hb => ?_⟩
    obtain ⟨hflags, hone, hall⟩ := elemFminMax_of_numbers larger d ha hb
    refine ⟨hflags, hone, fun x hx => ?_⟩
    cases larger <;> exact hall x hx
  · have hf : (if wide then fmtFp64 else fmtFp32).Standard := by
      cases wide
      exacts [ftyFmt_standard .f32, ftyFmt_standard .f64]
    refine ⟨fun m n e k c h ha hb hne => ?_, fun m n e k c h ha hb hzero => ?_, twoSum_of_nan hf,
      fun n ha hb => twoSum_of_opposite hf ha hb, fun n ha hb h ha' hb' => twoSum_of_inf hf (addNum_of_inf false ha hb h ha' hb')⟩
    · rw [ha, hb] at hne ⊢
      obtain ⟨hround, hrest⟩ := twoSum_of_finite hf ha hb hne
      exact ⟨hround, hrest⟩
    · rw [ha, hb] at hzero ⊢
      exact twoSum_of_zero hf ha hb hzero

end Sys2Proof.Machine

/-!
PROOFS. Reciprocals and square roots (O30): a quotient or a root taken to enough bits, with a last bit for what is left, is rounded as
the real number is.
-/

namespace Sys2Proof

/-! ## Numbers that every rounding treats alike (R90) -/

/-- A positive real number and a number of the model are one, or lie between the same two multiples of a power of two, with more bits
than a format keeps. -/
def Alike (bits : Nat) (a : ℝ) (m : Nat) (e : Int) : Prop :=
  a = m * 2 ^ e ∨ ∃ (j : Nat) (p : Int), 2 ^ (bits + 1) ≤ j ∧ (j : ℝ) * 2 ^ p < a ∧ a < (j + 1 : Nat) * 2 ^ p ∧
    (j : ℝ) * 2 ^ p < m * 2 ^ e ∧ (m : ℝ) * 2 ^ e < (j + 1 : Nat) * 2 ^ p

/-- A number strictly between two neighbouring multiples of a power of two is on one side of every multiple. -/
theorem multiple_side {j : Nat} {p : Int} {a b : ℝ} (ha : (j : ℝ) * 2 ^ p < a) (ha' : a < (j + 1 : Nat) * 2 ^ p)
    (hb : (j : ℝ) * 2 ^ p < b) (hb' : b < (j + 1 : Nat) * 2 ^ p) (z : Nat) :
    a ≠ z * 2 ^ p ∧ ((z : ℝ) * 2 ^ p < a ↔ (z : ℝ) * 2 ^ p < b) := by
  have hp : (0 : ℝ) < 2 ^ p := by positivity
  rcases Nat.lt_or_ge j z with hz | hz
  · have hle : ((j + 1 : Nat) : ℝ) * 2 ^ p ≤ z * 2 ^ p := mul_le_mul_of_nonneg_right (Nat.cast_le.2 hz) hp.le
    exact ⟨(ha'.trans_le hle).ne, iff_of_false (ha'.trans_le hle).not_gt (hb'.trans_le hle).not_gt⟩
  · have hle : (z : ℝ) * 2 ^ p ≤ j * 2 ^ p := mul_le_mul_of_nonneg_right (Nat.cast_le.2 hz) hp.le
    exact ⟨(hle.trans_lt ha).ne', iff_of_true (hle.trans_lt ha) (hle.trans_lt hb)⟩

/-- The number that is `t` of the way from a multiple of 2^q to the next lies as far as another from both, and from their middle, as
far as any mode but SR sees. -/
theorem SplitAt.of_alike {bits m k : Nat} {e q : Int} {t a : ℝ} (h : SplitAt m e q k t) (hk : k < 2 ^ (bits + 1))
    (ha : Alike bits a m e) :
    ∃ t', 0 ≤ t' ∧ t' < 1 ∧ a = (k + t') * 2 ^ q ∧ (t = 0 ↔ t' = 0) ∧ (1 / 2 < t ↔ 1 / 2 < t') ∧ (t = 1 / 2 ↔ t' = 1 / 2) := by
  obtain ⟨h0, h1, hval⟩ := h
  rcases ha with ha | ⟨j, p, hj, hja, haj, hjm, hmj⟩
  · exact ⟨t, h0, h1, ha.trans hval, Iff.rfl, Iff.rfl, Iff.rfl⟩
  have hq : (0 : ℝ) < 2 ^ q := by positivity
  have hp : (0 : ℝ) < 2 ^ p := by positivity
  have hpq : p < q := by
    by_contra hle
    refine absurd (show (m : ℝ) * 2 ^ e < j * 2 ^ p from ?_) hjm.not_gt
    calc (m : ℝ) * 2 ^ e = (k + t) * 2 ^ q := hval
      _ < (k + 1 : Nat) * 2 ^ q := by push_cast; gcongr
      _ ≤ j * 2 ^ p := mul_le_mul (Nat.cast_le.2 (hj.trans' hk)) (zpow_le_zpow_right₀ one_le_two (not_lt.1 hle)) hq.le (Nat.cast_nonneg _)
  have hpow : (2 : ℝ) ^ q = (2 * 2 ^ (q - 1 - p).toNat : Nat) * 2 ^ p := by
    push_cast
    rw [← zpow_natCast, Int.toNat_of_nonneg (by omega), mul_assoc, ← zpow_add₀ two_ne_zero, sub_add_cancel,
      ← zpow_one_add₀ two_ne_zero, add_sub_cancel]
  have side (z : Nat) : a / 2 ^ q - k ≠ z / 2 - k ∧ m * 2 ^ e / 2 ^ q - k ≠ (z / 2 - k : ℝ) ∧
      ((z / 2 - k : ℝ) < a / 2 ^ q - k ↔ (z / 2 - k : ℝ) < m * 2 ^ e / 2 ^ q - k) := by
    have hz : (z / 2 : ℝ) * 2 ^ q = (z * 2 ^ (q - 1 - p).toNat : Nat) * 2 ^ p := by
      rw [hpow]
      push_cast
      ring
    obtain ⟨hne, hiff⟩ := multiple_side hja haj hjm hmj (z * 2 ^ (q - 1 - p).toNat)
    obtain ⟨hne', -⟩ := multiple_side hjm hmj hjm hmj (z * 2 ^ (q - 1 - p).toNat)
    rw [← hz] at hne hne' hiff
    rw [ne_eq, ne_eq, sub_left_inj, sub_left_inj, sub_lt_sub_iff_right, sub_lt_sub_iff_right, div_eq_iff hq.ne', div_eq_iff hq.ne',
      lt_div_iff₀ hq, lt_div_iff₀ hq]
    exact ⟨hne, hne', hiff⟩
  have ht : m * 2 ^ e / 2 ^ q - k = t := by rw [hval, mul_div_cancel_right₀ _ hq.ne', add_sub_cancel_left]
  rw [ht] at side
  obtain ⟨hlo, hlo', hlo''⟩ := side (2 * k)
  obtain ⟨hmid, hmid', hmid''⟩ := side (2 * k + 1)
  obtain ⟨hhi, -, hhi''⟩ := side (2 * k + 2)
  have e0 : ((2 * k : Nat) / 2 - k : ℝ) = 0 := by push_cast; ring
  have e1 : ((2 * k + 1 : Nat) / 2 - k : ℝ) = 1 / 2 := by push_cast; ring
  have e2 : ((2 * k + 2 : Nat) / 2 - k : ℝ) = 1 := by push_cast; ring
  rw [e0] at hlo hlo' hlo''
  rw [e1] at hmid hmid' hmid''
  rw [e2] at hhi hhi''
  have hpos : 0 < t := h0.lt_of_ne' hlo'
  refine ⟨a / 2 ^ q - k, (hlo''.2 hpos).le, (not_lt.1 (mt hhi''.1 h1.not_gt)).lt_of_ne hhi, ?_, iff_of_false hlo' hlo, hmid''.symm,
    iff_of_false hmid' hmid⟩
  rw [add_sub_cancel, div_mul_cancel₀ _ hq.ne']

section

variable {bits m k : Nat} {least : Option Int} {e q : Int} {t a : ℝ} {r : Rnd}

/-- What a cell's number is rounded to, so is every number like it. -/
theorem IsCell.common_rounding (hc : IsCell bits least k q) (hs : SplitAt m e q k t) (hb : 0 < bits) (ha : Alike bits a m e)
    (hr : ∀ draw, r ≠ .sr draw) (neg : Bool) :
    ∃ w, RoundedTo r (OnGrid bits least) (EvenOnGrid bits least) (ratOf (.fin neg m e)) w ∧
      RoundedTo r (OnGrid bits least) (EvenOnGrid bits least) (signFactor neg * a) w ∧
      (w = ratOf (.fin neg m e) ↔ w = signFactor neg * a) := by
  obtain ⟨t', h0, h1, hval, hzero, hlt, hmid⟩ := hs.of_alike hc.lt ha
  have hstep : stepped r neg k t = stepped r neg k t' := stepped_congr hr hzero hlt hmid
  refine ⟨_, hs.roundedTo_grid hc hb r neg, ?_, ?_⟩
  · have hround := roundedTo_of_neighbours (r := r) hc.neighbours onGrid_neg evenOnGrid_neg h0 h1 hc.even_low (hc.even_high hb) neg
    have hbetween : (k : ℝ) * 2 ^ q + t' * ((k + 1 : Nat) * 2 ^ q - k * 2 ^ q) = a := by
      rw [hval]
      push_cast
      ring
    rw [hbetween] at hround
    rw [hstep, stepped, apply_ite Nat.cast, ite_mul]
    exact hround
  · rw [ratOf_fin, signFactor_mul_inj, signFactor_mul_inj, hs.stepped_eq_iff, hzero, hstep, hval,
      mul_left_inj' (zpow_ne_zero q two_ne_zero)]
    constructor
    · rintro rfl
      rw [stepped_zero, add_zero]
    · intro he
      rcases stepped_cases r neg k t' with hs' | hs' <;> rw [hs'] at he <;> push_cast at he <;> linarith

end

/-- A rounding of a number of the model is that of every number like it (R90 to R95). -/
theorem roundsTo_of_alike {f : FloatFmt} (hf : f.Regular) {m : Nat} (hm : m ≠ 0) {e : Int} {a : ℝ} (hpos : 0 < a)
    (ha : Alike f.mbits a m e) {r : Rnd} (hr : ∀ draw, r ≠ .sr draw) (fout sat neg : Bool) :
    RoundsTo f r fout sat neg (signFactor neg * a) (roundFinite f r fout sat neg m e) := by
  have hne : ratOf (.fin neg m e) ≠ 0 := ratOf_fin_ne_zero hm neg e
  have hne' : signFactor neg * a ≠ 0 := by cases neg <;> simp [hpos.ne']
  have hmin : f.qmin = leastExp f - f.mbits := rfl
  have hq : quantum f.mbits (leastExp f) m e = max (floorLog m e) (leastExp f) - f.mbits := rfl
  obtain ⟨v, hv, hin, hout⟩ := roundsTo_roundFinite hf hm e r fout sat neg
  obtain ⟨w, hw, hwa, heq⟩ : ∃ w, RoundedTo r (OnGrid f.mbits (some f.qmin)) (EvenOnGrid f.mbits (some f.qmin)) (ratOf (.fin neg m e)) w ∧
      RoundedTo r (OnGrid f.mbits (some f.qmin)) (EvenOnGrid f.mbits (some f.qmin)) (signFactor neg * a) w ∧
      (w = ratOf (.fin neg m e) ↔ w = signFactor neg * a) := by
    obtain ⟨k, t, hs, -⟩ := roundAt_eq m e (quantum f.mbits (leastExp f) m e)
    exact (hs.isCell hm (by omega) (by rintro b ⟨⟩; omega) (by rw [Option.some_inj]; omega)).common_rounding hs hf.mbits ha hr neg
  obtain ⟨u, hu, hua, -⟩ : ∃ w, RoundedTo r (OnGrid f.mbits none) (EvenOnGrid f.mbits none) (ratOf (.fin neg m e)) w ∧
      RoundedTo r (OnGrid f.mbits none) (EvenOnGrid f.mbits none) (signFactor neg * a) w ∧
      (w = ratOf (.fin neg m e) ↔ w = signFactor neg * a) := by
    obtain ⟨k, t, hs, -⟩ := roundAt_eq m e (floorLog m e - f.mbits)
    exact (hs.isCell hm le_rfl (by simp) (.inl rfl)).common_rounding hs hf.mbits ha hr neg
  obtain rfl := roundedTo_unique hne exists_between_even hv hw
  have htiny (x : ℝ) : (∃ u', RoundedTo r (OnGrid f.mbits none) (EvenOnGrid f.mbits none) (ratOf (.fin neg m e)) u' ∧ |u'| < x) ↔
      ∃ u', RoundedTo r (OnGrid f.mbits none) (EvenOnGrid f.mbits none) (signFactor neg * a) u' ∧ |u'| < x := by
    constructor
    · rintro ⟨u', hu', hlt⟩
      exact ⟨u, hua, roundedTo_unique hne exists_between_even hu' hu ▸ hlt⟩
    · rintro ⟨u', hu', hlt⟩
      exact ⟨u, hu, roundedTo_unique hne' exists_between_even hu' hua ▸ hlt⟩
  refine ⟨v, hwa, fun h => ?_, hout⟩
  have hne : v ≠ ratOf (.fin neg m e) ↔ v ≠ signFactor neg * a := not_congr heq
  rw [← hne, ← htiny]
  exact hin h

/-- A quotient or a root to the last bit kept, and a bit that says whether anything is left. -/
theorem alike_sticky {bits j s : Nat} {x : ℝ} (hj : 2 ^ (bits + 1) ≤ j) (h : x = j ∧ s = 0 ∨ (j : ℝ) < x ∧ x < j + 1 ∧ s = 1)
    (p : Int) : Alike bits (x * 2 ^ p) (2 * j + s) (p - 1) := by
  have hp : (0 : ℝ) < 2 ^ p := by positivity
  have hpow : (2 : ℝ) ^ (p - 1) = 2 ^ p / 2 := by rw [zpow_sub_one₀ two_ne_zero, div_eq_mul_inv]
  rcases h with ⟨rfl, rfl⟩ | ⟨hlo, hhi, rfl⟩
  · left
    rw [hpow]
    push_cast
    ring
  · right
    refine ⟨j, p, hj, by gcongr, by push_cast; gcongr, ?_, ?_⟩ <;> rw [hpow] <;> push_cast <;> nlinarith

/-! ## Reciprocals (R259) -/

theorem divSticky_eq (n d : Nat) : divSticky n d = 2 * (n / d) + if n % d = 0 then 0 else 1 := rfl

theorem divSticky_spec {n d : Nat} (hd : 0 < d) {bits : Nat} (h : 2 ^ (bits + 1) ≤ n / d) (p : Int) :
    Alike bits ((n / d : ℝ) * 2 ^ p) (divSticky n d) (p - 1) := by
  have hd' : (0 : ℝ) < d := Nat.cast_pos.2 hd
  rw [divSticky_eq]
  refine alike_sticky h ?_ p
  by_cases h0 : n % d = 0
  · left
    refine ⟨?_, if_pos h0⟩
    rw [Nat.cast_div (Nat.dvd_of_mod_eq_zero h0) hd'.ne']
  · right
    have hdiv : (d : ℝ) * (n / d : Nat) + (n % d : Nat) = n := mod_cast Nat.div_add_mod n d
    have hmod : ((n % d : Nat) : ℝ) < d := Nat.cast_lt.2 (Nat.mod_lt n hd)
    have hpos : (0 : ℝ) < (n % d : Nat) := Nat.cast_pos.2 (Nat.pos_of_ne_zero h0)
    refine ⟨?_, ?_, if_neg h0⟩
    · rw [lt_div_iff₀ hd']
      linarith
    · rw [div_lt_iff₀ hd']
      linarith

theorem recipNum_spec {m : Nat} (hm : m ≠ 0) (neg : Bool) (e : Int) {bits : Nat} (hbits : bits ≤ 62) :
    ∃ k c, recipNum neg m e = .fin neg k c ∧ k ≠ 0 ∧ Alike bits ((m : ℝ) * 2 ^ e)⁻¹ k c := by
  have hquot : 2 ^ 63 ≤ 2 ^ (Nat.log2 m + 64) / m := by
    rw [Nat.le_div_iff_mul_le (Nat.pos_of_ne_zero hm), show Nat.log2 m + 64 = 63 + (Nat.log2 m + 1) by omega, pow_add]
    exact Nat.mul_le_mul_left _ Nat.lt_log2_self.le
  have hlike := divSticky_spec (Nat.pos_of_ne_zero hm) ((Nat.pow_le_pow_right two_pos (show bits + 1 ≤ 63 by omega)).trans hquot)
    (-e - (Nat.log2 m + 64 : Nat))
  refine ⟨_, _, rfl, ?_, ?_⟩
  · rw [divSticky_eq]
    omega
  · convert hlike using 1
    rw [mul_inv, ← zpow_neg, sub_eq_add_neg, zpow_add₀ two_ne_zero, zpow_neg _ ((Nat.log2 m + 64 : Nat) : Int), zpow_natCast]
    push_cast
    field_simp

/-! ## Square roots (R259) -/

/-- One bit after another, the greatest root. -/
theorem isqrtBits_spec (n k r : Nat) (hlo : r * r ≤ n) (hhi : n < (r + 2 ^ k) * (r + 2 ^ k)) :
    isqrtBits n k r * isqrtBits n k r ≤ n ∧ n < (isqrtBits n k r + 1) * (isqrtBits n k r + 1) := by
  induction k generalizing r with
  | zero => exact ⟨hlo, hhi⟩
  | succ k ih =>
    rw [isqrtBits]
    have hpow : 2 ^ (k + 1) = 2 ^ k + 2 ^ k := by rw [pow_succ, mul_two]
    split_ifs with h
    · exact ih _ h (by rwa [hpow, ← add_assoc] at hhi)
    · exact ih _ hlo (not_le.1 h)

theorem isqrt_eq (n : Nat) : isqrt n = Nat.sqrt n := by
  have hlt : n < (0 + 2 ^ (Nat.log2 n / 2 + 1)) * (0 + 2 ^ (Nat.log2 n / 2 + 1)) := by
    rw [zero_add, ← pow_add]
    exact Nat.lt_log2_self.trans_le (Nat.pow_le_pow_right two_pos (by omega))
  obtain ⟨hlo, hhi⟩ := isqrtBits_spec n (Nat.log2 n / 2 + 1) 0 (Nat.zero_le _) hlt
  exact Nat.eq_sqrt.2 ⟨hlo, hhi⟩

theorem natSqrt_spec (n : Nat) : (Nat.sqrt n : ℝ) ≤ √n ∧ √n < Nat.sqrt n + 1 := by
  constructor
  · refine Real.le_sqrt_of_sq_le ?_
    exact_mod_cast Nat.sqrt_le' n
  · rw [Real.sqrt_lt' (by positivity), sq]
    exact_mod_cast Nat.lt_succ_sqrt n

theorem natSqrt_le_sqrt_lt (n : Nat) : √n = Nat.sqrt n ∧ Nat.sqrt n * Nat.sqrt n = n ∨
    (Nat.sqrt n : ℝ) < √n ∧ √n < Nat.sqrt n + 1 ∧ Nat.sqrt n * Nat.sqrt n ≠ n := by
  obtain ⟨hlo, hhi⟩ := natSqrt_spec n
  by_cases h : Nat.sqrt n * Nat.sqrt n = n
  · have hsq : (Nat.sqrt n : ℝ) * Nat.sqrt n = n := mod_cast h
    exact .inl ⟨by rw [← hsq, Real.sqrt_mul_self (Nat.cast_nonneg _)], h⟩
  · refine .inr ⟨hlo.lt_of_ne fun he => h ?_, hhi, h⟩
    have hsq := Real.mul_self_sqrt (Nat.cast_nonneg (α := ℝ) n)
    rw [← he] at hsq
    exact_mod_cast hsq

theorem sqrtNum_spec {m : Nat} (hm : m ≠ 0) (e : Int) {bits : Nat} (hbits : bits ≤ 62) :
    ∃ k c, sqrtNum m e = .fin false k c ∧ k ≠ 0 ∧ Alike bits √((m : ℝ) * 2 ^ e) k c := by
  obtain ⟨i, h, hi, hi', hie⟩ : ∃ (i : Nat) (h : Int), (130 + if (e - 130) % 2 = 0 then 0 else 1) = i ∧ 130 ≤ i ∧ e = 2 * h + i := by
    refine ⟨_, (e - (130 + if (e - 130) % 2 = 0 then 0 else 1 : Nat)) / 2, rfl, by omega, ?_⟩
    split_ifs <;> push_cast <;> omega
  have hnum : sqrtNum m e =
      .fin false (2 * Nat.sqrt (m * 2 ^ i) + if Nat.sqrt (m * 2 ^ i) * Nat.sqrt (m * 2 ^ i) = m * 2 ^ i then 0 else 1) (h - 1) := by
    simp only [sqrtNum, hi, isqrt_eq, Nat.shiftLeft_eq]
    rw [show (e - i) / 2 = h by omega]
  have hroot : 2 ^ 63 ≤ Nat.sqrt (m * 2 ^ i) := by
    rw [Nat.le_sqrt, ← pow_add]
    exact (Nat.pow_le_pow_right two_pos (show 63 + 63 ≤ i by omega)).trans (Nat.le_mul_of_pos_left _ (Nat.pos_of_ne_zero hm))
  have hval : √((m : ℝ) * 2 ^ e) = √(m * 2 ^ i : Nat) * 2 ^ h := by
    have hsplit : (m : ℝ) * 2 ^ e = (m * 2 ^ i : Nat) * (2 ^ h * 2 ^ h) := by
      rw [hie, zpow_add₀ two_ne_zero, zpow_natCast, two_mul, zpow_add₀ two_ne_zero]
      push_cast
      ring
    rw [hsplit, Real.sqrt_mul (Nat.cast_nonneg _), Real.sqrt_mul_self (by positivity)]
  refine ⟨_, _, hnum, by omega, ?_⟩
  rw [hval]
  refine alike_sticky ((Nat.pow_le_pow_right two_pos (show bits + 1 ≤ 63 by omega)).trans hroot) ?_ h
  exact (natSqrt_le_sqrt_lt (m * 2 ^ i)).imp (And.imp_right fun h => if_pos h) (And.imp_right (And.imp_right fun h => if_neg h))

end Sys2Proof

namespace Sys2Proof.Machine

open Sys2Proof

theorem mbits_ftyFmt (t : FTy) : (ftyFmt t).mbits ≤ 62 := by cases t <;> decide

/-- vrcp and vsqrt (R258 to R260). -/
theorem elemRcp_elemSqrt_spec (t : FTy) (mode : Word) (d a b : Nat) :
    let f := ftyFmt t
    let n := inF t mode a
    let rcp := elemRcp t mode d a b
    let sqrt := elemSqrt t mode d a b
    (n.isNan = true → rcp = (canonNaN f, when n.isSig wINV) ∧ sqrt = (canonNaN f, when n.isSig wINV)) ∧
    (∀ neg, n = .inf neg → IsCode f neg 0 rcp.1 ∧ rcp.2 = 0) ∧
    (n = .inf false → f.unpack sqrt.1 = .inf false ∧ sqrt.2 = 0) ∧ (n = .inf true → sqrt = (canonNaN f, wINV)) ∧
    (n.isZero = true → (f.unpack rcp.1 = .inf n.neg ∧ rcp.2 = wDZ) ∧ IsCode f n.neg 0 sqrt.1 ∧ sqrt.2 = 0) ∧
    ∀ neg m e, n = .fin neg m e → m ≠ 0 →
      RoundsTo f (rndOf mode) (mode.getLsbD 5) false neg (ratOf n)⁻¹ rcp ∧
      (neg = true → sqrt = (canonNaN f, wINV)) ∧
      (neg = false → RoundsTo f (rndOf mode) (mode.getLsbD 5) false false (Real.sqrt (ratOf n)) sqrt) := by
  have hf := ftyFmt_standard t
  simp only [elemRcp, elemSqrt, nanCode_false]
  cases inF t mode a with
  | nan s n => simp [Num.isNan, Num.isSig, Num.isZero]
  | inf n => cases n <;> simp [Num.isNan, Num.isZero, FloatFmt.unpack_infCode hf.ieee, hf.regular.isCode_zero]
  | fin n m e =>
    refine ⟨fun h => (Bool.false_ne_true h).elim, fun _ h => (nomatch h), fun h => (nomatch h), fun h => (nomatch h), fun h => ?_, ?_⟩
    · obtain rfl : m = 0 := beq_iff_eq.1 h
      exact ⟨⟨FloatFmt.unpack_infCode hf.ieee n, rfl⟩, hf.regular.isCode_zero n, rfl⟩
    · rintro _ _ _ ⟨⟩ hm
      simp only [if_neg hm]
      refine ⟨?_, fun h => if_pos h, fun h => ?_⟩
      · obtain ⟨k, c, hnum, hk, hlike⟩ := recipNum_spec hm n e (mbits_ftyFmt t)
        have hsign : (ratOf (.fin n m e))⁻¹ = signFactor n * ((m : ℝ) * 2 ^ e)⁻¹ := by
          rw [ratOf_fin, mul_inv]
          cases n <;> simp
        rw [hnum, outF_fin t mode n hk, hsign]
        exact roundsTo_of_alike hf.regular hk (by positivity) hlike (rndOf_ne_sr mode) _ _ n
      · subst h
        obtain ⟨k, c, hnum, hk, hlike⟩ := sqrtNum_spec hm e (mbits_ftyFmt t)
        have hround := roundsTo_of_alike hf.regular hk (by positivity) hlike (rndOf_ne_sr mode) (mode.getLsbD 5) false false
        rw [if_neg Bool.false_ne_true, hnum, outF_fin t mode false hk, ratOf_fin, signFactor_false, one_mul]
        rwa [signFactor_false, one_mul] at hround

end Sys2Proof.Machine

/-!
PROOFS. What the approximate special functions share (O30): delivery within a bound, signs, the whole part of a number, and the results
that are exact.
-/

namespace Sys2Proof.Machine

open Sys2Proof

/-! ## Delivery within a bound (R259) -/

section

variable {f : FloatFmt}

/-- The inexact flag, bit 4 of warn. -/
theorem getLsbD_wINX_or (w : Word) : (wINX ||| w).getLsbD 4 = true := by
  rw [BitVec.getLsbD_or, show wINX.getLsbD 4 = true from by decide, Bool.true_or]

theorem inexact_of_overflow {r : Rnd} {fout sat neg : Bool} {m : Nat} {e : Int}
    (h : (roundFloat f r fout sat (.fin neg m e)).2 &&& wOVF ≠ 0) :
    (roundFloat f r fout sat (.fin neg m e)).2.getLsbD 4 = true := by
  rw [roundFloat_fin] at h ⊢
  split_ifs at h ⊢ with hm
  · exact absurd BitVec.zero_and h
  · by_cases hb : f.Beyond (f.rounded r neg m e).1 (f.rounded r neg m e).2
    · rw [FloatFmt.roundFinite_of_beyond hb]
      exact show (wOVF ||| wINX).getLsbD 4 = true by decide
    · by_cases hkeep : fout = true ∧ (f.rounded r neg m e).1 ≠ 0 ∧ (f.rounded r neg m e).1 < 2 ^ f.mbits
      · obtain ⟨hout, h0, hsub⟩ := hkeep
        rw [FloatFmt.roundFinite_of_flushed hb hout h0 hsub]
        exact show (wUNF ||| wINX).getLsbD 4 = true by decide
      · rw [FloatFmt.roundFinite_of_kept hb hkeep, FloatFmt.rangeFlags] at h
        have hnone : ∀ inx unf, (when inx wINX ||| when unf wUNF) &&& wOVF = 0 := by decide
        exact absurd (hnone _ _) h

theorem roundFloat_fin_lt (hf : f.Regular) (r : Rnd) (fout sat neg : Bool) (m : Nat) (e : Int) :
    (roundFloat f r fout sat (.fin neg m e)).1 < 2 ^ (1 + f.ebits + f.mbits) := by
  rw [roundFloat_fin]
  split_ifs with hm
  · exact (hf.isCode_zero neg).1
  · exact lt_of_roundsTo (roundsTo_roundFinite hf hm e r fout sat neg)

variable (f) (b : Bound) (fout : Bool) (x : Enc) (choice : Nat)

/-- The nearest value to the middle of an enclosure, with its flags. -/
def nearest : Nat × Word := roundFloat f .rne false false x.mid

/-- The code that a delivery takes: the free choice within the bound, or the nearest. -/
def boundedChoice : Nat :=
  if withinBound f b x (f.unpack (choice % 2 ^ (1 + f.ebits + f.mbits))) then choice % 2 ^ (1 + f.ebits + f.mbits)
  else (nearest f x).1

/-- A number without a normal magnitude. -/
def isTiny (m : Nat) (e : Int) : Bool := m == 0 || floorLog m e < 1 - (f.bias : Int)

/-- A code with the flags of its delivery, after output flushing. -/
def settle (y : Nat) : Nat × Word :=
  match f.unpack y with
  | .fin neg m e => if isTiny f m e && fout then (f.code neg 0 0, wUNF ||| wINX) else (y, wINX ||| when (isTiny f m e) wUNF)
  | _ => (y, wINX)

variable {f fout} in
theorem settle_of_fin {y : Nat} {neg : Bool} {m : Nat} {e : Int} (hu : f.unpack y = .fin neg m e) :
    settle f fout y =
      if isTiny f m e && fout then (f.code neg 0 0, wUNF ||| wINX) else (y, wINX ||| when (isTiny f m e) wUNF) := by
  simp only [settle, hu]

theorem mid_fin : ∃ neg m e, x.mid = .fin neg m e := by
  obtain ⟨n, m, e, h, -⟩ := ofScaled_spec false (x.lo + x.hi) (x.e - 1)
  exact ⟨n, m, e, h⟩

variable {f b fout x choice}

/-- A delivery is the overflow of the nearest value, or the code chosen. -/
theorem deliver_eq (f : FloatFmt) (b : Bound) (fout : Bool) (x : Enc) (choice : Nat) : deliver f b fout x choice =
    if (nearest f x).2 &&& wOVF ≠ 0 then nearest f x else settle f fout (boundedChoice f b x choice) := rfl

theorem settle_spec (hf : f.Regular) {y : Nat} (hy : y < 2 ^ (1 + f.ebits + f.mbits)) :
    (settle f fout y).2.getLsbD 4 = true ∧ (settle f fout y).1 < 2 ^ (1 + f.ebits + f.mbits) := by
  unfold settle
  split
  · split_ifs
    · exact ⟨show (wUNF ||| wINX).getLsbD 4 = true by decide, (hf.isCode_zero _).1⟩
    · exact ⟨getLsbD_wINX_or _, hy⟩
  · exact ⟨show wINX.getLsbD 4 = true by decide, hy⟩

theorem nearest_lt (hf : f.Regular) : (nearest f x).1 < 2 ^ (1 + f.ebits + f.mbits) := by
  obtain ⟨n, m, e, hmid⟩ := mid_fin x
  rw [nearest, hmid]
  exact roundFloat_fin_lt hf _ _ _ _ _ _

theorem boundedChoice_lt (hf : f.Regular) : boundedChoice f b x choice < 2 ^ (1 + f.ebits + f.mbits) := by
  unfold boundedChoice
  split_ifs
  · exact Nat.mod_lt _ (Nat.two_pow_pos _)
  · exact nearest_lt hf

/-- Every delivery is inexact, and a code of its format. -/
theorem deliver_spec (hf : f.Regular) :
    (deliver f b fout x choice).2.getLsbD 4 = true ∧ (deliver f b fout x choice).1 < 2 ^ (1 + f.ebits + f.mbits) := by
  rw [deliver_eq]
  split_ifs with hovf
  · refine ⟨?_, nearest_lt hf⟩
    obtain ⟨n, m, e, hmid⟩ := mid_fin x
    rw [nearest, hmid] at hovf ⊢
    exact inexact_of_overflow hovf
  · exact settle_spec hf (boundedChoice_lt hf)

end

/-! ## Signs (R259) -/

section

variable {f : FloatFmt}

/-- A code with its sign bit turned over where `n` says so. -/
def withSign (f : FloatFmt) (n : Bool) (r : Nat × Word) : Nat × Word :=
  (if n then (if 2 ^ (f.ebits + f.mbits) ≤ r.1 then r.1 - 2 ^ (f.ebits + f.mbits) else r.1 + 2 ^ (f.ebits + f.mbits)) else r.1, r.2)

@[simp] theorem withSign_false (f : FloatFmt) (r : Nat × Word) : withSign f false r = r := rfl

@[simp] theorem withSign_snd (f : FloatFmt) (n : Bool) (r : Nat × Word) : (withSign f n r).2 = r.2 := rfl

theorem withSign_code {neg : Bool} {E M : Nat} (hE : E < 2 ^ f.ebits) (hM : M < 2 ^ f.mbits) (w : Word) :
    (withSign f true (f.code neg E M, w)).1 = f.code (!neg) E M := by
  have hsign := sign_of_code (neg := neg) hE hM
  have hadd : f.code true E M = f.code false E M + 2 ^ (f.ebits + f.mbits) := by
    simp only [FloatFmt.code, if_true, Bool.false_eq_true, if_false, pow_add]
    ring
  unfold withSign
  cases neg with
  | false =>
    rw [if_pos rfl, if_neg (of_decide_eq_false hsign)]
    exact hadd.symm
  | true =>
    rw [if_pos rfl, if_pos (of_decide_eq_true hsign)]
    exact (congrArg (· - _) hadd).trans (Nat.add_sub_cancel _ _)

/-- Turned over twice, a sign is as it was. -/
theorem withSign_withSign {r : Nat × Word} (h : r.1 < 2 ^ (1 + f.ebits + f.mbits)) :
    withSign f true (withSign f true r) = r := by
  obtain ⟨neg, E, M, hE, hM, hr⟩ := FloatFmt.exists_code h
  refine Prod.ext ?_ rfl
  obtain ⟨y, w⟩ := r
  obtain rfl : y = f.code neg E M := hr
  have hone : withSign f true (f.code neg E M, w) = (f.code (!neg) E M, w) := Prod.ext (withSign_code hE hM w) rfl
  rw [hone, withSign_code hE hM, Bool.not_not]

/-- The number of a code whose sign is turned over. -/
theorem isCode_withSign (hf : f.Regular) {neg : Bool} {v : ℝ} {r : Nat × Word} (h : IsCode f neg v r.1) (n : Bool) :
    IsCode f (n != neg) (signFactor n * v) (withSign f n r).1 := by
  cases n with
  | false => simpa using h
  | true =>
    obtain ⟨y, w⟩ := r
    obtain ⟨hlt, m, e, hu, rfl⟩ := h
    obtain ⟨s, E, M, hE, hM, rfl⟩ := FloatFmt.exists_code hlt
    have hfin := hf.finite_of_unpack hE hM hu
    rw [hf.unpack_code_of_finite hM hfin] at hu
    cases hu
    rw [withSign_code hE hM]
    have hcode := hf.isCode_field hM hfin (!neg)
    rw [ratOf_fin, Bool.true_bne]
    have hsign : signFactor true * (signFactor neg * (f.fieldSig E M * 2 ^ f.fieldExp E)) =
        signFactor (!neg) * (f.fieldSig E M * 2 ^ f.fieldExp E) := by cases neg <;> simp
    rwa [hsign]

end

/-! ## Exact results (R259) -/

/-- A number delivered with no flag. -/
def exactCode (f : FloatFmt) (x : Num) : Nat × Word := ((roundFloat f .rne false false x).1, 0)

theorem isCode_exactCode {f : FloatFmt} (hf : f.Regular) {m : Nat} {e : Int} (h : f.Holds m e) (neg : Bool) :
    IsCode f neg (ratOf (.fin neg m e)) (exactCode f (.fin neg m e)).1 :=
  (roundFloat_of_onGrid hf (h.onGrid neg) h.max .rne false).1

/-- A power of two within the exponents of the format. -/
theorem isCode_exactCode_two_pow {f : FloatFmt} (hf : f.Standard) {k : Int} (hmin : f.qmin ≤ k) (hmax : k ≤ f.bias) :
    IsCode f false (2 ^ k) (exactCode f (.fin false 1 k)).1 := by
  have h := isCode_exactCode hf.regular (hf.holds_two_pow hmin hmax) false
  rwa [ratOf_fin, signFactor_false, one_mul, Nat.cast_one, one_mul] at h

theorem exactCode_zero {f : FloatFmt} (hf : f.Regular) (neg : Bool) : IsCode f neg 0 (exactCode f (.fin neg 0 0)).1 :=
  hf.isCode_zero neg

/-! ## The whole part of a number, and the rest (R259) -/

theorem ceil_div_eq (n : Nat) {d : Nat} (hd : 0 < d) : (if n / d * d = n then n / d else n / d + 1) = ⌈(n / d : ℝ)⌉₊ := by
  have hd' : (0 : ℝ) < d := Nat.cast_pos.2 hd
  split_ifs with h
  · have hdiv : (n / d : ℝ) = (n / d : Nat) := by
      rw [div_eq_iff hd'.ne']
      exact_mod_cast h.symm
    rw [hdiv, Nat.ceil_natCast]
  · symm
    rw [Nat.ceil_eq_iff (Nat.succ_ne_zero _), Nat.succ_sub_one, lt_div_iff₀ hd', div_le_iff₀ hd']
    have hle := Nat.div_mul_le_self n d
    have hlt := Nat.lt_mul_div_succ n hd
    rw [mul_comm] at hlt
    exact ⟨mod_cast hle.lt_of_ne h, mod_cast hlt.le⟩

/-- The whole part, and the rest over 2^128, rounded down and up. -/
theorem splitFloor_eq (v e : Int) :
    let x : ℝ := v * 2 ^ e
    splitFloor v e = (⌊x⌋, ⌊(x - ⌊x⌋) * 2 ^ fxBits⌋₊, ⌈(x - ⌊x⌋) * 2 ^ fxBits⌉₊) := by
  intro x
  unfold splitFloor
  split_ifs with he
  · have hx : x = (v * 2 ^ e.toNat : Int) := by
      simp only [x]
      push_cast
      rw [← zpow_natCast, Int.toNat_of_nonneg he]
    rw [hx, Int.floor_intCast, sub_self, zero_mul, Nat.floor_zero, Nat.ceil_zero]
  · obtain ⟨k, hk⟩ : ∃ k : Nat, e = -k := ⟨(-e).toNat, by omega⟩
    subst hk
    simp only [neg_neg, Int.toNat_natCast, Nat.shiftLeft_eq, Nat.shiftRight_eq_div_pow]
    have hpos : (0 : ℝ) < 2 ^ k := by positivity
    have hpow : (0 : Int) < 2 ^ k := by positivity
    obtain ⟨r, hr⟩ : ∃ r : Nat, v - v / 2 ^ k * 2 ^ k = r := by
      refine ⟨(v % 2 ^ k).toNat, ?_⟩
      rw [Int.toNat_of_nonneg (Int.emod_nonneg _ hpow.ne')]
      have := Int.mul_ediv_add_emod v (2 ^ k)
      linarith
    have hx : x = v / 2 ^ k := by
      simp only [x]
      rw [zpow_neg, zpow_natCast, div_eq_mul_inv]
    have hfloor : ⌊x⌋ = v / 2 ^ k := by
      have h := Int.floor_div_natCast (v : ℝ) (2 ^ k)
      rw [Int.floor_intCast] at h
      rw [hx]
      exact_mod_cast h
    have hrest : (x - ⌊x⌋) * 2 ^ fxBits = (r * 2 ^ fxBits : Nat) / (2 ^ k : Nat) := by
      have hv : (v : ℝ) - (v / 2 ^ k : Int) * 2 ^ k = r := mod_cast hr
      rw [hfloor, hx]
      push_cast at hv ⊢
      rw [← hv]
      field_simp
    rw [hrest, Nat.floor_div_eq_div, ← ceil_div_eq _ (Nat.two_pow_pos k), hfloor, hr, Int.toNat_natCast]

end Sys2Proof.Machine

/-!
PROOFS. The approximate special functions (O30): where they are exact, what else raises INX, and their symmetries.
-/

namespace Sys2Proof.Machine

open Sys2Proof

/-! ## Powers of two, whole numbers and halves (R259) -/

theorem floorLog_eq {m : Nat} {e k : Int} (hlo : (2 : ℝ) ^ k ≤ m * 2 ^ e) (hhi : (m : ℝ) * 2 ^ e < 2 ^ (k + 1)) : floorLog m e = k := by
  have hm : m ≠ 0 := by
    rintro rfl
    have : (0 : ℝ) < 2 ^ k := by positivity
    rw [Nat.cast_zero, zero_mul] at hlo
    exact absurd hlo this.not_ge
  have h1 : ¬floorLog m e < k := by rwa [← abs_ratOf_lt_iff hm false, abs_ratOf_fin, not_lt]
  have h2 : floorLog m e < k + 1 := by rwa [← abs_ratOf_lt_iff hm false, abs_ratOf_fin]
  omega

/-- A number is a power of two when its significand is one. -/
theorem eq_two_zpow_iff (m : Nat) (e k : Int) : (m : ℝ) * 2 ^ e = 2 ^ k ↔ m = 2 ^ Nat.log2 m ∧ floorLog m e = k := by
  have hval (h : m = 2 ^ Nat.log2 m) : (m : ℝ) * 2 ^ e = 2 ^ floorLog m e := by
    rw [floorLog, zpow_add₀ two_ne_zero, zpow_natCast]
    congr 1
    exact_mod_cast h
  constructor
  · intro h
    have hlog : floorLog m e = k := floorLog_eq h.ge (h.trans_lt (zpow_lt_zpow_right₀ one_lt_two (lt_add_one k)))
    refine ⟨?_, hlog⟩
    rw [← hlog, floorLog, zpow_add₀ two_ne_zero, zpow_natCast, mul_left_inj' (by positivity)] at h
    exact_mod_cast h
  · rintro ⟨h, rfl⟩
    exact hval h

/-- No part is left of a whole number. -/
theorem rest_whole_iff (x : ℝ) : ⌊(x - ⌊x⌋) * 2 ^ fxBits⌋₊ = 0 ∧ ⌈(x - ⌊x⌋) * 2 ^ fxBits⌉₊ = 0 ↔ ∃ k : Int, x = k := by
  have hpos : (0 : ℝ) < 2 ^ fxBits := by positivity
  have hrest : 0 ≤ x - ⌊x⌋ := Int.fract_nonneg x
  rw [Nat.ceil_eq_zero]
  constructor
  · rintro ⟨-, h⟩
    exact ⟨⌊x⌋, by nlinarith⟩
  · rintro ⟨k, rfl⟩
    simp

/-- Half a part is left of half an odd number. -/
theorem rest_half_iff (x : ℝ) :
    ⌊(x - ⌊x⌋) * 2 ^ fxBits⌋₊ = 2 ^ (fxBits - 1) ∧ ⌈(x - ⌊x⌋) * 2 ^ fxBits⌉₊ = 2 ^ (fxBits - 1) ↔ x = ⌊x⌋ + 1 / 2 := by
  have hpow : (2 : ℝ) ^ fxBits = 2 * (2 ^ (fxBits - 1) : Nat) := by
    push_cast
    rw [← pow_succ']
    rfl
  have hpos : (0 : ℝ) < (2 ^ (fxBits - 1) : Nat) := by positivity
  have hrest : 0 ≤ x - ⌊x⌋ := Int.fract_nonneg x
  generalize 2 ^ (fxBits - 1) = h at *
  rw [hpow]
  constructor
  · rintro ⟨hf, hc⟩
    have h1 := Nat.floor_le (show 0 ≤ (x - ⌊x⌋) * (2 * (h : ℝ)) by positivity)
    have h2 := Nat.le_ceil ((x - ⌊x⌋) * (2 * (h : ℝ)))
    rw [hf] at h1
    rw [hc] at h2
    have heq : (x - ⌊x⌋) * 2 * h = 1 * h := by linarith
    have := mul_right_cancel₀ hpos.ne' heq
    linarith
  · intro hx
    have heq : (x - ⌊x⌋) * (2 * (h : ℝ)) = (h : Nat) := by
      have : x - ⌊x⌋ = 1 / 2 := by linarith
      rw [this]
      ring
    rw [heq, Nat.floor_natCast, Nat.ceil_natCast]
    exact ⟨rfl, rfl⟩

/-- The integer of a number's sign and significand. -/
theorem cast_signed_mul (neg : Bool) (m : Nat) (e : Int) :
    ((if neg then -(m : Int) else m : Int) : ℝ) * 2 ^ e = ratOf (.fin neg m e) := by
  rw [ratOf_fin]
  cases neg <;> simp

section

variable {t : FTy} {fout neg : Bool} {m : Nat} {e : Int} (bits : Nat)

/-! ## vrsq (R259) -/

/-- The condition under which vrsq is exact. -/
def rsqExact (f : FloatFmt) (m : Nat) (e : Int) : Bool :=
  m == 2 ^ Nat.log2 m && floorLog m e % 2 == 0 && decide (1 - (f.bias : Int) ≤ -(floorLog m e / 2))

theorem approxFinite_rsq (t : FTy) (fout neg : Bool) (m : Nat) (e : Int) :
    approxFinite .rsq t fout neg m e bits =
      if rsqExact (ftyFmt t) m e then exactCode (ftyFmt t) (.fin false 1 (-(floorLog m e / 2)))
      else deliver (ftyFmt t) ⟨1, none⟩ fout (encRsqrt m e) (Config.approx 0 t bits) := rfl

theorem four_zpow (n : Int) : (4 : ℝ) ^ n = 2 ^ (2 * n) := by
  rw [zpow_mul]
  norm_num

theorem rsqExact_iff (f : FloatFmt) (m : Nat) (e n : Int) :
    (m : ℝ) * 2 ^ e = 4 ^ n ∧ leastExp f ≤ -n ↔ rsqExact f m e = true ∧ floorLog m e / 2 = n := by
  have hmin : leastExp f = 1 - (f.bias : Int) := rfl
  rw [four_zpow, eq_two_zpow_iff, rsqExact, Bool.and_eq_true, Bool.and_eq_true, beq_iff_eq, beq_iff_eq, decide_eq_true_iff]
  constructor
  · rintro ⟨⟨hm, hl⟩, hn⟩
    exact ⟨⟨⟨hm, by omega⟩, by omega⟩, by omega⟩
  · rintro ⟨⟨⟨hm, hl⟩, hn⟩, hd⟩
    exact ⟨⟨hm, by omega⟩, by omega⟩

/-- Half the exponent of a number is within the exponents of its format. -/
theorem neg_half_floorLog_le (h : (ftyFmt t).Holds m e) : -(floorLog m e / 2) ≤ (ftyFmt t).bias := by
  have hmin : -(ftyFmt t).qmin ≤ 2 * (ftyFmt t).bias := by cases t <;> decide
  have hle : (ftyFmt t).qmin ≤ floorLog m e := h.le.trans (le_add_of_nonneg_left (Int.natCast_nonneg _))
  omega

theorem approxFinite_rsq_exact (h : (ftyFmt t).Holds m e) {k : Int} (hk : (m : ℝ) * 2 ^ e = 4 ^ k)
    (hmin : leastExp (ftyFmt t) ≤ -k) :
    IsCode (ftyFmt t) false (2 ^ (-k)) (approxFinite .rsq t fout neg m e bits).1 ∧
      (approxFinite .rsq t fout neg m e bits).2 = 0 := by
  obtain ⟨hcond, rfl⟩ := (rsqExact_iff _ m e k).1 ⟨hk, hmin⟩
  rw [approxFinite_rsq, if_pos hcond]
  have hq : (ftyFmt t).qmin = leastExp (ftyFmt t) - (ftyFmt t).mbits := rfl
  exact ⟨isCode_exactCode_two_pow (ftyFmt_standard t) (by omega) (neg_half_floorLog_le h), rfl⟩

theorem approxFinite_rsq_inexact (h : ¬∃ n : Int, (m : ℝ) * 2 ^ e = 4 ^ n ∧ leastExp (ftyFmt t) ≤ -n) :
    (approxFinite .rsq t fout neg m e bits).2.getLsbD 4 = true := by
  rw [approxFinite_rsq, if_neg fun hc => h ⟨_, (rsqExact_iff _ m e _).2 ⟨hc, rfl⟩⟩]
  exact (deliver_spec (ftyFmt_standard t).regular).1

/-! ## vexp2 (R259) -/

theorem approxFinite_exp2 (t : FTy) (fout neg : Bool) (m : Nat) (e : Int) :
    let s := splitFloor (if neg then -(m : Int) else m) (max e (-400))
    approxFinite .exp2 t fout neg m e bits =
      if s.2.1 = 0 ∧ s.2.2 = 0 ∧ e = max e (-400) ∧ 1 - ((ftyFmt t).bias : Int) ≤ s.1 ∧ s.1 ≤ (ftyFmt t).bias then
        exactCode (ftyFmt t) (.fin false 1 s.1)
      else if (20 : Int) ≤ floorLog m e then
        (if neg then deliver (ftyFmt t) ⟨1, none⟩ fout encTiny (Config.approx 1 t bits)
          else ((ftyFmt t).infCode false, wOVF ||| wINX))
      else deliver (ftyFmt t) ⟨1, none⟩ fout (encExp2 (if neg then -(m : Int) else m) e) (Config.approx 1 t bits) := rfl

/-- A number of a format that is whole has no great negative exponent. -/
theorem exp_ge_of_whole (hm : m ≠ 0) (h : (ftyFmt t).Holds m e) {k : Int} (hk : ratOf (.fin neg m e) = k) : -400 ≤ e := by
  have hbits : (ftyFmt t).mbits ≤ 62 := mbits_ftyFmt t
  have hone : (1 : ℝ) ≤ m * 2 ^ e := by
    have hne := ratOf_fin_ne_zero hm neg e
    rw [hk, Int.cast_ne_zero] at hne
    rw [← abs_ratOf_fin neg, hk, ← Int.cast_abs]
    exact_mod_cast Int.one_le_abs hne
  by_contra hlt
  refine absurd hone (not_le.2 ?_)
  calc (m : ℝ) * 2 ^ e < (2 ^ ((ftyFmt t).mbits + 1) : Nat) * 2 ^ e := by gcongr; exact h.lt
    _ = 2 ^ (((ftyFmt t).mbits + 1 : Nat) + e) := by rw [zpow_add₀ two_ne_zero, zpow_natCast]; push_cast; rfl
    _ ≤ 2 ^ (0 : Int) := zpow_le_zpow_right₀ one_le_two (by push_cast; omega)
    _ = 1 := zpow_zero _

theorem approxFinite_exp2_exact (hm : m ≠ 0) (h : (ftyFmt t).Holds m e) {k : Int} (hk : ratOf (.fin neg m e) = k)
    (hmin : leastExp (ftyFmt t) ≤ k) (hmax : k ≤ (ftyFmt t).bias) :
    IsCode (ftyFmt t) false (2 ^ k) (approxFinite .exp2 t fout neg m e bits).1 ∧
      (approxFinite .exp2 t fout neg m e bits).2 = 0 := by
  have he : max e (-400) = e := max_eq_left (exp_ge_of_whole hm h hk)
  have hq : (ftyFmt t).qmin = leastExp (ftyFmt t) - (ftyFmt t).mbits := rfl
  have hsplit := splitFloor_eq (if neg then -(m : Int) else m) e
  obtain ⟨hlo, hhi⟩ := (rest_whole_iff (k : ℝ)).2 ⟨k, rfl⟩
  rw [cast_signed_mul, hk] at hsplit
  rw [approxFinite_exp2, he, hsplit, hlo, hhi, Int.floor_intCast, if_pos ⟨rfl, rfl, rfl, hmin, hmax⟩]
  exact ⟨isCode_exactCode_two_pow (ftyFmt_standard t) (by omega) hmax, rfl⟩

theorem approxFinite_exp2_inexact
    (h : ¬∃ n : Int, ratOf (.fin neg m e) = n ∧ leastExp (ftyFmt t) ≤ n ∧ n ≤ (ftyFmt t).bias) :
    (approxFinite .exp2 t fout neg m e bits).2.getLsbD 4 = true := by
  have hf := (ftyFmt_standard t).regular
  rw [approxFinite_exp2, splitFloor_eq, if_neg]
  · split_ifs
    · exact (deliver_spec hf).1
    · exact show (wOVF ||| wINX).getLsbD 4 = true by decide
    · exact (deliver_spec hf).1
    · exact (deliver_spec hf).1
  · rintro ⟨hlo, hhi, he, hmin, hmax⟩
    rw [← he, cast_signed_mul] at hlo hhi hmin hmax
    obtain ⟨k, hk⟩ := (rest_whole_iff _).1 ⟨hlo, hhi⟩
    rw [hk, Int.floor_intCast] at hmin hmax
    exact h ⟨k, hk, hmin, hmax⟩

/-! ## vlog2 (R259) -/

theorem approxFinite_log2_of_pow2 (hm : m = 2 ^ Nat.log2 m) :
    approxFinite .log2 t fout neg m e bits = exactCode (ftyFmt t) (ofScaled false (floorLog m e) 0) := if_pos (beq_iff_eq.2 hm)

theorem approxFinite_log2_of_not_pow2 (hm : m ≠ 2 ^ Nat.log2 m) :
    ∃ s b x c, approxFinite .log2 t fout neg m e bits = withSign (ftyFmt t) s (deliver (ftyFmt t) b fout x c) := by
  have hcond : ¬(m == 2 ^ Nat.log2 m) = true := mt beq_iff_eq.1 hm
  simp only [approxFinite, hcond]
  by_cases hx : (encLog2 m e).hi ≤ 0
  · exact ⟨true, _, _, _, if_pos hx⟩
  · exact ⟨false, _, _, _, if_neg hx⟩

/-- The exponents of a format's numbers are numbers of it. -/
theorem holds_exponent (h : (ftyFmt t).Holds m e) {k : Int} (hk : (m : ℝ) * 2 ^ e = 2 ^ k) : (ftyFmt t).Holds k.natAbs 0 := by
  have hreach : ((ftyFmt t).bias : Int) < 2 ^ ((ftyFmt t).mbits + 1) ∧ -(ftyFmt t).qmin < 2 ^ ((ftyFmt t).mbits + 1) := by
    cases t <;> decide
  have hmax : k < (ftyFmt t).bias + 1 := by
    rw [← zpow_lt_zpow_iff_right₀ (one_lt_two : (1 : ℝ) < 2), ← hk]
    exact h.max.trans_lt (ftyFmt_standard t).maxMag_lt
  have hmin : (ftyFmt t).qmin ≤ k := by
    have hlog := ((eq_two_zpow_iff m e k).1 hk).2
    exact h.le.trans (by unfold floorLog at hlog; omega)
  refine holds_whole t ?_
  zify
  rw [abs_lt]
  constructor <;> omega

theorem approxFinite_log2_exact (h : (ftyFmt t).Holds m e) {k : Int} (hk : (m : ℝ) * 2 ^ e = 2 ^ k) :
    (∃ s, IsCode (ftyFmt t) s k (approxFinite .log2 t fout neg m e bits).1) ∧
      (approxFinite .log2 t fout neg m e bits).2 = 0 := by
  obtain ⟨hpow, hlog⟩ := (eq_two_zpow_iff m e k).1 hk
  have hf := (ftyFmt_standard t).regular
  rw [approxFinite_log2_of_pow2 bits hpow, hlog]
  refine ⟨?_, rfl⟩
  by_cases h0 : k = 0
  · subst h0
    rw [Int.cast_zero, ofScaled, if_pos rfl]
    exact ⟨false, exactCode_zero hf false⟩
  · have hcode := isCode_exactCode hf (holds_exponent h hk) (decide (k < 0))
    have hval : ratOf (.fin (decide (k < 0)) k.natAbs 0) = k := by
      have habs : (if decide (k < 0) then -(k.natAbs : Int) else k.natAbs) = k := by
        split_ifs with hneg
        · have := of_decide_eq_true hneg
          omega
        · have := of_decide_eq_false (Bool.eq_false_of_not_eq_true hneg)
          omega
      rw [← cast_signed_mul, zpow_zero, mul_one, habs]
    rw [hval] at hcode
    rw [ofScaled, if_neg h0]
    exact ⟨_, hcode⟩

theorem approxFinite_log2_inexact (h : ¬∃ n : Int, (m : ℝ) * 2 ^ e = 2 ^ n) :
    (approxFinite .log2 t fout neg m e bits).2.getLsbD 4 = true := by
  have hpow : m ≠ 2 ^ Nat.log2 m := fun hm => h ⟨_, (eq_two_zpow_iff m e _).2 ⟨hm, rfl⟩⟩
  obtain ⟨s, b, x, c, heq⟩ := approxFinite_log2_of_not_pow2 (t := t) (fout := fout) (neg := neg) (e := e) bits hpow
  rw [heq]
  exact (deliver_spec (ftyFmt_standard t).regular).1

/-! ## vsin and vcos (R259) -/

/-- The result of vsin for a positive argument before its sign, unless the argument is whole. -/
def sinPart (t : FTy) (fout : Bool) (m : Nat) (e : Int) (c : Nat) : Nat × Word :=
  let s := splitFloor m e
  if s.2.1 = 2 ^ (fxBits - 1) ∧ s.2.2 = 2 ^ (fxBits - 1) then exactCode (ftyFmt t) (.fin false 1 0)
  else deliver (ftyFmt t) (Sys2Proof.boundOf .sin t false) fout
    (if s.2.1 < 2 ^ (fxBits - 1) then encSin s.2.1 s.2.2 else encSin (2 ^ fxBits - s.2.2) (2 ^ fxBits - s.2.1)) c

theorem approxFinite_sin (t : FTy) (fout neg : Bool) (m : Nat) (e : Int) :
    let s := splitFloor m e
    approxFinite .sin t fout neg m e bits =
      if s.2.1 = 0 ∧ s.2.2 = 0 then exactCode (ftyFmt t) (.fin neg 0 0)
      else withSign (ftyFmt t) ((s.1.toNat % 2 == 1) != neg)
        (sinPart t fout m e (Config.approx 3 t (bits % 2 ^ ((ftyFmt t).ebits + (ftyFmt t).mbits)))) := by
  intro s
  rw [sinPart, apply_ite (withSign (ftyFmt t) ((s.1.toNat % 2 == 1) != neg))]
  rfl

/-- The magnitude of vcos before the sign of its quadrant. -/
theorem approxFinite_cos (t : FTy) (fout neg : Bool) (m : Nat) (e : Int) :
    let s := splitFloor m e
    let half := 2 ^ (fxBits - 1)
    approxFinite .cos t fout neg m e bits =
      if s.2.1 = 0 ∧ s.2.2 = 0 then withSign (ftyFmt t) (s.1.toNat % 2 == 1) (exactCode (ftyFmt t) (.fin false 1 0))
      else if s.2.1 = half ∧ s.2.2 = half then exactCode (ftyFmt t) (.fin false 0 0)
      else withSign (ftyFmt t) ((s.1.toNat % 2 == 1) != !(decide (s.2.1 < half)))
        (deliver (ftyFmt t) (Sys2Proof.boundOf .cos t false) fout
          (if s.2.1 < half then encSin (half - s.2.2) (half - s.2.1) else encSin (s.2.1 - half) (s.2.2 - half))
          (Config.approx 4 t (bits % 2 ^ ((ftyFmt t).ebits + (ftyFmt t).mbits)))) := rfl

end

end Sys2Proof.Machine

/-!
PROOFS. vsin, vcos and vtanh (O30): where they are exact, and what else raises INX.
-/

namespace Sys2Proof.Machine

open Sys2Proof

section

variable {t : FTy} {fout neg : Bool} {m : Nat} {e : Int} (bits : Nat)

/-! ## Half-turns: whole numbers, halves and the rest (R259) -/

theorem splitFloor_natCast (m : Nat) (e : Int) :
    let x : ℝ := m * 2 ^ e
    splitFloor m e = (⌊x⌋, ⌊(x - ⌊x⌋) * 2 ^ fxBits⌋₊, ⌈(x - ⌊x⌋) * 2 ^ fxBits⌉₊) := by
  simpa using splitFloor_eq m e

theorem splitFloor_whole {k : Int} (hx : (m : ℝ) * 2 ^ e = k) : splitFloor m e = (k, 0, 0) := by
  obtain ⟨hlo, hhi⟩ := (rest_whole_iff (k : ℝ)).2 ⟨k, rfl⟩
  rw [splitFloor_natCast, hx, hlo, hhi, Int.floor_intCast]

theorem splitFloor_half {k : Int} (hx : (m : ℝ) * 2 ^ e = k + 1 / 2) :
    splitFloor m e = (k, 2 ^ (fxBits - 1), 2 ^ (fxBits - 1)) := by
  have hfloor : ⌊(m : ℝ) * 2 ^ e⌋ = k := Int.floor_eq_iff.2 ⟨by linarith, by linarith⟩
  obtain ⟨hlo, hhi⟩ := (rest_half_iff ((m : ℝ) * 2 ^ e)).2 (by rw [hfloor, hx])
  rw [splitFloor_natCast, hlo, hhi, hfloor]

theorem splitFloor_not_whole (h : ¬∃ n : Int, 2 * ((m : ℝ) * 2 ^ e) = n) :
    ¬((splitFloor m e).2.1 = 0 ∧ (splitFloor m e).2.2 = 0) := by
  rw [splitFloor_natCast, rest_whole_iff]
  rintro ⟨k, hk⟩
  exact h ⟨2 * k, by rw [hk]; push_cast; rfl⟩

theorem splitFloor_not_half (h : ¬∃ n : Int, 2 * ((m : ℝ) * 2 ^ e) = n) :
    ¬((splitFloor m e).2.1 = 2 ^ (fxBits - 1) ∧ (splitFloor m e).2.2 = 2 ^ (fxBits - 1)) := by
  rw [splitFloor_natCast, rest_half_iff]
  intro hk
  refine h ⟨2 * ⌊(m : ℝ) * 2 ^ e⌋ + 1, ?_⟩
  push_cast
  linarith

theorem not_exists_twice (h : ¬∃ n : Int, 2 * ratOf (.fin neg m e) = n) : ¬∃ n : Int, 2 * ((m : ℝ) * 2 ^ e) = n := by
  rintro ⟨n, hn⟩
  rw [ratOf_fin] at h
  cases neg with
  | false => exact h ⟨n, by rw [← hn, signFactor_false, one_mul]⟩
  | true => exact h ⟨-n, by rw [Int.cast_neg, ← hn, signFactor_true]; ring⟩

theorem half_ne_zero : ¬(2 ^ (fxBits - 1) = 0 ∧ 2 ^ (fxBits - 1) = 0) := fun h => (Nat.two_pow_pos _).ne' h.1

/-- One, with a sign. -/
theorem isCode_signed_one (t : FTy) (n : Bool) :
    IsCode (ftyFmt t) n (if n then -1 else 1) (withSign (ftyFmt t) n (exactCode (ftyFmt t) (.fin false 1 0))).1 := by
  have hmin : (ftyFmt t).qmin ≤ 0 := by cases t <;> decide
  have h := isCode_withSign (ftyFmt_standard t).regular
    (isCode_exactCode_two_pow (ftyFmt_standard t) hmin (Int.natCast_nonneg _)) n (r := exactCode (ftyFmt t) (.fin false 1 0))
  rw [zpow_zero, mul_one, Bool.bne_false] at h
  cases n <;> simpa using h

theorem isCode_signed_one_of_odd (t : FTy) {n : Bool} {k : Int} (h : n = decide (k % 2 = 1)) :
    IsCode (ftyFmt t) (decide (k % 2 = 1)) (if k % 2 = 1 then -1 else 1)
      (withSign (ftyFmt t) n (exactCode (ftyFmt t) (.fin false 1 0))).1 := by
  have hone := isCode_signed_one t n
  rw [h] at hone ⊢
  by_cases hk : k % 2 = 1
  · simpa [hk] using hone
  · simpa [hk] using hone

/-- The whole part of a number and that of its magnitude are odd together. -/
theorem odd_of_whole {k j : Int} (hk : ratOf (.fin neg m e) = k) (hj : (m : ℝ) * 2 ^ e = j) :
    (j.toNat % 2 == 1) = decide (k % 2 = 1) := by
  have hj0 : 0 ≤ j := by
    have : (0 : ℝ) ≤ (j : ℝ) := hj ▸ by positivity
    exact_mod_cast this
  rw [ratOf_fin, hj] at hk
  have hkj : k = j ∨ k = -j := by
    cases neg with
    | false => left; rw [signFactor_false, one_mul] at hk; exact_mod_cast hk.symm
    | true => right; rw [signFactor_true, neg_one_mul] at hk; exact_mod_cast hk.symm
  rw [Bool.eq_iff_iff, beq_iff_eq, decide_eq_true_iff]
  omega

theorem magnitude_of_whole {k : Int} (hk : ratOf (.fin neg m e) = k) : ∃ j : Int, (m : ℝ) * 2 ^ e = j :=
  ⟨|k|, by rw [← abs_ratOf_fin neg, hk, Int.cast_abs]⟩

/-- The sign of a half-turn and a half: the parity of its whole part, turned over for a negative number. -/
theorem magnitude_of_half {k : Int} (hk : 2 * ratOf (.fin neg m e) = 2 * k + 1) :
    ∃ j : Int, (m : ℝ) * 2 ^ e = j + 1 / 2 ∧ ((j.toNat % 2 == 1) != neg) = decide (k % 2 = 1) := by
  have hpos : (0 : ℝ) ≤ (m : ℝ) * 2 ^ e := by positivity
  rw [ratOf_fin] at hk
  cases neg with
  | false =>
    rw [signFactor_false] at hk
    have hk0 : (-1 : ℝ) < (k : Int) := by linarith
    have : -1 < k := by exact_mod_cast hk0
    refine ⟨k, by linarith, ?_⟩
    rw [Bool.bne_false, Bool.eq_iff_iff, beq_iff_eq, decide_eq_true_iff]
    omega
  | true =>
    rw [signFactor_true] at hk
    have hk0 : (k : ℝ) < (0 : Int) := by push_cast; linarith
    have : k < 0 := by exact_mod_cast hk0
    refine ⟨-k - 1, by push_cast; linarith, ?_⟩
    rw [Bool.bne_true, Bool.eq_iff_iff, Bool.not_eq_true', beq_eq_false_iff_ne, decide_eq_true_iff]
    omega

/-! ## vsin and vcos where they are exact, and elsewhere (R259) -/

theorem approxFinite_sin_whole {k : Int} (hk : ratOf (.fin neg m e) = k) :
    approxFinite .sin t fout neg m e bits = exactCode (ftyFmt t) (.fin neg 0 0) := by
  obtain ⟨j, hj⟩ := magnitude_of_whole hk
  rw [approxFinite_sin, splitFloor_whole hj]
  exact if_pos ⟨rfl, rfl⟩

theorem approxFinite_cos_whole {k : Int} (hk : ratOf (.fin neg m e) = k) :
    approxFinite .cos t fout neg m e bits = withSign (ftyFmt t) (decide (k % 2 = 1)) (exactCode (ftyFmt t) (.fin false 1 0)) := by
  obtain ⟨j, hj⟩ := magnitude_of_whole hk
  rw [approxFinite_cos, splitFloor_whole hj, ← odd_of_whole hk hj]
  exact if_pos ⟨rfl, rfl⟩

theorem approxFinite_sin_half {k : Int} (hk : 2 * ratOf (.fin neg m e) = 2 * k + 1) :
    approxFinite .sin t fout neg m e bits = withSign (ftyFmt t) (decide (k % 2 = 1)) (exactCode (ftyFmt t) (.fin false 1 0)) := by
  obtain ⟨j, hj, hsign⟩ := magnitude_of_half hk
  rw [approxFinite_sin, sinPart, splitFloor_half hj, ← hsign]
  exact (if_neg half_ne_zero).trans (congrArg _ (if_pos ⟨rfl, rfl⟩))

theorem approxFinite_cos_half {k : Int} (hk : 2 * ratOf (.fin neg m e) = 2 * k + 1) :
    approxFinite .cos t fout neg m e bits = exactCode (ftyFmt t) (.fin false 0 0) := by
  obtain ⟨j, hj, -⟩ := magnitude_of_half hk
  rw [approxFinite_cos, splitFloor_half hj]
  exact (if_neg half_ne_zero).trans (if_pos ⟨rfl, rfl⟩)

theorem approxFinite_sin_inexact (h : ¬∃ n : Int, 2 * ratOf (.fin neg m e) = n) :
    (approxFinite .sin t fout neg m e bits).2.getLsbD 4 = true := by
  have hx := not_exists_twice h
  rw [approxFinite_sin, if_neg (splitFloor_not_whole hx), sinPart, if_neg (splitFloor_not_half hx)]
  exact (deliver_spec (ftyFmt_standard t).regular).1

theorem approxFinite_cos_inexact (h : ¬∃ n : Int, 2 * ratOf (.fin neg m e) = n) :
    (approxFinite .cos t fout neg m e bits).2.getLsbD 4 = true := by
  have hx := not_exists_twice h
  rw [approxFinite_cos, if_neg (splitFloor_not_whole hx), if_neg (splitFloor_not_half hx)]
  exact (deliver_spec (ftyFmt_standard t).regular).1

/-! ## vtanh (R259) -/

/-- The magnitude of vtanh. -/
def tanhPart (t : FTy) (fout : Bool) (m : Nat) (e : Int) (c : Nat) : Nat × Word :=
  if dyadicLe 9 0 m e then ((exactCode (ftyFmt t) (.fin false 1 0)).1, wINX)
  else deliver (ftyFmt t) (Sys2Proof.boundOf .tanh t false) fout (encTanh m e) c

theorem approxFinite_tanh (t : FTy) (fout neg : Bool) (m : Nat) (e : Int) :
    approxFinite .tanh t fout neg m e bits = withSign (ftyFmt t) neg
      (tanhPart t fout m e (Config.approx 5 t (bits % 2 ^ ((ftyFmt t).ebits + (ftyFmt t).mbits)))) := by
  rw [tanhPart, apply_ite (withSign (ftyFmt t) neg)]
  rfl

theorem dyadicLe_iff (v e w k : Int) : dyadicLe v e w k = true ↔ (v : ℝ) * 2 ^ e ≤ w * 2 ^ k := by
  have hscale (a c : Int) (h : min e k ≤ c) : (a : ℝ) * 2 ^ c = (a * 2 ^ (c - min e k).toNat : Int) * 2 ^ min e k := by
    push_cast
    rw [mul_assoc, ← zpow_natCast, Int.toNat_of_nonneg (by omega), ← zpow_add₀ two_ne_zero, sub_add_cancel]
  rw [hscale v e (min_le_left _ _), hscale w k (min_le_right _ _), mul_le_mul_iff_left₀ (by positivity), Int.cast_le]
  exact decide_eq_true_iff

theorem approxFinite_tanh_inexact : (approxFinite .tanh t fout neg m e bits).2.getLsbD 4 = true := by
  rw [approxFinite_tanh, withSign_snd, tanhPart]
  split_ifs
  · exact show wINX.getLsbD 4 = true by decide
  · exact (deliver_spec (ftyFmt_standard t).regular).1

theorem approxFinite_tanh_large (h : 9 ≤ |ratOf (.fin neg m e)|) :
    IsCode (ftyFmt t) neg (if neg then -1 else 1) (approxFinite .tanh t fout neg m e bits).1 ∧
      (approxFinite .tanh t fout neg m e bits).2 = wINX := by
  have hle : dyadicLe 9 0 m e = true := by
    rw [dyadicLe_iff]
    rw [abs_ratOf_fin] at h
    simpa using h
  rw [approxFinite_tanh, tanhPart, if_pos hle]
  exact ⟨isCode_signed_one t neg, rfl⟩

/-- The magnitude of vtanh is a code of its format. -/
theorem tanhPart_lt (c : Nat) : (tanhPart t fout m e c).1 < 2 ^ (1 + (ftyFmt t).ebits + (ftyFmt t).mbits) := by
  unfold tanhPart
  split_ifs
  · exact (isCode_signed_one t false).1
  · exact (deliver_spec (ftyFmt_standard t).regular).2

theorem sinPart_lt (c : Nat) : (sinPart t fout m e c).1 < 2 ^ (1 + (ftyFmt t).ebits + (ftyFmt t).mbits) := by
  dsimp only [sinPart]
  split
  · exact (isCode_signed_one t false).1
  · exact (deliver_spec (ftyFmt_standard t).regular).2

end

end Sys2Proof.Machine

/-!
PROOFS. The bound of vrsq (O30): its enclosure, what a choice within the bound or the nearest value is, and how far it lies from
the exact result.
-/

namespace Sys2Proof.Machine

open Sys2Proof

/-! ## The enclosure (R259) -/

/-- The root of a quotient, by the root of the whole quotient. -/
theorem natSqrt_div_spec {n d : Nat} (hd : 0 < d) : (Nat.sqrt (n / d) : ℝ) ≤ √(n / d) ∧ √((n : ℝ) / d) < Nat.sqrt (n / d) + 1 := by
  constructor
  · exact (natSqrt_spec _).1.trans (Real.sqrt_le_sqrt Nat.cast_div_le)
  · rw [Real.sqrt_lt' (by positivity), div_lt_iff₀ (Nat.cast_pos.2 hd)]
    have hle : n / d + 1 ≤ (Nat.sqrt (n / d) + 1) ^ 2 := Nat.lt_succ_sqrt' _
    have hlt : n < (Nat.sqrt (n / d) + 1) ^ 2 * d := by
      calc n < d * (n / d + 1) := Nat.lt_mul_div_succ n hd
        _ ≤ (Nat.sqrt (n / d) + 1) ^ 2 * d := by rw [mul_comm]; exact Nat.mul_le_mul_right _ hle
    exact_mod_cast hlt

theorem encRsqrt_spec {m : Nat} (hm : m ≠ 0) (e : Int) :
    ∃ (r : Nat) (E : Int), encRsqrt m e = ⟨r, r + 1, E⟩ ∧ 2 ^ 127 ≤ r ∧
      (r : ℝ) * 2 ^ E ≤ (√(m * 2 ^ e))⁻¹ ∧ (√(m * 2 ^ e))⁻¹ < ((r : ℝ) + 1) * 2 ^ E := by
  obtain ⟨m', h, hm', hh, hm0, hval⟩ : ∃ (m' : Nat) (h : Int), (if e % 2 != 0 then 2 * m else m) = m' ∧
      (if e % 2 != 0 then e - 1 else e) / 2 = h ∧ m' ≠ 0 ∧ (m : ℝ) * 2 ^ e = m' * (2 ^ h * 2 ^ h) := by
    refine ⟨_, _, rfl, rfl, by split_ifs <;> omega, ?_⟩
    rw [← zpow_add₀ two_ne_zero]
    split_ifs with hodd
    · have hodd' : e % 2 ≠ 0 := bne_iff_ne.1 hodd
      rw [show e = ((e - 1) / 2 + (e - 1) / 2) + 1 by omega, zpow_add_one₀ two_ne_zero,
        show ((e - 1) / 2 + (e - 1) / 2 + 1 - 1) / 2 = (e - 1) / 2 by omega]
      push_cast
      ring
    · have heven : e % 2 = 0 := by simpa using hodd
      rw [show e / 2 + e / 2 = e by omega]
  obtain ⟨p, hp, hbig⟩ : ∃ p : Nat, (if (Nat.log2 m' + 256) % 2 = 0 then Nat.log2 m' + 256 else Nat.log2 m' + 256 + 1) = 2 * p ∧
      Nat.log2 m' + 256 ≤ 2 * p := by
    refine ⟨(if (Nat.log2 m' + 256) % 2 = 0 then Nat.log2 m' + 256 else Nat.log2 m' + 256 + 1) / 2, ?_, ?_⟩ <;> split_ifs <;> omega
  have henc : encRsqrt m e = ⟨Nat.sqrt (2 ^ (2 * p) / m'), Nat.sqrt (2 ^ (2 * p) / m') + 1, -h - p⟩ := by
    simp only [encRsqrt, isqrt_eq, hm', hh, hp, Nat.mul_div_cancel_left p two_pos]
  have hroot : (√((m : ℝ) * 2 ^ e))⁻¹ = √((2 ^ (2 * p) : Nat) / m') * 2 ^ (-h - p) := by
    have hpow : ((2 ^ (2 * p) : Nat) : ℝ) = 2 ^ p * 2 ^ p := by rw [← pow_add, ← two_mul]; push_cast; rfl
    rw [hval, Real.sqrt_mul (Nat.cast_nonneg _), Real.sqrt_mul_self (by positivity), hpow,
      Real.sqrt_div (by positivity), Real.sqrt_mul_self (by positivity), mul_inv, sub_eq_add_neg, zpow_add₀ two_ne_zero,
      zpow_neg _ (p : Int), zpow_natCast, zpow_neg]
    field_simp
  obtain ⟨hlo, hhi⟩ := natSqrt_div_spec (n := 2 ^ (2 * p)) (Nat.pos_of_ne_zero hm0)
  refine ⟨_, _, henc, ?_, ?_, ?_⟩
  · rw [Nat.le_sqrt, Nat.le_div_iff_mul_le (Nat.pos_of_ne_zero hm0), ← pow_add]
    calc 2 ^ (127 + 127) * m' ≤ 2 ^ (127 + 127) * 2 ^ (Nat.log2 m' + 1) := Nat.mul_le_mul_left _ Nat.lt_log2_self.le
      _ = 2 ^ (127 + 127 + (Nat.log2 m' + 1)) := (pow_add _ _ _).symm
      _ ≤ 2 ^ (2 * p) := Nat.pow_le_pow_right two_pos (by omega)
  · rw [hroot]
    gcongr
  · rw [hroot]
    gcongr

/-- A power of two, as a multiple of a lower one. -/
theorem zpow_eq_mul_of_le {c d : Int} (hcd : c ≤ d) : (2 : ℝ) ^ d = 2 ^ (d - c).toNat * 2 ^ c := by
  rw [← zpow_natCast, Int.toNat_of_nonneg (by omega), ← zpow_add₀ two_ne_zero, sub_add_cancel]

/-- The nearest value lies within an ulp. -/
theorem abs_sub_le_ulp {bits : Nat} {least k : Int} {a v : ℝ}
    (hv : RoundedTo .rne (OnGrid bits (some least)) (EvenOnGrid bits (some least)) a v) (ha : 0 ≤ a) (hlt : a < 2 ^ (k + 1))
    (hleast : least ≤ k - bits) : |v - a| ≤ 2 ^ (k - bits) := by
  have hpos : (0 : ℝ) < 2 ^ (k - bits) := by positivity
  have hbelow := Nat.floor_le (div_nonneg ha hpos.le)
  have habove := Nat.lt_floor_add_one (a / (2 : ℝ) ^ (k - bits))
  generalize ⌊a / (2 : ℝ) ^ (k - bits)⌋₊ = w at hbelow habove
  rw [le_div_iff₀ hpos] at hbelow
  rw [div_lt_iff₀ hpos] at habove
  have hw : w < 2 ^ (bits + 1) := by
    rw [zpow_eq_mul_of_le (show k - bits ≤ k + 1 by omega), show (k + 1 - (k - bits)).toNat = bits + 1 by omega] at hlt
    have := (mul_lt_mul_iff_left₀ hpos).1 (hbelow.trans_lt hlt)
    exact_mod_cast this
  have hgrid : OnGrid bits (some least) ((w : ℝ) * 2 ^ (k - bits)) :=
    ⟨w, k - bits, hw, by rintro b ⟨⟩; exact hleast, abs_of_nonneg (by positivity)⟩
  refine (abs_sub_le_of_rne hv hgrid).trans ?_
  rw [abs_le]
  constructor <;> linarith

/-! ## A fine enclosure well within a format (R259) -/

/-- Neighbours that enclose `a`, whose exponent `k` is well within the format, and that lie much closer than its ulp. -/
structure FineEnc (f : FloatFmt) (r : Nat) (E k : Int) (a : ℝ) : Prop where
  lo : (r : ℝ) * 2 ^ E ≤ a
  hi : a < ((r : ℝ) + 1) * 2 ^ E
  fine : 2 ^ 127 ≤ r
  lower : (2 : ℝ) ^ k ≤ a
  upper : a < 2 ^ (k + 1)
  least : leastExp f + 1 ≤ k
  greatest : k + 2 ≤ f.bias

/-- A number lies no more than an ulp of the format outside an enclosure. -/
def NearEnc (f : FloatFmt) (r : Nat) (E k : Int) (z : ℝ) : Prop :=
  (r : ℝ) * 2 ^ E - 2 ^ (k - f.mbits) ≤ z ∧ z ≤ ((r : ℝ) + 1) * 2 ^ E + 2 ^ (k - f.mbits)

namespace FineEnc

variable {f : FloatFmt} {r : Nat} {E k : Int} {a : ℝ} (h : FineEnc f r E k a)

include h

theorem exp_le : E ≤ k - 127 := by
  have hr : (2 : ℝ) ^ (127 : Int) ≤ r := by exact_mod_cast h.fine
  have hlt : (2 : ℝ) ^ (127 + E) < 2 ^ (k + 1) := by
    calc (2 : ℝ) ^ (127 + E) = 2 ^ (127 : Int) * 2 ^ E := zpow_add₀ two_ne_zero _ _
      _ ≤ r * 2 ^ E := by gcongr
      _ < 2 ^ (k + 1) := h.lo.trans_lt h.upper
  have := (zpow_lt_zpow_iff_right₀ one_lt_two).1 hlt
  omega

/-- Both ends lie between two powers of two. -/
theorem ends_between : (2 : ℝ) ^ k ≤ r * 2 ^ E ∧ ((r : ℝ) + 1) * 2 ^ E ≤ 2 ^ (k + 1) := by
  have hE := h.exp_le
  have hscale (j : Int) (hj : E ≤ j) : (2 : ℝ) ^ j = (2 ^ (j - E).toNat : Nat) * 2 ^ E := by
    rw [zpow_eq_mul_of_le hj, Nat.cast_pow, Nat.cast_ofNat]
  have hlow := h.lower.trans_lt h.hi
  have hupp := h.lo.trans_lt h.upper
  have hpos : (0 : ℝ) < 2 ^ E := by positivity
  rw [hscale k (by omega), mul_lt_mul_iff_left₀ hpos] at hlow
  rw [hscale (k + 1) (by omega), mul_lt_mul_iff_left₀ hpos] at hupp
  rw [hscale k (by omega), hscale (k + 1) (by omega)]
  constructor
  · gcongr
    exact Nat.lt_succ_iff.1 (mod_cast hlow)
  · gcongr
    exact_mod_cast Nat.succ_le_iff.2 (Nat.cast_lt.1 hupp)

omit h in
theorem mid_eq (r : Nat) (E : Int) : Enc.mid ⟨r, r + 1, E⟩ = .fin false (2 * r + 1) (E - 1) := by
  have hsum : (r : Int) + (r + 1) = (2 * r + 1 : Nat) := by push_cast; ring
  simp only [Enc.mid, hsum]
  exact if_neg (by omega)

omit h in
theorem mid_val (r : Nat) (E : Int) : ((2 * r + 1 : Nat) : ℝ) * 2 ^ (E - 1) = (r + 1 / 2) * 2 ^ E := by
  rw [zpow_sub_one₀ two_ne_zero]
  push_cast
  ring

theorem floorLog_mid : floorLog (2 * r + 1) (E - 1) = k := by
  obtain ⟨hlo, hhi⟩ := h.ends_between
  have hpos : (0 : ℝ) < 2 ^ E := by positivity
  apply floorLog_eq <;> rw [mid_val]
  · linarith
  · linarith

/-- The ulp of an enclosure. -/
theorem quantum_mid : quantum f.mbits (1 - (f.bias : Int)) (2 * r + 1) (E - 1) = k - f.mbits := by
  have hmin := h.least
  unfold leastExp at hmin
  rw [quantum, h.floorLog_mid, max_eq_left (by omega)]

/-- A number near the enclosure is positive and not tiny. -/
theorem le_of_near {z : ℝ} (hbits : 1 ≤ f.mbits) (hz : NearEnc f r E k z) : (2 : ℝ) ^ leastExp f ≤ z := by
  have hlo := h.ends_between.1
  have hulp : (2 : ℝ) ^ (k - f.mbits) ≤ 2 ^ (k - 1) := zpow_le_zpow_right₀ one_le_two (by omega)
  have hhalf : (2 : ℝ) ^ (k - 1) = 2 ^ k / 2 := by rw [zpow_sub_one₀ two_ne_zero]; ring
  have hmin : (2 : ℝ) ^ leastExp f ≤ 2 ^ (k - 1) := zpow_le_zpow_right₀ one_le_two (by have := h.least; omega)
  have := hz.1
  linarith

/-- Such a number is within the bound. -/
theorem abs_sub_le {z : ℝ} (hbits : f.mbits ≤ 62) (hz : NearEnc f r E k z) :
    |z - a| ≤ 2 ^ (k - f.mbits) * (1 + 2 ^ (-60 : Int)) := by
  obtain ⟨hzlo, hzhi⟩ := hz
  have hE := h.exp_le
  have hslack : (2 : ℝ) ^ E ≤ 2 ^ (k - f.mbits) * 2 ^ (-60 : Int) := by
    rw [← zpow_add₀ two_ne_zero]
    exact zpow_le_zpow_right₀ one_le_two (by omega)
  have hlo := h.lo
  have hhi := h.hi
  rw [abs_le]
  constructor <;> linarith

/-! ## The choice and the nearest value (R259) -/

/-- What the bound admits is near the enclosure. -/
theorem near_of_withinBound {neg : Bool} {M : Nat} {c : Int}
    (hw : withinBound f ⟨1, none⟩ ⟨r, r + 1, E⟩ (.fin neg M c) = true) : NearEnc f r E k (ratOf (.fin neg M c)) := by
  have hq : quantum f.mbits (1 - (f.bias : Int)) (2 * max ((r : Int) + 1).natAbs (r : Int).natAbs - 1) (E - 1) = k - f.mbits := by
    rw [show 2 * max ((r : Int) + 1).natAbs (r : Int).natAbs - 1 = 2 * r + 1 by omega, h.quantum_mid]
  simp only [withinBound, hq, decide_eq_true_eq] at hw
  generalize hlow : min (min E c) (min (k - f.mbits) 0) = low at hw
  obtain ⟨hlo, hhi⟩ := hw
  have hpow (d : Int) : (0 : Int) ≤ 2 ^ d.toNat := by positivity
  rw [max_eq_left (by rw [Nat.cast_one, one_mul]; exact hpow _), Nat.cast_one, one_mul] at hlo hhi
  have hpos : (0 : ℝ) < 2 ^ low := by positivity
  rw [NearEnc, ← cast_signed_mul, zpow_eq_mul_of_le (show low ≤ E by omega), zpow_eq_mul_of_le (show low ≤ c by omega),
    zpow_eq_mul_of_le (show low ≤ k - f.mbits by omega)]
  constructor
  · have := mul_le_mul_of_nonneg_right (Int.cast_le (R := ℝ).2 hlo) hpos.le
    push_cast at this ⊢
    linarith
  · have := mul_le_mul_of_nonneg_right (Int.cast_le (R := ℝ).2 hhi) hpos.le
    push_cast at this ⊢
    linarith

/-- The nearest value is a code near the enclosure. -/
theorem nearest_spec (hf : f.Standard) :
    (nearest f ⟨r, r + 1, E⟩).2 &&& wOVF = 0 ∧ ∃ z, IsCode f false z (nearest f ⟨r, r + 1, E⟩).1 ∧ NearEnc f r E k z := by
  obtain ⟨hlo, hhi⟩ := h.ends_between
  have hm : 2 * r + 1 ≠ 0 := by omega
  have hpos : (0 : ℝ) < 2 ^ E := by positivity
  obtain ⟨v, hv, hin, -⟩ := roundsTo_roundFinite hf.regular hm (E - 1) .rne false false false
  rw [nearest, mid_eq, roundFloat_fin, if_neg hm]
  rw [ratOf_fin, signFactor_false, one_mul, mid_val] at hv hin
  have hleast : f.qmin ≤ k - f.mbits := by
    have := h.least
    rw [f.qmin_eq]
    omega
  obtain ⟨hvlo, hvhi⟩ := abs_le.1 (abs_sub_le_ulp hv (by positivity) (by linarith) hleast)
  have hz : NearEnc f r E k v := ⟨by linarith, by linarith⟩
  have hulp : (2 : ℝ) ^ (k - f.mbits) ≤ 2 ^ k := zpow_le_zpow_right₀ one_le_two (by omega)
  have hmax : |v| ≤ f.maxMag := by
    rw [abs_of_nonneg (by linarith)]
    refine le_trans ?_ (hf.two_zpow_le_maxMag h.greatest)
    have hk : (0 : ℝ) < 2 ^ k := by positivity
    rw [zpow_add_one₀ two_ne_zero] at hhi
    rw [zpow_add₀ two_ne_zero]
    norm_num
    linarith
  obtain ⟨-, hkeep⟩ := hin ((hf.regular.exists_code_ge_iff v).2 hmax)
  obtain ⟨hcode, inx, unf, hflags, -⟩ := hkeep fun hno => absurd hno.1 Bool.false_ne_true
  have hnone : ∀ inx unf, (when inx wINX ||| when unf wUNF) &&& wOVF = 0 := by decide
  exact ⟨hflags ▸ hnone inx unf, v, hcode, hz⟩

/-- What a delivery takes is a code near the enclosure. -/
theorem boundedChoice_spec (hf : f.Standard) (choice : Nat) :
    ∃ neg z, IsCode f neg z (boundedChoice f ⟨1, none⟩ ⟨r, r + 1, E⟩ choice) ∧ NearEnc f r E k z := by
  unfold boundedChoice
  split_ifs with hw
  · obtain ⟨neg, M, c, hu⟩ : ∃ neg M c, f.unpack (choice % 2 ^ (1 + f.ebits + f.mbits)) = .fin neg M c := by
      cases hu : f.unpack (choice % 2 ^ (1 + f.ebits + f.mbits)) with
      | fin neg M c => exact ⟨neg, M, c, rfl⟩
      | inf neg => rw [hu] at hw; exact absurd hw Bool.false_ne_true
      | nan s neg => rw [hu] at hw; exact absurd hw Bool.false_ne_true
    rw [hu] at hw
    exact ⟨neg, _, ⟨Nat.mod_lt _ (Nat.two_pow_pos _), M, c, hu, rfl⟩, h.near_of_withinBound hw⟩
  · obtain ⟨z, hcode, hz⟩ := (h.nearest_spec hf).2
    exact ⟨false, z, hcode, hz⟩

/-- A delivery from a fine enclosure is positive and within the bound. -/
theorem deliver_spec (hf : f.Standard) (hbits : 1 ≤ f.mbits) (hbits' : f.mbits ≤ 62) (fout : Bool) (choice : Nat) :
    ∃ z, IsCode f false z (deliver f ⟨1, none⟩ fout ⟨r, r + 1, E⟩ choice).1 ∧
      |z - a| ≤ 2 ^ (k - f.mbits) * (1 + 2 ^ (-60 : Int)) := by
  obtain ⟨neg, z, hcode, hz⟩ := h.boundedChoice_spec hf choice
  rw [deliver_eq, if_neg (not_not.2 (h.nearest_spec hf).1)]
  generalize boundedChoice f ⟨1, none⟩ ⟨r, r + 1, E⟩ choice = y at hcode
  have hpos : (2 : ℝ) ^ leastExp f ≤ z := h.le_of_near hbits hz
  obtain ⟨hlt, m, e, hu, rfl⟩ := hcode
  have hm : m ≠ 0 := by
    rintro rfl
    rw [ratOf_fin, Nat.cast_zero, zero_mul, mul_zero] at hpos
    exact absurd hpos (not_le.2 (by positivity))
  obtain rfl : neg = false := by
    cases neg with
    | false => rfl
    | true =>
      rw [ratOf_fin, signFactor_true] at hpos
      have h1 : (0 : ℝ) < 2 ^ leastExp f := by positivity
      have h2 : (0 : ℝ) ≤ (m : ℝ) * 2 ^ e := by positivity
      linarith
  have hnorm : isTiny f m e = false := by
    have hlog : ¬floorLog m e < leastExp f := by
      rw [← abs_ratOf_lt_iff hm false, not_lt]
      exact hpos.trans (le_abs_self _)
    rw [isTiny, Bool.or_eq_false_iff]
    exact ⟨beq_eq_false_iff_ne.2 hm, decide_eq_false hlog⟩
  rw [settle_of_fin hu, hnorm]
  exact ⟨_, ⟨hlt, m, e, hu, rfl⟩, h.abs_sub_le hbits' hz⟩

end FineEnc

/-! ## vrsq (R259) -/

section

variable {t : FTy} {m : Nat} {e k : Int}

/-- The exponent of 1/√x lies well within the format. -/
theorem rsq_exponent (h : (ftyFmt t).Holds m e) (hm : m ≠ 0) (hlo : (2 : ℝ) ^ k ≤ (√(m * 2 ^ e))⁻¹)
    (hhi : (√(m * 2 ^ e))⁻¹ < 2 ^ (k + 1)) : leastExp (ftyFmt t) + 1 ≤ k ∧ k + 2 ≤ (ftyFmt t).bias := by
  have hm1 : (1 : ℝ) ≤ m := by exact_mod_cast Nat.one_le_iff_ne_zero.2 hm
  have hx : (0 : ℝ) < m * 2 ^ e := by positivity
  have hroot : (0 : ℝ) < √(m * 2 ^ e) := Real.sqrt_pos.2 hx
  have hsq : √((m : ℝ) * 2 ^ e) ^ 2 = m * 2 ^ e := Real.sq_sqrt hx.le
  have hlow : (2 : ℝ) ^ ((ftyFmt t).qmin + 2 * k) ≤ 2 ^ (0 : Int) := by
    rw [le_inv_comm₀ (by positivity) hroot] at hlo
    have h1 : (2 : ℝ) ^ (ftyFmt t).qmin ≤ m * 2 ^ e := by
      calc (2 : ℝ) ^ (ftyFmt t).qmin ≤ 2 ^ e := zpow_le_zpow_right₀ one_le_two h.le
        _ ≤ m * 2 ^ e := le_mul_of_one_le_left (by positivity) hm1
    have h2 : (m : ℝ) * 2 ^ e ≤ ((2 ^ k)⁻¹) ^ 2 := by rw [← hsq]; gcongr
    rw [zpow_add₀ two_ne_zero, two_mul, zpow_add₀ two_ne_zero, zpow_zero]
    calc (2 : ℝ) ^ (ftyFmt t).qmin * (2 ^ k * 2 ^ k) ≤ ((2 ^ k)⁻¹) ^ 2 * (2 ^ k * 2 ^ k) := by gcongr; exact h1.trans h2
      _ = 1 := by field_simp
  have hupp : (2 : ℝ) ^ (0 : Int) < 2 ^ (2 * (k + 1) + ((ftyFmt t).bias + 1)) := by
    rw [inv_lt_comm₀ hroot (by positivity)] at hhi
    have h1 : (m : ℝ) * 2 ^ e < 2 ^ (((ftyFmt t).bias : Int) + 1) := h.max.trans_lt (ftyFmt_standard t).maxMag_lt
    have h2 : ((2 ^ (k + 1))⁻¹ : ℝ) ^ 2 < m * 2 ^ e := by rw [← hsq]; gcongr
    rw [zpow_add₀ two_ne_zero, two_mul, zpow_add₀ two_ne_zero, zpow_zero]
    calc (1 : ℝ) = 2 ^ (k + 1) * 2 ^ (k + 1) * ((2 ^ (k + 1))⁻¹) ^ 2 := by field_simp
      _ < 2 ^ (k + 1) * 2 ^ (k + 1) * 2 ^ (((ftyFmt t).bias : Int) + 1) := by gcongr; exact h2.trans h1
  have hlow' := (zpow_le_zpow_iff_right₀ one_lt_two).1 hlow
  have hupp' := (zpow_lt_zpow_iff_right₀ one_lt_two).1 hupp
  have hreach : -(ftyFmt t).qmin + 4 ≤ 2 * (ftyFmt t).bias ∧ 6 ≤ ((ftyFmt t).bias : Int) := by cases t <;> decide
  unfold leastExp
  omega

/-- vrsq is within its bound. -/
theorem approxFinite_rsq_bound (h : (ftyFmt t).Holds m e) (hm : m ≠ 0) (fout neg : Bool) (bits : Nat) :
    ∃ z, IsCode (ftyFmt t) false z (approxFinite .rsq t fout neg m e bits).1 ∧
      ∀ k : Int, (2 : ℝ) ^ k ≤ (√(m * 2 ^ e))⁻¹ → (√(m * 2 ^ e))⁻¹ < 2 ^ (k + 1) →
        |z - (√(m * 2 ^ e))⁻¹| ≤ 2 ^ (k - (ftyFmt t).mbits) * (1 + 2 ^ (-60 : Int)) := by
  by_cases hex : ∃ n : Int, (m : ℝ) * 2 ^ e = 4 ^ n ∧ leastExp (ftyFmt t) ≤ -n
  · obtain ⟨n, hn, hmin⟩ := hex
    refine ⟨_, (approxFinite_rsq_exact bits h hn hmin).1, fun k _ _ => ?_⟩
    have hroot : √((m : ℝ) * 2 ^ e) = 2 ^ n := by
      rw [hn, four_zpow, two_mul, zpow_add₀ two_ne_zero, Real.sqrt_mul_self (by positivity)]
    rw [hroot, zpow_neg, sub_self, abs_zero]
    positivity
  · obtain ⟨r, E, henc, hfine, hlo, hhi⟩ := encRsqrt_spec hm e
    have hm0 : (0 : ℝ) < m := Nat.cast_pos.2 (Nat.pos_of_ne_zero hm)
    obtain ⟨j, hj, hj'⟩ := exists_mem_Ico_zpow (x := (√((m : ℝ) * 2 ^ e))⁻¹) (by positivity) one_lt_two
    obtain ⟨hmin, hmax⟩ := rsq_exponent h hm hj hj'
    have hbits : 1 ≤ (ftyFmt t).mbits := by cases t <;> decide
    obtain ⟨z, hz, hbound⟩ := FineEnc.deliver_spec ⟨hlo, hhi, hfine, hj, hj', hmin, hmax⟩ (ftyFmt_standard t) hbits
      (mbits_ftyFmt t) fout (Config.approx 0 t bits)
    rw [approxFinite_rsq, if_neg fun hc => hex ⟨_, (rsqExact_iff _ m e _).2 ⟨hc, rfl⟩⟩, henc]
    refine ⟨z, hz, fun k hk hk' => ?_⟩
    have h1 := (zpow_lt_zpow_iff_right₀ (one_lt_two : (1 : ℝ) < 2)).1 (hk.trans_lt hj')
    have h2 := (zpow_lt_zpow_iff_right₀ (one_lt_two : (1 : ℝ) < 2)).1 (hj.trans_lt hk')
    obtain rfl : k = j := by omega
    exact hbound

end

end Sys2Proof.Machine

/-!
PROOFS. The approximate functions of an element (O30): special inputs, finite ones, and what a change of sign does.
-/

namespace Sys2Proof.Machine

open Sys2Proof

section

variable {t : FTy} {mode : Word} {a m : Nat} {neg : Bool} {e : Int}

/-! ## The inputs (R260) -/

theorem approxElem_of_nan (g : Approx) (h : (inF t mode a).isNan = true) :
    approxElem g t mode a = (canonNaN (ftyFmt t), when (inF t mode a).isSig wINV) := by
  have hin : flushIn (ftyCvt t) (FEnv.ofMode mode).fin ((ftyCvt t).unpack a) = inF t mode a := rfl
  cases hn : inF t mode a with
  | nan s n =>
    simp only [approxElem, hin, hn, nanCode_false]
    rfl
  | inf n => rw [hn] at h; cases h
  | fin n m e => rw [hn] at h; cases h

/-- What an infinity gives. -/
def approxInf (g : Approx) (f : FloatFmt) (neg : Bool) : Nat × Word :=
  match g with
  | .rsq => if neg then (canonNaN f, wINV) else (f.code false 0 0, 0)
  | .exp2 => (if neg then f.code false 0 0 else f.infCode false, 0)
  | .log2 => if neg then (canonNaN f, wINV) else (f.infCode false, 0)
  | .sin | .cos => (canonNaN f, wINV)
  | .tanh => (f.code neg f.bias 0, 0)

theorem approxElem_of_inf (g : Approx) (h : inF t mode a = .inf neg) : approxElem g t mode a = approxInf g (ftyFmt t) neg := by
  have hin : flushIn (ftyCvt t) (FEnv.ofMode mode).fin ((ftyCvt t).unpack a) = .inf neg := h
  simp only [approxElem, hin, nanCode_false]
  cases g <;> rfl

/-- What a zero gives. -/
def approxZero (g : Approx) (f : FloatFmt) (neg : Bool) : Nat × Word :=
  match g with
  | .rsq => (f.infCode neg, wDZ)
  | .exp2 | .cos => (f.code false f.bias 0, 0)
  | .log2 => (f.infCode true, wDZ)
  | .sin | .tanh => (f.code neg 0 0, 0)

theorem approxElem_of_zero (g : Approx) (h : inF t mode a = .fin neg 0 e) : approxElem g t mode a = approxZero g (ftyFmt t) neg := by
  have hin : flushIn (ftyCvt t) (FEnv.ofMode mode).fin ((ftyCvt t).unpack a) = .fin neg 0 e := h
  simp only [approxElem, hin, if_true]
  cases g <;> rfl

theorem approxElem_of_undefined {g : Approx} (h : inF t mode a = .fin true m e) (hm : m ≠ 0) (hg : g = .rsq ∨ g = .log2) :
    approxElem g t mode a = (canonNaN (ftyFmt t), wINV) := by
  have hin : flushIn (ftyCvt t) (FEnv.ofMode mode).fin ((ftyCvt t).unpack a) = .fin true m e := h
  have hcond : (true && (g == .rsq || g == .log2)) = true := by rcases hg with rfl | rfl <;> rfl
  simp only [approxElem, hin, if_neg hm, if_pos hcond, nanCode_false]

theorem approxElem_of_fin {g : Approx} (h : inF t mode a = .fin neg m e) (hm : m ≠ 0)
    (hg : neg = false ∨ g ≠ .rsq ∧ g ≠ .log2) :
    approxElem g t mode a = approxFinite g t (FEnv.ofMode mode).fout neg m e a := by
  have hin : flushIn (ftyCvt t) (FEnv.ofMode mode).fin ((ftyCvt t).unpack a) = .fin neg m e := h
  have hcond : ¬(neg && (g == .rsq || g == .log2)) = true := by
    rcases hg with rfl | ⟨h1, h2⟩
    · exact Bool.false_ne_true
    · simp [h1, h2]
  simp only [approxElem, hin, if_neg hm, if_neg hcond]

/-! ## Inexact results (R259) -/

theorem ratOf_false (m : Nat) (e : Int) : ratOf (.fin false m e) = m * 2 ^ e := by rw [ratOf_fin, signFactor_false, one_mul]

/-- Where it is not exact, an approximate function raises INX. -/
theorem approxFinite_inexact {g : Approx} {fout : Bool} (bits : Nat) (hg : neg = false ∨ g ≠ .rsq ∧ g ≠ .log2)
    (h : ¬ExactAt g (ftyFmt t) (ratOf (.fin neg m e))) : (approxFinite g t fout neg m e bits).2.getLsbD 4 = true := by
  have hpos (hg' : g = .rsq ∨ g = .log2) : ratOf (.fin neg m e) = m * 2 ^ e := by
    have : neg = false := hg.resolve_right fun h => hg'.elim h.1 h.2
    rw [this, ratOf_false]
  cases g with
  | rsq => exact approxFinite_rsq_inexact bits (hpos (.inl rfl) ▸ h)
  | exp2 => exact approxFinite_exp2_inexact bits h
  | log2 => exact approxFinite_log2_inexact bits (hpos (.inr rfl) ▸ h)
  | sin => exact approxFinite_sin_inexact bits h
  | cos => exact approxFinite_cos_inexact bits h
  | tanh => exact approxFinite_tanh_inexact bits

/-! ## Symmetry (R259) -/

theorem unpack_code_not {f : FloatFmt} (hs : f.special = .ieee) {E M : Nat} (hE : E < 2 ^ f.ebits) (hM : M < 2 ^ f.mbits) (neg : Bool) :
    f.unpack (f.code (!neg) E M) = (f.unpack (f.code neg E M)).negate := by
  rw [FloatFmt.unpack_code hE hM, FloatFmt.unpack_code hE hM]
  split_ifs with h1 h2 h3
  · rfl
  · rfl
  · exact absurd (hs.symm.trans h3.1) (by decide)
  · rfl

theorem flushIn_negate (c : Cvt) (on : Bool) (x : Num) : flushIn c on x.negate = (flushIn c on x).negate := by
  unfold flushIn
  cases c.float with
  | none => rfl
  | some f =>
    cases x with
    | nan s n => rfl
    | inf n => rfl
    | fin n m e =>
      dsimp only [Num.negate]
      split_ifs <;> rfl

/-- The sign bit of an element is its highest. -/
theorem ftyWidth_sub_one (t : FTy) : ftyWidth t - 1 = (ftyFmt t).ebits + (ftyFmt t).mbits := by cases t <;> rfl

theorem inF_add_sign (h : a < 2 ^ (ftyWidth t - 1)) : inF t mode (a + 2 ^ (ftyWidth t - 1)) = (inF t mode a).negate := by
  rw [ftyWidth_sub_one] at h ⊢
  have hlt : a < 2 ^ (1 + (ftyFmt t).ebits + (ftyFmt t).mbits) := h.trans_le (Nat.pow_le_pow_right two_pos (by omega))
  obtain ⟨n, E, M, hE, hM, rfl⟩ := FloatFmt.exists_code hlt
  obtain rfl : n = false := by
    rw [← sign_of_code (neg := n) hE hM]
    exact decide_eq_false (not_le.2 h)
  have hadd : (ftyFmt t).code false E M + 2 ^ ((ftyFmt t).ebits + (ftyFmt t).mbits) = (ftyFmt t).code (!false) E M := by
    have hsign := withSign_code (f := ftyFmt t) (neg := false) hE hM 0
    rwa [withSign, if_pos rfl, if_neg (not_le.2 h)] at hsign
  rw [hadd, inF, inF, ftyCvt_unpack, ftyCvt_unpack, unpack_code_not (ftyFmt_standard t).ieee hE hM, flushIn_negate]

/-- vcos does not tell a number from its negation. -/
theorem approxElem_cos_add_sign (h : a < 2 ^ (ftyWidth t - 1)) (hn : (inF t mode a).isNan = false) :
    approxElem .cos t mode (a + 2 ^ (ftyWidth t - 1)) = approxElem .cos t mode a := by
  have hin := inF_add_sign (mode := mode) h
  cases hx : inF t mode a with
  | nan s n => rw [hx] at hn; cases hn
  | inf n =>
    rw [hx] at hin
    rw [approxElem_of_inf _ hx, approxElem_of_inf _ hin]
    rfl
  | fin n m e =>
    rw [hx] at hin
    by_cases hm : m = 0
    · subst hm
      rw [approxElem_of_zero _ hx, approxElem_of_zero _ hin]
      rfl
    · have hg (n : Bool) : n = false ∨ Approx.cos ≠ .rsq ∧ Approx.cos ≠ .log2 := .inr ⟨by decide, by decide⟩
      rw [approxElem_of_fin hx hm (hg _), approxElem_of_fin hin hm (hg _), approxFinite_cos, approxFinite_cos, ftyWidth_sub_one,
        Nat.add_mod_right]

/-- A sign and its opposite. -/
theorem withSign_not {f : FloatFmt} {r : Nat × Word} (hr : r.1 < 2 ^ (1 + f.ebits + f.mbits)) (c : Bool) :
    withSign f (!c) r = withSign f true (withSign f c r) := by
  cases c with
  | false => rfl
  | true => exact (withSign_withSign hr).symm

theorem withSign_true_code {f : FloatFmt} {E M : Nat} (hE : E < 2 ^ f.ebits) (hM : M < 2 ^ f.mbits) (w : Word) (neg : Bool) :
    (f.code (!neg) E M, w) = withSign f true (f.code neg E M, w) := Prod.ext (withSign_code hE hM w).symm rfl

theorem approxFinite_odd {g : Approx} (hg : g = .sin ∨ g = .tanh) (fout neg : Bool) (m : Nat) (e : Int) (bits : Nat) :
    approxFinite g t fout (!neg) m e (bits + 2 ^ ((ftyFmt t).ebits + (ftyFmt t).mbits)) =
      withSign (ftyFmt t) true (approxFinite g t fout neg m e bits) := by
  rcases hg with rfl | rfl
  · rw [approxFinite_sin, approxFinite_sin, Nat.add_mod_right]
    split_ifs
    · exact withSign_true_code (Nat.two_pow_pos _) (Nat.two_pow_pos _) 0 neg
    · rw [Bool.bne_not, withSign_not (sinPart_lt _)]
  · rw [approxFinite_tanh, approxFinite_tanh, Nat.add_mod_right, withSign_not (tanhPart_lt _)]

theorem canonNaN_isNan (t : FTy) : ((ftyFmt t).unpack (canonNaN (ftyFmt t))).isNan = true := by cases t <;> decide

/-- vsin and vtanh turn over the sign of a result that is no NaN with that of their input. -/
theorem approxElem_add_sign {g : Approx} (hg : g = .sin ∨ g = .tanh) (h : a < 2 ^ (ftyWidth t - 1))
    (hn : (inF t mode a).isNan = false) (hy : ((ftyFmt t).unpack (approxElem g t mode a).1).isNan = false) :
    approxElem g t mode (a + 2 ^ (ftyWidth t - 1)) = withSign (ftyFmt t) true (approxElem g t mode a) := by
  have hin := inF_add_sign (mode := mode) h
  have hbias : (ftyFmt t).bias < 2 ^ (ftyFmt t).ebits := by
    have := (ftyFmt_standard t).fields
    omega
  cases hx : inF t mode a with
  | nan s n => rw [hx] at hn; cases hn
  | inf n =>
    rw [hx] at hin
    rw [approxElem_of_inf _ hx] at hy ⊢
    rw [approxElem_of_inf _ hin]
    rcases hg with rfl | rfl
    · exact absurd ((canonNaN_isNan t).symm.trans hy) (by decide)
    · exact withSign_true_code hbias (Nat.two_pow_pos _) 0 n
  | fin n m e =>
    rw [hx] at hin
    by_cases hm : m = 0
    · subst hm
      rw [approxElem_of_zero _ hx, approxElem_of_zero _ hin]
      rcases hg with rfl | rfl <;> exact withSign_true_code (Nat.two_pow_pos _) (Nat.two_pow_pos _) 0 n
    · have hdom (n : Bool) : n = false ∨ g ≠ .rsq ∧ g ≠ .log2 := .inr (by rcases hg with rfl | rfl <;> exact ⟨by decide, by decide⟩)
      rw [approxElem_of_fin hx hm (hdom _), approxElem_of_fin hin hm (hdom _), ftyWidth_sub_one]
      exact approxFinite_odd hg _ n m e a

/-! ## What an element gives (R259, R260) -/

theorem approxInf_false (g : Approx) (f : FloatFmt) : approxInf g f false = match g with
    | .rsq => (0, 0)
    | .exp2 | .log2 => ((2 ^ f.ebits - 1) * 2 ^ f.mbits, 0)
    | .sin | .cos => (canonNaN f, wINV)
    | .tanh => (f.bias * 2 ^ f.mbits, 0) := by
  cases g <;> simp [approxInf, FloatFmt.infCode, FloatFmt.code]

theorem approxInf_true (g : Approx) (f : FloatFmt) : approxInf g f true = match g with
    | .rsq | .log2 | .sin | .cos => (canonNaN f, wINV)
    | .exp2 => (0, 0)
    | .tanh => (2 ^ (f.ebits + f.mbits) + f.bias * 2 ^ f.mbits, 0) := by
  cases g <;> simp [approxInf, FloatFmt.code, add_mul, pow_add]

theorem approxZero_spec (g : Approx) {f : FloatFmt} (hf : f.Standard) (neg : Bool) : match g with
    | .rsq => f.unpack (approxZero g f neg).1 = .inf neg ∧ (approxZero g f neg).2 = wDZ
    | .log2 => f.unpack (approxZero g f neg).1 = .inf true ∧ (approxZero g f neg).2 = wDZ
    | .exp2 | .cos => approxZero g f neg = (f.bias * 2 ^ f.mbits, 0)
    | .sin | .tanh => IsCode f neg 0 (approxZero g f neg).1 ∧ (approxZero g f neg).2 = 0 := by
  have hone : (f.code false f.bias 0, (0 : Word)) = (f.bias * 2 ^ f.mbits, 0) := by simp [FloatFmt.code]
  cases g with
  | rsq => exact ⟨FloatFmt.unpack_infCode hf.ieee neg, rfl⟩
  | log2 => exact ⟨FloatFmt.unpack_infCode hf.ieee true, rfl⟩
  | exp2 | cos => exact hone
  | sin | tanh => exact ⟨hf.regular.isCode_zero neg, rfl⟩

end

end Sys2Proof.Machine

/-!
PROOFS. The softmax steps (O30): exp2s of a whole number, the factor by which a sum is rescaled, and one rounding.
-/

namespace Sys2Proof.Machine

open Sys2Proof

/-! ## exp2s (R261) -/

/-- A normal power of two has its exponent in the field, and no mantissa. -/
theorem isCode_pow2_fp32 {n : Int} (hlo : -126 ≤ n) (hhi : n ≤ 127) : IsCode fmtFp32 false (2 ^ n) (fmtFp32.code false (n + 127).toNat 0) := by
  have hf : fmtFp32.Regular := (ftyFmt_standard .f32).regular
  have hfin : fmtFp32.FiniteField (n + 127).toNat 0 := by
    by_cases h : (n + 127).toNat < 254
    · exact .inl h
    · exact .inr ⟨show (n + 127).toNat = 254 by omega, Nat.zero_le _⟩
  have hcode := hf.isCode_field (Nat.two_pow_pos _) hfin false
  have hexp : fmtFp32.fieldExp (n + 127).toNat = n - 23 := by
    have hbias : ((fmtFp32.bias : Nat) : Int) = 127 := rfl
    have hbits : ((fmtFp32.mbits : Nat) : Int) = 23 := rfl
    rw [FloatFmt.fieldExp, hbias, hbits]
    omega
  have hsig : fmtFp32.fieldSig (n + 127).toNat 0 = 2 ^ 23 := if_neg (by omega)
  have hval : ((2 ^ 23 : Nat) : ℝ) * 2 ^ (n - 23) = 2 ^ n := by
    rw [zpow_sub₀ two_ne_zero]
    norm_num
    field_simp
  rwa [hexp, hsig, hval, signFactor_false, one_mul] at hcode

theorem exp2s_of_whole {v e n : Int} (c : Nat) (hn : (v : ℝ) * 2 ^ e = n) (hlo : -126 ≤ n) (hhi : n ≤ 127) :
    IsCode fmtFp32 false (2 ^ n) (exp2s v e c).1 ∧ (exp2s v e c).2 = 0 := by
  obtain ⟨hrest, hrest'⟩ := (rest_whole_iff (n : ℝ)).2 ⟨n, rfl⟩
  have hsplit : splitFloor v e = (n, 0, 0) := by rw [splitFloor_eq, hn, hrest, hrest', Int.floor_intCast]
  have hexp : exp2s v e c = (fmtFp32.code false (n + 127).toNat 0, 0) := by
    rw [exp2s, hsplit]
    exact if_pos ⟨rfl, rfl, hlo, hhi⟩
  rw [hexp]
  exact ⟨isCode_pow2_fp32 hlo hhi, rfl⟩

/-- The exponential of a difference of numbers is exp2s of that difference. -/
theorem exp2sDiff_fin (na : Bool) (ma : Nat) (ea : Int) (nb : Bool) (mb : Nat) (eb : Int) (c : Nat) :
    ∃ v e : Int, (v : ℝ) * 2 ^ e = ratOf (.fin na ma ea) - ratOf (.fin nb mb eb) ∧
      exp2sDiff (.fin na ma ea) (.fin nb mb eb) c = exp2s v e c := by
  refine ⟨_, _, ?_, rfl⟩
  rw [ratOf_eq_scaled na ma (min_le_left ea eb), ratOf_eq_scaled nb mb (min_le_right ea eb), ← sub_mul, Int.cast_sub]
  rfl

/-! ## The factor (R261) -/

theorem cmpNum_eq_iff {a b : Num} (ha : a.isNan = false) (hb : b.isNan = false) : cmpNum a b = .eq ↔ valOf a = valOf b := by
  have h := cmpNum_compares ha hb
  exact ⟨fun he => by rwa [he] at h, h.eq_eq.2⟩

theorem valOf_negInf_le (a : Num) : valOf (.inf true) ≤ valOf a := bot_le

theorem le_valOf_posInf (a : Num) : valOf a ≤ valOf (.inf false) := le_top

/-- The factor of vosmx for an old maximum and a new one. -/
def rescale (old new : Num) (c : Nat) : Nat × Word :=
  if cmpNum new old = .eq then (0x3F800000, 0) else if old = .inf true then (0, 0) else exp2sDiff old new c

section

variable {a b : Num} (c : Nat) (ha : a.isNan = false) (hb : b.isNan = false)

include ha hb

theorem rescale_of_eq (h : valOf a = valOf b) : rescale a b c = (0x3F800000, 0) := if_pos ((cmpNum_eq_iff hb ha).2 h.symm)

theorem rescale_of_lt (h : valOf a < valOf b) : rescale a b c = if a = .inf true then (0, 0) else exp2sDiff a b c :=
  if_neg (mt (cmpNum_eq_iff hb ha).1 h.ne')

theorem rescale_of_inf (h : valOf a < valOf b) (hinf : a = .inf true ∨ b = .inf false) : rescale a b c = (0, 0) := by
  rw [rescale_of_lt c ha hb h]
  split_ifs with h0
  · rfl
  · obtain rfl := hinf.resolve_left h0
    cases a <;> rfl

theorem rescale_of_fin (h : valOf a < valOf b) (hlo : a ≠ .inf true) (hhi : b ≠ .inf false) :
    ∃ v e : Int, (v : ℝ) * 2 ^ e = ratOf a - ratOf b ∧ rescale a b c = exp2s v e c := by
  rw [rescale_of_lt c ha hb h, if_neg hlo]
  cases a with
  | nan s n => cases ha
  | inf n =>
    cases n with
    | true => exact absurd rfl hlo
    | false => exact absurd h (le_valOf_posInf b).not_gt
  | fin na ma ea =>
    cases b with
    | nan s n => cases hb
    | inf n =>
      cases n with
      | true => exact absurd h (valOf_negInf_le _).not_gt
      | false => exact absurd rfl hhi
    | fin nb mb eb => exact exp2sDiff_fin na ma ea nb mb eb c

end

/-- The term of vosms for a number and a maximum. -/
def summand (x m : Num) (c : Nat) : Nat × Word :=
  if cmpNum x m = .eq then (0x3F800000, 0)
  else if x = .inf true ∨ m = .inf false then (0, 0)
  else if m = .inf true ∨ x = .inf false then (0x7F800000, 0)
  else exp2sDiff x m c

theorem summand_of_fin {nx nm : Bool} {mx mm : Nat} {ex em : Int} (c : Nat)
    (h : valOf (.fin nx mx ex) ≠ valOf (.fin nm mm em)) : ∃ v e : Int,
      (v : ℝ) * 2 ^ e = ratOf (.fin nx mx ex) - ratOf (.fin nm mm em) ∧ summand (.fin nx mx ex) (.fin nm mm em) c = exp2s v e c := by
  rw [summand, if_neg (mt (cmpNum_eq_iff rfl rfl).1 h), if_neg (by simp), if_neg (by simp)]
  exact exp2sDiff_fin nx mx ex nm mm em c

/-! ## The steps (R261) -/

section

variable {m l x : Nat} (c : Nat)

theorem sigFlag_three (a b d : Num) : sigFlag [a, b, d] = when (a.isSig || b.isSig || d.isSig) wINV := by
  simp [sigFlag, Bool.or_assoc]

theorem osmx_of_nan (h : ((fmtFp32.unpack m).isNan || (fmtFp32.unpack l).isNan || (fmtFp32.unpack x).isNan) = true) :
    osmx m l x c = ((fp32Nan, fp32Nan, fp32Nan), sigFlag [fmtFp32.unpack m, fmtFp32.unpack l, fmtFp32.unpack x]) := if_pos h

theorem osms_of_nan (h : ((fmtFp32.unpack m).isNan || (fmtFp32.unpack l).isNan || (fmtFp32.unpack x).isNan) = true) :
    osms m l x c = (fp32Nan, sigFlag [fmtFp32.unpack m, fmtFp32.unpack l, fmtFp32.unpack x]) := if_pos h

/-- The new maximum. -/
def newMax (m x : Nat) : Nat := (minMax fmtFp32 true (m, fmtFp32.unpack m) (x, fmtFp32.unpack x)).1

theorem osmx_of_numbers (h : ((fmtFp32.unpack m).isNan || (fmtFp32.unpack l).isNan || (fmtFp32.unpack x).isNan) = false) :
    let r := rescale (fmtFp32.unpack m) (fmtFp32.unpack (newMax m x)) c
    let p := mulNum (fmtFp32.unpack l) (fmtFp32.unpack r.1)
    let w := roundFloat fmtFp32 .rne false false p.1
    osmx m l x c = ((newMax m x, w.1, r.1), r.2 ||| p.2 ||| w.2) := if_neg (Bool.eq_false_iff.1 h)

theorem osms_of_numbers (h : ((fmtFp32.unpack m).isNan || (fmtFp32.unpack l).isNan || (fmtFp32.unpack x).isNan) = false) :
    let r := summand (fmtFp32.unpack x) (fmtFp32.unpack m) c
    let p := addNum false (fmtFp32.unpack l) (fmtFp32.unpack r.1)
    let w := roundFloat fmtFp32 .rne false false p.1
    osms m l x c = (w.1, r.2 ||| p.2 ||| w.2) := if_neg (Bool.eq_false_iff.1 h)

/-- The new maximum is the old one or the new number, whichever is not below the other. -/
theorem unpack_newMax (hm : (fmtFp32.unpack m).isNan = false) (hx : (fmtFp32.unpack x).isNan = false) :
    fmtFp32.unpack (newMax m x) = fmtFp32.unpack m ∧ AtMost (fmtFp32.unpack x) (fmtFp32.unpack m) ∨
      fmtFp32.unpack (newMax m x) = fmtFp32.unpack x ∧ AtMost (fmtFp32.unpack m) (fmtFp32.unpack x) := by
  rcases minMax_keeps fmtFp32 true (a := (m, fmtFp32.unpack m)) (b := (x, fmtFp32.unpack x)) hm hx with ⟨h, hk⟩ | ⟨h, hk⟩
  · exact .inl ⟨congrArg fmtFp32.unpack h, hk⟩
  · exact .inr ⟨congrArg fmtFp32.unpack h, hk⟩

end

end Sys2Proof.Machine

/-!
PROOFS. The special functions (O30): the steps of the softmax delivered, and the obligation.
-/

namespace Sys2Proof.Machine

open Sys2Proof

section

variable {m l x : Nat} (c : Nat) (hm : (fmtFp32.unpack m).isNan = false) (hl : (fmtFp32.unpack l).isNan = false)
  (hx : (fmtFp32.unpack x).isNan = false)

include hm hx

/-- The new maximum is one of its two numbers, and no smaller than either. -/
theorem newMax_spec : (∃ k ∈ [fmtFp32.unpack m, fmtFp32.unpack x], SameNum (fmtFp32.unpack (newMax m x)) k) ∧
    AtMost (fmtFp32.unpack m) (fmtFp32.unpack (newMax m x)) ∧ AtMost (fmtFp32.unpack x) (fmtFp32.unpack (newMax m x)) := by
  rcases unpack_newMax hm hx with ⟨h, hk⟩ | ⟨h, hk⟩ <;> rw [h]
  · exact ⟨⟨_, by simp, sameNum_refl hm⟩, atMost_refl _, hk⟩
  · exact ⟨⟨_, by simp, sameNum_refl hx⟩, hk, atMost_refl _⟩

theorem valOf_newMax_of_le (h : valOf (fmtFp32.unpack x) ≤ valOf (fmtFp32.unpack m)) :
    (fmtFp32.unpack (newMax m x)).isNan = false ∧ valOf (fmtFp32.unpack m) = valOf (fmtFp32.unpack (newMax m x)) := by
  rcases unpack_newMax hm hx with ⟨heq, -⟩ | ⟨heq, hk⟩ <;> rw [heq]
  · exact ⟨hm, rfl⟩
  · exact ⟨hx, (hk.elim le_of_lt fun hk => hk.1.le).antisymm h⟩

theorem unpack_newMax_of_lt (h : valOf (fmtFp32.unpack m) < valOf (fmtFp32.unpack x)) :
    fmtFp32.unpack (newMax m x) = fmtFp32.unpack x := by
  rcases unpack_newMax hm hx with ⟨-, hk⟩ | ⟨heq, -⟩
  · exact absurd h (not_lt.2 (hk.elim le_of_lt fun hk => hk.1.le))
  · exact heq

include hl

theorem no_nan : ((fmtFp32.unpack m).isNan || (fmtFp32.unpack l).isNan || (fmtFp32.unpack x).isNan) = false := by
  rw [hm, hl, hx]
  rfl

/-- R261: the new maximum, the factor, and the sum rescaled in one rounding. -/
theorem osmx_spec :
    let f := fmtFp32
    let nm := f.unpack m
    let nl := f.unpack l
    let nx := f.unpack x
    let y := osmx m l x c
    (∃ k ∈ [nm, nx], SameNum (f.unpack y.1.1) k) ∧ AtMost nm (f.unpack y.1.1) ∧ AtMost nx (f.unpack y.1.1) ∧
      ∃ rg : Nat × Word,
        (valOf nx ≤ valOf nm → rg = (0x3F800000, 0)) ∧
        (valOf nm < valOf nx → nm = .inf true ∨ nx = .inf false → rg = (0, 0)) ∧
        (valOf nm < valOf nx → nm ≠ .inf true → nx ≠ .inf false →
          ∃ v e : Int, (v : ℝ) * 2 ^ e = ratOf nm - ratOf nx ∧ rg = exp2s v e c) ∧
        y.1.2.2 = rg.1 ∧ ∃ w : Nat × Word, w.1 = y.1.2.1 ∧ y.2 = (rg.2 ||| w.2) ∧
          Delivers f .rne false (mulNum nl (f.unpack rg.1)).1 (mulNum nl (f.unpack rg.1)).2 w := by
  intro f nm nl nx y
  have hf : f.Standard := ftyFmt_standard .f32
  have hy : y = _ := osmx_of_numbers c (no_nan hm hl hx)
  obtain ⟨hsame, hold, hnew⟩ := newMax_spec hm hx
  rw [hy]
  refine ⟨hsame, hold, hnew, rescale nm (f.unpack (newMax m x)) c, fun h => ?_, fun h hinf => ?_, fun h hlo hhi => ?_, rfl,
    (_, _), by rfl, BitVec.or_assoc _ _ _, delivers_roundFloat hf .rne false _ _⟩
  · obtain ⟨hnan, heq⟩ := valOf_newMax_of_le hm hx h
    exact rescale_of_eq c hm hnan heq
  · rw [unpack_newMax_of_lt hm hx h]
    exact rescale_of_inf c hm hx h hinf
  · rw [unpack_newMax_of_lt hm hx h]
    exact rescale_of_fin c hm hx h hlo hhi

/-- R261: the sum with one term more, in one rounding. -/
theorem osms_spec :
    let f := fmtFp32
    let nm := f.unpack m
    let nl := f.unpack l
    let nx := f.unpack x
    let z := osms m l x c
    ∃ tg : Nat × Word,
      (valOf nx = valOf nm → tg = (0x3F800000, 0)) ∧
      (valOf nx ≠ valOf nm → nx = .inf true ∨ nm = .inf false → tg = (0, 0)) ∧
      (valOf nx ≠ valOf nm → nx ≠ .inf true → nm = .inf true ∨ nx = .inf false → nm ≠ .inf false → tg = (0x7F800000, 0)) ∧
      (∀ a b e k o h, nx = .fin a b e → nm = .fin k o h → valOf nx ≠ valOf nm →
        ∃ v e : Int, (v : ℝ) * 2 ^ e = ratOf nx - ratOf nm ∧ tg = exp2s v e c) ∧
      ∃ w : Nat × Word, w.1 = z.1 ∧ z.2 = (tg.2 ||| w.2) ∧
        Delivers f .rne false (addNum false nl (f.unpack tg.1)).1 (addNum false nl (f.unpack tg.1)).2 w := by
  intro f nm nl nx z
  have hf : f.Standard := ftyFmt_standard .f32
  have hz : z = _ := osms_of_numbers c (no_nan hm hl hx)
  have hcmp : cmpNum nx nm = .eq ↔ valOf nx = valOf nm := cmpNum_eq_iff hx hm
  rw [hz]
  refine ⟨summand nx nm c, fun h => if_pos (hcmp.2 h), fun h hinf => ?_, fun h hlo hinf hhi => ?_, fun a b e k o i hnx hnm h => ?_,
    (_, _), by rfl, BitVec.or_assoc _ _ _, delivers_roundFloat hf .rne false _ _⟩
  · rw [summand, if_neg (mt hcmp.1 h), if_pos hinf]
  · rw [summand, if_neg (mt hcmp.1 h), if_neg (not_or.2 ⟨hlo, hhi⟩), if_pos hinf]
  · rw [hnx, hnm] at h ⊢
    exact summand_of_fin c h

end

section

variable {t : FTy} {mode : Word} {a m : Nat} {neg : Bool} {e : Int}

/-- R259: an approximate function of a finite number is exact where the table says so, and inexact elsewhere; vrsq is within its bound. -/
theorem approxElem_finite (g : Approx) (hn : inF t mode a = .fin neg m e) (hm : m ≠ 0) (hg : neg = false ∨ g ≠ .rsq ∧ g ≠ .log2) :
    let f := ftyFmt t
    let v := ratOf (inF t mode a)
    let y := approxElem g t mode a
    (¬ExactAt g f v → y.2.getLsbD 4 = true) ∧
    (∀ k : Int, g = .rsq → v = 4 ^ k → leastExp f ≤ -k → IsCode f false (2 ^ (-k)) y.1 ∧ y.2 = 0) ∧
    (∀ k : Int, g = .exp2 → v = k → leastExp f ≤ k → k ≤ f.bias → IsCode f false (2 ^ k) y.1 ∧ y.2 = 0) ∧
    (∀ k : Int, g = .log2 → v = 2 ^ k → (∃ s, IsCode f s k y.1) ∧ y.2 = 0) ∧
    (∀ k : Int, g = .sin → v = k → IsCode f neg 0 y.1 ∧ y.2 = 0) ∧
    (∀ k : Int, g = .cos → v = k → IsCode f (decide (k % 2 = 1)) (if k % 2 = 1 then -1 else 1) y.1 ∧ y.2 = 0) ∧
    (∀ k : Int, g = .sin → 2 * v = 2 * k + 1 →
      IsCode f (decide (k % 2 = 1)) (if k % 2 = 1 then -1 else 1) y.1 ∧ y.2 = 0) ∧
    (∀ k : Int, g = .cos → 2 * v = 2 * k + 1 → IsCode f false 0 y.1 ∧ y.2 = 0) ∧
    (g = .tanh → 9 ≤ |v| → IsCode f neg (if neg then -1 else 1) y.1 ∧ y.2 = wINX) ∧
    (g = .rsq → ∃ z, IsCode f false z y.1 ∧ ∀ k : Int, (2 : ℝ) ^ k ≤ (Real.sqrt v)⁻¹ → (Real.sqrt v)⁻¹ < 2 ^ (k + 1) →
      |z - (Real.sqrt v)⁻¹| ≤ 2 ^ (k - f.mbits) * (1 + 2 ^ (-60 : Int))) := by
  intro f v y
  have h : f.Holds m e := holds_of_inF hn hm
  have hf : f.Regular := (ftyFmt_standard t).regular
  have hy : y = approxFinite g t (FEnv.ofMode mode).fout neg m e a := approxElem_of_fin hn hm hg
  have hv : v = ratOf (.fin neg m e) := congrArg ratOf hn
  have hpos (hg' : g = .rsq ∨ g = .log2) : v = m * 2 ^ e := by
    have : neg = false := hg.resolve_right fun h => hg'.elim h.1 h.2
    rw [hv, this, ratOf_false]
  rw [hy]
  refine ⟨fun hne => ?_, fun k hk hvk hmin => ?_, fun k hk hvk hmin hmax => ?_, fun k hk hvk => ?_, fun k hk hvk => ?_,
    fun k hk hvk => ?_, fun k hk hvk => ?_, fun k hk hvk => ?_, fun hk hvk => ?_, fun hk => ?_⟩
  · exact approxFinite_inexact a hg (hv ▸ hne)
  · rw [hk]
    exact approxFinite_rsq_exact a h ((hpos (.inl hk)).symm.trans hvk) hmin
  · rw [hk]
    exact approxFinite_exp2_exact a hm h (hv.symm.trans hvk) hmin hmax
  · rw [hk]
    exact approxFinite_log2_exact a h ((hpos (.inr hk)).symm.trans hvk)
  · rw [hk, approxFinite_sin_whole a (hv.symm.trans hvk)]
    exact ⟨exactCode_zero hf neg, rfl⟩
  · rw [hk, approxFinite_cos_whole a (hv.symm.trans hvk)]
    exact ⟨isCode_signed_one_of_odd t rfl, rfl⟩
  · rw [hk, approxFinite_sin_half a (hv ▸ hvk)]
    exact ⟨isCode_signed_one_of_odd t rfl, rfl⟩
  · rw [hk, approxFinite_cos_half a (hv ▸ hvk)]
    exact ⟨exactCode_zero hf false, rfl⟩
  · rw [hk]
    exact approxFinite_tanh_large a (hv ▸ hvk)
  · rw [hk, hpos (.inl hk)]
    exact approxFinite_rsq_bound h hm _ neg a

end

/-- Settles O30: the reciprocal and the root are rounded once from a quotient or a root with a sticky bit; the approximate functions
split on the kind of input, and a delivery's code lies within its bound. -/
theorem specialFunctions : Obligations.SpecialFunctions := by
  unfold Obligations.SpecialFunctions
  refine ⟨elemRcp_elemSqrt_spec, fun g t mode a ha => ?_, fun t mode a ha hn => ?_,
    fun v e c n hn hlo hhi => exp2s_of_whole c hn hlo hhi, fun m l x c _ _ _ => ?_⟩
  · intro f n y
    refine ⟨approxElem_of_nan g, fun hn => (approxElem_of_inf g hn).trans (approxInf_false g f),
      fun hn => (approxElem_of_inf g hn).trans (approxInf_true g f), fun hn => ?_, fun m e hn hm hg => approxElem_of_undefined hn hm hg,
      fun neg m e hn hm hg => approxElem_finite g hn hm hg⟩
    obtain ⟨neg, e, hx⟩ : ∃ neg e, n = .fin neg 0 e := by
      cases hn' : n with
      | nan s k => rw [hn'] at hn; cases hn
      | inf k => rw [hn'] at hn; cases hn
      | fin k m e =>
        rw [hn'] at hn
        obtain rfl : m = 0 := by simpa [Num.isZero] using hn
        exact ⟨k, e, rfl⟩
    have hy : y = approxZero g f neg := approxElem_of_zero g hx
    rw [hy, hx]
    exact approxZero_spec g (ftyFmt_standard t) neg
  · refine ⟨approxElem_cos_add_sign ha hn, fun g hg hy => ?_⟩
    have hodd := approxElem_add_sign (by simpa using hg) ha hn hy
    rw [hodd]
    exact ⟨rfl, fun neg v hcode => by simpa using isCode_withSign (ftyFmt_standard t).regular hcode true⟩
  · intro f nm nl nx y z nan sig
    refine ⟨fun hnan => ⟨?_, ?_⟩, fun hnan => ?_, fun hnan => ?_⟩
    · exact (osmx_of_nan c hnan).trans (Prod.ext rfl (sigFlag_three nm nl nx))
    · exact (osms_of_nan c hnan).trans (Prod.ext rfl (sigFlag_three nm nl nx))
    · obtain ⟨hml, hx⟩ := Bool.or_eq_false_iff.1 hnan
      obtain ⟨hm, hl⟩ := Bool.or_eq_false_iff.1 hml
      exact osmx_spec c hm hl hx
    · obtain ⟨hml, hx⟩ := Bool.or_eq_false_iff.1 hnan
      obtain ⟨hm, hl⟩ := Bool.or_eq_false_iff.1 hml
      exact osms_spec c hm hl hx

end Sys2Proof.Machine

/-!
PROOFS. The instructions of a sequencer: what they answer when they issue, and those that post nothing (O52).
-/

namespace Sys2Proof.Machine

open Sys2Proof

/-! ## Instructions of a sequencer -/

@[simp] theorem State.modSeq_stuck (s : State) (tid : Nat) (f : Sequencer → Sequencer) : (s.modSeq tid f).stuck = s.stuck := rfl

@[simp] theorem State.arrive_stuck (s : State) (r : BarRef) (a : Arrival) : (s.arrive r a).stuck = s.stuck :=
  State.setBarrier_stuck ..

theorem Map.update_update {α : Type} (m : Map α) (k : Nat) (f g : α → α) :
    Map.update (Map.update m k f) k g = Map.update m k fun x => g (f x) := by
  induction m with
  | nil => rfl
  | cons y t ih =>
    obtain ⟨j, y⟩ := y
    by_cases hj : j = k <;> simp [Map.update, hj, ih]

/-- Two changes of a sequencer are one. -/
theorem State.modSeq_modSeq (s : State) (tid : Nat) (f g : Sequencer → Sequencer) :
    (s.modSeq tid f).modSeq tid g = s.modSeq tid fun q => g (f q) := by
  simp only [State.modSeq, State.modTeam, Map.update_update, Team.modSeq, Option.map_map]
  rfl

section

variable {i : Instr} {s r : State} {tid : Nat} {t : Team} {q : Sequencer} {f : Nat → Team → Sequencer → State → Effect}
  (h : SeqIssues s tid t q)

include h

/-- An effect that is done, with nothing to wait for, completes the instruction. -/
theorem runSeq_done (hf : f tid t q s = .done r) (hr : r.stuck = false) : runSeq i s f = .next (r.seqCompleted i tid) := by
  rw [runSeq_of_issues h, hf, Effect.unstuck_done hr]
  rfl

/-- An effect that sets the program counter itself is the whole instruction. -/
theorem runSeq_flow (hf : f tid t q s = .flow r) (hr : r.stuck = false) : runSeq i s f = .next r := by
  rw [runSeq_of_issues h, hf, Effect.unstuck_flow hr]
  rfl

/-- An effect that leaves the sequencer waiting keeps its place. -/
theorem runSeq_wait {x : Wait} (hf : f tid t q s = .wait r x) (hr : r.stuck = false) :
    runSeq i s f = .next (r.modSeq tid fun q => { q with wait := x }) := by
  rw [runSeq_of_issues h, hf, Effect.unstuck_wait hr]
  rfl

/-- A fault is the team's, at the instruction. -/
theorem runSeq_fault {c : Cause} (hf : f tid t q s = .fault r c) (hr : r.stuck = false) :
    runSeq i s f = .next (r.takeFault tid (seqOrigin q i.word) c false false .none) := by
  rw [runSeq_of_issues h, hf, Effect.unstuck_fault hr]
  rfl

end

/-! ## The instructions that post nothing (R284, R285, R288, R289, R293) -/

/-- The offset of kbr counts words. -/
theorem signExtend_shiftLeft_two (o : BitVec 10) : o.signExtend 32 <<< 2 = BitVec.ofInt 32 (4 * o.toInt) := by
  rw [BitVec.shiftLeft_eq_mul_twoPow, mul_comm, BitVec.ofInt_mul]
  rfl

/-- A signed number added to a word. -/
theorem add_signExtend (a : Word) (v : BitVec 10) : a + v.signExtend 32 = BitVec.ofInt 32 (a.toNat + v.toInt) := by
  rw [BitVec.ofInt_add, BitVec.ofInt_natCast, BitVec.ofNat_toNat, BitVec.setWidth_eq]
  rfl

/-- A store without some of its keys. -/
theorem Store.read_filter_key {w : Nat} (m : Store w) (p : Nat → Bool) (k : Nat) :
    Store.read (m.filter fun x => p x.1) k = if p k then Store.read m k else 0 := by
  induction m with
  | nil => simp
  | cons y t ih =>
    obtain ⟨j, y⟩ := y
    by_cases hj : j = k
    · subst hj
      by_cases hp : p j = true <;> simp_all [Store.read]
    · by_cases hp : p j = true <;> simp_all [Store.read]

theorem accKey_div {c i j : Nat} (hi : i < 128) (hj : j < 128) : accKey c i j / 16384 = c := by
  unfold accKey
  omega

/-- What a zeroed tile and the others read. -/
theorem Team.zeroTile_tile (t : Team) (c d : Nat) {i j : Nat} (hi : i < 128) (hj : j < 128) :
    (t.zeroTile c).tile d i j = if d = c then 0 else t.tile d i j := by
  simp only [Team.zeroTile, Team.tile]
  rw [Store.read_filter_key t.acc (fun k => k / 16384 != c), accKey_div hi hj]
  by_cases h : d = c <;> simp [h]

section

variable {s : State} {tid : Nat} {t : Team} {q : Sequencer} (h : SeqIssues s tid t q)

include h

/-- kli and kadd write a k register. -/
theorem setK_of_issues {i : Instr} (k : BitVec 4) (f : Sequencer → Word) :
    setK i s k f = .next ((s.modSeq tid fun q => { q with k := Store.write q.k k.toNat (f q) }).seqCompleted i tid) :=
  runSeq_done h rfl h.calm

theorem exec_kadd_of_issues (k a : BitVec 4) (v : BitVec 10) : exec (.kadd k a v) s = .next ((s.modSeq tid fun q =>
    { q with k := Store.write q.k k.toNat (BitVec.ofInt 32 ((Store.read q.k a.toNat).toNat + v.toInt)) }).seqCompleted
      (.kadd k a v) tid) := by
  rw [exec_kadd, execKadd, setK_of_issues h]
  simp only [Sequencer.getK, add_signExtend]

theorem exec_kbr_of_issues (c : KCond) (a : BitVec 4) (o : BitVec 10) : exec (.kbr c a o) s = .next (s.modSeq tid fun q =>
    let old := Store.read q.k a.toNat
    let taken : Bool := match c with | .nz => decide (old ≠ 0) | .z => decide (old = 0) | .dec => decide (old ≠ 1)
    { q with
      pc := if taken then seqStart q + BitVec.ofInt 32 (4 * o.toInt) else seqNext q
      clause := none, wait := .none, k := if c = .dec then Store.write q.k a.toNat (old - 1) else q.k }) := by
  rw [exec_kbr]
  refine (runSeq_flow h (r := ?_) ?effect ?calm).trans ?next
  case effect => exact rfl
  case calm => exact h.calm
  refine congrArg Host.Outcome.next (congrArg (s.modSeq tid) (funext fun q => ?_))
  rw [signExtend_shiftLeft_two]
  cases c with
  | nz =>
    simp only [reduceCtorEq, if_false, Sequencer.getK, bne_iff_ne, decide_eq_true_eq]
    rfl
  | z =>
    simp only [reduceCtorEq, if_true, if_false, Sequencer.getK, beq_iff_eq, decide_eq_true_eq]
    rfl
  | dec =>
    have hout : Store.read q.k a.toNat - 1 ≠ 0 ↔ Store.read q.k a.toNat ≠ 1 := sub_ne_zero
    simp only [reduceCtorEq, if_true, if_false, Sequencer.getK, bne_iff_ne, decide_eq_true_eq, hout]
    rfl

theorem exec_mrel_of_issues (m : BitVec 2) : exec (.mrel m) s = .next ((s.modSeq tid fun q =>
    { q with latch := if q.latch = some m.toNat then none else q.latch }).seqCompleted (.mrel m) tid) := by
  rw [exec_mrel]
  exact runSeq_done h rfl h.calm

/-- mzero of a tile of the team that nothing in flight uses. -/
theorem exec_mzero_of_unused {c : BitVec 4} (hc : c.toNat < t.tiles) (hfree : ∀ o ∈ q.ops, c.toNat ∉ o.tiles false) :
    exec (.mzero c) s = .next ((s.modTeam tid fun t => t.zeroTile c.toNat).seqCompleted (.mzero c) tid) := by
  have hin : t.badTile false c.toNat = false := by simp [Team.badTile, hc]
  have hunused : q.usesTile c.toNat = false := by simpa [Sequencer.usesTile] using hfree
  rw [exec_mzero]
  exact runSeq_done h (by simp only [hin, hunused, Bool.false_eq_true, if_false]) h.calm

theorem exec_mchk_of_retired (k : BitVec 4) (hops : q.ops = []) : exec (.mchk k) s =
    .next ((s.modSeq tid fun q => { q with k := Store.write q.k k.toNat q.check }).seqCompleted (.mchk k) tid) := by
  rw [exec_mchk]
  exact runSeq_done h (by simp only [hops, List.isEmpty_nil, Bool.not_true, Bool.false_eq_true, if_false]) h.calm

/-- mbar issued again, after the phase that it arrived in. -/
theorem exec_mbar_of_completed {b : BitVec 4} {n mine : Nat} (hw : q.barWait = some (n, mine))
    (hph : mine < (s.barrier (.team tid b.toNat)).phase) :
    exec (.mbar b) s = .next ((s.modSeq tid fun q => { q with barWait := none }).seqCompleted (.mbar b) tid) := by
  rw [exec_mbar]
  exact runSeq_done h (by simp only [hw, hph, if_true]) h.calm

/-- mbar arrives once what is in flight has read its operands. -/
theorem exec_mbar_of_arrival {b : BitVec 4} (hw : q.barWait = none) (hmeets : s.meets t b.toNat = true)
    (hread : ∀ o ∈ q.ops, (∃ c a h x kc nb m, o.kind = .pass c a h x kc nb m) ∧ 0 < o.passes.inArray) :
    exec (.mbar b) s = .next ((s.arrive (.team tid b.toNat)
        { tid := tid, who := 16, fmt := q.fmt, mode := q.mode, awaits := [], streams := [] }).modSeq tid fun q =>
      { q with barWait := some (b.toNat, (s.barrier (.team tid b.toNat)).phase)
               wait := .barrier 0 b.toNat (s.barrier (.team tid b.toNat)).phase }) := by
  have hnone : (q.ops.any fun o => !(match o.kind with | .pass .. => decide (0 < o.passes.inArray) | _ => false)) = false := by
    simp only [List.any_eq_false]
    intro o ho
    obtain ⟨⟨c, a, hd, x, kc, nb, m, hk⟩, hin⟩ := hread o ho
    simp [hk, hin]
  rw [exec_mbar]
  refine (runSeq_wait h (r := ?_) (x := ?_) ?effect ?calm).trans ?next
  case effect =>
    simp only [hw, hmeets, Bool.not_true, Bool.false_eq_true, if_false]
    exact if_neg (Bool.eq_false_iff.1 hnone)
  case calm => simpa using h.calm
  case next => rw [State.modSeq_modSeq]

end

/-- Settles O52, instruction by instruction. -/
theorem sequencerFlow : Obligations.SequencerFlow := by
  intro s tid t q h
  refine ⟨fun k v => setK_of_issues h k _, fun k v => setK_of_issues h k _, exec_kadd_of_issues h, exec_kbr_of_issues h,
    exec_mrel_of_issues h, fun c hc hfree => ⟨exec_mzero_of_unused h hc hfree, fun i j hi hj => ⟨?_, fun d hd => ?_⟩⟩,
    exec_mchk_of_retired h, fun b n mine => exec_mbar_of_completed h, fun b => exec_mbar_of_arrival h⟩
  · rw [Team.zeroTile_tile t c.toNat _ hi hj, if_pos rfl]
  · rw [Team.zeroTile_tile t c.toNat _ hi hj, if_neg hd]

end Sys2Proof.Machine

/-!
PROOFS. Barrier count mismatches (O47): an arrival at no barrier, a second one in a phase, and mbar without its SEQBAR bit (R380, R399).
-/

namespace Sys2Proof.Machine

open Sys2Proof

section

variable {i : Instr} {s0 s : State} {w : Issuer} {t : Team} {q : Party}

/-- Without vector sources an instruction pops nothing: it executes in the state that it issues in. -/
theorem Executes.same_of_no_reads (h : Executes i s0 w s t q) (hr : (operands i).reads = []) :
    s = s0 ∧ ∀ f, runTeam i s0 f = .next (finish i s0 w q ((f w t q s0).unstuck s0 w.who (originOf w q i.word))) := by
  obtain ⟨⟨t0, q0, hi⟩ | ⟨rfl, hres⟩, hsite⟩ := h
  · have hp : poppable i q0 w.sl = [] := List.eq_nil_iff_forall_not_mem.2 fun n hn => by simpa [hr] using poppable_sub hn
    have hpops := hi.pops
    rw [hp] at hpops
    obtain rfl : s0 = s := congrArg Prod.fst hpops
    obtain ⟨rfl, rfl⟩ : t0 = t ∧ q0 = q := by simpa using (party_of_issuer hi.issuer).1.symm.trans hsite
    exact ⟨rfl, fun f => (runTeam_of_issues hi hsite f).trans (by rw [ended_of_no_reads hr])⟩
  · exact ⟨rfl, runTeam_of_resumes hres⟩

/-- A fault of an instruction without vector sources is its whole effect. -/
theorem runTeam_fault (h : Executes i s0 w s t q) (hr : (operands i).reads = []) {c : Cause}
    {f : Issuer → Team → Party → State → Effect} (hf : f w t q s = .fault s c) :
    runTeam i s0 f = .next (s.faultAt w q i.word c) := by
  obtain ⟨rfl, hrun⟩ := h.same_of_no_reads hr
  rw [hrun, hf, Effect.unstuck_fault h.calm]
  rfl

/-- An arrival at no barrier, and a second one in a phase, mismatch. -/
theorem arriveEffect_of_mismatch {c : BarScope} {b : Nat} {next : State → Nat → Effect}
    (h : ∀ r, barOf t w.tid c b = some r → (s.barrier r).has w.tid w.p = true) :
    arriveEffect c b w t q s next = .fault s (mismatch c b) := by
  unfold arriveEffect
  split
  · rfl
  · next r hr => exact if_pos (h r hr)

/-- bar.arrive, and bar.sync that does not wait yet, of a party whose arrival mismatches. -/
theorem exec_bar_of_mismatch {c : BarScope} {b : BitVec 4} (hi : i = .barArrive c b ∨ i = .barSync c b)
    (h : Executes i s0 w s t q) (hw : ∀ k l m, (q.slot w.sl).wait ≠ .barrier k l m)
    (hbar : ∀ r, barOf t w.tid c b.toNat = some r → (s.barrier r).has w.tid w.p = true) :
    exec i s0 = .next (s.faultAt w q i.word (mismatch c b.toNat)) := by
  obtain rfl | rfl := hi
  · rw [exec_barArrive]
    exact runTeam_fault h rfl (arriveEffect_of_mismatch hbar)
  · rw [exec_barSync]
    refine runTeam_fault h rfl ?_
    split
    · next hwait => exact absurd hwait (hw _ _ _)
    · exact arriveEffect_of_mismatch hbar

theorem Barrier.has_of_mem {x : Barrier} {tid who : Nat} (h : ∃ a ∈ x.arrived, a.tid = tid ∧ a.who = who) :
    x.has tid who = true := by
  simpa [Barrier.has] using h

end

/-- A team whose SEQBAR bit is clear does not meet the barrier. -/
theorem State.meets_of_clear {s : State} {t : Team} {b : Nat} (h : ∀ n, s.node? t = some n → n.seqbar.getLsbD b = false) :
    s.meets t b = false := by
  unfold State.meets
  cases hn : s.node? t with
  | none => rfl
  | some n => simp [h n hn]

/-- Settles O47: an arrival by a team without a group names no barrier, a second one finds the party in the phase, and mbar finds
the SEQBAR bit clear. -/
theorem barrierFaults : Obligations.BarrierFaults := by
  unfold Obligations.BarrierFaults
  refine ⟨fun b s0 w s t q i hi h hw hg => ?_, fun c b s0 w s t q i r hi h hw hr ha => ?_, fun b s tid t q h hq hb => ?_⟩
  · have hno : barOf t w.tid .cl b.toNat = none := by simp [barOf, hg]
    exact exec_bar_of_mismatch hi h hw fun r hr => by simp [hno] at hr
  · refine exec_bar_of_mismatch hi h hw fun r' hr' => ?_
    obtain rfl : r = r' := by simpa using hr.symm.trans hr'
    exact Barrier.has_of_mem ha
  · rw [exec_mbar]
    refine runSeq_fault h ?_ h.calm
    simp only [hq, State.meets_of_clear hb, Bool.not_false, if_true]
    rfl

end Sys2Proof.Machine

/-!
PROOFS. The instructions of the matrix stream that post an operation (O53).
-/

namespace Sys2Proof.Machine

open Sys2Proof

@[simp] theorem State.post_stuck (s : State) (tid : Nat) (i : Instr) (kind : MatKind) (n : Nat) (owned : List Nat) :
    (s.post tid i kind n owned).stuck = s.stuck := by
  unfold State.post
  split <;> rfl

/-! ## What the reads at issue leave alone -/

/-- The team and the sequencer that an issuer names. -/
theorem SeqIssues.found {s : State} {tid : Nat} {t : Team} {q : Sequencer} (h : SeqIssues s tid t q) :
    Map.find s.teams tid = some t ∧ t.seq = some q := by
  have hi := h.issuer
  unfold State.sequencer at hi
  split at hi
  · split at hi
    · next ht =>
      split at hi
      · next hq =>
        cases hi
        exact ⟨ht, hq⟩
      · cases hi
    · cases hi
  · cases hi

theorem State.sameWork_afterOps (s : State) (tid : Nat) (t : Team) (q : Sequencer) (a n : Nat) :
    s.SameWork (s.afterOps tid t q a n) := ⟨rfl, rfl, rfl⟩

theorem State.sameWork_engineRead (s : State) (core : Nat) (tag : BitVec 16) (priv : Bool) (a n : Nat) :
    s.SameWork (s.engineRead (some core) tag priv a n).1 := by
  induction n generalizing s a with
  | zero => exact .refl s
  | succ n ih =>
    rw [State.engineRead]
    have htarget : s.SameWork (s.engineTarget (some core) tag priv .load a).1 := s.sameWork_translate _ _ _ _ _
    generalize s.engineTarget (some core) tag priv .load a = x at htarget ⊢
    obtain ⟨r, c | g⟩ := x
    · exact htarget
    · have hbyte := htarget.trans (r.sameWork_engineByte (some core) g a)
      dsimp only at hbyte ⊢
      generalize r.engineByte (some core) g a = y at hbyte ⊢
      obtain ⟨u, byte⟩ := y
      have hrest := hbyte.trans (ih u (a + 1))
      dsimp only at hrest ⊢
      generalize u.engineRead (some core) tag priv (a + 1) n = z at hrest ⊢
      obtain ⟨v, c | ⟨bs, bad⟩⟩ := z <;> exact hrest

theorem State.sameWork_fetchHandle (s : State) (tid n sub : Nat) : s.SameWork (s.fetchHandle tid n sub).1 := by
  unfold State.fetchHandle
  split
  · exact .refl s
  · next t _ =>
    split
    · exact .refl s
    · dsimp only
      have h := s.sameWork_engineRead t.core (s.tagOf t) (s.privileged t) (handleAddr t n) 16
      generalize s.engineRead (some t.core) (s.tagOf t) (s.privileged t) (handleAddr t n) 16 = x at h ⊢
      obtain ⟨r, c | ⟨bs, bad⟩⟩ := x
      · exact h
      · dsimp only
        split <;> exact h

theorem State.sameWork_of_engineRead {s r : State} {tid : Nat} {t : Team} {q : Sequencer} {core a n b k : Nat} {tag : BitVec 16}
    {priv : Bool} {x : Except Cause (List Byte × Bool)}
    (h : (s.afterOps tid t q a n).engineRead (some core) tag priv b k = (r, x)) : s.SameWork r := by
  obtain rfl := congrArg Prod.fst h
  exact (s.sameWork_afterOps ..).trans (State.sameWork_engineRead ..)

theorem State.sameWork_of_fetchHandle {s r : State} {tid : Nat} {t : Team} {q : Sequencer} {a n k sub : Nat} {x : Except Cause Handle}
    (h : (s.afterOps tid t q a n).fetchHandle tid k sub = (r, x)) : s.SameWork r := by
  obtain rfl := congrArg Prod.fst h
  exact (s.sameWork_afterOps ..).trans (State.sameWork_fetchHandle ..)

/-- An operation is posted under the sequencer's fmt, and keeps it. -/
theorem State.post_fmt {s : State} {tid : Nat} {t : Team} {q : Sequencer} (ht : Map.find s.teams tid = some t) (hq : t.seq = some q)
    (i : Instr) (kind : MatKind) (n : Nat) (owned : List Nat) :
    ∃ t' q', Map.find (s.post tid i kind n owned).teams tid = some t' ∧ t'.seq = some q' ∧ q'.fmt = q.fmt := by
  simp only [State.post, ht, State.fresh, State.modSeq, State.modTeam_teams, Map.find_update_self, Option.map_some, Team.modSeq, hq]
  exact ⟨_, _, rfl, rfl, rfl⟩

/-! ## What holds a tile or a sequence back (R265, R295, R300) -/

/-- Neither the open Lookout sequence nor an operation in flight has a tile of the pass. -/
theorem Sequencer.writesTile_of_free {q : Sequencer} {wide : Bool} {c : Nat} (hc : q.holds c = false)
    (hc1 : wide = true → q.holds (c + 1) = false)
    (hops : ∀ o ∈ q.ops, ∀ k ∈ o.tiles true, k ≠ c ∧ (wide = true → k ≠ c + 1)) : q.writesTile wide c = false := by
  have hnone : ∀ o ∈ q.ops, ¬((o.tiles true).any fun k => k == c || (wide && k == c + 1)) = true := by
    intro o ho hany
    obtain ⟨k, hk, hkc⟩ := List.any_eq_true.1 hany
    obtain ⟨hne, hne1⟩ := hops o ho k hk
    rcases Bool.or_eq_true_iff.1 hkc with hkc | hkc
    · exact hne (beq_iff_eq.1 hkc)
    · obtain ⟨hw, hkc⟩ := Bool.and_eq_true_iff.1 hkc
      exact hne1 hw (beq_iff_eq.1 hkc)
  simp only [Sequencer.writesTile, Sequencer.holdsAny, hc, Bool.false_or, Bool.or_eq_false_iff, Bool.and_eq_false_imp]
  exact ⟨hc1, List.any_eq_false.2 hnone⟩

/-- A mapped pass that keeps the order of its sequence. -/
theorem Sequencer.lkoPass_of_kept {q : Sequencer} {p : PassFmt} {transposed : Bool} {c h nb : Nat}
    (hm : q.mapped h = true → transposed = true ∧ nb = 0 ∧ lkoBadFmt p q.fmt = false ∧
      ∀ l, q.openLko = some l → l.pass = passCode q.fmt ∧ ∀ x, l.tile = some x → x = c) :
    q.lkoPass p transposed c h nb = false := by
  unfold Sequencer.lkoPass
  split
  · rfl
  · next l hl =>
    refine Bool.and_eq_false_imp.2 fun hmap => ?_
    obtain ⟨htr, hnb, hfmt, hseq⟩ := hm hmap
    obtain ⟨hpass, htile⟩ := hseq l hl
    simp only [lkoBadFmt, Bool.or_eq_false_iff] at hfmt
    obtain ⟨⟨hex, hsa⟩, hsb⟩ := hfmt
    have hkept : (match l.tile with | some x => x != c | none => false) = false := by
      cases ht : l.tile with
      | none => rfl
      | some x => simp [htile x ht]
    simp only [htr, hnb, hpass, hex, hsa, hsb, bne_self_eq_false, Bool.not_true, Bool.or_false, Bool.false_or]
    exact hkept

/-! ## The instructions -/

section

variable {s s1 : State} {tid : Nat} {t : Team} {q : Sequencer} {p : PassFmt} {h : BitVec 4} {hd : Handle}
  (hi : SeqIssues s tid t q) (hp : passFmt (passCode q.fmt) = some p) (hh : s.matHandle tid t q h.toNat = (s1, .ok hd))
  (hs : s1.stuck = false)

include hi hp hh hs

/-- mld of a block that its handle holds, into a register that nothing in flight will write. -/
theorem exec_mld_of_ready {m : BitVec 2} {k : BitVec 4} {ko : Bool} (hfmt : hFmt hd = Cvt.fmtCode p.a)
    (hscl : p.useA q.fmt = true → hScl hd ≠ 0) :
    let kc := (q.offset ko k.toNat).1
    let nb := (q.offset ko k.toNat).2
    blockFits t hd (128 * nb) 128 (kc * p.ke) p.ke
      (if p.useA q.fmt then
        some (sclSpan hd (hRows hd) (hCols hd) (128 * nb) (128 * nb + 128) (kc * p.ke) (kc * p.ke + p.ke)) else none) →
    q.loading m.toNat = false →
    exec (.mld m h k ko) s = .next (((s1.modSeq tid fun q =>
      { q with latch := if q.latch = some m.toNat then none else q.latch }).post
        tid (.mld m h k ko) (.mld m.toNat hd kc nb) 0 []).seqCompleted (.mld m h k ko) tid) := by
  intro kc nb hfit hload
  have hok : ¬(hFmt hd ≠ Cvt.fmtCode p.a ∨ (p.useA q.fmt = true ∧ hScl hd = 0)) :=
    not_or.2 ⟨not_not.2 hfmt, fun ⟨huse, hnone⟩ => hscl huse hnone⟩
  rw [exec_mld, execMld]
  refine runSeq_done hi ?_ (by simpa using hs)
  simp only [hp, hh, if_neg hok, hload]
  rw [show t.blockFault .. = none from hfit]
  rfl

/-- mst of tiles that nothing in flight writes owns the lines of its rows. -/
theorem exec_mst_of_ready {c k : BitVec 4} {ko : Bool} (htile : t.badTile (p.a == .fp64) c.toNat = false) (hfmt : hFmt hd ≠ 0xE) :
    let kc := (q.offset ko k.toNat).1
    let nb := (q.offset ko k.toNat).2
    blockFits t hd (128 * nb) 128 (128 * kc) 128
      (if (hCvt hd).any Cvt.scalable = true ∧ hScl hd ≠ 0 then
        some (sclSpan hd (hRows hd) (hCols hd) (128 * nb) (128 * nb + 128) (128 * kc) (128 * kc + 128)) else none) →
    q.writesTile (p.a == .fp64) c.toNat = false →
    ∃ lines : List Nat, lines.Nodup ∧
      (∀ x, x ∈ lines ↔ ∃ j, j < 128 ∧ 128 * nb + j < hRows hd ∧
        let row := hSpan hd (128 * nb + j) (128 * nb + j + 1) (128 * kc) (128 * kc + 128)
        x ∈ s1.spanLines tid t .store (hLoc hd) row.1 (row.2 - row.1)) ∧
      exec (.mst c h k ko) s =
        .next ((s1.post tid (.mst c h k ko) (.mst c.toNat hd kc nb) 0 lines).seqCompleted (.mst c h k ko) tid) := by
  intro kc nb hfit hfree
  let rowLines (j : Nat) : List Nat :=
    let row := hSpan hd (128 * nb + j) (128 * nb + j + 1) (128 * kc) (128 * kc + 128)
    s1.spanLines tid t .store (hLoc hd) row.1 (row.2 - row.1)
  refine ⟨(((List.range 128).filter fun j => decide (128 * nb + j < hRows hd)).flatMap rowLines).dedup, List.nodup_dedup _,
    fun x => ?_, ?_⟩
  · simp only [List.mem_dedup, List.mem_flatMap, List.mem_filter, List.mem_range, decide_eq_true_eq, and_assoc]
    rfl
  · rw [exec_mst, execMst]
    refine runSeq_done hi ?_ (by simpa using hs)
    simp only [hp, htile, hh, if_neg hfmt, hfree, Bool.and_eq_true, bne_iff_ne, Bool.false_eq_true, if_false]
    rw [show t.blockFault .. = none from hfit]

/-- mscl of a handle of at most 128 rows and columns, with scales. -/
theorem exec_mscl_of_ready {c : BitVec 4} (htile : t.badTile (p.a == .fp64) c.toNat = false)
    (hcvt : (hCvt hd).any Cvt.scalable = true) (hscl : hScl hd ≠ 0) (hr : hRows hd ≤ 128) (hc : hCols hd ≤ 128) :
    let span := sclSpan hd (hRows hd) (hCols hd) 0 128 0 128
    blockFits t hd 0 128 0 128 (some span) → q.writesTile (p.a == .fp64) c.toNat = false →
    exec (.mscl c h) s = .next ((s1.post tid (.mscl c h) (.mscl c.toNat hd) 0
      (s1.spanLines tid t .store (hLoc hd) span.1 (span.2 - span.1))).seqCompleted (.mscl c h) tid) := by
  intro span hfit hfree
  have hsize : ¬(128 < hRows hd ∨ 128 < hCols hd) := by omega
  rw [exec_mscl, execMscl]
  refine runSeq_done hi ?_ (by simpa using hs)
  simp only [hp, htile, hh, hcvt, hscl, if_neg hsize, hfree, Bool.not_true, Bool.false_eq_true, or_self, if_false]
  rw [show t.blockFault .. = none from hfit]

/-- lko.fetch of the weights that the open sequence's block describes. -/
theorem exec_lkoFetch_of_open {l : LkoSeq} (hl : q.openLko = some l) (hw : l.weights = none) (hbad : lkoBadFmt p q.fmt = false)
    (hr : hRows hd = blockN l.block) (hc : hCols hd = blockD l.block) (hfmt : hFmt hd = Cvt.fmtCode p.b) :
    exec (.lkoFetch h) s = .next ((s1.modSeq tid fun q =>
      { q with latch := none, lko := some { l with weights := some (h.toNat, hd) } }).seqCompleted (.lkoFetch h) tid) := by
  rw [exec_lkoFetch, execLkoFetch]
  refine runSeq_done hi ?_ (by simpa using hs)
  simp only [hp, hh, hl, hw, hbad, hr, hc, hfmt, Option.isSome_none, Bool.false_eq_true, ne_eq, not_true_eq_false,
    or_self, if_false]

/-- lko.chk, once the predictor and the mapped passes have retired. -/
theorem exec_lkoChk_of_ready {c : BitVec 4} {m : BitVec 2} {l : LkoSeq} (hc : c.toNat < t.tiles) (hl : q.openLko = some l)
    (hbad : lkoBadFmt p q.fmt = false) (hpass : l.pass = passCode q.fmt) (hw : l.weights = some (h.toNat, hd))
    (htile : ∀ x, l.tile = some x → x = c.toNat) (hops : ∀ o ∈ q.ops, o.lookout = false) (hload : q.loading m.toNat = false) :
    let n := (l.plan.replays (chunks p l.block)).length
    (0 < n → s1.entries t.core < 8) →
    exec (.lkoChk c m h) s = .next (((s1.post tid (.lkoChk c m h) (.lkoChk c.toNat m.toNat h.toNat) n
      (s1.spanLines tid t .store 0 (l.blockVa + 52) 8)).modSeq tid fun q => { q with latch := none }).seqCompleted
        (.lkoChk c m h) tid) := by
  intro n hroom
  have hin : t.badTile false c.toNat = false := by simp [Team.badTile, hc]
  have hsame : (l.tile.any fun x => x != c.toNat) = false := by simpa [Option.any_eq_false] using htile
  have hops' : q.ops.any MatOp.lookout = false := by simpa using hops
  have hroom' : ¬(0 < n ∧ 8 ≤ s1.entries t.core) := fun hfull => (hroom hfull.1).not_ge hfull.2
  rw [exec_lkoChk, execLkoChk]
  refine runSeq_done hi ?_ (by simpa using hs)
  simp only [hp, hin, hh, hl, hbad, hpass, hw, hsame, hops', hload, Bool.false_eq_true, ne_eq, not_true_eq_false,
    or_self, if_false]
  exact if_neg hroom'

omit hi hs in
/-- A pass of a block that its handle holds, whose A register is loaded, with a reservation entry to be had. -/
theorem passEffect_of_ready {i : Instr} {transposed : Bool} {c k : BitVec 4} {m : BitVec 2} {ru ko : Bool}
    (htile : t.badTile (p.a == .fp64) c.toNat = false) (hload : q.loading m.toNat = false) (hfmt : hFmt hd = Cvt.fmtCode p.b)
    (hscl : p.useB q.fmt = true → hScl hd ≠ 0) (hroom : s1.entries t.core < 8) :
    let kc := (q.offset ko k.toNat).1
    let nb := (q.offset ko k.toNat).2
    let a := (Map.find t.aregs m.toNat).getD { elems := [], scales := [], enc := none }
    (∀ f holds, a.enc = some (f, holds) → f = Cvt.fmtCode p.a ∧ (p.useA q.fmt = true → holds = true)) →
    (if transposed then blockFits t hd (128 * nb) 128 (kc * p.ke) p.ke
        (if p.useB q.fmt then
          some (sclSpan hd (hRows hd) (hCols hd) (128 * nb) (128 * nb + 128) (kc * p.ke) (kc * p.ke + p.ke)) else none)
      else blockFits t hd (kc * p.ke) p.ke (128 * nb) 128
        (if p.useB q.fmt then
          some (sclSpan hd (hCols hd) (hRows hd) (128 * nb) (128 * nb + 128) (kc * p.ke) (kc * p.ke + p.ke)) else none)) →
    q.lkoPass p transposed c.toNat h.toNat nb = false →
    passEffect i transposed c m h ru k ko tid t q s =
      .done ((s1.post tid i (.pass c.toNat a hd transposed kc nb (q.mapped h.toNat)) 1 []).modSeq tid fun q' =>
        { q' with
          latch := if ru then some m.toNat else none
          lko := if q.mapped h.toNat then q'.lko.map fun l => { l with tile := some c.toNat } else q'.lko }) := by
  intro kc nb a henc hfit horder
  unfold passEffect
  simp only [hp, htile, hload, hh, Bool.false_eq_true, if_false]
  refine (if_neg ?_).trans ?_
  · rintro (hbad | ⟨huse, hnone⟩ | hbad)
    · exact hbad hfmt
    · exact hscl huse hnone
    · split at hbad
      · cases hbad
      · next f holds he =>
        obtain ⟨hf, hholds⟩ := henc f holds he
        rw [hf, bne_self_eq_false, Bool.false_or, Bool.and_eq_true] at hbad
        obtain ⟨huse, hnone⟩ := hbad
        rw [hholds huse] at hnone
        cases hnone
  · split
    · next e he =>
      cases transposed <;> exact absurd (he.symm.trans hfit) (Option.some_ne_none e)
    · exact (if_neg (Bool.eq_false_iff.1 horder)).trans (if_neg hroom.not_ge)

end

/-- lko.pred of a block and a handle of X in their ranges, with a Lookout state, its register and a reservation entry free. -/
theorem exec_lkoPred_of_ready {s s1 s2 s3 : State} {tid : Nat} {t : Team} {q : Sequencer} {p : PassFmt}
    {m : BitVec 2} {h : BitVec 4} {hd : Handle} {bs xs : List Byte} {va : Nat} {x : Handle} (hi : SeqIssues s tid t q)
    (hp : passFmt (passCode q.fmt) = some p) (hva : sext57 (hField hd 0 57) = va) (hxs : BitVec.ofNat 128 (ofBytes xs) = x) :
    (s.afterOps tid t q (handleAddr t h.toNat) 16).fetchHandle tid h.toNat 1 = (s1, .ok hd) →
    (∀ g, s1.peekTarget t.core (s1.tagOf t) (s1.privileged t) .load va = some g → g.peer = none) →
    q.lko = none → lkoBadFmt p q.fmt = false → va % 64 = 0 →
    (s1.afterOps tid t q va 64).engineRead (some t.core) (s1.tagOf t) (s1.privileged t) va 64 = (s2, .ok (bs, false)) →
    blockOk bs = true →
    (s2.afterOps tid t q (blockXh bs) 16).engineRead (some t.core) (s2.tagOf t) (s2.privileged t) (blockXh bs) 16 =
      (s3, .ok (xs, false)) →
    handleFault x = none → s3.peerBase t x = false → t.lsSpan x (hBase x, hBase x + hExtent x) = none →
    hRows x ≤ 128 → hCols x = blockD bs → hFmt x = Cvt.fmtCode p.a → s3.lkoHeld t.core tid < 4 → q.loading m.toNat = false →
    s3.entries t.core < 8 → s3.stuck = false →
    exec (.lkoPred m h) s = .next (((s3.post tid (.lkoPred m h) (.lkoPred m.toNat) (chunks p bs + 1) []).modSeq tid fun q =>
      { q with
        latch := none
        lko := some { block := bs, x := x, blockVa := va, ma := m.toNat, pass := passCode q.fmt, classes := [], pe := [],
                      weights := none, tile := none } }).seqCompleted (.lkoPred m h) tid) := by
  intro hh hpeer hlko hbad halign hblock hok hx hfault hbase hls hr hc hfmt hheld hload hroom hs
  have hclosed : q.openLko = none := by simp [Sequencer.openLko, hlko]
  have hsize : ¬(128 < hRows x ∨ hCols x ≠ blockD bs ∨ hFmt x ≠ Cvt.fmtCode p.a) := by simp [hr, hc, hfmt]
  have hheld' : ¬(q.lko.isSome = true ∨ 4 ≤ s3.lkoHeld t.core tid) := by simp [hlko, hheld]
  rw [exec_lkoPred, execLkoPred]
  refine runSeq_done hi ?_ (by simpa using hs)
  simp only [hp, hh, hva]
  refine (if_neg ?_).trans ?_
  · split
    · next g hg => simp [hpeer g hg]
    · exact Bool.false_ne_true
  · simp only [hclosed, hbad, if_neg (not_not.2 halign), Option.isSome_none, Bool.false_eq_true, or_self, if_false]
    rw [show State.engineRead .. = (s2, .ok (bs, false)) from hblock]
    simp only [hok, Bool.not_true, Bool.false_eq_true, if_false]
    rw [show State.engineRead .. = (s3, .ok (xs, false)) from hx]
    simp only [hxs, hfault, hbase, hls, if_neg hsize, if_neg hheld', hload, if_neg hroom.not_ge, Bool.false_eq_true, if_false,
      Option.or_none]
    obtain ⟨ht, hq⟩ := hi.found
    have hteams : s3.teams = s.teams :=
      ((State.sameWork_of_fetchHandle hh).trans ((State.sameWork_of_engineRead hblock).trans (State.sameWork_of_engineRead hx))).teams
    obtain ⟨t', q', ht', hq', hfmt'⟩ :=
      State.post_fmt (hteams ▸ ht) hq (.lkoPred m h) (.lkoPred m.toNat) (chunks p bs + 1) []
    exact congrArg Effect.done (State.modSeq_congr ht' hq' (by rw [hfmt']))

/-- Settles O53: instruction by instruction, a pass by the effect that mma and mmt share. The order of a Lookout sequence and the
tiles that must be free are what their checks look at. -/
theorem matrixIssue : Obligations.MatrixIssue := by
  intro s tid t q p hi hp wide freeTile
  have hfree : ∀ c : BitVec 4, freeTile c → q.writesTile wide c.toNat = false := fun c hc => by
    obtain ⟨hc0, hc1, hops⟩ := hc
    exact Sequencer.writesTile_of_free hc0 hc1 hops
  refine ⟨fun m h k ko s1 hd => ?_, fun transposed c m h ru k ko zs s1 hd => ?_, fun c h k ko s1 hd => ?_, fun c h s1 hd => ?_,
    fun h s1 hd l => ?_, fun m h s1 s2 s3 hd bs xs => ?_, fun c m h s1 hd l => ?_⟩
  · exact fun hh hs => exec_mld_of_ready hi hp hh hs
  · intro i kc nb a mapped htile hload hh hs hfmt hscl henc hfit horder hroom
    have heffect := passEffect_of_ready (i := i) (ru := ru) hp hh htile hload hfmt hscl hroom henc hfit
      (Sequencer.lkoPass_of_kept horder)
    cases transposed
    · exact runSeq_done hi heffect (by simpa using hs)
    · exact runSeq_done hi heffect (by simpa using hs)
  · exact fun htile hh hs hfmt hfit hc => exec_mst_of_ready hi hp hh hs htile hfmt hfit (hfree c hc)
  · exact fun htile hh hs hcvt hscl hr hcol hfit hc => exec_mscl_of_ready hi hp hh hs htile hcvt hscl hr hcol hfit (hfree c hc)
  · exact fun hh hs => exec_lkoFetch_of_open hi hp hh hs
  · exact exec_lkoPred_of_ready hi hp rfl rfl
  · exact fun hc hh hs hl hbad hpass hw htile hops hload => exec_lkoChk_of_ready hi hp hh hs hc hl hbad hpass hw htile hops hload

end Sys2Proof.Machine

/-!
PROOFS. The invariant of the device: every instruction and every event keeps it, and so do the turns of a step (O11).
-/

namespace Sys2Proof.Machine

open Sys2Proof

/-- Every arm of `exec` keeps the invariant, each by the lemma of its own meaning. -/
theorem exec_inv (i : Instr) (s : State) (hinv : s.inv = true) : outInv (exec i s) = true := by
  cases i with
  | sadd d a b => exact execSadd_inv d a b s hinv
  | ssub d a b => exact execSsub_inv d a b s hinv
  | smul d a b => exact execSmul_inv d a b s hinv
  | smulhI32 d a b => exact execSmulhI32_inv d a b s hinv
  | smulhN32 d a b => exact execSmulhN32_inv d a b s hinv
  | sand d a b => exact execSand_inv d a b s hinv
  | sor d a b => exact execSor_inv d a b s hinv
  | sxor d a b => exact execSxor_inv d a b s hinv
  | sshl d a b => exact execSshl_inv d a b s hinv
  | sshr d a b => exact execSshr_inv d a b s hinv
  | ssra d a b => exact execSsra_inv d a b s hinv
  | sminI32 d a b => exact execSminI32_inv d a b s hinv
  | sminN32 d a b => exact execSminN32_inv d a b s hinv
  | smaxI32 d a b => exact execSmaxI32_inv d a b s hinv
  | smaxN32 d a b => exact execSmaxN32_inv d a b s hinv
  | smov d a => exact execSmov_inv d a s hinv
  | spopc d a => exact execSpopc_inv d a s hinv
  | sclz d a => exact execSclz_inv d a s hinv
  | sffs d a => exact execSffs_inv d a s hinv
  | scmp c d a b => exact execScmp_inv c d a b s hinv
  | ssel c d a b => exact execSsel_inv c d a b s hinv
  | saddImm d a x => exact execSaddImm_inv d a x s hinv
  | sandImm d a x => exact execSandImm_inv d a x s hinv
  | sorImm d a x => exact execSorImm_inv d a x s hinv
  | sshlImm d a n => exact execSshlImm_inv d a n s hinv
  | sshrImm d a n => exact execSshrImm_inv d a n s hinv
  | ssraImm d a n => exact execSsraImm_inv d a n s hinv
  | sbfx d a sign lsb w => exact execSbfx_inv d a sign lsb w s hinv
  | sbfi d a lsb w => exact execSbfi_inv d a lsb w s hinv
  | sli d x => exact execSli_inv d x s hinv
  | slui d x => exact execSlui_inv d x s hinv
  | sget d n => exact execSget_inv d n s hinv
  | sset a n => exact execSset_inv a n s hinv
  | ckwarn d a => exact execCkwarn_inv d a s hinv
  | setfmt v => exact execSetfmt_inv v s hinv
  | setmode v => exact execSetmode_inv v s hinv
  | br o => exact execBr_inv o s hinv
  | call o => exact execCall_inv o s hinv
  | bc t a o => exact execBc_inv t a o s hinv
  | bdiv a o => exact execBdiv_inv a o s hinv
  | nop => exact execNop_inv s hinv
  | join => exact execJoin_inv s hinv
  | ret => exact execRet_inv s hinv
  | jmpi a => exact execJmpi_inv a s hinv
  | exit => exact execExit_inv s hinv
  | yield => exact execYield_inv s hinv
  | vadd t d a b => exact execVadd_inv t d a b s hinv
  | vsub t d a b => exact execVsub_inv t d a b s hinv
  | vmul t d a b => exact execVmul_inv t d a b s hinv
  | vmulhSigned t d a b => exact execVmulhSigned_inv t d a b s hinv
  | vmulhUnsigned t d a b => exact execVmulhUnsigned_inv t d a b s hinv
  | vmac t d a b => exact execVmac_inv t d a b s hinv
  | vand t d a b => exact execVand_inv t d a b s hinv
  | vor t d a b => exact execVor_inv t d a b s hinv
  | vxor t d a b => exact execVxor_inv t d a b s hinv
  | vnot t d a => exact execVnot_inv t d a s hinv
  | vshl t d a b => exact execVshl_inv t d a b s hinv
  | vshr t d a b => exact execVshr_inv t d a b s hinv
  | vsra t d a b => exact execVsra_inv t d a b s hinv
  | vminSigned t d a b => exact execVminSigned_inv t d a b s hinv
  | vminUnsigned t d a b => exact execVminUnsigned_inv t d a b s hinv
  | vmaxSigned t d a b => exact execVmaxSigned_inv t d a b s hinv
  | vmaxUnsigned t d a b => exact execVmaxUnsigned_inv t d a b s hinv
  | vabs t d a => exact execVabs_inv t d a s hinv
  | vneg t d a => exact execVneg_inv t d a s hinv
  | vpopc t d a => exact execVpopc_inv t d a s hinv
  | vclz t d a => exact execVclz_inv t d a s hinv
  | vmov t d a => exact execVmov_inv t d a s hinv
  | vsel t d a b => exact execVsel_inv t d a b s hinv
  | vcmp wide c z a b => exact execVcmp_inv wide c z a b s hinv
  | vaddImm d a x => exact execVaddImm_inv d a x s hinv
  | vli d x => exact execVli_inv d x s hinv
  | vbfx d a sign lsb w => exact execVbfx_inv d a sign lsb w s hinv
  | vbfi d a lsb w => exact execVbfi_inv d a lsb w s hinv
  | vshlImm d a n => exact execVshlImm_inv d a n s hinv
  | vshrImm d a n => exact execVshrImm_inv d a n s hinv
  | vsraImm d a n => exact execVsraImm_inv d a n s hinv
  | vperm d a b => exact execVperm_inv d a b s hinv
  | vbcast d a n => exact execVbcast_inv d a n s hinv
  | vxshf d a m => exact execVxshf_inv d a m s hinv
  | vred op d a => exact execVred_inv op d a s hinv
  | vscan op excl d a => exact execVscan_inv op excl d a s hinv
  | vballot z a => exact execVballot_inv z a s hinv
  | vvote k z a => exact execVvote_inv k z a s hinv
  | sgetIdLane d => exact execSgetIdLane_inv d s hinv
  | vfadd t d a b => exact execVfadd_inv t d a b s hinv
  | vfsub t d a b => exact execVfsub_inv t d a b s hinv
  | vfmul t d a b => exact execVfmul_inv t d a b s hinv
  | vfma t d a b => exact execVfma_inv t d a b s hinv
  | vfms t d a b => exact execVfms_inv t d a b s hinv
  | vfmin t d a b => exact execVfmin_inv t d a b s hinv
  | vfmax t d a b => exact execVfmax_inv t d a b s hinv
  | vfexp t d a => exact execVfexp_inv t d a s hinv
  | vfscl t d a b => exact execVfscl_inv t d a b s hinv
  | vfclass t d a => exact execVfclass_inv t d a s hinv
  | vf2sum wide d a b => exact execVf2sum_inv wide d a b s hinv
  | vfrnd t d a seed => exact execVfrnd_inv t d a seed s hinv
  | vrcp t d a => exact execVrcp_inv t d a s hinv
  | vrsq t d a => exact execVrsq_inv t d a s hinv
  | vsqrt t d a => exact execVsqrt_inv t d a s hinv
  | vexp2 t d a => exact execVexp2_inv t d a s hinv
  | vlog2 t d a => exact execVlog2_inv t d a s hinv
  | vsin t d a => exact execVsin_inv t d a s hinv
  | vcos t d a => exact execVcos_inv t d a s hinv
  | vtanh t d a => exact execVtanh_inv t d a s hinv
  | vosmx d a b => exact execVosmx_inv d a b s hinv
  | vosms d a => exact execVosms_inv d a s hinv
  | vfcmp t c z a b => exact execVfcmp_inv t c z a b s hinv
  | vfcvt d a df sf sat => exact execVfcvt_inv d a df sf sat s hinv
  | vld d a b o pol z => exact execVld_inv d a b o pol z s hinv
  | vst d a b o pol z => exact execVst_inv d a b o pol z s hinv
  | vldg d a b o pol z => exact execVldg_inv d a b o pol z s hinv
  | vsts d a b o pol z => exact execVsts_inv d a b o pol z s hinv
  | lld d a b z => exact execLld_inv d a b z s hinv
  | lst d a b z => exact execLst_inv d a b z s hinv
  | ald wide d a t => exact execAld_inv wide d a t s hinv
  | ast wide d a t => exact execAst_inv wide d a t s hinv
  | pref a b pol => exact execPref_inv a b pol s hinv
  | fence str scope => exact execFence_inv str scope s hinv
  | cclean a b scope => exact execCclean_inv a b scope s hinv
  | cinval a b scope => exact execCinval_inv a b scope s hinv
  | cpy d ch hd hs scope => exact execCpy_inv d ch hd hs scope s hinv
  | cpwpRead d ch => exact execCpwpRead_inv d ch s hinv
  | cpwpRecv d m => exact execCpwpRecv_inv d m s hinv
  | cpcan ch => exact execCpcan_inv ch s hinv
  | qbind q h scope => exact execQbind_inv q h scope s hinv
  | qclose q => exact execQclose_inv q s hinv
  | cvopen d a view => exact execCvopen_inv d a view s hinv
  | cvclose d t => exact execCvclose_inv d t s hinv
  | cvstat d t => exact execCvstat_inv d t s hinv
  | ssint d a b f => exact execSsint_inv d a b f s hinv
  | ssmerge d a b int keepz c => exact execSsmerge_inv d a b int keepz c s hinv
  | ssscan d a b => exact execSsscan_inv d a b s hinv
  | spx d a => exact execSpx_inv d a s hinv
  | nbbin d a => exact execNbbin_inv d a s hinv
  | nbpairs d a port => exact execNbpairs_inv d a port s hinv
  | nbstat d => exact execNbstat_inv d s hinv
  | emit v e j ns => exact execEmit_inv v e j ns s hinv
  | emitr v e r ns => exact execEmitr_inv v e r ns s hinv
  | rget d w x => exact execRget_inv d w x s hinv
  | rdone d => exact execRdone_inv d s hinv
  | futnew d c => exact execFutnew_inv d c s hinv
  | futreg j e v => exact execFutreg_inv j e v s hinv
  | futres j n f => exact execFutres_inv j n f s hinv
  | futst d j => exact execFutst_inv d j s hinv
  | dget src h => exact execDget_inv src h s hinv
  | barArrive z b => exact execBarArrive_inv z b s hinv
  | barWait z b => exact execBarWait_inv z b s hinv
  | barSync z b => exact execBarSync_inv z b s hinv
  | kli k v => exact execKli_inv k v s hinv
  | kadd k a v => exact execKadd_inv k a v s hinv
  | kbr c a o => exact execKbr_inv c a o s hinv
  | mld m h k ko => exact execMld_inv m h k ko s hinv
  | mrel m => exact execMrel_inv m s hinv
  | mzero c => exact execMzero_inv c s hinv
  | mma c m h ru k ko zs => exact execMma_inv c m h ru k ko zs s hinv
  | mmt c m h ru k ko zs => exact execMmt_inv c m h ru k ko zs s hinv
  | mst c h k ko => exact execMst_inv c h k ko s hinv
  | mscl c h => exact execMscl_inv c h s hinv
  | mchk k => exact execMchk_inv k s hinv
  | mbar b => exact execMbar_inv b s hinv
  | lkoPred m h => exact execLkoPred_inv m h s hinv
  | lkoFetch h => exact execLkoFetch_inv h s hinv
  | lkoChk c m h => exact execLkoChk_inv c m h s hinv
  | trap code => exact execTrap_inv code s hinv
  | rfe d a b => exact execRfe_inv d a b s hinv
  | tlbrng d a b => exact execTlbrng_inv d a b s hinv
  | wsld d a b => exact execWsld_inv d a b s hinv
  | hcall d a b => exact execHcall_inv d a b s hinv
  | clkrd d => exact execClkrd_inv d s hinv
  | vliLit d w => exact execVliLit_inv d w s hinv
  | vfcvtSr d a df sf sat seed => exact execVfcvtSr_inv d a df sf sat seed s hinv
  | vldgPart d a b o pol z m => exact execVldgPart_inv d a b o pol z m s hinv
  | sld d a b z o pol => exact execSld_inv d a b z o pol s hinv
  | sst d a b z o pol => exact execSst_inv d a b z o pol s hinv
  | vatom op ty o d a b => exact execVatom_inv op ty o d a b s hinv
  | vredm op ty o d a b => exact execVredm_inv op ty o d a b s hinv
  | lredm op ty o d a b => exact execLredm_inv op ty o d a b s hinv
  | satom op ty o d a b => exact execSatom_inv op ty o d a b s hinv
  | cpg d ch hd hs scope v => exact execCpg_inv d ch hd hs scope v s hinv
  | cps d ch hd hs scope v => exact execCps_inv d ch hd hs scope v s hinv
  | cpm d ch hs scope m => exact execCpm_inv d ch hs scope m s hinv
  | cpwpWait d ch k => exact execCpwpWait_inv d ch k s hinv
  | cpwpAck m k => exact execCpwpAck_inv m k s hinv
  | cvst d a b o pol z t => exact execCvst_inv d a b o pol z t s hinv
  | cvld d a b o pol z t => exact execCvld_inv d a b o pol z t s hinv
  | kliLiteral k w => exact execKliLiteral_inv k w s hinv
  | clauseIssue w => exact execClauseIssue_inv w s hinv
  | starvationPromote tid p => exact execStarvationPromote_inv tid p s hinv
  | yieldTimeout tid p => exact execYieldTimeout_inv tid p s hinv
  | runAhead tid p => exact execRunAhead_inv tid p s hinv
  | memoryReadResponse tid p id => exact execMemoryReadResponse_inv tid p id s hinv
  | wcbDrainTimeout core line => exact execWcbDrainTimeout_inv core line s hinv
  | walkComplete id => exact execWalkComplete_inv id s hinv
  | tlbrngDone id => exact execTlbrngDone_inv id s hinv
  | migrationBounce id => exact execMigrationBounce_inv id s hinv
  | migrationLineCopy die frame line => exact execMigrationLineCopy_inv die frame line s hinv
  | backgroundScrub pa uncorrectable => exact execBackgroundScrub_inv pa uncorrectable s hinv
  | refreshWindowOpen die => exact execRefreshWindowOpen_inv die s hinv
  | refreshWindowClose die => exact execRefreshWindowClose_inv die s hinv
  | copyDeliver tid ch n => exact execCopyDeliver_inv tid ch n s hinv
  | copyComplete tid ch => exact execCopyComplete_inv tid ch s hinv
  | ssuComplete cluster core => exact execSsuComplete_inv cluster core s hinv
  | nePairGroup cluster => exact execNePairGroup_inv cluster s hinv
  | neComplete cluster => exact execNeComplete_inv cluster s hinv
  | storeStreamDrained tid p port => exact execStoreStreamDrained_inv tid p port s hinv
  | passGrant cluster => exact execPassGrant_inv cluster s hinv
  | passRetire tid id mismatch mismatch2 => exact execPassRetire_inv tid id mismatch mismatch2 s hinv
  | matrixOpRetire tid id => exact execMatrixOpRetire_inv tid id s hinv
  | barrierPhaseComplete b => exact execBarrierPhaseComplete_inv b s hinv
  | runBarrierMessage run part => exact execRunBarrierMessage_inv run part s hinv
  | stalledEmissionAccept id => exact execStalledEmissionAccept_inv id s hinv
  | spillRefill run die node => exact execSpillRefill_inv run die node s hinv
  | gatherWindowExpiry run die node => exact execGatherWindowExpiry_inv run die node s hinv
  | teamPlacement die cores nos => exact execTeamPlacement_inv die cores nos s hinv
  | graphDeadlockDetect run die nodes => exact execGraphDeadlockDetect_inv run die nodes s hinv
  | runSeed run die => exact execRunSeed_inv run die s hinv
  | teamRetire tid => exact execTeamRetire_inv tid s hinv
  | runComplete run => exact execRunComplete_inv run s hinv
  | faultStop tid => exact execFaultStop_inv tid s hinv
  | hangReport tid p => exact execHangReport_inv tid p s hinv
  | clockGate core => exact execClockGate_inv core s hinv
  | powerGate core => exact execPowerGate_inv core s hinv
  | coreWake core => exact execCoreWake_inv core s hinv
  | ladderDrainTimeout q => exact execLadderDrainTimeout_inv q s hinv
  | ladderSaveTimeout q => exact execLadderSaveTimeout_inv q s hinv
  | teamSaveComplete tid => exact execTeamSaveComplete_inv tid s hinv
  | teamResume tid cores => exact execTeamResume_inv tid cores s hinv
  | timeSliceExpiry q => exact execTimeSliceExpiry_inv q s hinv
  | queueMap q slot order => exact execQueueMap_inv q slot order s hinv
  | queueUnmap q => exact execQueueUnmap_inv q s hinv
  | parkedWaitPoll => exact execParkedWaitPoll_inv s hinv
  | wsloadUnsealStart q => exact execWsloadUnsealStart_inv q s hinv
  | wsloadComplete q idx => exact execWsloadComplete_inv q idx s hinv
  | reductionEntryApply die sector => exact execReductionEntryApply_inv die sector s hinv
  | convoyCommit slot => exact execConvoyCommit_inv slot s hinv
  | cvcloseDone tid p => exact execCvcloseDone_inv tid p s hinv
  | remoteRequest r => exact execRemoteRequest_inv r s hinv
  | remoteResponse id r => exact execRemoteResponse_inv id r s hinv
  | fabricRetryBackoff id => exact execFabricRetryBackoff_inv id s hinv
  | fabricTimeout id => exact execFabricTimeout_inv id s hinv
  | atomicRecordExpiry src agent seqno => exact execAtomicRecordExpiry_inv src agent seqno s hinv
  | dlFlitReceive port authentic => exact execDlFlitReceive_inv port authentic s hinv
  | linkTraining port offer => exact execLinkTraining_inv port offer s hinv
  | oldKeyExpiry => exact execOldKeyExpiry_inv s hinv
  | ptpMessage offset => exact execPtpMessage_inv offset s hinv
  | ppsInput offset => exact execPpsInput_inv offset s hinv
  | tbaseLock => exact execTbaseLock_inv s hinv
  | holdoverEntry => exact execHoldoverEntry_inv s hinv
  | throttleUp die reading => exact execThrottleUp_inv die reading s hinv
  | throttleDown die => exact execThrottleDown_inv die s hinv
  | thermalTrip => exact execThermalTrip_inv s hinv
  | coolantFault => exact execCoolantFault_inv s hinv
  | coldReset => exact execColdReset_inv s hinv
  | warmReset => exact execWarmReset_inv s hinv
  | bringupPhaseComplete ok => exact execBringupPhaseComplete_inv ok s hinv
  | functionLevelReset f => exact execFunctionLevelReset_inv f s hinv
  | unitFence u => exact execUnitFence_inv u s hinv
  | doorbell f q v => exact execDoorbell_inv f q v s hinv
  | queueEnable f q => exact execQueueEnable_inv f q s hinv
  | queueDisable f q => exact execQueueDisable_inv f q s hinv
  | queueCtlReset f q => exact execQueueCtlReset_inv f q s hinv
  | queueCtlPreempt f q => exact execQueueCtlPreempt_inv f q s hinv
  | queueCtlResume f q => exact execQueueCtlResume_inv f q s hinv
  | queueInvalidate f q => exact execQueueInvalidate_inv f q s hinv
  | sigdbWrite f va => exact execSigdbWrite_inv f va s hinv
  | flogdropClear f => exact execFlogdropClear_inv f s hinv
  | pwrcapWrite f v => exact execPwrcapWrite_inv f v s hinv
  | mailboxGo f => exact execMailboxGo_inv f s hinv
  | mailboxVerifyDone image version readOk => exact execMailboxVerifyDone_inv image version readOk s hinv
  | registerWrite f r v => exact execRegisterWrite_inv f r v s hinv
  | packetLaunch q => exact execPacketLaunch_inv q s hinv
  | packetWait q => exact execPacketWait_inv q s hinv
  | packetSignal q => exact execPacketSignal_inv q s hinv
  | packetWsload q => exact execPacketWsload_inv q s hinv
  | packetBarrier q => exact execPacketBarrier_inv q s hinv
  | packetPreempt q => exact execPacketPreempt_inv q s hinv
  | packetReset q => exact execPacketReset_inv q s hinv
  | getVersion => exact execGetVersion_inv s hinv
  | getCapabilities => exact execGetCapabilities_inv s hinv
  | negotiateAlgorithms => exact execNegotiateAlgorithms_inv s hinv
  | getDigests => exact execGetDigests_inv s hinv
  | getCertificate => exact execGetCertificate_inv s hinv
  | challenge nonce => exact execChallenge_inv nonce s hinv
  | getMeasurements => exact execGetMeasurements_inv s hinv
  | pldmMonitorRequest w => exact execPldmMonitorRequest_inv w s hinv
  | setRank r => exact execSetRank_inv r s hinv
  | setKey wrapped unwraps => exact execSetKey_inv wrapped unwraps s hinv
  | keySwitch => exact execKeySwitch_inv s hinv
  | zeroise => exact execZeroise_inv s hinv
  | setFto ns => exact execSetFto_inv ns s hinv
  | setCap v => exact execSetCap_inv v s hinv
  | mgmtReset => exact execMgmtReset_inv s hinv
  | migrationTableEntry die oldFrame size newFrame rank => exact execMigrationTableEntry_inv die oldFrame size newFrame rank s hinv
  | migrationEntryRemoval die oldFrame => exact execMigrationEntryRemoval_inv die oldFrame s hinv
  | wsldComplete id => exact execWsldComplete_inv id s hinv
  | queueResetComplete q => exact execQueueResetComplete_inv q s hinv
  | portGoesDown port => exact execPortGoesDown_inv port s hinv
  | configurationRequest f => exact execConfigurationRequest_inv f s hinv

theorem issue_inv (w : Who) (s : State) (h : s.inv = true) : outInv (issue w s) = true :=
  issueBy_inv exec w s h exec_inv

theorem event_inv (e : Instr) (s : State) (h : s.inv = true) : outInv (event e s) = true := by
  have he := exec_inv e s h
  unfold event
  split
  case h_1 s' hs =>
    rw [hs] at he
    rw [outInv_next]
    split
    · exact State.undo_inv _ _ _ _ h he
    · exact he
  case h_2 => rfl
  case h_3 => rfl

theorem act_inv (a : Act) (s : State) (h : s.inv = true) : outInv (act a s) = true := by
  have turn (w : Who) : outInv (s.issueTurn issue w) = true := State.issueTurn_inv _ _ _ h issue_inv
  unfold act
  split
  · split
    · exact h
    · exact turn _
  · split
    · exact event_inv _ _ h
    · rfl
  · exact turn _
  · exact State.trackCycle_inv _ _ _ _ h issue_inv
  · exact State.runAhead_inv _ _ _ _ _ h
  · exact State.wake_inv _ _ _ _ h
  · exact State.rouse_inv _ _ _ h

theorem step_inv (s : State) (h : s.inv = true) : outInv (step s) = true := by
  have next : s.upkeep.cycle.inv = true := State.cycle_inv _ (State.upkeep_inv _ h)
  unfold step
  split
  · exact act_inv _ _ (State.pass_inv _ _ _ (State.upkeep_inv _ h))
  · split
    · exact next
    · exact State.issueTurn_inv _ _ _ next issue_inv

/-- Settles O11: the turn of the step keeps the invariant, whether it is the agenda's or the current issuer's. -/
theorem stepInv : Obligations.StepInv := fun s t h ht => by
  have := step_inv s h
  rwa [ht, outInv_next] at this

/-- Settles O10. -/
theorem resetInv : Obligations.ResetInv := by
  unfold Obligations.ResetInv
  decide

end Sys2Proof.Machine

/-!
PROOFS. Control flow of one word (O18), the choice of a track (O8) and what a cold reset leaves (O9).
-/

namespace Sys2Proof.Machine

open Sys2Proof

/-! ## Branches (R371 to R373, R375, R377) -/

section

variable {i : Instr} {s s' : State} {w : Issuer} {t : Team} {q : Party}

/-- An instruction without vector sources whose effect is flow of its own leaves that effect alone. -/
theorem runParty_flow_of_issues (h : Issues i s w t q s') (hr : (operands i).reads = []) (f : Bool → Party → Party) :
    (runParty i s fun w s => .flow (s.modParty w.tid w.p (f w.sl))) = .next (s'.modParty w.tid w.p (f w.sl)) := by
  rw [runParty_of_issues h, Effect.unstuck_flow (show (s'.modParty w.tid w.p (f w.sl)).stuck = false from h.calm),
    ended_of_no_reads hr]
  rfl

end

theorem Slot.jump_eq_at (x : Slot) (pc : Word) : x.jump pc = x.at_ pc := rfl

/-- The conditions of bc are comparisons of the signed value with zero (R373). -/
theorem bTest_iff (t : BTest) (x : Word) : bTest t x =
    match t with
    | .z => decide (x.toInt = 0)
    | .nz => decide (x.toInt ≠ 0)
    | .lt => decide (x.toInt < 0)
    | .ge => decide (0 ≤ x.toInt)
    | .gt => decide (0 < x.toInt)
    | .le => decide (x.toInt ≤ 0) := by
  have zero : x = 0 ↔ x.toInt = 0 := by rw [← BitVec.toInt_inj]; rfl
  have below : x.slt 0 = decide (x.toInt < 0) := rfl
  have above : (0 : Word).slt x = decide (0 < x.toInt) := rfl
  cases t with
  | z => exact decide_eq_decide.2 zero
  | nz => exact (decide_not (p := x = 0)).symm.trans (decide_eq_decide.2 (not_congr zero))
  | lt => exact below
  | ge => rw [bTest, below, ← decide_not, decide_eq_decide, Int.not_lt]
  | gt => exact above
  | le => rw [bTest, above, ← decide_not, decide_eq_decide, Int.not_lt]

/-- Settles O18: each of them is its change of the slot, with lnk written first by call. -/
theorem branches : Obligations.Branches := by
  refine ⟨fun o s w t q s' h => ?br, fun o s w t q s' h => ?call, fun c a o s w t q s' h => ?bc, fun s w t q s' h => ?ret,
    fun a s w t q s' h => ?jmpi, fun s w t q s' h => runRegs_of_issues h fun _ q => q,
    fun s w t q s' h => runRegs_of_issues h fun _ q => { q with yielded := true }⟩
  case br =>
    rw [exec_br, execBr, runParty_flow_of_issues h rfl fun sl q => q.jump sl ((q.slot sl).target o)]
    congr 2; funext q
    rw [Slot.target_eq]; rfl
  case call =>
    rw [exec_call, execCall, runParty_flow_of_issues h rfl fun sl q =>
      (q.setS sl 60 ((q.slot sl).nextClause 1)).jump sl ((q.slot sl).target o)]
    congr 2; funext q
    rw [Slot.target_eq, Slot.nextClause_one]
    cases w.sl <;> rfl
  case bc =>
    rw [exec_bc, execBc, runParty_flow_of_issues h rfl fun sl q =>
      q.jump sl (if bTest c (q.getS sl a.toNat) then (q.slot sl).target o else (q.slot sl).nextClause 1)]
    congr 2; funext q
    rw [Slot.target_eq, Slot.nextClause_one, bTest_iff]
    rfl
  case ret => exact runParty_flow_of_issues h rfl fun sl q => q.jump sl (q.getS sl 60)
  case jmpi => exact runParty_flow_of_issues h rfl fun sl q => q.jump sl (q.getS sl a.toNat)

/-! ## The choice of a track (R388, R389) -/

namespace Contender

variable {a b c : Contender}

/-- The order of R389, part by part. -/
theorem before_iff : a.before b = true ↔
    a.starved.toNat > b.starved.toNat ∨ a.starved.toNat = b.starved.toNat ∧ (a.prio > b.prio ∨ a.prio = b.prio ∧
      (a.stamp < b.stamp ∨ a.stamp = b.stamp ∧ a.p < b.p)) := by
  unfold Contender.before
  by_cases hstarved : a.starved = b.starved
  · by_cases hprio : a.prio = b.prio
    · by_cases hstamp : a.stamp = b.stamp
      · simp [hstarved, hprio, hstamp]
      · simp [hstarved, hprio, hstamp]
    · simp [hstarved, hprio]
  · cases ha : a.starved with
    | true => simp [show b.starved = false by simpa [ha] using hstarved]
    | false => simp [show b.starved = true by simpa [ha] using hstarved]

theorem before_trans (h : a.before b = true) (h' : b.before c = true) : a.before c = true := by
  rw [before_iff] at *; omega

theorem not_before_trans (h : a.before b = false) (h' : b.before c = false) : a.before c = false := by
  rw [← Bool.not_eq_true, before_iff] at *; omega

theorem not_before_self : a.before a = false := by
  rw [← Bool.not_eq_true, before_iff]; omega

end Contender

theorem firstOf_mem (c : Contender) (rest : List Contender) : firstOf c rest ∈ c :: rest := by
  induction rest generalizing c with
  | nil => exact List.mem_cons_self
  | cons b t ih =>
    have := ih (if b.before c then b else c)
    show firstOf (if b.before c then b else c) t ∈ c :: b :: t
    split at this <;> grind

theorem not_before_firstOf (c : Contender) (rest : List Contender) : ∀ x ∈ c :: rest, x.before (firstOf c rest) = false := by
  induction rest generalizing c with
  | nil =>
    intro x hx
    obtain rfl := List.mem_singleton.1 hx
    exact Contender.not_before_self
  | cons b t ih =>
    show ∀ x ∈ c :: b :: t, x.before (firstOf (if b.before c then b else c) t) = false
    have ih := ih (if b.before c then b else c)
    generalize firstOf (if b.before c then b else c) t = r at ih
    have hr := ih _ List.mem_cons_self
    have hb : b.before r = false ∧ c.before r = false := by
      split at hr
      next hbc =>
        refine ⟨hr, ?_⟩
        rw [← Bool.not_eq_true] at hr ⊢
        exact fun hc => hr (Contender.before_trans hbc hc)
      next hbc => exact ⟨Contender.not_before_trans (by simpa using hbc) hr, hr⟩
    intro x hx
    rcases List.mem_cons.1 hx with rfl | hx
    · exact hb.2
    · rcases List.mem_cons.1 hx with rfl | hx
      · exact hb.1
      · exact ih x (List.mem_cons_of_mem _ hx)

/-- Counting starvation changes teams alone. -/
theorem sameOutsideTeams_foldl_modParty (f : Party → Party) (xs : List Contender) (s : State) :
    s.sameOutsideTeams (xs.foldl (fun s x => s.modParty x.tid x.p f) s) := by
  have : ∃ ts, xs.foldl (fun s x => s.modParty x.tid x.p f) s = { s with teams := ts } := by
    induction xs generalizing s with
    | nil => exact ⟨_, rfl⟩
    | cons x t ih => exact (ih (s.modParty x.tid x.p f)).imp fun ts h => h
  obtain ⟨ts, h⟩ := this
  rw [h]
  rfl

/-- Settles O8: the first in a fold over the contenders is one of them, and none of them precedes it. -/
theorem trackIssuesFirstContender : Obligations.TrackIssuesFirstContender := by
  intro s run core track h
  obtain ⟨c, rest, hc⟩ := List.exists_cons_of_ne_nil h
  refine ⟨firstOf c rest, hc ▸ firstOf_mem c rest, fun x hx => not_before_firstOf c rest x (hc ▸ hx), _,
    sameOutsideTeams_foldl_modParty (fun q => { q with starve := q.starve + 1 }) ((c :: rest).filter fun x => x != firstOf c rest) s,
    ?_⟩
  unfold State.trackCycle
  simp only [hc]

/-- Settles O9. -/
theorem resetValues : Obligations.ResetValues :=
  ⟨fun _ _ => rfl, rfl, rfl, rfl, rfl, rfl, fun _ => rfl, rfl, rfl, rfl, fun _ => rfl⟩

end Sys2Proof.Machine

/-!
PROOFS. Words of the chapters (O4), trap (O48) and the record of a fault (O49).
-/

namespace Sys2Proof.Machine

open Sys2Proof

/-- Settles O4: the decoder evaluated on each word. -/
theorem wordsDecode : Obligations.WordsDecode := by
  unfold Obligations.WordsDecode
  decide +kernel

/-! ## trap (R408) -/

/-- The fields of a word of trap: the destination is to be zero. -/
theorem decodeFields_trapWord (sd : BitVec 6) (code : BitVec 12) (ls : List Word) :
    decodeFields (0x3F#6 ++ sd ++ code ++ 0#8) ls = do
      need (sd == 0) .nonzeroField
      return .trap code := by
  rw [decodeFields_0x3F _ _ (by simp (disch := decide) only [fld, extract_append_high, extract_all, Nat.reduceSub])]
  unfold decSystem
  simp (disch := decide) only [fld, extract_append_high, extract_append_low, extract_all, Nat.reduceSub]
  rfl

/-- Settles O48: the word is read field by field, and the fault is the instruction's effect. -/
theorem trap : Obligations.Trap := by
  refine ⟨fun code ls => ?_, fun sd code ls hsd => ?_, fun code s w t q h => ?_⟩
  · unfold decode
    rw [decodeFields_trapWord]
    rfl
  · refine ⟨.nonzeroField, ?_⟩
    have : (sd == 0) = false := by simpa using hsd
    unfold decode
    rw [decodeFields_trapWord, this]
    rfl
  · have hcode : code.setWidth 32 = BitVec.ofNat 32 code.toNat := (BitVec.ofNat_toNat 32 code).symm
    rw [exec_trap, execTrap, runParty_of_issues h.issues, Effect.unstuck_fault h.calm, h.ended, hcode]
    rfl

/-! ## The record of a fault (R357, R396 to R402) -/

/-- A fault of a team fails the PENDING slots that the team owns. -/
theorem JoinSlot.failOf_eq (tid : Nat) (j : JoinSlot) : (if j.ownerTid = tid then j.fail else j) =
    if j.ownerTid = tid ∧ j.state = .pending then { j with state := .faulted, conts := [] } else j := by
  unfold JoinSlot.fail
  cases hj : j.state <;> simp

/-- A team that takes a fault: the first is recorded and stops it, a later one is counted. -/
def Team.faultedBy (t : Team) (s : State) (o : Origin) (c : Cause) (deferred engine : Bool) (w : Wait) : Team :=
  match t.fault with
  | some r => { t with fault := some { r with supp := if r.supp < 255 then r.supp + 1 else 255 } }
  | none =>
    { t with
      state := .stopping
      fault := some
        { cause := c.cause, sub := c.sub, deferred := deferred, engine := engine, origin := o, lane := c.lane,
          addr := c.addr, info := c.info, waitOn := w.code.1, waitX := w.code.2, stamp := s.tbase >>> 8, supp := 0 } }

section

variable {s : State} {tid : Nat} {t : Team}

/-- A fault of a resident team touches the team and the join slots that it owns. -/
theorem State.takeFault_of_team (ht : Map.find s.teams tid = some t) (o : Origin) (c : Cause) (deferred engine : Bool)
    (w : Wait) : s.takeFault tid o c deferred engine w = { s with
      joins := Map.mapVals s.joins fun _ j => if j.ownerTid = tid then j.fail else j
      teams := Map.update s.teams tid fun t => t.faultedBy s o c deferred engine w } := by
  unfold State.takeFault
  rw [ht]
  rfl

end

/-- Settles O49: what the fault leaves of the teams, and of the join slots. -/
theorem faultsAreRecorded : Obligations.FaultsAreRecorded := by
  intro s tid o c deferred engine w t ht
  rw [State.takeFault_of_team ht]
  have hteam : Map.find (Map.update s.teams tid fun t => t.faultedBy s o c deferred engine w) tid =
      some (t.faultedBy s o c deferred engine w) := by rw [Map.find_update_self, ht, Option.map_some]
  refine ⟨rfl, fun k hk => (Map.find_update s.teams tid k _).trans (if_neg hk), fun k => ?_, fun hf => ?_, fun f hf => ?_⟩
  · dsimp only
    simp only [Map.find_mapVals, JoinSlot.failOf_eq]
  · dsimp only
    rw [hteam, Team.faultedBy, hf]
    have hstamp : (s.tbase >>> 8).toNat = s.tbase.toNat / 256 := by
      rw [BitVec.toNat_ushiftRight, Nat.shiftRight_eq_div_pow]
    exact ⟨_, rfl, rfl, rfl, rfl, rfl, rfl, rfl, rfl, rfl, rfl, hstamp, rfl⟩
  · dsimp only
    rw [hteam, Team.faultedBy, hf]

end Sys2Proof.Machine

/-!
PROOFS. exit (O21): the lanes leave, and the paths that they empty unwind.
-/

namespace Sys2Proof.Machine

open Sys2Proof

/-! ## What path_emptied does to a party (R149) -/

/-- Unwinding a slot leaves the other slot alone, whatever rounds it is given. -/
theorem Party.slot_unwind_other (q : Party) (sl ending : Bool) (n : Nat) : (q.unwind sl ending n).slot (!sl) = q.slot (!sl) := by
  induction n generalizing q ending with
  | zero => rfl
  | succ n ih =>
    have set (r : Party) (x : Slot) : (r.setSlot sl x).slot (!sl) = r.slot (!sl) := Party.slot_setSlot_other ..
    unfold Party.unwind
    split
    · split
      · split
        · dsimp only
          split
          · exact (ih ..).trans (set ..)
          · exact set ..
        · exact set ..
      · exact set ..
    · split
      · exact ih ..
      · split
        · exact ih ..
        · split
          · exact ih ..
          · dsimp only
            split
            · exact (ih ..).trans (set ..)
            · exact set ..

/-- With nothing on the stack the path ends, and its slot is idle. -/
theorem Party.pathEmptied_of_no_stack {q : Party} (h : q.stack = []) (sl : Bool) : q.pathEmptied sl = q.setSlot sl Slot.idle := by
  simp only [Party.pathEmptied, Party.rounds, h]
  cases hf : (q.slot sl).frame <;> simp [Party.unwind, hf, h]

/-! ## The lanes that leave (R376) -/

section

variable (q : Party) (sl : Bool) (m : Mask)

/-- The party whose lanes `m` have left, before the paths that they emptied unwind. -/
def Party.left : Party :=
  { (q.modSlot (!sl) fun y => { y with mask := y.mask &&& ~~~m }).modSlot sl (fun y => { y with mask := 0 }) with
    live := q.live &&& ~~~m }

/-- The other path goes on, or there is none: it is idle, or had no lane, or keeps one. -/
def Party.othersGoOn : Prop :=
  (q.slot (!sl)).live = false ∨ (q.slot (!sl)).mask = 0 ∨ (q.slot (!sl)).mask &&& ~~~m ≠ 0

theorem Party.leave_eq : q.leave sl m =
    if (q.slot (!sl)).live && (q.slot (!sl)).mask != 0 && ((q.slot (!sl)).mask &&& ~~~m) == 0 then
      ((q.left sl m).pathEmptied sl).pathEmptied (!sl)
    else (q.left sl m).pathEmptied sl := by
  cases sl <;> rfl

variable {q sl m}

theorem Party.leave_of_others (h : q.othersGoOn sl m) : q.leave sl m = (q.left sl m).pathEmptied sl := by
  rw [Party.leave_eq]
  refine if_neg fun hc => ?_
  simp only [Bool.and_eq_true, bne_iff_ne, beq_iff_eq] at hc
  obtain ⟨⟨hlive, hmask⟩, hgone⟩ := hc
  rcases h with h | h | h
  · exact Bool.false_ne_true (h.symm.trans hlive)
  · exact hmask h
  · exact h hgone

theorem Party.leave_of_emptied (hlive : (q.slot (!sl)).live = true) (hmask : (q.slot (!sl)).mask ≠ 0)
    (hgone : (q.slot (!sl)).mask &&& ~~~m = 0) : q.leave sl m = ((q.left sl m).pathEmptied sl).pathEmptied (!sl) := by
  rw [Party.leave_eq]
  refine if_pos ?_
  simp only [Bool.and_eq_true, bne_iff_ne, beq_iff_eq]
  exact ⟨⟨hlive, hmask⟩, hgone⟩

variable (q sl m)

/-- Leaving changes the live set and the paths alone. -/
theorem Party.sameBesidePaths_leave : (q.left sl m).SameBesidePaths (q.leave sl m) := by
  have once := (Party.SameBesidePaths.refl (q.left sl m)).unwind sl false (q.left sl m).rounds
  rw [Party.leave_eq]
  split
  · exact once.unwind _ _ _
  · exact once

theorem Party.live_leave : (q.leave sl m).live = q.live &&& ~~~m :=
  congrArg Party.live (q.sameBesidePaths_leave sl m)

theorem Party.leave_frame :
    ({ q.leave sl m with live := q.live, slot0 := q.slot0, slot1 := q.slot1, stack := q.stack, nextAge := q.nextAge } : Party) = q := by
  have h := congrArg (fun r : Party => ({ r with
    live := q.live, slot0 := q.slot0, slot1 := q.slot1, stack := q.stack, nextAge := q.nextAge } : Party)) (q.sameBesidePaths_leave sl m)
  exact h.trans (by cases sl <;> rfl)

variable {q}

theorem Party.leave_of_no_stack (h : q.stack = []) : (q.leave sl m).slot sl = Slot.idle ∧ (q.leave sl m).stack = [] := by
  have hl : (q.left sl m).stack = [] := by cases sl <;> exact h
  have hs : ((q.left sl m).setSlot sl Slot.idle).stack = [] := by cases sl <;> exact h
  rw [Party.leave_eq, Party.pathEmptied_of_no_stack hl, Party.pathEmptied_of_no_stack hs]
  cases sl
  all_goals
    split
    · exact ⟨rfl, h⟩
    · exact ⟨rfl, h⟩

theorem Party.slot_leave_other {sl : Bool} {m : Mask} (h : q.othersGoOn sl m) :
    (q.leave sl m).slot (!sl) = { q.slot (!sl) with mask := (q.slot (!sl)).mask &&& ~~~m } := by
  rw [Party.leave_of_others h]
  refine (Party.slot_unwind_other ..).trans ?_
  cases sl <;> rfl

end

/-! ## exit -/

section

variable {s s1 : State} {w : Issuer} {t : Team} {q : Party} {n : Node}

/-- The records that retire with the lanes of an exit: those of the lanes themselves, in a node of RMODE 0 (R355). -/
def goesWith (n : Node) (m : Mask) (d : Delivered) : Bool :=
  n.rmode == 0 && match d.lane with | some l => inMask m l | none => false

/-- What exit leaves once its release is complete, before a convoy that it leaves open. -/
def exited (s1 : State) (w : Issuer) (q : Party) (n : Node) : State :=
  let m := q.active w.sl
  let o := originOf w q Instr.exit.word
  let x := (q.slot (!w.sl)).wait
  ((s1.modParty w.tid w.p fun q => q.leave w.sl m).retireParty w.tid w.p o x (goesWith n m)).1.retireFinished w.tid w.p o x

/-- What exit does where its release is complete: the lanes leave, and a convoy that the last of them leaves open aborts. -/
theorem exec_exit_of_released (h : IssuesPlain .exit s w t q) (hn : s.node? t = some n)
    (hrel : s.retireRelease t.core w.tid w.p q (q.records.filter fun d =>
      !d.retired && ((q.leave w.sl (q.active w.sl)).finished || goesWith n (q.active w.sl) d)) = (s1, none)) :
    exec .exit s = .next (finish .exit s w q (Effect.unstuck
      (if q.live ≠ 0 ∧ q.live &&& ~~~q.active w.sl = 0 then
        match (exited s1 w q n).openConvoy w.tid with
        | some c => .flow (((exited s1 w q n).abortConvoy c.cid c.ver).takeFault w.tid (originOf w q Instr.exit.word)
            { cause := 0x10, sub := 5, info := c.cid.setWidth 32 } false false (q.slot (!w.sl)).wait)
        | none => .flow (exited s1 w q n)
      else .flow (exited s1 w q n)) s w.who (originOf w q Instr.exit.word))) := by
  rw [exec_exit, execExit, runTeam_of_plain h]
  simp only [hn]
  refine congrArg (fun e : Effect => Host.Outcome.next (finish .exit s w q (e.unstuck s w.who (originOf w q Instr.exit.word)))) ?_
  split
  case h_1 he => exact nomatch (Prod.mk.inj (he.symm.trans hrel)).2
  case h_2 he =>
    obtain rfl := (Prod.mk.inj (he.symm.trans hrel)).1
    rfl

end

/-- Settles O21: the change of the party is that of the lanes that leave; no convoy, or the open one, is left behind. -/
theorem exits : Obligations.Exits := by
  intro sl
  refine ⟨fun m q => q.leave sl m, fun m q => ⟨q.live_leave sl m, q.leave_frame sl m, Party.leave_of_no_stack sl m,
    Party.slot_leave_other, fun n r hn hr => ⟨fun ho => ?_, fun hlive hmask hgone k r2 hk hr2 => ?_⟩⟩, ?_⟩
  · exact (Party.leave_of_others ho).trans (Party.unwind_of_unwindsIn hr hn)
  · have hr : (q.left sl m).pathEmptied sl = r := Party.unwind_of_unwindsIn hr hn
    refine (Party.leave_of_emptied hlive hmask hgone).trans ?_
    rw [hr]
    exact Party.unwind_of_unwindsIn hr2 hk
  · rintro s w t q n s1 rfl h hn m o x gone hrel r
    have hx := exec_exit_of_released h hn hrel
    constructor
    · intro hno hr
      have hr : (exited s1 w q n).stuck = false := hr
      rcases hno with h0 | h0 | h0
      · rw [if_neg fun hc => hc.1 h0, Effect.unstuck_flow hr] at hx
        exact hx
      · rw [if_neg fun hc => h0 hc.2, Effect.unstuck_flow hr] at hx
        exact hx
      · rw [show (exited s1 w q n).openConvoy w.tid = none from h0, ite_self, Effect.unstuck_flow hr] at hx
        exact hx
    · intro c hlive hlast hc f hf
      rw [if_pos ⟨hlive, hlast⟩, show (exited s1 w q n).openConvoy w.tid = some c from hc] at hx
      exact hx.trans (congrArg (fun e : Effect => Host.Outcome.next (finish .exit s w q e)) (Effect.unstuck_flow hf))

end Sys2Proof.Machine

/-!
PROOFS. What a release leaves alone, and the barrier instructions (O46).
-/

namespace Sys2Proof.Machine

open Sys2Proof

/-! ## What draining and applying leave alone -/

/-- Beside memory, the buffers before it, the lines of convoys and the answers to peers, everything is as it was: teams, runs,
barriers, tables and time. -/
def State.sameBesideMemory (s t : State) : Prop :=
  ({ t with
    mem := s.mem, poison := s.poison, wcb := s.wcb, heldStores := s.heldStores, reductions := s.reductions, sent := s.sent,
    migrations := s.migrations, cvLines := s.cvLines, cvSlots := s.cvSlots, stamped := s.stamped } : State) = s

namespace State.sameBesideMemory

theorem refl (s : State) : s.sameBesideMemory s := rfl

theorem trans {s t u : State} (h : s.sameBesideMemory t) (h' : t.sameBesideMemory u) : s.sameBesideMemory u :=
  (congrArg (fun x : State => ({ x with
    mem := s.mem, poison := s.poison, wcb := s.wcb, heldStores := s.heldStores, reductions := s.reductions, sent := s.sent,
    migrations := s.migrations, cvLines := s.cvLines, cvSlots := s.cvSlots, stamped := s.stamped } : State)) h').trans h

theorem foldl {α : Type} {f : State → α → State} (h : ∀ (s : State) x, s.sameBesideMemory (f s x)) (l : List α) (s : State) :
    s.sameBesideMemory (l.foldl f s) := by
  induction l generalizing s with
  | nil => exact refl s
  | cons a l ih => exact (h s a).trans (ih _)

variable (s : State)

theorem applyReductions (sel : RedEntry → Bool) : s.sameBesideMemory (s.applyReductions sel) :=
  (foldl (f := fun s (e : RedEntry) => e.apply s) (fun _ _ => rfl) (s.reductions.filter sel) s).trans rfl

theorem reach (a n : Nat) : s.sameBesideMemory (s.reach a n) := by
  unfold State.reach
  split
  · exact refl s
  · exact applyReductions s _

theorem copyLine (m : Migration) (line : Nat) : s.sameBesideMemory (s.copyLine m line) := by
  unfold State.copyLine
  split
  · exact refl s
  · rfl

theorem settle (a : Nat) : s.sameBesideMemory (s.settle a).1 := by
  unfold State.settle
  split
  · exact refl s
  · exact copyLine s _ _

theorem pokeLine (l : Nat) (m : Map Byte) : s.sameBesideMemory (s.pokeLine l m) := by
  have hs := settle s (64 * l)
  unfold State.pokeLine
  generalize s.settle (64 * l) = x at hs
  obtain ⟨x, r, b⟩ := x
  have hr := hs.trans (reach x b 64)
  dsimp only
  split
  · exact hr
  · split
    · exact hr
    · split
      · exact hr.trans rfl
      · exact hr.trans rfl

theorem drainEntry (c : Nat) (e : WcbEntry) : s.sameBesideMemory (s.drainEntry c e) := by
  unfold State.drainEntry
  dsimp only
  split
  · exact pokeLine s _ _
  · rfl

theorem drain (c : Nat) (f : WcbEntry → Bool) : s.sameBesideMemory (s.drain c f) := by
  unfold State.drain
  dsimp only
  split
  · have set : s.sameBesideMemory (s.setWcb c ((s.wcbOf c).filter fun e => !f e)) := rfl
    exact set.trans (foldl (fun s e => drainEntry s c e) _ _)
  · exact refl s

/-- A release drains and applies. -/
theorem release (c tid p : Nat) (q : Party) (x : Scope) : s.sameBesideMemory (s.release c tid p q x).1 := by
  unfold State.release
  dsimp only
  split
  · exact refl s
  · split
    · exact (applyReductions s _).trans (drain _ _ _)
    · exact applyReductions s _

variable {s} {t : State}

theorem teams (h : s.sameBesideMemory t) : t.teams = s.teams := by
  unfold State.sameBesideMemory at h
  have := congrArg State.teams h
  exact this

theorem runs (h : s.sameBesideMemory t) : t.runs = s.runs := by
  unfold State.sameBesideMemory at h
  have := congrArg State.runs h
  exact this

theorem clBarriers (h : s.sameBesideMemory t) : t.clBarriers = s.clBarriers := by
  unfold State.sameBesideMemory at h
  have := congrArg State.clBarriers h
  exact this


theorem rank (h : s.sameBesideMemory t) : t.rank = s.rank := by
  unfold State.sameBesideMemory at h
  have := congrArg State.rank h
  exact this

theorem site (h : s.sameBesideMemory t) (w : Issuer) : t.site w = s.site w := by
  unfold State.site
  rw [h.teams]

theorem barrier (h : s.sameBesideMemory t) (r : BarRef) : t.barrier r = s.barrier r := by
  unfold State.barrier
  rw [h.teams, h.runs, h.clBarriers]

end State.sameBesideMemory

/-! ## Barriers -/

section

variable {s : State} {w : Issuer} {t : Team} {q : Party}

/-- A barrier's entry in a team changes nothing else of the team. -/
theorem State.find_setBarrier_teams {tid : Nat} (ht : Map.find s.teams tid = some t) (r : BarRef) (x : Barrier) :
    ∃ bs, Map.find (s.setBarrier r x).teams tid = some { t with barriers := bs } := by
  cases r with
  | team k b =>
    refine (Map.find_update s.teams k tid _) ▸ ?_
    rw [ht]
    split
    · exact ⟨_, rfl⟩
    · exact ⟨_, rfl⟩
  | cluster c b => exact ⟨_, ht⟩
  | run n b => exact ⟨_, ht⟩

/-- Noting arrivals leaves a barrier in its phase. -/
theorem State.phase_setBarrier (r : BarRef) (as : List Arrival) :
    ((s.setBarrier r { s.barrier r with arrived := as }).barrier r).phase = (s.barrier r).phase := by
  cases r with
  | team k b =>
    simp only [State.setBarrier, State.modTeam, State.barrier, Map.find_update_self]
    cases Map.find s.teams k <;> simp
  | cluster c b => simp [State.setBarrier, State.barrier]
  | run n b =>
    simp only [State.setBarrier, State.modRun, State.barrier, Map.find_update_self]
    cases Map.find s.runs n <;> simp

/-- What changes a party changes no barrier. -/
theorem State.barrier_modParty (tid p : Nat) (f : Party → Party) (r : BarRef) :
    (s.modParty tid p f).barrier r = s.barrier r := by
  cases r with
  | team k b =>
    simp only [State.barrier, State.modParty_teams, Map.find_update]
    by_cases hk : k = tid
    · rw [if_pos hk]
      cases Map.find s.teams k <;> rfl
    · rw [if_neg hk]
  | cluster c b => rfl
  | run n b => rfl

variable {c : BarScope} {b : BitVec 4} {r : BarRef} {next : State → Nat → Effect}

/-- An arrival that counts no second time in its phase: the release is made, and the party has arrived. -/
theorem arriveEffect_of_met (hr : barOf t w.tid c b.toNat = some r) (hh : (s.barrier r).has w.tid w.p = false) :
    let s1 := (s.release t.core w.tid w.p q (relScope c)).1
    arriveEffect c b.toNat w t q s next = next (hasArrived s1 w q c b r) (s1.barrier r).phase := by
  unfold arriveEffect
  simp only [hr, hh]
  rfl

theorem hasArrived_stuck (s : State) (w : Issuer) (q : Party) (c : BarScope) (b : BitVec 4) (r : BarRef) :
    (hasArrived s w q c b r).stuck = s.stuck := by
  rw [hasArrived, State.modParty_stuck, State.setBarrier_stuck]

/-- Where it has arrived, the party notes the phase, which is still open, and its team meets the same barriers. -/
theorem site_hasArrived (hs : s.site w = some (t, q)) (c : BarScope) (b : BitVec 4) (r : BarRef) :
    ∃ bs ps, (hasArrived s w q c b r).site w =
      some ({ t with barriers := bs, parties := ps }, { q with arrivals := Map.set q.arrivals (barKey c b) (s.barrier r).phase }) := by
  obtain ⟨ht, hq⟩ := State.site_eq_some hs
  obtain ⟨bs, hbs⟩ := State.find_setBarrier_teams ht r { s.barrier r with
    arrived := (s.barrier r).arrived ++
      [{ tid := w.tid, who := w.p, fmt := (q.slot w.sl).fmt, mode := (q.slot w.sl).mode,
         awaits := q.accesses.map Access.id ++ q.remote, streams := q.owedStreams }] }
  refine ⟨bs, Map.update t.parties w.p fun q => { q with arrivals := Map.set q.arrivals (barKey c b) (s.barrier r).phase }, ?_⟩
  simp only [State.site, hasArrived, State.modParty_teams, Map.find_update_self, hbs, Option.map_some, Team.modParty, hq]

theorem phase_hasArrived (w : Issuer) (q : Party) (c : BarScope) (b : BitVec 4) :
    ((hasArrived s w q c b r).barrier r).phase = (s.barrier r).phase := by
  rw [hasArrived, State.barrier_modParty, State.phase_setBarrier]

theorem waitEffect_of_none (h : barOf t w.tid c b.toNat = none ∨ q.awaited w.sl (barKey c b) = none) :
    waitEffect c b.toNat w t q s = .done s := by
  unfold waitEffect
  split
  case h_1 hr hp => exact absurd h (by simp [hr, show q.awaited w.sl (barKey c b) = _ from hp])
  case h_2 => rfl

variable {ph : Nat}

theorem waitEffect_of_complete (hr : barOf t w.tid c b.toNat = some r) (hp : q.awaited w.sl (barKey c b) = some ph)
    (h : ph < (s.barrier r).phase) : waitEffect c b.toNat w t q s = .done s := by
  unfold waitEffect
  simp only [hr, show q.awaited w.sl (16 * Sys2Proof.Machine.BarScope.code c + b.toNat) = some ph from hp, if_pos h]

theorem waitEffect_of_open (hr : barOf t w.tid c b.toNat = some r) (hp : q.awaited w.sl (barKey c b) = some ph)
    (h : (s.barrier r).phase ≤ ph) : waitEffect c b.toNat w t q s =
      .wait (s.modParty w.tid w.p fun q => q.modSlot w.sl fun x => { x with barWait := some (barKey c b, ph) })
        (.barrier (Sys2Proof.Machine.BarScope.code c) b.toNat ph) := by
  unfold waitEffect
  simp only [hr, show q.awaited w.sl (16 * Sys2Proof.Machine.BarScope.code c + b.toNat) = some ph from hp, if_neg (Nat.not_lt.2 h)]
  rfl

/-- A party that waits at no barrier waits for the phase of its last arrival. -/
theorem Party.awaited_of_arrived (hw : ∀ k l m, (q.slot w.sl).wait ≠ .barrier k l m) (key : Nat) :
    ({ q with arrivals := Map.set q.arrivals key ph } : Party).awaited w.sl key = some ph := by
  unfold Party.awaited
  split
  case h_1 hwait _ => exact absurd hwait (hw _ _ _)
  case h_2 => exact Map.find_set_self _ _ _

end

section

variable {i : Instr} {s0 s r : State} {w : Issuer} {t : Team} {q : Party}

/-- An instruction without vector sources that waits keeps what it has begun. -/
theorem runTeam_wait (h : Executes i s0 w s t q) (hr : (operands i).reads = []) {x : Wait}
    {f : Issuer → Team → Party → State → Effect} (hf : f w t q s = .wait r x) (hstuck : r.stuck = false) :
    runTeam i s0 f = .next (r.waitOn w x) := by
  obtain ⟨rfl, hrun⟩ := h.same_of_no_reads hr
  rw [hrun, hf, Effect.unstuck_wait hstuck]
  rfl

end

/-- Settles O46: by what the instruction finds at the barrier: no phase that it waits for, a completed one, or an open one. -/
theorem barriersIssue : Obligations.BarriersIssue := by
  refine ⟨fun c b s0 w s t q r h hr hh => ?arrive, fun c b s0 w s t q h => ⟨fun hn => ?none, fun r ph hr hp => ⟨fun hlt => ?past,
    fun hle => ?opened⟩⟩, fun c b s0 w s t q r h hw hr hh => ?sync, fun c b s w t q r ph k l m h hw hr hp => ⟨fun hlt => ?again,
    fun hle => ?still⟩⟩
  case arrive =>
    rw [exec_barArrive]
    exact runTeam_done h (arriveEffect_of_met hr hh) ((hasArrived_stuck ..).trans ((State.release_stuck ..).trans h.calm))
  case none =>
    rw [exec_barWait]
    exact runTeam_done h (waitEffect_of_none hn) h.calm
  case past =>
    rw [exec_barWait]
    exact runTeam_done h (waitEffect_of_complete hr hp hlt) h.calm
  case opened =>
    rw [exec_barWait]
    exact runTeam_wait h rfl (waitEffect_of_open hr hp hle) h.calm
  case sync =>
    intro s1
    have hs1 : s1.site w = some (t, q) := (State.sameBesideMemory.release s ..).site w ▸ h.site
    obtain ⟨bs, ps, hsite⟩ := site_hasArrived hs1 c b r
    rw [exec_barSync]
    refine runTeam_wait h rfl (r := (hasArrived s1 w q c b r).modParty w.tid w.p fun q => q.modSlot w.sl fun x =>
      { x with barWait := some (barKey c b, (s1.barrier r).phase) }) ?_
      ((hasArrived_stuck s1 w q c b r).trans ((State.release_stuck ..).trans h.calm))
    split
    case h_1 hwait => exact absurd hwait (hw _ _ _)
    case h_2 =>
      rw [arriveEffect_of_met hr hh, hsite]
      exact waitEffect_of_open hr (Party.awaited_of_arrived hw _) (phase_hasArrived ..).le
  case again =>
    rw [exec_barSync, execBarSync, runTeam_of_resumes h]
    simp only [hw, waitEffect_of_complete hr hp hlt, Effect.unstuck_done h.calm]
    rfl
  case still =>
    rw [exec_barSync, execBarSync, runTeam_of_resumes h]
    simp only [hw, waitEffect_of_open hr hp hle]
    rw [Effect.unstuck_wait (show (State.modParty ..).stuck = false from h.calm)]
    rfl

end Sys2Proof.Machine

/-!
PROOFS. Records in hand: rget, rdone and dget (O44).
-/

namespace Sys2Proof.Machine

open Sys2Proof

/-! ## rget (R364) -/

/-- The search for a lane whose record cannot be read finds none where all can. -/
theorem find?_unreadable_eq_none {f : Nat → Option Rec} {ls : List Nat} (h : ∀ l ∈ ls, (f l).isSome = true) :
    (ls.find? fun l => (f l).isNone) = none :=
  List.find?_eq_none.2 fun l hl => by simp [Option.isSome_iff_ne_none.1 (h l hl)]

section

variable {s0 s : State} {w : Issuer} {t : Team} {q : Party}

theorem exec_rget_of_readable {d : VReg} {n : BitVec 4} {i : BOp} (h : Executes (.rget d n i) s0 w s t q)
    (hr : ∀ l ∈ maskLanes (q.active w.sl), (s.readable t q l (q.bV i l)).isSome = true) :
    exec (.rget d n i) s0 = .next (s0.after (.rget d n i) w (s.modParty w.tid w.p fun q' =>
      q'.setV d.toNat (q.active w.sl) fun l =>
        match s.readable t q l (q.bV i l) with | some r => recWord r n.toNat | none => 0)) := by
  rw [exec_rget]
  refine runTeam_done h ?_ h.calm
  rw [find?_unreadable_eq_none hr] <;> rfl

/-! ## rdone (R365, R475) -/

theorem State.sameBesideMemory.retireRelease (s : State) (core tid p : Nat) (q : Party) (rs : List Delivered) :
    s.sameBesideMemory (s.retireRelease core tid p q rs).1 := by
  unfold State.retireRelease
  dsimp only
  split
  · exact State.sameBesideMemory.refl s
  · exact State.sameBesideMemory.release s _ _ _ _ _

/-- The number that retiring a party's records answers is that of the records it retires. -/
theorem State.retireParty_count (hs : s.site w = some (t, q)) (o : Origin) (x : Wait) (sel : Delivered → Bool) :
    (s.retireParty w.tid w.p o x sel).2 = (q.records.filter fun d => !d.retired && sel d).length := by
  obtain ⟨ht, hq⟩ := State.site_eq_some hs
  unfold State.retireParty
  simp only [ht, hq]

variable {d : SReg} {n : Node} {s1 : State}

/-- The records that rdone retires in the RMODEs of parties: all in RMODE 1, those of the active lanes in RMODE 0. -/
def rdoneCovers (n : Node) (m : Mask) (y : Delivered) : Bool :=
  n.rmode == 1 || (match y.lane with | some l => inMask m l | none => false)

theorem exec_rdone_of_party (h : Executes (.rdone d) s0 w s t q) (hn : s.node? t = some n) (hmode : n.rmode ≠ 2)
    {rs : List Delivered} (hrs : rs = q.records.filter fun y => !y.retired && rdoneCovers n (q.active w.sl) y)
    (hrel : s.retireRelease t.core w.tid w.p q rs = (s1, none)) :
    let r := (s1.retireParty w.tid w.p (originOf w q (Instr.rdone d).word) (q.slot (!w.sl)).wait (rdoneCovers n (q.active w.sl))).1
    r.stuck = false → exec (.rdone d) s0 = .next (s0.after (.rdone d) w (r.modParty w.tid w.p fun q =>
      q.setS w.sl d.toNat (BitVec.ofNat 32 rs.length))) := by
  intro r hr
  have hsite : s1.site w = some (t, q) := by
    have := (State.sameBesideMemory.retireRelease s t.core w.tid w.p q rs).site w
    rw [hrel] at this
    exact this.trans h.site
  have hcount := State.retireParty_count hsite (originOf w q (Instr.rdone d).word) (q.slot (!w.sl)).wait
    (rdoneCovers n (q.active w.sl))
  rw [← hrs] at hcount
  rw [exec_rdone]
  refine runTeam_done h ?_ hr
  simp only [hn, if_neg hmode]
  subst hrs
  split
  case h_1 he => exact nomatch (Prod.mk.inj (he.symm.trans hrel)).2
  case h_2 he =>
    obtain rfl := (Prod.mk.inj (he.symm.trans hrel)).1
    rw [← hcount]
    rfl

theorem exec_rdone_of_team (h : Executes (.rdone d) s0 w s t q) (hn : s.node? t = some n) (hmode : n.rmode = 2)
    (hrel : s.retireRelease t.core w.tid w.p q (t.teamRecords.filter fun y => !y.retired) = (s1, none)) :
    let rs := t.teamRecords.filter fun y => !y.retired
    let r := (s1.modTeam w.tid fun t => { t with teamRecords := t.teamRecords.map fun y => { y with retired := true } }).retireAll
      w.tid (originOf w q (Instr.rdone d).word) (q.slot (!w.sl)).wait t rs
    r.stuck = false → exec (.rdone d) s0 = .next (s0.after (.rdone d) w (r.modParty w.tid w.p fun q =>
      q.setS w.sl d.toNat (BitVec.ofNat 32 rs.length))) := by
  intro rs r hr
  rw [exec_rdone]
  refine runTeam_done h ?_ hr
  simp only [hn, hmode, if_true]
  rw [hrel]
  rfl

end

/-! ## dget (R370) -/

/-- Sixteen bytes of alignment are four zero bits. -/
theorem extractLsb'_zero_four_eq_zero_iff (a : DWord) : a.extractLsb' 0 4 = 0 ↔ a.toNat % 16 = 0 := by
  rw [← BitVec.toNat_inj, BitVec.extractLsb'_toNat]
  simp

/-- The handle register of an aligned address holds its low 57 bits, and V (R140). -/
theorem handleReg_of_aligned {a : DWord} (h : a.toNat % 16 = 0) : handleReg a = BitVec.ofNat 64 (a.toNat % 2 ^ 57) ||| 1 := by
  have hlow : ∀ i < 4, a.toNat.testBit i = false := fun i hi => by
    have := Nat.testBit_mod_two_pow a.toNat 4 i
    rw [show a.toNat % 2 ^ 4 = 0 from h] at this
    simpa [hi] using this.symm
  unfold handleReg
  congr 1
  refine BitVec.eq_of_getLsbD_eq fun i hi => ?_
  have : (0xF#64).getLsbD i = decide (i < 4) := by
    have : ∀ i < 64, (0xF#64).getLsbD i = decide (i < 4) := by decide
    exact this i hi
  rw [BitVec.getLsbD_and, BitVec.getLsbD_not, this, BitVec.getLsbD_setWidth, BitVec.getLsbD_extractLsb', BitVec.getLsbD_ofNat,
    Nat.testBit_mod_two_pow, Nat.zero_add]
  by_cases h4 : i < 4
  · simp [h4, hlow i h4]
  · simp [h4, hi, BitVec.getLsbD]

section

variable {s0 s : State} {w : Issuer} {t : Team} {q : Party} {h4 : BitVec 4}

/-- dget from a pair of registers that holds an aligned address. -/
theorem exec_dget_of_pair {a : SReg} (h : Executes (.dget (.pair a) h4) s0 w s t q) (ha : a ≠ 0)
    (hal : (q.pairS w.sl a.toNat).toNat % 16 = 0) :
    exec (.dget (.pair a) h4) s0 = .next (s0.after (.dget (.pair a) h4) w (s.modTeam w.tid fun t =>
      { t with handles := Store.write t.handles h4.toNat (BitVec.ofNat 64 ((q.pairS w.sl a.toNat).toNat % 2 ^ 57) ||| 1) })) := by
  rw [exec_dget, ← handleReg_of_aligned hal]
  refine runTeam_done h ?_ h.calm
  simp only [if_neg ha, (extractLsb'_zero_four_eq_zero_iff _).2 hal, ne_eq, not_true, if_false]

/-- dget from s0 clears the handle. -/
theorem exec_dget_of_zero (h : Executes (.dget (.pair 0) h4) s0 w s t q) :
    exec (.dget (.pair 0) h4) s0 = .next (s0.after (.dget (.pair 0) h4) w (s.modTeam w.tid fun t =>
      { t with handles := Store.write t.handles h4.toNat 0 })) := by
  rw [exec_dget]
  exact runTeam_done h (if_pos rfl) h.calm

theorem exec_dget_of_no_lane {k : BitVec 6} (h : Executes (.dget (.word k) h4) s0 w s t q) (hm : q.active w.sl = 0) :
    exec (.dget (.word k) h4) s0 = .next (s0.after (.dget (.word k) h4) w s) := by
  have hl : q.lowLane w.sl = none := by rw [Party.lowLane, hm]; rfl
  rw [exec_dget]
  refine runTeam_done h ?_ h.calm
  simp only [hl]

/-- dget from two words of the record of the lowest active lane. -/
theorem exec_dget_of_word {k : BitVec 6} {l : Nat} {r : Rec} (h : Executes (.dget (.word k) h4) s0 w s t q)
    (hl : q.lowLane w.sl = some l) (hr : s.readable t q l 0xFFFFFFFF = some r) (hal : (recWord r k.toNat).toNat % 16 = 0) :
    exec (.dget (.word k) h4) s0 = .next (s0.after (.dget (.word k) h4) w (s.modTeam w.tid fun t =>
      { t with
        handles := Store.write t.handles h4.toNat
          (BitVec.ofNat 64 ((recWord r (k.toNat + 1) ++ recWord r k.toNat).toNat % 2 ^ 57) ||| 1) })) := by
  have hal : (recWord r (k.toNat + 1) ++ recWord r k.toNat : DWord).toNat % 16 = 0 := by
    rw [BitVec.toNat_append, Nat.shiftLeft_eq, Nat.mul_comm, ← Nat.two_pow_add_eq_or_of_lt (recWord r k.toNat).isLt]
    omega
  rw [exec_dget, ← handleReg_of_aligned hal]
  refine runTeam_done h ?_ h.calm
  simp only [hl, hr, (extractLsb'_zero_four_eq_zero_iff _).2 hal, ne_eq, not_true, if_false]

end

/-- Settles O44: by the instruction, and by where the records in hand stand. -/
theorem recordsInHand : Obligations.RecordsInHand := by
  refine ⟨?rget, ?rdone, ?pair, ?zero, ?none, ?word⟩
  case rget => exact fun _ _ _ _ _ _ _ _ h hr => exec_rget_of_readable h hr
  case rdone =>
    intro d s0 w s t q n h hn
    exact ⟨fun hmode s1 hrel => exec_rdone_of_party h hn hmode rfl hrel, fun hmode s1 hrel => exec_rdone_of_team h hn hmode hrel⟩
  case pair => exact fun _ _ _ _ _ _ _ h ha hal => exec_dget_of_pair h ha hal
  case zero => exact fun _ _ _ _ _ _ h => exec_dget_of_zero h
  case none => exact fun _ _ _ _ _ _ _ h hm => exec_dget_of_no_lane h hm
  case word => exact fun _ _ _ _ _ _ _ _ _ h hl hr hal => exec_dget_of_word h hl hr hal

end Sys2Proof.Machine

/-!
PROOFS. Futures: futnew, futreg, futres and futst (O45).
-/

namespace Sys2Proof.Machine

open Sys2Proof

/-! ## A request to a peer -/

section

variable (s : State) (tid : Nat) (party : Option Nat) (acc : Option (Nat × Nat)) (o : Origin) (dst addr : Nat) (op : FabOp)
  (va place lane : Option Nat) (late : Option Team) (lanes : List (Nat × Nat)) (dev : Bool) (after : Option Nat)
  (tag : Option (BitVec 16))

/-- A request takes a number and its place in its order, and joins those outstanding: nothing else changes. -/
theorem State.request_frame :
    ({ (s.request tid party acc o dst addr op va place lane late lanes dev after tag).1 with
      nextId := s.nextId, free := s.free, issuedTo := s.issuedTo, lastReq := s.lastReq, outstanding := s.outstanding } : State) = s := by
  unfold State.request State.nextOrder
  dsimp only
  split <;> rfl

theorem State.request_stuck :
    (s.request tid party acc o dst addr op va place lane late lanes dev after tag).1.stuck = s.stuck := by
  have := congrArg State.stuck (s.request_frame tid party acc o dst addr op va place lane late lanes dev after tag)
  exact this

theorem State.request_teams :
    (s.request tid party acc o dst addr op va place lane late lanes dev after tag).1.teams = s.teams := by
  have := congrArg State.teams (s.request_frame tid party acc o dst addr op va place lane late lanes dev after tag)
  exact this

/-- The request that joins those outstanding. -/
theorem State.request_outstanding :
    ∃ x : Outstanding, x.req.dst = dst ∧ x.req.op = op ∧ x.tid = tid ∧ x.party = party ∧ x.origin = o ∧
      (s.request tid party acc o dst addr op va place lane late lanes dev after tag).1.outstanding = s.outstanding ++ [x] := by
  unfold State.request State.nextOrder
  dsimp only
  split <;> exact ⟨_, rfl, rfl, rfl, rfl, rfl, rfl⟩

end

/-! ## futnew (R366) -/

/-- The search takes the first free slot from where it starts. -/
theorem nextFree_spec {used : List Nat} {fuel k : Nat} (hk : k < 65536) (h : ∃ j < fuel, (k + j) % 65536 ∉ used) :
    nextFree used k fuel < 65536 ∧ nextFree used k fuel ∉ used := by
  induction fuel generalizing k with
  | zero => obtain ⟨j, hj, _⟩ := h; exact absurd hj (Nat.not_lt_zero j)
  | succ n ih =>
    rw [nextFree]
    by_cases hu : k ∈ used
    · rw [if_pos (List.contains_iff_mem.2 hu)]
      refine ih (Nat.mod_lt _ (by decide)) ?_
      obtain ⟨j, hj, hfree⟩ := h
      cases j with
      | zero => exact absurd (by rwa [Nat.add_zero, Nat.mod_eq_of_lt hk]) hfree
      | succ j =>
        refine ⟨j, by omega, ?_⟩
        rwa [Nat.mod_add_mod, Nat.add_right_comm, Nat.add_assoc]
    · rw [if_neg fun hc => hu (List.contains_iff_mem.1 hc)]
      exact ⟨hk, hu⟩

/-- Of one more slot than are in use, in a row, one is free. -/
theorem exists_free {used : List Nat} (h : used.length < 65536) (k : Nat) : ∃ j < used.length + 1, (k + j) % 65536 ∉ used := by
  by_contra hall
  push Not at hall
  have hsub : (Finset.range (used.length + 1)).image (fun j => (k + j) % 65536) ⊆ used.toFinset := fun x hx => by
    obtain ⟨j, hj, rfl⟩ := Finset.mem_image.1 hx
    exact List.mem_toFinset.2 (hall j (Finset.mem_range.1 hj))
  have hinj : Set.InjOn (fun j => (k + j) % 65536) (Finset.range (used.length + 1)) := fun a ha b hb hab => by
    simp only [Finset.coe_range, Set.mem_Iio] at ha hb
    dsimp only at hab
    omega
  have hle := (Finset.card_le_card hsub).trans used.toFinset_card_le
  rw [Finset.card_image_of_injOn hinj, Finset.card_range] at hle
  omega

section

variable {s0 s s1 s2 : State} {w : Issuer} {t : Team} {q : Party}

/-- What an executing instruction's complete release leaves is not stuck. -/
theorem Executes.release_calm {i : Instr} {core : Nat} {scope : Scope} (h : Executes i s0 w s t q)
    (hrel : s.release core w.tid w.p q scope = (s1, none)) : s1.stuck = false := by
  have := State.release_stuck s core w.tid w.p q scope
  rw [hrel] at this
  exact this.trans h.calm

theorem exec_futnew_of_free {d c : SReg} (h : Executes (.futnew d c) s0 w s t q) (hn : (q.getS w.sl c.toNat).toNat < 256)
    (hrel : s.release t.core w.tid w.p q .dv = (s1, none)) (hfree : (s1.usedJoins t.die).length < 65536) :
    ∃ k, k < 65536 ∧ k ∉ s1.usedJoins t.die ∧
      exec (.futnew d c) s0 = .next (s0.after (.futnew d c) w (({ s1 with
        free := s1.free + 1
        joins := Map.set s1.joins (65536 * t.die + k)
          { state := if q.getS w.sl c.toNat = 0 then .resolved else .pending, count := (q.getS w.sl c.toNat).toNat,
            owner := t.node, ownerTid := w.tid, run := t.run, conts := [] } } : State).modParty w.tid w.p fun q =>
          q.setS w.sl d.toNat (BitVec.ofNat 32 (2 ^ 20 * s1.rank.toNat + 65536 * t.die + k)))) := by
  have hlow : ¬fld (q.getS w.sl c.toNat) 8 24 ≠ 0 := by
    rw [ne_eq, not_not, ← BitVec.toNat_inj, toNat_fld]
    exact (Nat.mod_eq_of_lt (by omega)).trans (Nat.div_eq_of_lt hn)
  have hzero : q.getS w.sl c.toNat = 0 ↔ (q.getS w.sl c.toNat).toNat = 0 := by rw [← BitVec.toNat_inj]; rfl
  obtain ⟨hk, hused⟩ := nextFree_spec (used := s1.usedJoins t.die) (Nat.mod_lt (Config.joinChoice s1.free) (by decide))
    (exists_free hfree _)
  refine ⟨_, hk, hused, ?_⟩
  have calm := h.release_calm hrel
  rw [exec_futnew]
  refine runTeam_done h ?_ calm
  simp only [if_neg hlow, hrel, if_neg (Nat.not_le.2 hfree), hzero, Nat.add_assoc]
  rfl

/-! ## futreg (R367) -/

variable {j : SReg} {e : BitVec 6} {v : VReg} {g : Edge} {d : Nat}

theorem exec_futreg_of_no_lane (h : Executes (.futreg j e v) s0 w s t q) (he : s.edge? t e.toNat = some g)
    (hh : s.malformed t (q.getS w.sl j.toNat) = false) (hd : s.emitDepth t q g = (d, false)) (hm : q.active w.sl = 0) :
    exec (.futreg j e v) s0 = .next (s0.after (.futreg j e v) w s) := by
  have hl : q.lowLane w.sl = none := by rw [Party.lowLane, hm]; rfl
  rw [exec_futreg]
  refine runTeam_done h ?_ h.calm
  simp [he, hh, hd, hl]

/-- The record that futreg registers. -/
def contRec (t : Team) (q : Party) (g : Edge) (d : Nat) (h : Word) (v : VReg) (l : Nat) : Rec :=
  mkRec { target := g.target, type := g.type, depth := d, prio := g.prio, cont := true, trank := joinRank h, join := none,
          srcNode := t.node, srcLane := l, cls := g.cls } (q.payloadOf v l)

theorem exec_futreg_of_here {l : Nat} (h : Executes (.futreg j e v) s0 w s t q) (he : s.edge? t e.toNat = some g)
    (hh : s.malformed t (q.getS w.sl j.toNat) = false) (hd : s.emitDepth t q g = (d, false)) (hl : q.lowLane w.sl = some l)
    (hrel : s.release t.core w.tid w.p q .dv = (s1, none)) (hrank : s1.rank = s.rank)
    (hj : joinRank (q.getS w.sl j.toNat) = s.rank.toNat)
    (hreg : s1.register (q.getS w.sl j.toNat) (contRec t q g d (q.getS w.sl j.toNat) v l) (some (clusterOf t.core)) = .done s2)
    (hs2 : s2.stuck = false) : exec (.futreg j e v) s0 = .next (s0.after (.futreg j e v) w s2) := by
  rw [exec_futreg]
  refine runTeam_done h ?_ hs2
  unfold contRec at hreg
  simp only [he, hh, hd, hl, if_pos hj, hrel, hrank, hreg, Bool.false_eq_true, if_false]

theorem exec_futreg_of_away {l : Nat} (h : Executes (.futreg j e v) s0 w s t q) (he : s.edge? t e.toNat = some g)
    (hh : s.malformed t (q.getS w.sl j.toNat) = false) (hd : s.emitDepth t q g = (d, false)) (hl : q.lowLane w.sl = some l)
    (hrel : s.release t.core w.tid w.p q .sy = (s1, none)) (hrank : s1.rank = s.rank)
    (hj : joinRank (q.getS w.sl j.toNat) ≠ s.rank.toNat) (hs1 : s1.stuck = false) :
    exec (.futreg j e v) s0 = .next (s0.after (.futreg j e v) w
      (s1.request w.tid (some w.p) none (originOf w q (Instr.futreg j e v).word) (joinRank (q.getS w.sl j.toNat)) 0
        (.register (q.getS w.sl j.toNat) (contRec t q g d (q.getS w.sl j.toNat) v l))).1) := by
  rw [exec_futreg]
  refine runTeam_done h ?_ ((State.request_stuck ..).trans hs1)
  unfold contRec
  simp only [he, hh, hd, hl, if_neg hj, hrel, hrank, Bool.false_eq_true, if_false]

/-! ## futres (R359, R368) -/

variable {n : SReg} {f : FutForm}

theorem exec_futres_of_zero (h : Executes (.futres j n f) s0 w s t q) (hh : s.malformed t (q.getS w.sl j.toNat) = false)
    (hk : q.getS w.sl n.toNat = 0) : exec (.futres j n f) s0 = .next (s0.after (.futres j n f) w s) := by
  rw [exec_futres]
  refine runTeam_done h ?_ h.calm
  simp [hh, hk]

/-- A resolution that names nothing incomplete is made at once. -/
theorem exec_futres_of_unbound (h : Executes (.futres j n f) s0 w s t q) (hh : s.malformed t (q.getS w.sl j.toNat) = false)
    (hk : (q.getS w.sl n.toNat).toNat ≤ 255) (hk0 : q.getS w.sl n.toNat ≠ 0)
    (hrel : s.release t.core w.tid w.p q (if joinRank (q.getS w.sl j.toNat) = s.rank.toNat then .dv else .sy) = (s1, none))
    (hb : boundTo s1 w t f = [])
    (hres : s1.resolve w.tid (originOf w q (Instr.futres j n f).word) (q.getS w.sl j.toNat) (q.getS w.sl n.toNat).toNat false =
      (s2, false)) (hs2 : s2.stuck = false) : exec (.futres j n f) s0 = .next (s0.after (.futres j n f) w s2) := by
  rw [exec_futres]
  refine runTeam_done h ?_ hs2
  simp only [hh, if_neg (Nat.not_lt.2 hk), if_neg hk0, hrel, hres, Bool.false_eq_true, if_false]
  cases f with
  | imm => rfl
  | mx => exact if_pos (List.isEmpty_iff.2 hb)
  | cmd r =>
    have : s1.latestCmd w t r.toNat = none := Option.toList_eq_nil_iff.1 hb
    simp only [this]; rfl

/-- A resolution that names what is incomplete awaits it. -/
theorem exec_futres_of_bound (h : Executes (.futres j n f) s0 w s t q) (hh : s.malformed t (q.getS w.sl j.toNat) = false)
    (hk : (q.getS w.sl n.toNat).toNat ≤ 255) (hk0 : q.getS w.sl n.toNat ≠ 0)
    (hrel : s.release t.core w.tid w.p q (if joinRank (q.getS w.sl j.toNat) = s.rank.toNat then .dv else .sy) = (s1, none))
    (hs1 : s1.stuck = false) (hb : boundTo s1 w t f ≠ []) :
    exec (.futres j n f) s0 = .next (s0.after (.futres j n f) w { s1 with
      deferred := s1.deferred ++
        [{ tid := w.tid, handle := q.getS w.sl j.toNat, n := (q.getS w.sl n.toNat).toNat, awaits := boundTo s1 w t f,
           origin := originOf w q (Instr.futres j n f).word }] }) := by
  rw [exec_futres]
  refine runTeam_done h ?_ hs1
  simp only [hh, if_neg (Nat.not_lt.2 hk), if_neg hk0, hrel, Bool.false_eq_true, if_false]
  cases f with
  | imm => exact absurd rfl hb
  | mx =>
    refine (if_neg fun hc => hb (List.isEmpty_iff.1 hc)).trans ?_
    rfl
  | cmd r =>
    obtain ⟨id, hid⟩ := Option.ne_none_iff_exists'.1 fun hn : s1.latestCmd w t r.toNat = none => hb (by rw [boundTo, hn]; rfl)
    simp only [hid, boundTo]
    rfl

/-! ## futst (R369) -/

variable {d : SReg}

theorem exec_futst_of_here (h : Executes (.futst d j) s0 w s t q) (hh : s.malformed t (q.getS w.sl j.toNat) = false)
    (hw : ∀ r, (q.slot w.sl).wait ≠ .joinRead r) (hj : joinRank (q.getS w.sl j.toNat) = s.rank.toNat)
    (hrel : s.release t.core w.tid w.p q .dv = (s1, none)) :
    exec (.futst d j) s0 = .next (s0.after (.futst d j) w
      (s1.modParty w.tid w.p fun q' => q'.setS w.sl d.toNat (s1.joinWord (joinKey (q.getS w.sl j.toNat))))) := by
  have hs1 : joinRank (q.getS w.sl j.toNat) = s1.rank.toNat := by
    have := (State.sameBesideMemory.release s t.core w.tid w.p q .dv).rank
    rw [hrel] at this
    rw [hj, this]
  have calm := h.release_calm hrel
  rw [exec_futst]
  refine runTeam_done h ?_ calm
  simp only [hh, if_pos hj, hrel, if_pos hs1, Bool.false_eq_true, if_false]

theorem exec_futst_of_away (h : Executes (.futst d j) s0 w s t q) (hh : s.malformed t (q.getS w.sl j.toNat) = false)
    (hw : ∀ r, (q.slot w.sl).wait ≠ .joinRead r) (hj : joinRank (q.getS w.sl j.toNat) ≠ s.rank.toNat)
    (hrel : s.release t.core w.tid w.p q .sy = (s1, none)) :
    ∃ s2 : State, exec (.futst d j) s0 = .next (s2.waitOn w (.joinRead (joinRank (q.getS w.sl j.toNat)))) ∧
      (∀ x ∈ s1.outstanding, x ∈ s2.outstanding) ∧
      ∃ x ∈ s2.outstanding, x.req.dst = joinRank (q.getS w.sl j.toNat) ∧ x.req.op = .joinRead (q.getS w.sl j.toNat) ∧
        x.tid = w.tid ∧ x.party = some w.p := by
  have hs1 : joinRank (q.getS w.sl j.toNat) ≠ s1.rank.toNat := by
    have := (State.sameBesideMemory.release s t.core w.tid w.p q .sy).rank
    rw [hrel] at this
    rwa [this]
  have calm := h.release_calm hrel
  let lane : LaneAcc :=
    { lane := 96, va := 0, failed := none, val := none
      tgt := some { pa := 0, peer := some (joinRank (q.getS w.sl j.toNat)), mt := 0, wsa := false, cv := false, mig := false } }
  let acc := newAccess (.futst d j) w q s1.nextId .futst d.toNat .w32 (some { str := .acq, scope := .sy }) .ca [lane]
  let s2 := ((s1.fresh.2.addAccess w acc).request w.tid (some w.p) (some (s1.nextId, 96)) (originOf w q (Instr.futst d j).word)
    (joinRank (q.getS w.sl j.toNat)) 0 (.joinRead (q.getS w.sl j.toNat))).1
  obtain ⟨x, hdst, hop, htid, hparty, -, hout⟩ := (s1.fresh.2.addAccess w acc).request_outstanding w.tid (some w.p)
    (some (s1.nextId, 96)) (originOf w q (Instr.futst d j).word) (joinRank (q.getS w.sl j.toNat)) 0
    (.joinRead (q.getS w.sl j.toNat)) none none none none [] false none none
  have hout : s2.outstanding = s1.outstanding ++ [x] := hout
  refine ⟨s2, ?_, fun y hy => hout ▸ List.mem_append_left _ hy, x, hout ▸ List.mem_append_right _ List.mem_cons_self, hdst, hop,
    htid, hparty⟩
  have hstuck : s2.stuck = false := (State.request_stuck ..).trans calm
  rw [exec_futst]
  refine runTeam_wait h rfl ?_ hstuck
  simp only [hh, if_neg hj, hrel, if_neg hs1, Bool.false_eq_true, if_false]
  rfl

theorem exec_futst_of_answered {r : Nat} (h : Executes (.futst d j) s0 w s t q)
    (hh : s.malformed t (q.getS w.sl j.toNat) = false) (hw : (q.slot w.sl).wait = .joinRead r)
    (ha : ∀ a ∈ q.accesses, ¬(a.kind = .futst ∧ a.slot = w.sl)) :
    exec (.futst d j) s0 = .next (s0.after (.futst d j) w s) := by
  have hnone : ¬(q.accesses.any fun a => a.kind == .futst && a.slot == w.sl) = true := fun hc => by
    obtain ⟨a, hm, hk⟩ := List.any_eq_true.1 hc
    exact ha a hm (by simpa using hk)
  rw [exec_futst]
  refine runTeam_done h ?_ h.calm
  simp only [hh, hw, if_neg hnone, Bool.false_eq_true, if_false]

end

/-- Settles O45: by the instruction, and by where the slot it names stands. -/
theorem futures : Obligations.Futures := by
  refine ⟨?futnew, ?futreg, ?futres, ?futst⟩
  case futnew => exact fun _ _ _ _ _ _ _ _ h hn hrel hfree => exec_futnew_of_free h hn hrel hfree
  case futreg =>
    intro j e v s0 w s t q g d i hd h he hh hdepth
    refine ⟨exec_futreg_of_no_lane h he hh hdepth, ?_⟩
    intro l s1 hl rec_ hrel hrank
    refine ⟨fun s2 hj hreg hs2 => ?_, fun hj hs1 => ?_⟩
    · rw [if_pos hj] at hrel
      exact exec_futreg_of_here h he hh hdepth hl hrel hrank hj hreg hs2
    · rw [if_neg hj] at hrel
      exact exec_futreg_of_away h he hh hdepth hl hrel hrank hj hs1
  case futres =>
    intro j n f s0 w s t q i hd k o h hh hk
    exact ⟨exec_futres_of_zero h hh, fun s1 hk0 hrel hs1 =>
      ⟨fun s2 hb hres hs2 => exec_futres_of_unbound h hh hk hk0 hrel hb hres hs2, exec_futres_of_bound h hh hk hk0 hrel hs1⟩⟩
  case futst =>
    intro d j s0 w s t q i hd h hh
    exact ⟨fun s1 hw hj hrel => exec_futst_of_here h hh hw hj hrel, fun s1 hw hj hrel => exec_futst_of_away h hh hw hj hrel,
      fun r hw ha => exec_futst_of_answered h hh hw ha⟩

end Sys2Proof.Machine

/-!
PROOFS. Emissions: emit and emitr (O43).
-/

namespace Sys2Proof.Machine

open Sys2Proof

section

variable {s0 s s1 s2 : State} {w : Issuer} {t : Team} {q : Party} {i : Instr} {node n : Nat} {ns : Bool}

/-- The records of an emission that stay on this device, all accepted, are the whole of it. -/
theorem emitRecs_of_accepted {recs : List ((Nat × Nat) × Rec)} (hown : ∀ x ∈ recs, x.1.1 = s.rank.toNat)
    (hoffer : s.offer w (originOf w q i.word) t node ns 0 false
      ((List.range 4).map fun d => (d, (recs.filter fun x => x.1.2 == d).map Prod.snd)) = .done s2 n false) :
    emitRecs i node ns recs w t q s = .done (s2.modParty w.tid w.p fun q => q.modSlot w.sl fun x => { x with took := n }) := by
  have hgroup : ∀ d, (recs.filter fun x => x.1.1 == s.rank.toNat && x.1.2 == d) = recs.filter fun x => x.1.2 == d := fun d =>
    List.filter_congr fun x hx => by rw [hown x hx, beq_self_eq_true, Bool.true_and]
  have hothers : (recs.filter fun x => x.1.1 != s.rank.toNat) = [] :=
    List.filter_eq_nil_iff.2 fun x hx => by simp [hown x hx]
  unfold emitRecs
  simp only [hgroup, hothers, hoffer]
  rfl

/-- Of records that all go to one die, the groups of the other dies are empty. -/
theorem filter_die_map (die d : Nat) (rank : Nat) (rs : List Rec) :
    (((rs.map fun r => ((rank, die), r)).filter fun x => x.1.2 == d).map Prod.snd) = if d = die then rs else [] := by
  by_cases h : d = die
  · subst h
    rw [if_pos rfl, List.filter_eq_self.2 (by simp), List.map_map]
    exact List.map_id rs
  · rw [if_neg h, List.filter_eq_nil_iff.2 (by simp [Ne.symm h])]
    rfl

theorem exec_emit_of_accepted {v : VReg} {e : BitVec 6} {j : SReg} {g : Edge} {d : Nat}
    (h : Executes (.emit v e j ns) s0 w s t q) (hw : ∀ k, (q.slot w.sl).wait ≠ .emission k) (he : s.edge? t e.toNat = some g)
    (hj : j = 0 ∨ s.malformed t (q.getS w.sl j.toNat) = false) (hd : s.emitDepth t q g = (d, false))
    (hrel : s.release t.core w.tid w.p q .dv = (s1, none)) {recs : List Rec}
    (hrecs : recs = (maskLanes (q.active w.sl)).map fun l =>
      mkRec { target := g.target, type := g.type, depth := d, prio := g.prio, cont := false, trank := s1.rank.toNat,
              join := if j = 0 then none else some (q.getS w.sl j.toNat), srcNode := t.node, srcLane := l, cls := g.cls }
        (q.payloadOf v l))
    (hoffer : s1.offer w (originOf w q (Instr.emit v e j ns).word) t g.target ns 0 false
      ((List.range 4).map fun k => (k, if k = t.die then recs else [])) = .done s2 n false) (hs2 : s2.stuck = false) :
    exec (.emit v e j ns) s0 = .next (s0.after (.emit v e j ns) w
      (s2.modParty w.tid w.p fun q => q.modSlot w.sl fun x => { x with took := n })) := by
  have hjoin : ¬(j ≠ 0 ∧ s.malformed t (q.getS w.sl j.toNat) = true) := fun hc => hj.elim hc.1 fun hf => by simp [hf] at hc
  rw [exec_emit]
  refine runTeam_done h ?_ hs2
  simp only [he, if_neg hjoin, hd, hrel, Bool.false_eq_true, if_false]
  subst hrecs
  refine emitRecs_of_accepted (fun x hx => ?_) ?_
  · obtain ⟨r, _, rfl⟩ := List.mem_map.1 hx
    rfl
  · simp only [filter_die_map]
    exact hoffer

/-- Of records that all go to this device, each die's group is that of the lanes that name the die. -/
theorem filter_place_map {rank k : Nat} {at_ : Nat → Option (Nat × Nat)} {mk : Nat × Nat → Nat → Rec} {ls : List Nat}
    (h : ∀ l ∈ ls, ∃ k, at_ l = some (rank, k)) (hmk : ∀ k l, mk (rank, k) l = mk (rank, 0) l) :
    (((ls.filterMap fun l => (at_ l).map fun p => (p, mk p l)).filter fun x => x.1.2 == k).map Prod.snd) =
      (ls.filter fun l => (at_ l).map Prod.snd == some k).map (mk (rank, 0)) := by
  induction ls with
  | nil => rfl
  | cons l ls ih =>
    have ih := ih fun x hx => h x (List.mem_cons_of_mem _ hx)
    obtain ⟨die, hdie⟩ := h l List.mem_cons_self
    rw [List.filterMap_cons, hdie]
    by_cases hk : die = k
    · simp [hk, hdie, ih, hmk k l]
    · simp [hk, hdie, ih]

theorem exec_emitr_of_accepted {v : VReg} {e : BitVec 6} {r : BOp} {g : Edge} {run : Run} {d : Nat}
    (h : Executes (.emitr v e r ns) s0 w s t q) (hw : ∀ k, (q.slot w.sl).wait ≠ .emission k) (he : s.edge? t e.toNat = some g)
    (hrun : s.run? t = some run)
    (hat : ∀ l ∈ maskLanes (q.active w.sl), ∃ k, run.place (q.bV r l) = some (s1.rank.toNat, k))
    (hd : s.emitDepth t q g = (d, false)) (hrel : s.release t.core w.tid w.p q .sy = (s1, none))
    (hoffer : s1.offer w (originOf w q (Instr.emitr v e r ns).word) t g.target ns 0 false ((List.range 4).map fun k =>
      (k, ((maskLanes (q.active w.sl)).filter fun l => (run.place (q.bV r l)).map Prod.snd == some k).map fun l =>
        mkRec { target := g.target, type := g.type, depth := d, prio := g.prio, cont := false, trank := s1.rank.toNat,
                join := none, srcNode := t.node, srcLane := l, cls := g.cls } (q.payloadOf v l))) = .done s2 n false)
    (hs2 : s2.stuck = false) :
    exec (.emitr v e r ns) s0 = .next (s0.after (.emitr v e r ns) w
      (s2.modParty w.tid w.p fun q => q.modSlot w.sl fun x => { x with took := n })) := by
  have hplaced : ((maskLanes (q.active w.sl)).find? fun l => (run.place (q.bV r l)).isNone) = none :=
    List.find?_eq_none.2 fun l hl => by
      obtain ⟨k, hk⟩ := hat l hl
      simp [hk]
  rw [exec_emitr]
  refine runTeam_done h ?_ hs2
  simp only [he, hrun, hplaced, hd, hrel, Bool.false_eq_true, if_false]
  refine emitRecs_of_accepted (fun x hx => ?_) ?_
  · obtain ⟨l, hl, hx⟩ := List.mem_filterMap.1 hx
    obtain ⟨k, hk⟩ := hat l hl
    rw [hk] at hx
    cases hx
    rfl
  · rw [← hoffer]
    congr 2
    funext k
    exact congrArg (Prod.mk k) (filter_place_map (mk := fun p l =>
      mkRec { target := g.target, type := g.type, depth := d, prio := g.prio, cont := false, trank := p.1,
              join := none, srcNode := t.node, srcLane := l, cls := g.cls } (q.payloadOf v l)) hat fun _ _ => rfl)

end

/-- Settles O43: the groups that are offered, and the instruction issued again. -/
theorem emissions : Obligations.Emissions := by
  refine ⟨?emit, ?emitr, ?again⟩
  case emit =>
    intro v e j ns s0 w s t q g d s1 s2 n i recs h hw he hj hd hrel hoffer hs2
    exact exec_emit_of_accepted h hw he hj hd hrel rfl hoffer hs2
  case emitr =>
    intro v e r ns s0 w s t q g run d s1 s2 n i at_ rec_ h hw he hrun hat hd hrel hoffer hs2
    exact exec_emitr_of_accepted h hw he hrun hat hd hrel hoffer hs2
  case again =>
    intro s w t q n h hw hem
    refine ⟨fun v e j ns => ?_, fun v e r ns => ?_⟩
    · rw [exec_emit, execEmit, runTeam_of_resumes h]
      simp only [hw, hem, Bool.false_eq_true, if_false, Effect.unstuck_done h.calm]
      rfl
    · rw [exec_emitr, execEmitr, runTeam_of_resumes h]
      simp only [hw, hem, Bool.false_eq_true, if_false, Effect.unstuck_done h.calm]
      rfl

end Sys2Proof.Machine

/-!
PROOFS. Convoys: cvopen, cvstat, cvclose, cvst and cvld (O42).
-/

namespace Sys2Proof.Machine

open Sys2Proof

/-! ## The free slots (R331) -/

/-- A choice takes one of a list that is not empty. -/
theorem pick_of_ne_nil {xs : List Nat} (h : xs ≠ []) (choice : Nat) : ∃ k ∈ xs, pick xs choice = some k := by
  have hlt : choice % xs.length < xs.length := Nat.mod_lt _ (List.length_pos_iff.2 h)
  exact ⟨xs[choice % xs.length], List.getElem_mem hlt, List.getElem?_eq_getElem hlt⟩

section

variable {s0 s s1 s2 s3 : State} {w : Issuer} {t : Team} {q : Party} {d : SReg} {a : SReg} {c : CvSlot}

theorem State.freeCvSlot_of_exists {core : Nat} (h : ∃ k, k < 16 ∧ Map.find s.cvSlots (cvKey core k) = none) :
    ∃ k, k < 16 ∧ Map.find s.cvSlots (cvKey core k) = none ∧ s.freeCvSlot core = some k := by
  obtain ⟨k, hk, hfree⟩ := h
  obtain ⟨m, hm, hpick⟩ := pick_of_ne_nil (List.ne_nil_of_mem (List.mem_filter.2 ⟨List.mem_range.2 hk, by simp [hfree]⟩ :
    k ∈ (List.range 16).filter fun k => (Map.find s.cvSlots (cvKey core k)).isNone)) (Config.convoyChoice s.free)
  obtain ⟨hm, hnone⟩ := List.mem_filter.1 hm
  exact ⟨m, List.mem_range.1 hm, Option.isNone_iff_eq_none.1 hnone, hpick⟩

theorem State.freeTableSlot_of_exists (h : ∃ n, n ∈ List.range' 1 4095 ∧ Map.find s.cvTable n = none) :
    ∃ n, n ∈ List.range' 1 4095 ∧ Map.find s.cvTable n = none ∧ s.freeTableSlot = some n := by
  obtain ⟨n, hn, hfree⟩ := h
  obtain ⟨m, hm, hpick⟩ := pick_of_ne_nil (List.ne_nil_of_mem (List.mem_filter.2 ⟨hn, by simp [hfree]⟩ :
    n ∈ (List.range' 1 4095).filter fun n => (Map.find s.cvTable n).isNone)) (Config.convoyChoice (s.free + 1))
  obtain ⟨hm, hnone⟩ := List.mem_filter.1 hm
  exact ⟨m, hm, Option.isNone_iff_eq_none.1 hnone, hpick⟩

/-! ## cvopen (R331) -/

/-- A view's token names its slot alone. -/
theorem tokenOf_view {k : Nat} (h : k < 16) : tokenOf true k 0 = BitVec.ofNat 32 (2 ^ 31 + 2 ^ 24 * k) := by
  have : ∀ k < 16, tokenOf true k 0 = BitVec.ofNat 32 (2 ^ 31 + 2 ^ 24 * k) := by decide
  exact this k h

theorem exec_cvopen_of_view (h : Executes (.cvopen d a true) s0 w s t q) (ho : s.opening t.core w = none)
    (hfree : ∃ k, k < 16 ∧ Map.find s.cvSlots (cvKey t.core k) = none) :
    ∃ k, k < 16 ∧ Map.find s.cvSlots (cvKey t.core k) = none ∧
      exec (.cvopen d a true) s0 = .next (s0.after (.cvopen d a true) w (({ s with
        free := s.free + 1
        cvSlots := Map.set s.cvSlots (cvKey t.core k) (openedSlot s w.tid true 0 0) } : State).modParty w.tid w.p fun q =>
          q.setS w.sl d.toNat (BitVec.ofNat 32 (2 ^ 31 + 2 ^ 24 * k)))) := by
  obtain ⟨k, hk, hnone, hpick⟩ := State.freeCvSlot_of_exists hfree
  refine ⟨k, hk, hnone, ?_⟩
  rw [exec_cvopen]
  refine runTeam_done h ?_ h.calm
  simp only [ho, hpick, Bool.not_true, Bool.false_and, Bool.false_eq_true, if_false, if_true]
  rw [← tokenOf_view hk]
  rfl

/-- The home that cvopen names is of the team's run. -/
theorem cvopen_home_known {home : Nat} {view : Bool} (h : a = 0 ∨ home ∈ s.memberRanks t) :
    ¬(!view && a != 0 && !(s.memberRanks t).contains home) = true := fun hc => by
  simp only [Bool.and_eq_true, bne_iff_ne, Bool.not_eq_true', List.contains_eq_mem, decide_eq_false_iff_not] at hc
  exact h.elim hc.1.2 hc.2

theorem exec_cvopen_of_home (h : Executes (.cvopen d a false) s0 w s t q) (ho : s.opening t.core w = none)
    (hhome : a = 0 ∨ (fld (q.getS w.sl a.toNat) 0 12).toNat = s.rank.toNat ∧ s.rank.toNat ∈ s.memberRanks t)
    (hfree : ∃ k, k < 16 ∧ Map.find s.cvSlots (cvKey t.core k) = none)
    (htable : ∃ n, n ∈ List.range' 1 4095 ∧ Map.find s.cvTable n = none) :
    ∃ k n, k < 16 ∧ Map.find s.cvSlots (cvKey t.core k) = none ∧ n ∈ List.range' 1 4095 ∧ Map.find s.cvTable n = none ∧
      let ver := Store.read s.cvVersions n + 1
      let cid := BitVec.ofNat 24 (4096 * s.rank.toNat + n)
      exec (.cvopen d a false) s0 = .next (s0.after (.cvopen d a false) w (({ s with
        free := s.free + 2
        cvTable := Map.set s.cvTable n .opened
        cvOpeners := Map.set s.cvOpeners n s.rank.toNat
        cvVersions := Store.write s.cvVersions n ver
        cvSlots := Map.set s.cvSlots (cvKey t.core k) (openedSlot s w.tid false cid ver) } : State).modParty w.tid w.p fun q =>
          q.setS w.sl d.toNat (tokenOf false k cid))) := by
  obtain ⟨k, hk, hnone, hpick⟩ := State.freeCvSlot_of_exists hfree
  obtain ⟨n, hn, hnnone, hnpick⟩ := State.freeTableSlot_of_exists htable
  have hown : (if a = 0 then s.rank.toNat else (fld (q.getS w.sl a.toNat) 0 12).toNat) = s.rank.toNat := by
    by_cases ha : a = 0
    · exact if_pos ha
    · exact (if_neg ha).trans (hhome.resolve_left ha).1
  refine ⟨k, n, hk, hnone, hn, hnnone, ?_⟩
  rw [exec_cvopen]
  refine runTeam_done h ?_ h.calm
  simp only [ho, hown, if_neg (cvopen_home_known (hhome.imp_right And.right)), hpick, State.allocConvoy, hnpick, Option.map_some,
    Bool.false_eq_true, if_false, if_true]
  rfl

theorem exec_cvopen_of_away (h : Executes (.cvopen d a false) s0 w s t q) (ho : s.opening t.core w = none) {home : Nat}
    (hhome : home = (fld (q.getS w.sl a.toNat) 0 12).toNat) (ha : a ≠ 0) (haway : home ≠ s.rank.toNat)
    (hmem : home ∈ s.memberRanks t) (hfree : ∃ k, k < 16 ∧ Map.find s.cvSlots (cvKey t.core k) = none) :
    ∃ k, k < 16 ∧ Map.find s.cvSlots (cvKey t.core k) = none ∧
      exec (.cvopen d a false) s0 = .next (((({ s with
        free := s.free + 1
        cvSlots := Map.set s.cvSlots (cvKey t.core k)
          { openedSlot s w.tid false (BitVec.ofNat 24 (4096 * home)) 0 with state := .idle, opener := some (w.p, w.sl) } } :
            State).request w.tid (some w.p) none (originOf w q (Instr.cvopen d a false).word) home 0 .cvopen).1).waitOn w .cvopen) := by
  obtain ⟨k, hk, hnone, hpick⟩ := State.freeCvSlot_of_exists hfree
  subst hhome
  refine ⟨k, hk, hnone, ?_⟩
  rw [exec_cvopen]
  refine runTeam_wait h rfl ?_ ((State.request_stuck ..).trans h.calm)
  simp only [ho, if_neg ha, if_neg haway, if_neg (cvopen_home_known (.inr hmem)), hpick, Bool.false_eq_true, if_false]
  rfl

theorem exec_cvopen_of_answered {view : Bool} {key : Nat} (h : Executes (.cvopen d a view) s0 w s t q)
    (ho : s.opening t.core w = some (key, c)) (hc : c.state ≠ .idle) :
    exec (.cvopen d a view) s0 = .next (s0.after (.cvopen d a view) w (({ s with
      cvSlots := Map.set s.cvSlots (cvKey t.core (key % 16)) { c with opener := none } } : State).modParty w.tid w.p fun q =>
        q.setS w.sl d.toNat (tokenOf view (key % 16) c.cid))) := by
  rw [exec_cvopen]
  refine runTeam_done h ?_ h.calm
  simp only [ho, if_neg hc]

/-! ## cvstat (R332) -/

variable {tok : SReg}

theorem exec_cvstat_of_free (h : Executes (.cvstat d tok) s0 w s t q)
    (hc : ∀ c, Map.find s.cvSlots (cvKey t.core (tokenSlot (q.getS w.sl tok.toNat))) = some c → c.state = .idle) :
    exec (.cvstat d tok) s0 = .next (s0.after (.cvstat d tok) w (s.modParty w.tid w.p fun q => q.setS w.sl d.toNat 0)) := by
  rw [exec_cvstat]
  refine runTeam_done h ?_ h.calm
  dsimp only
  split
  · rfl
  · next c hfind => exact if_pos (hc c hfind)

theorem exec_cvstat_of_held (h : Executes (.cvstat d tok) s0 w s t q)
    (hfind : Map.find s.cvSlots (cvKey t.core (tokenSlot (q.getS w.sl tok.toNat))) = some c) (hstate : c.state ≠ .idle)
    (htid : c.tid = w.tid) (hview : c.view = tokenView (q.getS w.sl tok.toNat)) :
    exec (.cvstat d tok) s0 = .next (s0.after (.cvstat d tok) w (s.modParty w.tid w.p fun q' => q'.setS w.sl d.toNat
      (if c.cid = tokenCid (q.getS w.sl tok.toNat) then cvStatus false c.lost c.state c.lines.length else 0))) := by
  have hmine : ¬(c.tid ≠ w.tid ∨ c.view ≠ tokenView (q.getS w.sl tok.toNat)) := fun hc => hc.elim (· htid) (· hview)
  rw [exec_cvstat]
  refine runTeam_done h ?_ h.calm
  simp only [hfind, if_neg hstate, if_neg hmine]
  by_cases hcid : c.cid = tokenCid (q.getS w.sl tok.toNat)
  · rw [if_pos hcid, if_neg (not_not_intro hcid)]
  · rw [if_neg hcid, if_pos hcid]

/-! ## cvclose (R333) -/

/-- What a token names is of the kind asked for. -/
theorem State.named_kind {core tid : Nat} {x : Word} {view : Bool} (h : s.named core tid x view = some c) : c.view = view := by
  unfold State.named at h
  split at h
  · split at h
    · next hk =>
      cases h
      exact hk.2.1
    · cases h
  · cases h

/-- The status of a view that closes. -/
theorem cvStatus_view (lost : Bool) : cvStatus true lost .idle 0 = 0x80000000 ||| when lost 0x40000000 := by
  cases lost <;> rfl

theorem exec_cvclose_of_view (h : Executes (.cvclose d tok) s0 w s t q) (hview : tokenView (q.getS w.sl tok.toNat) = true)
    (hn : s.named t.core w.tid (q.getS w.sl tok.toNat) true = some c)
    (hread : ∀ r ∈ t.parties, ∀ a ∈ r.2.accesses,
      ¬(a.kind = .cvld ∧ a.view = cvKey t.core (tokenSlot (q.getS w.sl tok.toNat)))) :
    exec (.cvclose d tok) s0 = .next (s0.after (.cvclose d tok) w (({ s with
      cvSlots := Map.drop s.cvSlots (cvKey t.core (tokenSlot (q.getS w.sl tok.toNat))) } : State).modParty w.tid w.p fun q =>
        q.setS w.sl d.toNat (0x80000000 ||| when c.lost 0x40000000))) := by
  have hnone : ¬(t.parties.any fun r => r.2.accesses.any fun a =>
      a.kind == .cvld && a.view == cvKey t.core (tokenSlot (q.getS w.sl tok.toNat))) = true := fun hc => by
    obtain ⟨r, hr, hc⟩ := List.any_eq_true.1 hc
    obtain ⟨a, ha, hc⟩ := List.any_eq_true.1 hc
    exact hread r hr a ha (by simpa using hc)
  rw [exec_cvclose]
  refine runTeam_done h ?_ h.calm
  simp only [hview, hn, State.named_kind hn, if_neg hnone, if_true, cvStatus_view]

theorem exec_cvclose_of_convoy (h : Executes (.cvclose d tok) s0 w s t q)
    (hview : tokenView (q.getS w.sl tok.toNat) = false) (hn : s.named t.core w.tid (q.getS w.sl tok.toNat) false = some c)
    (hopen : c.state = .opened) (hclosing : c.closing = none) (haway : s.closingAway c = false)
    (hrel : s.release t.core w.tid w.p q .sy = (s1, none)) {o : Origin} (ho : o = originOf w q (Instr.cvclose d tok).word)
    (hs2 : s2 = c.linePeers.foldl (fun s r => (s.request w.tid (some w.p) none o r 0 (.cvprepare c.cid c.ver)).1)
      { s1 with nextId := s1.nextId + 1 }) (hcalm : s2.stuck = false) :
    exec (.cvclose d tok) s0 = .next (s0.after (.cvclose d tok) w (({ s2 with
      cvSlots := Map.set s2.cvSlots (cvKey t.core (tokenSlot (q.getS w.sl tok.toNat)))
        ({ c with closing := some { op := s1.nextId, p := w.p, sd := d.toNat, origin := o } } : CvSlot) } : State).modParty
          w.tid w.p fun q => { q with pending := q.pending ++ [{ kind := 1, num := d.toNat, op := s1.nextId }] })) := by
  have hgood : ¬(c.state ≠ .opened ∨ c.closing.isSome = true) := fun hc => hc.elim (· hopen) fun hc => by simp [hclosing] at hc
  subst ho
  rw [exec_cvclose]
  refine runTeam_done h ?_ hcalm
  subst hs2
  simp only [hview, hn, State.named_kind hn, if_neg hgood, haway, hrel, Bool.false_eq_true, if_false]
  rfl

/-! ## cvst and cvld (R329, R334) -/

variable {v : VReg} {b : BOp} {o : Option Ord} {pol : Policy} {z : Size} {ls : List LaneAcc}

/-- The state after the sectors that a cvst covers are cleaned. -/
def State.cleanCovered (s : State) (c : CvSlot) (ks : List Nat) : State :=
  ks.foldl (fun s k =>
    match s.settle (64 * k) with
    | (s, none, pa) => s.cleanPending c.cid c.ver (pa / 64)
    | (s, some _, _) => s) s

section

variable (h : Executes (.cvst v a b o pol z tok) s0 w s t q) (hacq : q.acquiring = false)
  (hn : s.named t.core w.tid (q.getS w.sl tok.toNat) false = some c) (hopen : c.state = .opened) (hclosing : c.closing = none)
  (hbad : badAddress (s.tagOf t) (Size.bytes z) (q.eaLanes w.sl a b) = none)
  (htr : s.translateStores t.core (s.tagOf t) (s.privileged t) (q.eaLanes w.sl a b) .cvstore = (s1, .ok ls))
  (hconf : s1.conflicts q true ls (Size.bytes z) = false) (hdev : s1.devHold w.tid w.p q ls = false)
  (hheld : s1.heldLines ls = false)
  (hrel : (if (OrdForm.store.eff o).str = .rel then s1.release t.core w.tid w.p q (OrdForm.store.eff o).scope else (s1, none)) =
    (s2, none))

include h hacq hn hopen hclosing hbad htr hconf hdev hheld hrel

theorem exec_cvst_of_no_lane (hact : q.active w.sl = 0) (hs2 : s2.stuck = false) :
    exec (.cvst v a b o pol z tok) s0 = .next (s0.after (.cvst v a b o pol z tok) w s2) := by
  have hgood : ¬(c.state ≠ .opened ∨ c.closing.isSome = true) := fun hc => hc.elim (· hopen) fun hc => by simp [hclosing] at hc
  have hempty : (q.eaLanes w.sl a b).isEmpty = true := List.isEmpty_iff.2 (eaLanes_eq_nil.2 hact)
  rw [exec_cvst]
  refine runTeam_done h ?_ hs2
  simp only [hacq, hn, if_neg hgood, hbad, htr, hconf, hdev, hheld, hrel, hempty, Bool.or_self, Bool.false_eq_true, if_false, if_true]

theorem exec_cvst_of_lanes (hact : q.active w.sl ≠ 0) {stores : List (Target × Nat × Nat)}
    (hst : stores = ls.filterMap fun y => y.tgt.map fun g => (g, y.va, (q.storeData z v.toNat y.lane).toNat))
    (hlanes : s2.convoyLanes t.core w.tid w.p (cvKey t.core (tokenSlot (q.getS w.sl tok.toNat)))
      (originOf w q (Instr.cvst v a b o pol z tok).word) (Size.bytes z) stores = (s3, none))
    (hs : (s3.cleanCovered c (coveredSectors (Size.bytes z) stores)).stuck = false) :
    exec (.cvst v a b o pol z tok) s0 = .next (s0.after (.cvst v a b o pol z tok) w
      ((s3.cleanCovered c (coveredSectors (Size.bytes z) stores)).modParty w.tid w.p fun q =>
        q.raise ((OrdForm.store.eff o).warn ||| lanesPolicy pol ls))) := by
  have hgood : ¬(c.state ≠ .opened ∨ c.closing.isSome = true) := fun hc => hc.elim (· hopen) fun hc => by simp [hclosing] at hc
  have hne : (q.eaLanes w.sl a b).isEmpty = false := by simpa using mt eaLanes_eq_nil.1 hact
  subst hst
  rw [exec_cvst]
  refine runTeam_done h ?_ hs
  simp only [hacq, hn, if_neg hgood, hbad, htr, hconf, hdev, hheld, hrel, hne, hlanes, Bool.or_self, Bool.false_eq_true, if_false]
  rfl

end

section

variable (h : Executes (.cvld v a b o pol z tok) s0 w s t q) (hacq : q.acquiring = false)
  (hn : s.named t.core w.tid (q.getS w.sl tok.toNat) true = some c)

include h hacq hn

theorem exec_cvld_of_no_lane (hact : q.active w.sl = 0) :
    exec (.cvld v a b o pol z tok) s0 = .next (s0.after (.cvld v a b o pol z tok) w s) := by
  have hempty : (q.eaLanes w.sl a b).isEmpty = true := List.isEmpty_iff.2 (eaLanes_eq_nil.2 hact)
  rw [exec_cvld]
  refine runTeam_done h ?_ h.calm
  simp only [hacq, hn, hempty, Bool.false_eq_true, if_false, if_true]

theorem exec_cvld_of_lanes (hact : q.active w.sl ≠ 0)
    (hbad : badAddress (s.tagOf t) (Size.bytes z) (q.eaLanes w.sl a b) = none)
    (htr : s.translateStores t.core (s.tagOf t) (s.privileged t) (q.eaLanes w.sl a b) .cvload = (s1, .ok ls))
    (hs1 : s1.stuck = false) (hconf : s1.conflicts q false ls (Size.bytes z) = false) :
    exec (.cvld v a b o pol z tok) s0 = .next (s0.after (.cvld v a b o pol z tok) w
      (({ s1 with nextId := s1.nextId + 1 } : State).addAccess w
        { newAccess (.cvld v a b o pol z tok) w q s1.nextId .cvld v.toNat z o pol ls with
          view := cvKey t.core (tokenSlot (q.getS w.sl tok.toNat)) })) := by
  have hne : (q.eaLanes w.sl a b).isEmpty = false := by simpa using mt eaLanes_eq_nil.1 hact
  rw [exec_cvld]
  refine runTeam_done h ?_ hs1
  simp only [hacq, hn, hne, hbad, htr, hconf, Bool.false_eq_true, if_false]
  rfl

end

end

/-- Settles O42: by the instruction, and by where the convoy or view stands. -/
theorem convoysIssue : Obligations.ConvoysIssue := by
  refine ⟨?view, ?home, ?away, ?answered, ?stat, ?closeView, ?closeConvoy, ?store, ?load⟩
  case view => exact fun _ _ _ _ _ _ _ h ho hfree => exec_cvopen_of_view h ho hfree
  case home => exact fun _ _ _ _ _ _ _ h ho hhome hfree htable => exec_cvopen_of_home h ho hhome hfree htable
  case away =>
    intro d a s0 w s t q h ho home ha haway hmem hfree
    exact exec_cvopen_of_away h ho rfl ha haway hmem hfree
  case answered => exact fun _ _ _ _ _ _ _ _ _ _ h ho hc => exec_cvopen_of_answered h ho hc
  case stat =>
    intro d tok s0 w s t q h x slot gives
    refine ⟨fun hnone => exec_cvstat_of_free h fun c hc => ?_, fun c hfind => ⟨fun hidle => exec_cvstat_of_free h fun c' hc' => ?_,
      fun hstate htid hview => exec_cvstat_of_held h hfind hstate htid hview⟩⟩
    · exact nomatch hc.symm.trans hnone
    · obtain rfl := Option.some.inj (hc'.symm.trans hfind)
      exact hidle
  case closeView => exact fun _ _ _ _ _ _ _ _ h hview hn hread => exec_cvclose_of_view h hview hn hread
  case closeConvoy =>
    intro d tok s0 w s t q c s1 i h hview hn hopen hclosing haway hrel hs1 o s2 hs2
    exact exec_cvclose_of_convoy h hview hn hopen hclosing haway hrel rfl rfl hs2
  case store =>
    intro d a b o pol z tok s0 w s t q c s1 s2 s3 ls i e stores h hacq hn hopen hclosing hbad htr hconf hdev hheld hrel
    exact ⟨exec_cvst_of_no_lane h hacq hn hopen hclosing hbad htr hconf hdev hheld hrel, fun hact hlanes hs =>
      exec_cvst_of_lanes h hacq hn hopen hclosing hbad htr hconf hdev hheld hrel hact rfl hlanes hs⟩
  case load =>
    intro d a b o pol z tok s0 w s t q c i h hacq hn
    exact ⟨exec_cvld_of_no_lane h hacq hn, fun s1 ls hact hbad htr hs1 hconf =>
      exec_cvld_of_lanes h hacq hn hact hbad htr hs1 hconf⟩

end Sys2Proof.Machine

/-!
PROOFS. The values of atomics and reductions (O37): operands combined, then applied to the element once (R316 to R319).
-/

namespace Sys2Proof.Machine

open Sys2Proof

/-! ## Folds that keep one of their values -/

section

variable {α : Type} {D : α → Prop} {R : α → α → Prop} {g : α → α → α}

/-- A fold whose step keeps the better of two values keeps the best of all, from a first one on. -/
theorem foldl_keeps (hrefl : ∀ a, D a → R a a) (htrans : ∀ {a b c}, R a b → R b c → R a c)
    (hg : ∀ {a b}, D a → D b → g a b = a ∧ R a b ∨ g a b = b ∧ R b a) {xs : List α} {x : α} (hx : ∀ y ∈ x :: xs, D y) :
    xs.foldl g x ∈ x :: xs ∧ ∀ y ∈ x :: xs, R (xs.foldl g x) y := by
  induction xs generalizing x with
  | nil =>
    refine ⟨List.mem_cons_self, fun y hy => ?_⟩
    obtain rfl := List.mem_singleton.1 hy
    exact hrefl _ (hx _ List.mem_cons_self)
  | cons b t ih =>
    obtain ⟨hdx, hdb, hdt⟩ : D x ∧ D b ∧ ∀ y ∈ t, D y := by simpa using hx
    have hstep := hg hdx hdb
    have hd : D (g x b) := by rcases hstep with ⟨he, -⟩ | ⟨he, -⟩ <;> rw [he] <;> assumption
    obtain ⟨hmem, hall⟩ := ih (x := g x b) (List.forall_mem_cons.2 ⟨hd, hdt⟩)
    have hr := hall _ List.mem_cons_self
    have hxb : R (t.foldl g (g x b)) x ∧ R (t.foldl g (g x b)) b := by
      rcases hstep with ⟨he, hk⟩ | ⟨he, hk⟩
      · rw [he] at hr ⊢
        exact ⟨hr, htrans hr hk⟩
      · rw [he] at hr ⊢
        exact ⟨htrans hr hk, hr⟩
    refine ⟨?_, List.forall_mem_cons.2 ⟨hxb.1,
      List.forall_mem_cons.2 ⟨hxb.2, fun y hy => hall y (List.mem_cons_of_mem _ hy)⟩⟩⟩
    rw [List.foldl_cons]
    rcases List.mem_cons.1 hmem with he | hm
    · rw [he]
      rcases hstep with ⟨hs, -⟩ | ⟨hs, -⟩ <;> rw [hs] <;> simp
    · exact List.mem_cons_of_mem _ (List.mem_cons_of_mem _ hm)

end

/-! ## Least and greatest (R247, R316) -/

/-- A floating-point type of an atomic. -/
def ATy.float (ty : ATy) : Prop := ty = .f32 ∨ ty = .f64

/-- The value of an element of an integer type. -/
def atomVal (ty : ATy) (n : Nat) : Int := if ty = .i32 ∨ ty = .i64 then (BitVec.ofNat (8 * atyBytes ty) n).toInt else n

theorem atyFmt_standard (ty : ATy) : (atyFmt ty).Standard := by
  unfold atyFmt
  split <;> exact ⟨⟨by decide, by decide⟩, rfl, by decide⟩

/-- The codes of a type's elements. -/
theorem atyFmt_bits {ty : ATy} : 1 + (atyFmt ty).ebits + (atyFmt ty).mbits = 8 * atyBytes ty := by
  cases ty <;> rfl

theorem atomMinMax_int {ty : ATy} (hty : ¬ATy.float ty) (larger : Bool) {a b : Nat} (ha : a < 2 ^ (8 * atyBytes ty))
    (hb : b < 2 ^ (8 * atyBytes ty)) : atomMinMax ty larger a b =
      if larger then (if atomVal ty a < atomVal ty b then b else a) else (if atomVal ty b < atomVal ty a then b else a) := by
  have hsext : ∀ {n}, n < 2 ^ (8 * atyBytes ty) → sextNat (8 * atyBytes ty) n = (BitVec.ofNat (8 * atyBytes ty) n).toInt :=
    fun hn => sextNat_eq_toInt (by cases ty <;> decide) hn
  cases ty with
  | f32 => exact absurd (.inl rfl) hty
  | f64 => exact absurd (.inr rfl) hty
  | i32 => simp only [atomMinMax, atomVal, hsext ha, hsext hb, true_or, if_true]
  | i64 => simp only [atomMinMax, atomVal, hsext ha, hsext hb, or_true, if_true]
  | n32 => rfl
  | n64 => rfl

/-- The order in which a least or greatest integer comes first. -/
def beats (ty : ATy) (larger : Bool) (a b : Nat) : Prop :=
  if larger then atomVal ty b ≤ atomVal ty a else atomVal ty a ≤ atomVal ty b

theorem atomMinMax_beats {ty : ATy} (hty : ¬ATy.float ty) (larger : Bool) {a b : Nat} (ha : a < 2 ^ (8 * atyBytes ty))
    (hb : b < 2 ^ (8 * atyBytes ty)) : atomMinMax ty larger a b = a ∧ beats ty larger a b ∨
      atomMinMax ty larger a b = b ∧ beats ty larger b a := by
  rw [atomMinMax_int hty larger ha hb]
  unfold beats
  cases larger
  all_goals
    simp only [Bool.false_eq_true, if_false, if_true]
    split
    · next h => exact .inr ⟨rfl, h.le⟩
    · next h => exact .inl ⟨rfl, not_lt.1 h⟩

theorem beats_trans {ty : ATy} {larger : Bool} {a b c : Nat} (h : beats ty larger a b) (h' : beats ty larger b c) :
    beats ty larger a c := by
  cases larger with
  | false => exact le_trans h h'
  | true => exact le_trans h' h

theorem atomMinMax_float {ty : ATy} (hty : ATy.float ty) (larger : Bool) (a b : Nat) : atomMinMax ty larger a b =
    (minMax (atyFmt ty) larger (a, (atyFmt ty).unpack a) (b, (atyFmt ty).unpack b)).1 := by
  rcases hty with rfl | rfl <;> rfl

theorem unpack_canonNaN (ty : ATy) : ((atyFmt ty).unpack (canonNaN (atyFmt ty))).isNan = true := by
  cases ty <;> decide

theorem canonNaN_lt (ty : ATy) : canonNaN (atyFmt ty) < 2 ^ (8 * atyBytes ty) := by
  cases ty <;> decide

/-- With a NaN among the two, the canonical NaN. -/
theorem atomMinMax_of_nan {ty : ATy} (hty : ATy.float ty) (larger : Bool) {a b : Nat}
    (h : ((atyFmt ty).unpack a).isNan = true ∨ ((atyFmt ty).unpack b).isNan = true) :
    atomMinMax ty larger a b = canonNaN (atyFmt ty) := by
  rw [atomMinMax_float hty, minMax, if_pos (by simpa using h), nanCode_false]

/-- A NaN among the values of a fold ends in a NaN. -/
theorem foldl_atomMinMax_nan {ty : ATy} (hty : ATy.float ty) (larger : Bool) {xs : List Nat} {x : Nat}
    (h : ∃ y ∈ x :: xs, ((atyFmt ty).unpack y).isNan = true) :
    ((atyFmt ty).unpack (xs.foldl (atomMinMax ty larger) x)).isNan = true := by
  induction xs generalizing x with
  | nil => simpa using h
  | cons b t ih =>
    refine ih ?_
    by_cases hxb : ((atyFmt ty).unpack x).isNan = true ∨ ((atyFmt ty).unpack b).isNan = true
    · exact ⟨_, List.mem_cons_self, by rw [atomMinMax_of_nan hty larger hxb, unpack_canonNaN]⟩
    · obtain ⟨y, hy, hn⟩ := h
      have : y ∈ t := by
        rcases List.mem_cons.1 hy with rfl | hy
        · exact absurd (.inl hn) hxb
        · rcases List.mem_cons.1 hy with rfl | hy
          · exact absurd (.inr hn) hxb
          · exact hy
      exact ⟨y, List.mem_cons_of_mem _ this, hn⟩

/-! ## The operands combined (R318, R319) -/

/-- The combined operand of a list of values. -/
def combined (op : AOp) (ty : ATy) (xs : List Nat) : Option (Int × Nat) :=
  xs.foldl (fun acc x => some (redMerge op ty acc x)) none

/-- What one value makes of another under an operation that is no floating-point sum. -/
def applied (op : AOp) (ty : ATy) (a x : Nat) : Nat := redResult op ty a ((x : Int), 0)

theorem redMerge_none {op : AOp} (ty : ATy) (hop : op ≠ .fadd) (x : Nat) : redMerge op ty none x = ((x : Int), 0) := by
  cases op with
  | fadd => exact absurd rfl hop
  | _ => rfl

theorem redMerge_some {op : AOp} (ty : ATy) (hop : op ≠ .fadd) (a x : Nat) :
    redMerge op ty (some ((a : Int), 0)) x = ((applied op ty a x : Int), 0) := by
  cases op with
  | fadd => exact absurd rfl hop
  | _ => rfl

/-- Beside floating-point sums, combining is the operation folded over the values. -/
theorem combined_cons {op : AOp} {ty : ATy} (hop : op ≠ .fadd) (x : Nat) (xs : List Nat) :
    combined op ty (x :: xs) = some (((xs.foldl (applied op ty) x : Nat) : Int), 0) := by
  have key (ys : List Nat) (y : Nat) : ys.foldl (fun acc x => some (redMerge op ty acc x)) (some ((y : Int), 0)) =
      some (((ys.foldl (applied op ty) y : Nat) : Int), 0) := by
    induction ys generalizing y with
    | nil => rfl
    | cons z t ih => rw [List.foldl_cons, redMerge_some ty hop, ih, List.foldl_cons]
  rw [combined, List.foldl_cons, redMerge_none ty hop, key]

/-- The element under the operation, with the operands of a list combined. -/
def reduced (op : AOp) (ty : ATy) (old : Nat) (xs : List Nat) : Nat :=
  match combined op ty xs with
  | some c => redResult op ty old c
  | none => old

theorem reduced_cons {op : AOp} {ty : ATy} (hop : op ≠ .fadd) (old x : Nat) (xs : List Nat) :
    reduced op ty old (x :: xs) = applied op ty old (xs.foldl (applied op ty) x) := by
  rw [reduced, combined_cons hop]
  rfl

/-- An associative operation folds over the operands in order. -/
theorem reduced_of_assoc {op : AOp} {ty : ATy} (hop : op ≠ .fadd) {f : Nat → Nat → Nat}
    (hassoc : ∀ a b c, f (f a b) c = f a (f b c)) (hf : ∀ a x, applied op ty a x = f a x) (old x : Nat) (xs : List Nat) :
    reduced op ty old (x :: xs) = (x :: xs).foldl f old := by
  have : Std.Associative f := ⟨hassoc⟩
  rw [reduced_cons hop, show applied op ty = f from funext fun a => funext (hf a), List.foldl_cons, List.foldl_assoc]

/-- Sums wrap. -/
theorem reduced_add (ty : ATy) (old x : Nat) (xs : List Nat) :
    reduced .add ty old (x :: xs) = (old :: x :: xs).sum % 2 ^ (8 * atyBytes ty) := by
  have key (ys : List Nat) (y : Nat) : ys.foldl (applied .add ty) y % 2 ^ (8 * atyBytes ty) = (y + ys.sum) % 2 ^ (8 * atyBytes ty) := by
    induction ys generalizing y with
    | nil => simp
    | cons z t ih =>
      rw [List.foldl_cons, ih, List.sum_cons, ← Nat.add_assoc]
      exact Nat.mod_add_mod _ _ _
  rw [reduced_cons (by decide), List.sum_cons, List.sum_cons]
  show (old + xs.foldl (applied .add ty) x) % _ = _
  rw [Nat.add_mod, key, ← Nat.add_mod]

section

variable {op : AOp} {ty : ATy} {larger : Bool} {old x : Nat} {xs : List Nat}
  (hop : applied op ty = atomMinMax ty larger) (hne : op ≠ .fadd)

include hop hne

/-- The least or the greatest of integers. -/
theorem reduced_minMax_int (hty : ¬ATy.float ty) (hall : ∀ y ∈ old :: x :: xs, y < 2 ^ (8 * atyBytes ty)) :
    reduced op ty old (x :: xs) ∈ old :: x :: xs ∧ ∀ y ∈ old :: x :: xs, beats ty larger (reduced op ty old (x :: xs)) y := by
  have hstep {a b : Nat} (ha : a < 2 ^ (8 * atyBytes ty)) (hb : b < 2 ^ (8 * atyBytes ty)) :=
    atomMinMax_beats hty larger ha hb
  have hrefl : ∀ a, a < 2 ^ (8 * atyBytes ty) → beats ty larger a a := fun a _ => by cases larger <;> exact le_refl _
  obtain ⟨hold, hxs⟩ := List.forall_mem_cons.1 hall
  obtain ⟨hmem, hbeats⟩ := foldl_keeps hrefl beats_trans hstep hxs
  rw [reduced_cons hne, hop]
  generalize xs.foldl (atomMinMax ty larger) x = m at hmem hbeats
  rcases hstep hold (hxs m hmem) with ⟨he, hk⟩ | ⟨he, hk⟩
  · rw [he]
    exact ⟨List.mem_cons_self, List.forall_mem_cons.2 ⟨hrefl old hold, fun y hy => beats_trans hk (hbeats y hy)⟩⟩
  · rw [he]
    exact ⟨List.mem_cons_of_mem _ hmem, List.forall_mem_cons.2 ⟨hk, hbeats⟩⟩

/-- The least or the greatest of floating-point numbers. -/
theorem reduced_minMax_float (hty : ATy.float ty) (hall : ∀ y ∈ old :: x :: xs, ((atyFmt ty).unpack y).isNan = false) :
    reduced op ty old (x :: xs) ∈ old :: x :: xs ∧ ∀ y ∈ old :: x :: xs,
      Keeps larger ((atyFmt ty).unpack (reduced op ty old (x :: xs))) ((atyFmt ty).unpack y) := by
  have hstep {a b : Nat} (ha : ((atyFmt ty).unpack a).isNan = false) (hb : ((atyFmt ty).unpack b).isNan = false) :
      atomMinMax ty larger a b = a ∧ Keeps larger ((atyFmt ty).unpack a) ((atyFmt ty).unpack b) ∨
        atomMinMax ty larger a b = b ∧ Keeps larger ((atyFmt ty).unpack b) ((atyFmt ty).unpack a) := by
    rw [atomMinMax_float hty]
    exact minMax_keeps _ larger (a := (a, (atyFmt ty).unpack a)) (b := (b, (atyFmt ty).unpack b)) ha hb
  obtain ⟨hold, hxs⟩ := List.forall_mem_cons.1 hall
  obtain ⟨hmem, hkeeps⟩ := foldl_keeps (R := fun a b => Keeps larger ((atyFmt ty).unpack a) ((atyFmt ty).unpack b))
    (fun a _ => Keeps.refl larger _) (fun h h' => h.trans h') hstep hxs
  rw [reduced_cons hne, hop]
  generalize xs.foldl (atomMinMax ty larger) x = m at hmem hkeeps
  rcases hstep hold (hxs m hmem) with ⟨he, hk⟩ | ⟨he, hk⟩
  · rw [he]
    exact ⟨List.mem_cons_self, List.forall_mem_cons.2 ⟨Keeps.refl larger _, fun y hy => hk.trans (hkeeps y hy)⟩⟩
  · rw [he]
    exact ⟨List.mem_cons_of_mem _ hmem, List.forall_mem_cons.2 ⟨hk, hkeeps⟩⟩

/-- With a NaN among the values, the canonical NaN. -/
theorem reduced_minMax_nan (hty : ATy.float ty) (h : ∃ y ∈ old :: x :: xs, ((atyFmt ty).unpack y).isNan = true) :
    reduced op ty old (x :: xs) = canonNaN (atyFmt ty) := by
  rw [reduced_cons hne, hop]
  refine atomMinMax_of_nan hty larger ?_
  obtain ⟨y, hy, hn⟩ := h
  rcases List.mem_cons.1 hy with rfl | hy
  · exact .inl hn
  · exact .inr (foldl_atomMinMax_nan hty larger ⟨y, hy, hn⟩)

end

/-! ## Floating-point sums (R317, R319) -/

/-- What a combined operand notes of a special addend: a NaN, either infinity, and that not all addends are −0. -/
def addendBits (n : Num) : Nat :=
  match n with
  | .nan .. => 9
  | .inf false => 10
  | .inf true => 12
  | .fin n m _ => if n && m == 0 then 0 else 8

theorem redMerge_fadd (ty : ATy) (acc : Option (Int × Nat)) (x : Nat) : redMerge .fadd ty acc x =
    ((acc.getD (0, 0)).1 + scaled (-1074) ((atyFmt ty).unpack x),
      Nat.lor (acc.getD (0, 0)).2 (addendBits ((atyFmt ty).unpack x))) := by
  unfold redMerge
  generalize acc.getD (0, 0) = c
  obtain ⟨v, sp⟩ := c
  dsimp only
  cases (atyFmt ty).unpack x with
  | nan s n => exact Prod.ext (add_zero v).symm rfl
  | inf n => cases n <;> exact Prod.ext (add_zero v).symm rfl
  | fin n m e =>
    refine Prod.ext rfl ?_
    show (if (n && m == 0) = true then sp else Nat.lor sp 8) = Nat.lor sp (if (n && m == 0) = true then 0 else 8)
    split
    · exact (Nat.or_zero sp).symm
    · rfl

/-- What a list of addends notes, from a first note on. -/
def notedOver (b : Nat) (ns : List Num) : Nat := ns.foldl (fun b n => Nat.lor b (addendBits n)) b

theorem testBit_notedOver (ns : List Num) (b i : Nat) :
    (notedOver b ns).testBit i = (b.testBit i || ns.any fun n => (addendBits n).testBit i) := by
  induction ns generalizing b with
  | nil => simp [notedOver]
  | cons n t ih =>
    rw [notedOver, List.foldl_cons]
    refine (ih (Nat.lor b (addendBits n))).trans ?_
    rw [List.any_cons, ← Bool.or_assoc]
    exact congrArg (· || _) (Nat.testBit_or b (addendBits n) i)

theorem combined_fadd_cons (ty : ATy) (x : Nat) (xs : List Nat) :
    let ns := (x :: xs).map (atyFmt ty).unpack
    combined .fadd ty (x :: xs) = some (totalOver (-1074) 0 ns, notedOver 0 ns) := by
  have key (ys : List Nat) (c : Int × Nat) : ys.foldl (fun acc x => some (redMerge .fadd ty acc x)) (some c) =
      some (totalOver (-1074) c.1 (ys.map (atyFmt ty).unpack), notedOver c.2 (ys.map (atyFmt ty).unpack)) := by
    induction ys generalizing c with
    | nil => rfl
    | cons z t ih =>
      rw [List.foldl_cons, ih, redMerge_fadd]
      rfl
  rw [combined, List.foldl_cons, key, redMerge_fadd]
  rfl

/-- The numbers that a sum adds: the element, the infinities and NaNs among the addends, and the exact sum of the others. -/
def sumParts (old : Num) (ns : List Num) : List Num :=
  [old] ++ (if ns.any Num.isNan then [.nan false false] else []) ++ (if Num.inf false ∈ ns then [.inf false] else []) ++
    (if Num.inf true ∈ ns then [.inf true] else []) ++
    [ofScaled (ns.all fun n => n.isZero && n.neg) (totalOver (-1074) 0 ns) (-1074)]

theorem testBit_addendBits (n : Num) : (addendBits n).testBit 0 = n.isNan ∧ (addendBits n).testBit 1 = (n == .inf false) ∧
    (addendBits n).testBit 2 = (n == .inf true) ∧ (addendBits n).testBit 3 = !(n.isZero && n.neg) := by
  cases n with
  | nan s n => cases s <;> cases n <;> decide
  | inf n => cases n <;> decide
  | fin n m e =>
    have hz : (Num.fin n m e).isZero = (m == 0) := rfl
    rw [hz, addendBits]
    cases n <;> cases m == 0 <;> exact ⟨rfl, rfl, rfl, rfl⟩

/-- A sum is rounded once. -/
theorem reduced_fadd (ty : ATy) (old x : Nat) (xs : List Nat) : reduced .fadd ty old (x :: xs) =
    (roundFloat (atyFmt ty) .rne false false
      (sumNum false (sumParts ((atyFmt ty).unpack old) ((x :: xs).map (atyFmt ty).unpack))).1).1 := by
  have hcomb := combined_fadd_cons ty x xs
  generalize (x :: xs).map (atyFmt ty).unpack = ns at hcomb ⊢
  have bit (k : Nat) : (notedOver 0 ns / 2 ^ k % 2 = 1) ↔ (ns.any fun n => (addendBits n).testBit k) = true := by
    rw [← decide_eq_true_iff (p := _ = 1), ← Nat.testBit_eq_decide_div_mod_eq, testBit_notedOver, Nat.zero_testBit, Bool.false_or]
  have hnan : notedOver 0 ns % 2 = 1 ↔ ns.any Num.isNan = true := by
    have := bit 0
    simpa only [pow_zero, Nat.div_one, fun n => (testBit_addendBits n).1] using this
  have hpinf : notedOver 0 ns / 2 % 2 = 1 ↔ Num.inf false ∈ ns := by
    refine (bit 1).trans (List.any_eq_true.trans ?_)
    simp [testBit_addendBits]
  have hninf : notedOver 0 ns / 4 % 2 = 1 ↔ Num.inf true ∈ ns := by
    refine (bit 2).trans (List.any_eq_true.trans ?_)
    simp [testBit_addendBits]
  have hall : (notedOver 0 ns / 8 % 2 == 0) = ns.all fun n => n.isZero && n.neg := by
    have h8 := bit 3
    rw [Bool.eq_iff_iff, beq_iff_eq, List.all_eq_true]
    simp only [List.any_eq_true, fun n => (testBit_addendBits n).2.2.2, Bool.not_eq_true', Nat.reducePow] at h8
    rw [← Nat.mod_two_ne_one, ne_eq, h8]
    simp
  rw [reduced, hcomb]
  simp only [redResult, hnan, hpinf, hninf, hall, sumParts]

/-! ## A sum rounded once (R317) -/

section

variable {old : Num} {ns : List Num}

theorem nan_mem_sumParts : (∃ n ∈ sumParts old ns, n.isNan = true) ↔ ∃ n ∈ old :: ns, n.isNan = true := by
  have hsum : ∀ z v e, (ofScaled z v e).isNan = false := fun z v e => by unfold ofScaled; split <;> rfl
  have hinf (neg : Bool) : (Num.inf neg).isNan = false := rfl
  by_cases hany : ns.any Num.isNan = true
  · have hany' := List.any_eq_true.1 hany
    simp only [sumParts, hany, if_true, List.mem_append, List.mem_cons]
    exact ⟨fun _ => hany'.imp fun _ h => ⟨.inr h.1, h.2⟩, fun _ => ⟨.nan false false, by simp, rfl⟩⟩
  · have hnone : ¬∃ n ∈ ns, n.isNan = true := fun h => hany (List.any_eq_true.2 h)
    simp only [sumParts, if_neg hany, List.mem_append, List.mem_cons, List.mem_ite_nil_right, List.not_mem_nil, or_false]
    constructor
    · rintro ⟨n, (((rfl | ⟨-, rfl⟩) | ⟨-, rfl⟩) | rfl), hn⟩
      · exact ⟨_, .inl rfl, hn⟩
      · cases hn
      · cases hn
      · rw [hsum] at hn
        cases hn
    · rintro ⟨n, rfl | hm, hn⟩
      · exact ⟨_, .inl (.inl (.inl rfl)), hn⟩
      · exact absurd ⟨n, hm, hn⟩ hnone

theorem inf_mem_sumParts (neg : Bool) : Num.inf neg ∈ sumParts old ns ↔ Num.inf neg ∈ old :: ns := by
  have hsum : ∀ z v e, Num.inf neg ≠ ofScaled z v e := fun z v e => by unfold ofScaled; split <;> exact Num.noConfusion
  cases neg <;> simp [sumParts, hsum]

theorem sumParts_of_finite (h : ∀ n ∈ ns, ∃ s m e, n = .fin s m e) :
    sumParts old ns = [old, ofScaled (ns.all fun n => n.isZero && n.neg) (totalOver (-1074) 0 ns) (-1074)] := by
  have hnan : ns.any Num.isNan = false := by
    rw [List.any_eq_false]
    rintro n hn
    obtain ⟨s, m, e, rfl⟩ := h n hn
    exact Bool.false_ne_true
  have hinf (neg : Bool) : Num.inf neg ∉ ns := fun hn => by
    obtain ⟨s, m, e, he⟩ := h _ hn
    cases he
  simp [sumParts, hnan, hinf]

/-- The exact sum of a list of finite numbers has their value, and its zero their sign. -/
theorem ofScaled_totalOver (h : ∀ n ∈ ns, (∃ s m e, n = .fin s m e) ∧ -1074 ≤ n.exp) :
    let part := ofScaled (ns.all fun n => n.isZero && n.neg) (totalOver (-1074) 0 ns) (-1074)
    (∃ s m e, part = .fin s m e) ∧ ratOf part = (ns.map ratOf).sum ∧
      (part.isZero && part.neg) = ns.all fun n => n.isZero && n.neg := by
  intro part
  have htotal := totalOver_eq (fun n hn => (h n hn).1) (fun n hn => (h n hn).2) 0
  obtain ⟨s, m, e, hpart, hval, hzero, hne⟩ := ofScaled_spec (ns.all fun n => n.isZero && n.neg) (totalOver (-1074) 0 ns) (-1074)
  rw [show part = .fin s m e from hpart]
  rw [Int.cast_zero, zero_mul, zero_add] at htotal
  refine ⟨⟨s, m, e, rfl⟩, hval.trans htotal, ?_⟩
  by_cases hv : totalOver (-1074) 0 ns = 0
  · obtain ⟨rfl, rfl⟩ := hzero hv
    rfl
  · have hm := (hne hv).1
    have hall : (ns.all fun n => n.isZero && n.neg) ≠ true := fun hall => by
      refine hv ?_
      have hsum : (ns.map ratOf).sum = 0 := by
        refine List.sum_eq_zero fun x hx => ?_
        obtain ⟨n, hn, rfl⟩ := List.mem_map.1 hx
        obtain ⟨hz, -⟩ := Bool.and_eq_true_iff.1 (List.all_eq_true.1 hall n hn)
        obtain ⟨s, m, e, rfl⟩ := (h n hn).1
        simp [ratOf, show m = 0 from beq_iff_eq.1 hz]
      have hpow : (0 : ℝ) < 2 ^ (-1074 : Int) := by positivity
      exact Int.cast_eq_zero.1 ((mul_eq_zero.1 (htotal.trans hsum)).resolve_right hpow.ne')
    rw [Bool.eq_false_of_not_eq_true hall]
    simp [Num.isZero, hm]

end

/-- The codes of an atomic's types have no bit below 2^−1074. -/
theorem le_exp_unpack (ty : ATy) (x : Nat) : -1074 ≤ ((atyFmt ty).unpack x).exp := by
  have hfmt : (atyFmt ty).special = .ieee ∧ -1074 ≤ 1 - ((atyFmt ty).bias : Int) - (atyFmt ty).mbits := by
    cases ty <;> decide
  generalize atyFmt ty = f at hfmt
  obtain ⟨hieee, hleast⟩ := hfmt
  unfold FloatFmt.unpack
  simp only [hieee, true_and, reduceCtorEq, false_and, if_false]
  split
  · split <;> exact (by decide : (-1074 : Int) ≤ 0)
  · split
    · exact hleast
    · next h0 =>
      refine hleast.trans ?_
      show (1 : Int) - f.bias - f.mbits ≤ ((x >>> f.mbits % 2 ^ f.ebits : Nat) : Int) - f.bias - f.mbits
      omega

section

variable {f : FloatFmt} {old : Num} {ns : List Num}

/-- A sum rounded once, by the kinds of its addends. -/
theorem roundFloat_sumParts (hf : f.Standard) (hexp : ∀ n ∈ ns, -1074 ≤ n.exp) :
    let y := roundFloat f .rne false false (sumNum false (sumParts old ns)).1
    let all := old :: ns
    let nan := ∃ n ∈ all, n.isNan = true
    (nan ∨ (Num.inf true ∈ all ∧ Num.inf false ∈ all) → y.1 = canonNaN f) ∧
    (∀ neg, ¬nan → Num.inf neg ∈ all → Num.inf (!neg) ∉ all → y.1 = f.infCode neg) ∧
    ((∀ n ∈ all, ∃ s m e, n = .fin s m e) →
      let sum := (all.map ratOf).sum
      (∀ neg, sum ≠ 0 → (neg = true ↔ sum < 0) → RoundsTo f .rne false false neg sum y) ∧
      (sum = 0 → IsCode f (all.all fun n => n.isZero && n.neg) 0 y.1)) := by
  intro y all nan
  refine ⟨fun h => ?_, fun neg hnan h h' => ?_, fun h => ?_⟩
  · show (roundFloat ..).1 = _
    rw [sumNum_of_invalid _ (h.imp nan_mem_sumParts.2 fun h => ⟨(inf_mem_sumParts _).2 h.1, (inf_mem_sumParts _).2 h.2⟩),
      roundFloat_nan (by rw [hf.ieee]; decide), nanCode_false]
  · rw [← inf_mem_sumParts] at h h'
    show (roundFloat ..).1 = _
    rw [sumNum_of_inf _ _ (mt nan_mem_sumParts.1 hnan) h h', roundFloat_inf_ieee hf.ieee, if_neg Bool.false_ne_true]
  · obtain ⟨hold, hns⟩ := List.forall_mem_cons.1 h
    obtain ⟨hfin, hval, hsign⟩ := ofScaled_totalOver (ns := ns) fun n hn => ⟨hns n hn, hexp n hn⟩
    have hparts := sumParts_of_finite (old := old) hns
    generalize ofScaled (ns.all fun n => n.isZero && n.neg) (totalOver (-1074) 0 ns) (-1074) = part at hfin hval hsign hparts
    obtain ⟨v, e, hsum, hnum⟩ := sumNum_of_finite (ns := [old, part]) false
      (List.forall_mem_cons.2 ⟨hold, List.forall_mem_singleton.2 hfin⟩)
    have hrat : ((old :: ns).map ratOf).sum = v * 2 ^ e := by
      rw [← hsum, List.map_cons, List.sum_cons, ← hval]
      simp
    have hy : y = roundFloat f .rne false false (ofScaled ((old :: ns).all fun n => n.isZero && n.neg) v e) := by
      show roundFloat _ _ _ _ _ = _
      rw [hparts, hnum, Bool.false_or, List.all_cons, List.all_cons, List.all_nil, Bool.and_true, hsign]
      rfl
    have hpow : (0 : ℝ) < 2 ^ e := by positivity
    intro sum
    rw [show sum = v * 2 ^ e from hrat, hy]
    refine ⟨fun neg hne hneg => ?_, fun h0 => ?_⟩
    · have hv : v ≠ 0 := fun h0 => hne (by rw [h0, Int.cast_zero, zero_mul])
      obtain ⟨m, hm, hfin, hval⟩ := ratOf_ofScaled ((old :: ns).all fun n => n.isZero && n.neg) hv e
      have hsign : decide (v < 0) = neg := by
        rw [Bool.eq_iff_iff, decide_eq_true_iff, hneg, ← zero_mul ((2 : ℝ) ^ e), mul_lt_mul_iff_left₀ hpow, Int.cast_lt_zero]
      rw [hfin, roundFloat_fin, if_neg hm, ← hval, hsign]
      exact roundsTo_roundFinite hf.regular hm e .rne false false neg
    · have hv : v = 0 := by
        rw [mul_eq_zero, Int.cast_eq_zero] at h0
        exact h0.resolve_right hpow.ne'
      rw [hv, ofScaled, if_pos rfl]
      exact (roundFloat_zero hf.regular .rne false false _ 0).1

end

/-! ## The results (R316, R317) -/

/-- The operation is one that combines operands, on a type that it is for. -/
def Combines (op : AOp) (ty : ATy) : Prop :=
  op ≠ .exch ∧ op ≠ .cas ∧ (op = .add → ¬ATy.float ty) ∧ (op = .fadd → ATy.float ty)

theorem nan_mem_map_unpack {ty : ATy} {all : List Nat} : (∃ n ∈ all.map (atyFmt ty).unpack, n.isNan = true) ↔
    ∃ y ∈ all, ((atyFmt ty).unpack y).isNan = true := by
  simp

/-- The rows of the least and the greatest. -/
theorem appliedOnce_minMax (op : AOp) {ty : ATy} {larger : Bool} (hop : applied op ty = atomMinMax ty larger) (hne : op ≠ .fadd)
    {old x : Nat} {xs : List Nat} (hall : ∀ y ∈ old :: x :: xs, y < 2 ^ (8 * atyBytes ty)) :
    let all := old :: x :: xs
    let ns := all.map (atyFmt ty).unpack
    let nan := ∃ n ∈ ns, n.isNan = true
    let new := reduced op ty old (x :: xs)
    (¬ATy.float ty → new ∈ all ∧ ∀ y ∈ all, beats ty larger new y) ∧
    (ATy.float ty → (nan → new = canonNaN (atyFmt ty)) ∧
      (¬nan → new ∈ all ∧ ∀ n ∈ ns, Keeps larger ((atyFmt ty).unpack new) n)) := by
  refine ⟨fun hty => reduced_minMax_int hop hne hty hall, fun hty =>
    ⟨fun hnan => reduced_minMax_nan hop hne hty (nan_mem_map_unpack.1 hnan), fun hnan => ?_⟩⟩
  obtain ⟨hmem, hkeeps⟩ := reduced_minMax_float (xs := xs) hop hne hty (old := old) (x := x) fun y hy =>
    Bool.eq_false_of_not_eq_true fun hn => hnan (nan_mem_map_unpack.2 ⟨y, hy, hn⟩)
  exact ⟨hmem, List.forall_mem_map.2 hkeeps⟩

/-- The element with combined operands is what the operation makes of it. -/
theorem appliedOnce_reduced {op : AOp} {ty : ATy} (hop : Combines op ty) {old x : Nat} {xs : List Nat}
    (hall : ∀ y ∈ old :: x :: xs, y < 2 ^ (8 * atyBytes ty)) : AppliedOnce op ty old (x :: xs) (reduced op ty old (x :: xs)) := by
  obtain ⟨hexch, hcas, -, -⟩ := hop
  cases op with
  | exch => exact absurd rfl hexch
  | cas => exact absurd rfl hcas
  | add => exact reduced_add ty old x xs
  | and => exact reduced_of_assoc (by decide) Nat.land_assoc (fun _ _ => rfl) old x xs
  | or => exact reduced_of_assoc (by decide) Nat.lor_assoc (fun _ _ => rfl) old x xs
  | xor => exact reduced_of_assoc (by decide) Nat.xor_assoc (fun _ _ => rfl) old x xs
  | min => exact appliedOnce_minMax .min (larger := false) rfl (by decide) hall
  | max => exact appliedOnce_minMax .max (larger := true) rfl (by decide) hall
  | fadd =>
    obtain ⟨hinv, hinf, hfin⟩ := roundFloat_sumParts (old := (atyFmt ty).unpack old) (ns := (x :: xs).map (atyFmt ty).unpack)
      (atyFmt_standard ty) (List.forall_mem_map.2 fun y _ => le_exp_unpack ty y)
    refine ⟨fun h => (reduced_fadd ty old x xs).trans (hinv h), fun neg hnan h h' => ?_, fun h => ?_⟩
    · rw [reduced_fadd]
      exact (congrArg _ (hinf neg hnan h h')).trans (FloatFmt.unpack_infCode (atyFmt_standard ty).ieee neg)
    · obtain ⟨hround, hzero⟩ := hfin h
      rw [reduced_fadd]
      exact ⟨fun neg hne hneg => ⟨_, hround neg hne hneg⟩, hzero⟩

theorem atomNew_eq_reduced {op : AOp} (hexch : op ≠ .exch) (hcas : op ≠ .cas) (ty : ATy) (old c x : Nat) :
    atomNew op ty old c x = reduced op ty old [x] := by
  cases op with
  | exch => exact absurd rfl hexch
  | cas => exact absurd rfl hcas
  | _ => rfl

/-- Settles O37: one operand is a combined operand of one lane; the rows of the integers are the operation's own. -/
theorem atomicResults : Obligations.AtomicResults := by
  unfold Obligations.AtomicResults
  refine ⟨fun op ty old c x hty hop hold hx => ?_, fun ty old c x => ⟨rfl, rfl⟩, fun op ty old c x hty hop => ?_⟩
  · simp only [List.mem_cons, List.not_mem_nil, or_false, not_or] at hty hop
    obtain ⟨hadd, hexch, hcas⟩ := hop
    rw [atomNew_eq_reduced hexch hcas]
    exact appliedOnce_reduced ⟨hexch, hcas, fun h => absurd h hadd, fun _ => hty⟩
      (List.forall_mem_cons.2 ⟨hold, List.forall_mem_singleton.2 hx⟩)
  · intro b signed v hold hc hx
    have hfloat : ¬ATy.float ty := by
      rintro (rfl | rfl) <;> simp at hty
    have hv : v = atomVal ty := by
      funext n
      cases ty <;> rfl
    rw [hv]
    cases op with
    | fadd => exact absurd rfl hop
    | min => exact (atomMinMax_int hfloat false hold hx).trans (if_neg Bool.false_ne_true)
    | max => exact (atomMinMax_int hfloat true hold hx).trans (if_pos rfl)
    | _ => rfl

end Sys2Proof.Machine

/-!
PROOFS. Atomics and reductions (O38): an atomic's lanes after its checks, and a reduction's on the local store (R315 to R323).
-/

namespace Sys2Proof.Machine

open Sys2Proof

/-! ## Elements of a store of bytes -/

theorem bytesFrom_congr {m m' : Store 8} {a n : Nat} (h : ∀ k, a ≤ k → k < a + n → Store.read m k = Store.read m' k) :
    bytesFrom m a n = bytesFrom m' a n := by
  induction n generalizing a with
  | zero => rfl
  | succ n ih =>
    rw [bytesFrom, bytesFrom, h a le_rfl (by omega), ih fun k hk hk' => h k (by omega) (by omega)]

theorem bytesFrom_lt (m : Store 8) (a n : Nat) : bytesFrom m a n < 2 ^ (8 * n) := by
  induction n generalizing a with
  | zero => exact Nat.one_pos
  | succ n ih =>
    have hb := (Store.read m a).isLt
    have ht := ih (a + 1)
    rw [bytesFrom, Nat.mul_succ, pow_add]
    omega

/-- An element reads back what was written at its place. -/
theorem bytesFrom_writeBytes (m : Store 8) (a : Nat) {n v : Nat} (hv : v < 2 ^ (8 * n)) :
    bytesFrom (writeBytes m (withAddr a (toBytes n v))) a n = v := by
  induction n generalizing m a v with
  | zero => exact (Nat.lt_one_iff.1 hv).symm
  | succ n ih =>
    rw [Nat.mul_succ, pow_add] at hv
    have hfirst : Store.read (writeBytes m (withAddr a (toBytes (n + 1) v))) a = BitVec.ofNat 8 v := by
      rw [toBytes, withAddr, writeBytes, read_write_outside _ _ _ _ (.inl (Nat.lt_succ_self a)), Store.read_write, if_pos rfl]
    rw [bytesFrom, hfirst, toBytes, withAddr, writeBytes, ih _ _ (show v / 256 < 2 ^ (8 * n) by omega), BitVec.toNat_ofNat]
    omega

/-! ## Operations on the local store -/

/-- One operation on an element of the local store. -/
def Team.lsUpdate (t : Team) (n a : Nat) (g : Nat → Nat) : Team :=
  { t with ls := writeBytes t.ls (withAddr a (toBytes n (g (t.lsRead a n)))) }

theorem Team.lsAtom_eq (t : Team) (op : AOp) (ty : ATy) (a : Nat) (k : AtomLane) :
    t.lsAtom op ty a k = t.lsUpdate (atyBytes ty) a fun old => atomNew op ty old k.c k.x := rfl

theorem Team.lsCombined_eq (t : Team) {op : AOp} {ty : ATy} (a : Nat) {xs : List Nat} (hxs : xs ≠ []) :
    t.lsCombined op ty a xs = t.lsUpdate (atyBytes ty) a fun old => reduced op ty old xs := by
  obtain ⟨x, xs, rfl⟩ := List.exists_cons_of_ne_nil hxs
  have hsome : ∃ c, combined op ty (x :: xs) = some c := by
    rw [combined, List.foldl_cons]
    generalize redMerge op ty none x = c
    induction xs generalizing c with
    | nil => exact ⟨c, rfl⟩
    | cons y t ih => exact ih (by simp) _
  obtain ⟨c, hc⟩ := hsome
  have hfold : (x :: xs).foldl (fun acc x => some (redMerge op ty acc x)) none = some c := hc
  simp only [Team.lsCombined, hfold, Team.lsUpdate, reduced, hc]

/-- Elements of one width at different aligned places do not overlap. -/
theorem disjoint_of_aligned {a b n : Nat} (ha : a % n = 0) (hb : b % n = 0) (hne : a ≠ b) : a + n ≤ b ∨ b + n ≤ a := by
  obtain ⟨i, rfl⟩ := Nat.dvd_of_mod_eq_zero ha
  obtain ⟨j, rfl⟩ := Nat.dvd_of_mod_eq_zero hb
  rcases lt_trichotomy i j with h | rfl | h
  · exact .inl (by simpa [Nat.mul_succ] using Nat.mul_le_mul_left n (show i + 1 ≤ j from h))
  · exact absurd rfl hne
  · exact .inr (by simpa [Nat.mul_succ] using Nat.mul_le_mul_left n (show j + 1 ≤ i from h))

section

variable {α : Type} (n : Nat) (place : α → Nat) (g : α → Nat → Nat)

/-- Operations on the local store, one after the other. -/
def Team.lsUpdates (t : Team) (xs : List α) : Team := xs.foldl (fun t x => t.lsUpdate n (place x) (g x)) t

variable {n place g}

theorem Team.lsUpdates_frame (t : Team) (xs : List α) : ({ t.lsUpdates n place g xs with ls := t.ls } : Team) = t := by
  induction xs generalizing t with
  | nil => rfl
  | cons x xs ih => exact congrArg (fun u : Team => { u with ls := t.ls }) (ih (t.lsUpdate n (place x) (g x)))

/-- A byte outside every element stays. -/
theorem Team.read_lsUpdates (t : Team) (xs : List α) {k : Nat} (h : ∀ x ∈ xs, k < place x ∨ place x + n ≤ k) :
    Store.read (t.lsUpdates n place g xs).ls k = Store.read t.ls k := by
  induction xs generalizing t with
  | nil => rfl
  | cons x xs ih =>
    obtain ⟨hx, hxs⟩ := List.forall_mem_cons.1 h
    refine (ih (t.lsUpdate n (place x) (g x)) hxs).trans ?_
    exact read_write_outside _ _ _ _ (by rwa [length_toBytes])

/-- An element is what the operations at its place make of it, one after the other. -/
theorem Team.lsRead_lsUpdates (t : Team) (xs : List α) {b : Nat} (hb : b % n = 0) (halign : ∀ x ∈ xs, place x % n = 0)
    (hlt : ∀ x ∈ xs, ∀ old, old < 2 ^ (8 * n) → g x old < 2 ^ (8 * n)) :
    (t.lsUpdates n place g xs).lsRead b n = (xs.filter fun x => place x == b).foldl (fun old x => g x old) (t.lsRead b n) := by
  induction xs generalizing t with
  | nil => rfl
  | cons x xs ih =>
    obtain ⟨hax, haxs⟩ := List.forall_mem_cons.1 halign
    obtain ⟨hgx, hgxs⟩ := List.forall_mem_cons.1 hlt
    refine (ih (t.lsUpdate n (place x) (g x)) haxs hgxs).trans ?_
    by_cases hx : place x = b
    · have hread : (t.lsUpdate n (place x) (g x)).lsRead b n = g x (t.lsRead b n) := by
        rw [hx]
        exact bytesFrom_writeBytes _ _ (hgx _ (bytesFrom_lt _ _ _))
      rw [hread, List.filter_cons_of_pos (by simpa using hx), List.foldl_cons]
    · have hread : (t.lsUpdate n (place x) (g x)).lsRead b n = t.lsRead b n := by
        refine bytesFrom_congr fun k hk hk' => read_write_outside _ _ _ _ ?_
        rw [length_toBytes]
        rcases disjoint_of_aligned hax hb hx with h | h
        · exact .inr (by omega)
        · exact .inl (by omega)
      rw [hread, List.filter_cons_of_neg (by simpa using hx)]

end

/-! ## Operations give elements of their type -/

theorem infCode_lt (ty : ATy) (neg : Bool) : (atyFmt ty).infCode neg < 2 ^ (8 * atyBytes ty) := by
  cases ty <;> cases neg <;> decide

theorem roundFloat_lt (ty : ATy) (r : Rnd) (n : Num) : (roundFloat (atyFmt ty) r false false n).1 < 2 ^ (8 * atyBytes ty) := by
  have hf := atyFmt_standard ty
  cases n with
  | nan s n =>
    rw [roundFloat_nan (by rw [hf.ieee]; decide), nanCode_false]
    exact canonNaN_lt ty
  | inf n =>
    rw [roundFloat_inf_ieee hf.ieee, if_neg Bool.false_ne_true]
    exact infCode_lt ty n
  | fin n m e =>
    rw [← atyFmt_bits]
    exact roundFloat_fin_lt hf.regular r false false n m e

theorem atomMinMax_lt {ty : ATy} (larger : Bool) {a b : Nat} (ha : a < 2 ^ (8 * atyBytes ty)) (hb : b < 2 ^ (8 * atyBytes ty)) :
    atomMinMax ty larger a b < 2 ^ (8 * atyBytes ty) := by
  by_cases hty : ATy.float ty
  · by_cases hnan : ((atyFmt ty).unpack a).isNan = true ∨ ((atyFmt ty).unpack b).isNan = true
    · rw [atomMinMax_of_nan hty larger hnan]
      exact canonNaN_lt ty
    · rw [not_or, Bool.not_eq_true, Bool.not_eq_true] at hnan
      rw [atomMinMax_float hty]
      rcases minMax_keeps (atyFmt ty) larger (a := (a, (atyFmt ty).unpack a)) (b := (b, (atyFmt ty).unpack b)) hnan.1 hnan.2 with
        ⟨he, -⟩ | ⟨he, -⟩
      · rwa [he]
      · rwa [he]
  · rcases atomMinMax_beats hty larger ha hb with ⟨he, -⟩ | ⟨he, -⟩ <;> rwa [he]

theorem applied_lt {op : AOp} (hop : op ≠ .fadd) {ty : ATy} {a x : Nat} (ha : a < 2 ^ (8 * atyBytes ty))
    (hx : x < 2 ^ (8 * atyBytes ty)) : applied op ty a x < 2 ^ (8 * atyBytes ty) := by
  have hmod : (a + x) % 2 ^ (8 * atyBytes ty) < 2 ^ (8 * atyBytes ty) := Nat.mod_lt _ (Nat.two_pow_pos _)
  cases op with
  | fadd => exact absurd rfl hop
  | and => exact Nat.and_lt_two_pow a hx
  | or => exact Nat.or_lt_two_pow ha hx
  | xor => exact Nat.xor_lt_two_pow ha hx
  | min => exact atomMinMax_lt false ha hx
  | max => exact atomMinMax_lt true ha hx
  | _ => exact hmod

theorem reduced_lt (op : AOp) {ty : ATy} {old : Nat} {xs : List Nat} (hold : old < 2 ^ (8 * atyBytes ty))
    (hxs : ∀ x ∈ xs, x < 2 ^ (8 * atyBytes ty)) : reduced op ty old xs < 2 ^ (8 * atyBytes ty) := by
  cases xs with
  | nil => exact hold
  | cons x xs =>
    by_cases hop : op = .fadd
    · rw [hop, reduced_fadd]
      exact roundFloat_lt ty .rne _
    · obtain ⟨hx, ht⟩ := List.forall_mem_cons.1 hxs
      rw [reduced_cons hop]
      refine applied_lt hop hold ?_
      exact List.foldlRecOn xs (motive := fun v => v < 2 ^ (8 * atyBytes ty)) _ hx fun v hv y hy => applied_lt hop hv (ht y hy)

theorem atomNew_lt (op : AOp) {ty : ATy} {old c x : Nat} (hold : old < 2 ^ (8 * atyBytes ty))
    (hx : x < 2 ^ (8 * atyBytes ty)) : atomNew op ty old c x < 2 ^ (8 * atyBytes ty) := by
  by_cases hexch : op = .exch
  · rwa [hexch]
  · by_cases hcas : op = .cas
    · rw [hcas]
      show (if old = c then x else old) < _
      split <;> assumption
    · rw [atomNew_eq_reduced hexch hcas]
      exact reduced_lt op hold (List.forall_mem_singleton.2 hx)

/-- A lane's operand is an element of its type. -/
theorem Party.atomLane_lt (q : Party) (op : AOp) (ty : ATy) (d l : Nat) :
    (q.atomLane op ty d l).x < 2 ^ (8 * atyBytes ty) := by
  have hv (n : Nat) : (if (atyBytes ty == 8) = true then (q.pairV n l).toNat else (q.getV n l).toNat) < 2 ^ (8 * atyBytes ty) := by
    have hpair : (q.pairV n l).toNat < 2 ^ 64 := (q.pairV n l).isLt
    have hone : (q.getV n l).toNat < 2 ^ 32 := (q.getV n l).isLt
    cases ty <;> assumption
  unfold Party.atomLane
  dsimp only
  split <;> exact hv _

/-! ## A reduction's lanes on the local store (R318, R323) -/

/-- The lanes of a reduction, each with its offset, on the local store. -/
def Team.lsReduce (t : Team) (op : AOp) (ty : ATy) (ks : List (Nat × AtomLane)) : Team :=
  if merges op then
    ((ks.map Prod.fst).dedup).foldl (fun t a => t.lsCombined op ty a ((ks.filter fun k => k.1 == a).map fun k => k.2.x)) t
  else ks.foldl (fun t k => t.lsAtom op ty k.1 k.2) t

section

variable {op : AOp} {ty : ATy} {ks : List (Nat × AtomLane)}

/-- Lanes that combine: one operation for each offset named. -/
theorem Team.lsReduce_of_merges (t : Team) (h : merges op = true) : t.lsReduce op ty ks =
    t.lsUpdates (atyBytes ty) id (fun a old => reduced op ty old ((ks.filter fun k => k.1 == a).map fun k => k.2.x))
      (ks.map Prod.fst).dedup := by
  rw [Team.lsReduce, if_pos h]
  refine List.foldl_ext _ _ _ fun u a ha => Team.lsCombined_eq u a ?_
  obtain ⟨k, hk, rfl⟩ := List.mem_map.1 (List.mem_dedup.1 ha)
  exact List.ne_nil_of_mem (List.mem_map_of_mem (List.mem_filter.2 ⟨hk, beq_self_eq_true k.1⟩))

/-- Lanes that do not: one after the other. -/
theorem Team.lsReduce_of_alone (t : Team) (h : merges op = false) : t.lsReduce op ty ks =
    t.lsUpdates (atyBytes ty) Prod.fst (fun k old => atomNew op ty old k.2.c k.2.x) ks := by
  rw [Team.lsReduce, h]
  rfl

theorem Team.lsReduce_frame (t : Team) : ({ t.lsReduce op ty ks with ls := t.ls } : Team) = t := by
  cases h : merges op with
  | true => rw [Team.lsReduce_of_merges t h, Team.lsUpdates_frame]
  | false => rw [Team.lsReduce_of_alone t h, Team.lsUpdates_frame]

theorem Team.read_lsReduce (t : Team) {i : Nat} (h : ∀ k ∈ ks, i < k.1 ∨ k.1 + atyBytes ty ≤ i) :
    Store.read (t.lsReduce op ty ks).ls i = Store.read t.ls i := by
  cases hm : merges op with
  | true =>
    rw [Team.lsReduce_of_merges t hm]
    refine Team.read_lsUpdates t _ fun a ha => ?_
    obtain ⟨k, hk, rfl⟩ := List.mem_map.1 (List.mem_dedup.1 ha)
    exact h k hk
  | false =>
    rw [Team.lsReduce_of_alone t hm]
    exact Team.read_lsUpdates t ks h

section

variable (halign : ∀ k ∈ ks, k.1 % atyBytes ty = 0) (hlt : ∀ k ∈ ks, k.2.x < 2 ^ (8 * atyBytes ty)) {b : Nat}

include halign hlt

/-- An element that lanes combine on. -/
theorem Team.lsRead_lsReduce_of_merges (t : Team) (h : merges op = true) (hb : b ∈ ks.map Prod.fst) :
    (t.lsReduce op ty ks).lsRead b (atyBytes ty) =
      reduced op ty (t.lsRead b (atyBytes ty)) ((ks.filter fun k => k.1 == b).map fun k => k.2.x) := by
  have hplaces : ∀ a ∈ (ks.map Prod.fst).dedup, a % atyBytes ty = 0 := fun a ha => by
    obtain ⟨k, hk, rfl⟩ := List.mem_map.1 (List.mem_dedup.1 ha)
    exact halign k hk
  have hvalues (a : Nat) (_ : a ∈ (ks.map Prod.fst).dedup) (old : Nat) (hold : old < 2 ^ (8 * atyBytes ty)) :=
    reduced_lt op (xs := (ks.filter fun k => k.1 == a).map fun k => k.2.x) hold
      (List.forall_mem_map.2 fun k hk => hlt k (List.mem_filter.1 hk).1)
  have hb' := List.mem_dedup.2 hb
  have hone : (ks.map Prod.fst).dedup.filter (fun a => id a == b) = [b] := by
    rw [show (fun a => id a == b) = (· == b) from rfl, List.filter_beq, List.count_eq_one_of_mem (List.nodup_dedup _) hb']
    rfl
  rw [Team.lsReduce_of_merges t h, Team.lsRead_lsUpdates (place := id) t _ (hplaces b hb') hplaces hvalues, hone]
  rfl

/-- An element that lanes apply to one after the other. -/
theorem Team.lsRead_lsReduce_of_alone (t : Team) (h : merges op = false) (hb : b % atyBytes ty = 0) :
    (t.lsReduce op ty ks).lsRead b (atyBytes ty) =
      (ks.filter fun k => k.1 == b).foldl (fun old k => atomNew op ty old k.2.c k.2.x) (t.lsRead b (atyBytes ty)) := by
  rw [Team.lsReduce_of_alone t h]
  exact Team.lsRead_lsUpdates t ks hb halign fun k hk old hold => atomNew_lt op hold (hlt k hk)

end

end

theorem aligned_of_lsCheck {t : Team} {n : Nat} {as : List (Nat × Nat)} (h : t.lsCheck n as = none) : ∀ x ∈ as, x.2 % n = 0 := by
  intro x hx
  by_contra hne
  have hsome : as.find? (fun a => a.2 % n != 0) ≠ none := fun hnone => by
    have := List.find?_eq_none.1 hnone x hx
    simp [hne] at this
  obtain ⟨y, hy⟩ := Option.ne_none_iff_exists'.1 hsome
  rw [Team.lsCheck, hy] at h
  cases h

/-- The last of some exchanges stays. -/
theorem foldl_exch {α : Type} (f : α → Nat) (xs : List α) (hne : xs ≠ []) (old : Nat) :
    some (xs.foldl (fun _ x => f x) old) = (xs.map f).getLast? := by
  rw [← List.dropLast_append_getLast hne, List.foldl_append, List.map_append, List.getLast?_append]
  rfl

/-! ## lredm -/

section

variable {op : AOp} {ty : ATy} {o : Ord} {d : VReg} {a : SReg} {b : BOp} {s0 s s1 : State} {w : Issuer} {t : Team} {q : Party}
  (h : Executes (.lredm op ty o d a b) s0 w s t q) (hacq : q.acquiring = false)
  (hcheck : t.lsCheck (atyBytes ty) (q.lsLanes w.sl a b) = none)

/-- The lanes of lredm, each with its offset. -/
def Party.lsOperands (q : Party) (sl : Bool) (op : AOp) (ty : ATy) (d : VReg) (a : SReg) (b : BOp) : List (Nat × AtomLane) :=
  (q.lsLanes sl a b).map fun x => (x.2, q.atomLane op ty d.toNat x.1)

theorem Party.filter_lsOperands (q : Party) (sl : Bool) (op : AOp) (ty : ATy) (d : VReg) (a : SReg) (b : BOp) (k : Nat) :
    (q.lsOperands sl op ty d a b).filter (fun x => x.1 == k) =
      ((maskLanes (q.active sl)).filter fun l => q.lsOffset sl a b l == k).map fun l =>
        (q.lsOffset sl a b l, q.atomLane op ty d.toNat l) := by
  simp [Party.lsOperands, Party.lsLanes, List.filter_map, Function.comp_def]

include h hacq hcheck in
/-- lredm applies its lanes to the local store when its release is complete. -/
theorem exec_lredm_of_checked :
    let i := Instr.lredm op ty o d a b
    let e := OrdForm.atomic.eff (some o)
    let wide : Bool := e.scope != .pt && e.scope != .tm
    (if e.str = .rel ∨ e.str = .ar then s.release t.core w.tid w.p q (if wide then .tm else e.scope) else (s, none)) =
      (s1, none) → s1.stuck = false →
    exec i s0 = .next (s0.after i w (if q.active w.sl = 0 then s1 else
      (s1.modTeam w.tid fun t => t.lsReduce op ty (q.lsOperands w.sl op ty d a b)).modParty w.tid w.p fun q =>
        q.raise (e.warn ||| when wide wFALLBK ||| atomWarn op ty true))) := by
  intro i e wide hrel hs
  have hempty : (q.lsLanes w.sl a b).isEmpty = decide (q.active w.sl = 0) := by
    rw [Bool.eq_iff_iff, List.isEmpty_iff, decide_eq_true_iff, lsLanes_eq_nil]
  refine runTeam_done h ?_ (by split <;> exact hs)
  simp only [hacq, hcheck, hempty, Bool.false_eq_true, if_false]
  erw [hrel]
  simp only [decide_eq_true_eq]
  split <;> rfl

end

/-- What lredm leaves on the local store. -/
theorem Team.lsReduce_spec {t : Team} {q : Party} {sl : Bool} (op : AOp) {ty : ATy} {d : VReg} {a : SReg} {b : BOp}
    (hcheck : t.lsCheck (atyBytes ty) (q.lsLanes sl a b) = none) :
    let u := t.lsReduce op ty (q.lsOperands sl op ty d a b)
    ({ u with ls := t.ls } : Team) = t ∧
      (∀ k, (∀ x ∈ q.lsLanes sl a b, k < x.2 ∨ x.2 + atyBytes ty ≤ k) → Store.read u.ls k = Store.read t.ls k) ∧
      ∀ k ∈ maskLanes (q.active sl),
        let at_ := q.lsOffset sl a b k
        let xs := ((maskLanes (q.active sl)).filter fun l => q.lsOffset sl a b l == at_).map fun l => q.atomLane op ty d.toNat l
        let old := t.lsRead at_ (atyBytes ty)
        let new := u.lsRead at_ (atyBytes ty)
        (Combines op ty → AppliedOnce op ty old (xs.map AtomLane.x) new) ∧
        (op = .exch → some new = (xs.map AtomLane.x).getLast?) ∧
        (op = .cas → new = xs.foldl (fun m x => if m = x.c then x.x else m) old) := by
  intro u
  have halign : ∀ k ∈ q.lsOperands sl op ty d a b, k.1 % atyBytes ty = 0 := List.forall_mem_map.2 (aligned_of_lsCheck hcheck)
  have hlt : ∀ k ∈ q.lsOperands sl op ty d a b, k.2.x < 2 ^ (8 * atyBytes ty) :=
    List.forall_mem_map.2 fun x _ => q.atomLane_lt op ty d.toNat x.1
  refine ⟨t.lsReduce_frame, fun k hk => t.read_lsReduce (List.forall_mem_map.2 hk), fun k hk => ?_⟩
  intro at_ xs old new
  have hk' : (at_, q.atomLane op ty d.toNat k) ∈ q.lsOperands sl op ty d a b :=
    List.mem_map.2 ⟨(k, at_), List.mem_map.2 ⟨k, hk, rfl⟩, rfl⟩
  have hfilter := q.filter_lsOperands sl op ty d a b at_
  have halone (hm : merges op = false) : new = xs.foldl (fun m x => atomNew op ty m x.c x.x) old := by
    refine (t.lsRead_lsReduce_of_alone halign hlt hm (halign _ hk')).trans ?_
    rw [hfilter, List.foldl_map, List.foldl_map]
  have hmem : q.atomLane op ty d.toNat k ∈ xs :=
    List.mem_map_of_mem (List.mem_filter.2 ⟨hk, beq_self_eq_true at_⟩)
  refine ⟨fun hop => ?_, fun hop => ?_, fun hop => ?_⟩
  · have hm : merges op = true := by simp [merges, hop.1, hop.2.1]
    have hnew : new = reduced op ty old (xs.map AtomLane.x) := by
      refine (t.lsRead_lsReduce_of_merges halign hlt hm (List.mem_map_of_mem hk')).trans ?_
      rw [hfilter, List.map_map, List.map_map]
      rfl
    have hxs : ∀ x ∈ xs.map AtomLane.x, x < 2 ^ (8 * atyBytes ty) :=
      List.forall_mem_map.2 (List.forall_mem_map.2 fun l _ => q.atomLane_lt op ty d.toNat l)
    rw [hnew]
    obtain ⟨x, ys, hys⟩ := List.exists_cons_of_ne_nil (List.ne_nil_of_mem (List.mem_map_of_mem (f := AtomLane.x) hmem))
    rw [hys] at hxs ⊢
    exact appliedOnce_reduced hop (List.forall_mem_cons.2 ⟨bytesFrom_lt _ _ _, hxs⟩)
  · subst hop
    rw [halone rfl]
    exact foldl_exch AtomLane.x xs (List.ne_nil_of_mem hmem) old
  · subst hop
    exact halone rfl

/-! ## vatom and satom -/

/-- An atomic's effect, its checks passed and its release made. -/
theorem atomicIssues_of_effect {i : Instr} {kind : AccKind} {op : AOp} {ty : ATy} {o : Ord} {dest : Nat}
    {as : Bool → Party → List (Nat × DWord)} {data : Bool → Party → Nat → AtomLane}
    (hexec : ∀ s0, exec i s0 = runTeam i s0 fun w t q s => atomEffect i kind op ty o dest (as w.sl q) (data w.sl q) w t q s) :
    AtomicIssues i kind op ty o dest as data := by
  intro s0 w s t q s1 s2 ls h hacq hbad htrans htgt hcf hdev hheld e hrel
  constructor
  · intro hno hs
    rw [hexec]
    refine runTeam_done h ?_ hs
    simp only [atomEffect, hacq, hbad, htrans, htgt, hcf, hdev, hheld, Bool.or_self, Bool.false_eq_true, if_false]
    erw [hrel]
    simp [hno]
  · intro s4 done hne promotes s3 a hunheld hlanes hs
    have hprom : s2.promote (e.scope == .dvRem && e.str == .acq) = (s3, false) :=
      State.promote_of_unheld (c := promotes) (by rw [Bool.decide_and]; rfl) rfl hunheld
    have hempty : (as w.sl q).isEmpty = false := by simpa using hne
    rw [hexec]
    refine runTeam_done h ?_ (by split <;> exact hs)
    simp only [atomEffect, hacq, hbad, htrans, htgt, hcf, hdev, hheld, Bool.or_self, Bool.false_eq_true, if_false]
    erw [hrel]
    simp only [hempty, Bool.false_eq_true, if_false]
    erw [hprom]
    simp only [Bool.false_eq_true, if_false, State.fresh]
    erw [hlanes]
    rfl

/-! ## vredm -/

section

variable {op : AOp} {ty : ATy} {o : Ord} {d : VReg} {a : SReg} {b : BOp} {s0 s s1 s2 : State} {w : Issuer} {t : Team} {q : Party}
  {ls : List LaneAcc}
  (h : Executes (.vredm op ty o d a b) s0 w s t q) (hacq : q.acquiring = false)
  (hbad : badAddress (s.tagOf t) (atyBytes ty) (q.eaLanes w.sl a b) = none)
  (htrans : s.translateStores t.core (s.tagOf t) (s.privileged t) (q.eaLanes w.sl a b) = (s1, .ok ls))
  (htgt : atomTargets op ty ls = none) (hcf : s1.conflicts q true ls (atyBytes ty) = false)
  (hdev : s1.devHold w.tid w.p q ls = false) (hheld : s1.heldLines ls = false)
  (hrel : (if (OrdForm.atomic.eff (some o)).str = .rel ∨ (OrdForm.atomic.eff (some o)).str = .ar
      then s1.release t.core w.tid w.p q (OrdForm.atomic.eff (some o)).scope else (s1, none)) = (s2, none))

include h hacq hbad htrans htgt hcf hdev hheld hrel

theorem exec_vredm_of_idle (hact : q.active w.sl = 0) (hs : s2.stuck = false) :
    exec (.vredm op ty o d a b) s0 = .next (s0.after (.vredm op ty o d a b) w s2) := by
  refine runTeam_done h ?_ hs
  simp only [hacq, hbad, htrans, htgt, hcf, hdev, hheld, Bool.or_self, Bool.false_eq_true, if_false]
  erw [hrel]
  simp [eaLanes_eq_nil.2 hact]

/-- vredm's lanes enter their queues, or are applied at once. -/
theorem exec_vredm_of_active {s3 : State} (hact : q.active w.sl ≠ 0) :
    let i := Instr.vredm op ty o d a b
    let e := OrdForm.atomic.eff (some o)
    let queue : Bool := e.str == .st || e.str == .rel
    (if queue then s2 else s2.reachLanes ls (atyBytes ty)).hostLanes ls = (s3, none) →
    let promotes : Prop := e.scope = .dvRem ∧ e.str = .acq
    let s4 := if promotes then s3.drainEvery fun _ => true else s3
    (promotes → s4.heldStores = []) →
    let s5 := s4.redLanes t.core w.tid w.p (originOf w q i.word) (e.str == .acq || e.str == .ar) op ty
      (ls.filterMap fun x => x.tgt.map fun g => (g, x.va, q.atomLane op ty d.toNat x.lane))
    let s6 := if queue then s5 else s5.applyReductions fun e => e.owners.contains (w.tid, w.p)
    s6.stuck = false →
    exec i s0 = .next (s0.after i w (s6.modParty w.tid w.p fun q => q.raise (e.warn ||| atomWarn op ty true))) := by
  intro i e queue hhost promotes s4 hunheld s5 s6 hs
  have hprom : s3.promote (e.scope == .dvRem && e.str == .acq) = (s4, false) :=
    State.promote_of_unheld (c := promotes) (by rw [Bool.decide_and]; rfl) rfl hunheld
  have hempty : (q.eaLanes w.sl a b).isEmpty = false := by simpa using mt eaLanes_eq_nil.1 hact
  refine runTeam_done h ?_ hs
  simp only [hacq, hbad, htrans, htgt, hcf, hdev, hheld, Bool.or_self, Bool.false_eq_true, if_false]
  erw [hrel]
  simp only [hempty, Bool.false_eq_true, if_false]
  erw [hhost]
  dsimp only
  erw [hprom]
  rfl

end

/-- Settles O38: the checks and the release make way for the lanes' operations; on the local store, those of one offset are one. -/
theorem atomicsIssue : Obligations.AtomicsIssue := by
  unfold Obligations.AtomicsIssue
  refine ⟨fun op ty o d a b => atomicIssues_of_effect fun _ => rfl, fun op ty o d a b => atomicIssues_of_effect fun _ => rfl, ?_, ?_⟩
  · intro op ty o d a b s0 w s t q s1 s2 ls h hacq hbad htrans htgt hcf hdev hheld i e hrel
    exact ⟨exec_vredm_of_idle h hacq hbad htrans htgt hcf hdev hheld hrel,
      fun s3 hact => exec_vredm_of_active h hacq hbad htrans htgt hcf hdev hheld hrel hact⟩
  · intro op ty o d a b s0 w s t q s1 h hacq hcheck i e wide hrel hs hteam
    have hexec := exec_lredm_of_checked h hacq hcheck hrel hs
    refine ⟨fun hact => hexec.trans (by rw [if_pos hact]), fun hact => ?_⟩
    obtain ⟨hframe, houtside, hvalues⟩ := Team.lsReduce_spec (d := d) op hcheck
    refine ⟨t.lsReduce op ty (q.lsOperands w.sl op ty d a b), ?_, hframe, houtside, fun k hk => ?_⟩
    · refine hexec.trans ?_
      have hupdate : (s1.modTeam w.tid fun t => t.lsReduce op ty (q.lsOperands w.sl op ty d a b)) =
          s1.modTeam w.tid fun _ => t.lsReduce op ty (q.lsOperands w.sl op ty d a b) :=
        State.modTeam_congr hteam rfl
      rw [if_neg hact, hupdate]
    · obtain ⟨hcomb, hexch, hcas⟩ := hvalues k hk
      exact ⟨fun hne hne' hadd hfadd => hcomb ⟨hne, hne', fun hop hty => hadd hop (by simpa [ATy.float] using hty),
        fun hop => by simpa [ATy.float] using hfadd hop⟩, hexch, hcas⟩

end Sys2Proof.Machine

/-!
PROOFS. The events of barriers, of the graph scheduler, of faults and of core gating (O56), one at a time.
-/

namespace Sys2Proof.Machine

open Sys2Proof

/-! ## Phases of barriers (R380, R382) -/

section

variable {s : State} {tid run c b : Nat}

theorem exec_barrierPhaseComplete_team {t : Team} (hfull : s.phaseFull (.team tid b) = true) (ht : Map.find s.teams tid = some t) :
    exec (.barrierPhaseComplete (.team tid b)) s = .next ((if s.meets t b = true then s.modTeam tid fun t =>
      t.meet (s.barrier (.team tid b)) else s).openPhase (.team tid b)) := by
  simp only [exec_barrierPhaseComplete, execBarrierPhaseComplete, hfull, ht, Bool.not_true, Bool.false_eq_true, if_false]

theorem exec_barrierPhaseComplete_cluster (hfull : s.phaseFull (.cluster c b) = true) :
    exec (.barrierPhaseComplete (.cluster c b)) s = .next (s.openPhase (.cluster c b)) :=
  if_pos hfull

theorem exec_barrierPhaseComplete_run {r : Run} (hr : Map.find s.runs run = some r) :
    exec (.barrierPhaseComplete (.run run b)) s = if 1 < r.members.length then .next (s.runPhase run b r)
      else if s.phaseFull (.run run b) = true then .next (s.openPhase (.run run b)) else .next s := by
  simp only [exec_barrierPhaseComplete, execBarrierPhaseComplete, hr]

end

/-! ## Emissions that wait, gathering and placement (R348 to R351, R384 to R387) -/

section

variable {s : State} {id : Nat} {e : Stalled}

theorem exec_stalledEmissionAccept_of_offered (he : (s.stalled.find? fun e => e.id == id) = some e) (hoff : s.offered e = true)
    (hacc : s.canAccept (s.stalled.takeWhile fun x => x.id != id) e.run e.die e.node e.recs.length = true) :
    let s1 : State := { s with stalled := s.stalled.filter fun x => x.id != id }
    exec (.stalledEmissionAccept id) s = .next (match e.peer with
      | none => s1.acceptRecs e.run e.die e.node (some e.cluster) e.recs
      | some (src, agent, seqno) =>
        let s2 := (s1.acceptRecs e.run e.die e.node none e.recs).note src agent seqno 1
        { s2 with sent := s2.sent ++ [Reply.fabric src agent seqno .ack] }) := by
  have hboth : (s.offered e && s.canAccept (olderThan id s.stalled) e.run e.die e.node e.recs.length) = true := by
    rw [hoff]
    exact hacc
  simp only [exec_stalledEmissionAccept, execStalledEmissionAccept, he, hboth, if_true] <;> rfl

end

theorem State.modRun_congr {s : State} {run : Nat} {r : Run} (hr : Map.find s.runs run = some r) {f g : Run → Run} (h : f r = g r) :
    s.modRun run f = s.modRun run g := by
  rw [State.modRun, State.modRun, Map.update_congr hr h]

theorem exec_gatherWindowExpiry_of_due {s : State} {run die node : Nat} {r : Run} {n : Node} {x : QRec} {rest : List QRec}
    (hr : Map.find s.runs run = some r) (hn : r.node? node = some n) (hq : r.nodeQueue die node = x :: rest)
    (hdrain : r.draining = false) (hseed : r.seeded.contains die = true) (hdue : x.since + n.window ≤ s.clk.toNat) :
    exec (.gatherWindowExpiry run die node) s =
      .next (s.modRun run fun r => r.gatherOne die node n.capacity s.tbase) := by
  refine congrArg Host.Outcome.next (State.modRun_congr hr ?_)
  simp only [hn, hq, hdrain, hseed, List.head?_cons, Bool.not_true, Bool.false_eq_true, Nat.not_lt.2 hdue, or_self, if_false]

theorem exec_teamPlacement_of_fit {s : State} {die : Nat} {cores : List Nat} {nos : List Word} {prio stamp run k : Nat} {r : Run}
    {g : Gathered} {n : Node} (hw : s.nextWaiting die = some { prio := prio, stamp := stamp, run := run, which := .inl k })
    (hr : Map.find s.runs run = some r) (hg : r.gathered[k]? = some g) (hn : r.node? g.node = some n)
    (hfit : s.coresFit n r.fn n.group cores = true) (harea : s.areaRoom g = true) (hdie : ∀ c ∈ cores, dieOf c = die)
    (hpref : s.preferred n r.fn g cores = true) (hlen : nos.length = cores.length) (hnodup : nos.Nodup)
    (hnew : ∀ x ∈ nos, x ∉ r.teamNos) :
    exec (.teamPlacement die cores nos) s = .next (s.place run r n k g (cores.zip nos)) := by
  have hany : (cores.any fun c => dieOf c != die) = false := by simpa using hdie
  have hnone : nos.any r.teamNos.contains = false := by simpa using hnew
  simp only [exec_teamPlacement, execTeamPlacement, hw, hr, hg, hn, hfit, harea, hpref, hany, hnone, hlen, hnodup, ne_eq,
    not_true, Bool.not_true, Bool.false_eq_true, decide_true, or_self, if_false]

/-! ## Deadlock (R350) -/

/-- The elements of a list by a key, key after key. -/
theorem flatMap_filter_perm {α : Type} (key : α → Nat) (xs : List α) (n : Nat) :
    ((List.range n).flatMap fun k => xs.filter fun x => key x == k).Perm (xs.filter fun x => key x < n) := by
  induction n with
  | zero => simp
  | succ n ih =>
    rw [List.range_succ, List.flatMap_append, List.flatMap_singleton]
    refine (ih.append_right _).trans ?_
    have hsplit := List.filter_append_perm (fun x => decide (key x < n)) (xs.filter fun x => key x < n + 1)
    rw [List.filter_filter, List.filter_filter] at hsplit
    convert hsplit using 2
    · refine List.filter_congr fun x _ => ?_
      rw [Bool.eq_iff_iff, Bool.and_eq_true, decide_eq_true_iff, decide_eq_true_iff]
      omega
    · refine List.filter_congr fun x _ => ?_
      rw [Bool.eq_iff_iff, Bool.and_eq_true, Bool.not_eq_true', decide_eq_false_iff_not, decide_eq_true_iff, beq_iff_eq]
      omega

theorem State.inFaultOrder_perm (s : State) {es : List Stalled} (h : ∀ e ∈ es, e.party < 16) : (s.inFaultOrder es).Perm es := by
  refine (List.Perm.flatMap_left _ fun p _ => List.filter_append_perm _ _).trans ?_
  refine (flatMap_filter_perm Stalled.party es 16).trans (List.Perm.of_eq ?_)
  rw [List.filter_eq_self]
  exact fun e he => decide_eq_true (h e he)

theorem State.inFaultOrder_pairwise (s : State) (es : List Stalled) :
    (s.inFaultOrder es).Pairwise fun a b => a.party ≤ b.party := by
  have hparty {p : Nat} {f g : Stalled → Bool} {e : Stalled}
      (he : e ∈ ((es.filter fun e => e.party == p).filter f) ++ ((es.filter fun e => e.party == p).filter g)) : e.party = p := by
    rcases List.mem_append.1 he with he | he
    all_goals exact beq_iff_eq.1 (List.mem_filter.1 (List.mem_filter.1 he).1).2
  refine List.pairwise_flatMap.2 ⟨fun p _ => ?_, ?_⟩
  · exact List.pairwise_of_forall_mem_list fun a ha b hb => (hparty ha).trans_le (hparty hb).ge
  · exact List.pairwise_lt_range.imp fun hlt a ha b hb => by
      rw [hparty ha, hparty hb]
      exact hlt.le

section

variable {s : State} {run die : Nat} {nodes : List Nat} (hdead : s.deadlocked run die nodes = true)

include hdead

theorem exec_graphDeadlockDetect_of_new
    (hw : s.deadWatch.find? (fun w => w.1 == run && w.2.1 == die && w.2.2.1 == nodes) = none) :
    exec (.graphDeadlockDetect run die nodes) s = .next { s with deadWatch := (run, die, nodes, s.clk.toNat) :: s.deadWatch } := by
  simp only [exec_graphDeadlockDetect, execGraphDeadlockDetect, hdead, hw, Bool.not_true, Bool.false_eq_true, if_false]

variable {a b since : Nat} {c : List Nat}
  (hw : s.deadWatch.find? (fun w => w.1 == run && w.2.1 == die && w.2.2.1 == nodes) = some (a, b, c, since))

include hw

theorem exec_graphDeadlockDetect_of_early (h : s.clk.toNat < since + 225000) :
    exec (.graphDeadlockDetect run die nodes) s = .next s := by
  simp only [exec_graphDeadlockDetect, execGraphDeadlockDetect, hdead, hw, h, Bool.not_true, Bool.false_eq_true, if_false, if_true]

/-- The emissions into the set fault, those of teams in their order, those of peers after them. -/
theorem exec_graphDeadlockDetect_of_due (h : since + 225000 ≤ s.clk.toNat) :
    let into (e : Stalled) : Bool := e.run == run && e.die == die && nodes.contains e.node
    let s1 : State := { s with
      stalled := s.stalled.filter fun e => !into e
      deadWatch := s.deadWatch.filter fun w => !(w.1 == run && w.2.1 == die && w.2.2.1 == nodes) }
    (∀ e ∈ s.stalled, e.party < 16) →
    ∃ es : List Stalled, es.Perm (s.stalled.filter into) ∧
      es.Pairwise (fun a b => a.peer = none → b.peer = none → a.party ≤ b.party) ∧
      exec (.graphDeadlockDetect run die nodes) s = .next (es.foldl (fun s e => s.deadlockFault die e) s1) := by
  intro into s1 hparty
  have hown (e : Stalled) (he : e ∈ (s.stalled.filter into).filter fun e => e.peer.isNone) : e.party < 16 :=
    hparty e (List.mem_filter.1 (List.mem_filter.1 he).1).1
  have hpeer (e : Stalled) (he : e ∈ (s.stalled.filter into).filter fun e => e.peer.isSome) : e.peer ≠ none :=
    Option.isSome_iff_ne_none.1 (List.mem_filter.1 he).2
  refine ⟨s1.inFaultOrder ((s.stalled.filter into).filter fun e => e.peer.isNone) ++
    (s.stalled.filter into).filter fun e => e.peer.isSome, ?_, ?_, ?_⟩
  · refine ((State.inFaultOrder_perm s1 hown).append_right _).trans ?_
    have hsplit := List.filter_append_perm (fun e : Stalled => e.peer.isNone) (s.stalled.filter into)
    simpa only [Option.not_isNone] using hsplit
  · refine List.pairwise_append.2 ⟨(State.inFaultOrder_pairwise s1 _).imp fun hle _ _ => hle, ?_, ?_⟩
    · exact List.pairwise_of_forall_mem_list fun a ha b _ hnone => absurd hnone (hpeer a ha)
    · exact fun a _ b hb _ hnone => absurd hnone (hpeer b hb)
  · simp only [exec_graphDeadlockDetect, execGraphDeadlockDetect, hdead, hw, Nat.not_lt.2 h, Bool.not_true, Bool.false_eq_true,
      if_false]
    rfl

end

/-! ## Seeding, retirement and faults (R378, R393, R402 to R405, R420) -/

theorem exec_runSeed_of_due {s : State} {run die : Nat} {r : Run} (htrip : s.trip = false) (hr : Map.find s.runs run = some r)
    (hstate : r.state = .held ∨ r.state = .active) (hdrain : r.draining = false) (hstart : r.start.toNat ≤ s.tbase.toNat)
    (hdie : r.me.dies.testBit die = true) (hseed : r.seeded.contains die = false) (hseal : s.sealBlocked r die = false) :
    exec (.runSeed run die) s = .next (s.modRun run fun r =>
      ((seedsFor r.me.dieList die (r.seeds.map seedRec)).foldl
        (fun (r : Run) x => r.accept die (recTarget x) s.clk.toNat none [x])
        { r with state := .active, seeded := die :: r.seeded }).gatherAll s.tbase) := by
  have hst : (r.state == .held || r.state == .active) = true := by simpa using hstate
  simp only [exec_runSeed, execRunSeed, hr, htrip, hst, hdrain, hstart, hdie, hseed, hseal, Bool.not_false, Bool.and_self,
    decide_true, Bool.not_true, Bool.false_eq_true, if_false]

theorem exec_teamRetire_of_done {s : State} {tid : Nat} {t : Team} {r : Run} (ht : Map.find s.teams tid = some t)
    (hr : Map.find s.runs t.run = some r) (hrun : t.running = true) (hret : ∀ x ∈ t.parties, x.2.retired = true)
    (heng : s.engaged tid t = false) (hperf : s.unperformed tid t = false) (hst : ∀ e ∈ s.stalled, e.tid ≠ tid)
    (hdef : ∀ d ∈ s.deferred, d.tid ≠ tid) (hws : ∀ c ∈ s.wsCopies, ∀ d, c.dest = some d → d.1 ≠ tid) :
    let s1 := (s.releaseJoins tid).dropConvoys tid
    exec (.teamRetire tid) s = .next (((t.teamRecords.filter fun d => !d.retired).foldl (fun s d => s.retireLate tid t d)
      ({ s1 with teams := Map.drop s1.teams tid } : State)).ladderCheck r.queue) := by
  have hparties : (t.parties.any fun q => !q.2.retired) = false := by
    rw [List.any_eq_false]
    exact fun x hx => by simp [hret x hx]
  have hstalled : (s.stalled.any fun e => e.tid == tid) = false := by
    rw [List.any_eq_false]
    exact fun e he => by simp [hst e he]
  have hdeferred : (s.deferred.any fun d => d.tid == tid) = false := by
    rw [List.any_eq_false]
    exact fun d hd => by simp [hdef d hd]
  have hcopies : (s.wsCopies.any fun c => c.dest.any fun d => d.1 == tid) = false := by
    rw [List.any_eq_false]
    intro c hc hany
    obtain ⟨d, hd, heq⟩ := (Option.any_eq_true ..).1 hany
    exact hws c hc d hd (beq_iff_eq.1 heq)
  simp only [exec_teamRetire, execTeamRetire, ht, hr, hrun, hparties, heng, hperf, hstalled, hdeferred, hcopies, Bool.not_true,
    Bool.or_self, Bool.false_eq_true, if_false]

theorem exec_runComplete_of_empty {s : State} {run : Nat} {r : Run} (hr : Map.find s.runs run = some r)
    (hempty : s.runEmpty run r = true) : exec (.runComplete run) s = .next (s.endRun run 1 0 true) := by
  simp only [exec_runComplete, execRunComplete, hr, hempty, if_true]

section

variable {s : State} {tid : Nat} {t : Team} {r : Run} (ht : Map.find s.teams tid = some t)
  (hstop : (s.settleStores tid t.core).stopped tid t = true)
  (hr : Map.find ((s.settleStores tid t.core).contain tid t).runs t.run = some r)

include ht hstop hr

/-- The stop of a team that its run's fatal fault has stopped. -/
theorem exec_faultStop_of_fatal (h : t.fault = none ∨ r.state = .fatal) :
    exec (.faultStop tid) s = .next ((((s.settleStores tid t.core).contain tid t).fatalEnd t.run).ladderCheck r.queue) := by
  simp only [exec_faultStop, execFaultStop, ht, hstop, hr, Bool.not_true, Bool.false_eq_true, if_false]
  cases hf : t.fault with
  | none => rfl
  | some f => exact if_pos (h.resolve_left (by simp [hf]))

/-- The stop of a team with a fault of its own. -/
theorem exec_faultStop_of_fault {f : FaultRec} (hf : t.fault = some f) (hstate : r.state ≠ .fatal) :
    let s1 := (s.settleStores tid t.core).contain tid t
    let fatal := (r.node? t.node).any Node.fatal
    let s2 := s1.deliverFault t.run r t f fatal
    exec (.faultStop tid) s =
      .next ((if fatal = true then ((s2.stopRun t.run).tellMembers r).fatalEnd t.run else s2).ladderCheck r.queue) := by
  simp only [exec_faultStop, execFaultStop, ht, hstop, hr, Bool.not_true, Bool.false_eq_true, if_false, hf, hstate]

end

/-- The fault that a hang report of a party's path records. -/
def hangFault (s : State) (p : Nat) (q : Party) (word : Word) (stamp : DWord) : FaultRec :=
  let sl := !q.slot0.live
  let x := q.slot sl
  { cause := 0x13, sub := 0, deferred := false, engine := false
    origin := { pc := x.pc, clause := x.clauseAddr, word := word, party := some p, slot := sl }
    lane := none, addr := none, info := BitVec.ofNat 32 ((s.clk.toNat - q.lastIssue) / 2250000), waitOn := x.wait.code.1,
    waitX := x.wait.code.2, stamp := stamp, supp := 0 }

theorem exec_hangReport_of_due {s : State} {tid p : Nat} {t : Team} {q : Party} {r : Run} (ht : Map.find s.teams tid = some t)
    (hq : Map.find t.parties p = some q) (hr : Map.find s.runs t.run = some r) (hrun : t.running = true)
    (hret : q.retired = false) (hsent : q.hangSent = false) (hdue : s.hangt ≤ s.clk.toNat - q.lastIssue) :
    let read := s.wordAt (.party tid p (!q.slot0.live)) t (q.slot (!q.slot0.live)).pc
    let f := hangFault s p q read.2 (read.1.tbase >>> 8)
    let s3 := (read.1.modParty tid p fun q => { q with hangSent := true }).deliverFault t.run r t f false
    exec (.hangReport tid p) s = .next ((if (read.1.faultTarget r t).isSome then
      s3.logFault r (faultRecord s3.rank.toNat t f 0xFFFF false) else s3).startLadder r.queue 2) := by
  simp only [exec_hangReport, execHangReport, ht, hq, hr, hrun, hret, hsent, Nat.not_lt.2 hdue, Bool.not_true, Bool.or_self,
    decide_false, Bool.false_eq_true, if_false]
  rfl

/-! ## Gating (R419) -/

section

variable {s : State} {core : Nat}

theorem exec_clockGate_of_idle (hwait : s.allWait core = true) (hidle : 112500 ≤ s.idleFor core) (hon : Store.read s.gated core = 0) :
    exec (.clockGate core) s = .next { s with gated := Store.write s.gated core 1 } :=
  if_pos ⟨hwait, hidle, hon⟩

theorem exec_powerGate_of_idle (hwait : s.allWait core = true) (hidle : 4500000 ≤ s.idleFor core) :
    exec (.powerGate core) s = .next { s with gated := Store.write s.gated core 2 } :=
  if_pos ⟨hwait, hidle⟩

theorem exec_coreWake_of_gated (htrip : s.trip = false) (hparty : s.partiesOn core ≠ []) (hgated : s.isGated core = true) :
    exec (.coreWake core) s = .next { s with agenda := ⟨0, 0, .rouse core⟩ :: s.agenda } := by
  simp [exec_coreWake, execCoreWake, htrip, hparty, hgated, State.nextTurn]

/-- A core wakes exactly when one of its tracks would have a contender. -/
theorem rouses_iff (woken : State) (core : Nat) :
    (([0, 1, 2, 3] : List Nat).any fun k => !(woken.contenders issue core k).isEmpty) = true ↔
      ∃ k, k < 4 ∧ woken.contenders issue core k ≠ [] := by
  rw [show ([0, 1, 2, 3] : List Nat) = List.range 4 from rfl, List.any_eq_true]
  simp only [List.mem_range, Bool.not_eq_true', List.isEmpty_eq_false_iff]

end

/-- Settles O56, one event at a time. -/
theorem graphEvents : Obligations.GraphEvents := by
  unfold Obligations.GraphEvents
  refine ⟨?_, ?_, ?_, ?_, ?_, ?_, ?_, ?_, ?_, ?_, ?_, ?_, ?_, ?_, ?_, ?_⟩
  · exact fun s tid b t hfull ht hmeets => (exec_barrierPhaseComplete_team hfull ht).trans (by rw [if_neg (by simp [hmeets])]; rfl)
  · exact fun s c b => exec_barrierPhaseComplete_cluster
  · exact fun s tid b t hfull ht hmeets => (exec_barrierPhaseComplete_team hfull ht).trans (by rw [if_pos hmeets])
  · intro s run b r hr
    rw [exec_barrierPhaseComplete_run hr]
    exact ⟨fun hone hfull => by rw [if_neg (Nat.not_lt.2 hone), if_pos hfull]; rfl, fun hmany => if_pos hmany⟩
  · intro s run part
    simp only [exec_runBarrierMessage, execRunBarrierMessage, List.contains_iff_mem]
  · intro s id e he hacc s1
    refine ⟨fun t hpeer ht hrun => ?_, fun src agent seqno hpeer => ?_⟩
    · refine (exec_stalledEmissionAccept_of_offered he (by simp [State.offered, ht, hrun]) hacc).trans ?_
      rw [hpeer]
    · refine (exec_stalledEmissionAccept_of_offered he (by simp [State.offered, hpeer]) hacc).trans ?_
      rw [hpeer]
      rfl
  · exact fun s run die node => rfl
  · exact fun s run r die node n x rest => exec_gatherWindowExpiry_of_due
  · exact fun s die cores nos prio stamp run k r g n => exec_teamPlacement_of_fit
  · intro s run die nodes hdead mine
    exact ⟨exec_graphDeadlockDetect_of_new hdead, fun a b c since hw =>
      ⟨exec_graphDeadlockDetect_of_early hdead hw, exec_graphDeadlockDetect_of_due hdead hw⟩⟩
  · exact fun s run die r => exec_runSeed_of_due
  · exact fun s tid t r => exec_teamRetire_of_done
  · exact fun s run r => exec_runComplete_of_empty
  · intro s tid t r ht s0 hstop s1 hr
    refine ⟨exec_faultStop_of_fatal ht hstop hr, fun f hf hstate => ⟨fun hfatal => ?_, fun hfatal => ?_⟩⟩
    all_goals
      refine (exec_faultStop_of_fault ht hstop hr hf hstate).trans ?_
      rw [hfatal]
      rfl
  · intro s tid p t q r ht hq hr hrun hret hsent hdue x s1 s2
    exact ⟨_, rfl, rfl, rfl, rfl, rfl, rfl, rfl, exec_hangReport_of_due ht hq hr hrun hret hsent hdue⟩
  · intro s core
    refine ⟨exec_clockGate_of_idle, exec_powerGate_of_idle, exec_coreWake_of_gated, fun hready => ?_, fun hnone => ?_⟩
    · exact congrArg Host.Outcome.next (if_pos ((rouses_iff _ core).2 hready))
    · refine congrArg Host.Outcome.next (if_neg fun hready => ?_)
      obtain ⟨k, hk, hne⟩ := (rouses_iff _ core).1 hready
      exact hne (hnone k hk)

end Sys2Proof.Machine

/-!
PROOFS. The events of the fabric, of its keys and of the time base (O58), one at a time.
-/

namespace Sys2Proof.Machine

open Sys2Proof

/-! ## Requests of peers (R444 to R450) -/

section

variable {s : State} {r : FabReq}

/-- A request that arrives is taken at its turn, or as its forward's credit has it. -/
theorem exec_remoteRequest_of_arrived (hdst : r.dst = s.rank.toNat) (hsrc : r.src ≠ s.rank.toNat) (hlink : s.linked = true)
    (htrip : s.trip = false) (hsize : sizedRequest r = true)
    (hnew : ∀ x ∈ s.reorder, ¬(x.src = r.src ∧ x.agent = r.agent ∧ x.seqno = r.seqno ∧ x.order = r.order)) :
    exec (.remoteRequest r) s = if s.forwards r = true then
      (if Config.forwardCredit s.free = true then .next (s.useFree.inTurn r) else .next (s.useFree.answer r .retry))
      else .next (s.inTurn r) := by
  have hsame : (s.reorder.any fun x => x.src == r.src && x.agent == r.agent && x.seqno == r.seqno && x.order == r.order) = false := by
    rw [List.any_eq_false]
    exact fun x hx => by simpa [and_assoc] using hnew x hx
  simp only [exec_remoteRequest, execRemoteRequest, hdst, hsrc, hlink, htrip, hsize, hsame, ne_eq, not_true, Bool.not_true,
    Bool.false_eq_true, or_self, if_false]
  cases s.forwards r <;> rfl

theorem exec_remoteRequest_of_dropped (h : r.dst ≠ s.rank.toNat ∨ s.linked = false ∨ s.trip = true ∨ sizedRequest r = false) :
    exec (.remoteRequest r) s = .next s := by
  refine if_pos ?_
  rcases h with h | h | h | h <;> simp [h]

theorem State.inTurn_of_old (h : r.stamp.toNat + 256 * (s.fto + s.bound) < s.tbase.toNat) : s.inTurn r = s.passed r :=
  if_pos h

theorem State.inTurn_of_early (h : s.tbase.toNat ≤ r.stamp.toNat + 256 * (s.fto + s.bound)) (hahead : 0 < s.ahead r) :
    s.inTurn r = { s with reorder := s.reorder ++ [r] } := by
  rw [State.inTurn, if_neg (Nat.not_lt.2 h), if_pos hahead]

theorem State.inTurn_of_turn (h : s.tbase.toNat ≤ r.stamp.toNat + 256 * (s.fto + s.bound)) (hahead : s.ahead r = 0) {s1 : State}
    {a : FabResp} (hserve : s.serve r = .answer s1 a) :
    s.inTurn r = (if a = .retry then s1 else s1.passed r).answer r a := by
  rw [State.inTurn, if_neg (Nat.not_lt.2 h), if_neg (by rw [hahead]; decide), if_pos hahead, State.performRequest, hserve]

end

/-! ## Answers, retries and timeouts (R445, R446, R449, R450) -/

section

variable {s : State} {id : Nat} {o : Outstanding}

theorem exec_remoteResponse_of_away (hlink : s.linked = true) (htrip : s.trip = false)
    (ho : (s.outstanding.find? fun o => o.id == id && o.away && o.port.isSome && o.req.dst != s.rank.toNat) = some o) (a : FabResp) :
    exec (.remoteResponse id a) s = .next (s.respond o a) := by
  simp only [exec_remoteResponse, execRemoteResponse, ho, hlink, htrip, Bool.not_false, Bool.and_self, if_true]

theorem exec_fabricTimeout_of_due (ho : (s.outstanding.find? fun o => o.id == id) = some o)
    (hdue : o.req.stamp.toNat + 256 * s.fto ≤ s.tbase.toNat) (hheld : o.held = false) (hafter : o.after = none)
    (hdst : o.req.dst ≠ s.rank.toNat) : exec (.fabricTimeout id) s = .next ((s.timedOut o).peerFailed o.req.dst) := by
  simp only [exec_fabricTimeout, execFabricTimeout, ho, Nat.not_lt.2 hdue, hheld, hafter, hdst, Option.isSome_none,
    Bool.false_eq_true, or_self, if_false]

theorem State.timedOut_of_write {bs : List Byte} (hop : o.req.op = .write bs) (hacc : o.access = none) (hlate : o.late = none) :
    s.timedOut o = s.failRequest o { cause := 0x11, addr := o.va, info := BitVec.ofNat 32 o.req.dst } true := by
  simp only [State.timedOut, hop, State.unanswered, hlate, hacc, ite_self]

/-- A request whose delay after a retry has passed. -/
def RetryDue (s : State) (id : Nat) (o : Outstanding) : Prop :=
  o.id = id ∧ o.waiting = true ∧ o.held = false ∧ o.retryAt + 256000 * o.backoff ≤ s.tbase.toNat

theorem retryDue_iff (s : State) (id : Nat) (o : Outstanding) :
    (o.id == id && o.waiting && !o.held && decide (o.retryAt + 256000 * o.backoff ≤ s.tbase.toNat)) = true ↔ RetryDue s id o := by
  simp [RetryDue, and_assoc]

theorem exec_fabricRetryBackoff_of_none (h : ∀ o ∈ s.outstanding, ¬RetryDue s id o) : exec (.fabricRetryBackoff id) s = .next s := by
  refine if_neg fun hany => ?_
  obtain ⟨o, ho, hdue⟩ := List.any_eq_true.1 hany
  exact h o ho ((retryDue_iff s id o).1 hdue)

theorem exec_fabricRetryBackoff_of_due (h : ∃ o ∈ s.outstanding, RetryDue s id o) :
    exec (.fabricRetryBackoff id) s = .next { s with
      free := s.free + 1
      outstanding := s.outstanding.map fun o =>
        if (o.id == id && o.waiting && !o.held && decide (o.retryAt + 256000 * o.backoff ≤ s.tbase.toNat)) = true then
          { o with waiting := false, port := s.egress.1 }
        else o } := by
  obtain ⟨o, ho, hdue⟩ := h
  exact if_pos (List.any_eq_true.2 ⟨o, ho, (retryDue_iff s id o).2 hdue⟩)

end

/-! ## Ports and keys (R439, R441, R451) -/

theorem State.port_setPort (s : State) (p : Nat) (x : FabPort) : (s.setPort p x).port p = x := by
  simp [State.port, State.setPort]

/-- A port after the keys or the rank have changed. -/
theorem State.port_keyPorts (s : State) (p : Nat) : s.keyPorts.port p =
    { s.port p with up := (s.port p).trained && !(s.port p).held && s.key.isSome && s.ranked } := by
  rw [State.port, State.keyPorts, Map.find_mapVals, State.port]
  cases Map.find s.fabPorts p <;> rfl

section

variable {s : State} {port : Nat} {f : Flit}

theorem authentic_iff : s.authentic f = true ↔
    f.intact = true ∧ (s.key = some f.key ∨ ∃ t, s.oldKey = some (f.key, t) ∧ s.tbase.toNat < t + 2560000000) := by
  simp [State.authentic, Option.any_eq_true]

theorem exec_dlFlitReceive_of_up (hup : (s.port port).up = true) : exec (.dlFlitReceive port f) s = .next (s.setPort port
    (if s.authentic f = true then { s.port port with failures := 0 }
    else if (s.port port).failures < 2 then { s.port port with failures := (s.port port).failures + 1 }
    else { trained := false, up := false, failures := 0, held := true })) := by
  simp only [exec_dlFlitReceive, execDlFlitReceive, hup, Bool.not_true, Bool.false_eq_true, if_false]
  by_cases ha : s.authentic f = true
  · simp only [ha, if_true]
  · by_cases hf : (s.port port).failures < 2
    · simp only [ha, hf, Nat.succ_lt_succ hf, Bool.false_eq_true, if_false, if_true]
    · simp only [ha, hf, mt Nat.lt_of_succ_lt_succ hf, Bool.false_eq_true, if_false]

theorem exec_linkTraining_of_allowed (offer : LinkOffer) (hport : port < 16) (hphase : 3 ≤ s.phase) (htrip : s.trip = false) :
    ∃ s1 : State, exec (.linkTraining port offer) s = .next s1 ∧ (s1.port port).trained = true ∧
      ((s1.port port).up = true ↔ offer.lanes = 4 ∧ offer.gtPerLane = 200 ∧ s.key.isSome = true ∧ s.ranked = true) := by
  refine ⟨_, if_neg (by simp [htrip]; omega), ?_⟩
  rw [State.port_keyPorts, State.port_setPort]
  refine ⟨rfl, ?_⟩
  split <;> simp [State.setPort, and_assoc]

end

/-! ## The time base (R392, R452, R453) -/

/-- An offset rounded to whole seconds is no more than half a second off. -/
theorem wholeSeconds_spec (x : Int) : ∃ n : Int, wholeSeconds x = n * 256000000000 ∧
    2 * (wholeSeconds x - x) ≤ 256000000000 ∧ -256000000000 ≤ 2 * (wholeSeconds x - x) := by
  refine ⟨_, rfl, ?_⟩
  unfold wholeSeconds secondUnits
  omega

/-- Two offsets' fractions of a second differ by at most one second. -/
theorem fraction_spec (x y : Int) : ∃ n : Int, wholeSeconds x + (y - wholeSeconds y) = y + n * 256000000000 ∧
    (y + n * 256000000000 - x).natAbs ≤ 256000000000 := by
  obtain ⟨m, hm, hm1, hm2⟩ := wholeSeconds_spec x
  obtain ⟨n, hn, hn1, hn2⟩ := wholeSeconds_spec y
  exact ⟨m - n, by omega, by omega⟩

section

variable {s : State}

/-- What an input of the time source leaves. -/
theorem State.timeInput_eq (s : State) (x : Int) : s.timeInput x = (
    let near : Bool := decide (x.natAbs ≤ 12800)
    { s with
      tOffset := x
      lastSync := s.tbase.toNat
      locked := s.locked && near
      lostAt := if s.locked && !near then s.tbase.toNat else s.lostAt
      tolSince :=
        if near then some (if s.tbase.toNat < s.lastSync + 512000000000 then s.tolSince.getD s.tbase.toNat else s.tbase.toNat)
        else none }) := by
  simp only [State.timeInput, decide_eq_true_eq]
  rfl

theorem exec_ptpMessage_of_alone (off : Int) (h : ∀ k, s.lastPps = some k → k + 512000000000 ≤ s.tbase.toNat) :
    exec (.ptpMessage off) s = .next (s.timeInput (256 * off)) := by
  have hpps : (s.lastPps.any fun k => decide (s.tbase.toNat < k + syncLimit)) = false := by
    rw [Option.any_eq_false]
    exact fun k hk => Bool.eq_false_of_not_eq_true fun hlt => Nat.not_lt.2 (h k hk) (of_decide_eq_true hlt)
  simp only [exec_ptpMessage, execPtpMessage, hpps, Bool.false_eq_true, if_false]

theorem exec_ptpMessage_of_pps (off : Int) {k : Nat} (hk : s.lastPps = some k) (h : s.tbase.toNat < k + 512000000000) :
    exec (.ptpMessage off) s = .next (s.timeInput (wholeSeconds (256 * off) + (s.tOffset - wholeSeconds s.tOffset))) := by
  have hpps : (s.lastPps.any fun k => decide (s.tbase.toNat < k + syncLimit)) = true := by
    rw [hk, Option.any_some, syncLimit]
    exact decide_eq_true h
  simp only [exec_ptpMessage, execPtpMessage, hpps, if_true]

/-- tbase neither decreases nor wraps. -/
theorem State.pass_tbase_toNat (s : State) (dclk dtb : Nat) :
    (s.pass dclk dtb).tbase.toNat = s.tbase.toNat + s.tbaseAdvance dclk dtb := by
  have hlt := s.tbase.isLt
  have hle : s.tbaseAdvance dclk dtb ≤ 2 ^ 64 - 1 - s.tbase.toNat := Nat.min_le_right _ _
  rw [State.pass_tbase, BitVec.toNat_add, BitVec.toNat_ofNat]
  omega

/-- While a run is active, tbase goes on at its nominal rate but for 100 parts per million. -/
theorem State.tbaseAdvance_of_active (s : State) (dclk dtb : Nat) (h : ∃ r ∈ s.runs, r.2.state = .active) :
    let n := tbaseOfCycles s.clk dclk
    s.tbaseAdvance dclk dtb ≤ n + n / 10000 ∧
      (n ≤ s.tbaseAdvance dclk dtb + n / 10000 ∨ s.tbaseAdvance dclk dtb = 2 ^ 64 - 1 - s.tbase.toNat) := by
  intro n
  have hany : (s.runs.any fun r => r.2.state == .active) = true := by
    obtain ⟨r, hr, hst⟩ := h
    exact List.any_eq_true.2 ⟨r, hr, by simp [hst]⟩
  have hadv : s.tbaseAdvance dclk dtb = min (min (if s.tOffset < 0 then n + min (n / 10000) s.tOffset.natAbs else n)
      (max (if 0 < s.tOffset then n - min (n / 10000) s.tOffset.natAbs else n) dtb)) (2 ^ 64 - 1 - s.tbase.toNat) := by
    rw [State.tbaseAdvance, hany]
    rfl
  rw [hadv]
  split <;> split <;> omega

theorem exec_tbaseLock_of_kept {since : Nat} (h : s.tolSince = some since) (hlong : since + 15360000000000 ≤ s.tbase.toNat)
    (hsync : s.tbase.toNat < s.lastSync + 512000000000) :
    exec .tbaseLock s = .next { s with locked := true, holdover := false } := by
  simp only [exec_tbaseLock, execTbaseLock, h]
  exact if_pos ⟨hlong, hsync⟩

end

/-- Settles O58, one event at a time. -/
theorem fabricAndTime : Obligations.FabricAndTime := by
  unfold Obligations.FabricAndTime
  refine ⟨?_, ?_, ?_, ?_, ?_, ?_, ?_, ?_, ?_, ?_, ?_, ?_, ?_, ?_, ?_, ?_, ?_, ?_, ?_, ?_⟩
  · intro s r hdst hsrc hlink htrip hsize hnew
    have hexec := exec_remoteRequest_of_arrived hdst hsrc hlink htrip hsize hnew
    refine ⟨fun hf => ?_, fun hf hold => ?_, fun hf hfresh => ⟨fun hahead => ?_, ?_⟩⟩
    · rw [hexec, if_pos hf]
      split
      · exact .inl rfl
      · exact .inr rfl
    · rw [hexec, hf, if_neg Bool.false_ne_true, State.inTurn_of_old hold]
    · rw [hexec, hf, if_neg Bool.false_ne_true, State.inTurn_of_early hfresh hahead]
    · intro s1 a hahead hserve s2
      rw [hexec, hf, if_neg Bool.false_ne_true, State.inTurn_of_turn hfresh hahead hserve]
      rfl
  · exact fun s r => exec_remoteRequest_of_dropped
  · intro s id o hlink htrip ho
    have hexec := exec_remoteResponse_of_away hlink htrip ho
    have hid : o.id = id := by
      have hfound := List.find?_some ho
      simp only [Bool.and_eq_true, beq_iff_eq] at hfound
      exact hfound.1.1.1
    subst hid
    refine ⟨hexec _, hexec _, hexec _, hexec _, fun v => hexec _, fun v a ha => ?_, hexec _, hexec _, fun rank frame => hexec _,
      fun c u => hexec _⟩
    rw [hexec, State.respond, ha]
  · exact fun s id o ho hdue hheld hafter hdst => ⟨exec_fabricTimeout_of_due ho hdue hheld hafter hdst,
      fun bs => State.timedOut_of_write⟩
  · intro s id due
    refine ⟨exec_fabricRetryBackoff_of_none, fun h => ⟨s.egress.1, (exec_fabricRetryBackoff_of_due h).trans ?_⟩⟩
    simp [and_assoc]
  · intro s src agent seqno
    refine ⟨_, rfl, rfl, fun a => List.mem_filter.trans (and_congr_right fun _ => ?_)⟩
    rw [Bool.not_eq_true', ← Bool.not_eq_true]
    simp only [Bool.and_eq_true, beq_iff_eq, decide_eq_true_eq, and_assoc]
  · intro s port f hup good
    have hexec := exec_dlFlitReceive_of_up (f := f) hup
    refine ⟨fun hgood => ?_, fun hbad hfew => ?_, fun hbad hmany => ?_⟩
    · rw [hexec, if_pos (authentic_iff.2 hgood)]
    · rw [hexec, if_neg (mt authentic_iff.1 hbad), if_pos hfew]
    · rw [hexec, if_neg (mt authentic_iff.1 hbad), if_neg (Nat.not_lt.2 hmany)]
  · exact fun s port offer hport hphase htrip => exec_linkTraining_of_allowed offer hport hphase htrip
  · intro s port hport
    refine ⟨_, if_pos hport, ?_⟩
    rw [State.port_setPort]
    exact ⟨rfl, rfl⟩
  · intro s k since hold hdue
    simp only [exec_oldKeyExpiry, execOldKeyExpiry, hold, hdue, if_true]
  · intro s k
    refine ⟨rfl, fun hkey => ?_, fun hkey => ?_⟩
    · simp only [exec_setKey, execSetKey, hkey, Bool.not_true, Bool.false_eq_true, if_false, Option.isNone_none, if_true]
    · simp only [exec_setKey, execSetKey, Bool.not_true, Bool.false_eq_true, if_false, Option.isNone_iff_eq_none, hkey]
  · intro s hnone
    simp only [exec_keySwitch, execKeySwitch, hnone]
  · intro s k j hnew hkey
    simp only [exec_keySwitch, execKeySwitch, hnew, hkey, Option.map_some]
  · intro s
    refine ⟨_, rfl, rfl, rfl, rfl, fun p => ?_⟩
    have hport := State.port_keyPorts { s with key := none, newKey := none, oldKey := none } p
    refine (congrArg FabPort.up hport).trans ?_
    simp
  · intro s r ns hmap
    refine ⟨if_neg (by simp [hmap]), fun hlo hhi => if_neg ?_⟩
    simp [hmap, Nat.not_lt.2 hlo, Nat.not_lt.2 hhi]
  · exact fun s r ns => ⟨fun hmap => if_pos hmap, fun h => if_pos h⟩
  · intro s off second input
    refine ⟨fun h => ?_, fun k hk h => ?_, ?_⟩
    · exact (exec_ptpMessage_of_alone off h).trans (congrArg _ (s.timeInput_eq _))
    · obtain ⟨n, heq, hle⟩ := fraction_spec (256 * off) s.tOffset
      exact ⟨n, (exec_ptpMessage_of_pps off hk h).trans (congrArg _ ((s.timeInput_eq _).trans (congrArg input heq))), hle⟩
    · obtain ⟨n, heq, hle⟩ := fraction_spec s.tOffset (256 * off)
      refine ⟨n, ?_, hle⟩
      show Host.Outcome.next { s.timeInput (wholeSeconds s.tOffset + (256 * off - wholeSeconds (256 * off))) with
        lastPps := some s.tbase.toNat } = _
      rw [heq, s.timeInput_eq]
  · intro s dclk dtb n t
    have ht : t = s.tbase.toNat + s.tbaseAdvance dclk dtb := s.pass_tbase_toNat dclk dtb
    refine ⟨by omega, fun hactive => ?_⟩
    obtain ⟨hle, hge⟩ := s.tbaseAdvance_of_active dclk dtb hactive
    exact ⟨by omega, fun hlt => by omega⟩
  · exact fun s since => exec_tbaseLock_of_kept
  · exact fun s hlock hsync => if_pos ⟨hlock, hsync⟩

end Sys2Proof.Machine

/-!
PROOFS. Power, resets, bring-up, fencing, attestation and management (O59), one event at a time.
-/

namespace Sys2Proof.Machine

open Sys2Proof

/-! ## Throttling and the trip (R458 to R460) -/

/-- The level that a reading asks for, row by row. -/
theorem State.asks_spec (s : State) (r : Reading) (l : Nat) (since : Option Nat) :
    let above : Bool := decide (250 * s.cap.toNat - 90000 < r.power)
    let long : Prop := l = 1 ∧ ∃ k, since = some k ∧ k + 225000 ≤ s.clk.toNat
    let level := s.asks r l since
    (103000 < r.hottest → level = 5) ∧ (r.hottest ≤ 103000 → 100000 < r.hottest → level = 4) ∧
      (r.hottest ≤ 100000 → 95000 < r.array → level = 3) ∧
      (r.hottest ≤ 100000 → r.array ≤ 95000 → above = true → (2 ≤ l ∨ long → level = 2) ∧ (¬(2 ≤ l ∨ long) → level = 1)) ∧
      (r.hottest ≤ 100000 → r.array ≤ 95000 → above = false → level = 0) := by
  intro above long level
  have hlong : (l = 1 ∧ since.any (fun k => decide (k + 225000 ≤ s.clk.toNat)) = true) ↔ long := by
    simp [long, Option.any_eq_true]
  have habove : above = true ↔ ¬r.power ≤ s.share := decide_eq_true_iff.trans Nat.not_le.symm
  have hlevel : level = if 103000 < r.hottest then 5 else if 100000 < r.hottest then 4 else if 95000 < r.array then
      max 3 (if r.power ≤ s.share then 0
        else if 2 ≤ l ∨ l = 1 ∧ since.any (fun k => decide (k + 225000 ≤ s.clk.toNat)) = true then 2 else 1)
      else if r.power ≤ s.share then 0
        else if 2 ≤ l ∨ l = 1 ∧ since.any (fun k => decide (k + 225000 ≤ s.clk.toNat)) = true then 2 else 1 := rfl
  rw [hlevel]
  refine ⟨fun h => if_pos h, fun h h' => ?_, fun h h' => ?_, fun h h' hup => ⟨fun hl => ?_, fun hl => ?_⟩, fun h h' hup => ?_⟩
  · rw [if_neg (by omega), if_pos h']
  · rw [if_neg (by omega), if_neg (by omega), if_pos h']
    split
    · rfl
    · split <;> rfl
  · rw [if_neg (by omega), if_neg (by omega), if_neg (by omega), if_neg (habove.1 hup), if_pos (hl.imp_right hlong.2)]
  · rw [if_neg (by omega), if_neg (by omega), if_neg (by omega), if_neg (habove.1 hup), if_neg (mt (Or.imp_right hlong.1) hl)]
  · rw [if_neg (by omega), if_neg (by omega), if_neg (by omega), if_pos]
    exact not_not.1 (mt habove.2 (by rw [hup]; exact Bool.false_ne_true))

theorem exec_throttleDown_of_calm {s : State} {die k : Nat} (hdie : die < 4) (hl : Store.read s.throttle die ≠ 0)
    (hcalm : (s.sensorsOf die).calmSince = some k) (hlong : k + 2250000 ≤ s.clk.toNat)
    (hasks : s.asks (s.sensorsOf die).last (Store.read s.throttle die).toNat (s.sensorsOf die).overSince <
      (Store.read s.throttle die).toNat) :
    exec (.throttleDown die) s = .next { s with
      throttle := Store.write s.throttle die (BitVec.ofNat 8 ((Store.read s.throttle die).toNat - 1))
      sensors := Map.set s.sensors die { s.sensorsOf die with overSince := none, calmSince := some s.clk.toNat } } := by
  refine if_pos ⟨hdie, fun h0 => hl (BitVec.eq_of_toNat_eq h0), ?_, hasks⟩
  rw [hcalm, Option.any_some]
  exact decide_eq_true hlong

/-- A store in which one value has been written under the keys below a number. -/
theorem Store.read_foldl_write {w : Nat} (m : Store w) (x : BitVec w) {n k : Nat} (hk : k < n) :
    Store.read ((List.range n).foldl (fun m c => Store.write m c x) m) k = x := by
  induction n with
  | zero => exact absurd hk (Nat.not_lt_zero k)
  | succ n ih =>
    rw [List.range_succ, List.foldl_append, List.foldl_cons, List.foldl_nil, Store.read_write]
    split
    · rfl
    · next hne => exact ih (by omega)

theorem State.read_gated_tripNow (s : State) {core : Nat} (h : core < 192) : Store.read s.tripNow.gated core = 2 := by
  rw [State.tripNow, Store.read_foldl_write _ _ h]

/-- A die is at level 5 with a sensor that has been too hot for 1 ms. -/
theorem State.overheated_iff {s : State} {die : Nat} : s.overheated die = true ↔
    Store.read s.throttle die = 5 ∧ ∃ k, (s.sensorsOf die).hotSince = some k ∧ k + 2250000 ≤ s.clk.toNat := by
  simp [State.overheated, Option.any_eq_true]

theorem State.any_overheated_iff {s : State} : (List.range 4).any s.overheated = true ↔ ∃ die, die < 4 ∧
    Store.read s.throttle die = 5 ∧ ∃ k, (s.sensorsOf die).hotSince = some k ∧ k + 2250000 ≤ s.clk.toNat := by
  simp only [List.any_eq_true, List.mem_range, State.overheated_iff]

/-! ## Resets and bring-up (R462, R463) -/

/-- After a reset the bytes of memory outside the device are left. -/
theorem State.byte_restart (s : State) (a : Nat) : s.restart.byte a = if regionOf a = .host then s.byte a else 0 := by
  refine (Store.read_filter_key s.mem (fun k => regionOf k == .host) a).trans ?_
  simp only [beq_iff_eq]
  rfl

/-- What ends a bring-up phase. -/
def State.phaseEnds (s : State) (p : Nat) : Bool :=
  match p with
  | 0 => s.signatureOk s.fwImage && decide (s.minVersion.toNat ≤ s.fwVersion.toNat)
  | 1 | 2 => true
  | 3 => s.ranked && s.key.isSome
  | _ => false

section

variable {s : State}

theorem exec_bringupPhaseComplete_of_may {p : Nat} (hp : s.phase = p) (h : s.phaseEnds p = true) :
    exec (.bringupPhaseComplete true) s = .next { s with phase := p + 1 } := by
  subst hp
  exact if_pos h

theorem exec_bringupPhaseComplete_of_not {p : Nat} (hp : s.phase = p) (h : s.phaseEnds p = false) :
    exec (.bringupPhaseComplete true) s = .next s := by
  subst hp
  exact if_neg (Bool.eq_false_iff.1 h)

/-- The stored image verifies, and is no older than the fuses allow. -/
theorem imageGood_iff : (s.signatureOk s.fwImage && decide (s.minVersion.toNat ≤ s.fwVersion.toNat)) = true ↔
    s.fwImage.key = s.keyFuse ∧ s.fwImage.signed = s.fwImage.content ∧ s.minVersion.toNat ≤ s.fwVersion.toNat := by
  simp [State.signatureOk, and_assoc]

/-! ## Fencing (R406) -/

/-- A team that begins to be saved keeps its parties; no other team changes. -/
theorem State.beginSave_teams {tid : Nat} {t : Team} (ht : Map.find s.teams tid = some t) (hstate : t.state = .resident) :
    ∃ f : Team → Team, (s.beginSave tid).teams = Map.update s.teams tid f ∧ (f t).state = .saving ∧ (f t).parties = t.parties := by
  refine ⟨fun t => ({ t with state := .saving } : Team).modSeq fun q =>
    { q with ops := q.ops.map fun o => { o with passes := o.passes.withdraw } }, ?_, rfl, rfl⟩
  unfold State.beginSave
  rw [ht]
  dsimp only
  rw [if_neg (not_not.2 hstate)]
  refine List.foldlRecOn (motive := fun r : State => r.teams = _) _ _ ?_ fun r hr o _ => (r.request_teams ..).trans hr
  exact Map.update_update s.teams tid _ _

theorem exec_unitFence_slice_of_idle {die k : Nat} (h : s.fenced.contains (.slice die k) = false) (hidle : s.activeOn die = []) :
    exec (.unitFence (.slice die k)) s =
      .next ((s.queues.filter fun q => stResum q.2.status && stReason q.2.status == 3).foldl (fun s q => s.resumeQueue q.1)
        { s with fenced := s.fenced ++ [.slice die k] }) := by
  simp only [exec_unitFence, execUnitFence, h, State.fenceSlice, hidle, Bool.false_eq_true, if_false, List.isEmpty_nil, if_true]

theorem exec_unitFence_slice_of_active {die k : Nat} (h : s.fenced.contains (.slice die k) = false) (hactive : s.activeOn die ≠ []) :
    exec (.unitFence (.slice die k)) s = .next (((s.activeOn die).map Run.queue).dedup.foldl (fun s k => s.startLadder k 3) s) := by
  simp only [exec_unitFence, execUnitFence, h, State.fenceSlice, List.isEmpty_iff, hactive, Bool.false_eq_true, if_false]

end

/-! ## Management (R461) -/

theorem clampCap_toNat (v : Word) : (clampCap v).toNat = max 1800 (min 3600 (v.toNat % 4096)) := by
  have hfld : (fld v 0 12).toNat = v.toNat % 4096 := by norm_num [toNat_fld]
  rw [clampCap, hfld, BitVec.toNat_ofNat]
  exact Nat.mod_eq_of_lt (by omega)

/-- Settles O59, one event at a time. -/
theorem powerAndManagement : Obligations.PowerAndManagement := by
  unfold Obligations.PowerAndManagement
  refine ⟨?_, ?_, ?_, ?_, ?_, ?_, ?_, ?_, ?_, ?_, ?_, ?_, ?_, ?_, ?_, ?_, ?_, ?_, ?_, ?_, ?_⟩
  · intro s die r hdie l above long want
    refine ⟨s.asks r l (s.sensorsOf die).overSince, _, s.asks_spec r l (s.sensorsOf die).overSince, ?_, ?_,
      if_neg (Nat.not_le.2 hdie)⟩
    · rfl
    · rfl
  · exact fun s die k => exec_throttleDown_of_calm
  · intro s
    refine ⟨s.tripNow, rfl, rfl, fun core => s.read_gated_tripNow, ?_⟩
    intro hot
    exact ⟨fun h => congrArg Host.Outcome.next (if_pos (State.any_overheated_iff.2 h)),
      fun h => congrArg Host.Outcome.next (if_neg fun hany => (State.any_overheated_iff.1 hany).elim h)⟩
  · intro s
    refine ⟨s.restart, rfl, rfl, rfl, fun a ha => ?_, fun a ha => ?_, rfl, rfl, rfl, rfl, rfl, rfl, rfl, rfl, rfl, rfl, rfl, rfl,
      rfl, rfl, rfl, rfl, rfl, rfl, rfl, rfl⟩
    · rw [State.byte_restart, if_neg ha]
    · rw [State.byte_restart, if_pos ha]
  · exact fun s => ⟨_, rfl, rfl⟩
  · intro s good
    refine ⟨fun hp hgood => exec_bringupPhaseComplete_of_may hp (imageGood_iff.2 hgood), fun hp hbad => ?_, ?_, ?_, ?_, rfl⟩
    · exact exec_bringupPhaseComplete_of_not hp (Bool.eq_false_iff.2 (mt imageGood_iff.1 hbad))
    · rintro (hp | hp)
      · rw [exec_bringupPhaseComplete_of_may hp rfl, hp]
      · rw [exec_bringupPhaseComplete_of_may hp rfl, hp]
    · intro hp hrank hkey
      exact exec_bringupPhaseComplete_of_may hp (by simp [State.phaseEnds, hrank, hkey])
    · intro hp hnone
      refine exec_bringupPhaseComplete_of_not hp ?_
      rcases hnone with h | h <;> simp [State.phaseEnds, h]
  · exact fun s f hf => ⟨_, rfl, if_neg (Nat.not_le.2 hf)⟩
  · intro s f hf
    refine (if_neg (Nat.not_le.2 hf)).trans ?_
    simp only [State.reply, State.visible, decide_eq_true_eq]
  · exact fun s f hf => ⟨if_pos hf, if_pos hf⟩
  · exact fun s u h => if_pos h
  · exact fun s a b h => if_neg (Bool.eq_false_iff.1 h)
  · exact fun s c h => if_neg (Bool.eq_false_iff.1 h)
  · exact fun s c h => if_neg (Bool.eq_false_iff.1 h)
  · exact fun s c h => if_neg (Bool.eq_false_iff.1 h)
  · exact fun s die k h => ⟨exec_unitFence_slice_of_idle h, exec_unitFence_slice_of_active h⟩
  · exact fun s c h => if_neg (Bool.eq_false_iff.1 h)
  · intro s tid t ht hstate
    obtain ⟨f, hteams, hsaving, hparties⟩ := State.beginSave_teams ht hstate
    rw [hteams]
    refine ⟨⟨f t, ?_, hsaving, hparties⟩, fun k hk => ?_⟩
    · rw [Map.find_update_self, ht]
      rfl
    · rw [Map.find_update, if_neg hk]
  · exact fun s => ⟨rfl, rfl, rfl, rfl, rfl, rfl⟩
  · exact fun s nonce => ⟨fun h => if_pos h, fun h => if_neg (Nat.not_lt.2 h)⟩
  · exact fun s die => ⟨rfl, rfl, rfl, rfl, ⟨_, rfl⟩, rfl⟩
  · exact fun s v => ⟨clampCap v, clampCap_toNat v, rfl⟩

end Sys2Proof.Machine

/-!
PROOFS. The host's register writes and the packets (O60), one at a time.
-/

namespace Sys2Proof.Machine

open Sys2Proof

/-! ## Queue pages (R422, R423) -/

theorem State.queue_modQueue (s : State) (key : Nat) (f : Queue → Queue) : (s.modQueue key f).queue key = f (s.queue key) := by
  simp [State.modQueue, State.setQueue, State.queue]

theorem State.hasQueue_iff {s : State} {f q : Nat} : s.hasQueue f q = true ↔ f < 64 ∧ q < 1024 ∧ s.visible = true := by
  simp [State.hasQueue, and_assoc]

theorem State.hasQueue_eq_false {s : State} {f q : Nat} (h : 64 ≤ f ∨ 1024 ≤ q ∨ s.visible = false) : s.hasQueue f q = false := by
  refine Bool.eq_false_iff.2 fun hq => ?_
  obtain ⟨hf, hq, hv⟩ := State.hasQueue_iff.1 hq
  rcases h with h | h | h
  · omega
  · omega
  · rw [hv] at h
    cases h

section

variable {s : State} {f q : Nat} (h : s.hasQueue f q = true)

include h

theorem exec_doorbell_of_page {v : Word} (hfit : s.trip = true ∨ (s.queue (qKey f q)).state ≠ .enabled ∨
      (v - (s.queue (qKey f q)).rptr).toNat ≤ 2 ^ ((s.queue (qKey f q)).logn + 4)) :
    exec (.doorbell f q v) s = .next (({ s with nextId := s.nextId + 1 } : State).modQueue (qKey f q) fun x =>
      { x with wptr := v, bell := s.nextId }) := by
  simp only [exec_doorbell, execDoorbell, h, Bool.not_true, Bool.false_eq_true, if_false, State.fresh, State.queue_modQueue]
  refine if_neg ?_
  rintro ⟨htrip, hen, hfar⟩
  rcases hfit with hf | hf | hf
  · exact Bool.false_ne_true ((Bool.not_eq_true' s.trip ▸ htrip : s.trip = false).symm.trans hf)
  · exact hf hen
  · exact absurd hfar (Nat.not_lt.2 hf)

theorem exec_queueEnable_of_disabled (htrip : s.trip = false) (hst : (s.queue (qKey f q)).state = .disabled)
    (hres : (s.queue (qKey f q)).resetting = false) (hlogn : (s.queue (qKey f q)).logn ≤ 12)
    (hva : (s.queue (qKey f q)).statva.toNat % 4 = 0) : exec (.queueEnable f q) s =
      .next (s.setQueue (qKey f q) { s.queue (qKey f q) with state := .enabled, rptr := (s.queue (qKey f q)).wptr }) := by
  simp only [exec_queueEnable, execQueueEnable, h, htrip, hst, hres, Nat.not_lt.2 hlogn, hva, ne_eq, not_true, Bool.not_true,
    Bool.false_eq_true, or_self, if_false]

theorem exec_queueDisable_of_enabled (hst : (s.queue (qKey f q)).state = .enabled) (hrun : s.hasRun (qKey f q) = false) :
    exec (.queueDisable f q) s = .next (s.modQueue (qKey f q) fun x => { x with state := .disabled }) := by
  simp only [exec_queueDisable, execQueueDisable, h, hst, hrun, ne_eq, not_true, Bool.not_true, Bool.false_eq_true, or_self, if_false]

theorem exec_queueInvalidate_of_unmapped (hmap : (s.queue (qKey f q)).mapped = none) :
    exec (.queueInvalidate f q) s = .next (s.modQueue (qKey f q) fun x => { x with invdone := true }) := by
  simp only [exec_queueInvalidate, execQueueInvalidate, h, hmap, Bool.not_true, Bool.false_eq_true, if_false]

theorem exec_queueInvalidate_of_mapped {n : Nat} {tag : BitVec 16} (hmap : (s.queue (qKey f q)).mapped = some (n, tag)) :
    let key := qKey f q
    let x := s.queue key
    let lo := x.invva.toNat % 2 ^ 57
    exec (.queueInvalidate f q) s = .next ((s.modQueue key fun x => { x with invdone := false }).invalidate tag
      (if x.invn = 0 then 0 else lo) (if x.invn = 0 then 2 ^ 57 else min (lo + x.invn.toNat * 65536) (2 ^ 57)) none key).1 := by
  simp only [exec_queueInvalidate, execQueueInvalidate, h, hmap, Bool.not_true, Bool.false_eq_true, if_false]
  split <;> rfl

/-- RING, ROOT and STATVA take a write in STATE 0 alone. -/
theorem exec_registerWrite_of_disabled (hst : (s.queue (qKey f q)).state = .disabled) (v : DWord) :
    exec (.registerWrite f (.ring q) v) s = .next (s.modQueue (qKey f q) fun x =>
        { x with ring := v &&& 0x01FFFFFFFFFFF000, logn := v.toNat % 16 }) ∧
      exec (.registerWrite f (.root q) v) s = .next (s.modQueue (qKey f q) fun x => { x with root := v &&& 0x000FFFFFFFFFF000 }) ∧
      exec (.registerWrite f (.statva q) v) s = .next (s.modQueue (qKey f q) fun x => { x with statva := v }) := by
  have hlogn : (v.extractLsb' 0 4).toNat = v.toNat % 16 := by simp [BitVec.extractLsb'_toNat]
  refine ⟨congrArg Host.Outcome.next ((if_pos ⟨h, hst⟩).trans ?_), congrArg Host.Outcome.next (if_pos ⟨h, hst⟩),
    congrArg Host.Outcome.next (if_pos ⟨h, hst⟩)⟩
  rw [hlogn]

theorem exec_registerWrite_of_plain (v : DWord) :
    exec (.registerWrite f (.invva q) v) s = .next (s.modQueue (qKey f q) fun x => { x with invva := v }) ∧
      exec (.registerWrite f (.invn q) v) s = .next (s.modQueue (qKey f q) fun x => { x with invn := v.setWidth 32 }) :=
  ⟨congrArg Host.Outcome.next (if_pos h), congrArg Host.Outcome.next (if_pos h)⟩

end

theorem exec_registerWrite_of_busy {s : State} {f q : Nat} (hst : (s.queue (qKey f q)).state ≠ .disabled) (v : DWord) :
    exec (.registerWrite f (.ring q) v) s = .next s ∧ exec (.registerWrite f (.root q) v) s = .next s ∧
      exec (.registerWrite f (.statva q) v) s = .next s := by
  have hno : ¬(s.hasQueue f q = true ∧ (s.queue (qKey f q)).state = .disabled) := fun hc => hst hc.2
  exact ⟨congrArg Host.Outcome.next (if_neg hno), congrArg Host.Outcome.next (if_neg hno), congrArg Host.Outcome.next (if_neg hno)⟩

/-- A queue page that does not answer. -/
theorem exec_of_no_page {s : State} {f q : Nat} (h : s.hasQueue f q = false) :
    (∀ v, exec (.doorbell f q v) s = .next s) ∧ exec (.queueEnable f q) s = .next s ∧ exec (.queueDisable f q) s = .next s ∧
      exec (.queueCtlReset f q) s = .next s ∧ exec (.queueCtlPreempt f q) s = .next s ∧ exec (.queueCtlResume f q) s = .next s ∧
      exec (.queueInvalidate f q) s = .next s := by
  have hnot : (!s.hasQueue f q) = true := by rw [h]; rfl
  exact ⟨fun v => if_pos hnot, if_pos (.inl hnot), if_pos (.inl hnot), if_pos hnot, if_pos hnot, if_pos hnot, if_pos hnot⟩

/-! ## Offsets of the BAR (R421) -/

theorem barPage_queue {q off : Nat} (hq : q < 1024) (hoff : off < 0x1000) : barPage (0x100000 + 0x1000 * q + off) = .queue q off := by
  rw [barPage, if_neg (by omega), if_pos (by omega)]
  congr 1 <;> omega

theorem barPage_fn {off : Nat} (hoff : off < 0x1000) : barPage off = .fn off := if_pos hoff

/-- A page of a queue that does not answer has no words. -/
theorem State.readBar_of_hidden {s : State} (hv : s.visible = false) {f off : Nat} (h : f ≠ 0 ∨ 0x1000 ≤ off) :
    s.readBar f off = none := by
  have hqueue (q : Nat) : s.hasQueue f q = false := State.hasQueue_eq_false (.inr (.inr hv))
  by_cases h1 : off < 0x1000
  · have hpage : s.hasPage f = false := by
      have hf : f ≠ 0 := h.resolve_right (Nat.not_le.2 h1)
      simp [State.hasPage, hv, hf]
    simp only [State.readBar, barPage, h1, hpage, Bool.false_eq_true, if_false, if_true]
  · by_cases h2 : 0x100000 ≤ off ∧ off < 0x500000
    · simp only [State.readBar, barPage, h1, h2, hqueue, Bool.false_eq_true, if_false, if_true, and_self]
    · simp only [State.readBar, barPage, h1, h2, if_false]

section

variable {s : State} {f : Nat} {v : DWord}

theorem exec_registerWrite_bar {off : Nat} (hoff : off % 4 = 0) :
    exec (.registerWrite f (.bar off false) v) s = barWord f off (v.setWidth 32) s := if_pos hoff

theorem exec_registerWrite_barWide {off : Nat} (hoff : off % 8 = 0) :
    exec (.registerWrite f (.bar off true) v) s = barWide f off v s := if_pos hoff

/-- A write of a whole 64-bit register at its offset. -/
theorem exec_registerWrite_of_wideReg {q off : Nat} {r : HostReg} (hq : q < 1024) (hoff : off < 0x1000) (hal : off % 8 = 0)
    (hr : wideReg (.queue q off) = some r) :
    exec (.registerWrite f (.bar (0x100000 + 0x1000 * q + off) true) v) s = .next (s.plainWrite f r v) := by
  rw [exec_registerWrite_barWide (by omega), barWide, barPage_queue hq hoff, hr]

theorem ctl_field (v : DWord) : (fld (v.setWidth 32) 0 3).toNat = v.toNat % 8 := by
  rw [toNat_fld, BitVec.toNat_setWidth]
  omega

/-- CTL at its offset, by the action that it names. -/
theorem exec_registerWrite_ctl {q n : Nat} (hq : q < 1024) (hn : v.toNat % 8 = n) :
    exec (.registerWrite f (.bar (0x100000 + 0x1000 * q + 0x024) false) v) s = match (generalizing := false) n with
      | 1 => execQueueEnable f q s
      | 2 => execQueueDisable f q s
      | 3 => execQueueCtlReset f q s
      | 4 => execQueueCtlPreempt f q s
      | 5 => execQueueCtlResume f q s
      | _ => .next s := by
  have hctl : exec (.registerWrite f (.bar (0x100000 + 0x1000 * q + 0x024) false) v) s = ctlWrite f q (v.setWidth 32) s := by
    rw [exec_registerWrite_bar (by omega), barWord, barPage_queue hq (by decide)]
    rfl
  rw [hctl, ctlWrite, ctl_field, hn] <;> rfl

end

/-! ## The recovery mailbox (R436) -/

theorem State.fnPage_modFn (s : State) (f : Nat) (g : FnPage → FnPage) : (s.modFn f g).fnPage f = g (s.fnPage f) := by
  simp [State.modFn, State.fnPage]

section

variable {s : State} {x : FwImage} {version : Word} (hbusy : fld (s.fnPage 0).mbstat 0 2 = 1)
  (hlen : (s.fnPage 0).mbLen.toNat ≤ 2 ^ 26)

include hbusy hlen

/-- The end of verification, by its reasons. -/
theorem exec_mailboxVerifyDone_of_busy (readOk : Bool) : exec (.mailboxVerifyDone x version readOk) s =
    if readOk = false then .next (s.modFn 0 fun p => { p with mbstat := 0x403 })
    else if s.signatureOk x = false then .next (s.modFn 0 fun p => { p with mbstat := 0x103 })
    else if version.toNat < s.minVersion.toNat then .next (s.modFn 0 fun p => { p with mbstat := 0x203 })
    else
      let s1 := s.modFn 0 fun p => { p with mbstat := 2 }
      .next { s1 with
        fwImage := x, fwVersion := version, minVersion := version
        agenda := { dclk := 0, dtb := 0, act := .event .warmReset } :: s1.agenda } := by
  simp only [exec_mailboxVerifyDone, execMailboxVerifyDone, hbusy, Nat.not_lt.2 hlen, ne_eq, not_true, if_false, Bool.not_eq_true']
  rfl

end

theorem signatureOk_iff {s : State} {x : FwImage} : s.signatureOk x = true ↔ x.key = s.keyFuse ∧ x.signed = x.content := by
  simp [State.signatureOk]

/-! ## Packets (R425 to R431) -/

theorem State.onPacket_of_go {s s1 : State} {key ty idx : Nat} {w : Rec} (h : s.take key ty = .go s1 idx w)
    (f : State → Nat → Rec → State) : s.onPacket key ty f = .next (f s1 idx w) := by
  simp only [State.onPacket, h]

/-- The operation of a SIGNAL packet. -/
theorem sigOp_eq (x : BitVec 8) : (match x.toNat with | 0 => SigOp.set | 1 => SigOp.add | _ => SigOp.sub) =
    if x = 0 then SigOp.set else if x = 1 then SigOp.add else SigOp.sub := by
  have h0 : x = 0 ↔ x.toNat = 0 := ⟨fun h => by rw [h]; rfl, fun h => BitVec.eq_of_toNat_eq h⟩
  have h1 : x = 1 ↔ x.toNat = 1 := ⟨fun h => by rw [h]; rfl, fun h => BitVec.eq_of_toNat_eq h⟩
  rw [if_congr h0 rfl (if_congr h1 rfl rfl)]
  rcases x.toNat with _ | _ | n <;> rfl

/-- Settles O60, the registers by their names, then at their offsets, then the packets. -/
theorem hostRegistersAndPackets : Obligations.HostRegistersAndPackets := by
  unfold Obligations.HostRegistersAndPackets
  refine ⟨?_, ?_, ?_, ?_, ?_, ?_, ?_, ?_, ?_, ?_, ?_, ?_, ?_, ?_, ?_, ?_, ?_⟩
  · intro s f q hf hq hv key x
    have h : s.hasQueue f q = true := State.hasQueue_iff.2 ⟨hf, hq, hv⟩
    have hnot : ¬(!s.hasQueue f q) = true := by simp [h]
    refine ⟨fun v => exec_doorbell_of_page h, exec_queueEnable_of_disabled h, exec_queueDisable_of_enabled h, if_neg hnot,
      if_neg hnot, if_neg hnot, exec_queueInvalidate_of_unmapped h, fun n tag hmap => ?_,
      fun v hst => exec_registerWrite_of_disabled h hst v, fun v hst => exec_registerWrite_of_busy hst v,
      exec_registerWrite_of_plain h⟩
    exact ⟨_, _, rfl, exec_queueInvalidate_of_mapped h hmap⟩
  · exact fun s f q h => exec_of_no_page (State.hasQueue_eq_false h)
  · intro s f q v hf hq hv at_ wide
    have h : s.hasQueue f q = true := State.hasQueue_iff.2 ⟨hf, hq, hv⟩
    refine ⟨?_, ?_, ?_, ?_, exec_registerWrite_ctl hq, exec_registerWrite_ctl hq, exec_registerWrite_ctl hq,
      exec_registerWrite_ctl hq, exec_registerWrite_ctl hq, ?_, ?_, ?_⟩
    · exact exec_registerWrite_of_wideReg hq (by decide) (by decide) rfl
    · exact exec_registerWrite_of_wideReg hq (by decide) (by decide) rfl
    · exact exec_registerWrite_of_wideReg hq (by decide) (by decide) rfl
    · rw [exec_registerWrite_bar (by omega), barWord, barPage_queue hq (by decide)]
      rfl
    · rw [exec_registerWrite_bar (by omega), barWord, barPage_queue hq (by decide)]
      rfl
    · rw [State.readBar, barPage_queue hq (by decide)]
      exact if_pos h
    · rw [State.readBar, barPage_queue hq (by decide)]
      exact if_pos h
  · intro s f v hf
    have hdrop : exec (.registerWrite f (.bar 0x060 false) v) s =
        if v.getLsbD 31 = true then exec (.flogdropClear f) s else .next s := by
      have hbit : (v.setWidth 32).getLsbD 31 = v.getLsbD 31 := by simp
      rw [← hbit]
      rfl
    exact ⟨rfl, rfl, rfl, fun hv => hdrop.trans (if_pos hv), fun hv => hdrop.trans (if_neg (Bool.eq_false_iff.1 hv))⟩
  · intro s f off q hv
    exact ⟨fun hf => State.readBar_of_hidden hv (.inl hf), State.readBar_of_hidden hv (.inr (by omega))⟩
  · intro s f va hf hv
    have hpage : s.hasPage f = true := by
      rcases hv with hv | hv <;> simp [State.hasPage, hf, hv]
    refine ⟨fun htrip => if_neg (by simp [hpage, htrip]), congrArg Host.Outcome.next (if_pos hpage)⟩
  · intro s v
    exact ⟨⟨clampCap v, clampCap_toNat v, rfl⟩, fun f hf => congrArg Host.Outcome.next (if_neg hf)⟩
  · intro s hbusy
    have hgo : ¬((0 : Nat) ≠ 0 ∨ fld (s.fnPage 0).mbstat 0 2 = 1) := by simpa using hbusy
    refine ⟨fun hmap => ?_, fun hv hmap => ?_⟩
    · rw [exec_mailboxGo, execMailboxGo, if_neg hgo, if_neg (by simp [hmap])]
    · rw [exec_mailboxGo, execMailboxGo, if_neg hgo, if_pos ⟨hv, hmap⟩]
  · intro s x version hbusy hlen
    refine ⟨fun hkey hsigned hver => ?_, fun hbad => ?_, fun hkey hsigned hver => ?_, ?_⟩
    · have hsig := signatureOk_iff.2 ⟨hkey, hsigned⟩
      have hexec := exec_mailboxVerifyDone_of_busy (x := x) (version := version) hbusy hlen true
      rw [if_neg (by decide), if_neg (by simp [hsig]), if_neg (Nat.not_lt.2 hver)] at hexec
      have hstat := congrArg FnPage.mbstat (s.fnPage_modFn 0 fun p => { p with mbstat := 2 })
      exact ⟨_, hexec, rfl, rfl, rfl, hstat, rfl⟩
    · have hsig : s.signatureOk x = false := Bool.eq_false_iff.2 fun hsig => by
        obtain ⟨hkey, hsigned⟩ := signatureOk_iff.1 hsig
        exact hbad.elim (absurd hkey) (absurd hsigned)
      rw [exec_mailboxVerifyDone_of_busy hbusy hlen, if_neg (by decide), if_pos hsig]
    · have hsig := signatureOk_iff.2 ⟨hkey, hsigned⟩
      rw [exec_mailboxVerifyDone_of_busy hbusy hlen, if_neg (by decide), if_neg (by simp [hsig]), if_pos hver]
    · rw [exec_mailboxVerifyDone_of_busy hbusy hlen, if_pos rfl]
  · exact fun s s1 key idx w h => State.onPacket_of_go h _
  · exact fun s s1 key idx w h => State.onPacket_of_go h _
  · intro s s1 key idx w h
    refine (State.onPacket_of_go h _).trans ?_
    have hop := sigOp_eq (fld (recWord w 6) 0 8)
    exact congrArg (fun op => Host.Outcome.next (s1.signal key (pktWide w 2) op (pktWide w 4) (some idx))) hop
  · intro s s1 key idx w h hseal
    exact (State.onPacket_of_go h _).trans (by rw [hseal, if_neg Bool.false_ne_true])
  · intro s s1 key idx w h hseal
    exact (State.onPacket_of_go h _).trans (by rw [if_pos hseal])
  · intro s s1 key idx w p rest h hst
    have hhead : ((s1.queue key).started.head?.any fun p => p.index == idx) = (p.index == idx) := by
      rw [hst]
      rfl
    refine ⟨fun hp => (State.onPacket_of_go h _).trans ?_, fun hp => (State.onPacket_of_go h _).trans ?_⟩
    · rw [hhead, if_pos (beq_iff_eq.2 hp)]
    · rw [hhead, if_neg (mt beq_iff_eq.1 hp)]
  · exact fun s s1 key idx w h => State.onPacket_of_go h _
  · exact fun s s1 key idx w h => State.onPacket_of_go h _

end Sys2Proof.Machine
